-- ==== Sys2Proof/Syntax.lean ====
section
/-!
DEFINITION. The commands of the ZM-8860: one constructor of Instr for each row of spec/opcode_table.json, and the types
of their operands. A command is one indivisible step of the module: a dictionary request, a register write, a ring
command, or an event. What only the outside decides (a training result, a raw count, a temperature, a fault) comes as an
operand of the event's command.
-/

namespace Sys2Proof

/-- The carrier of a dictionary request (R528, Table DI-15). -/
inductive Carrier where
  /-- The BAR2 portal of a module function: 0 to 63 on H0, 64 the PF on H1. -/
  | portal (func : Fin 65)
  /-- A UDP client: network 0 and 1 are the 1000BASE-T1 ports, 2 the field segment; its address as sent on the wire. -/
  | udp (net : Fin 3) (addr : List Byte) (port : BitVec 16)
  /-- The CAN FD side-band. -/
  | can
  /-- The fabric relay of the module with this id.serial; whether the relaying session is MGR there (R418). -/
  | relay (serial : BitVec 64) (mgr : Bool)
  deriving DecidableEq, Repr

/-- Who sends a dictionary request: its carrier, the session it names and its sequence number (Table DI-7). -/
structure DictReq where
  src : Carrier
  session : BitVec 16
  seq : BitVec 16
  deriving DecidableEq, Repr

/-- The item header of Table DI-8: index, subindex, type code. -/
structure ItemHdr where
  index : BitVec 16
  sub : BitVec 8
  ty : BitVec 8
  deriving DecidableEq, Repr

/-- A request PDU's opcode and payload (Table DI-8). -/
inductive Request where
  | openSession (lease : BitVec 16) (tag : BitVec 32)
  | close
  | keepalive
  | read (h : ItemHdr)
  | write (h : ItemHdr) (data : List Byte)
  | writeIf (h : ItemHdr) (expected : BitVec 16) (data : List Byte)
  | describe (h : ItemHdr)
  | readSeg (h : ItemHdr) (offset : BitVec 32) (length : BitVec 16)
  | writeSeg (h : ItemHdr) (offset total : BitVec 32) (data : List Byte)
  | group (items : List (ItemHdr × List Byte))
  | subscribe (mask : BitVec 32)
  | unknown (op : BitVec 8)
  /-- A known opcode whose payload is not of the form Table DI-8 gives, with its item header where one is there: answered with
  RANGE, unless the object gives an earlier refusal (R530). -/
  | badPayload (op : BitVec 8) (item : Option ItemHdr)
  deriving DecidableEq, Repr

/-- A fetched ring command's header (Table FP-5), with the hardware ring it was fetched from, and what the host has written into
its own memory since the module last read there, as (address, bytes) pairs in the order written: no row of the table writes
host memory (log 251); and the ranges, first and last address, that the host's translation refuses to the function. -/
structure CmdHdr where
  ring : Fin 256
  host : List (BitVec 64 × List Byte) := []
  hostBad : List (BitVec 64 × BitVec 64) := []
  flags : BitVec 8
  tag : BitVec 16
  func : BitVec 8
  ctx : BitVec 8
  hwring : BitVec 8
  surface : BitVec 32
  deriving DecidableEq, Repr

/-- A rectangle: origin and size. -/
structure Rect where
  x : BitVec 16
  y : BitVec 16
  w : BitVec 16
  h : BitVec 16
  deriving DecidableEq, Repr

/-- The COPY payload (Table CM-4). -/
structure CopyPayload where
  kind : BitVec 8
  src : BitVec 32
  host : BitVec 64
  pitch : BitVec 32
  rect : Rect
  sx : BitVec 16
  sy : BitVec 16
  fill : BitVec 32
  deriving DecidableEq, Repr

/-- The CONVERT payload (Table CM-5). -/
structure ConvertPayload where
  src : BitVec 32
  srect : Rect
  drect : Rect
  rot : BitVec 8
  filter : BitVec 8
  matrix : BitVec 8
  flags : BitVec 8
  deriving DecidableEq, Repr

/-- The LAYER_SET payload (Table SO-9). -/
structure LayerSetPayload where
  port : BitVec 8
  layer : BitVec 8
  mask : BitVec 16
  srcXY : BitVec 32
  srcWH : BitVec 32
  dstXY : BitVec 32
  dstWH : BitVec 32
  enable : BitVec 8
  blend : BitVec 8
  alpha : BitVec 8
  matrix : BitVec 8
  rot : BitVec 8
  hint : BitVec 8
  flags : BitVec 8
  deriving DecidableEq, Repr

/-- The DRAW_SUBMIT payload (Table TP-4). -/
structure DrawPayload where
  list : BitVec 64
  len : BitVec 32
  frame : BitVec 32
  area : Rect
  target1 : BitVec 32
  target2 : BitVec 32
  target3 : BitVec 32
  samples : BitVec 8
  load : BitVec 8
  depth : BitVec 8
  zero : BitVec 8 := 0
  clear : BitVec 64
  deriving DecidableEq, Repr

/-- A record of a pass list (Table TP-5), with the fields that the checks and the state of a pass use. -/
inductive PassRecord where
  | nop
  | program (first second : BitVec 16)
  | bind (binding kind : BitVec 8) (ref : BitVec 64) (size : BitVec 32) (filter address matrix : BitVec 8)
  | viewport (x y w h zmin zmax : BitVec 32)
  | raster (cull front depthFn depthWrite stencil stencilFn ref readMask writeMask failOp dfailOp passOp : BitVec 8)
      (scissor : Rect)
  | blend (target mode mask : BitVec 8)
  | draw (topology indexSize : BitVec 8) (count first instances : BitVec 32) (index : BitVec 64) (base firstInst : BitVec 32)
  | dispatch (x y z : BitVec 32)
  | unknown (type : BitVec 8)
  deriving DecidableEq, Repr

/-- The HAPTIC_PLAY payload (Table HS-4). -/
structure HapticPayload where
  chans : BitVec 16
  effect : BitVec 8
  cls : BitVec 8
  scale : BitVec 8
  flags : BitVec 8
  deadline : BitVec 8
  start : BitVec 64
  deriving DecidableEq, Repr

/-- The TOUCH_BUF payload (Table TO-3). -/
structure TouchBufPayload where
  panel : BitVec 8
  slots : BitVec 8
  address : BitVec 64
  deriving DecidableEq, Repr

/-- The initiators of Table WO-9's world.viol.last that carry T = 0. -/
inductive Initiator where
  | cluster | h0 | h1 | fabric | dma (n : Fin 32) | engines | responder
  deriving DecidableEq, Repr

/-- The outcome of a start or restart of the trusted world (R325, R327): it runs, its image check having failed once before or
not; or its self-test or its image check failed twice. -/
inductive BootOutcome where
  | runs (imageRetried : Bool)
  | selfTestFailed
  | imageFailed
  deriving DecidableEq, Repr

/-- What one touch frame delivers (R338): raw counts TX-major, one self count per line, the quietest TX frequency,
per serving chiplet whether its checked channel passed (first test, retry, spare's test), the longest report latency. -/
structure TouchFrame where
  nodes : List (BitVec 12)
  lines : List (BitVec 12)
  freq : Fin 4
  chanOk : List (Bool × Bool × Bool)
  latencyUs : Nat
  deriving DecidableEq, Repr

/-- What the tests and the acquisition of a panel start measure (R359, R360, R344): per chiplet the reference capacitor on each channel in
fF, and on each channel tested again; two self scans of the lines' pads; per line its pad driven alone: its own count and those of the pads
one lower and one higher; eight frames of raw counts and of self counts. -/
structure PanelTest where
  refcap : List (Fin 4 × List (BitVec 16))
  retry : List (Fin 4 × List (BitVec 16))
  pads : List (List (BitVec 12))
  driven : List (BitVec 12 × BitVec 12 × BitVec 12)
  frames : List (List (BitVec 12))
  selfFrames : List (List (BitVec 12))
  deriving DecidableEq, Repr

/-- A fabric packet as the switch sees it (Table AF-2). -/
structure Packet where
  dest : BitVec 8
  src : BitVec 8
  cls : BitVec 8
  type : BitVec 8
  lseq : BitVec 16
  flow : BitVec 32
  offset : BitVec 32
  payload : List Byte
  deriving DecidableEq, Repr

/-- A link-state record (R408): serial, sequence number, address or 0xFF, and per link up the partner's serial, the
module's link number and the width in lanes. -/
structure LinkRecord where
  serial : BitVec 64
  seq : BitVec 32
  addr : BitVec 8
  links : List (BitVec 64 × Nat × Nat)
  deriving DecidableEq, Repr

/-- One side of the host's stream control blocks at the start of an audio period (Table HS-10): wr of each running
input and rd of each running capture, by number, and the samples that came in on each TDM slot (8 × port + slot) in the period. -/
structure AudioIn where
  inputWr : List (Nat × BitVec 32)
  captureRd : List (Nat × BitVec 32)
  tdm : List (Nat × List (BitVec 24))
  deriving DecidableEq, Repr

/-- The commands: one constructor per row of spec/opcode_table.json, in the table's order. -/
inductive Instr where
  -- the dictionary
  | openCmd (r : DictReq) (lease : BitVec 16) (tag : BitVec 32)
  | close (r : DictReq)
  | keepalive (r : DictReq)
  | read (r : DictReq) (h : ItemHdr)
  | write (r : DictReq) (h : ItemHdr) (data : List Byte)
  | writeIf (r : DictReq) (h : ItemHdr) (expected : BitVec 16) (data : List Byte)
  | describe (r : DictReq) (h : ItemHdr)
  | readSeg (r : DictReq) (h : ItemHdr) (offset : BitVec 32) (length : BitVec 16)
  | writeSeg (r : DictReq) (h : ItemHdr) (offset total : BitVec 32) (data : List Byte)
  | group (r : DictReq) (items : List (ItemHdr × List Byte))
  | subscribe (r : DictReq) (mask : BitVec 32)
  | malformedPdu (pdu : List Byte)
  | unknownOpcode (r : DictReq) (op : BitVec 8)
  | leaseExpiry
  | portalGo (func : Fin 65) (pdu : List Byte)
  | portalResponse (func : Fin 65)
  | canSegmentRx (ident : BitVec 11) (data : List Byte)
  | eventFrameTx
  | sysDefaults (r : DictReq) (value : BitVec 8)
  | twDictRequest (q : Request)
  -- the fast path
  | doorbell (func : Fin 65) (ring : Fin 16) (value : BitVec 32)
  | cqHeadWrite (func : Fin 65) (ring : Fin 16) (value : BitVec 16)
  | evtPendClear (func : Fin 65) (mask : BitVec 32)
  | evtMaskWrite (func : Fin 65) (mask : BitVec 32)
  | snapSel (func : Fin 65) (value : BitVec 32)
  | registerWrite (func : Fin 65) (offset : BitVec 16) (value : BitVec 32)
  | nop (h : CmdHdr)
  | commandBadop (h : CmdHdr) (op : BitVec 8)
  -- fences
  | fenceSignal (h : CmdHdr) (fence : BitVec 32) (value : BitVec 64)
  | fenceWait (h : CmdHdr) (fence timeout : BitVec 32) (value : BitVec 64)
  | fenceWaitTimeout (ring : Fin 256)
  | fenceClaim (r : DictReq) (slot : Fin 256) (expected : BitVec 16) (owner : BitVec 8)
  | fenceValueWrite (r : DictReq) (slot : Fin 256) (value : BitVec 64)
  -- rendering
  | drawSubmit (h : CmdHdr) (p : DrawPayload)
  | computeDispatch (h : CmdHdr) (list : BitVec 64) (len : BitVec 32) (zero : BitVec 288)
  | translationDone (slot : Fin 256)
  | tilePhaseStart (ctx : Fin 64)
  | coreDispatchPoint (core : Fin 36)
  | tileDone (core : Fin 36) (binPoison : Bool)
  | workgroupDone (core : Fin 36) (which : Nat)
  | gpuWatchdog (ctx : Fin 64)
  | coreFault (core : Fin 36) (retryPasses : Bool) (sparePasses : List (Fin 36))
  | progClaim (r : DictReq) (slot : Fin 256) (expected : BitVec 16) (owner : BitVec 8)
  -- contexts and scheduling
  | ctxEnable (r : DictReq) (ctx : Fin 64)
  | ctxDisable (r : DictReq) (ctx : Fin 64)
  | ctxStopDone (ctx : Fin 64)
  | arbitration
  | preemptDone (core : Fin 36) (latencyNs position spillNs : Nat)
  | compositorRowEligible (port : Fin 8) (row : Fin 256)
  | rowComposeDone (port : Fin 8) (row : Fin 256)
  | rowPrefetchPoint (port : Fin 8) (row : Fin 256)
  | scanoutWake (port : Fin 8)
  -- surfaces
  | surfClaim (r : DictReq) (slot : Fin 2048) (expected : BitVec 16) (owner : BitVec 8)
  | surfAlloc (r : DictReq) (slot : Fin 2048)
  | surfRelease (r : DictReq) (slot : Fin 2048)
  | surfScrubDone (slot : Fin 2048)
  | copy (h : CmdHdr) (p : CopyPayload)
  | convert (h : CmdHdr) (p : ConvertPayload)
  -- outputs
  | layerSet (h : CmdHdr) (p : LayerSetPayload)
  | commit (h : CmdHdr) (ports : BitVec 8)
  | outCommit (r : DictReq) (port : Fin 8) (value : BitVec 8)
  | outEnable (r : DictReq) (port : Fin 8)
  | outDisable (r : DictReq) (port : Fin 8)
  | outputStopDone (port : Fin 8)
  | outModeWrite (r : DictReq) (port : Fin 8) (mode : BitVec 8)
  | closePoint (port : Fin 8)
  | vbs (port : Fin 8)
  | frameStart (port : Fin 8)
  | lineMatch (port : Fin 8)
  | frameDone (port : Fin 8)
  | underrun (port : Fin 8) (line : BitVec 16) (stream : Fin 7) (pixel : BitVec 16)
  | linkTrainingDone (port : Fin 8) (ok : Bool) (edid : List Byte)
  | linkRetryTimer (port : Fin 8)
  | hpdRise (port : Fin 8)
  | hpdFall (port : Fin 8) (pulseUs : Nat) (lockLost : Bool)
  | engineFault (engine : Fin 9) (retryPasses : Bool) (sparePasses : List (Fin 9))
  -- Kaolin
  | kaolinCommit (port : Fin 8) (value : BitVec 8)
  | kaolinSramWrite (addr : Nat) (data : List Byte)
  | sigCompare (port : Fin 8) (rect : Fin 32) (seen : Option (BitVec 32))
  -- memory
  | memRead (rank : Fin 6) (word : Nat) (noise1 noise2 : List Byte) (scrub : Bool)
  | memWrite (rank : Fin 6) (addr : Nat) (data : List Byte)
  | ceBucketExpiry
  | groupTrainingDone (group : Fin 3) (badPins : List (Fin 144)) (caBad : Bool)
  | sparePatternTestDone (rank : Fin 6) (ok : Bool)
  | migrationDone (rank : Fin 6)
  | dqsOscCheck (group : Fin 3) (driftTenthPct : Nat) (fails : Nat) (temp : BitVec 32)
  | scrubBurst (group : Fin 3) (start words : Nat)
  | refresh (rank : Fin 6)
  | rankPowerDown (rank : Fin 6)
  | selfRefreshEntry (group : Fin 3)
  | memRetireReq (r : DictReq) (rank : BitVec 8)
  | memInjArm (r : DictReq) (value : Bool)
  -- virtual functions
  | vfEnable (r : DictReq) (vf : Fin 64)
  | vfDisable (r : DictReq) (vf : Fin 64)
  | grantWrite (r : DictReq) (vf : Fin 64) (sub : BitVec 8) (value : BitVec 32)
  | grantShareWrite (r : DictReq) (vf : Fin 64) (value : BitVec 16)
  | regionWrite (r : DictReq) (vf : Fin 64) (touch : Bool) (region : Fin 8) (sub : BitVec 8) (value : BitVec 32)
  | ringOwnerWrite (r : DictReq) (ring : Fin 256) (owner : BitVec 8)
  | ringEnable (r : DictReq) (ring : Fin 256) (value : Bool)
  | ringOrderWrite (r : DictReq) (ring : Fin 256) (order : BitVec 8)
  | resizeDone (ring : Fin 256)
  | vfFlr (r : DictReq) (vf : Fin 64) (value : BitVec 8)
  | pcieFlr (func : Fin 65)
  | vfEnableClear
  | pfFlr (h1 : Bool)
  | flrDone (func : Fin 65)
  | migFreeze (r : DictReq) (vf : Fin 64)
  | migThaw (r : DictReq) (vf : Fin 64)
  | freezeDone (vf : Fin 64) (position : List Nat)
  | migSave (r : DictReq) (vf : Fin 64)
  | migRestore (r : DictReq) (vf : Fin 64)
  | imageDone (vf : Fin 64)
  | logEnable (r : DictReq) (vf : Fin 64) (value : Bool)
  | logSwap (r : DictReq) (vf : Fin 64) (value : BitVec 8)
  | logSwapDone (vf : Fin 64)
  -- the worlds
  | gateQuote (nonce : List Byte)
  | gateRandom (count : BitVec 32)
  | gateReleaseAsk (domain : BitVec 32)
  | gateBadsvc (svc : BitVec 16)
  | gateRelease (result nres : BitVec 4) (args : List (BitVec 32)) (bufLen : BitVec 13) (buf : List Byte)
  | trustedTargetAccess (who : Initiator) (target : BitVec 8) (write : Bool) (len : Fin 65)
  | pinTWrite (pin : Fin 96) (trusted : Bool)
  | dmaTWrite (chan : Fin 32) (trusted : Bool)
  | claimHoldWrite (domain : Fin 24) (value : Bool)
  | cutNoticeExpiry (domain : Fin 24)
  | watchdogKick (value : BitVec 8)
  | watchdogExpiry
  | lockstepFault
  | twRestartRequest
  | twRestartDone (outcome : BootOutcome)
  | attNonceWrite (r : DictReq) (nonce : List Byte)
  | quoteSigned (session : BitVec 16)
  -- touch
  | touchFrameMark (panel : Fin 4) (f : TouchFrame)
  | stuckTimeout (panel : Fin 4) (id : Fin 16)
  | driftEntry (panel : Fin 4)
  | driftFrame (panel : Fin 4) (groups : List (BitVec 12)) (chanOk : List (Bool × Bool × Bool))
  | panelEnable (r : DictReq) (panel : Fin 4)
  | panelStartDone (panel : Fin 4) (t : PanelTest)
  | panelDisable (r : DictReq) (panel : Fin 4)
  | panelStopDone (panel : Fin 4)
  | panelRefCapture (r : DictReq) (panel : Fin 4) (value : BitVec 8)
  | panelTestRun (r : DictReq) (panel : Fin 4) (value : BitVec 8)
  -- haptics
  | effectDue (chan : Fin 16)
  | brakingStart (chan : Fin 16) (peakMg : Nat)
  | brakingEnd (chan : Fin 16) (accelMg : Nat)
  | queueHeadTimeout (chan : Fin 16)
  | effectDeadline (chan : Fin 16)
  | hapTrip (chan : Fin 16) (cause : Fin 3) (capNf : BitVec 32)
  | tripProbe (chan : Fin 16) (capNf : BitVec 32)
  | chReset (r : DictReq) (chan : Fin 16) (value : BitVec 8) (capNf : BitVec 32)
  | onTimeCut (chan : Fin 16)
  | dutyCut (chan : Fin 16)
  | accelTimeout (chan : Fin 16) (reads : List (BitVec 32))
  | driverFault (chan : Fin 16) (retryPasses sparePasses : Bool)
  | hapEnable (r : DictReq)
  | hapReady (badDrivers : List (Fin 17))
  | hapDisable (r : DictReq)
  | interlockOpen
  | interlockClosed
  -- sound
  | sndEnable (r : DictReq)
  | sndDisable (r : DictReq)
  | streamEnable (r : DictReq) (capture : Bool) (number : Fin 64) (value : Bool)
  | audioPeriod (a : AudioIn)
  | avtpPacketRx (listener : Fin 8) (presentation : BitVec 64) (samples : List (BitVec 24))
  | avtpPacketTx (talker : Fin 8)
  | clockLockChange (locked : Bool)
  | chimeStart (clip : Fin 16) (repeats : BitVec 8)
  | chimeStop
  | chimeEnd
  -- fabric
  | laneTrainingDone (link : Fin 4) (good : List (Fin 5)) (reversed : Bool) (inverted : List (Fin 5))
  | linkFailedRetry (link : Fin 4)
  | packetRx (link : Fin 4) (p : Packet) (acked : Option (BitVec 16)) (credits : List Nat) (crcOk replayOk : Bool)
  | linkTimeout (link : Fin 4)
  | linkHoldExpiry (link : Fin 4)
  | hello (link : Fin 4) (serial : BitVec 64) (addr : BitVec 8) (gen : BitVec 32) (partnerLink : Fin 4)
  | linkStateRecordRx (rec : LinkRecord)
  | fabricStable
  | syncExchange (link : Fin 4) (offset : Int) (errNs : Nat)
  | fabRelayWrite (r : DictReq) (data : List Byte)
  | fabRelayRead (r : DictReq)
  | relayedPduRx (serial : BitVec 64) (mgr : Bool) (pdu : List Byte)
  | relayReplyRx (session : BitVec 16) (pdu : List Byte)
  | spreadEnable (r : DictReq) (spread : Fin 8)
  | spreadDisable (r : DictReq) (spread : Fin 8)
  | spreadCommit (r : DictReq) (spread : Fin 8) (value : BitVec 8)
  | spreadClosePoint (spread : Fin 8)
  | spreadStateRx (spread : Fin 8) (member : Fin 16) (late : Bool) (offset : Int)
  | spreadMemberLost (spread : Fin 8) (member : Fin 16)
  -- power
  | powerGood (open0 open1 : Bool)
  | domainRampStart (domain : Fin 24)
  | domainRampDone (domain : Fin 24)
  | domainOn (domain : Fin 24) (failed sparePasses : List (Fin 36))
  | domainOff (domain : Fin 24)
  | domHoldWrite (r : DictReq) (domain : Fin 24) (value : Bool)
  | domTwWrite (domain : Fin 24) (value : Bool)
  | pwrReqStandby (r : DictReq)
  | standbyReached
  | pwrReqRun (r : DictReq)
  | wakeCanFrame (data : List Byte)
  | pwrReset (r : DictReq) (value : BitVec 8)
  | resetHoldExpiry
  | perstDeassert (h1 : Bool) (offered : Fin 17) (reversed : Bool) (inverted : BitVec 16) (refclk : Bool)
  | hostAvailability
  | thermalSample (temps : List (BitVec 32))
  | throttleStepTimer
  | supplyChange (mv : BitVec 16)
  | emergencyClear
  -- clocks
  | islGateWrite (r : DictReq) (island : Fin 40) (value : Bool)
  | islRateWrite (r : DictReq) (island : Fin 40) (value : BitVec 16)
  | timeUpdate (master : BitVec 64)
  -- spares and health
  | grogRetest (r : DictReq) (value : BitVec 16) (passes : Bool)
  | mramRowWrite (bank : Fin 16) (row : Fin 2048) (badReads : Nat)
  | diagEnable (r : DictReq) (value : Bool)
  -- side pins
  | sidePinEdge (pin : Fin 96) (level : Bool)
  | spFuncWrite (r : DictReq) (pin : Fin 96) (value : BitVec 8)
  | spPwmWrite (r : DictReq) (pin : Fin 96) (freq : Bool) (value : BitVec 32)
  -- late rows of the table
  | hapticPlay (h : CmdHdr) (p : HapticPayload)
  | touchBuf (h : CmdHdr) (p : TouchBufPayload)
  | attackEnd (chan : Fin 16)
  | effectFits (chan : Fin 16)
  | balanceMoveStart (loads : List (BitVec 32))
  | balanceMoveDone
  | linkBringUp (link : Fin 4)
  deriving DecidableEq, Repr

end Sys2Proof
end

