-- ==== Sys2Proof/Decode.lean ====
section
/-!
DEFINITION. Words of the opcode table. Its rows give no bits: a command of the ZM-8860 is a request, a register write, a ring command
or an event, and has no word of its own.
-/

namespace Sys2Proof

/-- The command that a word of `nbits` bits spells by the table: none, for no row of the table gives bits. -/
def decodeTableWord (nbits w : Nat) : Option Instr :=
  match nbits, w with
  | _, _ => none

end Sys2Proof
end

