-- ==== Sys2Proof/Config.lean ====
section
/-!
DEFINITION. What one module or one implementation fixes and the free values of the model. Every constant here is opaque:
no proof can see what it is, so a statement that holds, holds for every value of it. Log entries 10 to 19, 112, 121, 261, 263, 274, 280, 281, 283, 284, 287, 289 and 299 list them.
-/

namespace Sys2Proof.Config

/-- True for the -AQ order code, false for -IC (id.order, Table DI-4: per module). -/
opaque isAutomotive : Bool

/-- id.serial (Table DI-4: per module). -/
opaque serial : BitVec 64

/-- id.fw (Table DI-4: per image). -/
opaque firmware : BitVec 32

/-- The device certificate of att.cert (per module). -/
opaque attestationCert : List Byte

/-- pwr.in at the start, in mV, before the first SUPPLY_CHANGE (measured). -/
opaque firstInputMv : BitVec 16

/-- The module's input power in mW, as far as its limit allows it (R515), and the reading of pwr.draw in 0.1 W, as far as its accuracy
does (R514), by the number of the 10 ms. -/
opaque inputPower : Nat → BitVec 32
opaque drawReading : Nat → BitVec 16

/-- The bits of grp.temp before the first refresh reads MR4 (measured). -/
opaque firstGroupTemp : BitVec 32

/-- isl.name of an island: the spec gives the object no text (Table CI-2: per island). -/
opaque islandName : Nat → List Byte

/-- Rows 1 to 3 of a data column of the parity-check matrix, row 1 in bits 3:0 (R253: read from mem.ecc.h). -/
opaque eccColumn : Nat → BitVec 12

/-- The bank (3:0), row (39:8) and column (55:40) of a rank's word (Table MM-5): the spec gives no mapping. -/
opaque memPlace : Nat → BitVec 56

/-- SHA-384 (R328): the digest of a byte string, as 48 bytes are used from it. -/
opaque sha384 : List Byte → BitVec 384

/-- The ECDSA signature of a quote over its body (R331), 96 bytes. -/
opaque signature : List Byte → BitVec 768

/-- The measured items of Table WO-7 by component code: their bytes, and their versions coded as id.fw. -/
opaque component : Nat → List Byte
opaque componentVersion : Nat → BitVec 32

/-- The random number generator's word at its n-th draw (R315). -/
opaque random : Nat → BitVec 32

/-- Whether a gated island is idle at an instant, so that its clock stands still (R462). -/
opaque islandIdle : Nat → Nat → Bool

/-- The row of MRAM (bank × 2048 + row) that holds content n (the spec gives no placement): the first copy of the stored object with
key n, its second copy at 2^25 + n, row n of the Grog log at 2^24 + n, entry n of the attestation log at 2^26 + n. -/
opaque mramRow : Nat → BitVec 15

/-- The area of an MRAM row (R480): 0 stored objects, 1 logs, 2 the attestation log, 3 none of these. -/
opaque mramArea : Nat → BitVec 2

/-- Whether an MRAM row holds no content as the module is made (R480). -/
opaque mramEmpty : Nat → Bool

/-- clk.stall and sched.fe.switch at an instant: measured times of crossings and of the front end, which the model does not time. -/
opaque stallTime : Nat → BitVec 64
opaque switchTime : Nat → BitVec 32

/-- A measured value that no operand carries, by the fresh number of the reading. -/
opaque measured : Nat → BitVec 32

/-- A free bit, by a fresh number: which of two things happens where the spec leaves it open. -/
opaque freeBit : Nat → Bool

/-- A free number, by a fresh number: a value the spec leaves open. -/
opaque freeNat : Nat → Nat

/-- A free byte string, by a fresh number. -/
opaque freeBytes : Nat → List Byte

/-- The source number that NOTIFY and event frames carry for an event code and the number of the thing it is about: the spec
names the field (Table DI-8, R45) and gives it no values. -/
opaque eventSource : Nat → Nat → BitVec 16

/-! ## The pipeline and composition -/

/-- What a program asks of the machine, or the end of its run: the strategy of one invocation, or of one workgroup. Words are 32-bit
(R173); a texture sample names its coordinates as binary32. -/
inductive ProgAction where
  /-- Read a word of a buffer binding, at a byte offset. -/
  | read (binding offset : Nat)
  /-- Write a word of a read-write buffer, at a byte offset. -/
  | write (binding offset : Nat) (value : BitVec 32)
  /-- An atomic operation on a word of a read-write buffer: 0 add, 1 and, 2 or, 3 xor, 4 and 5 unsigned least and greatest, 6 and 7
  signed, 8 exchange, 9 compare and exchange. -/
  | atomic (binding offset op : Nat) (value compare : BitVec 32)
  /-- Sample a texture at (u, v). -/
  | sample (binding : Nat) (u v : BitVec 32)
  /-- Read a pixel of a texture or storage image. -/
  | fetch (binding x y : Nat)
  /-- Write a pixel of a storage image. -/
  | store (binding x y : Nat) (r g b a : BitVec 32)
  /-- The end: output words, whether the fragment is discarded, and the depth it writes. -/
  | done (out : List (BitVec 32)) (discard : Bool) (depth : Option (BitVec 32))
  deriving Inhabited

/-- The next action of a program, by its SPIR-V, its entry point, what the invocation is given, and the answers so far: the guest's
own code, which the model does not execute (log 121). -/
opaque program : List Byte → List Byte → List Nat → List (List (BitVec 32)) → ProgAction

/-- How many actions of an invocation the module carries out; a program that goes on is stopped by the watchdog (R208). -/
opaque actionBound : Nat

/-- The instructions of a program's translated code, in order: 0 plain, 1 backward branch, 2 barrier, 3 fence (R171). -/
opaque translated : List Byte → List Byte → List Nat

/-- The 32-bit registers per thread that a program's translation needs (R170). -/
opaque progRegs : List Byte → List Byte → Nat

/-- Whether a SPIR-V module is well formed beyond what R173 limits. -/
opaque programValid : List Byte → List Byte → Bool

/-- prog.error's text for the limit that a program breaks: the spec gives none. -/
opaque programError : Nat → List Byte

/-- What a NaN counts as: the spec states no result. -/
opaque nanValue : Nat → ℚ

/-- The bits of a pixel that a format ignores, as the module writes them (Table CM-3, RGBX-8888). -/
opaque padding : Nat → Byte

/-- A pixel of a scaled layer, by path (1 direct, 2 flat), the 12-bit colours and alphas of its source rectangle (none where
transparent), its width, rotation and destination size, and the position there: the spec names no filter. Red, green and blue in 12
bits each, and alpha in 16. -/
opaque scaledPixel : Nat → List (Option (Nat × Nat × Nat × ℚ)) → Nat → Nat → Nat × Nat → Nat × Nat → BitVec 52

/-- What CONVERT's four-tap filter makes of 4 × 4 source pixels, line by line, each as red, green, blue and alpha, at the fractions of the
position between the middle ones: the spec names no weights (R84, log 112). -/
opaque fourTap : List (List ℚ) → ℚ → ℚ → List ℚ

/-- How long a core takes to restore a spilled unit, in ns: the spec bounds it nowhere (R227). -/
opaque restoreTime : Nat → Nat

/-- Whether at an instant traffic of a higher class fills a group, so that a retirement copy makes no headway (R269). -/
opaque copyHeld : Nat → Bool

/-! ## Haptics -/

/-- The power in mW that a channel's drive asks of the rail, by channel, effect, scale and the time since its start: it depends on the
actuator (R519, log 284). -/
opaque drivePower : Nat → Nat → Nat → Nat → BitVec 32

/-- The drive voltage in µV that a channel's loop computes, by channel, effect, scale and the time since its start: feed-forward and a
correction from the measured acceleration, whose law the spec does not give (R373, log 289). -/
opaque loopDrive : Nat → Nat → Nat → Nat → BitVec 32

/-! ## Sound -/

/-- The amplitude that a gain in 0.1 dB stands for: 10^(g/200) is no rational, and the spec names no precision (R389, log 283). -/
opaque amplitude : Int → ℚ

/-- Whether a value between two samples becomes the upper one: the spec names no rounding (R389, log 283). -/
opaque sampleUp : ℚ → Bool

/-- Bits [7:0] of the words that captures write (Table HS-9). -/
opaque capturePad : Byte

/-! ## The fabric -/

/-- The packets of a class that a link's partner has room for: the spec gives the credits no number (R407). -/
opaque linkCredit : Nat → Nat

/-- The surface read that a SURF packet's type and payload ask for, as handle, byte offset and length; and an answer's type and payload
for the bytes read, none where poisoned: the spec gives them no form (R424, log 281). -/
opaque surfRequest : BitVec 8 → List Byte → Option (Nat × Nat × Nat)
opaque surfAnswer : List (Option Byte) → BitVec 8 × List Byte

end Sys2Proof.Config
end

