-- ==== Sys2Proof/Machine/Tab.lean ====
section
/-!
DEFINITION. Numbered tables and byte memories, both plain lists. A table lists (number, record) pairs with the numbers
rising; a number it does not list has the reset record that its reader names. A memory lists (address, byte) pairs
(Host.Cell), addresses strictly rising and no byte 0 listed: an unlisted address reads as 0.
-/

namespace Sys2Proof.Machine

/-- A table of records by number. -/
abbrev Tab (α : Type) := List (Nat × α)

/-- The record listed for number `k`, if any. -/
def tfind {α : Type} : Tab α → Nat → Option α
  | [], _ => none
  | (k', v) :: r, k => if k = k' then some v else tfind r k

/-- The record of number `k`, or `d` where the table lists none. -/
def tget {α : Type} (t : Tab α) (k : Nat) (d : α) : α := (tfind t k).getD d

/-- The table with record `v` at number `k`. -/
def tset {α : Type} : Tab α → Nat → α → Tab α
  | [], k, v => [(k, v)]
  | (k', v') :: r, k, v =>
    if k = k' then (k, v) :: r
    else if k < k' then (k, v) :: (k', v') :: r
    else (k', v') :: tset r k v

/-- The table with number `k` no longer listed. -/
def tdel {α : Type} (t : Tab α) (k : Nat) : Tab α := t.filter (fun e => e.1 ≠ k)

/-- A byte memory in canonical form. -/
abbrev Memory := List Host.Cell

/-- The byte at an address; an unlisted address reads as 0. -/
def memGet : Memory → Nat → Byte
  | [], _ => 0
  | (a', b) :: r, a => if a = a' then b else memGet r a

/-- Puts a byte that is not 0 in its place. -/
def memPut : Memory → Nat → Byte → Memory
  | [], a, b => [(a, b)]
  | (a', b') :: r, a, b =>
    if a = a' then (a, b) :: r
    else if a < a' then (a, b) :: (a', b') :: r
    else (a', b') :: memPut r a b

/-- Writes one byte, keeping the canonical form: writing 0 removes the entry. -/
def memSet (m : Memory) (a : Nat) (b : Byte) : Memory :=
  if b = 0 then m.filter (fun c => c.1 ≠ a) else memPut m a b

/-- Writes a byte string at consecutive addresses from `a`. -/
def memSetAll : Memory → Nat → List Byte → Memory
  | m, _, [] => m
  | m, a, b :: r => memSetAll (memSet m a b) (a + 1) r

/-- Reads `n` bytes from address `a` on. -/
def memGetAll (m : Memory) : Nat → Nat → List Byte
  | _, 0 => []
  | a, n + 1 => memGet m a :: memGetAll m (a + 1) n

/-- The memory with every byte of `[a, a + n)` zero. -/
def memZero (m : Memory) (a n : Nat) : Memory := m.filter (fun c => c.1 < a ∨ a + n ≤ c.1)

/-- The canonical form: addresses strictly rising, no byte 0 listed. -/
abbrev Memory.wf (m : Memory) : Prop := m.Pairwise (fun x y => x.1 < y.1) ∧ ∀ c ∈ m, c.2 ≠ 0

/-- The list with element `i` replaced by `f` of it. -/
def modAt {α : Type} (l : List α) (i : Nat) (f : α → α) : List α := l.modify i f

/-- The last `n` elements of a list: the content of a ring log that holds `n` entries. -/
def lastN {α : Type} (n : Nat) (l : List α) : List α := l.drop (l.length - n)

/-- The numbers `0` to `n - 1` that satisfy `p`. -/
def numbers (n : Nat) (p : Nat → Bool) : List Nat := (List.range n).filter p

/-- How many of the numbers `0` to `n - 1` satisfy `p`. -/
def countN (n : Nat) (p : Nat → Bool) : Nat := (numbers n p).length

/-- The sum of `f` over `0` to `n - 1`. -/
def sumN (n : Nat) (f : Nat → Nat) : Nat := ((List.range n).map f).sum

/-- Folds a state through the numbers of a list. -/
def foldN {σ : Type} (l : List Nat) (f : σ → Nat → σ) (s : σ) : σ := l.foldl f s

end Sys2Proof.Machine
end

