-- ==== Sys2Proof/Machine/Tables.lean ====
section
/-!
DEFINITION. The fixed tables of the module that dictionary objects read from: the mode catalogue (R112 to R117), the
Shale library (R370), the clock islands (R460), the parity-check matrix (R253). Values are those of the spec's tables; the
porches of the modes M000 to M065, M068, M069 and M074 to M091 are those of the named standards (PRESUMED, log 20).
-/

namespace Sys2Proof.Machine

/-- The bytes of an ASCII text. -/
def asciiBytes (t : String) : List Byte := t.toList.map (fun c => BitVec.ofNat 8 c.toNat)

/-- A row of Table SO-4 or SO-5: sizes and totals, porches and syncs, pixel clock in kHz, polarities, source. -/
structure ModeRow where
  w : Nat
  h : Nat
  htotal : Nat
  vtotal : Nat
  hfp : Nat
  hsw : Nat
  vfp : Nat
  vsw : Nat
  pclk : Nat
  sync : Nat
  src : Nat
  deriving DecidableEq, Repr, Inhabited

/-- The even standard modes M000 to M094 (Table SO-4). -/
def standardModes : List ModeRow := [
  ⟨640, 480, 800, 525, 16, 96, 10, 2, 25200, 0, 1⟩,
  ⟨720, 480, 858, 525, 16, 62, 9, 6, 27027, 0, 1⟩,
  ⟨720, 576, 864, 625, 12, 64, 5, 5, 27000, 0, 1⟩,
  ⟨800, 600, 1056, 628, 40, 128, 1, 4, 40000, 3, 0⟩,
  ⟨1024, 768, 1344, 806, 24, 136, 3, 6, 65000, 0, 0⟩,
  ⟨1280, 720, 1980, 750, 440, 40, 5, 5, 74250, 3, 1⟩,
  ⟨1280, 720, 1650, 750, 110, 40, 5, 5, 74250, 3, 1⟩,
  ⟨1280, 720, 1980, 750, 440, 40, 5, 5, 148500, 3, 1⟩,
  ⟨1280, 720, 1650, 750, 110, 40, 5, 5, 148500, 3, 1⟩,
  ⟨1280, 768, 1440, 790, 48, 32, 3, 7, 68250, 1, 0⟩,
  ⟨1280, 800, 1440, 823, 48, 32, 3, 6, 71000, 1, 0⟩,
  ⟨1280, 960, 1800, 1000, 96, 112, 1, 3, 108000, 3, 0⟩,
  ⟨1280, 1024, 1688, 1066, 48, 112, 1, 3, 108000, 3, 0⟩,
  ⟨1360, 768, 1792, 795, 64, 112, 3, 6, 85500, 3, 0⟩,
  ⟨1366, 768, 1500, 800, 14, 56, 1, 3, 72000, 3, 0⟩,
  ⟨1400, 1050, 1560, 1080, 48, 32, 3, 4, 101000, 1, 0⟩,
  ⟨1440, 900, 1600, 926, 48, 32, 3, 6, 88750, 1, 0⟩,
  ⟨1600, 900, 1800, 1000, 24, 80, 1, 3, 108000, 3, 0⟩,
  ⟨1600, 1200, 2160, 1250, 64, 192, 1, 3, 162000, 3, 0⟩,
  ⟨1680, 720, 2200, 750, 260, 40, 5, 5, 99000, 3, 1⟩,
  ⟨1680, 1050, 1840, 1080, 48, 32, 3, 6, 119000, 1, 0⟩,
  ⟨1920, 1080, 2750, 1125, 638, 44, 4, 5, 74250, 3, 1⟩,
  ⟨1920, 1080, 2640, 1125, 528, 44, 4, 5, 74250, 3, 1⟩,
  ⟨1920, 1080, 2200, 1125, 88, 44, 4, 5, 74250, 3, 1⟩,
  ⟨1920, 1080, 2640, 1125, 528, 44, 4, 5, 148500, 3, 1⟩,
  ⟨1920, 1080, 2200, 1125, 88, 44, 4, 5, 148500, 3, 1⟩,
  ⟨1920, 1080, 2640, 1125, 528, 44, 4, 5, 297000, 3, 1⟩,
  ⟨1920, 1080, 2200, 1125, 88, 44, 4, 5, 297000, 3, 1⟩,
  ⟨1920, 1200, 2080, 1235, 48, 32, 3, 6, 154000, 1, 0⟩,
  ⟨1920, 1440, 2600, 1500, 128, 208, 1, 3, 234000, 2, 0⟩,
  ⟨2048, 1152, 2250, 1200, 26, 80, 1, 3, 162000, 3, 0⟩,
  ⟨2560, 1080, 3300, 1125, 548, 44, 4, 5, 185625, 3, 1⟩,
  ⟨2560, 1080, 3000, 1100, 248, 44, 4, 5, 198000, 3, 1⟩,
  ⟨2560, 1440, 2720, 1481, 48, 32, 3, 5, 241500, 1, 2⟩,
  ⟨2560, 1600, 2720, 1646, 48, 32, 3, 6, 268500, 1, 0⟩,
  ⟨3840, 1080, 4000, 1111, 48, 32, 3, 10, 266500, 1, 2⟩,
  ⟨3840, 1080, 4000, 1144, 48, 32, 3, 10, 549000, 1, 2⟩,
  ⟨3840, 2160, 5500, 2250, 1276, 88, 8, 10, 297000, 3, 1⟩,
  ⟨3840, 2160, 5280, 2250, 1056, 88, 8, 10, 297000, 3, 1⟩,
  ⟨3840, 2160, 4400, 2250, 176, 88, 8, 10, 297000, 3, 1⟩,
  ⟨3840, 2160, 5280, 2250, 1056, 88, 8, 10, 594000, 3, 1⟩,
  ⟨3840, 2160, 4400, 2250, 176, 88, 8, 10, 594000, 3, 1⟩,
  ⟨3840, 2160, 5280, 2250, 1056, 88, 8, 10, 1188000, 3, 1⟩,
  ⟨3840, 2160, 4400, 2250, 176, 88, 8, 10, 1188000, 3, 1⟩,
  ⟨4096, 2160, 4400, 2250, 88, 88, 8, 10, 594000, 3, 1⟩,
  ⟨5120, 2160, 5500, 2250, 164, 88, 8, 10, 742500, 3, 1⟩,
  ⟨7680, 2160, 7840, 2191, 48, 32, 3, 10, 515250, 1, 2⟩,
  ⟨7680, 2160, 7840, 2222, 48, 32, 3, 10, 1045000, 1, 2⟩]

/-- The heritage panel modes M096 to M111 (Table SO-5). -/
def heritageModes : List ModeRow := [
  ⟨1920, 720, 2080, 750, 48, 32, 3, 6, 93600, 0, 3⟩,
  ⟨2880, 1080, 3040, 1110, 48, 32, 3, 6, 202464, 0, 3⟩,
  ⟨1280, 480, 1400, 500, 40, 16, 3, 4, 42000, 0, 3⟩,
  ⟨1440, 540, 1600, 560, 48, 32, 3, 4, 53760, 0, 3⟩,
  ⟨1920, 480, 2080, 500, 48, 32, 3, 4, 62400, 0, 3⟩,
  ⟨2560, 720, 2720, 750, 48, 32, 3, 6, 122400, 0, 3⟩,
  ⟨3840, 720, 4000, 750, 48, 32, 3, 6, 180000, 0, 3⟩,
  ⟨1600, 600, 1760, 625, 48, 32, 3, 5, 66000, 0, 3⟩,
  ⟨1024, 600, 1344, 625, 160, 20, 3, 5, 50400, 0, 3⟩,
  ⟨800, 480, 1056, 525, 40, 48, 4, 5, 33264, 0, 3⟩,
  ⟨2400, 960, 2560, 1000, 48, 32, 4, 5, 153600, 0, 3⟩,
  ⟨3200, 1080, 3360, 1100, 48, 32, 3, 4, 221760, 0, 3⟩,
  ⟨1920, 720, 2080, 750, 48, 32, 3, 6, 140400, 0, 3⟩,
  ⟨1080, 1920, 1200, 1960, 40, 16, 4, 5, 141120, 3, 3⟩,
  ⟨5760, 1080, 5920, 1125, 48, 32, 4, 5, 399600, 1, 3⟩,
  ⟨1920, 1080, 2200, 1125, 88, 44, 4, 5, 178200, 3, 3⟩]

/-- The row of a mode's pair, or its own heritage row. -/
def modeRow (m : Nat) : ModeRow :=
  if m < 96 then standardModes.getD (m / 2) default else heritageModes.getD (m - 96) default

/-- Whether a mode is the 1000/1001 variant of its pair (R113). -/
def modeOdd (m : Nat) : Bool := m < 96 && m % 2 == 1

def modeW (m : Nat) : Nat := (modeRow m).w
def modeH (m : Nat) : Nat := (modeRow m).h
def modeHtotal (m : Nat) : Nat := (modeRow m).htotal
def modeVtotal (m : Nat) : Nat := (modeRow m).vtotal
def modeHfp (m : Nat) : Nat := (modeRow m).hfp
def modeHsw (m : Nat) : Nat := (modeRow m).hsw
def modeVfp (m : Nat) : Nat := (modeRow m).vfp
def modeVsw (m : Nat) : Nat := (modeRow m).vsw

/-- The pixel clock in kHz; that of an odd mode is the even mode's × 1000/1001, to the nearest kHz (R113). -/
def modePclk (m : Nat) : Nat := if modeOdd m then roundDiv ((modeRow m).pclk * 1000) 1001 else (modeRow m).pclk

def modeSync (m : Nat) : Nat := (modeRow m).sync

/-- The refresh rate in mHz, rounded to nearest (Table SO-3); that of an odd mode is the even mode's × 1000/1001. -/
def modeRefresh (m : Nat) : Nat :=
  let d := modeHtotal m * modeVtotal m
  if modeOdd m then roundDiv ((modeRow m).pclk * 1000000 * 1000) (d * 1001) else roundDiv ((modeRow m).pclk * 1000000) d

/-- mode.large: a pixel clock above 600 MHz. -/
def modeLarge (m : Nat) : Bool := decide (600000 < modePclk m)

/-- mode.src; M001 reads 0 although its pair names CTA-861 for M000 (R113). -/
def modeSrc (m : Nat) : Nat := if m = 1 then 0 else (modeRow m).src

/-- The lane rates of Table SO-6 in Mbit/s: kind 0 is DP, kind 1 is eDP. -/
def laneRates (kind : Nat) : List Nat :=
  if kind = 0 then [1620, 2700, 5400, 8100, 10000, 13500] else [1620, 2160, 2430, 2700, 3240, 4320, 5400, 8100]

/-- Whether a pixel clock in kHz fits `lanes` lanes at a rate in Mbit/s and `bpc` bits per channel (R117), with the
coding efficiency 128/132 above 8100 and 8/10 else. -/
def linkFits (pclk lanes rate bpc : Nat) : Bool :=
  if rate ≤ 8100 then decide (pclk * 3 * bpc * 1000 ≤ 760 * lanes * rate * 1000)
  else decide (pclk * 3 * bpc * 100 * 132 ≤ 95 * lanes * rate * 1000 * 128)

/-- The least rate of the kind up to `rmax` that fits (R117). -/
def leastRate (kind rmax pclk lanes bpc : Nat) : Option Nat :=
  (laneRates kind).find? (fun r => r ≤ rmax && linkFits pclk lanes r bpc)

/-- mode.fit.dp: the least DP rate at 4 lanes and 10 bits per channel, 0 if none. -/
def modeFitDp (m : Nat) : Nat := (leastRate 0 13500 (modePclk m) 4 10).getD 0

/-- mode.fit.edp: the same for eDP. -/
def modeFitEdp (m : Nat) : Nat := (leastRate 1 8100 (modePclk m) 4 10).getD 0

/-- The duration of a mode's line, in units of 1/pclk: its pixels; in ns, rounded to nearest. -/
def modeLineNs (m : Nat) : Nat := roundDiv (modeHtotal m * 1000000) (max 1 (modePclk m))

/-- The duration of a mode's frame in ns. -/
def modeFrameNs (m : Nat) : Nat := roundDiv (modeHtotal m * modeVtotal m * 1000000) (max 1 (modePclk m))

/-- A family of the Shale library (Table HS-3): name, attack, sustain and braking in ms, base peak in mg. -/
structure ShaleRow where
  name : String
  attack : Nat
  sustain : Nat
  brake : Nat
  peak : Nat
  deriving DecidableEq, Repr, Inhabited

/-- The families of Table HS-3. -/
def shaleFamilies : List ShaleRow := [
  ⟨"click.sharp", 2, 4, 4, 3000⟩,
  ⟨"click.soft", 3, 6, 6, 2000⟩,
  ⟨"tick", 1, 2, 3, 1500⟩,
  ⟨"click.double", 2, 36, 4, 3000⟩,
  ⟨"press", 3, 8, 5, 2500⟩,
  ⟨"release", 2, 5, 5, 2000⟩,
  ⟨"detent", 1, 3, 3, 1200⟩,
  ⟨"buzz.short", 5, 50, 10, 1500⟩,
  ⟨"buzz.long", 5, 180, 10, 1500⟩,
  ⟨"thud", 4, 12, 8, 3500⟩,
  ⟨"alert", 2, 100, 6, 3000⟩,
  ⟨"ramp.up", 60, 20, 10, 2500⟩,
  ⟨"ramp.down", 5, 80, 10, 2500⟩,
  ⟨"texture.fine", 3, 120, 8, 800⟩,
  ⟨"texture.coarse", 3, 120, 8, 1600⟩,
  ⟨"confirm", 2, 30, 6, 2000⟩]

def shaleRow (e : Nat) : ShaleRow := shaleFamilies.getD (e / 8) default
def shaleAttack (e : Nat) : Nat := (shaleRow e).attack
def shaleSustain (e : Nat) : Nat := (shaleRow e).sustain
def shaleBrake (e : Nat) : Nat := (shaleRow e).brake

/-- The peak in mg: base peak × (v + 1) / 8, to the nearest mg (R370). -/
def shalePeak (e : Nat) : Nat := roundDiv ((shaleRow e).peak * (e % 8 + 1)) 8

/-- The family name, a dot and the level (R370). -/
def shaleName (e : Nat) : List Byte := asciiBytes (shaleRow e).name ++ [46, BitVec.ofNat 8 (48 + e % 8)]

/-- isl.nominal in kHz; 0 for the ports' islands (Table CI-1). -/
def islandNominal (i : Nat) : Nat :=
  if i = 0 then 50000 else if i = 1 then 80000 else if i = 2 then 100000 else if i = 3 then 800000
  else if i = 4 then 1200000 else if i ≤ 6 then 1000000 else if i = 7 then 400000 else if i ≤ 9 then 125000
  else if i = 10 then 25000 else if i ≤ 15 then 1000000 else if i ≤ 19 then 1600000 else if i = 20 then 1200000
  else if i = 21 then 800000 else if i ≤ 29 then 0 else if i ≤ 32 then 1067000 else if i ≤ 36 then 120000
  else if i = 37 then 64000 else if i = 38 then 24576 else if i = 39 then 800000 else 0

/-- isl.domain (Table CI-1); island 21, which spans PD11 to PD13, reads 11 (DEDUCED, log 21). -/
def islandDomain (i : Nat) : Nat :=
  if i ≤ 2 then 0 else if i = 3 then 1 else if i = 4 then 2 else if i ≤ 6 then 3 else if i ≤ 10 then 4
  else if i ≤ 15 then 5 else if i ≤ 19 then i - 10 else if i = 20 then 10 else if i = 21 then 11
  else if i ≤ 25 then 14 else if i ≤ 29 then 15 else if i ≤ 32 then i - 14 else if i ≤ 34 then 19
  else if i ≤ 36 then 20 else if i = 37 then 21 else if i = 38 then 22 else 23

/-- Whether an island's clock may be gated (R462). -/
def islandGateable (i : Nat) : Bool := !(i == 0 || i == 1 || i == 3 || (21 ≤ i && i ≤ 29))

/-- Multiplication by x in GF(2^4) with x^4 + x + 1 (R250). -/
def gfTimesX (a : Nat) : Nat := if a < 8 then 2 * a else (2 * a - 16) ^^^ 3

/-- The product of two elements of GF(2^4) (R250). -/
def gfMul (a b : Nat) : Nat :=
  (if bitOf b 0 then a else 0) ^^^ (if bitOf b 1 then gfTimesX a else 0) ^^^ (if bitOf b 2 then gfTimesX (gfTimesX a) else 0)
    ^^^ (if bitOf b 3 then gfTimesX (gfTimesX (gfTimesX a)) else 0)

/-- A column of H times a symbol, row t in bits 4t + 3 to 4t. -/
def gfColumn (col e : Nat) : Nat :=
  gfMul (col % 16) e + 16 * gfMul (col / 16 % 16) e + 256 * gfMul (col / 256 % 16) e + 4096 * gfMul (col / 4096 % 16) e

/-- Column i of a parity-check matrix with the given data columns, row 0 in bits 3:0: 0x1 first in a data symbol's, a unit vector of a check
symbol's (R253); column 9 is the one the spec's example states. -/
def eccColumnOf (f : Nat → Nat) (i : Nat) : Nat :=
  if i < 32 then 1 + 16 * (if i = 9 then 0xB76 else f i)
  else if i < 36 then 2 ^ (4 * (i - 32)) else 0

/-- Whether three columns are linearly independent over GF(2^4). -/
def gfIndependent (a b c : Nat) : Bool :=
  (List.range 16).all (fun x => (List.range 16).all (fun y => (List.range 16).all (fun z =>
    gfColumn a x ^^^ gfColumn b y ^^^ gfColumn c z != 0 || (x == 0 && y == 0 && z == 0))))

/-- Whether any three columns of a parity-check matrix are linearly independent (R253). -/
def eccSound (f : Nat → Nat) : Bool :=
  (List.range 36).all (fun i => (List.range i).all (fun j => (List.range j).all (fun k =>
    gfIndependent (eccColumnOf f i) (eccColumnOf f j) (eccColumnOf f k))))

/-- Data columns with which any three columns are linearly independent. -/
def soundColumns : List Nat :=
  [0x87C, 0x86E, 0x5A2, 0x8CB, 0x765, 0x331, 0x317, 0x0F7, 0x32F, 0xB76, 0x061, 0x9BA, 0xF5F, 0x854, 0x295, 0x227,
   0x915, 0x1ED, 0x598, 0x1D2, 0xFF1, 0x50C, 0x563, 0x3D9, 0x4F6, 0x6A9, 0x7A4, 0xA1D, 0xF3B, 0xDCA, 0x7C1, 0x1B9]

/-- The data columns of H: the module's own, which may be any with which every three columns are linearly independent (R253, log 11). -/
def eccData (i : Nat) : Nat :=
  if eccSound (fun i => (Config.eccColumn i).toNat) then (Config.eccColumn i).toNat else soundColumns.getD i 0

/-- Column i of the parity-check matrix (R253). -/
def eccColumn16 (i : Nat) : Nat := eccColumnOf eccData i

/-- The 72 bytes of mem.ecc.h (R253). -/
def eccMatrixBytes : List Byte := (List.range 36).flatMap (fun i => leBytes 2 (eccColumn16 i))

end Sys2Proof.Machine
end

