-- ==== Sys2Proof/Machine/Objects.lean ====
section
/-!
DEFINITION. The object dictionary's catalogue: every object of the spec's tables with its type, access class, unit, default
and range (R18, R19, R24, R527), and a name for the key of each. A key is index × 256 + subindex.
-/

namespace Sys2Proof.Machine

/-- The object types of Table DI-1. -/
inductive Ty where
  | u8 | u16 | u32 | u64 | i32 | f32 | bool | str | blob | i16
  deriving DecidableEq, Repr

/-- The type's code (Table DI-1). -/
def Ty.code : Ty → Nat
  | .u8 => 1 | .u16 => 2 | .u32 => 3 | .u64 => 4 | .i32 => 5 | .f32 => 6 | .bool => 7 | .str => 8 | .blob => 9 | .i16 => 10

/-- The size in bytes of a numeric type; 0 for STR and BLOB (Table DI-1). -/
def Ty.size : Ty → Nat
  | .u8 => 1 | .u16 => 2 | .u32 => 4 | .u64 => 8 | .i32 => 4 | .f32 => 4 | .bool => 1 | .str => 0 | .blob => 0 | .i16 => 2

/-- Whether the type is read as two's complement. -/
def Ty.signed : Ty → Bool
  | .i32 => true | .i16 => true | _ => false

/-- The access classes of Table DI-2; `rwtRun` is an RWT object that its table marks run-time. -/
inductive Acc where
  | ro | rw | wo | rws | rwt | rwtRun
  deriving DecidableEq, Repr

/-- The class's code (Table DI-2). -/
def Acc.code : Acc → Nat
  | .ro => 1 | .rw => 2 | .wo => 3 | .rws => 4 | .rwt => 5 | .rwtRun => 5

/-- Whether objects of the class are held in MRAM (Table DI-2). -/
def Acc.stored : Acc → Bool
  | .rws => true | .rwt => true | _ => false

/-- An object's value: the bits of a numeric or BOOL value, or the bytes of a STR or BLOB. -/
inductive Val where
  | num (n : Nat)
  | bytes (b : List Byte)
  deriving DecidableEq, Repr, Inhabited

/-- The bits of a value; 0 for a byte string. -/
def Val.toNat : Val → Nat
  | .num n => n
  | .bytes _ => 0

/-- The bytes of a value; none for a number. -/
def Val.toBytes : Val → List Byte
  | .num _ => []
  | .bytes b => b

/-- A row's default: one value, or one by record or subindex number. -/
inductive Dflt where
  | num (n : Nat)
  | bytes (b : List Byte)
  | each (f : Nat → Nat)
  | eachBytes (f : Nat → List Byte)

/-- A row of an object table: the index is base + s1·i + s2·j for i < c1 and j < c2, the subindex sub0 to sub0 + subN − 1. -/
structure ObjRow where
  name : String
  base : Nat
  s1 : Nat
  c1 : Nat
  s2 : Nat
  c2 : Nat
  sub0 : Nat
  subN : Nat
  ty : Ty
  acc : Acc
  unit : Nat
  dflt : Dflt
  ranges : List (Int × Int)

/-- The key of an index and subindex. -/
def objKey (idx sub : Nat) : Nat := idx * 256 + sub

/-- The objects of the identity area, one row per table row of the spec. -/
def identityRows : List ObjRow := [
  ⟨"id.vendor", 0x1000, 0x0, 1, 0x0, 1, 0, 1, .str, .ro, 0, .bytes (asciiBytes "Fjoade Microsystems"), [(0, 240)]⟩,
  ⟨"id.order", 0x1001, 0x0, 1, 0x0, 1, 0, 1, .str, .ro, 0, .bytes (if Config.isAutomotive then asciiBytes "ZM-8860-AQ" else asciiBytes "ZM-8860-IC"), [(0, 240)]⟩,
  ⟨"id.serial", 0x1002, 0x0, 1, 0x0, 1, 0, 1, .u64, .ro, 0, .num Config.serial.toNat, [(0, 18446744073709551615)]⟩,
  ⟨"id.stepping", 0x1003, 0x0, 1, 0x0, 1, 0, 1, .str, .ro, 0, .bytes (asciiBytes "B0"), [(0, 240)]⟩,
  ⟨"id.fw", 0x1004, 0x0, 1, 0x0, 1, 0, 1, .u32, .ro, 0, .num Config.firmware.toNat, [(0, 4294967295)]⟩,
  ⟨"id.dict", 0x1005, 0x0, 1, 0x0, 1, 0, 1, .u16, .ro, 0, .num 259, [(0, 65535)]⟩,
  ⟨"time.now", 0x1100, 0x0, 1, 0x0, 1, 0, 1, .u64, .ro, 1, .num 0, [(0, 18446744073709551615)]⟩,
  ⟨"time.locked", 0x1101, 0x0, 1, 0x0, 1, 0, 1, .bool, .ro, 0, .num 0, [(0, 1)]⟩,
  ⟨"net.addr4", 0x1200, 0x0, 1, 0x0, 1, 1, 1, .u32, .rws, 0, .num 0, [(0, 4294967295)]⟩,
  ⟨"net.udp.port", 0x1200, 0x0, 1, 0x0, 1, 2, 1, .u16, .rws, 0, .num 30886, [(0, 65535)]⟩,
  ⟨"net.mgr.allow", 0x1200, 0x0, 1, 0x0, 1, 3, 1, .blob, .rws, 0, .bytes [], [(0, 272)]⟩,
  ⟨"t1s.plca.id", 0x1210, 0x0, 1, 0x0, 1, 1, 1, .u8, .rws, 0, .num 0, [(0, 255)]⟩,
  ⟨"t1s.plca.count", 0x1210, 0x0, 1, 0x0, 1, 2, 1, .u8, .rws, 0, .num 8, [(2, 32)]⟩,
  ⟨"t1s.term", 0x1210, 0x0, 1, 0x0, 1, 3, 1, .bool, .rws, 0, .num 1, [(0, 1)]⟩,
  ⟨"can.node", 0x1220, 0x0, 1, 0x0, 1, 1, 1, .u8, .rws, 0, .num 1, [(1, 63)]⟩,
  ⟨"can.rate.nom", 0x1220, 0x0, 1, 0x0, 1, 2, 1, .u32, .rws, 10, .num 500000, [(250000, 250000), (500000, 500000), (1000000, 1000000)]⟩,
  ⟨"can.rate.data", 0x1220, 0x0, 1, 0x0, 1, 3, 1, .u32, .rws, 10, .num 2000000, [(1000000, 1000000), (2000000, 2000000), (3000000, 3000000), (4000000, 4000000), (5000000, 5000000)]⟩,
  ⟨"can.term", 0x1220, 0x0, 1, 0x0, 1, 4, 1, .bool, .rws, 0, .num 0, [(0, 1)]⟩,
  ⟨"sess.count", 0x1300, 0x0, 1, 0x0, 1, 0, 1, .u8, .ro, 0, .num 0, [(0, 255)]⟩,
  ⟨"sess.max", 0x1301, 0x0, 1, 0x0, 1, 0, 1, .u8, .ro, 0, .num 48, [(0, 255)]⟩,
  ⟨"sess.lease", 0x1302, 0x0, 1, 0x0, 1, 0, 1, .u16, .rws, 3, .num 2000, [(100, 60000)]⟩,
  ⟨"sess.self", 0x1303, 0x0, 1, 0x0, 1, 0, 1, .u16, .ro, 0, .num 0, [(0, 65535)]⟩,
  ⟨"sess.table", 0x1310, 0x0, 1, 0x0, 1, 1, 48, .u64, .ro, 0, .num 0, [(0, 18446744073709551615)]⟩,
  ⟨"sys.defaults", 0x1F00, 0x0, 1, 0x0, 1, 0, 1, .u8, .wo, 0, .num 0, [(90, 90)]⟩]

/-- The objects of the heritage area, one row per table row of the spec. -/
def heritageRows : List ObjRow := [
  ⟨"her.palette.fmt", 0x5000, 0x0, 1, 0x0, 1, 0, 1, .u8, .ro, 0, .num 1, [(0, 255)]⟩,
  ⟨"her.tt.first", 0x5001, 0x0, 1, 0x0, 1, 0, 1, .u16, .ro, 3, .num 180, [(0, 65535)]⟩,
  ⟨"her.panel.mode", 0x5010, 0x0, 1, 0x0, 1, 1, 8, .u8, .rw, 0, .num 255, [(96, 111), (255, 255)]⟩,
  ⟨"her.touch.stuck", 0x5020, 0x0, 1, 0x0, 1, 1, 4, .u16, .rws, 4, .num 0, [(0, 0), (10, 3600)]⟩,
  ⟨"her.ign", 0x5030, 0x0, 1, 0x0, 1, 0, 1, .u8, .ro, 0, .num 0, [(0, 255)]⟩]

/-- The objects of the graphics area, one row per table row of the spec. -/
def graphicsRows : List ObjRow := [
  ⟨"ring.owner", 0x3100, 0x1, 256, 0x0, 1, 1, 1, .u8, .rw, 0, .num 255, [(0, 64), (255, 255)]⟩,
  ⟨"ring.local", 0x3100, 0x1, 256, 0x0, 1, 2, 1, .u8, .rw, 0, .num 0, [(0, 15)]⟩,
  ⟨"ring.base", 0x3100, 0x1, 256, 0x0, 1, 3, 1, .u64, .rw, 0, .num 0, [(0, 18446744073709551615)]⟩,
  ⟨"ring.order", 0x3100, 0x1, 256, 0x0, 1, 4, 1, .u8, .rw, 0, .num 8, [(4, 12)]⟩,
  ⟨"ring.ctx", 0x3100, 0x1, 256, 0x0, 1, 5, 1, .u8, .rw, 0, .num 255, [(0, 63), (255, 255)]⟩,
  ⟨"ring.cq.base", 0x3100, 0x1, 256, 0x0, 1, 6, 1, .u64, .rw, 0, .num 0, [(0, 18446744073709551615)]⟩,
  ⟨"ring.cq.order", 0x3100, 0x1, 256, 0x0, 1, 7, 1, .u8, .rw, 0, .num 8, [(4, 12)]⟩,
  ⟨"ring.vec", 0x3100, 0x1, 256, 0x0, 1, 8, 1, .u8, .rw, 0, .num 0, [(0, 31)]⟩,
  ⟨"ring.irq", 0x3100, 0x1, 256, 0x0, 1, 9, 1, .bool, .rw, 0, .num 1, [(0, 1)]⟩,
  ⟨"ring.enable", 0x3100, 0x1, 256, 0x0, 1, 10, 1, .bool, .rw, 0, .num 0, [(0, 1)]⟩,
  ⟨"ring.order.max", 0x3100, 0x1, 256, 0x0, 1, 11, 1, .u8, .rw, 0, .num 12, [(4, 12)]⟩,
  ⟨"surf.owner", 0x3800, 0x1, 2048, 0x0, 1, 1, 1, .u8, .rw, 0, .num 255, [(0, 64), (255, 255)]⟩,
  ⟨"surf.format", 0x3800, 0x1, 2048, 0x0, 1, 2, 1, .u8, .rw, 0, .num 1, [(1, 6), (16, 17)]⟩,
  ⟨"surf.layout", 0x3800, 0x1, 2048, 0x0, 1, 3, 1, .u8, .rw, 0, .num 0, [(0, 1)]⟩,
  ⟨"surf.width", 0x3800, 0x1, 2048, 0x0, 1, 4, 1, .u16, .rw, 24, .num 0, [(1, 8192)]⟩,
  ⟨"surf.height", 0x3800, 0x1, 2048, 0x0, 1, 5, 1, .u16, .rw, 23, .num 0, [(1, 8192)]⟩,
  ⟨"surf.stride", 0x3800, 0x1, 2048, 0x0, 1, 6, 1, .u32, .ro, 14, .num 0, [(0, 4294967295)]⟩,
  ⟨"surf.size", 0x3800, 0x1, 2048, 0x0, 1, 7, 1, .u64, .ro, 14, .num 0, [(0, 18446744073709551615)]⟩,
  ⟨"surf.alloc", 0x3800, 0x1, 2048, 0x0, 1, 8, 1, .bool, .rw, 0, .num 0, [(0, 1)]⟩,
  ⟨"surf.handle", 0x3800, 0x1, 2048, 0x0, 1, 9, 1, .u32, .ro, 0, .num 0, [(0, 4294967295)]⟩,
  ⟨"surf.share", 0x3800, 0x1, 2048, 0x0, 1, 10, 1, .u64, .rw, 0, .num 0, [(0, 18446744073709551615)]⟩,
  ⟨"surf.hint", 0x3800, 0x1, 2048, 0x0, 1, 11, 1, .u8, .rw, 0, .num 0, [(0, 2), (4, 6), (8, 10), (12, 14)]⟩,
  ⟨"surf.place", 0x3800, 0x1, 2048, 0x0, 1, 12, 1, .u16, .ro, 0, .num 65535, [(0, 65535)]⟩,
  ⟨"comp.budget", 0x3400, 0x0, 1, 0x0, 1, 1, 1, .u32, .ro, 12, .num 96000, [(0, 4294967295)]⟩,
  ⟨"comp.total", 0x3400, 0x0, 1, 0x0, 1, 2, 1, .u32, .ro, 12, .num 0, [(0, 4294967295)]⟩,
  ⟨"comp.reserve", 0x3400, 0x0, 1, 0x0, 1, 3, 1, .u64, .ro, 14, .num 1073741824, [(0, 18446744073709551615)]⟩,
  ⟨"comp.poison", 0x3400, 0x0, 1, 0x0, 1, 4, 1, .u32, .ro, 0, .num 0, [(0, 4294967295)]⟩,
  ⟨"comp.override", 0x3400, 0x0, 1, 0x0, 1, 5, 1, .u32, .ro, 0, .num 0, [(0, 4294967295)]⟩,
  ⟨"gpu.active", 0x3000, 0x0, 1, 0x0, 1, 1, 1, .u8, .ro, 0, .num 32, [(0, 255)]⟩,
  ⟨"gpu.spare", 0x3000, 0x0, 1, 0x0, 1, 2, 1, .u8, .ro, 0, .num 4, [(0, 255)]⟩,
  ⟨"gpu.clock", 0x3000, 0x0, 1, 0x0, 1, 3, 1, .u16, .ro, 9, .num 1600, [(0, 65535)]⟩,
  ⟨"gpu.fe.clock", 0x3000, 0x0, 1, 0x0, 1, 4, 1, .u16, .ro, 9, .num 1200, [(0, 65535)]⟩,
  ⟨"gpu.watchdog", 0x3000, 0x0, 1, 0x0, 1, 5, 1, .u32, .rw, 3, .num 1000, [(10, 60000)]⟩,
  ⟨"gpu.prims", 0x3000, 0x0, 1, 0x0, 1, 6, 1, .u64, .ro, 0, .num 0, [(0, 18446744073709551615)]⟩,
  ⟨"core.state", 0x3010, 0x1, 36, 0x0, 1, 1, 1, .u8, .ro, 0, .each (fun i => if i = 8 ∨ i = 17 ∨ i = 26 ∨ i = 35 then 0 else 1), [(0, 255)]⟩,
  ⟨"core.slice", 0x3010, 0x1, 36, 0x0, 1, 2, 1, .u8, .ro, 0, .each (fun i => 6 + i / 9), [(0, 255)]⟩,
  ⟨"core.ctx", 0x3010, 0x1, 36, 0x0, 1, 3, 1, .u8, .ro, 0, .num 255, [(0, 255)]⟩,
  ⟨"core.gen", 0x3010, 0x1, 36, 0x0, 1, 4, 1, .u16, .ro, 0, .num 0, [(0, 65535)]⟩,
  ⟨"core.tiles", 0x3010, 0x1, 36, 0x0, 1, 5, 1, .u32, .ro, 0, .num 0, [(0, 4294967295)]⟩,
  ⟨"core.retry", 0x3010, 0x1, 36, 0x0, 1, 6, 1, .u32, .ro, 0, .num 0, [(0, 4294967295)]⟩,
  ⟨"prog.owner", 0x3500, 0x1, 256, 0x0, 1, 1, 1, .u8, .rw, 0, .num 255, [(0, 64), (255, 255)]⟩,
  ⟨"prog.code", 0x3500, 0x1, 256, 0x0, 1, 2, 1, .blob, .rw, 0, .bytes [], [(0, 1048576)]⟩,
  ⟨"prog.entry", 0x3500, 0x1, 256, 0x0, 1, 3, 1, .str, .rw, 0, .bytes (asciiBytes "main"), [(0, 240)]⟩,
  ⟨"prog.state", 0x3500, 0x1, 256, 0x0, 1, 4, 1, .u8, .ro, 0, .num 0, [(0, 255)]⟩,
  ⟨"prog.stage", 0x3500, 0x1, 256, 0x0, 1, 5, 1, .u8, .ro, 0, .num 255, [(0, 255)]⟩,
  ⟨"prog.regs", 0x3500, 0x1, 256, 0x0, 1, 6, 1, .u16, .ro, 0, .num 0, [(0, 65535)]⟩,
  ⟨"prog.late", 0x3500, 0x1, 256, 0x0, 1, 7, 1, .bool, .ro, 0, .num 0, [(0, 1)]⟩,
  ⟨"prog.groups", 0x3500, 0x1, 256, 0x0, 1, 8, 1, .u16, .ro, 0, .num 0, [(0, 65535)]⟩,
  ⟨"prog.error", 0x3500, 0x1, 256, 0x0, 1, 9, 1, .str, .ro, 0, .bytes (asciiBytes ""), [(0, 240)]⟩,
  ⟨"silt.size", 0x3300, 0x1, 64, 0x0, 1, 1, 1, .u16, .rw, 16, .num 64, [(16, 1024)]⟩,
  ⟨"silt.now", 0x3300, 0x1, 64, 0x0, 1, 2, 1, .u16, .ro, 16, .num 64, [(0, 65535)]⟩,
  ⟨"silt.grow", 0x3300, 0x1, 64, 0x0, 1, 3, 1, .bool, .rw, 0, .num 1, [(0, 1)]⟩,
  ⟨"silt.used", 0x3300, 0x1, 64, 0x0, 1, 4, 1, .u32, .ro, 15, .num 0, [(0, 4294967295)]⟩,
  ⟨"silt.peak", 0x3300, 0x1, 64, 0x0, 1, 5, 1, .u32, .ro, 15, .num 0, [(0, 4294967295)]⟩,
  ⟨"silt.overflow", 0x3300, 0x1, 64, 0x0, 1, 6, 1, .u32, .ro, 0, .num 0, [(0, 4294967295)]⟩,
  ⟨"silt.denied", 0x3300, 0x1, 64, 0x0, 1, 7, 1, .u32, .ro, 0, .num 0, [(0, 4294967295)]⟩,
  ⟨"silt.place", 0x3300, 0x1, 64, 0x0, 1, 8, 1, .u16, .ro, 0, .num 65535, [(0, 65535)]⟩,
  ⟨"pass.done", 0x3300, 0x1, 64, 0x0, 1, 9, 1, .u32, .ro, 0, .num 0, [(0, 4294967295)]⟩,
  ⟨"pass.dropped", 0x3300, 0x1, 64, 0x0, 1, 10, 1, .u32, .ro, 0, .num 0, [(0, 4294967295)]⟩,
  ⟨"pass.fault", 0x3300, 0x1, 64, 0x0, 1, 11, 1, .u32, .ro, 0, .num 0, [(0, 4294967295)]⟩,
  ⟨"pass.poison", 0x3300, 0x1, 64, 0x0, 1, 12, 1, .u32, .ro, 0, .num 0, [(0, 4294967295)]⟩,
  ⟨"ctx.owner", 0x3200, 0x1, 64, 0x0, 1, 1, 1, .u8, .rw, 0, .each (fun i => if i = 0 then 0xFE else 0xFF), [(0, 64), (255, 255)]⟩,
  ⟨"ctx.enable", 0x3200, 0x1, 64, 0x0, 1, 2, 1, .bool, .rw, 0, .num 0, [(0, 1)]⟩,
  ⟨"ctx.class", 0x3200, 0x1, 64, 0x0, 1, 3, 1, .u8, .rw, 0, .each (fun i => if i = 0 then 0 else 2), [(1, 3)]⟩,
  ⟨"ctx.weight", 0x3200, 0x1, 64, 0x0, 1, 4, 1, .u16, .rw, 0, .num 100, [(1, 1000)]⟩,
  ⟨"ctx.cores.min", 0x3200, 0x1, 64, 0x0, 1, 5, 1, .u8, .rw, 0, .num 0, [(0, 32)]⟩,
  ⟨"ctx.cores.max", 0x3200, 0x1, 64, 0x0, 1, 6, 1, .u8, .rw, 0, .num 32, [(1, 32)]⟩,
  ⟨"ctx.state", 0x3200, 0x1, 64, 0x0, 1, 7, 1, .u8, .ro, 0, .num 0, [(0, 255)]⟩,
  ⟨"ctx.cores", 0x3200, 0x1, 64, 0x0, 1, 8, 1, .u64, .ro, 0, .num 0, [(0, 18446744073709551615)]⟩,
  ⟨"ctx.target", 0x3200, 0x1, 64, 0x0, 1, 9, 1, .u8, .ro, 0, .num 0, [(0, 255)]⟩,
  ⟨"ctx.hint.kept", 0x3200, 0x1, 64, 0x0, 1, 10, 1, .bool, .ro, 0, .num 1, [(0, 1)]⟩,
  ⟨"ctx.busy", 0x3200, 0x1, 64, 0x0, 1, 11, 1, .u64, .ro, 1, .num 0, [(0, 18446744073709551615)]⟩,
  ⟨"ctx.preempt", 0x3200, 0x1, 64, 0x0, 1, 12, 1, .u32, .ro, 0, .num 0, [(0, 4294967295)]⟩,
  ⟨"ctx.preempt.max", 0x3200, 0x1, 64, 0x0, 1, 13, 1, .u32, .ro, 1, .num 0, [(0, 4294967295)]⟩,
  ⟨"ctx.gen", 0x3200, 0x1, 64, 0x0, 1, 14, 1, .u16, .ro, 0, .num 0, [(0, 65535)]⟩,
  ⟨"ctx.save", 0x3200, 0x1, 64, 0x0, 1, 15, 1, .u32, .ro, 15, .num 0, [(0, 4294967295)]⟩,
  ⟨"sched.period", 0x3040, 0x0, 1, 0x0, 1, 1, 1, .u16, .rw, 2, .num 250, [(100, 1000)]⟩,
  ⟨"sched.c0.cores", 0x3040, 0x0, 1, 0x0, 1, 2, 1, .u8, .rw, 0, .num 8, [(2, 32)]⟩,
  ⟨"sched.pre.gfx", 0x3040, 0x0, 1, 0x0, 1, 3, 1, .u32, .ro, 1, .num 0, [(0, 4294967295)]⟩,
  ⟨"sched.pre.cmp", 0x3040, 0x0, 1, 0x0, 1, 4, 1, .u32, .ro, 1, .num 0, [(0, 4294967295)]⟩,
  ⟨"sched.pre.count", 0x3040, 0x0, 1, 0x0, 1, 5, 1, .u64, .ro, 0, .num 0, [(0, 18446744073709551615)]⟩,
  ⟨"sched.c0.wait", 0x3040, 0x0, 1, 0x0, 1, 6, 1, .u32, .ro, 1, .num 0, [(0, 4294967295)]⟩,
  ⟨"sched.idle", 0x3040, 0x0, 1, 0x0, 1, 7, 1, .u64, .ro, 1, .num 0, [(0, 18446744073709551615)]⟩,
  ⟨"sched.fe.switch", 0x3040, 0x0, 1, 0x0, 1, 8, 1, .u32, .ro, 1, .num 0, [(0, 4294967295)]⟩,
  ⟨"fence.owner", 0x3700, 0x1, 256, 0x0, 1, 1, 1, .u8, .rw, 0, .num 255, [(0, 64), (255, 255)]⟩,
  ⟨"fence.value", 0x3700, 0x1, 256, 0x0, 1, 2, 1, .u64, .rw, 0, .num 0, [(0, 18446744073709551615)]⟩,
  ⟨"fence.share", 0x3700, 0x1, 256, 0x0, 1, 3, 1, .u64, .rw, 0, .num 0, [(0, 18446744073709551615)]⟩,
  ⟨"fence.handle", 0x3700, 0x1, 256, 0x0, 1, 4, 1, .u32, .ro, 0, .num 0, [(0, 4294967295)]⟩,
  ⟨"fence.state", 0x3700, 0x1, 256, 0x0, 1, 5, 1, .u8, .ro, 0, .num 0, [(0, 255)]⟩,
  ⟨"fence.waiters", 0x3700, 0x1, 256, 0x0, 1, 6, 1, .u16, .ro, 0, .num 0, [(0, 65535)]⟩,
  ⟨"tilth.quiet", 0x3600, 0x0, 1, 0x0, 1, 1, 1, .bool, .rw, 0, .num 0, [(0, 1)]⟩,
  ⟨"tilth.move.rate", 0x3600, 0x0, 1, 0x0, 1, 2, 1, .u16, .ro, 12, .num 2000, [(0, 65535)]⟩,
  ⟨"tilth.moves", 0x3600, 0x0, 1, 0x0, 1, 3, 1, .u32, .ro, 0, .num 0, [(0, 4294967295)]⟩,
  ⟨"tilth.log", 0x3600, 0x0, 1, 0x0, 1, 4, 1, .blob, .ro, 0, .bytes [], [(0, 1048576)]⟩,
  ⟨"tilth.seq", 0x3600, 0x0, 1, 0x0, 1, 5, 1, .u32, .ro, 0, .num 0, [(0, 4294967295)]⟩,
  ⟨"tilth.hint.miss", 0x3600, 0x0, 1, 0x0, 1, 6, 1, .u32, .ro, 0, .num 0, [(0, 4294967295)]⟩,
  ⟨"tilth.rank.load", 0x3601, 0x0, 1, 0x0, 1, 1, 4, .u32, .ro, 12, .num 0, [(0, 4294967295)]⟩,
  ⟨"tilth.rank.placed", 0x3601, 0x0, 1, 0x0, 1, 5, 4, .u32, .ro, 12, .num 0, [(0, 4294967295)]⟩]

/-- The objects of the outputs area, one row per table row of the spec. -/
def outputsRows : List ObjRow := [
  ⟨"layer.owner", 0x2020, 0x100, 8, 0x1, 6, 1, 1, .u8, .rw, 0, .num 255, [(0, 64), (255, 255)]⟩,
  ⟨"layer.enable", 0x2020, 0x100, 8, 0x1, 6, 2, 1, .bool, .rw, 0, .num 0, [(0, 1)]⟩,
  ⟨"layer.surface", 0x2020, 0x100, 8, 0x1, 6, 3, 1, .u32, .rw, 0, .num 0, [(0, 4294967295)]⟩,
  ⟨"layer.src.xy", 0x2020, 0x100, 8, 0x1, 6, 4, 1, .u32, .rw, 0, .num 0, [(0, 4294967295)]⟩,
  ⟨"layer.src.wh", 0x2020, 0x100, 8, 0x1, 6, 5, 1, .u32, .rw, 0, .num 0, [(0, 4294967295)]⟩,
  ⟨"layer.dst.xy", 0x2020, 0x100, 8, 0x1, 6, 6, 1, .u32, .rw, 0, .num 0, [(0, 4294967295)]⟩,
  ⟨"layer.dst.wh", 0x2020, 0x100, 8, 0x1, 6, 7, 1, .u32, .rw, 0, .num 0, [(0, 4294967295)]⟩,
  ⟨"layer.blend", 0x2020, 0x100, 8, 0x1, 6, 8, 1, .u8, .rw, 0, .num 0, [(0, 2)]⟩,
  ⟨"layer.alpha", 0x2020, 0x100, 8, 0x1, 6, 9, 1, .u8, .rw, 0, .num 255, [(0, 255)]⟩,
  ⟨"layer.matrix", 0x2020, 0x100, 8, 0x1, 6, 10, 1, .u8, .rw, 0, .num 0, [(0, 3)]⟩,
  ⟨"layer.rot", 0x2020, 0x100, 8, 0x1, 6, 11, 1, .u8, .rw, 0, .num 0, [(0, 3)]⟩,
  ⟨"layer.hint", 0x2020, 0x100, 8, 0x1, 6, 12, 1, .u8, .rw, 0, .num 0, [(0, 2)]⟩,
  ⟨"layer.path", 0x2020, 0x100, 8, 0x1, 6, 13, 1, .u8, .ro, 0, .num 0, [(0, 255)]⟩,
  ⟨"layer.hint.kept", 0x2020, 0x100, 8, 0x1, 6, 14, 1, .bool, .ro, 0, .num 1, [(0, 1)]⟩,
  ⟨"layer.demand", 0x2020, 0x100, 8, 0x1, 6, 15, 1, .u32, .ro, 12, .num 0, [(0, 4294967295)]⟩,
  ⟨"comp.slip", 0x2010, 0x100, 8, 0x0, 1, 1, 1, .bool, .rw, 0, .num 0, [(0, 1)]⟩,
  ⟨"comp.bg", 0x2010, 0x100, 8, 0x0, 1, 2, 1, .u32, .rw, 0, .num 0, [(0, 1073741823)]⟩,
  ⟨"comp.slip.lead", 0x2010, 0x100, 8, 0x0, 1, 3, 1, .u16, .rw, 23, .num 384, [(32, 2048)]⟩,
  ⟨"comp.demand", 0x2010, 0x100, 8, 0x0, 1, 4, 1, .u32, .ro, 12, .num 0, [(0, 4294967295)]⟩,
  ⟨"comp.flat.top", 0x2010, 0x100, 8, 0x0, 1, 5, 1, .u8, .ro, 0, .num 255, [(0, 255)]⟩,
  ⟨"comp.rows", 0x2010, 0x100, 8, 0x0, 1, 6, 1, .u8, .ro, 0, .num 0, [(0, 255)]⟩,
  ⟨"comp.row.late", 0x2010, 0x100, 8, 0x0, 1, 7, 1, .u32, .ro, 0, .num 0, [(0, 4294967295)]⟩,
  ⟨"comp.row.bg", 0x2010, 0x100, 8, 0x0, 1, 8, 1, .u32, .ro, 0, .num 0, [(0, 4294967295)]⟩,
  ⟨"out.enable", 0x2000, 0x100, 8, 0x0, 1, 1, 1, .bool, .rw, 0, .num 0, [(0, 1)]⟩,
  ⟨"out.mode", 0x2000, 0x100, 8, 0x0, 1, 2, 1, .u8, .rw, 0, .num 255, [(0, 111), (255, 255)]⟩,
  ⟨"out.kind", 0x2000, 0x100, 8, 0x0, 1, 3, 1, .u8, .rws, 0, .num 0, [(0, 1)]⟩,
  ⟨"out.lanes", 0x2000, 0x100, 8, 0x0, 1, 4, 1, .u8, .rws, 0, .num 4, [(1, 2), (4, 4)]⟩,
  ⟨"out.rate.max", 0x2000, 0x100, 8, 0x0, 1, 5, 1, .u16, .rws, 11, .num 13500, [(1620, 1620), (2160, 2160), (2430, 2430), (2700, 2700), (3240, 3240), (4320, 4320), (5400, 5400), (8100, 8100), (10000, 10000), (13500, 13500)]⟩,
  ⟨"out.bpc", 0x2000, 0x100, 8, 0x0, 1, 6, 1, .u8, .rws, 0, .num 10, [(8, 8), (10, 10)]⟩,
  ⟨"out.ssc", 0x2000, 0x100, 8, 0x0, 1, 7, 1, .bool, .rws, 0, .num 0, [(0, 1)]⟩,
  ⟨"out.boot.mode", 0x2000, 0x100, 8, 0x0, 1, 8, 1, .u8, .rws, 0, .num 255, [(0, 111), (255, 255)]⟩,
  ⟨"out.boot.enable", 0x2000, 0x100, 8, 0x0, 1, 9, 1, .bool, .rws, 0, .num 0, [(0, 1)]⟩,
  ⟨"out.state", 0x2000, 0x100, 8, 0x0, 1, 10, 1, .u8, .ro, 0, .num 0, [(0, 255)]⟩,
  ⟨"out.link.state", 0x2000, 0x100, 8, 0x0, 1, 11, 1, .u8, .ro, 0, .num 0, [(0, 255)]⟩,
  ⟨"out.rate", 0x2000, 0x100, 8, 0x0, 1, 12, 1, .u16, .ro, 11, .num 0, [(0, 65535)]⟩,
  ⟨"out.se", 0x2000, 0x100, 8, 0x0, 1, 13, 1, .u8, .ro, 0, .num 255, [(0, 255)]⟩,
  ⟨"out.commit", 0x2000, 0x100, 8, 0x0, 1, 14, 1, .u8, .wo, 0, .num 0, [(1, 1)]⟩,
  ⟨"out.commit.pend", 0x2000, 0x100, 8, 0x0, 1, 15, 1, .u8, .ro, 0, .num 0, [(0, 255)]⟩,
  ⟨"out.line.match", 0x2000, 0x100, 8, 0x0, 1, 16, 1, .u16, .rw, 23, .num 65535, [(0, 65535)]⟩,
  ⟨"out.pos", 0x2000, 0x100, 8, 0x0, 1, 17, 1, .u32, .ro, 0, .num 0, [(0, 4294967295)]⟩,
  ⟨"out.edid", 0x2000, 0x100, 8, 0x0, 1, 18, 1, .blob, .ro, 0, .bytes [], [(0, 1048576)]⟩,
  ⟨"out.se.gen", 0x2000, 0x100, 8, 0x0, 1, 19, 1, .u16, .ro, 0, .num 0, [(0, 65535)]⟩,
  ⟨"out.frames", 0x2001, 0x100, 8, 0x0, 1, 1, 1, .u32, .ro, 0, .num 0, [(0, 4294967295)]⟩,
  ⟨"out.underrun", 0x2001, 0x100, 8, 0x0, 1, 2, 1, .u32, .ro, 0, .num 0, [(0, 4294967295)]⟩,
  ⟨"out.commit.late", 0x2001, 0x100, 8, 0x0, 1, 3, 1, .u32, .ro, 0, .num 0, [(0, 4294967295)]⟩,
  ⟨"out.retrain", 0x2001, 0x100, 8, 0x0, 1, 4, 1, .u32, .ro, 0, .num 0, [(0, 4294967295)]⟩,
  ⟨"out.se.subst", 0x2001, 0x100, 8, 0x0, 1, 5, 1, .u32, .ro, 0, .num 0, [(0, 4294967295)]⟩]

/-- The objects of the modes area, one row per table row of the spec. -/
def modesRows : List ObjRow := [
  ⟨"mode.w", 0x2800, 0x1, 112, 0x0, 1, 1, 1, .u16, .ro, 24, .each (fun m => modeW m), [(0, 65535)]⟩,
  ⟨"mode.h", 0x2800, 0x1, 112, 0x0, 1, 2, 1, .u16, .ro, 23, .each (fun m => modeH m), [(0, 65535)]⟩,
  ⟨"mode.htotal", 0x2800, 0x1, 112, 0x0, 1, 3, 1, .u16, .ro, 24, .each (fun m => modeHtotal m), [(0, 65535)]⟩,
  ⟨"mode.vtotal", 0x2800, 0x1, 112, 0x0, 1, 4, 1, .u16, .ro, 23, .each (fun m => modeVtotal m), [(0, 65535)]⟩,
  ⟨"mode.hfp", 0x2800, 0x1, 112, 0x0, 1, 5, 1, .u16, .ro, 24, .each (fun m => modeHfp m), [(0, 65535)]⟩,
  ⟨"mode.hsw", 0x2800, 0x1, 112, 0x0, 1, 6, 1, .u16, .ro, 24, .each (fun m => modeHsw m), [(0, 65535)]⟩,
  ⟨"mode.vfp", 0x2800, 0x1, 112, 0x0, 1, 7, 1, .u16, .ro, 23, .each (fun m => modeVfp m), [(0, 65535)]⟩,
  ⟨"mode.vsw", 0x2800, 0x1, 112, 0x0, 1, 8, 1, .u16, .ro, 23, .each (fun m => modeVsw m), [(0, 65535)]⟩,
  ⟨"mode.pclk", 0x2800, 0x1, 112, 0x0, 1, 9, 1, .u32, .ro, 8, .each (fun m => modePclk m), [(0, 4294967295)]⟩,
  ⟨"mode.sync", 0x2800, 0x1, 112, 0x0, 1, 10, 1, .u8, .ro, 0, .each (fun m => modeSync m), [(0, 255)]⟩,
  ⟨"mode.refresh", 0x2800, 0x1, 112, 0x0, 1, 11, 1, .u32, .ro, 6, .each (fun m => modeRefresh m), [(0, 4294967295)]⟩,
  ⟨"mode.fit.dp", 0x2800, 0x1, 112, 0x0, 1, 12, 1, .u16, .ro, 11, .each (fun m => modeFitDp m), [(0, 65535)]⟩,
  ⟨"mode.fit.edp", 0x2800, 0x1, 112, 0x0, 1, 13, 1, .u16, .ro, 11, .each (fun m => modeFitEdp m), [(0, 65535)]⟩,
  ⟨"mode.large", 0x2800, 0x1, 112, 0x0, 1, 14, 1, .bool, .ro, 0, .each (fun m => b2n (modeLarge m)), [(0, 1)]⟩,
  ⟨"mode.src", 0x2800, 0x1, 112, 0x0, 1, 15, 1, .u8, .ro, 0, .each (fun m => modeSrc m), [(0, 255)]⟩]

/-- The objects of the worlds area, one row per table row of the spec. -/
def worldsRows : List ObjRow := [
  ⟨"kaolin.enable", 0x7510, 0x1, 8, 0x0, 1, 1, 1, .bool, .rwt, 0, .num 0, [(0, 1)]⟩,
  ⟨"kaolin.commit", 0x7510, 0x1, 8, 0x0, 1, 2, 1, .u8, .rwtRun, 0, .num 0, [(1, 1)]⟩,
  ⟨"kaolin.blink.on", 0x7510, 0x1, 8, 0x0, 1, 3, 1, .u16, .rwt, 3, .num 500, [(20, 10000)]⟩,
  ⟨"kaolin.blink.off", 0x7510, 0x1, 8, 0x0, 1, 4, 1, .u16, .rwt, 3, .num 500, [(20, 10000)]⟩,
  ⟨"kaolin.sig.repeat", 0x7510, 0x1, 8, 0x0, 1, 5, 1, .u16, .rwt, 3, .num 100, [(20, 5000)]⟩,
  ⟨"kaolin.commit.late", 0x7510, 0x1, 8, 0x0, 1, 6, 1, .u32, .rwtRun, 0, .num 0, [(0, 4294967295)]⟩,
  ⟨"kaolin.phase", 0x7510, 0x1, 8, 0x0, 1, 7, 1, .u8, .rwtRun, 0, .num 0, [(0, 1)]⟩,
  ⟨"rect.enable", 0x7400, 0x20, 8, 0x1, 32, 1, 1, .bool, .rwt, 0, .num 0, [(0, 1)]⟩,
  ⟨"rect.src", 0x7400, 0x20, 8, 0x1, 32, 2, 1, .u32, .rwt, 0, .num 0, [(0, 4294967295)]⟩,
  ⟨"rect.stride", 0x7400, 0x20, 8, 0x1, 32, 3, 1, .u16, .rwt, 14, .num 8, [(0, 65535)]⟩,
  ⟨"rect.xy", 0x7400, 0x20, 8, 0x1, 32, 4, 1, .u32, .rwt, 0, .num 0, [(0, 4294967295)]⟩,
  ⟨"rect.wh", 0x7400, 0x20, 8, 0x1, 32, 5, 1, .u32, .rwt, 0, .num 0, [(0, 4294967295)]⟩,
  ⟨"rect.sig.mode", 0x7400, 0x20, 8, 0x1, 32, 6, 1, .u8, .rwt, 0, .num 1, [(0, 2)]⟩,
  ⟨"rect.sig.on", 0x7400, 0x20, 8, 0x1, 32, 7, 1, .u32, .rwt, 0, .num 0, [(0, 4294967295)]⟩,
  ⟨"rect.sig.off", 0x7400, 0x20, 8, 0x1, 32, 8, 1, .u32, .rwt, 0, .num 0, [(0, 4294967295)]⟩,
  ⟨"rect.sig.lines", 0x7400, 0x20, 8, 0x1, 32, 9, 1, .u8, .rwt, 0, .num 0, [(0, 0)]⟩,
  ⟨"rect.sig.last", 0x7400, 0x20, 8, 0x1, 32, 10, 1, .u32, .rwtRun, 0, .num 0, [(0, 4294967295)]⟩,
  ⟨"rect.sig.miss", 0x7400, 0x20, 8, 0x1, 32, 11, 1, .u32, .rwtRun, 0, .num 0, [(0, 4294967295)]⟩,
  ⟨"kaolin.st", 0x7100, 0x0, 1, 0x0, 1, 1, 8, .u8, .ro, 0, .num 0, [(0, 255)]⟩,
  ⟨"kaolin.miss", 0x7101, 0x0, 1, 0x0, 1, 1, 8, .u32, .ro, 0, .num 0, [(0, 4294967295)]⟩,
  ⟨"kaolin.miss.time", 0x7102, 0x0, 1, 0x0, 1, 1, 8, .u64, .ro, 1, .num 0, [(0, 18446744073709551615)]⟩,
  ⟨"kaolin.tw", 0x7103, 0x0, 1, 0x0, 1, 0, 1, .u8, .ro, 0, .num 3, [(0, 255)]⟩,
  ⟨"world.restarts", 0x7000, 0x0, 1, 0x0, 1, 1, 1, .u32, .ro, 0, .num 0, [(0, 4294967295)]⟩,
  ⟨"world.restart.last", 0x7000, 0x0, 1, 0x0, 1, 2, 1, .u64, .ro, 1, .num 0, [(0, 18446744073709551615)]⟩,
  ⟨"world.restart.cause", 0x7000, 0x0, 1, 0x0, 1, 3, 1, .u8, .ro, 0, .num 0, [(0, 255)]⟩,
  ⟨"world.restart.us", 0x7000, 0x0, 1, 0x0, 1, 4, 1, .u32, .ro, 2, .num 0, [(0, 4294967295)]⟩,
  ⟨"world.wdog", 0x7000, 0x0, 1, 0x0, 1, 5, 1, .u16, .ro, 3, .num 50, [(0, 65535)]⟩,
  ⟨"world.viol", 0x7000, 0x0, 1, 0x0, 1, 6, 1, .u32, .ro, 0, .num 0, [(0, 4294967295)]⟩,
  ⟨"world.viol.last", 0x7000, 0x0, 1, 0x0, 1, 7, 1, .u32, .ro, 0, .num 0, [(0, 4294967295)]⟩,
  ⟨"world.refused", 0x7000, 0x0, 1, 0x0, 1, 8, 1, .u32, .ro, 0, .num 0, [(0, 4294967295)]⟩,
  ⟨"world.refuse.log", 0x7000, 0x0, 1, 0x0, 1, 9, 1, .blob, .ro, 0, .bytes [], [(0, 1048576)]⟩,
  ⟨"world.claim", 0x7010, 0x0, 1, 0x0, 1, 1, 24, .u8, .ro, 0, .each (fun i => if i = 1 then 1 else 0), [(0, 255)]⟩,
  ⟨"world.claim.kaolin", 0x7012, 0x0, 1, 0x0, 1, 0, 1, .u32, .ro, 0, .num 0, [(0, 4294967295)]⟩,
  ⟨"claim.hold", 0x7011, 0x0, 1, 0x0, 1, 1, 24, .bool, .rwt, 0, .each (fun i => if i = 1 then 1 else 0), [(0, 1)]⟩,
  ⟨"world.pin.t", 0x7020, 0x0, 1, 0x0, 1, 1, 96, .u8, .ro, 0, .num 0, [(0, 255)]⟩,
  ⟨"pin.t", 0x7021, 0x0, 1, 0x0, 1, 1, 96, .bool, .rwt, 0, .num 0, [(0, 1)]⟩,
  ⟨"world.dma.t", 0x7040, 0x0, 1, 0x0, 1, 1, 32, .u8, .ro, 0, .num 0, [(0, 255)]⟩,
  ⟨"dma.t", 0x7041, 0x0, 1, 0x0, 1, 1, 32, .bool, .rwt, 0, .num 0, [(0, 1)]⟩,
  ⟨"att.slots", 0x7080, 0x0, 1, 0x0, 1, 1, 1, .blob, .ro, 0, .bytes (List.replicate 384 0), [(0, 1048576)]⟩,
  ⟨"att.log", 0x7080, 0x0, 1, 0x0, 1, 2, 1, .blob, .ro, 0, .bytes [], [(0, 1048576)]⟩,
  ⟨"att.log.count", 0x7080, 0x0, 1, 0x0, 1, 3, 1, .u16, .ro, 0, .num 0, [(0, 65535)]⟩,
  ⟨"att.log.full", 0x7080, 0x0, 1, 0x0, 1, 4, 1, .bool, .ro, 0, .num 0, [(0, 1)]⟩,
  ⟨"att.cert", 0x7080, 0x0, 1, 0x0, 1, 5, 1, .blob, .ro, 0, .bytes Config.attestationCert, [(0, 1048576)]⟩,
  ⟨"att.nonce", 0x7081, 0x0, 1, 0x0, 1, 1, 1, .blob, .wo, 0, .bytes [], [(32, 32)]⟩,
  ⟨"att.quote", 0x7081, 0x0, 1, 0x0, 1, 2, 1, .blob, .ro, 0, .bytes [], [(0, 1048576)]⟩,
  ⟨"kaolin.palette", 0x7500, 0x1, 8, 0x0, 1, 1, 16, .u32, .rwt, 0, .num 0, [(0, 4294967295)]⟩,
  ⟨"kaolin.boot.lo", 0x7600, 0x0, 1, 0x0, 1, 1, 1, .blob, .rwt, 0, .bytes [], [(0, 1048576)]⟩,
  ⟨"kaolin.boot.hi", 0x7600, 0x0, 1, 0x0, 1, 2, 1, .blob, .rwt, 0, .bytes [], [(0, 1048576)]⟩]

/-- The objects of the memory area, one row per table row of the spec. -/
def memoryRows : List ObjRow := [
  ⟨"mem.rate", 0x4000, 0x0, 1, 0x0, 1, 1, 1, .u16, .ro, 13, .num 8533, [(0, 65535)]⟩,
  ⟨"mem.user", 0x4000, 0x0, 1, 0x0, 1, 2, 1, .u64, .ro, 14, .num 68719476736, [(0, 18446744073709551615)]⟩,
  ⟨"mem.free", 0x4000, 0x0, 1, 0x0, 1, 3, 1, .u64, .ro, 14, .num (68719476736 - 1073741824 - 805306368), [(0, 18446744073709551615)]⟩,
  ⟨"mem.spares", 0x4000, 0x0, 1, 0x0, 1, 4, 1, .u8, .ro, 0, .num 2, [(0, 255)]⟩,
  ⟨"mem.ce.limit", 0x4000, 0x0, 1, 0x0, 1, 5, 1, .u16, .rws, 0, .num 64, [(1, 65535)]⟩,
  ⟨"mem.scrub.period", 0x4000, 0x0, 1, 0x0, 1, 6, 1, .u16, .rws, 5, .num 24, [(0, 720)]⟩,
  ⟨"mem.scrub.pos", 0x4000, 0x0, 1, 0x0, 1, 7, 1, .u8, .ro, 21, .num 0, [(0, 255)]⟩,
  ⟨"mem.scrub.last", 0x4000, 0x0, 1, 0x0, 1, 8, 1, .u64, .ro, 1, .num 0, [(0, 18446744073709551615)]⟩,
  ⟨"mem.nrr.log2", 0x4000, 0x0, 1, 0x0, 1, 9, 1, .u8, .rws, 0, .num 10, [(6, 16)]⟩,
  ⟨"mem.pd.timer", 0x4000, 0x0, 1, 0x0, 1, 10, 1, .u32, .rws, 1, .num 1000, [(100, 1000000)]⟩,
  ⟨"mem.sr.timer", 0x4000, 0x0, 1, 0x0, 1, 11, 1, .u16, .rws, 2, .num 50, [(10, 10000)]⟩,
  ⟨"mem.ecc.h", 0x4000, 0x0, 1, 0x0, 1, 12, 1, .blob, .ro, 0, .bytes eccMatrixBytes, [(0, 1048576)]⟩,
  ⟨"mem.migrate.rate", 0x4000, 0x0, 1, 0x0, 1, 13, 1, .u16, .ro, 12, .num 8000, [(0, 65535)]⟩,
  ⟨"mem.retire.req", 0x4000, 0x0, 1, 0x0, 1, 14, 1, .u8, .wo, 0, .num 0, [(0, 5)]⟩,
  ⟨"mem.poison", 0x4000, 0x0, 1, 0x0, 1, 15, 1, .u32, .ro, 0, .num 0, [(0, 4294967295)]⟩,
  ⟨"mem.log", 0x4000, 0x0, 1, 0x0, 1, 16, 1, .blob, .ro, 0, .bytes [], [(0, 1048576)]⟩,
  ⟨"mem.log.seq", 0x4000, 0x0, 1, 0x0, 1, 17, 1, .u32, .ro, 0, .num 0, [(0, 4294967295)]⟩,
  ⟨"rank.state", 0x4010, 0x1, 6, 0x0, 1, 1, 1, .u8, .ro, 0, .each (fun i => if i < 4 then 2 else 0), [(0, 255)]⟩,
  ⟨"rank.unit", 0x4010, 0x1, 6, 0x0, 1, 2, 1, .u8, .ro, 0, .each (fun i => if i < 4 then i else 0xFF), [(0, 255)]⟩,
  ⟨"rank.cause", 0x4010, 0x1, 6, 0x0, 1, 3, 1, .u8, .ro, 0, .num 0, [(0, 255)]⟩,
  ⟨"rank.ce", 0x4010, 0x1, 6, 0x0, 1, 4, 1, .u16, .ro, 0, .num 0, [(0, 65535)]⟩,
  ⟨"rank.ce.total", 0x4010, 0x1, 6, 0x0, 1, 5, 1, .u32, .ro, 0, .num 0, [(0, 4294967295)]⟩,
  ⟨"rank.ce.trans", 0x4010, 0x1, 6, 0x0, 1, 6, 1, .u32, .ro, 0, .num 0, [(0, 4294967295)]⟩,
  ⟨"rank.ue", 0x4010, 0x1, 6, 0x0, 1, 7, 1, .u32, .ro, 0, .num 0, [(0, 4294967295)]⟩,
  ⟨"rank.ue.trans", 0x4010, 0x1, 6, 0x0, 1, 8, 1, .u32, .ro, 0, .num 0, [(0, 4294967295)]⟩,
  ⟨"rank.poison", 0x4010, 0x1, 6, 0x0, 1, 9, 1, .u32, .ro, 0, .num 0, [(0, 4294967295)]⟩,
  ⟨"rank.nrr", 0x4010, 0x1, 6, 0x0, 1, 10, 1, .u64, .ro, 0, .num 0, [(0, 18446744073709551615)]⟩,
  ⟨"rank.gen", 0x4010, 0x1, 6, 0x0, 1, 11, 1, .u16, .ro, 0, .num 0, [(0, 65535)]⟩,
  ⟨"rank.moved", 0x4010, 0x1, 6, 0x0, 1, 12, 1, .u64, .ro, 14, .num 0, [(0, 18446744073709551615)]⟩,
  ⟨"grp.state", 0x4020, 0x1, 3, 0x0, 1, 1, 1, .u8, .ro, 0, .num 0, [(0, 255)]⟩,
  ⟨"grp.trained", 0x4020, 0x1, 3, 0x0, 1, 2, 1, .u64, .ro, 1, .num 0, [(0, 18446744073709551615)]⟩,
  ⟨"grp.retrain", 0x4020, 0x1, 3, 0x0, 1, 3, 1, .u32, .ro, 0, .num 0, [(0, 4294967295)]⟩,
  ⟨"grp.bad.pins", 0x4020, 0x1, 3, 0x0, 1, 4, 1, .blob, .ro, 0, .bytes [], [(0, 1048576)]⟩,
  ⟨"grp.sr.count", 0x4020, 0x1, 3, 0x0, 1, 5, 1, .u32, .ro, 0, .num 0, [(0, 4294967295)]⟩,
  ⟨"grp.temp", 0x4020, 0x1, 3, 0x0, 1, 6, 1, .i32, .ro, 20, .num Config.firstGroupTemp.toNat, [((-2147483648), 2147483647)]⟩,
  ⟨"grp.pin.ce", 0x4020, 0x1, 3, 0x0, 1, 7, 1, .blob, .ro, 0, .bytes (List.replicate 576 0), [(0, 1048576)]⟩]

/-- The objects of the diagnostics area, one row per table row of the spec. -/
def diagnosticsRows : List ObjRow := [
  ⟨"mem.inj.rank", 0xF400, 0x0, 1, 0x0, 1, 1, 1, .u8, .rw, 0, .num 255, [(0, 5), (255, 255)]⟩,
  ⟨"mem.inj.pin", 0xF400, 0x0, 1, 0x0, 1, 2, 1, .u8, .rw, 0, .num 0, [(0, 143)]⟩,
  ⟨"mem.inj.pin2", 0xF400, 0x0, 1, 0x0, 1, 3, 1, .u8, .rw, 0, .num 255, [(0, 143), (255, 255)]⟩,
  ⟨"mem.inj.mask", 0xF400, 0x0, 1, 0x0, 1, 4, 1, .u8, .rw, 0, .num 1, [(0, 15)]⟩,
  ⟨"mem.inj.count", 0xF400, 0x0, 1, 0x0, 1, 5, 1, .u16, .rw, 0, .num 1, [(1, 65535)]⟩,
  ⟨"mem.inj.arm", 0xF400, 0x0, 1, 0x0, 1, 6, 1, .bool, .rw, 0, .num 0, [(0, 1)]⟩,
  ⟨"diag.enable", 0xF000, 0x0, 1, 0x0, 1, 1, 1, .bool, .rw, 0, .num 0, [(0, 1)]⟩]

/-- The objects of the vfs area, one row per table row of the spec. -/
def vfsRows : List ObjRow := [
  ⟨"pf0.portal.vec", 0x6000, 0x0, 1, 0x0, 1, 7, 1, .u8, .rw, 0, .num 0, [(0, 31)]⟩,
  ⟨"pool.rings", 0x6030, 0x0, 1, 0x0, 1, 1, 1, .u16, .ro, 0, .num 256, [(0, 65535)]⟩,
  ⟨"pool.ctx", 0x6030, 0x0, 1, 0x0, 1, 2, 1, .u8, .ro, 0, .num 63, [(0, 255)]⟩,
  ⟨"pool.mem", 0x6030, 0x0, 1, 0x0, 1, 3, 1, .u32, .ro, 16, .num 63744, [(0, 4294967295)]⟩,
  ⟨"pool.layers", 0x6030, 0x0, 1, 0x0, 1, 4, 1, .u8, .ro, 0, .num 48, [(0, 255)]⟩,
  ⟨"pool.surfaces", 0x6030, 0x0, 1, 0x0, 1, 5, 1, .u16, .ro, 0, .num 2048, [(0, 65535)]⟩,
  ⟨"pool.fences", 0x6030, 0x0, 1, 0x0, 1, 6, 1, .u16, .ro, 0, .num 256, [(0, 65535)]⟩,
  ⟨"pool.progs", 0x6030, 0x0, 1, 0x0, 1, 7, 1, .u16, .ro, 0, .num 256, [(0, 65535)]⟩,
  ⟨"pool.haptic", 0x6030, 0x0, 1, 0x0, 1, 8, 1, .u16, .ro, 0, .num 65535, [(0, 65535)]⟩,
  ⟨"pool.streams", 0x6030, 0x0, 1, 0x0, 1, 9, 1, .u8, .ro, 0, .num 64, [(0, 255)]⟩,
  ⟨"pool.share", 0x6030, 0x0, 1, 0x0, 1, 10, 1, .u16, .ro, 0, .num 900, [(0, 65535)]⟩,
  ⟨"pf1.portal.vec", 0x6031, 0x0, 1, 0x0, 1, 1, 1, .u8, .rw, 0, .num 0, [(0, 31)]⟩,
  ⟨"vf.enable", 0x6040, 0x40, 63, 0x0, 1, 1, 1, .bool, .rw, 0, .num 0, [(0, 1)]⟩,
  ⟨"vf.status", 0x6040, 0x40, 63, 0x0, 1, 2, 1, .u32, .ro, 0, .num 0, [(0, 4294967295)]⟩,
  ⟨"vf.flr", 0x6040, 0x40, 63, 0x0, 1, 3, 1, .u8, .wo, 0, .num 0, [(1, 1)]⟩,
  ⟨"vf.flr.count", 0x6040, 0x40, 63, 0x0, 1, 4, 1, .u32, .ro, 0, .num 0, [(0, 4294967295)]⟩,
  ⟨"vf.spoof", 0x6040, 0x40, 63, 0x0, 1, 5, 1, .u32, .ro, 0, .num 0, [(0, 4294967295)]⟩,
  ⟨"vf.spoof.last", 0x6040, 0x40, 63, 0x0, 1, 6, 1, .u64, .ro, 0, .num 0, [(0, 18446744073709551615)]⟩,
  ⟨"vf.portal.vec", 0x6040, 0x40, 63, 0x0, 1, 7, 1, .u8, .rw, 0, .num 0, [(0, 31)]⟩,
  ⟨"grant.rings", 0x6041, 0x40, 63, 0x0, 1, 1, 1, .u8, .rw, 0, .num 0, [(0, 16)]⟩,
  ⟨"grant.ring.order", 0x6041, 0x40, 63, 0x0, 1, 2, 1, .u8, .rw, 0, .num 8, [(4, 12)]⟩,
  ⟨"grant.ctx", 0x6041, 0x40, 63, 0x0, 1, 3, 1, .u8, .rw, 0, .num 0, [(0, 63)]⟩,
  ⟨"grant.class", 0x6041, 0x40, 63, 0x0, 1, 4, 1, .u8, .rw, 0, .num 2, [(1, 3)]⟩,
  ⟨"grant.share", 0x6041, 0x40, 63, 0x0, 1, 5, 1, .u16, .rw, 0, .num 100, [(1, 1000)]⟩,
  ⟨"grant.mem", 0x6041, 0x40, 63, 0x0, 1, 6, 1, .u32, .rw, 16, .num 0, [(0, 4294967295)]⟩,
  ⟨"grant.silt", 0x6041, 0x40, 63, 0x0, 1, 7, 1, .u32, .rw, 16, .num 0, [(0, 4294967295)]⟩,
  ⟨"grant.layers", 0x6041, 0x40, 63, 0x0, 1, 8, 1, .u8, .rw, 0, .num 0, [(0, 48)]⟩,
  ⟨"grant.surfaces", 0x6041, 0x40, 63, 0x0, 1, 9, 1, .u16, .rw, 0, .num 0, [(0, 2048)]⟩,
  ⟨"grant.fences", 0x6041, 0x40, 63, 0x0, 1, 10, 1, .u16, .rw, 0, .num 0, [(0, 256)]⟩,
  ⟨"grant.progs", 0x6041, 0x40, 63, 0x0, 1, 11, 1, .u16, .rw, 0, .num 0, [(0, 256)]⟩,
  ⟨"grant.haptic", 0x6041, 0x40, 63, 0x0, 1, 12, 1, .u16, .rw, 0, .num 0, [(0, 65535)]⟩,
  ⟨"grant.streams", 0x6041, 0x40, 63, 0x0, 1, 13, 1, .u8, .rw, 0, .num 0, [(0, 64)]⟩,
  ⟨"use.rings", 0x6042, 0x40, 63, 0x0, 1, 1, 1, .u8, .ro, 0, .num 0, [(0, 255)]⟩,
  ⟨"use.ring.order", 0x6042, 0x40, 63, 0x0, 1, 2, 1, .u8, .ro, 0, .num 0, [(0, 255)]⟩,
  ⟨"use.ctx", 0x6042, 0x40, 63, 0x0, 1, 3, 1, .u8, .ro, 0, .num 0, [(0, 255)]⟩,
  ⟨"use.class", 0x6042, 0x40, 63, 0x0, 1, 4, 1, .u8, .ro, 0, .num 0, [(0, 255)]⟩,
  ⟨"use.share", 0x6042, 0x40, 63, 0x0, 1, 5, 1, .u16, .ro, 0, .num 0, [(0, 65535)]⟩,
  ⟨"use.mem", 0x6042, 0x40, 63, 0x0, 1, 6, 1, .u32, .ro, 16, .num 0, [(0, 4294967295)]⟩,
  ⟨"use.silt", 0x6042, 0x40, 63, 0x0, 1, 7, 1, .u32, .ro, 16, .num 0, [(0, 4294967295)]⟩,
  ⟨"use.layers", 0x6042, 0x40, 63, 0x0, 1, 8, 1, .u8, .ro, 0, .num 0, [(0, 255)]⟩,
  ⟨"use.surfaces", 0x6042, 0x40, 63, 0x0, 1, 9, 1, .u16, .ro, 0, .num 0, [(0, 65535)]⟩,
  ⟨"use.fences", 0x6042, 0x40, 63, 0x0, 1, 10, 1, .u16, .ro, 0, .num 0, [(0, 65535)]⟩,
  ⟨"use.progs", 0x6042, 0x40, 63, 0x0, 1, 11, 1, .u16, .ro, 0, .num 0, [(0, 65535)]⟩,
  ⟨"use.haptic", 0x6042, 0x40, 63, 0x0, 1, 12, 1, .u16, .ro, 0, .num 0, [(0, 65535)]⟩,
  ⟨"use.streams", 0x6042, 0x40, 63, 0x0, 1, 13, 1, .u8, .ro, 0, .num 0, [(0, 255)]⟩,
  ⟨"mig.freeze", 0x6060, 0x40, 63, 0x0, 1, 1, 1, .bool, .rw, 0, .num 0, [(0, 1)]⟩,
  ⟨"mig.state", 0x6060, 0x40, 63, 0x0, 1, 2, 1, .u8, .ro, 0, .num 0, [(0, 255)]⟩,
  ⟨"mig.ctx", 0x6060, 0x40, 63, 0x0, 1, 3, 1, .u8, .rw, 0, .num 255, [(0, 63), (255, 255)]⟩,
  ⟨"mig.addr", 0x6060, 0x40, 63, 0x0, 1, 4, 1, .u64, .rw, 0, .num 0, [(0, 18446744073709551615)]⟩,
  ⟨"mig.len", 0x6060, 0x40, 63, 0x0, 1, 5, 1, .u32, .rw, 14, .num 0, [(0, 4294967295)]⟩,
  ⟨"mig.op", 0x6060, 0x40, 63, 0x0, 1, 6, 1, .u8, .wo, 0, .num 0, [(1, 2)]⟩,
  ⟨"mig.size", 0x6060, 0x40, 63, 0x0, 1, 7, 1, .u32, .ro, 14, .num 0, [(0, 4294967295)]⟩,
  ⟨"mig.result", 0x6060, 0x40, 63, 0x0, 1, 8, 1, .u8, .ro, 0, .num 0, [(0, 255)]⟩,
  ⟨"log.enable", 0x6061, 0x40, 63, 0x0, 1, 1, 1, .bool, .rw, 0, .num 0, [(0, 1)]⟩,
  ⟨"log.base0", 0x6061, 0x40, 63, 0x0, 1, 2, 1, .u64, .rw, 0, .num 0, [(0, 18446744073709551615)]⟩,
  ⟨"log.base1", 0x6061, 0x40, 63, 0x0, 1, 3, 1, .u64, .rw, 0, .num 0, [(0, 18446744073709551615)]⟩,
  ⟨"log.lo", 0x6061, 0x40, 63, 0x0, 1, 4, 1, .u64, .rw, 0, .num 0, [(0, 18446744073709551615)]⟩,
  ⟨"log.pages", 0x6061, 0x40, 63, 0x0, 1, 5, 1, .u32, .rw, 0, .num 0, [(1, 67108864)]⟩,
  ⟨"log.swap", 0x6061, 0x40, 63, 0x0, 1, 6, 1, .u8, .wo, 0, .num 0, [(1, 1)]⟩,
  ⟨"log.active", 0x6061, 0x40, 63, 0x0, 1, 7, 1, .u8, .ro, 0, .num 0, [(0, 255)]⟩,
  ⟨"log.seq", 0x6061, 0x40, 63, 0x0, 1, 8, 1, .u32, .ro, 0, .num 0, [(0, 4294967295)]⟩,
  ⟨"log.out", 0x6061, 0x40, 63, 0x0, 1, 9, 1, .u32, .ro, 0, .num 0, [(0, 4294967295)]⟩,
  ⟨"log.state", 0x6061, 0x40, 63, 0x0, 1, 10, 1, .u8, .ro, 0, .num 0, [(0, 255)]⟩,
  ⟨"region.port", 0x6048, 0x40, 63, 0x1, 8, 1, 1, .u8, .rw, 0, .num 255, [(0, 7), (255, 255)]⟩,
  ⟨"region.origin", 0x6048, 0x40, 63, 0x1, 8, 2, 1, .u32, .rw, 0, .num 0, [(0, 4294967295)]⟩,
  ⟨"region.size", 0x6048, 0x40, 63, 0x1, 8, 3, 1, .u32, .rw, 0, .num 0, [(0, 4294967295)]⟩,
  ⟨"touch.region.port", 0x6050, 0x40, 63, 0x1, 8, 1, 1, .u8, .rw, 0, .num 255, [(0, 3), (255, 255)]⟩,
  ⟨"touch.region.origin", 0x6050, 0x40, 63, 0x1, 8, 2, 1, .u32, .rw, 0, .num 0, [(0, 4294967295)]⟩,
  ⟨"touch.region.size", 0x6050, 0x40, 63, 0x1, 8, 3, 1, .u32, .rw, 0, .num 0, [(0, 4294967295)]⟩]

/-- The objects of the touch area, one row per table row of the spec. -/
def touchRows : List ObjRow := [
  ⟨"panel.enable", 0x4420, 0x1, 4, 0x0, 1, 1, 1, .bool, .rw, 0, .num 0, [(0, 1)]⟩,
  ⟨"panel.chips", 0x4420, 0x1, 4, 0x0, 1, 2, 1, .u8, .rws, 0, .num 0, [(0, 6), (8, 10), (12, 12)]⟩,
  ⟨"panel.tx", 0x4420, 0x1, 4, 0x0, 1, 3, 1, .u16, .rws, 0, .num 0, [(0, 65535)]⟩,
  ⟨"panel.rx", 0x4420, 0x1, 4, 0x0, 1, 4, 1, .u16, .rws, 0, .num 0, [(0, 65535)]⟩,
  ⟨"panel.lines", 0x4420, 0x1, 4, 0x0, 1, 5, 1, .blob, .rws, 0, .bytes [], [(0, 1048576)]⟩,
  ⟨"panel.pitch.x", 0x4420, 0x1, 4, 0x0, 1, 6, 1, .u16, .rws, 26, .num 5000, [(1000, 12000)]⟩,
  ⟨"panel.pitch.y", 0x4420, 0x1, 4, 0x0, 1, 7, 1, .u16, .rws, 26, .num 5000, [(1000, 12000)]⟩,
  ⟨"panel.res.x", 0x4420, 0x1, 4, 0x0, 1, 8, 1, .u16, .rws, 0, .num 4096, [(2, 65535)]⟩,
  ⟨"panel.res.y", 0x4420, 0x1, 4, 0x0, 1, 9, 1, .u16, .rws, 0, .num 4096, [(2, 65535)]⟩,
  ⟨"panel.orient", 0x4420, 0x1, 4, 0x0, 1, 10, 1, .u8, .rws, 0, .num 0, [(0, 7)]⟩,
  ⟨"panel.thr", 0x4420, 0x1, 4, 0x0, 1, 11, 1, .u16, .rws, 25, .num 60, [(10, 1000)]⟩,
  ⟨"panel.stuck", 0x4420, 0x1, 4, 0x0, 1, 12, 1, .u16, .rws, 4, .num 0, [(0, 0), (10, 3600)]⟩,
  ⟨"panel.boot.enable", 0x4420, 0x1, 4, 0x0, 1, 13, 1, .bool, .rws, 0, .num 0, [(0, 1)]⟩,
  ⟨"panel.drift.after", 0x4420, 0x1, 4, 0x0, 1, 14, 1, .u16, .rws, 4, .num 30, [(0, 65535)]⟩,
  ⟨"panel.drift.thr", 0x4420, 0x1, 4, 0x0, 1, 15, 1, .u16, .rws, 25, .num 25, [(5, 500)]⟩,
  ⟨"panel.hap.mask", 0x4420, 0x1, 4, 0x0, 1, 16, 1, .u16, .rws, 0, .num 0, [(0, 65535)]⟩,
  ⟨"panel.test.mode", 0x4420, 0x1, 4, 0x0, 1, 17, 1, .u8, .rws, 0, .num 3, [(0, 3)]⟩,
  ⟨"panel.ref.tol", 0x4420, 0x1, 4, 0x0, 1, 18, 1, .u16, .rws, 25, .num 40, [(5, 1000)]⟩,
  ⟨"panel.raw.lo", 0x4420, 0x1, 4, 0x0, 1, 19, 1, .u16, .rws, 25, .num 200, [(0, 65535)]⟩,
  ⟨"panel.raw.hi", 0x4420, 0x1, 4, 0x0, 1, 20, 1, .u16, .rws, 25, .num 3800, [(0, 4095)]⟩,
  ⟨"touch.rate", 0x4400, 0x0, 1, 0x0, 1, 1, 1, .u16, .ro, 0, .num 240, [(0, 65535)]⟩,
  ⟨"touch.lat.max", 0x4400, 0x0, 1, 0x0, 1, 2, 1, .u32, .ro, 2, .num 0, [(0, 4294967295)]⟩,
  ⟨"touch.lat.last", 0x4400, 0x0, 1, 0x0, 1, 3, 1, .u32, .ro, 2, .num 0, [(0, 4294967295)]⟩,
  ⟨"chip.state", 0x4410, 0x1, 4, 0x0, 1, 1, 1, .u8, .ro, 0, .num 0, [(0, 255)]⟩,
  ⟨"chip.panel", 0x4410, 0x1, 4, 0x0, 1, 2, 1, .u8, .ro, 0, .num 255, [(0, 255)]⟩,
  ⟨"chip.gen", 0x4410, 0x1, 4, 0x0, 1, 3, 1, .u16, .ro, 0, .num 0, [(0, 65535)]⟩,
  ⟨"chip.spares", 0x4410, 0x1, 4, 0x0, 1, 4, 1, .u8, .ro, 0, .num 4, [(0, 255)]⟩,
  ⟨"chip.map", 0x4410, 0x1, 4, 0x0, 1, 5, 1, .blob, .ro, 0, .bytes ((List.range 128).map (BitVec.ofNat 8 ·)), [(0, 1048576)]⟩,
  ⟨"chip.refcap", 0x4410, 0x1, 4, 0x0, 1, 6, 1, .blob, .ro, 29, .bytes (List.replicate 264 0), [(0, 1048576)]⟩,
  ⟨"panel.state", 0x4430, 0x1, 4, 0x0, 1, 1, 1, .u8, .ro, 0, .num 0, [(0, 255)]⟩,
  ⟨"panel.contacts", 0x4430, 0x1, 4, 0x0, 1, 2, 1, .u8, .ro, 0, .num 0, [(0, 255)]⟩,
  ⟨"panel.suspect", 0x4430, 0x1, 4, 0x0, 1, 3, 1, .u16, .ro, 0, .num 0, [(0, 65535)]⟩,
  ⟨"panel.masked", 0x4430, 0x1, 4, 0x0, 1, 4, 1, .u8, .ro, 0, .num 0, [(0, 255)]⟩,
  ⟨"panel.frames", 0x4430, 0x1, 4, 0x0, 1, 5, 1, .u32, .ro, 0, .num 0, [(0, 4294967295)]⟩,
  ⟨"panel.recal", 0x4430, 0x1, 4, 0x0, 1, 6, 1, .u32, .ro, 0, .num 0, [(0, 4294967295)]⟩,
  ⟨"panel.stuck.count", 0x4430, 0x1, 4, 0x0, 1, 7, 1, .u32, .ro, 0, .num 0, [(0, 4294967295)]⟩,
  ⟨"panel.palm", 0x4430, 0x1, 4, 0x0, 1, 8, 1, .u32, .ro, 0, .num 0, [(0, 4294967295)]⟩,
  ⟨"panel.over", 0x4430, 0x1, 4, 0x0, 1, 9, 1, .u32, .ro, 0, .num 0, [(0, 4294967295)]⟩,
  ⟨"panel.freq", 0x4430, 0x1, 4, 0x0, 1, 10, 1, .u8, .ro, 0, .num 0, [(0, 255)]⟩,
  ⟨"panel.drift.wakes", 0x4430, 0x1, 4, 0x0, 1, 11, 1, .u32, .ro, 0, .num 0, [(0, 4294967295)]⟩,
  ⟨"panel.mark.ovf", 0x4430, 0x1, 4, 0x0, 1, 12, 1, .u32, .ro, 0, .num 0, [(0, 4294967295)]⟩,
  ⟨"panel.ref", 0x4440, 0x1, 4, 0x0, 1, 1, 1, .blob, .rws, 0, .bytes [], [(0, 1048576)]⟩,
  ⟨"panel.ref.capture", 0x4440, 0x1, 4, 0x0, 1, 2, 1, .u8, .wo, 0, .num 0, [(1, 1)]⟩,
  ⟨"panel.test.run", 0x4440, 0x1, 4, 0x0, 1, 3, 1, .u8, .wo, 0, .num 0, [(1, 1)]⟩,
  ⟨"panel.test.result", 0x4440, 0x1, 4, 0x0, 1, 4, 1, .u32, .ro, 0, .num 0, [(0, 4294967295)]⟩,
  ⟨"panel.test.time", 0x4440, 0x1, 4, 0x0, 1, 5, 1, .u64, .ro, 1, .num 0, [(0, 18446744073709551615)]⟩,
  ⟨"panel.mask.lines", 0x4440, 0x1, 4, 0x0, 1, 6, 1, .blob, .ro, 0, .bytes [], [(0, 1048576)]⟩,
  ⟨"zone.enable", 0x4480, 0x8, 4, 0x1, 8, 1, 1, .bool, .rws, 0, .num 0, [(0, 1)]⟩,
  ⟨"zone.xy", 0x4480, 0x8, 4, 0x1, 8, 2, 1, .u32, .rws, 0, .num 0, [(0, 4294967295)]⟩,
  ⟨"zone.wh", 0x4480, 0x8, 4, 0x1, 8, 3, 1, .u32, .rws, 0, .num 0, [(0, 4294967295)]⟩,
  ⟨"zone.effect", 0x4480, 0x8, 4, 0x1, 8, 4, 1, .u8, .rws, 0, .num 0, [(0, 127)]⟩,
  ⟨"zone.chan", 0x4480, 0x8, 4, 0x1, 8, 5, 1, .u8, .rws, 0, .num 0, [(0, 15)]⟩,
  ⟨"zone.run", 0x4480, 0x8, 4, 0x1, 8, 6, 1, .bool, .rw, 0, .num 1, [(0, 1)]⟩]

/-- The objects of the haptics area, one row per table row of the spec. -/
def hapticsRows : List ObjRow := [
  ⟨"hap.enable", 0x4800, 0x0, 1, 0x0, 1, 1, 1, .bool, .rw, 0, .num 0, [(0, 1)]⟩,
  ⟨"hap.boot.enable", 0x4800, 0x0, 1, 0x0, 1, 2, 1, .bool, .rws, 0, .num 0, [(0, 1)]⟩,
  ⟨"hap.state", 0x4800, 0x0, 1, 0x0, 1, 3, 1, .u8, .ro, 0, .num 0, [(0, 255)]⟩,
  ⟨"hap.spare", 0x4800, 0x0, 1, 0x0, 1, 4, 1, .u8, .ro, 0, .num 255, [(0, 255)]⟩,
  ⟨"hap.rail", 0x4800, 0x0, 1, 0x0, 1, 5, 1, .u16, .ro, 18, .num 0, [(0, 65535)]⟩,
  ⟨"hap.gen", 0x4800, 0x0, 1, 0x0, 1, 6, 1, .u16, .ro, 0, .num 0, [(0, 65535)]⟩,
  ⟨"hap.limit", 0x4800, 0x0, 1, 0x0, 1, 7, 1, .u32, .ro, 0, .num 0, [(0, 4294967295)]⟩,
  ⟨"ch.enable", 0x4810, 0x1, 16, 0x0, 1, 1, 1, .bool, .rws, 0, .num 0, [(0, 1)]⟩,
  ⟨"ch.vmax", 0x4810, 0x1, 16, 0x0, 1, 2, 1, .u16, .rws, 18, .num 180, [(20, 180)]⟩,
  ⟨"ch.cap", 0x4810, 0x1, 16, 0x0, 1, 3, 1, .u32, .rws, 28, .num 1000, [(100, 10000)]⟩,
  ⟨"ch.gain", 0x4810, 0x1, 16, 0x0, 1, 4, 1, .u16, .rws, 31, .num 20, [(1, 1000)]⟩,
  ⟨"ch.sense", 0x4810, 0x1, 16, 0x0, 1, 5, 1, .u8, .rws, 0, .num 0, [(0, 1)]⟩,
  ⟨"ch.accel", 0x4810, 0x1, 16, 0x0, 1, 6, 1, .u8, .rws, 0, .num 255, [(0, 15), (255, 255)]⟩,
  ⟨"ch.state", 0x4810, 0x1, 16, 0x0, 1, 7, 1, .u8, .ro, 0, .num 0, [(0, 255)]⟩,
  ⟨"ch.driver", 0x4810, 0x1, 16, 0x0, 1, 8, 1, .u8, .ro, 0, .each id, [(0, 255)]⟩,
  ⟨"ch.sense.used", 0x4810, 0x1, 16, 0x0, 1, 9, 1, .u8, .ro, 0, .num 0, [(0, 255)]⟩,
  ⟨"ch.cap.meas", 0x4810, 0x1, 16, 0x0, 1, 10, 1, .u32, .ro, 28, .num 0, [(0, 4294967295)]⟩,
  ⟨"ch.trip", 0x4810, 0x1, 16, 0x0, 1, 11, 1, .u8, .ro, 0, .num 0, [(0, 255)]⟩,
  ⟨"ch.trip.count", 0x4810, 0x1, 16, 0x0, 1, 12, 1, .u32, .ro, 0, .num 0, [(0, 4294967295)]⟩,
  ⟨"ch.done", 0x4810, 0x1, 16, 0x0, 1, 13, 1, .u32, .ro, 0, .num 0, [(0, 4294967295)]⟩,
  ⟨"ch.dropped", 0x4810, 0x1, 16, 0x0, 1, 14, 1, .u32, .ro, 0, .num 0, [(0, 4294967295)]⟩,
  ⟨"ch.duty", 0x4810, 0x1, 16, 0x0, 1, 15, 1, .u16, .ro, 3, .num 0, [(0, 65535)]⟩,
  ⟨"ch.sat", 0x4810, 0x1, 16, 0x0, 1, 16, 1, .u32, .ro, 0, .num 0, [(0, 4294967295)]⟩,
  ⟨"ch.reset", 0x4810, 0x1, 16, 0x0, 1, 17, 1, .u8, .wo, 0, .num 0, [(1, 1)]⟩,
  ⟨"ch.gen", 0x4810, 0x1, 16, 0x0, 1, 18, 1, .u16, .ro, 0, .num 0, [(0, 65535)]⟩,
  ⟨"ch.sense.fail", 0x4810, 0x1, 16, 0x0, 1, 19, 1, .u32, .ro, 0, .num 0, [(0, 4294967295)]⟩,
  ⟨"shale.name", 0x4900, 0x1, 128, 0x0, 1, 1, 1, .str, .ro, 0, .eachBytes shaleName, [(0, 240)]⟩,
  ⟨"shale.attack", 0x4900, 0x1, 128, 0x0, 1, 2, 1, .u16, .ro, 3, .each shaleAttack, [(0, 65535)]⟩,
  ⟨"shale.sustain", 0x4900, 0x1, 128, 0x0, 1, 3, 1, .u16, .ro, 3, .each shaleSustain, [(0, 65535)]⟩,
  ⟨"shale.brake", 0x4900, 0x1, 128, 0x0, 1, 4, 1, .u16, .ro, 3, .each shaleBrake, [(0, 65535)]⟩,
  ⟨"shale.peak", 0x4900, 0x1, 128, 0x0, 1, 5, 1, .u16, .ro, 30, .each shalePeak, [(0, 65535)]⟩,
  ⟨"hap.ilk", 0x4800, 0x0, 1, 0x0, 1, 8, 1, .bool, .ro, 0, .num 1, [(0, 1)]⟩,
  ⟨"acc.cmd", 0x4800, 0x0, 1, 0x0, 1, 9, 1, .u8, .rws, 0, .num 232, [(0, 255)]⟩,
  ⟨"acc.lsb", 0x4800, 0x0, 1, 0x0, 1, 10, 1, .u16, .rws, 32, .num 488, [(0, 65535)]⟩]

/-- The objects of the sound area, one row per table row of the spec. -/
def soundRows : List ObjRow := [
  ⟨"snd.enable", 0x4C00, 0x0, 1, 0x0, 1, 1, 1, .bool, .rw, 0, .num 0, [(0, 1)]⟩,
  ⟨"snd.boot.enable", 0x4C00, 0x0, 1, 0x0, 1, 2, 1, .bool, .rws, 0, .num 0, [(0, 1)]⟩,
  ⟨"snd.state", 0x4C00, 0x0, 1, 0x0, 1, 3, 1, .u8, .ro, 0, .num 0, [(0, 255)]⟩,
  ⟨"snd.rate", 0x4C00, 0x0, 1, 0x0, 1, 4, 1, .u32, .rws, 7, .num 48000, [(48000, 48000), (96000, 96000)]⟩,
  ⟨"snd.locked", 0x4C00, 0x0, 1, 0x0, 1, 5, 1, .bool, .ro, 0, .num 0, [(0, 1)]⟩,
  ⟨"snd.pto", 0x4C00, 0x0, 1, 0x0, 1, 6, 1, .u32, .rws, 2, .num 2000, [(500, 20000)]⟩,
  ⟨"mix.gain", 0x4D00, 0x1, 32, 0x0, 1, 1, 64, .i16, .rw, 33, .num 32768, [((-32768), (-32768)), ((-1200), 120)]⟩,
  ⟨"so.tdm", 0x4D40, 0x1, 32, 0x0, 1, 1, 1, .u8, .rw, 0, .num 0, [(0, 31), (128, 159)]⟩,
  ⟨"so.avtp", 0x4D40, 0x1, 32, 0x0, 1, 2, 1, .u8, .rw, 0, .num 0, [(0, 63), (128, 191)]⟩,
  ⟨"so.gain", 0x4D40, 0x1, 32, 0x0, 1, 3, 1, .i16, .rw, 33, .num 0, [((-32768), (-32768)), ((-1200), 120)]⟩,
  ⟨"so.clip", 0x4D40, 0x1, 32, 0x0, 1, 4, 1, .u32, .ro, 0, .num 0, [(0, 4294967295)]⟩,
  ⟨"in.owner", 0x4C10, 0x1, 64, 0x0, 1, 1, 1, .u8, .rw, 0, .num 255, [(0, 64), (255, 255)]⟩,
  ⟨"in.kind", 0x4C10, 0x1, 64, 0x0, 1, 2, 1, .u8, .rw, 0, .num 0, [(0, 2)]⟩,
  ⟨"in.chans", 0x4C10, 0x1, 64, 0x0, 1, 3, 1, .u8, .rw, 0, .num 1, [(1, 8)]⟩,
  ⟨"in.base", 0x4C10, 0x1, 64, 0x0, 1, 4, 1, .u64, .rw, 0, .num 0, [(0, 18446744073709551615)]⟩,
  ⟨"in.frames", 0x4C10, 0x1, 64, 0x0, 1, 5, 1, .u32, .rw, 0, .num 0, [(0, 65536)]⟩,
  ⟨"in.ctrl", 0x4C10, 0x1, 64, 0x0, 1, 6, 1, .u64, .rw, 0, .num 0, [(0, 18446744073709551615)]⟩,
  ⟨"in.fmt", 0x4C10, 0x1, 64, 0x0, 1, 7, 1, .u8, .rw, 0, .num 0, [(0, 1)]⟩,
  ⟨"in.src", 0x4C10, 0x1, 64, 0x0, 1, 8, 1, .u8, .rw, 0, .num 0, [(0, 63)]⟩,
  ⟨"in.en", 0x4C10, 0x1, 64, 0x0, 1, 9, 1, .bool, .rw, 0, .num 0, [(0, 1)]⟩,
  ⟨"in.gain", 0x4C10, 0x1, 64, 0x0, 1, 10, 1, .i16, .rw, 33, .num 0, [((-32768), (-32768)), ((-1200), 120)]⟩,
  ⟨"in.state", 0x4C10, 0x1, 64, 0x0, 1, 11, 1, .u8, .ro, 0, .num 0, [(0, 255)]⟩,
  ⟨"in.xrun", 0x4C10, 0x1, 64, 0x0, 1, 12, 1, .u32, .ro, 0, .num 0, [(0, 4294967295)]⟩,
  ⟨"cap.owner", 0x4C60, 0x1, 16, 0x0, 1, 1, 1, .u8, .rw, 0, .num 255, [(0, 64), (255, 255)]⟩,
  ⟨"cap.kind", 0x4C60, 0x1, 16, 0x0, 1, 2, 1, .u8, .rw, 0, .num 0, [(0, 1)]⟩,
  ⟨"cap.chans", 0x4C60, 0x1, 16, 0x0, 1, 3, 1, .u8, .rw, 0, .num 1, [(1, 8)]⟩,
  ⟨"cap.base", 0x4C60, 0x1, 16, 0x0, 1, 4, 1, .u64, .rw, 0, .num 0, [(0, 18446744073709551615)]⟩,
  ⟨"cap.frames", 0x4C60, 0x1, 16, 0x0, 1, 5, 1, .u32, .rw, 0, .num 0, [(0, 65536)]⟩,
  ⟨"cap.ctrl", 0x4C60, 0x1, 16, 0x0, 1, 6, 1, .u64, .rw, 0, .num 0, [(0, 18446744073709551615)]⟩,
  ⟨"cap.fmt", 0x4C60, 0x1, 16, 0x0, 1, 7, 1, .u8, .rw, 0, .num 0, [(0, 1)]⟩,
  ⟨"cap.src", 0x4C60, 0x1, 16, 0x0, 1, 8, 1, .u8, .rw, 0, .num 0, [(0, 63)]⟩,
  ⟨"cap.en", 0x4C60, 0x1, 16, 0x0, 1, 9, 1, .bool, .rw, 0, .num 0, [(0, 1)]⟩,
  ⟨"cap.gain", 0x4C60, 0x1, 16, 0x0, 1, 10, 1, .i16, .rw, 33, .num 0, [((-32768), (-32768)), ((-1200), 120)]⟩,
  ⟨"cap.state", 0x4C60, 0x1, 16, 0x0, 1, 11, 1, .u8, .ro, 0, .num 0, [(0, 255)]⟩,
  ⟨"cap.xrun", 0x4C60, 0x1, 16, 0x0, 1, 12, 1, .u32, .ro, 0, .num 0, [(0, 4294967295)]⟩,
  ⟨"tdm.enable", 0x4D80, 0x1, 4, 0x0, 1, 1, 1, .bool, .rws, 0, .num 0, [(0, 1)]⟩,
  ⟨"chime.outputs", 0x4E00, 0x0, 1, 0x0, 1, 1, 1, .u32, .rwt, 0, .num 0, [(0, 4294967295)]⟩,
  ⟨"chime.duck", 0x4E00, 0x0, 1, 0x0, 1, 2, 1, .i16, .rwt, 33, .num 32768, [((-32768), (-32768)), ((-1200), 120)]⟩,
  ⟨"chime.level", 0x4E00, 0x0, 1, 0x0, 1, 3, 1, .i16, .rwt, 33, .num 0, [((-32768), (-32768)), ((-1200), 120)]⟩,
  ⟨"chime.clip", 0x4E01, 0x0, 1, 0x0, 1, 1, 16, .blob, .rwt, 0, .bytes [], [(0, 1048576)]⟩,
  ⟨"chime.state", 0x4E10, 0x0, 1, 0x0, 1, 0, 1, .u8, .ro, 0, .num 0, [(0, 255)]⟩]

/-- The objects of the fabric area, one row per table row of the spec. -/
def fabricRows : List ObjRow := [
  ⟨"link.enable", 0x9010, 0x1, 4, 0x0, 1, 1, 1, .bool, .rws, 0, .num 1, [(0, 1)]⟩,
  ⟨"link.state", 0x9010, 0x1, 4, 0x0, 1, 2, 1, .u8, .ro, 0, .num 0, [(0, 255)]⟩,
  ⟨"link.lanes", 0x9010, 0x1, 4, 0x0, 1, 3, 1, .u8, .ro, 0, .num 0, [(0, 255)]⟩,
  ⟨"link.spare", 0x9010, 0x1, 4, 0x0, 1, 4, 1, .u8, .ro, 0, .num 255, [(0, 255)]⟩,
  ⟨"link.partner", 0x9010, 0x1, 4, 0x0, 1, 5, 1, .u64, .ro, 0, .num 0, [(0, 18446744073709551615)]⟩,
  ⟨"link.partner.addr", 0x9010, 0x1, 4, 0x0, 1, 6, 1, .u8, .ro, 0, .num 255, [(0, 255)]⟩,
  ⟨"link.partner.link", 0x9010, 0x1, 4, 0x0, 1, 7, 1, .u8, .ro, 0, .num 255, [(0, 255)]⟩,
  ⟨"link.replay", 0x9010, 0x1, 4, 0x0, 1, 8, 1, .u32, .ro, 0, .num 0, [(0, 4294967295)]⟩,
  ⟨"link.retrain", 0x9010, 0x1, 4, 0x0, 1, 9, 1, .u32, .ro, 0, .num 0, [(0, 4294967295)]⟩,
  ⟨"link.downs", 0x9010, 0x1, 4, 0x0, 1, 10, 1, .u32, .ro, 0, .num 0, [(0, 4294967295)]⟩,
  ⟨"link.gen", 0x9010, 0x1, 4, 0x0, 1, 11, 1, .u16, .ro, 0, .num 0, [(0, 65535)]⟩,
  ⟨"link.pix.res", 0x9010, 0x1, 4, 0x0, 1, 12, 1, .u32, .ro, 11, .num 0, [(0, 4294967295)]⟩,
  ⟨"fab.state", 0x9000, 0x0, 1, 0x0, 1, 1, 1, .u8, .ro, 0, .num 0, [(0, 255)]⟩,
  ⟨"fab.addr", 0x9000, 0x0, 1, 0x0, 1, 2, 1, .u8, .ro, 0, .num 255, [(0, 255)]⟩,
  ⟨"fab.addr.want", 0x9000, 0x0, 1, 0x0, 1, 3, 1, .u8, .rws, 0, .num 255, [(0, 63), (255, 255)]⟩,
  ⟨"fab.addr.prev", 0x9000, 0x0, 1, 0x0, 1, 4, 1, .u8, .ro, 0, .num 255, [(0, 255)]⟩,
  ⟨"fab.root", 0x9000, 0x0, 1, 0x0, 1, 5, 1, .u8, .ro, 0, .num 255, [(0, 255)]⟩,
  ⟨"fab.root.serial", 0x9000, 0x0, 1, 0x0, 1, 6, 1, .u64, .ro, 0, .num 0, [(0, 18446744073709551615)]⟩,
  ⟨"fab.nodes", 0x9000, 0x0, 1, 0x0, 1, 7, 1, .u8, .ro, 0, .num 0, [(0, 255)]⟩,
  ⟨"fab.topo.gen", 0x9000, 0x0, 1, 0x0, 1, 8, 1, .u32, .ro, 0, .num 0, [(0, 4294967295)]⟩,
  ⟨"fab.time", 0x9000, 0x0, 1, 0x0, 1, 9, 1, .u64, .ro, 1, .num 0, [(0, 18446744073709551615)]⟩,
  ⟨"fab.time.err", 0x9000, 0x0, 1, 0x0, 1, 10, 1, .u32, .ro, 1, .num 0, [(0, 4294967295)]⟩,
  ⟨"fab.pix.max", 0x9000, 0x0, 1, 0x0, 1, 11, 1, .u8, .rws, 21, .num 75, [(50, 90)]⟩,
  ⟨"fab.spread.margin", 0x9000, 0x0, 1, 0x0, 1, 12, 1, .u16, .rws, 2, .num 20, [(10, 200)]⟩,
  ⟨"fab.spread.hold", 0x9000, 0x0, 1, 0x0, 1, 13, 1, .u16, .rws, 3, .num 500, [(100, 10000)]⟩,
  ⟨"fab.dict.mgr", 0x9000, 0x0, 1, 0x0, 1, 14, 1, .bool, .rws, 0, .num 1, [(0, 1)]⟩,
  ⟨"fab.drop", 0x9000, 0x0, 1, 0x0, 1, 15, 1, .u32, .ro, 0, .num 0, [(0, 4294967295)]⟩,
  ⟨"fab.port.lend", 0x9001, 0x0, 1, 0x0, 1, 1, 8, .bool, .rws, 0, .num 0, [(0, 1)]⟩,
  ⟨"fab.node.serial", 0x9030, 0x0, 1, 0x0, 1, 1, 64, .u64, .ro, 0, .num 0, [(0, 18446744073709551615)]⟩,
  ⟨"fab.route", 0x9020, 0x0, 1, 0x0, 1, 1, 64, .u8, .ro, 0, .num 255, [(0, 255)]⟩,
  ⟨"fab.route.gen", 0x9020, 0x0, 1, 0x0, 1, 65, 1, .u32, .ro, 0, .num 0, [(0, 4294967295)]⟩,
  ⟨"spread.enable", 0x9200, 0x1, 8, 0x0, 1, 1, 1, .bool, .rw, 0, .num 0, [(0, 1)]⟩,
  ⟨"spread.mode", 0x9200, 0x1, 8, 0x0, 1, 2, 1, .u8, .rw, 0, .num 255, [(0, 111), (255, 255)]⟩,
  ⟨"spread.w", 0x9200, 0x1, 8, 0x0, 1, 3, 1, .u16, .rw, 24, .num 0, [(1, 65535)]⟩,
  ⟨"spread.h", 0x9200, 0x1, 8, 0x0, 1, 4, 1, .u16, .rw, 23, .num 0, [(1, 65535)]⟩,
  ⟨"spread.bg", 0x9200, 0x1, 8, 0x0, 1, 5, 1, .u32, .rw, 0, .num 0, [(0, 1073741823)]⟩,
  ⟨"spread.lead", 0x9200, 0x1, 8, 0x0, 1, 6, 1, .u16, .rw, 23, .num 384, [(32, 2048)]⟩,
  ⟨"spread.commit", 0x9200, 0x1, 8, 0x0, 1, 7, 1, .u8, .wo, 0, .num 0, [(1, 1)]⟩,
  ⟨"spread.commit.pend", 0x9200, 0x1, 8, 0x0, 1, 8, 1, .u8, .ro, 0, .num 0, [(0, 255)]⟩,
  ⟨"spread.state", 0x9200, 0x1, 8, 0x0, 1, 9, 1, .u8, .ro, 0, .num 0, [(0, 255)]⟩,
  ⟨"spread.frame", 0x9200, 0x1, 8, 0x0, 1, 10, 1, .u32, .ro, 0, .num 0, [(0, 4294967295)]⟩,
  ⟨"spread.late", 0x9200, 0x1, 8, 0x0, 1, 11, 1, .u32, .ro, 0, .num 0, [(0, 4294967295)]⟩,
  ⟨"spread.vfreg", 0x9200, 0x1, 8, 0x0, 1, 12, 1, .blob, .rw, 0, .bytes [], [(0, 96)]⟩,
  ⟨"sm.serial", 0x9300, 0x10, 8, 0x1, 16, 1, 1, .u64, .rw, 0, .num 0, [(0, 18446744073709551615)]⟩,
  ⟨"sm.port", 0x9300, 0x10, 8, 0x1, 16, 2, 1, .u8, .rw, 0, .num 0, [(0, 7)]⟩,
  ⟨"sm.xy", 0x9300, 0x10, 8, 0x1, 16, 3, 1, .u32, .rw, 0, .num 0, [(0, 4294967295)]⟩,
  ⟨"sm.hint", 0x9300, 0x10, 8, 0x1, 16, 4, 1, .u8, .rw, 0, .num 0, [(0, 2)]⟩,
  ⟨"sm.place", 0x9300, 0x10, 8, 0x1, 16, 5, 1, .u8, .ro, 0, .num 0, [(0, 255)]⟩,
  ⟨"sm.hint.kept", 0x9300, 0x10, 8, 0x1, 16, 6, 1, .bool, .ro, 0, .num 1, [(0, 1)]⟩,
  ⟨"sm.state", 0x9300, 0x10, 8, 0x1, 16, 7, 1, .u8, .ro, 0, .num 0, [(0, 255)]⟩,
  ⟨"sm.skew", 0x9300, 0x10, 8, 0x1, 16, 8, 1, .i32, .ro, 1, .num 0, [((-2147483648), 2147483647)]⟩,
  ⟨"sm.late", 0x9300, 0x10, 8, 0x1, 16, 9, 1, .u32, .ro, 0, .num 0, [(0, 4294967295)]⟩,
  ⟨"fab.relay", 0x9100, 0x0, 1, 0x0, 1, 0, 1, .blob, .rw, 0, .bytes [], [(4, 1028)]⟩,
  ⟨"spread.layer.owner", 0x9400, 0x10, 8, 0x1, 6, 1, 1, .u8, .rw, 0, .num 255, [(0, 64), (255, 255)]⟩,
  ⟨"spread.layer.enable", 0x9400, 0x10, 8, 0x1, 6, 2, 1, .bool, .rw, 0, .num 0, [(0, 1)]⟩,
  ⟨"spread.layer.surface", 0x9400, 0x10, 8, 0x1, 6, 3, 1, .u32, .rw, 0, .num 0, [(0, 4294967295)]⟩,
  ⟨"spread.layer.src.xy", 0x9400, 0x10, 8, 0x1, 6, 4, 1, .u32, .rw, 0, .num 0, [(0, 4294967295)]⟩,
  ⟨"spread.layer.src.wh", 0x9400, 0x10, 8, 0x1, 6, 5, 1, .u32, .rw, 0, .num 0, [(0, 4294967295)]⟩,
  ⟨"spread.layer.dst.xy", 0x9400, 0x10, 8, 0x1, 6, 6, 1, .u32, .rw, 0, .num 0, [(0, 4294967295)]⟩,
  ⟨"spread.layer.dst.wh", 0x9400, 0x10, 8, 0x1, 6, 7, 1, .u32, .rw, 0, .num 0, [(0, 4294967295)]⟩,
  ⟨"spread.layer.blend", 0x9400, 0x10, 8, 0x1, 6, 8, 1, .u8, .rw, 0, .num 0, [(0, 2)]⟩,
  ⟨"spread.layer.alpha", 0x9400, 0x10, 8, 0x1, 6, 9, 1, .u8, .rw, 0, .num 255, [(0, 255)]⟩,
  ⟨"spread.layer.matrix", 0x9400, 0x10, 8, 0x1, 6, 10, 1, .u8, .rw, 0, .num 0, [(0, 3)]⟩,
  ⟨"spread.layer.rot", 0x9400, 0x10, 8, 0x1, 6, 11, 1, .u8, .rw, 0, .num 0, [(0, 3)]⟩]

/-- The objects of the power area, one row per table row of the spec. -/
def powerRows : List ObjRow := [
  ⟨"dom.state", 0x8010, 0x1, 24, 0x0, 1, 1, 1, .u8, .ro, 0, .each (fun i => if i = 0 then 3 else 0), [(0, 255)]⟩,
  ⟨"dom.hold", 0x8010, 0x1, 24, 0x0, 1, 2, 1, .bool, .rw, 0, .num 0, [(0, 1)]⟩,
  ⟨"dom.tw", 0x8010, 0x1, 24, 0x0, 1, 3, 1, .bool, .rwt, 0, .num 0, [(0, 1)]⟩,
  ⟨"dom.users", 0x8010, 0x1, 24, 0x0, 1, 4, 1, .u16, .ro, 0, .num 0, [(0, 65535)]⟩,
  ⟨"dom.gen", 0x8010, 0x1, 24, 0x0, 1, 5, 1, .u16, .ro, 0, .num 0, [(0, 65535)]⟩,
  ⟨"dom.ups", 0x8010, 0x1, 24, 0x0, 1, 6, 1, .u32, .ro, 0, .num 0, [(0, 4294967295)]⟩,
  ⟨"pwr.mode", 0x8000, 0x0, 1, 0x0, 1, 1, 1, .u8, .ro, 0, .num 0, [(0, 255)]⟩,
  ⟨"pwr.req", 0x8000, 0x0, 1, 0x0, 1, 2, 1, .u8, .rw, 0, .num 1, [(1, 1), (3, 3)]⟩,
  ⟨"pwr.reset", 0x8000, 0x0, 1, 0x0, 1, 3, 1, .u8, .wo, 0, .num 0, [(161, 161)]⟩,
  ⟨"pwr.cause", 0x8000, 0x0, 1, 0x0, 1, 4, 1, .u8, .ro, 0, .num 1, [(0, 255)]⟩,
  ⟨"pwr.tt.first", 0x8000, 0x0, 1, 0x0, 1, 5, 1, .u32, .ro, 2, .num 0, [(0, 4294967295)]⟩,
  ⟨"pwr.host.avail", 0x8000, 0x0, 1, 0x0, 1, 6, 1, .u32, .ro, 2, .num 0, [(0, 4294967295)]⟩,
  ⟨"pwr.in", 0x8000, 0x0, 1, 0x0, 1, 7, 1, .u16, .ro, 17, .num Config.firstInputMv.toNat, [(0, 65535)]⟩,
  ⟨"pwr.draw", 0x8000, 0x0, 1, 0x0, 1, 8, 1, .u16, .ro, 19, .num 0, [(0, 65535)]⟩,
  ⟨"pwr.wake.can", 0x8000, 0x0, 1, 0x0, 1, 9, 1, .bool, .rws, 0, .num 1, [(0, 1)]⟩,
  ⟨"pwr.wake.pins", 0x8000, 0x0, 1, 0x0, 1, 10, 1, .blob, .rws, 0, .bytes [], [(0, 8)]⟩,
  ⟨"pwr.reset.roles", 0x8000, 0x0, 1, 0x0, 1, 11, 1, .u8, .rwt, 0, .num 9, [(0, 15)]⟩,
  ⟨"pwr.emerg", 0x8000, 0x0, 1, 0x0, 1, 12, 1, .u8, .ro, 0, .num 0, [(0, 255)]⟩,
  ⟨"therm.temp", 0x8200, 0x0, 1, 0x0, 1, 1, 10, .i32, .ro, 20, .num 0x80000000, [((-2147483648), 2147483647)]⟩,
  ⟨"therm.throttle", 0x8201, 0x0, 1, 0x0, 1, 1, 1, .i32, .rws, 20, .num 105, [(85, 115)]⟩,
  ⟨"therm.crit", 0x8201, 0x0, 1, 0x0, 1, 2, 1, .i32, .ro, 20, .num 120, [((-2147483648), 2147483647)]⟩,
  ⟨"therm.shut", 0x8201, 0x0, 1, 0x0, 1, 3, 1, .i32, .ro, 20, .num 130, [((-2147483648), 2147483647)]⟩,
  ⟨"therm.level", 0x8201, 0x0, 1, 0x0, 1, 4, 1, .u8, .ro, 0, .num 0, [(0, 255)]⟩,
  ⟨"therm.throttles", 0x8201, 0x0, 1, 0x0, 1, 5, 1, .u32, .ro, 0, .num 0, [(0, 4294967295)]⟩,
  ⟨"clk.islands", 0x8100, 0x0, 1, 0x0, 1, 1, 1, .u8, .ro, 0, .num 40, [(0, 255)]⟩,
  ⟨"clk.stall", 0x8100, 0x0, 1, 0x0, 1, 2, 1, .u64, .ro, 1, .num 0, [(0, 18446744073709551615)]⟩,
  ⟨"clk.ovf", 0x8100, 0x0, 1, 0x0, 1, 3, 1, .u32, .ro, 0, .num 0, [(0, 4294967295)]⟩,
  ⟨"clk.ovf.last", 0x8100, 0x0, 1, 0x0, 1, 4, 1, .u32, .ro, 0, .num 0, [(0, 4294967295)]⟩,
  ⟨"isl.name", 0x8110, 0x1, 40, 0x0, 1, 1, 1, .str, .ro, 0, .eachBytes Config.islandName, [(0, 240)]⟩,
  ⟨"isl.nominal", 0x8110, 0x1, 40, 0x0, 1, 2, 1, .u32, .ro, 8, .each islandNominal, [(0, 4294967295)]⟩,
  ⟨"isl.clock", 0x8110, 0x1, 40, 0x0, 1, 3, 1, .u32, .ro, 8, .num 0, [(0, 4294967295)]⟩,
  ⟨"isl.domain", 0x8110, 0x1, 40, 0x0, 1, 4, 1, .u8, .ro, 0, .each islandDomain, [(0, 255)]⟩,
  ⟨"isl.gate", 0x8110, 0x1, 40, 0x0, 1, 5, 1, .bool, .rw, 0, .each (fun i => b2n (islandGateable i)), [(0, 1)]⟩,
  ⟨"isl.rate", 0x8110, 0x1, 40, 0x0, 1, 6, 1, .u16, .rw, 9, .num 1600, [(800, 800), (1200, 1200), (1600, 1600)]⟩,
  ⟨"sp.func", 0x8400, 0x1, 96, 0x0, 1, 1, 1, .u8, .rws, 0, .num 0, [(0, 5)]⟩,
  ⟨"sp.pull", 0x8400, 0x1, 96, 0x0, 1, 2, 1, .u8, .rws, 0, .num 2, [(0, 2)]⟩,
  ⟨"sp.out", 0x8400, 0x1, 96, 0x0, 1, 3, 1, .bool, .rw, 0, .num 0, [(0, 1)]⟩,
  ⟨"sp.boot.out", 0x8400, 0x1, 96, 0x0, 1, 4, 1, .bool, .rws, 0, .num 0, [(0, 1)]⟩,
  ⟨"sp.in", 0x8400, 0x1, 96, 0x0, 1, 5, 1, .bool, .ro, 0, .num 0, [(0, 1)]⟩,
  ⟨"sp.pwm.freq", 0x8400, 0x1, 96, 0x0, 1, 6, 1, .u32, .rws, 7, .num 20000, [(100, 100000)]⟩,
  ⟨"sp.pwm.duty", 0x8400, 0x1, 96, 0x0, 1, 7, 1, .u16, .rw, 22, .num 0, [(0, 1000)]⟩,
  ⟨"sp.pwm.boot", 0x8400, 0x1, 96, 0x0, 1, 8, 1, .u16, .rws, 22, .num 0, [(0, 1000)]⟩,
  ⟨"sp.edge", 0x8400, 0x1, 96, 0x0, 1, 9, 1, .u8, .rws, 0, .num 1, [(1, 3)]⟩,
  ⟨"sp.count", 0x8400, 0x1, 96, 0x0, 1, 10, 1, .u32, .ro, 0, .num 0, [(0, 4294967295)]⟩,
  ⟨"sp.stamp", 0x8400, 0x1, 96, 0x0, 1, 11, 1, .u64, .ro, 1, .num 0, [(0, 18446744073709551615)]⟩,
  ⟨"sp.safe", 0x8400, 0x1, 96, 0x0, 1, 12, 1, .u8, .rws, 0, .num 2, [(0, 2)]⟩,
  ⟨"sp.filter", 0x8400, 0x1, 96, 0x0, 1, 13, 1, .u16, .rws, 2, .num 0, [(0, 10000)]⟩]

/-- The objects of the health area, one row per table row of the spec. -/
def healthRows : List ObjRow := [
  ⟨"health.module", 0xA000, 0x0, 1, 0x0, 1, 1, 1, .u8, .ro, 0, .num 0, [(0, 255)]⟩,
  ⟨"health.diag", 0xA000, 0x0, 1, 0x0, 1, 2, 1, .bool, .ro, 0, .num 0, [(0, 1)]⟩,
  ⟨"health.starts", 0xA000, 0x0, 1, 0x0, 1, 3, 1, .u32, .ro, 0, .num 0, [(0, 4294967295)]⟩,
  ⟨"health.sub", 0xA001, 0x0, 1, 0x0, 1, 1, 8, .u8, .ro, 0, .num 0, [(0, 255)]⟩,
  ⟨"health.spares", 0xA002, 0x0, 1, 0x0, 1, 1, 7, .u16, .ro, 0, .each (fun i => [4, 2, 1, 4, 16, 1, 1024].getD i 0), [(0, 65535)]⟩,
  ⟨"health.low", 0xA003, 0x0, 1, 0x0, 1, 1, 7, .u16, .rws, 0, .each (fun i => [1, 1, 0, 1, 2, 0, 16].getD i 0), [(0, 65535)]⟩,
  ⟨"grog.log", 0xA100, 0x0, 1, 0x0, 1, 1, 1, .blob, .ro, 0, .bytes [], [(0, 1048576)]⟩,
  ⟨"grog.log.seq", 0xA100, 0x0, 1, 0x0, 1, 2, 1, .u32, .ro, 0, .num 0, [(0, 4294967295)]⟩,
  ⟨"grog.log.skip", 0xA100, 0x0, 1, 0x0, 1, 3, 1, .u32, .ro, 0, .num 0, [(0, 4294967295)]⟩,
  ⟨"grog.map", 0xA100, 0x0, 1, 0x0, 1, 4, 1, .blob, .ro, 0, .bytes [], [(0, 1048576)]⟩,
  ⟨"grog.retest", 0xA100, 0x0, 1, 0x0, 1, 5, 1, .u16, .wo, 0, .num 0, [(0, 65535)]⟩,
  ⟨"grog.subst", 0xA100, 0x0, 1, 0x0, 1, 6, 1, .u32, .ro, 0, .num 0, [(0, 4294967295)]⟩,
  ⟨"mram.spare", 0xA110, 0x0, 1, 0x0, 1, 1, 16, .u8, .ro, 0, .num 64, [(0, 255)]⟩,
  ⟨"mram.spared", 0xA110, 0x0, 1, 0x0, 1, 17, 1, .u32, .ro, 0, .num 0, [(0, 4294967295)]⟩,
  ⟨"mram.wear.max", 0xA110, 0x0, 1, 0x0, 1, 18, 1, .u64, .ro, 0, .num 0, [(0, 18446744073709551615)]⟩,
  ⟨"dict.store.bad", 0xA010, 0x0, 1, 0x0, 1, 1, 1, .u32, .ro, 0, .num 0, [(0, 4294967295)]⟩,
  ⟨"dict.rx.bad", 0xA010, 0x0, 1, 0x0, 1, 2, 1, .u32, .ro, 0, .num 0, [(0, 4294967295)]⟩,
  ⟨"dict.notify.drop", 0xA010, 0x0, 1, 0x0, 1, 3, 1, .u32, .ro, 0, .num 0, [(0, 4294967295)]⟩,
  ⟨"reg.vote.fix", 0xA011, 0x0, 1, 0x0, 1, 1, 1, .u32, .ro, 0, .num 0, [(0, 4294967295)]⟩,
  ⟨"reg.vote.bad", 0xA011, 0x0, 1, 0x0, 1, 2, 1, .u32, .ro, 0, .num 0, [(0, 4294967295)]⟩,
  ⟨"reg.write.lost", 0xA011, 0x0, 1, 0x0, 1, 3, 1, .u32, .ro, 0, .num 0, [(0, 4294967295)]⟩,
  ⟨"kaolin.can.drop", 0xA012, 0x0, 1, 0x0, 1, 1, 1, .u32, .ro, 0, .num 0, [(0, 4294967295)]⟩]

/-- The rows of the area that holds an index (Table SC-7). -/
def areaRows (idx : Nat) : List ObjRow :=
  if idx < 0x2000 then identityRows
  else if idx < 0x2800 then outputsRows
  else if idx < 0x3000 then modesRows
  else if idx < 0x4000 then graphicsRows
  else if idx < 0x4400 then memoryRows
  else if idx < 0x4800 then touchRows
  else if idx < 0x4C00 then hapticsRows
  else if idx < 0x5000 then soundRows
  else if idx < 0x6000 then heritageRows
  else if idx < 0x7000 then vfsRows
  else if idx < 0x8000 then worldsRows
  else if idx < 0x9000 then powerRows
  else if idx < 0xA000 then fabricRows
  else if idx < 0xB000 then healthRows
  else if idx < 0xF000 then []
  else diagnosticsRows

/-- The record number of an index within a row, if the row's indices include it. -/
def ObjRow.instanceOf (r : ObjRow) (idx : Nat) : Option Nat :=
  if idx < r.base then none
  else
    let d := idx - r.base
    let i := if r.s1 = 0 then 0 else d / r.s1
    let e := if r.s1 = 0 then d else d % r.s1
    let j := if r.s2 = 0 then 0 else e / r.s2
    let rest := if r.s2 = 0 then e else e % r.s2
    if rest = 0 ∧ i < r.c1 ∧ j < r.c2 then some i else none

/-- The row of an object, with the number its default depends on: the record's, or the subindex's within a row of several.
isl.rate exists for islands 16 to 19 only (R461). -/
def findRow (idx sub : Nat) : Option (ObjRow × Nat) :=
  if sub = 6 ∧ 0x8110 ≤ idx ∧ idx < 0x8110 + 40 ∧ ¬ (0x8120 ≤ idx ∧ idx ≤ 0x8123) then none
  else (areaRows idx).findSome? (fun r =>
    if r.sub0 ≤ sub ∧ sub < r.sub0 + r.subN then
      match r.instanceOf idx with
      | some i => some (r, if 1 < r.subN then sub - r.sub0 else i)
      | none => none
    else none)

/-- The entry count of a record, its highest subindex; 0 where the index holds no record. -/
def recordCount (idx : Nat) : Nat :=
  (areaRows idx).foldl (fun m r => match r.instanceOf idx with
    | some _ => max m (r.sub0 + r.subN - 1)
    | none => m) 0

/-- Subindex 00 of a record: its entry count, a read-only U8 without a name in the spec's tables. -/
def countRow (n : Nat) : ObjRow := ⟨"", 0, 0, 1, 0, 1, 0, 1, .u8, .ro, 0, .num n, [(0, 255)]⟩

/-- The object at an index and subindex, if there is one (R24). -/
def lookupObj (idx sub : Nat) : Option (ObjRow × Nat) :=
  match findRow idx sub with
  | some r => some r
  | none => if sub = 0 ∧ 0 < recordCount idx then some (countRow (recordCount idx), 0) else none

/-- The default of a row for the number `i`. -/
def Dflt.value (d : Dflt) (i : Nat) : Val :=
  match d with
  | .num n => .num n
  | .bytes b => .bytes b
  | .each f => .num (f i)
  | .eachBytes f => .bytes (f i)

/-- The default of the object at a key; a key that holds no object reads 0. -/
def defaultVal (k : Nat) : Val :=
  match lookupObj (k / 256) (k % 256) with
  | some (r, i) => r.dflt.value i
  | none => .num 0

end Sys2Proof.Machine

namespace Sys2Proof.Machine.K

/-- 1000:00 id.vendor (01_rinula_object_dictionary.md, R24). -/
def idVendor : Nat := objKey (0x1000) 0
/-- 1001:00 id.order (01_rinula_object_dictionary.md, R24). -/
def idOrder : Nat := objKey (0x1001) 0
/-- 1002:00 id.serial (01_rinula_object_dictionary.md, R24). -/
def idSerial : Nat := objKey (0x1002) 0
/-- 1003:00 id.stepping (01_rinula_object_dictionary.md, R24). -/
def idStepping : Nat := objKey (0x1003) 0
/-- 1004:00 id.fw (01_rinula_object_dictionary.md, R24). -/
def idFw : Nat := objKey (0x1004) 0
/-- 1005:00 id.dict (01_rinula_object_dictionary.md, R24). -/
def idDict : Nat := objKey (0x1005) 0
/-- 1100:00 time.now (01_rinula_object_dictionary.md, R24). -/
def timeNow : Nat := objKey (0x1100) 0
/-- 1101:00 time.locked (01_rinula_object_dictionary.md, R24). -/
def timeLocked : Nat := objKey (0x1101) 0
/-- 1200:01 net.addr4 (01_rinula_object_dictionary.md, R24). -/
def netAddr4 : Nat := objKey (0x1200) 1
/-- 1200:02 net.udp.port (01_rinula_object_dictionary.md, R24). -/
def netUdpPort : Nat := objKey (0x1200) 2
/-- 1200:03 net.mgr.allow (01_rinula_object_dictionary.md, R24). -/
def netMgrAllow : Nat := objKey (0x1200) 3
/-- 1210:01 t1s.plca.id (01_rinula_object_dictionary.md, R24). -/
def t1sPlcaId : Nat := objKey (0x1210) 1
/-- 1210:02 t1s.plca.count (01_rinula_object_dictionary.md, R24). -/
def t1sPlcaCount : Nat := objKey (0x1210) 2
/-- 1210:03 t1s.term (01_rinula_object_dictionary.md, R24). -/
def t1sTerm : Nat := objKey (0x1210) 3
/-- 1220:01 can.node (01_rinula_object_dictionary.md, R24). -/
def canNode : Nat := objKey (0x1220) 1
/-- 1220:02 can.rate.nom (01_rinula_object_dictionary.md, R24). -/
def canRateNom : Nat := objKey (0x1220) 2
/-- 1220:03 can.rate.data (01_rinula_object_dictionary.md, R24). -/
def canRateData : Nat := objKey (0x1220) 3
/-- 1220:04 can.term (01_rinula_object_dictionary.md, R24). -/
def canTerm : Nat := objKey (0x1220) 4
/-- 1300:00 sess.count (01_rinula_object_dictionary.md, R24). -/
def sessCount : Nat := objKey (0x1300) 0
/-- 1301:00 sess.max (01_rinula_object_dictionary.md, R24). -/
def sessMax : Nat := objKey (0x1301) 0
/-- 1302:00 sess.lease (01_rinula_object_dictionary.md, R24). -/
def sessLease : Nat := objKey (0x1302) 0
/-- 1303:00 sess.self (01_rinula_object_dictionary.md, R24). -/
def sessSelf : Nat := objKey (0x1303) 0
/-- 1310:01–30 sess.table (01_rinula_object_dictionary.md, R24). -/
def sessTable (j : Nat) : Nat := objKey (0x1310) (1 + j)
/-- 1F00:00 sys.defaults (01_rinula_object_dictionary.md, R24). -/
def sysDefaults : Nat := objKey (0x1F00) 0
/-- 5000:00 her.palette.fmt (01_rinula_object_dictionary.md, R51). -/
def herPaletteFmt : Nat := objKey (0x5000) 0
/-- 5001:00 her.tt.first (01_rinula_object_dictionary.md, R51). -/
def herTtFirst : Nat := objKey (0x5001) 0
/-- 5010:01–08 her.panel.mode (01_rinula_object_dictionary.md, R51). -/
def herPanelMode (j : Nat) : Nat := objKey (0x5010) (1 + j)
/-- 5020:01–04 her.touch.stuck (01_rinula_object_dictionary.md, R51). -/
def herTouchStuck (j : Nat) : Nat := objKey (0x5020) (1 + j)
/-- 5030:00 her.ign (01_rinula_object_dictionary.md, R51). -/
def herIgn : Nat := objKey (0x5030) 0
/-- 3100+h:01 ring.owner (02_fast_path_registers.md, R54). -/
def ringOwner (h : Nat) : Nat := objKey (0x3100 + h) 1
/-- 3100+h:02 ring.local (02_fast_path_registers.md, R54). -/
def ringLocal (h : Nat) : Nat := objKey (0x3100 + h) 2
/-- 3100+h:03 ring.base (02_fast_path_registers.md, R54). -/
def ringBase (h : Nat) : Nat := objKey (0x3100 + h) 3
/-- 3100+h:04 ring.order (02_fast_path_registers.md, R54). -/
def ringOrder (h : Nat) : Nat := objKey (0x3100 + h) 4
/-- 3100+h:05 ring.ctx (02_fast_path_registers.md, R54). -/
def ringCtx (h : Nat) : Nat := objKey (0x3100 + h) 5
/-- 3100+h:06 ring.cq.base (02_fast_path_registers.md, R54). -/
def ringCqBase (h : Nat) : Nat := objKey (0x3100 + h) 6
/-- 3100+h:07 ring.cq.order (02_fast_path_registers.md, R54). -/
def ringCqOrder (h : Nat) : Nat := objKey (0x3100 + h) 7
/-- 3100+h:08 ring.vec (02_fast_path_registers.md, R54). -/
def ringVec (h : Nat) : Nat := objKey (0x3100 + h) 8
/-- 3100+h:09 ring.irq (02_fast_path_registers.md, R54). -/
def ringIrq (h : Nat) : Nat := objKey (0x3100 + h) 9
/-- 3100+h:0A ring.enable (02_fast_path_registers.md, R54). -/
def ringEnable (h : Nat) : Nat := objKey (0x3100 + h) 10
/-- 3100+h:0B ring.order.max (02_fast_path_registers.md, R54). -/
def ringOrderMax (h : Nat) : Nat := objKey (0x3100 + h) 11
/-- 3800+s:01 surf.owner (03_composition_model.md, R75). -/
def surfOwner (s : Nat) : Nat := objKey (0x3800 + s) 1
/-- 3800+s:02 surf.format (03_composition_model.md, R75). -/
def surfFormat (s : Nat) : Nat := objKey (0x3800 + s) 2
/-- 3800+s:03 surf.layout (03_composition_model.md, R75). -/
def surfLayout (s : Nat) : Nat := objKey (0x3800 + s) 3
/-- 3800+s:04 surf.width (03_composition_model.md, R75). -/
def surfWidth (s : Nat) : Nat := objKey (0x3800 + s) 4
/-- 3800+s:05 surf.height (03_composition_model.md, R75). -/
def surfHeight (s : Nat) : Nat := objKey (0x3800 + s) 5
/-- 3800+s:06 surf.stride (03_composition_model.md, R75). -/
def surfStride (s : Nat) : Nat := objKey (0x3800 + s) 6
/-- 3800+s:07 surf.size (03_composition_model.md, R75). -/
def surfSize (s : Nat) : Nat := objKey (0x3800 + s) 7
/-- 3800+s:08 surf.alloc (03_composition_model.md, R75). -/
def surfAlloc (s : Nat) : Nat := objKey (0x3800 + s) 8
/-- 3800+s:09 surf.handle (03_composition_model.md, R75). -/
def surfHandle (s : Nat) : Nat := objKey (0x3800 + s) 9
/-- 3800+s:0A surf.share (03_composition_model.md, R75). -/
def surfShare (s : Nat) : Nat := objKey (0x3800 + s) 10
/-- 3800+s:0B surf.hint (03_composition_model.md, R75). -/
def surfHint (s : Nat) : Nat := objKey (0x3800 + s) 11
/-- 3800+s:0C surf.place (03_composition_model.md, R75). -/
def surfPlace (s : Nat) : Nat := objKey (0x3800 + s) 12
/-- 2n20+k:01 layer.owner (03_composition_model.md, R86). -/
def layerOwner (n k : Nat) : Nat := objKey (0x2020 + 0x100 * n + k) 1
/-- 2n20+k:02 layer.enable (03_composition_model.md, R86). -/
def layerEnable (n k : Nat) : Nat := objKey (0x2020 + 0x100 * n + k) 2
/-- 2n20+k:03 layer.surface (03_composition_model.md, R86). -/
def layerSurface (n k : Nat) : Nat := objKey (0x2020 + 0x100 * n + k) 3
/-- 2n20+k:04 layer.src.xy (03_composition_model.md, R86). -/
def layerSrcXy (n k : Nat) : Nat := objKey (0x2020 + 0x100 * n + k) 4
/-- 2n20+k:05 layer.src.wh (03_composition_model.md, R86). -/
def layerSrcWh (n k : Nat) : Nat := objKey (0x2020 + 0x100 * n + k) 5
/-- 2n20+k:06 layer.dst.xy (03_composition_model.md, R86). -/
def layerDstXy (n k : Nat) : Nat := objKey (0x2020 + 0x100 * n + k) 6
/-- 2n20+k:07 layer.dst.wh (03_composition_model.md, R86). -/
def layerDstWh (n k : Nat) : Nat := objKey (0x2020 + 0x100 * n + k) 7
/-- 2n20+k:08 layer.blend (03_composition_model.md, R86). -/
def layerBlend (n k : Nat) : Nat := objKey (0x2020 + 0x100 * n + k) 8
/-- 2n20+k:09 layer.alpha (03_composition_model.md, R86). -/
def layerAlpha (n k : Nat) : Nat := objKey (0x2020 + 0x100 * n + k) 9
/-- 2n20+k:0A layer.matrix (03_composition_model.md, R86). -/
def layerMatrix (n k : Nat) : Nat := objKey (0x2020 + 0x100 * n + k) 10
/-- 2n20+k:0B layer.rot (03_composition_model.md, R86). -/
def layerRot (n k : Nat) : Nat := objKey (0x2020 + 0x100 * n + k) 11
/-- 2n20+k:0C layer.hint (03_composition_model.md, R86). -/
def layerHint (n k : Nat) : Nat := objKey (0x2020 + 0x100 * n + k) 12
/-- 2n20+k:0D layer.path (03_composition_model.md, R86). -/
def layerPath (n k : Nat) : Nat := objKey (0x2020 + 0x100 * n + k) 13
/-- 2n20+k:0E layer.hint.kept (03_composition_model.md, R86). -/
def layerHintKept (n k : Nat) : Nat := objKey (0x2020 + 0x100 * n + k) 14
/-- 2n20+k:0F layer.demand (03_composition_model.md, R86). -/
def layerDemand (n k : Nat) : Nat := objKey (0x2020 + 0x100 * n + k) 15
/-- 2n10:01 comp.slip (03_composition_model.md, R90). -/
def compSlip (n : Nat) : Nat := objKey (0x2010 + 0x100 * n) 1
/-- 2n10:02 comp.bg (03_composition_model.md, R90). -/
def compBg (n : Nat) : Nat := objKey (0x2010 + 0x100 * n) 2
/-- 2n10:03 comp.slip.lead (03_composition_model.md, R90). -/
def compSlipLead (n : Nat) : Nat := objKey (0x2010 + 0x100 * n) 3
/-- 2n10:04 comp.demand (03_composition_model.md, R90). -/
def compDemand (n : Nat) : Nat := objKey (0x2010 + 0x100 * n) 4
/-- 2n10:05 comp.flat.top (03_composition_model.md, R90). -/
def compFlatTop (n : Nat) : Nat := objKey (0x2010 + 0x100 * n) 5
/-- 2n10:06 comp.rows (03_composition_model.md, R90). -/
def compRows (n : Nat) : Nat := objKey (0x2010 + 0x100 * n) 6
/-- 2n10:07 comp.row.late (03_composition_model.md, R90). -/
def compRowLate (n : Nat) : Nat := objKey (0x2010 + 0x100 * n) 7
/-- 2n10:08 comp.row.bg (03_composition_model.md, R90). -/
def compRowBg (n : Nat) : Nat := objKey (0x2010 + 0x100 * n) 8
/-- 3400:01 comp.budget (03_composition_model.md, R90). -/
def compBudget : Nat := objKey (0x3400) 1
/-- 3400:02 comp.total (03_composition_model.md, R90). -/
def compTotal : Nat := objKey (0x3400) 2
/-- 3400:03 comp.reserve (03_composition_model.md, R90). -/
def compReserve : Nat := objKey (0x3400) 3
/-- 3400:04 comp.poison (03_composition_model.md, R90). -/
def compPoison : Nat := objKey (0x3400) 4
/-- 3400:05 comp.override (03_composition_model.md, R90). -/
def compOverride : Nat := objKey (0x3400) 5
/-- 2n00:01 out.enable (04_scanout_and_timing.md, R110). -/
def outEnable (n : Nat) : Nat := objKey (0x2000 + 0x100 * n) 1
/-- 2n00:02 out.mode (04_scanout_and_timing.md, R110). -/
def outMode (n : Nat) : Nat := objKey (0x2000 + 0x100 * n) 2
/-- 2n00:03 out.kind (04_scanout_and_timing.md, R110). -/
def outKind (n : Nat) : Nat := objKey (0x2000 + 0x100 * n) 3
/-- 2n00:04 out.lanes (04_scanout_and_timing.md, R110). -/
def outLanes (n : Nat) : Nat := objKey (0x2000 + 0x100 * n) 4
/-- 2n00:05 out.rate.max (04_scanout_and_timing.md, R110). -/
def outRateMax (n : Nat) : Nat := objKey (0x2000 + 0x100 * n) 5
/-- 2n00:06 out.bpc (04_scanout_and_timing.md, R110). -/
def outBpc (n : Nat) : Nat := objKey (0x2000 + 0x100 * n) 6
/-- 2n00:07 out.ssc (04_scanout_and_timing.md, R110). -/
def outSsc (n : Nat) : Nat := objKey (0x2000 + 0x100 * n) 7
/-- 2n00:08 out.boot.mode (04_scanout_and_timing.md, R110). -/
def outBootMode (n : Nat) : Nat := objKey (0x2000 + 0x100 * n) 8
/-- 2n00:09 out.boot.enable (04_scanout_and_timing.md, R110). -/
def outBootEnable (n : Nat) : Nat := objKey (0x2000 + 0x100 * n) 9
/-- 2n00:0A out.state (04_scanout_and_timing.md, R110). -/
def outState (n : Nat) : Nat := objKey (0x2000 + 0x100 * n) 10
/-- 2n00:0B out.link.state (04_scanout_and_timing.md, R110). -/
def outLinkState (n : Nat) : Nat := objKey (0x2000 + 0x100 * n) 11
/-- 2n00:0C out.rate (04_scanout_and_timing.md, R110). -/
def outRate (n : Nat) : Nat := objKey (0x2000 + 0x100 * n) 12
/-- 2n00:0D out.se (04_scanout_and_timing.md, R110). -/
def outSe (n : Nat) : Nat := objKey (0x2000 + 0x100 * n) 13
/-- 2n00:0E out.commit (04_scanout_and_timing.md, R110). -/
def outCommit (n : Nat) : Nat := objKey (0x2000 + 0x100 * n) 14
/-- 2n00:0F out.commit.pend (04_scanout_and_timing.md, R110). -/
def outCommitPend (n : Nat) : Nat := objKey (0x2000 + 0x100 * n) 15
/-- 2n00:10 out.line.match (04_scanout_and_timing.md, R110). -/
def outLineMatch (n : Nat) : Nat := objKey (0x2000 + 0x100 * n) 16
/-- 2n00:11 out.pos (04_scanout_and_timing.md, R110). -/
def outPos (n : Nat) : Nat := objKey (0x2000 + 0x100 * n) 17
/-- 2n00:12 out.edid (04_scanout_and_timing.md, R110). -/
def outEdid (n : Nat) : Nat := objKey (0x2000 + 0x100 * n) 18
/-- 2n00:13 out.se.gen (04_scanout_and_timing.md, R110). -/
def outSeGen (n : Nat) : Nat := objKey (0x2000 + 0x100 * n) 19
/-- 2n01:01 out.frames (04_scanout_and_timing.md, R110). -/
def outFrames (n : Nat) : Nat := objKey (0x2001 + 0x100 * n) 1
/-- 2n01:02 out.underrun (04_scanout_and_timing.md, R110). -/
def outUnderrun (n : Nat) : Nat := objKey (0x2001 + 0x100 * n) 2
/-- 2n01:03 out.commit.late (04_scanout_and_timing.md, R110). -/
def outCommitLate (n : Nat) : Nat := objKey (0x2001 + 0x100 * n) 3
/-- 2n01:04 out.retrain (04_scanout_and_timing.md, R110). -/
def outRetrain (n : Nat) : Nat := objKey (0x2001 + 0x100 * n) 4
/-- 2n01:05 out.se.subst (04_scanout_and_timing.md, R110). -/
def outSeSubst (n : Nat) : Nat := objKey (0x2001 + 0x100 * n) 5
/-- 2800+m:01 mode.w (04_scanout_and_timing.md, R112). -/
def modeW (m : Nat) : Nat := objKey (0x2800 + m) 1
/-- 2800+m:02 mode.h (04_scanout_and_timing.md, R112). -/
def modeH (m : Nat) : Nat := objKey (0x2800 + m) 2
/-- 2800+m:03 mode.htotal (04_scanout_and_timing.md, R112). -/
def modeHtotal (m : Nat) : Nat := objKey (0x2800 + m) 3
/-- 2800+m:04 mode.vtotal (04_scanout_and_timing.md, R112). -/
def modeVtotal (m : Nat) : Nat := objKey (0x2800 + m) 4
/-- 2800+m:05 mode.hfp (04_scanout_and_timing.md, R112). -/
def modeHfp (m : Nat) : Nat := objKey (0x2800 + m) 5
/-- 2800+m:06 mode.hsw (04_scanout_and_timing.md, R112). -/
def modeHsw (m : Nat) : Nat := objKey (0x2800 + m) 6
/-- 2800+m:07 mode.vfp (04_scanout_and_timing.md, R112). -/
def modeVfp (m : Nat) : Nat := objKey (0x2800 + m) 7
/-- 2800+m:08 mode.vsw (04_scanout_and_timing.md, R112). -/
def modeVsw (m : Nat) : Nat := objKey (0x2800 + m) 8
/-- 2800+m:09 mode.pclk (04_scanout_and_timing.md, R112). -/
def modePclk (m : Nat) : Nat := objKey (0x2800 + m) 9
/-- 2800+m:0A mode.sync (04_scanout_and_timing.md, R112). -/
def modeSync (m : Nat) : Nat := objKey (0x2800 + m) 10
/-- 2800+m:0B mode.refresh (04_scanout_and_timing.md, R112). -/
def modeRefresh (m : Nat) : Nat := objKey (0x2800 + m) 11
/-- 2800+m:0C mode.fit.dp (04_scanout_and_timing.md, R112). -/
def modeFitDp (m : Nat) : Nat := objKey (0x2800 + m) 12
/-- 2800+m:0D mode.fit.edp (04_scanout_and_timing.md, R112). -/
def modeFitEdp (m : Nat) : Nat := objKey (0x2800 + m) 13
/-- 2800+m:0E mode.large (04_scanout_and_timing.md, R112). -/
def modeLarge (m : Nat) : Nat := objKey (0x2800 + m) 14
/-- 2800+m:0F mode.src (04_scanout_and_timing.md, R112). -/
def modeSrc (m : Nat) : Nat := objKey (0x2800 + m) 15
/-- 7510+n:01 kaolin.enable (05_kaolin_safety_plane.md, R147). -/
def kaolinEnable (n : Nat) : Nat := objKey (0x7510 + n) 1
/-- 7510+n:02 kaolin.commit (05_kaolin_safety_plane.md, R147). -/
def kaolinCommit (n : Nat) : Nat := objKey (0x7510 + n) 2
/-- 7510+n:03 kaolin.blink.on (05_kaolin_safety_plane.md, R147). -/
def kaolinBlinkOn (n : Nat) : Nat := objKey (0x7510 + n) 3
/-- 7510+n:04 kaolin.blink.off (05_kaolin_safety_plane.md, R147). -/
def kaolinBlinkOff (n : Nat) : Nat := objKey (0x7510 + n) 4
/-- 7510+n:05 kaolin.sig.repeat (05_kaolin_safety_plane.md, R147). -/
def kaolinSigRepeat (n : Nat) : Nat := objKey (0x7510 + n) 5
/-- 7510+n:06 kaolin.commit.late (05_kaolin_safety_plane.md, R147). -/
def kaolinCommitLate (n : Nat) : Nat := objKey (0x7510 + n) 6
/-- 7510+n:07 kaolin.phase (05_kaolin_safety_plane.md, R147). -/
def kaolinPhase (n : Nat) : Nat := objKey (0x7510 + n) 7
/-- 7400+20n+r:01 rect.enable (05_kaolin_safety_plane.md, R148). -/
def rectEnable (n r : Nat) : Nat := objKey (0x7400 + 0x20 * n + r) 1
/-- 7400+20n+r:02 rect.src (05_kaolin_safety_plane.md, R148). -/
def rectSrc (n r : Nat) : Nat := objKey (0x7400 + 0x20 * n + r) 2
/-- 7400+20n+r:03 rect.stride (05_kaolin_safety_plane.md, R148). -/
def rectStride (n r : Nat) : Nat := objKey (0x7400 + 0x20 * n + r) 3
/-- 7400+20n+r:04 rect.xy (05_kaolin_safety_plane.md, R148). -/
def rectXy (n r : Nat) : Nat := objKey (0x7400 + 0x20 * n + r) 4
/-- 7400+20n+r:05 rect.wh (05_kaolin_safety_plane.md, R148). -/
def rectWh (n r : Nat) : Nat := objKey (0x7400 + 0x20 * n + r) 5
/-- 7400+20n+r:06 rect.sig.mode (05_kaolin_safety_plane.md, R148). -/
def rectSigMode (n r : Nat) : Nat := objKey (0x7400 + 0x20 * n + r) 6
/-- 7400+20n+r:07 rect.sig.on (05_kaolin_safety_plane.md, R148). -/
def rectSigOn (n r : Nat) : Nat := objKey (0x7400 + 0x20 * n + r) 7
/-- 7400+20n+r:08 rect.sig.off (05_kaolin_safety_plane.md, R148). -/
def rectSigOff (n r : Nat) : Nat := objKey (0x7400 + 0x20 * n + r) 8
/-- 7400+20n+r:09 rect.sig.lines (05_kaolin_safety_plane.md, R148). -/
def rectSigLines (n r : Nat) : Nat := objKey (0x7400 + 0x20 * n + r) 9
/-- 7400+20n+r:0A rect.sig.last (05_kaolin_safety_plane.md, R148). -/
def rectSigLast (n r : Nat) : Nat := objKey (0x7400 + 0x20 * n + r) 10
/-- 7400+20n+r:0B rect.sig.miss (05_kaolin_safety_plane.md, R148). -/
def rectSigMiss (n r : Nat) : Nat := objKey (0x7400 + 0x20 * n + r) 11
/-- 7100:01–08 kaolin.st (05_kaolin_safety_plane.md, R161). -/
def kaolinSt (j : Nat) : Nat := objKey (0x7100) (1 + j)
/-- 7101:01–08 kaolin.miss (05_kaolin_safety_plane.md, R161). -/
def kaolinMiss (j : Nat) : Nat := objKey (0x7101) (1 + j)
/-- 7102:01–08 kaolin.miss.time (05_kaolin_safety_plane.md, R161). -/
def kaolinMissTime (j : Nat) : Nat := objKey (0x7102) (1 + j)
/-- 7103:00 kaolin.tw (05_kaolin_safety_plane.md, R161). -/
def kaolinTw : Nat := objKey (0x7103) 0
/-- 3000:01 gpu.active (06_tile_pipeline.md, R172). -/
def gpuActive : Nat := objKey (0x3000) 1
/-- 3000:02 gpu.spare (06_tile_pipeline.md, R172). -/
def gpuSpare : Nat := objKey (0x3000) 2
/-- 3000:03 gpu.clock (06_tile_pipeline.md, R172). -/
def gpuClock : Nat := objKey (0x3000) 3
/-- 3000:04 gpu.fe.clock (06_tile_pipeline.md, R172). -/
def gpuFeClock : Nat := objKey (0x3000) 4
/-- 3000:05 gpu.watchdog (06_tile_pipeline.md, R172). -/
def gpuWatchdog : Nat := objKey (0x3000) 5
/-- 3000:06 gpu.prims (06_tile_pipeline.md, R172). -/
def gpuPrims : Nat := objKey (0x3000) 6
/-- 3010+k:01 core.state (06_tile_pipeline.md, R172). -/
def coreState (k : Nat) : Nat := objKey (0x3010 + k) 1
/-- 3010+k:02 core.slice (06_tile_pipeline.md, R172). -/
def coreSlice (k : Nat) : Nat := objKey (0x3010 + k) 2
/-- 3010+k:03 core.ctx (06_tile_pipeline.md, R172). -/
def coreCtx (k : Nat) : Nat := objKey (0x3010 + k) 3
/-- 3010+k:04 core.gen (06_tile_pipeline.md, R172). -/
def coreGen (k : Nat) : Nat := objKey (0x3010 + k) 4
/-- 3010+k:05 core.tiles (06_tile_pipeline.md, R172). -/
def coreTiles (k : Nat) : Nat := objKey (0x3010 + k) 5
/-- 3010+k:06 core.retry (06_tile_pipeline.md, R172). -/
def coreRetry (k : Nat) : Nat := objKey (0x3010 + k) 6
/-- 3500+p:01 prog.owner (06_tile_pipeline.md, R175). -/
def progOwner (p : Nat) : Nat := objKey (0x3500 + p) 1
/-- 3500+p:02 prog.code (06_tile_pipeline.md, R175). -/
def progCode (p : Nat) : Nat := objKey (0x3500 + p) 2
/-- 3500+p:03 prog.entry (06_tile_pipeline.md, R175). -/
def progEntry (p : Nat) : Nat := objKey (0x3500 + p) 3
/-- 3500+p:04 prog.state (06_tile_pipeline.md, R175). -/
def progState (p : Nat) : Nat := objKey (0x3500 + p) 4
/-- 3500+p:05 prog.stage (06_tile_pipeline.md, R175). -/
def progStage (p : Nat) : Nat := objKey (0x3500 + p) 5
/-- 3500+p:06 prog.regs (06_tile_pipeline.md, R175). -/
def progRegs (p : Nat) : Nat := objKey (0x3500 + p) 6
/-- 3500+p:07 prog.late (06_tile_pipeline.md, R175). -/
def progLate (p : Nat) : Nat := objKey (0x3500 + p) 7
/-- 3500+p:08 prog.groups (06_tile_pipeline.md, R175). -/
def progGroups (p : Nat) : Nat := objKey (0x3500 + p) 8
/-- 3500+p:09 prog.error (06_tile_pipeline.md, R175). -/
def progError (p : Nat) : Nat := objKey (0x3500 + p) 9
/-- 3300+c:01 silt.size (06_tile_pipeline.md, R186). -/
def siltSize (c : Nat) : Nat := objKey (0x3300 + c) 1
/-- 3300+c:02 silt.now (06_tile_pipeline.md, R186). -/
def siltNow (c : Nat) : Nat := objKey (0x3300 + c) 2
/-- 3300+c:03 silt.grow (06_tile_pipeline.md, R186). -/
def siltGrow (c : Nat) : Nat := objKey (0x3300 + c) 3
/-- 3300+c:04 silt.used (06_tile_pipeline.md, R186). -/
def siltUsed (c : Nat) : Nat := objKey (0x3300 + c) 4
/-- 3300+c:05 silt.peak (06_tile_pipeline.md, R186). -/
def siltPeak (c : Nat) : Nat := objKey (0x3300 + c) 5
/-- 3300+c:06 silt.overflow (06_tile_pipeline.md, R186). -/
def siltOverflow (c : Nat) : Nat := objKey (0x3300 + c) 6
/-- 3300+c:07 silt.denied (06_tile_pipeline.md, R186). -/
def siltDenied (c : Nat) : Nat := objKey (0x3300 + c) 7
/-- 3300+c:08 silt.place (06_tile_pipeline.md, R186). -/
def siltPlace (c : Nat) : Nat := objKey (0x3300 + c) 8
/-- 3300+c:09 pass.done (06_tile_pipeline.md, R186). -/
def passDone (c : Nat) : Nat := objKey (0x3300 + c) 9
/-- 3300+c:0A pass.dropped (06_tile_pipeline.md, R186). -/
def passDropped (c : Nat) : Nat := objKey (0x3300 + c) 10
/-- 3300+c:0B pass.fault (06_tile_pipeline.md, R186). -/
def passFault (c : Nat) : Nat := objKey (0x3300 + c) 11
/-- 3300+c:0C pass.poison (06_tile_pipeline.md, R186). -/
def passPoison (c : Nat) : Nat := objKey (0x3300 + c) 12
/-- 3200+c:01 ctx.owner (07_contexts_scheduling_and_tilth.md, R211). -/
def ctxOwner (c : Nat) : Nat := objKey (0x3200 + c) 1
/-- 3200+c:02 ctx.enable (07_contexts_scheduling_and_tilth.md, R211). -/
def ctxEnable (c : Nat) : Nat := objKey (0x3200 + c) 2
/-- 3200+c:03 ctx.class (07_contexts_scheduling_and_tilth.md, R211). -/
def ctxClass (c : Nat) : Nat := objKey (0x3200 + c) 3
/-- 3200+c:04 ctx.weight (07_contexts_scheduling_and_tilth.md, R211). -/
def ctxWeight (c : Nat) : Nat := objKey (0x3200 + c) 4
/-- 3200+c:05 ctx.cores.min (07_contexts_scheduling_and_tilth.md, R211). -/
def ctxCoresMin (c : Nat) : Nat := objKey (0x3200 + c) 5
/-- 3200+c:06 ctx.cores.max (07_contexts_scheduling_and_tilth.md, R211). -/
def ctxCoresMax (c : Nat) : Nat := objKey (0x3200 + c) 6
/-- 3200+c:07 ctx.state (07_contexts_scheduling_and_tilth.md, R211). -/
def ctxState (c : Nat) : Nat := objKey (0x3200 + c) 7
/-- 3200+c:08 ctx.cores (07_contexts_scheduling_and_tilth.md, R211). -/
def ctxCores (c : Nat) : Nat := objKey (0x3200 + c) 8
/-- 3200+c:09 ctx.target (07_contexts_scheduling_and_tilth.md, R211). -/
def ctxTarget (c : Nat) : Nat := objKey (0x3200 + c) 9
/-- 3200+c:0A ctx.hint.kept (07_contexts_scheduling_and_tilth.md, R211). -/
def ctxHintKept (c : Nat) : Nat := objKey (0x3200 + c) 10
/-- 3200+c:0B ctx.busy (07_contexts_scheduling_and_tilth.md, R211). -/
def ctxBusy (c : Nat) : Nat := objKey (0x3200 + c) 11
/-- 3200+c:0C ctx.preempt (07_contexts_scheduling_and_tilth.md, R211). -/
def ctxPreempt (c : Nat) : Nat := objKey (0x3200 + c) 12
/-- 3200+c:0D ctx.preempt.max (07_contexts_scheduling_and_tilth.md, R211). -/
def ctxPreemptMax (c : Nat) : Nat := objKey (0x3200 + c) 13
/-- 3200+c:0E ctx.gen (07_contexts_scheduling_and_tilth.md, R211). -/
def ctxGen (c : Nat) : Nat := objKey (0x3200 + c) 14
/-- 3200+c:0F ctx.save (07_contexts_scheduling_and_tilth.md, R211). -/
def ctxSave (c : Nat) : Nat := objKey (0x3200 + c) 15
/-- 3040:01 sched.period (07_contexts_scheduling_and_tilth.md, R219). -/
def schedPeriod : Nat := objKey (0x3040) 1
/-- 3040:02 sched.c0.cores (07_contexts_scheduling_and_tilth.md, R219). -/
def schedC0Cores : Nat := objKey (0x3040) 2
/-- 3040:03 sched.pre.gfx (07_contexts_scheduling_and_tilth.md, R219). -/
def schedPreGfx : Nat := objKey (0x3040) 3
/-- 3040:04 sched.pre.cmp (07_contexts_scheduling_and_tilth.md, R219). -/
def schedPreCmp : Nat := objKey (0x3040) 4
/-- 3040:05 sched.pre.count (07_contexts_scheduling_and_tilth.md, R219). -/
def schedPreCount : Nat := objKey (0x3040) 5
/-- 3040:06 sched.c0.wait (07_contexts_scheduling_and_tilth.md, R219). -/
def schedC0Wait : Nat := objKey (0x3040) 6
/-- 3040:07 sched.idle (07_contexts_scheduling_and_tilth.md, R219). -/
def schedIdle : Nat := objKey (0x3040) 7
/-- 3040:08 sched.fe.switch (07_contexts_scheduling_and_tilth.md, R219). -/
def schedFeSwitch : Nat := objKey (0x3040) 8
/-- 3700+f:01 fence.owner (07_contexts_scheduling_and_tilth.md, R228). -/
def fenceOwner (f : Nat) : Nat := objKey (0x3700 + f) 1
/-- 3700+f:02 fence.value (07_contexts_scheduling_and_tilth.md, R228). -/
def fenceValue (f : Nat) : Nat := objKey (0x3700 + f) 2
/-- 3700+f:03 fence.share (07_contexts_scheduling_and_tilth.md, R228). -/
def fenceShare (f : Nat) : Nat := objKey (0x3700 + f) 3
/-- 3700+f:04 fence.handle (07_contexts_scheduling_and_tilth.md, R228). -/
def fenceHandle (f : Nat) : Nat := objKey (0x3700 + f) 4
/-- 3700+f:05 fence.state (07_contexts_scheduling_and_tilth.md, R228). -/
def fenceState (f : Nat) : Nat := objKey (0x3700 + f) 5
/-- 3700+f:06 fence.waiters (07_contexts_scheduling_and_tilth.md, R228). -/
def fenceWaiters (f : Nat) : Nat := objKey (0x3700 + f) 6
/-- 3600:01 tilth.quiet (07_contexts_scheduling_and_tilth.md, R238). -/
def tilthQuiet : Nat := objKey (0x3600) 1
/-- 3600:02 tilth.move.rate (07_contexts_scheduling_and_tilth.md, R238). -/
def tilthMoveRate : Nat := objKey (0x3600) 2
/-- 3600:03 tilth.moves (07_contexts_scheduling_and_tilth.md, R238). -/
def tilthMoves : Nat := objKey (0x3600) 3
/-- 3600:04 tilth.log (07_contexts_scheduling_and_tilth.md, R238). -/
def tilthLog : Nat := objKey (0x3600) 4
/-- 3600:05 tilth.seq (07_contexts_scheduling_and_tilth.md, R238). -/
def tilthSeq : Nat := objKey (0x3600) 5
/-- 3600:06 tilth.hint.miss (07_contexts_scheduling_and_tilth.md, R238). -/
def tilthHintMiss : Nat := objKey (0x3600) 6
/-- 3601:01–04 tilth.rank.load (07_contexts_scheduling_and_tilth.md, R238). -/
def tilthRankLoad (j : Nat) : Nat := objKey (0x3601) (1 + j)
/-- 3601:05–08 tilth.rank.placed (07_contexts_scheduling_and_tilth.md, R238). -/
def tilthRankPlaced (j : Nat) : Nat := objKey (0x3601) (5 + j)
/-- 4000:01 mem.rate (08_memory_and_ecc.md, R274). -/
def memRate : Nat := objKey (0x4000) 1
/-- 4000:02 mem.user (08_memory_and_ecc.md, R274). -/
def memUser : Nat := objKey (0x4000) 2
/-- 4000:03 mem.free (08_memory_and_ecc.md, R274). -/
def memFree : Nat := objKey (0x4000) 3
/-- 4000:04 mem.spares (08_memory_and_ecc.md, R274). -/
def memSpares : Nat := objKey (0x4000) 4
/-- 4000:05 mem.ce.limit (08_memory_and_ecc.md, R274). -/
def memCeLimit : Nat := objKey (0x4000) 5
/-- 4000:06 mem.scrub.period (08_memory_and_ecc.md, R274). -/
def memScrubPeriod : Nat := objKey (0x4000) 6
/-- 4000:07 mem.scrub.pos (08_memory_and_ecc.md, R274). -/
def memScrubPos : Nat := objKey (0x4000) 7
/-- 4000:08 mem.scrub.last (08_memory_and_ecc.md, R274). -/
def memScrubLast : Nat := objKey (0x4000) 8
/-- 4000:09 mem.nrr.log2 (08_memory_and_ecc.md, R274). -/
def memNrrLog2 : Nat := objKey (0x4000) 9
/-- 4000:0A mem.pd.timer (08_memory_and_ecc.md, R274). -/
def memPdTimer : Nat := objKey (0x4000) 10
/-- 4000:0B mem.sr.timer (08_memory_and_ecc.md, R274). -/
def memSrTimer : Nat := objKey (0x4000) 11
/-- 4000:0C mem.ecc.h (08_memory_and_ecc.md, R274). -/
def memEccH : Nat := objKey (0x4000) 12
/-- 4000:0D mem.migrate.rate (08_memory_and_ecc.md, R274). -/
def memMigrateRate : Nat := objKey (0x4000) 13
/-- 4000:0E mem.retire.req (08_memory_and_ecc.md, R274). -/
def memRetireReq : Nat := objKey (0x4000) 14
/-- 4000:0F mem.poison (08_memory_and_ecc.md, R274). -/
def memPoison : Nat := objKey (0x4000) 15
/-- 4000:10 mem.log (08_memory_and_ecc.md, R274). -/
def memLog : Nat := objKey (0x4000) 16
/-- 4000:11 mem.log.seq (08_memory_and_ecc.md, R274). -/
def memLogSeq : Nat := objKey (0x4000) 17
/-- 4010+u:01 rank.state (08_memory_and_ecc.md, R274). -/
def rankState (u : Nat) : Nat := objKey (0x4010 + u) 1
/-- 4010+u:02 rank.unit (08_memory_and_ecc.md, R274). -/
def rankUnit (u : Nat) : Nat := objKey (0x4010 + u) 2
/-- 4010+u:03 rank.cause (08_memory_and_ecc.md, R274). -/
def rankCause (u : Nat) : Nat := objKey (0x4010 + u) 3
/-- 4010+u:04 rank.ce (08_memory_and_ecc.md, R274). -/
def rankCe (u : Nat) : Nat := objKey (0x4010 + u) 4
/-- 4010+u:05 rank.ce.total (08_memory_and_ecc.md, R274). -/
def rankCeTotal (u : Nat) : Nat := objKey (0x4010 + u) 5
/-- 4010+u:06 rank.ce.trans (08_memory_and_ecc.md, R274). -/
def rankCeTrans (u : Nat) : Nat := objKey (0x4010 + u) 6
/-- 4010+u:07 rank.ue (08_memory_and_ecc.md, R274). -/
def rankUe (u : Nat) : Nat := objKey (0x4010 + u) 7
/-- 4010+u:08 rank.ue.trans (08_memory_and_ecc.md, R274). -/
def rankUeTrans (u : Nat) : Nat := objKey (0x4010 + u) 8
/-- 4010+u:09 rank.poison (08_memory_and_ecc.md, R274). -/
def rankPoison (u : Nat) : Nat := objKey (0x4010 + u) 9
/-- 4010+u:0A rank.nrr (08_memory_and_ecc.md, R274). -/
def rankNrr (u : Nat) : Nat := objKey (0x4010 + u) 10
/-- 4010+u:0B rank.gen (08_memory_and_ecc.md, R274). -/
def rankGen (u : Nat) : Nat := objKey (0x4010 + u) 11
/-- 4010+u:0C rank.moved (08_memory_and_ecc.md, R274). -/
def rankMoved (u : Nat) : Nat := objKey (0x4010 + u) 12
/-- 4020+g:01 grp.state (08_memory_and_ecc.md, R274). -/
def grpState (g : Nat) : Nat := objKey (0x4020 + g) 1
/-- 4020+g:02 grp.trained (08_memory_and_ecc.md, R274). -/
def grpTrained (g : Nat) : Nat := objKey (0x4020 + g) 2
/-- 4020+g:03 grp.retrain (08_memory_and_ecc.md, R274). -/
def grpRetrain (g : Nat) : Nat := objKey (0x4020 + g) 3
/-- 4020+g:04 grp.bad.pins (08_memory_and_ecc.md, R274). -/
def grpBadPins (g : Nat) : Nat := objKey (0x4020 + g) 4
/-- 4020+g:05 grp.sr.count (08_memory_and_ecc.md, R274). -/
def grpSrCount (g : Nat) : Nat := objKey (0x4020 + g) 5
/-- 4020+g:06 grp.temp (08_memory_and_ecc.md, R274). -/
def grpTemp (g : Nat) : Nat := objKey (0x4020 + g) 6
/-- 4020+g:07 grp.pin.ce (08_memory_and_ecc.md, R274). -/
def grpPinCe (g : Nat) : Nat := objKey (0x4020 + g) 7
/-- F400:01 mem.inj.rank (08_memory_and_ecc.md, R276). -/
def memInjRank : Nat := objKey (0xF400) 1
/-- F400:02 mem.inj.pin (08_memory_and_ecc.md, R276). -/
def memInjPin : Nat := objKey (0xF400) 2
/-- F400:03 mem.inj.pin2 (08_memory_and_ecc.md, R276). -/
def memInjPin2 : Nat := objKey (0xF400) 3
/-- F400:04 mem.inj.mask (08_memory_and_ecc.md, R276). -/
def memInjMask : Nat := objKey (0xF400) 4
/-- F400:05 mem.inj.count (08_memory_and_ecc.md, R276). -/
def memInjCount : Nat := objKey (0xF400) 5
/-- F400:06 mem.inj.arm (08_memory_and_ecc.md, R276). -/
def memInjArm : Nat := objKey (0xF400) 6
/-- 6000:07 pf0.portal.vec (09_virtual_functions.md, R282). -/
def pf0PortalVec : Nat := objKey (0x6000) 7
/-- 6030:01 pool.rings (09_virtual_functions.md, R282). -/
def poolRings : Nat := objKey (0x6030) 1
/-- 6030:02 pool.ctx (09_virtual_functions.md, R282). -/
def poolCtx : Nat := objKey (0x6030) 2
/-- 6030:03 pool.mem (09_virtual_functions.md, R282). -/
def poolMem : Nat := objKey (0x6030) 3
/-- 6030:04 pool.layers (09_virtual_functions.md, R282). -/
def poolLayers : Nat := objKey (0x6030) 4
/-- 6030:05 pool.surfaces (09_virtual_functions.md, R282). -/
def poolSurfaces : Nat := objKey (0x6030) 5
/-- 6030:06 pool.fences (09_virtual_functions.md, R282). -/
def poolFences : Nat := objKey (0x6030) 6
/-- 6030:07 pool.progs (09_virtual_functions.md, R282). -/
def poolProgs : Nat := objKey (0x6030) 7
/-- 6030:08 pool.haptic (09_virtual_functions.md, R282). -/
def poolHaptic : Nat := objKey (0x6030) 8
/-- 6030:09 pool.streams (09_virtual_functions.md, R282). -/
def poolStreams : Nat := objKey (0x6030) 9
/-- 6030:0A pool.share (09_virtual_functions.md, R282). -/
def poolShare : Nat := objKey (0x6030) 10
/-- 6031:01 pf1.portal.vec (09_virtual_functions.md, R282). -/
def pf1PortalVec : Nat := objKey (0x6031) 1
/-- 6000+40v:01 vf.enable (09_virtual_functions.md, R282). -/
def vfEnable (v : Nat) : Nat := objKey (0x6000 + 0x40 * v) 1
/-- 6000+40v:02 vf.status (09_virtual_functions.md, R282). -/
def vfStatus (v : Nat) : Nat := objKey (0x6000 + 0x40 * v) 2
/-- 6000+40v:03 vf.flr (09_virtual_functions.md, R282). -/
def vfFlr (v : Nat) : Nat := objKey (0x6000 + 0x40 * v) 3
/-- 6000+40v:04 vf.flr.count (09_virtual_functions.md, R282). -/
def vfFlrCount (v : Nat) : Nat := objKey (0x6000 + 0x40 * v) 4
/-- 6000+40v:05 vf.spoof (09_virtual_functions.md, R282). -/
def vfSpoof (v : Nat) : Nat := objKey (0x6000 + 0x40 * v) 5
/-- 6000+40v:06 vf.spoof.last (09_virtual_functions.md, R282). -/
def vfSpoofLast (v : Nat) : Nat := objKey (0x6000 + 0x40 * v) 6
/-- 6000+40v:07 vf.portal.vec (09_virtual_functions.md, R282). -/
def vfPortalVec (v : Nat) : Nat := objKey (0x6000 + 0x40 * v) 7
/-- 6001+40v:01 grant.rings (09_virtual_functions.md, R282). -/
def grantRings (v : Nat) : Nat := objKey (0x6001 + 0x40 * v) 1
/-- 6001+40v:02 grant.ring.order (09_virtual_functions.md, R282). -/
def grantRingOrder (v : Nat) : Nat := objKey (0x6001 + 0x40 * v) 2
/-- 6001+40v:03 grant.ctx (09_virtual_functions.md, R282). -/
def grantCtx (v : Nat) : Nat := objKey (0x6001 + 0x40 * v) 3
/-- 6001+40v:04 grant.class (09_virtual_functions.md, R282). -/
def grantClass (v : Nat) : Nat := objKey (0x6001 + 0x40 * v) 4
/-- 6001+40v:05 grant.share (09_virtual_functions.md, R282). -/
def grantShare (v : Nat) : Nat := objKey (0x6001 + 0x40 * v) 5
/-- 6001+40v:06 grant.mem (09_virtual_functions.md, R282). -/
def grantMem (v : Nat) : Nat := objKey (0x6001 + 0x40 * v) 6
/-- 6001+40v:07 grant.silt (09_virtual_functions.md, R282). -/
def grantSilt (v : Nat) : Nat := objKey (0x6001 + 0x40 * v) 7
/-- 6001+40v:08 grant.layers (09_virtual_functions.md, R282). -/
def grantLayers (v : Nat) : Nat := objKey (0x6001 + 0x40 * v) 8
/-- 6001+40v:09 grant.surfaces (09_virtual_functions.md, R282). -/
def grantSurfaces (v : Nat) : Nat := objKey (0x6001 + 0x40 * v) 9
/-- 6001+40v:0A grant.fences (09_virtual_functions.md, R282). -/
def grantFences (v : Nat) : Nat := objKey (0x6001 + 0x40 * v) 10
/-- 6001+40v:0B grant.progs (09_virtual_functions.md, R282). -/
def grantProgs (v : Nat) : Nat := objKey (0x6001 + 0x40 * v) 11
/-- 6001+40v:0C grant.haptic (09_virtual_functions.md, R282). -/
def grantHaptic (v : Nat) : Nat := objKey (0x6001 + 0x40 * v) 12
/-- 6001+40v:0D grant.streams (09_virtual_functions.md, R282). -/
def grantStreams (v : Nat) : Nat := objKey (0x6001 + 0x40 * v) 13
/-- 6002+40v:01 use.rings (09_virtual_functions.md, R282). -/
def useRings (v : Nat) : Nat := objKey (0x6002 + 0x40 * v) 1
/-- 6002+40v:02 use.ring.order (09_virtual_functions.md, R282). -/
def useRingOrder (v : Nat) : Nat := objKey (0x6002 + 0x40 * v) 2
/-- 6002+40v:03 use.ctx (09_virtual_functions.md, R282). -/
def useCtx (v : Nat) : Nat := objKey (0x6002 + 0x40 * v) 3
/-- 6002+40v:04 use.class (09_virtual_functions.md, R282). -/
def useClass (v : Nat) : Nat := objKey (0x6002 + 0x40 * v) 4
/-- 6002+40v:05 use.share (09_virtual_functions.md, R282). -/
def useShare (v : Nat) : Nat := objKey (0x6002 + 0x40 * v) 5
/-- 6002+40v:06 use.mem (09_virtual_functions.md, R282). -/
def useMem (v : Nat) : Nat := objKey (0x6002 + 0x40 * v) 6
/-- 6002+40v:07 use.silt (09_virtual_functions.md, R282). -/
def useSilt (v : Nat) : Nat := objKey (0x6002 + 0x40 * v) 7
/-- 6002+40v:08 use.layers (09_virtual_functions.md, R282). -/
def useLayers (v : Nat) : Nat := objKey (0x6002 + 0x40 * v) 8
/-- 6002+40v:09 use.surfaces (09_virtual_functions.md, R282). -/
def useSurfaces (v : Nat) : Nat := objKey (0x6002 + 0x40 * v) 9
/-- 6002+40v:0A use.fences (09_virtual_functions.md, R282). -/
def useFences (v : Nat) : Nat := objKey (0x6002 + 0x40 * v) 10
/-- 6002+40v:0B use.progs (09_virtual_functions.md, R282). -/
def useProgs (v : Nat) : Nat := objKey (0x6002 + 0x40 * v) 11
/-- 6002+40v:0C use.haptic (09_virtual_functions.md, R282). -/
def useHaptic (v : Nat) : Nat := objKey (0x6002 + 0x40 * v) 12
/-- 6002+40v:0D use.streams (09_virtual_functions.md, R282). -/
def useStreams (v : Nat) : Nat := objKey (0x6002 + 0x40 * v) 13
/-- 6020+40v:01 mig.freeze (09_virtual_functions.md, R296). -/
def migFreeze (v : Nat) : Nat := objKey (0x6020 + 0x40 * v) 1
/-- 6020+40v:02 mig.state (09_virtual_functions.md, R296). -/
def migState (v : Nat) : Nat := objKey (0x6020 + 0x40 * v) 2
/-- 6020+40v:03 mig.ctx (09_virtual_functions.md, R296). -/
def migCtx (v : Nat) : Nat := objKey (0x6020 + 0x40 * v) 3
/-- 6020+40v:04 mig.addr (09_virtual_functions.md, R296). -/
def migAddr (v : Nat) : Nat := objKey (0x6020 + 0x40 * v) 4
/-- 6020+40v:05 mig.len (09_virtual_functions.md, R296). -/
def migLen (v : Nat) : Nat := objKey (0x6020 + 0x40 * v) 5
/-- 6020+40v:06 mig.op (09_virtual_functions.md, R296). -/
def migOp (v : Nat) : Nat := objKey (0x6020 + 0x40 * v) 6
/-- 6020+40v:07 mig.size (09_virtual_functions.md, R296). -/
def migSize (v : Nat) : Nat := objKey (0x6020 + 0x40 * v) 7
/-- 6020+40v:08 mig.result (09_virtual_functions.md, R296). -/
def migResult (v : Nat) : Nat := objKey (0x6020 + 0x40 * v) 8
/-- 6021+40v:01 log.enable (09_virtual_functions.md, R302). -/
def logEnable (v : Nat) : Nat := objKey (0x6021 + 0x40 * v) 1
/-- 6021+40v:02 log.base0 (09_virtual_functions.md, R302). -/
def logBase0 (v : Nat) : Nat := objKey (0x6021 + 0x40 * v) 2
/-- 6021+40v:03 log.base1 (09_virtual_functions.md, R302). -/
def logBase1 (v : Nat) : Nat := objKey (0x6021 + 0x40 * v) 3
/-- 6021+40v:04 log.lo (09_virtual_functions.md, R302). -/
def logLo (v : Nat) : Nat := objKey (0x6021 + 0x40 * v) 4
/-- 6021+40v:05 log.pages (09_virtual_functions.md, R302). -/
def logPages (v : Nat) : Nat := objKey (0x6021 + 0x40 * v) 5
/-- 6021+40v:06 log.swap (09_virtual_functions.md, R302). -/
def logSwap (v : Nat) : Nat := objKey (0x6021 + 0x40 * v) 6
/-- 6021+40v:07 log.active (09_virtual_functions.md, R302). -/
def logActive (v : Nat) : Nat := objKey (0x6021 + 0x40 * v) 7
/-- 6021+40v:08 log.seq (09_virtual_functions.md, R302). -/
def logSeq (v : Nat) : Nat := objKey (0x6021 + 0x40 * v) 8
/-- 6021+40v:09 log.out (09_virtual_functions.md, R302). -/
def logOut (v : Nat) : Nat := objKey (0x6021 + 0x40 * v) 9
/-- 6021+40v:0A log.state (09_virtual_functions.md, R302). -/
def logState (v : Nat) : Nat := objKey (0x6021 + 0x40 * v) 10
/-- 7000:01 world.restarts (10_trusted_and_open_worlds.md, R331). -/
def worldRestarts : Nat := objKey (0x7000) 1
/-- 7000:02 world.restart.last (10_trusted_and_open_worlds.md, R331). -/
def worldRestartLast : Nat := objKey (0x7000) 2
/-- 7000:03 world.restart.cause (10_trusted_and_open_worlds.md, R331). -/
def worldRestartCause : Nat := objKey (0x7000) 3
/-- 7000:04 world.restart.us (10_trusted_and_open_worlds.md, R331). -/
def worldRestartUs : Nat := objKey (0x7000) 4
/-- 7000:05 world.wdog (10_trusted_and_open_worlds.md, R331). -/
def worldWdog : Nat := objKey (0x7000) 5
/-- 7000:06 world.viol (10_trusted_and_open_worlds.md, R331). -/
def worldViol : Nat := objKey (0x7000) 6
/-- 7000:07 world.viol.last (10_trusted_and_open_worlds.md, R331). -/
def worldViolLast : Nat := objKey (0x7000) 7
/-- 7000:08 world.refused (10_trusted_and_open_worlds.md, R331). -/
def worldRefused : Nat := objKey (0x7000) 8
/-- 7000:09 world.refuse.log (10_trusted_and_open_worlds.md, R331). -/
def worldRefuseLog : Nat := objKey (0x7000) 9
/-- 7010:01–18 world.claim (10_trusted_and_open_worlds.md, R331). -/
def worldClaim (j : Nat) : Nat := objKey (0x7010) (1 + j)
/-- 7012:00 world.claim.kaolin (10_trusted_and_open_worlds.md, R331). -/
def worldClaimKaolin : Nat := objKey (0x7012) 0
/-- 7011:01–18 claim.hold (10_trusted_and_open_worlds.md, R331). -/
def claimHold (j : Nat) : Nat := objKey (0x7011) (1 + j)
/-- 7020:01–60 world.pin.t (10_trusted_and_open_worlds.md, R331). -/
def worldPinT (j : Nat) : Nat := objKey (0x7020) (1 + j)
/-- 7021:01–60 pin.t (10_trusted_and_open_worlds.md, R331). -/
def pinT (j : Nat) : Nat := objKey (0x7021) (1 + j)
/-- 7040:01–20 world.dma.t (10_trusted_and_open_worlds.md, R331). -/
def worldDmaT (j : Nat) : Nat := objKey (0x7040) (1 + j)
/-- 7041:01–20 dma.t (10_trusted_and_open_worlds.md, R331). -/
def dmaT (j : Nat) : Nat := objKey (0x7041) (1 + j)
/-- 7080:01 att.slots (10_trusted_and_open_worlds.md, R331). -/
def attSlots : Nat := objKey (0x7080) 1
/-- 7080:02 att.log (10_trusted_and_open_worlds.md, R331). -/
def attLog : Nat := objKey (0x7080) 2
/-- 7080:03 att.log.count (10_trusted_and_open_worlds.md, R331). -/
def attLogCount : Nat := objKey (0x7080) 3
/-- 7080:04 att.log.full (10_trusted_and_open_worlds.md, R331). -/
def attLogFull : Nat := objKey (0x7080) 4
/-- 7080:05 att.cert (10_trusted_and_open_worlds.md, R331). -/
def attCert : Nat := objKey (0x7080) 5
/-- 7081:01 att.nonce (10_trusted_and_open_worlds.md, R331). -/
def attNonce : Nat := objKey (0x7081) 1
/-- 7081:02 att.quote (10_trusted_and_open_worlds.md, R331). -/
def attQuote : Nat := objKey (0x7081) 2
/-- 4420+p:01 panel.enable (11_touch_sensing.md, R337). -/
def panelEnable (p : Nat) : Nat := objKey (0x4420 + p) 1
/-- 4420+p:02 panel.chips (11_touch_sensing.md, R337). -/
def panelChips (p : Nat) : Nat := objKey (0x4420 + p) 2
/-- 4420+p:03 panel.tx (11_touch_sensing.md, R337). -/
def panelTx (p : Nat) : Nat := objKey (0x4420 + p) 3
/-- 4420+p:04 panel.rx (11_touch_sensing.md, R337). -/
def panelRx (p : Nat) : Nat := objKey (0x4420 + p) 4
/-- 4420+p:05 panel.lines (11_touch_sensing.md, R337). -/
def panelLines (p : Nat) : Nat := objKey (0x4420 + p) 5
/-- 4420+p:06 panel.pitch.x (11_touch_sensing.md, R337). -/
def panelPitchX (p : Nat) : Nat := objKey (0x4420 + p) 6
/-- 4420+p:07 panel.pitch.y (11_touch_sensing.md, R337). -/
def panelPitchY (p : Nat) : Nat := objKey (0x4420 + p) 7
/-- 4420+p:08 panel.res.x (11_touch_sensing.md, R337). -/
def panelResX (p : Nat) : Nat := objKey (0x4420 + p) 8
/-- 4420+p:09 panel.res.y (11_touch_sensing.md, R337). -/
def panelResY (p : Nat) : Nat := objKey (0x4420 + p) 9
/-- 4420+p:0A panel.orient (11_touch_sensing.md, R337). -/
def panelOrient (p : Nat) : Nat := objKey (0x4420 + p) 10
/-- 4420+p:0B panel.thr (11_touch_sensing.md, R337). -/
def panelThr (p : Nat) : Nat := objKey (0x4420 + p) 11
/-- 4420+p:0C panel.stuck (11_touch_sensing.md, R337). -/
def panelStuck (p : Nat) : Nat := objKey (0x4420 + p) 12
/-- 4420+p:0D panel.boot.enable (11_touch_sensing.md, R337). -/
def panelBootEnable (p : Nat) : Nat := objKey (0x4420 + p) 13
/-- 4420+p:0E panel.drift.after (11_touch_sensing.md, R337). -/
def panelDriftAfter (p : Nat) : Nat := objKey (0x4420 + p) 14
/-- 4420+p:0F panel.drift.thr (11_touch_sensing.md, R337). -/
def panelDriftThr (p : Nat) : Nat := objKey (0x4420 + p) 15
/-- 4420+p:10 panel.hap.mask (11_touch_sensing.md, R337). -/
def panelHapMask (p : Nat) : Nat := objKey (0x4420 + p) 16
/-- 4420+p:11 panel.test.mode (11_touch_sensing.md, R337). -/
def panelTestMode (p : Nat) : Nat := objKey (0x4420 + p) 17
/-- 4420+p:12 panel.ref.tol (11_touch_sensing.md, R337). -/
def panelRefTol (p : Nat) : Nat := objKey (0x4420 + p) 18
/-- 4420+p:13 panel.raw.lo (11_touch_sensing.md, R337). -/
def panelRawLo (p : Nat) : Nat := objKey (0x4420 + p) 19
/-- 4420+p:14 panel.raw.hi (11_touch_sensing.md, R337). -/
def panelRawHi (p : Nat) : Nat := objKey (0x4420 + p) 20
/-- 4400:01 touch.rate (11_touch_sensing.md, R363). -/
def touchRate : Nat := objKey (0x4400) 1
/-- 4400:02 touch.lat.max (11_touch_sensing.md, R363). -/
def touchLatMax : Nat := objKey (0x4400) 2
/-- 4400:03 touch.lat.last (11_touch_sensing.md, R363). -/
def touchLatLast : Nat := objKey (0x4400) 3
/-- 4410+c:01 chip.state (11_touch_sensing.md, R363). -/
def chipState (c : Nat) : Nat := objKey (0x4410 + c) 1
/-- 4410+c:02 chip.panel (11_touch_sensing.md, R363). -/
def chipPanel (c : Nat) : Nat := objKey (0x4410 + c) 2
/-- 4410+c:03 chip.gen (11_touch_sensing.md, R363). -/
def chipGen (c : Nat) : Nat := objKey (0x4410 + c) 3
/-- 4410+c:04 chip.spares (11_touch_sensing.md, R363). -/
def chipSpares (c : Nat) : Nat := objKey (0x4410 + c) 4
/-- 4410+c:05 chip.map (11_touch_sensing.md, R363). -/
def chipMap (c : Nat) : Nat := objKey (0x4410 + c) 5
/-- 4410+c:06 chip.refcap (11_touch_sensing.md, R363). -/
def chipRefcap (c : Nat) : Nat := objKey (0x4410 + c) 6
/-- 4430+p:01 panel.state (11_touch_sensing.md, R363). -/
def panelState (p : Nat) : Nat := objKey (0x4430 + p) 1
/-- 4430+p:02 panel.contacts (11_touch_sensing.md, R363). -/
def panelContacts (p : Nat) : Nat := objKey (0x4430 + p) 2
/-- 4430+p:03 panel.suspect (11_touch_sensing.md, R363). -/
def panelSuspect (p : Nat) : Nat := objKey (0x4430 + p) 3
/-- 4430+p:04 panel.masked (11_touch_sensing.md, R363). -/
def panelMasked (p : Nat) : Nat := objKey (0x4430 + p) 4
/-- 4430+p:05 panel.frames (11_touch_sensing.md, R363). -/
def panelFrames (p : Nat) : Nat := objKey (0x4430 + p) 5
/-- 4430+p:06 panel.recal (11_touch_sensing.md, R363). -/
def panelRecal (p : Nat) : Nat := objKey (0x4430 + p) 6
/-- 4430+p:07 panel.stuck.count (11_touch_sensing.md, R363). -/
def panelStuckCount (p : Nat) : Nat := objKey (0x4430 + p) 7
/-- 4430+p:08 panel.palm (11_touch_sensing.md, R363). -/
def panelPalm (p : Nat) : Nat := objKey (0x4430 + p) 8
/-- 4430+p:09 panel.over (11_touch_sensing.md, R363). -/
def panelOver (p : Nat) : Nat := objKey (0x4430 + p) 9
/-- 4430+p:0A panel.freq (11_touch_sensing.md, R363). -/
def panelFreq (p : Nat) : Nat := objKey (0x4430 + p) 10
/-- 4430+p:0B panel.drift.wakes (11_touch_sensing.md, R363). -/
def panelDriftWakes (p : Nat) : Nat := objKey (0x4430 + p) 11
/-- 4430+p:0C panel.mark.ovf (11_touch_sensing.md, R363). -/
def panelMarkOvf (p : Nat) : Nat := objKey (0x4430 + p) 12
/-- 4440+p:01 panel.ref (11_touch_sensing.md, R363). -/
def panelRef (p : Nat) : Nat := objKey (0x4440 + p) 1
/-- 4440+p:02 panel.ref.capture (11_touch_sensing.md, R363). -/
def panelRefCapture (p : Nat) : Nat := objKey (0x4440 + p) 2
/-- 4440+p:03 panel.test.run (11_touch_sensing.md, R363). -/
def panelTestRun (p : Nat) : Nat := objKey (0x4440 + p) 3
/-- 4440+p:04 panel.test.result (11_touch_sensing.md, R363). -/
def panelTestResult (p : Nat) : Nat := objKey (0x4440 + p) 4
/-- 4440+p:05 panel.test.time (11_touch_sensing.md, R363). -/
def panelTestTime (p : Nat) : Nat := objKey (0x4440 + p) 5
/-- 4440+p:06 panel.mask.lines (11_touch_sensing.md, R363). -/
def panelMaskLines (p : Nat) : Nat := objKey (0x4440 + p) 6
/-- 4800:01 hap.enable (12_haptics_and_sound.md, R368). -/
def hapEnable : Nat := objKey (0x4800) 1
/-- 4800:02 hap.boot.enable (12_haptics_and_sound.md, R368). -/
def hapBootEnable : Nat := objKey (0x4800) 2
/-- 4800:03 hap.state (12_haptics_and_sound.md, R368). -/
def hapState : Nat := objKey (0x4800) 3
/-- 4800:04 hap.spare (12_haptics_and_sound.md, R368). -/
def hapSpare : Nat := objKey (0x4800) 4
/-- 4800:05 hap.rail (12_haptics_and_sound.md, R368). -/
def hapRail : Nat := objKey (0x4800) 5
/-- 4800:06 hap.gen (12_haptics_and_sound.md, R368). -/
def hapGen : Nat := objKey (0x4800) 6
/-- 4800:07 hap.limit (12_haptics_and_sound.md, R368). -/
def hapLimit : Nat := objKey (0x4800) 7
/-- 4810+n:01 ch.enable (12_haptics_and_sound.md, R369). -/
def chEnable (n : Nat) : Nat := objKey (0x4810 + n) 1
/-- 4810+n:02 ch.vmax (12_haptics_and_sound.md, R369). -/
def chVmax (n : Nat) : Nat := objKey (0x4810 + n) 2
/-- 4810+n:03 ch.cap (12_haptics_and_sound.md, R369). -/
def chCap (n : Nat) : Nat := objKey (0x4810 + n) 3
/-- 4810+n:04 ch.gain (12_haptics_and_sound.md, R369). -/
def chGain (n : Nat) : Nat := objKey (0x4810 + n) 4
/-- 4810+n:05 ch.sense (12_haptics_and_sound.md, R369). -/
def chSense (n : Nat) : Nat := objKey (0x4810 + n) 5
/-- 4810+n:06 ch.accel (12_haptics_and_sound.md, R369). -/
def chAccel (n : Nat) : Nat := objKey (0x4810 + n) 6
/-- 4810+n:07 ch.state (12_haptics_and_sound.md, R369). -/
def chState (n : Nat) : Nat := objKey (0x4810 + n) 7
/-- 4810+n:08 ch.driver (12_haptics_and_sound.md, R369). -/
def chDriver (n : Nat) : Nat := objKey (0x4810 + n) 8
/-- 4810+n:09 ch.sense.used (12_haptics_and_sound.md, R369). -/
def chSenseUsed (n : Nat) : Nat := objKey (0x4810 + n) 9
/-- 4810+n:0A ch.cap.meas (12_haptics_and_sound.md, R369). -/
def chCapMeas (n : Nat) : Nat := objKey (0x4810 + n) 10
/-- 4810+n:0B ch.trip (12_haptics_and_sound.md, R369). -/
def chTrip (n : Nat) : Nat := objKey (0x4810 + n) 11
/-- 4810+n:0C ch.trip.count (12_haptics_and_sound.md, R369). -/
def chTripCount (n : Nat) : Nat := objKey (0x4810 + n) 12
/-- 4810+n:0D ch.done (12_haptics_and_sound.md, R369). -/
def chDone (n : Nat) : Nat := objKey (0x4810 + n) 13
/-- 4810+n:0E ch.dropped (12_haptics_and_sound.md, R369). -/
def chDropped (n : Nat) : Nat := objKey (0x4810 + n) 14
/-- 4810+n:0F ch.duty (12_haptics_and_sound.md, R369). -/
def chDuty (n : Nat) : Nat := objKey (0x4810 + n) 15
/-- 4810+n:10 ch.sat (12_haptics_and_sound.md, R369). -/
def chSat (n : Nat) : Nat := objKey (0x4810 + n) 16
/-- 4810+n:11 ch.reset (12_haptics_and_sound.md, R369). -/
def chReset (n : Nat) : Nat := objKey (0x4810 + n) 17
/-- 4810+n:12 ch.gen (12_haptics_and_sound.md, R369). -/
def chGen (n : Nat) : Nat := objKey (0x4810 + n) 18
/-- 4810+n:13 ch.sense.fail (12_haptics_and_sound.md, R369). -/
def chSenseFail (n : Nat) : Nat := objKey (0x4810 + n) 19
/-- 4C00:01 snd.enable (12_haptics_and_sound.md, R389). -/
def sndEnable : Nat := objKey (0x4C00) 1
/-- 4C00:02 snd.boot.enable (12_haptics_and_sound.md, R389). -/
def sndBootEnable : Nat := objKey (0x4C00) 2
/-- 4C00:03 snd.state (12_haptics_and_sound.md, R389). -/
def sndState : Nat := objKey (0x4C00) 3
/-- 4C00:04 snd.rate (12_haptics_and_sound.md, R389). -/
def sndRate : Nat := objKey (0x4C00) 4
/-- 4C00:05 snd.locked (12_haptics_and_sound.md, R389). -/
def sndLocked : Nat := objKey (0x4C00) 5
/-- 4C00:06 snd.pto (12_haptics_and_sound.md, R389). -/
def sndPto : Nat := objKey (0x4C00) 6
/-- 4D00+o:01–40 mix.gain (12_haptics_and_sound.md, R389). -/
def mixGain (o j : Nat) : Nat := objKey (0x4D00 + o) (1 + j)
/-- 4D40+o:01 so.tdm (12_haptics_and_sound.md, R389). -/
def soTdm (o : Nat) : Nat := objKey (0x4D40 + o) 1
/-- 4D40+o:02 so.avtp (12_haptics_and_sound.md, R389). -/
def soAvtp (o : Nat) : Nat := objKey (0x4D40 + o) 2
/-- 4D40+o:03 so.gain (12_haptics_and_sound.md, R389). -/
def soGain (o : Nat) : Nat := objKey (0x4D40 + o) 3
/-- 4D40+o:04 so.clip (12_haptics_and_sound.md, R389). -/
def soClip (o : Nat) : Nat := objKey (0x4D40 + o) 4
/-- 4C10+i:01 in.owner (12_haptics_and_sound.md, R391). -/
def inOwner (i : Nat) : Nat := objKey (0x4C10 + i) 1
/-- 4C10+i:02 in.kind (12_haptics_and_sound.md, R391). -/
def inKind (i : Nat) : Nat := objKey (0x4C10 + i) 2
/-- 4C10+i:03 in.chans (12_haptics_and_sound.md, R391). -/
def inChans (i : Nat) : Nat := objKey (0x4C10 + i) 3
/-- 4C10+i:04 in.base (12_haptics_and_sound.md, R391). -/
def inBase (i : Nat) : Nat := objKey (0x4C10 + i) 4
/-- 4C10+i:05 in.frames (12_haptics_and_sound.md, R391). -/
def inFrames (i : Nat) : Nat := objKey (0x4C10 + i) 5
/-- 4C10+i:06 in.ctrl (12_haptics_and_sound.md, R391). -/
def inCtrl (i : Nat) : Nat := objKey (0x4C10 + i) 6
/-- 4C10+i:07 in.fmt (12_haptics_and_sound.md, R391). -/
def inFmt (i : Nat) : Nat := objKey (0x4C10 + i) 7
/-- 4C10+i:08 in.src (12_haptics_and_sound.md, R391). -/
def inSrc (i : Nat) : Nat := objKey (0x4C10 + i) 8
/-- 4C10+i:09 in.en (12_haptics_and_sound.md, R391). -/
def inEn (i : Nat) : Nat := objKey (0x4C10 + i) 9
/-- 4C10+i:0A in.gain (12_haptics_and_sound.md, R391). -/
def inGain (i : Nat) : Nat := objKey (0x4C10 + i) 10
/-- 4C10+i:0B in.state (12_haptics_and_sound.md, R391). -/
def inState (i : Nat) : Nat := objKey (0x4C10 + i) 11
/-- 4C10+i:0C in.xrun (12_haptics_and_sound.md, R391). -/
def inXrun (i : Nat) : Nat := objKey (0x4C10 + i) 12
/-- 9010+l:01 link.enable (13_agken_fabric.md, R405). -/
def linkEnable (l : Nat) : Nat := objKey (0x9010 + l) 1
/-- 9010+l:02 link.state (13_agken_fabric.md, R405). -/
def linkState (l : Nat) : Nat := objKey (0x9010 + l) 2
/-- 9010+l:03 link.lanes (13_agken_fabric.md, R405). -/
def linkLanes (l : Nat) : Nat := objKey (0x9010 + l) 3
/-- 9010+l:04 link.spare (13_agken_fabric.md, R405). -/
def linkSpare (l : Nat) : Nat := objKey (0x9010 + l) 4
/-- 9010+l:05 link.partner (13_agken_fabric.md, R405). -/
def linkPartner (l : Nat) : Nat := objKey (0x9010 + l) 5
/-- 9010+l:06 link.partner.addr (13_agken_fabric.md, R405). -/
def linkPartnerAddr (l : Nat) : Nat := objKey (0x9010 + l) 6
/-- 9010+l:07 link.partner.link (13_agken_fabric.md, R405). -/
def linkPartnerLink (l : Nat) : Nat := objKey (0x9010 + l) 7
/-- 9010+l:08 link.replay (13_agken_fabric.md, R405). -/
def linkReplay (l : Nat) : Nat := objKey (0x9010 + l) 8
/-- 9010+l:09 link.retrain (13_agken_fabric.md, R405). -/
def linkRetrain (l : Nat) : Nat := objKey (0x9010 + l) 9
/-- 9010+l:0A link.downs (13_agken_fabric.md, R405). -/
def linkDowns (l : Nat) : Nat := objKey (0x9010 + l) 10
/-- 9010+l:0B link.gen (13_agken_fabric.md, R405). -/
def linkGen (l : Nat) : Nat := objKey (0x9010 + l) 11
/-- 9010+l:0C link.pix.res (13_agken_fabric.md, R405). -/
def linkPixRes (l : Nat) : Nat := objKey (0x9010 + l) 12
/-- 9000:01 fab.state (13_agken_fabric.md, R412). -/
def fabState : Nat := objKey (0x9000) 1
/-- 9000:02 fab.addr (13_agken_fabric.md, R412). -/
def fabAddr : Nat := objKey (0x9000) 2
/-- 9000:03 fab.addr.want (13_agken_fabric.md, R412). -/
def fabAddrWant : Nat := objKey (0x9000) 3
/-- 9000:04 fab.addr.prev (13_agken_fabric.md, R412). -/
def fabAddrPrev : Nat := objKey (0x9000) 4
/-- 9000:05 fab.root (13_agken_fabric.md, R412). -/
def fabRoot : Nat := objKey (0x9000) 5
/-- 9000:06 fab.root.serial (13_agken_fabric.md, R412). -/
def fabRootSerial : Nat := objKey (0x9000) 6
/-- 9000:07 fab.nodes (13_agken_fabric.md, R412). -/
def fabNodes : Nat := objKey (0x9000) 7
/-- 9000:08 fab.topo.gen (13_agken_fabric.md, R412). -/
def fabTopoGen : Nat := objKey (0x9000) 8
/-- 9000:09 fab.time (13_agken_fabric.md, R412). -/
def fabTime : Nat := objKey (0x9000) 9
/-- 9000:0A fab.time.err (13_agken_fabric.md, R412). -/
def fabTimeErr : Nat := objKey (0x9000) 10
/-- 9000:0B fab.pix.max (13_agken_fabric.md, R412). -/
def fabPixMax : Nat := objKey (0x9000) 11
/-- 9000:0C fab.spread.margin (13_agken_fabric.md, R412). -/
def fabSpreadMargin : Nat := objKey (0x9000) 12
/-- 9000:0D fab.spread.hold (13_agken_fabric.md, R412). -/
def fabSpreadHold : Nat := objKey (0x9000) 13
/-- 9000:0E fab.dict.mgr (13_agken_fabric.md, R412). -/
def fabDictMgr : Nat := objKey (0x9000) 14
/-- 9000:0F fab.drop (13_agken_fabric.md, R412). -/
def fabDrop : Nat := objKey (0x9000) 15
/-- 9001:01–08 fab.port.lend (13_agken_fabric.md, R412). -/
def fabPortLend (j : Nat) : Nat := objKey (0x9001) (1 + j)
/-- 9030:01–40 fab.node.serial (13_agken_fabric.md, R412). -/
def fabNodeSerial (j : Nat) : Nat := objKey (0x9030) (1 + j)
/-- 9020:01–40 fab.route (13_agken_fabric.md, R414). -/
def fabRoute (j : Nat) : Nat := objKey (0x9020) (1 + j)
/-- 9020:41 fab.route.gen (13_agken_fabric.md, R414). -/
def fabRouteGen : Nat := objKey (0x9020) 65
/-- 9200+s:01 spread.enable (13_agken_fabric.md, R418). -/
def spreadEnable (s : Nat) : Nat := objKey (0x9200 + s) 1
/-- 9200+s:02 spread.mode (13_agken_fabric.md, R418). -/
def spreadMode (s : Nat) : Nat := objKey (0x9200 + s) 2
/-- 9200+s:03 spread.w (13_agken_fabric.md, R418). -/
def spreadW (s : Nat) : Nat := objKey (0x9200 + s) 3
/-- 9200+s:04 spread.h (13_agken_fabric.md, R418). -/
def spreadH (s : Nat) : Nat := objKey (0x9200 + s) 4
/-- 9200+s:05 spread.bg (13_agken_fabric.md, R418). -/
def spreadBg (s : Nat) : Nat := objKey (0x9200 + s) 5
/-- 9200+s:06 spread.lead (13_agken_fabric.md, R418). -/
def spreadLead (s : Nat) : Nat := objKey (0x9200 + s) 6
/-- 9200+s:07 spread.commit (13_agken_fabric.md, R418). -/
def spreadCommit (s : Nat) : Nat := objKey (0x9200 + s) 7
/-- 9200+s:08 spread.commit.pend (13_agken_fabric.md, R418). -/
def spreadCommitPend (s : Nat) : Nat := objKey (0x9200 + s) 8
/-- 9200+s:09 spread.state (13_agken_fabric.md, R418). -/
def spreadState (s : Nat) : Nat := objKey (0x9200 + s) 9
/-- 9200+s:0A spread.frame (13_agken_fabric.md, R418). -/
def spreadFrame (s : Nat) : Nat := objKey (0x9200 + s) 10
/-- 9200+s:0B spread.late (13_agken_fabric.md, R418). -/
def spreadLate (s : Nat) : Nat := objKey (0x9200 + s) 11
/-- 9200+s:0C spread.vfreg (13_agken_fabric.md, R418). -/
def spreadVfreg (s : Nat) : Nat := objKey (0x9200 + s) 12
/-- 9300+10s+m:01 sm.serial (13_agken_fabric.md, R418). -/
def smSerial (s m : Nat) : Nat := objKey (0x9300 + 0x10 * s + m) 1
/-- 9300+10s+m:02 sm.port (13_agken_fabric.md, R418). -/
def smPort (s m : Nat) : Nat := objKey (0x9300 + 0x10 * s + m) 2
/-- 9300+10s+m:03 sm.xy (13_agken_fabric.md, R418). -/
def smXy (s m : Nat) : Nat := objKey (0x9300 + 0x10 * s + m) 3
/-- 9300+10s+m:04 sm.hint (13_agken_fabric.md, R418). -/
def smHint (s m : Nat) : Nat := objKey (0x9300 + 0x10 * s + m) 4
/-- 9300+10s+m:05 sm.place (13_agken_fabric.md, R418). -/
def smPlace (s m : Nat) : Nat := objKey (0x9300 + 0x10 * s + m) 5
/-- 9300+10s+m:06 sm.hint.kept (13_agken_fabric.md, R418). -/
def smHintKept (s m : Nat) : Nat := objKey (0x9300 + 0x10 * s + m) 6
/-- 9300+10s+m:07 sm.state (13_agken_fabric.md, R418). -/
def smState (s m : Nat) : Nat := objKey (0x9300 + 0x10 * s + m) 7
/-- 9300+10s+m:08 sm.skew (13_agken_fabric.md, R418). -/
def smSkew (s m : Nat) : Nat := objKey (0x9300 + 0x10 * s + m) 8
/-- 9300+10s+m:09 sm.late (13_agken_fabric.md, R418). -/
def smLate (s m : Nat) : Nat := objKey (0x9300 + 0x10 * s + m) 9
/-- 8010+d:01 dom.state (14_power_and_startup.md, R437). -/
def domState (d : Nat) : Nat := objKey (0x8010 + d) 1
/-- 8010+d:02 dom.hold (14_power_and_startup.md, R437). -/
def domHold (d : Nat) : Nat := objKey (0x8010 + d) 2
/-- 8010+d:03 dom.tw (14_power_and_startup.md, R437). -/
def domTw (d : Nat) : Nat := objKey (0x8010 + d) 3
/-- 8010+d:04 dom.users (14_power_and_startup.md, R437). -/
def domUsers (d : Nat) : Nat := objKey (0x8010 + d) 4
/-- 8010+d:05 dom.gen (14_power_and_startup.md, R437). -/
def domGen (d : Nat) : Nat := objKey (0x8010 + d) 5
/-- 8010+d:06 dom.ups (14_power_and_startup.md, R437). -/
def domUps (d : Nat) : Nat := objKey (0x8010 + d) 6
/-- 8000:01 pwr.mode (14_power_and_startup.md, R441). -/
def pwrMode : Nat := objKey (0x8000) 1
/-- 8000:02 pwr.req (14_power_and_startup.md, R441). -/
def pwrReq : Nat := objKey (0x8000) 2
/-- 8000:03 pwr.reset (14_power_and_startup.md, R441). -/
def pwrReset : Nat := objKey (0x8000) 3
/-- 8000:04 pwr.cause (14_power_and_startup.md, R441). -/
def pwrCause : Nat := objKey (0x8000) 4
/-- 8000:05 pwr.tt.first (14_power_and_startup.md, R441). -/
def pwrTtFirst : Nat := objKey (0x8000) 5
/-- 8000:06 pwr.host.avail (14_power_and_startup.md, R441). -/
def pwrHostAvail : Nat := objKey (0x8000) 6
/-- 8000:07 pwr.in (14_power_and_startup.md, R441). -/
def pwrIn : Nat := objKey (0x8000) 7
/-- 8000:08 pwr.draw (14_power_and_startup.md, R441). -/
def pwrDraw : Nat := objKey (0x8000) 8
/-- 8000:09 pwr.wake.can (14_power_and_startup.md, R441). -/
def pwrWakeCan : Nat := objKey (0x8000) 9
/-- 8000:0A pwr.wake.pins (14_power_and_startup.md, R441). -/
def pwrWakePins : Nat := objKey (0x8000) 10
/-- 8000:0B pwr.reset.roles (14_power_and_startup.md, R441). -/
def pwrResetRoles : Nat := objKey (0x8000) 11
/-- 8000:0C pwr.emerg (14_power_and_startup.md, R441). -/
def pwrEmerg : Nat := objKey (0x8000) 12
/-- 8200:01–0A therm.temp (14_power_and_startup.md, R453). -/
def thermTemp (j : Nat) : Nat := objKey (0x8200) (1 + j)
/-- 8201:01 therm.throttle (14_power_and_startup.md, R453). -/
def thermThrottle : Nat := objKey (0x8201) 1
/-- 8201:02 therm.crit (14_power_and_startup.md, R453). -/
def thermCrit : Nat := objKey (0x8201) 2
/-- 8201:03 therm.shut (14_power_and_startup.md, R453). -/
def thermShut : Nat := objKey (0x8201) 3
/-- 8201:04 therm.level (14_power_and_startup.md, R453). -/
def thermLevel : Nat := objKey (0x8201) 4
/-- 8201:05 therm.throttles (14_power_and_startup.md, R453). -/
def thermThrottles : Nat := objKey (0x8201) 5
/-- 8100:01 clk.islands (15_clock_islands_and_crossings.md, R462). -/
def clkIslands : Nat := objKey (0x8100) 1
/-- 8100:02 clk.stall (15_clock_islands_and_crossings.md, R462). -/
def clkStall : Nat := objKey (0x8100) 2
/-- 8100:03 clk.ovf (15_clock_islands_and_crossings.md, R462). -/
def clkOvf : Nat := objKey (0x8100) 3
/-- 8100:04 clk.ovf.last (15_clock_islands_and_crossings.md, R462). -/
def clkOvfLast : Nat := objKey (0x8100) 4
/-- 8110+i:01 isl.name (15_clock_islands_and_crossings.md, R462). -/
def islName (i : Nat) : Nat := objKey (0x8110 + i) 1
/-- 8110+i:02 isl.nominal (15_clock_islands_and_crossings.md, R462). -/
def islNominal (i : Nat) : Nat := objKey (0x8110 + i) 2
/-- 8110+i:03 isl.clock (15_clock_islands_and_crossings.md, R462). -/
def islClock (i : Nat) : Nat := objKey (0x8110 + i) 3
/-- 8110+i:04 isl.domain (15_clock_islands_and_crossings.md, R462). -/
def islDomain (i : Nat) : Nat := objKey (0x8110 + i) 4
/-- 8110+i:05 isl.gate (15_clock_islands_and_crossings.md, R462). -/
def islGate (i : Nat) : Nat := objKey (0x8110 + i) 5
/-- 8110+i:06 isl.rate (15_clock_islands_and_crossings.md, R462). -/
def islRate (i : Nat) : Nat := objKey (0x8110 + i) 6
/-- A000:01 health.module (16_grog_spares_and_health.md, R482). -/
def healthModule : Nat := objKey (0xA000) 1
/-- A000:02 health.diag (16_grog_spares_and_health.md, R482). -/
def healthDiag : Nat := objKey (0xA000) 2
/-- A000:03 health.starts (16_grog_spares_and_health.md, R482). -/
def healthStarts : Nat := objKey (0xA000) 3
/-- A001:01–08 health.sub (16_grog_spares_and_health.md, R482). -/
def healthSub (j : Nat) : Nat := objKey (0xA001) (1 + j)
/-- A002:01–07 health.spares (16_grog_spares_and_health.md, R482). -/
def healthSpares (j : Nat) : Nat := objKey (0xA002) (1 + j)
/-- A003:01–07 health.low (16_grog_spares_and_health.md, R482). -/
def healthLow (j : Nat) : Nat := objKey (0xA003) (1 + j)
/-- A100:01 grog.log (16_grog_spares_and_health.md, R482). -/
def grogLog : Nat := objKey (0xA100) 1
/-- A100:02 grog.log.seq (16_grog_spares_and_health.md, R482). -/
def grogLogSeq : Nat := objKey (0xA100) 2
/-- A100:03 grog.log.skip (16_grog_spares_and_health.md, R482). -/
def grogLogSkip : Nat := objKey (0xA100) 3
/-- A100:04 grog.map (16_grog_spares_and_health.md, R482). -/
def grogMap : Nat := objKey (0xA100) 4
/-- A100:05 grog.retest (16_grog_spares_and_health.md, R482). -/
def grogRetest : Nat := objKey (0xA100) 5
/-- A100:06 grog.subst (16_grog_spares_and_health.md, R482). -/
def grogSubst : Nat := objKey (0xA100) 6
/-- A110:01–10 mram.spare (16_grog_spares_and_health.md, R482). -/
def mramSpare (j : Nat) : Nat := objKey (0xA110) (1 + j)
/-- A110:11 mram.spared (16_grog_spares_and_health.md, R482). -/
def mramSpared : Nat := objKey (0xA110) 17
/-- A110:12 mram.wear.max (16_grog_spares_and_health.md, R482). -/
def mramWearMax : Nat := objKey (0xA110) 18
/-- F000:01 diag.enable (16_grog_spares_and_health.md, R482). -/
def diagEnable : Nat := objKey (0xF000) 1
/-- 8400+n:01 sp.func (17_module_and_connectors.md, R500). -/
def spFunc (n : Nat) : Nat := objKey (0x8400 + n) 1
/-- 8400+n:02 sp.pull (17_module_and_connectors.md, R500). -/
def spPull (n : Nat) : Nat := objKey (0x8400 + n) 2
/-- 8400+n:03 sp.out (17_module_and_connectors.md, R500). -/
def spOut (n : Nat) : Nat := objKey (0x8400 + n) 3
/-- 8400+n:04 sp.boot.out (17_module_and_connectors.md, R500). -/
def spBootOut (n : Nat) : Nat := objKey (0x8400 + n) 4
/-- 8400+n:05 sp.in (17_module_and_connectors.md, R500). -/
def spIn (n : Nat) : Nat := objKey (0x8400 + n) 5
/-- 8400+n:06 sp.pwm.freq (17_module_and_connectors.md, R500). -/
def spPwmFreq (n : Nat) : Nat := objKey (0x8400 + n) 6
/-- 8400+n:07 sp.pwm.duty (17_module_and_connectors.md, R500). -/
def spPwmDuty (n : Nat) : Nat := objKey (0x8400 + n) 7
/-- 8400+n:08 sp.pwm.boot (17_module_and_connectors.md, R500). -/
def spPwmBoot (n : Nat) : Nat := objKey (0x8400 + n) 8
/-- 8400+n:09 sp.edge (17_module_and_connectors.md, R500). -/
def spEdge (n : Nat) : Nat := objKey (0x8400 + n) 9
/-- 8400+n:0A sp.count (17_module_and_connectors.md, R500). -/
def spCount (n : Nat) : Nat := objKey (0x8400 + n) 10
/-- 8400+n:0B sp.stamp (17_module_and_connectors.md, R500). -/
def spStamp (n : Nat) : Nat := objKey (0x8400 + n) 11
/-- 8400+n:0C sp.safe (17_module_and_connectors.md, R500). -/
def spSafe (n : Nat) : Nat := objKey (0x8400 + n) 12
/-- 8400+n:0D sp.filter (17_module_and_connectors.md, R500). -/
def spFilter (n : Nat) : Nat := objKey (0x8400 + n) 13
/-- A010:01 dict.store.bad (01_rinula_object_dictionary.md, R22). -/
def dictStoreBad : Nat := objKey (0xA010) 1
/-- A010:02 dict.rx.bad (01_rinula_object_dictionary.md, R37). -/
def dictRxBad : Nat := objKey (0xA010) 2
/-- A010:03 dict.notify.drop (01_rinula_object_dictionary.md, R39). -/
def dictNotifyDrop : Nat := objKey (0xA010) 3
/-- A011:01 reg.vote.fix (02_fast_path_registers.md, R68). -/
def regVoteFix : Nat := objKey (0xA011) 1
/-- A011:02 reg.vote.bad (02_fast_path_registers.md, R68). -/
def regVoteBad : Nat := objKey (0xA011) 2
/-- A011:03 reg.write.lost (02_fast_path_registers.md, R69). -/
def regWriteLost : Nat := objKey (0xA011) 3
/-- 7500+n:01–10 kaolin.palette (05_kaolin_safety_plane.md, R145). -/
def kaolinPalette (n j : Nat) : Nat := objKey (0x7500 + n) (1 + j)
/-- 7600:01 kaolin.boot.lo (05_kaolin_safety_plane.md, R167). -/
def kaolinBootLo : Nat := objKey (0x7600) 1
/-- 7600:02 kaolin.boot.hi (05_kaolin_safety_plane.md, R167). -/
def kaolinBootHi : Nat := objKey (0x7600) 2
/-- A012:01 kaolin.can.drop (05_kaolin_safety_plane.md, R159). -/
def kaolinCanDrop : Nat := objKey (0xA012) 1
/-- 6008+40v+q:01 region.port (09_virtual_functions.md, R287). -/
def regionPort (v q : Nat) : Nat := objKey (0x6008 + 0x40 * v + q) 1
/-- 6008+40v+q:02 region.origin (09_virtual_functions.md, R287). -/
def regionXy (v q : Nat) : Nat := objKey (0x6008 + 0x40 * v + q) 2
/-- 6008+40v+q:03 region.size (09_virtual_functions.md, R287). -/
def regionWh (v q : Nat) : Nat := objKey (0x6008 + 0x40 * v + q) 3
/-- 6010+40v+q:01 touch.region.port (09_virtual_functions.md, R287). -/
def tregionPort (v q : Nat) : Nat := objKey (0x6010 + 0x40 * v + q) 1
/-- 6010+40v+q:02 touch.region.origin (09_virtual_functions.md, R287). -/
def tregionXy (v q : Nat) : Nat := objKey (0x6010 + 0x40 * v + q) 2
/-- 6010+40v+q:03 touch.region.size (09_virtual_functions.md, R287). -/
def tregionWh (v q : Nat) : Nat := objKey (0x6010 + 0x40 * v + q) 3
/-- 4480+8p+z:01 zone.enable (11_touch_sensing.md, R364). -/
def zoneEnable (p z : Nat) : Nat := objKey (0x4480 + 0x8 * p + z) 1
/-- 4480+8p+z:02 zone.xy (11_touch_sensing.md, R364). -/
def zoneXy (p z : Nat) : Nat := objKey (0x4480 + 0x8 * p + z) 2
/-- 4480+8p+z:03 zone.wh (11_touch_sensing.md, R364). -/
def zoneWh (p z : Nat) : Nat := objKey (0x4480 + 0x8 * p + z) 3
/-- 4480+8p+z:04 zone.effect (11_touch_sensing.md, R364). -/
def zoneEffect (p z : Nat) : Nat := objKey (0x4480 + 0x8 * p + z) 4
/-- 4480+8p+z:05 zone.chan (11_touch_sensing.md, R364). -/
def zoneChan (p z : Nat) : Nat := objKey (0x4480 + 0x8 * p + z) 5
/-- 4480+8p+z:06 zone.run (11_touch_sensing.md, R364). -/
def zoneRun (p z : Nat) : Nat := objKey (0x4480 + 0x8 * p + z) 6
/-- 4900+e:01 shale.name (12_haptics_and_sound.md, R370). -/
def shaleName (e : Nat) : Nat := objKey (0x4900 + e) 1
/-- 4900+e:02 shale.attack (12_haptics_and_sound.md, R370). -/
def shaleAttack (e : Nat) : Nat := objKey (0x4900 + e) 2
/-- 4900+e:03 shale.sustain (12_haptics_and_sound.md, R370). -/
def shaleSustain (e : Nat) : Nat := objKey (0x4900 + e) 3
/-- 4900+e:04 shale.brake (12_haptics_and_sound.md, R370). -/
def shaleBrake (e : Nat) : Nat := objKey (0x4900 + e) 4
/-- 4900+e:05 shale.peak (12_haptics_and_sound.md, R370). -/
def shalePeak (e : Nat) : Nat := objKey (0x4900 + e) 5
/-- 4C60+c:01 cap.owner (12_haptics_and_sound.md, R391). -/
def capOwner (c : Nat) : Nat := objKey (0x4C60 + c) 1
/-- 4C60+c:02 cap.kind (12_haptics_and_sound.md, R391). -/
def capKind (c : Nat) : Nat := objKey (0x4C60 + c) 2
/-- 4C60+c:03 cap.chans (12_haptics_and_sound.md, R391). -/
def capChans (c : Nat) : Nat := objKey (0x4C60 + c) 3
/-- 4C60+c:04 cap.base (12_haptics_and_sound.md, R391). -/
def capBase (c : Nat) : Nat := objKey (0x4C60 + c) 4
/-- 4C60+c:05 cap.frames (12_haptics_and_sound.md, R391). -/
def capFrames (c : Nat) : Nat := objKey (0x4C60 + c) 5
/-- 4C60+c:06 cap.ctrl (12_haptics_and_sound.md, R391). -/
def capCtrl (c : Nat) : Nat := objKey (0x4C60 + c) 6
/-- 4C60+c:07 cap.fmt (12_haptics_and_sound.md, R391). -/
def capFmt (c : Nat) : Nat := objKey (0x4C60 + c) 7
/-- 4C60+c:08 cap.src (12_haptics_and_sound.md, R391). -/
def capSrc (c : Nat) : Nat := objKey (0x4C60 + c) 8
/-- 4C60+c:09 cap.en (12_haptics_and_sound.md, R391). -/
def capEn (c : Nat) : Nat := objKey (0x4C60 + c) 9
/-- 4C60+c:0A cap.gain (12_haptics_and_sound.md, R391). -/
def capGain (c : Nat) : Nat := objKey (0x4C60 + c) 10
/-- 4C60+c:0B cap.state (12_haptics_and_sound.md, R391). -/
def capState (c : Nat) : Nat := objKey (0x4C60 + c) 11
/-- 4C60+c:0C cap.xrun (12_haptics_and_sound.md, R391). -/
def capXrun (c : Nat) : Nat := objKey (0x4C60 + c) 12
/-- 4D80+p:01 tdm.enable (12_haptics_and_sound.md, R396). -/
def tdmEnable (p : Nat) : Nat := objKey (0x4D80 + p) 1
/-- 4E00:01 chime.outputs (12_haptics_and_sound.md, R399). -/
def chimeOutputs : Nat := objKey (0x4E00) 1
/-- 4E00:02 chime.duck (12_haptics_and_sound.md, R399). -/
def chimeDuck : Nat := objKey (0x4E00) 2
/-- 4E00:03 chime.level (12_haptics_and_sound.md, R399). -/
def chimeLevel : Nat := objKey (0x4E00) 3
/-- 4E01:01–10 chime.clip (12_haptics_and_sound.md, R398). -/
def chimeClip (j : Nat) : Nat := objKey (0x4E01) (1 + j)
/-- 4E10:00 chime.state (12_haptics_and_sound.md, R399). -/
def chimeState : Nat := objKey (0x4E10) 0
/-- 9100:00 fab.relay (13_agken_fabric.md, R417). -/
def fabRelay : Nat := objKey (0x9100) 0
/-- 9400+10s+k:01 spread.layer.owner (13_agken_fabric.md, R421). -/
def spreadLayerOwner (s k : Nat) : Nat := objKey (0x9400 + 0x10 * s + k) 1
/-- 9400+10s+k:02 spread.layer.enable (13_agken_fabric.md, R421). -/
def spreadLayerEnable (s k : Nat) : Nat := objKey (0x9400 + 0x10 * s + k) 2
/-- 9400+10s+k:03 spread.layer.surface (13_agken_fabric.md, R421). -/
def spreadLayerSurface (s k : Nat) : Nat := objKey (0x9400 + 0x10 * s + k) 3
/-- 9400+10s+k:04 spread.layer.src.xy (13_agken_fabric.md, R421). -/
def spreadLayerSrcXy (s k : Nat) : Nat := objKey (0x9400 + 0x10 * s + k) 4
/-- 9400+10s+k:05 spread.layer.src.wh (13_agken_fabric.md, R421). -/
def spreadLayerSrcWh (s k : Nat) : Nat := objKey (0x9400 + 0x10 * s + k) 5
/-- 9400+10s+k:06 spread.layer.dst.xy (13_agken_fabric.md, R421). -/
def spreadLayerDstXy (s k : Nat) : Nat := objKey (0x9400 + 0x10 * s + k) 6
/-- 9400+10s+k:07 spread.layer.dst.wh (13_agken_fabric.md, R421). -/
def spreadLayerDstWh (s k : Nat) : Nat := objKey (0x9400 + 0x10 * s + k) 7
/-- 9400+10s+k:08 spread.layer.blend (13_agken_fabric.md, R421). -/
def spreadLayerBlend (s k : Nat) : Nat := objKey (0x9400 + 0x10 * s + k) 8
/-- 9400+10s+k:09 spread.layer.alpha (13_agken_fabric.md, R421). -/
def spreadLayerAlpha (s k : Nat) : Nat := objKey (0x9400 + 0x10 * s + k) 9
/-- 9400+10s+k:0A spread.layer.matrix (13_agken_fabric.md, R421). -/
def spreadLayerMatrix (s k : Nat) : Nat := objKey (0x9400 + 0x10 * s + k) 10
/-- 9400+10s+k:0B spread.layer.rot (13_agken_fabric.md, R421). -/
def spreadLayerRot (s k : Nat) : Nat := objKey (0x9400 + 0x10 * s + k) 11
/-- 4800:08 hap.ilk (17_module_and_connectors.md, R507). -/
def hapIlk : Nat := objKey (0x4800) 8
/-- 4800:09 acc.cmd (17_module_and_connectors.md, R508). -/
def accCmd : Nat := objKey (0x4800) 9
/-- 4800:0A acc.lsb (17_module_and_connectors.md, R508). -/
def accLsb : Nat := objKey (0x4800) 10

end Sys2Proof.Machine.K
end

