-- ==== Sys2Proof/Machine/Records.lean ====
section
/-!
DEFINITION. The records that State holds, block by block: what the spec gives the machine beside the values of its
dictionary objects. Every record is plain data with a reset value.
-/

namespace Sys2Proof.Machine

/-! ## The dictionary engine -/

/-- A dictionary object that differs from its default, or that a write has reached: value and change counter (R20). -/
structure ObjCell where
  val : Val
  ctr : Nat := 0
  deriving DecidableEq, Repr, Inhabited

/-- One of the two MRAM copies of a stored object: sequence number, value, whether its CRC-32 is correct (R21). -/
structure MramCopy where
  seq : Nat := 0
  val : Val := .num 0
  ok : Bool := true
  deriving DecidableEq, Repr, Inhabited

/-- The two MRAM copies of a stored object. -/
structure MramObj where
  a : MramCopy
  b : MramCopy
  deriving DecidableEq, Repr, Inhabited

/-- The roles of Table DI-5, and the trusted world (R307). -/
inductive Role where
  | mgr | vf | obs | sb | tw
  deriving DecidableEq, Repr, Inhabited

/-- The role's code (Table DI-5); the trusted world has none and reads 0. -/
def Role.code : Role → Nat
  | .mgr => 1 | .vf => 2 | .obs => 3 | .sb => 4 | .tw => 0

/-- The status codes of Table DI-6. -/
inductive Status where
  | ok | busy | intransit | claimed | range | access | noobj | stale | lease | full
  deriving DecidableEq, Repr, Inhabited

/-- The status's code (Table DI-6). -/
def Status.code : Status → Nat
  | .ok => 0 | .busy => 1 | .intransit => 2 | .claimed => 3 | .range => 4 | .access => 5 | .noobj => 6 | .stale => 7
  | .lease => 8 | .full => 9

/-- A response PDU (Tables DI-7, DI-8). -/
structure Response where
  op : Nat
  session : Nat
  seq : Nat
  status : Status
  more : Bool := false
  aux : Nat := 0
  payload : List Byte := []
  deriving DecidableEq, Repr, Inhabited

/-- A NOTIFY PDU's content (Table DI-8). -/
structure Note where
  code : Nat
  source : Nat
  time : Nat
  detail : List Byte
  deriving DecidableEq, Repr, Inhabited

/-- An unfinished segmented write of a session: the counter at its first segment, its total, the segments so far (R35). -/
structure SegWrite where
  key : Nat
  ctr : Nat
  total : Nat
  segs : List (Nat × List Byte)
  deriving DecidableEq, Repr, Inhabited

/-- A session slot (R27 to R29, R34, R39, R528). -/
structure Session where
  isOpen : Bool := false
  gen : Nat := 0
  role : Role := .obs
  func : Nat := 0
  src : Option Carrier := none
  tag : Nat := 0
  lease : Nat := 0
  renewed : Nat := 0
  mask : Nat := 0
  notes : List Note := []
  noteSent : Option (List Byte) := none
  cache : List (Nat × Response) := []
  reads : List (Nat × Nat) := []
  writes : List SegWrite := []
  nonce : Option (List Byte) := none
  quote : List Byte := []
  signing : Bool := false
  relayDest : Option Nat := none
  relayReply : Option (List Byte) := none
  relayWait : Bool := false
  deriving DecidableEq, Repr, Inhabited

/-- The dictionary portal of a function (R41, R53, Tables DI-10, DI-11): PORTAL_STAT's flags, PORTAL_REQ_LEN and PORTAL_RSP_LEN, the
bytes written to the request area and those of the response area (the rest of an area is zeros), and the response of the
request being executed with the VFs whose reset it waits for (R286). -/
structure Portal where
  done : Bool := false
  active : Bool := false
  reject : Bool := false
  reqLen : Nat := 0
  rspLen : Nat := 0
  req : List Byte := []
  rsp : List Byte := []
  waiting : Option (List Byte) := none
  awaits : List Nat := []
  deriving DecidableEq, Repr, Inhabited

/-- The side-band's segment assembly: the number of the next segment and the bytes so far (R44). -/
structure CanRx where
  next : Nat := 0
  bytes : List Byte := []
  deriving DecidableEq, Repr, Inhabited

/-- A side-band event frame that waits for the bus (R45, R159): whether it is a Kaolin frame, and its content. -/
structure EventFrame where
  kaolin : Bool
  note : Note
  deriving DecidableEq, Repr, Inhabited

/-! ## The fast path -/

/-- A function's BAR0 state that no object holds (R52, R56, R65 to R72). -/
structure Func where
  epoch : Nat := 0
  lost : Bool := false
  evtUntil : Nat := 0
  snapUntil : Nat := 0
  evtPend : Nat := 0
  evtMask : Nat := 0xFFFFFFFF
  maskCopies : Option (Nat × Nat) := none
  evtVec : Tab Nat := []
  snapSel : Nat := 0
  snapErr : Bool := false
  snapTag : Nat := 0
  snapVal : Nat := 0
  msix : Tab Nat := []
  msixCopies : Tab (Nat × Nat) := []
  pba : Nat := 0
  sent : Tab Nat := []
  dropped : Nat := 0
  flrSince : Option Nat := none
  flrDone : Bool := false
  flrUs : Nat := 0
  spoofed : Bool := false
  deriving DecidableEq, Repr, Inhabited

/-- A command that a completion will answer: the function and epoch it was fetched in (R62), the ring's count of disables then, its
ring, the ring's fetch count, its opcode, tag and flags (Table FP-5). -/
structure Ticket where
  func : Nat
  epoch : Nat
  era : Nat := 0
  ring : Nat
  local_ : Nat
  index : Nat
  op : Nat
  tag : Nat
  complete : Bool
  irq : Bool
  deriving DecidableEq, Repr, Inhabited

/-- A completion that waits for space in its queue (R64): ticket, status, result, detail. -/
structure HeldCompletion where
  ticket : Ticket
  status : Nat
  result : Nat
  detail : Nat
  deriving DecidableEq, Repr, Inhabited

/-- A wait that holds its ring (R231, R232): fence slot, the handle's generation, value, instant of its failure. -/
structure HeldWait where
  ticket : Ticket
  slot : Nat
  value : Nat
  failAt : Option Nat
  deriving DecidableEq, Repr, Inhabited

/-- A ring's state that no object holds (Table FP-4, R55 to R64, R295), how often it was disabled, and the frame of its last DRAW_SUBMIT
with the fetch count at which that frame began (R188). -/
structure Ring where
  era : Nat := 0
  head : Nat := 0
  tail : Nat := 0
  cqTail : Nat := 0
  cqHead : Nat := 0
  drop : Nat := 0
  dberr : Bool := false
  stopped : Bool := false
  order : Nat := 8
  resize : Option Nat := none
  fetched : Nat := 0
  completed : Nat := 0
  wait : Option HeldWait := none
  dropUntilWait : Bool := false
  dropFrame : Option Nat := none
  frame : Option (Nat × Nat) := none
  held : List HeldCompletion := []
  deriving DecidableEq, Repr, Inhabited

/-- A FENCE_SIGNAL that waits for earlier work of its ring (R230): ticket, fence handle, value. -/
structure HeldSignal where
  ticket : Ticket
  handle : Nat
  value : Nat
  deriving DecidableEq, Repr, Inhabited

/-! ## Programs and passes (R170 to R205) -/

/-- The translated code of a program (R171, R173): its SPIR-V and entry point, stage, registers per thread, whether it is late, the
lengths of its instruction groups, its located inputs and outputs as (location, words, interpolation), the binding slots that it
declares, the threads of a workgroup and the bytes of Workgroup storage. -/
structure Code where
  code : List Byte
  entry : List Byte
  stage : Nat
  regs : Nat := 16
  late : Bool := false
  groups : List Nat := []
  inputs : List (Nat × Nat × Nat) := []
  outputs : List (Nat × Nat × Nat) := []
  slots : List Nat := []
  threads : Nat := 1
  storage : Nat := 0
  deriving DecidableEq, Repr, Inhabited

/-- A surface as a pass uses it: its handle and, from its allocation, format, layout, width and height. -/
structure Shape where
  handle : Nat := 0
  fmt : Nat := 1
  layout : Nat := 0
  width : Nat := 0
  height : Nat := 0
  deriving DecidableEq, Repr, Inhabited

/-- A binding in force (Table TP-5): kind, the surface if it names one, the byte offset there or the host address, the size of a buffer,
filter, address modes, colour matrix. -/
structure Bind where
  kind : Nat
  shape : Option Shape := none
  off : Nat := 0
  size : Nat := 0
  filter : Nat := 0
  address : Nat := 0
  matrix : Nat := 0
  deriving DecidableEq, Repr, Inhabited

/-- The state that RASTER sets (Table TP-5), as R180 has it at the start; a scissor of width 0 is the render area. -/
structure Raster where
  cull : Nat := 0
  front : Nat := 0
  depthFn : Nat := 1
  depthWrite : Bool := true
  stencil : Bool := false
  stencilFn : Nat := 0
  ref : Nat := 0
  readMask : Nat := 0
  writeMask : Nat := 0
  failOp : Nat := 0
  dfailOp : Nat := 0
  passOp : Nat := 0
  scissor : Nat × Nat × Nat × Nat := (0, 0, 0, 0)
  deriving DecidableEq, Repr, Inhabited

/-- A DRAW record with the state in force (R180, R181): programs, bindings, viewport (x, y, w, h, zmin, zmax as binary32), raster
state, per target blend mode and write mask, topology, index size, count, first, instances, index buffer, base vertex, first
instance. -/
structure DrawCall where
  vertex : Code
  fragment : Option Code
  binds : Tab Bind
  viewport : List (BitVec 32)
  raster : Raster
  blend : List (Nat × Nat)
  strip : Bool
  indexSize : Nat
  count : Nat
  first : Nat
  instances : Nat
  index : Bind
  base : Int
  firstInst : Nat
  deriving DecidableEq, Repr, Inhabited

/-- A DISPATCH record with the state in force: program, bindings, workgroup counts. -/
structure DispatchCall where
  code : Code
  binds : Tab Bind
  x : Nat
  y : Nat
  z : Nat
  deriving DecidableEq, Repr, Inhabited

/-- A vertex of a binned primitive: window position in 1/256 pixel, depth, clip w, varying words as values (R183). -/
structure Vert where
  x : Int
  y : Int
  z : ℚ
  w : ℚ
  attr : List ℚ
  deriving DecidableEq, Repr, Inhabited

/-- A binned primitive: the DRAW it belongs to, its instance, its vertices, the varying words of its provoking vertex, whether it faces
front (R182 to R185). -/
structure Prim where
  draw : Nat
  inst : Nat
  a : Vert
  b : Vert
  c : Vert
  flat : List (BitVec 32)
  front : Bool
  deriving DecidableEq, Repr, Inhabited

/-- A sample in tile memory (R178): the word it holds of each target, its depth and its stencil. -/
structure Sample where
  pix : List Nat := []
  depth : ℚ := 1
  stencil : Nat := 0
  deriving DecidableEq, Repr, Inhabited

/-- A stopped unit in the save area (R225): its number, the KiB it takes, the tile memory and the primitive its walk had reached, or the
instruction group at which its threads stopped. -/
structure Spill where
  n : Nat
  kib : Nat
  tile : List Sample := []
  position : Nat := 0
  boundary : Nat := 0
  deriving DecidableEq, Repr, Inhabited

/-! ## Contexts and cores -/

/-- A pass or compute list that a context holds: its ticket and frame, the reference and length of its list and whether the list has
been read; its samples, load mask, depth and colour to clear to; the host addresses that the
function's translation refuses; the handles it names, its targets, the surfaces that it writes
and that its geometry reads, its area (x, y, w, h); its DRAW records, the DISPATCH records still to come and the one running; the
binned primitives and per touched tile their numbers, the Silt bytes; whether a fragment program holds a read-write binding; its
phase (0 waits for the front end, 1 binned, 2 runs), the next tile or workgroup and how many there are, those to run again, those
spilled, how many run, how many have ended, poisoned words, when it began, the time preempted since, and since when all its units
are spilled. -/
structure Pass where
  id : Nat
  ticket : Ticket
  compute : Bool
  frame : Nat
  list : Nat := 0
  len : Nat := 0
  parsed : Bool := false
  samples : Nat := 1
  load : Nat := 0
  depth : Nat := 0
  clear : Nat := 0
  hostBad : List (Nat × Nat) := []
  handles : List Nat
  targets : List Shape
  writes : List Nat
  reads : List Nat
  area : Nat × Nat × Nat × Nat
  draws : List DrawCall := []
  later : List DispatchCall := []
  dispatch : Option DispatchCall := none
  tris : List Prim := []
  bins : List (List Nat) := []
  silt : Nat
  rw : Bool
  phase : Nat := 0
  next : Nat := 0
  total : Nat
  again : List Nat := []
  spilled : List Spill := []
  running : Nat := 0
  ended : Nat := 0
  poison : Nat := 0
  began : Nat := 0
  away : Nat := 0
  awaySince : Option Nat := none
  deriving DecidableEq, Repr, Inhabited

/-- A context's state that no object holds: its passes in the order fetched, the frame of its last pass (R190), the frame an
overflow drops (R188), STOPPING (R214), the rank unit of its Silt pool (R236). -/
structure Ctx where
  passes : List Pass := []
  lastFrame : Option Nat := none
  dropFrame : Option Nat := none
  stopping : Bool := false
  unit : Option Nat := none
  deriving DecidableEq, Repr, Inhabited

/-- What a core runs: a tile or a workgroup of a pass of a context, or a tile of a compositor row of a port. -/
inductive Work where
  | unit (ctx pass n : Nat) (compute : Bool)
  | row (port row tile : Nat)
  deriving DecidableEq, Repr, Inhabited

/-- A core: its work and since when, the other workgroups of the same DISPATCH that are resident beside it (R203), its tile memory
(R192), whether it is lent (R219), the context it is being preempted for, 0 the compositor (R222, R223), since when it has no
work. -/
structure Core where
  work : Option Work := none
  more : List Nat := []
  tile : List Sample := []
  since : Nat := 0
  lent : Bool := false
  preemptFor : Option Nat := none
  idleSince : Nat := 0
  deriving DecidableEq, Repr, Inhabited

/-! ## Composition and scan-out -/

/-- The shadowed values of one layer (subindices 02 to 0C, R87, R121). -/
structure LayerSet where
  enable : Bool := false
  surface : Nat := 0
  srcXY : Nat := 0
  srcWH : Nat := 0
  dstXY : Nat := 0
  dstWH : Nat := 0
  blend : Nat := 0
  alpha : Nat := 255
  matrix : Nat := 0
  rot : Nat := 0
  hint : Nat := 0
  deriving DecidableEq, Repr, Inhabited

/-- The shadowed output-level values (R121). -/
structure OutSet where
  slip : Bool := false
  bg : Nat := 0
  lead : Nat := 384
  deriving DecidableEq, Repr, Inhabited

/-- What a port's layers and output-level objects show: the active copy, or the copy captured at a close point. -/
structure ShownSet where
  layers : List LayerSet := List.replicate 6 {}
  out : OutSet := {}
  deriving DecidableEq, Repr, Inhabited

/-- Tilth's plan for an output (R92 to R96): the run's highest layer, the demand of the output and of its compose stream in MB/s, and per
layer its demand, its path and whether its hint is kept. -/
structure RunPlan where
  top : Option Nat := none
  demand : Nat := 0
  stream : Nat := 0
  layerDemand : List Nat := List.replicate 6 0
  path : List Nat := List.replicate 6 0
  kept : List Bool := List.replicate 6 true
  deriving DecidableEq, Repr, Inhabited

/-- One slot of a compose-buffer row: ready flag and frame tag (R97). -/
structure RowSlot where
  ready : Bool := false
  tag : Nat := 0
  deriving DecidableEq, Repr, Inhabited

/-- A tile row (R97 to R99): its two slots, the slot scan-out holds, the slot and frame C0 composes, whether the row of that
frame is eligible and waits for its first core, its tiles not started, running, and to run again after a core's fault (R209), and
the last frame whose prefetch point has passed. -/
structure TileRow where
  s0 : RowSlot := {}
  s1 : RowSlot := {}
  held : Option Nat := none
  composing : Option (Nat × Nat) := none
  waiting : Option Nat := none
  eligibleAt : Nat := 0
  unstarted : Nat := 0
  running : Nat := 0
  again : List Nat := []
  prefetched : Option Nat := none
  deriving DecidableEq, Repr, Inhabited

/-- The Kaolin shadow-set values of one rectangle (R148). -/
structure KRect where
  enable : Bool := false
  src : Nat := 0
  stride : Nat := 8
  xy : Nat := 0
  wh : Nat := 0
  mode : Nat := 1
  sigOn : Nat := 0
  sigOff : Nat := 0
  deriving DecidableEq, Repr, Inhabited

/-- An output's Kaolin set (R151). -/
structure KSet where
  enable : Bool := false
  blinkOn : Nat := 500
  blinkOff : Nat := 500
  palette : List Nat := List.replicate 16 0
  rects : List KRect := List.replicate 32 {}
  deriving DecidableEq, Repr, Inhabited

/-- What a port that is not in steady running does: nothing; waiting for its domains; training its link for a start; running
its frame to VBS before a transition; sending black frames; training for the new timing; waiting for a spare engine before the
timing may open; waiting between an opening take and line 0. -/
inductive PortPhase where
  | idle
  | waitDomains
  | trainStart
  | toVbs
  | black (left : Nat)
  | trainNew
  | waitSpare
  | waitLine0
  deriving DecidableEq, Repr, Inhabited

/-- A port's state that no object holds (R106 to R140, R147, R151 to R158). -/
structure Port where
  phase : PortPhase := .idle
  hpd : Bool := false
  engine : Option Nat := none
  frame : Nat := 0
  lastTake : Nat := 0
  inBlank : Bool := true
  line : Nat := 0
  lineTime : Nat := 0
  stoppedPos : Nat := 0
  runMode : Nat := 0xFF
  -- commits
  closed : Bool := false
  latched : Nat := 0
  late : Nat := 0
  lateOps : Nat := 0
  after : Nat := 0
  captured : ShownSet := {}
  active : ShownSet := {}
  plan : RunPlan := {}
  next : RunPlan := {}
  rows : Tab TileRow := []
  muted : Nat := 0
  muteDue : Nat := 0
  -- where the compose buffer lies (rank unit, offset), and the VFs' screen regions in force (function, origin, size)
  buf : Option (Nat × Nat) := none
  regions : List (Nat × Nat × Nat) := []
  -- the frame: when its line 0 began, streams that underran (line, stream, first pixel), rectangles compared
  frameAt : Nat := 0
  under : List (Nat × Nat × Nat) := []
  compared : List Nat := []
  -- frame counts
  underLines : List Nat := []
  lateRows : Nat := 0
  bgRows : Nat := 0
  doneSent : Bool := true
  matched : Bool := false
  -- link
  trainRate : Nat := 0
  retried : Bool := false
  onTiming : Bool := false
  everTrained : Bool := false
  retryAt : Nat := 0
  -- transitions
  cause : Nat := 0
  oldMode : Nat := 0xFF
  gap : Bool := false
  gapTold : Bool := false
  linkFailed : Bool := false
  -- substitution: the spare to bind, whether its self-test is still awaited
  spare : Option Nat := none
  -- Kaolin
  kpend : Bool := false
  klatched : Bool := false
  klate : Nat := 0
  kafter : Bool := false
  kcaptured : KSet := {}
  kactive : KSet := {}
  blinkSeen : Nat := 0
  sigSent : Tab Nat := []
  sigBad : List Nat := []
  cutGap : Bool := false
  -- the restart after a claimed domain was let go (R437, R440)
  shed : Bool := false
  -- OFF for want of an engine (R139)
  noEngine : Bool := false
  deriving DecidableEq, Repr, Inhabited

/-- A COMMIT command that some port has not taken (R128): ticket, per port the bits still to be taken and whether it was
late, the masks of ports done, the lowest port named and the frame it shows from. -/
structure PendingCommit where
  ticket : Ticket
  waits : List (Nat × Nat × Bool)
  onTime : Nat
  lateMask : Nat
  lowest : Nat
  frame : Nat
  deriving DecidableEq, Repr, Inhabited

/-- A surface slot's state that no object holds: its generation, its rank unit and byte offset there, whether an FLR's release
waits for the active layers, the time of its last balance move (R74, R81, R104, R237). -/
structure Surf where
  gen : Nat := 0
  unit : Nat := 0
  base : Nat := 0
  flrRelease : Bool := false
  movedAt : Option Nat := none
  deriving DecidableEq, Repr, Inhabited

/-- The memory of a released surface that is not yet overwritten (R81): slot, handle, owner, rank unit, offset, size. -/
structure Scrub where
  slot : Nat
  handle : Nat
  owner : Nat
  unit : Nat
  base : Nat
  size : Nat
  deriving DecidableEq, Repr, Inhabited

/-- Tilth's balance moves (R237): consecutive seconds of imbalance, when the traffic was last measured, the move running (slot,
unit, offset there), and before when it cannot be done at tilth.move.rate. -/
structure Balance where
  seconds : Nat := 0
  measured : Nat := 0
  move : Option (Nat × Nat × Nat) := none
  due : Nat := 0
  deriving DecidableEq, Repr, Inhabited

/-! ## Memory (R243 to R277) -/

/-- A running rank retirement (R266): the rank, its spare, the cause, when it began; phase 0 the spare's group trains, 1 the
spare is tested, 2 it is filled; the blocks of 64 KiB copied, when the last of them was, and the words handed over as poison. -/
structure Migration where
  rank : Nat
  spare : Nat
  cause : Nat
  began : Nat
  phase : Nat := 0
  copied : Nat := 0
  copiedAt : Nat := 0
  lost : Nat := 0
  deriving DecidableEq, Repr, Inhabited

/-- The memory controller's state that no object holds: the migration, ranks that wait for one with their causes (R265), the
words whose stored form injection corrupted and the writes still to corrupt (R277), the memory log (R261), per rank its 60
buckets of word addresses, newest first (R260), the second of its last logged transient, its last MEM_POISON and the words
poisoned since; the patrol's position per group in words; ranks in power-down, per rank its last access and refresh; the
last word delivered (R256). -/
structure Mem where
  migr : Option Migration := none
  due : List (Nat × Nat) := []
  injected : List Nat := []
  injLeft : Nat := 0
  log : List (List Byte) := []
  buckets : Tab (List (List Nat)) := []
  bucketAt : Nat := 0
  transAt : Tab Nat := []
  poisonAt : Tab Nat := []
  poisoned : Tab Nat := []
  patrol : Tab Nat := []
  wokeAt : Tab Nat := []
  asleep : List Nat := []
  access : Tab Nat := []
  refreshed : Tab Nat := []
  out : Option (Option (List Byte)) := none
  deriving DecidableEq, Repr, Inhabited

/-! ## Haptics (R366 to R386) -/

/-- A copy of an effect on a channel: its number, the function that started it (65 for the module), the panel of a touch zone,
the command it belongs to, effect, class, scale, OVERLAY, the instant by which it must have begun, the instant it is due. -/
structure Effect where
  id : Nat
  func : Nat
  panel : Nat := 0xFF
  play : Option Nat := none
  effect : Nat
  cls : Nat
  scale : Nat := 100
  overlay : Bool := false
  deadline : Option Nat := none
  due : Nat
  deriving DecidableEq, Repr, Inhabited

/-- An output's channel: the running effect, when its attack and its braking began, the queue and since when its head is its
head, effects not yet due, the drive-on intervals ended, when a probe is due, a driver substitution that waits for the next
IDLE with the outcome of the spare's self-test, whether the rail's limit has held the running effect's drive (R519), whether ch.sat has
counted the effect, and the drive voltage in µV (R367). -/
structure Chan where
  run : Option Effect := none
  started : Nat := 0
  braked : Nat := 0
  queue : List Effect := []
  headAt : Nat := 0
  waits : List Effect := []
  ons : List (Nat × Nat) := []
  probeAt : Option Nat := none
  spareDue : Option Bool := none
  limited : Bool := false
  counted : Bool := false
  drive : Nat := 0
  accel : Int := 0
  deriving DecidableEq, Repr, Inhabited

/-- A HAPTIC_PLAY whose copies have not all ended (R372): its number, ticket, channels left, channels ended DONE and
otherwise, the highest outcome code. -/
structure Play where
  id : Nat
  ticket : Ticket
  left : List Nat
  done : Nat := 0
  other : Nat := 0
  worst : Nat := 0
  deriving DecidableEq, Repr, Inhabited

/-- The ZH-17: its channels, the commands in progress, the next number of an effect or command, and what the rail gave out of late: from
when, until when and how many mW, the latest first (R519). -/
structure Hap where
  chans : Tab Chan := []
  plays : List Play := []
  next : Nat := 0
  rail : List (Nat × Nat × Nat) := []
  deriving DecidableEq, Repr, Inhabited

/-! ## Touch (R334 to R365) -/

/-- A contact (R347 to R352): its ID, peak node, nodes, position as two sums over a weight, the VF it belongs to, the peak node
that its stuck timer started from and when, its peak signal, its report coordinates, whether its peak is suspect. -/
structure Contact where
  id : Nat
  peak : Nat
  nodes : List Nat
  nx : ℚ
  ny : ℚ
  func : Option Nat
  ref : Nat
  since : Nat
  sig : ℚ
  x : Nat
  y : Nat
  suspect : Bool
  deriving DecidableEq, Repr

/-- A function's report buffer on a panel (R354 to R356): the command's ticket, address, slots, reports written, the PALM flag
last reported, whether the next report is the first after a wake. -/
structure TouchBuffer where
  ticket : Ticket
  addr : Nat
  slots : Nat
  count : Nat := 0
  palm : Bool := false
  wake : Bool := false
  deriving DecidableEq, Repr, Inhabited

/-- A panel (R338 to R363): per node (mutual nodes TX-major, then self lines) its baseline and last raw count; suspect nodes with
their quiet frames (R346); nodes being recalibrated with the raw counts averaged (R342); contacts, large objects and objects
beyond ten by their nodes; contacts ended by the stuck timeout and not yet reported; buffers by function; the last frame
mark, since when there is no contact; the Drift baselines and crossings by group; panel.stuck as the timers use it; whether
a self-test runs, whether the next frame is the first after a wake; per chiplet the channel to be checked next. -/
structure Panel where
  base : List ℚ := []
  raw : List Nat := []
  sus : Tab Nat := []
  recal : Tab (Nat × Option Nat) := []
  contacts : List Contact := []
  large : List (List Nat) := []
  overs : List (List Nat) := []
  stuck : List Contact := []
  bufs : Tab TouchBuffer := []
  markAt : Nat := 0
  quietSince : Nat := 0
  dbase : List ℚ := []
  dover : List Nat := []
  driftAt : Nat := 0
  limit : Nat := 0
  testing : Bool := false
  woke : Bool := false
  chanNext : Tab Nat := []
  deriving DecidableEq, Repr

/-! ## Sound (R388 to R401) -/

/-- The audio engine: frames consumed per running input, frames written per running capture, the start of the last period,
listeners' late counts and late runs, their packets held for play by presentation time, talkers' packets sent with the last
one's presentation time and instant; the chime's clip, repeats (0 continuous) and start; per gain object the amplitude a ramp starts
from and when (R389); per input the host samples of the period; chimes ended of late with their end; the frames last formed of each output
and TDM slot, and each talker's last packet. -/
structure Snd where
  rd : Tab Nat := []
  wr : Tab Nat := []
  periodAt : Nat := 0
  late : Tab Nat := []
  lateRun : List Nat := []
  held : Tab (List (Nat × List (BitVec 24))) := []
  sent : Tab (Nat × Nat × Nat) := []
  chime : Option (Nat × Nat × Nat) := none
  ramps : Tab (ℚ × Nat) := []
  taken : Tab (List Int) := []
  past : List (Nat × Nat × Nat × Nat) := []
  out : Tab (List Int) := []
  tdm : Tab (List Int) := []
  packets : Tab (List Int) := []
  deriving DecidableEq, Repr, Inhabited

/-! ## The fabric (R402 to R432) -/

/-- A link's state that no object holds: the last flit, its falls, the end of a hold, the next attempt of a FAILED link, a
retrain in progress and the link sequence number last acknowledged, the packets in the replay buffer, those that wait to be sent, in
order of arrival, the next link sequence number, per class the credits in use and the bytes sent since the link came up (of PIXEL its
payload), the bytes of DICT and SURF sent while both waited, since when the link is up and when its last packet is out, the offset
measured to the partner and its error in ns, the lane order that training found reversed and the pairs it found inverted (R497). -/
structure LinkSt where
  rxAt : Nat := 0
  falls : List Nat := []
  heldUntil : Nat := 0
  retryAt : Nat := 0
  retrain : Bool := false
  ack : Nat := 0
  out : List Packet := []
  wait : List Packet := []
  txSeq : Nat := 0
  spent : List Nat := List.replicate 4 0
  sent : List Nat := List.replicate 4 0
  dict : Nat := 0
  surf : Nat := 0
  upAt : Nat := 0
  freeAt : Nat := 0
  offset : Int := 0
  err : Nat := 0
  reversed : Bool := false
  inverted : List Nat := []
  deriving DecidableEq, Repr, Inhabited

/-- A spread's shown set: its layers, background and row lead. -/
structure SpreadSet where
  layers : List LayerSet := List.replicate 6 {}
  bg : Nat := 0
  lead : Nat := 384
  deriving DecidableEq, Repr, Inhabited

/-- A spread's state that no object holds: whether its close point has passed, the bits latched and those late, the late
operations, the captured and active sets, members that were lost, per member the frames of excess skew. -/
structure SpreadSt where
  closed : Bool := false
  latched : Nat := 0
  late : Nat := 0
  lateOps : Nat := 0
  captured : SpreadSet := {}
  active : SpreadSet := {}
  lost : List Nat := []
  skewed : Tab Nat := []
  deriving DecidableEq, Repr, Inhabited

/-- The fabric: the links, the link-state records of other modules, the own record's sequence number, the last new record, the
offset of fabric time, the address kept in MRAM for the next run, since when a module is unreachable, the spreads. -/
structure Fab where
  links : Tab LinkSt := []
  records : List LinkRecord := []
  seq : Nat := 0
  lastRec : Nat := 0
  offset : Int := 0
  lastAddr : Nat := 0xFF
  gone : List (Nat × Nat) := []
  spreads : Tab SpreadSt := []
  deriving DecidableEq, Repr, Inhabited

/-! ## The worlds (R306 to R333) -/

/-- A general-purpose DMA channel: its registers and FIFO, and whether it is transferring (R313, R314). -/
structure DmaChan where
  regs : List Byte := []
  fifo : List Byte := []
  busy : Bool := false
  deriving DecidableEq, Repr, Inhabited

/-- The trusted world: the zeros that the last refused read returned (R310), the call gate of Table WO-3 (arguments, buffer and its length, service, BUSY, DONE, RESULT, NRES), the
instant of the last T_VIOLATION, the measurement slots and the attestation log with its count, whether a lone restart has
run since the cold start, the starts of lone restarts, whether the start in progress is the cold start's, the watchdog's last
kick and next value, Ehrica SRAM, whether the key store holds keys, whether the RWT objects were loaded at this start, the
DMA channels. -/
structure World where
  zeroRead : List Byte := []
  args : List Nat := List.replicate 8 0
  bufLen : Nat := 0
  buf : Memory := []
  svc : Nat := 0
  busy : Bool := false
  done : Bool := false
  result : Nat := 0
  nres : Nat := 0
  violAt : Option Nat := none
  slots : List (List Byte) := List.replicate 8 (List.replicate 48 0)
  log : List (List Byte) := []
  count : Nat := 0
  lone : Bool := false
  starts : List Nat := []
  cold : Bool := true
  kickAt : Nat := 0
  nextKick : Nat := 0x5A
  esram : Memory := []
  keys : Bool := false
  rwt : Bool := false
  dma : Tab DmaChan := []
  deriving DecidableEq, Repr, Inhabited

/-! ## Side pins (R500 to R505) -/

/-- A side pin: what drives it (0 high impedance with its pull-down, 1 its sp.safe, 2 its record), the PWM frequency and duty in
force until an instant at which the written ones take effect, and the events of its crossing to island 4 not yet taken, with
the overflow flag and the lost count (R467). -/
structure Pin where
  stage : Nat := 0
  freqWas : Nat := 20000
  dutyWas : Nat := 0
  newFrom : Nat := 0
  periodAt : Nat := 0
  events : Nat := 0
  overflow : Bool := false
  lost : Nat := 0
  deriving DecidableEq, Repr, Inhabited

/-! ## Migration (R297 to R301) -/

/-- The module-internal content of an image section: a context with its writable context and Silt subindices and its record; or a ring with its subindices 03 to 0B, its record and its FENCE_SIGNALs that wait. -/
inductive ImageBody where
  | context (objs : List (Nat × Nat)) (state : Ctx)
  | ring (objs : List (Nat × Nat)) (ring : Ring) (signals : List HeldSignal)
  deriving DecidableEq, Repr, Inhabited

/-- A VF's image transfer: 1 SAVE or 2 RESTORE, the context or 0xFF, the address, the bytes, the result it ends with. -/
structure Mig where
  op : Nat := 0
  ctx : Nat := 0xFF
  addr : Nat := 0
  image : List Byte := []
  result : Nat := 0
  deriving DecidableEq, Repr, Inhabited

/-! ## Power (R433 to R459) -/

/-- A host port's link: its width, 0 while down; lanes reversed; lanes with inverted polarity; whether it runs from the host's reference
clock (R493). -/
structure HostLink where
  width : Nat := 0
  reversed : Bool := false
  inverted : Nat := 0
  commonClock : Bool := false
  deriving DecidableEq, Repr, Inhabited

/-- The power supervisor's state that no object holds: power good, whether a supply change was seen, the throttling in force; domains that wait to ramp in order of arrival (R435), the step of Table
PW-4 that a start has reached, the instant it is counted from, the Kaolin load, under way or owed (R167), host availability (R450), tests that
the Grog manager runs (R453, R475), claim entries in NOTICE with their cut instants and in CUT (R321, R322), the emergencies
in force and since when, the cuts of PD01 and PD02, the thermal timers, since when the input lies below 8.5 V, below 7.5 V and
in the operating range, reset, standby and wake, the step of R442 that a shut-down has reached, the deassertions of PERST# of H0 and H1 and the links that they trained. -/
structure Power where
  good : Bool := false
  seen : Bool := false
  throttle : Nat := 0
  ramp : List Nat := []
  step : Nat := 0
  start : Nat := 0
  loading : Bool := false
  avail : Bool := false
  tests : List Nat := []
  notice : List (Nat × Nat) := []
  cut : List Nat := []
  noLoad : Bool := false
  thermal : Nat := 0
  supply : Nat := 0
  thermalAt : Nat := 0
  supplyAt : Nat := 0
  pd02Cut : Bool := false
  pd01Cut : Bool := false
  hotSince : Option Nat := none
  coolSince : Option Nat := none
  critSince : Option Nat := none
  lowSince : Option Nat := none
  low2Since : Option Nat := none
  okSince : Option Nat := none
  resetAt : Option Nat := none
  resetOff : Option Nat := none
  standbyFrom : Option Nat := none
  wakeQueued : Bool := false
  down : Nat := 0
  perst0 : Option Nat := none
  perst1 : Option Nat := none
  link0 : HostLink := {}
  link1 : HostLink := {}
  loadDue : Bool := false
  deriving DecidableEq, Repr, Inhabited

/-! ## Grog (R471 to R482) -/

/-- What the Grog manager keeps in MRAM across starts: unit states, the replacement of each retired unit and the unit that serves
each place, by class × 2^20 + unit (R476), the log and its counts (R482), the substitutions, the starts, and of MRAM rows, by bank × 4096 + row, the writes and
the spare row in use, the rows that no spare row could take (R479), and by bank × 2048 + row the row that wear levelling has moved a row's
content to (R480). -/
structure Grog where
  units : Tab Nat := []
  repl : Tab Nat := []
  place : Tab Nat := []
  log : List (List Byte) := []
  seq : Nat := 0
  skip : Nat := 0
  subst : Nat := 0
  starts : Nat := 0
  rowWrites : Tab Nat := []
  rowSpare : Tab Nat := []
  spareUsed : Tab Nat := []
  spared : Nat := 0
  badRows : List Nat := []
  rowAt : Tab Nat := []
  gens : Tab Nat := []
  deriving DecidableEq, Repr, Inhabited

end Sys2Proof.Machine
end

