-- ==== Sys2Proof/Machine/RingWords.lean ====
section
/-!
DEFINITION. The 64 bytes of a ring command: the header of Table FP-5 and the payload that each opcode of Table FP-6 has, written
(`CmdHdr.bytes`, the payloads' `bytes`) and read back (`decodeCmd`, R60).
-/

namespace Sys2Proof

/-! ## Writing -/

/-- The command's header (Table FP-5). -/
def CmdHdr.bytes (h : CmdHdr) (op : Nat) : List Byte :=
  leBytes 1 op ++ leBytes 1 h.flags.toNat ++ leBytes 2 h.tag.toNat ++ leBytes 1 h.func.toNat ++ leBytes 1 h.ctx.toNat
    ++ leBytes 1 h.hwring.toNat ++ leBytes 1 0 ++ leBytes 4 h.surface.toNat ++ leBytes 4 0

/-- A rectangle as x, y, w, h, each U16. -/
def Rect.bytes (r : Rect) : List Byte := leBytes 2 r.x.toNat ++ leBytes 2 r.y.toNat ++ leBytes 2 r.w.toNat ++ leBytes 2 r.h.toNat

/-- A fence command's payload (Table CT-5). -/
def fenceBytes (fence timeout : BitVec 32) (value : BitVec 64) : List Byte :=
  leBytes 4 fence.toNat ++ leBytes 4 timeout.toNat ++ leBytes 8 value.toNat ++ leBytes 32 0

/-- The DRAW_SUBMIT payload (Table TP-4). -/
def DrawPayload.bytes (p : DrawPayload) : List Byte :=
  leBytes 8 p.list.toNat ++ leBytes 4 p.len.toNat ++ leBytes 4 p.frame.toNat ++ p.area.bytes ++ leBytes 4 p.target1.toNat
    ++ leBytes 4 p.target2.toNat ++ leBytes 4 p.target3.toNat ++ leBytes 1 p.samples.toNat ++ leBytes 1 p.load.toNat
    ++ leBytes 1 p.depth.toNat ++ leBytes 1 p.zero.toNat ++ leBytes 8 p.clear.toNat

/-- The COMPUTE_DISPATCH payload (Table TP-7). -/
def dispatchBytes (list : BitVec 64) (len : BitVec 32) (zero : BitVec 288) : List Byte :=
  leBytes 8 list.toNat ++ leBytes 4 len.toNat ++ leBytes 36 zero.toNat

/-- The COPY payload (Table CM-4). -/
def CopyPayload.bytes (p : CopyPayload) : List Byte :=
  leBytes 1 p.kind.toNat ++ leBytes 3 0 ++ leBytes 4 p.src.toNat ++ leBytes 8 p.host.toNat ++ leBytes 4 p.pitch.toNat ++ p.rect.bytes
    ++ leBytes 2 p.sx.toNat ++ leBytes 2 p.sy.toNat ++ leBytes 4 p.fill.toNat ++ leBytes 12 0

/-- The CONVERT payload (Table CM-5). -/
def ConvertPayload.bytes (p : ConvertPayload) : List Byte :=
  leBytes 4 p.src.toNat ++ p.srect.bytes ++ p.drect.bytes ++ leBytes 1 p.rot.toNat ++ leBytes 1 p.filter.toNat
    ++ leBytes 1 p.matrix.toNat ++ leBytes 1 p.flags.toNat ++ leBytes 24 0

/-- The LAYER_SET payload (Table SO-9). -/
def LayerSetPayload.bytes (p : LayerSetPayload) : List Byte :=
  leBytes 1 p.port.toNat ++ leBytes 1 p.layer.toNat ++ leBytes 2 p.mask.toNat ++ leBytes 4 p.srcXY.toNat ++ leBytes 4 p.srcWH.toNat
    ++ leBytes 4 p.dstXY.toNat ++ leBytes 4 p.dstWH.toNat ++ leBytes 1 p.enable.toNat ++ leBytes 1 p.blend.toNat
    ++ leBytes 1 p.alpha.toNat ++ leBytes 1 p.matrix.toNat ++ leBytes 1 p.rot.toNat ++ leBytes 1 p.hint.toNat
    ++ leBytes 1 p.flags.toNat ++ leBytes 21 0

/-- The COMMIT payload (R128). -/
def commitBytes (ports : BitVec 8) : List Byte := leBytes 1 ports.toNat ++ leBytes 47 0

/-- The HAPTIC_PLAY payload (Table HS-4). -/
def HapticPayload.bytes (p : HapticPayload) : List Byte :=
  leBytes 2 p.chans.toNat ++ leBytes 1 p.effect.toNat ++ leBytes 1 p.cls.toNat ++ leBytes 1 p.scale.toNat ++ leBytes 1 p.flags.toNat
    ++ leBytes 1 p.deadline.toNat ++ leBytes 1 0 ++ leBytes 8 p.start.toNat ++ leBytes 32 0

/-- The TOUCH_BUF payload (Table TO-3). -/
def TouchBufPayload.bytes (p : TouchBufPayload) : List Byte :=
  leBytes 1 p.panel.toNat ++ leBytes 1 p.slots.toNat ++ leBytes 6 0 ++ leBytes 8 p.address.toNat ++ leBytes 32 0

/-- The 64 bytes of a ring command; of one whose payload is ignored (NOP, an unknown opcode) the header alone. None for what is no ring
command. -/
def cmdBytes : Instr → Option (List Byte)
  | .nop h => some (h.bytes 0x00)
  | .commandBadop h op => some (h.bytes op.toNat)
  | .fenceSignal h f v => some (h.bytes 0x01 ++ fenceBytes f 0 v)
  | .fenceWait h f t v => some (h.bytes 0x02 ++ fenceBytes f t v)
  | .drawSubmit h p => some (h.bytes 0x10 ++ p.bytes)
  | .computeDispatch h l n z => some (h.bytes 0x11 ++ dispatchBytes l n z)
  | .copy h p => some (h.bytes 0x20 ++ p.bytes)
  | .convert h p => some (h.bytes 0x21 ++ p.bytes)
  | .layerSet h p => some (h.bytes 0x30 ++ p.bytes)
  | .commit h p => some (h.bytes 0x31 ++ commitBytes p)
  | .hapticPlay h p => some (h.bytes 0x40 ++ p.bytes)
  | .touchBuf h p => some (h.bytes 0x50 ++ p.bytes)
  | _ => none

/-! ## Reading -/

/-- The `w`-bit field at an offset of a byte string. -/
def fieldAt (w : Nat) (b : List Byte) (o : Nat) : BitVec w := BitVec.ofNat w (ofLe ((b.drop o).take (w / 8)))

/-- A rectangle at an offset. -/
def rectAt (b : List Byte) (o : Nat) : Rect := ⟨fieldAt 16 b o, fieldAt 16 b (o + 2), fieldAt 16 b (o + 4), fieldAt 16 b (o + 6)⟩

/-- The header that a command's bytes hold, fetched from a ring (Table FP-5). -/
def hdrAt (ring : Fin 256) (host : List (BitVec 64 × List Byte)) (bad : List (BitVec 64 × BitVec 64)) (b : List Byte) : CmdHdr :=
  { ring := ring, host := host, hostBad := bad, flags := fieldAt 8 b 1, tag := fieldAt 16 b 2, func := fieldAt 8 b 4, ctx := fieldAt 8 b 5
    hwring := fieldAt 8 b 6, surface := fieldAt 32 b 8 }

/-- The command that 64 bytes fetched from a ring are, by the opcode byte (R60, Tables FP-5, FP-6). -/
def decodeCmd (ring : Fin 256) (host : List (BitVec 64 × List Byte)) (bad : List (BitVec 64 × BitVec 64)) (b : List Byte) : Instr :=
  let h := hdrAt ring host bad b
  match (fieldAt 8 b 0).toNat with
  | 0x00 => .nop h
  | 0x01 => .fenceSignal h (fieldAt 32 b 0x10) (fieldAt 64 b 0x18)
  | 0x02 => .fenceWait h (fieldAt 32 b 0x10) (fieldAt 32 b 0x14) (fieldAt 64 b 0x18)
  | 0x10 => .drawSubmit h
      { list := fieldAt 64 b 0x10, len := fieldAt 32 b 0x18, frame := fieldAt 32 b 0x1C, area := rectAt b 0x20
        target1 := fieldAt 32 b 0x28, target2 := fieldAt 32 b 0x2C, target3 := fieldAt 32 b 0x30, samples := fieldAt 8 b 0x34
        load := fieldAt 8 b 0x35, depth := fieldAt 8 b 0x36, zero := fieldAt 8 b 0x37, clear := fieldAt 64 b 0x38 }
  | 0x11 => .computeDispatch h (fieldAt 64 b 0x10) (fieldAt 32 b 0x18) (fieldAt 288 b 0x1C)
  | 0x20 => .copy h
      { kind := fieldAt 8 b 0x10, src := fieldAt 32 b 0x14, host := fieldAt 64 b 0x18, pitch := fieldAt 32 b 0x20
        rect := rectAt b 0x24, sx := fieldAt 16 b 0x2C, sy := fieldAt 16 b 0x2E, fill := fieldAt 32 b 0x30 }
  | 0x21 => .convert h
      { src := fieldAt 32 b 0x10, srect := rectAt b 0x14, drect := rectAt b 0x1C, rot := fieldAt 8 b 0x24
        filter := fieldAt 8 b 0x25, matrix := fieldAt 8 b 0x26, flags := fieldAt 8 b 0x27 }
  | 0x30 => .layerSet h
      { port := fieldAt 8 b 0x10, layer := fieldAt 8 b 0x11, mask := fieldAt 16 b 0x12, srcXY := fieldAt 32 b 0x14
        srcWH := fieldAt 32 b 0x18, dstXY := fieldAt 32 b 0x1C, dstWH := fieldAt 32 b 0x20, enable := fieldAt 8 b 0x24
        blend := fieldAt 8 b 0x25, alpha := fieldAt 8 b 0x26, matrix := fieldAt 8 b 0x27, rot := fieldAt 8 b 0x28
        hint := fieldAt 8 b 0x29, flags := fieldAt 8 b 0x2A }
  | 0x31 => .commit h (fieldAt 8 b 0x10)
  | 0x40 => .hapticPlay h
      { chans := fieldAt 16 b 0x10, effect := fieldAt 8 b 0x12, cls := fieldAt 8 b 0x13, scale := fieldAt 8 b 0x14
        flags := fieldAt 8 b 0x15, deadline := fieldAt 8 b 0x16, start := fieldAt 64 b 0x18 }
  | 0x50 => .touchBuf h { panel := fieldAt 8 b 0x10, slots := fieldAt 8 b 0x11, address := fieldAt 64 b 0x18 }
  | op => .commandBadop h (BitVec.ofNat 8 op)

end Sys2Proof
end

