-- ==== Sys2Proof/Machine/State.lean ====
section
/-!
DEFINITION. The state of the module: every dictionary object, every BAR0 register, every ring, engine, buffer and counter the
spec names, and the queue of waiting commands. It is plain data. State.reset is the module before its first power good.
-/

namespace Sys2Proof.Machine

/-- The state of the ZM-8860. -/
structure State where
  /-- The commands that wait, first in, first out. -/
  pending : List Instr := []
  /-- Module time in ns (R17). -/
  now : Nat := 0
  /-- The model's own counter of free values drawn; no register of the spec. -/
  fresh : Nat := 0
  /-- The dictionary's values: an object not listed holds its default and counter 0. -/
  objs : Tab ObjCell := []
  /-- MRAM copies of the stored objects (R21); an object not listed holds its default in both copies. -/
  mram : Tab MramObj := []
  /-- sys.defaults was written 0x5A: factory defaults at the next start. -/
  defaultsDue : Bool := false
  /-- Second and third copy of a voted ring field, where they may differ from the first (R68). -/
  votes : Tab (Nat × Nat) := []
  /-- The second, counted from 1, in which the last VOTE_REPAIR was raised (Table GS-5). -/
  voteSecond : Nat := 0
  /-- Host memory as the module's requesters see it: address + 2^64 × function. -/
  host : Memory := []
  /-- The functions: 0 to 63 on H0, 64 the PF on H1. -/
  funcs : Tab Func := []
  /-- The session slots 0 to 47. -/
  sess : Tab Session := []
  /-- The free slots, the one free longest first (R27). -/
  freeSlots : List Nat := List.range 48
  /-- The response that the last request got, with its carrier. -/
  resp : Option (Carrier × Response) := none
  /-- The trusted world's last answer from its private port (R307). -/
  twResp : Option Response := none
  /-- The dictionary portals, by function. -/
  portals : Tab Portal := []
  /-- The side-band's segment assembly. -/
  can : CanRx := {}
  /-- Side-band event frames that wait for the bus, and the identifier and payload of the last one sent (R43, R45, R159). -/
  frames : List EventFrame := []
  frameSent : Option (Nat × List Byte) := none
  /-- The management cluster serves the dictionary (R46). -/
  served : Bool := false
  /-- Enable objects whose enable is queued behind a shut-down (R48). -/
  transit : List Nat := []
  /-- Interrupts raised to the Ehrica controller, counted by cause. -/
  ehrica : Tab Nat := []
  /-- The hardware rings. -/
  rings : Tab Ring := []
  /-- FENCE_SIGNAL commands that wait for earlier work of their rings (R230), oldest first. -/
  signals : List HeldSignal := []
  /-- Generations of the fence slots (R228). -/
  fenceGen : Tab Nat := []
  /-- The context slots. -/
  ctxs : Tab Ctx := []
  /-- The shader cores. -/
  cores : Tab Core := []
  /-- The translated code in force of a program slot (R175). -/
  progs : Tab Code := []
  /-- The ports P0 to P7. -/
  ports : Tab Port := []
  /-- COMMIT commands that wait for a take (R128). -/
  commits : List PendingCommit := []
  /-- The surface slots. -/
  surfs : Tab Surf := []
  /-- Released surfaces whose memory is not yet overwritten (R81). -/
  scrubs : List Scrub := []
  /-- Tilth's log, entries of 32 bytes, oldest first (R238), and its balance moves. -/
  tilthLog : List (List Byte) := []
  balance : Balance := {}
  /-- The stored image of module memory: 16 data and 2 check bytes per word, by (rank × 2^30 + word) × 18 (R249, R252). -/
  dram : Memory := []
  /-- The memory controller. -/
  mem : Mem := {}
  /-- The ZH-17's channels. -/
  hap : Hap := {}
  /-- The touch panels T0 to T3. -/
  panels : Tab Panel := []
  /-- The audio engine and the chime. -/
  snd : Snd := {}
  /-- The Agken fabric. -/
  fab : Fab := {}
  /-- The trusted world, the call gate and the DMA channels. -/
  world : World := {}
  /-- The side pins sp00 to sp95. -/
  pins : Tab Pin := []
  /-- The copies of module time that the stamping islands keep, as last sent (R470). -/
  islTime : Tab Nat := []
  /-- Until when a slice's clock stands still for a rate change (R461). -/
  rateStop : Tab Nat := []
  /-- The image transfers, by VF, and the internal bodies that this module wrote into images with what they hold. -/
  migs : Tab Mig := []
  bodies : List (List Byte × ImageBody) := []
  /-- The log of indices of stored objects without a correct copy (R22). -/
  badStored : List Nat := []
  /-- The power supervisor. -/
  power : Power := {}
  /-- The entries of world.refuse.log, oldest first (Table WO-5). -/
  refuseLog : List (List Byte) := []
  /-- The Grog manager's records. -/
  grog : Grog := {}
  /-- Generations of the scan-out engines (R11, R108). -/
  engineGen : Tab Nat := []
  /-- Kaolin SRAM, 2 MiB (R141). -/
  kram : Memory := []
  /-- What recent writes to Kaolin SRAM replaced, newest first: time, address, bytes (R143). -/
  kold : List (Nat × Nat × List Byte) := []
  deriving DecidableEq, Repr

/-- The model stops: the addressed thing does not exist. -/
inductive Fault where
  /-- A trusted-world access beyond Kaolin SRAM's 2 MiB (R141); raised by KAOLIN_SRAM_WRITE; safe. -/
  | kaolinAddress
  /-- A memory access beyond a rank's words (R244); raised by MEM_READ and MEM_WRITE; safe. -/
  | memoryAddress
  deriving DecidableEq, Repr

/-- The model has no meaning for the command. -/
inductive Refusal where
  /-- The command's arm is not written yet; raised by exec; safe. -/
  | notModelled (mnemonic : String)
  deriving DecidableEq, Repr

/-- The module before its first power good: every object at its default, every table empty. -/
def State.reset : State := {}

end Sys2Proof.Machine
end

