-- ==== Sys2Proof/Machine/Ops.lean ====
section
/-!
DEFINITION. The shared operations over State: reading and writing dictionary objects, votes, vectors and event classes,
notifications, writes to host memory, ring fetches and completions.
-/

namespace Sys2Proof.Machine

/-! ## Dictionary objects -/

/-- The value of the object at a key: the listed one, or the default. -/
def getV (s : State) (k : Nat) : Val :=
  match tfind s.objs k with
  | some c => c.val
  | none => defaultVal k

/-- The bits of a numeric object. -/
def getN (s : State) (k : Nat) : Nat := (getV s k).toNat

/-- A BOOL object as a truth value. -/
def getB (s : State) (k : Nat) : Bool := getN s k != 0

/-- The bytes of a STR or BLOB object. -/
def getBytes (s : State) (k : Nat) : List Byte := (getV s k).toBytes

/-- The change counter of an object (R20). -/
def ctrOf (s : State) (k : Nat) : Nat :=
  match tfind s.objs k with
  | some c => c.ctr
  | none => 0

/-- The module sets an object that nobody writes: the value changes, the change counter does not (log 30). -/
def putV (s : State) (k : Nat) (v : Val) : State := { s with objs := tset s.objs k ⟨v, ctrOf s k⟩ }

/-- `putV` of a number. -/
def putN (s : State) (k n : Nat) : State := putV s k (.num n)

/-- `putV` of a BOOL. -/
def putB (s : State) (k : Nat) (b : Bool) : State := putV s k (.num (b2n b))

/-- A write of an object: the change counter advances, modulo 65536, if the value changes (R20). -/
def writeV (s : State) (k : Nat) (v : Val) : State :=
  if getV s k = v then s else { s with objs := tset s.objs k ⟨v, (ctrOf s k + 1) % 65536⟩ }

/-- `writeV` of a number. -/
def writeN (s : State) (k n : Nat) : State := writeV s k (.num n)

/-- `writeV` of a BOOL. -/
def writeB (s : State) (k : Nat) (b : Bool) : State := writeV s k (.num (b2n b))

/-- Adds one to a saturating U32 count. -/
def bump (s : State) (k : Nat) : State := putN s k (satInc 32 (getN s k))

/-- Adds `n` to a saturating U32 count. -/
def bumpBy (s : State) (k n : Nat) : State := putN s k (satAdd 32 (getN s k) n)

/-- Counts a draw of a free value; the number drawn is `s.fresh`. -/
def draw (s : State) : State := { s with fresh := s.fresh + 1 }

/-- Removes a key from the queued enables. -/
def dropTransit (s : State) (k : Nat) : State := { s with transit := s.transit.filter (· ≠ k) }

/-- Queues an enable behind its function's shut-down (R48). -/
def addTransit (s : State) (k : Nat) : State := { s with transit := s.transit ++ [k] }

/-- Counts an interrupt to the Ehrica controller by its cause. -/
def interruptTw (s : State) (cause : Nat) : State := { s with ehrica := tset s.ehrica cause (tget s.ehrica cause 0 + 1) }

/-! ## Functions, records -/

/-- The record of a function. -/
def funcOf (s : State) (f : Nat) : Func := tget s.funcs f {}

/-- Changes the record of a function. -/
def modFunc (s : State) (f : Nat) (g : Func → Func) : State := { s with funcs := tset s.funcs f (g (funcOf s f)) }

/-- The record of a hardware ring. -/
def ringOf (s : State) (h : Nat) : Ring := tget s.rings h {}

/-- Changes the record of a hardware ring. -/
def modRing (s : State) (h : Nat) (g : Ring → Ring) : State := { s with rings := tset s.rings h (g (ringOf s h)) }

/-- The record of a context. -/
def ctxOf (s : State) (c : Nat) : Ctx := tget s.ctxs c {}

/-- Changes the record of a context. -/
def modCtx (s : State) (c : Nat) (g : Ctx → Ctx) : State := { s with ctxs := tset s.ctxs c (g (ctxOf s c)) }

/-- The record of a core. -/
def coreOf (s : State) (k : Nat) : Core := tget s.cores k {}

/-- Changes the record of a core. -/
def modCore (s : State) (k : Nat) (g : Core → Core) : State := { s with cores := tset s.cores k (g (coreOf s k)) }

/-- The record of a port. -/
def portOf (s : State) (p : Nat) : Port := tget s.ports p {}

/-- Changes the record of a port. -/
def modPort (s : State) (p : Nat) (g : Port → Port) : State := { s with ports := tset s.ports p (g (portOf s p)) }

/-- The record of a surface slot. -/
def surfOf (s : State) (i : Nat) : Surf := tget s.surfs i {}

/-- Changes the record of a surface slot. -/
def modSurf (s : State) (i : Nat) (g : Surf → Surf) : State := { s with surfs := tset s.surfs i (g (surfOf s i)) }

/-- The record of a session slot. -/
def sessOf (s : State) (i : Nat) : Session := tget s.sess i {}

/-- Changes the record of a session slot. -/
def modSess (s : State) (i : Nat) (g : Session → Session) : State := { s with sess := tset s.sess i (g (sessOf s i)) }

/-- Whether a function is a PF: 0 on H0, 64 on H1. -/
def isPf (f : Nat) : Bool := f == 0 || f == 64

/-- Whether a VF's grant is in force: it is enabled, and its enable is not queued behind its shut-down (R283, R286). -/
def vfOn (s : State) (v : Nat) : Bool := 0 < v && v < 64 && getB s (K.vfEnable v) && !s.transit.contains (K.vfEnable v)

/-- The value that two of three copies agree on. -/
def majority (a b c : Nat) : Option Nat := if a = b ∨ a = c then some a else if b = c then some b else none

/-- A voted ring field as it is read: the value that two copies agree on, the first copy where none do (R68). -/
def votedN (s : State) (k : Nat) : Nat :=
  match tfind s.votes k with
  | none => getN s k
  | some (b, c) => (majority (getN s k) b c).getD (getN s k)

/-- A voted BOOL. -/
def votedB (s : State) (k : Nat) : Bool := votedN s k != 0

/-- A write of a voted ring field: all three copies are written (R68). -/
def writeVoted (s : State) (k n : Nat) : State := { writeN s k n with votes := tdel s.votes k }

/-- Whether a function exists: the PFs always, a VF while it is enabled (R278). -/
def funcExists (s : State) (f : Nat) : Bool := isPf f || vfOn s f

/-- The hardware ring that a function sees as local ring r, if one is granted to it (Table FP-3). -/
def ringFor (s : State) (f r : Nat) : Option Nat :=
  (List.range 256).find? (fun h => votedN s (K.ringOwner h) == f && getN s (K.ringLocal h) == r)

/-- How many records of an index range have their subindex 01, the owner, at `f` (`f` not 0xFF, the default). -/
def ownedCount (s : State) (lo hi f : Nat) : Nat :=
  s.objs.countP (fun e => decide (lo ≤ e.1 / 256 ∧ e.1 / 256 < hi ∧ e.1 % 256 = 1) && e.2.val == .num f)

/-- The record numbers of an index range whose owner is `f`. -/
def ownedBy (s : State) (lo hi f : Nat) : List Nat :=
  (s.objs.filter (fun e => decide (lo ≤ e.1 / 256 ∧ e.1 / 256 < hi ∧ e.1 % 256 = 1) && e.2.val == .num f)).map
    (fun e => e.1 / 256 - lo)

/-! ## MRAM rows (R479, R480) -/

/-- The key of a row. -/
def rowKey (bank row : Nat) : Nat := bank * 4096 + row

/-- The key of the row in service at a row number (bank × 2048 + row): the row itself, or the spare row that took its place (R479). -/
def Grog.cell (g : Grog) (q : Nat) : Nat := rowKey (q / 2048) (tget g.rowSpare (rowKey (q / 2048) (q % 2048)) (q % 2048))

/-- The writes of the row in service at a row number (R480). -/
def Grog.wear (g : Grog) (q : Nat) : Nat := tget g.rowWrites (g.cell q) 0

/-- Where the content of an address lies: at its own row, or where wear levelling has moved it (R480). -/
def Grog.home (g : Grog) (l : Nat) : Nat := tget g.rowAt l l

/-- Whether a row is free: no content was put there or moved there, or what it held has moved away (R480). -/
def Grog.isFree (g : Grog) (q : Nat) : Bool :=
  !g.rowAt.any (fun e => e.2 == q) && (Config.mramEmpty q || (tfind g.rowAt q).isSome)

/-- The least-written free row of a row's area, the lowest of these (R480, log 195). -/
def Grog.freshest (g : Grog) (q : Nat) : Option Nat :=
  ((List.range 32768).filter (fun f => Config.mramArea f == Config.mramArea q && g.isFree f)).foldl (fun m f =>
    match m with
    | some x => if g.wear f < g.wear x then some f else m
    | none => some f) none

/-- Where the next write of an address goes: a row of a levelled area whose count exceeds that of the least-written free row of the area
by 2^24 moves there (R480). -/
def Grog.levelled (g : Grog) (l : Nat) : Nat :=
  let q := g.home l
  if g.wear q ≤ 2 ^ 24 ∨ Config.mramArea q = 3 then q
  else
    match g.freshest q with
    | some f => if g.wear f + 2 ^ 24 < g.wear q then f else q
    | none => q

/-- `n` writes of an address, levelled and counted (R480). -/
def Grog.countRow (g : Grog) (l n : Nat) : Grog :=
  let q := g.levelled l
  { g with rowAt := if q = g.home l then g.rowAt else tset g.rowAt l q, rowWrites := tset g.rowWrites (g.cell q) (g.wear q + n) }

/-! ## The Grog log (R482) -/

/-- Changes the Grog record. -/
def modGrog (s : State) (g : Grog → Grog) : State := { s with grog := g s.grog }

/-- Writes one Grog log entry; the log holds the last 4096, 32 in a row of MRAM. An entry whose row is unwritable is skipped (R482). -/
def grogLog (s : State) (cls kind unit spare cause detail gen : Nat) : State :=
  modGrog s (fun g =>
    let l := (Config.mramRow (2 ^ 24 + g.seq % 4096 / 32)).toNat
    if g.badRows.contains (g.home l) then { g with skip := satInc 32 g.skip }
    else
      let g := g.countRow l 1
      let e := leBytes 8 s.now ++ leBytes 4 (g.seq + 1) ++ leBytes 1 cls ++ leBytes 1 kind ++ leBytes 2 unit ++ leBytes 2 spare
        ++ leBytes 1 cause ++ leBytes 1 g.starts ++ leBytes 4 detail ++ leBytes 2 gen ++ leBytes 6 0
      { g with log := lastN 4096 (g.log ++ [e]), seq := (g.seq + 1) % 2 ^ 32 })

/-! ## Votes (R68) -/

/-- Sets one class's pending bit and raises its vector if it was clear and unmasked, without a vote. -/
def setPend (s : State) (f c : Nat) : State :=
  let r := funcOf s f
  if bitOf r.evtPend c then s
  else
    let v := tget r.evtVec c 0
    let fire := !bitOf r.evtMask c
    modFunc s f (fun r =>
      let r := { r with evtPend := setBit r.evtPend c }
      if fire then
        if bitOf (tget r.msix v (2 ^ 96)) 96 then { r with pba := setBit r.pba v }
        else { r with sent := tset r.sent v (tget r.sent v 0 + 1) }
      else r)

/-- Hands a notification to a session: the oldest is dropped beyond 64 and counted (R39). -/
def pushNote (s : State) (i : Nat) (n : Note) : State :=
  let ns := (sessOf s i).notes ++ [n]
  let s' := modSess s i (fun x => { x with notes := lastN 64 ns })
  if 64 < ns.length then bump s' K.dictNotifyDrop else s'

/-- Notifies every session subscribed to a class; a VF session only if the event's source is granted to it (R39, R67). -/
def notifyAll (s : State) (cls : Nat) (fs : List Nat) (n : Note) : State :=
  foldN ((s.sess.filter (fun e => e.2.isOpen && bitOf e.2.mask cls && (e.2.role != .vf || fs.contains e.2.func))).map (·.1))
    (fun s i => pushNote s i n) s

/-- The notification of an event now. -/
def noteOf (s : State) (code inst : Nat) (detail : List Byte) : Note :=
  ⟨code, (Config.eventSource code inst).toNat, s.now, detail.take 16⟩

/-- An event of the health class on the manager's function alone, raised while a vote is taken. -/
def healthEvent (s : State) (code : Nat) (detail : List Byte) : State :=
  notifyAll (setPend s 0 12) 12 [0] (noteOf s code 0 detail)

/-- Counts a vote repair; the first of each second raises VOTE_REPAIR (Table GS-5). -/
def countRepair (s : State) : State :=
  let s' := bump s K.regVoteFix
  if s.voteSecond = s.now / 1000000000 + 1 then s'
  else { healthEvent s' 0x0C03 (leBytes 4 1) with voteSecond := s.now / 1000000000 + 1 }

/-- Counts a failed vote, raises the health class on the manager's function (R68) and logs it (R482). Of a vote failure's entry
the spec fixes class and kind alone: unit, spare, cause and generation are free values. -/
def countBadVote (s : State) : State :=
  let v := fun i => Config.freeNat (s.fresh + i)
  let s := { s with fresh := s.fresh + 4 }
  grogLog (setPend (bump s K.regVoteBad) 0 12) 9 7 (v 0) (v 1) (v 2) 0 (v 3)

/-- Votes a function's EVT_MASK: repairs one disagreeing copy, or masks everything (R68). -/
def voteMask (s : State) (f : Nat) : State :=
  match (funcOf s f).maskCopies with
  | none => s
  | some (b, c) =>
    let a := (funcOf s f).evtMask
    if a = b ∧ b = c then s
    else match majority a b c with
      | some m => countRepair (modFunc s f (fun r => { r with evtMask := m, maskCopies := none }))
      | none => countBadVote (modFunc s f (fun r => { r with evtMask := 0xFFFFFFFF, maskCopies := none }))

/-- Votes an entry of a function's MSI-X table (R68). -/
def voteMsix (s : State) (f v : Nat) : State :=
  match tfind (funcOf s f).msixCopies v with
  | none => s
  | some (b, c) =>
    let a := tget (funcOf s f).msix v (2 ^ 96)
    if a = b ∧ b = c then s
    else match majority a b c with
      | some m => countRepair (modFunc s f (fun r => { r with msix := tset r.msix v m, msixCopies := tdel r.msixCopies v }))
      | none => countBadVote (modFunc s f (fun r =>
          { r with evtMask := 0xFFFFFFFF, maskCopies := none, msixCopies := tdel r.msixCopies v }))

/-- Votes one ring field held as an object; answers whether two copies agreed (R68). -/
def voteField (s : State) (k : Nat) : State × Bool :=
  match tfind s.votes k with
  | none => (s, true)
  | some (b, c) =>
    let a := getN s k
    let s1 := { s with votes := tdel s.votes k }
    if a = b ∧ b = c then (s1, true)
    else match majority a b c with
      | some m => (countRepair (putN s1 k m), true)
      | none => (countBadVote s1, false)

/-- Votes the four voted fields of a ring; a failed vote stops the ring (R68). -/
def voteRing (s : State) (h : Nat) : State :=
  [K.ringEnable h, K.ringBase h, K.ringOrder h, K.ringOwner h].foldl (fun s k =>
    match voteField s k with
    | (s', true) => s'
    | (s', false) => modRing s' h (fun r => { r with stopped := true })) s

/-! ## Vectors, classes, events (R65 to R67, R39, R45) -/

/-- Raises a function's MSI-X vector: sends its message, or sets its pending bit while the entry is masked. -/
def raiseVec (s : State) (f v : Nat) : State :=
  let s := voteMsix s f v
  modFunc s f (fun r =>
    if bitOf (tget r.msix v (2 ^ 96)) 96 then { r with pba := setBit r.pba v }
    else { r with sent := tset r.sent v (tget r.sent v 0 + 1) })

/-- An event class occurs on a function: its pending bit sets, and its vector is raised if it was clear and unmasked (R67). -/
def raiseClass (s : State) (f c : Nat) : State :=
  let s := voteMask s f
  let r := funcOf s f
  if bitOf r.evtPend c then s
  else
    let s' := modFunc s f (fun r => { r with evtPend := setBit r.evtPend c })
    if bitOf r.evtMask c then s' else raiseVec s' f (tget r.evtVec c 0)

/-- The functions an event reaches: the manager's function 0, and the existing ones among those its source is granted to. -/
def eventFuncs (s : State) (fs : List Nat) : List Nat := (0 :: (fs.filter (fun f => funcExists s f && f != 0))).dedup

/-- Raises an event of a class on the functions its source is granted to, and notifies the subscribed sessions. -/
def emit (s : State) (cls code inst : Nat) (detail : List Byte) (fs : List Nat) : State :=
  let fs := eventFuncs s fs
  notifyAll (foldN fs (fun s f => raiseClass s f cls) s) cls fs (noteOf s code inst detail)

/-- Queues a side-band event frame; of Kaolin frames at most 16 wait, the oldest is dropped and counted (R159). -/
def sideFrame (s : State) (kaolin : Bool) (code inst : Nat) (detail : List Byte) : State :=
  let n : Note := { noteOf s code inst detail with detail := detail.take 12 }
  let fr := s.frames ++ [⟨kaolin, n⟩]
  if kaolin && decide (16 < (fr.filter (·.kaolin)).length) then
    bump { s with frames := fr.eraseP (·.kaolin) } K.kaolinCanDrop
  else { s with frames := fr }

/-- An event that is also sent as a side-band frame. -/
def emitSb (s : State) (cls code inst : Nat) (detail : List Byte) (fs : List Nat) : State :=
  sideFrame (emit s cls code inst detail fs) false code inst detail

/-! ## Host memory and the dirty-page log (R57, R302) -/

/-- The place of a requester's host address in the host memory of State. -/
def hostKey (f a : Nat) : Nat := f * 2 ^ 64 + a % 2 ^ 64

/-- Reads `n` bytes of host memory as function `f` sees it. -/
def hostRead (s : State) (f a n : Nat) : List Byte := memGetAll s.host (hostKey f a) n

/-- Marks a page in the bitmap of a VF's log that is being written (R302 to R304). -/
def markPage (s : State) (v page : Nat) : State :=
  let active := if getN s (K.logState v) = 2 then 1 - getN s (K.logActive v) else getN s (K.logActive v)
  let base := if active = 0 then getN s (K.logBase0 v) else getN s (K.logBase1 v)
  let n := page - getN s (K.logLo v) / 4096
  let a := hostKey 0 (base + n / 8)
  { s with host := memSet s.host a (BitVec.ofNat 8 (setBit (memGet s.host a).toNat (n % 8))) }

/-- Logs a module write of `n` bytes at address `a` through the requester ID of function `f` (R302). -/
def markDirty (s : State) (f a n : Nat) : State :=
  if f = 0 ∨ 64 ≤ f ∨ !getB s (K.logEnable f) ∨ n = 0 then s
  else
    let first := a / 4096
    let last := (a + n - 1) / 4096
    let lo := getN s (K.logLo f) / 4096
    let hi := lo + getN s (K.logPages f)
    let inside := fun p => decide (lo ≤ p ∧ p < hi)
    let s := foldN (((List.range (last + 1 - first)).map (first + ·)).filter inside) (fun s p => markPage s f p) s
    if inside first && inside last then s else bump s (K.logOut f)

/-- A module write to host memory through a function's requester ID (R279). -/
def hostWrite (s : State) (f a : Nat) (b : List Byte) : State :=
  markDirty { s with host := memSetAll s.host (hostKey f a) b } f a b.length

/-! ## Rings (R57 to R64) -/

/-- The distance between two free-running 16-bit indices. -/
def idxDiff (a b : Nat) : Nat := (a + 65536 - b % 65536) % 65536

/-- Whether a ring's completion queue has no space (R64). -/
def cqFull (s : State) (h : Nat) : Bool :=
  decide (2 ^ getN s (K.ringCqOrder h) ≤ idxDiff (ringOf s h).cqTail (ringOf s h).cqHead)

/-- Counts a dropped command on its ring and for its function. -/
def countDrop (s : State) (h f : Nat) : State :=
  modFunc (modRing s h (fun r => { r with drop := satInc 32 r.drop })) f (fun x => { x with dropped := x.dropped + 1 })

/-- The 32 bytes of a completion entry with completion index j (Table FP-7). The time is that of the write, also
where the entry was held (log 255). -/
def completionBytes (s : State) (c : HeldCompletion) (j : Nat) : List Byte :=
  leBytes 2 c.ticket.tag ++ leBytes 1 c.status ++ leBytes 1 (1 - (j >>> getN s (K.ringCqOrder c.ticket.ring)) % 2)
    ++ leBytes 1 c.ticket.op ++ leBytes 1 c.ticket.local_ ++ leBytes 2 0 ++ leBytes 8 s.now ++ leBytes 8 c.result
    ++ leBytes 4 c.detail ++ leBytes 4 c.ticket.index

/-- Writes a completion entry with one host write, advances CQ_TAIL and raises the ring's vector if asked (R57, R63). -/
def writeCompletion (s : State) (c : HeldCompletion) : State :=
  let h := c.ticket.ring
  let j := (ringOf s h).cqTail
  let a := getN s (K.ringCqBase h) + 32 * (j % 2 ^ getN s (K.ringCqOrder h))
  let s := hostWrite s c.ticket.func a (completionBytes s c j)
  let s := modRing s h (fun r => { r with cqTail := (r.cqTail + 1) % 65536, completed := r.completed + 1 })
  if c.ticket.irq && getB s (K.ringIrq h) then raiseVec s c.ticket.func (getN s (K.ringVec h)) else s

/-- Answers a command whatever its COMPLETE flag says: work of an earlier epoch gets no completion (R62), nor does work fetched
before the ring was last disabled (log 92); a full queue holds it (R64). -/
def completeAlways (s : State) (t : Ticket) (status result detail : Nat) : State :=
  if (funcOf s t.func).epoch ≠ t.epoch ∨ (ringOf s t.ring).era ≠ t.era then s
  else
    let c : HeldCompletion := ⟨t, status, result % 2 ^ 64, detail % 2 ^ 32⟩
    if cqFull s t.ring || !(ringOf s t.ring).held.isEmpty then modRing s t.ring (fun r => { r with held := r.held ++ [c] })
    else writeCompletion s c

/-- Answers a command that asked for a completion (R63). -/
def complete (s : State) (t : Ticket) (status result detail : Nat) : State :=
  if t.complete then completeAlways s t status result detail else s

/-- Answers a command where the spec states the result and no detail: the detail is a free value. -/
def completeR (s : State) (t : Ticket) (status result : Nat) : State :=
  complete (draw s) t status result (Config.freeNat s.fresh)

/-- Answers a command where the spec states neither result nor detail: both are free values. -/
def completeOpen (s : State) (t : Ticket) (status : Nat) : State :=
  complete (draw (draw s)) t status (Config.freeNat s.fresh) (Config.freeNat (s.fresh + 1))

/-- `completeOpen` whatever the COMPLETE flag says. -/
def completeOpenAlways (s : State) (t : Ticket) (status : Nat) : State :=
  completeAlways (draw (draw s)) t status (Config.freeNat s.fresh) (Config.freeNat (s.fresh + 1))

/-- Counts a command completed DROPPED in pass.dropped of the context that its ring is bound to (Table TP-6). -/
def countDropped (s : State) (t : Ticket) : State :=
  if getN s (K.ringCtx t.ring) < 64 then bump s (K.passDropped (getN s (K.ringCtx t.ring))) else s

/-- Answers a LAYER_SET or COMMIT that follows a failed wait (R232) or a pass dropped for overflow (R188): DROPPED with the
cause, and for an overflow the frame identifier. None where the ring drops nothing. -/
def droppedBy (s : State) (t : Ticket) : Option State :=
  match (ringOf s t.ring).dropUntilWait, (ringOf s t.ring).dropFrame with
  | true, _ => some (completeR (countDropped s t) t 4 3)
  | false, some f => some (complete (countDropped s t) t 4 2 f)
  | false, none => none

/-- Writes held completions while the queue has space (R64). -/
def drainHeld : Nat → State → Nat → State
  | 0, s, _ => s
  | n + 1, s, h =>
    match (ringOf s h).held with
    | [] => s
    | c :: r =>
      if cqFull s h then s
      else drainHeld n (writeCompletion (modRing s h (fun x => { x with held := r })) c) h

/-! ## Who writes -/

/-- The writer of an object: role, module function of its portal (65 for none), session identifier (0 for none), whether the write
is a WRITE_IF, and, of a write that starts a test, what the test finds, where the command says it. -/
structure WCtx where
  role : Role
  func : Nat := 65
  session : Nat := 0
  cond : Bool := false
  found : Option Nat := none
  deriving DecidableEq, Repr, Inhabited

/-- Whether a writer is the manager or the trusted world. -/
def WCtx.isMgr (c : WCtx) : Bool := c.role == .mgr || c.role == .tw

/-- Whether a writer is a thing's owning function; of a thing without an owner it is the manager, being the PF (log 94). -/
def WCtx.owns (c : WCtx) (o : Nat) : Bool :=
  (o == c.func && (c.role == .mgr || c.role == .vf)) || (o == 0xFF && c.role == .mgr) || c.role == .tw

/-- The first refusal of a list, in the order given; OK where there is none (R530). -/
def firstRefusal : List (Bool × Status) → Status
  | [] => .ok
  | (true, st) :: _ => st
  | (false, _) :: r => firstRefusal r

/-! ## Surfaces: who may use a handle (R61, R74, R80) -/

/-- The slot of a handle. -/
def slotOf (handle : Nat) : Nat := handle % 2048

/-- Whether a handle names an allocated surface. -/
def handleValid (s : State) (handle : Nat) : Bool :=
  handle != 0 && getN s (K.surfHandle (slotOf handle)) == handle

/-- Whether a function may read a surface: it owns it, it is shared with it, or it is a PF (R80). -/
def mayRead (s : State) (f handle : Nat) : Bool :=
  handleValid s handle && (getN s (K.surfOwner (slotOf handle)) == f || isPf f
    || (f < 64 && bitOf (getN s (K.surfShare (slotOf handle))) f))

/-- Whether a function may write a surface: it owns it or it is a PF (R80). -/
def mayWrite (s : State) (f handle : Nat) : Bool :=
  handleValid s handle && (getN s (K.surfOwner (slotOf handle)) == f || isPf f)

/-! ## Fetching a command (R59 to R62, R64) -/

/-- Whether the module may fetch the next command of a ring: it is enabled and not stopped, a doorbell covers a command, no
wait holds it, its completion queue has space, its function is neither in a reset nor frozen, and the host ports run (R450). -/
def canFetch (s : State) (h : Nat) : Bool :=
  let r := ringOf s h
  let f := getN s (K.ringOwner h)
  getB s (K.ringEnable h) && !r.stopped && r.head != r.tail && r.wait.isNone && !cqFull s h && funcExists s f
    && (funcOf s f).flrSince.isNone && (!(0 < f && f < 64) || getN s (K.migState f) == 0) && s.power.avail

/-- The source checks that a command fails (R61, Table of vf.spoof.last): bit 0 func, 1 ctx, 2 hwring, 3 surface, 4 opcode. -/
def failedChecks (s : State) (h : CmdHdr) (op : Nat) (known write : Bool) : Nat :=
  let f := getN s (K.ringOwner h.ring)
  b2n (h.func.toNat != f) + 2 * b2n (h.ctx.toNat != 0xFF && (64 ≤ h.ctx.toNat || getN s (K.ctxOwner h.ctx.toNat) != f))
    + 4 * b2n (h.hwring.toNat != h.ring)
    + 8 * b2n (h.surface.toNat != 0 && !(if write then mayWrite s f h.surface.toNat else mayRead s f h.surface.toNat))
    + 16 * b2n (!known) + 0 * op

/-- The host writes its own memory, seen through a function's port: pieces in the order written (R59, log 251). -/
def hostPlace (s : State) (f : Nat) (l : List (BitVec 64 × List Byte)) : State :=
  { s with host := l.foldl (fun m e => memSetAll m (hostKey f e.1.toNat) e.2) s.host }

/-- The host address of the command with index i of a ring, by the order in force (R57). -/
def cmdAddr (s : State) (h i : Nat) : Nat := getN s (K.ringBase h) + 64 * (i % 2 ^ (ringOf s h).order)

/-- What the host put into its memory before the doorbell: its other writes, then the command at its place in the ring (R57, R59). -/
def placeCmd (s : State) (h : CmdHdr) (op : Nat) (pay : List Byte) : State :=
  hostPlace s (getN s (K.ringOwner h.ring))
    (h.host ++ [(BitVec.ofNat 64 (cmdAddr s h.ring (ringOf s h.ring).head), h.bytes op ++ pay)])

/-- Takes the next command from its ring: it is read from its place, RING_HEAD and the fetch count advance, the epoch is stamped. The
count advances first, so that the first command since enable has index 1 (log 254). -/
def takeCmd (s : State) (h : CmdHdr) (op : Nat) (pay : List Byte) : State × Ticket :=
  let f := getN s (K.ringOwner h.ring)
  let s := placeCmd s h op pay
  let s := modRing s h.ring (fun r => { r with head := (r.head + 1) % 65536, fetched := r.fetched + 1 })
  (s, { func := f, epoch := (funcOf s f).epoch, era := (ringOf s h.ring).era, ring := h.ring, local_ := getN s (K.ringLocal h.ring)
        index := (ringOf s h.ring).fetched, op := op, tag := h.tag.toNat, complete := bitOf h.flags.toNat 0
        irq := bitOf h.flags.toNat 1 })

/-- A command that failed a source check: it is dropped, counted, recorded, answered SPOOF and reported (R61, R290). -/
def spoof (s : State) (t : Ticket) (h : CmdHdr) (checks : Nat) : State :=
  let s := countDrop s h.ring t.func
  let s := if 0 < t.func ∧ t.func < 64 then
      putN (bump s (K.vfSpoof t.func)) (K.vfSpoofLast t.func)
        (t.local_ + 2 ^ 8 * h.ring + 2 ^ 16 * t.op + 2 ^ 24 * checks + 2 ^ 32 * t.tag)
    else s
  let s := modFunc s t.func (fun x => { x with spoofed := true })
  let s := completeOpenAlways s t 1
  emit s 8 0x0802 t.func (leBytes 1 t.func ++ leBytes 1 t.local_ ++ leBytes 1 h.ring ++ leBytes 1 t.op ++ leBytes 1 checks
    ++ leBytes 2 t.tag) [t.func]

/-- Fetches a command of a known opcode and checks its source: the state after, and its ticket if it may execute. The ring's
fields are voted first; a failed vote stops the ring, and nothing is fetched (R68). -/
def beginCmd (s : State) (h : CmdHdr) (op : Nat) (pay : List Byte) (write : Bool) : State × Option Ticket :=
  let s := voteRing s h.ring
  if !canFetch s h.ring then (s, none)
  else
    let (s1, t) := takeCmd s h op pay
    let bad := failedChecks s1 h op true write
    if bad = 0 then (s1, some t) else (spoof s1 t h bad, none)

end Sys2Proof.Machine
end

