-- ==== Sys2Proof/Machine/Surfaces.lean ====
section
/-!
DEFINITION. Surfaces (R74 to R81), the pools' memory account (R281, R282), Tilth's placement (R236) and its log (R238).
-/

namespace Sys2Proof.Machine

/-! ## Formats and sizes (R77 to R79) -/

/-- Whether a format is one of the two YUV formats (Table CM-3). -/
def isYuv (fmt : Nat) : Bool := fmt == 0x10 || fmt == 0x11

/-- Bytes per pixel in the stride rule; per luma sample for YUV (R78). -/
def strideBytes (fmt : Nat) : Nat :=
  if fmt = 5 then 2 else if fmt = 6 then 8 else if fmt = 0x10 then 1 else if fmt = 0x11 then 2 else 4

/-- Twice the bytes per pixel that demand counts (R92). -/
def demandHalfBytes (fmt : Nat) : Nat :=
  if fmt = 5 then 4 else if fmt = 6 then 16 else if fmt = 0x10 then 3 else if fmt = 0x11 then 6 else 8

/-- The stride of a surface: line to line, or block row to block row (R78). -/
def strideOf (fmt layout w : Nat) : Nat :=
  if layout = 1 ∧ !isYuv fmt then ceilDiv w 32 * 32 * 32 * strideBytes fmt else roundUp (w * strideBytes fmt) 256

/-- The bytes of plane 0, or of the whole of a one-plane surface. -/
def plane0Of (fmt layout w h : Nat) : Nat :=
  strideOf fmt layout w * (if layout = 1 ∧ !isYuv fmt then ceilDiv h 32 else h)

/-- The bytes a surface takes from its owner's quota (R78). -/
def bytesOf (fmt layout w h : Nat) : Nat :=
  if isYuv fmt then roundUp (plane0Of fmt layout w h) 4096 + strideOf fmt layout w * (h / 2) else plane0Of fmt layout w h

/-- surf.stride of a slot. -/
def slotStride (s : State) (i : Nat) : Nat :=
  strideOf (getN s (K.surfFormat i)) (getN s (K.surfLayout i)) (getN s (K.surfWidth i))

/-- surf.size of a slot. -/
def slotSize (s : State) (i : Nat) : Nat :=
  bytesOf (getN s (K.surfFormat i)) (getN s (K.surfLayout i)) (getN s (K.surfWidth i)) (getN s (K.surfHeight i))

/-- The byte offset of a pixel's first byte within a surface (R78); for YUV that of its luma sample. -/
def pixelAt (fmt layout w x y : Nat) : Nat :=
  let b := strideBytes fmt
  if layout = 1 ∧ !isYuv fmt then
    (y / 32) * strideOf fmt layout w + (x / 32) * (32 * 32 * b) + (y % 32) * (32 * b) + (x % 32) * b
  else y * strideOf fmt layout w + x * b

/-- The byte offset of a pixel within a slot's surface. -/
def pixelOffset (s : State) (i x y : Nat) : Nat :=
  pixelAt (getN s (K.surfFormat i)) (getN s (K.surfLayout i)) (getN s (K.surfWidth i)) x y

/-- The byte offset of the U sample that goes with a pixel of a YUV surface; its V sample follows (Table CM-3, R78). -/
def chromaAt (fmt layout w h x y : Nat) : Nat :=
  roundUp (plane0Of fmt layout w h) 4096 + strideOf fmt layout w * (y / 2) + x / 2 * 2 * strideBytes fmt

/-- A surface as work uses it: its handle and its allocation. -/
def shapeOf (s : State) (handle : Nat) : Shape :=
  let i := slotOf handle
  { handle := handle, fmt := getN s (K.surfFormat i), layout := getN s (K.surfLayout i), width := getN s (K.surfWidth i)
    height := getN s (K.surfHeight i) }

/-- The rank unit and byte offset where a handle's memory lies: while it is valid, and after its release until the memory is
overwritten, since commands already fetched complete on it (R81). -/
def handlePlace (s : State) (handle : Nat) : Option (Nat × Nat) :=
  if handleValid s handle then some ((surfOf s (slotOf handle)).unit, (surfOf s (slotOf handle)).base)
  else (s.scrubs.find? (fun x => x.handle == handle)).map (fun x => (x.unit, x.base))

/-! ## The memory account (R281, R282, R76) -/

/-- The slots whose surf.alloc is true. -/
def allocated (s : State) : List Nat :=
  (s.objs.filter (fun e => decide (0x3800 ≤ e.1 / 256 ∧ e.1 / 256 < 0x4000 ∧ e.1 % 256 = 8) && e.2.val == .num 1)).map
    (fun e => e.1 / 256 - 0x3800)

/-- The bytes of surfaces that functions satisfying `p` hold: allocated ones and released ones not yet overwritten. -/
def surfBytes (s : State) (p : Nat → Bool) : Nat :=
  ((allocated s).filter (fun i => p (getN s (K.surfOwner i)))).foldl (fun n i => n + slotSize s i) 0
    + (s.scrubs.filter (fun x => p x.owner)).foldl (fun n x => n + x.size) 0

/-- The MiB of Silt pools of contexts whose owner satisfies `p`: a context has its pool from its first enable on (R286). -/
def siltMib (s : State) (p : Nat → Bool) : Nat :=
  ((numbers 64 (fun c => p (getN s (K.ctxOwner c)) && (ctxOf s c).unit.isSome)).map (fun c => getN s (K.siltNow c))).sum

/-- The enabled VFs. -/
def enabledVfs (s : State) : List Nat := numbers 64 (vfOn s)

/-- The MiB granted to enabled VFs for memory and Silt. -/
def grantedMib (s : State) : Nat := ((enabledVfs s).map (fun v => getN s (K.grantMem v) + getN s (K.grantSilt v))).sum

/-- The MiB that the PFs hold, memory rounded up to whole MiB. -/
def pfMib (s : State) : Nat := ceilDiv (surfBytes s isPf) 1048576 + siltMib s isPf

/-- pool.mem: the MiB neither granted to a VF nor held by a PF (R281). -/
def poolMib (s : State) : Nat := 63744 - grantedMib s - pfMib s

/-- The MiB of Silt that a function may still take: a VF of grant.silt, a PF of the pool (R281, R286). -/
def siltLeft (s : State) (f : Nat) : Nat :=
  if isPf f then poolMib s else getN s (K.grantSilt f) - siltMib s (· == f)

/-- The bytes of its memory quota that a function has left: a VF within grant.mem, a PF within the pool (R76, R281). -/
def quotaLeft (s : State) (f : Nat) : Nat :=
  if isPf f then (63744 - grantedMib s - siltMib s isPf) * 1048576 - surfBytes s isPf
  else getN s (K.grantMem f) * 1048576 - surfBytes s (· == f)

/-! ## Tilth's placement and log (R236, R238) -/

/-- The bytes of a rank unit (R243): 16 GiB. -/
def unitBytes : Nat := 2 ^ 34

/-- The bytes that each rank unit holds outside every function's quota: a quarter of the composition reserve of 1 GiB and of the 768 MiB
of save areas, at the end of the unit (R97, R215, R246, log 273). -/
def composeReserve : Nat := 2 ^ 28
def saveReserve : Nat := 192 * 2 ^ 20
def unitReserve : Nat := composeReserve + saveReserve

/-- The places of compose buffers in a unit's reserve, each large enough for 7680 active pixels (R97). -/
def composePlaces (u : Nat) : List (Nat × Nat) := [(u, unitBytes - composeReserve), (u, unitBytes - composeReserve / 2)]

/-- The extents taken in a rank unit: (offset, size), the reserve among them; a balance move holds its destination. -/
def extents (s : State) (u : Nat) : List (Nat × Nat) :=
  (unitBytes - unitReserve, unitReserve) :: ((allocated s).filter (fun i => (surfOf s i).unit == u)).map (fun i => ((surfOf s i).base, slotSize s i))
    ++ (s.scrubs.filter (fun x => x.unit == u)).map (fun x => (x.base, x.size))
    ++ (match s.balance.move with
        | some (i, v, b) => if v = u then [(b, slotSize s i)] else []
        | none => [])

/-- The bytes of a rank unit that nothing holds. -/
def unitFree (s : State) (u : Nat) : Nat :=
  unitBytes - ((extents s u).map (·.2)).sum
    - ((numbers 64 (fun c => (ctxOf s c).unit == some u)).map (fun c => getN s (K.siltNow c) * 1048576)).sum

/-- The lowest 4 KiB aligned offset at which an extent of `n` bytes fits between those taken; the end of the unit where the
free space is in pieces (log 40). -/
def placeIn (es : List (Nat × Nat)) (n : Nat) : Nat :=
  let ends := (0 :: es.map (fun e => roundUp (e.1 + e.2) 4096)).insertionSort (· ≤ ·)
  match ends.find? (fun a => es.all (fun e => decide (a + n ≤ e.1 ∨ e.1 + e.2 ≤ a)) && decide (a + n ≤ unitBytes)) with
  | some a => a
  | none => unitBytes

/-- The physical rank that serves a rank unit (rank.unit). -/
def rankOfUnit (s : State) (u : Nat) : Nat := ((List.range 6).find? (fun r => getN s (K.rankUnit r) == u)).getD u

/-- surf.place of a unit: group and rank; a spare rank that serves it reads group 2 (R236). -/
def placeCode (s : State) (u : Nat) : Nat :=
  let r := rankOfUnit s u
  r / 2 + 256 * (r % 2)

/-- The unit of the surface that a layer of an output's active set names. -/
def layerUnit (s : State) (l : LayerSet) : Nat := (surfOf s (slotOf l.surface)).unit

/-- tilth.rank.placed of a unit in MB/s: the demand of the direct layers there and the compose streams whose buffers lie there (R236,
log 41). -/
def placedDemand (s : State) (u : Nat) : Nat :=
  sumN 8 (fun p =>
    let q := portOf s p
    (if q.buf.any (fun e => e.1 == u) then q.plan.stream else 0) + sumN 6 (fun k => if q.plan.path.getD k 0 = 1 ∧ layerUnit s (q.active.layers.getD k {}) = u then q.plan.layerDemand.getD k 0 else 0))

/-- The unit of a list with the greatest measure, the lowest number among equals. -/
def bestUnit (us : List Nat) (m : Nat → Nat) : Nat := us.foldl (fun b u => if m b < m u then u else b) (us.headD 0)

/-- Tilth's choice of a unit for an object of `n` bytes with a surf.hint, and whether its group hint was honoured (R236). -/
def chooseUnit (s : State) (n hint : Nat) : Option (Nat × Bool) :=
  let cands := numbers 4 (fun u => decide (n ≤ unitFree s u) && decide (placeIn (extents s u) n < unitBytes))
  if cands.isEmpty then none
  else
    let g := hint % 4
    let inGroup := cands.filter (fun u => u / 2 + 1 == g)
    let rest := if g = 0 ∨ inGroup.isEmpty then cands else inGroup
    let best := if bitOf hint 3 then bestUnit rest (fun u => 2 ^ 40 - placedDemand s u) else bestUnit rest (fun u => unitFree s u)
    some (best, g = 0 ∨ !inGroup.isEmpty)

/-- Writes one Tilth log entry (Table CT-8); the log holds the last 256. -/
def tilthEntry (s : State) (kind reason flags subject old new : Nat) : State :=
  let seq := (getN s K.tilthSeq + 1) % 2 ^ 32
  let e := leBytes 8 s.now ++ leBytes 4 seq ++ leBytes 1 kind ++ leBytes 1 reason ++ leBytes 2 flags ++ leBytes 4 subject
    ++ leBytes 4 old ++ leBytes 4 new ++ leBytes 4 0
  putN { s with tilthLog := lastN 256 (s.tilthLog ++ [e]) } K.tilthSeq seq

/-- Counts a hint that Tilth did not honour (R240). -/
def hintMiss (s : State) : State := bump s K.tilthHintMiss

/-! ## Allocation and release (R74 to R76, R81) -/

/-- The key range of a unit's bytes in the stored image of the rank that serves it. -/
def dramKey (rank word j : Nat) : Nat := (rank * 2 ^ 30 + word) * 18 + j

/-- Sets every word of a byte range of a rank unit to zero, with its code. -/
def zeroUnit (s : State) (u base size : Nat) : State :=
  let r := rankOfUnit s u
  let a := dramKey r (base / 16) 0
  { s with dram := memZero s.dram a (dramKey r (ceilDiv (base + size) 16) 0 - a) }

/-- The generation after `g`: 1 to 65535 and back to 1 (R74). -/
def nextGen (g : Nat) : Nat := if 65535 ≤ g then 1 else g + 1

/-- Allocates a surface slot in a unit: zeroed memory, a new generation and handle, the placement logged (R74, R76, R238). -/
def allocSurface (s : State) (i u base : Nat) (kept : Bool) : State :=
  let n := slotSize s i
  let g := nextGen (surfOf s i).gen
  let s := modSurf s i (fun x => { x with gen := g, unit := u, base := base, flrRelease := false })
  let s := zeroUnit s u base n
  let s := putN s (K.surfHandle i) (i + 65536 * g)
  let s := tilthEntry s 2 (if getN s (K.surfHint i) % 4 = 0 then 5 else 2) (b2n kept) (i + 65536 * g) 0xFFFF (placeCode s u)
  if kept then s else hintMiss s

/-- Whether a spread layer's shadow, captured or active state names a handle (R81, R421). -/
def spreadNames (s : State) (handle : Nat) : Bool :=
  (List.range 8).any (fun i =>
    let x := tget s.fab.spreads i {}
    (List.range 6).any (fun k => getN s (K.spreadLayerSurface i k) == handle
      || (x.active.layers.getD k {}).surface == handle || (x.latched != 0 && (x.captured.layers.getD k {}).surface == handle)))

/-- Whether a layer's shadow, captured or active state names a handle (R81). -/
def layerNames (s : State) (handle : Nat) : Bool :=
  spreadNames s handle || (List.range 8).any (fun p => (List.range 6).any (fun k =>
    getN s (K.layerSurface p k) == handle
      || ((portOf s p).active.layers.getD k {}).surface == handle
      || ((portOf s p).latched != 0 && ((portOf s p).captured.layers.getD k {}).surface == handle)))

/-- Releases an allocated slot: its handle is invalid at once, its memory waits to be overwritten (R81). -/
def releaseSurface (s : State) (i : Nat) : State :=
  let x : Scrub := ⟨i, getN s (K.surfHandle i), getN s (K.surfOwner i), (surfOf s i).unit, (surfOf s i).base, slotSize s i⟩
  let s := putN s (K.surfHandle i) 0
  modSurf { s with scrubs := s.scrubs ++ [x] } i (fun r => { r with flrRelease := false })

/-- Whether an active layer that is not shown transparent after a reset names a surface (R104). -/
def activeNames (s : State) (handle : Nat) : Bool :=
  (List.range 8).any (fun p => (List.range 6).any (fun k =>
    ((portOf s p).active.layers.getD k {}).surface == handle && !bitOf (portOf s p).muted k))
    || (List.range 8).any (fun i => (List.range 6).any (fun k =>
      ((tget s.fab.spreads i {}).active.layers.getD k {}).surface == handle && ((tget s.fab.spreads i {}).active.layers.getD k {}).enable))

/-- Releases the surfaces of a reset VF that no active layer names any more (R104, R292). -/
def releaseReset (s : State) : State :=
  foldN ((s.surfs.filter (fun e => e.2.flrRelease)).map (·.1)) (fun s i =>
    if activeNames s (getN s (K.surfHandle i)) then s else releaseSurface (writeB s (K.surfAlloc i) false) i) s

/-- The overwriting of a slot's released memory, and its return to the quota (R81). -/
def scrubSurface (s : State) (i : Nat) : State :=
  match s.scrubs.find? (fun x => x.slot == i) with
  | none => s
  | some x => zeroUnit { s with scrubs := s.scrubs.erase x } x.unit x.base x.size

/-! ## Writing the objects of a slot (R75, R76, R78, R79, R284) -/

/-- The value a numeric setting of a slot would have after a write of subindex `sub`. -/
def surfAfter (s : State) (i sub v at_ : Nat) : Nat := if sub = at_ then v else getN s (objKey (0x3800 + i) at_)

/-- Whether the YUV rules hold of a slot's settings after a write (R78, R79). -/
def yuvOk (s : State) (i sub v : Nat) : Bool :=
  !isYuv (surfAfter s i sub v 2)
    || (surfAfter s i sub v 3 == 0 && surfAfter s i sub v 4 % 2 == 0 && surfAfter s i sub v 5 % 2 == 0)

/-- Whether a VF would hold more of a kind than its grant with one more (R284). -/
def overGrant (s : State) (f have_ grant : Nat) : Bool := 0 < f && f < 64 && decide (grant < have_ + 1) && funcExists s f

/-- Whether a VF session may write a subindex of a slot at all (R75, R289). -/
def surfAccess (s : State) (c : WCtx) (i sub v : Nat) : Bool :=
  c.isMgr || (c.role == .vf &&
    (let o := getN s (K.surfOwner i)
     if sub = 1 then c.cond && ((o == 0xFF && v == c.func) || (o == c.func && v == 0xFF)) else o == c.func))

/-- The checks of a write to a surface object, after its range (R75, R76, R78, R79, R81, R284). -/
def surfCheck (s : State) (i sub v : Nat) : Status :=
  let alloc := getB s (K.surfAlloc i)
  let o := getN s (K.surfOwner i)
  if sub = 1 then firstRefusal
    [(v ≠ o && v != 0xFF && (overGrant s v (ownedCount s 0x3800 0x4000 v) (getN s (K.grantSurfaces v)) || !funcExists s v), .range),
     (alloc && v ≠ o, .busy)]
  else if sub ≤ 5 then firstRefusal [(!yuvOk s i sub v, .range), (alloc, .busy)]
  else if sub = 8 then
    if v = 1 then
      if alloc then .ok
      else firstRefusal
        [(o == 0xFF || getN s (K.surfWidth i) == 0 || getN s (K.surfHeight i) == 0
            || decide (quotaLeft s o < slotSize s i) || (chooseUnit s (slotSize s i) (getN s (K.surfHint i))).isNone, .range)]
    else firstRefusal [(alloc && layerNames s (getN s (K.surfHandle i)), .busy)]
  else .ok

/-- The effect of an accepted write to a surface object. -/
def surfApply (s : State) (i sub v : Nat) : State :=
  let alloc := getB s (K.surfAlloc i)
  let s1 := writeN s (objKey (0x3800 + i) sub) v
  if sub = 8 then
    if v = 1 ∧ !alloc then
      match chooseUnit s (slotSize s i) (getN s (K.surfHint i)) with
      | some (u, kept) => allocSurface s1 i u (placeIn (extents s u) (slotSize s i)) kept
      | none => s1
    else if v = 0 ∧ alloc then releaseSurface s1 i
    else s1
  else s1

end Sys2Proof.Machine
end

