-- ==== Sys2Proof/Machine/Compose.lean ====
section
/-!
DEFINITION. Layers and their shadow sets (R86 to R88, R121), Tilth's runs (R91 to R96), compose-buffer rows (R97 to R101),
LAYER_SET's fields (R127).
-/

namespace Sys2Proof.Machine

/-! ## Layers -/

/-- The key of subindex `sub` of layer k on port p. -/
def layerKey (p k sub : Nat) : Nat := objKey (0x2020 + 0x100 * p + k) sub

/-- The function granted a layer. -/
def layerOwner (s : State) (p k : Nat) : Nat := getN s (K.layerOwner p k)

/-- The functions that own a layer of a port: they get its events (R129). -/
def portFuncs (s : State) (p : Nat) : List Nat := (((List.range 6).map (layerOwner s p)).filter (· ≠ 0xFF)).dedup

/-- Whether a function owns a layer of a port. -/
def ownsOn (s : State) (f p : Nat) : Bool := (List.range 6).any (fun k => layerOwner s p k == f)

/-- The mask of a function's layers on a port. -/
def ownedBits (s : State) (f p : Nat) : Nat := sumN 6 (fun k => if layerOwner s p k = f then 2 ^ k else 0)

/-- How many layers a function owns. -/
def layerCount (s : State) (f : Nat) : Nat := sumN 8 (fun p => countN 6 (fun k => layerOwner s p k == f))

/-- The shadow copy of a layer. -/
def layerShadow (s : State) (p k : Nat) : LayerSet :=
  { enable := getB s (K.layerEnable p k), surface := getN s (K.layerSurface p k), srcXY := getN s (K.layerSrcXy p k)
    srcWH := getN s (K.layerSrcWh p k), dstXY := getN s (K.layerDstXy p k), dstWH := getN s (K.layerDstWh p k)
    blend := getN s (K.layerBlend p k), alpha := getN s (K.layerAlpha p k), matrix := getN s (K.layerMatrix p k)
    rot := getN s (K.layerRot p k), hint := getN s (K.layerHint p k) }

/-- The shadow copy of a port's output-level objects. -/
def outShadow (s : State) (p : Nat) : OutSet :=
  { slip := getB s (K.compSlip p), bg := getN s (K.compBg p), lead := getN s (K.compSlipLead p) }

/-- The parts of a port's shadow that a mask of commit bits covers, over another set (R121). -/
def shadowOver (s : State) (p bits : Nat) (base : ShownSet) : ShownSet :=
  { layers := (List.range 6).map (fun k => if bitOf bits k then layerShadow s p k else base.layers.getD k {})
    out := if bitOf bits 6 then outShadow s p else base.out }

/-- The parts of a set that a mask covers, over another set. -/
def setOver (bits : Nat) (new base : ShownSet) : ShownSet :=
  { layers := (List.range 6).map (fun k => if bitOf bits k then new.layers.getD k {} else base.layers.getD k {})
    out := if bitOf bits 6 then new.out else base.out }

/-- Low and high half of a packed pair of coordinates. -/
def lo16 (v : Nat) : Nat := v % 65536
def hi16 (v : Nat) : Nat := v / 65536 % 65536

/-- Whether a source rectangle fits its surface: even for YUV, and wholly inside it unless a size is zero (R79, R88). A layer without a
valid surface is shown transparent and is not checked. -/
def sourceOk (s : State) (l : LayerSet) : Bool :=
  if !handleValid s l.surface then true
  else
    let i := slotOf l.surface
    (!isYuv (getN s (K.surfFormat i)) ||
        (lo16 l.srcXY % 2 == 0 && hi16 l.srcXY % 2 == 0 && lo16 l.srcWH % 2 == 0 && hi16 l.srcWH % 2 == 0))
      && (lo16 l.srcWH == 0 || hi16 l.srcWH == 0 || decide (lo16 l.srcXY + lo16 l.srcWH ≤ getN s (K.surfWidth i)
        ∧ hi16 l.srcXY + hi16 l.srcWH ≤ getN s (K.surfHeight i)))

/-- A layer's shadow with the object at one subindex given a value. -/
def LayerSet.withSub (l : LayerSet) (sub v : Nat) : LayerSet :=
  if sub = 2 then { l with enable := v != 0 } else if sub = 3 then { l with surface := v }
  else if sub = 4 then { l with srcXY := v } else if sub = 5 then { l with srcWH := v }
  else if sub = 6 then { l with dstXY := v } else if sub = 7 then { l with dstWH := v }
  else if sub = 8 then { l with blend := v } else if sub = 9 then { l with alpha := v }
  else if sub = 10 then { l with matrix := v } else if sub = 11 then { l with rot := v }
  else if sub = 12 then { l with hint := v } else l

/-- Whether a session may write a subindex of a layer: the owner object by the manager, the rest by the owning function alone (R86). A
surface that the owner may not use is refused too (R80). -/
def layerAccess (s : State) (c : WCtx) (p k sub v : Nat) : Bool :=
  let o := layerOwner s p k
  (if sub = 1 then c.isMgr else c.owns o) && !(sub == 3 && v != 0 && handleValid s v && o != 0xFF && !mayRead s o v)

/-- The checks of a write to a layer object, after its range (R81, R88, R284). -/
def layerCheck (s : State) (p k sub v : Nat) : Status :=
  if sub = 1 then
    if v ≠ layerOwner s p k ∧ v ≠ 0xFF ∧ (overGrant s v (layerCount s v) (getN s (K.grantLayers v)) ∨ !funcExists s v) then .range
    else .ok
  else if sub = 3 ∧ v ≠ 0 ∧ !handleValid s v then .range
  else if 3 ≤ sub ∧ sub ≤ 5 ∧ !sourceOk s ((layerShadow s p k).withSub sub v) then .range
  else .ok

/-- The VFs' screen regions on a port as their records stand: function, origin, size (R287). -/
def screenRegions (s : State) (p : Nat) : List (Nat × Nat × Nat) :=
  (s.objs.filter (fun e => decide (0x6000 ≤ e.1 / 256 ∧ e.1 / 256 < 0x7000 ∧ 8 ≤ e.1 / 256 % 64 ∧ e.1 / 256 % 64 < 16 ∧ e.1 % 256 = 1)
    && e.2.val == .num p)).map (fun e => ((e.1 / 256 - 0x6000) / 64, getN s (e.1 + 1), getN s (e.1 + 2)))

/-! ## Tilth's runs (R91 to R96) -/

/-- The exact refresh rate of a mode in Hz (R92). -/
def refreshHz (m : Nat) : Rat :=
  let d : Rat := (modeHtotal m * modeVtotal m : Nat)
  let f : Rat := ((modeRow m).pclk * 1000 : Nat) / d
  if modeOdd m then f * 1000 / 1001 else f

/-- MB/s of a rate in bytes per second, rounded up. -/
def mbUp (r : Rat) : Nat := (r / 1000000).ceil.toNat

/-- Whether a layer's settings let it be seen: enabled, with a valid surface and sizes (R88). -/
def LayerSet.visible (s : State) (l : LayerSet) : Bool :=
  l.enable && handleValid s l.surface && lo16 l.srcWH != 0 && hi16 l.srcWH != 0 && lo16 l.dstWH != 0 && hi16 l.dstWH != 0

/-- Whether an active layer can be seen at all: visible, owned, and not shown transparent after its VF's reset (R88, R104). -/
def layerShown (s : State) (p k : Nat) (l : LayerSet) : Bool :=
  l.visible s && layerOwner s p k != 0xFF && !bitOf (portOf s p).muted k

/-- Whether a layer requires flattening: rotated, or scaled by less than 1/2 or more than 4 on an axis (R91). -/
def needsFlat (l : LayerSet) : Bool :=
  l.rot != 0 || decide (2 * lo16 l.dstWH < lo16 l.srcWH ∨ 4 * lo16 l.srcWH < lo16 l.dstWH
    ∨ 2 * hi16 l.dstWH < hi16 l.srcWH ∨ 4 * hi16 l.srcWH < hi16 l.dstWH)

/-- A layer's direct-fetch demand in bytes per second (R92). -/
def layerRate (s : State) (m : Nat) (l : LayerSet) : Rat :=
  ((lo16 l.srcWH * hi16 l.srcWH * demandHalfBytes (getN s (K.surfFormat (slotOf l.surface))) : Nat) : Rat) / 2 * refreshHz m

/-- Whether a layer lies above a run with the given top; every layer lies above no run. -/
def aboveTop (top : Option Nat) (k : Nat) : Bool :=
  match top with
  | some t => decide (t < k)
  | none => true

/-- Whether a layer lies within a run with the given top. -/
def inTop (top : Option Nat) (k : Nat) : Bool := !aboveTop top k

/-- What the runs are computed from, per enabled output: port, mode, slip, and per layer whether it is shown, its hint,
whether it requires flattening, its demand, and its bytes per pixel doubled. -/
structure RunInput where
  port : Nat
  mode : Nat
  slip : Bool
  shown : List Bool
  hint : List Nat
  flat : List Bool
  rate : List Rat
  half : List Nat
  spread : Bool := false

/-- The input of one output. -/
def runInput (s : State) (p : Nat) : RunInput :=
  let q := portOf s p
  let ls := (List.range 6).map (fun k => q.active.layers.getD k {})
  { port := p, mode := q.runMode, slip := q.active.out.slip
    shown := (List.range 6).map (fun k => layerShown s p k (ls.getD k {}))
    hint := ls.map (·.hint), flat := ls.map needsFlat, rate := ls.map (layerRate s q.runMode)
    half := ls.map (fun l => demandHalfBytes (getN s (K.surfFormat (slotOf l.surface)))), spread := layerOwner s p 0 == 0xFD }

/-- The highest layer that must be in the run: requiring flattening or hinted FLATTEN; in slip mode the highest shown (R91,
R94); a single layer hinted FLATTEN too (log 291). A port that serves a spread shows its compose buffer alone (R420). -/
def RunInput.firstTop (i : RunInput) : Option Nat :=
  if i.spread then some 5
  else (List.range 6).foldl (fun t k => if i.shown.getD k false && (i.slip || i.flat.getD k false || i.hint.getD k 0 == 2) then some k else t) none

/-- The demand of an output's direct layers in bytes per second (R92). -/
def RunInput.direct (i : RunInput) (top : Option Nat) : Rat :=
  ((List.range 6).map (fun k => if i.shown.getD k false && aboveTop top k then i.rate.getD k 0 else 0)).sum

/-- An output's demand in bytes per second: its direct layers, and its compose buffer if it has a run (R92). -/
def RunInput.demand (i : RunInput) (top : Option Nat) : Rat :=
  match top with
  | none => i.direct top
  | some _ => i.direct top + ((modeW i.mode * modeH i.mode * 4 : Nat) : Rat) * refreshHz i.mode

/-- The layers that the next step of R94 would add: the run's second shown layer where it is empty, the next shown layer
above it else; none where no step is possible. A run of one layer of 4 bytes or less is not formed. -/
def RunInput.nextTop (i : RunInput) (top : Option Nat) : Option Nat :=
  let shown := numbers 6 (fun k => i.shown.getD k false && aboveTop top k)
  match top, shown with
  | some _, k :: _ => some k
  | some _, [] => none
  | none, [] => none
  | none, [k] => if 8 < i.half.getD k 0 then some k else none
  | none, _ :: k :: _ => some k

/-- Whether a step would include a layer hinted DIRECT. -/
def RunInput.takesDirect (i : RunInput) (top new : Option Nat) : Bool :=
  (List.range 6).any (fun k => i.shown.getD k false && i.hint.getD k 0 == 1
    && aboveTop top k && inTop new k)

/-- The comp.budget of R93 and the demand a scan-out engine carries, in bytes per second. -/
def budgetRate : Rat := 96000000000
def engineRate : Rat := 24000000000

/-- The loop of R94: while a limit of R93 is exceeded, the output with the largest demand (the lowest port among equals) that
has a step takes it; steps that include a DIRECT layer only where no other is left. -/
def growRuns : Nat → List (RunInput × Option Nat) → List (RunInput × Option Nat)
  | 0, rs => rs
  | n + 1, rs =>
    let total := (rs.map (fun r => r.1.demand r.2)).sum
    if total ≤ budgetRate ∧ rs.all (fun r => decide (r.1.demand r.2 ≤ engineRate)) then rs
    else
      let free := rs.filter (fun r => (r.1.nextTop r.2).isSome && !r.1.takesDirect r.2 (r.1.nextTop r.2))
      let any := rs.filter (fun r => (r.1.nextTop r.2).isSome)
      let cand := if free.isEmpty then any else free
      match cand.foldl (fun (b : Option (RunInput × Option Nat)) r => match b with
          | none => some r
          | some x => if x.1.demand x.2 < r.1.demand r.2 then some r else some x) none with
      | none => rs
      | some x => growRuns n (rs.map (fun r => if r.1.port = x.1.port then (r.1, r.1.nextTop r.2) else r))

/-- The plan of an output for a run. A layer hinted DIRECT that needs flattening counts as a hint not kept (R95, log 292). -/
def planOf (i : RunInput) (top : Option Nat) : RunPlan :=
  let inRun := fun k => inTop top k
  { top := top, demand := mbUp (i.demand top), stream := if top.isSome then mbUp (i.demand top - i.direct top) else 0
    layerDemand := (List.range 6).map (fun k => if i.shown.getD k false then mbUp (i.rate.getD k 0) else 0)
    path := (List.range 6).map (fun k => if i.shown.getD k false then (if inRun k then 2 else 1) else 0)
    kept := (List.range 6).map (fun k => !(i.shown.getD k false && i.hint.getD k 0 == 1 && inRun k)) }

/-- The outputs whose layers count: those with a timing or starting one. -/
def enabledOutputs (s : State) : List Nat := numbers 8 (fun p => getB s (K.outEnable p) && (portOf s p).runMode != 0xFF)

/-- Tilth recomputes the runs of all outputs; each takes effect at its output's next VBS (R96). -/
def recomputeRuns (s : State) : State :=
  let rs := growRuns 64 ((enabledOutputs s).map (fun p => let i := runInput s p; (i, i.firstTop)))
  rs.foldl (fun s r => modPort s r.1.port (fun q => { q with next := planOf r.1 r.2 })) s

/-- comp.total: the direct-fetch demand of all outputs, from the exact sums of the plans in force, rounded up. -/
def totalDemand (s : State) : Nat :=
  mbUp (((enabledOutputs s).map (fun p => (runInput s p).demand (portOf s p).plan.top)).sum)

/-- Puts one layer's path objects in force, with an override counted and reported, and a change logged (R95, R238). -/
def applyLayerPlan (s : State) (p k : Nat) (old new : RunPlan) : State :=
  let oldPath := old.path.getD k 0
  let newPath := new.path.getD k 0
  let s := putN (putN s (K.layerPath p k) newPath) (K.layerDemand p k) (new.layerDemand.getD k 0)
  let s := putB s (K.layerHintKept p k) (new.kept.getD k true)
  let s := if oldPath = newPath then s else tilthEntry s 6 8 (b2n (new.kept.getD k true)) (k + 256 * p) oldPath newPath
  if old.kept.getD k true && !new.kept.getD k true then
    foldN (eventFuncs s [layerOwner s p k]) (fun s f => raiseClass s f 12) (hintMiss (bump s K.compOverride))
  else s

/-- The place that Tilth takes for a port's compose buffer in the reserve: of the rank units with room the one with the least placed
demand (R97, R236). -/
def bufferPlace (s : State) (p : Nat) : Option (Nat × Nat) :=
  let taken := (List.range 8).filterMap (fun o => if o = p then none else (portOf s o).buf)
  let room := fun u => (composePlaces u).find? (fun e => !taken.contains e)
  let cands := numbers 4 (fun u => (room u).isSome)
  if cands.isEmpty then none else room (bestUnit cands (fun u => 2 ^ 40 - placedDemand s u))

/-- A port's compose buffer after a plan: taken when a run is formed, given back when it ends; its allocation is logged (R97, R238). -/
def takeBuffer (s : State) (p : Nat) (run : Bool) : State :=
  let old := (portOf s p).buf
  let new := if !run then none else if old.isSome then old else bufferPlace s p
  let s := modPort s p (fun q => { q with buf := new })
  match old, new with
  | none, some e => tilthEntry s 2 8 0 p 0xFFFF (placeCode s e.1)
  | _, _ => s

/-- The runs computed for an output take effect at its VBS (R96); a newly formed run starts with no complete slot (R100). -/
def applyPlan (s : State) (p : Nat) : State :=
  let q := portOf s p
  let s := takeBuffer s p q.next.top.isSome
  let s := modPort s p (fun q => { q with plan := q.next, rows := if q.plan.top.isNone || q.next.top.isNone then [] else q.rows })
  let s := foldN (List.range 6) (fun s k => applyLayerPlan s p k q.plan q.next) s
  let s := putN s (K.compDemand p) q.next.demand
  let s := putN s (K.compFlatTop p) (q.next.top.getD 0xFF)
  putN s K.compTotal (totalDemand s)

/-! ## Compose-buffer rows (R97 to R101) -/

/-- The tile rows of a mode (R97). -/
def rowsOf (m : Nat) : Nat := ceilDiv (modeH m) 32

/-- A row's record. -/
def rowOf (q : Port) (r : Nat) : TileRow := tget q.rows r {}

/-- Changes a row's record. -/
def modRow (s : State) (p r : Nat) (g : TileRow → TileRow) : State :=
  modPort s p (fun q => { q with rows := tset q.rows r (g (rowOf q r)) })

/-- Slot 0 or 1 of a row. -/
def TileRow.slot (t : TileRow) (i : Nat) : RowSlot := if i = 0 then t.s0 else t.s1

/-- A row with one slot replaced. -/
def TileRow.setSlot (t : TileRow) (i : Nat) (x : RowSlot) : TileRow := if i = 0 then { t with s0 := x } else { t with s1 := x }

/-- The slot C0 composes into: the one scan-out does not hold; of two free ones an incomplete one, else the older tag (R99). -/
def TileRow.composeSlot (t : TileRow) (f : Nat) : Nat :=
  match t.held with
  | some h => 1 - h
  | none =>
    if !t.s0.ready then 0 else if !t.s1.ready then 1
    else if (f + 65536 - t.s1.tag) % 65536 > (f + 65536 - t.s0.tag) % 65536 then 1 else 0

/-- The distance of a tag from a frame, modulo 65536. -/
def tagDistance (a b : Nat) : Nat := min ((a + 65536 - b % 65536) % 65536) ((b + 65536 - a % 65536) % 65536)

/-- The ready slot whose tag is nearest to a frame (R99). -/
def TileRow.nearest (t : TileRow) (f : Nat) : Option Nat :=
  match t.s0.ready, t.s1.ready with
  | false, false => none
  | true, false => some 0
  | false, true => some 1
  | true, true => if tagDistance t.s1.tag f < tagDistance t.s0.tag f then some 1 else some 0

/-! ## LAYER_SET (R127) -/

/-- The fields of a LAYER_SET payload as (mask bit, subindex, value); the surface comes from the header. Reserved bits of mask and flags
are ignored (log 294). -/
def layerSetFields (surface : Nat) (y : LayerSetPayload) : List (Nat × Nat × Nat) :=
  [(0, 2, y.enable.toNat), (1, 3, surface), (2, 4, y.srcXY.toNat), (3, 5, y.srcWH.toNat), (4, 6, y.dstXY.toNat),
   (5, 7, y.dstWH.toNat), (6, 8, y.blend.toNat), (7, 9, y.alpha.toNat), (8, 10, y.matrix.toNat), (9, 11, y.rot.toNat),
   (10, 12, y.hint.toNat)].filter (fun e => bitOf y.mask.toNat e.1)

/-- The greatest value of a layer object (Table CM-6). -/
def layerMax (sub : Nat) : Nat :=
  if sub = 2 then 1 else if sub = 8 then 2 else if sub = 9 then 255 else if sub = 10 ∨ sub = 11 then 3
  else if sub = 12 then 2 else 2 ^ 32 - 1

/-- Whether the selected fields pass the dictionary's range checks and R79, R80 and R88, judged together (R127, log 44). -/
def layerSetOk (s : State) (f p k surface : Nat) (y : LayerSetPayload) : Bool :=
  let fs := layerSetFields surface y
  let after := fs.foldl (fun l e => l.withSub e.2.1 e.2.2) (layerShadow s p k)
  p < 8 && k < 6 && layerOwner s p k == f && fs.all (fun e => decide (e.2.2 ≤ layerMax e.2.1))
    && fs.all (fun e => e.2.1 != 3 || surface == 0 || mayRead s f surface)
    && (!fs.any (fun e => 3 ≤ e.2.1 && e.2.1 ≤ 5) || sourceOk s after)

/-- Writes the selected fields to the layer's shadow copy. -/
def layerSetApply (s : State) (p k surface : Nat) (y : LayerSetPayload) : State :=
  (layerSetFields surface y).foldl (fun s e => writeN s (layerKey p k e.2.1) e.2.2) s

end Sys2Proof.Machine
end

