-- ==== Sys2Proof/Machine/Domains.lean ====
section
/-!
DEFINITION. Power domains: what each needs, the conditions that power it (R433), the claims on it (R164, R317, R440), when it
waits to ramp or stops (R434 to R437), and CLAIMED refusals (R318).
-/

namespace Sys2Proof.Machine

/-- dom.state codes (Table PW-2). -/
def domOff : Nat := 0
def domRamping : Nat := 1
def domTesting : Nat := 2
def domOn : Nat := 3
def domStopping : Nat := 4
def domCut : Nat := 5

/-- The state of a domain. -/
def domSt (s : State) (d : Nat) : Nat := getN s (K.domState d)

/-- The domains a domain needs (Table PW-1). -/
def domNeeds (d : Nat) : List Nat :=
  if d = 0 then [] else if d = 3 then [2, 11] else if d = 4 ∨ d = 5 ∨ d = 10 then [2]
  else if 6 ≤ d ∧ d ≤ 9 then [10] else if d = 12 ∨ d = 13 ∨ d = 23 then [11] else [0]

/-- The domains that need a domain (Table PW-1). -/
def domDependents (d : Nat) : List Nat :=
  if d = 2 then [3, 4, 5, 10] else if d = 10 then [6, 7, 8, 9] else if d = 11 then [3, 12, 13, 23] else []

/-- The domain of a scan-out engine: PD12 for SE0 to SE3, PD13 for SE4 to SE8. -/
def engineDomain (e : Nat) : Nat := if e < 4 then 12 else 13

/-- The domain of a port's PHY. -/
def phyDomain (p : Nat) : Nat := if p < 4 then 14 else 15

/-- The chiplets of a panel.chips mask (R336). -/
def chipsOf (v : Nat) : List Nat := (List.range 4).filter (fun c => bitOf v c)

/-- The chiplets that serve a panel (panel.chips). -/
def panelChips (s : State) (p : Nat) : List Nat := chipsOf (getN s (K.panelChips p))

/-- The domain of a touch chiplet. -/
def chipDomain (c : Nat) : Nat := if c < 2 then 19 else 20

/-! ## Claims (R164, R317) -/

/-- Whether a port's Kaolin plane is active. -/
def kaolinOn (s : State) (p : Nat) : Bool := (portOf s p).kactive.enable

/-- Whether a domain is under a Kaolin claim (R164). -/
def kaolinClaim (s : State) (d : Nat) : Bool :=
  if d = 11 then (List.range 8).any (kaolinOn s)
  else (List.range 8).any (fun p => kaolinOn s p && getN s (K.outState p) != 0 &&
    (((portOf s p).engine.map engineDomain == some d) || ((portOf s p).spare.map engineDomain == some d) || phyDomain p == d))

/-- Whether a domain is held by claim.hold, by hardware for PD01, or by a Kaolin claim (R317). -/
def claimHeld (s : State) (d : Nat) : Bool := d == 1 || getB s (K.claimHold d) || kaolinClaim s d

/-- world.claim of a domain: 0 FREE, 1 CLAIMED, 2 NOTICE, 3 CUT (Table WO-9). -/
def claimState (s : State) (d : Nat) : Nat :=
  if s.power.cut.contains d then 3 else if s.power.notice.any (·.1 == d) then 2 else b2n (claimHeld s d)

/-- Whether a domain counts as claimed against the open world. -/
def isClaimed (s : State) (d : Nat) : Bool := claimState s d != 0

/-- The domains that an emergency in force keeps off (Table PW-8). -/
def emergencyMask (s : State) (d : Nat) : Bool :=
  ((s.power.thermal == 2 || s.power.supply == 2) && 2 ≤ d)
    || ((s.power.thermal == 1 || s.power.supply == 1) && [5, 6, 7, 8, 9, 10, 21, 23].contains d)
    || (s.power.pd01Cut && d == 1)

/-! ## Conditions (R433) -/

/-- The module's power mode (Table PW-3). -/
def pwrMode (s : State) : Nat := getN s K.pwrMode

/-- Whether a start has reached a step of Table PW-4, or is over. -/
def reached (s : State) (n : Nat) : Bool := pwrMode s != 0 || n ≤ s.power.step

/-- The step of the shut-down to STANDBY at which a domain is powered down (R442). -/
def standbyStep (d : Nat) : Nat := if d = 3 then 3 else if d = 2 ∨ d = 4 then 5 else 4

/-- The condition of a domain's row in Table PW-1, in a start and in RUN. -/
def rowCondition (s : State) (d : Nat) : Bool :=
  if d = 2 then reached s 4
  else if d = 3 ∨ d = 4 ∨ d = 16 ∨ d = 17 then reached s 6
  else if d = 5 then (List.range 4).any (fun l => getB s (K.linkEnable l)) && reached s 11
  else if 6 ≤ d ∧ d ≤ 9 then
    (List.range 9).any (fun i => getN s (K.coreState ((d - 6) * 9 + i)) == 1 || getN s (K.coreState ((d - 6) * 9 + i)) == 2)
      && reached s 10
  else if d = 10 then reached s 10
  else if d = 11 then
    (List.range 8).any (fun p => getB s (K.outEnable p) || getB s (K.kaolinEnable p) || kaolinOn s p)
      || (List.range 8).any (fun i => getB s (K.spreadEnable i)) || s.power.loading
  else if d = 12 ∨ d = 13 then
    (List.range 8).any (fun p => (portOf s p).engine.map engineDomain == some d || (portOf s p).spare.map engineDomain == some d)
      || s.power.tests.contains d
  else if d = 14 then (List.range 4).any (fun p => getB s (K.outEnable p))
  else if d = 15 then (List.range 4).any (fun p => getB s (K.outEnable (p + 4)))
  else if d = 18 then [4, 5].any (fun r => [1, 2, 3, 4, 5, 7].contains (getN s (K.rankState r))) || s.mem.migr.isSome
  else if d = 19 ∨ d = 20 then
    (List.range 4).any (fun p => getB s (K.panelEnable p) && (panelChips s p).any (fun c => chipDomain c == d))
  else if d = 21 then getB s K.hapEnable
  else if d = 22 then getB s K.sndEnable
  else if d = 23 then reached s 11
  else true

/-- The condition of a domain's row in Table PW-1; in TO_STANDBY it lapses at the domain's step of the shut-down (R442), and in
STANDBY it does not hold (R443). -/
def tableCondition (s : State) (d : Nat) : Bool :=
  if d = 1 then pwrMode s != 3
  else if pwrMode s = 3 then d == 0
  else if pwrMode s = 2 then decide (s.power.down < standbyStep d) && rowCondition s d
  else rowCondition s d

/-- The conditions of R433 that hold of a domain by itself, counted: its row's, dom.hold, the Grog manager's tests, dom.tw of
a claimed domain, a Kaolin claim. -/
def ownConditions (s : State) (d : Nat) : Nat :=
  b2n (tableCondition s d) + b2n (getB s (K.domHold d)) + b2n (s.power.tests.contains d && d != 12 && d != 13)
    + b2n (isClaimed s d && getB s (K.domTw d)) + b2n (kaolinClaim s d)

/-- Whether a domain is on in the sense of R433 and R434: neither OFF nor CUT. -/
def isUp (s : State) (d : Nat) : Bool := domSt s d != domOff && domSt s d != domCut

/-- Whether a domain by itself should be powered: a claimed domain only on the trusted world's request (R440),
which the Kaolin load of PD11 is too (Table PW-4), a cut or
emergency domain not at all (R321, R322). PD01 follows its row alone (R317). -/
def wantsAlone (s : State) (d : Nat) : Bool :=
  if emergencyMask s d || s.power.resetOff.isSome || !s.power.good then false
  else if d = 1 ∨ 2 ≤ pwrMode s then tableCondition s d
  else if claimState s d = 3 then false
  else if isClaimed s d then getB s (K.domTw d) || kaolinClaim s d || (d == 11 && s.power.loading)
  else ownConditions s d != 0

/-- Whether a domain should be powered, a dependent that is on or wanted being a condition (R433, log 50). -/
def wanted (s : State) (d : Nat) : Bool :=
  d == 0 || wantsAlone s d ||
    (!(emergencyMask s d || s.power.resetOff.isSome || !s.power.good || claimState s d == 3) &&
      (domDependents d).any (fun e => isUp s e || wantsAlone s e ||
        (domDependents e).any (fun g => isUp s g || wantsAlone s g)))

/-- dom.users: the conditions now holding, dependents included (Table PW-2). -/
def domUsers' (s : State) (d : Nat) : Nat :=
  ownConditions s d + ((domDependents d).filter (fun e => isUp s e || wantsAlone s e)).length

/-- Brings one domain in line with its conditions: an off domain with one waits to ramp, an on domain without one reads
STOPPING (R434, R437). The management cluster serves the dictionary until PD02 begins to shut down (R46). -/
def settleDomain (s : State) (d : Nat) : State :=
  let st := domSt s d
  if d = 0 then s
  else if wanted s d then
    if (st = domOff ∨ st = domCut) ∧ !s.power.ramp.contains d then
      { s with power := { s.power with ramp := s.power.ramp ++ [d] } }
    else s
  else
    let s := if s.power.ramp.contains d then { s with power := { s.power with ramp := s.power.ramp.erase d } } else s
    if st = domRamping ∨ st = domTesting ∨ st = domOn then { putN s (K.domState d) domStopping with served := s.served && d != 2 } else s

/-- The trusted world's interrupt cause of a substitution that waits for a domain (R475). -/
def intGrog : Nat := 7

/-- Whether a substitution must wait for the trusted world to power a domain: claimed through claim.hold, under no Kaolin claim, dom.tw
false, and the domain off (R475). -/
def domainWithheld (s : State) (d : Nat) : Bool := getB s (K.claimHold d) && !kaolinClaim s d && !getB s (K.domTw d) && !isUp s d

/-- A substitution that needs a withheld domain tells the trusted world (R475). -/
def askDomain (s : State) (d : Nat) : State := if domainWithheld s d then interruptTw s intGrog else s

/-- Brings every domain in line with its conditions. Dependents come before the domains they need. -/
def settle (s : State) : State := foldN [1, 6, 7, 8, 9, 3, 4, 5, 10, 12, 13, 23, 2, 11, 14, 15, 16, 17, 18, 19, 20, 21, 22] settleDomain s

/-- Whether every domain of a list reads ON. -/
def allOn (s : State) (ds : List Nat) : Bool := ds.all (fun d => domSt s d == domOn)

/-- A queued enable runs: INTRANSIT_RESOLVED (Table PW-9); the function's own start follows. -/
def resolved (s : State) (d idx sub : Nat) : State :=
  emit (dropTransit s (objKey idx sub)) 10 0x0A00 d (leBytes 1 d ++ leBytes 2 idx ++ leBytes 1 sub) []

/-- Whether some domain of a list is shutting down: an enable that needs it is queued (R439). In TO_STANDBY all are. -/
def anyStopping (s : State) (ds : List Nat) : Bool := pwrMode s == 2 || ds.any (fun d => domSt s d == domStopping)

/-- A write to an enable object whose function needs domains and may be shutting down (R48, R49, R439): queued, withdrawn, or
handed to the function's start or stop. -/
def enableWrite (s : State) (k : Nat) (on stopping : Bool) (start stop : State → State) : State × Status :=
  if on then
    if s.transit.contains k then (s, .intransit)
    else if stopping then (addTransit (writeB s k true) k, .intransit)
    else if getB s k then (s, .ok) else (start s, .ok)
  else if s.transit.contains k then (dropTransit (writeB s k false) k, .ok)
  else if getB s k then (stop s, .ok) else (s, .ok)

/-! ## CLAIMED refusals (R318) -/

/-- A domain and the domains it needs, directly or not. -/
def domClosure (d : Nat) : List Nat := (d :: (domNeeds d ++ (domNeeds d).flatMap domNeeds)).dedup

/-- The claimed domains that stand in the way of powering a list of domains: OFF, STOPPING or CUT (R318). -/
def blockedBy (s : State) (ds : List Nat) : List Nat :=
  (ds.flatMap domClosure).dedup.filter (fun d => d != 0 && isClaimed s d &&
    (domSt s d == domOff || domSt s d == domStopping || domSt s d == domCut))

/-- The requester code of the refusal log (Table WO-5). -/
def requesterCode (c : WCtx) : Nat := if c.role = .sb then 0xF1 else if c.func ≤ 64 then c.func else 0xF0

/-- Counts a refused request once, and logs it and raises CLAIM_REFUSED once for each domain (R318). -/
def refuseClaim (s : State) (c : WCtx) (session req : Nat) (ds : List Nat) : State :=
  foldN ds (fun s d =>
    let e := leBytes 8 s.now ++ leBytes 1 d ++ leBytes 1 req ++ leBytes 1 (requesterCode c) ++ leBytes 1 c.role.code
      ++ leBytes 2 session ++ leBytes 2 0
    emit { s with refuseLog := lastN 64 (s.refuseLog ++ [e]) } 10 0x0A10 d
      (leBytes 1 d ++ leBytes 1 req ++ leBytes 1 (requesterCode c)) [])
    (bump s K.worldRefused)

end Sys2Proof.Machine
end

