-- ==== Sys2Proof/Machine/Clocks.lean ====
section
/-!
DEFINITION. Clock islands: the clock objects (R461, R462) and the copies of module time (R470).
-/

namespace Sys2Proof.Machine

/-- Whether an island's clock may run: its domain reads ON, TESTING or STOPPING (R460). -/
def islandPowered (s : State) (i : Nat) : Bool :=
  let st := domSt s (islandDomain i)
  st == domOn || st == domTesting || st == domStopping

/-- The shader clock in MHz that the thermal level allows (R454). -/
def thermalClock (s : State) : Nat :=
  let l := s.power.throttle
  if l = 0 then 1600 else if l = 1 then 1200 else 800

/-- Whether an island is one of the shader slices, whose clock has a cap. -/
def isSlice (i : Nat) : Bool := 16 ≤ i && i ≤ 19

/-- A slice's clock in MHz: the lower of its isl.rate and the thermal level's (R461). -/
def sliceClock (s : State) (i : Nat) : Nat := min (getN s (K.islRate i)) (thermalClock s)

/-- isl.clock in kHz: 0 while the domain is off, while gated and idle, and while a slice changes its rate (R461, R462). -/
def islandClock (s : State) (i : Nat) : Nat :=
  if !islandPowered s i || (getB s (K.islGate i) && Config.islandIdle i s.now) then 0
  else if isSlice i then if s.now < tget s.rateStop i 0 then 0 else 1000 * sliceClock s i
  else if 22 ≤ i ∧ i ≤ 29 then
    let m := (portOf s (i - 22)).runMode
    if m = 0xFF then 0 else modePclk m
  else islandNominal i

/-- gpu.clock in MHz: the highest clock in force among the slices that are powered (R461); where none is, the default stands. -/
def gpuClock (s : State) : Nat :=
  match (List.range 4).filter (fun i => islandPowered s (16 + i)) with
  | [] => 1600
  | is => (is.map (fun i => sliceClock s (16 + i))).foldl max 0

/-- The group of Table EL-3's shader slices in mW, by the clock in force; a clock between two of the table's is held by the faster. -/
def sliceDraw (s : State) : Nat :=
  let c := gpuClock s
  if c ≤ 800 then 20000 else if c ≤ 1200 then 32000 else 48000

/-- The groups of Table EL-3 but PD00's: their domains and their maximum in mW. -/
def drawGroups (s : State) : List (List Nat × Nat) :=
  [([1, 2, 3, 4], 9000), ([5], 8000), ([6, 7, 8, 9], sliceDraw s), ([10], 3000), ([11, 12, 13], 8000), ([14, 15], 10000)
  , ([16, 17], 17000), ([18], 2800), ([19, 20], 2000), ([21], 6000), ([22], 1000), ([23], 2000)]

/-- The most that the module draws, in mW: a group that is off adds nothing to the 1.2 W of PD00 (R515, R516). -/
def drawLimit (s : State) : Nat :=
  1200 + (((drawGroups s).filter (fun g => g.1.any (isUp s))).map (·.2)).sum

/-- The module's input power in mW, within its limit (R515). -/
def inputPower (s : State) : Nat := min (Config.inputPower (s.now / 10000000)).toNat (drawLimit s)

/-- pwr.draw in 0.1 W: input power as measured every 10 ms, to 3 % and 0.5 W (R514). -/
def drawReading (s : State) : Nat :=
  let p := inputPower s
  max (ceilDiv (97 * p - 50000) 10000) (min (Config.drawReading (s.now / 10000000)).toNat ((103 * p + 50000) / 10000))

/-- The domains of an island: island 21 spans PD11 to PD13 (Table CI-1). -/
def islandDomains (i : Nat) : List Nat := if i = 21 then [11, 12, 13] else [islandDomain i]

/-- The claimed domains that refuse a clock request for an island (R318, R461). -/
def islandClaims (s : State) (i : Nat) : List Nat := (islandDomains i).filter (isClaimed s)

/-- The range checks of a write to isl.gate or isl.rate (R461, R462). -/
def islandCheck (i sub v : Nat) : Status :=
  if sub = 5 then (if v = 1 ∧ !islandGateable i then .range else .ok)
  else if sub = 6 then (if !isSlice i ∨ !([1600, 1200, 800].contains v) then .range else .ok)
  else .ok

/-- The effect of an accepted write: a slice's clock stops for at most 2 µs at a rate change (R461); how long is a free value. -/
def islandApply (s : State) (i sub v : Nat) : State :=
  if sub = 6 ∧ v ≠ getN s (K.islRate i) then
    let t := s.now + Config.freeNat s.fresh % 2001
    writeN (draw { s with rateStop := tset s.rateStop i t }) (K.islRate i) v
  else writeN s (objKey (0x8110 + i) sub) v

/-- Module time locked to the time master: it takes the master's time, and does not step backwards (R17, log 237). -/
def lockTime (s : State) (master : Nat) : State := if getB s K.timeLocked then { s with now := max s.now master } else s

/-- TIME_UPDATE: while locked, module time follows the master's; island 0 sends it to every other island that runs; no copy steps
backwards (R17, R470). -/
def execTimeUpdate (master : BitVec 64) (s : State) : Host.Outcome State Fault Refusal :=
  let s := lockTime s master.toNat
  .next (foldN (numbers 40 (fun i => i != 0 && islandPowered s i))
    (fun s i => { s with islTime := tset s.islTime i (max (tget s.islTime i 0) s.now) }) s)

end Sys2Proof.Machine
end

