-- ==== Sys2Proof/Machine/Fences.lean ====
section
/-!
DEFINITION. Fences (R228 to R234): claims, signals, waits and their failures, and the meanings of FENCE_SIGNAL, FENCE_WAIT and
FENCE_WAIT_TIMEOUT.
-/

namespace Sys2Proof.Machine

/-! ## Fence slots -/

/-- fence.state codes (Table CT-4). -/
def fenceFree : Nat := 0
def fenceLive : Nat := 1
def fenceAbandoned : Nat := 2

/-- The slot that a fence handle names, if the handle is current (R228). -/
def fenceSlot (s : State) (handle : Nat) : Option Nat :=
  if handle ≠ 0 ∧ getN s (K.fenceHandle (handle % 256)) = handle then some (handle % 256) else none

/-- Whether a function may wait on a fence: it owns it, it is shared with it, or it is the PF on H1 (R229, Table CT-5). -/
def mayWait (s : State) (f slot : Nat) : Bool :=
  getN s (K.fenceOwner slot) == f || f == 64 || (f < 64 && bitOf (getN s (K.fenceShare slot)) f)

/-- The rings with a wait held on a fence slot. -/
def fenceWaits (s : State) (slot : Nat) : List Nat :=
  (s.rings.filter (fun e => (e.2.wait.map (·.slot)) == some slot)).map (·.1)

/-- fence.waiters of a slot. -/
def fenceWaiters (s : State) (slot : Nat) : Nat := (fenceWaits s slot).length

/-- A held wait fails: FAULT with the cause, the ring resumes, and drops LAYER_SET and COMMIT up to its next wait (R232). -/
def failWait (s : State) (h cause : Nat) : State :=
  match (ringOf s h).wait with
  | none => s
  | some w => completeR (modRing s h (fun r => { r with wait := none, dropUntilWait := true })) w.ticket 3 cause

/-- Ends the waits that a fence's value satisfies: OK with the observed value (R231). -/
def satisfyWaits (s : State) (slot : Nat) : State :=
  foldN (fenceWaits s slot) (fun s h =>
    match (ringOf s h).wait with
    | none => s
    | some w =>
      if w.value ≤ getN s (K.fenceValue slot) then
        completeR (modRing s h (fun r => { r with wait := none })) w.ticket 0 (getN s (K.fenceValue slot))
      else s) s

/-- A fence is signalled: its value rises, the class "fence signalled" of Table FP-8 occurs on its owner and the manager's
function (the spec gives this event no code), waits end. -/
def signalFence (s : State) (slot v : Nat) : State :=
  let s := writeN s (K.fenceValue slot) (max v (getN s (K.fenceValue slot)))
  satisfyWaits (foldN (eventFuncs s [getN s (K.fenceOwner slot)]) (fun s f => raiseClass s f 3) s) slot

/-- A fence becomes ABANDONED: every wait held on it fails (R232, R233). -/
def abandonFence (s : State) (slot : Nat) : State :=
  foldN (fenceWaits s slot) (fun s h => failWait s h 2) (putN s (K.fenceState slot) fenceAbandoned)

/-- A fence slot is claimed: a new generation and handle, value 0 (R228). -/
def claimFence (s : State) (slot : Nat) : State :=
  let g := nextGen (tget s.fenceGen slot 0)
  let s := putN { s with fenceGen := tset s.fenceGen slot g } (K.fenceHandle slot) (slot + 65536 * g)
  writeN (putN s (K.fenceState slot) fenceLive) (K.fenceValue slot) 0

/-- A fence slot is free: its handle names nothing. -/
def freeFence (s : State) (slot : Nat) : State := putN (putN s (K.fenceState slot) fenceFree) (K.fenceHandle slot) 0

/-! ## Writing fence objects (R228, R229, R75, R284) -/

/-- Whether a session may write a subindex of a fence slot: the owner its objects, a VF the owner by WRITE_IF (R228, R229). -/
def fenceAccess (s : State) (c : WCtx) (i sub v : Nat) : Bool :=
  let o := getN s (K.fenceOwner i)
  if sub = 1 then c.isMgr || (c.role == .vf && c.cond && ((o == 0xFF && v == c.func) || (o == c.func && v == 0xFF)))
  else if sub = 2 then c.func == o
  else c.isMgr || (c.role == .vf && o == c.func)

/-- The checks of a write to a fence object, after its range (R229, R284). -/
def fenceCheck (s : State) (i sub v : Nat) : Status :=
  if sub = 1 then
    let o := getN s (K.fenceOwner i)
    if v ≠ o ∧ v ≠ 0xFF ∧ (overGrant s v (ownedCount s 0x3700 0x3800 v) (getN s (K.grantFences v)) ∨ !funcExists s v) then .range
    else .ok
  else if sub = 2 ∧ v < getN s (K.fenceValue i) then .range
  else .ok

/-- The effect of an accepted write to a fence object. Giving up a live fence abandons its waits (log 90). -/
def fenceApply (s : State) (i sub v : Nat) : State :=
  if sub = 1 then
    let o := getN s (K.fenceOwner i)
    if v = o then s
    else
      let s := if o = 0xFF then s else abandonFence s i
      let s := writeN s (K.fenceOwner i) v
      if v = 0xFF then freeFence s i else claimFence s i
  else if sub = 2 then
    if v = getN s (K.fenceValue i) then s else signalFence s i v
  else writeN s (objKey (0x3700 + i) sub) v

/-! ## Signals and waits (R230 to R232) -/

/-- Whether a ring has work of a ticket's epoch, fetched before it, that has not completed: a pass or an earlier signal. -/
def earlierWork (s : State) (t : Ticket) : Bool :=
  let before := fun (u : Ticket) => u.ring == t.ring && u.epoch == t.epoch
    && decide (u.era < t.era ∨ (u.era = t.era ∧ u.index < t.index))
  s.ctxs.any (fun e => e.2.passes.any (fun p => before p.ticket)) || s.signals.any (fun x => before x.ticket)

/-- A FENCE_SIGNAL executes (R230, R232). -/
def doSignal (s : State) (t : Ticket) (handle v : Nat) : State :=
  match fenceSlot s handle with
  | none => completeR s t 3 3
  | some i =>
    if getN s (K.fenceOwner i) ≠ t.func ∨ getN s (K.fenceState i) ≠ fenceLive then completeR s t 3 3
    else
      let s := signalFence s i v
      completeR s t 0 (getN s (K.fenceValue i))

/-- Executes the held signals whose earlier work is done. -/
def runSignals : Nat → State → State
  | 0, s => s
  | n + 1, s =>
    match s.signals.find? (fun x => !earlierWork s x.ticket) with
    | none => s
    | some x => runSignals n (doSignal { s with signals := s.signals.erase x } x.ticket x.handle x.value)

/-- FENCE_SIGNAL (R230): at once, or held until every earlier command of its ring has completed. -/
def execFenceSignal (h : CmdHdr) (fence : BitVec 32) (value : BitVec 64) (s : State) : Host.Outcome State Fault Refusal :=
  match beginCmd s h 0x01 (fenceBytes fence 0 value) false with
  | (s, none) => .next s
  | (s, some t) =>
    if earlierWork s t then .next { s with signals := s.signals ++ [⟨t, fence.toNat, value.toNat⟩] }
    else .next (doSignal s t fence.toNat value.toNat)

/-- A wait that fails at once (R232). -/
def waitFails (s : State) (t : Ticket) (cause : Nat) : State :=
  completeR (modRing s t.ring (fun r => { r with dropUntilWait := true })) t 3 cause

/-- FENCE_WAIT (R231, R232). A timeout above 600000 is a failed wait; the spec states no cause, so the cause is a free value
(log 91). -/
def execFenceWait (h : CmdHdr) (fence timeout : BitVec 32) (value : BitVec 64) (s : State) : Host.Outcome State Fault Refusal :=
  match beginCmd s h 0x02 (fenceBytes fence timeout value) false with
  | (s, none) => .next s
  | (s, some t) =>
    let s := modRing s t.ring (fun r => { r with dropUntilWait := false })
    match fenceSlot s fence.toNat with
    | none => .next (waitFails s t 3)
    | some i =>
      if !mayWait s t.func i then .next (waitFails s t 3)
      else if 600000 < timeout.toNat then .next (waitFails (draw s) t (Config.freeNat s.fresh % 256))
      else if getN s (K.fenceState i) = fenceAbandoned then .next (waitFails s t 2)
      else if value.toNat ≤ getN s (K.fenceValue i) then .next (completeR s t 0 (getN s (K.fenceValue i)))
      else
        let due := if timeout.toNat = 0 then none else some (s.now + timeout.toNat * 1000000)
        .next (modRing s t.ring (fun r => { r with wait := some ⟨t, i, value.toNat, due⟩ }))

/-- FENCE_WAIT_TIMEOUT: the wait of a ring fails once its timeout has passed (R232). -/
def execFenceWaitTimeout (ring : Fin 256) (s : State) : Host.Outcome State Fault Refusal :=
  match (ringOf s ring).wait with
  | some w =>
    match w.failAt with
    | some at_ => if at_ ≤ s.now then .next (failWait s ring 1) else .next s
    | none => .next s
  | none => .next s

end Sys2Proof.Machine
end

