-- ==== Sys2Proof/Machine/Grog.lean ====
section
/-!
DEFINITION. The Grog manager: the spares map (R476), its log and events (R482, R485), substitutions (R471 to R473), health
(R483), MRAM rows (R479 to R481).
-/

namespace Sys2Proof.Machine

/-- The classes of Table GS-1. -/
def clsCore : Nat := 1
def clsRank : Nat := 2
def clsEngine : Nat := 3
def clsLane : Nat := 4
def clsChannel : Nat := 5
def clsDriver : Nat := 6
def clsRow : Nat := 7

/-- The states of a unit in the spares map (R476). -/
def unitInService : Nat := 0
def unitSpare : Nat := 1
def unitRetired : Nat := 2
def unitFailed : Nat := 3

/-- The state of a unit at the first start: the spares of Table GS-1. -/
def firstUnitState (c u : Nat) : Nat :=
  if c = 1 then b2n (u == 8 || u == 17 || u == 26 || u == 35)
  else if c = 2 then b2n (4 ≤ u) else if c = 3 then b2n (8 ≤ u) else if c = 4 then b2n (u % 256 == 4)
  else if c = 5 then b2n (128 ≤ u % 256) else if c = 6 then b2n (u == 16) else 0

/-- The key of a unit in the spares map. -/
def unitKey (c u : Nat) : Nat := c * 2 ^ 20 + u

/-- The state of a unit in the spares map. -/
def unitState (s : State) (c u : Nat) : Nat := tget s.grog.units (unitKey c u) (firstUnitState c u)

/-- Sets the state of a unit in the spares map. -/
def setUnit (s : State) (c u st : Nat) : State := modGrog s (fun g => { g with units := tset g.units (unitKey c u) st })

/-- The units of a class (Table GS-1), rows apart. -/
def classUnits (c : Nat) : List Nat :=
  if c = 1 then List.range 36 else if c = 2 then List.range 6 else if c = 3 then List.range 9
  else if c = 4 then (List.range 4).flatMap (fun l => (List.range 5).map (fun i => i + 256 * l))
  else if c = 5 then (List.range 4).flatMap (fun l => (List.range 132).map (fun i => i + 256 * l))
  else if c = 6 then List.range 17 else []

/-- The free spare rows of an MRAM bank. -/
def freeRows (s : State) (bank : Nat) : Nat := 64 - tget s.grog.spareUsed bank 0

/-- The free spares of a class, in number order. -/
def freeSpares (s : State) (c : Nat) : List Nat := (classUnits c).filter (fun u => unitState s c u == unitSpare)

/-- health.spares of a class (Table GS-2). -/
def spareCount (s : State) (c : Nat) : Nat := if c = 7 then sumN 16 (freeRows s) else (freeSpares s c).length

/-- The health subsystem (A001 subindex, from 0) of a spare class. -/
def classSubsystem (c : Nat) : Nat :=
  if c = 1 then 0 else if c = 2 then 1 else if c = 3 then 2 else if c = 4 then 5 else if c = 5 then 3 else if c = 6 then 4 else 6

/-- Whether a spare class is at or below its health.low (R483). -/
def classLow (s : State) (c : Nat) : Bool := decide (spareCount s c ≤ getN s (K.healthLow (c - 1)))

/-- Whether some unit of a class is retired or failed without a spare in its place. -/
def unitLost (s : State) (c : Nat) : Bool :=
  (classUnits c).any (fun u => unitState s c u == unitRetired && (tfind s.grog.repl (unitKey c u)).isNone)

/-- Whether a subsystem's function cannot run (R483): a port OFF under R139, a panel or channel FAILED, a link FAILED with none other up
(log 307), a rank that cannot serve its unit, kaolin.tw DOWN. -/
def subFailed (s : State) (i : Nat) : Bool :=
  if i = 1 then (List.range 6).any (fun r => getN s (K.rankState r) == 8 && getN s (K.rankUnit r) != 0xFF)
  else if i = 2 then (List.range 8).any (fun p => (portOf s p).noEngine)
  else if i = 3 then (List.range 4).any (fun p => getN s (K.panelState p) == 5)
  else if i = 4 then (List.range 16).any (fun c => getN s (K.chState c) == 6)
  else if i = 5 then (List.range 4).any (fun l => getN s (K.linkState l) == 4)
    && !(List.range 4).any (fun l => getN s (K.linkState l) == 2 || getN s (K.linkState l) == 3)
  else if i = 7 then getN s K.kaolinTw == 2
  else false

/-- Whether a subsystem is degraded (R483): a unit retired without a spare, a rank or a link DEGRADED, a link FAILED where another carries
its traffic (log 307), a panel's line masked, a channel TRIPPED, a spare class low, the interlock open (R507). -/
def subDegraded (s : State) (i : Nat) : Bool :=
  (List.range 7).any (fun c => classSubsystem (c + 1) == i && (classLow s (c + 1) || unitLost s (c + 1)))
    || (i == 1 && (List.range 6).any (fun r => getN s (K.rankState r) == 7))
    || (i == 4 && (List.range 16).any (fun c => getN s (K.chState c) == 5))
    || (i == 4 && getB s K.hapEnable && !getB s K.hapIlk)
    || (i == 3 && (List.range 4).any (fun p => getN s (K.panelMasked p) != 0))
    || (i == 5 && (List.range 4).any (fun l => getN s (K.linkState l) == 3 || getN s (K.linkState l) == 4))

/-- health.sub of a subsystem: 0 OK, 1 DEGRADED, 2 FAILED. -/
def subHealth (s : State) (i : Nat) : Nat := if subFailed s i then 2 else if subDegraded s i then 1 else 0

/-- Brings the health summary up to date and raises HEALTH_CHANGE for each change (R483, R485). Subsystem 8 is the module
(log 70). -/
def updateHealth (s : State) : State :=
  let s' := foldN (List.range 8) (fun s i =>
    let new := subHealth s i
    let old := getN s (K.healthSub i)
    if new = old then s
    else emitSb (putN s (K.healthSub i) new) 12 0x0C02 i (leBytes 1 i ++ leBytes 1 old ++ leBytes 1 new) []) s
  let worst := (List.range 8).foldl (fun m i => max m (getN s' (K.healthSub i))) 0
  let old := getN s' K.healthModule
  if worst = old then s'
  else emitSb (putN s' K.healthModule worst) 12 0x0C02 8 (leBytes 1 8 ++ leBytes 1 old ++ leBytes 1 worst) []

/-- GROG_SUBST, and GROG_LOW where the class's spares have reached health.low (R485). -/
def grogEvent (s : State) (cls kind unit spare : Nat) (low : Bool) : State :=
  let s := emit s 12 0x0C00 cls (leBytes 1 cls ++ leBytes 1 kind ++ leBytes 2 unit ++ leBytes 2 spare) []
  if low && classLow s cls then emitSb s 12 0x0C01 cls (leBytes 1 cls ++ leBytes 2 (spareCount s cls)) [] else s

/-- The unit that serves a place, a place being the unit that serves it at the first start. -/
def servedBy (s : State) (c p : Nat) : Nat := tget s.grog.place (unitKey c p) p

/-- The place that a unit serves. -/
def placeOf (s : State) (c u : Nat) : Nat :=
  match s.grog.place.find? (fun e => e.1 / 2 ^ 20 == c && e.2 == u) with
  | some e => e.1 % 2 ^ 20
  | none => u

/-- The generation of a lane, a touch channel or a driver advances (R11), which the log alone shows: their objects count the generation of
the whole that the units belong to. -/
def advanceLogGen (s : State) (cls u : Nat) : State × Nat :=
  let g := (tget s.grog.gens (unitKey cls u) 0 + 1) % 65536
  (modGrog s (fun x => { x with gens := tset x.gens (unitKey cls u) g }), g)

/-- A unit's generation advances (R11): a core's, a rank's, an engine's, which an object or a port shows (R478), or one of the log's. -/
def advanceGen (s : State) (cls u : Nat) : State × Nat :=
  if cls = clsCore then
    let g := (getN s (K.coreGen u) + 1) % 65536
    (putN s (K.coreGen u) g, g)
  else if cls = clsRank then
    let g := (getN s (K.rankGen u) + 1) % 65536
    (putN s (K.rankGen u) g, g)
  else if cls = clsEngine then
    let g := (tget s.engineGen u 0 + 1) % 65536
    ({ s with engineGen := tset s.engineGen u g }, g)
  else advanceLogGen s cls u

/-- A spare takes a failed unit's place: map, count, log, events (R471, R472, R476, R482). -/
def substitute (s : State) (cls unit spare cause gen : Nat) : State :=
  let p := placeOf s cls unit
  let s := setUnit (setUnit s cls unit unitRetired) cls spare unitInService
  let s := modGrog s (fun g => { g with repl := tset g.repl (unitKey cls unit) spare, subst := satInc 32 g.subst
                                        place := if p = spare then tdel g.place (unitKey cls p) else tset g.place (unitKey cls p) spare })
  updateHealth (grogEvent (grogLog s cls 1 unit spare cause 0 gen) cls 1 unit spare true)

/-- A unit is retired with no spare left: map, log, events. -/
def retireUnit (s : State) (cls unit cause : Nat) : State :=
  let s := setUnit s cls unit unitRetired
  updateHealth (grogEvent (grogLog s cls 2 unit 0xFFFF cause 0 0) cls 2 unit 0xFFFF false)

/-- A spare that fails its admission self-test is FAILED and logged (R473); of a core core.state reads RETIRED (Table TP-2). -/
def failSpare (s : State) (cls spare cause : Nat) : State :=
  let s := setUnit s cls spare unitFailed
  let s := if cls = clsCore then putN s (K.coreState spare) 3 else s
  updateHealth (grogEvent (grogLog s cls 3 spare 0xFFFF cause 0 0) cls 3 spare 0xFFFF true)

/-- The candidates for a failed core: free spares of its slice first, then the lowest free core (R473). -/
def coreCandidates (s : State) (core : Nat) : List Nat :=
  let fs := freeSpares s clsCore
  fs.filter (fun u => u / 9 == core / 9) ++ fs.filter (fun u => u / 9 != core / 9)

/-- Tries candidates in order: those that fail their test are FAILED; the first that passes is answered. -/
def trySpares (s : State) (cls cause : Nat) (passes : Nat → Bool) : List Nat → State × Option Nat
  | [] => (s, none)
  | u :: r => if passes u then (s, some u) else trySpares (failSpare s cls u cause) cls cause passes r

/-! ## MRAM rows (R479, R480) -/

/-- The row that a fault of the row at a row number brings in: the lowest free spare row of its bank, with the content, mapped, counted and
logged (R479). -/
def spareRow (s : State) (q : Nat) : State :=
  let bank := q / 2048
  let n := tget s.grog.spareUsed bank 0
  let s := modGrog s (fun g => { g with rowSpare := tset g.rowSpare (rowKey bank (q % 2048)) (2048 + n)
                                        rowWrites := tset g.rowWrites (rowKey bank (2048 + n)) 1
                                        spareUsed := tset g.spareUsed bank (n + 1)
                                        badRows := g.badRows.filter (· ≠ q), spared := satInc 32 g.spared, subst := satInc 32 g.subst })
  updateHealth (grogEvent (grogLog s clsRow 1 q (n + 2048 * bank) 2 0 0) clsRow 1 q (n + 2048 * bank) true)

/-- A write of an address whose read-back differed `bad` times, on the row where wear levelling puts it (R480): after two, a spare row takes
the row's place; a bank without one refuses the write (R479). -/
def mramWriteRow (s : State) (bank row bad : Nat) : State :=
  let l := bank * 2048 + row
  let q := s.grog.levelled l
  let s := modGrog s (fun g => g.countRow l (1 + b2n (1 ≤ bad)))
  if bad < 2 then modGrog s (fun g => { g with badRows := g.badRows.filter (· ≠ q) })
  else if freeRows s (q / 2048) = 0 then modGrog s (fun g => { g with badRows := q :: g.badRows.filter (· ≠ q) })
  else spareRow s q

end Sys2Proof.Machine
end

