-- ==== Sys2Proof/Machine/Memory.lean ====
section
/-!
DEFINITION. Module memory: the symbol code (R250 to R255), reads and writes (R256 to R260), the log (R261), the patrol (R262),
retirement (R264 to R268), refresh and power states (R271 to R274), injection (R277), balance moves (R237), and the meanings
of their commands.
-/

namespace Sys2Proof.Machine

/-! ## The code (R250 to R255) -/

/-- Symbol i of a word given as the number of its 18 bytes: data symbols 0 to 31, check symbols 32 to 35 (R252). -/
def symbolOf (w i : Nat) : Nat := w / 2 ^ (4 * i) % 16

/-- The syndrome of a word: H times its 36 symbols (R254). -/
def syndrome (w : Nat) : Nat := (List.range 36).foldl (fun s i => s ^^^ gfColumn (eccColumn16 i) (symbolOf w i)) 0

/-- The word that stores 16 data bytes: the check symbols make the syndrome 0 (R253). -/
def encodeWord (data : Nat) : Nat := data + 2 ^ 128 * syndrome data

/-- The poison codeword: zero data, check symbols 2 and 3 inverted to 0x1 (R255). -/
def poisonWord : Nat := 2 ^ 128 * 0x1100

/-- What the decoder finds (R254). -/
inductive Decoded where
  | clean
  | poisoned
  | corrected (symbol value : Nat)
  | uncorrectable
  deriving DecidableEq, Repr

/-- The single-symbol errors whose syndrome is `s`. -/
def singleErrors (s : Nat) : List (Nat × Nat) :=
  (List.range 36).flatMap (fun i => ((List.range 16).filter (fun e => e != 0 && gfColumn (eccColumn16 i) e == s)).map (fun e => (i, e)))

/-- The decoder (R254, R255). -/
def decodeWord (w : Nat) : Decoded :=
  let s := syndrome w
  if s = 0 then .clean
  else if s = 0x1100 ∧ w % 2 ^ 128 = 0 then .poisoned
  else match singleErrors s with
    | [(i, e)] => .corrected i e
    | _ => .uncorrectable

/-- The pin that carries a symbol of a word (R251). -/
def symbolPin (word i : Nat) : Nat := if i < 32 then 4 * i + word % 4 else 128 + 4 * (i - 32) + word % 4

/-! ## The stored image (R243, R252) -/

/-- The words of a rank. -/
def rankWords : Nat := 2 ^ 30

/-- The stored form of a word, as a number of 18 bytes. -/
def storedWord (s : State) (rank word : Nat) : Nat := ofLe (memGetAll s.dram (dramKey rank word 0) 18)

/-- Stores the 18 bytes of a word. -/
def storeWord (s : State) (rank word w : Nat) : State := { s with dram := memSetAll s.dram (dramKey rank word 0) (leBytes 18 w) }

/-- The words of a rank that are not all zero. -/
def listedWords (s : State) (rank : Nat) : List Nat :=
  ((s.dram.filter (fun c => decide (dramKey rank 0 0 ≤ c.1 ∧ c.1 < dramKey (rank + 1) 0 0))).map
    (fun c => c.1 / 18 - rank * rankWords)).dedup

/-- Changes the memory controller's record. -/
def modMem (s : State) (g : Mem → Mem) : State := { s with mem := g s.mem }

/-- rank.state codes (Table MM-3). -/
def rkSpare : Nat := 0
def rkTesting : Nat := 1
def rkService : Nat := 2
def rkPending : Nat := 3
def rkDraining : Nat := 4
def rkFilling : Nat := 5
def rkRetired : Nat := 6
def rkDegraded : Nat := 7
def rkFailed : Nat := 8

/-- Whether a rank serves a unit. -/
def rankServes (s : State) (r : Nat) : Bool :=
  [rkService, rkPending, rkDraining, rkDegraded].contains (getN s (K.rankState r))

/-- The neighbour refreshes that an activate brings: with the probability of mem.nrr.log2, as the bank's generator draws it, the rows
around it, at most four (R272). -/
def neighbourRefreshes (s : State) : Nat :=
  if (Config.random s.fresh).toNat % 2 ^ getN s K.memNrrLog2 = 0 then 1 + Config.freeNat s.fresh % 4 else 0

/-- An access to a rank: it leaves power-down, its group self-refresh, and neighbour refreshes may follow (R272 to R274). -/
def touchRank (s : State) (r : Nat) : State :=
  let s := modMem s (fun m => { m with access := tset m.access r s.now, asleep := m.asleep.filter (· ≠ r) })
  let s := if getN s (K.grpState (r / 2)) = 3 then putN s (K.grpState (r / 2)) 2 else s
  putN (draw s) (K.rankNrr r) ((getN s (K.rankNrr r) + neighbourRefreshes s) % 2 ^ 64)

/-! ## The memory log (R261, Table MM-5) -/

/-- Writes a memory log entry; kinds 4 to 9 also go to the Grog log (R482). -/
def memLogEntry (s : State) (kind rank bankWord row col sym val synd source cause other gen : Nat) : State :=
  let seq := (getN s K.memLogSeq + 1) % 2 ^ 32
  let e := leBytes 8 s.now ++ leBytes 4 seq ++ leBytes 1 kind ++ leBytes 1 rank ++ leBytes 2 bankWord ++ leBytes 4 row
    ++ leBytes 2 col ++ leBytes 1 sym ++ leBytes 1 val ++ leBytes 2 synd ++ leBytes 1 source ++ leBytes 5 0
  let s := putN (modMem s (fun m => { m with log := lastN 128 (m.log ++ [e]) })) K.memLogSeq seq
  if 4 ≤ kind then grogLog s 8 6 rank other cause seq gen else s

/-- An entry about a word. -/
def logWord (s : State) (kind rank word sym val synd source cause : Nat) : State :=
  let p := (Config.memPlace word).toNat
  memLogEntry s kind rank (p % 16 + 256 * (word % 4 + 4 * (word / 4 % 4))) (p / 16 % 2 ^ 32) (p / 2 ^ 40) sym val synd source
    cause 0xFFFF 0

/-- An entry of a retirement step: the other rank in the row field, the cause in the column field. -/
def logStep (s : State) (kind rank other cause gen : Nat) : State :=
  memLogEntry s kind rank 0 other cause 0xFF 0 0 0 cause (if other = 0xFF then 0xFFFF else other) gen

/-! ## Retirement (R264 to R268) -/

/-- The ranks that read SPARE, lowest first (R264). -/
def spareRanks (s : State) : List Nat := numbers 6 (fun r => getN s (K.rankState r) == rkSpare)

/-- A rank reads DEGRADED: it stays in service under the code (R264, R276). -/
def degradeRank (s : State) (r cause : Nat) : State :=
  let s := putN (putN s (K.rankState r) rkDegraded) (K.rankCause r) cause
  let s := raiseClass (emit s 7 0x0702 r (leBytes 1 r ++ leBytes 1 cause) []) 0 12
  updateHealth (logStep s 9 r 0xFF cause 0)

/-- A spare reads FAILED (R266). -/
def spareRankFailed (s : State) (r cause : Nat) : State :=
  let s := putN (putN s (K.rankState r) rkFailed) (K.rankCause r) cause
  let s := raiseClass (emit s 7 0x0703 r (leBytes 1 r ++ leBytes 1 cause) []) 0 12
  failSpare (logStep s 8 r 0xFF cause 0) clsRank r cause

/-- A spare of a trained group reads TESTING under a new generation (R266 step 2). -/
def testRank (s : State) (r : Nat) : State :=
  putN (putN s (K.rankState r) rkTesting) (K.rankGen r) ((getN s (K.rankGen r) + 1) % 65536)

/-- Step 2 for a chosen spare: at once where its group is trained, else once it is. Where the group's domain is withheld the trusted world
is told, and the rank reads DEGRADED meanwhile (R475, R264). -/
def takeSpare (s : State) (m : Migration) : State :=
  let up := getN s (K.grpState (m.spare / 2)) = 2 ∨ getN s (K.grpState (m.spare / 2)) = 3
  let s := modMem s (fun x => { x with migr := some { m with phase := if up then 1 else 0, copied := 0, lost := 0 } })
  if up then settle (testRank (putN s (K.rankState m.rank) rkDraining) m.spare)
  else if domainWithheld s (16 + m.spare / 2) ∧ getN s (K.rankState m.rank) ≠ rkDegraded then
    settle (askDomain (degradeRank s m.rank m.cause) (16 + m.spare / 2))
  else settle s

/-- A migration whose group is lost stops, and runs again from its start when the group is trained again (R475). -/
def restartMigration (s : State) (g : Nat) : State :=
  match s.mem.migr with
  | some m =>
    if m.spare / 2 = g ∨ m.rank / 2 = g then
      modMem (putN (putN s (K.rankState m.rank) rkDraining) (K.rankState m.spare) rkSpare)
        (fun x => { x with migr := some { m with phase := 0, copied := 0, lost := 0 } })
    else s
  | none => s

/-- The retirement of a rank begins (R266 step 1). A balance move of the unit is abandoned. -/
def beginRetire (s : State) (r spare cause : Nat) : State :=
  let u := getN s (K.rankUnit r)
  let s := match s.balance.move with
    | some (i, d, _) => if d = u ∨ (surfOf s i).unit = u then { s with balance := { s.balance with move := none } } else s
    | none => s
  let s := putN (putN s (K.rankState r) rkDraining) (K.rankCause r) cause
  let s := emit s 7 0x0700 r (leBytes 1 r ++ leBytes 1 spare ++ leBytes 1 cause) []
  takeSpare (logStep s 6 r spare cause 0) { rank := r, spare := spare, cause := cause, began := s.now }

/-- A rank is due for retirement (R264, R265): it waits for a running migration, or reads DEGRADED where no spare is free. -/
def retireRank (s : State) (r cause : Nat) : State :=
  let st := getN s (K.rankState r)
  if (st ≠ rkService ∧ st ≠ rkDegraded) ∨ s.mem.migr.any (fun m => m.rank == r) then s
  else match spareRanks s with
    | [] => if st = rkDegraded then s else degradeRank s r cause
    | sp :: _ =>
      if s.mem.migr.isSome then
        modMem (putN (putN s (K.rankState r) rkPending) (K.rankCause r) cause) (fun m => { m with due := m.due ++ [(r, cause)] })
      else beginRetire s r sp cause

/-- The next due rank's migration starts, or the rank reads DEGRADED (R265). -/
def nextDue (s : State) : State :=
  match s.mem.due with
  | [] => settle s
  | (r, cause) :: rest =>
    let s := modMem s (fun m => { m with due := rest })
    match spareRanks s with
    | [] => settle (degradeRank s r cause)
    | sp :: _ => beginRetire s r sp cause

/-- A migration's spare has failed: the next free spare is taken, or the draining rank reads DEGRADED (R266, R267). -/
def migrationSpareFailed (s : State) (m : Migration) (cause : Nat) : State :=
  let s := spareRankFailed s m.spare cause
  match spareRanks s with
  | sp :: _ => takeSpare s { m with spare := sp }
  | [] => nextDue (degradeRank (modMem s (fun x => { x with migr := none })) m.rank m.cause)

/-- A group with a rank or the spare of a stopped migration is trained: the migration goes on from the spare's test, or, where the group
failed, with the next spare (R266, R475). -/
def resumeMigration (s : State) (g : Nat) (m : Migration) (failed : Bool) : State :=
  if m.phase = 0 ∧ m.spare / 2 = g ∧ failed then migrationSpareFailed s m 3
  else if m.phase = 0 ∧ (m.spare / 2 = g ∨ m.rank / 2 = g) then takeSpare s m
  else s

/-! ## Reading a word (R256, R259, R260) -/

/-- Adds 1 to a pin's entry of grp.pin.ce. -/
def countPin (s : State) (g pin : Nat) : State :=
  let b := getBytes s (K.grpPinCe g)
  let b := b ++ List.replicate (576 - b.length) 0
  let n := satInc 32 (ofLe ((b.drop (4 * pin)).take 4))
  putV s (K.grpPinCe g) (.bytes (b.take (4 * pin) ++ leBytes 4 n ++ b.drop (4 * pin + 4)))

/-- A lasting correction: counted once per word address in 60 minutes, logged, and a retirement at the limit (R260). -/
def lastingCorrection (s : State) (r word i e synd source : Nat) : State :=
  let bs := tget s.mem.buckets r []
  if bs.any (fun b => b.contains word) then s
  else
    let bs := match bs with
      | [] => [[word]]
      | b :: rest => (word :: b) :: rest
    let s := modMem s (fun m => { m with buckets := tset m.buckets r bs })
    let s := bump (putN s (K.rankCe r) (min 65535 ((bs.map List.length).sum))) (K.rankCeTotal r)
    let s := logWord (countPin s (r / 2) (symbolPin word i)) 2 r word i e synd source 0
    if getN s K.memCeLimit ≤ getN s (K.rankCe r) then retireRank s r 2 else s

/-- A transient correction: counted, logged at most once per rank per second (R259, R261). -/
def transientCorrection (s : State) (r word i e synd source : Nat) : State :=
  let s := bump s (K.rankCeTrans r)
  if tget s.mem.transAt r 0 = s.now / 1000000000 + 1 then s
  else logWord (modMem s (fun m => { m with transAt := tset m.transAt r (s.now / 1000000000 + 1) })) 1 r word i e synd source 0

/-- A lasting uncorrectable error: poison takes the word's place, it is counted, logged and reported, the rank is retired; a
spare being filled fails instead (R256, R260, R267, Table MM-6). -/
def lastingError (s : State) (r word synd source : Nat) : State :=
  let s := storeWord s r word poisonWord
  let s := bump (bump (bump s (K.rankPoison r)) K.memPoison) (K.rankUe r)
  let s := logWord s 4 r word 0xFF 0 synd source 1
  let n := tget s.mem.poisoned r 0 + 1
  let second := s.now / 1000000000 + 1
  let s := if tget s.mem.poisonAt r 0 = second then modMem s (fun m => { m with poisoned := tset m.poisoned r n })
    else emit (modMem s (fun m => { m with poisoned := tset m.poisoned r 0, poisonAt := tset m.poisonAt r second })) 7 0x0704 r
      (leBytes 1 r ++ leBytes 4 n) []
  match s.mem.migr with
  | some m => if m.phase = 2 ∧ m.spare = r then migrationSpareFailed s m 1 else retireRank s r 1
  | none => retireRank s r 1

/-- Whether a symbol of a word lies on a pin that failed training: its corrections count as lasting (R248). -/
def onBadPin (s : State) (r word i : Nat) : Bool :=
  (getBytes s (K.grpBadPins (r / 2))).any (fun b => b.toNat == symbolPin word i)

/-- A word read as `w` with error `e` in its symbol `i` is corrected, written back, and read again to tell a lasting error from a
transient one (R256). -/
def correctWord (s : State) (inj : Bool) (r word n2 src w i e : Nat) : State × Option Nat :=
  let good := w ^^^ (e * 2 ^ (4 * i))
  let s := storeWord s r word good
  let again := decodeWord (good ^^^ n2)
  let s := if inj ∨ again ≠ .clean ∨ onBadPin s r word i then lastingCorrection s r word i e (syndrome w) src
    else transientCorrection s r word i e (syndrome w) src
  (s, some (good % 2 ^ 128))

/-- Reads a word whose bits arrive changed by `n1`, and by `n2` on the second read: the data delivered, none for poison. A word
that injection corrupted is found lasting (R256, R259, R277). -/
def readWord (s : State) (r word n1 n2 source : Nat) : State × Option Nat :=
  let inj := s.mem.injected.contains (r * rankWords + word)
  let src := if inj then 5 else source
  let first := storedWord s r word ^^^ n1
  let s := if inj then modMem s (fun m => { m with injected := m.injected.filter (· ≠ r * rankWords + word) }) else s
  match decodeWord first with
  | .clean => (s, some (first % 2 ^ 128))
  | .poisoned => (s, none)
  | .corrected i e => correctWord s inj r word n2 src first i e
  | .uncorrectable =>
    let retry := storedWord s r word ^^^ n2
    match decodeWord retry with
    | .clean => (logWord (bump s (K.rankUeTrans r)) 3 r word 0xFF 0 (syndrome first) src 0, some (retry % 2 ^ 128))
    | .corrected i e => correctWord (logWord (bump s (K.rankUeTrans r)) 3 r word 0xFF 0 (syndrome first) src 0) inj r word n2 src retry i e
    | _ => (lastingError s r word (syndrome first) src, none)

/-! ## Writing (R257, R267, R277) -/

/-- The inversion of one injected pin in a word: the masked beats of the pin's symbol, where the word holds it (R251). -/
def injectPin (word pin mask : Nat) : Nat :=
  if pin < 144 ∧ pin % 4 = word % 4 then
    mask % 16 * 2 ^ (4 * (if pin < 128 then pin / 4 else 32 + (pin - 128) / 4))
  else 0

/-- A whole-word write to a rank: a fresh code, corrupted while injection is armed for the rank. -/
def writeWordIn (s : State) (r word data : Nat) : State :=
  let w := encodeWord data
  let s := modMem s (fun m => { m with injected := m.injected.filter (· ≠ r * rankWords + word) })
  if getB s K.memInjArm ∧ getN s K.memInjRank = r ∧ 0 < s.mem.injLeft then
    let x := injectPin word (getN s K.memInjPin) (getN s K.memInjMask) ^^^ injectPin word (getN s K.memInjPin2) (getN s K.memInjMask)
    let left := s.mem.injLeft - 1
    let s := modMem s (fun m => { m with injLeft := left, injected := if x = 0 then m.injected else (r * rankWords + word) :: m.injected })
    storeWord (if left = 0 then writeB s K.memInjArm false else s) r word (w ^^^ x)
  else storeWord s r word w

/-- A whole-word write to a rank and, while it is copied, to its spare (R267). -/
def writeWord (s : State) (r word data : Nat) : State :=
  let s := writeWordIn s r word data
  match s.mem.migr with
  | some m => if m.phase = 2 ∧ m.rank = r then writeWordIn s m.spare word data else s
  | none => s

/-- The rank that a read of a word goes to: of a block already copied the spare (R267). -/
def readFrom (s : State) (r word : Nat) : Nat :=
  match s.mem.migr with
  | some m => if m.phase = 2 ∧ m.rank = r ∧ word < m.copied * 4096 then m.spare else r
  | none => r

/-- Reads a word of a rank for the module, from the rank that serves its block: the data, none for poison (R256, R267). -/
def fetchWord (s : State) (r word : Nat) : State × Option Nat := readWord s (readFrom s r word) word 0 0 1

/-- `base` with bytes `lo` on replaced by a byte string, as the number of 16 bytes. -/
def mergeBytes (base lo : Nat) (b : List Byte) : Nat :=
  let old := leBytes 16 base
  ofLe (old.take lo ++ b ++ old.drop (lo + b.length))

/-- A write that lies within one word: whole, or read, merge and write; over poison it is discarded (R257). -/
def writeWithin (s : State) (r word lo : Nat) (b : List Byte) : State :=
  if b.isEmpty then s
  else if lo = 0 ∧ b.length = 16 then writeWord s r word (ofLe b)
  else match fetchWord s r word with
    | (s, some d) => writeWord s r word (mergeBytes d lo b)
    | (s, none) => s

/-- Writes a byte string from a byte address of a rank on. -/
def writeBytesAt : Nat → State → Nat → Nat → List Byte → State
  | 0, s, _, _, _ => s
  | n + 1, s, r, a, b =>
    if b.isEmpty then s
    else
      let k := 16 - a % 16
      writeBytesAt n (writeWithin s r (a / 16) (a % 16) (b.take k)) r (a + k) (b.drop k)

/-- Writes a byte string to a rank. -/
def writeRank (s : State) (r a : Nat) (b : List Byte) : State := writeBytesAt (b.length + 1) (touchRank s r) r a b

/-- The words that a byte range touches. -/
def wordsOf (a n : Nat) : List Nat := if n = 0 then [] else (List.range ((a + n - 1) / 16 + 1 - a / 16)).map (a / 16 + ·)

/-- Reads a byte range of a rank: the bytes, 0 for each of a poisoned word, and the words found poisoned. -/
def readRank (s : State) (r a n : Nat) : State × List Byte × List Nat :=
  let (s, b, bad) := (wordsOf a n).foldl (fun (x : State × List Byte × List Nat) w =>
    match fetchWord x.1 r w with
    | (s, some d) => (s, x.2.1 ++ leBytes 16 d, x.2.2)
    | (s, none) => (s, x.2.1 ++ List.replicate 16 0, x.2.2 ++ [w])) (touchRank s r, [], [])
  (s, (b.drop (a % 16)).take n, bad)

/-- Writes bytes of a surface from a byte offset on. -/
def writeSurf (s : State) (i off : Nat) (b : List Byte) : State :=
  writeRank s (rankOfUnit s (surfOf s i).unit) ((surfOf s i).base + off) b

/-- Reads bytes of a surface. -/
def readSurf (s : State) (i off n : Nat) : State × List Byte × List Nat :=
  readRank s (rankOfUnit s (surfOf s i).unit) ((surfOf s i).base + off) n

/-- Reads bytes of a handle's memory: the bytes, 0 for each of a poisoned word, and the poisoned words; zeros where it has none. -/
def readHandle (s : State) (handle off n : Nat) : State × List Byte × List Nat :=
  match handlePlace s handle with
  | some (u, b) => readRank s (rankOfUnit s u) (b + off) n
  | none => (s, List.replicate n 0, [])

/-- Writes bytes of a handle's memory; nothing where it has none. -/
def writeHandle (s : State) (handle off : Nat) (b : List Byte) : State :=
  match handlePlace s handle with
  | some (u, base) => writeRank s (rankOfUnit s u) (base + off) b
  | none => s

/-- Poison takes a word's place, and, while it is copied, its spare's (R9, R258, R268). -/
def poisonAt (s : State) (r word : Nat) : State :=
  let s := storeWord s r word poisonWord
  match s.mem.migr with
  | some m => if m.phase = 2 ∧ m.rank = r then storeWord s m.spare word poisonWord else s
  | none => s

/-- Writes bytes of one word, given with their places in it: a word to which lost data would go is poisoned, one that is covered is
written whole, any other is read, merged and written (R257, R258). -/
def writeCellsIn (s : State) (r word : Nat) (l : List (Nat × Option Byte)) : State :=
  if l.any (fun e => e.2.isNone) then poisonAt s r word
  else
    let put := fun (d : Nat) => ofLe ((List.range 16).map (fun k =>
      ((l.find? (fun e => e.1 == k)).bind (·.2)).getD (BitVec.ofNat 8 (d / 256 ^ k))))
    if (List.range 16).all (fun k => l.any (fun e => e.1 == k)) then writeWord s r word (put 0)
    else match fetchWord s r word with
      | (s, some d) => writeWord s r word (put d)
      | (s, none) => s

/-- Writes bytes at offsets of a surface, word by word; none stands for lost data. -/
def writeCells (s : State) (i : Nat) (l : List (Nat × Option Byte)) : State :=
  let r := rankOfUnit s (surfOf s i).unit
  let a := (surfOf s i).base
  ((l.map (fun e => (a + e.1) / 16)).dedup).foldl (fun s w =>
    writeCellsIn s r w ((l.filter (fun e => (a + e.1) / 16 == w)).map (fun e => ((a + e.1) % 16, e.2)))) (touchRank s r)

/-- Reads bytes at offsets of a surface, each word once: none for a byte of a poisoned word; and the poisoned words. -/
def readCells (s : State) (i : Nat) (offs : List Nat) : State × List (Option Byte) × List Nat :=
  let r := rankOfUnit s (surfOf s i).unit
  let a := (surfOf s i).base
  let ws := (offs.map (fun o => (a + o) / 16)).dedup
  let x := ws.foldl (fun (x : State × Tab Nat) w => match fetchWord x.1 r w with
    | (s, some d) => (s, tset x.2 w d)
    | (s, none) => (s, x.2)) (touchRank s r, [])
  (x.1, offs.map (fun o => (tfind x.2 ((a + o) / 16)).map (fun d => BitVec.ofNat 8 (d / 256 ^ ((a + o) % 16)))),
   ws.filter (fun w => (tfind x.2 w).isNone))

/-- A word as it is delivered, without a read's accounting: none for poison or an error beyond correction. What scan-out and the
compositor fetch is looked at so; the errors met are the operands of MEM_READ (log 265). -/
def peekWord (s : State) (r word : Nat) : Option Nat :=
  let w := storedWord s (readFrom s r word) word
  match decodeWord w with
  | .clean => some (w % 2 ^ 128)
  | .corrected i e => some ((w ^^^ (e * 2 ^ (4 * i))) % 2 ^ 128)
  | _ => none

/-- The `n` bytes from a byte address of a rank on, within one word; none where the word is poisoned. -/
def peekRank (s : State) (r a n : Nat) : Option (List Byte) := (peekWord s r (a / 16)).map (fun d => ((leBytes 16 d).drop (a % 16)).take n)

/-- The bytes of a handle's memory, within one word. -/
def peekHandle (s : State) (handle off n : Nat) : Option (List Byte) :=
  match handlePlace s handle with
  | some (u, b) => peekRank s (rankOfUnit s u) (b + off) n
  | none => none

/-! ## The commands of memory -/

/-- MEM_READ of one word of a powered rank (R256); beyond the rank's words there is nothing. -/
def execMemRead (rank : Fin 6) (word : Nat) (noise1 noise2 : List Byte) (scrub : Bool) (s : State) :
    Host.Outcome State Fault Refusal :=
  if rankWords ≤ word then .fault .memoryAddress
  else if getN s (K.grpState (rank / 2)) < 2 then .next s
  else
    let (s, d) := readWord (touchRank s rank) rank word (ofLe (noise1.take 18)) (ofLe (noise2.take 18)) (if scrub then 2 else 1)
    .next (if scrub then s else modMem s (fun m => { m with out := some (d.map (leBytes 16)) }))

/-- MEM_WRITE of a byte string to a powered rank (R257). -/
def execMemWrite (rank : Fin 6) (addr : Nat) (data : List Byte) (s : State) : Host.Outcome State Fault Refusal :=
  if 16 * rankWords < addr + data.length then .fault .memoryAddress
  else if getN s (K.grpState (rank / 2)) < 2 then .next s
  else .next (writeRank s rank addr data)

/-- CE_BUCKET_EXPIRY: each minute the oldest of 60 buckets is dropped (R260). -/
def execCeBucketExpiry (s : State) : Host.Outcome State Fault Refusal :=
  if s.now < s.mem.bucketAt + 60000000000 then .next s
  else
    let s := modMem s (fun m => { m with bucketAt := s.now, buckets := m.buckets.map (fun e => (e.1, ([] :: e.2).take 60)) })
    .next (foldN (List.range 6) (fun s r => putN s (K.rankCe r) (min 65535 (((tget s.mem.buckets r []).map List.length).sum))) s)

/-- A rank's content is zero with a valid code after training (R249). -/
def zeroRank (s : State) (r : Nat) : State :=
  { s with dram := memZero s.dram (dramKey r 0 0) (dramKey (r + 1) 0 0 - dramKey r 0 0) }

/-- A group that failed training: both its ranks to two free spares without copying, or DEGRADED (R248). -/
def retireGroup (s : State) (g : Nat) : State :=
  let rs := [2 * g, 2 * g + 1].filter (rankServes s)
  if (spareRanks s).length < rs.length then foldN rs (fun s r => degradeRank s r 3) s
  else
    (rs.zip (spareRanks s)).foldl (fun s (e : Nat × Nat) =>
      let u := getN s (K.rankUnit e.1)
      let gen := (getN s (K.rankGen e.2) + 1) % 65536
      let s := putN (putN (putN s (K.rankState e.1) rkRetired) (K.rankUnit e.1) 0xFF) (K.rankCause e.1) 3
      let s := putN (putN (putN s (K.rankState e.2) rkService) (K.rankUnit e.2) u) (K.rankGen e.2) gen
      let s := emit s 7 0x0700 e.1 (leBytes 1 e.1 ++ leBytes 1 e.2 ++ leBytes 1 3) []
      substitute (logStep (zeroRank s e.2) 6 e.1 e.2 3 gen) clsRank e.1 e.2 3 gen) s

/-- GROUP_TRAINING_DONE: the group is active, bad pins are recorded, its ranks in service are zeroed; a failed group is
retired; a start goes on once G0 and G1 are trained (R247 to R249, Table PW-4 step 9). -/
def execGroupTrainingDone (g : Fin 3) (badPins : List (Fin 144)) (caBad : Bool) (s : State) : Host.Outcome State Fault Refusal :=
  if getN s (K.grpState g) ≠ 1 then .next s
  else
    let pins := badPins.dedup
    let s := putN (putN s (K.grpState g) 2) (K.grpTrained g) s.now
    let s := putV s (K.grpBadPins g) (.bytes (pins.map (fun p => BitVec.ofNat 8 p.val)))
    let s := foldN ([2 * g.val, 2 * g.val + 1].filter (rankServes s)) zeroRank s
    let s := if pins.isEmpty && !caBad then s else memLogEntry s 5 (2 * g) 0 0 0 0xFF 0 0 4 3 0xFFFF 0
    let failed := decide (2 ≤ pins.length) || caBad
    let s := if failed then retireGroup s g else s
    let s := match s.mem.migr with
      | some m => resumeMigration s g m failed
      | none => if g.val = 2 ∧ s.power.tests.contains 18 then foldN (spareRanks s) testRank s else s
    let bothUp := getN s (K.grpState 0) ≠ 0 ∧ getN s (K.grpState 0) ≠ 1 ∧ getN s (K.grpState 1) ≠ 0 ∧ getN s (K.grpState 1) ≠ 1
    let s := if pwrMode s = 0 ∧ s.power.step = 6 ∧ bothUp then { s with power := { s.power with step := 10 } } else s
    .next (settle s)

/-- SPARE_PATTERN_TEST_DONE: in a retirement the spare is filled or FAILED; in the test after a start it is SPARE again or FAILED
(R266, R453, R477). -/
def execSparePatternTestDone (rank : Fin 6) (ok : Bool) (s : State) : Host.Outcome State Fault Refusal :=
  if getN s (K.rankState rank) ≠ rkTesting then .next s
  else
    match s.mem.migr with
    | some m =>
      if m.spare = rank.val then
        if ok then
          let s := modMem (zeroRank s rank) (fun x => { x with migr := some { m with phase := 2, copied := 0, copiedAt := s.now, lost := 0 } })
          .next (putN s (K.rankState rank) rkFilling)
        else .next (migrationSpareFailed s m 5)
      else .next s
    | none =>
      let s := if ok then putN s (K.rankState rank) rkSpare else spareRankFailed s rank 5
      let busy := [4, 5].any (fun r => getN s (K.rankState r) == rkTesting)
      .next (settle (if busy then s else { s with power := { s.power with tests := s.power.tests.erase 18 } }))

/-- Hands over one word to the spare: corrected, or as poison (R268). -/
def handOver (m : Migration) (x : State × Nat) (word : Nat) : State × Nat :=
  match readWord x.1 m.rank word 0 0 3 with
  | (s, some d) => (storeWord s m.spare word (encodeWord d), x.2)
  | (s, none) => (storeWord s m.spare word poisonWord, x.2 + 1)

/-- The blocks of a unit (R266). -/
def unitBlocks : Nat := 262144

/-- Copies the blocks from `m.copied` up to `upto` in address order: the state, and how many of their words were handed over as poison.
The words not listed in State are zero with a valid code (R266 step 4, R268). -/
def copyBlocks (s : State) (m : Migration) (upto : Nat) : State × Nat :=
  let lo := m.copied * 4096
  let hi := upto * 4096
  let ws := (listedWords s m.rank).filter (fun w => decide (lo ≤ w ∧ w < hi))
  let cleared := { s with dram := memZero s.dram (dramKey m.spare lo 0) (dramKey m.spare hi 0 - dramKey m.spare lo 0) }
  ws.foldl (handOver m) (cleared, 0)

/-- The nanoseconds that a block takes at mem.migrate.rate. -/
def blockNs (s : State) : Nat := 65536 * 1000 / getN s K.memMigrateRate

/-- A nanosecond of the retirement copy: the next block is copied at mem.migrate.rate, unless traffic of a higher class fills the group
(R266 step 4, R269, log 287). -/
def copyTick (s : State) : State :=
  match s.mem.migr with
  | none => s
  | some m =>
    if m.phase ≠ 2 ∨ unitBlocks ≤ m.copied ∨ s.now < m.copiedAt + blockNs s ∨ Config.copyHeld s.now then s
    else
      match copyBlocks s m (m.copied + 1) with
      | (s, n) =>
        let s := modMem s (fun x => { x with migr := x.migr.map (fun y =>
          if y.phase = 2 ∧ y.spare = m.spare then { y with copied := m.copied + 1, copiedAt := s.now, lost := m.lost + n } else y) })
        putN (putN s (K.rankMoved m.rank) (65536 * (m.copied + 1))) (K.rankMoved m.spare) (65536 * (m.copied + 1))

/-- MIGRATION_DONE: the last block is copied, with those that no tick has copied; the spare serves the unit, the old rank reads RETIRED,
the map is stored (R266 step 5, R268). -/
def execMigrationDone (rank : Fin 6) (s : State) : Host.Outcome State Fault Refusal :=
  match s.mem.migr with
  | none => .next s
  | some m =>
    if m.phase ≠ 2 ∨ m.rank ≠ rank.val then .next s
    else
      let (s, n) := copyBlocks s m unitBlocks
      let bad := m.lost + n
      let u := getN s (K.rankUnit m.rank)
      let s := zeroRank s m.rank
      let s := putN (putN s (K.rankState m.rank) rkRetired) (K.rankUnit m.rank) 0xFF
      let s := putN (putN s (K.rankState m.spare) rkService) (K.rankUnit m.spare) u
      let s := putN (putN s (K.rankMoved m.rank) (2 ^ 34)) (K.rankMoved m.spare) (2 ^ 34)
      let gen := getN s (K.rankGen m.spare)
      let s := emit s 7 0x0701 m.rank (leBytes 1 m.rank ++ leBytes 1 m.spare ++ leBytes 4 bad
        ++ leBytes 4 ((s.now - m.began) / 1000000)) []
      let s := substitute (logStep s 7 m.rank m.spare m.cause gen) clsRank m.rank m.spare m.cause gen
      .next (nextDue (modMem s (fun x => { x with migr := none })))

/-- DQS_OSC_CHECK: MR4 gives the temperature; a drift above 3 % retrains within a refresh window (R249). -/
def execDqsOscCheck (g : Fin 3) (driftTenthPct : Nat) (fails : Nat) (temp : BitVec 32) (s : State) : Host.Outcome State Fault Refusal :=
  if getN s (K.grpState g) < 2 then .next s
  else
    let s := putN s (K.grpTemp g) temp.toNat
    .next (if 30 < driftTenthPct ∧ fails < 3 then bump s (K.grpRetrain g) else s)

/-- The ranks of a group in service. -/
def groupRanks (s : State) (g : Nat) : List Nat := [2 * g, 2 * g + 1].filter (rankServes s)

/-- The groups that the patrol reads. -/
def patrolGroups (s : State) : List Nat := (List.range 3).filter (fun g => !(groupRanks s g).isEmpty)

/-- SCRUB_BURST: at most 1 MiB of a group from where its patrol stands, each word decoded and corrected (R262, R263). The words
not listed in State are zero with a valid code and need no correction. -/
def execScrubBurst (g : Fin 3) (start words : Nat) (s : State) : Host.Outcome State Fault Refusal :=
  let rs := groupRanks s g
  let pos := tget s.mem.patrol g 0
  let all := rs.length * rankWords
  let asleep := getN s (K.grpState g) = 3
  if getN s (K.grpState g) < 2 ∨ getN s K.memScrubPeriod = 0 ∨ start ≠ pos ∨ 65536 < words ∨ all ≤ pos
      ∨ (asleep ∧ tget s.mem.wokeAt g 0 = s.now / 1000000000 + 1) then .next s
  else
    let s := if asleep then modMem s (fun m => { m with wokeAt := tset m.wokeAt g (s.now / 1000000000 + 1) }) else s
    let s := foldN rs touchRank s
    let upto := min all (pos + words)
    let s := (List.range rs.length).foldl (fun s j =>
      let r := rs.getD j 0
      foldN ((listedWords s r).filter (fun w => decide (pos ≤ j * rankWords + w ∧ j * rankWords + w < upto)))
        (fun s w => (readWord s r w 0 0 2).1) s) s
    let s := modMem s (fun m => { m with patrol := tset m.patrol g upto })
    let gs := patrolGroups s
    let total := (gs.map (fun g => (groupRanks s g).length * rankWords)).sum
    let doneW := (gs.map (fun g => tget s.mem.patrol g 0)).sum
    .next (if total ≤ doneW then putN (putN (modMem s (fun m => { m with patrol := [] })) K.memScrubLast s.now) K.memScrubPos 0
      else putN s K.memScrubPos (doneW * 100 / max 1 total))

/-- REFRESH: the dies of a rank are refreshed bank by bank at the rate MR4 requires (R271). -/
def execRefresh (rank : Fin 6) (s : State) : Host.Outcome State Fault Refusal :=
  if getN s (K.grpState (rank / 2)) < 2 then .next s
  else .next (modMem s (fun m => { m with refreshed := tset m.refreshed rank s.now }))

/-- RANK_POWER_DOWN: a rank with no access for mem.pd.timer (R273). -/
def execRankPowerDown (rank : Fin 6) (s : State) : Host.Outcome State Fault Refusal :=
  if getN s (K.grpState (rank / 2)) = 2 ∧ tget s.mem.access rank 0 + getN s K.memPdTimer ≤ s.now then
    .next (modMem s (fun m => { m with asleep := rank.val :: m.asleep.filter (· ≠ rank.val) }))
  else .next s

/-- SELF_REFRESH_ENTRY: a group with no access to either rank for mem.sr.timer (R274). -/
def execSelfRefreshEntry (g : Fin 3) (s : State) : Host.Outcome State Fault Refusal :=
  let due := fun r => decide (tget s.mem.access r 0 + getN s K.memSrTimer * 1000 ≤ s.now)
  if getN s (K.grpState g) = 2 ∧ due (2 * g) ∧ due (2 * g + 1) then
    .next (bump (putN s (K.grpState g) 3) (K.grpSrCount g))
  else .next s

/-- SCANOUT_WAKE: every group that holds a stream of the port leaves self-refresh: its direct layers' and its compose buffer's (R274). -/
def execScanoutWake (port : Fin 8) (s : State) : Host.Outcome State Fault Refusal :=
  let q := portOf s port
  let units := (numbers 6 (fun k => q.plan.path.getD k 0 == 1)).map (fun k => layerUnit s (q.active.layers.getD k {}))
    ++ (match q.buf with | some (u, _) => if q.plan.top.isSome then [u] else [] | none => [])
  .next (foldN ((units.map (fun u => rankOfUnit s u / 2)).dedup) (fun s g =>
    if getN s (K.grpState g) = 3 then putN s (K.grpState g) 2 else s) s)

/-! ## Writing memory objects (R275, R277) -/

/-- Whether a session may write a memory object: MGR alone; injection needs diagnostics (R275, R277, R484). -/
def memAccess (s : State) (c : WCtx) (key : Nat) : Bool := c.isMgr && (key / 256 != 0xF400 || getB s K.diagEnable)

/-- The checks of mem.retire.req, after its range (R275). -/
def memCheck (s : State) (key v : Nat) : Status :=
  if key = K.memRetireReq then firstRefusal
    [((getN s (K.rankState v) ≠ rkService && getN s (K.rankState v) ≠ rkDegraded) || (spareRanks s).isEmpty, .range),
     (s.mem.migr.isSome, .busy)]
  else .ok

/-- The effect of an accepted write. -/
def memApply (s : State) (key v : Nat) : State :=
  if key = K.memRetireReq then retireRank s v 4
  else if key = K.memInjArm then
    modMem (writeN s key v) (fun m => { m with injLeft := if v = 1 then getN s K.memInjCount else 0 })
  else writeN s key v

/-! ## Balance moves (R237) -/

/-- The busiest and the least busy unit of a list of loads, lower numbers first. -/
def busiest (l : List Nat) : Nat := bestUnit (List.range 4) (fun u => l.getD u 0)
def leastBusy (l : List Nat) (us : List Nat) : Nat := bestUnit us (fun u => 2 ^ 32 - l.getD u 0)

/-- The surfaces that balance may move off a unit (R237). -/
def movable (s : State) (u : Nat) : List Nat :=
  (allocated s).filter (fun i => (surfOf s i).unit == u && !bitOf (getN s (K.surfHint i)) 2 &&
    (match (surfOf s i).movedAt with
     | none => true
     | some t => decide (t + 60000000000 ≤ s.now)))

/-- BALANCE_MOVE_START: a second's measurement; after three of imbalance a move begins. Which surface most narrows the
difference depends on traffic that no operand carries: the choice among the movable ones is a free value (R237, log 100). -/
def execBalanceMoveStart (loads : List (BitVec 32)) (s : State) : Host.Outcome State Fault Refusal :=
  if s.now < s.balance.measured + 1000000000 then .next s
  else
    let l := (List.range 4).map (fun u => (loads.getD u 0).toNat)
    let s := foldN (List.range 4) (fun s u => putN s (K.tilthRankLoad u) (l.getD u 0)) s
    let hi := busiest l
    let lo := leastBusy l (List.range 4)
    let n := if 20000 < l.getD hi 0 - l.getD lo 0 then s.balance.seconds + 1 else 0
    let s := { s with balance := { s.balance with seconds := n, measured := s.now } }
    if n < 3 ∨ getB s K.tilthQuiet ∨ s.balance.move.isSome ∨ s.mem.migr.isSome then .next s
    else
      let cands := movable s hi
      match cands[Config.freeNat s.fresh % max 1 cands.length]? with
      | none => .next s
      | some i =>
        let size := slotSize s i
        let rooms := numbers 4 (fun u => u != hi && decide (placeIn (extents s u) size < unitBytes) && decide (size ≤ unitFree s u))
        if rooms.isEmpty then .next (draw s)
        else
          let d := leastBusy l rooms
          let base := placeIn (extents s d) size
          let s := { draw s with balance :=
            { s.balance with move := some (i, d, base), seconds := 0, due := s.now + size * 1000 / getN s K.tilthMoveRate } }
          .next (tilthEntry s 3 3 0 (getN s (K.surfHandle i)) (placeCode s hi) (placeCode s d))

/-- The stored image with a surface's words at their new place (R237). -/
def moveWords (s : State) (u base v newBase size : Nat) : State :=
  let r := rankOfUnit s u
  let r' := rankOfUnit s v
  let ws := (listedWords s r).filter (fun w => decide (base / 16 ≤ w ∧ w < ceilDiv (base + size) 16))
  let s' := zeroUnit s v newBase size
  zeroUnit (foldN ws (fun x w => storeWord x r' (w - base / 16 + newBase / 16) (storedWord s r w)) s') u base size

/-- BALANCE_MOVE_DONE: no sooner than tilth.move.rate lets it, the surface lies on the new unit and tilth.moves counts (R237). -/
def execBalanceMoveDone (s : State) : Host.Outcome State Fault Refusal :=
  match s.balance.move with
  | none => .next s
  | some (i, d, base) =>
    if s.now < s.balance.due then .next s
    else
      let s := { s with balance := { s.balance with move := none } }
      if !getB s (K.surfAlloc i) then .next s
      else
        let old := surfOf s i
        let s := moveWords s old.unit old.base d base (slotSize s i)
        let s := modSurf s i (fun x => { x with unit := d, base := base, movedAt := some s.now })
        .next (tilthEntry (bump s K.tilthMoves) 4 3 0 (getN s (K.surfHandle i)) (placeCode s old.unit) (placeCode s d))

end Sys2Proof.Machine
end

