-- ==== Sys2Proof/Machine/Numbers.lean ====
section
/-!
DEFINITION. IEEE 754 binary32 and binary16 as exact rationals, and their rounding (to the nearest, ties to even). The pipeline's FP32
arithmetic (R183, R195 to R197) is exact arithmetic rounded once per operation named by the spec (log 260).
-/

namespace Sys2Proof.Machine

/-- Two to an integer power. -/
def pow2 (e : Int) : ℚ := if 0 ≤ e then (2 ^ e.toNat : Nat) else 1 / (2 ^ (-e).toNat : Nat)

/-- A rational rounded to the nearest integer, ties to even. -/
def roundEven (q : ℚ) : Int :=
  let f := q.floor
  let r := q - f
  if r < 1 / 2 then f else if 1 / 2 < r then f + 1 else if f % 2 = 0 then f else f + 1

/-- A rational rounded to the nearest integer, halves up. -/
def roundHalfUp (q : ℚ) : Int := (q + 1 / 2).floor

/-- The exponent of the greatest power of two that is at most a positive rational. -/
def log2Q (q : ℚ) : Int :=
  let e : Int := (Nat.log2 q.num.natAbs : Int) - (Nat.log2 q.den : Int)
  if pow2 e ≤ |q| then e else e - 1

/-- A rational rounded to `p` significant bits, its last bit no smaller than 2^`emin`. -/
def roundBits (p : Nat) (emin : Int) (q : ℚ) : ℚ :=
  if q = 0 then 0
  else
    let u := pow2 (max (log2Q q - (p : Int) + 1) emin)
    roundEven (q / u) * u

/-- A rational rounded to binary32's precision; its range is not bounded above (log 260). -/
def rnd32 (q : ℚ) : ℚ := roundBits 24 (-149) q

/-- The value of a float with `e` exponent bits and `m` mantissa bits; an infinity is the power of two beyond the greatest number. -/
def floatVal (e m : Nat) (n : Nat) (nan : ℚ) : ℚ :=
  let x := n / 2 ^ m % 2 ^ e
  let f := n % 2 ^ m
  let sign : ℚ := if n.testBit (e + m) then -1 else 1
  let bias : Int := 2 ^ (e - 1) - 1
  if x = 2 ^ e - 1 then (if f = 0 then sign * pow2 (bias + 1) else nan)
  else if x = 0 then sign * f * pow2 (1 - bias - m)
  else sign * (2 ^ m + f : Nat) * pow2 ((x : Int) - bias - m)

/-- The bits of the float nearest to a rational, ties to even; beyond the greatest number, infinity. -/
def floatBits (e m : Nat) (q : ℚ) : Nat :=
  let bias : Int := 2 ^ (e - 1) - 1
  let v := roundBits (m + 1) (1 - bias - m) q
  let a := |v|
  let s := if v < 0 then 2 ^ (e + m) else 0
  if a = 0 then s
  else if pow2 (bias + 1) ≤ a then s + (2 ^ e - 1) * 2 ^ m
  else
    let k := log2Q a
    if k < 1 - bias then s + (a * pow2 (bias - 1 + m)).floor.toNat
    else s + (k + bias).toNat * 2 ^ m + ((a * pow2 ((m : Int) - k)).floor.toNat - 2 ^ m)

/-- The value of a binary32; of a NaN the spec states none. -/
def f32Val (b : BitVec 32) : ℚ := floatVal 8 23 b.toNat (Config.nanValue b.toNat)

/-- The binary32 nearest to a rational. -/
def f32Bits (q : ℚ) : BitVec 32 := BitVec.ofNat 32 (floatBits 8 23 q)

/-- The value of a binary16; of a NaN the spec states none. -/
def f16Val (n : Nat) : ℚ := floatVal 5 10 n (Config.nanValue (2 ^ 32 + n))

/-- The binary16 nearest to a rational. -/
def f16Bits (q : ℚ) : Nat := floatBits 5 10 q

/-- A rational held to 0 to 1. -/
def clamp01 (q : ℚ) : ℚ := max 0 (min 1 q)

end Sys2Proof.Machine
end

