-- ==== Sys2Proof/Machine/Programs.lean ====
section
/-!
DEFINITION. Programs: reading a SPIR-V 1.6 module as far as the limits of R173 need it (the numbers of opcodes, decorations and storage
classes are the SPIR-V specification's, log 263), the translation into instruction groups (R171) and its outcome (R173, R175), and
the lane groups that a core holds (R170).
-/

namespace Sys2Proof.Machine

/-! ## Reading SPIR-V (R173, log 263) -/

/-- The little-endian 32-bit words of a byte string. -/
def spvWords : Nat → List Byte → List Nat
  | 0, _ => []
  | n + 1, b => if b.isEmpty then [] else ofLe (b.take 4) :: spvWords n (b.drop 4)

/-- The instructions of a module's words behind its header, as opcode and operands; none where a length does not fit. -/
def spvInstrs : Nat → List Nat → Option (List (Nat × List Nat))
  | 0, _ => none
  | n + 1, w =>
    match w with
    | [] => some []
    | x :: r =>
      let k := x / 65536
      if k = 0 ∨ r.length + 1 < k then none else (spvInstrs n (r.drop (k - 1))).map ((x % 65536, r.take (k - 1)) :: ·)

/-- The instructions of a module: the header names SPIR-V 1.6. -/
def spvModule (code : List Byte) : Option (List (Nat × List Nat)) :=
  let w := spvWords code.length code
  if code.length % 4 ≠ 0 ∨ w.length < 5 ∨ w.getD 0 0 ≠ 0x07230203 ∨ w.getD 1 0 ≠ 0x00010600 then none
  else spvInstrs (w.length + 1) (w.drop 5)

/-- The operands of the instructions of an opcode. -/
def spvOf (m : List (Nat × List Nat)) (op : Nat) : List (List Nat) := (m.filter (fun e => e.1 == op)).map (·.2)

/-- The operands of the instruction of an opcode whose operand `i` is an ID. -/
def spvFind (m : List (Nat × List Nat)) (op i id : Nat) : Option (List Nat) := (spvOf m op).find? (fun l => l.getD i 0 == id)

/-- An entry point: execution model, function, name, interface variables (OpEntryPoint). -/
structure SpvEntry where
  model : Nat
  func : Nat
  name : List Byte
  vars : List Nat

/-- The entry points of a module. -/
def spvEntries (m : List (Nat × List Nat)) : List SpvEntry :=
  (spvOf m 15).map (fun l =>
    let rest := l.drop 2
    let name := (rest.flatMap (leBytes 4)).takeWhile (· != 0)
    ⟨l.getD 0 0, l.getD 1 0, name, rest.drop (name.length / 4 + 1)⟩)

/-- The operands behind a decoration of an ID (OpDecorate). -/
def spvDecor (m : List (Nat × List Nat)) (id dec : Nat) : Option (List Nat) :=
  ((spvOf m 71).find? (fun l => l.getD 0 0 == id && l.getD 1 0 == dec)).map (·.drop 2)

/-- The value of a constant (OpConstant). -/
def spvConst (m : List (Nat × List Nat)) (id : Nat) : Nat := ((spvFind m 43 1 id).map (·.getD 2 0)).getD 0

/-- The size of a type, in units of `unit` of a scalar's width in bits: bytes, or 32-bit words with one word for each scalar. -/
def spvSize (m : List (Nat × List Nat)) (unit : Nat → Nat) : Nat → Nat → Nat
  | 0, _ => 0
  | n + 1, id =>
    match m.find? (fun e => e.2.getD 0 0 == id && [20, 21, 22, 23, 24, 28, 30].contains e.1) with
    | none => 0
    | some (op, l) =>
      if op = 20 then unit 32
      else if op = 21 ∨ op = 22 then unit (l.getD 1 0)
      else if op = 23 ∨ op = 24 then l.getD 2 0 * spvSize m unit n (l.getD 1 0)
      else if op = 28 then spvConst m (l.getD 2 0) * spvSize m unit n (l.getD 1 0)
      else ((l.drop 1).map (spvSize m unit n)).sum

/-- The type that a pointer type points to. -/
def spvPointee (m : List (Nat × List Nat)) (id : Nat) : Nat := ((spvFind m 32 0 id).map (·.getD 2 0)).getD 0

/-- The variables of a storage class (1 Input, 3 Output, 4 Workgroup, 9 PushConstant) as (ID, type). -/
def spvVars (m : List (Nat × List Nat)) (cls : Nat) : List (Nat × Nat) :=
  ((spvOf m 59).filter (fun l => l.getD 2 0 == cls)).map (fun l => (l.getD 1 0, spvPointee m (l.getD 0 0)))

/-- The located variables of an entry point's interface in a storage class, in the order of their locations: location, words, and how
a varying is interpolated: 0 with perspective, 1 flat, 2 without perspective (R195). -/
def spvIo (m : List (Nat × List Nat)) (e : SpvEntry) (cls : Nat) : List (Nat × Nat × Nat) :=
  let vs := (spvVars m cls).filter (fun v => e.vars.contains v.1)
  let l := vs.filterMap (fun v => (spvDecor m v.1 30).map (fun d =>
    (d.getD 0 0, spvSize m (fun _ => 1) 64 v.2, if (spvDecor m v.1 14).isSome then 1 else if (spvDecor m v.1 13).isSome then 2 else 0)))
  l.insertionSort (fun a b => a.1 ≤ b.1)

/-- The binding slots of an entry point's resources (Binding). -/
def spvSlots (m : List (Nat × List Nat)) (e : SpvEntry) : List Nat := (e.vars.filterMap (fun v => (spvDecor m v 33).map (·.getD 0 0))).dedup

/-- Whether the interface holds a built-in, on a variable or a member of its block (0 Position, 22 FragDepth). -/
def spvBuiltin (m : List (Nat × List Nat)) (e : SpvEntry) (cls b : Nat) : Bool :=
  ((spvVars m cls).filter (fun v => e.vars.contains v.1)).any (fun v =>
    (spvDecor m v.1 11).any (fun d => d.getD 0 0 == b)
      || (spvOf m 72).any (fun l => l.getD 0 0 == v.2 && l.getD 2 0 == 11 && l.getD 3 0 == b))

/-- The local size of a compute entry point (OpExecutionMode LocalSize, LocalSizeId). -/
def spvLocal (m : List (Nat × List Nat)) (e : SpvEntry) : Nat :=
  let at_ := fun (l : List Nat) => l.getD 2 1 * l.getD 3 1 * l.getD 4 1
  match (spvOf m 16).find? (fun l => l.getD 0 0 == e.func && l.getD 1 0 == 17) with
  | some l => at_ l
  | none =>
    match (spvOf m 331).find? (fun l => l.getD 0 0 == e.func && l.getD 1 0 == 38) with
    | some l => spvConst m (l.getD 2 0) * spvConst m (l.getD 3 0) * spvConst m (l.getD 4 0)
    | none => 1

/-- Whether a fragment program can discard or writes depth: prog.late (Table TP-3). -/
def spvLate (m : List (Nat × List Nat)) (e : SpvEntry) : Bool :=
  m.any (fun i => i.1 == 252 || i.1 == 4416 || i.1 == 5380)
    || (spvOf m 16).any (fun l => l.getD 0 0 == e.func && l.getD 1 0 == 12) || spvBuiltin m e 3 22

/-! ## The limits (R173) -/

/-- The capabilities that the module takes: Shader, Float16, Int16, Int8, DotProduct, DotProductInput4x8BitPacked. -/
def spvCapabilities : List Nat := [1, 9, 22, 39, 6019, 6018]

/-- The first limit of R173 that a module and its entry point break, by the reason's number, before translation. -/
def spvFault (m : List (Nat × List Nat)) (e : SpvEntry) : Option Nat :=
  let bad : List (Bool × Nat) :=
    [((spvEntries m).any (fun x => x.model != 0 && x.model != 4 && x.model != 5), 3),
     ((spvOf m 17).any (fun l => !spvCapabilities.contains (l.getD 0 0)), 4),
     ((spvOf m 25).any (fun l => l.getD 2 0 != 1), 5),
     ((spvOf m 21).any (fun l => l.getD 1 0 == 64) || (spvOf m 22).any (fun l => l.getD 1 0 == 64), 6),
     (!(spvVars m 9).isEmpty, 7),
     ((spvOf m 71).any (fun l => (l.getD 1 0 == 34 && l.getD 2 0 != 0) || (l.getD 1 0 == 33 && 31 < l.getD 2 0)), 8),
     (e.model == 0 && (!spvBuiltin m e 3 0 || decide (32 < ((spvIo m e 3).map (·.2.1)).sum)), 9),
     (e.model == 4 && (spvIo m e 3).any (fun x => 3 < x.1), 10),
     (e.model == 5 && decide (1024 < spvLocal m e), 11),
     (e.model == 5 && decide (32768 < ((spvVars m 4).map (fun v => spvSize m (fun w => (w + 7) / 8) 64 v.2)).sum), 12)]
  (bad.find? (·.1)).map (·.2)

/-! ## Translation (R170, R171, R173) -/

/-- The instruction groups of translated code, by their lengths: a group ends at a backward branch, a barrier, a fence, or after 512
instructions (R171). -/
def groupsOf : Nat → List Nat → List Nat
  | n, [] => if n = 0 then [] else [n]
  | n, k :: r => if k ≠ 0 ∨ 512 ≤ n + 1 then (n + 1) :: groupsOf 0 r else groupsOf (n + 1) r

/-- The registers per thread of a program: 16 to 256 in steps of 8 (R170). -/
def roundRegs (n : Nat) : Nat := max 16 (roundUp n 8)

/-- What the translation of a program comes to: its code, or the number of the reason why it FAILED (R173, R175). -/
def translate (code entry : List Byte) : Except Nat Code :=
  match spvModule code with
  | none => .error 1
  | some m =>
    match (spvEntries m).find? (fun e => e.name == entry) with
    | none => .error 2
    | some e =>
      match spvFault m e with
      | some r => .error r
      | none =>
        let is := Config.translated code entry
        let regs := roundRegs (Config.progRegs code entry)
        if 65536 < is.length then .error 13
        else if 256 < regs then .error 14
        else if !Config.programValid code entry then .error 15
        else .ok { code := code, entry := entry, stage := if e.model = 0 then 0 else if e.model = 4 then 1 else 2
                   regs := regs, late := e.model = 4 && spvLate m e, groups := groupsOf 0 is
                   inputs := spvIo m e 1, outputs := spvIo m e 3, slots := spvSlots m e, threads := spvLocal m e
                   storage := ((spvVars m 4).map (fun v => spvSize m (fun w => (w + 7) / 8) 64 v.2)).sum }

/-- The varying words that a vertex program writes (v of R185). -/
def Code.varyings (c : Code) : Nat := (c.outputs.map (·.2.1)).sum

/-! ## Lane groups on a core (R169, R170, R203) -/

/-- The bytes of a core's register file and tile memory (Table TP-1). -/
def registerFileBytes : Nat := 256 * 1024
def tileMemoryBytes : Nat := 64 * 1024

/-- The lane groups of a program that a core holds at once: as many as its register file takes, at most 16 (R170). -/
def residentGroups (c : Code) : Nat := min 16 (1024 / c.regs)

/-- The lane groups of one workgroup, of 64 threads each (R170, R203). -/
def laneGroups (c : Code) : Nat := max 1 (ceilDiv c.threads 64)

/-- The workgroups of a program that a core holds at once: within the residency limit and the tile memory, one at least (R203). -/
def residentWorkgroups (c : Code) : Nat :=
  max 1 (min (residentGroups c / laneGroups c) (if c.storage = 0 then 16 else tileMemoryBytes / c.storage))

/-- The KiB that the state of a stopped workgroup takes: the registers and program counter of each thread, and its Workgroup
storage (R171, R225). -/
def groupStateKib (c : Code) : Nat := ceilDiv (laneGroups c * 64 * (4 * c.regs + 4) + c.storage) 1024

end Sys2Proof.Machine
end

