-- ==== Sys2Proof/Machine/Lists.lean ====
section
/-!
DEFINITION. Pass lists: buffer references (R176), the 32-byte records of Table TP-5 (R179), the state they set (R180), and what a list
as a whole comes to.
-/

namespace Sys2Proof.Machine

/-! ## Buffer references (R176) -/

/-- The handle and byte offset of a buffer reference into a surface, if it is one (R176). -/
def refSurface (ref : Nat) : Option (Nat × Nat) := if bitOf ref 63 then some (ref % 2 ^ 32, ref / 2 ^ 32 % 2 ^ 31) else none

/-- The host addresses that a command's function is refused. -/
def badHost (h : CmdHdr) : List (Nat × Nat) := h.hostBad.map (fun e => (e.1.toNat, e.2.toNat))

/-- Whether the host's translation gives all of `n` bytes from an address on. -/
def hostReaches (bad : List (Nat × Nat)) (a n : Nat) : Bool := n == 0 || bad.all (fun e => decide (a + n ≤ e.1 ∨ e.2 < a))

/-- The bytes that a buffer reference names, from `at_` on: the state after the read, the bytes, and whether the host refused them or a
word was poisoned. -/
def readRef (s : State) (f : Nat) (bad : List (Nat × Nat)) (ref at_ n : Nat) : State × List Byte × Bool × Bool :=
  match refSurface ref with
  | some (h, off) =>
    match readHandle s h (off + at_) n with
    | (s, b, p) => (s, b, true, p.isEmpty)
  | none => (s, hostRead s f (ref + at_) n, hostReaches bad (ref + at_) n, true)

/-! ## Records (R179, Table TP-5) -/

/-- Whether the bytes of a record outside the given (offset, size) pieces are zero. -/
def zeroBut (b : List Byte) (l : List (Nat × Nat)) : Bool :=
  (List.range 32).all (fun i => b.getD i 0 == 0 || l.any (fun e => decide (e.1 ≤ i ∧ i < e.1 + e.2)))

/-- The record that 32 bytes spell; unused bytes that are not zero are fields out of range (log 266). -/
def decodeRecord (b : List Byte) : PassRecord :=
  let u8 := fun o => fieldAt 8 b o
  let u16 := fun o => fieldAt 16 b o
  let u32 := fun o => fieldAt 32 b o
  let u64 := fun o => fieldAt 64 b o
  let t := (u8 0).toNat
  let ok := fun (l : List (Nat × Nat)) (r : PassRecord) => if zeroBut b ((0, 1) :: l) then r else .unknown (u8 0)
  if t = 0x00 then ok [] .nop
  else if t = 0x01 then ok [(2, 4)] (.program (u16 2) (u16 4))
  else if t = 0x02 then
    ok [(1, 2), (8, if 2 ≤ (u8 2).toNat then 4 else 8), (0x10, 7)] (.bind (u8 1) (u8 2) (u64 8) (u32 0x10) (u8 0x14) (u8 0x15) (u8 0x16))
  else if t = 0x03 then ok [(4, 24)] (.viewport (u32 4) (u32 8) (u32 0xC) (u32 0x10) (u32 0x14) (u32 0x18))
  else if t = 0x04 then
    ok [(1, 12), (0x10, 8)] (.raster (u8 1) (u8 2) (u8 3) (u8 4) (u8 5) (u8 6) (u8 7) (u8 8) (u8 9) (u8 0xA) (u8 0xB) (u8 0xC) (rectAt b 0x10))
  else if t = 0x05 then ok [(1, 3)] (.blend (u8 1) (u8 2) (u8 3))
  else if t = 0x10 then ok [(1, 2), (4, 28)] (.draw (u8 1) (u8 2) (u32 4) (u32 8) (u32 0xC) (u64 0x10) (u32 0x18) (u32 0x1C))
  else if t = 0x11 then ok [(4, 12)] (.dispatch (u32 4) (u32 8) (u32 0xC))
  else .unknown (u8 0)

/-- The records of a list's bytes. -/
def decodeList : Nat → List Byte → List PassRecord
  | 0, _ => []
  | n + 1, b => decodeRecord (b.take 32) :: decodeList n (b.drop 32)

/-! ## The state that records set (R180) -/

/-- The causes of Table TP-8. -/
def causeRecord : Nat := 1
def causeAccess : Nat := 2
def causeBudget : Nat := 3
def causeProgram : Nat := 4
def causeHazard : Nat := 7
def causeHost : Nat := 8

/-- Whether the GPU may render into a format (Table CM-3). -/
def renders (fmt : Nat) : Bool := 1 ≤ fmt && fmt ≤ 6

/-- What reading a list has gathered: programs, bindings, viewport, raster and blend state in force (R180), the surfaces read and
written and all handles named, those that geometry reads, the DRAW and DISPATCH records, whether a fragment program or workgroup
holds a read-write binding. -/
structure ListState where
  first : Nat := 0xFFFF
  second : Nat := 0xFFFF
  binds : Tab Bind := []
  viewport : List (BitVec 32)
  raster : Raster := {}
  blend : List (Nat × Nat) := List.replicate 4 (0, 0xF)
  reads : List Nat := []
  writes : List Nat := []
  geometry : List Nat := []
  draws : List DrawCall := []
  groups : List DispatchCall := []
  rw : Bool := false

/-- The binary32 of a whole number. -/
def f32OfNat (n : Nat) : BitVec 32 := f32Bits n

/-- The state at the start of a list: the viewport is the render area, with zmin 0.0 and zmax 1.0 (R180). -/
def listStart (area : Nat × Nat × Nat × Nat) : ListState :=
  { viewport := [f32OfNat area.1, f32OfNat area.2.1, f32OfNat area.2.2.1, f32OfNat area.2.2.2, f32OfNat 0, f32OfNat 1] }

/-- The code that a program slot gives a function at a stage: of the stage, READY or kept while new code is translated, in a slot
that the function may use (R175, R180). -/
def progFor (s : State) (f slot stage : Nat) : Option Code :=
  if slot < 256 && (getN s (K.progOwner slot) == f || isPf f) && (getN s (K.progState slot) == 2 || getN s (K.progState slot) == 1) then
    (tfind s.progs slot).filter (fun c => c.stage == stage)
  else none

/-- Whether a buffer of `size` bytes at an offset lies within a surface (R180). -/
def bufferInside (s : State) (handle off size : Nat) : Bool := off + size ≤ slotSize s (slotOf handle)

/-- A BIND record: the state after it, or the cause of its fault (R180, Table TP-5). -/
def readBind (s : State) (f : Nat) (x : ListState) (binding kind ref size filter address matrix : Nat) : Except Nat ListState :=
  if 31 < binding ∨ 3 < kind ∨ 1 < filter ∨ 3 < address % 16 ∨ 3 < address / 16 ∨ 3 < matrix then .error causeRecord
  else if kind ≤ 1 then
    match refSurface ref with
    | none =>
      if kind = 0 then .ok { x with binds := tset x.binds binding { kind := 0, off := ref, size := size } } else .error causeRecord
    | some (h, off) =>
      if !mayRead s f h || (kind == 1 && !mayWrite s f h) || !bufferInside s h off size then .error causeAccess
      else
        let b := tset x.binds binding { kind := kind, shape := some (shapeOf s h), off := off, size := size }
        if kind = 0 then .ok { x with binds := b, reads := h :: x.reads } else .ok { x with binds := b, writes := h :: x.writes }
  else
    let h := ref % 2 ^ 32
    let b := tset x.binds binding
      { kind := kind, shape := some (shapeOf s h), filter := filter, address := address, matrix := matrix }
    if !mayRead s f h then .error causeAccess
    else if kind = 2 then .ok { x with binds := b, reads := h :: x.reads }
    else if !mayWrite s f h then .error causeAccess
    else if !renders (getN s (K.surfFormat (slotOf h))) then .error causeRecord
    else .ok { x with binds := b, writes := h :: x.writes }

/-- Whether a binding can be written. -/
def Bind.writable (b : Bind) : Bool := b.kind == 1 || b.kind == 3

/-- The surfaces that a program reads through its bindings. -/
def boundReads (c : Code) (binds : Tab Bind) : List Nat :=
  c.slots.filterMap (fun i => (tfind binds i).bind (fun b => b.shape.map (·.handle)))

/-- The index buffer of a DRAW, or the cause of its fault: it lies within a surface that the function may read (R176, log 267). -/
def readIndex (s : State) (f ref size count first : Nat) : Except Nat Bind :=
  if size = 0 then .ok { kind := 0 }
  else
    match refSurface ref with
    | none => .ok { kind := 0, off := ref, size := size * (first + count) }
    | some (h, off) =>
      if !mayRead s f h || !bufferInside s h off (size * (first + count)) then .error causeAccess
      else .ok { kind := 0, shape := some (shapeOf s h), off := off, size := size * (first + count) }

/-- A DRAW record: the state after it, or the cause of its fault (R180). -/
def readDraw (s : State) (f : Nat) (x : ListState) (topo isz count first inst idx : Nat) (base : Int) (firstInst : Nat) :
    Except Nat ListState :=
  if 1 < topo ∨ 2 < isz ∨ inst = 0 then .error causeRecord
  else
    match progFor s f x.first 0, (if x.second = 0xFFFF then some none else (progFor s f x.second 1).map some) with
    | some v, some p =>
      match readIndex s f idx (2 * isz) count first with
      | .error c => .error c
      | .ok b =>
        let seen := (b.shape.map (·.handle)).toList
        .ok { x with
          reads := seen ++ x.reads, geometry := seen ++ boundReads v x.binds ++ x.geometry
          rw := x.rw || (p.isSome && x.binds.any (fun e => e.2.writable))
          draws := x.draws ++ [{ vertex := v, fragment := p, binds := x.binds, viewport := x.viewport, raster := x.raster
                                 blend := x.blend, strip := topo == 1, indexSize := 2 * isz, count := count, first := first
                                 instances := inst, index := b, base := base, firstInst := firstInst }] }
    | _, _ => .error causeProgram

/-- One record of a list: the state after it, or the cause of its fault (R179, R180, R202). PROGRAM's first slot is a slot's number;
its second may name none. -/
def readRecord (s : State) (f : Nat) (compute : Bool) (x : ListState) (r : PassRecord) : Except Nat ListState :=
  match r with
  | .nop => .ok x
  | .program a b =>
    let okSecond := if compute then b == 0xFFFF#16 else decide (b.toNat < 256) || b == 0xFFFF#16
    if decide (a.toNat < 256) && okSecond then .ok { x with first := a.toNat, second := b.toNat } else .error causeRecord
  | .bind n k ref size fl ad mx => readBind s f x n.toNat k.toNat ref.toNat size.toNat fl.toNat ad.toNat mx.toNat
  | .viewport vx vy vw vh z0 z1 => .ok { x with viewport := [vx, vy, vw, vh, z0, z1] }
  | .raster cull front dfn dw st stfn ref rm wm fo dfo po sc =>
    if cull.toNat ≤ 2 ∧ front.toNat ≤ 1 ∧ dfn.toNat ≤ 7 ∧ dw.toNat ≤ 1 ∧ st.toNat ≤ 1 ∧ stfn.toNat ≤ 7 ∧ fo.toNat ≤ 7
        ∧ dfo.toNat ≤ 7 ∧ po.toNat ≤ 7 then
      .ok { x with raster :=
        { cull := cull.toNat, front := front.toNat, depthFn := dfn.toNat, depthWrite := dw == 1, stencil := st == 1
          stencilFn := stfn.toNat, ref := ref.toNat, readMask := rm.toNat, writeMask := wm.toNat, failOp := fo.toNat
          dfailOp := dfo.toNat, passOp := po.toNat, scissor := (sc.x.toNat, sc.y.toNat, sc.w.toNat, sc.h.toNat) } }
    else .error causeRecord
  | .blend t m k =>
    if t.toNat ≤ 3 ∧ m.toNat ≤ 3 ∧ k.toNat ≤ 15 then .ok { x with blend := x.blend.set t.toNat (m.toNat, k.toNat) } else .error causeRecord
  | .draw topo isz count first inst idx base fi =>
    if compute then .error causeRecord
    else readDraw s f x topo.toNat isz.toNat count.toNat first.toNat inst.toNat idx.toNat base.toInt fi.toNat
  | .dispatch gx gy gz =>
    if !compute then .error causeRecord
    else
      match progFor s f x.first 2 with
      | none => .error causeProgram
      | some c => .ok { x with groups := x.groups ++ [{ code := c, binds := x.binds, x := gx.toNat, y := gy.toNat, z := gz.toNat }] }
  | .unknown _ => .error causeRecord

/-- Reads a list from record `i` on: what it gathers, or the cause and number of the failing record. -/
def readList (s : State) (f : Nat) (compute : Bool) : ListState → Nat → List PassRecord → Except (Nat × Nat) ListState
  | x, _, [] => .ok x
  | x, i, r :: rest =>
    match readRecord s f compute x r with
    | .error c => .error (c, i)
    | .ok x => readList s f compute x (i + 1) rest

end Sys2Proof.Machine
end

