-- ==== Sys2Proof/Machine/Raster.lean ====
section
/-!
DEFINITION. Triangles: assembly (R182), clipping, the viewport and snapping (R183), culling and the tiles a triangle enters (R184), the
samples it covers and what is interpolated there (R195). All of it is exact (log 260, 268).
-/

namespace Sys2Proof.Machine

/-! ## Assembly (R182) -/

/-- The triangles of a list: vertices 3i, 3i + 1, 3i + 2; one with an index of all ones is dropped. -/
def listTriangles {α : Type} (vs : List (Option α)) : List (α × α × α) :=
  (List.range (vs.length / 3)).filterMap (fun i =>
    match vs.getD (3 * i) none, vs.getD (3 * i + 1) none, vs.getD (3 * i + 2) none with
    | some a, some b, some c => some (a, b, c)
    | _, _, _ => none)

/-- The triangles of a strip from its triangle `i` on; an index of all ones begins a new strip. -/
def stripTriangles {α : Type} : Nat → List (Option α) → List (α × α × α)
  | i, some a :: some b :: some c :: r =>
    (if i % 2 = 0 then (a, b, c) else (b, a, c)) :: stripTriangles (i + 1) (some b :: some c :: r)
  | _, some _ :: some _ :: none :: r => stripTriangles 0 r
  | _, some _ :: none :: r => stripTriangles 0 r
  | _, none :: r => stripTriangles 0 r
  | _, _ => []

/-! ## Clipping (R183, log 268) -/

/-- A vertex in clip space: position and varying words as values. -/
structure ClipVert where
  x : ℚ
  y : ℚ
  z : ℚ
  w : ℚ
  attr : List ℚ
  deriving DecidableEq, Repr, Inhabited

/-- The point of an edge at a fraction. -/
def ClipVert.mix (t : ℚ) (p q : ClipVert) : ClipVert :=
  let m := fun (a b : ℚ) => a + t * (b - a)
  ⟨m p.x q.x, m p.y q.y, m p.z q.z, m p.w q.w, List.zipWith m p.attr q.attr⟩

/-- The part of a polygon on the side of a plane where its distance is not negative. -/
def clipPlane (d : ClipVert → ℚ) (poly : List ClipVert) : List ClipVert :=
  (poly.zip (poly.rotate 1)).flatMap (fun e =>
    let a := d e.1
    let b := d e.2
    let cross := ClipVert.mix (a / (a - b)) e.1 e.2
    if 0 ≤ a then (if b < 0 then [e.1, cross] else [e.1]) else if 0 ≤ b then [cross] else [])

/-- The window position of a vertex through a viewport (x, y, w, h). -/
def windowX (vp : List ℚ) (v : ClipVert) : ℚ := vp.getD 0 0 + (v.x / v.w + 1) / 2 * vp.getD 2 0
def windowY (vp : List ℚ) (v : ClipVert) : ℚ := vp.getD 1 0 + (v.y / v.w + 1) / 2 * vp.getD 3 0

/-- Whether a vertex falls outside window coordinates -8192 to 16383. -/
def outsideWindow (vp : List ℚ) (v : ClipVert) : Bool :=
  v.w == 0 || decide (windowX vp v < -8192 ∨ 16383 < windowX vp v ∨ windowY vp v < -8192 ∨ 16383 < windowY vp v)

/-- A triangle clipped against 0 ≤ z ≤ w, and against x and y where a vertex would fall outside the window's range; none of it where w
is at or below 2^-20 at every vertex (R183). -/
def clipTriangle (vp : List ℚ) (a b c : ClipVert) : List ClipVert :=
  let tiny := pow2 (-20)
  if a.w ≤ tiny ∧ b.w ≤ tiny ∧ c.w ≤ tiny then []
  else
    let p := clipPlane (fun v => v.w - v.z) (clipPlane (fun v => v.z) [a, b, c])
    if p.any (outsideWindow vp) then
      clipPlane (fun v => v.w - v.y) (clipPlane (fun v => v.w + v.y) (clipPlane (fun v => v.w - v.x) (clipPlane (fun v => v.w + v.x) p)))
    else p

/-- The fan of triangles of a polygon, from its first vertex (log 268). -/
def fan {α : Type} : List α → List (α × α × α)
  | a :: b :: c :: r => (a, b, c) :: fan (a :: c :: r)
  | _ => []

/-- A clipped vertex in the window: x and y snapped to 1/256 pixel, halves to even; its depth (R183). -/
def toWindow (vp : List ℚ) (v : ClipVert) : Vert :=
  { x := roundEven (256 * windowX vp v), y := roundEven (256 * windowY vp v)
    z := vp.getD 4 0 + v.z / v.w * (vp.getD 5 0 - vp.getD 4 0), w := v.w, attr := v.attr }

/-! ## Edges and coverage (R184, R195) -/

/-- Twice the signed area of the triangle of an edge and a point: positive where the point lies on the right of the edge, y growing
downwards. -/
def edge (u v : Vert) (x y : Int) : Int := (v.x - u.x) * (y - u.y) - (v.y - u.y) * (x - u.x)

/-- Twice the signed area of a triangle: positive where it turns clockwise on the screen. -/
def area2 (a b c : Vert) : Int := edge a b c.x c.y

/-- The vertices in clockwise order. -/
def clockwise (p : Prim) : Vert × Vert × Vert := if 0 < area2 p.a p.b p.c then (p.a, p.b, p.c) else (p.a, p.c, p.b)

/-- Whether an edge of a clockwise triangle is a top or a left edge (R195). -/
def topLeft (u v : Vert) : Bool := decide ((v.y = u.y ∧ u.x < v.x) ∨ v.y < u.y)

/-- Whether a point lies inside a triangle, or on a top or left edge of it (R195). -/
def covers (p : Prim) (x y : Int) : Bool :=
  let (a, b, c) := clockwise p
  let side := fun (u v : Vert) => decide (0 < edge u v x y) || (edge u v x y == 0 && topLeft u v)
  side a b && side b c && side c a

/-- The sample positions of a pixel in 1/256 pixel (R195). -/
def samplePoints (samples : Nat) : List (Int × Int) := if samples = 4 then [(96, 32), (224, 96), (32, 160), (160, 224)] else [(128, 128)]

/-- The samples of pixel (x, y) that a triangle covers. -/
def coverOf (p : Prim) (samples x y : Nat) : List Nat :=
  numbers (samplePoints samples).length (fun k =>
    let q := (samplePoints samples).getD k (128, 128)
    covers p (256 * x + q.1) (256 * y + q.2))

/-- The part of a rectangle (x, y, w, h) that lies in another. -/
def rectMeet (a b : Nat × Nat × Nat × Nat) : Nat × Nat × Nat × Nat :=
  let x := max a.1 b.1
  let y := max a.2.1 b.2.1
  (x, y, min (a.1 + a.2.2.1) (b.1 + b.2.2.1) - x, min (a.2.1 + a.2.2.2) (b.2.1 + b.2.2.2) - y)

/-- The least and greatest of three numbers. -/
def min3 (a b c : Int) : Int := min a (min b c)
def max3 (a b c : Int) : Int := max a (max b c)

/-- The pixels of a rectangle that a triangle's bounds touch, line by line. -/
def boundPixels (p : Prim) (r : Nat × Nat × Nat × Nat) : List (Nat × Nat) :=
  let lo := fun (v : Int) => (v / 256).toNat
  let box := (lo (min3 p.a.x p.b.x p.c.x), lo (min3 p.a.y p.b.y p.c.y),
    (lo (max3 p.a.x p.b.x p.c.x) + 1) - lo (min3 p.a.x p.b.x p.c.x), (lo (max3 p.a.y p.b.y p.c.y) + 1) - lo (min3 p.a.y p.b.y p.c.y))
  let (x, y, w, h) := rectMeet box r
  (List.range h).flatMap (fun j => (List.range w).map (fun i => (x + i, y + j)))

/-- Whether a triangle covers a sample within a rectangle. -/
def coversIn (p : Prim) (samples : Nat) (r : Nat × Nat × Nat × Nat) : Bool :=
  (boundPixels p r).any (fun e => !(coverOf p samples e.1 e.2).isEmpty)

/-- Whether a triangle's inside meets a rectangle's (R184): no side of either parts them. -/
def overlapsRect (p : Prim) (r : Nat × Nat × Nat × Nat) : Bool :=
  let x0 : Int := 256 * r.1
  let y0 : Int := 256 * r.2.1
  let x1 : Int := 256 * (r.1 + r.2.2.1)
  let y1 : Int := 256 * (r.2.1 + r.2.2.2)
  let (a, b, c) := clockwise p
  let side := fun (u v : Vert) => [(x0, y0), (x1, y0), (x0, y1), (x1, y1)].any (fun q => decide (0 < edge u v q.1 q.2))
  decide (x0 < x1 ∧ y0 < y1 ∧ min3 a.x b.x c.x < x1 ∧ x0 < max3 a.x b.x c.x ∧ min3 a.y b.y c.y < y1 ∧ y0 < max3 a.y b.y c.y)
    && side a b && side b c && side c a

/-! ## Tiles (R184) -/

/-- The tiles across a render area, in the grid of target 0 (R184). -/
def tilesAcross (a : Nat × Nat × Nat × Nat) : Nat := if a.2.2.1 = 0 then 0 else (a.1 + a.2.2.1 - 1) / 32 + 1 - a.1 / 32
def tilesDown (a : Nat × Nat × Nat × Nat) : Nat := if a.2.2.2 = 0 then 0 else (a.2.1 + a.2.2.2 - 1) / 32 + 1 - a.2.1 / 32

/-- The part of tile n, in tile-row order, that lies in the render area: x, y, w, h. -/
def tileRect (a : Nat × Nat × Nat × Nat) (n : Nat) : Nat × Nat × Nat × Nat :=
  let tx := 32 * (a.1 / 32 + n % max 1 (tilesAcross a))
  let ty := 32 * (a.2.1 / 32 + n / max 1 (tilesAcross a))
  rectMeet (tx, ty, 32, 32) a

/-- The tiles of a render area that a triangle overlaps within a rectangle (R184). -/
def tilesOf (p : Prim) (area within_ : Nat × Nat × Nat × Nat) : List Nat :=
  numbers (tilesAcross area * tilesDown area) (fun n => overlapsRect p (rectMeet (tileRect area n) within_))

/-- The rectangle that limits a draw's coverage: its scissor, or the render area, within the render area (R180, R183). -/
def coverRect (area scissor : Nat × Nat × Nat × Nat) : Nat × Nat × Nat × Nat := if scissor.2.2.1 = 0 then area else rectMeet scissor area

/-! ## Interpolation (R195) -/

/-- The weights of a triangle's vertices at a point in 1/256 pixel. -/
def weights (p : Prim) (x y : Int) : ℚ × ℚ × ℚ :=
  let d : ℚ := area2 p.a p.b p.c
  (edge p.b p.c x y / d, edge p.c p.a x y / d, edge p.a p.b x y / d)

/-- The depth at a sample, as a binary32 (R195). -/
def depthAt (p : Prim) (x y : Int) : ℚ :=
  let (u, v, w) := weights p x y
  rnd32 (u * p.a.z + v * p.b.z + w * p.c.z)

/-- A varying word at the centre of a pixel: 0 with perspective, 1 flat, 2 without perspective (R195). -/
def varyingAt (p : Prim) (x y i mode : Nat) : BitVec 32 :=
  let (u, v, w) := weights p (256 * x + 128) (256 * y + 128)
  let at_ := fun (n : Vert) => n.attr.getD i 0
  if mode = 1 then p.flat.getD i 0
  else if mode = 2 then f32Bits (u * at_ p.a + v * at_ p.b + w * at_ p.c)
  else f32Bits ((u * at_ p.a / p.a.w + v * at_ p.b / p.b.w + w * at_ p.c / p.c.w) / (u / p.a.w + v / p.b.w + w / p.c.w))

/-- Where the words of a location begin among a vertex program's varying words. -/
def outputStart : List (Nat × Nat × Nat) → Nat → Nat → Option Nat
  | [], _, _ => none
  | (l, n, _) :: r, loc, at_ => if l = loc then some at_ else outputStart r loc (at_ + n)

/-- The varying words that a fragment program gets at a pixel, location by location; a word that the vertex program does not write is
0 (log 268). -/
def fragmentWords (p : Prim) (vertex fragment : Code) (x y : Nat) : List Nat :=
  fragment.inputs.flatMap (fun e => (List.range e.2.1).map (fun j =>
    match outputStart vertex.outputs e.1 0 with
    | some k => (varyingAt p x y (k + j) e.2.2).toNat
    | none => 0))

end Sys2Proof.Machine
end

