-- ==== Sys2Proof/Machine/Pixels.lean ====
section
/-!
DEFINITION. Pixels: the fields of the surface formats (R77, Table CM-3), their values for the pipeline (R196) and their 12-bit channels
for composition (R89), the colour matrices (R90, Table CM-7) and the blend of a layer (R89).
-/

namespace Sys2Proof.Machine

/-- A colour with its alpha, as exact values. -/
structure Rgba where
  r : ℚ := 0
  g : ℚ := 0
  b : ℚ := 0
  a : ℚ := 0
  deriving DecidableEq, Repr, Inhabited

/-- The channels of a colour in the order R, G, B, A. -/
def Rgba.list (c : Rgba) : List ℚ := [c.r, c.g, c.b, c.a]

/-- The colour of four channels. -/
def Rgba.ofList (l : List ℚ) : Rgba := ⟨l.getD 0 0, l.getD 1 0, l.getD 2 0, l.getD 3 0⟩

/-- A colour with a function applied to each channel. -/
def Rgba.map (f : ℚ → ℚ) (c : Rgba) : Rgba := ⟨f c.r, f c.g, f c.b, f c.a⟩

/-! ## Fields (Table CM-3) -/

/-- The fields of a format in the order R, G, B, A, as (lowest bit, width); a width of 0 where the format has no such channel. -/
def fieldsOf (fmt : Nat) : List (Nat × Nat) :=
  if fmt = 1 then [(0, 8), (8, 8), (16, 8), (24, 8)]
  else if fmt = 2 then [(0, 8), (8, 8), (16, 8), (24, 0)]
  else if fmt = 3 then [(16, 8), (8, 8), (0, 8), (24, 8)]
  else if fmt = 4 then [(0, 10), (10, 10), (20, 10), (30, 2)]
  else if fmt = 5 then [(11, 5), (5, 6), (0, 5), (16, 0)]
  else [(0, 16), (16, 16), (32, 16), (48, 16)]

/-- Whether a format's channels are binary16. -/
def isHalf (fmt : Nat) : Bool := fmt == 6

/-- The code of one channel of a pixel. -/
def channelCode (w : Nat) (e : Nat × Nat) : Nat := w / 2 ^ e.1 % 2 ^ e.2

/-- The value of a channel's code: a fraction of the greatest code, or a binary16; a format without an A channel is opaque (R77). -/
def channelVal (fmt : Nat) (w : Nat) (e : Nat × Nat) : ℚ :=
  if e.2 = 0 then 1 else if isHalf fmt then f16Val (channelCode w e) else (channelCode w e : ℚ) / (2 ^ e.2 - 1 : Nat)

/-- The colour of a pixel's word. -/
def decodePixel (fmt w : Nat) : Rgba := Rgba.ofList ((fieldsOf fmt).map (channelVal fmt w))

/-- A channel's code for a value: the nearest, halves up, of a value held to 0 to 1; or the nearest binary16 (R196). -/
def channelOf (fmt : Nat) (e : Nat × Nat) (q : ℚ) : Nat :=
  if e.2 = 0 then 0 else if isHalf fmt then f16Bits q else (roundHalfUp (clamp01 q * (2 ^ e.2 - 1 : Nat))).toNat

/-- The word of a colour; `pad` is what the module writes into bits that the format ignores. -/
def encodePixel (fmt : Nat) (pad : Byte) (c : Rgba) : Nat :=
  (((fieldsOf fmt).zip c.list).map (fun e => channelOf fmt e.1 e.2 * 2 ^ e.1.1)).sum + (if fmt = 2 then 2 ^ 24 * pad.toNat else 0)

/-- The pixel of a w × h rectangle that a clockwise rotation by `rot` quarter turns puts at (x, y) (R84, R86). -/
def turnBack (rot w h x y : Nat) : Nat × Nat :=
  match rot with
  | 0 => (x, y)
  | 1 => (y, h - 1 - x)
  | 2 => (w - 1 - x, h - 1 - y)
  | _ => (w - 1 - y, x)

/-! ## Composition at 12 bits per channel (R77, R89) -/

/-- A colour at 12 bits per channel. -/
structure Rgb12 where
  r : Nat := 0
  g : Nat := 0
  b : Nat := 0
  deriving DecidableEq, Repr, Inhabited

/-- A value from 0 to 1 at 12 bits, halves up. -/
def to12 (q : ℚ) : Nat := (roundHalfUp (clamp01 q * 4095)).toNat

/-- A channel of `n` bits expanded to 12: 8, 5 and 6 bits by replication, 10 bits shifted up by 2 with its two top bits below (R89). -/
def expand (n c : Nat) : Nat :=
  if n = 8 then c * 16 + c / 16 else if n = 5 then c * 128 + c * 4 + c / 8 else if n = 6 then c * 64 + c
  else c * 4 + c / 256

/-- One channel of a pixel at 12 bits; a binary16 is held to 0 to 1 (R77). -/
def channel12 (fmt w : Nat) (e : Nat × Nat) : Nat :=
  if isHalf fmt then to12 (f16Val (channelCode w e)) else expand e.2 (channelCode w e)

/-- A pixel's colour at 12 bits and its alpha from 0 to 1. -/
def pixel12 (fmt w : Nat) : Rgb12 × ℚ :=
  let l := fieldsOf fmt
  (⟨channel12 fmt w (l.getD 0 (0, 0)), channel12 fmt w (l.getD 1 (0, 0)), channel12 fmt w (l.getD 2 (0, 0))⟩,
   clamp01 (channelVal fmt w (l.getD 3 (0, 0))))

/-- The luma weights of red and blue of a colour matrix: ITU-R BT.709, or BT.2020 non-constant luminance (Table CM-7, log 262). -/
def lumaWeights (matrix : Nat) : ℚ × ℚ := if matrix ≤ 1 then (2126 / 10000, 722 / 10000) else (2627 / 10000, 593 / 10000)

/-- The red, green and blue of a YUV pixel of `n` bits per sample by a matrix of Table CM-7 (R90, log 262). -/
def yuvRgb (matrix n y u v : Nat) : Rgba :=
  let (kr, kb) := lumaWeights matrix
  let unit : ℚ := (2 ^ (n - 8) : Nat)
  let full := matrix % 2 = 1
  let luma : ℚ := if full then (y : ℚ) / (2 ^ n - 1 : Nat) else ((y : ℚ) / unit - 16) / 219
  let chroma := fun (c : Nat) => if full then ((c : ℚ) - (2 ^ (n - 1) : Nat)) / (2 ^ n - 1 : Nat) else ((c : ℚ) / unit - 128) / 224
  let r := luma + 2 * (1 - kr) * chroma v
  let b := luma + 2 * (1 - kb) * chroma u
  { r := clamp01 r, g := clamp01 ((luma - kr * r - kb * b) / (1 - kr - kb)), b := clamp01 b, a := 1 }

/-- The Y, U and V of a colour by a matrix of Table CM-7, as codes of `n` bits (R84, R90, log 262). -/
def rgbYuv (matrix n : Nat) (c : Rgba) : Nat × Nat × Nat :=
  let (kr, kb) := lumaWeights matrix
  let luma := kr * c.r + (1 - kr - kb) * c.g + kb * c.b
  let u := (c.b - luma) / (2 * (1 - kb))
  let v := (c.r - luma) / (2 * (1 - kr))
  let unit : ℚ := (2 ^ (n - 8) : Nat)
  let full := matrix % 2 = 1
  let top : ℚ := (2 ^ n - 1 : Nat)
  let code := fun (q : ℚ) => (roundHalfUp (max 0 (min top q))).toNat
  let chroma := fun (q : ℚ) => code (if full then q * top + (2 ^ (n - 1) : Nat) else (q * 224 + 128) * unit)
  (code (if full then luma * top else (luma * 219 + 16) * unit), chroma u, chroma v)

/-- A colour at 12 bits per channel. -/
def rgba12 (c : Rgba) : Rgb12 × ℚ := (⟨to12 c.r, to12 c.g, to12 c.b⟩, clamp01 c.a)

/-- One channel of a layer over the result so far, at 12 bits with halves rounded up: `p` the plane alpha, `a` the pixel's (R89). -/
def blend12 (mode : Nat) (p a : ℚ) (c d : Nat) : Nat :=
  let a := if mode = 0 then 1 else a
  let q : ℚ := if mode = 2 then p * a * c + (1 - p * a) * d else p * c + (1 - p * a) * d
  (roundHalfUp (max 0 (min 4095 q))).toNat

/-- A layer's pixel over the result so far (R73, R89). -/
def blendOver (mode alpha : Nat) (x : Rgb12 × ℚ) (d : Rgb12) : Rgb12 :=
  let p : ℚ := (alpha : ℚ) / 255
  ⟨blend12 mode p x.2 x.1.r d.r, blend12 mode p x.2 x.1.g d.g, blend12 mode p x.2 x.1.b d.b⟩

/-- A 12-bit channel rounded to 10 bits, halves up (R89). -/
def round10 (c : Nat) : Nat := min 1023 ((c + 2) / 4)

/-- The word of a compose-buffer pixel: RGBA-1010102 with alpha 3 (R97). -/
def composeWord (c : Rgb12) : Nat := round10 c.r + 2 ^ 10 * round10 c.g + 2 ^ 20 * round10 c.b + 2 ^ 30 * 3

/-- The colour of a packed background or palette value: [9:0] B, [19:10] G, [29:20] R (Table CM-8). -/
def packed12 (w : Nat) : Rgb12 := ⟨expand 10 (w / 2 ^ 20 % 1024), expand 10 (w / 2 ^ 10 % 1024), expand 10 (w % 1024)⟩

end Sys2Proof.Machine
end

