-- ==== Sys2Proof/Machine/Runs.lean ====
section
/-!
DEFINITION. The run of a program: what each of its actions finds and leaves in the bindings (R176, R197, R204, R207). What a program
asks for is its own affair (Config.program); what it gets is the machine's.
-/

namespace Sys2Proof.Machine

/-- What a run has come to: the state, the poisoned words it read, whether the host refused a read, and whether an index could not be
read. -/
structure ProgRun where
  state : State
  poison : Nat := 0
  refused : Bool := false
  lost : Bool := false

/-- Who runs: the function, the host addresses refused to it, the bindings in force. -/
structure ProgEnv where
  func : Nat
  bad : List (Nat × Nat)
  binds : Tab Bind

/-- The binding of a slot. -/
def ProgEnv.bind (e : ProgEnv) (i : Nat) : Option Bind := tfind e.binds i

/-- Reads bytes of a surface: zeros for a poisoned word, which is counted (R207); and whether any was. -/
def ProgRun.readBytes (r : ProgRun) (h : Nat) (off n : Nat) : ProgRun × List Byte × Bool :=
  match readHandle r.state h off n with
  | (s, b, bad) => ({ r with state := s, poison := r.poison + bad.length }, b, bad.isEmpty)

/-! ## Buffers (R204, R207) -/

/-- A word of a buffer: 0 beyond its size (R204); of host memory as the function's translation gives it (R176). -/
def ProgRun.readBuffer (e : ProgEnv) (r : ProgRun) (b : Bind) (o : Nat) : ProgRun × BitVec 32 :=
  if b.size < o + 4 then (r, 0)
  else
    match b.shape with
    | some h =>
      match r.readBytes h.handle (b.off + o) 4 with
      | (r, l, _) => (r, BitVec.ofNat 32 (ofLe l))
    | none =>
      if hostReaches e.bad (b.off + o) 4 then (r, BitVec.ofNat 32 (ofLe (hostRead r.state e.func (b.off + o) 4)))
      else ({ r with refused := true }, 0)

/-- Writes a word of a read-write buffer; beyond its size nothing (R204). Host memory is never written (R180). -/
def ProgRun.writeBuffer (r : ProgRun) (b : Bind) (o : Nat) (v : BitVec 32) : ProgRun :=
  match b.kind, b.shape with
  | 1, some h => if b.size < o + 4 then r else { r with state := writeHandle r.state h.handle (b.off + o) (leBytes 4 v.toNat) }
  | _, _ => r

/-- The new value of an atomic operation (R204). -/
def atomicValue (op : Nat) (old v cmp : BitVec 32) : BitVec 32 :=
  if op = 0 then old + v else if op = 1 then old &&& v else if op = 2 then old ||| v else if op = 3 then old ^^^ v
  else if op = 4 then (if old.toNat ≤ v.toNat then old else v) else if op = 5 then (if old.toNat ≤ v.toNat then v else old)
  else if op = 6 then (if old.toInt ≤ v.toInt then old else v) else if op = 7 then (if old.toInt ≤ v.toInt then v else old)
  else if op = 8 then v else if op = 9 then (if old = cmp then v else old) else old

/-! ## Images (R197) -/

/-- The colour of a pixel of a surface, a YUV one converted with a matrix: none where a word it touches is poisoned (R207). -/
def ProgRun.texel (r : ProgRun) (h : Shape) (matrix x y : Nat) : ProgRun × Option Rgba :=
  if isYuv h.fmt then
    let n := strideBytes h.fmt
    let bits := if n = 1 then 8 else 10
    let code := fun (l : List Byte) => if n = 1 then ofLe l else ofLe l / 64
    match r.readBytes h.handle (pixelAt h.fmt h.layout h.width x y) n with
    | (r, l, ok1) =>
      match r.readBytes h.handle (chromaAt h.fmt h.layout h.width h.height x y) (2 * n) with
      | (r, c, ok2) => (r, if ok1 && ok2 then some (yuvRgb matrix bits (code l) (code (c.take n)) (code (c.drop n))) else none)
  else
    match r.readBytes h.handle (pixelAt h.fmt h.layout h.width x y) (strideBytes h.fmt) with
    | (r, l, ok) => (r, if ok then some (decodePixel h.fmt (ofLe l)) else none)

/-- A texel number by an address mode: 0 clamp, 1 repeat, 2 mirror, 3 border, which has none outside (Table TP-5, R197). -/
def addressTexel (mode n : Nat) (i : Int) : Option Nat :=
  if n = 0 then none
  else if 0 ≤ i ∧ i < n then some i.toNat
  else if mode = 0 then some (if i < 0 then 0 else n - 1)
  else if mode = 1 then some (i % n).toNat
  else if mode = 2 then (let m := (i % (2 * n)).toNat; some (if m < n then m else 2 * n - 1 - m))
  else none

/-- The texel at a whole position by the binding's address modes; the border is 0 in all channels (R197). -/
def ProgRun.texelAt (r : ProgRun) (b : Bind) (h : Shape) (i j : Int) : ProgRun × Option Rgba :=
  match addressTexel (b.address % 16) h.width i, addressTexel (b.address / 16) h.height j with
  | some x, some y => r.texel h b.matrix x y
  | _, _ => (r, some {})

/-- Four texels weighted by the fractions of the position. -/
def bilinear (fx fy : ℚ) (a b c d : Rgba) : Rgba :=
  let mix := fun (p q u v : ℚ) => (p * (1 - fx) + q * fx) * (1 - fy) + (u * (1 - fx) + v * fx) * fy
  ⟨mix a.r b.r c.r d.r, mix a.g b.g c.g d.g, mix a.b b.b c.b d.b, mix a.a b.a c.a d.a⟩

/-- A texture sample: nearest or bilinear on a single level, at texel centres (R197, log 264). A sample that touches a poisoned word is
0 in all channels (R207). -/
def ProgRun.sample (r : ProgRun) (b : Bind) (h : Shape) (u v : ℚ) : ProgRun × Rgba :=
  if b.filter = 0 then
    match r.texelAt b h (u * h.width).floor (v * h.height).floor with
    | (r, c) => (r, c.getD {})
  else
    let x := u * h.width - 1 / 2
    let y := v * h.height - 1 / 2
    let i := x.floor
    let j := y.floor
    match r.texelAt b h i j with
    | (r, a) =>
      match r.texelAt b h (i + 1) j with
      | (r, b') =>
        match r.texelAt b h i (j + 1) with
        | (r, c) =>
          match r.texelAt b h (i + 1) (j + 1) with
          | (r, d) =>
            match a, b', c, d with
            | some a, some b', some c, some d => (r, bilinear (x - i) (y - j) a b' c d)
            | _, _, _, _ => (r, {})

/-- A colour as the words a program gets. -/
def Rgba.words (c : Rgba) : List (BitVec 32) := c.list.map (fun q => f32Bits q)

/-- Writes a pixel of a storage image; outside it nothing (R204). -/
def ProgRun.storePixel (r : ProgRun) (b : Bind) (x y : Nat) (c : Rgba) : ProgRun :=
  match b.kind, b.shape with
  | 3, some h =>
    if h.width ≤ x ∨ h.height ≤ y then r
    else
      let o := pixelAt h.fmt h.layout h.width x y
      { r with state := writeHandle r.state h.handle o (leBytes (strideBytes h.fmt) (encodePixel h.fmt (Config.padding o) c)) }
  | _, _ => r

/-! ## The run -/

/-- One action of a program, and the answer it gets; an action on a slot without a fitting binding finds zeros and leaves nothing. -/
def ProgRun.act (e : ProgEnv) (r : ProgRun) (a : Config.ProgAction) : ProgRun × List (BitVec 32) :=
  match a with
  | .read i o =>
    match e.bind i with
    | some b => if b.kind ≤ 1 then (match r.readBuffer e b o with | (r, v) => (r, [v])) else (r, [0])
    | none => (r, [0])
  | .write i o v =>
    match e.bind i with
    | some b => (r.writeBuffer b o v, [])
    | none => (r, [])
  | .atomic i o op v c =>
    match e.bind i with
    | some b =>
      if b.kind = 1 then
        match r.readBuffer e b o with
        | (r, old) => (r.writeBuffer b o (atomicValue op old v c), [old])
      else (r, [0])
    | none => (r, [0])
  | .sample i u v =>
    match e.bind i with
    | some b =>
      match b.kind, b.shape with
      | 2, some h => (match r.sample b h (f32Val u) (f32Val v) with | (r, c) => (r, c.words))
      | _, _ => (r, Rgba.words {})
    | none => (r, Rgba.words {})
  | .fetch i x y =>
    match e.bind i with
    | some b =>
      match b.shape with
      | some h =>
        if 2 ≤ b.kind ∧ x < h.width ∧ y < h.height then (match r.texel h b.matrix x y with | (r, c) => (r, (c.getD {}).words))
        else (r, Rgba.words {})
      | none => (r, Rgba.words {})
    | none => (r, Rgba.words {})
  | .store i x y cr cg cb ca =>
    match e.bind i with
    | some b => (r.storePixel b x y ⟨f32Val cr, f32Val cg, f32Val cb, f32Val ca⟩, [])
    | none => (r, [])
  | .done _ _ _ => (r, [])

/-- What a program ends with: its output words, whether it discards, the depth it writes. -/
structure ProgEnd where
  out : List (BitVec 32) := []
  discard : Bool := false
  depth : Option (BitVec 32) := none

/-- Runs a program on what an invocation is given, action by action. -/
def runFrom (e : ProgEnv) (c : Code) (input : List Nat) : Nat → ProgRun → List (List (BitVec 32)) → ProgRun × ProgEnd
  | 0, r, _ => (r, {})
  | n + 1, r, ans =>
    match Config.program c.code c.entry input ans with
    | .done out d z => (r, ⟨out, d, z⟩)
    | a =>
      match r.act e a with
      | (r, x) => runFrom e c input n r (ans ++ [x])

/-- Runs a program for one invocation, or for one workgroup. -/
def runProgram (e : ProgEnv) (c : Code) (input : List Nat) (r : ProgRun) : ProgRun × ProgEnd :=
  runFrom e c input Config.actionBound r []

end Sys2Proof.Machine
end

