-- ==== Sys2Proof/Machine/Geometry.lean ====
section
/-!
DEFINITION. The geometry phase of a pass: index data and vertex programs (R172, R181, R182), clipped and culled triangles (R183, R184),
the bin lists and the Silt bytes they take (R185, R188).
-/

namespace Sys2Proof.Machine

/-- The environment of a pass's programs with a set of bindings. -/
def Pass.env (p : Pass) (binds : Tab Bind) : ProgEnv := ⟨p.ticket.func, p.hostBad, binds⟩

/-! ## Vertices (R181, R182) -/

/-- The index of element `i` of a DRAW: none for one of all ones. Without an index buffer the vertices are numbered from `first`; the
base vertex is added to what an index buffer holds (log 268). -/
def elementIndex (e : ProgEnv) (d : DrawCall) (r : ProgRun) (i : Nat) : ProgRun × Option Nat :=
  if d.indexSize = 0 then (r, some ((d.first + i) % 2 ^ 32))
  else
    let o := d.indexSize * (d.first + i)
    let answer := fun (l : List Byte) =>
      if ofLe l = 2 ^ (8 * d.indexSize) - 1 then none else some (((ofLe l : Int) + d.base) % 2 ^ 32).toNat
    match d.index.shape with
    | some h =>
      match r.readBytes h.handle (d.index.off + o) d.indexSize with
      | (r, l, ok) => ({ r with lost := r.lost || !ok }, answer l)
    | none =>
      if hostReaches e.bad (d.index.off + o) d.indexSize then
        (r, answer (hostRead r.state e.func (d.index.off + o) d.indexSize))
      else ({ r with refused := true }, some 0)

/-- A vertex that its program has placed: clip-space position, varying words. -/
structure PlacedVert where
  pos : ClipVert
  words : List (BitVec 32)
  deriving DecidableEq, Repr, Inhabited

/-- Runs the vertex program for one element of an instance (R182). Its first four output words are Position. -/
def placeVertex (p : Pass) (d : DrawCall) (inst : Nat) (x : ProgRun × List (Option PlacedVert)) (i : Nat) :
    ProgRun × List (Option PlacedVert) :=
  let e := p.env d.binds
  match elementIndex e d x.1 i with
  | (r, none) => (r, x.2 ++ [none])
  | (r, some v) =>
    match runProgram e d.vertex [v, d.firstInst + inst] r with
    | (r, o) =>
      let w := fun k => o.out.getD k 0
      let words := (List.range d.vertex.varyings).map (fun k => w (4 + k))
      (r, x.2 ++ [some ⟨⟨f32Val (w 0), f32Val (w 1), f32Val (w 2), f32Val (w 3), words.map f32Val⟩, words⟩])

/-- The primitives of one triangle: clipped, mapped, snapped, without those of no area or of the culled face (R183, R184). -/
def primsOf (p : Pass) (k inst : Nat) (d : DrawCall) (t : PlacedVert × PlacedVert × PlacedVert) : List Prim :=
  let vp := d.viewport.map f32Val
  let ps := (fan ((clipTriangle vp t.1.pos t.2.1.pos t.2.2.pos).map (toWindow vp))).map (fun e =>
    let turn := area2 e.1 e.2.1 e.2.2
    ({ draw := k, inst := inst, a := e.1, b := e.2.1, c := e.2.2, flat := t.1.words
       front := if d.raster.front = 0 then decide (turn < 0) else decide (0 < turn) } : Prim))
  ps.filter (fun x => area2 x.a x.b x.c != 0 && !(d.raster.cull == 1 && !x.front) && !(d.raster.cull == 2 && x.front)
    && coversIn x p.samples (coverRect p.area d.raster.scissor))

/-! ## Binning (R184, R185, R188) -/

/-- What binning has come to: the run, the primitives, per tile their numbers, the Silt bytes in use, and whether they pass the pool. -/
structure Binning where
  run : ProgRun
  tris : List Prim := []
  bins : List (List Nat)
  used : Nat
  full : Bool := false

/-- The bytes of the chunks of tile lists (R185). -/
def chunkBytes (bins : List (List Nat)) : Nat := 128 * (bins.map (fun l => ceilDiv l.length 31)).sum

/-- The bin lists with one primitive's number added to those of its tiles. -/
def addToBins (bins : List (List Nat)) (k : Nat) (ts : List Nat) : List (List Nat) :=
  (List.range bins.length).map (fun n => let l := bins.getD n []; if ts.contains n then l ++ [k] else l)

/-- Bins one primitive while the pool has not been passed; a tile takes at most 2^24 references (R185, R188, log 269). -/
def binPrim (pool : Nat) (p : Pass) (d : DrawCall) (x : Binning) (t : Prim) : Binning :=
  if x.full then x
  else
    let bins := addToBins x.bins x.tris.length (tilesOf t p.area (coverRect p.area d.raster.scissor))
    let used := x.used + 48 + 12 * d.vertex.varyings + (chunkBytes bins - chunkBytes x.bins)
    { x with tris := x.tris ++ [t], bins := bins, used := used
             full := decide (pool < used) || bins.any (fun l => decide (2 ^ 24 < l.length)) }

/-- Runs and bins one instance of a DRAW. -/
def binInstance (pool : Nat) (p : Pass) (k : Nat) (d : DrawCall) (x : Binning) (inst : Nat) : Binning :=
  if x.full then x
  else
    match (List.range d.count).foldl (placeVertex p d inst) (x.run, []) with
    | (r, vs) =>
      let ts := if d.strip then stripTriangles 0 vs else listTriangles vs
      (ts.flatMap (primsOf p k inst d)).foldl (binPrim pool p d) { x with run := r }

/-- Runs and bins one DRAW record, which takes 64 bytes itself (R185). -/
def binDraw (pool : Nat) (p : Pass) (x : Binning) (k : Nat) : Binning :=
  match p.draws[k]? with
  | none => x
  | some d =>
    if x.full then x
    else
      let used := x.used + 64
      (List.range d.instances).foldl (binInstance pool p k d) { x with used := used, full := decide (pool < used) }

/-- The geometry phase of a pass in submission order (R181): its bins, or the use at which the pool was passed. -/
def binPass (pool : Nat) (p : Pass) (s : State) : Binning :=
  let tiles := tilesAcross p.area * tilesDown p.area
  let fixed := 4096 + 16 * tiles
  (List.range p.draws.length).foldl (binDraw pool p)
    { run := ⟨s, 0, false, false⟩, bins := List.replicate tiles [], used := fixed, full := decide (pool < fixed) }

end Sys2Proof.Machine
end

