-- ==== Sys2Proof/Machine/Stack.lean ====
section
/-!
DEFINITION. The pixels of an output beneath the Kaolin plane: the layers over the background (R73, R88 to R90), the tiles that C0
composes into the compose buffer (R97 to R99), what scan-out shows of them (R99, R100, R102, R131), and the poisoned words that both
meet (R102).
-/

namespace Sys2Proof.Machine

/-! ## Spread members on this module (R420, R421) -/

/-- The id.serial of this module. -/
def ownSerial : Nat := Config.serial.toNat

/-- The record of a spread. -/
def spreadOf (s : State) (i : Nat) : SpreadSt := tget s.fab.spreads i {}

/-- The members of a spread. -/
def spreadMembers (s : State) (i : Nat) : List Nat := (List.range 16).filter (fun m => getN s (K.smSerial i m) != 0)

/-- Whether a member is a port of this module. -/
def smLocal (s : State) (i m : Nat) : Bool := getN s (K.smSerial i m) == ownSerial

/-- The spread and member that a port of this module serves. -/
def spreadServed (s : State) (p : Nat) : Option (Nat × Nat) :=
  ((List.range 8).flatMap (fun i => (spreadMembers s i).map (fun m => (i, m)))).find? (fun e =>
    smLocal s e.1 e.2 && getN s (K.smPort e.1 e.2) == p && getN s (K.spreadState e.1) != 0
      && (getN s (K.smState e.1 e.2) == 1 || getN s (K.smState e.1 e.2) == 2))

/-- The entries of a spread.vfreg value as (function, rectangle). -/
def vfregEntries : Nat → List Byte → List (Nat × Nat × Nat × Nat × Nat)
  | 0, _ => []
  | n + 1, b =>
    if b.length < 12 then [] else
    let w := fun k => ofLe ((b.drop k).take 2)
    ((b.headD 0).toNat, w 4, w 6, w 8, w 10) :: vfregEntries n (b.drop 12)

/-! ## The layers of an output (R73, R88) -/

/-- A layer as it is drawn: its settings, its path (1 direct, 2 flat), and the rectangles it is clipped to, if it is a VF's. -/
structure Drawn where
  set : LayerSet
  path : Nat
  clip : Option (List (Nat × Nat × Nat × Nat))

/-- The rectangles that a function's layers are clipped to: a VF's of a list, nothing for a PF (R88, R421). -/
def clipFor (f : Nat) (l : List (Nat × Nat × Nat × Nat × Nat)) : Option (List (Nat × Nat × Nat × Nat)) :=
  if isPf f then none else some ((l.filter (fun e => e.1 == f)).map (·.2))

/-- The shown layers of a port within the run (path 2) or above it (path 1), lowest first. -/
def drawnLayers (s : State) (p path : Nat) : List Drawn :=
  let q := portOf s p
  let regions := q.regions.map (fun e => (e.1, lo16 e.2.1, hi16 e.2.1, lo16 e.2.2, hi16 e.2.2))
  (List.range 6).filterMap (fun k =>
    let l := q.active.layers.getD k {}
    if layerShown s p k l && inTop q.plan.top k == (path == 2) then
      some ⟨l, path, clipFor (layerOwner s p k) regions⟩
    else none)

/-- The shown layers of a spread. -/
def spreadLayers (s : State) (i : Nat) : List Drawn :=
  let es := vfregEntries 8 (getBytes s (K.spreadVfreg i))
  (List.range 6).filterMap (fun k =>
    let l := (spreadOf s i).active.layers.getD k {}
    let o := getN s (K.spreadLayerOwner i k)
    if l.visible s && o != 0xFF then some ⟨l, 2, clipFor o es⟩ else none)

/-- A 16-bit two's complement value. -/
def signed16 (v : Nat) : Int := if v < 32768 then v else (v : Int) - 65536

/-- Where a pixel lies in a layer's destination rectangle, if it does and is not clipped away. -/
def Drawn.at_ (l : Drawn) (x y : Nat) : Option (Nat × Nat) :=
  let i := (x : Int) - signed16 (lo16 l.set.dstXY)
  let j := (y : Int) - signed16 (hi16 l.set.dstXY)
  let within := match l.clip with
    | none => true
    | some rs => rs.any (fun r => decide (r.1 ≤ x ∧ x < r.1 + r.2.2.1 ∧ r.2.1 ≤ y ∧ y < r.2.1 + r.2.2.2))
  if within && decide (0 ≤ i) && decide (i < (lo16 l.set.dstWH : Int)) && decide (0 ≤ j) && decide (j < (hi16 l.set.dstWH : Int)) then
    some (i.toNat, j.toNat)
  else none

/-! ## Source pixels (R77, R90, R102) -/

/-- A pixel of a surface at 12 bits with its alpha; none where a word that holds it is poisoned: it is fully transparent (R102). -/
def sourcePixel (s : State) (h : Shape) (matrix x y : Nat) : Option (Rgb12 × ℚ) :=
  let n := strideBytes h.fmt
  let o := pixelAt h.fmt h.layout h.width x y
  if isYuv h.fmt then
    let bits := if n = 1 then 8 else 10
    let code := fun (l : List Byte) => if n = 1 then ofLe l else ofLe l / 64
    match peekHandle s h.handle o n, peekHandle s h.handle (chromaAt h.fmt h.layout h.width h.height x y) (2 * n) with
    | some l, some c => some (rgba12 (yuvRgb matrix bits (code l) (code (c.take n)) (code (c.drop n))))
    | _, _ => none
  else (peekHandle s h.handle o n).map (fun l => pixel12 h.fmt (ofLe l))

/-- The words (rank, word) that hold a pixel of a surface. -/
def pixelWords (s : State) (h : Shape) (x y : Nat) : List (Nat × Nat) :=
  match handlePlace s h.handle with
  | none => []
  | some (u, b) =>
    let r := rankOfUnit s u
    let at_ := fun o => (r, (b + o) / 16)
    if isYuv h.fmt then [at_ (pixelAt h.fmt h.layout h.width x y), at_ (chromaAt h.fmt h.layout h.width h.height x y)]
    else [at_ (pixelAt h.fmt h.layout h.width x y)]

/-- Whether a layer is shown at its source's size. -/
def LayerSet.unscaled (l : LayerSet) : Bool :=
  let turned := l.rot % 2 == 1
  lo16 l.dstWH == (if turned then hi16 l.srcWH else lo16 l.srcWH) && hi16 l.dstWH == (if turned then lo16 l.srcWH else hi16 l.srcWH)

/-- The source pixel, within the source rectangle, that lies at (i, j) of the destination. -/
def LayerSet.sourceAt (l : LayerSet) (i j : Nat) : Nat × Nat :=
  let w := lo16 l.srcWH
  let h := hi16 l.srcWH
  let turned := l.rot % 2 == 1
  let a := i * (if turned then h else w) / max 1 (lo16 l.dstWH)
  let b := j * (if turned then w else h) / max 1 (hi16 l.dstWH)
  turnBack l.rot w h a b

/-- A pixel of a surface's source rectangle at (i, j) of it. -/
def LayerSet.pixel (s : State) (l : LayerSet) (a : Nat × Nat) : Option (Rgb12 × ℚ) :=
  sourcePixel s (shapeOf s l.surface) l.matrix (lo16 l.srcXY + a.1) (hi16 l.srcXY + a.2)

/-- The pixels of a layer's source rectangle, line by line. -/
def LayerSet.source (s : State) (l : LayerSet) : List (Option (Nat × Nat × Nat × ℚ)) :=
  (List.range (hi16 l.srcWH)).flatMap (fun j => (List.range (lo16 l.srcWH)).map (fun i =>
    (l.pixel s (i, j)).map (fun c => (c.1.r, c.1.g, c.1.b, c.2))))

/-- What a layer gives a pixel of the output: none where it is not drawn or transparent. A scaled layer's filter is not stated (log
274). -/
def Drawn.pixel (s : State) (l : Drawn) (x y : Nat) : Option (Rgb12 × ℚ) :=
  match l.at_ x y with
  | none => none
  | some (i, j) =>
    if l.set.unscaled then l.set.pixel s (l.set.sourceAt i j)
    else
      let w := (Config.scaledPixel l.path (l.set.source s) (lo16 l.set.srcWH) l.set.rot (lo16 l.set.dstWH, hi16 l.set.dstWH) (i, j)).toNat
      some (⟨w % 4096, w / 2 ^ 12 % 4096, w / 2 ^ 24 % 4096⟩, ((w / 2 ^ 36 % 65536 : Nat) : ℚ) / 65535)

/-- A layer over the result so far (R73, R89). -/
def Drawn.over (s : State) (x y : Nat) (d : Rgb12) (l : Drawn) : Rgb12 :=
  match l.pixel s x y with
  | none => d
  | some c => blendOver l.set.blend l.set.alpha c d

/-- Layers over a colour, lowest first (R73). -/
def stackOver (s : State) (ls : List Drawn) (x y : Nat) (d : Rgb12) : Rgb12 := ls.foldl (Drawn.over s x y) d

/-- The poisoned words that the pixels of a rectangle meet in a layer's surface (R102). -/
def Drawn.poisonIn (s : State) (ps : List (Nat × Nat)) (l : Drawn) : List (Nat × Nat) :=
  ((ps.filterMap (fun e => l.at_ e.1 e.2)).flatMap (fun e =>
    let a := l.set.sourceAt e.1 e.2
    pixelWords s (shapeOf s l.set.surface) (lo16 l.set.srcXY + a.1) (hi16 l.set.srcXY + a.2))).dedup.filter (fun w =>
      (peekWord s w.1 w.2).isNone)

/-! ## The compose buffer (R97 to R99) -/

/-- The bytes from one line of a slot to the next (R97). -/
def bufStride (m : Nat) : Nat := roundUp (modeW m * 4) 256

/-- The byte offset in a port's buffer of a pixel in slot i of its row. -/
def bufAt (m i x y : Nat) : Nat := ((2 * (y / 32) + i) * 32 + y % 32) * bufStride m + 4 * x

/-- The pixels of tile n of row r of a mode. -/
def rowTile (m r n : Nat) : List (Nat × Nat) :=
  (List.range (min 32 (modeH m - 32 * r))).flatMap (fun j => (List.range (min 32 (modeW m - 32 * n))).map (fun i =>
    (32 * n + i, 32 * r + j)))

/-- What C0 composes for a port: the layers of its run, the background, and the canvas position of the port's first pixel (R98, R420). -/
def composeInput (s : State) (p : Nat) : List Drawn × Nat × Nat × Nat :=
  match spreadServed s p with
  | some (i, m) => (spreadLayers s i, (spreadOf s i).active.bg, lo16 (getN s (K.smXy i m)), hi16 (getN s (K.smXy i m)))
  | none => (drawnLayers s p 2, (portOf s p).active.out.bg, 0, 0)

/-- C0 composes a tile of a row into the slot that the row is composed into, from the surfaces as they are now; poisoned words count
(R98, R99, R102). A row that has been abandoned is not composed. -/
def composeTile (s : State) (p r n : Nat) : State :=
  let q := portOf s p
  match (rowOf q r).composing, q.buf with
  | some (i, _), some (u, base) =>
    match composeInput s p with
    | (ls, bg, ox, oy) =>
      let ps := rowTile q.runMode r n
      let canvas := ps.map (fun e => (e.1 + ox, e.2 + oy))
      let ws := ps.map (fun e => (e, composeWord (stackOver s ls (e.1 + ox) (e.2 + oy) (packed12 bg))))
      let s' := bumpBy s K.compPoison ((ls.map (fun l => (l.poisonIn s canvas).length)).sum)
      ws.foldl (fun s e => writeRank s (rankOfUnit s u) (base + bufAt q.runMode i e.1.1 e.1.2) (leBytes 4 e.2)) s'
  | _, _ => s

/-! ## What scan-out shows (R73, R99, R100, R102, R105, R131) -/

/-- Whether a stream has underrun at a pixel of the frame (R131): 0 to 5 the layers, 6 the compose buffer. -/
def underAt (q : Port) (stream x y : Nat) : Bool := q.under.any (fun e => e.1 == y && e.2.1 == stream && decide (e.2.2 ≤ x))

/-- Whether a line of a slot of the compose buffer has a poisoned word (R102). -/
def slotLinePoisoned (s : State) (u base m i y : Nat) : Bool :=
  let r := rankOfUnit s u
  (wordsOf (base + bufAt m i 0 y) (4 * modeW m)).any (fun w => (peekWord s r w).isNone)

/-- The pixel of the run as scan-out shows it: from the slot held for its row; the background where none is, where its line has a
poisoned word, or where the stream underran (R99, R100, R102, R131). -/
def runPixel (s : State) (p x y : Nat) : Rgb12 :=
  let q := portOf s p
  let bg := packed12 q.active.out.bg
  match (rowOf q (y / 32)).held, q.buf with
  | some i, some (u, base) =>
    if underAt q 6 x y || slotLinePoisoned s u base q.runMode i y then bg
    else
      match peekRank s (rankOfUnit s u) (base + bufAt q.runMode i x y) 4 with
      | some l => (pixel12 4 (ofLe l)).1
      | none => bg
  | _, _ => bg

/-- The direct layers of a port, each with its stream. -/
def directLayers (s : State) (p : Nat) : List (Nat × Drawn) :=
  let q := portOf s p
  (List.range 6).filterMap (fun k =>
    let l := q.active.layers.getD k {}
    if layerShown s p k l && aboveTop q.plan.top k then
      some (k, ⟨l, 1, clipFor (layerOwner s p k) (q.regions.map (fun e => (e.1, lo16 e.2.1, hi16 e.2.1, lo16 e.2.2, hi16 e.2.2)))⟩)
    else none)

/-- The pixel of an output beneath the Kaolin plane (R73): the background or the run, then the direct layers whose streams have not
underrun. -/
def underPlane (s : State) (p x y : Nat) : Rgb12 :=
  let q := portOf s p
  let d := match q.plan.top with
    | none => packed12 q.active.out.bg
    | some _ => runPixel s p x y
  stackOver s (((directLayers s p).filter (fun e => !underAt q e.1 x y)).map (·.2)) x y d

/-- The poisoned words that scan-out has met in the direct layers of a frame are counted at its end (R102). -/
def scanPoison (s : State) (p : Nat) : State :=
  let m := (portOf s p).runMode
  let ps := (List.range (modeH m)).flatMap (fun y => (List.range (modeW m)).map (fun x => (x, y)))
  bumpBy s K.compPoison (((directLayers s p).map (fun e => (e.2.poisonIn s ps).length)).sum)

end Sys2Proof.Machine
end

