-- ==== Sys2Proof/Machine/Kaolin.lean ====
section
/-!
DEFINITION. The Kaolin safety plane: rectangles and their checks (R144, R149), blink phase (R146, R147), blending and
signatures (R154 to R157), reports (R158 to R160), the status mirror (R161), the commit bit (R151, R152), the boot load
(R167).
-/

namespace Sys2Proof.Machine

/-! ## The shadow set (R148, R151) -/

/-- The shadow copy of one rectangle. -/
def rectShadow (s : State) (n r : Nat) : KRect :=
  { enable := getB s (K.rectEnable n r), src := getN s (K.rectSrc n r), stride := getN s (K.rectStride n r)
    xy := getN s (K.rectXy n r), wh := getN s (K.rectWh n r), mode := getN s (K.rectSigMode n r)
    sigOn := getN s (K.rectSigOn n r), sigOff := getN s (K.rectSigOff n r) }

/-- The shadow copy of an output's Kaolin set. -/
def kaolinShadow (s : State) (n : Nat) : KSet :=
  { enable := getB s (K.kaolinEnable n), blinkOn := getN s (K.kaolinBlinkOn n), blinkOff := getN s (K.kaolinBlinkOff n)
    palette := (List.range 16).map (fun e => getN s (K.kaolinPalette n e))
    rects := (List.range 32).map (rectShadow s n) }

/-- Writes a Kaolin set into an output's shadow objects (R165); the objects are run over, counters move as for a write. -/
def shadowFrom (s : State) (n : Nat) (k : KSet) : State :=
  let s := writeN (writeN (writeB s (K.kaolinEnable n) k.enable) (K.kaolinBlinkOn n) k.blinkOn) (K.kaolinBlinkOff n) k.blinkOff
  let s := foldN (List.range 16) (fun s e => writeN s (K.kaolinPalette n e) (k.palette.getD e 0)) s
  foldN (List.range 32) (fun s r =>
    let x := k.rects.getD r {}
    let s := writeN (writeB s (K.rectEnable n r) x.enable) (K.rectSrc n r) x.src
    let s := writeN (writeN (writeN s (K.rectStride n r) x.stride) (K.rectXy n r) x.xy) (K.rectWh n r) x.wh
    writeN (writeN (writeN s (K.rectSigMode n r) x.mode) (K.rectSigOn n r) x.sigOn) (K.rectSigOff n r) x.sigOff) s

/-! ## Rectangle checks (R144, R149) -/

/-- The rectangle with one subindex given a value. -/
def KRect.withSub (x : KRect) (sub v : Nat) : KRect :=
  if sub = 1 then { x with enable := v != 0 } else if sub = 2 then { x with src := v } else if sub = 3 then { x with stride := v }
  else if sub = 4 then { x with xy := v } else if sub = 5 then { x with wh := v } else x

/-- Whether a rectangle's image meets R144; with no size yet, only the multiples of 8 (log 60). -/
def KRect.imageOk (x : KRect) : Bool :=
  let half := ceilDiv (lo16 x.wh) 2
  x.src % 8 == 0 && x.stride % 8 == 0 && (lo16 x.wh == 0 || hi16 x.wh == 0 ||
    (decide (half ≤ x.stride) && decide (x.src + x.stride * (hi16 x.wh - 1) + half - 1 < 0x200000)))

/-- Whether two rectangles given as origin and size share a pixel; one without size has none. -/
def overlap (xy wh xy' wh' : Nat) : Bool :=
  lo16 wh != 0 && hi16 wh != 0 && lo16 wh' != 0 && hi16 wh' != 0 && decide (lo16 xy < lo16 xy' + lo16 wh' ∧ lo16 xy' < lo16 xy + lo16 wh ∧ hi16 xy < hi16 xy' + hi16 wh'
    ∧ hi16 xy' < hi16 xy + hi16 wh)

/-- The checks of a trusted write to rectangle r of output n (R144, R149, Table KA-3). -/
def rectCheck (s : State) (n r sub v : Nat) : Status :=
  let x := (rectShadow s n r).withSub sub v
  let clash := x.enable && (List.range 32).any (fun j => j != r && (rectShadow s n j).enable
    && overlap x.xy x.wh (rectShadow s n j).xy (rectShadow s n j).wh)
  if sub = 4 ∧ (7679 < lo16 v ∨ 2159 < hi16 v) then .range
  else if sub = 5 ∧ (lo16 v = 0 ∨ 7680 < lo16 v ∨ hi16 v = 0 ∨ 2160 < hi16 v) then .range
  else if sub ≤ 5 ∧ (!x.imageOk || clash) then .range
  else .ok

/-! ## Blink (R146, R147) -/

/-- A blink time as a count of frames: ms × refresh / 1000, halves up, at least 1 (R147). -/
def blinkCount (ms mode : Nat) : Nat := max 1 (((ms : Rat) * refreshHz mode / 1000 + 1 / 2).floor.toNat)

/-- The blink phase at a take: ON with a fresh count at the opening of a running sequence; else it changes when the frame
that ends is the last of its count (R147). -/
def blinkTake (s : State) (p : Nat) (opening : Bool) : State :=
  let q := portOf s p
  if opening then putN (modPort s p (fun q => { q with blinkSeen := 0 })) (K.kaolinPhase p) 0
  else
    let ph := getN s (K.kaolinPhase p)
    let n := blinkCount (if ph = 0 then q.kactive.blinkOn else q.kactive.blinkOff) q.runMode
    if n ≤ q.blinkSeen + 1 then putN (modPort s p (fun q => { q with blinkSeen := 0 })) (K.kaolinPhase p) (1 - ph)
    else modPort s p (fun q => { q with blinkSeen := q.blinkSeen + 1 })

/-- The palette entry that an index shows in a phase (R146). -/
def paletteEntry (k : KSet) (phase i : Nat) : Nat :=
  k.palette.getD (if phase = 1 then (if i = 14 then 15 else if i = 15 then 14 else i) else i) 0

/-! ## Pixels and signatures (R144, R154 to R156) -/

/-- The I-4 index of pixel (x, y) of a rectangle's image (R144). -/
def pixelIndex (m : Memory) (r : KRect) (x y : Nat) : Nat :=
  let b := (memGet m (r.src + r.stride * y + x / 2)).toNat
  if x % 2 = 0 then b % 16 else b / 16

/-- One 12-bit channel after the Kaolin blend with coverage a of 3: straight alpha, to the nearest 12-bit value (R154). -/
def blendChannel (a c d : Nat) : Nat := if a = 3 then c else if a = 0 then d else roundDiv (a * c + (3 - a) * d) 3

/-- The channel's value on the link as the signature takes it: 10 bits, or the top 8 shifted left by 2 (R154, R155). -/
def linkChannel (bpc c12 : Nat) : Nat := if bpc = 8 then c12 / 16 * 4 else c12 / 4

/-- A pixel of an active rectangle: its palette entry over the pixel beneath (R105, R154). -/
def planeOver (entry : Nat) (d : Rgb12) : Rgb12 :=
  let c := packed12 entry
  let a := entry / 2 ^ 30 % 4
  ⟨blendChannel a c.r d.r, blendChannel a c.g d.g, blendChannel a c.b d.b⟩

/-- The word R << 20 | G << 10 | B of a pixel as it leaves the port (R154, R155). -/
def linkWord (bpc : Nat) (c : Rgb12) : Nat := linkChannel bpc c.r * 2 ^ 20 + linkChannel bpc c.g * 2 ^ 10 + linkChannel bpc c.b

/-- One byte through the reflected CRC-32 register (R156). -/
def crcByte (c : BitVec 32) (b : Byte) : BitVec 32 :=
  (List.range 8).foldl (fun c _ => if c.getLsbD 0 then (c >>> 1) ^^^ 0xEDB88320#32 else c >>> 1) (c ^^^ (b.setWidth 32))

/-- The CRC-32 of IEEE 802.3 of a byte string (R156). -/
def crc32 (b : List Byte) : BitVec 32 := (b.foldl crcByte 0xFFFFFFFF#32) ^^^ 0xFFFFFFFF#32

/-- The width and height of a rectangle clipped to the active area (R150). -/
def clipWH (r : KRect) (mode : Nat) : Nat × Nat :=
  (min (lo16 r.wh) (modeW mode - lo16 r.xy), min (hi16 r.wh) (modeH mode - hi16 r.xy))

/-- Kaolin SRAM as it was at an instant: what later writes replaced is put back, the latest first (R143). -/
def kramAt (s : State) (t : Nat) : Memory :=
  (s.kold.takeWhile (fun e => decide (t < e.1))).foldl (fun m e => memSetAll m e.2.1 e.2.2) s.kram

/-- When a line of the frame under way begins; a rectangle's line is fetched then (R143, log 275). -/
def lineStart (q : Port) (y : Nat) : Nat := q.frameAt + y * modeLineNs q.runMode

/-- When the frame under way ends: it has V total lines (R531). -/
def frameEnd (q : Port) : Nat := lineStart q (modeVtotal q.runMode)

/-- The palette entry that a rectangle shows at (i, j) in the frame under way. -/
def rectEntry (s : State) (p : Nat) (x : KRect) (i j : Nat) : Nat :=
  let q := portOf s p
  paletteEntry q.kactive (getN s (K.kaolinPhase p)) (pixelIndex (kramAt s (lineStart q (hi16 x.xy + j))) x i j)

/-- The rectangle of the active set that draws a pixel of the output: active rectangles do not overlap (R149, R150). -/
def rectAtPixel (q : Port) (x y : Nat) : Option KRect :=
  q.kactive.rects.find? (fun r => r.enable && decide (lo16 r.xy ≤ x ∧ x < lo16 r.xy + lo16 r.wh ∧ hi16 r.xy ≤ y ∧ y < hi16 r.xy + hi16 r.wh))

/-- A pixel as it leaves the port (R73, R105, R154): black in a gap; else the plane, where it is enabled, over what lies beneath. -/
def outPixel (s : State) (p x y : Nat) : Rgb12 :=
  let q := portOf s p
  if q.gap then {}
  else
    match (if q.kactive.enable then rectAtPixel q x y else none) with
    | some r => planeOver (rectEntry s p r (x - lo16 r.xy) (y - hi16 r.xy)) (underPlane s p x y)
    | none => underPlane s p x y

/-- The signature of a rectangle over the pixels of the frame under way (R155, R156): OPAQUE takes the pixels of coverage 3 alone. What
lies beneath is as memory has it now (log 276). -/
def signature (s : State) (p r : Nat) : BitVec 32 :=
  let q := portOf s p
  let x := q.kactive.rects.getD r {}
  let (w, h) := clipWH x q.runMode
  let bpc := getN s (K.outBpc p)
  crc32 ((List.range h).flatMap (fun j => (List.range w).flatMap (fun i =>
    let e := rectEntry s p x i j
    if x.mode = 2 then leBytes 4 (linkWord bpc (planeOver e (underPlane s p (lo16 x.xy + i) (hi16 x.xy + j))))
    else if e / 2 ^ 30 % 4 = 3 then leBytes 4 (linkWord bpc (packed12 e)) else [])))

/-! ## Events and the mirror (R158 to R161) -/

/-- Causes of interrupts to the Ehrica controller, as State.ehrica counts them. -/
def intSig : Nat := 1
def intGap : Nat := 2
def intViol : Nat := 3
def intClaim : Nat := 4
def intStandby : Nat := 5
def intReset : Nat := 6
def intGate : Nat := 8
def intRelease : Nat := 9

/-- A Kaolin event: to the trusted world, on the side-band, and to the open world as a class 9 copy (R160). -/
def kaolinEvent (s : State) (code p : Nat) (detail : List Byte) (cause : Nat) : State :=
  let s := sideFrame (interruptTw s cause) true code p detail
  emit s 9 code p detail (portFuncs s p)

/-- A Kaolin gap begins on a port with an active plane (R160); in any case the port carries no plane until it ends (R137). -/
def gapBegin (s : State) (p cause : Nat) : State :=
  let s := modPort s p (fun q => { q with gap := true, gapTold := kaolinOn s p })
  if kaolinOn s p then
    kaolinEvent s 0x0192 p (leBytes 1 p ++ leBytes 1 cause ++ leBytes 2 0 ++ leBytes 4 (portOf s p).frame ++ leBytes 4 0) intGap
  else s

/-- A Kaolin gap ends with MODE_CHANGE_DONE of result OK or LINK_FAILED (R160); it is told where its begin was, or where the plane is
shown now. -/
def gapEnd (s : State) (p : Nat) : State :=
  let told := (portOf s p).gapTold
  let s := modPort s p (fun q => { q with gap := false, gapTold := false })
  if told || kaolinOn s p then
    kaolinEvent s 0x0193 p (leBytes 1 p ++ leBytes 1 (portOf s p).runMode ++ leBytes 2 0 ++ leBytes 4 (portOf s p).frame
      ++ leBytes 4 0) intGap
  else s

/-- Whether a port's timing generator runs: RUN and STOPPING, and CHANGING except between the old timing's stop and the new
timing's start (R531). -/
def timingRuns (s : State) (p : Nat) : Bool :=
  let st := getN s (K.outState p)
  let q := portOf s p
  (st == 2 || st == 4 || st == 3) && q.runMode != 0xFF && q.phase != .trainNew && q.phase != .waitDomains && q.phase != .trainStart && q.phase != .waitSpare

/-- kaolin.st of a port (Table KA-5): OFF where no timing shows the plane, and after an abandoned transition (R160). -/
def mirrorState (s : State) (p : Nat) : Nat :=
  let q := portOf s p
  let st := getN s (K.outState p)
  if q.cutGap then 2
  else if !q.kactive.enable || st == 0 || st == 1 || (st == 4 && (q.gap || !timingRuns s p)) then 0
  else if q.gap then 2
  else if !q.sigBad.isEmpty then 3
  else 1

/-- The line at whose start a rectangle is compared: the one after its last visible line, VBS where none is visible (R157). -/
def compareLine (q : Port) (r : Nat) : Nat :=
  let x := q.kactive.rects.getD r {}
  let (w, h) := clipWH x q.runMode
  if w = 0 ∨ h = 0 then modeH q.runMode else hi16 x.xy + h

/-- A comparison of one rectangle's signature with the value seen (R157, R158); the repeat counts to the end of the frame. -/
def compareSig (s : State) (p r : Nat) (crc : BitVec 32) : State :=
  let q := portOf s p
  let x := q.kactive.rects.getD r {}
  let ph := getN s (K.kaolinPhase p)
  let want := if ph = 0 then x.sigOn else x.sigOff
  let s := putN s (K.rectSigLast p r) crc.toNat
  let detail := leBytes 1 p ++ leBytes 1 r ++ leBytes 1 ph ++ leBytes 1 0 ++ leBytes 4 q.frame ++ leBytes 4 crc.toNat
  if crc.toNat = want then
    let s := modPort s p (fun q => { q with sigBad := q.sigBad.filter (· ≠ r), sigSent := tdel q.sigSent r })
    if (tfind q.sigSent r).isSome then kaolinEvent s 0x0191 p detail intSig else s
  else
    let s := bump (bump s (K.rectSigMiss p r)) (K.kaolinMiss p)
    let s := putN s (K.kaolinMissTime p) s.now
    let s := modPort s p (fun q => { q with sigBad := if q.sigBad.contains r then q.sigBad else r :: q.sigBad })
    let due := match tfind q.sigSent r with
      | none => true
      | some t => decide (t + getN s (K.kaolinSigRepeat p) * 1000000 ≤ frameEnd q)
    if due then
      kaolinEvent (modPort s p (fun q => { q with sigSent := tset q.sigSent r s.now })) 0x0190 p detail intSig
    else foldN (eventFuncs s (portFuncs s p)) (fun s f => raiseClass s f 9) (interruptTw s intSig)

/-! ## Commit and take (R151, R152) -/

/-- A Kaolin commit on a port: late between a large mode's close point and VBS unless the bit was latched (R152); in a shut-down it is held
(R133). -/
def kaolinCommitOp (s : State) (p : Nat) : State :=
  let q := portOf s p
  if q.closed && (!modeLarge q.runMode || getN s (K.outState p) == 4) then modPort s p (fun q => { q with kafter := true })
  else if q.closed && q.klatched then s
  else if q.closed then
    bump (modPort s p (fun q => { q with kpend := true, klate := q.klate + 1 })) (K.kaolinCommitLate p)
  else modPort s p (fun q => { q with kpend := true })

/-- A Kaolin set becomes a port's active set: a plane that turns on counts its misses afresh, one that turns off ends its
claims (R148, R164). -/
def kaolinSetActive (s : State) (p : Nat) (k : KSet) : State :=
  let was := kaolinOn s p
  let s := modPort s p (fun q => { q with kactive := k, cutGap := if k.enable then false else q.cutGap
                                          sigBad := if k.enable then q.sigBad else [], sigSent := if k.enable then q.sigSent else [] })
  let s := if k.enable && !was then foldN (List.range 32) (fun s r => putN s (K.rectSigMiss p r) 0) s else s
  if k.enable == was then s else settle s

/-- The Kaolin part of a take: the captured set, or at an opening take the shadow set, becomes active (R151, R125). -/
def kaolinTake (s : State) (p : Nat) (opening : Bool) : State :=
  let q := portOf s p
  if opening then
    if q.kpend then kaolinSetActive (modPort s p (fun q => { q with kpend := false, klatched := false, klate := 0 })) p (kaolinShadow s p)
    else s
  else if q.klatched then
    kaolinSetActive (modPort s p (fun q => { q with kpend := q.kafter, klatched := false, klate := 0, kafter := false })) p
      q.kcaptured
  else modPort s p (fun q => { q with klate := 0, kpend := q.kpend || q.kafter, kafter := false })

/-- The load of Kaolin SRAM after a power-up of PD11: the boot images, the stored objects as shadow sets, and every Kaolin
commit bit set unless an emergency cut was the cause (R166, R167). -/
def kaolinLoad (s : State) : State :=
  let s := { s with kram := memSetAll (memSetAll [] 0x100000 (getBytes s K.kaolinBootHi)) 0 (getBytes s K.kaolinBootLo) }
  foldN (List.range 8) (fun s p => modPort s p (fun q => { q with kpend := !s.power.noLoad })) s

end Sys2Proof.Machine
end

