-- ==== Sys2Proof/Machine/Shade.lean ====
section
/-!
DEFINITION. The tile phase: the fill at a tile's start (R192), the visibility and shading walks with their segments (R193, R194), the
depth and stencil tests, blending and conversion (R196), the writing of a tile (R197), and a compute workgroup (R203, R204).
-/

namespace Sys2Proof.Machine

/-! ## Tests (R179, R193) -/

/-- A comparison function of Table TP-5: of the fragment's value with the stored one. -/
def compareFn (fn : Nat) (a b : ℚ) : Bool :=
  if fn = 0 then false else if fn = 1 then decide (a < b) else if fn = 2 then decide (a = b) else if fn = 3 then decide (a ≤ b)
  else if fn = 4 then decide (b < a) else if fn = 5 then decide (a ≠ b) else if fn = 6 then decide (b ≤ a) else true

/-- A stencil operation of Table TP-5 on an 8-bit value. -/
def stencilOp (op old ref : Nat) : Nat :=
  if op = 0 then old else if op = 1 then 0 else if op = 2 then ref else if op = 3 then min 255 (old + 1) else if op = 4 then old - 1
  else if op = 5 then 255 - old else if op = 6 then (old + 1) % 256 else (old + 255) % 256

/-- The depth and stencil tests of a fragment of depth `z` at a sample: whether it passes both, and the sample with their updates. -/
def testSample (r : Raster) (z : ℚ) (x : Sample) : Bool × Sample :=
  let okS := !r.stencil || compareFn r.stencilFn (r.ref &&& r.readMask : Nat) (x.stencil &&& r.readMask : Nat)
  let okD := compareFn r.depthFn z x.depth
  let op := if !okS then r.failOp else if !okD then r.dfailOp else r.passOp
  let st := if r.stencil then
      let n := stencilOp op x.stencil r.ref
      (x.stencil &&& (255 - r.writeMask)) ||| (n &&& r.writeMask)
    else x.stencil
  (okS && okD, { x with stencil := st, depth := if okS && okD && r.depthWrite then z else x.depth })

/-! ## Blending and conversion (R196) -/

/-- One channel blended in FP32, each operation rounded (log 260): `c` and `a` the fragment's, `d` the tile's. -/
def blendOne (mode : Nat) (alpha : Bool) (c a d : ℚ) : ℚ :=
  let rest := rnd32 (rnd32 (1 - a) * d)
  if mode = 0 then c
  else if mode = 3 then rnd32 (c + d)
  else if mode = 1 ∨ alpha then rnd32 (c + rest)
  else rnd32 (rnd32 (a * c) + rest)

/-- A target's word after a fragment's colour is blended into it: channels cleared in the write mask keep theirs (R196). -/
def blendWord (fmt mode mask : Nat) (c : Rgba) (w : Nat) : Nat :=
  let d := (decodePixel fmt w).map rnd32
  let e := fieldsOf fmt
  let one := fun (i : Nat) =>
    let f := e.getD i (0, 0)
    let code := if bitOf mask i then channelOf fmt f (blendOne mode (i == 3) (c.list.getD i 0) c.a (d.list.getD i 0)) else channelCode w f
    code * 2 ^ f.1
  one 0 + one 1 + one 2 + one 3 + (if fmt = 2 then w / 2 ^ 24 * 2 ^ 24 else 0)

/-- The colour that a fragment program's output words give a target. -/
def outputColour (o : List (BitVec 32)) (target : Nat) : Rgba :=
  let w := fun k => f32Val (o.getD (4 * target + k) 0)
  ⟨w 0, w 1, w 2, w 3⟩

/-- A sample with a fragment's outputs blended into every target. -/
def blendSample (p : Pass) (d : DrawCall) (o : List (BitVec 32)) (x : Sample) : Sample :=
  { x with pix := (List.range p.targets.length).map (fun i =>
      let b := d.blend.getD i (0, 0xF)
      blendWord (p.targets.getD i {}).fmt b.1 b.2 (outputColour o i) (x.pix.getD i 0)) }

/-! ## The start of a tile (R192) -/

/-- The clear colour: four binary16 (Table TP-4). -/
def clearColour (n : Nat) : Rgba :=
  ⟨f16Val (n % 65536), f16Val (n / 2 ^ 16 % 65536), f16Val (n / 2 ^ 32 % 65536), f16Val (n / 2 ^ 48 % 65536)⟩

/-- The word that a target's samples of a pixel start with: the surface's, if the load mask names the target, else the clear colour
(R192). What a poisoned word holds is 0 (log 270). -/
def startWord (p : Pass) (x y : Nat) (a : State × List Nat) (i : Nat) : State × List Nat :=
  let h := p.targets.getD i {}
  if bitOf p.load i then
    match readHandle a.1 h.handle (pixelAt h.fmt h.layout h.width x y) (strideBytes h.fmt) with
    | (s, b, _) => (s, a.2 ++ [ofLe b])
  else (a.1, a.2 ++ [encodePixel h.fmt (Config.padding 0) (clearColour p.clear)])

/-- The samples of a pixel at a tile's start. -/
def startPixel (p : Pass) (a : State × List Sample) (q : Nat × Nat) : State × List Sample :=
  match (List.range p.targets.length).foldl (startWord p q.1 q.2) (a.1, []) with
  | (s, ws) => (s, a.2 ++ List.replicate p.samples { pix := ws, depth := if p.depth = 0 then 1 else 0 })

/-- The pixels of a rectangle, line by line. -/
def pixelsOf (r : Nat × Nat × Nat × Nat) : List (Nat × Nat) :=
  (List.range r.2.2.2).flatMap (fun j => (List.range r.2.2.1).map (fun i => (r.1 + i, r.2.1 + j)))

/-- A core fills its tile memory at the start of a tile (R192). -/
def startTile (s : State) (p : Pass) (n : Nat) : State × List Sample := (pixelsOf (tileRect p.area n)).foldl (startPixel p) (s, [])

/-! ## The walks (R193, R194) -/

/-- A tile being walked: its pass, its rectangle, the run of its programs, its tile memory. -/
structure Walk where
  pass : Pass
  rect : Nat × Nat × Nat × Nat
  run : ProgRun
  samples : List Sample

/-- The place in tile memory of sample `k` of a pixel. -/
def Walk.place (w : Walk) (x y k : Nat) : Nat := ((y - w.rect.2.1) * w.rect.2.2.1 + (x - w.rect.1)) * w.pass.samples + k

/-- A fragment: its pixel and the samples it covers (R193). -/
structure Fragment where
  x : Nat
  y : Nat
  cover : List Nat

/-- The fragments of a primitive in a tile, line by line. -/
def Walk.fragments (w : Walk) (t : Prim) (d : DrawCall) : List Fragment :=
  ((boundPixels t (rectMeet w.rect (coverRect w.pass.area d.raster.scissor))).map (fun e =>
    (⟨e.1, e.2, coverOf t w.pass.samples e.1 e.2⟩ : Fragment))).filter (fun f => !f.cover.isEmpty)

/-- The depth of a fragment at a sample. -/
def fragmentDepth (w : Walk) (t : Prim) (f : Fragment) (k : Nat) : ℚ :=
  let q := (samplePoints w.pass.samples).getD k (128, 128)
  depthAt t (256 * f.x + q.1) (256 * f.y + q.2)

/-- Whether the fragments of a draw are opaque: a fragment program, blend mode opaque and write mask 0xF on every target (R193). -/
def opaqueDraw (p : Pass) (d : DrawCall) : Bool :=
  d.fragment.isSome && (List.range p.targets.length).all (fun i => d.blend.getD i (0, 0xF) == (0, 0xF))

/-- Whether the fragments of a draw are late (R193). -/
def lateDraw (d : DrawCall) : Bool := d.fragment.any (·.late)

/-- The primitive of a number, with its draw. -/
def Walk.prim (w : Walk) (k : Nat) : Option (Prim × DrawCall) :=
  w.pass.tris[k]?.bind (fun t => w.pass.draws[t.draw]?.map (fun d => (t, d)))

/-- One primitive in the visibility walk: the tests update the samples, and an opaque fragment that passes becomes the floor. -/
def seePrim (w : Walk) (a : List Sample × Tab Nat) (k : Nat) : List Sample × Tab Nat :=
  match w.prim k with
  | none => a
  | some (t, d) =>
    (w.fragments t d).foldl (fun a f => f.cover.foldl (fun a j =>
      let i := w.place f.x f.y j
      match testSample d.raster (fragmentDepth w t f j) (a.1.getD i {}) with
      | (ok, x) => (a.1.set i x, if ok && opaqueDraw w.pass d then tset a.2 i k else a.2)) a) a

/-- What a fragment program is given: pixel, facing, instance, depth at the pixel's centre, varying words. -/
def fragmentInput (t : Prim) (d : DrawCall) (c : Code) (x y : Nat) : List Nat :=
  [x, y, b2n t.front, d.firstInst + t.inst, (f32Bits (depthAt t (256 * x + 128) (256 * y + 128))).toNat] ++ fragmentWords t d.vertex c x y

/-- Shades one fragment: its program runs once, and its result goes to the samples chosen. -/
def Walk.shade (w : Walk) (t : Prim) (d : DrawCall) (f : Fragment) (chosen : List Nat) : Walk :=
  match d.fragment, chosen with
  | none, _ => w
  | _, [] => w
  | some c, _ =>
    match runProgram (w.pass.env d.binds) c (fragmentInput t d c f.x f.y) w.run with
    | (r, o) =>
      { w with run := r
               samples := chosen.foldl (fun l j => let i := w.place f.x f.y j; l.set i (blendSample w.pass d o.out (l.getD i {}))) w.samples }

/-- One primitive in the shading walk: the same tests again; each fragment is shaded for the samples where it passes and does not
lie before the floor. -/
def shadePrim (floor : Tab Nat) (w : Walk) (k : Nat) : Walk :=
  match w.prim k with
  | none => w
  | some (t, d) =>
    (w.fragments t d).foldl (fun w f =>
      match f.cover.foldl (fun (a : List Sample × List Nat) j =>
          let i := w.place f.x f.y j
          match testSample d.raster (fragmentDepth w t f j) (a.1.getD i {}) with
          | (ok, x) => (a.1.set i x, if ok && decide (tget floor i 0 ≤ k) then a.2 ++ [j] else a.2)) (w.samples, []) with
      | (l, chosen) => { w with samples := l }.shade t d f chosen) w

/-- A late primitive: each fragment's program runs, then its samples are tested with its discard and written depth (R194). -/
def latePrim (w : Walk) (k : Nat) : Walk :=
  match w.prim k with
  | none => w
  | some (t, d) =>
    (w.fragments t d).foldl (fun w f =>
      match d.fragment with
      | none => w
      | some c =>
        match runProgram (w.pass.env d.binds) c (fragmentInput t d c f.x f.y) w.run with
        | (r, o) =>
          let w := { w with run := r }
          if o.discard then w
          else
            { w with samples := f.cover.foldl (fun l j =>
                let i := w.place f.x f.y j
                match testSample d.raster ((o.depth.map f32Val).getD (fragmentDepth w t f j)) (l.getD i {}) with
                | (ok, x) => l.set i (if ok then blendSample w.pass d o.out x else x)) w.samples }) w

/-- Both walks over a segment's primitives (R193). -/
def walkSegment (w : Walk) (ks : List Nat) : Walk :=
  let floor := (ks.foldl (seePrim w) (w.samples, [])).2
  ks.foldl (shadePrim floor) w

/-- The walks over a tile's bin list: a late primitive ends a segment (R194). `seg` holds the primitives of the segment so far. -/
def walkTile : Walk → List Nat → List Nat → Walk
  | w, seg, [] => walkSegment w seg
  | w, seg, k :: r =>
    if (w.prim k).any (fun e => lateDraw e.2) then walkTile (latePrim (walkSegment w seg) k) [] r else walkTile w (seg ++ [k]) r

/-! ## The end of a tile (R197) -/

/-- A pixel's word of a target: its sample's, or of 4 samples the FP32 mean, converted (R197). -/
def pixelWordOf (p : Pass) (i : Nat) (l : List Sample) : Nat :=
  let ws := l.map (fun x => x.pix.getD i 0)
  match ws with
  | [w] => w
  | _ =>
    let fmt := (p.targets.getD i {}).fmt
    let cs := ws.map (fun w => (decodePixel fmt w).map rnd32)
    let mean := fun (ch : Rgba → ℚ) => rnd32 ((cs.map ch).sum / 4)
    encodePixel fmt (BitVec.ofNat 8 (ws.headD 0 / 2 ^ 24)) ⟨mean Rgba.r, mean Rgba.g, mean Rgba.b, mean Rgba.a⟩

/-- Writes a tile's pixels to each target, each pixel as one unit (R197). -/
def storeTile (w : Walk) (s : State) : State :=
  (List.range w.pass.targets.length).foldl (fun s i =>
    let h := w.pass.targets.getD i {}
    (pixelsOf w.rect).foldl (fun s q =>
      writeHandle s h.handle (pixelAt h.fmt h.layout h.width q.1 q.2)
        (leBytes (strideBytes h.fmt) (pixelWordOf w.pass i ((w.samples.drop (w.place q.1 q.2 0)).take w.pass.samples)))) s) s

/-- Walks a tile from its tile memory and writes it: what the run of its programs has come to. A tile whose programs were refused host
memory is not written (R205, log 271). -/
def finishTile (s : State) (p : Pass) (n : Nat) (tile : List Sample) : ProgRun :=
  let w := walkTile ⟨p, tileRect p.area n, ⟨s, 0, false, false⟩, tile⟩ [] (p.bins.getD n [])
  if w.run.refused then w.run else { w.run with state := storeTile w w.run.state }

/-! ## Compute workgroups (R203, R204) -/

/-- Runs a workgroup: its program is given the workgroup's number on each axis, the counts, and a free number that settles the order of
its threads, which the spec leaves open (R204, log 272). -/
def finishGroup (s : State) (p : Pass) (d : DispatchCall) (n : Nat) : ProgRun :=
  (runProgram (p.env d.binds) d.code
    [n % max 1 d.x, n / max 1 d.x % max 1 d.y, n / (max 1 d.x * max 1 d.y), d.x, d.y, d.z, s.fresh] ⟨draw s, 0, false, false⟩).1

end Sys2Proof.Machine
end

