-- ==== Sys2Proof/Machine/Gpu.lean ====
section
/-!
DEFINITION. Contexts and cores: states (R213), arbitration (R217, R218), dispatch points (R219), compositor rows (R220 to R222,
R98 to R101), preemption (R223 to R227), passes (R187 to R191, R197), their ends and faults (R205 to R210).
-/

namespace Sys2Proof.Machine

/-! ## Contexts (R211 to R213) -/

/-- The function that owns a context. -/
def ctxOwner (s : State) (c : Nat) : Nat := getN s (K.ctxOwner c)

/-- Changes a pass of a context. -/
def modPass (s : State) (c id : Nat) (g : Pass → Pass) : State :=
  modCtx s c (fun x => { x with passes := x.passes.map (fun p => if p.id = id then g p else p) })

/-- The cores that run a context; context 0 runs compositor rows. -/
def coresOf (s : State) (c : Nat) : List Nat :=
  numbers 36 (fun k => match (coreOf s k).work with
    | some (.unit c' _ _ _) => c' == c
    | some (.row _ _ _) => c == 0
    | none => false)

/-- Whether a context is frozen, or being frozen, by a migration (R213, R297). -/
def ctxFrozen (s : State) (c : Nat) : Bool := 0 < ctxOwner s c && ctxOwner s c < 64 && getN s (K.migState (ctxOwner s c)) != 0

/-- Whether a pass has a unit that a core could take. -/
def Pass.hasUnit (p : Pass) : Bool := p.phase == 2 && (decide (p.next < p.total) || !p.again.isEmpty || !p.spilled.isEmpty)

/-- Whether a context has a unit that a core could take. -/
def ctxHasUnit (s : State) (c : Nat) : Bool := !ctxFrozen s c && (ctxOf s c).passes.any Pass.hasUnit

/-- Whether a ring bound to a context holds a wait or a signal. -/
def ctxWaits (s : State) (c : Nat) : Bool :=
  s.rings.any (fun e => e.2.wait.isSome && getN s (K.ringCtx e.1) == c) || s.signals.any (fun x => getN s (K.ringCtx x.ticket.ring) == c)

/-- ctx.state (R213, Table CT-1): 0 FREE, 1 IDLE, 2 READY, 3 RUNNING, 4 WAITING, 5 STOPPING, 6 FROZEN. The front end runs a pass's
work from its binning until its tile phase starts. -/
def ctxState (s : State) (c : Nat) : Nat :=
  if ctxOwner s c = 0xFF then 0
  else if 0 < ctxOwner s c ∧ ctxOwner s c < 64 ∧ 2 ≤ getN s (K.migState (ctxOwner s c)) then 6
  else if (ctxOf s c).stopping then 5
  else if !(coresOf s c).isEmpty ∨ (ctxOf s c).passes.any (fun p => p.phase == 1) then 3
  else if !(ctxOf s c).passes.isEmpty then 2
  else if ctxWaits s c then 4
  else 1

/-- Whether a context is ready in the sense of R217: it has work to run. -/
def ctxReady (s : State) (c : Nat) : Bool := c != 0 && !ctxFrozen s c && !(ctxOf s c).passes.isEmpty

/-! ## Arbitration (R217, R218, R294) -/

/-- pool.share: what the enabled VFs leave of 900 (R282). -/
def poolShare (s : State) : Nat := 900 - ((enabledVfs s).map (fun v => getN s (K.grantShare v))).sum

/-- share(f) of R217. -/
def shareOf (s : State) (f : Nat) : Nat := if f = 64 then 100 else if f = 0 then poolShare s else getN s (K.grantShare f)

/-- The ready contexts of a class, in context order. -/
def readyOf (s : State) (cls : Nat) : List Nat := numbers 64 (fun c => ctxReady s c && getN s (K.ctxClass c) == cls)

/-- The weight of a context among the ready contexts of its class (R217). -/
def ctxWeight (s : State) (ready : List Nat) (c : Nat) : Rat :=
  let mine := ready.filter (fun d => ctxOwner s d == ctxOwner s c)
  (shareOf s (ctxOwner s c) * getN s (K.ctxWeight c) : Nat) / ((mine.map (fun d => getN s (K.ctxWeight d))).sum : Nat)

/-- Shares a count by weight: the whole parts, then one each to the largest fractions, ties to the lower number (R218). -/
def shareOut (ws : List (Nat × Rat)) (rest : Nat) : List (Nat × Nat) :=
  let total := (ws.map (·.2)).sum
  let qs := ws.map (fun e => (e.1, if total = 0 then 0 else (rest : Rat) * e.2 / total))
  let floors := qs.map (fun e => (e.1, e.2.floor.toNat))
  let left := rest - (floors.map (·.2)).sum
  let order := (qs.map (fun e => (e.1, e.2 - (e.2.floor : Rat)))).insertionSort (fun a b => b.2 ≤ a.2)
  let lucky := (order.take left).map (·.1)
  floors.map (fun e => (e.1, e.2 + b2n (lucky.contains e.1)))

/-- Caps targets at ctx.cores.max and shares the freed cores among the uncapped, again and again (R218). -/
def capTargets (cap : Nat → Nat) (w : Nat → Rat) : Nat → List (Nat × Nat) → List (Nat × Nat)
  | 0, ts => ts.map (fun e => (e.1, min e.2 (cap e.1)))
  | n + 1, ts =>
    let freed := (ts.map (fun e => e.2 - cap e.1)).sum
    let ts := ts.map (fun e => (e.1, min e.2 (cap e.1)))
    let room := ts.filter (fun e => decide (e.2 < cap e.1))
    if freed = 0 ∨ room.isEmpty then ts
    else
      let adds := shareOut (room.map (fun e => (e.1, w e.1))) freed
      capTargets cap w n (ts.map (fun e => (e.1, e.2 + tget adds e.1 0)))

/-- The targets of one class and the cores left for the lower classes (R218). -/
def classTargets (s : State) (cls avail : Nat) : List (Nat × Nat) × Nat :=
  let ready := readyOf s cls
  let (hints, rest) := ready.foldl (fun (x : List (Nat × Nat) × Nat) c =>
    let t := min (getN s (K.ctxCoresMin c)) x.2
    (x.1 ++ [(c, t)], x.2 - t)) ([], avail)
  let adds := shareOut (ready.map (fun c => (c, ctxWeight s ready c))) rest
  let ts := capTargets (fun c => getN s (K.ctxCoresMax c)) (ctxWeight s ready) 64
    (if ready.isEmpty then [] else hints.map (fun e => (e.1, e.2 + tget adds e.1 0)))
  (ts, avail - (ts.map (·.2)).sum)

/-- The active cores. -/
def activeCores (s : State) : List Nat := numbers 36 (fun k => getN s (K.coreState k) == 1)

/-- The cores held by the compositor. -/
def c0Held (s : State) : Nat := (coresOf s 0).length

/-- Writes one context's new target: logged where it changes, its hint marked and counted where it ceases to be kept (R218,
R238, R240). -/
def setTarget (s : State) (c t : Nat) : State :=
  let old := getN s (K.ctxTarget c)
  let kept := decide (getN s (K.ctxCoresMin c) ≤ t)
  let missed := !kept && getB s (K.ctxHintKept c)
  let s := if missed then hintMiss s else s
  let s := putB (putN s (K.ctxTarget c) t) (K.ctxHintKept c) kept
  if old = t ∧ !missed then s else tilthEntry s 1 1 (b2n kept) c old t

/-- An arbitration with `c0` cores taken by the compositor (R218). -/
def arbitrateWith (s : State) (c0 : Nat) : State :=
  let avail := (activeCores s).length - c0
  let (t1, a1) := classTargets s 1 avail
  let (t2, a2) := classTargets s 2 a1
  let (t3, _) := classTargets s 3 a2
  (t1 ++ t2 ++ t3).foldl (fun s e => setTarget s e.1 e.2) s

/-- An arbitration (R218). -/
def arbitrate (s : State) : State := arbitrateWith s (c0Held s)

/-- ARBITRATION, each sched.period (R218). -/
def execArbitration (s : State) : Host.Outcome State Fault Refusal := .next (arbitrate s)

/-! ## Compositor rows (R98 to R101, R220, R221) -/

/-- The frame that C0 composes and scan-out prepares: the coming one in blanking, else the current one. -/
def rowFrame (q : Port) : Nat := if q.inBlank then q.frame + 1 else q.frame

/-- The instant that lies `lines` lines before the first line of row r of the frame after the port's last take (R220). -/
def rowInstant (q : Port) (r lines : Nat) : Nat :=
  q.lastTake + (modeVtotal q.runMode - modeH q.runMode + 32 * r - lines) * modeLineNs q.runMode

/-- Whether a port composes rows: a running timing with a run, its frames not black (R97, R134). -/
def composes (s : State) (p : Nat) : Bool :=
  timingRuns s p && (portOf s p).plan.top.isSome && (!(portOf s p).gap || (portOf s p).phase == .waitLine0)

/-- Whether a row is eligible: it waits or is composed, has tiles to start, and its prefetch point has not passed. -/
def rowEligible (t : TileRow) : Bool := (t.waiting.isSome || t.composing.isSome) && (t.unstarted != 0 || !t.again.isEmpty)

/-- The eligible row with the earliest deadline, ties to the lower port and row (R221). -/
def bestRow (s : State) : Option (Nat × Nat) :=
  let all := (List.range 8).flatMap (fun p => (((portOf s p).rows.filter (fun e => rowEligible e.2)).map (fun e => (p, e.1))))
  all.foldl (fun b x => match b with
    | none => some x
    | some y => if rowInstant (portOf s x.1) x.2 4 < rowInstant (portOf s y.1) y.2 4 then some x else some y) none

/-- Ends a core's idle time (Table CT-2). -/
def leaveIdle (s : State) (k : Nat) : State :=
  if (coreOf s k).work.isSome then s
  else putN s K.schedIdle ((getN s K.schedIdle + (s.now - (coreOf s k).idleSince)) % 2 ^ 64)

/-- A core takes a tile of a compositor row, one that a fault stopped or the next from the left; the row's first tile chooses its slot
(R99, R209, R221, R241). -/
def takeRowTile (s : State) (k p r : Nat) : State :=
  let q := portOf s p
  let t := rowOf q r
  let s := match t.waiting with
    | some f =>
      let i := t.composeSlot f
      let s := modRow s p r (fun t => { (t.setSlot i { (t.slot i) with ready := false }) with waiting := none, composing := some (i, f) })
      putN s K.schedC0Wait (max (getN s K.schedC0Wait) (min (2 ^ 32 - 1) (s.now - t.eligibleAt)))
    | none => s
  let (n, s) := match t.again with
    | n :: l => (n, bump (modRow s p r (fun t => { t with again := l, running := t.running + 1 })) (K.coreRetry k))
    | [] => (ceilDiv (modeW q.runMode) 32 - t.unstarted,
        modRow s p r (fun t => { t with unstarted := t.unstarted - 1, running := t.running + 1 }))
  modCore (leaveIdle s k) k (fun c => { c with work := some (.row p r n), since := s.now, lent := false, preemptFor := none })

/-! ## Units of contexts -/

/-- Whether a pass runs a compute list's workgroups at a residency, or tiles one at a time (R203). -/
def Pass.resident (p : Pass) : Nat := (p.dispatch.map (fun d => residentWorkgroups d.code)).getD 1

/-- How long a core takes to restore the unit that a pass gives it next: a spilled one takes a free time, for which the context is not
charged (R227); any other none. -/
def restoreTime (s : State) (p : Pass) : Nat := if p.again.isEmpty && !p.spilled.isEmpty then Config.restoreTime s.fresh else 0

/-- A unit that begins: its number and, of a tile, its samples at the start. -/
def freshUnit (s : State) (p : Pass) (n : Nat) : State × Nat × List Sample :=
  if p.compute then (s, n, []) else match startTile s p n with | (s, l) => (s, n, l)

/-- Takes one unit of a pass for a core: one to run again, a spilled one, or the next (R191, R209, R225): the state, its number, and
the tile memory it starts with (R192). The time that the pass was away ends (R208). -/
def takeOne (s : State) (k c : Nat) (p : Pass) : State × Nat × List Sample :=
  let back := fun (p : Pass) => { p with running := p.running + 1, awaySince := none, away := p.away + (s.now - p.awaySince.getD s.now) }
  match p.again, p.spilled with
  | n :: r, _ => freshUnit (bump (modPass s c p.id (fun p => { back p with again := r })) (K.coreRetry k)) p n
  | [], e :: r =>
    let s := putN s (K.ctxSave c) (getN s (K.ctxSave c) - e.kib)
    (modPass (draw s) c p.id (fun p => { back p with spilled := r, away := (back p).away + restoreTime s p }), e.n, e.tile)
  | [], [] => freshUnit (modPass s c p.id (fun p => { back p with next := p.next + 1 })) p p.next

/-- Fills a core with further workgroups of the same DISPATCH, as many as are resident at once (R203). -/
def takeMore (k c id : Nat) : Nat → State → State
  | 0, s => s
  | n + 1, s =>
    match (ctxOf s c).passes.find? (fun p => p.id == id && p.compute && p.hasUnit) with
    | none => s
    | some p =>
      match takeOne s k c p with
      | (s, m, _) => takeMore k c id n (modCore s k (fun x => { x with more := x.more ++ [m] }))

/-- A core takes a unit of a context: a tile, or as many workgroups as it holds (R191, R203). -/
def takeUnit (s : State) (k c : Nat) (lent : Bool) : State :=
  match (ctxOf s c).passes.find? Pass.hasUnit with
  | none => s
  | some p =>
    let restored := s.now + restoreTime s p
    match takeOne (leaveIdle s k) k c p with
    | (s, n, tile) =>
      let s := modCore s k (fun x => { x with work := some (.unit c p.id n p.compute), more := [], tile := tile
                                              since := restored, lent := lent, preemptFor := none })
      takeMore k c p.id (p.resident - 1) s

/-- The best of a list of contexts under an order, the earliest among equals. -/
def bestCtx (cs : List Nat) (better : Nat → Nat → Bool) : Option Nat :=
  cs.foldl (fun b c => match b with
    | none => some c
    | some d => if better c d then some c else some d) none

/-- How many cores run a context. -/
def running (s : State) (c : Nat) : Nat := (coresOf s c).length

/-- Whether context c has the lower running-to-target ratio. -/
def ratioLess (s : State) (c d : Nat) : Bool :=
  decide (running s c * getN s (K.ctxTarget d) < running s d * getN s (K.ctxTarget c))

/-- The choice of a core at a dispatch point (R219, R221, R240). -/
def chooseWork (s : State) (k : Nat) : State :=
  let cls := fun c => getN s (K.ctxClass c)
  let withUnit := numbers 64 (fun c => c != 0 && ctxHasUnit s c)
  let row := if c0Held s < getN s K.schedC0Cores then bestRow s else none
  match row with
  | some (p, r) => takeRowTile s k p r
  | none =>
    let under := withUnit.filter (fun c => decide (running s c < getN s (K.ctxTarget c)))
    match bestCtx under (fun c d => decide (cls c < cls d ∨
        (cls c = cls d ∧ getN s (K.ctxTarget d) - running s d < getN s (K.ctxTarget c) - running s c))) with
    | some c => takeUnit s k c false
    | none =>
      let room := withUnit.filter (fun c => decide (running s c < getN s (K.ctxCoresMax c)))
      let high := room.filter (fun c => decide (cls c < 3))
      match bestCtx high (fun c d => decide (cls c < cls d) || (cls c == cls d && ratioLess s c d)) with
      | some c => takeUnit s k c true
      | none =>
        match bestCtx (room.filter (fun c => cls c == 3)) (ratioLess s) with
        | some c => takeUnit s k c true
        | none => s

/-- Whether a core can run work: active, its slice on. -/
def coreUp (s : State) (k : Nat) : Bool := getN s (K.coreState k) == 1 && domSt s (6 + k / 9) == domOn

/-- A core that holds workgroups with room for more takes more of the same DISPATCH (R203). -/
def refill (s : State) (k : Nat) : State :=
  match (coreOf s k).work with
  | some (.unit c id _ true) =>
    match (ctxOf s c).passes.find? (fun p => p.id == id) with
    | some p => takeMore k c id (p.resident - 1 - (coreOf s k).more.length) s
    | none => s
  | _ => s

/-- CORE_DISPATCH_POINT: a core without work and without a preemption chooses (R219); one with workgroups fills up. -/
def execCoreDispatchPoint (core : Fin 36) (s : State) : Host.Outcome State Fault Refusal :=
  if coreUp s core ∧ (coreOf s core).preemptFor = none then
    .next (if (coreOf s core).work = none then chooseWork s core else refill s core)
  else .next s

/-! ## Preemption (R222 to R227) -/

/-- The cores that may be preempted: they run a unit of a context and are not being preempted. -/
def victims (s : State) : List (Nat × Nat) :=
  (List.range 36).filterMap (fun k => match (coreOf s k).work, (coreOf s k).preemptFor with
    | some (.unit c _ _ _), none => some (k, c)
    | _, _ => none)

/-- How far a context runs above its target, cores already being preempted left out. -/
def above (s : State) (c : Nat) : Int :=
  (((victims s).filter (fun e => e.2 == c)).length : Int) - (getN s (K.ctxTarget c) : Int)

/-- Picks one victim: lowest class, then furthest above its target, then the highest core number (R222). -/
def pickVictim (s : State) (vs : List (Nat × Nat)) : Option Nat :=
  (vs.foldl (fun (b : Option (Nat × Nat)) e => match b with
    | none => some e
    | some d =>
      let ce := getN s (K.ctxClass e.2)
      let cd := getN s (K.ctxClass d.2)
      if cd < ce ∨ (cd = ce ∧ (above s d.2 < above s e.2 ∨ (above s e.2 = above s d.2 ∧ d.1 < e.1))) then some e else some d)
    none).map (·.1)

/-- Preempts up to `n` cores for a context from those that `ok` allows. -/
def preemptFor (c : Nat) (ok : State → Nat × Nat → Bool) : Nat → State → State
  | 0, s => s
  | n + 1, s =>
    match pickVictim s ((victims s).filter (ok s)) with
    | none => s
    | some k => preemptFor c ok n (modCore s k (fun x => { x with preemptFor := some c }))

/-- A context that has become READY below its target while no core is idle preempts lower classes and lent cores (R223). -/
def preemptReady (s : State) (c : Nat) : State :=
  let idle := (activeCores s).any (fun k => (coreOf s k).work.isNone)
  let want := getN s (K.ctxTarget c) - running s c
  if idle ∨ !ctxHasUnit s c then s
  else preemptFor c (fun s e => decide (getN s (K.ctxClass c) < getN s (K.ctxClass e.2)) || (coreOf s e.1).lent) want s

/-- The KiB that a spilled tile takes: its samples of 8 bytes and the targets' words, and its walk's position (R178, R225). -/
def tileStateKib (p : Pass) (tile : List Sample) : Nat :=
  ceilDiv (tile.length * (8 + (p.targets.map (fun h => strideBytes h.fmt)).sum) + 16) 1024

/-- The state of a stopped unit as the save area holds it: of a tile its tile memory and the primitive of its walk, of a workgroup
the instruction group at which its threads stopped (R171, R225). -/
def spillOf (p : Pass) (n : Nat) (tile : List Sample) (position : Nat) : Spill :=
  match p.dispatch with
  | some d => { n := n, kib := groupStateKib d.code, boundary := min position d.code.groups.length }
  | none => { n := n, kib := tileStateKib p tile, tile := tile, position := min position (p.bins.getD n []).length }

/-- The size of a context's save area in KiB (R215). -/
def saveAreaKib : Nat := 12 * 1024

/-- Stops what a core runs for a context and puts it into its pass's spilled units (R225); the spill's time is not charged (R227). -/
def spillUnit (s : State) (k position spillNs : Nat) : State :=
  match (coreOf s k).work with
  | some (.unit c id n _) =>
    match (ctxOf s c).passes.find? (fun p => p.id == id) with
    | none => s
    | some p =>
      let x := coreOf s k
      let es := (n :: x.more).map (fun n => spillOf p n x.tile position)
      let s := modPass s c id (fun p =>
        { p with spilled := p.spilled ++ es, running := p.running - es.length
                 awaySince := if p.running ≤ es.length then some (s.now - spillNs) else p.awaySince })
      let s := putN s (K.ctxSave c) (min saveAreaKib (getN s (K.ctxSave c) + (es.map (·.kib)).sum))
      let s := putN s (K.ctxBusy c) ((getN s (K.ctxBusy c) + (s.now - spillNs - (coreOf s k).since)) % 2 ^ 64)
      modCore s k (fun x => { x with work := none, more := [], tile := [], lent := false, idleSince := s.now })
  | _ => s

/-- PREEMPT_DONE: what the core still holds is spilled, the latency recorded, and the core chooses its new work as at any dispatch point
(R219, R224, R225). `position`: the primitive or instruction group at which it stopped; `spillNs`: the part of the latency that the spill
took. A latency beyond R224's bound does not happen. -/
def execPreemptDone (core : Fin 36) (latencyNs position spillNs : Nat) (s : State) : Host.Outcome State Fault Refusal :=
  match (coreOf s core).preemptFor with
  | none => .next s
  | some _ =>
    let compute := match (coreOf s core).work with
      | some (.unit _ _ _ b) => b
      | _ => false
    if (if compute then 20000 else 40000) < latencyNs then .next s
    else
      let s := match (coreOf s core).work with
        | some (.unit c _ _ _) =>
          let s := bump s (K.ctxPreempt c)
          spillUnit (putN s (K.ctxPreemptMax c) (max (getN s (K.ctxPreemptMax c)) latencyNs)) core position (min spillNs latencyNs)
        | _ => s
      let k := if compute then K.schedPreCmp else K.schedPreGfx
      let s := putN (putN s k (max (getN s k) latencyNs)) K.schedPreCount ((getN s K.schedPreCount + 1) % 2 ^ 64)
      .next (chooseWork (modCore s core (fun x => { x with preemptFor := none })) core)

/-- COMPOSITOR_ROW_ELIGIBLE: idle cores take its tiles, then cores above their targets are preempted (R98, R220, R222). -/
def execCompositorRowEligible (port : Fin 8) (row : Fin 256) (s : State) : Host.Outcome State Fault Refusal :=
  let q := portOf s port
  let f := rowFrame q
  let t := rowOf q row
  let due := max q.lastTake (rowInstant q row q.active.out.lead)
  if !composes s port ∨ rowsOf q.runMode ≤ row.val ∨ s.now < due ∨ t.prefetched = some f ∨ t.waiting = some f
      ∨ t.composing.map (·.2) = some f ∨ (t.s0.ready ∧ t.s0.tag = f % 65536) ∨ (t.s1.ready ∧ t.s1.tag = f % 65536) then .next s
  else
    let s := modRow s port row (fun t => { t with waiting := some f, composing := none, eligibleAt := s.now
                                                  unstarted := ceilDiv (modeW q.runMode) 32 })
    let want := min (getN s K.schedC0Cores) (ceilDiv (modeW q.runMode) 32)
    let idle := (activeCores s).filter (fun k => (coreOf s k).work.isNone && coreUp s k)
    let s := foldN (idle.take (want - c0Held s)) (fun s k => match bestRow s with
      | some (p, r) => takeRowTile s k p r
      | none => s) s
    if want ≤ c0Held s then .next s
    else .next (preemptFor 0 (fun s e => decide (0 < above s e.2)) (want - c0Held s) (arbitrateWith s want))

/-- ROW_COMPOSE_DONE: the last write of a row's last tile has landed: its slot is tagged and ready (R99). -/
def execRowComposeDone (port : Fin 8) (row : Fin 256) (s : State) : Host.Outcome State Fault Refusal :=
  let t := rowOf (portOf s port) row
  match t.composing with
  | some (i, f) =>
    if t.unstarted = 0 ∧ t.running = 0 ∧ t.again.isEmpty then
      .next (modRow s port row (fun t => { (t.setSlot i ⟨true, f % 65536⟩) with composing := none }))
    else .next s
  | none => .next s

/-- The event ROW_LATE, counted (R99, R101). -/
def rowLate (s : State) (p row tag : Nat) : State :=
  let s := bump (modPort s p (fun q => { q with lateRows := q.lateRows + 1 })) (K.compRowLate p)
  emit s 1 0x0111 p (leBytes 1 p ++ leBytes 1 row ++ leBytes 2 tag) (portFuncs s p)

/-- ROW_PREFETCH_POINT: scan-out takes the nearest ready slot or shows the background; a row not composed by now is abandoned
(R99 to R101). -/
def execRowPrefetchPoint (port : Fin 8) (row : Fin 256) (s : State) : Host.Outcome State Fault Refusal :=
  let q := portOf s port
  let f := rowFrame q
  let t := rowOf q row
  if !composes s port ∨ rowsOf q.runMode ≤ row.val ∨ t.prefetched = some f ∨ q.inBlank ≠ (row.val == 0) then .next s
  else
    let gone := t.waiting = some f ∨ t.composing.map (·.2) = some f
    let s := modRow s port row (fun t => { t with prefetched := some f, waiting := none
                                                  composing := if gone then none else t.composing
                                                  unstarted := if gone then 0 else t.unstarted })
    match (rowOf (portOf s port) row).nearest (f % 65536) with
    | none =>
      let s := bump (modPort s port (fun q => { q with bgRows := q.bgRows + 1 })) (K.compRowBg port)
      .next (rowLate s port row 0xFFFF)
    | some i =>
      let s := modRow s port row (fun t => { t with held := some i })
      if (t.slot i).tag = f % 65536 then .next s else .next (rowLate s port row (t.slot i).tag)

/-! ## Passes: binning (R172, R187 to R190) -/

/-- The Silt bytes that a context's passes hold. -/
def siltInUse (x : Ctx) : Nat := ((x.passes.filter (fun p => p.phase != 0)).map (·.silt)).sum

/-- The functions that get a context's events. -/
def ctxFuncs (s : State) (c : Nat) : List Nat := [ctxOwner s c]

/-- A pass or list ends with FAULT (R205, R206). -/
def passFault (s : State) (c : Nat) (t : Ticket) (cause record : Nat) : State :=
  let s := bump (complete s t 3 cause record) (K.passFault c)
  emit s 3 0x0301 c (leBytes 1 c ++ leBytes 1 t.local_ ++ leBytes 1 cause ++ leBytes 4 record ++ leBytes 2 t.tag) (ctxFuncs s c)

/-- The work of a core ends: its tile memory is given up and it falls idle. -/
def clearCore (s : State) (k : Nat) : State :=
  modCore s k (fun x => { x with work := none, more := [], tile := [], lent := false, idleSince := s.now })

/-- The run time of a pass that is now the first of its context, and binned, starts: waiting for the one before does not count
(R208). -/
def startPassHead (now : Nat) : List Pass → List Pass
  | [] => []
  | p :: r => (if p.phase = 1 then { p with began := now, away := 0, awaySince := none } else p) :: r

/-- Removes a pass from its context; cores that ran it fall idle, its share of the save area is free. -/
def removePass (s : State) (c id : Nat) : State :=
  let kib := (((ctxOf s c).passes.filter (fun p => p.id == id)).map (fun p => (p.spilled.map (·.kib)).sum)).sum
  let head := (ctxOf s c).passes.head?.any (fun p => p.id == id)
  let s := putN s (K.ctxSave c) (getN s (K.ctxSave c) - kib)
  let s := modCtx s c (fun x =>
    { x with passes := (if head then startPassHead s.now else fun l => l) (x.passes.filter (fun p => p.id != id)) })
  foldN (List.range 36) (fun s k => match (coreOf s k).work with
    | some (.unit c' id' _ _) => if c' = c ∧ id' = id then clearCore s k else s
    | _ => s) s

/-- The KiB of a pool's use that passed it. -/
def stopKib (used : Nat) : Nat := ceilDiv used 1024

/-- A pass whose use exceeds the pool: it is dropped with the rest of its frame, and the pool may grow (R188, R189). Commands of its ring
are dropped until a DRAW_SUBMIT with another frame identifier, if none has been fetched yet. -/
def overflow (s : State) (c : Nat) (p : Pass) (used : Nat) : State :=
  let now := getN s (K.siltNow c)
  let grown := min (min (ceilDiv (5 * now) 4) 1024) (now + siltLeft s (ctxOwner s c))
  let grow := getB s (K.siltGrow c)
  let s := complete s p.ticket 4 (1 + 2 ^ 32 * (stopKib used % 2 ^ 32)) p.frame
  let s := bump (bump s (K.siltOverflow c)) (K.passDropped c)
  let old := getN s (K.siltSize c)
  let s := if !grow then s else if now < grown then tilthEntry (writeN s (K.siltSize c) grown) 5 6 0 c old grown
    else bump s (K.siltDenied c)
  let s := emit s 3 0x0300 c (leBytes 1 c ++ leBytes 1 p.ticket.local_ ++ leBytes 4 p.frame ++ leBytes 2 now
    ++ leBytes 2 (getN s (K.siltSize c))) (ctxFuncs s c)
  let s := modRing s p.ticket.ring (fun r =>
    if r.frame.any (fun e => e.1 == p.frame && decide (e.2 ≤ p.ticket.index)) then { r with dropFrame := some p.frame } else r)
  modCtx (removePass s c p.id) c (fun x => { x with dropFrame := some p.frame, lastFrame := some p.frame })

/-- A later pass of a dropped frame completes DROPPED, cause 2 (R188). -/
def dropPass (s : State) (c : Nat) (t : Ticket) (frame : Nat) : State := bump (complete s t 4 2 frame) (K.passDropped c)

/-- The next DISPATCH record that has workgroups, and those after it. -/
def nextDispatch : List DispatchCall → Option (DispatchCall × List DispatchCall)
  | [] => none
  | d :: r => if d.x * d.y * d.z = 0 then nextDispatch r else some (d, r)

/-- A pass with a DISPATCH made the running one. -/
def Pass.withDispatch (p : Pass) (d : DispatchCall) (rest : List DispatchCall) : Pass :=
  { p with next := 0, total := d.x * d.y * d.z, dispatch := some d, later := rest }

/-- A pass or list is done (R197, R204, R205). -/
def finishPass (s : State) (c : Nat) (p : Pass) : State :=
  let s := removePass s c p.id
  let s := complete s p.ticket 0 (p.ended % 2 ^ 32 + 2 ^ 32 * (p.tris.length % 2 ^ 32)) (min (2 ^ 32 - 1) p.poison)
  let s := bump s (K.passDone c)
  if p.compute then s
  else
    let kib := ceilDiv p.silt 1024
    putN (putN s (K.siltUsed c) kib) (K.siltPeak c) (max (getN s (K.siltPeak c)) kib)

/-- Reads the list of a pass as it is in memory now (R172, R175, R176): the pass with what its list comes to, or the cause and number of
its failing record. A list with poisoned words is no list that could be read (log 266). -/
def parsePass (s : State) (p : Pass) : State × Except (Nat × Nat) Pass :=
  let f := p.ticket.func
  match readRef s f p.hostBad p.list 0 p.len with
  | (s, b, reached, whole) =>
    if !reached then (s, .error (causeHost, 0xFFFFFFFF))
    else if !whole then (s, .error (causeRecord, 0xFFFFFFFF))
    else
      match readList s f p.compute (listStart p.area) 0 (decodeList (p.len / 32) b) with
      | .error e => (s, .error e)
      | .ok x =>
        let ts := p.targets.map (·.handle)
        if x.reads.any (fun h => (ts ++ x.writes).contains h) then (s, .error (causeHazard, 0xFFFFFFFF))
        else
          (s, .ok { p with
            parsed := true, handles := (p.handles ++ ts ++ x.reads ++ x.writes).dedup, writes := (ts ++ x.writes).dedup
            reads := x.geometry, draws := x.draws, later := x.groups, rw := x.rw })

/-- The surface that holds a pass's list, if one does. -/
def Pass.listHandle (p : Pass) : List Nat := ((refSurface p.list).map (·.1)).toList

/-- Whether the front end may work on a pass behind those before it: it is the first, or a pass behind one in its tile phase that writes
nothing that the front end reads for it (R187, R200). -/
def frontMay (before : List Pass) (p : Pass) : Bool :=
  match before with
  | [] => true
  | [q] => !q.compute && !p.compute && q.phase == 2 && !q.writes.any (fun h => (p.listHandle ++ p.reads).contains h)
  | _ => false

/-- Binds a pass's geometry to the pool: it overflows, faults, waits for space, or is binned (R172, R185, R187, R188, R205). -/
def binNow (s : State) (c : Nat) (p : Pass) (first : Bool) : Option State :=
  let pool := getN s (K.siltNow c) * 1048576
  let b := binPass pool p s
  let counted := bumpBy b.run.state (K.passPoison c) b.run.poison
  if b.run.refused then some (passFault (removePass counted c p.id) c p.ticket causeHost 0xFFFFFFFF)
  else if b.run.lost then some (passFault (removePass counted c p.id) c p.ticket causeRecord 0xFFFFFFFF)
  else if b.full then some (overflow counted c p b.used)
  else if pool < siltInUse (ctxOf s c) + b.used then none
  else
    let s := putN counted K.gpuPrims ((getN counted K.gpuPrims + b.tris.length) % 2 ^ 64)
    some (modPass s c p.id (fun p =>
      { p with phase := 1, tris := b.tris, bins := b.bins, silt := b.used, poison := p.poison + b.run.poison
               began := if first then s.now else p.began }))

/-- The front end's next step for a context (R187, R188, R190, R200): the first pass not yet binned is dropped with its frame, read,
binned, or waits; a compute list starts once nothing precedes it. Before a new frame the pool takes its size. None where nothing can
be done; the front end runs in PD10 (R172). -/
def binStep (s : State) (c : Nat) : Option State :=
  let x := ctxOf s c
  match x.passes.find? (fun p => p.phase == 0) with
  | none => none
  | some p =>
    let before := x.passes.takeWhile (fun q => q.id != p.id)
    if ctxFrozen s c ∨ domSt s 10 ≠ domOn then none
    else if !p.compute ∧ x.dropFrame = some p.frame then some (dropPass (removePass s c p.id) c p.ticket p.frame)
    else if !frontMay before p then none
    else if !p.parsed then
      match parsePass s p with
      | (s, .error e) => some (passFault (removePass s c p.id) c p.ticket e.1 e.2)
      | (s, .ok p') => some (modPass s c p.id (fun _ => p'))
    else if p.compute then
      match nextDispatch p.later with
      | none => some (finishPass s c p)
      | some (d, rest) => some (modPass s c p.id (fun p => { p.withDispatch d rest with phase := 2, began := s.now }))
    else if x.lastFrame ≠ some p.frame then
      if getN s (K.siltSize c) < getN s (K.siltNow c) ∧ siltInUse x ≠ 0 then none
      else
        some (putN (modCtx s c (fun x => { x with lastFrame := some p.frame, dropFrame := none })) (K.siltNow c) (getN s (K.siltSize c)))
    else binNow s c p before.isEmpty

/-- Runs the front end for a context as far as it goes: one pass is binned at a time, and each is binned at once (R226, log 124). -/
def binAll : Nat → State → Nat → State
  | 0, s, _ => s
  | n + 1, s, c =>
    match binStep s c with
    | none => s
    | some s' => binAll n s' c

/-- What follows a change in a context's work: the front end goes on, waiting signals run, an arbitration takes place and a
context below its target preempts (R218, R223, R230). -/
def ctxChanged (s : State) (c : Nat) : State :=
  let s := binAll (3 * (ctxOf s c).passes.length + 3) s c
  let s := runSignals (s.signals.length + 1) s
  preemptReady (arbitrate s) c

/-- TILE_PHASE_START: the first pass of the context is binned and no earlier one is left (R191); a pass without tiles is done. The front
end may go on to the next pass (R187). -/
def execTilePhaseStart (ctx : Fin 64) (s : State) : Host.Outcome State Fault Refusal :=
  match (ctxOf s ctx).passes with
  | [] => .next s
  | p :: _ =>
    if p.phase ≠ 1 ∨ ctxFrozen s ctx then .next s
    else if p.total = 0 then .next (ctxChanged (finishPass s ctx p) ctx)
    else .next (ctxChanged (modPass s ctx p.id (fun p => { p with phase := 2 })) ctx)

/-! ## The ends of units (R197, R204, R207 to R209) -/

/-- Frees a core after a unit of a context; the time counts in ctx.busy. -/
def freeCore (s : State) (k c : Nat) : State :=
  clearCore (putN s (K.ctxBusy c) ((getN s (K.ctxBusy c) + (s.now - (coreOf s k).since)) % 2 ^ 64)) k

/-- After a unit of a pass has ended: the next DISPATCH, or the end of the pass. -/
def unitEnded (s : State) (c id : Nat) : State :=
  match (ctxOf s c).passes.find? (fun p => p.id == id) with
  | none => s
  | some p =>
    if p.next < p.total ∨ p.running ≠ 0 ∨ !p.again.isEmpty ∨ !p.spilled.isEmpty then s
    else
      match nextDispatch p.later with
      | none => ctxChanged (finishPass s c p) c
      | some (d, rest) => modPass s c id (fun p => p.withDispatch d rest)

/-- Ends a pass with FAULT; written tiles stay written. -/
def killPass (s : State) (c : Nat) (p : Pass) (cause : Nat) : State :=
  ctxChanged (passFault (removePass s c p.id) c p.ticket cause 0xFFFFFFFF) c

/-- One more unit of a pass has ended, with the poisoned words that it read. -/
def countUnit (s : State) (c id poison : Nat) : State :=
  modPass s c id (fun p => { p with running := p.running - 1, ended := p.ended + 1, poison := p.poison + poison })

/-- The end of a tile: it is walked, written and counted (R197, R207). A poisoned word in its bin list drops the pass as a core fault
(R207); a host read that the translation refuses ends it with cause HOST (R205). -/
def endTile (s : State) (k c : Nat) (p : Pass) (n : Nat) (binPoison : Bool) : State :=
  if binPoison then killPass s c p 6
  else
    let run := finishTile s p n (coreOf s k).tile
    let s := bumpBy run.state (K.passPoison c) run.poison
    if run.refused then killPass s c p causeHost
    else unitEnded (freeCore (countUnit (bump s (K.coreTiles k)) c p.id run.poison) k c) c p.id

/-- The end of one of the workgroups that are resident on a core: its threads run (R203, R204, R207). The core is free when the last of
them has ended. -/
def endGroup (s : State) (k c : Nat) (p : Pass) (d : DispatchCall) (l : List Nat) (which : Nat) : State :=
  let n := l.getD (which % max 1 l.length) 0
  let run := finishGroup s p d n
  let s := bumpBy run.state (K.passPoison c) run.poison
  if run.refused then killPass s c p causeHost
  else
    let s := countUnit s c p.id run.poison
    unitEnded (match l.erase n with
      | [] => freeCore s k c
      | m :: r => modCore s k (fun x => { x with work := some (.unit c p.id m true), more := r })) c p.id

/-- TILE_DONE: the tile that a core runs ends (R197, R207); a tile of a compositor row is composed (R98, R99). -/
def execTileDone (core : Fin 36) (binPoison : Bool) (s : State) : Host.Outcome State Fault Refusal :=
  match (coreOf s core).work with
  | some (.unit c id n false) =>
    match (ctxOf s c).passes.find? (fun p => p.id == id) with
    | none => .next s
    | some p => .next (endTile s core c p n binPoison)
  | some (.row p r n) =>
    let s := bump (composeTile s p r n) (K.coreTiles core)
    .next (clearCore (modRow s p r (fun t => { t with running := t.running - 1 })) core)
  | _ => .next s

/-- WORKGROUP_DONE (R204): `which` of the workgroups resident on the core ends. -/
def execWorkgroupDone (core : Fin 36) (which : Nat) (s : State) : Host.Outcome State Fault Refusal :=
  match (coreOf s core).work with
  | some (.unit c id n true) =>
    match (ctxOf s c).passes.find? (fun p => p.id == id) with
    | none => .next s
    | some p =>
      match p.dispatch with
      | none => .next s
      | some d => .next (endGroup s core c p d (n :: (coreOf s core).more) which)
  | _ => .next s

/-- GPU_WATCHDOG: the pass or list that a context runs has run longer than gpu.watchdog, the time that it was preempted or frozen left
out (R208, R227). -/
def execGpuWatchdog (ctx : Fin 64) (s : State) : Host.Outcome State Fault Refusal :=
  match (ctxOf s ctx).passes with
  | [] => .next s
  | p :: _ =>
    let away := p.away + (s.now - p.awaySince.getD s.now)
    if p.phase ≠ 0 ∧ !ctxFrozen s ctx ∧ getN s K.gpuWatchdog * 1000000 + away < s.now - p.began then .next (killPass s ctx p 5)
    else .next s

/-- The units of a core that can run no more run again elsewhere (R209). -/
def loseUnit (s : State) (k : Nat) : State :=
  match (coreOf s k).work with
  | some (.unit c id n _) =>
    let l := n :: (coreOf s k).more
    freeCore (modPass s c id (fun p => { p with again := p.again ++ l, running := p.running - l.length })) k c
  | some (.row p r n) => clearCore (modRow s p r (fun t => { t with again := t.again ++ [n], running := t.running - 1 })) k
  | none => s

/-- The counts of active and spare cores (Table TP-2). -/
def countCores (s : State) : State :=
  putN (putN s K.gpuActive (activeCores s).length) K.gpuSpare ((freeSpares s clsCore).length)

/-- A core's lasting fault: it is retired and a spare admitted under a new generation; a spare whose slice is withheld waits for the trusted
world (R168, R209, R471, R473, R475). -/
def coreLost (s : State) (k cause : Nat) (passing : Nat → Bool) : State :=
  let s := modCore (putN s (K.coreState k) 3) k (fun x => { x with preemptFor := none })
  let (s, x) := trySpares s clsCore 1 passing (coreCandidates s k)
  let s := match x with
    | none => retireUnit s clsCore k cause
    | some n =>
      let gen := (getN s (K.coreGen n) + 1) % 65536
      let s := putN (putN s (K.coreState n) 1) (K.coreGen n) gen
      askDomain (tilthEntry (substitute s clsCore k n cause gen) 9 7 0 k k n) (6 + n / 9)
  settle (arbitrate (countCores s))

/-- Whether a unit of a pass must not run twice: a fragment program, or the workgroup's own DISPATCH, holds a read-write binding
(R209). -/
def Pass.onceOnly (p : Pass) : Bool :=
  match p.dispatch with
  | some d => d.binds.any (fun e => e.2.writable)
  | none => p.rw

/-- CORE_FAULT: a transient fault runs the unit again on the core; a lasting one retires the core. A unit that holds a read-write
binding is not run again: its pass ends with cause CORE (R10, R209). -/
def execCoreFault (core : Fin 36) (retryPasses : Bool) (sparePasses : List (Fin 36)) (s : State) :
    Host.Outcome State Fault Refusal :=
  let passing := fun n => sparePasses.any (fun x => x.val == n)
  match (coreOf s core).work with
  | none => .next s
  | some (.row _ _ _) =>
    let s := bump s (K.coreRetry core)
    if retryPasses then .next s else .next (coreLost (loseUnit s core) core 2 passing)
  | some (.unit c id _ _) =>
    match (ctxOf s c).passes.find? (fun p => p.id == id) with
    | none => .next s
    | some p =>
      if p.onceOnly then .next (killPass s c p 6)
      else
        let s := bump s (K.coreRetry core)
        if retryPasses then .next s else .next (coreLost (loseUnit s core) core 2 passing)

/-- Whether a context accepts work: enabled, and not only queued to be (R214). -/
def ctxOn (s : State) (c : Nat) : Bool := getB s (K.ctxEnable c) && !s.transit.contains (K.ctxEnable c)

/-- Drops every pass of a context without completion (R210, R286). -/
def dropCtx (s : State) (c : Nat) : State :=
  foldN ((ctxOf s c).passes.map (·.id)) (fun s id => removePass s c id) s

/-- CTX_STOP_DONE: a stopping context without work reads IDLE; a queued enable runs (R214, R48). -/
def execCtxStopDone (ctx : Fin 64) (s : State) : Host.Outcome State Fault Refusal :=
  if !(ctxOf s ctx).stopping ∨ !(ctxOf s ctx).passes.isEmpty then .next s
  else
    let s := modCtx s ctx (fun x => { x with stopping := false })
    let s := if s.transit.contains (K.ctxEnable ctx) then
        emit (putN (dropTransit s (K.ctxEnable ctx)) (K.ctxBusy ctx) 0) 10 0x0A00 0xFF (leBytes 1 0xFF ++ leBytes 2 (0x3200 + ctx.val) ++ leBytes 1 2) []
      else s
    .next (arbitrate s)

end Sys2Proof.Machine
end

