-- ==== Sys2Proof/Machine/Draws.lean ====
section
/-!
DEFINITION. Submitting work to contexts: the checks of a pass's head (R176 to R178, R202), DRAW_SUBMIT and COMPUTE_DISPATCH, program
slots (R173 to R175), and writes to context, Silt and program objects (R212, R214, R186, R190).
-/

namespace Sys2Proof.Machine

/-! ## The checks of a pass (R177, R178) -/

/-- The targets of a pass: a zero handle ends the list. -/
def passTargets (surface : Nat) (p : DrawPayload) : List Nat :=
  [surface, p.target1.toNat, p.target2.toNat, p.target3.toNat].takeWhile (· != 0)

/-- The tile memory that a pass needs: samples × (8 + bytes per pixel of all targets) (R178). -/
def tileBytes (s : State) (p : DrawPayload) (ts : List Nat) : Nat :=
  p.samples.toNat * (8 + (ts.map (fun h => strideBytes (getN s (K.surfFormat (slotOf h))))).sum)

/-- Whether a reference to a list of `len` bytes names host memory, or bytes within a surface that the function may read (R176). -/
def listOk (s : State) (f ref len : Nat) : Bool :=
  match refSurface ref with
  | some (h, off) => mayRead s f h && bufferInside s h off len
  | none => true

/-- Whether a list's length is one of R176 or R202. -/
def lengthOk (len top : Nat) : Bool := len % 32 == 0 && 32 ≤ len && len ≤ top

/-- The cause for which a pass faults before its list is read, if any (R176 to R178, log 122). -/
def passHeadFault (s : State) (f : Nat) (p : DrawPayload) (ts : List Nat) : Option Nat :=
  let i0 := slotOf (ts.headD 0)
  let len := p.len.toNat
  if ts.isEmpty || ts.any (fun h => !mayWrite s f h) then some causeAccess
  else if !listOk s f p.list.toNat len then some causeAccess
  else if !lengthOk len 16777216 ∨ (p.samples.toNat ≠ 1 ∧ p.samples.toNat ≠ 4) ∨ 15 < p.load.toNat ∨ 1 < p.depth.toNat ∨ p.zero ≠ 0 then
    some causeRecord
  else if ts.any (fun h => !renders (getN s (K.surfFormat (slotOf h))) || getN s (K.surfWidth (slotOf h)) != getN s (K.surfWidth i0)
      || getN s (K.surfHeight (slotOf h)) != getN s (K.surfHeight i0)) then some causeRecord
  else if getN s (K.surfWidth i0) < p.area.x.toNat + p.area.w.toNat ∨ getN s (K.surfHeight i0) < p.area.y.toNat + p.area.h.toNat then
    some causeRecord
  else if 64 < tileBytes s p ts then some causeBudget
  else none

/-- The context that a ring's commands reach, if it is one of the function's (Table FP-3, R214). -/
def ringContext (s : State) (t : Ticket) : Option Nat :=
  let c := getN s (K.ringCtx t.ring)
  if c < 64 ∧ c ≠ 0 ∧ ctxOwner s c = t.func then some c else none

/-- Work on a ring bound to no context of the function ends with FAULT, cause ACCESS (log 123). -/
def noContext (s : State) (t : Ticket) : State := complete s t 3 causeAccess 0xFFFFFFFF

/-- Adds a pass to a context; the context becomes ready. -/
def addPass (s : State) (c : Nat) (p : Pass) : State := ctxChanged (modCtx s c (fun x => { x with passes := x.passes ++ [p] })) c

/-- The frame that a DRAW_SUBMIT brings to its ring: a new one ends the dropping of the last (R188). -/
def Ring.withFrame (r : Ring) (f index : Nat) : Ring :=
  { r with dropFrame := if r.dropFrame = some f then r.dropFrame else none
           frame := if r.frame.map (·.1) = some f then r.frame else some (f, index) }

/-- The pass that a DRAW_SUBMIT makes; its list is read when the front end comes to it (R172, R175, R176). -/
def drawPass (s : State) (h : CmdHdr) (p : DrawPayload) (t : Ticket) (ts : List Nat) : Pass :=
  let area := (p.area.x.toNat, p.area.y.toNat, p.area.w.toNat, p.area.h.toNat)
  { id := s.fresh, ticket := t, compute := false, frame := p.frame.toNat, list := p.list.toNat, len := p.len.toNat
    samples := p.samples.toNat, load := p.load.toNat, depth := p.depth.toNat, clear := p.clear.toNat, hostBad := badHost h
    handles := (ts ++ ((refSurface p.list.toNat).map (·.1)).toList).dedup, targets := ts.map (shapeOf s), writes := ts.dedup, reads := []
    area := area, silt := 0, rw := false, total := tilesAcross area * tilesDown area }

/-- DRAW_SUBMIT: a pass of a dropped frame is dropped; else its head is checked, and the front end takes it as soon as it and the pool
allow (R176 to R190). -/
def execDrawSubmit (h : CmdHdr) (p : DrawPayload) (s : State) : Host.Outcome State Fault Refusal :=
  match beginCmd s h 0x10 p.bytes true with
  | (s, none) => .next s
  | (s, some t) =>
    let s := modRing s t.ring (fun r => r.withFrame p.frame.toNat t.index)
    match ringContext s t with
    | none => .next (noContext s t)
    | some c =>
      let ts := passTargets h.surface.toNat p
      if (ctxOf s c).dropFrame = some p.frame.toNat then .next (dropPass s c t p.frame.toNat)
      else
        match passHeadFault s t.func p ts with
        | some cause => .next (passFault s c t cause 0xFFFFFFFF)
        | none => .next (addPass (draw s) c (drawPass s h p t ts))

/-- The list that a COMPUTE_DISPATCH makes. -/
def computePass (s : State) (h : CmdHdr) (list len : Nat) (t : Ticket) : Pass :=
  { id := s.fresh, ticket := t, compute := true, frame := 0, list := list, len := len, hostBad := badHost h
    handles := ((refSurface list).map (·.1)).toList, targets := [], writes := [], reads := [], area := (0, 0, 0, 0), silt := 0
    rw := false, total := 0 }

/-- COMPUTE_DISPATCH: its reference, length and zero bytes are checked, and it runs after the context's earlier work (R200, R202). -/
def execComputeDispatch (h : CmdHdr) (list : BitVec 64) (len : BitVec 32) (zero : BitVec 288) (s : State) :
    Host.Outcome State Fault Refusal :=
  match beginCmd s h 0x11 (dispatchBytes list len zero) false with
  | (s, none) => .next s
  | (s, some t) =>
    match ringContext s t with
    | none => .next (noContext s t)
    | some c =>
      if !listOk s t.func list.toNat len.toNat then .next (passFault s c t causeAccess 0xFFFFFFFF)
      else if !lengthOk len.toNat 65536 ∨ zero ≠ 0 then .next (passFault s c t causeRecord 0xFFFFFFFF)
      else .next (addPass (draw s) c (computePass s h list.toNat len.toNat t))

/-! ## Programs (R173 to R175) -/

/-- TRANSLATION_DONE: the slot's SPIR-V is translated; it reads READY with what that found, or FAILED with the limit that it breaks (R173,
R175, Table TP-3). Passes parsed before keep the old code. -/
def execTranslationDone (slot : Fin 256) (s : State) : Host.Outcome State Fault Refusal :=
  if getN s (K.progState slot) ≠ 1 then .next s
  else
    match translate (getBytes s (K.progCode slot)) (getBytes s (K.progEntry slot)) with
    | .ok c =>
      let s := putN (putN s (K.progState slot) 2) (K.progStage slot) c.stage
      let s := putN (putB s (K.progLate slot) c.late) (K.progRegs slot) c.regs
      let s := putV (putN s (K.progGroups slot) c.groups.length) (K.progError slot) (.bytes [])
      .next { s with progs := tset s.progs slot c }
    | .error why =>
      let s := putV (putN s (K.progState slot) 3) (K.progError slot) (.bytes ((Config.programError why).take 240))
      .next { s with progs := tdel s.progs slot }

/-- Whether a session may write a subindex of a program slot (R174, R75). -/
def progAccess (s : State) (c : WCtx) (i sub v : Nat) : Bool :=
  c.isMgr || (c.role == .vf &&
    (let o := getN s (K.progOwner i)
     if sub = 1 then c.cond && ((o == 0xFF && v == c.func) || (o == c.func && v == 0xFF)) else o == c.func))

/-- The checks of a write to a program object, after its range (R284). -/
def progCheck (s : State) (i sub v : Nat) : Status :=
  let o := getN s (K.progOwner i)
  if sub = 1 ∧ v ≠ o ∧ v ≠ 0xFF ∧ (overGrant s v (ownedCount s 0x3500 0x3600 v) (getN s (K.grantProgs v)) ∨ !funcExists s v) then .range
  else .ok

/-- The effect of an accepted write: new code starts its translation (R175). -/
def progApply (s : State) (i sub : Nat) (v : Val) : State :=
  let s := writeV s (objKey (0x3500 + i) sub) v
  if sub = 2 then putN s (K.progState i) 1 else s

/-! ## Writing context and Silt objects (R211, R212, R214, R186, R190, R284, R286) -/

/-- Whether a session may write a subindex of a context: nobody context 0; the manager the owner, the owning function alone 02 to 06
(R211, R212). -/
def ctxAccess (s : State) (c : WCtx) (i sub : Nat) : Bool := i != 0 && (if sub = 1 then c.isMgr else c.owns (ctxOwner s i))

/-- The rings that name a context and are enabled. -/
def ctxRings (s : State) (i : Nat) : Bool := (List.range 256).any (fun h => getN s (K.ringCtx h) == i && getB s (K.ringEnable h))

/-- The checks of a write to a context object, after its range. -/
def ctxCheck (s : State) (i sub v : Nat) : Status :=
  let o := ctxOwner s i
  if sub = 1 then
    if v ≠ o ∧ v ≠ 0xFF ∧ (overGrant s v (ownedCount s 0x3200 0x3240 v) (getN s (K.grantCtx v)) ∨ !funcExists s v) then .range else .ok
  else if sub = 2 then
    if v = 1 then
      if (ctxOf s i).unit.isNone ∧ o ≠ 0xFF ∧ siltLeft s o < getN s (K.siltSize i) then .range else .ok
    else if getB s (K.ctxEnable i) ∧ ctxRings s i then .busy else .ok
  else if sub = 3 then
    if 0 < o ∧ o < 64 ∧ v < getN s (K.grantClass o) then .range else .ok
  else if sub = 5 then (if getN s (K.ctxCoresMax i) < v then .range else .ok)
  else if sub = 6 then (if v < getN s (K.ctxCoresMin i) then .range else .ok)
  else .ok

/-- A context's Silt pool is taken in the unit with the least placed demand that has room (R236, R286). -/
def takePool (s : State) (i : Nat) : State :=
  if (ctxOf s i).unit.isSome ∨ ctxOwner s i = 0xFF then s
  else
    let size := getN s (K.siltSize i)
    let cands := numbers 4 (fun u => decide (size * 1048576 ≤ unitFree s u))
    let u := bestUnit (if cands.isEmpty then [0] else cands) (fun u => 2 ^ 40 - placedDemand s u)
    let s := modCtx (putN s (K.siltNow i) size) i (fun x => { x with unit := some u })
    tilthEntry s 2 5 0 i 0xFFFF (placeCode s u)

/-- The context is granted, or taken back: a clear save area, no pool, and at a grant a new generation and no peak use (R211, R215, R286,
Tables CT-1 and TP-6). -/
def grantCtx (s : State) (i v : Nat) : State :=
  let s := putN (dropCtx s i) (K.ctxSave i) 0
  let s := if v = 0xFF then s else putN (putN s (K.ctxGen i) ((getN s (K.ctxGen i) + 1) % 65536)) (K.siltPeak i) 0
  modCtx s i (fun x => { x with unit := none, stopping := false, dropFrame := none, lastFrame := none })

/-- ctx.enable turns true: the pool is taken, busy time starts at 0 (R215, Table CT-1). -/
def enableCtx (s : State) (i : Nat) : State := writeB (putN (takePool s i) (K.ctxBusy i) 0) (K.ctxEnable i) true

/-- ctx.enable turns false: the context stops once its work is done (R214). -/
def disableCtx (s : State) (i : Nat) : State := modCtx (writeB s (K.ctxEnable i) false) i (fun x => { x with stopping := true })

/-- The effect of an accepted write to a context object (R48, R49, R211, R214). -/
def ctxApply (s : State) (i sub v : Nat) : State × Status :=
  let key := objKey (0x3200 + i) sub
  if sub = 1 then
    if v = ctxOwner s i then (s, .ok) else (grantCtx (writeN s key v) i v, .ok)
  else if sub = 2 then enableWrite s (K.ctxEnable i) (v == 1) (ctxOf s i).stopping (enableCtx · i) (disableCtx · i)
  else
    let changed := getN s key ≠ v
    let s := writeN s key v
    (if changed then preemptReady (arbitrate s) i else s, .ok)

/-- Whether a session may write a Silt object: the function that owns the context (R186). -/
def siltAccess (s : State) (c : WCtx) (i : Nat) : Bool := i != 0 && c.owns (ctxOwner s i)

/-- silt.size beyond what the owner's grant leaves is refused (R190). -/
def siltCheck (s : State) (i sub v : Nat) : Status :=
  if sub = 1 ∧ ctxOwner s i ≠ 0xFF ∧ getN s (K.siltNow i) + siltLeft s (ctxOwner s i) < v then .range else .ok

/-- silt.place of a context's pool (R236). -/
def siltPlaceOf (s : State) (i : Nat) : Nat :=
  match (ctxOf s i).unit with
  | some u => placeCode s u
  | none => 0xFFFF

end Sys2Proof.Machine
end

