-- ==== Sys2Proof/Machine/Scanout.lean ====
section
/-!
DEFINITION. Outputs: commits and takes (R121 to R128), starting, stopping and changing an output (R132 to R137), link training
(R117 to R120), engine substitution (R138, R139), the raster's events (R129 to R131), and the meanings of their commands.
-/

namespace Sys2Proof.Machine

/-- out.state codes (Table SO-1). -/
def outOff : Nat := 0
def outStarting : Nat := 1
def outRun : Nat := 2
def outChanging : Nat := 3
def outStopping : Nat := 4

/-- out.link.state codes (Table SO-1). -/
def linkDown : Nat := 0
def linkTraining : Nat := 1
def linkUp : Nat := 2
def linkFailedSt : Nat := 3

/-- The state of an output. -/
def outSt (s : State) (p : Nat) : Nat := getN s (K.outState p)

/-! ## Commits (R121 to R124, R128) -/

/-- Sets commit bits on a port. Before the close point they wait for the coming VBS. Between a large mode's close point and
its VBS, bits that were not latched are late (R123). Where the close point is the start of line VBS, bits set after it wait
for the next VBS; those set in a shut-down are held for the next enable (R133). -/
def commitBits (s : State) (p bits : Nat) : State :=
  let q := portOf s p
  if !q.closed then putN s (K.outCommitPend p) (getN s (K.outCommitPend p) ||| bits)
  else if modeLarge q.runMode ∧ outSt s p ≠ outStopping then
    let new := bits - (bits &&& q.latched)
    if new = 0 then s
    else
      modPort (putN s (K.outCommitPend p) (getN s (K.outCommitPend p) ||| new)) p
        (fun q => { q with late := q.late ||| new, lateOps := q.lateOps + 1 })
  else
    modPort (putN s (K.outCommitPend p) (getN s (K.outCommitPend p) ||| bits)) p (fun q => { q with after := q.after ||| bits })

/-- Whether commit bits set now on a port would be late (R123). -/
def commitLate (s : State) (p bits : Nat) : Bool :=
  let q := portOf s p
  q.closed && modeLarge q.runMode && bits - (bits &&& q.latched) != 0

/-- The bits a function's commit sets on a port: its layers, and the output-level set for a PF or an MGR session (R121). -/
def commitMask (s : State) (f p : Nat) (level : Bool) : Nat := ownedBits s f p ||| (if level then 64 else 0)

/-- Answers the COMMITs whose ports have all taken them or been left out; where the lowest port named was left out, the spec
states no detail (R128). -/
def answerCommits (s : State) : State :=
  let done := s.commits.filter (fun c => c.waits.isEmpty)
  let s := { s with commits := s.commits.filter (fun c => !c.waits.isEmpty) }
  done.foldl (fun s c =>
    let left := !bitOf (c.onTime ||| c.lateMask) c.lowest
    if left then completeR s c.ticket 0 (c.onTime + 256 * c.lateMask)
    else complete s c.ticket 0 (c.onTime + 256 * c.lateMask) c.frame) s

/-- A port has taken bits: the COMMITs that wait for them advance. Bits set after a close point at VBS count from the next
take. -/
def commitTaken (s : State) (p taken : Nat) : State :=
  let frame := (portOf s p).frame + 1
  let cs := s.commits.map (fun c =>
    let ws := c.waits.map (fun (w : Nat × Nat × Bool) =>
      if w.1 = p then (w.1, (if 256 ≤ w.2.1 then w.2.1 / 256 else w.2.1 - (w.2.1 &&& taken)), w.2.2) else w)
    let now := ws.filter (fun w => w.1 == p && w.2.1 == 0)
    { c with
      waits := ws.filter (fun w => !(w.1 == p && w.2.1 == 0))
      onTime := if now.any (fun w => !w.2.2) then setBit c.onTime p else c.onTime
      lateMask := if now.any (fun w => w.2.2) then setBit c.lateMask p else c.lateMask
      frame := if !now.isEmpty && c.lowest == p then frame else c.frame })
  answerCommits { s with commits := cs }

/-- A port left before it took them: the COMMITs that name it go on without it (R128). -/
def commitLeft (s : State) (p : Nat) : State :=
  answerCommits { s with commits := s.commits.map (fun c => { c with waits := c.waits.filter (fun w => w.1 != p) }) }

/-! ## The take (R122, R125) -/

/-- The event MODE_CHANGE_DONE (Table SO-10): 0 OK, 1 LINK_FAILED, 2 ABANDONED. -/
def modeChangeDone (s : State) (p result : Nat) : State :=
  emit s 2 0x0121 p (leBytes 1 p ++ leBytes 1 (getN s (K.outMode p)) ++ leBytes 1 result ++ leBytes 2 (getN s (K.outRate p))
    ++ leBytes 1 (getN s (K.outLanes p))) (portFuncs s p)

/-- The event MODE_CHANGE_BEGIN, the start of the black frames and of the Kaolin gap (R134, R137). -/
def modeChangeBegin (s : State) (p old new cause : Nat) : State :=
  gapBegin (emit s 2 0x0120 p (leBytes 1 p ++ leBytes 1 old ++ leBytes 1 new ++ leBytes 1 cause) (portFuncs s p)) p cause

/-- A take at VBS. `opening`: the first of a new timing, which applies every held commit (R125); else the latched bits.
`events`: whether VBLANK_START is raised (not at the last VBS of a shut-down, log 80). The VFs' screen regions are taken too (R287). -/
def take (s : State) (p : Nat) (opening events : Bool) : State :=
  let q := portOf s p
  let pend := getN s (K.outCommitPend p)
  let bits := if opening then pend else q.latched
  let s := modPort s p (fun q => { q with
    active := if opening then shadowOver s p pend q.active else setOver q.latched q.captured q.active
    muted := (q.muted - (q.muted &&& bits)) ||| q.muteDue, muteDue := 0
    latched := 0, late := 0, lateOps := 0, after := 0, closed := false
    rows := q.rows.map (fun e => (e.1, { e.2 with held := none }))
    regions := screenRegions s p
    lastTake := s.now, inBlank := true, line := modeH q.runMode, lineTime := s.now, doneSent := q.frame == 0 })
  let s := putN s (K.outCommitPend p) (if opening then 0 else ((pend - (pend &&& q.latched)) ||| q.after))
  let s := kaolinTake (blinkTake s p opening) p opening
  let s := if bits ≠ 0 ∨ opening then recomputeRuns s else s
  let s := applyPlan s p
  let lates := if opening then 0 else q.lateOps
  let s := if events then
      emit s 0 0x0100 p (leBytes 1 p ++ leBytes 1 bits ++ leBytes 1 (if opening then 0 else q.late) ++ leBytes 4 (q.frame + 1))
        (portFuncs s p)
    else s
  let s := if lates = 0 then s
    else
      let s := bumpBy s (K.outCommitLate p) lates
      emit s 1 0x0112 p (leBytes 1 p ++ leBytes 1 q.late ++ leBytes 4 (q.frame + 1)) (portFuncs s p)
  commitTaken s p bits

/-! ## Starting an output (R108, R132) -/

/-- The engine that the spares map assigns to a port, if it can serve (R108). -/
def assignedEngine (s : State) (p : Nat) : Option Nat :=
  let e := servedBy s clsEngine p
  if unitState s clsEngine e = unitInService then some e else none

/-- The domains an output's start needs on: its engine's, its PHY's and the composition's. -/
def startDomains (p e : Nat) : List Nat := [11, engineDomain e, phyDomain p]

/-- The new timing begins at its line VBS with a take (R132 step 4, R134 step 5, R138 step 6). -/
def openTiming (s : State) (p : Nat) : State :=
  let start := outSt s p == outStarting
  let s := modPort s p (fun q => { q with runMode := getN s (K.outMode p), rows := []
                                          phase := if start then .idle else .waitLine0 })
  let s := if start then putN s (K.outState p) outRun else s
  let s := putN s (K.compRows p) (rowsOf (getN s (K.outMode p)))
  take s p true true

/-- Training begins at the least rate that fits (R117, R119), at out.rate.max where none does (log 293); a transition's training
counts (Table SO-2). -/
def beginTraining (s : State) (p : Nat) (count : Bool) : State :=
  let r := leastRate (getN s (K.outKind p)) (getN s (K.outRateMax p)) (modePclk (getN s (K.outMode p))) (getN s (K.outLanes p))
    (getN s (K.outBpc p))
  let s := modPort s p (fun q => { q with trainRate := r.getD (getN s (K.outRateMax p)), retried := false })
  let s := if count then bump s (K.outRetrain p) else s
  putN (putN s (K.outLinkState p) linkTraining) (K.outRate p) 0

/-- The new timing opens, or waits for the spare that a substitution brings (R138). -/
def openOrWait (s : State) (p : Nat) : State :=
  if (portOf s p).spare.isSome then modPort s p (fun q => { q with phase := .waitSpare }) else openTiming s p

/-- A start or a transition trains its link if hot-plug is high, and goes on without where it is low (R119, R132). -/
def trainOrOpen (s : State) (p : Nat) (count : Bool) : State :=
  if (portOf s p).hpd then
    modPort (beginTraining s p count) p (fun q => { q with phase := if count then .trainNew else .trainStart, onTiming := false })
  else openOrWait (putN (putN s (K.outLinkState p) linkDown) (K.outRate p) 0) p

/-- An engine is bound to a port: out.se, and its generation advanced at the admission (R108, R138). -/
def bindEngine (s : State) (p e : Nat) : State :=
  let g := (tget s.engineGen e 0 + 1) % 65536
  let old := getN s (K.outSe p)
  let s := modPort { s with engineGen := tset s.engineGen e g } p (fun q => { q with engine := some e, spare := none })
  tilthEntry (putN (putN s (K.outSe p) e) (K.outSeGen p) g) 7 (if old = 0xFF then 8 else 7) 0 p old e

/-- The output goes OFF at once: link down, no engine, no timing; COMMITs leave it out. -/
def outputOff (s : State) (p : Nat) : State :=
  let s := modPort s p (fun q => { q with
    phase := .idle, engine := none, spare := none, runMode := 0xFF, closed := false, latched := 0, late := 0, lateOps := 0
    after := 0, gap := false, stoppedPos := 0, klatched := false, klate := 0, kafter := false, rows := [], plan := {}, next := {}
    sigBad := [], underLines := [], lateRows := 0, bgRows := 0, onTiming := false, gapTold := false, buf := none, regions := []
    under := [], compared := [] })
  let s := putN (putN (putN s (K.outState p) outOff) (K.outLinkState p) linkDown) (K.outRate p) 0
  let s := putN (putN s (K.outSe p) 0xFF) (K.outSeGen p) 0
  let s := putN (putN s (K.compRows p) 0) (K.compFlatTop p) 0xFF
  let s := foldN (List.range 6) (fun s k => putB (putN (putN s (K.layerPath p k) 0) (K.layerDemand p k) 0) (K.layerHintKept p k) true) s
  let s := putN s (K.compDemand p) 0
  let s := recomputeRuns (commitLeft s p)
  settle (putN s K.compTotal (totalDemand s))

/-- No engine is left for a port: it goes OFF, out.enable is written false, MODE_CHANGE_DONE carries ABANDONED, the health event is raised
(R139). -/
def noEngineLeft (s : State) (p : Nat) : State :=
  let s := outputOff (modPort (writeB s (K.outEnable p) false) p (fun q => { q with noEngine := true })) p
  updateHealth (raiseClass (modeChangeDone s p 2) 0 12)

/-- A waiting start goes on once its domains read ON: the engine is bound and the link trained (R132 steps 1 to 3). -/
def tryStart (s : State) (p : Nat) : State :=
  let q := portOf s p
  match q.engine with
  | none => s
  | some e =>
    if outSt s p = outStarting ∧ q.phase = .waitDomains ∧ allOn s (startDomains p e) then trainOrOpen (bindEngine s p e) p false
    else s

/-- The engine that a start of a port would take: the assigned one, or the lowest-numbered free spare (R139, R140). -/
def startEngine (s : State) (p : Nat) : Option Nat := (assignedEngine s p).or (freeSpares s clsEngine).head?

/-- The engine that a start uses: the assigned one, or the lowest-numbered free spare in the place of one that has been retired, which is
a substitution (R108, R139, R140, R473). -/
def chooseEngine (s : State) (p : Nat) : State × Option Nat :=
  match assignedEngine s p, freeSpares s clsEngine with
  | some e, _ => (s, some e)
  | none, n :: _ =>
    (bump (substitute s clsEngine (servedBy s clsEngine p) n 2 (tget s.engineGen n 0 + 1)) (K.outSeSubst p), some n)
  | none, [] => (s, none)

/-- An output starts (R132): STARTING, the engine chosen, its domains asked for. Where they are on already, step 2 follows at the next
tick, so that a failed self-test of the engine can come first (log 277). -/
def beginStart (s : State) (p : Nat) : State :=
  match chooseEngine s p with
  | (s, e) =>
    let s := modPort s p (fun q => { q with
      phase := .waitDomains, engine := e, spare := none, noEngine := false, shed := false, everTrained := false, linkFailed := false
      cause := 0 })
    let s := putN s (K.outState p) outStarting
    match e with
    | none => noEngineLeft s p
    | some _ => recomputeRuns (settle s)

/-- The start of an output by a write of true: counters and frame number from 0 (R132, R531, Table SO-2). -/
def startOutput (s : State) (p : Nat) : State :=
  let s := [K.outFrames p, K.outUnderrun p, K.outCommitLate p, K.outRetrain p, K.outSeSubst p, K.compRowLate p, K.compRowBg p].foldl
    (fun s k => putN s k 0) s
  beginStart (modPort s p (fun q => { q with frame := 0, stoppedPos := 0 })) p

/-! ## Stopping and changing (R133 to R137) -/

/-- The latched bits go back to waiting: no take comes (R134 step 1). -/
def unlatch (q : Port) : Port :=
  { q with closed := false, latched := 0, late := 0, lateOps := 0, after := 0, klatched := false, klate := 0
           kpend := q.kpend || q.kafter, kafter := false }

/-- A transition begins; the current frame runs to its VBS first (R134). Causes: 0 WRITE, 2 RETRAIN. -/
def beginTransition (s : State) (p cause : Nat) : State :=
  let s := putN s (K.outState p) outChanging
  modPort s p (fun q => { unlatch q with phase := .toVbs, cause := cause, oldMode := q.runMode, linkFailed := false })

/-- The set bits are latched and the shadow they cover is captured (R122, R151). -/
def latchShadow (s : State) (p : Nat) : State :=
  let bits := getN s (K.outCommitPend p)
  modPort s p (fun q => { q with closed := true, latched := bits, captured := shadowOver s p bits q.active
                                 klatched := q.kpend, kcaptured := if q.kpend then kaolinShadow s p else q.kcaptured })

/-- The shut-down of an output begins: its frame runs to VBS; a transition is abandoned (R133, R136). What was committed before is still
taken at that VBS; what is written or committed from now on is held, so the shadow is captured at once (R122, R125, R133). -/
def stopOutput (s : State) (p : Nat) : State :=
  let was := outSt s p
  let running := timingRuns s p
  let s := if was = outRun ∧ !(portOf s p).closed then latchShadow s p else s
  let s := putN s (K.outState p) outStopping
  let s := if was = outChanging then modeChangeDone s p 2 else s
  let s := if running then s else modPort s p (fun q => { q with runMode := 0xFF })
  let s := modPort s p (fun q => { q with phase := .idle, gap := q.gap && running, spare := none })
  settle (recomputeRuns s)

/-- The end of an output's shut-down; a queued enable runs (R48, R133). -/
def finishStop (s : State) (p : Nat) : State :=
  let s := outputOff s p
  if s.transit.contains (K.outEnable p) then
    if anyStopping s (startDomains p ((startEngine s p).getD p)) then s
    else startOutput (resolved s (phyDomain p) (0x2000 + 0x100 * p) 1) p
  else s

/-! ## Substitution (R138, R139) -/

/-- The spare's domain is on: it is bound in the failed engine's place (R138 step 3); a timing that waited for it opens. -/
def trySpare (s : State) (p : Nat) : State :=
  let q := portOf s p
  match q.spare with
  | some e =>
    if domSt s (engineDomain e) = domOn then
      let s := settle (bindEngine s p e)
      if q.phase = .waitSpare then openTiming s p else s
    else s
  | none => s

/-- A spare takes a running or changing port's failed engine's place (R138): a running port shows black from here on; in a start or a
transition the spare is bound when its domain is on, and the timing waits for it. -/
def spareFor (s : State) (p n : Nat) : State :=
  let st := outSt s p
  if st = outStarting ∧ (portOf s p).phase = .waitDomains then settle (modPort s p (fun q => { q with engine := some n }))
  else
    let s := if st = outRun then
        let m := (portOf s p).runMode
        modeChangeBegin (modPort (putN s (K.outState p) outChanging) p (fun q =>
          { unlatch q with phase := .black 2, cause := 1, oldMode := q.runMode, linkFailed := false })) p m m 1
      else s
    trySpare (settle (modPort s p (fun q => { q with spare := some n }))) p

/-- A lasting fault of an engine, with the spares that pass their self-test (R138, R139, R473). An engine that drives no port, or one that
is shutting down, is retired without a substitution: the next enable takes a spare. Where the spare's domain is claimed and its owner
does not power it, the trusted world is told and the port is OFF meanwhile (R475), unless its plane claims the domain (R164). -/
def engineLost (s : State) (e : Nat) (passing : Nat → Bool) : State :=
  match (List.range 8).find? (fun p => (portOf s p).engine == some e || (portOf s p).spare == some e) with
  | none => retireUnit s clsEngine e 2
  | some p =>
    if outSt s p = outStopping then retireUnit s clsEngine e 2
    else
      match trySpares s clsEngine 1 passing (freeSpares s clsEngine) with
      | (s, none) => noEngineLeft (retireUnit s clsEngine e 2) p
      | (s, some n) =>
        let d := engineDomain n
        let s := bump (substitute s clsEngine e n 2 (tget s.engineGen n 0 + 1)) (K.outSeSubst p)
        if domainWithheld s d && !kaolinOn s p then
          noEngineLeft (interruptTw s intGrog) p
        else spareFor s p n

/-! ## The commands of the raster -/

/-- CLOSE_POINT: the set bits are latched and the shadow they cover captured (R122). -/
def closePoint (s : State) (p : Nat) : State :=
  let q := portOf s p
  if outSt s p = outRun ∧ q.phase = .idle ∧ !q.closed ∧ !q.inBlank then latchShadow s p else s

/-- CLOSE_POINT (R122). -/
def execClosePoint (p : Fin 8) (s : State) : Host.Outcome State Fault Refusal := .next (closePoint s p)

/-- A VBS without a take: that of black frames and of the frame before them, whose counts no FRAME_DONE carries (R129). -/
def vbsMark (s : State) (p : Nat) : State :=
  modPort s p (fun q => { q with inBlank := true, line := modeH q.runMode, lineTime := s.now, doneSent := true
                                 underLines := [], lateRows := 0, bgRows := 0 })

/-- The timing of a port stops where it is (R531). -/
def stopTiming (s : State) (p : Nat) : State :=
  modPort s p (fun q => { q with stoppedPos := modeH q.runMode + 65536 * (q.frame % 65536), runMode := 0xFF })

/-- The timing stops for the new one, or, where a spare is not yet bound, black goes on (R134 step 4, R138 step 5). -/
def endBlack (s : State) (p : Nat) : State :=
  let q := portOf s p
  if q.cause = 1 then (if q.spare.isSome then vbsMark s p else openTiming (vbsMark s p) p)
  else trainOrOpen (modPort (vbsMark s p) p (fun q => { q with stoppedPos := modeH q.runMode + 65536 * (q.frame % 65536) })) p true

/-- VBS by state: a take in RUN; the start, count and end of black frames in a transition; the last VBS of a shut-down. The poisoned
words that the frame met are counted, where it was not black (R102). -/
def vbs (s : State) (p : Nat) : State :=
  let q := portOf s p
  let s := if !timingRuns s p || q.inBlank || q.gap then s else scanPoison s p
  if !timingRuns s p || q.inBlank then s
  else if outSt s p = outRun then
    let s := if q.closed then s else closePoint s p
    take s p false true
  else if outSt s p = outStopping then
    let s := if q.gap then s else take s p false false
    stopTiming (modPort s p (fun q => { q with gap := false })) p
  else
    match q.phase with
    | .toVbs => modeChangeBegin (modPort (vbsMark s p) p (fun q => { q with phase := .black 2 })) p q.oldMode (getN s (K.outMode p)) q.cause
    | .black n => if 1 < n then modPort (vbsMark s p) p (fun q => { q with phase := .black (n - 1) }) else endBlack s p
    | _ => s

/-- The first telltale of a port: line 0 of the first frame that shows the plane with the link UP (R449). -/
def firstTelltale (s : State) (p : Nat) : State :=
  if getN s K.pwrTtFirst = 0 ∧ kaolinOn s p ∧ !(portOf s p).gap ∧ getN s (K.outLinkState p) = linkUp then
    putN s K.pwrTtFirst ((s.now - s.power.start) / 1000)
  else s

/-- Line 0 of a frame: the frame number advances; after an opening take of a transition or substitution the output runs (R531,
R134 step 6). -/
def frameStart (s : State) (p : Nat) : State :=
  let q := portOf s p
  if !timingRuns s p || !q.inBlank then s
  else
    let s := modPort s p (fun q => { q with frame := q.frame + 1, inBlank := false, line := 0, lineTime := s.now, matched := false
                                            doneSent := true, frameAt := s.now, under := [], compared := [] })
    let s := bump s (K.outFrames p)
    if q.phase = .waitLine0 then
      let s := putN (modPort s p (fun q => { q with phase := .idle })) (K.outState p) outRun
      let s := modeChangeDone s p (b2n (portOf s p).linkFailed)
      let s := firstTelltale (gapEnd s p) p
      if (portOf s p).hpd && getN s (K.outLinkState p) == linkDown then beginTransition s p 2 else s
    else firstTelltale s p

/-- FRAME_START (R531). -/
def execFrameStart (p : Fin 8) (s : State) : Host.Outcome State Fault Refusal := .next (frameStart s p)

/-- Whether the timing events are raised: in RUN, and from the opening take on (R129). -/
def eventsOn (s : State) (p : Nat) : Bool := outSt s p == outRun || (outSt s p == outChanging && (portOf s p).phase == .waitLine0)

/-- LINE_MATCH, once a frame, at a line that the running mode has (R129, R130). -/
def execLineMatch (p : Fin 8) (s : State) : Host.Outcome State Fault Refusal :=
  let m := getN s (K.outLineMatch p)
  let q := portOf s p
  if eventsOn s p ∧ timingRuns s p ∧ m < modeVtotal q.runMode ∧ !q.matched then
    .next (emit (modPort s p (fun q => { q with matched := true, line := m, lineTime := s.now })) 0 0x0101 p
      (leBytes 1 p ++ leBytes 2 m ++ leBytes 4 q.frame) (portFuncs s p))
  else .next s

/-- FRAME_DONE at line VBS + 1: the frame's underrun lines, late rows and background rows (R129). -/
def execFrameDone (p : Fin 8) (s : State) : Host.Outcome State Fault Refusal :=
  let q := portOf s p
  if eventsOn s p ∧ timingRuns s p ∧ q.inBlank ∧ !q.doneSent then
    let s := emit s 0 0x0102 p (leBytes 1 p ++ leBytes 4 q.frame ++ leBytes 2 q.underLines.length ++ leBytes 1 q.lateRows
      ++ leBytes 1 q.bgRows) (portFuncs s p)
    .next (modPort s p (fun q => { q with doneSent := true, underLines := [], lateRows := 0, bgRows := 0
                                          line := modeH q.runMode + 1, lineTime := s.now }))
  else .next s

/-- Whether a port fetches a stream: a layer on the direct path, or the compose buffer of a run (R109). -/
def fetches (q : Port) (stream : Nat) : Bool := if stream = 6 then q.plan.top.isSome else q.plan.path.getD stream 0 == 1

/-- UNDERRUN of a stream in a line of a frame that is not black: it is transparent from the late pixel to the end of the line; the line is
counted once, the event raised once a frame (R131). -/
def execUnderrun (p : Fin 8) (line : BitVec 16) (stream : Fin 7) (pixel : BitVec 16) (s : State) : Host.Outcome State Fault Refusal :=
  let q := portOf s p
  if timingRuns s p ∧ !q.gap ∧ !q.inBlank ∧ line.toNat < modeH q.runMode ∧ fetches q stream then
    let s := modPort s p (fun q => { q with under := (line.toNat, stream.val, pixel.toNat) :: q.under })
    if q.underLines.contains line.toNat then .next s
    else
      let s1 := bump (modPort s p (fun q => { q with underLines := line.toNat :: q.underLines })) (K.outUnderrun p)
      if q.underLines.isEmpty then
        .next (emit s1 1 0x0110 p (leBytes 1 p ++ leBytes 2 line.toNat ++ leBytes 1 stream ++ leBytes 4 q.frame) (portFuncs s p))
      else .next s1
  else .next s

/-- OUTPUT_STOP_DONE: the shut-down ends once the timing has stopped (R133). -/
def execOutputStopDone (p : Fin 8) (s : State) : Host.Outcome State Fault Refusal :=
  if outSt s p = outStopping ∧ (portOf s p).runMode = 0xFF then .next (finishStop s p) else .next s

/-! ## The link (R119, R120) -/

/-- The next higher rate that out.kind has, up to out.rate.max. -/
def nextRate (s : State) (p r : Nat) : Option Nat :=
  (laneRates (getN s (K.outKind p))).find? (fun x => decide (r < x ∧ x ≤ getN s (K.outRateMax p)))

/-- A training attempt ends (R119). -/
def trainingDone (s : State) (p : Nat) (ok : Bool) (edid : List Byte) : State :=
  let q := portOf s p
  let opens := q.phase == .trainStart || q.phase == .trainNew
  if getN s (K.outLinkState p) ≠ linkTraining then s
  else if ok then
    let s := putV (putN (putN s (K.outLinkState p) linkUp) (K.outRate p) q.trainRate) (K.outEdid p) (.bytes edid)
    let s := if q.onTiming then bump s (K.outRetrain p) else s
    let s := modPort s p (fun q => { q with everTrained := true, onTiming := false, linkFailed := false })
    if opens then openOrWait s p else s
  else if !q.retried then modPort s p (fun q => { q with retried := true })
  else match nextRate s p q.trainRate with
    | some r => modPort s p (fun q => { q with trainRate := r, retried := false })
    | none =>
      let s := putN (putN s (K.outLinkState p) linkFailedSt) (K.outRate p) 0
      let s := modPort s p (fun q => { q with retryAt := s.now + 1000000000, onTiming := false, linkFailed := true })
      if opens then openOrWait s p else s

/-- LINK_TRAINING_DONE (R119, R132, R134). -/
def execLinkTrainingDone (p : Fin 8) (ok : Bool) (edid : List Byte) (s : State) : Host.Outcome State Fault Refusal :=
  .next (trainingDone s p ok edid)

/-- LINK_RETRY_TIMER: a FAILED link with hot-plug high is tried again every 1 s, on the running timing (R119). -/
def execLinkRetryTimer (p : Fin 8) (s : State) : Host.Outcome State Fault Refusal :=
  let q := portOf s p
  if getN s (K.outLinkState p) = linkFailedSt ∧ q.hpd ∧ q.retryAt ≤ s.now ∧ timingRuns s p then
    .next (modPort (beginTraining s p false) p (fun q => { q with onTiming := true }))
  else .next s

/-- HPD_RISE: a running port whose link reads DOWN goes through a transition with cause RETRAIN (R120, R496). -/
def execHpdRise (p : Fin 8) (s : State) : Host.Outcome State Fault Refusal :=
  let s := modPort s p (fun q => { q with hpd := true })
  if outSt s p = outRun ∧ getN s (K.outLinkState p) = linkDown then .next (beginTransition s p 2) else .next s

/-- The link is lost: it reads DOWN, and a training in progress ends without one (R119, R120). -/
def linkLost (s : State) (p : Nat) : State :=
  let q := portOf s p
  let s := putN (putN (modPort s p (fun q => { q with onTiming := false })) (K.outLinkState p) linkDown) (K.outRate p) 0
  if q.phase = .trainStart ∨ q.phase = .trainNew then openOrWait s p else s

/-- Whether a port uses a main-link lane: the lowest out.lanes lanes; the others are held in electrical idle (R495). -/
def laneUsed (s : State) (p l : Nat) : Bool := decide (l < getN s (K.outLanes p))

/-- HPD_FALL: the sink drops hot-plug detect, or, with it high, reports loss of lock (R120). A pulse shorter than 2 ms is a sink interrupt
(Table EL-4): without a report of lost lock it changes nothing. -/
def execHpdFall (p : Fin 8) (pulseUs : Nat) (lockLost : Bool) (s : State) : Host.Outcome State Fault Refusal :=
  if 2000 ≤ pulseUs then .next (linkLost (modPort s p (fun q => { q with hpd := false })) p)
  else if lockLost ∧ (portOf s p).hpd ∧ outSt s p ≠ outOff then .next (linkLost s p)
  else .next s

/-- ENGINE_FAULT: a fault whose retry passes is transient; a lasting one substitutes a spare (R10, R138, R139). -/
def execEngineFault (e : Fin 9) (retryPasses : Bool) (sparePasses : List (Fin 9)) (s : State) : Host.Outcome State Fault Refusal :=
  if retryPasses ∨ unitState s clsEngine e ≠ unitInService then .next s
  else .next (engineLost s e (fun n => sparePasses.any (fun x => x.val == n)))

/-! ## LAYER_SET and COMMIT (R127, R128) -/

/-- LAYER_SET: all selected fields or none, and a commit on the port if flagged (R127). -/
def execLayerSet (h : CmdHdr) (y : LayerSetPayload) (s : State) : Host.Outcome State Fault Refusal :=
  match beginCmd s h 0x30 y.bytes false with
  | (s, none) => .next s
  | (s, some t) =>
    match droppedBy s t with
    | some s => .next s
    | none =>
      if !layerSetOk s t.func y.port.toNat y.layer.toNat h.surface.toNat y then .next (completeOpen s t 3)
      else
        let s := layerSetApply s y.port.toNat y.layer.toNat h.surface.toNat y
        let s := if bitOf y.flags.toNat 0 then commitBits s y.port.toNat (commitMask s t.func y.port.toNat (isPf t.func)) else s
        .next (completeOpen s t 0)

/-- What a COMMIT waits for on one port: nothing on a port that is off or stopping; bits set after a close point at VBS wait
for the second take from now. -/
def commitWait (s : State) (f p : Nat) : Option (Nat × Nat × Bool) :=
  let bits := commitMask s f p (isPf f)
  let q := portOf s p
  if outSt s p = outOff ∨ outSt s p = outStopping then none
  else if q.closed ∧ !modeLarge q.runMode then some (p, 256 * bits, false)
  else some (p, bits, commitLate s p bits)

/-- COMMIT: the bits are set on every named port; the completion waits for the last take (R128). A port on which it covers no bits
is on time at once (log 290). A port that serves a spread takes none (R420). -/
def execCommit (h : CmdHdr) (ports : BitVec 8) (s : State) : Host.Outcome State Fault Refusal :=
  match beginCmd s h 0x31 (commitBytes ports) false with
  | (s, none) => .next s
  | (s, some t) =>
    match droppedBy s t with
    | some s => .next s
    | none =>
      let ps := numbers 8 (fun p => bitOf ports.toNat p)
      if ps.any (fun p => layerOwner s p 0 == 0xFD) then .next (completeOpen s t 3)
      else
      let ws := ps.filterMap (commitWait s t.func)
      let now := ws.filter (fun w => w.2.1 == 0)
      let low := ps.headD 0
      let c : PendingCommit := { ticket := t, waits := ws.filter (fun w => w.2.1 != 0)
                                 onTime := now.foldl (fun m w => setBit m w.1) 0, lateMask := 0, lowest := low
                                 frame := (portOf s low).frame + 1 }
      let s := foldN ps (fun s p => commitBits s p (commitMask s t.func p (isPf t.func))) s
      .next (answerCommits { s with commits := s.commits ++ [c] })

/-! ## The Kaolin commands that need no dictionary -/

/-- The earliest instant that a frame under way began; now, where none is. -/
def oldestFrame (s : State) : Nat :=
  (List.range 8).foldl (fun t p => if timingRuns s p && !(portOf s p).inBlank then min t (portOf s p).frameAt else t) s.now

/-- KAOLIN_SRAM_WRITE: the trusted world writes Kaolin SRAM directly; beyond its 2 MiB there is nothing (R141, R143). What it replaces is
kept for the lines that frames under way have fetched before. A write while PD11 is not on reaches no SRAM. -/
def execKaolinSramWrite (addr : Nat) (data : List Byte) (s : State) : Host.Outcome State Fault Refusal :=
  if 0x200000 < addr + data.length then .fault .kaolinAddress
  else if domSt s 11 = domOn ∨ domSt s 11 = domStopping then
    .next { s with kram := memSetAll s.kram addr data
                   kold := (s.now, addr, (List.range data.length).map (fun i => memGet s.kram (addr + i)))
                     :: s.kold.filter (fun e => decide (oldestFrame s ≤ e.1)) }
  else .next s

/-- SIG_COMPARE: once a frame, at the rectangle's comparison line, which at VBS comes before the take, the value seen, or the computed
signature where nothing disturbed the pixels, is compared (R157). -/
def execSigCompare (p : Fin 8) (r : Fin 32) (seen : Option (BitVec 32)) (s : State) : Host.Outcome State Fault Refusal :=
  let q := portOf s p
  let x := q.kactive.rects.getD r {}
  if timingRuns s p ∧ !q.gap ∧ q.kactive.enable ∧ x.enable ∧ x.mode ≠ 0 ∧ !q.inBlank ∧ !q.compared.contains r.val
      ∧ q.line ≤ compareLine q r then
    let s' := modPort s p (fun q => { q with compared := r.val :: q.compared, line := compareLine q r, lineTime := s.now })
    .next (compareSig s' p r (seen.getD (signature s p r)))
  else .next s

end Sys2Proof.Machine
end

