-- ==== Sys2Proof/Machine/Sessions.lean ====
section
/-!
DEFINITION. Dictionary sessions (R25, R27 to R30, R528): slots, identifiers, carriers, leases and their end.
-/

namespace Sys2Proof.Machine

/-- The identifier of an open session: slot in [5:0], generation in [15:6]. -/
def sessId (s : State) (i : Nat) : Nat := i + 64 * (sessOf s i).gen

/-- The slot that an identifier names, if that session is open. -/
def slotOfId (s : State) (id : Nat) : Option Nat :=
  let i := id % 64
  if i < 48 ∧ (sessOf s i).isOpen ∧ sessId s i = id ∧ id ≠ 0 then some i else none

/-- The next generation of a slot: 1 to 1023, then 1 again. -/
def nextSessGen (g : Nat) : Nat := if g ≥ 1023 then 1 else g + 1

/-- The open sessions' slots. -/
def openSlots (s : State) : List Nat := (s.sess.filter (fun e => e.2.isOpen)).map (·.1)

/-- Ends a session: the slot is free, and nothing of the session is kept (R29). -/
def closeSession (s : State) (i : Nat) : State :=
  if (sessOf s i).isOpen then
    { s with sess := tset s.sess i { gen := (sessOf s i).gen }, freeSlots := s.freeSlots ++ [i] }
  else s

/-- Ends every session that satisfies a condition. -/
def closeWhere (s : State) (p : Session → Bool) : State :=
  foldN ((s.sess.filter (fun e => e.2.isOpen && p e.2)).map (·.1)) closeSession s

/-- Whether two carriers are the same one (R528): of the UDP transports the address and port decide, on whichever network. -/
def sameCarrier : Carrier → Carrier → Bool
  | .portal f, .portal g => f == g
  | .udp _ a p, .udp _ b q => a == b && p == q
  | .can, .can => true
  | .relay a _, .relay b _ => a == b
  | _, _ => false

/-- The transport code of a carrier (Table DI-15). -/
def transportCode : Carrier → Nat
  | .portal f => if f.val = 64 then 2 else 1
  | .udp n _ _ => 3 + n.val
  | .can => 6
  | .relay _ _ => 7

/-- The entries of net.mgr.allow as (family, address) pairs; none where the string is not well formed (R529). -/
def allowEntries : Nat → List Byte → Option (List (Nat × List Byte))
  | _, [] => some []
  | 0, _ => none
  | n + 1, f :: r =>
    let k := if f = 4 then 4 else if f = 6 then 16 else 0
    if k = 0 ∨ r.length < k then none
    else (allowEntries n (r.drop k)).map (fun l => (f.toNat, r.take k) :: l)

/-- The role of a carrier (R25, R418): a UDP client is MGR where its address equals an entry of net.mgr.allow (R529). -/
def roleOf (s : State) : Carrier → Role
  | .portal f => if isPf f.val then .mgr else .vf
  | .udp _ a _ =>
    let fam := if a.length = 4 then 4 else 6
    match allowEntries 17 (getBytes s (objKey 0x1200 3)) with
    | some l => if l.contains (fam, a) then .mgr else .obs
    | none => .obs
  | .can => .sb
  | .relay _ mgr => if mgr && getB s K.fabDictMgr then .mgr else .obs

/-- The module function of a carrier, 65 where it has none. -/
def funcOfCarrier : Carrier → Nat
  | .portal f => f.val
  | _ => 65

end Sys2Proof.Machine
end

