-- ==== Sys2Proof/Machine/Fabric.lean ====
section
/-!
DEFINITION. The Agken fabric (R402 to R416, R419 to R431): links and lanes, packets, topology records, addresses, routes, fabric
time, spread outputs, and the meanings of their commands.
-/

namespace Sys2Proof.Machine

/-- link.state codes (Table AF-1). -/
def lnkDown : Nat := 0
def lnkTraining : Nat := 1
def lnkUp : Nat := 2
def lnkDegraded : Nat := 3
def lnkFailed : Nat := 4
def lnkHeld : Nat := 5

/-- fab.state codes (Table AF-4). -/
def fabOff : Nat := 0
def fabDiscovering : Nat := 1
def fabRun : Nat := 2
def fabAlone : Nat := 3
def fabExcluded : Nat := 4

/-- The record of a link. -/
def linkOf (s : State) (l : Nat) : LinkSt := tget s.fab.links l {}

/-- Changes the record of a link. -/
def modLink (s : State) (l : Nat) (g : LinkSt → LinkSt) : State :=
  { s with fab := { s.fab with links := tset s.fab.links l (g (linkOf s l)) } }

/-- Changes the fabric record. -/
def modFab (s : State) (g : Fab → Fab) : State := { s with fab := g s.fab }

/-- The state of a link. -/
def lnkSt (s : State) (l : Nat) : Nat := getN s (K.linkState l)

/-- Whether a link carries packets: UP or DEGRADED, or in a retrain, through which it is kept (R404). -/
def linkCarries (s : State) (l : Nat) : Bool :=
  lnkSt s l == lnkUp || lnkSt s l == lnkDegraded || (lnkSt s l == lnkTraining && (linkOf s l).retrain)

/-- Sets a link's state and lanes, with the event LINK_STATE at a change (Table AF-10). -/
def setLink (s : State) (l st lanes : Nat) : State :=
  let old := lnkSt s l
  let s := putN (putN s (K.linkState l) st) (K.linkLanes l) lanes
  if old = st then s else updateHealth (emit s 11 0x0B02 l (leBytes 1 l ++ leBytes 1 st ++ leBytes 1 lanes) [])

/-! ## Topology and routes (R408 to R414) -/

/-- The links of a module by serial: its own live ones, or those of its record, as (partner serial, link, lanes). -/
def linksOf (s : State) (a : Nat) : List (Nat × Nat × Nat) :=
  if a = ownSerial then
    ((List.range 4).filter (fun l => linkCarries s l && getN s (K.linkPartner l) != 0)).map
      (fun l => (getN s (K.linkPartner l), l, getN s (K.linkLanes l)))
  else match s.fab.records.find? (fun r => r.serial.toNat == a) with
    | some r => r.links.map (fun e => (e.1.toNat, e.2.1, e.2.2))
    | none => []

/-- The node address that a module's record holds; 0xFF for none. -/
def addrOf (s : State) (a : Nat) : Nat :=
  if a = ownSerial then getN s K.fabAddr
  else match s.fab.records.find? (fun r => r.serial.toNat == a) with
    | some r => r.addr.toNat
    | none => 0xFF

/-- The fewest hops to a module, searching outwards from a set of modules. -/
def hopsTo (s : State) (target : Nat) : Nat → List Nat → List Nat → Nat → Option Nat
  | 0, _, _, _ => none
  | n + 1, cur, seen, d =>
    if cur.contains target then some d
    else
      let next := ((cur.flatMap (fun a => (linksOf s a).map (·.1))).dedup).filter (fun a => !seen.contains a)
      if next.isEmpty then none else hopsTo s target n next (seen ++ next) (d + 1)

/-- The hops from one module to another, if there is a path. -/
def hops (s : State) (a b : Nat) : Option Nat := hopsTo s b 70 [a] [a] 0

/-- A module's first choice for a destination: partner, link and hops (R413). Ties go to the neighbour with the lower address,
then to the lower link number. -/
def firstChoice (s : State) (a b : Nat) : Option (Nat × Nat × Nat) :=
  ((linksOf s a).filterMap (fun e => (hops s e.1 b).map (fun h => (e.1, e.2.1, h + 1)))).foldl
    (fun (m : Option (Nat × Nat × Nat)) e =>
      match m with
      | none => some e
      | some x =>
        let less := e.2.2 < x.2.2 ∨ (e.2.2 = x.2.2 ∧ (addrOf s e.1 < addrOf s x.1 ∨ (addrOf s e.1 = addrOf s x.1 ∧ e.2.1 < x.2.1)))
        if less then some e else some x) none

/-- The modules on the path of first choices. -/
def pathOf (s : State) (b : Nat) : Nat → Nat → List Nat
  | 0, _ => []
  | n + 1, a => if a = b then [b] else
    match firstChoice s a b with
    | some e => a :: pathOf s b n e.1
    | none => []

/-- The modules that can be reached, this one included. -/
def reachableSerials (s : State) : List Nat :=
  ownSerial :: ((s.fab.records.map (·.serial.toNat)).filter (fun a => a != ownSerial && (hops s ownSerial a).isSome))

/-- Whether a module can be reached: it is this one, or it holds an address in the routing table. -/
def moduleReachable (s : State) (serial : Nat) : Bool :=
  serial == ownSerial || (List.range 64).any (fun a => getN s (K.fabNodeSerial a) == serial && getN s (K.fabRoute a) != 0xFF)

/-- Computes the routing table (R413, R414, Table AF-5). -/
def computeRoutes (s : State) : State :=
  let ms := (reachableSerials s).map (fun m => (m, addrOf s m))
  let s := foldN (List.range 64) (fun s a =>
    let v := match ms.find? (fun m => m.2 == a) with
      | none => 0xFF
      | some (m, _) => if m = ownSerial then 7 else
        match firstChoice s ownSerial m with
        | some e => e.2.1 + 8 * min e.2.2 31
        | none => 0xFF
    putN s (K.fabRoute a) v) s
  putN s K.fabRouteGen (getN s K.fabTopoGen)

/-- The topology has changed: its generation advances, the own record is flooded anew, routes follow, discovery runs (R408, R412,
R414). A module without a link up reads ALONE, and takes an address if it holds none (R410). -/
def topologyChanged (s : State) : State :=
  let s := putN s K.fabTopoGen ((getN s K.fabTopoGen + 1) % 2 ^ 32)
  let s := modFab s (fun f => { f with seq := (f.seq + 1) % 2 ^ 32, lastRec := s.now })
  let s :=
    if (List.range 4).any (linkCarries s) then putN s K.fabState fabDiscovering
    else
      let want := getN s K.fabAddrWant
      let s := if getN s K.fabAddr = 0xFF then putN s K.fabAddr (if want = 0xFF then 0 else want) else s
      putN (modFab s (fun f => { f with records := [], offset := 0, lastAddr := getN s K.fabAddr })) K.fabState fabAlone
  computeRoutes s

/-- PD05 is off: the links go DOWN and the fabric is off. -/
def fabricCut (s : State) : State :=
  let s := foldN (List.range 4) (fun s l =>
    let s := if linkCarries s l then bump s (K.linkDowns l) else s
    let s := setLink (modLink s l (fun _ => {})) l lnkDown 0
    putN (putN (putN s (K.linkPartner l) 0) (K.linkPartnerAddr l) 0xFF) (K.linkPartnerLink l) 0xFF) s
  let s := modFab s (fun f => { f with records := [], offset := 0 })
  let s := foldN (List.range 64) (fun s a => putN s (K.fabNodeSerial a) 0) (putN s K.fabNodes 0)
  let s := putN (putN s K.fabRootSerial 0) K.fabRoot 0xFF
  computeRoutes (putN (putN s K.fabState fabOff) K.fabAddr 0xFF)

/-- A link's queued enable runs once PD05 is no longer shutting down (R48, R439). -/
def linkQueued (s : State) (l : Nat) : State :=
  if s.transit.contains (K.linkEnable l) && !anyStopping s [5] then resolved s 5 (0x9010 + l) 1 else s

/-! ## Addresses (R409, R411, R412) -/

/-- The pairs (serial, address) after the conflict rule and the grants of R409. Another module's preferred and previous address
are not in its record: which free address it gets is a free value. -/
def grantAddresses (s : State) (ms : List Nat) : List (Nat × Nat) :=
  let sorted := ms.insertionSort (· ≤ ·)
  let kept := sorted.foldl (fun (t : List (Nat × Nat)) m =>
    let a := addrOf s m
    if a = 0xFF ∨ t.any (fun e => e.2 == a) then t else t ++ [(m, a)]) []
  (sorted.filter (fun m => !kept.any (fun e => e.1 == m))).foldl (fun t m =>
    let free := (List.range 64).filter (fun a => !t.any (fun e => e.2 == a))
    if free.isEmpty then t
    else
      let own := if free.contains (getN s K.fabAddrWant) then getN s K.fabAddrWant
        else if free.contains (getN s K.fabAddrPrev) then getN s K.fabAddrPrev else free.headD 0
      let other := free.getD (Config.freeNat (s.fresh + m) % free.length) 0
      t ++ [(m, if m = ownSerial then own else other)]) kept

/-- FAB_JOIN and FAB_LEAVE for the difference of two address tables (Table AF-10). -/
def nodeEvents (s : State) (old new : List (Nat × Nat)) : State :=
  let s := (old.filter (fun e => !new.contains e)).foldl (fun s e =>
    emit s 11 0x0B01 e.2 (leBytes 1 e.2 ++ leBytes 8 e.1) []) s
  (new.filter (fun e => !old.contains e)).foldl (fun s e => emit s 11 0x0B00 e.2 (leBytes 1 e.2 ++ leBytes 8 e.1) []) s

/-- FABRIC_STABLE's effect: root, addresses, tables, events. -/
def settleFabric (s : State) : State :=
  let ms := reachableSerials s
  let old := ((List.range 64).map (fun a => (getN s (K.fabNodeSerial a), a))).filter (fun e => e.1 != 0)
  let s := modFab s (fun f => { f with records := f.records.filter (fun r => ms.contains r.serial.toNat) })
  let new := grantAddresses s ms
  let s := { s with fresh := s.fresh + 1 }
  let s := modFab s (fun f => { f with records := f.records.map (fun r =>
    { r with addr := BitVec.ofNat 8 (((new.find? (fun e => e.1 == r.serial.toNat)).map (·.2)).getD 0xFF) }) })
  let own := ((new.find? (fun e => e.1 == ownSerial)).map (·.2)).getD 0xFF
  let was := getN s K.fabAddr
  let s := putN s K.fabAddr own
  let s := if was ≠ 0xFF ∧ own ≠ was then
      closeWhere (emit s 11 0x0B05 own (leBytes 1 was ++ leBytes 1 own) [])
        (fun x => match x.src with | some (.relay _ _) => true | _ => false)
    else s
  let s := modFab s (fun f => { f with lastAddr := if own = 0xFF then f.lastAddr else own })
  let s := foldN (List.range 64) (fun s a =>
    putN s (K.fabNodeSerial a) (((new.find? (fun e => e.2 == a)).map (·.1)).getD 0)) s
  let s := putN s K.fabNodes new.length
  let s := putN s K.fabState (if own = 0xFF then fabExcluded else fabRun)
  let s := foldN (List.range 4) (fun s l => if linkCarries s l then putN s (K.linkPartnerAddr l) (addrOf s (getN s (K.linkPartner l))) else s) s
  let root := ms.foldl min ownSerial
  let oldRoot := getN s K.fabRootSerial
  let s := putN (putN s K.fabRootSerial root) K.fabRoot (addrOf s root)
  let s := if oldRoot ≠ 0 ∧ oldRoot ≠ root then emit s 11 0x0B04 root (leBytes 1 (addrOf s root) ++ leBytes 8 root) [] else s
  computeRoutes (nodeEvents s old new)

/-- A module without a link up settles at once, and reads ALONE (R410). -/
def settleAlone (s : State) : State :=
  if getN s K.fabState = fabAlone then putN (settleFabric s) K.fabState fabAlone else s

/-- PD05 is on: the fabric starts alone. -/
def fabricOn (s : State) : State :=
  if getN s K.fabState = fabOff then settleAlone (topologyChanged (putN s K.fabAddrPrev s.fab.lastAddr)) else s

/-- A link falls to DOWN (R405, R457): three falls within 10 s make it HELD. The packets that its partner has not acknowledged are lost
(R407, log 280). -/
def linkFalls (s : State) (l : Nat) : State :=
  let falls := (s.now :: (linkOf s l).falls).filter (fun t => s.now < t + 10000000000)
  let held := decide (3 ≤ falls.length)
  let s := bumpBy s K.fabDrop ((linkOf s l).out.length + (linkOf s l).wait.length)
  let s := bump (modLink s l (fun x => { x with falls := if held then [] else falls, heldUntil := s.now + 10000000000
                                                retrain := false, out := [], wait := [], spent := List.replicate 4 0, dict := 0, surf := 0 }))
    (K.linkDowns l)
  let s := setLink s l lnkDown 0
  let s := if held then setLink s l lnkHeld 0 else s
  settleAlone (topologyChanged (putN (putN (putN s (K.linkPartner l) 0) (K.linkPartnerAddr l) 0xFF) (K.linkPartnerLink l) 0xFF))

/-! ## Commands of links -/

/-- LINK_BRING_UP: with PD05 on, link.enable true and a partner answering, a DOWN link trains (R403). -/
def execLinkBringUp (l : Fin 4) (s : State) : Host.Outcome State Fault Refusal :=
  if domSt s 5 = domOn ∧ getB s (K.linkEnable l) ∧ lnkSt s l = lnkDown then .next (setLink s l lnkTraining 0) else .next s

/-- The lanes that a link may use: its first four without those retired, with lane 4 where it has replaced one. -/
def linkLanesOf (s : State) (l : Nat) : List Nat :=
  (List.range 5).filter (fun i => unitState s clsLane (i + 256 * l) == unitInService)

/-- Lanes of a link that failed twice are replaced by lane 4 while it is spare and good; the others are retired (R403). -/
def spareLanes (s : State) (l : Nat) (good : List Nat) : State :=
  ((linkLanesOf s l).filter (fun i => !good.contains i)).foldl (fun s i =>
    let u := i + 256 * l
    let x := 4 + 256 * l
    if unitState s clsLane x = unitSpare then
      if good.contains 4 then
        let g := (getN s (K.linkGen l) + 1) % 65536
        putN (putN (substitute s clsLane u x 3 g) (K.linkGen l) g) (K.linkSpare l) i
      else retireUnit (failSpare s clsLane x 3) clsLane u 3
    else retireUnit s clsLane u 3) s

/-- LANE_TRAINING_DONE: lasting lane faults are spared, and the good lanes decide the link's state (R403); after a retrain
LINK_RETRAIN is raised (R404). A reversed lane order and inverted pairs are what the training found, and the link corrects them (R497). -/
def execLaneTrainingDone (l : Fin 4) (good : List (Fin 5)) (reversed : Bool) (inverted : List (Fin 5)) (s : State) : Host.Outcome State Fault Refusal :=
  if lnkSt s l ≠ lnkTraining then .next s
  else
    let g := good.map (·.val)
    let before := getN s (K.linkSpare l)
    let again := (linkOf s l).retrain
    let s := spareLanes s l g
    let n := ((linkLanesOf s l).filter (g.contains ·)).length
    let s := if again then
        let spared := getN s (K.linkSpare l)
        emit s 11 0x0B03 l (leBytes 1 l ++ leBytes 1 (if spared = before then 0xFF else spared)) []
      else s
    let s := modLink s l (fun x => { x with retrain := false, rxAt := s.now, retryAt := s.now + 1000000000
                                            reversed := reversed, inverted := inverted.map (·.val)
                                            upAt := if again then x.upAt else s.now
                                            sent := if again then x.sent else List.replicate 4 0 })
    let s := if 4 ≤ n then setLink s l lnkUp 4 else if 2 ≤ n then setLink s l lnkDegraded 2 else setLink s l lnkFailed 0
    .next (if again ∧ n < 2 then topologyChanged s else s)

/-- LINK_FAILED_RETRY: a FAILED link is tried again every 1 s (R403). -/
def execLinkFailedRetry (l : Fin 4) (s : State) : Host.Outcome State Fault Refusal :=
  if lnkSt s l = lnkFailed ∧ (linkOf s l).retryAt ≤ s.now ∧ domSt s 5 = domOn then .next (setLink s l lnkTraining 0) else .next s

/-- LINK_HOLD_EXPIRY: a HELD link may be brought up again (R405). -/
def execLinkHoldExpiry (l : Fin 4) (s : State) : Host.Outcome State Fault Refusal :=
  if lnkSt s l = lnkHeld ∧ (linkOf s l).heldUntil ≤ s.now then .next (setLink s l lnkDown 0) else .next s

/-! ## Packets (R404, R406, R413, R414) -/

/-- The size of a packet on the wire: header, payload, CRC. -/
def packetSize (p : Packet) : Nat := 20 + p.payload.length

/-- The traffic class of a packet (Tables AF-2 and AF-3): 0 SYNC, 1 PIXEL, 2 DICT, 3 SURF. -/
def packetClass (p : Packet) : Nat := p.cls.toNat % 4

/-- The first packet of a class that waits on a link. -/
def LinkSt.first (x : LinkSt) (c : Nat) : Option Packet := x.wait.find? (fun p => packetClass p == c)

/-- Whether a class can send its first packet: one waits, the partner has room for it, and the replay buffer of 64 KiB too (R404,
R407). -/
def LinkSt.maySend (x : LinkSt) (c : Nat) : Bool :=
  match x.first c with
  | none => false
  | some p => decide (x.spent.getD c 0 < Config.linkCredit c) && decide ((x.out.map packetSize).sum + packetSize p ≤ 65536)

/-- What a link sends in 100 ns at 12603 bits a 100 ns, its lanes counted (R402). -/
def linkShare (s : State) (l ns : Nat) : Nat := (if getN s (K.linkLanes l) = 4 then 12603 else 6301) * ns

/-- The class that a link serves next (R407, Table AF-3): SYNC within 1 % of the link, PIXEL within its reservation, DICT and SURF at 1 : 4
of what remains, each with what the other leaves; PIXEL beyond its reservation where nothing else waits (log 280). -/
def nextClass (s : State) (l : Nat) : Option Nat :=
  let x := linkOf s l
  let t := s.now - x.upAt
  if x.maySend 0 && decide (x.sent.getD 0 0 * 80000 ≤ linkShare s l t) then some 0
  else if x.maySend 1 && decide (x.sent.getD 1 0 * 8000 ≤ getN s (K.linkPixRes l) * t) then some 1
  else match x.maySend 2, x.maySend 3 with
    | true, true => some (if 4 * x.dict ≤ x.surf then 2 else 3)
    | true, false => some 2
    | false, true => some 3
    | false, false => if x.maySend 1 then some 1 else none

/-- A packet of a class goes out: it takes a credit and the next link sequence number, stays in the replay buffer, and holds the link for
its time (R402, R404, R407). -/
def transmit (s : State) (l c : Nat) : State :=
  match (linkOf s l).first c with
  | none => s
  | some p =>
    let n := packetSize p
    modLink s l (fun x =>
      let both := x.maySend 2 && x.maySend 3
      { x with wait := x.wait.erase p, out := x.out ++ [{ p with lseq := BitVec.ofNat 16 x.txSeq }], txSeq := (x.txSeq + 1) % 65536
               spent := modAt x.spent c (· + 1), sent := modAt x.sent c (· + (if c = 1 then p.payload.length else n))
               dict := if both && c == 2 then x.dict + n else if both then x.dict else 0
               surf := if both && c == 3 then x.surf + n else if both then x.surf else 0
               freeAt := s.now + ceilDiv (80000 * n) (linkShare s l 100) })

/-- A link that is up and free serves its next packet. -/
def serveLink (s : State) (l : Nat) : State :=
  if (lnkSt s l = lnkUp ∨ lnkSt s l = lnkDegraded) ∧ (linkOf s l).freeAt ≤ s.now then
    match nextClass s l with
    | some c => transmit s l c
    | none => s
  else s

/-- A packet for a link waits for its turn; none is dropped for congestion (R407). -/
def sendPacket (s : State) (l : Nat) (p : Packet) : State := serveLink (modLink s l (fun x => { x with wait := x.wait ++ [p] })) l

/-- What a partner acknowledges leaves the replay buffer, and the credits that it returns are free again (R404, R407). -/
def linkReturns (s : State) (l : Nat) (acked : Option (BitVec 16)) (credits : List Nat) : State :=
  modLink s l (fun x => { x with
    out := match acked.bind (fun a => x.out.findIdx? (fun p => p.lseq == a)) with
      | some i => x.out.drop (i + 1)
      | none => x.out
    spent := (List.range 4).map (fun c => x.spent.getD c 0 - credits.getD c 0) })

/-- The links on which a broadcast goes on: along the tree of first choices rooted at its origin. -/
def broadcastLinks (s : State) (origin : Nat) : List Nat :=
  (List.range 4).filter (fun l => (reachableSerials s).any (fun d =>
    d != ownSerial && (pathOf s d 64 origin).contains ownSerial && (firstChoice s ownSerial d).map (·.2.1) == some l))

/-! ## Remote surface reads (R424) -/

/-- Whether this module serves reads of a surface to a module: an enabled layer of a spread that runs here names it, and the module is a
member of that spread. -/
def servesSurface (s : State) (handle serial : Nat) : Bool :=
  serial != 0 && handleValid s handle && (List.range 8).any (fun i => getN s (K.spreadState i) != 0
    && (spreadMembers s i).any (fun m => getN s (K.smSerial i m) == serial)
    && (spreadOf s i).active.layers.any (fun l => l.enable && l.surface == handle))

/-- A packet of this module to a node: on its route, or dropped and counted where there is none (R406, R414). -/
def originate (s : State) (p : Packet) : State :=
  let r := getN s (K.fabRoute (p.dest.toNat % 64))
  if 7 ≤ r % 8 ∨ r = 0xFF then bump s K.fabDrop else sendPacket s (r % 8) p

/-- The packets of an answer, 256 bytes of payload each. -/
def answerPackets (p : Packet) (type : BitVec 8) (own : Nat) (b : List Byte) : List Packet :=
  (List.range (ceilDiv b.length 256)).map (fun k =>
    { dest := p.src &&& 63, src := BitVec.ofNat 8 own, cls := 255, type := type, lseq := 0, flow := p.flow
      offset := p.offset + BitVec.ofNat 32 (256 * k), payload := (b.drop (256 * k)).take 256 })

/-- A SURF packet for this module: a read that it serves is answered, poisoned words as poisoned (R424); what else it may carry changes
nothing here. How a read and its answer are spelled is not stated (log 281). -/
def surfRead (s : State) (p : Packet) : State :=
  match Config.surfRequest p.type p.payload with
  | none => s
  | some (h, off, n) =>
    if !servesSurface s h (getN s (K.fabNodeSerial (p.src.toNat % 64))) then s
    else
      let n := min n (slotSize s (slotOf h) - off)
      match readCells s (slotOf h) ((List.range n).map (off + ·)) with
      | (s, bs, _) =>
        let a := Config.surfAnswer bs
        (answerPackets p a.1 (getN s K.fabAddr) a.2).foldl originate s

/-- A packet's way through the switch: link-local and own packets end here; others are forwarded with their hop limit decremented,
or dropped and counted. -/
def switchPacket (s : State) (p : Packet) : State :=
  let hop := p.cls.toNat / 4
  let fwd : Packet := { p with cls := BitVec.ofNat 8 (p.cls.toNat % 4 + 4 * (hop - 1)) }
  let dest := p.dest.toNat
  if bitOf dest 7 then s
  else if getN s K.fabState = fabExcluded then bump s K.fabDrop
  else if bitOf dest 6 then
    let ls := broadcastLinks s (getN s (K.fabNodeSerial (p.src.toNat % 64)))
    if ls.isEmpty then s else if hop ≤ 1 then bump s K.fabDrop else foldN ls (fun s l => sendPacket s l fwd) s
  else if dest % 64 = getN s K.fabAddr then (if packetClass p = 3 then surfRead s p else s)
  else
    let r := getN s (K.fabRoute (dest % 64))
    if r = 0xFF ∨ hop ≤ 1 then bump s K.fabDrop else sendPacket s (r % 8) fwd

/-- PACKET_RX: a good packet is acknowledged and switched; a bad CRC asks for a replay, and a second bad copy retrains the link
(R404). With it come the partner's last acknowledgement, if any, and the credits that it returns, by class (R407). -/
def execPacketRx (l : Fin 4) (p : Packet) (acked : Option (BitVec 16)) (credits : List Nat) (crcOk replayOk : Bool) (s : State) :
    Host.Outcome State Fault Refusal :=
  if lnkSt s l ≠ lnkUp ∧ lnkSt s l ≠ lnkDegraded then .next s
  else
    let s := serveLink (linkReturns (modLink s l (fun x => { x with rxAt := s.now })) l acked credits) l
    let s := if crcOk then s else bump s (K.linkReplay l)
    if crcOk ∨ replayOk then
      .next (switchPacket (modLink s l (fun x => { x with ack := p.lseq.toNat })) p)
    else .next (setLink (bump (modLink s l (fun x => { x with retrain := true })) (K.linkRetrain l)) l lnkTraining 0)

/-! ## Discovery -/

/-- HELLO from a partner: its serial, address and link; the own record is flooded (R408). -/
def execHello (l : Fin 4) (serial : BitVec 64) (addr : BitVec 8) (gen : BitVec 32) (partnerLink : Fin 4) (s : State) :
    Host.Outcome State Fault Refusal :=
  if (lnkSt s l = lnkUp ∨ lnkSt s l = lnkDegraded) ∧ serial.toNat ≠ 0 then
    let s := modLink s l (fun x => { x with rxAt := s.now })
    let s := putN (putN (putN s (K.linkPartner l) serial.toNat) (K.linkPartnerAddr l) addr.toNat) (K.linkPartnerLink l) partnerLink
    let s := putN s K.fabTopoGen (max (getN s K.fabTopoGen) gen.toNat)
    .next (topologyChanged s)
  else .next s

/-- LINK_STATE_RECORD_RX: a record with a higher sequence number replaces the stored one (R408). -/
def execLinkStateRecordRx (r : LinkRecord) (s : State) : Host.Outcome State Fault Refusal :=
  let newer : Bool := s.fab.records.all (fun x => x.serial != r.serial || decide (x.seq.toNat < r.seq.toNat))
  if newer && decide (r.serial.toNat ≠ ownSerial) && (List.range 4).any (fun l => linkCarries s l) then
    .next (topologyChanged (modFab s (fun f => { f with records := f.records.filter (fun x => x.serial != r.serial) ++ [r] })))
  else .next s

/-! ## Fabric time (R415, R416) -/

/-- fab.time: module time plus the offset; alone or excluded the module's own time. -/
def fabTimeNow (s : State) : Nat :=
  if getN s K.fabState = fabRun ∨ getN s K.fabState = fabDiscovering then (((s.now : Int) + s.fab.offset) % 2 ^ 64).toNat else s.now

/-- SYNC_EXCHANGE: the offset to a partner; on the route to the root it gives fabric time (R415). -/
def execSyncExchange (l : Fin 4) (offset : Int) (errNs : Nat) (s : State) : Host.Outcome State Fault Refusal :=
  if lnkSt s l ≠ lnkUp ∧ lnkSt s l ≠ lnkDegraded then .next s
  else
    let s := modLink s l (fun x => { x with rxAt := s.now, offset := offset, err := errNs })
    let root := getN s K.fabRootSerial
    if root ≠ ownSerial ∧ (firstChoice s ownSerial root).map (·.2.1) = some l.val then
      .next (putN (modFab s (fun f => { f with offset := offset })) K.fabTimeErr (min errNs (2 ^ 32 - 1)))
    else .next s

/-! ## Spread outputs (R419 to R431) -/

/-- spread.state codes (Table AF-6). -/
def sprOff : Nat := 0
def sprAligning : Nat := 1
def sprRun : Nat := 2
def sprDegraded : Nat := 3
def sprStopping : Nat := 4

/-- sm.state codes (Table AF-7). -/
def smOff : Nat := 0
def smJoining : Nat := 1
def smIn : Nat := 2
def smLost : Nat := 3

/-- Changes the record of a spread. -/
def modSpread (s : State) (i : Nat) (g : SpreadSt → SpreadSt) : State :=
  modFab s (fun f => { f with spreads := tset f.spreads i (g (spreadOf s i)) })

/-- The reference member: the lowest-numbered one that reads IN (R425). -/
def spreadRef (s : State) (i : Nat) : Option Nat := (spreadMembers s i).find? (fun m => getN s (K.smState i m) == smIn)

/-- The functions that own a layer of a spread: they get its events (R432). -/
def spreadFuncs (s : State) (i : Nat) : List Nat :=
  (((List.range 6).map (fun k => getN s (K.spreadLayerOwner i k))).filter (· ≠ 0xFF)).dedup

/-- The layers of a spread that a function owns, as commit bits. -/
def spreadBits (s : State) (f i : Nat) : Nat := sumN 6 (fun k => if getN s (K.spreadLayerOwner i k) = f then 2 ^ k else 0)

/-- The shadow of a spread layer. -/
def spreadLayerShadow (s : State) (i k : Nat) : LayerSet :=
  { enable := getB s (K.spreadLayerEnable i k), surface := getN s (K.spreadLayerSurface i k), srcXY := getN s (K.spreadLayerSrcXy i k)
    srcWH := getN s (K.spreadLayerSrcWh i k), dstXY := getN s (K.spreadLayerDstXy i k), dstWH := getN s (K.spreadLayerDstWh i k)
    blend := getN s (K.spreadLayerBlend i k), alpha := getN s (K.spreadLayerAlpha i k), matrix := getN s (K.spreadLayerMatrix i k)
    rot := getN s (K.spreadLayerRot i k) }

/-- The parts of a spread's shadow that commit bits cover, over another set. -/
def spreadShadow (s : State) (i bits : Nat) (base : SpreadSet) : SpreadSet :=
  { layers := (List.range 6).map (fun k => if bitOf bits k then spreadLayerShadow s i k else base.layers.getD k {})
    bg := if bitOf bits 6 then getN s (K.spreadBg i) else base.bg
    lead := if bitOf bits 6 then getN s (K.spreadLead i) else base.lead }

/-- A port's layer records take an owner and their defaults, from its next take on (R420, R429). -/
def portLayersTo (s : State) (p owner : Nat) : State :=
  let s := foldN (List.range 6) (fun s k =>
    foldN [2, 3, 4, 5, 6, 7, 8, 9, 10, 11, 12] (fun s sub => writeV s (layerKey p k sub) (defaultVal (layerKey p k sub)))
      (writeN s (K.layerOwner p k) owner)) s
  recomputeRuns (commitBits s p 63)

/-- A member's port leaves its spread (R429, R431). -/
def memberLeaves (s : State) (i m st : Nat) : State :=
  let s := if smLocal s i m then portLayersTo s (getN s (K.smPort i m)) 0xFF else s
  putN s (K.smState i m) st

/-- A member reads LOST and the spread DEGRADED (R429). -/
def memberLost (s : State) (i m : Nat) : State :=
  let s := modSpread (memberLeaves s i m smLost) i (fun x => { x with lost := m :: x.lost.filter (· ≠ m) })
  let s := if getN s (K.spreadState i) = sprStopping then s else putN s (K.spreadState i) sprDegraded
  emit s 11 0x0B06 i (leBytes 1 i ++ leBytes 1 m) (spreadFuncs s i)

/-- A stream's bits per second (R423). -/
def streamRate (s : State) (i : Nat) : Rat :=
  let md := getN s (K.spreadMode i)
  ((modeW md * modeH md * 32 : Nat) : Rat) * refreshHz md

/-- The payload rate of a link in bits per second: 116.90 Gbit/s, half of it degraded (R402). -/
def linkRate (s : State) (l : Nat) : Rat := if getN s (K.linkLanes l) = 4 then 116900000000 else 58450000000

/-- Tilth's placement of a spread's members in order (R422, R423): on this module HOME; else as hinted, or HOME where the stream
fits the reservation of every link on its route. What other modules have reserved on later links is not this module's state:
there it is a free value. -/
def placeMembers (s : State) (i : Nat) : State :=
  let s := { s with fresh := s.fresh + 16 }
  foldN (spreadMembers s i) (fun s m =>
    let serial := getN s (K.smSerial i m)
    let hint := getN s (K.smHint i m)
    let first := firstChoice s ownSerial serial
    let used := fun (l : Nat) => (List.range 8).flatMap (fun j => (List.range 16).filterMap (fun k =>
      if (j, k) ≠ (i, m) ∧ getN s (K.smPlace j k) = 1 ∧ !smLocal s j k
          ∧ (firstChoice s ownSerial (getN s (K.smSerial j k))).map (·.2.1) = some l then some (streamRate s j) else none))
    let fits := match first with
      | none => false
      | some e => decide (((used e.2.1).sum + streamRate s i) * 100 ≤ linkRate s e.2.1 * ((getN s K.fabPixMax : Nat) : Rat))
          && (decide (e.2.2 ≤ 1) || Config.freeBit (s.fresh + m))
    let place := if smLocal s i m then 1 else if hint = 2 then 2 else if fits then 1 else 2
    let missed := hint == 1 && place != 1
    let s := putB (putN s (K.smPlace i m) place) (K.smHintKept i m) (!missed)
    if missed then tilthEntry (hintMiss s) 8 9 0 (m + 256 * i) 1 place else s)
    (foldN (List.range 16) (fun s m => putN s (K.smPlace i m) 0) s)

/-- link.pix.res of every link: the streams placed HOME over it, rounded up to Mbit/s. -/
def showReservations (s : State) : State :=
  foldN (List.range 4) (fun s l =>
    let rates := (List.range 8).flatMap (fun j => (List.range 16).filterMap (fun k =>
      if getN s (K.smPlace j k) = 1 ∧ !smLocal s j k ∧ (firstChoice s ownSerial (getN s (K.smSerial j k))).map (·.2.1) = some l
      then some (streamRate s j) else none))
    putN s (K.linkPixRes l) (mbUp rates.sum)) s

/-- After a change of the topology: unreachable members are noted, reachable lost ones join again, placements follow (R423, R429,
R430). -/
def spreadsTopology (s : State) : State :=
  let on := (List.range 8).filter (fun i => getN s (K.spreadState i) != sprOff && getN s (K.spreadState i) != sprStopping)
  let serials := (on.flatMap (fun i => (spreadMembers s i).map (fun m => getN s (K.smSerial i m)))).dedup
  let away := serials.filter (fun x => !moduleReachable s x)
  let s := modFab s (fun f => { f with gone := away.map (fun x =>
    (x, ((f.gone.find? (fun e => e.1 == x)).map (·.2)).getD s.now)) })
  let s := foldN on (fun s i => foldN (spreadMembers s i) (fun s m =>
    if getN s (K.smState i m) = smLost ∧ !smLocal s i m ∧ moduleReachable s (getN s (K.smSerial i m)) then
      putN s (K.smState i m) smJoining else s) s) s
  showReservations (foldN on placeMembers s)

/-- LINK_TIMEOUT: no flit for 100 µs (R405). -/
def execLinkTimeout (l : Fin 4) (s : State) : Host.Outcome State Fault Refusal :=
  if linkCarries s l ∧ (linkOf s l).rxAt + 100000 ≤ s.now then .next (spreadsTopology (linkFalls s l)) else .next s

/-- FABRIC_STABLE: 2 ms without a new record: root and addresses are settled (R409, R411, R412). -/
def execFabricStable (s : State) : Host.Outcome State Fault Refusal :=
  if getN s K.fabState = fabDiscovering ∧ s.fab.lastRec + 2000000 ≤ s.now then .next (spreadsTopology (settleFabric s)) else .next s

/-- A member port's take, and on the reference member the spread's own: joining members read IN, the latched bits become active,
late ones are counted and stay for the next take (R425, R427, R428, R430). -/
def spreadTake (s : State) (i : Nat) : State :=
  let x := spreadOf s i
  let pend := getN s (K.spreadCommitPend i)
  let frame := (getN s (K.spreadFrame i) + 1) % 2 ^ 32
  let active : SpreadSet :=
    { layers := (List.range 6).map (fun k => if bitOf x.latched k then x.captured.layers.getD k {} else x.active.layers.getD k {})
      bg := if bitOf x.latched 6 then x.captured.bg else x.active.bg, lead := if bitOf x.latched 6 then x.captured.lead else x.active.lead }
  let s := putN s (K.spreadCommitPend i) ((pend - (pend &&& x.latched)) ||| x.late)
  let s := putN (modSpread s i (fun x => { x with closed := false, latched := 0, late := 0, lateOps := 0, active := active }))
    (K.spreadFrame i) frame
  let s := if x.lateOps = 0 then s
    else emit (bumpBy s (K.spreadLate i) x.lateOps) 11 0x0B08 i (leBytes 1 i ++ leBytes 1 x.late ++ leBytes 4 frame) (spreadFuncs s i)
  if (getN s (K.spreadState i) = sprAligning ∨ getN s (K.spreadState i) = sprDegraded)
      ∧ (spreadMembers s i).all (fun m => getN s (K.smState i m) == smIn) then putN s (K.spreadState i) sprRun
  else s

/-- A joining member reads IN; one that was lost tells of it (R430). -/
def memberIn (s : State) (i m : Nat) : State :=
  let s := putN s (K.smState i m) smIn
  if (spreadOf s i).lost.contains m then
    let s := modSpread s i (fun x => { x with lost := x.lost.filter (· ≠ m) })
    emit s 11 0x0B07 i (leBytes 1 i ++ leBytes 1 m ++ leBytes 1 (getN s (K.smPlace i m))) (spreadFuncs s i)
  else s

/-- Two ports' VBS lie within 1 µs of each other, modulo the frame (R425). -/
def aligned (s : State) (p q : Nat) : Bool :=
  let m := (portOf s q).runMode
  let t : Rat := 1000000000 / refreshHz m
  let d : Rat := (((portOf s p).lastTake : Int) - ((portOf s q).lastTake : Int) : Int)
  let r := d - t * (d / t).floor
  decide (r ≤ 1000 ∨ t - r ≤ 1000)

/-- A local member port joins: its records read 0xFD, and it re-phases where its VBS is not the reference's (R420, R425). -/
def portJoins (s : State) (i m : Nat) : State :=
  let p := getN s (K.smPort i m)
  let s := portLayersTo s p 0xFD
  match (spreadMembers s i).find? (fun k => smLocal s i k) with
  | some r =>
    let q := getN s (K.smPort i r)
    if r ≠ m ∧ !aligned s p q ∧ outSt s p = outRun then beginTransition s p 2 else s
  | none => s

/-- The end of a spread's shut-down: every member is OFF; a queued enable runs through `restart` (R431, R48). -/
def spreadOffDone (s : State) (i : Nat) : State :=
  let s := foldN (List.range 16) (fun s m => putB (putN (putN s (K.smState i m) smOff) (K.smPlace i m) 0) (K.smHintKept i m) true) s
  settle (showReservations (putN (modSpread s i (fun _ => {})) (K.spreadState i) sprOff))

/-- A spread starts: its members join and are placed (R419, R423, R425). -/
def startSpread (s : State) (i : Nat) : State :=
  let s := settle (putN (writeB s (K.spreadEnable i) true) (K.spreadState i) sprAligning)
  let s := modSpread s i (fun _ => { active := spreadShadow s i 127 {} })
  let s := foldN (spreadMembers s i) (fun s m =>
    let s := putN s (K.smState i m) smJoining
    if smLocal s i m then portJoins s i m else s) s
  showReservations (placeMembers s i)

/-- A queued enable of a spread runs once its shut-down is over (R48). -/
def spreadQueued (s : State) (i : Nat) : State :=
  if s.transit.contains (K.spreadEnable i) && getN s (K.spreadState i) == sprOff && !anyStopping s [11] then
    startSpread (resolved s 11 (0x9200 + i) 1) i
  else s

/-- The shut-down of a spread: every member shows its background from its next VBS (R431). -/
def shutSpread (s : State) (i : Nat) : State :=
  let s := putN s (K.spreadState i) sprStopping
  let s := foldN (spreadMembers s i) (fun s m =>
    if smLocal s i m && (getN s (K.smState i m) == smJoining || getN s (K.smState i m) == smIn) then s
    else putN s (K.smState i m) smOff) s
  if (List.range 16).all (fun m => getN s (K.smState i m) == smOff) then spreadQueued (spreadOffDone s i) i else settle s

/-- A write of false to spread.enable (R431). -/
def stopSpread (s : State) (i : Nat) : State :=
  let s := writeB s (K.spreadEnable i) false
  if getN s (K.spreadState i) = sprOff ∨ getN s (K.spreadState i) = sprStopping then s else shutSpread s i

/-- What a VBS of a port means for the spread it serves. -/
def spreadAtVbs (s : State) (p : Nat) : State :=
  foldN (List.range 8) (fun s i =>
    if getN s (K.spreadState i) = sprOff then s
    else
      match (spreadMembers s i).find? (fun m => smLocal s i m && getN s (K.smPort i m) == p) with
      | none => s
      | some m =>
        let st := getN s (K.smState i m)
        if getN s (K.spreadState i) = sprStopping then
          if st = smOff then s
          else
            let s := memberLeaves s i m smOff
            if (List.range 16).all (fun k => getN s (K.smState i k) == smOff) then spreadQueued (spreadOffDone s i) i else s
        else
          let s := if st = smJoining ∧ outSt s p = outRun ∧ (portOf s p).phase = .idle then memberIn s i m
            else if st = smLost ∧ outSt s p = outRun ∧ getB s (K.fabPortLend p) ∧ getN s (K.outMode p) = getN s (K.spreadMode i) then
              placeMembers (portJoins (putN s (K.smState i m) smJoining) i m) i
            else s
          if spreadRef s i = some m then spreadTake s i else s) s

/-- Local members whose port no longer lends, stops, or has another mode leave at once (R429). -/
def spreadSweep (s : State) : State :=
  foldN (List.range 8) (fun s i =>
    if getN s (K.spreadState i) = sprOff ∨ getN s (K.spreadState i) = sprStopping then s
    else foldN (spreadMembers s i) (fun s m =>
      let p := getN s (K.smPort i m)
      if smLocal s i m && (getN s (K.smState i m) == smJoining || getN s (K.smState i m) == smIn)
          && (!getB s (K.fabPortLend p) || getN s (K.outMode p) != getN s (K.spreadMode i) || outSt s p == outOff || outSt s p == outStopping)
      then memberLost s i m else s) s) s

/-- VBS (R122, R134, R138); in a large mode its close point comes first. The spreads that the port serves follow. -/
def execVbs (p : Fin 8) (s : State) : Host.Outcome State Fault Refusal :=
  let q := portOf s p
  if outSt s p = outRun ∧ modeLarge q.runMode ∧ !q.closed ∧ !q.inBlank then .next s
  else if !timingRuns s p || q.inBlank then .next (releaseReset (vbs s p))
  else .next (releaseReset (spreadAtVbs (vbs s p) p))

/-! ## Writing spread objects -/

/-- The rectangle of a member on the canvas. -/
def memberRect (s : State) (i m : Nat) : Nat × Nat × Nat × Nat :=
  let xy := getN s (K.smXy i m)
  let md := getN s (K.spreadMode i)
  (xy % 65536, xy / 65536, modeW md, modeH md)

/-- Whether two rectangles share a pixel. -/
def rectsMeet (a b : Nat × Nat × Nat × Nat) : Bool :=
  decide (a.1 < b.1 + b.2.2.1 ∧ b.1 < a.1 + a.2.2.1 ∧ a.2.1 < b.2.1 + b.2.2.2 ∧ b.2.1 < a.2.1 + a.2.2.2
    ∧ 0 < a.2.2.1 ∧ 0 < b.2.2.1 ∧ 0 < a.2.2.2 ∧ 0 < b.2.2.2)

/-- Whether a port already serves another spread of this module. -/
def portServes (s : State) (i p : Nat) : Bool :=
  (List.range 8).any (fun j => j != i && getN s (K.spreadState j) != sprOff && (spreadMembers s j).any (fun m =>
    smLocal s j m && getN s (K.smPort j m) == p && getN s (K.smState j m) != smLost))

/-- Whether a member's port refuses (R419). The state of another module's port is not this module's: whether it refuses is a free
value. -/
def memberRefuses (s : State) (i m : Nat) : Bool :=
  let p := getN s (K.smPort i m)
  if smLocal s i m then
    !getB s (K.fabPortLend p) || getN s (K.outMode p) != getN s (K.spreadMode i) || outSt s p != outRun || portServes s i p
  else Config.freeBit (s.fresh + m)

/-- The checks of a write of true to spread.enable (R419). -/
def spreadEnableCheck (s : State) (i : Nat) : Status :=
  let ms := spreadMembers s i
  let out := ms.any (fun m => let r := memberRect s i m
    decide (getN s (K.spreadW i) < r.1 + r.2.2.1 ∨ getN s (K.spreadH i) < r.2.1 + r.2.2.2))
  let meet := ms.any (fun m => ms.any (fun n => m != n && rectsMeet (memberRect s i m) (memberRect s i n)))
  firstRefusal [
    (out || meet || ms.any (memberRefuses s i), .range),
    (ms.any (fun m => !moduleReachable s (getN s (K.smSerial i m))), .busy)]

/-- Whether a spread.vfreg value is well formed and its functions' entries do not overlap (R421). -/
def vfregOk (b : List Byte) : Bool :=
  let es := vfregEntries 8 b
  b.length % 12 == 0 && decide (b.length ≤ 96)
    && es.all (fun x => es.all (fun y => x.1 == y.1 || !rectsMeet x.2 y.2))

/-- The checks of a write to a spread's own objects, its enable apart (R419, R421). -/
def spreadCheck (s : State) (i sub : Nat) (v : Val) : Status :=
  if sub = 0x0C then (if vfregOk v.toBytes then .ok else .range)
  else if 2 ≤ sub ∧ sub ≤ 4 ∧ getN s (K.spreadState i) ≠ sprOff then .busy
  else .ok

/-- Spread commit bits for a function (R121, R427): after the close point they are late. -/
def spreadCommit (s : State) (i bits : Nat) : State :=
  let x := spreadOf s i
  if bits = 0 then s
  else if x.closed then
    modSpread (putN s (K.spreadCommitPend i) (getN s (K.spreadCommitPend i) ||| bits)) i
      (fun x => { x with late := x.late ||| bits, lateOps := x.lateOps + 1 })
  else putN s (K.spreadCommitPend i) (getN s (K.spreadCommitPend i) ||| bits)

/-- How many layers of ports and spreads a function owns. -/
def allLayerCount (s : State) (f : Nat) : Nat :=
  layerCount s f + sumN 8 (fun i => countN 6 (fun k => getN s (K.spreadLayerOwner i k) == f))

/-- Whether a session may write a subindex of a spread layer (R421, as R86 and R80). -/
def spreadLayerAccess (s : State) (c : WCtx) (i k sub v : Nat) : Bool :=
  let o := getN s (K.spreadLayerOwner i k)
  (if sub = 1 then c.isMgr else c.owns o) && !(sub == 3 && v != 0 && handleValid s v && o != 0xFF && !mayRead s o v)

/-- The checks of a write to a spread layer, as Table CM-6 gives them for a port's layer. -/
def spreadLayerCheck (s : State) (i k sub v : Nat) : Status :=
  if sub = 1 then
    if v ≠ getN s (K.spreadLayerOwner i k) ∧ v ≠ 0xFF
        ∧ (overGrant s v (allLayerCount s v) (getN s (K.grantLayers v)) ∨ !funcExists s v) then .range
    else .ok
  else if sub = 3 ∧ v ≠ 0 ∧ !handleValid s v then .range
  else if 3 ≤ sub ∧ sub ≤ 5 ∧ !sourceOk s ((spreadLayerShadow s i k).withSub sub v) then .range
  else .ok

/-- A function-level reset: the VF's spread layers are transparent from the next spread take (R421). -/
def flrSpreads (s : State) (f : Nat) : State :=
  foldN (List.range 8) (fun s i =>
    let bits := spreadBits s f i
    let s := foldN (List.range 6) (fun s k =>
      if bitOf bits k then
        foldN [2, 3, 4, 5, 6, 7, 8, 9, 10, 11] (fun s sub =>
          writeV s (objKey (0x9400 + 0x10 * i + k) sub) (defaultVal (objKey (0x9400 + 0x10 * i + k) sub))) s
      else s) s
    if bits = 0 then s else putN s (K.spreadCommitPend i) (getN s (K.spreadCommitPend i) ||| bits)) s

/-! ## Commands of spreads -/

/-- SPREAD_CLOSE_POINT: the covered shadow is captured and sent to every member (R427, R428). Where the reference member is on
another module, the close point also shows that its VBS has passed. -/
def execSpreadClosePoint (i : Fin 8) (s : State) : Host.Outcome State Fault Refusal :=
  let st := getN s (K.spreadState i)
  if st ≠ sprAligning ∧ st ≠ sprRun ∧ st ≠ sprDegraded then .next s
  else
    let remote := match spreadRef s i with | some m => !smLocal s i m | none => false
    let s := if (spreadOf s i).closed && remote then spreadTake s i else s
    if (spreadOf s i).closed then .next s
    else
      let bits := getN s (K.spreadCommitPend i)
      .next (modSpread s i (fun x => { x with closed := true, latched := bits, captured := spreadShadow s i bits x.active }))

/-- SPREAD_STATE_RX: a member has received the captured state, late after its own close point or not, with its VBS offset; a
member that is off by more than 20 µs for 8 frames re-phases (R426, R428). -/
def execSpreadStateRx (i : Fin 8) (m : Fin 16) (late : Bool) (offset : Int) (s : State) : Host.Outcome State Fault Refusal :=
  let st := getN s (K.smState i m)
  if !(spreadOf s i).closed ∨ (st ≠ smIn ∧ st ≠ smJoining) then .next s
  else
    let skew := fun s cause => emit s 11 0x0B09 i (leBytes 1 i ++ leBytes 1 m ++ leBytes 1 cause ++ leBytes 4 (toSigned 32 offset))
      (spreadFuncs s i)
    let s := if st = smJoining ∧ !smLocal s i m then memberIn s i m else s
    let s := putN s (K.smSkew i m) (toSigned 32 offset)
    let s := if late then skew (bump s (K.smLate i m)) 2 else s
    let n := if 20000 < offset.natAbs then tget (spreadOf s i).skewed m 0 + 1 else 0
    let s := modSpread s i (fun x => { x with skewed := tset x.skewed m (n % 8) })
    if n < 8 then .next s
    else
      let p := getN s (K.smPort i m)
      let s := if smLocal s i m ∧ outSt s p = outRun then beginTransition s p 2 else s
      .next (skew s 1)

/-- SPREAD_MEMBER_LOST: a member unreachable for fab.spread.hold reads LOST (R429). -/
def execSpreadMemberLost (i : Fin 8) (m : Fin 16) (s : State) : Host.Outcome State Fault Refusal :=
  let st := getN s (K.smState i m)
  match s.fab.gone.find? (fun e => e.1 == getN s (K.smSerial i m)) with
  | some e =>
    if (st = smIn ∨ st = smJoining) ∧ !smLocal s i m ∧ e.2 + getN s K.fabSpreadHold * 1000000 ≤ s.now then
      .next (showReservations (placeMembers (memberLost s i m) i))
    else .next s
  | none => .next s

end Sys2Proof.Machine
end

