-- ==== Sys2Proof/Machine/Haptics.lean ====
section
/-!
DEFINITION. Piezo haptics (R366 to R387, R507): effects, their phases and their arbitration on a channel, the protection
limits, driver substitution, the start and stop of the ZH-17, the interlock loop, and the meanings of their commands.
-/

namespace Sys2Proof.Machine

/-- ch.state codes (Table HS-2). -/
def chOff : Nat := 0
def chIdle : Nat := 1
def chAttack : Nat := 2
def chSustain : Nat := 3
def chBraking : Nat := 4
def chTripped : Nat := 5
def chFailed : Nat := 6

/-- hap.state codes (Table HS-1). -/
def hapOff : Nat := 0
def hapStarting : Nat := 1
def hapReady : Nat := 2
def hapStopping : Nat := 3

/-- Outcome codes of an effect (Table HS-5). -/
def effDone : Nat := 0
def effPreempted : Nat := 1
def effDeadline : Nat := 2
def effQueueFull : Nat := 3
def effOnTime : Nat := 4
def effDuty : Nat := 5
def effTrip : Nat := 6
def effDisabled : Nat := 7

/-- Nanoseconds of a millisecond. -/
def msec : Nat := 1000000

/-- The record of a channel. -/
def chanOf (s : State) (n : Nat) : Chan := tget s.hap.chans n {}

/-- Changes the record of a channel. -/
def modChan (s : State) (n : Nat) (g : Chan → Chan) : State :=
  { s with hap := { s.hap with chans := tset s.hap.chans n (g (chanOf s n)) } }

/-- The state of a channel. -/
def chSt (s : State) (n : Nat) : Nat := getN s (K.chState n)

/-- Whether a channel runs an effect. -/
def chRuns (s : State) (n : Nat) : Bool := (chanOf s n).run.isSome

/-- The VFs whose grant.haptic holds a channel (R387). -/
def hapFuncs (s : State) (n : Nat) : List Nat := (List.range 64).filter (fun v => v != 0 && bitOf (getN s (K.grantHaptic v)) n)

/-- The total of an effect's stated phases in ns (R370). -/
def effTotal (e : Effect) : Nat := (shaleAttack e.effect + shaleSustain e.effect + shaleBrake e.effect) * msec

/-! ## The end of an effect (R372) -/

/-- A command's copy on a channel has ended; with the last one the command completes (Table HS-5). -/
def playEnded (s : State) (id n outcome : Nat) : State :=
  let plays := s.hap.plays.map (fun p =>
    if p.id = id then
      { p with left := p.left.filter (· ≠ n), worst := max p.worst outcome
               done := if outcome = 0 then setBit p.done n else p.done
               other := if outcome = 0 then p.other else setBit p.other n }
    else p)
  let ended := plays.filter (fun p => p.left.isEmpty)
  ended.foldl (fun s p => complete s p.ticket (if p.other = 0 then 0 else 4) (p.done + 2 ^ 16 * p.other) p.worst)
    { s with hap := { s.hap with plays := plays.filter (fun p => !p.left.isEmpty) } }

/-- An effect on a channel ends with an outcome: the counts of Table HS-2, its command's answer, EFFECT_DONE for an effect of
the module (Table HS-7). -/
def effectEnds (s : State) (n : Nat) (e : Effect) (outcome : Nat) : State :=
  let s := bump s (if outcome = 0 then K.chDone n else K.chDropped n)
  match e.play with
  | some id => playEnded s id n outcome
  | none =>
    if e.func = 65 then
      emit s 5 0x0500 n (leBytes 1 n ++ leBytes 1 e.effect ++ leBytes 1 outcome ++ leBytes 1 e.panel) (hapFuncs s n)
    else s

/-- The running effect leaves the drive: its drive-on interval closes. -/
def closeDrive (s : State) (n : Nat) : State :=
  modChan s n (fun c => { c with
    run := none
    ons := if c.run.isSome then (c.ons.filter (fun o => s.now ≤ o.2 + 1000 * msec)) ++ [(c.started, s.now)] else c.ons })

/-- The running effect ends with an outcome. -/
def endRunning (s : State) (n outcome : Nat) : State :=
  match (chanOf s n).run with
  | none => s
  | some e => effectEnds (closeDrive s n) n e outcome

/-- Replaces a channel's queue; a new head reaches the head now (R377). -/
def setQueue (s : State) (n : Nat) (q : List Effect) : State :=
  modChan s n (fun c => { c with
    queue := q, headAt := if q.head?.map (·.id) = c.queue.head?.map (·.id) then c.headAt else s.now })

/-- Ends every queued effect of a channel with an outcome. -/
def endQueue (s : State) (n outcome : Nat) : State :=
  let q := (chanOf s n).queue
  q.foldl (fun s e => effectEnds s n e outcome) (setQueue s n [])

/-! ## Starting an effect (R373, R381, R382) -/

/-- A channel's drive-on time in the part of the window `[a, b]` that has passed (R375, R381). -/
def driveOn (s : State) (n a b : Nat) : Nat :=
  let c := chanOf s n
  let part := fun (o : Nat × Nat) => min o.2 b - max o.1 a
  (c.ons.map part).sum + (if c.run.isSome then part (c.started, s.now) else 0)

/-- ch.duty in ns: the drive-on time in the last 1000 ms. -/
def chDutyNs (s : State) (n : Nat) : Nat := driveOn s n (s.now - 1000 * msec) s.now

/-- Whether an effect fits within the duty window when started now (R382): its total plus 4 ms, with the drive-on time still in
the window at its end. -/
def effFits (s : State) (n : Nat) (e : Effect) : Bool :=
  let len := effTotal e + 4 * msec
  decide (len + driveOn s n (s.now + len - 1000 * msec) s.now ≤ 200 * msec)

/-- An effect takes a free channel: ATTACK, its capacitance measured, its sensing in force; ch.sat counts one whose feed-forward
drive exceeds ch.vmax (R373, R374, R379). -/
def startEffect (s : State) (n : Nat) (e : Effect) : State :=
  let beyond := decide (getN s (K.chVmax n) * getN s (K.chGain n) * 100 < shalePeak e.effect * e.scale)
  let s := modChan s n (fun c => { c with run := some e, started := s.now, braked := 0, limited := false, counted := beyond })
  let s := putN (putN s (K.chState n) chAttack) (K.chSenseUsed n) (getN s (K.chSense n))
  let s := putN (draw s) (K.chCapMeas n) (Config.measured s.fresh).toNat
  if beyond then bump s (K.chSat n) else s

/-- The head of the queue starts, on a free channel or in place of a braking effect, which ends DONE (R377). -/
def startHead (s : State) (n : Nat) : State :=
  match (chanOf s n).queue with
  | [] => s
  | e :: q => if effFits s n e then startEffect (setQueue (endRunning s n effDone) n q) n e else s

/-- Where the head of the queue is an OVERLAY effect, it starts while the running effect brakes (R377). -/
def overlayHead (s : State) (n : Nat) : State :=
  match (chanOf s n).queue with
  | [] => s
  | e :: _ => if chSt s n = chBraking ∧ e.overlay then startHead s n else s

/-! ## The rail (R519) -/

/-- The rail's limits in mW: the average over 100 ms, and the peak (Table EL-5). -/
def railAverage : Nat := 5000
def railPeak : Nat := 40000

/-- The power that a channel's drive asks of the rail, in mW: none while it runs no effect; of an effect what the actuator takes. -/
def driveAsk (s : State) (n : Nat) : Nat :=
  match (chanOf s n).run with
  | some e => (Config.drivePower n e.effect e.scale (s.now - (chanOf s n).started)).toNat
  | none => 0

/-- The energy that the rail gave in the last 100 ms, in mW × ns. -/
def railEnergy (s : State) : Nat :=
  (s.hap.rail.map (fun e => (min e.2.1 s.now - max e.1 (s.now - 100 * msec)) * e.2.2)).sum

/-- What the rail may give now: its peak limit, and once the average limit is reached no more than that. -/
def railLimit (s : State) : Nat := if railAverage * (100 * msec) ≤ railEnergy s then railAverage else railPeak

/-- What the rail gives to all channels together. -/
def railGives (s : State) : Nat := min (((List.range 16).map (driveAsk s)).sum) (railLimit s)

/-- What a channel gets: its part of what the rail gives, in proportion to what it asks. -/
def driveGiven (s : State) (n : Nat) : Nat :=
  let asked := ((List.range 16).map (driveAsk s)).sum
  if asked ≤ railLimit s then driveAsk s n else driveAsk s n * railLimit s / asked

/-- A nanosecond of the rail: what it gives is noted, and an effect whose drive gets less than it asks is held by the limit. -/
def railTick (s : State) : State :=
  if (List.range 16).all (fun n => !chRuns s n) then s
  else
    let log := (s.now - 1, s.now, railGives s) :: s.hap.rail.filter (fun e => decide (s.now < e.2.1 + 100 * msec))
    let held := (List.range 16).filter (fun n => decide (driveGiven s n < driveAsk s n))
    foldN held (fun s n => modChan s n (fun c => { c with limited := true })) { s with hap := { s.hap with rail := log } }

/-! ## The drive (R367, R381) -/

/-- The highest drive voltage of a channel in µV: ch.vmax, and never above 180 V (R381). -/
def driveCap (s : State) (n : Nat) : Nat := min (getN s (K.chVmax n)) 180 * 1000000

/-- The change of the drive in a nanosecond that 1.5 A gives into the actuator's capacitance, in µV (R367). -/
def driveSlew (s : State) (n : Nat) : Nat := 1500000 / max 1 (getN s (K.chCap n))

/-- The drive that the loop asks for, held at the channel's highest (R373, R374). -/
def driveWanted (s : State) (n : Nat) : Nat :=
  match (chanOf s n).run with
  | some e => min (Config.loopDrive n e.effect e.scale (s.now - (chanOf s n).started)).toNat (driveCap s n)
  | none => 0

/-- A nanosecond of a channel's drive: it follows what the loop asks as fast as the current limit lets it; a channel without an effect is
at 0 V (R367, R375, R380). -/
def driveStep (s : State) (n : Nat) : State :=
  let w := driveWanted s n
  let k := driveSlew s n
  if chRuns s n then modChan s n (fun c => { c with drive := if c.drive ≤ w then min w (c.drive + k) else max w (c.drive - k) })
  else if (chanOf s n).drive = 0 then s
  else modChan s n (fun c => { c with drive := 0 })

/-- A nanosecond of all drives. -/
def driveTick (s : State) : State := foldN (List.range 16) driveStep s

/-- The most by which an effect's peak may lie below its target, in percent (R374). -/
def peakTolerance (s : State) (n : Nat) : Nat := if getN s (K.chSenseUsed n) = 1 then 10 else 20

/-- The end of a sustain whose measured peak is known: an effect that the rail's limit held counts in ch.sat if it missed its target
(R519), once. -/
def countMissed (s : State) (n mg : Nat) : State :=
  match (chanOf s n).run with
  | none => s
  | some e =>
    let c := chanOf s n
    if c.limited && !c.counted && decide (mg * 10000 < shalePeak e.effect * e.scale * (100 - peakTolerance s n)) then
      bump (modChan s n (fun c => { c with counted := true })) (K.chSat n)
    else s

/-! ## Driver substitution (R383) -/

/-- A channel whose driver has failed and that driver 16 cannot serve reads FAILED; its effects end DISABLED. -/
def channelFailed (s : State) (n : Nat) : State :=
  let s := endQueue (endRunning s n effDisabled) n effDisabled
  let s := modChan (putN s (K.chState n) chFailed) n (fun c => { c with probeAt := none, spareDue := none })
  updateHealth (emit s 5 0x0503 n (leBytes 1 n ++ leBytes 1 (getN s (K.chDriver n))) (hapFuncs s n))

/-- Driver 16 takes the output of a channel, admitted after its self-test (R11, R383). -/
def connectSpare (s : State) (n : Nat) (passes : Bool) : State :=
  let s := modChan s n (fun c => { c with spareDue := none })
  if unitState s clsDriver 16 ≠ unitSpare then channelFailed (retireUnit s clsDriver (getN s (K.chDriver n)) 2) n
  else if !passes then
    channelFailed (retireUnit (failSpare s clsDriver 16 1) clsDriver (getN s (K.chDriver n)) 2) n
  else
    let g := (getN s (K.chGen n) + 1) % 65536
    let s := substitute s clsDriver n 16 2 g
    let s := putN (putN (putN s (K.chGen n) g) (K.chDriver n) 16) K.hapSpare n
    emit s 5 0x0503 n (leBytes 1 n ++ leBytes 1 16) (hapFuncs s n)

/-! ## Stopping (R385) -/

/-- A write of true to hap.enable: PD21 is powered and the ZH-17 starts (R384). -/
def startHaptics (s : State) : State := settle (putN (writeB s K.hapEnable true) K.hapState hapStarting)

/-- A queued enable runs once the shut-down is over and PD21 is no longer stopping (R48, R439). -/
def hapQueued (s : State) : State :=
  if s.transit.contains K.hapEnable && getN s K.hapState == hapOff && !anyStopping s [21] then
    startHaptics (resolved s 21 0x4800 1)
  else s

/-- The shut-down ends with the last braking: the channels and hap.state read OFF, and PD21 stops (R385). -/
def hapStopCheck (s : State) : State :=
  if getN s K.hapState = hapStopping ∧ (List.range 16).all (fun n => !chRuns s n) then
    let s := foldN (List.range 16) (fun s n => modChan (putN s (K.chState n) chOff) n (fun c => { c with probeAt := none })) s
    hapQueued (settle (putN s K.hapState hapOff))
  else s

/-- A channel's drive is at 0 V: it reads IDLE, a substitution that waits is made, and the queue's head starts if it fits. -/
def channelIdle (s : State) (n : Nat) : State :=
  if getN s K.hapState = hapStopping then hapStopCheck (putN s (K.chState n) chIdle)
  else
    let s := putN s (K.chState n) chIdle
    let s := match (chanOf s n).spareDue with
      | some ok => connectSpare s n ok
      | none => s
    if chSt s n = chIdle then startHead s n else s

/-- The running effect enters braking with its stated time (R375). -/
def beginBraking (s : State) (n : Nat) : State :=
  modChan (putN s (K.chState n) chBraking) n (fun c => { c with braked := s.now })

/-! ## Arbitration (R376 to R378, R382) -/

/-- Puts an effect into a queue ordered by class, then by due instant. -/
def queueInsert (e : Effect) : List Effect → List Effect
  | [] => [e]
  | x :: r => if x.cls < e.cls || (x.cls == e.cls && decide (e.due < x.due)) then e :: x :: r else x :: queueInsert e r

/-- An effect enters the queue of four; a full queue displaces its last entry if that has a lower class (R378). -/
def enqueue (s : State) (n : Nat) (e : Effect) : State :=
  let q := (chanOf s n).queue
  let s :=
    if q.length < 4 then setQueue s n (queueInsert e q)
    else match q.getLast? with
      | some l =>
        if l.cls < e.cls then effectEnds (setQueue s n (queueInsert e q.dropLast)) n l effQueueFull
        else effectEnds s n e effQueueFull
      | none => s
  overlayHead s n

/-- Whether a channel takes effects now (Table HS-5, DISABLED). -/
def channelOpen (s : State) (n : Nat) : Bool :=
  getB s (K.chEnable n) && getN s K.hapState == hapReady
    && !(chSt s n == chOff || chSt s n == chTripped || chSt s n == chFailed)

/-- An effect becomes due on a channel (R376). One that does not fit its duty window waits in the queue (R382). -/
def effectArrives (s : State) (n : Nat) (e : Effect) : State :=
  if !channelOpen s n then effectEnds s n e effDisabled
  else match (chanOf s n).run with
    | none => if effFits s n e then startEffect s n e else enqueue s n e
    | some r => if r.cls < e.cls && effFits s n e then startEffect (endRunning s n effPreempted) n e else enqueue s n e

/-- Hands a channel its copy of an effect: at once where it is due, else when its start instant comes (R371, R372). -/
def giveEffect (s : State) (n : Nat) (e : Effect) : State :=
  if e.due ≤ s.now then effectArrives s n { e with due := s.now }
  else modChan s n (fun c => { c with waits := c.waits ++ [e] })

/-- A fresh number for an effect or a command. -/
def takeHapId (s : State) : State × Nat := ({ s with hap := { s.hap with next := s.hap.next + 1 } }, s.hap.next)

/-- A touch zone's effect: class 3, above every command (R364). -/
def zoneEffect (s : State) (p n effect : Nat) : State :=
  let (s, id) := takeHapId s
  effectArrives s n { id := id, func := 65, panel := p, effect := effect, cls := 3, due := s.now }

/-! ## Start, loss and resets -/

/-- The shut-down of the haptics begins: running effects enter braking, queued effects end DISABLED (R385). -/
def shutHaptics (s : State) : State :=
  let s := putN s K.hapState hapStopping
  hapStopCheck (foldN (List.range 16) (fun s n =>
    let s := endQueue s n effDisabled
    if chRuns s n && chSt s n != chBraking then beginBraking s n else s) s)

/-- A write of false to hap.enable (R385). -/
def stopHaptics (s : State) : State :=
  let s := writeB s K.hapEnable false
  if getN s K.hapState = hapOff ∨ getN s K.hapState = hapStopping then s else shutHaptics s

/-- Every output falls to 0 V at once; running and queued effects end DISABLED, and the channels read OFF (R457, R507). -/
def dropHaptics (s : State) : State :=
  foldN (List.range 16) (fun s n =>
    let s := endQueue (endRunning s n effDisabled) n effDisabled
    modChan (putN s (K.chState n) chOff) n (fun c => { c with probeAt := none, spareDue := none })) s

/-- A cut of PD21: the effects end DISABLED and the ZH-17 waits for its domain (R457). -/
def cutHaptics (s : State) : State :=
  if getN s K.hapState = hapOff then s
  else
    let s := dropHaptics s
    if getB s K.hapEnable && !s.transit.contains K.hapEnable then putN s K.hapState hapStarting
    else hapStopCheck s

/-- A function-level reset: the VF's running effects enter braking, its queued effects leave, none is answered (R386). -/
def flrHaptics (s : State) (f : Nat) : State :=
  foldN (List.range 16) (fun s n =>
    let c := chanOf s n
    let s := setQueue (modChan s n (fun c => { c with waits := c.waits.filter (·.func ≠ f) })) n (c.queue.filter (·.func ≠ f))
    match c.run with
    | some e =>
      if e.func = f then
        let s := modChan s n (fun c => { c with run := some { e with play := none } })
        if chSt s n = chBraking then s else overlayHead (beginBraking s n) n
      else s
    | none => s)
    { s with hap := { s.hap with plays := s.hap.plays.filter (fun p => p.ticket.func ≠ f) } }

/-- A probe of a TRIPPED channel and its result (R380). -/
def probe (s : State) (n cap : Nat) : State :=
  let nom := getN s (K.chCap n)
  let passes := decide (nom ≤ 2 * cap ∧ cap ≤ 2 * nom)
  let s := modChan s n (fun c => { c with probeAt := none })
  let s := emit s 5 0x0501 n (leBytes 1 n ++ leBytes 1 (getN s (K.chTrip n)) ++ leBytes 1 (b2n !passes) ++ leBytes 4 cap)
    (hapFuncs s n)
  if passes then updateHealth (channelIdle s n) else s

/-- A write of 0x01 to ch.reset: one further probe of a TRIPPED channel (R380). -/
def resetChannel (s : State) (n cap : Nat) : State := if chSt s n = chTripped then probe s n cap else s

/-! ## Haptic objects -/

/-- The checks of a write to a haptic object (R369). -/
def hapCheck (s : State) (idx sub : Nat) : Status :=
  if 0x4810 ≤ idx ∧ idx < 0x4820 ∧ 2 ≤ sub ∧ sub ≤ 6 ∧ chSt s (idx - 0x4810) ≠ chOff ∧ chSt s (idx - 0x4810) ≠ chIdle then .busy
  else .ok

/-- The effect of an accepted write to hap.enable. -/
def hapEnableApply (s : State) (on : Bool) : State × Status :=
  enableWrite s K.hapEnable on (getN s K.hapState == hapStopping || anyStopping s [21]) startHaptics stopHaptics

/-- The effect of an accepted write to an object of a channel's record. Effects of a channel that is disabled end DISABLED, and it
reads OFF (Table HS-2); one that is enabled while hap.state reads READY reads IDLE. -/
def chanApply (s : State) (n sub v : Nat) : State :=
  if sub = 0x11 then resetChannel (draw s) n (Config.measured s.fresh).toNat
  else if sub = 1 then
    let s := writeN s (K.chEnable n) v
    if v = 0 then
      let s := endQueue (endRunning s n effDisabled) n effDisabled
      if chSt s n = chFailed then s else hapStopCheck (putN s (K.chState n) chOff)
    else if getN s K.hapState = hapReady ∧ chSt s n = chOff then putN s (K.chState n) chIdle
    else s
  else writeN s (objKey (0x4810 + n) sub) v

/-! ## Commands -/

/-- Whether a HAPTIC_PLAY is well formed (R371). -/
def playOk (s : State) (f : Nat) (p : HapticPayload) : Bool :=
  p.chans != 0 && decide (p.effect.toNat < 128 ∧ p.cls.toNat < 3 ∧ 1 ≤ p.scale.toNat ∧ p.scale.toNat ≤ 100 ∧ p.flags.toNat < 2
    ∧ p.start.toNat ≤ s.now + 1000 * msec)
    && (isPf f || (List.range 16).all (fun n => !bitOf p.chans.toNat n || bitOf (getN s (K.grantHaptic f)) n))

/-- HAPTIC_PLAY (R371, R372). -/
def execHapticPlay (h : CmdHdr) (p : HapticPayload) (s : State) : Host.Outcome State Fault Refusal :=
  match beginCmd s h 0x40 p.bytes false with
  | (s, none) => .next s
  | (s, some t) =>
    if !playOk s t.func p then .next (completeOpen s t 3)
    else
      let chans := (List.range 16).filter (fun n => bitOf p.chans.toNat n)
      let (s, id) := takeHapId s
      let s := { s with hap := { s.hap with plays := s.hap.plays ++ [{ id := id, ticket := t, left := chans }] } }
      let start := if p.start.toNat < s.now then s.now else p.start.toNat
      .next (foldN chans (fun s n =>
        let (s, eid) := takeHapId s
        giveEffect s n { id := eid, func := t.func, play := some id, effect := p.effect.toNat, cls := p.cls.toNat
                         scale := p.scale.toNat, overlay := bitOf p.flags.toNat 0, due := start
                         deadline := if p.deadline = 0 then none else some (start + p.deadline.toNat * msec) }) s)

/-- EFFECT_DUE: the effects of a channel whose start instant has come become due (R376). -/
def execEffectDue (chan : Fin 16) (s : State) : Host.Outcome State Fault Refusal :=
  let c := chanOf s chan
  let due := c.waits.filter (fun e => e.due ≤ s.now)
  .next (due.foldl (fun s e => effectArrives s chan e)
    (modChan s chan (fun c => { c with waits := c.waits.filter (fun e => !(e.due ≤ s.now : Bool)) })))

/-- ATTACK_END: at its stated time the attack ends and the channel reads SUSTAIN (R373). -/
def execAttackEnd (chan : Fin 16) (s : State) : Host.Outcome State Fault Refusal :=
  match (chanOf s chan).run with
  | some e =>
    if chSt s chan = chAttack ∧ (chanOf s chan).started + shaleAttack e.effect * msec ≤ s.now then
      .next (putN s (K.chState chan) chSustain)
    else .next s
  | none => .next s

/-- BRAKING_START: at its stated time the sustain ends, with the peak acceleration it reached (R519); an OVERLAY head of the queue takes
the channel (R377). -/
def execBrakingStart (chan : Fin 16) (peakMg : Nat) (s : State) : Host.Outcome State Fault Refusal :=
  match (chanOf s chan).run with
  | some e =>
    if chSt s chan = chSustain
        ∧ (chanOf s chan).started + (shaleAttack e.effect + shaleSustain e.effect) * msec ≤ s.now then
      .next (overlayHead (beginBraking (countMissed s chan peakMg) chan) chan)
    else .next s
  | none => .next s

/-- BRAKING_END: after the stated braking time the effect ends DONE once the motion is at most 5 % of its peak, at the latest
4 ms on (R375). -/
def execBrakingEnd (chan : Fin 16) (accelMg : Nat) (s : State) : Host.Outcome State Fault Refusal :=
  match (chanOf s chan).run with
  | some e =>
    let due := (chanOf s chan).braked + shaleBrake e.effect * msec
    if chSt s chan = chBraking ∧ due ≤ s.now ∧ (accelMg * 20 ≤ shalePeak e.effect ∨ due + 4 * msec ≤ s.now) then
      .next (channelIdle (endRunning s chan effDone) chan)
    else .next s
  | none => .next s

/-- QUEUE_HEAD_TIMEOUT: 4 ms after the later of the head reaching the head and the start of braking, the head starts (R377). -/
def execQueueHeadTimeout (chan : Fin 16) (s : State) : Host.Outcome State Fault Refusal :=
  let c := chanOf s chan
  if chSt s chan = chBraking ∧ max c.headAt c.braked + 4 * msec ≤ s.now then .next (startHead s chan) else .next s

/-- EFFECT_DEADLINE: queued effects not started by their deadline end DEADLINE (R377). -/
def execEffectDeadline (chan : Fin 16) (s : State) : Host.Outcome State Fault Refusal :=
  let late := fun (e : Effect) => match e.deadline with | some d => decide (d ≤ s.now) | none => false
  let q := (chanOf s chan).queue
  .next (overlayHead ((q.filter late).foldl (fun s e => effectEnds s chan e effDeadline)
    (setQueue s chan (q.filter (fun e => !late e)))) chan)

/-- EFFECT_FITS: on an idle channel the head of the queue starts once it fits the duty window (R382). -/
def execEffectFits (chan : Fin 16) (s : State) : Host.Outcome State Fault Refusal :=
  if chSt s chan = chIdle ∧ channelOpen s chan then .next (startHead s chan) else .next s

/-- Whether a trip's condition can hold now (R379): MISSING in an attack below half the nominal capacitance, SHORT while an effect
runs, STALL in a sustain. -/
def tripHolds (s : State) (n cause cap : Nat) : Bool :=
  chRuns s n && (if cause = 0 then chSt s n == chAttack && decide (2 * cap < getN s (K.chCap n))
    else if cause = 1 then true else chSt s n == chSustain)

/-- HAP_TRIP: MISSING, SHORT or STALL trips a channel (R379, R380). -/
def execHapTrip (chan : Fin 16) (cause : Fin 3) (capNf : BitVec 32) (s : State) : Host.Outcome State Fault Refusal :=
  if !tripHolds s chan cause capNf.toNat then .next s
  else
    let s := if cause.val = 2 then s else putN s (K.chCapMeas chan) capNf.toNat
    let s := putN (putN s (K.chState chan) chTripped) (K.chTrip chan) (cause.val + 1)
    let s := bump (modChan s chan (fun c => { c with probeAt := some (s.now + 100 * msec) })) (K.chTripCount chan)
    let s := endQueue (endRunning s chan effTrip) chan effTrip
    let s := emit s 5 0x0501 chan (leBytes 1 chan ++ leBytes 1 (cause.val + 1) ++ leBytes 1 0 ++ leBytes 4 (getN s (K.chCapMeas chan)))
      (hapFuncs s chan)
    .next (updateHealth (hapStopCheck s))

/-- TRIP_PROBE: 100 ms after a trip the channel is probed once (R380). -/
def execTripProbe (chan : Fin 16) (capNf : BitVec 32) (s : State) : Host.Outcome State Fault Refusal :=
  match (chanOf s chan).probeAt with
  | some at_ => if chSt s chan = chTripped ∧ at_ ≤ s.now then .next (probe s chan capNf.toNat) else .next s
  | none => .next s

/-- A fall-back cut: the drive ends without braking, hap.limit counts, HAP_LIMIT is raised (R381). -/
def limitCut (s : State) (n limit outcome : Nat) : State :=
  match (chanOf s n).run with
  | none => s
  | some e =>
    let s := emit (bump s K.hapLimit) 5 0x0502 n (leBytes 1 n ++ leBytes 1 limit ++ leBytes 1 e.effect) (hapFuncs s n)
    channelIdle (endRunning s n outcome) n

/-- ON_TIME_CUT: 200 ms of drive-on time end an effect (R381). -/
def execOnTimeCut (chan : Fin 16) (s : State) : Host.Outcome State Fault Refusal :=
  if chRuns s chan && decide ((chanOf s chan).started + 200 * msec ≤ s.now) then .next (limitCut s chan 1 effOnTime)
  else .next s

/-- DUTY_CUT: the window of 1000 ms holds 200 ms of drive-on time (R381). -/
def execDutyCut (chan : Fin 16) (s : State) : Host.Outcome State Fault Refusal :=
  if chRuns s chan && decide (200 * msec ≤ chDutyNs s chan) then .next (limitCut s chan 2 effDuty) else .next s

/-! ## The accelerometers (R508) -/

/-- What the ZH-17 sends to read a sensor: acc.cmd and three zero bytes. -/
def accTransfer (s : State) : List Byte := leBytes 1 (getN s K.accCmd) ++ leBytes 3 0

/-- Whether a transfer, its first byte lowest, brings a valid sample: bit 0 of the status byte, which an open line makes 0xFF. -/
def accValid (w : BitVec 32) : Bool :=
  let status := (w.extractLsb' 8 8).toNat
  bitOf status 0 && status != 0xFF

/-- The acceleration that a transfer brings, in µg. -/
def accMicroG (s : State) (w : BitVec 32) : Int := (w.extractLsb' 16 16).toInt * (getN s K.accLsb : Nat)

/-- ACCEL_TIMEOUT: the last 2 ms of an effect's reads of its accelerometer: the last valid one is its acceleration, and without one the
channel senses itself for the rest of the effect (R373, R508). -/
def execAccelTimeout (chan : Fin 16) (reads : List (BitVec 32)) (s : State) : Host.Outcome State Fault Refusal :=
  if chRuns s chan && getN s (K.chSenseUsed chan) == 1 && decide ((chanOf s chan).started + 2 * msec ≤ s.now) then
    match (reads.filter accValid).getLast? with
    | some w => .next (modChan s chan (fun c => { c with accel := accMicroG s w }))
    | none => .next (bump (putN s (K.chSenseUsed chan) 0) (K.chSenseFail chan))
  else .next s

/-- DRIVER_FAULT: a driver's own output stage fails an effect; a second failure brings driver 16 at the channel's next IDLE
instant (R383). -/
def execDriverFault (chan : Fin 16) (retryPasses sparePasses : Bool) (s : State) : Host.Outcome State Fault Refusal :=
  if getN s K.hapState ≠ hapReady ∨ retryPasses ∨ chSt s chan = chOff ∨ chSt s chan = chFailed then .next s
  else if unitState s clsDriver 16 ≠ unitSpare ∨ chSt s chan = chIdle then .next (connectSpare s chan sparePasses)
  else .next (modChan s chan (fun c => { c with spareDue := some sparePasses }))

/-- HAP_READY: the ZH-17 is loaded and its drivers are tested; enabled channels read IDLE (R383, R384). -/
def execHapReady (badDrivers : List (Fin 17)) (s : State) : Host.Outcome State Fault Refusal :=
  if getN s K.hapState ≠ hapStarting ∨ domSt s 21 ≠ domOn ∨ !getB s K.hapIlk then .next s
  else
    let s := putN s K.hapGen ((getN s K.hapGen + 1) % 65536)
    let s := foldN (List.range 16) (fun s n => putN s (K.chGen n) ((getN s (K.chGen n) + 1) % 65536)) s
    let bad := badDrivers.map (·.val)
    let s := if bad.contains 16 && unitState s clsDriver 16 == unitSpare then failSpare s clsDriver 16 1 else s
    let s := foldN (List.range 16) (fun s n =>
      let d := getN s (K.chDriver n)
      if unitState s clsDriver d ≠ unitInService then putN s (K.chState n) chFailed
      else if bad.contains d then connectSpare (putN s (K.chState n) chOff) n true
      else putN s (K.chState n) chOff) s
    let s := putN (draw s) K.hapRail ((Config.measured s.fresh).toNat % 65536)
    let s := foldN (List.range 16) (fun s n =>
      if getB s (K.chEnable n) && chSt s n != chFailed then putN s (K.chState n) chIdle else s) s
    .next (updateHealth (putN s K.hapState hapReady))

/-- INTERLOCK_OPEN: the loop opens: every output falls to 0 V and the channels read OFF (R507). -/
def execInterlockOpen (s : State) : Host.Outcome State Fault Refusal :=
  if !getB s K.hapIlk then .next s
  else
    let s := putB s K.hapIlk false
    if getN s K.hapState = hapOff then .next s
    else
      let s := dropHaptics s
      .next (updateHealth (if getN s K.hapState = hapStopping then hapStopCheck s else putN s K.hapState hapStarting))

/-- INTERLOCK_CLOSED: the loop has been closed for 100 ms; the start of R384 runs afresh (R507). -/
def execInterlockClosed (s : State) : Host.Outcome State Fault Refusal := .next (updateHealth (putB s K.hapIlk true))

end Sys2Proof.Machine
end

