-- ==== Sys2Proof/Machine/Rings.lean ====
section
/-!
DEFINITION. Rings and the fast path: ring objects (R54, R55, R284), enabling and resizing (R56, R295), doorbells (R58), the
completion read index (R64), the event block (R67, R69), MSI-X writes (R65), reads of BAR0 (Tables FP-2, FP-4), NOP and
commands of unknown opcode (R60, R61).
-/

namespace Sys2Proof.Machine

/-! ## Ring objects (R54, R55, R214, R284, R295) -/

/-- The order in force of a ring: the one it was enabled with, or the object while it is disabled (Table FP-4). -/
def ringOrderNow (s : State) (h : Nat) : Nat := if votedB s (K.ringEnable h) then (ringOf s h).order else votedN s (K.ringOrder h)

/-- Whether a session may write a subindex of a ring: the manager 01, 02, 04 and 0B, the owner 03 to 0A (R54), which of a
ring without an owner the manager writes (Table DI-5, log 94). -/
def ringAccess (s : State) (c : WCtx) (h sub : Nat) : Bool :=
  let o := votedN s (K.ringOwner h)
  let own := (o == c.func && (c.role == .mgr || c.role == .vf)) || (o == 0xFF && c.role == .mgr)
  if sub = 1 ∨ sub = 2 ∨ sub = 11 then c.isMgr else if sub = 4 then c.isMgr || own else own || c.role == .tw

/-- Whether a write of a ring's order comes from the manager rather than the owner (R54, R55). -/
def orderByMgr (c : WCtx) : Bool := c.isMgr

/-- The checks of a write to a ring object, after its range (R55, R214, R284). -/
def ringCheck (s : State) (c : WCtx) (h sub v : Nat) : Status :=
  let on := votedB s (K.ringEnable h)
  let o := votedN s (K.ringOwner h)
  if sub = 1 then firstRefusal
    [(v ≠ o && v != 0xFF && (overGrant s v (ownedCount s 0x3100 0x3200 v) (getN s (K.grantRings v)) || !funcExists s v), .range),
     (on, .busy)]
  else if sub = 3 ∨ sub = 6 then firstRefusal [(v % 4096 ≠ 0, .range), (on, .busy)]
  else if sub = 4 then firstRefusal
    [(!orderByMgr c && decide (getN s (K.ringOrderMax h) < v), .range), (on && !orderByMgr c, .busy)]
  else if sub = 5 then firstRefusal [(on, .busy), (v < 64 && !ctxOn s v, .busy)]
  else if sub = 7 ∨ sub = 8 then firstRefusal [(on, .busy)]
  else if sub = 10 ∧ v = 1 then
    let x := getN s (K.ringCtx h)
    firstRefusal [(x < 64 && !ctxOn s x, .busy)]
  else .ok

/-- A ring is enabled: its indices and its drop count are 0, the order of the object is in force (R56, R296). -/
def enableRing (s : State) (h : Nat) : State :=
  modRing (writeVoted s (K.ringEnable h) 1) h (fun r => { era := r.era, order := getN s (K.ringOrder h), dberr := r.dberr })

/-- A ring is disabled: a held wait ends and what was fetched gets no completion (R234, log 92). -/
def disableRing (s : State) (h : Nat) : State :=
  let s := modRing (writeVoted s (K.ringEnable h) 0) h (fun r => { r with
    era := r.era + 1, wait := none, held := [], dropUntilWait := false, dropFrame := none, resize := none, stopped := false })
  { s with signals := s.signals.filter (fun x => x.ticket.ring != h) }

/-- The effect of an accepted write to a ring object; the voted fields are voted first, and a voted field is written in all three
copies (R68). A ring that a failed vote stopped keeps ring.enable true; a write of true starts it again, with its indices at 0
(log 256). -/
def ringApply (s : State) (h sub v : Nat) : State :=
  let key := objKey (0x3100 + h) sub
  let s := voteRing s h
  if sub = 10 then
    if v = 1 then (if getB s key && !(ringOf s h).stopped then s else enableRing s h)
    else if getB s key then disableRing s h
    else s
  else if sub = 1 then
    let s := writeVoted s key v
    if 0 < v ∧ v < 64 then writeN s (K.ringOrderMax h) (getN s (K.grantRingOrder v)) else s
  else if sub = 3 then writeVoted s key v
  else if sub = 4 ∧ getB s (K.ringEnable h) then
    modRing (writeVoted s key v) h (fun r => { r with resize := if v = r.order then none else some v })
  else if sub = 4 then writeVoted s key v
  else writeN s key v

/-- RESIZE_DONE: the ring is empty at a multiple of its old size: the new order is in force (R295, Table VF-12). -/
def execResizeDone (ring : Fin 256) (s : State) : Host.Outcome State Fault Refusal :=
  let r := ringOf s ring
  match r.resize with
  | some n =>
    if getB s (K.ringEnable ring) ∧ r.head = r.tail ∧ r.tail % 2 ^ r.order = 0 then
      let f := getN s (K.ringOwner ring)
      .next (emit (modRing s ring (fun r => { r with order := n, resize := none })) 8 0x0801 f
        (leBytes 1 f ++ leBytes 1 (getN s (K.ringLocal ring)) ++ leBytes 1 ring ++ leBytes 1 n) [f])
    else .next s
  | none => .next s

/-! ## Doorbells and the completion index (R58, R64) -/

/-- Whether a doorbell to `tail` is refused (R58). -/
def doorbellRefused (s : State) (h f tail : Nat) : Bool :=
  let r := ringOf s h
  !getB s (K.ringEnable h) || r.stopped || (funcOf s f).flrSince.isSome || decide (2 ^ r.order < idxDiff tail r.head)
    || (match r.resize with
        | some n => decide (2 ^ n < idxDiff tail r.head)
        | none => false)
    || decide (2 ^ r.order < idxDiff tail r.tail)

/-- A doorbell write of a function to a local ring; that of an ungranted ring is a reserved register (R52, R56, R58). -/
def doorbellOp (s : State) (f l v : Nat) : State :=
  match ringFor s f l with
  | none => s
  | some h =>
    let s := voteRing s h
    let tail := v % 65536
    if doorbellRefused s h f tail then countDrop (modRing s h (fun r => { r with dberr := true })) h f
    else modRing s h (fun r => { r with tail := tail })

/-- DOORBELL (R58). -/
def execDoorbell (f : Fin 65) (ring : Fin 16) (value : BitVec 32) (s : State) : Host.Outcome State Fault Refusal :=
  if funcExists s f then .next (doorbellOp s f ring value.toNat) else .next s

/-- The host's completion read index advances; held completions follow (R64). -/
def cqHeadOp (s : State) (f l v : Nat) : State :=
  match ringFor s f l with
  | none => s
  | some h => drainHeld (ringOf s h).held.length (modRing s h (fun r => { r with cqHead := v % 65536 })) h

/-- CQ_HEAD_WRITE (R64). -/
def execCqHeadWrite (f : Fin 65) (ring : Fin 16) (value : BitVec 16) (s : State) : Host.Outcome State Fault Refusal :=
  if funcExists s f then .next (cqHeadOp s f ring value.toNat) else .next s

/-! ## The event block (R67 to R69) -/

/-- A write that meets a busy slow block is dropped and counted (R69). -/
def lostWrite (s : State) (f : Nat) : State := bump (modFunc s f (fun x => { x with lost := true })) K.regWriteLost

/-- How long a slow block stays busy after a write: at most 2 µs; the spec gives no more, so it is a free value (R69). -/
def busyNs (s : State) : Nat := Config.freeNat s.fresh % 2001

/-- A write to the event block: dropped while it is busy, else carried out, and the block is busy for a while (R69). -/
def evtWrite (s : State) (f : Nat) (op : State → State) : State :=
  if s.now < (funcOf s f).evtUntil then lostWrite s f
  else op (modFunc (draw s) f (fun x => { x with evtUntil := s.now + busyNs s }))

/-- Clears pending bits written as ones (R67). -/
def evtPendOp (s : State) (f m : Nat) : State :=
  modFunc s f (fun x => { x with evtPend := x.evtPend - (x.evtPend &&& m) })

/-- Sets the mask; a class unmasked with its pending bit set raises its vector (R67, R68). -/
def evtMaskOp (s : State) (f m : Nat) : State :=
  let s := voteMask s f
  let old := (funcOf s f).evtMask
  let s := modFunc s f (fun x => { x with evtMask := m, maskCopies := none })
  foldN (numbers 32 (fun c => bitOf old c && !bitOf m c && bitOf (funcOf s f).evtPend c))
    (fun s c => raiseVec s f (tget (funcOf s f).evtVec c 0)) s

/-- EVT_PEND_CLEAR (R67, R69). -/
def execEvtPendClear (f : Fin 65) (mask : BitVec 32) (s : State) : Host.Outcome State Fault Refusal :=
  if funcExists s f then .next (evtWrite s f (fun s => evtPendOp s f mask.toNat)) else .next s

/-- EVT_MASK_WRITE (R67, R69). -/
def execEvtMaskWrite (f : Fin 65) (mask : BitVec 32) (s : State) : Host.Outcome State Fault Refusal :=
  if funcExists s f then .next (evtWrite s f (fun s => evtMaskOp s f mask.toNat)) else .next s

/-- A 4-byte write to EVT_VEC: one byte per class, bits 4:0 (Table FP-9). -/
def evtVecOp (s : State) (f k v : Nat) : State :=
  modFunc s f (fun x => { x with evtVec := foldN (List.range 4) (fun t j => tset t (k + j) (v / 256 ^ j % 32)) x.evtVec })

/-! ## MSI-X and other registers (R52, R56, R65, R68, R69) -/

/-- A 4-byte write to the MSI-X table; unmasking a vector with its pending bit set sends its message (R65, PCIe). -/
def msixOp (s : State) (f v d n : Nat) : State :=
  let s := voteMsix s f v
  let old := tget (funcOf s f).msix v (2 ^ 96)
  let new := old - old / 2 ^ (32 * d) % 2 ^ 32 * 2 ^ (32 * d) + n * 2 ^ (32 * d)
  let s := modFunc s f (fun x => { x with msix := tset x.msix v new, msixCopies := tdel x.msixCopies v })
  if !bitOf new 96 && bitOf (funcOf s f).pba v then raiseVec (modFunc s f (fun x => { x with pba := clearBit x.pba v })) f v else s

/-- The write of a BAR0 register; reserved offsets and read-only registers ignore it (R52). SNAP_SEL has its own command. -/
def registerOp (s : State) (f off v : Nat) : State :=
  if off = 0x0004 then (if bitOf v 2 then modFunc s f (fun x => { x with lost := false }) else s)
  else if 0x1000 ≤ off ∧ off < 0x1400 ∧ off % 0x40 = 8 then
    match ringFor s f ((off - 0x1000) / 0x40) with
    | some h => if bitOf v 2 then modRing s h (fun r => { r with dberr := false }) else s
    | none => s
  else if 0x1000 ≤ off ∧ off < 0x1400 ∧ off % 0x40 = 0x10 then cqHeadOp s f ((off - 0x1000) / 0x40) v
  else if 0x2000 ≤ off ∧ off < 0x2040 ∧ off % 4 = 0 then doorbellOp s f ((off - 0x2000) / 4) v
  else if off = 0x3000 then evtWrite s f (fun s => evtPendOp s f v)
  else if off = 0x3004 then evtWrite s f (fun s => evtMaskOp s f v)
  else if 0x3040 ≤ off ∧ off < 0x3060 ∧ off % 4 = 0 then evtWrite s f (fun s => evtVecOp s f (off - 0x3040) v)
  else if 0xE000 ≤ off ∧ off < 0xE200 ∧ off % 4 = 0 then msixOp s f ((off - 0xE000) / 16) ((off - 0xE000) / 4 % 4) v
  else s

/-! ## Reading BAR0 (Tables FP-2, FP-4, FP-9) -/

/-- FN_ID of a function (Table FP-2). -/
def fnId (s : State) (f : Nat) : Nat := f % 64 + 64 * (f / 64) + 256 * ownedCount s 0x3100 0x3200 f

/-- FN_STAT of a function (Table FP-2). -/
def fnStat (s : State) (f : Nat) : Nat :=
  let r := funcOf s f
  b2n (decide (s.now < r.evtUntil)) + 2 * b2n (decide (s.now < r.snapUntil)) + 4 * b2n r.lost + 8 * b2n r.flrSince.isSome

/-- The word at 0x08 of a ring's registers (Table FP-4). -/
def ringStat (s : State) (h : Nat) : Nat :=
  let r := ringOf s h
  b2n (votedB s (K.ringEnable h)) + 2 * b2n (r.resize.any (· < r.order)) + 4 * b2n r.dberr + 8 * b2n r.stopped + 256 * ringOrderNow s h + 65536 * h

/-- A BAR0 register as the host reads it; reserved offsets and ungranted rings read 0 (R52, R56). -/
def readRegister (s : State) (f off : Nat) : Nat :=
  let r := funcOf s f
  if off = 0x0000 then fnId s f
  else if off = 0x0004 then fnStat s f
  else if off = 0x0008 then r.epoch % 2 ^ 32
  else if 0x1000 ≤ off ∧ off < 0x1400 then
    match ringFor s f ((off - 0x1000) / 0x40) with
    | none => 0
    | some h =>
      let x := ringOf s h
      let o := off % 0x40
      if o = 0 then x.head else if o = 4 then x.tail else if o = 8 then ringStat s h else if o = 0xC then x.cqTail
      else if o = 0x10 then x.cqHead else if o = 0x14 then x.drop else 0
  else if off = 0x3000 then r.evtPend
  else if off = 0x3004 then r.evtMask
  else if 0x3040 ≤ off ∧ off < 0x3060 ∧ off % 4 = 0 then sumN 4 (fun j => 256 ^ j * tget r.evtVec (off - 0x3040 + j) 0)
  else if off = 0x4000 then r.snapSel
  else if off = 0x4004 then b2n (decide (r.snapUntil ≤ s.now ∧ r.snapUntil ≠ 0)) + 2 * b2n r.snapErr + 256 * r.snapTag
  else if off = 0x4008 then r.snapVal % 2 ^ 32
  else if off = 0x400C then r.snapVal / 2 ^ 32
  else if 0xE000 ≤ off ∧ off < 0xE200 ∧ off % 4 = 0 then
    tget r.msix ((off - 0xE000) / 16) (2 ^ 96) / 2 ^ (32 * ((off - 0xE000) / 4 % 4)) % 2 ^ 32
  else if off = 0xF000 then r.pba
  else 0

/-! ## NOP and unknown opcodes (R60, R61) -/

/-- NOP completes with result 0 (Table FP-6). -/
def execNop (h : CmdHdr) (s : State) : Host.Outcome State Fault Refusal :=
  match beginCmd s h 0x00 [] false with
  | (s, none) => .next s
  | (s, some t) => .next (completeR s t 0 0)

/-- The opcodes of Table FP-6. -/
def knownOp (op : Nat) : Bool := [0x00, 0x01, 0x02, 0x10, 0x11, 0x20, 0x21, 0x30, 0x31, 0x40, 0x50].contains op

/-- COMMAND_BADOP: dropped, counted and answered whatever COMPLETE says; with a failed source check it is a spoofed command (R61,
log 93). -/
def execCommandBadop (h : CmdHdr) (op : BitVec 8) (s : State) : Host.Outcome State Fault Refusal :=
  let s := voteRing s h.ring
  if !canFetch s h.ring ∨ knownOp op.toNat then .next s
  else
    let (s, t) := takeCmd s h op.toNat []
    let bad := failedChecks s h op.toNat false false
    if bad % 16 ≠ 0 then .next (spoof s t h bad) else .next (completeOpenAlways (countDrop s h.ring t.func) t 2)

end Sys2Proof.Machine
end

