-- ==== Sys2Proof/Machine/Mixer.lean ====
section
/-!
DEFINITION. The mixer (R389, R396 to R399): gains and their ramps, the samples of the inputs, the chime over the mix, the sample frames of
the outputs, the TDM slots and the talkers. Samples are whole numbers of 24 bits.
-/

namespace Sys2Proof.Machine

/-- snd.state codes (Table HS-8). -/
def sndOff : Nat := 0
def sndStarting : Nat := 1
def sndRun : Nat := 2
def sndStopping : Nat := 3

/-- The state of the audio engine. -/
def sndSt (s : State) : Nat := getN s K.sndState

/-- Changes the sound record. -/
def modSnd (s : State) (g : Snd → Snd) : State := { s with snd := g s.snd }

/-- The frames of a period of 1 ms (R392). -/
def periodFrames (s : State) : Nat := getN s K.sndRate / 1000

/-- The index of a stream's record: inputs at 4C10, captures at 4C60 (R391). -/
def streamIdx (capture : Bool) (n : Nat) : Nat := (if capture then 0x4C60 else 0x4C10) + n

/-- An object of a stream's record. -/
def streamN (s : State) (capture : Bool) (n sub : Nat) : Nat := getN s (objKey (streamIdx capture n) sub)

/-! ## Gains (R389) -/

/-- The amplitude of a gain in 0.1 dB, as a two's complement pattern of 16 bits: 0 for -32768, 10^(g/200) where that is a power of ten,
and as the module holds it elsewhere (log 283). -/
def amplitude (g : Nat) : ℚ :=
  let i := signedOf 16 g
  if i = -32768 then 0
  else if i % 200 = 0 then (10 : ℚ) ^ (i / 200)
  else Config.amplitude i

/-- The amplitude in force of a gain object at an instant: 5 ms after a write it has moved linearly to the object's value. -/
def gainAt (s : State) (k t : Nat) : ℚ :=
  let goal := amplitude (getN s k)
  match tfind s.snd.ramps k with
  | some (from_, start) => if t < start + 5000000 then from_ + (goal - from_) * ((t - start : Nat) : ℚ) / 5000000 else goal
  | none => goal

/-- A write changes a gain object: its amplitude moves from where it stands (R389). -/
def rampGain (s : State) (k v : Nat) : State :=
  let s' := if getN s k = v then s else modSnd s (fun x => { x with ramps := tset x.ramps k (gainAt s k s.now, s.now) })
  writeN s' k v

/-! ## Samples -/

/-- An exact value as a sample: between two samples the module takes one of them, and the spec does not say which (log 283). -/
def sampleOf (q : ℚ) : Int := if (⌊q⌋ : ℚ) = q then ⌊q⌋ else if Config.sampleUp q then ⌊q⌋ + 1 else ⌊q⌋

/-- A sample held to `n` bits of two's complement. -/
def saturateTo (n : Nat) (i : Int) : Int := max (-(2 ^ (n - 1) : Nat)) (min ((2 ^ (n - 1) : Nat) - 1) i)

/-- A sample of a host ring (Table HS-9): bits [31:8] of a word, or 16 bits, the sample's upper ones. -/
def hostSample (fmt : Nat) (b : List Byte) : Int :=
  if fmt = 0 then signedOf 24 (ofLe b / 256) else 256 * signedOf 16 (ofLe b)

/-- A listener's sample of a channel at an instant: each frame plays at its presentation time, and 0 where no packet covers it (R397). -/
def listenerSample (s : State) (l ch t : Nat) : Int :=
  match (tget s.snd.held l []).find? (fun k => decide (k.1 ≤ t ∧ t < k.1 + 125000)) with
  | none => 0
  | some k =>
    let frames := getN s K.sndRate / 8000
    let chans := k.2.length / frames
    let f := (t - k.1) * getN s K.sndRate / 1000000000
    if ch < chans then (k.2.getD (f * chans + ch) 0).toInt else 0

/-- What comes in on the TDM ports: the samples of a slot (8 × port + slot), frame by frame; a slot that the list lacks carries 0. -/
abbrev TdmIn := Tab (List (BitVec 24))

/-- A captured sample (R391): channel `ch` of capture `c` in frame `j`, at an instant. A capture of several channels takes as many slots,
or channels, from its first on (log 283). -/
def captureSample (s : State) (tdm : TdmIn) (c ch j t : Nat) : Int :=
  let src := streamN s true c 8 + ch
  if streamN s true c 2 = 0 then ((tget tdm (src % 32) []).getD j 0).toInt
  else listenerSample s (src / 8) (src % 8) t

/-- The host group that an input belongs to: the head of it, where that runs. -/
def groupHead (s : State) (i : Nat) : Option Nat :=
  (List.range (min (i + 1) 8)).map (fun d => i - d) |>.find? (fun h =>
    streamN s false h 11 != 0 && (h == i || (streamN s false h 2 == 0 && decide (i < h + streamN s false h 3))))

/-- The sample x(i) of an input in frame `j`, at an instant (R389, Table HS-9); 0 for an input that does not run. -/
def inputSample (s : State) (tdm : TdmIn) (i j t : Nat) : Int :=
  match groupHead s i with
  | none => 0
  | some h =>
    let kind := streamN s false h 2
    let src := streamN s false h 8
    if kind = 0 then (tget s.snd.taken i []).getD j 0
    else if kind = 1 then listenerSample s (src / 8) (src % 8) t
    else captureSample s tdm src 0 j t

/-! ## The chime (R398, R399) -/

/-- A word of a clip as a sample. -/
def clipWord (b : List Byte) (k : Nat) : Int := signedOf 24 (ofLe ((b.drop (4 * k)).take 4) / 256)

/-- The sample of a chime that began at an instant: none once its repeats are over. At 96 kHz a frame between two of the clip's words
lies halfway between them (R398); after the last word comes the first of the next repeat, or 0. -/
def clipSample (s : State) (clip reps start t : Nat) : Option ℚ :=
  let b := getBytes s (K.chimeClip clip)
  let n := b.length / 4
  let rate := getN s K.sndRate
  let f := (t - start) * rate / 1000000000
  let step := rate / 48000
  let k := f / step
  if n = 0 then some 0
  else if reps ≠ 0 ∧ reps * n ≤ k then none
  else
    let a : ℚ := clipWord b (k % n)
    let z : ℚ := if reps ≠ 0 ∧ reps * n ≤ k + 1 then 0 else clipWord b ((k + 1) % n)
    some (if f % step = 0 then a else (a + z) / 2)

/-- The chime's sample at an instant: that of the chime that sounds, or of one that has stopped since (R398). -/
def chimeSample (s : State) (t : Nat) : Option ℚ :=
  match s.snd.chime with
  | some (clip, reps, start) =>
    if start ≤ t then clipSample s clip reps start t else past t
  | none => past t
where
  /-- Of a chime that has ended. -/
  past (t : Nat) : Option ℚ :=
    match s.snd.past.find? (fun e => decide (e.2.2.1 ≤ t ∧ t < e.2.2.2)) with
    | some (clip, reps, start, _) => clipSample s clip reps start t
    | none => none

/-- The chime's run is noted, for the frames of it that are not yet formed. -/
def notePast (s : State) : State :=
  match s.snd.chime with
  | some (clip, reps, start) => modSnd s (fun x => { x with past := (clip, reps, start, s.now) :: x.past })
  | none => s

/-! ## Output frames -/

/-- The inputs that an output hears: those whose gain g(o, i) is not mute, or moves. -/
def mixInputs (s : State) (o : Nat) : List Nat :=
  (List.range 64).filter (fun i => getN s (K.mixGain o i) != 32768 || (tfind s.snd.ramps (K.mixGain o i)).isSome)

/-- The exact y(o) of a frame (R389): nothing while the engine does not run. -/
def mixExact (s : State) (tdm : TdmIn) (ins : List Nat) (o j t : Nat) : ℚ :=
  if sndSt s ≠ sndRun then 0
  else gainAt s (K.soGain o) t
    * (ins.map (fun i => gainAt s (K.mixGain o i) t * gainAt s (K.inGain i) t * (inputSample s tdm i j t : ℚ))).sum

/-- One output's sample: the mix, with the chime over it where chime.outputs names the output (R399). -/
def outSample (s : State) (o t : Nat) (y : Int) : Int :=
  if bitOf (getN s K.chimeOutputs) o then
    match chimeSample s t with
    | some c => saturateTo 24 (sampleOf (c * amplitude (getN s K.chimeLevel) + y * amplitude (getN s K.chimeDuck)))
    | none => y
  else y

/-- The instant of frame `j` of the period that began at `t0`. -/
def frameTime (s : State) (t0 j : Nat) : Nat := t0 + j * 1000000000 / getN s K.sndRate

/-- One output's frames of the period that began at `t0`, with how many samples of the mix were saturated. -/
def outFrames (s : State) (tdm : TdmIn) (t0 o : Nat) : List Int × Nat :=
  let ins := mixInputs s o
  let ys := (List.range (periodFrames s)).map (fun j => (j, sampleOf (mixExact s tdm ins o j (frameTime s t0 j))))
  (ys.map (fun e => outSample s o (frameTime s t0 e.1) (saturateTo 24 e.2)), (ys.filter (fun e => saturateTo 24 e.2 ≠ e.2)).length)

/-- The output that a TDM slot (8 × port + slot) carries: of several that name it the first (log 283). -/
def slotOutput (s : State) (slot : Nat) : Option Nat :=
  (List.range 32).find? (fun o =>
    let v := getN s (K.soTdm o)
    bitOf v 7 && v % 4 == slot / 8 && v / 4 % 8 == slot % 8)

/-- Whether audio_mclk runs: while the engine runs, and low otherwise (R499). -/
def audioMclk (s : State) : Bool := sndSt s == sndRun

/-- Whether a TDM port drives its clock, frame sync and data: high impedance while it is not enabled (R396, R499). -/
def tdmDrives (s : State) (p : Nat) : Bool := getB s (K.tdmEnable p)

/-- What the slots of the ports that drive carry: an output's samples, or zeros (R396). A port that is off is high impedance. -/
def tdmOut (s : State) (out : Tab (List Int)) : Tab (List Int) :=
  ((List.range 32).filter (fun k => tdmDrives s (k / 8))).map (fun k =>
    (k, match slotOutput s k with
      | some o => tget out o []
      | none => List.replicate (periodFrames s) 0))

/-- The outputs' frames of the period that began at `t0` are formed (R389, R399), and the slots carry them (R396). -/
def formOutputs (s : State) (tdm : TdmIn) (t0 : Nat) : State :=
  let os := (List.range 32).map (fun o => (o, outFrames s tdm t0 o))
  let out := os.map (fun e => (e.1, e.2.1))
  let s := os.foldl (fun s e => if e.2.2 = 0 then s else bumpBy s (K.soClip e.1) e.2.2) s
  modSnd s (fun x => { x with
    out := out, tdm := tdmOut s out, past := x.past.filter (fun e => decide (s.now < e.2.2.2 + 1000000)) })

/-- The channels of a talker that outputs name, up to the last (R389, R397). -/
def talkerOutput (s : State) (t ch : Nat) : Option Nat :=
  (List.range 32).find? (fun o =>
    let v := getN s (K.soAvtp o)
    bitOf v 7 && v % 8 == t && v / 8 % 8 == ch)

/-- A talker's packet: the frames of the 125 µs, interleaved, of the outputs as they were last formed; a channel between named ones that no
output names carries 0 (R397). -/
def talkerPacket (s : State) (t : Nat) : List Int :=
  let chans := ((List.range 8).filter (fun c => (talkerOutput s t c).isSome)).foldl (fun m c => max m (c + 1)) 0
  let n := getN s K.sndRate / 8000
  let at_ := (s.now - s.snd.periodAt) / 125000 % 8 * n
  (List.range n).flatMap (fun j => (List.range chans).map (fun c => match talkerOutput s t c with
    | some o => (tget s.snd.out o []).getD (at_ + j) 0
    | none => 0))

end Sys2Proof.Machine
end

