-- ==== Sys2Proof/Machine/Sound.lean ====
section
/-!
DEFINITION. Sound (R388 to R401): the audio engine's start and stop, input and capture streams, the period, IEEE 1722 packets,
the clock's lock, the trusted chime, and the meanings of their commands.
-/

namespace Sys2Proof.Machine

/-- The functions a stream's events reach: its owner (R401). -/
def streamFuncs (s : State) (capture : Bool) (n : Nat) : List Nat := [streamN s capture n 1]

/-- SND_START or SND_STOP (Table HS-11). -/
def streamEvent (s : State) (capture : Bool) (n code : Nat) : State :=
  emit s 6 code n (leBytes 1 (b2n capture) ++ leBytes 1 n) (streamFuncs s capture n)

/-! ## Streams (R391) -/

/-- A stream enters RUN. The position it starts from is not stated: it is a free value. -/
def streamRuns (s : State) (capture : Bool) (n : Nat) : State :=
  let pos := Config.freeNat s.fresh % 2 ^ 32
  let s := modSnd (draw s) (fun x => if capture then { x with wr := tset x.wr n pos } else { x with rd := tset x.rd n pos })
  streamEvent (putN s (objKey (streamIdx capture n) 11) 1) capture n 0x0600

/-- A stream leaves RUN. -/
def streamStops (s : State) (capture : Bool) (n : Nat) : State :=
  if streamN s capture n 11 = 0 then s
  else streamEvent (putN s (objKey (streamIdx capture n) 11) 0) capture n 0x0601

/-- The inputs that a record's group occupies: `chans` of a host ring, else one. -/
def groupSpan (s : State) (i : Nat) : Nat := if streamN s false i 2 = 0 then streamN s false i 3 else 1

/-- Whether an input group would overlap another enabled group, or a group of another owner, or run past input 63 (R391). -/
def groupClash (s : State) (i owner span : Nat) : Bool :=
  decide (64 < i + span) || (List.range 64).any (fun j => j != i
    && decide (j < i + span ∧ i < j + groupSpan s j)
    && (streamN s false j 9 == 1 || (streamN s false j 1 != 0xFF && streamN s false j 1 != owner)))

/-- Whether a session may write a subindex of a stream's record: the manager 01, 02 and 08, the owner the others (R391), which of a
stream without an owner the manager writes (Table DI-5, log 94). -/
def streamAccess (s : State) (c : WCtx) (capture : Bool) (n sub : Nat) : Bool :=
  let o := streamN s capture n 1
  if sub = 1 ∨ sub = 2 ∨ sub = 8 then c.isMgr else c.func == o || c.role == .tw || (c.role == .mgr && o == 0xFF)

/-- The checks of a write to a stream's record (R391). -/
def streamCheck (s : State) (capture : Bool) (n sub v : Nat) : Status :=
  let f := streamN s capture n 1
  let kind := if sub = 2 then v else streamN s capture n 2
  let chans := if sub = 3 then v else streamN s capture n 3
  let owner := if sub = 1 then v else f
  let span := if kind = 0 then chans else 1
  let p := periodFrames s
  let badValue :=
    if sub = 1 then
      v != f && v != 0xFF && (!funcExists s v || (!capture && overGrant s v (ownedCount s 0x4C10 0x4C50 v) (getN s (K.grantStreams v))))
    else if sub = 4 ∨ sub = 6 then v % 64 != 0
    else if sub = 5 then v % p != 0 || decide (v < 2 * p)
    else if sub = 8 then !capture && kind == 2 && decide (16 ≤ v)
    else false
  let clash := !capture && (sub = 1 || sub = 2 || sub = 3 || (sub = 9 && v = 1)) && owner != 0xFF && groupClash s n owner span
  firstRefusal [(badValue || clash, .range), (decide (3 ≤ sub ∧ sub ≤ 8) && streamN s capture n 9 == 1, .busy)]

/-- The effect of an accepted write to a stream's record. -/
def streamApply (s : State) (capture : Bool) (n sub v : Nat) : State :=
  let k := objKey (streamIdx capture n) sub
  let s' := if sub = 10 then rampGain s k v else writeN s k v
  if sub = 9 ∧ v ≠ streamN s capture n 9 then
    if v = 1 then if sndSt s = sndRun then streamRuns s' capture n else s'
    else streamStops s' capture n
  else s'

/-! ## Start and stop (R390) -/

/-- Every stream of the module: captures and inputs. -/
def allStreams : List (Bool × Nat) := (List.range 64).map (fun n => (false, n)) ++ (List.range 16).map (fun n => (true, n))

/-- The engine runs once PD22 is on: clock, ports and enabled streams start. -/
def sndTryRun (s : State) : State :=
  if sndSt s = sndStarting ∧ domSt s 22 = domOn then
    let s := putB (putN (modSnd s (fun x => { x with periodAt := s.now, taken := [] })) K.sndState sndRun) K.sndLocked (getB s K.timeLocked)
    allStreams.foldl (fun s e => if streamN s e.1 e.2 9 = 1 then streamRuns s e.1 e.2 else s) s
  else s

/-- A write of true to snd.enable: PD22 is powered. -/
def startSound (s : State) : State := sndTryRun (settle (putN (writeB s K.sndEnable true) K.sndState sndStarting))

/-- A queued enable runs (R48, R439). -/
def sndQueued (s : State) : State :=
  if s.transit.contains K.sndEnable && sndSt s == sndOff && !anyStopping s [22] then
    startSound (resolved s 22 0x4C00 1)
  else s

/-- The outputs are silent: every stream leaves RUN, held packets are gone. -/
def silence (s : State) : State :=
  let s := allStreams.foldl (fun s e => streamStops s e.1 e.2) s
  putB (modSnd s (fun x => { x with held := [], lateRun := [], taken := [] })) K.sndLocked false

/-- The shut-down is over when PD22 no longer stops for it. -/
def sndStopCheck (s : State) : State :=
  if sndSt s = sndStopping ∧ domSt s 22 ≠ domStopping then sndQueued (putN s K.sndState sndOff) else s

/-- The shut-down of the sound: the outputs go silent and PD22 powers down, if nothing else holds it. -/
def shutSound (s : State) : State := sndStopCheck (settle (putN (silence s) K.sndState sndStopping))

/-- A write of false to snd.enable. -/
def stopSound (s : State) : State :=
  let s := writeB s K.sndEnable false
  if sndSt s = sndOff ∨ sndSt s = sndStopping then s else shutSound s

/-- The effect of an accepted write to snd.enable. -/
def sndEnableApply (s : State) (on : Bool) : State × Status :=
  enableWrite s K.sndEnable on (sndSt s == sndStopping || anyStopping s [22]) startSound stopSound

/-- Ends a chime: chime.state returns to 0 (R399). -/
def endChime (s : State) : State := putN (modSnd (notePast s) (fun x => { x with chime := none })) K.chimeState 0

/-- PD22 went off or was cut: streams and chime are lost (R400, R457). -/
def cutSound (s : State) : State :=
  let s := modSnd (endChime s) (fun x => { x with past := [], out := [], tdm := [], packets := [] })
  if sndSt s = sndOff then s
  else
    let s := silence s
    if sndSt s = sndStopping then sndStopCheck s else putN s K.sndState sndStarting

/-- A function-level reset begins: the VF's inputs fall silent and its captures write no more (R395). -/
def flrSound (s : State) (f : Nat) : State :=
  allStreams.foldl (fun s e => if streamN s e.1 e.2 1 = f then streamStops s e.1 e.2 else s) s

/-- A function-level reset completes: the VF's streams read their defaults, their owner apart (R395). -/
def flrSoundDone (s : State) (f : Nat) : State :=
  allStreams.foldl (fun s e =>
    if streamN s e.1 e.2 1 = f then
      foldN [9, 3, 4, 5, 6, 7, 8, 10] (fun s sub => writeV s (objKey (streamIdx e.1 e.2) sub) (defaultVal (objKey (streamIdx e.1 e.2) sub))) s
    else s) s

/-- A VF's streams go back to the pool (R286). -/
def freeStreams (s : State) (f : Nat) : State :=
  allStreams.foldl (fun s e => if streamN s e.1 e.2 1 = f then writeN s (objKey (streamIdx e.1 e.2) 1) 0xFF else s) s

/-! ## The period (R393, R394) -/

/-- SND_XRUN; the count it carries is not stated further: a free value. -/
def xrunEvent (s : State) (kind n : Nat) (fs : List Nat) : State :=
  emit (draw s) 6 0x0602 n (leBytes 1 kind ++ leBytes 1 n ++ leBytes 4 (Config.freeNat s.fresh)) fs

/-- The samples that a host input takes: `n` frames from a position of its ring on, a list for each of its channels, with zeros for the
rest of the period (R393). -/
def takenSamples (s : State) (i pos n : Nat) : List (List Int) :=
  let f := streamN s false i 1
  let chans := streamN s false i 3
  let frames := streamN s false i 5
  let size := if streamN s false i 7 = 0 then 4 else 2
  (List.range chans).map (fun c => (List.range (periodFrames s)).map (fun j =>
    if j < n ∧ frames ≠ 0 then
      hostSample (streamN s false i 7) (hostRead s f (streamN s false i 4 + ((pos + j) % frames * chans + c) * size) size)
    else 0))

/-- One running host input takes its period: what the ring holds, up to a period; a shortfall counts as starved (R393). -/
def inputPeriod (s : State) (i wr : Nat) : State :=
  let f := streamN s false i 1
  let ctrl := streamN s false i 6
  let rd := tget s.snd.rd i 0
  let have_ := (wr + 2 ^ 32 - rd) % 2 ^ 32
  let p := periodFrames s
  let rd' := (rd + min have_ p) % 2 ^ 32
  let s := { s with host := memSetAll s.host (hostKey f ctrl) (leBytes 4 wr) }
  let taken := takenSamples s i rd (min have_ p)
  let s := modSnd s (fun x => { x with
    rd := tset x.rd i rd', taken := taken.zipIdx.foldl (fun t e => tset t (i + e.2) e.1) x.taken })
  let was := streamN s false i 11
  let s :=
    if p ≤ have_ then putN s (K.inState i) 1
    else
      let s := putN (bump s (K.inXrun i)) (K.inState i) 2
      if was = 2 then s else xrunEvent s 0 i [f]
  hostWrite s f (ctrl + 4) (leBytes 4 rd' ++ leBytes 8 s.now ++ leBytes 4 (getN s (K.inXrun i)))

/-- Writes frames into a ring at its position, wrapping at its end. -/
def ringWrite (s : State) (f base frames size pos : Nat) (data : List Byte) : State :=
  let at_ := pos % frames * size
  let first := frames * size - at_
  let s := hostWrite s f (base + at_) (data.take first)
  if data.length ≤ first then s else hostWrite s f base (data.drop first)

/-- The bytes of a captured sample: in [31:8] of a word, or its upper 16 bits (Table HS-9); the word's low byte is free. -/
def sampleBytes (fmt : Nat) (x : Int) : List Byte :=
  if fmt = 0 then Config.capturePad :: leBytes 3 (toSigned 24 x) else leBytes 2 (toSigned 16 (saturateTo 16 (sampleOf ((x : ℚ) / 256))))

/-- One running capture writes the frames of the period that began at `t0`. Without space the period is discarded and counted (R394). -/
def capturePeriod (s : State) (tdm : TdmIn) (t0 c rd : Nat) : State :=
  let f := streamN s true c 1
  let ctrl := streamN s true c 6
  let wr := tget s.snd.wr c 0
  let frames := streamN s true c 5
  let p := periodFrames s
  let size := streamN s true c 3 * (if streamN s true c 7 = 0 then 4 else 2)
  let s := { s with host := memSetAll s.host (hostKey f (ctrl + 4)) (leBytes 4 rd) }
  if frames < (wr + 2 ^ 32 - rd) % 2 ^ 32 + p then xrunEvent (bump s (K.capXrun c)) 1 c [f]
  else
    let data := (List.range p).flatMap (fun j => (List.range (streamN s true c 3)).flatMap (fun ch =>
      sampleBytes (streamN s true c 7) (captureSample s tdm c ch j (frameTime s t0 j))))
    let s := ringWrite s f (streamN s true c 4) frames size wr data
    let wr' := (wr + p) % 2 ^ 32
    let s := modSnd s (fun x => { x with wr := tset x.wr c wr' })
    let s := hostWrite s f ctrl (leBytes 4 wr')
    hostWrite s f (ctrl + 8) (leBytes 8 t0 ++ leBytes 4 (getN s (K.capXrun c)))

/-- A position of the operand's list, or what host memory holds. -/
def hostCount (s : State) (l : List (Nat × BitVec 32)) (n f a : Nat) : Nat :=
  match l.find? (fun e => e.1 == n) with
  | some e => e.2.toNat
  | none => ofLe (hostRead s f a 4)

/-! ## Commands -/

/-- STREAM_ENABLE is a write of in.en or the capture's en; AUDIO_PERIOD: each 1 ms, the outputs' frames of the period that ends are
formed, the running captures written, and, for the next, the running host inputs are read; the packets that have played go (R389, R393,
R394, R397, R399, log 282). While PD22 is on without the engine, the chime alone sounds (R400). -/
def execAudioPeriod (a : AudioIn) (s : State) : Host.Outcome State Fault Refusal :=
  if domSt s 22 ≠ domOn ∧ sndSt s ≠ sndRun ∨ s.now < s.snd.periodAt + 1000000 then .next s
  else
    let t0 := s.now - 1000000
    let s := modSnd (formOutputs s a.tdm t0) (fun x => { x with periodAt := s.now })
    if sndSt s ≠ sndRun then .next s
    else
      let s := foldN (List.range 64) (fun s i =>
        if streamN s false i 11 ≠ 0 ∧ streamN s false i 2 = 0 then
          inputPeriod s i (hostCount s a.inputWr i (streamN s false i 1) (streamN s false i 6))
        else s) s
      let s := foldN (List.range 16) (fun s c =>
        if streamN s true c 11 ≠ 0 then
          capturePeriod s a.tdm t0 c (hostCount s a.captureRd c (streamN s true c 1) (streamN s true c 6 + 4))
        else s) s
      .next (modSnd s (fun x => { x with held := x.held.map (fun e => (e.1, e.2.filter (fun k => decide (s.now < k.1 + 125000)))) }))

/-- AVTP_PACKET_RX: a packet is held for its presentation time, or dropped when late (R397). -/
def execAvtpPacketRx (listener : Fin 8) (presentation : BitVec 64) (samples : List (BitVec 24)) (s : State) :
    Host.Outcome State Fault Refusal :=
  if sndSt s ≠ sndRun then .next s
  else if presentation.toNat < s.now then
    let first := !s.snd.lateRun.contains listener.val
    let s := modSnd s (fun x => { x with
      late := tset x.late listener (satInc 32 (tget x.late listener 0))
      lateRun := if first then listener.val :: x.lateRun else x.lateRun })
    .next (if first then xrunEvent s 3 listener [] else s)
  else
    .next (modSnd s (fun x => { x with
      held := tset x.held listener (tget x.held listener [] ++ [(presentation.toNat, samples)])
      lateRun := x.lateRun.filter (· ≠ listener.val) }))

/-- AVTP_PACKET_TX: every 125 µs a talker sends a packet stamped with module time plus snd.pto (R397). -/
def execAvtpPacketTx (talker : Fin 8) (s : State) : Host.Outcome State Fault Refusal :=
  let last := tget s.snd.sent talker (0, 0, 0)
  if sndSt s ≠ sndRun ∨ (0 < last.1 ∧ s.now < last.2.2 + 125000) then .next s
  else
    .next (modSnd s (fun x => { x with
      sent := tset x.sent talker (last.1 + 1, (s.now + getN s K.sndPto * 1000) % 2 ^ 64, s.now)
      packets := tset x.packets talker (talkerPacket s talker) }))

/-- CLOCK_LOCK_CHANGE: IEEE 802.1AS lock is gained or lost; the audio clock follows (R388). -/
def execClockLockChange (locked : Bool) (s : State) : Host.Outcome State Fault Refusal :=
  let s := putB s K.timeLocked locked
  .next (if sndSt s = sndRun then putB s K.sndLocked locked else s)

/-- CHIME_START: the trusted world starts a clip, replacing one that sounds; none starts while it does not run or PD22 is off
(R398, R400). -/
def execChimeStart (clip : Fin 16) (repeats : BitVec 8) (s : State) : Host.Outcome State Fault Refusal :=
  if getN s K.kaolinTw ≠ 0 ∨ domSt s 22 ≠ domOn then .next s
  else .next (putN (modSnd (notePast s) (fun x => { x with chime := some (clip.val, repeats.toNat, s.now) })) K.chimeState (clip.val + 1))

/-- CHIME_STOP: the trusted world stops the chime (R398). -/
def execChimeStop (s : State) : Host.Outcome State Fault Refusal :=
  if getN s K.kaolinTw ≠ 0 then .next s else .next (endChime s)

/-- CHIME_END: a chime has sounded its repeats (R398). -/
def execChimeEnd (s : State) : Host.Outcome State Fault Refusal :=
  match s.snd.chime with
  | none => .next s
  | some (clip, reps, start) =>
    let ns := (getBytes s (K.chimeClip clip)).length / 4 * 1000000000 / 48000
    if reps ≠ 0 ∧ start + reps * ns ≤ s.now then .next (endChime s) else .next s

end Sys2Proof.Machine
end

