-- ==== Sys2Proof/Machine/Touch.lean ====
section
/-!
DEFINITION. Touch (R334 to R365): grids and lines, baselines, contacts, routing, reports, Drift, self-tests, the start and stop
of a panel, zones, and the meanings of their commands.
-/

namespace Sys2Proof.Machine

/-- panel.state codes (Table TO-6). -/
def panOff : Nat := 0
def panStarting : Nat := 1
def panActive : Nat := 2
def panDrift : Nat := 3
def panStopping : Nat := 4
def panFailed : Nat := 5

/-- The record of a panel. -/
def panelOf (s : State) (p : Nat) : Panel := tget s.panels p {}

/-- Changes the record of a panel. -/
def modPanel (s : State) (p : Nat) (g : Panel → Panel) : State := { s with panels := tset s.panels p (g (panelOf s p)) }

/-- The state of a panel. -/
def panSt (s : State) (p : Nat) : Nat := getN s (K.panelState p)

/-- The lines of a panel: TX and RX. -/
def panTx (s : State) (p : Nat) : Nat := getN s (K.panelTx p)
def panRx (s : State) (p : Nat) : Nat := getN s (K.panelRx p)

/-- The 16-bit entries of a byte string. -/
def u16s : List Byte → List Nat
  | a :: b :: r => (a.toNat + 256 * b.toNat) :: u16s r
  | _ => []

/-- The entries of a panel's line map (R337). -/
def lineMap (s : State) (p : Nat) : List Nat := u16s (getBytes s (K.panelLines p))

/-- The masked lines of a panel (R360). -/
def maskedLines (s : State) (p : Nat) : List Nat := u16s (getBytes s (K.panelMaskLines p))

/-- What drives a pad: nothing (high impedance), the line that it serves, or the shield waveform. -/
inductive PadDrive where
  | highImpedance
  | line (n : Nat)
  | shield
  deriving DecidableEq, Repr

/-- The panel that a chiplet serves (R336). -/
def servedPanel (s : State) (c : Nat) : Option Nat := (List.range 4).find? (fun p => bitOf (getN s (K.panelChips p)) c)

/-- The drive of pad e of a chiplet (R506): high impedance where the chiplet serves no panel or its domain is not on; while its panel runs,
the line that names the pad, and the shield waveform on a pad that no line names or whose line is masked. Of a panel that does not run the
spec says nothing: none (log 285). -/
def padDrive (s : State) (c e : Nat) : Option PadDrive :=
  match servedPanel s c with
  | none => some .highImpedance
  | some p =>
    if domSt s (19 + c / 2) ≠ domOn then some .highImpedance
    else if panSt s p = panActive ∨ panSt s p = panDrift then
      match (lineMap s p).findIdx? (· == c * 256 + e) with
      | some l => if (maskedLines s p).contains l then some .shield else some (.line l)
      | none => some .shield
    else none

/-- The VF with a touch region on the panel that contains a point (R352). -/
def touchOwner (s : State) (p x y : Nat) : Option Nat :=
  (List.range 64).find? (fun v => vfOn s v && (List.range 8).any (fun q =>
    let xy := getN s (K.tregionXy v q)
    let wh := getN s (K.tregionWh v q)
    getN s (K.tregionPort v q) == p && decide (xy % 65536 ≤ x ∧ x < xy % 65536 + wh % 65536
      ∧ xy / 65536 ≤ y ∧ y < xy / 65536 + wh / 65536)))

/-- Whether a function holds a touch region on a panel. -/
def hasTouchRegion (s : State) (f p : Nat) : Bool :=
  0 < f && f < 64 && (List.range 8).any (fun q => getN s (K.tregionPort f q) == p)

/-- The functions that a panel's events reach (R365). -/
def touchFuncs (s : State) (p : Nat) : List Nat := (List.range 64).filter (fun f => hasTouchRegion s f p)

/-- The whole number that an object holds for a count that may have a fraction: below or above it by less than one, which of the
two the spec does not say. -/
def wholeOf (draw : Nat) (q : ℚ) : Nat :=
  if q.den = 1 ∨ q < 0 then q.floor.toNat else q.floor.toNat + b2n (Config.freeBit draw)

/-! ## Signals (R340, R346) -/

/-- The factory reference of a node, where panel.ref holds a value for every node: mutual nodes, then lines (R340, R344). -/
def refOf (s : State) (p : Nat) : Option (List Nat) :=
  let r := u16s (getBytes s (K.panelRef p))
  if r.length = panTx s p * panRx s p + panTx s p + panRx s p then some r else none

/-- A node's signal against its baseline (R340). -/
def baseSignal (P : Panel) (grid i : Nat) : ℚ :=
  let b := P.base.getD i 0
  let r : ℚ := (P.raw.getD i 0 : Nat)
  if i < grid then b - r else r - b

/-- A node's signal against the stored reference (R340). -/
def refSignal (ref : List Nat) (P : Panel) (grid i : Nat) : ℚ :=
  let b : ℚ := (ref.getD i 0 : Nat)
  let r : ℚ := (P.raw.getD i 0 : Nat)
  if i < grid then b - r else r - b

/-- The signal by which a node counts as touched: the reference signal of a suspect node, else its own (R346). -/
def touchSignal (ref : List Nat) (P : Panel) (grid i : Nat) : ℚ :=
  if (tfind P.sus i).isSome then refSignal ref P grid i else baseSignal P grid i

/-! ## Objects (R347, R348) -/

/-- Whether two nodes of a grid with `rx` RX lines touch, diagonals included. -/
def nodesTouch (rx a b : Nat) : Bool :=
  decide (a / rx ≤ b / rx + 1 ∧ b / rx ≤ a / rx + 1 ∧ a % rx ≤ b % rx + 1 ∧ b % rx ≤ a % rx + 1)

/-- Grows a set of nodes by all nodes of `rest` that are connected to it. -/
def growSet (rx : Nat) : Nat → List Nat → List Nat → List Nat × List Nat
  | 0, set, rest => (set, rest)
  | n + 1, set, rest =>
    let new := rest.filter (fun b => set.any (fun a => nodesTouch rx a b))
    if new.isEmpty then (set, rest)
    else growSet rx n (set ++ new) (rest.filter (fun b => !new.contains b))

/-- The connected sets of a list of nodes (R347). -/
def connectedSets (rx : Nat) : Nat → List Nat → List (List Nat)
  | 0, _ => []
  | _ + 1, [] => []
  | n + 1, a :: r =>
    let (set, rest) := growSet rx (r.length + 1) [a] r
    set :: connectedSets rx n rest

/-- An object: its nodes, peak node, peak signal and position in line units. -/
structure TouchObject where
  nodes : List Nat
  peak : Nat
  sig : ℚ
  x : ℚ
  y : ℚ
  deriving DecidableEq, Repr

/-- The node of a set with the greatest signal, the first of several. -/
def peakOf (sig : Nat → ℚ) : List Nat → Nat
  | [] => 0
  | a :: r => r.foldl (fun m b => if sig m < sig b then b else m) a

/-- The object of a connected set: its position is the signal-weighted centroid of the 3 × 3 nodes around its peak (R347). -/
def objectOf (tx rx : Nat) (sig : Nat → ℚ) (nodes : List Nat) : TouchObject :=
  let pk := peakOf sig nodes
  let around := (List.range (tx * rx)).filter (fun b => nodesTouch rx pk b)
  let w := fun b => max (sig b) 0
  let total := (around.map w).sum
  { nodes := nodes, peak := pk, sig := sig pk
    x := (around.map (fun b => w b * ((b % rx : Nat) : ℚ))).sum / total
    y := (around.map (fun b => w b * ((b / rx : Nat) : ℚ))).sum / total }

/-- The objects whose nodes exceed a threshold. -/
def objectsAbove (s : State) (p : Nat) (ref : List Nat) (thr : ℚ) : List TouchObject :=
  let tx := panTx s p
  let rx := panRx s p
  let sig := touchSignal ref (panelOf s p) (tx * rx)
  let ns := (List.range (tx * rx)).filter (fun i => decide (thr < sig i))
  (connectedSets rx ns.length ns).map (objectOf tx rx sig)

/-- The area of a number of nodes in µm². -/
def nodeArea (s : State) (p n : Nat) : Nat := n * getN s (K.panelPitchX p) * getN s (K.panelPitchY p)

/-- Whether an object is a large object (R348). -/
def isLarge (s : State) (p : Nat) (o : TouchObject) : Bool :=
  decide (20 < o.nodes.length ∨ 900000000 < nodeArea s p o.nodes.length)

/-- A fraction rounded to the nearest whole number. -/
def roundQ (q : ℚ) : Nat := (q + 1 / 2).floor.toNat

/-- Report coordinates of a position, after orientation (R347). -/
def reportXY (s : State) (p : Nat) (cx cy : ℚ) : Nat × Nat :=
  let rx := getN s (K.panelResX p)
  let ry := getN s (K.panelResY p)
  let o := getN s (K.panelOrient p)
  let x := roundQ (cx * ((rx - 1 : Nat) : ℚ) / ((panRx s p - 1 : Nat) : ℚ))
  let y := roundQ (cy * ((ry - 1 : Nat) : ℚ) / ((panTx s p - 1 : Nat) : ℚ))
  let (x, y, rx, ry) := if bitOf o 0 then (y, x, ry, rx) else (x, y, rx, ry)
  (if bitOf o 1 then rx - 1 - x else x, if bitOf o 2 then ry - 1 - y else y)

/-! ## Reports (R354 to R356) -/

/-- A contact record (Table TO-5) with its state code. -/
def contactRecord (s : State) (p : Nat) (c : Contact) (st : Nat) : List Byte :=
  let rx := panRx s p
  let edge := c.peak % rx == 0 || c.peak % rx + 1 == rx || c.peak / rx == 0 || c.peak / rx + 1 == panTx s p
  leBytes 1 c.id ++ leBytes 1 st ++ leBytes 1 (b2n c.suspect + 2 * b2n edge) ++ leBytes 1 c.nodes.length
    ++ leBytes 2 c.x ++ leBytes 2 c.y ++ leBytes 2 (wholeOf (s.fresh + c.id) c.sig)
    ++ leBytes 2 (roundDiv (nodeArea s p c.nodes.length) 1000000) ++ leBytes 4 0

/-- Inserts a record by its contact's ID. -/
def recordInsert (r : Contact × Nat) : List (Contact × Nat) → List (Contact × Nat)
  | [] => [r]
  | x :: t => if r.1.id < x.1.id then r :: x :: t else x :: recordInsert r t

/-- The records that a function receives: a VF its own contacts, a PF all (R353), ordered by ID. -/
def recordsFor (f : Nat) (rs : List (Contact × Nat)) : List (Contact × Nat) :=
  (rs.filter (fun r => isPf f || r.1.func == some f)).foldl (fun l r => recordInsert r l) []

/-- Writes a function's report: three 64-byte writes, the header last (R356, Table TO-4). -/
def writeReport (s : State) (p f : Nat) (b : TouchBuffer) (rs : List (Contact × Nat)) (palm beyond : Bool) : State :=
  let k := b.count + 1
  let head := leBytes 4 k ++ leBytes 1 p ++ leBytes 1 rs.length
    ++ leBytes 1 (b2n palm + 2 * b2n beyond + 4 * b2n b.wake + 8 * b2n (rs.any (·.1.suspect))) ++ leBytes 1 0
    ++ leBytes 8 (panelOf s p).markAt ++ leBytes 4 (getN s (K.panelFrames p)) ++ leBytes 12 0
  let body := head ++ rs.flatMap (fun r => contactRecord s p r.1 r.2)
  let all := body ++ List.replicate (192 - body.length) 0
  let a := b.addr + 192 * ((k - 1) % b.slots)
  let s := hostWrite s f (a + 64) ((all.drop 64).take 64)
  let s := hostWrite s f (a + 128) ((all.drop 128).take 64)
  let s := hostWrite s f a (all.take 64)
  let s := { s with fresh := s.fresh + 16 }
  let s := modPanel s p (fun P => { P with bufs := tset P.bufs f { b with count := k % 2 ^ 32, palm := palm, wake := false } })
  emit s 4 0x0400 p (leBytes 1 p ++ leBytes 4 k) [f]

/-- Writes the reports of a frame: to each function with a record, or whose PALM flag changes (R356). -/
def writeReports (s : State) (p : Nat) (rs : List (Contact × Nat)) (beyond : Bool) (latency : Nat) : State :=
  let palm := !(panelOf s p).large.isEmpty
  (panelOf s p).bufs.foldl (fun s e =>
    let mine := recordsFor e.1 rs
    if mine.isEmpty && palm == e.2.palm then s
    else
      let s := putN s K.touchLatLast latency
      writeReport (putN s K.touchLatMax (max latency (getN s K.touchLatMax))) p e.1 e.2 mine palm beyond) s

/-- Releases a function's report buffer: its command completes OK (R355). -/
def releaseBuffer (s : State) (p f : Nat) : State :=
  match tfind (panelOf s p).bufs f with
  | none => s
  | some b => complete (modPanel s p (fun P => { P with bufs := tdel P.bufs f })) b.ticket 0 b.count b.count

/-! ## Baselines (R341 to R346) -/

/-- Whether tracking and fast recalibration are suspended: an effect plays on a channel fixed to the panel, or ended within
20 ms (R343). -/
def trackingHeld (s : State) (p : Nat) : Bool :=
  (List.range 16).any (fun n => bitOf (getN s (K.panelHapMask p)) n &&
    (chRuns s n || (chanOf s n).ons.any (fun o => decide (s.now ≤ o.2 + 20 * msec))))

/-- panel.suspect reads the suspect nodes. -/
def showSuspects (s : State) (p : Nat) : State := putN s (K.panelSuspect p) (panelOf s p).sus.length

/-- A node's baseline becomes a value, and it is no longer suspect. -/
def rebase (P : Panel) (i : Nat) (b : ℚ) : Panel := { P with base := P.base.set i b, sus := tdel P.sus i }

/-- Fast recalibration (R342): the second frame's raw count is taken, and at the third frame the baseline becomes the average. -/
def recalStep (s : State) (p : Nat) : State :=
  let P := panelOf s p
  P.recal.foldl (fun s e =>
    match e.2.2 with
    | none => modPanel s p (fun P => { P with recal := tset P.recal e.1 (e.2.1, some (P.raw.getD e.1 0)) })
    | some b =>
      bump (modPanel s p (fun P => { (rebase P e.1 (((e.2.1 + b : Nat) : ℚ) / 2)) with recal := tdel P.recal e.1 }))
        (K.panelRecal p)) s

/-- Fast recalibration begins for every node at −12 counts or lower; in the first frame after a wake its raw count is its
baseline at once (R342, R358). -/
def recalBegin (s : State) (p grid n : Nat) : State :=
  let P := panelOf s p
  let low := (List.range n).filter (fun i => decide (baseSignal P grid i ≤ -12) && (tfind P.recal i).isNone)
  foldN low (fun s i =>
    if P.woke then bump (modPanel s p (fun P => rebase P i ((P.raw.getD i 0 : Nat) : ℚ))) (K.panelRecal p)
    else modPanel s p (fun P => { P with recal := tset P.recal i (P.raw.getD i 0, none) })) s

/-- Slow tracking (R341): outside contacts, large objects and their rings, a baseline moves 1/64 of the difference while the
signal lies between −12 counts and half the threshold. -/
def trackStep (P : Panel) (grid : Nat) (thr : ℚ) (frozen : Nat → Bool) : Panel :=
  { P with base := P.base.zipIdx.map (fun e =>
      let sig := baseSignal P grid e.2
      if -12 ≤ sig ∧ sig ≤ thr / 2 ∧ !frozen e.2 ∧ (tfind P.recal e.2).isNone then
        e.1 + (((P.raw.getD e.2 0 : Nat) : ℚ) - e.1) / 64
      else e.1) }

/-- A suspect node whose signal lies within 12 counts and whose reference signal is below half the threshold for eight frames is
suspect no more (R346). -/
def suspectStep (P : Panel) (ref : List Nat) (grid : Nat) (thr : ℚ) : Panel :=
  { P with sus := P.sus.filterMap (fun e =>
      let sig := baseSignal P grid e.1
      if -12 ≤ sig ∧ sig ≤ 12 ∧ refSignal ref P grid e.1 < thr / 2 then
        if e.2 + 1 = 8 then none else some (e.1, e.2 + 1)
      else some (e.1, 0)) }

/-- The raw counts of a frame with the nodes of masked lines interpolated between the nearest scanned lines of the same axis
(R360): the spec gives no formula, so the value is a free one between the two neighbours, or any count where one is missing. -/
def fillMasked (s : State) (p : Nat) (raw : List Nat) : List Nat :=
  let tx := panTx s p
  let rx := panRx s p
  let masked := maskedLines s p
  if masked.isEmpty then raw
  else
    let lo := fun (f : Nat → Bool) (k : Nat) => ((List.range k).reverse).find? f
    let hi := fun (f : Nat → Bool) (k n : Nat) => (List.range n).find? (fun j => decide (k < j) && f j)
    let pick := fun (i : Nat) (a b : Option Nat) =>
      match a, b with
      | some a, some b => min a b + Config.freeNat (s.fresh + i) % (max a b - min a b + 1)
      | _, _ => Config.freeNat (s.fresh + i) % 4096
    raw.zipIdx.map (fun e =>
      let i := e.2
      if i < tx * rx then
        let t := i / rx
        let r := i % rx
        if masked.contains t then
          pick i ((lo (fun j => !masked.contains j) t).map (fun j => raw.getD (j * rx + r) 0))
            ((hi (fun j => !masked.contains j) t tx).map (fun j => raw.getD (j * rx + r) 0))
        else if masked.contains (tx + r) then
          pick i ((lo (fun j => !masked.contains (tx + j)) r).map (fun j => raw.getD (t * rx + j) 0))
            ((hi (fun j => !masked.contains (tx + j)) r rx).map (fun j => raw.getD (t * rx + j) 0))
        else e.1
      else
        let l := i - tx * rx
        if masked.contains l then
          if l < tx then
            pick i ((lo (fun j => !masked.contains j) l).map (fun j => raw.getD (tx * rx + j) 0))
              ((hi (fun j => !masked.contains j) l tx).map (fun j => raw.getD (tx * rx + j) 0))
          else
            pick i ((lo (fun j => !masked.contains (tx + j)) (l - tx)).map (fun j => raw.getD (tx * rx + tx + j) 0))
              ((hi (fun j => !masked.contains (tx + j)) (l - tx) rx).map (fun j => raw.getD (tx * rx + tx + j) 0))
        else e.1)

/-! ## Contacts (R349 to R352) -/

/-- The square of the distance of an object from a contact's last position, in lines. -/
def distSq (c : Contact) (o : TouchObject) : ℚ := (o.x - c.nx) * (o.x - c.nx) + (o.y - c.ny) * (o.y - c.ny)

/-- The nearest object within three lines. -/
def nearest (c : Contact) (os : List TouchObject) : Option TouchObject :=
  (os.filter (fun o => decide (distSq c o ≤ 9))).foldl (fun m o =>
    match m with
    | none => some o
    | some b => if distSq c o < distSq c b then some o else some b) none

/-- A contact takes an object's place in this frame; its stuck timer restarts when the peak has moved by more than one line
(R351). -/
def moveContact (s : State) (p : Nat) (c : Contact) (o : TouchObject) (suspect : Bool) : Contact :=
  let moved := !nodesTouch (panRx s p) c.ref o.peak
  let xy := reportXY s p o.x o.y
  { c with peak := o.peak, nodes := o.nodes, nx := o.x, ny := o.y, sig := o.sig, x := xy.1, y := xy.2, suspect := suspect
           ref := if moved then o.peak else c.ref, since := if moved then s.now else c.since }

/-- What following the contacts through a frame gives: those that go on, the records, the objects not taken. -/
structure Followed where
  alive : List Contact := []
  records : List (Contact × Nat) := []
  free : List TouchObject := []

/-- Follows the contacts of the last frame: CANCEL where a contact has grown into a large object, MOVE to the nearest object,
also one whose peak is above 0.6 of the threshold, else UP (R348, R349). -/
def follow (s : State) (p : Nat) (large small weak : List TouchObject) (isSus : Nat → Bool) : Followed :=
  (panelOf s p).contacts.foldl (fun (a : Followed) c =>
    if large.any (fun o => o.nodes.contains c.peak) then { a with records := a.records ++ [(c, 5)] }
    else match nearest c a.free with
      | some o =>
        let c' := moveContact s p c o (isSus o.peak)
        { a with alive := a.alive ++ [c'], records := a.records ++ [(c', 2)], free := a.free.filter (fun x => x.peak != o.peak) }
      | none => match nearest c (weak.filter (fun o => !a.alive.any (fun x => x.peak == o.peak))) with
        | some o =>
          let c' := moveContact s p c o (isSus o.peak)
          { a with alive := a.alive ++ [c'], records := a.records ++ [(c', 2)] }
        | none => { a with records := a.records ++ [(c, 3)] })
    { free := small }

/-- A contact begins (R349, R352): the lowest free ID, the VF whose region holds its position; a zone under it plays (R364). -/
def beginContact (s : State) (p : Nat) (used : List Nat) (o : TouchObject) (suspect : Bool) : State × Contact :=
  let id := ((List.range 16).find? (fun i => !used.contains i)).getD 15
  let xy := reportXY s p o.x o.y
  let c : Contact := { id := id, peak := o.peak, nodes := o.nodes, nx := o.x, ny := o.y, func := touchOwner s p xy.1 xy.2
                       ref := o.peak, since := s.now, sig := o.sig, x := xy.1, y := xy.2, suspect := suspect }
  let zone := (List.range 8).find? (fun z =>
    let zxy := getN s (K.zoneXy p z)
    let zwh := getN s (K.zoneWh p z)
    getB s (K.zoneEnable p z) && getB s (K.zoneRun p z) && decide (zxy % 65536 ≤ xy.1 ∧ xy.1 < zxy % 65536 + zwh % 65536
      ∧ zxy / 65536 ≤ xy.2 ∧ xy.2 < zxy / 65536 + zwh / 65536))
  match zone with
  | some z => (zoneEffect s p (getN s (K.zoneChan p z)) (getN s (K.zoneEffect p z)), c)
  | none => (s, c)

/-- Whether two sets of nodes share one. -/
def meets (a b : List Nat) : Bool := a.any (fun x => b.contains x)

/-- Processes the contacts of a frame: the state after, the records, whether objects lie beyond the ten (R347 to R352). -/
def contactStep (s : State) (p : Nat) : State × List (Contact × Nat) × Bool :=
  let P := panelOf s p
  let thr : ℚ := (getN s (K.panelThr p) : Nat)
  let ref := (refOf s p).getD []
  let isSus := fun i => (tfind P.sus i).isSome
  let objs := objectsAbove s p ref thr
  let large := objs.filter (isLarge s p)
  let small := objs.filter (fun o => !isLarge s p o)
  let weak := (objectsAbove s p ref (6 * thr / 10)).filter (fun o => decide (o.sig ≤ thr))
  let fo := follow s p large small weak isSus
  let s := bumpBy s (K.panelPalm p) (large.filter (fun o => !P.large.any (meets o.nodes))).length
  let s := modPanel s p (fun P => { P with large := large.map (·.nodes) })
  let taken := (P.contacts.map (·.id)) ++ P.stuck.map (·.id)
  let room := 10 - min 10 taken.length
  let (s, fresh) := (fo.free.take room).foldl (fun (a : State × List Contact) o =>
    let (s, c) := beginContact a.1 p (taken ++ a.2.map (·.id)) o (isSus o.peak)
    (s, a.2 ++ [c])) (s, [])
  let alive := fo.alive ++ fresh
  let more := if alive.length = 10 then fo.free.drop room else []
  let s := bumpBy s (K.panelOver p) (more.filter (fun o => !P.overs.any (meets o.nodes))).length
  let s := modPanel s p (fun P => { P with contacts := alive, overs := more.map (·.nodes), stuck := [] })
  (putN s (K.panelContacts p) alive.length, fo.records ++ P.stuck.map (fun c => (c, 4)) ++ fresh.map (fun c => (c, 1)), !more.isEmpty)

/-! ## Channels and self-tests (R335, R359 to R361) -/

/-- The panel fails: it writes no reports (R360). -/
def panelFails (s : State) (p : Nat) : State :=
  let s := modPanel s p (fun P => { P with contacts := [], large := [], overs := [], stuck := [], testing := false })
  let s := putN (putN s (K.panelState p) panFailed) (K.panelContacts p) 0
  updateHealth (emit s 4 0x0404 p (leBytes 1 p ++ leBytes 4 (getN s (K.panelTestResult p))) (touchFuncs s p))

/-- The pads that a channel of a chiplet serves. -/
def padOf (s : State) (c ch : Nat) : Option Nat :=
  (List.range 128).find? (fun pad => ((getBytes s (K.chipMap c)).getD pad 0).toNat == ch)

/-- The baselines of a line's nodes are rebuilt after its channel was exchanged (R335): from the current raw counts, or from the
stored reference and suspect where a contact lies on the line. -/
def rebuildLine (s : State) (p l : Nat) : State :=
  let tx := panTx s p
  let rx := panRx s p
  let nodes := (if l < tx then (List.range rx).map (fun r => l * rx + r) else (List.range tx).map (fun t => t * rx + (l - tx)))
    ++ [tx * rx + l]
  let P := panelOf s p
  let covered := P.contacts.any (fun c => meets c.nodes nodes)
  let ref := (refOf s p).getD []
  showSuspects (modPanel s p (fun P => nodes.foldl (fun P i =>
    if covered then
      { P with base := P.base.set i (if ref.isEmpty then P.base.getD i 0 else ((ref.getD i 0 : Nat) : ℚ)), sus := tset P.sus i 0 }
    else rebase P i ((P.raw.getD i 0 : Nat) : ℚ)) P)) p

/-- A channel that failed its test twice is spared (R335, R360): the state after and whether its pad is served. `ok`: whether a
spare channel passes its own test. -/
def spareChannel (s : State) (p c ch : Nat) (ok : Nat → Bool) (cause : Nat) : State × Bool :=
  let u := ch + 256 * c
  match padOf s c ch with
  | none => if unitState s clsChannel u = unitSpare then (failSpare s clsChannel u cause, true) else (s, true)
  | some pad =>
    let free := (freeSpares s clsChannel).filter (fun v => v / 256 == c && v != u)
    match trySpares s clsChannel cause (fun v => ok (v % 256)) free with
    | (s, none) => (putN (retireUnit s clsChannel u cause) (K.chipSpares c) 0, false)
    | (s, some v) =>
      let (s, g) := advanceLogGen s clsChannel v
      let s := substitute s clsChannel u v cause g
      let s := putV s (K.chipMap c) (.bytes ((getBytes s (K.chipMap c)).set pad (BitVec.ofNat 8 (v % 256))))
      let s := putN s (K.chipSpares c) ((freeSpares s clsChannel).filter (fun v => v / 256 == c)).length
      let line := (lineMap s p).findIdx? (fun e => e % 128 == pad && (e / 256) % 4 == c)
      (match line with | some l => rebuildLine s p l | none => s, true)

/-- A channel's reference measurement in a list of measurements: one that was not made passes. -/
def refMeasure (l : List (Fin 4 × List (BitVec 16))) (c ch : Nat) : Nat :=
  match l.find? (fun e => e.1.val == c) with
  | some e => (e.2.getD ch 2200).toNat
  | none => 2200

/-- Whether a reference measurement in fF passes: 1.98 to 2.42 pF (R359). -/
def refPasses (f : Nat) : Bool := decide (1980 ≤ f ∧ f ≤ 2420)

/-- The channels of a panel's chiplets that fail their reference test twice (R359, R360). -/
def badChannels (s : State) (p : Nat) (t : PanelTest) : List (Nat × Nat) :=
  (panelChips s p).flatMap (fun c => ((List.range 132).filter (fun ch =>
    !refPasses (refMeasure t.refcap c ch) && !refPasses (refMeasure t.retry c ch))).map (fun ch => (c, ch)))

/-- The last reference measurement of each channel of a chiplet: that of the second test where the first failed. -/
def lastMeasures (t : PanelTest) (c : Nat) : List Byte :=
  (List.range 132).flatMap (fun ch =>
    let f := refMeasure t.refcap c ch
    leBytes 2 (if refPasses f then f else refMeasure t.retry c ch))

/-- Whether a line's pad is open: its self count lies below panel.raw.lo in both frames (R359; log 288). -/
def padOpen (s : State) (p : Nat) (t : PanelTest) (l : Nat) : Bool :=
  !t.pads.isEmpty && t.pads.all (fun f => decide ((f.getD l 4095).toNat < getN s (K.panelRawLo p)))

/-- Whether a line's pad is shorted: its self count lies above panel.raw.hi in both frames, or it receives more than half of the count of a
neighbouring pad driven alone (R359; log 288). -/
def padShorted (s : State) (p : Nat) (t : PanelTest) (l : Nat) : Bool :=
  let m := lineMap s p
  let e := m.getD l 0
  (!t.pads.isEmpty && t.pads.all (fun f => decide (getN s (K.panelRawHi p) < (f.getD l 0).toNat))) ||
    (m.zip t.driven).any (fun d =>
      decide (d.1 / 128 = e / 128) && ((decide (d.1 = e + 1) && decide (d.2.1.toNat < 2 * d.2.2.1.toNat))
        || (decide (d.1 + 1 = e) && decide (d.2.1.toNat < 2 * d.2.2.2.toNat))))

/-- The lines of a panel whose pads are open, and those whose pads are shorted. -/
def openLines (s : State) (p : Nat) (t : PanelTest) : List Nat := (List.range (panTx s p + panRx s p)).filter (padOpen s p t)
def shortLines (s : State) (p : Nat) (t : PanelTest) : List Nat := (List.range (panTx s p + panRx s p)).filter (padShorted s p t)

/-- The self-tests of R359 as panel.test.mode names them, with their results (R360, Table TO-7): the state after, and whether the
panel is usable. -/
def selfTest (s : State) (p : Nat) (t : PanelTest) : State × Bool :=
  let mode := getN s (K.panelTestMode p)
  let refOn := bitOf mode 1
  let padOn := bitOf mode 0
  let opens := if padOn then openLines s p t else []
  let shorts := if padOn then shortLines s p t else []
  let bad := if refOn then badChannels s p t else []
  let s := if refOn then (panelChips s p).foldl (fun s c =>
      if t.refcap.any (fun e => e.1.val == c) then putV s (K.chipRefcap c) (.bytes (lastMeasures t c)) else s) s
    else s
  let (s, served, spared) := bad.foldl (fun (a : State × Bool × Nat) b =>
    let had := (padOf a.1 b.1 b.2).isSome
    let (s, ok) := spareChannel a.1 p b.1 b.2 (fun ch => !bad.contains (b.1, ch)) 1
    (s, a.2.1 && ok, a.2.2 + b2n (had && ok))) (s, true, 0)
  let masked := if padOn then (opens ++ shorts).dedup.insertionSort (· ≤ ·) else maskedLines s p
  let s := putN (putV s (K.panelMaskLines p) (.bytes (masked.flatMap (leBytes 2)))) (K.panelMasked p) (min masked.length 255)
  let pass := served && decide (masked.length ≤ 8)
  let result := b2n pass + 2 * b2n (!opens.isEmpty) + 4 * b2n (!shorts.isEmpty)
    + 8 * b2n (!bad.isEmpty) + 16 * b2n (!served) + 2 ^ 8 * (masked.length % 256) + 2 ^ 16 * (spared % 256)
  let s := putN (putN s (K.panelTestResult p) result) (K.panelTestTime p) s.now
  (emit s 4 0x0402 p (leBytes 1 p ++ leBytes 4 result) (touchFuncs s p), pass)

/-- Acquires the baselines as the mean of eight frames, and compares them with the reference (R344, R345). -/
def acquire (s : State) (p : Nat) (t : PanelTest) : State :=
  let tx := panTx s p
  let rx := panRx s p
  let frames := (List.range 8).map (fun k =>
    fillMasked s p (((t.frames.getD k []) ++ (t.selfFrames.getD k [])).map (·.toNat)))
  let base := (List.range (tx * rx + tx + rx)).map (fun i => ((((frames.map (fun f => f.getD i 0)).sum : Nat) : ℚ) / 8))
  let tol : ℚ := (getN s (K.panelRefTol p) : Nat)
  let sus : List Nat := match refOf s p with
    | none => []
    | some ref => (List.range (tx * rx + tx + rx)).filter (fun i =>
        let d := ((ref.getD i 0 : Nat) : ℚ) - base.getD i 0
        if i < tx * rx then decide (tol < d) else decide (tol < -d))
  let stale := decide (20 < (sus.filter (· < tx * rx)).length)
  let s := modPanel s p (fun P => { bufs := P.bufs, chanNext := P.chanNext, base := base, raw := frames.getLastD []
                                    sus := if stale then [] else sus.map (fun i => (i, 0)), markAt := 0, quietSince := s.now
                                    limit := getN s (K.panelStuck p) })
  let s := { s with fresh := s.fresh + 17000 }
  let s := showSuspects s p
  if stale then emit s 4 0x0403 p (leBytes 1 p ++ leBytes 2 sus.length) (touchFuncs s p) else s

/-! ## Start and stop (R362, R363) -/

/-- A panel starts: its chiplets' domains are powered (R362). -/
def startPanel (s : State) (p : Nat) : State :=
  settle (putN (putN (writeB s (K.panelEnable p) true) (K.panelState p) panStarting) (K.panelFrames p) 0)

/-- A queued enable runs once the shut-down is over and the chiplets' domains are no longer stopping (R48, R439). -/
def panelQueued (s : State) (p : Nat) : State :=
  let ds := (panelChips s p).map chipDomain
  if s.transit.contains (K.panelEnable p) && panSt s p == panOff && !anyStopping s ds then
    startPanel (resolved s (ds.headD 19) (0x4420 + p) 1) p
  else s

/-- A panel's shut-down: every contact ends CANCEL in a last report, the buffers are released, the scans stop (R363). -/
def shutPanel (s : State) (p : Nat) : State :=
  let rs := (panelOf s p).contacts.map (fun c => (c, 5)) ++ (panelOf s p).stuck.map (fun c => (c, 4))
  let s := if panSt s p = panActive ∧ !(panelOf s p).testing then
      writeReports (modPanel s p (fun P => { P with large := [] })) p rs false (getN s K.touchLatLast)
    else s
  let s := (panelOf s p).bufs.foldl (fun s e => releaseBuffer s p e.1) s
  let s := modPanel s p (fun P => { chanNext := P.chanNext })
  settle (putN (putN (putN s (K.panelState p) panStopping) (K.panelContacts p) 0) (K.panelSuspect p) 0)

/-- A write of false to panel.enable (R363). -/
def stopPanel (s : State) (p : Nat) : State :=
  let s := writeB s (K.panelEnable p) false
  if panSt s p = panOff ∨ panSt s p = panStopping then s else shutPanel s p

/-- A power cut of a panel's domain: nothing of its run is kept, and it starts afresh with its domain (R457). -/
def cutPanel (s : State) (p : Nat) : State :=
  if panSt s p = panOff then s
  else
    let s := (panelOf s p).bufs.foldl (fun s e => releaseBuffer s p e.1) s
    let s := modPanel s p (fun _ => {})
    let s := putN (putN s (K.panelContacts p) 0) (K.panelSuspect p) 0
    if getB s (K.panelEnable p) ∧ !s.transit.contains (K.panelEnable p) then putN s (K.panelState p) panStarting
    else putN s (K.panelState p) panStopping

/-- Returns a panel in DRIFT to ACTIVE (R357, R358). -/
def leaveDrift (s : State) (p : Nat) : State :=
  if panSt s p = panDrift then
    modPanel (putN s (K.panelState p) panActive) p (fun P => { P with quietSince := s.now, dbase := [], dover := [] })
  else s

/-- A VF lost its last region on a panel: its buffer is released (R355). -/
def touchRegionLost (s : State) (f p : Nat) : State := if hasTouchRegion s f p then s else releaseBuffer s p f

/-- A function-level reset: the function's buffers are released without completion (R355). -/
def flrTouch (s : State) (f : Nat) : State :=
  foldN (List.range 4) (fun s p => modPanel s p (fun P => { P with bufs := tdel P.bufs f })) s

/-! ## Touch objects -/

/-- The checks of R337 on the line map. An empty map is no map yet: the counts of the entries and the lower bounds are judged once
lines are written. -/
def lineMapOk (s : State) (p tx rx chips : Nat) (lines : List Nat) (odd : Bool) : Bool :=
  let pads := lines.map (fun e => (e % 128, (e / 256) % 4))
  !odd && decide (tx * rx ≤ 16384)
    && (List.range 4).all (fun q => q == p || (chipsOf chips).all (fun c => !bitOf (getN s (K.panelChips q)) c))
    && (lines.isEmpty || (lines.length == tx + rx && decide (2 ≤ tx ∧ 2 ≤ rx) && decide pads.Nodup
      && lines.all (fun e => bitOf chips ((e / 256) % 4) && !bitOf e 7 && decide (e < 1024))))

/-- The checks of a write to a panel's configuration (R337, R362). -/
def panelCheck (s : State) (p sub : Nat) (v : Val) : Status :=
  let tx := if sub = 3 then v.toNat else panTx s p
  let rx := if sub = 4 then v.toNat else panRx s p
  let chips := if sub = 2 then v.toNat else getN s (K.panelChips p)
  let bytes := if sub = 5 then v.toBytes else getBytes s (K.panelLines p)
  if sub = 1 then if v.toNat = 1 ∧ (getBytes s (K.panelLines p)).isEmpty then .range else .ok
  else if 2 ≤ sub ∧ sub ≤ 5 then
    firstRefusal [
      (!lineMapOk s p tx rx chips (u16s bytes) (bytes.length % 2 == 1) || (sub = 2 && decide (2 < (chipsOf v.toNat).length))
        || ((sub = 3 || sub = 4) && decide (v.toNat < 2)), .range),
      (panSt s p != panOff, .busy)]
  else .ok

/-- The effect of an accepted write to a panel's configuration. -/
def panelApply (s : State) (p sub : Nat) (v : Val) : State × Status :=
  let k := objKey (0x4420 + p) sub
  if sub = 1 then
    enableWrite s k (v.toNat == 1) (panSt s p == panStopping || anyStopping s ((panelChips s p).map chipDomain))
      (fun s => startPanel s p) (fun s => stopPanel s p)
  else (writeV (leaveDrift s p) k v, .ok)

/-- The checks of a write to 4440+p: capture and test requests (R343, R361). -/
def captureCheck (s : State) (p sub : Nat) : Status :=
  let P := panelOf s p
  let busy := !P.contacts.isEmpty || !P.large.isEmpty
  if sub = 2 then firstRefusal [(panSt s p != panActive, .range), (busy, .busy)]
  else if sub = 3 then firstRefusal [(busy, .busy)]
  else .ok

/-- The effect of an accepted write to 4440+p. A test request on a panel that does not scan has no frames to run in. -/
def captureApply (s : State) (p sub : Nat) (v : Val) : State :=
  if sub = 2 then
    writeV { s with fresh := s.fresh + 17000 } (K.panelRef p)
      (.bytes ((panelOf s p).base.zipIdx.flatMap (fun e => leBytes 2 (wholeOf (s.fresh + e.2) e.1))))
  else if sub = 3 then
    let s := leaveDrift s p
    if panSt s p = panActive then modPanel s p (fun P => { P with testing := true }) else s
  else writeV s (objKey (0x4440 + p) sub) v

/-! ## Commands -/

/-- Checks one channel per chiplet and frame against its reference capacitor (R361): first test, retry, spare's test. -/
def checkChannels (s : State) (p : Nat) (oks : List (Bool × Bool × Bool)) : State × Bool :=
  ((panelChips s p).zip oks).foldl (fun (a : State × Bool) e =>
    let c := e.1
    let ch := tget (panelOf a.1 p).chanNext c 0
    let s := modPanel a.1 p (fun P => { P with chanNext := tset P.chanNext c ((ch + 1) % 132) })
    if e.2.1 || e.2.2.1 then (s, a.2)
    else
      let (s, served) := spareChannel s p c ch (fun _ => e.2.2.2) 2
      (s, a.2 && served)) (s, true)

/-- TOUCH_FRAME_MARK: one active frame (R338 to R356, R361). While a self-test runs, no contact is reported (R361). -/
def execTouchFrameMark (panel : Fin 4) (f : TouchFrame) (s : State) : Host.Outcome State Fault Refusal :=
  let p := panel.val
  let tx := panTx s p
  let rx := panRx s p
  if panSt s p ≠ panActive ∨ f.nodes.length ≠ tx * rx ∨ f.lines.length ≠ tx + rx
      ∨ (0 < (panelOf s p).markAt ∧ s.now < (panelOf s p).markAt + 4166666) then .next s
  else
    let n := tx * rx + tx + rx
    let thr : ℚ := (getN s (K.panelThr p) : Nat)
    let s := putN s (K.panelFrames p) ((getN s (K.panelFrames p) + 1) % 2 ^ 32)
    let raw := fillMasked s p ((f.nodes ++ f.lines).map (·.toNat))
    let s := { s with fresh := s.fresh + 17000 }
    let s := modPanel s p (fun P => { P with raw := raw, markAt := s.now, limit := getN s (K.panelStuck p) })
    let held := trackingHeld s p
    let s := if held then s else recalBegin (recalStep s p) p (tx * rx) n
    let (s, rs, beyond) := contactStep s p
    let P := panelOf s p
    let ours := P.contacts.flatMap (·.nodes) ++ P.large.flatten
    let frozen := fun i => decide (i < tx * rx) && ours.any (fun a => nodesTouch rx a i)
    let s := if held then s else modPanel s p (fun P => trackStep P (tx * rx) thr frozen)
    let s := modPanel s p (fun P => suspectStep { P with woke := false } ((refOf s p).getD []) (tx * rx) thr)
    let s := if ours.isEmpty then s else modPanel s p (fun P => { P with quietSince := s.now })
    let s := putN (showSuspects s p) (K.panelFreq p) f.freq
    let s := if (panelOf s p).testing then s else writeReports s p rs beyond f.latencyUs
    let (s, served) := checkChannels s p f.chanOk
    .next (if served then s else panelFails s p)

/-- STUCK_TIMEOUT: a contact unmoved for panel.stuck seconds ends with state STUCK, and its nodes are relearnt (R351). -/
def execStuckTimeout (panel : Fin 4) (id : Fin 16) (s : State) : Host.Outcome State Fault Refusal :=
  let p := panel.val
  let P := panelOf s p
  match P.contacts.find? (fun c => c.id == id.val) with
  | none => .next s
  | some c =>
    if panSt s p ≠ panActive ∨ P.limit = 0 ∨ s.now < c.since + P.limit * 1000000000 then .next s
    else
      let grid := panTx s p * panRx s p
      let ring := (List.range grid).filter (fun i => c.nodes.any (fun a => nodesTouch (panRx s p) a i))
      let s := modPanel s p (fun P => ring.foldl (fun P i => rebase P i ((P.raw.getD i 0 : Nat) : ℚ))
        { P with contacts := P.contacts.filter (fun x => x.id != id.val), stuck := P.stuck ++ [c] })
      let s := bump (putN (showSuspects s p) (K.panelContacts p) (panelOf s p).contacts.length) (K.panelStuckCount p)
      .next (emit s 4 0x0401 p (leBytes 1 p ++ leBytes 1 id ++ leBytes 2 c.x ++ leBytes 2 c.y
        ++ leBytes 2 ((s.now - c.since) / 1000000000)) (touchFuncs s p))

/-- DRIFT_ENTRY: panel.drift.after seconds without a contact or a large object (R357). -/
def execDriftEntry (panel : Fin 4) (s : State) : Host.Outcome State Fault Refusal :=
  let p := panel.val
  let P := panelOf s p
  let after := getN s (K.panelDriftAfter p)
  if panSt s p = panActive ∧ after ≠ 0 ∧ P.contacts.isEmpty ∧ P.large.isEmpty ∧ !P.testing
      ∧ P.quietSince + after * 1000000000 ≤ s.now then
    .next (modPanel (putN s (K.panelState p) panDrift) p (fun P => { P with dbase := [], dover := [], driftAt := s.now }))
  else .next s

/-- One Drift frame of a group: its baseline and its consecutive crossings (R341, R357). -/
def driftGroup (thr limit base : ℚ) (raw cross : Nat) : ℚ × Nat :=
  let sig : ℚ := ((raw : Nat) : ℚ) - base
  (if -12 ≤ sig ∧ sig ≤ thr / 2 then base + sig / 64 else base, if limit < sig then cross + 1 else 0)

/-- DRIFT_FRAME: measures the groups of eight lines; a group above panel.drift.thr in two consecutive frames wakes the panel
(R357, R358). The first Drift frame gives the groups' baselines. Each chiplet checks one channel (R361). -/
def execDriftFrame (panel : Fin 4) (groups : List (BitVec 12)) (chanOk : List (Bool × Bool × Bool)) (s : State) :
    Host.Outcome State Fault Refusal :=
  let p := panel.val
  let P := panelOf s p
  if panSt s p ≠ panDrift ∨ groups.length ≠ ceilDiv (panTx s p + panRx s p) 8 ∨ s.now < P.driftAt + 50 * msec then .next s
  else
    let thr : ℚ := (getN s (K.panelThr p) : Nat)
    let limit : ℚ := (getN s (K.panelDriftThr p) : Nat)
    let raws := groups.map (·.toNat)
    let base : List ℚ := if P.dbase.isEmpty then raws.map (fun r => ((r : Nat) : ℚ)) else P.dbase
    let next := raws.zipIdx.map (fun e => driftGroup thr limit (base.getD e.2 0) e.1 (P.dover.getD e.2 0))
    let s := modPanel s p (fun P => { P with dbase := next.map (·.1), dover := next.map (·.2), driftAt := s.now })
    let (s, served) := checkChannels s p chanOk
    if !served then .next (panelFails s p)
    else if next.any (fun e => decide (2 ≤ e.2)) then
      .next (modPanel (leaveDrift (bump s (K.panelDriftWakes p)) p) p (fun P => { P with
        woke := true, markAt := 0, bufs := P.bufs.map (fun e => (e.1, { e.2 with wake := true })) }))
    else .next s

/-- PANEL_START_DONE: the tests and the acquisition of a start end with ACTIVE or FAILED (R359, R360, R362); a requested test ends
likewise and reporting goes on (R361). -/
def execPanelStartDone (panel : Fin 4) (t : PanelTest) (s : State) : Host.Outcome State Fault Refusal :=
  let p := panel.val
  let grid := panTx s p * panRx s p
  let fits := t.frames.length == 8 && t.selfFrames.length == 8 && t.frames.all (fun f => f.length == grid)
    && t.selfFrames.all (fun f => f.length == panTx s p + panRx s p)
  if panSt s p = panStarting ∧ allOn s ((panelChips s p).map chipDomain) ∧ fits then
    let s := foldN (panelChips s p) (fun s c => putN s (K.chipGen c) ((getN s (K.chipGen c) + 1) % 65536)) s
    let (s, pass) := selfTest s p t
    if pass then .next (updateHealth (putN (acquire s p t) (K.panelState p) panActive)) else .next (panelFails s p)
  else if panSt s p = panActive ∧ (panelOf s p).testing then
    let (s, pass) := selfTest (modPanel s p (fun P => { P with testing := false })) p t
    if pass then .next (updateHealth s) else .next (panelFails s p)
  else .next s

/-- PANEL_STOP_DONE: the shut-down ends; an unused domain powers down, a queued enable runs (R363, R48). -/
def execPanelStopDone (panel : Fin 4) (s : State) : Host.Outcome State Fault Refusal :=
  let p := panel.val
  if panSt s p ≠ panStopping then .next s
  else
    .next (panelQueued (settle (updateHealth (putN s (K.panelState p) panOff))) p)

/-- TOUCH_BUF (R354, R355). -/
def execTouchBuf (h : CmdHdr) (b : TouchBufPayload) (s : State) : Host.Outcome State Fault Refusal :=
  match beginCmd s h 0x50 b.bytes false with
  | (s, none) => .next s
  | (s, some t) =>
    let p := b.panel.toNat
    if 4 ≤ p ∨ b.slots.toNat < 4 ∨ b.address.toNat % 64 ≠ 0 ∨ (!isPf t.func ∧ !hasTouchRegion s t.func p) then
      .next (completeOpen s t 3)
    else
      let s := releaseBuffer (leaveDrift s p) p t.func
      .next (modPanel s p (fun P => { P with
        bufs := tset P.bufs t.func { ticket := t, addr := b.address.toNat, slots := b.slots.toNat } }))

end Sys2Proof.Machine
end

