-- ==== Sys2Proof/Machine/Vfs.lean ====
section
/-!
DEFINITION. Virtual functions: pools, grants and use (R281 to R286), screen and touch regions (R287, R288), function-level
resets (R280, R291 to R293, Table VF-6).
-/

namespace Sys2Proof.Machine

/-! ## Pools, grants, use -/

/-- Grant object n of Table VF-3 (1 to 13) of a VF. -/
def grantN (s : State) (v n : Nat) : Nat := getN s (objKey (0x6001 + 0x40 * v) n)

/-- The sum of a grant over the enabled VFs. -/
def grantSum (s : State) (n : Nat) : Nat := ((enabledVfs s).map (fun v => grantN s v n)).sum

/-- The haptic channels on which an effect of a VF runs or waits. -/
def hapticUse (s : State) (v : Nat) : Nat :=
  sumN 16 (fun n =>
    let c := chanOf s n
    if (c.run.map (·.func) == some v) || c.queue.any (·.func == v) || c.waits.any (·.func == v) then 2 ^ n else 0)

/-- Input streams that a function owns. -/
def inputStreams (s : State) (f : Nat) : Nat := countN 64 (fun n => streamN s false n 1 == f)

/-- use.* of a VF: what it holds of each grant (Table VF-3). -/
def useN (s : State) (v n : Nat) : Nat :=
  if n = 1 then ownedCount s 0x3100 0x3200 v
  else if n = 2 then ((ownedBy s 0x3100 0x3200 v).map (fun h => getN s (K.ringOrder h))).foldl max 0
  else if n = 3 then ownedCount s 0x3200 0x3240 v
  else if n = 4 then ((ownedBy s 0x3200 0x3240 v).map (fun c => getN s (K.ctxClass c))).foldl max 0
  else if n = 5 then (if vfOn s v then grantN s v 5 else 0)
  else if n = 6 then ceilDiv (surfBytes s (· == v)) 1048576
  else if n = 7 then siltMib s (· == v)
  else if n = 8 then allLayerCount s v
  else if n = 9 then ownedCount s 0x3800 0x4000 v
  else if n = 10 then ownedCount s 0x3700 0x3800 v
  else if n = 11 then ownedCount s 0x3500 0x3600 v
  else if n = 12 then hapticUse s v
  else inputStreams s v

/-- What a pool has left for grant n: neither granted to a VF nor held by a PF (R281). Grants 2 and 4 draw on no pool. -/
def poolN (s : State) (n : Nat) : Nat :=
  let pf := fun lo hi => ownedCount s lo hi 0 + ownedCount s lo hi 64
  if n = 1 then 256 - grantSum s 1 - pf 0x3100 0x3200
  else if n = 3 then 63 - grantSum s 3 - pf 0x3200 0x3240
  else if n = 5 then poolShare s
  else if n = 6 ∨ n = 7 then poolMib s
  else if n = 8 then 48 - grantSum s 8 - allLayerCount s 0 - allLayerCount s 64
  else if n = 9 then 2048 - grantSum s 9 - pf 0x3800 0x4000
  else if n = 10 then 256 - grantSum s 10 - pf 0x3700 0x3800
  else if n = 11 then 256 - grantSum s 11 - pf 0x3500 0x3600
  else if n = 12 then 0xFFFF - ((enabledVfs s).foldl (fun m v => m ||| grantN s v 12) 0)
  else if n = 13 then 64 - grantSum s 13 - inputStreams s 0 - inputStreams s 64
  else 0xFFFF

/-- Whether the bits of `a` all lie in `b`. -/
def bitsIn (a b : Nat) : Bool := a &&& b == a

/-- Whether the pools can take the grants of a VF, with R282 kept (R283). -/
def grantsFit (s : State) (v : Nat) : Bool :=
  [1, 3, 5, 8, 9, 10, 11, 13].all (fun n => decide (grantN s v n ≤ poolN s n))
    && decide (grantN s v 6 + grantN s v 7 ≤ poolMib s) && bitsIn (grantN s v 12) (poolN s 12)

/-- A write to a grant object of an enabled VF (R285): raised within the pool, lowered to no less than the use. -/
def grantCheck (s : State) (v n x : Nat) : Status :=
  if !vfOn s v then .ok
  else
    let old := grantN s v n
    if n = 2 ∨ n = 4 then .ok
    else if n = 12 then (if bitsIn (useN s v 12) x && bitsIn x (poolN s 12 ||| old) then .ok else .range)
    else if n = 5 then (if x ≤ old + poolN s 5 then .ok else .range)
    else if old + poolN s n < x then .range
    else if x < old ∧ x < useN s v n then .range
    else .ok

/-- A grant takes its value; a share is in force at once (R294). -/
def grantApply (s : State) (v n x : Nat) : State :=
  let s := writeN s (objKey (0x6001 + 0x40 * v) n) x
  if n = 5 && vfOn s v then arbitrate s else s

/-! ## Regions -/

/-- Region q of a VF as its record stands: target, origin, size; kind false screen, true touch. -/
def regionRec (s : State) (touch : Bool) (v q : Nat) : Nat × Nat × Nat :=
  let idx := 0x6008 + 0x40 * v + q + (if touch then 8 else 0)
  (getN s (objKey idx 1), getN s (objKey idx 2), getN s (objKey idx 3))

/-- A region with one subindex given a value. -/
def regionWith (r : Nat × Nat × Nat) (sub v : Nat) : Nat × Nat × Nat :=
  if sub = 1 then (v, r.2) else if sub = 2 then (r.1, v, r.2.2) else (r.1, r.2.1, v)

/-- Whether a region names nothing yet: no target or no area. -/
def regionEmpty (r : Nat × Nat × Nat) : Bool := r.1 == 0xFF || lo16 r.2.2 == 0 || hi16 r.2.2 == 0

/-- The checks of a region write (R288): no overlap with another VF's region, nor with a Kaolin rectangle of the output. -/
def regionCheck (s : State) (touch : Bool) (v q sub x : Nat) : Status :=
  let r := regionWith (regionRec s touch v q) sub x
  if regionEmpty r then .ok
  else
    let meets := fun (xy wh : Nat) => lo16 wh != 0 && hi16 wh != 0 && overlap r.2.1 r.2.2 xy wh
    let others := (List.range 64).any (fun w => w != 0 && w != v && (List.range 8).any (fun j =>
      let o := regionRec s touch w j
      !regionEmpty o && o.1 == r.1 && meets o.2.1 o.2.2))
    let kaolin := !touch && (List.range 32).any (fun k =>
      let a := (portOf s r.1).kactive.rects.getD k {}
      meets (rectShadow s r.1 k).xy (rectShadow s r.1 k).wh || meets a.xy a.wh)
    if others || kaolin then .range else .ok

/-- A region takes a value; a function that loses its last region on a panel loses its buffer there. -/
def regionApply (s : State) (touch : Bool) (v q sub x : Nat) : State :=
  let old := (regionRec s touch v q).1
  let s := writeN s (objKey (0x6008 + 0x40 * v + q + (if touch then 8 else 0)) sub) x
  if touch && old != 0xFF then touchRegionLost s v old else s

/-! ## Function-level reset (R291, Table VF-6) -/

/-- The hardware rings that a function owns. -/
def ringsOf (s : State) (f : Nat) : List Nat := ownedBy s 0x3100 0x3200 f

/-- The contexts that a function owns. -/
def ctxsOf (s : State) (f : Nat) : List Nat := ownedBy s 0x3200 0x3240 f

/-- A running image transfer ends ABORTED and a freeze ends (R293). -/
def endFreeze (s : State) (v : Nat) : State :=
  let st := getN s (K.migState v)
  if st = 0 then s
  else
    let m := tget s.migs v {}
    let s := putN (writeB s (K.migFreeze v) false) (K.migState v) 0
    let s := { s with migs := tdel s.migs v }
    if st = 3 ∨ st = 4 then
      emit (putN s (K.migResult v) 5) 8 0x0804 v (leBytes 1 v ++ leBytes 1 m.ctx ++ leBytes 1 m.op ++ leBytes 1 5 ++ leBytes 4 0) []
    else s

/-- The layers of a reset VF: shadow changes and pending commits are discarded, and each is transparent from the output's next
VBS (R104, R126). -/
def flrLayers (s : State) (f : Nat) : State :=
  foldN (List.range 8) (fun s p =>
    let bits := ownedBits s f p
    if bits = 0 then s
    else
      let s := foldN (List.range 6) (fun s k =>
        if bitOf bits k then
          let a := (portOf s p).active.layers.getD k {}
          let w := fun s sub v => writeN s (layerKey p k sub) v
          w (w (w (w (w (w (w (w (w (w (w s 2 (b2n a.enable)) 3 a.surface) 4 a.srcXY) 5 a.srcWH) 6 a.dstXY) 7 a.dstWH) 8 a.blend)
            9 a.alpha) 10 a.matrix) 11 a.rot) 12 a.hint
        else s) s
      let pend := getN s (K.outCommitPend p)
      let s := putN s (K.outCommitPend p) (pend - (pend &&& bits))
      modPort s p (fun q => { q with muteDue := q.muteDue ||| bits, after := q.after - (q.after &&& bits) })) s

/-- An FLR of a function starts (R291): the epoch advances and every block acts. Of a PF its own rings, contexts and fences are
reset, and its portal (R280). -/
def flrStart (s : State) (f : Nat) : State :=
  let vf := 0 < f && f < 64
  let s := modFunc s f (fun x => { x with epoch := (x.epoch + 1) % 2 ^ 32, flrSince := some s.now
                                          flrDone := false, spoofed := false })
  let s := if vf then endFreeze (bump s (K.vfFlrCount f)) f else s
  let s := { s with portals := tset s.portals f { tget s.portals f {} with active := false, reject := false, waiting := none }
                    commits := s.commits.filter (fun c => c.ticket.func ≠ f)
                    signals := s.signals.filter (fun x => x.ticket.func ≠ f) }
  let s := closeWhere s (fun x => match x.src with | some (.portal g) => g.val == f | _ => false)
  let s := foldN (ringsOf s f) (fun s h => modRing s h (fun r =>
    { r with wait := none, held := [], dropUntilWait := false, dropFrame := none })) s
  let s := foldN (ctxsOf s f) (fun s c => modCtx (dropCtx s c) c (fun x => { x with stopping := false, dropFrame := none })) s
  let s := foldN (ownedBy s 0x3700 0x3800 f) abandonFence s
  let s := if vf then flrSpreads (flrSound (flrHaptics (flrTouch (flrLayers s f) f) f) f) f else s
  arbitrate s

/-- A ring at the end of an FLR: disabled, subindices 03 to 0A at their defaults, the owner kept (Table VF-6). -/
def flrRing (s : State) (h : Nat) : State :=
  foldN [3, 4, 5, 6, 7, 8, 9] (fun s sub => writeV s (objKey (0x3100 + h) sub) (defaultVal (objKey (0x3100 + h) sub)))
    (modRing (disableRing s h) h (fun r => { era := r.era, dberr := r.dberr }))

/-- A context at the end of an FLR: every subindex but ctx.owner at its default, ctx.gen advanced, the save area clear (R216). -/
def flrCtx (s : State) (c : Nat) : State :=
  let gen := getN s (K.ctxGen c)
  let s := dropTransit s (K.ctxEnable c)
  let s := foldN [2, 3, 4, 5, 6] (fun s sub => writeV s (objKey (0x3200 + c) sub) (defaultVal (objKey (0x3200 + c) sub))) s
  let s := foldN [9, 10, 11, 12, 13, 15] (fun s sub => putV s (objKey (0x3200 + c) sub) (defaultVal (objKey (0x3200 + c) sub))) s
  putN (modCtx s c (fun x => { x with lastFrame := none, stopping := false })) (K.ctxGen c) ((gen + 1) % 65536)

/-- The fence slots of a reset function are freed (R233). -/
def flrFence (s : State) (i : Nat) : State :=
  freeFence { (writeN s (K.fenceOwner i) 0xFF) with fenceGen := tset s.fenceGen i (nextGen (tget s.fenceGen i 0)) } i

/-- The surfaces of a reset VF: each is released once no active layer names it (R104, R292). -/
def flrSurfaces (s : State) (f : Nat) : State :=
  releaseReset (foldN ((allocated s).filter (fun i => getN s (K.surfOwner i) == f))
    (fun s i => modSurf s i (fun x => { x with flrRelease := true })) s)

/-- Returns every resource of a VF to its pool (R286). -/
def releaseVf (s : State) (v : Nat) : State :=
  let s := foldN (ringsOf s v) (fun s h => writeN s (K.ringOwner h) 0xFF) s
  let s := foldN (ctxsOf s v) (fun s c => grantCtx (writeN s (K.ctxOwner c) 0xFF) c 0xFF) s
  let s := foldN (ownedBy s 0x3500 0x3600 v) (fun s i => writeN s (K.progOwner i) 0xFF) s
  let s := foldN (ownedBy s 0x3800 0x4000 v) (fun s i => writeN s (K.surfOwner i) 0xFF) s
  let s := foldN (List.range 8) (fun s p => foldN (List.range 6) (fun s k =>
    if layerOwner s p k = v then writeN s (K.layerOwner p k) 0xFF else s) s) s
  let s := foldN (List.range 8) (fun s i => foldN (List.range 6) (fun s k =>
    if getN s (K.spreadLayerOwner i k) = v then writeN s (K.spreadLayerOwner i k) 0xFF else s) s) s
  let s := freeStreams s v
  foldN (List.range 16) (fun s q => foldN [1, 2, 3] (fun s sub =>
    writeV s (objKey (0x6008 + 0x40 * v + q) sub) (defaultVal (objKey (0x6008 + 0x40 * v + q) sub))) s) s

/-- A VF exists from its enable on: its count of dropped commands begins (Table FP-11). -/
def createVf (s : State) (v : Nat) : State := arbitrate (modFunc s v (fun x => { x with dropped := 0 }))

/-- A disabled VF at the end of its FLR: its resources go back, and an enable queued meanwhile is checked against the pools again
and runs (R286, R48, Table PW-9). -/
def vfDisabled (s : State) (v : Nat) : State :=
  let s := releaseVf s v
  if !s.transit.contains (K.vfEnable v) then arbitrate s
  else
    let ok := grantsFit s v
    let s := if ok then s else writeB s (K.vfEnable v) false
    if ok then createVf (resolved s 0xFF (0x6000 + 0x40 * v) 1) v else arbitrate (dropTransit s (K.vfEnable v))

/-- An FLR completes (R292). -/
def flrComplete (s : State) (f : Nat) : State :=
  match (funcOf s f).flrSince with
  | none => s
  | some t =>
    let vf := 0 < f && f < 64
    let us := (s.now - t) / 1000
    let s := foldN (ringsOf s f) flrRing s
    let s := foldN (ctxsOf s f) flrCtx s
    let s := foldN (ownedBy s 0x3700 0x3800 f) flrFence s
    let s := if vf then flrSurfaces (flrSoundDone s f) f else s
    let s := modFunc s f (fun x => { x with flrSince := none, flrDone := true, flrUs := min us 65535 })
    let s := emit s 8 0x0800 f (leBytes 1 f ++ leBytes 4 (funcOf s f).epoch ++ leBytes 2 (min us 65535)) [f]
    if vf && !vfOn s f then vfDisabled s f else s

/-- FLR_DONE: an FLR completes, within 2 ms of its start. -/
def execFlrDone (f : Fin 65) (s : State) : Host.Outcome State Fault Refusal := .next (flrComplete s f)

/-- An FLR of a PF (R280): on H0 it clears VF Enable, so that every enabled VF is reset too. -/
def pfFlr (s : State) (h1 : Bool) : State := if h1 then flrStart s 64 else flrStart (foldN (enabledVfs s) flrStart s) 0

/-- PF_FLR: Initiate Function Level Reset of a PF. -/
def execPfFlr (h1 : Bool) (s : State) : Host.Outcome State Fault Refusal := .next (pfFlr s h1)

/-- PCIE_FLR: Initiate Function Level Reset of a function (R291); a function that does not exist has no Device Control. -/
def execPcieFlr (f : Fin 65) (s : State) : Host.Outcome State Fault Refusal :=
  if f.val = 0 then .next (pfFlr s false)
  else if f.val = 64 then .next (pfFlr s true)
  else if vfOn s f then .next (flrStart s f)
  else .next s

/-- VF_ENABLE_CLEAR: the host clears VF Enable, and every enabled VF is reset (R280). -/
def execVfEnableClear (s : State) : Host.Outcome State Fault Refusal := .next (foldN (enabledVfs s) flrStart s)

/-- A write to vf.enable (R283, R286): checked against the pools as a whole when it is not queued. -/
def vfEnableCheck (s : State) (v x : Nat) : Status :=
  if x = 1 && !getB s (K.vfEnable v) && (funcOf s v).flrSince.isNone && !grantsFit s v then .range else .ok

/-- A write to vf.enable takes effect: true enables, or is queued behind the shut-down; false starts the VF's FLR. -/
def vfEnableApply (s : State) (v : Nat) (on : Bool) : State × Status :=
  enableWrite s (K.vfEnable v) on ((funcOf s v).flrSince.isSome && !getB s (K.vfEnable v))
    (fun s => createVf (writeB s (K.vfEnable v) true) v)
    (fun s => writeB (flrStart s v) (K.vfEnable v) false)

/-- A write of 0x01 to vf.flr (R291); a VF that is not enabled has nothing to reset. -/
def vfFlrApply (s : State) (v : Nat) : State := if vfOn s v then flrStart s v else s

/-- vf.status (Table VF-4). -/
def vfStatus (s : State) (v : Nat) : Nat :=
  let x := funcOf s v
  let m := getN s (K.migState v)
  b2n (getB s (K.vfEnable v)) + 2 * b2n x.flrSince.isSome + 4 * b2n x.flrDone
    + 8 * b2n ((ringsOf s v).any (fun h => (ringOf s h).resize.isSome)) + 16 * b2n (m == 1) + 32 * b2n (decide (2 ≤ m))
    + 64 * b2n (getB s (K.logEnable v)) + 128 * b2n x.spoofed + 65536 * x.flrUs

end Sys2Proof.Machine
end

