-- ==== Sys2Proof/Machine/Migration.lean ====
section
/-!
DEFINITION. Moving a guest: freezing (R297), images saved and restored (R298 to R301, Tables VF-9 and VF-10), the dirty-page log
(R302 to R304).
-/

namespace Sys2Proof.Config

/-- The body of a CONTEXT, RING or RINGFREE section: the spec leaves its form internal to the module (R299). -/
opaque sectionBytes : Machine.ImageBody → List Byte

/-- What such a body says that another module wrote. -/
opaque sectionBody : List Byte → Machine.ImageBody

end Sys2Proof.Config

namespace Sys2Proof.Machine

/-! ## Freezing -/

/-- A write of true to mig.freeze is refused while an FLR runs (R297); one of false is refused while an image moves (log 133). -/
def freezeCheck (s : State) (v x : Nat) : Status :=
  if x = 1 && (funcOf s v).flrSince.isSome then .busy
  else if x = 0 ∧ 3 ≤ getN s (K.migState v) then .busy
  else .ok

/-- The passes of a context stop counting their run time, those that no core has left yet (R208, R297). -/
def sleepCtx (s : State) (c : Nat) : State :=
  modCtx s c (fun x => { x with passes := x.passes.map (fun p => { p with awaySince := some (p.awaySince.getD s.now) }) })

/-- The passes of a context count their run time again, but for those whose units wait for a core (R208, R298). -/
def wakeCtx (s : State) (c : Nat) : State :=
  modCtx s c (fun x => { x with passes := x.passes.map (fun p =>
    if p.spilled.isEmpty then { p with away := p.away + (s.now - p.awaySince.getD s.now), awaySince := none } else p) })

/-- A write to mig.freeze: FREEZING begins, or the VF runs on from the frozen state (R297, R298). -/
def freezeApply (s : State) (v : Nat) (on : Bool) : State :=
  let s' := writeB s (K.migFreeze v) on
  if on && getN s (K.migState v) == 0 then arbitrate (putN s' (K.migState v) 1)
  else if !on && getN s (K.migState v) != 0 then
    foldN (ctxsOf s v) (fun s c => ctxChanged (wakeCtx s c) c) (putN s' (K.migState v) 0)
  else s'

/-- FREEZE_DONE: every unit of the VF's contexts is saved and the VF reads FROZEN (R297). `position`: the primitive or instruction group
at which a unit stopped, by core. -/
def execFreezeDone (v : Fin 64) (position : List Nat) (s : State) : Host.Outcome State Fault Refusal :=
  if v.val = 0 ∨ getN s (K.migState v) ≠ 1 then .next s
  else
    let cs := ctxsOf s v
    let s := foldN (List.range 36) (fun s k => match (coreOf s k).work with
      | some (.unit c _ _ _) => if cs.contains c then spillUnit s k (position.getD k 0) 0 else s
      | _ => s) s
    let s := foldN cs sleepCtx s
    .next (arbitrate (emit (putN s (K.migState v) 2) 8 0x0803 v (leBytes 1 v ++ leBytes 1 cs.length) []))

/-! ## Images (Tables VF-9, VF-10) -/

/-- An object's value in its type. -/
def objBytes (s : State) (idx sub : Nat) : List Byte :=
  match lookupObj idx sub with
  | some (r, _) => (match getV s (objKey idx sub) with | .num n => leBytes r.ty.size n | .bytes b => leBytes 2 b.length ++ b)
  | none => []

/-- The size of an object's type. -/
def objSize (idx sub : Nat) : Nat :=
  match lookupObj idx sub with
  | some (r, _) => r.ty.size
  | none => 0

/-- A section: type, instance, body length, 8 zero bytes, the body padded to 64 bytes (R299). -/
def imageSection (type inst : Nat) (body : List Byte) : List Byte :=
  leBytes 2 type ++ leBytes 2 inst ++ leBytes 4 body.length ++ leBytes 8 0 ++ body
    ++ List.replicate (roundUp body.length 64 - body.length) 0

/-- A list of numbers as a MAP section holds it. -/
def mapList (l : List Nat) : List Byte := leBytes 2 l.length ++ l.flatMap (leBytes 2)

/-- A ticket as an image holds it: epochs are not carried (R301). -/
def Ticket.bare (t : Ticket) : Ticket := { t with epoch := 0, era := 0 }

/-- A pass as an image holds it: its instants are counted back from the image's time. -/
def Pass.bare (p : Pass) (now : Nat) : Pass :=
  { p with ticket := p.ticket.bare, began := now - p.began, awaySince := p.awaySince.map (now - ·) }

/-- A ring's record as an image holds it. -/
def ringImage (s : State) (h : Nat) : ImageBody :=
  let r := ringOf s h
  .ring ([3, 4, 5, 6, 7, 8, 9, 10, 11].map (fun sub => (sub, getN s (objKey (0x3100 + h) sub))))
    { r with era := 0, wait := r.wait.map (fun w => { w with ticket := w.ticket.bare })
             held := r.held.map (fun c => { c with ticket := c.ticket.bare }) }
    ((s.signals.filter (fun x => x.ticket.ring == h)).map (fun x => { x with ticket := x.ticket.bare }))

/-- A context's writable context and Silt subindices, and its record, as an image holds them. -/
def ctxImage (s : State) (c : Nat) : ImageBody :=
  .context ([2, 3, 4, 5, 6].map (fun sub => (sub, getN s (objKey (0x3200 + c) sub)))
      ++ [1, 3].map (fun sub => (0x100 + sub, getN s (objKey (0x3300 + c) sub))))
    { ctxOf s c with passes := (ctxOf s c).passes.map (·.bare s.now) }

/-- The rings bound to a context. -/
def boundRings (s : State) (v c : Nat) : List Nat := (ringsOf s v).filter (fun h => getN s (K.ringCtx h) == c)

/-- The 13 grant values in subindex order, each in its type. -/
def grantBody (s : State) (v : Nat) : List Byte := ((List.range 13).map (fun n => objBytes s (0x6001 + 0x40 * v) (n + 1))).flatten

/-- The eleven values of a layer's copy, each in its type. -/
def layerBody (p k : Nat) (l : LayerSet) : List Byte :=
  let vs := [b2n l.enable, l.surface, l.srcXY, l.srcWH, l.dstXY, l.dstWH, l.blend, l.alpha, l.matrix, l.rot, l.hint]
  ((List.range 11).map (fun j => leBytes (objSize (0x2020 + 0x100 * p + k) (j + 2)) (vs.getD j 0))).flatten

/-- The internal bodies that an image of a VF holds: section type, instance, content. -/
def imageBodies (s : State) (v ctx : Nat) : List (Nat × Nat × ImageBody) :=
  if ctx = 0xFF then ((ringsOf s v).filter (fun h => getN s (K.ringCtx h) == 0xFF)).map (fun h => (0x30, h, ringImage s h))
  else (0x10, ctx, ctxImage s ctx) :: (boundRings s v ctx).map (fun h => (0x11, h, ringImage s h))

/-- The sections of an image, each with its type and instance. -/
def imageSections (s : State) (v ctx : Nat) : List (Nat × Nat × List Byte) :=
  let internal := (imageBodies s v ctx).map (fun (t, i, b) => (t, i, Config.sectionBytes b))
  let state := if ctx ≠ 0xFF then [] else
    let owned := fun lo hi => ownedBy s lo hi v
    [(1, 0, grantBody s v),
     (2, 0, mapList (owned 0x3100 0x3200) ++ mapList (owned 0x3200 0x3240) ++ mapList (owned 0x3800 0x4000)
        ++ mapList (owned 0x3700 0x3800) ++ mapList (owned 0x3500 0x3600))]
    ++ (owned 0x3800 0x4000).map (fun i => (0x20, i, ([9, 2, 3, 4, 5, 8, 10, 11].map (objBytes s (0x3800 + i))).flatten))
    ++ (owned 0x3700 0x3800).map (fun i => (0x21, i, ([4, 2, 3].map (objBytes s (0x3700 + i))).flatten))
    ++ (owned 0x3500 0x3600).map (fun i => (0x22, i, ([3, 2].map (objBytes s (0x3500 + i))).flatten))
    ++ (List.range 8).flatMap (fun p => ((List.range 6).filter (fun k => layerOwner s p k == v)).map (fun k =>
        (0x23, 256 * p + k, layerBody p k ((portOf s p).active.layers.getD k {}) ++ layerBody p k (layerShadow s p k))))
    ++ (List.range 16).map (fun q => (0x24, (if q < 8 then 0 else 0x80) + q % 8,
        ([1, 2, 3].map (objBytes s (0x6008 + 0x40 * v + q))).flatten))
  state ++ internal ++ [(0xFF, 0, [])]

/-- The image of a VF's state (context 0xFF) or of one of its contexts. -/
def imageBytes (s : State) (v ctx : Nat) : List Byte :=
  let secs := imageSections s v ctx
  let body := secs.flatMap (fun (t, i, b) => imageSection t i b)
  asciiBytes "ZMCI" ++ leBytes 2 1 ++ leBytes 1 v ++ leBytes 1 (if ctx = 0xFF then 0 else 1) ++ leBytes 8 (64 + body.length)
    ++ leBytes 4 (crc32 body).toNat ++ leBytes 2 secs.length ++ leBytes 1 ctx ++ leBytes 1 0 ++ leBytes 8 s.now
    ++ leBytes 8 Config.serial.toNat ++ leBytes 4 Config.firmware.toNat ++ leBytes 4 (funcOf s v).epoch ++ leBytes 16 0 ++ body

/-- The size of a context's image, as snapshot source 0x06 gives it. -/
def ctxImageSize (s : State) (v c : Nat) : Nat := (imageBytes s v c).length

/-- A write to mig.op (R298, R301): accepted only while mig.state is FROZEN. -/
def migOpCheck (s : State) (v : Nat) : Status := if getN s (K.migState v) = 2 then .ok else .busy

/-- A SAVE begins: the image is taken; one that does not fit, or of a context that is not the VF's, ends with RANGE. -/
def saveApply (s : State) (v : Nat) : State :=
  let c := getN s (K.migCtx v)
  let img := imageBytes s v c
  let r := if (c ≠ 0xFF ∧ !(ctxsOf s v).contains c) ∨ getN s (K.migLen v) < img.length then 1 else 0
  let bodies := (imageBodies s v c).map (fun (_, _, b) => (Config.sectionBytes b, b))
  { (putN s (K.migState v) 3) with migs := tset s.migs v ⟨1, c, getN s (K.migAddr v), img, r⟩, bodies := bodies ++ s.bodies }

/-- A RESTORE begins: the image is read from the PF's space on H0. -/
def restoreApply (s : State) (v : Nat) : State :=
  let a := getN s (K.migAddr v)
  let len := ofLe (hostRead s 0 (a + 8) 8)
  let img := hostRead s 0 a (min len (getN s (K.migLen v)))
  { (putN s (K.migState v) 4) with migs := tset s.migs v ⟨2, ofLe ((img.drop 0x16).take 1), a, img, 0⟩ }

/-- The sections of an image's body: type, instance, body. -/
def parseSections : Nat → List Byte → List (Nat × Nat × List Byte)
  | 0, _ => []
  | n + 1, b =>
    let len := ofLe ((b.drop 4).take 4)
    (ofLe (b.take 2), ofLe ((b.drop 2).take 2), (b.drop 16).take len) :: parseSections n (b.drop (16 + roundUp len 64))

/-- The numbers of the five lists of a MAP section. -/
def parseMap : Nat → List Byte → List (List Nat)
  | 0, _ => []
  | n + 1, b =>
    let k := ofLe (b.take 2)
    (List.range k).map (fun i => ofLe ((b.drop (2 + 2 * i)).take 2)) :: parseMap n (b.drop (2 + 2 * k))

/-- The values of a list of sizes at the start of a byte string. -/
def parseFields : List Nat → List Byte → List Nat
  | [], _ => []
  | w :: r, b => ofLe (b.take w) :: parseFields r (b.drop w)

/-- Whether a number of an image is not assigned to the VF, a slot is not free for it, or the grant is smaller (R301). -/
def imageMismatch (s : State) (v : Nat) (img : List Byte) (secs : List (Nat × Nat × List Byte)) : Bool :=
  let body := fun t => ((secs.find? (fun x => x.1 == t)).map (·.2.2)).getD []
  let kind := ofLe ((img.drop 7).take 1)
  let c := ofLe ((img.drop 0x16).take 1)
  let m := parseMap 5 (body 2)
  let own := fun lo l => (m.getD l []).any (fun i => getN s (objKey (lo + i) 1) != v)
  let sizes := (List.range 13).map (fun n => objSize (0x6001 + 0x40 * v) (n + 1))
  let slots := secs.any (fun x => (x.1 == 0x20 && (getN s (K.surfOwner x.2.1) != v || getB s (K.surfAlloc x.2.1)))
    || (x.1 == 0x21 && getN s (K.fenceOwner x.2.1) != v) || (x.1 == 0x22 && getN s (K.progOwner x.2.1) != v)
    || (x.1 == 0x23 && layerOwner s (x.2.1 / 256) (x.2.1 % 256) != v)
    || ((x.1 == 0x11 || x.1 == 0x30) && getN s (K.ringOwner x.2.1) != v) || (x.1 == 0x10 && getN s (K.ctxOwner x.2.1) != v))
  ofLe ((img.drop 6).take 1) != v || (kind == 1 && !(ctxsOf s v).contains c) || slots
    || (kind == 0 && (own 0x3100 0 || own 0x3200 1 || own 0x3800 2 || own 0x3700 3 || own 0x3500 4
      || (List.range 13).any (fun n => n != 11 && decide (grantN s v (n + 1) < (parseFields sizes (body 1)).getD n 0))
      || !bitsIn ((parseFields sizes (body 1)).getD 11 0) (grantN s v 12)))

/-- The result of a RESTORE's checks (R301). -/
def restoreResult (s : State) (v : Nat) (img : List Byte) : Nat :=
  let len := ofLe ((img.drop 8).take 8)
  let secs := parseSections (ofLe ((img.drop 0x14).take 2)) (img.drop 64)
  if getN s (K.migLen v) < len ∨ img.length < 64 then 1
  else if (crc32 (img.drop 64)).toNat ≠ ofLe ((img.drop 0x10).take 4) then 2
  else if img.take 6 ≠ asciiBytes "ZMCI" ++ leBytes 2 1 ∨ ofLe ((img.drop 0x2B).take 1) ≠ Config.firmware.toNat / 2 ^ 24 then 3
  else if imageMismatch s v img secs then 4
  else 0

/-- What an internal body says: what this module wrote into it, or as it reads another module's. -/
def bodyOf (s : State) (b : List Byte) : ImageBody :=
  match s.bodies.find? (fun x => x.1 == b) with
  | some x => x.2
  | none => Config.sectionBody b

/-- A ticket taken over by a function and ring in their present epoch and era. -/
def Ticket.adopt (t : Ticket) (s : State) (v : Nat) : Ticket :=
  { t with func := v, epoch := (funcOf s v).epoch, era := (ringOf s t.ring).era }

/-- A pass taken over by a function: its instants are counted back from now. -/
def Pass.adopt (p : Pass) (s : State) (v : Nat) : Pass :=
  { p with ticket := p.ticket.adopt s v, began := s.now - p.began, awaySince := p.awaySince.map (s.now - ·) }

/-- Restores a ring from an internal body. -/
def restoreRing (s : State) (v h : Nat) (b : ImageBody) : State :=
  match b with
  | .ring objs r signals =>
    let s := objs.foldl (fun s x => writeN s (objKey (0x3100 + h) x.1) x.2) s
    let s := modRing s h (fun old => { r with era := old.era, wait := r.wait.map (fun w => { w with ticket := w.ticket.adopt s v })
                                              held := r.held.map (fun c => { c with ticket := c.ticket.adopt s v }) })
    { s with signals := s.signals ++ signals.map (fun x => { x with ticket := x.ticket.adopt s v }) }
  | _ => s

/-- Restores a context from an internal body; its Silt pool lies where the target placed it. -/
def restoreCtx (s : State) (v c : Nat) (b : ImageBody) : State :=
  match b with
  | .context objs x =>
    let s := objs.foldl (fun s o => if o.1 < 0x100 then writeN s (objKey (0x3200 + c) o.1) o.2
      else writeN s (objKey (0x3300 + c) (o.1 - 0x100)) o.2) s
    let s := if getB s (K.ctxEnable c) then takePool s c else s
    let kib := (x.passes.map (fun p => (p.spilled.map (·.kib)).sum)).sum
    putN (modCtx s c (fun old => { x with unit := old.unit, passes := x.passes.map (·.adopt s v) }))
      (K.ctxSave c) kib
  | _ => s

/-- Restores one section of an image (R301): surfaces and fences with the handles of the image, surface memory zero, layer
shadow copies with their commit bits. -/
def restoreSection (v : Nat) (s : State) (x : Nat × Nat × List Byte) : State :=
  let (t, i, b) := x
  if t = 0x20 then
    let f := parseFields [4, 1, 1, 2, 2, 1, 8, 1] b
    let put := fun s sub n => writeN s (objKey (0x3800 + i) sub) n
    let s := put (put (put (put (put (put s 2 (f.getD 1 0)) 3 (f.getD 2 0)) 4 (f.getD 3 0)) 5 (f.getD 4 0)) 10 (f.getD 6 0)) 11 (f.getD 7 0)
    let g := f.getD 0 0 / 65536
    if f.getD 5 0 = 1 then
      match chooseUnit s (slotSize s i) (getN s (K.surfHint i)) with
      | some (u, kept) =>
        let base := placeIn (extents s u) (slotSize s i)
        putN (modSurf (allocSurface (put s 8 1) i u base kept) i (fun r => { r with gen := g })) (K.surfHandle i) (f.getD 0 0)
      | none => s
    else modSurf s i (fun r => { r with gen := g })
  else if t = 0x21 then
    let f := parseFields [4, 8, 8] b
    let s := { s with fenceGen := tset s.fenceGen i (f.getD 0 0 / 65536) }
    putN (putN (writeN (writeN s (K.fenceValue i) (f.getD 1 0)) (K.fenceShare i) (f.getD 2 0)) (K.fenceHandle i) (f.getD 0 0))
      (K.fenceState i) fenceLive
  else if t = 0x22 then
    let n := ofLe (b.take 2)
    let code := (b.drop (2 + n)).drop 2
    progApply (progApply s i 3 (.bytes ((b.drop 2).take n))) i 2 (.bytes code)
  else if t = 0x23 then
    let (p, k) := (i / 256, i % 256)
    let sizes := (List.range 11).map (fun j => objSize (0x2020 + 0x100 * p + k) (j + 2))
    let f := parseFields sizes (b.drop sizes.sum)
    let s := foldN (List.range 11) (fun s j => writeN s (layerKey p k (j + 2)) (f.getD j 0)) s
    commitBits s p (2 ^ k)
  else if t = 0x24 then
    let f := parseFields [1, 4, 4] b
    foldN [1, 2, 3] (fun s sub => writeN s (objKey (0x6008 + 0x40 * v + (if 0x80 ≤ i then 8 else 0) + i % 8) sub) (f.getD (sub - 1) 0)) s
  else if t = 0x10 then restoreCtx s v i (bodyOf s b)
  else if t = 0x11 ∨ t = 0x30 then restoreRing s v i (bodyOf s b)
  else s

/-- IMAGE_DONE: a SAVE has written its image, or a RESTORE is checked and done; mig.result and the event (R298, R301, R305). -/
def execImageDone (v : Fin 64) (s : State) : Host.Outcome State Fault Refusal :=
  let st := getN s (K.migState v)
  if v.val = 0 ∨ (st ≠ 3 ∧ st ≠ 4) then .next s
  else
    let m := tget s.migs v {}
    let r := if m.op = 1 then m.result else restoreResult s v m.image
    let s := if m.op = 1 then putN (if r = 0 then hostWrite s 0 m.addr m.image else s) (K.migSize v) m.image.length
      else if r = 0 then
        (parseSections (ofLe ((m.image.drop 0x14).take 2)) (m.image.drop 64)).foldl (restoreSection v.val) s
      else s
    let s := putN (putN { s with migs := tdel s.migs v } (K.migResult v) r) (K.migState v) 2
    .next (emit s 8 0x0804 v (leBytes 1 v ++ leBytes 1 m.ctx ++ leBytes 1 m.op ++ leBytes 1 r ++ leBytes 4 m.image.length) [])

/-! ## The dirty-page log (R302 to R304) -/

/-- Writes to log.base0, log.base1, log.lo and log.pages are refused while logging (R303), and a swap during SWAPPING (R304) or
with logging off (log 134). The bases and log.lo are 4 KiB aligned. -/
def logCheck (s : State) (v sub x : Nat) : Status :=
  if sub = 2 ∨ sub = 3 ∨ sub = 4 then firstRefusal [(x % 4096 ≠ 0, .range), (getB s (K.logEnable v), .busy)]
  else if sub = 5 then (if getB s (K.logEnable v) then .busy else .ok)
  else if sub = 6 then (if getN s (K.logState v) = 1 then .ok else .busy)
  else .ok

/-- A write to a log object: enabling sets log.active and log.seq to 0 (R303), a swap begins SWAPPING (R304). -/
def logApply (s : State) (v sub x : Nat) : State :=
  if sub = 1 then
    let was := getB s (K.logEnable v)
    let s := writeN s (K.logEnable v) x
    if x = 1 ∧ !was then putN (putN (putN s (K.logActive v) 0) (K.logSeq v) 0) (K.logState v) 1
    else if x = 0 then putN s (K.logState v) 0
    else s
  else if sub = 6 then putN s (K.logState v) 2
  else writeN s (objKey (0x6021 + 0x40 * v) sub) x

/-- LOG_SWAP_DONE: the old bitmap is written back and the swap ends (R304). -/
def execLogSwapDone (v : Fin 64) (s : State) : Host.Outcome State Fault Refusal :=
  if v.val = 0 ∨ getN s (K.logState v) ≠ 2 then .next s
  else
    let a := 1 - getN s (K.logActive v)
    let q := (getN s (K.logSeq v) + 1) % 2 ^ 32
    .next (emit (putN (putN (putN s (K.logActive v) a) (K.logSeq v) q) (K.logState v) 1) 8 0x0805 v
      (leBytes 1 v ++ leBytes 1 a ++ leBytes 4 q) [])

end Sys2Proof.Machine
end

