-- ==== Sys2Proof/Machine/Operands.lean ====
section
/-!
DEFINITION. The forms in which requests and responses carry values: the encodings of Table DI-1, the ranges of R18, and the PDU of
Tables DI-7 and DI-8.
-/

namespace Sys2Proof.Machine

/-! ## Values (Table DI-1) -/

/-- Whether a byte continues a UTF-8 sequence. -/
def utf8Cont (b : Byte) : Bool := b.toNat / 64 == 2

/-- Whether a byte string is well-formed UTF-8. -/
def utf8Ok : Nat → List Byte → Bool
  | _, [] => true
  | 0, _ => false
  | n + 1, a :: r =>
    let x := a.toNat
    if x < 0x80 then utf8Ok n r
    else if 0xC2 ≤ x ∧ x < 0xE0 then
      match r with
      | b :: r => utf8Cont b && utf8Ok n r
      | _ => false
    else if 0xE0 ≤ x ∧ x < 0xF0 then
      match r with
      | b :: c :: r => utf8Cont b && utf8Cont c && decide (x ≠ 0xE0 ∨ 0xA0 ≤ b.toNat) && decide (x ≠ 0xED ∨ b.toNat < 0xA0) && utf8Ok n r
      | _ => false
    else if 0xF0 ≤ x ∧ x < 0xF5 then
      match r with
      | b :: c :: d :: r =>
        utf8Cont b && utf8Cont c && utf8Cont d && decide (x ≠ 0xF0 ∨ 0x90 ≤ b.toNat) && decide (x ≠ 0xF4 ∨ b.toNat < 0x90) && utf8Ok n r
      | _ => false
    else false

/-- The value that the bytes of a request spell in a type, if they fit it (Table DI-1, R18). -/
def parseVal (t : Ty) (d : List Byte) : Option Val :=
  match t with
  | .bool => if d.length = 1 ∧ ofLe d < 2 then some (.num (ofLe d)) else none
  | .f32 => if d.length = 4 ∧ ofLe d / 2 ^ 23 % 256 ≠ 255 then some (.num (ofLe d)) else none
  | .str =>
    let b := d.drop 2
    if 2 ≤ d.length ∧ ofLe (d.take 2) = b.length ∧ b.length ≤ 240 ∧ utf8Ok b.length b then some (.bytes b) else none
  | .blob => if 2 ≤ d.length ∧ ofLe (d.take 2) = (d.drop 2).length then some (.bytes (d.drop 2)) else none
  | t => if d.length = t.size then some (.num (ofLe d)) else none

/-- A value's bytes in a response (Table DI-1). -/
def encodeVal (t : Ty) (v : Val) : List Byte :=
  match t with
  | .str => leBytes 2 v.toBytes.length ++ v.toBytes
  | .blob => leBytes 2 v.toBytes.length ++ v.toBytes
  | t => leBytes t.size v.toNat

/-- What a row's range bounds: a number's value, or the length of a STR or BLOB (R18). -/
def measureOf (t : Ty) (v : Val) : Int :=
  match t with
  | .str => v.toBytes.length
  | .blob => v.toBytes.length
  | t => if t.signed then signedOf (8 * t.size) v.toNat else v.toNat

/-- Whether a value lies in its row's range (R18). -/
def inRange (r : ObjRow) (v : Val) : Bool := r.ranges.any (fun i => decide (i.1 ≤ measureOf r.ty v ∧ measureOf r.ty v ≤ i.2))

/-! ## PDUs (R37, R38, Tables DI-7, DI-8) -/

/-- The item header at the start of a byte string. -/
def parseItem (b : List Byte) : ItemHdr :=
  ⟨BitVec.ofNat 16 (ofLe (b.take 2)), BitVec.ofNat 8 (ofLe ((b.drop 2).take 1)), BitVec.ofNat 8 (ofLe ((b.drop 3).take 1))⟩

/-- The item header's four bytes. -/
def itemBytes (h : ItemHdr) : List Byte := leBytes 2 h.index.toNat ++ leBytes 1 h.sub.toNat ++ leBytes 1 h.ty.toNat

/-- The length of a value from its type code and its first bytes; none for a code that is no type's. -/
def valueLen (ty : Nat) (b : List Byte) : Option Nat :=
  if ty = 1 ∨ ty = 7 then some 1 else if ty = 2 ∨ ty = 10 then some 2 else if ty = 3 ∨ ty = 5 ∨ ty = 6 then some 4
  else if ty = 4 then some 8 else if ty = 8 ∨ ty = 9 then some (2 + ofLe (b.take 2)) else none

/-- The items of a GROUP's payload; what follows an item whose type code has no length belongs to it. None where items are missing
or bytes are left over. -/
def parseItems : Nat → List Byte → Option (List (ItemHdr × List Byte))
  | 0, [] => some []
  | 0, _ => none
  | n + 1, b =>
    if b.length < 4 then none
    else
      let h := parseItem b
      let r := b.drop 4
      match valueLen h.ty.toNat r with
      | none => some [(h, r)]
      | some k => if r.length < k then none else (parseItems n (r.drop k)).map ((h, r.take k) :: ·)

/-- The request that an opcode and a payload spell. -/
def parseRequest (op : Nat) (p : List Byte) : Request :=
  let n := p.length
  let bad := Request.badPayload (BitVec.ofNat 8 op) (if 0x10 ≤ op ∧ op < 0x16 ∧ 4 ≤ n then some (parseItem p) else none)
  let num := fun o k => ofLe ((p.drop o).take k)
  if op = 0x01 then (if n = 8 ∧ num 6 2 = 0 then .openSession (BitVec.ofNat 16 (num 0 2)) (BitVec.ofNat 32 (num 2 4)) else bad)
  else if op = 0x02 then (if n = 0 then .close else bad)
  else if op = 0x03 then (if n = 0 then .keepalive else bad)
  else if op = 0x10 then (if n = 4 then .read (parseItem p) else bad)
  else if op = 0x11 then (if 4 ≤ n then .write (parseItem p) (p.drop 4) else bad)
  else if op = 0x12 then (if 6 ≤ n then .writeIf (parseItem p) (BitVec.ofNat 16 (num 4 2)) (p.drop 6) else bad)
  else if op = 0x13 then (if n = 4 then .describe (parseItem p) else bad)
  else if op = 0x14 then
    (if n = 10 then .readSeg (parseItem p) (BitVec.ofNat 32 (num 4 4)) (BitVec.ofNat 16 (num 8 2)) else bad)
  else if op = 0x15 then
    (if 12 ≤ n then .writeSeg (parseItem p) (BitVec.ofNat 32 (num 4 4)) (BitVec.ofNat 32 (num 8 4)) (p.drop 12) else bad)
  else if op = 0x16 then
    (if n < 4 ∨ num 1 3 ≠ 0 then bad
     else match parseItems (num 0 1) (p.drop 4) with
       | some l => .group l
       | none => bad)
  else if op = 0x20 then (if n = 4 then .subscribe (BitVec.ofNat 32 (num 0 4)) else bad)
  else .unknown (BitVec.ofNat 8 op)

/-- What a request PDU says, or none where its header is malformed (R37): session, sequence number, request. -/
def parsePdu (b : List Byte) : Option (Nat × Nat × Request) :=
  let num := fun o k => ofLe ((b.drop o).take k)
  if b.length < 12 ∨ num 0 1 ≠ 1 ∨ num 8 2 ≠ b.length - 12 ∨ num 7 1 / 4 ≠ 0 ∨ num 7 1 % 2 = 1 then none
  else some (num 2 2, num 4 2, parseRequest (num 1 1) (b.drop 12))

/-- The opcode of a request (Table DI-8). -/
def opOf : Request → Nat
  | .openSession _ _ => 0x01 | .close => 0x02 | .keepalive => 0x03 | .read _ => 0x10 | .write _ _ => 0x11 | .writeIf _ _ _ => 0x12
  | .describe _ => 0x13 | .readSeg _ _ _ => 0x14 | .writeSeg _ _ _ _ => 0x15 | .group _ => 0x16 | .subscribe _ => 0x20
  | .unknown op => op.toNat | .badPayload op _ => op.toNat

/-- The length of a request's payload (Table DI-8). -/
def lenOf : Request → Nat
  | .openSession _ _ => 8 | .close => 0 | .keepalive => 0 | .read _ => 4 | .write _ d => 4 + d.length | .writeIf _ _ d => 6 + d.length
  | .describe _ => 4 | .readSeg _ _ _ => 10 | .writeSeg _ _ _ d => 12 + d.length
  | .group l => 4 + (l.map (fun e => 4 + e.2.length)).sum | .subscribe _ => 4 | .unknown _ => 0
  | .badPayload _ i => if i.isSome then 4 else 0

/-- A response PDU's bytes (Table DI-7). -/
def Response.bytes (r : Response) : List Byte :=
  leBytes 1 1 ++ leBytes 1 r.op ++ leBytes 2 r.session ++ leBytes 2 r.seq ++ leBytes 1 r.status.code
    ++ leBytes 1 (1 + 2 * b2n r.more) ++ leBytes 2 r.payload.length ++ leBytes 2 r.aux ++ r.payload

/-- A NOTIFY PDU's bytes to a session (R39, Tables DI-7, DI-8): sequence number 0; it is no response, so RSP is clear (log 252). -/
def Note.pdu (session : Nat) (n : Note) : List Byte :=
  leBytes 1 1 ++ leBytes 1 0x21 ++ leBytes 2 session ++ leBytes 2 0 ++ leBytes 1 0 ++ leBytes 1 0 ++ leBytes 2 (12 + n.detail.length)
    ++ leBytes 2 0 ++ leBytes 2 n.code ++ leBytes 2 n.source ++ leBytes 8 n.time ++ n.detail

/-! ## The side-band's frames (R43 to R45) -/

/-- The least CAN FD data length that holds `n` bytes. -/
def canFdLen (n : Nat) : Nat := if n ≤ 8 then n else ([12, 16, 20, 24, 32, 48, 64].find? (n ≤ ·)).getD 64

/-- A frame's data, padded with zeros to a CAN FD length (R44). -/
def canPad (b : List Byte) : List Byte := b ++ List.replicate (canFdLen b.length - b.length) 0

/-- The data of the frames that carry a PDU: at most 63 bytes each behind the segment control byte (R44). -/
def canSegments : Nat → Nat → List Byte → List (List Byte)
  | 0, _, _ => []
  | k + 1, n, b =>
    let last := decide (b.length ≤ 63)
    canPad (leBytes 1 (n + 64 * b2n (n == 0) + 128 * b2n last) ++ b.take 63) ::
      (if last then [] else canSegments k (n + 1) (b.drop 63))

/-- The frames of a PDU to the node's clients, with their identifier 0x540 + n (R43). -/
def canResponse (node : Nat) (pdu : List Byte) : List (Nat × List Byte) := (canSegments 8 0 pdu).map ((0x540 + node, ·))

/-- The payload of an event frame: code, source, time, 12 bytes of detail, then zeros, 64 bytes in all (R45). -/
def Note.frame (n : Note) : List Byte :=
  let b := leBytes 2 n.code ++ leBytes 2 n.source ++ leBytes 8 n.time ++ n.detail.take 12
  b ++ List.replicate (64 - b.length) 0

end Sys2Proof.Machine
end

