-- ==== Sys2Proof/Machine/Stored.lean ====
section
/-!
DEFINITION. Stored objects (R21 to R23): the two MRAM copies of each RWS and RWT object, storing and loading them; and MRAM
row writes (R479, R480).
-/

namespace Sys2Proof.Machine

/-- The access class of the object at a key. -/
def accOf (k : Nat) : Option Acc := (lookupObj (k / 256) (k % 256)).map (·.1.acc)

/-- The MRAM copies of an object; one never stored holds its default in both. -/
def copiesOf (s : State) (k : Nat) : MramObj := tget s.mram k ⟨{ val := defaultVal k }, { val := defaultVal k }⟩

/-- The value of the newest copy whose CRC-32 is correct, if either is (R22). -/
def MramObj.newest (o : MramObj) : Option Val :=
  if o.a.ok && (o.b.seq ≤ o.a.seq || !o.b.ok) then some o.a.val else if o.b.ok then some o.b.val else none

/-- The copies after a store: the copy with the older sequence number is written (R21). -/
def MramObj.store (o : MramObj) (v : Val) : MramObj :=
  if o.a.seq ≤ o.b.seq then { o with a := ⟨o.b.seq + 1, v, true⟩ } else { o with b := ⟨o.a.seq + 1, v, true⟩ }

/-- The MRAM row of the copy of an object that the next store writes: the one with the older sequence number (R21). -/
def rowOfKey (s : State) (k : Nat) : Nat :=
  let o := copiesOf s k
  (Config.mramRow (if o.a.seq ≤ o.b.seq then k else 2 ^ 25 + k)).toNat

/-- Stores a value, or answers that MRAM cannot take it: its row is unwritable and its bank has no spare row (R23, R479). -/
def storeKey (s : State) (k : Nat) (v : Val) : State × Bool :=
  let row := rowOfKey s k
  if s.grog.badRows.contains (s.grog.home row) then (s, false)
  else (mramWriteRow { s with mram := tset s.mram k ((copiesOf s k).store v) } (row / 2048) (row % 2048) 0, true)

/-- A write of a stored object: the value is in force, OK once it is stored, else FULL (R21, R23). -/
def writeStored (s : State) (k : Nat) (v : Val) : State × Status :=
  let (s', ok) := storeKey (writeV s k v) k v
  (s', if ok then .ok else .full)

/-- Loads one stored object at a start: the newest correct copy, or the factory default, counted and logged (R22). -/
def loadKey (s : State) (k : Nat) : State :=
  match (copiesOf s k).newest with
  | some v => { s with objs := tset s.objs k ⟨v, 0⟩ }
  | none => bump { s with objs := tdel s.objs k, badStored := s.badStored ++ [k / 256] } K.dictStoreBad

/-- Loads the stored objects that satisfy a condition on key and class. -/
def loadStored (s : State) (p : Nat → Acc → Bool) : State :=
  foldN ((s.mram.map (·.1)).filter (fun k => match accOf k with | some a => a.stored && p k a | none => false)) loadKey s

/-- Every object of a condition back at its stored value, one never stored at its default. -/
def restoreStored (s : State) (p : Nat → Acc → Bool) : State :=
  loadStored { s with objs := s.objs.filter (fun e => !(match accOf e.1 with | some a => a.stored && p e.1 a | none => false)) } p

/-- The stored RWT objects in index and subindex order, each as the trusted configuration's measurement takes it (R329): index,
subindex, type code, value length and value. -/
def trustedConfig (s : State) : List Byte :=
  let rows := (soundRows ++ worldsRows ++ powerRows).filter (·.acc == .rwt)
  let keys := rows.flatMap (fun r => (List.range r.c1).flatMap (fun i => (List.range r.c2).flatMap (fun j =>
    (List.range r.subN).map (fun k => (objKey (r.base + r.s1 * i + r.s2 * j) (r.sub0 + k), r.ty)))))
  (keys.insertionSort (fun a b => a.1 ≤ b.1)).flatMap (fun (k, ty) =>
    let v := match getV s k with | .num n => leBytes ty.size n | .bytes b => b
    leBytes 2 (k / 256) ++ leBytes 1 k ++ leBytes 1 ty.code ++ leBytes 4 v.length ++ v)

/-- MRAM_ROW_WRITE: a row is written and read back; `badReads` read-backs differ (R479). -/
def execMramRowWrite (bank : Fin 16) (row : Fin 2048) (badReads : Nat) (s : State) : Host.Outcome State Fault Refusal :=
  .next (mramWriteRow s bank row badReads)

end Sys2Proof.Machine
end

