-- ==== Sys2Proof/Machine/Outputs.lean ====
section
/-!
DEFINITION. Writing the objects of an output, its composition objects and its layers: who may, the checks, and the effect
(R86, R110, R111, R118, R121, R130, R132 to R135, R318).
-/

namespace Sys2Proof.Machine

/-- Whether a port serves a spread: its layers read owner 0xFD (R420). -/
def lentToSpread (s : State) (p : Nat) : Bool := layerOwner s p 0 == 0xFD

/-- Who may write an output's objects: the manager; out.commit also a VF that owns a layer there (R110, R111). -/
def outAccess (s : State) (c : WCtx) (p sub : Nat) : Bool := c.isMgr || (sub == 14 && c.role == .vf && ownsOn s c.func p)

/-- Who may read an output's objects (R111): a VF that owns a layer there reads four of them. -/
def outReadable (s : State) (f p sub : Nat) : Bool := [2, 10, 15, 17].contains sub && ownsOn s f p

/-- Who may write the composition objects and the layers of a port: nobody while it serves a spread (R86, R420). -/
def compAccess (s : State) (c : WCtx) (p : Nat) : Bool := c.isMgr && !lentToSpread s p

/-- Who may write a layer object (R86, R80, R420). -/
def portLayerAccess (s : State) (c : WCtx) (p k sub v : Nat) : Bool := !lentToSpread s p && layerAccess s c p k sub v

/-- Whether a mode fits an output's link settings (R118). -/
def modeFits (s : State) (p m : Nat) : Bool :=
  (leastRate (getN s (K.outKind p)) (getN s (K.outRateMax p)) (modePclk m) (getN s (K.outLanes p)) (getN s (K.outBpc p))).isSome

/-- The range and busy checks of a write to an output's objects (R118, R130, R132, R135). -/
def outCheck (s : State) (p sub v : Nat) : Status :=
  let m := getN s (K.outMode p)
  if sub = 1 then (if v = 1 ∧ m = 0xFF then .range else .ok)
  else if sub = 2 then
    firstRefusal [
      (v == 0xFF && getB s (K.outEnable p), .range),
      (v != 0xFF && !modeFits s p v, .range),
      (outSt s p == outStarting || outSt s p == outChanging || outSt s p == outStopping, .busy)]
  else if 3 ≤ sub ∧ sub ≤ 7 then
    firstRefusal [(sub == 5 && !(laneRates (getN s (K.outKind p))).contains v, .range), (outSt s p != outOff, .busy)]
  else if sub = 16 then (if m ≠ 0xFF ∧ v ≠ 0xFFFF ∧ modeVtotal m ≤ v then .range else .ok)
  else .ok

/-- The domains that an output's enable needs powered (R132). -/
def outDomains (s : State) (p : Nat) : List Nat := startDomains p ((startEngine s p).getD p)

/-- Whether an enable of an output would be queued: it, or a domain it needs, is shutting down (R48, R439). -/
def outStops (s : State) (p : Nat) : Bool := outSt s p == outStopping || anyStopping s (outDomains s p)

/-- The claimed domains that refuse an enable of some function: the claimed domains it needs that read OFF, STOPPING or CUT, unless
the function is enabled already (R318). -/
def enableClaims (s : State) (k : Nat) (on stopping : Bool) (ds : List Nat) : List Nat :=
  if on && !s.transit.contains k && (!getB s k || stopping) then blockedBy s ds else []

/-- The claimed domains that refuse a write to out.enable: those an enable needs, or the port's own Kaolin claims (R164, R318). -/
def outClaims (s : State) (p v : Nat) : List Nat :=
  let k := K.outEnable p
  if v = 1 then enableClaims s k true (outSt s p == outStopping) (outDomains s p)
  else if getB s k && !s.transit.contains k && outSt s p != outStopping && outSt s p != outOff && kaolinOn s p then
    ([11, phyDomain p] ++ ((portOf s p).engine.map engineDomain).toList ++ ((portOf s p).spare.map engineDomain).toList).dedup
  else []

/-- The largest rate of a kind that does not exceed a rate, or the kind's lowest (R118). -/
def fitRate (kind r : Nat) : Nat :=
  if (laneRates kind).contains r then r else (((laneRates kind).filter (· ≤ r)).getLast?).getD 1620

/-- A write of true to out.enable that is not queued. -/
def enableOutput (s : State) (p : Nat) : State := startOutput (writeB s (K.outEnable p) true) p

/-- A write of false to out.enable (R133, R136); an output that is off or stopping already stays so. -/
def disableOutput (s : State) (p : Nat) : State :=
  let s := modPort (writeB s (K.outEnable p) false) p (fun q => { q with shed := false })
  if outSt s p = outOff then settle s else if outSt s p = outStopping then s else stopOutput s p

/-- The effect of an accepted write to out.mode: on a running output a new value starts a transition (R134, R135). -/
def modeApply (s : State) (p v : Nat) : State :=
  if v = getN s (K.outMode p) then s
  else
    let s := writeN s (K.outMode p) v
    if outSt s p = outRun then beginTransition s p 0 else s

/-- The effect of an accepted write to an output's objects. -/
def outApply (s : State) (c : WCtx) (p sub v : Nat) : State × Status :=
  if sub = 1 then enableWrite s (K.outEnable p) (v == 1) (outStops s p) (enableOutput · p) (disableOutput · p)
  else if sub = 2 then (modeApply s p v, .ok)
  else if sub = 3 ∧ v ≠ getN s (K.outKind p) then
    let r := fitRate v (getN s (K.outRateMax p))
    let s := writeN s (K.outKind p) v
    if r = getN s (K.outRateMax p) then (s, .ok) else writeStored s (K.outRateMax p) (.num r)
  else if sub = 14 then (commitBits s p (commitMask s c.func p c.isMgr), .ok)
  else if sub = 16 then (modPort (writeN s (K.outLineMatch p) v) p (fun q => { q with matched := q.matched && v == getN s (K.outLineMatch p) }), .ok)
  else (writeN s (objKey (0x2000 + 0x100 * p) sub) v, .ok)

/-- The effect of an accepted write to a layer object: a new owner starts with the defaults of the shadow copy kept as they are; the
rest is a shadow write (R86, R121). -/
def layerApply (s : State) (p k sub v : Nat) : State := writeN s (layerKey p k sub) v

/-- An output that was shut down because the trusted world let a claimed domain go starts again once its domains are no longer
stopping and can be powered (R437, R440). No write enables it, so its frame number and counters go on (R531). -/
def restartOutput (s : State) (p : Nat) : State :=
  if getB s (K.outEnable p) && !s.transit.contains (K.outEnable p) && outSt s p == outOff && !(portOf s p).noEngine
      && (outDomains s p).all (fun d => !isClaimed s d || domSt s d == domOn) && !anyStopping s (outDomains s p) then beginStart s p
  else s

/-- An output's shut-down for a domain that its claim's owner lets go; out.enable stays true (R133, R437). -/
def shedOutput (s : State) (p : Nat) : State :=
  if getB s (K.outEnable p) && (outSt s p == outStarting || outSt s p == outRun || outSt s p == outChanging) then
    modPort (stopOutput s p) p (fun q => { q with shed := true })
  else s

/-- The line that a port's timing generator scans: counted from the last instant at which its line was known, within the part of
the frame, active or blanking, that the raster's events have reached (R106, log 22). -/
def rasterLine (s : State) (p : Nat) : Nat :=
  let q := portOf s p
  let m := q.runMode
  let l := q.line + (s.now - q.lineTime) * modePclk m / (modeHtotal m * 1000000)
  if q.inBlank then max (modeH m) (min l (modeVtotal m - 1)) else min l (modeH m - 1)

/-- out.pos (R531): 0 while off; while no timing runs, where it last stopped; else the current line and the frame number. -/
def outPos (s : State) (p : Nat) : Nat :=
  let q := portOf s p
  if outSt s p = outOff then 0
  else if !timingRuns s p then q.stoppedPos
  else rasterLine s p + 65536 * (q.frame % 65536)

end Sys2Proof.Machine
end

