-- ==== Sys2Proof/Machine/SidePins.lean ====
section
/-!
DEFINITION. The side pins (R500 to R505): worlds, drive, PWM, edge counters and stamps with their crossing (R467, R469), the
states they take at a start and in STANDBY.
-/

namespace Sys2Proof.Machine

/-- sp.func codes (Table MC-8). -/
def spInput : Nat := 0
def spOutput : Nat := 1
def spOpenDrain : Nat := 2
def spPwm : Nat := 3
def spCountFn : Nat := 4
def spStampFn : Nat := 5

/-- The record of a side pin. -/
def pinOf (s : State) (n : Nat) : Pin := tget s.pins n {}

/-- Changes the record of a side pin. -/
def modPin (s : State) (n : Nat) (g : Pin → Pin) : State := { s with pins := tset s.pins n (g (pinOf s n)) }

/-- Whether a pin belongs to the trusted world: its assignment in force (R311). -/
def pinTrusted (s : State) (n : Nat) : Bool := getN s (K.worldPinT n) == 1

/-- The function of a pin. -/
def pinFunc (s : State) (n : Nat) : Nat := getN s (K.spFunc n)

/-- Whether a pin is listed in pwr.wake.pins. -/
def wakePin (s : State) (n : Nat) : Bool := (getBytes s K.pwrWakePins).any (fun b => b.toNat == n)

/-- The PWM frequency and duty in force: a write takes effect at the start of the next period (R504). -/
def pwmNow (s : State) (n : Nat) : Nat × Nat :=
  let q := pinOf s n
  if s.now < q.newFrom then (q.freqWas, q.dutyWas) else (getN s (K.spPwmFreq n), getN s (K.spPwmDuty n))

/-- A PWM period in ns. -/
def pwmPeriod (freq : Nat) : Nat := 1000000000 / freq

/-- Before a write of the frequency or duty of a running PWM: the values in force stay so until the next period starts. -/
def pwmHold (s : State) (n : Nat) : State :=
  let q := pinOf s n
  if pinFunc s n ≠ spPwm ∨ s.now < q.newFrom then s
  else
    let (f, d) := pwmNow s n
    let base := max q.periodAt q.newFrom
    modPin s n (fun q => { q with freqWas := f, dutyWas := d, periodAt := base
                                  newFrom := base + ((s.now - base) / pwmPeriod f + 1) * pwmPeriod f })

/-- The level that a pin drives, or none where it is high impedance (R502 to R504): sp.out drives in OUTPUT and OPEN_DRAIN alone,
duty 0 is low and 1000 high. -/
def pinDrive (s : State) (n : Nat) : Option Bool :=
  let q := pinOf s n
  if q.stage = 1 then
    (if getN s (K.spSafe n) = 0 then some false else if getN s (K.spSafe n) = 1 then some true else none)
  else if q.stage ≠ 2 then none
  else if pinFunc s n = spOutput then some (getB s (K.spOut n))
  else if pinFunc s n = spOpenDrain then (if getB s (K.spOut n) then none else some false)
  else if pinFunc s n = spPwm then
    let (f, d) := pwmNow s n
    some (decide ((s.now - max q.periodAt (if s.now < q.newFrom then 0 else q.newFrom)) % pwmPeriod f * 1000 < d * pwmPeriod f))
  else none

/-- The checks of a write to a side pin's record (R501): sp00 to sp07 drive as open drain only. -/
def pinCheck (n sub v : Nat) : Status :=
  if n < 8 ∧ ((sub = 1 ∧ (v = spOutput ∨ v = spPwm)) ∨ (sub = 12 ∧ v = 1)) then .range else .ok

/-- Who may write a side pin's record (R500): the trusted world any pin's, the manager an open pin's. -/
def pinAccess (s : State) (c : WCtx) (n : Nat) : Bool := c.role == .tw || (c.role == .mgr && !pinTrusted s n)

/-- A write to a side pin's record (R504). -/
def pinApply (s : State) (n sub v : Nat) : State :=
  if sub = 1 then
    let was := pinFunc s n
    let s := writeN s (K.spFunc n) v
    if was = v then s
    else if v = spCountFn then putN s (K.spCount n) 0
    else if v = spStampFn then putN s (K.spStamp n) 0
    else if v = spPwm then modPin s n (fun q => { q with newFrom := 0, periodAt := s.now })
    else s
  else if sub = 6 then writeN (pwmHold s n) (K.spPwmFreq n) v
  else if sub = 7 then writeN (pwmHold s n) (K.spPwmDuty n) v
  else writeN s (objKey (0x8400 + n) sub) v

/-- Whether the receiver of the side pins' crossing, island 4 in PD02, runs (R460, R462). -/
def island4Runs (s : State) : Bool := domSt s 2 == domOn || domSt s 2 == domTesting || domSt s 2 == domStopping

/-- Island 4 takes a pin's events: the count of edges, the stamp of the last, and an OVERFLOW is counted (R467, R468). -/
def takePinEvents (s : State) (n : Nat) : State :=
  let q := pinOf s n
  let s := modPin s n (fun q => { q with events := 0, overflow := false, lost := 0 })
  let s := if q.events = 0 then s
    else if pinFunc s n = spCountFn then putN s (K.spCount n) ((getN s (K.spCount n) + q.events) % 2 ^ 32)
    else putN s (K.spStamp n) s.now
  if q.overflow then putN (bumpBy s K.clkOvf q.lost) K.clkOvfLast (1 + 2 ^ 8 * n + 2 ^ 16 * q.lost) else s

/-- An edge enters its crossing: up to 255 wait, a further one is lost and sets OVERFLOW (R467); a running receiver takes them
at once. -/
def pinEvent (s : State) (n : Nat) : State :=
  let s := modPin s n (fun q => if q.events < 255 then { q with events := q.events + 1 }
    else { q with overflow := true, lost := satInc 16 q.lost })
  if island4Runs s then takePinEvents s n else s

/-- A filtered edge of a pin (R505): the level, and in COUNT or STAMP an event if sp.edge names it, where the pin's record applies (log
305). -/
def pinEdge (s : State) (n : Nat) (level : Bool) : State :=
  if getB s (K.spIn n) = level then s
  else
    let s := putB s (K.spIn n) level
    let e := getN s (K.spEdge n)
    if (pinOf s n).stage = 2 ∧ (pinFunc s n = spCountFn ∨ pinFunc s n = spStampFn) ∧ (e = 3 ∨ (e = 1 ∧ level) ∨ (e = 2 ∧ ¬ level))
    then pinEvent s n else s

/-- Whether a level of a pin is a wake (R445, R501): a rising edge on a listed pin, except OPEN_DRAIN while sp.out is false. -/
def pinWakes (s : State) (n : Nat) (level : Bool) : Bool :=
  level && !getB s (K.spIn n) && decide (n < 8) && wakePin s n && !(pinFunc s n == spOpenDrain && !getB s (K.spOut n))

/-- A crossing at the power-up of its receiver starts idle: what waited is discarded (R469). -/
def clearPinCrossings (s : State) : State :=
  { s with pins := s.pins.map (fun e => (e.1, { e.2 with events := 0, overflow := false, lost := 0 })) }

/-- The pins of a list take a stage. -/
def setPinStage (s : State) (ns : List Nat) (stage : Nat) : State :=
  foldN ns (fun s n => modPin s n (fun q => { q with stage := stage })) s

/-- The records of a list of pins are applied at a start: sp.out and sp.pwm.duty take their boot values (R502, Table MC-8). -/
def applyPinRecords (s : State) (ns : List Nat) : State :=
  foldN ns (fun s n =>
    let s := putV (putV s (K.spOut n) (getV s (K.spBootOut n))) (K.spPwmDuty n) (getV s (K.spPwmBoot n))
    modPin s n (fun q => { q with stage := 2, newFrom := 0, periodAt := s.now })) s

/-- Entry to STANDBY: every pin takes its sp.safe, except a wake pin, which stays an input (R503). -/
def pinsToStandby (s : State) : State :=
  foldN (List.range 96) (fun s n => modPin s n (fun q => { q with stage := if n < 8 && wakePin s n then 3 else 1 })) s

/-- A pin given to the open world is scrubbed: input, high impedance, latches and edge counters zero (R314). -/
def scrubPin (s : State) (n : Nat) : State :=
  let s := writeN (writeB s (K.spOut n) false) (K.spFunc n) spInput
  modPin (putN (putB s (K.spIn n) false) (K.spCount n) 0) n (fun q => { q with events := 0, overflow := false, lost := 0 })

/-- The assignment of a pin changes (R311, R314). -/
def pinTApply (s : State) (n : Nat) (trusted : Bool) : State :=
  let was := pinTrusted s n
  let s := putN (writeB s (K.pinT n) trusted) (K.worldPinT n) (b2n trusted)
  if was && !trusted then scrubPin s n else s

end Sys2Proof.Machine
end

