-- ==== Sys2Proof/Machine/Worlds.lean ====
section
/-!
DEFINITION. The trusted and the open world: trusted targets (R308 to R310), pin and DMA assignments (R311 to R314), the call gate
(R315, R316), claims (R317 to R320), the watchdog and lone restarts (R324 to R327), measurement and attestation (R328 to R331).
-/

namespace Sys2Proof.Machine

/-- kaolin.tw codes (Table KA-5). -/
def twRun : Nat := 0
def twRestarting : Nat := 1
def twDown : Nat := 2
def twOff : Nat := 3

/-- The state of the trusted world. -/
def twSt (s : State) : Nat := getN s K.kaolinTw

/-- Changes the trusted world's record. -/
def modWorld (s : State) (g : World → World) : State := { s with world := g s.world }

/-! ## Trusted targets (R310) -/

/-- The initiator code of world.viol.last (Table WO-9). -/
def initiatorCode : Initiator → Nat
  | .cluster => 1 | .h0 => 2 | .h1 => 3 | .fabric => 4 | .dma n => 0x10 + n.val | .engines => 0x30 | .responder => 0x31

/-- Whether an initiator's transactions carry T = 1: a DMA channel assigned to the trusted world (R308, R309, R313). -/
def carriesT (s : State) : Initiator → Bool
  | .dma n => getN s (K.worldDmaT n) == 1
  | _ => false

/-- A refused access to a trusted target: a read is answered with zeros; it is counted, recorded and interrupts the Ehrica controller; T_VIOLATION is raised at
most once per second (R310). -/
def violation (s : State) (who target : Nat) (write : Bool) (len : Nat) : State :=
  let s := if write then s else modWorld s (fun w => { w with zeroRead := List.replicate len 0 })
  let s := interruptTw (putN (bump s K.worldViol) K.worldViolLast (who + 2 ^ 8 * target + 2 ^ 16 * b2n write)) intViol
  if (match s.world.violAt with | none => true | some t => decide (t + 1000000000 ≤ s.now)) then
    emit (modWorld s (fun w => { w with violAt := some s.now })) 12 0x0C13 0 (leBytes 1 who ++ leBytes 1 target ++ leBytes 1 (b2n write)) []
  else s

/-- TRUSTED_TARGET_ACCESS: a trusted target of Table WO-2 is accessed; with T = 0 the write is discarded or the read returns
zeros (R310). -/
def execTrustedTargetAccess (who : Initiator) (target : BitVec 8) (write : Bool) (len : Fin 65) (s : State) : Host.Outcome State Fault Refusal :=
  if target = 0 ∨ 10 < target.toNat ∨ carriesT s who then .next s
  else .next (violation s (initiatorCode who) target.toNat write len)

/-! ## DMA channels (R313, R314) -/

/-- The record of a DMA channel. -/
def dmaOf (s : State) (n : Nat) : DmaChan := tget s.world.dma n {}

/-- A write of dma.t for a channel that is transferring is refused (R314). -/
def dmaTCheck (s : State) (n : Nat) : Status := if (dmaOf s n).busy then .busy else .ok

/-- The assignment of a DMA channel changes; given to the open world, its registers and FIFO are zeroed (R314). -/
def dmaTApply (s : State) (n : Nat) (trusted : Bool) : State :=
  let was := getN s (K.worldDmaT n) == 1
  let s := putN (writeB s (K.dmaT n) trusted) (K.worldDmaT n) (b2n trusted)
  if was && !trusted then modWorld s (fun w => { w with dma := tset w.dma n {} }) else s

/-! ## Claims (R317, R320, R322) -/

/-- A write of false to the entry of PD01 is refused (R317). -/
def claimHoldCheck (d v : Nat) : Status := if d = 1 ∧ v = 0 then .range else .ok

/-- The trusted world sets, clears or acknowledges a claim: a write to a CUT entry takes it back to CLAIMED or releases it (R322);
a release itself changes no power, and the domain then follows its conditions (R320). -/
def claimHoldApply (s : State) (d : Nat) (v : Bool) : State :=
  let s := writeB s (K.claimHold d) v
  let s := { s with power := { s.power with cut := s.power.cut.filter (· ≠ d) } }
  settle (if domSt s d = domCut ∧ !emergencyMask s d then putN s (K.domState d) domOff else s)

/-! ## Measurement (R328 to R330) -/

/-- An entry of the attestation log (Table WO-8a); a full log takes none (R330). -/
def attEntry (s : State) (slot event comp : Nat) (item : List Byte) : State :=
  if 1024 ≤ s.world.log.length then s
  else
    let e := leBytes 8 s.now ++ leBytes 4 (s.world.count + 1) ++ leBytes 1 slot ++ leBytes 1 event ++ leBytes 2 comp
      ++ leBytes 4 (Config.componentVersion comp).toNat ++ leBytes 4 item.length ++ leBytes 8 0
      ++ leBytes 48 (Config.sha384 item).toNat
    modWorld (modGrog s (fun g => g.countRow (Config.mramRow (2 ^ 26 + s.world.log.length)).toNat 1))
      (fun w => { w with log := w.log ++ [e], count := w.count + 1 })

/-- Extends a slot with the digest of an item, with its log entry (R328, R330). -/
def extendSlot (s : State) (slot event comp : Nat) (item : List Byte) : State :=
  let d := leBytes 48 (Config.sha384 item).toNat
  let s := modWorld s (fun w => { w with slots := modAt w.slots slot (fun x => leBytes 48 (Config.sha384 (x ++ d)).toNat) })
  attEntry s slot event comp item

/-- A failed image check is logged with event 3 and extends no slot (R327, R330). -/
def imageCheckFailed (s : State) : State :=
  attEntry s (if s.world.cold then 1 else 7) 3 2 (Config.component 2)

/-- The quote of Table WO-8 for a nonce (R331). -/
def quoteBytes (s : State) (nonce : List Byte) : List Byte :=
  let body := asciiBytes "ZMAQ" ++ leBytes 2 1 ++ leBytes 2 (b2n (decide (1024 ≤ s.world.log.length)) + 2 * b2n s.world.lone)
    ++ leBytes 8 Config.serial.toNat ++ leBytes 8 s.now ++ leBytes 4 s.world.count ++ leBytes 4 (getN s K.worldRestarts)
    ++ nonce ++ s.world.slots.flatten
  body ++ (leBytes 96 (Config.signature body).toNat).reverse

/-- A nonce is stored for a session and signing begins (R331). -/
def nonceApply (s : State) (i : Nat) (nonce : List Byte) : State :=
  modSess s i (fun x => { x with nonce := some nonce, quote := [], signing := true })

/-- QUOTE_SIGNED: signing ends, and att.quote returns the quote for the session's nonce (R331). The trusted world signs while it
runs. -/
def execQuoteSigned (session : BitVec 16) (s : State) : Host.Outcome State Fault Refusal :=
  match slotOfId s session.toNat with
  | none => .next s
  | some i =>
    match (sessOf s i).nonce with
    | some nonce =>
      if (sessOf s i).signing && twSt s == twRun then
        .next (modSess s i (fun x => { x with signing := false, quote := quoteBytes s nonce }))
      else .next s
    | none => .next s

/-! ## The call gate (R315, R316) -/

/-- The scrub of R316: GATE_ARG words from NRES upwards, and GATE_BUF from GATE_BUFLEN to its end, are zero. -/
def scrubGate (w : World) : World :=
  { w with args := (List.range 8).map (fun i => if i < w.nres then w.args.getD i 0 else 0)
           buf := memZero w.buf w.bufLen (4096 - w.bufLen) }

/-- A call ends with a result and no result words. -/
def gateEnd (s : State) (result : Nat) : State :=
  modWorld s (fun w => scrubGate { w with busy := false, done := true, result := result, nres := 0 })

/-- A call in progress ends with a result. -/
def gateAbort (s : State) (result : Nat) : State := if s.world.busy then gateEnd s result else s

/-- The management cluster writes a call's input and then GATE_SVC; while BUSY is set the write of GATE_SVC is ignored (R315). A
call that meets a restart or a trusted world that is DOWN ends with that result (R326), one that names no service with
BADSVC. -/
def gateCall (s : State) (svc : Nat) (input : World → World) : State :=
  let s := modWorld s input
  if s.world.busy then s
  else
    let s := modWorld s (fun w => { w with svc := svc, busy := true, done := false })
    if twSt s = twRestarting then gateEnd s 2
    else if twSt s = twDown then gateEnd s 4
    else if svc = 0 ∨ 3 < svc then gateEnd s 1
    else interruptTw s intGate

/-- A word of the gate as the management cluster reads it (Table WO-3); GATE_SVC is write-only, and reserved bits read 0. -/
def readGate (s : State) (off : Nat) : Nat :=
  let w := s.world
  if off = 0x004 then b2n w.busy + 2 * b2n w.done + 16 * w.result + 256 * w.nres
  else if 0x008 ≤ off ∧ off < 0x028 then w.args.getD ((off - 0x008) / 4) 0
  else if off = 0x028 then w.bufLen
  else if 0x1000 ≤ off ∧ off < 0x2000 then ofLe (memGetAll w.buf (off - 0x1000) 4)
  else 0

/-- Bytes written to GATE_BUF from its start, with GATE_BUFLEN. -/
def putBuf (b : List Byte) (w : World) : World :=
  { w with buf := memSetAll w.buf 0 (b.take 4096), bufLen := min b.length 4096 }

/-- GATE_QUOTE: service 0x0001 with a nonce in GATE_BUF. -/
def execGateQuote (nonce : List Byte) (s : State) : Host.Outcome State Fault Refusal := .next (gateCall s 1 (putBuf nonce))

/-- GATE_RANDOM: service 0x0002 with a byte count in GATE_ARG0. -/
def execGateRandom (count : BitVec 32) (s : State) : Host.Outcome State Fault Refusal :=
  .next (gateCall s 2 (fun w => { w with args := w.args.set 0 count.toNat }))

/-- GATE_RELEASE_ASK: service 0x0003 with a power domain number in GATE_ARG0. -/
def execGateReleaseAsk (domain : BitVec 32) (s : State) : Host.Outcome State Fault Refusal :=
  .next (gateCall s 3 (fun w => { w with args := w.args.set 0 domain.toNat }))

/-- GATE_BADSVC: a GATE_SVC write that names no service (R315). -/
def execGateBadsvc (svc : BitVec 16) (s : State) : Host.Outcome State Fault Refusal :=
  if 1 ≤ svc.toNat ∧ svc.toNat ≤ 3 then .next s else .next (gateCall s svc.toNat id)

/-- What the trusted world leaves in GATE_BUF of a call that it releases with a result, and the count of free values drawn: a QUOTE
that is OK answers the quote for the nonce in GATE_BUF, a RANDOM that is OK the bytes asked for, any other what it wrote (R315). -/
def gateAnswer (s : State) (result : Nat) (written : List Byte) : Nat × World :=
  let n := min (s.world.args.getD 0 0) 4096
  if result = 0 ∧ s.world.svc = 1 then (s.fresh, putBuf (quoteBytes s (memGetAll s.world.buf 0 32)) s.world)
  else if result = 0 ∧ s.world.svc = 2 then
    (s.fresh + n, putBuf ((List.range n).map (fun i => (Config.random (s.fresh + i)).setWidth 8)) s.world)
  else (s.fresh, putBuf written s.world)

/-- GATE_RELEASE: the trusted world releases the call with its result and its result words, and the gate is scrubbed (R316). -/
def execGateRelease (result nres : BitVec 4) (args : List (BitVec 32)) (bufLen : BitVec 13) (buf : List Byte) (s : State) :
    Host.Outcome State Fault Refusal :=
  if !s.world.busy || twSt s != twRun then .next s
  else
    let a := gateAnswer s result.toNat (buf.take bufLen.toNat)
    let words := (List.range 8).map (fun i => (args.getD i 0).toNat)
    .next { s with fresh := a.1
                   world := scrubGate { a.2 with busy := false, done := true, result := result.toNat, nres := min nres.toNat 8
                                                 args := words } }

/-! ## Watchdog and restarts (R324 to R327) -/

/-- Ehrica SRAM, the key store and the bridge buffers are zeroed (R325). -/
def zeroTrusted (s : State) : State := modWorld s (fun w => { w with esram := [], keys := false })

/-- The trusted world goes DOWN (R327, R323): a gate call ends with DOWN; TW_DOWN. A Kaolin load under way is owed until it runs again
(R167). -/
def goDown (s : State) (cause : Nat) : State :=
  let s := { s with power := { s.power with loading := false, loadDue := s.power.loadDue || s.power.loading } }
  settle (updateHealth (emitSb (gateAbort (putN s K.kaolinTw twDown) 4) 12 0x0C12 0 (leBytes 1 cause) []))

/-- A lone restart falls due (R325, R327): the fifth within 60 s does not begin, and the trusted world goes DOWN. -/
def loneRestart (s : State) (cause : Nat) : State :=
  let recent := s.world.starts.filter (fun t => s.now < t + 60000000000)
  if 4 ≤ recent.length then goDown (zeroTrusted s) 3
  else
    let s := putN (putN (bump s K.worldRestarts) K.worldRestartLast s.now) K.worldRestartCause cause
    let s := modWorld (putN s K.kaolinTw twRestarting) (fun w => { w with starts := recent ++ [s.now], lone := true, cold := false })
    let s := emitSb s 12 0x0C10 0 (leBytes 1 cause ++ leBytes 4 (getN s K.worldRestarts)) []
    zeroTrusted (gateAbort s 2)

/-- Whether the trusted firmware runs. -/
def firmwareRuns (s : State) : Bool := twSt s == twRun && domSt s 1 == domOn

/-- WATCHDOG_KICK: the right one of 0x5A and 0xA5 alternately starts the period afresh; a wrong value restarts (R324). -/
def execWatchdogKick (value : BitVec 8) (s : State) : Host.Outcome State Fault Refusal :=
  if !firmwareRuns s then .next s
  else if value.toNat = s.world.nextKick then
    .next (modWorld s (fun w => { w with kickAt := s.now, nextKick := if w.nextKick = 0x5A then 0xA5 else 0x5A }))
  else .next (loneRestart s 1)

/-- WATCHDOG_EXPIRY: no kick for 50 ms (R324). -/
def execWatchdogExpiry (s : State) : Host.Outcome State Fault Refusal :=
  if firmwareRuns s && decide (s.world.kickAt + 50000000 ≤ s.now) then .next (loneRestart s 1) else .next s

/-- LOCKSTEP_FAULT: the outputs of the two cores differ (R306, R324). -/
def execLockstepFault (s : State) : Host.Outcome State Fault Refusal :=
  if firmwareRuns s then .next (loneRestart s 2) else .next s

/-- TW_RESTART_REQUEST: the firmware restarts itself (R324). -/
def execTwRestartRequest (s : State) : Host.Outcome State Fault Refusal :=
  if firmwareRuns s then .next (loneRestart s 3) else .next s

/-- The stored pin and DMA assignments are applied at a start (R311), trusted pins taking their records if the firmware runs,
and their sp.safe if not (R502, R327). -/
def applyAssignments (s : State) (runs : Bool) : State :=
  let stored := fun k => ((copiesOf s k).newest.getD (defaultVal k)).toNat
  let s := foldN (List.range 96) (fun s n => putN s (K.worldPinT n) (stored (K.pinT n))) s
  let s := foldN (List.range 32) (fun s n => putN s (K.worldDmaT n) (stored (K.dmaT n))) s
  if runs then
    let pins := numbers 96 (pinTrusted s)
    applyPinRecords (loadStored s (fun k a => a == .rws && pins.any (fun n => k / 256 == 0x8400 + n))) pins
  else s

/-- The Kaolin load (R167): while the trusted world runs and PD11 is on, the stored objects become the shadow sets, the boot
images are loaded and the commit bits set. -/
def tryKaolinLoad (s : State) : State :=
  if s.power.loading && twSt s == twRun && domSt s 11 == domOn then
    let s := restoreStored s (fun k a => a == .rwt && decide (0x7400 ≤ k / 256 ∧ k / 256 ≤ 0x7600))
    let s := kaolinLoad s
    settle { s with power := { s.power with loading := false, noLoad := false, loadDue := false
                                            step := if pwrMode s = 0 ∧ s.power.step = 4 then 5 else s.power.step } }
  else s

/-- The trusted firmware runs: the watchdog's period begins, and the claim table is read, CUT entries included (R324, R325). -/
def firmwareStarts (s : State) : State :=
  let s := modWorld (putN s K.kaolinTw twRun) (fun w => { w with kickAt := s.now, nextKick := 0x5A, keys := true })
  if s.power.cut.isEmpty then s else interruptTw s intClaim

/-- Steps 3 and 4 of Table PW-4: slots 0 and 1; assignments, RWT objects, slot 5; the Kaolin load begins; slot 2; PD02 is
released. -/
def coldRuns (s : State) : State :=
  let s := firmwareStarts (extendSlot s 1 1 2 (Config.component 2))
  let s := applyAssignments s true
  let s := loadStored s (fun _ a => a == .rwt)
  let s := modWorld s (fun w => { w with rwt := true, cold := false })
  let s := extendSlot s 5 1 0x30 (trustedConfig s)
  let s := extendSlot s 2 1 3 (Config.component 3)
  tryKaolinLoad (settle { s with power := { s.power with loading := true, step := if s.power.step < 4 then 4 else s.power.step } })

/-- The trusted world goes DOWN at a cold start: the power supervisor applies the assignments and releases PD02 (R327). -/
def coldDown (s : State) (cause : Nat) : State :=
  let s := applyAssignments (goDown (modWorld s (fun w => { w with cold := false })) cause) false
  settle { s with power := { s.power with loading := false, step := if s.power.step < 4 then 4 else s.power.step } }

/-- Steps 6 to 8 of R325; a Kaolin load owed to a power-up of PD11 follows (R167). -/
def loneRuns (s : State) : State :=
  let s := extendSlot s 7 2 2 (Config.component 2)
  let s := foldN (List.range 8) (fun s p =>
    modPort (shadowFrom s p (portOf s p).kactive) p (fun q => { q with kpend := false, klatched := false, klate := 0, kafter := false })) s
  let s := firmwareStarts s
  let us := (s.now - getN s K.worldRestartLast) / 1000
  let s := emitSb (putN s K.worldRestartUs (min us (2 ^ 32 - 1))) 12 0x0C11 0 (leBytes 4 us) []
  let s := updateHealth s
  tryKaolinLoad (if s.power.loadDue then { s with power := { s.power with loading := true } } else s)

/-- The self-test, the key derivation and the image check of a start or a lone restart end (R325, R327). -/
def twRestartDone (outcome : BootOutcome) (s : State) : State :=
  if twSt s ≠ twRestarting ∨ domSt s 1 ≠ domOn then s
  else
    let cold := s.world.cold
    let rom := fun s => if cold then extendSlot s 0 1 1 (Config.component 1) else s
    let failed := fun s cause => if cold then coldDown s cause else goDown s cause
    match outcome with
    | .runs retried =>
      let s := rom s
      let s := if retried then imageCheckFailed s else s
      if cold then coldRuns s else loneRuns s
    | .selfTestFailed => failed s 1
    | .imageFailed => failed (imageCheckFailed (imageCheckFailed (rom s))) 2

end Sys2Proof.Machine
end

