-- ==== Sys2Proof/Machine/Power.lean ====
section
/-!
DEFINITION. The power supervisor: starts (R447 to R453), domains going on and off (R434 to R440), module modes (R441 to R446), heat
and supply (R454 to R458), and the meanings of their commands.
-/

namespace Sys2Proof.Machine

/-- Changes the power supervisor's record. -/
def modPower (s : State) (g : Power → Power) : State := { s with power := g s.power }

/-- Whether the module is in a mode. -/
def inMode (s : State) (m : Nat) : Bool := pwrMode s == m

/-! ## Functions and the domains they need (R437, R440) -/

/-- Whether a function that needs these domains may start: none is shutting down or kept off by an emergency, and each that is
claimed is on or coming on. -/
def mayStart (s : State) (ds : List Nat) : Bool :=
  decide (pwrMode s ≤ 1) && ds.all (fun d => domSt s d != domStopping && !emergencyMask s d
    && (!isClaimed s d || domSt s d == domRamping || domSt s d == domTesting || domSt s d == domOn))

/-- Whether an enable is in force and waits for no shut-down. -/
def enabled (s : State) (k : Nat) : Bool := getB s k && !s.transit.contains k

/-- Functions that are enabled and off start again once their domains allow it: a claimed domain was let go, or was cut, and is
back (R437, R440, R458). -/
def resume (s : State) : State :=
  let s := foldN (List.range 8) (fun s p => if mayStart s (outDomains s p) then restartOutput s p else s) s
  let s := if enabled s K.hapEnable && getN s K.hapState == hapOff && mayStart s [21] then startHaptics s else s
  let s := foldN (List.range 4) (fun s p =>
    if enabled s (K.panelEnable p) && panSt s p == panOff && mayStart s ((panelChips s p).map chipDomain) then startPanel s p else s) s
  let s := if enabled s K.sndEnable && sndSt s == sndOff && mayStart s [22] then startSound s else s
  foldN (List.range 8) (fun s i =>
    if enabled s (K.spreadEnable i) && getN s (K.spreadState i) == sprOff && mayStart s [11] then startSpread s i else s) s

/-- Functions in a domain that reads STOPPING finish their own shut-downs; their enables stay true (R437, R440). -/
def shed (s : State) : State :=
  let stops := fun s ds => (ds : List Nat).any (fun d => domSt s d == domStopping)
  let s := foldN (List.range 8) (fun s p =>
    if stops s (startDomains p (((portOf s p).engine).getD p)) then shedOutput s p else s) s
  let s := if stops s [21] && (getN s K.hapState == hapReady || getN s K.hapState == hapStarting) then shutHaptics s else s
  let s := foldN (List.range 4) (fun s p =>
    if stops s ((panelChips s p).map chipDomain) && panSt s p != panOff && panSt s p != panStopping then shutPanel s p else s) s
  let s := if stops s [22] && (sndSt s == sndRun || sndSt s == sndStarting) then shutSound s else s
  foldN (List.range 8) (fun s i =>
    if stops s [11] && getN s (K.spreadState i) != sprOff && getN s (K.spreadState i) != sprStopping then shutSpread s i else s) s

/-- Domains follow their conditions, and functions the domains. -/
def powerSettle (s : State) : State := shed (resume (settle s))

/-! ## Loss of a domain (R455 to R457) -/

/-- The ports that use a domain. -/
def portsOn (s : State) (d : Nat) : List Nat :=
  numbers 8 (fun p => outSt s p != outOff && (d == 11 || phyDomain p == d || (portOf s p).engine.map engineDomain == some d))

/-- Work on cores of a slice, or all of it, is lost: its passes end FAULT with cause CORE while the host ports run (R457). -/
def loseWork (s : State) (cores : List Nat) (all : Bool) : State :=
  let hit := fun (c : Nat) (p : Pass) => all || cores.any (fun k => match (coreOf s k).work with
    | some (.unit c' id _ _) => c' == c && id == p.id
    | _ => false)
  let victims := s.ctxs.flatMap (fun e => (e.2.passes.filter (hit e.1)).map (fun p => (e.1, p)))
  let s := victims.foldl (fun s e => if s.power.avail then killPass s e.1 e.2 6 else removePass s e.1 e.2.id) s
  foldN cores loseUnit s

/-- The Kaolin plane ends on every port: the gap, the active sets and Kaolin SRAM; after this no load sets the commit bits
(R166). -/
def loseKaolin (s : State) : State :=
  let s := foldN (List.range 8) (fun s p =>
    let on := kaolinOn s p
    let s := if on then gapBegin s p 3 else s
    modPort s p (fun q => { q with kactive := {}, kpend := false, klatched := false, kafter := false, sigBad := []
                                   cutGap := q.cutGap || on })) s
  modPower { s with kram := [], kold := [] } (fun x => { x with noLoad := true, loadDue := false })

/-- What a memory group loses with its power: training and content. -/
def loseGroup (s : State) (g : Nat) : State := zeroRank (zeroRank (putN s (K.grpState g) 0) (2 * g)) (2 * g + 1)

/-- The sensors on dies that a domain powers: TC0 to TC3 and the ZH-17, by therm.temp number from 0 (Table PW-7). -/
def domainSensors (d : Nat) : List Nat := if d = 19 then [4, 5] else if d = 20 then [6, 7] else if d = 21 then [8] else []

/-- The reading of a sensor whose die is unpowered: the least I32 value (R454). -/
def noReading : Nat := 2 ^ 31

/-- A domain's content and work are lost at a cut (R457). -/
def loseDomain (s : State) (d : Nat) : State :=
  let s := foldN (domainSensors d) (fun s j => putN s (K.thermTemp j) noReading) s
  if d = 1 then
    let s := zeroTrusted s
    if s.world.cold then coldDown s 4 else goDown s 4
  else if d = 2 then
    modPower (closeWhere { s with served := false } (fun x => x.role != .sb)) (fun x => { x with pd02Cut := true })
  else if d = 3 then modPower s (fun x => { x with avail := false })
  else if d = 5 then foldN (List.range 4) linkQueued (fabricCut s)
  else if 6 ≤ d ∧ d ≤ 9 then loseWork s ((List.range 9).map (fun i => (d - 6) * 9 + i)) false
  else if d = 10 then loseWork s [] true
  else if 11 ≤ d ∧ d ≤ 15 then
    let s := if d = 11 then loseKaolin s else s
    let s := if d = 11 then
        foldN (List.range 8) (fun s i => if getN s (K.spreadState i) = sprOff then s else spreadQueued (spreadOffDone s i) i) s
      else s
    foldN (portsOn s d) (fun s p => modPort (outputOff s p) p (fun q => { q with shed := true })) s
  else if 16 ≤ d ∧ d ≤ 18 then restartMigration (loseGroup s (d - 16)) (d - 16)
  else if d = 19 ∨ d = 20 then
    foldN (List.range 4) (fun s p => if (panelChips s p).any (fun c => chipDomain c == d) then cutPanel s p else s) s
  else if d = 21 then cutHaptics s
  else if d = 22 then cutSound s
  else s

/-- A domain is cut: it reads CUT, its claim's entry too, and the trusted world is told (R321, R322). -/
def cutDomain (s : State) (d : Nat) : State :=
  if domSt s d = domCut then s
  else
    let up := isUp s d
    let held := d != 1 && claimHeld s d
    let s := modPower s (fun x => { x with ramp := x.ramp.erase d, notice := x.notice.filter (·.1 != d) })
    let s := putN s (K.domState d) domCut
    let s := if up then loseDomain s d else s
    if held then
      let s := modPower s (fun x => { x with cut := x.cut ++ [d] })
      if twSt s = twRun then interruptTw s intClaim else s
    else s

/-! ## Emergencies (Table PW-8) -/

/-- The domains that an emergency cuts: 1 THERMAL_1, 2 THERMAL_2, 3 SUPPLY_1, 4 SUPPLY_2. -/
def emergencyDomains (code : Nat) : List Nat :=
  if code = 2 ∨ code = 4 then (List.range 22).map (· + 2) else [5, 6, 7, 8, 9, 10, 21, 23]

/-- Domains are named to be cut: EMERGENCY_CUT, 1 ms of notice to each claimed one, the others cut at once (R321, R455, R456). -/
def cutMany (s : State) (ds : List Nat) (cause : Nat) : State :=
  let ds := ds.filter (fun d => domSt s d != domCut && !s.power.notice.any (·.1 == d))
  let claimed := ds.filter (isClaimed s)
  let free := ds.filter (fun d => !isClaimed s d)
  let s := emitSb s 10 0x0A11 0 (leBytes 4 (sumN 24 (fun d => if ds.contains d then 2 ^ d else 0)) ++ leBytes 1 cause) []
  let s := if claimed.isEmpty then s else interruptTw s intClaim
  let s := modPower s (fun x => { x with notice := x.notice ++ claimed.map (fun d => (d, s.now + 1000000)) })
  powerSettle (foldN free cutDomain s)

/-- therm.level as it reads: 3 while a thermal emergency is in force. -/
def levelNow (s : State) : Nat := if s.power.thermal = 0 then s.power.throttle else 3

/-- Shows therm.level; a change below EMERGENCY raises THERMAL_THROTTLE with the hottest sensor (R454, Table PW-9). -/
def showLevel (s : State) (sensor temp : Nat) : State :=
  let l := levelNow s
  if l = getN s K.thermLevel then s
  else
    let s := putN s K.thermLevel l
    if l < 3 then emitSb s 10 0x0A02 0 (leBytes 1 l ++ leBytes 1 sensor ++ leBytes 4 temp) [] else s

/-- An emergency is declared, unless it or a higher one of its kind is in force. -/
def declare (s : State) (code : Nat) : State :=
  let rank := if code ≤ 2 then code else code - 2
  if code ≤ 2 then
    if rank ≤ s.power.thermal then s
    else
      let s := modPower s (fun x => { x with thermalAt := if x.thermal = 0 then s.now else x.thermalAt, thermal := rank })
      cutMany (putN s K.pwrEmerg code) (emergencyDomains code) 1
  else if rank ≤ s.power.supply then s
  else
    let s := modPower s (fun x => { x with supplyAt := if x.supply = 0 then s.now else x.supplyAt, supply := rank })
    cutMany (putN s K.pwrEmerg code) (emergencyDomains code) 2

/-- The sensors as (number, °C), those of unpowered dies left out. -/
def readings (s : State) : List (Nat × Int) :=
  ((List.range 10).filter (fun j => getN s (K.thermTemp j) != noReading)).map (fun j => (j, signedOf 32 (getN s (K.thermTemp j))))

/-- The hottest sensor; the lowest-numbered among equals. -/
def hottest (s : State) : Option (Nat × Int) :=
  (readings s).foldl (fun b r => match b with
    | none => some r
    | some x => if x.2 < r.2 then some r else some x) none

/-- The thermal rules after a measurement (R454, R455): how long the sensors have been hot or cool, the emergencies, the first
step of throttling. -/
def thermalRules (s : State) : State :=
  match hottest s with
  | none => s
  | some (j, t) =>
    let thr := signedOf 32 (getN s K.thermThrottle)
    let s := modPower s (fun x => { x with
      critSince := if 120 ≤ t then (match x.critSince with | some c => some c | none => some s.now) else none
      coolSince := if t < thr - 10 then (match x.coolSince with | some c => some c | none => some s.now) else none })
    let long : Bool := match s.power.critSince with | some c => decide (c + 5000000000 ≤ s.now) | none => false
    let s := if 130 ≤ t ∨ long then declare s 2 else if 120 ≤ t then declare s 1 else s
    let s := if thr ≤ t ∧ s.power.throttle = 0 then
        bump (modPower s (fun x => { x with throttle := 1, hotSince := some s.now })) K.thermThrottles
      else s
    showLevel s j (toSigned 32 t)

/-- The 1 s steps of throttling: down while a sensor reads 5 °C above the threshold, up while all read 10 °C below (R454, R523). -/
def throttleStep (s : State) : State :=
  match hottest s with
  | none => s
  | some (j, t) =>
    let thr := signedOf 32 (getN s K.thermThrottle)
    let past : Option Nat → Bool := fun o => match o with | some x => decide (x + 1000000000 ≤ s.now) | none => false
    let due : Bool := past s.power.hotSince
    let s := if s.power.throttle = 1 ∧ thr + 5 ≤ t ∧ due then
        modPower s (fun x => { x with throttle := 2, hotSince := some s.now })
      else if s.power.throttle ≠ 0 ∧ past s.power.coolSince ∧ due then
        modPower s (fun x => { x with throttle := x.throttle - 1, hotSince := some s.now })
      else s
    showLevel (thermalRules s) j (toSigned 32 t)

/-- Supply emergencies whose 100 µs below a band have passed (Table PW-8). -/
def supplyRules (s : State) : State :=
  let past : Option Nat → Bool := fun o => match o with | some x => decide (x + 100000 ≤ s.now) | none => false
  let s := if past s.power.lowSince then declare s 3 else s
  if past s.power.low2Since then declare s 4 else s

/-! ## Starts (R447 to R453) -/

/-- Whether an object is served by the side-band responder itself (Table DI-3). -/
def responderServes (idx : Nat) : Bool :=
  (0x1000 ≤ idx && idx < 0x1200) || idx == 0x1220 || (0x7100 ≤ idx && idx < 0x7200) || (0x8000 ≤ idx && idx < 0x8100)
    || (0xA000 ≤ idx && idx < 0xA100)

/-- At a start the spares map is applied before any unit is admitted (R476, R270). -/
def applySpares (s : State) : State :=
  let s := foldN (List.range 36) (fun s k => let st := unitState s clsCore k
    putN s (K.coreState k) (if st = unitInService then 1 else if st = unitSpare then 0 else 3)) s
  let s := foldN (List.range 6) (fun s r => let st := unitState s clsRank r
    putN (putN s (K.rankState r) (if st = unitInService then rkService else if st = unitSpare then rkSpare
      else if st = unitRetired then rkRetired else rkFailed)) (K.rankUnit r) 0xFF) s
  let s := foldN (List.range 4) (fun s u => putN s (K.rankUnit (servedBy s clsRank u)) u) s
  let s := foldN (List.range 4) (fun s l =>
    match (List.range 4).find? (fun i => (tfind s.grog.place (unitKey clsLane (i + 256 * l))).isSome) with
    | some i => putN s (K.linkSpare l) i
    | none => s) s
  let s := foldN (List.range 4) (fun s c =>
    let s := putV s (K.chipMap c) (.bytes ((List.range 128).map (fun i => BitVec.ofNat 8 (servedBy s clsChannel (i + 256 * c)))))
    putN s (K.chipSpares c) ((freeSpares s clsChannel).filter (fun v => v / 256 == c)).length) s
  let s := foldN (List.range 16) (fun s n =>
    if (tfind s.grog.place (unitKey clsDriver n)).isSome then putN (putN s (K.chDriver n) 16) K.hapSpare n else s) s
  countCores s

/-- The state in which a start finds the module: objects that satisfy a condition keep their values, change counters are 0 (R20),
MRAM, the pins' levels and the side-band sessions stay, everything else is as at reset. -/
def freshState (s : State) (keep : Nat → Bool) : State :=
  let sb := s.sess.filter (fun e => e.2.isOpen && e.2.role == .sb)
  { pending := s.pending, now := s.now, fresh := s.fresh, mram := s.mram, defaultsDue := s.defaultsDue, host := s.host
    resp := s.resp, twResp := s.twResp, voteSecond := s.voteSecond, ehrica := s.ehrica
    objs := (s.objs.filter (fun e => keep e.1 || e.1 == K.hapIlk || e.1 == K.pwrIn)).map (fun e => (e.1, { e.2 with ctr := 0 }))
    sess := sb, freeSlots := (List.range 48).filter (fun i => !sb.any (·.1 == i)), can := s.can, frames := s.frames
    frameSent := s.frameSent, pins := s.pins, grog := s.grog, fab := { lastAddr := s.fab.lastAddr }
    ports := s.ports.map (fun e => (e.1, { hpd := e.2.hpd })), power := s.power }

/-- PD00 itself is off: what MRAM, the outside and the model's own fields hold is left. -/
def powerLost (s : State) : State :=
  { freshState s (fun _ => false) with
    sess := [], freeSlots := List.range 48, can := {}, frames := [], frameSent := none, pins := [], resp := none, twResp := none
    ehrica := []
    power := { seen := s.power.seen, lowSince := s.power.lowSince, low2Since := s.power.low2Since, okSince := s.power.okSince
               perst0 := s.power.perst0, perst1 := s.power.perst1, link0 := s.power.link0, link1 := s.power.link1 } }

/-- The objects whose values PD00 keeps through STANDBY and a reset: the module's mode, sensors, side pins, health. -/
def pd00Keeps (k : Nat) : Bool :=
  let i := k / 256
  k == K.pwrMode || k == K.pwrEmerg || i == 0x8200 || k == K.thermLevel || (0x8400 ≤ i && i < 0x8460) || i == 0xA001
    || k == K.healthModule || i == 0x7020 || i == 0x7040

/-- Sets pwr.mode; each change raises PWR_MODE (Table PW-9). -/
def setMode (s : State) (m : Nat) : State :=
  if pwrMode s = m then s
  else emitSb (putN s K.pwrMode m) 10 0x0A01 0 (leBytes 1 m ++ leBytes 1 (getN s K.pwrCause)) []

/-- Every start (R447): counted, factory defaults taken if asked for (R23), the spares map applied, the mode STARTING. -/
def moduleStart (s : State) (cause : Nat) : State :=
  let s := modGrog s (fun g => { g with starts := satInc 32 g.starts })
  let s := if s.defaultsDue then { s with defaultsDue := false, mram := s.mram.filter (fun e => accOf e.1 != some .rws) } else s
  let s := setMode (putN s K.pwrCause cause) 0
  updateHealth (applySpares s)

/-- The sensors of the ZD-86 and of the regulators are measured (R454); the values are free. -/
def measureFirst (s : State) (js : List Nat) : State :=
  foldN js (fun s j => putN (draw s) (K.thermTemp j) (Config.measured s.fresh).toNat) s

/-- The cold start (R448): causes 1 POWER_GOOD, 2 RESET, 3 WAKE. At step 1 the claim table and the responder's stored objects are
loaded and every pin takes its sp.safe; PD01 is powered. -/
def coldStart (s : State) (cause : Nat) : State :=
  let p := s.power
  let s := if cause = 1 then powerLost s else freshState s pd00Keeps
  let s := modPower s (fun _ =>
    { good := true, seen := p.seen, step := 3, start := s.now, perst0 := p.perst0, perst1 := p.perst1, link0 := p.link0
      link1 := p.link1, okSince := p.okSince
      lowSince := p.lowSince, low2Since := p.low2Since, throttle := if cause = 1 then 0 else p.throttle
      thermal := if cause = 1 then 0 else p.thermal, supply := if cause = 1 then 0 else p.supply, thermalAt := p.thermalAt
      supplyAt := p.supplyAt, hotSince := if cause = 1 then none else p.hotSince, coolSince := if cause = 1 then none else p.coolSince
      critSince := if cause = 1 then none else p.critSince, cut := if cause = 1 then [] else p.cut, pd01Cut := cause != 1 && p.pd01Cut })
  let s := moduleStart s cause
  let s := if cause = 1 then measureFirst s [0, 1, 2, 3, 9] else s
  let s := loadStored s (fun k a => (a == .rws && responderServes (k / 256)) || (a == .rwt && k / 256 == 0x7011))
  let s := loadStored s (fun k _ => (0x8400 ≤ k / 256 && k / 256 < 0x8460) && k % 256 == 12)
  settle (setPinStage s (List.range 96) 1)

/-- The objects whose values stay when the open world alone starts again after an emergency (R458): the worlds, Kaolin, power,
clocks' thermal detail, side pins, health, and every object of the trusted world. -/
def restartKeeps (k : Nat) : Bool :=
  let i := k / 256
  (0x7000 ≤ i && i < 0x8000) || (0x8000 ≤ i && i < 0x8100 && !(0x8010 ≤ i && k % 256 == 2)) || i == 0x8200 || i == 0x8201 || i == 0x1220
    || (0x8400 ≤ i && i < 0x8460) || i == 0xA001 || k == K.healthModule
    || (match accOf k with | some .rwt => true | some .rwtRun => true | _ => false)

/-- After a cut that included PD02 the open world starts again from step 6 with cause EMERGENCY; the trusted world keeps its
claims and measurements (R458). -/
def openRestart (s : State) : State :=
  let s0 := s
  let s := { freshState s restartKeeps with world := s.world, refuseLog := s.refuseLog, kram := s.kram, islTime := s.islTime }
  let s := { s with ports := s0.ports.map (fun e =>
    (e.1, { hpd := e.2.hpd, kactive := e.2.kactive, kpend := e.2.kpend, cutGap := e.2.cutGap })) }
  let s := modPower s (fun x => { x with step := 5, start := s.now, avail := false, pd02Cut := false, tests := [], ramp := [] })
  moduleStart (putN (putN s K.pwrTtFirst 0) K.pwrHostAvail 0) 4

/-- A boot enable is written as the manager would write it, if its checks pass (R451). -/
def bootOutput (s : State) (p : Nat) : State :=
  let m := getN s (K.outBootMode p)
  if !getB s (K.outBootEnable p) then s
  else
    let s := if outCheck s p 2 m = .ok then modeApply s p m else s
    if outCheck s p 1 1 = .ok ∧ !getB s (K.outEnable p) then enableOutput s p else s

/-- The boot enables in their order (R451). -/
def bootEnables (s : State) : State :=
  let s := foldN (List.range 8) bootOutput s
  let s := if getB s K.hapBootEnable && !getB s K.hapEnable then startHaptics s else s
  let s := foldN (List.range 4) (fun s p => if getB s (K.panelBootEnable p) && !getB s (K.panelEnable p) then startPanel s p else s) s
  if getB s K.sndBootEnable && !getB s K.sndEnable then startSound s else s

/-- Step 6 of Table PW-4: the management cluster loads the RWS objects that are not yet loaded and serves the dictionary, the open
pins take their records, the boot enables begin; the chiplets' and the ZH-17's firmware is measured. -/
def stepSix (s : State) : State :=
  let s := loadStored s (fun k a => a == .rws && !responderServes (k / 256)
    && !(0x8400 ≤ k / 256 && k / 256 < 0x8460 && pinTrusted s (k / 256 - 0x8400)))
  let s := if twSt s = twDown ∨ getN s K.pwrCause = 4 then s
    else extendSlot ([0x10, 0x11, 0x12, 0x13].foldl (fun s c => extendSlot s 3 1 c (Config.component c)) s) 4 1 0x20 (Config.component 0x20)
  let s := applyPinRecords s (numbers 96 (fun n => !pinTrusted s n))
  bootEnables (settle (modPower { s with served := true } (fun x => { x with step := 6 })))

/-- A start goes on to its next step as soon as that step's condition holds: 6 with PD02 on and the Kaolin load done, 10 after the
memory groups or at its latest time, 11 with the graphics domains on or at its latest time (Table PW-4). -/
def advanceStart (s : State) : State :=
  if !inMode s 0 || !s.power.good then s
  else
    let s := if (s.power.step = 4 ∨ s.power.step = 5) ∧ domSt s 2 = domOn ∧ !s.power.loading then stepSix s else s
    let s := if s.power.step = 6 ∧ s.power.start + 350000000 ≤ s.now then settle (modPower s (fun x => { x with step := 10 })) else s
    if s.power.step = 10 ∧ ([10, 6, 7, 8, 9].all (fun d => domSt s d == domOn || !wanted s d) ∨ s.power.start + 450000000 ≤ s.now) then
      settle (modPower s (fun x => { x with step := 11 }))
    else s

/-! ## Standby (R442 to R444) -/

/-- The shut-down to STANDBY begins: outputs and spreads first. Enables that were queued are dropped. -/
def enterStandby (s : State) : State :=
  let s := modPower (setMode { s with transit := [] } 2) (fun x => { x with down := 1, tests := [] })
  let s := foldN (List.range 8) (fun s p => if outSt s p != outOff && outSt s p != outStopping then stopOutput s p else s) s
  foldN (List.range 8) (fun s i =>
    if getN s (K.spreadState i) != sprOff && getN s (K.spreadState i) != sprStopping then shutSpread s i else s) s

/-- Whether domains are off. -/
def allOff (s : State) (ds : List Nat) : Bool := ds.all (fun d => !isUp s d)

/-- The next step of the shut-down, once the one before is over (R442). -/
def standbyNext (s : State) : State :=
  let k := s.power.down
  let go := fun (s : State) => modPower s (fun x => { x with down := k + 1 })
  if k = 1 then
    if (List.range 8).all (fun p => outSt s p == outOff) && (List.range 8).all (fun i => getN s (K.spreadState i) == sprOff) then
      let s := foldN (List.range 4) (fun s p => if panSt s p != panOff && panSt s p != panStopping then shutPanel s p else s) (go s)
      let s := if getN s K.hapState = hapReady ∨ getN s K.hapState = hapStarting then shutHaptics s else s
      endChime (if sndSt s = sndRun ∨ sndSt s = sndStarting then shutSound s else s)
    else s
  else if k = 2 then
    if (List.range 4).all (fun p => panSt s p == panOff) && getN s K.hapState == hapOff && sndSt s == sndOff then
      settle (modPower (go s) (fun x => { x with avail := false }))
    else s
  else if k = 3 then (if allOff s [3] then settle (go s) else s)
  else if k = 4 then
    if allOff s [5, 6, 7, 8, 9, 10, 11, 12, 13, 14, 15, 16, 17, 18, 19, 20, 21, 22, 23] then
      settle (closeWhere { go s with served := false } (fun x => x.role != .sb))
    else s
  else if k = 5 then (if allOff s [2, 4] then modPower (go s) (fun x => { x with standbyFrom := some (s.now + 50000000) }) else s)
  else s

/-- The shut-down goes on as far as it can. -/
def advanceStandby (s : State) : State :=
  if inMode s 2 then standbyNext (standbyNext (standbyNext (standbyNext (standbyNext s)))) else s

/-! ## Reset (R446) -/

/-- The cut of a reset: every domain but PD00 is off, and stays off for 10 ms. -/
def resetCut (s : State) : State :=
  match s.power.resetAt with
  | some t =>
    if t ≤ s.now then
      modPower (freshState s pd00Keeps) (fun x => { x with
        resetAt := none, resetOff := some (t + 10000000), ramp := [], step := 0, avail := false, notice := [], tests := [], loading := false
        down := 0, standbyFrom := none, wakeQueued := false })
    else s
  | none => s

/-- What time alone does in the power supervisor: the cut of a reset, supply emergencies, the steps of starts and shut-downs. -/
def powerTimers (s : State) : State :=
  if !s.power.good then s else advanceStandby (advanceStart (supplyRules (resetCut s)))

/-- The end of a power command: functions follow their domains, and starts and shut-downs go on. -/
def powerDone (s : State) : State := advanceStandby (advanceStart (powerSettle s))

/-! ## Requests -/

/-- The checks of a write to pwr.req (R442): RANGE and BUSY. -/
def pwrReqCheck (s : State) (v : Nat) : Status := if v = 3 ∧ inMode s 0 then .busy else .ok

/-- The claims that refuse a standby request: all but the hardware claim of PD01 (R442). -/
def pwrReqClaims (s : State) (v : Nat) : List Nat :=
  if v = 3 ∧ inMode s 1 then numbers 24 (fun d => d != 1 && isClaimed s d) else []

/-- STANDBY_ASK, with its interrupt (R442). -/
def standbyAsk (s : State) (role : Role) (ds : List Nat) : State :=
  emit (interruptTw s intStandby) 10 0x0A04 0 (leBytes 4 (sumN 24 (fun d => if ds.contains d then 2 ^ d else 0)) ++ leBytes 1 role.code) []

/-- The effect of an accepted write to pwr.req (R442, R444). A wake runs after the write is answered. -/
def pwrReqApply (s : State) (v : Nat) : State × Status :=
  if inMode s 2 then
    if v = 1 then (modPower (writeN s K.pwrReq 1) (fun x => { x with wakeQueued := true }), .intransit) else (s, .intransit)
  else
    let s := writeN s K.pwrReq v
    if v = 3 ∧ inMode s 1 then (powerDone (enterStandby s), .ok)
    else if v = 1 ∧ inMode s 3 then (coldStart s 3, .ok)
    else (s, .ok)

/-- The effect of an accepted write of 0xA1 to pwr.reset: the trusted world is told, the cut follows 1 ms later (R446). -/
def pwrResetApply (s : State) : State :=
  interruptTw (modPower s (fun x => { x with resetAt := match x.resetAt with | some t => some t | none => some (s.now + 1000000) })) intReset

/-- Whether a role may write pwr.reset (R446). -/
def mayReset (s : State) (r : Role) : Bool := r == .tw || bitOf (getN s K.pwrResetRoles) (r.code - 1)

/-- The range check of a write to dom.hold (R438). -/
def domHoldCheck (d : Nat) : Status := if d = 0 then .range else .ok

/-- The claims that refuse a write to dom.hold, whatever its value (R438). -/
def domHoldClaims (s : State) (d : Nat) : List Nat := if isClaimed s d then [d] else []

/-- The effect of an accepted write to dom.hold (R438, R439). -/
def domHoldApply (s : State) (d : Nat) (on : Bool) : State × Status :=
  let (s, st) := enableWrite s (K.domHold d) on (anyStopping s [d]) (fun s => settle (writeB s (K.domHold d) true))
    (fun s => settle (writeB s (K.domHold d) false))
  (powerDone s, st)

/-- The range check of a write to dom.tw: PD01 takes none (R317). -/
def domTwCheck (d : Nat) : Status := if d = 1 then .range else .ok

/-- The effect of the trusted world's write to dom.tw: of a claimed domain that is shutting down, a power-up is queued (R319, R440). -/
def domTwApply (s : State) (d : Nat) (on : Bool) : State × Status :=
  let k := K.domTw d
  if on ∧ isClaimed s d ∧ domSt s d = domStopping then
    (if s.transit.contains k then s else addTransit (writeB s k true) k, .intransit)
  else (powerDone (dropTransit (writeB s k on) k), .ok)

/-- The claim table's write, with what follows for the domains (R317, R320, R322). -/
def claimWrite (s : State) (d : Nat) (v : Bool) : State := powerDone (claimHoldApply s d v)

/-! ## Commands of domains -/

/-- POWER_GOOD: the input has lain within 9.0 to 16.0 V for 10 ms (R447). A host port whose PERST# contact is open behaves as if the host
deasserted it now; its link stays down (R494). No step of the start waits for warming (R524). -/
def execPowerGood (open0 open1 : Bool) (s : State) : Host.Outcome State Fault Refusal :=
  let ok := !s.power.seen || (match s.power.okSince with | some t => decide (t + 10000000 ≤ s.now) | none => false)
  let asIf := fun (o : Bool) (x : Option Nat) => if o then some s.now else x
  if s.power.good || !ok then .next s
  else .next (coldStart (modPower s (fun x => { x with perst0 := asIf open0 x.perst0, perst1 := asIf open1 x.perst1 })) 1)

/-- Whether a waiting domain may ramp now: everything it needs reads ON (R434). -/
def rampReady (s : State) (d : Nat) : Bool := allOn s (domNeeds d)

/-- DOMAIN_RAMP_START: the first waiting domain whose needs read ON ramps, four at most at one time (R434, R435). -/
def execDomainRampStart (domain : Fin 24) (s : State) : Host.Outcome State Fault Refusal :=
  let d := domain.val
  if (s.power.ramp.find? (rampReady s)) ≠ some d ∨ 4 ≤ countN 24 (fun e => domSt s e == domRamping) then .next s
  else
    let s := putN (modPower s (fun x => { x with ramp := x.ramp.erase d })) (K.domState d) domRamping
    .next (if s.transit.contains (K.domHold d) then resolved s d (0x8010 + d) 2 else s)

/-- The generations of a domain's units advance at its power-up (R436, R478). -/
def rebuildUnits (s : State) (d : Nat) : State :=
  let step := fun (s : State) (k : Nat) => putN s k ((getN s k + 1) % 65536)
  if 6 ≤ d ∧ d ≤ 9 then
    foldN ((List.range 9).map (fun i => (d - 6) * 9 + i)) (fun s k => if getN s (K.coreState k) = 1 then step s (K.coreGen k) else s) s
  else if d = 5 then foldN (List.range 4) (fun s l => step s (K.linkGen l)) s
  else if 16 ≤ d ∧ d ≤ 18 then
    foldN [2 * (d - 16), 2 * (d - 16) + 1] (fun s r => if rankServes s r then step s (K.rankGen r) else s) s
  else measureFirst s (domainSensors d)

/-- DOMAIN_RAMP_DONE: the domain reads TESTING under a new generation, its units are rebuilt (R436). -/
def execDomainRampDone (domain : Fin 24) (s : State) : Host.Outcome State Fault Refusal :=
  let d := domain.val
  if domSt s d ≠ domRamping then .next s
  else
    let s := putN s (K.domState d) domTesting
    let s := putN s (K.domGen d) ((getN s (K.domGen d) + 1) % 65536)
    .next (rebuildUnits (bump s (K.domUps d)) d)

/-- What starts when a domain reads ON. -/
def domainStarts (s : State) (d : Nat) : State :=
  if d = 1 then
    if twSt s = twDown then loneRestart s 4 else gateAbort (putN s K.kaolinTw twRestarting) 2
  else if d = 2 then clearPinCrossings (if inMode s 1 then { s with served := true } else s)
  else if d = 3 then (if inMode s 1 then modPower s (fun x => { x with avail := true }) else s)
  else if d = 5 then fabricOn s
  else if 11 ≤ d ∧ d ≤ 15 then
    let s := if d ≠ 11 then s
      else if twSt s = twDown then modPower s (fun x => { x with loadDue := true })
      else if s.world.rwt then tryKaolinLoad (modPower s (fun x => { x with loading := true }))
      else s
    let s := if d = 13 then modPower s (fun x => { x with tests := x.tests.erase 13 }) else s
    foldN (List.range 8) (fun s p => trySpare (tryStart s p) p) s
  else if 16 ≤ d ∧ d ≤ 18 then putN s (K.grpState (d - 16)) 1
  else if d = 22 then sndTryRun s
  else s

/-- The active cores of a shader slice whose self-test at its power-up has failed twice: each is replaced by a spare that passes its
own, or retired (R168, R471, Table GS-1). -/
def sliceTested (s : State) (d : Nat) (failed passing : Nat → Bool) : State :=
  if d < 6 ∨ 9 < d then s
  else
    foldN ((List.range 9).map (fun i => (d - 6) * 9 + i))
      (fun s k => if getN s (K.coreState k) = 1 ∧ failed k then coreLost s k 1 passing else s) s

/-- DOMAIN_ON: the self-tests of the domain's units are over; it reads ON, and functions that waited for it start (R436, R439). Of a
shader slice, `failed` names the cores that failed, and `sparePasses` the spares that pass (R471). The other units with a self-test
report it by commands of their own. -/
def execDomainOn (domain : Fin 24) (failed sparePasses : List (Fin 36)) (s : State) : Host.Outcome State Fault Refusal :=
  let d := domain.val
  if domSt s d ≠ domTesting then .next s
  else
    let s := sliceTested (putN s (K.domState d) domOn) d (fun k => failed.any (fun x => x.val == k))
      (fun k => sparePasses.any (fun x => x.val == k))
    .next (powerDone (domainStarts s d))

/-- Whether the functions in a stopping domain have finished their shut-downs, so that it may be switched off (R434, R437). -/
def mayGoOff (s : State) (d : Nat) : Bool :=
  allOff s (domDependents d) && (portsOn s d).isEmpty
    && (!(6 ≤ d && d ≤ 9) || (List.range 9).all (fun i => (coreOf s ((d - 6) * 9 + i)).work.isNone))
    && (d != 21 || getN s K.hapState == hapOff || getN s K.hapState == hapStarting)
    && (!(d == 19 || d == 20) || (List.range 4).all (fun p =>
      !(panelChips s p).any (fun c => chipDomain c == d) || panSt s p == panOff || panSt s p == panStarting))
    && (d != 11 || (List.range 8).all (fun i => getN s (K.spreadState i) == sprOff))

/-- What ends with a domain's power: the plain loss of content; enables queued behind it run. -/
def domainEnds (s : State) (d : Nat) : State :=
  let s := foldN (domainSensors d) (fun s j => putN s (K.thermTemp j) noReading) s
  let s := if d = 1 then zeroTrusted (putN s K.kaolinTw twOff)
    else if d = 2 then closeWhere { s with served := false } (fun x => x.role != .sb)
    else if d = 3 then modPower s (fun x => { x with avail := false })
    else if d = 5 then fabricCut s
    else if d = 11 then modPower { s with kram := [], kold := [] } (fun x => { x with loadDue := false })
    else if 16 ≤ d ∧ d ≤ 18 then restartMigration (loseGroup s (d - 16)) (d - 16)
    else s
  let s := foldN (List.range 8) (fun s p =>
    if outSt s p = outOff && s.transit.contains (K.outEnable p) && (outDomains s p).contains d then finishStop s p else s) s
  let s := if d = 21 then hapQueued s else s
  let s := if d = 19 ∨ d = 20 then foldN (List.range 4) panelQueued s else s
  let s := if d = 22 then sndQueued (sndStopCheck s) else s
  let s := if d = 5 then foldN (List.range 4) linkQueued s else s
  if d = 11 then foldN (List.range 8) spreadQueued s else s

/-- DOMAIN_OFF: a stopping domain whose functions are done is isolated and off; the trusted world's queued power-up runs (R319,
R437). -/
def execDomainOff (domain : Fin 24) (s : State) : Host.Outcome State Fault Refusal :=
  let d := domain.val
  if domSt s d ≠ domStopping then .next s
  else
    let s := shed s
    if !mayGoOff s d then .next s
    else .next (powerDone (domainEnds (dropTransit (putN s (K.domState d) domOff) (K.domTw d)) d))

/-! ## Commands of modes -/

/-- STANDBY_REACHED: 50 ms after the shut-down PD01 is off and the module reads STANDBY; a queued wake then runs (R442, R444). -/
def execStandbyReached (s : State) : Host.Outcome State Fault Refusal :=
  match s.power.standbyFrom with
  | some t =>
    if inMode s 2 && decide (t ≤ s.now) then
      let wake := s.power.wakeQueued
      let s := zeroTrusted (putN (putN s (K.domState 1) domOff) K.kaolinTw twOff)
      let s := setMode (pinsToStandby (modPower s (fun x => { x with standbyFrom := none, wakeQueued := false, down := 0, ramp := [] }))) 3
      .next (if wake then coldStart s 3 else s)
    else .next s
  | none => .next s

/-- RESET_HOLD_EXPIRY: after 10 ms off the cold start runs with cause RESET (R446). -/
def execResetHoldExpiry (s : State) : Host.Outcome State Fault Refusal :=
  let s1 := resetCut s
  match s1.power.resetOff with
  | some t => if t ≤ s.now then .next (coldStart s1 2) else .next s
  | none => .next s

/-- The width at which a host port trains: the widest of its own that the host and the wiring allow; 0 where they allow none
(R493). -/
def portWidth (h1 : Bool) (offered : Nat) : Nat := (if h1 then [4, 1] else [16, 8, 4, 1]).find? (· ≤ offered) |>.getD 0

/-- PERST_DEASSERT of a host (R450): the port trains with what the host and the wiring offer, in either lane order and pair polarity,
on the host's reference clock if it is there now (R493). -/
def execPerstDeassert (h1 : Bool) (offered : Fin 17) (reversed : Bool) (inverted : BitVec 16) (refclk : Bool) (s : State) :
    Host.Outcome State Fault Refusal :=
  let l : HostLink := ⟨portWidth h1 offered, reversed, inverted.toNat, refclk⟩
  .next (modPower s (fun x =>
    if h1 then { x with perst1 := some s.now, link1 := l } else { x with perst0 := some s.now, link0 := l }))

/-- HOST_AVAILABILITY: both host ports are complete; pwr.mode reads RUN, and the spares' tests begin (R450, R453). -/
def execHostAvailability (s : State) : Host.Outcome State Fault Refusal :=
  if !inMode s 0 ∨ s.power.step < 11 ∨ domSt s 3 ≠ domOn ∨ s.power.perst0.isNone ∨ s.power.perst1.isNone then .next s
  else
    let s := putN s K.pwrHostAvail (min ((s.now - s.power.start) / 1000) (2 ^ 32 - 1))
    let tests := (if (spareRanks s).isEmpty then [] else [18]) ++ (if unitState s clsEngine 8 = unitSpare then [13] else [])
    .next (powerSettle (setMode (modPower s (fun x => { x with avail := true, step := 12, tests := tests })) 1))

/-- TW_RESTART_DONE (R325, R327, Table PW-4 steps 3 and 4). -/
def execTwRestartDone (outcome : BootOutcome) (s : State) : Host.Outcome State Fault Refusal :=
  .next (powerDone (twRestartDone outcome s))

/-! ## Commands of emergencies -/

/-- CUT_NOTICE_EXPIRY: 1 ms after its notice a claimed domain is cut, whatever the trusted world has done (R321). -/
def execCutNoticeExpiry (domain : Fin 24) (s : State) : Host.Outcome State Fault Refusal :=
  if s.power.notice.any (fun e => e.1 == domain.val && decide (e.2 ≤ s.now)) then .next (powerDone (cutDomain s domain)) else .next s

/-- Whether a sensor's die is powered (R454). -/
def sensorPowered (s : State) (j : Nat) : Bool :=
  let up := fun d => domSt s d == domTesting || domSt s d == domOn || domSt s d == domStopping
  if j = 4 ∨ j = 5 then up 19 else if j = 6 ∨ j = 7 then up 20 else if j = 8 then up 21 else true

/-- THERMAL_SAMPLE: the sensors of powered dies are measured; an emergency or the first throttling follows (R454, R455). -/
def execThermalSample (temps : List (BitVec 32)) (s : State) : Host.Outcome State Fault Refusal :=
  if !s.power.good then .next s
  else
    let s := foldN (List.range 10) (fun s j =>
      if !sensorPowered s j then putN s (K.thermTemp j) noReading
      else match temps[j]? with
        | some t => putN s (K.thermTemp j) t.toNat
        | none => s) s
    .next (powerDone (thermalRules s))

/-- THROTTLE_STEP_TIMER (R454). -/
def execThrottleStepTimer (s : State) : Host.Outcome State Fault Refusal :=
  if !s.power.good then .next s else .next (powerDone (throttleStep s))

/-- SUPPLY_CHANGE: the input voltage, its bands and what follows at once: above 17.0 V SUPPLY_1, below 6.0 V the cut of PD01, below
5.0 V the end of PD00 (R456, R511). The emergencies of 100 µs follow when that time has passed. -/
def execSupplyChange (mv : BitVec 16) (s : State) : Host.Outcome State Fault Refusal :=
  let v := mv.toNat
  let since := fun (b : Bool) (o : Option Nat) => if b then (match o with | some t => some t | none => some s.now) else none
  let s := if s.power.good then supplyRules s else s
  let s := modPower (putN s K.pwrIn v) (fun x => { x with
    seen := true, lowSince := since (decide (v < 8500)) x.lowSince, low2Since := since (decide (v < 7500)) x.low2Since
    okSince := since (decide (9000 ≤ v ∧ v ≤ 16000)) x.okSince })
  if v < 5000 then .next (putN (powerLost s) K.pwrIn v)
  else if !s.power.good then .next s
  else
    let s := if v < 6000 ∧ !s.power.pd01Cut then cutMany (modPower s (fun x => { x with pd01Cut := true })) [1] 2 else s
    .next (powerDone (if 17000 < v then declare s 3 else s))

/-- The end of an emergency: EMERGENCY_CLEAR with its duration; unclaimed domains that were cut are off again (R458). -/
def clearEmergency (s : State) (code since : Nat) : State :=
  let s := if code = 0 then s
    else emitSb s 10 0x0A03 0 (leBytes 1 code ++ leBytes 4 (min ((s.now - since) / 1000000) (2 ^ 32 - 1))) []
  let s := putN s K.pwrEmerg (if s.power.supply ≠ 0 then s.power.supply + 2 else s.power.thermal)
  let s := foldN (List.range 24) (fun s d =>
    if domSt s d = domCut ∧ !emergencyMask s d ∧ !s.power.cut.contains d then putN s (K.domState d) domOff else s) s
  if s.power.pd02Cut ∧ domSt s 2 = domOff then openRestart s else s

/-- EMERGENCY_CLEAR: sensors 10 °C below the threshold for 1 s, or the input within 9.0 to 16.0 V for 100 ms (Table PW-8, R458). -/
def execEmergencyClear (s : State) : Host.Outcome State Fault Refusal :=
  let past : Option Nat → Nat → Bool := fun o n => match o with | some x => decide (x + n ≤ s.now) | none => false
  let t := s.power.thermal
  let u := s.power.supply
  let s1 := if t ≠ 0 ∧ past s.power.coolSince 1000000000 then
      let s := clearEmergency (modPower s (fun x => { x with thermal := 0 })) t s.power.thermalAt
      match hottest s with
      | some (j, c) => showLevel s j (toSigned 32 c)
      | none => s
    else s
  let s2 := if (u ≠ 0 ∨ s.power.pd01Cut) ∧ past s.power.okSince 100000000 then
      clearEmergency (modPower s1 (fun x => { x with supply := 0, pd01Cut := false })) (if u = 0 then 0 else u + 2) s.power.supplyAt
    else s1
  .next (powerDone s2)

/-- SIDE_PIN_EDGE: a filtered edge of a side pin; a rising edge of a wake pin wakes the module from STANDBY (R445, R501, R505). -/
def execSidePinEdge (pin : Fin 96) (level : Bool) (s : State) : Host.Outcome State Fault Refusal :=
  if !s.power.good then .next s
  else
    let wake := inMode s 3 && pinWakes s pin level
    let s := pinEdge s pin level
    .next (if wake then coldStart s 3 else s)

end Sys2Proof.Machine
end

