-- ==== Sys2Proof/Machine/Retest.lean ====
section
/-!
DEFINITION. What the manager asks of the Grog manager: testing a retired or failed unit again (R477), diagnostics (R484), and the
spares map as an object (R476, Table GS-2).
-/

namespace Sys2Proof.Machine

/-- Whether a substitution of a class runs: a migration, an engine not yet bound, a driver not yet connected (R474). -/
def substRuns (s : State) (cls : Nat) : Bool :=
  if cls = clsRank then s.mem.migr.isSome
  else if cls = clsEngine then (List.range 8).any (fun p => (portOf s p).spare.isSome)
  else if cls = clsDriver then (List.range 16).any (fun n => (chanOf s n).spareDue.isSome)
  else false

/-- The checks of a write to grog.retest (R477). -/
def retestCheck (s : State) (v : Nat) : Status :=
  let cls := v % 256
  let u := v / 256
  let st := unitState s cls u
  firstRefusal
    [(!(classUnits cls).contains u || st == unitInService || st == unitSpare, .range), (substRuns s cls, .busy)]

/-- A unit is a spare again, kept cold (R477). -/
def unitReturns (s : State) (cls u : Nat) : State :=
  let s := modGrog (setUnit s cls u unitSpare) (fun g => { g with repl := tdel g.repl (unitKey cls u) })
  if cls = clsCore then countCores (putN s (K.coreState u) 0)
  else if cls = clsRank then putN s (K.rankState u) rkSpare
  else if cls = clsChannel then
    putN s (K.chipSpares (u / 256)) ((freeSpares s clsChannel).filter (fun v => v / 256 == u / 256)).length
  else s

/-- A write of grog.retest: the unit's generation advances, it runs its self-test, and the result is logged (R477). -/
def retestApply (s : State) (v : Nat) (passes : Bool) : State :=
  let cls := v % 256
  let u := v / 256
  let (s, g) := advanceGen s cls u
  if passes then updateHealth (grogLog (unitReturns s cls u) cls 4 u 0xFFFF 4 0 g)
  else grogLog s cls 5 u 0xFFFF 4 0 0

/-- The check of a write to diag.enable: true is accepted in RUN only (R484). -/
def diagCheck (s : State) (v : Nat) : Status := if v = 1 ∧ !inMode s 1 then .busy else .ok

/-- The effect of a write to diag.enable. The log that R484 names has no entry kind for it in Table GS-3: the fields are free
values. -/
def diagApply (s : State) (v : Nat) : State :=
  let x := fun i => Config.freeNat (s.fresh + i)
  let s' := writeN s K.diagEnable v
  if v = 1 then grogLog { s' with fresh := s'.fresh + 7 } (x 0) (x 1) (x 2) (x 3) (x 4) (x 5) (x 6) else s'

/-! ## The spares map and MRAM as objects (Table GS-2) -/

/-- The state of an MRAM row, spare rows from 2048 up. -/
def rowState (s : State) (bank row : Nat) : Nat :=
  if row < 2048 then (if (tfind s.grog.rowSpare (rowKey bank row)).isSome then 2 else 0)
  else if tget s.grog.spareUsed bank 0 ≤ row - 2048 then 1
  else if s.grog.rowSpare.any (fun e => e.1 / 4096 == bank && e.2 == row) then 0 else 2

/-- grog.map: one byte per unit, in class and unit order. -/
def grogMap (s : State) : List Byte :=
  ((List.range 6).flatMap (fun c => (classUnits (c + 1)).map (fun u => BitVec.ofNat 8 (unitState s (c + 1) u))))
    ++ (List.range 16).flatMap (fun b => (List.range 2112).map (fun r => BitVec.ofNat 8 (rowState s b r)))

/-- mram.wear.max: the highest write count of any row in service. -/
def wearMax (s : State) : Nat :=
  s.grog.rowWrites.foldl (fun m e => if rowState s (e.1 / 4096) (e.1 % 4096) = 0 then max m e.2 else m) 0

end Sys2Proof.Machine
end

