-- ==== Sys2Proof/Machine/Views.lean ====
section
/-!
DEFINITION. Reading a dictionary object: the objects whose value is computed from the module's state when they are read, the
heritage aliases (R51), and what each role may read (R19, R26, R111, R161, R289, R307, R484, R500).
-/

namespace Sys2Proof.Machine

/-! ## Heritage aliases (R51) -/

/-- The target of a heritage alias. -/
def aliasOf (idx sub : Nat) : Option (Nat × Nat) :=
  if idx = 0x5010 ∧ 1 ≤ sub ∧ sub ≤ 8 then some (0x2000 + 0x100 * (sub - 1), 2)
  else if idx = 0x5020 ∧ 1 ≤ sub ∧ sub ≤ 4 then some (0x4420 + (sub - 1), 12)
  else none

/-- The object that a request on an index and subindex acts on. -/
def targetOf (idx sub : Nat) : Nat × Nat := (aliasOf idx sub).getD (idx, sub)

/-! ## Computed values -/

/-- An entry of sess.table (Table DI-4). -/
def sessEntry (s : State) (i : Nat) : Nat :=
  let x := sessOf s i
  if x.isOpen then sessId s i + 2 ^ 16 * x.role.code + 2 ^ 24 * ((x.src.map transportCode).getD 0) + 2 ^ 32 * x.tag else 0

/-- her.ign: the power mode in the first programme's coding. -/
def ignition (s : State) : Nat := let m := pwrMode s; if m = 1 then 2 else if m = 0 then 0 else 1

/-- Whether an entry of tilth.log is about a context, surface or layer of a VF. -/
def tilthOwn (s : State) (f : Nat) (e : List Byte) : Bool :=
  let kind := ofLe ((e.drop 12).take 1)
  let reason := ofLe ((e.drop 13).take 1)
  let x := ofLe ((e.drop 16).take 4)
  if kind = 1 ∨ kind = 5 then decide (x < 64) && ctxOwner s x == f
  else if kind = 2 ∨ kind = 3 ∨ kind = 4 then
    if x < 65536 then decide (x < 64) && reason != 8 && ctxOwner s x == f
    else handleValid s x && getN s (K.surfOwner (slotOf x)) == f
  else if kind = 6 then layerOwner s (x / 256) (x % 256) == f
  else false

/-- tilth.log as a session reads it: to a VF another's entry reads kind 0 and zeros. -/
def tilthLogFor (s : State) (c : WCtx) : List Byte :=
  (s.tilthLog.map (fun e => if c.role == .vf && !tilthOwn s c.func e then List.replicate 32 0 else e)).flatten

/-- chip.state of a touch chiplet: 0 OFF, 1 TESTING, 2 RUN, 3 FAILED. -/
def chipState (s : State) (c : Nat) : Nat :=
  match (List.range 4).find? (fun p => bitOf (getN s (K.panelChips p)) c) with
  | none => 0
  | some p =>
    let st := panSt s p
    let lost := (List.range 132).any (fun i => unitState s clsChannel (i + 256 * c) == unitRetired
      && (tfind s.grog.repl (unitKey clsChannel (i + 256 * c))).isNone)
    if st = panOff then 0 else if st = panStarting then 1 else if st = 5 then (if lost then 3 else 2) else 2

/-- chip.panel of a touch chiplet. -/
def chipPanel (s : State) (c : Nat) : Nat := ((List.range 4).find? (fun p => bitOf (getN s (K.panelChips p)) c)).getD 0xFF

/-- core.ctx: the context running on a core. -/
def coreCtx (s : State) (k : Nat) : Nat := ((List.range 64).find? (fun c => (coresOf s c).contains k)).getD 0xFF

/-- core.state and core.ctx: an active core reads TESTING while the self-tests of its slice run (R436, Table TP-2). -/
def coreView (s : State) (k sub : Nat) : Option Val :=
  if sub = 3 then some (.num (coreCtx s k))
  else if sub = 1 ∧ getN s (K.coreState k) = 1 ∧ domSt s (6 + k / 9) = domTesting then some (.num 2)
  else none

/-- mem.free: user memory less the two reserves, the surfaces and the Silt pools. -/
def memFree (s : State) : Nat :=
  68719476736 - 1073741824 - 805306368 - surfBytes s (fun _ => true) - siltMib s (fun _ => true) * 1048576

/-- pool.* in subindex order. -/
def poolView (s : State) (sub : Nat) : Nat :=
  if sub = 1 then poolN s 1 else if sub = 2 then poolN s 3 else if sub = 3 then poolMib s else if sub = 4 then poolN s 8
  else if sub = 5 then poolN s 9 else if sub = 6 then poolN s 10 else if sub = 7 then poolN s 11 else if sub = 8 then poolN s 12
  else if sub = 9 then poolN s 13 else poolShare s

/-- The value of an object that is computed when it is read; none where the stored value stands. -/
def viewVal (s : State) (c : WCtx) (idx sub : Nat) : Option Val :=
  let num := fun n : Nat => some (Val.num n)
  let bytes := fun b : List Byte => some (Val.bytes b)
  if sub = 0 ∧ idx ≠ 0x1100 ∧ idx ≠ 0x1300 ∧ idx ≠ 0x1303 ∧ idx ≠ 0x5030 ∧ idx ≠ 0x7012 then none
  else if idx = 0x1100 then num s.now
  else if idx = 0x1300 then num (openSlots s).length
  else if idx = 0x1303 then num c.session
  else if idx = 0x1310 then num (sessEntry s (sub - 1))
  else if idx < 0x2000 then none
  else if idx < 0x2800 then (if idx % 256 = 0 ∧ sub = 17 then num (outPos s ((idx - 0x2000) / 256)) else none)
  else if idx = 0x3000 then (if sub = 3 then num (gpuClock s) else none)
  else if 0x3010 ≤ idx ∧ idx < 0x3034 then coreView s (idx - 0x3010) sub
  else if idx = 0x3040 then (if sub = 8 then num (Config.switchTime s.now).toNat else none)
  else if 0x3200 ≤ idx ∧ idx < 0x3240 then
    if sub = 7 then num (ctxState s (idx - 0x3200))
    else if sub = 8 then num (((coresOf s (idx - 0x3200)).map (2 ^ ·)).sum)
    else none
  else if 0x3300 ≤ idx ∧ idx < 0x3340 then (if sub = 8 then num (siltPlaceOf s (idx - 0x3300)) else none)
  else if idx = 0x3600 then (if sub = 4 then bytes (tilthLogFor s c) else none)
  else if idx = 0x3601 then (if 5 ≤ sub then num (placedDemand s (sub - 5)) else none)
  else if 0x3700 ≤ idx ∧ idx < 0x3800 then (if sub = 6 then num (fenceWaiters s (idx - 0x3700)) else none)
  else if 0x3800 ≤ idx ∧ idx < 0x4000 then
    let i := idx - 0x3800
    if sub = 6 then num (slotStride s i) else if sub = 7 then num (slotSize s i)
    else if sub = 12 ∧ getB s (K.surfAlloc i) then num (placeCode s (surfOf s i).unit)
    else none
  else if idx = 0x4000 then
    if sub = 3 then num (memFree s) else if sub = 4 then num (spareRanks s).length else if sub = 16 then bytes s.mem.log.flatten
    else none
  else if 0x4410 ≤ idx ∧ idx < 0x4414 then
    if sub = 1 then num (chipState s (idx - 0x4410)) else if sub = 2 then num (chipPanel s (idx - 0x4410)) else none
  else if 0x4810 ≤ idx ∧ idx < 0x4820 then (if sub = 15 then num (chDutyNs s (idx - 0x4810) / msec) else none)
  else if idx = 0x5030 then num (ignition s)
  else if idx = 0x6030 then num (poolView s sub)
  else if 0x6040 ≤ idx ∧ idx < 0x7000 then
    let v := (idx - 0x6000) / 0x40
    if idx % 0x40 = 0 ∧ sub = 2 then num (vfStatus s v) else if idx % 0x40 = 2 then num (useN s v sub) else none
  else if idx = 0x7000 then (if sub = 9 then bytes s.refuseLog.flatten else none)
  else if idx = 0x7010 then num (claimState s (sub - 1))
  else if idx = 0x7012 then num (sumN 24 (fun d => if kaolinClaim s d then 2 ^ d else 0))
  else if idx = 0x7080 then
    if sub = 1 then bytes s.world.slots.flatten else if sub = 2 then bytes s.world.log.flatten
    else if sub = 3 then num (s.world.count % 65536) else if sub = 4 then num (b2n (decide (1024 ≤ s.world.log.length)))
    else none
  else if idx = 0x7100 then num (mirrorState s (sub - 1))
  else if idx = 0x8000 then (if sub = 8 then num (drawReading s) else none)
  else if 0x8010 ≤ idx ∧ idx < 0x8028 then (if sub = 4 then num (domUsers' s (idx - 0x8010)) else none)
  else if idx = 0x8100 then (if sub = 2 then num (Config.stallTime s.now).toNat else none)
  else if 0x8110 ≤ idx ∧ idx < 0x8138 then (if sub = 3 then num (islandClock s (idx - 0x8110)) else none)
  else if idx = 0x9000 then (if sub = 9 then num (fabTimeNow s) else none)
  else if idx = 0xA000 then
    if sub = 2 then num (getN s K.diagEnable) else if sub = 3 then num s.grog.starts else none
  else if idx = 0xA002 then num (spareCount s sub)
  else if idx = 0xA100 then
    if sub = 1 then bytes s.grog.log.flatten else if sub = 2 then num s.grog.seq else if sub = 3 then num s.grog.skip
    else if sub = 4 then bytes (grogMap s) else if sub = 6 then num s.grog.subst else none
  else if idx = 0xA110 then
    if sub ≤ 16 then num (freeRows s (sub - 1)) else if sub = 17 then num s.grog.spared else num (wearMax s)
  else none

/-- The value that a read of an object returns. -/
def readVal (s : State) (c : WCtx) (idx sub : Nat) : Val := (viewVal s c idx sub).getD (getV s (objKey idx sub))

/-! ## Who may read -/

/-- What a VF session may read (R26, R289, Table VF-5). -/
def vfReads (s : State) (f idx sub : Nat) : Bool :=
  let lo := 0x6000 + 0x40 * f
  if lo ≤ idx ∧ idx < lo + 0x40 then true
  else if (0x1000 ≤ idx ∧ idx < 0x1200) ∨ (idx = 0x1303 ∧ sub = 0) ∨ (0x2800 ≤ idx ∧ idx < 0x3000) then true
  else if 0x2000 ≤ idx ∧ idx < 0x2800 then
    let p := (idx - 0x2000) / 256
    let o := idx % 256
    if o = 0 then outReadable s f p sub else if 0x20 ≤ o ∧ o < 0x26 then layerOwner s p (o - 0x20) == f else false
  else if 0x3100 ≤ idx ∧ idx < 0x3200 then getN s (K.ringOwner (idx - 0x3100)) == f
  else if 0x3200 ≤ idx ∧ idx < 0x3240 then ctxOwner s (idx - 0x3200) == f
  else if 0x3300 ≤ idx ∧ idx < 0x3340 then ctxOwner s (idx - 0x3300) == f
  else if 0x3500 ≤ idx ∧ idx < 0x3600 then sub ≤ 1 || getN s (K.progOwner (idx - 0x3500)) == f
  else if idx = 0x3600 then sub == 4
  else if 0x3700 ≤ idx ∧ idx < 0x3800 then
    let i := idx - 0x3700
    sub ≤ 1 || sub == 4 || getN s (K.fenceOwner i) == f || ((sub == 2 || sub == 5) && bitOf (getN s (K.fenceShare i)) f)
  else if 0x3800 ≤ idx ∧ idx < 0x4000 then
    let i := idx - 0x3800
    sub ≤ 1 || sub == 9 || getN s (K.surfOwner i) == f || bitOf (getN s (K.surfShare i)) f
  else if 0x4420 ≤ idx ∧ idx < 0x4424 then hasTouchRegion s f (idx - 0x4420)
  else if 0x4430 ≤ idx ∧ idx < 0x4434 then sub ≤ 2 && hasTouchRegion s f (idx - 0x4430)
  else if 0x4810 ≤ idx ∧ idx < 0x4820 then bitOf (getN s (K.grantHaptic f)) (idx - 0x4810)
  else if 0x4C10 ≤ idx ∧ idx < 0x4C70 then getN s (objKey idx 1) == f
  else if 0x7100 ≤ idx ∧ idx ≤ 0x7102 then decide (1 ≤ sub) && ownsOn s f (sub - 1)
  else if 0x9400 ≤ idx ∧ idx < 0x9480 then getN s (objKey idx 1) == f
  else false

/-- Whether a requester may read an object (R19, R26, R307, R484). -/
def mayReadObj (s : State) (c : WCtx) (r : ObjRow) (idx sub : Nat) : Bool :=
  match r.acc, c.role with
  | .wo, _ => false
  | _, .tw => true
  | .rwt, _ => false
  | .rwtRun, _ => false
  | _, .vf => vfReads s c.func idx sub
  | _, _ => decide (idx < 0xF100) || getB s K.diagEnable

/-- Whether a read is one of a trusted pin by the open world: it answers zeros (R500, R312, R310). -/
def pinHidden (s : State) (c : WCtx) (idx : Nat) : Bool :=
  c.role != .tw && decide (0x8400 ≤ idx ∧ idx < 0x8460) && pinTrusted s (idx - 0x8400)

/-- The status and value of an accepted read. A queued enable reads INTRANSIT (R49); att.quote and fab.relay are the reading
session's own (R331, R417). -/
def readObj (s : State) (c : WCtx) (idx sub : Nat) : Status × Val :=
  let me := slotOfId s c.session
  if idx = 0x7081 ∧ sub = 2 then
    match me with
    | none => (.range, .bytes [])
    | some i =>
      let x := sessOf s i
      if x.nonce.isNone then (.range, .bytes []) else if x.signing then (.busy, .bytes []) else (.ok, .bytes x.quote)
  else if idx = 0x9100 then
    match me with
    | none => (.range, .bytes [])
    | some i =>
      let x := sessOf s i
      if x.relayWait then (.busy, .bytes [])
      else match x.relayReply with
        | none => (.range, .bytes [])
        | some b => (.ok, .bytes (leBytes 1 (x.relayDest.getD 0) ++ leBytes 3 0 ++ b))
  else if s.transit.contains (objKey idx sub) then (.intransit, readVal s c idx sub)
  else if pinHidden s c idx && sub != 0 then (.ok, .num 0)
  else (.ok, readVal s c idx sub)

end Sys2Proof.Machine
end

