-- ==== Sys2Proof/Machine/Dictionary.lean ====
section
/-!
DEFINITION. Writing a dictionary object: who may (R19, R25, R289, R307), its checks in the order of R530, the claims that refuse it
(R318), its effect, and its store (R21, R23).
-/

namespace Sys2Proof.Machine

/-! ## Who may write -/

/-- Whether a requester that is the manager, the trusted world or a VF may write an object of an area, by the area's own rule. -/
def areaAccess (s : State) (c : WCtx) (idx sub v : Nat) : Bool :=
  if 0x2000 ≤ idx ∧ idx < 0x2800 then
    let p := (idx - 0x2000) / 256
    let o := idx % 256
    if o < 0x10 then outAccess s c p sub else if o = 0x10 then compAccess s c p else portLayerAccess s c p (o - 0x20) sub v
  else if 0x3100 ≤ idx ∧ idx < 0x3200 then ringAccess s c (idx - 0x3100) sub
  else if 0x3200 ≤ idx ∧ idx < 0x3240 then ctxAccess s c (idx - 0x3200) sub
  else if 0x3300 ≤ idx ∧ idx < 0x3340 then siltAccess s c (idx - 0x3300)
  else if 0x3500 ≤ idx ∧ idx < 0x3600 then progAccess s c (idx - 0x3500) sub v
  else if 0x3700 ≤ idx ∧ idx < 0x3800 then fenceAccess s c (idx - 0x3700) sub v
  else if 0x3800 ≤ idx ∧ idx < 0x4000 then surfAccess s c (idx - 0x3800) sub v
  else if 0x4C10 ≤ idx ∧ idx < 0x4C50 then streamAccess s c false (idx - 0x4C10) sub
  else if 0x4C60 ≤ idx ∧ idx < 0x4C70 then streamAccess s c true (idx - 0x4C60) sub
  else if 0x6040 ≤ idx ∧ idx < 0x7000 then c.isMgr || (sub == 7 && idx == 0x6000 + 0x40 * c.func)
  else if idx = 0x8000 then c.isMgr && (sub != 3 || mayReset s c.role)
  else if 0x8400 ≤ idx ∧ idx < 0x8460 then pinAccess s c (idx - 0x8400)
  else if idx = 0x9100 then c.role == .mgr
  else if 0x9200 ≤ idx ∧ idx < 0x9208 then c.isMgr || (sub == 7 && spreadBits s c.func (idx - 0x9200) != 0)
  else if 0x9400 ≤ idx ∧ idx < 0x9480 then spreadLayerAccess s c ((idx - 0x9400) / 16) (idx % 16) sub v
  else c.isMgr && (decide (idx < 0xF100) || getB s K.diagEnable)

/-- Whether a requester may write an object (Tables DI-2 and DI-5, R307, R417). -/
def mayWriteObj (s : State) (c : WCtx) (r : ObjRow) (idx sub v : Nat) : Bool :=
  match r.acc, c.role with
  | .ro, _ => false
  | .rwt, role => role == .tw
  | .rwtRun, role => role == .tw
  | _, .obs => idx == 0x9100
  | _, .sb => idx == 0x8000 && (sub == 2 || (sub == 3 && mayReset s .sb))
  | _, _ => areaAccess s c idx sub v

/-! ## Checks -/

/-- Whether a value of fab.relay is a destination, three zero bytes and a well-formed request PDU (R417). -/
def relayOk (b : List Byte) : Bool := ((b.drop 1).take 3).all (· == 0) && (parsePdu (b.drop 4)).isSome

/-- The checks of a write that an area's own rules make: RANGE and BUSY (R530). -/
def areaCheck (s : State) (c : WCtx) (idx sub : Nat) (x : Val) : Status :=
  let v := x.toNat
  if idx = 0x1200 then
    (if sub = 3 then (match allowEntries 17 x.toBytes with | some l => if l.length ≤ 16 then .ok else .range | none => .range) else .ok)
  else if 0x2000 ≤ idx ∧ idx < 0x2800 then
    let p := (idx - 0x2000) / 256
    let o := idx % 256
    if o = 0 then outCheck s p sub v else if 0x20 ≤ o then layerCheck s p (o - 0x20) sub v else .ok
  else if 0x3100 ≤ idx ∧ idx < 0x3200 then ringCheck s c (idx - 0x3100) sub v
  else if 0x3200 ≤ idx ∧ idx < 0x3240 then ctxCheck s (idx - 0x3200) sub v
  else if 0x3300 ≤ idx ∧ idx < 0x3340 then siltCheck s (idx - 0x3300) sub v
  else if 0x3500 ≤ idx ∧ idx < 0x3600 then progCheck s (idx - 0x3500) sub v
  else if 0x3700 ≤ idx ∧ idx < 0x3800 then fenceCheck s (idx - 0x3700) sub v
  else if 0x3800 ≤ idx ∧ idx < 0x4000 then surfCheck s (idx - 0x3800) sub v
  else if 0x4000 ≤ idx ∧ idx < 0x4400 then memCheck s (objKey idx sub) v
  else if 0x4420 ≤ idx ∧ idx < 0x4424 then panelCheck s (idx - 0x4420) sub x
  else if 0x4440 ≤ idx ∧ idx < 0x4444 then captureCheck s (idx - 0x4440) sub
  else if 0x4800 ≤ idx ∧ idx < 0x4900 then hapCheck s idx sub
  else if idx = 0x4C00 then (if sub = 4 ∧ sndSt s ≠ sndOff then .busy else .ok)
  else if 0x4C10 ≤ idx ∧ idx < 0x4C50 then streamCheck s false (idx - 0x4C10) sub v
  else if 0x4C60 ≤ idx ∧ idx < 0x4C70 then streamCheck s true (idx - 0x4C60) sub v
  else if 0x6040 ≤ idx ∧ idx < 0x7000 then
    let n := (idx - 0x6000) / 0x40
    let o := idx % 0x40
    if o = 0 then (if sub = 1 then vfEnableCheck s n v else .ok)
    else if o = 1 then grantCheck s n sub v
    else if 8 ≤ o ∧ o < 16 then regionCheck s false n (o - 8) sub v
    else if 16 ≤ o ∧ o < 24 then regionCheck s true n (o - 16) sub v
    else if o = 0x20 then (if sub = 1 then freezeCheck s n v else if sub = 6 then migOpCheck s n else .ok)
    else if o = 0x21 then logCheck s n sub v
    else .ok
  else if idx = 0x7011 then claimHoldCheck (sub - 1) v
  else if idx = 0x7041 then dmaTCheck s (sub - 1)
  else if 0x7400 ≤ idx ∧ idx < 0x7500 then rectCheck s ((idx - 0x7400) / 32) (idx % 32) sub v
  else if idx = 0x8000 then
    (if sub = 2 then pwrReqCheck s v
     else if sub = 10 then (if x.toBytes.all (fun b => decide (b.toNat < 8)) then .ok else .range)
     else .ok)
  else if 0x8010 ≤ idx ∧ idx < 0x8028 then (if sub = 2 then domHoldCheck (idx - 0x8010) else domTwCheck (idx - 0x8010))
  else if 0x8110 ≤ idx ∧ idx < 0x8138 then islandCheck (idx - 0x8110) sub v
  else if 0x8400 ≤ idx ∧ idx < 0x8460 then pinCheck (idx - 0x8400) sub v
  else if idx = 0x9100 then (if relayOk x.toBytes then .ok else .range)
  else if 0x9200 ≤ idx ∧ idx < 0x9208 then
    let i := idx - 0x9200
    if sub = 1 then (if v = 1 ∧ !getB s (K.spreadEnable i) then spreadEnableCheck s i else .ok) else spreadCheck s i sub x
  else if 0x9300 ≤ idx ∧ idx < 0x9380 then (if getN s (K.spreadState ((idx - 0x9300) / 16)) ≠ 0 then .busy else .ok)
  else if 0x9400 ≤ idx ∧ idx < 0x9480 then spreadLayerCheck s ((idx - 0x9400) / 16) (idx % 16) sub v
  else if idx = 0xA100 then retestCheck s v
  else if idx = 0xF000 then diagCheck s v
  else .ok

/-- The claimed domains that refuse a write, with the request code of the refusal log (R318, R438, R442, R461). -/
def areaClaims (s : State) (idx sub v : Nat) : List Nat × Nat :=
  let k := objKey idx sub
  if 0x2000 ≤ idx ∧ idx < 0x2800 ∧ idx % 256 = 0 ∧ sub = 1 then (outClaims s ((idx - 0x2000) / 256) v, if v = 1 then 5 else 6)
  else if 0x4420 ≤ idx ∧ idx < 0x4424 ∧ sub = 1 then
    (enableClaims s k (v == 1) (panSt s (idx - 0x4420) == panStopping) ((panelChips s (idx - 0x4420)).map chipDomain), 5)
  else if k = K.hapEnable then (enableClaims s k (v == 1) (getN s K.hapState == hapStopping) [21], 5)
  else if k = K.sndEnable then (enableClaims s k (v == 1) (sndSt s == sndStopping) [22], 5)
  else if 0x9010 ≤ idx ∧ idx < 0x9014 ∧ sub = 1 then (enableClaims s k (v == 1) false [5], 5)
  else if 0x9200 ≤ idx ∧ idx < 0x9208 ∧ sub = 1 then
    (enableClaims s k (v == 1) (getN s (K.spreadState (idx - 0x9200)) == sprStopping) [11], 5)
  else if k = K.pwrReq then (pwrReqClaims s v, 1)
  else if 0x8010 ≤ idx ∧ idx < 0x8028 ∧ sub = 2 then (domHoldClaims s (idx - 0x8010), if v = 1 then 2 else 1)
  else if 0x8110 ≤ idx ∧ idx < 0x8138 then (islandClaims s (idx - 0x8110), if sub = 5 then 3 else 4)
  else ([], 0)

/-! ## Effects -/

/-- A write of fab.relay: the PDU goes to the node, or a reply with status BUSY answers one that no route reaches (R417, R418). -/
def relayApply (s : State) (c : WCtx) (b : List Byte) : State :=
  match slotOfId s c.session with
  | none => s
  | some i =>
    let a := (b.headD 0).toNat
    let serial := if a < 64 then getN s (K.fabNodeSerial a) else 0
    let pdu := b.drop 4
    if serial ≠ 0 ∧ moduleReachable s serial then
      modSess s i (fun x => { x with relayDest := some a, relayReply := none, relayWait := true })
    else
      let reply := (pdu.take 6) ++ leBytes 1 Status.busy.code ++ leBytes 1 1 ++ leBytes 4 0
      modSess s i (fun x => { x with relayDest := some a, relayReply := some reply, relayWait := false })

/-- A write that is accepted at once. -/
def accepted (s : State) : State × Status := (s, .ok)

/-- A write that may change what domains are wanted: what waits for power follows. -/
def powered (r : State × Status) : State × Status := (powerDone r.1, r.2)

/-- The effect of a write that its checks accept, by area; an object that no rule singles out takes its value. -/
def areaApply (s : State) (c : WCtx) (idx sub : Nat) (x : Val) : State × Status :=
  let v := x.toNat
  let k := objKey idx sub
  let plain := accepted (writeV s k x)
  if idx = 0x1F00 then accepted { s with defaultsDue := true }
  else if 0x2000 ≤ idx ∧ idx < 0x2800 then
    let p := (idx - 0x2000) / 256
    let o := idx % 256
    if o = 0 then
      let r := outApply s c p sub v
      if sub ≤ 2 then (let r := (spreadSweep r.1, r.2); if sub = 1 then powered r else r) else r
    else if 0x20 ≤ o then accepted (layerApply s p (o - 0x20) sub v)
    else plain
  else if 0x3100 ≤ idx ∧ idx < 0x3200 then accepted (ringApply s (idx - 0x3100) sub v)
  else if 0x3200 ≤ idx ∧ idx < 0x3240 then ctxApply s (idx - 0x3200) sub v
  else if 0x3500 ≤ idx ∧ idx < 0x3600 then accepted (progApply s (idx - 0x3500) sub x)
  else if 0x3700 ≤ idx ∧ idx < 0x3800 then accepted (fenceApply s (idx - 0x3700) sub v)
  else if 0x3800 ≤ idx ∧ idx < 0x4000 then accepted (surfApply s (idx - 0x3800) sub v)
  else if (0x4000 ≤ idx ∧ idx < 0x4400) ∨ idx = 0xF400 then accepted (memApply s k v)
  else if 0x4420 ≤ idx ∧ idx < 0x4424 then (if sub = 1 then powered (panelApply s (idx - 0x4420) sub x) else panelApply s (idx - 0x4420) sub x)
  else if 0x4440 ≤ idx ∧ idx < 0x4444 then accepted (captureApply s (idx - 0x4440) sub x)
  else if k = K.hapEnable then powered (hapEnableApply s (v == 1))
  else if 0x4810 ≤ idx ∧ idx < 0x4820 then
    accepted (match c.found with
      | some cap => if sub = 17 then resetChannel s (idx - 0x4810) cap else chanApply s (idx - 0x4810) sub v
      | none => chanApply s (idx - 0x4810) sub v)
  else if k = K.sndEnable then powered (sndEnableApply s (v == 1))
  else if 0x4C10 ≤ idx ∧ idx < 0x4C50 then accepted (streamApply s false (idx - 0x4C10) sub v)
  else if 0x4C60 ≤ idx ∧ idx < 0x4C70 then accepted (streamApply s true (idx - 0x4C60) sub v)
  else if 0x4D00 ≤ idx ∧ idx < 0x4D60 ∧ (idx < 0x4D40 ∨ sub = 3) then accepted (rampGain s k v)
  else if 0x6040 ≤ idx ∧ idx < 0x7000 then
    let n := (idx - 0x6000) / 0x40
    let o := idx % 0x40
    if o = 0 then (if sub = 1 then vfEnableApply s n (v == 1) else if sub = 3 then accepted (vfFlrApply s n) else plain)
    else if o = 1 then accepted (grantApply s n sub v)
    else if 8 ≤ o ∧ o < 16 then accepted (regionApply s false n (o - 8) sub v)
    else if 16 ≤ o ∧ o < 24 then accepted (regionApply s true n (o - 16) sub v)
    else if o = 0x20 then
      (if sub = 1 then accepted (freezeApply s n (v == 1))
       else if sub = 6 then accepted (if v = 1 then saveApply s n else restoreApply s n)
       else plain)
    else if o = 0x21 then accepted (logApply s n sub v)
    else plain
  else if idx = 0x7011 then accepted (claimWrite s (sub - 1) (v == 1))
  else if idx = 0x7021 then accepted (pinTApply s (sub - 1) (v == 1))
  else if idx = 0x7041 then accepted (dmaTApply s (sub - 1) (v == 1))
  else if idx = 0x7081 then
    accepted (match slotOfId s c.session with | some i => nonceApply s i x.toBytes | none => s)
  else if 0x7510 ≤ idx ∧ idx < 0x7518 then
    (if sub = 2 then accepted (kaolinCommitOp s (idx - 0x7510)) else if sub = 1 then powered (accepted (settle (writeV s k x))) else plain)
  else if k = K.pwrReq then pwrReqApply s v
  else if k = K.pwrReset then accepted (pwrResetApply s)
  else if 0x8010 ≤ idx ∧ idx < 0x8028 then
    (if sub = 2 then domHoldApply s (idx - 0x8010) (v == 1) else domTwApply s (idx - 0x8010) (v == 1))
  else if 0x8110 ≤ idx ∧ idx < 0x8138 then accepted (islandApply s (idx - 0x8110) sub v)
  else if 0x8400 ≤ idx ∧ idx < 0x8460 then accepted (pinApply s (idx - 0x8400) sub v)
  else if idx = 0x9001 then accepted (spreadSweep (writeV s k x))
  else if 0x9010 ≤ idx ∧ idx < 0x9014 then
    powered (enableWrite s k (v == 1) (anyStopping s [5]) (fun s => settle (writeB s k true)) (fun s => settle (writeB s k false)))
  else if idx = 0x9100 then accepted (relayApply s c x.toBytes)
  else if 0x9200 ≤ idx ∧ idx < 0x9208 then
    let i := idx - 0x9200
    if sub = 1 then
      powered (enableWrite s k (v == 1) (getN s (K.spreadState i) == sprStopping || anyStopping s [11]) (startSpread · i) (stopSpread · i))
    else if sub = 7 then accepted (spreadCommit s i (spreadBits s c.func i ||| (if c.isMgr then 64 else 0)))
    else plain
  else if idx = 0xA003 then accepted (updateHealth (writeV s k x))
  else if idx = 0xA100 then
    accepted (match c.found with
      | some n => retestApply s v (n != 0)
      | none => retestApply (draw s) v (Config.freeBit s.fresh))
  else if idx = 0xF000 then accepted (diagApply s v)
  else plain

/-! ## The whole write -/

/-- What a write comes to: its status, the state after it, and of a CLAIMED refusal the domains and the request code. -/
structure WriteOut where
  status : Status
  state : State
  claims : List Nat := []
  req : Nat := 0
  deriving DecidableEq, Repr

/-- The outcome of a write to the object itself, its value being of its type and within its range (R318, R530, R21, R23). -/
def storeWrite (s : State) (c : WCtx) (r : ObjRow) (idx sub : Nat) (x : Val) : WriteOut :=
  let chk := areaCheck s c idx sub x
  let (ds, req) := if c.role = .tw then ([], 0) else areaClaims s idx sub x.toNat
  if chk = .range then ⟨.range, s, [], 0⟩
  else if ds ≠ [] then ⟨.claimed, s, ds, req⟩
  else if chk ≠ .ok then ⟨chk, s, [], 0⟩
  else
    let (s, st) := areaApply s c idx sub x
    if r.acc.stored then
      let (s, kept) := storeKey s (objKey idx sub) x
      ⟨if kept then st else .full, s, [], 0⟩
    else ⟨st, s, [], 0⟩

/-- A write of an object in the order of R530: NOOBJ, ACCESS, STALE, RANGE, CLAIMED, BUSY, FULL. Through an alias the alias's own
values are checked before the target's (R51); DESIGN CHOICE (log 253): R51's check of the alias's own set takes the place of RANGE in
that order, so ACCESS and STALE come before it. -/
def writeObj (s : State) (c : WCtx) (h : ItemHdr) (data : List Byte) (expected : Option Nat) : WriteOut :=
  match lookupObj h.index.toNat h.sub.toNat with
  | none => ⟨.noobj, s, [], 0⟩
  | some (own, _) =>
    let t := targetOf h.index.toNat h.sub.toNat
    let r := ((lookupObj t.1 t.2).map (·.1)).getD own
    let x := if h.ty.toNat = r.ty.code then parseVal r.ty data else none
    let v := (x.map Val.toNat).getD 0
    if !mayWriteObj s c r t.1 t.2 v then ⟨.access, s, [], 0⟩
    else if expected.isSome && expected != some (ctrOf s (objKey t.1 t.2)) then ⟨.stale, s, [], 0⟩
    else match x with
      | none => ⟨.range, s, [], 0⟩
      | some x => if !inRange own x || !inRange r x then ⟨.range, s, [], 0⟩ else storeWrite s c r t.1 t.2 x

/-- What a refused request leaves behind: of a CLAIMED one the count, the log and the events, and for a standby request the question
to the trusted world (R318, R442). -/
def afterRefusal (s : State) (c : WCtx) (h : ItemHdr) (w : WriteOut) : State :=
  if w.status = .claimed then
    let s := refuseClaim s c c.session w.req w.claims
    if objKey h.index.toNat h.sub.toNat = K.pwrReq then standbyAsk s c.role w.claims else s
  else s

/-- Whether a status is a refusal: all but OK, INTRANSIT, and FULL, whose value is in force (R23). -/
def Status.applied (st : Status) : Bool := st == .ok || st == .intransit || st == .full

/-- The state after a write on its own. -/
def WriteOut.settled (w : WriteOut) (s : State) (c : WCtx) (h : ItemHdr) : State :=
  if w.status.applied then w.state else afterRefusal s c h w

end Sys2Proof.Machine
end

