-- ==== Sys2Proof/Machine/Requests.lean ====
section
/-!
DEFINITION. Dictionary requests: how one is admitted, executed, answered and cached (R27 to R40, R46, R47), the transports that carry
it (R41 to R45), the fabric relay (R417, R418) and the trusted world's port (R307).
-/

namespace Sys2Proof.Machine

/-! ## Opcodes -/

/-- What a request comes to: the state after it, and the response's status, MORE flag, aux and payload. -/
structure Answer where
  state : State
  status : Status
  payload : List Byte := []
  more : Bool := false
  aux : Nat := 0
  deriving DecidableEq, Repr

/-- A refused request. What the payload of a refusal holds the spec does not state: it is a free value. -/
def refused (s : State) (st : Status) : Answer := ⟨draw s, st, Config.freeBytes s.fresh, false, 0⟩

/-- The session slots in use on the side-band. -/
def sbSessions (s : State) : Nat := s.sess.countP (fun e => e.2.isOpen && e.2.src == some .can)

/-- OPEN (R27, R28, R47): the free slot that has been free longest is given out under its next generation. -/
def opOpen (s : State) (src : Carrier) (lease tag : Nat) : Answer :=
  let ms := if lease = 0 then getN s (objKey 0x1302 0) else lease
  if lease ≠ 0 ∧ (lease < 100 ∨ 60000 < lease) then refused s .range
  else if src = .can ∧ 4 ≤ sbSessions s then refused s .full
  else match s.freeSlots with
    | [] => refused s .full
    | i :: rest =>
      let role := roleOf s src
      let x : Session := { isOpen := true, gen := nextSessGen (sessOf s i).gen, role := role, func := funcOfCarrier src, src := some src
                           tag := tag, lease := ms, renewed := s.now }
      let s := { s with sess := tset s.sess i x, freeSlots := rest }
      ⟨s, .ok, leBytes 2 (sessId s i) ++ leBytes 2 ms ++ leBytes 1 role.code ++ leBytes 3 0, false, 0⟩

/-- The item header of a response, with the object's own type. -/
def itemHdr (h : ItemHdr) (r : ObjRow) : List Byte := leBytes 2 h.index.toNat ++ leBytes 1 h.sub.toNat ++ leBytes 1 r.ty.code

/-- The row that a request on an object acts under: the target's, of an alias (R51). -/
def rowFor (h : ItemHdr) : Option ObjRow :=
  match lookupObj h.index.toNat h.sub.toNat with
  | none => none
  | some (own, _) =>
    let t := targetOf h.index.toNat h.sub.toNat
    some (((lookupObj t.1 t.2).map (·.1)).getD own)

/-- The counter of the object that a request names. -/
def ctrFor (s : State) (h : ItemHdr) : Nat :=
  let t := targetOf h.index.toNat h.sub.toNat
  ctrOf s (objKey t.1 t.2)

/-- What a read leaves behind: one of a trusted pin by the open world is a violation from the management cluster (R310, R500). -/
def afterRead (s : State) (c : WCtx) (idx len : Nat) : State := if pinHidden s c idx then violation s 1 9 false len else s

/-- READ (R20, R24, R26, R49). -/
def opRead (s : State) (c : WCtx) (h : ItemHdr) : Answer :=
  match rowFor h with
  | none => refused s .noobj
  | some r =>
    let t := targetOf h.index.toNat h.sub.toNat
    if !mayReadObj s c r t.1 t.2 then refused s .access
    else if h.ty.toNat ≠ 0 ∧ h.ty.toNat ≠ r.ty.code then refused s .range
    else
      let (st, v) := readObj s c t.1 t.2
      if st = .ok ∨ st = .intransit then
        ⟨afterRead s c t.1 r.ty.size, st, itemHdr h r ++ leBytes 2 (ctrFor s h) ++ encodeVal r.ty v, false, 0⟩
      else refused s st

/-- WRITE and WRITE_IF (R32, R530). -/
def opWrite (s : State) (c : WCtx) (h : ItemHdr) (data : List Byte) (expected : Option Nat) : Answer :=
  let c := { c with cond := expected.isSome }
  let w := writeObj s c h data expected
  let s' := w.settled s c h
  if w.status = .ok ∨ w.status = .intransit then
    match rowFor h with
    | some r => ⟨s', w.status, itemHdr h r ++ leBytes 2 (ctrFor s' h), false, 0⟩
    | none => refused s' w.status
  else refused s' w.status

/-- The least and greatest of a row's ranges. -/
def rangeEnds (r : ObjRow) : Int × Int :=
  match r.ranges with
  | [] => (0, 0)
  | i :: l => l.foldl (fun a b => (min a.1 b.1, max a.2 b.2)) i

/-- The payload of a DESCRIBE response (Table DI-8): an alias has its target's name and the span of its own values (R51). -/
def describeBytes (own r : ObjRow) (i : Nat) : List Byte :=
  let (lo, hi) := rangeEnds own
  let d := r.dflt.value i
  let head := leBytes 1 r.ty.code ++ leBytes 1 r.acc.code ++ leBytes 1 r.unit ++ leBytes 1 0
  let body := match r.ty with
    | .str => leBytes 2 d.toBytes.length ++ d.toBytes ++ leBytes 2 lo.toNat ++ leBytes 2 hi.toNat
    | .blob => leBytes 4 d.toBytes.length ++ leBytes 4 lo.toNat ++ leBytes 4 hi.toNat
    | t => leBytes t.size d.toNat ++ leBytes t.size (toSigned (8 * t.size) lo) ++ leBytes t.size (toSigned (8 * t.size) hi)
  head ++ body ++ leBytes 2 r.name.length ++ asciiBytes r.name

/-- DESCRIBE (R19, R51, R527): a VF describes what it may read or write. -/
def opDescribe (s : State) (c : WCtx) (h : ItemHdr) : Answer :=
  match lookupObj h.index.toNat h.sub.toNat with
  | none => refused s .noobj
  | some (own, i) =>
    let t := targetOf h.index.toNat h.sub.toNat
    let (r, i) := (lookupObj t.1 t.2).getD (own, i)
    if c.role = .vf ∧ !vfReads s c.func t.1 t.2 ∧ !mayWriteObj s { c with cond := true } r t.1 t.2 c.func then refused s .access
    else if h.ty.toNat ≠ 0 ∧ h.ty.toNat ≠ r.ty.code then refused s .range
    else ⟨s, .ok, describeBytes own r i, false, 0⟩

/-- The slot that keeps a requester's transfers: its session's, or slot 48 for the trusted world's private port. -/
def transferSlot (s : State) (c : WCtx) : Nat := if c.role = .tw then 48 else (slotOfId s c.session).getD 49

/-- READ_SEG (R35): refused with STALE where the counter moved since the transfer's first segment. -/
def opReadSeg (s : State) (c : WCtx) (room : Nat) (h : ItemHdr) (offset length : Nat) : Answer :=
  match rowFor h with
  | none => refused s .noobj
  | some r =>
    let t := targetOf h.index.toNat h.sub.toNat
    let k := objKey t.1 t.2
    let i := transferSlot s c
    let ctr := ctrFor s h
    let moved : Bool := match tfind (sessOf s i).reads k with
      | some x => x != ctr
      | none => false
    if !mayReadObj s c r t.1 t.2 then refused s .access
    else if offset ≠ 0 ∧ moved then
      refused (modSess s i (fun x => { x with reads := tdel x.reads k })) .stale
    else if (h.ty.toNat ≠ 0 ∧ h.ty.toNat ≠ r.ty.code) ∨ r.ty ≠ .blob then refused s .range
    else
      let (st, v) := readObj s c t.1 t.2
      let b := v.toBytes
      if length = 0 ∨ b.length < offset then refused s .range
      else if st ≠ .ok then refused s st
      else
        let seg := ((b.drop offset).take length).take (room - 22)
        let more := decide (offset + seg.length < b.length)
        let s := modSess s i (fun x => { x with reads := if more then tset x.reads k ctr else tdel x.reads k })
        ⟨s, .ok, itemHdr h r ++ leBytes 2 ctr ++ leBytes 4 offset ++ seg, more, 0⟩

/-- The bytes of a segmented write's segments, the latest segment prevailing; a byte that no segment carried is a free value. -/
def assemble (fresh total : Nat) (segs : List (Nat × List Byte)) : List Byte :=
  segs.foldl (fun b e => b.take e.1 ++ e.2 ++ b.drop (e.1 + e.2.length))
    ((List.range total).map (fun i => BitVec.ofNat 8 (Config.freeNat (fresh + i))))

/-- WRITE_SEG (R35): applied with the segment that ends at total, if the counter has not moved since the first. -/
def opWriteSeg (s : State) (c : WCtx) (h : ItemHdr) (offset total : Nat) (data : List Byte) : Answer :=
  match rowFor h with
  | none => refused s .noobj
  | some r =>
    let t := targetOf h.index.toNat h.sub.toNat
    let k := objKey t.1 t.2
    let i := transferSlot s c
    let ctr := ctrFor s h
    let old := if offset = 0 then none else (sessOf s i).writes.find? (fun w => w.key == k)
    let drop := fun s => modSess s i (fun x => { x with writes := x.writes.filter (fun w => w.key != k) })
    let moved : Bool := match old with
      | some w => w.ctr != ctr
      | none => false
    let broken : Bool := match old with
      | some w => w.total != total
      | none => offset != 0
    if !mayWriteObj s c r t.1 t.2 0 then refused s .access
    else if moved then refused (drop s) .stale
    else if h.ty.toNat ≠ Ty.blob.code ∨ r.ty ≠ .blob ∨ 1048576 < total ∨ total < offset + data.length ∨ broken then refused s .range
    else
      let w : SegWrite := match old with
        | some w => { w with segs := w.segs ++ [(offset, data)] }
        | none => ⟨k, ctr, total, [(offset, data)]⟩
      if offset + data.length < total then
        ⟨modSess (drop s) i (fun x => { x with writes := x.writes ++ [w] }), .ok, itemHdr h r ++ leBytes 2 ctr, false, 0⟩
      else
        let s := { drop s with fresh := s.fresh + total }
        let x := Val.bytes (assemble (s.fresh - total) total w.segs)
        let out := if inRange r x then storeWrite s c r t.1 t.2 x else ⟨.range, s, [], 0⟩
        let s' := out.settled s c h
        if out.status = .ok ∨ out.status = .intransit then ⟨s', out.status, itemHdr h r ++ leBytes 2 (ctrFor s' h), false, 0⟩
        else refused s' out.status

/-- A GROUP in progress: the state with the items so far applied, the first refusal with its position, the first item that MRAM
could not take, the first queued enable. -/
structure GroupRun where
  state : State
  failed : Option (WriteOut × ItemHdr × Nat) := none
  full : Option Nat := none
  queued : Option Nat := none

/-- One item of a GROUP against the state that the items before it leave (R33). -/
def groupStep (c : WCtx) (g : GroupRun) (e : (ItemHdr × List Byte) × Nat) : GroupRun :=
  if g.failed.isSome then g
  else
    let w := writeObj g.state c e.1.1 e.1.2 none
    let n := e.2 + 1
    if !w.status.applied then { g with failed := some (w, e.1.1, n) }
    else { g with
      state := w.state
      full := if w.status = .full ∧ g.full.isNone then some n else g.full
      queued := if w.status = .intransit ∧ g.queued.isNone then some n else g.queued }

/-- GROUP (R33): all items or none. An item that MRAM cannot take is in force like a write on its own (R23). -/
def opGroup (s : State) (c : WCtx) (items : List (ItemHdr × List Byte)) : Answer :=
  let payload := leBytes 1 items.length ++ leBytes 3 0
  if 32 < items.length then refused s .range
  else
    let g := (items.zipIdx).foldl (groupStep c) { state := s }
    match g.failed, g.full, g.queued with
    | some (w, h, n), _, _ => ⟨afterRefusal s c h w, w.status, payload, false, n⟩
    | none, some n, _ => ⟨g.state, .full, payload, false, n⟩
    | none, none, some n => ⟨g.state, .intransit, payload, false, n⟩
    | none, none, none => ⟨g.state, .ok, payload, false, 0⟩

/-- The refusals that stand before RANGE in R530's order. -/
def Status.beforeRange (st : Status) : Bool := st == .lease || st == .noobj || st == .access || st == .stale

/-- A request of a known opcode whose payload has not its form: RANGE, after NOOBJ and ACCESS where an item header names an object
(R37, R530). -/
def opBadPayload (s : State) (c : WCtx) (op : Nat) (item : Option ItemHdr) : Answer :=
  match item with
  | none => refused s .range
  | some h =>
    match rowFor h with
    | none => refused s .noobj
    | some r =>
      let t := targetOf h.index.toNat h.sub.toNat
      if op = 0x11 ∨ op = 0x12 ∨ op = 0x15 then refused s (if mayWriteObj s { c with cond := op == 0x12 } r t.1 t.2 0 then .range else .access)
      else if op = 0x13 then
        (if c.role = .vf ∧ !vfReads s c.func t.1 t.2 ∧ !mayWriteObj s { c with cond := true } r t.1 t.2 c.func then refused s .access
         else refused s .range)
      else refused s (if mayReadObj s c r t.1 t.2 then .range else .access)

/-- The effect of a request within its session, whatever its carrier. -/
def execRequest (s : State) (c : WCtx) (src : Option Carrier) (room : Nat) (q : Request) : Answer :=
  match q with
  | .openSession lease tag =>
    match src with
    | some src => opOpen s src lease.toNat tag.toNat
    | none => refused s .range
  | .close => ⟨match slotOfId s c.session with | some i => closeSession s i | none => s, .ok, [], false, 0⟩
  | .keepalive => ⟨s, .ok, leBytes 8 s.now, false, 0⟩
  | .read h => opRead s c h
  | .write h d => opWrite s c h d none
  | .writeIf h e d => opWrite s c h d (some e.toNat)
  | .describe h => opDescribe s c h
  | .readSeg h o l => opReadSeg s c room h o.toNat l.toNat
  | .writeSeg h o t d => opWriteSeg s c h o.toNat t.toNat d
  | .group l => opGroup s c l
  | .subscribe m =>
    ⟨match slotOfId s c.session with | some i => modSess s i (fun x => { x with mask := m.toNat }) | none => s, .ok, [], false, 0⟩
  | .unknown _ => ⟨s, .range, [], false, 0⟩
  | .badPayload op i => opBadPayload s c op.toNat i

/-! ## Admission (R28, R30, R34, R40, R46, R528) -/

/-- The largest PDU of a carrier's transport (Table DI-9, R417). -/
def maxPdu : Carrier → Nat
  | .portal _ => 1984
  | .udp _ _ _ => 1400
  | .can => 504
  | .relay _ _ => 1024

/-- Whether requests of a carrier reach the dictionary engine: host ports from host availability on and not during a function-level
reset (R450, R291), the side-band responder with PD00, the others while the management cluster serves (R46). -/
def pathUp (s : State) : Carrier → Bool
  | .portal f => s.power.avail && funcExists s f.val && (funcOf s f.val).flrSince.isNone
  | .udp _ _ _ => s.served
  | .can => s.power.good
  | .relay _ _ => s.served

/-- Whether the responder serves a side-band request by itself (R46, R47, Table DI-3). DESIGN CHOICE (log 250): a request that names no
object, OPEN, CLOSE, KEEPALIVE, SUBSCRIBE and an unknown opcode's RANGE, the responder answers itself, never with BUSY. -/
def sbServes : Request → Bool
  | .read h => responderServes h.index.toNat
  | .write h _ => responderServes h.index.toNat
  | .writeIf h _ _ => responderServes h.index.toNat
  | .describe h => responderServes h.index.toNat
  | .readSeg h _ _ => responderServes h.index.toNat
  | .writeSeg h _ _ _ => responderServes h.index.toNat
  | .group l => l.all (fun e => responderServes e.1.index.toNat)
  | _ => true

/-- Whether a request is allowed without a session (R30); an unknown opcode gets its RANGE of R37. -/
def sessionless : Request → Bool
  | .openSession _ _ => true
  | .read _ => true
  | .describe _ => true
  | .unknown _ => true
  | .badPayload op _ => op.toNat == 0x01 || op.toNat == 0x10 || op.toNat == 0x13
  | _ => false

/-- The requester that a session or a sessionless request is (R25, R30). -/
def requester (s : State) (r : DictReq) : WCtx :=
  match slotOfId s r.session.toNat with
  | some i => { role := (sessOf s i).role, func := (sessOf s i).func, session := r.session.toNat }
  | none => { role := roleOf s r.src, func := funcOfCarrier r.src }

/-- An answer that does not fit its transport: a request that was not refused is refused with RANGE and carries no value (R40), and a
refusal keeps as much of its payload as fits. -/
def tooLong (a : Answer) (room : Nat) : Answer :=
  if a.status = .ok ∨ a.status = .intransit then ⟨a.state, .range, [], false, 0⟩
  else { a with payload := a.payload.take room }

/-- Executes an admitted request, with the refusals that come before its own (R40, R46). A PDU longer than its transport's largest is
refused with RANGE, or with the refusal that stands before RANGE (R530). -/
def admitted (s : State) (r : DictReq) (q : Request) (len : Nat) (found : Option Nat) : Answer :=
  if r.src = .can ∧ !s.served ∧ !sbServes q then refused s .busy
  else
    let a := execRequest s { requester s r with found := found } (some r.src) (maxPdu r.src) q
    if maxPdu r.src < len then ⟨s, if a.status.beforeRange then a.status else .range, [], false, 0⟩
    else if maxPdu r.src < 12 + a.payload.length then tooLong a (maxPdu r.src - 12) else a

/-- The frames that carried the last response, where it went to the side-band (R43, R44). -/
def canSent (s : State) : List (Nat × List Byte) :=
  match s.resp with
  | some (.can, x) => canResponse (getN s K.canNode) x.bytes
  | _ => []

/-- One request PDU: the session check, the renewal, the cache, the execution, the response (R28, R30, R34). The response is answered
and kept in State. -/
def dictRequest (s : State) (r : DictReq) (q : Request) (len : Nat) (found : Option Nat) : State × Option Response :=
  if !pathUp s r.src then (s, none)
  else
    let respond := fun (s : State) (x : Response) => ({ s with resp := some (r.src, x) }, some x)
    let mk := fun (a : Answer) => ({ op := opOf q, session := r.session.toNat, seq := r.seq.toNat, status := a.status, more := a.more
                                     aux := a.aux, payload := a.payload } : Response)
    if r.session = 0 then
      if !sessionless q then respond s (mk ⟨s, .lease, [], false, 0⟩)
      else let a := admitted s r q len found; respond a.state (mk a)
    else match slotOfId s r.session.toNat with
      | none => respond s (mk ⟨s, .lease, [], false, 0⟩)
      | some i =>
        if !(((sessOf s i).src.map (sameCarrier r.src)).getD false) then respond s (mk ⟨s, .lease, [], false, 0⟩)
        else
          let s := modSess s i (fun x => { x with renewed := s.now })
          match (sessOf s i).cache.find? (fun e => e.1 == r.seq.toNat) with
          | some e => respond s e.2
          | none =>
            let a := admitted s r q len found
            let x := mk a
            let s := if (slotOfId a.state r.session.toNat).isSome then
                modSess a.state i (fun y => { y with cache := lastN 4 (y.cache ++ [(r.seq.toNat, x)]) })
              else a.state
            respond s x

/-- A request that no PDU's bytes came with. -/
def request (s : State) (r : DictReq) (q : Request) (found : Option Nat := none) : Host.Outcome State Fault Refusal :=
  .next (dictRequest s r q (12 + lenOf q) found).1

/-- A write request of a number to an object, in the object's own type. -/
def numWrite (idx sub n : Nat) : Request :=
  let t := ((lookupObj idx sub).map (·.1.ty)).getD .u8
  .write ⟨BitVec.ofNat 16 idx, BitVec.ofNat 8 sub, BitVec.ofNat 8 t.code⟩ (leBytes t.size n)

/-- A conditional write of a number. -/
def numWriteIf (idx sub n : Nat) (expected : BitVec 16) : Request :=
  let t := ((lookupObj idx sub).map (·.1.ty)).getD .u8
  .writeIf ⟨BitVec.ofNat 16 idx, BitVec.ofNat 8 sub, BitVec.ofNat 8 t.code⟩ expected (leBytes t.size n)

/-- A write request of a byte string to a BLOB. -/
def blobWrite (idx sub : Nat) (b : List Byte) : Request :=
  .write ⟨BitVec.ofNat 16 idx, BitVec.ofNat 8 sub, BitVec.ofNat 8 Ty.blob.code⟩ (leBytes 2 b.length ++ b)

/-! ## The trusted world's port (R307) -/

/-- A request of the trusted world, which runs: no session, no lease, no CLAIMED. -/
def twRequest (s : State) (q : Request) : State :=
  if !firmwareRuns s then s
  else
    let a := execRequest s { role := .tw } none 1048576 q
    { a.state with twResp := some { op := opOf q, session := 0, seq := 0, status := a.status, more := a.more, aux := a.aux
                                    payload := a.payload } }

/-! ## Transports -/

/-- The bytes of a PDU that arrived on a carrier: a malformed one is counted and gets no response (R37). -/
def pduRx (s : State) (src : Carrier) (b : List Byte) : State × Option Response :=
  match parsePdu b with
  | none => (bump s K.dictRxBad, none)
  | some (id, seq, q) => dictRequest s ⟨src, BitVec.ofNat 16 id, BitVec.ofNat 16 seq⟩ q b.length none

/-- The record of a function's portal. -/
def portalOf (s : State) (f : Nat) : Portal := tget s.portals f {}

/-- Changes the record of a function's portal. -/
def modPortal (s : State) (f : Nat) (g : Portal → Portal) : State := { s with portals := tset s.portals f (g (portalOf s f)) }

/-- A write of 1 to PORTAL_GO, after the host wrote a PDU to the request area and its length to PORTAL_REQ_LEN (R41, Tables DI-10,
DI-11). -/
def portalGo (s : State) (f : Fin 65) (pdu : List Byte) : State :=
  if !pathUp s (.portal f) then s
  else
    let s := modPortal s f (fun p => { p with reqLen := pdu.length, req := pdu.take 1984 ++ p.req.drop pdu.length })
    if (portalOf s f).active then modPortal s f (fun p => { p with reject := true })
    else
    let s := modPortal s f (fun p => { p with done := false, reject := false, active := true, waiting := none })
    match pduRx s (.portal f) pdu with
    | (s, none) => modPortal s f (fun p => { p with active := false })
    | (s', some x) =>
    modPortal s' f (fun p => { p with waiting := some x.bytes, awaits := (List.range 64).filter (fun v => vfOn s v && !vfOn s' v) })

/-- The MSI-X vector of a function's portal (Table DI-11). -/
def portalVec (s : State) (f : Nat) : Nat :=
  if f = 0 then getN s K.pf0PortalVec else if f = 64 then getN s K.pf1PortalVec else getN s (K.vfPortalVec f)

/-- The response appears in the portal: DONE sets and the portal's vector is raised (R41). That of a write which disables a VF waits until
the VF's reset has completed (R286). -/
def portalAnswer (s : State) (f : Nat) : State :=
  match (portalOf s f).waiting with
  | some b =>
    if (portalOf s f).awaits.any (fun v => (funcOf s v).flrSince.isSome) then s
    else raiseVec (modPortal s f (fun p => { p with
      done := true, active := false, rspLen := b.length, rsp := b ++ p.rsp.drop b.length, waiting := none })) f (portalVec s f)
  | none => s

/-- PORTAL_STAT of a function (Table DI-11). -/
def portalStat (s : State) (f : Nat) : Nat :=
  let p := portalOf s f
  b2n p.done + 2 * b2n p.active + 4 * b2n p.reject + 256 * portalVec s f

/-- Four bytes of a portal's 4 KiB window as the host reads them: PORTAL_GO, which is write-only, the reserved offsets and what no byte
was written to read as 0 (R53, Table DI-10). -/
def readPortal (s : State) (f off : Nat) : Nat :=
  let p := portalOf s f
  if off = 0x004 then portalStat s f
  else if off = 0x008 then p.reqLen
  else if off = 0x00C then p.rspLen
  else if 0x040 ≤ off ∧ off < 0x800 then ofLe ((p.req.drop (off - 0x040)).take 4)
  else if 0x800 ≤ off ∧ off < 0xFC0 then ofLe ((p.rsp.drop (off - 0x800)).take 4)
  else 0

/-- A side-band PDU is discarded and counted; the rest of its segments are ignored (R37, R44). -/
def canDiscard (s : State) (last : Bool) : State := bump { s with can := ⟨if last then 0 else 64, []⟩ } K.dictRxBad

/-- One frame on the side-band's request identifier (R43, R44): its control byte and its PDU bytes. -/
def canSegment (s : State) (data : List Byte) : State :=
  match data with
  | [] => s
  | ctl :: b =>
    let n := ctl.toNat % 64
    let first := bitOf ctl.toNat 6
    let last := bitOf ctl.toNat 7
    let s := if first ∧ s.can.next ≠ 0 ∧ s.can.next ≠ 64 then bump s K.dictRxBad else s
    if !first ∧ s.can.next = 64 then (if last then { s with can := {} } else s)
    else
      let want := if first then 0 else s.can.next
      let acc := if first then [] else s.can.bytes
      if n ≠ want ∨ (!first ∧ want = 0) ∨ 8 ≤ n ∨ (!last ∧ b.length ≠ 63) then canDiscard s last
      else if !last then { s with can := ⟨n + 1, acc ++ b⟩ }
      else
        let all := acc ++ b
        let len := 12 + ofLe ((all.drop 8).take 2)
        let s := { s with can := {} }
        if 504 < len ∨ all.length < len ∨ (!first ∧ len ≤ acc.length) then bump s K.dictRxBad else (pduRx s .can (all.take len)).1

/-- A frame on the side-band: one on identifier 0x500 + can.node is a request segment, and wakes the module from STANDBY where
pwr.wake.can is true (R43, R445). -/
def canFrame (s : State) (ident : Nat) (data : List Byte) : State :=
  if !s.power.good ∨ ident ≠ 0x500 + getN s K.canNode then s
  else
    let wake := inMode s 3 && getB s K.pwrWakeCan
    let s := canSegment s data
    if wake && inMode s 3 then coldStart s 3 else s

/-! ## Commands of the dictionary -/

/-- OPEN (R27). An OPEN that carries an identifier is a request of that session like any other (log 34). -/
def execOpen (r : DictReq) (lease : BitVec 16) (tag : BitVec 32) (s : State) : Host.Outcome State Fault Refusal :=
  request s r (.openSession lease tag)

/-- CLOSE (R29). -/
def execClose (r : DictReq) (s : State) : Host.Outcome State Fault Refusal := request s r .close

/-- KEEPALIVE (R28). -/
def execKeepalive (r : DictReq) (s : State) : Host.Outcome State Fault Refusal := request s r .keepalive

/-- READ (R26, R30, R49). -/
def execRead (r : DictReq) (h : ItemHdr) (s : State) : Host.Outcome State Fault Refusal := request s r (.read h)

/-- WRITE (R32). -/
def execWrite (r : DictReq) (h : ItemHdr) (data : List Byte) (s : State) : Host.Outcome State Fault Refusal :=
  request s r (.write h data)

/-- WRITE_IF (R32). -/
def execWriteIf (r : DictReq) (h : ItemHdr) (expected : BitVec 16) (data : List Byte) (s : State) :
    Host.Outcome State Fault Refusal := request s r (.writeIf h expected data)

/-- DESCRIBE (R19, R527). -/
def execDescribe (r : DictReq) (h : ItemHdr) (s : State) : Host.Outcome State Fault Refusal := request s r (.describe h)

/-- READ_SEG (R35). -/
def execReadSeg (r : DictReq) (h : ItemHdr) (offset : BitVec 32) (length : BitVec 16) (s : State) :
    Host.Outcome State Fault Refusal := request s r (.readSeg h offset length)

/-- WRITE_SEG (R35). -/
def execWriteSeg (r : DictReq) (h : ItemHdr) (offset total : BitVec 32) (data : List Byte) (s : State) :
    Host.Outcome State Fault Refusal := request s r (.writeSeg h offset total data)

/-- GROUP (R33). -/
def execGroup (r : DictReq) (items : List (ItemHdr × List Byte)) (s : State) : Host.Outcome State Fault Refusal :=
  request s r (.group items)

/-- SUBSCRIBE (R39). -/
def execSubscribe (r : DictReq) (mask : BitVec 32) (s : State) : Host.Outcome State Fault Refusal := request s r (.subscribe mask)

/-- MALFORMED_PDU: discarded and counted (R37). -/
def execMalformedPdu (pdu : List Byte) (s : State) : Host.Outcome State Fault Refusal :=
  .next (if (parsePdu pdu).isNone then bump s K.dictRxBad else s)

/-- The request opcodes of Table DI-8. -/
def requestOps : List Nat := [0x01, 0x02, 0x03, 0x10, 0x11, 0x12, 0x13, 0x14, 0x15, 0x16, 0x20]

/-- UNKNOWN_OPCODE: answered with RANGE and an empty payload (R37). -/
def execUnknownOpcode (r : DictReq) (op : BitVec 8) (s : State) : Host.Outcome State Fault Refusal :=
  if requestOps.contains op.toNat then .next s else request s r (.unknown op)

/-- LEASE_EXPIRY: a check of the leases ends each session whose full lease has passed since its last renewal (R28, R29). -/
def execLeaseExpiry (s : State) : Host.Outcome State Fault Refusal :=
  .next (closeWhere s (fun x => decide (x.renewed + x.lease * 1000000 ≤ s.now)))

/-- PORTAL_GO (R41). -/
def execPortalGo (f : Fin 65) (pdu : List Byte) (s : State) : Host.Outcome State Fault Refusal := .next (portalGo s f pdu)

/-- PORTAL_RESPONSE (R41). -/
def execPortalResponse (f : Fin 65) (s : State) : Host.Outcome State Fault Refusal := .next (portalAnswer s f)

/-- CAN_SEGMENT_RX (R44). -/
def execCanSegmentRx (ident : BitVec 11) (data : List Byte) (s : State) : Host.Outcome State Fault Refusal :=
  .next (canFrame s ident.toNat data)

/-- WAKE_CAN_FRAME: a frame on identifier 0x500 + can.node (R445). -/
def execWakeCanFrame (data : List Byte) (s : State) : Host.Outcome State Fault Refusal :=
  .next (canFrame s (0x500 + getN s K.canNode) data)

/-- The identifier of the module's event frames (R43). -/
def eventIdent (s : State) : Nat := 0x0C0 + getN s K.canNode

/-- EVENT_FRAME_TX: the bus takes the oldest waiting Kaolin frame, or the oldest frame where none is Kaolin's (R45, R159). -/
def execEventFrameTx (s : State) : Host.Outcome State Fault Refusal :=
  if !s.power.good then .next s
  else match s.frames.find? (·.kaolin) with
    | some x => .next { s with frames := s.frames.eraseP (·.kaolin), frameSent := some (eventIdent s, x.note.frame) }
    | none =>
      match s.frames with
      | [] => .next s
      | x :: l => .next { s with frames := l, frameSent := some (eventIdent s, x.note.frame) }

/-- SYS_DEFAULTS: a write of sys.defaults (R18, R23). -/
def execSysDefaults (r : DictReq) (value : BitVec 8) (s : State) : Host.Outcome State Fault Refusal :=
  request s r (numWrite 0x1F00 0 value.toNat)

/-- TW_DICT_REQUEST (R307). -/
def execTwDictRequest (q : Request) (s : State) : Host.Outcome State Fault Refusal := .next (twRequest s q)

/-- FAB_RELAY_WRITE (R417). -/
def execFabRelayWrite (r : DictReq) (data : List Byte) (s : State) : Host.Outcome State Fault Refusal :=
  request s r (blobWrite 0x9100 0 data)

/-- FAB_RELAY_READ (R417). -/
def execFabRelayRead (r : DictReq) (s : State) : Host.Outcome State Fault Refusal := request s r (.read ⟨0x9100, 0, 0⟩)

/-- RELAYED_PDU_RX: a PDU relayed from another module is executed as a request of its fabric port (R418). -/
def execRelayedPduRx (serial : BitVec 64) (mgr : Bool) (pdu : List Byte) (s : State) : Host.Outcome State Fault Refusal :=
  if s.served then .next (pduRx s (.relay serial mgr) pdu).1 else .next s

/-- RELAY_REPLY_RX: the reply to a session's last relayed request is stored (R417, R418). -/
def execRelayReplyRx (session : BitVec 16) (pdu : List Byte) (s : State) : Host.Outcome State Fault Refusal :=
  match slotOfId s session.toNat with
  | none => .next s
  | some i =>
    if (sessOf s i).relayWait then .next (modSess s i (fun x => { x with relayWait := false, relayReply := some pdu })) else .next s

end Sys2Proof.Machine
end

