-- ==== Sys2Proof/Machine/Commands.lean ====
section
/-!
DEFINITION. The commands that are a write of one named object with a step of its own: each is a dictionary request (R32) that carries
that write, or a request at the trusted world's port (R307). What the write does is said where the object's block is modelled, and the
general WRITE reaches the same step.
-/

namespace Sys2Proof.Machine

/-- A request that writes a number to the object of a key. -/
def writeObject (s : State) (r : DictReq) (k n : Nat) (found : Option Nat := none) : Host.Outcome State Fault Refusal :=
  request s r (numWrite (k / 256) (k % 256) n) found

/-- A conditional write of a function's number to the owner object of a key (R75). -/
def claimObject (s : State) (r : DictReq) (k : Nat) (expected : BitVec 16) (owner : BitVec 8) : Host.Outcome State Fault Refusal :=
  request s r (numWriteIf (k / 256) (k % 256) owner.toNat expected)

/-- A write of the trusted world to the object of a key. -/
def twWriteObject (s : State) (k n : Nat) : Host.Outcome State Fault Refusal :=
  .next (twRequest s (numWrite (k / 256) (k % 256) n))

/-- FENCE_CLAIM (R228). -/
def execFenceClaim (r : DictReq) (slot : Fin 256) (expected : BitVec 16) (owner : BitVec 8) (s : State) : Host.Outcome State Fault Refusal :=
  claimObject s r (K.fenceOwner slot) expected owner

/-- FENCE_VALUE_WRITE (R229). -/
def execFenceValueWrite (r : DictReq) (slot : Fin 256) (value : BitVec 64) (s : State) : Host.Outcome State Fault Refusal :=
  writeObject s r (K.fenceValue slot) value.toNat

/-- PROG_CLAIM (R174). -/
def execProgClaim (r : DictReq) (slot : Fin 256) (expected : BitVec 16) (owner : BitVec 8) (s : State) : Host.Outcome State Fault Refusal :=
  claimObject s r (K.progOwner slot) expected owner

/-- CTX_ENABLE (R214). -/
def execCtxEnable (r : DictReq) (ctx : Fin 64) (s : State) : Host.Outcome State Fault Refusal :=
  writeObject s r (K.ctxEnable ctx) 1

/-- CTX_DISABLE (R214). -/
def execCtxDisable (r : DictReq) (ctx : Fin 64) (s : State) : Host.Outcome State Fault Refusal :=
  writeObject s r (K.ctxEnable ctx) 0

/-- SURF_CLAIM (R75). -/
def execSurfClaim (r : DictReq) (slot : Fin 2048) (expected : BitVec 16) (owner : BitVec 8) (s : State) : Host.Outcome State Fault Refusal :=
  claimObject s r (K.surfOwner slot) expected owner

/-- SURF_ALLOC: a write of 1 to surf.alloc (R76). -/
def execSurfAlloc (r : DictReq) (slot : Fin 2048) (s : State) : Host.Outcome State Fault Refusal :=
  writeObject s r (K.surfAlloc slot) 1

/-- SURF_RELEASE: a write of 0 to surf.alloc (R81). -/
def execSurfRelease (r : DictReq) (slot : Fin 2048) (s : State) : Host.Outcome State Fault Refusal :=
  writeObject s r (K.surfAlloc slot) 0

/-- OUT_COMMIT (R121). -/
def execOutCommit (r : DictReq) (port : Fin 8) (value : BitVec 8) (s : State) : Host.Outcome State Fault Refusal :=
  writeObject s r (K.outCommit port) value.toNat

/-- OUT_ENABLE (R132). -/
def execOutEnable (r : DictReq) (port : Fin 8) (s : State) : Host.Outcome State Fault Refusal :=
  writeObject s r (K.outEnable port) 1

/-- OUT_DISABLE (R133). -/
def execOutDisable (r : DictReq) (port : Fin 8) (s : State) : Host.Outcome State Fault Refusal :=
  writeObject s r (K.outEnable port) 0

/-- OUT_MODE_WRITE (R134). -/
def execOutModeWrite (r : DictReq) (port : Fin 8) (mode : BitVec 8) (s : State) : Host.Outcome State Fault Refusal :=
  writeObject s r (K.outMode port) mode.toNat

/-- KAOLIN_COMMIT: the trusted world writes kaolin.commit (R151). -/
def execKaolinCommit (port : Fin 8) (value : BitVec 8) (s : State) : Host.Outcome State Fault Refusal :=
  twWriteObject s (K.kaolinCommit port) value.toNat

/-- MEM_RETIRE_REQ (R275). -/
def execMemRetireReq (r : DictReq) (rank : BitVec 8) (s : State) : Host.Outcome State Fault Refusal :=
  writeObject s r K.memRetireReq rank.toNat

/-- MEM_INJ_ARM (R277). -/
def execMemInjArm (r : DictReq) (value : Bool) (s : State) : Host.Outcome State Fault Refusal :=
  writeObject s r K.memInjArm (b2n value)

/-- VF_ENABLE (R283). -/
def execVfEnable (r : DictReq) (vf : Fin 64) (s : State) : Host.Outcome State Fault Refusal :=
  writeObject s r (K.vfEnable vf) 1

/-- VF_DISABLE (R286). -/
def execVfDisable (r : DictReq) (vf : Fin 64) (s : State) : Host.Outcome State Fault Refusal :=
  writeObject s r (K.vfEnable vf) 0

/-- GRANT_WRITE (R285). -/
def execGrantWrite (r : DictReq) (vf : Fin 64) (sub : BitVec 8) (value : BitVec 32) (s : State) : Host.Outcome State Fault Refusal :=
  writeObject s r (objKey (0x6001 + 0x40 * vf) sub.toNat) value.toNat

/-- GRANT_SHARE_WRITE (R294). -/
def execGrantShareWrite (r : DictReq) (vf : Fin 64) (value : BitVec 16) (s : State) : Host.Outcome State Fault Refusal :=
  writeObject s r (K.grantShare vf) value.toNat

/-- REGION_WRITE: the VF's screen regions 0 to 7, or its touch regions (R288). -/
def execRegionWrite (r : DictReq) (vf : Fin 64) (touch : Bool) (region : Fin 8) (sub : BitVec 8) (value : BitVec 32) (s : State) : Host.Outcome State Fault Refusal :=
  writeObject s r (objKey ((if touch then 0x6010 else 0x6008) + 0x40 * vf + region) sub.toNat) value.toNat

/-- RING_OWNER_WRITE (R284). -/
def execRingOwnerWrite (r : DictReq) (ring : Fin 256) (owner : BitVec 8) (s : State) : Host.Outcome State Fault Refusal :=
  writeObject s r (K.ringOwner ring) owner.toNat

/-- RING_ENABLE (R56). -/
def execRingEnable (r : DictReq) (ring : Fin 256) (value : Bool) (s : State) : Host.Outcome State Fault Refusal :=
  writeObject s r (K.ringEnable ring) (b2n value)

/-- RING_ORDER_WRITE (R295). -/
def execRingOrderWrite (r : DictReq) (ring : Fin 256) (order : BitVec 8) (s : State) : Host.Outcome State Fault Refusal :=
  writeObject s r (K.ringOrder ring) order.toNat

/-- VF_FLR (R291). -/
def execVfFlr (r : DictReq) (vf : Fin 64) (value : BitVec 8) (s : State) : Host.Outcome State Fault Refusal :=
  writeObject s r (K.vfFlr vf) value.toNat

/-- MIG_FREEZE (R297). -/
def execMigFreeze (r : DictReq) (vf : Fin 64) (s : State) : Host.Outcome State Fault Refusal :=
  writeObject s r (K.migFreeze vf) 1

/-- MIG_THAW (R298). -/
def execMigThaw (r : DictReq) (vf : Fin 64) (s : State) : Host.Outcome State Fault Refusal :=
  writeObject s r (K.migFreeze vf) 0

/-- MIG_SAVE: mig.op 1 (R298). -/
def execMigSave (r : DictReq) (vf : Fin 64) (s : State) : Host.Outcome State Fault Refusal :=
  writeObject s r (K.migOp vf) 1

/-- MIG_RESTORE: mig.op 2 (R301). -/
def execMigRestore (r : DictReq) (vf : Fin 64) (s : State) : Host.Outcome State Fault Refusal :=
  writeObject s r (K.migOp vf) 2

/-- LOG_ENABLE (R303). -/
def execLogEnable (r : DictReq) (vf : Fin 64) (value : Bool) (s : State) : Host.Outcome State Fault Refusal :=
  writeObject s r (K.logEnable vf) (b2n value)

/-- LOG_SWAP (R304). -/
def execLogSwap (r : DictReq) (vf : Fin 64) (value : BitVec 8) (s : State) : Host.Outcome State Fault Refusal :=
  writeObject s r (K.logSwap vf) value.toNat

/-- PIN_T_WRITE: the trusted world assigns a side pin (R314). -/
def execPinTWrite (pin : Fin 96) (trusted : Bool) (s : State) : Host.Outcome State Fault Refusal :=
  twWriteObject s (K.pinT pin) (b2n trusted)

/-- DMA_T_WRITE: the trusted world assigns a DMA channel (R314). -/
def execDmaTWrite (chan : Fin 32) (trusted : Bool) (s : State) : Host.Outcome State Fault Refusal :=
  twWriteObject s (K.dmaT chan) (b2n trusted)

/-- CLAIM_HOLD_WRITE (R317). -/
def execClaimHoldWrite (domain : Fin 24) (value : Bool) (s : State) : Host.Outcome State Fault Refusal :=
  twWriteObject s (K.claimHold domain) (b2n value)

/-- ATT_NONCE_WRITE (R331). -/
def execAttNonceWrite (r : DictReq) (nonce : List Byte) (s : State) : Host.Outcome State Fault Refusal :=
  request s r (blobWrite 0x7081 1 nonce)

/-- PANEL_ENABLE (R362). -/
def execPanelEnable (r : DictReq) (panel : Fin 4) (s : State) : Host.Outcome State Fault Refusal :=
  writeObject s r (K.panelEnable panel) 1

/-- PANEL_DISABLE (R363). -/
def execPanelDisable (r : DictReq) (panel : Fin 4) (s : State) : Host.Outcome State Fault Refusal :=
  writeObject s r (K.panelEnable panel) 0

/-- PANEL_REF_CAPTURE (R344). -/
def execPanelRefCapture (r : DictReq) (panel : Fin 4) (value : BitVec 8) (s : State) : Host.Outcome State Fault Refusal :=
  writeObject s r (K.panelRefCapture panel) value.toNat

/-- PANEL_TEST_RUN (R361). -/
def execPanelTestRun (r : DictReq) (panel : Fin 4) (value : BitVec 8) (s : State) : Host.Outcome State Fault Refusal :=
  writeObject s r (K.panelTestRun panel) value.toNat

/-- CH_RESET: the further probe finds capNf (R380). -/
def execChReset (r : DictReq) (chan : Fin 16) (value : BitVec 8) (capNf : BitVec 32) (s : State) : Host.Outcome State Fault Refusal :=
  writeObject s r (K.chReset chan) value.toNat (some capNf.toNat)

/-- HAP_ENABLE (R384). -/
def execHapEnable (r : DictReq) (s : State) : Host.Outcome State Fault Refusal :=
  writeObject s r K.hapEnable 1

/-- HAP_DISABLE (R385). -/
def execHapDisable (r : DictReq) (s : State) : Host.Outcome State Fault Refusal :=
  writeObject s r K.hapEnable 0

/-- SND_ENABLE (R390). -/
def execSndEnable (r : DictReq) (s : State) : Host.Outcome State Fault Refusal :=
  writeObject s r K.sndEnable 1

/-- SND_DISABLE (R390). -/
def execSndDisable (r : DictReq) (s : State) : Host.Outcome State Fault Refusal :=
  writeObject s r K.sndEnable 0

/-- STREAM_ENABLE: an input stream 0 to 63 or a capture stream 0 to 15 (R391). -/
def execStreamEnable (r : DictReq) (capture : Bool) (number : Fin 64) (value : Bool) (s : State) : Host.Outcome State Fault Refusal :=
  writeObject s r (if capture then K.capEn number else K.inEn number) (b2n value)

/-- SPREAD_ENABLE (R419). -/
def execSpreadEnable (r : DictReq) (spread : Fin 8) (s : State) : Host.Outcome State Fault Refusal :=
  writeObject s r (K.spreadEnable spread) 1

/-- SPREAD_DISABLE (R431). -/
def execSpreadDisable (r : DictReq) (spread : Fin 8) (s : State) : Host.Outcome State Fault Refusal :=
  writeObject s r (K.spreadEnable spread) 0

/-- SPREAD_COMMIT (R427). -/
def execSpreadCommit (r : DictReq) (spread : Fin 8) (value : BitVec 8) (s : State) : Host.Outcome State Fault Refusal :=
  writeObject s r (K.spreadCommit spread) value.toNat

/-- DOM_HOLD_WRITE (R438). -/
def execDomHoldWrite (r : DictReq) (domain : Fin 24) (value : Bool) (s : State) : Host.Outcome State Fault Refusal :=
  writeObject s r (K.domHold domain) (b2n value)

/-- DOM_TW_WRITE (R440). -/
def execDomTwWrite (domain : Fin 24) (value : Bool) (s : State) : Host.Outcome State Fault Refusal :=
  twWriteObject s (K.domTw domain) (b2n value)

/-- PWR_REQ_STANDBY: a write of 3 to pwr.req (R442). -/
def execPwrReqStandby (r : DictReq) (s : State) : Host.Outcome State Fault Refusal :=
  writeObject s r K.pwrReq 3

/-- PWR_REQ_RUN: a write of 1 to pwr.req (R444). -/
def execPwrReqRun (r : DictReq) (s : State) : Host.Outcome State Fault Refusal :=
  writeObject s r K.pwrReq 1

/-- PWR_RESET (R446). -/
def execPwrReset (r : DictReq) (value : BitVec 8) (s : State) : Host.Outcome State Fault Refusal :=
  writeObject s r K.pwrReset value.toNat

/-- ISL_GATE_WRITE (R461). -/
def execIslGateWrite (r : DictReq) (island : Fin 40) (value : Bool) (s : State) : Host.Outcome State Fault Refusal :=
  writeObject s r (K.islGate island) (b2n value)

/-- ISL_RATE_WRITE (R461). -/
def execIslRateWrite (r : DictReq) (island : Fin 40) (value : BitVec 16) (s : State) : Host.Outcome State Fault Refusal :=
  writeObject s r (K.islRate island) value.toNat

/-- GROG_RETEST: the test finds whether the unit passes (R477). -/
def execGrogRetest (r : DictReq) (value : BitVec 16) (passes : Bool) (s : State) : Host.Outcome State Fault Refusal :=
  writeObject s r K.grogRetest value.toNat (some (b2n passes))

/-- DIAG_ENABLE (R484). -/
def execDiagEnable (r : DictReq) (value : Bool) (s : State) : Host.Outcome State Fault Refusal :=
  writeObject s r K.diagEnable (b2n value)

/-- SP_FUNC_WRITE (R504). -/
def execSpFuncWrite (r : DictReq) (pin : Fin 96) (value : BitVec 8) (s : State) : Host.Outcome State Fault Refusal :=
  writeObject s r (K.spFunc pin) value.toNat

/-- SP_PWM_WRITE: sp.pwm.freq or sp.pwm.duty (R504). -/
def execSpPwmWrite (r : DictReq) (pin : Fin 96) (freq : Bool) (value : BitVec 32) (s : State) : Host.Outcome State Fault Refusal :=
  writeObject s r (if freq then K.spPwmFreq pin else K.spPwmDuty pin) value.toNat

end Sys2Proof.Machine
end

