-- ==== Sys2Proof/Machine/Copy.lean ====
section
/-!
DEFINITION. The copy and convert engines (R82 to R85, R103) and the overwriting of released surfaces (R81).
-/

namespace Sys2Proof.Machine

/-- Whether a rectangle lies wholly inside a slot's surface, with even coordinates and sizes for YUV (R79, R83). -/
def rectInside (s : State) (i x y w h : Nat) : Bool :=
  decide (x + w ≤ getN s (K.surfWidth i) ∧ y + h ≤ getN s (K.surfHeight i))
    && (!isYuv (getN s (K.surfFormat i)) || (x % 2 == 0 && y % 2 == 0 && w % 2 == 0 && h % 2 == 0))

/-- A pixel of a rectangle, or a pair of chroma samples: its line and offset in the line at the host's end, its offset in the surface,
its bytes. -/
structure Run where
  line : Nat
  at_ : Nat
  off : Nat
  len : Nat

/-- The pixels of a rectangle in line order; the lines of plane 1 follow those of plane 0 (R78, R83, log 110). -/
def rectRuns (s : State) (i x y w h : Nat) : List Run :=
  let fmt := getN s (K.surfFormat i)
  let b := strideBytes fmt
  let luma := (List.range h).flatMap (fun j => (List.range w).map (fun k => (⟨j, k * b, pixelOffset s i (x + k) (y + j), b⟩ : Run)))
  let pair := fun (k j : Nat) =>
    chromaAt fmt (getN s (K.surfLayout i)) (getN s (K.surfWidth i)) (getN s (K.surfHeight i)) (x + 2 * k) (y + 2 * j)
  if isYuv fmt then
    luma ++ (List.range (h / 2)).flatMap (fun j => (List.range (w / 2)).map (fun k => ⟨h + j, 2 * k * b, pair k j, 2 * b⟩))
  else luma

/-- The bytes that a list of runs covers. -/
def runBytes (rs : List Run) : Nat := (rs.map (·.len)).sum

/-- The offsets of the bytes of a list of runs. -/
def runCells (rs : List Run) : List Nat := rs.flatMap (fun r => (List.range r.len).map (r.off + ·))

/-- The host address of a run. -/
def runAddr (p : CopyPayload) (r : Run) : Nat := p.host.toNat + p.pitch.toNat * r.line + r.at_

/-- Whether a COPY may run (R79, R80, R82, R83). One whose host accesses the translation refuses may not (log 279). -/
def copyOk (s : State) (f surface : Nat) (bad : List (Nat × Nat)) (p : CopyPayload) : Bool :=
  let i := slotOf surface
  let fmt := getN s (K.surfFormat i)
  let k := p.kind.toNat
  let w := p.rect.w.toNat
  handleValid s surface && k ≤ 3 && rectInside s i p.rect.x.toNat p.rect.y.toNat w p.rect.h.toNat
    && (1 < k || (decide (w * strideBytes fmt ≤ p.pitch.toNat)
      && (rectRuns s i p.rect.x.toNat p.rect.y.toNat w p.rect.h.toNat).all (fun r => hostReaches bad (runAddr p r) r.len)))
    && (k != 3 || !(isYuv fmt || fmt == 6))
    && (k != 2 || (mayRead s f p.src.toNat && getN s (K.surfFormat (slotOf p.src.toNat)) == fmt
      && rectInside s (slotOf p.src.toNat) p.sx.toNat p.sy.toNat w p.rect.h.toNat))

/-- Host to surface. -/
def copyIn (s : State) (f i : Nat) (p : CopyPayload) (rs : List Run) : State :=
  writeCells s i ((runCells rs).zip (rs.flatMap (fun r => (hostRead s f (runAddr p r) r.len).map some)))

/-- Surface to host: the bytes of poisoned words stay unwritten; the poisoned words (R103). -/
def copyOut (s : State) (f i : Nat) (p : CopyPayload) (rs : List Run) : State × List Nat :=
  match readCells s i (runCells rs) with
  | (s, bs, bad) =>
    let places := rs.flatMap (fun r => (List.range r.len).map (runAddr p r + ·))
    ((places.zip bs).foldl (fun s e => match e.2 with
      | some b => hostWrite s f e.1 [b]
      | none => s) s, bad)

/-- Surface to surface: the whole rectangle is read, then written. Lost data stays lost: the words to which it would go are poisoned
(R9, log 111). -/
def copyAcross (s : State) (i j : Nat) (src dst : List Run) : State :=
  match readCells s j (runCells src) with
  | (s, bs, _) => writeCells s i ((runCells dst).zip bs)

/-- Fill: the pixel value in the surface's own layout. -/
def copyFill (s : State) (i : Nat) (p : CopyPayload) (rs : List Run) : State :=
  writeCells s i ((runCells rs).zip (rs.flatMap (fun r => (List.range r.len).map (fun k => some (BitVec.ofNat 8 (p.fill.toNat / 256 ^ k))))))

/-- COPY (R82, R83, R103). -/
def execCopy (h : CmdHdr) (p : CopyPayload) (s : State) : Host.Outcome State Fault Refusal :=
  match beginCmd s h 0x20 p.bytes (p.kind.toNat != 1) with
  | (s, none) => .next s
  | (s, some t) =>
    if !copyOk s t.func h.surface.toNat (badHost h) p then .next (completeOpen s t 3)
    else
      let i := slotOf h.surface.toNat
      let rs := rectRuns s i p.rect.x.toNat p.rect.y.toNat p.rect.w.toNat p.rect.h.toNat
      let n := runBytes rs
      if p.kind.toNat = 0 then .next (completeR (copyIn s t.func i p rs) t 0 n)
      else if p.kind.toNat = 1 then
        match copyOut s t.func i p rs with
        | (s, []) => .next (completeR s t 0 n)
        | (s, bad) => .next (complete (draw s) t 3 (Config.freeNat s.fresh) bad.dedup.length)
      else if p.kind.toNat = 2 then
        let j := slotOf p.src.toNat
        .next (completeR (copyAcross s i j (rectRuns s j p.sx.toNat p.sy.toNat p.rect.w.toNat p.rect.h.toNat) rs) t 0 n)
      else .next (completeR (copyFill s i p rs) t 0 n)

/-! ## CONVERT (R84) -/

/-- Whether a destination length is between 1/8 and 8 times a source length (R84). -/
def scaleOk (src dst : Nat) : Bool := decide (src ≤ 8 * dst ∧ dst ≤ 8 * src)

/-- The width and height of a CONVERT's source after its rotation. -/
def turnedSize (p : ConvertPayload) : Nat × Nat :=
  if p.rot.toNat % 2 = 1 then (p.srect.h.toNat, p.srect.w.toNat) else (p.srect.w.toNat, p.srect.h.toNat)

/-- Whether a CONVERT may run (R79, R80, R84). -/
def convertOk (s : State) (f surface : Nat) (p : ConvertPayload) : Bool :=
  handleValid s surface && mayRead s f p.src.toNat && p.rot.toNat ≤ 3 && p.filter.toNat ≤ 2 && p.matrix.toNat ≤ 3
    && p.flags.toNat ≤ 1
    && rectInside s (slotOf p.src.toNat) p.srect.x.toNat p.srect.y.toNat p.srect.w.toNat p.srect.h.toNat
    && rectInside s (slotOf surface) p.drect.x.toNat p.drect.y.toNat p.drect.w.toNat p.drect.h.toNat
    && scaleOk (turnedSize p).1 p.drect.w.toNat && scaleOk (turnedSize p).2 p.drect.h.toNat

/-- The source pixel that lies at (x, y) of the mirrored and rotated source (R84). -/
def convertFrom (p : ConvertPayload) (x y : Nat) : Nat × Nat :=
  let a := turnBack p.rot.toNat p.srect.w.toNat p.srect.h.toNat x y
  (if bitOf p.flags.toNat 0 then p.srect.w.toNat - 1 - a.1 else a.1, a.2)

/-- The bytes of a pixel, none where one is lost. -/
def whole : List (Option Byte) → Option (List Byte)
  | [] => some []
  | none :: _ => none
  | some b :: r => (whole r).map (b :: ·)

/-- The colour of the pixel (x, y) of a w × h rectangle from its bytes; none where it is lost (R90, Table CM-3). -/
def cellColour (fmt matrix w h : Nat) (bs : List (Option Byte)) (x y : Nat) : Option Rgba :=
  let n := strideBytes fmt
  let part := fun (k m : Nat) => whole ((bs.drop k).take m)
  if isYuv fmt then
    let bits := if n = 1 then 8 else 10
    let code := fun (l : List Byte) => if n = 1 then ofLe l else ofLe l / 64
    match part ((y * w + x) * n) n, part (w * h * n + (y / 2 * (w / 2) + x / 2) * (2 * n)) (2 * n) with
    | some l, some c => some (yuvRgb matrix bits (code l) (code (c.take n)) (code (c.drop n)))
    | _, _ => none
  else (part ((y * w + x) * n) n).map (fun l => decodePixel fmt (ofLe l))

/-- Where the centre of pixel i of n lies in m pixels (log 112). -/
def centreIn (i n m : Nat) : ℚ := (2 * i + 1) * m / (2 * max 1 n)

/-- A whole position held to 0 to n - 1. -/
def held (n : Nat) (i : Int) : Nat := min i.toNat (n - 1)

/-- The colour that the filter gives the pixel (x, y) of the destination: the nearest source pixel, four weighted, or what the four-tap
filter, whose weights are not stated, makes of sixteen; none where one of them is lost (R84, log 112). -/
def filterColour (p : ConvertPayload) (src : Nat → Nat → Option Rgba) (x y : Nat) : Option Rgba :=
  let (w, h) := turnedSize p
  let u := centreIn x p.drect.w.toNat w
  let v := centreIn y p.drect.h.toNat h
  let tap := fun (i j : Int) => let a := convertFrom p (held w i) (held h j); src a.1 a.2
  if p.filter.toNat = 0 then tap u.floor v.floor
  else
    let i := (u - 1 / 2).floor
    let j := (v - 1 / 2).floor
    if p.filter.toNat = 1 then
      match tap i j, tap (i + 1) j, tap i (j + 1), tap (i + 1) (j + 1) with
      | some a, some b, some c, some d => some (bilinear (u - 1 / 2 - i) (v - 1 / 2 - j) a b c d)
      | _, _, _, _ => none
    else
      let taps := (List.range 16).map (fun k => tap (i - 1 + (k % 4 : Nat)) (j - 1 + (k / 4 : Nat)))
      if taps.any (·.isNone) then none
      else
        let q := Config.fourTap (taps.map (fun t => (t.getD {}).list)) (u - 1 / 2 - i) (v - 1 / 2 - j)
        some (Rgba.ofList q)

/-- The mean of four colours, none where one is lost. -/
def meanColour : List (Option Rgba) → Option Rgba
  | [some a, some b, some c, some d] =>
    some ⟨(a.r + b.r + c.r + d.r) / 4, (a.g + b.g + c.g + d.g) / 4, (a.b + b.b + c.b + d.b) / 4, (a.a + b.a + c.a + d.a) / 4⟩
  | _ => none

/-- `n` bytes of a number, or as many lost ones. -/
def cellsOf (n : Nat) (v : Option Nat) : List (Option Byte) :=
  match v with
  | some v => (leBytes n v).map some
  | none => List.replicate n none

/-- The bytes of a w × h rectangle of a format, in the order of rectRuns, from the colours of its pixels (R84, R90, log 262). -/
def rectBytes (fmt matrix w h : Nat) (pad : Nat → Nat → Byte) (c : Nat → Nat → Option Rgba) : List (Option Byte) :=
  let n := strideBytes fmt
  let at_ := fun (k : Nat) => c (k % w) (k / w)
  if isYuv fmt then
    let bits := if n = 1 then 8 else 10
    let code := fun (v : Nat) => if n = 1 then v else v * 64
    (List.range (w * h)).flatMap (fun k => cellsOf n ((at_ k).map (fun q => code (rgbYuv matrix bits q).1)))
      ++ (List.range (w / 2 * (h / 2))).flatMap (fun k =>
        let x := 2 * (k % (w / 2))
        let y := 2 * (k / (w / 2))
        cellsOf (2 * n) ((meanColour [c x y, c (x + 1) y, c x (y + 1), c (x + 1) (y + 1)]).map (fun q =>
          code (rgbYuv matrix bits q).2.1 + 256 ^ n * code (rgbYuv matrix bits q).2.2)))
  else (List.range (w * h)).flatMap (fun k => cellsOf n ((at_ k).map (encodePixel fmt (pad (k % w) (k / w)))))

/-- Whether a conversion only moves pixels: the nearest pixel, in one format that is not YUV. -/
def convertMoves (fmt fmt' : Nat) (p : ConvertPayload) : Bool := p.filter.toNat == 0 && fmt == fmt' && !isYuv fmt

/-- The bytes that a CONVERT puts into its destination rectangle, in the order of rectRuns. -/
def convertBytes (s : State) (i j : Nat) (p : ConvertPayload) (bs : List (Option Byte)) : List (Option Byte) :=
  let fmt := getN s (K.surfFormat j)
  let fmt' := getN s (K.surfFormat i)
  let w := p.drect.w.toNat
  let h := p.drect.h.toNat
  let n := strideBytes fmt
  if convertMoves fmt fmt' p then
    (List.range (w * h)).flatMap (fun k =>
      let a := convertFrom p (held (turnedSize p).1 (centreIn (k % w) w (turnedSize p).1).floor)
        (held (turnedSize p).2 (centreIn (k / w) h (turnedSize p).2).floor)
      (bs.drop ((a.2 * p.srect.w.toNat + a.1) * n)).take n)
  else
    rectBytes fmt' p.matrix.toNat w h (fun x y => Config.padding (pixelOffset s i (p.drect.x.toNat + x) (p.drect.y.toNat + y)))
      (filterColour p (cellColour fmt p.matrix.toNat p.srect.w.toNat p.srect.h.toNat bs))

/-- CONVERT (R84): the source rectangle is read, then its conversion written; lost data stays lost (R9, log 111). -/
def execConvert (h : CmdHdr) (p : ConvertPayload) (s : State) : Host.Outcome State Fault Refusal :=
  match beginCmd s h 0x21 p.bytes true with
  | (s, none) => .next s
  | (s, some t) =>
    if !convertOk s t.func h.surface.toNat p then .next (completeOpen s t 3)
    else
      let i := slotOf h.surface.toNat
      let j := slotOf p.src.toNat
      let src := rectRuns s j p.srect.x.toNat p.srect.y.toNat p.srect.w.toNat p.srect.h.toNat
      let dst := rectRuns s i p.drect.x.toNat p.drect.y.toNat p.drect.w.toNat p.drect.h.toNat
      match readCells s j (runCells src) with
      | (s, bs, _) => .next (completeOpen (writeCells s i ((runCells dst).zip (convertBytes s i j p bs))) t 0)

/-- Whether work already fetched still names a handle (R81). -/
def handleInUse (s : State) (handle : Nat) : Bool := s.ctxs.any (fun e => e.2.passes.any (fun p => p.handles.contains handle))

/-- SURF_SCRUB_DONE: once no fetched command names the released surface, its memory is zeroed and returned to the quota (R81). -/
def execSurfScrubDone (slot : Fin 2048) (s : State) : Host.Outcome State Fault Refusal :=
  match s.scrubs.find? (fun x => x.slot == slot.val) with
  | none => .next s
  | some x => if handleInUse s x.handle then .next s else .next (scrubSurface s slot)

end Sys2Proof.Machine
end

