-- ==== Sys2Proof/Machine/Snapshot.lean ====
section
/-!
DEFINITION. The snapshot mailbox (R69 to R72) and a host write to any BAR0 register (R52).
-/

namespace Sys2Proof.Machine

/-- The value of a snapshot source for a function, or none where the instance is not present or not granted (R71, Table FP-11). -/
def snapSource (s : State) (f src inst : Nat) : Option Nat :=
  let port := decide (inst < 8) && (f == 0 || ownsOn s f inst)
  if src = 1 then (if inst = 0 then some s.now else none)
  else if src = 2 then (if port then some (portOf s inst).frame else none)
  else if src = 3 then (if port then some (portOf s inst).lastTake else none)
  else if src = 4 ∨ src = 5 then
    if 16 ≤ inst then none
    else (ringFor s f inst).map (fun h => if src = 4 then (ringOf s h).fetched else (ringOf s h).completed)
  else if src = 6 then
    if inst < 64 ∧ (f = 0 ∨ ctxOwner s inst = f) then some (ctxImageSize s (ctxOwner s inst) inst) else none
  else if src = 7 then (if inst = 0 then some (funcOf s f).dropped else none)
  else none

/-- A write of SNAP_SEL (R70): SNAP_VALID clears, the value of this instant is held, and SNAP_VALID sets within 2 µs; a write that
meets SNAP_BUSY is dropped (R69). -/
def snapOp (s : State) (f v : Nat) : State :=
  if s.now < (funcOf s f).snapUntil then lostWrite s f
  else
    let x := snapSource s f (bits v 7 0) (bits v 15 8)
    modFunc (draw s) f (fun r => { r with snapUntil := s.now + 1 + busyNs s % 2000, snapSel := v % 2 ^ 24, snapErr := x.isNone
                                          snapTag := bits v 23 16, snapVal := x.getD 0 % 2 ^ 64 })

/-- SNAP_SEL (R70). -/
def execSnapSel (f : Fin 65) (value : BitVec 32) (s : State) : Host.Outcome State Fault Refusal :=
  if funcExists s f then .next (snapOp s f value.toNat) else .next s

/-- REGISTER_WRITE: a 4-byte write to a BAR0 offset (R52). -/
def execRegisterWrite (f : Fin 65) (offset : BitVec 16) (value : BitVec 32) (s : State) : Host.Outcome State Fault Refusal :=
  if !funcExists s f then .next s
  else if offset.toNat = 0x4000 then .next (snapOp s f value.toNat)
  else .next (registerOp s f offset.toNat value.toNat)

end Sys2Proof.Machine
end

