-- ==== Sys2Proof/Machine/Dispatch.lean ====
section
/-!
DEFINITION. One arm per command: its meaning, which works on everything but the queue.
-/

namespace Sys2Proof.Machine

/-- What a command does. -/
def exec (i : Instr) (s : State) : Host.Outcome State Fault Refusal :=
  match i with
  | .openCmd r lease tag => Sys2Proof.Machine.execOpen r lease tag s
  | .close r => Sys2Proof.Machine.execClose r s
  | .keepalive r => Sys2Proof.Machine.execKeepalive r s
  | .read r h => Sys2Proof.Machine.execRead r h s
  | .write r h data => Sys2Proof.Machine.execWrite r h data s
  | .writeIf r h expected data => Sys2Proof.Machine.execWriteIf r h expected data s
  | .describe r h => Sys2Proof.Machine.execDescribe r h s
  | .readSeg r h offset length => Sys2Proof.Machine.execReadSeg r h offset length s
  | .writeSeg r h offset total data => Sys2Proof.Machine.execWriteSeg r h offset total data s
  | .group r items => Sys2Proof.Machine.execGroup r items s
  | .subscribe r mask => Sys2Proof.Machine.execSubscribe r mask s
  | .malformedPdu pdu => Sys2Proof.Machine.execMalformedPdu pdu s
  | .unknownOpcode r op => Sys2Proof.Machine.execUnknownOpcode r op s
  | .leaseExpiry => Sys2Proof.Machine.execLeaseExpiry s
  | .portalGo func pdu => Sys2Proof.Machine.execPortalGo func pdu s
  | .portalResponse func => Sys2Proof.Machine.execPortalResponse func s
  | .canSegmentRx ident data => Sys2Proof.Machine.execCanSegmentRx ident data s
  | .eventFrameTx => Sys2Proof.Machine.execEventFrameTx s
  | .sysDefaults r value => Sys2Proof.Machine.execSysDefaults r value s
  | .twDictRequest q => Sys2Proof.Machine.execTwDictRequest q s
  | .doorbell func ring value => Sys2Proof.Machine.execDoorbell func ring value s
  | .cqHeadWrite func ring value => Sys2Proof.Machine.execCqHeadWrite func ring value s
  | .evtPendClear func mask => Sys2Proof.Machine.execEvtPendClear func mask s
  | .evtMaskWrite func mask => Sys2Proof.Machine.execEvtMaskWrite func mask s
  | .snapSel func value => Sys2Proof.Machine.execSnapSel func value s
  | .registerWrite func offset value => Sys2Proof.Machine.execRegisterWrite func offset value s
  | .nop h => Sys2Proof.Machine.execNop h s
  | .commandBadop h op => Sys2Proof.Machine.execCommandBadop h op s
  | .fenceSignal h fence value => Sys2Proof.Machine.execFenceSignal h fence value s
  | .fenceWait h fence timeout value => Sys2Proof.Machine.execFenceWait h fence timeout value s
  | .fenceWaitTimeout ring => Sys2Proof.Machine.execFenceWaitTimeout ring s
  | .fenceClaim r slot expected owner => Sys2Proof.Machine.execFenceClaim r slot expected owner s
  | .fenceValueWrite r slot value => Sys2Proof.Machine.execFenceValueWrite r slot value s
  | .drawSubmit h p => Sys2Proof.Machine.execDrawSubmit h p s
  | .computeDispatch h list len zero => Sys2Proof.Machine.execComputeDispatch h list len zero s
  | .translationDone slot => Sys2Proof.Machine.execTranslationDone slot s
  | .tilePhaseStart ctx => Sys2Proof.Machine.execTilePhaseStart ctx s
  | .coreDispatchPoint core => Sys2Proof.Machine.execCoreDispatchPoint core s
  | .tileDone core binPoison => Sys2Proof.Machine.execTileDone core binPoison s
  | .workgroupDone core which => Sys2Proof.Machine.execWorkgroupDone core which s
  | .gpuWatchdog ctx => Sys2Proof.Machine.execGpuWatchdog ctx s
  | .coreFault core retryPasses sparePasses => Sys2Proof.Machine.execCoreFault core retryPasses sparePasses s
  | .progClaim r slot expected owner => Sys2Proof.Machine.execProgClaim r slot expected owner s
  | .ctxEnable r ctx => Sys2Proof.Machine.execCtxEnable r ctx s
  | .ctxDisable r ctx => Sys2Proof.Machine.execCtxDisable r ctx s
  | .ctxStopDone ctx => Sys2Proof.Machine.execCtxStopDone ctx s
  | .arbitration => Sys2Proof.Machine.execArbitration s
  | .preemptDone core latencyNs position spillNs => Sys2Proof.Machine.execPreemptDone core latencyNs position spillNs s
  | .compositorRowEligible port row => Sys2Proof.Machine.execCompositorRowEligible port row s
  | .rowComposeDone port row => Sys2Proof.Machine.execRowComposeDone port row s
  | .rowPrefetchPoint port row => Sys2Proof.Machine.execRowPrefetchPoint port row s
  | .scanoutWake port => Sys2Proof.Machine.execScanoutWake port s
  | .surfClaim r slot expected owner => Sys2Proof.Machine.execSurfClaim r slot expected owner s
  | .surfAlloc r slot => Sys2Proof.Machine.execSurfAlloc r slot s
  | .surfRelease r slot => Sys2Proof.Machine.execSurfRelease r slot s
  | .surfScrubDone slot => Sys2Proof.Machine.execSurfScrubDone slot s
  | .copy h p => Sys2Proof.Machine.execCopy h p s
  | .convert h p => Sys2Proof.Machine.execConvert h p s
  | .layerSet h p => Sys2Proof.Machine.execLayerSet h p s
  | .commit h ports => Sys2Proof.Machine.execCommit h ports s
  | .outCommit r port value => Sys2Proof.Machine.execOutCommit r port value s
  | .outEnable r port => Sys2Proof.Machine.execOutEnable r port s
  | .outDisable r port => Sys2Proof.Machine.execOutDisable r port s
  | .outputStopDone port => Sys2Proof.Machine.execOutputStopDone port s
  | .outModeWrite r port mode => Sys2Proof.Machine.execOutModeWrite r port mode s
  | .closePoint port => Sys2Proof.Machine.execClosePoint port s
  | .vbs port => Sys2Proof.Machine.execVbs port s
  | .frameStart port => Sys2Proof.Machine.execFrameStart port s
  | .lineMatch port => Sys2Proof.Machine.execLineMatch port s
  | .frameDone port => Sys2Proof.Machine.execFrameDone port s
  | .underrun port line stream pixel => Sys2Proof.Machine.execUnderrun port line stream pixel s
  | .linkTrainingDone port ok edid => Sys2Proof.Machine.execLinkTrainingDone port ok edid s
  | .linkRetryTimer port => Sys2Proof.Machine.execLinkRetryTimer port s
  | .hpdRise port => Sys2Proof.Machine.execHpdRise port s
  | .hpdFall port pulseUs lockLost => Sys2Proof.Machine.execHpdFall port pulseUs lockLost s
  | .engineFault engine retryPasses sparePasses => Sys2Proof.Machine.execEngineFault engine retryPasses sparePasses s
  | .kaolinCommit port value => Sys2Proof.Machine.execKaolinCommit port value s
  | .kaolinSramWrite addr data => Sys2Proof.Machine.execKaolinSramWrite addr data s
  | .sigCompare port rect seen => Sys2Proof.Machine.execSigCompare port rect seen s
  | .memRead rank word noise1 noise2 scrub => Sys2Proof.Machine.execMemRead rank word noise1 noise2 scrub s
  | .memWrite rank addr data => Sys2Proof.Machine.execMemWrite rank addr data s
  | .ceBucketExpiry => Sys2Proof.Machine.execCeBucketExpiry s
  | .groupTrainingDone group badPins caBad => Sys2Proof.Machine.execGroupTrainingDone group badPins caBad s
  | .sparePatternTestDone rank ok => Sys2Proof.Machine.execSparePatternTestDone rank ok s
  | .migrationDone rank => Sys2Proof.Machine.execMigrationDone rank s
  | .dqsOscCheck group driftTenthPct fails temp => Sys2Proof.Machine.execDqsOscCheck group driftTenthPct fails temp s
  | .scrubBurst group start words => Sys2Proof.Machine.execScrubBurst group start words s
  | .refresh rank => Sys2Proof.Machine.execRefresh rank s
  | .rankPowerDown rank => Sys2Proof.Machine.execRankPowerDown rank s
  | .selfRefreshEntry group => Sys2Proof.Machine.execSelfRefreshEntry group s
  | .memRetireReq r rank => Sys2Proof.Machine.execMemRetireReq r rank s
  | .memInjArm r value => Sys2Proof.Machine.execMemInjArm r value s
  | .vfEnable r vf => Sys2Proof.Machine.execVfEnable r vf s
  | .vfDisable r vf => Sys2Proof.Machine.execVfDisable r vf s
  | .grantWrite r vf sub value => Sys2Proof.Machine.execGrantWrite r vf sub value s
  | .grantShareWrite r vf value => Sys2Proof.Machine.execGrantShareWrite r vf value s
  | .regionWrite r vf touch region sub value => Sys2Proof.Machine.execRegionWrite r vf touch region sub value s
  | .ringOwnerWrite r ring owner => Sys2Proof.Machine.execRingOwnerWrite r ring owner s
  | .ringEnable r ring value => Sys2Proof.Machine.execRingEnable r ring value s
  | .ringOrderWrite r ring order => Sys2Proof.Machine.execRingOrderWrite r ring order s
  | .resizeDone ring => Sys2Proof.Machine.execResizeDone ring s
  | .vfFlr r vf value => Sys2Proof.Machine.execVfFlr r vf value s
  | .pcieFlr func => Sys2Proof.Machine.execPcieFlr func s
  | .vfEnableClear => Sys2Proof.Machine.execVfEnableClear s
  | .pfFlr h1 => Sys2Proof.Machine.execPfFlr h1 s
  | .flrDone func => Sys2Proof.Machine.execFlrDone func s
  | .migFreeze r vf => Sys2Proof.Machine.execMigFreeze r vf s
  | .migThaw r vf => Sys2Proof.Machine.execMigThaw r vf s
  | .freezeDone vf position => Sys2Proof.Machine.execFreezeDone vf position s
  | .migSave r vf => Sys2Proof.Machine.execMigSave r vf s
  | .migRestore r vf => Sys2Proof.Machine.execMigRestore r vf s
  | .imageDone vf => Sys2Proof.Machine.execImageDone vf s
  | .logEnable r vf value => Sys2Proof.Machine.execLogEnable r vf value s
  | .logSwap r vf value => Sys2Proof.Machine.execLogSwap r vf value s
  | .logSwapDone vf => Sys2Proof.Machine.execLogSwapDone vf s
  | .gateQuote nonce => Sys2Proof.Machine.execGateQuote nonce s
  | .gateRandom count => Sys2Proof.Machine.execGateRandom count s
  | .gateReleaseAsk domain => Sys2Proof.Machine.execGateReleaseAsk domain s
  | .gateBadsvc svc => Sys2Proof.Machine.execGateBadsvc svc s
  | .gateRelease result nres args bufLen buf => Sys2Proof.Machine.execGateRelease result nres args bufLen buf s
  | .trustedTargetAccess who target write len => Sys2Proof.Machine.execTrustedTargetAccess who target write len s
  | .pinTWrite pin trusted => Sys2Proof.Machine.execPinTWrite pin trusted s
  | .dmaTWrite chan trusted => Sys2Proof.Machine.execDmaTWrite chan trusted s
  | .claimHoldWrite domain value => Sys2Proof.Machine.execClaimHoldWrite domain value s
  | .cutNoticeExpiry domain => Sys2Proof.Machine.execCutNoticeExpiry domain s
  | .watchdogKick value => Sys2Proof.Machine.execWatchdogKick value s
  | .watchdogExpiry => Sys2Proof.Machine.execWatchdogExpiry s
  | .lockstepFault => Sys2Proof.Machine.execLockstepFault s
  | .twRestartRequest => Sys2Proof.Machine.execTwRestartRequest s
  | .twRestartDone outcome => Sys2Proof.Machine.execTwRestartDone outcome s
  | .attNonceWrite r nonce => Sys2Proof.Machine.execAttNonceWrite r nonce s
  | .quoteSigned session => Sys2Proof.Machine.execQuoteSigned session s
  | .touchFrameMark panel f => Sys2Proof.Machine.execTouchFrameMark panel f s
  | .stuckTimeout panel id => Sys2Proof.Machine.execStuckTimeout panel id s
  | .driftEntry panel => Sys2Proof.Machine.execDriftEntry panel s
  | .driftFrame panel groups chanOk => Sys2Proof.Machine.execDriftFrame panel groups chanOk s
  | .panelEnable r panel => Sys2Proof.Machine.execPanelEnable r panel s
  | .panelStartDone panel t => Sys2Proof.Machine.execPanelStartDone panel t s
  | .panelDisable r panel => Sys2Proof.Machine.execPanelDisable r panel s
  | .panelStopDone panel => Sys2Proof.Machine.execPanelStopDone panel s
  | .panelRefCapture r panel value => Sys2Proof.Machine.execPanelRefCapture r panel value s
  | .panelTestRun r panel value => Sys2Proof.Machine.execPanelTestRun r panel value s
  | .effectDue chan => Sys2Proof.Machine.execEffectDue chan s
  | .brakingStart chan peakMg => Sys2Proof.Machine.execBrakingStart chan peakMg s
  | .brakingEnd chan accelMg => Sys2Proof.Machine.execBrakingEnd chan accelMg s
  | .queueHeadTimeout chan => Sys2Proof.Machine.execQueueHeadTimeout chan s
  | .effectDeadline chan => Sys2Proof.Machine.execEffectDeadline chan s
  | .hapTrip chan cause capNf => Sys2Proof.Machine.execHapTrip chan cause capNf s
  | .tripProbe chan capNf => Sys2Proof.Machine.execTripProbe chan capNf s
  | .chReset r chan value capNf => Sys2Proof.Machine.execChReset r chan value capNf s
  | .onTimeCut chan => Sys2Proof.Machine.execOnTimeCut chan s
  | .dutyCut chan => Sys2Proof.Machine.execDutyCut chan s
  | .accelTimeout chan reads => Sys2Proof.Machine.execAccelTimeout chan reads s
  | .driverFault chan retryPasses sparePasses => Sys2Proof.Machine.execDriverFault chan retryPasses sparePasses s
  | .hapEnable r => Sys2Proof.Machine.execHapEnable r s
  | .hapReady badDrivers => Sys2Proof.Machine.execHapReady badDrivers s
  | .hapDisable r => Sys2Proof.Machine.execHapDisable r s
  | .interlockOpen => Sys2Proof.Machine.execInterlockOpen s
  | .interlockClosed => Sys2Proof.Machine.execInterlockClosed s
  | .sndEnable r => Sys2Proof.Machine.execSndEnable r s
  | .sndDisable r => Sys2Proof.Machine.execSndDisable r s
  | .streamEnable r capture number value => Sys2Proof.Machine.execStreamEnable r capture number value s
  | .audioPeriod a => Sys2Proof.Machine.execAudioPeriod a s
  | .avtpPacketRx listener presentation samples => Sys2Proof.Machine.execAvtpPacketRx listener presentation samples s
  | .avtpPacketTx talker => Sys2Proof.Machine.execAvtpPacketTx talker s
  | .clockLockChange locked => Sys2Proof.Machine.execClockLockChange locked s
  | .chimeStart clip repeats => Sys2Proof.Machine.execChimeStart clip repeats s
  | .chimeStop => Sys2Proof.Machine.execChimeStop s
  | .chimeEnd => Sys2Proof.Machine.execChimeEnd s
  | .laneTrainingDone link good reversed inverted => Sys2Proof.Machine.execLaneTrainingDone link good reversed inverted s
  | .linkFailedRetry link => Sys2Proof.Machine.execLinkFailedRetry link s
  | .packetRx link p acked credits crcOk replayOk => Sys2Proof.Machine.execPacketRx link p acked credits crcOk replayOk s
  | .linkTimeout link => Sys2Proof.Machine.execLinkTimeout link s
  | .linkHoldExpiry link => Sys2Proof.Machine.execLinkHoldExpiry link s
  | .hello link serial addr gen partnerLink => Sys2Proof.Machine.execHello link serial addr gen partnerLink s
  | .linkStateRecordRx rec => Sys2Proof.Machine.execLinkStateRecordRx rec s
  | .fabricStable => Sys2Proof.Machine.execFabricStable s
  | .syncExchange link offset errNs => Sys2Proof.Machine.execSyncExchange link offset errNs s
  | .fabRelayWrite r data => Sys2Proof.Machine.execFabRelayWrite r data s
  | .fabRelayRead r => Sys2Proof.Machine.execFabRelayRead r s
  | .relayedPduRx serial mgr pdu => Sys2Proof.Machine.execRelayedPduRx serial mgr pdu s
  | .relayReplyRx session pdu => Sys2Proof.Machine.execRelayReplyRx session pdu s
  | .spreadEnable r spread => Sys2Proof.Machine.execSpreadEnable r spread s
  | .spreadDisable r spread => Sys2Proof.Machine.execSpreadDisable r spread s
  | .spreadCommit r spread value => Sys2Proof.Machine.execSpreadCommit r spread value s
  | .spreadClosePoint spread => Sys2Proof.Machine.execSpreadClosePoint spread s
  | .spreadStateRx spread member late offset => Sys2Proof.Machine.execSpreadStateRx spread member late offset s
  | .spreadMemberLost spread member => Sys2Proof.Machine.execSpreadMemberLost spread member s
  | .powerGood open0 open1 => Sys2Proof.Machine.execPowerGood open0 open1 s
  | .domainRampStart domain => Sys2Proof.Machine.execDomainRampStart domain s
  | .domainRampDone domain => Sys2Proof.Machine.execDomainRampDone domain s
  | .domainOn domain failed sparePasses => Sys2Proof.Machine.execDomainOn domain failed sparePasses s
  | .domainOff domain => Sys2Proof.Machine.execDomainOff domain s
  | .domHoldWrite r domain value => Sys2Proof.Machine.execDomHoldWrite r domain value s
  | .domTwWrite domain value => Sys2Proof.Machine.execDomTwWrite domain value s
  | .pwrReqStandby r => Sys2Proof.Machine.execPwrReqStandby r s
  | .standbyReached => Sys2Proof.Machine.execStandbyReached s
  | .pwrReqRun r => Sys2Proof.Machine.execPwrReqRun r s
  | .wakeCanFrame data => Sys2Proof.Machine.execWakeCanFrame data s
  | .pwrReset r value => Sys2Proof.Machine.execPwrReset r value s
  | .resetHoldExpiry => Sys2Proof.Machine.execResetHoldExpiry s
  | .perstDeassert h1 offered reversed inverted refclk => Sys2Proof.Machine.execPerstDeassert h1 offered reversed inverted refclk s
  | .hostAvailability => Sys2Proof.Machine.execHostAvailability s
  | .thermalSample temps => Sys2Proof.Machine.execThermalSample temps s
  | .throttleStepTimer => Sys2Proof.Machine.execThrottleStepTimer s
  | .supplyChange mv => Sys2Proof.Machine.execSupplyChange mv s
  | .emergencyClear => Sys2Proof.Machine.execEmergencyClear s
  | .islGateWrite r island value => Sys2Proof.Machine.execIslGateWrite r island value s
  | .islRateWrite r island value => Sys2Proof.Machine.execIslRateWrite r island value s
  | .timeUpdate master => Sys2Proof.Machine.execTimeUpdate master s
  | .grogRetest r value passes => Sys2Proof.Machine.execGrogRetest r value passes s
  | .mramRowWrite bank row badReads => Sys2Proof.Machine.execMramRowWrite bank row badReads s
  | .diagEnable r value => Sys2Proof.Machine.execDiagEnable r value s
  | .sidePinEdge pin level => Sys2Proof.Machine.execSidePinEdge pin level s
  | .spFuncWrite r pin value => Sys2Proof.Machine.execSpFuncWrite r pin value s
  | .spPwmWrite r pin freq value => Sys2Proof.Machine.execSpPwmWrite r pin freq value s
  | .hapticPlay h p => Sys2Proof.Machine.execHapticPlay h p s
  | .touchBuf h p => Sys2Proof.Machine.execTouchBuf h p s
  | .attackEnd chan => Sys2Proof.Machine.execAttackEnd chan s
  | .effectFits chan => Sys2Proof.Machine.execEffectFits chan s
  | .balanceMoveStart loads => Sys2Proof.Machine.execBalanceMoveStart loads s
  | .balanceMoveDone => Sys2Proof.Machine.execBalanceMoveDone s
  | .linkBringUp link => Sys2Proof.Machine.execLinkBringUp link s

end Sys2Proof.Machine
end

