-- ==== Sys2Proof/Machine/Tick.lean ====
section
/-!
DEFINITION. What the module does when no command waits: a nanosecond passes, what is due by the power rules happens, and each
transport takes one waiting notification of each session. The table has no row for any of this (DESIGN CHOICE, log 2).
-/

namespace Sys2Proof.Machine

/-- The transport takes the oldest waiting notification of a session (R39). -/
def sendNote (s : State) (i : Nat) : State :=
  match (sessOf s i).notes with
  | [] => s
  | n :: r => modSess s i (fun x => { x with notes := r, noteSent := some (n.pdu (sessId s i)) })

/-- A nanosecond without a command: module time advances (R17), the power supervisor's timers run, a start of an output whose
domains are on goes on (R132, log 277), the links serve their packets (R407), the haptic rail and drives act within their limits (R519, R367), a retirement copies
(R266), notifications leave. -/
def tick (s : State) : State :=
  let s := foldN (List.range 8) tryStart (powerTimers { s with now := (s.now + 1) % 2 ^ 64 })
  foldN (openSlots s) sendNote (copyTick (driveTick (railTick (foldN (List.range 4) serveLink s))))

end Sys2Proof.Machine
end

