-- ==== Sys2Proof/Safety.lean ====
section
/-!
DEFINITION. What a state of the module never leaves: the invariant of every step. And when a dictionary request is admitted, which
is the premise of the statements about requests.
-/

namespace Sys2Proof.Machine

/-- A session's waiting notifications are at most 64 (R39), its kept responses at most 4 (R34). -/
def Session.bounded (x : Session) : Prop := x.notes.length ≤ 64 ∧ x.cache.length ≤ 4

/-- The invariant: memories in canonical form; change counters of 16 bits (R20); the logs and waiting frames within their sizes (R39,
R34, R159, R238, R261, R482, Table WO-5); the session table in order; only slots 0 to 47 are ever open, and the free slots are exactly those that are not,
each listed once (R27). -/
structure Inv (s : State) : Prop where
  host : Memory.wf s.host
  dram : Memory.wf s.dram
  kram : Memory.wf s.kram
  buf : Memory.wf s.world.buf
  esram : Memory.wf s.world.esram
  ctr : ∀ e ∈ s.objs, e.2.ctr < 65536
  order : s.sess.Pairwise (fun x y => x.1 < y.1)
  sess : ∀ e ∈ s.sess, e.2.bounded ∧ (e.2.isOpen = true → e.1 < 48)
  freeOnce : s.freeSlots.Nodup
  free : ∀ i, i ∈ s.freeSlots ↔ i < 48 ∧ (sessOf s i).isOpen = false
  frames : (s.frames.filter (·.kaolin)).length ≤ 16
  refusals : s.refuseLog.length ≤ 64
  tilth : s.tilthLog.length ≤ 256
  memLog : s.mem.log.length ≤ 128
  grogLog : s.grog.log.length ≤ 4096

/-- The dictionary objects that an event may move: the counts of dropped notifications and frames, of vote repairs and failures, and
of logged writes outside a VF's range. -/
def noteKey (k : Nat) : Prop :=
  k = K.dictNotifyDrop ∨ k = K.regVoteFix ∨ k = K.regVoteBad ∨ k = K.kaolinCanDrop ∨ ∃ f, 0 < f ∧ f < 64 ∧ k = K.logOut f

/-- A request in a session is admitted and executed: its transport is up, its identifier is an open session's on that carrier, its
sequence number is new to it, its PDU fits, and on the side-band the responder or the cluster serves it (R28, R34, R36, R46, R528). -/
structure Admitted (s : State) (r : DictReq) (i : Nat) (q : Request) : Prop where
  path : pathUp s r.src = true
  slot : slotOfId s r.session.toNat = some i
  carrier : (sessOf s i).src.map (sameCarrier r.src) = some true
  new : (sessOf s i).cache.find? (fun e => e.1 == r.seq.toNat) = none
  size : 12 + lenOf q ≤ maxPdu r.src
  served : r.src = .can → s.served = true ∨ sbServes q = true

/-- A write command of a number to the object of a key is an admitted request. -/
def AdmittedWrite (s : State) (r : DictReq) (i k n : Nat) : Prop := Admitted s r i (numWrite (k / 256) (k % 256) n)

/-- A conditional write command of a number to the object of a key is an admitted request. -/
def AdmittedClaim (s : State) (r : DictReq) (i k n : Nat) (expected : BitVec 16) : Prop :=
  Admitted s r i (numWriteIf (k / 256) (k % 256) n expected)

/-- An open session is a manager's. -/
def managerSession (s : State) (i : Nat) : Prop := (sessOf s i).role = .mgr

/-- An open session is a manager's, or a VF's of the function f. -/
def ownerSession (s : State) (i f : Nat) : Prop := (sessOf s i).role = .mgr ∨ ((sessOf s i).role = .vf ∧ (sessOf s i).func = f)

/-- An open session may write what its owning function f alone writes: a session of f, or of what nobody owns a manager's (R54, R86,
R212; the last is the model's choice, log 94). -/
def ownSession (s : State) (i f : Nat) : Prop :=
  (((sessOf s i).role = .vf ∨ (sessOf s i).role = .mgr) ∧ (sessOf s i).func = f) ∨ ((sessOf s i).role = .mgr ∧ f = 0xFF)

/-- A session may change an owner object with WRITE_IF: the manager to any function, a VF from 0xFF to its own number or back (R75). -/
def mayOwn (s : State) (i old new : Nat) : Prop :=
  (sessOf s i).role = .mgr ∨
    ((sessOf s i).role = .vf ∧ ((old = 0xFF ∧ new = (sessOf s i).func) ∨ (old = (sessOf s i).func ∧ new = 0xFF)))

/-- An owner object of a pool may name this function: none, or one that exists and, if a VF, owns fewer than its grant (R284). -/
def grantLeft (s : State) (lo hi grant new : Nat) : Prop :=
  new = 0xFF ∨ (funcExists s new = true ∧ (0 < new → new < 64 → ownedCount s lo hi new < grant))

/-- The state after a list of writes, each accepted with OK at the state that the ones before it leave; none if one is not. -/
def writesAll (s : State) (c : WCtx) : List (ItemHdr × List Byte) → Option State
  | [] => some s
  | e :: l =>
    let w := writeObj s c e.1 e.2 none
    if w.status = .ok then writesAll w.state c l else none

/-- Every dictionary object but those of the listed keys has its value and its change counter. -/
def onlyObjs (ks : List Nat) (s t : State) : Prop := ∀ k, k ∉ ks → getV t k = getV s k ∧ ctrOf t k = ctrOf s k

/-- Every dictionary object but those of the listed keys, and the counts that events move, has its value and its change counter. -/
def onlyObjsAndNotes (ks : List Nat) (s t : State) : Prop :=
  ∀ k, k ∉ ks → ¬ noteKey k → getV t k = getV s k ∧ ctrOf t k = ctrOf s k

/-- The state in which an admitted request runs: the session's lease is renewed (R28). -/
def renewed (s : State) (i : Nat) : State := modSess s i (fun x => { x with renewed := s.now })

/-- The response that a state keeps is one of this status to this request. -/
def answered (t : State) (r : DictReq) (op : Nat) (st : Status) : Prop :=
  ∃ x, t.resp = some (r.src, x) ∧ x.op = op ∧ x.session = r.session.toNat ∧ x.seq = r.seq.toNat ∧ x.status = st

/-! ## Ring commands -/

/-- The three copies of a ring's four voted fields agree (R68). -/
def ringAgrees (s : State) (h : Nat) : Prop :=
  ∀ k ∈ [K.ringEnable h, K.ringBase h, K.ringOrder h, K.ringOwner h], tfind s.votes k = none

/-- A ring command is fetched and passes its source checks (R59, R61); no copy of a ring field disagrees (R68) and no completion of the
ring is held (R64). -/
structure Fetches (s : State) (h : CmdHdr) (op : Nat) (write : Bool) : Prop where
  fetch : canFetch s h.ring = true
  votes : s.votes = []
  checks : failedChecks s h op true write = 0
  held : (ringOf s h.ring).held = []

/-- The state after a ring's next command is fetched: the host has put it, with its payload, where the ring's next command lies (R57, R59). -/
def fetched (s : State) (h : CmdHdr) (op : Nat) (pay : List Byte) : State :=
  modRing (placeCmd s h op pay) h.ring (fun r => { r with head := (r.head + 1) % 65536, fetched := r.fetched + 1 })

/-- The ticket of a ring's next command: its function, with the epoch at fetch time (R62), ring, command index, opcode, tag, flags. -/
def ticketOf (s : State) (h : CmdHdr) (op : Nat) : Ticket :=
  { func := getN s (K.ringOwner h.ring), epoch := (funcOf s (getN s (K.ringOwner h.ring))).epoch, era := (ringOf s h.ring).era
    ring := h.ring, local_ := getN s (K.ringLocal h.ring), index := (ringOf s h.ring).fetched + 1, op := op
    tag := h.tag.toNat, complete := bitOf h.flags.toNat 0, irq := bitOf h.flags.toNat 1 }

/-- A ring's command was fetched, and a completion entry written at its completion index: tag, status, phase, opcode, local ring,
time and result (R57, R63, Table FP-7). -/
def entryWritten (s t : State) (h : CmdHdr) (op st result : Nat) : Prop :=
  (ringOf t h.ring).head = ((ringOf s h.ring).head + 1) % 65536 ∧
  (ringOf t h.ring).cqTail = ((ringOf s h.ring).cqTail + 1) % 65536 ∧
  hostRead t (getN s (K.ringOwner h.ring))
    (getN s (K.ringCqBase h.ring) + 32 * ((ringOf s h.ring).cqTail % 2 ^ getN s (K.ringCqOrder h.ring))) 24 =
    leBytes 2 h.tag.toNat ++ leBytes 1 st ++ leBytes 1 (1 - (ringOf s h.ring).cqTail >>> getN s (K.ringCqOrder h.ring) % 2) ++
      leBytes 1 op ++ leBytes 1 (getN s (K.ringLocal h.ring)) ++ leBytes 2 0 ++ leBytes 8 s.now ++ leBytes 8 result

/-- A ring's command was fetched, and completed with a status, and with a result where one is named, if its header asked for a
completion; the completion index is unchanged if it did not. -/
def ringDone (s t : State) (h : CmdHdr) (op st : Nat) (result : Option Nat) : Prop :=
  (ringOf t h.ring).head = ((ringOf s h.ring).head + 1) % 65536 ∧
  (bitOf h.flags.toNat 0 = true → ∃ x, (∀ n, result = some n → x = n % 2 ^ 64) ∧ entryWritten s t h op st x) ∧
  (bitOf h.flags.toNat 0 = false → (ringOf t h.ring).cqTail = (ringOf s h.ring).cqTail)

/-- A command whose answer was waited for is answered with a status and result: if it asked for a completion, its function had no reset
and its ring was not disabled since (R62, log 92), and the queue has space and holds nothing back, the entry is written. -/
def ticketDone (s t : State) (k : Ticket) (st result : Nat) : Prop :=
  k.complete = true → (funcOf s k.func).epoch = k.epoch → (ringOf s k.ring).era = k.era → (ringOf s k.ring).held = [] →
    cqFull s k.ring = false →
    (ringOf t k.ring).cqTail = ((ringOf s k.ring).cqTail + 1) % 65536 ∧
    hostRead t k.func (getN s (K.ringCqBase k.ring) + 32 * ((ringOf s k.ring).cqTail % 2 ^ getN s (K.ringCqOrder k.ring))) 24 =
      leBytes 2 k.tag ++ leBytes 1 st ++ leBytes 1 (1 - (ringOf s k.ring).cqTail >>> getN s (K.ringCqOrder k.ring) % 2) ++
        leBytes 1 k.op ++ leBytes 1 k.local_ ++ leBytes 2 0 ++ leBytes 8 s.now ++ leBytes 8 result

/-- out.commit.pend of a port after a commit of some bits there: after the close point, but for one at VBS, the bits that it latched are
not set again; a stopping port holds them all for the next enable (R121, R123, R133). -/
def pendAfter (s : State) (p bits : Nat) : Nat :=
  getN s (K.outCommitPend p) ||| (if (portOf s p).closed && modeLarge (portOf s p).runMode && outSt s p != outStopping
    then bits - (bits &&& (portOf s p).latched) else bits)

/-! ## States in which nothing else goes on -/

/-- The memory holds what was written: every stored word decodes without an error, no migration copies words and no injection changes
them. -/
structure CalmMemory (s : State) : Prop where
  migr : s.mem.migr = none
  arm : getB s K.memInjArm = false
  injected : s.mem.injected = []
  clean : ∀ r w, decodeWord (storedWord s r w) = .clean

/-- A data byte of a surface as it is stored, from its byte offset. -/
def surfByte (s : State) (i off : Nat) : Byte :=
  memGet s.dram (dramKey (rankOfUnit s (surfOf s i).unit) (((surfOf s i).base + off) / 16) 0 + ((surfOf s i).base + off) % 16)

/-- A slot's surface lies in a rank. -/
def inRank (s : State) (i : Nat) : Prop := rankOfUnit s (surfOf s i).unit < 6

/-- The module is in RUN, with good power, no emergency, no reset under way, no claim but the hardware's of PD01, and no spread. -/
structure Quiet (s : State) : Prop where
  run : pwrMode s = 1
  good : s.power.good = true
  heat : s.power.thermal = 0
  supply : s.power.supply = 0
  cut01 : s.power.pd01Cut = false
  reset : s.power.resetAt = none ∧ s.power.resetOff = none
  claims : ∀ d, d < 24 → d ≠ 1 → claimState s d = 0
  spreads : ∀ i, i < 8 → getN s (K.spreadState i) = sprOff ∧ getB s (K.spreadEnable i) = false

/-- The objects of the health summary, which a change of any unit may move (R483). -/
def healthKeys : List Nat := K.healthModule :: (List.range 8).map K.healthSub

/-! ## What a command may change -/

/-- The parts of the state: its fields; and of the dictionary the counts that every event may move, apart. -/
inductive Part where
  | pending | now | fresh | objs | mram | defaultsDue | votes | voteSecond | host | funcs | sess | freeSlots | resp
  | twResp | portals | can | frames | frameSent | served | transit | ehrica | rings | signals | fenceGen | ctxs
  | cores | progs | ports | commits | surfs | scrubs | tilthLog | balance | dram | mem | hap | panels | snd | fab
  | world | pins | islTime | rateStop | migs | bodies | badStored | power | refuseLog | grog | engineGen | kram
  | kold | notes
  deriving DecidableEq, Repr

/-- Every part but those listed. -/
def Part.but (l : List Part) : List Part :=
  ([.pending, .now, .fresh, .objs, .mram, .defaultsDue, .votes, .voteSecond, .host, .funcs, .sess, .freeSlots, .resp,
    .twResp, .portals, .can, .frames, .frameSent, .served, .transit, .ehrica, .rings, .signals, .fenceGen, .ctxs, .cores,
    .progs, .ports, .commits, .surfs, .scrubs, .tilthLog, .balance, .dram, .mem, .hap, .panels, .snd, .fab, .world, .pins,
    .islTime, .rateStop, .migs, .bodies, .badStored, .power, .refuseLog, .grog, .engineGen, .kram, .kold, .notes] : List
    Part).filter (fun p => !l.contains p)

/-- `s` differs from `r` in the parts P at most. -/
structure Changes (P : List Part) (r s : State) : Prop where
  pending : .pending ∉ P → s.pending = r.pending
  now : .now ∉ P → s.now = r.now
  fresh : .fresh ∉ P → s.fresh = r.fresh
  objs : .objs ∉ P → .notes ∉ P → s.objs = r.objs
  mram : .mram ∉ P → s.mram = r.mram
  defaultsDue : .defaultsDue ∉ P → s.defaultsDue = r.defaultsDue
  votes : .votes ∉ P → s.votes = r.votes
  voteSecond : .voteSecond ∉ P → s.voteSecond = r.voteSecond
  host : .host ∉ P → s.host = r.host
  funcs : .funcs ∉ P → s.funcs = r.funcs
  sess : .sess ∉ P → s.sess = r.sess
  freeSlots : .freeSlots ∉ P → s.freeSlots = r.freeSlots
  resp : .resp ∉ P → s.resp = r.resp
  twResp : .twResp ∉ P → s.twResp = r.twResp
  portals : .portals ∉ P → s.portals = r.portals
  can : .can ∉ P → s.can = r.can
  frames : .frames ∉ P → s.frames = r.frames
  frameSent : .frameSent ∉ P → s.frameSent = r.frameSent
  served : .served ∉ P → s.served = r.served
  transit : .transit ∉ P → s.transit = r.transit
  ehrica : .ehrica ∉ P → s.ehrica = r.ehrica
  rings : .rings ∉ P → s.rings = r.rings
  signals : .signals ∉ P → s.signals = r.signals
  fenceGen : .fenceGen ∉ P → s.fenceGen = r.fenceGen
  ctxs : .ctxs ∉ P → s.ctxs = r.ctxs
  cores : .cores ∉ P → s.cores = r.cores
  progs : .progs ∉ P → s.progs = r.progs
  ports : .ports ∉ P → s.ports = r.ports
  commits : .commits ∉ P → s.commits = r.commits
  surfs : .surfs ∉ P → s.surfs = r.surfs
  scrubs : .scrubs ∉ P → s.scrubs = r.scrubs
  tilthLog : .tilthLog ∉ P → s.tilthLog = r.tilthLog
  balance : .balance ∉ P → s.balance = r.balance
  dram : .dram ∉ P → s.dram = r.dram
  mem : .mem ∉ P → s.mem = r.mem
  hap : .hap ∉ P → s.hap = r.hap
  panels : .panels ∉ P → s.panels = r.panels
  snd : .snd ∉ P → s.snd = r.snd
  fab : .fab ∉ P → s.fab = r.fab
  world : .world ∉ P → s.world = r.world
  pins : .pins ∉ P → s.pins = r.pins
  islTime : .islTime ∉ P → s.islTime = r.islTime
  rateStop : .rateStop ∉ P → s.rateStop = r.rateStop
  migs : .migs ∉ P → s.migs = r.migs
  bodies : .bodies ∉ P → s.bodies = r.bodies
  badStored : .badStored ∉ P → s.badStored = r.badStored
  power : .power ∉ P → s.power = r.power
  refuseLog : .refuseLog ∉ P → s.refuseLog = r.refuseLog
  grog : .grog ∉ P → s.grog = r.grog
  engineGen : .engineGen ∉ P → s.engineGen = r.engineGen
  kram : .kram ∉ P → s.kram = r.kram
  kold : .kold ∉ P → s.kold = r.kold
  notes : .objs ∉ P → ∀ k, ¬ noteKey k → tfind s.objs k = tfind r.objs k

/-- The parts of the state that each command may change; a dictionary request may reach any part but the queue and the module time. -/
def mayChange : Instr → List Part
  | .openCmd .. | .close .. | .keepalive .. | .read .. | .write .. | .writeIf .. | .describe .. | .readSeg ..
  | .writeSeg .. | .group .. | .subscribe .. | .unknownOpcode .. | .portalGo .. | .canSegmentRx .. | .sysDefaults ..
  | .twDictRequest .. | .fenceClaim .. | .fenceValueWrite .. | .progClaim .. | .ctxEnable .. | .ctxDisable ..
  | .surfClaim .. | .surfAlloc .. | .surfRelease .. | .outCommit .. | .outEnable .. | .outDisable ..
  | .outModeWrite .. | .kaolinCommit .. | .memRetireReq .. | .memInjArm .. | .vfEnable .. | .vfDisable ..
  | .grantWrite .. | .grantShareWrite .. | .regionWrite .. | .ringOwnerWrite .. | .ringEnable .. | .ringOrderWrite ..
  | .vfFlr .. | .migFreeze .. | .migThaw .. | .migSave .. | .migRestore .. | .logEnable .. | .logSwap ..
  | .pinTWrite .. | .dmaTWrite .. | .claimHoldWrite .. | .attNonceWrite .. | .panelEnable .. | .panelDisable ..
  | .panelRefCapture .. | .panelTestRun .. | .chReset .. | .hapEnable .. | .hapDisable .. | .sndEnable ..
  | .sndDisable .. | .streamEnable .. | .fabRelayWrite .. | .fabRelayRead .. | .relayedPduRx .. | .spreadEnable ..
  | .spreadDisable .. | .spreadCommit .. | .domHoldWrite .. | .domTwWrite .. | .pwrReqStandby .. | .pwrReqRun ..
  | .wakeCanFrame .. | .pwrReset .. | .islGateWrite .. | .islRateWrite .. | .grogRetest .. | .diagEnable ..
  | .sidePinEdge .. | .spFuncWrite .. | .spPwmWrite .. =>
      Part.but [.pending, .now]
  | .malformedPdu .. | .scanoutWake .. | .dqsOscCheck .. | .selfRefreshEntry ..
  | .clockLockChange .. | .attackEnd .. =>
      [.objs]
  | .accelTimeout .. =>
      [.objs, .hap]
  | .leaseExpiry .. =>
      [.sess, .freeSlots]
  | .portalResponse .. =>
      [.fresh, .voteSecond, .funcs, .sess, .portals, .grog, .notes]
  | .eventFrameTx .. =>
      [.frames, .frameSent]
  | .doorbell .. =>
      [.fresh, .objs, .votes, .voteSecond, .funcs, .sess, .rings, .grog, .notes]
  | .cqHeadWrite .. | .fenceWaitTimeout .. =>
      [.fresh, .voteSecond, .host, .funcs, .sess, .rings, .grog, .notes]
  | .evtPendClear .. | .snapSel .. =>
      [.fresh, .objs, .funcs]
  | .evtMaskWrite .. | .logSwapDone .. =>
      [.fresh, .objs, .voteSecond, .funcs, .sess, .grog, .notes]
  | .registerWrite .. | .nop .. | .commandBadop .. | .fenceWait .. =>
      [.fresh, .objs, .votes, .voteSecond, .host, .funcs, .sess, .rings, .grog, .notes]
  | .fenceSignal .. =>
      [.fresh, .objs, .votes, .voteSecond, .host, .funcs, .sess, .rings, .signals, .grog, .notes]
  | .drawSubmit .. | .computeDispatch .. =>
      [.fresh, .objs, .votes, .voteSecond, .host, .funcs, .sess, .frames, .served, .rings, .signals, .ctxs, .cores,
      .tilthLog, .ehrica, .balance, .dram, .mem, .power, .grog, .notes]
  | .translationDone .. =>
      [.objs, .progs]
  | .tilePhaseStart .. | .workgroupDone .. | .gpuWatchdog .. =>
      [.fresh, .objs, .voteSecond, .host, .funcs, .sess, .frames, .served, .rings, .signals, .ctxs, .cores, .tilthLog,
      .balance, .dram, .mem, .power, .grog, .notes]
  | .coreDispatchPoint .. | .preemptDone .. =>
      [.fresh, .objs, .voteSecond, .funcs, .sess, .frames, .served, .ctxs, .cores, .ports, .ehrica, .balance, .dram, .mem, .power,
      .grog, .notes]
  | .tileDone .. | .coreFault .. =>
      [.fresh, .objs, .voteSecond, .host, .funcs, .sess, .frames, .served, .rings, .signals, .ctxs, .cores, .ports,
      .tilthLog, .ehrica, .balance, .dram, .mem, .power, .grog, .notes]
  | .ctxStopDone .. =>
      [.fresh, .objs, .voteSecond, .funcs, .sess, .transit, .ctxs, .tilthLog, .grog, .notes]
  | .arbitration .. =>
      [.objs, .tilthLog]
  | .compositorRowEligible .. =>
      [.objs, .cores, .ports, .tilthLog]
  | .rowComposeDone .. | .closePoint .. =>
      [.ports]
  | .rowPrefetchPoint .. | .underrun .. =>
      [.fresh, .objs, .voteSecond, .funcs, .sess, .ports, .grog, .notes]
  | .surfScrubDone .. =>
      [.scrubs, .dram]
  | .copy .. | .convert .. =>
      [.fresh, .objs, .votes, .voteSecond, .host, .funcs, .sess, .frames, .served, .rings, .ehrica, .balance, .dram, .mem, .power,
      .grog, .notes]
  | .layerSet .. =>
      [.fresh, .objs, .votes, .voteSecond, .host, .funcs, .sess, .rings, .ports, .grog, .notes]
  | .commit .. =>
      [.fresh, .objs, .votes, .voteSecond, .host, .funcs, .sess, .rings, .ports, .commits, .grog, .notes]
  | .outputStopDone .. | .hostAvailability .. =>
      [.fresh, .objs, .voteSecond, .host, .funcs, .sess, .frames, .served, .transit, .rings, .ports, .commits, .tilthLog,
      .hap, .panels, .snd, .fab, .power, .grog, .notes]
  | .vbs .. =>
      [.fresh, .objs, .voteSecond, .host, .funcs, .sess, .frames, .served, .transit, .ehrica, .rings, .ports, .commits,
      .surfs, .scrubs, .tilthLog, .fab, .power, .grog, .notes]
  | .frameStart .. | .sigCompare .. =>
      [.fresh, .objs, .voteSecond, .funcs, .sess, .frames, .ehrica, .ports, .grog, .notes]
  | .lineMatch .. | .frameDone .. =>
      [.fresh, .voteSecond, .funcs, .sess, .ports, .grog, .notes]
  | .linkTrainingDone .. | .hpdFall .. =>
      [.fresh, .objs, .voteSecond, .host, .funcs, .sess, .served, .rings, .ports, .commits, .tilthLog, .power, .grog,
      .notes]
  | .linkRetryTimer .. | .hpdRise .. =>
      [.objs, .ports]
  | .engineFault .. =>
      [.fresh, .objs, .voteSecond, .host, .funcs, .sess, .frames, .served, .ehrica, .rings, .ports, .commits, .tilthLog,
      .power, .grog, .engineGen, .notes]
  | .kaolinSramWrite .. =>
      [.kram, .kold]
  | .memRead .. | .memWrite .. | .groupTrainingDone .. | .sparePatternTestDone .. | .migrationDone ..
  | .scrubBurst .. =>
      [.fresh, .objs, .voteSecond, .funcs, .sess, .frames, .served, .ehrica, .balance, .dram, .mem, .power, .grog, .notes]
  | .ceBucketExpiry .. =>
      [.objs, .mem]
  | .refresh .. | .rankPowerDown .. =>
      [.mem]
  | .resizeDone .. =>
      [.fresh, .voteSecond, .funcs, .sess, .rings, .grog, .notes]
  | .pcieFlr .. | .vfEnableClear .. | .pfFlr .. =>
      [.fresh, .objs, .voteSecond, .host, .funcs, .sess, .freeSlots, .portals, .rings, .signals, .ctxs, .cores, .ports,
      .commits, .tilthLog, .hap, .panels, .migs, .grog, .notes]
  | .flrDone .. =>
      [.fresh, .objs, .votes, .voteSecond, .funcs, .sess, .transit, .rings, .signals, .fenceGen, .ctxs, .cores, .surfs,
      .scrubs, .tilthLog, .grog, .notes]
  | .freezeDone .. =>
      [.fresh, .objs, .voteSecond, .funcs, .sess, .ctxs, .cores, .tilthLog, .grog, .notes]
  | .imageDone .. =>
      [.fresh, .objs, .voteSecond, .host, .funcs, .sess, .rings, .signals, .fenceGen, .ctxs, .ports, .surfs, .tilthLog,
      .dram, .migs, .grog, .notes]
  | .gateQuote .. | .gateRandom .. | .gateReleaseAsk .. | .gateBadsvc .. =>
      [.ehrica, .world]
  | .gateRelease .. =>
      [.fresh, .world]
  | .trustedTargetAccess .. =>
      [.fresh, .objs, .voteSecond, .funcs, .sess, .ehrica, .world, .grog, .notes]
  | .cutNoticeExpiry .. | .thermalSample .. | .throttleStepTimer .. =>
      Part.but [.pending, .now, .mram, .defaultsDue, .votes, .resp, .twResp, .portals, .can, .frameSent, .fenceGen, .progs,
      .surfs, .scrubs, .islTime, .rateStop, .migs, .bodies, .refuseLog, .engineGen]
  | .watchdogKick .. | .watchdogExpiry .. | .lockstepFault .. | .twRestartRequest .. =>
      [.fresh, .objs, .voteSecond, .funcs, .sess, .frames, .served, .world, .power, .grog, .notes]
  | .twRestartDone .. =>
      [.fresh, .objs, .voteSecond, .host, .funcs, .sess, .freeSlots, .frames, .served, .transit, .ehrica, .rings, .ports,
      .commits, .tilthLog, .hap, .panels, .snd, .fab, .world, .pins, .badStored, .power, .grog, .kram, .notes]
  | .quoteSigned .. | .relayReplyRx .. =>
      [.sess]
  | .touchFrameMark .. =>
      [.fresh, .objs, .voteSecond, .host, .funcs, .sess, .frames, .rings, .hap, .panels, .grog, .notes]
  | .stuckTimeout .. =>
      [.fresh, .objs, .voteSecond, .funcs, .sess, .panels, .grog, .notes]
  | .driftEntry .. =>
      [.objs, .panels]
  | .driftFrame .. | .panelStartDone .. =>
      [.fresh, .objs, .voteSecond, .funcs, .sess, .frames, .panels, .grog, .notes]
  | .panelStopDone .. =>
      [.fresh, .objs, .voteSecond, .funcs, .sess, .frames, .served, .transit, .power, .grog, .notes]
  | .effectDue .. | .brakingStart .. | .queueHeadTimeout .. | .effectDeadline .. | .effectFits .. =>
      [.fresh, .objs, .voteSecond, .host, .funcs, .sess, .rings, .hap, .grog, .notes]
  | .brakingEnd .. | .hapTrip .. | .tripProbe .. | .onTimeCut .. | .dutyCut .. | .interlockOpen .. =>
      [.fresh, .objs, .voteSecond, .host, .funcs, .sess, .frames, .served, .transit, .rings, .hap, .power, .grog, .notes]
  | .driverFault .. | .hapReady .. =>
      [.fresh, .objs, .voteSecond, .host, .funcs, .sess, .frames, .rings, .hap, .grog, .notes]
  | .interlockClosed .. | .linkFailedRetry .. | .linkHoldExpiry .. | .mramRowWrite .. | .linkBringUp .. =>
      [.fresh, .objs, .voteSecond, .funcs, .sess, .frames, .grog, .notes]
  | .audioPeriod .. =>
      [.fresh, .objs, .voteSecond, .host, .funcs, .sess, .snd, .grog, .notes]
  | .avtpPacketRx .. =>
      [.fresh, .voteSecond, .funcs, .sess, .snd, .grog, .notes]
  | .avtpPacketTx .. =>
      [.snd]
  | .chimeStart .. | .chimeStop .. | .chimeEnd .. =>
      [.objs, .snd]
  | .laneTrainingDone .. =>
      [.fresh, .objs, .voteSecond, .funcs, .sess, .frames, .fab, .grog, .notes]
  | .packetRx .. =>
      [.fresh, .objs, .voteSecond, .funcs, .sess, .frames, .served, .ehrica, .balance, .dram, .mem, .fab, .power, .grog, .notes]
  | .linkTimeout .. =>
      [.fresh, .objs, .voteSecond, .funcs, .sess, .freeSlots, .frames, .tilthLog, .fab, .grog, .notes]
  | .hello .. | .linkStateRecordRx .. | .syncExchange .. =>
      [.objs, .fab]
  | .fabricStable .. =>
      [.fresh, .objs, .voteSecond, .funcs, .sess, .freeSlots, .tilthLog, .fab, .grog, .notes]
  | .spreadClosePoint .. =>
      [.fresh, .objs, .voteSecond, .funcs, .sess, .fab, .grog, .notes]
  | .spreadStateRx .. =>
      [.fresh, .objs, .voteSecond, .funcs, .sess, .ports, .fab, .grog, .notes]
  | .spreadMemberLost .. =>
      [.fresh, .objs, .voteSecond, .funcs, .sess, .ports, .tilthLog, .fab, .grog, .notes]
  | .powerGood .. | .standbyReached .. | .resetHoldExpiry .. =>
      Part.but [.pending, .now, .host]
  | .domainRampStart .. =>
      [.fresh, .objs, .voteSecond, .funcs, .sess, .transit, .power, .grog, .notes]
  | .domainRampDone .. =>
      [.fresh, .objs]
  | .domainOn .. =>
      [.fresh, .objs, .voteSecond, .host, .funcs, .sess, .freeSlots, .frames, .served, .transit, .ehrica, .rings, .ctxs, .cores,
      .ports, .commits, .tilthLog, .hap, .panels, .snd, .fab, .world, .pins, .badStored, .power, .grog, .engineGen, .kram,
      .notes]
  | .domainOff .. =>
      [.fresh, .objs, .voteSecond, .host, .funcs, .sess, .freeSlots, .frames, .served, .transit, .rings, .ports, .commits,
      .tilthLog, .dram, .mem, .hap, .panels, .snd, .fab, .world, .pins, .badStored, .power, .grog, .kram, .kold, .notes]
  | .perstDeassert .. =>
      [.power]
  | .supplyChange .. =>
      Part.but [.pending, .now, .mram, .defaultsDue]
  | .emergencyClear .. =>
      Part.but [.pending, .now, .resp, .twResp, .can, .frameSent, .ehrica]
  | .timeUpdate .. =>
      [.now, .islTime]
  | .hapticPlay .. =>
      [.fresh, .objs, .votes, .voteSecond, .host, .funcs, .sess, .rings, .hap, .grog, .notes]
  | .touchBuf .. =>
      [.fresh, .objs, .votes, .voteSecond, .host, .funcs, .sess, .rings, .panels, .grog, .notes]
  | .balanceMoveStart .. =>
      [.fresh, .objs, .tilthLog, .balance]
  | .balanceMoveDone .. =>
      [.objs, .surfs, .tilthLog, .balance, .dram]

end Sys2Proof.Machine
end

