-- ==== Sys2Proof/WellFormed.lean ====
section
/-!
DEFINITION. Well-formed commands: the limits that a carrier, a frame, an opcode or a memory puts on what can be sent at all. A value
that the module itself answers with a refusal is well-formed.
-/

namespace Sys2Proof

/-- A UDP client's address is an IPv4 or IPv6 address (R529). -/
def DictReq.wf (r : DictReq) : Bool :=
  match r.src with
  | .udp _ a _ => a.length == 4 || a.length == 16
  | _ => true

/-- The request opcodes of Table DI-8. -/
def Request.opcodes : List Nat := [0x01, 0x02, 0x03, 0x10, 0x11, 0x12, 0x13, 0x14, 0x15, 0x16, 0x20]

/-- A request's count of group items is one byte (Table DI-8); an unknown opcode is none of the table's, and a bad payload follows one of
the table's. -/
def Request.wf : Request → Bool
  | .group l => l.length < 256
  | .unknown op => !Request.opcodes.contains op.toNat
  | .badPayload op _ => Request.opcodes.contains op.toNat
  | _ => true

/-- The ring opcodes of Table FP-6. -/
def ringOpcodes : List Nat := [0x00, 0x01, 0x02, 0x10, 0x11, 0x20, 0x21, 0x30, 0x31, 0x40, 0x50]

/-- The dictionary request that carries a command, if one does. -/
def Instr.request? : Instr → Option DictReq
  | .openCmd r _ _ => some r
  | .close r => some r
  | .keepalive r => some r
  | .read r _ => some r
  | .write r _ _ => some r
  | .writeIf r _ _ _ => some r
  | .describe r _ => some r
  | .readSeg r _ _ _ => some r
  | .writeSeg r _ _ _ _ => some r
  | .group r _ => some r
  | .subscribe r _ => some r
  | .malformedPdu _ => none
  | .unknownOpcode r _ => some r
  | .leaseExpiry => none
  | .portalGo _ _ => none
  | .portalResponse _ => none
  | .canSegmentRx _ _ => none
  | .eventFrameTx => none
  | .sysDefaults r _ => some r
  | .twDictRequest _ => none
  | .doorbell _ _ _ => none
  | .cqHeadWrite _ _ _ => none
  | .evtPendClear _ _ => none
  | .evtMaskWrite _ _ => none
  | .snapSel _ _ => none
  | .registerWrite _ _ _ => none
  | .nop _ => none
  | .commandBadop _ _ => none
  | .fenceSignal _ _ _ => none
  | .fenceWait _ _ _ _ => none
  | .fenceWaitTimeout _ => none
  | .fenceClaim r _ _ _ => some r
  | .fenceValueWrite r _ _ => some r
  | .drawSubmit _ _ => none
  | .computeDispatch _ _ _ _ => none
  | .translationDone _ => none
  | .tilePhaseStart _ => none
  | .coreDispatchPoint _ => none
  | .tileDone _ _ => none
  | .workgroupDone _ _ => none
  | .gpuWatchdog _ => none
  | .coreFault _ _ _ => none
  | .progClaim r _ _ _ => some r
  | .ctxEnable r _ => some r
  | .ctxDisable r _ => some r
  | .ctxStopDone _ => none
  | .arbitration => none
  | .preemptDone _ _ _ _ => none
  | .compositorRowEligible _ _ => none
  | .rowComposeDone _ _ => none
  | .rowPrefetchPoint _ _ => none
  | .scanoutWake _ => none
  | .surfClaim r _ _ _ => some r
  | .surfAlloc r _ => some r
  | .surfRelease r _ => some r
  | .surfScrubDone _ => none
  | .copy _ _ => none
  | .convert _ _ => none
  | .layerSet _ _ => none
  | .commit _ _ => none
  | .outCommit r _ _ => some r
  | .outEnable r _ => some r
  | .outDisable r _ => some r
  | .outputStopDone _ => none
  | .outModeWrite r _ _ => some r
  | .closePoint _ => none
  | .vbs _ => none
  | .frameStart _ => none
  | .lineMatch _ => none
  | .frameDone _ => none
  | .underrun _ _ _ _ => none
  | .linkTrainingDone _ _ _ => none
  | .linkRetryTimer _ => none
  | .hpdRise _ => none
  | .hpdFall _ _ _ => none
  | .engineFault _ _ _ => none
  | .kaolinCommit _ _ => none
  | .kaolinSramWrite _ _ => none
  | .sigCompare _ _ _ => none
  | .memRead _ _ _ _ _ => none
  | .memWrite _ _ _ => none
  | .ceBucketExpiry => none
  | .groupTrainingDone _ _ _ => none
  | .sparePatternTestDone _ _ => none
  | .migrationDone _ => none
  | .dqsOscCheck _ _ _ _ => none
  | .scrubBurst _ _ _ => none
  | .refresh _ => none
  | .rankPowerDown _ => none
  | .selfRefreshEntry _ => none
  | .memRetireReq r _ => some r
  | .memInjArm r _ => some r
  | .vfEnable r _ => some r
  | .vfDisable r _ => some r
  | .grantWrite r _ _ _ => some r
  | .grantShareWrite r _ _ => some r
  | .regionWrite r _ _ _ _ _ => some r
  | .ringOwnerWrite r _ _ => some r
  | .ringEnable r _ _ => some r
  | .ringOrderWrite r _ _ => some r
  | .resizeDone _ => none
  | .vfFlr r _ _ => some r
  | .pcieFlr _ => none
  | .vfEnableClear => none
  | .pfFlr _ => none
  | .flrDone _ => none
  | .migFreeze r _ => some r
  | .migThaw r _ => some r
  | .freezeDone _ _ => none
  | .migSave r _ => some r
  | .migRestore r _ => some r
  | .imageDone _ => none
  | .logEnable r _ _ => some r
  | .logSwap r _ _ => some r
  | .logSwapDone _ => none
  | .gateQuote _ => none
  | .gateRandom _ => none
  | .gateReleaseAsk _ => none
  | .gateBadsvc _ => none
  | .gateRelease _ _ _ _ _ => none
  | .trustedTargetAccess _ _ _ _ => none
  | .pinTWrite _ _ => none
  | .dmaTWrite _ _ => none
  | .claimHoldWrite _ _ => none
  | .cutNoticeExpiry _ => none
  | .watchdogKick _ => none
  | .watchdogExpiry => none
  | .lockstepFault => none
  | .twRestartRequest => none
  | .twRestartDone _ => none
  | .attNonceWrite r _ => some r
  | .quoteSigned _ => none
  | .touchFrameMark _ _ => none
  | .stuckTimeout _ _ => none
  | .driftEntry _ => none
  | .driftFrame _ _ _ => none
  | .panelEnable r _ => some r
  | .panelStartDone _ _ => none
  | .panelDisable r _ => some r
  | .panelStopDone _ => none
  | .panelRefCapture r _ _ => some r
  | .panelTestRun r _ _ => some r
  | .effectDue _ => none
  | .brakingStart _ _ => none
  | .brakingEnd _ _ => none
  | .queueHeadTimeout _ => none
  | .effectDeadline _ => none
  | .hapTrip _ _ _ => none
  | .tripProbe _ _ => none
  | .chReset r _ _ _ => some r
  | .onTimeCut _ => none
  | .dutyCut _ => none
  | .accelTimeout _ _ => none
  | .driverFault _ _ _ => none
  | .hapEnable r => some r
  | .hapReady _ => none
  | .hapDisable r => some r
  | .interlockOpen => none
  | .interlockClosed => none
  | .sndEnable r => some r
  | .sndDisable r => some r
  | .streamEnable r _ _ _ => some r
  | .audioPeriod _ => none
  | .avtpPacketRx _ _ _ => none
  | .avtpPacketTx _ => none
  | .clockLockChange _ => none
  | .chimeStart _ _ => none
  | .chimeStop => none
  | .chimeEnd => none
  | .laneTrainingDone _ _ _ _ => none
  | .linkFailedRetry _ => none
  | .packetRx _ _ _ _ _ _ => none
  | .linkTimeout _ => none
  | .linkHoldExpiry _ => none
  | .hello _ _ _ _ _ => none
  | .linkStateRecordRx _ => none
  | .fabricStable => none
  | .syncExchange _ _ _ => none
  | .fabRelayWrite r _ => some r
  | .fabRelayRead r => some r
  | .relayedPduRx _ _ _ => none
  | .relayReplyRx _ _ => none
  | .spreadEnable r _ => some r
  | .spreadDisable r _ => some r
  | .spreadCommit r _ _ => some r
  | .spreadClosePoint _ => none
  | .spreadStateRx _ _ _ _ => none
  | .spreadMemberLost _ _ => none
  | .powerGood _ _ => none
  | .domainRampStart _ => none
  | .domainRampDone _ => none
  | .domainOn _ _ _ => none
  | .domainOff _ => none
  | .domHoldWrite r _ _ => some r
  | .domTwWrite _ _ => none
  | .pwrReqStandby r => some r
  | .standbyReached => none
  | .pwrReqRun r => some r
  | .wakeCanFrame _ => none
  | .pwrReset r _ => some r
  | .resetHoldExpiry => none
  | .perstDeassert _ _ _ _ _ => none
  | .hostAvailability => none
  | .thermalSample _ => none
  | .throttleStepTimer => none
  | .supplyChange _ => none
  | .emergencyClear => none
  | .islGateWrite r _ _ => some r
  | .islRateWrite r _ _ => some r
  | .timeUpdate _ => none
  | .grogRetest r _ _ => some r
  | .mramRowWrite _ _ _ => none
  | .diagEnable r _ => some r
  | .sidePinEdge _ _ => none
  | .spFuncWrite r _ _ => some r
  | .spPwmWrite r _ _ _ => some r
  | .hapticPlay _ _ => none
  | .touchBuf _ _ => none
  | .attackEnd _ => none
  | .effectFits _ => none
  | .balanceMoveStart _ => none
  | .balanceMoveDone => none
  | .linkBringUp _ => none

/-- The limits on a command's other operands: a CAN FD frame holds 64 bytes (R43), a rank 2^30 words of 16 bytes with 18 stored (R244,
R249), Kaolin SRAM 2 MiB (R141), there are 16 capture streams (R391), a region has three subindices (R288), ten sensors (R454), four
rank units (R237), 32 TDM slots (R396), and a report is visible within 6 ms of its frame mark (R339). -/
def Instr.limits : Instr → Bool
  | .unknownOpcode _ op => !Request.opcodes.contains op.toNat
  | .group _ l => l.length < 256
  | .twDictRequest q => q.wf
  | .commandBadop _ op => !ringOpcodes.contains op.toNat
  | .canSegmentRx _ d => d.length ≤ 64
  | .wakeCanFrame d => d.length ≤ 64
  | .memRead _ w a b _ => decide (w < 2 ^ 30) && a.length ≤ 18 && b.length ≤ 18
  | .memWrite _ a d => a + d.length ≤ 16 * 2 ^ 30
  | .kaolinSramWrite a d => a + d.length ≤ 0x200000
  | .streamEnable _ c n _ => !c || n.val < 16
  | .regionWrite _ _ _ _ sub _ => decide (1 ≤ sub.toNat ∧ sub.toNat ≤ 3)
  | .thermalSample l => l.length ≤ 10
  | .balanceMoveStart l => l.length == 4
  | .touchFrameMark _ f => f.latencyUs ≤ 6000
  | .audioPeriod a => a.tdm.all (fun e => decide (e.1 < 32))
  | .openCmd _ _ _ => true
  | .close _ => true
  | .keepalive _ => true
  | .read _ _ => true
  | .write _ _ _ => true
  | .writeIf _ _ _ _ => true
  | .describe _ _ => true
  | .readSeg _ _ _ _ => true
  | .writeSeg _ _ _ _ _ => true
  | .subscribe _ _ => true
  | .malformedPdu _ => true
  | .leaseExpiry => true
  | .portalGo _ _ => true
  | .portalResponse _ => true
  | .eventFrameTx => true
  | .sysDefaults _ _ => true
  | .doorbell _ _ _ => true
  | .cqHeadWrite _ _ _ => true
  | .evtPendClear _ _ => true
  | .evtMaskWrite _ _ => true
  | .snapSel _ _ => true
  | .registerWrite _ _ _ => true
  | .nop _ => true
  | .fenceSignal _ _ _ => true
  | .fenceWait _ _ _ _ => true
  | .fenceWaitTimeout _ => true
  | .fenceClaim _ _ _ _ => true
  | .fenceValueWrite _ _ _ => true
  | .drawSubmit _ _ => true
  | .computeDispatch _ _ _ _ => true
  | .translationDone _ => true
  | .tilePhaseStart _ => true
  | .coreDispatchPoint _ => true
  | .tileDone _ _ => true
  | .workgroupDone _ _ => true
  | .gpuWatchdog _ => true
  | .coreFault _ _ _ => true
  | .progClaim _ _ _ _ => true
  | .ctxEnable _ _ => true
  | .ctxDisable _ _ => true
  | .ctxStopDone _ => true
  | .arbitration => true
  | .preemptDone _ _ _ _ => true
  | .compositorRowEligible _ _ => true
  | .rowComposeDone _ _ => true
  | .rowPrefetchPoint _ _ => true
  | .scanoutWake _ => true
  | .surfClaim _ _ _ _ => true
  | .surfAlloc _ _ => true
  | .surfRelease _ _ => true
  | .surfScrubDone _ => true
  | .copy _ _ => true
  | .convert _ _ => true
  | .layerSet _ _ => true
  | .commit _ _ => true
  | .outCommit _ _ _ => true
  | .outEnable _ _ => true
  | .outDisable _ _ => true
  | .outputStopDone _ => true
  | .outModeWrite _ _ _ => true
  | .closePoint _ => true
  | .vbs _ => true
  | .frameStart _ => true
  | .lineMatch _ => true
  | .frameDone _ => true
  | .underrun _ _ _ _ => true
  | .linkTrainingDone _ _ _ => true
  | .linkRetryTimer _ => true
  | .hpdRise _ => true
  | .hpdFall _ _ _ => true
  | .engineFault _ _ _ => true
  | .kaolinCommit _ _ => true
  | .sigCompare _ _ _ => true
  | .ceBucketExpiry => true
  | .groupTrainingDone _ _ _ => true
  | .sparePatternTestDone _ _ => true
  | .migrationDone _ => true
  | .dqsOscCheck _ _ _ _ => true
  | .scrubBurst _ _ _ => true
  | .refresh _ => true
  | .rankPowerDown _ => true
  | .selfRefreshEntry _ => true
  | .memRetireReq _ _ => true
  | .memInjArm _ _ => true
  | .vfEnable _ _ => true
  | .vfDisable _ _ => true
  | .grantWrite _ _ _ _ => true
  | .grantShareWrite _ _ _ => true
  | .ringOwnerWrite _ _ _ => true
  | .ringEnable _ _ _ => true
  | .ringOrderWrite _ _ _ => true
  | .resizeDone _ => true
  | .vfFlr _ _ _ => true
  | .pcieFlr _ => true
  | .vfEnableClear => true
  | .pfFlr _ => true
  | .flrDone _ => true
  | .migFreeze _ _ => true
  | .migThaw _ _ => true
  | .freezeDone _ _ => true
  | .migSave _ _ => true
  | .migRestore _ _ => true
  | .imageDone _ => true
  | .logEnable _ _ _ => true
  | .logSwap _ _ _ => true
  | .logSwapDone _ => true
  | .gateQuote _ => true
  | .gateRandom _ => true
  | .gateReleaseAsk _ => true
  | .gateBadsvc _ => true
  | .gateRelease _ _ _ _ _ => true
  | .trustedTargetAccess _ _ _ _ => true
  | .pinTWrite _ _ => true
  | .dmaTWrite _ _ => true
  | .claimHoldWrite _ _ => true
  | .cutNoticeExpiry _ => true
  | .watchdogKick _ => true
  | .watchdogExpiry => true
  | .lockstepFault => true
  | .twRestartRequest => true
  | .twRestartDone _ => true
  | .attNonceWrite _ _ => true
  | .quoteSigned _ => true
  | .stuckTimeout _ _ => true
  | .driftEntry _ => true
  | .driftFrame _ _ _ => true
  | .panelEnable _ _ => true
  | .panelStartDone _ _ => true
  | .panelDisable _ _ => true
  | .panelStopDone _ => true
  | .panelRefCapture _ _ _ => true
  | .panelTestRun _ _ _ => true
  | .effectDue _ => true
  | .brakingStart _ _ => true
  | .brakingEnd _ _ => true
  | .queueHeadTimeout _ => true
  | .effectDeadline _ => true
  | .hapTrip _ _ _ => true
  | .tripProbe _ _ => true
  | .chReset _ _ _ _ => true
  | .onTimeCut _ => true
  | .dutyCut _ => true
  | .accelTimeout _ _ => true
  | .driverFault _ _ _ => true
  | .hapEnable _ => true
  | .hapReady _ => true
  | .hapDisable _ => true
  | .interlockOpen => true
  | .interlockClosed => true
  | .sndEnable _ => true
  | .sndDisable _ => true
  | .avtpPacketRx _ _ _ => true
  | .avtpPacketTx _ => true
  | .clockLockChange _ => true
  | .chimeStart _ _ => true
  | .chimeStop => true
  | .chimeEnd => true
  | .laneTrainingDone _ _ _ _ => true
  | .linkFailedRetry _ => true
  | .packetRx _ _ _ _ _ _ => true
  | .linkTimeout _ => true
  | .linkHoldExpiry _ => true
  | .hello _ _ _ _ _ => true
  | .linkStateRecordRx _ => true
  | .fabricStable => true
  | .syncExchange _ _ _ => true
  | .fabRelayWrite _ _ => true
  | .fabRelayRead _ => true
  | .relayedPduRx _ _ _ => true
  | .relayReplyRx _ _ => true
  | .spreadEnable _ _ => true
  | .spreadDisable _ _ => true
  | .spreadCommit _ _ _ => true
  | .spreadClosePoint _ => true
  | .spreadStateRx _ _ _ _ => true
  | .spreadMemberLost _ _ => true
  | .powerGood _ _ => true
  | .domainRampStart _ => true
  | .domainRampDone _ => true
  | .domainOn _ _ _ => true
  | .domainOff _ => true
  | .domHoldWrite _ _ _ => true
  | .domTwWrite _ _ => true
  | .pwrReqStandby _ => true
  | .standbyReached => true
  | .pwrReqRun _ => true
  | .pwrReset _ _ => true
  | .resetHoldExpiry => true
  | .perstDeassert _ _ _ _ _ => true
  | .hostAvailability => true
  | .throttleStepTimer => true
  | .supplyChange _ => true
  | .emergencyClear => true
  | .islGateWrite _ _ _ => true
  | .islRateWrite _ _ _ => true
  | .timeUpdate _ => true
  | .grogRetest _ _ _ => true
  | .mramRowWrite _ _ _ => true
  | .diagEnable _ _ => true
  | .sidePinEdge _ _ => true
  | .spFuncWrite _ _ _ => true
  | .spPwmWrite _ _ _ _ => true
  | .hapticPlay _ _ => true
  | .touchBuf _ _ => true
  | .attackEnd _ => true
  | .effectFits _ => true
  | .balanceMoveDone => true
  | .linkBringUp _ => true

/-- A well-formed command. -/
def Instr.wf (i : Instr) : Bool := (i.request?.map DictReq.wf).getD true && i.limits

end Sys2Proof
end

