-- ==== Sys2Proof/Certificates/Slice0/Obligations.lean ====
section
/-!
DEFINITION. The statements for the provers, by family of commands.
-/

open Sys2Proof Sys2Proof.Machine

/-! ## The step, reset, the invariant -/

/-- A step takes the command at the front of the queue and runs it on the queue's rest. -/
def Obligations.StepRunsFrontCommand : Prop :=
  ∀ (c : Instr) (s : State) (rest : List Instr), s.pending = c :: rest → step s = exec c { s with pending := rest }

/-- On an empty queue a nanosecond of module time passes and no command runs (log 2: the model's choice). -/
def Obligations.IdleStepPassesTime : Prop :=
  ∀ s : State, s.pending = [] →
    ∃ t, step s = .next t ∧ t.now = (s.now + 1) % 2 ^ 64 ∧ t.pending = [] ∧ t.resp = s.resp ∧ t.mram = s.mram

/-- The module before its first power good: nothing waits, no session is open, the slots count as freed from 0 to 47 (R27), every
change counter is 0 (R20) and every object holds its default, and the invariant holds. -/
def Obligations.ResetState : Prop :=
  State.reset.pending = [] ∧ State.reset.freeSlots = List.range 48 ∧ (∀ i, (sessOf State.reset i).isOpen = false) ∧
  (∀ k, ctrOf State.reset k = 0) ∧ (∀ k, getV State.reset k = defaultVal k) ∧ Inv State.reset

/-- Every step keeps the invariant. -/
def Obligations.StepKeepsInvariant : Prop :=
  ∀ s t : State, Inv s → step s = .next t → Inv t

/-- A command changes no more of the state than its line of `mayChange` says; none touches the queue, and none but TIME_UPDATE the
module time. -/
def Obligations.CommandsChangeNoMore : Prop :=
  ∀ (c : Instr) (s t : State), exec c s = .next t →
    Changes (mayChange c) s t ∧ t.pending = s.pending ∧ ((∀ m, c ≠ .timeUpdate m) → t.now = s.now)

/-! ## Sessions -/

/-- OPEN gives out the slot that has been free longest, under its next generation, with the lease asked for or sess.lease, and
answers OK with the session's identifier and lease (R27, R28). Other sessions and every object stay. An OPEN that finds all slots in
use is refused with FULL and opens nothing (R27). -/
def Obligations.OpenSession : Prop :=
  (∀ (s : State) (r : DictReq) (lease : BitVec 16) (tag : BitVec 32) (i : Nat) (rest : List Nat),
      r.session = 0 → pathUp s r.src = true → s.freeSlots = i :: rest → (lease = 0 ∨ 100 ≤ lease.toNat ∧ lease.toNat ≤ 60000) →
      (r.src = .can → sbSessions s < 4) →
      ∃ t x, exec (.openCmd r lease tag) s = .next t ∧ t.resp = some (r.src, x) ∧ x.op = 0x01 ∧ x.status = .ok ∧
        x.payload.take 4 = leBytes 2 (i + 64 * nextSessGen (sessOf s i).gen) ++
          leBytes 2 (if lease = 0 then getN s (objKey 0x1302 0) else lease.toNat) ∧ t.freeSlots = rest ∧
        sessOf t i = { isOpen := true, gen := nextSessGen (sessOf s i).gen, role := roleOf s r.src, func := funcOfCarrier r.src
                       src := some r.src, tag := tag.toNat, lease := if lease = 0 then getN s (objKey 0x1302 0) else lease.toNat
                       renewed := s.now } ∧
        (∀ j, j ≠ i → sessOf t j = sessOf s j) ∧ Changes [.sess, .freeSlots, .resp] s t) ∧
  (∀ (s : State) (r : DictReq) (lease : BitVec 16) (tag : BitVec 32),
      r.session = 0 → pathUp s r.src = true → s.freeSlots = [] → (lease = 0 ∨ 100 ≤ lease.toNat ∧ lease.toNat ≤ 60000) →
      ∃ t, exec (.openCmd r lease tag) s = .next t ∧ answered t r 0x01 .full ∧ Changes [.fresh, .resp] s t)

/-- CLOSE, KEEPALIVE and SUBSCRIBE in a session. CLOSE frees the slot and keeps nothing of the session but its generation (R29);
KEEPALIVE renews the lease and answers the time (R28); SUBSCRIBE sets the mask (R39). Other sessions and every object stay. -/
def Obligations.SessionCommands : Prop :=
  (∀ (s : State) (r : DictReq) (i : Nat), Admitted s r i .close →
    ∃ t, exec (.close r) s = .next t ∧ answered t r 0x02 .ok ∧ sessOf t i = { gen := (sessOf s i).gen } ∧
      t.freeSlots = s.freeSlots ++ [i] ∧ (∀ j, j ≠ i → sessOf t j = sessOf s j) ∧ Changes [.sess, .freeSlots, .resp] s t) ∧
  (∀ (s : State) (r : DictReq) (i : Nat), Admitted s r i .keepalive →
    ∃ t x, exec (.keepalive r) s = .next t ∧ t.resp = some (r.src, x) ∧ x.op = 0x03 ∧ x.status = .ok ∧ x.payload = leBytes 8 s.now ∧
      (sessOf t i).renewed = s.now ∧ (∀ j, j ≠ i → sessOf t j = sessOf s j) ∧ Changes [.sess, .resp] s t) ∧
  (∀ (s : State) (r : DictReq) (i : Nat) (mask : BitVec 32), Admitted s r i (.subscribe mask) →
    ∃ t, exec (.subscribe r mask) s = .next t ∧ answered t r 0x20 .ok ∧ (sessOf t i).mask = mask.toNat ∧
      (sessOf t i).renewed = s.now ∧ (∀ j, j ≠ i → sessOf t j = sessOf s j) ∧ Changes [.sess, .resp] s t)

/-- At a check of the leases every open session whose full lease has passed since its last renewal ends and its slot is free; every
other session stays as it is (R28, R29). -/
def Obligations.LeaseExpiryEndsExactlyTheExpired : Prop :=
  ∀ s : State, Inv s → ∃ t, exec .leaseExpiry s = .next t ∧ Changes [.sess, .freeSlots] s t ∧
    ∀ i, ((sessOf s i).isOpen = true → (sessOf s i).renewed + (sessOf s i).lease * 1000000 ≤ s.now →
        sessOf t i = { gen := (sessOf s i).gen } ∧ i ∈ t.freeSlots) ∧
      ((sessOf s i).isOpen = false ∨ s.now < (sessOf s i).renewed + (sessOf s i).lease * 1000000 → sessOf t i = sessOf s i)

/-- A request whose session and sequence number match a kept response is answered from the cache and not executed again: whatever it
asks, only the lease and the answer change. The response to any other request is kept with its sequence number beside the last three
before it, and never more than four are (R34). -/
def Obligations.CachedRequestIsNotExecutedAgain : Prop :=
  (∀ (s : State) (r : DictReq) (i : Nat) (n : Nat) (x : Response) (q : Request) (found : Option Nat), pathUp s r.src = true →
    slotOfId s r.session.toNat = some i → (sessOf s i).src.map (sameCarrier r.src) = some true →
    (sessOf s i).cache.find? (fun e => e.1 == r.seq.toNat) = some (n, x) →
    request s r q found = .next { renewed s i with resp := some (r.src, x) } ∧
    (∀ h d, exec (.write r h d) s = .next { renewed s i with resp := some (r.src, x) })) ∧
  (∀ (s t : State) (r : DictReq) (i : Nat) (q : Request) (found : Option Nat), Admitted s r i q →
    request s r q found = .next t → slotOfId t r.session.toNat = some i →
    ∃ x, t.resp = some (r.src, x) ∧ (sessOf t i).cache = lastN 4 ((sessOf s i).cache ++ [(r.seq.toNat, x)])) ∧
  (∀ s : State, Inv s → ∀ i, (sessOf s i).cache.length ≤ 4)

/-- A write without a session, or with the identifier of none, is refused with LEASE and writes nothing (R29, R30). -/
def Obligations.NoSessionNoWrite : Prop :=
  ∀ (s : State) (r : DictReq) (h : ItemHdr) (d : List Byte), pathUp s r.src = true → slotOfId s r.session.toNat = none →
    ∃ t, exec (.write r h d) s = .next t ∧ answered t r 0x11 .lease ∧ Changes [.resp] s t

/-! ## Reading and writing the dictionary -/

/-- READ and DESCRIBE in a session. A READ that the requester may make answers the item header, the change counter and the value
(R20, R26); DESCRIBE of an object that is no alias answers the bytes of Table DI-8 (R19). Neither changes an object. -/
def Obligations.ReadAndDescribe : Prop :=
  (∀ (s : State) (r : DictReq) (i : Nat) (h : ItemHdr) (row : ObjRow) (v : Val),
    Admitted s r i (.read h) → rowFor h = some row →
    mayReadObj (renewed s i) (requester s r) row (targetOf h.index.toNat h.sub.toNat).1 (targetOf h.index.toNat h.sub.toNat).2 = true →
    (h.ty = 0 ∨ h.ty.toNat = row.ty.code) →
    readObj (renewed s i) (requester s r) (targetOf h.index.toNat h.sub.toNat).1 (targetOf h.index.toNat h.sub.toNat).2 = (.ok, v) →
    pinHidden s (requester s r) (targetOf h.index.toNat h.sub.toNat).1 = false → 18 + (encodeVal row.ty v).length ≤ maxPdu r.src →
    ∃ t x, exec (.read r h) s = .next t ∧ t.resp = some (r.src, x) ∧ x.op = 0x10 ∧ x.status = .ok ∧
      x.payload = leBytes 2 h.index.toNat ++ leBytes 1 h.sub.toNat ++ leBytes 1 row.ty.code ++ leBytes 2 (ctrFor s h) ++ encodeVal row.ty v ∧
      Changes [.sess, .resp] s t) ∧
  (∀ (s : State) (r : DictReq) (i : Nat) (h : ItemHdr) (row : ObjRow) (j : Nat),
    Admitted s r i (.describe h) → (sessOf s i).role ≠ .vf → lookupObj h.index.toNat h.sub.toNat = some (row, j) →
    targetOf h.index.toNat h.sub.toNat = (h.index.toNat, h.sub.toNat) → (h.ty = 0 ∨ h.ty.toNat = row.ty.code) →
    12 + (describeBytes row row j).length ≤ maxPdu r.src →
    ∃ t x, exec (.describe r h) s = .next t ∧ t.resp = some (r.src, x) ∧ x.op = 0x13 ∧ x.status = .ok ∧
      x.payload = describeBytes row row j ∧ Changes [.sess, .resp] s t)

/-- WRITE and WRITE_IF of an object that no rule of its own singles out, a surface's width: in range and from who may write it, the
value is in force, the counter moves by one, modulo 65536, exactly if the value changed, and nothing else moves (R20, R75). A
WRITE_IF whose expected counter is not the object's is refused with STALE and changes nothing (R32). -/
def Obligations.WriteAndWriteIf : Prop :=
  ∀ (s : State) (r : DictReq) (i : Nat) (slot : Fin 2048) (n : BitVec 16) (e : BitVec 16),
    ownerSession s i (getN s (K.surfOwner slot)) → getB s (K.surfAlloc slot) = false → isYuv (getN s (K.surfFormat slot)) = false →
    1 ≤ n.toNat → n.toNat ≤ 8192 →
    (Admitted s r i (.write ⟨BitVec.ofNat 16 (0x3800 + slot), 4, 2⟩ (leBytes 2 n.toNat)) →
      ∃ t, exec (.write r ⟨BitVec.ofNat 16 (0x3800 + slot), 4, 2⟩ (leBytes 2 n.toNat)) s = .next t ∧ answered t r 0x11 .ok ∧
        getN t (K.surfWidth slot) = n.toNat ∧
        ctrOf t (K.surfWidth slot) = (if getV s (K.surfWidth slot) = .num n.toNat then ctrOf s (K.surfWidth slot)
          else (ctrOf s (K.surfWidth slot) + 1) % 65536) ∧
        onlyObjs [K.surfWidth slot] s t ∧ Changes [.objs, .sess, .resp] s t) ∧
    (Admitted s r i (.writeIf ⟨BitVec.ofNat 16 (0x3800 + slot), 4, 2⟩ e (leBytes 2 n.toNat)) → e.toNat = ctrOf s (K.surfWidth slot) →
      ∃ t, exec (.writeIf r ⟨BitVec.ofNat 16 (0x3800 + slot), 4, 2⟩ e (leBytes 2 n.toNat)) s = .next t ∧ answered t r 0x12 .ok ∧
        getN t (K.surfWidth slot) = n.toNat ∧ onlyObjs [K.surfWidth slot] s t ∧ Changes [.objs, .sess, .resp] s t) ∧
    (Admitted s r i (.writeIf ⟨BitVec.ofNat 16 (0x3800 + slot), 4, 2⟩ e (leBytes 2 n.toNat)) → e.toNat ≠ ctrOf s (K.surfWidth slot) →
      ∃ t, exec (.writeIf r ⟨BitVec.ofNat 16 (0x3800 + slot), 4, 2⟩ e (leBytes 2 n.toNat)) s = .next t ∧ answered t r 0x12 .stale ∧
        Changes [.fresh, .sess, .resp] s t)

/-- Segmented transfers (R35). A READ_SEG answers the segment at its offset, as much of it as was asked for and fits, with MORE
while bytes remain. A segment of a program's code that does not end it is kept in the session and changes no object; the one that
ends it applies the assembled code, and translation starts (R175). -/
def Obligations.SegmentedTransfers : Prop :=
  (∀ (s : State) (r : DictReq) (i : Nat) (h : ItemHdr) (offset : BitVec 32) (length : BitVec 16) (row : ObjRow) (v : Val),
    Admitted s r i (.readSeg h offset length) → rowFor h = some row → row.ty = .blob → (h.ty = 0 ∨ h.ty.toNat = 9) →
    targetOf h.index.toNat h.sub.toNat = (h.index.toNat, h.sub.toNat) →
    mayReadObj (renewed s i) (requester s r) row h.index.toNat h.sub.toNat = true →
    readObj (renewed s i) (requester s r) h.index.toNat h.sub.toNat = (.ok, v) →
    (offset = 0 ∨ tfind (sessOf s i).reads (objKey h.index.toNat h.sub.toNat) = some (ctrFor s h)) → length ≠ 0 →
    offset.toNat ≤ v.toBytes.length →
    ∃ t x, exec (.readSeg r h offset length) s = .next t ∧ t.resp = some (r.src, x) ∧ x.op = 0x14 ∧ x.status = .ok ∧
      x.payload = leBytes 2 h.index.toNat ++ leBytes 1 h.sub.toNat ++ leBytes 1 9 ++ leBytes 2 (ctrFor s h) ++ leBytes 4 offset.toNat ++
        ((v.toBytes.drop offset.toNat).take length.toNat).take (maxPdu r.src - 22) ∧
      (x.more = true ↔ offset.toNat + (((v.toBytes.drop offset.toNat).take length.toNat).take (maxPdu r.src - 22)).length < v.toBytes.length) ∧
      Changes [.sess, .resp] s t) ∧
  (∀ (s : State) (r : DictReq) (i : Nat) (slot : Fin 256) (total : BitVec 32) (data : List Byte),
    Admitted s r i (.writeSeg ⟨BitVec.ofNat 16 (0x3500 + slot), 2, 9⟩ 0 total data) → ownerSession s i (getN s (K.progOwner slot)) →
    total.toNat ≤ 1048576 → data.length ≤ total.toNat →
    ∃ t, exec (.writeSeg r ⟨BitVec.ofNat 16 (0x3500 + slot), 2, 9⟩ 0 total data) s = .next t ∧ answered t r 0x15 .ok ∧
      (data.length < total.toNat → (sessOf t i).writes.find? (fun w => w.key == K.progCode slot) =
          some ⟨K.progCode slot, ctrOf s (K.progCode slot), total.toNat, [(0, data)]⟩ ∧ Changes [.sess, .resp] s t) ∧
      (data.length = total.toNat → getBytes t (K.progCode slot) = data ∧ getN t (K.progState slot) = 1 ∧
        onlyObjs [K.progCode slot, K.progState slot] s t ∧ Changes [.fresh, .objs, .sess, .resp] s t))

/-- A GROUP applies all of its items, in order, or none: if each is accepted at the state the ones before it leave, the answer is OK
and the state is theirs; if one is refused, the answer carries its status and its position and no object has changed (R33). -/
def Obligations.GroupAllOrNone : Prop :=
  (∀ (s u : State) (r : DictReq) (i : Nat) (items : List (ItemHdr × List Byte)), Admitted s r i (.group items) → items.length ≤ 32 →
    writesAll (renewed s i) (requester s r) items = some u →
    ∃ t x, exec (.group r items) s = .next t ∧ t.resp = some (r.src, x) ∧ x.op = 0x16 ∧ x.status = .ok ∧ x.aux = 0 ∧
      Changes [.sess, .resp] u t) ∧
  (∀ (s u : State) (r : DictReq) (i : Nat) (before after : List (ItemHdr × List Byte)) (item : ItemHdr × List Byte) (w : WriteOut),
    Admitted s r i (.group (before ++ item :: after)) → (before ++ item :: after).length ≤ 32 →
    writesAll (renewed s i) (requester s r) before = some u → writeObj u (requester s r) item.1 item.2 none = w →
    w.status.applied = false → w.status ≠ .claimed →
    ∃ t x, exec (.group r (before ++ item :: after)) s = .next t ∧ t.resp = some (r.src, x) ∧ x.op = 0x16 ∧ x.status = w.status ∧
      x.aux = before.length + 1 ∧ Changes [.sess, .resp] s t)

/-- A manager's write of sys.defaults with 0x5A is answered OK, changes no object, and asks for the factory defaults at the next start;
that start drops every stored value of class RWS and no other, and the asking with them (R18, R23). -/
def Obligations.DefaultsAtNextStart : Prop :=
  (∀ (s : State) (r : DictReq) (i : Nat), AdmittedWrite s r i (objKey 0x1F00 0) 0x5A → managerSession s i →
    ∃ t, exec (.sysDefaults r 0x5A) s = .next t ∧ answered t r 0x11 .ok ∧ t.defaultsDue = true ∧ Changes [.defaultsDue, .sess, .resp] s t) ∧
  (∀ (s : State) (cause : Nat), s.defaultsDue = true → (moduleStart s cause).defaultsDue = false ∧
    ∀ e, e ∈ (moduleStart s cause).mram ↔ e ∈ s.mram ∧ accOf e.1 ≠ some .rws) ∧
  (∀ (s : State) (cause : Nat), s.defaultsDue = false → (moduleStart s cause).mram = s.mram)

/-! ## Transports -/

/-- A function's portal. PORTAL_GO with a well-formed request makes it active, clears DONE and REJECT, and runs the request as the
portal's, whose response then waits; with a malformed one the portal is not active, the PDU is counted and nothing answered; while the
portal is active it only sets REJECT. The host's writes of the request area and its length stand in each (R37, R41). The response appears
with DONE and its length, and the portal's vector is raised; that of a write which disables a VF waits for the VF's reset (R286). -/
def Obligations.PortalExchange : Prop :=
  (∀ (s : State) (f : Fin 65) (pdu : List Byte), pathUp s (.portal f) = true → (portalOf s f).active = true →
    ∃ t, exec (.portalGo f pdu) s = .next t ∧ Changes [.portals] s t ∧ portalOf t f = { portalOf s f with
      reqLen := pdu.length, req := pdu.take 1984 ++ (portalOf s f).req.drop pdu.length, reject := true }) ∧
  (∀ (s : State) (f : Fin 65) (pdu : List Byte), pathUp s (.portal f) = true → (portalOf s f).active = false → parsePdu pdu = none →
    ∃ t, exec (.portalGo f pdu) s = .next t ∧ portalOf t f = { portalOf s f with
        reqLen := pdu.length, req := pdu.take 1984 ++ (portalOf s f).req.drop pdu.length, done := false, reject := false, waiting := none } ∧
      getN t K.dictRxBad = satInc 32 (getN s K.dictRxBad) ∧ onlyObjs [K.dictRxBad] s t ∧ Changes [.objs, .portals] s t) ∧
  (∀ (s : State) (f : Fin 65) (pdu : List Byte) (id seq : Nat) (q : Request), pathUp s (.portal f) = true →
    (portalOf s f).active = false → parsePdu pdu = some (id, seq, q) →
    ∃ t u v x, exec (.portalGo f pdu) s = .next t ∧ Changes [.portals] s u ∧ portalOf u f = { portalOf s f with
        reqLen := pdu.length, req := pdu.take 1984 ++ (portalOf s f).req.drop pdu.length
        done := false, reject := false, active := true, waiting := none } ∧
      dictRequest u ⟨.portal f, BitVec.ofNat 16 id, BitVec.ofNat 16 seq⟩ q pdu.length none = (v, some x) ∧ v.resp = some (.portal f, x) ∧
      Changes [.portals] v t ∧ (portalOf t f).waiting = some x.bytes) ∧
  (∀ (s : State) (f : Fin 65) (b : List Byte), (portalOf s f).waiting = some b →
    (∀ v ∈ (portalOf s f).awaits, (funcOf s v).flrSince = none) →
    ∃ u, exec (.portalResponse f) s = .next (raiseVec u f (portalVec s f)) ∧ Changes [.portals] s u ∧ portalOf u f = { portalOf s f with
      done := true, active := false, rspLen := b.length, rsp := b ++ (portalOf s f).rsp.drop b.length, waiting := none }) ∧
  (∀ (s : State) (f : Fin 65) (v : Nat), v ∈ (portalOf s f).awaits → (funcOf s v).flrSince.isSome = true →
    exec (.portalResponse f) s = .next s)

/-- The side-band. A frame with a whole request is executed; the first of several is kept; one out of order discards the PDU and
counts it; a frame on another identifier is none of the module's (R43, R44). The bus takes Kaolin's oldest waiting frame first: 64
bytes on identifier 0x0C0 + can.node (R43, R45, R159). A request frame in STANDBY wakes the module where pwr.wake.can is true (R445). -/
def Obligations.SideBand : Prop :=
  (∀ (s : State) (ident : BitVec 11) (b : List Byte) (len : Nat), s.power.good = true → ident.toNat = 0x500 + getN s K.canNode →
    inMode s 3 = false → s.can = {} → len = 12 + ofLe ((b.drop 8).take 2) → len ≤ 63 → len ≤ b.length →
    ∃ t, exec (.canSegmentRx ident (0xC0 :: b)) s = .next t ∧ t = (pduRx s .can (b.take len)).1) ∧
  (∀ (s : State) (ident : BitVec 11) (b : List Byte), s.power.good = true → ident.toNat = 0x500 + getN s K.canNode →
    inMode s 3 = false → s.can = {} → b.length = 63 →
    ∃ t, exec (.canSegmentRx ident (0x40 :: b)) s = .next t ∧ t.can = ⟨1, b⟩ ∧ Changes [.can] s t) ∧
  (∀ (s : State) (ident : BitVec 11) (ctl : Byte) (b : List Byte), s.power.good = true → ident.toNat = 0x500 + getN s K.canNode →
    inMode s 3 = false → 0 < s.can.next → s.can.next < 8 → bitOf ctl.toNat 6 = false → ctl.toNat % 64 ≠ s.can.next →
    ∃ t, exec (.canSegmentRx ident (ctl :: b)) s = .next t ∧ getN t K.dictRxBad = satInc 32 (getN s K.dictRxBad) ∧
      t.can = ⟨if bitOf ctl.toNat 7 then 0 else 64, []⟩ ∧ onlyObjs [K.dictRxBad] s t ∧ Changes [.objs, .can] s t) ∧
  (∀ (s : State) (ident : BitVec 11) (data : List Byte), ident.toNat ≠ 0x500 + getN s K.canNode →
    exec (.canSegmentRx ident data) s = .next s) ∧
  (∀ (s : State) (x : EventFrame) (before after : List EventFrame), s.power.good = true → s.frames = before ++ x :: after →
    ((x.kaolin = true ∧ ∀ y ∈ before, y.kaolin = false) ∨ (before = [] ∧ ∀ y ∈ s.frames, y.kaolin = false)) →
    ∃ t, exec .eventFrameTx s = .next t ∧ t.frameSent = some (0x0C0 + getN s K.canNode, x.note.frame) ∧ t.frames = before ++ after ∧ Changes [.frames, .frameSent] s t) ∧
  (∀ (s : State) (data : List Byte), s.power.good = true → inMode s 3 = true → getB s K.pwrWakeCan = true → s.can = {} →
    bitOf (data.headD 0).toNat 7 = false →
    ∃ t, exec (.wakeCanFrame data) s = .next t ∧ t.power.step = 3 ∧ getN t K.pwrCause = 3 ∧ getN t K.pwrMode = 0)

/-- A PDU whose header is malformed is discarded and counted, and answered by nothing; an opcode that Table DI-8 does not list is
answered with RANGE and an empty payload (R37). -/
def Obligations.BadPdus : Prop :=
  (∀ (s : State) (pdu : List Byte), parsePdu pdu = none →
    ∃ t, exec (.malformedPdu pdu) s = .next t ∧ getN t K.dictRxBad = satInc 32 (getN s K.dictRxBad) ∧ t.resp = s.resp ∧
      onlyObjs [K.dictRxBad] s t ∧ Changes [.objs] s t) ∧
  (∀ (s : State) (r : DictReq) (i : Nat) (op : BitVec 8), Admitted s r i (.unknown op) →
    op.toNat ∉ [0x01, 0x02, 0x03, 0x10, 0x11, 0x12, 0x13, 0x14, 0x15, 0x16, 0x20] →
    ∃ t x, exec (.unknownOpcode r op) s = .next t ∧ t.resp = some (r.src, x) ∧ x.op = op.toNat ∧ x.status = .range ∧ x.payload = [] ∧
      Changes [.sess, .resp] s t)

/-- Requests over the fabric. A manager's write of fab.relay to a node that a route reaches is accepted, and leaves the session waiting
for that node's reply; until it comes a read answers BUSY; the reply is stored, and a read answers the node and the reply (R417, R418). A relayed PDU is executed as a
request of the fabric port while the management cluster serves. The trusted world's port: while its firmware runs, a READ that the
trusted role may make is answered at the port, without a session (R307). -/
def Obligations.RelayAndTrustedPort : Prop :=
  ((∀ (s : State) (r : DictReq) (i : Nat) (a : Fin 64) (pdu : List Byte),
      Admitted s r i (blobWrite 0x9100 0 (leBytes 1 a ++ leBytes 3 0 ++ pdu)) → managerSession s i → (parsePdu pdu).isSome = true →
      pdu.length ≤ 1024 → getN s (K.fabNodeSerial a) ≠ 0 → moduleReachable s (getN s (K.fabNodeSerial a)) = true →
      ∃ t, exec (.fabRelayWrite r (leBytes 1 a ++ leBytes 3 0 ++ pdu)) s = .next t ∧ answered t r 0x11 .ok ∧
        (sessOf t i).relayWait = true ∧ (sessOf t i).relayDest = some a.val ∧ (sessOf t i).relayReply = none ∧ Changes [.sess, .resp] s t) ∧
    (∀ (s : State) (session : BitVec 16) (i : Nat) (pdu : List Byte), slotOfId s session.toNat = some i → (sessOf s i).relayWait = true →
      ∃ t, exec (.relayReplyRx session pdu) s = .next t ∧ (sessOf t i).relayWait = false ∧ (sessOf t i).relayReply = some pdu ∧
        (∀ j, j ≠ i → sessOf t j = sessOf s j) ∧ Changes [.sess] s t) ∧
    (∀ (s : State) (r : DictReq) (i : Nat), Admitted s r i (.read ⟨0x9100, 0, 0⟩) → managerSession s i → (sessOf s i).relayWait = true →
      ∃ t, exec (.fabRelayRead r) s = .next t ∧ answered t r 0x10 .busy ∧ Changes [.fresh, .sess, .resp] s t) ∧
    (∀ (s : State) (r : DictReq) (i : Nat) (b : List Byte), Admitted s r i (.read ⟨0x9100, 0, 0⟩) → managerSession s i →
      (sessOf s i).relayWait = false → (sessOf s i).relayReply = some b → 24 + b.length ≤ maxPdu r.src →
      ∃ t x, exec (.fabRelayRead r) s = .next t ∧ t.resp = some (r.src, x) ∧ x.status = .ok ∧
        x.payload = leBytes 2 0x9100 ++ [0, 9] ++ leBytes 2 (ctrOf s K.fabRelay) ++
          leBytes 2 (4 + b.length) ++ leBytes 1 ((sessOf s i).relayDest.getD 0) ++ leBytes 3 0 ++ b ∧ Changes [.sess, .resp] s t) ∧
    (∀ (s : State) (serial : BitVec 64) (mgr : Bool) (pdu : List Byte), s.served = true →
      exec (.relayedPduRx serial mgr pdu) s = .next (pduRx s (.relay serial mgr) pdu).1)) ∧
  (∀ (s : State) (h : ItemHdr) (row : ObjRow) (v : Val), firmwareRuns s = true → rowFor h = some row →
      mayReadObj s { role := .tw } row (targetOf h.index.toNat h.sub.toNat).1 (targetOf h.index.toNat h.sub.toNat).2 = true → h.ty = 0 →
      readObj s { role := .tw } (targetOf h.index.toNat h.sub.toNat).1 (targetOf h.index.toNat h.sub.toNat).2 = (.ok, v) →
      ∃ t x, exec (.twDictRequest (.read h)) s = .next t ∧ t.twResp = some x ∧ x.op = 0x10 ∧ x.status = .ok ∧
        x.payload = leBytes 2 h.index.toNat ++ leBytes 1 h.sub.toNat ++ leBytes 1 row.ty.code ++ leBytes 2 (ctrFor s h) ++ encodeVal row.ty v ∧
        Changes [.twResp] s t)

/-! ## Surfaces and Tilth's moves -/

/-- surf.owner is set with WRITE_IF, naming the counter read before: by a VF from 0xFF to its own number, or back while surf.alloc is
false, by the manager to any function. The owner is set and its counter advances, and no other object changes. A counter that has
moved is answered STALE, a VF's claim beyond its grant RANGE (R75, R20, R32, R284). -/
def Obligations.SurfaceClaim : Prop :=
  ∀ (s : State) (r : DictReq) (i : Nat) (slot : Fin 2048) (expected : BitVec 16) (owner : BitVec 8),
    AdmittedClaim s r i (K.surfOwner slot) owner.toNat expected → mayOwn s i (getN s (K.surfOwner slot)) owner.toNat →
    (expected.toNat = ctrOf s (K.surfOwner slot) → grantLeft s 0x3800 0x4000 (getN s (K.grantSurfaces owner.toNat)) owner.toNat →
      getB s (K.surfAlloc slot) = false → getN s (K.surfOwner slot) ≠ owner.toNat →
      ∃ t, exec (.surfClaim r slot expected owner) s = .next t ∧ answered t r 0x12 .ok ∧ getN t (K.surfOwner slot) = owner.toNat ∧
        ctrOf t (K.surfOwner slot) = (ctrOf s (K.surfOwner slot) + 1) % 65536 ∧ onlyObjs [K.surfOwner slot] s t ∧
        Changes [.objs, .sess, .resp] s t) ∧
    (expected.toNat ≠ ctrOf s (K.surfOwner slot) →
      ∃ t, exec (.surfClaim r slot expected owner) s = .next t ∧ answered t r 0x12 .stale ∧ Changes [.fresh, .sess, .resp] s t) ∧
    (expected.toNat = ctrOf s (K.surfOwner slot) → (sessOf s i).role = .vf → getN s (K.surfOwner slot) = 0xFF →
      0 < owner.toNat → owner.toNat < 64 → vfOn s owner.toNat = true →
      getN s (K.grantSurfaces owner.toNat) ≤ ownedCount s 0x3800 0x4000 owner.toNat →
      ∃ t, exec (.surfClaim r slot expected owner) s = .next t ∧ answered t r 0x12 .range ∧ Changes [.fresh, .sess, .resp] s t)

/-- surf.alloc true of a claimed slot with a size within its owner's quota and with a unit that has room: the slot has the next
generation's handle, its memory reads as zero, and nothing but the slot, the Tilth log and its counts changes (R74, R76, R236,
R238). A write of true is refused with RANGE where the size exceeds the quota left or the width or height is 0; while surf.alloc is
true, writes of the format, layout, width and height are refused with BUSY (R76). -/
def Obligations.SurfaceAllocation : Prop :=
  (∀ (s : State) (r : DictReq) (i : Nat) (slot : Fin 2048) (u : Nat) (kept : Bool),
    AdmittedWrite s r i (K.surfAlloc slot) 1 → ownerSession s i (getN s (K.surfOwner slot)) → getN s (K.surfOwner slot) ≠ 0xFF →
    getB s (K.surfAlloc slot) = false → getN s (K.surfWidth slot) ≠ 0 → getN s (K.surfHeight slot) ≠ 0 →
    slotSize s slot ≤ quotaLeft s (getN s (K.surfOwner slot)) →
    chooseUnit s (slotSize s slot) (getN s (K.surfHint slot)) = some (u, kept) →
    ∃ t, exec (.surfAlloc r slot) s = .next t ∧ answered t r 0x11 .ok ∧ getB t (K.surfAlloc slot) = true ∧
      getN t (K.surfHandle slot) = slot + 65536 * nextGen (surfOf s slot).gen ∧ (surfOf t slot).unit = u ∧
      (∀ a, dramKey (rankOfUnit s u) ((surfOf t slot).base / 16) 0 ≤ a →
        a < dramKey (rankOfUnit s u) (ceilDiv ((surfOf t slot).base + slotSize s slot) 16) 0 → memGet t.dram a = 0) ∧
      (∀ j, j ≠ slot.val → surfOf t j = surfOf s j) ∧
      onlyObjs [K.surfAlloc slot, K.surfHandle slot, K.tilthSeq, K.tilthHintMiss] s t ∧
      Changes [.objs, .surfs, .dram, .tilthLog, .sess, .resp] s t) ∧
  (∀ (s : State) (r : DictReq) (i : Nat) (slot : Fin 2048),
    AdmittedWrite s r i (K.surfAlloc slot) 1 → ownerSession s i (getN s (K.surfOwner slot)) → getB s (K.surfAlloc slot) = false →
    quotaLeft s (getN s (K.surfOwner slot)) < slotSize s slot ∨ getN s (K.surfWidth slot) = 0 ∨ getN s (K.surfHeight slot) = 0 →
    ∃ t, exec (.surfAlloc r slot) s = .next t ∧ answered t r 0x11 .range ∧ Changes [.fresh, .sess, .resp] s t) ∧
  (∀ (s : State) (r : DictReq) (i : Nat) (slot : Fin 2048) (sub v : Nat) (row : ObjRow) (j : Nat), 2 ≤ sub → sub ≤ 5 →
    Admitted s r i (numWrite (0x3800 + slot) sub v) → ownerSession s i (getN s (K.surfOwner slot)) → getB s (K.surfAlloc slot) = true →
    lookupObj (0x3800 + slot) sub = some (row, j) → inRange row (.num v) = true → v < 65536 → yuvOk s slot sub v = true →
    ∃ t, request s r (numWrite (0x3800 + slot) sub v) = .next t ∧ answered t r 0x11 .busy ∧ Changes [.fresh, .sess, .resp] s t)

/-- surf.alloc false while no layer names the surface: accepted at once, the handle is invalid, and the memory waits to be
overwritten (R81). Once no fetched command names the surface, its memory reads as zero and is back in the quota. -/
def Obligations.SurfaceRelease : Prop :=
  (∀ (s : State) (r : DictReq) (i : Nat) (slot : Fin 2048),
    AdmittedWrite s r i (K.surfAlloc slot) 0 → ownerSession s i (getN s (K.surfOwner slot)) → getB s (K.surfAlloc slot) = true →
    layerNames s (getN s (K.surfHandle slot)) = false → getV s (K.surfAlloc slot) = .num 1 →
    ∃ t, exec (.surfRelease r slot) s = .next t ∧ answered t r 0x11 .ok ∧ getB t (K.surfAlloc slot) = false ∧
      getN t (K.surfHandle slot) = 0 ∧
      t.scrubs = s.scrubs ++ [⟨slot, getN s (K.surfHandle slot), getN s (K.surfOwner slot), (surfOf s slot).unit, (surfOf s slot).base,
        slotSize s slot⟩] ∧
      onlyObjs [K.surfAlloc slot, K.surfHandle slot] s t ∧ Changes [.objs, .surfs, .scrubs, .sess, .resp] s t) ∧
  (∀ (s : State) (slot : Fin 2048) (x : Scrub), s.scrubs.find? (fun x => x.slot == slot.val) = some x → handleInUse s x.handle = false →
    ∃ t, exec (.surfScrubDone slot) s = .next t ∧ t.scrubs = s.scrubs.erase x ∧
      (∀ a, dramKey (rankOfUnit s x.unit) (x.base / 16) 0 ≤ a → a < dramKey (rankOfUnit s x.unit) (ceilDiv (x.base + x.size) 16) 0 →
        memGet t.dram a = 0) ∧
      (∀ a, a < dramKey (rankOfUnit s x.unit) (x.base / 16) 0 ∨ dramKey (rankOfUnit s x.unit) (ceilDiv (x.base + x.size) 16) 0 ≤ a →
        dramKey (rankOfUnit s x.unit) (x.base / 16) 0 ≤ dramKey (rankOfUnit s x.unit) (ceilDiv (x.base + x.size) 16) 0 →
        memGet t.dram a = memGet s.dram a) ∧ Changes [.scrubs, .dram] s t)

/-- A write of surf.alloc false is refused with BUSY, and changes nothing of the surface, while a layer names it (R81). -/
def Obligations.NamedSurfaceIsNotReleased : Prop :=
  ∀ (s : State) (r : DictReq) (i : Nat) (slot : Fin 2048),
    AdmittedWrite s r i (K.surfAlloc slot) 0 → ownerSession s i (getN s (K.surfOwner slot)) → getB s (K.surfAlloc slot) = true →
    layerNames s (getN s (K.surfHandle slot)) = true →
    ∃ t, exec (.surfRelease r slot) s = .next t ∧ answered t r 0x11 .busy ∧ Changes [.fresh, .sess, .resp] s t

/-- A second's measurement is recorded; with the third second of imbalance a move begins, to the least busy unit that has room, of a
surface that may move (R237). At its end, no sooner than tilth.move.rate lets it, the surface lies on the
new unit. Where in its unit a moved or a newly allocated surface lies is
the model's choice (log 40). -/
def Obligations.BalanceMoves : Prop :=
  (∀ (s : State) (loads : List (BitVec 32)), s.balance.measured + 1000000000 ≤ s.now →
    ∃ t, exec (.balanceMoveStart loads) s = .next t ∧ t.balance.measured = s.now ∧
      (∀ u : Fin 4, getN t (K.tilthRankLoad u) = (loads.getD u 0).toNat) ∧
      (s.balance.seconds < 2 → t.balance.move = s.balance.move) ∧
      (∀ i d b, s.balance.move = none → t.balance.move = some (i, d, b) →
        i ∈ movable s (busiest ((List.range 4).map (fun u => (loads.getD u 0).toNat))) ∧
        d ≠ busiest ((List.range 4).map (fun u => (loads.getD u 0).toNat)) ∧ slotSize s i ≤ unitFree s d ∧ b = placeIn (extents s d) (slotSize s i)) ∧
      onlyObjs [K.tilthRankLoad 0, K.tilthRankLoad 1, K.tilthRankLoad 2, K.tilthRankLoad 3, K.tilthSeq] s t ∧
      Changes [.fresh, .objs, .tilthLog, .balance] s t) ∧
  (∀ (s : State) (i d b : Nat), s.balance.move = some (i, d, b) → s.balance.due ≤ s.now → getB s (K.surfAlloc i) = true →
    ∃ t, exec .balanceMoveDone s = .next t ∧ t.balance.move = none ∧ (surfOf t i).unit = d ∧ (surfOf t i).base = b ∧
      (surfOf t i).movedAt = some s.now ∧ getN t K.tilthMoves = satInc 32 (getN s K.tilthMoves) ∧
      (∀ j, j ≠ i → surfOf t j = surfOf s j) ∧ onlyObjs [K.tilthMoves, K.tilthSeq] s t ∧
      Changes [.objs, .surfs, .tilthLog, .balance, .dram] s t) ∧
  (∀ (s : State) (r : DictReq) (i : Nat) (slot : Fin 2048) (u : Nat) (kept : Bool),
    AdmittedWrite s r i (K.surfAlloc slot) 1 → ownerSession s i (getN s (K.surfOwner slot)) → getN s (K.surfOwner slot) ≠ 0xFF →
    getB s (K.surfAlloc slot) = false → getN s (K.surfWidth slot) ≠ 0 → getN s (K.surfHeight slot) ≠ 0 →
    slotSize s slot ≤ quotaLeft s (getN s (K.surfOwner slot)) →
    chooseUnit s (slotSize s slot) (getN s (K.surfHint slot)) = some (u, kept) →
    ∃ t, exec (.surfAlloc r slot) s = .next t ∧ (surfOf t slot).base = placeIn (extents s u) (slotSize s slot))

/-- A scan-out engine's wake takes every group that holds a direct layer of the port, or its compose buffer, out of self-refresh,
and changes no other group (R274). -/
def Obligations.ScanoutWakesItsGroups : Prop :=
  ∀ (s : State) (port : Fin 8),
    ∃ t, exec (.scanoutWake port) s = .next t ∧
      (∀ k : Fin 6, (portOf s port).plan.path.getD k 0 = 1 →
        getN s (K.grpState (rankOfUnit s (layerUnit s ((portOf s port).active.layers.getD k {})) / 2)) = 3 →
        getN t (K.grpState (rankOfUnit s (layerUnit s ((portOf s port).active.layers.getD k {})) / 2)) = 2) ∧
      ((portOf s port).plan.top.isSome = true → getN s (K.grpState (rankOfUnit s 0 / 2)) = 3 →
        getN t (K.grpState (rankOfUnit s 0 / 2)) = 2) ∧
      (∀ k, getN s k ≠ 3 ∨ (∀ g, k ≠ K.grpState g) → getV t k = getV s k ∧ ctrOf t k = ctrOf s k) ∧ Changes [.objs] s t

/-! ## The fast path -/

/-- A doorbell is refused if the ring is not enabled, its function is in a reset, the tail lies more than the ring's size, or a pending
new size, ahead of RING_HEAD, or it moves backwards; it then sets DBERR, counts in RING_DROP and changes no index. Any other, of a ring
that no failed vote has stopped (of such a ring RingSettings tells), sets the ring's tail from its bits 15:0 (R58). -/
def Obligations.DoorbellAcceptedOrDropped : Prop :=
  ∀ (s : State) (f : Fin 65) (ring : Fin 16) (value : BitVec 32) (h : Nat),
    funcExists s f = true → ringFor s f ring = some h → ringAgrees s h →
    (getB s (K.ringEnable h) = true → (funcOf s f).flrSince = none →
      idxDiff (value.toNat % 65536) (ringOf s h).head ≤ 2 ^ (ringOf s h).order →
      (∀ n, (ringOf s h).resize = some n → idxDiff (value.toNat % 65536) (ringOf s h).head ≤ 2 ^ n) →
      idxDiff (value.toNat % 65536) (ringOf s h).tail ≤ 2 ^ (ringOf s h).order → (ringOf s h).stopped = false →
      ∃ t, exec (.doorbell f ring value) s = .next t ∧ ringOf t h = { ringOf s h with tail := value.toNat % 65536 } ∧
        (∀ j, j ≠ h → ringOf t j = ringOf s j) ∧ Changes [.rings] s t) ∧
    (getB s (K.ringEnable h) = false ∨ (funcOf s f).flrSince ≠ none ∨
        2 ^ (ringOf s h).order < idxDiff (value.toNat % 65536) (ringOf s h).head ∨
        (∃ n, (ringOf s h).resize = some n ∧ 2 ^ n < idxDiff (value.toNat % 65536) (ringOf s h).head) ∨
        2 ^ (ringOf s h).order < idxDiff (value.toNat % 65536) (ringOf s h).tail →
      ∃ t, exec (.doorbell f ring value) s = .next t ∧
        ringOf t h = { ringOf s h with dberr := true, drop := satInc 32 (ringOf s h).drop } ∧
        (∀ j, j ≠ h → ringOf t j = ringOf s j) ∧ Changes [.rings, .funcs] s t)

/-- CQ_HEAD: the host's index is taken, and of the completions held the oldest are written, as many as there is space for, each at
the next completion index (R64). A pending size is in force once its ring is empty at a multiple of the old size, and the completion
queue is not affected (R295). -/
def Obligations.CompletionIndexAndResize : Prop :=
  (∀ (s : State) (f : Fin 65) (ring : Fin 16) (value : BitVec 16) (h : Nat),
      funcExists s f = true → ringFor s f ring = some h → (∀ c ∈ (ringOf s h).held, c.ticket.ring = h) → getN s (K.ringCqOrder h) ≤ 12 →
      ∃ t n, exec (.cqHeadWrite f ring value) s = .next t ∧ (ringOf t h).cqHead = value.toNat ∧
        n = min (ringOf s h).held.length (2 ^ getN s (K.ringCqOrder h) - idxDiff (ringOf s h).cqTail value.toNat) ∧
        (ringOf t h).held = (ringOf s h).held.drop n ∧ (0 < n → (ringOf t h).cqTail = ((ringOf s h).cqTail + n) % 65536) ∧
        (ringOf t h).completed = (ringOf s h).completed + n ∧
        (n = 0 → ringOf t h = { ringOf s h with cqHead := value.toNat } ∧ Changes [.rings] s t) ∧
        (∀ j, j ≠ h → ringOf t j = ringOf s j) ∧
        Changes [.fresh, .voteSecond, .host, .funcs, .sess, .rings, .grog, .notes] s t) ∧
  (∀ (s : State) (ring : Fin 256) (n : Nat), (ringOf s ring).resize = some n → getB s (K.ringEnable ring) = true →
      (ringOf s ring).head = (ringOf s ring).tail → (ringOf s ring).tail % 2 ^ (ringOf s ring).order = 0 →
      ∃ t, exec (.resizeDone ring) s = .next t ∧ ringOf t ring = { ringOf s ring with order := n, resize := none } ∧
        (∀ j, j ≠ ring.val → ringOf t j = ringOf s j) ∧ Changes [.fresh, .voteSecond, .funcs, .sess, .rings, .grog, .notes] s t)

/-- The event block and the snapshot mailbox. A write to an idle block is carried out, and the block is free again within 2 µs:
pending bits written as ones clear and the mask stays; the mask is set and the pending bits stay, but for a failed vote's health bit; a
snapshot of the source and instance named is held under its tag, of the module time for source 1 and of a port's frame number for
source 2, or SNAP_ERR is set and the value is 0 where the function has no such instance (R67, R69, R70, R71). A write to a busy
block is dropped, sets LOST and is counted (R69). -/
def Obligations.EventBlockAndMailbox : Prop :=
  ∀ (s : State) (f : Fin 65), funcExists s f = true →
    (∀ m : BitVec 32, (funcOf s f).evtUntil ≤ s.now →
      ∃ t, exec (.evtPendClear f m) s = .next t ∧
        (∀ c, bitOf (funcOf t f).evtPend c = (bitOf (funcOf s f).evtPend c && !bitOf m.toNat c)) ∧
        (funcOf t f).evtMask = (funcOf s f).evtMask ∧ (funcOf t f).evtUntil ≤ s.now + 2000 ∧
        (∀ g, g ≠ f.val → funcOf t g = funcOf s g) ∧ Changes [.fresh, .funcs] s t) ∧
    (∀ m : BitVec 32, (funcOf s f).evtUntil ≤ s.now →
      ∃ t, exec (.evtMaskWrite f m) s = .next t ∧
        (((funcOf s f).msixCopies = [] → (funcOf t f).evtMask = m.toNat) ∧ ((funcOf t f).evtMask = m.toNat ∨ (funcOf t f).evtMask = 0xFFFFFFFF)) ∧
        (∀ c, c ≠ 12 → bitOf (funcOf t f).evtPend c = bitOf (funcOf s f).evtPend c) ∧ (funcOf t f).evtUntil ≤ s.now + 2000 ∧
        Changes [.fresh, .voteSecond, .funcs, .sess, .grog, .notes] s t) ∧
    (∀ v : BitVec 32, (funcOf s f).snapUntil ≤ s.now →
      ∃ t, exec (.snapSel f v) s = .next t ∧ (funcOf t f).snapTag = v.toNat / 65536 % 256 ∧
        (funcOf t f).snapVal = (snapSource s f (v.toNat % 256) (v.toNat / 256 % 256)).getD 0 % 2 ^ 64 ∧
        ((funcOf t f).snapErr = true ↔ snapSource s f (v.toNat % 256) (v.toNat / 256 % 256) = none) ∧
        (v.toNat % 65536 = 1 → (funcOf t f).snapVal = s.now % 2 ^ 64 ∧ (funcOf t f).snapErr = false) ∧
        (∀ p : Fin 8, v.toNat % 65536 = 2 + 256 * p → (f = 0 ∨ ownsOn s f p = true) →
          (funcOf t f).snapVal = (portOf s p).frame % 2 ^ 64 ∧ (funcOf t f).snapErr = false) ∧
        (∀ p : Fin 8, v.toNat % 65536 = 2 + 256 * p → f ≠ 0 → ownsOn s f p = false →
          (funcOf t f).snapVal = 0 ∧ (funcOf t f).snapErr = true) ∧
        s.now < (funcOf t f).snapUntil ∧ (funcOf t f).snapUntil ≤ s.now + 2000 ∧
        (∀ g, g ≠ f.val → funcOf t g = funcOf s g) ∧ Changes [.fresh, .funcs] s t) ∧
    (∀ m : BitVec 32, s.now < (funcOf s f).evtUntil →
      ∃ t, exec (.evtPendClear f m) s = .next t ∧ exec (.evtMaskWrite f m) s = .next t ∧
        funcOf t f = { funcOf s f with lost := true } ∧ getN t K.regWriteLost = satInc 32 (getN s K.regWriteLost) ∧
        (∀ g, g ≠ f.val → funcOf t g = funcOf s g) ∧ onlyObjs [K.regWriteLost] s t ∧ Changes [.objs, .funcs] s t) ∧
    (∀ v : BitVec 32, s.now < (funcOf s f).snapUntil →
      ∃ t, exec (.snapSel f v) s = .next t ∧ funcOf t f = { funcOf s f with lost := true } ∧
        getN t K.regWriteLost = satInc 32 (getN s K.regWriteLost) ∧ (∀ g, g ≠ f.val → funcOf t g = funcOf s g) ∧
        onlyObjs [K.regWriteLost] s t ∧ Changes [.objs, .funcs] s t)

/-- BAR0. A write of FN_STAT.LOST as one clears it; a write to the offset of a doorbell, of EVT_PEND, EVT_MASK or SNAP_SEL is that
command; one to a reserved offset is ignored (R52, R58, R69). -/
def Obligations.RegisterWrites : Prop :=
  ∀ (s : State) (f : Fin 65), funcExists s f = true →
    (∀ v : BitVec 32, bitOf v.toNat 2 = true → ∃ t, exec (.registerWrite f 0x0004 v) s = .next t ∧
      funcOf t f = { funcOf s f with lost := false } ∧ (∀ g, g ≠ f.val → funcOf t g = funcOf s g) ∧ Changes [.funcs] s t) ∧
    (∀ (l : Fin 16) (v : BitVec 32), exec (.registerWrite f (BitVec.ofNat 16 (0x2000 + 4 * l)) v) s = exec (.doorbell f l v) s) ∧
    (∀ v : BitVec 32, exec (.registerWrite f 0x3000 v) s = exec (.evtPendClear f v) s ∧
      exec (.registerWrite f 0x3004 v) s = exec (.evtMaskWrite f v) s ∧ exec (.registerWrite f 0x4000 v) s = exec (.snapSel f v) s) ∧
    (∀ (off : BitVec 16) (v : BitVec 32), 0x4010 ≤ off.toNat ∧ off.toNat < 0xE000 → exec (.registerWrite f off v) s = .next s)

/-! ## Rings -/

/-- A ring's settings. Its owner enables it, which takes its indices to 0 and the order of the object into force, also after a failed
vote stopped it, which until then refuses every doorbell (the model's choice, log 256), unless its ring.ctx names a context that is not enabled: BUSY (R214); and disables it, which ends a held
wait and held completions (the model's choice, log 92). The manager gives a disabled ring to a function, with a VF's grant as its
greatest order; of an enabled ring the owner stays: BUSY. The manager sets the order of an enabled ring, which then waits to be resized; the
owner sets that of a disabled one up to ring.order.max, more is RANGE and of an enabled one BUSY (R54, R55, R56, R284, R295). -/
def Obligations.RingSettings : Prop :=
  (∀ (s : State) (r : DictReq) (i : Nat) (ring : Fin 256), AdmittedWrite s r i (K.ringEnable ring) 1 →
    ownSession s i (getN s (K.ringOwner ring)) → ringAgrees s ring →
    ((getB s (K.ringEnable ring) = false ∨ (ringOf s ring).stopped = true) →
      (getN s (K.ringCtx ring) < 64 → ctxOn s (getN s (K.ringCtx ring)) = true) →
      ∃ t, exec (.ringEnable r ring true) s = .next t ∧ answered t r 0x11 .ok ∧ getB t (K.ringEnable ring) = true ∧
        ringOf t ring = { era := (ringOf s ring).era, dberr := (ringOf s ring).dberr, order := getN s (K.ringOrder ring) } ∧
        (∀ j, j ≠ ring.val → ringOf t j = ringOf s j) ∧ onlyObjs [K.ringEnable ring] s t ∧ Changes [.objs, .rings, .sess, .resp] s t) ∧
    (getN s (K.ringCtx ring) < 64 → ctxOn s (getN s (K.ringCtx ring)) = false →
      ∃ t, exec (.ringEnable r ring true) s = .next t ∧ answered t r 0x11 .busy ∧ Changes [.fresh, .sess, .resp] s t)) ∧
  (∀ (s : State) (r : DictReq) (i : Nat) (ring : Fin 256), AdmittedWrite s r i (K.ringEnable ring) 0 →
    ownSession s i (getN s (K.ringOwner ring)) → ringAgrees s ring → getB s (K.ringEnable ring) = true →
    ∃ t, exec (.ringEnable r ring false) s = .next t ∧ answered t r 0x11 .ok ∧ getB t (K.ringEnable ring) = false ∧
      (ringOf t ring).wait = none ∧ (ringOf t ring).held = [] ∧ (ringOf t ring).era = (ringOf s ring).era + 1 ∧
      (∀ j, j ≠ ring.val → ringOf t j = ringOf s j) ∧ onlyObjs [K.ringEnable ring] s t ∧ Changes [.objs, .rings, .signals, .sess, .resp] s t) ∧
  (∀ (s : State) (r : DictReq) (i : Nat) (ring : Fin 256) (owner : BitVec 8), AdmittedWrite s r i (K.ringOwner ring) owner.toNat →
    managerSession s i → ringAgrees s ring → grantLeft s 0x3100 0x3200 (getN s (K.grantRings owner.toNat)) owner.toNat →
    (getB s (K.ringEnable ring) = false →
      ∃ t, exec (.ringOwnerWrite r ring owner) s = .next t ∧ answered t r 0x11 .ok ∧ getN t (K.ringOwner ring) = owner.toNat ∧
        (0 < owner.toNat → owner.toNat < 64 → getN t (K.ringOrderMax ring) = getN s (K.grantRingOrder owner.toNat)) ∧
        onlyObjs [K.ringOwner ring, K.ringOrderMax ring] s t ∧ Changes [.objs, .sess, .resp] s t) ∧
    (getB s (K.ringEnable ring) = true →
      ∃ t, exec (.ringOwnerWrite r ring owner) s = .next t ∧ answered t r 0x11 .busy ∧ Changes [.fresh, .sess, .resp] s t)) ∧
  (∀ (s : State) (r : DictReq) (i : Nat) (ring : Fin 256) (order : BitVec 8), AdmittedWrite s r i (K.ringOrder ring) order.toNat →
    ringAgrees s ring → 4 ≤ order.toNat → order.toNat ≤ 12 →
    (managerSession s i → getB s (K.ringEnable ring) = true →
      ∃ t, exec (.ringOrderWrite r ring order) s = .next t ∧ answered t r 0x11 .ok ∧ getN t (K.ringOrder ring) = order.toNat ∧
        ringOf t ring = { ringOf s ring with resize := if order.toNat = (ringOf s ring).order then none else some order.toNat } ∧
        (∀ j, j ≠ ring.val → ringOf t j = ringOf s j) ∧ onlyObjs [K.ringOrder ring] s t ∧ Changes [.objs, .rings, .sess, .resp] s t) ∧
    ((managerSession s i ∨ (ownSession s i (getN s (K.ringOwner ring)) ∧ order.toNat ≤ getN s (K.ringOrderMax ring))) →
      getB s (K.ringEnable ring) = false →
      ∃ t, exec (.ringOrderWrite r ring order) s = .next t ∧ answered t r 0x11 .ok ∧ getN t (K.ringOrder ring) = order.toNat ∧
        onlyObjs [K.ringOrder ring] s t ∧ Changes [.objs, .sess, .resp] s t) ∧
    (¬ managerSession s i → ownSession s i (getN s (K.ringOwner ring)) →
      (getN s (K.ringOrderMax ring) < order.toNat →
        ∃ t, exec (.ringOrderWrite r ring order) s = .next t ∧ answered t r 0x11 .range ∧ Changes [.fresh, .sess, .resp] s t) ∧
      (order.toNat ≤ getN s (K.ringOrderMax ring) → getB s (K.ringEnable ring) = true →
        ∃ t, exec (.ringOrderWrite r ring order) s = .next t ∧ answered t r 0x11 .busy ∧ Changes [.fresh, .sess, .resp] s t))) ∧
  (∀ (s : State) (f : Fin 65) (ring : Fin 16) (value : BitVec 32) (h : Nat), funcExists s f = true → ringFor s f ring = some h →
    ringAgrees s h → (ringOf s h).stopped = true →
    ∃ t, exec (.doorbell f ring value) s = .next t ∧
      ringOf t h = { ringOf s h with dberr := true, drop := satInc 32 (ringOf s h).drop } ∧
      (∀ j, j ≠ h → ringOf t j = ringOf s j) ∧ Changes [.rings, .funcs] s t)

/-- NOP completes OK with result 0 (Table FP-6, R63). A command with an opcode that Table FP-6 does not list is dropped, counted and
answered BADOP; a command of any opcode that fails a source check is dropped, counted on its ring and, of a VF, in vf.spoof, and
answered SPOOF; both whatever its COMPLETE flag says, and neither has another effect on its ring (R61, R290). -/
def Obligations.NopAndDroppedCommands : Prop :=
  (∀ (s : State) (h : CmdHdr), Fetches s h 0x00 false →
    ∃ t, exec (.nop h) s = .next t ∧ ringDone s t h 0x00 0 (some 0) ∧ (∀ j, j ≠ h.ring.val → ringOf t j = ringOf s j) ∧
      onlyObjsAndNotes [] s t ∧ Changes [.fresh, .voteSecond, .host, .funcs, .sess, .rings, .grog, .notes] s t) ∧
  (∀ (s : State) (h : CmdHdr) (op : BitVec 8), Fetches s h op.toNat false →
    op.toNat ∉ [0x00, 0x01, 0x02, 0x10, 0x11, 0x20, 0x21, 0x30, 0x31, 0x40, 0x50] →
    ∃ t x, exec (.commandBadop h op) s = .next t ∧ entryWritten s t h op.toNat 2 x ∧
      ringOf t h.ring = { ringOf s h.ring with
        head := ((ringOf s h.ring).head + 1) % 65536, fetched := (ringOf s h.ring).fetched + 1, drop := satInc 32 (ringOf s h.ring).drop
        cqTail := ((ringOf s h.ring).cqTail + 1) % 65536, completed := (ringOf s h.ring).completed + 1 } ∧
      (∀ j, j ≠ h.ring.val → ringOf t j = ringOf s j) ∧
      Changes [.fresh, .voteSecond, .host, .funcs, .sess, .rings, .grog, .notes] s t) ∧
  (∀ (s : State) (h : CmdHdr) (op : Nat) (pay : List Byte) (write : Bool), canFetch s h.ring = true → s.votes = [] →
    (ringOf s h.ring).held = [] → failedChecks s h op true write ≠ 0 →
    ∃ t x, beginCmd s h op pay write = (t, none) ∧ (op = 0x00 ∧ pay = [] ∧ write = false → exec (.nop h) s = .next t) ∧
      entryWritten s t h op 1 x ∧
      (0 < getN s (K.ringOwner h.ring) → getN s (K.ringOwner h.ring) < 64 →
        getN t (K.vfSpoof (getN s (K.ringOwner h.ring))) = satInc 32 (getN s (K.vfSpoof (getN s (K.ringOwner h.ring))))) ∧
      ringOf t h.ring = { ringOf s h.ring with
        head := ((ringOf s h.ring).head + 1) % 65536, fetched := (ringOf s h.ring).fetched + 1, drop := satInc 32 (ringOf s h.ring).drop
        cqTail := ((ringOf s h.ring).cqTail + 1) % 65536, completed := (ringOf s h.ring).completed + 1 } ∧
      (∀ j, j ≠ h.ring.val → ringOf t j = ringOf s j)) ∧
  (∀ (s : State) (h : CmdHdr) (op : BitVec 8), canFetch s h.ring = true → s.votes = [] → (ringOf s h.ring).held = [] →
    failedChecks s h op.toNat true false ≠ 0 →
    op.toNat ∉ [0x00, 0x01, 0x02, 0x10, 0x11, 0x20, 0x21, 0x30, 0x31, 0x40, 0x50] →
    ∃ t x, exec (.commandBadop h op) s = .next t ∧ entryWritten s t h op.toNat 1 x ∧
      (ringOf t h.ring).drop = satInc 32 (ringOf s h.ring).drop)

/-! ## Fences -/

/-- Claiming a fence slot gives it a new generation and handle, the value 0 and the state LIVE (R228). Giving one up makes it FREE, with
no handle (R228). A write of fence.value by its owner raises it, is
refused with RANGE below the current value, and changes nothing at the current value; a session of another function is refused with
ACCESS, and a FENCE_SIGNAL of another function's ring fails and changes no fence. The PF on H1 waits on any live fence (R229). -/
def Obligations.FenceObjects : Prop :=
  (∀ (s : State) (r : DictReq) (i : Nat) (slot : Fin 256) (expected : BitVec 16) (owner : BitVec 8),
    AdmittedClaim s r i (K.fenceOwner slot) owner.toNat expected → mayOwn s i (getN s (K.fenceOwner slot)) owner.toNat →
    expected.toNat = ctrOf s (K.fenceOwner slot) →
    (getN s (K.fenceOwner slot) = 0xFF → owner.toNat ≠ 0xFF →
      grantLeft s 0x3700 0x3800 (getN s (K.grantFences owner.toNat)) owner.toNat →
      ∃ t, exec (.fenceClaim r slot expected owner) s = .next t ∧ answered t r 0x12 .ok ∧ getN t (K.fenceOwner slot) = owner.toNat ∧
        getN t (K.fenceHandle slot) = slot + 65536 * nextGen (tget s.fenceGen slot 0) ∧ getN t (K.fenceValue slot) = 0 ∧
        getN t (K.fenceState slot) = fenceLive ∧
        onlyObjs [K.fenceOwner slot, K.fenceHandle slot, K.fenceValue slot, K.fenceState slot] s t ∧
        Changes [.objs, .fenceGen, .sess, .resp] s t) ∧
    (getN s (K.fenceOwner slot) ≠ 0xFF → owner.toNat = 0xFF →
      ∃ t, exec (.fenceClaim r slot expected owner) s = .next t ∧ answered t r 0x12 .ok ∧ getN t (K.fenceOwner slot) = 0xFF ∧
        getN t (K.fenceHandle slot) = 0 ∧ getN t (K.fenceState slot) = fenceFree ∧
        onlyObjsAndNotes [K.fenceOwner slot, K.fenceHandle slot, K.fenceState slot] s t)) ∧
  (∀ (s : State) (r : DictReq) (i : Nat) (slot : Fin 256) (value : BitVec 64),
    AdmittedWrite s r i (K.fenceValue slot) value.toNat → ownerSession s i (getN s (K.fenceOwner slot)) →
    (sessOf s i).func = getN s (K.fenceOwner slot) → getN s (K.fenceValue slot) < value.toNat →
    ∃ t, exec (.fenceValueWrite r slot value) s = .next t ∧ answered t r 0x11 .ok ∧ getN t (K.fenceValue slot) = value.toNat ∧
      onlyObjsAndNotes [K.fenceValue slot] s t) ∧
  (∀ (s : State) (r : DictReq) (i : Nat) (slot : Fin 256) (value : BitVec 64),
    AdmittedWrite s r i (K.fenceValue slot) value.toNat → ownerSession s i (getN s (K.fenceOwner slot)) →
    (sessOf s i).func = getN s (K.fenceOwner slot) → value.toNat < getN s (K.fenceValue slot) →
    ∃ t, exec (.fenceValueWrite r slot value) s = .next t ∧ answered t r 0x11 .range ∧ Changes [.fresh, .sess, .resp] s t) ∧
  (∀ (s : State) (r : DictReq) (i : Nat) (slot : Fin 256) (value : BitVec 64),
    AdmittedWrite s r i (K.fenceValue slot) value.toNat → ownerSession s i (getN s (K.fenceOwner slot)) →
    (sessOf s i).func = getN s (K.fenceOwner slot) → value.toNat = getN s (K.fenceValue slot) →
    ∃ t, exec (.fenceValueWrite r slot value) s = .next t ∧ answered t r 0x11 .ok ∧ Changes [.sess, .resp] s t) ∧
  (∀ (s : State) (r : DictReq) (i : Nat) (slot : Fin 256) (value : BitVec 64),
    AdmittedWrite s r i (K.fenceValue slot) value.toNat → (sessOf s i).func ≠ getN s (K.fenceOwner slot) →
    ∃ t, exec (.fenceValueWrite r slot value) s = .next t ∧ answered t r 0x11 .access ∧ Changes [.fresh, .sess, .resp] s t) ∧
  (∀ (s : State) (h : CmdHdr) (fence : BitVec 32) (value : BitVec 64) (slot : Nat), Fetches s h 0x01 false →
    earlierWork s (ticketOf s h 0x01) = false → fenceSlot s fence.toNat = some slot →
    getN s (K.fenceOwner slot) ≠ getN s (K.ringOwner h.ring) →
    ∃ t, exec (.fenceSignal h fence value) s = .next t ∧ ringDone s t h 0x01 3 none ∧ onlyObjsAndNotes [] s t) ∧
  (∀ (s : State) (h : CmdHdr) (fence timeout : BitVec 32) (value : BitVec 64) (slot : Nat), Fetches s h 0x02 false →
    getN s (K.ringOwner h.ring) = 64 → fenceSlot s fence.toNat = some slot → timeout.toNat ≤ 600000 →
    getN s (K.fenceState slot) = fenceLive → value.toNat ≤ getN s (K.fenceValue slot) →
    ∃ t, exec (.fenceWait h fence timeout value) s = .next t ∧ ringDone s t h 0x02 0 (some (getN s (K.fenceValue slot))))

/-- FENCE_SIGNAL and FENCE_WAIT. A signal waits while earlier work of its ring has not completed; else, by the fence's owner, it raises
the value to the greater of the two and completes with it (R230). A wait whose condition holds completes at once with the observed
value; any other holds its ring (R231). A wait fails with cause 3 where its handle does, with cause 2 on an abandoned fence, and with
cause 1 once its timeout has passed and not before; its ring then drops LAYER_SET and COMMIT up to the next wait (R232). A timeout
above 600000 ms fails with a free cause (the model's choice, log 91), and a fence that is given up ends the waits held on it (the
model's choice, log 90). -/
def Obligations.SignalsAndWaits : Prop :=
  (∀ (s : State) (h : CmdHdr) (fence : BitVec 32) (value : BitVec 64), Fetches s h 0x01 false →
    earlierWork s (ticketOf s h 0x01) = true →
    ∃ t, exec (.fenceSignal h fence value) s = .next t ∧ t.signals = s.signals ++ [⟨ticketOf s h 0x01, fence.toNat, value.toNat⟩] ∧
      (ringOf t h.ring).cqTail = (ringOf s h.ring).cqTail ∧ Changes [.host, .rings, .signals] s t) ∧
  (∀ (s : State) (h : CmdHdr) (fence : BitVec 32) (value : BitVec 64) (slot : Nat), Fetches s h 0x01 false →
    earlierWork s (ticketOf s h 0x01) = false → fenceSlot s fence.toNat = some slot →
    getN s (K.fenceOwner slot) = getN s (K.ringOwner h.ring) → getN s (K.fenceState slot) = fenceLive → fenceWaits s slot = [] →
    ∃ t, exec (.fenceSignal h fence value) s = .next t ∧ getN t (K.fenceValue slot) = max value.toNat (getN s (K.fenceValue slot)) ∧
      ringDone s t h 0x01 0 (some (max value.toNat (getN s (K.fenceValue slot)))) ∧ onlyObjsAndNotes [K.fenceValue slot] s t) ∧
  (∀ (s : State) (h : CmdHdr) (fence timeout : BitVec 32) (value : BitVec 64) (slot : Nat), Fetches s h 0x02 false →
    fenceSlot s fence.toNat = some slot → mayWait s (getN s (K.ringOwner h.ring)) slot = true → timeout.toNat ≤ 600000 →
    getN s (K.fenceState slot) = fenceLive →
    ∃ t, exec (.fenceWait h fence timeout value) s = .next t ∧ (ringOf t h.ring).dropUntilWait = false ∧
      (value.toNat ≤ getN s (K.fenceValue slot) → ringDone s t h 0x02 0 (some (getN s (K.fenceValue slot))) ∧ (ringOf t h.ring).wait = none) ∧
      (getN s (K.fenceValue slot) < value.toNat → ∃ w, (ringOf t h.ring).wait = some w ∧ w.slot = slot ∧ w.value = value.toNat ∧
        w.failAt = (if timeout.toNat = 0 then none else some (s.now + timeout.toNat * 1000000)) ∧
        (ringOf t h.ring).cqTail = (ringOf s h.ring).cqTail ∧ canFetch t h.ring = false ∧ Changes [.host, .rings] s t) ∧
      (∀ j, j ≠ h.ring.val → ringOf t j = ringOf s j)) ∧
  (∀ (s : State) (h : CmdHdr) (fence timeout : BitVec 32) (value : BitVec 64), Fetches s h 0x02 false →
    ∃ t, exec (.fenceWait h fence timeout value) s = .next t ∧
      ((∀ slot, fenceSlot s fence.toNat = some slot → mayWait s (getN s (K.ringOwner h.ring)) slot = false) →
        ringDone s t h 0x02 3 (some 3) ∧ (ringOf t h.ring).dropUntilWait = true) ∧
      (∀ slot, fenceSlot s fence.toNat = some slot → mayWait s (getN s (K.ringOwner h.ring)) slot = true → timeout.toNat ≤ 600000 →
        getN s (K.fenceState slot) = fenceAbandoned → ringDone s t h 0x02 3 (some 2) ∧ (ringOf t h.ring).dropUntilWait = true) ∧
      (∀ slot, fenceSlot s fence.toNat = some slot → mayWait s (getN s (K.ringOwner h.ring)) slot = true → 600000 < timeout.toNat →
        ringDone s t h 0x02 3 none ∧ (ringOf t h.ring).dropUntilWait = true)) ∧
  (∀ (s : State) (ring : Fin 256) (w : HeldWait) (due : Nat), (ringOf s ring).wait = some w → w.failAt = some due →
    ∃ t, exec (.fenceWaitTimeout ring) s = .next t ∧ (s.now < due → t = s) ∧
      (due ≤ s.now → w.ticket.ring = ring.val →
        (ringOf t ring).wait = none ∧ (ringOf t ring).dropUntilWait = true ∧ ticketDone s t w.ticket 3 1) ∧
      Changes [.fresh, .voteSecond, .host, .funcs, .sess, .rings, .grog, .notes] s t) ∧
  (∀ (s : State) (r : DictReq) (i : Nat) (slot : Fin 256) (expected : BitVec 16),
    AdmittedClaim s r i (K.fenceOwner slot) 0xFF expected → mayOwn s i (getN s (K.fenceOwner slot)) 0xFF →
    expected.toNat = ctrOf s (K.fenceOwner slot) → getN s (K.fenceOwner slot) ≠ 0xFF →
    ∃ t, exec (.fenceClaim r slot expected 0xFF) s = .next t ∧
      ∀ h, (ringOf s h).wait.map (·.slot) = some slot.val → (ringOf t h).wait = none)

/-! ## Programs, contexts and passes -/

/-- A program slot is claimed or given up by WRITE_IF (R174); a VF's claim beyond its grant is refused with RANGE (R284). The end of a
translation makes the slot READY with what translation found, or FAILED with the first 240 bytes of the reason; a slot that is not
translating is left alone (R175). Code that is no module, a missing entry point and a module that breaks a limit fail (R173); no READY
program holds more than 256 registers a thread, fewer than 16, or a number that is no multiple of 8 (R170). -/
def Obligations.ProgramSlots : Prop :=
  (∀ (s : State) (r : DictReq) (i : Nat) (slot : Fin 256) (expected : BitVec 16) (owner : BitVec 8),
    AdmittedClaim s r i (K.progOwner slot) owner.toNat expected → mayOwn s i (getN s (K.progOwner slot)) owner.toNat →
    expected.toNat = ctrOf s (K.progOwner slot) → getN s (K.progOwner slot) ≠ owner.toNat →
    (grantLeft s 0x3500 0x3600 (getN s (K.grantProgs owner.toNat)) owner.toNat →
      ∃ t, exec (.progClaim r slot expected owner) s = .next t ∧ answered t r 0x12 .ok ∧ getN t (K.progOwner slot) = owner.toNat ∧
        ctrOf t (K.progOwner slot) = (ctrOf s (K.progOwner slot) + 1) % 65536 ∧
        onlyObjs [K.progOwner slot] s t ∧ Changes [.objs, .sess, .resp] s t) ∧
    ((sessOf s i).role = .vf → getN s (K.progOwner slot) = 0xFF → 0 < owner.toNat → owner.toNat < 64 → vfOn s owner.toNat = true →
      getN s (K.grantProgs owner.toNat) ≤ ownedCount s 0x3500 0x3600 owner.toNat →
      ∃ t, exec (.progClaim r slot expected owner) s = .next t ∧ answered t r 0x12 .range ∧ Changes [.fresh, .sess, .resp] s t)) ∧
  (∀ (s : State) (slot : Fin 256) (c : Code), getN s (K.progState slot) = 1 →
    translate (getBytes s (K.progCode slot)) (getBytes s (K.progEntry slot)) = .ok c →
    ∃ t, exec (.translationDone slot) s = .next t ∧ getN t (K.progState slot) = 2 ∧ getN t (K.progStage slot) = c.stage ∧
      getN t (K.progRegs slot) = c.regs ∧ 16 ≤ c.regs ∧ c.regs ≤ 256 ∧ c.regs % 8 = 0 ∧ getB t (K.progLate slot) = c.late ∧
      getN t (K.progGroups slot) = c.groups.length ∧ getBytes t (K.progError slot) = [] ∧
      tfind t.progs slot = some c ∧ Changes [.objs, .progs] s t ∧
      onlyObjs [K.progState slot, K.progStage slot, K.progLate slot, K.progRegs slot, K.progGroups slot, K.progError slot] s t) ∧
  (∀ (s : State) (slot : Fin 256) (why : Nat), getN s (K.progState slot) = 1 →
    translate (getBytes s (K.progCode slot)) (getBytes s (K.progEntry slot)) = .error why →
    ∃ t, exec (.translationDone slot) s = .next t ∧ getN t (K.progState slot) = 3 ∧
      getBytes t (K.progError slot) = (Config.programError why).take 240 ∧ tfind t.progs slot = none ∧ Changes [.objs, .progs] s t ∧
      onlyObjs [K.progState slot, K.progError slot] s t) ∧
  (∀ code entry : List Byte, spvModule code = none → translate code entry = .error 1) ∧
  (∀ (code entry : List Byte) (m : List (Nat × List Nat)), spvModule code = some m →
    ((spvEntries m).find? (fun e => e.name == entry) = none → translate code entry = .error 2) ∧
    (∀ e why, (spvEntries m).find? (fun e => e.name == entry) = some e → spvFault m e = some why → translate code entry = .error why)) ∧
  (∀ (s : State) (slot : Fin 256), getN s (K.progState slot) ≠ 1 → exec (.translationDone slot) s = .next s)

/-- A context's owner enables it; a context without a pool then gets one of silt.size, if the owner's Silt grant has that left, and else
the write is refused with RANGE (R190, R215, R286). A write of true while it stops is queued and answered INTRANSIT (R48). It is
disabled once no enabled ring names it, and the write is refused with BUSY while one does: it then stops, drops no work, and reads
IDLE when none is left; an enable queued meanwhile is then in force (R214, R48). -/
def Obligations.ContextEnable : Prop :=
  (∀ (s : State) (r : DictReq) (i : Nat) (ctx : Fin 64), ctx ≠ 0 → AdmittedWrite s r i (K.ctxEnable ctx) 1 →
    ownSession s i (ctxOwner s ctx) → getB s (K.ctxEnable ctx) = false → K.ctxEnable ctx ∉ s.transit →
    ((ctxOf s ctx).stopping = false → (ctxOf s ctx).unit.isSome = true →
      ∃ t, exec (.ctxEnable r ctx) s = .next t ∧ answered t r 0x11 .ok ∧ getB t (K.ctxEnable ctx) = true ∧ t.ctxs = s.ctxs ∧
        onlyObjs [K.ctxEnable ctx, K.ctxBusy ctx] s t) ∧
    ((ctxOf s ctx).stopping = false → (ctxOf s ctx).unit = none → ctxOwner s ctx ≠ 0xFF →
      getN s (K.siltSize ctx) ≤ siltLeft s (ctxOwner s ctx) →
      ∃ t, exec (.ctxEnable r ctx) s = .next t ∧ answered t r 0x11 .ok ∧ getB t (K.ctxEnable ctx) = true ∧
        (ctxOf t ctx).unit.isSome = true ∧ getN t (K.siltNow ctx) = getN s (K.siltSize ctx) ∧
        (∀ j, j ≠ ctx.val → ctxOf t j = ctxOf s j) ∧
        onlyObjs [K.ctxEnable ctx, K.ctxBusy ctx, K.siltNow ctx, K.tilthSeq] s t) ∧
    ((ctxOf s ctx).unit = none → ctxOwner s ctx ≠ 0xFF → siltLeft s (ctxOwner s ctx) < getN s (K.siltSize ctx) →
      ∃ t, exec (.ctxEnable r ctx) s = .next t ∧ answered t r 0x11 .range ∧ Changes [.fresh, .sess, .resp] s t) ∧
    ((ctxOf s ctx).stopping = true → (ctxOf s ctx).unit.isSome = true →
      ∃ t, exec (.ctxEnable r ctx) s = .next t ∧ answered t r 0x11 .intransit ∧ t.transit = s.transit ++ [K.ctxEnable ctx] ∧
        t.ctxs = s.ctxs ∧ onlyObjs [K.ctxEnable ctx] s t)) ∧
  (∀ (s : State) (r : DictReq) (i : Nat) (ctx : Fin 64), ctx ≠ 0 → AdmittedWrite s r i (K.ctxEnable ctx) 0 →
    ownSession s i (ctxOwner s ctx) → getB s (K.ctxEnable ctx) = true →
    (ctxRings s ctx = false → K.ctxEnable ctx ∉ s.transit →
      ∃ t, exec (.ctxDisable r ctx) s = .next t ∧ answered t r 0x11 .ok ∧ getB t (K.ctxEnable ctx) = false ∧
        ctxOf t ctx = { ctxOf s ctx with stopping := true } ∧ (∀ j, j ≠ ctx.val → ctxOf t j = ctxOf s j) ∧
        onlyObjs [K.ctxEnable ctx] s t) ∧
    (ctxRings s ctx = true →
      ∃ t, exec (.ctxDisable r ctx) s = .next t ∧ answered t r 0x11 .busy ∧ Changes [.fresh, .sess, .resp] s t)) ∧
  (∀ (s : State) (ctx : Fin 64), (ctxOf s ctx).stopping = true →
    ((ctxOf s ctx).passes = [] →
      ∃ t, exec (.ctxStopDone ctx) s = .next t ∧ (ctxOf t ctx).stopping = false ∧ K.ctxEnable ctx ∉ t.transit ∧
        (∀ j, j ≠ ctx.val → ctxOf t j = ctxOf s j) ∧ (getB t (K.ctxEnable ctx) = getB s (K.ctxEnable ctx)) ∧
        (ctxOwner s ctx ≠ 0xFF → ctxFrozen s ctx = false → coresOf s ctx = [] → ctxWaits s ctx = false → ctxState t ctx = 1) ∧
        Changes [.fresh, .objs, .voteSecond, .funcs, .sess, .transit, .ctxs, .tilthLog, .grog, .notes] s t) ∧
    ((ctxOf s ctx).passes ≠ [] → exec (.ctxStopDone ctx) s = .next s))

/-- Submitting work to a context of the ring's function. A DRAW_SUBMIT or COMPUTE_DISPATCH that passes its checks joins the context's
passes behind those before it, with its list, area and tiles, and has no answer yet; what follows is the context's next work (R172, R176,
R200, R202). One that fails a check ends with FAULT, the cause in its result, and counts; a DRAW_SUBMIT of a frame that was dropped
ends DROPPED, cause 2 (R177, R188, R205). One whose ring has no such context ends with FAULT (that FAULT's cause is the model's
choice, log 123). The front end takes the first pass: a list that cannot be read or fails a check ends it, a pass whose Silt exceeds
the pool is dropped with its frame, a compute list starts its first DISPATCH with workgroups; nothing moves while the context is
frozen or PD10 is not ON (R172, R175, R188, R200, R204). -/
def Obligations.SubmittingWork : Prop :=
  (∀ (s : State) (h : CmdHdr) (p : DrawPayload) (c : Nat), Fetches s h 0x10 true → ringContext s (ticketOf s h 0x10) = some c →
    ((ctxOf s c).dropFrame ≠ some p.frame.toNat →
      passHeadFault s (getN s (K.ringOwner h.ring)) p (passTargets h.surface.toNat p) = none →
      ∃ u q, exec (.drawSubmit h p) s = .next (ctxChanged u c) ∧ (ctxOf u c).passes = (ctxOf s c).passes ++ [q] ∧ q.phase = 0 ∧
        q.compute = false ∧ q.ticket = ticketOf s h 0x10 ∧ q.frame = p.frame.toNat ∧ q.list = p.list.toNat ∧ q.len = p.len.toNat ∧
        q.samples = p.samples.toNat ∧ q.load = p.load.toNat ∧ q.depth = p.depth.toNat ∧ q.clear = p.clear.toNat ∧
        q.targets.map (·.handle) = passTargets h.surface.toNat p ∧
        q.area = (p.area.x.toNat, p.area.y.toNat, p.area.w.toNat, p.area.h.toNat) ∧
        q.total = tilesAcross q.area * tilesDown q.area ∧ (∀ d, d ≠ c → ctxOf u d = ctxOf s d) ∧
        (ringOf u h.ring).head = ((ringOf s h.ring).head + 1) % 65536 ∧ (ringOf u h.ring).cqTail = (ringOf s h.ring).cqTail ∧
        Changes [.fresh, .host, .rings, .ctxs] s u) ∧
    (∀ cause, (ctxOf s c).dropFrame ≠ some p.frame.toNat →
      passHeadFault s (getN s (K.ringOwner h.ring)) p (passTargets h.surface.toNat p) = some cause →
      ∃ t, exec (.drawSubmit h p) s = .next t ∧ ringDone s t h 0x10 3 (some cause) ∧
        getN t (K.passFault c) = satInc 32 (getN s (K.passFault c)) ∧ t.ctxs = s.ctxs ∧ onlyObjsAndNotes [K.passFault c] s t) ∧
    ((ctxOf s c).dropFrame = some p.frame.toNat →
      ∃ t, exec (.drawSubmit h p) s = .next t ∧ ringDone s t h 0x10 4 (some 2) ∧
        getN t (K.passDropped c) = satInc 32 (getN s (K.passDropped c)) ∧ t.ctxs = s.ctxs ∧ onlyObjsAndNotes [K.passDropped c] s t)) ∧
  (∀ (s : State) (h : CmdHdr) (p : DrawPayload), Fetches s h 0x10 true → ringContext s (ticketOf s h 0x10) = none →
    ∃ t, exec (.drawSubmit h p) s = .next t ∧ ringDone s t h 0x10 3 (some 2) ∧ t.ctxs = s.ctxs ∧ onlyObjsAndNotes [] s t) ∧
  (∀ (s : State) (h : CmdHdr) (list : BitVec 64) (len : BitVec 32) (zero : BitVec 288), Fetches s h 0x11 false →
    (∀ c, ringContext s (ticketOf s h 0x11) = some c →
      (listOk s (getN s (K.ringOwner h.ring)) list.toNat len.toNat = true → len.toNat % 32 = 0 → 32 ≤ len.toNat → len.toNat ≤ 65536 →
        zero = 0 →
        ∃ u q, exec (.computeDispatch h list len zero) s = .next (ctxChanged u c) ∧ (ctxOf u c).passes = (ctxOf s c).passes ++ [q] ∧
          q.phase = 0 ∧ q.compute = true ∧ q.ticket = ticketOf s h 0x11 ∧ q.list = list.toNat ∧ q.len = len.toNat ∧
          (∀ d, d ≠ c → ctxOf u d = ctxOf s d) ∧ (ringOf u h.ring).head = ((ringOf s h.ring).head + 1) % 65536 ∧
          (ringOf u h.ring).cqTail = (ringOf s h.ring).cqTail ∧ Changes [.fresh, .host, .rings, .ctxs] s u) ∧
      (listOk s (getN s (K.ringOwner h.ring)) list.toNat len.toNat = false →
        ∃ t, exec (.computeDispatch h list len zero) s = .next t ∧ ringDone s t h 0x11 3 (some 2) ∧
          getN t (K.passFault c) = satInc 32 (getN s (K.passFault c)) ∧ t.ctxs = s.ctxs) ∧
      (listOk s (getN s (K.ringOwner h.ring)) list.toNat len.toNat = true →
        len.toNat % 32 ≠ 0 ∨ len.toNat < 32 ∨ 65536 < len.toNat ∨ zero ≠ 0 →
        ∃ t, exec (.computeDispatch h list len zero) s = .next t ∧ ringDone s t h 0x11 3 (some 1) ∧
          getN t (K.passFault c) = satInc 32 (getN s (K.passFault c)) ∧ t.ctxs = s.ctxs)) ∧
    (ringContext s (ticketOf s h 0x11) = none →
      ∃ t, exec (.computeDispatch h list len zero) s = .next t ∧ ringDone s t h 0x11 3 (some 2) ∧ t.ctxs = s.ctxs ∧
        onlyObjsAndNotes [] s t)) ∧
  (∀ (s : State) (c : Nat), ctxFrozen s c = true ∨ domSt s 10 ≠ domOn → binStep s c = none) ∧
  (∀ (s : State) (c : Nat) (p : Pass) (l : List Pass), (ctxOf s c).passes = p :: l → p.phase = 0 → ctxFrozen s c = false →
    domSt s 10 = domOn → (p.compute = true ∨ (ctxOf s c).dropFrame ≠ some p.frame) →
    (∀ s' e, p.parsed = false → parsePass s p = (s', .error e) →
      ∃ u, binStep s c = some u ∧ (∀ q ∈ (ctxOf u c).passes, q.id ≠ p.id) ∧
        getN u (K.passFault c) = satInc 32 (getN s' (K.passFault c))) ∧
    (∀ d rest, p.parsed = true → p.compute = true → nextDispatch p.later = some (d, rest) → (∀ q ∈ l, q.id ≠ p.id) →
      ∃ u, binStep s c = some u ∧ (ctxOf u c).passes = { p.withDispatch d rest with phase := 2, began := s.now } :: l ∧
        Changes [.ctxs] s u) ∧
    (p.parsed = true → p.compute = false → (ctxOf s c).lastFrame = some p.frame →
      (binPass (getN s (K.siltNow c) * 1048576) p s).run.refused = false →
      (binPass (getN s (K.siltNow c) * 1048576) p s).run.lost = false → (binPass (getN s (K.siltNow c) * 1048576) p s).full = true →
      ∃ u, binStep s c = some u ∧ (∀ q ∈ (ctxOf u c).passes, q.id ≠ p.id) ∧ (ctxOf u c).dropFrame = some p.frame ∧
        getN u (K.siltOverflow c) = satInc 32 (getN (binPass (getN s (K.siltNow c) * 1048576) p s).run.state (K.siltOverflow c))))

/-- How a pass runs. The first pass of its context, once binned, enters its tile phase, or is done if it has no tiles; a frozen context's
waits (R191). An active core without work takes the unit of the context that alone has one and is below its target: a tile, with its tile
memory filled for its start, or as many workgroups of one DISPATCH as are resident at once (R192, R203, R219); with no such unit and no
row it stays idle. A tile's end counts it and frees the core (R197); a workgroup's end frees the core when no other is resident (R203); the end
of a pass's last unit ends it with OK, its units in the result, and it leaves the context (R197, R204, R205). A tile of a
compositor row ends likewise. A poisoned bin list ends the pass as a core fault, a refused host read with cause HOST (R205, R207). A pass that runs longer than gpu.watchdog, the time that it was away left
out, is stopped with cause 5; one that does not runs on (R208, R227). -/
def Obligations.RunningWork : Prop :=
  (∀ (s : State) (ctx : Fin 64) (p : Pass) (l : List Pass), (ctxOf s ctx).passes = p :: l → (∀ q ∈ l, q.id ≠ p.id) →
    (p.phase = 1 → ctxFrozen s ctx = false →
      ∃ u, exec (.tilePhaseStart ctx) s = .next (ctxChanged u ctx) ∧
        (p.total ≠ 0 → (ctxOf u ctx).passes = { p with phase := 2 } :: l ∧ Changes [.ctxs] s u) ∧
        (p.total = 0 → (∀ q ∈ (ctxOf u ctx).passes, q.id ≠ p.id) ∧ getN u (K.passDone ctx) = satInc 32 (getN s (K.passDone ctx)) ∧
          ticketDone s u p.ticket 0 (p.ended % 2 ^ 32 + 2 ^ 32 * (p.tris.length % 2 ^ 32)))) ∧
    (p.phase ≠ 1 ∨ ctxFrozen s ctx = true → exec (.tilePhaseStart ctx) s = .next s)) ∧
  (∀ (s : State) (core : Fin 36), coreUp s core = true → (coreOf s core).work = none → (coreOf s core).preemptFor = none →
    getN s K.schedC0Cores ≤ c0Held s →
    (∀ (c : Nat) (p : Pass) (l : List Pass), numbers 64 (fun c => c != 0 && ctxHasUnit s c) = [c] → running s c < getN s (K.ctxTarget c) →
      (ctxOf s c).passes = p :: l → p.phase = 2 → p.next < p.total → p.again = [] → p.spilled = [] → (∀ q ∈ l, q.id ≠ p.id) →
      ∃ t m, exec (.coreDispatchPoint core) s = .next t ∧ m = (if p.compute then min (p.resident - 1) (p.total - p.next - 1) else 0) ∧
        (coreOf t core).work = some (.unit c p.id p.next p.compute) ∧ (coreOf t core).more = (List.range m).map (p.next + 1 + ·) ∧
        (coreOf t core).lent = false ∧
        (p.compute = false → (coreOf t core).tile.length = (pixelsOf (tileRect p.area p.next)).length * p.samples) ∧
        (ctxOf t c).passes = { p with next := p.next + 1 + m, running := p.running + 1 + m, awaySince := none,
                                      away := p.away + (s.now - p.awaySince.getD s.now) } :: l ∧
        (∀ d, d ≠ c → ctxOf t d = ctxOf s d) ∧ (∀ k, k ≠ core.val → coreOf t k = coreOf s k)) ∧
    (numbers 64 (fun c => c != 0 && ctxHasUnit s c) = [] → exec (.coreDispatchPoint core) s = .next s)) ∧
  (∀ (s : State) (core : Fin 36) (c id n : Nat) (p : Pass) (l : List Pass) (run : ProgRun),
    (coreOf s core).work = some (.unit c id n false) → (ctxOf s c).passes = p :: l → p.id = id → (∀ q ∈ l, q.id ≠ p.id) →
    run = finishTile s p n (coreOf s core).tile →
    (∃ u, exec (.tileDone core true) s = .next (ctxChanged u c) ∧ (coreOf u core).work = none ∧
      (∀ q ∈ (ctxOf u c).passes, q.id ≠ p.id) ∧ getN u (K.passFault c) = satInc 32 (getN s (K.passFault c)) ∧ ticketDone s u p.ticket 3 6) ∧
    (run.refused = true → ∃ u, exec (.tileDone core false) s = .next (ctxChanged u c) ∧ (coreOf u core).work = none ∧
      (∀ q ∈ (ctxOf u c).passes, q.id ≠ p.id) ∧ getN u (K.passFault c) = satInc 32 (getN run.state (K.passFault c))) ∧
    (run.refused = false → (p.next < p.total ∨ 1 < p.running ∨ p.again ≠ [] ∨ p.spilled ≠ []) →
      ∃ t, exec (.tileDone core false) s = .next t ∧ (coreOf t core).work = none ∧
        (ctxOf t c).passes = { p with running := p.running - 1, ended := p.ended + 1, poison := p.poison + run.poison } :: l ∧
        getN t (K.coreTiles core) = satInc 32 (getN run.state (K.coreTiles core)) ∧ (∀ k, k ≠ core.val → coreOf t k = coreOf s k)) ∧
    (run.refused = false → p.total ≤ p.next → p.running ≤ 1 → p.again = [] → p.spilled = [] → nextDispatch p.later = none →
      ∃ u, exec (.tileDone core false) s = .next (ctxChanged u c) ∧ (coreOf u core).work = none ∧
        (∀ q ∈ (ctxOf u c).passes, q.id ≠ p.id) ∧ getN u (K.passDone c) = satInc 32 (getN run.state (K.passDone c)) ∧
        ticketDone run.state u p.ticket 0 ((p.ended + 1) % 2 ^ 32 + 2 ^ 32 * (p.tris.length % 2 ^ 32)))) ∧
  (∀ (s : State) (core : Fin 36) (port : Fin 8) (r n : Nat) (b : Bool), (coreOf s core).work = some (.row port r n) →
    ∃ t, exec (.tileDone core b) s = .next t ∧ (coreOf t core).work = none ∧
      (rowOf (portOf t port) r).running = (rowOf (portOf s port) r).running - 1 ∧ (∀ k, k ≠ core.val → coreOf t k = coreOf s k)) ∧
  (∀ (s : State) (core : Fin 36) (c id n : Nat) (p : Pass) (l : List Pass) (d : DispatchCall) (which : Nat) (run : ProgRun),
    (coreOf s core).work = some (.unit c id n true) → (ctxOf s c).passes = p :: l → p.id = id → p.dispatch = some d →
    (∀ q ∈ l, q.id ≠ p.id) →
    run = finishGroup s p d ((n :: (coreOf s core).more).getD (which % ((coreOf s core).more.length + 1)) 0) →
    (run.refused = true → ∃ u, exec (.workgroupDone core which) s = .next (ctxChanged u c) ∧ (coreOf u core).work = none ∧
      (∀ q ∈ (ctxOf u c).passes, q.id ≠ p.id) ∧ getN u (K.passFault c) = satInc 32 (getN run.state (K.passFault c))) ∧
    (∀ rest, run.refused = false →
      rest = (n :: (coreOf s core).more).erase ((n :: (coreOf s core).more).getD (which % ((coreOf s core).more.length + 1)) 0) →
      (p.next < p.total ∨ 1 < p.running ∨ p.again ≠ [] ∨ p.spilled ≠ []) →
      ∃ t, exec (.workgroupDone core which) s = .next t ∧ (coreOf t core).work = rest.head?.map (fun m => .unit c id m true) ∧
        (coreOf t core).more = rest.tail ∧
        (ctxOf t c).passes = { p with running := p.running - 1, ended := p.ended + 1, poison := p.poison + run.poison } :: l ∧
        (∀ k, k ≠ core.val → coreOf t k = coreOf s k)) ∧
    (run.refused = false → (coreOf s core).more = [] → p.total ≤ p.next → p.running ≤ 1 → p.again = [] → p.spilled = [] →
      (nextDispatch p.later = none →
        ∃ u, exec (.workgroupDone core which) s = .next (ctxChanged u c) ∧ (coreOf u core).work = none ∧
          (∀ q ∈ (ctxOf u c).passes, q.id ≠ p.id) ∧ getN u (K.passDone c) = satInc 32 (getN run.state (K.passDone c)) ∧
          ticketDone run.state u p.ticket 0 ((p.ended + 1) % 2 ^ 32 + 2 ^ 32 * (p.tris.length % 2 ^ 32))) ∧
      (∀ e rest, nextDispatch p.later = some (e, rest) →
        ∃ t q, exec (.workgroupDone core which) s = .next t ∧ (coreOf t core).work = none ∧ (ctxOf t c).passes = q :: l ∧
          q.dispatch = some e ∧ q.next = 0 ∧ q.total = e.x * e.y * e.z ∧ q.later = rest ∧ q.ended = p.ended + 1))) ∧
  (∀ (s : State) (ctx : Fin 64) (p : Pass) (l : List Pass), (ctxOf s ctx).passes = p :: l → (∀ q ∈ l, q.id ≠ p.id) → p.phase ≠ 0 →
    ctxFrozen s ctx = false →
    (getN s K.gpuWatchdog * 1000000 + (p.away + (s.now - p.awaySince.getD s.now)) < s.now - p.began →
      ∃ u, exec (.gpuWatchdog ctx) s = .next (ctxChanged u ctx) ∧ (∀ q ∈ (ctxOf u ctx).passes, q.id ≠ p.id) ∧
        getN u (K.passFault ctx) = satInc 32 (getN s (K.passFault ctx)) ∧ ticketDone s u p.ticket 3 5) ∧
    (s.now - p.began ≤ getN s K.gpuWatchdog * 1000000 + (p.away + (s.now - p.awaySince.getD s.now)) →
      exec (.gpuWatchdog ctx) s = .next s))

/-- A core fault. What a core runs may run twice unless the workgroup's own DISPATCH, or of a tile a fragment program of the pass, holds a
read-write binding (R209). Then a retry that passes only counts (R10); if the retry fails too the core is retired and runs nothing, all
that was resident on it is there to run again elsewhere, and the first spare that passes its self-test is admitted under a new generation
(R10, R11, R209, R473). A unit that may not run twice ends its pass with cause 6 CORE. A tile of a compositor row runs again likewise. -/
def Obligations.CoreFaults : Prop :=
  (∀ (s : State) (core : Fin 36) (c id n : Nat) (b : Bool) (p : Pass) (l : List Pass) (ok : Bool) (spares : List (Fin 36)),
    (coreOf s core).work = some (.unit c id n b) → (ctxOf s c).passes = p :: l → p.id = id → (∀ q ∈ l, q.id ≠ p.id) →
    (p.onceOnly = false → ∃ t, exec (.coreFault core true spares) s = .next t ∧
      getN t (K.coreRetry core) = satInc 32 (getN s (K.coreRetry core)) ∧ onlyObjs [K.coreRetry core] s t ∧ Changes [.objs] s t) ∧
    (p.onceOnly = false → ∃ t, exec (.coreFault core false spares) s = .next t ∧ (coreOf t core).work = none ∧
      (ctxOf t c).passes =
        { p with again := p.again ++ n :: (coreOf s core).more, running := p.running - ((coreOf s core).more.length + 1) } :: l ∧
      ((∀ x ∈ spares, x.val ∉ coreCandidates s core) → getN t (K.coreState core) = 3) ∧
      (∀ x rest, coreCandidates s core = x :: rest → x < 36 → x ≠ core.val → (∃ y ∈ spares, y.val = x) →
        getN t (K.coreState core) = 3 ∧ getN t (K.coreState x) = 1 ∧ getN t (K.coreGen x) = (getN s (K.coreGen x) + 1) % 65536)) ∧
    (p.onceOnly = true → ∃ u, exec (.coreFault core ok spares) s = .next (ctxChanged u c) ∧ (coreOf u core).work = none ∧
      (∀ q ∈ (ctxOf u c).passes, q.id ≠ p.id) ∧ getN u (K.passFault c) = satInc 32 (getN s (K.passFault c)) ∧ ticketDone s u p.ticket 3 6)) ∧
  (∀ (s : State) (core : Fin 36) (port : Fin 8) (r n : Nat) (spares : List (Fin 36)), (coreOf s core).work = some (.row port r n) →
    (∃ t, exec (.coreFault core true spares) s = .next t ∧ getN t (K.coreRetry core) = satInc 32 (getN s (K.coreRetry core)) ∧
      Changes [.objs] s t) ∧
    (∃ t, exec (.coreFault core false spares) s = .next t ∧ (coreOf t core).work = none ∧
      (rowOf (portOf t port) r).again = (rowOf (portOf s port) r).again ++ [n]))

/-- Arbitration and preemption. A context that alone is ready gets every active core that the compositor does not hold, up to its
ctx.cores.max; a context that is not ready keeps its target (R218). A preemption, within 20 µs of compute work and 40 µs of a tile, takes
all that is resident on the core off it into the context's save area, to resume later, and counts; the core then chooses its work as
at any dispatch point, an eligible compositor row first (R219, R222, R224, R225). A preemption later than the bound does not happen. -/
def Obligations.ArbitrationAndPreemption : Prop :=
  (∀ (s : State) (c : Nat), 0 < c → c < 64 → numbers 64 (ctxReady s) = [c] → 1 ≤ getN s (K.ctxClass c) → getN s (K.ctxClass c) ≤ 3 →
    0 < shareOf s (ctxOwner s c) → 0 < getN s (K.ctxWeight c) →
    ∃ t, exec .arbitration s = .next t ∧
      getN t (K.ctxTarget c) = min ((activeCores s).length - c0Held s) (getN s (K.ctxCoresMax c)) ∧
      onlyObjs [K.ctxTarget c, K.ctxHintKept c, K.tilthHintMiss, K.tilthSeq] s t ∧ Changes [.objs, .tilthLog] s t) ∧
  (∀ (s : State) (core : Fin 36) (new c id n latency position spillNs : Nat) (b : Bool) (p : Pass) (l : List Pass),
    (coreOf s core).preemptFor = some new → (coreOf s core).work = some (.unit c id n b) → (ctxOf s c).passes = p :: l → p.id = id →
    (∀ q ∈ l, q.id ≠ p.id) → c < 64 →
    (latency ≤ (if b then 20000 else 40000) →
      ∃ u, exec (.preemptDone core latency position spillNs) s = .next (chooseWork u core) ∧ (coreOf u core).work = none ∧
        (coreOf u core).preemptFor = none ∧
        (∃ q, (ctxOf u c).passes = q :: l ∧
          q.spilled = p.spilled ++ (n :: (coreOf s core).more).map (fun n => spillOf p n (coreOf s core).tile position) ∧
          q.running = p.running - ((coreOf s core).more.length + 1)) ∧
        getN u (K.ctxSave c) ≤ 12 * 1024 ∧ getN u (K.ctxPreempt c) = satInc 32 (getN s (K.ctxPreempt c)) ∧
        getN u (K.ctxPreemptMax c) = max (getN s (K.ctxPreemptMax c)) latency ∧
        getN u K.schedPreCount = (getN s K.schedPreCount + 1) % 2 ^ 64 ∧
        getN u (if b then K.schedPreCmp else K.schedPreGfx) = max (getN s (if b then K.schedPreCmp else K.schedPreGfx)) latency ∧
        (∀ k, k ≠ core.val → coreOf u k = coreOf s k) ∧ Changes [.objs, .ctxs, .cores] s u) ∧
    ((if b then 20000 else 40000) < latency → exec (.preemptDone core latency position spillNs) s = .next s)) ∧
  (∀ (s : State) (core : Fin 36) (latency position spillNs : Nat), (coreOf s core).preemptFor = none →
    exec (.preemptDone core latency position spillNs) s = .next s) ∧
  (∀ (s : State) (core : Fin 36) (p r : Nat), c0Held s < getN s K.schedC0Cores → bestRow s = some (p, r) →
    (∃ n, (coreOf (chooseWork s core) core).work = some (.row p r n)) ∧ (chooseWork s core).ctxs = s.ctxs)


/-! ## Copies -/

/-- COPY and CONVERT on memory without errors. A COPY that R79, R80, R82 and R83 allow completes with the number of bytes moved; one
they forbid, or whose host accesses the translation refuses (the model's choice, log 279), completes with FAULT and changes no module
memory. A fill, a transfer from the host, or one from another surface, of one line between linear surfaces, stores exactly its
bytes; one to the host leaves module memory alone. A CONVERT that R84 allows completes, one it forbids faults; an unscaled one of one line in
one format, nearest pixel, stores the source's pixels. -/
def Obligations.CopyAndConvert : Prop :=
  (∀ (s : State) (h : CmdHdr) (p : CopyPayload), Fetches s h 0x20 (p.kind.toNat != 1) → CalmMemory s →
    copyOk s (getN s (K.ringOwner h.ring)) h.surface.toNat (badHost h) p = true → inRank s (slotOf h.surface.toNat) →
    (p.kind.toNat = 2 → inRank s (slotOf p.src.toNat)) →
    ∃ t, exec (.copy h p) s = .next t ∧
      ringDone s t h 0x20 0 (some (runBytes (rectRuns s (slotOf h.surface.toNat) p.rect.x.toNat p.rect.y.toNat p.rect.w.toNat
        p.rect.h.toNat))) ∧
      (p.kind.toNat = 1 → t.dram = s.dram) ∧
      onlyObjsAndNotes ((List.range 3).map K.grpState ++ (List.range 6).map K.rankNrr) s t) ∧
  (∀ (s : State) (h : CmdHdr) (p : CopyPayload), Fetches s h 0x20 (p.kind.toNat != 1) →
    copyOk s (getN s (K.ringOwner h.ring)) h.surface.toNat (badHost h) p = false →
    ∃ t, exec (.copy h p) s = .next t ∧ ringDone s t h 0x20 3 none ∧ onlyObjsAndNotes [] s t ∧
      Changes [.fresh, .voteSecond, .host, .funcs, .sess, .rings, .grog, .notes] s t) ∧
  (∀ (s : State) (h : CmdHdr) (p : CopyPayload) (i b : Nat), Fetches s h 0x20 (p.kind.toNat != 1) → CalmMemory s →
    copyOk s (getN s (K.ringOwner h.ring)) h.surface.toNat (badHost h) p = true → i = slotOf h.surface.toNat →
    isYuv (getN s (K.surfFormat i)) = false → getN s (K.surfLayout i) = 0 → inRank s i →
    (p.kind.toNat = 2 → inRank s (slotOf p.src.toNat)) → b = strideBytes (getN s (K.surfFormat i)) →
    p.rect.h.toNat = 1 →
    ∃ t, exec (.copy h p) s = .next t ∧
      (p.kind.toNat = 0 → ∀ k, k < p.rect.w.toNat * b →
        surfByte t i (pixelOffset s i p.rect.x.toNat p.rect.y.toNat + k) =
          memGet (fetched s h 0x20 p.bytes).host (hostKey (getN s (K.ringOwner h.ring)) (p.host.toNat + k / b * b) + k % b)) ∧
      (p.kind.toNat = 2 → getN s (K.surfLayout (slotOf p.src.toNat)) = 0 → inRank s (slotOf p.src.toNat) → ∀ k, k < p.rect.w.toNat * b →
        surfByte t i (pixelOffset s i p.rect.x.toNat p.rect.y.toNat + k) =
          surfByte s (slotOf p.src.toNat) (pixelOffset s (slotOf p.src.toNat) p.sx.toNat p.sy.toNat + k)) ∧
      (p.kind.toNat = 3 → ∀ k, k < p.rect.w.toNat * b →
        surfByte t i (pixelOffset s i p.rect.x.toNat p.rect.y.toNat + k) = BitVec.ofNat 8 (p.fill.toNat / 256 ^ (k % b))) ∧
      (p.kind.toNat ≠ 1 → ∀ o,
        o < pixelOffset s i p.rect.x.toNat p.rect.y.toNat ∨ pixelOffset s i p.rect.x.toNat p.rect.y.toNat + p.rect.w.toNat * b ≤ o →
        surfByte t i o = surfByte s i o)) ∧
  (∀ (s : State) (h : CmdHdr) (p : ConvertPayload), Fetches s h 0x21 true → CalmMemory s →
    convertOk s (getN s (K.ringOwner h.ring)) h.surface.toNat p = true → inRank s (slotOf h.surface.toNat) → inRank s (slotOf p.src.toNat) →
    ∃ t, exec (.convert h p) s = .next t ∧ ringDone s t h 0x21 0 none ∧
      (∀ i j b, i = slotOf h.surface.toNat → j = slotOf p.src.toNat → isYuv (getN s (K.surfFormat i)) = false →
        getN s (K.surfFormat j) = getN s (K.surfFormat i) → getN s (K.surfLayout i) = 0 → getN s (K.surfLayout j) = 0 →
        b = strideBytes (getN s (K.surfFormat i)) → p.filter.toNat = 0 → p.rot.toNat = 0 → p.flags.toNat = 0 →
        p.srect.w = p.drect.w → p.srect.h.toNat = 1 → p.drect.h.toNat = 1 → ∀ k, k < p.drect.w.toNat * b →
        surfByte t i (pixelOffset s i p.drect.x.toNat p.drect.y.toNat + k) =
          surfByte s j (pixelOffset s j p.srect.x.toNat p.srect.y.toNat + k)) ∧
      onlyObjsAndNotes ((List.range 3).map K.grpState ++ (List.range 6).map K.rankNrr) s t) ∧
  (∀ (s : State) (h : CmdHdr) (p : ConvertPayload), Fetches s h 0x21 true →
    convertOk s (getN s (K.ringOwner h.ring)) h.surface.toNat p = false →
    ∃ t, exec (.convert h p) s = .next t ∧ ringDone s t h 0x21 3 none ∧ onlyObjsAndNotes [] s t ∧
      Changes [.fresh, .voteSecond, .host, .funcs, .sess, .rings, .grog, .notes] s t)

/-! ## Outputs -/

/-- LAYER_SET, COMMIT and out.commit. A LAYER_SET whose selected fields pass sets exactly those shadow objects, and with its flag
the commit bits; one that fails sets none and completes with FAULT (R127). A COMMIT sets its function's bits on every port it names and
waits for each that runs and that it sets a bit on, after a close point at VBS for the second take from now (R123, R128; a port without
such a bit counts as on time at once, log 290); with only ports that are off or stopping it completes at once; one that names a port of a spread
ends with FAULT (R420). After a failed wait, or of a dropped frame, both end DROPPED and have no effect (R188, R232).
out.commit sets the writer's bits (R121). -/
def Obligations.LayersAndCommits : Prop :=
  (∀ (s : State) (h : CmdHdr) (y : LayerSetPayload), Fetches s h 0x30 false → (ringOf s h.ring).dropUntilWait = false →
    (ringOf s h.ring).dropFrame = none →
    layerSetOk s (getN s (K.ringOwner h.ring)) y.port.toNat y.layer.toNat h.surface.toNat y = true →
    ∃ t, exec (.layerSet h y) s = .next t ∧ ringDone s t h 0x30 0 none ∧
      (∀ e ∈ layerSetFields h.surface.toNat y, getN t (layerKey y.port.toNat y.layer.toNat e.2.1) = e.2.2) ∧
      getN t (K.outCommitPend y.port.toNat) = (if bitOf y.flags.toNat 0 then pendAfter s y.port.toNat
        (commitMask s (getN s (K.ringOwner h.ring)) y.port.toNat (isPf (getN s (K.ringOwner h.ring)))) else getN s (K.outCommitPend y.port.toNat)) ∧
      onlyObjsAndNotes (K.outCommitPend y.port.toNat ::
        (layerSetFields h.surface.toNat y).map (fun e => layerKey y.port.toNat y.layer.toNat e.2.1)) s t ∧
      (bitOf y.flags.toNat 0 = false ∨ (portOf s y.port.toNat).closed = false → t.ports = s.ports)) ∧
  (∀ (s : State) (h : CmdHdr) (y : LayerSetPayload), Fetches s h 0x30 false → (ringOf s h.ring).dropUntilWait = false →
    (ringOf s h.ring).dropFrame = none →
    layerSetOk s (getN s (K.ringOwner h.ring)) y.port.toNat y.layer.toNat h.surface.toNat y = false →
    ∃ t, exec (.layerSet h y) s = .next t ∧ ringDone s t h 0x30 3 none ∧ onlyObjsAndNotes [] s t ∧ t.ports = s.ports) ∧
  (∀ (s : State) (h : CmdHdr) (ports : BitVec 8), Fetches s h 0x31 false → (ringOf s h.ring).dropUntilWait = false →
    (ringOf s h.ring).dropFrame = none → (∀ c ∈ s.commits, c.waits ≠ []) →
    (∀ p, p < 8 → bitOf ports.toNat p = true → layerOwner s p 0 ≠ 0xFD) →
    ∃ t ws, exec (.commit h ports) s = .next t ∧
      ws = (numbers 8 (fun p => bitOf ports.toNat p && outSt s p != outOff && outSt s p != outStopping &&
          commitMask s (getN s (K.ringOwner h.ring)) p (isPf (getN s (K.ringOwner h.ring))) != 0)).map (fun p =>
        let bits := commitMask s (getN s (K.ringOwner h.ring)) p (isPf (getN s (K.ringOwner h.ring)))
        if (portOf s p).closed && !modeLarge (portOf s p).runMode then (p, 256 * bits, false) else (p, bits, commitLate s p bits)) ∧
      (∀ p, p < 8 → bitOf ports.toNat p = true → getN t (K.outCommitPend p) =
        pendAfter s p (commitMask s (getN s (K.ringOwner h.ring)) p (isPf (getN s (K.ringOwner h.ring))))) ∧
      (ws ≠ [] → ∃ c, t.commits = s.commits ++ [c] ∧ c.ticket = ticketOf s h 0x31 ∧ c.waits = ws ∧
        (ringOf t h.ring).cqTail = (ringOf s h.ring).cqTail) ∧
      (ws = [] → t.commits = s.commits ∧ ringDone s t h 0x31 0 none) ∧
      ((∀ p, p < 8 → bitOf ports.toNat p = true → outSt s p = outOff ∨ outSt s p = outStopping) → ringDone s t h 0x31 0 (some 0)) ∧
      onlyObjsAndNotes ((numbers 8 (fun p => bitOf ports.toNat p)).map K.outCommitPend) s t) ∧
  (∀ (s : State) (h : CmdHdr) (ports : BitVec 8) (p : Nat), Fetches s h 0x31 false → (ringOf s h.ring).dropUntilWait = false →
    (ringOf s h.ring).dropFrame = none → p < 8 → bitOf ports.toNat p = true → layerOwner s p 0 = 0xFD →
    ∃ t, exec (.commit h ports) s = .next t ∧ ringDone s t h 0x31 3 none ∧ onlyObjsAndNotes [] s t ∧ t.commits = s.commits) ∧
  (∀ (s : State) (h : CmdHdr) (y : LayerSetPayload) (ports : BitVec 8) (op cause : Nat), Fetches s h op false → op = 0x30 ∨ op = 0x31 →
    ((ringOf s h.ring).dropUntilWait = true ∧ cause = 3 ∨
      (ringOf s h.ring).dropUntilWait = false ∧ (ringOf s h.ring).dropFrame.isSome = true ∧ cause = 2) →
    ∃ t, (if op = 0x30 then exec (.layerSet h y) s else exec (.commit h ports) s) = .next t ∧ ringDone s t h op 4 (some cause) ∧
      t.ports = s.ports ∧ t.commits = s.commits ∧ onlyObjsAndNotes [K.passDropped (getN s (K.ringCtx h.ring))] s t) ∧
  (∀ (s : State) (r : DictReq) (i : Nat) (port : Fin 8), AdmittedWrite s r i (K.outCommit port) 1 →
    (managerSession s i ∨ ((sessOf s i).role = .vf ∧ ownsOn s (sessOf s i).func port = true)) →
    ∃ t, exec (.outCommit r port 1) s = .next t ∧ answered t r 0x11 .ok ∧
      getN t (K.outCommitPend port) = pendAfter s port (commitMask s (sessOf s i).func port ((sessOf s i).role == .mgr)) ∧
      onlyObjs [K.outCommitPend port] s t ∧ ((portOf s port).closed = false → t.ports = s.ports) ∧
      Changes [.objs, .ports, .sess, .resp] s t)

/-- The states of an output. One with a mode and an engine, its own or a spare, is enabled: STARTING, its counts and frame number 0 (R132, R139,
R531); without a mode the write is RANGE, while it or a domain stops it is queued with INTRANSIT (R48), and without an engine it ends OFF (R139). It is
disabled: STOPPING (R133), but CLAIMED while its Kaolin plane is on (R164). A new mode on a running one starts a transition; one that
does not fit is RANGE, and between OFF and RUN it is BUSY (R118, R134, R135). Training that succeeds takes the link UP and ends a start in RUN; an
attempt that fails is repeated once, then at the next rate, then the link is FAILED and a start ends without it; it is retried after 1 s
(R119, R132). Hot-plug or loss of lock takes the link DOWN, and a rise starts a retraining transition (R120). A lasting engine fault takes
a spare, or without one turns the output off, or waits for a claimed domain's owner with the output off; of an engine
that drives none it only retires it; a fault whose retry passes changes nothing (R10, R138, R139, R475). -/
def Obligations.OutputLifecycle : Prop :=
  (∀ (s : State) (r : DictReq) (i : Nat) (port : Fin 8), AdmittedWrite s r i (K.outEnable port) 1 → managerSession s i → Quiet s →
    getB s (K.outEnable port) = false → K.outEnable port ∉ s.transit →
    (getN s (K.outMode port) ≠ 0xFF → outSt s port = outOff → anyStopping s (outDomains s port) = false →
      (startEngine s port).isSome = true →
      ∃ t, exec (.outEnable r port) s = .next t ∧ answered t r 0x11 .ok ∧ getB t (K.outEnable port) = true ∧
        outSt t port = outStarting ∧ (portOf t port).frame = 0 ∧ getN t (K.outUnderrun port) = 0 ∧ getN t (K.outFrames port) = 0 ∧
        getN t (K.outRetrain port) = 0 ∧ getN t (K.outSeSubst port) = (if (assignedEngine s port).isSome then 0 else 1)) ∧
    (getN s (K.outMode port) = 0xFF →
      ∃ t, exec (.outEnable r port) s = .next t ∧ answered t r 0x11 .range ∧ Changes [.fresh, .sess, .resp] s t) ∧
    (getN s (K.outMode port) ≠ 0xFF → outSt s port = outStopping →
      ∃ t, exec (.outEnable r port) s = .next t ∧ answered t r 0x11 .intransit ∧ K.outEnable port ∈ t.transit ∧
        onlyObjs [K.outEnable port] s t ∧ t.ports = s.ports) ∧
    (getN s (K.outMode port) ≠ 0xFF → outSt s port = outOff → anyStopping s (outDomains s port) = false →
      startEngine s port = none →
      ∃ t, exec (.outEnable r port) s = .next t ∧ getB t (K.outEnable port) = false ∧ outSt t port = outOff)) ∧
  (∀ (s : State) (r : DictReq) (i : Nat) (port : Fin 8), AdmittedWrite s r i (K.outEnable port) 0 → managerSession s i →
    getB s (K.outEnable port) = true → outSt s port = outStarting ∨ outSt s port = outRun ∨ outSt s port = outChanging →
    K.outEnable port ∉ s.transit →
    (kaolinOn s port = false →
      ∃ t, exec (.outDisable r port) s = .next t ∧ answered t r 0x11 .ok ∧ getB t (K.outEnable port) = false ∧ outSt t port = outStopping) ∧
    (kaolinOn s port = true →
      ∃ t, exec (.outDisable r port) s = .next t ∧ answered t r 0x11 .claimed ∧ getB t (K.outEnable port) = true ∧
        outSt t port = outSt s port ∧ t.ports = s.ports)) ∧
  (∀ (s : State) (port : Fin 8), outSt s port = outStopping → (portOf s port).runMode = 0xFF → K.outEnable port ∉ s.transit →
    ∃ t, exec (.outputStopDone port) s = .next t ∧ outSt t port = outOff ∧ getN t (K.outLinkState port) = linkDown ∧
      getN t (K.outRate port) = 0 ∧ getN t (K.outSe port) = 0xFF ∧ (portOf t port).engine = none) ∧
  (∀ (s : State) (r : DictReq) (i : Nat) (port : Fin 8) (mode : BitVec 8), AdmittedWrite s r i (K.outMode port) mode.toNat →
    managerSession s i → mode.toNat < 112 →
    (modeFits s port mode.toNat = true → outSt s port = outRun → mode.toNat ≠ getN s (K.outMode port) →
      ∃ t, exec (.outModeWrite r port mode) s = .next t ∧ answered t r 0x11 .ok ∧ getN t (K.outMode port) = mode.toNat ∧
        outSt t port = outChanging ∧ (portOf t port).phase = .toVbs ∧ onlyObjs [K.outMode port, K.outState port] s t) ∧
    (modeFits s port mode.toNat = true → outSt s port = outOff →
      ∃ t, exec (.outModeWrite r port mode) s = .next t ∧ answered t r 0x11 .ok ∧
        getN t (K.outMode port) = mode.toNat ∧ onlyObjs [K.outMode port] s t ∧ t.ports = s.ports) ∧
    (modeFits s port mode.toNat = false →
      ∃ t, exec (.outModeWrite r port mode) s = .next t ∧ answered t r 0x11 .range ∧ Changes [.fresh, .sess, .resp] s t) ∧
    (modeFits s port mode.toNat = true → outSt s port = outStarting ∨ outSt s port = outChanging ∨ outSt s port = outStopping →
      ∃ t, exec (.outModeWrite r port mode) s = .next t ∧ answered t r 0x11 .busy ∧ Changes [.fresh, .sess, .resp] s t)) ∧
  (∀ (s : State) (port : Fin 8) (ok : Bool) (edid : List Byte), getN s (K.outLinkState port) ≠ linkTraining →
    exec (.linkTrainingDone port ok edid) s = .next s) ∧
  (∀ (s : State) (port : Fin 8) (edid : List Byte), getN s (K.outLinkState port) = linkTraining →
    ((portOf s port).phase = .idle → ∃ t, exec (.linkTrainingDone port true edid) s = .next t ∧ getN t (K.outLinkState port) = linkUp ∧
      getN t (K.outRate port) = (portOf s port).trainRate ∧ getBytes t (K.outEdid port) = edid ∧
      onlyObjs [K.outLinkState port, K.outRate port, K.outEdid port, K.outRetrain port] s t) ∧
    ((portOf s port).phase = .trainStart → outSt s port = outStarting → (portOf s port).spare = none →
      ∃ t, exec (.linkTrainingDone port true edid) s = .next t ∧
        outSt t port = outRun ∧ getN t (K.outLinkState port) = linkUp ∧ getN t (K.outRate port) = (portOf s port).trainRate) ∧
    ((portOf s port).retried = false → ∃ t, exec (.linkTrainingDone port false edid) s = .next t ∧
      portOf t port = { portOf s port with retried := true } ∧ Changes [.ports] s t) ∧
    (∀ rate, (portOf s port).retried = true → nextRate s port (portOf s port).trainRate = some rate →
      ∃ t, exec (.linkTrainingDone port false edid) s = .next t ∧
        portOf t port = { portOf s port with trainRate := rate, retried := false } ∧ Changes [.ports] s t) ∧
    ((portOf s port).retried = true → nextRate s port (portOf s port).trainRate = none →
      ((portOf s port).phase = .idle → ∃ t, exec (.linkTrainingDone port false edid) s = .next t ∧
        getN t (K.outLinkState port) = linkFailedSt ∧ getN t (K.outRate port) = 0 ∧ (portOf t port).retryAt = s.now + 1000000000 ∧
        onlyObjs [K.outLinkState port, K.outRate port] s t) ∧
      ((portOf s port).phase = .trainStart → outSt s port = outStarting → (portOf s port).spare = none →
        ∃ t, exec (.linkTrainingDone port false edid) s = .next t ∧ getN t (K.outLinkState port) = linkFailedSt ∧ outSt t port = outRun))) ∧
  (∀ (s : State) (port : Fin 8), getN s (K.outLinkState port) = linkFailedSt → (portOf s port).hpd = true → timingRuns s port = true →
    ((portOf s port).retryAt ≤ s.now → ∃ t, exec (.linkRetryTimer port) s = .next t ∧ getN t (K.outLinkState port) = linkTraining ∧
      onlyObjs [K.outLinkState port, K.outRate port] s t ∧ Changes [.objs, .ports] s t) ∧
    (s.now < (portOf s port).retryAt → exec (.linkRetryTimer port) s = .next s)) ∧
  (∀ (s : State) (port : Fin 8),
    (outSt s port = outRun → getN s (K.outLinkState port) = linkDown →
      ∃ t, exec (.hpdRise port) s = .next t ∧ (portOf t port).hpd = true ∧ outSt t port = outChanging ∧ (portOf t port).cause = 2 ∧
        onlyObjs [K.outState port] s t ∧ Changes [.objs, .ports] s t) ∧
    (outSt s port ≠ outRun ∨ getN s (K.outLinkState port) ≠ linkDown →
      ∃ t, exec (.hpdRise port) s = .next t ∧ portOf t port = { portOf s port with hpd := true } ∧ Changes [.ports] s t)) ∧
  (∀ (s : State) (port : Fin 8) (us : Nat) (lost : Bool),
    (us < 2000 → exec (.hpdFall port us false) s = .next s) ∧
    ((2000 ≤ us ∨ (lost = true ∧ (portOf s port).hpd = true ∧ outSt s port ≠ outOff)) →
      (portOf s port).phase ≠ .trainStart → (portOf s port).phase ≠ .trainNew →
      ∃ t, exec (.hpdFall port us lost) s = .next t ∧ (portOf t port).hpd = (decide (us < 2000) && (portOf s port).hpd) ∧
        getN t (K.outLinkState port) = linkDown ∧ getN t (K.outRate port) = 0 ∧ onlyObjs [K.outLinkState port, K.outRate port] s t)) ∧
  (∀ (s : State) (e : Fin 9) (spares : List (Fin 9)), unitState s clsEngine e = unitInService →
    exec (.engineFault e true spares) s = .next s ∧
    ((∀ p, p < 8 → (portOf s p).engine = some e.val ∨ (portOf s p).spare = some e.val → outSt s p = outStopping) →
      ∃ t, exec (.engineFault e false spares) s = .next t ∧ unitState t clsEngine e = unitRetired ∧ t.ports = s.ports) ∧
    (∀ p, (List.range 8).find? (fun p => (portOf s p).engine == some e.val || (portOf s p).spare == some e.val) = some p →
      outSt s p = outRun →
      (∀ n, (trySpares s clsEngine 1 (fun n => spares.any (fun x => x.val == n)) (freeSpares s clsEngine)).2 = some n →
        (getB s (K.claimHold (engineDomain n)) = false →
          ∃ t, exec (.engineFault e false spares) s = .next t ∧ outSt t p = outChanging ∧
            getN t (K.outSeSubst p) = satInc 32 (getN s (K.outSeSubst p)) ∧ unitState t clsEngine e = unitRetired ∧
            unitState t clsEngine n = unitInService) ∧
        (getB s (K.claimHold (engineDomain n)) = true → kaolinClaim s (engineDomain n) = false → kaolinOn s p = false →
          getB s (K.domTw (engineDomain n)) = false → isUp s (engineDomain n) = false →
          ∃ t, exec (.engineFault e false spares) s = .next t ∧ outSt t p = outOff ∧ tget t.ehrica intGrog 0 = tget s.ehrica intGrog 0 + 1)) ∧
      ((trySpares s clsEngine 1 (fun n => spares.any (fun x => x.val == n)) (freeSpares s clsEngine)).2 = none →
        ∃ t, exec (.engineFault e false spares) s = .next t ∧ outSt t p = outOff ∧ getB t (K.outEnable p) = false ∧
          unitState t clsEngine e = unitRetired)))

/-- The events of a frame. In RUN the close point, once a frame, latches the set bits and captures their shadow, and VBS puts it in
force; the VBS of a shut-down takes what was latched before and stops the timing (R122, R133). Line 0 advances the frame (R531).
LINE_MATCH and FRAME_DONE are raised once a frame (R129, R130). A stream that a frame fetches and that underruns is kept with its line and pixel, its line
is counted once, and the event is raised for the first line of a frame only (R131). A row of the compose buffer becomes eligible at its earliest
start and not before, is tagged when it lands, and at its prefetch point its nearest ready slot is taken and held, late if its tag is another frame's, or
without one its background shown (R98 to R101). -/
def Obligations.FrameEvents : Prop :=
  (∀ (s : State) (port : Fin 8),
    (outSt s port = outRun → (portOf s port).phase = .idle → (portOf s port).closed = false → (portOf s port).inBlank = false →
      ∃ t, exec (.closePoint port) s = .next t ∧ (portOf t port).closed = true ∧ (portOf t port).latched = getN s (K.outCommitPend port) ∧
        (portOf t port).captured = shadowOver s port (getN s (K.outCommitPend port)) (portOf s port).active ∧
        (∀ j, j ≠ port.val → portOf t j = portOf s j) ∧ Changes [.ports] s t) ∧
    (outSt s port ≠ outRun ∨ (portOf s port).closed = true ∨ (portOf s port).inBlank = true → exec (.closePoint port) s = .next s)) ∧
  (∀ (s : State) (port : Fin 8), timingRuns s port = true → (portOf s port).inBlank = false →
    (∀ i, i < 8 → getN s (K.spreadState i) = sprOff) →
    (outSt s port = outRun → (portOf s port).closed = true →
      ∃ t, exec (.vbs port) s = .next t ∧ (portOf t port).closed = false ∧ (portOf t port).inBlank = true ∧ (portOf t port).lastTake = s.now ∧
        (portOf t port).active = setOver (portOf s port).latched (portOf s port).captured (portOf s port).active ∧
        getN t (K.outCommitPend port) = (getN s (K.outCommitPend port) - (getN s (K.outCommitPend port) &&& (portOf s port).latched)) |||
          (portOf s port).after) ∧
    (outSt s port = outStopping → (portOf s port).gap = false →
      ∃ t, exec (.vbs port) s = .next t ∧ (portOf t port).runMode = 0xFF ∧
        (portOf t port).active = setOver (portOf s port).latched (portOf s port).captured (portOf s port).active ∧
        getN t (K.outCommitPend port) = (getN s (K.outCommitPend port) - (getN s (K.outCommitPend port) &&& (portOf s port).latched)) |||
          (portOf s port).after)) ∧
  (∀ (s : State) (port : Fin 8), timingRuns s port = true → (portOf s port).inBlank = true → (portOf s port).phase = .idle →
    ∃ t, exec (.frameStart port) s = .next t ∧ (portOf t port).frame = (portOf s port).frame + 1 ∧ (portOf t port).inBlank = false ∧
      getN t (K.outFrames port) = satInc 32 (getN s (K.outFrames port)) ∧ onlyObjs [K.outFrames port, K.pwrTtFirst] s t ∧
      Changes [.objs, .ports] s t) ∧
  (∀ (s : State) (port : Fin 8), eventsOn s port = true → timingRuns s port = true →
    (getN s (K.outLineMatch port) < modeVtotal (portOf s port).runMode → (portOf s port).matched = false →
      ∃ t, exec (.lineMatch port) s = .next t ∧ (portOf t port).matched = true ∧ bitOf (funcOf t 0).evtPend 0 = true ∧
        onlyObjsAndNotes [] s t ∧ exec (.lineMatch port) t = .next t) ∧
    (modeVtotal (portOf s port).runMode ≤ getN s (K.outLineMatch port) → exec (.lineMatch port) s = .next s)) ∧
  (∀ (s : State) (port : Fin 8), eventsOn s port = true → timingRuns s port = true → (portOf s port).inBlank = true →
    (portOf s port).doneSent = false →
    ∃ t, exec (.frameDone port) s = .next t ∧ (portOf t port).doneSent = true ∧ (portOf t port).underLines = [] ∧
      (portOf t port).lateRows = 0 ∧ (portOf t port).bgRows = 0 ∧
      bitOf (funcOf t 0).evtPend 0 = true ∧ onlyObjsAndNotes [] s t ∧ exec (.frameDone port) t = .next t) ∧
  (∀ (s : State) (port : Fin 8) (line : BitVec 16) (stream : Fin 7) (pixel : BitVec 16), timingRuns s port = true →
    (portOf s port).gap = false → (portOf s port).inBlank = false → line.toNat < modeH (portOf s port).runMode →
    fetches (portOf s port) stream = true → line.toNat ∉ (portOf s port).underLines →
    ∃ t, exec (.underrun port line stream pixel) s = .next t ∧ getN t (K.outUnderrun port) = satInc 32 (getN s (K.outUnderrun port)) ∧
      (line.toNat, stream.val, pixel.toNat) ∈ (portOf t port).under ∧
      ((portOf s port).underLines = [] → bitOf (funcOf t 0).evtPend 1 = true) ∧
      ((portOf s port).underLines ≠ [] → Changes [.objs, .ports] s t) ∧ onlyObjsAndNotes [K.outUnderrun port] s t ∧
      ∀ (stream' : Fin 7) (pixel' : BitVec 16), ∃ u, exec (.underrun port line stream' pixel') t = .next u ∧ Changes [.ports] t u) ∧
  (∀ (s : State) (port : Fin 8) (row : Fin 256), composes s port = true → row.val < rowsOf (portOf s port).runMode →
    (rowOf (portOf s port) row).prefetched ≠ some (rowFrame (portOf s port)) → (rowOf (portOf s port) row).waiting ≠ some (rowFrame (portOf s port)) →
    (∀ i, (rowOf (portOf s port) row).composing ≠ some (i, rowFrame (portOf s port))) →
    (∀ i, ((rowOf (portOf s port) row).slot i).ready = true → ((rowOf (portOf s port) row).slot i).tag ≠ rowFrame (portOf s port) % 65536) →
    (max (portOf s port).lastTake (rowInstant (portOf s port) row (portOf s port).active.out.lead) ≤ s.now →
      getN s K.schedC0Cores ≤ c0Held s →
      ∃ t, exec (.compositorRowEligible port row) s = .next t ∧ (rowOf (portOf t port) row).waiting = some (rowFrame (portOf s port)) ∧
        (rowOf (portOf t port) row).unstarted = ceilDiv (modeW (portOf s port).runMode) 32 ∧
        (rowOf (portOf t port) row).eligibleAt = s.now ∧ Changes [.ports] s t) ∧
    (s.now < max (portOf s port).lastTake (rowInstant (portOf s port) row (portOf s port).active.out.lead) →
      exec (.compositorRowEligible port row) s = .next s)) ∧
  (∀ (s : State) (port : Fin 8) (row : Fin 256) (slot f : Nat), (rowOf (portOf s port) row).composing = some (slot, f) → slot < 2 →
    (rowOf (portOf s port) row).unstarted = 0 → (rowOf (portOf s port) row).running = 0 → (rowOf (portOf s port) row).again = [] →
    ∃ t, exec (.rowComposeDone port row) s = .next t ∧ (rowOf (portOf t port) row).slot slot = ⟨true, f % 65536⟩ ∧
      (rowOf (portOf t port) row).composing = none ∧ Changes [.ports] s t) ∧
  (∀ (s : State) (port : Fin 8) (row : Fin 256), composes s port = true → row.val < rowsOf (portOf s port).runMode →
    (rowOf (portOf s port) row).prefetched ≠ some (rowFrame (portOf s port)) → (portOf s port).inBlank = (row.val == 0) →
    ((rowOf (portOf s port) row).nearest (rowFrame (portOf s port) % 65536) = none →
      ∃ t, exec (.rowPrefetchPoint port row) s = .next t ∧ getN t (K.compRowBg port) = satInc 32 (getN s (K.compRowBg port)) ∧
        getN t (K.compRowLate port) = satInc 32 (getN s (K.compRowLate port)) ∧
        onlyObjsAndNotes [K.compRowBg port, K.compRowLate port] s t) ∧
    (∀ i, (rowOf (portOf s port) row).nearest (rowFrame (portOf s port) % 65536) = some i →
      ∃ t, exec (.rowPrefetchPoint port row) s = .next t ∧ (rowOf (portOf t port) row).held = some i ∧
        (rowOf (portOf t port) row).prefetched = some (rowFrame (portOf s port)) ∧
        (((rowOf (portOf s port) row).slot i).tag = rowFrame (portOf s port) % 65536 → Changes [.ports] s t) ∧
        (((rowOf (portOf s port) row).slot i).tag ≠ rowFrame (portOf s port) % 65536 →
          getN t (K.compRowLate port) = satInc 32 (getN s (K.compRowLate port)) ∧ onlyObjsAndNotes [K.compRowLate port] s t)))

/-! ## Kaolin -/

/-- Kaolin. kaolin.commit sets the port's commit bit (R151); after a close point at VBS, or in a shut-down, the bit waits for the next frame or
enable (R123, R133); between another close point and VBS it is late and counted, unless it was latched already (R152). A trusted write
stores its bytes in Kaolin SRAM while PD11 is on and changes no others; beyond the 2 MiB it stops (R143). A shown rectangle's signature
is compared once a frame, before VBS: one that is not the one expected in its blink phase counts a miss, an equal one counts none (R157). -/
def Obligations.KaolinCommands : Prop :=
  (∀ (s : State) (port : Fin 8), firmwareRuns s = true →
    ∃ t x, exec (.kaolinCommit port 1) s = .next t ∧ t.twResp = some x ∧ x.status = .ok ∧ (∀ j, j ≠ port.val → portOf t j = portOf s j) ∧
      ((portOf s port).closed = false → (portOf t port).kpend = true ∧ Changes [.ports, .twResp] s t) ∧
      ((portOf s port).closed = true → (modeLarge (portOf s port).runMode = false ∨ outSt s port = outStopping) →
        (portOf t port).kafter = true ∧ (portOf t port).kpend = (portOf s port).kpend ∧ Changes [.ports, .twResp] s t) ∧
      ((portOf s port).closed = true → modeLarge (portOf s port).runMode = true → outSt s port ≠ outStopping →
        ((portOf s port).klatched = true → portOf t port = portOf s port ∧ Changes [.twResp] s t) ∧
        ((portOf s port).klatched = false → (portOf t port).kpend = true ∧
          getN t (K.kaolinCommitLate port) = satInc 32 (getN s (K.kaolinCommitLate port)) ∧ onlyObjs [K.kaolinCommitLate port] s t))) ∧
  (∀ (s : State) (addr : Nat) (data : List Byte), addr + data.length ≤ 0x200000 →
    (domSt s 11 = domOn ∨ domSt s 11 = domStopping →
      ∃ t, exec (.kaolinSramWrite addr data) s = .next t ∧ memGetAll t.kram addr data.length = data ∧
        (∀ a, a < addr ∨ addr + data.length ≤ a → memGet t.kram a = memGet s.kram a) ∧ Changes [.kram, .kold] s t) ∧
    (domSt s 11 ≠ domOn → domSt s 11 ≠ domStopping → exec (.kaolinSramWrite addr data) s = .next s)) ∧
  (∀ (s : State) (addr : Nat) (data : List Byte), 0x200000 < addr + data.length →
    exec (.kaolinSramWrite addr data) s = .fault .kaolinAddress) ∧
  (∀ (s : State) (port : Fin 8) (rect : Fin 32) (seen : Option (BitVec 32)) (crc : BitVec 32) (x : KRect),
    x = (portOf s port).kactive.rects.getD rect {} → crc = seen.getD (signature s port rect) →
    (timingRuns s port = true → (portOf s port).gap = false → (portOf s port).kactive.enable = true → x.enable = true → x.mode ≠ 0 →
      (portOf s port).inBlank = false → rect.val ∉ (portOf s port).compared → (portOf s port).line ≤ compareLine (portOf s port) rect →
      ∃ t, exec (.sigCompare port rect seen) s = .next t ∧ getN t (K.rectSigLast port rect) = crc.toNat ∧
        (portOf t port).compared = rect.val :: (portOf s port).compared ∧
        (crc.toNat = (if getN s (K.kaolinPhase port) = 0 then x.sigOn else x.sigOff) →
          getN t (K.rectSigMiss port rect) = getN s (K.rectSigMiss port rect) ∧ getN t (K.kaolinMiss port) = getN s (K.kaolinMiss port) ∧
          rect.val ∉ (portOf t port).sigBad) ∧
        (crc.toNat ≠ (if getN s (K.kaolinPhase port) = 0 then x.sigOn else x.sigOff) →
          getN t (K.rectSigMiss port rect) = satInc 32 (getN s (K.rectSigMiss port rect)) ∧
          getN t (K.kaolinMiss port) = satInc 32 (getN s (K.kaolinMiss port)) ∧ getN t (K.kaolinMissTime port) = s.now ∧
          rect.val ∈ (portOf t port).sigBad)) ∧
    (rect.val ∈ (portOf s port).compared ∨ (portOf s port).inBlank = true ∨ (portOf s port).gap = true ∨ x.enable = false →
      exec (.sigCompare port rect seen) s = .next s))


/-! ## Module memory -/

/-- Words of module memory. The code word of any data decodes as clean (R253, R254). A read of a clean word delivers its data and
stores nothing; one whose first read shows a single-symbol error writes the corrected word back, and counts it as transient where the
second read is clean and the symbol lies on no pin that failed training, as lasting otherwise (R248, R256, R259, R260); one that reads
as uncorrectable twice is replaced by poison and counted (R256); of a poisoned word no data comes (R255). A write stores its bytes
and no others (R257), over poison nothing; an armed injection inverts its pins' symbols (R277). A rank whose group is off does nothing;
beyond a rank's words the command stops. -/
def Obligations.MemoryWords : Prop :=
  (∀ d, d < 2 ^ 128 → decodeWord (encodeWord d) = .clean ∧ encodeWord d % 2 ^ 128 = d) ∧
  (∀ (s : State) (rank : Fin 6) (word : Nat) (n1 n2 : List Byte), word < rankWords → 2 ≤ getN s (K.grpState (rank / 2)) →
    rank * rankWords + word ∉ s.mem.injected → ofLe (n1.take 18) = 0 → decodeWord (storedWord s rank word) = .clean →
    ∃ t, exec (.memRead rank word n1 n2 false) s = .next t ∧ t.mem.out = some (some (leBytes 16 (storedWord s rank word % 2 ^ 128))) ∧
      onlyObjs [K.grpState (rank / 2), K.rankNrr rank] s t ∧ Changes [.fresh, .objs, .mem] s t) ∧
  (∀ (s : State) (rank : Fin 6) (word : Nat) (n1 n2 : List Byte) (i e : Nat), word < rankWords → 2 ≤ getN s (K.grpState (rank / 2)) →
    rank * rankWords + word ∉ s.mem.injected → decodeWord (storedWord s rank word ^^^ ofLe (n1.take 18)) = .corrected i e →
    decodeWord (storedWord s rank word ^^^ ofLe (n1.take 18) ^^^ (e * 2 ^ (4 * i)) ^^^ ofLe (n2.take 18)) = .clean →
    onBadPin s rank word i = false → ∃ t, exec (.memRead rank word n1 n2 false) s = .next t ∧
      storedWord t rank word = storedWord s rank word ^^^ ofLe (n1.take 18) ^^^ (e * 2 ^ (4 * i)) ∧
      t.mem.out = some (some (leBytes 16 (storedWord t rank word % 2 ^ 128))) ∧
      getN t (K.rankCeTrans rank) = satInc 32 (getN s (K.rankCeTrans rank)) ∧
      (∀ r w, r ≠ rank.val ∨ w ≠ word → r < 6 → w < rankWords → storedWord t r w = storedWord s r w) ∧
      onlyObjs [K.grpState (rank / 2), K.rankNrr rank, K.rankCeTrans rank, K.memLogSeq] s t) ∧
  (∀ (s : State) (rank : Fin 6) (word : Nat) (n1 n2 : List Byte) (i e : Nat), word < rankWords → 2 ≤ getN s (K.grpState (rank / 2)) →
    rank * rankWords + word ∉ s.mem.injected → decodeWord (storedWord s rank word ^^^ ofLe (n1.take 18)) = .corrected i e →
    (decodeWord (storedWord s rank word ^^^ ofLe (n1.take 18) ^^^ (e * 2 ^ (4 * i)) ^^^ ofLe (n2.take 18)) ≠ .clean ∨
      onBadPin s rank word i = true) → (∀ b ∈ tget s.mem.buckets rank [], word ∉ b) →
    ∃ t, exec (.memRead rank word n1 n2 false) s = .next t ∧
      storedWord t rank word = storedWord s rank word ^^^ ofLe (n1.take 18) ^^^ (e * 2 ^ (4 * i)) ∧
      t.mem.out = some (some (leBytes 16 (storedWord t rank word % 2 ^ 128))) ∧
      getN t (K.rankCeTrans rank) = getN s (K.rankCeTrans rank) ∧
      getN t (K.rankCeTotal rank) = satInc 32 (getN s (K.rankCeTotal rank))) ∧
  (∀ (s : State) (rank : Fin 6) (word : Nat) (n1 n2 : List Byte), word < rankWords → 2 ≤ getN s (K.grpState (rank / 2)) →
    rank * rankWords + word ∉ s.mem.injected → decodeWord (storedWord s rank word ^^^ ofLe (n1.take 18)) = .uncorrectable →
    (decodeWord (storedWord s rank word ^^^ ofLe (n2.take 18)) = .uncorrectable ∨
      decodeWord (storedWord s rank word ^^^ ofLe (n2.take 18)) = .poisoned) →
    ∃ t, exec (.memRead rank word n1 n2 false) s = .next t ∧ storedWord t rank word = poisonWord ∧ t.mem.out = some none ∧
      getN t (K.rankUe rank) = satInc 32 (getN s (K.rankUe rank))) ∧
  (∀ (s : State) (rank : Fin 6) (word : Nat) (n1 n2 : List Byte), word < rankWords → 2 ≤ getN s (K.grpState (rank / 2)) →
    rank * rankWords + word ∉ s.mem.injected → ofLe (n1.take 18) = 0 → decodeWord (storedWord s rank word) = .poisoned →
    ∃ t, exec (.memRead rank word n1 n2 false) s = .next t ∧ t.mem.out = some none ∧ Changes [.fresh, .objs, .mem] s t) ∧
  (∀ (s : State) (rank : Fin 6) (addr : Nat) (data : List Byte), addr + data.length ≤ 16 * rankWords → 2 ≤ getN s (K.grpState (rank / 2)) →
    CalmMemory s →
    ∃ t, exec (.memWrite rank addr data) s = .next t ∧
      (∀ k, k < data.length → memGet t.dram (dramKey rank ((addr + k) / 16) 0 + (addr + k) % 16) = data.getD k 0) ∧
      (∀ a, a < addr ∨ addr + data.length ≤ a → memGet t.dram (dramKey rank (a / 16) 0 + a % 16) = memGet s.dram (dramKey rank (a / 16) 0 + a % 16)) ∧
      CalmMemory t ∧ onlyObjs [K.grpState (rank / 2), K.rankNrr rank] s t ∧ Changes [.fresh, .objs, .dram, .mem] s t) ∧
  (∀ (s : State) (rank : Fin 6) (addr : Nat) (data : List Byte), addr % 16 + data.length < 16 → data ≠ [] →
    addr + data.length ≤ 16 * rankWords → 2 ≤ getN s (K.grpState (rank / 2)) →
    readFrom s rank (addr / 16) * rankWords + addr / 16 ∉ s.mem.injected →
    decodeWord (storedWord s (readFrom s rank (addr / 16)) (addr / 16)) = .poisoned →
    ∃ t, exec (.memWrite rank addr data) s = .next t ∧ Changes [.fresh, .objs, .mem] s t) ∧
  (∀ (s : State) (rank : Fin 6) (word : Nat) (data : List Byte) (n : Nat), word < rankWords → data.length = 16 →
    2 ≤ getN s (K.grpState (rank / 2)) → s.mem.migr = none → getB s K.memInjArm = true → getN s K.memInjRank = rank.val →
    s.mem.injLeft = n + 1 →
    ∃ t, exec (.memWrite rank (16 * word) data) s = .next t ∧ t.mem.injLeft = n ∧ (n = 0 → getB t K.memInjArm = false) ∧
      storedWord t rank word = encodeWord (ofLe data) ^^^ (injectPin word (getN s K.memInjPin) (getN s K.memInjMask) ^^^
        injectPin word (getN s K.memInjPin2) (getN s K.memInjMask))) ∧
  (∀ (s : State) (rank : Fin 6) (word addr : Nat) (n1 n2 data : List Byte) (b : Bool), getN s (K.grpState (rank / 2)) < 2 →
    (word < rankWords → exec (.memRead rank word n1 n2 b) s = .next s) ∧
    (addr + data.length ≤ 16 * rankWords → exec (.memWrite rank addr data) s = .next s)) ∧
  (∀ (s : State) (rank : Fin 6) (word : Nat) (n1 n2 : List Byte) (b : Bool), rankWords ≤ word →
    exec (.memRead rank word n1 n2 b) s = .fault .memoryAddress) ∧
  (∀ (s : State) (rank : Fin 6) (addr : Nat) (data : List Byte), 16 * rankWords < addr + data.length →
    exec (.memWrite rank addr data) s = .fault .memoryAddress)

/-- The upkeep of memory: correction buckets (R260), training with zero content (R247, R249), a spare's pattern test and the hand-
over of a rank (R266, R268), oscillator checks, the patrol (R262), refresh (R271), power-down and self-refresh (R273, R274), a
requested retirement (R275), which waits where the trusted world withholds the domain of the spare (R475), and arming injection (R277). -/
def Obligations.MemoryUpkeep : Prop :=
  (∀ (s : State), s.mem.bucketAt + 60000000000 ≤ s.now →
    ∃ t, exec .ceBucketExpiry s = .next t ∧ t.mem.bucketAt = s.now ∧
      t.mem.buckets = s.mem.buckets.map (fun e => (e.1, ([] :: e.2).take 60)) ∧
      (∀ r, r < 6 → getN t (K.rankCe r) = min 65535 (((tget t.mem.buckets r []).map List.length).sum)) ∧
      onlyObjs ((List.range 6).map K.rankCe) s t ∧ Changes [.objs, .mem] s t) ∧
  (∀ (s : State) (g : Fin 3), getN s (K.grpState g) = 1 →
    ∃ t, exec (.groupTrainingDone g [] false) s = .next t ∧ getN t (K.grpState g) = 2 ∧ getN t (K.grpTrained g) = s.now ∧
      (∀ r w, r / 2 = g.val → rankServes s r = true → w < rankWords → storedWord t r w = 0)) ∧
  (∀ (s : State) (rank : Fin 6), getN s (K.rankState rank) = rkTesting →
    (∀ m, s.mem.migr = some m → m.spare = rank.val → ∃ t, exec (.sparePatternTestDone rank true) s = .next t ∧
      getN t (K.rankState rank) = rkFilling ∧ t.mem.migr = some { m with phase := 2, copied := 0, copiedAt := s.now, lost := 0 } ∧
      (∀ w, w < rankWords → storedWord t rank w = 0) ∧ onlyObjs [K.rankState rank] s t ∧ Changes [.objs, .dram, .mem] s t) ∧
    (s.mem.migr = none → ∃ t, exec (.sparePatternTestDone rank true) s = .next t ∧ getN t (K.rankState rank) = rkSpare) ∧
    (s.mem.migr = none → ∃ t, exec (.sparePatternTestDone rank false) s = .next t ∧ getN t (K.rankState rank) = rkFailed)) ∧
  (∀ (s : State) (rank : Fin 6) (m : Migration), s.mem.migr = some m → m.phase = 2 → m.rank = rank.val → m.spare < 6 → m.spare ≠ m.rank →
    s.mem.due = [] → s.mem.injected = [] →
    (∀ w, decodeWord (storedWord s rank w) = .clean ∨ decodeWord (storedWord s rank w) = .poisoned) →
    (∀ w, w < m.copied * 4096 → storedWord s m.spare w = storedWord s rank w) →
    ∃ t, exec (.migrationDone rank) s = .next t ∧ t.mem.migr = none ∧ getN t (K.rankState rank) = rkRetired ∧
      getN t (K.rankUnit rank) = 0xFF ∧ getN t (K.rankState m.spare) = rkService ∧ getN t (K.rankUnit m.spare) = getN s (K.rankUnit rank) ∧
      (∀ w, w < rankWords → storedWord t m.spare w = storedWord s rank w)) ∧
  (∀ (s : State) (g : Fin 3) (drift fails : Nat) (temp : BitVec 32), 2 ≤ getN s (K.grpState g) →
    ∃ t, exec (.dqsOscCheck g drift fails temp) s = .next t ∧ getN t (K.grpTemp g) = temp.toNat ∧
      getN t (K.grpRetrain g) = (if 30 < drift ∧ fails < 3 then satInc 32 (getN s (K.grpRetrain g)) else getN s (K.grpRetrain g)) ∧
      onlyObjs [K.grpTemp g, K.grpRetrain g] s t ∧ Changes [.objs] s t) ∧
  (∀ (s : State) (g : Fin 3) (words : Nat), CalmMemory s → 2 ≤ getN s (K.grpState g) →
    (getN s (K.grpState g) = 3 → tget s.mem.wokeAt g 0 ≠ s.now / 1000000000 + 1) → getN s K.memScrubPeriod ≠ 0 → words ≤ 65536 →
    tget s.mem.patrol g 0 < (groupRanks s g).length * rankWords →
    ∃ t, exec (.scrubBurst g (tget s.mem.patrol g 0) words) s = .next t ∧ t.dram = s.dram ∧
      (tget t.mem.patrol g 0 = min ((groupRanks s g).length * rankWords) (tget s.mem.patrol g 0 + words) ∨
        (t.mem.patrol = [] ∧ getN t K.memScrubLast = s.now)) ∧ Changes [.fresh, .objs, .mem] s t) ∧
  (∀ (s : State) (rank : Fin 6), 2 ≤ getN s (K.grpState (rank / 2)) →
    ∃ t, exec (.refresh rank) s = .next t ∧ tfind t.mem.refreshed rank = some s.now ∧ Changes [.mem] s t) ∧
  (∀ (s : State) (rank : Fin 6), getN s (K.grpState (rank / 2)) = 2 → tget s.mem.access rank 0 + getN s K.memPdTimer ≤ s.now →
    ∃ t, exec (.rankPowerDown rank) s = .next t ∧ rank.val ∈ t.mem.asleep ∧ Changes [.mem] s t) ∧
  (∀ (s : State) (g : Fin 3), getN s (K.grpState g) = 2 →
    (∀ r, r / 2 = g.val → tget s.mem.access r 0 + getN s K.memSrTimer * 1000 ≤ s.now) →
    ∃ t, exec (.selfRefreshEntry g) s = .next t ∧ getN t (K.grpState g) = 3 ∧
      getN t (K.grpSrCount g) = satInc 32 (getN s (K.grpSrCount g)) ∧ onlyObjs [K.grpState g, K.grpSrCount g] s t ∧ Changes [.objs] s t) ∧
  (∀ (s : State) (r : DictReq) (i : Nat) (rank : BitVec 8) (sp : Nat) (l : List Nat), AdmittedWrite s r i K.memRetireReq rank.toNat →
    managerSession s i → rank.toNat < 6 → getN s (K.rankState rank.toNat) = rkService → spareRanks s = sp :: l → s.mem.migr = none →
    ∃ t m, exec (.memRetireReq r rank) s = .next t ∧ answered t r 0x11 .ok ∧
      (domainWithheld s (16 + sp / 2) = false ∨ getN s (K.grpState (sp / 2)) = 2 → getN t (K.rankState rank.toNat) = rkDraining) ∧
      (domainWithheld s (16 + sp / 2) = true → getN s (K.grpState (sp / 2)) < 2 →
        getN t (K.rankState rank.toNat) = rkDegraded ∧ tget t.ehrica intGrog 0 = tget s.ehrica intGrog 0 + 1) ∧
      getN t (K.rankCause rank.toNat) = 4 ∧ t.mem.migr = some m ∧ m.rank = rank.toNat ∧ m.spare = sp ∧ m.began = s.now) ∧
  (∀ (s : State) (r : DictReq) (i : Nat) (rank : BitVec 8), AdmittedWrite s r i K.memRetireReq rank.toNat → managerSession s i →
    rank.toNat < 6 →
    (spareRanks s = [] → ∃ t, exec (.memRetireReq r rank) s = .next t ∧ answered t r 0x11 .range ∧
      Changes [.fresh, .sess, .resp] s t) ∧
    (getN s (K.rankState rank.toNat) = rkService → spareRanks s ≠ [] → s.mem.migr.isSome = true →
      ∃ t, exec (.memRetireReq r rank) s = .next t ∧ answered t r 0x11 .busy ∧ Changes [.fresh, .sess, .resp] s t)) ∧
  (∀ (s : State) (r : DictReq) (i : Nat) (b : Bool), AdmittedWrite s r i K.memInjArm b.toNat → managerSession s i →
    (getB s K.diagEnable = true → ∃ t, exec (.memInjArm r b) s = .next t ∧ answered t r 0x11 .ok ∧ getB t K.memInjArm = b ∧
      t.mem.injLeft = (if b then getN s K.memInjCount else 0) ∧ onlyObjs [K.memInjArm] s t ∧
      Changes [.objs, .mem, .sess, .resp] s t) ∧
    (getB s K.diagEnable = false → ∃ t, exec (.memInjArm r b) s = .next t ∧ answered t r 0x11 .access ∧
      Changes [.fresh, .sess, .resp] s t))

/-! ## Virtual functions -/

/-- Virtual functions. vf.enable creates a VF whose grants fit the pools, is refused with RANGE where they do not (R283), and is queued
while the function's reset runs (R48); false, vf.flr, the PCIe FLRs and VF Enable cleared start its reset under a new epoch (R286, R291,
R280). At its end the function's rings are disabled and its reset is over (R292, Table VF-6), and a disabled VF's rings go back to the
pool (R286). A grant of a VF that is not enabled takes its value; of one that is, if its pools allow it, and it is refused with RANGE above the
pool or below the use (R285, R294). A region is refused where it overlaps another VF's, or a screen region a Kaolin rectangle (R288). -/
def Obligations.VirtualFunctions : Prop :=
  (∀ (s : State) (r : DictReq) (i : Nat) (vf : Fin 64), vf ≠ 0 → AdmittedWrite s r i (K.vfEnable vf) 1 → managerSession s i →
    getB s (K.vfEnable vf) = false → (funcOf s vf).flrSince = none → K.vfEnable vf ∉ s.transit →
    (grantsFit s vf = true → ∃ t, exec (.vfEnable r vf) s = .next t ∧ answered t r 0x11 .ok ∧ vfOn t vf = true ∧
      (funcOf t vf).dropped = 0 ∧ (funcOf t vf).epoch = (funcOf s vf).epoch ∧ (∀ v, v ≠ vf.val → vfOn t v = vfOn s v)) ∧
    (grantsFit s vf = false → ∃ t, exec (.vfEnable r vf) s = .next t ∧ answered t r 0x11 .range ∧ Changes [.fresh, .sess, .resp] s t)) ∧
  (∀ (s : State) (r : DictReq) (i : Nat) (vf : Fin 64), vf ≠ 0 → AdmittedWrite s r i (K.vfEnable vf) 1 → managerSession s i →
    getB s (K.vfEnable vf) = false → (funcOf s vf).flrSince.isSome = true → K.vfEnable vf ∉ s.transit →
    ∃ t, exec (.vfEnable r vf) s = .next t ∧ answered t r 0x11 .intransit ∧ K.vfEnable vf ∈ t.transit ∧ vfOn t vf = false ∧
      getB t (K.vfEnable vf) = true ∧ onlyObjs [K.vfEnable vf] s t ∧ Changes [.objs, .transit, .sess, .resp] s t) ∧
  (∀ (s : State) (r : DictReq) (i : Nat) (vf : Fin 64), vf ≠ 0 → AdmittedWrite s r i (K.vfEnable vf) 0 → managerSession s i →
    vfOn s vf = true → ∃ t, exec (.vfDisable r vf) s = .next t ∧ answered t r 0x11 .ok ∧ vfOn t vf = false ∧
      (funcOf t vf).epoch = ((funcOf s vf).epoch + 1) % 2 ^ 32 ∧ (funcOf t vf).flrSince = some s.now) ∧
  (∀ (s : State) (r : DictReq) (i : Nat) (vf : Fin 64) (sub : BitVec 8) (value : BitVec 32) (row : ObjRow) (j : Nat), vf ≠ 0 →
    AdmittedWrite s r i (objKey (0x6001 + 0x40 * vf) sub.toNat) value.toNat → managerSession s i → 1 ≤ sub.toNat → sub.toNat ≤ 13 →
    lookupObj (0x6001 + 0x40 * vf) sub.toNat = some (row, j) → inRange row (.num value.toNat) = true → value.toNat < 256 ^ row.ty.size →
    (vfOn s vf = false ∨ grantCheck s vf sub.toNat value.toNat = .ok →
      ∃ t, exec (.grantWrite r vf sub value) s = .next t ∧ answered t r 0x11 .ok ∧ grantN t vf sub.toNat = value.toNat ∧
        (vfOn s vf = false ∨ sub.toNat ≠ 5 → onlyObjs [objKey (0x6001 + 0x40 * vf) sub.toNat] s t ∧ Changes [.objs, .sess, .resp] s t)) ∧
    (vfOn s vf = true → sub.toNat ∉ [2, 4, 5, 12] →
      grantN s vf sub.toNat + poolN s sub.toNat < value.toNat ∨
        (value.toNat < grantN s vf sub.toNat ∧ value.toNat < useN s vf sub.toNat) →
      ∃ t, exec (.grantWrite r vf sub value) s = .next t ∧ answered t r 0x11 .range ∧ Changes [.fresh, .sess, .resp] s t)) ∧
  (∀ (s : State) (r : DictReq) (i : Nat) (vf : Fin 64) (value : BitVec 16), vf ≠ 0 → AdmittedWrite s r i (K.grantShare vf) value.toNat →
    managerSession s i → 1 ≤ value.toNat → value.toNat ≤ 1000 →
    (vfOn s vf = false ∨ value.toNat ≤ grantN s vf 5 + poolN s 5 →
      ∃ t, exec (.grantShareWrite r vf value) s = .next t ∧ answered t r 0x11 .ok ∧ grantN t vf 5 = value.toNat) ∧
    (vfOn s vf = true → grantN s vf 5 + poolN s 5 < value.toNat →
      ∃ t, exec (.grantShareWrite r vf value) s = .next t ∧ answered t r 0x11 .range ∧ Changes [.fresh, .sess, .resp] s t)) ∧
  (∀ (s : State) (r : DictReq) (i : Nat) (vf : Fin 64) (touch : Bool) (q : Fin 8) (sub : BitVec 8) (value : BitVec 32), vf ≠ 0 →
    AdmittedWrite s r i (objKey ((if touch then 0x6010 else 0x6008) + 0x40 * vf + q) sub.toNat) value.toNat → managerSession s i →
    (sub.toNat = 2 ∨ sub.toNat = 3 ∨ (sub.toNat = 1 ∧ (value.toNat < (if touch then 4 else 8) ∨ value.toNat = 0xFF))) →
    (regionCheck s touch vf q sub.toNat value.toNat = .ok →
      ∃ t, exec (.regionWrite r vf touch q sub value) s = .next t ∧ answered t r 0x11 .ok ∧
        regionRec t touch vf q = regionWith (regionRec s touch vf q) sub.toNat value.toNat ∧
        (touch = false ∨ (regionRec s touch vf q).1 = 0xFF →
          onlyObjs [objKey ((if touch then 0x6010 else 0x6008) + 0x40 * vf + q) sub.toNat] s t ∧ Changes [.objs, .sess, .resp] s t)) ∧
    (∀ k, k < 32 → touch = false → regionEmpty (regionWith (regionRec s touch vf q) sub.toNat value.toNat) = false →
      lo16 (rectShadow s (regionWith (regionRec s touch vf q) sub.toNat value.toNat).1 k).wh ≠ 0 →
      hi16 (rectShadow s (regionWith (regionRec s touch vf q) sub.toNat value.toNat).1 k).wh ≠ 0 →
      overlap (regionWith (regionRec s touch vf q) sub.toNat value.toNat).2.1 (regionWith (regionRec s touch vf q) sub.toNat value.toNat).2.2
        (rectShadow s (regionWith (regionRec s touch vf q) sub.toNat value.toNat).1 k).xy
        (rectShadow s (regionWith (regionRec s touch vf q) sub.toNat value.toNat).1 k).wh = true →
      ∃ t, exec (.regionWrite r vf touch q sub value) s = .next t ∧ answered t r 0x11 .range ∧ Changes [.fresh, .sess, .resp] s t) ∧
    (∀ (w : Fin 64) (j : Fin 8), w ≠ 0 → w ≠ vf → regionEmpty (regionWith (regionRec s touch vf q) sub.toNat value.toNat) = false →
      regionEmpty (regionRec s touch w j) = false →
      (regionRec s touch w j).1 = (regionWith (regionRec s touch vf q) sub.toNat value.toNat).1 →
      overlap (regionWith (regionRec s touch vf q) sub.toNat value.toNat).2.1 (regionWith (regionRec s touch vf q) sub.toNat value.toNat).2.2
        (regionRec s touch w j).2.1 (regionRec s touch w j).2.2 = true →
      ∃ t, exec (.regionWrite r vf touch q sub value) s = .next t ∧ answered t r 0x11 .range ∧ Changes [.fresh, .sess, .resp] s t)) ∧
  (∀ (s : State) (r : DictReq) (i : Nat) (vf : Fin 64), vf ≠ 0 → AdmittedWrite s r i (K.vfFlr vf) 1 → managerSession s i →
    vfOn s vf = true → ∃ t, exec (.vfFlr r vf 1) s = .next t ∧ answered t r 0x11 .ok ∧ vfOn t vf = true ∧
      (funcOf t vf).epoch = ((funcOf s vf).epoch + 1) % 2 ^ 32 ∧ (funcOf t vf).flrSince = some s.now) ∧
  (∀ (s : State) (f : Fin 65), 0 < f.val → f.val < 64 → vfOn s f = true →
    (∃ t, exec (.pcieFlr f) s = .next t ∧ (funcOf t f).epoch = ((funcOf s f).epoch + 1) % 2 ^ 32 ∧ (funcOf t f).flrSince = some s.now ∧
      (∀ g, g ≠ f.val → (funcOf t g).epoch = (funcOf s g).epoch)) ∧
    (∃ t, exec .vfEnableClear s = .next t ∧ (funcOf t f).epoch = ((funcOf s f).epoch + 1) % 2 ^ 32 ∧
      (funcOf t 0).epoch = (funcOf s 0).epoch) ∧
    (∃ t, exec (.pfFlr false) s = .next t ∧ (funcOf t f).epoch = ((funcOf s f).epoch + 1) % 2 ^ 32 ∧
      (funcOf t 0).epoch = ((funcOf s 0).epoch + 1) % 2 ^ 32) ∧
    (∃ t, exec (.pfFlr true) s = .next t ∧ (funcOf t 64).epoch = ((funcOf s 64).epoch + 1) % 2 ^ 32 ∧
      (funcOf t f).epoch = (funcOf s f).epoch)) ∧
  (∀ (s : State) (f : Fin 65), 0 < f.val → f.val < 64 → vfOn s f = false → exec (.pcieFlr f) s = .next s) ∧
  (∀ (s : State) (f : Fin 65), (funcOf s f).flrSince = none → exec (.flrDone f) s = .next s) ∧
  (∀ (s : State) (f : Fin 65) (began : Nat), (funcOf s f).flrSince = some began →
    ∃ t, exec (.flrDone f) s = .next t ∧ (funcOf t f).flrSince = none ∧ (funcOf t f).epoch = (funcOf s f).epoch ∧
      (∀ ring, ring < 256 → getV s (K.ringOwner ring) = .num f.val → getB t (K.ringEnable ring) = false ∧ (ringOf t ring).head = 0 ∧
        (ringOf t ring).tail = 0) ∧
      (f.val = 0 ∨ f.val = 64 ∨ vfOn s f = true → ∀ ring, ring < 256 → getN t (K.ringOwner ring) = getN s (K.ringOwner ring)) ∧
      (0 < f.val → f.val < 64 → vfOn s f = false →
        ∀ ring, ring < 256 → getV s (K.ringOwner ring) = .num f.val → getN t (K.ringOwner ring) = 0xFF))

/-- Moving a guest. A freeze stops the VF's rings, and once done none of its units runs; it is refused with BUSY while the function's reset
runs (R297). A thaw lets the VF run on. A SAVE in FROZEN ends with the image in host memory, or, where mig.len is too small for it, with
result RANGE and the size in mig.size (R298); a RESTORE ends with the result of its checks, and changes nothing where they fail (R301).
A logged write sets its page's bit, one outside the range is counted (R302); enabling the log starts at bitmap 0 (R303), and a swap
changes the active bitmap and is refused with BUSY while one runs (R304). That a thaw in SAVING or RESTORING is refused is the model's
choice (log 133). -/
def Obligations.MigrationAndLog : Prop :=
  (∀ (s : State) (r : DictReq) (i : Nat) (vf : Fin 64), vf ≠ 0 → AdmittedWrite s r i (K.migFreeze vf) 1 → managerSession s i →
    ((funcOf s vf).flrSince = none → getN s (K.migState vf) = 0 → ∃ t, exec (.migFreeze r vf) s = .next t ∧ answered t r 0x11 .ok ∧
      getB t (K.migFreeze vf) = true ∧ getN t (K.migState vf) = 1 ∧
      (∀ ring, getN s (K.ringOwner ring) = vf.val → ring < 256 → canFetch t ring = false)) ∧
    ((funcOf s vf).flrSince.isSome = true → ∃ t, exec (.migFreeze r vf) s = .next t ∧ answered t r 0x11 .busy ∧
      Changes [.fresh, .sess, .resp] s t)) ∧
  (∀ (s : State) (r : DictReq) (i : Nat) (vf : Fin 64), vf ≠ 0 → AdmittedWrite s r i (K.migFreeze vf) 0 → managerSession s i →
    (getN s (K.migState vf) < 3 → ∃ t, exec (.migThaw r vf) s = .next t ∧ answered t r 0x11 .ok ∧ getB t (K.migFreeze vf) = false ∧
      getN t (K.migState vf) = 0) ∧
    (3 ≤ getN s (K.migState vf) → ∃ t, exec (.migThaw r vf) s = .next t ∧ answered t r 0x11 .busy ∧
      Changes [.fresh, .sess, .resp] s t)) ∧
  (∀ (s : State) (vf : Fin 64) (position : List Nat), getN s (K.migState vf) ≠ 1 → exec (.freezeDone vf position) s = .next s) ∧
  (∀ (s : State) (vf : Fin 64) (position : List Nat), vf ≠ 0 → getN s (K.migState vf) = 1 →
    ∃ t, exec (.freezeDone vf position) s = .next t ∧ getN t (K.migState vf) = 2 ∧
      (∀ k c id n b, k < 36 → c < 64 → (coreOf t k).work = some (.unit c id n b) → getN t (K.ctxOwner c) ≠ vf.val)) ∧
  (∀ (s : State) (r : DictReq) (i : Nat) (vf : Fin 64), vf ≠ 0 → managerSession s i →
    (AdmittedWrite s r i (K.migOp vf) 1 → getN s (K.migState vf) = 2 → getN s (K.migCtx vf) = 0xFF →
      (imageBytes (renewed s i) vf 0xFF).length ≤ getN s (K.migLen vf) →
      ∃ t, exec (.migSave r vf) s = .next t ∧ answered t r 0x11 .ok ∧ getN t (K.migState vf) = 3 ∧
        tfind t.migs vf = some ⟨1, 0xFF, getN s (K.migAddr vf), imageBytes (renewed s i) vf 0xFF, 0⟩ ∧ onlyObjs [K.migState vf] s t) ∧
    (AdmittedWrite s r i (K.migOp vf) 1 → getN s (K.migState vf) = 2 →
      ∃ t m, exec (.migSave r vf) s = .next t ∧ answered t r 0x11 .ok ∧ getN t (K.migState vf) = 3 ∧ tfind t.migs vf = some m ∧ m.op = 1 ∧
        m.image = imageBytes (renewed s i) vf (getN s (K.migCtx vf)) ∧ (getN s (K.migLen vf) < m.image.length → m.result = 1) ∧
        onlyObjs [K.migState vf] s t) ∧
    (AdmittedWrite s r i (K.migOp vf) 1 → getN s (K.migState vf) ≠ 2 →
      ∃ t, exec (.migSave r vf) s = .next t ∧ answered t r 0x11 .busy ∧ Changes [.fresh, .sess, .resp] s t) ∧
    (AdmittedWrite s r i (K.migOp vf) 2 → getN s (K.migState vf) = 2 →
      ∃ t m, exec (.migRestore r vf) s = .next t ∧ answered t r 0x11 .ok ∧ getN t (K.migState vf) = 4 ∧ tfind t.migs vf = some m ∧
        m.op = 2 ∧ m.addr = getN s (K.migAddr vf) ∧ onlyObjs [K.migState vf] s t)) ∧
  (∀ (s : State) (vf : Fin 64) (m : Mig), vf ≠ 0 → tfind s.migs vf = some m →
    (getN s (K.migState vf) = 3 → m.op = 1 → m.result = 0 → ∃ t, exec (.imageDone vf) s = .next t ∧ getN t (K.migState vf) = 2 ∧
      getN t (K.migResult vf) = 0 ∧ getN t (K.migSize vf) = m.image.length ∧ hostRead t 0 m.addr m.image.length = m.image ∧
      onlyObjsAndNotes [K.migState vf, K.migResult vf, K.migSize vf] s t) ∧
    (getN s (K.migState vf) = 3 → m.op = 1 → m.result ≠ 0 → ∃ t, exec (.imageDone vf) s = .next t ∧ getN t (K.migState vf) = 2 ∧
      getN t (K.migResult vf) = m.result ∧ getN t (K.migSize vf) = m.image.length ∧ t.host = s.host ∧
      onlyObjsAndNotes [K.migState vf, K.migResult vf, K.migSize vf] s t) ∧
    (getN s (K.migState vf) = 4 → m.op = 2 → ∃ t, exec (.imageDone vf) s = .next t ∧ getN t (K.migState vf) = 2 ∧
      getN t (K.migResult vf) = restoreResult s vf m.image ∧
      (restoreResult s vf m.image ≠ 0 → onlyObjsAndNotes [K.migState vf, K.migResult vf] s t))) ∧
  (∀ (s : State) (f a : Nat) (b : List Byte), 0 < f → f < 64 → getB s (K.logEnable f) = true → getN s (K.logState f) = 1 → b ≠ [] →
    a / 4096 = (a + b.length - 1) / 4096 → getN s (K.logLo f) / 4096 ≤ a / 4096 → a / 4096 < getN s (K.logLo f) / 4096 + getN s (K.logPages f) →
    bitOf (memGet (hostWrite s f a b).host (hostKey 0 ((if getN s (K.logActive f) = 0 then getN s (K.logBase0 f) else getN s (K.logBase1 f)) +
      (a / 4096 - getN s (K.logLo f) / 4096) / 8))).toNat ((a / 4096 - getN s (K.logLo f) / 4096) % 8) = true) ∧
  (∀ (s : State) (f a : Nat) (b : List Byte), 0 < f → f < 64 → getB s (K.logEnable f) = true → b ≠ [] →
    (a / 4096 < getN s (K.logLo f) / 4096 ∨ getN s (K.logLo f) / 4096 + getN s (K.logPages f) ≤ (a + b.length - 1) / 4096) →
    getN (hostWrite s f a b) (K.logOut f) = satInc 32 (getN s (K.logOut f)) ∧ onlyObjs [K.logOut f] s (hostWrite s f a b)) ∧
  (∀ (s : State) (r : DictReq) (i : Nat) (vf : Fin 64), vf ≠ 0 → managerSession s i →
    (AdmittedWrite s r i (K.logEnable vf) 1 → getB s (K.logEnable vf) = false → ∃ t, exec (.logEnable r vf true) s = .next t ∧
      answered t r 0x11 .ok ∧ getB t (K.logEnable vf) = true ∧ getN t (K.logActive vf) = 0 ∧ getN t (K.logSeq vf) = 0 ∧
      getN t (K.logState vf) = 1 ∧ onlyObjs [K.logEnable vf, K.logActive vf, K.logSeq vf, K.logState vf] s t) ∧
    (AdmittedWrite s r i (K.logEnable vf) 0 → ∃ t, exec (.logEnable r vf false) s = .next t ∧
      answered t r 0x11 .ok ∧ getB t (K.logEnable vf) = false ∧ getN t (K.logState vf) = 0 ∧ onlyObjs [K.logEnable vf, K.logState vf] s t) ∧
    (AdmittedWrite s r i (K.logSwap vf) 1 → getN s (K.logState vf) = 1 → ∃ t, exec (.logSwap r vf 1) s = .next t ∧
      answered t r 0x11 .ok ∧ getN t (K.logState vf) = 2 ∧ onlyObjs [K.logState vf] s t) ∧
    (AdmittedWrite s r i (K.logSwap vf) 1 → getN s (K.logState vf) = 2 → ∃ t, exec (.logSwap r vf 1) s = .next t ∧
      answered t r 0x11 .busy ∧ Changes [.fresh, .sess, .resp] s t)) ∧
  (∀ (s : State) (vf : Fin 64), vf ≠ 0 → getN s (K.logState vf) = 2 → ∃ t, exec (.logSwapDone vf) s = .next t ∧
    getN t (K.logActive vf) = 1 - getN s (K.logActive vf) ∧ getN t (K.logSeq vf) = (getN s (K.logSeq vf) + 1) % 2 ^ 32 ∧
    getN t (K.logState vf) = 1 ∧ bitOf (funcOf t 0).evtPend 8 = true ∧
    onlyObjsAndNotes [K.logActive vf, K.logSeq vf, K.logState vf] s t)

/-! ## The two worlds -/

/-- The call gate and refused accesses. A call of services 1 to 3 raises BUSY for a running trusted world, any other ends with
BADSVC, one that meets a restart or a trusted world that is DOWN ends with that result, and a call while BUSY leaves the one in
progress (R315, R326). A release gives the result and its words, and zeroes the rest of the arguments and of the buffer (R316); without
a call in progress it does nothing. An access of the open world to a trusted target is counted, recorded and interrupts the Ehrica
controller; a read is answered with zeros, nothing else of the trusted world changes (R310); one that carries T = 1 is no violation
(R308, R313). -/
def Obligations.GateAndTargets : Prop :=
  (∀ (s : State) (nonce : List Byte) (count domain : BitVec 32), s.world.busy = false → twSt s = twRun → s.world.args.length = 8 →
    (∃ t, exec (.gateQuote nonce) s = .next t ∧ t.world.busy = true ∧ t.world.done = false ∧ t.world.svc = 1 ∧
      t.world.bufLen = min nonce.length 4096 ∧ memGetAll t.world.buf 0 (min nonce.length 4096) = nonce.take 4096 ∧ Changes [.world, .ehrica] s t) ∧
    (∃ t, exec (.gateRandom count) s = .next t ∧ t.world.busy = true ∧ t.world.svc = 2 ∧ t.world.args.getD 0 0 = count.toNat ∧
      Changes [.world, .ehrica] s t) ∧
    (∃ t, exec (.gateReleaseAsk domain) s = .next t ∧ t.world.busy = true ∧ t.world.svc = 3 ∧ t.world.args.getD 0 0 = domain.toNat ∧
      Changes [.world, .ehrica] s t)) ∧
  (∀ (s : State) (svc : BitVec 16), s.world.busy = false → twSt s = twRun → svc.toNat = 0 ∨ 3 < svc.toNat →
    ∃ t, exec (.gateBadsvc svc) s = .next t ∧ t.world.busy = false ∧ t.world.done = true ∧ t.world.result = 1 ∧ t.world.svc = svc.toNat ∧
      Changes [.world] s t) ∧
  (∀ (s : State) (nonce : List Byte) (count domain : BitVec 32) (c : Instr),
    c ∈ [.gateQuote nonce, .gateRandom count, .gateReleaseAsk domain] →
    (s.world.busy = false → twSt s = twRestarting → ∃ t, exec c s = .next t ∧ t.world.busy = false ∧ t.world.done = true ∧
      t.world.result = 2 ∧ t.ehrica = s.ehrica) ∧
    (s.world.busy = false → twSt s = twDown → ∃ t, exec c s = .next t ∧ t.world.busy = false ∧ t.world.done = true ∧
      t.world.result = 4 ∧ t.ehrica = s.ehrica) ∧
    (s.world.busy = true → ∃ t, exec c s = .next t ∧ t.world.busy = true ∧ t.world.svc = s.world.svc ∧ t.ehrica = s.ehrica ∧
      Changes [.world] s t)) ∧
  (∀ (s : State) (result nres : BitVec 4) (args : List (BitVec 32)) (len : BitVec 13) (buf : List Byte), s.world.busy = false →
    exec (.gateRelease result nres args len buf) s = .next s) ∧
  (∀ (s : State) (result nres : BitVec 4) (args : List (BitVec 32)) (len : BitVec 13) (buf : List Byte), s.world.busy = true →
    twSt s = twRun →
    ∃ t, exec (.gateRelease result nres args len buf) s = .next t ∧ t.world.busy = false ∧ t.world.done = true ∧
      t.world.result = result.toNat ∧ t.world.nres = min nres.toNat 8 ∧
      (∀ i, i < 8 → t.world.args.getD i 0 = if i < min nres.toNat 8 then (args.getD i 0).toNat else 0) ∧
      (∀ a, t.world.bufLen ≤ a → a < 4096 → memGet t.world.buf a = 0) ∧
      (result.toNat = 0 → s.world.svc = 1 → memGetAll t.world.buf 0 (min (quoteBytes s (memGetAll s.world.buf 0 32)).length 4096) =
        (quoteBytes s (memGetAll s.world.buf 0 32)).take 4096) ∧
      (result.toNat = 0 → s.world.svc = 2 → t.world.bufLen = min (s.world.args.getD 0 0) 4096) ∧ Changes [.world, .fresh] s t) ∧
  (∀ (s : State) (who : Initiator) (target : BitVec 8) (write : Bool) (len : Fin 65), 1 ≤ target.toNat → target.toNat ≤ 10 →
    (carriesT s who = false → ∃ t, exec (.trustedTargetAccess who target write len) s = .next t ∧
      getN t K.worldViol = satInc 32 (getN s K.worldViol) ∧
      getN t K.worldViolLast = initiatorCode who + 2 ^ 8 * target.toNat + 2 ^ 16 * b2n write ∧
      tget t.ehrica intViol 0 = tget s.ehrica intViol 0 + 1 ∧ onlyObjsAndNotes [K.worldViol, K.worldViolLast] s t ∧
      t.world.zeroRead = (if write then s.world.zeroRead else List.replicate len 0) ∧
      s.world = { t.world with zeroRead := s.world.zeroRead, violAt := s.world.violAt }) ∧
    (carriesT s who = true → exec (.trustedTargetAccess who target write len) s = .next s))

/-- What the trusted world assigns, claims and restarts. A pin or DMA channel given to the open world is scrubbed (R314), a channel
that transfers keeps its assignment. claim.hold sets a domain's claim, but PD01's stays (R317); a domain is cut when its notice
expires (R321). The right kick restarts the watchdog's period; a wrong one, 50 ms without one, a lockstep fault and a request
restart the trusted world, the fifth in 60 s takes it DOWN (R324, R325, R327). A lone restart that succeeds runs again and extends
slot 7, one that fails its self-test or both images goes DOWN (R325, R327, R328); a nonce is kept and its quote signed (R331). -/
def Obligations.TrustedWorld : Prop :=
  (∀ (s : State) (pin : Fin 96) (trusted : Bool), firmwareRuns s = true →
    ∃ t, exec (.pinTWrite pin trusted) s = .next t ∧ pinTrusted t pin = trusted ∧ getB t (K.pinT pin) = trusted ∧
      (pinTrusted s pin = true → trusted = false → pinFunc t pin = spInput ∧ getB t (K.spOut pin) = false ∧ getB t (K.spIn pin) = false ∧
        getN t (K.spCount pin) = 0 ∧ (pinOf t pin).events = 0)) ∧
  (∀ (s : State) (chan : Fin 32) (trusted : Bool), firmwareRuns s = true →
    ((dmaOf s chan).busy = false → ∃ t, exec (.dmaTWrite chan trusted) s = .next t ∧ getN t (K.worldDmaT chan) = b2n trusted ∧
      (getN s (K.worldDmaT chan) = 1 → trusted = false → dmaOf t chan = {})) ∧
    ((dmaOf s chan).busy = true → ∃ t x, exec (.dmaTWrite chan trusted) s = .next t ∧ t.twResp = some x ∧ x.status = .busy ∧
      t.objs = s.objs ∧ t.world = s.world)) ∧
  (∀ (s : State) (d : Fin 24) (v : Bool), firmwareRuns s = true → pwrMode s = 1 →
    (d.val ≠ 1 → ∃ t, exec (.claimHoldWrite d v) s = .next t ∧ getB t (K.claimHold d) = v ∧ d.val ∉ t.power.cut) ∧
    (d.val = 1 → v = false → ∃ t x, exec (.claimHoldWrite d v) s = .next t ∧ t.twResp = some x ∧ x.status = .range ∧ t.objs = s.objs)) ∧
  (∀ (s : State) (d : Fin 24) (due : Nat), 2 ≤ d.val → pwrMode s = 1 → (d.val, due) ∈ s.power.notice → due ≤ s.now → domSt s d ≠ domCut →
    claimHeld s d = true →
    ∃ t, exec (.cutNoticeExpiry d) s = .next t ∧ domSt t d = domCut ∧ claimState t d = 3) ∧
  (∀ (s : State) (value : BitVec 8), firmwareRuns s = true →
    (value.toNat = s.world.nextKick → ∃ t, exec (.watchdogKick value) s = .next t ∧ t.world.kickAt = s.now ∧
      t.world.nextKick = (if s.world.nextKick = 0x5A then 0xA5 else 0x5A) ∧ Changes [.world] s t) ∧
    ((s.world.starts.filter (fun t => s.now < t + 60000000000)).length < 4 →
      (value.toNat ≠ s.world.nextKick → ∃ t, exec (.watchdogKick value) s = .next t ∧ twSt t = twRestarting ∧
        getN t K.worldRestarts = satInc 32 (getN s K.worldRestarts) ∧ getN t K.worldRestartCause = 1 ∧ t.world.esram = [] ∧ t.world.keys = false) ∧
      (s.world.kickAt + 50000000 ≤ s.now → ∃ t, exec .watchdogExpiry s = .next t ∧ twSt t = twRestarting ∧ getN t K.worldRestartCause = 1) ∧
      (∃ t, exec .lockstepFault s = .next t ∧ twSt t = twRestarting ∧ getN t K.worldRestartCause = 2 ∧ t.world.esram = []) ∧
      (∃ t, exec .twRestartRequest s = .next t ∧ twSt t = twRestarting ∧ getN t K.worldRestartCause = 3 ∧ t.world.esram = [])) ∧
    (4 ≤ (s.world.starts.filter (fun t => s.now < t + 60000000000)).length →
      ∃ t, exec .lockstepFault s = .next t ∧ twSt t = twDown ∧ t.world.esram = [] ∧ t.world.keys = false)) ∧
  (∀ (s : State), twSt s = twRestarting → domSt s 1 = domOn → s.world.cold = false → pwrMode s = 1 → s.world.slots.length = 8 →
    (∃ t, exec (.twRestartDone (.runs false)) s = .next t ∧ twSt t = twRun ∧ t.world.kickAt = s.now ∧ t.world.nextKick = 0x5A ∧
      t.world.slots.getD 7 [] = leBytes 48 (Config.sha384 (s.world.slots.getD 7 [] ++ leBytes 48 (Config.sha384 (Config.component 2)).toNat)).toNat ∧
      (∀ j, j < 7 → t.world.slots.getD j [] = s.world.slots.getD j [])) ∧
    (∃ t, exec (.twRestartDone .selfTestFailed) s = .next t ∧ twSt t = twDown) ∧
    (∃ t, exec (.twRestartDone .imageFailed) s = .next t ∧ twSt t = twDown)) ∧
  (∀ (s : State) (r : DictReq) (i : Nat) (nonce : List Byte), Admitted s r i (blobWrite 0x7081 1 nonce) → managerSession s i →
    nonce.length = 32 →
    ∃ t, exec (.attNonceWrite r nonce) s = .next t ∧ answered t r 0x11 .ok ∧ (sessOf t i).nonce = some nonce ∧ (sessOf t i).signing = true ∧
      (∀ j, j ≠ i → sessOf t j = sessOf s j) ∧ Changes [.sess, .resp] s t) ∧
  (∀ (s : State) (session : BitVec 16) (i : Nat) (nonce : List Byte), slotOfId s session.toNat = some i → (sessOf s i).nonce = some nonce →
    (sessOf s i).signing = true → twSt s = twRun →
    ∃ t, exec (.quoteSigned session) s = .next t ∧ (sessOf t i).quote = quoteBytes s nonce ∧ (sessOf t i).signing = false ∧
      (∀ j, j ≠ i → sessOf t j = sessOf s j) ∧ Changes [.sess] s t)

/-! ## Touch -/

/-- Touch. A panel with lines starts (R362), acquires its baselines as the mean of eight frames (R344), or fails with more than eight
masked lines (R360), and stops (R363); a capture takes the baselines as the reference (R343), a requested test suspends reports until
its result (R361), and both are refused with BUSY under a contact. A frame counts, is kept as raw counts and marks its instant (R338). A
contact that does not move for panel.stuck seconds ends STUCK (R351); an idle panel enters Drift, its first Drift frame gives the groups'
baselines, and a group above the Drift threshold in two frames wakes it (R357, R358). TOUCH_BUF registers a buffer in place of the
function's old one, whose command then completes, or faults (R354, R355). -/
def Obligations.TouchCommands : Prop :=
  (∀ (s : State) (r : DictReq) (i : Nat) (p : Fin 4), AdmittedWrite s r i (K.panelEnable p) 1 → managerSession s i → Quiet s →
    getB s (K.panelEnable p) = false → getBytes s (K.panelLines p) ≠ [] → panSt s p = panOff → K.panelEnable p ∉ s.transit →
    anyStopping s ((panelChips s p).map chipDomain) = false →
    ∃ t, exec (.panelEnable r p) s = .next t ∧ answered t r 0x11 .ok ∧ getB t (K.panelEnable p) = true ∧ panSt t p = panStarting ∧
      getN t (K.panelFrames p) = 0) ∧
  (∀ (s : State) (r : DictReq) (i : Nat) (p : Fin 4), AdmittedWrite s r i (K.panelEnable p) 0 → managerSession s i → Quiet s →
    getB s (K.panelEnable p) = true → panSt s p = panActive → K.panelEnable p ∉ s.transit →
    ∃ t, exec (.panelDisable r p) s = .next t ∧ answered t r 0x11 .ok ∧ getB t (K.panelEnable p) = false ∧ panSt t p = panStopping ∧
      (panelOf t p).bufs = [] ∧ (panelOf t p).contacts = [] ∧ getN t (K.panelContacts p) = 0) ∧
  (∀ (s : State) (p : Fin 4), panSt s p = panStopping → K.panelEnable p ∉ s.transit →
    ∃ t, exec (.panelStopDone p) s = .next t ∧ panSt t p = panOff) ∧
  (∀ (s : State) (p : Fin 4) (x : PanelTest), panSt s p = panStarting → allOn s ((panelChips s p).map chipDomain) = true →
    getN s (K.panelTestMode p) = 3 → badChannels s p x = [] → x.frames.length = 8 →
    x.selfFrames.length = 8 → (∀ f ∈ x.frames, f.length = panTx s p * panRx s p) → (∀ f ∈ x.selfFrames, f.length = panTx s p + panRx s p) →
    (8 < (openLines s p x).length → ∃ t, exec (.panelStartDone p x) s = .next t ∧ panSt t p = panFailed ∧
      getN t (K.panelTestTime p) = s.now) ∧
    (openLines s p x = [] → shortLines s p x = [] → ∃ t, exec (.panelStartDone p x) s = .next t ∧ panSt t p = panActive ∧ getN t (K.panelTestResult p) = 1 ∧ getN t (K.panelTestTime p) = s.now ∧
      (∀ i, i < panTx s p * panRx s p → (panelOf t p).base.getD i 0 =
        ((((List.range 8).map (fun k => ((x.frames.getD k []).getD i 0).toNat)).sum : Nat) : ℚ) / 8))) ∧
  (∀ (s : State) (p : Fin 4) (x : PanelTest), panSt s p = panActive → (panelOf s p).testing = true → getN s (K.panelTestMode p) = 3 →
    badChannels s p x = [] → openLines s p x = [] → shortLines s p x = [] →
    ∃ t, exec (.panelStartDone p x) s = .next t ∧ panSt t p = panActive ∧ getN t (K.panelTestResult p) = 1 ∧
      getN t (K.panelTestTime p) = s.now ∧ panelOf t p = { panelOf s p with testing := false }) ∧
  (∀ (s : State) (r : DictReq) (i : Nat) (p : Fin 4), AdmittedWrite s r i (K.panelRefCapture p) 1 → managerSession s i → panSt s p = panActive →
    ((panelOf s p).contacts = [] → (panelOf s p).large = [] →
      ∃ t, exec (.panelRefCapture r p 1) s = .next t ∧ answered t r 0x11 .ok ∧
        (getBytes t (K.panelRef p)).length = 2 * (panelOf s p).base.length ∧
        ((∀ q ∈ (panelOf s p).base, q.den = 1) →
          getBytes t (K.panelRef p) = (panelOf s p).base.flatMap (fun q => leBytes 2 q.floor.toNat)) ∧
        onlyObjs [K.panelRef p] s t) ∧
    ((panelOf s p).contacts ≠ [] ∨ (panelOf s p).large ≠ [] → ∃ t, exec (.panelRefCapture r p 1) s = .next t ∧
      answered t r 0x11 .busy ∧ Changes [.fresh, .sess, .resp] s t)) ∧
  (∀ (s : State) (r : DictReq) (i : Nat) (p : Fin 4), AdmittedWrite s r i (K.panelTestRun p) 1 → managerSession s i →
    (panSt s p = panActive → (panelOf s p).contacts = [] → (panelOf s p).large = [] →
      ∃ t, exec (.panelTestRun r p 1) s = .next t ∧ answered t r 0x11 .ok ∧ panelOf t p = { panelOf s p with testing := true } ∧
        Changes [.panels, .sess, .resp] s t) ∧
    ((panelOf s p).contacts ≠ [] ∨ (panelOf s p).large ≠ [] → ∃ t, exec (.panelTestRun r p 1) s = .next t ∧
      answered t r 0x11 .busy ∧ Changes [.fresh, .sess, .resp] s t)) ∧
  (∀ (s : State) (p : Fin 4) (f : TouchFrame), panSt s p = panActive → f.nodes.length = panTx s p * panRx s p →
    f.lines.length = panTx s p + panRx s p → (panelOf s p).markAt = 0 ∨ (panelOf s p).markAt + 4166666 ≤ s.now →
    ∃ t, exec (.touchFrameMark p f) s = .next t ∧ getN t (K.panelFrames p) = (getN s (K.panelFrames p) + 1) % 2 ^ 32 ∧
      getN t (K.panelFreq p) = f.freq ∧ (panelOf t p).markAt = s.now ∧
      ((∀ e ∈ f.chanOk, e.1 = true) → panSt t p = panActive) ∧
      (maskedLines s p = [] → (panelOf t p).raw = (f.nodes ++ f.lines).map (·.toNat))) ∧
  (∀ (s : State) (p : Fin 4) (id : Fin 16) (c : Contact), panSt s p = panActive → (panelOf s p).limit ≠ 0 →
    (panelOf s p).contacts.find? (fun c => c.id == id.val) = some c → c.since + (panelOf s p).limit * 1000000000 ≤ s.now →
    ∃ t, exec (.stuckTimeout p id) s = .next t ∧ (panelOf t p).contacts = (panelOf s p).contacts.filter (fun x => x.id != id.val) ∧
      (panelOf t p).stuck = (panelOf s p).stuck ++ [c] ∧ getN t (K.panelStuckCount p) = satInc 32 (getN s (K.panelStuckCount p)) ∧
      bitOf (funcOf t 0).evtPend 4 = true ∧ onlyObjsAndNotes [K.panelSuspect p, K.panelContacts p, K.panelStuckCount p] s t) ∧
  (∀ (s : State) (p : Fin 4), panSt s p = panActive → getN s (K.panelDriftAfter p) ≠ 0 → (panelOf s p).contacts = [] →
    (panelOf s p).large = [] → (panelOf s p).testing = false →
    (panelOf s p).quietSince + getN s (K.panelDriftAfter p) * 1000000000 ≤ s.now →
    ∃ t, exec (.driftEntry p) s = .next t ∧ panSt t p = panDrift ∧ onlyObjs [K.panelState p] s t ∧ Changes [.objs, .panels] s t) ∧
  (∀ (s : State) (p : Fin 4) (gs : List (BitVec 12)) (ok : List (Bool × Bool × Bool)), panSt s p = panDrift →
    gs.length = ceilDiv (panTx s p + panRx s p) 8 → (panelOf s p).driftAt + 50 * msec ≤ s.now → (∀ e ∈ ok, e.1 = true) →
    ((panelOf s p).dbase = [] → ∃ t, exec (.driftFrame p gs ok) s = .next t ∧ panSt t p = panDrift ∧
      (panelOf t p).dbase = gs.map (fun g => ((g.toNat : Nat) : ℚ)) ∧ onlyObjs [] s t ∧ Changes [.panels] s t) ∧
    (∀ j, j < gs.length → (panelOf s p).dbase ≠ [] → 1 ≤ (panelOf s p).dover.getD j 0 →
      ((getN s (K.panelDriftThr p) : Nat) : ℚ) < (((gs.getD j 0).toNat : Nat) : ℚ) - (panelOf s p).dbase.getD j 0 →
      ∃ t, exec (.driftFrame p gs ok) s = .next t ∧ panSt t p = panActive ∧ (panelOf t p).woke = true ∧
        getN t (K.panelDriftWakes p) = satInc 32 (getN s (K.panelDriftWakes p)) ∧ onlyObjs [K.panelState p, K.panelDriftWakes p] s t)) ∧
  (∀ (s : State) (h : CmdHdr) (b : TouchBufPayload), Fetches s h 0x50 false →
    (b.panel.toNat < 4 → 4 ≤ b.slots.toNat → b.address.toNat % 64 = 0 →
      (isPf (getN s (K.ringOwner h.ring)) = true ∨ hasTouchRegion s (getN s (K.ringOwner h.ring)) b.panel.toNat = true) →
      tfind (panelOf s b.panel.toNat).bufs (getN s (K.ringOwner h.ring)) = none →
      ∃ t, exec (.touchBuf h b) s = .next t ∧ (ringOf t h.ring).cqTail = (ringOf s h.ring).cqTail ∧
        tfind (panelOf t b.panel.toNat).bufs (getN s (K.ringOwner h.ring)) =
          some { ticket := ticketOf s h 0x50, addr := b.address.toNat, slots := b.slots.toNat } ∧
        onlyObjs [K.panelState b.panel.toNat] s t) ∧
    (∀ old, b.panel.toNat < 4 → 4 ≤ b.slots.toNat → b.address.toNat % 64 = 0 →
      (isPf (getN s (K.ringOwner h.ring)) = true ∨ hasTouchRegion s (getN s (K.ringOwner h.ring)) b.panel.toNat = true) →
      tfind (panelOf s b.panel.toNat).bufs (getN s (K.ringOwner h.ring)) = some old →
      ∃ t, exec (.touchBuf h b) s = .next t ∧
        tfind (panelOf t b.panel.toNat).bufs (getN s (K.ringOwner h.ring)) =
          some { ticket := ticketOf s h 0x50, addr := b.address.toNat, slots := b.slots.toNat } ∧
        ticketDone (fetched s h 0x50 b.bytes) t old.ticket 0 old.count) ∧
    ((4 ≤ b.panel.toNat ∨ b.slots.toNat < 4 ∨ b.address.toNat % 64 ≠ 0 ∨ (isPf (getN s (K.ringOwner h.ring)) = false ∧
        hasTouchRegion s (getN s (K.ringOwner h.ring)) b.panel.toNat = false)) →
      ∃ t, exec (.touchBuf h b) s = .next t ∧ ringDone s t h 0x50 3 none ∧ t.panels = s.panels ∧ onlyObjsAndNotes [] s t))

/-! ## Haptics and sound -/

/-- Haptics. An effect takes a free channel at once, preempts one of a lower class, or waits in the queue (R376); it passes through
attack, sustain and braking and ends DONE (R373, R375), an OVERLAY head of the queue starting with the braking; any other head starts when
it fits, after 4 ms of braking, or ends at its deadline (R377, R382). An effect held by the rail's limit counts if it missed its target
(R519). A channel whose accelerometer gave no valid sample for 2 ms senses itself (R373, R508). A trip stops the channel and is probed 100 ms later (R380); the fall-back limits cut an effect (R381); a
lasting driver fault takes driver 16 (R383); the ZH-17 starts, stops and obeys its interlock loop (R384, R385, R507). A HAPTIC_PLAY gives
every channel it names its copy, or faults (R371, R372). -/
def Obligations.HapticCommands : Prop :=
  (∀ (s : State) (n : Fin 16) (e : Effect), (chanOf s n).waits = [e] → e.due ≤ s.now → channelOpen s n = true →
    ((chanOf s n).run = none → effFits s n e = true →
      ∃ t, exec (.effectDue n) s = .next t ∧ (chanOf t n).run = some e ∧ (chanOf t n).started = s.now ∧ (chanOf t n).waits = [] ∧
        chSt t n = chAttack ∧ getN t (K.chSenseUsed n) = getN s (K.chSense n) ∧
        onlyObjs [K.chState n, K.chSenseUsed n, K.chCapMeas n, K.chSat n] s t ∧ Changes [.fresh, .objs, .hap] s t) ∧
    (∀ x, (chanOf s n).run = some x → x.cls < e.cls → effFits s n e = true →
      ∃ t, exec (.effectDue n) s = .next t ∧ (chanOf t n).run = some e ∧ chSt t n = chAttack ∧
        getN t (K.chDropped n) = satInc 32 (getN s (K.chDropped n))) ∧
    (∀ x, (chanOf s n).run = some x → e.cls ≤ x.cls → (chanOf s n).queue = [] → chSt s n ≠ chBraking →
      ∃ t, exec (.effectDue n) s = .next t ∧ (chanOf t n).run = some x ∧ (chanOf t n).queue = [e] ∧ (chanOf t n).headAt = s.now ∧
        (chanOf t n).waits = [] ∧ Changes [.hap] s t)) ∧
  (∀ (s : State) (n : Fin 16) (e : Effect), (chanOf s n).run = some e →
    (chSt s n = chAttack → (chanOf s n).started + shaleAttack e.effect * msec ≤ s.now →
      ∃ t, exec (.attackEnd n) s = .next t ∧ chSt t n = chSustain ∧ onlyObjs [K.chState n] s t ∧ Changes [.objs] s t) ∧
    (chSt s n = chSustain → (chanOf s n).started + (shaleAttack e.effect + shaleSustain e.effect) * msec ≤ s.now →
      (∀ x, (chanOf s n).queue.head? = some x → x.overlay = false) →
      ∀ peak, ∃ t, exec (.brakingStart n peak) s = .next t ∧ chSt t n = chBraking ∧ (chanOf t n).braked = s.now ∧
        (chanOf t n).run = some e ∧
        getN t (K.chSat n) = (if (chanOf s n).limited && !(chanOf s n).counted &&
            decide (peak * 10000 < shalePeak e.effect * e.scale * (100 - peakTolerance s n))
          then satInc 32 (getN s (K.chSat n)) else getN s (K.chSat n)) ∧
        onlyObjs [K.chState n, K.chSat n] s t ∧ Changes [.objs, .hap] s t) ∧
    (∀ x q peak, chSt s n = chSustain →
      (chanOf s n).started + (shaleAttack e.effect + shaleSustain e.effect) * msec ≤ s.now →
      (chanOf s n).queue = x :: q → x.overlay = true → effFits s n x = true →
      ∃ t, exec (.brakingStart n peak) s = .next t ∧ (chanOf t n).run = some x ∧ (chanOf t n).queue = q ∧ chSt t n = chAttack ∧
        getN t (K.chDone n) = satInc 32 (getN s (K.chDone n))) ∧
    (∀ mg, chSt s n = chBraking → getN s K.hapState = hapReady → (chanOf s n).spareDue = none → (chanOf s n).queue = [] →
      (chanOf s n).braked + shaleBrake e.effect * msec ≤ s.now →
      mg * 20 ≤ shalePeak e.effect ∨ (chanOf s n).braked + shaleBrake e.effect * msec + 4 * msec ≤ s.now →
      ∃ t, exec (.brakingEnd n mg) s = .next t ∧ chSt t n = chIdle ∧ (chanOf t n).run = none ∧
        getN t (K.chDone n) = satInc 32 (getN s (K.chDone n)) ∧ getN t (K.chDropped n) = getN s (K.chDropped n)) ∧
    (∀ x q, chSt s n = chBraking → (chanOf s n).queue = x :: q → effFits s n x = true →
      max (chanOf s n).headAt (chanOf s n).braked + 4 * msec ≤ s.now →
      ∃ t, exec (.queueHeadTimeout n) s = .next t ∧ (chanOf t n).run = some x ∧ (chanOf t n).queue = q ∧ chSt t n = chAttack ∧
        getN t (K.chDone n) = satInc 32 (getN s (K.chDone n))) ∧
    (getN s K.hapState = hapReady → (chanOf s n).spareDue = none → (chanOf s n).queue = [] →
      (200 * msec + (chanOf s n).started ≤ s.now →
        ∃ t, exec (.onTimeCut n) s = .next t ∧ chSt t n = chIdle ∧ (chanOf t n).run = none ∧
          getN t K.hapLimit = satInc 32 (getN s K.hapLimit) ∧ getN t (K.chDropped n) = satInc 32 (getN s (K.chDropped n))) ∧
      (200 * msec ≤ chDutyNs s n →
        ∃ t, exec (.dutyCut n) s = .next t ∧ chSt t n = chIdle ∧ (chanOf t n).run = none ∧
          getN t K.hapLimit = satInc 32 (getN s K.hapLimit) ∧ getN t (K.chDropped n) = satInc 32 (getN s (K.chDropped n)))) ∧
    (getN s (K.chSenseUsed n) = 1 → (chanOf s n).started + 2 * msec ≤ s.now →
      ∀ reads : List (BitVec 32),
        (reads.filter accValid = [] →
          ∃ t, exec (.accelTimeout n reads) s = .next t ∧ getN t (K.chSenseUsed n) = 0 ∧
            getN t (K.chSenseFail n) = satInc 32 (getN s (K.chSenseFail n)) ∧ onlyObjs [K.chSenseUsed n, K.chSenseFail n] s t ∧
            Changes [.objs] s t) ∧
        (∀ w, (reads.filter accValid).getLast? = some w →
          ∃ t, exec (.accelTimeout n reads) s = .next t ∧
            (chanOf t n).accel = (w.extractLsb' 16 16).toInt * (getN s K.accLsb : Nat) ∧ Changes [.hap] s t))) ∧
  (∀ (s : State) (n : Fin 16) (e : Effect) (d : Nat), (chanOf s n).queue = [e] → e.deadline = some d → d ≤ s.now →
    ∃ t, exec (.effectDeadline n) s = .next t ∧ (chanOf t n).queue = [] ∧ getN t (K.chDropped n) = satInc 32 (getN s (K.chDropped n)) ∧
      chSt t n = chSt s n ∧ (chanOf t n).run = (chanOf s n).run) ∧
  (∀ (s : State) (n : Fin 16) (e : Effect) (q : List Effect), chSt s n = chIdle → channelOpen s n = true → (chanOf s n).run = none →
    (chanOf s n).queue = e :: q → effFits s n e = true →
    ∃ t, exec (.effectFits n) s = .next t ∧ (chanOf t n).run = some e ∧ (chanOf t n).queue = q ∧ chSt t n = chAttack) ∧
  (∀ (s : State) (n : Fin 16) (cause : Fin 3) (cap : BitVec 32), tripHolds s n cause cap.toNat = true → getN s K.hapState = hapReady →
    ∃ t, exec (.hapTrip n cause cap) s = .next t ∧ chSt t n = chTripped ∧ getN t (K.chTrip n) = cause + 1 ∧
      getN t (K.chTripCount n) = satInc 32 (getN s (K.chTripCount n)) ∧ (chanOf t n).run = none ∧ (chanOf t n).queue = [] ∧
      (chanOf t n).probeAt = some (s.now + 100 * msec)) ∧
  (∀ (s : State) (n : Fin 16) (cap : BitVec 32), chSt s n = chTripped →
    (∀ a, (chanOf s n).probeAt = some a → a ≤ s.now →
      (getN s (K.chCap n) ≤ 2 * cap.toNat → cap.toNat ≤ 2 * getN s (K.chCap n) → getN s K.hapState = hapReady →
        (chanOf s n).spareDue = none → (chanOf s n).queue = [] →
        ∃ t, exec (.tripProbe n cap) s = .next t ∧ chSt t n = chIdle ∧ (chanOf t n).probeAt = none) ∧
      (2 * cap.toNat < getN s (K.chCap n) ∨ 2 * getN s (K.chCap n) < cap.toNat →
        ∃ t, exec (.tripProbe n cap) s = .next t ∧ chSt t n = chTripped ∧ (chanOf t n).probeAt = none ∧ onlyObjsAndNotes [] s t)) ∧
    (∀ (r : DictReq) (i : Nat), AdmittedWrite s r i (K.chReset n) 1 → managerSession s i →
      (getN s (K.chCap n) ≤ 2 * cap.toNat → cap.toNat ≤ 2 * getN s (K.chCap n) → getN s K.hapState = hapReady →
        (chanOf s n).spareDue = none → (chanOf s n).queue = [] →
        ∃ t, exec (.chReset r n 1 cap) s = .next t ∧ answered t r 0x11 .ok ∧ chSt t n = chIdle) ∧
      (2 * cap.toNat < getN s (K.chCap n) ∨ 2 * getN s (K.chCap n) < cap.toNat →
        ∃ t, exec (.chReset r n 1 cap) s = .next t ∧ answered t r 0x11 .ok ∧ chSt t n = chTripped ∧ onlyObjsAndNotes [] s t))) ∧
  (∀ (s : State) (n : Fin 16) (ok : Bool), exec (.driverFault n true ok) s = .next s ∧
    (getN s K.hapState = hapReady → chSt s n = chIdle → unitState s clsDriver 16 = unitSpare →
      ∃ t, exec (.driverFault n false true) s = .next t ∧ getN t (K.chDriver n) = 16 ∧ getN t K.hapSpare = n ∧
        getN t (K.chGen n) = (getN s (K.chGen n) + 1) % 65536 ∧ unitState t clsDriver 16 = unitInService ∧ chSt t n = chIdle) ∧
    (getN s K.hapState = hapReady → chSt s n = chIdle → unitState s clsDriver 16 ≠ unitSpare →
      ∃ t, exec (.driverFault n false ok) s = .next t ∧ chSt t n = chFailed ∧ (chanOf t n).run = none ∧ (chanOf t n).queue = [])) ∧
  (∀ (s : State) (r : DictReq) (i : Nat), Quiet s → managerSession s i → K.hapEnable ∉ s.transit →
    (AdmittedWrite s r i K.hapEnable 1 → getB s K.hapEnable = false → getN s K.hapState = hapOff → domSt s 21 ≠ domStopping →
      ∃ t, exec (.hapEnable r) s = .next t ∧ answered t r 0x11 .ok ∧ getB t K.hapEnable = true ∧ getN t K.hapState = hapStarting) ∧
    (AdmittedWrite s r i K.hapEnable 0 → getB s K.hapEnable = true → getN s K.hapState = hapReady →
      ∃ t, exec (.hapDisable r) s = .next t ∧ answered t r 0x11 .ok ∧ getB t K.hapEnable = false ∧
        (∀ n, n < 16 → (chanOf t n).queue = []) ∧
        ((∀ n, n < 16 → (chanOf s n).run = none) → getN t K.hapState = hapOff ∧ ∀ n, n < 16 → chSt t n = chOff) ∧
        (∀ n, n < 16 → (chanOf s n).run ≠ none → getN t K.hapState = hapStopping ∧ chSt t n = chBraking))) ∧
  (∀ (s : State), getN s K.hapState = hapStarting → domSt s 21 = domOn → getB s K.hapIlk = true →
    (∀ n, n < 16 → unitState s clsDriver (getN s (K.chDriver n)) = unitInService) →
    ∃ t, exec (.hapReady []) s = .next t ∧ getN t K.hapState = hapReady ∧ getN t K.hapGen = (getN s K.hapGen + 1) % 65536 ∧
      (∀ n, n < 16 → chSt t n = (if getB s (K.chEnable n) then chIdle else chOff) ∧
        getN t (K.chGen n) = (getN s (K.chGen n) + 1) % 65536)) ∧
  (∀ (s : State), getB s K.hapIlk = true → getN s K.hapState = hapReady →
    ∃ t, exec .interlockOpen s = .next t ∧ getB t K.hapIlk = false ∧ getN t K.hapState = hapStarting ∧
      (∀ n, n < 16 → chSt t n = chOff ∧ (chanOf t n).run = none ∧ (chanOf t n).queue = [])) ∧
  (∀ (s : State), ∃ t, exec .interlockClosed s = .next t ∧ getB t K.hapIlk = true ∧ t.hap = s.hap ∧
    onlyObjsAndNotes (K.hapIlk :: healthKeys) s t) ∧
  (∀ (s : State) (h : CmdHdr) (p : HapticPayload), Fetches s h 0x40 false →
    (playOk s (getN s (K.ringOwner h.ring)) p = false →
      ∃ t, exec (.hapticPlay h p) s = .next t ∧ ringDone s t h 0x40 3 none ∧ t.hap = s.hap ∧ onlyObjsAndNotes [] s t) ∧
    (playOk s (getN s (K.ringOwner h.ring)) p = true →
      (p.start.toNat ≤ s.now →
        (∀ n, n < 16 → bitOf p.chans.toNat n = true → channelOpen s n = true ∧ (chanOf s n).run = none ∧ (chanOf s n).ons = []) →
        effTotal { id := 0, func := 0, effect := p.effect.toNat, cls := 0, due := 0 } + 4 * msec ≤ 200 * msec →
        ∃ t, exec (.hapticPlay h p) s = .next t ∧ (ringOf t h.ring).cqTail = (ringOf s h.ring).cqTail ∧
          (∀ n, n < 16 → bitOf p.chans.toNat n = true → chSt t n = chAttack ∧ ∃ e, (chanOf t n).run = some e ∧
            e.effect = p.effect.toNat ∧ e.cls = p.cls.toNat ∧ e.scale = p.scale.toNat ∧ e.due = s.now) ∧
          (∀ n, n < 16 → bitOf p.chans.toNat n = false → chanOf t n = chanOf s n) ∧
          onlyObjs ((numbers 16 (fun n => bitOf p.chans.toNat n)).flatMap (fun n => [K.chState n, K.chSenseUsed n, K.chCapMeas n, K.chSat n]))
            s t) ∧
      (s.now < p.start.toNat →
        ∃ t, exec (.hapticPlay h p) s = .next t ∧ (ringOf t h.ring).cqTail = (ringOf s h.ring).cqTail ∧
          (∀ n, n < 16 → bitOf p.chans.toNat n = true → ∃ e, (chanOf t n).waits = (chanOf s n).waits ++ [e] ∧
            e.effect = p.effect.toNat ∧ e.due = p.start.toNat) ∧
          (∀ n, n < 16 → bitOf p.chans.toNat n = false → chanOf t n = chanOf s n) ∧ Changes [.fresh, .rings, .hap, .host] s t)))

/-- Sound. The engine starts with PD22 and falls silent when it is disabled (R390); a stream enters and leaves RUN with its enable, and an
input group that clashes is refused with RANGE (R391). Each period forms every output's samples, the mix with the chime over it, and counts
what it saturated (R389, R399); a running host input takes what its ring holds, up to a period, and a shortfall counts as starved (R393), and
a running capture writes a period or, without space, counts (R394). A packet is held for its presentation time or dropped late, and
one is sent every 125 µs, with the frames last formed (R397). The trusted world starts and stops a chime while it runs and PD22 is on, which
ends after its repeats (R398, R400); the audio clock follows the lock (R388). That the frames of a period are formed at its end is the
model's choice (log 282). -/
def Obligations.SoundCommands : Prop :=
  (∀ (s : State) (r : DictReq) (i : Nat), Quiet s → managerSession s i → K.sndEnable ∉ s.transit →
    (AdmittedWrite s r i K.sndEnable 1 → getB s K.sndEnable = false → sndSt s = sndOff → domSt s 22 ≠ domStopping →
      ∃ t, exec (.sndEnable r) s = .next t ∧ answered t r 0x11 .ok ∧ getB t K.sndEnable = true ∧
        (domSt s 22 = domOn → sndSt t = sndRun ∧ getB t K.sndLocked = getB s K.timeLocked) ∧
        (domSt s 22 ≠ domOn → sndSt t = sndStarting)) ∧
    (AdmittedWrite s r i K.sndEnable 0 → getB s K.sndEnable = true → sndSt s = sndRun →
      ∃ t, exec (.sndDisable r) s = .next t ∧ answered t r 0x11 .ok ∧ getB t K.sndEnable = false ∧
        (sndSt t = sndStopping ∨ sndSt t = sndOff) ∧ getB t K.sndLocked = false ∧ t.snd.held = [] ∧
        (∀ n, n < 64 → getN t (K.inState n) = 0) ∧ (∀ n, n < 16 → getN t (K.capState n) = 0))) ∧
  (∀ (s : State) (r : DictReq) (i : Nat) (capture : Bool) (n : Fin 64), (capture = true → n.val < 16) →
    ((sessOf s i).role = .vf ∨ (sessOf s i).role = .mgr) → (sessOf s i).func = streamN s capture n 1 →
    (AdmittedWrite s r i (if capture then K.capEn n else K.inEn n) 1 → streamN s capture n 9 = 0 →
      (capture = false → groupClash s n (streamN s false n 1) (groupSpan s n) = false) →
      ∃ t, exec (.streamEnable r capture n true) s = .next t ∧ answered t r 0x11 .ok ∧ streamN t capture n 9 = 1 ∧
        (sndSt s = sndRun → streamN t capture n 11 = 1) ∧ (sndSt s ≠ sndRun → streamN t capture n 11 = streamN s capture n 11) ∧
        onlyObjsAndNotes [objKey (streamIdx capture n) 9, objKey (streamIdx capture n) 11] s t) ∧
    (AdmittedWrite s r i (K.inEn n) 1 → capture = false → streamN s false n 1 ≠ 0xFF →
      groupClash s n (streamN s false n 1) (groupSpan s n) = true →
      ∃ t, exec (.streamEnable r capture n true) s = .next t ∧ answered t r 0x11 .range ∧ Changes [.fresh, .sess, .resp] s t) ∧
    (AdmittedWrite s r i (if capture then K.capEn n else K.inEn n) 0 → streamN s capture n 9 = 1 →
      ∃ t, exec (.streamEnable r capture n false) s = .next t ∧ answered t r 0x11 .ok ∧ streamN t capture n 9 = 0 ∧
        streamN t capture n 11 = 0 ∧ onlyObjsAndNotes [objKey (streamIdx capture n) 9, objKey (streamIdx capture n) 11] s t)) ∧
  (∀ (s : State) (a : AudioIn), sndSt s = sndRun ∨ domSt s 22 = domOn → s.snd.periodAt + 1000000 ≤ s.now →
    ∃ t, exec (.audioPeriod a) s = .next t ∧ t.snd.periodAt = s.now ∧
      (∀ o, o < 32 → tget t.snd.out o [] = (outFrames s a.tdm (s.now - 1000000) o).1 ∧
        getN t (K.soClip o) = (if (outFrames s a.tdm (s.now - 1000000) o).2 = 0 then getN s (K.soClip o)
          else satAdd 32 (getN s (K.soClip o)) (outFrames s a.tdm (s.now - 1000000) o).2))) ∧
  (∀ (s : State) (n : Fin 64) (wr : BitVec 32) (tdm : List (Nat × List (BitVec 24))), sndSt s = sndRun → s.snd.periodAt + 1000000 ≤ s.now →
    (∀ j, j < 64 → j ≠ n.val → streamN s false j 11 = 0) → (∀ j, j < 16 → streamN s true j 11 = 0) →
    streamN s false n 11 ≠ 0 → streamN s false n 2 = 0 →
    ∃ t rd, exec (.audioPeriod { inputWr := [(n, wr)], captureRd := [], tdm := tdm }) s = .next t ∧ t.snd.periodAt = s.now ∧
      rd = (tget s.snd.rd n 0 + min ((wr.toNat + 2 ^ 32 - tget s.snd.rd n 0) % 2 ^ 32) (periodFrames s)) % 2 ^ 32 ∧
      tget t.snd.rd n 0 = rd ∧
      (∀ c, c < streamN s false n 3 → tget t.snd.taken (n + c) [] =
        (takenSamples { s with host := memSetAll s.host (hostKey (streamN s false n 1) (streamN s false n 6)) (leBytes 4 wr.toNat) } n
          (tget s.snd.rd n 0) (min ((wr.toNat + 2 ^ 32 - tget s.snd.rd n 0) % 2 ^ 32) (periodFrames s))).getD c []) ∧
      hostRead t (streamN s false n 1) (streamN s false n 6 + 4) 4 = leBytes 4 rd ∧
      (periodFrames s ≤ (wr.toNat + 2 ^ 32 - tget s.snd.rd n 0) % 2 ^ 32 →
        getN t (K.inState n) = 1 ∧ getN t (K.inXrun n) = getN s (K.inXrun n)) ∧
      ((wr.toNat + 2 ^ 32 - tget s.snd.rd n 0) % 2 ^ 32 < periodFrames s →
        getN t (K.inState n) = 2 ∧ getN t (K.inXrun n) = satInc 32 (getN s (K.inXrun n))) ∧
      onlyObjsAndNotes (K.inState n :: K.inXrun n :: (List.range 32).map K.soClip) s t) ∧
  (∀ (s : State) (n : Fin 16) (rd : BitVec 32) (tdm : List (Nat × List (BitVec 24))), sndSt s = sndRun → s.snd.periodAt + 1000000 ≤ s.now →
    (∀ j, j < 64 → streamN s false j 11 = 0) → (∀ j, j < 16 → j ≠ n.val → streamN s true j 11 = 0) → streamN s true n 11 ≠ 0 →
    ∃ t, exec (.audioPeriod { inputWr := [], captureRd := [(n, rd)], tdm := tdm }) s = .next t ∧
      (streamN s true n 5 < (tget s.snd.wr n 0 + 2 ^ 32 - rd.toNat) % 2 ^ 32 + periodFrames s →
        getN t (K.capXrun n) = satInc 32 (getN s (K.capXrun n)) ∧ tget t.snd.wr n 0 = tget s.snd.wr n 0) ∧
      ((tget s.snd.wr n 0 + 2 ^ 32 - rd.toNat) % 2 ^ 32 + periodFrames s ≤ streamN s true n 5 →
        getN t (K.capXrun n) = getN s (K.capXrun n) ∧ tget t.snd.wr n 0 = (tget s.snd.wr n 0 + periodFrames s) % 2 ^ 32 ∧
        hostRead t (streamN s true n 1) (streamN s true n 6) 4 = leBytes 4 (tget t.snd.wr n 0)) ∧
      onlyObjsAndNotes (K.capXrun n :: (List.range 32).map K.soClip) s t) ∧
  (∀ (s : State) (l : Fin 8) (at_ : BitVec 64) (x : List (BitVec 24)), sndSt s = sndRun →
    (s.now ≤ at_.toNat → ∃ t, exec (.avtpPacketRx l at_ x) s = .next t ∧
      tget t.snd.held l [] = tget s.snd.held l [] ++ [(at_.toNat, x)] ∧ tget t.snd.late l 0 = tget s.snd.late l 0 ∧ Changes [.snd] s t) ∧
    (at_.toNat < s.now → ∃ t, exec (.avtpPacketRx l at_ x) s = .next t ∧ tget t.snd.late l 0 = satInc 32 (tget s.snd.late l 0) ∧
      t.snd.held = s.snd.held ∧ onlyObjsAndNotes [] s t) ∧
    ((tget s.snd.sent l (0, 0, 0)).1 = 0 ∨ (tget s.snd.sent l (0, 0, 0)).2.2 + 125000 ≤ s.now →
      ∃ t, exec (.avtpPacketTx l) s = .next t ∧ tget t.snd.sent l (0, 0, 0) = ((tget s.snd.sent l (0, 0, 0)).1 + 1,
        (s.now + getN s K.sndPto * 1000) % 2 ^ 64, s.now) ∧ tget t.snd.packets l [] = talkerPacket s l ∧ Changes [.snd] s t)) ∧
  (∀ (s : State) (b : Bool), ∃ t, exec (.clockLockChange b) s = .next t ∧ getB t K.timeLocked = b ∧
    getB t K.sndLocked = (if sndSt s = sndRun then b else getB s K.sndLocked) ∧ onlyObjs [K.timeLocked, K.sndLocked] s t) ∧
  (∀ (s : State) (clip : Fin 16) (n : BitVec 8), getN s K.kaolinTw = twRun → domSt s 22 = domOn →
    ∃ t, exec (.chimeStart clip n) s = .next t ∧ t.snd.chime = some (clip.val, n.toNat, s.now) ∧ getN t K.chimeState = clip + 1 ∧
      onlyObjs [K.chimeState] s t ∧ Changes [.objs, .snd] s t) ∧
  (∀ (s : State) (clip : Fin 16) (n : BitVec 8), getN s K.kaolinTw ≠ twRun ∨ domSt s 22 ≠ domOn →
    exec (.chimeStart clip n) s = .next s) ∧
  (∀ (s : State), getN s K.kaolinTw ≠ twRun → exec .chimeStop s = .next s) ∧
  (∀ (s : State), getN s K.kaolinTw = twRun →
    ∃ t, exec .chimeStop s = .next t ∧ t.snd.chime = none ∧ getN t K.chimeState = 0 ∧ onlyObjs [K.chimeState] s t) ∧
  (∀ (s : State) (clip n start : Nat), s.snd.chime = some (clip, n, start) →
    (n = 0 → exec .chimeEnd s = .next s) ∧
    (n ≠ 0 → start + n * ((getBytes s (K.chimeClip clip)).length / 4 * 1000000000 / 48000) ≤ s.now →
      ∃ t, exec .chimeEnd s = .next t ∧ t.snd.chime = none ∧ getN t K.chimeState = 0 ∧ onlyObjs [K.chimeState] s t))

/-! ## The fabric -/

/-- Links. A link whose partner answers trains; its good lanes decide its state, and lane 4 replaces a lasting lane fault (R403); a
reversed lane order and inverted pairs are found then (R497). A FAILED link is tried again after 1 s, and a HELD one may be brought up after its hold (R403, R405). A good packet is acknowledged
and ends here or is forwarded with its hop limit decremented, on a free link that has credits and room at once, else after those that
wait (R407); at its last hop, without a route, or while the module is EXCLUDED, it is dropped and counted (R411, R413, R414); one whose
replayed copy is bad too retrains the link (R404). With a packet come the partner's acknowledgement, which empties the replay buffer up to
it, and the credits that it returns (R404, R407). A read of a surface that a spread here names for the asking module is answered (R424;
how it is spelled is the model's choice, log 281). A link without a flit for 100 µs falls with what waits on it, and the third fall within
10 s holds it (R405).
Discovery. HELLO names the partner, and a newer record replaces the one stored, each as a change of the topology; an older record
changes nothing (R408). When the topology is stable the module with the lowest serial is the root, a module keeps an address that no
other holds, and its routes are of the newest topology (R409, R411, R413). The offset to the partner on the route to the root gives
fabric time (R415). -/
def Obligations.FabricCommands : Prop :=
  ((∀ (s : State) (l : Fin 4),
      (domSt s 5 = domOn → getB s (K.linkEnable l) = true → lnkSt s l = lnkDown →
        ∃ t, exec (.linkBringUp l) s = .next t ∧ lnkSt t l = lnkTraining ∧ getN t (K.linkLanes l) = 0 ∧ bitOf (funcOf t 0).evtPend 11 = true ∧
          onlyObjsAndNotes ([K.linkState l, K.linkLanes l] ++ healthKeys) s t) ∧
      (lnkSt s l = lnkFailed → (linkOf s l).retryAt ≤ s.now → domSt s 5 = domOn →
        ∃ t, exec (.linkFailedRetry l) s = .next t ∧ lnkSt t l = lnkTraining ∧
          onlyObjsAndNotes ([K.linkState l, K.linkLanes l] ++ healthKeys) s t) ∧
      (lnkSt s l = lnkHeld → (linkOf s l).heldUntil ≤ s.now →
        ∃ t, exec (.linkHoldExpiry l) s = .next t ∧ lnkSt t l = lnkDown ∧
          onlyObjsAndNotes ([K.linkState l, K.linkLanes l] ++ healthKeys) s t)) ∧
    (∀ (s : State) (l : Fin 4) (good : List (Fin 5)) (reversed : Bool) (inverted : List (Fin 5)), lnkSt s l = lnkTraining →
      ((∀ i ∈ linkLanesOf s l, i ∈ good.map (·.val)) → (linkOf s l).retrain = false →
        ∃ t, exec (.laneTrainingDone l good reversed inverted) s = .next t ∧ (linkOf t l).reversed = reversed ∧
          (linkOf t l).inverted = inverted.map (·.val) ∧ (linkOf t l).retryAt = s.now + 1000000000 ∧
          (4 ≤ (linkLanesOf s l).length → lnkSt t l = lnkUp ∧ getN t (K.linkLanes l) = 4) ∧
          (2 ≤ (linkLanesOf s l).length → (linkLanesOf s l).length < 4 → lnkSt t l = lnkDegraded ∧ getN t (K.linkLanes l) = 2) ∧
          ((linkLanesOf s l).length < 2 → lnkSt t l = lnkFailed ∧ getN t (K.linkLanes l) = 0) ∧
          onlyObjsAndNotes ([K.linkState l, K.linkLanes l] ++ healthKeys) s t) ∧
      (∀ i, i < 4 → linkLanesOf s l = [0, 1, 2, 3] → unitState s clsLane (4 + 256 * l) = unitSpare →
        (∀ j, j < 5 → (j ∈ good.map (·.val) ↔ j ≠ i)) →
        ∃ t, exec (.laneTrainingDone l good reversed inverted) s = .next t ∧ lnkSt t l = lnkUp ∧ getN t (K.linkLanes l) = 4 ∧ getN t (K.linkSpare l) = i ∧
          unitState t clsLane (i + 256 * l) = unitRetired ∧ unitState t clsLane (4 + 256 * l) = unitInService ∧
          getN t (K.linkGen l) = (getN s (K.linkGen l) + 1) % 65536)) ∧
    (∀ (s : State) (l : Fin 4) (p : Packet) (acked : Option (BitVec 16)) (credits : List Nat) (crc replay : Bool),
      lnkSt s l ≠ lnkUp → lnkSt s l ≠ lnkDegraded → exec (.packetRx l p acked credits crc replay) s = .next s) ∧
    (∀ (s u : State) (l : Fin 4) (p : Packet) (acked : Option (BitVec 16)) (credits : List Nat) (replay : Bool),
      lnkSt s l = lnkUp ∨ lnkSt s l = lnkDegraded →
      u = serveLink (linkReturns (modLink s l (fun x => { x with rxAt := s.now })) l acked credits) l →
      ((linkOf s l).wait = [] → (linkOf u l).wait = [] ∧ (linkOf u l).rxAt = s.now ∧
        (∀ c, c < 4 → (linkOf u l).spent.getD c 0 = (linkOf s l).spent.getD c 0 - credits.getD c 0) ∧
        (acked = none → (linkOf u l).out = (linkOf s l).out) ∧
        (∀ a n, acked = some a → (linkOf s l).out.findIdx? (fun q => q.lseq == a) = some n → (linkOf u l).out = (linkOf s l).out.drop (n + 1))) ∧
      (128 ≤ p.dest.toNat ∨ (p.dest.toNat < 64 ∧ p.dest.toNat = getN s K.fabAddr ∧ getN s K.fabState ≠ fabExcluded ∧
          (packetClass p = 3 → ∀ h off n, Config.surfRequest p.type p.payload = some (h, off, n) →
            servesSurface s h (getN s (K.fabNodeSerial (p.src.toNat % 64))) = false)) →
        (∃ t, exec (.packetRx l p acked credits true replay) s = .next t ∧ linkOf t l = { linkOf u l with ack := p.lseq.toNat } ∧
          Changes [.fab] s t) ∧
        (∃ t, exec (.packetRx l p acked credits false true) s = .next t ∧ linkOf t l = { linkOf u l with ack := p.lseq.toNat } ∧
          getN t (K.linkReplay l) = satInc 32 (getN s (K.linkReplay l)) ∧ onlyObjs [K.linkReplay l] s t)) ∧
      (∀ h off n k, p.dest.toNat < 64 → p.dest.toNat = getN s K.fabAddr → getN s K.fabState ≠ fabExcluded → packetClass p = 3 →
        Config.surfRequest p.type p.payload = some (h, off, n) → servesSurface s h (getN s (K.fabNodeSerial (p.src.toNat % 64))) = true →
        CalmMemory s → k = getN s (K.fabRoute (p.src.toNat % 64)) % 8 → getN s (K.fabRoute (p.src.toNat % 64)) ≠ 0xFF → k < 7 →
        s.now < (linkOf u k).freeAt →
        ∃ t bs, exec (.packetRx l p acked credits true replay) s = .next t ∧
          bs = (readCells s (slotOf h) ((List.range (min n (slotSize s (slotOf h) - off))).map (off + ·))).2.1 ∧
          (linkOf t k).wait = (linkOf u k).wait ++
            answerPackets p (Config.surfAnswer bs).1 (getN s K.fabAddr) (Config.surfAnswer bs).2) ∧
      (∀ k, p.dest.toNat < 64 → p.dest.toNat ≠ getN s K.fabAddr → getN s K.fabState ≠ fabExcluded →
        getN s (K.fabRoute p.dest.toNat) ≠ 0xFF → k = getN s (K.fabRoute p.dest.toNat) % 8 → 8 ≤ p.cls.toNat →
        (s.now < (linkOf u k).freeAt →
          ∃ t, exec (.packetRx l p acked credits true replay) s = .next t ∧
            (linkOf t k).wait = (linkOf u k).wait ++ [{ p with cls := p.cls - 4 }] ∧ (linkOf t k).out = (linkOf u k).out ∧
            Changes [.fab] s t) ∧
        (lnkSt s k = lnkUp ∨ lnkSt s k = lnkDegraded → (linkOf u k).freeAt ≤ s.now → (linkOf u k).wait = [] → 1 ≤ packetClass p →
          (linkOf u k).spent.getD (packetClass p) 0 < Config.linkCredit (packetClass p) →
          ((linkOf u k).out.map packetSize).sum + packetSize p ≤ 65536 →
          ∃ t, exec (.packetRx l p acked credits true replay) s = .next t ∧ (linkOf t k).wait = [] ∧
            (linkOf t k).out = (linkOf u k).out ++ [{ p with cls := p.cls - 4, lseq := BitVec.ofNat 16 (linkOf u k).txSeq }] ∧
            Changes [.fab] s t)) ∧
      ((p.dest.toNat < 64 ∧ p.dest.toNat ≠ getN s K.fabAddr ∧ (p.cls.toNat < 8 ∨ getN s (K.fabRoute p.dest.toNat) = 0xFF)) ∨
          (p.dest.toNat < 128 ∧ getN s K.fabState = fabExcluded) →
        ∃ t, exec (.packetRx l p acked credits true replay) s = .next t ∧ getN t K.fabDrop = satInc 32 (getN s K.fabDrop) ∧
          onlyObjs [K.fabDrop] s t ∧ Changes [.objs, .fab] s t) ∧
      (∃ t, exec (.packetRx l p acked credits false false) s = .next t ∧ lnkSt t l = lnkTraining ∧ (linkOf t l).retrain = true ∧
        getN t (K.linkReplay l) = satInc 32 (getN s (K.linkReplay l)) ∧ getN t (K.linkRetrain l) = satInc 32 (getN s (K.linkRetrain l)) ∧
        onlyObjsAndNotes ([K.linkState l, K.linkLanes l, K.linkReplay l, K.linkRetrain l] ++ healthKeys) s t)) ∧
    (∀ (s : State) (l : Fin 4), linkCarries s l = true → (linkOf s l).rxAt + 100000 ≤ s.now →
      ∃ t, exec (.linkTimeout l) s = .next t ∧ (linkOf t l).out = [] ∧ (linkOf t l).wait = [] ∧
        getN t K.fabDrop = satAdd 32 (getN s K.fabDrop) ((linkOf s l).out.length + (linkOf s l).wait.length) ∧ getN t (K.linkDowns l) = satInc 32 (getN s (K.linkDowns l)) ∧ getN t (K.linkPartner l) = 0 ∧
        (((linkOf s l).falls.filter (fun a => s.now < a + 10000000000)).length < 2 → lnkSt t l = lnkDown) ∧
        (2 ≤ ((linkOf s l).falls.filter (fun a => s.now < a + 10000000000)).length →
          lnkSt t l = lnkHeld ∧ (linkOf t l).heldUntil = s.now + 10000000000) ∧
        ((∀ j, j < 4 → j ≠ l.val → linkCarries s j = false) → getN t K.fabState = fabAlone) ∧
        (∀ j, j < 4 → j ≠ l.val → linkCarries s j = true → getN t K.fabState = fabDiscovering))) ∧
  ((∀ (s : State) (l partnerLink : Fin 4) (serial : BitVec 64) (addr : BitVec 8) (gen : BitVec 32),
      lnkSt s l = lnkUp ∨ lnkSt s l = lnkDegraded → serial.toNat ≠ 0 →
      ∃ t, exec (.hello l serial addr gen partnerLink) s = .next t ∧ getN t (K.linkPartner l) = serial.toNat ∧
        getN t (K.linkPartnerAddr l) = addr.toNat ∧ getN t (K.linkPartnerLink l) = partnerLink ∧ (linkOf t l).rxAt = s.now ∧
        getN t K.fabTopoGen = (max (getN s K.fabTopoGen) gen.toNat + 1) % 2 ^ 32 ∧ getN t K.fabRouteGen = getN t K.fabTopoGen ∧
        getN t K.fabState = fabDiscovering ∧ t.fab.lastRec = s.now ∧ Changes [.objs, .fab] s t) ∧
    (∀ (s : State) (r x : LinkRecord), r.serial.toNat ≠ ownSerial → (∃ l, l < 4 ∧ linkCarries s l = true) →
      ((∀ y ∈ s.fab.records, y.serial = r.serial → y.seq.toNat < r.seq.toNat) →
        ∃ t, exec (.linkStateRecordRx r) s = .next t ∧ (∀ y, y ∈ t.fab.records ↔ y = r ∨ y ∈ s.fab.records ∧ y.serial ≠ r.serial) ∧
          getN t K.fabTopoGen = (getN s K.fabTopoGen + 1) % 2 ^ 32 ∧ getN t K.fabState = fabDiscovering ∧ Changes [.objs, .fab] s t) ∧
      (x ∈ s.fab.records → x.serial = r.serial → r.seq.toNat ≤ x.seq.toNat → exec (.linkStateRecordRx r) s = .next s)) ∧
    (∀ (s : State), getN s K.fabState = fabDiscovering → s.fab.lastRec + 2000000 ≤ s.now →
      ∃ t, exec .fabricStable s = .next t ∧ getN t K.fabRootSerial = (reachableSerials s).foldl min ownSerial ∧
        getN t K.fabRouteGen = getN t K.fabTopoGen ∧
        (getN t K.fabAddr = 0xFF ∧ getN t K.fabState = fabExcluded ∨ getN t K.fabAddr ≠ 0xFF ∧ getN t K.fabState = fabRun) ∧
        (getN s K.fabAddr ≠ 0xFF → (∀ m ∈ reachableSerials s, m ≠ ownSerial → addrOf s m ≠ getN s K.fabAddr) →
          getN t K.fabAddr = getN s K.fabAddr)) ∧
    (∀ (s : State) (l : Fin 4) (offset : Int) (err : Nat), lnkSt s l = lnkUp ∨ lnkSt s l = lnkDegraded →
      ∃ t, exec (.syncExchange l offset err) s = .next t ∧ linkOf t l = { linkOf s l with rxAt := s.now, offset := offset, err := err } ∧
        (getN s K.fabRootSerial ≠ ownSerial → (firstChoice s ownSerial (getN s K.fabRootSerial)).map (·.2.1) = some l.val →
          t.fab.offset = offset ∧ getN t K.fabTimeErr = min err (2 ^ 32 - 1)) ∧
        (getN s K.fabRootSerial = ownSerial → t.fab.offset = s.fab.offset ∧ t.objs = s.objs) ∧
        onlyObjs [K.fabTimeErr] s t ∧ Changes [.objs, .fab] s t))

/-- Spread outputs. An enabled spread aligns its members, whose ports here read owner 0xFD (R419, R420), unless R419 refuses it; a commit
sets bits, which after the close point are late (R427); the close point latches them with their shadow (R427); a member reports its offset
and whether it was late, and a joining member of another module is IN with its report (R425, R426, R428); one that is unreachable too long
reads LOST and the spread DEGRADED (R429); a disabled spread stops (R431). -/
def Obligations.SpreadCommands : Prop :=
  (∀ (s : State) (r : DictReq) (k : Nat) (i : Fin 8), AdmittedWrite s r k (K.spreadEnable i) 1 → managerSession s k → Quiet s →
    K.spreadEnable i ∉ s.transit → spreadEnableCheck s i = .ok → 
    (∀ m ∈ spreadMembers s i, smLocal s i m = true → getN s (K.smPort i m) < 8) →
    domSt s 11 ≠ domStopping →
    ∃ t, exec (.spreadEnable r i) s = .next t ∧ answered t r 0x11 .ok ∧ getB t (K.spreadEnable i) = true ∧
      getN t (K.spreadState i) = sprAligning ∧
      (∀ m ∈ spreadMembers s i, getN t (K.smState i m) = smJoining ∧
        (smLocal s i m = true → ∀ j, j < 6 → layerOwner t (getN s (K.smPort i m)) j = 0xFD))) ∧
  (∀ (s : State) (r : DictReq) (k : Nat) (i : Fin 8) (st : Status), AdmittedWrite s r k (K.spreadEnable i) 1 → managerSession s k →
    getB s (K.spreadEnable i) = false → spreadEnableCheck s i = st → st ≠ .ok →
    ∃ t, exec (.spreadEnable r i) s = .next t ∧ answered t r 0x11 st ∧ Changes [.fresh, .sess, .resp] s t) ∧
  (∀ (s : State) (r : DictReq) (k : Nat) (i : Fin 8), AdmittedWrite s r k (K.spreadEnable i) 0 → managerSession s k → pwrMode s = 1 →
    getB s (K.spreadEnable i) = true → K.spreadEnable i ∉ s.transit → getN s (K.spreadState i) = sprRun →
    ((∃ m, m < 16 ∧ m ∈ spreadMembers s i ∧ smLocal s i m = true ∧ getN s (K.smState i m) = smIn) →
      ∃ t, exec (.spreadDisable r i) s = .next t ∧ answered t r 0x11 .ok ∧ getB t (K.spreadEnable i) = false ∧
        getN t (K.spreadState i) = sprStopping) ∧
    ((∀ m, m < 16 → smLocal s i m = false ∧ (m ∈ spreadMembers s i ∨ getN s (K.smState i m) = smOff)) →
      ∃ t, exec (.spreadDisable r i) s = .next t ∧ answered t r 0x11 .ok ∧ getB t (K.spreadEnable i) = false ∧
        getN t (K.spreadState i) = sprOff ∧ ∀ m, m < 16 → getN t (K.smState i m) = smOff)) ∧
  (∀ (s : State) (r : DictReq) (k : Nat) (i : Fin 8), AdmittedWrite s r k (K.spreadCommit i) 1 →
    (managerSession s k ∨ ((sessOf s k).role = .vf ∧ spreadBits s (sessOf s k).func i ≠ 0)) →
    ∃ t bits, exec (.spreadCommit r i 1) s = .next t ∧ answered t r 0x11 .ok ∧
      bits = spreadBits s (sessOf s k).func i ||| (if (sessOf s k).role = .mgr then 64 else 0) ∧
      getN t (K.spreadCommitPend i) = getN s (K.spreadCommitPend i) ||| bits ∧
      ((spreadOf s i).closed = false → spreadOf t i = spreadOf s i) ∧
      ((spreadOf s i).closed = true →
        spreadOf t i = { spreadOf s i with late := (spreadOf s i).late ||| bits, lateOps := (spreadOf s i).lateOps + 1 }) ∧
      onlyObjs [K.spreadCommitPend i] s t ∧ Changes [.objs, .fab, .sess, .resp] s t) ∧
  (∀ (s : State) (i : Fin 8), 1 ≤ getN s (K.spreadState i) → getN s (K.spreadState i) ≤ 3 → (spreadOf s i).closed = false →
    ∃ t, exec (.spreadClosePoint i) s = .next t ∧ (spreadOf t i).closed = true ∧
      (spreadOf t i).latched = getN s (K.spreadCommitPend i) ∧
      (spreadOf t i).captured = spreadShadow s i (getN s (K.spreadCommitPend i)) (spreadOf s i).active ∧
      (∀ j, j ≠ i.val → spreadOf t j = spreadOf s j) ∧ Changes [.fab] s t) ∧
  (∀ (s : State) (i : Fin 8) (m : Fin 16) (late : Bool) (offset : Int), (spreadOf s i).closed = true → getN s (K.smState i m) = smIn →
    offset.natAbs ≤ 20000 →
    ∃ t, exec (.spreadStateRx i m late offset) s = .next t ∧ getN t (K.smSkew i m) = toSigned 32 offset ∧
      getN t (K.smLate i m) = (if late then satInc 32 (getN s (K.smLate i m)) else getN s (K.smLate i m)) ∧
      tget (spreadOf t i).skewed m 0 = 0 ∧ onlyObjsAndNotes [K.smSkew i m, K.smLate i m] s t) ∧
  (∀ (s : State) (i : Fin 8) (m : Fin 16) (late : Bool) (offset : Int), (spreadOf s i).closed = true → getN s (K.smState i m) = smJoining →
    smLocal s i m = false → offset.natAbs ≤ 20000 →
    ∃ t, exec (.spreadStateRx i m late offset) s = .next t ∧ getN t (K.smState i m) = smIn ∧ getN t (K.smSkew i m) = toSigned 32 offset ∧
      m.val ∉ (spreadOf t i).lost) ∧
  (∀ (s : State) (i : Fin 8) (m : Fin 16) (e : Nat × Nat), s.fab.gone.find? (fun e => e.1 == getN s (K.smSerial i m)) = some e →
    getN s (K.smState i m) = smIn → smLocal s i m = false → getN s (K.spreadState i) = sprRun →
    e.2 + getN s K.fabSpreadHold * 1000000 ≤ s.now →
    ∃ t, exec (.spreadMemberLost i m) s = .next t ∧ getN t (K.smState i m) = smLost ∧ getN t (K.spreadState i) = sprDegraded ∧
      m.val ∈ (spreadOf t i).lost ∧ bitOf (funcOf t 0).evtPend 11 = true)

/-! ## Power -/

/-- Domains. The first waiting domain whose needs read ON ramps, four at most at one time (R434, R435), reads TESTING under a new
generation (R436), and ON; an active core of a slice that failed its self-test is in service no more (R168, R471); a domain that stops is off
when what it serves is done (R437). dom.hold powers a domain; its write is refused with RANGE for PD00, and with CLAIMED for a domain that
is claimed, in notice or cut, whatever its value, PD01 among them (R438); dom.tw is the trusted world's (R440), and takes no PD01 (R317). -/
def Obligations.PowerDomains : Prop :=
  (∀ (s : State) (d : Fin 24), s.power.ramp.find? (rampReady s) = some d.val →
    (countN 24 (fun e => domSt s e == domRamping) < 4 →
      ∃ t, exec (.domainRampStart d) s = .next t ∧ domSt t d = domRamping ∧ t.power = { s.power with ramp := s.power.ramp.erase d.val } ∧
        K.domHold d ∉ t.transit ∧ (K.domHold d ∉ s.transit → onlyObjs [K.domState d] s t ∧ Changes [.objs, .power] s t)) ∧
    (4 ≤ countN 24 (fun e => domSt s e == domRamping) → exec (.domainRampStart d) s = .next s)) ∧
  (∀ (s : State) (d : Fin 24), s.power.ramp.find? (rampReady s) ≠ some d.val → exec (.domainRampStart d) s = .next s) ∧
  (∀ (s : State) (d : Fin 24), domSt s d = domRamping →
    ∃ t, exec (.domainRampDone d) s = .next t ∧ domSt t d = domTesting ∧ getN t (K.domGen d) = (getN s (K.domGen d) + 1) % 65536 ∧
      getN t (K.domUps d) = satInc 32 (getN s (K.domUps d)) ∧ (∀ e, e < 24 → e ≠ d.val → domSt t e = domSt s e)) ∧
  (∀ (s : State) (d : Fin 24) (failed passing : List (Fin 36)), domSt s d = domTesting → Quiet s →
    (d.val ≠ 1 → getB s (K.domHold d) = true → ∃ t, exec (.domainOn d failed passing) s = .next t ∧ domSt t d = domOn ∧
      (∀ k ∈ failed, 6 ≤ d.val → d.val ≤ 9 → k.val / 9 = d.val - 6 → getN s (K.coreState k) = 1 → getN t (K.coreState k) = 3)) ∧
    (d.val = 1 → twSt s ≠ twDown → ∃ t, exec (.domainOn d failed passing) s = .next t ∧ domSt t d = domOn ∧ twSt t = twRestarting)) ∧
  (∀ (s : State) (d : Fin 24), domSt s d = domStopping →
    (mayGoOff (shed s) d = true → 0 < d.val →
      ∃ t, exec (.domainOff d) s = .next t ∧ domSt t d = domOff ∧ (d.val = 11 → t.kram = [])) ∧
    (mayGoOff (shed s) d = false → exec (.domainOff d) s = .next (shed s))) ∧
  (∀ (s : State) (r : DictReq) (i : Nat) (d : Fin 24), managerSession s i → Quiet s → 0 < d.val →
    (d.val ≠ 1 → K.domHold d ∉ s.transit → domSt s d ≠ domStopping →
      (AdmittedWrite s r i (K.domHold d) 1 → getB s (K.domHold d) = false →
        ∃ t, exec (.domHoldWrite r d true) s = .next t ∧ answered t r 0x11 .ok ∧ getB t (K.domHold d) = true ∧ domSt t d = domSt s d ∧
          (domSt s d = domOff → d.val ∈ t.power.ramp)) ∧
      (AdmittedWrite s r i (K.domHold d) 0 → getB s (K.domHold d) = true →
        ∃ t, exec (.domHoldWrite r d false) s = .next t ∧ answered t r 0x11 .ok ∧ getB t (K.domHold d) = false)) ∧
    (d.val = 1 → AdmittedWrite s r i (K.domHold d) 1 →
      ∃ t, exec (.domHoldWrite r d true) s = .next t ∧ answered t r 0x11 .claimed ∧ getN t K.worldRefused = satInc 32 (getN s K.worldRefused) ∧
        t.refuseLog.length = min 64 (s.refuseLog.length + 1) ∧ onlyObjsAndNotes [K.worldRefused] s t)) ∧
  (∀ (s : State) (r : DictReq) (i : Nat) (d : Fin 24) (v : Bool), managerSession s i → AdmittedWrite s r i (K.domHold d) (if v then 1 else 0) →
    (d.val = 0 → ∃ t, exec (.domHoldWrite r d v) s = .next t ∧ answered t r 0x11 .range ∧ Changes [.fresh, .sess, .resp] s t) ∧
    (0 < d.val → claimState s d ≠ 0 ∨ d.val = 1 →
      ∃ t, exec (.domHoldWrite r d v) s = .next t ∧ answered t r 0x11 .claimed ∧ onlyObjsAndNotes [K.worldRefused] s t)) ∧
  (∀ (s : State) (d : Fin 24) (v : Bool), firmwareRuns s = true → d.val ≠ 1 → K.domTw d ∉ s.transit →
    ∃ t, exec (.domTwWrite d v) s = .next t ∧ getB t (K.domTw d) = v ∧
      (isClaimed s d = true → domSt s d = domStopping → v = true → K.domTw d ∈ t.transit)) ∧
  (∀ (s : State) (d : Fin 24) (v : Bool), firmwareRuns s = true → d.val = 1 →
    ∃ t x, exec (.domTwWrite d v) s = .next t ∧ t.twResp = some x ∧ x.status = .range ∧ t.objs = s.objs)

/-- The module's modes. Power good starts the module with the trusted world's domain first (R447, R448), and an open PERST# contact
counts as deasserted then (R494); a host port trains at the widest width that the host and the wiring allow (R493); both hosts ready,
pwr.mode reads RUN (R450). A standby request in RUN with no claim begins the shut-down, and with a claim it is refused (R442); the trusted
world's domain goes last, and the module reads STANDBY or, with a wake queued, starts (R442, R444). pwr.reset, from a role that may write
it, starts 1 ms later a cut of 10 ms, after which the cold start runs (R446). -/
def Obligations.PowerModes : Prop :=
  (∀ (s : State),
    ∀ (open0 open1 : Bool), (s.power.good = true → exec (.powerGood open0 open1) s = .next s) ∧
    (s.power.good = false → (s.power.seen = false ∨ ∃ a, s.power.okSince = some a ∧ a + 10000000 ≤ s.now) →
      ∃ t, exec (.powerGood open0 open1) s = .next t ∧ t.power.good = true ∧ pwrMode t = 0 ∧ getN t K.pwrCause = 1 ∧ t.power.step = 3 ∧
        t.power.start = s.now ∧ 1 ∈ t.power.ramp ∧ t.sess = [] ∧ (∀ n, n < 96 → (pinOf t n).stage = 1) ∧
        t.power.perst0 = (if open0 then some s.now else s.power.perst0) ∧
        t.power.perst1 = (if open1 then some s.now else s.power.perst1))) ∧
  (∀ (s : State) (h1 : Bool) (offered : Fin 17) (reversed : Bool) (inverted : BitVec 16) (refclk : Bool),
    ∃ t width, exec (.perstDeassert h1 offered reversed inverted refclk) s = .next t ∧
      width = (if h1 = false ∧ 16 ≤ offered.val then 16 else if h1 = false ∧ 8 ≤ offered.val then 8 else if 4 ≤ offered.val then 4
        else if 1 ≤ offered.val then 1 else 0) ∧
      t.power = (if h1 then { s.power with perst1 := some s.now, link1 := ⟨width, reversed, inverted.toNat, refclk⟩ }
        else { s.power with perst0 := some s.now, link0 := ⟨width, reversed, inverted.toNat, refclk⟩ }) ∧ Changes [.power] s t) ∧
  (∀ (s : State), s.power.perst0 = none ∨ s.power.perst1 = none → exec .hostAvailability s = .next s) ∧
  (∀ (s : State), pwrMode s = 0 → 11 ≤ s.power.step → domSt s 3 = domOn → s.power.perst0 ≠ none → s.power.perst1 ≠ none →
    ∃ t, exec .hostAvailability s = .next t ∧ pwrMode t = 1 ∧ t.power.avail = true ∧ t.power.step = 12 ∧
      getN t K.pwrHostAvail = min ((s.now - s.power.start) / 1000) (2 ^ 32 - 1)) ∧
  (∀ (s : State) (r : DictReq) (i : Nat), AdmittedWrite s r i K.pwrReq 3 → managerSession s i → pwrMode s = 1 →
    (Quiet s → ∃ t, exec (.pwrReqStandby r) s = .next t ∧ answered t r 0x11 .ok ∧ pwrMode t = 2 ∧ getN t K.pwrReq = 3) ∧
    (∀ d, 1 < d → d < 24 → isClaimed s d = true →
      ∃ t, exec (.pwrReqStandby r) s = .next t ∧ answered t r 0x11 .claimed ∧ pwrMode t = 1 ∧
        getN t K.worldRefused = satInc 32 (getN s K.worldRefused) ∧ onlyObjsAndNotes [K.worldRefused] s t)) ∧
  (∀ (s : State) (a : Nat), s.power.standbyFrom = some a → pwrMode s = 2 → a ≤ s.now →
    (s.power.wakeQueued = false → ∃ t, exec .standbyReached s = .next t ∧ pwrMode t = 3 ∧ domSt t 1 = domOff ∧ twSt t = twOff ∧
      (∀ n, n < 96 → (pinOf t n).stage = if n < 8 ∧ wakePin s n = true then 3 else 1)) ∧
    (s.power.wakeQueued = true → ∃ t, exec .standbyReached s = .next t ∧ pwrMode t = 0 ∧ getN t K.pwrCause = 3)) ∧
  (∀ (s : State) (r : DictReq) (i : Nat), AdmittedWrite s r i K.pwrReq 1 → (sessOf s i).role = .sb ∨ managerSession s i →
    (pwrMode s = 3 → ∃ t, exec (.pwrReqRun r) s = .next t ∧ answered t r 0x11 .ok ∧ pwrMode t = 0 ∧ getN t K.pwrCause = 3 ∧
      t.power.step = 3) ∧
    (pwrMode s = 2 → ∃ t, exec (.pwrReqRun r) s = .next t ∧ answered t r 0x11 .intransit ∧ t.power.wakeQueued = true ∧ pwrMode t = 2) ∧
    (pwrMode s = 1 → ∃ t, exec (.pwrReqRun r) s = .next t ∧ answered t r 0x11 .ok ∧ getN t K.pwrReq = 1 ∧ onlyObjs [K.pwrReq] s t)) ∧
  (∀ (s : State) (r : DictReq) (i : Nat), AdmittedWrite s r i K.pwrReq 3 → (sessOf s i).role = .sb ∨ managerSession s i → pwrMode s = 2 →
    ∃ t, exec (.pwrReqStandby r) s = .next t ∧ answered t r 0x11 .intransit ∧ Changes [.sess, .resp] s t) ∧
  (∀ (s : State) (r : DictReq) (i : Nat), AdmittedWrite s r i K.pwrReset 0xA1 → (sessOf s i).role = .mgr ∨ (sessOf s i).role = .sb →
    (mayReset s (sessOf s i).role = true → ∃ t, exec (.pwrReset r 0xA1) s = .next t ∧ answered t r 0x11 .ok ∧
      t.power = { s.power with resetAt := some (s.power.resetAt.getD (s.now + 1000000)) } ∧
      tget t.ehrica intReset 0 = tget s.ehrica intReset 0 + 1 ∧ Changes [.power, .ehrica, .sess, .resp] s t) ∧
    (mayReset s (sessOf s i).role = false → ∃ t, exec (.pwrReset r 0xA1) s = .next t ∧ answered t r 0x11 .access ∧
      Changes [.fresh, .sess, .resp] s t)) ∧
  (∀ (s : State) (a : Nat), (s.power.resetAt = none ∧ s.power.resetOff = some a) ∨ (∃ b, s.power.resetAt = some b ∧ a = b + 10000000) →
    a ≤ s.now →
    ∃ t, exec .resetHoldExpiry s = .next t ∧ pwrMode t = 0 ∧ getN t K.pwrCause = 2 ∧ t.power.step = 3 ∧ t.power.resetOff = none)

/-- Heat and supply. A measurement below the thresholds is shown and cuts nothing, and one at 130 °C cuts every domain but PD00 and
PD01 (R454, R455); the shader clock steps down and up (R454). The input's bands cut at once above 17.0 V, give PD01 notice below 6.0
V and end PD00 below 5.0 V (R456). When an emergency clears, unclaimed domains are off again (R458). -/
def Obligations.PowerEmergencies : Prop :=
  (∀ (s : State) (temps : List (BitVec 32)), Quiet s → temps.length = 10 →
    ((∀ x ∈ temps, signedOf 32 x.toNat < signedOf 32 (getN s K.thermThrottle) ∧ signedOf 32 x.toNat < 120) →
      ∃ t, exec (.thermalSample temps) s = .next t ∧ t.power.thermal = 0 ∧ t.power.throttle = s.power.throttle ∧
        ∀ j, j < 10 → getN t (K.thermTemp j) = if sensorPowered s j then (temps.getD j 0).toNat else 2 ^ 31) ∧
    (∀ j, j < 10 → sensorPowered s j = true → 130 ≤ signedOf 32 (temps.getD j 0).toNat →
      ∃ t, exec (.thermalSample temps) s = .next t ∧ t.power.thermal = 2 ∧ getN t K.pwrEmerg = 2 ∧ getN t K.thermLevel = 3 ∧
        ∀ d, 2 ≤ d → d < 24 → domSt t d = domCut)) ∧
  (∀ (s : State) (j a : Nat) (c : Int), Quiet s → hottest s = some (j, c) → c < 120 → s.power.hotSince = some a → a + 1000000000 ≤ s.now →
    (s.power.throttle = 1 → signedOf 32 (getN s K.thermThrottle) + 5 ≤ c →
      ∃ t, exec .throttleStepTimer s = .next t ∧ t.power.throttle = 2 ∧ getN t K.thermLevel = 2) ∧
    (∀ b, s.power.throttle ≠ 0 → s.power.coolSince = some b → b + 1000000000 ≤ s.now →
      c < signedOf 32 (getN s K.thermThrottle) - 10 →
      ∃ t, exec .throttleStepTimer s = .next t ∧ t.power.throttle = s.power.throttle - 1 ∧ getN t K.thermLevel = s.power.throttle - 1)) ∧
  (∀ (s : State) (mv : BitVec 16),
    (mv.toNat < 5000 → ∃ t, exec (.supplyChange mv) s = .next t ∧ getN t K.pwrIn = mv.toNat ∧ t.power.good = false ∧ t.sess = [] ∧
      t.mram = s.mram) ∧
    (Quiet s → s.power.lowSince = none → s.power.low2Since = none →
      (9000 ≤ mv.toNat → mv.toNat ≤ 16000 → ∃ t, exec (.supplyChange mv) s = .next t ∧ getN t K.pwrIn = mv.toNat ∧
        t.power.okSince = some (s.power.okSince.getD s.now) ∧ t.power.lowSince = none ∧ t.power.supply = 0) ∧
      (17000 < mv.toNat → ∃ t, exec (.supplyChange mv) s = .next t ∧ getN t K.pwrEmerg = 3 ∧ t.power.supply = 1 ∧
        ∀ d ∈ [5, 6, 7, 8, 9, 10, 21, 23], domSt t d = domCut) ∧
      (5000 ≤ mv.toNat → mv.toNat < 6000 → s.power.notice = [] → domSt s 1 = domOn →
        ∃ t, exec (.supplyChange mv) s = .next t ∧ t.power.pd01Cut = true ∧ (1, s.now + 1000000) ∈ t.power.notice ∧
          tget t.ehrica intClaim 0 = tget s.ehrica intClaim 0 + 1))) ∧
  (∀ (s : State) (a : Nat), s.power.thermal ≠ 0 → s.power.supply = 0 → s.power.pd01Cut = false → s.power.pd02Cut = false → s.power.cut = [] →
    s.power.coolSince = some a → a + 1000000000 ≤ s.now →
    ∃ t, exec .emergencyClear s = .next t ∧ t.power.thermal = 0 ∧ getN t K.pwrEmerg = 0 ∧
      ∀ d, d < 24 → domSt s d = domCut → domSt t d = domOff)

/-! ## Clocks, spares and side pins -/

/-- Clocks. A clock request sets the gate or the rate of an island; the gate is refused with RANGE for an island that is never
gated, the rate with NOOBJ for one that has none, and either with CLAIMED while the island's domain is claimed (R461, R462). Module time
follows its master while it is locked to it, and is sent to every island that runs; no copy steps backwards (R17, R470; that module
time itself then does not, is the model's choice, log 237). Spares and diagnostics. A retired unit that passes its
test again is a spare, one that fails stays as it is, and a unit in service is refused with RANGE (R477). A row that reads back
wrong twice takes the lowest spare row of its bank; without one, it can no longer be written (R479). diag.enable takes true in RUN
only (R484). -/
def Obligations.ClocksAndSpares : Prop :=
  ((∀ (s : State) (r : DictReq) (i : Nat) (island : Fin 40) (v : Bool), AdmittedWrite s r i (K.islGate island) (b2n v) → managerSession s i →
      (islandGateable island = true ∨ v = false → islandClaims s island = [] →
        ∃ t, exec (.islGateWrite r island v) s = .next t ∧ answered t r 0x11 .ok ∧ getB t (K.islGate island) = v ∧
          onlyObjs [K.islGate island] s t ∧ Changes [.objs, .sess, .resp] s t) ∧
      (islandGateable island = false → v = true →
        ∃ t, exec (.islGateWrite r island v) s = .next t ∧ answered t r 0x11 .range ∧ Changes [.fresh, .sess, .resp] s t) ∧
      (islandGateable island = true ∨ v = false → islandClaims s island ≠ [] →
        ∃ t, exec (.islGateWrite r island v) s = .next t ∧ answered t r 0x11 .claimed ∧
          getN t K.worldRefused = satInc 32 (getN s K.worldRefused) ∧ onlyObjsAndNotes [K.worldRefused] s t)) ∧
    (∀ (s : State) (r : DictReq) (i : Nat) (island : Fin 40) (v : BitVec 16), AdmittedWrite s r i (K.islRate island) v.toNat →
      managerSession s i → v.toNat = 1600 ∨ v.toNat = 1200 ∨ v.toNat = 800 →
      (isSlice island = true → islandClaims s island = [] →
        ∃ t, exec (.islRateWrite r island v) s = .next t ∧ answered t r 0x11 .ok ∧ getN t (K.islRate island) = v.toNat ∧
          sliceClock t island = min v.toNat (thermalClock s) ∧
          (v.toNat ≠ getN s (K.islRate island) → tget t.rateStop island 0 ≤ s.now + 2000) ∧
          (v.toNat = getN s (K.islRate island) → t.rateStop = s.rateStop) ∧ onlyObjs [K.islRate island] s t ∧
          Changes [.fresh, .objs, .rateStop, .sess, .resp] s t) ∧
      (isSlice island = true → islandClaims s island ≠ [] →
        ∃ t, exec (.islRateWrite r island v) s = .next t ∧ answered t r 0x11 .claimed ∧
          getN t K.worldRefused = satInc 32 (getN s K.worldRefused) ∧ onlyObjsAndNotes [K.worldRefused] s t) ∧
      (isSlice island = false → ∃ t, exec (.islRateWrite r island v) s = .next t ∧ answered t r 0x11 .noobj ∧
        Changes [.fresh, .sess, .resp] s t)) ∧
    (∀ (s : State) (master : BitVec 64), ∃ t, exec (.timeUpdate master) s = .next t ∧
      t.now = (if getB s K.timeLocked then max s.now master.toNat else s.now) ∧
      (∀ i, 0 < i → i < 40 → tget t.islTime i 0 = if islandPowered s i then max (tget s.islTime i 0) t.now else tget s.islTime i 0) ∧
      Changes [.now, .islTime] s t)) ∧
  ((∀ (s : State) (r : DictReq) (i : Nat) (v : BitVec 16) (passes : Bool), AdmittedWrite s r i K.grogRetest v.toNat → managerSession s i →
      v.toNat / 256 ∈ classUnits (v.toNat % 256) →
      (unitState s (v.toNat % 256) (v.toNat / 256) = unitRetired ∨ unitState s (v.toNat % 256) (v.toNat / 256) = unitFailed →
        substRuns s (v.toNat % 256) = false → s.grog.badRows = [] →
        (∃ t, exec (.grogRetest r v true) s = .next t ∧ answered t r 0x11 .ok ∧ unitState t (v.toNat % 256) (v.toNat / 256) = unitSpare ∧
          (v.toNat % 256 = clsCore → getN t (K.coreGen (v.toNat / 256)) = (getN s (K.coreGen (v.toNat / 256)) + 1) % 65536)) ∧
        (∃ t, exec (.grogRetest r v false) s = .next t ∧ answered t r 0x11 .ok ∧ t.grog.units = s.grog.units ∧
          t.grog.seq = (s.grog.seq + 1) % 2 ^ 32)) ∧
      (unitState s (v.toNat % 256) (v.toNat / 256) = unitInService →
        ∃ t, exec (.grogRetest r v passes) s = .next t ∧ answered t r 0x11 .range ∧ Changes [.fresh, .sess, .resp] s t)) ∧
    (∀ (s : State) (bank : Fin 16) (row : Fin 2048) (bad l q : Nat), l = bank * 2048 + row → q = s.grog.levelled l →
      (q = s.grog.home l ∨ s.grog.isFree q = true ∧ Config.mramArea q = Config.mramArea (s.grog.home l) ∧ Config.mramArea q ≠ 3 ∧
        s.grog.wear q + 2 ^ 24 < s.grog.wear (s.grog.home l) ∧
        ∀ f, f < 32768 → s.grog.isFree f = true → Config.mramArea f = Config.mramArea q → s.grog.wear q ≤ s.grog.wear f) ∧
      (∀ f, f < 32768 → s.grog.isFree f = true → Config.mramArea (s.grog.home l) ≠ 3 → Config.mramArea f = Config.mramArea (s.grog.home l) →
        s.grog.wear f + 2 ^ 24 < s.grog.wear (s.grog.home l) → q ≠ s.grog.home l) ∧
      (bad < 2 → ∃ t, exec (.mramRowWrite bank row bad) s = .next t ∧ t.grog.home l = q ∧
        tget t.grog.rowWrites (s.grog.cell q) 0 = s.grog.wear q + 1 + bad ∧
        t.grog.spared = s.grog.spared ∧ Changes [.grog] s t) ∧
      (2 ≤ bad → freeRows s (q / 2048) ≠ 0 → ∃ t, exec (.mramRowWrite bank row bad) s = .next t ∧
        tfind t.grog.rowSpare (rowKey (q / 2048) (q % 2048)) = some (2048 + tget s.grog.spareUsed (q / 2048) 0) ∧
        tget t.grog.spareUsed (q / 2048) 0 = tget s.grog.spareUsed (q / 2048) 0 + 1 ∧ t.grog.spared = satInc 32 s.grog.spared ∧
        onlyObjsAndNotes healthKeys s t) ∧
      (2 ≤ bad → freeRows s (q / 2048) = 0 → ∃ t, exec (.mramRowWrite bank row bad) s = .next t ∧
        q ∈ t.grog.badRows ∧ t.grog.rowSpare = s.grog.rowSpare ∧ Changes [.grog] s t)) ∧
    (∀ (s : State) (r : DictReq) (i : Nat) (v : Bool), AdmittedWrite s r i K.diagEnable (b2n v) → managerSession s i →
      (v = false ∨ pwrMode s = 1 → ∃ t, exec (.diagEnable r v) s = .next t ∧ answered t r 0x11 .ok ∧ getB t K.diagEnable = v ∧
        onlyObjs [K.diagEnable] s t ∧ Changes [.fresh, .objs, .grog, .sess, .resp] s t) ∧
      (v = true → pwrMode s ≠ 1 → ∃ t, exec (.diagEnable r v) s = .next t ∧ answered t r 0x11 .busy ∧ Changes [.fresh, .sess, .resp] s t)))

/-- Side pins. An edge that sp.edge names is counted or stamped, and waits where its receiver is off, any other changes the level alone
(R505, R467); a rising edge of a wake pin wakes the module (R445). A write of sp.func takes effect at once, to COUNT with the count 0 and to
STAMP with the stamp 0, and sp00 to sp07 drive as open drain only (R501, R504); a PWM value takes effect at the next period (R504). -/
def Obligations.SidePinCommands : Prop :=
  (∀ (s : State) (pin : Fin 96) (level : Bool), s.power.good = true →
    (getB s (K.spIn pin) = level → exec (.sidePinEdge pin level) s = .next s) ∧
    (getB s (K.spIn pin) ≠ level → pwrMode s ≠ 3 → (pinOf s pin).stage = 2 → (pinOf s pin).events = 0 → (pinOf s pin).overflow = false →
      getN s (K.spEdge pin) = 3 ∨ getN s (K.spEdge pin) = (if level then 1 else 2) →
      (island4Runs s = true → pinFunc s pin = spCountFn →
        ∃ t, exec (.sidePinEdge pin level) s = .next t ∧ getB t (K.spIn pin) = level ∧
          getN t (K.spCount pin) = (getN s (K.spCount pin) + 1) % 2 ^ 32 ∧ onlyObjs [K.spIn pin, K.spCount pin] s t) ∧
      (island4Runs s = true → pinFunc s pin = spStampFn →
        ∃ t, exec (.sidePinEdge pin level) s = .next t ∧ getB t (K.spIn pin) = level ∧ getN t (K.spStamp pin) = s.now ∧
          onlyObjs [K.spIn pin, K.spStamp pin] s t) ∧
      (island4Runs s = false → pinFunc s pin = spCountFn ∨ pinFunc s pin = spStampFn →
        ∃ t, exec (.sidePinEdge pin level) s = .next t ∧ getB t (K.spIn pin) = level ∧ (pinOf t pin).events = 1 ∧
          onlyObjs [K.spIn pin] s t)) ∧
    (getB s (K.spIn pin) ≠ level → pwrMode s ≠ 3 → pinFunc s pin ≠ spCountFn ∧ pinFunc s pin ≠ spStampFn ∨ getN s (K.spEdge pin) = 0 ∨
        getN s (K.spEdge pin) = (if level then 2 else 1) →
      ∃ t, exec (.sidePinEdge pin level) s = .next t ∧ getB t (K.spIn pin) = level ∧ onlyObjs [K.spIn pin] s t ∧ Changes [.objs] s t) ∧
    (pwrMode s = 3 → level = true → pinWakes s pin true = true →
      ∃ t, exec (.sidePinEdge pin level) s = .next t ∧ pwrMode t = 0 ∧ getN t K.pwrCause = 3 ∧ t.power.step = 3)) ∧
  (∀ (s : State) (r : DictReq) (i : Nat) (pin : Fin 96) (v : BitVec 8), AdmittedWrite s r i (K.spFunc pin) v.toNat → managerSession s i →
    pinTrusted s pin = false →
    (v.toNat < 6 → ¬ (pin.val < 8 ∧ (v.toNat = spOutput ∨ v.toNat = spPwm)) → s.grog.badRows = [] →
      ∃ t, exec (.spFuncWrite r pin v) s = .next t ∧ answered t r 0x11 .ok ∧ pinFunc t pin = v.toNat ∧
        (v.toNat = spCountFn → pinFunc s pin ≠ spCountFn → getN t (K.spCount pin) = 0) ∧
        (v.toNat = spStampFn → pinFunc s pin ≠ spStampFn → getN t (K.spStamp pin) = 0) ∧
        getB t (K.spOut pin) = getB s (K.spOut pin) ∧ onlyObjs [K.spFunc pin, K.spCount pin, K.spStamp pin] s t) ∧
    (pin.val < 8 → v.toNat = spOutput ∨ v.toNat = spPwm →
      ∃ t, exec (.spFuncWrite r pin v) s = .next t ∧ answered t r 0x11 .range ∧ Changes [.fresh, .sess, .resp] s t)) ∧
  (∀ (s : State) (r : DictReq) (i : Nat) (pin : Fin 96) (freq : Bool) (v : BitVec 32),
    AdmittedWrite s r i (if freq then K.spPwmFreq pin else K.spPwmDuty pin) v.toNat → managerSession s i → pinTrusted s pin = false →
    (if freq then 100 ≤ v.toNat ∧ v.toNat ≤ 100000 else v.toNat ≤ 1000) → s.grog.badRows = [] →
    ∃ t, exec (.spPwmWrite r pin freq v) s = .next t ∧ answered t r 0x11 .ok ∧
      getN t (if freq then K.spPwmFreq pin else K.spPwmDuty pin) = v.toNat ∧
      (pinFunc s pin = spPwm → 0 < getN s (K.spPwmFreq pin) → getN s (K.spPwmFreq pin) ≤ 100000 → pwmNow t pin = pwmNow s pin) ∧
      onlyObjs [if freq then K.spPwmFreq pin else K.spPwmDuty pin] s t)
end

