-- ==== Sys2Proof/Laws/Areas.lean ====
section
/-!
SUPPORT. Which area's rule a write of each object with a command of its own follows: its access, its checks, its claims, its effect.
-/

set_option linter.unusedTactic false
set_option linter.unreachableTactic false
set_option linter.unusedVariables false
set_option linter.unusedSimpArgs false

namespace Sys2Proof.Machine

theorem areaApply_sys {s : State} {c : WCtx} {x : Val} :
    areaApply s c 0x1F00 0 x = accepted { s with defaultsDue := true } := by
  unfold areaApply
  dsimp only
  try simp only [and_true, true_and]
  repeat first
    | rw [if_neg (by simp only [objKey, K.hapEnable, K.sndEnable, K.pwrReq, K.pwrReset]; omega)]
    | rw [if_neg (by omega)]
    | rw [if_pos (by omega)]
    | rw [if_pos (by simp only [objKey, K.hapEnable, K.sndEnable, K.pwrReq, K.pwrReset]; omega)]
    | rw [if_pos rfl]
  try rfl

theorem areaCheck_sys {s : State} {c : WCtx} {x : Val} :
    areaCheck s c 0x1F00 0 x = .ok := by
  unfold areaCheck
  dsimp only
  try simp only [and_true, true_and]
  repeat first
    | rw [if_neg (by simp only [objKey, K.hapEnable, K.sndEnable, K.pwrReq, K.pwrReset]; omega)]
    | rw [if_neg (by omega)]
    | rw [if_pos (by omega)]
    | rw [if_pos (by simp only [objKey, K.hapEnable, K.sndEnable, K.pwrReq, K.pwrReset]; omega)]
    | rw [if_pos rfl]
  try rfl

theorem areaClaims_sys {s : State} {v : Nat} :
    areaClaims s 0x1F00 0 v = ([], 0) := by
  unfold areaClaims
  dsimp only
  try simp only [and_true, true_and]
  repeat first
    | rw [if_neg (by simp only [objKey, K.hapEnable, K.sndEnable, K.pwrReq, K.pwrReset]; omega)]
    | rw [if_neg (by omega)]
    | rw [if_pos (by omega)]
    | rw [if_pos (by simp only [objKey, K.hapEnable, K.sndEnable, K.pwrReq, K.pwrReset]; omega)]
    | rw [if_pos rfl]
  try rfl

theorem areaAccess_sys {s : State} {c : WCtx} {v : Nat} (hm : c.isMgr = true) :
    areaAccess s c 0x1F00 0 v = true := by
  unfold areaAccess
  dsimp only
  try simp only [and_true, true_and]
  repeat first
    | rw [if_neg (by simp only [objKey, K.hapEnable, K.sndEnable, K.pwrReq, K.pwrReset]; omega)]
    | rw [if_neg (by omega)]
    | rw [if_pos (by omega)]
    | rw [if_pos (by simp only [objKey, K.hapEnable, K.sndEnable, K.pwrReq, K.pwrReset]; omega)]
    | rw [if_pos rfl]
  try rfl
  all_goals try simp [hm]
  all_goals try omega

theorem areaApply_out {s : State} {c : WCtx} {sub : Nat} {x : Val} {p : Nat} (h : p < 8) (hs : sub < 256) :
    areaApply s c (0x2000 + 0x100 * p) sub x = (let r := outApply s c p sub x.toNat
      if sub ≤ 2 then (let r := (spreadSweep r.1, r.2); if sub = 1 then powered r else r) else r) := by
  unfold areaApply
  dsimp only
  try simp only [show (0x2000 + 0x100 * p - 0x2000) / 256 = p by omega, show (0x2000 + 0x100 * p) % 256 = 0 by omega]
  try simp only [and_true, true_and]
  repeat first
    | rw [if_neg (by simp only [objKey, K.hapEnable, K.sndEnable, K.pwrReq, K.pwrReset]; omega)]
    | rw [if_neg (by omega)]
    | rw [if_pos (by omega)]
    | rw [if_pos (by simp only [objKey, K.hapEnable, K.sndEnable, K.pwrReq, K.pwrReset]; omega)]
    | rw [if_pos rfl]
  try rfl

theorem areaCheck_out {s : State} {c : WCtx} {sub : Nat} {x : Val} {p : Nat} (h : p < 8) (hs : sub < 256) :
    areaCheck s c (0x2000 + 0x100 * p) sub x = outCheck s p sub x.toNat := by
  unfold areaCheck
  dsimp only
  try simp only [show (0x2000 + 0x100 * p - 0x2000) / 256 = p by omega, show (0x2000 + 0x100 * p) % 256 = 0 by omega]
  try simp only [and_true, true_and]
  repeat first
    | rw [if_neg (by simp only [objKey, K.hapEnable, K.sndEnable, K.pwrReq, K.pwrReset]; omega)]
    | rw [if_neg (by omega)]
    | rw [if_pos (by omega)]
    | rw [if_pos (by simp only [objKey, K.hapEnable, K.sndEnable, K.pwrReq, K.pwrReset]; omega)]
    | rw [if_pos rfl]
  try rfl

theorem areaClaims_outOther {s : State} {p : Nat} (h : p < 8) {sub v : Nat} (hs : sub < 256) (h1 : sub ≠ 1) :
    areaClaims s (0x2000 + 0x100 * p) sub v = ([], 0) := by
  unfold areaClaims
  dsimp only
  try simp only [show (0x2000 + 0x100 * p - 0x2000) / 256 = p by omega, show (0x2000 + 0x100 * p) % 256 = 0 by omega]
  try simp only [and_true, true_and]
  repeat first
    | rw [if_neg (by simp only [objKey, K.hapEnable, K.sndEnable, K.pwrReq, K.pwrReset]; omega)]
    | rw [if_neg (by omega)]
    | rw [if_pos (by omega)]
    | rw [if_pos (by simp only [objKey, K.hapEnable, K.sndEnable, K.pwrReq, K.pwrReset]; omega)]
    | rw [if_pos rfl]
  try rfl

theorem areaClaims_out {s : State} {v : Nat} {p : Nat} (h : p < 8) :
    areaClaims s (0x2000 + 0x100 * p) 1 v = (outClaims s p v, if v = 1 then 5 else 6) := by
  unfold areaClaims
  dsimp only
  try simp only [show (0x2000 + 0x100 * p - 0x2000) / 256 = p by omega, show (0x2000 + 0x100 * p) % 256 = 0 by omega]
  try simp only [and_true, true_and]
  repeat first
    | rw [if_neg (by simp only [objKey, K.hapEnable, K.sndEnable, K.pwrReq, K.pwrReset]; omega)]
    | rw [if_neg (by omega)]
    | rw [if_pos (by omega)]
    | rw [if_pos (by simp only [objKey, K.hapEnable, K.sndEnable, K.pwrReq, K.pwrReset]; omega)]
    | rw [if_pos rfl]
  try rfl

theorem areaAccess_out {s : State} {c : WCtx} {sub : Nat} {v : Nat} {p : Nat} (h : p < 8) (hs : sub < 256) :
    areaAccess s c (0x2000 + 0x100 * p) sub v = (outAccess s c p sub) := by
  unfold areaAccess
  dsimp only
  try simp only [show (0x2000 + 0x100 * p - 0x2000) / 256 = p by omega, show (0x2000 + 0x100 * p) % 256 = 0 by omega]
  try simp only [and_true, true_and]
  repeat first
    | rw [if_neg (by simp only [objKey, K.hapEnable, K.sndEnable, K.pwrReq, K.pwrReset]; omega)]
    | rw [if_neg (by omega)]
    | rw [if_pos (by omega)]
    | rw [if_pos (by simp only [objKey, K.hapEnable, K.sndEnable, K.pwrReq, K.pwrReset]; omega)]
    | rw [if_pos rfl]
  try rfl

theorem areaApply_ring {s : State} {c : WCtx} {sub : Nat} {x : Val} {i : Nat} (h : i < 256) (hs : sub < 256) :
    areaApply s c (0x3100 + i) sub x = accepted (ringApply s i sub x.toNat) := by
  unfold areaApply
  dsimp only
  try simp only [show 0x3100 + i - 0x3100 = i by omega]
  try simp only [and_true, true_and]
  repeat first
    | rw [if_neg (by simp only [objKey, K.hapEnable, K.sndEnable, K.pwrReq, K.pwrReset]; omega)]
    | rw [if_neg (by omega)]
    | rw [if_pos (by omega)]
    | rw [if_pos (by simp only [objKey, K.hapEnable, K.sndEnable, K.pwrReq, K.pwrReset]; omega)]
    | rw [if_pos rfl]
  try rfl

theorem areaCheck_ring {s : State} {c : WCtx} {sub : Nat} {x : Val} {i : Nat} (h : i < 256) (hs : sub < 256) :
    areaCheck s c (0x3100 + i) sub x = ringCheck s c i sub x.toNat := by
  unfold areaCheck
  dsimp only
  try simp only [show 0x3100 + i - 0x3100 = i by omega]
  try simp only [and_true, true_and]
  repeat first
    | rw [if_neg (by simp only [objKey, K.hapEnable, K.sndEnable, K.pwrReq, K.pwrReset]; omega)]
    | rw [if_neg (by omega)]
    | rw [if_pos (by omega)]
    | rw [if_pos (by simp only [objKey, K.hapEnable, K.sndEnable, K.pwrReq, K.pwrReset]; omega)]
    | rw [if_pos rfl]
  try rfl

theorem areaClaims_ring {s : State} {sub : Nat} {v : Nat} {i : Nat} (h : i < 256) (hs : sub < 256) :
    areaClaims s (0x3100 + i) sub v = ([], 0) := by
  unfold areaClaims
  dsimp only
  try simp only [show 0x3100 + i - 0x3100 = i by omega]
  try simp only [and_true, true_and]
  repeat first
    | rw [if_neg (by simp only [objKey, K.hapEnable, K.sndEnable, K.pwrReq, K.pwrReset]; omega)]
    | rw [if_neg (by omega)]
    | rw [if_pos (by omega)]
    | rw [if_pos (by simp only [objKey, K.hapEnable, K.sndEnable, K.pwrReq, K.pwrReset]; omega)]
    | rw [if_pos rfl]
  try rfl

theorem areaAccess_ring {s : State} {c : WCtx} {sub : Nat} {v : Nat} {i : Nat} (h : i < 256) (hs : sub < 256) :
    areaAccess s c (0x3100 + i) sub v = (ringAccess s c i sub) := by
  unfold areaAccess
  dsimp only
  try simp only [show 0x3100 + i - 0x3100 = i by omega]
  try simp only [and_true, true_and]
  repeat first
    | rw [if_neg (by simp only [objKey, K.hapEnable, K.sndEnable, K.pwrReq, K.pwrReset]; omega)]
    | rw [if_neg (by omega)]
    | rw [if_pos (by omega)]
    | rw [if_pos (by simp only [objKey, K.hapEnable, K.sndEnable, K.pwrReq, K.pwrReset]; omega)]
    | rw [if_pos rfl]
  try rfl

theorem areaApply_ctx {s : State} {c : WCtx} {sub : Nat} {x : Val} {i : Nat} (h : i < 64) (hs : sub < 256) :
    areaApply s c (0x3200 + i) sub x = ctxApply s i sub x.toNat := by
  unfold areaApply
  dsimp only
  try simp only [show 0x3200 + i - 0x3200 = i by omega]
  try simp only [and_true, true_and]
  repeat first
    | rw [if_neg (by simp only [objKey, K.hapEnable, K.sndEnable, K.pwrReq, K.pwrReset]; omega)]
    | rw [if_neg (by omega)]
    | rw [if_pos (by omega)]
    | rw [if_pos (by simp only [objKey, K.hapEnable, K.sndEnable, K.pwrReq, K.pwrReset]; omega)]
    | rw [if_pos rfl]
  try rfl

theorem areaCheck_ctx {s : State} {c : WCtx} {sub : Nat} {x : Val} {i : Nat} (h : i < 64) (hs : sub < 256) :
    areaCheck s c (0x3200 + i) sub x = ctxCheck s i sub x.toNat := by
  unfold areaCheck
  dsimp only
  try simp only [show 0x3200 + i - 0x3200 = i by omega]
  try simp only [and_true, true_and]
  repeat first
    | rw [if_neg (by simp only [objKey, K.hapEnable, K.sndEnable, K.pwrReq, K.pwrReset]; omega)]
    | rw [if_neg (by omega)]
    | rw [if_pos (by omega)]
    | rw [if_pos (by simp only [objKey, K.hapEnable, K.sndEnable, K.pwrReq, K.pwrReset]; omega)]
    | rw [if_pos rfl]
  try rfl

theorem areaClaims_ctx {s : State} {sub : Nat} {v : Nat} {i : Nat} (h : i < 64) (hs : sub < 256) :
    areaClaims s (0x3200 + i) sub v = ([], 0) := by
  unfold areaClaims
  dsimp only
  try simp only [show 0x3200 + i - 0x3200 = i by omega]
  try simp only [and_true, true_and]
  repeat first
    | rw [if_neg (by simp only [objKey, K.hapEnable, K.sndEnable, K.pwrReq, K.pwrReset]; omega)]
    | rw [if_neg (by omega)]
    | rw [if_pos (by omega)]
    | rw [if_pos (by simp only [objKey, K.hapEnable, K.sndEnable, K.pwrReq, K.pwrReset]; omega)]
    | rw [if_pos rfl]
  try rfl

theorem areaAccess_ctx {s : State} {c : WCtx} {sub : Nat} {v : Nat} {i : Nat} (h : i < 64) (hs : sub < 256) :
    areaAccess s c (0x3200 + i) sub v = (ctxAccess s c i sub) := by
  unfold areaAccess
  dsimp only
  try simp only [show 0x3200 + i - 0x3200 = i by omega]
  try simp only [and_true, true_and]
  repeat first
    | rw [if_neg (by simp only [objKey, K.hapEnable, K.sndEnable, K.pwrReq, K.pwrReset]; omega)]
    | rw [if_neg (by omega)]
    | rw [if_pos (by omega)]
    | rw [if_pos (by simp only [objKey, K.hapEnable, K.sndEnable, K.pwrReq, K.pwrReset]; omega)]
    | rw [if_pos rfl]
  try rfl

theorem areaApply_prog {s : State} {c : WCtx} {sub : Nat} {x : Val} {i : Nat} (h : i < 256) (hs : sub < 256) :
    areaApply s c (0x3500 + i) sub x = accepted (progApply s i sub x) := by
  unfold areaApply
  dsimp only
  try simp only [show 0x3500 + i - 0x3500 = i by omega]
  try simp only [and_true, true_and]
  repeat first
    | rw [if_neg (by simp only [objKey, K.hapEnable, K.sndEnable, K.pwrReq, K.pwrReset]; omega)]
    | rw [if_neg (by omega)]
    | rw [if_pos (by omega)]
    | rw [if_pos (by simp only [objKey, K.hapEnable, K.sndEnable, K.pwrReq, K.pwrReset]; omega)]
    | rw [if_pos rfl]
  try rfl

theorem areaCheck_prog {s : State} {c : WCtx} {sub : Nat} {x : Val} {i : Nat} (h : i < 256) (hs : sub < 256) :
    areaCheck s c (0x3500 + i) sub x = progCheck s i sub x.toNat := by
  unfold areaCheck
  dsimp only
  try simp only [show 0x3500 + i - 0x3500 = i by omega]
  try simp only [and_true, true_and]
  repeat first
    | rw [if_neg (by simp only [objKey, K.hapEnable, K.sndEnable, K.pwrReq, K.pwrReset]; omega)]
    | rw [if_neg (by omega)]
    | rw [if_pos (by omega)]
    | rw [if_pos (by simp only [objKey, K.hapEnable, K.sndEnable, K.pwrReq, K.pwrReset]; omega)]
    | rw [if_pos rfl]
  try rfl

theorem areaClaims_prog {s : State} {sub : Nat} {v : Nat} {i : Nat} (h : i < 256) (hs : sub < 256) :
    areaClaims s (0x3500 + i) sub v = ([], 0) := by
  unfold areaClaims
  dsimp only
  try simp only [show 0x3500 + i - 0x3500 = i by omega]
  try simp only [and_true, true_and]
  repeat first
    | rw [if_neg (by simp only [objKey, K.hapEnable, K.sndEnable, K.pwrReq, K.pwrReset]; omega)]
    | rw [if_neg (by omega)]
    | rw [if_pos (by omega)]
    | rw [if_pos (by simp only [objKey, K.hapEnable, K.sndEnable, K.pwrReq, K.pwrReset]; omega)]
    | rw [if_pos rfl]
  try rfl

theorem areaAccess_prog {s : State} {c : WCtx} {sub : Nat} {v : Nat} {i : Nat} (h : i < 256) (hs : sub < 256) :
    areaAccess s c (0x3500 + i) sub v = (progAccess s c i sub v) := by
  unfold areaAccess
  dsimp only
  try simp only [show 0x3500 + i - 0x3500 = i by omega]
  try simp only [and_true, true_and]
  repeat first
    | rw [if_neg (by simp only [objKey, K.hapEnable, K.sndEnable, K.pwrReq, K.pwrReset]; omega)]
    | rw [if_neg (by omega)]
    | rw [if_pos (by omega)]
    | rw [if_pos (by simp only [objKey, K.hapEnable, K.sndEnable, K.pwrReq, K.pwrReset]; omega)]
    | rw [if_pos rfl]
  try rfl

theorem areaApply_fence {s : State} {c : WCtx} {sub : Nat} {x : Val} {i : Nat} (h : i < 256) (hs : sub < 256) :
    areaApply s c (0x3700 + i) sub x = accepted (fenceApply s i sub x.toNat) := by
  unfold areaApply
  dsimp only
  try simp only [show 0x3700 + i - 0x3700 = i by omega]
  try simp only [and_true, true_and]
  repeat first
    | rw [if_neg (by simp only [objKey, K.hapEnable, K.sndEnable, K.pwrReq, K.pwrReset]; omega)]
    | rw [if_neg (by omega)]
    | rw [if_pos (by omega)]
    | rw [if_pos (by simp only [objKey, K.hapEnable, K.sndEnable, K.pwrReq, K.pwrReset]; omega)]
    | rw [if_pos rfl]
  try rfl

theorem areaCheck_fence {s : State} {c : WCtx} {sub : Nat} {x : Val} {i : Nat} (h : i < 256) (hs : sub < 256) :
    areaCheck s c (0x3700 + i) sub x = fenceCheck s i sub x.toNat := by
  unfold areaCheck
  dsimp only
  try simp only [show 0x3700 + i - 0x3700 = i by omega]
  try simp only [and_true, true_and]
  repeat first
    | rw [if_neg (by simp only [objKey, K.hapEnable, K.sndEnable, K.pwrReq, K.pwrReset]; omega)]
    | rw [if_neg (by omega)]
    | rw [if_pos (by omega)]
    | rw [if_pos (by simp only [objKey, K.hapEnable, K.sndEnable, K.pwrReq, K.pwrReset]; omega)]
    | rw [if_pos rfl]
  try rfl

theorem areaClaims_fence {s : State} {sub : Nat} {v : Nat} {i : Nat} (h : i < 256) (hs : sub < 256) :
    areaClaims s (0x3700 + i) sub v = ([], 0) := by
  unfold areaClaims
  dsimp only
  try simp only [show 0x3700 + i - 0x3700 = i by omega]
  try simp only [and_true, true_and]
  repeat first
    | rw [if_neg (by simp only [objKey, K.hapEnable, K.sndEnable, K.pwrReq, K.pwrReset]; omega)]
    | rw [if_neg (by omega)]
    | rw [if_pos (by omega)]
    | rw [if_pos (by simp only [objKey, K.hapEnable, K.sndEnable, K.pwrReq, K.pwrReset]; omega)]
    | rw [if_pos rfl]
  try rfl

theorem areaAccess_fence {s : State} {c : WCtx} {sub : Nat} {v : Nat} {i : Nat} (h : i < 256) (hs : sub < 256) :
    areaAccess s c (0x3700 + i) sub v = (fenceAccess s c i sub v) := by
  unfold areaAccess
  dsimp only
  try simp only [show 0x3700 + i - 0x3700 = i by omega]
  try simp only [and_true, true_and]
  repeat first
    | rw [if_neg (by simp only [objKey, K.hapEnable, K.sndEnable, K.pwrReq, K.pwrReset]; omega)]
    | rw [if_neg (by omega)]
    | rw [if_pos (by omega)]
    | rw [if_pos (by simp only [objKey, K.hapEnable, K.sndEnable, K.pwrReq, K.pwrReset]; omega)]
    | rw [if_pos rfl]
  try rfl

theorem areaApply_surf {s : State} {c : WCtx} {sub : Nat} {x : Val} {i : Nat} (h : i < 2048) (hs : sub < 256) :
    areaApply s c (0x3800 + i) sub x = accepted (surfApply s i sub x.toNat) := by
  unfold areaApply
  dsimp only
  try simp only [show 0x3800 + i - 0x3800 = i by omega]
  try simp only [and_true, true_and]
  repeat first
    | rw [if_neg (by simp only [objKey, K.hapEnable, K.sndEnable, K.pwrReq, K.pwrReset]; omega)]
    | rw [if_neg (by omega)]
    | rw [if_pos (by omega)]
    | rw [if_pos (by simp only [objKey, K.hapEnable, K.sndEnable, K.pwrReq, K.pwrReset]; omega)]
    | rw [if_pos rfl]
  try rfl

theorem areaCheck_surf {s : State} {c : WCtx} {sub : Nat} {x : Val} {i : Nat} (h : i < 2048) (hs : sub < 256) :
    areaCheck s c (0x3800 + i) sub x = surfCheck s i sub x.toNat := by
  unfold areaCheck
  dsimp only
  try simp only [show 0x3800 + i - 0x3800 = i by omega]
  try simp only [and_true, true_and]
  repeat first
    | rw [if_neg (by simp only [objKey, K.hapEnable, K.sndEnable, K.pwrReq, K.pwrReset]; omega)]
    | rw [if_neg (by omega)]
    | rw [if_pos (by omega)]
    | rw [if_pos (by simp only [objKey, K.hapEnable, K.sndEnable, K.pwrReq, K.pwrReset]; omega)]
    | rw [if_pos rfl]
  try rfl

theorem areaClaims_surf {s : State} {sub : Nat} {v : Nat} {i : Nat} (h : i < 2048) (hs : sub < 256) :
    areaClaims s (0x3800 + i) sub v = ([], 0) := by
  unfold areaClaims
  dsimp only
  try simp only [show 0x3800 + i - 0x3800 = i by omega]
  try simp only [and_true, true_and]
  repeat first
    | rw [if_neg (by simp only [objKey, K.hapEnable, K.sndEnable, K.pwrReq, K.pwrReset]; omega)]
    | rw [if_neg (by omega)]
    | rw [if_pos (by omega)]
    | rw [if_pos (by simp only [objKey, K.hapEnable, K.sndEnable, K.pwrReq, K.pwrReset]; omega)]
    | rw [if_pos rfl]
  try rfl

theorem areaAccess_surf {s : State} {c : WCtx} {sub : Nat} {v : Nat} {i : Nat} (h : i < 2048) (hs : sub < 256) :
    areaAccess s c (0x3800 + i) sub v = (surfAccess s c i sub v) := by
  unfold areaAccess
  dsimp only
  try simp only [show 0x3800 + i - 0x3800 = i by omega]
  try simp only [and_true, true_and]
  repeat first
    | rw [if_neg (by simp only [objKey, K.hapEnable, K.sndEnable, K.pwrReq, K.pwrReset]; omega)]
    | rw [if_neg (by omega)]
    | rw [if_pos (by omega)]
    | rw [if_pos (by simp only [objKey, K.hapEnable, K.sndEnable, K.pwrReq, K.pwrReset]; omega)]
    | rw [if_pos rfl]
  try rfl

theorem areaApply_mem {s : State} {c : WCtx} {x : Val} :
    areaApply s c 0x4000 14 x = accepted (memApply s K.memRetireReq x.toNat) := by
  unfold areaApply
  dsimp only
  try simp only [and_true, true_and]
  repeat first
    | rw [if_neg (by simp only [objKey, K.hapEnable, K.sndEnable, K.pwrReq, K.pwrReset]; omega)]
    | rw [if_neg (by omega)]
    | rw [if_pos (by omega)]
    | rw [if_pos (by simp only [objKey, K.hapEnable, K.sndEnable, K.pwrReq, K.pwrReset]; omega)]
    | rw [if_pos rfl]
  try rfl

theorem areaCheck_mem {s : State} {c : WCtx} {x : Val} :
    areaCheck s c 0x4000 14 x = memCheck s K.memRetireReq x.toNat := by
  unfold areaCheck
  dsimp only
  try simp only [and_true, true_and]
  repeat first
    | rw [if_neg (by simp only [objKey, K.hapEnable, K.sndEnable, K.pwrReq, K.pwrReset]; omega)]
    | rw [if_neg (by omega)]
    | rw [if_pos (by omega)]
    | rw [if_pos (by simp only [objKey, K.hapEnable, K.sndEnable, K.pwrReq, K.pwrReset]; omega)]
    | rw [if_pos rfl]
  try rfl

theorem areaClaims_mem {s : State} {v : Nat} :
    areaClaims s 0x4000 14 v = ([], 0) := by
  unfold areaClaims
  dsimp only
  try simp only [and_true, true_and]
  repeat first
    | rw [if_neg (by simp only [objKey, K.hapEnable, K.sndEnable, K.pwrReq, K.pwrReset]; omega)]
    | rw [if_neg (by omega)]
    | rw [if_pos (by omega)]
    | rw [if_pos (by simp only [objKey, K.hapEnable, K.sndEnable, K.pwrReq, K.pwrReset]; omega)]
    | rw [if_pos rfl]
  try rfl

theorem areaAccess_mem {s : State} {c : WCtx} {v : Nat} (hm : c.isMgr = true) :
    areaAccess s c 0x4000 14 v = true := by
  unfold areaAccess
  dsimp only
  try simp only [and_true, true_and]
  repeat first
    | rw [if_neg (by simp only [objKey, K.hapEnable, K.sndEnable, K.pwrReq, K.pwrReset]; omega)]
    | rw [if_neg (by omega)]
    | rw [if_pos (by omega)]
    | rw [if_pos (by simp only [objKey, K.hapEnable, K.sndEnable, K.pwrReq, K.pwrReset]; omega)]
    | rw [if_pos rfl]
  try rfl
  all_goals try simp [hm]
  all_goals try omega

theorem areaApply_inj {s : State} {c : WCtx} {x : Val} :
    areaApply s c 0xF400 6 x = accepted (memApply s K.memInjArm x.toNat) := by
  unfold areaApply
  dsimp only
  try simp only [and_true, true_and]
  repeat first
    | rw [if_neg (by simp only [objKey, K.hapEnable, K.sndEnable, K.pwrReq, K.pwrReset]; omega)]
    | rw [if_neg (by omega)]
    | rw [if_pos (by omega)]
    | rw [if_pos (by simp only [objKey, K.hapEnable, K.sndEnable, K.pwrReq, K.pwrReset]; omega)]
    | rw [if_pos rfl]
  try rfl

theorem areaCheck_inj {s : State} {c : WCtx} {x : Val} :
    areaCheck s c 0xF400 6 x = .ok := by
  unfold areaCheck
  dsimp only
  try simp only [and_true, true_and]
  repeat first
    | rw [if_neg (by simp only [objKey, K.hapEnable, K.sndEnable, K.pwrReq, K.pwrReset]; omega)]
    | rw [if_neg (by omega)]
    | rw [if_pos (by omega)]
    | rw [if_pos (by simp only [objKey, K.hapEnable, K.sndEnable, K.pwrReq, K.pwrReset]; omega)]
    | rw [if_pos rfl]
  try rfl

theorem areaClaims_inj {s : State} {v : Nat} :
    areaClaims s 0xF400 6 v = ([], 0) := by
  unfold areaClaims
  dsimp only
  try simp only [and_true, true_and]
  repeat first
    | rw [if_neg (by simp only [objKey, K.hapEnable, K.sndEnable, K.pwrReq, K.pwrReset]; omega)]
    | rw [if_neg (by omega)]
    | rw [if_pos (by omega)]
    | rw [if_pos (by simp only [objKey, K.hapEnable, K.sndEnable, K.pwrReq, K.pwrReset]; omega)]
    | rw [if_pos rfl]
  try rfl

theorem areaAccess_inj {s : State} {c : WCtx} {v : Nat} :
    areaAccess s c 0xF400 6 v = (c.isMgr && (false || getB s K.diagEnable)) := by
  unfold areaAccess
  dsimp only
  try simp only [and_true, true_and]
  repeat first
    | rw [if_neg (by simp only [objKey, K.hapEnable, K.sndEnable, K.pwrReq, K.pwrReset]; omega)]
    | rw [if_neg (by omega)]
    | rw [if_pos (by omega)]
    | rw [if_pos (by simp only [objKey, K.hapEnable, K.sndEnable, K.pwrReq, K.pwrReset]; omega)]
    | rw [if_pos rfl]
  try rfl

theorem areaApply_panel {s : State} {c : WCtx} {sub : Nat} {x : Val} {i : Nat} (h : i < 4) (hs : sub < 256) :
    areaApply s c (0x4420 + i) sub x = (if sub = 1 then powered (panelApply s i sub x) else panelApply s i sub x) := by
  unfold areaApply
  dsimp only
  try simp only [show 0x4420 + i - 0x4420 = i by omega]
  try simp only [and_true, true_and]
  repeat first
    | rw [if_neg (by simp only [objKey, K.hapEnable, K.sndEnable, K.pwrReq, K.pwrReset]; omega)]
    | rw [if_neg (by omega)]
    | rw [if_pos (by omega)]
    | rw [if_pos (by simp only [objKey, K.hapEnable, K.sndEnable, K.pwrReq, K.pwrReset]; omega)]
    | rw [if_pos rfl]
  try rfl

theorem areaCheck_panel {s : State} {c : WCtx} {sub : Nat} {x : Val} {i : Nat} (h : i < 4) (hs : sub < 256) :
    areaCheck s c (0x4420 + i) sub x = panelCheck s i sub x := by
  unfold areaCheck
  dsimp only
  try simp only [show 0x4420 + i - 0x4420 = i by omega]
  try simp only [and_true, true_and]
  repeat first
    | rw [if_neg (by simp only [objKey, K.hapEnable, K.sndEnable, K.pwrReq, K.pwrReset]; omega)]
    | rw [if_neg (by omega)]
    | rw [if_pos (by omega)]
    | rw [if_pos (by simp only [objKey, K.hapEnable, K.sndEnable, K.pwrReq, K.pwrReset]; omega)]
    | rw [if_pos rfl]
  try rfl

theorem areaClaims_panelOther {s : State} {i : Nat} (h : i < 4) {sub v : Nat} (hs : sub < 256) (h1 : sub ≠ 1) :
    areaClaims s (0x4420 + i) sub v = ([], 0) := by
  unfold areaClaims
  dsimp only
  try simp only [show 0x4420 + i - 0x4420 = i by omega]
  try simp only [and_true, true_and]
  repeat first
    | rw [if_neg (by simp only [objKey, K.hapEnable, K.sndEnable, K.pwrReq, K.pwrReset]; omega)]
    | rw [if_neg (by omega)]
    | rw [if_pos (by omega)]
    | rw [if_pos (by simp only [objKey, K.hapEnable, K.sndEnable, K.pwrReq, K.pwrReset]; omega)]
    | rw [if_pos rfl]
  try rfl

theorem areaClaims_panel {s : State} {v : Nat} {i : Nat} (h : i < 4) :
    areaClaims s (0x4420 + i) 1 v = (enableClaims s (objKey (0x4420 + i) 1) (v == 1) (panSt s i == panStopping) ((panelChips s i).map chipDomain), 5) := by
  unfold areaClaims
  dsimp only
  try simp only [show 0x4420 + i - 0x4420 = i by omega]
  try simp only [and_true, true_and]
  repeat first
    | rw [if_neg (by simp only [objKey, K.hapEnable, K.sndEnable, K.pwrReq, K.pwrReset]; omega)]
    | rw [if_neg (by omega)]
    | rw [if_pos (by omega)]
    | rw [if_pos (by simp only [objKey, K.hapEnable, K.sndEnable, K.pwrReq, K.pwrReset]; omega)]
    | rw [if_pos rfl]
  try rfl

theorem areaAccess_panel {s : State} {c : WCtx} {sub : Nat} {v : Nat} {i : Nat} (h : i < 4) (hs : sub < 256) (hm : c.isMgr = true) :
    areaAccess s c (0x4420 + i) sub v = true := by
  unfold areaAccess
  dsimp only
  try simp only [show 0x4420 + i - 0x4420 = i by omega]
  try simp only [and_true, true_and]
  repeat first
    | rw [if_neg (by simp only [objKey, K.hapEnable, K.sndEnable, K.pwrReq, K.pwrReset]; omega)]
    | rw [if_neg (by omega)]
    | rw [if_pos (by omega)]
    | rw [if_pos (by simp only [objKey, K.hapEnable, K.sndEnable, K.pwrReq, K.pwrReset]; omega)]
    | rw [if_pos rfl]
  try rfl
  all_goals try simp [hm]
  all_goals try omega

theorem areaApply_hapEnable {s : State} {c : WCtx} {x : Val} :
    areaApply s c 0x4800 1 x = powered (hapEnableApply s (x.toNat == 1)) := by
  unfold areaApply
  dsimp only
  try simp only [and_true, true_and]
  repeat first
    | rw [if_neg (by simp only [objKey, K.hapEnable, K.sndEnable, K.pwrReq, K.pwrReset]; omega)]
    | rw [if_neg (by omega)]
    | rw [if_pos (by omega)]
    | rw [if_pos (by simp only [objKey, K.hapEnable, K.sndEnable, K.pwrReq, K.pwrReset]; omega)]
    | rw [if_pos rfl]
  try rfl

theorem areaCheck_hapEnable {s : State} {c : WCtx} {x : Val} :
    areaCheck s c 0x4800 1 x = hapCheck s 0x4800 1 := by
  unfold areaCheck
  dsimp only
  try simp only [and_true, true_and]
  repeat first
    | rw [if_neg (by simp only [objKey, K.hapEnable, K.sndEnable, K.pwrReq, K.pwrReset]; omega)]
    | rw [if_neg (by omega)]
    | rw [if_pos (by omega)]
    | rw [if_pos (by simp only [objKey, K.hapEnable, K.sndEnable, K.pwrReq, K.pwrReset]; omega)]
    | rw [if_pos rfl]
  try rfl

theorem areaClaims_hapEnable {s : State} {v : Nat} :
    areaClaims s 0x4800 1 v = (enableClaims s K.hapEnable (v == 1) (getN s K.hapState == hapStopping) [21], 5) := by
  unfold areaClaims
  dsimp only
  try simp only [and_true, true_and]
  repeat first
    | rw [if_neg (by simp only [objKey, K.hapEnable, K.sndEnable, K.pwrReq, K.pwrReset]; omega)]
    | rw [if_neg (by omega)]
    | rw [if_pos (by omega)]
    | rw [if_pos (by simp only [objKey, K.hapEnable, K.sndEnable, K.pwrReq, K.pwrReset]; omega)]
    | rw [if_pos rfl]
  try rfl

theorem areaAccess_hapEnable {s : State} {c : WCtx} {v : Nat} (hm : c.isMgr = true) :
    areaAccess s c 0x4800 1 v = true := by
  unfold areaAccess
  dsimp only
  try simp only [and_true, true_and]
  repeat first
    | rw [if_neg (by simp only [objKey, K.hapEnable, K.sndEnable, K.pwrReq, K.pwrReset]; omega)]
    | rw [if_neg (by omega)]
    | rw [if_pos (by omega)]
    | rw [if_pos (by simp only [objKey, K.hapEnable, K.sndEnable, K.pwrReq, K.pwrReset]; omega)]
    | rw [if_pos rfl]
  try rfl
  all_goals try simp [hm]
  all_goals try omega

theorem areaApply_chan {s : State} {c : WCtx} {x : Val} {i : Nat} (h : i < 16) :
    areaApply s c (0x4810 + i) 17 x = accepted (match c.found with
      | some cap => resetChannel s i cap
      | none => chanApply s i 17 x.toNat) := by
  unfold areaApply
  dsimp only
  try simp only [show 0x4810 + i - 0x4810 = i by omega]
  try simp only [and_true, true_and]
  repeat first
    | rw [if_neg (by simp only [objKey, K.hapEnable, K.sndEnable, K.pwrReq, K.pwrReset]; omega)]
    | rw [if_neg (by omega)]
    | rw [if_pos (by omega)]
    | rw [if_pos (by simp only [objKey, K.hapEnable, K.sndEnable, K.pwrReq, K.pwrReset]; omega)]
    | rw [if_pos rfl]
  try rfl

theorem areaCheck_chan {s : State} {c : WCtx} {x : Val} {i : Nat} (h : i < 16) :
    areaCheck s c (0x4810 + i) 17 x = hapCheck s (0x4810 + i) 17 := by
  unfold areaCheck
  dsimp only
  try simp only [show 0x4810 + i - 0x4810 = i by omega]
  try simp only [and_true, true_and]
  repeat first
    | rw [if_neg (by simp only [objKey, K.hapEnable, K.sndEnable, K.pwrReq, K.pwrReset]; omega)]
    | rw [if_neg (by omega)]
    | rw [if_pos (by omega)]
    | rw [if_pos (by simp only [objKey, K.hapEnable, K.sndEnable, K.pwrReq, K.pwrReset]; omega)]
    | rw [if_pos rfl]
  try rfl

theorem areaClaims_chan {s : State} {v : Nat} {i : Nat} (h : i < 16) :
    areaClaims s (0x4810 + i) 17 v = ([], 0) := by
  unfold areaClaims
  dsimp only
  try simp only [show 0x4810 + i - 0x4810 = i by omega]
  try simp only [and_true, true_and]
  repeat first
    | rw [if_neg (by simp only [objKey, K.hapEnable, K.sndEnable, K.pwrReq, K.pwrReset]; omega)]
    | rw [if_neg (by omega)]
    | rw [if_pos (by omega)]
    | rw [if_pos (by simp only [objKey, K.hapEnable, K.sndEnable, K.pwrReq, K.pwrReset]; omega)]
    | rw [if_pos rfl]
  try rfl

theorem areaAccess_chan {s : State} {c : WCtx} {v : Nat} {i : Nat} (h : i < 16) (hm : c.isMgr = true) :
    areaAccess s c (0x4810 + i) 17 v = true := by
  unfold areaAccess
  dsimp only
  try simp only [show 0x4810 + i - 0x4810 = i by omega]
  try simp only [and_true, true_and]
  repeat first
    | rw [if_neg (by simp only [objKey, K.hapEnable, K.sndEnable, K.pwrReq, K.pwrReset]; omega)]
    | rw [if_neg (by omega)]
    | rw [if_pos (by omega)]
    | rw [if_pos (by simp only [objKey, K.hapEnable, K.sndEnable, K.pwrReq, K.pwrReset]; omega)]
    | rw [if_pos rfl]
  try rfl
  all_goals try simp [hm]
  all_goals try omega

theorem areaApply_sndEnable {s : State} {c : WCtx} {x : Val} :
    areaApply s c 0x4C00 1 x = powered (sndEnableApply s (x.toNat == 1)) := by
  unfold areaApply
  dsimp only
  try simp only [and_true, true_and]
  repeat first
    | rw [if_neg (by simp only [objKey, K.hapEnable, K.sndEnable, K.pwrReq, K.pwrReset]; omega)]
    | rw [if_neg (by omega)]
    | rw [if_pos (by omega)]
    | rw [if_pos (by simp only [objKey, K.hapEnable, K.sndEnable, K.pwrReq, K.pwrReset]; omega)]
    | rw [if_pos rfl]
  try rfl

theorem areaCheck_sndEnable {s : State} {c : WCtx} {x : Val} :
    areaCheck s c 0x4C00 1 x = .ok := by
  unfold areaCheck
  dsimp only
  try simp only [and_true, true_and]
  repeat first
    | rw [if_neg (by simp only [objKey, K.hapEnable, K.sndEnable, K.pwrReq, K.pwrReset]; omega)]
    | rw [if_neg (by omega)]
    | rw [if_pos (by omega)]
    | rw [if_pos (by simp only [objKey, K.hapEnable, K.sndEnable, K.pwrReq, K.pwrReset]; omega)]
    | rw [if_pos rfl]
  try rfl

theorem areaClaims_sndEnable {s : State} {v : Nat} :
    areaClaims s 0x4C00 1 v = (enableClaims s K.sndEnable (v == 1) (sndSt s == sndStopping) [22], 5) := by
  unfold areaClaims
  dsimp only
  try simp only [and_true, true_and]
  repeat first
    | rw [if_neg (by simp only [objKey, K.hapEnable, K.sndEnable, K.pwrReq, K.pwrReset]; omega)]
    | rw [if_neg (by omega)]
    | rw [if_pos (by omega)]
    | rw [if_pos (by simp only [objKey, K.hapEnable, K.sndEnable, K.pwrReq, K.pwrReset]; omega)]
    | rw [if_pos rfl]
  try rfl

theorem areaAccess_sndEnable {s : State} {c : WCtx} {v : Nat} (hm : c.isMgr = true) :
    areaAccess s c 0x4C00 1 v = true := by
  unfold areaAccess
  dsimp only
  try simp only [and_true, true_and]
  repeat first
    | rw [if_neg (by simp only [objKey, K.hapEnable, K.sndEnable, K.pwrReq, K.pwrReset]; omega)]
    | rw [if_neg (by omega)]
    | rw [if_pos (by omega)]
    | rw [if_pos (by simp only [objKey, K.hapEnable, K.sndEnable, K.pwrReq, K.pwrReset]; omega)]
    | rw [if_pos rfl]
  try rfl
  all_goals try simp [hm]
  all_goals try omega

theorem areaApply_inStream {s : State} {c : WCtx} {sub : Nat} {x : Val} {i : Nat} (h : i < 64) (hs : sub < 256) :
    areaApply s c (0x4C10 + i) sub x = accepted (streamApply s false i sub x.toNat) := by
  unfold areaApply
  dsimp only
  try simp only [show 0x4C10 + i - 0x4C10 = i by omega]
  try simp only [and_true, true_and]
  repeat first
    | rw [if_neg (by simp only [objKey, K.hapEnable, K.sndEnable, K.pwrReq, K.pwrReset]; omega)]
    | rw [if_neg (by omega)]
    | rw [if_pos (by omega)]
    | rw [if_pos (by simp only [objKey, K.hapEnable, K.sndEnable, K.pwrReq, K.pwrReset]; omega)]
    | rw [if_pos rfl]
  try rfl

theorem areaCheck_inStream {s : State} {c : WCtx} {sub : Nat} {x : Val} {i : Nat} (h : i < 64) (hs : sub < 256) :
    areaCheck s c (0x4C10 + i) sub x = streamCheck s false i sub x.toNat := by
  unfold areaCheck
  dsimp only
  try simp only [show 0x4C10 + i - 0x4C10 = i by omega]
  try simp only [and_true, true_and]
  repeat first
    | rw [if_neg (by simp only [objKey, K.hapEnable, K.sndEnable, K.pwrReq, K.pwrReset]; omega)]
    | rw [if_neg (by omega)]
    | rw [if_pos (by omega)]
    | rw [if_pos (by simp only [objKey, K.hapEnable, K.sndEnable, K.pwrReq, K.pwrReset]; omega)]
    | rw [if_pos rfl]
  try rfl

theorem areaClaims_inStream {s : State} {sub : Nat} {v : Nat} {i : Nat} (h : i < 64) (hs : sub < 256) :
    areaClaims s (0x4C10 + i) sub v = ([], 0) := by
  unfold areaClaims
  dsimp only
  try simp only [show 0x4C10 + i - 0x4C10 = i by omega]
  try simp only [and_true, true_and]
  repeat first
    | rw [if_neg (by simp only [objKey, K.hapEnable, K.sndEnable, K.pwrReq, K.pwrReset]; omega)]
    | rw [if_neg (by omega)]
    | rw [if_pos (by omega)]
    | rw [if_pos (by simp only [objKey, K.hapEnable, K.sndEnable, K.pwrReq, K.pwrReset]; omega)]
    | rw [if_pos rfl]
  try rfl

theorem areaAccess_inStream {s : State} {c : WCtx} {sub : Nat} {v : Nat} {i : Nat} (h : i < 64) (hs : sub < 256) :
    areaAccess s c (0x4C10 + i) sub v = (streamAccess s c false i sub) := by
  unfold areaAccess
  dsimp only
  try simp only [show 0x4C10 + i - 0x4C10 = i by omega]
  try simp only [and_true, true_and]
  repeat first
    | rw [if_neg (by simp only [objKey, K.hapEnable, K.sndEnable, K.pwrReq, K.pwrReset]; omega)]
    | rw [if_neg (by omega)]
    | rw [if_pos (by omega)]
    | rw [if_pos (by simp only [objKey, K.hapEnable, K.sndEnable, K.pwrReq, K.pwrReset]; omega)]
    | rw [if_pos rfl]
  try rfl

theorem areaApply_capStream {s : State} {c : WCtx} {sub : Nat} {x : Val} {i : Nat} (h : i < 16) (hs : sub < 256) :
    areaApply s c (0x4C60 + i) sub x = accepted (streamApply s true i sub x.toNat) := by
  unfold areaApply
  dsimp only
  try simp only [show 0x4C60 + i - 0x4C60 = i by omega]
  try simp only [and_true, true_and]
  repeat first
    | rw [if_neg (by simp only [objKey, K.hapEnable, K.sndEnable, K.pwrReq, K.pwrReset]; omega)]
    | rw [if_neg (by omega)]
    | rw [if_pos (by omega)]
    | rw [if_pos (by simp only [objKey, K.hapEnable, K.sndEnable, K.pwrReq, K.pwrReset]; omega)]
    | rw [if_pos rfl]
  try rfl

theorem areaCheck_capStream {s : State} {c : WCtx} {sub : Nat} {x : Val} {i : Nat} (h : i < 16) (hs : sub < 256) :
    areaCheck s c (0x4C60 + i) sub x = streamCheck s true i sub x.toNat := by
  unfold areaCheck
  dsimp only
  try simp only [show 0x4C60 + i - 0x4C60 = i by omega]
  try simp only [and_true, true_and]
  repeat first
    | rw [if_neg (by simp only [objKey, K.hapEnable, K.sndEnable, K.pwrReq, K.pwrReset]; omega)]
    | rw [if_neg (by omega)]
    | rw [if_pos (by omega)]
    | rw [if_pos (by simp only [objKey, K.hapEnable, K.sndEnable, K.pwrReq, K.pwrReset]; omega)]
    | rw [if_pos rfl]
  try rfl

theorem areaClaims_capStream {s : State} {sub : Nat} {v : Nat} {i : Nat} (h : i < 16) (hs : sub < 256) :
    areaClaims s (0x4C60 + i) sub v = ([], 0) := by
  unfold areaClaims
  dsimp only
  try simp only [show 0x4C60 + i - 0x4C60 = i by omega]
  try simp only [and_true, true_and]
  repeat first
    | rw [if_neg (by simp only [objKey, K.hapEnable, K.sndEnable, K.pwrReq, K.pwrReset]; omega)]
    | rw [if_neg (by omega)]
    | rw [if_pos (by omega)]
    | rw [if_pos (by simp only [objKey, K.hapEnable, K.sndEnable, K.pwrReq, K.pwrReset]; omega)]
    | rw [if_pos rfl]
  try rfl

theorem areaAccess_capStream {s : State} {c : WCtx} {sub : Nat} {v : Nat} {i : Nat} (h : i < 16) (hs : sub < 256) :
    areaAccess s c (0x4C60 + i) sub v = (streamAccess s c true i sub) := by
  unfold areaAccess
  dsimp only
  try simp only [show 0x4C60 + i - 0x4C60 = i by omega]
  try simp only [and_true, true_and]
  repeat first
    | rw [if_neg (by simp only [objKey, K.hapEnable, K.sndEnable, K.pwrReq, K.pwrReset]; omega)]
    | rw [if_neg (by omega)]
    | rw [if_pos (by omega)]
    | rw [if_pos (by simp only [objKey, K.hapEnable, K.sndEnable, K.pwrReq, K.pwrReset]; omega)]
    | rw [if_pos rfl]
  try rfl

theorem areaApply_vf {s : State} {c : WCtx} {x : Val} {n : Nat} (h : 0 < n) (h2 : n < 64) :
    areaApply s c (0x6000 + 0x40 * n) 1 x = vfEnableApply s n (x.toNat == 1) := by
  unfold areaApply
  dsimp only
  try simp only [show (0x6000 + 0x40 * n - 0x6000) / 0x40 = n by omega, show (0x6000 + 0x40 * n) % 0x40 = 0 by omega]
  try simp only [and_true, true_and]
  repeat first
    | rw [if_neg (by simp only [objKey, K.hapEnable, K.sndEnable, K.pwrReq, K.pwrReset]; omega)]
    | rw [if_neg (by omega)]
    | rw [if_pos (by omega)]
    | rw [if_pos (by simp only [objKey, K.hapEnable, K.sndEnable, K.pwrReq, K.pwrReset]; omega)]
    | rw [if_pos rfl]
  try rfl

theorem areaCheck_vf {s : State} {c : WCtx} {x : Val} {n : Nat} (h : 0 < n) (h2 : n < 64) :
    areaCheck s c (0x6000 + 0x40 * n) 1 x = vfEnableCheck s n x.toNat := by
  unfold areaCheck
  dsimp only
  try simp only [show (0x6000 + 0x40 * n - 0x6000) / 0x40 = n by omega, show (0x6000 + 0x40 * n) % 0x40 = 0 by omega]
  try simp only [and_true, true_and]
  repeat first
    | rw [if_neg (by simp only [objKey, K.hapEnable, K.sndEnable, K.pwrReq, K.pwrReset]; omega)]
    | rw [if_neg (by omega)]
    | rw [if_pos (by omega)]
    | rw [if_pos (by simp only [objKey, K.hapEnable, K.sndEnable, K.pwrReq, K.pwrReset]; omega)]
    | rw [if_pos rfl]
  try rfl

theorem areaClaims_vf {s : State} {v : Nat} {n : Nat} (h : 0 < n) (h2 : n < 64) :
    areaClaims s (0x6000 + 0x40 * n) 1 v = ([], 0) := by
  unfold areaClaims
  dsimp only
  try simp only [show (0x6000 + 0x40 * n - 0x6000) / 0x40 = n by omega, show (0x6000 + 0x40 * n) % 0x40 = 0 by omega]
  try simp only [and_true, true_and]
  repeat first
    | rw [if_neg (by simp only [objKey, K.hapEnable, K.sndEnable, K.pwrReq, K.pwrReset]; omega)]
    | rw [if_neg (by omega)]
    | rw [if_pos (by omega)]
    | rw [if_pos (by simp only [objKey, K.hapEnable, K.sndEnable, K.pwrReq, K.pwrReset]; omega)]
    | rw [if_pos rfl]
  try rfl

theorem areaAccess_vf {s : State} {c : WCtx} {v : Nat} {n : Nat} (h : 0 < n) (h2 : n < 64) (hm : c.isMgr = true) :
    areaAccess s c (0x6000 + 0x40 * n) 1 v = true := by
  unfold areaAccess
  dsimp only
  try simp only [show (0x6000 + 0x40 * n - 0x6000) / 0x40 = n by omega, show (0x6000 + 0x40 * n) % 0x40 = 0 by omega]
  try simp only [and_true, true_and]
  repeat first
    | rw [if_neg (by simp only [objKey, K.hapEnable, K.sndEnable, K.pwrReq, K.pwrReset]; omega)]
    | rw [if_neg (by omega)]
    | rw [if_pos (by omega)]
    | rw [if_pos (by simp only [objKey, K.hapEnable, K.sndEnable, K.pwrReq, K.pwrReset]; omega)]
    | rw [if_pos rfl]
  try rfl
  all_goals try simp [hm]
  all_goals try omega

theorem areaApply_vfFlr {s : State} {c : WCtx} {x : Val} {n : Nat} (h : 0 < n) (h2 : n < 64) :
    areaApply s c (0x6000 + 0x40 * n) 3 x = accepted (vfFlrApply s n) := by
  unfold areaApply
  dsimp only
  try simp only [show (0x6000 + 0x40 * n - 0x6000) / 0x40 = n by omega, show (0x6000 + 0x40 * n) % 0x40 = 0 by omega]
  try simp only [and_true, true_and]
  repeat first
    | rw [if_neg (by simp only [objKey, K.hapEnable, K.sndEnable, K.pwrReq, K.pwrReset]; omega)]
    | rw [if_neg (by omega)]
    | rw [if_pos (by omega)]
    | rw [if_pos (by simp only [objKey, K.hapEnable, K.sndEnable, K.pwrReq, K.pwrReset]; omega)]
    | rw [if_pos rfl]
  try rfl

theorem areaCheck_vfFlr {s : State} {c : WCtx} {x : Val} {n : Nat} (h : 0 < n) (h2 : n < 64) :
    areaCheck s c (0x6000 + 0x40 * n) 3 x = .ok := by
  unfold areaCheck
  dsimp only
  try simp only [show (0x6000 + 0x40 * n - 0x6000) / 0x40 = n by omega, show (0x6000 + 0x40 * n) % 0x40 = 0 by omega]
  try simp only [and_true, true_and]
  repeat first
    | rw [if_neg (by simp only [objKey, K.hapEnable, K.sndEnable, K.pwrReq, K.pwrReset]; omega)]
    | rw [if_neg (by omega)]
    | rw [if_pos (by omega)]
    | rw [if_pos (by simp only [objKey, K.hapEnable, K.sndEnable, K.pwrReq, K.pwrReset]; omega)]
    | rw [if_pos rfl]
  try rfl

theorem areaClaims_vfFlr {s : State} {v : Nat} {n : Nat} (h : 0 < n) (h2 : n < 64) :
    areaClaims s (0x6000 + 0x40 * n) 3 v = ([], 0) := by
  unfold areaClaims
  dsimp only
  try simp only [show (0x6000 + 0x40 * n - 0x6000) / 0x40 = n by omega, show (0x6000 + 0x40 * n) % 0x40 = 0 by omega]
  try simp only [and_true, true_and]
  repeat first
    | rw [if_neg (by simp only [objKey, K.hapEnable, K.sndEnable, K.pwrReq, K.pwrReset]; omega)]
    | rw [if_neg (by omega)]
    | rw [if_pos (by omega)]
    | rw [if_pos (by simp only [objKey, K.hapEnable, K.sndEnable, K.pwrReq, K.pwrReset]; omega)]
    | rw [if_pos rfl]
  try rfl

theorem areaAccess_vfFlr {s : State} {c : WCtx} {v : Nat} {n : Nat} (h : 0 < n) (h2 : n < 64) (hm : c.isMgr = true) :
    areaAccess s c (0x6000 + 0x40 * n) 3 v = true := by
  unfold areaAccess
  dsimp only
  try simp only [show (0x6000 + 0x40 * n - 0x6000) / 0x40 = n by omega, show (0x6000 + 0x40 * n) % 0x40 = 0 by omega]
  try simp only [and_true, true_and]
  repeat first
    | rw [if_neg (by simp only [objKey, K.hapEnable, K.sndEnable, K.pwrReq, K.pwrReset]; omega)]
    | rw [if_neg (by omega)]
    | rw [if_pos (by omega)]
    | rw [if_pos (by simp only [objKey, K.hapEnable, K.sndEnable, K.pwrReq, K.pwrReset]; omega)]
    | rw [if_pos rfl]
  try rfl
  all_goals try simp [hm]
  all_goals try omega

theorem areaApply_grant {s : State} {c : WCtx} {sub : Nat} {x : Val} {n : Nat} (h : 0 < n) (h2 : n < 64) (hs : sub < 256) :
    areaApply s c (0x6001 + 0x40 * n) sub x = accepted (grantApply s n sub x.toNat) := by
  unfold areaApply
  dsimp only
  try simp only [show (0x6001 + 0x40 * n - 0x6000) / 0x40 = n by omega, show (0x6001 + 0x40 * n) % 0x40 = 1 by omega]
  try simp only [and_true, true_and]
  repeat first
    | rw [if_neg (by simp only [objKey, K.hapEnable, K.sndEnable, K.pwrReq, K.pwrReset]; omega)]
    | rw [if_neg (by omega)]
    | rw [if_pos (by omega)]
    | rw [if_pos (by simp only [objKey, K.hapEnable, K.sndEnable, K.pwrReq, K.pwrReset]; omega)]
    | rw [if_pos rfl]
  try rfl

theorem areaCheck_grant {s : State} {c : WCtx} {sub : Nat} {x : Val} {n : Nat} (h : 0 < n) (h2 : n < 64) (hs : sub < 256) :
    areaCheck s c (0x6001 + 0x40 * n) sub x = grantCheck s n sub x.toNat := by
  unfold areaCheck
  dsimp only
  try simp only [show (0x6001 + 0x40 * n - 0x6000) / 0x40 = n by omega, show (0x6001 + 0x40 * n) % 0x40 = 1 by omega]
  try simp only [and_true, true_and]
  repeat first
    | rw [if_neg (by simp only [objKey, K.hapEnable, K.sndEnable, K.pwrReq, K.pwrReset]; omega)]
    | rw [if_neg (by omega)]
    | rw [if_pos (by omega)]
    | rw [if_pos (by simp only [objKey, K.hapEnable, K.sndEnable, K.pwrReq, K.pwrReset]; omega)]
    | rw [if_pos rfl]
  try rfl

theorem areaClaims_grant {s : State} {sub : Nat} {v : Nat} {n : Nat} (h : 0 < n) (h2 : n < 64) (hs : sub < 256) :
    areaClaims s (0x6001 + 0x40 * n) sub v = ([], 0) := by
  unfold areaClaims
  dsimp only
  try simp only [show (0x6001 + 0x40 * n - 0x6000) / 0x40 = n by omega, show (0x6001 + 0x40 * n) % 0x40 = 1 by omega]
  try simp only [and_true, true_and]
  repeat first
    | rw [if_neg (by simp only [objKey, K.hapEnable, K.sndEnable, K.pwrReq, K.pwrReset]; omega)]
    | rw [if_neg (by omega)]
    | rw [if_pos (by omega)]
    | rw [if_pos (by simp only [objKey, K.hapEnable, K.sndEnable, K.pwrReq, K.pwrReset]; omega)]
    | rw [if_pos rfl]
  try rfl

theorem areaAccess_grant {s : State} {c : WCtx} {sub : Nat} {v : Nat} {n : Nat} (h : 0 < n) (h2 : n < 64) (hs : sub < 256) (hm : c.isMgr = true) :
    areaAccess s c (0x6001 + 0x40 * n) sub v = true := by
  unfold areaAccess
  dsimp only
  try simp only [show (0x6001 + 0x40 * n - 0x6000) / 0x40 = n by omega, show (0x6001 + 0x40 * n) % 0x40 = 1 by omega]
  try simp only [and_true, true_and]
  repeat first
    | rw [if_neg (by simp only [objKey, K.hapEnable, K.sndEnable, K.pwrReq, K.pwrReset]; omega)]
    | rw [if_neg (by omega)]
    | rw [if_pos (by omega)]
    | rw [if_pos (by simp only [objKey, K.hapEnable, K.sndEnable, K.pwrReq, K.pwrReset]; omega)]
    | rw [if_pos rfl]
  try rfl
  all_goals try simp [hm]
  all_goals try omega

theorem areaApply_region {s : State} {c : WCtx} {sub : Nat} {x : Val} {n q : Nat} (h : 0 < n) (h2 : n < 64) (h3 : q < 8) (hs : sub < 256) :
    areaApply s c (0x6008 + 0x40 * n + q) sub x = accepted (regionApply s false n q sub x.toNat) := by
  unfold areaApply
  dsimp only
  try simp only [show (0x6008 + 0x40 * n + q - 0x6000) / 0x40 = n by omega, show (0x6008 + 0x40 * n + q) % 0x40 = 8 + q by omega, show 8 + q - 8 = q by omega]
  try simp only [and_true, true_and]
  repeat first
    | rw [if_neg (by simp only [objKey, K.hapEnable, K.sndEnable, K.pwrReq, K.pwrReset]; omega)]
    | rw [if_neg (by omega)]
    | rw [if_pos (by omega)]
    | rw [if_pos (by simp only [objKey, K.hapEnable, K.sndEnable, K.pwrReq, K.pwrReset]; omega)]
    | rw [if_pos rfl]
  try rfl

theorem areaCheck_region {s : State} {c : WCtx} {sub : Nat} {x : Val} {n q : Nat} (h : 0 < n) (h2 : n < 64) (h3 : q < 8) (hs : sub < 256) :
    areaCheck s c (0x6008 + 0x40 * n + q) sub x = regionCheck s false n q sub x.toNat := by
  unfold areaCheck
  dsimp only
  try simp only [show (0x6008 + 0x40 * n + q - 0x6000) / 0x40 = n by omega, show (0x6008 + 0x40 * n + q) % 0x40 = 8 + q by omega, show 8 + q - 8 = q by omega]
  try simp only [and_true, true_and]
  repeat first
    | rw [if_neg (by simp only [objKey, K.hapEnable, K.sndEnable, K.pwrReq, K.pwrReset]; omega)]
    | rw [if_neg (by omega)]
    | rw [if_pos (by omega)]
    | rw [if_pos (by simp only [objKey, K.hapEnable, K.sndEnable, K.pwrReq, K.pwrReset]; omega)]
    | rw [if_pos rfl]
  try rfl

theorem areaClaims_region {s : State} {sub : Nat} {v : Nat} {n q : Nat} (h : 0 < n) (h2 : n < 64) (h3 : q < 8) (hs : sub < 256) :
    areaClaims s (0x6008 + 0x40 * n + q) sub v = ([], 0) := by
  unfold areaClaims
  dsimp only
  try simp only [show (0x6008 + 0x40 * n + q - 0x6000) / 0x40 = n by omega, show (0x6008 + 0x40 * n + q) % 0x40 = 8 + q by omega, show 8 + q - 8 = q by omega]
  try simp only [and_true, true_and]
  repeat first
    | rw [if_neg (by simp only [objKey, K.hapEnable, K.sndEnable, K.pwrReq, K.pwrReset]; omega)]
    | rw [if_neg (by omega)]
    | rw [if_pos (by omega)]
    | rw [if_pos (by simp only [objKey, K.hapEnable, K.sndEnable, K.pwrReq, K.pwrReset]; omega)]
    | rw [if_pos rfl]
  try rfl

theorem areaAccess_region {s : State} {c : WCtx} {sub : Nat} {v : Nat} {n q : Nat} (h : 0 < n) (h2 : n < 64) (h3 : q < 8) (hs : sub < 256) (hm : c.isMgr = true) :
    areaAccess s c (0x6008 + 0x40 * n + q) sub v = true := by
  unfold areaAccess
  dsimp only
  try simp only [show (0x6008 + 0x40 * n + q - 0x6000) / 0x40 = n by omega, show (0x6008 + 0x40 * n + q) % 0x40 = 8 + q by omega, show 8 + q - 8 = q by omega]
  try simp only [and_true, true_and]
  repeat first
    | rw [if_neg (by simp only [objKey, K.hapEnable, K.sndEnable, K.pwrReq, K.pwrReset]; omega)]
    | rw [if_neg (by omega)]
    | rw [if_pos (by omega)]
    | rw [if_pos (by simp only [objKey, K.hapEnable, K.sndEnable, K.pwrReq, K.pwrReset]; omega)]
    | rw [if_pos rfl]
  try rfl
  all_goals try simp [hm]
  all_goals try omega

theorem areaApply_touchRegion {s : State} {c : WCtx} {sub : Nat} {x : Val} {n q : Nat} (h : 0 < n) (h2 : n < 64) (h3 : q < 8) (hs : sub < 256) :
    areaApply s c (0x6010 + 0x40 * n + q) sub x = accepted (regionApply s true n q sub x.toNat) := by
  unfold areaApply
  dsimp only
  try simp only [show (0x6010 + 0x40 * n + q - 0x6000) / 0x40 = n by omega, show (0x6010 + 0x40 * n + q) % 0x40 = 16 + q by omega, show 16 + q - 16 = q by omega]
  try simp only [and_true, true_and]
  repeat first
    | rw [if_neg (by simp only [objKey, K.hapEnable, K.sndEnable, K.pwrReq, K.pwrReset]; omega)]
    | rw [if_neg (by omega)]
    | rw [if_pos (by omega)]
    | rw [if_pos (by simp only [objKey, K.hapEnable, K.sndEnable, K.pwrReq, K.pwrReset]; omega)]
    | rw [if_pos rfl]
  try rfl

theorem areaCheck_touchRegion {s : State} {c : WCtx} {sub : Nat} {x : Val} {n q : Nat} (h : 0 < n) (h2 : n < 64) (h3 : q < 8) (hs : sub < 256) :
    areaCheck s c (0x6010 + 0x40 * n + q) sub x = regionCheck s true n q sub x.toNat := by
  unfold areaCheck
  dsimp only
  try simp only [show (0x6010 + 0x40 * n + q - 0x6000) / 0x40 = n by omega, show (0x6010 + 0x40 * n + q) % 0x40 = 16 + q by omega, show 16 + q - 16 = q by omega]
  try simp only [and_true, true_and]
  repeat first
    | rw [if_neg (by simp only [objKey, K.hapEnable, K.sndEnable, K.pwrReq, K.pwrReset]; omega)]
    | rw [if_neg (by omega)]
    | rw [if_pos (by omega)]
    | rw [if_pos (by simp only [objKey, K.hapEnable, K.sndEnable, K.pwrReq, K.pwrReset]; omega)]
    | rw [if_pos rfl]
  try rfl

theorem areaClaims_touchRegion {s : State} {sub : Nat} {v : Nat} {n q : Nat} (h : 0 < n) (h2 : n < 64) (h3 : q < 8) (hs : sub < 256) :
    areaClaims s (0x6010 + 0x40 * n + q) sub v = ([], 0) := by
  unfold areaClaims
  dsimp only
  try simp only [show (0x6010 + 0x40 * n + q - 0x6000) / 0x40 = n by omega, show (0x6010 + 0x40 * n + q) % 0x40 = 16 + q by omega, show 16 + q - 16 = q by omega]
  try simp only [and_true, true_and]
  repeat first
    | rw [if_neg (by simp only [objKey, K.hapEnable, K.sndEnable, K.pwrReq, K.pwrReset]; omega)]
    | rw [if_neg (by omega)]
    | rw [if_pos (by omega)]
    | rw [if_pos (by simp only [objKey, K.hapEnable, K.sndEnable, K.pwrReq, K.pwrReset]; omega)]
    | rw [if_pos rfl]
  try rfl

theorem areaAccess_touchRegion {s : State} {c : WCtx} {sub : Nat} {v : Nat} {n q : Nat} (h : 0 < n) (h2 : n < 64) (h3 : q < 8) (hs : sub < 256) (hm : c.isMgr = true) :
    areaAccess s c (0x6010 + 0x40 * n + q) sub v = true := by
  unfold areaAccess
  dsimp only
  try simp only [show (0x6010 + 0x40 * n + q - 0x6000) / 0x40 = n by omega, show (0x6010 + 0x40 * n + q) % 0x40 = 16 + q by omega, show 16 + q - 16 = q by omega]
  try simp only [and_true, true_and]
  repeat first
    | rw [if_neg (by simp only [objKey, K.hapEnable, K.sndEnable, K.pwrReq, K.pwrReset]; omega)]
    | rw [if_neg (by omega)]
    | rw [if_pos (by omega)]
    | rw [if_pos (by simp only [objKey, K.hapEnable, K.sndEnable, K.pwrReq, K.pwrReset]; omega)]
    | rw [if_pos rfl]
  try rfl
  all_goals try simp [hm]
  all_goals try omega

theorem areaApply_freeze {s : State} {c : WCtx} {x : Val} {n : Nat} (h : 0 < n) (h2 : n < 64) :
    areaApply s c (0x6020 + 0x40 * n) 1 x = accepted (freezeApply s n (x.toNat == 1)) := by
  unfold areaApply
  dsimp only
  try simp only [show (0x6020 + 0x40 * n - 0x6000) / 0x40 = n by omega, show (0x6020 + 0x40 * n) % 0x40 = 0x20 by omega]
  try simp only [and_true, true_and]
  repeat first
    | rw [if_neg (by simp only [objKey, K.hapEnable, K.sndEnable, K.pwrReq, K.pwrReset]; omega)]
    | rw [if_neg (by omega)]
    | rw [if_pos (by omega)]
    | rw [if_pos (by simp only [objKey, K.hapEnable, K.sndEnable, K.pwrReq, K.pwrReset]; omega)]
    | rw [if_pos rfl]
  try rfl

theorem areaCheck_freeze {s : State} {c : WCtx} {x : Val} {n : Nat} (h : 0 < n) (h2 : n < 64) :
    areaCheck s c (0x6020 + 0x40 * n) 1 x = freezeCheck s n x.toNat := by
  unfold areaCheck
  dsimp only
  try simp only [show (0x6020 + 0x40 * n - 0x6000) / 0x40 = n by omega, show (0x6020 + 0x40 * n) % 0x40 = 0x20 by omega]
  try simp only [and_true, true_and]
  repeat first
    | rw [if_neg (by simp only [objKey, K.hapEnable, K.sndEnable, K.pwrReq, K.pwrReset]; omega)]
    | rw [if_neg (by omega)]
    | rw [if_pos (by omega)]
    | rw [if_pos (by simp only [objKey, K.hapEnable, K.sndEnable, K.pwrReq, K.pwrReset]; omega)]
    | rw [if_pos rfl]
  try rfl

theorem areaClaims_freeze {s : State} {v : Nat} {n : Nat} (h : 0 < n) (h2 : n < 64) :
    areaClaims s (0x6020 + 0x40 * n) 1 v = ([], 0) := by
  unfold areaClaims
  dsimp only
  try simp only [show (0x6020 + 0x40 * n - 0x6000) / 0x40 = n by omega, show (0x6020 + 0x40 * n) % 0x40 = 0x20 by omega]
  try simp only [and_true, true_and]
  repeat first
    | rw [if_neg (by simp only [objKey, K.hapEnable, K.sndEnable, K.pwrReq, K.pwrReset]; omega)]
    | rw [if_neg (by omega)]
    | rw [if_pos (by omega)]
    | rw [if_pos (by simp only [objKey, K.hapEnable, K.sndEnable, K.pwrReq, K.pwrReset]; omega)]
    | rw [if_pos rfl]
  try rfl

theorem areaAccess_freeze {s : State} {c : WCtx} {v : Nat} {n : Nat} (h : 0 < n) (h2 : n < 64) (hm : c.isMgr = true) :
    areaAccess s c (0x6020 + 0x40 * n) 1 v = true := by
  unfold areaAccess
  dsimp only
  try simp only [show (0x6020 + 0x40 * n - 0x6000) / 0x40 = n by omega, show (0x6020 + 0x40 * n) % 0x40 = 0x20 by omega]
  try simp only [and_true, true_and]
  repeat first
    | rw [if_neg (by simp only [objKey, K.hapEnable, K.sndEnable, K.pwrReq, K.pwrReset]; omega)]
    | rw [if_neg (by omega)]
    | rw [if_pos (by omega)]
    | rw [if_pos (by simp only [objKey, K.hapEnable, K.sndEnable, K.pwrReq, K.pwrReset]; omega)]
    | rw [if_pos rfl]
  try rfl
  all_goals try simp [hm]
  all_goals try omega

theorem areaApply_migOp {s : State} {c : WCtx} {x : Val} {n : Nat} (h : 0 < n) (h2 : n < 64) :
    areaApply s c (0x6020 + 0x40 * n) 6 x = accepted (if x.toNat = 1 then saveApply s n else restoreApply s n) := by
  unfold areaApply
  dsimp only
  try simp only [show (0x6020 + 0x40 * n - 0x6000) / 0x40 = n by omega, show (0x6020 + 0x40 * n) % 0x40 = 0x20 by omega]
  try simp only [and_true, true_and]
  repeat first
    | rw [if_neg (by simp only [objKey, K.hapEnable, K.sndEnable, K.pwrReq, K.pwrReset]; omega)]
    | rw [if_neg (by omega)]
    | rw [if_pos (by omega)]
    | rw [if_pos (by simp only [objKey, K.hapEnable, K.sndEnable, K.pwrReq, K.pwrReset]; omega)]
    | rw [if_pos rfl]
  try rfl

theorem areaCheck_migOp {s : State} {c : WCtx} {x : Val} {n : Nat} (h : 0 < n) (h2 : n < 64) :
    areaCheck s c (0x6020 + 0x40 * n) 6 x = migOpCheck s n := by
  unfold areaCheck
  dsimp only
  try simp only [show (0x6020 + 0x40 * n - 0x6000) / 0x40 = n by omega, show (0x6020 + 0x40 * n) % 0x40 = 0x20 by omega]
  try simp only [and_true, true_and]
  repeat first
    | rw [if_neg (by simp only [objKey, K.hapEnable, K.sndEnable, K.pwrReq, K.pwrReset]; omega)]
    | rw [if_neg (by omega)]
    | rw [if_pos (by omega)]
    | rw [if_pos (by simp only [objKey, K.hapEnable, K.sndEnable, K.pwrReq, K.pwrReset]; omega)]
    | rw [if_pos rfl]
  try rfl

theorem areaClaims_migOp {s : State} {v : Nat} {n : Nat} (h : 0 < n) (h2 : n < 64) :
    areaClaims s (0x6020 + 0x40 * n) 6 v = ([], 0) := by
  unfold areaClaims
  dsimp only
  try simp only [show (0x6020 + 0x40 * n - 0x6000) / 0x40 = n by omega, show (0x6020 + 0x40 * n) % 0x40 = 0x20 by omega]
  try simp only [and_true, true_and]
  repeat first
    | rw [if_neg (by simp only [objKey, K.hapEnable, K.sndEnable, K.pwrReq, K.pwrReset]; omega)]
    | rw [if_neg (by omega)]
    | rw [if_pos (by omega)]
    | rw [if_pos (by simp only [objKey, K.hapEnable, K.sndEnable, K.pwrReq, K.pwrReset]; omega)]
    | rw [if_pos rfl]
  try rfl

theorem areaAccess_migOp {s : State} {c : WCtx} {v : Nat} {n : Nat} (h : 0 < n) (h2 : n < 64) (hm : c.isMgr = true) :
    areaAccess s c (0x6020 + 0x40 * n) 6 v = true := by
  unfold areaAccess
  dsimp only
  try simp only [show (0x6020 + 0x40 * n - 0x6000) / 0x40 = n by omega, show (0x6020 + 0x40 * n) % 0x40 = 0x20 by omega]
  try simp only [and_true, true_and]
  repeat first
    | rw [if_neg (by simp only [objKey, K.hapEnable, K.sndEnable, K.pwrReq, K.pwrReset]; omega)]
    | rw [if_neg (by omega)]
    | rw [if_pos (by omega)]
    | rw [if_pos (by simp only [objKey, K.hapEnable, K.sndEnable, K.pwrReq, K.pwrReset]; omega)]
    | rw [if_pos rfl]
  try rfl
  all_goals try simp [hm]
  all_goals try omega

theorem areaApply_log {s : State} {c : WCtx} {sub : Nat} {x : Val} {n : Nat} (h : 0 < n) (h2 : n < 64) (hs : sub < 256) :
    areaApply s c (0x6021 + 0x40 * n) sub x = accepted (logApply s n sub x.toNat) := by
  unfold areaApply
  dsimp only
  try simp only [show (0x6021 + 0x40 * n - 0x6000) / 0x40 = n by omega, show (0x6021 + 0x40 * n) % 0x40 = 0x21 by omega]
  try simp only [and_true, true_and]
  repeat first
    | rw [if_neg (by simp only [objKey, K.hapEnable, K.sndEnable, K.pwrReq, K.pwrReset]; omega)]
    | rw [if_neg (by omega)]
    | rw [if_pos (by omega)]
    | rw [if_pos (by simp only [objKey, K.hapEnable, K.sndEnable, K.pwrReq, K.pwrReset]; omega)]
    | rw [if_pos rfl]
  try rfl

theorem areaCheck_log {s : State} {c : WCtx} {sub : Nat} {x : Val} {n : Nat} (h : 0 < n) (h2 : n < 64) (hs : sub < 256) :
    areaCheck s c (0x6021 + 0x40 * n) sub x = logCheck s n sub x.toNat := by
  unfold areaCheck
  dsimp only
  try simp only [show (0x6021 + 0x40 * n - 0x6000) / 0x40 = n by omega, show (0x6021 + 0x40 * n) % 0x40 = 0x21 by omega]
  try simp only [and_true, true_and]
  repeat first
    | rw [if_neg (by simp only [objKey, K.hapEnable, K.sndEnable, K.pwrReq, K.pwrReset]; omega)]
    | rw [if_neg (by omega)]
    | rw [if_pos (by omega)]
    | rw [if_pos (by simp only [objKey, K.hapEnable, K.sndEnable, K.pwrReq, K.pwrReset]; omega)]
    | rw [if_pos rfl]
  try rfl

theorem areaClaims_log {s : State} {sub : Nat} {v : Nat} {n : Nat} (h : 0 < n) (h2 : n < 64) (hs : sub < 256) :
    areaClaims s (0x6021 + 0x40 * n) sub v = ([], 0) := by
  unfold areaClaims
  dsimp only
  try simp only [show (0x6021 + 0x40 * n - 0x6000) / 0x40 = n by omega, show (0x6021 + 0x40 * n) % 0x40 = 0x21 by omega]
  try simp only [and_true, true_and]
  repeat first
    | rw [if_neg (by simp only [objKey, K.hapEnable, K.sndEnable, K.pwrReq, K.pwrReset]; omega)]
    | rw [if_neg (by omega)]
    | rw [if_pos (by omega)]
    | rw [if_pos (by simp only [objKey, K.hapEnable, K.sndEnable, K.pwrReq, K.pwrReset]; omega)]
    | rw [if_pos rfl]
  try rfl

theorem areaAccess_log {s : State} {c : WCtx} {sub : Nat} {v : Nat} {n : Nat} (h : 0 < n) (h2 : n < 64) (hs : sub < 256) (hm : c.isMgr = true) :
    areaAccess s c (0x6021 + 0x40 * n) sub v = true := by
  unfold areaAccess
  dsimp only
  try simp only [show (0x6021 + 0x40 * n - 0x6000) / 0x40 = n by omega, show (0x6021 + 0x40 * n) % 0x40 = 0x21 by omega]
  try simp only [and_true, true_and]
  repeat first
    | rw [if_neg (by simp only [objKey, K.hapEnable, K.sndEnable, K.pwrReq, K.pwrReset]; omega)]
    | rw [if_neg (by omega)]
    | rw [if_pos (by omega)]
    | rw [if_pos (by simp only [objKey, K.hapEnable, K.sndEnable, K.pwrReq, K.pwrReset]; omega)]
    | rw [if_pos rfl]
  try rfl
  all_goals try simp [hm]
  all_goals try omega

theorem areaApply_claimHold {s : State} {c : WCtx} {x : Val} {i : Nat} (h : i < 24) :
    areaApply s c 0x7011 (1 + i) x = accepted (claimWrite s i (x.toNat == 1)) := by
  unfold areaApply
  dsimp only
  try simp only [show 1 + i - 1 = i by omega]
  try simp only [and_true, true_and]
  repeat first
    | rw [if_neg (by simp only [objKey, K.hapEnable, K.sndEnable, K.pwrReq, K.pwrReset]; omega)]
    | rw [if_neg (by omega)]
    | rw [if_pos (by omega)]
    | rw [if_pos (by simp only [objKey, K.hapEnable, K.sndEnable, K.pwrReq, K.pwrReset]; omega)]
    | rw [if_pos rfl]
  try rfl

theorem areaCheck_claimHold {s : State} {c : WCtx} {x : Val} {i : Nat} (h : i < 24) :
    areaCheck s c 0x7011 (1 + i) x = claimHoldCheck i x.toNat := by
  unfold areaCheck
  dsimp only
  try simp only [show 1 + i - 1 = i by omega]
  try simp only [and_true, true_and]
  repeat first
    | rw [if_neg (by simp only [objKey, K.hapEnable, K.sndEnable, K.pwrReq, K.pwrReset]; omega)]
    | rw [if_neg (by omega)]
    | rw [if_pos (by omega)]
    | rw [if_pos (by simp only [objKey, K.hapEnable, K.sndEnable, K.pwrReq, K.pwrReset]; omega)]
    | rw [if_pos rfl]
  try rfl

theorem areaClaims_claimHold {s : State} {v : Nat} {i : Nat} (h : i < 24) :
    areaClaims s 0x7011 (1 + i) v = ([], 0) := by
  unfold areaClaims
  dsimp only
  try simp only [show 1 + i - 1 = i by omega]
  try simp only [and_true, true_and]
  repeat first
    | rw [if_neg (by simp only [objKey, K.hapEnable, K.sndEnable, K.pwrReq, K.pwrReset]; omega)]
    | rw [if_neg (by omega)]
    | rw [if_pos (by omega)]
    | rw [if_pos (by simp only [objKey, K.hapEnable, K.sndEnable, K.pwrReq, K.pwrReset]; omega)]
    | rw [if_pos rfl]
  try rfl

theorem areaApply_pinT {s : State} {c : WCtx} {x : Val} {i : Nat} (h : i < 96) :
    areaApply s c 0x7021 (1 + i) x = accepted (pinTApply s i (x.toNat == 1)) := by
  unfold areaApply
  dsimp only
  try simp only [show 1 + i - 1 = i by omega]
  try simp only [and_true, true_and]
  repeat first
    | rw [if_neg (by simp only [objKey, K.hapEnable, K.sndEnable, K.pwrReq, K.pwrReset]; omega)]
    | rw [if_neg (by omega)]
    | rw [if_pos (by omega)]
    | rw [if_pos (by simp only [objKey, K.hapEnable, K.sndEnable, K.pwrReq, K.pwrReset]; omega)]
    | rw [if_pos rfl]
  try rfl

theorem areaCheck_pinT {s : State} {c : WCtx} {x : Val} {i : Nat} (h : i < 96) :
    areaCheck s c 0x7021 (1 + i) x = .ok := by
  unfold areaCheck
  dsimp only
  try simp only [show 1 + i - 1 = i by omega]
  try simp only [and_true, true_and]
  repeat first
    | rw [if_neg (by simp only [objKey, K.hapEnable, K.sndEnable, K.pwrReq, K.pwrReset]; omega)]
    | rw [if_neg (by omega)]
    | rw [if_pos (by omega)]
    | rw [if_pos (by simp only [objKey, K.hapEnable, K.sndEnable, K.pwrReq, K.pwrReset]; omega)]
    | rw [if_pos rfl]
  try rfl

theorem areaClaims_pinT {s : State} {v : Nat} {i : Nat} (h : i < 96) :
    areaClaims s 0x7021 (1 + i) v = ([], 0) := by
  unfold areaClaims
  dsimp only
  try simp only [show 1 + i - 1 = i by omega]
  try simp only [and_true, true_and]
  repeat first
    | rw [if_neg (by simp only [objKey, K.hapEnable, K.sndEnable, K.pwrReq, K.pwrReset]; omega)]
    | rw [if_neg (by omega)]
    | rw [if_pos (by omega)]
    | rw [if_pos (by simp only [objKey, K.hapEnable, K.sndEnable, K.pwrReq, K.pwrReset]; omega)]
    | rw [if_pos rfl]
  try rfl

theorem areaApply_dmaT {s : State} {c : WCtx} {x : Val} {i : Nat} (h : i < 32) :
    areaApply s c 0x7041 (1 + i) x = accepted (dmaTApply s i (x.toNat == 1)) := by
  unfold areaApply
  dsimp only
  try simp only [show 1 + i - 1 = i by omega]
  try simp only [and_true, true_and]
  repeat first
    | rw [if_neg (by simp only [objKey, K.hapEnable, K.sndEnable, K.pwrReq, K.pwrReset]; omega)]
    | rw [if_neg (by omega)]
    | rw [if_pos (by omega)]
    | rw [if_pos (by simp only [objKey, K.hapEnable, K.sndEnable, K.pwrReq, K.pwrReset]; omega)]
    | rw [if_pos rfl]
  try rfl

theorem areaCheck_dmaT {s : State} {c : WCtx} {x : Val} {i : Nat} (h : i < 32) :
    areaCheck s c 0x7041 (1 + i) x = dmaTCheck s i := by
  unfold areaCheck
  dsimp only
  try simp only [show 1 + i - 1 = i by omega]
  try simp only [and_true, true_and]
  repeat first
    | rw [if_neg (by simp only [objKey, K.hapEnable, K.sndEnable, K.pwrReq, K.pwrReset]; omega)]
    | rw [if_neg (by omega)]
    | rw [if_pos (by omega)]
    | rw [if_pos (by simp only [objKey, K.hapEnable, K.sndEnable, K.pwrReq, K.pwrReset]; omega)]
    | rw [if_pos rfl]
  try rfl

theorem areaClaims_dmaT {s : State} {v : Nat} {i : Nat} (h : i < 32) :
    areaClaims s 0x7041 (1 + i) v = ([], 0) := by
  unfold areaClaims
  dsimp only
  try simp only [show 1 + i - 1 = i by omega]
  try simp only [and_true, true_and]
  repeat first
    | rw [if_neg (by simp only [objKey, K.hapEnable, K.sndEnable, K.pwrReq, K.pwrReset]; omega)]
    | rw [if_neg (by omega)]
    | rw [if_pos (by omega)]
    | rw [if_pos (by simp only [objKey, K.hapEnable, K.sndEnable, K.pwrReq, K.pwrReset]; omega)]
    | rw [if_pos rfl]
  try rfl

theorem areaApply_kaolin {s : State} {c : WCtx} {x : Val} {p : Nat} (h : p < 8) :
    areaApply s c (0x7510 + p) 2 x = accepted (kaolinCommitOp s p) := by
  unfold areaApply
  dsimp only
  try simp only [show 0x7510 + p - 0x7510 = p by omega]
  try simp only [and_true, true_and]
  repeat first
    | rw [if_neg (by simp only [objKey, K.hapEnable, K.sndEnable, K.pwrReq, K.pwrReset]; omega)]
    | rw [if_neg (by omega)]
    | rw [if_pos (by omega)]
    | rw [if_pos (by simp only [objKey, K.hapEnable, K.sndEnable, K.pwrReq, K.pwrReset]; omega)]
    | rw [if_pos rfl]
  try rfl

theorem areaCheck_kaolin {s : State} {c : WCtx} {x : Val} {p : Nat} (h : p < 8) :
    areaCheck s c (0x7510 + p) 2 x = .ok := by
  unfold areaCheck
  dsimp only
  try simp only [show 0x7510 + p - 0x7510 = p by omega]
  try simp only [and_true, true_and]
  repeat first
    | rw [if_neg (by simp only [objKey, K.hapEnable, K.sndEnable, K.pwrReq, K.pwrReset]; omega)]
    | rw [if_neg (by omega)]
    | rw [if_pos (by omega)]
    | rw [if_pos (by simp only [objKey, K.hapEnable, K.sndEnable, K.pwrReq, K.pwrReset]; omega)]
    | rw [if_pos rfl]
  try rfl

theorem areaClaims_kaolin {s : State} {v : Nat} {p : Nat} (h : p < 8) :
    areaClaims s (0x7510 + p) 2 v = ([], 0) := by
  unfold areaClaims
  dsimp only
  try simp only [show 0x7510 + p - 0x7510 = p by omega]
  try simp only [and_true, true_and]
  repeat first
    | rw [if_neg (by simp only [objKey, K.hapEnable, K.sndEnable, K.pwrReq, K.pwrReset]; omega)]
    | rw [if_neg (by omega)]
    | rw [if_pos (by omega)]
    | rw [if_pos (by simp only [objKey, K.hapEnable, K.sndEnable, K.pwrReq, K.pwrReset]; omega)]
    | rw [if_pos rfl]
  try rfl

theorem areaApply_pwrReq {s : State} {c : WCtx} {x : Val} :
    areaApply s c 0x8000 2 x = pwrReqApply s x.toNat := by
  unfold areaApply
  dsimp only
  try simp only [and_true, true_and]
  repeat first
    | rw [if_neg (by simp only [objKey, K.hapEnable, K.sndEnable, K.pwrReq, K.pwrReset]; omega)]
    | rw [if_neg (by omega)]
    | rw [if_pos (by omega)]
    | rw [if_pos (by simp only [objKey, K.hapEnable, K.sndEnable, K.pwrReq, K.pwrReset]; omega)]
    | rw [if_pos rfl]
  try rfl

theorem areaCheck_pwrReq {s : State} {c : WCtx} {x : Val} :
    areaCheck s c 0x8000 2 x = pwrReqCheck s x.toNat := by
  unfold areaCheck
  dsimp only
  try simp only [and_true, true_and]
  repeat first
    | rw [if_neg (by simp only [objKey, K.hapEnable, K.sndEnable, K.pwrReq, K.pwrReset]; omega)]
    | rw [if_neg (by omega)]
    | rw [if_pos (by omega)]
    | rw [if_pos (by simp only [objKey, K.hapEnable, K.sndEnable, K.pwrReq, K.pwrReset]; omega)]
    | rw [if_pos rfl]
  try rfl

theorem areaClaims_pwrReq {s : State} {v : Nat} :
    areaClaims s 0x8000 2 v = (pwrReqClaims s v, 1) := by
  unfold areaClaims
  dsimp only
  try simp only [and_true, true_and]
  repeat first
    | rw [if_neg (by simp only [objKey, K.hapEnable, K.sndEnable, K.pwrReq, K.pwrReset]; omega)]
    | rw [if_neg (by omega)]
    | rw [if_pos (by omega)]
    | rw [if_pos (by simp only [objKey, K.hapEnable, K.sndEnable, K.pwrReq, K.pwrReset]; omega)]
    | rw [if_pos rfl]
  try rfl

theorem areaAccess_pwrReq {s : State} {c : WCtx} {v : Nat} (hm : c.isMgr = true) :
    areaAccess s c 0x8000 2 v = true := by
  unfold areaAccess
  dsimp only
  try simp only [and_true, true_and]
  repeat first
    | rw [if_neg (by simp only [objKey, K.hapEnable, K.sndEnable, K.pwrReq, K.pwrReset]; omega)]
    | rw [if_neg (by omega)]
    | rw [if_pos (by omega)]
    | rw [if_pos (by simp only [objKey, K.hapEnable, K.sndEnable, K.pwrReq, K.pwrReset]; omega)]
    | rw [if_pos rfl]
  try rfl
  all_goals try simp [hm]
  all_goals try omega

theorem areaApply_pwrReset {s : State} {c : WCtx} {x : Val} :
    areaApply s c 0x8000 3 x = accepted (pwrResetApply s) := by
  unfold areaApply
  dsimp only
  try simp only [and_true, true_and]
  repeat first
    | rw [if_neg (by simp only [objKey, K.hapEnable, K.sndEnable, K.pwrReq, K.pwrReset]; omega)]
    | rw [if_neg (by omega)]
    | rw [if_pos (by omega)]
    | rw [if_pos (by simp only [objKey, K.hapEnable, K.sndEnable, K.pwrReq, K.pwrReset]; omega)]
    | rw [if_pos rfl]
  try rfl

theorem areaCheck_pwrReset {s : State} {c : WCtx} {x : Val} :
    areaCheck s c 0x8000 3 x = .ok := by
  unfold areaCheck
  dsimp only
  try simp only [and_true, true_and]
  repeat first
    | rw [if_neg (by simp only [objKey, K.hapEnable, K.sndEnable, K.pwrReq, K.pwrReset]; omega)]
    | rw [if_neg (by omega)]
    | rw [if_pos (by omega)]
    | rw [if_pos (by simp only [objKey, K.hapEnable, K.sndEnable, K.pwrReq, K.pwrReset]; omega)]
    | rw [if_pos rfl]
  try rfl

theorem areaClaims_pwrReset {s : State} {v : Nat} :
    areaClaims s 0x8000 3 v = ([], 0) := by
  unfold areaClaims
  dsimp only
  try simp only [and_true, true_and]
  repeat first
    | rw [if_neg (by simp only [objKey, K.hapEnable, K.sndEnable, K.pwrReq, K.pwrReset]; omega)]
    | rw [if_neg (by omega)]
    | rw [if_pos (by omega)]
    | rw [if_pos (by simp only [objKey, K.hapEnable, K.sndEnable, K.pwrReq, K.pwrReset]; omega)]
    | rw [if_pos rfl]
  try rfl

theorem areaAccess_pwrReset {s : State} {c : WCtx} {v : Nat} :
    areaAccess s c 0x8000 3 v = (c.isMgr && (false || mayReset s c.role)) := by
  unfold areaAccess
  dsimp only
  try simp only [and_true, true_and]
  repeat first
    | rw [if_neg (by simp only [objKey, K.hapEnable, K.sndEnable, K.pwrReq, K.pwrReset]; omega)]
    | rw [if_neg (by omega)]
    | rw [if_pos (by omega)]
    | rw [if_pos (by simp only [objKey, K.hapEnable, K.sndEnable, K.pwrReq, K.pwrReset]; omega)]
    | rw [if_pos rfl]
  try rfl

theorem areaApply_domHold {s : State} {c : WCtx} {x : Val} {i : Nat} (h : i < 24) :
    areaApply s c (0x8010 + i) 2 x = domHoldApply s i (x.toNat == 1) := by
  unfold areaApply
  dsimp only
  try simp only [show 0x8010 + i - 0x8010 = i by omega]
  try simp only [and_true, true_and]
  repeat first
    | rw [if_neg (by simp only [objKey, K.hapEnable, K.sndEnable, K.pwrReq, K.pwrReset]; omega)]
    | rw [if_neg (by omega)]
    | rw [if_pos (by omega)]
    | rw [if_pos (by simp only [objKey, K.hapEnable, K.sndEnable, K.pwrReq, K.pwrReset]; omega)]
    | rw [if_pos rfl]
  try rfl

theorem areaCheck_domHold {s : State} {c : WCtx} {x : Val} {i : Nat} (h : i < 24) :
    areaCheck s c (0x8010 + i) 2 x = domHoldCheck i := by
  unfold areaCheck
  dsimp only
  try simp only [show 0x8010 + i - 0x8010 = i by omega]
  try simp only [and_true, true_and]
  repeat first
    | rw [if_neg (by simp only [objKey, K.hapEnable, K.sndEnable, K.pwrReq, K.pwrReset]; omega)]
    | rw [if_neg (by omega)]
    | rw [if_pos (by omega)]
    | rw [if_pos (by simp only [objKey, K.hapEnable, K.sndEnable, K.pwrReq, K.pwrReset]; omega)]
    | rw [if_pos rfl]
  try rfl

theorem areaClaims_domHold {s : State} {v : Nat} {i : Nat} (h : i < 24) :
    areaClaims s (0x8010 + i) 2 v = (domHoldClaims s i, if v = 1 then 2 else 1) := by
  unfold areaClaims
  dsimp only
  try simp only [show 0x8010 + i - 0x8010 = i by omega]
  try simp only [and_true, true_and]
  repeat first
    | rw [if_neg (by simp only [objKey, K.hapEnable, K.sndEnable, K.pwrReq, K.pwrReset]; omega)]
    | rw [if_neg (by omega)]
    | rw [if_pos (by omega)]
    | rw [if_pos (by simp only [objKey, K.hapEnable, K.sndEnable, K.pwrReq, K.pwrReset]; omega)]
    | rw [if_pos rfl]
  try rfl

theorem areaAccess_domHold {s : State} {c : WCtx} {v : Nat} {i : Nat} (h : i < 24) (hm : c.isMgr = true) :
    areaAccess s c (0x8010 + i) 2 v = true := by
  unfold areaAccess
  dsimp only
  try simp only [show 0x8010 + i - 0x8010 = i by omega]
  try simp only [and_true, true_and]
  repeat first
    | rw [if_neg (by simp only [objKey, K.hapEnable, K.sndEnable, K.pwrReq, K.pwrReset]; omega)]
    | rw [if_neg (by omega)]
    | rw [if_pos (by omega)]
    | rw [if_pos (by simp only [objKey, K.hapEnable, K.sndEnable, K.pwrReq, K.pwrReset]; omega)]
    | rw [if_pos rfl]
  try rfl
  all_goals try simp [hm]
  all_goals try omega

theorem areaApply_domTw {s : State} {c : WCtx} {x : Val} {i : Nat} (h : i < 24) :
    areaApply s c (0x8010 + i) 3 x = domTwApply s i (x.toNat == 1) := by
  unfold areaApply
  dsimp only
  try simp only [show 0x8010 + i - 0x8010 = i by omega]
  try simp only [and_true, true_and]
  repeat first
    | rw [if_neg (by simp only [objKey, K.hapEnable, K.sndEnable, K.pwrReq, K.pwrReset]; omega)]
    | rw [if_neg (by omega)]
    | rw [if_pos (by omega)]
    | rw [if_pos (by simp only [objKey, K.hapEnable, K.sndEnable, K.pwrReq, K.pwrReset]; omega)]
    | rw [if_pos rfl]
  try rfl

theorem areaCheck_domTw {s : State} {c : WCtx} {x : Val} {i : Nat} (h : i < 24) :
    areaCheck s c (0x8010 + i) 3 x = domTwCheck i := by
  unfold areaCheck
  dsimp only
  try simp only [show 0x8010 + i - 0x8010 = i by omega]
  try simp only [and_true, true_and]
  repeat first
    | rw [if_neg (by simp only [objKey, K.hapEnable, K.sndEnable, K.pwrReq, K.pwrReset]; omega)]
    | rw [if_neg (by omega)]
    | rw [if_pos (by omega)]
    | rw [if_pos (by simp only [objKey, K.hapEnable, K.sndEnable, K.pwrReq, K.pwrReset]; omega)]
    | rw [if_pos rfl]
  try rfl

theorem areaClaims_domTw {s : State} {v : Nat} {i : Nat} (h : i < 24) :
    areaClaims s (0x8010 + i) 3 v = ([], 0) := by
  unfold areaClaims
  dsimp only
  try simp only [show 0x8010 + i - 0x8010 = i by omega]
  try simp only [and_true, true_and]
  repeat first
    | rw [if_neg (by simp only [objKey, K.hapEnable, K.sndEnable, K.pwrReq, K.pwrReset]; omega)]
    | rw [if_neg (by omega)]
    | rw [if_pos (by omega)]
    | rw [if_pos (by simp only [objKey, K.hapEnable, K.sndEnable, K.pwrReq, K.pwrReset]; omega)]
    | rw [if_pos rfl]
  try rfl

theorem areaApply_isl {s : State} {c : WCtx} {sub : Nat} {x : Val} {i : Nat} (h : i < 40) (hs : sub < 256) :
    areaApply s c (0x8110 + i) sub x = accepted (islandApply s i sub x.toNat) := by
  unfold areaApply
  dsimp only
  try simp only [show 0x8110 + i - 0x8110 = i by omega]
  try simp only [and_true, true_and]
  repeat first
    | rw [if_neg (by simp only [objKey, K.hapEnable, K.sndEnable, K.pwrReq, K.pwrReset]; omega)]
    | rw [if_neg (by omega)]
    | rw [if_pos (by omega)]
    | rw [if_pos (by simp only [objKey, K.hapEnable, K.sndEnable, K.pwrReq, K.pwrReset]; omega)]
    | rw [if_pos rfl]
  try rfl

theorem areaCheck_isl {s : State} {c : WCtx} {sub : Nat} {x : Val} {i : Nat} (h : i < 40) (hs : sub < 256) :
    areaCheck s c (0x8110 + i) sub x = islandCheck i sub x.toNat := by
  unfold areaCheck
  dsimp only
  try simp only [show 0x8110 + i - 0x8110 = i by omega]
  try simp only [and_true, true_and]
  repeat first
    | rw [if_neg (by simp only [objKey, K.hapEnable, K.sndEnable, K.pwrReq, K.pwrReset]; omega)]
    | rw [if_neg (by omega)]
    | rw [if_pos (by omega)]
    | rw [if_pos (by simp only [objKey, K.hapEnable, K.sndEnable, K.pwrReq, K.pwrReset]; omega)]
    | rw [if_pos rfl]
  try rfl

theorem areaClaims_isl {s : State} {sub : Nat} {v : Nat} {i : Nat} (h : i < 40) (hs : sub < 256) :
    areaClaims s (0x8110 + i) sub v = (islandClaims s i, if sub = 5 then 3 else 4) := by
  unfold areaClaims
  dsimp only
  try simp only [show 0x8110 + i - 0x8110 = i by omega]
  try simp only [and_true, true_and]
  repeat first
    | rw [if_neg (by simp only [objKey, K.hapEnable, K.sndEnable, K.pwrReq, K.pwrReset]; omega)]
    | rw [if_neg (by omega)]
    | rw [if_pos (by omega)]
    | rw [if_pos (by simp only [objKey, K.hapEnable, K.sndEnable, K.pwrReq, K.pwrReset]; omega)]
    | rw [if_pos rfl]
  try rfl

theorem areaAccess_isl {s : State} {c : WCtx} {sub : Nat} {v : Nat} {i : Nat} (h : i < 40) (hs : sub < 256) (hm : c.isMgr = true) :
    areaAccess s c (0x8110 + i) sub v = true := by
  unfold areaAccess
  dsimp only
  try simp only [show 0x8110 + i - 0x8110 = i by omega]
  try simp only [and_true, true_and]
  repeat first
    | rw [if_neg (by simp only [objKey, K.hapEnable, K.sndEnable, K.pwrReq, K.pwrReset]; omega)]
    | rw [if_neg (by omega)]
    | rw [if_pos (by omega)]
    | rw [if_pos (by simp only [objKey, K.hapEnable, K.sndEnable, K.pwrReq, K.pwrReset]; omega)]
    | rw [if_pos rfl]
  try rfl
  all_goals try simp [hm]
  all_goals try omega

theorem areaApply_pin {s : State} {c : WCtx} {sub : Nat} {x : Val} {i : Nat} (h : i < 96) (hs : sub < 256) :
    areaApply s c (0x8400 + i) sub x = accepted (pinApply s i sub x.toNat) := by
  unfold areaApply
  dsimp only
  try simp only [show 0x8400 + i - 0x8400 = i by omega]
  try simp only [and_true, true_and]
  repeat first
    | rw [if_neg (by simp only [objKey, K.hapEnable, K.sndEnable, K.pwrReq, K.pwrReset]; omega)]
    | rw [if_neg (by omega)]
    | rw [if_pos (by omega)]
    | rw [if_pos (by simp only [objKey, K.hapEnable, K.sndEnable, K.pwrReq, K.pwrReset]; omega)]
    | rw [if_pos rfl]
  try rfl

theorem areaCheck_pin {s : State} {c : WCtx} {sub : Nat} {x : Val} {i : Nat} (h : i < 96) (hs : sub < 256) :
    areaCheck s c (0x8400 + i) sub x = pinCheck i sub x.toNat := by
  unfold areaCheck
  dsimp only
  try simp only [show 0x8400 + i - 0x8400 = i by omega]
  try simp only [and_true, true_and]
  repeat first
    | rw [if_neg (by simp only [objKey, K.hapEnable, K.sndEnable, K.pwrReq, K.pwrReset]; omega)]
    | rw [if_neg (by omega)]
    | rw [if_pos (by omega)]
    | rw [if_pos (by simp only [objKey, K.hapEnable, K.sndEnable, K.pwrReq, K.pwrReset]; omega)]
    | rw [if_pos rfl]
  try rfl

theorem areaClaims_pin {s : State} {sub : Nat} {v : Nat} {i : Nat} (h : i < 96) (hs : sub < 256) :
    areaClaims s (0x8400 + i) sub v = ([], 0) := by
  unfold areaClaims
  dsimp only
  try simp only [show 0x8400 + i - 0x8400 = i by omega]
  try simp only [and_true, true_and]
  repeat first
    | rw [if_neg (by simp only [objKey, K.hapEnable, K.sndEnable, K.pwrReq, K.pwrReset]; omega)]
    | rw [if_neg (by omega)]
    | rw [if_pos (by omega)]
    | rw [if_pos (by simp only [objKey, K.hapEnable, K.sndEnable, K.pwrReq, K.pwrReset]; omega)]
    | rw [if_pos rfl]
  try rfl

theorem areaAccess_pin {s : State} {c : WCtx} {sub : Nat} {v : Nat} {i : Nat} (h : i < 96) (hs : sub < 256) :
    areaAccess s c (0x8400 + i) sub v = (pinAccess s c i) := by
  unfold areaAccess
  dsimp only
  try simp only [show 0x8400 + i - 0x8400 = i by omega]
  try simp only [and_true, true_and]
  repeat first
    | rw [if_neg (by simp only [objKey, K.hapEnable, K.sndEnable, K.pwrReq, K.pwrReset]; omega)]
    | rw [if_neg (by omega)]
    | rw [if_pos (by omega)]
    | rw [if_pos (by simp only [objKey, K.hapEnable, K.sndEnable, K.pwrReq, K.pwrReset]; omega)]
    | rw [if_pos rfl]
  try rfl

theorem areaApply_spreadEnable {s : State} {c : WCtx} {x : Val} {i : Nat} (h : i < 8) :
    areaApply s c (0x9200 + i) 1 x = powered (enableWrite s (objKey (0x9200 + i) 1) (x.toNat == 1) (getN s (K.spreadState i) == sprStopping || anyStopping s [11])
      (startSpread · i) (stopSpread · i)) := by
  unfold areaApply
  dsimp only
  try simp only [show 0x9200 + i - 0x9200 = i by omega]
  try simp only [and_true, true_and]
  repeat first
    | rw [if_neg (by simp only [objKey, K.hapEnable, K.sndEnable, K.pwrReq, K.pwrReset]; omega)]
    | rw [if_neg (by omega)]
    | rw [if_pos (by omega)]
    | rw [if_pos (by simp only [objKey, K.hapEnable, K.sndEnable, K.pwrReq, K.pwrReset]; omega)]
    | rw [if_pos rfl]
  try rfl

theorem areaCheck_spreadEnable {s : State} {c : WCtx} {x : Val} {i : Nat} (h : i < 8) :
    areaCheck s c (0x9200 + i) 1 x = (if x.toNat = 1 ∧ !getB s (K.spreadEnable i) then spreadEnableCheck s i else .ok) := by
  unfold areaCheck
  dsimp only
  try simp only [show 0x9200 + i - 0x9200 = i by omega]
  try simp only [and_true, true_and]
  repeat first
    | rw [if_neg (by simp only [objKey, K.hapEnable, K.sndEnable, K.pwrReq, K.pwrReset]; omega)]
    | rw [if_neg (by omega)]
    | rw [if_pos (by omega)]
    | rw [if_pos (by simp only [objKey, K.hapEnable, K.sndEnable, K.pwrReq, K.pwrReset]; omega)]
    | rw [if_pos rfl]
  try rfl

theorem areaClaims_spreadEnable {s : State} {v : Nat} {i : Nat} (h : i < 8) :
    areaClaims s (0x9200 + i) 1 v = (enableClaims s (objKey (0x9200 + i) 1) (v == 1) (getN s (K.spreadState i) == sprStopping) [11], 5) := by
  unfold areaClaims
  dsimp only
  try simp only [show 0x9200 + i - 0x9200 = i by omega]
  try simp only [and_true, true_and]
  repeat first
    | rw [if_neg (by simp only [objKey, K.hapEnable, K.sndEnable, K.pwrReq, K.pwrReset]; omega)]
    | rw [if_neg (by omega)]
    | rw [if_pos (by omega)]
    | rw [if_pos (by simp only [objKey, K.hapEnable, K.sndEnable, K.pwrReq, K.pwrReset]; omega)]
    | rw [if_pos rfl]
  try rfl

theorem areaAccess_spreadEnable {s : State} {c : WCtx} {v : Nat} {i : Nat} (h : i < 8) (hm : c.isMgr = true) :
    areaAccess s c (0x9200 + i) 1 v = true := by
  unfold areaAccess
  dsimp only
  try simp only [show 0x9200 + i - 0x9200 = i by omega]
  try simp only [and_true, true_and]
  repeat first
    | rw [if_neg (by simp only [objKey, K.hapEnable, K.sndEnable, K.pwrReq, K.pwrReset]; omega)]
    | rw [if_neg (by omega)]
    | rw [if_pos (by omega)]
    | rw [if_pos (by simp only [objKey, K.hapEnable, K.sndEnable, K.pwrReq, K.pwrReset]; omega)]
    | rw [if_pos rfl]
  try rfl
  all_goals try simp [hm]
  all_goals try omega

theorem areaApply_spreadCommit {s : State} {c : WCtx} {x : Val} {i : Nat} (h : i < 8) :
    areaApply s c (0x9200 + i) 7 x = accepted (spreadCommit s i (spreadBits s c.func i ||| (if c.isMgr then 64 else 0))) := by
  unfold areaApply
  dsimp only
  try simp only [show 0x9200 + i - 0x9200 = i by omega]
  try simp only [and_true, true_and]
  repeat first
    | rw [if_neg (by simp only [objKey, K.hapEnable, K.sndEnable, K.pwrReq, K.pwrReset]; omega)]
    | rw [if_neg (by omega)]
    | rw [if_pos (by omega)]
    | rw [if_pos (by simp only [objKey, K.hapEnable, K.sndEnable, K.pwrReq, K.pwrReset]; omega)]
    | rw [if_pos rfl]
  try rfl

theorem areaCheck_spreadCommit {s : State} {c : WCtx} {x : Val} {i : Nat} (h : i < 8) :
    areaCheck s c (0x9200 + i) 7 x = spreadCheck s i 7 x := by
  unfold areaCheck
  dsimp only
  try simp only [show 0x9200 + i - 0x9200 = i by omega]
  try simp only [and_true, true_and]
  repeat first
    | rw [if_neg (by simp only [objKey, K.hapEnable, K.sndEnable, K.pwrReq, K.pwrReset]; omega)]
    | rw [if_neg (by omega)]
    | rw [if_pos (by omega)]
    | rw [if_pos (by simp only [objKey, K.hapEnable, K.sndEnable, K.pwrReq, K.pwrReset]; omega)]
    | rw [if_pos rfl]
  try rfl

theorem areaClaims_spreadCommit {s : State} {v : Nat} {i : Nat} (h : i < 8) :
    areaClaims s (0x9200 + i) 7 v = ([], 0) := by
  unfold areaClaims
  dsimp only
  try simp only [show 0x9200 + i - 0x9200 = i by omega]
  try simp only [and_true, true_and]
  repeat first
    | rw [if_neg (by simp only [objKey, K.hapEnable, K.sndEnable, K.pwrReq, K.pwrReset]; omega)]
    | rw [if_neg (by omega)]
    | rw [if_pos (by omega)]
    | rw [if_pos (by simp only [objKey, K.hapEnable, K.sndEnable, K.pwrReq, K.pwrReset]; omega)]
    | rw [if_pos rfl]
  try rfl

theorem areaAccess_spreadCommit {s : State} {c : WCtx} {v : Nat} {i : Nat} (h : i < 8) :
    areaAccess s c (0x9200 + i) 7 v = (c.isMgr || (true && spreadBits s c.func i != 0)) := by
  unfold areaAccess
  dsimp only
  try simp only [show 0x9200 + i - 0x9200 = i by omega]
  try simp only [and_true, true_and]
  repeat first
    | rw [if_neg (by simp only [objKey, K.hapEnable, K.sndEnable, K.pwrReq, K.pwrReset]; omega)]
    | rw [if_neg (by omega)]
    | rw [if_pos (by omega)]
    | rw [if_pos (by simp only [objKey, K.hapEnable, K.sndEnable, K.pwrReq, K.pwrReset]; omega)]
    | rw [if_pos rfl]
  try rfl

theorem areaApply_retest {s : State} {c : WCtx} {x : Val} :
    areaApply s c 0xA100 5 x = accepted (match c.found with
      | some n => retestApply s x.toNat (n != 0)
      | none => retestApply (draw s) x.toNat (Config.freeBit s.fresh)) := by
  unfold areaApply
  dsimp only
  try simp only [and_true, true_and]
  repeat first
    | rw [if_neg (by simp only [objKey, K.hapEnable, K.sndEnable, K.pwrReq, K.pwrReset]; omega)]
    | rw [if_neg (by omega)]
    | rw [if_pos (by omega)]
    | rw [if_pos (by simp only [objKey, K.hapEnable, K.sndEnable, K.pwrReq, K.pwrReset]; omega)]
    | rw [if_pos rfl]
  try rfl

theorem areaCheck_retest {s : State} {c : WCtx} {x : Val} :
    areaCheck s c 0xA100 5 x = retestCheck s x.toNat := by
  unfold areaCheck
  dsimp only
  try simp only [and_true, true_and]
  repeat first
    | rw [if_neg (by simp only [objKey, K.hapEnable, K.sndEnable, K.pwrReq, K.pwrReset]; omega)]
    | rw [if_neg (by omega)]
    | rw [if_pos (by omega)]
    | rw [if_pos (by simp only [objKey, K.hapEnable, K.sndEnable, K.pwrReq, K.pwrReset]; omega)]
    | rw [if_pos rfl]
  try rfl

theorem areaClaims_retest {s : State} {v : Nat} :
    areaClaims s 0xA100 5 v = ([], 0) := by
  unfold areaClaims
  dsimp only
  try simp only [and_true, true_and]
  repeat first
    | rw [if_neg (by simp only [objKey, K.hapEnable, K.sndEnable, K.pwrReq, K.pwrReset]; omega)]
    | rw [if_neg (by omega)]
    | rw [if_pos (by omega)]
    | rw [if_pos (by simp only [objKey, K.hapEnable, K.sndEnable, K.pwrReq, K.pwrReset]; omega)]
    | rw [if_pos rfl]
  try rfl

theorem areaAccess_retest {s : State} {c : WCtx} {v : Nat} (hm : c.isMgr = true) :
    areaAccess s c 0xA100 5 v = true := by
  unfold areaAccess
  dsimp only
  try simp only [and_true, true_and]
  repeat first
    | rw [if_neg (by simp only [objKey, K.hapEnable, K.sndEnable, K.pwrReq, K.pwrReset]; omega)]
    | rw [if_neg (by omega)]
    | rw [if_pos (by omega)]
    | rw [if_pos (by simp only [objKey, K.hapEnable, K.sndEnable, K.pwrReq, K.pwrReset]; omega)]
    | rw [if_pos rfl]
  try rfl
  all_goals try simp [hm]
  all_goals try omega

theorem areaApply_diag {s : State} {c : WCtx} {x : Val} :
    areaApply s c 0xF000 1 x = accepted (diagApply s x.toNat) := by
  unfold areaApply
  dsimp only
  try simp only [and_true, true_and]
  repeat first
    | rw [if_neg (by simp only [objKey, K.hapEnable, K.sndEnable, K.pwrReq, K.pwrReset]; omega)]
    | rw [if_neg (by omega)]
    | rw [if_pos (by omega)]
    | rw [if_pos (by simp only [objKey, K.hapEnable, K.sndEnable, K.pwrReq, K.pwrReset]; omega)]
    | rw [if_pos rfl]
  try rfl

theorem areaCheck_diag {s : State} {c : WCtx} {x : Val} :
    areaCheck s c 0xF000 1 x = diagCheck s x.toNat := by
  unfold areaCheck
  dsimp only
  try simp only [and_true, true_and]
  repeat first
    | rw [if_neg (by simp only [objKey, K.hapEnable, K.sndEnable, K.pwrReq, K.pwrReset]; omega)]
    | rw [if_neg (by omega)]
    | rw [if_pos (by omega)]
    | rw [if_pos (by simp only [objKey, K.hapEnable, K.sndEnable, K.pwrReq, K.pwrReset]; omega)]
    | rw [if_pos rfl]
  try rfl

theorem areaClaims_diag {s : State} {v : Nat} :
    areaClaims s 0xF000 1 v = ([], 0) := by
  unfold areaClaims
  dsimp only
  try simp only [and_true, true_and]
  repeat first
    | rw [if_neg (by simp only [objKey, K.hapEnable, K.sndEnable, K.pwrReq, K.pwrReset]; omega)]
    | rw [if_neg (by omega)]
    | rw [if_pos (by omega)]
    | rw [if_pos (by simp only [objKey, K.hapEnable, K.sndEnable, K.pwrReq, K.pwrReset]; omega)]
    | rw [if_pos rfl]
  try rfl

theorem areaAccess_diag {s : State} {c : WCtx} {v : Nat} (hm : c.isMgr = true) :
    areaAccess s c 0xF000 1 v = true := by
  unfold areaAccess
  dsimp only
  try simp only [and_true, true_and]
  repeat first
    | rw [if_neg (by simp only [objKey, K.hapEnable, K.sndEnable, K.pwrReq, K.pwrReset]; omega)]
    | rw [if_neg (by omega)]
    | rw [if_pos (by omega)]
    | rw [if_pos (by simp only [objKey, K.hapEnable, K.sndEnable, K.pwrReq, K.pwrReset]; omega)]
    | rw [if_pos rfl]
  try rfl
  all_goals try simp [hm]
  all_goals try omega

end Sys2Proof.Machine
end

