-- ==== Sys2Proof/Laws/Tab.lean ====
section
/-!
SUPPORT. What tables and byte memories do: reading after writing, and that every memory operation keeps the canonical form.
-/

namespace Sys2Proof.Machine

variable {α : Type}

@[simp] theorem tfind_tset_same (t : Tab α) (k : Nat) (v : α) : tfind (tset t k v) k = some v := by
  induction t with
  | nil => simp [tset, tfind]
  | cons e r ih =>
    obtain ⟨k', v'⟩ := e
    simp only [tset]
    split
    · simp [tfind]
    · split
      · simp [tfind]
      · simp_all [tfind]

theorem tfind_tset_ne (t : Tab α) {k k' : Nat} (v : α) (h : k' ≠ k) : tfind (tset t k v) k' = tfind t k' := by
  induction t with
  | nil => simp [tset, tfind, h]
  | cons e r ih =>
    obtain ⟨k₁, v₁⟩ := e
    simp only [tset]
    split
    · next h1 => subst h1; simp [tfind, h]
    · split
      · simp [tfind, h]
      · simp [tfind, ih]

theorem tfind_tset (t : Tab α) (k k' : Nat) (v : α) : tfind (tset t k v) k' = if k' = k then some v else tfind t k' := by
  split
  · next h => subst h; simp
  · next h => exact tfind_tset_ne t v h

@[simp] theorem tget_tset_same (t : Tab α) (k : Nat) (v d : α) : tget (tset t k v) k d = v := by simp [tget]

theorem tget_tset_ne (t : Tab α) {k k' : Nat} (v d : α) (h : k' ≠ k) : tget (tset t k v) k' d = tget t k' d := by
  simp [tget, tfind_tset_ne t v h]

theorem tget_tset (t : Tab α) (k k' : Nat) (v d : α) : tget (tset t k v) k' d = if k' = k then v else tget t k' d := by
  simp only [tget, tfind_tset]; split <;> simp

theorem mem_tset {t : Tab α} {k : Nat} {v : α} {e : Nat × α} (h : e ∈ tset t k v) : e = (k, v) ∨ e ∈ t := by
  induction t with
  | nil => simpa [tset] using h
  | cons a r ih =>
    obtain ⟨k', v'⟩ := a
    simp only [tset] at h
    split at h
    · simp only [List.mem_cons] at h ⊢; tauto
    · split at h
      · simp only [List.mem_cons] at h ⊢; tauto
      · simp only [List.mem_cons] at h ⊢
        rcases h with h | h
        · tauto
        · rcases ih h with h | h <;> tauto

theorem mem_of_tfind {t : Tab α} {k : Nat} {v : α} (h : tfind t k = some v) : (k, v) ∈ t := by
  induction t with
  | nil => simp [tfind] at h
  | cons a r ih =>
    obtain ⟨k', v'⟩ := a
    simp only [tfind] at h
    split at h
    · next e => subst e; simp_all
    · simp [ih h]

/-! ## Memories -/

theorem memGet_eq (m : Memory) (a : Nat) : memGet m a = tget m a 0 := by
  induction m with
  | nil => rfl
  | cons e r ih =>
    obtain ⟨k, b⟩ := e
    simp only [memGet, ih, tget, tfind]; split <;> rfl

theorem memPut_eq (m : Memory) (a : Nat) (b : Byte) : memPut m a b = tset m a b := by
  induction m with
  | nil => rfl
  | cons e r ih => obtain ⟨k, c⟩ := e; simp only [memPut, tset, ih]

theorem tset_sorted (t : Tab α) (k : Nat) (v : α) (h : t.Pairwise (fun x y => x.1 < y.1)) :
    (tset t k v).Pairwise (fun x y => x.1 < y.1) := by
  induction t with
  | nil => simp [tset]
  | cons e r ih =>
    obtain ⟨k', v'⟩ := e
    rw [List.pairwise_cons] at h
    simp only [tset]
    split
    · next e => subst e; exact List.pairwise_cons.2 h
    · split
      · next h1 =>
        refine List.pairwise_cons.2 ⟨?_, List.pairwise_cons.2 h⟩
        intro x hx
        rcases List.mem_cons.1 hx with rfl | hx
        · exact h1
        · exact Nat.lt_trans h1 (h.1 x hx)
      · next h0 h1 =>
        refine List.pairwise_cons.2 ⟨?_, ih h.2⟩
        intro x hx
        rcases mem_tset hx with rfl | hx
        · simp; omega
        · exact h.1 x hx

theorem wf_nil : Memory.wf [] := ⟨List.Pairwise.nil, by simp⟩

theorem wf_filter {m : Memory} (p : Host.Cell → Bool) (h : Memory.wf m) : Memory.wf (m.filter p) :=
  ⟨h.1.filter p, fun c hc => h.2 c (List.mem_filter.1 hc).1⟩

/-- A byte write keeps the canonical form. -/
theorem memSet_wf {m : Memory} (a : Nat) (b : Byte) (h : Memory.wf m) : Memory.wf (memSet m a b) := by
  unfold memSet
  split
  · exact wf_filter _ h
  · next hb =>
    rw [memPut_eq]
    refine ⟨tset_sorted _ _ _ h.1, fun c hc => ?_⟩
    rcases mem_tset hc with rfl | hc
    · exact hb
    · exact h.2 c hc

/-- A byte-string write keeps the canonical form. -/
theorem memSetAll_wf {m : Memory} (a : Nat) (b : List Byte) (h : Memory.wf m) : Memory.wf (memSetAll m a b) := by
  induction b generalizing m a with
  | nil => exact h
  | cons x r ih => exact ih _ (memSet_wf a x h)

/-- Zeroing keeps the canonical form. -/
theorem memZero_wf {m : Memory} (a n : Nat) (h : Memory.wf m) : Memory.wf (memZero m a n) := wf_filter _ h

theorem tget_filter_ne (m : Memory) (a a' : Nat) :
    memGet (m.filter (fun c => c.1 ≠ a)) a' = if a' = a then 0 else memGet m a' := by
  induction m with
  | nil => simp [memGet]
  | cons e r ih =>
    obtain ⟨k, b⟩ := e
    by_cases hk : k = a
    · subst hk
      simp only [ne_eq, not_true_eq_false, decide_false, Bool.false_eq_true, not_false_eq_true, List.filter_cons_of_neg, ih, memGet]
      split <;> simp_all
    · simp only [ne_eq, hk, not_false_eq_true, decide_true, List.filter_cons_of_pos, memGet, ih]
      split
      · next h => subst h; simp [hk]
      · rfl

/-- Reading after writing one byte, whether or not the memory is in canonical form. -/
theorem memGet_memSet (m : Memory) (a a' : Nat) (b : Byte) : memGet (memSet m a b) a' = if a' = a then b else memGet m a' := by
  unfold memSet
  split
  · next h => rw [tget_filter_ne, h]
  · rw [memPut_eq, memGet_eq, tget_tset, memGet_eq]

/-- Reading outside the bytes written. -/
theorem memGet_memSetAll_outside (m : Memory) (a : Nat) (b : List Byte) {a' : Nat} (h : a' < a ∨ a + b.length ≤ a') :
    memGet (memSetAll m a b) a' = memGet m a' := by
  induction b generalizing m a with
  | nil => rfl
  | cons x r ih =>
    simp only [List.length_cons] at h
    rw [memSetAll, ih _ _ (by omega), memGet_memSet, if_neg (by omega)]

/-- Reading one of the bytes written. -/
theorem memGet_memSetAll_inside (m : Memory) (a : Nat) (b : List Byte) (i : Nat) (h : i < b.length) :
    memGet (memSetAll m a b) (a + i) = b[i] := by
  induction b generalizing m a i with
  | nil => simp at h
  | cons x r ih =>
    cases i with
    | zero => rw [memSetAll, memGet_memSetAll_outside _ _ _ (by omega), memGet_memSet]; simp
    | succ j =>
      have := ih (memSet m a x) (a + 1) j (by simpa using h)
      rw [show a + 1 + j = a + (j + 1) by omega] at this
      simpa [memSetAll] using this

theorem memGetAll_length (m : Memory) (a n : Nat) : (memGetAll m a n).length = n := by
  induction n generalizing a with
  | zero => rfl
  | succ n ih => simp [memGetAll, ih]

/-- Reading back a byte string. -/
theorem memGetAll_memSetAll (m : Memory) (a : Nat) (b : List Byte) : memGetAll (memSetAll m a b) a b.length = b := by
  induction b generalizing m a with
  | nil => rfl
  | cons x r ih =>
    simp only [List.length_cons, memGetAll, memSetAll, ih]
    rw [memGet_memSetAll_outside _ _ _ (by omega), memGet_memSet]; simp

/-- A zeroed byte reads as 0, every other as before. -/
theorem memGet_memZero (m : Memory) (a n a' : Nat) :
    memGet (memZero m a n) a' = if a ≤ a' ∧ a' < a + n then 0 else memGet m a' := by
  induction m with
  | nil => simp [memZero, memGet]
  | cons e r ih =>
    obtain ⟨k, b⟩ := e
    by_cases hk : k < a ∨ a + n ≤ k
    · have : memZero ((k, b) :: r) a n = (k, b) :: memZero r a n := by simp [memZero, hk]
      rw [this]; simp only [memGet, ih]
      by_cases h : a' = k
      · subst h; simp; omega
      · simp [h]
    · have : memZero ((k, b) :: r) a n = memZero r a n := by simp [memZero, hk]
      rw [this, ih]; simp only [memGet]
      by_cases h : a' = k
      · subst h; rw [if_pos (by omega), if_pos (by omega)]
      · simp [h]

end Sys2Proof.Machine
end

