-- ==== Sys2Proof/Laws/Changes.lean ====
section
/-!
SUPPORT. What a part of a command may change: `Changes P r s` says that `s` differs from `r` in the parts P of the state at most. Each
operation of the model has one lemma that carries it on (Laws/Changes*.lean).
-/

namespace Sys2Proof.Machine

/-- The states that an outcome answers differ so. -/
structure ChangesAll (P : List Part) (r : State) (o : Host.Outcome State Fault Refusal) : Prop where
  next : ∀ t, o = .next t → Changes P r t

/-- The state that an option holds differs so. -/
structure ChangesOpt (P : List Part) (r : State) (o : Option State) : Prop where
  ch : ∀ t, o = some t → Changes P r t

theorem Changes.refl (P : List Part) (r : State) : Changes P r r := by
  constructor <;> intros <;> rfl

theorem Changes.mono {P Q : List Part} {r s : State} (h : Changes P r s) (hQ : P ⊆ Q) : Changes Q r s where
  pending n := h.pending (fun x => n (hQ x))
  now n := h.now (fun x => n (hQ x))
  fresh n := h.fresh (fun x => n (hQ x))
  objs h1 h2 := h.objs (fun x => h1 (hQ x)) (fun x => h2 (hQ x))
  mram n := h.mram (fun x => n (hQ x))
  defaultsDue n := h.defaultsDue (fun x => n (hQ x))
  votes n := h.votes (fun x => n (hQ x))
  voteSecond n := h.voteSecond (fun x => n (hQ x))
  host n := h.host (fun x => n (hQ x))
  funcs n := h.funcs (fun x => n (hQ x))
  sess n := h.sess (fun x => n (hQ x))
  freeSlots n := h.freeSlots (fun x => n (hQ x))
  resp n := h.resp (fun x => n (hQ x))
  twResp n := h.twResp (fun x => n (hQ x))
  portals n := h.portals (fun x => n (hQ x))
  can n := h.can (fun x => n (hQ x))
  frames n := h.frames (fun x => n (hQ x))
  frameSent n := h.frameSent (fun x => n (hQ x))
  served n := h.served (fun x => n (hQ x))
  transit n := h.transit (fun x => n (hQ x))
  ehrica n := h.ehrica (fun x => n (hQ x))
  rings n := h.rings (fun x => n (hQ x))
  signals n := h.signals (fun x => n (hQ x))
  fenceGen n := h.fenceGen (fun x => n (hQ x))
  ctxs n := h.ctxs (fun x => n (hQ x))
  cores n := h.cores (fun x => n (hQ x))
  progs n := h.progs (fun x => n (hQ x))
  ports n := h.ports (fun x => n (hQ x))
  commits n := h.commits (fun x => n (hQ x))
  surfs n := h.surfs (fun x => n (hQ x))
  scrubs n := h.scrubs (fun x => n (hQ x))
  tilthLog n := h.tilthLog (fun x => n (hQ x))
  balance n := h.balance (fun x => n (hQ x))
  dram n := h.dram (fun x => n (hQ x))
  mem n := h.mem (fun x => n (hQ x))
  hap n := h.hap (fun x => n (hQ x))
  panels n := h.panels (fun x => n (hQ x))
  snd n := h.snd (fun x => n (hQ x))
  fab n := h.fab (fun x => n (hQ x))
  world n := h.world (fun x => n (hQ x))
  pins n := h.pins (fun x => n (hQ x))
  islTime n := h.islTime (fun x => n (hQ x))
  rateStop n := h.rateStop (fun x => n (hQ x))
  migs n := h.migs (fun x => n (hQ x))
  bodies n := h.bodies (fun x => n (hQ x))
  badStored n := h.badStored (fun x => n (hQ x))
  power n := h.power (fun x => n (hQ x))
  refuseLog n := h.refuseLog (fun x => n (hQ x))
  grog n := h.grog (fun x => n (hQ x))
  engineGen n := h.engineGen (fun x => n (hQ x))
  kram n := h.kram (fun x => n (hQ x))
  kold n := h.kold (fun x => n (hQ x))
  notes h1 k hk := h.notes (fun x => h1 (hQ x)) k hk

theorem Changes.trans {P : List Part} {r s t : State} (h : Changes P r s) (h' : Changes P s t) : Changes P r t where
  pending n := (h'.pending n).trans (h.pending n)
  now n := (h'.now n).trans (h.now n)
  fresh n := (h'.fresh n).trans (h.fresh n)
  objs h1 h2 := (h'.objs h1 h2).trans (h.objs h1 h2)
  mram n := (h'.mram n).trans (h.mram n)
  defaultsDue n := (h'.defaultsDue n).trans (h.defaultsDue n)
  votes n := (h'.votes n).trans (h.votes n)
  voteSecond n := (h'.voteSecond n).trans (h.voteSecond n)
  host n := (h'.host n).trans (h.host n)
  funcs n := (h'.funcs n).trans (h.funcs n)
  sess n := (h'.sess n).trans (h.sess n)
  freeSlots n := (h'.freeSlots n).trans (h.freeSlots n)
  resp n := (h'.resp n).trans (h.resp n)
  twResp n := (h'.twResp n).trans (h.twResp n)
  portals n := (h'.portals n).trans (h.portals n)
  can n := (h'.can n).trans (h.can n)
  frames n := (h'.frames n).trans (h.frames n)
  frameSent n := (h'.frameSent n).trans (h.frameSent n)
  served n := (h'.served n).trans (h.served n)
  transit n := (h'.transit n).trans (h.transit n)
  ehrica n := (h'.ehrica n).trans (h.ehrica n)
  rings n := (h'.rings n).trans (h.rings n)
  signals n := (h'.signals n).trans (h.signals n)
  fenceGen n := (h'.fenceGen n).trans (h.fenceGen n)
  ctxs n := (h'.ctxs n).trans (h.ctxs n)
  cores n := (h'.cores n).trans (h.cores n)
  progs n := (h'.progs n).trans (h.progs n)
  ports n := (h'.ports n).trans (h.ports n)
  commits n := (h'.commits n).trans (h.commits n)
  surfs n := (h'.surfs n).trans (h.surfs n)
  scrubs n := (h'.scrubs n).trans (h.scrubs n)
  tilthLog n := (h'.tilthLog n).trans (h.tilthLog n)
  balance n := (h'.balance n).trans (h.balance n)
  dram n := (h'.dram n).trans (h.dram n)
  mem n := (h'.mem n).trans (h.mem n)
  hap n := (h'.hap n).trans (h.hap n)
  panels n := (h'.panels n).trans (h.panels n)
  snd n := (h'.snd n).trans (h.snd n)
  fab n := (h'.fab n).trans (h.fab n)
  world n := (h'.world n).trans (h.world n)
  pins n := (h'.pins n).trans (h.pins n)
  islTime n := (h'.islTime n).trans (h.islTime n)
  rateStop n := (h'.rateStop n).trans (h.rateStop n)
  migs n := (h'.migs n).trans (h.migs n)
  bodies n := (h'.bodies n).trans (h.bodies n)
  badStored n := (h'.badStored n).trans (h.badStored n)
  power n := (h'.power n).trans (h.power n)
  refuseLog n := (h'.refuseLog n).trans (h.refuseLog n)
  grog n := (h'.grog n).trans (h.grog n)
  engineGen n := (h'.engineGen n).trans (h.engineGen n)
  kram n := (h'.kram n).trans (h.kram n)
  kold n := (h'.kold n).trans (h.kold n)
  notes h1 k hk := (h'.notes h1 k hk).trans (h.notes h1 k hk)

theorem part_sub {L Q P : List Part} (hP : Q ⊆ P) (h : L.all (Q.contains ·) = true) : L ⊆ P := fun x hx => by
  have := List.all_eq_true.1 h x hx
  exact hP (by simpa using this)

theorem part_mem {Q P : List Part} {p : Part} (hP : Q ⊆ P) (h : Q.contains p = true) : p ∈ P := hP (by simpa using h)

theorem changesOpt_none {P : List Part} {r : State} : ChangesOpt P r none := ⟨fun _ e => by cases e⟩

theorem changesOpt_some {P : List Part} {r s : State} (h : Changes P r s) : ChangesOpt P r (some s) := ⟨fun _ e => by cases e; exact h⟩

theorem changes_next {P : List Part} {r s : State} (h : Changes P r s) : ChangesAll P r (.next s) := ⟨fun _ e => by cases e; exact h⟩

theorem changes_fault {P : List Part} {r : State} (f : Fault) : ChangesAll P r (.fault f) := ⟨fun _ e => by cases e⟩

theorem ch_ite {P : List Part} {r a b : State} {c : Prop} [Decidable c] (ha : Changes P r a) (hb : Changes P r b) :
    Changes P r (if c then a else b) := by split <;> assumption

theorem ch_ite1 {β : Type} {P : List Part} {r : State} {a b : State × β} {c : Prop} [Decidable c] (ha : Changes P r a.1)
    (hb : Changes P r b.1) : Changes P r (if c then a else b).1 := by split <;> assumption

theorem changes_ite {P : List Part} {r : State} {a b : Host.Outcome State Fault Refusal} {c : Prop} [Decidable c]
    (ha : ChangesAll P r a) (hb : ChangesAll P r b) : ChangesAll P r (if c then a else b) := by split <;> assumption

theorem ch_fst {β : Type} {P : List Part} {r a : State} {b : β} {p : State × β} (e : p = (a, b)) (h : Changes P r p.1) :
    Changes P r a := by
  rw [e] at h; exact h

theorem ch_step {P : List Part} {r x : State} {C : Prop} (h : Changes P r x) (k : Changes P r x → C) : C := k h

theorem ch_step1 {β : Type} {P : List Part} {r : State} {x : State × β} {C : Prop} (h : Changes P r x.1)
    (k : Changes P r x.1 → C) : C := k h

theorem ch_stepF1 {P : List Part} {r : State} {x : State → State} {C : Prop} (h : ∀ y, Changes P r y → Changes P r (x y))
    (k : (∀ y, Changes P r y → Changes P r (x y)) → C) : C := k h

theorem ch_stepF2 {α : Type} {P : List Part} {r : State} {x : State → α → State} {C : Prop}
    (h : ∀ y a, Changes P r y → Changes P r (x y a)) (k : (∀ y a, Changes P r y → Changes P r (x y a)) → C) : C := k h

theorem ch_stepF3 {α β : Type} {P : List Part} {r : State} {x : State → α → β → State} {C : Prop}
    (h : ∀ y a b, Changes P r y → Changes P r (x y a b)) (k : (∀ y a b, Changes P r y → Changes P r (x y a b)) → C) : C := k h

theorem foldl_ch {α : Type} {P : List Part} {r s : State} {f : State → α → State} (l : List α) (h : Changes P r s)
    (hf : ∀ x a, Changes P r x → Changes P r (f x a)) : Changes P r (l.foldl f s) := by
  induction l generalizing s with
  | nil => exact h
  | cons a l ih => exact ih (hf _ _ h)

theorem foldl_ch1 {α β : Type} {P : List Part} {r : State} {s : State × β} {f : State × β → α → State × β} (l : List α)
    (h : Changes P r s.1) (hf : ∀ x a, Changes P r x.1 → Changes P r (f x a).1) : Changes P r (l.foldl f s).1 := by
  induction l generalizing s with
  | nil => exact h
  | cons a l ih => exact ih (hf _ _ h)

theorem foldN_ch {P : List Part} {r s : State} {f : State → Nat → State} (l : List Nat) (h : Changes P r s)
    (hf : ∀ x a, Changes P r x → Changes P r (f x a)) : Changes P r (foldN l f s) := foldl_ch l h hf

/-! ## Updates of fields -/

theorem ch_objs_badStored {P : List Part} {r s : State} {v0 : Tab ObjCell} {v1 : List Nat} (h : Changes P r s) (h0 : Part.objs ∈ P) (h1 : Part.badStored ∈ P) :
    Changes P r { s with objs := v0, badStored := v1 } :=
  { h with objs := fun n => absurd h0 n, notes := fun n => absurd h0 n, badStored := fun n => absurd h1 n }

theorem ch_balance {P : List Part} {r s : State} {v0 : Balance} (h : Changes P r s) (h0 : Part.balance ∈ P) :
    Changes P r { s with balance := v0 } :=
  { h with balance := fun n => absurd h0 n }

theorem ch_migs_bodies {P : List Part} {r s : State} {v0 : Tab Mig} {v1 : List (List Byte × ImageBody)} (h : Changes P r s) (h0 : Part.migs ∈ P) (h1 : Part.bodies ∈ P) :
    Changes P r { s with migs := v0, bodies := v1 } :=
  { h with migs := fun n => absurd h0 n, bodies := fun n => absurd h1 n }

theorem ch_can {P : List Part} {r s : State} {v0 : CanRx} (h : Changes P r s) (h0 : Part.can ∈ P) :
    Changes P r { s with can := v0 } :=
  { h with can := fun n => absurd h0 n }

theorem ch_sess_freeSlots_resp_twResp_can_frames_frameSent_ehrica_pins_power {P : List Part} {r s : State} {v0 : Tab Session} {v1 : List Nat} {v2 : Option (Carrier × Response)} {v3 : Option Response} {v4 : CanRx} {v5 : List EventFrame} {v6 : Option (Nat × List Byte)} {v7 : Tab Nat} {v8 : Tab Pin} {v9 : Power} (h : Changes P r s) (h0 : Part.sess ∈ P) (h1 : Part.freeSlots ∈ P) (h2 : Part.resp ∈ P) (h3 : Part.twResp ∈ P) (h4 : Part.can ∈ P) (h5 : Part.frames ∈ P) (h6 : Part.frameSent ∈ P) (h7 : Part.ehrica ∈ P) (h8 : Part.pins ∈ P) (h9 : Part.power ∈ P) :
    Changes P r { s with sess := v0, freeSlots := v1, resp := v2, twResp := v3, can := v4, frames := v5, frameSent := v6, ehrica := v7, pins := v8, power := v9 } :=
  { h with sess := fun n => absurd h0 n, freeSlots := fun n => absurd h1 n, resp := fun n => absurd h2 n, twResp := fun n => absurd h3 n, can := fun n => absurd h4 n, frames := fun n => absurd h5 n, frameSent := fun n => absurd h6 n, ehrica := fun n => absurd h7 n, pins := fun n => absurd h8 n, power := fun n => absurd h9 n }

theorem ch_commits {P : List Part} {r s : State} {v0 : List PendingCommit} (h : Changes P r s) (h0 : Part.commits ∈ P) :
    Changes P r { s with commits := v0 } :=
  { h with commits := fun n => absurd h0 n }

theorem ch_portals_signals_commits {P : List Part} {r s : State} {v0 : Tab Portal} {v1 : List HeldSignal} {v2 : List PendingCommit} (h : Changes P r s) (h0 : Part.portals ∈ P) (h1 : Part.signals ∈ P) (h2 : Part.commits ∈ P) :
    Changes P r { s with portals := v0, signals := v1, commits := v2 } :=
  { h with portals := fun n => absurd h0 n, signals := fun n => absurd h1 n, commits := fun n => absurd h2 n }

theorem ch_cores {P : List Part} {r s : State} {v0 : Tab Core} (h : Changes P r s) (h0 : Part.cores ∈ P) :
    Changes P r { s with cores := v0 } :=
  { h with cores := fun n => absurd h0 n }

theorem ch_ctxs {P : List Part} {r s : State} {v0 : Tab Ctx} (h : Changes P r s) (h0 : Part.ctxs ∈ P) :
    Changes P r { s with ctxs := v0 } :=
  { h with ctxs := fun n => absurd h0 n }

theorem ch_defaultsDue {P : List Part} {r s : State} {v0 : Bool} (h : Changes P r s) (h0 : Part.defaultsDue ∈ P) :
    Changes P r { s with defaultsDue := v0 } :=
  { h with defaultsDue := fun n => absurd h0 n }

theorem ch_mram_defaultsDue {P : List Part} {r s : State} {v0 : Tab MramObj} {v1 : Bool} (h : Changes P r s) (h0 : Part.mram ∈ P) (h1 : Part.defaultsDue ∈ P) :
    Changes P r { s with mram := v0, defaultsDue := v1 } :=
  { h with mram := fun n => absurd h0 n, defaultsDue := fun n => absurd h1 n }

theorem ch_dram {P : List Part} {r s : State} {v0 : Memory} (h : Changes P r s) (h0 : Part.dram ∈ P) :
    Changes P r { s with dram := v0 } :=
  { h with dram := fun n => absurd h0 n }

theorem ch_ehrica {P : List Part} {r s : State} {v0 : Tab Nat} (h : Changes P r s) (h0 : Part.ehrica ∈ P) :
    Changes P r { s with ehrica := v0 } :=
  { h with ehrica := fun n => absurd h0 n }

theorem ch_engineGen {P : List Part} {r s : State} {v0 : Tab Nat} (h : Changes P r s) (h0 : Part.engineGen ∈ P) :
    Changes P r { s with engineGen := v0 } :=
  { h with engineGen := fun n => absurd h0 n }

theorem ch_fab {P : List Part} {r s : State} {v0 : Fab} (h : Changes P r s) (h0 : Part.fab ∈ P) :
    Changes P r { s with fab := v0 } :=
  { h with fab := fun n => absurd h0 n }

theorem ch_fenceGen {P : List Part} {r s : State} {v0 : Tab Nat} (h : Changes P r s) (h0 : Part.fenceGen ∈ P) :
    Changes P r { s with fenceGen := v0 } :=
  { h with fenceGen := fun n => absurd h0 n }

theorem ch_frames_frameSent {P : List Part} {r s : State} {v0 : List EventFrame} {v1 : Option (Nat × List Byte)} (h : Changes P r s) (h0 : Part.frames ∈ P) (h1 : Part.frameSent ∈ P) :
    Changes P r { s with frames := v0, frameSent := v1 } :=
  { h with frames := fun n => absurd h0 n, frameSent := fun n => absurd h1 n }

theorem ch_frames {P : List Part} {r s : State} {v0 : List EventFrame} (h : Changes P r s) (h0 : Part.frames ∈ P) :
    Changes P r { s with frames := v0 } :=
  { h with frames := fun n => absurd h0 n }

theorem ch_sess_freeSlots {P : List Part} {r s : State} {v0 : Tab Session} {v1 : List Nat} (h : Changes P r s) (h0 : Part.sess ∈ P) (h1 : Part.freeSlots ∈ P) :
    Changes P r { s with sess := v0, freeSlots := v1 } :=
  { h with sess := fun n => absurd h0 n, freeSlots := fun n => absurd h1 n }

theorem ch_fresh {P : List Part} {r s : State} {v0 : Nat} (h : Changes P r s) (h0 : Part.fresh ∈ P) :
    Changes P r { s with fresh := v0 } :=
  { h with fresh := fun n => absurd h0 n }

theorem ch_fresh_world {P : List Part} {r s : State} {v0 : Nat} {v1 : World} (h : Changes P r s) (h0 : Part.fresh ∈ P) (h1 : Part.world ∈ P) :
    Changes P r { s with fresh := v0, world := v1 } :=
  { h with fresh := fun n => absurd h0 n, world := fun n => absurd h1 n }

theorem ch_funcs {P : List Part} {r s : State} {v0 : Tab Func} (h : Changes P r s) (h0 : Part.funcs ∈ P) :
    Changes P r { s with funcs := v0 } :=
  { h with funcs := fun n => absurd h0 n }

theorem ch_grog {P : List Part} {r s : State} {v0 : Grog} (h : Changes P r s) (h0 : Part.grog ∈ P) :
    Changes P r { s with grog := v0 } :=
  { h with grog := fun n => absurd h0 n }

theorem ch_hap {P : List Part} {r s : State} {v0 : Hap} (h : Changes P r s) (h0 : Part.hap ∈ P) :
    Changes P r { s with hap := v0 } :=
  { h with hap := fun n => absurd h0 n }

theorem ch_host {P : List Part} {r s : State} {v0 : Memory} (h : Changes P r s) (h0 : Part.host ∈ P) :
    Changes P r { s with host := v0 } :=
  { h with host := fun n => absurd h0 n }

theorem ch_islTime {P : List Part} {r s : State} {v0 : Tab Nat} (h : Changes P r s) (h0 : Part.islTime ∈ P) :
    Changes P r { s with islTime := v0 } :=
  { h with islTime := fun n => absurd h0 n }

theorem ch_world_islTime_refuseLog_kram {P : List Part} {r s : State} {v0 : World} {v1 : Tab Nat} {v2 : List (List Byte)} {v3 : Memory} (h : Changes P r s) (h0 : Part.world ∈ P) (h1 : Part.islTime ∈ P) (h2 : Part.refuseLog ∈ P) (h3 : Part.kram ∈ P) :
    Changes P r { s with world := v0, islTime := v1, refuseLog := v2, kram := v3 } :=
  { h with world := fun n => absurd h0 n, islTime := fun n => absurd h1 n, refuseLog := fun n => absurd h2 n, kram := fun n => absurd h3 n }

theorem ch_kram_kold {P : List Part} {r s : State} {v0 : Memory} {v1 : List (Nat × Nat × List Byte)} (h : Changes P r s) (h0 : Part.kram ∈ P) (h1 : Part.kold ∈ P) :
    Changes P r { s with kram := v0, kold := v1 } :=
  { h with kram := fun n => absurd h0 n, kold := fun n => absurd h1 n }

theorem ch_kram {P : List Part} {r s : State} {v0 : Memory} (h : Changes P r s) (h0 : Part.kram ∈ P) :
    Changes P r { s with kram := v0 } :=
  { h with kram := fun n => absurd h0 n }

theorem ch_mem {P : List Part} {r s : State} {v0 : Mem} (h : Changes P r s) (h0 : Part.mem ∈ P) :
    Changes P r { s with mem := v0 } :=
  { h with mem := fun n => absurd h0 n }

theorem ch_migs {P : List Part} {r s : State} {v0 : Tab Mig} (h : Changes P r s) (h0 : Part.migs ∈ P) :
    Changes P r { s with migs := v0 } :=
  { h with migs := fun n => absurd h0 n }

theorem ch_mram {P : List Part} {r s : State} {v0 : Tab MramObj} (h : Changes P r s) (h0 : Part.mram ∈ P) :
    Changes P r { s with mram := v0 } :=
  { h with mram := fun n => absurd h0 n }

theorem ch_now {P : List Part} {r s : State} {v0 : Nat} (h : Changes P r s) (h0 : Part.now ∈ P) :
    Changes P r { s with now := v0 } :=
  { h with now := fun n => absurd h0 n }

theorem ch_panels {P : List Part} {r s : State} {v0 : Tab Panel} (h : Changes P r s) (h0 : Part.panels ∈ P) :
    Changes P r { s with panels := v0 } :=
  { h with panels := fun n => absurd h0 n }

theorem ch_pins {P : List Part} {r s : State} {v0 : Tab Pin} (h : Changes P r s) (h0 : Part.pins ∈ P) :
    Changes P r { s with pins := v0 } :=
  { h with pins := fun n => absurd h0 n }

theorem ch_portals {P : List Part} {r s : State} {v0 : Tab Portal} (h : Changes P r s) (h0 : Part.portals ∈ P) :
    Changes P r { s with portals := v0 } :=
  { h with portals := fun n => absurd h0 n }

theorem ch_ports {P : List Part} {r s : State} {v0 : Tab Port} (h : Changes P r s) (h0 : Part.ports ∈ P) :
    Changes P r { s with ports := v0 } :=
  { h with ports := fun n => absurd h0 n }

theorem ch_power {P : List Part} {r s : State} {v0 : Power} (h : Changes P r s) (h0 : Part.power ∈ P) :
    Changes P r { s with power := v0 } :=
  { h with power := fun n => absurd h0 n }

theorem ch_progs {P : List Part} {r s : State} {v0 : Tab Code} (h : Changes P r s) (h0 : Part.progs ∈ P) :
    Changes P r { s with progs := v0 } :=
  { h with progs := fun n => absurd h0 n }

theorem ch_rateStop {P : List Part} {r s : State} {v0 : Tab Nat} (h : Changes P r s) (h0 : Part.rateStop ∈ P) :
    Changes P r { s with rateStop := v0 } :=
  { h with rateStop := fun n => absurd h0 n }

theorem ch_refuseLog {P : List Part} {r s : State} {v0 : List (List Byte)} (h : Changes P r s) (h0 : Part.refuseLog ∈ P) :
    Changes P r { s with refuseLog := v0 } :=
  { h with refuseLog := fun n => absurd h0 n }

theorem ch_resp {P : List Part} {r s : State} {v0 : Option (Carrier × Response)} (h : Changes P r s) (h0 : Part.resp ∈ P) :
    Changes P r { s with resp := v0 } :=
  { h with resp := fun n => absurd h0 n }

theorem ch_rings {P : List Part} {r s : State} {v0 : Tab Ring} (h : Changes P r s) (h0 : Part.rings ∈ P) :
    Changes P r { s with rings := v0 } :=
  { h with rings := fun n => absurd h0 n }

theorem ch_scrubs {P : List Part} {r s : State} {v0 : List Scrub} (h : Changes P r s) (h0 : Part.scrubs ∈ P) :
    Changes P r { s with scrubs := v0 } :=
  { h with scrubs := fun n => absurd h0 n }

theorem ch_served {P : List Part} {r s : State} {v0 : Bool} (h : Changes P r s) (h0 : Part.served ∈ P) :
    Changes P r { s with served := v0 } :=
  { h with served := fun n => absurd h0 n }

theorem ch_sess {P : List Part} {r s : State} {v0 : Tab Session} (h : Changes P r s) (h0 : Part.sess ∈ P) :
    Changes P r { s with sess := v0 } :=
  { h with sess := fun n => absurd h0 n }

theorem ch_signals {P : List Part} {r s : State} {v0 : List HeldSignal} (h : Changes P r s) (h0 : Part.signals ∈ P) :
    Changes P r { s with signals := v0 } :=
  { h with signals := fun n => absurd h0 n }

theorem ch_snd {P : List Part} {r s : State} {v0 : Snd} (h : Changes P r s) (h0 : Part.snd ∈ P) :
    Changes P r { s with snd := v0 } :=
  { h with snd := fun n => absurd h0 n }

theorem ch_surfs {P : List Part} {r s : State} {v0 : Tab Surf} (h : Changes P r s) (h0 : Part.surfs ∈ P) :
    Changes P r { s with surfs := v0 } :=
  { h with surfs := fun n => absurd h0 n }

theorem ch_tilthLog {P : List Part} {r s : State} {v0 : List (List Byte)} (h : Changes P r s) (h0 : Part.tilthLog ∈ P) :
    Changes P r { s with tilthLog := v0 } :=
  { h with tilthLog := fun n => absurd h0 n }

theorem ch_transit {P : List Part} {r s : State} {v0 : List Nat} (h : Changes P r s) (h0 : Part.transit ∈ P) :
    Changes P r { s with transit := v0 } :=
  { h with transit := fun n => absurd h0 n }

theorem ch_twResp {P : List Part} {r s : State} {v0 : Option Response} (h : Changes P r s) (h0 : Part.twResp ∈ P) :
    Changes P r { s with twResp := v0 } :=
  { h with twResp := fun n => absurd h0 n }

theorem ch_voteSecond {P : List Part} {r s : State} {v0 : Nat} (h : Changes P r s) (h0 : Part.voteSecond ∈ P) :
    Changes P r { s with voteSecond := v0 } :=
  { h with voteSecond := fun n => absurd h0 n }

theorem ch_votes {P : List Part} {r s : State} {v0 : Tab (Nat × Nat)} (h : Changes P r s) (h0 : Part.votes ∈ P) :
    Changes P r { s with votes := v0 } :=
  { h with votes := fun n => absurd h0 n }

theorem ch_world {P : List Part} {r s : State} {v0 : World} (h : Changes P r s) (h0 : Part.world ∈ P) :
    Changes P r { s with world := v0 } :=
  { h with world := fun n => absurd h0 n }

theorem ch_objs {P : List Part} {r s : State} {v0 : Tab ObjCell} (h : Changes P r s) (h0 : Part.objs ∈ P) :
    Changes P r { s with objs := v0 } :=
  { h with objs := fun n => absurd h0 n, notes := fun n => absurd h0 n }

theorem putV_ch {P : List Part} {r s : State} {k : Nat} {v : Val} (hP : [.objs] ⊆ P) (h : Changes P r s) : Changes P r (putV s k v) :=
  ch_objs h (hP (by decide))

theorem putN_ch {P : List Part} {r s : State} {k n : Nat} (hP : [.objs] ⊆ P) (h : Changes P r s) : Changes P r (putN s k n) :=
  putV_ch hP h

theorem putB_ch {P : List Part} {r s : State} {k : Nat} {b : Bool} (hP : [.objs] ⊆ P) (h : Changes P r s) : Changes P r (putB s k b) :=
  putV_ch hP h

theorem writeV_ch {P : List Part} {r s : State} {k : Nat} {v : Val} (hP : [.objs] ⊆ P) (h : Changes P r s) :
    Changes P r (writeV s k v) := by
  unfold writeV
  exact ch_ite h (ch_objs h (hP (by decide)))

theorem writeN_ch {P : List Part} {r s : State} {k n : Nat} (hP : [.objs] ⊆ P) (h : Changes P r s) : Changes P r (writeN s k n) :=
  writeV_ch hP h

theorem writeB_ch {P : List Part} {r s : State} {k : Nat} {b : Bool} (hP : [.objs] ⊆ P) (h : Changes P r s) :
    Changes P r (writeB s k b) := writeV_ch hP h

/-- A count that events move. -/
theorem bump_note {P : List Part} {r s : State} {k : Nat} (hP : [.notes] ⊆ P) (hk : noteKey k) (h : Changes P r s) :
    Changes P r (bump s k) := by
  have hn : Part.notes ∈ P := hP (by decide)
  exact { h with
    objs := fun _ n => absurd hn n
    notes := fun n j hj => by
      have : j ≠ k := fun e => hj (e ▸ hk)
      rw [← h.notes n j hj]
      exact tfind_tset_ne _ _ this }

theorem closeSession_ch {P : List Part} {r s : State} {n : Nat} (hP : [.sess, .freeSlots] ⊆ P) (h : Changes P r s) :
    Changes P r (closeSession s n) := by
  unfold closeSession
  exact ch_ite (ch_sess_freeSlots h (hP (by decide)) (hP (by decide))) h

end Sys2Proof.Machine
end

