-- ==== Sys2Proof/Laws/ChangesOps.lean ====
section
/-!
SUPPORT. What each operation of Machine/Ops.lean may change.
-/

namespace Sys2Proof.Machine

theorem bump_ch {P : List Part} {b₀ : State} {s : State} {k : Nat} (hP : [.objs] ⊆ P) (hb₀ : Changes P b₀ s) : Changes P b₀ (bump s k) := by
  unfold bump
  repeat' first
    | with_reducible assumption
    | with_reducible apply putN_ch

theorem bumpBy_ch {P : List Part} {b₀ : State} {s : State} {k n : Nat} (hP : [.objs] ⊆ P) (hb₀ : Changes P b₀ s) : Changes P b₀ (bumpBy s k n) := by
  unfold bumpBy
  repeat' first
    | with_reducible assumption
    | with_reducible apply putN_ch

theorem draw_ch {P : List Part} {b₀ : State} {s : State} (hP : [.fresh] ⊆ P) (hb₀ : Changes P b₀ s) : Changes P b₀ (draw s) := by
  have m_fresh : Part.fresh ∈ P := part_mem hP rfl
  unfold draw
  repeat' first
    | with_reducible assumption
    | fail_if_no_progress (with_reducible refine ch_fresh ?_ m_fresh)

theorem dropTransit_ch {P : List Part} {b₀ : State} {s : State} {k : Nat} (hP : [.transit] ⊆ P) (hb₀ : Changes P b₀ s) : Changes P b₀ (dropTransit s k) := by
  have m_transit : Part.transit ∈ P := part_mem hP rfl
  unfold dropTransit
  repeat' first
    | with_reducible assumption
    | fail_if_no_progress (with_reducible refine ch_transit ?_ m_transit)

theorem addTransit_ch {P : List Part} {b₀ : State} {s : State} {k : Nat} (hP : [.transit] ⊆ P) (hb₀ : Changes P b₀ s) : Changes P b₀ (addTransit s k) := by
  have m_transit : Part.transit ∈ P := part_mem hP rfl
  unfold addTransit
  repeat' first
    | with_reducible assumption
    | fail_if_no_progress (with_reducible refine ch_transit ?_ m_transit)

theorem interruptTw_ch {P : List Part} {b₀ : State} {s : State} {cause : Nat} (hP : [.ehrica] ⊆ P) (hb₀ : Changes P b₀ s) : Changes P b₀ (interruptTw s cause) := by
  have m_ehrica : Part.ehrica ∈ P := part_mem hP rfl
  unfold interruptTw
  repeat' first
    | with_reducible assumption
    | fail_if_no_progress (with_reducible refine ch_ehrica ?_ m_ehrica)

theorem modFunc_ch {P : List Part} {b₀ : State} {s : State} {f : Nat} {g : Func → Func} (hP : [.funcs] ⊆ P) (hb₀ : Changes P b₀ s) : Changes P b₀ (modFunc s f g) := by
  have m_funcs : Part.funcs ∈ P := part_mem hP rfl
  unfold modFunc
  repeat' first
    | with_reducible assumption
    | fail_if_no_progress (with_reducible refine ch_funcs ?_ m_funcs)

theorem modRing_ch {P : List Part} {b₀ : State} {s : State} {h : Nat} {g : Ring → Ring} (hP : [.rings] ⊆ P) (hb₀ : Changes P b₀ s) : Changes P b₀ (modRing s h g) := by
  have m_rings : Part.rings ∈ P := part_mem hP rfl
  unfold modRing
  repeat' first
    | with_reducible assumption
    | fail_if_no_progress (with_reducible refine ch_rings ?_ m_rings)

theorem modCtx_ch {P : List Part} {b₀ : State} {s : State} {c : Nat} {g : Ctx → Ctx} (hP : [.ctxs] ⊆ P) (hb₀ : Changes P b₀ s) : Changes P b₀ (modCtx s c g) := by
  have m_ctxs : Part.ctxs ∈ P := part_mem hP rfl
  unfold modCtx
  repeat' first
    | with_reducible assumption
    | fail_if_no_progress (with_reducible refine ch_ctxs ?_ m_ctxs)

theorem modCore_ch {P : List Part} {b₀ : State} {s : State} {k : Nat} {g : Core → Core} (hP : [.cores] ⊆ P) (hb₀ : Changes P b₀ s) : Changes P b₀ (modCore s k g) := by
  have m_cores : Part.cores ∈ P := part_mem hP rfl
  unfold modCore
  repeat' first
    | with_reducible assumption
    | fail_if_no_progress (with_reducible refine ch_cores ?_ m_cores)

theorem modPort_ch {P : List Part} {b₀ : State} {s : State} {p : Nat} {g : Port → Port} (hP : [.ports] ⊆ P) (hb₀ : Changes P b₀ s) : Changes P b₀ (modPort s p g) := by
  have m_ports : Part.ports ∈ P := part_mem hP rfl
  unfold modPort
  repeat' first
    | with_reducible assumption
    | fail_if_no_progress (with_reducible refine ch_ports ?_ m_ports)

theorem modSurf_ch {P : List Part} {b₀ : State} {s : State} {i : Nat} {g : Surf → Surf} (hP : [.surfs] ⊆ P) (hb₀ : Changes P b₀ s) : Changes P b₀ (modSurf s i g) := by
  have m_surfs : Part.surfs ∈ P := part_mem hP rfl
  unfold modSurf
  repeat' first
    | with_reducible assumption
    | fail_if_no_progress (with_reducible refine ch_surfs ?_ m_surfs)

theorem modSess_ch {P : List Part} {b₀ : State} {s : State} {i : Nat} {g : Session → Session} (hP : [.sess] ⊆ P) (hb₀ : Changes P b₀ s) : Changes P b₀ (modSess s i g) := by
  have m_sess : Part.sess ∈ P := part_mem hP rfl
  unfold modSess
  repeat' first
    | with_reducible assumption
    | fail_if_no_progress (with_reducible refine ch_sess ?_ m_sess)

theorem writeVoted_ch {P : List Part} {b₀ : State} {s : State} {k n : Nat} (hP : [.objs, .votes] ⊆ P) (hb₀ : Changes P b₀ s) : Changes P b₀ (writeVoted s k n) := by
  have m_votes : Part.votes ∈ P := part_mem hP rfl
  unfold writeVoted
  repeat' first
    | with_reducible assumption
    | with_reducible apply writeN_ch
    | ((with_reducible refine part_sub hP ?_); rfl)
    | (extract_lets +onlyGivenNames x; refine ch_step (P := P) (r := b₀) (x := x) ?_ (fun hx => ?_); subst x; rotate_left; clear_value x; revert x; intro _ _)
    | fail_if_no_progress (with_reducible refine ch_votes ?_ m_votes)

theorem modGrog_ch {P : List Part} {b₀ : State} {s : State} {g : Grog → Grog} (hP : [.grog] ⊆ P) (hb₀ : Changes P b₀ s) : Changes P b₀ (modGrog s g) := by
  have m_grog : Part.grog ∈ P := part_mem hP rfl
  unfold modGrog
  repeat' first
    | with_reducible assumption
    | fail_if_no_progress (with_reducible refine ch_grog ?_ m_grog)

theorem grogLog_ch {P : List Part} {b₀ : State} {s : State} {cls kind unit spare cause detail gen : Nat} (hP : [.grog] ⊆ P) (hb₀ : Changes P b₀ s) : Changes P b₀ (grogLog s cls kind unit spare cause detail gen) := by
  unfold grogLog
  repeat' first
    | with_reducible assumption
    | with_reducible apply modGrog_ch

theorem setPend_ch {P : List Part} {b₀ : State} {s : State} {f c : Nat} (hP : [.funcs] ⊆ P) (hb₀ : Changes P b₀ s) : Changes P b₀ (setPend s f c) := by
  unfold setPend
  repeat' first
    | with_reducible assumption
    | with_reducible apply hf1
    | with_reducible apply hf2
    | with_reducible apply hf3
    | with_reducible apply modFunc_ch
    | (extract_lets +onlyGivenNames x; clear_value x; revert x; intro _)
    | with_reducible apply ch_ite

theorem pushNote_ch {P : List Part} {b₀ : State} {s : State} {i : Nat} {n : Note} (hP : [.sess, .notes] ⊆ P) (hb₀ : Changes P b₀ s) :
    Changes P b₀ (pushNote s i n) := by
  unfold pushNote
  extract_lets ns t
  have h : Changes P b₀ t := ch_sess hb₀ (part_mem hP rfl)
  exact ch_ite (bump_note (part_sub hP rfl) (Or.inl rfl) h) h

theorem notifyAll_ch {P : List Part} {b₀ : State} {s : State} {cls : Nat} {fs : List Nat} {n : Note} (hP : [.sess, .notes] ⊆ P) (hb₀ : Changes P b₀ s) : Changes P b₀ (notifyAll s cls fs n) := by
  unfold notifyAll
  repeat' first
    | with_reducible assumption
    | with_reducible apply pushNote_ch
    | with_reducible apply foldN_ch
    | (intro x a hx; try beta_reduce)

theorem healthEvent_ch {P : List Part} {b₀ : State} {s : State} {code : Nat} {detail : List Byte} (hP : [.funcs, .sess, .notes] ⊆ P) (hb₀ : Changes P b₀ s) : Changes P b₀ (healthEvent s code detail) := by
  unfold healthEvent
  repeat' first
    | with_reducible assumption
    | with_reducible apply setPend_ch
    | with_reducible apply notifyAll_ch
    | ((with_reducible refine part_sub hP ?_); rfl)

theorem countRepair_ch {P : List Part} {b₀ : State} {s : State} (hP : [.voteSecond, .funcs, .sess, .notes] ⊆ P) (hb₀ : Changes P b₀ s) :
    Changes P b₀ (countRepair s) := by
  unfold countRepair
  extract_lets t
  have h : Changes P b₀ t := bump_note (part_sub hP rfl) (Or.inr (Or.inl rfl)) hb₀
  exact ch_ite h (ch_voteSecond (healthEvent_ch (part_sub hP rfl) h) (part_mem hP rfl))

theorem countBadVote_ch {P : List Part} {b₀ : State} {s : State} (hP : [.fresh, .funcs, .grog, .notes] ⊆ P) (hb₀ : Changes P b₀ s) :
    Changes P b₀ (countBadVote s) := by
  unfold countBadVote
  exact grogLog_ch (part_sub hP rfl) (setPend_ch (part_sub hP rfl)
    (bump_note (part_sub hP rfl) (Or.inr (Or.inr (Or.inl rfl))) (ch_fresh hb₀ (part_mem hP rfl))))

theorem voteMask_ch {P : List Part} {b₀ : State} {s : State} {f : Nat} (hP : [.fresh, .voteSecond, .funcs, .sess, .grog, .notes] ⊆ P) (hb₀ : Changes P b₀ s) : Changes P b₀ (voteMask s f) := by
  unfold voteMask
  repeat' first
    | with_reducible assumption
    | with_reducible apply modFunc_ch
    | with_reducible apply countRepair_ch
    | with_reducible apply countBadVote_ch
    | ((with_reducible refine part_sub hP ?_); rfl)
    | (extract_lets +onlyGivenNames x; clear_value x; revert x; intro _)
    | with_reducible apply ch_ite
    | split

theorem voteMsix_ch {P : List Part} {b₀ : State} {s : State} {f v : Nat} (hP : [.fresh, .voteSecond, .funcs, .sess, .grog, .notes] ⊆ P) (hb₀ : Changes P b₀ s) : Changes P b₀ (voteMsix s f v) := by
  unfold voteMsix
  repeat' first
    | with_reducible assumption
    | with_reducible apply modFunc_ch
    | with_reducible apply countRepair_ch
    | with_reducible apply countBadVote_ch
    | ((with_reducible refine part_sub hP ?_); rfl)
    | (extract_lets +onlyGivenNames x; clear_value x; revert x; intro _)
    | with_reducible apply ch_ite
    | split

theorem voteField_ch {P : List Part} {b₀ : State} {s : State} {k : Nat} (hP : [.fresh, .objs, .votes, .voteSecond, .funcs, .sess, .grog, .notes] ⊆ P) (hb₀ : Changes P b₀ s) : Changes P b₀ (voteField s k).1 := by
  have m_votes : Part.votes ∈ P := part_mem hP rfl
  unfold voteField
  repeat' first
    | with_reducible assumption
    | with_reducible apply putN_ch
    | with_reducible apply countRepair_ch
    | with_reducible apply countBadVote_ch
    | ((with_reducible refine part_sub hP ?_); rfl)
    | (extract_lets +onlyGivenNames x; refine ch_step (P := P) (r := b₀) (x := x) ?_ (fun hx => ?_); subst x; rotate_left; clear_value x; revert x; intro _ _)
    | (extract_lets +onlyGivenNames x; clear_value x; revert x; intro _)
    | fail_if_no_progress (with_reducible refine ch_votes ?_ m_votes)
    | with_reducible apply ch_ite
    | with_reducible apply ch_ite1
    | split

theorem voteRing_ch {P : List Part} {b₀ : State} {s : State} {h : Nat} (hP : [.fresh, .objs, .votes, .voteSecond, .funcs, .sess, .rings, .grog, .notes] ⊆ P) (hb₀ : Changes P b₀ s) : Changes P b₀ (voteRing s h) := by
  unfold voteRing
  repeat' first
    | with_reducible assumption
    | with_reducible apply modRing_ch
    | with_reducible apply voteField_ch
    | ((with_reducible refine part_sub hP ?_); rfl)
    | with_reducible apply foldl_ch
    | with_reducible apply foldl_ch1
    | (intro x a hx; try beta_reduce)
    | with_reducible refine ch_fst (by with_reducible assumption) ?_
    | with_reducible apply ch_ite
    | split

theorem raiseVec_ch {P : List Part} {b₀ : State} {s : State} {f v : Nat} (hP : [.fresh, .voteSecond, .funcs, .sess, .grog, .notes] ⊆ P) (hb₀ : Changes P b₀ s) : Changes P b₀ (raiseVec s f v) := by
  unfold raiseVec
  repeat' first
    | with_reducible assumption
    | with_reducible apply modFunc_ch
    | with_reducible apply voteMsix_ch
    | ((with_reducible refine part_sub hP ?_); rfl)

theorem raiseClass_ch {P : List Part} {b₀ : State} {s : State} {f c : Nat} (hP : [.fresh, .voteSecond, .funcs, .sess, .grog, .notes] ⊆ P) (hb₀ : Changes P b₀ s) : Changes P b₀ (raiseClass s f c) := by
  unfold raiseClass
  repeat' first
    | with_reducible assumption
    | with_reducible apply hf1
    | with_reducible apply hf2
    | with_reducible apply hf3
    | with_reducible apply modFunc_ch
    | with_reducible apply voteMask_ch
    | with_reducible apply raiseVec_ch
    | ((with_reducible refine part_sub hP ?_); rfl)
    | (extract_lets +onlyGivenNames x; refine ch_step (P := P) (r := b₀) (x := x) ?_ (fun hx => ?_); subst x; rotate_left; clear_value x; revert x; intro _ _)
    | (extract_lets +onlyGivenNames x; clear_value x; revert x; intro _)
    | with_reducible apply ch_ite

theorem emit_ch {P : List Part} {b₀ : State} {s : State} {cls code inst : Nat} {detail : List Byte} {fs : List Nat} (hP : [.fresh, .voteSecond, .funcs, .sess, .grog, .notes] ⊆ P) (hb₀ : Changes P b₀ s) : Changes P b₀ (emit s cls code inst detail fs) := by
  unfold emit
  repeat' first
    | with_reducible assumption
    | with_reducible apply notifyAll_ch
    | with_reducible apply raiseClass_ch
    | ((with_reducible refine part_sub hP ?_); rfl)
    | with_reducible apply foldN_ch
    | (intro x a hx; try beta_reduce)

theorem sideFrame_ch {P : List Part} {b₀ : State} {s : State} {kaolin : Bool} {code inst : Nat} {detail : List Byte} (hP : [.frames, .notes] ⊆ P)
    (hb₀ : Changes P b₀ s) : Changes P b₀ (sideFrame s kaolin code inst detail) := by
  unfold sideFrame
  exact ch_ite (bump_note (part_sub hP rfl) (Or.inr (Or.inr (Or.inr (Or.inl rfl)))) (ch_frames hb₀ (part_mem hP rfl)))
    (ch_frames hb₀ (part_mem hP rfl))

theorem emitSb_ch {P : List Part} {b₀ : State} {s : State} {cls code inst : Nat} {detail : List Byte} {fs : List Nat} (hP : [.fresh, .voteSecond, .funcs, .sess, .frames, .grog, .notes] ⊆ P) (hb₀ : Changes P b₀ s) : Changes P b₀ (emitSb s cls code inst detail fs) := by
  unfold emitSb
  repeat' first
    | with_reducible assumption
    | with_reducible apply emit_ch
    | with_reducible apply sideFrame_ch
    | ((with_reducible refine part_sub hP ?_); rfl)

theorem markPage_ch {P : List Part} {b₀ : State} {s : State} {v page : Nat} (hP : [.host] ⊆ P) (hb₀ : Changes P b₀ s) : Changes P b₀ (markPage s v page) := by
  have m_host : Part.host ∈ P := part_mem hP rfl
  unfold markPage
  repeat' first
    | with_reducible assumption
    | (extract_lets +onlyGivenNames x; clear_value x; revert x; intro _)
    | fail_if_no_progress (with_reducible refine ch_host ?_ m_host)

theorem markDirty_ch {P : List Part} {b₀ : State} {s : State} {f a n : Nat} (hP : [.host, .notes] ⊆ P) (hb₀ : Changes P b₀ s) :
    Changes P b₀ (markDirty s f a n) := by
  unfold markDirty
  split
  · exact hb₀
  · next hf =>
    have h : ∀ l, Changes P b₀ (foldN l (fun s p => markPage s f p) s) := fun l =>
      foldN_ch l hb₀ fun x a hx => markPage_ch (part_sub hP rfl) hx
    exact ch_ite (h _) (bump_note (part_sub hP rfl)
      (Or.inr (Or.inr (Or.inr (Or.inr ⟨f, by omega, by omega, rfl⟩)))) (h _))

theorem hostWrite_ch {P : List Part} {b₀ : State} {s : State} {f a : Nat} {b : List Byte} (hP : [.host, .notes] ⊆ P) (hb₀ : Changes P b₀ s) : Changes P b₀ (hostWrite s f a b) := by
  have m_host : Part.host ∈ P := part_mem hP rfl
  unfold hostWrite
  repeat' first
    | with_reducible assumption
    | with_reducible apply markDirty_ch
    | fail_if_no_progress (with_reducible refine ch_host ?_ m_host)

theorem countDrop_ch {P : List Part} {b₀ : State} {s : State} {h f : Nat} (hP : [.funcs, .rings] ⊆ P) (hb₀ : Changes P b₀ s) : Changes P b₀ (countDrop s h f) := by
  unfold countDrop
  repeat' first
    | with_reducible assumption
    | with_reducible apply modFunc_ch
    | with_reducible apply modRing_ch
    | ((with_reducible refine part_sub hP ?_); rfl)

theorem writeCompletion_ch {P : List Part} {b₀ : State} {s : State} {c : HeldCompletion} (hP : [.fresh, .voteSecond, .host, .funcs, .sess, .rings, .grog, .notes] ⊆ P) (hb₀ : Changes P b₀ s) : Changes P b₀ (writeCompletion s c) := by
  unfold writeCompletion
  repeat' first
    | with_reducible assumption
    | with_reducible apply modRing_ch
    | with_reducible apply raiseVec_ch
    | with_reducible apply hostWrite_ch
    | ((with_reducible refine part_sub hP ?_); rfl)
    | (extract_lets +onlyGivenNames x; refine ch_step (P := P) (r := b₀) (x := x) ?_ (fun hx => ?_); subst x; rotate_left; clear_value x; revert x; intro _ _)
    | (extract_lets +onlyGivenNames x; clear_value x; revert x; intro _)
    | with_reducible apply ch_ite

theorem completeAlways_ch {P : List Part} {b₀ : State} {s : State} {t : Ticket} {status result detail : Nat} (hP : [.fresh, .voteSecond, .host, .funcs, .sess, .rings, .grog, .notes] ⊆ P) (hb₀ : Changes P b₀ s) : Changes P b₀ (completeAlways s t status result detail) := by
  unfold completeAlways
  repeat' first
    | with_reducible assumption
    | with_reducible apply modRing_ch
    | with_reducible apply writeCompletion_ch
    | ((with_reducible refine part_sub hP ?_); rfl)
    | (extract_lets +onlyGivenNames x; clear_value x; revert x; intro _)
    | with_reducible refine ch_fst (by with_reducible assumption) ?_
    | with_reducible apply ch_ite

theorem complete_ch {P : List Part} {b₀ : State} {s : State} {t : Ticket} {status result detail : Nat} (hP : [.fresh, .voteSecond, .host, .funcs, .sess, .rings, .grog, .notes] ⊆ P) (hb₀ : Changes P b₀ s) : Changes P b₀ (complete s t status result detail) := by
  unfold complete
  repeat' first
    | with_reducible assumption
    | with_reducible apply completeAlways_ch
    | with_reducible apply ch_ite

theorem completeR_ch {P : List Part} {b₀ : State} {s : State} {t : Ticket} {status result : Nat} (hP : [.fresh, .voteSecond, .host, .funcs, .sess, .rings, .grog, .notes] ⊆ P) (hb₀ : Changes P b₀ s) : Changes P b₀ (completeR s t status result) := by
  unfold completeR
  repeat' first
    | with_reducible assumption
    | with_reducible apply draw_ch
    | with_reducible apply complete_ch
    | ((with_reducible refine part_sub hP ?_); rfl)

theorem completeOpen_ch {P : List Part} {b₀ : State} {s : State} {t : Ticket} {status : Nat} (hP : [.fresh, .voteSecond, .host, .funcs, .sess, .rings, .grog, .notes] ⊆ P) (hb₀ : Changes P b₀ s) : Changes P b₀ (completeOpen s t status) := by
  unfold completeOpen
  repeat' first
    | with_reducible assumption
    | with_reducible apply draw_ch
    | with_reducible apply complete_ch
    | ((with_reducible refine part_sub hP ?_); rfl)

theorem completeOpenAlways_ch {P : List Part} {b₀ : State} {s : State} {t : Ticket} {status : Nat} (hP : [.fresh, .voteSecond, .host, .funcs, .sess, .rings, .grog, .notes] ⊆ P) (hb₀ : Changes P b₀ s) : Changes P b₀ (completeOpenAlways s t status) := by
  unfold completeOpenAlways
  repeat' first
    | with_reducible assumption
    | with_reducible apply draw_ch
    | with_reducible apply completeAlways_ch
    | ((with_reducible refine part_sub hP ?_); rfl)

theorem countDropped_ch {P : List Part} {b₀ : State} {s : State} {t : Ticket} (hP : [.objs] ⊆ P) (hb₀ : Changes P b₀ s) : Changes P b₀ (countDropped s t) := by
  unfold countDropped
  repeat' first
    | with_reducible assumption
    | with_reducible apply bump_ch
    | with_reducible apply ch_ite

theorem droppedBy_ch {P : List Part} {b₀ : State} {s : State} {t : Ticket} (hP : [.fresh, .objs, .voteSecond, .host, .funcs, .sess, .rings, .grog, .notes] ⊆ P) (hb₀ : Changes P b₀ s) : ChangesOpt P b₀ (droppedBy s t) := by
  unfold droppedBy
  repeat' first
    | with_reducible assumption
    | with_reducible apply complete_ch
    | with_reducible apply completeR_ch
    | with_reducible apply countDropped_ch
    | ((with_reducible refine part_sub hP ?_); rfl)
    | with_reducible apply ch_ite
    | split
    | with_reducible exact changesOpt_none
    | with_reducible apply changesOpt_some

theorem drainHeld_ch {P : List Part} {b₀ : State} {n : Nat} {s : State} {h : Nat} (hP : [.fresh, .voteSecond, .host, .funcs, .sess, .rings, .grog, .notes] ⊆ P) (hb₀ : Changes P b₀ s) :
    Changes P b₀ (drainHeld n s h) := by
  induction n generalizing s with
  | zero => exact hb₀
  | succ n ih =>
    unfold drainHeld
    repeat' first
      | assumption
      | with_reducible apply ih
      | with_reducible apply writeCompletion_ch
      | with_reducible apply modRing_ch
      | exact part_sub hP rfl
      | split

theorem hostPlace_ch {P : List Part} {b₀ : State} {s : State} {f : Nat} {l : List (BitVec 64 × List Byte)} (hP : [.host] ⊆ P) (hb₀ : Changes P b₀ s) : Changes P b₀ (hostPlace s f l) := by
  have m_host : Part.host ∈ P := part_mem hP rfl
  unfold hostPlace
  repeat' first
    | with_reducible assumption
    | with_reducible apply foldl_ch
    | with_reducible apply foldl_ch1
    | fail_if_no_progress (with_reducible refine ch_host ?_ m_host)

theorem placeCmd_ch {P : List Part} {b₀ : State} {s : State} {h : CmdHdr} {op : Nat} {pay : List Byte} (hP : [.host] ⊆ P) (hb₀ : Changes P b₀ s) : Changes P b₀ (placeCmd s h op pay) := by
  unfold placeCmd
  repeat' first
    | with_reducible assumption
    | with_reducible apply hostPlace_ch

theorem takeCmd_ch {P : List Part} {b₀ : State} {s : State} {h : CmdHdr} {op : Nat} {pay : List Byte} (hP : [.fresh, .voteSecond, .host, .funcs, .sess, .rings, .grog, .notes] ⊆ P) (hb₀ : Changes P b₀ s) : Changes P b₀ (takeCmd s h op pay).1 := by
  unfold takeCmd
  repeat' first
    | with_reducible assumption
    | with_reducible apply modRing_ch
    | with_reducible apply complete_ch
    | with_reducible apply placeCmd_ch
    | ((with_reducible refine part_sub hP ?_); rfl)

theorem spoof_ch {P : List Part} {b₀ : State} {s : State} {t : Ticket} {h : CmdHdr} {checks : Nat} (hP : [.fresh, .objs, .voteSecond, .host, .funcs, .sess, .rings, .grog, .notes] ⊆ P) (hb₀ : Changes P b₀ s) : Changes P b₀ (spoof s t h checks) := by
  unfold spoof
  repeat' first
    | with_reducible assumption
    | with_reducible apply putN_ch
    | with_reducible apply bump_ch
    | with_reducible apply modFunc_ch
    | with_reducible apply emit_ch
    | with_reducible apply countDrop_ch
    | with_reducible apply completeOpenAlways_ch
    | ((with_reducible refine part_sub hP ?_); rfl)
    | with_reducible apply ch_ite

theorem beginCmd_ch {P : List Part} {b₀ : State} {s : State} {h : CmdHdr} {op : Nat} {pay : List Byte} {write : Bool} (hP : [.fresh, .objs, .votes, .voteSecond, .host, .funcs, .sess, .rings, .grog, .notes] ⊆ P) (hb₀ : Changes P b₀ s) : Changes P b₀ (beginCmd s h op pay write).1 := by
  unfold beginCmd
  repeat' first
    | with_reducible assumption
    | with_reducible apply voteRing_ch
    | with_reducible apply takeCmd_ch
    | with_reducible apply spoof_ch
    | ((with_reducible refine part_sub hP ?_); rfl)
    | (extract_lets +onlyGivenNames x; refine ch_step (P := P) (r := b₀) (x := x) ?_ (fun hx => ?_); subst x; rotate_left; clear_value x; revert x; intro _ _)
    | with_reducible refine ch_fst (by with_reducible assumption) ?_
    | with_reducible apply ch_ite
    | with_reducible apply ch_ite1

end Sys2Proof.Machine
end

