-- ==== Sys2Proof/Laws/ChangesSurfaces.lean ====
section
/-!
SUPPORT. What each operation of Machine/Surfaces.lean may change.
-/

namespace Sys2Proof.Machine

theorem tilthEntry_ch {P : List Part} {b₀ : State} {s : State} {kind reason flags subject old new : Nat} (hP : [.objs, .tilthLog] ⊆ P) (hb₀ : Changes P b₀ s) : Changes P b₀ (tilthEntry s kind reason flags subject old new) := by
  have m_tilthLog : Part.tilthLog ∈ P := part_mem hP rfl
  unfold tilthEntry
  repeat' first
    | with_reducible assumption
    | with_reducible apply putN_ch
    | ((with_reducible refine part_sub hP ?_); rfl)
    | fail_if_no_progress (with_reducible refine ch_tilthLog ?_ m_tilthLog)

theorem hintMiss_ch {P : List Part} {b₀ : State} {s : State} (hP : [.objs] ⊆ P) (hb₀ : Changes P b₀ s) : Changes P b₀ (hintMiss s) := by
  unfold hintMiss
  repeat' first
    | with_reducible assumption
    | with_reducible apply bump_ch

theorem zeroUnit_ch {P : List Part} {b₀ : State} {s : State} {u base size : Nat} (hP : [.dram] ⊆ P) (hb₀ : Changes P b₀ s) : Changes P b₀ (zeroUnit s u base size) := by
  have m_dram : Part.dram ∈ P := part_mem hP rfl
  unfold zeroUnit
  repeat' first
    | with_reducible assumption
    | (extract_lets +onlyGivenNames x; clear_value x; revert x; intro _)
    | fail_if_no_progress (with_reducible refine ch_dram ?_ m_dram)

theorem allocSurface_ch {P : List Part} {b₀ : State} {s : State} {i u base : Nat} {kept : Bool} (hP : [.objs, .surfs, .tilthLog, .dram] ⊆ P) (hb₀ : Changes P b₀ s) : Changes P b₀ (allocSurface s i u base kept) := by
  unfold allocSurface
  repeat' first
    | with_reducible assumption
    | with_reducible apply putN_ch
    | with_reducible apply modSurf_ch
    | with_reducible apply tilthEntry_ch
    | with_reducible apply hintMiss_ch
    | with_reducible apply zeroUnit_ch
    | ((with_reducible refine part_sub hP ?_); rfl)
    | (extract_lets +onlyGivenNames x; refine ch_step (P := P) (r := b₀) (x := x) ?_ (fun hx => ?_); subst x; rotate_left; clear_value x; revert x; intro _ _)
    | (extract_lets +onlyGivenNames x; clear_value x; revert x; intro _)
    | with_reducible apply ch_ite

theorem releaseSurface_ch {P : List Part} {b₀ : State} {s : State} {i : Nat} (hP : [.objs, .surfs, .scrubs] ⊆ P) (hb₀ : Changes P b₀ s) : Changes P b₀ (releaseSurface s i) := by
  have m_scrubs : Part.scrubs ∈ P := part_mem hP rfl
  unfold releaseSurface
  repeat' first
    | with_reducible assumption
    | with_reducible apply putN_ch
    | with_reducible apply modSurf_ch
    | ((with_reducible refine part_sub hP ?_); rfl)
    | with_reducible refine ch_fst (by with_reducible assumption) ?_
    | fail_if_no_progress (with_reducible refine ch_scrubs ?_ m_scrubs)

theorem releaseReset_ch {P : List Part} {b₀ : State} {s : State} (hP : [.objs, .surfs, .scrubs] ⊆ P) (hb₀ : Changes P b₀ s) : Changes P b₀ (releaseReset s) := by
  unfold releaseReset
  repeat' first
    | with_reducible assumption
    | with_reducible apply writeB_ch
    | with_reducible apply releaseSurface_ch
    | ((with_reducible refine part_sub hP ?_); rfl)
    | with_reducible apply foldN_ch
    | (intro x a hx; try beta_reduce)
    | with_reducible apply ch_ite

theorem scrubSurface_ch {P : List Part} {b₀ : State} {s : State} {i : Nat} (hP : [.scrubs, .dram] ⊆ P) (hb₀ : Changes P b₀ s) : Changes P b₀ (scrubSurface s i) := by
  have m_scrubs : Part.scrubs ∈ P := part_mem hP rfl
  unfold scrubSurface
  repeat' first
    | with_reducible assumption
    | with_reducible apply zeroUnit_ch
    | ((with_reducible refine part_sub hP ?_); rfl)
    | fail_if_no_progress (with_reducible refine ch_scrubs ?_ m_scrubs)
    | with_reducible apply ch_ite
    | split

theorem surfApply_ch {P : List Part} {b₀ : State} {s : State} {i sub v : Nat} (hP : [.objs, .surfs, .scrubs, .tilthLog, .dram] ⊆ P) (hb₀ : Changes P b₀ s) : Changes P b₀ (surfApply s i sub v) := by
  unfold surfApply
  repeat' first
    | with_reducible assumption
    | with_reducible apply writeN_ch
    | with_reducible apply allocSurface_ch
    | with_reducible apply releaseSurface_ch
    | ((with_reducible refine part_sub hP ?_); rfl)
    | (extract_lets +onlyGivenNames x; refine ch_step (P := P) (r := b₀) (x := x) ?_ (fun hx => ?_); subst x; rotate_left; clear_value x; revert x; intro _ _)
    | (extract_lets +onlyGivenNames x; clear_value x; revert x; intro _)
    | with_reducible apply ch_ite
    | split

end Sys2Proof.Machine
end

