-- ==== Sys2Proof/Laws/ChangesCompose.lean ====
section
/-!
SUPPORT. What each operation of Machine/Compose.lean may change.
-/

namespace Sys2Proof.Machine

theorem recomputeRuns_ch {P : List Part} {b₀ : State} {s : State} (hP : [.ports] ⊆ P) (hb₀ : Changes P b₀ s) : Changes P b₀ (recomputeRuns s) := by
  unfold recomputeRuns
  repeat' first
    | with_reducible assumption
    | with_reducible apply modPort_ch
    | with_reducible apply foldl_ch
    | with_reducible apply foldl_ch1
    | (intro x a hx; try beta_reduce)

theorem applyLayerPlan_ch {P : List Part} {b₀ : State} {s : State} {p k : Nat} {old new : RunPlan} (hP : [.fresh, .objs, .voteSecond, .funcs, .sess, .tilthLog, .grog, .notes] ⊆ P) (hb₀ : Changes P b₀ s) : Changes P b₀ (applyLayerPlan s p k old new) := by
  unfold applyLayerPlan
  repeat' first
    | with_reducible assumption
    | with_reducible apply putN_ch
    | with_reducible apply putB_ch
    | with_reducible apply bump_ch
    | with_reducible apply raiseClass_ch
    | with_reducible apply tilthEntry_ch
    | with_reducible apply hintMiss_ch
    | ((with_reducible refine part_sub hP ?_); rfl)
    | with_reducible apply foldN_ch
    | (intro x a hx; try beta_reduce)
    | (extract_lets +onlyGivenNames x; refine ch_step (P := P) (r := b₀) (x := x) ?_ (fun hx => ?_); subst x; rotate_left; clear_value x; revert x; intro _ _)
    | (extract_lets +onlyGivenNames x; clear_value x; revert x; intro _)
    | with_reducible apply ch_ite

theorem takeBuffer_ch {P : List Part} {b₀ : State} {s : State} {p : Nat} {run : Bool} (hP : [.objs, .ports, .tilthLog] ⊆ P) (hb₀ : Changes P b₀ s) : Changes P b₀ (takeBuffer s p run) := by
  unfold takeBuffer
  repeat' first
    | with_reducible assumption
    | with_reducible apply modPort_ch
    | with_reducible apply tilthEntry_ch
    | ((with_reducible refine part_sub hP ?_); rfl)
    | (extract_lets +onlyGivenNames x; refine ch_step (P := P) (r := b₀) (x := x) ?_ (fun hx => ?_); subst x; rotate_left; clear_value x; revert x; intro _ _)
    | (extract_lets +onlyGivenNames x; clear_value x; revert x; intro _)
    | with_reducible apply ch_ite
    | split

theorem applyPlan_ch {P : List Part} {b₀ : State} {s : State} {p : Nat} (hP : [.fresh, .objs, .voteSecond, .funcs, .sess, .ports, .tilthLog, .grog, .notes] ⊆ P) (hb₀ : Changes P b₀ s) : Changes P b₀ (applyPlan s p) := by
  unfold applyPlan
  repeat' first
    | with_reducible assumption
    | with_reducible apply putN_ch
    | with_reducible apply modPort_ch
    | with_reducible apply applyLayerPlan_ch
    | with_reducible apply takeBuffer_ch
    | ((with_reducible refine part_sub hP ?_); rfl)
    | with_reducible apply foldN_ch
    | (intro x a hx; try beta_reduce)

theorem modRow_ch {P : List Part} {b₀ : State} {s : State} {p r : Nat} {g : TileRow → TileRow} (hP : [.ports] ⊆ P) (hb₀ : Changes P b₀ s) : Changes P b₀ (modRow s p r g) := by
  unfold modRow
  repeat' first
    | with_reducible assumption
    | with_reducible apply modPort_ch

theorem layerSetApply_ch {P : List Part} {b₀ : State} {s : State} {p k surface : Nat} {y : LayerSetPayload} (hP : [.objs] ⊆ P) (hb₀ : Changes P b₀ s) : Changes P b₀ (layerSetApply s p k surface y) := by
  unfold layerSetApply
  repeat' first
    | with_reducible assumption
    | with_reducible apply writeN_ch
    | with_reducible apply foldl_ch
    | with_reducible apply foldl_ch1
    | (intro x a hx; try beta_reduce)

end Sys2Proof.Machine
end

