-- ==== Sys2Proof/Laws/ChangesDomains.lean ====
section
/-!
SUPPORT. What each operation of Machine/Domains.lean may change.
-/

namespace Sys2Proof.Machine

theorem settleDomain_ch {P : List Part} {b₀ : State} {s : State} {d : Nat} (hP : [.objs, .served, .power] ⊆ P) (hb₀ : Changes P b₀ s) : Changes P b₀ (settleDomain s d) := by
  have m_served : Part.served ∈ P := part_mem hP rfl
  have m_power : Part.power ∈ P := part_mem hP rfl
  unfold settleDomain
  repeat' first
    | with_reducible assumption
    | with_reducible apply putN_ch
    | ((with_reducible refine part_sub hP ?_); rfl)
    | (extract_lets +onlyGivenNames x; refine ch_step (P := P) (r := b₀) (x := x) ?_ (fun hx => ?_); subst x; rotate_left; clear_value x; revert x; intro _ _)
    | (extract_lets +onlyGivenNames x; clear_value x; revert x; intro _)
    | fail_if_no_progress (with_reducible refine ch_power ?_ m_power)
    | fail_if_no_progress (with_reducible refine ch_served ?_ m_served)
    | with_reducible apply ch_ite

theorem askDomain_ch {P : List Part} {b₀ : State} {s : State} {d : Nat} (hP : [.ehrica] ⊆ P) (hb₀ : Changes P b₀ s) : Changes P b₀ (askDomain s d) := by
  unfold askDomain
  repeat' first
    | with_reducible assumption
    | with_reducible apply interruptTw_ch
    | with_reducible apply ch_ite

theorem settle_ch {P : List Part} {b₀ : State} {s : State} (hP : [.objs, .served, .power] ⊆ P) (hb₀ : Changes P b₀ s) : Changes P b₀ (settle s) := by
  unfold settle
  repeat' first
    | with_reducible assumption
    | with_reducible apply settleDomain_ch
    | with_reducible apply foldN_ch
    | (intro x a hx; try beta_reduce)

theorem resolved_ch {P : List Part} {b₀ : State} {s : State} {d idx sub : Nat} (hP : [.fresh, .voteSecond, .funcs, .sess, .transit, .grog, .notes] ⊆ P) (hb₀ : Changes P b₀ s) : Changes P b₀ (resolved s d idx sub) := by
  unfold resolved
  repeat' first
    | with_reducible assumption
    | with_reducible apply dropTransit_ch
    | with_reducible apply emit_ch
    | ((with_reducible refine part_sub hP ?_); rfl)

theorem enableWrite_ch {P : List Part} {b₀ : State} {s : State} {k : Nat} {on stopping : Bool} {start stop : State → State} (h_start : ∀ x, Changes P b₀ x → Changes P b₀ (start x)) (h_stop : ∀ x, Changes P b₀ x → Changes P b₀ (stop x)) (hP : [.objs, .transit] ⊆ P) (hb₀ : Changes P b₀ s) : Changes P b₀ (enableWrite s k on stopping start stop).1 := by
  unfold enableWrite
  repeat' first
    | with_reducible assumption
    | with_reducible apply h_start
    | with_reducible apply h_stop
    | with_reducible apply writeB_ch
    | with_reducible apply dropTransit_ch
    | with_reducible apply addTransit_ch
    | ((with_reducible refine part_sub hP ?_); rfl)
    | with_reducible apply ch_ite
    | with_reducible apply ch_ite1

theorem refuseClaim_ch {P : List Part} {b₀ : State} {s : State} {c : WCtx} {session req : Nat} {ds : List Nat} (hP : [.fresh, .objs, .voteSecond, .funcs, .sess, .refuseLog, .grog, .notes] ⊆ P) (hb₀ : Changes P b₀ s) : Changes P b₀ (refuseClaim s c session req ds) := by
  have m_refuseLog : Part.refuseLog ∈ P := part_mem hP rfl
  unfold refuseClaim
  repeat' first
    | with_reducible assumption
    | with_reducible apply bump_ch
    | with_reducible apply emit_ch
    | ((with_reducible refine part_sub hP ?_); rfl)
    | with_reducible apply foldN_ch
    | (intro x a hx; try beta_reduce)
    | fail_if_no_progress (with_reducible refine ch_refuseLog ?_ m_refuseLog)

end Sys2Proof.Machine
end

