-- ==== Sys2Proof/Laws/ChangesClocks.lean ====
section
/-!
SUPPORT. What each operation of Machine/Clocks.lean may change.
-/

namespace Sys2Proof.Machine

theorem islandApply_ch {P : List Part} {b₀ : State} {s : State} {i sub v : Nat} (hP : [.fresh, .objs, .rateStop] ⊆ P) (hb₀ : Changes P b₀ s) : Changes P b₀ (islandApply s i sub v) := by
  have m_rateStop : Part.rateStop ∈ P := part_mem hP rfl
  unfold islandApply
  repeat' first
    | with_reducible assumption
    | with_reducible apply writeN_ch
    | with_reducible apply draw_ch
    | ((with_reducible refine part_sub hP ?_); rfl)
    | (extract_lets +onlyGivenNames x; clear_value x; revert x; intro _)
    | fail_if_no_progress (with_reducible refine ch_rateStop ?_ m_rateStop)
    | with_reducible apply ch_ite

theorem lockTime_ch {P : List Part} {b₀ : State} {s : State} {master : Nat} (hP : [.now] ⊆ P) (hb₀ : Changes P b₀ s) : Changes P b₀ (lockTime s master) := by
  have m_now : Part.now ∈ P := part_mem hP rfl
  unfold lockTime
  repeat' first
    | with_reducible assumption
    | fail_if_no_progress (with_reducible refine ch_now ?_ m_now)
    | with_reducible apply ch_ite

theorem execTimeUpdate_ch {P : List Part} {b₀ : State} {master : BitVec 64} {s : State} (hP : [.now, .islTime] ⊆ P) (hb₀ : Changes P b₀ s) : ChangesAll P b₀ (execTimeUpdate master s) := by
  have m_islTime : Part.islTime ∈ P := part_mem hP rfl
  unfold execTimeUpdate
  repeat' first
    | with_reducible assumption
    | with_reducible apply lockTime_ch
    | ((with_reducible refine part_sub hP ?_); rfl)
    | with_reducible apply changes_next
    | with_reducible apply changes_fault
    | with_reducible apply foldN_ch
    | (intro x a hx; try beta_reduce)
    | fail_if_no_progress (with_reducible refine ch_islTime ?_ m_islTime)

end Sys2Proof.Machine
end

