-- ==== Sys2Proof/Laws/ChangesFences.lean ====
section
/-!
SUPPORT. What each operation of Machine/Fences.lean may change.
-/

namespace Sys2Proof.Machine

theorem failWait_ch {P : List Part} {b₀ : State} {s : State} {h cause : Nat} (hP : [.fresh, .voteSecond, .host, .funcs, .sess, .rings, .grog, .notes] ⊆ P) (hb₀ : Changes P b₀ s) : Changes P b₀ (failWait s h cause) := by
  unfold failWait
  repeat' first
    | with_reducible assumption
    | with_reducible apply modRing_ch
    | with_reducible apply completeR_ch
    | ((with_reducible refine part_sub hP ?_); rfl)
    | with_reducible apply ch_ite
    | split

theorem satisfyWaits_ch {P : List Part} {b₀ : State} {s : State} {slot : Nat} (hP : [.fresh, .voteSecond, .host, .funcs, .sess, .rings, .grog, .notes] ⊆ P) (hb₀ : Changes P b₀ s) : Changes P b₀ (satisfyWaits s slot) := by
  unfold satisfyWaits
  repeat' first
    | with_reducible assumption
    | with_reducible apply modRing_ch
    | with_reducible apply completeR_ch
    | ((with_reducible refine part_sub hP ?_); rfl)
    | with_reducible apply foldN_ch
    | (intro x a hx; try beta_reduce)
    | with_reducible apply ch_ite
    | split

theorem signalFence_ch {P : List Part} {b₀ : State} {s : State} {slot v : Nat} (hP : [.fresh, .objs, .voteSecond, .host, .funcs, .sess, .rings, .grog, .notes] ⊆ P) (hb₀ : Changes P b₀ s) : Changes P b₀ (signalFence s slot v) := by
  unfold signalFence
  repeat' first
    | with_reducible assumption
    | with_reducible apply writeN_ch
    | with_reducible apply raiseClass_ch
    | with_reducible apply satisfyWaits_ch
    | ((with_reducible refine part_sub hP ?_); rfl)
    | with_reducible apply foldN_ch
    | (intro x a hx; try beta_reduce)

theorem abandonFence_ch {P : List Part} {b₀ : State} {s : State} {slot : Nat} (hP : [.fresh, .objs, .voteSecond, .host, .funcs, .sess, .rings, .grog, .notes] ⊆ P) (hb₀ : Changes P b₀ s) : Changes P b₀ (abandonFence s slot) := by
  unfold abandonFence
  repeat' first
    | with_reducible assumption
    | with_reducible apply putN_ch
    | with_reducible apply failWait_ch
    | ((with_reducible refine part_sub hP ?_); rfl)
    | with_reducible apply foldN_ch
    | (intro x a hx; try beta_reduce)

theorem claimFence_ch {P : List Part} {b₀ : State} {s : State} {slot : Nat} (hP : [.objs, .fenceGen] ⊆ P) (hb₀ : Changes P b₀ s) : Changes P b₀ (claimFence s slot) := by
  have m_fenceGen : Part.fenceGen ∈ P := part_mem hP rfl
  unfold claimFence
  repeat' first
    | with_reducible assumption
    | with_reducible apply putN_ch
    | with_reducible apply writeN_ch
    | ((with_reducible refine part_sub hP ?_); rfl)
    | fail_if_no_progress (with_reducible refine ch_fenceGen ?_ m_fenceGen)

theorem freeFence_ch {P : List Part} {b₀ : State} {s : State} {slot : Nat} (hP : [.objs] ⊆ P) (hb₀ : Changes P b₀ s) : Changes P b₀ (freeFence s slot) := by
  unfold freeFence
  repeat' first
    | with_reducible assumption
    | with_reducible apply putN_ch

theorem fenceApply_ch {P : List Part} {b₀ : State} {s : State} {i sub v : Nat} (hP : [.fresh, .objs, .voteSecond, .host, .funcs, .sess, .rings, .fenceGen, .grog, .notes] ⊆ P) (hb₀ : Changes P b₀ s) : Changes P b₀ (fenceApply s i sub v) := by
  unfold fenceApply
  repeat' first
    | with_reducible assumption
    | with_reducible apply writeN_ch
    | with_reducible apply signalFence_ch
    | with_reducible apply abandonFence_ch
    | with_reducible apply claimFence_ch
    | with_reducible apply freeFence_ch
    | ((with_reducible refine part_sub hP ?_); rfl)
    | (extract_lets +onlyGivenNames x; refine ch_step (P := P) (r := b₀) (x := x) ?_ (fun hx => ?_); subst x; rotate_left; clear_value x; revert x; intro _ _)
    | (extract_lets +onlyGivenNames x; clear_value x; revert x; intro _)
    | with_reducible apply ch_ite

theorem doSignal_ch {P : List Part} {b₀ : State} {s : State} {t : Ticket} {handle v : Nat} (hP : [.fresh, .objs, .voteSecond, .host, .funcs, .sess, .rings, .grog, .notes] ⊆ P) (hb₀ : Changes P b₀ s) : Changes P b₀ (doSignal s t handle v) := by
  unfold doSignal
  repeat' first
    | with_reducible assumption
    | with_reducible apply completeR_ch
    | with_reducible apply signalFence_ch
    | ((with_reducible refine part_sub hP ?_); rfl)
    | (extract_lets +onlyGivenNames x; refine ch_step (P := P) (r := b₀) (x := x) ?_ (fun hx => ?_); subst x; rotate_left; clear_value x; revert x; intro _ _)
    | with_reducible apply ch_ite
    | split

theorem runSignals_ch {P : List Part} {b₀ : State} {n : Nat} {s : State} (hP : [.fresh, .objs, .voteSecond, .host, .funcs, .sess, .rings, .signals, .grog, .notes] ⊆ P) (hb₀ : Changes P b₀ s) :
    Changes P b₀ (runSignals n s) := by
  induction n generalizing s with
  | zero => exact hb₀
  | succ n ih =>
    unfold runSignals
    split
    · exact hb₀
    · exact ih (doSignal_ch (part_sub hP rfl) (ch_signals hb₀ (part_mem hP rfl)))

theorem execFenceSignal_ch {P : List Part} {b₀ : State} {h : CmdHdr} {fence : BitVec 32} {value : BitVec 64} {s : State} (hP : [.fresh, .objs, .votes, .voteSecond, .host, .funcs, .sess, .rings, .signals, .grog, .notes] ⊆ P) (hb₀ : Changes P b₀ s) : ChangesAll P b₀ (execFenceSignal h fence value s) := by
  have m_signals : Part.signals ∈ P := part_mem hP rfl
  unfold execFenceSignal
  repeat' first
    | with_reducible assumption
    | with_reducible apply beginCmd_ch
    | with_reducible apply doSignal_ch
    | ((with_reducible refine part_sub hP ?_); rfl)
    | with_reducible apply changes_next
    | with_reducible apply changes_fault
    | with_reducible refine ch_fst (by with_reducible assumption) ?_
    | fail_if_no_progress (with_reducible refine ch_signals ?_ m_signals)
    | with_reducible apply ch_ite
    | with_reducible apply changes_ite
    | split

theorem waitFails_ch {P : List Part} {b₀ : State} {s : State} {t : Ticket} {cause : Nat} (hP : [.fresh, .voteSecond, .host, .funcs, .sess, .rings, .grog, .notes] ⊆ P) (hb₀ : Changes P b₀ s) : Changes P b₀ (waitFails s t cause) := by
  unfold waitFails
  repeat' first
    | with_reducible assumption
    | with_reducible apply modRing_ch
    | with_reducible apply completeR_ch
    | ((with_reducible refine part_sub hP ?_); rfl)

theorem execFenceWait_ch {P : List Part} {b₀ : State} {h : CmdHdr} {fence timeout : BitVec 32} {value : BitVec 64} {s : State} (hP : [.fresh, .objs, .votes, .voteSecond, .host, .funcs, .sess, .rings, .grog, .notes] ⊆ P) (hb₀ : Changes P b₀ s) : ChangesAll P b₀ (execFenceWait h fence timeout value s) := by
  unfold execFenceWait
  repeat' first
    | with_reducible assumption
    | with_reducible apply draw_ch
    | with_reducible apply modRing_ch
    | with_reducible apply completeR_ch
    | with_reducible apply beginCmd_ch
    | with_reducible apply waitFails_ch
    | ((with_reducible refine part_sub hP ?_); rfl)
    | with_reducible apply changes_next
    | with_reducible apply changes_fault
    | (extract_lets +onlyGivenNames x; refine ch_step (P := P) (r := b₀) (x := x) ?_ (fun hx => ?_); subst x; rotate_left; clear_value x; revert x; intro _ _)
    | (extract_lets +onlyGivenNames x; clear_value x; revert x; intro _)
    | with_reducible refine ch_fst (by with_reducible assumption) ?_
    | with_reducible apply ch_ite
    | with_reducible apply changes_ite
    | split

theorem execFenceWaitTimeout_ch {P : List Part} {b₀ : State} {ring : Fin 256} {s : State} (hP : [.fresh, .voteSecond, .host, .funcs, .sess, .rings, .grog, .notes] ⊆ P) (hb₀ : Changes P b₀ s) : ChangesAll P b₀ (execFenceWaitTimeout ring s) := by
  unfold execFenceWaitTimeout
  repeat' first
    | with_reducible assumption
    | with_reducible apply failWait_ch
    | with_reducible apply changes_next
    | with_reducible apply changes_fault
    | with_reducible apply ch_ite
    | with_reducible apply changes_ite
    | split

end Sys2Proof.Machine
end

