-- ==== Sys2Proof/Laws/ChangesGrog.lean ====
section
/-!
SUPPORT. What each operation of Machine/Grog.lean may change.
-/

namespace Sys2Proof.Machine

theorem setUnit_ch {P : List Part} {b₀ : State} {s : State} {c u st : Nat} (hP : [.grog] ⊆ P) (hb₀ : Changes P b₀ s) : Changes P b₀ (setUnit s c u st) := by
  unfold setUnit
  repeat' first
    | with_reducible assumption
    | with_reducible apply modGrog_ch

theorem updateHealth_ch {P : List Part} {b₀ : State} {s : State} (hP : [.fresh, .objs, .voteSecond, .funcs, .sess, .frames, .grog, .notes] ⊆ P) (hb₀ : Changes P b₀ s) : Changes P b₀ (updateHealth s) := by
  unfold updateHealth
  repeat' first
    | with_reducible assumption
    | with_reducible apply putN_ch
    | with_reducible apply emitSb_ch
    | ((with_reducible refine part_sub hP ?_); rfl)
    | with_reducible apply foldN_ch
    | with_reducible apply foldl_ch
    | with_reducible apply foldl_ch1
    | (intro x a hx; try beta_reduce)
    | (extract_lets +onlyGivenNames x; refine ch_step (P := P) (r := b₀) (x := x) ?_ (fun hx => ?_); subst x; rotate_left; clear_value x; revert x; intro _ _)
    | (extract_lets +onlyGivenNames x; clear_value x; revert x; intro _)
    | with_reducible apply ch_ite

theorem grogEvent_ch {P : List Part} {b₀ : State} {s : State} {cls kind unit spare : Nat} {low : Bool} (hP : [.fresh, .voteSecond, .funcs, .sess, .frames, .grog, .notes] ⊆ P) (hb₀ : Changes P b₀ s) : Changes P b₀ (grogEvent s cls kind unit spare low) := by
  unfold grogEvent
  repeat' first
    | with_reducible assumption
    | with_reducible apply emit_ch
    | with_reducible apply emitSb_ch
    | ((with_reducible refine part_sub hP ?_); rfl)
    | (extract_lets +onlyGivenNames x; refine ch_step (P := P) (r := b₀) (x := x) ?_ (fun hx => ?_); subst x; rotate_left; clear_value x; revert x; intro _ _)
    | with_reducible apply ch_ite

theorem advanceLogGen_ch {P : List Part} {b₀ : State} {s : State} {cls u : Nat} (hP : [.grog] ⊆ P) (hb₀ : Changes P b₀ s) : Changes P b₀ (advanceLogGen s cls u).1 := by
  unfold advanceLogGen
  repeat' first
    | with_reducible assumption
    | with_reducible apply modGrog_ch

theorem advanceGen_ch {P : List Part} {b₀ : State} {s : State} {cls u : Nat} (hP : [.objs, .grog, .engineGen] ⊆ P) (hb₀ : Changes P b₀ s) : Changes P b₀ (advanceGen s cls u).1 := by
  have m_engineGen : Part.engineGen ∈ P := part_mem hP rfl
  unfold advanceGen
  repeat' first
    | with_reducible assumption
    | with_reducible apply putN_ch
    | with_reducible apply advanceLogGen_ch
    | ((with_reducible refine part_sub hP ?_); rfl)
    | (extract_lets +onlyGivenNames x; clear_value x; revert x; intro _)
    | fail_if_no_progress (with_reducible refine ch_engineGen ?_ m_engineGen)
    | with_reducible apply ch_ite
    | with_reducible apply ch_ite1

theorem substitute_ch {P : List Part} {b₀ : State} {s : State} {cls unit spare cause gen : Nat} (hP : [.fresh, .objs, .voteSecond, .funcs, .sess, .frames, .grog, .notes] ⊆ P) (hb₀ : Changes P b₀ s) : Changes P b₀ (substitute s cls unit spare cause gen) := by
  unfold substitute
  repeat' first
    | with_reducible assumption
    | with_reducible apply modGrog_ch
    | with_reducible apply grogLog_ch
    | with_reducible apply setUnit_ch
    | with_reducible apply updateHealth_ch
    | with_reducible apply grogEvent_ch
    | ((with_reducible refine part_sub hP ?_); rfl)

theorem retireUnit_ch {P : List Part} {b₀ : State} {s : State} {cls unit cause : Nat} (hP : [.fresh, .objs, .voteSecond, .funcs, .sess, .frames, .grog, .notes] ⊆ P) (hb₀ : Changes P b₀ s) : Changes P b₀ (retireUnit s cls unit cause) := by
  unfold retireUnit
  repeat' first
    | with_reducible assumption
    | with_reducible apply grogLog_ch
    | with_reducible apply setUnit_ch
    | with_reducible apply updateHealth_ch
    | with_reducible apply grogEvent_ch
    | ((with_reducible refine part_sub hP ?_); rfl)

theorem failSpare_ch {P : List Part} {b₀ : State} {s : State} {cls spare cause : Nat} (hP : [.fresh, .objs, .voteSecond, .funcs, .sess, .frames, .grog, .notes] ⊆ P) (hb₀ : Changes P b₀ s) : Changes P b₀ (failSpare s cls spare cause) := by
  unfold failSpare
  repeat' first
    | with_reducible assumption
    | with_reducible apply putN_ch
    | with_reducible apply grogLog_ch
    | with_reducible apply setUnit_ch
    | with_reducible apply updateHealth_ch
    | with_reducible apply grogEvent_ch
    | ((with_reducible refine part_sub hP ?_); rfl)
    | with_reducible apply ch_ite

theorem trySpares_ch {P : List Part} {b₀ : State} {s : State} {cls cause : Nat} {passes : Nat → Bool} {l : List Nat} (hP : [.fresh, .objs, .voteSecond, .funcs, .sess, .frames, .grog, .notes] ⊆ P)
    (hb₀ : Changes P b₀ s) : Changes P b₀ (trySpares s cls cause passes l).1 := by
  induction l generalizing s with
  | nil => exact hb₀
  | cons u l ih =>
    unfold trySpares
    split
    · exact hb₀
    · exact ih (failSpare_ch (part_sub hP rfl) hb₀)

theorem spareRow_ch {P : List Part} {b₀ : State} {s : State} {q : Nat} (hP : [.fresh, .objs, .voteSecond, .funcs, .sess, .frames, .grog, .notes] ⊆ P) (hb₀ : Changes P b₀ s) : Changes P b₀ (spareRow s q) := by
  unfold spareRow
  repeat' first
    | with_reducible assumption
    | with_reducible apply modGrog_ch
    | with_reducible apply grogLog_ch
    | with_reducible apply updateHealth_ch
    | with_reducible apply grogEvent_ch
    | ((with_reducible refine part_sub hP ?_); rfl)

theorem mramWriteRow_ch {P : List Part} {b₀ : State} {s : State} {bank row bad : Nat} (hP : [.fresh, .objs, .voteSecond, .funcs, .sess, .frames, .grog, .notes] ⊆ P) (hb₀ : Changes P b₀ s) : Changes P b₀ (mramWriteRow s bank row bad) := by
  unfold mramWriteRow
  repeat' first
    | with_reducible assumption
    | with_reducible apply modGrog_ch
    | with_reducible apply spareRow_ch
    | ((with_reducible refine part_sub hP ?_); rfl)
    | (extract_lets +onlyGivenNames x; refine ch_step (P := P) (r := b₀) (x := x) ?_ (fun hx => ?_); subst x; rotate_left; clear_value x; revert x; intro _ _)
    | (extract_lets +onlyGivenNames x; clear_value x; revert x; intro _)
    | with_reducible apply ch_ite

end Sys2Proof.Machine
end

