-- ==== Sys2Proof/Laws/ChangesMemory.lean ====
section
/-!
SUPPORT. What each operation of Machine/Memory.lean may change.
-/

namespace Sys2Proof.Machine

theorem storeWord_ch {P : List Part} {b₀ : State} {s : State} {rank word w : Nat} (hP : [.dram] ⊆ P) (hb₀ : Changes P b₀ s) : Changes P b₀ (storeWord s rank word w) := by
  have m_dram : Part.dram ∈ P := part_mem hP rfl
  unfold storeWord
  repeat' first
    | with_reducible assumption
    | fail_if_no_progress (with_reducible refine ch_dram ?_ m_dram)

theorem modMem_ch {P : List Part} {b₀ : State} {s : State} {g : Mem → Mem} (hP : [.mem] ⊆ P) (hb₀ : Changes P b₀ s) : Changes P b₀ (modMem s g) := by
  have m_mem : Part.mem ∈ P := part_mem hP rfl
  unfold modMem
  repeat' first
    | with_reducible assumption
    | fail_if_no_progress (with_reducible refine ch_mem ?_ m_mem)

theorem touchRank_ch {P : List Part} {b₀ : State} {s : State} {r : Nat} (hP : [.fresh, .objs, .mem] ⊆ P) (hb₀ : Changes P b₀ s) : Changes P b₀ (touchRank s r) := by
  unfold touchRank
  repeat' first
    | with_reducible assumption
    | with_reducible apply putN_ch
    | with_reducible apply draw_ch
    | with_reducible apply modMem_ch
    | ((with_reducible refine part_sub hP ?_); rfl)
    | with_reducible apply ch_ite

theorem memLogEntry_ch {P : List Part} {b₀ : State} {s : State} {kind rank bankWord row col sym val synd source cause other gen : Nat} (hP : [.objs, .mem, .grog] ⊆ P) (hb₀ : Changes P b₀ s) : Changes P b₀ (memLogEntry s kind rank bankWord row col sym val synd source cause other gen) := by
  unfold memLogEntry
  repeat' first
    | with_reducible assumption
    | with_reducible apply putN_ch
    | with_reducible apply grogLog_ch
    | with_reducible apply modMem_ch
    | ((with_reducible refine part_sub hP ?_); rfl)
    | (extract_lets +onlyGivenNames x; refine ch_step (P := P) (r := b₀) (x := x) ?_ (fun hx => ?_); subst x; rotate_left; clear_value x; revert x; intro _ _)
    | (extract_lets +onlyGivenNames x; clear_value x; revert x; intro _)
    | with_reducible apply ch_ite

theorem logWord_ch {P : List Part} {b₀ : State} {s : State} {kind rank word sym val synd source cause : Nat} (hP : [.objs, .mem, .grog] ⊆ P) (hb₀ : Changes P b₀ s) : Changes P b₀ (logWord s kind rank word sym val synd source cause) := by
  unfold logWord
  repeat' first
    | with_reducible assumption
    | with_reducible apply memLogEntry_ch

theorem logStep_ch {P : List Part} {b₀ : State} {s : State} {kind rank other cause gen : Nat} (hP : [.objs, .mem, .grog] ⊆ P) (hb₀ : Changes P b₀ s) : Changes P b₀ (logStep s kind rank other cause gen) := by
  unfold logStep
  repeat' first
    | with_reducible assumption
    | with_reducible apply memLogEntry_ch

theorem degradeRank_ch {P : List Part} {b₀ : State} {s : State} {r cause : Nat} (hP : [.fresh, .objs, .voteSecond, .funcs, .sess, .frames, .mem, .grog, .notes] ⊆ P) (hb₀ : Changes P b₀ s) : Changes P b₀ (degradeRank s r cause) := by
  unfold degradeRank
  repeat' first
    | with_reducible assumption
    | with_reducible apply putN_ch
    | with_reducible apply raiseClass_ch
    | with_reducible apply emit_ch
    | with_reducible apply updateHealth_ch
    | with_reducible apply logStep_ch
    | ((with_reducible refine part_sub hP ?_); rfl)

theorem spareRankFailed_ch {P : List Part} {b₀ : State} {s : State} {r cause : Nat} (hP : [.fresh, .objs, .voteSecond, .funcs, .sess, .frames, .mem, .grog, .notes] ⊆ P) (hb₀ : Changes P b₀ s) : Changes P b₀ (spareRankFailed s r cause) := by
  unfold spareRankFailed
  repeat' first
    | with_reducible assumption
    | with_reducible apply putN_ch
    | with_reducible apply raiseClass_ch
    | with_reducible apply emit_ch
    | with_reducible apply failSpare_ch
    | with_reducible apply logStep_ch
    | ((with_reducible refine part_sub hP ?_); rfl)

theorem testRank_ch {P : List Part} {b₀ : State} {s : State} {r : Nat} (hP : [.objs] ⊆ P) (hb₀ : Changes P b₀ s) : Changes P b₀ (testRank s r) := by
  unfold testRank
  repeat' first
    | with_reducible assumption
    | with_reducible apply putN_ch

theorem takeSpare_ch {P : List Part} {b₀ : State} {s : State} {m : Migration} (hP : [.fresh, .objs, .voteSecond, .funcs, .sess, .frames, .served, .ehrica, .mem, .power, .grog, .notes] ⊆ P) (hb₀ : Changes P b₀ s) : Changes P b₀ (takeSpare s m) := by
  unfold takeSpare
  repeat' first
    | with_reducible assumption
    | with_reducible apply putN_ch
    | with_reducible apply settle_ch
    | with_reducible apply modMem_ch
    | with_reducible apply testRank_ch
    | with_reducible apply degradeRank_ch
    | with_reducible apply askDomain_ch
    | ((with_reducible refine part_sub hP ?_); rfl)
    | (extract_lets +onlyGivenNames x; refine ch_step (P := P) (r := b₀) (x := x) ?_ (fun hx => ?_); subst x; rotate_left; clear_value x; revert x; intro _ _)
    | (extract_lets +onlyGivenNames x; clear_value x; revert x; intro _)
    | with_reducible apply ch_ite

theorem restartMigration_ch {P : List Part} {b₀ : State} {s : State} {g : Nat} (hP : [.objs, .mem] ⊆ P) (hb₀ : Changes P b₀ s) : Changes P b₀ (restartMigration s g) := by
  unfold restartMigration
  repeat' first
    | with_reducible assumption
    | with_reducible apply putN_ch
    | with_reducible apply modMem_ch
    | ((with_reducible refine part_sub hP ?_); rfl)
    | with_reducible apply ch_ite
    | split

theorem beginRetire_ch {P : List Part} {b₀ : State} {s : State} {r spare cause : Nat} (hP : [.fresh, .objs, .voteSecond, .funcs, .sess, .frames, .served, .ehrica, .balance, .mem, .power, .grog, .notes] ⊆ P) (hb₀ : Changes P b₀ s) : Changes P b₀ (beginRetire s r spare cause) := by
  have m_balance : Part.balance ∈ P := part_mem hP rfl
  unfold beginRetire
  repeat' first
    | with_reducible assumption
    | with_reducible apply putN_ch
    | with_reducible apply emit_ch
    | with_reducible apply logStep_ch
    | with_reducible apply takeSpare_ch
    | ((with_reducible refine part_sub hP ?_); rfl)
    | (extract_lets +onlyGivenNames x; clear_value x; revert x; intro _)
    | fail_if_no_progress (with_reducible refine ch_balance ?_ m_balance)
    | with_reducible apply ch_ite
    | split

theorem retireRank_ch {P : List Part} {b₀ : State} {s : State} {r cause : Nat} (hP : [.fresh, .objs, .voteSecond, .funcs, .sess, .frames, .served, .ehrica, .balance, .mem, .power, .grog, .notes] ⊆ P) (hb₀ : Changes P b₀ s) : Changes P b₀ (retireRank s r cause) := by
  unfold retireRank
  repeat' first
    | with_reducible assumption
    | with_reducible apply putN_ch
    | with_reducible apply modMem_ch
    | with_reducible apply degradeRank_ch
    | with_reducible apply beginRetire_ch
    | ((with_reducible refine part_sub hP ?_); rfl)
    | (extract_lets +onlyGivenNames x; clear_value x; revert x; intro _)
    | with_reducible apply ch_ite
    | split

theorem nextDue_ch {P : List Part} {b₀ : State} {s : State} (hP : [.fresh, .objs, .voteSecond, .funcs, .sess, .frames, .served, .ehrica, .balance, .mem, .power, .grog, .notes] ⊆ P) (hb₀ : Changes P b₀ s) : Changes P b₀ (nextDue s) := by
  unfold nextDue
  repeat' first
    | with_reducible assumption
    | with_reducible apply settle_ch
    | with_reducible apply modMem_ch
    | with_reducible apply degradeRank_ch
    | with_reducible apply beginRetire_ch
    | ((with_reducible refine part_sub hP ?_); rfl)
    | (extract_lets +onlyGivenNames x; refine ch_step (P := P) (r := b₀) (x := x) ?_ (fun hx => ?_); subst x; rotate_left; clear_value x; revert x; intro _ _)
    | with_reducible refine ch_fst (by with_reducible assumption) ?_
    | with_reducible apply ch_ite
    | split

theorem migrationSpareFailed_ch {P : List Part} {b₀ : State} {s : State} {m : Migration} {cause : Nat} (hP : [.fresh, .objs, .voteSecond, .funcs, .sess, .frames, .served, .ehrica, .balance, .mem, .power, .grog, .notes] ⊆ P) (hb₀ : Changes P b₀ s) : Changes P b₀ (migrationSpareFailed s m cause) := by
  unfold migrationSpareFailed
  repeat' first
    | with_reducible assumption
    | with_reducible apply modMem_ch
    | with_reducible apply degradeRank_ch
    | with_reducible apply spareRankFailed_ch
    | with_reducible apply takeSpare_ch
    | with_reducible apply nextDue_ch
    | ((with_reducible refine part_sub hP ?_); rfl)
    | (extract_lets +onlyGivenNames x; refine ch_step (P := P) (r := b₀) (x := x) ?_ (fun hx => ?_); subst x; rotate_left; clear_value x; revert x; intro _ _)
    | with_reducible apply ch_ite
    | split

theorem resumeMigration_ch {P : List Part} {b₀ : State} {s : State} {g : Nat} {m : Migration} {failed : Bool} (hP : [.fresh, .objs, .voteSecond, .funcs, .sess, .frames, .served, .ehrica, .balance, .mem, .power, .grog, .notes] ⊆ P) (hb₀ : Changes P b₀ s) : Changes P b₀ (resumeMigration s g m failed) := by
  unfold resumeMigration
  repeat' first
    | with_reducible assumption
    | with_reducible apply migrationSpareFailed_ch
    | with_reducible apply takeSpare_ch
    | ((with_reducible refine part_sub hP ?_); rfl)
    | with_reducible apply ch_ite

theorem countPin_ch {P : List Part} {b₀ : State} {s : State} {g pin : Nat} (hP : [.objs] ⊆ P) (hb₀ : Changes P b₀ s) : Changes P b₀ (countPin s g pin) := by
  unfold countPin
  repeat' first
    | with_reducible assumption
    | with_reducible apply putV_ch

theorem lastingCorrection_ch {P : List Part} {b₀ : State} {s : State} {r word i e synd source : Nat} (hP : [.fresh, .objs, .voteSecond, .funcs, .sess, .frames, .served, .ehrica, .balance, .mem, .power, .grog, .notes] ⊆ P) (hb₀ : Changes P b₀ s) : Changes P b₀ (lastingCorrection s r word i e synd source) := by
  unfold lastingCorrection
  repeat' first
    | with_reducible assumption
    | with_reducible apply putN_ch
    | with_reducible apply bump_ch
    | with_reducible apply modMem_ch
    | with_reducible apply logWord_ch
    | with_reducible apply retireRank_ch
    | with_reducible apply countPin_ch
    | ((with_reducible refine part_sub hP ?_); rfl)
    | (extract_lets +onlyGivenNames x; refine ch_step (P := P) (r := b₀) (x := x) ?_ (fun hx => ?_); subst x; rotate_left; clear_value x; revert x; intro _ _)
    | (extract_lets +onlyGivenNames x; clear_value x; revert x; intro _)
    | with_reducible apply ch_ite

theorem transientCorrection_ch {P : List Part} {b₀ : State} {s : State} {r word i e synd source : Nat} (hP : [.objs, .mem, .grog] ⊆ P) (hb₀ : Changes P b₀ s) : Changes P b₀ (transientCorrection s r word i e synd source) := by
  unfold transientCorrection
  repeat' first
    | with_reducible assumption
    | with_reducible apply bump_ch
    | with_reducible apply modMem_ch
    | with_reducible apply logWord_ch
    | ((with_reducible refine part_sub hP ?_); rfl)
    | (extract_lets +onlyGivenNames x; refine ch_step (P := P) (r := b₀) (x := x) ?_ (fun hx => ?_); subst x; rotate_left; clear_value x; revert x; intro _ _)
    | with_reducible apply ch_ite

theorem lastingError_ch {P : List Part} {b₀ : State} {s : State} {r word synd source : Nat} (hP : [.fresh, .objs, .voteSecond, .funcs, .sess, .frames, .served, .ehrica, .balance, .dram, .mem, .power, .grog, .notes] ⊆ P) (hb₀ : Changes P b₀ s) : Changes P b₀ (lastingError s r word synd source) := by
  unfold lastingError
  repeat' first
    | with_reducible assumption
    | with_reducible apply bump_ch
    | with_reducible apply emit_ch
    | with_reducible apply storeWord_ch
    | with_reducible apply modMem_ch
    | with_reducible apply logWord_ch
    | with_reducible apply retireRank_ch
    | with_reducible apply migrationSpareFailed_ch
    | with_reducible apply poisonAt_ch
    | ((with_reducible refine part_sub hP ?_); rfl)
    | (extract_lets +onlyGivenNames x; refine ch_step (P := P) (r := b₀) (x := x) ?_ (fun hx => ?_); subst x; rotate_left; clear_value x; revert x; intro _ _)
    | (extract_lets +onlyGivenNames x; clear_value x; revert x; intro _)
    | with_reducible apply ch_ite
    | split

theorem correctWord_ch {P : List Part} {b₀ : State} {s : State} {inj : Bool} {r word n2 src w i e : Nat} (hP : [.fresh, .objs, .voteSecond, .funcs, .sess, .frames, .served, .ehrica, .balance, .dram, .mem, .power, .grog, .notes] ⊆ P) (hb₀ : Changes P b₀ s) : Changes P b₀ (correctWord s inj r word n2 src w i e).1 := by
  unfold correctWord
  repeat' first
    | with_reducible assumption
    | with_reducible apply storeWord_ch
    | with_reducible apply lastingCorrection_ch
    | with_reducible apply transientCorrection_ch
    | ((with_reducible refine part_sub hP ?_); rfl)
    | (extract_lets +onlyGivenNames x; refine ch_step (P := P) (r := b₀) (x := x) ?_ (fun hx => ?_); subst x; rotate_left; clear_value x; revert x; intro _ _)
    | (extract_lets +onlyGivenNames x; clear_value x; revert x; intro _)
    | with_reducible apply ch_ite

theorem readWord_ch {P : List Part} {b₀ : State} {s : State} {r word n1 n2 source : Nat} (hP : [.fresh, .objs, .voteSecond, .funcs, .sess, .frames, .served, .ehrica, .balance, .dram, .mem, .power, .grog, .notes] ⊆ P) (hb₀ : Changes P b₀ s) : Changes P b₀ (readWord s r word n1 n2 source).1 := by
  unfold readWord
  repeat' first
    | with_reducible assumption
    | with_reducible apply bump_ch
    | with_reducible apply modMem_ch
    | with_reducible apply logWord_ch
    | with_reducible apply lastingError_ch
    | with_reducible apply correctWord_ch
    | ((with_reducible refine part_sub hP ?_); rfl)
    | (extract_lets +onlyGivenNames x; refine ch_step (P := P) (r := b₀) (x := x) ?_ (fun hx => ?_); subst x; rotate_left; clear_value x; revert x; intro _ _)
    | (extract_lets +onlyGivenNames x; clear_value x; revert x; intro _)
    | with_reducible apply ch_ite
    | with_reducible apply ch_ite1
    | split

theorem writeWordIn_ch {P : List Part} {b₀ : State} {s : State} {r word data : Nat} (hP : [.objs, .dram, .mem] ⊆ P) (hb₀ : Changes P b₀ s) : Changes P b₀ (writeWordIn s r word data) := by
  unfold writeWordIn
  repeat' first
    | with_reducible assumption
    | with_reducible apply writeB_ch
    | with_reducible apply storeWord_ch
    | with_reducible apply modMem_ch
    | ((with_reducible refine part_sub hP ?_); rfl)
    | (extract_lets +onlyGivenNames x; refine ch_step (P := P) (r := b₀) (x := x) ?_ (fun hx => ?_); subst x; rotate_left; clear_value x; revert x; intro _ _)
    | (extract_lets +onlyGivenNames x; clear_value x; revert x; intro _)
    | with_reducible apply ch_ite

theorem writeWord_ch {P : List Part} {b₀ : State} {s : State} {r word data : Nat} (hP : [.objs, .dram, .mem] ⊆ P) (hb₀ : Changes P b₀ s) : Changes P b₀ (writeWord s r word data) := by
  unfold writeWord
  repeat' first
    | with_reducible assumption
    | with_reducible apply writeWordIn_ch
    | (extract_lets +onlyGivenNames x; refine ch_step (P := P) (r := b₀) (x := x) ?_ (fun hx => ?_); subst x; rotate_left; clear_value x; revert x; intro _ _)
    | with_reducible apply ch_ite
    | split

theorem fetchWord_ch {P : List Part} {b₀ : State} {s : State} {r word : Nat} (hP : [.fresh, .objs, .voteSecond, .funcs, .sess, .frames, .served, .ehrica, .balance, .dram, .mem, .power, .grog, .notes] ⊆ P) (hb₀ : Changes P b₀ s) : Changes P b₀ (fetchWord s r word).1 := by
  unfold fetchWord
  repeat' first
    | with_reducible assumption
    | with_reducible apply readWord_ch

theorem writeWithin_ch {P : List Part} {b₀ : State} {s : State} {r word lo : Nat} {b : List Byte} (hP : [.fresh, .objs, .voteSecond, .funcs, .sess, .frames, .served, .ehrica, .balance, .dram, .mem, .power, .grog, .notes] ⊆ P) (hb₀ : Changes P b₀ s) : Changes P b₀ (writeWithin s r word lo b) := by
  unfold writeWithin
  repeat' first
    | with_reducible assumption
    | with_reducible apply writeWord_ch
    | with_reducible apply fetchWord_ch
    | ((with_reducible refine part_sub hP ?_); rfl)
    | with_reducible refine ch_fst (by with_reducible assumption) ?_
    | with_reducible apply ch_ite
    | split

theorem writeBytesAt_ch {P : List Part} {b₀ : State} {n : Nat} {s : State} {r a : Nat} {b : List Byte} (hP : [.fresh, .objs, .voteSecond, .funcs, .sess, .frames, .served, .ehrica, .balance, .dram, .mem, .power, .grog, .notes] ⊆ P)
    (hb₀ : Changes P b₀ s) : Changes P b₀ (writeBytesAt n s r a b) := by
  induction n generalizing s a b with
  | zero => exact hb₀
  | succ n ih =>
    unfold writeBytesAt
    split
    · exact hb₀
    · extract_lets
      exact ih (writeWithin_ch (part_sub hP rfl) hb₀)

theorem writeRank_ch {P : List Part} {b₀ : State} {s : State} {r a : Nat} {b : List Byte} (hP : [.fresh, .objs, .voteSecond, .funcs, .sess, .frames, .served, .ehrica, .balance, .dram, .mem, .power, .grog, .notes] ⊆ P) (hb₀ : Changes P b₀ s) : Changes P b₀ (writeRank s r a b) := by
  unfold writeRank
  repeat' first
    | with_reducible assumption
    | with_reducible apply touchRank_ch
    | with_reducible apply writeBytesAt_ch
    | ((with_reducible refine part_sub hP ?_); rfl)

theorem readRank_ch {P : List Part} {b₀ : State} {s : State} {r a n : Nat} (hP : [.fresh, .objs, .voteSecond, .funcs, .sess, .frames, .served, .ehrica, .balance, .dram, .mem, .power, .grog, .notes] ⊆ P) (hb₀ : Changes P b₀ s) :
    Changes P b₀ (readRank s r a n).1 := by
  unfold readRank
  refine foldl_ch1 _ (touchRank_ch (part_sub hP rfl) hb₀) fun x w hx => ?_
  have := fetchWord_ch (r := r) (word := w) (part_sub hP rfl) hx
  split <;> rename_i h <;> rw [h] at this <;> exact this

theorem writeSurf_ch {P : List Part} {b₀ : State} {s : State} {i off : Nat} {b : List Byte} (hP : [.fresh, .objs, .voteSecond, .funcs, .sess, .frames, .served, .ehrica, .balance, .dram, .mem, .power, .grog, .notes] ⊆ P) (hb₀ : Changes P b₀ s) : Changes P b₀ (writeSurf s i off b) := by
  unfold writeSurf
  repeat' first
    | with_reducible assumption
    | with_reducible apply writeRank_ch

theorem readSurf_ch {P : List Part} {b₀ : State} {s : State} {i off n : Nat} (hP : [.fresh, .objs, .voteSecond, .funcs, .sess, .frames, .served, .ehrica, .balance, .dram, .mem, .power, .grog, .notes] ⊆ P) (hb₀ : Changes P b₀ s) : Changes P b₀ (readSurf s i off n).1 := by
  unfold readSurf
  repeat' first
    | with_reducible assumption
    | with_reducible apply readRank_ch

theorem readHandle_ch {P : List Part} {b₀ : State} {s : State} {handle off n : Nat} (hP : [.fresh, .objs, .voteSecond, .funcs, .sess, .frames, .served, .ehrica, .balance, .dram, .mem, .power, .grog, .notes] ⊆ P) (hb₀ : Changes P b₀ s) : Changes P b₀ (readHandle s handle off n).1 := by
  unfold readHandle
  repeat' first
    | with_reducible assumption
    | with_reducible apply readRank_ch
    | with_reducible apply ch_ite
    | with_reducible apply ch_ite1
    | split

theorem writeHandle_ch {P : List Part} {b₀ : State} {s : State} {handle off : Nat} {b : List Byte} (hP : [.fresh, .objs, .voteSecond, .funcs, .sess, .frames, .served, .ehrica, .balance, .dram, .mem, .power, .grog, .notes] ⊆ P) (hb₀ : Changes P b₀ s) : Changes P b₀ (writeHandle s handle off b) := by
  unfold writeHandle
  repeat' first
    | with_reducible assumption
    | with_reducible apply writeRank_ch
    | with_reducible apply ch_ite
    | split

theorem poisonAt_ch {P : List Part} {b₀ : State} {s : State} {r word : Nat} (hP : [.dram] ⊆ P) (hb₀ : Changes P b₀ s) : Changes P b₀ (poisonAt s r word) := by
  unfold poisonAt
  repeat' first
    | with_reducible assumption
    | with_reducible apply storeWord_ch
    | (extract_lets +onlyGivenNames x; refine ch_step (P := P) (r := b₀) (x := x) ?_ (fun hx => ?_); subst x; rotate_left; clear_value x; revert x; intro _ _)
    | with_reducible apply ch_ite
    | split

theorem writeCellsIn_ch {P : List Part} {b₀ : State} {s : State} {r word : Nat} {l : List (Nat × Option Byte)} (hP : [.fresh, .objs, .voteSecond, .funcs, .sess, .frames, .served, .ehrica, .balance, .dram, .mem, .power, .grog, .notes] ⊆ P) (hb₀ : Changes P b₀ s) : Changes P b₀ (writeCellsIn s r word l) := by
  unfold writeCellsIn
  repeat' first
    | with_reducible assumption
    | with_reducible apply hf1
    | with_reducible apply hf2
    | with_reducible apply hf3
    | with_reducible apply writeWord_ch
    | with_reducible apply fetchWord_ch
    | with_reducible apply poisonAt_ch
    | ((with_reducible refine part_sub hP ?_); rfl)
    | (extract_lets +onlyGivenNames x; clear_value x; revert x; intro _)
    | with_reducible refine ch_fst (by with_reducible assumption) ?_
    | with_reducible apply ch_ite
    | split

theorem writeCells_ch {P : List Part} {b₀ : State} {s : State} {i : Nat} {l : List (Nat × Option Byte)} (hP : [.fresh, .objs, .voteSecond, .funcs, .sess, .frames, .served, .ehrica, .balance, .dram, .mem, .power, .grog, .notes] ⊆ P) (hb₀ : Changes P b₀ s) : Changes P b₀ (writeCells s i l) := by
  unfold writeCells
  repeat' first
    | with_reducible assumption
    | with_reducible apply touchRank_ch
    | with_reducible apply writeCellsIn_ch
    | ((with_reducible refine part_sub hP ?_); rfl)
    | with_reducible apply foldl_ch
    | with_reducible apply foldl_ch1
    | (intro x a hx; try beta_reduce)

theorem readCells_ch {P : List Part} {b₀ : State} {s : State} {i : Nat} {offs : List Nat} (hP : [.fresh, .objs, .voteSecond, .funcs, .sess, .frames, .served, .ehrica, .balance, .dram, .mem, .power, .grog, .notes] ⊆ P) (hb₀ : Changes P b₀ s) : Changes P b₀ (readCells s i offs).1 := by
  unfold readCells
  repeat' first
    | with_reducible assumption
    | with_reducible apply touchRank_ch
    | with_reducible apply fetchWord_ch
    | ((with_reducible refine part_sub hP ?_); rfl)
    | with_reducible apply foldl_ch
    | with_reducible apply foldl_ch1
    | (intro x a hx; try beta_reduce)
    | with_reducible refine ch_fst (by with_reducible assumption) ?_
    | with_reducible apply ch_ite
    | with_reducible apply ch_ite1
    | split

theorem execMemRead_ch {P : List Part} {b₀ : State} {rank : Fin 6} {word : Nat} {noise1 noise2 : List Byte} {scrub : Bool} {s : State} (hP : [.fresh, .objs, .voteSecond, .funcs, .sess, .frames, .served, .ehrica, .balance, .dram, .mem, .power, .grog, .notes] ⊆ P) (hb₀ : Changes P b₀ s) : ChangesAll P b₀ (execMemRead rank word noise1 noise2 scrub s) := by
  unfold execMemRead
  repeat' first
    | with_reducible assumption
    | with_reducible apply modMem_ch
    | with_reducible apply touchRank_ch
    | with_reducible apply readWord_ch
    | ((with_reducible refine part_sub hP ?_); rfl)
    | with_reducible apply changes_next
    | with_reducible apply changes_fault
    | with_reducible refine ch_fst (by with_reducible assumption) ?_
    | with_reducible apply ch_ite
    | with_reducible apply changes_ite

theorem execMemWrite_ch {P : List Part} {b₀ : State} {rank : Fin 6} {addr : Nat} {data : List Byte} {s : State} (hP : [.fresh, .objs, .voteSecond, .funcs, .sess, .frames, .served, .ehrica, .balance, .dram, .mem, .power, .grog, .notes] ⊆ P) (hb₀ : Changes P b₀ s) : ChangesAll P b₀ (execMemWrite rank addr data s) := by
  unfold execMemWrite
  repeat' first
    | with_reducible assumption
    | with_reducible apply writeRank_ch
    | with_reducible apply changes_next
    | with_reducible apply changes_fault
    | with_reducible apply ch_ite
    | with_reducible apply changes_ite

theorem execCeBucketExpiry_ch {P : List Part} {b₀ : State} {s : State} (hP : [.objs, .mem] ⊆ P) (hb₀ : Changes P b₀ s) : ChangesAll P b₀ (execCeBucketExpiry s) := by
  unfold execCeBucketExpiry
  repeat' first
    | with_reducible assumption
    | with_reducible apply putN_ch
    | with_reducible apply modMem_ch
    | ((with_reducible refine part_sub hP ?_); rfl)
    | with_reducible apply changes_next
    | with_reducible apply changes_fault
    | with_reducible apply foldN_ch
    | (intro x a hx; try beta_reduce)
    | (extract_lets +onlyGivenNames x; refine ch_step (P := P) (r := b₀) (x := x) ?_ (fun hx => ?_); subst x; rotate_left; clear_value x; revert x; intro _ _)
    | with_reducible apply ch_ite
    | with_reducible apply changes_ite

theorem zeroRank_ch {P : List Part} {b₀ : State} {s : State} {r : Nat} (hP : [.dram] ⊆ P) (hb₀ : Changes P b₀ s) : Changes P b₀ (zeroRank s r) := by
  have m_dram : Part.dram ∈ P := part_mem hP rfl
  unfold zeroRank
  repeat' first
    | with_reducible assumption
    | fail_if_no_progress (with_reducible refine ch_dram ?_ m_dram)

theorem retireGroup_ch {P : List Part} {b₀ : State} {s : State} {g : Nat} (hP : [.fresh, .objs, .voteSecond, .funcs, .sess, .frames, .dram, .mem, .grog, .notes] ⊆ P) (hb₀ : Changes P b₀ s) : Changes P b₀ (retireGroup s g) := by
  unfold retireGroup
  repeat' first
    | with_reducible assumption
    | with_reducible apply putN_ch
    | with_reducible apply emit_ch
    | with_reducible apply substitute_ch
    | with_reducible apply logStep_ch
    | with_reducible apply degradeRank_ch
    | with_reducible apply zeroRank_ch
    | ((with_reducible refine part_sub hP ?_); rfl)
    | with_reducible apply foldN_ch
    | with_reducible apply foldl_ch
    | with_reducible apply foldl_ch1
    | (intro x a hx; try beta_reduce)
    | (extract_lets +onlyGivenNames x; clear_value x; revert x; intro _)
    | with_reducible apply ch_ite

theorem execGroupTrainingDone_ch {P : List Part} {b₀ : State} {g : Fin 3} {badPins : List (Fin 144)} {caBad : Bool} {s : State} (hP : [.fresh, .objs, .voteSecond, .funcs, .sess, .frames, .served, .ehrica, .balance, .dram, .mem, .power, .grog, .notes] ⊆ P) (hb₀ : Changes P b₀ s) : ChangesAll P b₀ (execGroupTrainingDone g badPins caBad s) := by
  have m_power : Part.power ∈ P := part_mem hP rfl
  unfold execGroupTrainingDone
  repeat' first
    | with_reducible assumption
    | with_reducible apply putV_ch
    | with_reducible apply putN_ch
    | with_reducible apply settle_ch
    | with_reducible apply modMem_ch
    | with_reducible apply memLogEntry_ch
    | with_reducible apply testRank_ch
    | with_reducible apply resumeMigration_ch
    | with_reducible apply zeroRank_ch
    | with_reducible apply retireGroup_ch
    | ((with_reducible refine part_sub hP ?_); rfl)
    | with_reducible apply changes_next
    | with_reducible apply changes_fault
    | with_reducible apply foldN_ch
    | (intro x a hx; try beta_reduce)
    | (extract_lets +onlyGivenNames x; refine ch_step (P := P) (r := b₀) (x := x) ?_ (fun hx => ?_); subst x; rotate_left; clear_value x; revert x; intro _ _)
    | (extract_lets +onlyGivenNames x; clear_value x; revert x; intro _)
    | (extract_lets +onlyGivenNames x; subst x)
    | fail_if_no_progress (with_reducible refine ch_power ?_ m_power)
    | with_reducible apply ch_ite
    | with_reducible apply changes_ite
    | split

theorem execSparePatternTestDone_ch {P : List Part} {b₀ : State} {rank : Fin 6} {ok : Bool} {s : State} (hP : [.fresh, .objs, .voteSecond, .funcs, .sess, .frames, .served, .ehrica, .balance, .dram, .mem, .power, .grog, .notes] ⊆ P) (hb₀ : Changes P b₀ s) : ChangesAll P b₀ (execSparePatternTestDone rank ok s) := by
  have m_power : Part.power ∈ P := part_mem hP rfl
  unfold execSparePatternTestDone
  repeat' first
    | with_reducible assumption
    | with_reducible apply putN_ch
    | with_reducible apply settle_ch
    | with_reducible apply modMem_ch
    | with_reducible apply spareRankFailed_ch
    | with_reducible apply migrationSpareFailed_ch
    | with_reducible apply zeroRank_ch
    | ((with_reducible refine part_sub hP ?_); rfl)
    | with_reducible apply changes_next
    | with_reducible apply changes_fault
    | (extract_lets +onlyGivenNames x; refine ch_step (P := P) (r := b₀) (x := x) ?_ (fun hx => ?_); subst x; rotate_left; clear_value x; revert x; intro _ _)
    | (extract_lets +onlyGivenNames x; clear_value x; revert x; intro _)
    | fail_if_no_progress (with_reducible refine ch_power ?_ m_power)
    | with_reducible apply ch_ite
    | with_reducible apply changes_ite
    | split

theorem handOver_ch {P : List Part} {b₀ : State} {m : Migration} {x : State × Nat} {word : Nat} (hP : [.fresh, .objs, .voteSecond, .funcs, .sess, .frames, .served, .ehrica, .balance, .dram, .mem, .power, .grog, .notes] ⊆ P) (hb₀ : Changes P b₀ x.1) : Changes P b₀ (handOver m x word).1 := by
  unfold handOver
  repeat' first
    | with_reducible assumption
    | with_reducible apply storeWord_ch
    | with_reducible apply readWord_ch
    | ((with_reducible refine part_sub hP ?_); rfl)
    | with_reducible refine ch_fst (by with_reducible assumption) ?_
    | with_reducible apply ch_ite
    | with_reducible apply ch_ite1
    | split

theorem copyBlocks_ch {P : List Part} {b₀ : State} {s : State} {m : Migration} {upto : Nat} (hP : [.fresh, .objs, .voteSecond, .funcs, .sess, .frames, .served, .ehrica, .balance, .dram, .mem, .power, .grog, .notes] ⊆ P) (hb₀ : Changes P b₀ s) : Changes P b₀ (copyBlocks s m upto).1 := by
  have m_dram : Part.dram ∈ P := part_mem hP rfl
  unfold copyBlocks
  repeat' first
    | with_reducible assumption
    | with_reducible apply handOver_ch
    | with_reducible apply foldl_ch
    | with_reducible apply foldl_ch1
    | (intro x a hx; try beta_reduce)
    | fail_if_no_progress (with_reducible refine ch_dram ?_ m_dram)

theorem copyTick_ch {P : List Part} {b₀ : State} {s : State} (hP : [.fresh, .objs, .voteSecond, .funcs, .sess, .frames, .served, .ehrica, .balance, .dram, .mem, .power, .grog, .notes] ⊆ P) (hb₀ : Changes P b₀ s) : Changes P b₀ (copyTick s) := by
  unfold copyTick
  repeat' first
    | with_reducible assumption
    | with_reducible apply putN_ch
    | with_reducible apply modMem_ch
    | with_reducible apply copyBlocks_ch
    | ((with_reducible refine part_sub hP ?_); rfl)
    | with_reducible refine ch_fst (by with_reducible assumption) ?_
    | with_reducible apply ch_ite
    | split

theorem execMigrationDone_ch {P : List Part} {b₀ : State} {rank : Fin 6} {s : State} (hP : [.fresh, .objs, .voteSecond, .funcs, .sess, .frames, .served, .ehrica, .balance, .dram, .mem, .power, .grog, .notes] ⊆ P) (hb₀ : Changes P b₀ s) : ChangesAll P b₀ (execMigrationDone rank s) := by
  unfold execMigrationDone
  repeat' first
    | with_reducible assumption
    | with_reducible apply putN_ch
    | with_reducible apply emit_ch
    | with_reducible apply substitute_ch
    | with_reducible apply modMem_ch
    | with_reducible apply logStep_ch
    | with_reducible apply nextDue_ch
    | with_reducible apply zeroRank_ch
    | with_reducible apply copyBlocks_ch
    | ((with_reducible refine part_sub hP ?_); rfl)
    | with_reducible apply changes_next
    | with_reducible apply changes_fault
    | with_reducible refine ch_fst (by with_reducible assumption) ?_
    | with_reducible apply ch_ite
    | with_reducible apply changes_ite
    | split

theorem execDqsOscCheck_ch {P : List Part} {b₀ : State} {g : Fin 3} {driftTenthPct : Nat} {fails : Nat} {temp : BitVec 32} {s : State} (hP : [.objs] ⊆ P) (hb₀ : Changes P b₀ s) : ChangesAll P b₀ (execDqsOscCheck g driftTenthPct fails temp s) := by
  unfold execDqsOscCheck
  repeat' first
    | with_reducible assumption
    | with_reducible apply putN_ch
    | with_reducible apply bump_ch
    | with_reducible apply changes_next
    | with_reducible apply changes_fault
    | (extract_lets +onlyGivenNames x; refine ch_step (P := P) (r := b₀) (x := x) ?_ (fun hx => ?_); subst x; rotate_left; clear_value x; revert x; intro _ _)
    | with_reducible apply ch_ite
    | with_reducible apply changes_ite

theorem execScrubBurst_ch {P : List Part} {b₀ : State} {g : Fin 3} {start words : Nat} {s : State} (hP : [.fresh, .objs, .voteSecond, .funcs, .sess, .frames, .served, .ehrica, .balance, .dram, .mem, .power, .grog, .notes] ⊆ P) (hb₀ : Changes P b₀ s) : ChangesAll P b₀ (execScrubBurst g start words s) := by
  unfold execScrubBurst
  repeat' first
    | with_reducible assumption
    | with_reducible apply putN_ch
    | with_reducible apply modMem_ch
    | with_reducible apply touchRank_ch
    | with_reducible apply readWord_ch
    | ((with_reducible refine part_sub hP ?_); rfl)
    | with_reducible apply changes_next
    | with_reducible apply changes_fault
    | with_reducible apply foldN_ch
    | with_reducible apply foldl_ch
    | with_reducible apply foldl_ch1
    | (intro x a hx; try beta_reduce)
    | (extract_lets +onlyGivenNames x; refine ch_step (P := P) (r := b₀) (x := x) ?_ (fun hx => ?_); subst x; rotate_left; clear_value x; revert x; intro _ _)
    | (extract_lets +onlyGivenNames x; clear_value x; revert x; intro _)
    | (extract_lets +onlyGivenNames x; subst x)
    | with_reducible apply ch_ite
    | with_reducible apply changes_ite

theorem execRefresh_ch {P : List Part} {b₀ : State} {rank : Fin 6} {s : State} (hP : [.mem] ⊆ P) (hb₀ : Changes P b₀ s) : ChangesAll P b₀ (execRefresh rank s) := by
  unfold execRefresh
  repeat' first
    | with_reducible assumption
    | with_reducible apply modMem_ch
    | with_reducible apply changes_next
    | with_reducible apply changes_fault
    | with_reducible apply ch_ite
    | with_reducible apply changes_ite

theorem execRankPowerDown_ch {P : List Part} {b₀ : State} {rank : Fin 6} {s : State} (hP : [.mem] ⊆ P) (hb₀ : Changes P b₀ s) : ChangesAll P b₀ (execRankPowerDown rank s) := by
  unfold execRankPowerDown
  repeat' first
    | with_reducible assumption
    | with_reducible apply modMem_ch
    | with_reducible apply changes_next
    | with_reducible apply changes_fault
    | with_reducible apply ch_ite
    | with_reducible apply changes_ite

theorem execSelfRefreshEntry_ch {P : List Part} {b₀ : State} {g : Fin 3} {s : State} (hP : [.objs] ⊆ P) (hb₀ : Changes P b₀ s) : ChangesAll P b₀ (execSelfRefreshEntry g s) := by
  unfold execSelfRefreshEntry
  repeat' first
    | with_reducible assumption
    | with_reducible apply hf1
    | with_reducible apply hf2
    | with_reducible apply hf3
    | with_reducible apply putN_ch
    | with_reducible apply bump_ch
    | with_reducible apply changes_next
    | with_reducible apply changes_fault
    | (extract_lets +onlyGivenNames x; clear_value x; revert x; intro _)
    | with_reducible apply ch_ite
    | with_reducible apply changes_ite

theorem execScanoutWake_ch {P : List Part} {b₀ : State} {port : Fin 8} {s : State} (hP : [.objs] ⊆ P) (hb₀ : Changes P b₀ s) : ChangesAll P b₀ (execScanoutWake port s) := by
  unfold execScanoutWake
  repeat' first
    | with_reducible assumption
    | with_reducible apply putN_ch
    | with_reducible apply changes_next
    | with_reducible apply changes_fault
    | with_reducible apply foldN_ch
    | (intro x a hx; try beta_reduce)
    | with_reducible apply ch_ite

theorem memApply_ch {P : List Part} {b₀ : State} {s : State} {key v : Nat} (hP : [.fresh, .objs, .voteSecond, .funcs, .sess, .frames, .served, .ehrica, .balance, .mem, .power, .grog, .notes] ⊆ P) (hb₀ : Changes P b₀ s) : Changes P b₀ (memApply s key v) := by
  unfold memApply
  repeat' first
    | with_reducible assumption
    | with_reducible apply writeN_ch
    | with_reducible apply modMem_ch
    | with_reducible apply retireRank_ch
    | ((with_reducible refine part_sub hP ?_); rfl)
    | with_reducible apply ch_ite

theorem execBalanceMoveStart_ch {P : List Part} {b₀ : State} {loads : List (BitVec 32)} {s : State} (hP : [.fresh, .objs, .tilthLog, .balance] ⊆ P) (hb₀ : Changes P b₀ s) : ChangesAll P b₀ (execBalanceMoveStart loads s) := by
  have m_balance : Part.balance ∈ P := part_mem hP rfl
  unfold execBalanceMoveStart
  repeat' first
    | with_reducible assumption
    | with_reducible apply putN_ch
    | with_reducible apply draw_ch
    | with_reducible apply tilthEntry_ch
    | ((with_reducible refine part_sub hP ?_); rfl)
    | with_reducible apply changes_next
    | with_reducible apply changes_fault
    | with_reducible apply foldN_ch
    | (intro x a hx; try beta_reduce)
    | (extract_lets +onlyGivenNames x; refine ch_step (P := P) (r := b₀) (x := x) ?_ (fun hx => ?_); subst x; rotate_left; clear_value x; revert x; intro _ _)
    | (extract_lets +onlyGivenNames x; clear_value x; revert x; intro _)
    | fail_if_no_progress (with_reducible refine ch_balance ?_ m_balance)
    | with_reducible apply ch_ite
    | with_reducible apply changes_ite
    | split

theorem moveWords_ch {P : List Part} {b₀ : State} {s : State} {u base v newBase size : Nat} (hP : [.dram] ⊆ P) (hb₀ : Changes P b₀ s) : Changes P b₀ (moveWords s u base v newBase size) := by
  unfold moveWords
  repeat' first
    | with_reducible assumption
    | with_reducible apply zeroUnit_ch
    | with_reducible apply storeWord_ch
    | with_reducible apply foldN_ch
    | (intro x a hx; try beta_reduce)

theorem execBalanceMoveDone_ch {P : List Part} {b₀ : State} {s : State} (hP : [.objs, .surfs, .tilthLog, .balance, .dram] ⊆ P) (hb₀ : Changes P b₀ s) : ChangesAll P b₀ (execBalanceMoveDone s) := by
  have m_balance : Part.balance ∈ P := part_mem hP rfl
  unfold execBalanceMoveDone
  repeat' first
    | with_reducible assumption
    | with_reducible apply bump_ch
    | with_reducible apply modSurf_ch
    | with_reducible apply tilthEntry_ch
    | with_reducible apply moveWords_ch
    | ((with_reducible refine part_sub hP ?_); rfl)
    | with_reducible apply changes_next
    | with_reducible apply changes_fault
    | (extract_lets +onlyGivenNames x; refine ch_step (P := P) (r := b₀) (x := x) ?_ (fun hx => ?_); subst x; rotate_left; clear_value x; revert x; intro _ _)
    | (extract_lets +onlyGivenNames x; clear_value x; revert x; intro _)
    | fail_if_no_progress (with_reducible refine ch_balance ?_ m_balance)
    | with_reducible apply ch_ite
    | with_reducible apply changes_ite
    | split

end Sys2Proof.Machine
end

