-- ==== Sys2Proof/Laws/ChangesStack.lean ====
section
/-!
SUPPORT. What each operation of Machine/Stack.lean may change.
-/

namespace Sys2Proof.Machine

theorem composeTile_ch {P : List Part} {b₀ : State} {s : State} {p r n : Nat} (hP : [.fresh, .objs, .voteSecond, .funcs, .sess, .frames, .served, .ehrica, .balance, .dram, .mem, .power, .grog, .notes] ⊆ P) (hb₀ : Changes P b₀ s) : Changes P b₀ (composeTile s p r n) := by
  unfold composeTile
  repeat' first
    | with_reducible assumption
    | with_reducible apply bumpBy_ch
    | with_reducible apply writeRank_ch
    | ((with_reducible refine part_sub hP ?_); rfl)
    | with_reducible apply foldl_ch
    | with_reducible apply foldl_ch1
    | (intro x a hx; try beta_reduce)
    | (extract_lets +onlyGivenNames x; clear_value x; revert x; intro _)
    | with_reducible refine ch_fst (by with_reducible assumption) ?_
    | with_reducible apply ch_ite
    | split

theorem scanPoison_ch {P : List Part} {b₀ : State} {s : State} {p : Nat} (hP : [.objs] ⊆ P) (hb₀ : Changes P b₀ s) : Changes P b₀ (scanPoison s p) := by
  unfold scanPoison
  repeat' first
    | with_reducible assumption
    | with_reducible apply bumpBy_ch

end Sys2Proof.Machine
end

