-- ==== Sys2Proof/Laws/ChangesKaolin.lean ====
section
/-!
SUPPORT. What each operation of Machine/Kaolin.lean may change.
-/

namespace Sys2Proof.Machine

theorem shadowFrom_ch {P : List Part} {b₀ : State} {s : State} {n : Nat} {k : KSet} (hP : [.objs] ⊆ P) (hb₀ : Changes P b₀ s) : Changes P b₀ (shadowFrom s n k) := by
  unfold shadowFrom
  repeat' first
    | with_reducible assumption
    | with_reducible apply writeN_ch
    | with_reducible apply writeB_ch
    | with_reducible apply foldN_ch
    | (intro x a hx; try beta_reduce)

theorem blinkTake_ch {P : List Part} {b₀ : State} {s : State} {p : Nat} {opening : Bool} (hP : [.objs, .ports] ⊆ P) (hb₀ : Changes P b₀ s) : Changes P b₀ (blinkTake s p opening) := by
  unfold blinkTake
  repeat' first
    | with_reducible assumption
    | with_reducible apply putN_ch
    | with_reducible apply modPort_ch
    | ((with_reducible refine part_sub hP ?_); rfl)
    | (extract_lets +onlyGivenNames x; clear_value x; revert x; intro _)
    | with_reducible apply ch_ite

theorem kaolinEvent_ch {P : List Part} {b₀ : State} {s : State} {code p : Nat} {detail : List Byte} {cause : Nat} (hP : [.fresh, .voteSecond, .funcs, .sess, .frames, .ehrica, .grog, .notes] ⊆ P) (hb₀ : Changes P b₀ s) : Changes P b₀ (kaolinEvent s code p detail cause) := by
  unfold kaolinEvent
  repeat' first
    | with_reducible assumption
    | with_reducible apply interruptTw_ch
    | with_reducible apply emit_ch
    | with_reducible apply sideFrame_ch
    | ((with_reducible refine part_sub hP ?_); rfl)

theorem gapBegin_ch {P : List Part} {b₀ : State} {s : State} {p cause : Nat} (hP : [.fresh, .voteSecond, .funcs, .sess, .frames, .ehrica, .ports, .grog, .notes] ⊆ P) (hb₀ : Changes P b₀ s) : Changes P b₀ (gapBegin s p cause) := by
  unfold gapBegin
  repeat' first
    | with_reducible assumption
    | with_reducible apply modPort_ch
    | with_reducible apply kaolinEvent_ch
    | ((with_reducible refine part_sub hP ?_); rfl)
    | (extract_lets +onlyGivenNames x; refine ch_step (P := P) (r := b₀) (x := x) ?_ (fun hx => ?_); subst x; rotate_left; clear_value x; revert x; intro _ _)
    | with_reducible apply ch_ite

theorem gapEnd_ch {P : List Part} {b₀ : State} {s : State} {p : Nat} (hP : [.fresh, .voteSecond, .funcs, .sess, .frames, .ehrica, .ports, .grog, .notes] ⊆ P) (hb₀ : Changes P b₀ s) : Changes P b₀ (gapEnd s p) := by
  unfold gapEnd
  repeat' first
    | with_reducible assumption
    | with_reducible apply modPort_ch
    | with_reducible apply kaolinEvent_ch
    | ((with_reducible refine part_sub hP ?_); rfl)
    | (extract_lets +onlyGivenNames x; refine ch_step (P := P) (r := b₀) (x := x) ?_ (fun hx => ?_); subst x; rotate_left; clear_value x; revert x; intro _ _)
    | (extract_lets +onlyGivenNames x; clear_value x; revert x; intro _)
    | with_reducible apply ch_ite

theorem compareSig_ch {P : List Part} {b₀ : State} {s : State} {p r : Nat} {crc : BitVec 32} (hP : [.fresh, .objs, .voteSecond, .funcs, .sess, .frames, .ehrica, .ports, .grog, .notes] ⊆ P) (hb₀ : Changes P b₀ s) : Changes P b₀ (compareSig s p r crc) := by
  unfold compareSig
  repeat' first
    | with_reducible assumption
    | with_reducible apply putN_ch
    | with_reducible apply bump_ch
    | with_reducible apply interruptTw_ch
    | with_reducible apply modPort_ch
    | with_reducible apply raiseClass_ch
    | with_reducible apply kaolinEvent_ch
    | ((with_reducible refine part_sub hP ?_); rfl)
    | with_reducible apply foldN_ch
    | (intro x a hx; try beta_reduce)
    | (extract_lets +onlyGivenNames x; refine ch_step (P := P) (r := b₀) (x := x) ?_ (fun hx => ?_); subst x; rotate_left; clear_value x; revert x; intro _ _)
    | (extract_lets +onlyGivenNames x; clear_value x; revert x; intro _)
    | with_reducible apply ch_ite

theorem kaolinCommitOp_ch {P : List Part} {b₀ : State} {s : State} {p : Nat} (hP : [.objs, .ports] ⊆ P) (hb₀ : Changes P b₀ s) : Changes P b₀ (kaolinCommitOp s p) := by
  unfold kaolinCommitOp
  repeat' first
    | with_reducible assumption
    | with_reducible apply bump_ch
    | with_reducible apply modPort_ch
    | ((with_reducible refine part_sub hP ?_); rfl)
    | (extract_lets +onlyGivenNames x; clear_value x; revert x; intro _)
    | with_reducible apply ch_ite

theorem kaolinSetActive_ch {P : List Part} {b₀ : State} {s : State} {p : Nat} {k : KSet} (hP : [.objs, .served, .ports, .power] ⊆ P) (hb₀ : Changes P b₀ s) : Changes P b₀ (kaolinSetActive s p k) := by
  unfold kaolinSetActive
  repeat' first
    | with_reducible assumption
    | with_reducible apply putN_ch
    | with_reducible apply modPort_ch
    | with_reducible apply settle_ch
    | ((with_reducible refine part_sub hP ?_); rfl)
    | with_reducible apply foldN_ch
    | (intro x a hx; try beta_reduce)
    | (extract_lets +onlyGivenNames x; refine ch_step (P := P) (r := b₀) (x := x) ?_ (fun hx => ?_); subst x; rotate_left; clear_value x; revert x; intro _ _)
    | (extract_lets +onlyGivenNames x; clear_value x; revert x; intro _)
    | with_reducible apply ch_ite

theorem kaolinTake_ch {P : List Part} {b₀ : State} {s : State} {p : Nat} {opening : Bool} (hP : [.objs, .served, .ports, .power] ⊆ P) (hb₀ : Changes P b₀ s) : Changes P b₀ (kaolinTake s p opening) := by
  unfold kaolinTake
  repeat' first
    | with_reducible assumption
    | with_reducible apply modPort_ch
    | with_reducible apply kaolinSetActive_ch
    | ((with_reducible refine part_sub hP ?_); rfl)
    | (extract_lets +onlyGivenNames x; clear_value x; revert x; intro _)
    | with_reducible apply ch_ite

theorem kaolinLoad_ch {P : List Part} {b₀ : State} {s : State} (hP : [.ports, .kram] ⊆ P) (hb₀ : Changes P b₀ s) : Changes P b₀ (kaolinLoad s) := by
  have m_kram : Part.kram ∈ P := part_mem hP rfl
  unfold kaolinLoad
  repeat' first
    | with_reducible assumption
    | with_reducible apply modPort_ch
    | ((with_reducible refine part_sub hP ?_); rfl)
    | with_reducible apply foldN_ch
    | (intro x a hx; try beta_reduce)
    | fail_if_no_progress (with_reducible refine ch_kram ?_ m_kram)

end Sys2Proof.Machine
end

