-- ==== Sys2Proof/Laws/ChangesLists.lean ====
section
/-!
SUPPORT. What each operation of Machine/Lists.lean may change.
-/

namespace Sys2Proof.Machine

theorem readRef_ch {P : List Part} {b₀ : State} {s : State} {f : Nat} {bad : List (Nat × Nat)} {ref at_ n : Nat} (hP : [.fresh, .objs, .voteSecond, .funcs, .sess, .frames, .served, .ehrica, .balance, .dram, .mem, .power, .grog, .notes] ⊆ P) (hb₀ : Changes P b₀ s) : Changes P b₀ (readRef s f bad ref at_ n).1 := by
  unfold readRef
  repeat' first
    | with_reducible assumption
    | with_reducible apply readHandle_ch
    | with_reducible refine ch_fst (by with_reducible assumption) ?_
    | with_reducible apply ch_ite
    | with_reducible apply ch_ite1
    | split

end Sys2Proof.Machine
end

