-- ==== Sys2Proof/Laws/ChangesShade.lean ====
section
/-!
SUPPORT. What each operation of Machine/Shade.lean may change.
-/

namespace Sys2Proof.Machine

theorem startWord_ch {P : List Part} {b₀ : State} {p : Pass} {x y : Nat} {a : State × List Nat} {i : Nat} (hP : [.fresh, .objs, .voteSecond, .funcs, .sess, .frames, .served, .ehrica, .balance, .dram, .mem, .power, .grog, .notes] ⊆ P) (hb₀ : Changes P b₀ a.1) : Changes P b₀ (startWord p x y a i).1 := by
  unfold startWord
  repeat' first
    | with_reducible assumption
    | with_reducible apply readHandle_ch
    | (extract_lets +onlyGivenNames x; clear_value x; revert x; intro _)
    | with_reducible refine ch_fst (by with_reducible assumption) ?_
    | with_reducible apply ch_ite
    | with_reducible apply ch_ite1

theorem startPixel_ch {P : List Part} {b₀ : State} {p : Pass} {a : State × List Sample} {q : Nat × Nat} (hP : [.fresh, .objs, .voteSecond, .funcs, .sess, .frames, .served, .ehrica, .balance, .dram, .mem, .power, .grog, .notes] ⊆ P) (hb₀ : Changes P b₀ a.1) : Changes P b₀ (startPixel p a q).1 := by
  unfold startPixel
  repeat' first
    | with_reducible assumption
    | with_reducible apply startWord_ch
    | with_reducible apply foldl_ch
    | with_reducible apply foldl_ch1
    | (intro x a hx; try beta_reduce)

theorem startTile_ch {P : List Part} {b₀ : State} {s : State} {p : Pass} {n : Nat} (hP : [.fresh, .objs, .voteSecond, .funcs, .sess, .frames, .served, .ehrica, .balance, .dram, .mem, .power, .grog, .notes] ⊆ P) (hb₀ : Changes P b₀ s) : Changes P b₀ (startTile s p n).1 := by
  unfold startTile
  repeat' first
    | with_reducible assumption
    | with_reducible apply startPixel_ch
    | with_reducible apply foldl_ch
    | with_reducible apply foldl_ch1
    | (intro x a hx; try beta_reduce)

theorem storeTile_ch {P : List Part} {b₀ : State} {w : Walk} {s : State} (hP : [.fresh, .objs, .voteSecond, .funcs, .sess, .frames, .served, .ehrica, .balance, .dram, .mem, .power, .grog, .notes] ⊆ P) (hb₀ : Changes P b₀ s) : Changes P b₀ (storeTile w s) := by
  unfold storeTile
  repeat' first
    | with_reducible assumption
    | with_reducible apply writeHandle_ch
    | with_reducible apply foldl_ch
    | with_reducible apply foldl_ch1
    | (intro x a hx; try beta_reduce)

end Sys2Proof.Machine
end

