-- ==== Sys2Proof/Laws/Runs.lean ====
section
/-!
SUPPORT. What the programs, the geometry phase and the walks of a tile leave true of the state: whatever the reads and the writes of
surface memory leave true. The lemmas on what an operation keeps (Laws/KeepsGpu.lean) and changes (Laws/ChangesGpu.lean) both cite these.
-/

namespace Sys2Proof.Machine

/-- Reads and writes of surface memory leave `P` true. -/
structure Steady (P : State → Prop) : Prop where
  read : ∀ s h o n, P s → P (readHandle s h o n).1
  write : ∀ s h o b, P s → P (writeHandle s h o b)

variable {P : State → Prop}

theorem foldl_holds {α β : Type} {Q : β → Prop} {f : β → α → β} (hf : ∀ x a, Q x → Q (f x a)) (l : List α) {x : β} (h : Q x) :
    Q (l.foldl f x) := by
  induction l generalizing x with
  | nil => exact h
  | cons a l ih => exact ih (hf _ _ h)

theorem holds_fst {β γ : Type} {p : β × γ} {a : β} {b : γ} {Q : β → Prop} (e : p = (a, b)) (h : Q p.1) : Q a := by
  rw [e] at h; exact h

theorem readBytes_holds (w : Steady P) {r : ProgRun} {h off n : Nat} (hr : P r.state) : P (r.readBytes h off n).1.state := by
  unfold ProgRun.readBytes; exact w.read _ _ _ _ hr

theorem readBuffer_holds (w : Steady P) {e : ProgEnv} {r : ProgRun} {b : Bind} {o : Nat} (hr : P r.state) :
    P (r.readBuffer e b o).1.state := by
  unfold ProgRun.readBuffer
  split
  · exact hr
  · split
    · exact readBytes_holds w hr
    · split <;> exact hr

theorem writeBuffer_holds (w : Steady P) {r : ProgRun} {b : Bind} {o : Nat} {v : BitVec 32} (hr : P r.state) :
    P (r.writeBuffer b o v).state := by
  unfold ProgRun.writeBuffer
  split
  · split
    · exact hr
    · exact w.write _ _ _ _ hr
  · exact hr

theorem texel_holds (w : Steady P) {r : ProgRun} {h : Shape} {m x y : Nat} (hr : P r.state) : P (r.texel h m x y).1.state := by
  unfold ProgRun.texel
  split
  · exact readBytes_holds w (readBytes_holds w hr)
  · exact readBytes_holds w hr

theorem texelAt_holds (w : Steady P) {r : ProgRun} {b : Bind} {h : Shape} {i j : Int} (hr : P r.state) :
    P (r.texelAt b h i j).1.state := by
  unfold ProgRun.texelAt
  split
  · exact texel_holds w hr
  · exact hr

theorem sample_holds (w : Steady P) {r : ProgRun} {b : Bind} {h : Shape} {u v : ℚ} (hr : P r.state) :
    P (r.sample b h u v).1.state := by
  unfold ProgRun.sample
  split
  · exact texelAt_holds w hr
  · dsimp only
    split <;> exact texelAt_holds w (texelAt_holds w (texelAt_holds w (texelAt_holds w hr)))

theorem storePixel_holds (w : Steady P) {r : ProgRun} {b : Bind} {x y : Nat} {c : Rgba} (hr : P r.state) :
    P (r.storePixel b x y c).state := by
  unfold ProgRun.storePixel
  split
  · split
    · exact hr
    · exact w.write _ _ _ _ hr
  · exact hr

theorem act_holds (w : Steady P) {e : ProgEnv} {r : ProgRun} {a : Config.ProgAction} (hr : P r.state) : P (r.act e a).1.state := by
  unfold ProgRun.act
  repeat' first
    | exact hr
    | exact readBuffer_holds w hr
    | exact writeBuffer_holds w hr
    | exact writeBuffer_holds w (readBuffer_holds w hr)
    | exact sample_holds w hr
    | exact texel_holds w hr
    | exact storePixel_holds w hr
    | split

theorem runFrom_holds (w : Steady P) {e : ProgEnv} {c : Code} {i : List Nat} (n : Nat) {r : ProgRun} {a : List (List (BitVec 32))}
    (hr : P r.state) : P (runFrom e c i n r a).1.state := by
  induction n generalizing r a with
  | zero => exact hr
  | succ n ih =>
    unfold runFrom
    split
    · exact hr
    · exact ih (act_holds w hr)

/-- A program changes the state by reads and writes of surface memory alone. -/
theorem runProgram_holds (w : Steady P) {e : ProgEnv} {c : Code} {i : List Nat} {r : ProgRun} (hr : P r.state) :
    P (runProgram e c i r).1.state := runFrom_holds w _ hr

/-! ## The geometry phase -/

theorem elementIndex_holds (w : Steady P) {e : ProgEnv} {d : DrawCall} {r : ProgRun} {i : Nat} (hr : P r.state) :
    P (elementIndex e d r i).1.state := by
  unfold elementIndex
  split
  · exact hr
  · dsimp only
    split
    · exact readBytes_holds w hr
    · split <;> exact hr

theorem placeVertex_holds (w : Steady P) {p : Pass} {d : DrawCall} {n : Nat} {x : ProgRun × List (Option PlacedVert)} {i : Nat}
    (hx : P x.1.state) : P (placeVertex p d n x i).1.state := by
  unfold placeVertex
  dsimp only
  have h := elementIndex_holds w (e := p.env d.binds) (d := d) (i := i) hx
  split
  · next e => exact holds_fst (Q := fun r : ProgRun => P r.state) e h
  · next e => exact runProgram_holds w (holds_fst (Q := fun r : ProgRun => P r.state) e h)

theorem binPrim_run {pool : Nat} {p : Pass} {d : DrawCall} {x : Binning} {t : Prim} : (binPrim pool p d x t).run = x.run := by
  unfold binPrim; split <;> rfl

theorem binInstance_holds (w : Steady P) {pool : Nat} {p : Pass} {k : Nat} {d : DrawCall} {x : Binning} {n : Nat}
    (hx : P x.run.state) : P (binInstance pool p k d x n).run.state := by
  unfold binInstance
  split
  · exact hx
  · exact foldl_holds (Q := fun x : Binning => P x.run.state) (fun x t h => by rw [binPrim_run]; exact h) _
      (foldl_holds (Q := fun x : ProgRun × List (Option PlacedVert) => P x.1.state) (fun _ _ h => placeVertex_holds w h) _ hx)

theorem binDraw_holds (w : Steady P) {pool : Nat} {p : Pass} {x : Binning} {k : Nat} (hx : P x.run.state) :
    P (binDraw pool p x k).run.state := by
  unfold binDraw
  split
  · exact hx
  · split
    · exact hx
    · exact foldl_holds (Q := fun x : Binning => P x.run.state) (fun _ _ h => binInstance_holds w h) _ hx

/-- The geometry phase changes the state by reads and writes of surface memory alone. -/
theorem binPass_holds (w : Steady P) {pool : Nat} {p : Pass} {s : State} (hs : P s) : P (binPass pool p s).run.state :=
  foldl_holds (Q := fun x : Binning => P x.run.state) (fun _ _ h => binDraw_holds w h) _ hs

/-! ## The walks -/

theorem shade_holds (w : Steady P) {x : Walk} {t : Prim} {d : DrawCall} {f : Fragment} {l : List Nat} (hx : P x.run.state) :
    P (x.shade t d f l).run.state := by
  unfold Walk.shade
  split
  · exact hx
  · exact hx
  · exact runProgram_holds w hx

theorem shadePrim_holds (w : Steady P) {floor : Tab Nat} {x : Walk} {k : Nat} (hx : P x.run.state) :
    P (shadePrim floor x k).run.state := by
  unfold shadePrim
  split
  · exact hx
  · refine foldl_holds (Q := fun x : Walk => P x.run.state) (fun x _ h => ?_) _ hx
    exact shade_holds w h

theorem latePrim_holds (w : Steady P) {x : Walk} {k : Nat} (hx : P x.run.state) : P (latePrim x k).run.state := by
  unfold latePrim
  split
  · exact hx
  · refine foldl_holds (Q := fun x : Walk => P x.run.state) (fun x _ h => ?_) _ hx
    dsimp only
    split
    · exact h
    · split <;> exact runProgram_holds w h

theorem walkSegment_holds (w : Steady P) {x : Walk} {l : List Nat} (hx : P x.run.state) : P (walkSegment x l).run.state :=
  foldl_holds (Q := fun x : Walk => P x.run.state) (fun _ _ h => shadePrim_holds w h) _ hx

theorem walkTile_holds (w : Steady P) (l : List Nat) {x : Walk} {seg : List Nat} (hx : P x.run.state) :
    P (walkTile x seg l).run.state := by
  induction l generalizing x seg with
  | nil => exact walkSegment_holds w hx
  | cons k l ih =>
    unfold walkTile
    split
    · exact ih (latePrim_holds w (walkSegment_holds w hx))
    · exact ih hx

theorem storeTile_holds (w : Steady P) {x : Walk} {s : State} (hs : P s) : P (storeTile x s) :=
  foldl_holds (Q := P) (fun _ _ h => foldl_holds (Q := P) (fun _ _ h => w.write _ _ _ _ h) _ h) _ hs

/-- The end of a tile changes the state by reads and writes of surface memory alone. -/
theorem finishTile_holds (w : Steady P) {s : State} {p : Pass} {n : Nat} {l : List Sample} (hs : P s) :
    P (finishTile s p n l).state := by
  unfold finishTile
  dsimp only
  split
  · exact walkTile_holds w _ hs
  · exact storeTile_holds w (walkTile_holds w _ hs)

/-- The end of a workgroup changes the state by a free value drawn, reads and writes of surface memory alone. -/
theorem finishGroup_holds (w : Steady P) {s : State} {p : Pass} {d : DispatchCall} {n : Nat} (hs : P (draw s)) :
    P (finishGroup s p d n).state := runProgram_holds w hs

end Sys2Proof.Machine
end

