-- ==== Sys2Proof/Laws/ChangesGpu.lean ====
section
/-!
SUPPORT. What each operation of Machine/Gpu.lean may change.
-/

namespace Sys2Proof.Machine

theorem modPass_ch {P : List Part} {b₀ : State} {s : State} {c id : Nat} {g : Pass → Pass} (hP : [.ctxs] ⊆ P) (hb₀ : Changes P b₀ s) : Changes P b₀ (modPass s c id g) := by
  unfold modPass
  repeat' first
    | with_reducible assumption
    | with_reducible apply modCtx_ch

theorem setTarget_ch {P : List Part} {b₀ : State} {s : State} {c t : Nat} (hP : [.objs, .tilthLog] ⊆ P) (hb₀ : Changes P b₀ s) : Changes P b₀ (setTarget s c t) := by
  unfold setTarget
  repeat' first
    | with_reducible assumption
    | with_reducible apply putN_ch
    | with_reducible apply putB_ch
    | with_reducible apply tilthEntry_ch
    | with_reducible apply hintMiss_ch
    | ((with_reducible refine part_sub hP ?_); rfl)
    | (extract_lets +onlyGivenNames x; refine ch_step (P := P) (r := b₀) (x := x) ?_ (fun hx => ?_); subst x; rotate_left; clear_value x; revert x; intro _ _)
    | (extract_lets +onlyGivenNames x; clear_value x; revert x; intro _)
    | with_reducible apply ch_ite

theorem arbitrateWith_ch {P : List Part} {b₀ : State} {s : State} {c0 : Nat} (hP : [.objs, .tilthLog] ⊆ P) (hb₀ : Changes P b₀ s) : Changes P b₀ (arbitrateWith s c0) := by
  unfold arbitrateWith
  repeat' first
    | with_reducible assumption
    | with_reducible apply setTarget_ch
    | with_reducible apply foldl_ch
    | with_reducible apply foldl_ch1
    | (intro x a hx; try beta_reduce)

theorem arbitrate_ch {P : List Part} {b₀ : State} {s : State} (hP : [.objs, .tilthLog] ⊆ P) (hb₀ : Changes P b₀ s) : Changes P b₀ (arbitrate s) := by
  unfold arbitrate
  repeat' first
    | with_reducible assumption
    | with_reducible apply arbitrateWith_ch

theorem execArbitration_ch {P : List Part} {b₀ : State} {s : State} (hP : [.objs, .tilthLog] ⊆ P) (hb₀ : Changes P b₀ s) : ChangesAll P b₀ (execArbitration s) := by
  unfold execArbitration
  repeat' first
    | with_reducible assumption
    | with_reducible apply arbitrate_ch
    | with_reducible apply changes_next

theorem leaveIdle_ch {P : List Part} {b₀ : State} {s : State} {k : Nat} (hP : [.objs] ⊆ P) (hb₀ : Changes P b₀ s) : Changes P b₀ (leaveIdle s k) := by
  unfold leaveIdle
  repeat' first
    | with_reducible assumption
    | with_reducible apply putN_ch
    | with_reducible apply ch_ite

theorem takeRowTile_ch {P : List Part} {b₀ : State} {s : State} {k p r : Nat} (hP : [.objs, .cores, .ports] ⊆ P) (hb₀ : Changes P b₀ s) : Changes P b₀ (takeRowTile s k p r) := by
  unfold takeRowTile
  repeat' first
    | with_reducible assumption
    | with_reducible apply putN_ch
    | with_reducible apply bump_ch
    | with_reducible apply modCore_ch
    | with_reducible apply modRow_ch
    | with_reducible apply leaveIdle_ch
    | with_reducible apply preemptFor_ch
    | ((with_reducible refine part_sub hP ?_); rfl)
    | with_reducible refine ch_fst (by with_reducible assumption) ?_
    | with_reducible apply ch_ite
    | split

theorem freshUnit_ch {P : List Part} {b₀ : State} {s : State} {p : Pass} {n : Nat} (hP : [.fresh, .objs, .voteSecond, .funcs, .sess, .frames, .served, .ehrica, .balance, .dram, .mem, .power, .grog, .notes] ⊆ P) (hb₀ : Changes P b₀ s) : Changes P b₀ (freshUnit s p n).1 := by
  unfold freshUnit
  repeat' first
    | with_reducible assumption
    | with_reducible apply startTile_ch
    | with_reducible refine ch_fst (by with_reducible assumption) ?_
    | with_reducible apply ch_ite
    | with_reducible apply ch_ite1

theorem takeOne_ch {P : List Part} {b₀ : State} {s : State} {k c : Nat} {p : Pass} (hP : [.fresh, .objs, .voteSecond, .funcs, .sess, .frames, .served, .ctxs, .ehrica, .balance, .dram, .mem, .power, .grog, .notes] ⊆ P) (hb₀ : Changes P b₀ s) : Changes P b₀ (takeOne s k c p).1 := by
  unfold takeOne
  repeat' first
    | with_reducible assumption
    | with_reducible apply hf1
    | with_reducible apply hf2
    | with_reducible apply hf3
    | with_reducible apply putN_ch
    | with_reducible apply bump_ch
    | with_reducible apply draw_ch
    | with_reducible apply modPass_ch
    | with_reducible apply freshUnit_ch
    | ((with_reducible refine part_sub hP ?_); rfl)
    | (extract_lets +onlyGivenNames x; clear_value x; revert x; intro _)
    | with_reducible apply ch_ite
    | with_reducible apply ch_ite1
    | split

theorem takeMore_ch {P : List Part} {b₀ : State} {k c id n : Nat} {s : State} (hP : [.fresh, .objs, .voteSecond, .funcs, .sess, .frames, .served, .ctxs, .cores, .ehrica, .balance, .dram, .mem, .power, .grog, .notes] ⊆ P) (hb₀ : Changes P b₀ s) :
    Changes P b₀ (takeMore k c id n s) := by
  induction n generalizing s with
  | zero => exact hb₀
  | succ n ih =>
    unfold takeMore
    split
    · exact hb₀
    · next p _ =>
      have := takeOne_ch (k := k) (c := c) (p := p) (part_sub hP rfl) hb₀
      split
      next h => rw [h] at this; exact ih (modCore_ch (part_sub hP rfl) this)

theorem takeUnit_ch {P : List Part} {b₀ : State} {s : State} {k c : Nat} {lent : Bool} (hP : [.fresh, .objs, .voteSecond, .funcs, .sess, .frames, .served, .ctxs, .cores, .ehrica, .balance, .dram, .mem, .power, .grog, .notes] ⊆ P) (hb₀ : Changes P b₀ s) : Changes P b₀ (takeUnit s k c lent) := by
  unfold takeUnit
  repeat' first
    | with_reducible assumption
    | with_reducible apply modCore_ch
    | with_reducible apply leaveIdle_ch
    | with_reducible apply takeOne_ch
    | with_reducible apply takeMore_ch
    | with_reducible apply preemptFor_ch
    | ((with_reducible refine part_sub hP ?_); rfl)
    | with_reducible refine ch_fst (by with_reducible assumption) ?_
    | with_reducible apply ch_ite
    | split

theorem chooseWork_ch {P : List Part} {b₀ : State} {s : State} {k : Nat} (hP : [.fresh, .objs, .voteSecond, .funcs, .sess, .frames, .served, .ctxs, .cores, .ports, .ehrica, .balance, .dram, .mem, .power, .grog, .notes] ⊆ P) (hb₀ : Changes P b₀ s) : Changes P b₀ (chooseWork s k) := by
  unfold chooseWork
  repeat' first
    | with_reducible assumption
    | with_reducible apply hf1
    | with_reducible apply hf2
    | with_reducible apply hf3
    | with_reducible apply takeRowTile_ch
    | with_reducible apply takeUnit_ch
    | ((with_reducible refine part_sub hP ?_); rfl)
    | (extract_lets +onlyGivenNames x; clear_value x; revert x; intro _)
    | with_reducible refine ch_fst (by with_reducible assumption) ?_
    | with_reducible apply ch_ite
    | split

theorem refill_ch {P : List Part} {b₀ : State} {s : State} {k : Nat} (hP : [.fresh, .objs, .voteSecond, .funcs, .sess, .frames, .served, .ctxs, .cores, .ehrica, .balance, .dram, .mem, .power, .grog, .notes] ⊆ P) (hb₀ : Changes P b₀ s) : Changes P b₀ (refill s k) := by
  unfold refill
  repeat' first
    | with_reducible assumption
    | with_reducible apply takeMore_ch
    | with_reducible apply ch_ite
    | split

theorem execCoreDispatchPoint_ch {P : List Part} {b₀ : State} {core : Fin 36} {s : State} (hP : [.fresh, .objs, .voteSecond, .funcs, .sess, .frames, .served, .ctxs, .cores, .ports, .ehrica, .balance, .dram, .mem, .power, .grog, .notes] ⊆ P) (hb₀ : Changes P b₀ s) : ChangesAll P b₀ (execCoreDispatchPoint core s) := by
  unfold execCoreDispatchPoint
  repeat' first
    | with_reducible assumption
    | with_reducible apply chooseWork_ch
    | with_reducible apply refill_ch
    | ((with_reducible refine part_sub hP ?_); rfl)
    | with_reducible apply changes_next
    | with_reducible apply changes_fault
    | with_reducible apply ch_ite
    | with_reducible apply changes_ite

theorem preemptFor_ch {P : List Part} {b₀ : State} {c : Nat} {ok : State → Nat × Nat → Bool} {n : Nat} {s : State} (hP : [.cores] ⊆ P)
    (hb₀ : Changes P b₀ s) : Changes P b₀ (preemptFor c ok n s) := by
  induction n generalizing s with
  | zero => exact hb₀
  | succ n ih =>
    unfold preemptFor
    split
    · exact hb₀
    · exact ih (modCore_ch (part_sub hP rfl) hb₀)

theorem preemptReady_ch {P : List Part} {b₀ : State} {s : State} {c : Nat} (hP : [.cores] ⊆ P) (hb₀ : Changes P b₀ s) : Changes P b₀ (preemptReady s c) := by
  unfold preemptReady
  repeat' first
    | with_reducible assumption
    | with_reducible apply preemptFor_ch
    | (extract_lets +onlyGivenNames x; clear_value x; revert x; intro _)
    | with_reducible refine ch_fst (by with_reducible assumption) ?_
    | with_reducible apply ch_ite

theorem spillUnit_ch {P : List Part} {b₀ : State} {s : State} {k position spillNs : Nat} (hP : [.objs, .ctxs, .cores] ⊆ P) (hb₀ : Changes P b₀ s) : Changes P b₀ (spillUnit s k position spillNs) := by
  unfold spillUnit
  repeat' first
    | with_reducible assumption
    | with_reducible apply putN_ch
    | with_reducible apply modCore_ch
    | with_reducible apply modPass_ch
    | ((with_reducible refine part_sub hP ?_); rfl)
    | (extract_lets +onlyGivenNames x; clear_value x; revert x; intro _)
    | with_reducible apply ch_ite
    | split

theorem execPreemptDone_ch {P : List Part} {b₀ : State} {core : Fin 36} {latencyNs position spillNs : Nat} {s : State} (hP : [.fresh, .objs, .voteSecond, .funcs, .sess, .frames, .served, .ctxs, .cores, .ports, .ehrica, .balance, .dram, .mem, .power, .grog, .notes] ⊆ P) (hb₀ : Changes P b₀ s) : ChangesAll P b₀ (execPreemptDone core latencyNs position spillNs s) := by
  unfold execPreemptDone
  repeat' first
    | with_reducible assumption
    | with_reducible apply putN_ch
    | with_reducible apply bump_ch
    | with_reducible apply modCore_ch
    | with_reducible apply chooseWork_ch
    | with_reducible apply preemptFor_ch
    | with_reducible apply spillUnit_ch
    | ((with_reducible refine part_sub hP ?_); rfl)
    | with_reducible apply changes_next
    | with_reducible apply changes_fault
    | (extract_lets +onlyGivenNames x; refine ch_step (P := P) (r := b₀) (x := x) ?_ (fun hx => ?_); subst x; rotate_left; clear_value x; revert x; intro _ _)
    | (extract_lets +onlyGivenNames x; clear_value x; revert x; intro _)
    | with_reducible apply ch_ite
    | with_reducible apply changes_ite
    | split

theorem execCompositorRowEligible_ch {P : List Part} {b₀ : State} {port : Fin 8} {row : Fin 256} {s : State} (hP : [.objs, .cores, .ports, .tilthLog] ⊆ P) (hb₀ : Changes P b₀ s) : ChangesAll P b₀ (execCompositorRowEligible port row s) := by
  unfold execCompositorRowEligible
  repeat' first
    | with_reducible assumption
    | with_reducible apply modRow_ch
    | with_reducible apply arbitrateWith_ch
    | with_reducible apply takeRowTile_ch
    | with_reducible apply preemptFor_ch
    | ((with_reducible refine part_sub hP ?_); rfl)
    | with_reducible apply changes_next
    | with_reducible apply changes_fault
    | with_reducible apply foldN_ch
    | (intro x a hx; try beta_reduce)
    | (extract_lets +onlyGivenNames x; refine ch_step (P := P) (r := b₀) (x := x) ?_ (fun hx => ?_); subst x; rotate_left; clear_value x; revert x; intro _ _)
    | (extract_lets +onlyGivenNames x; clear_value x; revert x; intro _)
    | with_reducible apply ch_ite
    | with_reducible apply changes_ite
    | split

theorem execRowComposeDone_ch {P : List Part} {b₀ : State} {port : Fin 8} {row : Fin 256} {s : State} (hP : [.ports] ⊆ P) (hb₀ : Changes P b₀ s) : ChangesAll P b₀ (execRowComposeDone port row s) := by
  unfold execRowComposeDone
  repeat' first
    | with_reducible assumption
    | with_reducible apply modRow_ch
    | with_reducible apply changes_next
    | with_reducible apply changes_fault
    | (extract_lets +onlyGivenNames x; clear_value x; revert x; intro _)
    | with_reducible refine ch_fst (by with_reducible assumption) ?_
    | with_reducible apply ch_ite
    | with_reducible apply changes_ite
    | split

theorem rowLate_ch {P : List Part} {b₀ : State} {s : State} {p row tag : Nat} (hP : [.fresh, .objs, .voteSecond, .funcs, .sess, .ports, .grog, .notes] ⊆ P) (hb₀ : Changes P b₀ s) : Changes P b₀ (rowLate s p row tag) := by
  unfold rowLate
  repeat' first
    | with_reducible assumption
    | with_reducible apply bump_ch
    | with_reducible apply modPort_ch
    | with_reducible apply emit_ch
    | ((with_reducible refine part_sub hP ?_); rfl)

theorem execRowPrefetchPoint_ch {P : List Part} {b₀ : State} {port : Fin 8} {row : Fin 256} {s : State} (hP : [.fresh, .objs, .voteSecond, .funcs, .sess, .ports, .grog, .notes] ⊆ P) (hb₀ : Changes P b₀ s) : ChangesAll P b₀ (execRowPrefetchPoint port row s) := by
  unfold execRowPrefetchPoint
  repeat' first
    | with_reducible assumption
    | with_reducible apply bump_ch
    | with_reducible apply modPort_ch
    | with_reducible apply modRow_ch
    | with_reducible apply rowLate_ch
    | ((with_reducible refine part_sub hP ?_); rfl)
    | with_reducible apply changes_next
    | with_reducible apply changes_fault
    | (extract_lets +onlyGivenNames x; refine ch_step (P := P) (r := b₀) (x := x) ?_ (fun hx => ?_); subst x; rotate_left; clear_value x; revert x; intro _ _)
    | (extract_lets +onlyGivenNames x; clear_value x; revert x; intro _)
    | (extract_lets +onlyGivenNames x; subst x)
    | with_reducible apply ch_ite
    | with_reducible apply changes_ite
    | split

theorem passFault_ch {P : List Part} {b₀ : State} {s : State} {c : Nat} {t : Ticket} {cause record : Nat} (hP : [.fresh, .objs, .voteSecond, .host, .funcs, .sess, .rings, .grog, .notes] ⊆ P) (hb₀ : Changes P b₀ s) : Changes P b₀ (passFault s c t cause record) := by
  unfold passFault
  repeat' first
    | with_reducible assumption
    | with_reducible apply bump_ch
    | with_reducible apply emit_ch
    | with_reducible apply complete_ch
    | ((with_reducible refine part_sub hP ?_); rfl)

theorem clearCore_ch {P : List Part} {b₀ : State} {s : State} {k : Nat} (hP : [.cores] ⊆ P) (hb₀ : Changes P b₀ s) : Changes P b₀ (clearCore s k) := by
  unfold clearCore
  repeat' first
    | with_reducible assumption
    | with_reducible apply modCore_ch

theorem removePass_ch {P : List Part} {b₀ : State} {s : State} {c id : Nat} (hP : [.objs, .ctxs, .cores] ⊆ P) (hb₀ : Changes P b₀ s) : Changes P b₀ (removePass s c id) := by
  unfold removePass
  repeat' first
    | with_reducible assumption
    | with_reducible apply putN_ch
    | with_reducible apply modCtx_ch
    | with_reducible apply clearCore_ch
    | ((with_reducible refine part_sub hP ?_); rfl)
    | with_reducible apply foldN_ch
    | (intro x a hx; try beta_reduce)
    | with_reducible apply ch_ite
    | split

theorem overflow_ch {P : List Part} {b₀ : State} {s : State} {c : Nat} {p : Pass} {used : Nat} (hP : [.fresh, .objs, .voteSecond, .host, .funcs, .sess, .rings, .ctxs, .cores, .tilthLog, .grog, .notes] ⊆ P) (hb₀ : Changes P b₀ s) : Changes P b₀ (overflow s c p used) := by
  unfold overflow
  repeat' first
    | with_reducible assumption
    | with_reducible apply writeN_ch
    | with_reducible apply bump_ch
    | with_reducible apply modRing_ch
    | with_reducible apply modCtx_ch
    | with_reducible apply emit_ch
    | with_reducible apply complete_ch
    | with_reducible apply tilthEntry_ch
    | with_reducible apply removePass_ch
    | ((with_reducible refine part_sub hP ?_); rfl)
    | with_reducible apply ch_ite

theorem dropPass_ch {P : List Part} {b₀ : State} {s : State} {c : Nat} {t : Ticket} {frame : Nat} (hP : [.fresh, .objs, .voteSecond, .host, .funcs, .sess, .rings, .grog, .notes] ⊆ P) (hb₀ : Changes P b₀ s) : Changes P b₀ (dropPass s c t frame) := by
  unfold dropPass
  repeat' first
    | with_reducible assumption
    | with_reducible apply bump_ch
    | with_reducible apply complete_ch
    | ((with_reducible refine part_sub hP ?_); rfl)

theorem finishPass_ch {P : List Part} {b₀ : State} {s : State} {c : Nat} {p : Pass} (hP : [.fresh, .objs, .voteSecond, .host, .funcs, .sess, .rings, .ctxs, .cores, .grog, .notes] ⊆ P) (hb₀ : Changes P b₀ s) : Changes P b₀ (finishPass s c p) := by
  unfold finishPass
  repeat' first
    | with_reducible assumption
    | with_reducible apply putN_ch
    | with_reducible apply bump_ch
    | with_reducible apply complete_ch
    | with_reducible apply removePass_ch
    | ((with_reducible refine part_sub hP ?_); rfl)
    | (extract_lets +onlyGivenNames x; refine ch_step (P := P) (r := b₀) (x := x) ?_ (fun hx => ?_); subst x; rotate_left; clear_value x; revert x; intro _ _)
    | (extract_lets +onlyGivenNames x; clear_value x; revert x; intro _)
    | with_reducible apply ch_ite

theorem parsePass_ch {P : List Part} {b₀ : State} {s : State} {p : Pass} (hP : [.fresh, .objs, .voteSecond, .funcs, .sess, .frames, .served, .ehrica, .balance, .dram, .mem, .power, .grog, .notes] ⊆ P) (hb₀ : Changes P b₀ s) : Changes P b₀ (parsePass s p).1 := by
  unfold parsePass
  repeat' first
    | with_reducible assumption
    | with_reducible apply readRef_ch
    | (extract_lets +onlyGivenNames x; clear_value x; revert x; intro _)
    | with_reducible refine ch_fst (by with_reducible assumption) ?_
    | with_reducible apply ch_ite
    | with_reducible apply ch_ite1
    | split

theorem steady_ch {P : List Part} {b₀ : State} (hw : [.fresh, .objs, .voteSecond, .funcs, .sess, .frames, .served, .ehrica, .balance, .dram, .mem, .power, .grog, .notes] ⊆ P) :
    Steady (Changes P b₀) :=
  ⟨fun _ _ _ _ h => readHandle_ch (part_sub hw rfl) h, fun _ _ _ _ h => writeHandle_ch (part_sub hw rfl) h⟩

theorem binNow_ch {P : List Part} {b₀ : State} {s : State} {c : Nat} {p : Pass} {first : Bool} (hP : [.fresh, .objs, .voteSecond, .host, .funcs, .sess, .frames, .served, .rings, .ctxs, .cores, .tilthLog, .ehrica, .balance, .dram, .mem, .power, .grog, .notes] ⊆ P) (hb₀ : Changes P b₀ s) :
    ChangesOpt P b₀ (binNow s c p first) := by
  unfold binNow
  extract_lets pool b counted
  have hc : Changes P b₀ counted := bumpBy_ch (part_sub hP rfl) (binPass_holds (steady_ch (part_sub hP rfl)) hb₀)
  clear_value counted b
  repeat' first
    | with_reducible exact changesOpt_none
    | with_reducible apply changesOpt_some
    | with_reducible assumption
    | ((with_reducible refine part_sub hP ?_); rfl)
    | with_reducible apply passFault_ch
    | with_reducible apply removePass_ch
    | with_reducible apply overflow_ch
    | with_reducible apply modPass_ch
    | with_reducible apply putN_ch
    | split

theorem binStep_ch {P : List Part} {b₀ : State} {s : State} {c : Nat} (hP : [.fresh, .objs, .voteSecond, .host, .funcs, .sess, .frames, .served, .rings, .ctxs, .cores, .tilthLog, .ehrica, .balance, .dram, .mem, .power, .grog, .notes] ⊆ P) (hb₀ : Changes P b₀ s) : ChangesOpt P b₀ (binStep s c) := by
  unfold binStep
  repeat' first
    | with_reducible assumption
    | with_reducible apply putN_ch
    | with_reducible apply modCtx_ch
    | with_reducible apply modPass_ch
    | with_reducible apply passFault_ch
    | with_reducible apply removePass_ch
    | with_reducible apply dropPass_ch
    | with_reducible apply finishPass_ch
    | with_reducible apply parsePass_ch
    | with_reducible refine (binNow_ch ?hP ?_).ch _ (by with_reducible assumption)
    | with_reducible apply binNow_ch
    | ((with_reducible refine part_sub hP ?_); rfl)
    | (extract_lets +onlyGivenNames x; clear_value x; revert x; intro _)
    | with_reducible refine ch_fst (by with_reducible assumption) ?_
    | with_reducible apply ch_ite
    | split
    | with_reducible exact changesOpt_none
    | with_reducible apply changesOpt_some

theorem binAll_ch {P : List Part} {b₀ : State} {n : Nat} {s : State} {c : Nat} (hP : [.fresh, .objs, .voteSecond, .host, .funcs, .sess, .frames, .served, .rings, .ctxs, .cores, .tilthLog, .ehrica, .balance, .dram, .mem, .power, .grog, .notes] ⊆ P) (hb₀ : Changes P b₀ s) :
    Changes P b₀ (binAll n s c) := by
  induction n generalizing s with
  | zero => exact hb₀
  | succ n ih =>
    unfold binAll
    split
    · exact hb₀
    · exact ih ((binStep_ch (part_sub hP rfl) hb₀).ch _ (by assumption))

theorem ctxChanged_ch {P : List Part} {b₀ : State} {s : State} {c : Nat} (hP : [.fresh, .objs, .voteSecond, .host, .funcs, .sess, .frames, .served, .rings, .signals, .ctxs, .cores, .tilthLog, .ehrica, .balance, .dram, .mem, .power, .grog, .notes] ⊆ P) (hb₀ : Changes P b₀ s) : Changes P b₀ (ctxChanged s c) := by
  unfold ctxChanged
  repeat' first
    | with_reducible assumption
    | with_reducible apply runSignals_ch
    | with_reducible apply arbitrate_ch
    | with_reducible apply preemptReady_ch
    | with_reducible apply binAll_ch
    | ((with_reducible refine part_sub hP ?_); rfl)

theorem execTilePhaseStart_ch {P : List Part} {b₀ : State} {ctx : Fin 64} {s : State} (hP : [.fresh, .objs, .voteSecond, .host, .funcs, .sess, .frames, .served, .rings, .signals, .ctxs, .cores, .tilthLog, .ehrica, .balance, .dram, .mem, .power, .grog, .notes] ⊆ P) (hb₀ : Changes P b₀ s) : ChangesAll P b₀ (execTilePhaseStart ctx s) := by
  unfold execTilePhaseStart
  repeat' first
    | with_reducible assumption
    | with_reducible apply modPass_ch
    | with_reducible apply finishPass_ch
    | with_reducible apply ctxChanged_ch
    | ((with_reducible refine part_sub hP ?_); rfl)
    | with_reducible apply changes_next
    | with_reducible apply changes_fault
    | with_reducible apply ch_ite
    | with_reducible apply changes_ite
    | split

theorem freeCore_ch {P : List Part} {b₀ : State} {s : State} {k c : Nat} (hP : [.objs, .cores] ⊆ P) (hb₀ : Changes P b₀ s) : Changes P b₀ (freeCore s k c) := by
  unfold freeCore
  repeat' first
    | with_reducible assumption
    | with_reducible apply putN_ch
    | with_reducible apply clearCore_ch
    | ((with_reducible refine part_sub hP ?_); rfl)

theorem unitEnded_ch {P : List Part} {b₀ : State} {s : State} {c id : Nat} (hP : [.fresh, .objs, .voteSecond, .host, .funcs, .sess, .frames, .served, .rings, .signals, .ctxs, .cores, .tilthLog, .ehrica, .balance, .dram, .mem, .power, .grog, .notes] ⊆ P) (hb₀ : Changes P b₀ s) : Changes P b₀ (unitEnded s c id) := by
  unfold unitEnded
  repeat' first
    | with_reducible assumption
    | with_reducible apply modPass_ch
    | with_reducible apply finishPass_ch
    | with_reducible apply ctxChanged_ch
    | ((with_reducible refine part_sub hP ?_); rfl)
    | with_reducible apply ch_ite
    | split

theorem killPass_ch {P : List Part} {b₀ : State} {s : State} {c : Nat} {p : Pass} {cause : Nat} (hP : [.fresh, .objs, .voteSecond, .host, .funcs, .sess, .frames, .served, .rings, .signals, .ctxs, .cores, .tilthLog, .ehrica, .balance, .dram, .mem, .power, .grog, .notes] ⊆ P) (hb₀ : Changes P b₀ s) : Changes P b₀ (killPass s c p cause) := by
  unfold killPass
  repeat' first
    | with_reducible assumption
    | with_reducible apply passFault_ch
    | with_reducible apply removePass_ch
    | with_reducible apply ctxChanged_ch
    | ((with_reducible refine part_sub hP ?_); rfl)

theorem countUnit_ch {P : List Part} {b₀ : State} {s : State} {c id poison : Nat} (hP : [.ctxs] ⊆ P) (hb₀ : Changes P b₀ s) : Changes P b₀ (countUnit s c id poison) := by
  unfold countUnit
  repeat' first
    | with_reducible assumption
    | with_reducible apply modPass_ch

theorem endTile_ch {P : List Part} {b₀ : State} {s : State} {k c : Nat} {p : Pass} {n : Nat} {binPoison : Bool} (hP : [.fresh, .objs, .voteSecond, .host, .funcs, .sess, .frames, .served, .rings, .signals, .ctxs, .cores, .tilthLog, .ehrica, .balance, .dram, .mem, .power, .grog, .notes] ⊆ P)
    (hb₀ : Changes P b₀ s) : Changes P b₀ (endTile s k c p n binPoison) := by
  unfold endTile
  split
  · exact killPass_ch (part_sub hP rfl) hb₀
  · extract_lets run t
    have ht : Changes P b₀ t := bumpBy_ch (part_sub hP rfl) (finishTile_holds (steady_ch (part_sub hP rfl)) hb₀)
    split
    · exact killPass_ch (part_sub hP rfl) ht
    · exact unitEnded_ch (part_sub hP rfl) (freeCore_ch (part_sub hP rfl) (countUnit_ch (part_sub hP rfl) (bump_ch (part_sub hP rfl) ht)))

theorem endGroup_ch {P : List Part} {b₀ : State} {s : State} {k c : Nat} {p : Pass} {d : DispatchCall} {l : List Nat} {which : Nat}
    (hP : [.fresh, .objs, .voteSecond, .host, .funcs, .sess, .frames, .served, .rings, .signals, .ctxs, .cores, .tilthLog, .ehrica, .balance, .dram, .mem, .power, .grog, .notes] ⊆ P) (hb₀ : Changes P b₀ s) : Changes P b₀ (endGroup s k c p d l which) := by
  unfold endGroup
  extract_lets n run t
  have ht : Changes P b₀ t :=
    bumpBy_ch (part_sub hP rfl) (finishGroup_holds (steady_ch (part_sub hP rfl)) (draw_ch (part_sub hP rfl) hb₀))
  split
  · exact killPass_ch (part_sub hP rfl) ht
  · refine unitEnded_ch (part_sub hP rfl) ?_
    split
    · exact freeCore_ch (part_sub hP rfl) (countUnit_ch (part_sub hP rfl) ht)
    · exact modCore_ch (part_sub hP rfl) (countUnit_ch (part_sub hP rfl) ht)

theorem execTileDone_ch {P : List Part} {b₀ : State} {core : Fin 36} {binPoison : Bool} {s : State} (hP : [.fresh, .objs, .voteSecond, .host, .funcs, .sess, .frames, .served, .rings, .signals, .ctxs, .cores, .ports, .tilthLog, .ehrica, .balance, .dram, .mem, .power, .grog, .notes] ⊆ P) (hb₀ : Changes P b₀ s) : ChangesAll P b₀ (execTileDone core binPoison s) := by
  unfold execTileDone
  repeat' first
    | with_reducible assumption
    | with_reducible apply bump_ch
    | with_reducible apply modRow_ch
    | with_reducible apply composeTile_ch
    | with_reducible apply clearCore_ch
    | with_reducible apply endTile_ch
    | ((with_reducible refine part_sub hP ?_); rfl)
    | with_reducible apply changes_next
    | with_reducible apply changes_fault
    | with_reducible apply ch_ite
    | with_reducible apply changes_ite
    | split

theorem execWorkgroupDone_ch {P : List Part} {b₀ : State} {core : Fin 36} {which : Nat} {s : State} (hP : [.fresh, .objs, .voteSecond, .host, .funcs, .sess, .frames, .served, .rings, .signals, .ctxs, .cores, .tilthLog, .ehrica, .balance, .dram, .mem, .power, .grog, .notes] ⊆ P) (hb₀ : Changes P b₀ s) : ChangesAll P b₀ (execWorkgroupDone core which s) := by
  unfold execWorkgroupDone
  repeat' first
    | with_reducible assumption
    | with_reducible apply endGroup_ch
    | with_reducible apply changes_next
    | with_reducible apply changes_fault
    | with_reducible apply ch_ite
    | with_reducible apply changes_ite
    | split

theorem execGpuWatchdog_ch {P : List Part} {b₀ : State} {ctx : Fin 64} {s : State} (hP : [.fresh, .objs, .voteSecond, .host, .funcs, .sess, .frames, .served, .rings, .signals, .ctxs, .cores, .tilthLog, .ehrica, .balance, .dram, .mem, .power, .grog, .notes] ⊆ P) (hb₀ : Changes P b₀ s) : ChangesAll P b₀ (execGpuWatchdog ctx s) := by
  unfold execGpuWatchdog
  repeat' first
    | with_reducible assumption
    | with_reducible apply killPass_ch
    | with_reducible apply changes_next
    | with_reducible apply changes_fault
    | (extract_lets +onlyGivenNames x; clear_value x; revert x; intro _)
    | with_reducible apply ch_ite
    | with_reducible apply changes_ite
    | split

theorem loseUnit_ch {P : List Part} {b₀ : State} {s : State} {k : Nat} (hP : [.objs, .ctxs, .cores, .ports] ⊆ P) (hb₀ : Changes P b₀ s) : Changes P b₀ (loseUnit s k) := by
  unfold loseUnit
  repeat' first
    | with_reducible assumption
    | with_reducible apply modRow_ch
    | with_reducible apply modPass_ch
    | with_reducible apply clearCore_ch
    | with_reducible apply freeCore_ch
    | ((with_reducible refine part_sub hP ?_); rfl)
    | with_reducible apply ch_ite
    | split

theorem countCores_ch {P : List Part} {b₀ : State} {s : State} (hP : [.objs] ⊆ P) (hb₀ : Changes P b₀ s) : Changes P b₀ (countCores s) := by
  unfold countCores
  repeat' first
    | with_reducible assumption
    | with_reducible apply putN_ch

theorem coreLost_ch {P : List Part} {b₀ : State} {s : State} {k cause : Nat} {passing : Nat → Bool} (hP : [.fresh, .objs, .voteSecond, .funcs, .sess, .frames, .served, .ehrica, .cores, .tilthLog, .power, .grog, .notes] ⊆ P) (hb₀ : Changes P b₀ s) : Changes P b₀ (coreLost s k cause passing) := by
  unfold coreLost
  repeat' first
    | with_reducible assumption
    | with_reducible apply putN_ch
    | with_reducible apply askDomain_ch
    | with_reducible apply modCore_ch
    | with_reducible apply tilthEntry_ch
    | with_reducible apply settle_ch
    | with_reducible apply substitute_ch
    | with_reducible apply retireUnit_ch
    | with_reducible apply trySpares_ch
    | with_reducible apply arbitrate_ch
    | with_reducible apply preemptFor_ch
    | with_reducible apply countCores_ch
    | ((with_reducible refine part_sub hP ?_); rfl)
    | with_reducible refine ch_fst (by with_reducible assumption) ?_
    | with_reducible apply ch_ite
    | split

theorem execCoreFault_ch {P : List Part} {b₀ : State} {core : Fin 36} {retryPasses : Bool} {sparePasses : List (Fin 36)} {s : State} (hP : [.fresh, .objs, .voteSecond, .host, .funcs, .sess, .frames, .served, .rings, .signals, .ctxs, .cores, .ports, .tilthLog, .ehrica, .balance, .dram, .mem, .power, .grog, .notes] ⊆ P) (hb₀ : Changes P b₀ s) : ChangesAll P b₀ (execCoreFault core retryPasses sparePasses s) := by
  unfold execCoreFault
  repeat' first
    | with_reducible assumption
    | with_reducible apply hf1
    | with_reducible apply hf2
    | with_reducible apply hf3
    | with_reducible apply bump_ch
    | with_reducible apply killPass_ch
    | with_reducible apply loseUnit_ch
    | with_reducible apply coreLost_ch
    | ((with_reducible refine part_sub hP ?_); rfl)
    | with_reducible apply changes_next
    | with_reducible apply changes_fault
    | (extract_lets +onlyGivenNames x; refine ch_step (P := P) (r := b₀) (x := x) ?_ (fun hx => ?_); subst x; rotate_left; clear_value x; revert x; intro _ _)
    | (extract_lets +onlyGivenNames x; clear_value x; revert x; intro _)
    | with_reducible apply ch_ite
    | with_reducible apply changes_ite
    | split

theorem dropCtx_ch {P : List Part} {b₀ : State} {s : State} {c : Nat} (hP : [.objs, .ctxs, .cores] ⊆ P) (hb₀ : Changes P b₀ s) : Changes P b₀ (dropCtx s c) := by
  unfold dropCtx
  repeat' first
    | with_reducible assumption
    | with_reducible apply removePass_ch
    | with_reducible apply foldN_ch
    | (intro x a hx; try beta_reduce)

theorem execCtxStopDone_ch {P : List Part} {b₀ : State} {ctx : Fin 64} {s : State} (hP : [.fresh, .objs, .voteSecond, .funcs, .sess, .transit, .ctxs, .tilthLog, .grog, .notes] ⊆ P) (hb₀ : Changes P b₀ s) : ChangesAll P b₀ (execCtxStopDone ctx s) := by
  unfold execCtxStopDone
  repeat' first
    | with_reducible assumption
    | with_reducible apply putN_ch
    | with_reducible apply dropTransit_ch
    | with_reducible apply modCtx_ch
    | with_reducible apply emit_ch
    | with_reducible apply arbitrate_ch
    | ((with_reducible refine part_sub hP ?_); rfl)
    | with_reducible apply changes_next
    | with_reducible apply changes_fault
    | (extract_lets +onlyGivenNames x; refine ch_step (P := P) (r := b₀) (x := x) ?_ (fun hx => ?_); subst x; rotate_left; clear_value x; revert x; intro _ _)
    | with_reducible apply ch_ite
    | with_reducible apply changes_ite

end Sys2Proof.Machine
end

