-- ==== Sys2Proof/Laws/ChangesDraws.lean ====
section
/-!
SUPPORT. What each operation of Machine/Draws.lean may change.
-/

namespace Sys2Proof.Machine

theorem noContext_ch {P : List Part} {b₀ : State} {s : State} {t : Ticket} (hP : [.fresh, .voteSecond, .host, .funcs, .sess, .rings, .grog, .notes] ⊆ P) (hb₀ : Changes P b₀ s) : Changes P b₀ (noContext s t) := by
  unfold noContext
  repeat' first
    | with_reducible assumption
    | with_reducible apply complete_ch

theorem addPass_ch {P : List Part} {b₀ : State} {s : State} {c : Nat} {p : Pass} (hP : [.fresh, .objs, .voteSecond, .host, .funcs, .sess, .frames, .served, .rings, .signals, .ctxs, .cores, .tilthLog, .ehrica, .balance, .dram, .mem, .power, .grog, .notes] ⊆ P) (hb₀ : Changes P b₀ s) : Changes P b₀ (addPass s c p) := by
  unfold addPass
  repeat' first
    | with_reducible assumption
    | with_reducible apply modCtx_ch
    | with_reducible apply ctxChanged_ch
    | ((with_reducible refine part_sub hP ?_); rfl)

theorem execDrawSubmit_ch {P : List Part} {b₀ : State} {h : CmdHdr} {p : DrawPayload} {s : State} (hP : [.fresh, .objs, .votes, .voteSecond, .host, .funcs, .sess, .frames, .served, .rings, .signals, .ctxs, .cores, .tilthLog, .ehrica, .balance, .dram, .mem, .power, .grog, .notes] ⊆ P) (hb₀ : Changes P b₀ s) : ChangesAll P b₀ (execDrawSubmit h p s) := by
  unfold execDrawSubmit
  repeat' first
    | with_reducible assumption
    | with_reducible apply draw_ch
    | with_reducible apply modRing_ch
    | with_reducible apply beginCmd_ch
    | with_reducible apply passFault_ch
    | with_reducible apply dropPass_ch
    | with_reducible apply noContext_ch
    | with_reducible apply addPass_ch
    | ((with_reducible refine part_sub hP ?_); rfl)
    | with_reducible apply changes_next
    | with_reducible apply changes_fault
    | (extract_lets +onlyGivenNames x; refine ch_step (P := P) (r := b₀) (x := x) ?_ (fun hx => ?_); subst x; rotate_left; clear_value x; revert x; intro _ _)
    | (extract_lets +onlyGivenNames x; clear_value x; revert x; intro _)
    | with_reducible refine ch_fst (by with_reducible assumption) ?_
    | with_reducible apply ch_ite
    | with_reducible apply changes_ite
    | split

theorem execComputeDispatch_ch {P : List Part} {b₀ : State} {h : CmdHdr} {list : BitVec 64} {len : BitVec 32} {zero : BitVec 288} {s : State} (hP : [.fresh, .objs, .votes, .voteSecond, .host, .funcs, .sess, .frames, .served, .rings, .signals, .ctxs, .cores, .tilthLog, .ehrica, .balance, .dram, .mem, .power, .grog, .notes] ⊆ P) (hb₀ : Changes P b₀ s) : ChangesAll P b₀ (execComputeDispatch h list len zero s) := by
  unfold execComputeDispatch
  repeat' first
    | with_reducible assumption
    | with_reducible apply draw_ch
    | with_reducible apply beginCmd_ch
    | with_reducible apply passFault_ch
    | with_reducible apply noContext_ch
    | with_reducible apply addPass_ch
    | ((with_reducible refine part_sub hP ?_); rfl)
    | with_reducible apply changes_next
    | with_reducible apply changes_fault
    | with_reducible refine ch_fst (by with_reducible assumption) ?_
    | with_reducible apply ch_ite
    | with_reducible apply changes_ite
    | split

theorem execTranslationDone_ch {P : List Part} {b₀ : State} {slot : Fin 256} {s : State} (hP : [.objs, .progs] ⊆ P) (hb₀ : Changes P b₀ s) : ChangesAll P b₀ (execTranslationDone slot s) := by
  have m_progs : Part.progs ∈ P := part_mem hP rfl
  unfold execTranslationDone
  repeat' first
    | with_reducible assumption
    | with_reducible apply putV_ch
    | with_reducible apply putN_ch
    | with_reducible apply putB_ch
    | ((with_reducible refine part_sub hP ?_); rfl)
    | with_reducible apply changes_next
    | with_reducible apply changes_fault
    | fail_if_no_progress (with_reducible refine ch_progs ?_ m_progs)
    | with_reducible apply ch_ite
    | with_reducible apply changes_ite
    | split

theorem progApply_ch {P : List Part} {b₀ : State} {s : State} {i sub : Nat} {v : Val} (hP : [.objs] ⊆ P) (hb₀ : Changes P b₀ s) : Changes P b₀ (progApply s i sub v) := by
  unfold progApply
  repeat' first
    | with_reducible assumption
    | with_reducible apply putN_ch
    | with_reducible apply writeV_ch
    | (extract_lets +onlyGivenNames x; refine ch_step (P := P) (r := b₀) (x := x) ?_ (fun hx => ?_); subst x; rotate_left; clear_value x; revert x; intro _ _)
    | with_reducible apply ch_ite

theorem takePool_ch {P : List Part} {b₀ : State} {s : State} {i : Nat} (hP : [.objs, .ctxs, .tilthLog] ⊆ P) (hb₀ : Changes P b₀ s) : Changes P b₀ (takePool s i) := by
  unfold takePool
  repeat' first
    | with_reducible assumption
    | with_reducible apply putN_ch
    | with_reducible apply modCtx_ch
    | with_reducible apply tilthEntry_ch
    | ((with_reducible refine part_sub hP ?_); rfl)
    | (extract_lets +onlyGivenNames x; refine ch_step (P := P) (r := b₀) (x := x) ?_ (fun hx => ?_); subst x; rotate_left; clear_value x; revert x; intro _ _)
    | (extract_lets +onlyGivenNames x; clear_value x; revert x; intro _)
    | with_reducible apply ch_ite

theorem grantCtx_ch {P : List Part} {b₀ : State} {s : State} {i v : Nat} (hP : [.objs, .ctxs, .cores] ⊆ P) (hb₀ : Changes P b₀ s) : Changes P b₀ (grantCtx s i v) := by
  unfold grantCtx
  repeat' first
    | with_reducible assumption
    | with_reducible apply putN_ch
    | with_reducible apply modCtx_ch
    | with_reducible apply dropCtx_ch
    | ((with_reducible refine part_sub hP ?_); rfl)
    | with_reducible apply ch_ite

theorem enableCtx_ch {P : List Part} {b₀ : State} {s : State} {i : Nat} (hP : [.objs, .ctxs, .tilthLog] ⊆ P) (hb₀ : Changes P b₀ s) : Changes P b₀ (enableCtx s i) := by
  unfold enableCtx
  repeat' first
    | with_reducible assumption
    | with_reducible apply putN_ch
    | with_reducible apply writeB_ch
    | with_reducible apply takePool_ch
    | ((with_reducible refine part_sub hP ?_); rfl)

theorem disableCtx_ch {P : List Part} {b₀ : State} {s : State} {i : Nat} (hP : [.objs, .ctxs] ⊆ P) (hb₀ : Changes P b₀ s) : Changes P b₀ (disableCtx s i) := by
  unfold disableCtx
  repeat' first
    | with_reducible assumption
    | with_reducible apply writeB_ch
    | with_reducible apply modCtx_ch
    | ((with_reducible refine part_sub hP ?_); rfl)

theorem ctxApply_ch {P : List Part} {b₀ : State} {s : State} {i sub v : Nat} (hP : [.objs, .transit, .ctxs, .cores, .tilthLog] ⊆ P) (hb₀ : Changes P b₀ s) : Changes P b₀ (ctxApply s i sub v).1 := by
  unfold ctxApply
  repeat' first
    | with_reducible assumption
    | with_reducible apply writeN_ch
    | with_reducible apply enableWrite_ch
    | with_reducible apply arbitrate_ch
    | with_reducible apply preemptReady_ch
    | with_reducible apply grantCtx_ch
    | with_reducible apply enableCtx_ch
    | with_reducible apply disableCtx_ch
    | ((with_reducible refine part_sub hP ?_); rfl)
    | (intro x hx; try beta_reduce)
    | (extract_lets +onlyGivenNames x; refine ch_step (P := P) (r := b₀) (x := x) ?_ (fun hx => ?_); subst x; rotate_left; clear_value x; revert x; intro _ _)
    | (extract_lets +onlyGivenNames x; clear_value x; revert x; intro _)
    | (extract_lets +onlyGivenNames x; subst x)
    | with_reducible apply ch_ite
    | with_reducible apply ch_ite1

end Sys2Proof.Machine
end

