-- ==== Sys2Proof/Laws/ChangesScanout.lean ====
section
/-!
SUPPORT. What each operation of Machine/Scanout.lean may change.
-/

namespace Sys2Proof.Machine

theorem commitBits_ch {P : List Part} {b₀ : State} {s : State} {p bits : Nat} (hP : [.objs, .ports] ⊆ P) (hb₀ : Changes P b₀ s) : Changes P b₀ (commitBits s p bits) := by
  unfold commitBits
  repeat' first
    | with_reducible assumption
    | with_reducible apply putN_ch
    | with_reducible apply modPort_ch
    | ((with_reducible refine part_sub hP ?_); rfl)
    | (extract_lets +onlyGivenNames x; clear_value x; revert x; intro _)
    | with_reducible apply ch_ite

theorem answerCommits_ch {P : List Part} {b₀ : State} {s : State} (hP : [.fresh, .voteSecond, .host, .funcs, .sess, .rings, .commits, .grog, .notes] ⊆ P) (hb₀ : Changes P b₀ s) : Changes P b₀ (answerCommits s) := by
  have m_commits : Part.commits ∈ P := part_mem hP rfl
  unfold answerCommits
  repeat' first
    | with_reducible assumption
    | with_reducible apply complete_ch
    | with_reducible apply completeR_ch
    | ((with_reducible refine part_sub hP ?_); rfl)
    | with_reducible apply foldl_ch
    | with_reducible apply foldl_ch1
    | (intro x a hx; try beta_reduce)
    | (extract_lets +onlyGivenNames x; clear_value x; revert x; intro _)
    | fail_if_no_progress (with_reducible refine ch_commits ?_ m_commits)
    | with_reducible apply ch_ite

theorem commitTaken_ch {P : List Part} {b₀ : State} {s : State} {p taken : Nat} (hP : [.fresh, .voteSecond, .host, .funcs, .sess, .rings, .commits, .grog, .notes] ⊆ P) (hb₀ : Changes P b₀ s) : Changes P b₀ (commitTaken s p taken) := by
  have m_commits : Part.commits ∈ P := part_mem hP rfl
  unfold commitTaken
  repeat' first
    | with_reducible assumption
    | with_reducible apply answerCommits_ch
    | fail_if_no_progress (with_reducible refine ch_commits ?_ m_commits)

theorem commitLeft_ch {P : List Part} {b₀ : State} {s : State} {p : Nat} (hP : [.fresh, .voteSecond, .host, .funcs, .sess, .rings, .commits, .grog, .notes] ⊆ P) (hb₀ : Changes P b₀ s) : Changes P b₀ (commitLeft s p) := by
  have m_commits : Part.commits ∈ P := part_mem hP rfl
  unfold commitLeft
  repeat' first
    | with_reducible assumption
    | with_reducible apply answerCommits_ch
    | fail_if_no_progress (with_reducible refine ch_commits ?_ m_commits)

theorem modeChangeDone_ch {P : List Part} {b₀ : State} {s : State} {p result : Nat} (hP : [.fresh, .voteSecond, .funcs, .sess, .grog, .notes] ⊆ P) (hb₀ : Changes P b₀ s) : Changes P b₀ (modeChangeDone s p result) := by
  unfold modeChangeDone
  repeat' first
    | with_reducible assumption
    | with_reducible apply emit_ch

theorem modeChangeBegin_ch {P : List Part} {b₀ : State} {s : State} {p old new cause : Nat} (hP : [.fresh, .voteSecond, .funcs, .sess, .frames, .ehrica, .ports, .grog, .notes] ⊆ P) (hb₀ : Changes P b₀ s) : Changes P b₀ (modeChangeBegin s p old new cause) := by
  unfold modeChangeBegin
  repeat' first
    | with_reducible assumption
    | with_reducible apply emit_ch
    | with_reducible apply gapBegin_ch
    | ((with_reducible refine part_sub hP ?_); rfl)

theorem take_ch {P : List Part} {b₀ : State} {s : State} {p : Nat} {opening events : Bool} (hP : [.fresh, .objs, .voteSecond, .host, .funcs, .sess, .served, .rings, .ports, .commits, .tilthLog, .power, .grog, .notes] ⊆ P) (hb₀ : Changes P b₀ s) : Changes P b₀ (take s p opening events) := by
  unfold take
  repeat' first
    | with_reducible assumption
    | with_reducible apply putN_ch
    | with_reducible apply bumpBy_ch
    | with_reducible apply modPort_ch
    | with_reducible apply emit_ch
    | with_reducible apply recomputeRuns_ch
    | with_reducible apply applyPlan_ch
    | with_reducible apply blinkTake_ch
    | with_reducible apply kaolinTake_ch
    | with_reducible apply commitTaken_ch
    | ((with_reducible refine part_sub hP ?_); rfl)
    | (extract_lets +onlyGivenNames x; refine ch_step (P := P) (r := b₀) (x := x) ?_ (fun hx => ?_); subst x; rotate_left; clear_value x; revert x; intro _ _)
    | with_reducible apply ch_ite

theorem openTiming_ch {P : List Part} {b₀ : State} {s : State} {p : Nat} (hP : [.fresh, .objs, .voteSecond, .host, .funcs, .sess, .served, .rings, .ports, .commits, .tilthLog, .power, .grog, .notes] ⊆ P) (hb₀ : Changes P b₀ s) : Changes P b₀ (openTiming s p) := by
  unfold openTiming
  repeat' first
    | with_reducible assumption
    | with_reducible apply putN_ch
    | with_reducible apply modPort_ch
    | with_reducible apply take_ch
    | ((with_reducible refine part_sub hP ?_); rfl)
    | with_reducible apply ch_ite

theorem beginTraining_ch {P : List Part} {b₀ : State} {s : State} {p : Nat} {count : Bool} (hP : [.objs, .ports] ⊆ P) (hb₀ : Changes P b₀ s) : Changes P b₀ (beginTraining s p count) := by
  unfold beginTraining
  repeat' first
    | with_reducible assumption
    | with_reducible apply putN_ch
    | with_reducible apply bump_ch
    | with_reducible apply modPort_ch
    | ((with_reducible refine part_sub hP ?_); rfl)
    | with_reducible apply ch_ite

theorem openOrWait_ch {P : List Part} {b₀ : State} {s : State} {p : Nat} (hP : [.fresh, .objs, .voteSecond, .host, .funcs, .sess, .served, .rings, .ports, .commits, .tilthLog, .power, .grog, .notes] ⊆ P) (hb₀ : Changes P b₀ s) : Changes P b₀ (openOrWait s p) := by
  unfold openOrWait
  repeat' first
    | with_reducible assumption
    | with_reducible apply modPort_ch
    | with_reducible apply openTiming_ch
    | ((with_reducible refine part_sub hP ?_); rfl)
    | with_reducible apply ch_ite

theorem trainOrOpen_ch {P : List Part} {b₀ : State} {s : State} {p : Nat} {count : Bool} (hP : [.fresh, .objs, .voteSecond, .host, .funcs, .sess, .served, .rings, .ports, .commits, .tilthLog, .power, .grog, .notes] ⊆ P) (hb₀ : Changes P b₀ s) : Changes P b₀ (trainOrOpen s p count) := by
  unfold trainOrOpen
  repeat' first
    | with_reducible assumption
    | with_reducible apply putN_ch
    | with_reducible apply modPort_ch
    | with_reducible apply beginTraining_ch
    | with_reducible apply openOrWait_ch
    | ((with_reducible refine part_sub hP ?_); rfl)
    | with_reducible apply ch_ite

theorem bindEngine_ch {P : List Part} {b₀ : State} {s : State} {p e : Nat} (hP : [.objs, .ports, .tilthLog, .engineGen] ⊆ P) (hb₀ : Changes P b₀ s) : Changes P b₀ (bindEngine s p e) := by
  have m_engineGen : Part.engineGen ∈ P := part_mem hP rfl
  unfold bindEngine
  repeat' first
    | with_reducible assumption
    | with_reducible apply putN_ch
    | with_reducible apply modPort_ch
    | with_reducible apply tilthEntry_ch
    | ((with_reducible refine part_sub hP ?_); rfl)
    | fail_if_no_progress (with_reducible refine ch_engineGen ?_ m_engineGen)

theorem outputOff_ch {P : List Part} {b₀ : State} {s : State} {p : Nat} (hP : [.fresh, .objs, .voteSecond, .host, .funcs, .sess, .served, .rings, .ports, .commits, .power, .grog, .notes] ⊆ P) (hb₀ : Changes P b₀ s) : Changes P b₀ (outputOff s p) := by
  unfold outputOff
  repeat' first
    | with_reducible assumption
    | with_reducible apply putN_ch
    | with_reducible apply putB_ch
    | with_reducible apply modPort_ch
    | with_reducible apply settle_ch
    | with_reducible apply recomputeRuns_ch
    | with_reducible apply commitLeft_ch
    | ((with_reducible refine part_sub hP ?_); rfl)
    | with_reducible apply foldN_ch
    | (intro x a hx; try beta_reduce)

theorem noEngineLeft_ch {P : List Part} {b₀ : State} {s : State} {p : Nat} (hP : [.fresh, .objs, .voteSecond, .host, .funcs, .sess, .frames, .served, .rings, .ports, .commits, .power, .grog, .notes] ⊆ P) (hb₀ : Changes P b₀ s) : Changes P b₀ (noEngineLeft s p) := by
  unfold noEngineLeft
  repeat' first
    | with_reducible assumption
    | with_reducible apply writeB_ch
    | with_reducible apply modPort_ch
    | with_reducible apply raiseClass_ch
    | with_reducible apply updateHealth_ch
    | with_reducible apply modeChangeDone_ch
    | with_reducible apply outputOff_ch
    | ((with_reducible refine part_sub hP ?_); rfl)

theorem tryStart_ch {P : List Part} {b₀ : State} {s : State} {p : Nat} (hP : [.fresh, .objs, .voteSecond, .host, .funcs, .sess, .served, .rings, .ports, .commits, .tilthLog, .power, .grog, .engineGen, .notes] ⊆ P) (hb₀ : Changes P b₀ s) : Changes P b₀ (tryStart s p) := by
  unfold tryStart
  repeat' first
    | with_reducible assumption
    | with_reducible apply trainOrOpen_ch
    | with_reducible apply bindEngine_ch
    | ((with_reducible refine part_sub hP ?_); rfl)
    | (extract_lets +onlyGivenNames x; clear_value x; revert x; intro _)
    | with_reducible apply ch_ite
    | split

theorem chooseEngine_ch {P : List Part} {b₀ : State} {s : State} {p : Nat} (hP : [.fresh, .objs, .voteSecond, .funcs, .sess, .frames, .grog, .notes] ⊆ P) (hb₀ : Changes P b₀ s) : Changes P b₀ (chooseEngine s p).1 := by
  unfold chooseEngine
  repeat' first
    | with_reducible assumption
    | with_reducible apply bump_ch
    | with_reducible apply substitute_ch
    | ((with_reducible refine part_sub hP ?_); rfl)
    | with_reducible apply ch_ite
    | with_reducible apply ch_ite1
    | split

theorem beginStart_ch {P : List Part} {b₀ : State} {s : State} {p : Nat} (hP : [.fresh, .objs, .voteSecond, .host, .funcs, .sess, .frames, .served, .transit, .rings, .ports, .commits, .tilthLog, .hap, .panels, .snd, .fab, .power, .grog, .notes] ⊆ P) (hb₀ : Changes P b₀ s) : Changes P b₀ (beginStart s p) := by
  unfold beginStart
  repeat' first
    | with_reducible assumption
    | with_reducible apply putN_ch
    | with_reducible apply modPort_ch
    | with_reducible apply settle_ch
    | with_reducible apply recomputeRuns_ch
    | with_reducible apply noEngineLeft_ch
    | with_reducible apply chooseEngine_ch
    | with_reducible apply shed_ch
    | ((with_reducible refine part_sub hP ?_); rfl)
    | (extract_lets +onlyGivenNames x; refine ch_step (P := P) (r := b₀) (x := x) ?_ (fun hx => ?_); subst x; rotate_left; clear_value x; revert x; intro _ _)
    | with_reducible refine ch_fst (by with_reducible assumption) ?_
    | with_reducible apply ch_ite
    | split

theorem startOutput_ch {P : List Part} {b₀ : State} {s : State} {p : Nat} (hP : [.fresh, .objs, .voteSecond, .host, .funcs, .sess, .frames, .served, .transit, .rings, .ports, .commits, .tilthLog, .hap, .panels, .snd, .fab, .power, .grog, .notes] ⊆ P) (hb₀ : Changes P b₀ s) : Changes P b₀ (startOutput s p) := by
  unfold startOutput
  repeat' first
    | with_reducible assumption
    | with_reducible apply putN_ch
    | with_reducible apply modPort_ch
    | with_reducible apply beginStart_ch
    | ((with_reducible refine part_sub hP ?_); rfl)
    | with_reducible apply foldl_ch
    | with_reducible apply foldl_ch1
    | (intro x a hx; try beta_reduce)

theorem beginTransition_ch {P : List Part} {b₀ : State} {s : State} {p cause : Nat} (hP : [.objs, .ports] ⊆ P) (hb₀ : Changes P b₀ s) : Changes P b₀ (beginTransition s p cause) := by
  unfold beginTransition
  repeat' first
    | with_reducible assumption
    | with_reducible apply putN_ch
    | with_reducible apply modPort_ch
    | ((with_reducible refine part_sub hP ?_); rfl)

theorem latchShadow_ch {P : List Part} {b₀ : State} {s : State} {p : Nat} (hP : [.ports] ⊆ P) (hb₀ : Changes P b₀ s) : Changes P b₀ (latchShadow s p) := by
  unfold latchShadow
  repeat' first
    | with_reducible assumption
    | with_reducible apply modPort_ch

theorem stopOutput_ch {P : List Part} {b₀ : State} {s : State} {p : Nat} (hP : [.fresh, .objs, .voteSecond, .funcs, .sess, .served, .ports, .power, .grog, .notes] ⊆ P) (hb₀ : Changes P b₀ s) : Changes P b₀ (stopOutput s p) := by
  unfold stopOutput
  repeat' first
    | with_reducible assumption
    | with_reducible apply putN_ch
    | with_reducible apply modPort_ch
    | with_reducible apply settle_ch
    | with_reducible apply recomputeRuns_ch
    | with_reducible apply modeChangeDone_ch
    | with_reducible apply latchShadow_ch
    | ((with_reducible refine part_sub hP ?_); rfl)
    | with_reducible apply ch_ite

theorem finishStop_ch {P : List Part} {b₀ : State} {s : State} {p : Nat} (hP : [.fresh, .objs, .voteSecond, .host, .funcs, .sess, .frames, .served, .transit, .rings, .ports, .commits, .tilthLog, .hap, .panels, .snd, .fab, .power, .grog, .notes] ⊆ P) (hb₀ : Changes P b₀ s) : Changes P b₀ (finishStop s p) := by
  unfold finishStop
  repeat' first
    | with_reducible assumption
    | with_reducible apply resolved_ch
    | with_reducible apply outputOff_ch
    | with_reducible apply startOutput_ch
    | ((with_reducible refine part_sub hP ?_); rfl)
    | (extract_lets +onlyGivenNames x; refine ch_step (P := P) (r := b₀) (x := x) ?_ (fun hx => ?_); subst x; rotate_left; clear_value x; revert x; intro _ _)
    | with_reducible apply ch_ite

theorem trySpare_ch {P : List Part} {b₀ : State} {s : State} {p : Nat} (hP : [.fresh, .objs, .voteSecond, .host, .funcs, .sess, .served, .rings, .ports, .commits, .tilthLog, .power, .grog, .engineGen, .notes] ⊆ P) (hb₀ : Changes P b₀ s) : Changes P b₀ (trySpare s p) := by
  unfold trySpare
  repeat' first
    | with_reducible assumption
    | with_reducible apply settle_ch
    | with_reducible apply openTiming_ch
    | with_reducible apply bindEngine_ch
    | ((with_reducible refine part_sub hP ?_); rfl)
    | (extract_lets +onlyGivenNames x; refine ch_step (P := P) (r := b₀) (x := x) ?_ (fun hx => ?_); subst x; rotate_left; clear_value x; revert x; intro _ _)
    | (extract_lets +onlyGivenNames x; clear_value x; revert x; intro _)
    | with_reducible apply ch_ite
    | split

theorem spareFor_ch {P : List Part} {b₀ : State} {s : State} {p n : Nat} (hP : [.fresh, .objs, .voteSecond, .host, .funcs, .sess, .frames, .served, .ehrica, .rings, .ports, .commits, .tilthLog, .power, .grog, .engineGen, .notes] ⊆ P) (hb₀ : Changes P b₀ s) : Changes P b₀ (spareFor s p n) := by
  unfold spareFor
  repeat' first
    | with_reducible assumption
    | with_reducible apply putN_ch
    | with_reducible apply modPort_ch
    | with_reducible apply settle_ch
    | with_reducible apply modeChangeBegin_ch
    | with_reducible apply trySpare_ch
    | ((with_reducible refine part_sub hP ?_); rfl)
    | (extract_lets +onlyGivenNames x; refine ch_step (P := P) (r := b₀) (x := x) ?_ (fun hx => ?_); subst x; rotate_left; clear_value x; revert x; intro _ _)
    | (extract_lets +onlyGivenNames x; clear_value x; revert x; intro _)
    | with_reducible apply ch_ite

theorem engineLost_ch {P : List Part} {b₀ : State} {s : State} {e : Nat} {passing : Nat → Bool} (hP : [.fresh, .objs, .voteSecond, .host, .funcs, .sess, .frames, .served, .ehrica, .rings, .ports, .commits, .tilthLog, .power, .grog, .engineGen, .notes] ⊆ P) (hb₀ : Changes P b₀ s) : Changes P b₀ (engineLost s e passing) := by
  unfold engineLost
  repeat' first
    | with_reducible assumption
    | with_reducible apply bump_ch
    | with_reducible apply interruptTw_ch
    | with_reducible apply substitute_ch
    | with_reducible apply retireUnit_ch
    | with_reducible apply trySpares_ch
    | with_reducible apply noEngineLeft_ch
    | with_reducible apply spareFor_ch
    | ((with_reducible refine part_sub hP ?_); rfl)
    | (extract_lets +onlyGivenNames x; refine ch_step (P := P) (r := b₀) (x := x) ?_ (fun hx => ?_); subst x; rotate_left; clear_value x; revert x; intro _ _)
    | (extract_lets +onlyGivenNames x; clear_value x; revert x; intro _)
    | with_reducible refine ch_fst (by with_reducible assumption) ?_
    | with_reducible apply ch_ite
    | split

theorem closePoint_ch {P : List Part} {b₀ : State} {s : State} {p : Nat} (hP : [.ports] ⊆ P) (hb₀ : Changes P b₀ s) : Changes P b₀ (closePoint s p) := by
  unfold closePoint
  repeat' first
    | with_reducible assumption
    | with_reducible apply latchShadow_ch
    | (extract_lets +onlyGivenNames x; clear_value x; revert x; intro _)
    | with_reducible apply ch_ite

theorem execClosePoint_ch {P : List Part} {b₀ : State} {p : Fin 8} {s : State} (hP : [.ports] ⊆ P) (hb₀ : Changes P b₀ s) : ChangesAll P b₀ (execClosePoint p s) := by
  unfold execClosePoint
  repeat' first
    | with_reducible assumption
    | with_reducible apply closePoint_ch
    | with_reducible apply changes_next

theorem vbsMark_ch {P : List Part} {b₀ : State} {s : State} {p : Nat} (hP : [.ports] ⊆ P) (hb₀ : Changes P b₀ s) : Changes P b₀ (vbsMark s p) := by
  unfold vbsMark
  repeat' first
    | with_reducible assumption
    | with_reducible apply modPort_ch

theorem stopTiming_ch {P : List Part} {b₀ : State} {s : State} {p : Nat} (hP : [.ports] ⊆ P) (hb₀ : Changes P b₀ s) : Changes P b₀ (stopTiming s p) := by
  unfold stopTiming
  repeat' first
    | with_reducible assumption
    | with_reducible apply modPort_ch

theorem endBlack_ch {P : List Part} {b₀ : State} {s : State} {p : Nat} (hP : [.fresh, .objs, .voteSecond, .host, .funcs, .sess, .served, .rings, .ports, .commits, .tilthLog, .power, .grog, .notes] ⊆ P) (hb₀ : Changes P b₀ s) : Changes P b₀ (endBlack s p) := by
  unfold endBlack
  repeat' first
    | with_reducible assumption
    | with_reducible apply modPort_ch
    | with_reducible apply openTiming_ch
    | with_reducible apply trainOrOpen_ch
    | with_reducible apply vbsMark_ch
    | ((with_reducible refine part_sub hP ?_); rfl)
    | (extract_lets +onlyGivenNames x; clear_value x; revert x; intro _)
    | with_reducible apply ch_ite

theorem vbs_ch {P : List Part} {b₀ : State} {s : State} {p : Nat} (hP : [.fresh, .objs, .voteSecond, .host, .funcs, .sess, .frames, .served, .ehrica, .rings, .ports, .commits, .tilthLog, .power, .grog, .notes] ⊆ P) (hb₀ : Changes P b₀ s) : Changes P b₀ (vbs s p) := by
  unfold vbs
  repeat' first
    | with_reducible assumption
    | with_reducible apply modPort_ch
    | with_reducible apply scanPoison_ch
    | with_reducible apply modeChangeBegin_ch
    | with_reducible apply take_ch
    | with_reducible apply closePoint_ch
    | with_reducible apply vbsMark_ch
    | with_reducible apply stopTiming_ch
    | with_reducible apply endBlack_ch
    | ((with_reducible refine part_sub hP ?_); rfl)
    | (extract_lets +onlyGivenNames x; refine ch_step (P := P) (r := b₀) (x := x) ?_ (fun hx => ?_); subst x; rotate_left; clear_value x; revert x; intro _ _)
    | (extract_lets +onlyGivenNames x; clear_value x; revert x; intro _)
    | with_reducible apply ch_ite
    | split

theorem firstTelltale_ch {P : List Part} {b₀ : State} {s : State} {p : Nat} (hP : [.objs] ⊆ P) (hb₀ : Changes P b₀ s) : Changes P b₀ (firstTelltale s p) := by
  unfold firstTelltale
  repeat' first
    | with_reducible assumption
    | with_reducible apply putN_ch
    | with_reducible apply ch_ite

theorem frameStart_ch {P : List Part} {b₀ : State} {s : State} {p : Nat} (hP : [.fresh, .objs, .voteSecond, .funcs, .sess, .frames, .ehrica, .ports, .grog, .notes] ⊆ P) (hb₀ : Changes P b₀ s) : Changes P b₀ (frameStart s p) := by
  unfold frameStart
  repeat' first
    | with_reducible assumption
    | with_reducible apply putN_ch
    | with_reducible apply bump_ch
    | with_reducible apply modPort_ch
    | with_reducible apply gapEnd_ch
    | with_reducible apply modeChangeDone_ch
    | with_reducible apply beginTransition_ch
    | with_reducible apply firstTelltale_ch
    | ((with_reducible refine part_sub hP ?_); rfl)
    | (extract_lets +onlyGivenNames x; refine ch_step (P := P) (r := b₀) (x := x) ?_ (fun hx => ?_); subst x; rotate_left; clear_value x; revert x; intro _ _)
    | (extract_lets +onlyGivenNames x; clear_value x; revert x; intro _)
    | with_reducible apply ch_ite

theorem execFrameStart_ch {P : List Part} {b₀ : State} {p : Fin 8} {s : State} (hP : [.fresh, .objs, .voteSecond, .funcs, .sess, .frames, .ehrica, .ports, .grog, .notes] ⊆ P) (hb₀ : Changes P b₀ s) : ChangesAll P b₀ (execFrameStart p s) := by
  unfold execFrameStart
  repeat' first
    | with_reducible assumption
    | with_reducible apply frameStart_ch
    | with_reducible apply changes_next

theorem execLineMatch_ch {P : List Part} {b₀ : State} {p : Fin 8} {s : State} (hP : [.fresh, .voteSecond, .funcs, .sess, .ports, .grog, .notes] ⊆ P) (hb₀ : Changes P b₀ s) : ChangesAll P b₀ (execLineMatch p s) := by
  unfold execLineMatch
  repeat' first
    | with_reducible assumption
    | with_reducible apply modPort_ch
    | with_reducible apply emit_ch
    | ((with_reducible refine part_sub hP ?_); rfl)
    | with_reducible apply changes_next
    | with_reducible apply changes_fault
    | (extract_lets +onlyGivenNames x; clear_value x; revert x; intro _)
    | with_reducible apply ch_ite
    | with_reducible apply changes_ite

theorem execFrameDone_ch {P : List Part} {b₀ : State} {p : Fin 8} {s : State} (hP : [.fresh, .voteSecond, .funcs, .sess, .ports, .grog, .notes] ⊆ P) (hb₀ : Changes P b₀ s) : ChangesAll P b₀ (execFrameDone p s) := by
  unfold execFrameDone
  repeat' first
    | with_reducible assumption
    | with_reducible apply modPort_ch
    | with_reducible apply emit_ch
    | ((with_reducible refine part_sub hP ?_); rfl)
    | with_reducible apply changes_next
    | with_reducible apply changes_fault
    | (extract_lets +onlyGivenNames x; refine ch_step (P := P) (r := b₀) (x := x) ?_ (fun hx => ?_); subst x; rotate_left; clear_value x; revert x; intro _ _)
    | (extract_lets +onlyGivenNames x; clear_value x; revert x; intro _)
    | with_reducible apply ch_ite
    | with_reducible apply changes_ite

theorem execUnderrun_ch {P : List Part} {b₀ : State} {p : Fin 8} {line : BitVec 16} {stream : Fin 7} {pixel : BitVec 16} {s : State} (hP : [.fresh, .objs, .voteSecond, .funcs, .sess, .ports, .grog, .notes] ⊆ P) (hb₀ : Changes P b₀ s) : ChangesAll P b₀ (execUnderrun p line stream pixel s) := by
  unfold execUnderrun
  repeat' first
    | with_reducible assumption
    | with_reducible apply bump_ch
    | with_reducible apply modPort_ch
    | with_reducible apply emit_ch
    | ((with_reducible refine part_sub hP ?_); rfl)
    | with_reducible apply changes_next
    | with_reducible apply changes_fault
    | (extract_lets +onlyGivenNames x; refine ch_step (P := P) (r := b₀) (x := x) ?_ (fun hx => ?_); subst x; rotate_left; clear_value x; revert x; intro _ _)
    | (extract_lets +onlyGivenNames x; clear_value x; revert x; intro _)
    | with_reducible apply ch_ite
    | with_reducible apply changes_ite

theorem execOutputStopDone_ch {P : List Part} {b₀ : State} {p : Fin 8} {s : State} (hP : [.fresh, .objs, .voteSecond, .host, .funcs, .sess, .frames, .served, .transit, .rings, .ports, .commits, .tilthLog, .hap, .panels, .snd, .fab, .power, .grog, .notes] ⊆ P) (hb₀ : Changes P b₀ s) : ChangesAll P b₀ (execOutputStopDone p s) := by
  unfold execOutputStopDone
  repeat' first
    | with_reducible assumption
    | with_reducible apply finishStop_ch
    | with_reducible apply changes_next
    | with_reducible apply changes_fault
    | with_reducible apply ch_ite
    | with_reducible apply changes_ite

theorem trainingDone_ch {P : List Part} {b₀ : State} {s : State} {p : Nat} {ok : Bool} {edid : List Byte} (hP : [.fresh, .objs, .voteSecond, .host, .funcs, .sess, .served, .rings, .ports, .commits, .tilthLog, .power, .grog, .notes] ⊆ P) (hb₀ : Changes P b₀ s) : Changes P b₀ (trainingDone s p ok edid) := by
  unfold trainingDone
  repeat' first
    | with_reducible assumption
    | with_reducible apply putV_ch
    | with_reducible apply putN_ch
    | with_reducible apply bump_ch
    | with_reducible apply modPort_ch
    | with_reducible apply openOrWait_ch
    | ((with_reducible refine part_sub hP ?_); rfl)
    | (extract_lets +onlyGivenNames x; refine ch_step (P := P) (r := b₀) (x := x) ?_ (fun hx => ?_); subst x; rotate_left; clear_value x; revert x; intro _ _)
    | (extract_lets +onlyGivenNames x; clear_value x; revert x; intro _)
    | with_reducible apply ch_ite
    | split

theorem execLinkTrainingDone_ch {P : List Part} {b₀ : State} {p : Fin 8} {ok : Bool} {edid : List Byte} {s : State} (hP : [.fresh, .objs, .voteSecond, .host, .funcs, .sess, .served, .rings, .ports, .commits, .tilthLog, .power, .grog, .notes] ⊆ P) (hb₀ : Changes P b₀ s) : ChangesAll P b₀ (execLinkTrainingDone p ok edid s) := by
  unfold execLinkTrainingDone
  repeat' first
    | with_reducible assumption
    | with_reducible apply trainingDone_ch
    | with_reducible apply changes_next

theorem execLinkRetryTimer_ch {P : List Part} {b₀ : State} {p : Fin 8} {s : State} (hP : [.objs, .ports] ⊆ P) (hb₀ : Changes P b₀ s) : ChangesAll P b₀ (execLinkRetryTimer p s) := by
  unfold execLinkRetryTimer
  repeat' first
    | with_reducible assumption
    | with_reducible apply modPort_ch
    | with_reducible apply beginTraining_ch
    | ((with_reducible refine part_sub hP ?_); rfl)
    | with_reducible apply changes_next
    | with_reducible apply changes_fault
    | (extract_lets +onlyGivenNames x; clear_value x; revert x; intro _)
    | with_reducible apply ch_ite
    | with_reducible apply changes_ite

theorem execHpdRise_ch {P : List Part} {b₀ : State} {p : Fin 8} {s : State} (hP : [.objs, .ports] ⊆ P) (hb₀ : Changes P b₀ s) : ChangesAll P b₀ (execHpdRise p s) := by
  unfold execHpdRise
  repeat' first
    | with_reducible assumption
    | with_reducible apply modPort_ch
    | with_reducible apply beginTransition_ch
    | ((with_reducible refine part_sub hP ?_); rfl)
    | with_reducible apply changes_next
    | with_reducible apply changes_fault
    | (extract_lets +onlyGivenNames x; refine ch_step (P := P) (r := b₀) (x := x) ?_ (fun hx => ?_); subst x; rotate_left; clear_value x; revert x; intro _ _)
    | with_reducible apply ch_ite
    | with_reducible apply changes_ite

theorem linkLost_ch {P : List Part} {b₀ : State} {s : State} {p : Nat} (hP : [.fresh, .objs, .voteSecond, .host, .funcs, .sess, .served, .rings, .ports, .commits, .tilthLog, .power, .grog, .notes] ⊆ P) (hb₀ : Changes P b₀ s) : Changes P b₀ (linkLost s p) := by
  unfold linkLost
  repeat' first
    | with_reducible assumption
    | with_reducible apply putN_ch
    | with_reducible apply modPort_ch
    | with_reducible apply openOrWait_ch
    | ((with_reducible refine part_sub hP ?_); rfl)
    | (extract_lets +onlyGivenNames x; refine ch_step (P := P) (r := b₀) (x := x) ?_ (fun hx => ?_); subst x; rotate_left; clear_value x; revert x; intro _ _)
    | (extract_lets +onlyGivenNames x; clear_value x; revert x; intro _)
    | with_reducible apply ch_ite

theorem execHpdFall_ch {P : List Part} {b₀ : State} {p : Fin 8} {pulseUs : Nat} {lockLost : Bool} {s : State} (hP : [.fresh, .objs, .voteSecond, .host, .funcs, .sess, .served, .rings, .ports, .commits, .tilthLog, .power, .grog, .notes] ⊆ P) (hb₀ : Changes P b₀ s) : ChangesAll P b₀ (execHpdFall p pulseUs lockLost s) := by
  unfold execHpdFall
  repeat' first
    | with_reducible assumption
    | with_reducible apply modPort_ch
    | with_reducible apply linkLost_ch
    | ((with_reducible refine part_sub hP ?_); rfl)
    | with_reducible apply changes_next
    | with_reducible apply changes_fault
    | with_reducible apply ch_ite
    | with_reducible apply changes_ite

theorem execEngineFault_ch {P : List Part} {b₀ : State} {e : Fin 9} {retryPasses : Bool} {sparePasses : List (Fin 9)} {s : State} (hP : [.fresh, .objs, .voteSecond, .host, .funcs, .sess, .frames, .served, .ehrica, .rings, .ports, .commits, .tilthLog, .power, .grog, .engineGen, .notes] ⊆ P) (hb₀ : Changes P b₀ s) : ChangesAll P b₀ (execEngineFault e retryPasses sparePasses s) := by
  unfold execEngineFault
  repeat' first
    | with_reducible assumption
    | with_reducible apply engineLost_ch
    | with_reducible apply changes_next
    | with_reducible apply changes_fault
    | with_reducible apply ch_ite
    | with_reducible apply changes_ite

theorem execLayerSet_ch {P : List Part} {b₀ : State} {h : CmdHdr} {y : LayerSetPayload} {s : State} (hP : [.fresh, .objs, .votes, .voteSecond, .host, .funcs, .sess, .rings, .ports, .grog, .notes] ⊆ P) (hb₀ : Changes P b₀ s) : ChangesAll P b₀ (execLayerSet h y s) := by
  unfold execLayerSet
  repeat' first
    | with_reducible assumption
    | with_reducible apply completeOpen_ch
    | with_reducible refine (droppedBy_ch ?hP ?_).ch _ (by with_reducible assumption)
    | with_reducible apply beginCmd_ch
    | with_reducible apply layerSetApply_ch
    | with_reducible apply commitBits_ch
    | ((with_reducible refine part_sub hP ?_); rfl)
    | with_reducible apply changes_next
    | with_reducible apply changes_fault
    | (extract_lets +onlyGivenNames x; refine ch_step (P := P) (r := b₀) (x := x) ?_ (fun hx => ?_); subst x; rotate_left; clear_value x; revert x; intro _ _)
    | with_reducible refine ch_fst (by with_reducible assumption) ?_
    | with_reducible apply ch_ite
    | with_reducible apply changes_ite
    | split

theorem execCommit_ch {P : List Part} {b₀ : State} {h : CmdHdr} {ports : BitVec 8} {s : State} (hP : [.fresh, .objs, .votes, .voteSecond, .host, .funcs, .sess, .rings, .ports, .commits, .grog, .notes] ⊆ P) (hb₀ : Changes P b₀ s) : ChangesAll P b₀ (execCommit h ports s) := by
  have m_commits : Part.commits ∈ P := part_mem hP rfl
  unfold execCommit
  repeat' first
    | with_reducible assumption
    | with_reducible apply completeOpen_ch
    | with_reducible refine (droppedBy_ch ?hP ?_).ch _ (by with_reducible assumption)
    | with_reducible apply beginCmd_ch
    | with_reducible apply commitBits_ch
    | with_reducible apply answerCommits_ch
    | ((with_reducible refine part_sub hP ?_); rfl)
    | with_reducible apply changes_next
    | with_reducible apply changes_fault
    | with_reducible apply foldN_ch
    | with_reducible apply foldl_ch
    | with_reducible apply foldl_ch1
    | (intro x a hx; try beta_reduce)
    | (extract_lets +onlyGivenNames x; refine ch_step (P := P) (r := b₀) (x := x) ?_ (fun hx => ?_); subst x; rotate_left; clear_value x; revert x; intro _ _)
    | (extract_lets +onlyGivenNames x; clear_value x; revert x; intro _)
    | with_reducible refine ch_fst (by with_reducible assumption) ?_
    | fail_if_no_progress (with_reducible refine ch_commits ?_ m_commits)
    | with_reducible apply ch_ite
    | with_reducible apply changes_ite
    | split

theorem execKaolinSramWrite_ch {P : List Part} {b₀ : State} {addr : Nat} {data : List Byte} {s : State} (hP : [.kram, .kold] ⊆ P) (hb₀ : Changes P b₀ s) : ChangesAll P b₀ (execKaolinSramWrite addr data s) := by
  have m_kram : Part.kram ∈ P := part_mem hP rfl
  have m_kold : Part.kold ∈ P := part_mem hP rfl
  unfold execKaolinSramWrite
  repeat' first
    | with_reducible assumption
    | with_reducible apply changes_next
    | with_reducible apply changes_fault
    | fail_if_no_progress (with_reducible refine ch_kram_kold ?_ m_kram m_kold)
    | with_reducible apply ch_ite
    | with_reducible apply changes_ite

theorem execSigCompare_ch {P : List Part} {b₀ : State} {p : Fin 8} {r : Fin 32} {seen : Option (BitVec 32)} {s : State} (hP : [.fresh, .objs, .voteSecond, .funcs, .sess, .frames, .ehrica, .ports, .grog, .notes] ⊆ P) (hb₀ : Changes P b₀ s) : ChangesAll P b₀ (execSigCompare p r seen s) := by
  unfold execSigCompare
  repeat' first
    | with_reducible assumption
    | with_reducible apply modPort_ch
    | with_reducible apply compareSig_ch
    | ((with_reducible refine part_sub hP ?_); rfl)
    | with_reducible apply changes_next
    | with_reducible apply changes_fault
    | (extract_lets +onlyGivenNames x; refine ch_step (P := P) (r := b₀) (x := x) ?_ (fun hx => ?_); subst x; rotate_left; clear_value x; revert x; intro _ _)
    | (extract_lets +onlyGivenNames x; clear_value x; revert x; intro _)
    | with_reducible apply ch_ite
    | with_reducible apply changes_ite

end Sys2Proof.Machine
end

