-- ==== Sys2Proof/Laws/ChangesSessions.lean ====
section
/-!
SUPPORT. What each operation of Machine/Sessions.lean may change.
-/

namespace Sys2Proof.Machine

theorem closeWhere_ch {P : List Part} {b₀ : State} {s : State} {p : Session → Bool} (hP : [.sess, .freeSlots] ⊆ P) (hb₀ : Changes P b₀ s) : Changes P b₀ (closeWhere s p) := by
  unfold closeWhere
  repeat' first
    | with_reducible assumption
    | with_reducible apply closeSession_ch
    | with_reducible apply foldN_ch
    | (intro x a hx; try beta_reduce)

end Sys2Proof.Machine
end

