-- ==== Sys2Proof/Laws/ChangesFabric.lean ====
section
/-!
SUPPORT. What each operation of Machine/Fabric.lean may change.
-/

namespace Sys2Proof.Machine

theorem modLink_ch {P : List Part} {b₀ : State} {s : State} {l : Nat} {g : LinkSt → LinkSt} (hP : [.fab] ⊆ P) (hb₀ : Changes P b₀ s) : Changes P b₀ (modLink s l g) := by
  have m_fab : Part.fab ∈ P := part_mem hP rfl
  unfold modLink
  repeat' first
    | with_reducible assumption
    | (extract_lets +onlyGivenNames x; clear_value x; revert x; intro _)
    | fail_if_no_progress (with_reducible refine ch_fab ?_ m_fab)

theorem modFab_ch {P : List Part} {b₀ : State} {s : State} {g : Fab → Fab} (hP : [.fab] ⊆ P) (hb₀ : Changes P b₀ s) : Changes P b₀ (modFab s g) := by
  have m_fab : Part.fab ∈ P := part_mem hP rfl
  unfold modFab
  repeat' first
    | with_reducible assumption
    | fail_if_no_progress (with_reducible refine ch_fab ?_ m_fab)

theorem setLink_ch {P : List Part} {b₀ : State} {s : State} {l st lanes : Nat} (hP : [.fresh, .objs, .voteSecond, .funcs, .sess, .frames, .grog, .notes] ⊆ P) (hb₀ : Changes P b₀ s) : Changes P b₀ (setLink s l st lanes) := by
  unfold setLink
  repeat' first
    | with_reducible assumption
    | with_reducible apply putN_ch
    | with_reducible apply emit_ch
    | with_reducible apply updateHealth_ch
    | ((with_reducible refine part_sub hP ?_); rfl)
    | (extract_lets +onlyGivenNames x; refine ch_step (P := P) (r := b₀) (x := x) ?_ (fun hx => ?_); subst x; rotate_left; clear_value x; revert x; intro _ _)
    | (extract_lets +onlyGivenNames x; clear_value x; revert x; intro _)
    | with_reducible apply ch_ite

theorem computeRoutes_ch {P : List Part} {b₀ : State} {s : State} (hP : [.objs] ⊆ P) (hb₀ : Changes P b₀ s) : Changes P b₀ (computeRoutes s) := by
  unfold computeRoutes
  repeat' first
    | with_reducible assumption
    | with_reducible apply putN_ch
    | with_reducible apply foldN_ch
    | (intro x a hx; try beta_reduce)

theorem topologyChanged_ch {P : List Part} {b₀ : State} {s : State} (hP : [.objs, .fab] ⊆ P) (hb₀ : Changes P b₀ s) : Changes P b₀ (topologyChanged s) := by
  unfold topologyChanged
  repeat' first
    | with_reducible assumption
    | with_reducible apply putN_ch
    | with_reducible apply modFab_ch
    | with_reducible apply computeRoutes_ch
    | ((with_reducible refine part_sub hP ?_); rfl)
    | (extract_lets +onlyGivenNames x; refine ch_step (P := P) (r := b₀) (x := x) ?_ (fun hx => ?_); subst x; rotate_left; clear_value x; revert x; intro _ _)
    | (extract_lets +onlyGivenNames x; clear_value x; revert x; intro _)
    | with_reducible apply ch_ite

theorem fabricCut_ch {P : List Part} {b₀ : State} {s : State} (hP : [.fresh, .objs, .voteSecond, .funcs, .sess, .frames, .fab, .grog, .notes] ⊆ P) (hb₀ : Changes P b₀ s) : Changes P b₀ (fabricCut s) := by
  unfold fabricCut
  repeat' first
    | with_reducible assumption
    | with_reducible apply putN_ch
    | with_reducible apply bump_ch
    | with_reducible apply modLink_ch
    | with_reducible apply modFab_ch
    | with_reducible apply setLink_ch
    | with_reducible apply computeRoutes_ch
    | ((with_reducible refine part_sub hP ?_); rfl)
    | with_reducible apply foldN_ch
    | (intro x a hx; try beta_reduce)
    | with_reducible apply ch_ite

theorem linkQueued_ch {P : List Part} {b₀ : State} {s : State} {l : Nat} (hP : [.fresh, .voteSecond, .funcs, .sess, .transit, .grog, .notes] ⊆ P) (hb₀ : Changes P b₀ s) : Changes P b₀ (linkQueued s l) := by
  unfold linkQueued
  repeat' first
    | with_reducible assumption
    | with_reducible apply resolved_ch
    | with_reducible apply ch_ite

theorem nodeEvents_ch {P : List Part} {b₀ : State} {s : State} {old new : List (Nat × Nat)} (hP : [.fresh, .voteSecond, .funcs, .sess, .grog, .notes] ⊆ P) (hb₀ : Changes P b₀ s) : Changes P b₀ (nodeEvents s old new) := by
  unfold nodeEvents
  repeat' first
    | with_reducible assumption
    | with_reducible apply emit_ch
    | with_reducible apply foldl_ch
    | with_reducible apply foldl_ch1
    | (intro x a hx; try beta_reduce)

theorem settleFabric_ch {P : List Part} {b₀ : State} {s : State} (hP : [.fresh, .objs, .voteSecond, .funcs, .sess, .freeSlots, .fab, .grog, .notes] ⊆ P) (hb₀ : Changes P b₀ s) : Changes P b₀ (settleFabric s) := by
  have m_fresh : Part.fresh ∈ P := part_mem hP rfl
  unfold settleFabric
  repeat' first
    | with_reducible assumption
    | with_reducible apply putN_ch
    | with_reducible apply emit_ch
    | with_reducible apply closeWhere_ch
    | with_reducible apply modFab_ch
    | with_reducible apply computeRoutes_ch
    | with_reducible apply nodeEvents_ch
    | ((with_reducible refine part_sub hP ?_); rfl)
    | with_reducible apply foldN_ch
    | with_reducible apply foldl_ch
    | with_reducible apply foldl_ch1
    | (intro x a hx; try beta_reduce)
    | fail_if_no_progress (with_reducible refine ch_fresh ?_ m_fresh)
    | with_reducible apply ch_ite

theorem settleAlone_ch {P : List Part} {b₀ : State} {s : State} (hP : [.fresh, .objs, .voteSecond, .funcs, .sess, .freeSlots, .fab, .grog, .notes] ⊆ P) (hb₀ : Changes P b₀ s) : Changes P b₀ (settleAlone s) := by
  unfold settleAlone
  repeat' first
    | with_reducible assumption
    | with_reducible apply putN_ch
    | with_reducible apply settleFabric_ch
    | ((with_reducible refine part_sub hP ?_); rfl)
    | with_reducible apply ch_ite

theorem fabricOn_ch {P : List Part} {b₀ : State} {s : State} (hP : [.fresh, .objs, .voteSecond, .funcs, .sess, .freeSlots, .fab, .grog, .notes] ⊆ P) (hb₀ : Changes P b₀ s) : Changes P b₀ (fabricOn s) := by
  unfold fabricOn
  repeat' first
    | with_reducible assumption
    | with_reducible apply putN_ch
    | with_reducible apply topologyChanged_ch
    | with_reducible apply settleAlone_ch
    | ((with_reducible refine part_sub hP ?_); rfl)
    | with_reducible apply ch_ite

theorem linkFalls_ch {P : List Part} {b₀ : State} {s : State} {l : Nat} (hP : [.fresh, .objs, .voteSecond, .funcs, .sess, .freeSlots, .frames, .fab, .grog, .notes] ⊆ P) (hb₀ : Changes P b₀ s) : Changes P b₀ (linkFalls s l) := by
  unfold linkFalls
  repeat' first
    | with_reducible assumption
    | with_reducible apply putN_ch
    | with_reducible apply bump_ch
    | with_reducible apply bumpBy_ch
    | with_reducible apply modLink_ch
    | with_reducible apply setLink_ch
    | with_reducible apply topologyChanged_ch
    | with_reducible apply settleAlone_ch
    | ((with_reducible refine part_sub hP ?_); rfl)
    | with_reducible apply ch_ite

theorem execLinkBringUp_ch {P : List Part} {b₀ : State} {l : Fin 4} {s : State} (hP : [.fresh, .objs, .voteSecond, .funcs, .sess, .frames, .grog, .notes] ⊆ P) (hb₀ : Changes P b₀ s) : ChangesAll P b₀ (execLinkBringUp l s) := by
  unfold execLinkBringUp
  repeat' first
    | with_reducible assumption
    | with_reducible apply setLink_ch
    | with_reducible apply changes_next
    | with_reducible apply changes_fault
    | with_reducible apply ch_ite
    | with_reducible apply changes_ite

theorem spareLanes_ch {P : List Part} {b₀ : State} {s : State} {l : Nat} {good : List Nat} (hP : [.fresh, .objs, .voteSecond, .funcs, .sess, .frames, .grog, .notes] ⊆ P) (hb₀ : Changes P b₀ s) : Changes P b₀ (spareLanes s l good) := by
  unfold spareLanes
  repeat' first
    | with_reducible assumption
    | with_reducible apply putN_ch
    | with_reducible apply substitute_ch
    | with_reducible apply retireUnit_ch
    | with_reducible apply failSpare_ch
    | ((with_reducible refine part_sub hP ?_); rfl)
    | with_reducible apply foldl_ch
    | with_reducible apply foldl_ch1
    | (intro x a hx; try beta_reduce)
    | (extract_lets +onlyGivenNames x; clear_value x; revert x; intro _)
    | with_reducible apply ch_ite

theorem execLaneTrainingDone_ch {P : List Part} {b₀ : State} {l : Fin 4} {good : List (Fin 5)} {reversed : Bool} {inverted : List (Fin 5)} {s : State} (hP : [.fresh, .objs, .voteSecond, .funcs, .sess, .frames, .fab, .grog, .notes] ⊆ P) (hb₀ : Changes P b₀ s) : ChangesAll P b₀ (execLaneTrainingDone l good reversed inverted s) := by
  unfold execLaneTrainingDone
  repeat' first
    | with_reducible assumption
    | with_reducible apply emit_ch
    | with_reducible apply modLink_ch
    | with_reducible apply setLink_ch
    | with_reducible apply topologyChanged_ch
    | with_reducible apply spareLanes_ch
    | ((with_reducible refine part_sub hP ?_); rfl)
    | with_reducible apply changes_next
    | with_reducible apply changes_fault
    | (extract_lets +onlyGivenNames x; refine ch_step (P := P) (r := b₀) (x := x) ?_ (fun hx => ?_); subst x; rotate_left; clear_value x; revert x; intro _ _)
    | (extract_lets +onlyGivenNames x; clear_value x; revert x; intro _)
    | with_reducible apply ch_ite
    | with_reducible apply changes_ite

theorem execLinkFailedRetry_ch {P : List Part} {b₀ : State} {l : Fin 4} {s : State} (hP : [.fresh, .objs, .voteSecond, .funcs, .sess, .frames, .grog, .notes] ⊆ P) (hb₀ : Changes P b₀ s) : ChangesAll P b₀ (execLinkFailedRetry l s) := by
  unfold execLinkFailedRetry
  repeat' first
    | with_reducible assumption
    | with_reducible apply setLink_ch
    | with_reducible apply changes_next
    | with_reducible apply changes_fault
    | with_reducible apply ch_ite
    | with_reducible apply changes_ite

theorem execLinkHoldExpiry_ch {P : List Part} {b₀ : State} {l : Fin 4} {s : State} (hP : [.fresh, .objs, .voteSecond, .funcs, .sess, .frames, .grog, .notes] ⊆ P) (hb₀ : Changes P b₀ s) : ChangesAll P b₀ (execLinkHoldExpiry l s) := by
  unfold execLinkHoldExpiry
  repeat' first
    | with_reducible assumption
    | with_reducible apply setLink_ch
    | with_reducible apply changes_next
    | with_reducible apply changes_fault
    | with_reducible apply ch_ite
    | with_reducible apply changes_ite

theorem transmit_ch {P : List Part} {b₀ : State} {s : State} {l c : Nat} (hP : [.fab] ⊆ P) (hb₀ : Changes P b₀ s) : Changes P b₀ (transmit s l c) := by
  unfold transmit
  repeat' first
    | with_reducible assumption
    | with_reducible apply modLink_ch
    | with_reducible apply ch_ite
    | split

theorem serveLink_ch {P : List Part} {b₀ : State} {s : State} {l : Nat} (hP : [.fab] ⊆ P) (hb₀ : Changes P b₀ s) : Changes P b₀ (serveLink s l) := by
  unfold serveLink
  repeat' first
    | with_reducible assumption
    | with_reducible apply transmit_ch
    | with_reducible apply ch_ite
    | split

theorem sendPacket_ch {P : List Part} {b₀ : State} {s : State} {l : Nat} {p : Packet} (hP : [.fab] ⊆ P) (hb₀ : Changes P b₀ s) : Changes P b₀ (sendPacket s l p) := by
  unfold sendPacket
  repeat' first
    | with_reducible assumption
    | with_reducible apply modLink_ch
    | with_reducible apply serveLink_ch

theorem linkReturns_ch {P : List Part} {b₀ : State} {s : State} {l : Nat} {acked : Option (BitVec 16)} {credits : List Nat} (hP : [.fab] ⊆ P) (hb₀ : Changes P b₀ s) : Changes P b₀ (linkReturns s l acked credits) := by
  unfold linkReturns
  repeat' first
    | with_reducible assumption
    | with_reducible apply modLink_ch

theorem originate_ch {P : List Part} {b₀ : State} {s : State} {p : Packet} (hP : [.objs, .fab] ⊆ P) (hb₀ : Changes P b₀ s) : Changes P b₀ (originate s p) := by
  unfold originate
  repeat' first
    | with_reducible assumption
    | with_reducible apply bump_ch
    | with_reducible apply sendPacket_ch
    | ((with_reducible refine part_sub hP ?_); rfl)
    | (extract_lets +onlyGivenNames x; clear_value x; revert x; intro _)
    | with_reducible apply ch_ite

theorem surfRead_ch {P : List Part} {b₀ : State} {s : State} {p : Packet} (hP : [.fresh, .objs, .voteSecond, .funcs, .sess, .frames, .served, .ehrica, .balance, .dram, .mem, .fab, .power, .grog, .notes] ⊆ P) (hb₀ : Changes P b₀ s) : Changes P b₀ (surfRead s p) := by
  unfold surfRead
  repeat' first
    | with_reducible assumption
    | with_reducible apply readCells_ch
    | with_reducible apply originate_ch
    | ((with_reducible refine part_sub hP ?_); rfl)
    | with_reducible apply foldl_ch
    | with_reducible apply foldl_ch1
    | (intro x a hx; try beta_reduce)
    | (extract_lets +onlyGivenNames x; clear_value x; revert x; intro _)
    | with_reducible refine ch_fst (by with_reducible assumption) ?_
    | with_reducible apply ch_ite
    | split

theorem switchPacket_ch {P : List Part} {b₀ : State} {s : State} {p : Packet} (hP : [.fresh, .objs, .voteSecond, .funcs, .sess, .frames, .served, .ehrica, .balance, .dram, .mem, .fab, .power, .grog, .notes] ⊆ P) (hb₀ : Changes P b₀ s) : Changes P b₀ (switchPacket s p) := by
  unfold switchPacket
  repeat' first
    | with_reducible assumption
    | with_reducible apply bump_ch
    | with_reducible apply sendPacket_ch
    | with_reducible apply surfRead_ch
    | ((with_reducible refine part_sub hP ?_); rfl)
    | with_reducible apply foldN_ch
    | (intro x a hx; try beta_reduce)
    | (extract_lets +onlyGivenNames x; clear_value x; revert x; intro _)
    | with_reducible apply ch_ite

theorem execPacketRx_ch {P : List Part} {b₀ : State} {l : Fin 4} {p : Packet} {acked : Option (BitVec 16)} {credits : List Nat} {crcOk replayOk : Bool} {s : State} (hP : [.fresh, .objs, .voteSecond, .funcs, .sess, .frames, .served, .ehrica, .balance, .dram, .mem, .fab, .power, .grog, .notes] ⊆ P) (hb₀ : Changes P b₀ s) : ChangesAll P b₀ (execPacketRx l p acked credits crcOk replayOk s) := by
  unfold execPacketRx
  repeat' first
    | with_reducible assumption
    | with_reducible apply bump_ch
    | with_reducible apply modLink_ch
    | with_reducible apply setLink_ch
    | with_reducible apply serveLink_ch
    | with_reducible apply linkReturns_ch
    | with_reducible apply switchPacket_ch
    | ((with_reducible refine part_sub hP ?_); rfl)
    | with_reducible apply changes_next
    | with_reducible apply changes_fault
    | (extract_lets +onlyGivenNames x; refine ch_step (P := P) (r := b₀) (x := x) ?_ (fun hx => ?_); subst x; rotate_left; clear_value x; revert x; intro _ _)
    | with_reducible apply ch_ite
    | with_reducible apply changes_ite

theorem execHello_ch {P : List Part} {b₀ : State} {l : Fin 4} {serial : BitVec 64} {addr : BitVec 8} {gen : BitVec 32} {partnerLink : Fin 4} {s : State} (hP : [.objs, .fab] ⊆ P) (hb₀ : Changes P b₀ s) : ChangesAll P b₀ (execHello l serial addr gen partnerLink s) := by
  unfold execHello
  repeat' first
    | with_reducible assumption
    | with_reducible apply putN_ch
    | with_reducible apply modLink_ch
    | with_reducible apply topologyChanged_ch
    | ((with_reducible refine part_sub hP ?_); rfl)
    | with_reducible apply changes_next
    | with_reducible apply changes_fault
    | (extract_lets +onlyGivenNames x; refine ch_step (P := P) (r := b₀) (x := x) ?_ (fun hx => ?_); subst x; rotate_left; clear_value x; revert x; intro _ _)
    | with_reducible apply ch_ite
    | with_reducible apply changes_ite

theorem execLinkStateRecordRx_ch {P : List Part} {b₀ : State} {r : LinkRecord} {s : State} (hP : [.objs, .fab] ⊆ P) (hb₀ : Changes P b₀ s) : ChangesAll P b₀ (execLinkStateRecordRx r s) := by
  unfold execLinkStateRecordRx
  repeat' first
    | with_reducible assumption
    | with_reducible apply modFab_ch
    | with_reducible apply topologyChanged_ch
    | ((with_reducible refine part_sub hP ?_); rfl)
    | with_reducible apply changes_next
    | with_reducible apply changes_fault
    | (extract_lets +onlyGivenNames x; clear_value x; revert x; intro _)
    | with_reducible apply ch_ite
    | with_reducible apply changes_ite

theorem execSyncExchange_ch {P : List Part} {b₀ : State} {l : Fin 4} {offset : Int} {errNs : Nat} {s : State} (hP : [.objs, .fab] ⊆ P) (hb₀ : Changes P b₀ s) : ChangesAll P b₀ (execSyncExchange l offset errNs s) := by
  unfold execSyncExchange
  repeat' first
    | with_reducible assumption
    | with_reducible apply putN_ch
    | with_reducible apply modLink_ch
    | with_reducible apply modFab_ch
    | ((with_reducible refine part_sub hP ?_); rfl)
    | with_reducible apply changes_next
    | with_reducible apply changes_fault
    | (extract_lets +onlyGivenNames x; refine ch_step (P := P) (r := b₀) (x := x) ?_ (fun hx => ?_); subst x; rotate_left; clear_value x; revert x; intro _ _)
    | (extract_lets +onlyGivenNames x; clear_value x; revert x; intro _)
    | with_reducible apply ch_ite
    | with_reducible apply changes_ite

theorem modSpread_ch {P : List Part} {b₀ : State} {s : State} {i : Nat} {g : SpreadSt → SpreadSt} (hP : [.fab] ⊆ P) (hb₀ : Changes P b₀ s) : Changes P b₀ (modSpread s i g) := by
  unfold modSpread
  repeat' first
    | with_reducible assumption
    | with_reducible apply modFab_ch

theorem portLayersTo_ch {P : List Part} {b₀ : State} {s : State} {p owner : Nat} (hP : [.objs, .ports] ⊆ P) (hb₀ : Changes P b₀ s) : Changes P b₀ (portLayersTo s p owner) := by
  unfold portLayersTo
  repeat' first
    | with_reducible assumption
    | with_reducible apply writeV_ch
    | with_reducible apply writeN_ch
    | with_reducible apply recomputeRuns_ch
    | with_reducible apply commitBits_ch
    | ((with_reducible refine part_sub hP ?_); rfl)
    | with_reducible apply foldN_ch
    | (intro x a hx; try beta_reduce)

theorem memberLeaves_ch {P : List Part} {b₀ : State} {s : State} {i m st : Nat} (hP : [.objs, .ports] ⊆ P) (hb₀ : Changes P b₀ s) : Changes P b₀ (memberLeaves s i m st) := by
  unfold memberLeaves
  repeat' first
    | with_reducible assumption
    | with_reducible apply putN_ch
    | with_reducible apply portLayersTo_ch
    | ((with_reducible refine part_sub hP ?_); rfl)
    | with_reducible apply ch_ite

theorem memberLost_ch {P : List Part} {b₀ : State} {s : State} {i m : Nat} (hP : [.fresh, .objs, .voteSecond, .funcs, .sess, .ports, .fab, .grog, .notes] ⊆ P) (hb₀ : Changes P b₀ s) : Changes P b₀ (memberLost s i m) := by
  unfold memberLost
  repeat' first
    | with_reducible assumption
    | with_reducible apply putN_ch
    | with_reducible apply emit_ch
    | with_reducible apply modSpread_ch
    | with_reducible apply memberLeaves_ch
    | ((with_reducible refine part_sub hP ?_); rfl)
    | with_reducible apply ch_ite

theorem placeMembers_ch {P : List Part} {b₀ : State} {s : State} {i : Nat} (hP : [.fresh, .objs, .tilthLog] ⊆ P) (hb₀ : Changes P b₀ s) : Changes P b₀ (placeMembers s i) := by
  have m_fresh : Part.fresh ∈ P := part_mem hP rfl
  unfold placeMembers
  repeat' first
    | with_reducible assumption
    | with_reducible apply hf1
    | with_reducible apply hf2
    | with_reducible apply hf3
    | with_reducible apply putN_ch
    | with_reducible apply putB_ch
    | with_reducible apply tilthEntry_ch
    | with_reducible apply hintMiss_ch
    | ((with_reducible refine part_sub hP ?_); rfl)
    | with_reducible apply foldN_ch
    | (intro x a hx; try beta_reduce)
    | (extract_lets +onlyGivenNames x; refine ch_step (P := P) (r := b₀) (x := x) ?_ (fun hx => ?_); subst x; rotate_left; clear_value x; revert x; intro _ _)
    | (extract_lets +onlyGivenNames x; clear_value x; revert x; intro _)
    | fail_if_no_progress (with_reducible refine ch_fresh ?_ m_fresh)
    | with_reducible apply ch_ite

theorem showReservations_ch {P : List Part} {b₀ : State} {s : State} (hP : [.objs] ⊆ P) (hb₀ : Changes P b₀ s) : Changes P b₀ (showReservations s) := by
  unfold showReservations
  repeat' first
    | with_reducible assumption
    | with_reducible apply putN_ch
    | with_reducible apply foldN_ch
    | (intro x a hx; try beta_reduce)

theorem spreadsTopology_ch {P : List Part} {b₀ : State} {s : State} (hP : [.fresh, .objs, .tilthLog, .fab] ⊆ P) (hb₀ : Changes P b₀ s) : Changes P b₀ (spreadsTopology s) := by
  unfold spreadsTopology
  repeat' first
    | with_reducible assumption
    | with_reducible apply putN_ch
    | with_reducible apply modFab_ch
    | with_reducible apply placeMembers_ch
    | with_reducible apply showReservations_ch
    | ((with_reducible refine part_sub hP ?_); rfl)
    | with_reducible apply foldN_ch
    | (intro x a hx; try beta_reduce)
    | with_reducible apply ch_ite

theorem execLinkTimeout_ch {P : List Part} {b₀ : State} {l : Fin 4} {s : State} (hP : [.fresh, .objs, .voteSecond, .funcs, .sess, .freeSlots, .frames, .tilthLog, .fab, .grog, .notes] ⊆ P) (hb₀ : Changes P b₀ s) : ChangesAll P b₀ (execLinkTimeout l s) := by
  unfold execLinkTimeout
  repeat' first
    | with_reducible assumption
    | with_reducible apply linkFalls_ch
    | with_reducible apply spreadsTopology_ch
    | ((with_reducible refine part_sub hP ?_); rfl)
    | with_reducible apply changes_next
    | with_reducible apply changes_fault
    | with_reducible apply ch_ite
    | with_reducible apply changes_ite

theorem execFabricStable_ch {P : List Part} {b₀ : State} {s : State} (hP : [.fresh, .objs, .voteSecond, .funcs, .sess, .freeSlots, .tilthLog, .fab, .grog, .notes] ⊆ P) (hb₀ : Changes P b₀ s) : ChangesAll P b₀ (execFabricStable s) := by
  unfold execFabricStable
  repeat' first
    | with_reducible assumption
    | with_reducible apply settleFabric_ch
    | with_reducible apply spreadsTopology_ch
    | ((with_reducible refine part_sub hP ?_); rfl)
    | with_reducible apply changes_next
    | with_reducible apply changes_fault
    | with_reducible apply ch_ite
    | with_reducible apply changes_ite

theorem spreadTake_ch {P : List Part} {b₀ : State} {s : State} {i : Nat} (hP : [.fresh, .objs, .voteSecond, .funcs, .sess, .fab, .grog, .notes] ⊆ P) (hb₀ : Changes P b₀ s) : Changes P b₀ (spreadTake s i) := by
  unfold spreadTake
  repeat' first
    | with_reducible assumption
    | with_reducible apply putN_ch
    | with_reducible apply bumpBy_ch
    | with_reducible apply emit_ch
    | with_reducible apply modSpread_ch
    | ((with_reducible refine part_sub hP ?_); rfl)
    | (extract_lets +onlyGivenNames x; refine ch_step (P := P) (r := b₀) (x := x) ?_ (fun hx => ?_); subst x; rotate_left; clear_value x; revert x; intro _ _)
    | (extract_lets +onlyGivenNames x; clear_value x; revert x; intro _)
    | with_reducible apply ch_ite

theorem memberIn_ch {P : List Part} {b₀ : State} {s : State} {i m : Nat} (hP : [.fresh, .objs, .voteSecond, .funcs, .sess, .fab, .grog, .notes] ⊆ P) (hb₀ : Changes P b₀ s) : Changes P b₀ (memberIn s i m) := by
  unfold memberIn
  repeat' first
    | with_reducible assumption
    | with_reducible apply putN_ch
    | with_reducible apply emit_ch
    | with_reducible apply modSpread_ch
    | ((with_reducible refine part_sub hP ?_); rfl)
    | (extract_lets +onlyGivenNames x; refine ch_step (P := P) (r := b₀) (x := x) ?_ (fun hx => ?_); subst x; rotate_left; clear_value x; revert x; intro _ _)
    | with_reducible apply ch_ite

theorem portJoins_ch {P : List Part} {b₀ : State} {s : State} {i m : Nat} (hP : [.objs, .ports] ⊆ P) (hb₀ : Changes P b₀ s) : Changes P b₀ (portJoins s i m) := by
  unfold portJoins
  repeat' first
    | with_reducible assumption
    | with_reducible apply beginTransition_ch
    | with_reducible apply portLayersTo_ch
    | (extract_lets +onlyGivenNames x; refine ch_step (P := P) (r := b₀) (x := x) ?_ (fun hx => ?_); subst x; rotate_left; clear_value x; revert x; intro _ _)
    | (extract_lets +onlyGivenNames x; clear_value x; revert x; intro _)
    | with_reducible apply ch_ite
    | split

theorem spreadOffDone_ch {P : List Part} {b₀ : State} {s : State} {i : Nat} (hP : [.objs, .served, .fab, .power] ⊆ P) (hb₀ : Changes P b₀ s) : Changes P b₀ (spreadOffDone s i) := by
  unfold spreadOffDone
  repeat' first
    | with_reducible assumption
    | with_reducible apply putN_ch
    | with_reducible apply putB_ch
    | with_reducible apply settle_ch
    | with_reducible apply modSpread_ch
    | with_reducible apply showReservations_ch
    | ((with_reducible refine part_sub hP ?_); rfl)
    | with_reducible apply foldN_ch
    | (intro x a hx; try beta_reduce)

theorem startSpread_ch {P : List Part} {b₀ : State} {s : State} {i : Nat} (hP : [.fresh, .objs, .served, .ports, .tilthLog, .fab, .power] ⊆ P) (hb₀ : Changes P b₀ s) : Changes P b₀ (startSpread s i) := by
  unfold startSpread
  repeat' first
    | with_reducible assumption
    | with_reducible apply putN_ch
    | with_reducible apply writeB_ch
    | with_reducible apply settle_ch
    | with_reducible apply modSpread_ch
    | with_reducible apply placeMembers_ch
    | with_reducible apply showReservations_ch
    | with_reducible apply portJoins_ch
    | ((with_reducible refine part_sub hP ?_); rfl)
    | with_reducible apply foldN_ch
    | (intro x a hx; try beta_reduce)
    | (extract_lets +onlyGivenNames x; refine ch_step (P := P) (r := b₀) (x := x) ?_ (fun hx => ?_); subst x; rotate_left; clear_value x; revert x; intro _ _)
    | with_reducible apply ch_ite

theorem spreadQueued_ch {P : List Part} {b₀ : State} {s : State} {i : Nat} (hP : [.fresh, .objs, .voteSecond, .funcs, .sess, .served, .transit, .ports, .tilthLog, .fab, .power, .grog, .notes] ⊆ P) (hb₀ : Changes P b₀ s) : Changes P b₀ (spreadQueued s i) := by
  unfold spreadQueued
  repeat' first
    | with_reducible assumption
    | with_reducible apply resolved_ch
    | with_reducible apply startSpread_ch
    | ((with_reducible refine part_sub hP ?_); rfl)
    | with_reducible apply ch_ite

theorem shutSpread_ch {P : List Part} {b₀ : State} {s : State} {i : Nat} (hP : [.fresh, .objs, .voteSecond, .funcs, .sess, .served, .transit, .ports, .tilthLog, .fab, .power, .grog, .notes] ⊆ P) (hb₀ : Changes P b₀ s) : Changes P b₀ (shutSpread s i) := by
  unfold shutSpread
  repeat' first
    | with_reducible assumption
    | with_reducible apply putN_ch
    | with_reducible apply settle_ch
    | with_reducible apply spreadOffDone_ch
    | with_reducible apply spreadQueued_ch
    | ((with_reducible refine part_sub hP ?_); rfl)
    | with_reducible apply foldN_ch
    | (intro x a hx; try beta_reduce)
    | (extract_lets +onlyGivenNames x; refine ch_step (P := P) (r := b₀) (x := x) ?_ (fun hx => ?_); subst x; rotate_left; clear_value x; revert x; intro _ _)
    | with_reducible apply ch_ite

theorem stopSpread_ch {P : List Part} {b₀ : State} {s : State} {i : Nat} (hP : [.fresh, .objs, .voteSecond, .funcs, .sess, .served, .transit, .ports, .tilthLog, .fab, .power, .grog, .notes] ⊆ P) (hb₀ : Changes P b₀ s) : Changes P b₀ (stopSpread s i) := by
  unfold stopSpread
  repeat' first
    | with_reducible assumption
    | with_reducible apply writeB_ch
    | with_reducible apply shutSpread_ch
    | ((with_reducible refine part_sub hP ?_); rfl)
    | (extract_lets +onlyGivenNames x; refine ch_step (P := P) (r := b₀) (x := x) ?_ (fun hx => ?_); subst x; rotate_left; clear_value x; revert x; intro _ _)
    | with_reducible apply ch_ite

theorem spreadAtVbs_ch {P : List Part} {b₀ : State} {s : State} {p : Nat} (hP : [.fresh, .objs, .voteSecond, .funcs, .sess, .served, .transit, .ports, .tilthLog, .fab, .power, .grog, .notes] ⊆ P) (hb₀ : Changes P b₀ s) : Changes P b₀ (spreadAtVbs s p) := by
  unfold spreadAtVbs
  repeat' first
    | with_reducible assumption
    | with_reducible apply putN_ch
    | with_reducible apply memberLeaves_ch
    | with_reducible apply placeMembers_ch
    | with_reducible apply spreadTake_ch
    | with_reducible apply memberIn_ch
    | with_reducible apply portJoins_ch
    | with_reducible apply spreadOffDone_ch
    | with_reducible apply spreadQueued_ch
    | ((with_reducible refine part_sub hP ?_); rfl)
    | with_reducible apply foldN_ch
    | (intro x a hx; try beta_reduce)
    | (extract_lets +onlyGivenNames x; refine ch_step (P := P) (r := b₀) (x := x) ?_ (fun hx => ?_); subst x; rotate_left; clear_value x; revert x; intro _ _)
    | (extract_lets +onlyGivenNames x; clear_value x; revert x; intro _)
    | with_reducible apply ch_ite
    | split

theorem spreadSweep_ch {P : List Part} {b₀ : State} {s : State} (hP : [.fresh, .objs, .voteSecond, .funcs, .sess, .ports, .fab, .grog, .notes] ⊆ P) (hb₀ : Changes P b₀ s) : Changes P b₀ (spreadSweep s) := by
  unfold spreadSweep
  repeat' first
    | with_reducible assumption
    | with_reducible apply memberLost_ch
    | with_reducible apply foldN_ch
    | (intro x a hx; try beta_reduce)
    | (extract_lets +onlyGivenNames x; clear_value x; revert x; intro _)
    | with_reducible apply ch_ite

theorem execVbs_ch {P : List Part} {b₀ : State} {p : Fin 8} {s : State} (hP : [.fresh, .objs, .voteSecond, .host, .funcs, .sess, .frames, .served, .transit, .ehrica, .rings, .ports, .commits, .surfs, .scrubs, .tilthLog, .fab, .power, .grog, .notes] ⊆ P) (hb₀ : Changes P b₀ s) : ChangesAll P b₀ (execVbs p s) := by
  unfold execVbs
  repeat' first
    | with_reducible assumption
    | with_reducible apply releaseReset_ch
    | with_reducible apply vbs_ch
    | with_reducible apply spreadAtVbs_ch
    | ((with_reducible refine part_sub hP ?_); rfl)
    | with_reducible apply changes_next
    | with_reducible apply changes_fault
    | (extract_lets +onlyGivenNames x; clear_value x; revert x; intro _)
    | with_reducible apply ch_ite
    | with_reducible apply changes_ite

theorem spreadCommit_ch {P : List Part} {b₀ : State} {s : State} {i bits : Nat} (hP : [.objs, .fab] ⊆ P) (hb₀ : Changes P b₀ s) : Changes P b₀ (spreadCommit s i bits) := by
  unfold spreadCommit
  repeat' first
    | with_reducible assumption
    | with_reducible apply putN_ch
    | with_reducible apply modSpread_ch
    | ((with_reducible refine part_sub hP ?_); rfl)
    | (extract_lets +onlyGivenNames x; clear_value x; revert x; intro _)
    | with_reducible apply ch_ite

theorem flrSpreads_ch {P : List Part} {b₀ : State} {s : State} {f : Nat} (hP : [.objs] ⊆ P) (hb₀ : Changes P b₀ s) : Changes P b₀ (flrSpreads s f) := by
  unfold flrSpreads
  repeat' first
    | with_reducible assumption
    | with_reducible apply putN_ch
    | with_reducible apply writeV_ch
    | with_reducible apply foldN_ch
    | (intro x a hx; try beta_reduce)
    | (extract_lets +onlyGivenNames x; refine ch_step (P := P) (r := b₀) (x := x) ?_ (fun hx => ?_); subst x; rotate_left; clear_value x; revert x; intro _ _)
    | (extract_lets +onlyGivenNames x; clear_value x; revert x; intro _)
    | with_reducible apply ch_ite

theorem execSpreadClosePoint_ch {P : List Part} {b₀ : State} {i : Fin 8} {s : State} (hP : [.fresh, .objs, .voteSecond, .funcs, .sess, .fab, .grog, .notes] ⊆ P) (hb₀ : Changes P b₀ s) : ChangesAll P b₀ (execSpreadClosePoint i s) := by
  unfold execSpreadClosePoint
  repeat' first
    | with_reducible assumption
    | with_reducible apply modSpread_ch
    | with_reducible apply spreadTake_ch
    | ((with_reducible refine part_sub hP ?_); rfl)
    | with_reducible apply changes_next
    | with_reducible apply changes_fault
    | (extract_lets +onlyGivenNames x; refine ch_step (P := P) (r := b₀) (x := x) ?_ (fun hx => ?_); subst x; rotate_left; clear_value x; revert x; intro _ _)
    | (extract_lets +onlyGivenNames x; clear_value x; revert x; intro _)
    | with_reducible apply ch_ite
    | with_reducible apply changes_ite

theorem execSpreadStateRx_ch {P : List Part} {b₀ : State} {i : Fin 8} {m : Fin 16} {late : Bool} {offset : Int} {s : State} (hP : [.fresh, .objs, .voteSecond, .funcs, .sess, .ports, .fab, .grog, .notes] ⊆ P) (hb₀ : Changes P b₀ s) : ChangesAll P b₀ (execSpreadStateRx i m late offset s) := by
  unfold execSpreadStateRx
  repeat' first
    | with_reducible assumption
    | with_reducible apply hf1
    | with_reducible apply hf2
    | with_reducible apply hf3
    | with_reducible apply putN_ch
    | with_reducible apply bump_ch
    | with_reducible apply emit_ch
    | with_reducible apply beginTransition_ch
    | with_reducible apply modSpread_ch
    | with_reducible apply memberIn_ch
    | ((with_reducible refine part_sub hP ?_); rfl)
    | with_reducible apply changes_next
    | with_reducible apply changes_fault
    | (intro x a hx; try beta_reduce)
    | (extract_lets +onlyGivenNames x; refine ch_step (P := P) (r := b₀) (x := x) ?_ (fun hx => ?_); subst x; rotate_left; clear_value x; revert x; intro _ _)
    | (extract_lets +onlyGivenNames x; refine ch_stepF2 (P := P) (r := b₀) (x := x) ?_ (fun hx => ?_); subst x; rotate_left; clear_value x; revert x; intro _ hf2)
    | (extract_lets +onlyGivenNames x; clear_value x; revert x; intro _)
    | with_reducible apply ch_ite
    | with_reducible apply changes_ite

theorem execSpreadMemberLost_ch {P : List Part} {b₀ : State} {i : Fin 8} {m : Fin 16} {s : State} (hP : [.fresh, .objs, .voteSecond, .funcs, .sess, .ports, .tilthLog, .fab, .grog, .notes] ⊆ P) (hb₀ : Changes P b₀ s) : ChangesAll P b₀ (execSpreadMemberLost i m s) := by
  unfold execSpreadMemberLost
  repeat' first
    | with_reducible assumption
    | with_reducible apply memberLost_ch
    | with_reducible apply placeMembers_ch
    | with_reducible apply showReservations_ch
    | ((with_reducible refine part_sub hP ?_); rfl)
    | with_reducible apply changes_next
    | with_reducible apply changes_fault
    | (extract_lets +onlyGivenNames x; clear_value x; revert x; intro _)
    | with_reducible apply ch_ite
    | with_reducible apply changes_ite
    | split

end Sys2Proof.Machine
end

