-- ==== Sys2Proof/Laws/ChangesHaptics.lean ====
section
/-!
SUPPORT. What each operation of Machine/Haptics.lean may change.
-/

namespace Sys2Proof.Machine

theorem modChan_ch {P : List Part} {b₀ : State} {s : State} {n : Nat} {g : Chan → Chan} (hP : [.hap] ⊆ P) (hb₀ : Changes P b₀ s) : Changes P b₀ (modChan s n g) := by
  have m_hap : Part.hap ∈ P := part_mem hP rfl
  unfold modChan
  repeat' first
    | with_reducible assumption
    | (extract_lets +onlyGivenNames x; clear_value x; revert x; intro _)
    | fail_if_no_progress (with_reducible refine ch_hap ?_ m_hap)

theorem playEnded_ch {P : List Part} {b₀ : State} {s : State} {id n outcome : Nat} (hP : [.fresh, .voteSecond, .host, .funcs, .sess, .rings, .hap, .grog, .notes] ⊆ P) (hb₀ : Changes P b₀ s) : Changes P b₀ (playEnded s id n outcome) := by
  have m_hap : Part.hap ∈ P := part_mem hP rfl
  unfold playEnded
  repeat' first
    | with_reducible assumption
    | with_reducible apply complete_ch
    | ((with_reducible refine part_sub hP ?_); rfl)
    | with_reducible apply foldl_ch
    | with_reducible apply foldl_ch1
    | (intro x a hx; try beta_reduce)
    | (extract_lets +onlyGivenNames x; clear_value x; revert x; intro _)
    | fail_if_no_progress (with_reducible refine ch_hap ?_ m_hap)

theorem effectEnds_ch {P : List Part} {b₀ : State} {s : State} {n : Nat} {e : Effect} {outcome : Nat} (hP : [.fresh, .objs, .voteSecond, .host, .funcs, .sess, .rings, .hap, .grog, .notes] ⊆ P) (hb₀ : Changes P b₀ s) : Changes P b₀ (effectEnds s n e outcome) := by
  unfold effectEnds
  repeat' first
    | with_reducible assumption
    | with_reducible apply bump_ch
    | with_reducible apply emit_ch
    | with_reducible apply playEnded_ch
    | ((with_reducible refine part_sub hP ?_); rfl)
    | (extract_lets +onlyGivenNames x; refine ch_step (P := P) (r := b₀) (x := x) ?_ (fun hx => ?_); subst x; rotate_left; clear_value x; revert x; intro _ _)
    | with_reducible apply ch_ite
    | split

theorem closeDrive_ch {P : List Part} {b₀ : State} {s : State} {n : Nat} (hP : [.hap] ⊆ P) (hb₀ : Changes P b₀ s) : Changes P b₀ (closeDrive s n) := by
  unfold closeDrive
  repeat' first
    | with_reducible assumption
    | with_reducible apply modChan_ch

theorem endRunning_ch {P : List Part} {b₀ : State} {s : State} {n outcome : Nat} (hP : [.fresh, .objs, .voteSecond, .host, .funcs, .sess, .rings, .hap, .grog, .notes] ⊆ P) (hb₀ : Changes P b₀ s) : Changes P b₀ (endRunning s n outcome) := by
  unfold endRunning
  repeat' first
    | with_reducible assumption
    | with_reducible apply effectEnds_ch
    | with_reducible apply closeDrive_ch
    | ((with_reducible refine part_sub hP ?_); rfl)
    | with_reducible apply ch_ite
    | split

theorem setQueue_ch {P : List Part} {b₀ : State} {s : State} {n : Nat} {q : List Effect} (hP : [.hap] ⊆ P) (hb₀ : Changes P b₀ s) : Changes P b₀ (setQueue s n q) := by
  unfold setQueue
  repeat' first
    | with_reducible assumption
    | with_reducible apply modChan_ch

theorem endQueue_ch {P : List Part} {b₀ : State} {s : State} {n outcome : Nat} (hP : [.fresh, .objs, .voteSecond, .host, .funcs, .sess, .rings, .hap, .grog, .notes] ⊆ P) (hb₀ : Changes P b₀ s) : Changes P b₀ (endQueue s n outcome) := by
  unfold endQueue
  repeat' first
    | with_reducible assumption
    | with_reducible apply effectEnds_ch
    | with_reducible apply setQueue_ch
    | ((with_reducible refine part_sub hP ?_); rfl)
    | with_reducible apply foldl_ch
    | with_reducible apply foldl_ch1
    | (intro x a hx; try beta_reduce)

theorem startEffect_ch {P : List Part} {b₀ : State} {s : State} {n : Nat} {e : Effect} (hP : [.fresh, .objs, .hap] ⊆ P) (hb₀ : Changes P b₀ s) : Changes P b₀ (startEffect s n e) := by
  unfold startEffect
  repeat' first
    | with_reducible assumption
    | with_reducible apply putN_ch
    | with_reducible apply bump_ch
    | with_reducible apply draw_ch
    | with_reducible apply modChan_ch
    | ((with_reducible refine part_sub hP ?_); rfl)
    | (extract_lets +onlyGivenNames x; refine ch_step (P := P) (r := b₀) (x := x) ?_ (fun hx => ?_); subst x; rotate_left; clear_value x; revert x; intro _ _)
    | (extract_lets +onlyGivenNames x; clear_value x; revert x; intro _)
    | with_reducible apply ch_ite

theorem startHead_ch {P : List Part} {b₀ : State} {s : State} {n : Nat} (hP : [.fresh, .objs, .voteSecond, .host, .funcs, .sess, .rings, .hap, .grog, .notes] ⊆ P) (hb₀ : Changes P b₀ s) : Changes P b₀ (startHead s n) := by
  unfold startHead
  repeat' first
    | with_reducible assumption
    | with_reducible apply endRunning_ch
    | with_reducible apply setQueue_ch
    | with_reducible apply startEffect_ch
    | ((with_reducible refine part_sub hP ?_); rfl)
    | with_reducible apply ch_ite
    | split

theorem overlayHead_ch {P : List Part} {b₀ : State} {s : State} {n : Nat} (hP : [.fresh, .objs, .voteSecond, .host, .funcs, .sess, .rings, .hap, .grog, .notes] ⊆ P) (hb₀ : Changes P b₀ s) : Changes P b₀ (overlayHead s n) := by
  unfold overlayHead
  repeat' first
    | with_reducible assumption
    | with_reducible apply startHead_ch
    | with_reducible apply ch_ite
    | split

theorem railTick_ch {P : List Part} {b₀ : State} {s : State} (hP : [.hap] ⊆ P) (hb₀ : Changes P b₀ s) : Changes P b₀ (railTick s) := by
  have m_hap : Part.hap ∈ P := part_mem hP rfl
  unfold railTick
  repeat' first
    | with_reducible assumption
    | with_reducible apply modChan_ch
    | with_reducible apply foldN_ch
    | (intro x a hx; try beta_reduce)
    | (extract_lets +onlyGivenNames x; clear_value x; revert x; intro _)
    | fail_if_no_progress (with_reducible refine ch_hap ?_ m_hap)
    | with_reducible apply ch_ite

theorem driveStep_ch {P : List Part} {b₀ : State} {s : State} {n : Nat} (hP : [.hap] ⊆ P) (hb₀ : Changes P b₀ s) : Changes P b₀ (driveStep s n) := by
  unfold driveStep
  repeat' first
    | with_reducible assumption
    | with_reducible apply modChan_ch
    | (extract_lets +onlyGivenNames x; clear_value x; revert x; intro _)
    | with_reducible apply ch_ite

theorem driveTick_ch {P : List Part} {b₀ : State} {s : State} (hP : [.hap] ⊆ P) (hb₀ : Changes P b₀ s) : Changes P b₀ (driveTick s) := by
  unfold driveTick
  repeat' first
    | with_reducible assumption
    | with_reducible apply driveStep_ch
    | with_reducible apply foldN_ch
    | (intro x a hx; try beta_reduce)

theorem countMissed_ch {P : List Part} {b₀ : State} {s : State} {n mg : Nat} (hP : [.objs, .hap] ⊆ P) (hb₀ : Changes P b₀ s) : Changes P b₀ (countMissed s n mg) := by
  unfold countMissed
  repeat' first
    | with_reducible assumption
    | with_reducible apply bump_ch
    | with_reducible apply modChan_ch
    | ((with_reducible refine part_sub hP ?_); rfl)
    | (extract_lets +onlyGivenNames x; clear_value x; revert x; intro _)
    | with_reducible apply ch_ite
    | split

theorem channelFailed_ch {P : List Part} {b₀ : State} {s : State} {n : Nat} (hP : [.fresh, .objs, .voteSecond, .host, .funcs, .sess, .frames, .rings, .hap, .grog, .notes] ⊆ P) (hb₀ : Changes P b₀ s) : Changes P b₀ (channelFailed s n) := by
  unfold channelFailed
  repeat' first
    | with_reducible assumption
    | with_reducible apply putN_ch
    | with_reducible apply emit_ch
    | with_reducible apply updateHealth_ch
    | with_reducible apply modChan_ch
    | with_reducible apply endRunning_ch
    | with_reducible apply endQueue_ch
    | ((with_reducible refine part_sub hP ?_); rfl)

theorem connectSpare_ch {P : List Part} {b₀ : State} {s : State} {n : Nat} {passes : Bool} (hP : [.fresh, .objs, .voteSecond, .host, .funcs, .sess, .frames, .rings, .hap, .grog, .notes] ⊆ P) (hb₀ : Changes P b₀ s) : Changes P b₀ (connectSpare s n passes) := by
  unfold connectSpare
  repeat' first
    | with_reducible assumption
    | with_reducible apply putN_ch
    | with_reducible apply emit_ch
    | with_reducible apply substitute_ch
    | with_reducible apply retireUnit_ch
    | with_reducible apply failSpare_ch
    | with_reducible apply modChan_ch
    | with_reducible apply channelFailed_ch
    | ((with_reducible refine part_sub hP ?_); rfl)
    | (extract_lets +onlyGivenNames x; refine ch_step (P := P) (r := b₀) (x := x) ?_ (fun hx => ?_); subst x; rotate_left; clear_value x; revert x; intro _ _)
    | (extract_lets +onlyGivenNames x; clear_value x; revert x; intro _)
    | with_reducible apply ch_ite

theorem startHaptics_ch {P : List Part} {b₀ : State} {s : State} (hP : [.objs, .served, .power] ⊆ P) (hb₀ : Changes P b₀ s) : Changes P b₀ (startHaptics s) := by
  unfold startHaptics
  repeat' first
    | with_reducible assumption
    | with_reducible apply putN_ch
    | with_reducible apply writeB_ch
    | with_reducible apply settle_ch
    | ((with_reducible refine part_sub hP ?_); rfl)

theorem hapQueued_ch {P : List Part} {b₀ : State} {s : State} (hP : [.fresh, .objs, .voteSecond, .funcs, .sess, .served, .transit, .power, .grog, .notes] ⊆ P) (hb₀ : Changes P b₀ s) : Changes P b₀ (hapQueued s) := by
  unfold hapQueued
  repeat' first
    | with_reducible assumption
    | with_reducible apply resolved_ch
    | with_reducible apply startHaptics_ch
    | ((with_reducible refine part_sub hP ?_); rfl)
    | with_reducible apply ch_ite

theorem hapStopCheck_ch {P : List Part} {b₀ : State} {s : State} (hP : [.fresh, .objs, .voteSecond, .funcs, .sess, .served, .transit, .hap, .power, .grog, .notes] ⊆ P) (hb₀ : Changes P b₀ s) : Changes P b₀ (hapStopCheck s) := by
  unfold hapStopCheck
  repeat' first
    | with_reducible assumption
    | with_reducible apply putN_ch
    | with_reducible apply settle_ch
    | with_reducible apply modChan_ch
    | with_reducible apply hapQueued_ch
    | ((with_reducible refine part_sub hP ?_); rfl)
    | with_reducible apply foldN_ch
    | (intro x a hx; try beta_reduce)
    | (extract_lets +onlyGivenNames x; refine ch_step (P := P) (r := b₀) (x := x) ?_ (fun hx => ?_); subst x; rotate_left; clear_value x; revert x; intro _ _)
    | with_reducible apply ch_ite

theorem channelIdle_ch {P : List Part} {b₀ : State} {s : State} {n : Nat} (hP : [.fresh, .objs, .voteSecond, .host, .funcs, .sess, .frames, .served, .transit, .rings, .hap, .power, .grog, .notes] ⊆ P) (hb₀ : Changes P b₀ s) : Changes P b₀ (channelIdle s n) := by
  unfold channelIdle
  repeat' first
    | with_reducible assumption
    | with_reducible apply putN_ch
    | with_reducible apply startHead_ch
    | with_reducible apply connectSpare_ch
    | with_reducible apply hapStopCheck_ch
    | ((with_reducible refine part_sub hP ?_); rfl)
    | (extract_lets +onlyGivenNames x; refine ch_step (P := P) (r := b₀) (x := x) ?_ (fun hx => ?_); subst x; rotate_left; clear_value x; revert x; intro _ _)
    | with_reducible apply ch_ite
    | split

theorem beginBraking_ch {P : List Part} {b₀ : State} {s : State} {n : Nat} (hP : [.objs, .hap] ⊆ P) (hb₀ : Changes P b₀ s) : Changes P b₀ (beginBraking s n) := by
  unfold beginBraking
  repeat' first
    | with_reducible assumption
    | with_reducible apply putN_ch
    | with_reducible apply modChan_ch
    | ((with_reducible refine part_sub hP ?_); rfl)

theorem enqueue_ch {P : List Part} {b₀ : State} {s : State} {n : Nat} {e : Effect} (hP : [.fresh, .objs, .voteSecond, .host, .funcs, .sess, .rings, .hap, .grog, .notes] ⊆ P) (hb₀ : Changes P b₀ s) : Changes P b₀ (enqueue s n e) := by
  unfold enqueue
  repeat' first
    | with_reducible assumption
    | with_reducible apply effectEnds_ch
    | with_reducible apply setQueue_ch
    | with_reducible apply overlayHead_ch
    | ((with_reducible refine part_sub hP ?_); rfl)
    | with_reducible apply ch_ite
    | split

theorem effectArrives_ch {P : List Part} {b₀ : State} {s : State} {n : Nat} {e : Effect} (hP : [.fresh, .objs, .voteSecond, .host, .funcs, .sess, .rings, .hap, .grog, .notes] ⊆ P) (hb₀ : Changes P b₀ s) : Changes P b₀ (effectArrives s n e) := by
  unfold effectArrives
  repeat' first
    | with_reducible assumption
    | with_reducible apply effectEnds_ch
    | with_reducible apply endRunning_ch
    | with_reducible apply startEffect_ch
    | with_reducible apply enqueue_ch
    | ((with_reducible refine part_sub hP ?_); rfl)
    | with_reducible apply ch_ite
    | split

theorem giveEffect_ch {P : List Part} {b₀ : State} {s : State} {n : Nat} {e : Effect} (hP : [.fresh, .objs, .voteSecond, .host, .funcs, .sess, .rings, .hap, .grog, .notes] ⊆ P) (hb₀ : Changes P b₀ s) : Changes P b₀ (giveEffect s n e) := by
  unfold giveEffect
  repeat' first
    | with_reducible assumption
    | with_reducible apply modChan_ch
    | with_reducible apply effectArrives_ch
    | ((with_reducible refine part_sub hP ?_); rfl)
    | with_reducible apply ch_ite

theorem takeHapId_ch {P : List Part} {b₀ : State} {s : State} (hP : [.hap] ⊆ P) (hb₀ : Changes P b₀ s) : Changes P b₀ (takeHapId s).1 := by
  have m_hap : Part.hap ∈ P := part_mem hP rfl
  unfold takeHapId
  repeat' first
    | with_reducible assumption
    | (extract_lets +onlyGivenNames x; clear_value x; revert x; intro _)
    | fail_if_no_progress (with_reducible refine ch_hap ?_ m_hap)

theorem zoneEffect_ch {P : List Part} {b₀ : State} {s : State} {p n effect : Nat} (hP : [.fresh, .objs, .voteSecond, .host, .funcs, .sess, .rings, .hap, .grog, .notes] ⊆ P) (hb₀ : Changes P b₀ s) : Changes P b₀ (zoneEffect s p n effect) := by
  unfold zoneEffect
  repeat' first
    | with_reducible assumption
    | with_reducible apply effectArrives_ch
    | with_reducible apply takeHapId_ch
    | ((with_reducible refine part_sub hP ?_); rfl)

theorem shutHaptics_ch {P : List Part} {b₀ : State} {s : State} (hP : [.fresh, .objs, .voteSecond, .host, .funcs, .sess, .served, .transit, .rings, .hap, .power, .grog, .notes] ⊆ P) (hb₀ : Changes P b₀ s) : Changes P b₀ (shutHaptics s) := by
  unfold shutHaptics
  repeat' first
    | with_reducible assumption
    | with_reducible apply putN_ch
    | with_reducible apply endQueue_ch
    | with_reducible apply hapStopCheck_ch
    | with_reducible apply beginBraking_ch
    | ((with_reducible refine part_sub hP ?_); rfl)
    | with_reducible apply foldN_ch
    | (intro x a hx; try beta_reduce)
    | (extract_lets +onlyGivenNames x; refine ch_step (P := P) (r := b₀) (x := x) ?_ (fun hx => ?_); subst x; rotate_left; clear_value x; revert x; intro _ _)
    | with_reducible apply ch_ite

theorem stopHaptics_ch {P : List Part} {b₀ : State} {s : State} (hP : [.fresh, .objs, .voteSecond, .host, .funcs, .sess, .served, .transit, .rings, .hap, .power, .grog, .notes] ⊆ P) (hb₀ : Changes P b₀ s) : Changes P b₀ (stopHaptics s) := by
  unfold stopHaptics
  repeat' first
    | with_reducible assumption
    | with_reducible apply writeB_ch
    | with_reducible apply shutHaptics_ch
    | ((with_reducible refine part_sub hP ?_); rfl)
    | (extract_lets +onlyGivenNames x; refine ch_step (P := P) (r := b₀) (x := x) ?_ (fun hx => ?_); subst x; rotate_left; clear_value x; revert x; intro _ _)
    | with_reducible apply ch_ite

theorem dropHaptics_ch {P : List Part} {b₀ : State} {s : State} (hP : [.fresh, .objs, .voteSecond, .host, .funcs, .sess, .rings, .hap, .grog, .notes] ⊆ P) (hb₀ : Changes P b₀ s) : Changes P b₀ (dropHaptics s) := by
  unfold dropHaptics
  repeat' first
    | with_reducible assumption
    | with_reducible apply putN_ch
    | with_reducible apply modChan_ch
    | with_reducible apply endRunning_ch
    | with_reducible apply endQueue_ch
    | ((with_reducible refine part_sub hP ?_); rfl)
    | with_reducible apply foldN_ch
    | (intro x a hx; try beta_reduce)

theorem cutHaptics_ch {P : List Part} {b₀ : State} {s : State} (hP : [.fresh, .objs, .voteSecond, .host, .funcs, .sess, .served, .transit, .rings, .hap, .power, .grog, .notes] ⊆ P) (hb₀ : Changes P b₀ s) : Changes P b₀ (cutHaptics s) := by
  unfold cutHaptics
  repeat' first
    | with_reducible assumption
    | with_reducible apply putN_ch
    | with_reducible apply hapStopCheck_ch
    | with_reducible apply dropHaptics_ch
    | ((with_reducible refine part_sub hP ?_); rfl)
    | (extract_lets +onlyGivenNames x; refine ch_step (P := P) (r := b₀) (x := x) ?_ (fun hx => ?_); subst x; rotate_left; clear_value x; revert x; intro _ _)
    | with_reducible apply ch_ite

theorem flrHaptics_ch {P : List Part} {b₀ : State} {s : State} {f : Nat} (hP : [.fresh, .objs, .voteSecond, .host, .funcs, .sess, .rings, .hap, .grog, .notes] ⊆ P) (hb₀ : Changes P b₀ s) : Changes P b₀ (flrHaptics s f) := by
  have m_hap : Part.hap ∈ P := part_mem hP rfl
  unfold flrHaptics
  repeat' first
    | with_reducible assumption
    | with_reducible apply modChan_ch
    | with_reducible apply setQueue_ch
    | with_reducible apply overlayHead_ch
    | with_reducible apply beginBraking_ch
    | ((with_reducible refine part_sub hP ?_); rfl)
    | with_reducible apply foldN_ch
    | (intro x a hx; try beta_reduce)
    | (extract_lets +onlyGivenNames x; refine ch_step (P := P) (r := b₀) (x := x) ?_ (fun hx => ?_); subst x; rotate_left; clear_value x; revert x; intro _ _)
    | (extract_lets +onlyGivenNames x; clear_value x; revert x; intro _)
    | fail_if_no_progress (with_reducible refine ch_hap ?_ m_hap)
    | with_reducible apply ch_ite
    | split

theorem probe_ch {P : List Part} {b₀ : State} {s : State} {n cap : Nat} (hP : [.fresh, .objs, .voteSecond, .host, .funcs, .sess, .frames, .served, .transit, .rings, .hap, .power, .grog, .notes] ⊆ P) (hb₀ : Changes P b₀ s) : Changes P b₀ (probe s n cap) := by
  unfold probe
  repeat' first
    | with_reducible assumption
    | with_reducible apply emit_ch
    | with_reducible apply updateHealth_ch
    | with_reducible apply modChan_ch
    | with_reducible apply channelIdle_ch
    | ((with_reducible refine part_sub hP ?_); rfl)
    | (extract_lets +onlyGivenNames x; refine ch_step (P := P) (r := b₀) (x := x) ?_ (fun hx => ?_); subst x; rotate_left; clear_value x; revert x; intro _ _)
    | (extract_lets +onlyGivenNames x; clear_value x; revert x; intro _)
    | with_reducible apply ch_ite

theorem resetChannel_ch {P : List Part} {b₀ : State} {s : State} {n cap : Nat} (hP : [.fresh, .objs, .voteSecond, .host, .funcs, .sess, .frames, .served, .transit, .rings, .hap, .power, .grog, .notes] ⊆ P) (hb₀ : Changes P b₀ s) : Changes P b₀ (resetChannel s n cap) := by
  unfold resetChannel
  repeat' first
    | with_reducible assumption
    | with_reducible apply probe_ch
    | with_reducible apply ch_ite

theorem hapEnableApply_ch {P : List Part} {b₀ : State} {s : State} {on : Bool} (hP : [.fresh, .objs, .voteSecond, .host, .funcs, .sess, .served, .transit, .rings, .hap, .power, .grog, .notes] ⊆ P) (hb₀ : Changes P b₀ s) : Changes P b₀ (hapEnableApply s on).1 := by
  unfold hapEnableApply
  repeat' first
    | with_reducible assumption
    | with_reducible apply enableWrite_ch
    | with_reducible apply startHaptics_ch
    | with_reducible apply stopHaptics_ch
    | ((with_reducible refine part_sub hP ?_); rfl)
    | (intro x hx; try beta_reduce)

theorem chanApply_ch {P : List Part} {b₀ : State} {s : State} {n sub v : Nat} (hP : [.fresh, .objs, .voteSecond, .host, .funcs, .sess, .frames, .served, .transit, .rings, .hap, .power, .grog, .notes] ⊆ P) (hb₀ : Changes P b₀ s) : Changes P b₀ (chanApply s n sub v) := by
  unfold chanApply
  repeat' first
    | with_reducible assumption
    | with_reducible apply putN_ch
    | with_reducible apply writeN_ch
    | with_reducible apply draw_ch
    | with_reducible apply endRunning_ch
    | with_reducible apply endQueue_ch
    | with_reducible apply hapStopCheck_ch
    | with_reducible apply resetChannel_ch
    | ((with_reducible refine part_sub hP ?_); rfl)
    | (extract_lets +onlyGivenNames x; refine ch_step (P := P) (r := b₀) (x := x) ?_ (fun hx => ?_); subst x; rotate_left; clear_value x; revert x; intro _ _)
    | with_reducible apply ch_ite

theorem execHapticPlay_ch {P : List Part} {b₀ : State} {h : CmdHdr} {p : HapticPayload} {s : State} (hP : [.fresh, .objs, .votes, .voteSecond, .host, .funcs, .sess, .rings, .hap, .grog, .notes] ⊆ P) (hb₀ : Changes P b₀ s) : ChangesAll P b₀ (execHapticPlay h p s) := by
  have m_hap : Part.hap ∈ P := part_mem hP rfl
  unfold execHapticPlay
  repeat' first
    | with_reducible assumption
    | with_reducible apply completeOpen_ch
    | with_reducible apply beginCmd_ch
    | with_reducible apply giveEffect_ch
    | with_reducible apply takeHapId_ch
    | ((with_reducible refine part_sub hP ?_); rfl)
    | with_reducible apply changes_next
    | with_reducible apply changes_fault
    | with_reducible apply foldN_ch
    | (intro x a hx; try beta_reduce)
    | (extract_lets +onlyGivenNames x; clear_value x; revert x; intro _)
    | with_reducible refine ch_fst (by with_reducible assumption) ?_
    | fail_if_no_progress (with_reducible refine ch_hap ?_ m_hap)
    | with_reducible apply ch_ite
    | with_reducible apply changes_ite
    | split

theorem execEffectDue_ch {P : List Part} {b₀ : State} {chan : Fin 16} {s : State} (hP : [.fresh, .objs, .voteSecond, .host, .funcs, .sess, .rings, .hap, .grog, .notes] ⊆ P) (hb₀ : Changes P b₀ s) : ChangesAll P b₀ (execEffectDue chan s) := by
  unfold execEffectDue
  repeat' first
    | with_reducible assumption
    | with_reducible apply modChan_ch
    | with_reducible apply effectArrives_ch
    | ((with_reducible refine part_sub hP ?_); rfl)
    | with_reducible apply changes_next
    | with_reducible apply changes_fault
    | with_reducible apply foldl_ch
    | with_reducible apply foldl_ch1
    | (intro x a hx; try beta_reduce)

theorem execAttackEnd_ch {P : List Part} {b₀ : State} {chan : Fin 16} {s : State} (hP : [.objs] ⊆ P) (hb₀ : Changes P b₀ s) : ChangesAll P b₀ (execAttackEnd chan s) := by
  unfold execAttackEnd
  repeat' first
    | with_reducible assumption
    | with_reducible apply putN_ch
    | with_reducible apply changes_next
    | with_reducible apply changes_fault
    | with_reducible apply ch_ite
    | with_reducible apply changes_ite
    | split

theorem execBrakingStart_ch {P : List Part} {b₀ : State} {chan : Fin 16} {peakMg : Nat} {s : State} (hP : [.fresh, .objs, .voteSecond, .host, .funcs, .sess, .rings, .hap, .grog, .notes] ⊆ P) (hb₀ : Changes P b₀ s) : ChangesAll P b₀ (execBrakingStart chan peakMg s) := by
  unfold execBrakingStart
  repeat' first
    | with_reducible assumption
    | with_reducible apply overlayHead_ch
    | with_reducible apply countMissed_ch
    | with_reducible apply beginBraking_ch
    | ((with_reducible refine part_sub hP ?_); rfl)
    | with_reducible apply changes_next
    | with_reducible apply changes_fault
    | with_reducible apply ch_ite
    | with_reducible apply changes_ite
    | split

theorem execBrakingEnd_ch {P : List Part} {b₀ : State} {chan : Fin 16} {accelMg : Nat} {s : State} (hP : [.fresh, .objs, .voteSecond, .host, .funcs, .sess, .frames, .served, .transit, .rings, .hap, .power, .grog, .notes] ⊆ P) (hb₀ : Changes P b₀ s) : ChangesAll P b₀ (execBrakingEnd chan accelMg s) := by
  unfold execBrakingEnd
  repeat' first
    | with_reducible assumption
    | with_reducible apply endRunning_ch
    | with_reducible apply channelIdle_ch
    | ((with_reducible refine part_sub hP ?_); rfl)
    | with_reducible apply changes_next
    | with_reducible apply changes_fault
    | (extract_lets +onlyGivenNames x; clear_value x; revert x; intro _)
    | with_reducible apply ch_ite
    | with_reducible apply changes_ite
    | split

theorem execQueueHeadTimeout_ch {P : List Part} {b₀ : State} {chan : Fin 16} {s : State} (hP : [.fresh, .objs, .voteSecond, .host, .funcs, .sess, .rings, .hap, .grog, .notes] ⊆ P) (hb₀ : Changes P b₀ s) : ChangesAll P b₀ (execQueueHeadTimeout chan s) := by
  unfold execQueueHeadTimeout
  repeat' first
    | with_reducible assumption
    | with_reducible apply startHead_ch
    | with_reducible apply changes_next
    | with_reducible apply changes_fault
    | (extract_lets +onlyGivenNames x; clear_value x; revert x; intro _)
    | with_reducible apply ch_ite
    | with_reducible apply changes_ite

theorem execEffectDeadline_ch {P : List Part} {b₀ : State} {chan : Fin 16} {s : State} (hP : [.fresh, .objs, .voteSecond, .host, .funcs, .sess, .rings, .hap, .grog, .notes] ⊆ P) (hb₀ : Changes P b₀ s) : ChangesAll P b₀ (execEffectDeadline chan s) := by
  unfold execEffectDeadline
  repeat' first
    | with_reducible assumption
    | with_reducible apply hf1
    | with_reducible apply hf2
    | with_reducible apply hf3
    | with_reducible apply effectEnds_ch
    | with_reducible apply setQueue_ch
    | with_reducible apply overlayHead_ch
    | ((with_reducible refine part_sub hP ?_); rfl)
    | with_reducible apply changes_next
    | with_reducible apply changes_fault
    | with_reducible apply foldl_ch
    | with_reducible apply foldl_ch1
    | (intro x a hx; try beta_reduce)

theorem execEffectFits_ch {P : List Part} {b₀ : State} {chan : Fin 16} {s : State} (hP : [.fresh, .objs, .voteSecond, .host, .funcs, .sess, .rings, .hap, .grog, .notes] ⊆ P) (hb₀ : Changes P b₀ s) : ChangesAll P b₀ (execEffectFits chan s) := by
  unfold execEffectFits
  repeat' first
    | with_reducible assumption
    | with_reducible apply startHead_ch
    | with_reducible apply changes_next
    | with_reducible apply changes_fault
    | with_reducible apply ch_ite
    | with_reducible apply changes_ite

theorem execHapTrip_ch {P : List Part} {b₀ : State} {chan : Fin 16} {cause : Fin 3} {capNf : BitVec 32} {s : State} (hP : [.fresh, .objs, .voteSecond, .host, .funcs, .sess, .frames, .served, .transit, .rings, .hap, .power, .grog, .notes] ⊆ P) (hb₀ : Changes P b₀ s) : ChangesAll P b₀ (execHapTrip chan cause capNf s) := by
  unfold execHapTrip
  repeat' first
    | with_reducible assumption
    | with_reducible apply putN_ch
    | with_reducible apply bump_ch
    | with_reducible apply emit_ch
    | with_reducible apply updateHealth_ch
    | with_reducible apply modChan_ch
    | with_reducible apply endRunning_ch
    | with_reducible apply endQueue_ch
    | with_reducible apply hapStopCheck_ch
    | ((with_reducible refine part_sub hP ?_); rfl)
    | with_reducible apply changes_next
    | with_reducible apply changes_fault
    | (extract_lets +onlyGivenNames x; refine ch_step (P := P) (r := b₀) (x := x) ?_ (fun hx => ?_); subst x; rotate_left; clear_value x; revert x; intro _ _)
    | with_reducible apply ch_ite
    | with_reducible apply changes_ite

theorem execTripProbe_ch {P : List Part} {b₀ : State} {chan : Fin 16} {capNf : BitVec 32} {s : State} (hP : [.fresh, .objs, .voteSecond, .host, .funcs, .sess, .frames, .served, .transit, .rings, .hap, .power, .grog, .notes] ⊆ P) (hb₀ : Changes P b₀ s) : ChangesAll P b₀ (execTripProbe chan capNf s) := by
  unfold execTripProbe
  repeat' first
    | with_reducible assumption
    | with_reducible apply probe_ch
    | with_reducible apply changes_next
    | with_reducible apply changes_fault
    | with_reducible apply ch_ite
    | with_reducible apply changes_ite
    | split

theorem limitCut_ch {P : List Part} {b₀ : State} {s : State} {n limit outcome : Nat} (hP : [.fresh, .objs, .voteSecond, .host, .funcs, .sess, .frames, .served, .transit, .rings, .hap, .power, .grog, .notes] ⊆ P) (hb₀ : Changes P b₀ s) : Changes P b₀ (limitCut s n limit outcome) := by
  unfold limitCut
  repeat' first
    | with_reducible assumption
    | with_reducible apply bump_ch
    | with_reducible apply emit_ch
    | with_reducible apply endRunning_ch
    | with_reducible apply channelIdle_ch
    | ((with_reducible refine part_sub hP ?_); rfl)
    | with_reducible apply ch_ite
    | split

theorem execOnTimeCut_ch {P : List Part} {b₀ : State} {chan : Fin 16} {s : State} (hP : [.fresh, .objs, .voteSecond, .host, .funcs, .sess, .frames, .served, .transit, .rings, .hap, .power, .grog, .notes] ⊆ P) (hb₀ : Changes P b₀ s) : ChangesAll P b₀ (execOnTimeCut chan s) := by
  unfold execOnTimeCut
  repeat' first
    | with_reducible assumption
    | with_reducible apply limitCut_ch
    | with_reducible apply changes_next
    | with_reducible apply changes_fault
    | with_reducible apply ch_ite
    | with_reducible apply changes_ite

theorem execDutyCut_ch {P : List Part} {b₀ : State} {chan : Fin 16} {s : State} (hP : [.fresh, .objs, .voteSecond, .host, .funcs, .sess, .frames, .served, .transit, .rings, .hap, .power, .grog, .notes] ⊆ P) (hb₀ : Changes P b₀ s) : ChangesAll P b₀ (execDutyCut chan s) := by
  unfold execDutyCut
  repeat' first
    | with_reducible assumption
    | with_reducible apply limitCut_ch
    | with_reducible apply changes_next
    | with_reducible apply changes_fault
    | with_reducible apply ch_ite
    | with_reducible apply changes_ite

theorem execAccelTimeout_ch {P : List Part} {b₀ : State} {chan : Fin 16} {reads : List (BitVec 32)} {s : State} (hP : [.objs, .hap] ⊆ P) (hb₀ : Changes P b₀ s) : ChangesAll P b₀ (execAccelTimeout chan reads s) := by
  unfold execAccelTimeout
  repeat' first
    | split
    | ((with_reducible refine part_sub hP ?_); rfl)
    | with_reducible apply modChan_ch
    | with_reducible assumption
    | with_reducible apply putN_ch
    | with_reducible apply bump_ch
    | with_reducible apply changes_next
    | with_reducible apply changes_fault
    | with_reducible apply ch_ite
    | with_reducible apply changes_ite

theorem execDriverFault_ch {P : List Part} {b₀ : State} {chan : Fin 16} {retryPasses sparePasses : Bool} {s : State} (hP : [.fresh, .objs, .voteSecond, .host, .funcs, .sess, .frames, .rings, .hap, .grog, .notes] ⊆ P) (hb₀ : Changes P b₀ s) : ChangesAll P b₀ (execDriverFault chan retryPasses sparePasses s) := by
  unfold execDriverFault
  repeat' first
    | with_reducible assumption
    | with_reducible apply modChan_ch
    | with_reducible apply connectSpare_ch
    | ((with_reducible refine part_sub hP ?_); rfl)
    | with_reducible apply changes_next
    | with_reducible apply changes_fault
    | with_reducible apply ch_ite
    | with_reducible apply changes_ite

theorem execHapReady_ch {P : List Part} {b₀ : State} {badDrivers : List (Fin 17)} {s : State} (hP : [.fresh, .objs, .voteSecond, .host, .funcs, .sess, .frames, .rings, .hap, .grog, .notes] ⊆ P) (hb₀ : Changes P b₀ s) : ChangesAll P b₀ (execHapReady badDrivers s) := by
  unfold execHapReady
  repeat' first
    | with_reducible assumption
    | with_reducible apply putN_ch
    | with_reducible apply draw_ch
    | with_reducible apply updateHealth_ch
    | with_reducible apply failSpare_ch
    | with_reducible apply connectSpare_ch
    | ((with_reducible refine part_sub hP ?_); rfl)
    | with_reducible apply changes_next
    | with_reducible apply changes_fault
    | with_reducible apply foldN_ch
    | (intro x a hx; try beta_reduce)
    | (extract_lets +onlyGivenNames x; refine ch_step (P := P) (r := b₀) (x := x) ?_ (fun hx => ?_); subst x; rotate_left; clear_value x; revert x; intro _ _)
    | (extract_lets +onlyGivenNames x; clear_value x; revert x; intro _)
    | with_reducible apply ch_ite
    | with_reducible apply changes_ite

theorem execInterlockOpen_ch {P : List Part} {b₀ : State} {s : State} (hP : [.fresh, .objs, .voteSecond, .host, .funcs, .sess, .frames, .served, .transit, .rings, .hap, .power, .grog, .notes] ⊆ P) (hb₀ : Changes P b₀ s) : ChangesAll P b₀ (execInterlockOpen s) := by
  unfold execInterlockOpen
  repeat' first
    | with_reducible assumption
    | with_reducible apply putN_ch
    | with_reducible apply putB_ch
    | with_reducible apply updateHealth_ch
    | with_reducible apply hapStopCheck_ch
    | with_reducible apply dropHaptics_ch
    | ((with_reducible refine part_sub hP ?_); rfl)
    | with_reducible apply changes_next
    | with_reducible apply changes_fault
    | (extract_lets +onlyGivenNames x; refine ch_step (P := P) (r := b₀) (x := x) ?_ (fun hx => ?_); subst x; rotate_left; clear_value x; revert x; intro _ _)
    | with_reducible apply ch_ite
    | with_reducible apply changes_ite

theorem execInterlockClosed_ch {P : List Part} {b₀ : State} {s : State} (hP : [.fresh, .objs, .voteSecond, .funcs, .sess, .frames, .grog, .notes] ⊆ P) (hb₀ : Changes P b₀ s) : ChangesAll P b₀ (execInterlockClosed s) := by
  unfold execInterlockClosed
  repeat' first
    | with_reducible assumption
    | with_reducible apply putB_ch
    | with_reducible apply updateHealth_ch
    | ((with_reducible refine part_sub hP ?_); rfl)
    | with_reducible apply changes_next

end Sys2Proof.Machine
end

