-- ==== Sys2Proof/Laws/ChangesRings.lean ====
section
/-!
SUPPORT. What each operation of Machine/Rings.lean may change.
-/

namespace Sys2Proof.Machine

theorem enableRing_ch {P : List Part} {b₀ : State} {s : State} {h : Nat} (hP : [.objs, .votes, .rings] ⊆ P) (hb₀ : Changes P b₀ s) : Changes P b₀ (enableRing s h) := by
  unfold enableRing
  repeat' first
    | with_reducible assumption
    | with_reducible apply modRing_ch
    | with_reducible apply writeVoted_ch
    | ((with_reducible refine part_sub hP ?_); rfl)

theorem disableRing_ch {P : List Part} {b₀ : State} {s : State} {h : Nat} (hP : [.objs, .votes, .rings, .signals] ⊆ P) (hb₀ : Changes P b₀ s) : Changes P b₀ (disableRing s h) := by
  have m_signals : Part.signals ∈ P := part_mem hP rfl
  unfold disableRing
  repeat' first
    | with_reducible assumption
    | with_reducible apply modRing_ch
    | with_reducible apply writeVoted_ch
    | ((with_reducible refine part_sub hP ?_); rfl)
    | (extract_lets +onlyGivenNames x; refine ch_step (P := P) (r := b₀) (x := x) ?_ (fun hx => ?_); subst x; rotate_left; clear_value x; revert x; intro _ _)
    | fail_if_no_progress (with_reducible refine ch_signals ?_ m_signals)

theorem ringApply_ch {P : List Part} {b₀ : State} {s : State} {h sub v : Nat} (hP : [.fresh, .objs, .votes, .voteSecond, .funcs, .sess, .rings, .signals, .grog, .notes] ⊆ P) (hb₀ : Changes P b₀ s) : Changes P b₀ (ringApply s h sub v) := by
  unfold ringApply
  repeat' first
    | with_reducible assumption
    | with_reducible apply writeN_ch
    | with_reducible apply modRing_ch
    | with_reducible apply writeVoted_ch
    | with_reducible apply voteRing_ch
    | with_reducible apply enableRing_ch
    | with_reducible apply disableRing_ch
    | ((with_reducible refine part_sub hP ?_); rfl)
    | (extract_lets +onlyGivenNames x; refine ch_step (P := P) (r := b₀) (x := x) ?_ (fun hx => ?_); subst x; rotate_left; clear_value x; revert x; intro _ _)
    | (extract_lets +onlyGivenNames x; clear_value x; revert x; intro _)
    | with_reducible apply ch_ite

theorem execResizeDone_ch {P : List Part} {b₀ : State} {ring : Fin 256} {s : State} (hP : [.fresh, .voteSecond, .funcs, .sess, .rings, .grog, .notes] ⊆ P) (hb₀ : Changes P b₀ s) : ChangesAll P b₀ (execResizeDone ring s) := by
  unfold execResizeDone
  repeat' first
    | with_reducible assumption
    | with_reducible apply modRing_ch
    | with_reducible apply emit_ch
    | ((with_reducible refine part_sub hP ?_); rfl)
    | with_reducible apply changes_next
    | with_reducible apply changes_fault
    | (extract_lets +onlyGivenNames x; clear_value x; revert x; intro _)
    | with_reducible apply ch_ite
    | with_reducible apply changes_ite
    | split

theorem doorbellOp_ch {P : List Part} {b₀ : State} {s : State} {f l v : Nat} (hP : [.fresh, .objs, .votes, .voteSecond, .funcs, .sess, .rings, .grog, .notes] ⊆ P) (hb₀ : Changes P b₀ s) : Changes P b₀ (doorbellOp s f l v) := by
  unfold doorbellOp
  repeat' first
    | with_reducible assumption
    | with_reducible apply modRing_ch
    | with_reducible apply voteRing_ch
    | with_reducible apply countDrop_ch
    | ((with_reducible refine part_sub hP ?_); rfl)
    | (extract_lets +onlyGivenNames x; refine ch_step (P := P) (r := b₀) (x := x) ?_ (fun hx => ?_); subst x; rotate_left; clear_value x; revert x; intro _ _)
    | (extract_lets +onlyGivenNames x; clear_value x; revert x; intro _)
    | with_reducible apply ch_ite
    | split

theorem execDoorbell_ch {P : List Part} {b₀ : State} {f : Fin 65} {ring : Fin 16} {value : BitVec 32} {s : State} (hP : [.fresh, .objs, .votes, .voteSecond, .funcs, .sess, .rings, .grog, .notes] ⊆ P) (hb₀ : Changes P b₀ s) : ChangesAll P b₀ (execDoorbell f ring value s) := by
  unfold execDoorbell
  repeat' first
    | with_reducible assumption
    | with_reducible apply doorbellOp_ch
    | with_reducible apply changes_next
    | with_reducible apply changes_fault
    | with_reducible apply ch_ite
    | with_reducible apply changes_ite

theorem cqHeadOp_ch {P : List Part} {b₀ : State} {s : State} {f l v : Nat} (hP : [.fresh, .voteSecond, .host, .funcs, .sess, .rings, .grog, .notes] ⊆ P) (hb₀ : Changes P b₀ s) : Changes P b₀ (cqHeadOp s f l v) := by
  unfold cqHeadOp
  repeat' first
    | with_reducible assumption
    | with_reducible apply modRing_ch
    | with_reducible apply drainHeld_ch
    | ((with_reducible refine part_sub hP ?_); rfl)
    | with_reducible apply ch_ite
    | split

theorem execCqHeadWrite_ch {P : List Part} {b₀ : State} {f : Fin 65} {ring : Fin 16} {value : BitVec 16} {s : State} (hP : [.fresh, .voteSecond, .host, .funcs, .sess, .rings, .grog, .notes] ⊆ P) (hb₀ : Changes P b₀ s) : ChangesAll P b₀ (execCqHeadWrite f ring value s) := by
  unfold execCqHeadWrite
  repeat' first
    | with_reducible assumption
    | with_reducible apply cqHeadOp_ch
    | with_reducible apply changes_next
    | with_reducible apply changes_fault
    | with_reducible apply ch_ite
    | with_reducible apply changes_ite

theorem lostWrite_ch {P : List Part} {b₀ : State} {s : State} {f : Nat} (hP : [.objs, .funcs] ⊆ P) (hb₀ : Changes P b₀ s) : Changes P b₀ (lostWrite s f) := by
  unfold lostWrite
  repeat' first
    | with_reducible assumption
    | with_reducible apply bump_ch
    | with_reducible apply modFunc_ch
    | ((with_reducible refine part_sub hP ?_); rfl)

theorem evtWrite_ch {P : List Part} {b₀ : State} {s : State} {f : Nat} {op : State → State} (h_op : ∀ x, Changes P b₀ x → Changes P b₀ (op x)) (hP : [.fresh, .objs, .funcs] ⊆ P) (hb₀ : Changes P b₀ s) : Changes P b₀ (evtWrite s f op) := by
  unfold evtWrite
  repeat' first
    | with_reducible assumption
    | with_reducible apply h_op
    | with_reducible apply draw_ch
    | with_reducible apply modFunc_ch
    | with_reducible apply lostWrite_ch
    | ((with_reducible refine part_sub hP ?_); rfl)
    | with_reducible apply ch_ite

theorem evtPendOp_ch {P : List Part} {b₀ : State} {s : State} {f m : Nat} (hP : [.funcs] ⊆ P) (hb₀ : Changes P b₀ s) : Changes P b₀ (evtPendOp s f m) := by
  unfold evtPendOp
  repeat' first
    | with_reducible assumption
    | with_reducible apply modFunc_ch

theorem evtMaskOp_ch {P : List Part} {b₀ : State} {s : State} {f m : Nat} (hP : [.fresh, .voteSecond, .funcs, .sess, .grog, .notes] ⊆ P) (hb₀ : Changes P b₀ s) : Changes P b₀ (evtMaskOp s f m) := by
  unfold evtMaskOp
  repeat' first
    | with_reducible assumption
    | with_reducible apply modFunc_ch
    | with_reducible apply voteMask_ch
    | with_reducible apply raiseVec_ch
    | ((with_reducible refine part_sub hP ?_); rfl)
    | with_reducible apply foldN_ch
    | (intro x a hx; try beta_reduce)

theorem execEvtPendClear_ch {P : List Part} {b₀ : State} {f : Fin 65} {mask : BitVec 32} {s : State} (hP : [.fresh, .objs, .funcs] ⊆ P) (hb₀ : Changes P b₀ s) : ChangesAll P b₀ (execEvtPendClear f mask s) := by
  unfold execEvtPendClear
  repeat' first
    | with_reducible assumption
    | with_reducible apply evtWrite_ch
    | with_reducible apply evtPendOp_ch
    | ((with_reducible refine part_sub hP ?_); rfl)
    | with_reducible apply changes_next
    | with_reducible apply changes_fault
    | (intro x hx; try beta_reduce)
    | with_reducible apply ch_ite
    | with_reducible apply changes_ite

theorem execEvtMaskWrite_ch {P : List Part} {b₀ : State} {f : Fin 65} {mask : BitVec 32} {s : State} (hP : [.fresh, .objs, .voteSecond, .funcs, .sess, .grog, .notes] ⊆ P) (hb₀ : Changes P b₀ s) : ChangesAll P b₀ (execEvtMaskWrite f mask s) := by
  unfold execEvtMaskWrite
  repeat' first
    | with_reducible assumption
    | with_reducible apply evtWrite_ch
    | with_reducible apply evtMaskOp_ch
    | ((with_reducible refine part_sub hP ?_); rfl)
    | with_reducible apply changes_next
    | with_reducible apply changes_fault
    | (intro x hx; try beta_reduce)
    | with_reducible apply ch_ite
    | with_reducible apply changes_ite

theorem evtVecOp_ch {P : List Part} {b₀ : State} {s : State} {f k v : Nat} (hP : [.funcs] ⊆ P) (hb₀ : Changes P b₀ s) : Changes P b₀ (evtVecOp s f k v) := by
  unfold evtVecOp
  repeat' first
    | with_reducible assumption
    | with_reducible apply modFunc_ch

theorem msixOp_ch {P : List Part} {b₀ : State} {s : State} {f v d n : Nat} (hP : [.fresh, .voteSecond, .funcs, .sess, .grog, .notes] ⊆ P) (hb₀ : Changes P b₀ s) : Changes P b₀ (msixOp s f v d n) := by
  unfold msixOp
  repeat' first
    | with_reducible assumption
    | with_reducible apply modFunc_ch
    | with_reducible apply voteMsix_ch
    | with_reducible apply raiseVec_ch
    | ((with_reducible refine part_sub hP ?_); rfl)
    | (extract_lets +onlyGivenNames x; refine ch_step (P := P) (r := b₀) (x := x) ?_ (fun hx => ?_); subst x; rotate_left; clear_value x; revert x; intro _ _)
    | (extract_lets +onlyGivenNames x; clear_value x; revert x; intro _)
    | with_reducible apply ch_ite

theorem registerOp_ch {P : List Part} {b₀ : State} {s : State} {f off v : Nat} (hP : [.fresh, .objs, .votes, .voteSecond, .host, .funcs, .sess, .rings, .grog, .notes] ⊆ P) (hb₀ : Changes P b₀ s) : Changes P b₀ (registerOp s f off v) := by
  unfold registerOp
  repeat' first
    | with_reducible assumption
    | with_reducible apply modFunc_ch
    | with_reducible apply modRing_ch
    | with_reducible apply doorbellOp_ch
    | with_reducible apply cqHeadOp_ch
    | with_reducible apply evtWrite_ch
    | with_reducible apply evtPendOp_ch
    | with_reducible apply evtMaskOp_ch
    | with_reducible apply evtVecOp_ch
    | with_reducible apply msixOp_ch
    | ((with_reducible refine part_sub hP ?_); rfl)
    | (intro x hx; try beta_reduce)
    | with_reducible apply ch_ite
    | split

theorem execNop_ch {P : List Part} {b₀ : State} {h : CmdHdr} {s : State} (hP : [.fresh, .objs, .votes, .voteSecond, .host, .funcs, .sess, .rings, .grog, .notes] ⊆ P) (hb₀ : Changes P b₀ s) : ChangesAll P b₀ (execNop h s) := by
  unfold execNop
  repeat' first
    | with_reducible assumption
    | with_reducible apply completeR_ch
    | with_reducible apply beginCmd_ch
    | ((with_reducible refine part_sub hP ?_); rfl)
    | with_reducible apply changes_next
    | with_reducible apply changes_fault
    | with_reducible refine ch_fst (by with_reducible assumption) ?_
    | with_reducible apply ch_ite
    | with_reducible apply changes_ite
    | split

theorem execCommandBadop_ch {P : List Part} {b₀ : State} {h : CmdHdr} {op : BitVec 8} {s : State} (hP : [.fresh, .objs, .votes, .voteSecond, .host, .funcs, .sess, .rings, .grog, .notes] ⊆ P) (hb₀ : Changes P b₀ s) : ChangesAll P b₀ (execCommandBadop h op s) := by
  unfold execCommandBadop
  repeat' first
    | with_reducible assumption
    | with_reducible apply voteRing_ch
    | with_reducible apply countDrop_ch
    | with_reducible apply completeOpenAlways_ch
    | with_reducible apply takeCmd_ch
    | with_reducible apply spoof_ch
    | ((with_reducible refine part_sub hP ?_); rfl)
    | with_reducible apply changes_next
    | with_reducible apply changes_fault
    | (extract_lets +onlyGivenNames x; refine ch_step (P := P) (r := b₀) (x := x) ?_ (fun hx => ?_); subst x; rotate_left; clear_value x; revert x; intro _ _)
    | with_reducible refine ch_fst (by with_reducible assumption) ?_
    | with_reducible apply ch_ite
    | with_reducible apply changes_ite

end Sys2Proof.Machine
end

