-- ==== Sys2Proof/Laws/ChangesMixer.lean ====
section
/-!
SUPPORT. What each operation of Machine/Mixer.lean may change.
-/

namespace Sys2Proof.Machine

theorem modSnd_ch {P : List Part} {b₀ : State} {s : State} {g : Snd → Snd} (hP : [.snd] ⊆ P) (hb₀ : Changes P b₀ s) : Changes P b₀ (modSnd s g) := by
  have m_snd : Part.snd ∈ P := part_mem hP rfl
  unfold modSnd
  repeat' first
    | with_reducible assumption
    | fail_if_no_progress (with_reducible refine ch_snd ?_ m_snd)

theorem rampGain_ch {P : List Part} {b₀ : State} {s : State} {k v : Nat} (hP : [.objs, .snd] ⊆ P) (hb₀ : Changes P b₀ s) : Changes P b₀ (rampGain s k v) := by
  unfold rampGain
  repeat' first
    | with_reducible assumption
    | with_reducible apply writeN_ch
    | with_reducible apply modSnd_ch
    | ((with_reducible refine part_sub hP ?_); rfl)
    | with_reducible apply ch_ite

theorem notePast_ch {P : List Part} {b₀ : State} {s : State} (hP : [.snd] ⊆ P) (hb₀ : Changes P b₀ s) : Changes P b₀ (notePast s) := by
  unfold notePast
  repeat' first
    | with_reducible assumption
    | with_reducible apply modSnd_ch
    | with_reducible apply ch_ite
    | split

theorem formOutputs_ch {P : List Part} {b₀ : State} {s : State} {tdm : TdmIn} {t0 : Nat} (hP : [.objs, .snd] ⊆ P) (hb₀ : Changes P b₀ s) : Changes P b₀ (formOutputs s tdm t0) := by
  unfold formOutputs
  repeat' first
    | with_reducible assumption
    | with_reducible apply bumpBy_ch
    | with_reducible apply modSnd_ch
    | ((with_reducible refine part_sub hP ?_); rfl)
    | with_reducible apply foldl_ch
    | with_reducible apply foldl_ch1
    | (intro x a hx; try beta_reduce)
    | with_reducible apply ch_ite

end Sys2Proof.Machine
end

