-- ==== Sys2Proof/Laws/ChangesSound.lean ====
section
/-!
SUPPORT. What each operation of Machine/Sound.lean may change.
-/

namespace Sys2Proof.Machine

theorem streamEvent_ch {P : List Part} {b₀ : State} {s : State} {capture : Bool} {n code : Nat} (hP : [.fresh, .voteSecond, .funcs, .sess, .grog, .notes] ⊆ P) (hb₀ : Changes P b₀ s) : Changes P b₀ (streamEvent s capture n code) := by
  unfold streamEvent
  repeat' first
    | with_reducible assumption
    | with_reducible apply emit_ch

theorem streamRuns_ch {P : List Part} {b₀ : State} {s : State} {capture : Bool} {n : Nat} (hP : [.fresh, .objs, .voteSecond, .funcs, .sess, .snd, .grog, .notes] ⊆ P) (hb₀ : Changes P b₀ s) : Changes P b₀ (streamRuns s capture n) := by
  unfold streamRuns
  repeat' first
    | with_reducible assumption
    | with_reducible apply putN_ch
    | with_reducible apply draw_ch
    | with_reducible apply modSnd_ch
    | with_reducible apply streamEvent_ch
    | ((with_reducible refine part_sub hP ?_); rfl)

theorem streamStops_ch {P : List Part} {b₀ : State} {s : State} {capture : Bool} {n : Nat} (hP : [.fresh, .objs, .voteSecond, .funcs, .sess, .grog, .notes] ⊆ P) (hb₀ : Changes P b₀ s) : Changes P b₀ (streamStops s capture n) := by
  unfold streamStops
  repeat' first
    | with_reducible assumption
    | with_reducible apply putN_ch
    | with_reducible apply streamEvent_ch
    | ((with_reducible refine part_sub hP ?_); rfl)
    | with_reducible apply ch_ite

theorem streamApply_ch {P : List Part} {b₀ : State} {s : State} {capture : Bool} {n sub v : Nat} (hP : [.fresh, .objs, .voteSecond, .funcs, .sess, .snd, .grog, .notes] ⊆ P) (hb₀ : Changes P b₀ s) : Changes P b₀ (streamApply s capture n sub v) := by
  unfold streamApply
  repeat' first
    | with_reducible assumption
    | with_reducible apply writeN_ch
    | with_reducible apply rampGain_ch
    | with_reducible apply streamRuns_ch
    | with_reducible apply streamStops_ch
    | ((with_reducible refine part_sub hP ?_); rfl)
    | (extract_lets +onlyGivenNames x; refine ch_step (P := P) (r := b₀) (x := x) ?_ (fun hx => ?_); subst x; rotate_left; clear_value x; revert x; intro _ _)
    | (extract_lets +onlyGivenNames x; clear_value x; revert x; intro _)
    | with_reducible apply ch_ite

theorem sndTryRun_ch {P : List Part} {b₀ : State} {s : State} (hP : [.fresh, .objs, .voteSecond, .funcs, .sess, .snd, .grog, .notes] ⊆ P) (hb₀ : Changes P b₀ s) : Changes P b₀ (sndTryRun s) := by
  unfold sndTryRun
  repeat' first
    | with_reducible assumption
    | with_reducible apply putN_ch
    | with_reducible apply putB_ch
    | with_reducible apply modSnd_ch
    | with_reducible apply streamRuns_ch
    | ((with_reducible refine part_sub hP ?_); rfl)
    | with_reducible apply foldl_ch
    | with_reducible apply foldl_ch1
    | (intro x a hx; try beta_reduce)
    | (extract_lets +onlyGivenNames x; refine ch_step (P := P) (r := b₀) (x := x) ?_ (fun hx => ?_); subst x; rotate_left; clear_value x; revert x; intro _ _)
    | with_reducible apply ch_ite

theorem startSound_ch {P : List Part} {b₀ : State} {s : State} (hP : [.fresh, .objs, .voteSecond, .funcs, .sess, .served, .snd, .power, .grog, .notes] ⊆ P) (hb₀ : Changes P b₀ s) : Changes P b₀ (startSound s) := by
  unfold startSound
  repeat' first
    | with_reducible assumption
    | with_reducible apply putN_ch
    | with_reducible apply writeB_ch
    | with_reducible apply settle_ch
    | with_reducible apply sndTryRun_ch
    | ((with_reducible refine part_sub hP ?_); rfl)

theorem sndQueued_ch {P : List Part} {b₀ : State} {s : State} (hP : [.fresh, .objs, .voteSecond, .funcs, .sess, .served, .transit, .snd, .power, .grog, .notes] ⊆ P) (hb₀ : Changes P b₀ s) : Changes P b₀ (sndQueued s) := by
  unfold sndQueued
  repeat' first
    | with_reducible assumption
    | with_reducible apply resolved_ch
    | with_reducible apply startSound_ch
    | ((with_reducible refine part_sub hP ?_); rfl)
    | with_reducible apply ch_ite

theorem silence_ch {P : List Part} {b₀ : State} {s : State} (hP : [.fresh, .objs, .voteSecond, .funcs, .sess, .snd, .grog, .notes] ⊆ P) (hb₀ : Changes P b₀ s) : Changes P b₀ (silence s) := by
  unfold silence
  repeat' first
    | with_reducible assumption
    | with_reducible apply putB_ch
    | with_reducible apply modSnd_ch
    | with_reducible apply streamStops_ch
    | ((with_reducible refine part_sub hP ?_); rfl)
    | with_reducible apply foldl_ch
    | with_reducible apply foldl_ch1
    | (intro x a hx; try beta_reduce)

theorem sndStopCheck_ch {P : List Part} {b₀ : State} {s : State} (hP : [.fresh, .objs, .voteSecond, .funcs, .sess, .served, .transit, .snd, .power, .grog, .notes] ⊆ P) (hb₀ : Changes P b₀ s) : Changes P b₀ (sndStopCheck s) := by
  unfold sndStopCheck
  repeat' first
    | with_reducible assumption
    | with_reducible apply putN_ch
    | with_reducible apply sndQueued_ch
    | ((with_reducible refine part_sub hP ?_); rfl)
    | with_reducible apply ch_ite

theorem shutSound_ch {P : List Part} {b₀ : State} {s : State} (hP : [.fresh, .objs, .voteSecond, .funcs, .sess, .served, .transit, .snd, .power, .grog, .notes] ⊆ P) (hb₀ : Changes P b₀ s) : Changes P b₀ (shutSound s) := by
  unfold shutSound
  repeat' first
    | with_reducible assumption
    | with_reducible apply putN_ch
    | with_reducible apply settle_ch
    | with_reducible apply silence_ch
    | with_reducible apply sndStopCheck_ch
    | ((with_reducible refine part_sub hP ?_); rfl)

theorem stopSound_ch {P : List Part} {b₀ : State} {s : State} (hP : [.fresh, .objs, .voteSecond, .funcs, .sess, .served, .transit, .snd, .power, .grog, .notes] ⊆ P) (hb₀ : Changes P b₀ s) : Changes P b₀ (stopSound s) := by
  unfold stopSound
  repeat' first
    | with_reducible assumption
    | with_reducible apply writeB_ch
    | with_reducible apply shutSound_ch
    | ((with_reducible refine part_sub hP ?_); rfl)
    | (extract_lets +onlyGivenNames x; refine ch_step (P := P) (r := b₀) (x := x) ?_ (fun hx => ?_); subst x; rotate_left; clear_value x; revert x; intro _ _)
    | with_reducible apply ch_ite

theorem sndEnableApply_ch {P : List Part} {b₀ : State} {s : State} {on : Bool} (hP : [.fresh, .objs, .voteSecond, .funcs, .sess, .served, .transit, .snd, .power, .grog, .notes] ⊆ P) (hb₀ : Changes P b₀ s) : Changes P b₀ (sndEnableApply s on).1 := by
  unfold sndEnableApply
  repeat' first
    | with_reducible assumption
    | with_reducible apply enableWrite_ch
    | with_reducible apply startSound_ch
    | with_reducible apply stopSound_ch
    | ((with_reducible refine part_sub hP ?_); rfl)
    | (intro x hx; try beta_reduce)

theorem endChime_ch {P : List Part} {b₀ : State} {s : State} (hP : [.objs, .snd] ⊆ P) (hb₀ : Changes P b₀ s) : Changes P b₀ (endChime s) := by
  unfold endChime
  repeat' first
    | with_reducible assumption
    | with_reducible apply putN_ch
    | with_reducible apply modSnd_ch
    | with_reducible apply notePast_ch
    | ((with_reducible refine part_sub hP ?_); rfl)

theorem cutSound_ch {P : List Part} {b₀ : State} {s : State} (hP : [.fresh, .objs, .voteSecond, .funcs, .sess, .served, .transit, .snd, .power, .grog, .notes] ⊆ P) (hb₀ : Changes P b₀ s) : Changes P b₀ (cutSound s) := by
  unfold cutSound
  repeat' first
    | with_reducible assumption
    | with_reducible apply putN_ch
    | with_reducible apply modSnd_ch
    | with_reducible apply silence_ch
    | with_reducible apply sndStopCheck_ch
    | with_reducible apply endChime_ch
    | ((with_reducible refine part_sub hP ?_); rfl)
    | (extract_lets +onlyGivenNames x; refine ch_step (P := P) (r := b₀) (x := x) ?_ (fun hx => ?_); subst x; rotate_left; clear_value x; revert x; intro _ _)
    | with_reducible apply ch_ite

theorem flrSound_ch {P : List Part} {b₀ : State} {s : State} {f : Nat} (hP : [.fresh, .objs, .voteSecond, .funcs, .sess, .grog, .notes] ⊆ P) (hb₀ : Changes P b₀ s) : Changes P b₀ (flrSound s f) := by
  unfold flrSound
  repeat' first
    | with_reducible assumption
    | with_reducible apply streamStops_ch
    | with_reducible apply foldl_ch
    | with_reducible apply foldl_ch1
    | (intro x a hx; try beta_reduce)
    | with_reducible apply ch_ite

theorem flrSoundDone_ch {P : List Part} {b₀ : State} {s : State} {f : Nat} (hP : [.objs] ⊆ P) (hb₀ : Changes P b₀ s) : Changes P b₀ (flrSoundDone s f) := by
  unfold flrSoundDone
  repeat' first
    | with_reducible assumption
    | with_reducible apply writeV_ch
    | with_reducible apply foldN_ch
    | with_reducible apply foldl_ch
    | with_reducible apply foldl_ch1
    | (intro x a hx; try beta_reduce)
    | with_reducible apply ch_ite

theorem freeStreams_ch {P : List Part} {b₀ : State} {s : State} {f : Nat} (hP : [.objs] ⊆ P) (hb₀ : Changes P b₀ s) : Changes P b₀ (freeStreams s f) := by
  unfold freeStreams
  repeat' first
    | with_reducible assumption
    | with_reducible apply writeN_ch
    | with_reducible apply foldl_ch
    | with_reducible apply foldl_ch1
    | (intro x a hx; try beta_reduce)
    | with_reducible apply ch_ite

theorem xrunEvent_ch {P : List Part} {b₀ : State} {s : State} {kind n : Nat} {fs : List Nat} (hP : [.fresh, .voteSecond, .funcs, .sess, .grog, .notes] ⊆ P) (hb₀ : Changes P b₀ s) : Changes P b₀ (xrunEvent s kind n fs) := by
  unfold xrunEvent
  repeat' first
    | with_reducible assumption
    | with_reducible apply draw_ch
    | with_reducible apply emit_ch
    | ((with_reducible refine part_sub hP ?_); rfl)

theorem inputPeriod_ch {P : List Part} {b₀ : State} {s : State} {i wr : Nat} (hP : [.fresh, .objs, .voteSecond, .host, .funcs, .sess, .snd, .grog, .notes] ⊆ P) (hb₀ : Changes P b₀ s) : Changes P b₀ (inputPeriod s i wr) := by
  have m_host : Part.host ∈ P := part_mem hP rfl
  unfold inputPeriod
  repeat' first
    | with_reducible assumption
    | with_reducible apply putN_ch
    | with_reducible apply bump_ch
    | with_reducible apply hostWrite_ch
    | with_reducible apply modSnd_ch
    | with_reducible apply xrunEvent_ch
    | ((with_reducible refine part_sub hP ?_); rfl)
    | with_reducible apply foldl_ch
    | with_reducible apply foldl_ch1
    | (extract_lets +onlyGivenNames x; refine ch_step (P := P) (r := b₀) (x := x) ?_ (fun hx => ?_); subst x; rotate_left; clear_value x; revert x; intro _ _)
    | fail_if_no_progress (with_reducible refine ch_host ?_ m_host)
    | with_reducible apply ch_ite

theorem ringWrite_ch {P : List Part} {b₀ : State} {s : State} {f base frames size pos : Nat} {data : List Byte} (hP : [.host, .notes] ⊆ P) (hb₀ : Changes P b₀ s) : Changes P b₀ (ringWrite s f base frames size pos data) := by
  unfold ringWrite
  repeat' first
    | with_reducible assumption
    | with_reducible apply hostWrite_ch
    | (extract_lets +onlyGivenNames x; refine ch_step (P := P) (r := b₀) (x := x) ?_ (fun hx => ?_); subst x; rotate_left; clear_value x; revert x; intro _ _)
    | (extract_lets +onlyGivenNames x; clear_value x; revert x; intro _)
    | with_reducible apply ch_ite

theorem capturePeriod_ch {P : List Part} {b₀ : State} {s : State} {tdm : TdmIn} {t0 c rd : Nat} (hP : [.fresh, .objs, .voteSecond, .host, .funcs, .sess, .snd, .grog, .notes] ⊆ P) (hb₀ : Changes P b₀ s) : Changes P b₀ (capturePeriod s tdm t0 c rd) := by
  have m_host : Part.host ∈ P := part_mem hP rfl
  unfold capturePeriod
  repeat' first
    | with_reducible assumption
    | with_reducible apply bump_ch
    | with_reducible apply hostWrite_ch
    | with_reducible apply modSnd_ch
    | with_reducible apply xrunEvent_ch
    | with_reducible apply ringWrite_ch
    | ((with_reducible refine part_sub hP ?_); rfl)
    | (extract_lets +onlyGivenNames x; refine ch_step (P := P) (r := b₀) (x := x) ?_ (fun hx => ?_); subst x; rotate_left; clear_value x; revert x; intro _ _)
    | (extract_lets +onlyGivenNames x; clear_value x; revert x; intro _)
    | fail_if_no_progress (with_reducible refine ch_host ?_ m_host)
    | with_reducible apply ch_ite

theorem execAudioPeriod_ch {P : List Part} {b₀ : State} {a : AudioIn} {s : State} (hP : [.fresh, .objs, .voteSecond, .host, .funcs, .sess, .snd, .grog, .notes] ⊆ P) (hb₀ : Changes P b₀ s) : ChangesAll P b₀ (execAudioPeriod a s) := by
  unfold execAudioPeriod
  repeat' first
    | with_reducible assumption
    | with_reducible apply modSnd_ch
    | with_reducible apply formOutputs_ch
    | with_reducible apply inputPeriod_ch
    | with_reducible apply capturePeriod_ch
    | ((with_reducible refine part_sub hP ?_); rfl)
    | with_reducible apply changes_next
    | with_reducible apply changes_fault
    | with_reducible apply foldN_ch
    | (intro x a hx; try beta_reduce)
    | (extract_lets +onlyGivenNames x; refine ch_step (P := P) (r := b₀) (x := x) ?_ (fun hx => ?_); subst x; rotate_left; clear_value x; revert x; intro _ _)
    | (extract_lets +onlyGivenNames x; clear_value x; revert x; intro _)
    | with_reducible apply ch_ite
    | with_reducible apply changes_ite

theorem execAvtpPacketRx_ch {P : List Part} {b₀ : State} {listener : Fin 8} {presentation : BitVec 64} {samples : List (BitVec 24)} {s : State} (hP : [.fresh, .voteSecond, .funcs, .sess, .snd, .grog, .notes] ⊆ P) (hb₀ : Changes P b₀ s) : ChangesAll P b₀ (execAvtpPacketRx listener presentation samples s) := by
  unfold execAvtpPacketRx
  repeat' first
    | with_reducible assumption
    | with_reducible apply modSnd_ch
    | with_reducible apply xrunEvent_ch
    | ((with_reducible refine part_sub hP ?_); rfl)
    | with_reducible apply changes_next
    | with_reducible apply changes_fault
    | (extract_lets +onlyGivenNames x; refine ch_step (P := P) (r := b₀) (x := x) ?_ (fun hx => ?_); subst x; rotate_left; clear_value x; revert x; intro _ _)
    | (extract_lets +onlyGivenNames x; clear_value x; revert x; intro _)
    | with_reducible apply ch_ite
    | with_reducible apply changes_ite

theorem execAvtpPacketTx_ch {P : List Part} {b₀ : State} {talker : Fin 8} {s : State} (hP : [.snd] ⊆ P) (hb₀ : Changes P b₀ s) : ChangesAll P b₀ (execAvtpPacketTx talker s) := by
  unfold execAvtpPacketTx
  repeat' first
    | with_reducible assumption
    | with_reducible apply modSnd_ch
    | with_reducible apply changes_next
    | with_reducible apply changes_fault
    | (extract_lets +onlyGivenNames x; clear_value x; revert x; intro _)
    | with_reducible apply ch_ite
    | with_reducible apply changes_ite

theorem execClockLockChange_ch {P : List Part} {b₀ : State} {locked : Bool} {s : State} (hP : [.objs] ⊆ P) (hb₀ : Changes P b₀ s) : ChangesAll P b₀ (execClockLockChange locked s) := by
  unfold execClockLockChange
  repeat' first
    | with_reducible assumption
    | with_reducible apply putB_ch
    | with_reducible apply changes_next
    | with_reducible apply changes_fault
    | with_reducible apply ch_ite

theorem execChimeStart_ch {P : List Part} {b₀ : State} {clip : Fin 16} {repeats : BitVec 8} {s : State} (hP : [.objs, .snd] ⊆ P) (hb₀ : Changes P b₀ s) : ChangesAll P b₀ (execChimeStart clip repeats s) := by
  unfold execChimeStart
  repeat' first
    | with_reducible assumption
    | with_reducible apply putN_ch
    | with_reducible apply modSnd_ch
    | with_reducible apply notePast_ch
    | ((with_reducible refine part_sub hP ?_); rfl)
    | with_reducible apply changes_next
    | with_reducible apply changes_fault
    | with_reducible apply ch_ite
    | with_reducible apply changes_ite

theorem execChimeStop_ch {P : List Part} {b₀ : State} {s : State} (hP : [.objs, .snd] ⊆ P) (hb₀ : Changes P b₀ s) : ChangesAll P b₀ (execChimeStop s) := by
  unfold execChimeStop
  repeat' first
    | with_reducible assumption
    | with_reducible apply endChime_ch
    | with_reducible apply changes_next
    | with_reducible apply changes_fault
    | with_reducible apply ch_ite
    | with_reducible apply changes_ite

theorem execChimeEnd_ch {P : List Part} {b₀ : State} {s : State} (hP : [.objs, .snd] ⊆ P) (hb₀ : Changes P b₀ s) : ChangesAll P b₀ (execChimeEnd s) := by
  unfold execChimeEnd
  repeat' first
    | with_reducible assumption
    | with_reducible apply endChime_ch
    | with_reducible apply changes_next
    | with_reducible apply changes_fault
    | (extract_lets +onlyGivenNames x; clear_value x; revert x; intro _)
    | with_reducible apply ch_ite
    | with_reducible apply changes_ite
    | split

end Sys2Proof.Machine
end

