-- ==== Sys2Proof/Laws/ChangesTouch.lean ====
section
/-!
SUPPORT. What each operation of Machine/Touch.lean may change.
-/

namespace Sys2Proof.Machine

theorem modPanel_ch {P : List Part} {b₀ : State} {s : State} {p : Nat} {g : Panel → Panel} (hP : [.panels] ⊆ P) (hb₀ : Changes P b₀ s) : Changes P b₀ (modPanel s p g) := by
  have m_panels : Part.panels ∈ P := part_mem hP rfl
  unfold modPanel
  repeat' first
    | with_reducible assumption
    | fail_if_no_progress (with_reducible refine ch_panels ?_ m_panels)

theorem writeReport_ch {P : List Part} {b₀ : State} {s : State} {p f : Nat} {b : TouchBuffer} {rs : List (Contact × Nat)} {palm beyond : Bool} (hP : [.fresh, .voteSecond, .host, .funcs, .sess, .panels, .grog, .notes] ⊆ P) (hb₀ : Changes P b₀ s) : Changes P b₀ (writeReport s p f b rs palm beyond) := by
  have m_fresh : Part.fresh ∈ P := part_mem hP rfl
  unfold writeReport
  repeat' first
    | with_reducible assumption
    | with_reducible apply emit_ch
    | with_reducible apply hostWrite_ch
    | with_reducible apply modPanel_ch
    | ((with_reducible refine part_sub hP ?_); rfl)
    | fail_if_no_progress (with_reducible refine ch_fresh ?_ m_fresh)

theorem writeReports_ch {P : List Part} {b₀ : State} {s : State} {p : Nat} {rs : List (Contact × Nat)} {beyond : Bool} {latency : Nat} (hP : [.fresh, .objs, .voteSecond, .host, .funcs, .sess, .panels, .grog, .notes] ⊆ P) (hb₀ : Changes P b₀ s) : Changes P b₀ (writeReports s p rs beyond latency) := by
  unfold writeReports
  repeat' first
    | with_reducible assumption
    | with_reducible apply putN_ch
    | with_reducible apply writeReport_ch
    | ((with_reducible refine part_sub hP ?_); rfl)
    | with_reducible apply foldl_ch
    | with_reducible apply foldl_ch1
    | (intro x a hx; try beta_reduce)
    | (extract_lets +onlyGivenNames x; refine ch_step (P := P) (r := b₀) (x := x) ?_ (fun hx => ?_); subst x; rotate_left; clear_value x; revert x; intro _ _)
    | (extract_lets +onlyGivenNames x; clear_value x; revert x; intro _)
    | with_reducible apply ch_ite

theorem releaseBuffer_ch {P : List Part} {b₀ : State} {s : State} {p f : Nat} (hP : [.fresh, .voteSecond, .host, .funcs, .sess, .rings, .panels, .grog, .notes] ⊆ P) (hb₀ : Changes P b₀ s) : Changes P b₀ (releaseBuffer s p f) := by
  unfold releaseBuffer
  repeat' first
    | with_reducible assumption
    | with_reducible apply complete_ch
    | with_reducible apply modPanel_ch
    | ((with_reducible refine part_sub hP ?_); rfl)
    | with_reducible apply ch_ite
    | split

theorem showSuspects_ch {P : List Part} {b₀ : State} {s : State} {p : Nat} (hP : [.objs] ⊆ P) (hb₀ : Changes P b₀ s) : Changes P b₀ (showSuspects s p) := by
  unfold showSuspects
  repeat' first
    | with_reducible assumption
    | with_reducible apply putN_ch

theorem recalStep_ch {P : List Part} {b₀ : State} {s : State} {p : Nat} (hP : [.objs, .panels] ⊆ P) (hb₀ : Changes P b₀ s) : Changes P b₀ (recalStep s p) := by
  unfold recalStep
  repeat' first
    | with_reducible assumption
    | with_reducible apply bump_ch
    | with_reducible apply modPanel_ch
    | ((with_reducible refine part_sub hP ?_); rfl)
    | with_reducible apply foldl_ch
    | with_reducible apply foldl_ch1
    | (intro x a hx; try beta_reduce)
    | with_reducible apply ch_ite
    | split

theorem recalBegin_ch {P : List Part} {b₀ : State} {s : State} {p grid n : Nat} (hP : [.objs, .panels] ⊆ P) (hb₀ : Changes P b₀ s) : Changes P b₀ (recalBegin s p grid n) := by
  unfold recalBegin
  repeat' first
    | with_reducible assumption
    | with_reducible apply bump_ch
    | with_reducible apply modPanel_ch
    | ((with_reducible refine part_sub hP ?_); rfl)
    | with_reducible apply foldN_ch
    | (intro x a hx; try beta_reduce)
    | with_reducible apply ch_ite

theorem beginContact_ch {P : List Part} {b₀ : State} {s : State} {p : Nat} {used : List Nat} {o : TouchObject} {suspect : Bool} (hP : [.fresh, .objs, .voteSecond, .host, .funcs, .sess, .rings, .hap, .grog, .notes] ⊆ P) (hb₀ : Changes P b₀ s) : Changes P b₀ (beginContact s p used o suspect).1 := by
  unfold beginContact
  repeat' first
    | with_reducible assumption
    | with_reducible apply zoneEffect_ch
    | (extract_lets +onlyGivenNames x; clear_value x; revert x; intro _)
    | with_reducible apply ch_ite
    | with_reducible apply ch_ite1
    | split

theorem contactStep_ch {P : List Part} {b₀ : State} {s : State} {p : Nat} (hP : [.fresh, .objs, .voteSecond, .host, .funcs, .sess, .rings, .hap, .panels, .grog, .notes] ⊆ P) (hb₀ : Changes P b₀ s) : Changes P b₀ (contactStep s p).1 := by
  unfold contactStep
  repeat' first
    | with_reducible assumption
    | with_reducible apply hf1
    | with_reducible apply hf2
    | with_reducible apply hf3
    | with_reducible apply putN_ch
    | with_reducible apply bumpBy_ch
    | with_reducible apply modPanel_ch
    | with_reducible apply beginContact_ch
    | ((with_reducible refine part_sub hP ?_); rfl)
    | with_reducible apply foldl_ch
    | with_reducible apply foldl_ch1
    | (intro x a hx; try beta_reduce)

theorem panelFails_ch {P : List Part} {b₀ : State} {s : State} {p : Nat} (hP : [.fresh, .objs, .voteSecond, .funcs, .sess, .frames, .panels, .grog, .notes] ⊆ P) (hb₀ : Changes P b₀ s) : Changes P b₀ (panelFails s p) := by
  unfold panelFails
  repeat' first
    | with_reducible assumption
    | with_reducible apply putN_ch
    | with_reducible apply emit_ch
    | with_reducible apply updateHealth_ch
    | with_reducible apply modPanel_ch
    | ((with_reducible refine part_sub hP ?_); rfl)

theorem rebuildLine_ch {P : List Part} {b₀ : State} {s : State} {p l : Nat} (hP : [.objs, .panels] ⊆ P) (hb₀ : Changes P b₀ s) : Changes P b₀ (rebuildLine s p l) := by
  unfold rebuildLine
  repeat' first
    | with_reducible assumption
    | with_reducible apply modPanel_ch
    | with_reducible apply showSuspects_ch
    | ((with_reducible refine part_sub hP ?_); rfl)

theorem spareChannel_ch {P : List Part} {b₀ : State} {s : State} {p c ch : Nat} {ok : Nat → Bool} {cause : Nat} (hP : [.fresh, .objs, .voteSecond, .funcs, .sess, .frames, .panels, .grog, .notes] ⊆ P) (hb₀ : Changes P b₀ s) : Changes P b₀ (spareChannel s p c ch ok cause).1 := by
  unfold spareChannel
  repeat' first
    | with_reducible assumption
    | with_reducible apply putV_ch
    | with_reducible apply putN_ch
    | with_reducible apply advanceLogGen_ch
    | with_reducible apply substitute_ch
    | with_reducible apply retireUnit_ch
    | with_reducible apply failSpare_ch
    | with_reducible apply trySpares_ch
    | with_reducible apply rebuildLine_ch
    | ((with_reducible refine part_sub hP ?_); rfl)
    | (extract_lets +onlyGivenNames x; refine ch_step (P := P) (r := b₀) (x := x) ?_ (fun hx => ?_); subst x; rotate_left; clear_value x; revert x; intro _ _)
    | (extract_lets +onlyGivenNames x; clear_value x; revert x; intro _)
    | with_reducible refine ch_fst (by with_reducible assumption) ?_
    | with_reducible apply ch_ite
    | with_reducible apply ch_ite1
    | split

theorem selfTest_ch {P : List Part} {b₀ : State} {s : State} {p : Nat} {t : PanelTest} (hP : [.fresh, .objs, .voteSecond, .funcs, .sess, .frames, .panels, .grog, .notes] ⊆ P) (hb₀ : Changes P b₀ s) : Changes P b₀ (selfTest s p t).1 := by
  unfold selfTest
  repeat' first
    | with_reducible assumption
    | with_reducible apply putV_ch
    | with_reducible apply putN_ch
    | with_reducible apply emit_ch
    | with_reducible apply spareChannel_ch
    | ((with_reducible refine part_sub hP ?_); rfl)
    | with_reducible apply foldl_ch
    | with_reducible apply foldl_ch1
    | (intro x a hx; try beta_reduce)
    | with_reducible refine ch_fst (by with_reducible assumption) ?_
    | with_reducible apply ch_ite

theorem acquire_ch {P : List Part} {b₀ : State} {s : State} {p : Nat} {t : PanelTest} (hP : [.fresh, .objs, .voteSecond, .funcs, .sess, .panels, .grog, .notes] ⊆ P) (hb₀ : Changes P b₀ s) : Changes P b₀ (acquire s p t) := by
  have m_fresh : Part.fresh ∈ P := part_mem hP rfl
  unfold acquire
  repeat' first
    | with_reducible assumption
    | with_reducible apply emit_ch
    | with_reducible apply modPanel_ch
    | with_reducible apply showSuspects_ch
    | ((with_reducible refine part_sub hP ?_); rfl)
    | (extract_lets +onlyGivenNames x; refine ch_step (P := P) (r := b₀) (x := x) ?_ (fun hx => ?_); subst x; rotate_left; clear_value x; revert x; intro _ _)
    | (extract_lets +onlyGivenNames x; clear_value x; revert x; intro _)
    | fail_if_no_progress (with_reducible refine ch_fresh ?_ m_fresh)
    | with_reducible apply ch_ite

theorem startPanel_ch {P : List Part} {b₀ : State} {s : State} {p : Nat} (hP : [.objs, .served, .power] ⊆ P) (hb₀ : Changes P b₀ s) : Changes P b₀ (startPanel s p) := by
  unfold startPanel
  repeat' first
    | with_reducible assumption
    | with_reducible apply putN_ch
    | with_reducible apply writeB_ch
    | with_reducible apply settle_ch
    | ((with_reducible refine part_sub hP ?_); rfl)

theorem panelQueued_ch {P : List Part} {b₀ : State} {s : State} {p : Nat} (hP : [.fresh, .objs, .voteSecond, .funcs, .sess, .served, .transit, .power, .grog, .notes] ⊆ P) (hb₀ : Changes P b₀ s) : Changes P b₀ (panelQueued s p) := by
  unfold panelQueued
  repeat' first
    | with_reducible assumption
    | with_reducible apply resolved_ch
    | with_reducible apply startPanel_ch
    | ((with_reducible refine part_sub hP ?_); rfl)
    | (extract_lets +onlyGivenNames x; clear_value x; revert x; intro _)
    | with_reducible apply ch_ite

theorem shutPanel_ch {P : List Part} {b₀ : State} {s : State} {p : Nat} (hP : [.fresh, .objs, .voteSecond, .host, .funcs, .sess, .served, .rings, .panels, .power, .grog, .notes] ⊆ P) (hb₀ : Changes P b₀ s) : Changes P b₀ (shutPanel s p) := by
  unfold shutPanel
  repeat' first
    | with_reducible assumption
    | with_reducible apply putN_ch
    | with_reducible apply settle_ch
    | with_reducible apply modPanel_ch
    | with_reducible apply writeReports_ch
    | with_reducible apply releaseBuffer_ch
    | ((with_reducible refine part_sub hP ?_); rfl)
    | with_reducible apply foldl_ch
    | with_reducible apply foldl_ch1
    | (intro x a hx; try beta_reduce)
    | with_reducible apply ch_ite

theorem stopPanel_ch {P : List Part} {b₀ : State} {s : State} {p : Nat} (hP : [.fresh, .objs, .voteSecond, .host, .funcs, .sess, .served, .rings, .panels, .power, .grog, .notes] ⊆ P) (hb₀ : Changes P b₀ s) : Changes P b₀ (stopPanel s p) := by
  unfold stopPanel
  repeat' first
    | with_reducible assumption
    | with_reducible apply writeB_ch
    | with_reducible apply shutPanel_ch
    | ((with_reducible refine part_sub hP ?_); rfl)
    | (extract_lets +onlyGivenNames x; refine ch_step (P := P) (r := b₀) (x := x) ?_ (fun hx => ?_); subst x; rotate_left; clear_value x; revert x; intro _ _)
    | with_reducible apply ch_ite

theorem cutPanel_ch {P : List Part} {b₀ : State} {s : State} {p : Nat} (hP : [.fresh, .objs, .voteSecond, .host, .funcs, .sess, .rings, .panels, .grog, .notes] ⊆ P) (hb₀ : Changes P b₀ s) : Changes P b₀ (cutPanel s p) := by
  unfold cutPanel
  repeat' first
    | with_reducible assumption
    | with_reducible apply putN_ch
    | with_reducible apply modPanel_ch
    | with_reducible apply releaseBuffer_ch
    | ((with_reducible refine part_sub hP ?_); rfl)
    | with_reducible apply foldl_ch
    | with_reducible apply foldl_ch1
    | (intro x a hx; try beta_reduce)
    | (extract_lets +onlyGivenNames x; refine ch_step (P := P) (r := b₀) (x := x) ?_ (fun hx => ?_); subst x; rotate_left; clear_value x; revert x; intro _ _)
    | with_reducible apply ch_ite

theorem leaveDrift_ch {P : List Part} {b₀ : State} {s : State} {p : Nat} (hP : [.objs, .panels] ⊆ P) (hb₀ : Changes P b₀ s) : Changes P b₀ (leaveDrift s p) := by
  unfold leaveDrift
  repeat' first
    | with_reducible assumption
    | with_reducible apply putN_ch
    | with_reducible apply modPanel_ch
    | ((with_reducible refine part_sub hP ?_); rfl)
    | with_reducible apply ch_ite

theorem touchRegionLost_ch {P : List Part} {b₀ : State} {s : State} {f p : Nat} (hP : [.fresh, .voteSecond, .host, .funcs, .sess, .rings, .panels, .grog, .notes] ⊆ P) (hb₀ : Changes P b₀ s) : Changes P b₀ (touchRegionLost s f p) := by
  unfold touchRegionLost
  repeat' first
    | with_reducible assumption
    | with_reducible apply releaseBuffer_ch
    | with_reducible apply ch_ite

theorem flrTouch_ch {P : List Part} {b₀ : State} {s : State} {f : Nat} (hP : [.panels] ⊆ P) (hb₀ : Changes P b₀ s) : Changes P b₀ (flrTouch s f) := by
  unfold flrTouch
  repeat' first
    | with_reducible assumption
    | with_reducible apply modPanel_ch
    | with_reducible apply foldN_ch
    | (intro x a hx; try beta_reduce)

theorem panelApply_ch {P : List Part} {b₀ : State} {s : State} {p sub : Nat} {v : Val} (hP : [.fresh, .objs, .voteSecond, .host, .funcs, .sess, .served, .transit, .rings, .panels, .power, .grog, .notes] ⊆ P) (hb₀ : Changes P b₀ s) : Changes P b₀ (panelApply s p sub v).1 := by
  unfold panelApply
  repeat' first
    | with_reducible assumption
    | with_reducible apply writeV_ch
    | with_reducible apply enableWrite_ch
    | with_reducible apply startPanel_ch
    | with_reducible apply stopPanel_ch
    | with_reducible apply leaveDrift_ch
    | ((with_reducible refine part_sub hP ?_); rfl)
    | (intro x hx; try beta_reduce)
    | (extract_lets +onlyGivenNames x; clear_value x; revert x; intro _)
    | with_reducible apply ch_ite
    | with_reducible apply ch_ite1

theorem captureApply_ch {P : List Part} {b₀ : State} {s : State} {p sub : Nat} {v : Val} (hP : [.fresh, .objs, .panels] ⊆ P) (hb₀ : Changes P b₀ s) : Changes P b₀ (captureApply s p sub v) := by
  have m_fresh : Part.fresh ∈ P := part_mem hP rfl
  unfold captureApply
  repeat' first
    | with_reducible assumption
    | with_reducible apply writeV_ch
    | with_reducible apply modPanel_ch
    | with_reducible apply leaveDrift_ch
    | ((with_reducible refine part_sub hP ?_); rfl)
    | (extract_lets +onlyGivenNames x; refine ch_step (P := P) (r := b₀) (x := x) ?_ (fun hx => ?_); subst x; rotate_left; clear_value x; revert x; intro _ _)
    | fail_if_no_progress (with_reducible refine ch_fresh ?_ m_fresh)
    | with_reducible apply ch_ite

theorem checkChannels_ch {P : List Part} {b₀ : State} {s : State} {p : Nat} {oks : List (Bool × Bool × Bool)} (hP : [.fresh, .objs, .voteSecond, .funcs, .sess, .frames, .panels, .grog, .notes] ⊆ P) (hb₀ : Changes P b₀ s) : Changes P b₀ (checkChannels s p oks).1 := by
  unfold checkChannels
  repeat' first
    | with_reducible assumption
    | with_reducible apply modPanel_ch
    | with_reducible apply spareChannel_ch
    | ((with_reducible refine part_sub hP ?_); rfl)
    | with_reducible apply foldl_ch
    | with_reducible apply foldl_ch1
    | (intro x a hx; try beta_reduce)
    | (extract_lets +onlyGivenNames x; refine ch_step (P := P) (r := b₀) (x := x) ?_ (fun hx => ?_); subst x; rotate_left; clear_value x; revert x; intro _ _)
    | (extract_lets +onlyGivenNames x; clear_value x; revert x; intro _)
    | with_reducible refine ch_fst (by with_reducible assumption) ?_
    | with_reducible apply ch_ite
    | with_reducible apply ch_ite1

theorem execTouchFrameMark_ch {P : List Part} {b₀ : State} {panel : Fin 4} {f : TouchFrame} {s : State} (hP : [.fresh, .objs, .voteSecond, .host, .funcs, .sess, .frames, .rings, .hap, .panels, .grog, .notes] ⊆ P) (hb₀ : Changes P b₀ s) : ChangesAll P b₀ (execTouchFrameMark panel f s) := by
  have m_fresh : Part.fresh ∈ P := part_mem hP rfl
  unfold execTouchFrameMark
  repeat' first
    | with_reducible assumption
    | with_reducible apply hf1
    | with_reducible apply hf2
    | with_reducible apply hf3
    | with_reducible apply putN_ch
    | with_reducible apply modPanel_ch
    | with_reducible apply writeReports_ch
    | with_reducible apply showSuspects_ch
    | with_reducible apply recalStep_ch
    | with_reducible apply recalBegin_ch
    | with_reducible apply contactStep_ch
    | with_reducible apply panelFails_ch
    | with_reducible apply checkChannels_ch
    | ((with_reducible refine part_sub hP ?_); rfl)
    | with_reducible apply changes_next
    | with_reducible apply changes_fault
    | (extract_lets +onlyGivenNames x; refine ch_step (P := P) (r := b₀) (x := x) ?_ (fun hx => ?_); subst x; rotate_left; clear_value x; revert x; intro _ _)
    | (extract_lets +onlyGivenNames x; clear_value x; revert x; intro _)
    | with_reducible refine ch_fst (by with_reducible assumption) ?_
    | fail_if_no_progress (with_reducible refine ch_fresh ?_ m_fresh)
    | with_reducible apply ch_ite
    | with_reducible apply changes_ite

theorem execStuckTimeout_ch {P : List Part} {b₀ : State} {panel : Fin 4} {id : Fin 16} {s : State} (hP : [.fresh, .objs, .voteSecond, .funcs, .sess, .panels, .grog, .notes] ⊆ P) (hb₀ : Changes P b₀ s) : ChangesAll P b₀ (execStuckTimeout panel id s) := by
  unfold execStuckTimeout
  repeat' first
    | with_reducible assumption
    | with_reducible apply putN_ch
    | with_reducible apply bump_ch
    | with_reducible apply emit_ch
    | with_reducible apply modPanel_ch
    | with_reducible apply showSuspects_ch
    | ((with_reducible refine part_sub hP ?_); rfl)
    | with_reducible apply changes_next
    | with_reducible apply changes_fault
    | with_reducible apply foldl_ch
    | with_reducible apply foldl_ch1
    | (extract_lets +onlyGivenNames x; refine ch_step (P := P) (r := b₀) (x := x) ?_ (fun hx => ?_); subst x; rotate_left; clear_value x; revert x; intro _ _)
    | (extract_lets +onlyGivenNames x; clear_value x; revert x; intro _)
    | with_reducible apply ch_ite
    | with_reducible apply changes_ite
    | split

theorem execDriftEntry_ch {P : List Part} {b₀ : State} {panel : Fin 4} {s : State} (hP : [.objs, .panels] ⊆ P) (hb₀ : Changes P b₀ s) : ChangesAll P b₀ (execDriftEntry panel s) := by
  unfold execDriftEntry
  repeat' first
    | with_reducible assumption
    | with_reducible apply putN_ch
    | with_reducible apply modPanel_ch
    | ((with_reducible refine part_sub hP ?_); rfl)
    | with_reducible apply changes_next
    | with_reducible apply changes_fault
    | (extract_lets +onlyGivenNames x; clear_value x; revert x; intro _)
    | with_reducible apply ch_ite
    | with_reducible apply changes_ite

theorem execDriftFrame_ch {P : List Part} {b₀ : State} {panel : Fin 4} {groups : List (BitVec 12)} {chanOk : List (Bool × Bool × Bool)} {s : State} (hP : [.fresh, .objs, .voteSecond, .funcs, .sess, .frames, .panels, .grog, .notes] ⊆ P) (hb₀ : Changes P b₀ s) : ChangesAll P b₀ (execDriftFrame panel groups chanOk s) := by
  unfold execDriftFrame
  repeat' first
    | with_reducible assumption
    | with_reducible apply bump_ch
    | with_reducible apply modPanel_ch
    | with_reducible apply panelFails_ch
    | with_reducible apply leaveDrift_ch
    | with_reducible apply checkChannels_ch
    | ((with_reducible refine part_sub hP ?_); rfl)
    | with_reducible apply changes_next
    | with_reducible apply changes_fault
    | (extract_lets +onlyGivenNames x; refine ch_step (P := P) (r := b₀) (x := x) ?_ (fun hx => ?_); subst x; rotate_left; clear_value x; revert x; intro _ _)
    | (extract_lets +onlyGivenNames x; clear_value x; revert x; intro _)
    | with_reducible refine ch_fst (by with_reducible assumption) ?_
    | with_reducible apply ch_ite
    | with_reducible apply changes_ite

theorem execPanelStartDone_ch {P : List Part} {b₀ : State} {panel : Fin 4} {t : PanelTest} {s : State} (hP : [.fresh, .objs, .voteSecond, .funcs, .sess, .frames, .panels, .grog, .notes] ⊆ P) (hb₀ : Changes P b₀ s) : ChangesAll P b₀ (execPanelStartDone panel t s) := by
  unfold execPanelStartDone
  repeat' first
    | with_reducible assumption
    | with_reducible apply putN_ch
    | with_reducible apply updateHealth_ch
    | with_reducible apply modPanel_ch
    | with_reducible apply panelFails_ch
    | with_reducible apply selfTest_ch
    | with_reducible apply acquire_ch
    | ((with_reducible refine part_sub hP ?_); rfl)
    | with_reducible apply changes_next
    | with_reducible apply changes_fault
    | with_reducible apply foldN_ch
    | (intro x a hx; try beta_reduce)
    | (extract_lets +onlyGivenNames x; refine ch_step (P := P) (r := b₀) (x := x) ?_ (fun hx => ?_); subst x; rotate_left; clear_value x; revert x; intro _ _)
    | (extract_lets +onlyGivenNames x; clear_value x; revert x; intro _)
    | with_reducible refine ch_fst (by with_reducible assumption) ?_
    | with_reducible apply ch_ite
    | with_reducible apply changes_ite

theorem execPanelStopDone_ch {P : List Part} {b₀ : State} {panel : Fin 4} {s : State} (hP : [.fresh, .objs, .voteSecond, .funcs, .sess, .frames, .served, .transit, .power, .grog, .notes] ⊆ P) (hb₀ : Changes P b₀ s) : ChangesAll P b₀ (execPanelStopDone panel s) := by
  unfold execPanelStopDone
  repeat' first
    | with_reducible assumption
    | with_reducible apply putN_ch
    | with_reducible apply settle_ch
    | with_reducible apply updateHealth_ch
    | with_reducible apply panelQueued_ch
    | ((with_reducible refine part_sub hP ?_); rfl)
    | with_reducible apply changes_next
    | with_reducible apply changes_fault
    | (extract_lets +onlyGivenNames x; clear_value x; revert x; intro _)
    | with_reducible apply ch_ite
    | with_reducible apply changes_ite

theorem execTouchBuf_ch {P : List Part} {b₀ : State} {h : CmdHdr} {b : TouchBufPayload} {s : State} (hP : [.fresh, .objs, .votes, .voteSecond, .host, .funcs, .sess, .rings, .panels, .grog, .notes] ⊆ P) (hb₀ : Changes P b₀ s) : ChangesAll P b₀ (execTouchBuf h b s) := by
  unfold execTouchBuf
  repeat' first
    | with_reducible assumption
    | with_reducible apply completeOpen_ch
    | with_reducible apply beginCmd_ch
    | with_reducible apply modPanel_ch
    | with_reducible apply releaseBuffer_ch
    | with_reducible apply leaveDrift_ch
    | ((with_reducible refine part_sub hP ?_); rfl)
    | with_reducible apply changes_next
    | with_reducible apply changes_fault
    | (extract_lets +onlyGivenNames x; refine ch_step (P := P) (r := b₀) (x := x) ?_ (fun hx => ?_); subst x; rotate_left; clear_value x; revert x; intro _ _)
    | (extract_lets +onlyGivenNames x; clear_value x; revert x; intro _)
    | with_reducible refine ch_fst (by with_reducible assumption) ?_
    | with_reducible apply ch_ite
    | with_reducible apply changes_ite
    | split

end Sys2Proof.Machine
end

