-- ==== Sys2Proof/Laws/ChangesVfs.lean ====
section
/-!
SUPPORT. What each operation of Machine/Vfs.lean may change.
-/

namespace Sys2Proof.Machine

theorem grantApply_ch {P : List Part} {b₀ : State} {s : State} {v n x : Nat} (hP : [.objs, .tilthLog] ⊆ P) (hb₀ : Changes P b₀ s) : Changes P b₀ (grantApply s v n x) := by
  unfold grantApply
  repeat' first
    | with_reducible assumption
    | with_reducible apply writeN_ch
    | with_reducible apply arbitrate_ch
    | ((with_reducible refine part_sub hP ?_); rfl)
    | (extract_lets +onlyGivenNames x; refine ch_step (P := P) (r := b₀) (x := x) ?_ (fun hx => ?_); subst x; rotate_left; clear_value x; revert x; intro _ _)
    | with_reducible apply ch_ite

theorem regionApply_ch {P : List Part} {b₀ : State} {s : State} {touch : Bool} {v q sub x : Nat} (hP : [.fresh, .objs, .voteSecond, .host, .funcs, .sess, .rings, .panels, .grog, .notes] ⊆ P) (hb₀ : Changes P b₀ s) : Changes P b₀ (regionApply s touch v q sub x) := by
  unfold regionApply
  repeat' first
    | with_reducible assumption
    | with_reducible apply writeN_ch
    | with_reducible apply touchRegionLost_ch
    | ((with_reducible refine part_sub hP ?_); rfl)
    | (extract_lets +onlyGivenNames x; refine ch_step (P := P) (r := b₀) (x := x) ?_ (fun hx => ?_); subst x; rotate_left; clear_value x; revert x; intro _ _)
    | (extract_lets +onlyGivenNames x; clear_value x; revert x; intro _)
    | with_reducible apply ch_ite

theorem endFreeze_ch {P : List Part} {b₀ : State} {s : State} {v : Nat} (hP : [.fresh, .objs, .voteSecond, .funcs, .sess, .migs, .grog, .notes] ⊆ P) (hb₀ : Changes P b₀ s) : Changes P b₀ (endFreeze s v) := by
  have m_migs : Part.migs ∈ P := part_mem hP rfl
  unfold endFreeze
  repeat' first
    | with_reducible assumption
    | with_reducible apply putN_ch
    | with_reducible apply writeB_ch
    | with_reducible apply emit_ch
    | ((with_reducible refine part_sub hP ?_); rfl)
    | (extract_lets +onlyGivenNames x; refine ch_step (P := P) (r := b₀) (x := x) ?_ (fun hx => ?_); subst x; rotate_left; clear_value x; revert x; intro _ _)
    | (extract_lets +onlyGivenNames x; clear_value x; revert x; intro _)
    | fail_if_no_progress (with_reducible refine ch_migs ?_ m_migs)
    | with_reducible apply ch_ite

theorem flrLayers_ch {P : List Part} {b₀ : State} {s : State} {f : Nat} (hP : [.objs, .ports] ⊆ P) (hb₀ : Changes P b₀ s) : Changes P b₀ (flrLayers s f) := by
  unfold flrLayers
  repeat' first
    | with_reducible assumption
    | with_reducible apply hf1
    | with_reducible apply hf2
    | with_reducible apply hf3
    | (intro x a b hx; try beta_reduce)
    | with_reducible apply putN_ch
    | with_reducible apply writeN_ch
    | with_reducible apply modPort_ch
    | ((with_reducible refine part_sub hP ?_); rfl)
    | with_reducible apply foldN_ch
    | (intro x a hx; try beta_reduce)
    | (extract_lets +onlyGivenNames x; refine ch_step (P := P) (r := b₀) (x := x) ?_ (fun hx => ?_); subst x; rotate_left; clear_value x; revert x; intro _ _)
    | (extract_lets +onlyGivenNames x; refine ch_stepF3 (P := P) (r := b₀) (x := x) ?_ (fun hx => ?_); subst x; rotate_left; clear_value x; revert x; intro _ hf3)
    | (extract_lets +onlyGivenNames x; clear_value x; revert x; intro _)
    | with_reducible apply ch_ite

theorem flrStart_ch {P : List Part} {b₀ : State} {s : State} {f : Nat} (hP : [.fresh, .objs, .voteSecond, .host, .funcs, .sess, .freeSlots, .portals, .rings, .signals, .ctxs, .cores, .ports, .commits, .tilthLog, .hap, .panels, .migs, .grog, .notes] ⊆ P) (hb₀ : Changes P b₀ s) : Changes P b₀ (flrStart s f) := by
  have m_portals : Part.portals ∈ P := part_mem hP rfl
  have m_signals : Part.signals ∈ P := part_mem hP rfl
  have m_commits : Part.commits ∈ P := part_mem hP rfl
  unfold flrStart
  repeat' first
    | with_reducible assumption
    | with_reducible apply bump_ch
    | with_reducible apply modFunc_ch
    | with_reducible apply modRing_ch
    | with_reducible apply modCtx_ch
    | with_reducible apply closeWhere_ch
    | with_reducible apply abandonFence_ch
    | with_reducible apply arbitrate_ch
    | with_reducible apply dropCtx_ch
    | with_reducible apply flrHaptics_ch
    | with_reducible apply flrTouch_ch
    | with_reducible apply flrSound_ch
    | with_reducible apply flrSpreads_ch
    | with_reducible apply endFreeze_ch
    | with_reducible apply flrLayers_ch
    | ((with_reducible refine part_sub hP ?_); rfl)
    | with_reducible apply foldN_ch
    | (intro x a hx; try beta_reduce)
    | (extract_lets +onlyGivenNames x; clear_value x; revert x; intro _)
    | fail_if_no_progress (with_reducible refine ch_portals_signals_commits ?_ m_portals m_signals m_commits)
    | with_reducible apply ch_ite

theorem flrRing_ch {P : List Part} {b₀ : State} {s : State} {h : Nat} (hP : [.objs, .votes, .rings, .signals] ⊆ P) (hb₀ : Changes P b₀ s) : Changes P b₀ (flrRing s h) := by
  unfold flrRing
  repeat' first
    | with_reducible assumption
    | with_reducible apply writeV_ch
    | with_reducible apply modRing_ch
    | with_reducible apply disableRing_ch
    | ((with_reducible refine part_sub hP ?_); rfl)
    | with_reducible apply foldN_ch
    | (intro x a hx; try beta_reduce)

theorem flrCtx_ch {P : List Part} {b₀ : State} {s : State} {c : Nat} (hP : [.objs, .transit, .ctxs] ⊆ P) (hb₀ : Changes P b₀ s) : Changes P b₀ (flrCtx s c) := by
  unfold flrCtx
  repeat' first
    | with_reducible assumption
    | with_reducible apply putV_ch
    | with_reducible apply putN_ch
    | with_reducible apply writeV_ch
    | with_reducible apply dropTransit_ch
    | with_reducible apply modCtx_ch
    | ((with_reducible refine part_sub hP ?_); rfl)
    | with_reducible apply foldN_ch
    | (intro x a hx; try beta_reduce)

theorem flrFence_ch {P : List Part} {b₀ : State} {s : State} {i : Nat} (hP : [.objs, .fenceGen] ⊆ P) (hb₀ : Changes P b₀ s) : Changes P b₀ (flrFence s i) := by
  have m_fenceGen : Part.fenceGen ∈ P := part_mem hP rfl
  unfold flrFence
  repeat' first
    | with_reducible assumption
    | with_reducible apply writeN_ch
    | with_reducible apply freeFence_ch
    | ((with_reducible refine part_sub hP ?_); rfl)
    | (extract_lets +onlyGivenNames x; refine ch_step (P := P) (r := b₀) (x := x) ?_ (fun hx => ?_); subst x; rotate_left; clear_value x; revert x; intro _ _)
    | fail_if_no_progress (with_reducible refine ch_fenceGen ?_ m_fenceGen)

theorem flrSurfaces_ch {P : List Part} {b₀ : State} {s : State} {f : Nat} (hP : [.objs, .surfs, .scrubs] ⊆ P) (hb₀ : Changes P b₀ s) : Changes P b₀ (flrSurfaces s f) := by
  unfold flrSurfaces
  repeat' first
    | with_reducible assumption
    | with_reducible apply modSurf_ch
    | with_reducible apply releaseReset_ch
    | ((with_reducible refine part_sub hP ?_); rfl)
    | with_reducible apply foldN_ch
    | (intro x a hx; try beta_reduce)

theorem releaseVf_ch {P : List Part} {b₀ : State} {s : State} {v : Nat} (hP : [.objs, .ctxs, .cores] ⊆ P) (hb₀ : Changes P b₀ s) : Changes P b₀ (releaseVf s v) := by
  unfold releaseVf
  repeat' first
    | with_reducible assumption
    | with_reducible apply writeV_ch
    | with_reducible apply writeN_ch
    | with_reducible apply grantCtx_ch
    | with_reducible apply freeStreams_ch
    | ((with_reducible refine part_sub hP ?_); rfl)
    | with_reducible apply foldN_ch
    | (intro x a hx; try beta_reduce)
    | with_reducible apply ch_ite

theorem createVf_ch {P : List Part} {b₀ : State} {s : State} {v : Nat} (hP : [.objs, .funcs, .tilthLog] ⊆ P) (hb₀ : Changes P b₀ s) : Changes P b₀ (createVf s v) := by
  unfold createVf
  repeat' first
    | with_reducible assumption
    | with_reducible apply modFunc_ch
    | with_reducible apply arbitrate_ch
    | ((with_reducible refine part_sub hP ?_); rfl)

theorem vfDisabled_ch {P : List Part} {b₀ : State} {s : State} {v : Nat} (hP : [.fresh, .objs, .voteSecond, .funcs, .sess, .transit, .ctxs, .cores, .tilthLog, .grog, .notes] ⊆ P) (hb₀ : Changes P b₀ s) : Changes P b₀ (vfDisabled s v) := by
  unfold vfDisabled
  repeat' first
    | with_reducible assumption
    | with_reducible apply writeB_ch
    | with_reducible apply dropTransit_ch
    | with_reducible apply resolved_ch
    | with_reducible apply arbitrate_ch
    | with_reducible apply releaseVf_ch
    | with_reducible apply createVf_ch
    | ((with_reducible refine part_sub hP ?_); rfl)
    | (extract_lets +onlyGivenNames x; refine ch_step (P := P) (r := b₀) (x := x) ?_ (fun hx => ?_); subst x; rotate_left; clear_value x; revert x; intro _ _)
    | (extract_lets +onlyGivenNames x; clear_value x; revert x; intro _)
    | with_reducible apply ch_ite

theorem flrComplete_ch {P : List Part} {b₀ : State} {s : State} {f : Nat} (hP : [.fresh, .objs, .votes, .voteSecond, .funcs, .sess, .transit, .rings, .signals, .fenceGen, .ctxs, .cores, .surfs, .scrubs, .tilthLog, .grog, .notes] ⊆ P) (hb₀ : Changes P b₀ s) : Changes P b₀ (flrComplete s f) := by
  unfold flrComplete
  repeat' first
    | with_reducible assumption
    | with_reducible apply modFunc_ch
    | with_reducible apply emit_ch
    | with_reducible apply flrSoundDone_ch
    | with_reducible apply flrRing_ch
    | with_reducible apply flrCtx_ch
    | with_reducible apply flrFence_ch
    | with_reducible apply flrSurfaces_ch
    | with_reducible apply vfDisabled_ch
    | ((with_reducible refine part_sub hP ?_); rfl)
    | with_reducible apply foldN_ch
    | (intro x a hx; try beta_reduce)
    | (extract_lets +onlyGivenNames x; refine ch_step (P := P) (r := b₀) (x := x) ?_ (fun hx => ?_); subst x; rotate_left; clear_value x; revert x; intro _ _)
    | (extract_lets +onlyGivenNames x; clear_value x; revert x; intro _)
    | with_reducible apply ch_ite
    | split

theorem execFlrDone_ch {P : List Part} {b₀ : State} {f : Fin 65} {s : State} (hP : [.fresh, .objs, .votes, .voteSecond, .funcs, .sess, .transit, .rings, .signals, .fenceGen, .ctxs, .cores, .surfs, .scrubs, .tilthLog, .grog, .notes] ⊆ P) (hb₀ : Changes P b₀ s) : ChangesAll P b₀ (execFlrDone f s) := by
  unfold execFlrDone
  repeat' first
    | with_reducible assumption
    | with_reducible apply flrComplete_ch
    | with_reducible apply changes_next

theorem pfFlr_ch {P : List Part} {b₀ : State} {s : State} {h1 : Bool} (hP : [.fresh, .objs, .voteSecond, .host, .funcs, .sess, .freeSlots, .portals, .rings, .signals, .ctxs, .cores, .ports, .commits, .tilthLog, .hap, .panels, .migs, .grog, .notes] ⊆ P) (hb₀ : Changes P b₀ s) : Changes P b₀ (pfFlr s h1) := by
  unfold pfFlr
  repeat' first
    | with_reducible assumption
    | with_reducible apply flrStart_ch
    | with_reducible apply foldN_ch
    | (intro x a hx; try beta_reduce)
    | with_reducible apply ch_ite

theorem execPfFlr_ch {P : List Part} {b₀ : State} {h1 : Bool} {s : State} (hP : [.fresh, .objs, .voteSecond, .host, .funcs, .sess, .freeSlots, .portals, .rings, .signals, .ctxs, .cores, .ports, .commits, .tilthLog, .hap, .panels, .migs, .grog, .notes] ⊆ P) (hb₀ : Changes P b₀ s) : ChangesAll P b₀ (execPfFlr h1 s) := by
  unfold execPfFlr
  repeat' first
    | with_reducible assumption
    | with_reducible apply pfFlr_ch
    | with_reducible apply changes_next

theorem execPcieFlr_ch {P : List Part} {b₀ : State} {f : Fin 65} {s : State} (hP : [.fresh, .objs, .voteSecond, .host, .funcs, .sess, .freeSlots, .portals, .rings, .signals, .ctxs, .cores, .ports, .commits, .tilthLog, .hap, .panels, .migs, .grog, .notes] ⊆ P) (hb₀ : Changes P b₀ s) : ChangesAll P b₀ (execPcieFlr f s) := by
  unfold execPcieFlr
  repeat' first
    | with_reducible assumption
    | with_reducible apply flrStart_ch
    | with_reducible apply pfFlr_ch
    | with_reducible apply changes_next
    | with_reducible apply changes_fault
    | with_reducible apply ch_ite
    | with_reducible apply changes_ite

theorem execVfEnableClear_ch {P : List Part} {b₀ : State} {s : State} (hP : [.fresh, .objs, .voteSecond, .host, .funcs, .sess, .freeSlots, .portals, .rings, .signals, .ctxs, .cores, .ports, .commits, .tilthLog, .hap, .panels, .migs, .grog, .notes] ⊆ P) (hb₀ : Changes P b₀ s) : ChangesAll P b₀ (execVfEnableClear s) := by
  unfold execVfEnableClear
  repeat' first
    | with_reducible assumption
    | with_reducible apply flrStart_ch
    | with_reducible apply changes_next
    | with_reducible apply changes_fault
    | with_reducible apply foldN_ch
    | (intro x a hx; try beta_reduce)

theorem vfEnableApply_ch {P : List Part} {b₀ : State} {s : State} {v : Nat} {on : Bool} (hP : [.fresh, .objs, .voteSecond, .host, .funcs, .sess, .freeSlots, .portals, .transit, .rings, .signals, .ctxs, .cores, .ports, .commits, .tilthLog, .hap, .panels, .migs, .grog, .notes] ⊆ P) (hb₀ : Changes P b₀ s) : Changes P b₀ (vfEnableApply s v on).1 := by
  unfold vfEnableApply
  repeat' first
    | with_reducible assumption
    | with_reducible apply writeB_ch
    | with_reducible apply enableWrite_ch
    | with_reducible apply flrStart_ch
    | with_reducible apply createVf_ch
    | ((with_reducible refine part_sub hP ?_); rfl)
    | (intro x hx; try beta_reduce)

theorem vfFlrApply_ch {P : List Part} {b₀ : State} {s : State} {v : Nat} (hP : [.fresh, .objs, .voteSecond, .host, .funcs, .sess, .freeSlots, .portals, .rings, .signals, .ctxs, .cores, .ports, .commits, .tilthLog, .hap, .panels, .migs, .grog, .notes] ⊆ P) (hb₀ : Changes P b₀ s) : Changes P b₀ (vfFlrApply s v) := by
  unfold vfFlrApply
  repeat' first
    | with_reducible assumption
    | with_reducible apply flrStart_ch
    | with_reducible apply ch_ite

end Sys2Proof.Machine
end

