-- ==== Sys2Proof/Laws/ChangesMigration.lean ====
section
/-!
SUPPORT. What each operation of Machine/Migration.lean may change.
-/

namespace Sys2Proof.Machine

theorem sleepCtx_ch {P : List Part} {b₀ : State} {s : State} {c : Nat} (hP : [.ctxs] ⊆ P) (hb₀ : Changes P b₀ s) : Changes P b₀ (sleepCtx s c) := by
  unfold sleepCtx
  repeat' first
    | with_reducible assumption
    | with_reducible apply modCtx_ch

theorem wakeCtx_ch {P : List Part} {b₀ : State} {s : State} {c : Nat} (hP : [.ctxs] ⊆ P) (hb₀ : Changes P b₀ s) : Changes P b₀ (wakeCtx s c) := by
  unfold wakeCtx
  repeat' first
    | with_reducible assumption
    | with_reducible apply modCtx_ch

theorem freezeApply_ch {P : List Part} {b₀ : State} {s : State} {v : Nat} {on : Bool} (hP : [.fresh, .objs, .voteSecond, .host, .funcs, .sess, .frames, .served, .rings, .signals, .ctxs, .cores, .tilthLog, .ehrica, .balance, .dram, .mem, .power, .grog, .notes] ⊆ P) (hb₀ : Changes P b₀ s) : Changes P b₀ (freezeApply s v on) := by
  unfold freezeApply
  repeat' first
    | with_reducible assumption
    | with_reducible apply putN_ch
    | with_reducible apply writeB_ch
    | with_reducible apply arbitrate_ch
    | with_reducible apply ctxChanged_ch
    | with_reducible apply wakeCtx_ch
    | ((with_reducible refine part_sub hP ?_); rfl)
    | with_reducible apply foldN_ch
    | (intro x a hx; try beta_reduce)
    | (extract_lets +onlyGivenNames x; refine ch_step (P := P) (r := b₀) (x := x) ?_ (fun hx => ?_); subst x; rotate_left; clear_value x; revert x; intro _ _)
    | with_reducible apply ch_ite

theorem execFreezeDone_ch {P : List Part} {b₀ : State} {v : Fin 64} {position : List Nat} {s : State} (hP : [.fresh, .objs, .voteSecond, .funcs, .sess, .ctxs, .cores, .tilthLog, .grog, .notes] ⊆ P) (hb₀ : Changes P b₀ s) : ChangesAll P b₀ (execFreezeDone v position s) := by
  unfold execFreezeDone
  repeat' first
    | with_reducible assumption
    | with_reducible apply putN_ch
    | with_reducible apply emit_ch
    | with_reducible apply arbitrate_ch
    | with_reducible apply spillUnit_ch
    | with_reducible apply sleepCtx_ch
    | ((with_reducible refine part_sub hP ?_); rfl)
    | with_reducible apply changes_next
    | with_reducible apply changes_fault
    | with_reducible apply foldN_ch
    | (intro x a hx; try beta_reduce)
    | (extract_lets +onlyGivenNames x; refine ch_step (P := P) (r := b₀) (x := x) ?_ (fun hx => ?_); subst x; rotate_left; clear_value x; revert x; intro _ _)
    | (extract_lets +onlyGivenNames x; clear_value x; revert x; intro _)
    | with_reducible apply ch_ite
    | with_reducible apply changes_ite
    | split

theorem saveApply_ch {P : List Part} {b₀ : State} {s : State} {v : Nat} (hP : [.objs, .migs, .bodies] ⊆ P) (hb₀ : Changes P b₀ s) : Changes P b₀ (saveApply s v) := by
  have m_migs : Part.migs ∈ P := part_mem hP rfl
  have m_bodies : Part.bodies ∈ P := part_mem hP rfl
  unfold saveApply
  repeat' first
    | with_reducible assumption
    | with_reducible apply putN_ch
    | ((with_reducible refine part_sub hP ?_); rfl)
    | (extract_lets +onlyGivenNames x; refine ch_step (P := P) (r := b₀) (x := x) ?_ (fun hx => ?_); subst x; rotate_left; clear_value x; revert x; intro _ _)
    | (extract_lets +onlyGivenNames x; clear_value x; revert x; intro _)
    | with_reducible refine ch_fst (by with_reducible assumption) ?_
    | fail_if_no_progress (with_reducible refine ch_migs_bodies ?_ m_migs m_bodies)

theorem restoreApply_ch {P : List Part} {b₀ : State} {s : State} {v : Nat} (hP : [.objs, .migs] ⊆ P) (hb₀ : Changes P b₀ s) : Changes P b₀ (restoreApply s v) := by
  have m_migs : Part.migs ∈ P := part_mem hP rfl
  unfold restoreApply
  repeat' first
    | with_reducible assumption
    | with_reducible apply putN_ch
    | ((with_reducible refine part_sub hP ?_); rfl)
    | (extract_lets +onlyGivenNames x; refine ch_step (P := P) (r := b₀) (x := x) ?_ (fun hx => ?_); subst x; rotate_left; clear_value x; revert x; intro _ _)
    | (extract_lets +onlyGivenNames x; clear_value x; revert x; intro _)
    | with_reducible refine ch_fst (by with_reducible assumption) ?_
    | fail_if_no_progress (with_reducible refine ch_migs ?_ m_migs)

theorem restoreRing_ch {P : List Part} {b₀ : State} {s : State} {v h : Nat} {b : ImageBody} (hP : [.objs, .rings, .signals] ⊆ P) (hb₀ : Changes P b₀ s) : Changes P b₀ (restoreRing s v h b) := by
  have m_signals : Part.signals ∈ P := part_mem hP rfl
  unfold restoreRing
  repeat' first
    | with_reducible assumption
    | with_reducible apply writeN_ch
    | with_reducible apply modRing_ch
    | ((with_reducible refine part_sub hP ?_); rfl)
    | with_reducible apply foldl_ch
    | with_reducible apply foldl_ch1
    | (intro x a hx; try beta_reduce)
    | (extract_lets +onlyGivenNames x; refine ch_step (P := P) (r := b₀) (x := x) ?_ (fun hx => ?_); subst x; rotate_left; clear_value x; revert x; intro _ _)
    | fail_if_no_progress (with_reducible refine ch_signals ?_ m_signals)
    | with_reducible apply ch_ite
    | split

theorem restoreCtx_ch {P : List Part} {b₀ : State} {s : State} {v c : Nat} {b : ImageBody} (hP : [.objs, .ctxs, .tilthLog] ⊆ P) (hb₀ : Changes P b₀ s) : Changes P b₀ (restoreCtx s v c b) := by
  unfold restoreCtx
  repeat' first
    | with_reducible assumption
    | with_reducible apply putN_ch
    | with_reducible apply writeN_ch
    | with_reducible apply modCtx_ch
    | with_reducible apply takePool_ch
    | ((with_reducible refine part_sub hP ?_); rfl)
    | with_reducible apply foldl_ch
    | with_reducible apply foldl_ch1
    | (intro x a hx; try beta_reduce)
    | with_reducible apply ch_ite
    | split

theorem restoreSection_ch {P : List Part} {b₀ : State} {v : Nat} {s : State} {x : Nat × Nat × List Byte} (hP : [.objs, .rings, .signals, .fenceGen, .ctxs, .ports, .surfs, .tilthLog, .dram] ⊆ P) (hb₀ : Changes P b₀ s) : Changes P b₀ (restoreSection v s x) := by
  have m_fenceGen : Part.fenceGen ∈ P := part_mem hP rfl
  unfold restoreSection
  repeat' first
    | with_reducible assumption
    | with_reducible apply hf1
    | with_reducible apply hf2
    | with_reducible apply hf3
    | (intro x a b hx; try beta_reduce)
    | with_reducible apply putN_ch
    | with_reducible apply writeN_ch
    | with_reducible apply modSurf_ch
    | with_reducible apply allocSurface_ch
    | with_reducible apply commitBits_ch
    | with_reducible apply progApply_ch
    | with_reducible apply restoreRing_ch
    | with_reducible apply restoreCtx_ch
    | ((with_reducible refine part_sub hP ?_); rfl)
    | with_reducible apply foldN_ch
    | (intro x a hx; try beta_reduce)
    | (extract_lets +onlyGivenNames x; refine ch_step (P := P) (r := b₀) (x := x) ?_ (fun hx => ?_); subst x; rotate_left; clear_value x; revert x; intro _ _)
    | (extract_lets +onlyGivenNames x; refine ch_stepF3 (P := P) (r := b₀) (x := x) ?_ (fun hx => ?_); subst x; rotate_left; clear_value x; revert x; intro _ hf3)
    | (extract_lets +onlyGivenNames x; clear_value x; revert x; intro _)
    | with_reducible refine ch_fst (by with_reducible assumption) ?_
    | fail_if_no_progress (with_reducible refine ch_fenceGen ?_ m_fenceGen)
    | with_reducible apply ch_ite
    | split

theorem execImageDone_ch {P : List Part} {b₀ : State} {v : Fin 64} {s : State} (hP : [.fresh, .objs, .voteSecond, .host, .funcs, .sess, .rings, .signals, .fenceGen, .ctxs, .ports, .surfs, .tilthLog, .dram, .migs, .grog, .notes] ⊆ P) (hb₀ : Changes P b₀ s) : ChangesAll P b₀ (execImageDone v s) := by
  have m_migs : Part.migs ∈ P := part_mem hP rfl
  unfold execImageDone
  repeat' first
    | with_reducible assumption
    | with_reducible apply putN_ch
    | with_reducible apply emit_ch
    | with_reducible apply hostWrite_ch
    | with_reducible apply restoreSection_ch
    | ((with_reducible refine part_sub hP ?_); rfl)
    | with_reducible apply changes_next
    | with_reducible apply changes_fault
    | with_reducible apply foldl_ch
    | with_reducible apply foldl_ch1
    | (intro x a hx; try beta_reduce)
    | (extract_lets +onlyGivenNames x; refine ch_step (P := P) (r := b₀) (x := x) ?_ (fun hx => ?_); subst x; rotate_left; clear_value x; revert x; intro _ _)
    | (extract_lets +onlyGivenNames x; clear_value x; revert x; intro _)
    | fail_if_no_progress (with_reducible refine ch_migs ?_ m_migs)
    | with_reducible apply ch_ite
    | with_reducible apply changes_ite

theorem logApply_ch {P : List Part} {b₀ : State} {s : State} {v sub x : Nat} (hP : [.objs] ⊆ P) (hb₀ : Changes P b₀ s) : Changes P b₀ (logApply s v sub x) := by
  unfold logApply
  repeat' first
    | with_reducible assumption
    | with_reducible apply putN_ch
    | with_reducible apply writeN_ch
    | (extract_lets +onlyGivenNames x; refine ch_step (P := P) (r := b₀) (x := x) ?_ (fun hx => ?_); subst x; rotate_left; clear_value x; revert x; intro _ _)
    | (extract_lets +onlyGivenNames x; clear_value x; revert x; intro _)
    | with_reducible apply ch_ite

theorem execLogSwapDone_ch {P : List Part} {b₀ : State} {v : Fin 64} {s : State} (hP : [.fresh, .objs, .voteSecond, .funcs, .sess, .grog, .notes] ⊆ P) (hb₀ : Changes P b₀ s) : ChangesAll P b₀ (execLogSwapDone v s) := by
  unfold execLogSwapDone
  repeat' first
    | with_reducible assumption
    | with_reducible apply putN_ch
    | with_reducible apply emit_ch
    | ((with_reducible refine part_sub hP ?_); rfl)
    | with_reducible apply changes_next
    | with_reducible apply changes_fault
    | (extract_lets +onlyGivenNames x; clear_value x; revert x; intro _)
    | with_reducible apply ch_ite
    | with_reducible apply changes_ite

end Sys2Proof.Machine
end

