-- ==== Sys2Proof/Laws/ChangesStored.lean ====
section
/-!
SUPPORT. What each operation of Machine/Stored.lean may change.
-/

namespace Sys2Proof.Machine

theorem storeKey_ch {P : List Part} {b₀ : State} {s : State} {k : Nat} {v : Val} (hP : [.fresh, .objs, .mram, .voteSecond, .funcs, .sess, .frames, .grog, .notes] ⊆ P) (hb₀ : Changes P b₀ s) : Changes P b₀ (storeKey s k v).1 := by
  have m_mram : Part.mram ∈ P := part_mem hP rfl
  unfold storeKey
  repeat' first
    | with_reducible assumption
    | with_reducible apply mramWriteRow_ch
    | ((with_reducible refine part_sub hP ?_); rfl)
    | (extract_lets +onlyGivenNames x; clear_value x; revert x; intro _)
    | fail_if_no_progress (with_reducible refine ch_mram ?_ m_mram)
    | with_reducible apply ch_ite
    | with_reducible apply ch_ite1

theorem writeStored_ch {P : List Part} {b₀ : State} {s : State} {k : Nat} {v : Val} (hP : [.fresh, .objs, .mram, .voteSecond, .funcs, .sess, .frames, .grog, .notes] ⊆ P) (hb₀ : Changes P b₀ s) : Changes P b₀ (writeStored s k v).1 := by
  unfold writeStored
  repeat' first
    | with_reducible assumption
    | with_reducible apply writeV_ch
    | with_reducible apply storeKey_ch
    | ((with_reducible refine part_sub hP ?_); rfl)

theorem loadKey_ch {P : List Part} {b₀ : State} {s : State} {k : Nat} (hP : [.objs, .badStored] ⊆ P) (hb₀ : Changes P b₀ s) : Changes P b₀ (loadKey s k) := by
  have m_objs : Part.objs ∈ P := part_mem hP rfl
  have m_badStored : Part.badStored ∈ P := part_mem hP rfl
  unfold loadKey
  repeat' first
    | with_reducible assumption
    | with_reducible apply bump_ch
    | ((with_reducible refine part_sub hP ?_); rfl)
    | with_reducible refine ch_fst (by with_reducible assumption) ?_
    | fail_if_no_progress (with_reducible refine ch_objs ?_ m_objs)
    | fail_if_no_progress (with_reducible refine ch_objs_badStored ?_ m_objs m_badStored)
    | with_reducible apply ch_ite
    | split

theorem loadStored_ch {P : List Part} {b₀ : State} {s : State} {p : Nat → Acc → Bool} (hP : [.objs, .badStored] ⊆ P) (hb₀ : Changes P b₀ s) : Changes P b₀ (loadStored s p) := by
  unfold loadStored
  repeat' first
    | with_reducible assumption
    | with_reducible apply loadKey_ch
    | with_reducible apply foldN_ch
    | (intro x a hx; try beta_reduce)

theorem restoreStored_ch {P : List Part} {b₀ : State} {s : State} {p : Nat → Acc → Bool} (hP : [.objs, .badStored] ⊆ P) (hb₀ : Changes P b₀ s) : Changes P b₀ (restoreStored s p) := by
  have m_objs : Part.objs ∈ P := part_mem hP rfl
  unfold restoreStored
  repeat' first
    | with_reducible assumption
    | with_reducible apply loadStored_ch
    | fail_if_no_progress (with_reducible refine ch_objs ?_ m_objs)

theorem execMramRowWrite_ch {P : List Part} {b₀ : State} {bank : Fin 16} {row : Fin 2048} {badReads : Nat} {s : State} (hP : [.fresh, .objs, .voteSecond, .funcs, .sess, .frames, .grog, .notes] ⊆ P) (hb₀ : Changes P b₀ s) : ChangesAll P b₀ (execMramRowWrite bank row badReads s) := by
  unfold execMramRowWrite
  repeat' first
    | with_reducible assumption
    | with_reducible apply mramWriteRow_ch
    | with_reducible apply changes_next

end Sys2Proof.Machine
end

