-- ==== Sys2Proof/Laws/ChangesOutputs.lean ====
section
/-!
SUPPORT. What each operation of Machine/Outputs.lean may change.
-/

namespace Sys2Proof.Machine

theorem enableOutput_ch {P : List Part} {b₀ : State} {s : State} {p : Nat} (hP : [.fresh, .objs, .voteSecond, .host, .funcs, .sess, .frames, .served, .transit, .rings, .ports, .commits, .tilthLog, .hap, .panels, .snd, .fab, .power, .grog, .notes] ⊆ P) (hb₀ : Changes P b₀ s) : Changes P b₀ (enableOutput s p) := by
  unfold enableOutput
  repeat' first
    | with_reducible assumption
    | with_reducible apply writeB_ch
    | with_reducible apply startOutput_ch
    | ((with_reducible refine part_sub hP ?_); rfl)

theorem disableOutput_ch {P : List Part} {b₀ : State} {s : State} {p : Nat} (hP : [.fresh, .objs, .voteSecond, .host, .funcs, .sess, .served, .transit, .rings, .ports, .tilthLog, .hap, .panels, .snd, .fab, .power, .grog, .notes] ⊆ P) (hb₀ : Changes P b₀ s) : Changes P b₀ (disableOutput s p) := by
  unfold disableOutput
  repeat' first
    | with_reducible assumption
    | with_reducible apply writeB_ch
    | with_reducible apply modPort_ch
    | with_reducible apply settle_ch
    | with_reducible apply stopOutput_ch
    | with_reducible apply shed_ch
    | ((with_reducible refine part_sub hP ?_); rfl)
    | (extract_lets +onlyGivenNames x; refine ch_step (P := P) (r := b₀) (x := x) ?_ (fun hx => ?_); subst x; rotate_left; clear_value x; revert x; intro _ _)
    | with_reducible apply ch_ite

theorem modeApply_ch {P : List Part} {b₀ : State} {s : State} {p v : Nat} (hP : [.objs, .ports] ⊆ P) (hb₀ : Changes P b₀ s) : Changes P b₀ (modeApply s p v) := by
  unfold modeApply
  repeat' first
    | with_reducible assumption
    | with_reducible apply writeN_ch
    | with_reducible apply beginTransition_ch
    | ((with_reducible refine part_sub hP ?_); rfl)
    | (extract_lets +onlyGivenNames x; refine ch_step (P := P) (r := b₀) (x := x) ?_ (fun hx => ?_); subst x; rotate_left; clear_value x; revert x; intro _ _)
    | with_reducible apply ch_ite

theorem outApply_ch {P : List Part} {b₀ : State} {s : State} {c : WCtx} {p sub v : Nat} (hP : [.fresh, .objs, .mram, .voteSecond, .host, .funcs, .sess, .frames, .served, .transit, .rings, .ports, .commits, .tilthLog, .hap, .panels, .snd, .fab, .power, .grog, .notes] ⊆ P) (hb₀ : Changes P b₀ s) : Changes P b₀ (outApply s c p sub v).1 := by
  unfold outApply
  repeat' first
    | with_reducible assumption
    | with_reducible apply writeN_ch
    | with_reducible apply modPort_ch
    | with_reducible apply enableWrite_ch
    | with_reducible apply writeStored_ch
    | with_reducible apply commitBits_ch
    | with_reducible apply enableOutput_ch
    | with_reducible apply disableOutput_ch
    | with_reducible apply modeApply_ch
    | ((with_reducible refine part_sub hP ?_); rfl)
    | (intro x hx; try beta_reduce)
    | (extract_lets +onlyGivenNames x; refine ch_step (P := P) (r := b₀) (x := x) ?_ (fun hx => ?_); subst x; rotate_left; clear_value x; revert x; intro _ _)
    | (extract_lets +onlyGivenNames x; clear_value x; revert x; intro _)
    | with_reducible apply ch_ite
    | with_reducible apply ch_ite1

theorem layerApply_ch {P : List Part} {b₀ : State} {s : State} {p k sub v : Nat} (hP : [.objs] ⊆ P) (hb₀ : Changes P b₀ s) : Changes P b₀ (layerApply s p k sub v) := by
  unfold layerApply
  repeat' first
    | with_reducible assumption
    | with_reducible apply writeN_ch

theorem restartOutput_ch {P : List Part} {b₀ : State} {s : State} {p : Nat} (hP : [.fresh, .objs, .voteSecond, .host, .funcs, .sess, .frames, .served, .transit, .rings, .ports, .commits, .tilthLog, .hap, .panels, .snd, .fab, .power, .grog, .notes] ⊆ P) (hb₀ : Changes P b₀ s) : Changes P b₀ (restartOutput s p) := by
  unfold restartOutput
  repeat' first
    | with_reducible assumption
    | with_reducible apply beginStart_ch
    | with_reducible apply ch_ite

theorem shedOutput_ch {P : List Part} {b₀ : State} {s : State} {p : Nat} (hP : [.fresh, .objs, .voteSecond, .host, .funcs, .sess, .served, .transit, .rings, .ports, .tilthLog, .hap, .panels, .snd, .fab, .power, .grog, .notes] ⊆ P) (hb₀ : Changes P b₀ s) : Changes P b₀ (shedOutput s p) := by
  unfold shedOutput
  repeat' first
    | with_reducible assumption
    | with_reducible apply modPort_ch
    | with_reducible apply stopOutput_ch
    | with_reducible apply shed_ch
    | ((with_reducible refine part_sub hP ?_); rfl)
    | with_reducible apply ch_ite

end Sys2Proof.Machine
end

