-- ==== Sys2Proof/Laws/ChangesSidePins.lean ====
section
/-!
SUPPORT. What each operation of Machine/SidePins.lean may change.
-/

namespace Sys2Proof.Machine

theorem modPin_ch {P : List Part} {b₀ : State} {s : State} {n : Nat} {g : Pin → Pin} (hP : [.pins] ⊆ P) (hb₀ : Changes P b₀ s) : Changes P b₀ (modPin s n g) := by
  have m_pins : Part.pins ∈ P := part_mem hP rfl
  unfold modPin
  repeat' first
    | with_reducible assumption
    | fail_if_no_progress (with_reducible refine ch_pins ?_ m_pins)

theorem pwmHold_ch {P : List Part} {b₀ : State} {s : State} {n : Nat} (hP : [.pins] ⊆ P) (hb₀ : Changes P b₀ s) : Changes P b₀ (pwmHold s n) := by
  unfold pwmHold
  repeat' first
    | with_reducible assumption
    | with_reducible apply modPin_ch
    | (extract_lets +onlyGivenNames x; clear_value x; revert x; intro _)
    | with_reducible refine ch_fst (by with_reducible assumption) ?_
    | with_reducible apply ch_ite

theorem pinApply_ch {P : List Part} {b₀ : State} {s : State} {n sub v : Nat} (hP : [.objs, .pins] ⊆ P) (hb₀ : Changes P b₀ s) : Changes P b₀ (pinApply s n sub v) := by
  unfold pinApply
  repeat' first
    | with_reducible assumption
    | with_reducible apply putN_ch
    | with_reducible apply writeN_ch
    | with_reducible apply modPin_ch
    | with_reducible apply pwmHold_ch
    | ((with_reducible refine part_sub hP ?_); rfl)
    | (extract_lets +onlyGivenNames x; refine ch_step (P := P) (r := b₀) (x := x) ?_ (fun hx => ?_); subst x; rotate_left; clear_value x; revert x; intro _ _)
    | (extract_lets +onlyGivenNames x; clear_value x; revert x; intro _)
    | with_reducible apply ch_ite

theorem takePinEvents_ch {P : List Part} {b₀ : State} {s : State} {n : Nat} (hP : [.fresh, .objs, .voteSecond, .host, .funcs, .sess, .rings, .ctxs, .cores, .tilthLog, .pins, .grog, .notes] ⊆ P) (hb₀ : Changes P b₀ s) : Changes P b₀ (takePinEvents s n) := by
  unfold takePinEvents
  repeat' first
    | with_reducible assumption
    | with_reducible apply putN_ch
    | with_reducible apply bumpBy_ch
    | with_reducible apply modPin_ch
    | with_reducible apply overflow_ch
    | ((with_reducible refine part_sub hP ?_); rfl)
    | (extract_lets +onlyGivenNames x; refine ch_step (P := P) (r := b₀) (x := x) ?_ (fun hx => ?_); subst x; rotate_left; clear_value x; revert x; intro _ _)
    | (extract_lets +onlyGivenNames x; clear_value x; revert x; intro _)
    | with_reducible apply ch_ite

theorem pinEvent_ch {P : List Part} {b₀ : State} {s : State} {n : Nat} (hP : [.fresh, .objs, .voteSecond, .host, .funcs, .sess, .rings, .ctxs, .cores, .tilthLog, .pins, .grog, .notes] ⊆ P) (hb₀ : Changes P b₀ s) : Changes P b₀ (pinEvent s n) := by
  unfold pinEvent
  repeat' first
    | with_reducible assumption
    | with_reducible apply modPin_ch
    | with_reducible apply takePinEvents_ch
    | with_reducible apply overflow_ch
    | ((with_reducible refine part_sub hP ?_); rfl)
    | (extract_lets +onlyGivenNames x; refine ch_step (P := P) (r := b₀) (x := x) ?_ (fun hx => ?_); subst x; rotate_left; clear_value x; revert x; intro _ _)
    | with_reducible apply ch_ite

theorem pinEdge_ch {P : List Part} {b₀ : State} {s : State} {n : Nat} {level : Bool} (hP : [.fresh, .objs, .voteSecond, .host, .funcs, .sess, .rings, .ctxs, .cores, .tilthLog, .pins, .grog, .notes] ⊆ P) (hb₀ : Changes P b₀ s) : Changes P b₀ (pinEdge s n level) := by
  unfold pinEdge
  repeat' first
    | with_reducible assumption
    | with_reducible apply putB_ch
    | with_reducible apply pinEvent_ch
    | ((with_reducible refine part_sub hP ?_); rfl)
    | (extract_lets +onlyGivenNames x; refine ch_step (P := P) (r := b₀) (x := x) ?_ (fun hx => ?_); subst x; rotate_left; clear_value x; revert x; intro _ _)
    | (extract_lets +onlyGivenNames x; clear_value x; revert x; intro _)
    | with_reducible apply ch_ite

theorem clearPinCrossings_ch {P : List Part} {b₀ : State} {s : State} (hP : [.fresh, .objs, .voteSecond, .host, .funcs, .sess, .rings, .ctxs, .cores, .tilthLog, .pins, .grog, .notes] ⊆ P) (hb₀ : Changes P b₀ s) : Changes P b₀ (clearPinCrossings s) := by
  have m_pins : Part.pins ∈ P := part_mem hP rfl
  unfold clearPinCrossings
  repeat' first
    | with_reducible assumption
    | with_reducible apply overflow_ch
    | fail_if_no_progress (with_reducible refine ch_pins ?_ m_pins)

theorem setPinStage_ch {P : List Part} {b₀ : State} {s : State} {ns : List Nat} {stage : Nat} (hP : [.pins] ⊆ P) (hb₀ : Changes P b₀ s) : Changes P b₀ (setPinStage s ns stage) := by
  unfold setPinStage
  repeat' first
    | with_reducible assumption
    | with_reducible apply modPin_ch
    | with_reducible apply foldN_ch
    | (intro x a hx; try beta_reduce)

theorem applyPinRecords_ch {P : List Part} {b₀ : State} {s : State} {ns : List Nat} (hP : [.objs, .pins] ⊆ P) (hb₀ : Changes P b₀ s) : Changes P b₀ (applyPinRecords s ns) := by
  unfold applyPinRecords
  repeat' first
    | with_reducible assumption
    | with_reducible apply putV_ch
    | with_reducible apply modPin_ch
    | ((with_reducible refine part_sub hP ?_); rfl)
    | with_reducible apply foldN_ch
    | (intro x a hx; try beta_reduce)

theorem pinsToStandby_ch {P : List Part} {b₀ : State} {s : State} (hP : [.pins] ⊆ P) (hb₀ : Changes P b₀ s) : Changes P b₀ (pinsToStandby s) := by
  unfold pinsToStandby
  repeat' first
    | with_reducible assumption
    | with_reducible apply modPin_ch
    | with_reducible apply foldN_ch
    | (intro x a hx; try beta_reduce)

theorem scrubPin_ch {P : List Part} {b₀ : State} {s : State} {n : Nat} (hP : [.fresh, .objs, .voteSecond, .host, .funcs, .sess, .rings, .ctxs, .cores, .tilthLog, .pins, .grog, .notes] ⊆ P) (hb₀ : Changes P b₀ s) : Changes P b₀ (scrubPin s n) := by
  unfold scrubPin
  repeat' first
    | with_reducible assumption
    | with_reducible apply putN_ch
    | with_reducible apply putB_ch
    | with_reducible apply writeN_ch
    | with_reducible apply writeB_ch
    | with_reducible apply modPin_ch
    | with_reducible apply overflow_ch
    | ((with_reducible refine part_sub hP ?_); rfl)

theorem pinTApply_ch {P : List Part} {b₀ : State} {s : State} {n : Nat} {trusted : Bool} (hP : [.fresh, .objs, .voteSecond, .host, .funcs, .sess, .rings, .ctxs, .cores, .tilthLog, .pins, .grog, .notes] ⊆ P) (hb₀ : Changes P b₀ s) : Changes P b₀ (pinTApply s n trusted) := by
  unfold pinTApply
  repeat' first
    | with_reducible assumption
    | with_reducible apply putN_ch
    | with_reducible apply writeB_ch
    | with_reducible apply scrubPin_ch
    | ((with_reducible refine part_sub hP ?_); rfl)
    | (extract_lets +onlyGivenNames x; refine ch_step (P := P) (r := b₀) (x := x) ?_ (fun hx => ?_); subst x; rotate_left; clear_value x; revert x; intro _ _)
    | (extract_lets +onlyGivenNames x; clear_value x; revert x; intro _)
    | with_reducible apply ch_ite

end Sys2Proof.Machine
end

