-- ==== Sys2Proof/Laws/ChangesWorlds.lean ====
section
/-!
SUPPORT. What each operation of Machine/Worlds.lean may change.
-/

namespace Sys2Proof.Machine

theorem modWorld_ch {P : List Part} {b₀ : State} {s : State} {g : World → World} (hP : [.world] ⊆ P) (hb₀ : Changes P b₀ s) : Changes P b₀ (modWorld s g) := by
  have m_world : Part.world ∈ P := part_mem hP rfl
  unfold modWorld
  repeat' first
    | with_reducible assumption
    | fail_if_no_progress (with_reducible refine ch_world ?_ m_world)

theorem violation_ch {P : List Part} {b₀ : State} {s : State} {who target : Nat} {write : Bool} {len : Nat} (hP : [.fresh, .objs, .voteSecond, .funcs, .sess, .ehrica, .world, .grog, .notes] ⊆ P) (hb₀ : Changes P b₀ s) : Changes P b₀ (violation s who target write len) := by
  unfold violation
  repeat' first
    | with_reducible assumption
    | with_reducible apply putN_ch
    | with_reducible apply bump_ch
    | with_reducible apply interruptTw_ch
    | with_reducible apply emit_ch
    | with_reducible apply modWorld_ch
    | ((with_reducible refine part_sub hP ?_); rfl)
    | (extract_lets +onlyGivenNames x; refine ch_step (P := P) (r := b₀) (x := x) ?_ (fun hx => ?_); subst x; rotate_left; clear_value x; revert x; intro _ _)
    | with_reducible apply ch_ite

theorem execTrustedTargetAccess_ch {P : List Part} {b₀ : State} {who : Initiator} {target : BitVec 8} {write : Bool} {len : Fin 65} {s : State} (hP : [.fresh, .objs, .voteSecond, .funcs, .sess, .ehrica, .world, .grog, .notes] ⊆ P) (hb₀ : Changes P b₀ s) : ChangesAll P b₀ (execTrustedTargetAccess who target write len s) := by
  unfold execTrustedTargetAccess
  repeat' first
    | with_reducible assumption
    | with_reducible apply violation_ch
    | with_reducible apply changes_next
    | with_reducible apply changes_fault
    | with_reducible apply ch_ite
    | with_reducible apply changes_ite

theorem dmaTApply_ch {P : List Part} {b₀ : State} {s : State} {n : Nat} {trusted : Bool} (hP : [.objs, .world] ⊆ P) (hb₀ : Changes P b₀ s) : Changes P b₀ (dmaTApply s n trusted) := by
  unfold dmaTApply
  repeat' first
    | with_reducible assumption
    | with_reducible apply putN_ch
    | with_reducible apply writeB_ch
    | with_reducible apply modWorld_ch
    | ((with_reducible refine part_sub hP ?_); rfl)
    | (extract_lets +onlyGivenNames x; refine ch_step (P := P) (r := b₀) (x := x) ?_ (fun hx => ?_); subst x; rotate_left; clear_value x; revert x; intro _ _)
    | (extract_lets +onlyGivenNames x; clear_value x; revert x; intro _)
    | with_reducible apply ch_ite

theorem claimHoldApply_ch {P : List Part} {b₀ : State} {s : State} {d : Nat} {v : Bool} (hP : [.objs, .served, .power] ⊆ P) (hb₀ : Changes P b₀ s) : Changes P b₀ (claimHoldApply s d v) := by
  have m_power : Part.power ∈ P := part_mem hP rfl
  unfold claimHoldApply
  repeat' first
    | with_reducible assumption
    | with_reducible apply putN_ch
    | with_reducible apply writeB_ch
    | with_reducible apply settle_ch
    | ((with_reducible refine part_sub hP ?_); rfl)
    | (extract_lets +onlyGivenNames x; subst x)
    | fail_if_no_progress (with_reducible refine ch_power ?_ m_power)
    | with_reducible apply ch_ite

theorem attEntry_ch {P : List Part} {b₀ : State} {s : State} {slot event comp : Nat} {item : List Byte} (hP : [.grog, .world] ⊆ P) (hb₀ : Changes P b₀ s) : Changes P b₀ (attEntry s slot event comp item) := by
  unfold attEntry
  repeat' first
    | with_reducible assumption
    | with_reducible apply modWorld_ch
    | with_reducible apply modGrog_ch
    | ((with_reducible refine part_sub hP ?_); rfl)
    | (extract_lets +onlyGivenNames x; clear_value x; revert x; intro _)
    | with_reducible apply ch_ite

theorem extendSlot_ch {P : List Part} {b₀ : State} {s : State} {slot event comp : Nat} {item : List Byte} (hP : [.grog, .world] ⊆ P) (hb₀ : Changes P b₀ s) : Changes P b₀ (extendSlot s slot event comp item) := by
  unfold extendSlot
  repeat' first
    | with_reducible assumption
    | with_reducible apply modWorld_ch
    | with_reducible apply attEntry_ch
    | ((with_reducible refine part_sub hP ?_); rfl)

theorem imageCheckFailed_ch {P : List Part} {b₀ : State} {s : State} (hP : [.grog, .world] ⊆ P) (hb₀ : Changes P b₀ s) : Changes P b₀ (imageCheckFailed s) := by
  unfold imageCheckFailed
  repeat' first
    | with_reducible assumption
    | with_reducible apply attEntry_ch

theorem nonceApply_ch {P : List Part} {b₀ : State} {s : State} {i : Nat} {nonce : List Byte} (hP : [.sess] ⊆ P) (hb₀ : Changes P b₀ s) : Changes P b₀ (nonceApply s i nonce) := by
  unfold nonceApply
  repeat' first
    | with_reducible assumption
    | with_reducible apply modSess_ch

theorem execQuoteSigned_ch {P : List Part} {b₀ : State} {session : BitVec 16} {s : State} (hP : [.sess] ⊆ P) (hb₀ : Changes P b₀ s) : ChangesAll P b₀ (execQuoteSigned session s) := by
  unfold execQuoteSigned
  repeat' first
    | with_reducible assumption
    | with_reducible apply modSess_ch
    | with_reducible apply changes_next
    | with_reducible apply changes_fault
    | with_reducible apply ch_ite
    | with_reducible apply changes_ite
    | split

theorem gateEnd_ch {P : List Part} {b₀ : State} {s : State} {result : Nat} (hP : [.world] ⊆ P) (hb₀ : Changes P b₀ s) : Changes P b₀ (gateEnd s result) := by
  unfold gateEnd
  repeat' first
    | with_reducible assumption
    | with_reducible apply modWorld_ch

theorem gateAbort_ch {P : List Part} {b₀ : State} {s : State} {result : Nat} (hP : [.world] ⊆ P) (hb₀ : Changes P b₀ s) : Changes P b₀ (gateAbort s result) := by
  unfold gateAbort
  repeat' first
    | with_reducible assumption
    | with_reducible apply gateEnd_ch
    | with_reducible apply ch_ite

theorem gateCall_ch {P : List Part} {b₀ : State} {s : State} {svc : Nat} {input : World → World} (hP : [.ehrica, .world] ⊆ P) (hb₀ : Changes P b₀ s) : Changes P b₀ (gateCall s svc input) := by
  unfold gateCall
  repeat' first
    | with_reducible assumption
    | with_reducible apply interruptTw_ch
    | with_reducible apply modWorld_ch
    | with_reducible apply gateEnd_ch
    | ((with_reducible refine part_sub hP ?_); rfl)
    | (extract_lets +onlyGivenNames x; refine ch_step (P := P) (r := b₀) (x := x) ?_ (fun hx => ?_); subst x; rotate_left; clear_value x; revert x; intro _ _)
    | with_reducible apply ch_ite

theorem execGateQuote_ch {P : List Part} {b₀ : State} {nonce : List Byte} {s : State} (hP : [.ehrica, .world] ⊆ P) (hb₀ : Changes P b₀ s) : ChangesAll P b₀ (execGateQuote nonce s) := by
  unfold execGateQuote
  repeat' first
    | with_reducible assumption
    | with_reducible apply gateCall_ch
    | with_reducible apply changes_next

theorem execGateRandom_ch {P : List Part} {b₀ : State} {count : BitVec 32} {s : State} (hP : [.ehrica, .world] ⊆ P) (hb₀ : Changes P b₀ s) : ChangesAll P b₀ (execGateRandom count s) := by
  unfold execGateRandom
  repeat' first
    | with_reducible assumption
    | with_reducible apply gateCall_ch
    | with_reducible apply changes_next

theorem execGateReleaseAsk_ch {P : List Part} {b₀ : State} {domain : BitVec 32} {s : State} (hP : [.ehrica, .world] ⊆ P) (hb₀ : Changes P b₀ s) : ChangesAll P b₀ (execGateReleaseAsk domain s) := by
  unfold execGateReleaseAsk
  repeat' first
    | with_reducible assumption
    | with_reducible apply gateCall_ch
    | with_reducible apply changes_next

theorem execGateBadsvc_ch {P : List Part} {b₀ : State} {svc : BitVec 16} {s : State} (hP : [.ehrica, .world] ⊆ P) (hb₀ : Changes P b₀ s) : ChangesAll P b₀ (execGateBadsvc svc s) := by
  unfold execGateBadsvc
  repeat' first
    | with_reducible assumption
    | with_reducible apply gateCall_ch
    | with_reducible apply changes_next
    | with_reducible apply changes_fault
    | with_reducible apply ch_ite
    | with_reducible apply changes_ite

theorem execGateRelease_ch {P : List Part} {b₀ : State} {result nres : BitVec 4} {args : List (BitVec 32)} {bufLen : BitVec 13} {buf : List Byte} {s : State} (hP : [.fresh, .world] ⊆ P) (hb₀ : Changes P b₀ s) : ChangesAll P b₀ (execGateRelease result nres args bufLen buf s) := by
  have m_fresh : Part.fresh ∈ P := part_mem hP rfl
  have m_world : Part.world ∈ P := part_mem hP rfl
  unfold execGateRelease
  repeat' first
    | with_reducible assumption
    | with_reducible apply changes_next
    | with_reducible apply changes_fault
    | (extract_lets +onlyGivenNames x; clear_value x; revert x; intro _)
    | fail_if_no_progress (with_reducible refine ch_fresh_world ?_ m_fresh m_world)
    | with_reducible apply ch_ite
    | with_reducible apply changes_ite

theorem zeroTrusted_ch {P : List Part} {b₀ : State} {s : State} (hP : [.world] ⊆ P) (hb₀ : Changes P b₀ s) : Changes P b₀ (zeroTrusted s) := by
  unfold zeroTrusted
  repeat' first
    | with_reducible assumption
    | with_reducible apply modWorld_ch

theorem goDown_ch {P : List Part} {b₀ : State} {s : State} {cause : Nat} (hP : [.fresh, .objs, .voteSecond, .funcs, .sess, .frames, .served, .world, .power, .grog, .notes] ⊆ P) (hb₀ : Changes P b₀ s) : Changes P b₀ (goDown s cause) := by
  have m_power : Part.power ∈ P := part_mem hP rfl
  unfold goDown
  repeat' first
    | with_reducible assumption
    | with_reducible apply putN_ch
    | with_reducible apply emitSb_ch
    | with_reducible apply settle_ch
    | with_reducible apply updateHealth_ch
    | with_reducible apply gateAbort_ch
    | ((with_reducible refine part_sub hP ?_); rfl)
    | (extract_lets +onlyGivenNames x; clear_value x; revert x; intro _)
    | fail_if_no_progress (with_reducible refine ch_power ?_ m_power)

theorem loneRestart_ch {P : List Part} {b₀ : State} {s : State} {cause : Nat} (hP : [.fresh, .objs, .voteSecond, .funcs, .sess, .frames, .served, .world, .power, .grog, .notes] ⊆ P) (hb₀ : Changes P b₀ s) : Changes P b₀ (loneRestart s cause) := by
  unfold loneRestart
  repeat' first
    | with_reducible assumption
    | with_reducible apply putN_ch
    | with_reducible apply bump_ch
    | with_reducible apply emitSb_ch
    | with_reducible apply modWorld_ch
    | with_reducible apply gateAbort_ch
    | with_reducible apply zeroTrusted_ch
    | with_reducible apply goDown_ch
    | ((with_reducible refine part_sub hP ?_); rfl)
    | (extract_lets +onlyGivenNames x; refine ch_step (P := P) (r := b₀) (x := x) ?_ (fun hx => ?_); subst x; rotate_left; clear_value x; revert x; intro _ _)
    | (extract_lets +onlyGivenNames x; clear_value x; revert x; intro _)
    | with_reducible apply ch_ite

theorem execWatchdogKick_ch {P : List Part} {b₀ : State} {value : BitVec 8} {s : State} (hP : [.fresh, .objs, .voteSecond, .funcs, .sess, .frames, .served, .world, .power, .grog, .notes] ⊆ P) (hb₀ : Changes P b₀ s) : ChangesAll P b₀ (execWatchdogKick value s) := by
  unfold execWatchdogKick
  repeat' first
    | with_reducible assumption
    | with_reducible apply modWorld_ch
    | with_reducible apply loneRestart_ch
    | ((with_reducible refine part_sub hP ?_); rfl)
    | with_reducible apply changes_next
    | with_reducible apply changes_fault
    | with_reducible apply ch_ite
    | with_reducible apply changes_ite

theorem execWatchdogExpiry_ch {P : List Part} {b₀ : State} {s : State} (hP : [.fresh, .objs, .voteSecond, .funcs, .sess, .frames, .served, .world, .power, .grog, .notes] ⊆ P) (hb₀ : Changes P b₀ s) : ChangesAll P b₀ (execWatchdogExpiry s) := by
  unfold execWatchdogExpiry
  repeat' first
    | with_reducible assumption
    | with_reducible apply loneRestart_ch
    | with_reducible apply changes_next
    | with_reducible apply changes_fault
    | with_reducible apply ch_ite
    | with_reducible apply changes_ite

theorem execLockstepFault_ch {P : List Part} {b₀ : State} {s : State} (hP : [.fresh, .objs, .voteSecond, .funcs, .sess, .frames, .served, .world, .power, .grog, .notes] ⊆ P) (hb₀ : Changes P b₀ s) : ChangesAll P b₀ (execLockstepFault s) := by
  unfold execLockstepFault
  repeat' first
    | with_reducible assumption
    | with_reducible apply loneRestart_ch
    | with_reducible apply changes_next
    | with_reducible apply changes_fault
    | with_reducible apply ch_ite
    | with_reducible apply changes_ite

theorem execTwRestartRequest_ch {P : List Part} {b₀ : State} {s : State} (hP : [.fresh, .objs, .voteSecond, .funcs, .sess, .frames, .served, .world, .power, .grog, .notes] ⊆ P) (hb₀ : Changes P b₀ s) : ChangesAll P b₀ (execTwRestartRequest s) := by
  unfold execTwRestartRequest
  repeat' first
    | with_reducible assumption
    | with_reducible apply loneRestart_ch
    | with_reducible apply changes_next
    | with_reducible apply changes_fault
    | with_reducible apply ch_ite
    | with_reducible apply changes_ite

theorem applyAssignments_ch {P : List Part} {b₀ : State} {s : State} {runs : Bool} (hP : [.objs, .pins, .badStored] ⊆ P) (hb₀ : Changes P b₀ s) : Changes P b₀ (applyAssignments s runs) := by
  unfold applyAssignments
  repeat' first
    | with_reducible assumption
    | with_reducible apply hf1
    | with_reducible apply hf2
    | with_reducible apply hf3
    | with_reducible apply putN_ch
    | with_reducible apply loadStored_ch
    | with_reducible apply applyPinRecords_ch
    | ((with_reducible refine part_sub hP ?_); rfl)
    | with_reducible apply foldN_ch
    | (intro x a hx; try beta_reduce)
    | (extract_lets +onlyGivenNames x; refine ch_step (P := P) (r := b₀) (x := x) ?_ (fun hx => ?_); subst x; rotate_left; clear_value x; revert x; intro _ _)
    | (extract_lets +onlyGivenNames x; clear_value x; revert x; intro _)
    | with_reducible apply ch_ite

theorem tryKaolinLoad_ch {P : List Part} {b₀ : State} {s : State} (hP : [.objs, .served, .ports, .badStored, .power, .kram] ⊆ P) (hb₀ : Changes P b₀ s) : Changes P b₀ (tryKaolinLoad s) := by
  have m_power : Part.power ∈ P := part_mem hP rfl
  unfold tryKaolinLoad
  repeat' first
    | with_reducible assumption
    | with_reducible apply settle_ch
    | with_reducible apply restoreStored_ch
    | with_reducible apply kaolinLoad_ch
    | ((with_reducible refine part_sub hP ?_); rfl)
    | (extract_lets +onlyGivenNames x; refine ch_step (P := P) (r := b₀) (x := x) ?_ (fun hx => ?_); subst x; rotate_left; clear_value x; revert x; intro _ _)
    | (extract_lets +onlyGivenNames x; clear_value x; revert x; intro _)
    | fail_if_no_progress (with_reducible refine ch_power ?_ m_power)
    | with_reducible apply ch_ite

theorem firmwareStarts_ch {P : List Part} {b₀ : State} {s : State} (hP : [.objs, .ehrica, .world] ⊆ P) (hb₀ : Changes P b₀ s) : Changes P b₀ (firmwareStarts s) := by
  unfold firmwareStarts
  repeat' first
    | with_reducible assumption
    | with_reducible apply putN_ch
    | with_reducible apply interruptTw_ch
    | with_reducible apply modWorld_ch
    | ((with_reducible refine part_sub hP ?_); rfl)
    | (extract_lets +onlyGivenNames x; refine ch_step (P := P) (r := b₀) (x := x) ?_ (fun hx => ?_); subst x; rotate_left; clear_value x; revert x; intro _ _)
    | with_reducible apply ch_ite

theorem coldRuns_ch {P : List Part} {b₀ : State} {s : State} (hP : [.objs, .served, .ehrica, .ports, .world, .pins, .badStored, .power, .grog, .kram] ⊆ P) (hb₀ : Changes P b₀ s) : Changes P b₀ (coldRuns s) := by
  have m_power : Part.power ∈ P := part_mem hP rfl
  unfold coldRuns
  repeat' first
    | with_reducible assumption
    | with_reducible apply settle_ch
    | with_reducible apply loadStored_ch
    | with_reducible apply modWorld_ch
    | with_reducible apply extendSlot_ch
    | with_reducible apply applyAssignments_ch
    | with_reducible apply tryKaolinLoad_ch
    | with_reducible apply firmwareStarts_ch
    | ((with_reducible refine part_sub hP ?_); rfl)
    | (extract_lets +onlyGivenNames x; clear_value x; revert x; intro _)
    | fail_if_no_progress (with_reducible refine ch_power ?_ m_power)

theorem coldDown_ch {P : List Part} {b₀ : State} {s : State} {cause : Nat} (hP : [.fresh, .objs, .voteSecond, .funcs, .sess, .frames, .served, .world, .pins, .badStored, .power, .grog, .notes] ⊆ P) (hb₀ : Changes P b₀ s) : Changes P b₀ (coldDown s cause) := by
  have m_power : Part.power ∈ P := part_mem hP rfl
  unfold coldDown
  repeat' first
    | with_reducible assumption
    | with_reducible apply settle_ch
    | with_reducible apply modWorld_ch
    | with_reducible apply goDown_ch
    | with_reducible apply applyAssignments_ch
    | ((with_reducible refine part_sub hP ?_); rfl)
    | (extract_lets +onlyGivenNames x; clear_value x; revert x; intro _)
    | fail_if_no_progress (with_reducible refine ch_power ?_ m_power)

theorem loneRuns_ch {P : List Part} {b₀ : State} {s : State} (hP : [.fresh, .objs, .voteSecond, .funcs, .sess, .frames, .served, .ehrica, .ports, .world, .badStored, .power, .grog, .kram, .notes] ⊆ P) (hb₀ : Changes P b₀ s) : Changes P b₀ (loneRuns s) := by
  have m_power : Part.power ∈ P := part_mem hP rfl
  unfold loneRuns
  repeat' first
    | with_reducible assumption
    | with_reducible apply putN_ch
    | with_reducible apply modPort_ch
    | with_reducible apply emitSb_ch
    | with_reducible apply updateHealth_ch
    | with_reducible apply shadowFrom_ch
    | with_reducible apply extendSlot_ch
    | with_reducible apply tryKaolinLoad_ch
    | with_reducible apply firmwareStarts_ch
    | ((with_reducible refine part_sub hP ?_); rfl)
    | with_reducible apply foldN_ch
    | (intro x a hx; try beta_reduce)
    | (extract_lets +onlyGivenNames x; clear_value x; revert x; intro _)
    | fail_if_no_progress (with_reducible refine ch_power ?_ m_power)
    | with_reducible apply ch_ite

theorem twRestartDone_ch {P : List Part} {b₀ : State} {outcome : BootOutcome} {s : State} (hP : [.fresh, .objs, .voteSecond, .funcs, .sess, .frames, .served, .ehrica, .ports, .world, .pins, .badStored, .power, .grog, .kram, .notes] ⊆ P) (hb₀ : Changes P b₀ s) : Changes P b₀ (twRestartDone outcome s) := by
  unfold twRestartDone
  repeat' first
    | with_reducible assumption
    | with_reducible apply hf1
    | with_reducible apply hf2
    | with_reducible apply hf3
    | with_reducible apply extendSlot_ch
    | with_reducible apply imageCheckFailed_ch
    | with_reducible apply goDown_ch
    | with_reducible apply coldRuns_ch
    | with_reducible apply coldDown_ch
    | with_reducible apply loneRuns_ch
    | ((with_reducible refine part_sub hP ?_); rfl)
    | (intro x a hx; try beta_reduce)
    | (intro x hx; try beta_reduce)
    | (extract_lets +onlyGivenNames x; refine ch_step (P := P) (r := b₀) (x := x) ?_ (fun hx => ?_); subst x; rotate_left; clear_value x; revert x; intro _ _)
    | (extract_lets +onlyGivenNames x; refine ch_stepF1 (P := P) (r := b₀) (x := x) ?_ (fun hx => ?_); subst x; rotate_left; clear_value x; revert x; intro _ hf1)
    | (extract_lets +onlyGivenNames x; refine ch_stepF2 (P := P) (r := b₀) (x := x) ?_ (fun hx => ?_); subst x; rotate_left; clear_value x; revert x; intro _ hf2)
    | (extract_lets +onlyGivenNames x; clear_value x; revert x; intro _)
    | with_reducible apply ch_ite
    | split

end Sys2Proof.Machine
end

