-- ==== Sys2Proof/Laws/ChangesPower.lean ====
section
/-!
SUPPORT. What each operation of Machine/Power.lean may change.
-/

namespace Sys2Proof.Machine

theorem modPower_ch {P : List Part} {b₀ : State} {s : State} {g : Power → Power} (hP : [.power] ⊆ P) (hb₀ : Changes P b₀ s) : Changes P b₀ (modPower s g) := by
  have m_power : Part.power ∈ P := part_mem hP rfl
  unfold modPower
  repeat' first
    | with_reducible assumption
    | fail_if_no_progress (with_reducible refine ch_power ?_ m_power)

theorem resume_ch {P : List Part} {b₀ : State} {s : State} (hP : [.fresh, .objs, .voteSecond, .host, .funcs, .sess, .frames, .served, .transit, .rings, .ports, .commits, .tilthLog, .hap, .panels, .snd, .fab, .power, .grog, .notes] ⊆ P) (hb₀ : Changes P b₀ s) : Changes P b₀ (resume s) := by
  unfold resume
  repeat' first
    | with_reducible assumption
    | with_reducible apply restartOutput_ch
    | with_reducible apply startHaptics_ch
    | with_reducible apply startPanel_ch
    | with_reducible apply startSound_ch
    | with_reducible apply startSpread_ch
    | ((with_reducible refine part_sub hP ?_); rfl)
    | with_reducible apply foldN_ch
    | (intro x a hx; try beta_reduce)
    | with_reducible apply ch_ite

theorem shed_ch {P : List Part} {b₀ : State} {s : State} (hP : [.fresh, .objs, .voteSecond, .host, .funcs, .sess, .served, .transit, .rings, .ports, .tilthLog, .hap, .panels, .snd, .fab, .power, .grog, .notes] ⊆ P) (hb₀ : Changes P b₀ s) : Changes P b₀ (shed s) := by
  unfold shed
  repeat' first
    | with_reducible assumption
    | with_reducible apply hf1
    | with_reducible apply hf2
    | with_reducible apply hf3
    | with_reducible apply shedOutput_ch
    | with_reducible apply shutHaptics_ch
    | with_reducible apply shutPanel_ch
    | with_reducible apply shutSound_ch
    | with_reducible apply shutSpread_ch
    | ((with_reducible refine part_sub hP ?_); rfl)
    | with_reducible apply foldN_ch
    | (intro x a hx; try beta_reduce)
    | with_reducible apply ch_ite

theorem powerSettle_ch {P : List Part} {b₀ : State} {s : State} (hP : [.fresh, .objs, .voteSecond, .host, .funcs, .sess, .frames, .served, .transit, .rings, .ports, .commits, .tilthLog, .hap, .panels, .snd, .fab, .power, .grog, .notes] ⊆ P) (hb₀ : Changes P b₀ s) : Changes P b₀ (powerSettle s) := by
  unfold powerSettle
  repeat' first
    | with_reducible assumption
    | with_reducible apply settle_ch
    | with_reducible apply resume_ch
    | with_reducible apply shed_ch
    | ((with_reducible refine part_sub hP ?_); rfl)

theorem loseWork_ch {P : List Part} {b₀ : State} {s : State} {cores : List Nat} {all : Bool} (hP : [.fresh, .objs, .voteSecond, .host, .funcs, .sess, .frames, .served, .rings, .signals, .ctxs, .cores, .ports, .tilthLog, .ehrica, .balance, .dram, .mem, .power, .grog, .notes] ⊆ P) (hb₀ : Changes P b₀ s) : Changes P b₀ (loseWork s cores all) := by
  unfold loseWork
  repeat' first
    | with_reducible assumption
    | with_reducible apply hf1
    | with_reducible apply hf2
    | with_reducible apply hf3
    | with_reducible apply removePass_ch
    | with_reducible apply killPass_ch
    | with_reducible apply loseUnit_ch
    | ((with_reducible refine part_sub hP ?_); rfl)
    | with_reducible apply foldN_ch
    | with_reducible apply foldl_ch
    | with_reducible apply foldl_ch1
    | (intro x a hx; try beta_reduce)
    | with_reducible apply ch_ite

theorem loseKaolin_ch {P : List Part} {b₀ : State} {s : State} (hP : [.fresh, .voteSecond, .funcs, .sess, .frames, .ehrica, .ports, .power, .grog, .kram, .kold, .notes] ⊆ P) (hb₀ : Changes P b₀ s) : Changes P b₀ (loseKaolin s) := by
  have m_kram : Part.kram ∈ P := part_mem hP rfl
  have m_kold : Part.kold ∈ P := part_mem hP rfl
  unfold loseKaolin
  repeat' first
    | with_reducible assumption
    | with_reducible apply modPort_ch
    | with_reducible apply gapBegin_ch
    | with_reducible apply modPower_ch
    | ((with_reducible refine part_sub hP ?_); rfl)
    | with_reducible apply foldN_ch
    | (intro x a hx; try beta_reduce)
    | fail_if_no_progress (with_reducible refine ch_kram_kold ?_ m_kram m_kold)
    | with_reducible apply ch_ite

theorem loseGroup_ch {P : List Part} {b₀ : State} {s : State} {g : Nat} (hP : [.objs, .dram] ⊆ P) (hb₀ : Changes P b₀ s) : Changes P b₀ (loseGroup s g) := by
  unfold loseGroup
  repeat' first
    | with_reducible assumption
    | with_reducible apply putN_ch
    | with_reducible apply zeroRank_ch
    | ((with_reducible refine part_sub hP ?_); rfl)

theorem loseDomain_ch {P : List Part} {b₀ : State} {s : State} {d : Nat} (hP : (Part.but [.pending, .now, .mram, .defaultsDue, .votes, .resp, .twResp, .portals, .can, .frameSent, .fenceGen, .progs, .surfs, .scrubs, .islTime, .rateStop, .migs, .bodies, .refuseLog, .engineGen]) ⊆ P) (hb₀ : Changes P b₀ s) : Changes P b₀ (loseDomain s d) := by
  have m_served : Part.served ∈ P := part_mem hP rfl
  unfold loseDomain
  repeat' first
    | with_reducible assumption
    | with_reducible apply putN_ch
    | with_reducible apply modPort_ch
    | with_reducible apply closeWhere_ch
    | with_reducible apply zeroTrusted_ch
    | with_reducible apply goDown_ch
    | with_reducible apply coldDown_ch
    | with_reducible apply outputOff_ch
    | with_reducible apply cutHaptics_ch
    | with_reducible apply cutPanel_ch
    | with_reducible apply cutSound_ch
    | with_reducible apply fabricCut_ch
    | with_reducible apply linkQueued_ch
    | with_reducible apply spreadOffDone_ch
    | with_reducible apply spreadQueued_ch
    | with_reducible apply modPower_ch
    | with_reducible apply shed_ch
    | with_reducible apply loseWork_ch
    | with_reducible apply loseKaolin_ch
    | with_reducible apply loseGroup_ch
    | with_reducible apply restartMigration_ch
    | ((with_reducible refine part_sub hP ?_); rfl)
    | with_reducible apply foldN_ch
    | (intro x a hx; try beta_reduce)
    | (extract_lets +onlyGivenNames x; refine ch_step (P := P) (r := b₀) (x := x) ?_ (fun hx => ?_); subst x; rotate_left; clear_value x; revert x; intro _ _)
    | fail_if_no_progress (with_reducible refine ch_served ?_ m_served)
    | with_reducible apply ch_ite

theorem cutDomain_ch {P : List Part} {b₀ : State} {s : State} {d : Nat} (hP : (Part.but [.pending, .now, .mram, .defaultsDue, .votes, .resp, .twResp, .portals, .can, .frameSent, .fenceGen, .progs, .surfs, .scrubs, .islTime, .rateStop, .migs, .bodies, .refuseLog, .engineGen]) ⊆ P) (hb₀ : Changes P b₀ s) : Changes P b₀ (cutDomain s d) := by
  unfold cutDomain
  repeat' first
    | with_reducible assumption
    | with_reducible apply putN_ch
    | with_reducible apply interruptTw_ch
    | with_reducible apply modPower_ch
    | with_reducible apply loseDomain_ch
    | ((with_reducible refine part_sub hP ?_); rfl)
    | (extract_lets +onlyGivenNames x; refine ch_step (P := P) (r := b₀) (x := x) ?_ (fun hx => ?_); subst x; rotate_left; clear_value x; revert x; intro _ _)
    | (extract_lets +onlyGivenNames x; clear_value x; revert x; intro _)
    | with_reducible apply ch_ite

theorem cutMany_ch {P : List Part} {b₀ : State} {s : State} {ds : List Nat} {cause : Nat} (hP : (Part.but [.pending, .now, .mram, .defaultsDue, .votes, .resp, .twResp, .portals, .can, .frameSent, .fenceGen, .progs, .surfs, .scrubs, .islTime, .rateStop, .migs, .bodies, .refuseLog, .engineGen]) ⊆ P) (hb₀ : Changes P b₀ s) : Changes P b₀ (cutMany s ds cause) := by
  unfold cutMany
  repeat' first
    | with_reducible assumption
    | with_reducible apply interruptTw_ch
    | with_reducible apply emitSb_ch
    | with_reducible apply modPower_ch
    | with_reducible apply powerSettle_ch
    | with_reducible apply cutDomain_ch
    | ((with_reducible refine part_sub hP ?_); rfl)
    | with_reducible apply foldN_ch
    | (intro x a hx; try beta_reduce)
    | with_reducible apply ch_ite

theorem showLevel_ch {P : List Part} {b₀ : State} {s : State} {sensor temp : Nat} (hP : [.fresh, .objs, .voteSecond, .funcs, .sess, .frames, .grog, .notes] ⊆ P) (hb₀ : Changes P b₀ s) : Changes P b₀ (showLevel s sensor temp) := by
  unfold showLevel
  repeat' first
    | with_reducible assumption
    | with_reducible apply putN_ch
    | with_reducible apply emitSb_ch
    | ((with_reducible refine part_sub hP ?_); rfl)
    | (extract_lets +onlyGivenNames x; refine ch_step (P := P) (r := b₀) (x := x) ?_ (fun hx => ?_); subst x; rotate_left; clear_value x; revert x; intro _ _)
    | (extract_lets +onlyGivenNames x; clear_value x; revert x; intro _)
    | with_reducible apply ch_ite

theorem declare_ch {P : List Part} {b₀ : State} {s : State} {code : Nat} (hP : (Part.but [.pending, .now, .mram, .defaultsDue, .votes, .resp, .twResp, .portals, .can, .frameSent, .fenceGen, .progs, .surfs, .scrubs, .islTime, .rateStop, .migs, .bodies, .refuseLog, .engineGen]) ⊆ P) (hb₀ : Changes P b₀ s) : Changes P b₀ (declare s code) := by
  unfold declare
  repeat' first
    | with_reducible assumption
    | with_reducible apply putN_ch
    | with_reducible apply modPower_ch
    | with_reducible apply cutMany_ch
    | ((with_reducible refine part_sub hP ?_); rfl)
    | (extract_lets +onlyGivenNames x; refine ch_step (P := P) (r := b₀) (x := x) ?_ (fun hx => ?_); subst x; rotate_left; clear_value x; revert x; intro _ _)
    | (extract_lets +onlyGivenNames x; clear_value x; revert x; intro _)
    | with_reducible apply ch_ite

theorem thermalRules_ch {P : List Part} {b₀ : State} {s : State} (hP : (Part.but [.pending, .now, .mram, .defaultsDue, .votes, .resp, .twResp, .portals, .can, .frameSent, .fenceGen, .progs, .surfs, .scrubs, .islTime, .rateStop, .migs, .bodies, .refuseLog, .engineGen]) ⊆ P) (hb₀ : Changes P b₀ s) : Changes P b₀ (thermalRules s) := by
  unfold thermalRules
  repeat' first
    | with_reducible assumption
    | with_reducible apply bump_ch
    | with_reducible apply modPower_ch
    | with_reducible apply showLevel_ch
    | with_reducible apply declare_ch
    | ((with_reducible refine part_sub hP ?_); rfl)
    | (extract_lets +onlyGivenNames x; clear_value x; revert x; intro _)
    | with_reducible apply ch_ite
    | split

theorem throttleStep_ch {P : List Part} {b₀ : State} {s : State} (hP : (Part.but [.pending, .now, .mram, .defaultsDue, .votes, .resp, .twResp, .portals, .can, .frameSent, .fenceGen, .progs, .surfs, .scrubs, .islTime, .rateStop, .migs, .bodies, .refuseLog, .engineGen]) ⊆ P) (hb₀ : Changes P b₀ s) : Changes P b₀ (throttleStep s) := by
  unfold throttleStep
  repeat' first
    | with_reducible assumption
    | with_reducible apply modPower_ch
    | with_reducible apply showLevel_ch
    | with_reducible apply thermalRules_ch
    | ((with_reducible refine part_sub hP ?_); rfl)
    | (extract_lets +onlyGivenNames x; clear_value x; revert x; intro _)
    | with_reducible apply ch_ite
    | split

theorem supplyRules_ch {P : List Part} {b₀ : State} {s : State} (hP : (Part.but [.pending, .now, .mram, .defaultsDue, .votes, .resp, .twResp, .portals, .can, .frameSent, .fenceGen, .progs, .surfs, .scrubs, .islTime, .rateStop, .migs, .bodies, .refuseLog, .engineGen]) ⊆ P) (hb₀ : Changes P b₀ s) : Changes P b₀ (supplyRules s) := by
  unfold supplyRules
  repeat' first
    | with_reducible assumption
    | with_reducible apply declare_ch
    | (extract_lets +onlyGivenNames x; refine ch_step (P := P) (r := b₀) (x := x) ?_ (fun hx => ?_); subst x; rotate_left; clear_value x; revert x; intro _ _)
    | (extract_lets +onlyGivenNames x; clear_value x; revert x; intro _)
    | with_reducible apply ch_ite

theorem applySpares_ch {P : List Part} {b₀ : State} {s : State} (hP : [.objs] ⊆ P) (hb₀ : Changes P b₀ s) : Changes P b₀ (applySpares s) := by
  unfold applySpares
  repeat' first
    | with_reducible assumption
    | with_reducible apply putV_ch
    | with_reducible apply putN_ch
    | with_reducible apply countCores_ch
    | with_reducible apply foldN_ch
    | (intro x a hx; try beta_reduce)
    | with_reducible apply ch_ite
    | split

theorem freshState_ch {P : List Part} {b₀ : State} {s : State} {keep : Nat → Bool} (hP : (Part.but [.pending, .now, .fresh, .mram, .defaultsDue, .voteSecond, .host, .resp, .twResp, .can, .frames, .frameSent, .ehrica, .pins, .power, .grog]) ⊆ P) (hb₀ : Changes P b₀ s) :
    Changes P b₀ (freshState s keep) := by
  have no : ∀ {p : Part} {C : Prop}, (Part.but [.pending, .now, .fresh, .mram, .defaultsDue, .voteSecond, .host, .resp, .twResp, .can, .frames, .frameSent, .ehrica, .pins, .power, .grog]).contains p = true → p ∉ P → C := fun h n => absurd (part_mem hP h) n
  refine hb₀.trans ?_
  constructor <;> first | exact fun _ => rfl | exact no rfl

theorem powerLost_ch {P : List Part} {b₀ : State} {s : State} (hP : (Part.but [.pending, .now, .fresh, .mram, .defaultsDue, .voteSecond, .host, .grog]) ⊆ P) (hb₀ : Changes P b₀ s) : Changes P b₀ (powerLost s) := by
  have h := freshState_ch (keep := fun _ => false) (part_sub hP rfl) hb₀
  have no : ∀ {p : Part} {C : Prop}, (Part.but [.pending, .now, .fresh, .mram, .defaultsDue, .voteSecond, .host, .grog]).contains p = true → p ∉ P → C := fun h n => absurd (part_mem hP h) n
  refine h.trans ?_
  constructor <;> first | exact fun _ => rfl | exact no rfl

theorem setMode_ch {P : List Part} {b₀ : State} {s : State} {m : Nat} (hP : [.fresh, .objs, .voteSecond, .funcs, .sess, .frames, .grog, .notes] ⊆ P) (hb₀ : Changes P b₀ s) : Changes P b₀ (setMode s m) := by
  unfold setMode
  repeat' first
    | with_reducible assumption
    | with_reducible apply putN_ch
    | with_reducible apply emitSb_ch
    | ((with_reducible refine part_sub hP ?_); rfl)
    | with_reducible apply ch_ite

theorem moduleStart_ch {P : List Part} {b₀ : State} {s : State} {cause : Nat} (hP : [.fresh, .objs, .mram, .defaultsDue, .voteSecond, .funcs, .sess, .frames, .grog, .notes] ⊆ P) (hb₀ : Changes P b₀ s) : Changes P b₀ (moduleStart s cause) := by
  have m_mram : Part.mram ∈ P := part_mem hP rfl
  have m_defaultsDue : Part.defaultsDue ∈ P := part_mem hP rfl
  unfold moduleStart
  repeat' first
    | with_reducible assumption
    | with_reducible apply putN_ch
    | with_reducible apply modGrog_ch
    | with_reducible apply updateHealth_ch
    | with_reducible apply applySpares_ch
    | with_reducible apply setMode_ch
    | ((with_reducible refine part_sub hP ?_); rfl)
    | fail_if_no_progress (with_reducible refine ch_mram_defaultsDue ?_ m_mram m_defaultsDue)
    | with_reducible apply ch_ite

theorem measureFirst_ch {P : List Part} {b₀ : State} {s : State} {js : List Nat} (hP : [.fresh, .objs] ⊆ P) (hb₀ : Changes P b₀ s) : Changes P b₀ (measureFirst s js) := by
  unfold measureFirst
  repeat' first
    | with_reducible assumption
    | with_reducible apply putN_ch
    | with_reducible apply draw_ch
    | ((with_reducible refine part_sub hP ?_); rfl)
    | with_reducible apply foldN_ch
    | (intro x a hx; try beta_reduce)

theorem coldStart_ch {P : List Part} {b₀ : State} {s : State} {cause : Nat} (hP : (Part.but [.pending, .now, .host]) ⊆ P) (hb₀ : Changes P b₀ s) : Changes P b₀ (coldStart s cause) := by
  unfold coldStart
  repeat' first
    | with_reducible assumption
    | with_reducible apply settle_ch
    | with_reducible apply loadStored_ch
    | with_reducible apply setPinStage_ch
    | with_reducible apply modPower_ch
    | with_reducible apply freshState_ch
    | with_reducible apply powerLost_ch
    | with_reducible apply moduleStart_ch
    | with_reducible apply measureFirst_ch
    | ((with_reducible refine part_sub hP ?_); rfl)
    | with_reducible refine ch_fst (by with_reducible assumption) ?_
    | with_reducible apply ch_ite

theorem openRestart_ch {P : List Part} {b₀ : State} {s : State} (hP : (Part.but [.pending, .now, .host, .resp, .twResp, .can, .frameSent, .ehrica, .pins]) ⊆ P) (hb₀ : Changes P b₀ s) :
    Changes P b₀ (openRestart s) := by
  have h := freshState_ch (keep := restartKeeps) (part_sub hP rfl) hb₀
  unfold openRestart
  extract_lets s0 src t u v
  have ht : Changes P b₀ t := ch_world_islTime_refuseLog_kram h (part_mem hP rfl) (part_mem hP rfl) (part_mem hP rfl) (part_mem hP rfl)
  have hu : Changes P b₀ u := by clear_value t; exact ch_ports ht (part_mem hP rfl)
  have hv : Changes P b₀ v := by clear_value u; exact modPower_ch (part_sub hP rfl) hu
  clear_value v
  exact moduleStart_ch (part_sub hP rfl) (putN_ch (part_sub hP rfl) (putN_ch (part_sub hP rfl) hv))

theorem bootOutput_ch {P : List Part} {b₀ : State} {s : State} {p : Nat} (hP : [.fresh, .objs, .voteSecond, .host, .funcs, .sess, .frames, .served, .transit, .rings, .ports, .commits, .tilthLog, .hap, .panels, .snd, .fab, .power, .grog, .notes] ⊆ P) (hb₀ : Changes P b₀ s) : Changes P b₀ (bootOutput s p) := by
  unfold bootOutput
  repeat' first
    | with_reducible assumption
    | with_reducible apply enableOutput_ch
    | with_reducible apply modeApply_ch
    | ((with_reducible refine part_sub hP ?_); rfl)
    | (extract_lets +onlyGivenNames x; refine ch_step (P := P) (r := b₀) (x := x) ?_ (fun hx => ?_); subst x; rotate_left; clear_value x; revert x; intro _ _)
    | (extract_lets +onlyGivenNames x; clear_value x; revert x; intro _)
    | with_reducible apply ch_ite

theorem bootEnables_ch {P : List Part} {b₀ : State} {s : State} (hP : [.fresh, .objs, .voteSecond, .host, .funcs, .sess, .frames, .served, .transit, .rings, .ports, .commits, .tilthLog, .hap, .panels, .snd, .fab, .power, .grog, .notes] ⊆ P) (hb₀ : Changes P b₀ s) : Changes P b₀ (bootEnables s) := by
  unfold bootEnables
  repeat' first
    | with_reducible assumption
    | with_reducible apply startHaptics_ch
    | with_reducible apply startPanel_ch
    | with_reducible apply startSound_ch
    | with_reducible apply bootOutput_ch
    | ((with_reducible refine part_sub hP ?_); rfl)
    | with_reducible apply foldN_ch
    | (intro x a hx; try beta_reduce)
    | (extract_lets +onlyGivenNames x; refine ch_step (P := P) (r := b₀) (x := x) ?_ (fun hx => ?_); subst x; rotate_left; clear_value x; revert x; intro _ _)
    | with_reducible apply ch_ite

theorem stepSix_ch {P : List Part} {b₀ : State} {s : State} (hP : [.fresh, .objs, .voteSecond, .host, .funcs, .sess, .frames, .served, .transit, .rings, .ports, .commits, .tilthLog, .hap, .panels, .snd, .fab, .world, .pins, .badStored, .power, .grog, .notes] ⊆ P) (hb₀ : Changes P b₀ s) : Changes P b₀ (stepSix s) := by
  have m_served : Part.served ∈ P := part_mem hP rfl
  unfold stepSix
  repeat' first
    | with_reducible assumption
    | with_reducible apply settle_ch
    | with_reducible apply loadStored_ch
    | with_reducible apply applyPinRecords_ch
    | with_reducible apply extendSlot_ch
    | with_reducible apply modPower_ch
    | with_reducible apply bootEnables_ch
    | ((with_reducible refine part_sub hP ?_); rfl)
    | with_reducible apply foldl_ch
    | with_reducible apply foldl_ch1
    | (intro x a hx; try beta_reduce)
    | fail_if_no_progress (with_reducible refine ch_served ?_ m_served)
    | with_reducible apply ch_ite

theorem advanceStart_ch {P : List Part} {b₀ : State} {s : State} (hP : [.fresh, .objs, .voteSecond, .host, .funcs, .sess, .frames, .served, .transit, .rings, .ports, .commits, .tilthLog, .hap, .panels, .snd, .fab, .world, .pins, .badStored, .power, .grog, .notes] ⊆ P) (hb₀ : Changes P b₀ s) : Changes P b₀ (advanceStart s) := by
  unfold advanceStart
  repeat' first
    | with_reducible assumption
    | with_reducible apply settle_ch
    | with_reducible apply modPower_ch
    | with_reducible apply stepSix_ch
    | ((with_reducible refine part_sub hP ?_); rfl)
    | (extract_lets +onlyGivenNames x; refine ch_step (P := P) (r := b₀) (x := x) ?_ (fun hx => ?_); subst x; rotate_left; clear_value x; revert x; intro _ _)
    | with_reducible apply ch_ite

theorem enterStandby_ch {P : List Part} {b₀ : State} {s : State} (hP : [.fresh, .objs, .voteSecond, .funcs, .sess, .frames, .served, .transit, .ports, .tilthLog, .fab, .power, .grog, .notes] ⊆ P) (hb₀ : Changes P b₀ s) : Changes P b₀ (enterStandby s) := by
  have m_transit : Part.transit ∈ P := part_mem hP rfl
  unfold enterStandby
  repeat' first
    | with_reducible assumption
    | with_reducible apply stopOutput_ch
    | with_reducible apply shutSpread_ch
    | with_reducible apply modPower_ch
    | with_reducible apply setMode_ch
    | ((with_reducible refine part_sub hP ?_); rfl)
    | with_reducible apply foldN_ch
    | (intro x a hx; try beta_reduce)
    | fail_if_no_progress (with_reducible refine ch_transit ?_ m_transit)
    | with_reducible apply ch_ite

theorem standbyNext_ch {P : List Part} {b₀ : State} {s : State} (hP : [.fresh, .objs, .voteSecond, .host, .funcs, .sess, .freeSlots, .served, .transit, .rings, .hap, .panels, .snd, .power, .grog, .notes] ⊆ P) (hb₀ : Changes P b₀ s) : Changes P b₀ (standbyNext s) := by
  have m_served : Part.served ∈ P := part_mem hP rfl
  unfold standbyNext
  repeat' first
    | with_reducible assumption
    | with_reducible apply hf1
    | with_reducible apply hf2
    | with_reducible apply hf3
    | with_reducible apply settle_ch
    | with_reducible apply closeWhere_ch
    | with_reducible apply shutHaptics_ch
    | with_reducible apply shutPanel_ch
    | with_reducible apply shutSound_ch
    | with_reducible apply endChime_ch
    | with_reducible apply modPower_ch
    | ((with_reducible refine part_sub hP ?_); rfl)
    | with_reducible apply foldN_ch
    | (intro x a hx; try beta_reduce)
    | (intro x hx; try beta_reduce)
    | (extract_lets +onlyGivenNames x; refine ch_step (P := P) (r := b₀) (x := x) ?_ (fun hx => ?_); subst x; rotate_left; clear_value x; revert x; intro _ _)
    | (extract_lets +onlyGivenNames x; refine ch_stepF1 (P := P) (r := b₀) (x := x) ?_ (fun hx => ?_); subst x; rotate_left; clear_value x; revert x; intro _ hf1)
    | (extract_lets +onlyGivenNames x; clear_value x; revert x; intro _)
    | fail_if_no_progress (with_reducible refine ch_served ?_ m_served)
    | with_reducible apply ch_ite

theorem advanceStandby_ch {P : List Part} {b₀ : State} {s : State} (hP : [.fresh, .objs, .voteSecond, .host, .funcs, .sess, .freeSlots, .served, .transit, .rings, .hap, .panels, .snd, .power, .grog, .notes] ⊆ P) (hb₀ : Changes P b₀ s) : Changes P b₀ (advanceStandby s) := by
  unfold advanceStandby
  repeat' first
    | with_reducible assumption
    | with_reducible apply standbyNext_ch
    | with_reducible apply ch_ite

theorem resetCut_ch {P : List Part} {b₀ : State} {s : State} (hP : (Part.but [.pending, .now, .fresh, .mram, .defaultsDue, .voteSecond, .host, .resp, .twResp, .can, .frames, .frameSent, .ehrica, .pins, .grog]) ⊆ P) (hb₀ : Changes P b₀ s) : Changes P b₀ (resetCut s) := by
  unfold resetCut
  repeat' first
    | with_reducible assumption
    | with_reducible apply modPower_ch
    | with_reducible apply freshState_ch
    | ((with_reducible refine part_sub hP ?_); rfl)
    | with_reducible apply ch_ite
    | split

theorem powerTimers_ch {P : List Part} {b₀ : State} {s : State} (hP : (Part.but [.pending, .now, .mram, .defaultsDue, .resp, .twResp, .can, .frameSent]) ⊆ P) (hb₀ : Changes P b₀ s) : Changes P b₀ (powerTimers s) := by
  unfold powerTimers
  repeat' first
    | with_reducible assumption
    | with_reducible apply supplyRules_ch
    | with_reducible apply advanceStart_ch
    | with_reducible apply advanceStandby_ch
    | with_reducible apply resetCut_ch
    | ((with_reducible refine part_sub hP ?_); rfl)
    | with_reducible apply ch_ite

theorem powerDone_ch {P : List Part} {b₀ : State} {s : State} (hP : [.fresh, .objs, .voteSecond, .host, .funcs, .sess, .freeSlots, .frames, .served, .transit, .rings, .ports, .commits, .tilthLog, .hap, .panels, .snd, .fab, .world, .pins, .badStored, .power, .grog, .notes] ⊆ P) (hb₀ : Changes P b₀ s) : Changes P b₀ (powerDone s) := by
  unfold powerDone
  repeat' first
    | with_reducible assumption
    | with_reducible apply powerSettle_ch
    | with_reducible apply advanceStart_ch
    | with_reducible apply advanceStandby_ch
    | ((with_reducible refine part_sub hP ?_); rfl)

theorem standbyAsk_ch {P : List Part} {b₀ : State} {s : State} {role : Role} {ds : List Nat} (hP : [.fresh, .voteSecond, .funcs, .sess, .ehrica, .grog, .notes] ⊆ P) (hb₀ : Changes P b₀ s) : Changes P b₀ (standbyAsk s role ds) := by
  unfold standbyAsk
  repeat' first
    | with_reducible assumption
    | with_reducible apply interruptTw_ch
    | with_reducible apply emit_ch
    | ((with_reducible refine part_sub hP ?_); rfl)

theorem pwrReqApply_ch {P : List Part} {b₀ : State} {s : State} {v : Nat} (hP : (Part.but [.pending, .now]) ⊆ P) (hb₀ : Changes P b₀ s) : Changes P b₀ (pwrReqApply s v).1 := by
  unfold pwrReqApply
  repeat' first
    | with_reducible assumption
    | with_reducible apply writeN_ch
    | with_reducible apply modPower_ch
    | with_reducible apply coldStart_ch
    | with_reducible apply enterStandby_ch
    | with_reducible apply powerDone_ch
    | ((with_reducible refine part_sub hP ?_); rfl)
    | (extract_lets +onlyGivenNames x; refine ch_step (P := P) (r := b₀) (x := x) ?_ (fun hx => ?_); subst x; rotate_left; clear_value x; revert x; intro _ _)
    | with_reducible apply ch_ite
    | with_reducible apply ch_ite1

theorem pwrResetApply_ch {P : List Part} {b₀ : State} {s : State} (hP : [.ehrica, .power] ⊆ P) (hb₀ : Changes P b₀ s) : Changes P b₀ (pwrResetApply s) := by
  unfold pwrResetApply
  repeat' first
    | with_reducible assumption
    | with_reducible apply interruptTw_ch
    | with_reducible apply modPower_ch
    | ((with_reducible refine part_sub hP ?_); rfl)

theorem domHoldApply_ch {P : List Part} {b₀ : State} {s : State} {d : Nat} {on : Bool} (hP : [.fresh, .objs, .voteSecond, .host, .funcs, .sess, .freeSlots, .frames, .served, .transit, .rings, .ports, .commits, .tilthLog, .hap, .panels, .snd, .fab, .world, .pins, .badStored, .power, .grog, .notes] ⊆ P) (hb₀ : Changes P b₀ s) : Changes P b₀ (domHoldApply s d on).1 := by
  unfold domHoldApply
  repeat' first
    | with_reducible assumption
    | with_reducible apply writeB_ch
    | with_reducible apply settle_ch
    | with_reducible apply enableWrite_ch
    | with_reducible apply powerDone_ch
    | ((with_reducible refine part_sub hP ?_); rfl)
    | (intro x hx; try beta_reduce)

theorem domTwApply_ch {P : List Part} {b₀ : State} {s : State} {d : Nat} {on : Bool} (hP : [.fresh, .objs, .voteSecond, .host, .funcs, .sess, .freeSlots, .frames, .served, .transit, .rings, .ports, .commits, .tilthLog, .hap, .panels, .snd, .fab, .world, .pins, .badStored, .power, .grog, .notes] ⊆ P) (hb₀ : Changes P b₀ s) : Changes P b₀ (domTwApply s d on).1 := by
  unfold domTwApply
  repeat' first
    | with_reducible assumption
    | with_reducible apply writeB_ch
    | with_reducible apply dropTransit_ch
    | with_reducible apply addTransit_ch
    | with_reducible apply powerDone_ch
    | ((with_reducible refine part_sub hP ?_); rfl)
    | (extract_lets +onlyGivenNames x; clear_value x; revert x; intro _)
    | with_reducible apply ch_ite
    | with_reducible apply ch_ite1

theorem claimWrite_ch {P : List Part} {b₀ : State} {s : State} {d : Nat} {v : Bool} (hP : [.fresh, .objs, .voteSecond, .host, .funcs, .sess, .freeSlots, .frames, .served, .transit, .rings, .ports, .commits, .tilthLog, .hap, .panels, .snd, .fab, .world, .pins, .badStored, .power, .grog, .notes] ⊆ P) (hb₀ : Changes P b₀ s) : Changes P b₀ (claimWrite s d v) := by
  unfold claimWrite
  repeat' first
    | with_reducible assumption
    | with_reducible apply claimHoldApply_ch
    | with_reducible apply powerDone_ch
    | ((with_reducible refine part_sub hP ?_); rfl)

theorem execPowerGood_ch {P : List Part} {b₀ : State} {open0 open1 : Bool} {s : State} (hP : (Part.but [.pending, .now, .host]) ⊆ P) (hb₀ : Changes P b₀ s) : ChangesAll P b₀ (execPowerGood open0 open1 s) := by
  unfold execPowerGood
  repeat' first
    | with_reducible assumption
    | with_reducible apply hf1
    | with_reducible apply hf2
    | with_reducible apply hf3
    | with_reducible apply modPower_ch
    | with_reducible apply coldStart_ch
    | ((with_reducible refine part_sub hP ?_); rfl)
    | with_reducible apply changes_next
    | with_reducible apply changes_fault
    | (extract_lets +onlyGivenNames x; clear_value x; revert x; intro _)
    | with_reducible refine ch_fst (by with_reducible assumption) ?_
    | with_reducible apply ch_ite
    | with_reducible apply changes_ite

theorem execDomainRampStart_ch {P : List Part} {b₀ : State} {domain : Fin 24} {s : State} (hP : [.fresh, .objs, .voteSecond, .funcs, .sess, .transit, .power, .grog, .notes] ⊆ P) (hb₀ : Changes P b₀ s) : ChangesAll P b₀ (execDomainRampStart domain s) := by
  unfold execDomainRampStart
  repeat' first
    | with_reducible assumption
    | with_reducible apply putN_ch
    | with_reducible apply resolved_ch
    | with_reducible apply modPower_ch
    | ((with_reducible refine part_sub hP ?_); rfl)
    | with_reducible apply changes_next
    | with_reducible apply changes_fault
    | (extract_lets +onlyGivenNames x; refine ch_step (P := P) (r := b₀) (x := x) ?_ (fun hx => ?_); subst x; rotate_left; clear_value x; revert x; intro _ _)
    | (extract_lets +onlyGivenNames x; clear_value x; revert x; intro _)
    | with_reducible apply ch_ite
    | with_reducible apply changes_ite

theorem rebuildUnits_ch {P : List Part} {b₀ : State} {s : State} {d : Nat} (hP : [.fresh, .objs] ⊆ P) (hb₀ : Changes P b₀ s) : Changes P b₀ (rebuildUnits s d) := by
  unfold rebuildUnits
  repeat' first
    | with_reducible assumption
    | with_reducible apply hf1
    | with_reducible apply hf2
    | with_reducible apply hf3
    | with_reducible apply putN_ch
    | with_reducible apply measureFirst_ch
    | ((with_reducible refine part_sub hP ?_); rfl)
    | with_reducible apply foldN_ch
    | (intro x a hx; try beta_reduce)
    | (extract_lets +onlyGivenNames x; refine ch_stepF2 (P := P) (r := b₀) (x := x) ?_ (fun hx => ?_); subst x; rotate_left; clear_value x; revert x; intro _ hf2)
    | with_reducible apply ch_ite

theorem execDomainRampDone_ch {P : List Part} {b₀ : State} {domain : Fin 24} {s : State} (hP : [.fresh, .objs] ⊆ P) (hb₀ : Changes P b₀ s) : ChangesAll P b₀ (execDomainRampDone domain s) := by
  unfold execDomainRampDone
  repeat' first
    | with_reducible assumption
    | with_reducible apply putN_ch
    | with_reducible apply bump_ch
    | with_reducible apply rebuildUnits_ch
    | ((with_reducible refine part_sub hP ?_); rfl)
    | with_reducible apply changes_next
    | with_reducible apply changes_fault
    | (extract_lets +onlyGivenNames x; refine ch_step (P := P) (r := b₀) (x := x) ?_ (fun hx => ?_); subst x; rotate_left; clear_value x; revert x; intro _ _)
    | (extract_lets +onlyGivenNames x; clear_value x; revert x; intro _)
    | with_reducible apply ch_ite
    | with_reducible apply changes_ite

theorem domainStarts_ch {P : List Part} {b₀ : State} {s : State} {d : Nat} (hP : [.fresh, .objs, .voteSecond, .host, .funcs, .sess, .freeSlots, .frames, .served, .rings, .ctxs, .cores, .ports, .commits, .tilthLog, .snd, .fab, .world, .pins, .badStored, .power, .grog, .engineGen, .kram, .notes] ⊆ P) (hb₀ : Changes P b₀ s) : Changes P b₀ (domainStarts s d) := by
  have m_served : Part.served ∈ P := part_mem hP rfl
  unfold domainStarts
  repeat' first
    | with_reducible assumption
    | with_reducible apply putN_ch
    | with_reducible apply clearPinCrossings_ch
    | with_reducible apply gateAbort_ch
    | with_reducible apply loneRestart_ch
    | with_reducible apply tryKaolinLoad_ch
    | with_reducible apply tryStart_ch
    | with_reducible apply trySpare_ch
    | with_reducible apply sndTryRun_ch
    | with_reducible apply fabricOn_ch
    | with_reducible apply modPower_ch
    | ((with_reducible refine part_sub hP ?_); rfl)
    | with_reducible apply foldN_ch
    | (intro x a hx; try beta_reduce)
    | (extract_lets +onlyGivenNames x; refine ch_step (P := P) (r := b₀) (x := x) ?_ (fun hx => ?_); subst x; rotate_left; clear_value x; revert x; intro _ _)
    | fail_if_no_progress (with_reducible refine ch_served ?_ m_served)
    | with_reducible apply ch_ite

theorem sliceTested_ch {P : List Part} {b₀ : State} {s : State} {d : Nat} {failed passing : Nat → Bool} (hP : [.fresh, .objs, .voteSecond, .funcs, .sess, .frames, .served, .ehrica, .cores, .tilthLog, .power, .grog, .notes] ⊆ P) (hb₀ : Changes P b₀ s) : Changes P b₀ (sliceTested s d failed passing) := by
  unfold sliceTested
  repeat' first
    | with_reducible assumption
    | with_reducible apply coreLost_ch
    | with_reducible apply foldN_ch
    | (intro x a hx; try beta_reduce)
    | with_reducible apply ch_ite

theorem execDomainOn_ch {P : List Part} {b₀ : State} {domain : Fin 24} {failed sparePasses : List (Fin 36)} {s : State} (hP : [.fresh, .objs, .voteSecond, .host, .funcs, .sess, .freeSlots, .frames, .served, .transit, .ehrica, .rings, .ctxs, .cores, .ports, .commits, .tilthLog, .hap, .panels, .snd, .fab, .world, .pins, .badStored, .power, .grog, .engineGen, .kram, .notes] ⊆ P) (hb₀ : Changes P b₀ s) : ChangesAll P b₀ (execDomainOn domain failed sparePasses s) := by
  unfold execDomainOn
  repeat' first
    | with_reducible assumption
    | with_reducible apply putN_ch
    | with_reducible apply powerDone_ch
    | with_reducible apply domainStarts_ch
    | with_reducible apply sliceTested_ch
    | ((with_reducible refine part_sub hP ?_); rfl)
    | with_reducible apply changes_next
    | with_reducible apply changes_fault
    | (extract_lets +onlyGivenNames x; refine ch_step (P := P) (r := b₀) (x := x) ?_ (fun hx => ?_); subst x; rotate_left; clear_value x; revert x; intro _ _)
    | (extract_lets +onlyGivenNames x; clear_value x; revert x; intro _)
    | with_reducible apply ch_ite
    | with_reducible apply changes_ite

theorem domainEnds_ch {P : List Part} {b₀ : State} {s : State} {d : Nat} (hP : [.fresh, .objs, .voteSecond, .host, .funcs, .sess, .freeSlots, .frames, .served, .transit, .rings, .ports, .commits, .tilthLog, .dram, .mem, .hap, .panels, .snd, .fab, .world, .power, .grog, .kram, .kold, .notes] ⊆ P) (hb₀ : Changes P b₀ s) : Changes P b₀ (domainEnds s d) := by
  have m_served : Part.served ∈ P := part_mem hP rfl
  have m_kram : Part.kram ∈ P := part_mem hP rfl
  have m_kold : Part.kold ∈ P := part_mem hP rfl
  unfold domainEnds
  repeat' first
    | with_reducible assumption
    | with_reducible apply putN_ch
    | with_reducible apply closeWhere_ch
    | with_reducible apply zeroTrusted_ch
    | with_reducible apply finishStop_ch
    | with_reducible apply hapQueued_ch
    | with_reducible apply panelQueued_ch
    | with_reducible apply sndQueued_ch
    | with_reducible apply sndStopCheck_ch
    | with_reducible apply fabricCut_ch
    | with_reducible apply linkQueued_ch
    | with_reducible apply spreadQueued_ch
    | with_reducible apply modPower_ch
    | with_reducible apply loseGroup_ch
    | with_reducible apply restartMigration_ch
    | ((with_reducible refine part_sub hP ?_); rfl)
    | with_reducible apply foldN_ch
    | (intro x a hx; try beta_reduce)
    | (extract_lets +onlyGivenNames x; refine ch_step (P := P) (r := b₀) (x := x) ?_ (fun hx => ?_); subst x; rotate_left; clear_value x; revert x; intro _ _)
    | fail_if_no_progress (with_reducible refine ch_served ?_ m_served)
    | fail_if_no_progress (with_reducible refine ch_kram_kold ?_ m_kram m_kold)
    | with_reducible apply ch_ite

theorem execDomainOff_ch {P : List Part} {b₀ : State} {domain : Fin 24} {s : State} (hP : [.fresh, .objs, .voteSecond, .host, .funcs, .sess, .freeSlots, .frames, .served, .transit, .rings, .ports, .commits, .tilthLog, .dram, .mem, .hap, .panels, .snd, .fab, .world, .pins, .badStored, .power, .grog, .kram, .kold, .notes] ⊆ P) (hb₀ : Changes P b₀ s) : ChangesAll P b₀ (execDomainOff domain s) := by
  unfold execDomainOff
  repeat' first
    | with_reducible assumption
    | with_reducible apply putN_ch
    | with_reducible apply dropTransit_ch
    | with_reducible apply shed_ch
    | with_reducible apply powerDone_ch
    | with_reducible apply domainEnds_ch
    | ((with_reducible refine part_sub hP ?_); rfl)
    | with_reducible apply changes_next
    | with_reducible apply changes_fault
    | (extract_lets +onlyGivenNames x; refine ch_step (P := P) (r := b₀) (x := x) ?_ (fun hx => ?_); subst x; rotate_left; clear_value x; revert x; intro _ _)
    | (extract_lets +onlyGivenNames x; clear_value x; revert x; intro _)
    | with_reducible apply ch_ite
    | with_reducible apply changes_ite

theorem execStandbyReached_ch {P : List Part} {b₀ : State} {s : State} (hP : (Part.but [.pending, .now, .host]) ⊆ P) (hb₀ : Changes P b₀ s) : ChangesAll P b₀ (execStandbyReached s) := by
  unfold execStandbyReached
  repeat' first
    | with_reducible assumption
    | with_reducible apply putN_ch
    | with_reducible apply pinsToStandby_ch
    | with_reducible apply zeroTrusted_ch
    | with_reducible apply modPower_ch
    | with_reducible apply setMode_ch
    | with_reducible apply coldStart_ch
    | ((with_reducible refine part_sub hP ?_); rfl)
    | with_reducible apply changes_next
    | with_reducible apply changes_fault
    | (extract_lets +onlyGivenNames x; refine ch_step (P := P) (r := b₀) (x := x) ?_ (fun hx => ?_); subst x; rotate_left; clear_value x; revert x; intro _ _)
    | (extract_lets +onlyGivenNames x; clear_value x; revert x; intro _)
    | with_reducible apply ch_ite
    | with_reducible apply changes_ite
    | split

theorem execResetHoldExpiry_ch {P : List Part} {b₀ : State} {s : State} (hP : (Part.but [.pending, .now, .host]) ⊆ P) (hb₀ : Changes P b₀ s) : ChangesAll P b₀ (execResetHoldExpiry s) := by
  unfold execResetHoldExpiry
  repeat' first
    | with_reducible assumption
    | with_reducible apply coldStart_ch
    | with_reducible apply resetCut_ch
    | ((with_reducible refine part_sub hP ?_); rfl)
    | with_reducible apply changes_next
    | with_reducible apply changes_fault
    | (extract_lets +onlyGivenNames x; refine ch_step (P := P) (r := b₀) (x := x) ?_ (fun hx => ?_); subst x; rotate_left; clear_value x; revert x; intro _ _)
    | with_reducible apply ch_ite
    | with_reducible apply changes_ite
    | split

theorem execPerstDeassert_ch {P : List Part} {b₀ : State} {h1 : Bool} {offered : Fin 17} {reversed : Bool} {inverted : BitVec 16} {refclk : Bool} {s : State} (hP : [.power] ⊆ P) (hb₀ : Changes P b₀ s) : ChangesAll P b₀ (execPerstDeassert h1 offered reversed inverted refclk s) := by
  unfold execPerstDeassert
  repeat' first
    | with_reducible assumption
    | with_reducible apply modPower_ch
    | with_reducible apply changes_next

theorem execHostAvailability_ch {P : List Part} {b₀ : State} {s : State} (hP : [.fresh, .objs, .voteSecond, .host, .funcs, .sess, .frames, .served, .transit, .rings, .ports, .commits, .tilthLog, .hap, .panels, .snd, .fab, .power, .grog, .notes] ⊆ P) (hb₀ : Changes P b₀ s) : ChangesAll P b₀ (execHostAvailability s) := by
  unfold execHostAvailability
  repeat' first
    | with_reducible assumption
    | with_reducible apply putN_ch
    | with_reducible apply modPower_ch
    | with_reducible apply powerSettle_ch
    | with_reducible apply setMode_ch
    | ((with_reducible refine part_sub hP ?_); rfl)
    | with_reducible apply changes_next
    | with_reducible apply changes_fault
    | (extract_lets +onlyGivenNames x; refine ch_step (P := P) (r := b₀) (x := x) ?_ (fun hx => ?_); subst x; rotate_left; clear_value x; revert x; intro _ _)
    | (extract_lets +onlyGivenNames x; clear_value x; revert x; intro _)
    | with_reducible apply ch_ite
    | with_reducible apply changes_ite

theorem execTwRestartDone_ch {P : List Part} {b₀ : State} {outcome : BootOutcome} {s : State} (hP : [.fresh, .objs, .voteSecond, .host, .funcs, .sess, .freeSlots, .frames, .served, .transit, .ehrica, .rings, .ports, .commits, .tilthLog, .hap, .panels, .snd, .fab, .world, .pins, .badStored, .power, .grog, .kram, .notes] ⊆ P) (hb₀ : Changes P b₀ s) : ChangesAll P b₀ (execTwRestartDone outcome s) := by
  unfold execTwRestartDone
  repeat' first
    | with_reducible assumption
    | with_reducible apply twRestartDone_ch
    | with_reducible apply powerDone_ch
    | ((with_reducible refine part_sub hP ?_); rfl)
    | with_reducible apply changes_next

theorem execCutNoticeExpiry_ch {P : List Part} {b₀ : State} {domain : Fin 24} {s : State} (hP : (Part.but [.pending, .now, .mram, .defaultsDue, .votes, .resp, .twResp, .portals, .can, .frameSent, .fenceGen, .progs, .surfs, .scrubs, .islTime, .rateStop, .migs, .bodies, .refuseLog, .engineGen]) ⊆ P) (hb₀ : Changes P b₀ s) : ChangesAll P b₀ (execCutNoticeExpiry domain s) := by
  unfold execCutNoticeExpiry
  repeat' first
    | with_reducible assumption
    | with_reducible apply cutDomain_ch
    | with_reducible apply powerDone_ch
    | ((with_reducible refine part_sub hP ?_); rfl)
    | with_reducible apply changes_next
    | with_reducible apply changes_fault
    | with_reducible apply ch_ite
    | with_reducible apply changes_ite

theorem execThermalSample_ch {P : List Part} {b₀ : State} {temps : List (BitVec 32)} {s : State} (hP : (Part.but [.pending, .now, .mram, .defaultsDue, .votes, .resp, .twResp, .portals, .can, .frameSent, .fenceGen, .progs, .surfs, .scrubs, .islTime, .rateStop, .migs, .bodies, .refuseLog, .engineGen]) ⊆ P) (hb₀ : Changes P b₀ s) : ChangesAll P b₀ (execThermalSample temps s) := by
  unfold execThermalSample
  repeat' first
    | with_reducible assumption
    | with_reducible apply putN_ch
    | with_reducible apply thermalRules_ch
    | with_reducible apply powerDone_ch
    | ((with_reducible refine part_sub hP ?_); rfl)
    | with_reducible apply changes_next
    | with_reducible apply changes_fault
    | with_reducible apply foldN_ch
    | (intro x a hx; try beta_reduce)
    | (extract_lets +onlyGivenNames x; refine ch_step (P := P) (r := b₀) (x := x) ?_ (fun hx => ?_); subst x; rotate_left; clear_value x; revert x; intro _ _)
    | with_reducible apply ch_ite
    | with_reducible apply changes_ite
    | split

theorem execThrottleStepTimer_ch {P : List Part} {b₀ : State} {s : State} (hP : (Part.but [.pending, .now, .mram, .defaultsDue, .votes, .resp, .twResp, .portals, .can, .frameSent, .fenceGen, .progs, .surfs, .scrubs, .islTime, .rateStop, .migs, .bodies, .refuseLog, .engineGen]) ⊆ P) (hb₀ : Changes P b₀ s) : ChangesAll P b₀ (execThrottleStepTimer s) := by
  unfold execThrottleStepTimer
  repeat' first
    | with_reducible assumption
    | with_reducible apply throttleStep_ch
    | with_reducible apply powerDone_ch
    | ((with_reducible refine part_sub hP ?_); rfl)
    | with_reducible apply changes_next
    | with_reducible apply changes_fault
    | with_reducible apply ch_ite
    | with_reducible apply changes_ite

theorem execSupplyChange_ch {P : List Part} {b₀ : State} {mv : BitVec 16} {s : State} (hP : (Part.but [.pending, .now, .mram, .defaultsDue]) ⊆ P) (hb₀ : Changes P b₀ s) : ChangesAll P b₀ (execSupplyChange mv s) := by
  unfold execSupplyChange
  repeat' first
    | with_reducible assumption
    | with_reducible apply hf1
    | with_reducible apply hf2
    | with_reducible apply hf3
    | with_reducible apply putN_ch
    | with_reducible apply modPower_ch
    | with_reducible apply cutMany_ch
    | with_reducible apply declare_ch
    | with_reducible apply supplyRules_ch
    | with_reducible apply powerLost_ch
    | with_reducible apply powerDone_ch
    | ((with_reducible refine part_sub hP ?_); rfl)
    | with_reducible apply changes_next
    | with_reducible apply changes_fault
    | (extract_lets +onlyGivenNames x; refine ch_step (P := P) (r := b₀) (x := x) ?_ (fun hx => ?_); subst x; rotate_left; clear_value x; revert x; intro _ _)
    | (extract_lets +onlyGivenNames x; clear_value x; revert x; intro _)
    | with_reducible apply ch_ite
    | with_reducible apply changes_ite

theorem clearEmergency_ch {P : List Part} {b₀ : State} {s : State} {code since : Nat} (hP : (Part.but [.pending, .now, .host, .resp, .twResp, .can, .frameSent, .ehrica, .pins]) ⊆ P) (hb₀ : Changes P b₀ s) : Changes P b₀ (clearEmergency s code since) := by
  unfold clearEmergency
  repeat' first
    | with_reducible assumption
    | with_reducible apply putN_ch
    | with_reducible apply emitSb_ch
    | with_reducible apply openRestart_ch
    | ((with_reducible refine part_sub hP ?_); rfl)
    | with_reducible apply foldN_ch
    | (intro x a hx; try beta_reduce)
    | (extract_lets +onlyGivenNames x; refine ch_step (P := P) (r := b₀) (x := x) ?_ (fun hx => ?_); subst x; rotate_left; clear_value x; revert x; intro _ _)
    | with_reducible apply ch_ite

theorem execEmergencyClear_ch {P : List Part} {b₀ : State} {s : State} (hP : (Part.but [.pending, .now, .resp, .twResp, .can, .frameSent, .ehrica]) ⊆ P) (hb₀ : Changes P b₀ s) : ChangesAll P b₀ (execEmergencyClear s) := by
  unfold execEmergencyClear
  repeat' first
    | with_reducible assumption
    | with_reducible apply modPower_ch
    | with_reducible apply showLevel_ch
    | with_reducible apply powerDone_ch
    | with_reducible apply clearEmergency_ch
    | ((with_reducible refine part_sub hP ?_); rfl)
    | with_reducible apply changes_next
    | with_reducible apply changes_fault
    | (extract_lets +onlyGivenNames x; refine ch_step (P := P) (r := b₀) (x := x) ?_ (fun hx => ?_); subst x; rotate_left; clear_value x; revert x; intro _ _)
    | with_reducible apply ch_ite
    | with_reducible apply changes_ite
    | split

theorem execSidePinEdge_ch {P : List Part} {b₀ : State} {pin : Fin 96} {level : Bool} {s : State} (hP : (Part.but [.pending, .now]) ⊆ P) (hb₀ : Changes P b₀ s) : ChangesAll P b₀ (execSidePinEdge pin level s) := by
  unfold execSidePinEdge
  repeat' first
    | with_reducible assumption
    | with_reducible apply pinEdge_ch
    | with_reducible apply coldStart_ch
    | ((with_reducible refine part_sub hP ?_); rfl)
    | with_reducible apply changes_next
    | with_reducible apply changes_fault
    | (extract_lets +onlyGivenNames x; refine ch_step (P := P) (r := b₀) (x := x) ?_ (fun hx => ?_); subst x; rotate_left; clear_value x; revert x; intro _ _)
    | (extract_lets +onlyGivenNames x; clear_value x; revert x; intro _)
    | with_reducible apply ch_ite
    | with_reducible apply changes_ite

end Sys2Proof.Machine
end

