-- ==== Sys2Proof/Laws/ChangesRetest.lean ====
section
/-!
SUPPORT. What each operation of Machine/Retest.lean may change.
-/

namespace Sys2Proof.Machine

theorem unitReturns_ch {P : List Part} {b₀ : State} {s : State} {cls u : Nat} (hP : [.objs, .grog] ⊆ P) (hb₀ : Changes P b₀ s) : Changes P b₀ (unitReturns s cls u) := by
  unfold unitReturns
  repeat' first
    | with_reducible assumption
    | with_reducible apply putN_ch
    | with_reducible apply modGrog_ch
    | with_reducible apply setUnit_ch
    | with_reducible apply countCores_ch
    | ((with_reducible refine part_sub hP ?_); rfl)
    | (extract_lets +onlyGivenNames x; refine ch_step (P := P) (r := b₀) (x := x) ?_ (fun hx => ?_); subst x; rotate_left; clear_value x; revert x; intro _ _)
    | with_reducible apply ch_ite

theorem retestApply_ch {P : List Part} {b₀ : State} {s : State} {v : Nat} {passes : Bool} (hP : [.fresh, .objs, .voteSecond, .funcs, .sess, .frames, .grog, .engineGen, .notes] ⊆ P) (hb₀ : Changes P b₀ s) : Changes P b₀ (retestApply s v passes) := by
  unfold retestApply
  repeat' first
    | with_reducible assumption
    | with_reducible apply grogLog_ch
    | with_reducible apply updateHealth_ch
    | with_reducible apply advanceGen_ch
    | with_reducible apply unitReturns_ch
    | ((with_reducible refine part_sub hP ?_); rfl)
    | (extract_lets +onlyGivenNames x; clear_value x; revert x; intro _)
    | with_reducible refine ch_fst (by with_reducible assumption) ?_
    | with_reducible apply ch_ite

theorem diagApply_ch {P : List Part} {b₀ : State} {s : State} {v : Nat} (hP : [.fresh, .objs, .grog] ⊆ P) (hb₀ : Changes P b₀ s) : Changes P b₀ (diagApply s v) := by
  have m_fresh : Part.fresh ∈ P := part_mem hP rfl
  unfold diagApply
  repeat' first
    | with_reducible assumption
    | with_reducible apply hf1
    | with_reducible apply hf2
    | with_reducible apply hf3
    | with_reducible apply writeN_ch
    | with_reducible apply grogLog_ch
    | ((with_reducible refine part_sub hP ?_); rfl)
    | (extract_lets +onlyGivenNames x; refine ch_step (P := P) (r := b₀) (x := x) ?_ (fun hx => ?_); subst x; rotate_left; clear_value x; revert x; intro _ _)
    | (extract_lets +onlyGivenNames x; clear_value x; revert x; intro _)
    | fail_if_no_progress (with_reducible refine ch_fresh ?_ m_fresh)
    | with_reducible apply ch_ite

end Sys2Proof.Machine
end

