-- ==== Sys2Proof/Laws/ChangesDictionary.lean ====
section
/-!
SUPPORT. What each operation of Machine/Dictionary.lean may change.
-/

namespace Sys2Proof.Machine

theorem relayApply_ch {P : List Part} {b₀ : State} {s : State} {c : WCtx} {b : List Byte} (hP : [.sess] ⊆ P) (hb₀ : Changes P b₀ s) : Changes P b₀ (relayApply s c b) := by
  unfold relayApply
  repeat' first
    | with_reducible assumption
    | with_reducible apply hf1
    | with_reducible apply hf2
    | with_reducible apply hf3
    | with_reducible apply modSess_ch
    | (extract_lets +onlyGivenNames x; clear_value x; revert x; intro _)
    | with_reducible apply ch_ite
    | split

theorem accepted_ch {P : List Part} {b₀ : State} {s : State} (_hP : [] ⊆ P) (hb₀ : Changes P b₀ s) : Changes P b₀ (accepted s).1 := by
  unfold accepted
  repeat' first
    | with_reducible assumption

theorem powered_ch {P : List Part} {b₀ : State} {r : State × Status} (hP : [.fresh, .objs, .voteSecond, .host, .funcs, .sess, .freeSlots, .frames, .served, .transit, .rings, .ports, .commits, .tilthLog, .hap, .panels, .snd, .fab, .world, .pins, .badStored, .power, .grog, .notes] ⊆ P) (hb₀ : Changes P b₀ r.1) : Changes P b₀ (powered r).1 := by
  unfold powered
  repeat' first
    | with_reducible assumption
    | with_reducible apply hf1
    | with_reducible apply hf2
    | with_reducible apply hf3
    | with_reducible apply powerDone_ch

theorem areaApply_ch {P : List Part} {b₀ : State} {s : State} {c : WCtx} {idx sub : Nat} {x : Val} (hP : (Part.but [.pending, .now]) ⊆ P) (hb₀ : Changes P b₀ s) : Changes P b₀ (areaApply s c idx sub x).1 := by
  have m_defaultsDue : Part.defaultsDue ∈ P := part_mem hP rfl
  unfold areaApply
  repeat' first
    | with_reducible assumption
    | with_reducible apply hf1
    | with_reducible apply hf2
    | with_reducible apply hf3
    | with_reducible apply writeV_ch
    | with_reducible apply writeB_ch
    | with_reducible apply draw_ch
    | with_reducible apply surfApply_ch
    | with_reducible apply settle_ch
    | with_reducible apply enableWrite_ch
    | with_reducible apply updateHealth_ch
    | with_reducible apply pinApply_ch
    | with_reducible apply pinTApply_ch
    | with_reducible apply memApply_ch
    | with_reducible apply kaolinCommitOp_ch
    | with_reducible apply dmaTApply_ch
    | with_reducible apply nonceApply_ch
    | with_reducible apply islandApply_ch
    | with_reducible apply outApply_ch
    | with_reducible apply layerApply_ch
    | with_reducible apply fenceApply_ch
    | with_reducible apply progApply_ch
    | with_reducible apply ctxApply_ch
    | with_reducible apply ringApply_ch
    | with_reducible apply resetChannel_ch
    | with_reducible apply hapEnableApply_ch
    | with_reducible apply chanApply_ch
    | with_reducible apply panelApply_ch
    | with_reducible apply captureApply_ch
    | with_reducible apply rampGain_ch
    | with_reducible apply streamApply_ch
    | with_reducible apply sndEnableApply_ch
    | with_reducible apply startSpread_ch
    | with_reducible apply stopSpread_ch
    | with_reducible apply spreadSweep_ch
    | with_reducible apply spreadCommit_ch
    | with_reducible apply pwrReqApply_ch
    | with_reducible apply pwrResetApply_ch
    | with_reducible apply domHoldApply_ch
    | with_reducible apply domTwApply_ch
    | with_reducible apply claimWrite_ch
    | with_reducible apply grantApply_ch
    | with_reducible apply regionApply_ch
    | with_reducible apply vfEnableApply_ch
    | with_reducible apply vfFlrApply_ch
    | with_reducible apply freezeApply_ch
    | with_reducible apply saveApply_ch
    | with_reducible apply restoreApply_ch
    | with_reducible apply logApply_ch
    | with_reducible apply retestApply_ch
    | with_reducible apply diagApply_ch
    | with_reducible apply relayApply_ch
    | with_reducible apply accepted_ch
    | with_reducible apply powered_ch
    | ((with_reducible refine part_sub hP ?_); rfl)
    | (intro x hx; try beta_reduce)
    | (extract_lets +onlyGivenNames x; refine ch_step1 (P := P) (r := b₀) (x := x) ?_ (fun hx => ?_); subst x; rotate_left; clear_value x; revert x; intro _ _)
    | (extract_lets +onlyGivenNames x; clear_value x; revert x; intro _)
    | with_reducible refine ch_fst (by with_reducible assumption) ?_
    | fail_if_no_progress (with_reducible refine ch_defaultsDue ?_ m_defaultsDue)
    | with_reducible apply ch_ite
    | with_reducible apply ch_ite1
    | split

theorem storeWrite_ch {P : List Part} {b₀ : State} {s : State} {c : WCtx} {r : ObjRow} {idx sub : Nat} {x : Val} (hP : (Part.but [.pending, .now]) ⊆ P) (hb₀ : Changes P b₀ s) : Changes P b₀ (storeWrite s c r idx sub x).state := by
  unfold storeWrite
  repeat' first
    | with_reducible assumption
    | with_reducible apply hf1
    | with_reducible apply hf2
    | with_reducible apply hf3
    | with_reducible apply storeKey_ch
    | with_reducible apply areaApply_ch
    | ((with_reducible refine part_sub hP ?_); rfl)
    | (extract_lets +onlyGivenNames x; clear_value x; revert x; intro _)
    | with_reducible refine ch_fst (by with_reducible assumption) ?_
    | with_reducible apply ch_ite
    | split

theorem writeObj_ch {P : List Part} {b₀ : State} {s : State} {c : WCtx} {h : ItemHdr} {data : List Byte} {expected : Option Nat} (hP : (Part.but [.pending, .now]) ⊆ P) (hb₀ : Changes P b₀ s) : Changes P b₀ (writeObj s c h data expected).state := by
  unfold writeObj
  repeat' first
    | with_reducible assumption
    | with_reducible apply hf1
    | with_reducible apply hf2
    | with_reducible apply hf3
    | with_reducible apply storeWrite_ch
    | (extract_lets +onlyGivenNames x; clear_value x; revert x; intro _)
    | with_reducible refine ch_fst (by with_reducible assumption) ?_
    | with_reducible apply ch_ite
    | split

theorem afterRefusal_ch {P : List Part} {b₀ : State} {s : State} {c : WCtx} {h : ItemHdr} {w : WriteOut} (hP : [.fresh, .objs, .voteSecond, .funcs, .sess, .ehrica, .refuseLog, .grog, .notes] ⊆ P)
    (hb₀ : Changes P b₀ s) : Changes P b₀ (afterRefusal s c h w) := by
  unfold afterRefusal
  have h1 := refuseClaim_ch (c := c) (session := c.session) (req := w.req) (ds := w.claims) (part_sub hP rfl) hb₀
  dsimp only
  exact ch_ite (ch_ite (standbyAsk_ch (part_sub hP rfl) h1) h1) hb₀

theorem WriteOut.settled_ch {P : List Part} {b₀ : State} {w : WriteOut} {s : State} {c : WCtx} {h : ItemHdr} (hP : [.fresh, .objs, .voteSecond, .funcs, .sess, .ehrica, .refuseLog, .grog, .notes] ⊆ P)
    (hb₀ : Changes P b₀ s) (hw : Changes P b₀ w.state) : Changes P b₀ (w.settled s c h) := by
  unfold WriteOut.settled
  exact ch_ite hw (afterRefusal_ch (part_sub hP rfl) hb₀)

end Sys2Proof.Machine
end

