-- ==== Sys2Proof/Laws/ChangesRequests.lean ====
section
/-!
SUPPORT. What each operation of Machine/Requests.lean may change.
-/

namespace Sys2Proof.Machine

theorem ch_stepW {P : List Part} {r : State} {x : WriteOut} {C : Prop} (h : Changes P r x.state) (k : Changes P r x.state → C) : C := k h

theorem ch_stepA {P : List Part} {r : State} {x : Answer} {C : Prop} (h : Changes P r x.state) (k : Changes P r x.state → C) : C := k h

theorem ch_stepG {P : List Part} {r : State} {x : GroupRun} {C : Prop} (h : Changes P r x.state) (k : Changes P r x.state → C) : C := k h

theorem foldlG_ch {α : Type} {P : List Part} {r : State} {s : GroupRun} {f : GroupRun → α → GroupRun} (l : List α)
    (h : Changes P r s.state) (hf : ∀ x a, Changes P r x.state → Changes P r (f x a).state) : Changes P r (l.foldl f s).state := by
  induction l generalizing s with
  | nil => exact h
  | cons a l ih => exact ih (hf _ _ h)

theorem ch_iteA {P : List Part} {r : State} {a b : Answer} {c : Prop} [Decidable c] (ha : Changes P r a.state)
    (hb : Changes P r b.state) : Changes P r (if c then a else b).state := by split <;> assumption

theorem refused_ch {P : List Part} {b₀ : State} {s : State} {st : Status} (hP : [.fresh] ⊆ P) (hb₀ : Changes P b₀ s) : Changes P b₀ (refused s st).state := by
  unfold refused
  repeat' first
    | with_reducible assumption
    | with_reducible apply hf1
    | with_reducible apply hf2
    | with_reducible apply hf3
    | with_reducible apply draw_ch

theorem opOpen_ch {P : List Part} {b₀ : State} {s : State} {src : Carrier} {lease tag : Nat} (hP : [.fresh, .sess, .freeSlots] ⊆ P) (hb₀ : Changes P b₀ s) : Changes P b₀ (opOpen s src lease tag).state := by
  have m_sess : Part.sess ∈ P := part_mem hP rfl
  have m_freeSlots : Part.freeSlots ∈ P := part_mem hP rfl
  unfold opOpen
  repeat' first
    | with_reducible assumption
    | with_reducible apply hf1
    | with_reducible apply hf2
    | with_reducible apply hf3
    | with_reducible apply refused_ch
    | ((with_reducible refine part_sub hP ?_); rfl)
    | (extract_lets +onlyGivenNames x; refine ch_step (P := P) (r := b₀) (x := x) ?_ (fun hx => ?_); subst x; rotate_left; clear_value x; revert x; intro _ _)
    | (extract_lets +onlyGivenNames x; clear_value x; revert x; intro _)
    | with_reducible refine ch_fst (by with_reducible assumption) ?_
    | fail_if_no_progress (with_reducible refine ch_sess_freeSlots ?_ m_sess m_freeSlots)
    | with_reducible apply ch_ite
    | split

theorem afterRead_ch {P : List Part} {b₀ : State} {s : State} {c : WCtx} {idx len : Nat} (hP : [.fresh, .objs, .voteSecond, .funcs, .sess, .ehrica, .world, .grog, .notes] ⊆ P) (hb₀ : Changes P b₀ s) : Changes P b₀ (afterRead s c idx len) := by
  unfold afterRead
  repeat' first
    | with_reducible assumption
    | with_reducible apply hf1
    | with_reducible apply hf2
    | with_reducible apply hf3
    | with_reducible apply violation_ch
    | with_reducible apply ch_ite

theorem opRead_ch {P : List Part} {b₀ : State} {s : State} {c : WCtx} {h : ItemHdr} (hP : [.fresh, .objs, .voteSecond, .funcs, .sess, .ehrica, .world, .grog, .notes] ⊆ P) (hb₀ : Changes P b₀ s) : Changes P b₀ (opRead s c h).state := by
  unfold opRead
  repeat' first
    | with_reducible assumption
    | with_reducible apply hf1
    | with_reducible apply hf2
    | with_reducible apply hf3
    | with_reducible apply refused_ch
    | with_reducible apply afterRead_ch
    | ((with_reducible refine part_sub hP ?_); rfl)
    | (extract_lets +onlyGivenNames x; clear_value x; revert x; intro _)
    | with_reducible refine ch_fst (by with_reducible assumption) ?_
    | with_reducible apply ch_ite
    | split

theorem opWrite_ch {P : List Part} {b₀ : State} {s : State} {c : WCtx} {h : ItemHdr} {data : List Byte} {expected : Option Nat} (hP : (Part.but [.pending, .now]) ⊆ P) (hb₀ : Changes P b₀ s) : Changes P b₀ (opWrite s c h data expected).state := by
  unfold opWrite
  repeat' first
    | with_reducible assumption
    | with_reducible apply hf1
    | with_reducible apply hf2
    | with_reducible apply hf3
    | with_reducible apply writeObj_ch
    | with_reducible apply refused_ch
    | ((with_reducible refine part_sub hP ?_); rfl)
    | (extract_lets +onlyGivenNames x; refine ch_step (P := P) (r := b₀) (x := x) ?_ (fun hx => ?_); subst x; rotate_left; clear_value x; revert x; intro _ _)
    | (extract_lets +onlyGivenNames x; refine ch_stepW (P := P) (r := b₀) (x := x) ?_ (fun hx => ?_); subst x; rotate_left; clear_value x; revert x; intro _ _)
    | (extract_lets +onlyGivenNames x; clear_value x; revert x; intro _)
    | with_reducible refine ch_fst (by with_reducible assumption) ?_
    | with_reducible apply ch_ite
    | split
    | with_reducible apply WriteOut.settled_ch

theorem opDescribe_ch {P : List Part} {b₀ : State} {s : State} {c : WCtx} {h : ItemHdr} (hP : [.fresh] ⊆ P) (hb₀ : Changes P b₀ s) : Changes P b₀ (opDescribe s c h).state := by
  unfold opDescribe
  repeat' first
    | with_reducible assumption
    | with_reducible apply hf1
    | with_reducible apply hf2
    | with_reducible apply hf3
    | with_reducible apply refused_ch
    | (extract_lets +onlyGivenNames x; clear_value x; revert x; intro _)
    | with_reducible refine ch_fst (by with_reducible assumption) ?_
    | with_reducible apply ch_ite
    | split

theorem opReadSeg_ch {P : List Part} {b₀ : State} {s : State} {c : WCtx} {room : Nat} {h : ItemHdr} {offset length : Nat} (hP : [.fresh, .sess] ⊆ P) (hb₀ : Changes P b₀ s) : Changes P b₀ (opReadSeg s c room h offset length).state := by
  unfold opReadSeg
  repeat' first
    | with_reducible assumption
    | with_reducible apply hf1
    | with_reducible apply hf2
    | with_reducible apply hf3
    | with_reducible apply modSess_ch
    | with_reducible apply refused_ch
    | ((with_reducible refine part_sub hP ?_); rfl)
    | (extract_lets +onlyGivenNames x; refine ch_step (P := P) (r := b₀) (x := x) ?_ (fun hx => ?_); subst x; rotate_left; clear_value x; revert x; intro _ _)
    | (extract_lets +onlyGivenNames x; clear_value x; revert x; intro _)
    | with_reducible refine ch_fst (by with_reducible assumption) ?_
    | with_reducible apply ch_ite
    | split

theorem opWriteSeg_ch {P : List Part} {b₀ : State} {s : State} {c : WCtx} {h : ItemHdr} {offset total : Nat} {data : List Byte} (hP : (Part.but [.pending, .now]) ⊆ P) (hb₀ : Changes P b₀ s) : Changes P b₀ (opWriteSeg s c h offset total data).state := by
  have m_fresh : Part.fresh ∈ P := part_mem hP rfl
  unfold opWriteSeg
  repeat' first
    | with_reducible assumption
    | with_reducible apply hf1
    | with_reducible apply hf2
    | with_reducible apply hf3
    | with_reducible apply modSess_ch
    | with_reducible apply storeWrite_ch
    | with_reducible apply refused_ch
    | ((with_reducible refine part_sub hP ?_); rfl)
    | (intro x hx; try beta_reduce)
    | (extract_lets +onlyGivenNames x; refine ch_step (P := P) (r := b₀) (x := x) ?_ (fun hx => ?_); subst x; rotate_left; clear_value x; revert x; intro _ _)
    | (extract_lets +onlyGivenNames x; refine ch_stepF1 (P := P) (r := b₀) (x := x) ?_ (fun hx => ?_); subst x; rotate_left; clear_value x; revert x; intro _ hf1)
    | (extract_lets +onlyGivenNames x; refine ch_stepW (P := P) (r := b₀) (x := x) ?_ (fun hx => ?_); subst x; rotate_left; clear_value x; revert x; intro _ _)
    | (extract_lets +onlyGivenNames x; clear_value x; revert x; intro _)
    | with_reducible refine ch_fst (by with_reducible assumption) ?_
    | fail_if_no_progress (with_reducible refine ch_fresh ?_ m_fresh)
    | with_reducible apply ch_ite
    | split
    | with_reducible apply WriteOut.settled_ch

theorem groupStep_ch {P : List Part} {b₀ : State} {c : WCtx} {g : GroupRun} {e : (ItemHdr × List Byte) × Nat} (hP : (Part.but [.pending, .now]) ⊆ P) (hb₀ : Changes P b₀ g.state) : Changes P b₀ (groupStep c g e).state := by
  unfold groupStep
  repeat' first
    | with_reducible assumption
    | with_reducible apply hf1
    | with_reducible apply hf2
    | with_reducible apply hf3
    | with_reducible apply writeObj_ch
    | (extract_lets +onlyGivenNames x; refine ch_stepW (P := P) (r := b₀) (x := x) ?_ (fun hx => ?_); subst x; rotate_left; clear_value x; revert x; intro _ _)
    | (extract_lets +onlyGivenNames x; clear_value x; revert x; intro _)
    | with_reducible apply ch_ite
    | split

theorem opGroup_ch {P : List Part} {b₀ : State} {s : State} {c : WCtx} {items : List (ItemHdr × List Byte)} (hP : (Part.but [.pending, .now]) ⊆ P) (hb₀ : Changes P b₀ s) : Changes P b₀ (opGroup s c items).state := by
  unfold opGroup
  repeat' first
    | with_reducible assumption
    | with_reducible apply hf1
    | with_reducible apply hf2
    | with_reducible apply hf3
    | with_reducible apply afterRefusal_ch
    | with_reducible apply refused_ch
    | with_reducible apply groupStep_ch
    | ((with_reducible refine part_sub hP ?_); rfl)
    | with_reducible apply foldl_ch
    | with_reducible apply foldl_ch1
    | with_reducible apply foldlG_ch
    | (intro x a hx; try beta_reduce)
    | (extract_lets +onlyGivenNames x; refine ch_stepG (P := P) (r := b₀) (x := x) ?_ (fun hx => ?_); subst x; rotate_left; clear_value x; revert x; intro _ _)
    | (extract_lets +onlyGivenNames x; clear_value x; revert x; intro _)
    | with_reducible refine ch_fst (by with_reducible assumption) ?_
    | with_reducible apply ch_ite
    | split

theorem opBadPayload_ch {P : List Part} {b₀ : State} {s : State} {c : WCtx} {op : Nat} {item : Option ItemHdr} (hP : [.fresh] ⊆ P) (hb₀ : Changes P b₀ s) : Changes P b₀ (opBadPayload s c op item).state := by
  unfold opBadPayload
  repeat' first
    | with_reducible assumption
    | with_reducible apply hf1
    | with_reducible apply hf2
    | with_reducible apply hf3
    | with_reducible apply refused_ch
    | (extract_lets +onlyGivenNames x; clear_value x; revert x; intro _)
    | with_reducible apply ch_ite
    | split

theorem execRequest_ch {P : List Part} {b₀ : State} {s : State} {c : WCtx} {src : Option Carrier} {room : Nat} {q : Request} (hP : (Part.but [.pending, .now]) ⊆ P) (hb₀ : Changes P b₀ s) : Changes P b₀ (execRequest s c src room q).state := by
  unfold execRequest
  repeat' first
    | with_reducible assumption
    | with_reducible apply hf1
    | with_reducible apply hf2
    | with_reducible apply hf3
    | with_reducible apply modSess_ch
    | with_reducible apply closeSession_ch
    | with_reducible apply refused_ch
    | with_reducible apply opOpen_ch
    | with_reducible apply opRead_ch
    | with_reducible apply opWrite_ch
    | with_reducible apply opDescribe_ch
    | with_reducible apply opReadSeg_ch
    | with_reducible apply opWriteSeg_ch
    | with_reducible apply opGroup_ch
    | with_reducible apply opBadPayload_ch
    | ((with_reducible refine part_sub hP ?_); rfl)
    | with_reducible refine ch_fst (by with_reducible assumption) ?_
    | with_reducible apply ch_ite
    | split

theorem tooLong_ch {P : List Part} {b₀ : State} {a : Answer} {room : Nat} (_hP : [] ⊆ P) (hb₀ : Changes P b₀ a.state) :
    Changes P b₀ (tooLong a room).state := by
  unfold tooLong
  split <;> exact hb₀

theorem admitted_ch {P : List Part} {b₀ : State} {s : State} {r : DictReq} {q : Request} {len : Nat} {found : Option Nat} (hP : (Part.but [.pending, .now]) ⊆ P) (hb₀ : Changes P b₀ s) : Changes P b₀ (admitted s r q len found).state := by
  unfold admitted
  repeat' first
    | with_reducible assumption
    | with_reducible apply hf1
    | with_reducible apply hf2
    | with_reducible apply hf3
    | with_reducible apply refused_ch
    | with_reducible apply execRequest_ch
    | with_reducible apply tooLong_ch
    | ((with_reducible refine part_sub hP ?_); rfl)
    | (extract_lets +onlyGivenNames x; refine ch_stepA (P := P) (r := b₀) (x := x) ?_ (fun hx => ?_); subst x; rotate_left; clear_value x; revert x; intro _ _)
    | (extract_lets +onlyGivenNames x; clear_value x; revert x; intro _)
    | with_reducible refine ch_fst (by with_reducible assumption) ?_
    | with_reducible apply ch_ite
    | split

theorem dictRequest_ch {P : List Part} {b₀ : State} {s : State} {r : DictReq} {q : Request} {len : Nat} {found : Option Nat}
    (hP : (Part.but [.pending, .now]) ⊆ P) (hb₀ : Changes P b₀ s) : Changes P b₀ (dictRequest s r q len found).1 := by
  have hr : ∀ {t : State} {x : Response}, Changes P b₀ t → Changes P b₀ { t with resp := some (r.src, x) } := fun h =>
    ch_resp h (part_mem hP rfl)
  unfold dictRequest
  split
  · exact hb₀
  · dsimp only
    split
    · split
      · exact hr hb₀
      · exact hr (admitted_ch (part_sub hP rfl) hb₀)
    · split
      · exact hr hb₀
      · split
        · exact hr hb₀
        · have h1 : Changes P b₀ (modSess s ‹_› (fun x => { x with renewed := s.now })) := modSess_ch (part_sub hP rfl) hb₀
          split
          · exact hr h1
          · refine hr (ch_ite (modSess_ch (part_sub hP rfl) (admitted_ch (part_sub hP rfl) h1)) (admitted_ch (part_sub hP rfl) h1))

theorem request_ch {P : List Part} {b₀ : State} {s : State} {r : DictReq} {q : Request} {found : Option Nat} (hP : (Part.but [.pending, .now]) ⊆ P) (hb₀ : Changes P b₀ s) : ChangesAll P b₀ (request s r q found) := by
  unfold request
  repeat' first
    | with_reducible assumption
    | with_reducible apply hf1
    | with_reducible apply hf2
    | with_reducible apply hf3
    | with_reducible apply dictRequest_ch
    | with_reducible apply changes_next

theorem twRequest_ch {P : List Part} {b₀ : State} {s : State} {q : Request} (hP : (Part.but [.pending, .now]) ⊆ P) (hb₀ : Changes P b₀ s) : Changes P b₀ (twRequest s q) := by
  have m_twResp : Part.twResp ∈ P := part_mem hP rfl
  unfold twRequest
  repeat' first
    | with_reducible assumption
    | with_reducible apply hf1
    | with_reducible apply hf2
    | with_reducible apply hf3
    | with_reducible apply execRequest_ch
    | (extract_lets +onlyGivenNames x; refine ch_step (P := P) (r := b₀) (x := x) ?_ (fun hx => ?_); subst x; rotate_left; clear_value x; revert x; intro _ _)
    | (extract_lets +onlyGivenNames x; refine ch_stepA (P := P) (r := b₀) (x := x) ?_ (fun hx => ?_); subst x; rotate_left; clear_value x; revert x; intro _ _)
    | fail_if_no_progress (with_reducible refine ch_twResp ?_ m_twResp)
    | with_reducible apply ch_ite

theorem pduRx_ch {P : List Part} {b₀ : State} {s : State} {src : Carrier} {b : List Byte} (hP : (Part.but [.pending, .now]) ⊆ P) (hb₀ : Changes P b₀ s) : Changes P b₀ (pduRx s src b).1 := by
  unfold pduRx
  repeat' first
    | with_reducible assumption
    | with_reducible apply hf1
    | with_reducible apply hf2
    | with_reducible apply hf3
    | with_reducible apply bump_ch
    | with_reducible apply dictRequest_ch
    | ((with_reducible refine part_sub hP ?_); rfl)
    | with_reducible refine ch_fst (by with_reducible assumption) ?_
    | with_reducible apply ch_ite
    | with_reducible apply ch_ite1
    | split

theorem modPortal_ch {P : List Part} {b₀ : State} {s : State} {f : Nat} {g : Portal → Portal} (hP : [.portals] ⊆ P) (hb₀ : Changes P b₀ s) : Changes P b₀ (modPortal s f g) := by
  have m_portals : Part.portals ∈ P := part_mem hP rfl
  unfold modPortal
  repeat' first
    | with_reducible assumption
    | with_reducible apply hf1
    | with_reducible apply hf2
    | with_reducible apply hf3
    | fail_if_no_progress (with_reducible refine ch_portals ?_ m_portals)

theorem portalGo_ch {P : List Part} {b₀ : State} {s : State} {f : Fin 65} {pdu : List Byte} (hP : (Part.but [.pending, .now]) ⊆ P) (hb₀ : Changes P b₀ s) : Changes P b₀ (portalGo s f pdu) := by
  unfold portalGo
  repeat' first
    | with_reducible assumption
    | with_reducible apply hf1
    | with_reducible apply hf2
    | with_reducible apply hf3
    | with_reducible apply pduRx_ch
    | with_reducible apply modPortal_ch
    | ((with_reducible refine part_sub hP ?_); rfl)
    | (extract_lets +onlyGivenNames x; refine ch_step (P := P) (r := b₀) (x := x) ?_ (fun hx => ?_); subst x; rotate_left; clear_value x; revert x; intro _ _)
    | with_reducible refine ch_fst (by with_reducible assumption) ?_
    | with_reducible apply ch_ite
    | split

theorem portalAnswer_ch {P : List Part} {b₀ : State} {s : State} {f : Nat} (hP : [.fresh, .voteSecond, .funcs, .sess, .portals, .grog, .notes] ⊆ P) (hb₀ : Changes P b₀ s) : Changes P b₀ (portalAnswer s f) := by
  unfold portalAnswer
  repeat' first
    | with_reducible assumption
    | with_reducible apply hf1
    | with_reducible apply hf2
    | with_reducible apply hf3
    | with_reducible apply raiseVec_ch
    | with_reducible apply modPortal_ch
    | ((with_reducible refine part_sub hP ?_); rfl)
    | with_reducible apply ch_ite
    | split

theorem canDiscard_ch {P : List Part} {b₀ : State} {s : State} {last : Bool} (hP : [.objs, .can] ⊆ P) (hb₀ : Changes P b₀ s) : Changes P b₀ (canDiscard s last) := by
  have m_can : Part.can ∈ P := part_mem hP rfl
  unfold canDiscard
  repeat' first
    | with_reducible assumption
    | with_reducible apply hf1
    | with_reducible apply hf2
    | with_reducible apply hf3
    | with_reducible apply bump_ch
    | ((with_reducible refine part_sub hP ?_); rfl)
    | with_reducible refine ch_fst (by with_reducible assumption) ?_
    | fail_if_no_progress (with_reducible refine ch_can ?_ m_can)

theorem canSegment_ch {P : List Part} {b₀ : State} {s : State} {data : List Byte} (hP : (Part.but [.pending, .now]) ⊆ P) (hb₀ : Changes P b₀ s) : Changes P b₀ (canSegment s data) := by
  have m_can : Part.can ∈ P := part_mem hP rfl
  unfold canSegment
  repeat' first
    | with_reducible assumption
    | with_reducible apply hf1
    | with_reducible apply hf2
    | with_reducible apply hf3
    | with_reducible apply bump_ch
    | with_reducible apply pduRx_ch
    | with_reducible apply canDiscard_ch
    | ((with_reducible refine part_sub hP ?_); rfl)
    | (extract_lets +onlyGivenNames x; refine ch_step (P := P) (r := b₀) (x := x) ?_ (fun hx => ?_); subst x; rotate_left; clear_value x; revert x; intro _ _)
    | (extract_lets +onlyGivenNames x; clear_value x; revert x; intro _)
    | with_reducible refine ch_fst (by with_reducible assumption) ?_
    | fail_if_no_progress (with_reducible refine ch_can ?_ m_can)
    | with_reducible apply ch_ite
    | split

theorem canFrame_ch {P : List Part} {b₀ : State} {s : State} {ident : Nat} {data : List Byte} (hP : (Part.but [.pending, .now]) ⊆ P) (hb₀ : Changes P b₀ s) : Changes P b₀ (canFrame s ident data) := by
  unfold canFrame
  repeat' first
    | with_reducible assumption
    | with_reducible apply hf1
    | with_reducible apply hf2
    | with_reducible apply hf3
    | with_reducible apply coldStart_ch
    | with_reducible apply canSegment_ch
    | ((with_reducible refine part_sub hP ?_); rfl)
    | (extract_lets +onlyGivenNames x; refine ch_step (P := P) (r := b₀) (x := x) ?_ (fun hx => ?_); subst x; rotate_left; clear_value x; revert x; intro _ _)
    | (extract_lets +onlyGivenNames x; clear_value x; revert x; intro _)
    | with_reducible apply ch_ite

theorem execOpen_ch {P : List Part} {b₀ : State} {r : DictReq} {lease : BitVec 16} {tag : BitVec 32} {s : State} (hP : (Part.but [.pending, .now]) ⊆ P) (hb₀ : Changes P b₀ s) : ChangesAll P b₀ (execOpen r lease tag s) := by
  unfold execOpen
  repeat' first
    | with_reducible assumption
    | with_reducible apply hf1
    | with_reducible apply hf2
    | with_reducible apply hf3
    | with_reducible apply request_ch

theorem execClose_ch {P : List Part} {b₀ : State} {r : DictReq} {s : State} (hP : (Part.but [.pending, .now]) ⊆ P) (hb₀ : Changes P b₀ s) : ChangesAll P b₀ (execClose r s) := by
  unfold execClose
  repeat' first
    | with_reducible assumption
    | with_reducible apply hf1
    | with_reducible apply hf2
    | with_reducible apply hf3
    | with_reducible apply request_ch

theorem execKeepalive_ch {P : List Part} {b₀ : State} {r : DictReq} {s : State} (hP : (Part.but [.pending, .now]) ⊆ P) (hb₀ : Changes P b₀ s) : ChangesAll P b₀ (execKeepalive r s) := by
  unfold execKeepalive
  repeat' first
    | with_reducible assumption
    | with_reducible apply hf1
    | with_reducible apply hf2
    | with_reducible apply hf3
    | with_reducible apply request_ch

theorem execRead_ch {P : List Part} {b₀ : State} {r : DictReq} {h : ItemHdr} {s : State} (hP : (Part.but [.pending, .now]) ⊆ P) (hb₀ : Changes P b₀ s) : ChangesAll P b₀ (execRead r h s) := by
  unfold execRead
  repeat' first
    | with_reducible assumption
    | with_reducible apply hf1
    | with_reducible apply hf2
    | with_reducible apply hf3
    | with_reducible apply request_ch

theorem execWrite_ch {P : List Part} {b₀ : State} {r : DictReq} {h : ItemHdr} {data : List Byte} {s : State} (hP : (Part.but [.pending, .now]) ⊆ P) (hb₀ : Changes P b₀ s) : ChangesAll P b₀ (execWrite r h data s) := by
  unfold execWrite
  repeat' first
    | with_reducible assumption
    | with_reducible apply hf1
    | with_reducible apply hf2
    | with_reducible apply hf3
    | with_reducible apply request_ch

theorem execWriteIf_ch {P : List Part} {b₀ : State} {r : DictReq} {h : ItemHdr} {expected : BitVec 16} {data : List Byte} {s : State} (hP : (Part.but [.pending, .now]) ⊆ P) (hb₀ : Changes P b₀ s) : ChangesAll P b₀ (execWriteIf r h expected data s) := by
  unfold execWriteIf
  repeat' first
    | with_reducible assumption
    | with_reducible apply hf1
    | with_reducible apply hf2
    | with_reducible apply hf3
    | with_reducible apply request_ch

theorem execDescribe_ch {P : List Part} {b₀ : State} {r : DictReq} {h : ItemHdr} {s : State} (hP : (Part.but [.pending, .now]) ⊆ P) (hb₀ : Changes P b₀ s) : ChangesAll P b₀ (execDescribe r h s) := by
  unfold execDescribe
  repeat' first
    | with_reducible assumption
    | with_reducible apply hf1
    | with_reducible apply hf2
    | with_reducible apply hf3
    | with_reducible apply request_ch

theorem execReadSeg_ch {P : List Part} {b₀ : State} {r : DictReq} {h : ItemHdr} {offset : BitVec 32} {length : BitVec 16} {s : State} (hP : (Part.but [.pending, .now]) ⊆ P) (hb₀ : Changes P b₀ s) : ChangesAll P b₀ (execReadSeg r h offset length s) := by
  unfold execReadSeg
  repeat' first
    | with_reducible assumption
    | with_reducible apply hf1
    | with_reducible apply hf2
    | with_reducible apply hf3
    | with_reducible apply request_ch

theorem execWriteSeg_ch {P : List Part} {b₀ : State} {r : DictReq} {h : ItemHdr} {offset total : BitVec 32} {data : List Byte} {s : State} (hP : (Part.but [.pending, .now]) ⊆ P) (hb₀ : Changes P b₀ s) : ChangesAll P b₀ (execWriteSeg r h offset total data s) := by
  unfold execWriteSeg
  repeat' first
    | with_reducible assumption
    | with_reducible apply hf1
    | with_reducible apply hf2
    | with_reducible apply hf3
    | with_reducible apply request_ch

theorem execGroup_ch {P : List Part} {b₀ : State} {r : DictReq} {items : List (ItemHdr × List Byte)} {s : State} (hP : (Part.but [.pending, .now]) ⊆ P) (hb₀ : Changes P b₀ s) : ChangesAll P b₀ (execGroup r items s) := by
  unfold execGroup
  repeat' first
    | with_reducible assumption
    | with_reducible apply hf1
    | with_reducible apply hf2
    | with_reducible apply hf3
    | with_reducible apply request_ch

theorem execSubscribe_ch {P : List Part} {b₀ : State} {r : DictReq} {mask : BitVec 32} {s : State} (hP : (Part.but [.pending, .now]) ⊆ P) (hb₀ : Changes P b₀ s) : ChangesAll P b₀ (execSubscribe r mask s) := by
  unfold execSubscribe
  repeat' first
    | with_reducible assumption
    | with_reducible apply hf1
    | with_reducible apply hf2
    | with_reducible apply hf3
    | with_reducible apply request_ch

theorem execMalformedPdu_ch {P : List Part} {b₀ : State} {pdu : List Byte} {s : State} (hP : [.objs] ⊆ P) (hb₀ : Changes P b₀ s) : ChangesAll P b₀ (execMalformedPdu pdu s) := by
  unfold execMalformedPdu
  repeat' first
    | with_reducible assumption
    | with_reducible apply hf1
    | with_reducible apply hf2
    | with_reducible apply hf3
    | with_reducible apply bump_ch
    | with_reducible apply changes_next
    | with_reducible apply changes_fault
    | with_reducible apply ch_ite

theorem execUnknownOpcode_ch {P : List Part} {b₀ : State} {r : DictReq} {op : BitVec 8} {s : State} (hP : (Part.but [.pending, .now]) ⊆ P) (hb₀ : Changes P b₀ s) : ChangesAll P b₀ (execUnknownOpcode r op s) := by
  unfold execUnknownOpcode
  repeat' first
    | with_reducible assumption
    | with_reducible apply hf1
    | with_reducible apply hf2
    | with_reducible apply hf3
    | with_reducible apply request_ch
    | with_reducible apply changes_next
    | with_reducible apply changes_fault
    | with_reducible apply ch_ite
    | with_reducible apply changes_ite

theorem execLeaseExpiry_ch {P : List Part} {b₀ : State} {s : State} (hP : [.sess, .freeSlots] ⊆ P) (hb₀ : Changes P b₀ s) : ChangesAll P b₀ (execLeaseExpiry s) := by
  unfold execLeaseExpiry
  repeat' first
    | with_reducible assumption
    | with_reducible apply hf1
    | with_reducible apply hf2
    | with_reducible apply hf3
    | with_reducible apply closeWhere_ch
    | with_reducible apply changes_next

theorem execPortalGo_ch {P : List Part} {b₀ : State} {f : Fin 65} {pdu : List Byte} {s : State} (hP : (Part.but [.pending, .now]) ⊆ P) (hb₀ : Changes P b₀ s) : ChangesAll P b₀ (execPortalGo f pdu s) := by
  unfold execPortalGo
  repeat' first
    | with_reducible assumption
    | with_reducible apply hf1
    | with_reducible apply hf2
    | with_reducible apply hf3
    | with_reducible apply portalGo_ch
    | with_reducible apply changes_next

theorem execPortalResponse_ch {P : List Part} {b₀ : State} {f : Fin 65} {s : State} (hP : [.fresh, .voteSecond, .funcs, .sess, .portals, .grog, .notes] ⊆ P) (hb₀ : Changes P b₀ s) : ChangesAll P b₀ (execPortalResponse f s) := by
  unfold execPortalResponse
  repeat' first
    | with_reducible assumption
    | with_reducible apply hf1
    | with_reducible apply hf2
    | with_reducible apply hf3
    | with_reducible apply portalAnswer_ch
    | with_reducible apply changes_next

theorem execCanSegmentRx_ch {P : List Part} {b₀ : State} {ident : BitVec 11} {data : List Byte} {s : State} (hP : (Part.but [.pending, .now]) ⊆ P) (hb₀ : Changes P b₀ s) : ChangesAll P b₀ (execCanSegmentRx ident data s) := by
  unfold execCanSegmentRx
  repeat' first
    | with_reducible assumption
    | with_reducible apply hf1
    | with_reducible apply hf2
    | with_reducible apply hf3
    | with_reducible apply canFrame_ch
    | with_reducible apply changes_next

theorem execWakeCanFrame_ch {P : List Part} {b₀ : State} {data : List Byte} {s : State} (hP : (Part.but [.pending, .now]) ⊆ P) (hb₀ : Changes P b₀ s) : ChangesAll P b₀ (execWakeCanFrame data s) := by
  unfold execWakeCanFrame
  repeat' first
    | with_reducible assumption
    | with_reducible apply hf1
    | with_reducible apply hf2
    | with_reducible apply hf3
    | with_reducible apply canFrame_ch
    | with_reducible apply changes_next

theorem execEventFrameTx_ch {P : List Part} {b₀ : State} {s : State} (hP : [.frames, .frameSent] ⊆ P) (hb₀ : Changes P b₀ s) : ChangesAll P b₀ (execEventFrameTx s) := by
  have m_frames : Part.frames ∈ P := part_mem hP rfl
  have m_frameSent : Part.frameSent ∈ P := part_mem hP rfl
  unfold execEventFrameTx
  repeat' first
    | with_reducible assumption
    | with_reducible apply hf1
    | with_reducible apply hf2
    | with_reducible apply hf3
    | with_reducible apply changes_next
    | with_reducible apply changes_fault
    | fail_if_no_progress (with_reducible refine ch_frames_frameSent ?_ m_frames m_frameSent)
    | with_reducible apply ch_ite
    | with_reducible apply changes_ite
    | split

theorem execSysDefaults_ch {P : List Part} {b₀ : State} {r : DictReq} {value : BitVec 8} {s : State} (hP : (Part.but [.pending, .now]) ⊆ P) (hb₀ : Changes P b₀ s) : ChangesAll P b₀ (execSysDefaults r value s) := by
  unfold execSysDefaults
  repeat' first
    | with_reducible assumption
    | with_reducible apply hf1
    | with_reducible apply hf2
    | with_reducible apply hf3
    | with_reducible apply request_ch

theorem execTwDictRequest_ch {P : List Part} {b₀ : State} {q : Request} {s : State} (hP : (Part.but [.pending, .now]) ⊆ P) (hb₀ : Changes P b₀ s) : ChangesAll P b₀ (execTwDictRequest q s) := by
  unfold execTwDictRequest
  repeat' first
    | with_reducible assumption
    | with_reducible apply hf1
    | with_reducible apply hf2
    | with_reducible apply hf3
    | with_reducible apply twRequest_ch
    | with_reducible apply changes_next

theorem execFabRelayWrite_ch {P : List Part} {b₀ : State} {r : DictReq} {data : List Byte} {s : State} (hP : (Part.but [.pending, .now]) ⊆ P) (hb₀ : Changes P b₀ s) : ChangesAll P b₀ (execFabRelayWrite r data s) := by
  unfold execFabRelayWrite
  repeat' first
    | with_reducible assumption
    | with_reducible apply hf1
    | with_reducible apply hf2
    | with_reducible apply hf3
    | with_reducible apply request_ch

theorem execFabRelayRead_ch {P : List Part} {b₀ : State} {r : DictReq} {s : State} (hP : (Part.but [.pending, .now]) ⊆ P) (hb₀ : Changes P b₀ s) : ChangesAll P b₀ (execFabRelayRead r s) := by
  unfold execFabRelayRead
  repeat' first
    | with_reducible assumption
    | with_reducible apply hf1
    | with_reducible apply hf2
    | with_reducible apply hf3
    | with_reducible apply request_ch

theorem execRelayedPduRx_ch {P : List Part} {b₀ : State} {serial : BitVec 64} {mgr : Bool} {pdu : List Byte} {s : State} (hP : (Part.but [.pending, .now]) ⊆ P) (hb₀ : Changes P b₀ s) : ChangesAll P b₀ (execRelayedPduRx serial mgr pdu s) := by
  unfold execRelayedPduRx
  repeat' first
    | with_reducible assumption
    | with_reducible apply hf1
    | with_reducible apply hf2
    | with_reducible apply hf3
    | with_reducible apply pduRx_ch
    | with_reducible apply changes_next
    | with_reducible apply changes_fault
    | with_reducible apply ch_ite
    | with_reducible apply changes_ite

theorem execRelayReplyRx_ch {P : List Part} {b₀ : State} {session : BitVec 16} {pdu : List Byte} {s : State} (hP : [.sess] ⊆ P) (hb₀ : Changes P b₀ s) : ChangesAll P b₀ (execRelayReplyRx session pdu s) := by
  unfold execRelayReplyRx
  repeat' first
    | with_reducible assumption
    | with_reducible apply hf1
    | with_reducible apply hf2
    | with_reducible apply hf3
    | with_reducible apply modSess_ch
    | with_reducible apply changes_next
    | with_reducible apply changes_fault
    | with_reducible apply ch_ite
    | with_reducible apply changes_ite
    | split

end Sys2Proof.Machine
end

