-- ==== Sys2Proof/Laws/ChangesCommands.lean ====
section
/-!
SUPPORT. What each operation of Machine/Commands.lean may change.
-/

namespace Sys2Proof.Machine

theorem writeObject_ch {P : List Part} {b₀ : State} {s : State} {r : DictReq} {k n : Nat} {found : Option Nat} (hP : (Part.but [.pending, .now]) ⊆ P) (hb₀ : Changes P b₀ s) : ChangesAll P b₀ (writeObject s r k n found) := by
  unfold writeObject
  repeat' first
    | with_reducible assumption
    | with_reducible apply request_ch

theorem claimObject_ch {P : List Part} {b₀ : State} {s : State} {r : DictReq} {k : Nat} {expected : BitVec 16} {owner : BitVec 8} (hP : (Part.but [.pending, .now]) ⊆ P) (hb₀ : Changes P b₀ s) : ChangesAll P b₀ (claimObject s r k expected owner) := by
  unfold claimObject
  repeat' first
    | with_reducible assumption
    | with_reducible apply request_ch

theorem twWriteObject_ch {P : List Part} {b₀ : State} {s : State} {k n : Nat} (hP : (Part.but [.pending, .now]) ⊆ P) (hb₀ : Changes P b₀ s) : ChangesAll P b₀ (twWriteObject s k n) := by
  unfold twWriteObject
  repeat' first
    | with_reducible assumption
    | with_reducible apply twRequest_ch
    | with_reducible apply changes_next

theorem execFenceClaim_ch {P : List Part} {b₀ : State} {r : DictReq} {slot : Fin 256} {expected : BitVec 16} {owner : BitVec 8} {s : State} (hP : (Part.but [.pending, .now]) ⊆ P) (hb₀ : Changes P b₀ s) : ChangesAll P b₀ (execFenceClaim r slot expected owner s) := by
  unfold execFenceClaim
  repeat' first
    | with_reducible assumption
    | with_reducible apply claimObject_ch

theorem execFenceValueWrite_ch {P : List Part} {b₀ : State} {r : DictReq} {slot : Fin 256} {value : BitVec 64} {s : State} (hP : (Part.but [.pending, .now]) ⊆ P) (hb₀ : Changes P b₀ s) : ChangesAll P b₀ (execFenceValueWrite r slot value s) := by
  unfold execFenceValueWrite
  repeat' first
    | with_reducible assumption
    | with_reducible apply writeObject_ch

theorem execProgClaim_ch {P : List Part} {b₀ : State} {r : DictReq} {slot : Fin 256} {expected : BitVec 16} {owner : BitVec 8} {s : State} (hP : (Part.but [.pending, .now]) ⊆ P) (hb₀ : Changes P b₀ s) : ChangesAll P b₀ (execProgClaim r slot expected owner s) := by
  unfold execProgClaim
  repeat' first
    | with_reducible assumption
    | with_reducible apply claimObject_ch

theorem execCtxEnable_ch {P : List Part} {b₀ : State} {r : DictReq} {ctx : Fin 64} {s : State} (hP : (Part.but [.pending, .now]) ⊆ P) (hb₀ : Changes P b₀ s) : ChangesAll P b₀ (execCtxEnable r ctx s) := by
  unfold execCtxEnable
  repeat' first
    | with_reducible assumption
    | with_reducible apply writeObject_ch

theorem execCtxDisable_ch {P : List Part} {b₀ : State} {r : DictReq} {ctx : Fin 64} {s : State} (hP : (Part.but [.pending, .now]) ⊆ P) (hb₀ : Changes P b₀ s) : ChangesAll P b₀ (execCtxDisable r ctx s) := by
  unfold execCtxDisable
  repeat' first
    | with_reducible assumption
    | with_reducible apply writeObject_ch

theorem execSurfClaim_ch {P : List Part} {b₀ : State} {r : DictReq} {slot : Fin 2048} {expected : BitVec 16} {owner : BitVec 8} {s : State} (hP : (Part.but [.pending, .now]) ⊆ P) (hb₀ : Changes P b₀ s) : ChangesAll P b₀ (execSurfClaim r slot expected owner s) := by
  unfold execSurfClaim
  repeat' first
    | with_reducible assumption
    | with_reducible apply claimObject_ch

theorem execSurfAlloc_ch {P : List Part} {b₀ : State} {r : DictReq} {slot : Fin 2048} {s : State} (hP : (Part.but [.pending, .now]) ⊆ P) (hb₀ : Changes P b₀ s) : ChangesAll P b₀ (execSurfAlloc r slot s) := by
  unfold execSurfAlloc
  repeat' first
    | with_reducible assumption
    | with_reducible apply writeObject_ch

theorem execSurfRelease_ch {P : List Part} {b₀ : State} {r : DictReq} {slot : Fin 2048} {s : State} (hP : (Part.but [.pending, .now]) ⊆ P) (hb₀ : Changes P b₀ s) : ChangesAll P b₀ (execSurfRelease r slot s) := by
  unfold execSurfRelease
  repeat' first
    | with_reducible assumption
    | with_reducible apply writeObject_ch

theorem execOutCommit_ch {P : List Part} {b₀ : State} {r : DictReq} {port : Fin 8} {value : BitVec 8} {s : State} (hP : (Part.but [.pending, .now]) ⊆ P) (hb₀ : Changes P b₀ s) : ChangesAll P b₀ (execOutCommit r port value s) := by
  unfold execOutCommit
  repeat' first
    | with_reducible assumption
    | with_reducible apply writeObject_ch

theorem execOutEnable_ch {P : List Part} {b₀ : State} {r : DictReq} {port : Fin 8} {s : State} (hP : (Part.but [.pending, .now]) ⊆ P) (hb₀ : Changes P b₀ s) : ChangesAll P b₀ (execOutEnable r port s) := by
  unfold execOutEnable
  repeat' first
    | with_reducible assumption
    | with_reducible apply writeObject_ch

theorem execOutDisable_ch {P : List Part} {b₀ : State} {r : DictReq} {port : Fin 8} {s : State} (hP : (Part.but [.pending, .now]) ⊆ P) (hb₀ : Changes P b₀ s) : ChangesAll P b₀ (execOutDisable r port s) := by
  unfold execOutDisable
  repeat' first
    | with_reducible assumption
    | with_reducible apply writeObject_ch

theorem execOutModeWrite_ch {P : List Part} {b₀ : State} {r : DictReq} {port : Fin 8} {mode : BitVec 8} {s : State} (hP : (Part.but [.pending, .now]) ⊆ P) (hb₀ : Changes P b₀ s) : ChangesAll P b₀ (execOutModeWrite r port mode s) := by
  unfold execOutModeWrite
  repeat' first
    | with_reducible assumption
    | with_reducible apply writeObject_ch

theorem execKaolinCommit_ch {P : List Part} {b₀ : State} {port : Fin 8} {value : BitVec 8} {s : State} (hP : (Part.but [.pending, .now]) ⊆ P) (hb₀ : Changes P b₀ s) : ChangesAll P b₀ (execKaolinCommit port value s) := by
  unfold execKaolinCommit
  repeat' first
    | with_reducible assumption
    | with_reducible apply twWriteObject_ch

theorem execMemRetireReq_ch {P : List Part} {b₀ : State} {r : DictReq} {rank : BitVec 8} {s : State} (hP : (Part.but [.pending, .now]) ⊆ P) (hb₀ : Changes P b₀ s) : ChangesAll P b₀ (execMemRetireReq r rank s) := by
  unfold execMemRetireReq
  repeat' first
    | with_reducible assumption
    | with_reducible apply writeObject_ch

theorem execMemInjArm_ch {P : List Part} {b₀ : State} {r : DictReq} {value : Bool} {s : State} (hP : (Part.but [.pending, .now]) ⊆ P) (hb₀ : Changes P b₀ s) : ChangesAll P b₀ (execMemInjArm r value s) := by
  unfold execMemInjArm
  repeat' first
    | with_reducible assumption
    | with_reducible apply writeObject_ch

theorem execVfEnable_ch {P : List Part} {b₀ : State} {r : DictReq} {vf : Fin 64} {s : State} (hP : (Part.but [.pending, .now]) ⊆ P) (hb₀ : Changes P b₀ s) : ChangesAll P b₀ (execVfEnable r vf s) := by
  unfold execVfEnable
  repeat' first
    | with_reducible assumption
    | with_reducible apply writeObject_ch

theorem execVfDisable_ch {P : List Part} {b₀ : State} {r : DictReq} {vf : Fin 64} {s : State} (hP : (Part.but [.pending, .now]) ⊆ P) (hb₀ : Changes P b₀ s) : ChangesAll P b₀ (execVfDisable r vf s) := by
  unfold execVfDisable
  repeat' first
    | with_reducible assumption
    | with_reducible apply writeObject_ch

theorem execGrantWrite_ch {P : List Part} {b₀ : State} {r : DictReq} {vf : Fin 64} {sub : BitVec 8} {value : BitVec 32} {s : State} (hP : (Part.but [.pending, .now]) ⊆ P) (hb₀ : Changes P b₀ s) : ChangesAll P b₀ (execGrantWrite r vf sub value s) := by
  unfold execGrantWrite
  repeat' first
    | with_reducible assumption
    | with_reducible apply writeObject_ch

theorem execGrantShareWrite_ch {P : List Part} {b₀ : State} {r : DictReq} {vf : Fin 64} {value : BitVec 16} {s : State} (hP : (Part.but [.pending, .now]) ⊆ P) (hb₀ : Changes P b₀ s) : ChangesAll P b₀ (execGrantShareWrite r vf value s) := by
  unfold execGrantShareWrite
  repeat' first
    | with_reducible assumption
    | with_reducible apply writeObject_ch

theorem execRegionWrite_ch {P : List Part} {b₀ : State} {r : DictReq} {vf : Fin 64} {touch : Bool} {region : Fin 8} {sub : BitVec 8} {value : BitVec 32} {s : State} (hP : (Part.but [.pending, .now]) ⊆ P) (hb₀ : Changes P b₀ s) : ChangesAll P b₀ (execRegionWrite r vf touch region sub value s) := by
  unfold execRegionWrite
  repeat' first
    | with_reducible assumption
    | with_reducible apply writeObject_ch

theorem execRingOwnerWrite_ch {P : List Part} {b₀ : State} {r : DictReq} {ring : Fin 256} {owner : BitVec 8} {s : State} (hP : (Part.but [.pending, .now]) ⊆ P) (hb₀ : Changes P b₀ s) : ChangesAll P b₀ (execRingOwnerWrite r ring owner s) := by
  unfold execRingOwnerWrite
  repeat' first
    | with_reducible assumption
    | with_reducible apply writeObject_ch

theorem execRingEnable_ch {P : List Part} {b₀ : State} {r : DictReq} {ring : Fin 256} {value : Bool} {s : State} (hP : (Part.but [.pending, .now]) ⊆ P) (hb₀ : Changes P b₀ s) : ChangesAll P b₀ (execRingEnable r ring value s) := by
  unfold execRingEnable
  repeat' first
    | with_reducible assumption
    | with_reducible apply writeObject_ch

theorem execRingOrderWrite_ch {P : List Part} {b₀ : State} {r : DictReq} {ring : Fin 256} {order : BitVec 8} {s : State} (hP : (Part.but [.pending, .now]) ⊆ P) (hb₀ : Changes P b₀ s) : ChangesAll P b₀ (execRingOrderWrite r ring order s) := by
  unfold execRingOrderWrite
  repeat' first
    | with_reducible assumption
    | with_reducible apply writeObject_ch

theorem execVfFlr_ch {P : List Part} {b₀ : State} {r : DictReq} {vf : Fin 64} {value : BitVec 8} {s : State} (hP : (Part.but [.pending, .now]) ⊆ P) (hb₀ : Changes P b₀ s) : ChangesAll P b₀ (execVfFlr r vf value s) := by
  unfold execVfFlr
  repeat' first
    | with_reducible assumption
    | with_reducible apply writeObject_ch

theorem execMigFreeze_ch {P : List Part} {b₀ : State} {r : DictReq} {vf : Fin 64} {s : State} (hP : (Part.but [.pending, .now]) ⊆ P) (hb₀ : Changes P b₀ s) : ChangesAll P b₀ (execMigFreeze r vf s) := by
  unfold execMigFreeze
  repeat' first
    | with_reducible assumption
    | with_reducible apply writeObject_ch

theorem execMigThaw_ch {P : List Part} {b₀ : State} {r : DictReq} {vf : Fin 64} {s : State} (hP : (Part.but [.pending, .now]) ⊆ P) (hb₀ : Changes P b₀ s) : ChangesAll P b₀ (execMigThaw r vf s) := by
  unfold execMigThaw
  repeat' first
    | with_reducible assumption
    | with_reducible apply writeObject_ch

theorem execMigSave_ch {P : List Part} {b₀ : State} {r : DictReq} {vf : Fin 64} {s : State} (hP : (Part.but [.pending, .now]) ⊆ P) (hb₀ : Changes P b₀ s) : ChangesAll P b₀ (execMigSave r vf s) := by
  unfold execMigSave
  repeat' first
    | with_reducible assumption
    | with_reducible apply writeObject_ch

theorem execMigRestore_ch {P : List Part} {b₀ : State} {r : DictReq} {vf : Fin 64} {s : State} (hP : (Part.but [.pending, .now]) ⊆ P) (hb₀ : Changes P b₀ s) : ChangesAll P b₀ (execMigRestore r vf s) := by
  unfold execMigRestore
  repeat' first
    | with_reducible assumption
    | with_reducible apply writeObject_ch

theorem execLogEnable_ch {P : List Part} {b₀ : State} {r : DictReq} {vf : Fin 64} {value : Bool} {s : State} (hP : (Part.but [.pending, .now]) ⊆ P) (hb₀ : Changes P b₀ s) : ChangesAll P b₀ (execLogEnable r vf value s) := by
  unfold execLogEnable
  repeat' first
    | with_reducible assumption
    | with_reducible apply writeObject_ch

theorem execLogSwap_ch {P : List Part} {b₀ : State} {r : DictReq} {vf : Fin 64} {value : BitVec 8} {s : State} (hP : (Part.but [.pending, .now]) ⊆ P) (hb₀ : Changes P b₀ s) : ChangesAll P b₀ (execLogSwap r vf value s) := by
  unfold execLogSwap
  repeat' first
    | with_reducible assumption
    | with_reducible apply writeObject_ch

theorem execPinTWrite_ch {P : List Part} {b₀ : State} {pin : Fin 96} {trusted : Bool} {s : State} (hP : (Part.but [.pending, .now]) ⊆ P) (hb₀ : Changes P b₀ s) : ChangesAll P b₀ (execPinTWrite pin trusted s) := by
  unfold execPinTWrite
  repeat' first
    | with_reducible assumption
    | with_reducible apply twWriteObject_ch

theorem execDmaTWrite_ch {P : List Part} {b₀ : State} {chan : Fin 32} {trusted : Bool} {s : State} (hP : (Part.but [.pending, .now]) ⊆ P) (hb₀ : Changes P b₀ s) : ChangesAll P b₀ (execDmaTWrite chan trusted s) := by
  unfold execDmaTWrite
  repeat' first
    | with_reducible assumption
    | with_reducible apply twWriteObject_ch

theorem execClaimHoldWrite_ch {P : List Part} {b₀ : State} {domain : Fin 24} {value : Bool} {s : State} (hP : (Part.but [.pending, .now]) ⊆ P) (hb₀ : Changes P b₀ s) : ChangesAll P b₀ (execClaimHoldWrite domain value s) := by
  unfold execClaimHoldWrite
  repeat' first
    | with_reducible assumption
    | with_reducible apply twWriteObject_ch

theorem execAttNonceWrite_ch {P : List Part} {b₀ : State} {r : DictReq} {nonce : List Byte} {s : State} (hP : (Part.but [.pending, .now]) ⊆ P) (hb₀ : Changes P b₀ s) : ChangesAll P b₀ (execAttNonceWrite r nonce s) := by
  unfold execAttNonceWrite
  repeat' first
    | with_reducible assumption
    | with_reducible apply request_ch

theorem execPanelEnable_ch {P : List Part} {b₀ : State} {r : DictReq} {panel : Fin 4} {s : State} (hP : (Part.but [.pending, .now]) ⊆ P) (hb₀ : Changes P b₀ s) : ChangesAll P b₀ (execPanelEnable r panel s) := by
  unfold execPanelEnable
  repeat' first
    | with_reducible assumption
    | with_reducible apply writeObject_ch

theorem execPanelDisable_ch {P : List Part} {b₀ : State} {r : DictReq} {panel : Fin 4} {s : State} (hP : (Part.but [.pending, .now]) ⊆ P) (hb₀ : Changes P b₀ s) : ChangesAll P b₀ (execPanelDisable r panel s) := by
  unfold execPanelDisable
  repeat' first
    | with_reducible assumption
    | with_reducible apply writeObject_ch

theorem execPanelRefCapture_ch {P : List Part} {b₀ : State} {r : DictReq} {panel : Fin 4} {value : BitVec 8} {s : State} (hP : (Part.but [.pending, .now]) ⊆ P) (hb₀ : Changes P b₀ s) : ChangesAll P b₀ (execPanelRefCapture r panel value s) := by
  unfold execPanelRefCapture
  repeat' first
    | with_reducible assumption
    | with_reducible apply writeObject_ch

theorem execPanelTestRun_ch {P : List Part} {b₀ : State} {r : DictReq} {panel : Fin 4} {value : BitVec 8} {s : State} (hP : (Part.but [.pending, .now]) ⊆ P) (hb₀ : Changes P b₀ s) : ChangesAll P b₀ (execPanelTestRun r panel value s) := by
  unfold execPanelTestRun
  repeat' first
    | with_reducible assumption
    | with_reducible apply writeObject_ch

theorem execChReset_ch {P : List Part} {b₀ : State} {r : DictReq} {chan : Fin 16} {value : BitVec 8} {capNf : BitVec 32} {s : State} (hP : (Part.but [.pending, .now]) ⊆ P) (hb₀ : Changes P b₀ s) : ChangesAll P b₀ (execChReset r chan value capNf s) := by
  unfold execChReset
  repeat' first
    | with_reducible assumption
    | with_reducible apply writeObject_ch

theorem execHapEnable_ch {P : List Part} {b₀ : State} {r : DictReq} {s : State} (hP : (Part.but [.pending, .now]) ⊆ P) (hb₀ : Changes P b₀ s) : ChangesAll P b₀ (execHapEnable r s) := by
  unfold execHapEnable
  repeat' first
    | with_reducible assumption
    | with_reducible apply writeObject_ch

theorem execHapDisable_ch {P : List Part} {b₀ : State} {r : DictReq} {s : State} (hP : (Part.but [.pending, .now]) ⊆ P) (hb₀ : Changes P b₀ s) : ChangesAll P b₀ (execHapDisable r s) := by
  unfold execHapDisable
  repeat' first
    | with_reducible assumption
    | with_reducible apply writeObject_ch

theorem execSndEnable_ch {P : List Part} {b₀ : State} {r : DictReq} {s : State} (hP : (Part.but [.pending, .now]) ⊆ P) (hb₀ : Changes P b₀ s) : ChangesAll P b₀ (execSndEnable r s) := by
  unfold execSndEnable
  repeat' first
    | with_reducible assumption
    | with_reducible apply writeObject_ch

theorem execSndDisable_ch {P : List Part} {b₀ : State} {r : DictReq} {s : State} (hP : (Part.but [.pending, .now]) ⊆ P) (hb₀ : Changes P b₀ s) : ChangesAll P b₀ (execSndDisable r s) := by
  unfold execSndDisable
  repeat' first
    | with_reducible assumption
    | with_reducible apply writeObject_ch

theorem execStreamEnable_ch {P : List Part} {b₀ : State} {r : DictReq} {capture : Bool} {number : Fin 64} {value : Bool} {s : State} (hP : (Part.but [.pending, .now]) ⊆ P) (hb₀ : Changes P b₀ s) : ChangesAll P b₀ (execStreamEnable r capture number value s) := by
  unfold execStreamEnable
  repeat' first
    | with_reducible assumption
    | with_reducible apply writeObject_ch

theorem execSpreadEnable_ch {P : List Part} {b₀ : State} {r : DictReq} {spread : Fin 8} {s : State} (hP : (Part.but [.pending, .now]) ⊆ P) (hb₀ : Changes P b₀ s) : ChangesAll P b₀ (execSpreadEnable r spread s) := by
  unfold execSpreadEnable
  repeat' first
    | with_reducible assumption
    | with_reducible apply writeObject_ch

theorem execSpreadDisable_ch {P : List Part} {b₀ : State} {r : DictReq} {spread : Fin 8} {s : State} (hP : (Part.but [.pending, .now]) ⊆ P) (hb₀ : Changes P b₀ s) : ChangesAll P b₀ (execSpreadDisable r spread s) := by
  unfold execSpreadDisable
  repeat' first
    | with_reducible assumption
    | with_reducible apply writeObject_ch

theorem execSpreadCommit_ch {P : List Part} {b₀ : State} {r : DictReq} {spread : Fin 8} {value : BitVec 8} {s : State} (hP : (Part.but [.pending, .now]) ⊆ P) (hb₀ : Changes P b₀ s) : ChangesAll P b₀ (execSpreadCommit r spread value s) := by
  unfold execSpreadCommit
  repeat' first
    | with_reducible assumption
    | with_reducible apply writeObject_ch

theorem execDomHoldWrite_ch {P : List Part} {b₀ : State} {r : DictReq} {domain : Fin 24} {value : Bool} {s : State} (hP : (Part.but [.pending, .now]) ⊆ P) (hb₀ : Changes P b₀ s) : ChangesAll P b₀ (execDomHoldWrite r domain value s) := by
  unfold execDomHoldWrite
  repeat' first
    | with_reducible assumption
    | with_reducible apply writeObject_ch

theorem execDomTwWrite_ch {P : List Part} {b₀ : State} {domain : Fin 24} {value : Bool} {s : State} (hP : (Part.but [.pending, .now]) ⊆ P) (hb₀ : Changes P b₀ s) : ChangesAll P b₀ (execDomTwWrite domain value s) := by
  unfold execDomTwWrite
  repeat' first
    | with_reducible assumption
    | with_reducible apply twWriteObject_ch

theorem execPwrReqStandby_ch {P : List Part} {b₀ : State} {r : DictReq} {s : State} (hP : (Part.but [.pending, .now]) ⊆ P) (hb₀ : Changes P b₀ s) : ChangesAll P b₀ (execPwrReqStandby r s) := by
  unfold execPwrReqStandby
  repeat' first
    | with_reducible assumption
    | with_reducible apply writeObject_ch

theorem execPwrReqRun_ch {P : List Part} {b₀ : State} {r : DictReq} {s : State} (hP : (Part.but [.pending, .now]) ⊆ P) (hb₀ : Changes P b₀ s) : ChangesAll P b₀ (execPwrReqRun r s) := by
  unfold execPwrReqRun
  repeat' first
    | with_reducible assumption
    | with_reducible apply writeObject_ch

theorem execPwrReset_ch {P : List Part} {b₀ : State} {r : DictReq} {value : BitVec 8} {s : State} (hP : (Part.but [.pending, .now]) ⊆ P) (hb₀ : Changes P b₀ s) : ChangesAll P b₀ (execPwrReset r value s) := by
  unfold execPwrReset
  repeat' first
    | with_reducible assumption
    | with_reducible apply writeObject_ch

theorem execIslGateWrite_ch {P : List Part} {b₀ : State} {r : DictReq} {island : Fin 40} {value : Bool} {s : State} (hP : (Part.but [.pending, .now]) ⊆ P) (hb₀ : Changes P b₀ s) : ChangesAll P b₀ (execIslGateWrite r island value s) := by
  unfold execIslGateWrite
  repeat' first
    | with_reducible assumption
    | with_reducible apply writeObject_ch

theorem execIslRateWrite_ch {P : List Part} {b₀ : State} {r : DictReq} {island : Fin 40} {value : BitVec 16} {s : State} (hP : (Part.but [.pending, .now]) ⊆ P) (hb₀ : Changes P b₀ s) : ChangesAll P b₀ (execIslRateWrite r island value s) := by
  unfold execIslRateWrite
  repeat' first
    | with_reducible assumption
    | with_reducible apply writeObject_ch

theorem execGrogRetest_ch {P : List Part} {b₀ : State} {r : DictReq} {value : BitVec 16} {passes : Bool} {s : State} (hP : (Part.but [.pending, .now]) ⊆ P) (hb₀ : Changes P b₀ s) : ChangesAll P b₀ (execGrogRetest r value passes s) := by
  unfold execGrogRetest
  repeat' first
    | with_reducible assumption
    | with_reducible apply writeObject_ch

theorem execDiagEnable_ch {P : List Part} {b₀ : State} {r : DictReq} {value : Bool} {s : State} (hP : (Part.but [.pending, .now]) ⊆ P) (hb₀ : Changes P b₀ s) : ChangesAll P b₀ (execDiagEnable r value s) := by
  unfold execDiagEnable
  repeat' first
    | with_reducible assumption
    | with_reducible apply writeObject_ch

theorem execSpFuncWrite_ch {P : List Part} {b₀ : State} {r : DictReq} {pin : Fin 96} {value : BitVec 8} {s : State} (hP : (Part.but [.pending, .now]) ⊆ P) (hb₀ : Changes P b₀ s) : ChangesAll P b₀ (execSpFuncWrite r pin value s) := by
  unfold execSpFuncWrite
  repeat' first
    | with_reducible assumption
    | with_reducible apply writeObject_ch

theorem execSpPwmWrite_ch {P : List Part} {b₀ : State} {r : DictReq} {pin : Fin 96} {freq : Bool} {value : BitVec 32} {s : State} (hP : (Part.but [.pending, .now]) ⊆ P) (hb₀ : Changes P b₀ s) : ChangesAll P b₀ (execSpPwmWrite r pin freq value s) := by
  unfold execSpPwmWrite
  repeat' first
    | with_reducible assumption
    | with_reducible apply writeObject_ch

end Sys2Proof.Machine
end

