-- ==== Sys2Proof/Laws/ChangesCopy.lean ====
section
/-!
SUPPORT. What each operation of Machine/Copy.lean may change.
-/

namespace Sys2Proof.Machine

theorem copyIn_ch {P : List Part} {b₀ : State} {s : State} {f i : Nat} {p : CopyPayload} {rs : List Run} (hP : [.fresh, .objs, .voteSecond, .funcs, .sess, .frames, .served, .ehrica, .balance, .dram, .mem, .power, .grog, .notes] ⊆ P) (hb₀ : Changes P b₀ s) : Changes P b₀ (copyIn s f i p rs) := by
  unfold copyIn
  repeat' first
    | with_reducible assumption
    | with_reducible apply writeCells_ch

theorem copyOut_ch {P : List Part} {b₀ : State} {s : State} {f i : Nat} {p : CopyPayload} {rs : List Run} (hP : [.fresh, .objs, .voteSecond, .host, .funcs, .sess, .frames, .served, .ehrica, .balance, .dram, .mem, .power, .grog, .notes] ⊆ P) (hb₀ : Changes P b₀ s) : Changes P b₀ (copyOut s f i p rs).1 := by
  unfold copyOut
  repeat' first
    | with_reducible assumption
    | with_reducible apply hostWrite_ch
    | with_reducible apply readCells_ch
    | ((with_reducible refine part_sub hP ?_); rfl)
    | with_reducible apply foldl_ch
    | with_reducible apply foldl_ch1
    | (intro x a hx; try beta_reduce)
    | with_reducible refine ch_fst (by with_reducible assumption) ?_
    | with_reducible apply ch_ite
    | with_reducible apply ch_ite1
    | split

theorem copyAcross_ch {P : List Part} {b₀ : State} {s : State} {i j : Nat} {src dst : List Run} (hP : [.fresh, .objs, .voteSecond, .funcs, .sess, .frames, .served, .ehrica, .balance, .dram, .mem, .power, .grog, .notes] ⊆ P) (hb₀ : Changes P b₀ s) : Changes P b₀ (copyAcross s i j src dst) := by
  unfold copyAcross
  repeat' first
    | with_reducible assumption
    | with_reducible apply writeCells_ch
    | with_reducible apply readCells_ch

theorem copyFill_ch {P : List Part} {b₀ : State} {s : State} {i : Nat} {p : CopyPayload} {rs : List Run} (hP : [.fresh, .objs, .voteSecond, .funcs, .sess, .frames, .served, .ehrica, .balance, .dram, .mem, .power, .grog, .notes] ⊆ P) (hb₀ : Changes P b₀ s) : Changes P b₀ (copyFill s i p rs) := by
  unfold copyFill
  repeat' first
    | with_reducible assumption
    | with_reducible apply writeCells_ch

theorem execCopy_ch {P : List Part} {b₀ : State} {h : CmdHdr} {p : CopyPayload} {s : State} (hP : [.fresh, .objs, .votes, .voteSecond, .host, .funcs, .sess, .frames, .served, .rings, .ehrica, .balance, .dram, .mem, .power, .grog, .notes] ⊆ P) (hb₀ : Changes P b₀ s) : ChangesAll P b₀ (execCopy h p s) := by
  unfold execCopy
  repeat' first
    | with_reducible assumption
    | with_reducible apply draw_ch
    | with_reducible apply complete_ch
    | with_reducible apply completeR_ch
    | with_reducible apply completeOpen_ch
    | with_reducible apply beginCmd_ch
    | with_reducible apply copyIn_ch
    | with_reducible apply copyOut_ch
    | with_reducible apply copyAcross_ch
    | with_reducible apply copyFill_ch
    | ((with_reducible refine part_sub hP ?_); rfl)
    | with_reducible apply changes_next
    | with_reducible apply changes_fault
    | (extract_lets +onlyGivenNames x; clear_value x; revert x; intro _)
    | with_reducible refine ch_fst (by with_reducible assumption) ?_
    | with_reducible apply ch_ite
    | with_reducible apply changes_ite
    | split

theorem execConvert_ch {P : List Part} {b₀ : State} {h : CmdHdr} {p : ConvertPayload} {s : State} (hP : [.fresh, .objs, .votes, .voteSecond, .host, .funcs, .sess, .frames, .served, .rings, .ehrica, .balance, .dram, .mem, .power, .grog, .notes] ⊆ P) (hb₀ : Changes P b₀ s) : ChangesAll P b₀ (execConvert h p s) := by
  unfold execConvert
  repeat' first
    | with_reducible assumption
    | with_reducible apply completeOpen_ch
    | with_reducible apply beginCmd_ch
    | with_reducible apply writeCells_ch
    | with_reducible apply readCells_ch
    | ((with_reducible refine part_sub hP ?_); rfl)
    | with_reducible apply changes_next
    | with_reducible apply changes_fault
    | (extract_lets +onlyGivenNames x; clear_value x; revert x; intro _)
    | with_reducible refine ch_fst (by with_reducible assumption) ?_
    | with_reducible apply ch_ite
    | with_reducible apply changes_ite
    | split

theorem execSurfScrubDone_ch {P : List Part} {b₀ : State} {slot : Fin 2048} {s : State} (hP : [.scrubs, .dram] ⊆ P) (hb₀ : Changes P b₀ s) : ChangesAll P b₀ (execSurfScrubDone slot s) := by
  unfold execSurfScrubDone
  repeat' first
    | with_reducible assumption
    | with_reducible apply scrubSurface_ch
    | with_reducible apply changes_next
    | with_reducible apply changes_fault
    | with_reducible apply ch_ite
    | with_reducible apply changes_ite
    | split

end Sys2Proof.Machine
end

