-- ==== Sys2Proof/Laws/ChangesSnapshot.lean ====
section
/-!
SUPPORT. What each operation of Machine/Snapshot.lean may change.
-/

namespace Sys2Proof.Machine

theorem snapOp_ch {P : List Part} {b₀ : State} {s : State} {f v : Nat} (hP : [.fresh, .objs, .funcs] ⊆ P) (hb₀ : Changes P b₀ s) : Changes P b₀ (snapOp s f v) := by
  unfold snapOp
  repeat' first
    | with_reducible assumption
    | with_reducible apply draw_ch
    | with_reducible apply modFunc_ch
    | with_reducible apply lostWrite_ch
    | ((with_reducible refine part_sub hP ?_); rfl)
    | (extract_lets +onlyGivenNames x; clear_value x; revert x; intro _)
    | with_reducible apply ch_ite

theorem execSnapSel_ch {P : List Part} {b₀ : State} {f : Fin 65} {value : BitVec 32} {s : State} (hP : [.fresh, .objs, .funcs] ⊆ P) (hb₀ : Changes P b₀ s) : ChangesAll P b₀ (execSnapSel f value s) := by
  unfold execSnapSel
  repeat' first
    | with_reducible assumption
    | with_reducible apply snapOp_ch
    | with_reducible apply changes_next
    | with_reducible apply changes_fault
    | with_reducible apply ch_ite
    | with_reducible apply changes_ite

theorem execRegisterWrite_ch {P : List Part} {b₀ : State} {f : Fin 65} {offset : BitVec 16} {value : BitVec 32} {s : State} (hP : [.fresh, .objs, .votes, .voteSecond, .host, .funcs, .sess, .rings, .grog, .notes] ⊆ P) (hb₀ : Changes P b₀ s) : ChangesAll P b₀ (execRegisterWrite f offset value s) := by
  unfold execRegisterWrite
  repeat' first
    | with_reducible assumption
    | with_reducible apply registerOp_ch
    | with_reducible apply snapOp_ch
    | ((with_reducible refine part_sub hP ?_); rfl)
    | with_reducible apply changes_next
    | with_reducible apply changes_fault
    | with_reducible apply ch_ite
    | with_reducible apply changes_ite

end Sys2Proof.Machine
end

