-- ==== Sys2Proof/Laws/ChangesTick.lean ====
section
/-!
SUPPORT. What each operation of Machine/Tick.lean may change.
-/

namespace Sys2Proof.Machine

theorem sendNote_ch {P : List Part} {b₀ : State} {s : State} {i : Nat} (hP : [.sess] ⊆ P) (hb₀ : Changes P b₀ s) : Changes P b₀ (sendNote s i) := by
  unfold sendNote
  repeat' first
    | with_reducible assumption
    | with_reducible apply modSess_ch
    | with_reducible apply ch_ite
    | split

theorem tick_ch {P : List Part} {b₀ : State} {s : State} (hP : (Part.but [.pending, .mram, .defaultsDue, .resp, .twResp, .can, .frameSent]) ⊆ P) (hb₀ : Changes P b₀ s) : Changes P b₀ (tick s) := by
  have m_now : Part.now ∈ P := part_mem hP rfl
  unfold tick
  repeat' first
    | with_reducible assumption
    | with_reducible apply copyTick_ch
    | with_reducible apply tryStart_ch
    | with_reducible apply railTick_ch
    | with_reducible apply driveTick_ch
    | with_reducible apply serveLink_ch
    | with_reducible apply powerTimers_ch
    | with_reducible apply sendNote_ch
    | ((with_reducible refine part_sub hP ?_); rfl)
    | with_reducible apply foldN_ch
    | (intro x a hx; try beta_reduce)
    | fail_if_no_progress (with_reducible refine ch_now ?_ m_now)

end Sys2Proof.Machine
end

