-- ==== Sys2Proof/Laws/Keeps.lean ====
section
/-!
SUPPORT. What a part of a command keeps: the queue, and the invariant. `Keeps r s` says that `s` comes from `r` so; each operation of
the model has one lemma that carries it on (Laws/Keeps*.lean).
-/

namespace Sys2Proof.Machine

/-- `s` has the queue of `r`, and the invariant if `r` has it. -/
structure Keeps (r s : State) : Prop where
  queue : s.pending = r.pending
  inv : Inv r → Inv s

/-- Every next state of an outcome keeps. -/
structure Ends (r : State) (o : Host.Outcome State Fault Refusal) : Prop where
  next : ∀ t, o = .next t → Keeps r t

/-- The state that an option holds keeps. -/
structure KeepsOpt (r : State) (o : Option State) : Prop where
  keeps : ∀ t, o = some t → Keeps r t

theorem keepsOpt_none {r : State} : KeepsOpt r none := ⟨fun _ e => by cases e⟩

theorem keepsOpt_some {r s : State} (h : Keeps r s) : KeepsOpt r (some s) := ⟨fun _ e => by cases e; exact h⟩

theorem Keeps.refl (r : State) : Keeps r r := ⟨rfl, id⟩

theorem Keeps.trans {r s t : State} (h : Keeps r s) (h' : Keeps s t) : Keeps r t := ⟨h'.queue.trans h.queue, h'.inv ∘ h.inv⟩

theorem ends_next {r s : State} (h : Keeps r s) : Ends r (.next s) := ⟨fun _ e => by cases e; exact h⟩

theorem ends_fault {r : State} (f : Fault) : Ends r (.fault f) := ⟨fun _ e => by cases e⟩

/-- An update of fields that the invariant does not speak of. -/
theorem keeps_frame {r s t : State} (h : Keeps r s) (h1 : t.pending = s.pending) (h2 : t.host = s.host) (h3 : t.objs = s.objs)
    (h4 : t.sess = s.sess) (h5 : t.freeSlots = s.freeSlots) (h6 : t.frames = s.frames) (h7 : t.tilthLog = s.tilthLog)
    (h8 : t.dram = s.dram) (h9 : t.mem.log = s.mem.log) (h10 : t.world.buf = s.world.buf) (h11 : t.world.esram = s.world.esram)
    (h12 : t.refuseLog = s.refuseLog) (h13 : t.grog.log = s.grog.log) (h14 : t.kram = s.kram) : Keeps r t := by
  refine h.trans ⟨h1, fun i => ?_⟩
  constructor
  · rw [h2]; exact i.host
  · rw [h8]; exact i.dram
  · rw [h14]; exact i.kram
  · rw [h10]; exact i.buf
  · rw [h11]; exact i.esram
  · rw [h3]; exact i.ctr
  · rw [h4]; exact i.order
  · rw [h4]; exact i.sess
  · rw [h5]; exact i.freeOnce
  · simp only [sessOf, h4, h5]; exact i.free
  · rw [h6]; exact i.frames
  · rw [h12]; exact i.refusals
  · rw [h7]; exact i.tilth
  · rw [h9]; exact i.memLog
  · rw [h13]; exact i.grogLog

theorem keeps_mk {r s : State} {a_now : Nat} {a_fresh : Nat} {a_mram : Tab MramObj} {a_defaultsDue : Bool} {a_votes : Tab (Nat × Nat)} {a_voteSecond : Nat} {a_funcs : Tab Func} {a_resp : Option (Carrier × Response)} {a_twResp : Option Response} {a_portals : Tab Portal} {a_can : CanRx} {a_frameSent : Option (Nat × List Byte)} {a_served : Bool} {a_transit : List Nat} {a_ehrica : Tab Nat} {a_rings : Tab Ring} {a_signals : List HeldSignal} {a_fenceGen : Tab Nat} {a_ctxs : Tab Ctx} {a_cores : Tab Core} {a_progs : Tab Code} {a_ports : Tab Port} {a_commits : List PendingCommit} {a_surfs : Tab Surf} {a_scrubs : List Scrub} {a_balance : Balance} {a_hap : Hap} {a_panels : Tab Panel} {a_snd : Snd} {a_fab : Fab} {a_pins : Tab Pin} {a_islTime : Tab Nat} {a_rateStop : Tab Nat} {a_migs : Tab Mig} {a_bodies : List (List Byte × ImageBody)} {a_badStored : List Nat} {a_power : Power} {a_engineGen : Tab Nat} {a_kold : List (Nat × Nat × List Byte)}
    (h : Keeps r s) :
    Keeps r (State.mk s.pending a_now a_fresh s.objs a_mram a_defaultsDue a_votes a_voteSecond s.host a_funcs s.sess s.freeSlots a_resp a_twResp a_portals a_can s.frames a_frameSent a_served a_transit a_ehrica a_rings a_signals a_fenceGen a_ctxs a_cores a_progs a_ports a_commits a_surfs a_scrubs s.tilthLog a_balance s.dram s.mem a_hap a_panels a_snd a_fab s.world a_pins a_islTime a_rateStop a_migs a_bodies a_badStored a_power s.refuseLog s.grog a_engineGen s.kram a_kold) :=
  keeps_frame h rfl rfl rfl rfl rfl rfl rfl rfl rfl rfl rfl rfl rfl rfl

theorem keeps_ite {r a b : State} {c : Prop} [Decidable c] (ha : Keeps r a) (hb : Keeps r b) : Keeps r (if c then a else b) := by
  split <;> assumption

theorem keeps_ite1 {β : Type} {r : State} {a b : State × β} {c : Prop} [Decidable c] (ha : Keeps r a.1) (hb : Keeps r b.1) :
    Keeps r (if c then a else b).1 := by split <;> assumption

theorem ends_ite {r : State} {a b : Host.Outcome State Fault Refusal} {c : Prop} [Decidable c] (ha : Ends r a) (hb : Ends r b) :
    Ends r (if c then a else b) := by split <;> assumption

theorem keeps_fst {β : Type} {r a : State} {b : β} {p : State × β} (e : p = (a, b)) (h : Keeps r p.1) : Keeps r a := by
  rw [e] at h; exact h

theorem keeps_step {r x : State} {P : Prop} (h : Keeps r x) (k : Keeps r x → P) : P := k h

theorem keeps_step1 {β : Type} {r : State} {x : State × β} {P : Prop} (h : Keeps r x.1) (k : Keeps r x.1 → P) : P := k h

theorem keeps_stepF1 {r : State} {x : State → State} {P : Prop} (h : ∀ y, Keeps r y → Keeps r (x y))
    (k : (∀ y, Keeps r y → Keeps r (x y)) → P) : P := k h

theorem keeps_stepF2 {α : Type} {r : State} {x : State → α → State} {P : Prop} (h : ∀ y a, Keeps r y → Keeps r (x y a))
    (k : (∀ y a, Keeps r y → Keeps r (x y a)) → P) : P := k h

theorem keeps_stepF3 {α β : Type} {r : State} {x : State → α → β → State} {P : Prop}
    (h : ∀ y a b, Keeps r y → Keeps r (x y a b)) (k : (∀ y a b, Keeps r y → Keeps r (x y a b)) → P) : P := k h

theorem foldl_keeps {α : Type} {r s : State} {f : State → α → State} (l : List α) (h : Keeps r s)
    (hf : ∀ x a, Keeps r x → Keeps r (f x a)) : Keeps r (l.foldl f s) := by
  induction l generalizing s with
  | nil => exact h
  | cons a l ih => exact ih (hf _ _ h)

theorem foldl_keeps1 {α β : Type} {r : State} {s : State × β} {f : State × β → α → State × β} (l : List α) (h : Keeps r s.1)
    (hf : ∀ x a, Keeps r x.1 → Keeps r (f x a).1) : Keeps r (l.foldl f s).1 := by
  induction l generalizing s with
  | nil => exact h
  | cons a l ih => exact ih (hf _ _ h)

theorem foldN_keeps {r s : State} {f : State → Nat → State} (l : List Nat) (h : Keeps r s)
    (hf : ∀ x a, Keeps r x → Keeps r (f x a)) : Keeps r (foldN l f s) := foldl_keeps l h hf

/-! ## Updates of the invariant's own fields -/

theorem keeps_objs {r s : State} {o : Tab ObjCell} (h : Keeps r s) (ho : Inv s → ∀ e ∈ o, e.2.ctr < 65536) :
    Keeps r { s with objs := o } :=
  h.trans ⟨rfl, fun i => { i with ctr := ho i, free := i.free }⟩

theorem keeps_host {r s : State} {m : Memory} (h : Keeps r s) (hm : Memory.wf s.host → Memory.wf m) : Keeps r { s with host := m } :=
  h.trans ⟨rfl, fun i => { i with host := hm i.host, free := i.free }⟩

theorem keeps_dram {r s : State} {m : Memory} (h : Keeps r s) (hm : Memory.wf s.dram → Memory.wf m) : Keeps r { s with dram := m } :=
  h.trans ⟨rfl, fun i => { i with dram := hm i.dram, free := i.free }⟩

theorem keeps_kram {r s : State} {m : Memory} {k : List (Nat × Nat × List Byte)} (h : Keeps r s) (hm : Memory.wf s.kram → Memory.wf m) :
    Keeps r { s with kram := m, kold := k } :=
  h.trans ⟨rfl, fun i => { i with kram := hm i.kram, free := i.free }⟩

theorem keeps_tilth {r s : State} {l : List (List Byte)} (h : Keeps r s) (hl : l.length ≤ 256) : Keeps r { s with tilthLog := l } :=
  h.trans ⟨rfl, fun i => { i with tilth := hl, free := i.free }⟩

theorem keeps_refusals {r s : State} {l : List (List Byte)} (h : Keeps r s) (hl : l.length ≤ 64) : Keeps r { s with refuseLog := l } :=
  h.trans ⟨rfl, fun i => { i with refusals := hl, free := i.free }⟩

theorem keeps_frames {r s : State} {l : List EventFrame} (h : Keeps r s)
    (hl : Inv s → (l.filter (·.kaolin)).length ≤ 16) : Keeps r { s with frames := l } :=
  h.trans ⟨rfl, fun i => { i with frames := hl i, free := i.free }⟩

theorem modMem_keeps {r s : State} {g : Mem → Mem} (h : Keeps r s) (hg : ∀ m, m.log.length ≤ 128 → (g m).log.length ≤ 128) :
    Keeps r (modMem s g) :=
  h.trans ⟨rfl, fun i => { i with memLog := hg _ i.memLog, free := i.free }⟩

theorem modGrog_keeps {r s : State} {g : Grog → Grog} (h : Keeps r s) (hg : ∀ m, m.log.length ≤ 4096 → (g m).log.length ≤ 4096) :
    Keeps r (modGrog s g) :=
  h.trans ⟨rfl, fun i => { i with grogLog := hg _ i.grogLog, free := i.free }⟩

theorem modWorld_keeps {r s : State} {g : World → World} (h : Keeps r s) (hb : ∀ w, Memory.wf w.buf → Memory.wf (g w).buf)
    (he : ∀ w, Memory.wf w.esram → Memory.wf (g w).esram) : Keeps r (modWorld s g) :=
  h.trans ⟨rfl, fun i => { i with buf := hb _ i.buf, esram := he _ i.esram, free := i.free }⟩

theorem sessOf_cases (s : State) (i : Nat) : (i, sessOf s i) ∈ s.sess ∨ sessOf s i = {} := by
  unfold sessOf tget
  cases h : tfind s.sess i with
  | none => right; rfl
  | some x => left; exact mem_of_tfind h

theorem Inv.sessOf_bounded {s : State} (i : Inv s) (n : Nat) : (sessOf s n).bounded := by
  rcases sessOf_cases s n with h | h
  · exact (i.sess _ h).1
  · rw [h]; exact ⟨by simp, by simp⟩

theorem Inv.open_lt {s : State} (i : Inv s) {n : Nat} (h : (sessOf s n).isOpen = true) : n < 48 := by
  rcases sessOf_cases s n with h' | h'
  · exact (i.sess _ h').2 h
  · rw [h'] at h; cases h

theorem modSess_keeps' {r s : State} {n : Nat} {g : Session → Session} (h : Keeps r s)
    (hb : (sessOf s n).bounded → (g (sessOf s n)).bounded) (ho : (g (sessOf s n)).isOpen = (sessOf s n).isOpen) :
    Keeps r (modSess s n g) := by
  refine h.trans ⟨rfl, fun i => { i with order := tset_sorted _ _ _ i.order, sess := ?_, free := ?_ }⟩
  · intro e he
    rcases mem_tset he with rfl | he
    · exact ⟨hb (i.sessOf_bounded n), fun o => i.open_lt (ho ▸ o)⟩
    · exact i.sess e he
  · intro j
    have : (sessOf (modSess s n g) j).isOpen = (sessOf s j).isOpen := by
      by_cases e : j = n
      · subst e
        have : sessOf (modSess s j g) j = g (sessOf s j) := by simp [sessOf, modSess]
        rw [this, ho]
      · simp [sessOf, modSess, tget_tset, e]
    rw [this]; exact i.free j

theorem modSess_keeps {r s : State} {n : Nat} {g : Session → Session} (h : Keeps r s) (hb : ∀ x, x.bounded → (g x).bounded)
    (ho : ∀ x, (g x).isOpen = x.isOpen) : Keeps r (modSess s n g) := modSess_keeps' h (hb _) (ho _)

theorem putV_keeps {r s : State} (k : Nat) (v : Val) (h : Keeps r s) : Keeps r (putV s k v) := by
  refine keeps_objs h fun i e he => ?_
  rcases mem_tset he with rfl | he
  · simp only [ctrOf]
    split
    · next c hc => exact i.ctr _ (mem_of_tfind hc)
    · decide
  · exact i.ctr e he

theorem putN_keeps {r s : State} (k n : Nat) (h : Keeps r s) : Keeps r (putN s k n) := putV_keeps _ _ h

theorem putB_keeps {r s : State} (k : Nat) (b : Bool) (h : Keeps r s) : Keeps r (putB s k b) := putV_keeps _ _ h

theorem writeV_keeps {r s : State} (k : Nat) (v : Val) (h : Keeps r s) : Keeps r (writeV s k v) := by
  unfold writeV
  split
  · exact h
  · refine keeps_objs h fun i e he => ?_
    rcases mem_tset he with rfl | he
    · exact Nat.mod_lt _ (by decide)
    · exact i.ctr e he

theorem writeN_keeps {r s : State} (k n : Nat) (h : Keeps r s) : Keeps r (writeN s k n) := writeV_keeps _ _ h

theorem writeB_keeps {r s : State} (k : Nat) (b : Bool) (h : Keeps r s) : Keeps r (writeB s k b) := writeV_keeps _ _ h

theorem length_lastN {α : Type} (n : Nat) (l : List α) : (lastN n l).length ≤ n := by simp [lastN]; omega

/-- A session ends. -/
theorem closeSession_keeps {r s : State} (n : Nat) (h : Keeps r s) : Keeps r (closeSession s n) := by
  unfold closeSession
  split
  · next ho =>
    refine h.trans ⟨rfl, fun i => { i with order := tset_sorted _ _ _ i.order, sess := ?_, freeOnce := ?_, free := ?_ }⟩
    · intro e he
      rcases mem_tset he with rfl | he
      · exact ⟨⟨by simp, by simp⟩, by simp⟩
      · exact i.sess e he
    · refine List.nodup_append.2 ⟨i.freeOnce, by simp, ?_⟩
      intro a ha b hb
      simp only [List.mem_singleton] at hb; subst hb
      rintro rfl
      have := (i.free a).1 ha
      simp_all
    · intro j
      simp only [List.mem_append, List.mem_singleton, i.free, sessOf, tget_tset]
      by_cases hj : j = n
      · subst hj; simp [i.open_lt ho]
      · simp [hj]
  · exact h

end Sys2Proof.Machine
end

