-- ==== Sys2Proof/Laws/KeepsOps.lean ====
section
/-!
SUPPORT. Each operation of Machine/Ops.lean keeps the queue and the invariant.
-/

namespace Sys2Proof.Machine

theorem bump_keeps {b₀ : State} {s : State} {k : Nat} (hb₀ : Keeps b₀ s) : Keeps b₀ (bump s k) := by
  unfold bump
  repeat' first
    | with_reducible assumption
    | with_reducible apply putN_keeps

theorem bumpBy_keeps {b₀ : State} {s : State} {k n : Nat} (hb₀ : Keeps b₀ s) : Keeps b₀ (bumpBy s k n) := by
  unfold bumpBy
  repeat' first
    | with_reducible assumption
    | with_reducible apply putN_keeps

theorem draw_keeps {b₀ : State} {s : State} (hb₀ : Keeps b₀ s) : Keeps b₀ (draw s) := by
  unfold draw
  repeat' first
    | with_reducible assumption
    | fail_if_no_progress (with_reducible apply keeps_mk)

theorem dropTransit_keeps {b₀ : State} {s : State} {k : Nat} (hb₀ : Keeps b₀ s) : Keeps b₀ (dropTransit s k) := by
  unfold dropTransit
  repeat' first
    | with_reducible assumption
    | fail_if_no_progress (with_reducible apply keeps_mk)

theorem addTransit_keeps {b₀ : State} {s : State} {k : Nat} (hb₀ : Keeps b₀ s) : Keeps b₀ (addTransit s k) := by
  unfold addTransit
  repeat' first
    | with_reducible assumption
    | fail_if_no_progress (with_reducible apply keeps_mk)

theorem interruptTw_keeps {b₀ : State} {s : State} {cause : Nat} (hb₀ : Keeps b₀ s) : Keeps b₀ (interruptTw s cause) := by
  unfold interruptTw
  repeat' first
    | with_reducible assumption
    | fail_if_no_progress (with_reducible apply keeps_mk)

theorem modFunc_keeps {b₀ : State} {s : State} {f : Nat} {g : Func → Func} (hb₀ : Keeps b₀ s) : Keeps b₀ (modFunc s f g) := by
  unfold modFunc
  repeat' first
    | with_reducible assumption
    | fail_if_no_progress (with_reducible apply keeps_mk)

theorem modRing_keeps {b₀ : State} {s : State} {h : Nat} {g : Ring → Ring} (hb₀ : Keeps b₀ s) : Keeps b₀ (modRing s h g) := by
  unfold modRing
  repeat' first
    | with_reducible assumption
    | fail_if_no_progress (with_reducible apply keeps_mk)

theorem modCtx_keeps {b₀ : State} {s : State} {c : Nat} {g : Ctx → Ctx} (hb₀ : Keeps b₀ s) : Keeps b₀ (modCtx s c g) := by
  unfold modCtx
  repeat' first
    | with_reducible assumption
    | fail_if_no_progress (with_reducible apply keeps_mk)

theorem modCore_keeps {b₀ : State} {s : State} {k : Nat} {g : Core → Core} (hb₀ : Keeps b₀ s) : Keeps b₀ (modCore s k g) := by
  unfold modCore
  repeat' first
    | with_reducible assumption
    | fail_if_no_progress (with_reducible apply keeps_mk)

theorem modPort_keeps {b₀ : State} {s : State} {p : Nat} {g : Port → Port} (hb₀ : Keeps b₀ s) : Keeps b₀ (modPort s p g) := by
  unfold modPort
  repeat' first
    | with_reducible assumption
    | fail_if_no_progress (with_reducible apply keeps_mk)

theorem modSurf_keeps {b₀ : State} {s : State} {i : Nat} {g : Surf → Surf} (hb₀ : Keeps b₀ s) : Keeps b₀ (modSurf s i g) := by
  unfold modSurf
  repeat' first
    | with_reducible assumption
    | fail_if_no_progress (with_reducible apply keeps_mk)

theorem writeVoted_keeps {b₀ : State} {s : State} {k n : Nat} (hb₀ : Keeps b₀ s) : Keeps b₀ (writeVoted s k n) := by
  unfold writeVoted
  repeat' first
    | with_reducible assumption
    | with_reducible apply writeN_keeps
    | (extract_lets +onlyGivenNames x; refine keeps_step (r := b₀) (x := x) ?_ (fun hx => ?_); subst x; rotate_left; clear_value x; revert x; intro _ _)
    | fail_if_no_progress (with_reducible apply keeps_mk)

theorem ite_log {c : Prop} [Decidable c] {a b : Grog} (ha : a.log.length ≤ 4096) (hb : b.log.length ≤ 4096) :
    (if c then a else b).log.length ≤ 4096 := by split <;> assumption

theorem grogLog_keeps {b₀ : State} {s : State} {cls kind unit spare cause detail gen : Nat} (hb₀ : Keeps b₀ s) :
    Keeps b₀ (grogLog s cls kind unit spare cause detail gen) := by
  unfold grogLog
  refine modGrog_keeps hb₀ fun m hm => ?_
  apply ite_log
  · exact hm
  · dsimp only
    exact length_lastN _ _

theorem setPend_keeps {b₀ : State} {s : State} {f c : Nat} (hb₀ : Keeps b₀ s) : Keeps b₀ (setPend s f c) := by
  unfold setPend
  repeat' first
    | with_reducible assumption
    | with_reducible apply hf1
    | with_reducible apply hf2
    | with_reducible apply hf3
    | with_reducible apply modFunc_keeps
    | (extract_lets +onlyGivenNames x; clear_value x; revert x; intro _)
    | fail_if_no_progress (with_reducible apply keeps_mk)
    | with_reducible apply keeps_ite

theorem pushNote_keeps {b₀ : State} {s : State} {i : Nat} {n : Note} (hb₀ : Keeps b₀ s) : Keeps b₀ (pushNote s i n) := by
  have h : Keeps b₀ (modSess s i (fun x => { x with notes := lastN 64 ((sessOf s i).notes ++ [n]) })) :=
    modSess_keeps hb₀ (fun x hx => ⟨length_lastN _ _, hx.2⟩) (fun _ => rfl)
  unfold pushNote
  extract_lets ns t
  split
  · exact bump_keeps h
  · exact h

theorem notifyAll_keeps {b₀ : State} {s : State} {cls : Nat} {fs : List Nat} {n : Note} (hb₀ : Keeps b₀ s) : Keeps b₀ (notifyAll s cls fs n) := by
  unfold notifyAll
  repeat' first
    | with_reducible assumption
    | with_reducible apply pushNote_keeps
    | with_reducible apply foldN_keeps
    | (intro x a hx; try beta_reduce)

theorem healthEvent_keeps {b₀ : State} {s : State} {code : Nat} {detail : List Byte} (hb₀ : Keeps b₀ s) : Keeps b₀ (healthEvent s code detail) := by
  unfold healthEvent
  repeat' first
    | with_reducible assumption
    | with_reducible apply setPend_keeps
    | with_reducible apply notifyAll_keeps

theorem countRepair_keeps {b₀ : State} {s : State} (hb₀ : Keeps b₀ s) : Keeps b₀ (countRepair s) := by
  unfold countRepair
  repeat' first
    | with_reducible assumption
    | with_reducible apply bump_keeps
    | with_reducible apply healthEvent_keeps
    | (extract_lets +onlyGivenNames x; refine keeps_step (r := b₀) (x := x) ?_ (fun hx => ?_); subst x; rotate_left; clear_value x; revert x; intro _ _)
    | fail_if_no_progress (with_reducible apply keeps_mk)
    | with_reducible apply keeps_ite

theorem countBadVote_keeps {b₀ : State} {s : State} (hb₀ : Keeps b₀ s) : Keeps b₀ (countBadVote s) := by
  unfold countBadVote
  repeat' first
    | with_reducible assumption
    | with_reducible apply hf1
    | with_reducible apply hf2
    | with_reducible apply hf3
    | with_reducible apply bump_keeps
    | with_reducible apply grogLog_keeps
    | with_reducible apply setPend_keeps
    | fail_if_no_progress (with_reducible apply keeps_mk)

theorem voteMask_keeps {b₀ : State} {s : State} {f : Nat} (hb₀ : Keeps b₀ s) : Keeps b₀ (voteMask s f) := by
  unfold voteMask
  repeat' first
    | with_reducible assumption
    | with_reducible apply modFunc_keeps
    | with_reducible apply countRepair_keeps
    | with_reducible apply countBadVote_keeps
    | (extract_lets +onlyGivenNames x; clear_value x; revert x; intro _)
    | fail_if_no_progress (with_reducible apply keeps_mk)
    | with_reducible apply keeps_ite
    | split

theorem voteMsix_keeps {b₀ : State} {s : State} {f v : Nat} (hb₀ : Keeps b₀ s) : Keeps b₀ (voteMsix s f v) := by
  unfold voteMsix
  repeat' first
    | with_reducible assumption
    | with_reducible apply modFunc_keeps
    | with_reducible apply countRepair_keeps
    | with_reducible apply countBadVote_keeps
    | (extract_lets +onlyGivenNames x; clear_value x; revert x; intro _)
    | fail_if_no_progress (with_reducible apply keeps_mk)
    | with_reducible apply keeps_ite
    | split

theorem voteField_keeps {b₀ : State} {s : State} {k : Nat} (hb₀ : Keeps b₀ s) : Keeps b₀ (voteField s k).1 := by
  unfold voteField
  repeat' first
    | with_reducible assumption
    | with_reducible apply putN_keeps
    | with_reducible apply countRepair_keeps
    | with_reducible apply countBadVote_keeps
    | (extract_lets +onlyGivenNames x; refine keeps_step (r := b₀) (x := x) ?_ (fun hx => ?_); subst x; rotate_left; clear_value x; revert x; intro _ _)
    | (extract_lets +onlyGivenNames x; clear_value x; revert x; intro _)
    | fail_if_no_progress (with_reducible apply keeps_mk)
    | with_reducible apply keeps_ite
    | with_reducible apply keeps_ite1
    | split

theorem voteRing_keeps {b₀ : State} {s : State} {h : Nat} (hb₀ : Keeps b₀ s) : Keeps b₀ (voteRing s h) := by
  unfold voteRing
  repeat' first
    | with_reducible assumption
    | with_reducible apply modRing_keeps
    | with_reducible apply voteField_keeps
    | with_reducible apply foldl_keeps
    | with_reducible apply foldl_keeps1
    | (intro x a hx; try beta_reduce)
    | with_reducible refine keeps_fst (by with_reducible assumption) ?_
    | fail_if_no_progress (with_reducible apply keeps_mk)
    | with_reducible apply keeps_ite
    | split

theorem raiseVec_keeps {b₀ : State} {s : State} {f v : Nat} (hb₀ : Keeps b₀ s) : Keeps b₀ (raiseVec s f v) := by
  unfold raiseVec
  repeat' first
    | with_reducible assumption
    | with_reducible apply modFunc_keeps
    | with_reducible apply voteMsix_keeps

theorem raiseClass_keeps {b₀ : State} {s : State} {f c : Nat} (hb₀ : Keeps b₀ s) : Keeps b₀ (raiseClass s f c) := by
  unfold raiseClass
  repeat' first
    | with_reducible assumption
    | with_reducible apply hf1
    | with_reducible apply hf2
    | with_reducible apply hf3
    | with_reducible apply modFunc_keeps
    | with_reducible apply voteMask_keeps
    | with_reducible apply raiseVec_keeps
    | (extract_lets +onlyGivenNames x; refine keeps_step (r := b₀) (x := x) ?_ (fun hx => ?_); subst x; rotate_left; clear_value x; revert x; intro _ _)
    | (extract_lets +onlyGivenNames x; clear_value x; revert x; intro _)
    | fail_if_no_progress (with_reducible apply keeps_mk)
    | with_reducible apply keeps_ite

theorem emit_keeps {b₀ : State} {s : State} {cls code inst : Nat} {detail : List Byte} {fs : List Nat} (hb₀ : Keeps b₀ s) : Keeps b₀ (emit s cls code inst detail fs) := by
  unfold emit
  repeat' first
    | with_reducible assumption
    | with_reducible apply notifyAll_keeps
    | with_reducible apply raiseClass_keeps
    | with_reducible apply foldN_keeps
    | (intro x a hx; try beta_reduce)

theorem sideFrame_keeps {b₀ : State} {s : State} {kaolin : Bool} {code inst : Nat} {detail : List Byte} (hb₀ : Keeps b₀ s) :
    Keeps b₀ (sideFrame s kaolin code inst detail) := by
  unfold sideFrame
  extract_lets n0 n fr
  have hf : (fr.filter (·.kaolin)).length ≤ (s.frames.filter (·.kaolin)).length + 1 := by
    simp only [fr, List.filter_append, List.length_append]
    have : ([⟨kaolin, n⟩] : List EventFrame).filter (·.kaolin) = if kaolin then [⟨kaolin, n⟩] else [] := by
      cases kaolin <;> simp
    rw [this]; split <;> simp
  split
  · next hc =>
    refine bump_keeps (keeps_frames hb₀ fun i => ?_)
    have h16 := i.frames
    simp only [Bool.and_eq_true, decide_eq_true_eq] at hc
    have : ∀ l : List EventFrame, 0 < (l.filter (·.kaolin)).length →
        ((l.eraseP (·.kaolin)).filter (·.kaolin)).length + 1 = (l.filter (·.kaolin)).length := by
      intro l
      induction l with
      | nil => simp
      | cons a l ih =>
        by_cases ha : a.kaolin = true
        · simp [ha]
        · intro hl
          rw [List.eraseP_cons_of_neg ha, List.filter_cons_of_neg ha, List.filter_cons_of_neg ha]
          rw [List.filter_cons_of_neg ha] at hl
          exact ih hl
    have h1 := this fr (by omega)
    omega
  · next hc =>
    refine keeps_frames hb₀ fun i => ?_
    have h16 := i.frames
    cases hk : kaolin with
    | false =>
      have : fr.filter (·.kaolin) = s.frames.filter (·.kaolin) := by simp [fr, hk]
      rw [this]; exact h16
    | true => simp [hk] at hc; exact hc

theorem emitSb_keeps {b₀ : State} {s : State} {cls code inst : Nat} {detail : List Byte} {fs : List Nat} (hb₀ : Keeps b₀ s) : Keeps b₀ (emitSb s cls code inst detail fs) := by
  unfold emitSb
  repeat' first
    | with_reducible assumption
    | with_reducible apply emit_keeps
    | with_reducible apply sideFrame_keeps

theorem markPage_keeps {b₀ : State} {s : State} {v page : Nat} (hb₀ : Keeps b₀ s) : Keeps b₀ (markPage s v page) := by
  unfold markPage
  extract_lets
  exact keeps_host hb₀ (memSet_wf _ _)

theorem markDirty_keeps {b₀ : State} {s : State} {f a n : Nat} (hb₀ : Keeps b₀ s) : Keeps b₀ (markDirty s f a n) := by
  unfold markDirty
  repeat' first
    | with_reducible assumption
    | with_reducible apply hf1
    | with_reducible apply hf2
    | with_reducible apply hf3
    | with_reducible apply bump_keeps
    | with_reducible apply markPage_keeps
    | with_reducible apply foldN_keeps
    | (intro x a hx; try beta_reduce)
    | (extract_lets +onlyGivenNames x; refine keeps_step (r := b₀) (x := x) ?_ (fun hx => ?_); subst x; rotate_left; clear_value x; revert x; intro _ _)
    | (extract_lets +onlyGivenNames x; clear_value x; revert x; intro _)
    | fail_if_no_progress (with_reducible apply keeps_mk)
    | with_reducible apply keeps_ite

theorem hostWrite_keeps {b₀ : State} {s : State} {f a : Nat} {b : List Byte} (hb₀ : Keeps b₀ s) :
    Keeps b₀ (hostWrite s f a b) := by
  unfold hostWrite
  exact markDirty_keeps (keeps_host hb₀ (memSetAll_wf _ _))

theorem countDrop_keeps {b₀ : State} {s : State} {h f : Nat} (hb₀ : Keeps b₀ s) : Keeps b₀ (countDrop s h f) := by
  unfold countDrop
  repeat' first
    | with_reducible assumption
    | with_reducible apply modFunc_keeps
    | with_reducible apply modRing_keeps

theorem writeCompletion_keeps {b₀ : State} {s : State} {c : HeldCompletion} (hb₀ : Keeps b₀ s) : Keeps b₀ (writeCompletion s c) := by
  unfold writeCompletion
  repeat' first
    | with_reducible assumption
    | with_reducible apply modRing_keeps
    | with_reducible apply raiseVec_keeps
    | with_reducible apply hostWrite_keeps
    | (extract_lets +onlyGivenNames x; refine keeps_step (r := b₀) (x := x) ?_ (fun hx => ?_); subst x; rotate_left; clear_value x; revert x; intro _ _)
    | (extract_lets +onlyGivenNames x; clear_value x; revert x; intro _)
    | with_reducible refine keeps_host ?_ (memSetAll_wf _ _)
    | fail_if_no_progress (with_reducible apply keeps_mk)
    | with_reducible apply keeps_ite

theorem completeAlways_keeps {b₀ : State} {s : State} {t : Ticket} {status result detail : Nat} (hb₀ : Keeps b₀ s) : Keeps b₀ (completeAlways s t status result detail) := by
  unfold completeAlways
  repeat' first
    | with_reducible assumption
    | with_reducible apply modRing_keeps
    | with_reducible apply writeCompletion_keeps
    | (extract_lets +onlyGivenNames x; clear_value x; revert x; intro _)
    | with_reducible refine keeps_fst (by with_reducible assumption) ?_
    | fail_if_no_progress (with_reducible apply keeps_mk)
    | with_reducible apply keeps_ite

theorem complete_keeps {b₀ : State} {s : State} {t : Ticket} {status result detail : Nat} (hb₀ : Keeps b₀ s) : Keeps b₀ (complete s t status result detail) := by
  unfold complete
  repeat' first
    | with_reducible assumption
    | with_reducible apply completeAlways_keeps
    | fail_if_no_progress (with_reducible apply keeps_mk)
    | with_reducible apply keeps_ite

theorem completeR_keeps {b₀ : State} {s : State} {t : Ticket} {status result : Nat} (hb₀ : Keeps b₀ s) : Keeps b₀ (completeR s t status result) := by
  unfold completeR
  repeat' first
    | with_reducible assumption
    | with_reducible apply draw_keeps
    | with_reducible apply complete_keeps

theorem completeOpen_keeps {b₀ : State} {s : State} {t : Ticket} {status : Nat} (hb₀ : Keeps b₀ s) : Keeps b₀ (completeOpen s t status) := by
  unfold completeOpen
  repeat' first
    | with_reducible assumption
    | with_reducible apply draw_keeps
    | with_reducible apply complete_keeps

theorem completeOpenAlways_keeps {b₀ : State} {s : State} {t : Ticket} {status : Nat} (hb₀ : Keeps b₀ s) : Keeps b₀ (completeOpenAlways s t status) := by
  unfold completeOpenAlways
  repeat' first
    | with_reducible assumption
    | with_reducible apply draw_keeps
    | with_reducible apply completeAlways_keeps

theorem countDropped_keeps {b₀ : State} {s : State} {t : Ticket} (hb₀ : Keeps b₀ s) : Keeps b₀ (countDropped s t) := by
  unfold countDropped
  repeat' first
    | with_reducible assumption
    | with_reducible apply bump_keeps
    | fail_if_no_progress (with_reducible apply keeps_mk)
    | with_reducible apply keeps_ite

theorem droppedBy_keeps {b₀ : State} {s : State} {t : Ticket} (hb₀ : Keeps b₀ s) :
    KeepsOpt b₀ (droppedBy s t) := by
  unfold droppedBy
  split
  · exact keepsOpt_some (completeR_keeps (countDropped_keeps hb₀))
  · exact keepsOpt_some (complete_keeps (countDropped_keeps hb₀))
  · exact keepsOpt_none

theorem drainHeld_keeps {b₀ : State} {n : Nat} {s : State} {h : Nat} (hb₀ : Keeps b₀ s) : Keeps b₀ (drainHeld n s h) := by
  induction n generalizing s with
  | zero => exact hb₀
  | succ n ih =>
    unfold drainHeld
    repeat' first
      | assumption
      | with_reducible apply ih
      | with_reducible apply writeCompletion_keeps
      | with_reducible apply modRing_keeps
      | split

theorem foldSetAll_wf {α : Type} (l : List α) (k : α → Nat) (b : α → List Byte) {m : Memory} (h : Memory.wf m) :
    Memory.wf (l.foldl (fun m e => memSetAll m (k e) (b e)) m) := by
  induction l generalizing m with
  | nil => exact h
  | cons e l ih => exact ih (memSetAll_wf _ _ h)

theorem hostPlace_keeps {b₀ : State} {s : State} {f : Nat} {l : List (BitVec 64 × List Byte)} (hb₀ : Keeps b₀ s) :
    Keeps b₀ (hostPlace s f l) := by
  unfold hostPlace
  exact keeps_host hb₀ (foldSetAll_wf l _ _)

theorem placeCmd_keeps {b₀ : State} {s : State} {h : CmdHdr} {op : Nat} {pay : List Byte} (hb₀ : Keeps b₀ s) : Keeps b₀ (placeCmd s h op pay) := by
  unfold placeCmd
  repeat' first
    | with_reducible assumption
    | with_reducible apply hostPlace_keeps

theorem takeCmd_keeps {b₀ : State} {s : State} {h : CmdHdr} {op : Nat} {pay : List Byte} (hb₀ : Keeps b₀ s) : Keeps b₀ (takeCmd s h op pay).1 := by
  unfold takeCmd
  repeat' first
    | with_reducible assumption
    | with_reducible apply modRing_keeps
    | with_reducible apply complete_keeps
    | with_reducible apply placeCmd_keeps

theorem spoof_keeps {b₀ : State} {s : State} {t : Ticket} {h : CmdHdr} {checks : Nat} (hb₀ : Keeps b₀ s) : Keeps b₀ (spoof s t h checks) := by
  unfold spoof
  repeat' first
    | with_reducible assumption
    | with_reducible apply putN_keeps
    | with_reducible apply bump_keeps
    | with_reducible apply modFunc_keeps
    | with_reducible apply emit_keeps
    | with_reducible apply countDrop_keeps
    | with_reducible apply completeOpenAlways_keeps
    | fail_if_no_progress (with_reducible apply keeps_mk)
    | with_reducible apply keeps_ite

theorem beginCmd_keeps {b₀ : State} {s : State} {h : CmdHdr} {op : Nat} {pay : List Byte} {write : Bool} (hb₀ : Keeps b₀ s) : Keeps b₀ (beginCmd s h op pay write).1 := by
  unfold beginCmd
  repeat' first
    | with_reducible assumption
    | with_reducible apply voteRing_keeps
    | with_reducible apply takeCmd_keeps
    | with_reducible apply spoof_keeps
    | (extract_lets +onlyGivenNames x; refine keeps_step (r := b₀) (x := x) ?_ (fun hx => ?_); subst x; rotate_left; clear_value x; revert x; intro _ _)
    | with_reducible refine keeps_fst (by with_reducible assumption) ?_
    | fail_if_no_progress (with_reducible apply keeps_mk)
    | with_reducible apply keeps_ite
    | with_reducible apply keeps_ite1

end Sys2Proof.Machine
end

