-- ==== Sys2Proof/Laws/KeepsSurfaces.lean ====
section
/-!
SUPPORT. Each operation of Machine/Surfaces.lean keeps the queue and the invariant.
-/

namespace Sys2Proof.Machine

theorem tilthEntry_keeps {b₀ : State} {s : State} {kind reason flags subject old new : Nat} (hb₀ : Keeps b₀ s) : Keeps b₀ (tilthEntry s kind reason flags subject old new) := by
  unfold tilthEntry
  repeat' first
    | with_reducible assumption
    | with_reducible apply putN_keeps
    | with_reducible refine keeps_tilth ?_ (length_lastN _ _)

theorem hintMiss_keeps {b₀ : State} {s : State} (hb₀ : Keeps b₀ s) : Keeps b₀ (hintMiss s) := by
  unfold hintMiss
  repeat' first
    | with_reducible assumption
    | with_reducible apply bump_keeps

theorem zeroUnit_keeps {b₀ : State} {s : State} {u base size : Nat} (hb₀ : Keeps b₀ s) : Keeps b₀ (zeroUnit s u base size) := by
  unfold zeroUnit
  extract_lets
  exact keeps_dram hb₀ (memZero_wf _ _)

theorem allocSurface_keeps {b₀ : State} {s : State} {i u base : Nat} {kept : Bool} (hb₀ : Keeps b₀ s) : Keeps b₀ (allocSurface s i u base kept) := by
  unfold allocSurface
  repeat' first
    | with_reducible assumption
    | with_reducible apply putN_keeps
    | with_reducible apply modSurf_keeps
    | with_reducible apply tilthEntry_keeps
    | with_reducible apply hintMiss_keeps
    | with_reducible apply zeroUnit_keeps
    | (extract_lets +onlyGivenNames x; refine keeps_step (r := b₀) (x := x) ?_ (fun hx => ?_); subst x; rotate_left; clear_value x; revert x; intro _ _)
    | (extract_lets +onlyGivenNames x; clear_value x; revert x; intro _)
    | fail_if_no_progress (with_reducible apply keeps_mk)
    | with_reducible apply keeps_ite

theorem releaseSurface_keeps {b₀ : State} {s : State} {i : Nat} (hb₀ : Keeps b₀ s) : Keeps b₀ (releaseSurface s i) := by
  unfold releaseSurface
  repeat' first
    | with_reducible assumption
    | with_reducible apply putN_keeps
    | with_reducible apply modSurf_keeps
    | with_reducible refine keeps_fst (by with_reducible assumption) ?_
    | fail_if_no_progress (with_reducible apply keeps_mk)

theorem releaseReset_keeps {b₀ : State} {s : State} (hb₀ : Keeps b₀ s) : Keeps b₀ (releaseReset s) := by
  unfold releaseReset
  repeat' first
    | with_reducible assumption
    | with_reducible apply writeB_keeps
    | with_reducible apply releaseSurface_keeps
    | with_reducible apply foldN_keeps
    | (intro x a hx; try beta_reduce)
    | fail_if_no_progress (with_reducible apply keeps_mk)
    | with_reducible apply keeps_ite

theorem scrubSurface_keeps {b₀ : State} {s : State} {i : Nat} (hb₀ : Keeps b₀ s) : Keeps b₀ (scrubSurface s i) := by
  unfold scrubSurface
  repeat' first
    | with_reducible assumption
    | with_reducible apply zeroUnit_keeps
    | fail_if_no_progress (with_reducible apply keeps_mk)
    | with_reducible apply keeps_ite
    | split

theorem surfApply_keeps {b₀ : State} {s : State} {i sub v : Nat} (hb₀ : Keeps b₀ s) : Keeps b₀ (surfApply s i sub v) := by
  unfold surfApply
  repeat' first
    | with_reducible assumption
    | with_reducible apply writeN_keeps
    | with_reducible apply allocSurface_keeps
    | with_reducible apply releaseSurface_keeps
    | (extract_lets +onlyGivenNames x; refine keeps_step (r := b₀) (x := x) ?_ (fun hx => ?_); subst x; rotate_left; clear_value x; revert x; intro _ _)
    | (extract_lets +onlyGivenNames x; clear_value x; revert x; intro _)
    | fail_if_no_progress (with_reducible apply keeps_mk)
    | with_reducible apply keeps_ite
    | split

end Sys2Proof.Machine
end

