-- ==== Sys2Proof/Laws/KeepsCompose.lean ====
section
/-!
SUPPORT. Each operation of Machine/Compose.lean keeps the queue and the invariant.
-/

namespace Sys2Proof.Machine

theorem recomputeRuns_keeps {b₀ : State} {s : State} (hb₀ : Keeps b₀ s) : Keeps b₀ (recomputeRuns s) := by
  unfold recomputeRuns
  repeat' first
    | with_reducible assumption
    | with_reducible apply modPort_keeps
    | with_reducible apply foldl_keeps
    | with_reducible apply foldl_keeps1
    | (intro x a hx; try beta_reduce)

theorem applyLayerPlan_keeps {b₀ : State} {s : State} {p k : Nat} {old new : RunPlan} (hb₀ : Keeps b₀ s) : Keeps b₀ (applyLayerPlan s p k old new) := by
  unfold applyLayerPlan
  repeat' first
    | with_reducible assumption
    | with_reducible apply putN_keeps
    | with_reducible apply putB_keeps
    | with_reducible apply bump_keeps
    | with_reducible apply raiseClass_keeps
    | with_reducible apply tilthEntry_keeps
    | with_reducible apply hintMiss_keeps
    | with_reducible apply foldN_keeps
    | (intro x a hx; try beta_reduce)
    | (extract_lets +onlyGivenNames x; refine keeps_step (r := b₀) (x := x) ?_ (fun hx => ?_); subst x; rotate_left; clear_value x; revert x; intro _ _)
    | (extract_lets +onlyGivenNames x; clear_value x; revert x; intro _)
    | fail_if_no_progress (with_reducible apply keeps_mk)
    | with_reducible apply keeps_ite

theorem takeBuffer_keeps {b₀ : State} {s : State} {p : Nat} {run : Bool} (hb₀ : Keeps b₀ s) : Keeps b₀ (takeBuffer s p run) := by
  unfold takeBuffer
  repeat' first
    | with_reducible assumption
    | with_reducible apply modPort_keeps
    | with_reducible apply tilthEntry_keeps
    | (extract_lets +onlyGivenNames x; refine keeps_step (r := b₀) (x := x) ?_ (fun hx => ?_); subst x; rotate_left; clear_value x; revert x; intro _ _)
    | (extract_lets +onlyGivenNames x; clear_value x; revert x; intro _)
    | fail_if_no_progress (with_reducible apply keeps_mk)
    | with_reducible apply keeps_ite
    | split

theorem applyPlan_keeps {b₀ : State} {s : State} {p : Nat} (hb₀ : Keeps b₀ s) : Keeps b₀ (applyPlan s p) := by
  unfold applyPlan
  repeat' first
    | with_reducible assumption
    | with_reducible apply putN_keeps
    | with_reducible apply modPort_keeps
    | with_reducible apply applyLayerPlan_keeps
    | with_reducible apply takeBuffer_keeps
    | with_reducible apply foldN_keeps
    | (intro x a hx; try beta_reduce)

theorem modRow_keeps {b₀ : State} {s : State} {p r : Nat} {g : TileRow → TileRow} (hb₀ : Keeps b₀ s) : Keeps b₀ (modRow s p r g) := by
  unfold modRow
  repeat' first
    | with_reducible assumption
    | with_reducible apply modPort_keeps

theorem layerSetApply_keeps {b₀ : State} {s : State} {p k surface : Nat} {y : LayerSetPayload} (hb₀ : Keeps b₀ s) : Keeps b₀ (layerSetApply s p k surface y) := by
  unfold layerSetApply
  repeat' first
    | with_reducible assumption
    | with_reducible apply writeN_keeps
    | with_reducible apply foldl_keeps
    | with_reducible apply foldl_keeps1
    | (intro x a hx; try beta_reduce)

end Sys2Proof.Machine
end

