-- ==== Sys2Proof/Laws/KeepsDomains.lean ====
section
/-!
SUPPORT. Each operation of Machine/Domains.lean keeps the queue and the invariant.
-/

namespace Sys2Proof.Machine

theorem settleDomain_keeps {b₀ : State} {s : State} {d : Nat} (hb₀ : Keeps b₀ s) : Keeps b₀ (settleDomain s d) := by
  unfold settleDomain
  repeat' first
    | with_reducible assumption
    | with_reducible apply putN_keeps
    | (extract_lets +onlyGivenNames x; refine keeps_step (r := b₀) (x := x) ?_ (fun hx => ?_); subst x; rotate_left; clear_value x; revert x; intro _ _)
    | (extract_lets +onlyGivenNames x; clear_value x; revert x; intro _)
    | fail_if_no_progress (with_reducible apply keeps_mk)
    | with_reducible apply keeps_ite

theorem askDomain_keeps {b₀ : State} {s : State} {d : Nat} (hb₀ : Keeps b₀ s) : Keeps b₀ (askDomain s d) := by
  unfold askDomain
  repeat' first
    | with_reducible assumption
    | with_reducible apply interruptTw_keeps
    | with_reducible apply keeps_ite

theorem settle_keeps {b₀ : State} {s : State} (hb₀ : Keeps b₀ s) : Keeps b₀ (settle s) := by
  unfold settle
  repeat' first
    | with_reducible assumption
    | with_reducible apply settleDomain_keeps
    | with_reducible apply foldN_keeps

theorem resolved_keeps {b₀ : State} {s : State} {d idx sub : Nat} (hb₀ : Keeps b₀ s) : Keeps b₀ (resolved s d idx sub) := by
  unfold resolved
  repeat' first
    | with_reducible assumption
    | with_reducible apply dropTransit_keeps
    | with_reducible apply emit_keeps

theorem enableWrite_keeps {b₀ : State} {s : State} {k : Nat} {on stopping : Bool} {start stop : State → State} (h_start : ∀ x, Keeps b₀ x → Keeps b₀ (start x)) (h_stop : ∀ x, Keeps b₀ x → Keeps b₀ (stop x)) (hb₀ : Keeps b₀ s) : Keeps b₀ (enableWrite s k on stopping start stop).1 := by
  unfold enableWrite
  repeat' first
    | with_reducible assumption
    | with_reducible apply h_start
    | with_reducible apply h_stop
    | with_reducible apply writeB_keeps
    | with_reducible apply dropTransit_keeps
    | with_reducible apply addTransit_keeps
    | fail_if_no_progress (with_reducible apply keeps_mk)
    | with_reducible apply keeps_ite
    | with_reducible apply keeps_ite1

theorem refuseClaim_keeps {b₀ : State} {s : State} {c : WCtx} {session req : Nat} {ds : List Nat} (hb₀ : Keeps b₀ s) : Keeps b₀ (refuseClaim s c session req ds) := by
  unfold refuseClaim
  repeat' first
    | with_reducible assumption
    | with_reducible apply bump_keeps
    | with_reducible apply emit_keeps
    | with_reducible apply foldN_keeps
    | (intro x a hx; try beta_reduce)
    | with_reducible refine keeps_refusals ?_ (length_lastN _ _)

end Sys2Proof.Machine
end

