-- ==== Sys2Proof/Laws/KeepsClocks.lean ====
section
/-!
SUPPORT. Each operation of Machine/Clocks.lean keeps the queue and the invariant.
-/

namespace Sys2Proof.Machine

theorem islandApply_keeps {b₀ : State} {s : State} {i sub v : Nat} (hb₀ : Keeps b₀ s) : Keeps b₀ (islandApply s i sub v) := by
  unfold islandApply
  repeat' first
    | with_reducible assumption
    | with_reducible apply writeN_keeps
    | with_reducible apply draw_keeps
    | (extract_lets +onlyGivenNames x; clear_value x; revert x; intro _)
    | fail_if_no_progress (with_reducible apply keeps_mk)
    | with_reducible apply keeps_ite

theorem lockTime_keeps {b₀ : State} {s : State} {master : Nat} (hb₀ : Keeps b₀ s) : Keeps b₀ (lockTime s master) := by
  unfold lockTime
  repeat' first
    | with_reducible assumption
    | fail_if_no_progress (with_reducible apply keeps_mk)
    | with_reducible apply keeps_ite

theorem execTimeUpdate_keeps {b₀ : State} {master : BitVec 64} {s : State} (hb₀ : Keeps b₀ s) : Ends b₀ (execTimeUpdate master s) := by
  unfold execTimeUpdate
  repeat' first
    | with_reducible assumption
    | with_reducible apply lockTime_keeps
    | with_reducible apply ends_next
    | with_reducible apply ends_fault
    | with_reducible apply foldN_keeps
    | (intro x a hx; try beta_reduce)
    | fail_if_no_progress (with_reducible apply keeps_mk)

end Sys2Proof.Machine
end

