-- ==== Sys2Proof/Laws/KeepsFences.lean ====
section
/-!
SUPPORT. Each operation of Machine/Fences.lean keeps the queue and the invariant.
-/

namespace Sys2Proof.Machine

theorem failWait_keeps {b₀ : State} {s : State} {h cause : Nat} (hb₀ : Keeps b₀ s) : Keeps b₀ (failWait s h cause) := by
  unfold failWait
  repeat' first
    | with_reducible assumption
    | with_reducible apply modRing_keeps
    | with_reducible apply completeR_keeps
    | fail_if_no_progress (with_reducible apply keeps_mk)
    | with_reducible apply keeps_ite
    | split

theorem satisfyWaits_keeps {b₀ : State} {s : State} {slot : Nat} (hb₀ : Keeps b₀ s) : Keeps b₀ (satisfyWaits s slot) := by
  unfold satisfyWaits
  repeat' first
    | with_reducible assumption
    | with_reducible apply modRing_keeps
    | with_reducible apply completeR_keeps
    | with_reducible apply foldN_keeps
    | (intro x a hx; try beta_reduce)
    | fail_if_no_progress (with_reducible apply keeps_mk)
    | with_reducible apply keeps_ite
    | split

theorem signalFence_keeps {b₀ : State} {s : State} {slot v : Nat} (hb₀ : Keeps b₀ s) : Keeps b₀ (signalFence s slot v) := by
  unfold signalFence
  repeat' first
    | with_reducible assumption
    | with_reducible apply writeN_keeps
    | with_reducible apply raiseClass_keeps
    | with_reducible apply satisfyWaits_keeps
    | with_reducible apply foldN_keeps
    | (intro x a hx; try beta_reduce)

theorem abandonFence_keeps {b₀ : State} {s : State} {slot : Nat} (hb₀ : Keeps b₀ s) : Keeps b₀ (abandonFence s slot) := by
  unfold abandonFence
  repeat' first
    | with_reducible assumption
    | with_reducible apply putN_keeps
    | with_reducible apply failWait_keeps
    | with_reducible apply foldN_keeps
    | (intro x a hx; try beta_reduce)

theorem claimFence_keeps {b₀ : State} {s : State} {slot : Nat} (hb₀ : Keeps b₀ s) : Keeps b₀ (claimFence s slot) := by
  unfold claimFence
  repeat' first
    | with_reducible assumption
    | with_reducible apply putN_keeps
    | with_reducible apply writeN_keeps
    | fail_if_no_progress (with_reducible apply keeps_mk)

theorem freeFence_keeps {b₀ : State} {s : State} {slot : Nat} (hb₀ : Keeps b₀ s) : Keeps b₀ (freeFence s slot) := by
  unfold freeFence
  repeat' first
    | with_reducible assumption
    | with_reducible apply putN_keeps

theorem fenceApply_keeps {b₀ : State} {s : State} {i sub v : Nat} (hb₀ : Keeps b₀ s) : Keeps b₀ (fenceApply s i sub v) := by
  unfold fenceApply
  repeat' first
    | with_reducible assumption
    | with_reducible apply writeN_keeps
    | with_reducible apply signalFence_keeps
    | with_reducible apply abandonFence_keeps
    | with_reducible apply claimFence_keeps
    | with_reducible apply freeFence_keeps
    | (extract_lets +onlyGivenNames x; refine keeps_step (r := b₀) (x := x) ?_ (fun hx => ?_); subst x; rotate_left; clear_value x; revert x; intro _ _)
    | (extract_lets +onlyGivenNames x; clear_value x; revert x; intro _)
    | fail_if_no_progress (with_reducible apply keeps_mk)
    | with_reducible apply keeps_ite

theorem doSignal_keeps {b₀ : State} {s : State} {t : Ticket} {handle v : Nat} (hb₀ : Keeps b₀ s) : Keeps b₀ (doSignal s t handle v) := by
  unfold doSignal
  repeat' first
    | with_reducible assumption
    | with_reducible apply completeR_keeps
    | with_reducible apply signalFence_keeps
    | (extract_lets +onlyGivenNames x; refine keeps_step (r := b₀) (x := x) ?_ (fun hx => ?_); subst x; rotate_left; clear_value x; revert x; intro _ _)
    | fail_if_no_progress (with_reducible apply keeps_mk)
    | with_reducible apply keeps_ite
    | split

theorem runSignals_keeps {b₀ : State} {n : Nat} {s : State} (hb₀ : Keeps b₀ s) : Keeps b₀ (runSignals n s) := by
  induction n generalizing s with
  | zero => exact hb₀
  | succ n ih =>
    unfold runSignals
    split
    · exact hb₀
    · exact ih (doSignal_keeps (keeps_mk hb₀))

theorem execFenceSignal_keeps {b₀ : State} {h : CmdHdr} {fence : BitVec 32} {value : BitVec 64} {s : State} (hb₀ : Keeps b₀ s) : Ends b₀ (execFenceSignal h fence value s) := by
  unfold execFenceSignal
  repeat' first
    | with_reducible assumption
    | with_reducible apply beginCmd_keeps
    | with_reducible apply doSignal_keeps
    | with_reducible apply ends_next
    | with_reducible apply ends_fault
    | with_reducible refine keeps_fst (by with_reducible assumption) ?_
    | fail_if_no_progress (with_reducible apply keeps_mk)
    | with_reducible apply keeps_ite
    | with_reducible apply ends_ite
    | split

theorem waitFails_keeps {b₀ : State} {s : State} {t : Ticket} {cause : Nat} (hb₀ : Keeps b₀ s) : Keeps b₀ (waitFails s t cause) := by
  unfold waitFails
  repeat' first
    | with_reducible assumption
    | with_reducible apply modRing_keeps
    | with_reducible apply completeR_keeps

theorem execFenceWait_keeps {b₀ : State} {h : CmdHdr} {fence timeout : BitVec 32} {value : BitVec 64} {s : State} (hb₀ : Keeps b₀ s) : Ends b₀ (execFenceWait h fence timeout value s) := by
  unfold execFenceWait
  repeat' first
    | with_reducible assumption
    | with_reducible apply draw_keeps
    | with_reducible apply modRing_keeps
    | with_reducible apply completeR_keeps
    | with_reducible apply beginCmd_keeps
    | with_reducible apply waitFails_keeps
    | with_reducible apply ends_next
    | with_reducible apply ends_fault
    | (extract_lets +onlyGivenNames x; refine keeps_step (r := b₀) (x := x) ?_ (fun hx => ?_); subst x; rotate_left; clear_value x; revert x; intro _ _)
    | (extract_lets +onlyGivenNames x; clear_value x; revert x; intro _)
    | with_reducible refine keeps_fst (by with_reducible assumption) ?_
    | fail_if_no_progress (with_reducible apply keeps_mk)
    | with_reducible apply keeps_ite
    | with_reducible apply ends_ite
    | split

theorem execFenceWaitTimeout_keeps {b₀ : State} {ring : Fin 256} {s : State} (hb₀ : Keeps b₀ s) : Ends b₀ (execFenceWaitTimeout ring s) := by
  unfold execFenceWaitTimeout
  repeat' first
    | with_reducible assumption
    | with_reducible apply failWait_keeps
    | with_reducible apply ends_next
    | with_reducible apply ends_fault
    | fail_if_no_progress (with_reducible apply keeps_mk)
    | with_reducible apply keeps_ite
    | with_reducible apply ends_ite
    | split

end Sys2Proof.Machine
end

