-- ==== Sys2Proof/Laws/KeepsGrog.lean ====
section
/-!
SUPPORT. Each operation of Machine/Grog.lean keeps the queue and the invariant.
-/

namespace Sys2Proof.Machine

theorem setUnit_keeps {b₀ : State} {s : State} {c u st : Nat} (hb₀ : Keeps b₀ s) : Keeps b₀ (setUnit s c u st) := by
  unfold setUnit
  repeat' first
    | with_reducible assumption
    | with_reducible apply modGrog_keeps
    | (intro x hx; try beta_reduce)

theorem updateHealth_keeps {b₀ : State} {s : State} (hb₀ : Keeps b₀ s) : Keeps b₀ (updateHealth s) := by
  unfold updateHealth
  repeat' first
    | with_reducible assumption
    | with_reducible apply putN_keeps
    | with_reducible apply emitSb_keeps
    | with_reducible apply foldN_keeps
    | with_reducible apply foldl_keeps
    | with_reducible apply foldl_keeps1
    | (intro x a hx; try beta_reduce)
    | (extract_lets +onlyGivenNames x; refine keeps_step (r := b₀) (x := x) ?_ (fun hx => ?_); subst x; rotate_left; clear_value x; revert x; intro _ _)
    | (extract_lets +onlyGivenNames x; clear_value x; revert x; intro _)
    | fail_if_no_progress (with_reducible apply keeps_mk)
    | with_reducible apply keeps_ite

theorem grogEvent_keeps {b₀ : State} {s : State} {cls kind unit spare : Nat} {low : Bool} (hb₀ : Keeps b₀ s) : Keeps b₀ (grogEvent s cls kind unit spare low) := by
  unfold grogEvent
  repeat' first
    | with_reducible assumption
    | with_reducible apply emit_keeps
    | with_reducible apply emitSb_keeps
    | (extract_lets +onlyGivenNames x; refine keeps_step (r := b₀) (x := x) ?_ (fun hx => ?_); subst x; rotate_left; clear_value x; revert x; intro _ _)
    | fail_if_no_progress (with_reducible apply keeps_mk)
    | with_reducible apply keeps_ite

theorem advanceLogGen_keeps {b₀ : State} {s : State} {cls u : Nat} (hb₀ : Keeps b₀ s) : Keeps b₀ (advanceLogGen s cls u).1 := by
  unfold advanceLogGen
  repeat' first
    | with_reducible assumption
    | with_reducible apply modGrog_keeps
    | (intro x hx; try beta_reduce)

theorem advanceGen_keeps {b₀ : State} {s : State} {cls u : Nat} (hb₀ : Keeps b₀ s) : Keeps b₀ (advanceGen s cls u).1 := by
  unfold advanceGen
  repeat' first
    | with_reducible assumption
    | with_reducible apply putN_keeps
    | with_reducible apply advanceLogGen_keeps
    | (extract_lets +onlyGivenNames x; clear_value x; revert x; intro _)
    | fail_if_no_progress (with_reducible apply keeps_mk)
    | with_reducible apply keeps_ite
    | with_reducible apply keeps_ite1

theorem substitute_keeps {b₀ : State} {s : State} {cls unit spare cause gen : Nat} (hb₀ : Keeps b₀ s) : Keeps b₀ (substitute s cls unit spare cause gen) := by
  unfold substitute
  repeat' first
    | with_reducible assumption
    | with_reducible apply modGrog_keeps
    | with_reducible apply grogLog_keeps
    | with_reducible apply setUnit_keeps
    | with_reducible apply updateHealth_keeps
    | with_reducible apply grogEvent_keeps
    | (intro x hx; try beta_reduce)

theorem retireUnit_keeps {b₀ : State} {s : State} {cls unit cause : Nat} (hb₀ : Keeps b₀ s) : Keeps b₀ (retireUnit s cls unit cause) := by
  unfold retireUnit
  repeat' first
    | with_reducible assumption
    | with_reducible apply grogLog_keeps
    | with_reducible apply setUnit_keeps
    | with_reducible apply updateHealth_keeps
    | with_reducible apply grogEvent_keeps

theorem failSpare_keeps {b₀ : State} {s : State} {cls spare cause : Nat} (hb₀ : Keeps b₀ s) : Keeps b₀ (failSpare s cls spare cause) := by
  unfold failSpare
  repeat' first
    | with_reducible assumption
    | with_reducible apply putN_keeps
    | with_reducible apply grogLog_keeps
    | with_reducible apply setUnit_keeps
    | with_reducible apply updateHealth_keeps
    | with_reducible apply grogEvent_keeps
    | fail_if_no_progress (with_reducible apply keeps_mk)
    | with_reducible apply keeps_ite

theorem trySpares_keeps {b₀ : State} {s : State} {cls cause : Nat} {passes : Nat → Bool} {l : List Nat} (hb₀ : Keeps b₀ s) :
    Keeps b₀ (trySpares s cls cause passes l).1 := by
  induction l generalizing s with
  | nil => exact hb₀
  | cons u l ih =>
    unfold trySpares
    split
    · exact hb₀
    · exact ih (failSpare_keeps hb₀)

/-- Counting a row's write leaves the log. -/
@[simp] theorem Grog.countRow_log (g : Grog) (l n : Nat) : (g.countRow l n).log = g.log := rfl

theorem spareRow_keeps {b₀ : State} {s : State} {q : Nat} (hb₀ : Keeps b₀ s) : Keeps b₀ (spareRow s q) := by
  unfold spareRow
  repeat' first
    | with_reducible assumption
    | with_reducible apply modGrog_keeps
    | with_reducible apply grogLog_keeps
    | with_reducible apply updateHealth_keeps
    | with_reducible apply grogEvent_keeps
    | (intro x hx; try beta_reduce)

theorem mramWriteRow_keeps {b₀ : State} {s : State} {bank row bad : Nat} (hb₀ : Keeps b₀ s) : Keeps b₀ (mramWriteRow s bank row bad) := by
  unfold mramWriteRow
  repeat' first
    | with_reducible assumption
    | (simp only [Grog.countRow_log]; assumption)
    | with_reducible apply modGrog_keeps
    | with_reducible apply spareRow_keeps
    | (intro x hx; try beta_reduce)
    | (extract_lets +onlyGivenNames x; refine keeps_step (r := b₀) (x := x) ?_ (fun hx => ?_); subst x; rotate_left; clear_value x; revert x; intro _ _)
    | (extract_lets +onlyGivenNames x; clear_value x; revert x; intro _)
    | fail_if_no_progress (with_reducible apply keeps_mk)
    | with_reducible apply keeps_ite

end Sys2Proof.Machine
end

