-- ==== Sys2Proof/Laws/KeepsMemory.lean ====
section
/-!
SUPPORT. Each operation of Machine/Memory.lean keeps the queue and the invariant.
-/

namespace Sys2Proof.Machine

theorem storeWord_keeps {b₀ : State} {s : State} {rank word w : Nat} (hb₀ : Keeps b₀ s) : Keeps b₀ (storeWord s rank word w) :=
  keeps_dram hb₀ (memSetAll_wf _ _)

theorem touchRank_keeps {b₀ : State} {s : State} {r : Nat} (hb₀ : Keeps b₀ s) : Keeps b₀ (touchRank s r) := by
  unfold touchRank
  repeat' first
    | with_reducible assumption
    | with_reducible apply putN_keeps
    | with_reducible apply draw_keeps
    | with_reducible apply modMem_keeps
    | (intro x hx; try beta_reduce)
    | fail_if_no_progress (with_reducible apply keeps_mk)
    | with_reducible apply keeps_ite

theorem memLogEntry_keeps {b₀ : State} {s : State} {kind rank bankWord row col sym val synd source cause other gen : Nat} (hb₀ : Keeps b₀ s) : Keeps b₀ (memLogEntry s kind rank bankWord row col sym val synd source cause other gen) := by
  unfold memLogEntry
  repeat' first
    | with_reducible assumption
    | with_reducible apply putN_keeps
    | with_reducible apply grogLog_keeps
    | with_reducible apply modMem_keeps
    | (intro x hx; try beta_reduce)
    | (extract_lets +onlyGivenNames x; refine keeps_step (r := b₀) (x := x) ?_ (fun hx => ?_); subst x; rotate_left; clear_value x; revert x; intro _ _)
    | (extract_lets +onlyGivenNames x; clear_value x; revert x; intro _)
    | fail_if_no_progress (with_reducible apply keeps_mk)
    | with_reducible apply keeps_ite
    | split
    | (dsimp only; exact length_lastN _ _)

theorem logWord_keeps {b₀ : State} {s : State} {kind rank word sym val synd source cause : Nat} (hb₀ : Keeps b₀ s) : Keeps b₀ (logWord s kind rank word sym val synd source cause) := by
  unfold logWord
  repeat' first
    | with_reducible assumption
    | with_reducible apply memLogEntry_keeps

theorem logStep_keeps {b₀ : State} {s : State} {kind rank other cause gen : Nat} (hb₀ : Keeps b₀ s) : Keeps b₀ (logStep s kind rank other cause gen) := by
  unfold logStep
  repeat' first
    | with_reducible assumption
    | with_reducible apply memLogEntry_keeps

theorem degradeRank_keeps {b₀ : State} {s : State} {r cause : Nat} (hb₀ : Keeps b₀ s) : Keeps b₀ (degradeRank s r cause) := by
  unfold degradeRank
  repeat' first
    | with_reducible assumption
    | with_reducible apply putN_keeps
    | with_reducible apply raiseClass_keeps
    | with_reducible apply emit_keeps
    | with_reducible apply updateHealth_keeps
    | with_reducible apply logStep_keeps

theorem spareRankFailed_keeps {b₀ : State} {s : State} {r cause : Nat} (hb₀ : Keeps b₀ s) : Keeps b₀ (spareRankFailed s r cause) := by
  unfold spareRankFailed
  repeat' first
    | with_reducible assumption
    | with_reducible apply putN_keeps
    | with_reducible apply raiseClass_keeps
    | with_reducible apply emit_keeps
    | with_reducible apply failSpare_keeps
    | with_reducible apply logStep_keeps

theorem testRank_keeps {b₀ : State} {s : State} {r : Nat} (hb₀ : Keeps b₀ s) : Keeps b₀ (testRank s r) := by
  unfold testRank
  repeat' first
    | with_reducible assumption
    | with_reducible apply putN_keeps

theorem takeSpare_keeps {b₀ : State} {s : State} {m : Migration} (hb₀ : Keeps b₀ s) : Keeps b₀ (takeSpare s m) := by
  unfold takeSpare
  repeat' first
    | with_reducible assumption
    | with_reducible apply putN_keeps
    | with_reducible apply degradeRank_keeps
    | with_reducible apply askDomain_keeps
    | with_reducible apply settle_keeps
    | with_reducible apply modMem_keeps
    | with_reducible apply testRank_keeps
    | (intro x hx; try beta_reduce)
    | fail_if_no_progress (with_reducible apply keeps_mk)
    | with_reducible apply keeps_ite

theorem restartMigration_keeps {b₀ : State} {s : State} {g : Nat} (hb₀ : Keeps b₀ s) : Keeps b₀ (restartMigration s g) := by
  unfold restartMigration
  repeat' first
    | with_reducible assumption
    | with_reducible apply putN_keeps
    | with_reducible apply modMem_keeps
    | (intro x hx; try beta_reduce)
    | with_reducible apply keeps_ite
    | split

theorem beginRetire_keeps {b₀ : State} {s : State} {r spare cause : Nat} (hb₀ : Keeps b₀ s) : Keeps b₀ (beginRetire s r spare cause) := by
  unfold beginRetire
  repeat' first
    | with_reducible assumption
    | with_reducible apply putN_keeps
    | with_reducible apply emit_keeps
    | with_reducible apply logStep_keeps
    | with_reducible apply takeSpare_keeps
    | (extract_lets +onlyGivenNames x; clear_value x; revert x; intro _)
    | fail_if_no_progress (with_reducible apply keeps_mk)
    | with_reducible apply keeps_ite
    | split

theorem retireRank_keeps {b₀ : State} {s : State} {r cause : Nat} (hb₀ : Keeps b₀ s) : Keeps b₀ (retireRank s r cause) := by
  unfold retireRank
  repeat' first
    | with_reducible assumption
    | with_reducible apply putN_keeps
    | with_reducible apply modMem_keeps
    | with_reducible apply degradeRank_keeps
    | with_reducible apply beginRetire_keeps
    | (intro x hx; try beta_reduce)
    | (extract_lets +onlyGivenNames x; clear_value x; revert x; intro _)
    | fail_if_no_progress (with_reducible apply keeps_mk)
    | with_reducible apply keeps_ite
    | split

theorem nextDue_keeps {b₀ : State} {s : State} (hb₀ : Keeps b₀ s) : Keeps b₀ (nextDue s) := by
  unfold nextDue
  repeat' first
    | with_reducible assumption
    | with_reducible apply settle_keeps
    | with_reducible apply modMem_keeps
    | with_reducible apply degradeRank_keeps
    | with_reducible apply beginRetire_keeps
    | (intro x hx; try beta_reduce)
    | (extract_lets +onlyGivenNames x; refine keeps_step (r := b₀) (x := x) ?_ (fun hx => ?_); subst x; rotate_left; clear_value x; revert x; intro _ _)
    | with_reducible refine keeps_fst (by with_reducible assumption) ?_
    | fail_if_no_progress (with_reducible apply keeps_mk)
    | with_reducible apply keeps_ite
    | split

theorem migrationSpareFailed_keeps {b₀ : State} {s : State} {m : Migration} {cause : Nat} (hb₀ : Keeps b₀ s) : Keeps b₀ (migrationSpareFailed s m cause) := by
  unfold migrationSpareFailed
  repeat' first
    | with_reducible assumption
    | with_reducible apply modMem_keeps
    | with_reducible apply degradeRank_keeps
    | with_reducible apply spareRankFailed_keeps
    | with_reducible apply takeSpare_keeps
    | with_reducible apply nextDue_keeps
    | (intro x hx; try beta_reduce)
    | (extract_lets +onlyGivenNames x; refine keeps_step (r := b₀) (x := x) ?_ (fun hx => ?_); subst x; rotate_left; clear_value x; revert x; intro _ _)
    | fail_if_no_progress (with_reducible apply keeps_mk)
    | with_reducible apply keeps_ite
    | split

theorem resumeMigration_keeps {b₀ : State} {s : State} {g : Nat} {m : Migration} {failed : Bool} (hb₀ : Keeps b₀ s) : Keeps b₀ (resumeMigration s g m failed) := by
  unfold resumeMigration
  repeat' first
    | with_reducible assumption
    | with_reducible apply migrationSpareFailed_keeps
    | with_reducible apply takeSpare_keeps
    | with_reducible apply keeps_ite

theorem countPin_keeps {b₀ : State} {s : State} {g pin : Nat} (hb₀ : Keeps b₀ s) : Keeps b₀ (countPin s g pin) := by
  unfold countPin
  repeat' first
    | with_reducible assumption
    | with_reducible apply putV_keeps

theorem lastingCorrection_keeps {b₀ : State} {s : State} {r word i e synd source : Nat} (hb₀ : Keeps b₀ s) : Keeps b₀ (lastingCorrection s r word i e synd source) := by
  unfold lastingCorrection
  repeat' first
    | with_reducible assumption
    | with_reducible apply putN_keeps
    | with_reducible apply bump_keeps
    | with_reducible apply modMem_keeps
    | with_reducible apply logWord_keeps
    | with_reducible apply retireRank_keeps
    | with_reducible apply countPin_keeps
    | (intro x hx; try beta_reduce)
    | (extract_lets +onlyGivenNames x; refine keeps_step (r := b₀) (x := x) ?_ (fun hx => ?_); subst x; rotate_left; clear_value x; revert x; intro _ _)
    | (extract_lets +onlyGivenNames x; clear_value x; revert x; intro _)
    | fail_if_no_progress (with_reducible apply keeps_mk)
    | with_reducible apply keeps_ite

theorem transientCorrection_keeps {b₀ : State} {s : State} {r word i e synd source : Nat} (hb₀ : Keeps b₀ s) : Keeps b₀ (transientCorrection s r word i e synd source) := by
  unfold transientCorrection
  repeat' first
    | with_reducible assumption
    | with_reducible apply bump_keeps
    | with_reducible apply modMem_keeps
    | with_reducible apply logWord_keeps
    | (intro x hx; try beta_reduce)
    | (extract_lets +onlyGivenNames x; refine keeps_step (r := b₀) (x := x) ?_ (fun hx => ?_); subst x; rotate_left; clear_value x; revert x; intro _ _)
    | fail_if_no_progress (with_reducible apply keeps_mk)
    | with_reducible apply keeps_ite

theorem lastingError_keeps {b₀ : State} {s : State} {r word synd source : Nat} (hb₀ : Keeps b₀ s) : Keeps b₀ (lastingError s r word synd source) := by
  unfold lastingError
  repeat' first
    | with_reducible assumption
    | with_reducible apply bump_keeps
    | with_reducible apply emit_keeps
    | with_reducible apply storeWord_keeps
    | with_reducible apply modMem_keeps
    | with_reducible apply logWord_keeps
    | with_reducible apply retireRank_keeps
    | with_reducible apply migrationSpareFailed_keeps
    | with_reducible apply poisonAt_keeps
    | (intro x hx; try beta_reduce)
    | (extract_lets +onlyGivenNames x; refine keeps_step (r := b₀) (x := x) ?_ (fun hx => ?_); subst x; rotate_left; clear_value x; revert x; intro _ _)
    | (extract_lets +onlyGivenNames x; clear_value x; revert x; intro _)
    | fail_if_no_progress (with_reducible apply keeps_mk)
    | with_reducible apply keeps_ite
    | split

theorem correctWord_keeps {b₀ : State} {s : State} {inj : Bool} {r word n2 src w i e : Nat} (hb₀ : Keeps b₀ s) : Keeps b₀ (correctWord s inj r word n2 src w i e).1 := by
  unfold correctWord
  repeat' first
    | with_reducible assumption
    | with_reducible apply storeWord_keeps
    | with_reducible apply lastingCorrection_keeps
    | with_reducible apply transientCorrection_keeps
    | (extract_lets +onlyGivenNames x; refine keeps_step (r := b₀) (x := x) ?_ (fun hx => ?_); subst x; rotate_left; clear_value x; revert x; intro _ _)
    | (extract_lets +onlyGivenNames x; clear_value x; revert x; intro _)
    | fail_if_no_progress (with_reducible apply keeps_mk)
    | with_reducible apply keeps_ite

theorem readWord_keeps {b₀ : State} {s : State} {r word n1 n2 source : Nat} (hb₀ : Keeps b₀ s) : Keeps b₀ (readWord s r word n1 n2 source).1 := by
  unfold readWord
  repeat' first
    | with_reducible assumption
    | with_reducible apply bump_keeps
    | with_reducible apply modMem_keeps
    | with_reducible apply logWord_keeps
    | with_reducible apply lastingError_keeps
    | with_reducible apply correctWord_keeps
    | (intro x hx; try beta_reduce)
    | (extract_lets +onlyGivenNames x; refine keeps_step (r := b₀) (x := x) ?_ (fun hx => ?_); subst x; rotate_left; clear_value x; revert x; intro _ _)
    | (extract_lets +onlyGivenNames x; clear_value x; revert x; intro _)
    | fail_if_no_progress (with_reducible apply keeps_mk)
    | with_reducible apply keeps_ite
    | with_reducible apply keeps_ite1
    | split

theorem writeWordIn_keeps {b₀ : State} {s : State} {r word data : Nat} (hb₀ : Keeps b₀ s) : Keeps b₀ (writeWordIn s r word data) := by
  unfold writeWordIn
  repeat' first
    | with_reducible assumption
    | with_reducible apply writeB_keeps
    | with_reducible apply storeWord_keeps
    | with_reducible apply modMem_keeps
    | (intro x hx; try beta_reduce)
    | (extract_lets +onlyGivenNames x; refine keeps_step (r := b₀) (x := x) ?_ (fun hx => ?_); subst x; rotate_left; clear_value x; revert x; intro _ _)
    | (extract_lets +onlyGivenNames x; clear_value x; revert x; intro _)
    | fail_if_no_progress (with_reducible apply keeps_mk)
    | with_reducible apply keeps_ite

theorem writeWord_keeps {b₀ : State} {s : State} {r word data : Nat} (hb₀ : Keeps b₀ s) : Keeps b₀ (writeWord s r word data) := by
  unfold writeWord
  repeat' first
    | with_reducible assumption
    | with_reducible apply writeWordIn_keeps
    | (extract_lets +onlyGivenNames x; refine keeps_step (r := b₀) (x := x) ?_ (fun hx => ?_); subst x; rotate_left; clear_value x; revert x; intro _ _)
    | fail_if_no_progress (with_reducible apply keeps_mk)
    | with_reducible apply keeps_ite
    | split

theorem fetchWord_keeps {b₀ : State} {s : State} {r word : Nat} (hb₀ : Keeps b₀ s) : Keeps b₀ (fetchWord s r word).1 := by
  unfold fetchWord
  repeat' first
    | with_reducible assumption
    | with_reducible apply readWord_keeps

theorem writeWithin_keeps {b₀ : State} {s : State} {r word lo : Nat} {b : List Byte} (hb₀ : Keeps b₀ s) : Keeps b₀ (writeWithin s r word lo b) := by
  unfold writeWithin
  repeat' first
    | with_reducible assumption
    | with_reducible apply writeWord_keeps
    | with_reducible apply fetchWord_keeps
    | with_reducible refine keeps_fst (by with_reducible assumption) ?_
    | fail_if_no_progress (with_reducible apply keeps_mk)
    | with_reducible apply keeps_ite
    | split

theorem writeBytesAt_keeps {b₀ : State} {n : Nat} {s : State} {r a : Nat} {b : List Byte} (hb₀ : Keeps b₀ s) :
    Keeps b₀ (writeBytesAt n s r a b) := by
  induction n generalizing s a b with
  | zero => exact hb₀
  | succ n ih =>
    unfold writeBytesAt
    split
    · exact hb₀
    · extract_lets
      exact ih (writeWithin_keeps hb₀)

theorem writeRank_keeps {b₀ : State} {s : State} {r a : Nat} {b : List Byte} (hb₀ : Keeps b₀ s) : Keeps b₀ (writeRank s r a b) := by
  unfold writeRank
  repeat' first
    | with_reducible assumption
    | with_reducible apply touchRank_keeps
    | with_reducible apply writeBytesAt_keeps

theorem readRank_keeps {b₀ : State} {s : State} {r a n : Nat} (hb₀ : Keeps b₀ s) : Keeps b₀ (readRank s r a n).1 := by
  unfold readRank
  refine foldl_keeps1 _ (touchRank_keeps hb₀) fun x w hx => ?_
  have := fetchWord_keeps (r := r) (word := w) hx
  split <;> rename_i h <;> rw [h] at this <;> exact this

theorem writeSurf_keeps {b₀ : State} {s : State} {i off : Nat} {b : List Byte} (hb₀ : Keeps b₀ s) : Keeps b₀ (writeSurf s i off b) := by
  unfold writeSurf
  repeat' first
    | with_reducible assumption
    | with_reducible apply writeRank_keeps

theorem readSurf_keeps {b₀ : State} {s : State} {i off n : Nat} (hb₀ : Keeps b₀ s) : Keeps b₀ (readSurf s i off n).1 := by
  unfold readSurf
  repeat' first
    | with_reducible assumption
    | with_reducible apply readRank_keeps

theorem readHandle_keeps {b₀ : State} {s : State} {handle off n : Nat} (hb₀ : Keeps b₀ s) : Keeps b₀ (readHandle s handle off n).1 := by
  unfold readHandle
  repeat' first
    | with_reducible assumption
    | with_reducible apply readRank_keeps
    | fail_if_no_progress (with_reducible apply keeps_mk)
    | with_reducible apply keeps_ite
    | with_reducible apply keeps_ite1
    | split

theorem writeHandle_keeps {b₀ : State} {s : State} {handle off : Nat} {b : List Byte} (hb₀ : Keeps b₀ s) : Keeps b₀ (writeHandle s handle off b) := by
  unfold writeHandle
  repeat' first
    | with_reducible assumption
    | with_reducible apply writeRank_keeps
    | fail_if_no_progress (with_reducible apply keeps_mk)
    | with_reducible apply keeps_ite
    | split

theorem poisonAt_keeps {b₀ : State} {s : State} {r word : Nat} (hb₀ : Keeps b₀ s) : Keeps b₀ (poisonAt s r word) := by
  unfold poisonAt
  repeat' first
    | with_reducible assumption
    | with_reducible apply storeWord_keeps
    | (extract_lets +onlyGivenNames x; refine keeps_step (r := b₀) (x := x) ?_ (fun hx => ?_); subst x; rotate_left; clear_value x; revert x; intro _ _)
    | fail_if_no_progress (with_reducible apply keeps_mk)
    | with_reducible apply keeps_ite
    | split

theorem writeCellsIn_keeps {b₀ : State} {s : State} {r word : Nat} {l : List (Nat × Option Byte)} (hb₀ : Keeps b₀ s) : Keeps b₀ (writeCellsIn s r word l) := by
  unfold writeCellsIn
  repeat' first
    | with_reducible assumption
    | with_reducible apply hf1
    | with_reducible apply hf2
    | with_reducible apply hf3
    | with_reducible apply writeWord_keeps
    | with_reducible apply fetchWord_keeps
    | with_reducible apply poisonAt_keeps
    | (extract_lets +onlyGivenNames x; clear_value x; revert x; intro _)
    | with_reducible refine keeps_fst (by with_reducible assumption) ?_
    | fail_if_no_progress (with_reducible apply keeps_mk)
    | with_reducible apply keeps_ite
    | split

theorem writeCells_keeps {b₀ : State} {s : State} {i : Nat} {l : List (Nat × Option Byte)} (hb₀ : Keeps b₀ s) : Keeps b₀ (writeCells s i l) := by
  unfold writeCells
  repeat' first
    | with_reducible assumption
    | with_reducible apply touchRank_keeps
    | with_reducible apply writeCellsIn_keeps
    | with_reducible apply foldl_keeps
    | with_reducible apply foldl_keeps1
    | (intro x a hx; try beta_reduce)

theorem readCells_keeps {b₀ : State} {s : State} {i : Nat} {offs : List Nat} (hb₀ : Keeps b₀ s) : Keeps b₀ (readCells s i offs).1 := by
  unfold readCells
  repeat' first
    | with_reducible assumption
    | with_reducible apply touchRank_keeps
    | with_reducible apply fetchWord_keeps
    | with_reducible apply foldl_keeps
    | with_reducible apply foldl_keeps1
    | (intro x a hx; try beta_reduce)
    | with_reducible refine keeps_fst (by with_reducible assumption) ?_
    | fail_if_no_progress (with_reducible apply keeps_mk)
    | with_reducible apply keeps_ite
    | with_reducible apply keeps_ite1
    | split

theorem execMemRead_keeps {b₀ : State} {rank : Fin 6} {word : Nat} {noise1 noise2 : List Byte} {scrub : Bool} {s : State} (hb₀ : Keeps b₀ s) : Ends b₀ (execMemRead rank word noise1 noise2 scrub s) := by
  unfold execMemRead
  repeat' first
    | with_reducible assumption
    | with_reducible apply modMem_keeps
    | with_reducible apply touchRank_keeps
    | with_reducible apply readWord_keeps
    | with_reducible apply take_keeps
    | with_reducible apply ends_next
    | with_reducible apply ends_fault
    | (intro x hx; try beta_reduce)
    | with_reducible refine keeps_fst (by with_reducible assumption) ?_
    | fail_if_no_progress (with_reducible apply keeps_mk)
    | with_reducible apply keeps_ite
    | with_reducible apply ends_ite

theorem execMemWrite_keeps {b₀ : State} {rank : Fin 6} {addr : Nat} {data : List Byte} {s : State} (hb₀ : Keeps b₀ s) : Ends b₀ (execMemWrite rank addr data s) := by
  unfold execMemWrite
  repeat' first
    | with_reducible assumption
    | with_reducible apply writeRank_keeps
    | with_reducible apply ends_next
    | with_reducible apply ends_fault
    | fail_if_no_progress (with_reducible apply keeps_mk)
    | with_reducible apply keeps_ite
    | with_reducible apply ends_ite

theorem execCeBucketExpiry_keeps {b₀ : State} {s : State} (hb₀ : Keeps b₀ s) : Ends b₀ (execCeBucketExpiry s) := by
  unfold execCeBucketExpiry
  repeat' first
    | with_reducible assumption
    | with_reducible apply putN_keeps
    | with_reducible apply modMem_keeps
    | with_reducible apply take_keeps
    | with_reducible apply ends_next
    | with_reducible apply ends_fault
    | with_reducible apply foldN_keeps
    | (intro x a hx; try beta_reduce)
    | (intro x hx; try beta_reduce)
    | (extract_lets +onlyGivenNames x; refine keeps_step (r := b₀) (x := x) ?_ (fun hx => ?_); subst x; rotate_left; clear_value x; revert x; intro _ _)
    | fail_if_no_progress (with_reducible apply keeps_mk)
    | with_reducible apply keeps_ite
    | with_reducible apply ends_ite

theorem zeroRank_keeps {b₀ : State} {s : State} {r : Nat} (hb₀ : Keeps b₀ s) : Keeps b₀ (zeroRank s r) :=
  keeps_dram hb₀ (memZero_wf _ _)

theorem retireGroup_keeps {b₀ : State} {s : State} {g : Nat} (hb₀ : Keeps b₀ s) : Keeps b₀ (retireGroup s g) := by
  unfold retireGroup
  repeat' first
    | with_reducible assumption
    | with_reducible apply putN_keeps
    | with_reducible apply emit_keeps
    | with_reducible apply substitute_keeps
    | with_reducible apply logStep_keeps
    | with_reducible apply degradeRank_keeps
    | with_reducible apply zeroRank_keeps
    | with_reducible apply foldN_keeps
    | with_reducible apply foldl_keeps
    | with_reducible apply foldl_keeps1
    | (intro x a hx; try beta_reduce)
    | (extract_lets +onlyGivenNames x; clear_value x; revert x; intro _)
    | fail_if_no_progress (with_reducible apply keeps_mk)
    | with_reducible apply keeps_ite

theorem execGroupTrainingDone_keeps {b₀ : State} {g : Fin 3} {badPins : List (Fin 144)} {caBad : Bool} {s : State} (hb₀ : Keeps b₀ s) : Ends b₀ (execGroupTrainingDone g badPins caBad s) := by
  unfold execGroupTrainingDone
  repeat' first
    | with_reducible assumption
    | with_reducible apply putV_keeps
    | with_reducible apply putN_keeps
    | with_reducible apply settle_keeps
    | with_reducible apply modMem_keeps
    | with_reducible apply memLogEntry_keeps
    | with_reducible apply testRank_keeps
    | with_reducible apply resumeMigration_keeps
    | with_reducible apply zeroRank_keeps
    | with_reducible apply retireGroup_keeps
    | with_reducible apply ends_next
    | with_reducible apply ends_fault
    | with_reducible apply foldN_keeps
    | (extract_lets +onlyGivenNames x; refine keeps_step (r := b₀) (x := x) ?_ (fun hx => ?_); subst x; rotate_left; clear_value x; revert x; intro _ _)
    | (extract_lets +onlyGivenNames x; clear_value x; revert x; intro _)
    | (extract_lets +onlyGivenNames x; subst x)
    | fail_if_no_progress (with_reducible apply keeps_mk)
    | with_reducible apply keeps_ite
    | with_reducible apply ends_ite
    | split

theorem execSparePatternTestDone_keeps {b₀ : State} {rank : Fin 6} {ok : Bool} {s : State} (hb₀ : Keeps b₀ s) : Ends b₀ (execSparePatternTestDone rank ok s) := by
  unfold execSparePatternTestDone
  repeat' first
    | with_reducible assumption
    | with_reducible apply putN_keeps
    | with_reducible apply settle_keeps
    | with_reducible apply modMem_keeps
    | with_reducible apply spareRankFailed_keeps
    | with_reducible apply migrationSpareFailed_keeps
    | with_reducible apply zeroRank_keeps
    | with_reducible apply ends_next
    | with_reducible apply ends_fault
    | (intro x hx; try beta_reduce)
    | (extract_lets +onlyGivenNames x; refine keeps_step (r := b₀) (x := x) ?_ (fun hx => ?_); subst x; rotate_left; clear_value x; revert x; intro _ _)
    | (extract_lets +onlyGivenNames x; clear_value x; revert x; intro _)
    | fail_if_no_progress (with_reducible apply keeps_mk)
    | with_reducible apply keeps_ite
    | with_reducible apply ends_ite
    | split

theorem handOver_keeps {b₀ : State} {m : Migration} {x : State × Nat} {word : Nat} (hb₀ : Keeps b₀ x.1) : Keeps b₀ (handOver m x word).1 := by
  unfold handOver
  repeat' first
    | with_reducible assumption
    | with_reducible apply storeWord_keeps
    | with_reducible apply readWord_keeps
    | with_reducible refine keeps_fst (by with_reducible assumption) ?_
    | fail_if_no_progress (with_reducible apply keeps_mk)
    | with_reducible apply keeps_ite
    | with_reducible apply keeps_ite1
    | split

theorem copyBlocks_keeps {b₀ : State} {s : State} {m : Migration} {upto : Nat} (hb₀ : Keeps b₀ s) : Keeps b₀ (copyBlocks s m upto).1 := by
  unfold copyBlocks
  extract_lets lo hi ws cleared
  exact foldl_keeps1 _ (keeps_dram (m := memZero s.dram (dramKey m.spare lo 0) (dramKey m.spare hi 0 - dramKey m.spare lo 0)) hb₀ (memZero_wf _ _))
    fun x w hx => handOver_keeps hx

theorem copyTick_keeps {b₀ : State} {s : State} (hb₀ : Keeps b₀ s) : Keeps b₀ (copyTick s) := by
  unfold copyTick
  repeat' first
    | with_reducible assumption
    | with_reducible apply putN_keeps
    | with_reducible apply modMem_keeps
    | with_reducible apply copyBlocks_keeps
    | (intro x hx; try beta_reduce)
    | with_reducible refine keeps_fst (by with_reducible assumption) ?_
    | fail_if_no_progress (with_reducible apply keeps_mk)
    | with_reducible apply keeps_ite
    | split

theorem execMigrationDone_keeps {b₀ : State} {rank : Fin 6} {s : State} (hb₀ : Keeps b₀ s) : Ends b₀ (execMigrationDone rank s) := by
  unfold execMigrationDone
  repeat' first
    | with_reducible assumption
    | with_reducible apply putN_keeps
    | with_reducible apply emit_keeps
    | with_reducible apply substitute_keeps
    | with_reducible apply modMem_keeps
    | with_reducible apply logStep_keeps
    | with_reducible apply nextDue_keeps
    | with_reducible apply zeroRank_keeps
    | with_reducible apply copyBlocks_keeps
    | with_reducible apply ends_next
    | with_reducible apply ends_fault
    | (intro x hx; try beta_reduce)
    | with_reducible refine keeps_fst (by with_reducible assumption) ?_
    | fail_if_no_progress (with_reducible apply keeps_mk)
    | with_reducible apply keeps_ite
    | with_reducible apply ends_ite
    | split

theorem execDqsOscCheck_keeps {b₀ : State} {g : Fin 3} {driftTenthPct : Nat} {fails : Nat} {temp : BitVec 32} {s : State} (hb₀ : Keeps b₀ s) : Ends b₀ (execDqsOscCheck g driftTenthPct fails temp s) := by
  unfold execDqsOscCheck
  repeat' first
    | with_reducible assumption
    | with_reducible apply putN_keeps
    | with_reducible apply bump_keeps
    | with_reducible apply ends_next
    | with_reducible apply ends_fault
    | (extract_lets +onlyGivenNames x; refine keeps_step (r := b₀) (x := x) ?_ (fun hx => ?_); subst x; rotate_left; clear_value x; revert x; intro _ _)
    | fail_if_no_progress (with_reducible apply keeps_mk)
    | with_reducible apply keeps_ite
    | with_reducible apply ends_ite

theorem execScrubBurst_keeps {b₀ : State} {g : Fin 3} {start words : Nat} {s : State} (hb₀ : Keeps b₀ s) : Ends b₀ (execScrubBurst g start words s) := by
  unfold execScrubBurst
  repeat' first
    | with_reducible assumption
    | with_reducible apply putN_keeps
    | with_reducible apply modMem_keeps
    | with_reducible apply touchRank_keeps
    | with_reducible apply readWord_keeps
    | with_reducible apply ends_next
    | with_reducible apply ends_fault
    | with_reducible apply foldN_keeps
    | with_reducible apply foldl_keeps
    | with_reducible apply foldl_keeps1
    | (intro x a hx; try beta_reduce)
    | (intro x hx; try beta_reduce)
    | (extract_lets +onlyGivenNames x; refine keeps_step (r := b₀) (x := x) ?_ (fun hx => ?_); subst x; rotate_left; clear_value x; revert x; intro _ _)
    | (extract_lets +onlyGivenNames x; clear_value x; revert x; intro _)
    | (extract_lets +onlyGivenNames x; subst x)
    | fail_if_no_progress (with_reducible apply keeps_mk)
    | with_reducible apply keeps_ite
    | with_reducible apply ends_ite

theorem execRefresh_keeps {b₀ : State} {rank : Fin 6} {s : State} (hb₀ : Keeps b₀ s) : Ends b₀ (execRefresh rank s) := by
  unfold execRefresh
  repeat' first
    | with_reducible assumption
    | with_reducible apply modMem_keeps
    | with_reducible apply ends_next
    | with_reducible apply ends_fault
    | (intro x hx; try beta_reduce)
    | fail_if_no_progress (with_reducible apply keeps_mk)
    | with_reducible apply keeps_ite
    | with_reducible apply ends_ite

theorem execRankPowerDown_keeps {b₀ : State} {rank : Fin 6} {s : State} (hb₀ : Keeps b₀ s) : Ends b₀ (execRankPowerDown rank s) := by
  unfold execRankPowerDown
  repeat' first
    | with_reducible assumption
    | with_reducible apply modMem_keeps
    | with_reducible apply ends_next
    | with_reducible apply ends_fault
    | (intro x hx; try beta_reduce)
    | fail_if_no_progress (with_reducible apply keeps_mk)
    | with_reducible apply keeps_ite
    | with_reducible apply ends_ite

theorem execSelfRefreshEntry_keeps {b₀ : State} {g : Fin 3} {s : State} (hb₀ : Keeps b₀ s) : Ends b₀ (execSelfRefreshEntry g s) := by
  unfold execSelfRefreshEntry
  repeat' first
    | with_reducible assumption
    | with_reducible apply hf1
    | with_reducible apply hf2
    | with_reducible apply hf3
    | with_reducible apply putN_keeps
    | with_reducible apply bump_keeps
    | with_reducible apply ends_next
    | with_reducible apply ends_fault
    | (extract_lets +onlyGivenNames x; clear_value x; revert x; intro _)
    | fail_if_no_progress (with_reducible apply keeps_mk)
    | with_reducible apply keeps_ite
    | with_reducible apply ends_ite

theorem execScanoutWake_keeps {b₀ : State} {port : Fin 8} {s : State} (hb₀ : Keeps b₀ s) : Ends b₀ (execScanoutWake port s) := by
  unfold execScanoutWake
  repeat' first
    | with_reducible assumption
    | with_reducible apply putN_keeps
    | with_reducible apply ends_next
    | with_reducible apply ends_fault
    | with_reducible apply foldN_keeps
    | (intro x a hx; try beta_reduce)
    | fail_if_no_progress (with_reducible apply keeps_mk)
    | with_reducible apply keeps_ite

theorem memApply_keeps {b₀ : State} {s : State} {key v : Nat} (hb₀ : Keeps b₀ s) : Keeps b₀ (memApply s key v) := by
  unfold memApply
  repeat' first
    | with_reducible assumption
    | with_reducible apply writeN_keeps
    | with_reducible apply modMem_keeps
    | with_reducible apply retireRank_keeps
    | (intro x hx; try beta_reduce)
    | fail_if_no_progress (with_reducible apply keeps_mk)
    | with_reducible apply keeps_ite

theorem execBalanceMoveStart_keeps {b₀ : State} {loads : List (BitVec 32)} {s : State} (hb₀ : Keeps b₀ s) : Ends b₀ (execBalanceMoveStart loads s) := by
  unfold execBalanceMoveStart
  repeat' first
    | with_reducible assumption
    | with_reducible apply putN_keeps
    | with_reducible apply draw_keeps
    | with_reducible apply tilthEntry_keeps
    | with_reducible apply ends_next
    | with_reducible apply ends_fault
    | with_reducible apply foldN_keeps
    | (intro x a hx; try beta_reduce)
    | (extract_lets +onlyGivenNames x; refine keeps_step (r := b₀) (x := x) ?_ (fun hx => ?_); subst x; rotate_left; clear_value x; revert x; intro _ _)
    | (extract_lets +onlyGivenNames x; clear_value x; revert x; intro _)
    | fail_if_no_progress (with_reducible apply keeps_mk)
    | with_reducible apply keeps_ite
    | with_reducible apply ends_ite
    | split

theorem moveWords_keeps {b₀ : State} {s : State} {u base v newBase size : Nat} (hb₀ : Keeps b₀ s) : Keeps b₀ (moveWords s u base v newBase size) := by
  unfold moveWords
  repeat' first
    | with_reducible assumption
    | with_reducible apply zeroUnit_keeps
    | with_reducible apply storeWord_keeps
    | with_reducible apply foldN_keeps
    | (intro x a hx; try beta_reduce)

theorem execBalanceMoveDone_keeps {b₀ : State} {s : State} (hb₀ : Keeps b₀ s) : Ends b₀ (execBalanceMoveDone s) := by
  unfold execBalanceMoveDone
  repeat' first
    | with_reducible assumption
    | with_reducible apply bump_keeps
    | with_reducible apply modSurf_keeps
    | with_reducible apply tilthEntry_keeps
    | with_reducible apply moveWords_keeps
    | with_reducible apply ends_next
    | with_reducible apply ends_fault
    | (extract_lets +onlyGivenNames x; refine keeps_step (r := b₀) (x := x) ?_ (fun hx => ?_); subst x; rotate_left; clear_value x; revert x; intro _ _)
    | (extract_lets +onlyGivenNames x; clear_value x; revert x; intro _)
    | fail_if_no_progress (with_reducible apply keeps_mk)
    | with_reducible apply keeps_ite
    | with_reducible apply ends_ite
    | split

end Sys2Proof.Machine
end

