-- ==== Sys2Proof/Laws/KeepsStack.lean ====
section
/-!
SUPPORT. Each operation of Machine/Stack.lean keeps the queue and the invariant.
-/

namespace Sys2Proof.Machine

theorem composeTile_keeps {b₀ : State} {s : State} {p r n : Nat} (hb₀ : Keeps b₀ s) : Keeps b₀ (composeTile s p r n) := by
  unfold composeTile
  repeat' first
    | with_reducible assumption
    | with_reducible apply bumpBy_keeps
    | with_reducible apply writeRank_keeps
    | with_reducible apply foldl_keeps
    | with_reducible apply foldl_keeps1
    | (intro x a hx; try beta_reduce)
    | (extract_lets +onlyGivenNames x; clear_value x; revert x; intro _)
    | with_reducible refine keeps_fst (by with_reducible assumption) ?_
    | fail_if_no_progress (with_reducible apply keeps_mk)
    | with_reducible apply keeps_ite
    | split

theorem scanPoison_keeps {b₀ : State} {s : State} {p : Nat} (hb₀ : Keeps b₀ s) : Keeps b₀ (scanPoison s p) := by
  unfold scanPoison
  repeat' first
    | with_reducible assumption
    | with_reducible apply bumpBy_keeps

end Sys2Proof.Machine
end

