-- ==== Sys2Proof/Laws/KeepsKaolin.lean ====
section
/-!
SUPPORT. Each operation of Machine/Kaolin.lean keeps the queue and the invariant.
-/

namespace Sys2Proof.Machine

theorem shadowFrom_keeps {b₀ : State} {s : State} {n : Nat} {k : KSet} (hb₀ : Keeps b₀ s) : Keeps b₀ (shadowFrom s n k) := by
  unfold shadowFrom
  repeat' first
    | with_reducible assumption
    | with_reducible apply writeN_keeps
    | with_reducible apply writeB_keeps
    | with_reducible apply foldN_keeps
    | (intro x a hx; try beta_reduce)

theorem blinkTake_keeps {b₀ : State} {s : State} {p : Nat} {opening : Bool} (hb₀ : Keeps b₀ s) : Keeps b₀ (blinkTake s p opening) := by
  unfold blinkTake
  repeat' first
    | with_reducible assumption
    | with_reducible apply putN_keeps
    | with_reducible apply modPort_keeps
    | (extract_lets +onlyGivenNames x; clear_value x; revert x; intro _)
    | fail_if_no_progress (with_reducible apply keeps_mk)
    | with_reducible apply keeps_ite

theorem kaolinEvent_keeps {b₀ : State} {s : State} {code p : Nat} {detail : List Byte} {cause : Nat} (hb₀ : Keeps b₀ s) : Keeps b₀ (kaolinEvent s code p detail cause) := by
  unfold kaolinEvent
  repeat' first
    | with_reducible assumption
    | with_reducible apply interruptTw_keeps
    | with_reducible apply emit_keeps
    | with_reducible apply sideFrame_keeps

theorem gapBegin_keeps {b₀ : State} {s : State} {p cause : Nat} (hb₀ : Keeps b₀ s) : Keeps b₀ (gapBegin s p cause) := by
  unfold gapBegin
  repeat' first
    | with_reducible assumption
    | with_reducible apply modPort_keeps
    | with_reducible apply kaolinEvent_keeps
    | (extract_lets +onlyGivenNames x; refine keeps_step (r := b₀) (x := x) ?_ (fun hx => ?_); subst x; rotate_left; clear_value x; revert x; intro _ _)
    | fail_if_no_progress (with_reducible apply keeps_mk)
    | with_reducible apply keeps_ite

theorem gapEnd_keeps {b₀ : State} {s : State} {p : Nat} (hb₀ : Keeps b₀ s) : Keeps b₀ (gapEnd s p) := by
  unfold gapEnd
  repeat' first
    | with_reducible assumption
    | with_reducible apply modPort_keeps
    | with_reducible apply kaolinEvent_keeps
    | (extract_lets +onlyGivenNames x; refine keeps_step (r := b₀) (x := x) ?_ (fun hx => ?_); subst x; rotate_left; clear_value x; revert x; intro _ _)
    | (extract_lets +onlyGivenNames x; clear_value x; revert x; intro _)
    | fail_if_no_progress (with_reducible apply keeps_mk)
    | with_reducible apply keeps_ite

theorem compareSig_keeps {b₀ : State} {s : State} {p r : Nat} {crc : BitVec 32} (hb₀ : Keeps b₀ s) : Keeps b₀ (compareSig s p r crc) := by
  unfold compareSig
  repeat' first
    | with_reducible assumption
    | with_reducible apply putN_keeps
    | with_reducible apply bump_keeps
    | with_reducible apply interruptTw_keeps
    | with_reducible apply modPort_keeps
    | with_reducible apply raiseClass_keeps
    | with_reducible apply kaolinEvent_keeps
    | with_reducible apply foldN_keeps
    | (intro x a hx; try beta_reduce)
    | (extract_lets +onlyGivenNames x; refine keeps_step (r := b₀) (x := x) ?_ (fun hx => ?_); subst x; rotate_left; clear_value x; revert x; intro _ _)
    | (extract_lets +onlyGivenNames x; clear_value x; revert x; intro _)
    | fail_if_no_progress (with_reducible apply keeps_mk)
    | with_reducible apply keeps_ite

theorem kaolinCommitOp_keeps {b₀ : State} {s : State} {p : Nat} (hb₀ : Keeps b₀ s) : Keeps b₀ (kaolinCommitOp s p) := by
  unfold kaolinCommitOp
  repeat' first
    | with_reducible assumption
    | with_reducible apply bump_keeps
    | with_reducible apply modPort_keeps
    | (extract_lets +onlyGivenNames x; clear_value x; revert x; intro _)
    | fail_if_no_progress (with_reducible apply keeps_mk)
    | with_reducible apply keeps_ite

theorem kaolinSetActive_keeps {b₀ : State} {s : State} {p : Nat} {k : KSet} (hb₀ : Keeps b₀ s) : Keeps b₀ (kaolinSetActive s p k) := by
  unfold kaolinSetActive
  repeat' first
    | with_reducible assumption
    | with_reducible apply putN_keeps
    | with_reducible apply modPort_keeps
    | with_reducible apply settle_keeps
    | with_reducible apply foldN_keeps
    | (intro x a hx; try beta_reduce)
    | (extract_lets +onlyGivenNames x; refine keeps_step (r := b₀) (x := x) ?_ (fun hx => ?_); subst x; rotate_left; clear_value x; revert x; intro _ _)
    | (extract_lets +onlyGivenNames x; clear_value x; revert x; intro _)
    | fail_if_no_progress (with_reducible apply keeps_mk)
    | with_reducible apply keeps_ite

theorem kaolinTake_keeps {b₀ : State} {s : State} {p : Nat} {opening : Bool} (hb₀ : Keeps b₀ s) : Keeps b₀ (kaolinTake s p opening) := by
  unfold kaolinTake
  repeat' first
    | with_reducible assumption
    | with_reducible apply modPort_keeps
    | with_reducible apply kaolinSetActive_keeps
    | (extract_lets +onlyGivenNames x; clear_value x; revert x; intro _)
    | fail_if_no_progress (with_reducible apply keeps_mk)
    | with_reducible apply keeps_ite

theorem kaolinLoad_keeps {b₀ : State} {s : State} (hb₀ : Keeps b₀ s) : Keeps b₀ (kaolinLoad s) := by
  unfold kaolinLoad
  repeat' first
    | with_reducible assumption
    | with_reducible apply modPort_keeps
    | with_reducible apply foldN_keeps
    | (intro x a hx; try beta_reduce)
    | with_reducible refine keeps_kram ?_ (fun hk => by first | exact wf_nil | exact memSetAll_wf _ _ hk | exact memSetAll_wf _ _ (memSetAll_wf _ _ wf_nil))

end Sys2Proof.Machine
end

