-- ==== Sys2Proof/Laws/KeepsLists.lean ====
section
/-!
SUPPORT. Each operation of Machine/Lists.lean keeps the queue and the invariant.
-/

namespace Sys2Proof.Machine

theorem readRef_keeps {b₀ : State} {s : State} {f : Nat} {bad : List (Nat × Nat)} {ref at_ n : Nat} (hb₀ : Keeps b₀ s) : Keeps b₀ (readRef s f bad ref at_ n).1 := by
  unfold readRef
  repeat' first
    | with_reducible assumption
    | with_reducible apply readHandle_keeps
    | with_reducible refine keeps_fst (by with_reducible assumption) ?_
    | with_reducible refine keeps_host ?_ (memSetAll_wf _ _)
    | fail_if_no_progress (with_reducible apply keeps_mk)
    | with_reducible apply keeps_ite
    | with_reducible apply keeps_ite1
    | split

end Sys2Proof.Machine
end

