-- ==== Sys2Proof/Laws/KeepsShade.lean ====
section
/-!
SUPPORT. Each operation of Machine/Shade.lean keeps the queue and the invariant.
-/

namespace Sys2Proof.Machine

theorem startWord_keeps {b₀ : State} {p : Pass} {x y : Nat} {a : State × List Nat} {i : Nat} (hb₀ : Keeps b₀ a.1) : Keeps b₀ (startWord p x y a i).1 := by
  unfold startWord
  repeat' first
    | with_reducible assumption
    | with_reducible apply readHandle_keeps
    | (extract_lets +onlyGivenNames x; clear_value x; revert x; intro _)
    | with_reducible refine keeps_fst (by with_reducible assumption) ?_
    | fail_if_no_progress (with_reducible apply keeps_mk)
    | with_reducible apply keeps_ite
    | with_reducible apply keeps_ite1

theorem startPixel_keeps {b₀ : State} {p : Pass} {a : State × List Sample} {q : Nat × Nat} (hb₀ : Keeps b₀ a.1) : Keeps b₀ (startPixel p a q).1 := by
  unfold startPixel
  repeat' first
    | with_reducible assumption
    | with_reducible apply startWord_keeps
    | with_reducible apply foldl_keeps
    | with_reducible apply foldl_keeps1

theorem startTile_keeps {b₀ : State} {s : State} {p : Pass} {n : Nat} (hb₀ : Keeps b₀ s) : Keeps b₀ (startTile s p n).1 := by
  unfold startTile
  repeat' first
    | with_reducible assumption
    | with_reducible apply startPixel_keeps
    | with_reducible apply foldl_keeps
    | with_reducible apply foldl_keeps1

theorem storeTile_keeps {b₀ : State} {w : Walk} {s : State} (hb₀ : Keeps b₀ s) : Keeps b₀ (storeTile w s) := by
  unfold storeTile
  repeat' first
    | with_reducible assumption
    | with_reducible apply writeHandle_keeps
    | with_reducible apply take_keeps
    | with_reducible apply foldl_keeps
    | with_reducible apply foldl_keeps1
    | (intro x a hx; try beta_reduce)

end Sys2Proof.Machine
end

