-- ==== Sys2Proof/Laws/KeepsGpu.lean ====
section
/-!
SUPPORT. Each operation of Machine/Gpu.lean keeps the queue and the invariant.
-/

namespace Sys2Proof.Machine

theorem modPass_keeps {b₀ : State} {s : State} {c id : Nat} {g : Pass → Pass} (hb₀ : Keeps b₀ s) : Keeps b₀ (modPass s c id g) := by
  unfold modPass
  repeat' first
    | with_reducible assumption
    | with_reducible apply modCtx_keeps

theorem setTarget_keeps {b₀ : State} {s : State} {c t : Nat} (hb₀ : Keeps b₀ s) : Keeps b₀ (setTarget s c t) := by
  unfold setTarget
  repeat' first
    | with_reducible assumption
    | with_reducible apply putN_keeps
    | with_reducible apply putB_keeps
    | with_reducible apply tilthEntry_keeps
    | with_reducible apply hintMiss_keeps
    | (extract_lets +onlyGivenNames x; refine keeps_step (r := b₀) (x := x) ?_ (fun hx => ?_); subst x; rotate_left; clear_value x; revert x; intro _ _)
    | (extract_lets +onlyGivenNames x; clear_value x; revert x; intro _)
    | fail_if_no_progress (with_reducible apply keeps_mk)
    | with_reducible apply keeps_ite

theorem arbitrateWith_keeps {b₀ : State} {s : State} {c0 : Nat} (hb₀ : Keeps b₀ s) : Keeps b₀ (arbitrateWith s c0) := by
  unfold arbitrateWith
  repeat' first
    | with_reducible assumption
    | with_reducible apply setTarget_keeps
    | with_reducible apply foldl_keeps
    | with_reducible apply foldl_keeps1
    | (intro x a hx; try beta_reduce)

theorem arbitrate_keeps {b₀ : State} {s : State} (hb₀ : Keeps b₀ s) : Keeps b₀ (arbitrate s) := by
  unfold arbitrate
  repeat' first
    | with_reducible assumption
    | with_reducible apply arbitrateWith_keeps

theorem execArbitration_keeps {b₀ : State} {s : State} (hb₀ : Keeps b₀ s) : Ends b₀ (execArbitration s) := by
  unfold execArbitration
  repeat' first
    | with_reducible assumption
    | with_reducible apply arbitrate_keeps
    | with_reducible apply ends_next

theorem leaveIdle_keeps {b₀ : State} {s : State} {k : Nat} (hb₀ : Keeps b₀ s) : Keeps b₀ (leaveIdle s k) := by
  unfold leaveIdle
  repeat' first
    | with_reducible assumption
    | with_reducible apply putN_keeps
    | fail_if_no_progress (with_reducible apply keeps_mk)
    | with_reducible apply keeps_ite

theorem takeRowTile_keeps {b₀ : State} {s : State} {k p r : Nat} (hb₀ : Keeps b₀ s) : Keeps b₀ (takeRowTile s k p r) := by
  unfold takeRowTile
  repeat' first
    | with_reducible assumption
    | with_reducible apply putN_keeps
    | with_reducible apply bump_keeps
    | with_reducible apply modCore_keeps
    | with_reducible apply modRow_keeps
    | with_reducible apply leaveIdle_keeps
    | with_reducible apply preemptFor_keeps
    | with_reducible refine keeps_fst (by with_reducible assumption) ?_
    | fail_if_no_progress (with_reducible apply keeps_mk)
    | with_reducible apply keeps_ite
    | split

theorem freshUnit_keeps {b₀ : State} {s : State} {p : Pass} {n : Nat} (hb₀ : Keeps b₀ s) : Keeps b₀ (freshUnit s p n).1 := by
  unfold freshUnit
  repeat' first
    | with_reducible assumption
    | with_reducible apply startTile_keeps
    | with_reducible refine keeps_fst (by with_reducible assumption) ?_
    | fail_if_no_progress (with_reducible apply keeps_mk)
    | with_reducible apply keeps_ite
    | with_reducible apply keeps_ite1

theorem takeOne_keeps {b₀ : State} {s : State} {k c : Nat} {p : Pass} (hb₀ : Keeps b₀ s) : Keeps b₀ (takeOne s k c p).1 := by
  unfold takeOne
  repeat' first
    | with_reducible assumption
    | with_reducible apply hf1
    | with_reducible apply hf2
    | with_reducible apply hf3
    | with_reducible apply putN_keeps
    | with_reducible apply bump_keeps
    | with_reducible apply draw_keeps
    | with_reducible apply modPass_keeps
    | with_reducible apply freshUnit_keeps
    | (extract_lets +onlyGivenNames x; clear_value x; revert x; intro _)
    | fail_if_no_progress (with_reducible apply keeps_mk)
    | with_reducible apply keeps_ite
    | with_reducible apply keeps_ite1
    | split

theorem takeMore_keeps {b₀ : State} {k c id n : Nat} {s : State} (hb₀ : Keeps b₀ s) : Keeps b₀ (takeMore k c id n s) := by
  induction n generalizing s with
  | zero => exact hb₀
  | succ n ih =>
    unfold takeMore
    split
    · exact hb₀
    · next p _ =>
      have := takeOne_keeps (k := k) (c := c) (p := p) hb₀
      split
      next h => rw [h] at this; exact ih (modCore_keeps this)

theorem takeUnit_keeps {b₀ : State} {s : State} {k c : Nat} {lent : Bool} (hb₀ : Keeps b₀ s) : Keeps b₀ (takeUnit s k c lent) := by
  unfold takeUnit
  repeat' first
    | with_reducible assumption
    | with_reducible apply modCore_keeps
    | with_reducible apply leaveIdle_keeps
    | with_reducible apply takeOne_keeps
    | with_reducible apply takeMore_keeps
    | with_reducible apply preemptFor_keeps
    | with_reducible refine keeps_fst (by with_reducible assumption) ?_
    | fail_if_no_progress (with_reducible apply keeps_mk)
    | with_reducible apply keeps_ite
    | split

theorem chooseWork_keeps {b₀ : State} {s : State} {k : Nat} (hb₀ : Keeps b₀ s) : Keeps b₀ (chooseWork s k) := by
  unfold chooseWork
  repeat' first
    | with_reducible assumption
    | with_reducible apply hf1
    | with_reducible apply hf2
    | with_reducible apply hf3
    | with_reducible apply takeRowTile_keeps
    | with_reducible apply takeUnit_keeps
    | (extract_lets +onlyGivenNames x; clear_value x; revert x; intro _)
    | with_reducible refine keeps_fst (by with_reducible assumption) ?_
    | fail_if_no_progress (with_reducible apply keeps_mk)
    | with_reducible apply keeps_ite
    | split

theorem refill_keeps {b₀ : State} {s : State} {k : Nat} (hb₀ : Keeps b₀ s) : Keeps b₀ (refill s k) := by
  unfold refill
  repeat' first
    | with_reducible assumption
    | with_reducible apply takeMore_keeps
    | fail_if_no_progress (with_reducible apply keeps_mk)
    | with_reducible apply keeps_ite
    | split

theorem execCoreDispatchPoint_keeps {b₀ : State} {core : Fin 36} {s : State} (hb₀ : Keeps b₀ s) : Ends b₀ (execCoreDispatchPoint core s) := by
  unfold execCoreDispatchPoint
  repeat' first
    | with_reducible assumption
    | with_reducible apply chooseWork_keeps
    | with_reducible apply refill_keeps
    | with_reducible apply preemptFor_keeps
    | with_reducible apply ends_next
    | with_reducible apply ends_fault
    | fail_if_no_progress (with_reducible apply keeps_mk)
    | with_reducible apply keeps_ite
    | with_reducible apply ends_ite

theorem preemptFor_keeps {b₀ : State} {c : Nat} {ok : State → Nat × Nat → Bool} {n : Nat} {s : State} (hb₀ : Keeps b₀ s) :
    Keeps b₀ (preemptFor c ok n s) := by
  induction n generalizing s with
  | zero => exact hb₀
  | succ n ih =>
    unfold preemptFor
    split
    · exact hb₀
    · exact ih (modCore_keeps hb₀)

theorem preemptReady_keeps {b₀ : State} {s : State} {c : Nat} (hb₀ : Keeps b₀ s) : Keeps b₀ (preemptReady s c) := by
  unfold preemptReady
  repeat' first
    | with_reducible assumption
    | with_reducible apply preemptFor_keeps
    | (extract_lets +onlyGivenNames x; clear_value x; revert x; intro _)
    | with_reducible refine keeps_fst (by with_reducible assumption) ?_
    | fail_if_no_progress (with_reducible apply keeps_mk)
    | with_reducible apply keeps_ite

theorem spillUnit_keeps {b₀ : State} {s : State} {k position spillNs : Nat} (hb₀ : Keeps b₀ s) : Keeps b₀ (spillUnit s k position spillNs) := by
  unfold spillUnit
  repeat' first
    | with_reducible assumption
    | with_reducible apply putN_keeps
    | with_reducible apply modCore_keeps
    | with_reducible apply modPass_keeps
    | (extract_lets +onlyGivenNames x; clear_value x; revert x; intro _)
    | fail_if_no_progress (with_reducible apply keeps_mk)
    | with_reducible apply keeps_ite
    | split

theorem execPreemptDone_keeps {b₀ : State} {core : Fin 36} {latencyNs position spillNs : Nat} {s : State} (hb₀ : Keeps b₀ s) : Ends b₀ (execPreemptDone core latencyNs position spillNs s) := by
  unfold execPreemptDone
  repeat' first
    | with_reducible assumption
    | with_reducible apply putN_keeps
    | with_reducible apply bump_keeps
    | with_reducible apply modCore_keeps
    | with_reducible apply chooseWork_keeps
    | with_reducible apply preemptFor_keeps
    | with_reducible apply spillUnit_keeps
    | with_reducible apply ends_next
    | with_reducible apply ends_fault
    | (extract_lets +onlyGivenNames x; refine keeps_step (r := b₀) (x := x) ?_ (fun hx => ?_); subst x; rotate_left; clear_value x; revert x; intro _ _)
    | (extract_lets +onlyGivenNames x; clear_value x; revert x; intro _)
    | fail_if_no_progress (with_reducible apply keeps_mk)
    | with_reducible apply keeps_ite
    | with_reducible apply ends_ite
    | split

theorem execCompositorRowEligible_keeps {b₀ : State} {port : Fin 8} {row : Fin 256} {s : State} (hb₀ : Keeps b₀ s) : Ends b₀ (execCompositorRowEligible port row s) := by
  unfold execCompositorRowEligible
  repeat' first
    | with_reducible assumption
    | with_reducible apply modRow_keeps
    | with_reducible apply take_keeps
    | with_reducible apply arbitrateWith_keeps
    | with_reducible apply takeRowTile_keeps
    | with_reducible apply preemptFor_keeps
    | with_reducible apply ends_next
    | with_reducible apply ends_fault
    | with_reducible apply foldN_keeps
    | (intro x a hx; try beta_reduce)
    | (extract_lets +onlyGivenNames x; refine keeps_step (r := b₀) (x := x) ?_ (fun hx => ?_); subst x; rotate_left; clear_value x; revert x; intro _ _)
    | (extract_lets +onlyGivenNames x; clear_value x; revert x; intro _)
    | fail_if_no_progress (with_reducible apply keeps_mk)
    | with_reducible apply keeps_ite
    | with_reducible apply ends_ite
    | split

theorem execRowComposeDone_keeps {b₀ : State} {port : Fin 8} {row : Fin 256} {s : State} (hb₀ : Keeps b₀ s) : Ends b₀ (execRowComposeDone port row s) := by
  unfold execRowComposeDone
  repeat' first
    | with_reducible assumption
    | with_reducible apply modRow_keeps
    | with_reducible apply ends_next
    | with_reducible apply ends_fault
    | (extract_lets +onlyGivenNames x; clear_value x; revert x; intro _)
    | with_reducible refine keeps_fst (by with_reducible assumption) ?_
    | fail_if_no_progress (with_reducible apply keeps_mk)
    | with_reducible apply keeps_ite
    | with_reducible apply ends_ite
    | split

theorem rowLate_keeps {b₀ : State} {s : State} {p row tag : Nat} (hb₀ : Keeps b₀ s) : Keeps b₀ (rowLate s p row tag) := by
  unfold rowLate
  repeat' first
    | with_reducible assumption
    | with_reducible apply bump_keeps
    | with_reducible apply modPort_keeps
    | with_reducible apply emit_keeps

theorem execRowPrefetchPoint_keeps {b₀ : State} {port : Fin 8} {row : Fin 256} {s : State} (hb₀ : Keeps b₀ s) : Ends b₀ (execRowPrefetchPoint port row s) := by
  unfold execRowPrefetchPoint
  repeat' first
    | with_reducible assumption
    | with_reducible apply bump_keeps
    | with_reducible apply modPort_keeps
    | with_reducible apply modRow_keeps
    | with_reducible apply rowLate_keeps
    | with_reducible apply ends_next
    | with_reducible apply ends_fault
    | (extract_lets +onlyGivenNames x; refine keeps_step (r := b₀) (x := x) ?_ (fun hx => ?_); subst x; rotate_left; clear_value x; revert x; intro _ _)
    | (extract_lets +onlyGivenNames x; clear_value x; revert x; intro _)
    | (extract_lets +onlyGivenNames x; subst x)
    | fail_if_no_progress (with_reducible apply keeps_mk)
    | with_reducible apply keeps_ite
    | with_reducible apply ends_ite
    | split

theorem passFault_keeps {b₀ : State} {s : State} {c : Nat} {t : Ticket} {cause record : Nat} (hb₀ : Keeps b₀ s) : Keeps b₀ (passFault s c t cause record) := by
  unfold passFault
  repeat' first
    | with_reducible assumption
    | with_reducible apply bump_keeps
    | with_reducible apply emit_keeps
    | with_reducible apply complete_keeps

theorem clearCore_keeps {b₀ : State} {s : State} {k : Nat} (hb₀ : Keeps b₀ s) : Keeps b₀ (clearCore s k) := by
  unfold clearCore
  repeat' first
    | with_reducible assumption
    | with_reducible apply modCore_keeps

theorem removePass_keeps {b₀ : State} {s : State} {c id : Nat} (hb₀ : Keeps b₀ s) : Keeps b₀ (removePass s c id) := by
  unfold removePass
  repeat' first
    | with_reducible assumption
    | with_reducible apply putN_keeps
    | with_reducible apply modCtx_keeps
    | with_reducible apply clearCore_keeps
    | with_reducible apply foldN_keeps
    | (intro x a hx; try beta_reduce)
    | fail_if_no_progress (with_reducible apply keeps_mk)
    | with_reducible apply keeps_ite
    | split

theorem overflow_keeps {b₀ : State} {s : State} {c : Nat} {p : Pass} {used : Nat} (hb₀ : Keeps b₀ s) : Keeps b₀ (overflow s c p used) := by
  unfold overflow
  repeat' first
    | with_reducible assumption
    | with_reducible apply writeN_keeps
    | with_reducible apply bump_keeps
    | with_reducible apply modRing_keeps
    | with_reducible apply modCtx_keeps
    | with_reducible apply emit_keeps
    | with_reducible apply complete_keeps
    | with_reducible apply tilthEntry_keeps
    | with_reducible apply removePass_keeps
    | fail_if_no_progress (with_reducible apply keeps_mk)
    | with_reducible apply keeps_ite

theorem dropPass_keeps {b₀ : State} {s : State} {c : Nat} {t : Ticket} {frame : Nat} (hb₀ : Keeps b₀ s) : Keeps b₀ (dropPass s c t frame) := by
  unfold dropPass
  repeat' first
    | with_reducible assumption
    | with_reducible apply bump_keeps
    | with_reducible apply complete_keeps

theorem finishPass_keeps {b₀ : State} {s : State} {c : Nat} {p : Pass} (hb₀ : Keeps b₀ s) : Keeps b₀ (finishPass s c p) := by
  unfold finishPass
  repeat' first
    | with_reducible assumption
    | with_reducible apply putN_keeps
    | with_reducible apply bump_keeps
    | with_reducible apply complete_keeps
    | with_reducible apply removePass_keeps
    | (extract_lets +onlyGivenNames x; refine keeps_step (r := b₀) (x := x) ?_ (fun hx => ?_); subst x; rotate_left; clear_value x; revert x; intro _ _)
    | (extract_lets +onlyGivenNames x; clear_value x; revert x; intro _)
    | fail_if_no_progress (with_reducible apply keeps_mk)
    | with_reducible apply keeps_ite

theorem parsePass_keeps {b₀ : State} {s : State} {p : Pass} (hb₀ : Keeps b₀ s) : Keeps b₀ (parsePass s p).1 := by
  unfold parsePass
  repeat' first
    | with_reducible assumption
    | with_reducible apply readRef_keeps
    | (extract_lets +onlyGivenNames x; clear_value x; revert x; intro _)
    | with_reducible refine keeps_fst (by with_reducible assumption) ?_
    | with_reducible refine keeps_host ?_ (memSetAll_wf _ _)
    | fail_if_no_progress (with_reducible apply keeps_mk)
    | with_reducible apply keeps_ite
    | with_reducible apply keeps_ite1
    | split

theorem steady_keeps {b₀ : State} : Steady (Keeps b₀) := ⟨fun _ _ _ _ h => readHandle_keeps h, fun _ _ _ _ h => writeHandle_keeps h⟩

theorem binNow_keeps {b₀ : State} {s : State} {c : Nat} {p : Pass} {first : Bool} (hb₀ : Keeps b₀ s) :
    KeepsOpt b₀ (binNow s c p first) := by
  unfold binNow
  extract_lets pool b counted
  have hc : Keeps b₀ counted := bumpBy_keeps (binPass_holds steady_keeps hb₀)
  clear_value counted b
  repeat' first
    | with_reducible exact keepsOpt_none
    | with_reducible apply keepsOpt_some
    | with_reducible assumption
    | with_reducible apply passFault_keeps
    | with_reducible apply removePass_keeps
    | with_reducible apply overflow_keeps
    | with_reducible apply modPass_keeps
    | with_reducible apply putN_keeps
    | split

theorem binStep_keeps {b₀ : State} {s : State} {c : Nat} (hb₀ : Keeps b₀ s) : KeepsOpt b₀ (binStep s c) := by
  unfold binStep
  repeat' first
    | with_reducible assumption
    | with_reducible apply putN_keeps
    | with_reducible apply modCtx_keeps
    | with_reducible apply modPass_keeps
    | with_reducible apply passFault_keeps
    | with_reducible apply removePass_keeps
    | with_reducible apply dropPass_keeps
    | with_reducible apply finishPass_keeps
    | with_reducible apply parsePass_keeps
    | with_reducible refine (binNow_keeps ?_).keeps _ (by with_reducible assumption)
    | with_reducible apply binNow_keeps
    | (extract_lets +onlyGivenNames x; clear_value x; revert x; intro _)
    | with_reducible refine keeps_fst (by with_reducible assumption) ?_
    | fail_if_no_progress (with_reducible apply keeps_mk)
    | with_reducible apply keeps_ite
    | split
    | with_reducible exact fun _ => rfl
    | with_reducible exact fun _ h => h
    | with_reducible exact keepsOpt_none
    | with_reducible apply keepsOpt_some

theorem binAll_keeps {b₀ : State} {n : Nat} {s : State} {c : Nat} (hb₀ : Keeps b₀ s) : Keeps b₀ (binAll n s c) := by
  induction n generalizing s with
  | zero => exact hb₀
  | succ n ih =>
    unfold binAll
    split
    · exact hb₀
    · exact ih ((binStep_keeps hb₀).keeps _ (by assumption))

theorem ctxChanged_keeps {b₀ : State} {s : State} {c : Nat} (hb₀ : Keeps b₀ s) : Keeps b₀ (ctxChanged s c) := by
  unfold ctxChanged
  repeat' first
    | with_reducible assumption
    | with_reducible apply runSignals_keeps
    | with_reducible apply arbitrate_keeps
    | with_reducible apply preemptReady_keeps
    | with_reducible apply binAll_keeps

theorem execTilePhaseStart_keeps {b₀ : State} {ctx : Fin 64} {s : State} (hb₀ : Keeps b₀ s) : Ends b₀ (execTilePhaseStart ctx s) := by
  unfold execTilePhaseStart
  repeat' first
    | with_reducible assumption
    | with_reducible apply modPass_keeps
    | with_reducible apply finishPass_keeps
    | with_reducible apply ctxChanged_keeps
    | with_reducible apply ends_next
    | with_reducible apply ends_fault
    | fail_if_no_progress (with_reducible apply keeps_mk)
    | with_reducible apply keeps_ite
    | with_reducible apply ends_ite
    | split

theorem freeCore_keeps {b₀ : State} {s : State} {k c : Nat} (hb₀ : Keeps b₀ s) : Keeps b₀ (freeCore s k c) := by
  unfold freeCore
  repeat' first
    | with_reducible assumption
    | with_reducible apply putN_keeps
    | with_reducible apply clearCore_keeps

theorem unitEnded_keeps {b₀ : State} {s : State} {c id : Nat} (hb₀ : Keeps b₀ s) : Keeps b₀ (unitEnded s c id) := by
  unfold unitEnded
  repeat' first
    | with_reducible assumption
    | with_reducible apply modPass_keeps
    | with_reducible apply finishPass_keeps
    | with_reducible apply ctxChanged_keeps
    | fail_if_no_progress (with_reducible apply keeps_mk)
    | with_reducible apply keeps_ite
    | split

theorem killPass_keeps {b₀ : State} {s : State} {c : Nat} {p : Pass} {cause : Nat} (hb₀ : Keeps b₀ s) : Keeps b₀ (killPass s c p cause) := by
  unfold killPass
  repeat' first
    | with_reducible assumption
    | with_reducible apply passFault_keeps
    | with_reducible apply removePass_keeps
    | with_reducible apply ctxChanged_keeps

theorem countUnit_keeps {b₀ : State} {s : State} {c id poison : Nat} (hb₀ : Keeps b₀ s) : Keeps b₀ (countUnit s c id poison) := by
  unfold countUnit
  repeat' first
    | with_reducible assumption
    | with_reducible apply modPass_keeps

theorem endTile_keeps {b₀ : State} {s : State} {k c : Nat} {p : Pass} {n : Nat} {binPoison : Bool} (hb₀ : Keeps b₀ s) :
    Keeps b₀ (endTile s k c p n binPoison) := by
  unfold endTile
  split
  · exact killPass_keeps hb₀
  · extract_lets run t
    have ht : Keeps b₀ t := bumpBy_keeps (finishTile_holds steady_keeps hb₀)
    split
    · exact killPass_keeps ht
    · exact unitEnded_keeps (freeCore_keeps (countUnit_keeps (bump_keeps ht)))

theorem endGroup_keeps {b₀ : State} {s : State} {k c : Nat} {p : Pass} {d : DispatchCall} {l : List Nat} {which : Nat}
    (hb₀ : Keeps b₀ s) : Keeps b₀ (endGroup s k c p d l which) := by
  unfold endGroup
  extract_lets n run t
  have ht : Keeps b₀ t := bumpBy_keeps (finishGroup_holds steady_keeps (draw_keeps hb₀))
  split
  · exact killPass_keeps ht
  · refine unitEnded_keeps ?_
    split
    · exact freeCore_keeps (countUnit_keeps ht)
    · exact modCore_keeps (countUnit_keeps ht)

theorem execTileDone_keeps {b₀ : State} {core : Fin 36} {binPoison : Bool} {s : State} (hb₀ : Keeps b₀ s) : Ends b₀ (execTileDone core binPoison s) := by
  unfold execTileDone
  repeat' first
    | with_reducible assumption
    | with_reducible apply bump_keeps
    | with_reducible apply modRow_keeps
    | with_reducible apply composeTile_keeps
    | with_reducible apply clearCore_keeps
    | with_reducible apply endTile_keeps
    | with_reducible apply ends_next
    | with_reducible apply ends_fault
    | fail_if_no_progress (with_reducible apply keeps_mk)
    | with_reducible apply keeps_ite
    | with_reducible apply ends_ite
    | split

theorem execWorkgroupDone_keeps {b₀ : State} {core : Fin 36} {which : Nat} {s : State} (hb₀ : Keeps b₀ s) : Ends b₀ (execWorkgroupDone core which s) := by
  unfold execWorkgroupDone
  repeat' first
    | with_reducible assumption
    | with_reducible apply endGroup_keeps
    | with_reducible apply ends_next
    | with_reducible apply ends_fault
    | fail_if_no_progress (with_reducible apply keeps_mk)
    | with_reducible apply keeps_ite
    | with_reducible apply ends_ite
    | split

theorem execGpuWatchdog_keeps {b₀ : State} {ctx : Fin 64} {s : State} (hb₀ : Keeps b₀ s) : Ends b₀ (execGpuWatchdog ctx s) := by
  unfold execGpuWatchdog
  repeat' first
    | with_reducible assumption
    | with_reducible apply killPass_keeps
    | with_reducible apply ends_next
    | with_reducible apply ends_fault
    | (extract_lets +onlyGivenNames x; clear_value x; revert x; intro _)
    | fail_if_no_progress (with_reducible apply keeps_mk)
    | with_reducible apply keeps_ite
    | with_reducible apply ends_ite
    | split

theorem loseUnit_keeps {b₀ : State} {s : State} {k : Nat} (hb₀ : Keeps b₀ s) : Keeps b₀ (loseUnit s k) := by
  unfold loseUnit
  repeat' first
    | with_reducible assumption
    | with_reducible apply modRow_keeps
    | with_reducible apply modPass_keeps
    | with_reducible apply clearCore_keeps
    | with_reducible apply freeCore_keeps
    | fail_if_no_progress (with_reducible apply keeps_mk)
    | with_reducible apply keeps_ite
    | split

theorem countCores_keeps {b₀ : State} {s : State} (hb₀ : Keeps b₀ s) : Keeps b₀ (countCores s) := by
  unfold countCores
  repeat' first
    | with_reducible assumption
    | with_reducible apply putN_keeps

theorem coreLost_keeps {b₀ : State} {s : State} {k cause : Nat} {passing : Nat → Bool} (hb₀ : Keeps b₀ s) : Keeps b₀ (coreLost s k cause passing) := by
  unfold coreLost
  repeat' first
    | with_reducible assumption
    | with_reducible apply putN_keeps
    | with_reducible apply askDomain_keeps
    | with_reducible apply modCore_keeps
    | with_reducible apply tilthEntry_keeps
    | with_reducible apply settle_keeps
    | with_reducible apply substitute_keeps
    | with_reducible apply retireUnit_keeps
    | with_reducible apply trySpares_keeps
    | with_reducible apply arbitrate_keeps
    | with_reducible apply preemptFor_keeps
    | with_reducible apply countCores_keeps
    | with_reducible refine keeps_fst (by with_reducible assumption) ?_
    | fail_if_no_progress (with_reducible apply keeps_mk)
    | with_reducible apply keeps_ite
    | split

theorem execCoreFault_keeps {b₀ : State} {core : Fin 36} {retryPasses : Bool} {sparePasses : List (Fin 36)} {s : State} (hb₀ : Keeps b₀ s) : Ends b₀ (execCoreFault core retryPasses sparePasses s) := by
  unfold execCoreFault
  repeat' first
    | with_reducible assumption
    | with_reducible apply hf1
    | with_reducible apply hf2
    | with_reducible apply hf3
    | with_reducible apply bump_keeps
    | with_reducible apply killPass_keeps
    | with_reducible apply loseUnit_keeps
    | with_reducible apply coreLost_keeps
    | with_reducible apply ends_next
    | with_reducible apply ends_fault
    | (extract_lets +onlyGivenNames x; refine keeps_step (r := b₀) (x := x) ?_ (fun hx => ?_); subst x; rotate_left; clear_value x; revert x; intro _ _)
    | (extract_lets +onlyGivenNames x; clear_value x; revert x; intro _)
    | fail_if_no_progress (with_reducible apply keeps_mk)
    | with_reducible apply keeps_ite
    | with_reducible apply ends_ite
    | split

theorem dropCtx_keeps {b₀ : State} {s : State} {c : Nat} (hb₀ : Keeps b₀ s) : Keeps b₀ (dropCtx s c) := by
  unfold dropCtx
  repeat' first
    | with_reducible assumption
    | with_reducible apply removePass_keeps
    | with_reducible apply foldN_keeps
    | (intro x a hx; try beta_reduce)

theorem execCtxStopDone_keeps {b₀ : State} {ctx : Fin 64} {s : State} (hb₀ : Keeps b₀ s) : Ends b₀ (execCtxStopDone ctx s) := by
  unfold execCtxStopDone
  repeat' first
    | with_reducible assumption
    | with_reducible apply putN_keeps
    | with_reducible apply dropTransit_keeps
    | with_reducible apply modCtx_keeps
    | with_reducible apply emit_keeps
    | with_reducible apply arbitrate_keeps
    | with_reducible apply ends_next
    | with_reducible apply ends_fault
    | (extract_lets +onlyGivenNames x; refine keeps_step (r := b₀) (x := x) ?_ (fun hx => ?_); subst x; rotate_left; clear_value x; revert x; intro _ _)
    | fail_if_no_progress (with_reducible apply keeps_mk)
    | with_reducible apply keeps_ite
    | with_reducible apply ends_ite

end Sys2Proof.Machine
end

