-- ==== Sys2Proof/Laws/KeepsDraws.lean ====
section
/-!
SUPPORT. Each operation of Machine/Draws.lean keeps the queue and the invariant.
-/

namespace Sys2Proof.Machine

theorem noContext_keeps {b₀ : State} {s : State} {t : Ticket} (hb₀ : Keeps b₀ s) : Keeps b₀ (noContext s t) := by
  unfold noContext
  repeat' first
    | with_reducible assumption
    | with_reducible apply complete_keeps

theorem addPass_keeps {b₀ : State} {s : State} {c : Nat} {p : Pass} (hb₀ : Keeps b₀ s) : Keeps b₀ (addPass s c p) := by
  unfold addPass
  repeat' first
    | with_reducible assumption
    | with_reducible apply modCtx_keeps
    | with_reducible apply ctxChanged_keeps

theorem execDrawSubmit_keeps {b₀ : State} {h : CmdHdr} {p : DrawPayload} {s : State} (hb₀ : Keeps b₀ s) : Ends b₀ (execDrawSubmit h p s) := by
  unfold execDrawSubmit
  repeat' first
    | with_reducible assumption
    | with_reducible apply draw_keeps
    | with_reducible apply modRing_keeps
    | with_reducible apply beginCmd_keeps
    | with_reducible apply passFault_keeps
    | with_reducible apply dropPass_keeps
    | with_reducible apply noContext_keeps
    | with_reducible apply addPass_keeps
    | with_reducible apply ends_next
    | with_reducible apply ends_fault
    | (extract_lets +onlyGivenNames x; refine keeps_step (r := b₀) (x := x) ?_ (fun hx => ?_); subst x; rotate_left; clear_value x; revert x; intro _ _)
    | (extract_lets +onlyGivenNames x; clear_value x; revert x; intro _)
    | with_reducible refine keeps_fst (by with_reducible assumption) ?_
    | fail_if_no_progress (with_reducible apply keeps_mk)
    | with_reducible apply keeps_ite
    | with_reducible apply ends_ite
    | split

theorem execComputeDispatch_keeps {b₀ : State} {h : CmdHdr} {list : BitVec 64} {len : BitVec 32} {zero : BitVec 288} {s : State} (hb₀ : Keeps b₀ s) : Ends b₀ (execComputeDispatch h list len zero s) := by
  unfold execComputeDispatch
  repeat' first
    | with_reducible assumption
    | with_reducible apply draw_keeps
    | with_reducible apply beginCmd_keeps
    | with_reducible apply passFault_keeps
    | with_reducible apply noContext_keeps
    | with_reducible apply addPass_keeps
    | with_reducible apply ends_next
    | with_reducible apply ends_fault
    | with_reducible refine keeps_fst (by with_reducible assumption) ?_
    | fail_if_no_progress (with_reducible apply keeps_mk)
    | with_reducible apply keeps_ite
    | with_reducible apply ends_ite
    | split

theorem execTranslationDone_keeps {b₀ : State} {slot : Fin 256} {s : State} (hb₀ : Keeps b₀ s) : Ends b₀ (execTranslationDone slot s) := by
  unfold execTranslationDone
  repeat' first
    | with_reducible assumption
    | with_reducible apply putV_keeps
    | with_reducible apply putN_keeps
    | with_reducible apply putB_keeps
    | with_reducible apply take_keeps
    | with_reducible apply ends_next
    | with_reducible apply ends_fault
    | fail_if_no_progress (with_reducible apply keeps_mk)
    | with_reducible apply keeps_ite
    | with_reducible apply ends_ite
    | split

theorem progApply_keeps {b₀ : State} {s : State} {i sub : Nat} {v : Val} (hb₀ : Keeps b₀ s) : Keeps b₀ (progApply s i sub v) := by
  unfold progApply
  repeat' first
    | with_reducible assumption
    | with_reducible apply putN_keeps
    | with_reducible apply writeV_keeps
    | (extract_lets +onlyGivenNames x; refine keeps_step (r := b₀) (x := x) ?_ (fun hx => ?_); subst x; rotate_left; clear_value x; revert x; intro _ _)
    | fail_if_no_progress (with_reducible apply keeps_mk)
    | with_reducible apply keeps_ite

theorem takePool_keeps {b₀ : State} {s : State} {i : Nat} (hb₀ : Keeps b₀ s) : Keeps b₀ (takePool s i) := by
  unfold takePool
  repeat' first
    | with_reducible assumption
    | with_reducible apply putN_keeps
    | with_reducible apply modCtx_keeps
    | with_reducible apply tilthEntry_keeps
    | (extract_lets +onlyGivenNames x; refine keeps_step (r := b₀) (x := x) ?_ (fun hx => ?_); subst x; rotate_left; clear_value x; revert x; intro _ _)
    | (extract_lets +onlyGivenNames x; clear_value x; revert x; intro _)
    | fail_if_no_progress (with_reducible apply keeps_mk)
    | with_reducible apply keeps_ite

theorem grantCtx_keeps {b₀ : State} {s : State} {i v : Nat} (hb₀ : Keeps b₀ s) : Keeps b₀ (grantCtx s i v) := by
  unfold grantCtx
  repeat' first
    | with_reducible assumption
    | with_reducible apply putN_keeps
    | with_reducible apply modCtx_keeps
    | with_reducible apply dropCtx_keeps
    | fail_if_no_progress (with_reducible apply keeps_mk)
    | with_reducible apply keeps_ite

theorem enableCtx_keeps {b₀ : State} {s : State} {i : Nat} (hb₀ : Keeps b₀ s) : Keeps b₀ (enableCtx s i) := by
  unfold enableCtx
  repeat' first
    | with_reducible assumption
    | with_reducible apply putN_keeps
    | with_reducible apply writeB_keeps
    | with_reducible apply takePool_keeps

theorem disableCtx_keeps {b₀ : State} {s : State} {i : Nat} (hb₀ : Keeps b₀ s) : Keeps b₀ (disableCtx s i) := by
  unfold disableCtx
  repeat' first
    | with_reducible assumption
    | with_reducible apply writeB_keeps
    | with_reducible apply modCtx_keeps

theorem ctxApply_keeps {b₀ : State} {s : State} {i sub v : Nat} (hb₀ : Keeps b₀ s) : Keeps b₀ (ctxApply s i sub v).1 := by
  unfold ctxApply
  repeat' first
    | with_reducible assumption
    | with_reducible apply writeN_keeps
    | with_reducible apply enableWrite_keeps
    | with_reducible apply arbitrate_keeps
    | with_reducible apply preemptReady_keeps
    | with_reducible apply grantCtx_keeps
    | with_reducible apply enableCtx_keeps
    | with_reducible apply disableCtx_keeps
    | (intro x hx; try beta_reduce)
    | (extract_lets +onlyGivenNames x; refine keeps_step (r := b₀) (x := x) ?_ (fun hx => ?_); subst x; rotate_left; clear_value x; revert x; intro _ _)
    | (extract_lets +onlyGivenNames x; clear_value x; revert x; intro _)
    | (extract_lets +onlyGivenNames x; subst x)
    | fail_if_no_progress (with_reducible apply keeps_mk)
    | with_reducible apply keeps_ite
    | with_reducible apply keeps_ite1

end Sys2Proof.Machine
end

