-- ==== Sys2Proof/Laws/KeepsScanout.lean ====
section
/-!
SUPPORT. Each operation of Machine/Scanout.lean keeps the queue and the invariant.
-/

namespace Sys2Proof.Machine

theorem commitBits_keeps {b₀ : State} {s : State} {p bits : Nat} (hb₀ : Keeps b₀ s) : Keeps b₀ (commitBits s p bits) := by
  unfold commitBits
  repeat' first
    | with_reducible assumption
    | with_reducible apply putN_keeps
    | with_reducible apply modPort_keeps
    | (extract_lets +onlyGivenNames x; clear_value x; revert x; intro _)
    | fail_if_no_progress (with_reducible apply keeps_mk)
    | with_reducible apply keeps_ite

theorem answerCommits_keeps {b₀ : State} {s : State} (hb₀ : Keeps b₀ s) : Keeps b₀ (answerCommits s) := by
  unfold answerCommits
  repeat' first
    | with_reducible assumption
    | with_reducible apply complete_keeps
    | with_reducible apply completeR_keeps
    | with_reducible apply foldl_keeps
    | with_reducible apply foldl_keeps1
    | (intro x a hx; try beta_reduce)
    | (extract_lets +onlyGivenNames x; clear_value x; revert x; intro _)
    | fail_if_no_progress (with_reducible apply keeps_mk)
    | with_reducible apply keeps_ite

theorem commitTaken_keeps {b₀ : State} {s : State} {p taken : Nat} (hb₀ : Keeps b₀ s) : Keeps b₀ (commitTaken s p taken) := by
  unfold commitTaken
  repeat' first
    | with_reducible assumption
    | with_reducible apply answerCommits_keeps
    | fail_if_no_progress (with_reducible apply keeps_mk)

theorem commitLeft_keeps {b₀ : State} {s : State} {p : Nat} (hb₀ : Keeps b₀ s) : Keeps b₀ (commitLeft s p) := by
  unfold commitLeft
  repeat' first
    | with_reducible assumption
    | with_reducible apply answerCommits_keeps
    | fail_if_no_progress (with_reducible apply keeps_mk)

theorem modeChangeDone_keeps {b₀ : State} {s : State} {p result : Nat} (hb₀ : Keeps b₀ s) : Keeps b₀ (modeChangeDone s p result) := by
  unfold modeChangeDone
  repeat' first
    | with_reducible assumption
    | with_reducible apply emit_keeps

theorem modeChangeBegin_keeps {b₀ : State} {s : State} {p old new cause : Nat} (hb₀ : Keeps b₀ s) : Keeps b₀ (modeChangeBegin s p old new cause) := by
  unfold modeChangeBegin
  repeat' first
    | with_reducible assumption
    | with_reducible apply emit_keeps
    | with_reducible apply gapBegin_keeps

theorem take_keeps {b₀ : State} {s : State} {p : Nat} {opening events : Bool} (hb₀ : Keeps b₀ s) : Keeps b₀ (take s p opening events) := by
  unfold take
  repeat' first
    | with_reducible assumption
    | with_reducible apply putN_keeps
    | with_reducible apply bumpBy_keeps
    | with_reducible apply modPort_keeps
    | with_reducible apply emit_keeps
    | with_reducible apply recomputeRuns_keeps
    | with_reducible apply applyPlan_keeps
    | with_reducible apply blinkTake_keeps
    | with_reducible apply kaolinTake_keeps
    | with_reducible apply commitTaken_keeps
    | (extract_lets +onlyGivenNames x; refine keeps_step (r := b₀) (x := x) ?_ (fun hx => ?_); subst x; rotate_left; clear_value x; revert x; intro _ _)
    | fail_if_no_progress (with_reducible apply keeps_mk)
    | with_reducible apply keeps_ite

theorem openTiming_keeps {b₀ : State} {s : State} {p : Nat} (hb₀ : Keeps b₀ s) : Keeps b₀ (openTiming s p) := by
  unfold openTiming
  repeat' first
    | with_reducible assumption
    | with_reducible apply putN_keeps
    | with_reducible apply modPort_keeps
    | with_reducible apply take_keeps
    | fail_if_no_progress (with_reducible apply keeps_mk)
    | with_reducible apply keeps_ite

theorem beginTraining_keeps {b₀ : State} {s : State} {p : Nat} {count : Bool} (hb₀ : Keeps b₀ s) : Keeps b₀ (beginTraining s p count) := by
  unfold beginTraining
  repeat' first
    | with_reducible assumption
    | with_reducible apply putN_keeps
    | with_reducible apply bump_keeps
    | with_reducible apply modPort_keeps
    | fail_if_no_progress (with_reducible apply keeps_mk)
    | with_reducible apply keeps_ite

theorem openOrWait_keeps {b₀ : State} {s : State} {p : Nat} (hb₀ : Keeps b₀ s) : Keeps b₀ (openOrWait s p) := by
  unfold openOrWait
  repeat' first
    | with_reducible assumption
    | with_reducible apply modPort_keeps
    | with_reducible apply openTiming_keeps
    | fail_if_no_progress (with_reducible apply keeps_mk)
    | with_reducible apply keeps_ite

theorem trainOrOpen_keeps {b₀ : State} {s : State} {p : Nat} {count : Bool} (hb₀ : Keeps b₀ s) : Keeps b₀ (trainOrOpen s p count) := by
  unfold trainOrOpen
  repeat' first
    | with_reducible assumption
    | with_reducible apply putN_keeps
    | with_reducible apply modPort_keeps
    | with_reducible apply beginTraining_keeps
    | with_reducible apply openOrWait_keeps
    | fail_if_no_progress (with_reducible apply keeps_mk)
    | with_reducible apply keeps_ite

theorem bindEngine_keeps {b₀ : State} {s : State} {p e : Nat} (hb₀ : Keeps b₀ s) : Keeps b₀ (bindEngine s p e) := by
  unfold bindEngine
  repeat' first
    | with_reducible assumption
    | with_reducible apply putN_keeps
    | with_reducible apply modPort_keeps
    | with_reducible apply tilthEntry_keeps
    | fail_if_no_progress (with_reducible apply keeps_mk)

theorem outputOff_keeps {b₀ : State} {s : State} {p : Nat} (hb₀ : Keeps b₀ s) : Keeps b₀ (outputOff s p) := by
  unfold outputOff
  repeat' first
    | with_reducible assumption
    | with_reducible apply putN_keeps
    | with_reducible apply putB_keeps
    | with_reducible apply modPort_keeps
    | with_reducible apply settle_keeps
    | with_reducible apply recomputeRuns_keeps
    | with_reducible apply commitLeft_keeps
    | with_reducible apply foldN_keeps
    | (intro x a hx; try beta_reduce)

theorem noEngineLeft_keeps {b₀ : State} {s : State} {p : Nat} (hb₀ : Keeps b₀ s) : Keeps b₀ (noEngineLeft s p) := by
  unfold noEngineLeft
  repeat' first
    | with_reducible assumption
    | with_reducible apply writeB_keeps
    | with_reducible apply modPort_keeps
    | with_reducible apply raiseClass_keeps
    | with_reducible apply updateHealth_keeps
    | with_reducible apply modeChangeDone_keeps
    | with_reducible apply outputOff_keeps

theorem tryStart_keeps {b₀ : State} {s : State} {p : Nat} (hb₀ : Keeps b₀ s) : Keeps b₀ (tryStart s p) := by
  unfold tryStart
  repeat' first
    | with_reducible assumption
    | with_reducible apply trainOrOpen_keeps
    | with_reducible apply bindEngine_keeps
    | (extract_lets +onlyGivenNames x; clear_value x; revert x; intro _)
    | fail_if_no_progress (with_reducible apply keeps_mk)
    | with_reducible apply keeps_ite
    | split

theorem chooseEngine_keeps {b₀ : State} {s : State} {p : Nat} (hb₀ : Keeps b₀ s) : Keeps b₀ (chooseEngine s p).1 := by
  unfold chooseEngine
  repeat' first
    | with_reducible assumption
    | with_reducible apply bump_keeps
    | with_reducible apply substitute_keeps
    | fail_if_no_progress (with_reducible apply keeps_mk)
    | with_reducible apply keeps_ite
    | with_reducible apply keeps_ite1
    | split

theorem beginStart_keeps {b₀ : State} {s : State} {p : Nat} (hb₀ : Keeps b₀ s) : Keeps b₀ (beginStart s p) := by
  unfold beginStart
  repeat' first
    | with_reducible assumption
    | with_reducible apply putN_keeps
    | with_reducible apply modPort_keeps
    | with_reducible apply settle_keeps
    | with_reducible apply recomputeRuns_keeps
    | with_reducible apply noEngineLeft_keeps
    | with_reducible apply chooseEngine_keeps
    | with_reducible apply shed_keeps
    | (extract_lets +onlyGivenNames x; refine keeps_step (r := b₀) (x := x) ?_ (fun hx => ?_); subst x; rotate_left; clear_value x; revert x; intro _ _)
    | with_reducible refine keeps_fst (by with_reducible assumption) ?_
    | fail_if_no_progress (with_reducible apply keeps_mk)
    | with_reducible apply keeps_ite
    | split

theorem startOutput_keeps {b₀ : State} {s : State} {p : Nat} (hb₀ : Keeps b₀ s) : Keeps b₀ (startOutput s p) := by
  unfold startOutput
  repeat' first
    | with_reducible assumption
    | with_reducible apply putN_keeps
    | with_reducible apply modPort_keeps
    | with_reducible apply beginStart_keeps
    | with_reducible apply foldl_keeps
    | with_reducible apply foldl_keeps1
    | (intro x a hx; try beta_reduce)

theorem beginTransition_keeps {b₀ : State} {s : State} {p cause : Nat} (hb₀ : Keeps b₀ s) : Keeps b₀ (beginTransition s p cause) := by
  unfold beginTransition
  repeat' first
    | with_reducible assumption
    | with_reducible apply putN_keeps
    | with_reducible apply modPort_keeps

theorem latchShadow_keeps {b₀ : State} {s : State} {p : Nat} (hb₀ : Keeps b₀ s) : Keeps b₀ (latchShadow s p) := by
  unfold latchShadow
  repeat' first
    | with_reducible assumption
    | with_reducible apply modPort_keeps

theorem stopOutput_keeps {b₀ : State} {s : State} {p : Nat} (hb₀ : Keeps b₀ s) : Keeps b₀ (stopOutput s p) := by
  unfold stopOutput
  repeat' first
    | with_reducible assumption
    | with_reducible apply putN_keeps
    | with_reducible apply modPort_keeps
    | with_reducible apply settle_keeps
    | with_reducible apply recomputeRuns_keeps
    | with_reducible apply modeChangeDone_keeps
    | with_reducible apply latchShadow_keeps
    | fail_if_no_progress (with_reducible apply keeps_mk)
    | with_reducible apply keeps_ite

theorem finishStop_keeps {b₀ : State} {s : State} {p : Nat} (hb₀ : Keeps b₀ s) : Keeps b₀ (finishStop s p) := by
  unfold finishStop
  repeat' first
    | with_reducible assumption
    | with_reducible apply resolved_keeps
    | with_reducible apply outputOff_keeps
    | with_reducible apply startOutput_keeps
    | (extract_lets +onlyGivenNames x; refine keeps_step (r := b₀) (x := x) ?_ (fun hx => ?_); subst x; rotate_left; clear_value x; revert x; intro _ _)
    | fail_if_no_progress (with_reducible apply keeps_mk)
    | with_reducible apply keeps_ite

theorem trySpare_keeps {b₀ : State} {s : State} {p : Nat} (hb₀ : Keeps b₀ s) : Keeps b₀ (trySpare s p) := by
  unfold trySpare
  repeat' first
    | with_reducible assumption
    | with_reducible apply settle_keeps
    | with_reducible apply openTiming_keeps
    | with_reducible apply bindEngine_keeps
    | (extract_lets +onlyGivenNames x; refine keeps_step (r := b₀) (x := x) ?_ (fun hx => ?_); subst x; rotate_left; clear_value x; revert x; intro _ _)
    | (extract_lets +onlyGivenNames x; clear_value x; revert x; intro _)
    | fail_if_no_progress (with_reducible apply keeps_mk)
    | with_reducible apply keeps_ite
    | split

theorem spareFor_keeps {b₀ : State} {s : State} {p n : Nat} (hb₀ : Keeps b₀ s) : Keeps b₀ (spareFor s p n) := by
  unfold spareFor
  repeat' first
    | with_reducible assumption
    | with_reducible apply putN_keeps
    | with_reducible apply modPort_keeps
    | with_reducible apply settle_keeps
    | with_reducible apply modeChangeBegin_keeps
    | with_reducible apply trySpare_keeps
    | (extract_lets +onlyGivenNames x; refine keeps_step (r := b₀) (x := x) ?_ (fun hx => ?_); subst x; rotate_left; clear_value x; revert x; intro _ _)
    | (extract_lets +onlyGivenNames x; clear_value x; revert x; intro _)
    | fail_if_no_progress (with_reducible apply keeps_mk)
    | with_reducible apply keeps_ite

theorem engineLost_keeps {b₀ : State} {s : State} {e : Nat} {passing : Nat → Bool} (hb₀ : Keeps b₀ s) : Keeps b₀ (engineLost s e passing) := by
  unfold engineLost
  repeat' first
    | with_reducible assumption
    | with_reducible apply bump_keeps
    | with_reducible apply interruptTw_keeps
    | with_reducible apply substitute_keeps
    | with_reducible apply retireUnit_keeps
    | with_reducible apply trySpares_keeps
    | with_reducible apply noEngineLeft_keeps
    | with_reducible apply spareFor_keeps
    | (extract_lets +onlyGivenNames x; refine keeps_step (r := b₀) (x := x) ?_ (fun hx => ?_); subst x; rotate_left; clear_value x; revert x; intro _ _)
    | (extract_lets +onlyGivenNames x; clear_value x; revert x; intro _)
    | with_reducible refine keeps_fst (by with_reducible assumption) ?_
    | fail_if_no_progress (with_reducible apply keeps_mk)
    | with_reducible apply keeps_ite
    | split

theorem closePoint_keeps {b₀ : State} {s : State} {p : Nat} (hb₀ : Keeps b₀ s) : Keeps b₀ (closePoint s p) := by
  unfold closePoint
  repeat' first
    | with_reducible assumption
    | with_reducible apply latchShadow_keeps
    | (extract_lets +onlyGivenNames x; clear_value x; revert x; intro _)
    | fail_if_no_progress (with_reducible apply keeps_mk)
    | with_reducible apply keeps_ite

theorem execClosePoint_keeps {b₀ : State} {p : Fin 8} {s : State} (hb₀ : Keeps b₀ s) : Ends b₀ (execClosePoint p s) := by
  unfold execClosePoint
  repeat' first
    | with_reducible assumption
    | with_reducible apply closePoint_keeps
    | with_reducible apply ends_next

theorem vbsMark_keeps {b₀ : State} {s : State} {p : Nat} (hb₀ : Keeps b₀ s) : Keeps b₀ (vbsMark s p) := by
  unfold vbsMark
  repeat' first
    | with_reducible assumption
    | with_reducible apply modPort_keeps

theorem stopTiming_keeps {b₀ : State} {s : State} {p : Nat} (hb₀ : Keeps b₀ s) : Keeps b₀ (stopTiming s p) := by
  unfold stopTiming
  repeat' first
    | with_reducible assumption
    | with_reducible apply modPort_keeps

theorem endBlack_keeps {b₀ : State} {s : State} {p : Nat} (hb₀ : Keeps b₀ s) : Keeps b₀ (endBlack s p) := by
  unfold endBlack
  repeat' first
    | with_reducible assumption
    | with_reducible apply modPort_keeps
    | with_reducible apply openTiming_keeps
    | with_reducible apply trainOrOpen_keeps
    | with_reducible apply vbsMark_keeps
    | (extract_lets +onlyGivenNames x; clear_value x; revert x; intro _)
    | fail_if_no_progress (with_reducible apply keeps_mk)
    | with_reducible apply keeps_ite

theorem vbs_keeps {b₀ : State} {s : State} {p : Nat} (hb₀ : Keeps b₀ s) : Keeps b₀ (vbs s p) := by
  unfold vbs
  repeat' first
    | with_reducible assumption
    | with_reducible apply modPort_keeps
    | with_reducible apply scanPoison_keeps
    | with_reducible apply modeChangeBegin_keeps
    | with_reducible apply take_keeps
    | with_reducible apply closePoint_keeps
    | with_reducible apply vbsMark_keeps
    | with_reducible apply stopTiming_keeps
    | with_reducible apply endBlack_keeps
    | (extract_lets +onlyGivenNames x; refine keeps_step (r := b₀) (x := x) ?_ (fun hx => ?_); subst x; rotate_left; clear_value x; revert x; intro _ _)
    | (extract_lets +onlyGivenNames x; clear_value x; revert x; intro _)
    | fail_if_no_progress (with_reducible apply keeps_mk)
    | with_reducible apply keeps_ite
    | split

theorem firstTelltale_keeps {b₀ : State} {s : State} {p : Nat} (hb₀ : Keeps b₀ s) : Keeps b₀ (firstTelltale s p) := by
  unfold firstTelltale
  repeat' first
    | with_reducible assumption
    | with_reducible apply putN_keeps
    | fail_if_no_progress (with_reducible apply keeps_mk)
    | with_reducible apply keeps_ite

theorem frameStart_keeps {b₀ : State} {s : State} {p : Nat} (hb₀ : Keeps b₀ s) : Keeps b₀ (frameStart s p) := by
  unfold frameStart
  repeat' first
    | with_reducible assumption
    | with_reducible apply putN_keeps
    | with_reducible apply bump_keeps
    | with_reducible apply modPort_keeps
    | with_reducible apply gapEnd_keeps
    | with_reducible apply modeChangeDone_keeps
    | with_reducible apply beginTransition_keeps
    | with_reducible apply firstTelltale_keeps
    | (extract_lets +onlyGivenNames x; refine keeps_step (r := b₀) (x := x) ?_ (fun hx => ?_); subst x; rotate_left; clear_value x; revert x; intro _ _)
    | (extract_lets +onlyGivenNames x; clear_value x; revert x; intro _)
    | fail_if_no_progress (with_reducible apply keeps_mk)
    | with_reducible apply keeps_ite

theorem execFrameStart_keeps {b₀ : State} {p : Fin 8} {s : State} (hb₀ : Keeps b₀ s) : Ends b₀ (execFrameStart p s) := by
  unfold execFrameStart
  repeat' first
    | with_reducible assumption
    | with_reducible apply frameStart_keeps
    | with_reducible apply ends_next

theorem execLineMatch_keeps {b₀ : State} {p : Fin 8} {s : State} (hb₀ : Keeps b₀ s) : Ends b₀ (execLineMatch p s) := by
  unfold execLineMatch
  repeat' first
    | with_reducible assumption
    | with_reducible apply modPort_keeps
    | with_reducible apply emit_keeps
    | with_reducible apply ends_next
    | with_reducible apply ends_fault
    | (extract_lets +onlyGivenNames x; clear_value x; revert x; intro _)
    | fail_if_no_progress (with_reducible apply keeps_mk)
    | with_reducible apply keeps_ite
    | with_reducible apply ends_ite

theorem execFrameDone_keeps {b₀ : State} {p : Fin 8} {s : State} (hb₀ : Keeps b₀ s) : Ends b₀ (execFrameDone p s) := by
  unfold execFrameDone
  repeat' first
    | with_reducible assumption
    | with_reducible apply modPort_keeps
    | with_reducible apply emit_keeps
    | with_reducible apply ends_next
    | with_reducible apply ends_fault
    | (extract_lets +onlyGivenNames x; refine keeps_step (r := b₀) (x := x) ?_ (fun hx => ?_); subst x; rotate_left; clear_value x; revert x; intro _ _)
    | (extract_lets +onlyGivenNames x; clear_value x; revert x; intro _)
    | fail_if_no_progress (with_reducible apply keeps_mk)
    | with_reducible apply keeps_ite
    | with_reducible apply ends_ite

theorem execUnderrun_keeps {b₀ : State} {p : Fin 8} {line : BitVec 16} {stream : Fin 7} {pixel : BitVec 16} {s : State} (hb₀ : Keeps b₀ s) : Ends b₀ (execUnderrun p line stream pixel s) := by
  unfold execUnderrun
  repeat' first
    | with_reducible assumption
    | with_reducible apply bump_keeps
    | with_reducible apply modPort_keeps
    | with_reducible apply emit_keeps
    | with_reducible apply ends_next
    | with_reducible apply ends_fault
    | (extract_lets +onlyGivenNames x; refine keeps_step (r := b₀) (x := x) ?_ (fun hx => ?_); subst x; rotate_left; clear_value x; revert x; intro _ _)
    | (extract_lets +onlyGivenNames x; clear_value x; revert x; intro _)
    | fail_if_no_progress (with_reducible apply keeps_mk)
    | with_reducible apply keeps_ite
    | with_reducible apply ends_ite

theorem execOutputStopDone_keeps {b₀ : State} {p : Fin 8} {s : State} (hb₀ : Keeps b₀ s) : Ends b₀ (execOutputStopDone p s) := by
  unfold execOutputStopDone
  repeat' first
    | with_reducible assumption
    | with_reducible apply finishStop_keeps
    | with_reducible apply ends_next
    | with_reducible apply ends_fault
    | fail_if_no_progress (with_reducible apply keeps_mk)
    | with_reducible apply keeps_ite
    | with_reducible apply ends_ite

theorem trainingDone_keeps {b₀ : State} {s : State} {p : Nat} {ok : Bool} {edid : List Byte} (hb₀ : Keeps b₀ s) : Keeps b₀ (trainingDone s p ok edid) := by
  unfold trainingDone
  repeat' first
    | with_reducible assumption
    | with_reducible apply putV_keeps
    | with_reducible apply putN_keeps
    | with_reducible apply bump_keeps
    | with_reducible apply modPort_keeps
    | with_reducible apply openOrWait_keeps
    | (extract_lets +onlyGivenNames x; refine keeps_step (r := b₀) (x := x) ?_ (fun hx => ?_); subst x; rotate_left; clear_value x; revert x; intro _ _)
    | (extract_lets +onlyGivenNames x; clear_value x; revert x; intro _)
    | fail_if_no_progress (with_reducible apply keeps_mk)
    | with_reducible apply keeps_ite
    | split

theorem execLinkTrainingDone_keeps {b₀ : State} {p : Fin 8} {ok : Bool} {edid : List Byte} {s : State} (hb₀ : Keeps b₀ s) : Ends b₀ (execLinkTrainingDone p ok edid s) := by
  unfold execLinkTrainingDone
  repeat' first
    | with_reducible assumption
    | with_reducible apply trainingDone_keeps
    | with_reducible apply ends_next

theorem execLinkRetryTimer_keeps {b₀ : State} {p : Fin 8} {s : State} (hb₀ : Keeps b₀ s) : Ends b₀ (execLinkRetryTimer p s) := by
  unfold execLinkRetryTimer
  repeat' first
    | with_reducible assumption
    | with_reducible apply modPort_keeps
    | with_reducible apply beginTraining_keeps
    | with_reducible apply ends_next
    | with_reducible apply ends_fault
    | (extract_lets +onlyGivenNames x; clear_value x; revert x; intro _)
    | fail_if_no_progress (with_reducible apply keeps_mk)
    | with_reducible apply keeps_ite
    | with_reducible apply ends_ite

theorem execHpdRise_keeps {b₀ : State} {p : Fin 8} {s : State} (hb₀ : Keeps b₀ s) : Ends b₀ (execHpdRise p s) := by
  unfold execHpdRise
  repeat' first
    | with_reducible assumption
    | with_reducible apply modPort_keeps
    | with_reducible apply beginTransition_keeps
    | with_reducible apply ends_next
    | with_reducible apply ends_fault
    | (extract_lets +onlyGivenNames x; refine keeps_step (r := b₀) (x := x) ?_ (fun hx => ?_); subst x; rotate_left; clear_value x; revert x; intro _ _)
    | fail_if_no_progress (with_reducible apply keeps_mk)
    | with_reducible apply keeps_ite
    | with_reducible apply ends_ite

theorem linkLost_keeps {b₀ : State} {s : State} {p : Nat} (hb₀ : Keeps b₀ s) : Keeps b₀ (linkLost s p) := by
  unfold linkLost
  repeat' first
    | with_reducible assumption
    | with_reducible apply putN_keeps
    | with_reducible apply modPort_keeps
    | with_reducible apply openOrWait_keeps
    | (extract_lets +onlyGivenNames x; refine keeps_step (r := b₀) (x := x) ?_ (fun hx => ?_); subst x; rotate_left; clear_value x; revert x; intro _ _)
    | (extract_lets +onlyGivenNames x; clear_value x; revert x; intro _)
    | fail_if_no_progress (with_reducible apply keeps_mk)
    | with_reducible apply keeps_ite

theorem execHpdFall_keeps {b₀ : State} {p : Fin 8} {pulseUs : Nat} {lockLost : Bool} {s : State} (hb₀ : Keeps b₀ s) : Ends b₀ (execHpdFall p pulseUs lockLost s) := by
  unfold execHpdFall
  repeat' first
    | with_reducible assumption
    | with_reducible apply modPort_keeps
    | with_reducible apply linkLost_keeps
    | with_reducible apply ends_next
    | with_reducible apply ends_fault
    | fail_if_no_progress (with_reducible apply keeps_mk)
    | with_reducible apply keeps_ite
    | with_reducible apply ends_ite

theorem execEngineFault_keeps {b₀ : State} {e : Fin 9} {retryPasses : Bool} {sparePasses : List (Fin 9)} {s : State} (hb₀ : Keeps b₀ s) : Ends b₀ (execEngineFault e retryPasses sparePasses s) := by
  unfold execEngineFault
  repeat' first
    | with_reducible assumption
    | with_reducible apply engineLost_keeps
    | with_reducible apply ends_next
    | with_reducible apply ends_fault
    | fail_if_no_progress (with_reducible apply keeps_mk)
    | with_reducible apply keeps_ite
    | with_reducible apply ends_ite

theorem execLayerSet_keeps {b₀ : State} {h : CmdHdr} {y : LayerSetPayload} {s : State} (hb₀ : Keeps b₀ s) : Ends b₀ (execLayerSet h y s) := by
  unfold execLayerSet
  repeat' first
    | with_reducible assumption
    | with_reducible apply completeOpen_keeps
    | with_reducible refine (droppedBy_keeps ?_).keeps _ (by with_reducible assumption)
    | with_reducible apply beginCmd_keeps
    | with_reducible apply layerSetApply_keeps
    | with_reducible apply commitBits_keeps
    | with_reducible apply ends_next
    | with_reducible apply ends_fault
    | (extract_lets +onlyGivenNames x; refine keeps_step (r := b₀) (x := x) ?_ (fun hx => ?_); subst x; rotate_left; clear_value x; revert x; intro _ _)
    | with_reducible refine keeps_fst (by with_reducible assumption) ?_
    | fail_if_no_progress (with_reducible apply keeps_mk)
    | with_reducible apply keeps_ite
    | with_reducible apply ends_ite
    | split

theorem execCommit_keeps {b₀ : State} {h : CmdHdr} {ports : BitVec 8} {s : State} (hb₀ : Keeps b₀ s) : Ends b₀ (execCommit h ports s) := by
  unfold execCommit
  repeat' first
    | with_reducible assumption
    | with_reducible apply completeOpen_keeps
    | with_reducible refine (droppedBy_keeps ?_).keeps _ (by with_reducible assumption)
    | with_reducible apply beginCmd_keeps
    | with_reducible apply commitBits_keeps
    | with_reducible apply answerCommits_keeps
    | with_reducible apply ends_next
    | with_reducible apply ends_fault
    | with_reducible apply foldN_keeps
    | with_reducible apply foldl_keeps
    | with_reducible apply foldl_keeps1
    | (intro x a hx; try beta_reduce)
    | (extract_lets +onlyGivenNames x; refine keeps_step (r := b₀) (x := x) ?_ (fun hx => ?_); subst x; rotate_left; clear_value x; revert x; intro _ _)
    | (extract_lets +onlyGivenNames x; clear_value x; revert x; intro _)
    | with_reducible refine keeps_fst (by with_reducible assumption) ?_
    | fail_if_no_progress (with_reducible apply keeps_mk)
    | with_reducible apply keeps_ite
    | with_reducible apply ends_ite
    | split

theorem execKaolinSramWrite_keeps {b₀ : State} {addr : Nat} {data : List Byte} {s : State} (hb₀ : Keeps b₀ s) :
    Ends b₀ (execKaolinSramWrite addr data s) := by
  unfold execKaolinSramWrite
  split
  · exact ends_fault _
  · split
    · exact ends_next (hb₀.trans ⟨rfl, fun i => { i with kram := memSetAll_wf _ _ i.kram, free := i.free }⟩)
    · exact ends_next hb₀

theorem execSigCompare_keeps {b₀ : State} {p : Fin 8} {r : Fin 32} {seen : Option (BitVec 32)} {s : State} (hb₀ : Keeps b₀ s) : Ends b₀ (execSigCompare p r seen s) := by
  unfold execSigCompare
  repeat' first
    | with_reducible assumption
    | with_reducible apply modPort_keeps
    | with_reducible apply compareSig_keeps
    | with_reducible apply ends_next
    | with_reducible apply ends_fault
    | (extract_lets +onlyGivenNames x; refine keeps_step (r := b₀) (x := x) ?_ (fun hx => ?_); subst x; rotate_left; clear_value x; revert x; intro _ _)
    | (extract_lets +onlyGivenNames x; clear_value x; revert x; intro _)
    | fail_if_no_progress (with_reducible apply keeps_mk)
    | with_reducible apply keeps_ite
    | with_reducible apply ends_ite

end Sys2Proof.Machine
end

