-- ==== Sys2Proof/Laws/KeepsSessions.lean ====
section
/-!
SUPPORT. Each operation of Machine/Sessions.lean keeps the queue and the invariant.
-/

namespace Sys2Proof.Machine

theorem closeWhere_keeps {b₀ : State} {s : State} {p : Session → Bool} (hb₀ : Keeps b₀ s) : Keeps b₀ (closeWhere s p) := by
  unfold closeWhere
  repeat' first
    | with_reducible assumption
    | with_reducible apply closeSession_keeps
    | with_reducible apply foldN_keeps

end Sys2Proof.Machine
end

