-- ==== Sys2Proof/Laws/KeepsFabric.lean ====
section
/-!
SUPPORT. Each operation of Machine/Fabric.lean keeps the queue and the invariant.
-/

namespace Sys2Proof.Machine

theorem modLink_keeps {b₀ : State} {s : State} {l : Nat} {g : LinkSt → LinkSt} (hb₀ : Keeps b₀ s) : Keeps b₀ (modLink s l g) := by
  unfold modLink
  repeat' first
    | with_reducible assumption
    | (extract_lets +onlyGivenNames x; clear_value x; revert x; intro _)
    | fail_if_no_progress (with_reducible apply keeps_mk)

theorem modFab_keeps {b₀ : State} {s : State} {g : Fab → Fab} (hb₀ : Keeps b₀ s) : Keeps b₀ (modFab s g) := by
  unfold modFab
  repeat' first
    | with_reducible assumption
    | fail_if_no_progress (with_reducible apply keeps_mk)

theorem setLink_keeps {b₀ : State} {s : State} {l st lanes : Nat} (hb₀ : Keeps b₀ s) : Keeps b₀ (setLink s l st lanes) := by
  unfold setLink
  repeat' first
    | with_reducible assumption
    | with_reducible apply putN_keeps
    | with_reducible apply emit_keeps
    | with_reducible apply updateHealth_keeps
    | (extract_lets +onlyGivenNames x; refine keeps_step (r := b₀) (x := x) ?_ (fun hx => ?_); subst x; rotate_left; clear_value x; revert x; intro _ _)
    | (extract_lets +onlyGivenNames x; clear_value x; revert x; intro _)
    | fail_if_no_progress (with_reducible apply keeps_mk)
    | with_reducible apply keeps_ite

theorem computeRoutes_keeps {b₀ : State} {s : State} (hb₀ : Keeps b₀ s) : Keeps b₀ (computeRoutes s) := by
  unfold computeRoutes
  repeat' first
    | with_reducible assumption
    | with_reducible apply putN_keeps
    | with_reducible apply foldN_keeps
    | (intro x a hx; try beta_reduce)

theorem topologyChanged_keeps {b₀ : State} {s : State} (hb₀ : Keeps b₀ s) : Keeps b₀ (topologyChanged s) := by
  unfold topologyChanged
  repeat' first
    | with_reducible assumption
    | with_reducible apply putN_keeps
    | with_reducible apply modFab_keeps
    | with_reducible apply computeRoutes_keeps
    | (extract_lets +onlyGivenNames x; refine keeps_step (r := b₀) (x := x) ?_ (fun hx => ?_); subst x; rotate_left; clear_value x; revert x; intro _ _)
    | (extract_lets +onlyGivenNames x; clear_value x; revert x; intro _)
    | fail_if_no_progress (with_reducible apply keeps_mk)
    | with_reducible apply keeps_ite

theorem fabricCut_keeps {b₀ : State} {s : State} (hb₀ : Keeps b₀ s) : Keeps b₀ (fabricCut s) := by
  unfold fabricCut
  repeat' first
    | with_reducible assumption
    | with_reducible apply putN_keeps
    | with_reducible apply bump_keeps
    | with_reducible apply modLink_keeps
    | with_reducible apply modFab_keeps
    | with_reducible apply setLink_keeps
    | with_reducible apply computeRoutes_keeps
    | with_reducible apply foldN_keeps
    | (intro x a hx; try beta_reduce)
    | fail_if_no_progress (with_reducible apply keeps_mk)
    | with_reducible apply keeps_ite

theorem linkQueued_keeps {b₀ : State} {s : State} {l : Nat} (hb₀ : Keeps b₀ s) : Keeps b₀ (linkQueued s l) := by
  unfold linkQueued
  repeat' first
    | with_reducible assumption
    | with_reducible apply resolved_keeps
    | fail_if_no_progress (with_reducible apply keeps_mk)
    | with_reducible apply keeps_ite

theorem nodeEvents_keeps {b₀ : State} {s : State} {old new : List (Nat × Nat)} (hb₀ : Keeps b₀ s) : Keeps b₀ (nodeEvents s old new) := by
  unfold nodeEvents
  repeat' first
    | with_reducible assumption
    | with_reducible apply emit_keeps
    | with_reducible apply foldl_keeps
    | with_reducible apply foldl_keeps1
    | (intro x a hx; try beta_reduce)

theorem settleFabric_keeps {b₀ : State} {s : State} (hb₀ : Keeps b₀ s) : Keeps b₀ (settleFabric s) := by
  unfold settleFabric
  repeat' first
    | with_reducible assumption
    | with_reducible apply putN_keeps
    | with_reducible apply emit_keeps
    | with_reducible apply closeWhere_keeps
    | with_reducible apply modFab_keeps
    | with_reducible apply computeRoutes_keeps
    | with_reducible apply nodeEvents_keeps
    | with_reducible apply foldN_keeps
    | with_reducible apply foldl_keeps
    | with_reducible apply foldl_keeps1
    | (intro x a hx; try beta_reduce)
    | fail_if_no_progress (with_reducible apply keeps_mk)
    | with_reducible apply keeps_ite

theorem settleAlone_keeps {b₀ : State} {s : State} (hb₀ : Keeps b₀ s) : Keeps b₀ (settleAlone s) := by
  unfold settleAlone
  repeat' first
    | with_reducible assumption
    | with_reducible apply putN_keeps
    | with_reducible apply settleFabric_keeps
    | fail_if_no_progress (with_reducible apply keeps_mk)
    | with_reducible apply keeps_ite

theorem fabricOn_keeps {b₀ : State} {s : State} (hb₀ : Keeps b₀ s) : Keeps b₀ (fabricOn s) := by
  unfold fabricOn
  repeat' first
    | with_reducible assumption
    | with_reducible apply putN_keeps
    | with_reducible apply topologyChanged_keeps
    | with_reducible apply settleAlone_keeps
    | fail_if_no_progress (with_reducible apply keeps_mk)
    | with_reducible apply keeps_ite

theorem linkFalls_keeps {b₀ : State} {s : State} {l : Nat} (hb₀ : Keeps b₀ s) : Keeps b₀ (linkFalls s l) := by
  unfold linkFalls
  repeat' first
    | with_reducible assumption
    | with_reducible apply putN_keeps
    | with_reducible apply bump_keeps
    | with_reducible apply bumpBy_keeps
    | with_reducible apply modLink_keeps
    | with_reducible apply setLink_keeps
    | with_reducible apply topologyChanged_keeps
    | with_reducible apply settleAlone_keeps
    | fail_if_no_progress (with_reducible apply keeps_mk)
    | with_reducible apply keeps_ite

theorem execLinkBringUp_keeps {b₀ : State} {l : Fin 4} {s : State} (hb₀ : Keeps b₀ s) : Ends b₀ (execLinkBringUp l s) := by
  unfold execLinkBringUp
  repeat' first
    | with_reducible assumption
    | with_reducible apply setLink_keeps
    | with_reducible apply ends_next
    | with_reducible apply ends_fault
    | fail_if_no_progress (with_reducible apply keeps_mk)
    | with_reducible apply keeps_ite
    | with_reducible apply ends_ite

theorem spareLanes_keeps {b₀ : State} {s : State} {l : Nat} {good : List Nat} (hb₀ : Keeps b₀ s) : Keeps b₀ (spareLanes s l good) := by
  unfold spareLanes
  repeat' first
    | with_reducible assumption
    | with_reducible apply putN_keeps
    | with_reducible apply substitute_keeps
    | with_reducible apply retireUnit_keeps
    | with_reducible apply failSpare_keeps
    | with_reducible apply foldl_keeps
    | with_reducible apply foldl_keeps1
    | (intro x a hx; try beta_reduce)
    | (extract_lets +onlyGivenNames x; clear_value x; revert x; intro _)
    | fail_if_no_progress (with_reducible apply keeps_mk)
    | with_reducible apply keeps_ite

theorem execLaneTrainingDone_keeps {b₀ : State} {l : Fin 4} {good : List (Fin 5)} {reversed : Bool} {inverted : List (Fin 5)} {s : State} (hb₀ : Keeps b₀ s) : Ends b₀ (execLaneTrainingDone l good reversed inverted s) := by
  unfold execLaneTrainingDone
  repeat' first
    | with_reducible assumption
    | with_reducible apply emit_keeps
    | with_reducible apply modLink_keeps
    | with_reducible apply setLink_keeps
    | with_reducible apply topologyChanged_keeps
    | with_reducible apply spareLanes_keeps
    | with_reducible apply ends_next
    | with_reducible apply ends_fault
    | (extract_lets +onlyGivenNames x; refine keeps_step (r := b₀) (x := x) ?_ (fun hx => ?_); subst x; rotate_left; clear_value x; revert x; intro _ _)
    | (extract_lets +onlyGivenNames x; clear_value x; revert x; intro _)
    | fail_if_no_progress (with_reducible apply keeps_mk)
    | with_reducible apply keeps_ite
    | with_reducible apply ends_ite

theorem execLinkFailedRetry_keeps {b₀ : State} {l : Fin 4} {s : State} (hb₀ : Keeps b₀ s) : Ends b₀ (execLinkFailedRetry l s) := by
  unfold execLinkFailedRetry
  repeat' first
    | with_reducible assumption
    | with_reducible apply setLink_keeps
    | with_reducible apply ends_next
    | with_reducible apply ends_fault
    | fail_if_no_progress (with_reducible apply keeps_mk)
    | with_reducible apply keeps_ite
    | with_reducible apply ends_ite

theorem execLinkHoldExpiry_keeps {b₀ : State} {l : Fin 4} {s : State} (hb₀ : Keeps b₀ s) : Ends b₀ (execLinkHoldExpiry l s) := by
  unfold execLinkHoldExpiry
  repeat' first
    | with_reducible assumption
    | with_reducible apply setLink_keeps
    | with_reducible apply ends_next
    | with_reducible apply ends_fault
    | fail_if_no_progress (with_reducible apply keeps_mk)
    | with_reducible apply keeps_ite
    | with_reducible apply ends_ite

theorem transmit_keeps {b₀ : State} {s : State} {l c : Nat} (hb₀ : Keeps b₀ s) : Keeps b₀ (transmit s l c) := by
  unfold transmit
  repeat' first
    | with_reducible assumption
    | with_reducible apply modLink_keeps
    | fail_if_no_progress (with_reducible apply keeps_mk)
    | with_reducible apply keeps_ite
    | split

theorem serveLink_keeps {b₀ : State} {s : State} {l : Nat} (hb₀ : Keeps b₀ s) : Keeps b₀ (serveLink s l) := by
  unfold serveLink
  repeat' first
    | with_reducible assumption
    | with_reducible apply transmit_keeps
    | fail_if_no_progress (with_reducible apply keeps_mk)
    | with_reducible apply keeps_ite
    | split

theorem sendPacket_keeps {b₀ : State} {s : State} {l : Nat} {p : Packet} (hb₀ : Keeps b₀ s) : Keeps b₀ (sendPacket s l p) := by
  unfold sendPacket
  repeat' first
    | with_reducible assumption
    | with_reducible apply modLink_keeps
    | with_reducible apply serveLink_keeps

theorem linkReturns_keeps {b₀ : State} {s : State} {l : Nat} {acked : Option (BitVec 16)} {credits : List Nat} (hb₀ : Keeps b₀ s) : Keeps b₀ (linkReturns s l acked credits) := by
  unfold linkReturns
  repeat' first
    | with_reducible assumption
    | with_reducible apply modLink_keeps

theorem originate_keeps {b₀ : State} {s : State} {p : Packet} (hb₀ : Keeps b₀ s) : Keeps b₀ (originate s p) := by
  unfold originate
  repeat' first
    | with_reducible assumption
    | with_reducible apply bump_keeps
    | with_reducible apply sendPacket_keeps
    | (extract_lets +onlyGivenNames x; clear_value x; revert x; intro _)
    | fail_if_no_progress (with_reducible apply keeps_mk)
    | with_reducible apply keeps_ite

theorem surfRead_keeps {b₀ : State} {s : State} {p : Packet} (hb₀ : Keeps b₀ s) : Keeps b₀ (surfRead s p) := by
  unfold surfRead
  repeat' first
    | with_reducible assumption
    | with_reducible apply readCells_keeps
    | with_reducible apply originate_keeps
    | with_reducible apply foldl_keeps
    | with_reducible apply foldl_keeps1
    | (extract_lets +onlyGivenNames x; clear_value x; revert x; intro _)
    | with_reducible refine keeps_fst (by with_reducible assumption) ?_
    | fail_if_no_progress (with_reducible apply keeps_mk)
    | with_reducible apply keeps_ite
    | split

theorem switchPacket_keeps {b₀ : State} {s : State} {p : Packet} (hb₀ : Keeps b₀ s) : Keeps b₀ (switchPacket s p) := by
  unfold switchPacket
  repeat' first
    | with_reducible assumption
    | with_reducible apply bump_keeps
    | with_reducible apply sendPacket_keeps
    | with_reducible apply surfRead_keeps
    | with_reducible apply foldN_keeps
    | (intro x a hx; try beta_reduce)
    | (extract_lets +onlyGivenNames x; clear_value x; revert x; intro _)
    | fail_if_no_progress (with_reducible apply keeps_mk)
    | with_reducible apply keeps_ite

theorem execPacketRx_keeps {b₀ : State} {l : Fin 4} {p : Packet} {acked : Option (BitVec 16)} {credits : List Nat} {crcOk replayOk : Bool} {s : State} (hb₀ : Keeps b₀ s) : Ends b₀ (execPacketRx l p acked credits crcOk replayOk s) := by
  unfold execPacketRx
  repeat' first
    | with_reducible assumption
    | with_reducible apply bump_keeps
    | with_reducible apply modLink_keeps
    | with_reducible apply setLink_keeps
    | with_reducible apply serveLink_keeps
    | with_reducible apply linkReturns_keeps
    | with_reducible apply switchPacket_keeps
    | with_reducible apply ends_next
    | with_reducible apply ends_fault
    | (extract_lets +onlyGivenNames x; refine keeps_step (r := b₀) (x := x) ?_ (fun hx => ?_); subst x; rotate_left; clear_value x; revert x; intro _ _)
    | fail_if_no_progress (with_reducible apply keeps_mk)
    | with_reducible apply keeps_ite
    | with_reducible apply ends_ite

theorem execHello_keeps {b₀ : State} {l : Fin 4} {serial : BitVec 64} {addr : BitVec 8} {gen : BitVec 32} {partnerLink : Fin 4} {s : State} (hb₀ : Keeps b₀ s) : Ends b₀ (execHello l serial addr gen partnerLink s) := by
  unfold execHello
  repeat' first
    | with_reducible assumption
    | with_reducible apply putN_keeps
    | with_reducible apply modLink_keeps
    | with_reducible apply topologyChanged_keeps
    | with_reducible apply ends_next
    | with_reducible apply ends_fault
    | (extract_lets +onlyGivenNames x; refine keeps_step (r := b₀) (x := x) ?_ (fun hx => ?_); subst x; rotate_left; clear_value x; revert x; intro _ _)
    | fail_if_no_progress (with_reducible apply keeps_mk)
    | with_reducible apply keeps_ite
    | with_reducible apply ends_ite

theorem execLinkStateRecordRx_keeps {b₀ : State} {r : LinkRecord} {s : State} (hb₀ : Keeps b₀ s) : Ends b₀ (execLinkStateRecordRx r s) := by
  unfold execLinkStateRecordRx
  repeat' first
    | with_reducible assumption
    | with_reducible apply modFab_keeps
    | with_reducible apply topologyChanged_keeps
    | with_reducible apply ends_next
    | with_reducible apply ends_fault
    | (extract_lets +onlyGivenNames x; clear_value x; revert x; intro _)
    | fail_if_no_progress (with_reducible apply keeps_mk)
    | with_reducible apply keeps_ite
    | with_reducible apply ends_ite

theorem execSyncExchange_keeps {b₀ : State} {l : Fin 4} {offset : Int} {errNs : Nat} {s : State} (hb₀ : Keeps b₀ s) : Ends b₀ (execSyncExchange l offset errNs s) := by
  unfold execSyncExchange
  repeat' first
    | with_reducible assumption
    | with_reducible apply putN_keeps
    | with_reducible apply modLink_keeps
    | with_reducible apply modFab_keeps
    | with_reducible apply ends_next
    | with_reducible apply ends_fault
    | (extract_lets +onlyGivenNames x; refine keeps_step (r := b₀) (x := x) ?_ (fun hx => ?_); subst x; rotate_left; clear_value x; revert x; intro _ _)
    | (extract_lets +onlyGivenNames x; clear_value x; revert x; intro _)
    | fail_if_no_progress (with_reducible apply keeps_mk)
    | with_reducible apply keeps_ite
    | with_reducible apply ends_ite

theorem modSpread_keeps {b₀ : State} {s : State} {i : Nat} {g : SpreadSt → SpreadSt} (hb₀ : Keeps b₀ s) : Keeps b₀ (modSpread s i g) := by
  unfold modSpread
  repeat' first
    | with_reducible assumption
    | with_reducible apply modFab_keeps

theorem portLayersTo_keeps {b₀ : State} {s : State} {p owner : Nat} (hb₀ : Keeps b₀ s) : Keeps b₀ (portLayersTo s p owner) := by
  unfold portLayersTo
  repeat' first
    | with_reducible assumption
    | with_reducible apply writeV_keeps
    | with_reducible apply writeN_keeps
    | with_reducible apply recomputeRuns_keeps
    | with_reducible apply commitBits_keeps
    | with_reducible apply foldN_keeps
    | (intro x a hx; try beta_reduce)

theorem memberLeaves_keeps {b₀ : State} {s : State} {i m st : Nat} (hb₀ : Keeps b₀ s) : Keeps b₀ (memberLeaves s i m st) := by
  unfold memberLeaves
  repeat' first
    | with_reducible assumption
    | with_reducible apply putN_keeps
    | with_reducible apply portLayersTo_keeps
    | fail_if_no_progress (with_reducible apply keeps_mk)
    | with_reducible apply keeps_ite

theorem memberLost_keeps {b₀ : State} {s : State} {i m : Nat} (hb₀ : Keeps b₀ s) : Keeps b₀ (memberLost s i m) := by
  unfold memberLost
  repeat' first
    | with_reducible assumption
    | with_reducible apply putN_keeps
    | with_reducible apply emit_keeps
    | with_reducible apply modSpread_keeps
    | with_reducible apply memberLeaves_keeps
    | fail_if_no_progress (with_reducible apply keeps_mk)
    | with_reducible apply keeps_ite

theorem placeMembers_keeps {b₀ : State} {s : State} {i : Nat} (hb₀ : Keeps b₀ s) : Keeps b₀ (placeMembers s i) := by
  unfold placeMembers
  repeat' first
    | with_reducible assumption
    | with_reducible apply hf1
    | with_reducible apply hf2
    | with_reducible apply hf3
    | with_reducible apply putN_keeps
    | with_reducible apply putB_keeps
    | with_reducible apply tilthEntry_keeps
    | with_reducible apply hintMiss_keeps
    | with_reducible apply foldN_keeps
    | (intro x a hx; try beta_reduce)
    | (extract_lets +onlyGivenNames x; refine keeps_step (r := b₀) (x := x) ?_ (fun hx => ?_); subst x; rotate_left; clear_value x; revert x; intro _ _)
    | (extract_lets +onlyGivenNames x; clear_value x; revert x; intro _)
    | fail_if_no_progress (with_reducible apply keeps_mk)
    | with_reducible apply keeps_ite

theorem showReservations_keeps {b₀ : State} {s : State} (hb₀ : Keeps b₀ s) : Keeps b₀ (showReservations s) := by
  unfold showReservations
  repeat' first
    | with_reducible assumption
    | with_reducible apply putN_keeps
    | with_reducible apply foldN_keeps
    | (intro x a hx; try beta_reduce)

theorem spreadsTopology_keeps {b₀ : State} {s : State} (hb₀ : Keeps b₀ s) : Keeps b₀ (spreadsTopology s) := by
  unfold spreadsTopology
  repeat' first
    | with_reducible assumption
    | with_reducible apply putN_keeps
    | with_reducible apply modFab_keeps
    | with_reducible apply placeMembers_keeps
    | with_reducible apply showReservations_keeps
    | with_reducible apply foldN_keeps
    | (intro x a hx; try beta_reduce)
    | fail_if_no_progress (with_reducible apply keeps_mk)
    | with_reducible apply keeps_ite

theorem execLinkTimeout_keeps {b₀ : State} {l : Fin 4} {s : State} (hb₀ : Keeps b₀ s) : Ends b₀ (execLinkTimeout l s) := by
  unfold execLinkTimeout
  repeat' first
    | with_reducible assumption
    | with_reducible apply linkFalls_keeps
    | with_reducible apply spreadsTopology_keeps
    | with_reducible apply ends_next
    | with_reducible apply ends_fault
    | fail_if_no_progress (with_reducible apply keeps_mk)
    | with_reducible apply keeps_ite
    | with_reducible apply ends_ite

theorem execFabricStable_keeps {b₀ : State} {s : State} (hb₀ : Keeps b₀ s) : Ends b₀ (execFabricStable s) := by
  unfold execFabricStable
  repeat' first
    | with_reducible assumption
    | with_reducible apply settleFabric_keeps
    | with_reducible apply spreadsTopology_keeps
    | with_reducible apply ends_next
    | with_reducible apply ends_fault
    | fail_if_no_progress (with_reducible apply keeps_mk)
    | with_reducible apply keeps_ite
    | with_reducible apply ends_ite

theorem spreadTake_keeps {b₀ : State} {s : State} {i : Nat} (hb₀ : Keeps b₀ s) : Keeps b₀ (spreadTake s i) := by
  unfold spreadTake
  repeat' first
    | with_reducible assumption
    | with_reducible apply putN_keeps
    | with_reducible apply bumpBy_keeps
    | with_reducible apply emit_keeps
    | with_reducible apply modSpread_keeps
    | (extract_lets +onlyGivenNames x; refine keeps_step (r := b₀) (x := x) ?_ (fun hx => ?_); subst x; rotate_left; clear_value x; revert x; intro _ _)
    | (extract_lets +onlyGivenNames x; clear_value x; revert x; intro _)
    | fail_if_no_progress (with_reducible apply keeps_mk)
    | with_reducible apply keeps_ite

theorem memberIn_keeps {b₀ : State} {s : State} {i m : Nat} (hb₀ : Keeps b₀ s) : Keeps b₀ (memberIn s i m) := by
  unfold memberIn
  repeat' first
    | with_reducible assumption
    | with_reducible apply putN_keeps
    | with_reducible apply emit_keeps
    | with_reducible apply modSpread_keeps
    | (extract_lets +onlyGivenNames x; refine keeps_step (r := b₀) (x := x) ?_ (fun hx => ?_); subst x; rotate_left; clear_value x; revert x; intro _ _)
    | fail_if_no_progress (with_reducible apply keeps_mk)
    | with_reducible apply keeps_ite

theorem portJoins_keeps {b₀ : State} {s : State} {i m : Nat} (hb₀ : Keeps b₀ s) : Keeps b₀ (portJoins s i m) := by
  unfold portJoins
  repeat' first
    | with_reducible assumption
    | with_reducible apply beginTransition_keeps
    | with_reducible apply portLayersTo_keeps
    | (extract_lets +onlyGivenNames x; refine keeps_step (r := b₀) (x := x) ?_ (fun hx => ?_); subst x; rotate_left; clear_value x; revert x; intro _ _)
    | (extract_lets +onlyGivenNames x; clear_value x; revert x; intro _)
    | fail_if_no_progress (with_reducible apply keeps_mk)
    | with_reducible apply keeps_ite
    | split

theorem spreadOffDone_keeps {b₀ : State} {s : State} {i : Nat} (hb₀ : Keeps b₀ s) : Keeps b₀ (spreadOffDone s i) := by
  unfold spreadOffDone
  repeat' first
    | with_reducible assumption
    | with_reducible apply putN_keeps
    | with_reducible apply putB_keeps
    | with_reducible apply settle_keeps
    | with_reducible apply modSpread_keeps
    | with_reducible apply showReservations_keeps
    | with_reducible apply foldN_keeps
    | (intro x a hx; try beta_reduce)

theorem startSpread_keeps {b₀ : State} {s : State} {i : Nat} (hb₀ : Keeps b₀ s) : Keeps b₀ (startSpread s i) := by
  unfold startSpread
  repeat' first
    | with_reducible assumption
    | with_reducible apply putN_keeps
    | with_reducible apply writeB_keeps
    | with_reducible apply settle_keeps
    | with_reducible apply modSpread_keeps
    | with_reducible apply placeMembers_keeps
    | with_reducible apply showReservations_keeps
    | with_reducible apply portJoins_keeps
    | with_reducible apply foldN_keeps
    | (intro x a hx; try beta_reduce)
    | (extract_lets +onlyGivenNames x; refine keeps_step (r := b₀) (x := x) ?_ (fun hx => ?_); subst x; rotate_left; clear_value x; revert x; intro _ _)
    | fail_if_no_progress (with_reducible apply keeps_mk)
    | with_reducible apply keeps_ite

theorem spreadQueued_keeps {b₀ : State} {s : State} {i : Nat} (hb₀ : Keeps b₀ s) : Keeps b₀ (spreadQueued s i) := by
  unfold spreadQueued
  repeat' first
    | with_reducible assumption
    | with_reducible apply resolved_keeps
    | with_reducible apply startSpread_keeps
    | fail_if_no_progress (with_reducible apply keeps_mk)
    | with_reducible apply keeps_ite

theorem shutSpread_keeps {b₀ : State} {s : State} {i : Nat} (hb₀ : Keeps b₀ s) : Keeps b₀ (shutSpread s i) := by
  unfold shutSpread
  repeat' first
    | with_reducible assumption
    | with_reducible apply putN_keeps
    | with_reducible apply settle_keeps
    | with_reducible apply spreadOffDone_keeps
    | with_reducible apply spreadQueued_keeps
    | with_reducible apply foldN_keeps
    | (intro x a hx; try beta_reduce)
    | (extract_lets +onlyGivenNames x; refine keeps_step (r := b₀) (x := x) ?_ (fun hx => ?_); subst x; rotate_left; clear_value x; revert x; intro _ _)
    | fail_if_no_progress (with_reducible apply keeps_mk)
    | with_reducible apply keeps_ite

theorem stopSpread_keeps {b₀ : State} {s : State} {i : Nat} (hb₀ : Keeps b₀ s) : Keeps b₀ (stopSpread s i) := by
  unfold stopSpread
  repeat' first
    | with_reducible assumption
    | with_reducible apply writeB_keeps
    | with_reducible apply shutSpread_keeps
    | (extract_lets +onlyGivenNames x; refine keeps_step (r := b₀) (x := x) ?_ (fun hx => ?_); subst x; rotate_left; clear_value x; revert x; intro _ _)
    | fail_if_no_progress (with_reducible apply keeps_mk)
    | with_reducible apply keeps_ite

theorem spreadAtVbs_keeps {b₀ : State} {s : State} {p : Nat} (hb₀ : Keeps b₀ s) : Keeps b₀ (spreadAtVbs s p) := by
  unfold spreadAtVbs
  repeat' first
    | with_reducible assumption
    | with_reducible apply putN_keeps
    | with_reducible apply memberLeaves_keeps
    | with_reducible apply placeMembers_keeps
    | with_reducible apply spreadTake_keeps
    | with_reducible apply memberIn_keeps
    | with_reducible apply portJoins_keeps
    | with_reducible apply spreadOffDone_keeps
    | with_reducible apply spreadQueued_keeps
    | with_reducible apply foldN_keeps
    | (intro x a hx; try beta_reduce)
    | (extract_lets +onlyGivenNames x; refine keeps_step (r := b₀) (x := x) ?_ (fun hx => ?_); subst x; rotate_left; clear_value x; revert x; intro _ _)
    | (extract_lets +onlyGivenNames x; clear_value x; revert x; intro _)
    | fail_if_no_progress (with_reducible apply keeps_mk)
    | with_reducible apply keeps_ite
    | split

theorem spreadSweep_keeps {b₀ : State} {s : State} (hb₀ : Keeps b₀ s) : Keeps b₀ (spreadSweep s) := by
  unfold spreadSweep
  repeat' first
    | with_reducible assumption
    | with_reducible apply memberLost_keeps
    | with_reducible apply foldN_keeps
    | (intro x a hx; try beta_reduce)
    | (extract_lets +onlyGivenNames x; clear_value x; revert x; intro _)
    | fail_if_no_progress (with_reducible apply keeps_mk)
    | with_reducible apply keeps_ite

theorem execVbs_keeps {b₀ : State} {p : Fin 8} {s : State} (hb₀ : Keeps b₀ s) : Ends b₀ (execVbs p s) := by
  unfold execVbs
  repeat' first
    | with_reducible assumption
    | with_reducible apply releaseReset_keeps
    | with_reducible apply vbs_keeps
    | with_reducible apply spreadAtVbs_keeps
    | with_reducible apply ends_next
    | with_reducible apply ends_fault
    | (extract_lets +onlyGivenNames x; clear_value x; revert x; intro _)
    | fail_if_no_progress (with_reducible apply keeps_mk)
    | with_reducible apply keeps_ite
    | with_reducible apply ends_ite

theorem spreadCommit_keeps {b₀ : State} {s : State} {i bits : Nat} (hb₀ : Keeps b₀ s) : Keeps b₀ (spreadCommit s i bits) := by
  unfold spreadCommit
  repeat' first
    | with_reducible assumption
    | with_reducible apply putN_keeps
    | with_reducible apply modSpread_keeps
    | (extract_lets +onlyGivenNames x; clear_value x; revert x; intro _)
    | fail_if_no_progress (with_reducible apply keeps_mk)
    | with_reducible apply keeps_ite

theorem flrSpreads_keeps {b₀ : State} {s : State} {f : Nat} (hb₀ : Keeps b₀ s) : Keeps b₀ (flrSpreads s f) := by
  unfold flrSpreads
  repeat' first
    | with_reducible assumption
    | with_reducible apply putN_keeps
    | with_reducible apply writeV_keeps
    | with_reducible apply foldN_keeps
    | (intro x a hx; try beta_reduce)
    | (extract_lets +onlyGivenNames x; refine keeps_step (r := b₀) (x := x) ?_ (fun hx => ?_); subst x; rotate_left; clear_value x; revert x; intro _ _)
    | (extract_lets +onlyGivenNames x; clear_value x; revert x; intro _)
    | fail_if_no_progress (with_reducible apply keeps_mk)
    | with_reducible apply keeps_ite

theorem execSpreadClosePoint_keeps {b₀ : State} {i : Fin 8} {s : State} (hb₀ : Keeps b₀ s) : Ends b₀ (execSpreadClosePoint i s) := by
  unfold execSpreadClosePoint
  repeat' first
    | with_reducible assumption
    | with_reducible apply modSpread_keeps
    | with_reducible apply spreadTake_keeps
    | with_reducible apply ends_next
    | with_reducible apply ends_fault
    | (extract_lets +onlyGivenNames x; refine keeps_step (r := b₀) (x := x) ?_ (fun hx => ?_); subst x; rotate_left; clear_value x; revert x; intro _ _)
    | (extract_lets +onlyGivenNames x; clear_value x; revert x; intro _)
    | fail_if_no_progress (with_reducible apply keeps_mk)
    | with_reducible apply keeps_ite
    | with_reducible apply ends_ite

theorem execSpreadStateRx_keeps {b₀ : State} {i : Fin 8} {m : Fin 16} {late : Bool} {offset : Int} {s : State} (hb₀ : Keeps b₀ s) : Ends b₀ (execSpreadStateRx i m late offset s) := by
  unfold execSpreadStateRx
  repeat' first
    | with_reducible assumption
    | with_reducible apply hf1
    | with_reducible apply hf2
    | with_reducible apply hf3
    | with_reducible apply putN_keeps
    | with_reducible apply bump_keeps
    | with_reducible apply emit_keeps
    | with_reducible apply beginTransition_keeps
    | with_reducible apply modSpread_keeps
    | with_reducible apply memberIn_keeps
    | with_reducible apply ends_next
    | with_reducible apply ends_fault
    | (intro x a hx; try beta_reduce)
    | (extract_lets +onlyGivenNames x; refine keeps_step (r := b₀) (x := x) ?_ (fun hx => ?_); subst x; rotate_left; clear_value x; revert x; intro _ _)
    | (extract_lets +onlyGivenNames x; refine keeps_stepF2 (r := b₀) (x := x) ?_ (fun hx => ?_); subst x; rotate_left; clear_value x; revert x; intro _ hf2)
    | (extract_lets +onlyGivenNames x; clear_value x; revert x; intro _)
    | fail_if_no_progress (with_reducible apply keeps_mk)
    | with_reducible apply keeps_ite
    | with_reducible apply ends_ite

theorem execSpreadMemberLost_keeps {b₀ : State} {i : Fin 8} {m : Fin 16} {s : State} (hb₀ : Keeps b₀ s) : Ends b₀ (execSpreadMemberLost i m s) := by
  unfold execSpreadMemberLost
  repeat' first
    | with_reducible assumption
    | with_reducible apply memberLost_keeps
    | with_reducible apply placeMembers_keeps
    | with_reducible apply showReservations_keeps
    | with_reducible apply ends_next
    | with_reducible apply ends_fault
    | (extract_lets +onlyGivenNames x; clear_value x; revert x; intro _)
    | fail_if_no_progress (with_reducible apply keeps_mk)
    | with_reducible apply keeps_ite
    | with_reducible apply ends_ite
    | split

end Sys2Proof.Machine
end

