-- ==== Sys2Proof/Laws/KeepsHaptics.lean ====
section
/-!
SUPPORT. Each operation of Machine/Haptics.lean keeps the queue and the invariant.
-/

namespace Sys2Proof.Machine

theorem modChan_keeps {b₀ : State} {s : State} {n : Nat} {g : Chan → Chan} (hb₀ : Keeps b₀ s) : Keeps b₀ (modChan s n g) := by
  unfold modChan
  repeat' first
    | with_reducible assumption
    | (extract_lets +onlyGivenNames x; clear_value x; revert x; intro _)
    | fail_if_no_progress (with_reducible apply keeps_mk)

theorem playEnded_keeps {b₀ : State} {s : State} {id n outcome : Nat} (hb₀ : Keeps b₀ s) : Keeps b₀ (playEnded s id n outcome) := by
  unfold playEnded
  repeat' first
    | with_reducible assumption
    | with_reducible apply complete_keeps
    | with_reducible apply foldl_keeps
    | with_reducible apply foldl_keeps1
    | (intro x a hx; try beta_reduce)
    | (extract_lets +onlyGivenNames x; clear_value x; revert x; intro _)
    | fail_if_no_progress (with_reducible apply keeps_mk)

theorem effectEnds_keeps {b₀ : State} {s : State} {n : Nat} {e : Effect} {outcome : Nat} (hb₀ : Keeps b₀ s) : Keeps b₀ (effectEnds s n e outcome) := by
  unfold effectEnds
  repeat' first
    | with_reducible assumption
    | with_reducible apply bump_keeps
    | with_reducible apply emit_keeps
    | with_reducible apply playEnded_keeps
    | (extract_lets +onlyGivenNames x; refine keeps_step (r := b₀) (x := x) ?_ (fun hx => ?_); subst x; rotate_left; clear_value x; revert x; intro _ _)
    | fail_if_no_progress (with_reducible apply keeps_mk)
    | with_reducible apply keeps_ite
    | split

theorem closeDrive_keeps {b₀ : State} {s : State} {n : Nat} (hb₀ : Keeps b₀ s) : Keeps b₀ (closeDrive s n) := by
  unfold closeDrive
  repeat' first
    | with_reducible assumption
    | with_reducible apply modChan_keeps

theorem endRunning_keeps {b₀ : State} {s : State} {n outcome : Nat} (hb₀ : Keeps b₀ s) : Keeps b₀ (endRunning s n outcome) := by
  unfold endRunning
  repeat' first
    | with_reducible assumption
    | with_reducible apply effectEnds_keeps
    | with_reducible apply closeDrive_keeps
    | fail_if_no_progress (with_reducible apply keeps_mk)
    | with_reducible apply keeps_ite
    | split

theorem setQueue_keeps {b₀ : State} {s : State} {n : Nat} {q : List Effect} (hb₀ : Keeps b₀ s) : Keeps b₀ (setQueue s n q) := by
  unfold setQueue
  repeat' first
    | with_reducible assumption
    | with_reducible apply modChan_keeps

theorem endQueue_keeps {b₀ : State} {s : State} {n outcome : Nat} (hb₀ : Keeps b₀ s) : Keeps b₀ (endQueue s n outcome) := by
  unfold endQueue
  repeat' first
    | with_reducible assumption
    | with_reducible apply effectEnds_keeps
    | with_reducible apply setQueue_keeps
    | with_reducible apply foldl_keeps
    | with_reducible apply foldl_keeps1
    | (intro x a hx; try beta_reduce)

theorem startEffect_keeps {b₀ : State} {s : State} {n : Nat} {e : Effect} (hb₀ : Keeps b₀ s) : Keeps b₀ (startEffect s n e) := by
  unfold startEffect
  repeat' first
    | with_reducible assumption
    | with_reducible apply putN_keeps
    | with_reducible apply bump_keeps
    | with_reducible apply draw_keeps
    | with_reducible apply modChan_keeps
    | (extract_lets +onlyGivenNames x; refine keeps_step (r := b₀) (x := x) ?_ (fun hx => ?_); subst x; rotate_left; clear_value x; revert x; intro _ _)
    | (extract_lets +onlyGivenNames x; clear_value x; revert x; intro _)
    | fail_if_no_progress (with_reducible apply keeps_mk)
    | with_reducible apply keeps_ite

theorem startHead_keeps {b₀ : State} {s : State} {n : Nat} (hb₀ : Keeps b₀ s) : Keeps b₀ (startHead s n) := by
  unfold startHead
  repeat' first
    | with_reducible assumption
    | with_reducible apply endRunning_keeps
    | with_reducible apply setQueue_keeps
    | with_reducible apply startEffect_keeps
    | fail_if_no_progress (with_reducible apply keeps_mk)
    | with_reducible apply keeps_ite
    | split

theorem overlayHead_keeps {b₀ : State} {s : State} {n : Nat} (hb₀ : Keeps b₀ s) : Keeps b₀ (overlayHead s n) := by
  unfold overlayHead
  repeat' first
    | with_reducible assumption
    | with_reducible apply startHead_keeps
    | fail_if_no_progress (with_reducible apply keeps_mk)
    | with_reducible apply keeps_ite
    | split

theorem railTick_keeps {b₀ : State} {s : State} (hb₀ : Keeps b₀ s) : Keeps b₀ (railTick s) := by
  unfold railTick
  repeat' first
    | with_reducible assumption
    | with_reducible apply modChan_keeps
    | with_reducible apply foldN_keeps
    | (intro x a hx; try beta_reduce)
    | (extract_lets +onlyGivenNames x; clear_value x; revert x; intro _)
    | fail_if_no_progress (with_reducible apply keeps_mk)
    | with_reducible apply keeps_ite

theorem driveStep_keeps {b₀ : State} {s : State} {n : Nat} (hb₀ : Keeps b₀ s) : Keeps b₀ (driveStep s n) := by
  unfold driveStep
  repeat' first
    | with_reducible assumption
    | with_reducible apply modChan_keeps
    | (extract_lets +onlyGivenNames x; clear_value x; revert x; intro _)
    | fail_if_no_progress (with_reducible apply keeps_mk)
    | with_reducible apply keeps_ite

theorem driveTick_keeps {b₀ : State} {s : State} (hb₀ : Keeps b₀ s) : Keeps b₀ (driveTick s) := by
  unfold driveTick
  repeat' first
    | with_reducible assumption
    | with_reducible apply driveStep_keeps
    | with_reducible apply foldN_keeps

theorem countMissed_keeps {b₀ : State} {s : State} {n mg : Nat} (hb₀ : Keeps b₀ s) : Keeps b₀ (countMissed s n mg) := by
  unfold countMissed
  repeat' first
    | with_reducible assumption
    | with_reducible apply bump_keeps
    | with_reducible apply modChan_keeps
    | (extract_lets +onlyGivenNames x; clear_value x; revert x; intro _)
    | fail_if_no_progress (with_reducible apply keeps_mk)
    | with_reducible apply keeps_ite
    | split

theorem channelFailed_keeps {b₀ : State} {s : State} {n : Nat} (hb₀ : Keeps b₀ s) : Keeps b₀ (channelFailed s n) := by
  unfold channelFailed
  repeat' first
    | with_reducible assumption
    | with_reducible apply putN_keeps
    | with_reducible apply emit_keeps
    | with_reducible apply updateHealth_keeps
    | with_reducible apply modChan_keeps
    | with_reducible apply endRunning_keeps
    | with_reducible apply endQueue_keeps

theorem connectSpare_keeps {b₀ : State} {s : State} {n : Nat} {passes : Bool} (hb₀ : Keeps b₀ s) : Keeps b₀ (connectSpare s n passes) := by
  unfold connectSpare
  repeat' first
    | with_reducible assumption
    | with_reducible apply putN_keeps
    | with_reducible apply emit_keeps
    | with_reducible apply substitute_keeps
    | with_reducible apply retireUnit_keeps
    | with_reducible apply failSpare_keeps
    | with_reducible apply modChan_keeps
    | with_reducible apply channelFailed_keeps
    | (extract_lets +onlyGivenNames x; refine keeps_step (r := b₀) (x := x) ?_ (fun hx => ?_); subst x; rotate_left; clear_value x; revert x; intro _ _)
    | (extract_lets +onlyGivenNames x; clear_value x; revert x; intro _)
    | fail_if_no_progress (with_reducible apply keeps_mk)
    | with_reducible apply keeps_ite

theorem startHaptics_keeps {b₀ : State} {s : State} (hb₀ : Keeps b₀ s) : Keeps b₀ (startHaptics s) := by
  unfold startHaptics
  repeat' first
    | with_reducible assumption
    | with_reducible apply putN_keeps
    | with_reducible apply writeB_keeps
    | with_reducible apply settle_keeps

theorem hapQueued_keeps {b₀ : State} {s : State} (hb₀ : Keeps b₀ s) : Keeps b₀ (hapQueued s) := by
  unfold hapQueued
  repeat' first
    | with_reducible assumption
    | with_reducible apply resolved_keeps
    | with_reducible apply startHaptics_keeps
    | fail_if_no_progress (with_reducible apply keeps_mk)
    | with_reducible apply keeps_ite

theorem hapStopCheck_keeps {b₀ : State} {s : State} (hb₀ : Keeps b₀ s) : Keeps b₀ (hapStopCheck s) := by
  unfold hapStopCheck
  repeat' first
    | with_reducible assumption
    | with_reducible apply putN_keeps
    | with_reducible apply settle_keeps
    | with_reducible apply modChan_keeps
    | with_reducible apply hapQueued_keeps
    | with_reducible apply foldN_keeps
    | (intro x a hx; try beta_reduce)
    | (extract_lets +onlyGivenNames x; refine keeps_step (r := b₀) (x := x) ?_ (fun hx => ?_); subst x; rotate_left; clear_value x; revert x; intro _ _)
    | fail_if_no_progress (with_reducible apply keeps_mk)
    | with_reducible apply keeps_ite

theorem channelIdle_keeps {b₀ : State} {s : State} {n : Nat} (hb₀ : Keeps b₀ s) : Keeps b₀ (channelIdle s n) := by
  unfold channelIdle
  repeat' first
    | with_reducible assumption
    | with_reducible apply putN_keeps
    | with_reducible apply startHead_keeps
    | with_reducible apply connectSpare_keeps
    | with_reducible apply hapStopCheck_keeps
    | (extract_lets +onlyGivenNames x; refine keeps_step (r := b₀) (x := x) ?_ (fun hx => ?_); subst x; rotate_left; clear_value x; revert x; intro _ _)
    | fail_if_no_progress (with_reducible apply keeps_mk)
    | with_reducible apply keeps_ite
    | split

theorem beginBraking_keeps {b₀ : State} {s : State} {n : Nat} (hb₀ : Keeps b₀ s) : Keeps b₀ (beginBraking s n) := by
  unfold beginBraking
  repeat' first
    | with_reducible assumption
    | with_reducible apply putN_keeps
    | with_reducible apply modChan_keeps

theorem enqueue_keeps {b₀ : State} {s : State} {n : Nat} {e : Effect} (hb₀ : Keeps b₀ s) : Keeps b₀ (enqueue s n e) := by
  unfold enqueue
  repeat' first
    | with_reducible assumption
    | with_reducible apply effectEnds_keeps
    | with_reducible apply setQueue_keeps
    | with_reducible apply overlayHead_keeps
    | fail_if_no_progress (with_reducible apply keeps_mk)
    | with_reducible apply keeps_ite
    | split

theorem effectArrives_keeps {b₀ : State} {s : State} {n : Nat} {e : Effect} (hb₀ : Keeps b₀ s) : Keeps b₀ (effectArrives s n e) := by
  unfold effectArrives
  repeat' first
    | with_reducible assumption
    | with_reducible apply effectEnds_keeps
    | with_reducible apply endRunning_keeps
    | with_reducible apply startEffect_keeps
    | with_reducible apply enqueue_keeps
    | fail_if_no_progress (with_reducible apply keeps_mk)
    | with_reducible apply keeps_ite
    | split

theorem giveEffect_keeps {b₀ : State} {s : State} {n : Nat} {e : Effect} (hb₀ : Keeps b₀ s) : Keeps b₀ (giveEffect s n e) := by
  unfold giveEffect
  repeat' first
    | with_reducible assumption
    | with_reducible apply modChan_keeps
    | with_reducible apply effectArrives_keeps
    | fail_if_no_progress (with_reducible apply keeps_mk)
    | with_reducible apply keeps_ite

theorem takeHapId_keeps {b₀ : State} {s : State} (hb₀ : Keeps b₀ s) : Keeps b₀ (takeHapId s).1 := by
  unfold takeHapId
  repeat' first
    | with_reducible assumption
    | (extract_lets +onlyGivenNames x; clear_value x; revert x; intro _)
    | fail_if_no_progress (with_reducible apply keeps_mk)

theorem zoneEffect_keeps {b₀ : State} {s : State} {p n effect : Nat} (hb₀ : Keeps b₀ s) : Keeps b₀ (zoneEffect s p n effect) := by
  unfold zoneEffect
  repeat' first
    | with_reducible assumption
    | with_reducible apply effectArrives_keeps
    | with_reducible apply takeHapId_keeps

theorem shutHaptics_keeps {b₀ : State} {s : State} (hb₀ : Keeps b₀ s) : Keeps b₀ (shutHaptics s) := by
  unfold shutHaptics
  repeat' first
    | with_reducible assumption
    | with_reducible apply putN_keeps
    | with_reducible apply endQueue_keeps
    | with_reducible apply hapStopCheck_keeps
    | with_reducible apply beginBraking_keeps
    | with_reducible apply foldN_keeps
    | (intro x a hx; try beta_reduce)
    | (extract_lets +onlyGivenNames x; refine keeps_step (r := b₀) (x := x) ?_ (fun hx => ?_); subst x; rotate_left; clear_value x; revert x; intro _ _)
    | fail_if_no_progress (with_reducible apply keeps_mk)
    | with_reducible apply keeps_ite

theorem stopHaptics_keeps {b₀ : State} {s : State} (hb₀ : Keeps b₀ s) : Keeps b₀ (stopHaptics s) := by
  unfold stopHaptics
  repeat' first
    | with_reducible assumption
    | with_reducible apply writeB_keeps
    | with_reducible apply shutHaptics_keeps
    | (extract_lets +onlyGivenNames x; refine keeps_step (r := b₀) (x := x) ?_ (fun hx => ?_); subst x; rotate_left; clear_value x; revert x; intro _ _)
    | fail_if_no_progress (with_reducible apply keeps_mk)
    | with_reducible apply keeps_ite

theorem dropHaptics_keeps {b₀ : State} {s : State} (hb₀ : Keeps b₀ s) : Keeps b₀ (dropHaptics s) := by
  unfold dropHaptics
  repeat' first
    | with_reducible assumption
    | with_reducible apply putN_keeps
    | with_reducible apply modChan_keeps
    | with_reducible apply endRunning_keeps
    | with_reducible apply endQueue_keeps
    | with_reducible apply foldN_keeps
    | (intro x a hx; try beta_reduce)

theorem cutHaptics_keeps {b₀ : State} {s : State} (hb₀ : Keeps b₀ s) : Keeps b₀ (cutHaptics s) := by
  unfold cutHaptics
  repeat' first
    | with_reducible assumption
    | with_reducible apply putN_keeps
    | with_reducible apply hapStopCheck_keeps
    | with_reducible apply dropHaptics_keeps
    | (extract_lets +onlyGivenNames x; refine keeps_step (r := b₀) (x := x) ?_ (fun hx => ?_); subst x; rotate_left; clear_value x; revert x; intro _ _)
    | fail_if_no_progress (with_reducible apply keeps_mk)
    | with_reducible apply keeps_ite

theorem flrHaptics_keeps {b₀ : State} {s : State} {f : Nat} (hb₀ : Keeps b₀ s) : Keeps b₀ (flrHaptics s f) := by
  unfold flrHaptics
  repeat' first
    | with_reducible assumption
    | with_reducible apply modChan_keeps
    | with_reducible apply setQueue_keeps
    | with_reducible apply overlayHead_keeps
    | with_reducible apply beginBraking_keeps
    | with_reducible apply foldN_keeps
    | (intro x a hx; try beta_reduce)
    | (extract_lets +onlyGivenNames x; refine keeps_step (r := b₀) (x := x) ?_ (fun hx => ?_); subst x; rotate_left; clear_value x; revert x; intro _ _)
    | (extract_lets +onlyGivenNames x; clear_value x; revert x; intro _)
    | fail_if_no_progress (with_reducible apply keeps_mk)
    | with_reducible apply keeps_ite
    | split

theorem probe_keeps {b₀ : State} {s : State} {n cap : Nat} (hb₀ : Keeps b₀ s) : Keeps b₀ (probe s n cap) := by
  unfold probe
  repeat' first
    | with_reducible assumption
    | with_reducible apply emit_keeps
    | with_reducible apply updateHealth_keeps
    | with_reducible apply modChan_keeps
    | with_reducible apply channelIdle_keeps
    | (extract_lets +onlyGivenNames x; refine keeps_step (r := b₀) (x := x) ?_ (fun hx => ?_); subst x; rotate_left; clear_value x; revert x; intro _ _)
    | (extract_lets +onlyGivenNames x; clear_value x; revert x; intro _)
    | fail_if_no_progress (with_reducible apply keeps_mk)
    | with_reducible apply keeps_ite

theorem resetChannel_keeps {b₀ : State} {s : State} {n cap : Nat} (hb₀ : Keeps b₀ s) : Keeps b₀ (resetChannel s n cap) := by
  unfold resetChannel
  repeat' first
    | with_reducible assumption
    | with_reducible apply probe_keeps
    | fail_if_no_progress (with_reducible apply keeps_mk)
    | with_reducible apply keeps_ite

theorem hapEnableApply_keeps {b₀ : State} {s : State} {on : Bool} (hb₀ : Keeps b₀ s) : Keeps b₀ (hapEnableApply s on).1 := by
  unfold hapEnableApply
  repeat' first
    | with_reducible assumption
    | with_reducible apply enableWrite_keeps
    | with_reducible apply startHaptics_keeps
    | with_reducible apply stopHaptics_keeps

theorem chanApply_keeps {b₀ : State} {s : State} {n sub v : Nat} (hb₀ : Keeps b₀ s) : Keeps b₀ (chanApply s n sub v) := by
  unfold chanApply
  repeat' first
    | with_reducible assumption
    | with_reducible apply putN_keeps
    | with_reducible apply writeN_keeps
    | with_reducible apply draw_keeps
    | with_reducible apply endRunning_keeps
    | with_reducible apply endQueue_keeps
    | with_reducible apply hapStopCheck_keeps
    | with_reducible apply resetChannel_keeps
    | (extract_lets +onlyGivenNames x; refine keeps_step (r := b₀) (x := x) ?_ (fun hx => ?_); subst x; rotate_left; clear_value x; revert x; intro _ _)
    | fail_if_no_progress (with_reducible apply keeps_mk)
    | with_reducible apply keeps_ite

theorem execHapticPlay_keeps {b₀ : State} {h : CmdHdr} {p : HapticPayload} {s : State} (hb₀ : Keeps b₀ s) : Ends b₀ (execHapticPlay h p s) := by
  unfold execHapticPlay
  repeat' first
    | with_reducible assumption
    | with_reducible apply completeOpen_keeps
    | with_reducible apply beginCmd_keeps
    | with_reducible apply giveEffect_keeps
    | with_reducible apply takeHapId_keeps
    | with_reducible apply ends_next
    | with_reducible apply ends_fault
    | with_reducible apply foldN_keeps
    | (intro x a hx; try beta_reduce)
    | (extract_lets +onlyGivenNames x; clear_value x; revert x; intro _)
    | with_reducible refine keeps_fst (by with_reducible assumption) ?_
    | fail_if_no_progress (with_reducible apply keeps_mk)
    | with_reducible apply keeps_ite
    | with_reducible apply ends_ite
    | split

theorem execEffectDue_keeps {b₀ : State} {chan : Fin 16} {s : State} (hb₀ : Keeps b₀ s) : Ends b₀ (execEffectDue chan s) := by
  unfold execEffectDue
  repeat' first
    | with_reducible assumption
    | with_reducible apply modChan_keeps
    | with_reducible apply effectArrives_keeps
    | with_reducible apply ends_next
    | with_reducible apply ends_fault
    | with_reducible apply foldl_keeps
    | with_reducible apply foldl_keeps1
    | (intro x a hx; try beta_reduce)

theorem execAttackEnd_keeps {b₀ : State} {chan : Fin 16} {s : State} (hb₀ : Keeps b₀ s) : Ends b₀ (execAttackEnd chan s) := by
  unfold execAttackEnd
  repeat' first
    | with_reducible assumption
    | with_reducible apply putN_keeps
    | with_reducible apply ends_next
    | with_reducible apply ends_fault
    | fail_if_no_progress (with_reducible apply keeps_mk)
    | with_reducible apply keeps_ite
    | with_reducible apply ends_ite
    | split

theorem execBrakingStart_keeps {b₀ : State} {chan : Fin 16} {peakMg : Nat} {s : State} (hb₀ : Keeps b₀ s) : Ends b₀ (execBrakingStart chan peakMg s) := by
  unfold execBrakingStart
  repeat' first
    | with_reducible assumption
    | with_reducible apply overlayHead_keeps
    | with_reducible apply countMissed_keeps
    | with_reducible apply beginBraking_keeps
    | with_reducible apply ends_next
    | with_reducible apply ends_fault
    | fail_if_no_progress (with_reducible apply keeps_mk)
    | with_reducible apply keeps_ite
    | with_reducible apply ends_ite
    | split

theorem execBrakingEnd_keeps {b₀ : State} {chan : Fin 16} {accelMg : Nat} {s : State} (hb₀ : Keeps b₀ s) : Ends b₀ (execBrakingEnd chan accelMg s) := by
  unfold execBrakingEnd
  repeat' first
    | with_reducible assumption
    | with_reducible apply endRunning_keeps
    | with_reducible apply channelIdle_keeps
    | with_reducible apply ends_next
    | with_reducible apply ends_fault
    | (extract_lets +onlyGivenNames x; clear_value x; revert x; intro _)
    | fail_if_no_progress (with_reducible apply keeps_mk)
    | with_reducible apply keeps_ite
    | with_reducible apply ends_ite
    | split

theorem execQueueHeadTimeout_keeps {b₀ : State} {chan : Fin 16} {s : State} (hb₀ : Keeps b₀ s) : Ends b₀ (execQueueHeadTimeout chan s) := by
  unfold execQueueHeadTimeout
  repeat' first
    | with_reducible assumption
    | with_reducible apply startHead_keeps
    | with_reducible apply ends_next
    | with_reducible apply ends_fault
    | (extract_lets +onlyGivenNames x; clear_value x; revert x; intro _)
    | fail_if_no_progress (with_reducible apply keeps_mk)
    | with_reducible apply keeps_ite
    | with_reducible apply ends_ite

theorem execEffectDeadline_keeps {b₀ : State} {chan : Fin 16} {s : State} (hb₀ : Keeps b₀ s) : Ends b₀ (execEffectDeadline chan s) := by
  unfold execEffectDeadline
  repeat' first
    | with_reducible assumption
    | with_reducible apply hf1
    | with_reducible apply hf2
    | with_reducible apply hf3
    | with_reducible apply effectEnds_keeps
    | with_reducible apply setQueue_keeps
    | with_reducible apply overlayHead_keeps
    | with_reducible apply ends_next
    | with_reducible apply ends_fault
    | with_reducible apply foldl_keeps
    | with_reducible apply foldl_keeps1
    | (intro x a hx; try beta_reduce)

theorem execEffectFits_keeps {b₀ : State} {chan : Fin 16} {s : State} (hb₀ : Keeps b₀ s) : Ends b₀ (execEffectFits chan s) := by
  unfold execEffectFits
  repeat' first
    | with_reducible assumption
    | with_reducible apply startHead_keeps
    | with_reducible apply ends_next
    | with_reducible apply ends_fault
    | fail_if_no_progress (with_reducible apply keeps_mk)
    | with_reducible apply keeps_ite
    | with_reducible apply ends_ite

theorem execHapTrip_keeps {b₀ : State} {chan : Fin 16} {cause : Fin 3} {capNf : BitVec 32} {s : State} (hb₀ : Keeps b₀ s) : Ends b₀ (execHapTrip chan cause capNf s) := by
  unfold execHapTrip
  repeat' first
    | with_reducible assumption
    | with_reducible apply putN_keeps
    | with_reducible apply bump_keeps
    | with_reducible apply emit_keeps
    | with_reducible apply updateHealth_keeps
    | with_reducible apply modChan_keeps
    | with_reducible apply endRunning_keeps
    | with_reducible apply endQueue_keeps
    | with_reducible apply hapStopCheck_keeps
    | with_reducible apply ends_next
    | with_reducible apply ends_fault
    | (extract_lets +onlyGivenNames x; refine keeps_step (r := b₀) (x := x) ?_ (fun hx => ?_); subst x; rotate_left; clear_value x; revert x; intro _ _)
    | fail_if_no_progress (with_reducible apply keeps_mk)
    | with_reducible apply keeps_ite
    | with_reducible apply ends_ite

theorem execTripProbe_keeps {b₀ : State} {chan : Fin 16} {capNf : BitVec 32} {s : State} (hb₀ : Keeps b₀ s) : Ends b₀ (execTripProbe chan capNf s) := by
  unfold execTripProbe
  repeat' first
    | with_reducible assumption
    | with_reducible apply probe_keeps
    | with_reducible apply ends_next
    | with_reducible apply ends_fault
    | fail_if_no_progress (with_reducible apply keeps_mk)
    | with_reducible apply keeps_ite
    | with_reducible apply ends_ite
    | split

theorem limitCut_keeps {b₀ : State} {s : State} {n limit outcome : Nat} (hb₀ : Keeps b₀ s) : Keeps b₀ (limitCut s n limit outcome) := by
  unfold limitCut
  repeat' first
    | with_reducible assumption
    | with_reducible apply bump_keeps
    | with_reducible apply emit_keeps
    | with_reducible apply endRunning_keeps
    | with_reducible apply channelIdle_keeps
    | fail_if_no_progress (with_reducible apply keeps_mk)
    | with_reducible apply keeps_ite
    | split

theorem execOnTimeCut_keeps {b₀ : State} {chan : Fin 16} {s : State} (hb₀ : Keeps b₀ s) : Ends b₀ (execOnTimeCut chan s) := by
  unfold execOnTimeCut
  repeat' first
    | with_reducible assumption
    | with_reducible apply limitCut_keeps
    | with_reducible apply ends_next
    | with_reducible apply ends_fault
    | fail_if_no_progress (with_reducible apply keeps_mk)
    | with_reducible apply keeps_ite
    | with_reducible apply ends_ite

theorem execDutyCut_keeps {b₀ : State} {chan : Fin 16} {s : State} (hb₀ : Keeps b₀ s) : Ends b₀ (execDutyCut chan s) := by
  unfold execDutyCut
  repeat' first
    | with_reducible assumption
    | with_reducible apply limitCut_keeps
    | with_reducible apply ends_next
    | with_reducible apply ends_fault
    | fail_if_no_progress (with_reducible apply keeps_mk)
    | with_reducible apply keeps_ite
    | with_reducible apply ends_ite

theorem execAccelTimeout_keeps {b₀ : State} {chan : Fin 16} {reads : List (BitVec 32)} {s : State} (hb₀ : Keeps b₀ s) : Ends b₀ (execAccelTimeout chan reads s) := by
  unfold execAccelTimeout
  repeat' first
    | split
    | with_reducible apply modChan_keeps
    | with_reducible assumption
    | with_reducible apply putN_keeps
    | with_reducible apply bump_keeps
    | with_reducible apply ends_next
    | with_reducible apply ends_fault
    | fail_if_no_progress (with_reducible apply keeps_mk)
    | with_reducible apply keeps_ite
    | with_reducible apply ends_ite

theorem execDriverFault_keeps {b₀ : State} {chan : Fin 16} {retryPasses sparePasses : Bool} {s : State} (hb₀ : Keeps b₀ s) : Ends b₀ (execDriverFault chan retryPasses sparePasses s) := by
  unfold execDriverFault
  repeat' first
    | with_reducible assumption
    | with_reducible apply modChan_keeps
    | with_reducible apply connectSpare_keeps
    | with_reducible apply ends_next
    | with_reducible apply ends_fault
    | fail_if_no_progress (with_reducible apply keeps_mk)
    | with_reducible apply keeps_ite
    | with_reducible apply ends_ite

theorem execHapReady_keeps {b₀ : State} {badDrivers : List (Fin 17)} {s : State} (hb₀ : Keeps b₀ s) : Ends b₀ (execHapReady badDrivers s) := by
  unfold execHapReady
  repeat' first
    | with_reducible assumption
    | with_reducible apply putN_keeps
    | with_reducible apply draw_keeps
    | with_reducible apply updateHealth_keeps
    | with_reducible apply failSpare_keeps
    | with_reducible apply connectSpare_keeps
    | with_reducible apply ends_next
    | with_reducible apply ends_fault
    | with_reducible apply foldN_keeps
    | (intro x a hx; try beta_reduce)
    | (extract_lets +onlyGivenNames x; refine keeps_step (r := b₀) (x := x) ?_ (fun hx => ?_); subst x; rotate_left; clear_value x; revert x; intro _ _)
    | (extract_lets +onlyGivenNames x; clear_value x; revert x; intro _)
    | fail_if_no_progress (with_reducible apply keeps_mk)
    | with_reducible apply keeps_ite
    | with_reducible apply ends_ite

theorem execInterlockOpen_keeps {b₀ : State} {s : State} (hb₀ : Keeps b₀ s) : Ends b₀ (execInterlockOpen s) := by
  unfold execInterlockOpen
  repeat' first
    | with_reducible assumption
    | with_reducible apply putN_keeps
    | with_reducible apply putB_keeps
    | with_reducible apply updateHealth_keeps
    | with_reducible apply hapStopCheck_keeps
    | with_reducible apply dropHaptics_keeps
    | with_reducible apply ends_next
    | with_reducible apply ends_fault
    | (extract_lets +onlyGivenNames x; refine keeps_step (r := b₀) (x := x) ?_ (fun hx => ?_); subst x; rotate_left; clear_value x; revert x; intro _ _)
    | fail_if_no_progress (with_reducible apply keeps_mk)
    | with_reducible apply keeps_ite
    | with_reducible apply ends_ite

theorem execInterlockClosed_keeps {b₀ : State} {s : State} (hb₀ : Keeps b₀ s) : Ends b₀ (execInterlockClosed s) := by
  unfold execInterlockClosed
  repeat' first
    | with_reducible assumption
    | with_reducible apply putB_keeps
    | with_reducible apply updateHealth_keeps
    | with_reducible apply ends_next

end Sys2Proof.Machine
end

