-- ==== Sys2Proof/Laws/KeepsRings.lean ====
section
/-!
SUPPORT. Each operation of Machine/Rings.lean keeps the queue and the invariant.
-/

namespace Sys2Proof.Machine

theorem enableRing_keeps {b₀ : State} {s : State} {h : Nat} (hb₀ : Keeps b₀ s) : Keeps b₀ (enableRing s h) := by
  unfold enableRing
  repeat' first
    | with_reducible assumption
    | with_reducible apply modRing_keeps
    | with_reducible apply writeVoted_keeps

theorem disableRing_keeps {b₀ : State} {s : State} {h : Nat} (hb₀ : Keeps b₀ s) : Keeps b₀ (disableRing s h) := by
  unfold disableRing
  repeat' first
    | with_reducible assumption
    | with_reducible apply modRing_keeps
    | with_reducible apply writeVoted_keeps
    | (extract_lets +onlyGivenNames x; refine keeps_step (r := b₀) (x := x) ?_ (fun hx => ?_); subst x; rotate_left; clear_value x; revert x; intro _ _)
    | fail_if_no_progress (with_reducible apply keeps_mk)

theorem ringApply_keeps {b₀ : State} {s : State} {h sub v : Nat} (hb₀ : Keeps b₀ s) : Keeps b₀ (ringApply s h sub v) := by
  unfold ringApply
  repeat' first
    | with_reducible assumption
    | with_reducible apply writeN_keeps
    | with_reducible apply modRing_keeps
    | with_reducible apply writeVoted_keeps
    | with_reducible apply voteRing_keeps
    | with_reducible apply enableRing_keeps
    | with_reducible apply disableRing_keeps
    | (extract_lets +onlyGivenNames x; refine keeps_step (r := b₀) (x := x) ?_ (fun hx => ?_); subst x; rotate_left; clear_value x; revert x; intro _ _)
    | (extract_lets +onlyGivenNames x; clear_value x; revert x; intro _)
    | fail_if_no_progress (with_reducible apply keeps_mk)
    | with_reducible apply keeps_ite

theorem execResizeDone_keeps {b₀ : State} {ring : Fin 256} {s : State} (hb₀ : Keeps b₀ s) : Ends b₀ (execResizeDone ring s) := by
  unfold execResizeDone
  repeat' first
    | with_reducible assumption
    | with_reducible apply modRing_keeps
    | with_reducible apply emit_keeps
    | with_reducible apply ends_next
    | with_reducible apply ends_fault
    | (extract_lets +onlyGivenNames x; clear_value x; revert x; intro _)
    | fail_if_no_progress (with_reducible apply keeps_mk)
    | with_reducible apply keeps_ite
    | with_reducible apply ends_ite
    | split

theorem doorbellOp_keeps {b₀ : State} {s : State} {f l v : Nat} (hb₀ : Keeps b₀ s) : Keeps b₀ (doorbellOp s f l v) := by
  unfold doorbellOp
  repeat' first
    | with_reducible assumption
    | with_reducible apply modRing_keeps
    | with_reducible apply voteRing_keeps
    | with_reducible apply countDrop_keeps
    | (extract_lets +onlyGivenNames x; refine keeps_step (r := b₀) (x := x) ?_ (fun hx => ?_); subst x; rotate_left; clear_value x; revert x; intro _ _)
    | (extract_lets +onlyGivenNames x; clear_value x; revert x; intro _)
    | fail_if_no_progress (with_reducible apply keeps_mk)
    | with_reducible apply keeps_ite
    | split

theorem execDoorbell_keeps {b₀ : State} {f : Fin 65} {ring : Fin 16} {value : BitVec 32} {s : State} (hb₀ : Keeps b₀ s) : Ends b₀ (execDoorbell f ring value s) := by
  unfold execDoorbell
  repeat' first
    | with_reducible assumption
    | with_reducible apply doorbellOp_keeps
    | with_reducible apply ends_next
    | with_reducible apply ends_fault
    | fail_if_no_progress (with_reducible apply keeps_mk)
    | with_reducible apply keeps_ite
    | with_reducible apply ends_ite

theorem cqHeadOp_keeps {b₀ : State} {s : State} {f l v : Nat} (hb₀ : Keeps b₀ s) : Keeps b₀ (cqHeadOp s f l v) := by
  unfold cqHeadOp
  repeat' first
    | with_reducible assumption
    | with_reducible apply modRing_keeps
    | with_reducible apply drainHeld_keeps
    | fail_if_no_progress (with_reducible apply keeps_mk)
    | with_reducible apply keeps_ite
    | split

theorem execCqHeadWrite_keeps {b₀ : State} {f : Fin 65} {ring : Fin 16} {value : BitVec 16} {s : State} (hb₀ : Keeps b₀ s) : Ends b₀ (execCqHeadWrite f ring value s) := by
  unfold execCqHeadWrite
  repeat' first
    | with_reducible assumption
    | with_reducible apply cqHeadOp_keeps
    | with_reducible apply ends_next
    | with_reducible apply ends_fault
    | fail_if_no_progress (with_reducible apply keeps_mk)
    | with_reducible apply keeps_ite
    | with_reducible apply ends_ite

theorem lostWrite_keeps {b₀ : State} {s : State} {f : Nat} (hb₀ : Keeps b₀ s) : Keeps b₀ (lostWrite s f) := by
  unfold lostWrite
  repeat' first
    | with_reducible assumption
    | with_reducible apply bump_keeps
    | with_reducible apply modFunc_keeps

theorem evtWrite_keeps {b₀ : State} {s : State} {f : Nat} {op : State → State} (h_op : ∀ x, Keeps b₀ x → Keeps b₀ (op x)) (hb₀ : Keeps b₀ s) : Keeps b₀ (evtWrite s f op) := by
  unfold evtWrite
  repeat' first
    | with_reducible assumption
    | with_reducible apply h_op
    | with_reducible apply draw_keeps
    | with_reducible apply modFunc_keeps
    | with_reducible apply lostWrite_keeps
    | fail_if_no_progress (with_reducible apply keeps_mk)
    | with_reducible apply keeps_ite

theorem evtPendOp_keeps {b₀ : State} {s : State} {f m : Nat} (hb₀ : Keeps b₀ s) : Keeps b₀ (evtPendOp s f m) := by
  unfold evtPendOp
  repeat' first
    | with_reducible assumption
    | with_reducible apply modFunc_keeps

theorem evtMaskOp_keeps {b₀ : State} {s : State} {f m : Nat} (hb₀ : Keeps b₀ s) : Keeps b₀ (evtMaskOp s f m) := by
  unfold evtMaskOp
  repeat' first
    | with_reducible assumption
    | with_reducible apply modFunc_keeps
    | with_reducible apply voteMask_keeps
    | with_reducible apply raiseVec_keeps
    | with_reducible apply foldN_keeps
    | (intro x a hx; try beta_reduce)

theorem execEvtPendClear_keeps {b₀ : State} {f : Fin 65} {mask : BitVec 32} {s : State} (hb₀ : Keeps b₀ s) : Ends b₀ (execEvtPendClear f mask s) := by
  unfold execEvtPendClear
  repeat' first
    | with_reducible assumption
    | with_reducible apply evtWrite_keeps
    | with_reducible apply evtPendOp_keeps
    | with_reducible apply ends_next
    | with_reducible apply ends_fault
    | (intro x hx; try beta_reduce)
    | fail_if_no_progress (with_reducible apply keeps_mk)
    | with_reducible apply keeps_ite
    | with_reducible apply ends_ite

theorem execEvtMaskWrite_keeps {b₀ : State} {f : Fin 65} {mask : BitVec 32} {s : State} (hb₀ : Keeps b₀ s) : Ends b₀ (execEvtMaskWrite f mask s) := by
  unfold execEvtMaskWrite
  repeat' first
    | with_reducible assumption
    | with_reducible apply evtWrite_keeps
    | with_reducible apply evtMaskOp_keeps
    | with_reducible apply ends_next
    | with_reducible apply ends_fault
    | (intro x hx; try beta_reduce)
    | fail_if_no_progress (with_reducible apply keeps_mk)
    | with_reducible apply keeps_ite
    | with_reducible apply ends_ite

theorem evtVecOp_keeps {b₀ : State} {s : State} {f k v : Nat} (hb₀ : Keeps b₀ s) : Keeps b₀ (evtVecOp s f k v) := by
  unfold evtVecOp
  repeat' first
    | with_reducible assumption
    | with_reducible apply modFunc_keeps

theorem msixOp_keeps {b₀ : State} {s : State} {f v d n : Nat} (hb₀ : Keeps b₀ s) : Keeps b₀ (msixOp s f v d n) := by
  unfold msixOp
  repeat' first
    | with_reducible assumption
    | with_reducible apply modFunc_keeps
    | with_reducible apply voteMsix_keeps
    | with_reducible apply raiseVec_keeps
    | (extract_lets +onlyGivenNames x; refine keeps_step (r := b₀) (x := x) ?_ (fun hx => ?_); subst x; rotate_left; clear_value x; revert x; intro _ _)
    | (extract_lets +onlyGivenNames x; clear_value x; revert x; intro _)
    | fail_if_no_progress (with_reducible apply keeps_mk)
    | with_reducible apply keeps_ite

theorem registerOp_keeps {b₀ : State} {s : State} {f off v : Nat} (hb₀ : Keeps b₀ s) : Keeps b₀ (registerOp s f off v) := by
  unfold registerOp
  repeat' first
    | with_reducible assumption
    | with_reducible apply modFunc_keeps
    | with_reducible apply modRing_keeps
    | with_reducible apply doorbellOp_keeps
    | with_reducible apply cqHeadOp_keeps
    | with_reducible apply evtWrite_keeps
    | with_reducible apply evtPendOp_keeps
    | with_reducible apply evtMaskOp_keeps
    | with_reducible apply evtVecOp_keeps
    | with_reducible apply msixOp_keeps
    | (intro x hx; try beta_reduce)
    | fail_if_no_progress (with_reducible apply keeps_mk)
    | with_reducible apply keeps_ite
    | split

theorem execNop_keeps {b₀ : State} {h : CmdHdr} {s : State} (hb₀ : Keeps b₀ s) : Ends b₀ (execNop h s) := by
  unfold execNop
  repeat' first
    | with_reducible assumption
    | with_reducible apply completeR_keeps
    | with_reducible apply beginCmd_keeps
    | with_reducible apply ends_next
    | with_reducible apply ends_fault
    | with_reducible refine keeps_fst (by with_reducible assumption) ?_
    | fail_if_no_progress (with_reducible apply keeps_mk)
    | with_reducible apply keeps_ite
    | with_reducible apply ends_ite
    | split

theorem execCommandBadop_keeps {b₀ : State} {h : CmdHdr} {op : BitVec 8} {s : State} (hb₀ : Keeps b₀ s) : Ends b₀ (execCommandBadop h op s) := by
  unfold execCommandBadop
  repeat' first
    | with_reducible assumption
    | with_reducible apply voteRing_keeps
    | with_reducible apply countDrop_keeps
    | with_reducible apply completeOpenAlways_keeps
    | with_reducible apply takeCmd_keeps
    | with_reducible apply spoof_keeps
    | with_reducible apply ends_next
    | with_reducible apply ends_fault
    | (extract_lets +onlyGivenNames x; refine keeps_step (r := b₀) (x := x) ?_ (fun hx => ?_); subst x; rotate_left; clear_value x; revert x; intro _ _)
    | with_reducible refine keeps_fst (by with_reducible assumption) ?_
    | fail_if_no_progress (with_reducible apply keeps_mk)
    | with_reducible apply keeps_ite
    | with_reducible apply ends_ite

end Sys2Proof.Machine
end

