-- ==== Sys2Proof/Laws/KeepsMixer.lean ====
section
/-!
SUPPORT. Each operation of Machine/Mixer.lean keeps the queue and the invariant.
-/

namespace Sys2Proof.Machine

theorem modSnd_keeps {b₀ : State} {s : State} {g : Snd → Snd} (hb₀ : Keeps b₀ s) : Keeps b₀ (modSnd s g) := by
  unfold modSnd
  repeat' first
    | with_reducible assumption
    | fail_if_no_progress (with_reducible apply keeps_mk)

theorem rampGain_keeps {b₀ : State} {s : State} {k v : Nat} (hb₀ : Keeps b₀ s) : Keeps b₀ (rampGain s k v) := by
  unfold rampGain
  repeat' first
    | with_reducible assumption
    | with_reducible apply writeN_keeps
    | with_reducible apply modSnd_keeps
    | fail_if_no_progress (with_reducible apply keeps_mk)
    | with_reducible apply keeps_ite

theorem notePast_keeps {b₀ : State} {s : State} (hb₀ : Keeps b₀ s) : Keeps b₀ (notePast s) := by
  unfold notePast
  repeat' first
    | with_reducible assumption
    | with_reducible apply modSnd_keeps
    | fail_if_no_progress (with_reducible apply keeps_mk)
    | with_reducible apply keeps_ite
    | split

theorem formOutputs_keeps {b₀ : State} {s : State} {tdm : TdmIn} {t0 : Nat} (hb₀ : Keeps b₀ s) : Keeps b₀ (formOutputs s tdm t0) := by
  unfold formOutputs
  repeat' first
    | with_reducible assumption
    | with_reducible apply bumpBy_keeps
    | with_reducible apply modSnd_keeps
    | with_reducible apply foldl_keeps
    | with_reducible apply foldl_keeps1
    | (intro x a hx; try beta_reduce)
    | fail_if_no_progress (with_reducible apply keeps_mk)
    | with_reducible apply keeps_ite

end Sys2Proof.Machine
end

