-- ==== Sys2Proof/Laws/KeepsSound.lean ====
section
/-!
SUPPORT. Each operation of Machine/Sound.lean keeps the queue and the invariant.
-/

namespace Sys2Proof.Machine

theorem streamEvent_keeps {b₀ : State} {s : State} {capture : Bool} {n code : Nat} (hb₀ : Keeps b₀ s) : Keeps b₀ (streamEvent s capture n code) := by
  unfold streamEvent
  repeat' first
    | with_reducible assumption
    | with_reducible apply emit_keeps

theorem streamRuns_keeps {b₀ : State} {s : State} {capture : Bool} {n : Nat} (hb₀ : Keeps b₀ s) : Keeps b₀ (streamRuns s capture n) := by
  unfold streamRuns
  repeat' first
    | with_reducible assumption
    | with_reducible apply putN_keeps
    | with_reducible apply draw_keeps
    | with_reducible apply modSnd_keeps
    | with_reducible apply streamEvent_keeps

theorem streamStops_keeps {b₀ : State} {s : State} {capture : Bool} {n : Nat} (hb₀ : Keeps b₀ s) : Keeps b₀ (streamStops s capture n) := by
  unfold streamStops
  repeat' first
    | with_reducible assumption
    | with_reducible apply putN_keeps
    | with_reducible apply streamEvent_keeps
    | fail_if_no_progress (with_reducible apply keeps_mk)
    | with_reducible apply keeps_ite

theorem streamApply_keeps {b₀ : State} {s : State} {capture : Bool} {n sub v : Nat} (hb₀ : Keeps b₀ s) : Keeps b₀ (streamApply s capture n sub v) := by
  unfold streamApply
  repeat' first
    | with_reducible assumption
    | with_reducible apply writeN_keeps
    | with_reducible apply rampGain_keeps
    | with_reducible apply streamRuns_keeps
    | with_reducible apply streamStops_keeps
    | (extract_lets +onlyGivenNames x; refine keeps_step (r := b₀) (x := x) ?_ (fun hx => ?_); subst x; rotate_left; clear_value x; revert x; intro _ _)
    | (extract_lets +onlyGivenNames x; clear_value x; revert x; intro _)
    | fail_if_no_progress (with_reducible apply keeps_mk)
    | with_reducible apply keeps_ite

theorem sndTryRun_keeps {b₀ : State} {s : State} (hb₀ : Keeps b₀ s) : Keeps b₀ (sndTryRun s) := by
  unfold sndTryRun
  repeat' first
    | with_reducible assumption
    | with_reducible apply putN_keeps
    | with_reducible apply putB_keeps
    | with_reducible apply modSnd_keeps
    | with_reducible apply streamRuns_keeps
    | with_reducible apply foldl_keeps
    | with_reducible apply foldl_keeps1
    | (intro x a hx; try beta_reduce)
    | (extract_lets +onlyGivenNames x; refine keeps_step (r := b₀) (x := x) ?_ (fun hx => ?_); subst x; rotate_left; clear_value x; revert x; intro _ _)
    | fail_if_no_progress (with_reducible apply keeps_mk)
    | with_reducible apply keeps_ite

theorem startSound_keeps {b₀ : State} {s : State} (hb₀ : Keeps b₀ s) : Keeps b₀ (startSound s) := by
  unfold startSound
  repeat' first
    | with_reducible assumption
    | with_reducible apply putN_keeps
    | with_reducible apply writeB_keeps
    | with_reducible apply settle_keeps
    | with_reducible apply sndTryRun_keeps

theorem sndQueued_keeps {b₀ : State} {s : State} (hb₀ : Keeps b₀ s) : Keeps b₀ (sndQueued s) := by
  unfold sndQueued
  repeat' first
    | with_reducible assumption
    | with_reducible apply resolved_keeps
    | with_reducible apply startSound_keeps
    | fail_if_no_progress (with_reducible apply keeps_mk)
    | with_reducible apply keeps_ite

theorem silence_keeps {b₀ : State} {s : State} (hb₀ : Keeps b₀ s) : Keeps b₀ (silence s) := by
  unfold silence
  repeat' first
    | with_reducible assumption
    | with_reducible apply putB_keeps
    | with_reducible apply modSnd_keeps
    | with_reducible apply streamStops_keeps
    | with_reducible apply foldl_keeps
    | with_reducible apply foldl_keeps1
    | (intro x a hx; try beta_reduce)

theorem sndStopCheck_keeps {b₀ : State} {s : State} (hb₀ : Keeps b₀ s) : Keeps b₀ (sndStopCheck s) := by
  unfold sndStopCheck
  repeat' first
    | with_reducible assumption
    | with_reducible apply putN_keeps
    | with_reducible apply sndQueued_keeps
    | fail_if_no_progress (with_reducible apply keeps_mk)
    | with_reducible apply keeps_ite

theorem shutSound_keeps {b₀ : State} {s : State} (hb₀ : Keeps b₀ s) : Keeps b₀ (shutSound s) := by
  unfold shutSound
  repeat' first
    | with_reducible assumption
    | with_reducible apply putN_keeps
    | with_reducible apply settle_keeps
    | with_reducible apply silence_keeps
    | with_reducible apply sndStopCheck_keeps

theorem stopSound_keeps {b₀ : State} {s : State} (hb₀ : Keeps b₀ s) : Keeps b₀ (stopSound s) := by
  unfold stopSound
  repeat' first
    | with_reducible assumption
    | with_reducible apply writeB_keeps
    | with_reducible apply shutSound_keeps
    | (extract_lets +onlyGivenNames x; refine keeps_step (r := b₀) (x := x) ?_ (fun hx => ?_); subst x; rotate_left; clear_value x; revert x; intro _ _)
    | fail_if_no_progress (with_reducible apply keeps_mk)
    | with_reducible apply keeps_ite

theorem sndEnableApply_keeps {b₀ : State} {s : State} {on : Bool} (hb₀ : Keeps b₀ s) : Keeps b₀ (sndEnableApply s on).1 := by
  unfold sndEnableApply
  repeat' first
    | with_reducible assumption
    | with_reducible apply enableWrite_keeps
    | with_reducible apply startSound_keeps
    | with_reducible apply stopSound_keeps

theorem endChime_keeps {b₀ : State} {s : State} (hb₀ : Keeps b₀ s) : Keeps b₀ (endChime s) := by
  unfold endChime
  repeat' first
    | with_reducible assumption
    | with_reducible apply putN_keeps
    | with_reducible apply modSnd_keeps
    | with_reducible apply notePast_keeps

theorem cutSound_keeps {b₀ : State} {s : State} (hb₀ : Keeps b₀ s) : Keeps b₀ (cutSound s) := by
  unfold cutSound
  repeat' first
    | with_reducible assumption
    | with_reducible apply putN_keeps
    | with_reducible apply modSnd_keeps
    | with_reducible apply silence_keeps
    | with_reducible apply sndStopCheck_keeps
    | with_reducible apply endChime_keeps
    | (extract_lets +onlyGivenNames x; refine keeps_step (r := b₀) (x := x) ?_ (fun hx => ?_); subst x; rotate_left; clear_value x; revert x; intro _ _)
    | fail_if_no_progress (with_reducible apply keeps_mk)
    | with_reducible apply keeps_ite

theorem flrSound_keeps {b₀ : State} {s : State} {f : Nat} (hb₀ : Keeps b₀ s) : Keeps b₀ (flrSound s f) := by
  unfold flrSound
  repeat' first
    | with_reducible assumption
    | with_reducible apply streamStops_keeps
    | with_reducible apply foldl_keeps
    | with_reducible apply foldl_keeps1
    | (intro x a hx; try beta_reduce)
    | fail_if_no_progress (with_reducible apply keeps_mk)
    | with_reducible apply keeps_ite

theorem flrSoundDone_keeps {b₀ : State} {s : State} {f : Nat} (hb₀ : Keeps b₀ s) : Keeps b₀ (flrSoundDone s f) := by
  unfold flrSoundDone
  repeat' first
    | with_reducible assumption
    | with_reducible apply writeV_keeps
    | with_reducible apply foldN_keeps
    | with_reducible apply foldl_keeps
    | with_reducible apply foldl_keeps1
    | (intro x a hx; try beta_reduce)
    | fail_if_no_progress (with_reducible apply keeps_mk)
    | with_reducible apply keeps_ite

theorem freeStreams_keeps {b₀ : State} {s : State} {f : Nat} (hb₀ : Keeps b₀ s) : Keeps b₀ (freeStreams s f) := by
  unfold freeStreams
  repeat' first
    | with_reducible assumption
    | with_reducible apply writeN_keeps
    | with_reducible apply foldl_keeps
    | with_reducible apply foldl_keeps1
    | (intro x a hx; try beta_reduce)
    | fail_if_no_progress (with_reducible apply keeps_mk)
    | with_reducible apply keeps_ite

theorem xrunEvent_keeps {b₀ : State} {s : State} {kind n : Nat} {fs : List Nat} (hb₀ : Keeps b₀ s) : Keeps b₀ (xrunEvent s kind n fs) := by
  unfold xrunEvent
  repeat' first
    | with_reducible assumption
    | with_reducible apply draw_keeps
    | with_reducible apply emit_keeps

theorem inputPeriod_keeps {b₀ : State} {s : State} {i wr : Nat} (hb₀ : Keeps b₀ s) : Keeps b₀ (inputPeriod s i wr) := by
  unfold inputPeriod
  repeat' first
    | with_reducible assumption
    | with_reducible apply putN_keeps
    | with_reducible apply bump_keeps
    | with_reducible apply hostWrite_keeps
    | with_reducible apply modSnd_keeps
    | with_reducible apply xrunEvent_keeps
    | with_reducible apply foldl_keeps
    | with_reducible apply foldl_keeps1
    | (extract_lets +onlyGivenNames x; refine keeps_step (r := b₀) (x := x) ?_ (fun hx => ?_); subst x; rotate_left; clear_value x; revert x; intro _ _)
    | with_reducible refine keeps_host ?_ (memSetAll_wf _ _)
    | fail_if_no_progress (with_reducible apply keeps_mk)
    | with_reducible apply keeps_ite

theorem ringWrite_keeps {b₀ : State} {s : State} {f base frames size pos : Nat} {data : List Byte} (hb₀ : Keeps b₀ s) : Keeps b₀ (ringWrite s f base frames size pos data) := by
  unfold ringWrite
  repeat' first
    | with_reducible assumption
    | with_reducible apply hostWrite_keeps
    | with_reducible apply take_keeps
    | (extract_lets +onlyGivenNames x; refine keeps_step (r := b₀) (x := x) ?_ (fun hx => ?_); subst x; rotate_left; clear_value x; revert x; intro _ _)
    | (extract_lets +onlyGivenNames x; clear_value x; revert x; intro _)
    | with_reducible refine keeps_host ?_ (memSetAll_wf _ _)
    | fail_if_no_progress (with_reducible apply keeps_mk)
    | with_reducible apply keeps_ite

theorem capturePeriod_keeps {b₀ : State} {s : State} {tdm : TdmIn} {t0 c rd : Nat} (hb₀ : Keeps b₀ s) : Keeps b₀ (capturePeriod s tdm t0 c rd) := by
  unfold capturePeriod
  repeat' first
    | with_reducible assumption
    | with_reducible apply bump_keeps
    | with_reducible apply hostWrite_keeps
    | with_reducible apply modSnd_keeps
    | with_reducible apply xrunEvent_keeps
    | with_reducible apply ringWrite_keeps
    | (extract_lets +onlyGivenNames x; refine keeps_step (r := b₀) (x := x) ?_ (fun hx => ?_); subst x; rotate_left; clear_value x; revert x; intro _ _)
    | (extract_lets +onlyGivenNames x; clear_value x; revert x; intro _)
    | with_reducible refine keeps_host ?_ (memSetAll_wf _ _)
    | fail_if_no_progress (with_reducible apply keeps_mk)
    | with_reducible apply keeps_ite

theorem execAudioPeriod_keeps {b₀ : State} {a : AudioIn} {s : State} (hb₀ : Keeps b₀ s) : Ends b₀ (execAudioPeriod a s) := by
  unfold execAudioPeriod
  repeat' first
    | with_reducible assumption
    | with_reducible apply modSnd_keeps
    | with_reducible apply formOutputs_keeps
    | with_reducible apply inputPeriod_keeps
    | with_reducible apply capturePeriod_keeps
    | with_reducible apply ends_next
    | with_reducible apply ends_fault
    | with_reducible apply foldN_keeps
    | (intro x a hx; try beta_reduce)
    | (extract_lets +onlyGivenNames x; refine keeps_step (r := b₀) (x := x) ?_ (fun hx => ?_); subst x; rotate_left; clear_value x; revert x; intro _ _)
    | (extract_lets +onlyGivenNames x; clear_value x; revert x; intro _)
    | with_reducible refine keeps_host ?_ (memSetAll_wf _ _)
    | fail_if_no_progress (with_reducible apply keeps_mk)
    | with_reducible apply keeps_ite
    | with_reducible apply ends_ite

theorem execAvtpPacketRx_keeps {b₀ : State} {listener : Fin 8} {presentation : BitVec 64} {samples : List (BitVec 24)} {s : State} (hb₀ : Keeps b₀ s) : Ends b₀ (execAvtpPacketRx listener presentation samples s) := by
  unfold execAvtpPacketRx
  repeat' first
    | with_reducible assumption
    | with_reducible apply modSnd_keeps
    | with_reducible apply xrunEvent_keeps
    | with_reducible apply ends_next
    | with_reducible apply ends_fault
    | (extract_lets +onlyGivenNames x; refine keeps_step (r := b₀) (x := x) ?_ (fun hx => ?_); subst x; rotate_left; clear_value x; revert x; intro _ _)
    | (extract_lets +onlyGivenNames x; clear_value x; revert x; intro _)
    | fail_if_no_progress (with_reducible apply keeps_mk)
    | with_reducible apply keeps_ite
    | with_reducible apply ends_ite

theorem execAvtpPacketTx_keeps {b₀ : State} {talker : Fin 8} {s : State} (hb₀ : Keeps b₀ s) : Ends b₀ (execAvtpPacketTx talker s) := by
  unfold execAvtpPacketTx
  repeat' first
    | with_reducible assumption
    | with_reducible apply modSnd_keeps
    | with_reducible apply ends_next
    | with_reducible apply ends_fault
    | (extract_lets +onlyGivenNames x; clear_value x; revert x; intro _)
    | fail_if_no_progress (with_reducible apply keeps_mk)
    | with_reducible apply keeps_ite
    | with_reducible apply ends_ite

theorem execClockLockChange_keeps {b₀ : State} {locked : Bool} {s : State} (hb₀ : Keeps b₀ s) : Ends b₀ (execClockLockChange locked s) := by
  unfold execClockLockChange
  repeat' first
    | with_reducible assumption
    | with_reducible apply putB_keeps
    | with_reducible apply ends_next
    | with_reducible apply ends_fault
    | fail_if_no_progress (with_reducible apply keeps_mk)
    | with_reducible apply keeps_ite

theorem execChimeStart_keeps {b₀ : State} {clip : Fin 16} {repeats : BitVec 8} {s : State} (hb₀ : Keeps b₀ s) : Ends b₀ (execChimeStart clip repeats s) := by
  unfold execChimeStart
  repeat' first
    | with_reducible assumption
    | with_reducible apply putN_keeps
    | with_reducible apply modSnd_keeps
    | with_reducible apply notePast_keeps
    | with_reducible apply ends_next
    | with_reducible apply ends_fault
    | fail_if_no_progress (with_reducible apply keeps_mk)
    | with_reducible apply keeps_ite
    | with_reducible apply ends_ite

theorem execChimeStop_keeps {b₀ : State} {s : State} (hb₀ : Keeps b₀ s) : Ends b₀ (execChimeStop s) := by
  unfold execChimeStop
  repeat' first
    | with_reducible assumption
    | with_reducible apply endChime_keeps
    | with_reducible apply ends_next
    | with_reducible apply ends_fault
    | fail_if_no_progress (with_reducible apply keeps_mk)
    | with_reducible apply keeps_ite
    | with_reducible apply ends_ite

theorem execChimeEnd_keeps {b₀ : State} {s : State} (hb₀ : Keeps b₀ s) : Ends b₀ (execChimeEnd s) := by
  unfold execChimeEnd
  repeat' first
    | with_reducible assumption
    | with_reducible apply endChime_keeps
    | with_reducible apply ends_next
    | with_reducible apply ends_fault
    | (extract_lets +onlyGivenNames x; clear_value x; revert x; intro _)
    | fail_if_no_progress (with_reducible apply keeps_mk)
    | with_reducible apply keeps_ite
    | with_reducible apply ends_ite
    | split

end Sys2Proof.Machine
end

