-- ==== Sys2Proof/Laws/KeepsTouch.lean ====
section
/-!
SUPPORT. Each operation of Machine/Touch.lean keeps the queue and the invariant.
-/

namespace Sys2Proof.Machine

theorem modPanel_keeps {b₀ : State} {s : State} {p : Nat} {g : Panel → Panel} (hb₀ : Keeps b₀ s) : Keeps b₀ (modPanel s p g) := by
  unfold modPanel
  repeat' first
    | with_reducible assumption
    | fail_if_no_progress (with_reducible apply keeps_mk)

theorem writeReport_keeps {b₀ : State} {s : State} {p f : Nat} {b : TouchBuffer} {rs : List (Contact × Nat)} {palm beyond : Bool} (hb₀ : Keeps b₀ s) : Keeps b₀ (writeReport s p f b rs palm beyond) := by
  unfold writeReport
  repeat' first
    | with_reducible assumption
    | with_reducible apply emit_keeps
    | with_reducible apply hostWrite_keeps
    | with_reducible apply take_keeps
    | with_reducible apply modPanel_keeps
    | with_reducible refine keeps_host ?_ (memSetAll_wf _ _)
    | fail_if_no_progress (with_reducible apply keeps_mk)

theorem writeReports_keeps {b₀ : State} {s : State} {p : Nat} {rs : List (Contact × Nat)} {beyond : Bool} {latency : Nat} (hb₀ : Keeps b₀ s) : Keeps b₀ (writeReports s p rs beyond latency) := by
  unfold writeReports
  repeat' first
    | with_reducible assumption
    | with_reducible apply putN_keeps
    | with_reducible apply writeReport_keeps
    | with_reducible apply foldl_keeps
    | with_reducible apply foldl_keeps1
    | (intro x a hx; try beta_reduce)
    | (extract_lets +onlyGivenNames x; refine keeps_step (r := b₀) (x := x) ?_ (fun hx => ?_); subst x; rotate_left; clear_value x; revert x; intro _ _)
    | (extract_lets +onlyGivenNames x; clear_value x; revert x; intro _)
    | fail_if_no_progress (with_reducible apply keeps_mk)
    | with_reducible apply keeps_ite

theorem releaseBuffer_keeps {b₀ : State} {s : State} {p f : Nat} (hb₀ : Keeps b₀ s) : Keeps b₀ (releaseBuffer s p f) := by
  unfold releaseBuffer
  repeat' first
    | with_reducible assumption
    | with_reducible apply complete_keeps
    | with_reducible apply modPanel_keeps
    | fail_if_no_progress (with_reducible apply keeps_mk)
    | with_reducible apply keeps_ite
    | split

theorem showSuspects_keeps {b₀ : State} {s : State} {p : Nat} (hb₀ : Keeps b₀ s) : Keeps b₀ (showSuspects s p) := by
  unfold showSuspects
  repeat' first
    | with_reducible assumption
    | with_reducible apply putN_keeps

theorem recalStep_keeps {b₀ : State} {s : State} {p : Nat} (hb₀ : Keeps b₀ s) : Keeps b₀ (recalStep s p) := by
  unfold recalStep
  repeat' first
    | with_reducible assumption
    | with_reducible apply bump_keeps
    | with_reducible apply modPanel_keeps
    | with_reducible apply foldl_keeps
    | with_reducible apply foldl_keeps1
    | (intro x a hx; try beta_reduce)
    | fail_if_no_progress (with_reducible apply keeps_mk)
    | with_reducible apply keeps_ite
    | split

theorem recalBegin_keeps {b₀ : State} {s : State} {p grid n : Nat} (hb₀ : Keeps b₀ s) : Keeps b₀ (recalBegin s p grid n) := by
  unfold recalBegin
  repeat' first
    | with_reducible assumption
    | with_reducible apply bump_keeps
    | with_reducible apply modPanel_keeps
    | with_reducible apply foldN_keeps
    | (intro x a hx; try beta_reduce)
    | fail_if_no_progress (with_reducible apply keeps_mk)
    | with_reducible apply keeps_ite

theorem beginContact_keeps {b₀ : State} {s : State} {p : Nat} {used : List Nat} {o : TouchObject} {suspect : Bool} (hb₀ : Keeps b₀ s) : Keeps b₀ (beginContact s p used o suspect).1 := by
  unfold beginContact
  repeat' first
    | with_reducible assumption
    | with_reducible apply zoneEffect_keeps
    | (extract_lets +onlyGivenNames x; clear_value x; revert x; intro _)
    | fail_if_no_progress (with_reducible apply keeps_mk)
    | with_reducible apply keeps_ite
    | with_reducible apply keeps_ite1
    | split

theorem contactStep_keeps {b₀ : State} {s : State} {p : Nat} (hb₀ : Keeps b₀ s) : Keeps b₀ (contactStep s p).1 := by
  unfold contactStep
  repeat' first
    | with_reducible assumption
    | with_reducible apply hf1
    | with_reducible apply hf2
    | with_reducible apply hf3
    | with_reducible apply putN_keeps
    | with_reducible apply bumpBy_keeps
    | with_reducible apply take_keeps
    | with_reducible apply modPanel_keeps
    | with_reducible apply beginContact_keeps
    | with_reducible apply foldl_keeps
    | with_reducible apply foldl_keeps1
    | (intro x a hx; try beta_reduce)

theorem panelFails_keeps {b₀ : State} {s : State} {p : Nat} (hb₀ : Keeps b₀ s) : Keeps b₀ (panelFails s p) := by
  unfold panelFails
  repeat' first
    | with_reducible assumption
    | with_reducible apply putN_keeps
    | with_reducible apply emit_keeps
    | with_reducible apply updateHealth_keeps
    | with_reducible apply modPanel_keeps

theorem rebuildLine_keeps {b₀ : State} {s : State} {p l : Nat} (hb₀ : Keeps b₀ s) : Keeps b₀ (rebuildLine s p l) := by
  unfold rebuildLine
  repeat' first
    | with_reducible assumption
    | with_reducible apply modPanel_keeps
    | with_reducible apply showSuspects_keeps

theorem spareChannel_keeps {b₀ : State} {s : State} {p c ch : Nat} {ok : Nat → Bool} {cause : Nat} (hb₀ : Keeps b₀ s) : Keeps b₀ (spareChannel s p c ch ok cause).1 := by
  unfold spareChannel
  repeat' first
    | with_reducible assumption
    | with_reducible apply putV_keeps
    | with_reducible apply putN_keeps
    | with_reducible apply advanceLogGen_keeps
    | with_reducible apply substitute_keeps
    | with_reducible apply retireUnit_keeps
    | with_reducible apply failSpare_keeps
    | with_reducible apply trySpares_keeps
    | with_reducible apply rebuildLine_keeps
    | (extract_lets +onlyGivenNames x; refine keeps_step (r := b₀) (x := x) ?_ (fun hx => ?_); subst x; rotate_left; clear_value x; revert x; intro _ _)
    | (extract_lets +onlyGivenNames x; clear_value x; revert x; intro _)
    | with_reducible refine keeps_fst (by with_reducible assumption) ?_
    | fail_if_no_progress (with_reducible apply keeps_mk)
    | with_reducible apply keeps_ite
    | with_reducible apply keeps_ite1
    | split

theorem selfTest_keeps {b₀ : State} {s : State} {p : Nat} {t : PanelTest} (hb₀ : Keeps b₀ s) : Keeps b₀ (selfTest s p t).1 := by
  unfold selfTest
  repeat' first
    | with_reducible assumption
    | with_reducible apply putV_keeps
    | with_reducible apply putN_keeps
    | with_reducible apply emit_keeps
    | with_reducible apply spareChannel_keeps
    | with_reducible apply foldl_keeps
    | with_reducible apply foldl_keeps1
    | (intro x a hx; try beta_reduce)
    | with_reducible refine keeps_fst (by with_reducible assumption) ?_
    | fail_if_no_progress (with_reducible apply keeps_mk)
    | with_reducible apply keeps_ite

theorem acquire_keeps {b₀ : State} {s : State} {p : Nat} {t : PanelTest} (hb₀ : Keeps b₀ s) : Keeps b₀ (acquire s p t) := by
  unfold acquire
  repeat' first
    | with_reducible assumption
    | with_reducible apply emit_keeps
    | with_reducible apply modPanel_keeps
    | with_reducible apply showSuspects_keeps
    | (extract_lets +onlyGivenNames x; refine keeps_step (r := b₀) (x := x) ?_ (fun hx => ?_); subst x; rotate_left; clear_value x; revert x; intro _ _)
    | (extract_lets +onlyGivenNames x; clear_value x; revert x; intro _)
    | fail_if_no_progress (with_reducible apply keeps_mk)
    | with_reducible apply keeps_ite

theorem startPanel_keeps {b₀ : State} {s : State} {p : Nat} (hb₀ : Keeps b₀ s) : Keeps b₀ (startPanel s p) := by
  unfold startPanel
  repeat' first
    | with_reducible assumption
    | with_reducible apply putN_keeps
    | with_reducible apply writeB_keeps
    | with_reducible apply settle_keeps

theorem panelQueued_keeps {b₀ : State} {s : State} {p : Nat} (hb₀ : Keeps b₀ s) : Keeps b₀ (panelQueued s p) := by
  unfold panelQueued
  repeat' first
    | with_reducible assumption
    | with_reducible apply resolved_keeps
    | with_reducible apply startPanel_keeps
    | (extract_lets +onlyGivenNames x; clear_value x; revert x; intro _)
    | fail_if_no_progress (with_reducible apply keeps_mk)
    | with_reducible apply keeps_ite

theorem shutPanel_keeps {b₀ : State} {s : State} {p : Nat} (hb₀ : Keeps b₀ s) : Keeps b₀ (shutPanel s p) := by
  unfold shutPanel
  repeat' first
    | with_reducible assumption
    | with_reducible apply putN_keeps
    | with_reducible apply settle_keeps
    | with_reducible apply modPanel_keeps
    | with_reducible apply writeReports_keeps
    | with_reducible apply releaseBuffer_keeps
    | with_reducible apply foldl_keeps
    | with_reducible apply foldl_keeps1
    | (intro x a hx; try beta_reduce)
    | fail_if_no_progress (with_reducible apply keeps_mk)
    | with_reducible apply keeps_ite

theorem stopPanel_keeps {b₀ : State} {s : State} {p : Nat} (hb₀ : Keeps b₀ s) : Keeps b₀ (stopPanel s p) := by
  unfold stopPanel
  repeat' first
    | with_reducible assumption
    | with_reducible apply writeB_keeps
    | with_reducible apply shutPanel_keeps
    | (extract_lets +onlyGivenNames x; refine keeps_step (r := b₀) (x := x) ?_ (fun hx => ?_); subst x; rotate_left; clear_value x; revert x; intro _ _)
    | fail_if_no_progress (with_reducible apply keeps_mk)
    | with_reducible apply keeps_ite

theorem cutPanel_keeps {b₀ : State} {s : State} {p : Nat} (hb₀ : Keeps b₀ s) : Keeps b₀ (cutPanel s p) := by
  unfold cutPanel
  repeat' first
    | with_reducible assumption
    | with_reducible apply putN_keeps
    | with_reducible apply modPanel_keeps
    | with_reducible apply releaseBuffer_keeps
    | with_reducible apply foldl_keeps
    | with_reducible apply foldl_keeps1
    | (intro x a hx; try beta_reduce)
    | (extract_lets +onlyGivenNames x; refine keeps_step (r := b₀) (x := x) ?_ (fun hx => ?_); subst x; rotate_left; clear_value x; revert x; intro _ _)
    | fail_if_no_progress (with_reducible apply keeps_mk)
    | with_reducible apply keeps_ite

theorem leaveDrift_keeps {b₀ : State} {s : State} {p : Nat} (hb₀ : Keeps b₀ s) : Keeps b₀ (leaveDrift s p) := by
  unfold leaveDrift
  repeat' first
    | with_reducible assumption
    | with_reducible apply putN_keeps
    | with_reducible apply modPanel_keeps
    | fail_if_no_progress (with_reducible apply keeps_mk)
    | with_reducible apply keeps_ite

theorem touchRegionLost_keeps {b₀ : State} {s : State} {f p : Nat} (hb₀ : Keeps b₀ s) : Keeps b₀ (touchRegionLost s f p) := by
  unfold touchRegionLost
  repeat' first
    | with_reducible assumption
    | with_reducible apply releaseBuffer_keeps
    | fail_if_no_progress (with_reducible apply keeps_mk)
    | with_reducible apply keeps_ite

theorem flrTouch_keeps {b₀ : State} {s : State} {f : Nat} (hb₀ : Keeps b₀ s) : Keeps b₀ (flrTouch s f) := by
  unfold flrTouch
  repeat' first
    | with_reducible assumption
    | with_reducible apply modPanel_keeps
    | with_reducible apply foldN_keeps
    | (intro x a hx; try beta_reduce)

theorem panelApply_keeps {b₀ : State} {s : State} {p sub : Nat} {v : Val} (hb₀ : Keeps b₀ s) : Keeps b₀ (panelApply s p sub v).1 := by
  unfold panelApply
  repeat' first
    | with_reducible assumption
    | with_reducible apply writeV_keeps
    | with_reducible apply enableWrite_keeps
    | with_reducible apply startPanel_keeps
    | with_reducible apply stopPanel_keeps
    | with_reducible apply leaveDrift_keeps
    | (intro x hx; try beta_reduce)
    | (extract_lets +onlyGivenNames x; clear_value x; revert x; intro _)
    | fail_if_no_progress (with_reducible apply keeps_mk)
    | with_reducible apply keeps_ite
    | with_reducible apply keeps_ite1

theorem captureApply_keeps {b₀ : State} {s : State} {p sub : Nat} {v : Val} (hb₀ : Keeps b₀ s) : Keeps b₀ (captureApply s p sub v) := by
  unfold captureApply
  repeat' first
    | with_reducible assumption
    | with_reducible apply writeV_keeps
    | with_reducible apply modPanel_keeps
    | with_reducible apply leaveDrift_keeps
    | (extract_lets +onlyGivenNames x; refine keeps_step (r := b₀) (x := x) ?_ (fun hx => ?_); subst x; rotate_left; clear_value x; revert x; intro _ _)
    | fail_if_no_progress (with_reducible apply keeps_mk)
    | with_reducible apply keeps_ite

theorem checkChannels_keeps {b₀ : State} {s : State} {p : Nat} {oks : List (Bool × Bool × Bool)} (hb₀ : Keeps b₀ s) : Keeps b₀ (checkChannels s p oks).1 := by
  unfold checkChannels
  repeat' first
    | with_reducible assumption
    | with_reducible apply modPanel_keeps
    | with_reducible apply spareChannel_keeps
    | with_reducible apply foldl_keeps
    | with_reducible apply foldl_keeps1
    | (intro x a hx; try beta_reduce)
    | (extract_lets +onlyGivenNames x; refine keeps_step (r := b₀) (x := x) ?_ (fun hx => ?_); subst x; rotate_left; clear_value x; revert x; intro _ _)
    | (extract_lets +onlyGivenNames x; clear_value x; revert x; intro _)
    | with_reducible refine keeps_fst (by with_reducible assumption) ?_
    | fail_if_no_progress (with_reducible apply keeps_mk)
    | with_reducible apply keeps_ite
    | with_reducible apply keeps_ite1

theorem execTouchFrameMark_keeps {b₀ : State} {panel : Fin 4} {f : TouchFrame} {s : State} (hb₀ : Keeps b₀ s) : Ends b₀ (execTouchFrameMark panel f s) := by
  unfold execTouchFrameMark
  repeat' first
    | with_reducible assumption
    | with_reducible apply hf1
    | with_reducible apply hf2
    | with_reducible apply hf3
    | with_reducible apply putN_keeps
    | with_reducible apply modPanel_keeps
    | with_reducible apply writeReports_keeps
    | with_reducible apply showSuspects_keeps
    | with_reducible apply recalStep_keeps
    | with_reducible apply recalBegin_keeps
    | with_reducible apply contactStep_keeps
    | with_reducible apply panelFails_keeps
    | with_reducible apply checkChannels_keeps
    | with_reducible apply ends_next
    | with_reducible apply ends_fault
    | (extract_lets +onlyGivenNames x; refine keeps_step (r := b₀) (x := x) ?_ (fun hx => ?_); subst x; rotate_left; clear_value x; revert x; intro _ _)
    | (extract_lets +onlyGivenNames x; clear_value x; revert x; intro _)
    | with_reducible refine keeps_fst (by with_reducible assumption) ?_
    | fail_if_no_progress (with_reducible apply keeps_mk)
    | with_reducible apply keeps_ite
    | with_reducible apply ends_ite

theorem execStuckTimeout_keeps {b₀ : State} {panel : Fin 4} {id : Fin 16} {s : State} (hb₀ : Keeps b₀ s) : Ends b₀ (execStuckTimeout panel id s) := by
  unfold execStuckTimeout
  repeat' first
    | with_reducible assumption
    | with_reducible apply putN_keeps
    | with_reducible apply bump_keeps
    | with_reducible apply emit_keeps
    | with_reducible apply modPanel_keeps
    | with_reducible apply showSuspects_keeps
    | with_reducible apply ends_next
    | with_reducible apply ends_fault
    | with_reducible apply foldl_keeps
    | with_reducible apply foldl_keeps1
    | (extract_lets +onlyGivenNames x; refine keeps_step (r := b₀) (x := x) ?_ (fun hx => ?_); subst x; rotate_left; clear_value x; revert x; intro _ _)
    | (extract_lets +onlyGivenNames x; clear_value x; revert x; intro _)
    | fail_if_no_progress (with_reducible apply keeps_mk)
    | with_reducible apply keeps_ite
    | with_reducible apply ends_ite
    | split

theorem execDriftEntry_keeps {b₀ : State} {panel : Fin 4} {s : State} (hb₀ : Keeps b₀ s) : Ends b₀ (execDriftEntry panel s) := by
  unfold execDriftEntry
  repeat' first
    | with_reducible assumption
    | with_reducible apply putN_keeps
    | with_reducible apply modPanel_keeps
    | with_reducible apply ends_next
    | with_reducible apply ends_fault
    | (extract_lets +onlyGivenNames x; clear_value x; revert x; intro _)
    | fail_if_no_progress (with_reducible apply keeps_mk)
    | with_reducible apply keeps_ite
    | with_reducible apply ends_ite

theorem execDriftFrame_keeps {b₀ : State} {panel : Fin 4} {groups : List (BitVec 12)} {chanOk : List (Bool × Bool × Bool)} {s : State} (hb₀ : Keeps b₀ s) : Ends b₀ (execDriftFrame panel groups chanOk s) := by
  unfold execDriftFrame
  repeat' first
    | with_reducible assumption
    | with_reducible apply bump_keeps
    | with_reducible apply modPanel_keeps
    | with_reducible apply panelFails_keeps
    | with_reducible apply leaveDrift_keeps
    | with_reducible apply checkChannels_keeps
    | with_reducible apply ends_next
    | with_reducible apply ends_fault
    | (extract_lets +onlyGivenNames x; refine keeps_step (r := b₀) (x := x) ?_ (fun hx => ?_); subst x; rotate_left; clear_value x; revert x; intro _ _)
    | (extract_lets +onlyGivenNames x; clear_value x; revert x; intro _)
    | with_reducible refine keeps_fst (by with_reducible assumption) ?_
    | fail_if_no_progress (with_reducible apply keeps_mk)
    | with_reducible apply keeps_ite
    | with_reducible apply ends_ite

theorem execPanelStartDone_keeps {b₀ : State} {panel : Fin 4} {t : PanelTest} {s : State} (hb₀ : Keeps b₀ s) : Ends b₀ (execPanelStartDone panel t s) := by
  unfold execPanelStartDone
  repeat' first
    | with_reducible assumption
    | with_reducible apply putN_keeps
    | with_reducible apply updateHealth_keeps
    | with_reducible apply modPanel_keeps
    | with_reducible apply panelFails_keeps
    | with_reducible apply selfTest_keeps
    | with_reducible apply acquire_keeps
    | with_reducible apply ends_next
    | with_reducible apply ends_fault
    | with_reducible apply foldN_keeps
    | (intro x a hx; try beta_reduce)
    | (extract_lets +onlyGivenNames x; refine keeps_step (r := b₀) (x := x) ?_ (fun hx => ?_); subst x; rotate_left; clear_value x; revert x; intro _ _)
    | (extract_lets +onlyGivenNames x; clear_value x; revert x; intro _)
    | with_reducible refine keeps_fst (by with_reducible assumption) ?_
    | fail_if_no_progress (with_reducible apply keeps_mk)
    | with_reducible apply keeps_ite
    | with_reducible apply ends_ite

theorem execPanelStopDone_keeps {b₀ : State} {panel : Fin 4} {s : State} (hb₀ : Keeps b₀ s) : Ends b₀ (execPanelStopDone panel s) := by
  unfold execPanelStopDone
  repeat' first
    | with_reducible assumption
    | with_reducible apply putN_keeps
    | with_reducible apply settle_keeps
    | with_reducible apply updateHealth_keeps
    | with_reducible apply panelQueued_keeps
    | with_reducible apply ends_next
    | with_reducible apply ends_fault
    | (extract_lets +onlyGivenNames x; clear_value x; revert x; intro _)
    | fail_if_no_progress (with_reducible apply keeps_mk)
    | with_reducible apply keeps_ite
    | with_reducible apply ends_ite

theorem execTouchBuf_keeps {b₀ : State} {h : CmdHdr} {b : TouchBufPayload} {s : State} (hb₀ : Keeps b₀ s) : Ends b₀ (execTouchBuf h b s) := by
  unfold execTouchBuf
  repeat' first
    | with_reducible assumption
    | with_reducible apply completeOpen_keeps
    | with_reducible apply beginCmd_keeps
    | with_reducible apply modPanel_keeps
    | with_reducible apply releaseBuffer_keeps
    | with_reducible apply leaveDrift_keeps
    | with_reducible apply ends_next
    | with_reducible apply ends_fault
    | (extract_lets +onlyGivenNames x; refine keeps_step (r := b₀) (x := x) ?_ (fun hx => ?_); subst x; rotate_left; clear_value x; revert x; intro _ _)
    | (extract_lets +onlyGivenNames x; clear_value x; revert x; intro _)
    | with_reducible refine keeps_fst (by with_reducible assumption) ?_
    | fail_if_no_progress (with_reducible apply keeps_mk)
    | with_reducible apply keeps_ite
    | with_reducible apply ends_ite
    | split

end Sys2Proof.Machine
end

