-- ==== Sys2Proof/Laws/KeepsVfs.lean ====
section
/-!
SUPPORT. Each operation of Machine/Vfs.lean keeps the queue and the invariant.
-/

namespace Sys2Proof.Machine

theorem grantApply_keeps {b₀ : State} {s : State} {v n x : Nat} (hb₀ : Keeps b₀ s) : Keeps b₀ (grantApply s v n x) := by
  unfold grantApply
  repeat' first
    | with_reducible assumption
    | with_reducible apply writeN_keeps
    | with_reducible apply arbitrate_keeps
    | (extract_lets +onlyGivenNames x; refine keeps_step (r := b₀) (x := x) ?_ (fun hx => ?_); subst x; rotate_left; clear_value x; revert x; intro _ _)
    | fail_if_no_progress (with_reducible apply keeps_mk)
    | with_reducible apply keeps_ite

theorem regionApply_keeps {b₀ : State} {s : State} {touch : Bool} {v q sub x : Nat} (hb₀ : Keeps b₀ s) : Keeps b₀ (regionApply s touch v q sub x) := by
  unfold regionApply
  repeat' first
    | with_reducible assumption
    | with_reducible apply writeN_keeps
    | with_reducible apply touchRegionLost_keeps
    | (extract_lets +onlyGivenNames x; refine keeps_step (r := b₀) (x := x) ?_ (fun hx => ?_); subst x; rotate_left; clear_value x; revert x; intro _ _)
    | (extract_lets +onlyGivenNames x; clear_value x; revert x; intro _)
    | fail_if_no_progress (with_reducible apply keeps_mk)
    | with_reducible apply keeps_ite

theorem endFreeze_keeps {b₀ : State} {s : State} {v : Nat} (hb₀ : Keeps b₀ s) : Keeps b₀ (endFreeze s v) := by
  unfold endFreeze
  repeat' first
    | with_reducible assumption
    | with_reducible apply putN_keeps
    | with_reducible apply writeB_keeps
    | with_reducible apply emit_keeps
    | (extract_lets +onlyGivenNames x; refine keeps_step (r := b₀) (x := x) ?_ (fun hx => ?_); subst x; rotate_left; clear_value x; revert x; intro _ _)
    | (extract_lets +onlyGivenNames x; clear_value x; revert x; intro _)
    | fail_if_no_progress (with_reducible apply keeps_mk)
    | with_reducible apply keeps_ite

theorem flrLayers_keeps {b₀ : State} {s : State} {f : Nat} (hb₀ : Keeps b₀ s) : Keeps b₀ (flrLayers s f) := by
  unfold flrLayers
  repeat' first
    | with_reducible assumption
    | with_reducible apply hf1
    | with_reducible apply hf2
    | with_reducible apply hf3
    | (intro x a b hx; try beta_reduce)
    | with_reducible apply putN_keeps
    | with_reducible apply writeN_keeps
    | with_reducible apply modPort_keeps
    | with_reducible apply foldN_keeps
    | (intro x a hx; try beta_reduce)
    | (extract_lets +onlyGivenNames x; refine keeps_step (r := b₀) (x := x) ?_ (fun hx => ?_); subst x; rotate_left; clear_value x; revert x; intro _ _)
    | (extract_lets +onlyGivenNames x; refine keeps_stepF3 (r := b₀) (x := x) ?_ (fun hx => ?_); subst x; rotate_left; clear_value x; revert x; intro _ hf3)
    | (extract_lets +onlyGivenNames x; clear_value x; revert x; intro _)
    | fail_if_no_progress (with_reducible apply keeps_mk)
    | with_reducible apply keeps_ite

theorem flrStart_keeps {b₀ : State} {s : State} {f : Nat} (hb₀ : Keeps b₀ s) : Keeps b₀ (flrStart s f) := by
  unfold flrStart
  repeat' first
    | with_reducible assumption
    | with_reducible apply bump_keeps
    | with_reducible apply modFunc_keeps
    | with_reducible apply modRing_keeps
    | with_reducible apply modCtx_keeps
    | with_reducible apply closeWhere_keeps
    | with_reducible apply abandonFence_keeps
    | with_reducible apply arbitrate_keeps
    | with_reducible apply dropCtx_keeps
    | with_reducible apply flrHaptics_keeps
    | with_reducible apply flrTouch_keeps
    | with_reducible apply flrSound_keeps
    | with_reducible apply flrSpreads_keeps
    | with_reducible apply endFreeze_keeps
    | with_reducible apply flrLayers_keeps
    | with_reducible apply foldN_keeps
    | (intro x a hx; try beta_reduce)
    | (extract_lets +onlyGivenNames x; clear_value x; revert x; intro _)
    | fail_if_no_progress (with_reducible apply keeps_mk)
    | with_reducible apply keeps_ite

theorem flrRing_keeps {b₀ : State} {s : State} {h : Nat} (hb₀ : Keeps b₀ s) : Keeps b₀ (flrRing s h) := by
  unfold flrRing
  repeat' first
    | with_reducible assumption
    | with_reducible apply writeV_keeps
    | with_reducible apply modRing_keeps
    | with_reducible apply disableRing_keeps
    | with_reducible apply foldN_keeps
    | (intro x a hx; try beta_reduce)

theorem flrCtx_keeps {b₀ : State} {s : State} {c : Nat} (hb₀ : Keeps b₀ s) : Keeps b₀ (flrCtx s c) := by
  unfold flrCtx
  repeat' first
    | with_reducible assumption
    | with_reducible apply putV_keeps
    | with_reducible apply putN_keeps
    | with_reducible apply writeV_keeps
    | with_reducible apply dropTransit_keeps
    | with_reducible apply modCtx_keeps
    | with_reducible apply foldN_keeps
    | (intro x a hx; try beta_reduce)

theorem flrFence_keeps {b₀ : State} {s : State} {i : Nat} (hb₀ : Keeps b₀ s) : Keeps b₀ (flrFence s i) := by
  unfold flrFence
  repeat' first
    | with_reducible assumption
    | with_reducible apply writeN_keeps
    | with_reducible apply freeFence_keeps
    | (extract_lets +onlyGivenNames x; refine keeps_step (r := b₀) (x := x) ?_ (fun hx => ?_); subst x; rotate_left; clear_value x; revert x; intro _ _)
    | fail_if_no_progress (with_reducible apply keeps_mk)

theorem flrSurfaces_keeps {b₀ : State} {s : State} {f : Nat} (hb₀ : Keeps b₀ s) : Keeps b₀ (flrSurfaces s f) := by
  unfold flrSurfaces
  repeat' first
    | with_reducible assumption
    | with_reducible apply modSurf_keeps
    | with_reducible apply releaseReset_keeps
    | with_reducible apply foldN_keeps
    | (intro x a hx; try beta_reduce)

theorem releaseVf_keeps {b₀ : State} {s : State} {v : Nat} (hb₀ : Keeps b₀ s) : Keeps b₀ (releaseVf s v) := by
  unfold releaseVf
  repeat' first
    | with_reducible assumption
    | with_reducible apply writeV_keeps
    | with_reducible apply writeN_keeps
    | with_reducible apply grantCtx_keeps
    | with_reducible apply freeStreams_keeps
    | with_reducible apply foldN_keeps
    | (intro x a hx; try beta_reduce)
    | fail_if_no_progress (with_reducible apply keeps_mk)
    | with_reducible apply keeps_ite

theorem createVf_keeps {b₀ : State} {s : State} {v : Nat} (hb₀ : Keeps b₀ s) : Keeps b₀ (createVf s v) := by
  unfold createVf
  repeat' first
    | with_reducible assumption
    | with_reducible apply modFunc_keeps
    | with_reducible apply arbitrate_keeps

theorem vfDisabled_keeps {b₀ : State} {s : State} {v : Nat} (hb₀ : Keeps b₀ s) : Keeps b₀ (vfDisabled s v) := by
  unfold vfDisabled
  repeat' first
    | with_reducible assumption
    | with_reducible apply writeB_keeps
    | with_reducible apply dropTransit_keeps
    | with_reducible apply resolved_keeps
    | with_reducible apply arbitrate_keeps
    | with_reducible apply releaseVf_keeps
    | with_reducible apply createVf_keeps
    | (extract_lets +onlyGivenNames x; refine keeps_step (r := b₀) (x := x) ?_ (fun hx => ?_); subst x; rotate_left; clear_value x; revert x; intro _ _)
    | (extract_lets +onlyGivenNames x; clear_value x; revert x; intro _)
    | fail_if_no_progress (with_reducible apply keeps_mk)
    | with_reducible apply keeps_ite

theorem flrComplete_keeps {b₀ : State} {s : State} {f : Nat} (hb₀ : Keeps b₀ s) : Keeps b₀ (flrComplete s f) := by
  unfold flrComplete
  repeat' first
    | with_reducible assumption
    | with_reducible apply modFunc_keeps
    | with_reducible apply emit_keeps
    | with_reducible apply flrSoundDone_keeps
    | with_reducible apply flrRing_keeps
    | with_reducible apply flrCtx_keeps
    | with_reducible apply flrFence_keeps
    | with_reducible apply flrSurfaces_keeps
    | with_reducible apply vfDisabled_keeps
    | with_reducible apply foldN_keeps
    | (extract_lets +onlyGivenNames x; refine keeps_step (r := b₀) (x := x) ?_ (fun hx => ?_); subst x; rotate_left; clear_value x; revert x; intro _ _)
    | (extract_lets +onlyGivenNames x; clear_value x; revert x; intro _)
    | fail_if_no_progress (with_reducible apply keeps_mk)
    | with_reducible apply keeps_ite
    | split

theorem execFlrDone_keeps {b₀ : State} {f : Fin 65} {s : State} (hb₀ : Keeps b₀ s) : Ends b₀ (execFlrDone f s) := by
  unfold execFlrDone
  repeat' first
    | with_reducible assumption
    | with_reducible apply flrComplete_keeps
    | with_reducible apply ends_next

theorem pfFlr_keeps {b₀ : State} {s : State} {h1 : Bool} (hb₀ : Keeps b₀ s) : Keeps b₀ (pfFlr s h1) := by
  unfold pfFlr
  repeat' first
    | with_reducible assumption
    | with_reducible apply flrStart_keeps
    | with_reducible apply foldN_keeps
    | fail_if_no_progress (with_reducible apply keeps_mk)
    | with_reducible apply keeps_ite

theorem execPfFlr_keeps {b₀ : State} {h1 : Bool} {s : State} (hb₀ : Keeps b₀ s) : Ends b₀ (execPfFlr h1 s) := by
  unfold execPfFlr
  repeat' first
    | with_reducible assumption
    | with_reducible apply pfFlr_keeps
    | with_reducible apply ends_next

theorem execPcieFlr_keeps {b₀ : State} {f : Fin 65} {s : State} (hb₀ : Keeps b₀ s) : Ends b₀ (execPcieFlr f s) := by
  unfold execPcieFlr
  repeat' first
    | with_reducible assumption
    | with_reducible apply flrStart_keeps
    | with_reducible apply pfFlr_keeps
    | with_reducible apply ends_next
    | with_reducible apply ends_fault
    | fail_if_no_progress (with_reducible apply keeps_mk)
    | with_reducible apply keeps_ite
    | with_reducible apply ends_ite

theorem execVfEnableClear_keeps {b₀ : State} {s : State} (hb₀ : Keeps b₀ s) : Ends b₀ (execVfEnableClear s) := by
  unfold execVfEnableClear
  repeat' first
    | with_reducible assumption
    | with_reducible apply flrStart_keeps
    | with_reducible apply ends_next
    | with_reducible apply ends_fault
    | with_reducible apply foldN_keeps

theorem vfEnableApply_keeps {b₀ : State} {s : State} {v : Nat} {on : Bool} (hb₀ : Keeps b₀ s) : Keeps b₀ (vfEnableApply s v on).1 := by
  unfold vfEnableApply
  repeat' first
    | with_reducible assumption
    | with_reducible apply writeB_keeps
    | with_reducible apply enableWrite_keeps
    | with_reducible apply flrStart_keeps
    | with_reducible apply createVf_keeps
    | (intro x hx; try beta_reduce)

theorem vfFlrApply_keeps {b₀ : State} {s : State} {v : Nat} (hb₀ : Keeps b₀ s) : Keeps b₀ (vfFlrApply s v) := by
  unfold vfFlrApply
  repeat' first
    | with_reducible assumption
    | with_reducible apply flrStart_keeps
    | fail_if_no_progress (with_reducible apply keeps_mk)
    | with_reducible apply keeps_ite

end Sys2Proof.Machine
end

