-- ==== Sys2Proof/Laws/KeepsMigration.lean ====
section
/-!
SUPPORT. Each operation of Machine/Migration.lean keeps the queue and the invariant.
-/

namespace Sys2Proof.Machine

theorem sleepCtx_keeps {b₀ : State} {s : State} {c : Nat} (hb₀ : Keeps b₀ s) : Keeps b₀ (sleepCtx s c) := by
  unfold sleepCtx
  repeat' first
    | with_reducible assumption
    | with_reducible apply modCtx_keeps

theorem wakeCtx_keeps {b₀ : State} {s : State} {c : Nat} (hb₀ : Keeps b₀ s) : Keeps b₀ (wakeCtx s c) := by
  unfold wakeCtx
  repeat' first
    | with_reducible assumption
    | with_reducible apply modCtx_keeps

theorem freezeApply_keeps {b₀ : State} {s : State} {v : Nat} {on : Bool} (hb₀ : Keeps b₀ s) : Keeps b₀ (freezeApply s v on) := by
  unfold freezeApply
  repeat' first
    | with_reducible assumption
    | with_reducible apply putN_keeps
    | with_reducible apply writeB_keeps
    | with_reducible apply arbitrate_keeps
    | with_reducible apply ctxChanged_keeps
    | with_reducible apply wakeCtx_keeps
    | with_reducible apply foldN_keeps
    | (intro x a hx; try beta_reduce)
    | (extract_lets +onlyGivenNames x; refine keeps_step (r := b₀) (x := x) ?_ (fun hx => ?_); subst x; rotate_left; clear_value x; revert x; intro _ _)
    | fail_if_no_progress (with_reducible apply keeps_mk)
    | with_reducible apply keeps_ite

theorem execFreezeDone_keeps {b₀ : State} {v : Fin 64} {position : List Nat} {s : State} (hb₀ : Keeps b₀ s) : Ends b₀ (execFreezeDone v position s) := by
  unfold execFreezeDone
  repeat' first
    | with_reducible assumption
    | with_reducible apply putN_keeps
    | with_reducible apply emit_keeps
    | with_reducible apply arbitrate_keeps
    | with_reducible apply spillUnit_keeps
    | with_reducible apply sleepCtx_keeps
    | with_reducible apply ends_next
    | with_reducible apply ends_fault
    | with_reducible apply foldN_keeps
    | (intro x a hx; try beta_reduce)
    | (extract_lets +onlyGivenNames x; refine keeps_step (r := b₀) (x := x) ?_ (fun hx => ?_); subst x; rotate_left; clear_value x; revert x; intro _ _)
    | (extract_lets +onlyGivenNames x; clear_value x; revert x; intro _)
    | fail_if_no_progress (with_reducible apply keeps_mk)
    | with_reducible apply keeps_ite
    | with_reducible apply ends_ite
    | split

theorem saveApply_keeps {b₀ : State} {s : State} {v : Nat} (hb₀ : Keeps b₀ s) : Keeps b₀ (saveApply s v) := by
  unfold saveApply
  repeat' first
    | with_reducible assumption
    | with_reducible apply putN_keeps
    | (extract_lets +onlyGivenNames x; refine keeps_step (r := b₀) (x := x) ?_ (fun hx => ?_); subst x; rotate_left; clear_value x; revert x; intro _ _)
    | (extract_lets +onlyGivenNames x; clear_value x; revert x; intro _)
    | with_reducible refine keeps_fst (by with_reducible assumption) ?_
    | fail_if_no_progress (with_reducible apply keeps_mk)

theorem restoreApply_keeps {b₀ : State} {s : State} {v : Nat} (hb₀ : Keeps b₀ s) : Keeps b₀ (restoreApply s v) := by
  unfold restoreApply
  repeat' first
    | with_reducible assumption
    | with_reducible apply putN_keeps
    | with_reducible apply take_keeps
    | (extract_lets +onlyGivenNames x; refine keeps_step (r := b₀) (x := x) ?_ (fun hx => ?_); subst x; rotate_left; clear_value x; revert x; intro _ _)
    | (extract_lets +onlyGivenNames x; clear_value x; revert x; intro _)
    | with_reducible refine keeps_fst (by with_reducible assumption) ?_
    | with_reducible refine keeps_host ?_ (memSetAll_wf _ _)
    | fail_if_no_progress (with_reducible apply keeps_mk)

theorem restoreRing_keeps {b₀ : State} {s : State} {v h : Nat} {b : ImageBody} (hb₀ : Keeps b₀ s) : Keeps b₀ (restoreRing s v h b) := by
  unfold restoreRing
  repeat' first
    | with_reducible assumption
    | with_reducible apply writeN_keeps
    | with_reducible apply modRing_keeps
    | with_reducible apply foldl_keeps
    | with_reducible apply foldl_keeps1
    | (intro x a hx; try beta_reduce)
    | (extract_lets +onlyGivenNames x; refine keeps_step (r := b₀) (x := x) ?_ (fun hx => ?_); subst x; rotate_left; clear_value x; revert x; intro _ _)
    | fail_if_no_progress (with_reducible apply keeps_mk)
    | with_reducible apply keeps_ite
    | split

theorem restoreCtx_keeps {b₀ : State} {s : State} {v c : Nat} {b : ImageBody} (hb₀ : Keeps b₀ s) : Keeps b₀ (restoreCtx s v c b) := by
  unfold restoreCtx
  repeat' first
    | with_reducible assumption
    | with_reducible apply putN_keeps
    | with_reducible apply writeN_keeps
    | with_reducible apply modCtx_keeps
    | with_reducible apply takePool_keeps
    | with_reducible apply foldl_keeps
    | with_reducible apply foldl_keeps1
    | (intro x a hx; try beta_reduce)
    | fail_if_no_progress (with_reducible apply keeps_mk)
    | with_reducible apply keeps_ite
    | split

theorem restoreSection_keeps {b₀ : State} {v : Nat} {s : State} {x : Nat × Nat × List Byte} (hb₀ : Keeps b₀ s) : Keeps b₀ (restoreSection v s x) := by
  unfold restoreSection
  repeat' first
    | with_reducible assumption
    | with_reducible apply hf1
    | with_reducible apply hf2
    | with_reducible apply hf3
    | (intro x a b hx; try beta_reduce)
    | with_reducible apply putN_keeps
    | with_reducible apply writeN_keeps
    | with_reducible apply modSurf_keeps
    | with_reducible apply allocSurface_keeps
    | with_reducible apply commitBits_keeps
    | with_reducible apply take_keeps
    | with_reducible apply progApply_keeps
    | with_reducible apply restoreRing_keeps
    | with_reducible apply restoreCtx_keeps
    | with_reducible apply foldN_keeps
    | (intro x a hx; try beta_reduce)
    | (extract_lets +onlyGivenNames x; refine keeps_step (r := b₀) (x := x) ?_ (fun hx => ?_); subst x; rotate_left; clear_value x; revert x; intro _ _)
    | (extract_lets +onlyGivenNames x; refine keeps_stepF3 (r := b₀) (x := x) ?_ (fun hx => ?_); subst x; rotate_left; clear_value x; revert x; intro _ hf3)
    | (extract_lets +onlyGivenNames x; clear_value x; revert x; intro _)
    | with_reducible refine keeps_fst (by with_reducible assumption) ?_
    | fail_if_no_progress (with_reducible apply keeps_mk)
    | with_reducible apply keeps_ite
    | split

theorem execImageDone_keeps {b₀ : State} {v : Fin 64} {s : State} (hb₀ : Keeps b₀ s) : Ends b₀ (execImageDone v s) := by
  unfold execImageDone
  repeat' first
    | with_reducible assumption
    | with_reducible apply putN_keeps
    | with_reducible apply emit_keeps
    | with_reducible apply hostWrite_keeps
    | with_reducible apply take_keeps
    | with_reducible apply restoreSection_keeps
    | with_reducible apply ends_next
    | with_reducible apply ends_fault
    | with_reducible apply foldl_keeps
    | with_reducible apply foldl_keeps1
    | (extract_lets +onlyGivenNames x; refine keeps_step (r := b₀) (x := x) ?_ (fun hx => ?_); subst x; rotate_left; clear_value x; revert x; intro _ _)
    | (extract_lets +onlyGivenNames x; clear_value x; revert x; intro _)
    | with_reducible refine keeps_host ?_ (memSetAll_wf _ _)
    | fail_if_no_progress (with_reducible apply keeps_mk)
    | with_reducible apply keeps_ite
    | with_reducible apply ends_ite

theorem logApply_keeps {b₀ : State} {s : State} {v sub x : Nat} (hb₀ : Keeps b₀ s) : Keeps b₀ (logApply s v sub x) := by
  unfold logApply
  repeat' first
    | with_reducible assumption
    | with_reducible apply putN_keeps
    | with_reducible apply writeN_keeps
    | (extract_lets +onlyGivenNames x; refine keeps_step (r := b₀) (x := x) ?_ (fun hx => ?_); subst x; rotate_left; clear_value x; revert x; intro _ _)
    | (extract_lets +onlyGivenNames x; clear_value x; revert x; intro _)
    | fail_if_no_progress (with_reducible apply keeps_mk)
    | with_reducible apply keeps_ite

theorem execLogSwapDone_keeps {b₀ : State} {v : Fin 64} {s : State} (hb₀ : Keeps b₀ s) : Ends b₀ (execLogSwapDone v s) := by
  unfold execLogSwapDone
  repeat' first
    | with_reducible assumption
    | with_reducible apply putN_keeps
    | with_reducible apply emit_keeps
    | with_reducible apply ends_next
    | with_reducible apply ends_fault
    | (extract_lets +onlyGivenNames x; clear_value x; revert x; intro _)
    | fail_if_no_progress (with_reducible apply keeps_mk)
    | with_reducible apply keeps_ite
    | with_reducible apply ends_ite

end Sys2Proof.Machine
end

