-- ==== Sys2Proof/Laws/KeepsStored.lean ====
section
/-!
SUPPORT. Each operation of Machine/Stored.lean keeps the queue and the invariant.
-/

namespace Sys2Proof.Machine

theorem storeKey_keeps {b₀ : State} {s : State} {k : Nat} {v : Val} (hb₀ : Keeps b₀ s) : Keeps b₀ (storeKey s k v).1 := by
  unfold storeKey
  repeat' first
    | with_reducible assumption
    | with_reducible apply mramWriteRow_keeps
    | (extract_lets +onlyGivenNames x; clear_value x; revert x; intro _)
    | fail_if_no_progress (with_reducible apply keeps_mk)
    | with_reducible apply keeps_ite
    | with_reducible apply keeps_ite1

theorem writeStored_keeps {b₀ : State} {s : State} {k : Nat} {v : Val} (hb₀ : Keeps b₀ s) : Keeps b₀ (writeStored s k v).1 := by
  unfold writeStored
  repeat' first
    | with_reducible assumption
    | with_reducible apply writeV_keeps
    | with_reducible apply storeKey_keeps

theorem loadKey_keeps {b₀ : State} {s : State} {k : Nat} (hb₀ : Keeps b₀ s) : Keeps b₀ (loadKey s k) := by
  unfold loadKey
  split
  · refine keeps_objs hb₀ fun i e he => ?_
    rcases mem_tset he with rfl | he
    · exact Nat.zero_lt_succ _
    · exact i.ctr e he
  · refine bump_keeps ?_
    exact keeps_mk (s := { s with objs := tdel s.objs k }) (keeps_objs hb₀ fun i e he => i.ctr e (List.mem_filter.1 he).1)

theorem loadStored_keeps {b₀ : State} {s : State} {p : Nat → Acc → Bool} (hb₀ : Keeps b₀ s) : Keeps b₀ (loadStored s p) := by
  unfold loadStored
  repeat' first
    | with_reducible assumption
    | with_reducible apply loadKey_keeps
    | with_reducible apply foldN_keeps

theorem restoreStored_keeps {b₀ : State} {s : State} {p : Nat → Acc → Bool} (hb₀ : Keeps b₀ s) : Keeps b₀ (restoreStored s p) := by
  unfold restoreStored
  exact loadStored_keeps (keeps_objs hb₀ fun i e he => i.ctr e (List.mem_filter.1 he).1)

theorem execMramRowWrite_keeps {b₀ : State} {bank : Fin 16} {row : Fin 2048} {badReads : Nat} {s : State} (hb₀ : Keeps b₀ s) : Ends b₀ (execMramRowWrite bank row badReads s) := by
  unfold execMramRowWrite
  repeat' first
    | with_reducible assumption
    | with_reducible apply mramWriteRow_keeps
    | with_reducible apply ends_next

end Sys2Proof.Machine
end

