-- ==== Sys2Proof/Laws/KeepsOutputs.lean ====
section
/-!
SUPPORT. Each operation of Machine/Outputs.lean keeps the queue and the invariant.
-/

namespace Sys2Proof.Machine

theorem enableOutput_keeps {b₀ : State} {s : State} {p : Nat} (hb₀ : Keeps b₀ s) : Keeps b₀ (enableOutput s p) := by
  unfold enableOutput
  repeat' first
    | with_reducible assumption
    | with_reducible apply writeB_keeps
    | with_reducible apply startOutput_keeps

theorem disableOutput_keeps {b₀ : State} {s : State} {p : Nat} (hb₀ : Keeps b₀ s) : Keeps b₀ (disableOutput s p) := by
  unfold disableOutput
  repeat' first
    | with_reducible assumption
    | with_reducible apply writeB_keeps
    | with_reducible apply modPort_keeps
    | with_reducible apply settle_keeps
    | with_reducible apply stopOutput_keeps
    | with_reducible apply shed_keeps
    | (extract_lets +onlyGivenNames x; refine keeps_step (r := b₀) (x := x) ?_ (fun hx => ?_); subst x; rotate_left; clear_value x; revert x; intro _ _)
    | fail_if_no_progress (with_reducible apply keeps_mk)
    | with_reducible apply keeps_ite

theorem modeApply_keeps {b₀ : State} {s : State} {p v : Nat} (hb₀ : Keeps b₀ s) : Keeps b₀ (modeApply s p v) := by
  unfold modeApply
  repeat' first
    | with_reducible assumption
    | with_reducible apply writeN_keeps
    | with_reducible apply beginTransition_keeps
    | (extract_lets +onlyGivenNames x; refine keeps_step (r := b₀) (x := x) ?_ (fun hx => ?_); subst x; rotate_left; clear_value x; revert x; intro _ _)
    | fail_if_no_progress (with_reducible apply keeps_mk)
    | with_reducible apply keeps_ite

theorem outApply_keeps {b₀ : State} {s : State} {c : WCtx} {p sub v : Nat} (hb₀ : Keeps b₀ s) : Keeps b₀ (outApply s c p sub v).1 := by
  unfold outApply
  repeat' first
    | with_reducible assumption
    | with_reducible apply writeN_keeps
    | with_reducible apply modPort_keeps
    | with_reducible apply enableWrite_keeps
    | with_reducible apply writeStored_keeps
    | with_reducible apply commitBits_keeps
    | with_reducible apply enableOutput_keeps
    | with_reducible apply disableOutput_keeps
    | with_reducible apply modeApply_keeps
    | (intro x hx; try beta_reduce)
    | (extract_lets +onlyGivenNames x; refine keeps_step (r := b₀) (x := x) ?_ (fun hx => ?_); subst x; rotate_left; clear_value x; revert x; intro _ _)
    | (extract_lets +onlyGivenNames x; clear_value x; revert x; intro _)
    | fail_if_no_progress (with_reducible apply keeps_mk)
    | with_reducible apply keeps_ite
    | with_reducible apply keeps_ite1

theorem layerApply_keeps {b₀ : State} {s : State} {p k sub v : Nat} (hb₀ : Keeps b₀ s) : Keeps b₀ (layerApply s p k sub v) := by
  unfold layerApply
  repeat' first
    | with_reducible assumption
    | with_reducible apply writeN_keeps

theorem restartOutput_keeps {b₀ : State} {s : State} {p : Nat} (hb₀ : Keeps b₀ s) : Keeps b₀ (restartOutput s p) := by
  unfold restartOutput
  repeat' first
    | with_reducible assumption
    | with_reducible apply beginStart_keeps
    | fail_if_no_progress (with_reducible apply keeps_mk)
    | with_reducible apply keeps_ite

theorem shedOutput_keeps {b₀ : State} {s : State} {p : Nat} (hb₀ : Keeps b₀ s) : Keeps b₀ (shedOutput s p) := by
  unfold shedOutput
  repeat' first
    | with_reducible assumption
    | with_reducible apply modPort_keeps
    | with_reducible apply stopOutput_keeps
    | with_reducible apply shed_keeps
    | fail_if_no_progress (with_reducible apply keeps_mk)
    | with_reducible apply keeps_ite

end Sys2Proof.Machine
end

