-- ==== Sys2Proof/Laws/KeepsSidePins.lean ====
section
/-!
SUPPORT. Each operation of Machine/SidePins.lean keeps the queue and the invariant.
-/

namespace Sys2Proof.Machine

theorem modPin_keeps {b₀ : State} {s : State} {n : Nat} {g : Pin → Pin} (hb₀ : Keeps b₀ s) : Keeps b₀ (modPin s n g) := by
  unfold modPin
  repeat' first
    | with_reducible assumption
    | fail_if_no_progress (with_reducible apply keeps_mk)

theorem pwmHold_keeps {b₀ : State} {s : State} {n : Nat} (hb₀ : Keeps b₀ s) : Keeps b₀ (pwmHold s n) := by
  unfold pwmHold
  repeat' first
    | with_reducible assumption
    | with_reducible apply modPin_keeps
    | (extract_lets +onlyGivenNames x; clear_value x; revert x; intro _)
    | with_reducible refine keeps_fst (by with_reducible assumption) ?_
    | fail_if_no_progress (with_reducible apply keeps_mk)
    | with_reducible apply keeps_ite

theorem pinApply_keeps {b₀ : State} {s : State} {n sub v : Nat} (hb₀ : Keeps b₀ s) : Keeps b₀ (pinApply s n sub v) := by
  unfold pinApply
  repeat' first
    | with_reducible assumption
    | with_reducible apply putN_keeps
    | with_reducible apply writeN_keeps
    | with_reducible apply modPin_keeps
    | with_reducible apply pwmHold_keeps
    | (extract_lets +onlyGivenNames x; refine keeps_step (r := b₀) (x := x) ?_ (fun hx => ?_); subst x; rotate_left; clear_value x; revert x; intro _ _)
    | (extract_lets +onlyGivenNames x; clear_value x; revert x; intro _)
    | fail_if_no_progress (with_reducible apply keeps_mk)
    | with_reducible apply keeps_ite

theorem takePinEvents_keeps {b₀ : State} {s : State} {n : Nat} (hb₀ : Keeps b₀ s) : Keeps b₀ (takePinEvents s n) := by
  unfold takePinEvents
  repeat' first
    | with_reducible assumption
    | with_reducible apply putN_keeps
    | with_reducible apply bumpBy_keeps
    | with_reducible apply modPin_keeps
    | with_reducible apply overflow_keeps
    | (extract_lets +onlyGivenNames x; refine keeps_step (r := b₀) (x := x) ?_ (fun hx => ?_); subst x; rotate_left; clear_value x; revert x; intro _ _)
    | (extract_lets +onlyGivenNames x; clear_value x; revert x; intro _)
    | fail_if_no_progress (with_reducible apply keeps_mk)
    | with_reducible apply keeps_ite

theorem pinEvent_keeps {b₀ : State} {s : State} {n : Nat} (hb₀ : Keeps b₀ s) : Keeps b₀ (pinEvent s n) := by
  unfold pinEvent
  repeat' first
    | with_reducible assumption
    | with_reducible apply modPin_keeps
    | with_reducible apply takePinEvents_keeps
    | with_reducible apply overflow_keeps
    | (extract_lets +onlyGivenNames x; refine keeps_step (r := b₀) (x := x) ?_ (fun hx => ?_); subst x; rotate_left; clear_value x; revert x; intro _ _)
    | fail_if_no_progress (with_reducible apply keeps_mk)
    | with_reducible apply keeps_ite

theorem pinEdge_keeps {b₀ : State} {s : State} {n : Nat} {level : Bool} (hb₀ : Keeps b₀ s) : Keeps b₀ (pinEdge s n level) := by
  unfold pinEdge
  repeat' first
    | with_reducible assumption
    | with_reducible apply putB_keeps
    | with_reducible apply pinEvent_keeps
    | (extract_lets +onlyGivenNames x; refine keeps_step (r := b₀) (x := x) ?_ (fun hx => ?_); subst x; rotate_left; clear_value x; revert x; intro _ _)
    | (extract_lets +onlyGivenNames x; clear_value x; revert x; intro _)
    | fail_if_no_progress (with_reducible apply keeps_mk)
    | with_reducible apply keeps_ite

theorem clearPinCrossings_keeps {b₀ : State} {s : State} (hb₀ : Keeps b₀ s) : Keeps b₀ (clearPinCrossings s) := by
  unfold clearPinCrossings
  repeat' first
    | with_reducible assumption
    | with_reducible apply overflow_keeps
    | fail_if_no_progress (with_reducible apply keeps_mk)

theorem setPinStage_keeps {b₀ : State} {s : State} {ns : List Nat} {stage : Nat} (hb₀ : Keeps b₀ s) : Keeps b₀ (setPinStage s ns stage) := by
  unfold setPinStage
  repeat' first
    | with_reducible assumption
    | with_reducible apply modPin_keeps
    | with_reducible apply foldN_keeps
    | (intro x a hx; try beta_reduce)

theorem applyPinRecords_keeps {b₀ : State} {s : State} {ns : List Nat} (hb₀ : Keeps b₀ s) : Keeps b₀ (applyPinRecords s ns) := by
  unfold applyPinRecords
  repeat' first
    | with_reducible assumption
    | with_reducible apply putV_keeps
    | with_reducible apply modPin_keeps
    | with_reducible apply foldN_keeps
    | (intro x a hx; try beta_reduce)

theorem pinsToStandby_keeps {b₀ : State} {s : State} (hb₀ : Keeps b₀ s) : Keeps b₀ (pinsToStandby s) := by
  unfold pinsToStandby
  repeat' first
    | with_reducible assumption
    | with_reducible apply modPin_keeps
    | with_reducible apply foldN_keeps
    | (intro x a hx; try beta_reduce)

theorem scrubPin_keeps {b₀ : State} {s : State} {n : Nat} (hb₀ : Keeps b₀ s) : Keeps b₀ (scrubPin s n) := by
  unfold scrubPin
  repeat' first
    | with_reducible assumption
    | with_reducible apply putN_keeps
    | with_reducible apply putB_keeps
    | with_reducible apply writeN_keeps
    | with_reducible apply writeB_keeps
    | with_reducible apply modPin_keeps

theorem pinTApply_keeps {b₀ : State} {s : State} {n : Nat} {trusted : Bool} (hb₀ : Keeps b₀ s) : Keeps b₀ (pinTApply s n trusted) := by
  unfold pinTApply
  repeat' first
    | with_reducible assumption
    | with_reducible apply putN_keeps
    | with_reducible apply writeB_keeps
    | with_reducible apply scrubPin_keeps
    | (extract_lets +onlyGivenNames x; refine keeps_step (r := b₀) (x := x) ?_ (fun hx => ?_); subst x; rotate_left; clear_value x; revert x; intro _ _)
    | (extract_lets +onlyGivenNames x; clear_value x; revert x; intro _)
    | fail_if_no_progress (with_reducible apply keeps_mk)
    | with_reducible apply keeps_ite

end Sys2Proof.Machine
end

