-- ==== Sys2Proof/Laws/KeepsWorlds.lean ====
section
/-!
SUPPORT. Each operation of Machine/Worlds.lean keeps the queue and the invariant.
-/

namespace Sys2Proof.Machine

theorem violation_keeps {b₀ : State} {s : State} {who target : Nat} {write : Bool} {len : Nat} (hb₀ : Keeps b₀ s) : Keeps b₀ (violation s who target write len) := by
  unfold violation
  repeat' first
    | with_reducible assumption
    | with_reducible apply putN_keeps
    | with_reducible apply bump_keeps
    | with_reducible apply interruptTw_keeps
    | with_reducible apply emit_keeps
    | with_reducible apply modWorld_keeps
    | (intro x hx; try beta_reduce)
    | (extract_lets +onlyGivenNames x; refine keeps_step (r := b₀) (x := x) ?_ (fun hx => ?_); subst x; rotate_left; clear_value x; revert x; intro _ _)
    | fail_if_no_progress (with_reducible apply keeps_mk)
    | with_reducible apply keeps_ite

theorem execTrustedTargetAccess_keeps {b₀ : State} {who : Initiator} {target : BitVec 8} {write : Bool} {len : Fin 65} {s : State} (hb₀ : Keeps b₀ s) : Ends b₀ (execTrustedTargetAccess who target write len s) := by
  unfold execTrustedTargetAccess
  repeat' first
    | with_reducible assumption
    | with_reducible apply violation_keeps
    | with_reducible apply ends_next
    | with_reducible apply ends_fault
    | fail_if_no_progress (with_reducible apply keeps_mk)
    | with_reducible apply keeps_ite
    | with_reducible apply ends_ite

theorem dmaTApply_keeps {b₀ : State} {s : State} {n : Nat} {trusted : Bool} (hb₀ : Keeps b₀ s) : Keeps b₀ (dmaTApply s n trusted) := by
  unfold dmaTApply
  repeat' first
    | with_reducible assumption
    | with_reducible apply putN_keeps
    | with_reducible apply writeB_keeps
    | with_reducible apply modWorld_keeps
    | (intro x hx; try beta_reduce)
    | (extract_lets +onlyGivenNames x; refine keeps_step (r := b₀) (x := x) ?_ (fun hx => ?_); subst x; rotate_left; clear_value x; revert x; intro _ _)
    | (extract_lets +onlyGivenNames x; clear_value x; revert x; intro _)
    | fail_if_no_progress (with_reducible apply keeps_mk)
    | with_reducible apply keeps_ite

theorem claimHoldApply_keeps {b₀ : State} {s : State} {d : Nat} {v : Bool} (hb₀ : Keeps b₀ s) : Keeps b₀ (claimHoldApply s d v) := by
  unfold claimHoldApply
  repeat' first
    | with_reducible assumption
    | with_reducible apply putN_keeps
    | with_reducible apply writeB_keeps
    | with_reducible apply settle_keeps
    | (extract_lets +onlyGivenNames x; subst x)
    | fail_if_no_progress (with_reducible apply keeps_mk)
    | with_reducible apply keeps_ite

theorem attEntry_keeps {b₀ : State} {s : State} {slot event comp : Nat} {item : List Byte} (hb₀ : Keeps b₀ s) : Keeps b₀ (attEntry s slot event comp item) := by
  unfold attEntry
  repeat' first
    | with_reducible assumption
    | (simp only [Grog.countRow_log]; assumption)
    | with_reducible apply modGrog_keeps
    | with_reducible apply modWorld_keeps
    | (intro x hx; try beta_reduce)
    | (extract_lets +onlyGivenNames x; clear_value x; revert x; intro _)
    | fail_if_no_progress (with_reducible apply keeps_mk)
    | with_reducible apply keeps_ite

theorem extendSlot_keeps {b₀ : State} {s : State} {slot event comp : Nat} {item : List Byte} (hb₀ : Keeps b₀ s) : Keeps b₀ (extendSlot s slot event comp item) := by
  unfold extendSlot
  repeat' first
    | with_reducible assumption
    | with_reducible apply modWorld_keeps
    | with_reducible apply attEntry_keeps
    | (intro x hx; try beta_reduce)

theorem imageCheckFailed_keeps {b₀ : State} {s : State} (hb₀ : Keeps b₀ s) : Keeps b₀ (imageCheckFailed s) := by
  unfold imageCheckFailed
  repeat' first
    | with_reducible assumption
    | with_reducible apply attEntry_keeps

theorem nonceApply_keeps {b₀ : State} {s : State} {i : Nat} {nonce : List Byte} (hb₀ : Keeps b₀ s) : Keeps b₀ (nonceApply s i nonce) := by
  unfold nonceApply
  repeat' first
    | with_reducible assumption
    | with_reducible apply modSess_keeps
    | (intro x hx; try beta_reduce)
    | fail_if_no_progress (with_reducible apply keeps_mk)
    | with_reducible apply keeps_ite
    | split
    | exact ⟨hx.1, hx.2⟩
    | with_reducible exact fun _ => rfl

theorem execQuoteSigned_keeps {b₀ : State} {session : BitVec 16} {s : State} (hb₀ : Keeps b₀ s) : Ends b₀ (execQuoteSigned session s) := by
  unfold execQuoteSigned
  repeat' first
    | with_reducible assumption
    | with_reducible apply modSess_keeps
    | with_reducible apply ends_next
    | with_reducible apply ends_fault
    | (intro x hx; try beta_reduce)
    | fail_if_no_progress (with_reducible apply keeps_mk)
    | with_reducible apply keeps_ite
    | with_reducible apply ends_ite
    | split
    | exact ⟨hx.1, hx.2⟩
    | with_reducible exact fun _ => rfl

theorem gateEnd_keeps {b₀ : State} {s : State} {result : Nat} (hb₀ : Keeps b₀ s) : Keeps b₀ (gateEnd s result) := by
  unfold gateEnd
  exact modWorld_keeps hb₀ (fun _ h => memZero_wf _ _ h) (fun _ h => h)

theorem gateAbort_keeps {b₀ : State} {s : State} {result : Nat} (hb₀ : Keeps b₀ s) : Keeps b₀ (gateAbort s result) := by
  unfold gateAbort
  repeat' first
    | with_reducible assumption
    | with_reducible apply gateEnd_keeps
    | fail_if_no_progress (with_reducible apply keeps_mk)
    | with_reducible apply keeps_ite

theorem gateCall_keeps {b₀ : State} {s : State} {svc : Nat} {input : World → World} (hb₀ : Keeps b₀ s)
    (hb : ∀ w, Memory.wf w.buf → Memory.wf (input w).buf) (he : ∀ w, Memory.wf w.esram → Memory.wf (input w).esram) :
    Keeps b₀ (gateCall s svc input) := by
  have h1 : Keeps b₀ (modWorld s input) := modWorld_keeps hb₀ hb he
  unfold gateCall
  extract_lets +onlyGivenNames s1
  have h1 : Keeps b₀ s1 := h1
  clear_value s1
  split
  · exact h1
  · have h2 : Keeps b₀ (modWorld s1 (fun w => { w with svc := svc, busy := true, done := false })) :=
      modWorld_keeps h1 (fun _ h => h) (fun _ h => h)
    extract_lets +onlyGivenNames s2
    have h2 : Keeps b₀ s2 := h2
    clear_value s2
    repeat' first
      | exact h2
      | exact gateEnd_keeps h2
      | exact interruptTw_keeps h2
      | split

theorem execGateQuote_keeps {b₀ : State} {nonce : List Byte} {s : State} (hb₀ : Keeps b₀ s) : Ends b₀ (execGateQuote nonce s) :=
  ends_next (gateCall_keeps hb₀ (fun _ h => memSetAll_wf _ _ h) (fun _ h => h))

theorem execGateRandom_keeps {b₀ : State} {count : BitVec 32} {s : State} (hb₀ : Keeps b₀ s) : Ends b₀ (execGateRandom count s) :=
  ends_next (gateCall_keeps hb₀ (fun _ h => h) (fun _ h => h))

theorem execGateReleaseAsk_keeps {b₀ : State} {domain : BitVec 32} {s : State} (hb₀ : Keeps b₀ s) :
    Ends b₀ (execGateReleaseAsk domain s) :=
  ends_next (gateCall_keeps hb₀ (fun _ h => h) (fun _ h => h))

theorem execGateBadsvc_keeps {b₀ : State} {svc : BitVec 16} {s : State} (hb₀ : Keeps b₀ s) : Ends b₀ (execGateBadsvc svc s) := by
  unfold execGateBadsvc
  split
  · exact ends_next hb₀
  · exact ends_next (gateCall_keeps hb₀ (fun _ h => h) (fun _ h => h))

theorem putBuf_wf (b : List Byte) (w : World) (h : Memory.wf w.buf) : Memory.wf (putBuf b w).buf := memSetAll_wf 0 (b.take 4096) h

theorem gateAnswer_wf (s : State) (result : Nat) (w : List Byte) (h : Memory.wf s.world.buf) :
    Memory.wf (gateAnswer s result w).2.buf := by
  unfold gateAnswer
  dsimp only
  split
  · exact putBuf_wf _ _ h
  · split
    · exact putBuf_wf _ _ h
    · exact putBuf_wf _ _ h

theorem gateAnswer_esram (s : State) (result : Nat) (w : List Byte) : (gateAnswer s result w).2.esram = s.world.esram := by
  unfold gateAnswer
  dsimp only
  split
  · rfl
  · split <;> rfl

theorem execGateRelease_keeps {b₀ : State} {result nres : BitVec 4} {args : List (BitVec 32)} {bufLen : BitVec 13} {buf : List Byte}
    {s : State} (hb₀ : Keeps b₀ s) : Ends b₀ (execGateRelease result nres args bufLen buf s) := by
  unfold execGateRelease
  split
  · exact ends_next hb₀
  · refine ends_next (hb₀.trans ⟨rfl, fun i => { i with buf := ?_, esram := ?_, free := i.free }⟩)
    · exact memZero_wf _ _ (gateAnswer_wf _ _ _ i.buf)
    · have h := gateAnswer_esram s result.toNat (buf.take bufLen.toNat)
      show Memory.wf (gateAnswer s result.toNat (buf.take bufLen.toNat)).2.esram
      rw [h]; exact i.esram

theorem zeroTrusted_keeps {b₀ : State} {s : State} (hb₀ : Keeps b₀ s) : Keeps b₀ (zeroTrusted s) :=
  modWorld_keeps hb₀ (fun _ h => h) (fun _ _ => wf_nil)

theorem goDown_keeps {b₀ : State} {s : State} {cause : Nat} (hb₀ : Keeps b₀ s) : Keeps b₀ (goDown s cause) := by
  unfold goDown
  repeat' first
    | with_reducible assumption
    | with_reducible apply putN_keeps
    | with_reducible apply emitSb_keeps
    | with_reducible apply settle_keeps
    | with_reducible apply updateHealth_keeps
    | with_reducible apply gateAbort_keeps
    | (extract_lets +onlyGivenNames x; clear_value x; revert x; intro _)
    | fail_if_no_progress (with_reducible apply keeps_mk)

theorem loneRestart_keeps {b₀ : State} {s : State} {cause : Nat} (hb₀ : Keeps b₀ s) : Keeps b₀ (loneRestart s cause) := by
  unfold loneRestart
  repeat' first
    | with_reducible assumption
    | with_reducible apply putN_keeps
    | with_reducible apply bump_keeps
    | with_reducible apply emitSb_keeps
    | with_reducible apply modWorld_keeps
    | with_reducible apply gateAbort_keeps
    | with_reducible apply zeroTrusted_keeps
    | with_reducible apply goDown_keeps
    | (intro x hx; try beta_reduce)
    | (extract_lets +onlyGivenNames x; refine keeps_step (r := b₀) (x := x) ?_ (fun hx => ?_); subst x; rotate_left; clear_value x; revert x; intro _ _)
    | (extract_lets +onlyGivenNames x; clear_value x; revert x; intro _)
    | fail_if_no_progress (with_reducible apply keeps_mk)
    | with_reducible apply keeps_ite

theorem execWatchdogKick_keeps {b₀ : State} {value : BitVec 8} {s : State} (hb₀ : Keeps b₀ s) : Ends b₀ (execWatchdogKick value s) := by
  unfold execWatchdogKick
  repeat' first
    | with_reducible assumption
    | with_reducible apply modWorld_keeps
    | with_reducible apply loneRestart_keeps
    | with_reducible apply ends_next
    | with_reducible apply ends_fault
    | (intro x hx; try beta_reduce)
    | fail_if_no_progress (with_reducible apply keeps_mk)
    | with_reducible apply keeps_ite
    | with_reducible apply ends_ite

theorem execWatchdogExpiry_keeps {b₀ : State} {s : State} (hb₀ : Keeps b₀ s) : Ends b₀ (execWatchdogExpiry s) := by
  unfold execWatchdogExpiry
  repeat' first
    | with_reducible assumption
    | with_reducible apply loneRestart_keeps
    | with_reducible apply ends_next
    | with_reducible apply ends_fault
    | fail_if_no_progress (with_reducible apply keeps_mk)
    | with_reducible apply keeps_ite
    | with_reducible apply ends_ite

theorem execLockstepFault_keeps {b₀ : State} {s : State} (hb₀ : Keeps b₀ s) : Ends b₀ (execLockstepFault s) := by
  unfold execLockstepFault
  repeat' first
    | with_reducible assumption
    | with_reducible apply loneRestart_keeps
    | with_reducible apply ends_next
    | with_reducible apply ends_fault
    | fail_if_no_progress (with_reducible apply keeps_mk)
    | with_reducible apply keeps_ite
    | with_reducible apply ends_ite

theorem execTwRestartRequest_keeps {b₀ : State} {s : State} (hb₀ : Keeps b₀ s) : Ends b₀ (execTwRestartRequest s) := by
  unfold execTwRestartRequest
  repeat' first
    | with_reducible assumption
    | with_reducible apply loneRestart_keeps
    | with_reducible apply ends_next
    | with_reducible apply ends_fault
    | fail_if_no_progress (with_reducible apply keeps_mk)
    | with_reducible apply keeps_ite
    | with_reducible apply ends_ite

theorem applyAssignments_keeps {b₀ : State} {s : State} {runs : Bool} (hb₀ : Keeps b₀ s) : Keeps b₀ (applyAssignments s runs) := by
  unfold applyAssignments
  repeat' first
    | with_reducible assumption
    | with_reducible apply hf1
    | with_reducible apply hf2
    | with_reducible apply hf3
    | with_reducible apply putN_keeps
    | with_reducible apply loadStored_keeps
    | with_reducible apply applyPinRecords_keeps
    | with_reducible apply foldN_keeps
    | (intro x a hx; try beta_reduce)
    | (extract_lets +onlyGivenNames x; refine keeps_step (r := b₀) (x := x) ?_ (fun hx => ?_); subst x; rotate_left; clear_value x; revert x; intro _ _)
    | (extract_lets +onlyGivenNames x; clear_value x; revert x; intro _)
    | fail_if_no_progress (with_reducible apply keeps_mk)
    | with_reducible apply keeps_ite

theorem tryKaolinLoad_keeps {b₀ : State} {s : State} (hb₀ : Keeps b₀ s) : Keeps b₀ (tryKaolinLoad s) := by
  unfold tryKaolinLoad
  repeat' first
    | with_reducible assumption
    | with_reducible apply settle_keeps
    | with_reducible apply restoreStored_keeps
    | with_reducible apply kaolinLoad_keeps
    | (extract_lets +onlyGivenNames x; refine keeps_step (r := b₀) (x := x) ?_ (fun hx => ?_); subst x; rotate_left; clear_value x; revert x; intro _ _)
    | (extract_lets +onlyGivenNames x; clear_value x; revert x; intro _)
    | fail_if_no_progress (with_reducible apply keeps_mk)
    | with_reducible apply keeps_ite

theorem firmwareStarts_keeps {b₀ : State} {s : State} (hb₀ : Keeps b₀ s) : Keeps b₀ (firmwareStarts s) := by
  unfold firmwareStarts
  repeat' first
    | with_reducible assumption
    | with_reducible apply putN_keeps
    | with_reducible apply interruptTw_keeps
    | with_reducible apply modWorld_keeps
    | (intro x hx; try beta_reduce)
    | (extract_lets +onlyGivenNames x; refine keeps_step (r := b₀) (x := x) ?_ (fun hx => ?_); subst x; rotate_left; clear_value x; revert x; intro _ _)
    | fail_if_no_progress (with_reducible apply keeps_mk)
    | with_reducible apply keeps_ite

theorem coldRuns_keeps {b₀ : State} {s : State} (hb₀ : Keeps b₀ s) : Keeps b₀ (coldRuns s) := by
  unfold coldRuns
  repeat' first
    | with_reducible assumption
    | with_reducible apply settle_keeps
    | with_reducible apply loadStored_keeps
    | with_reducible apply modWorld_keeps
    | with_reducible apply extendSlot_keeps
    | with_reducible apply applyAssignments_keeps
    | with_reducible apply tryKaolinLoad_keeps
    | with_reducible apply firmwareStarts_keeps
    | (intro x hx; try beta_reduce)
    | (extract_lets +onlyGivenNames x; clear_value x; revert x; intro _)
    | fail_if_no_progress (with_reducible apply keeps_mk)

theorem coldDown_keeps {b₀ : State} {s : State} {cause : Nat} (hb₀ : Keeps b₀ s) : Keeps b₀ (coldDown s cause) := by
  unfold coldDown
  repeat' first
    | with_reducible assumption
    | with_reducible apply settle_keeps
    | with_reducible apply modWorld_keeps
    | with_reducible apply goDown_keeps
    | with_reducible apply applyAssignments_keeps
    | (intro x hx; try beta_reduce)
    | (extract_lets +onlyGivenNames x; clear_value x; revert x; intro _)
    | fail_if_no_progress (with_reducible apply keeps_mk)

theorem loneRuns_keeps {b₀ : State} {s : State} (hb₀ : Keeps b₀ s) : Keeps b₀ (loneRuns s) := by
  unfold loneRuns
  repeat' first
    | with_reducible assumption
    | with_reducible apply putN_keeps
    | with_reducible apply modPort_keeps
    | with_reducible apply emitSb_keeps
    | with_reducible apply updateHealth_keeps
    | with_reducible apply shadowFrom_keeps
    | with_reducible apply extendSlot_keeps
    | with_reducible apply tryKaolinLoad_keeps
    | with_reducible apply firmwareStarts_keeps
    | with_reducible apply foldN_keeps
    | (intro x a hx; try beta_reduce)
    | (extract_lets +onlyGivenNames x; clear_value x; revert x; intro _)
    | fail_if_no_progress (with_reducible apply keeps_mk)
    | with_reducible apply keeps_ite

theorem twRestartDone_keeps {b₀ : State} {outcome : BootOutcome} {s : State} (hb₀ : Keeps b₀ s) : Keeps b₀ (twRestartDone outcome s) := by
  unfold twRestartDone
  repeat' first
    | with_reducible assumption
    | with_reducible apply hf1
    | with_reducible apply hf2
    | with_reducible apply hf3
    | with_reducible apply extendSlot_keeps
    | with_reducible apply imageCheckFailed_keeps
    | with_reducible apply goDown_keeps
    | with_reducible apply coldRuns_keeps
    | with_reducible apply coldDown_keeps
    | with_reducible apply loneRuns_keeps
    | (intro x a hx; try beta_reduce)
    | (intro x hx; try beta_reduce)
    | (extract_lets +onlyGivenNames x; refine keeps_step (r := b₀) (x := x) ?_ (fun hx => ?_); subst x; rotate_left; clear_value x; revert x; intro _ _)
    | (extract_lets +onlyGivenNames x; refine keeps_stepF1 (r := b₀) (x := x) ?_ (fun hx => ?_); subst x; rotate_left; clear_value x; revert x; intro _ hf1)
    | (extract_lets +onlyGivenNames x; refine keeps_stepF2 (r := b₀) (x := x) ?_ (fun hx => ?_); subst x; rotate_left; clear_value x; revert x; intro _ hf2)
    | (extract_lets +onlyGivenNames x; clear_value x; revert x; intro _)
    | fail_if_no_progress (with_reducible apply keeps_mk)
    | with_reducible apply keeps_ite
    | split

end Sys2Proof.Machine
end

