-- ==== Sys2Proof/Laws/KeepsPower.lean ====
section
/-!
SUPPORT. Each operation of Machine/Power.lean keeps the queue and the invariant.
-/

namespace Sys2Proof.Machine

theorem modPower_keeps {b₀ : State} {s : State} {g : Power → Power} (hb₀ : Keeps b₀ s) : Keeps b₀ (modPower s g) := by
  unfold modPower
  repeat' first
    | with_reducible assumption
    | fail_if_no_progress (with_reducible apply keeps_mk)

theorem resume_keeps {b₀ : State} {s : State} (hb₀ : Keeps b₀ s) : Keeps b₀ (resume s) := by
  unfold resume
  repeat' first
    | with_reducible assumption
    | with_reducible apply restartOutput_keeps
    | with_reducible apply startHaptics_keeps
    | with_reducible apply startPanel_keeps
    | with_reducible apply startSound_keeps
    | with_reducible apply startSpread_keeps
    | with_reducible apply foldN_keeps
    | (intro x a hx; try beta_reduce)
    | fail_if_no_progress (with_reducible apply keeps_mk)
    | with_reducible apply keeps_ite

theorem shed_keeps {b₀ : State} {s : State} (hb₀ : Keeps b₀ s) : Keeps b₀ (shed s) := by
  unfold shed
  repeat' first
    | with_reducible assumption
    | with_reducible apply hf1
    | with_reducible apply hf2
    | with_reducible apply hf3
    | with_reducible apply shedOutput_keeps
    | with_reducible apply shutHaptics_keeps
    | with_reducible apply shutPanel_keeps
    | with_reducible apply shutSound_keeps
    | with_reducible apply shutSpread_keeps
    | with_reducible apply foldN_keeps
    | (intro x a hx; try beta_reduce)
    | fail_if_no_progress (with_reducible apply keeps_mk)
    | with_reducible apply keeps_ite

theorem powerSettle_keeps {b₀ : State} {s : State} (hb₀ : Keeps b₀ s) : Keeps b₀ (powerSettle s) := by
  unfold powerSettle
  repeat' first
    | with_reducible assumption
    | with_reducible apply settle_keeps
    | with_reducible apply resume_keeps
    | with_reducible apply shed_keeps

theorem loseWork_keeps {b₀ : State} {s : State} {cores : List Nat} {all : Bool} (hb₀ : Keeps b₀ s) : Keeps b₀ (loseWork s cores all) := by
  unfold loseWork
  repeat' first
    | with_reducible assumption
    | with_reducible apply hf1
    | with_reducible apply hf2
    | with_reducible apply hf3
    | with_reducible apply removePass_keeps
    | with_reducible apply killPass_keeps
    | with_reducible apply loseUnit_keeps
    | with_reducible apply foldN_keeps
    | with_reducible apply foldl_keeps
    | with_reducible apply foldl_keeps1
    | (intro x a hx; try beta_reduce)
    | fail_if_no_progress (with_reducible apply keeps_mk)
    | with_reducible apply keeps_ite

theorem loseKaolin_keeps {b₀ : State} {s : State} (hb₀ : Keeps b₀ s) : Keeps b₀ (loseKaolin s) := by
  unfold loseKaolin
  repeat' first
    | with_reducible assumption
    | with_reducible apply modPort_keeps
    | with_reducible apply gapBegin_keeps
    | with_reducible apply modPower_keeps
    | with_reducible apply foldN_keeps
    | (intro x a hx; try beta_reduce)
    | with_reducible refine keeps_kram ?_ (fun hk => by first | exact wf_nil | exact memSetAll_wf _ _ hk | exact memSetAll_wf _ _ (memSetAll_wf _ _ wf_nil))
    | fail_if_no_progress (with_reducible apply keeps_mk)
    | with_reducible apply keeps_ite

theorem loseGroup_keeps {b₀ : State} {s : State} {g : Nat} (hb₀ : Keeps b₀ s) : Keeps b₀ (loseGroup s g) := by
  unfold loseGroup
  repeat' first
    | with_reducible assumption
    | with_reducible apply putN_keeps
    | with_reducible apply zeroRank_keeps

theorem loseDomain_keeps {b₀ : State} {s : State} {d : Nat} (hb₀ : Keeps b₀ s) : Keeps b₀ (loseDomain s d) := by
  unfold loseDomain
  repeat' first
    | with_reducible assumption
    | with_reducible apply putN_keeps
    | with_reducible apply modPort_keeps
    | with_reducible apply closeWhere_keeps
    | with_reducible apply zeroTrusted_keeps
    | with_reducible apply goDown_keeps
    | with_reducible apply coldDown_keeps
    | with_reducible apply outputOff_keeps
    | with_reducible apply cutHaptics_keeps
    | with_reducible apply cutPanel_keeps
    | with_reducible apply cutSound_keeps
    | with_reducible apply fabricCut_keeps
    | with_reducible apply linkQueued_keeps
    | with_reducible apply spreadOffDone_keeps
    | with_reducible apply spreadQueued_keeps
    | with_reducible apply modPower_keeps
    | with_reducible apply shed_keeps
    | with_reducible apply loseWork_keeps
    | with_reducible apply loseKaolin_keeps
    | with_reducible apply loseGroup_keeps
    | with_reducible apply restartMigration_keeps
    | with_reducible apply foldN_keeps
    | (intro x a hx; try beta_reduce)
    | (extract_lets +onlyGivenNames x; refine keeps_step (r := b₀) (x := x) ?_ (fun hx => ?_); subst x; rotate_left; clear_value x; revert x; intro _ _)
    | fail_if_no_progress (with_reducible apply keeps_mk)
    | with_reducible apply keeps_ite

theorem cutDomain_keeps {b₀ : State} {s : State} {d : Nat} (hb₀ : Keeps b₀ s) : Keeps b₀ (cutDomain s d) := by
  unfold cutDomain
  repeat' first
    | with_reducible assumption
    | with_reducible apply putN_keeps
    | with_reducible apply interruptTw_keeps
    | with_reducible apply modPower_keeps
    | with_reducible apply loseDomain_keeps
    | (extract_lets +onlyGivenNames x; refine keeps_step (r := b₀) (x := x) ?_ (fun hx => ?_); subst x; rotate_left; clear_value x; revert x; intro _ _)
    | (extract_lets +onlyGivenNames x; clear_value x; revert x; intro _)
    | fail_if_no_progress (with_reducible apply keeps_mk)
    | with_reducible apply keeps_ite

theorem cutMany_keeps {b₀ : State} {s : State} {ds : List Nat} {cause : Nat} (hb₀ : Keeps b₀ s) : Keeps b₀ (cutMany s ds cause) := by
  unfold cutMany
  repeat' first
    | with_reducible assumption
    | with_reducible apply interruptTw_keeps
    | with_reducible apply emitSb_keeps
    | with_reducible apply modPower_keeps
    | with_reducible apply powerSettle_keeps
    | with_reducible apply cutDomain_keeps
    | with_reducible apply foldN_keeps
    | fail_if_no_progress (with_reducible apply keeps_mk)
    | with_reducible apply keeps_ite

theorem showLevel_keeps {b₀ : State} {s : State} {sensor temp : Nat} (hb₀ : Keeps b₀ s) : Keeps b₀ (showLevel s sensor temp) := by
  unfold showLevel
  repeat' first
    | with_reducible assumption
    | with_reducible apply putN_keeps
    | with_reducible apply emitSb_keeps
    | (extract_lets +onlyGivenNames x; refine keeps_step (r := b₀) (x := x) ?_ (fun hx => ?_); subst x; rotate_left; clear_value x; revert x; intro _ _)
    | (extract_lets +onlyGivenNames x; clear_value x; revert x; intro _)
    | fail_if_no_progress (with_reducible apply keeps_mk)
    | with_reducible apply keeps_ite

theorem declare_keeps {b₀ : State} {s : State} {code : Nat} (hb₀ : Keeps b₀ s) : Keeps b₀ (declare s code) := by
  unfold declare
  repeat' first
    | with_reducible assumption
    | with_reducible apply putN_keeps
    | with_reducible apply modPower_keeps
    | with_reducible apply cutMany_keeps
    | (extract_lets +onlyGivenNames x; refine keeps_step (r := b₀) (x := x) ?_ (fun hx => ?_); subst x; rotate_left; clear_value x; revert x; intro _ _)
    | (extract_lets +onlyGivenNames x; clear_value x; revert x; intro _)
    | fail_if_no_progress (with_reducible apply keeps_mk)
    | with_reducible apply keeps_ite

theorem thermalRules_keeps {b₀ : State} {s : State} (hb₀ : Keeps b₀ s) : Keeps b₀ (thermalRules s) := by
  unfold thermalRules
  repeat' first
    | with_reducible assumption
    | with_reducible apply bump_keeps
    | with_reducible apply modPower_keeps
    | with_reducible apply showLevel_keeps
    | with_reducible apply declare_keeps
    | (extract_lets +onlyGivenNames x; clear_value x; revert x; intro _)
    | fail_if_no_progress (with_reducible apply keeps_mk)
    | with_reducible apply keeps_ite
    | split

theorem throttleStep_keeps {b₀ : State} {s : State} (hb₀ : Keeps b₀ s) : Keeps b₀ (throttleStep s) := by
  unfold throttleStep
  repeat' first
    | with_reducible assumption
    | with_reducible apply modPower_keeps
    | with_reducible apply showLevel_keeps
    | with_reducible apply thermalRules_keeps
    | (extract_lets +onlyGivenNames x; clear_value x; revert x; intro _)
    | fail_if_no_progress (with_reducible apply keeps_mk)
    | with_reducible apply keeps_ite
    | split

theorem supplyRules_keeps {b₀ : State} {s : State} (hb₀ : Keeps b₀ s) : Keeps b₀ (supplyRules s) := by
  unfold supplyRules
  repeat' first
    | with_reducible assumption
    | with_reducible apply declare_keeps
    | (extract_lets +onlyGivenNames x; refine keeps_step (r := b₀) (x := x) ?_ (fun hx => ?_); subst x; rotate_left; clear_value x; revert x; intro _ _)
    | (extract_lets +onlyGivenNames x; clear_value x; revert x; intro _)
    | fail_if_no_progress (with_reducible apply keeps_mk)
    | with_reducible apply keeps_ite

theorem applySpares_keeps {b₀ : State} {s : State} (hb₀ : Keeps b₀ s) : Keeps b₀ (applySpares s) := by
  unfold applySpares
  repeat' first
    | with_reducible assumption
    | with_reducible apply putV_keeps
    | with_reducible apply putN_keeps
    | with_reducible apply countCores_keeps
    | with_reducible apply foldN_keeps
    | (intro x a hx; try beta_reduce)
    | fail_if_no_progress (with_reducible apply keeps_mk)
    | with_reducible apply keeps_ite
    | split

theorem freshState_keeps {b₀ : State} {s : State} {keep : Nat → Bool} (hb₀ : Keeps b₀ s) : Keeps b₀ (freshState s keep) := by
  have mem_sb : ∀ e ∈ s.sess.filter (fun e => e.2.isOpen && e.2.role == .sb), e ∈ s.sess ∧ e.2.isOpen = true := by
    intro e he
    have h := List.mem_filter.1 he
    simp only [Bool.and_eq_true] at h
    exact ⟨h.1, h.2.1⟩
  refine hb₀.trans ⟨rfl, fun i => ?_⟩
  constructor
  · exact i.host
  · exact wf_nil
  · exact wf_nil
  · exact wf_nil
  · exact wf_nil
  · intro e he
    obtain ⟨x, -, rfl⟩ := List.mem_map.1 he
    exact Nat.zero_lt_succ _
  · exact i.order.filter _
  · intro e he; exact i.sess e (mem_sb e he).1
  · exact List.Nodup.filter _ List.nodup_range
  · intro j
    unfold sessOf freshState
    dsimp only
    rw [List.mem_filter, List.mem_range]
    have : ∀ t : Tab Session, (∀ e ∈ t, e.2.isOpen = true) → ((!t.any (·.1 == j)) = true ↔ (tget t j {}).isOpen = false) := by
      intro t
      induction t with
      | nil => intro _; simp [tget, tfind]
      | cons a t ih =>
        intro ht
        obtain ⟨k, v⟩ := a
        by_cases hk : j = k
        · subst hk
          have := ht _ (List.mem_cons_self ..)
          simp_all [tget, tfind]
        · have hk' : ¬ k = j := fun h => hk h.symm
          have := ih (fun e he => ht e (List.mem_cons_of_mem _ he))
          simpa [tget, tfind, hk, hk'] using this
    rw [this _ (fun e he => (mem_sb e he).2)]
  · exact i.frames
  · exact Nat.zero_le _
  · exact Nat.zero_le _
  · exact Nat.zero_le _
  · exact i.grogLog

theorem powerLost_keeps {b₀ : State} {s : State} (hb₀ : Keeps b₀ s) : Keeps b₀ (powerLost s) := by
  have h := freshState_keeps (keep := fun _ => false) hb₀
  unfold powerLost
  refine h.trans ⟨rfl, fun i => ?_⟩
  constructor
  · exact i.host
  · exact i.dram
  · exact i.kram
  · exact i.buf
  · exact i.esram
  · exact i.ctr
  · exact List.Pairwise.nil
  · intro e he; cases he
  · exact List.nodup_range
  · intro j
    rw [List.mem_range]
    exact ⟨fun h => ⟨h, rfl⟩, fun h => h.1⟩
  · exact Nat.zero_le _
  · exact i.refusals
  · exact i.tilth
  · exact i.memLog
  · exact i.grogLog

theorem setMode_keeps {b₀ : State} {s : State} {m : Nat} (hb₀ : Keeps b₀ s) : Keeps b₀ (setMode s m) := by
  unfold setMode
  repeat' first
    | with_reducible assumption
    | with_reducible apply putN_keeps
    | with_reducible apply emitSb_keeps
    | fail_if_no_progress (with_reducible apply keeps_mk)
    | with_reducible apply keeps_ite

theorem moduleStart_keeps {b₀ : State} {s : State} {cause : Nat} (hb₀ : Keeps b₀ s) : Keeps b₀ (moduleStart s cause) := by
  unfold moduleStart
  repeat' first
    | with_reducible assumption
    | with_reducible apply putN_keeps
    | with_reducible apply modGrog_keeps
    | with_reducible apply updateHealth_keeps
    | with_reducible apply applySpares_keeps
    | with_reducible apply setMode_keeps
    | (intro x hx; try beta_reduce)
    | fail_if_no_progress (with_reducible apply keeps_mk)
    | with_reducible apply keeps_ite

theorem measureFirst_keeps {b₀ : State} {s : State} {js : List Nat} (hb₀ : Keeps b₀ s) : Keeps b₀ (measureFirst s js) := by
  unfold measureFirst
  repeat' first
    | with_reducible assumption
    | with_reducible apply putN_keeps
    | with_reducible apply draw_keeps
    | with_reducible apply foldN_keeps
    | (intro x a hx; try beta_reduce)

theorem coldStart_keeps {b₀ : State} {s : State} {cause : Nat} (hb₀ : Keeps b₀ s) : Keeps b₀ (coldStart s cause) := by
  unfold coldStart
  repeat' first
    | with_reducible assumption
    | with_reducible apply settle_keeps
    | with_reducible apply loadStored_keeps
    | with_reducible apply setPinStage_keeps
    | with_reducible apply modPower_keeps
    | with_reducible apply freshState_keeps
    | with_reducible apply powerLost_keeps
    | with_reducible apply moduleStart_keeps
    | with_reducible apply measureFirst_keeps
    | with_reducible refine keeps_fst (by with_reducible assumption) ?_
    | fail_if_no_progress (with_reducible apply keeps_mk)
    | with_reducible apply keeps_ite

theorem freshState_restore_keeps {b₀ : State} {s : State} {keep : Nat → Bool} (hb₀ : Keeps b₀ s) :
    Keeps b₀ { freshState s keep with world := s.world, refuseLog := s.refuseLog, kram := s.kram, islTime := s.islTime } :=
  hb₀.trans ⟨rfl, fun i =>
    have h := (freshState_keeps (keep := keep) (Keeps.refl s)).inv i
    { h with kram := i.kram, buf := i.buf, esram := i.esram, refusals := i.refusals, free := h.free }⟩

theorem openRestart_keeps {b₀ : State} {s : State} (hb₀ : Keeps b₀ s) : Keeps b₀ (openRestart s) := by
  have h := freshState_restore_keeps (keep := restartKeeps) hb₀
  unfold openRestart
  extract_lets s0 src t u v
  have ht : Keeps b₀ t := h
  have hu : Keeps b₀ u := by clear_value t; exact keeps_mk ht
  have hv : Keeps b₀ v := by clear_value u; exact modPower_keeps hu
  clear_value v
  exact moduleStart_keeps (putN_keeps _ _ (putN_keeps _ _ hv))

theorem bootOutput_keeps {b₀ : State} {s : State} {p : Nat} (hb₀ : Keeps b₀ s) : Keeps b₀ (bootOutput s p) := by
  unfold bootOutput
  repeat' first
    | with_reducible assumption
    | with_reducible apply enableOutput_keeps
    | with_reducible apply modeApply_keeps
    | (extract_lets +onlyGivenNames x; refine keeps_step (r := b₀) (x := x) ?_ (fun hx => ?_); subst x; rotate_left; clear_value x; revert x; intro _ _)
    | (extract_lets +onlyGivenNames x; clear_value x; revert x; intro _)
    | fail_if_no_progress (with_reducible apply keeps_mk)
    | with_reducible apply keeps_ite

theorem bootEnables_keeps {b₀ : State} {s : State} (hb₀ : Keeps b₀ s) : Keeps b₀ (bootEnables s) := by
  unfold bootEnables
  repeat' first
    | with_reducible assumption
    | with_reducible apply startHaptics_keeps
    | with_reducible apply startPanel_keeps
    | with_reducible apply startSound_keeps
    | with_reducible apply bootOutput_keeps
    | with_reducible apply foldN_keeps
    | (intro x a hx; try beta_reduce)
    | (extract_lets +onlyGivenNames x; refine keeps_step (r := b₀) (x := x) ?_ (fun hx => ?_); subst x; rotate_left; clear_value x; revert x; intro _ _)
    | fail_if_no_progress (with_reducible apply keeps_mk)
    | with_reducible apply keeps_ite

theorem stepSix_keeps {b₀ : State} {s : State} (hb₀ : Keeps b₀ s) : Keeps b₀ (stepSix s) := by
  unfold stepSix
  repeat' first
    | with_reducible assumption
    | with_reducible apply settle_keeps
    | with_reducible apply loadStored_keeps
    | with_reducible apply applyPinRecords_keeps
    | with_reducible apply extendSlot_keeps
    | with_reducible apply modPower_keeps
    | with_reducible apply bootEnables_keeps
    | with_reducible apply foldl_keeps
    | with_reducible apply foldl_keeps1
    | (intro x a hx; try beta_reduce)
    | fail_if_no_progress (with_reducible apply keeps_mk)
    | with_reducible apply keeps_ite

theorem advanceStart_keeps {b₀ : State} {s : State} (hb₀ : Keeps b₀ s) : Keeps b₀ (advanceStart s) := by
  unfold advanceStart
  repeat' first
    | with_reducible assumption
    | with_reducible apply settle_keeps
    | with_reducible apply modPower_keeps
    | with_reducible apply stepSix_keeps
    | (extract_lets +onlyGivenNames x; refine keeps_step (r := b₀) (x := x) ?_ (fun hx => ?_); subst x; rotate_left; clear_value x; revert x; intro _ _)
    | fail_if_no_progress (with_reducible apply keeps_mk)
    | with_reducible apply keeps_ite

theorem enterStandby_keeps {b₀ : State} {s : State} (hb₀ : Keeps b₀ s) : Keeps b₀ (enterStandby s) := by
  unfold enterStandby
  repeat' first
    | with_reducible assumption
    | with_reducible apply stopOutput_keeps
    | with_reducible apply shutSpread_keeps
    | with_reducible apply modPower_keeps
    | with_reducible apply setMode_keeps
    | with_reducible apply foldN_keeps
    | (intro x a hx; try beta_reduce)
    | fail_if_no_progress (with_reducible apply keeps_mk)
    | with_reducible apply keeps_ite

theorem standbyNext_keeps {b₀ : State} {s : State} (hb₀ : Keeps b₀ s) : Keeps b₀ (standbyNext s) := by
  unfold standbyNext
  repeat' first
    | with_reducible assumption
    | with_reducible apply hf1
    | with_reducible apply hf2
    | with_reducible apply hf3
    | with_reducible apply settle_keeps
    | with_reducible apply closeWhere_keeps
    | with_reducible apply shutHaptics_keeps
    | with_reducible apply shutPanel_keeps
    | with_reducible apply shutSound_keeps
    | with_reducible apply endChime_keeps
    | with_reducible apply modPower_keeps
    | with_reducible apply foldN_keeps
    | (intro x a hx; try beta_reduce)
    | (intro x hx; try beta_reduce)
    | (extract_lets +onlyGivenNames x; refine keeps_step (r := b₀) (x := x) ?_ (fun hx => ?_); subst x; rotate_left; clear_value x; revert x; intro _ _)
    | (extract_lets +onlyGivenNames x; refine keeps_stepF1 (r := b₀) (x := x) ?_ (fun hx => ?_); subst x; rotate_left; clear_value x; revert x; intro _ hf1)
    | (extract_lets +onlyGivenNames x; clear_value x; revert x; intro _)
    | fail_if_no_progress (with_reducible apply keeps_mk)
    | with_reducible apply keeps_ite

theorem advanceStandby_keeps {b₀ : State} {s : State} (hb₀ : Keeps b₀ s) : Keeps b₀ (advanceStandby s) := by
  unfold advanceStandby
  repeat' first
    | with_reducible assumption
    | with_reducible apply standbyNext_keeps
    | fail_if_no_progress (with_reducible apply keeps_mk)
    | with_reducible apply keeps_ite

theorem resetCut_keeps {b₀ : State} {s : State} (hb₀ : Keeps b₀ s) : Keeps b₀ (resetCut s) := by
  unfold resetCut
  repeat' first
    | with_reducible assumption
    | with_reducible apply modPower_keeps
    | with_reducible apply freshState_keeps
    | fail_if_no_progress (with_reducible apply keeps_mk)
    | with_reducible apply keeps_ite
    | split

theorem powerTimers_keeps {b₀ : State} {s : State} (hb₀ : Keeps b₀ s) : Keeps b₀ (powerTimers s) := by
  unfold powerTimers
  repeat' first
    | with_reducible assumption
    | with_reducible apply supplyRules_keeps
    | with_reducible apply advanceStart_keeps
    | with_reducible apply advanceStandby_keeps
    | with_reducible apply resetCut_keeps
    | fail_if_no_progress (with_reducible apply keeps_mk)
    | with_reducible apply keeps_ite

theorem powerDone_keeps {b₀ : State} {s : State} (hb₀ : Keeps b₀ s) : Keeps b₀ (powerDone s) := by
  unfold powerDone
  repeat' first
    | with_reducible assumption
    | with_reducible apply powerSettle_keeps
    | with_reducible apply advanceStart_keeps
    | with_reducible apply advanceStandby_keeps

theorem standbyAsk_keeps {b₀ : State} {s : State} {role : Role} {ds : List Nat} (hb₀ : Keeps b₀ s) : Keeps b₀ (standbyAsk s role ds) := by
  unfold standbyAsk
  repeat' first
    | with_reducible assumption
    | with_reducible apply interruptTw_keeps
    | with_reducible apply emit_keeps

theorem pwrReqApply_keeps {b₀ : State} {s : State} {v : Nat} (hb₀ : Keeps b₀ s) : Keeps b₀ (pwrReqApply s v).1 := by
  unfold pwrReqApply
  repeat' first
    | with_reducible assumption
    | with_reducible apply writeN_keeps
    | with_reducible apply modPower_keeps
    | with_reducible apply coldStart_keeps
    | with_reducible apply enterStandby_keeps
    | with_reducible apply powerDone_keeps
    | (extract_lets +onlyGivenNames x; refine keeps_step (r := b₀) (x := x) ?_ (fun hx => ?_); subst x; rotate_left; clear_value x; revert x; intro _ _)
    | fail_if_no_progress (with_reducible apply keeps_mk)
    | with_reducible apply keeps_ite
    | with_reducible apply keeps_ite1

theorem pwrResetApply_keeps {b₀ : State} {s : State} (hb₀ : Keeps b₀ s) : Keeps b₀ (pwrResetApply s) := by
  unfold pwrResetApply
  repeat' first
    | with_reducible assumption
    | with_reducible apply interruptTw_keeps
    | with_reducible apply modPower_keeps

theorem domHoldApply_keeps {b₀ : State} {s : State} {d : Nat} {on : Bool} (hb₀ : Keeps b₀ s) : Keeps b₀ (domHoldApply s d on).1 := by
  unfold domHoldApply
  repeat' first
    | with_reducible assumption
    | with_reducible apply writeB_keeps
    | with_reducible apply settle_keeps
    | with_reducible apply enableWrite_keeps
    | with_reducible apply powerDone_keeps
    | (intro x hx; try beta_reduce)

theorem domTwApply_keeps {b₀ : State} {s : State} {d : Nat} {on : Bool} (hb₀ : Keeps b₀ s) : Keeps b₀ (domTwApply s d on).1 := by
  unfold domTwApply
  repeat' first
    | with_reducible assumption
    | with_reducible apply writeB_keeps
    | with_reducible apply dropTransit_keeps
    | with_reducible apply addTransit_keeps
    | with_reducible apply powerDone_keeps
    | (extract_lets +onlyGivenNames x; clear_value x; revert x; intro _)
    | fail_if_no_progress (with_reducible apply keeps_mk)
    | with_reducible apply keeps_ite
    | with_reducible apply keeps_ite1

theorem claimWrite_keeps {b₀ : State} {s : State} {d : Nat} {v : Bool} (hb₀ : Keeps b₀ s) : Keeps b₀ (claimWrite s d v) := by
  unfold claimWrite
  repeat' first
    | with_reducible assumption
    | with_reducible apply claimHoldApply_keeps
    | with_reducible apply powerDone_keeps

theorem execPowerGood_keeps {b₀ : State} {open0 open1 : Bool} {s : State} (hb₀ : Keeps b₀ s) : Ends b₀ (execPowerGood open0 open1 s) := by
  unfold execPowerGood
  repeat' first
    | with_reducible assumption
    | with_reducible apply hf1
    | with_reducible apply hf2
    | with_reducible apply hf3
    | with_reducible apply modPower_keeps
    | with_reducible apply coldStart_keeps
    | with_reducible apply ends_next
    | with_reducible apply ends_fault
    | (extract_lets +onlyGivenNames x; clear_value x; revert x; intro _)
    | with_reducible refine keeps_fst (by with_reducible assumption) ?_
    | fail_if_no_progress (with_reducible apply keeps_mk)
    | with_reducible apply keeps_ite
    | with_reducible apply ends_ite

theorem execDomainRampStart_keeps {b₀ : State} {domain : Fin 24} {s : State} (hb₀ : Keeps b₀ s) : Ends b₀ (execDomainRampStart domain s) := by
  unfold execDomainRampStart
  repeat' first
    | with_reducible assumption
    | with_reducible apply putN_keeps
    | with_reducible apply resolved_keeps
    | with_reducible apply modPower_keeps
    | with_reducible apply ends_next
    | with_reducible apply ends_fault
    | (extract_lets +onlyGivenNames x; refine keeps_step (r := b₀) (x := x) ?_ (fun hx => ?_); subst x; rotate_left; clear_value x; revert x; intro _ _)
    | (extract_lets +onlyGivenNames x; clear_value x; revert x; intro _)
    | fail_if_no_progress (with_reducible apply keeps_mk)
    | with_reducible apply keeps_ite
    | with_reducible apply ends_ite

theorem rebuildUnits_keeps {b₀ : State} {s : State} {d : Nat} (hb₀ : Keeps b₀ s) : Keeps b₀ (rebuildUnits s d) := by
  unfold rebuildUnits
  repeat' first
    | with_reducible assumption
    | with_reducible apply hf1
    | with_reducible apply hf2
    | with_reducible apply hf3
    | with_reducible apply putN_keeps
    | with_reducible apply measureFirst_keeps
    | with_reducible apply foldN_keeps
    | (intro x a hx; try beta_reduce)
    | (extract_lets +onlyGivenNames x; refine keeps_stepF2 (r := b₀) (x := x) ?_ (fun hx => ?_); subst x; rotate_left; clear_value x; revert x; intro _ hf2)
    | fail_if_no_progress (with_reducible apply keeps_mk)
    | with_reducible apply keeps_ite

theorem execDomainRampDone_keeps {b₀ : State} {domain : Fin 24} {s : State} (hb₀ : Keeps b₀ s) : Ends b₀ (execDomainRampDone domain s) := by
  unfold execDomainRampDone
  repeat' first
    | with_reducible assumption
    | with_reducible apply putN_keeps
    | with_reducible apply bump_keeps
    | with_reducible apply rebuildUnits_keeps
    | with_reducible apply ends_next
    | with_reducible apply ends_fault
    | (extract_lets +onlyGivenNames x; refine keeps_step (r := b₀) (x := x) ?_ (fun hx => ?_); subst x; rotate_left; clear_value x; revert x; intro _ _)
    | (extract_lets +onlyGivenNames x; clear_value x; revert x; intro _)
    | fail_if_no_progress (with_reducible apply keeps_mk)
    | with_reducible apply keeps_ite
    | with_reducible apply ends_ite

theorem domainStarts_keeps {b₀ : State} {s : State} {d : Nat} (hb₀ : Keeps b₀ s) : Keeps b₀ (domainStarts s d) := by
  unfold domainStarts
  repeat' first
    | with_reducible assumption
    | with_reducible apply putN_keeps
    | with_reducible apply clearPinCrossings_keeps
    | with_reducible apply gateAbort_keeps
    | with_reducible apply loneRestart_keeps
    | with_reducible apply tryKaolinLoad_keeps
    | with_reducible apply tryStart_keeps
    | with_reducible apply trySpare_keeps
    | with_reducible apply sndTryRun_keeps
    | with_reducible apply fabricOn_keeps
    | with_reducible apply modPower_keeps
    | with_reducible apply foldN_keeps
    | (intro x a hx; try beta_reduce)
    | (extract_lets +onlyGivenNames x; refine keeps_step (r := b₀) (x := x) ?_ (fun hx => ?_); subst x; rotate_left; clear_value x; revert x; intro _ _)
    | fail_if_no_progress (with_reducible apply keeps_mk)
    | with_reducible apply keeps_ite

theorem sliceTested_keeps {b₀ : State} {s : State} {d : Nat} {failed passing : Nat → Bool} (hb₀ : Keeps b₀ s) : Keeps b₀ (sliceTested s d failed passing) := by
  unfold sliceTested
  repeat' first
    | with_reducible assumption
    | with_reducible apply coreLost_keeps
    | with_reducible apply foldN_keeps
    | (intro x a hx; try beta_reduce)
    | fail_if_no_progress (with_reducible apply keeps_mk)
    | with_reducible apply keeps_ite

theorem execDomainOn_keeps {b₀ : State} {domain : Fin 24} {failed sparePasses : List (Fin 36)} {s : State} (hb₀ : Keeps b₀ s) : Ends b₀ (execDomainOn domain failed sparePasses s) := by
  unfold execDomainOn
  repeat' first
    | with_reducible assumption
    | with_reducible apply putN_keeps
    | with_reducible apply powerDone_keeps
    | with_reducible apply domainStarts_keeps
    | with_reducible apply sliceTested_keeps
    | with_reducible apply ends_next
    | with_reducible apply ends_fault
    | (extract_lets +onlyGivenNames x; refine keeps_step (r := b₀) (x := x) ?_ (fun hx => ?_); subst x; rotate_left; clear_value x; revert x; intro _ _)
    | (extract_lets +onlyGivenNames x; clear_value x; revert x; intro _)
    | fail_if_no_progress (with_reducible apply keeps_mk)
    | with_reducible apply keeps_ite
    | with_reducible apply ends_ite

theorem domainEnds_keeps {b₀ : State} {s : State} {d : Nat} (hb₀ : Keeps b₀ s) : Keeps b₀ (domainEnds s d) := by
  unfold domainEnds
  repeat' first
    | with_reducible assumption
    | with_reducible apply putN_keeps
    | with_reducible apply closeWhere_keeps
    | with_reducible apply zeroTrusted_keeps
    | with_reducible apply finishStop_keeps
    | with_reducible apply hapQueued_keeps
    | with_reducible apply panelQueued_keeps
    | with_reducible apply sndQueued_keeps
    | with_reducible apply sndStopCheck_keeps
    | with_reducible apply fabricCut_keeps
    | with_reducible apply linkQueued_keeps
    | with_reducible apply spreadQueued_keeps
    | with_reducible apply modPower_keeps
    | with_reducible apply loseGroup_keeps
    | with_reducible apply restartMigration_keeps
    | with_reducible apply foldN_keeps
    | (intro x a hx; try beta_reduce)
    | (extract_lets +onlyGivenNames x; refine keeps_step (r := b₀) (x := x) ?_ (fun hx => ?_); subst x; rotate_left; clear_value x; revert x; intro _ _)
    | with_reducible refine keeps_kram ?_ (fun hk => by first | exact wf_nil | exact memSetAll_wf _ _ hk | exact memSetAll_wf _ _ (memSetAll_wf _ _ wf_nil))
    | fail_if_no_progress (with_reducible apply keeps_mk)
    | with_reducible apply keeps_ite

theorem execDomainOff_keeps {b₀ : State} {domain : Fin 24} {s : State} (hb₀ : Keeps b₀ s) : Ends b₀ (execDomainOff domain s) := by
  unfold execDomainOff
  repeat' first
    | with_reducible assumption
    | with_reducible apply putN_keeps
    | with_reducible apply dropTransit_keeps
    | with_reducible apply shed_keeps
    | with_reducible apply powerDone_keeps
    | with_reducible apply domainEnds_keeps
    | with_reducible apply ends_next
    | with_reducible apply ends_fault
    | (extract_lets +onlyGivenNames x; refine keeps_step (r := b₀) (x := x) ?_ (fun hx => ?_); subst x; rotate_left; clear_value x; revert x; intro _ _)
    | (extract_lets +onlyGivenNames x; clear_value x; revert x; intro _)
    | fail_if_no_progress (with_reducible apply keeps_mk)
    | with_reducible apply keeps_ite
    | with_reducible apply ends_ite

theorem execStandbyReached_keeps {b₀ : State} {s : State} (hb₀ : Keeps b₀ s) : Ends b₀ (execStandbyReached s) := by
  unfold execStandbyReached
  repeat' first
    | with_reducible assumption
    | with_reducible apply putN_keeps
    | with_reducible apply pinsToStandby_keeps
    | with_reducible apply zeroTrusted_keeps
    | with_reducible apply modPower_keeps
    | with_reducible apply setMode_keeps
    | with_reducible apply coldStart_keeps
    | with_reducible apply ends_next
    | with_reducible apply ends_fault
    | (extract_lets +onlyGivenNames x; refine keeps_step (r := b₀) (x := x) ?_ (fun hx => ?_); subst x; rotate_left; clear_value x; revert x; intro _ _)
    | (extract_lets +onlyGivenNames x; clear_value x; revert x; intro _)
    | fail_if_no_progress (with_reducible apply keeps_mk)
    | with_reducible apply keeps_ite
    | with_reducible apply ends_ite
    | split

theorem execResetHoldExpiry_keeps {b₀ : State} {s : State} (hb₀ : Keeps b₀ s) : Ends b₀ (execResetHoldExpiry s) := by
  unfold execResetHoldExpiry
  repeat' first
    | with_reducible assumption
    | with_reducible apply coldStart_keeps
    | with_reducible apply resetCut_keeps
    | with_reducible apply ends_next
    | with_reducible apply ends_fault
    | (extract_lets +onlyGivenNames x; refine keeps_step (r := b₀) (x := x) ?_ (fun hx => ?_); subst x; rotate_left; clear_value x; revert x; intro _ _)
    | fail_if_no_progress (with_reducible apply keeps_mk)
    | with_reducible apply keeps_ite
    | with_reducible apply ends_ite
    | split

theorem execPerstDeassert_keeps {b₀ : State} {h1 : Bool} {offered : Fin 17} {reversed : Bool} {inverted : BitVec 16} {refclk : Bool} {s : State} (hb₀ : Keeps b₀ s) : Ends b₀ (execPerstDeassert h1 offered reversed inverted refclk s) := by
  unfold execPerstDeassert
  repeat' first
    | with_reducible assumption
    | with_reducible apply modPower_keeps
    | with_reducible apply ends_next

theorem execHostAvailability_keeps {b₀ : State} {s : State} (hb₀ : Keeps b₀ s) : Ends b₀ (execHostAvailability s) := by
  unfold execHostAvailability
  repeat' first
    | with_reducible assumption
    | with_reducible apply putN_keeps
    | with_reducible apply modPower_keeps
    | with_reducible apply powerSettle_keeps
    | with_reducible apply setMode_keeps
    | with_reducible apply ends_next
    | with_reducible apply ends_fault
    | (extract_lets +onlyGivenNames x; refine keeps_step (r := b₀) (x := x) ?_ (fun hx => ?_); subst x; rotate_left; clear_value x; revert x; intro _ _)
    | (extract_lets +onlyGivenNames x; clear_value x; revert x; intro _)
    | fail_if_no_progress (with_reducible apply keeps_mk)
    | with_reducible apply keeps_ite
    | with_reducible apply ends_ite

theorem execTwRestartDone_keeps {b₀ : State} {outcome : BootOutcome} {s : State} (hb₀ : Keeps b₀ s) : Ends b₀ (execTwRestartDone outcome s) := by
  unfold execTwRestartDone
  repeat' first
    | with_reducible assumption
    | with_reducible apply twRestartDone_keeps
    | with_reducible apply powerDone_keeps
    | with_reducible apply ends_next

theorem execCutNoticeExpiry_keeps {b₀ : State} {domain : Fin 24} {s : State} (hb₀ : Keeps b₀ s) : Ends b₀ (execCutNoticeExpiry domain s) := by
  unfold execCutNoticeExpiry
  repeat' first
    | with_reducible assumption
    | with_reducible apply cutDomain_keeps
    | with_reducible apply powerDone_keeps
    | with_reducible apply ends_next
    | with_reducible apply ends_fault
    | fail_if_no_progress (with_reducible apply keeps_mk)
    | with_reducible apply keeps_ite
    | with_reducible apply ends_ite

theorem execThermalSample_keeps {b₀ : State} {temps : List (BitVec 32)} {s : State} (hb₀ : Keeps b₀ s) : Ends b₀ (execThermalSample temps s) := by
  unfold execThermalSample
  repeat' first
    | with_reducible assumption
    | with_reducible apply putN_keeps
    | with_reducible apply thermalRules_keeps
    | with_reducible apply powerDone_keeps
    | with_reducible apply ends_next
    | with_reducible apply ends_fault
    | with_reducible apply foldN_keeps
    | (intro x a hx; try beta_reduce)
    | (extract_lets +onlyGivenNames x; refine keeps_step (r := b₀) (x := x) ?_ (fun hx => ?_); subst x; rotate_left; clear_value x; revert x; intro _ _)
    | fail_if_no_progress (with_reducible apply keeps_mk)
    | with_reducible apply keeps_ite
    | with_reducible apply ends_ite
    | split

theorem execThrottleStepTimer_keeps {b₀ : State} {s : State} (hb₀ : Keeps b₀ s) : Ends b₀ (execThrottleStepTimer s) := by
  unfold execThrottleStepTimer
  repeat' first
    | with_reducible assumption
    | with_reducible apply throttleStep_keeps
    | with_reducible apply powerDone_keeps
    | with_reducible apply ends_next
    | with_reducible apply ends_fault
    | fail_if_no_progress (with_reducible apply keeps_mk)
    | with_reducible apply keeps_ite
    | with_reducible apply ends_ite

theorem execSupplyChange_keeps {b₀ : State} {mv : BitVec 16} {s : State} (hb₀ : Keeps b₀ s) : Ends b₀ (execSupplyChange mv s) := by
  unfold execSupplyChange
  repeat' first
    | with_reducible assumption
    | with_reducible apply hf1
    | with_reducible apply hf2
    | with_reducible apply hf3
    | with_reducible apply putN_keeps
    | with_reducible apply modPower_keeps
    | with_reducible apply cutMany_keeps
    | with_reducible apply declare_keeps
    | with_reducible apply supplyRules_keeps
    | with_reducible apply powerLost_keeps
    | with_reducible apply powerDone_keeps
    | with_reducible apply ends_next
    | with_reducible apply ends_fault
    | (extract_lets +onlyGivenNames x; refine keeps_step (r := b₀) (x := x) ?_ (fun hx => ?_); subst x; rotate_left; clear_value x; revert x; intro _ _)
    | (extract_lets +onlyGivenNames x; clear_value x; revert x; intro _)
    | fail_if_no_progress (with_reducible apply keeps_mk)
    | with_reducible apply keeps_ite
    | with_reducible apply ends_ite

theorem clearEmergency_keeps {b₀ : State} {s : State} {code since : Nat} (hb₀ : Keeps b₀ s) : Keeps b₀ (clearEmergency s code since) := by
  unfold clearEmergency
  repeat' first
    | with_reducible assumption
    | with_reducible apply putN_keeps
    | with_reducible apply emitSb_keeps
    | with_reducible apply openRestart_keeps
    | with_reducible apply foldN_keeps
    | (intro x a hx; try beta_reduce)
    | (extract_lets +onlyGivenNames x; refine keeps_step (r := b₀) (x := x) ?_ (fun hx => ?_); subst x; rotate_left; clear_value x; revert x; intro _ _)
    | fail_if_no_progress (with_reducible apply keeps_mk)
    | with_reducible apply keeps_ite

theorem execEmergencyClear_keeps {b₀ : State} {s : State} (hb₀ : Keeps b₀ s) : Ends b₀ (execEmergencyClear s) := by
  unfold execEmergencyClear
  repeat' first
    | with_reducible assumption
    | with_reducible apply modPower_keeps
    | with_reducible apply showLevel_keeps
    | with_reducible apply powerDone_keeps
    | with_reducible apply clearEmergency_keeps
    | with_reducible apply ends_next
    | with_reducible apply ends_fault
    | (extract_lets +onlyGivenNames x; refine keeps_step (r := b₀) (x := x) ?_ (fun hx => ?_); subst x; rotate_left; clear_value x; revert x; intro _ _)
    | fail_if_no_progress (with_reducible apply keeps_mk)
    | with_reducible apply keeps_ite
    | with_reducible apply ends_ite
    | split

theorem execSidePinEdge_keeps {b₀ : State} {pin : Fin 96} {level : Bool} {s : State} (hb₀ : Keeps b₀ s) : Ends b₀ (execSidePinEdge pin level s) := by
  unfold execSidePinEdge
  repeat' first
    | with_reducible assumption
    | with_reducible apply pinEdge_keeps
    | with_reducible apply coldStart_keeps
    | with_reducible apply ends_next
    | with_reducible apply ends_fault
    | (extract_lets +onlyGivenNames x; refine keeps_step (r := b₀) (x := x) ?_ (fun hx => ?_); subst x; rotate_left; clear_value x; revert x; intro _ _)
    | (extract_lets +onlyGivenNames x; clear_value x; revert x; intro _)
    | fail_if_no_progress (with_reducible apply keeps_mk)
    | with_reducible apply keeps_ite
    | with_reducible apply ends_ite

end Sys2Proof.Machine
end

