-- ==== Sys2Proof/Laws/KeepsRetest.lean ====
section
/-!
SUPPORT. Each operation of Machine/Retest.lean keeps the queue and the invariant.
-/

namespace Sys2Proof.Machine

theorem unitReturns_keeps {b₀ : State} {s : State} {cls u : Nat} (hb₀ : Keeps b₀ s) : Keeps b₀ (unitReturns s cls u) := by
  unfold unitReturns
  repeat' first
    | with_reducible assumption
    | with_reducible apply putN_keeps
    | with_reducible apply modGrog_keeps
    | with_reducible apply setUnit_keeps
    | with_reducible apply countCores_keeps
    | (intro x hx; try beta_reduce)
    | (extract_lets +onlyGivenNames x; refine keeps_step (r := b₀) (x := x) ?_ (fun hx => ?_); subst x; rotate_left; clear_value x; revert x; intro _ _)
    | fail_if_no_progress (with_reducible apply keeps_mk)
    | with_reducible apply keeps_ite

theorem retestApply_keeps {b₀ : State} {s : State} {v : Nat} {passes : Bool} (hb₀ : Keeps b₀ s) : Keeps b₀ (retestApply s v passes) := by
  unfold retestApply
  repeat' first
    | with_reducible assumption
    | with_reducible apply grogLog_keeps
    | with_reducible apply updateHealth_keeps
    | with_reducible apply advanceGen_keeps
    | with_reducible apply unitReturns_keeps
    | (extract_lets +onlyGivenNames x; clear_value x; revert x; intro _)
    | with_reducible refine keeps_fst (by with_reducible assumption) ?_
    | fail_if_no_progress (with_reducible apply keeps_mk)
    | with_reducible apply keeps_ite

theorem diagApply_keeps {b₀ : State} {s : State} {v : Nat} (hb₀ : Keeps b₀ s) : Keeps b₀ (diagApply s v) := by
  unfold diagApply
  repeat' first
    | with_reducible assumption
    | with_reducible apply hf1
    | with_reducible apply hf2
    | with_reducible apply hf3
    | with_reducible apply writeN_keeps
    | with_reducible apply grogLog_keeps
    | (extract_lets +onlyGivenNames x; refine keeps_step (r := b₀) (x := x) ?_ (fun hx => ?_); subst x; rotate_left; clear_value x; revert x; intro _ _)
    | (extract_lets +onlyGivenNames x; clear_value x; revert x; intro _)
    | fail_if_no_progress (with_reducible apply keeps_mk)
    | with_reducible apply keeps_ite

end Sys2Proof.Machine
end

