-- ==== Sys2Proof/Laws/KeepsDictionary.lean ====
section
/-!
SUPPORT. Each operation of Machine/Dictionary.lean keeps the queue and the invariant.
-/

namespace Sys2Proof.Machine

theorem relayApply_keeps {b₀ : State} {s : State} {c : WCtx} {b : List Byte} (hb₀ : Keeps b₀ s) : Keeps b₀ (relayApply s c b) := by
  unfold relayApply
  repeat' first
    | with_reducible assumption
    | with_reducible apply hf1
    | with_reducible apply hf2
    | with_reducible apply hf3
    | with_reducible apply modSess_keeps
    | with_reducible apply take_keeps
    | (intro x hx; try beta_reduce)
    | (extract_lets +onlyGivenNames x; clear_value x; revert x; intro _)
    | fail_if_no_progress (with_reducible apply keeps_mk)
    | with_reducible apply keeps_ite
    | split
    | exact ⟨hx.1, hx.2⟩
    | with_reducible exact fun _ => rfl

theorem accepted_keeps {b₀ : State} {s : State} (hb₀ : Keeps b₀ s) : Keeps b₀ (accepted s).1 := by
  unfold accepted
  repeat' first
    | with_reducible assumption

theorem powered_keeps {b₀ : State} {r : State × Status} (hb₀ : Keeps b₀ r.1) : Keeps b₀ (powered r).1 := by
  unfold powered
  repeat' first
    | with_reducible assumption
    | with_reducible apply hf1
    | with_reducible apply hf2
    | with_reducible apply hf3
    | with_reducible apply powerDone_keeps

theorem areaApply_keeps {b₀ : State} {s : State} {c : WCtx} {idx sub : Nat} {x : Val} (hb₀ : Keeps b₀ s) : Keeps b₀ (areaApply s c idx sub x).1 := by
  unfold areaApply
  repeat' first
    | with_reducible assumption
    | with_reducible apply hf1
    | with_reducible apply hf2
    | with_reducible apply hf3
    | with_reducible apply writeV_keeps
    | with_reducible apply writeB_keeps
    | with_reducible apply draw_keeps
    | with_reducible apply surfApply_keeps
    | with_reducible apply settle_keeps
    | with_reducible apply enableWrite_keeps
    | with_reducible apply updateHealth_keeps
    | with_reducible apply pinApply_keeps
    | with_reducible apply pinTApply_keeps
    | with_reducible apply memApply_keeps
    | with_reducible apply kaolinCommitOp_keeps
    | with_reducible apply dmaTApply_keeps
    | with_reducible apply nonceApply_keeps
    | with_reducible apply islandApply_keeps
    | with_reducible apply outApply_keeps
    | with_reducible apply layerApply_keeps
    | with_reducible apply fenceApply_keeps
    | with_reducible apply progApply_keeps
    | with_reducible apply ctxApply_keeps
    | with_reducible apply ringApply_keeps
    | with_reducible apply resetChannel_keeps
    | with_reducible apply hapEnableApply_keeps
    | with_reducible apply chanApply_keeps
    | with_reducible apply panelApply_keeps
    | with_reducible apply captureApply_keeps
    | with_reducible apply rampGain_keeps
    | with_reducible apply streamApply_keeps
    | with_reducible apply sndEnableApply_keeps
    | with_reducible apply startSpread_keeps
    | with_reducible apply stopSpread_keeps
    | with_reducible apply spreadSweep_keeps
    | with_reducible apply spreadCommit_keeps
    | with_reducible apply pwrReqApply_keeps
    | with_reducible apply pwrResetApply_keeps
    | with_reducible apply domHoldApply_keeps
    | with_reducible apply domTwApply_keeps
    | with_reducible apply claimWrite_keeps
    | with_reducible apply grantApply_keeps
    | with_reducible apply regionApply_keeps
    | with_reducible apply vfEnableApply_keeps
    | with_reducible apply vfFlrApply_keeps
    | with_reducible apply freezeApply_keeps
    | with_reducible apply saveApply_keeps
    | with_reducible apply restoreApply_keeps
    | with_reducible apply logApply_keeps
    | with_reducible apply retestApply_keeps
    | with_reducible apply diagApply_keeps
    | with_reducible apply relayApply_keeps
    | with_reducible apply accepted_keeps
    | with_reducible apply powered_keeps
    | (intro x hx; try beta_reduce)
    | (extract_lets +onlyGivenNames x; refine keeps_step1 (r := b₀) (x := x) ?_ (fun hx => ?_); subst x; rotate_left; clear_value x; revert x; intro _ _)
    | (extract_lets +onlyGivenNames x; clear_value x; revert x; intro _)
    | with_reducible refine keeps_fst (by with_reducible assumption) ?_
    | fail_if_no_progress (with_reducible apply keeps_mk)
    | with_reducible apply keeps_ite
    | with_reducible apply keeps_ite1
    | split

theorem storeWrite_keeps {b₀ : State} {s : State} {c : WCtx} {r : ObjRow} {idx sub : Nat} {x : Val} (hb₀ : Keeps b₀ s) : Keeps b₀ (storeWrite s c r idx sub x).state := by
  unfold storeWrite
  repeat' first
    | with_reducible assumption
    | with_reducible apply hf1
    | with_reducible apply hf2
    | with_reducible apply hf3
    | with_reducible apply storeKey_keeps
    | with_reducible apply areaApply_keeps
    | (extract_lets +onlyGivenNames x; clear_value x; revert x; intro _)
    | with_reducible refine keeps_fst (by with_reducible assumption) ?_
    | fail_if_no_progress (with_reducible apply keeps_mk)
    | with_reducible apply keeps_ite
    | split

theorem writeObj_keeps {b₀ : State} {s : State} {c : WCtx} {h : ItemHdr} {data : List Byte} {expected : Option Nat} (hb₀ : Keeps b₀ s) : Keeps b₀ (writeObj s c h data expected).state := by
  unfold writeObj
  repeat' first
    | with_reducible assumption
    | with_reducible apply hf1
    | with_reducible apply hf2
    | with_reducible apply hf3
    | with_reducible apply storeWrite_keeps
    | (extract_lets +onlyGivenNames x; clear_value x; revert x; intro _)
    | with_reducible refine keeps_fst (by with_reducible assumption) ?_
    | fail_if_no_progress (with_reducible apply keeps_mk)
    | with_reducible apply keeps_ite
    | split

theorem afterRefusal_keeps {b₀ : State} {s : State} {c : WCtx} {h : ItemHdr} {w : WriteOut} (hb₀ : Keeps b₀ s) :
    Keeps b₀ (afterRefusal s c h w) := by
  unfold afterRefusal
  have h1 := refuseClaim_keeps (c := c) (session := c.session) (req := w.req) (ds := w.claims) hb₀
  dsimp only
  exact keeps_ite (keeps_ite (standbyAsk_keeps h1) h1) hb₀

theorem WriteOut.settled_keeps {b₀ : State} {w : WriteOut} {s : State} {c : WCtx} {h : ItemHdr} (hb₀ : Keeps b₀ s)
    (hw : Keeps b₀ w.state) : Keeps b₀ (w.settled s c h) := by
  unfold WriteOut.settled
  exact keeps_ite hw (afterRefusal_keeps hb₀)

end Sys2Proof.Machine
end

