-- ==== Sys2Proof/Laws/KeepsRequests.lean ====
section
/-!
SUPPORT. Each operation of Machine/Requests.lean keeps the queue and the invariant.
-/

namespace Sys2Proof.Machine

theorem keeps_stepW {r : State} {x : WriteOut} {P : Prop} (h : Keeps r x.state) (k : Keeps r x.state → P) : P := k h

theorem keeps_stepA {r : State} {x : Answer} {P : Prop} (h : Keeps r x.state) (k : Keeps r x.state → P) : P := k h

theorem keeps_stepG {r : State} {x : GroupRun} {P : Prop} (h : Keeps r x.state) (k : Keeps r x.state → P) : P := k h

theorem keeps_iteA {r : State} {a b : Answer} {c : Prop} [Decidable c] (ha : Keeps r a.state) (hb : Keeps r b.state) :
    Keeps r (if c then a else b).state := by split <;> assumption

theorem foldlG_keeps {α : Type} {r : State} {s : GroupRun} {f : GroupRun → α → GroupRun} (l : List α) (h : Keeps r s.state)
    (hf : ∀ x a, Keeps r x.state → Keeps r (f x a).state) : Keeps r (l.foldl f s).state := by
  induction l generalizing s with
  | nil => exact h
  | cons a l ih => exact ih (hf _ _ h)

theorem refused_keeps {b₀ : State} {s : State} {st : Status} (hb₀ : Keeps b₀ s) : Keeps b₀ (refused s st).state := by
  unfold refused
  repeat' first
    | with_reducible assumption
    | with_reducible apply hf1
    | with_reducible apply hf2
    | with_reducible apply hf3
    | with_reducible apply draw_keeps

theorem opOpen_keeps {b₀ : State} {s : State} {src : Carrier} {lease tag : Nat} (hb₀ : Keeps b₀ s) :
    Keeps b₀ (opOpen s src lease tag).state := by
  unfold opOpen
  extract_lets
  refine keeps_iteA (refused_keeps hb₀) (keeps_iteA (refused_keeps hb₀) ?_)
  split
  · exact refused_keeps hb₀
  · next n rest hfree =>
    refine hb₀.trans ⟨rfl, fun i => { i with order := tset_sorted _ _ _ i.order, sess := ?_, freeOnce := ?_, free := ?_ }⟩
    · intro e he
      rcases mem_tset he with rfl | he
      · refine ⟨⟨Nat.zero_le _, Nat.zero_le _⟩, fun _ => ((i.free _).1 ?_).1⟩
        rw [hfree]; exact List.mem_cons_self ..
      · exact i.sess e he
    · have := i.freeOnce; rw [hfree] at this; exact (List.nodup_cons.1 this).2
    · intro j
      have h1 := i.freeOnce; rw [hfree] at h1
      have h2 := i.free j; rw [hfree] at h2
      simp only [sessOf, tget_tset]
      by_cases hj : j = n
      · subst hj
        have := (List.nodup_cons.1 h1).1
        simp [this]
      · simpa [sessOf, hj] using h2

theorem afterRead_keeps {b₀ : State} {s : State} {c : WCtx} {idx len : Nat} (hb₀ : Keeps b₀ s) : Keeps b₀ (afterRead s c idx len) := by
  unfold afterRead
  repeat' first
    | with_reducible assumption
    | with_reducible apply hf1
    | with_reducible apply hf2
    | with_reducible apply hf3
    | with_reducible apply violation_keeps
    | fail_if_no_progress (with_reducible apply keeps_mk)
    | with_reducible apply keeps_ite

theorem opRead_keeps {b₀ : State} {s : State} {c : WCtx} {h : ItemHdr} (hb₀ : Keeps b₀ s) : Keeps b₀ (opRead s c h).state := by
  unfold opRead
  repeat' first
    | with_reducible assumption
    | with_reducible apply hf1
    | with_reducible apply hf2
    | with_reducible apply hf3
    | with_reducible apply refused_keeps
    | with_reducible apply afterRead_keeps
    | (extract_lets +onlyGivenNames x; clear_value x; revert x; intro _)
    | with_reducible refine keeps_fst (by with_reducible assumption) ?_
    | fail_if_no_progress (with_reducible apply keeps_mk)
    | with_reducible apply keeps_ite
    | split

theorem opWrite_keeps {b₀ : State} {s : State} {c : WCtx} {h : ItemHdr} {data : List Byte} {expected : Option Nat} (hb₀ : Keeps b₀ s) : Keeps b₀ (opWrite s c h data expected).state := by
  unfold opWrite
  repeat' first
    | with_reducible assumption
    | with_reducible apply hf1
    | with_reducible apply hf2
    | with_reducible apply hf3
    | with_reducible apply writeObj_keeps
    | with_reducible apply refused_keeps
    | (extract_lets +onlyGivenNames x; refine keeps_step (r := b₀) (x := x) ?_ (fun hx => ?_); subst x; rotate_left; clear_value x; revert x; intro _ _)
    | (extract_lets +onlyGivenNames x; refine keeps_stepW (r := b₀) (x := x) ?_ (fun hx => ?_); subst x; rotate_left; clear_value x; revert x; intro _ _)
    | (extract_lets +onlyGivenNames x; clear_value x; revert x; intro _)
    | with_reducible refine keeps_fst (by with_reducible assumption) ?_
    | fail_if_no_progress (with_reducible apply keeps_mk)
    | with_reducible apply keeps_ite
    | split
    | with_reducible apply WriteOut.settled_keeps

theorem opDescribe_keeps {b₀ : State} {s : State} {c : WCtx} {h : ItemHdr} (hb₀ : Keeps b₀ s) : Keeps b₀ (opDescribe s c h).state := by
  unfold opDescribe
  repeat' first
    | with_reducible assumption
    | with_reducible apply hf1
    | with_reducible apply hf2
    | with_reducible apply hf3
    | with_reducible apply refused_keeps
    | (extract_lets +onlyGivenNames x; clear_value x; revert x; intro _)
    | with_reducible refine keeps_fst (by with_reducible assumption) ?_
    | fail_if_no_progress (with_reducible apply keeps_mk)
    | with_reducible apply keeps_ite
    | split

theorem opReadSeg_keeps {b₀ : State} {s : State} {c : WCtx} {room : Nat} {h : ItemHdr} {offset length : Nat} (hb₀ : Keeps b₀ s) : Keeps b₀ (opReadSeg s c room h offset length).state := by
  unfold opReadSeg
  repeat' first
    | with_reducible assumption
    | with_reducible apply hf1
    | with_reducible apply hf2
    | with_reducible apply hf3
    | with_reducible apply modSess_keeps
    | with_reducible apply take_keeps
    | with_reducible apply refused_keeps
    | (intro x hx; try beta_reduce)
    | (extract_lets +onlyGivenNames x; refine keeps_step (r := b₀) (x := x) ?_ (fun hx => ?_); subst x; rotate_left; clear_value x; revert x; intro _ _)
    | (extract_lets +onlyGivenNames x; clear_value x; revert x; intro _)
    | with_reducible refine keeps_fst (by with_reducible assumption) ?_
    | fail_if_no_progress (with_reducible apply keeps_mk)
    | with_reducible apply keeps_ite
    | split
    | with_reducible apply WriteOut.settled_keeps
    | dsimp only
    | exact ⟨hx.1, hx.2⟩
    | with_reducible exact fun _ => rfl

theorem opWriteSeg_keeps {b₀ : State} {s : State} {c : WCtx} {h : ItemHdr} {offset total : Nat} {data : List Byte} (hb₀ : Keeps b₀ s) : Keeps b₀ (opWriteSeg s c h offset total data).state := by
  unfold opWriteSeg
  repeat' first
    | with_reducible assumption
    | with_reducible apply hf1
    | with_reducible apply hf2
    | with_reducible apply hf3
    | with_reducible apply modSess_keeps
    | with_reducible apply storeWrite_keeps
    | with_reducible apply refused_keeps
    | (intro x hx; try beta_reduce)
    | (extract_lets +onlyGivenNames x; refine keeps_step (r := b₀) (x := x) ?_ (fun hx => ?_); subst x; rotate_left; clear_value x; revert x; intro _ _)
    | (extract_lets +onlyGivenNames x; refine keeps_stepF1 (r := b₀) (x := x) ?_ (fun hx => ?_); subst x; rotate_left; clear_value x; revert x; intro _ hf1)
    | (extract_lets +onlyGivenNames x; refine keeps_stepW (r := b₀) (x := x) ?_ (fun hx => ?_); subst x; rotate_left; clear_value x; revert x; intro _ _)
    | (extract_lets +onlyGivenNames x; clear_value x; revert x; intro _)
    | with_reducible refine keeps_fst (by with_reducible assumption) ?_
    | fail_if_no_progress (with_reducible apply keeps_mk)
    | with_reducible apply keeps_ite
    | split
    | with_reducible apply WriteOut.settled_keeps
    | dsimp only
    | exact ⟨hx.1, hx.2⟩
    | with_reducible exact fun _ => rfl

theorem groupStep_keeps {b₀ : State} {c : WCtx} {g : GroupRun} {e : (ItemHdr × List Byte) × Nat} (hb₀ : Keeps b₀ g.state) : Keeps b₀ (groupStep c g e).state := by
  unfold groupStep
  repeat' first
    | with_reducible assumption
    | with_reducible apply hf1
    | with_reducible apply hf2
    | with_reducible apply hf3
    | with_reducible apply writeObj_keeps
    | (extract_lets +onlyGivenNames x; refine keeps_stepW (r := b₀) (x := x) ?_ (fun hx => ?_); subst x; rotate_left; clear_value x; revert x; intro _ _)
    | (extract_lets +onlyGivenNames x; clear_value x; revert x; intro _)
    | fail_if_no_progress (with_reducible apply keeps_mk)
    | with_reducible apply keeps_ite
    | split

theorem opGroup_keeps {b₀ : State} {s : State} {c : WCtx} {items : List (ItemHdr × List Byte)} (hb₀ : Keeps b₀ s) : Keeps b₀ (opGroup s c items).state := by
  unfold opGroup
  repeat' first
    | with_reducible assumption
    | with_reducible apply hf1
    | with_reducible apply hf2
    | with_reducible apply hf3
    | with_reducible apply afterRefusal_keeps
    | with_reducible apply refused_keeps
    | with_reducible apply groupStep_keeps
    | with_reducible apply foldl_keeps
    | with_reducible apply foldl_keeps1
    | with_reducible apply foldlG_keeps
    | (extract_lets +onlyGivenNames x; refine keeps_stepG (r := b₀) (x := x) ?_ (fun hx => ?_); subst x; rotate_left; clear_value x; revert x; intro _ _)
    | (extract_lets +onlyGivenNames x; clear_value x; revert x; intro _)
    | with_reducible refine keeps_fst (by with_reducible assumption) ?_
    | fail_if_no_progress (with_reducible apply keeps_mk)
    | with_reducible apply keeps_ite
    | split

theorem opBadPayload_keeps {b₀ : State} {s : State} {c : WCtx} {op : Nat} {item : Option ItemHdr} (hb₀ : Keeps b₀ s) : Keeps b₀ (opBadPayload s c op item).state := by
  unfold opBadPayload
  repeat' first
    | with_reducible assumption
    | with_reducible apply hf1
    | with_reducible apply hf2
    | with_reducible apply hf3
    | with_reducible apply refused_keeps
    | (extract_lets +onlyGivenNames x; clear_value x; revert x; intro _)
    | fail_if_no_progress (with_reducible apply keeps_mk)
    | with_reducible apply keeps_ite
    | split

theorem execRequest_keeps {b₀ : State} {s : State} {c : WCtx} {src : Option Carrier} {room : Nat} {q : Request} (hb₀ : Keeps b₀ s) : Keeps b₀ (execRequest s c src room q).state := by
  unfold execRequest
  repeat' first
    | with_reducible assumption
    | with_reducible apply hf1
    | with_reducible apply hf2
    | with_reducible apply hf3
    | with_reducible apply modSess_keeps
    | with_reducible apply closeSession_keeps
    | with_reducible apply refused_keeps
    | with_reducible apply opOpen_keeps
    | with_reducible apply opRead_keeps
    | with_reducible apply opWrite_keeps
    | with_reducible apply opDescribe_keeps
    | with_reducible apply opReadSeg_keeps
    | with_reducible apply opWriteSeg_keeps
    | with_reducible apply opGroup_keeps
    | with_reducible apply opBadPayload_keeps
    | (intro x hx; try beta_reduce)
    | with_reducible refine keeps_fst (by with_reducible assumption) ?_
    | fail_if_no_progress (with_reducible apply keeps_mk)
    | with_reducible apply keeps_ite
    | split
    | with_reducible apply WriteOut.settled_keeps
    | dsimp only
    | exact ⟨hx.1, hx.2⟩
    | with_reducible exact fun _ => rfl

theorem tooLong_keeps {b₀ : State} {a : Answer} {room : Nat} (hb₀ : Keeps b₀ a.state) : Keeps b₀ (tooLong a room).state := by
  unfold tooLong
  split
  · exact hb₀
  · exact hb₀

theorem admitted_keeps {b₀ : State} {s : State} {r : DictReq} {q : Request} {len : Nat} {found : Option Nat} (hb₀ : Keeps b₀ s) : Keeps b₀ (admitted s r q len found).state := by
  unfold admitted
  repeat' first
    | with_reducible assumption
    | with_reducible apply hf1
    | with_reducible apply hf2
    | with_reducible apply hf3
    | with_reducible apply refused_keeps
    | with_reducible apply execRequest_keeps
    | with_reducible apply tooLong_keeps
    | (extract_lets +onlyGivenNames x; refine keeps_stepA (r := b₀) (x := x) ?_ (fun hx => ?_); subst x; rotate_left; clear_value x; revert x; intro _ _)
    | (extract_lets +onlyGivenNames x; clear_value x; revert x; intro _)
    | with_reducible refine keeps_fst (by with_reducible assumption) ?_
    | fail_if_no_progress (with_reducible apply keeps_mk)
    | with_reducible apply keeps_ite
    | split

theorem dictRequest_keeps {b₀ : State} {s : State} {r : DictReq} {q : Request} {len : Nat} {found : Option Nat} (hb₀ : Keeps b₀ s) :
    Keeps b₀ (dictRequest s r q len found).1 := by
  have hr : ∀ {t : State} {x : Response}, Keeps b₀ t → Keeps b₀ { t with resp := some (r.src, x) } := fun h => keeps_mk h
  unfold dictRequest
  split
  · exact hb₀
  · dsimp only
    split
    · split
      · exact hr hb₀
      · exact hr (admitted_keeps hb₀)
    · split
      · exact hr hb₀
      · split
        · exact hr hb₀
        · have h1 : Keeps b₀ (modSess s ‹_› (fun x => { x with renewed := s.now })) :=
            modSess_keeps hb₀ (fun _ hx => ⟨hx.1, hx.2⟩) (fun _ => rfl)
          split
          · exact hr h1
          · refine hr (keeps_ite (modSess_keeps (admitted_keeps h1) (fun x hx => ⟨hx.1, length_lastN _ _⟩) (fun _ => rfl))
              (admitted_keeps h1))

theorem request_keeps {b₀ : State} {s : State} {r : DictReq} {q : Request} {found : Option Nat} (hb₀ : Keeps b₀ s) : Ends b₀ (request s r q found) := by
  unfold request
  repeat' first
    | with_reducible assumption
    | with_reducible apply hf1
    | with_reducible apply hf2
    | with_reducible apply hf3
    | with_reducible apply dictRequest_keeps
    | with_reducible apply ends_next

theorem twRequest_keeps {b₀ : State} {s : State} {q : Request} (hb₀ : Keeps b₀ s) : Keeps b₀ (twRequest s q) := by
  unfold twRequest
  repeat' first
    | with_reducible assumption
    | with_reducible apply hf1
    | with_reducible apply hf2
    | with_reducible apply hf3
    | with_reducible apply execRequest_keeps
    | (extract_lets +onlyGivenNames x; refine keeps_step (r := b₀) (x := x) ?_ (fun hx => ?_); subst x; rotate_left; clear_value x; revert x; intro _ _)
    | (extract_lets +onlyGivenNames x; refine keeps_stepA (r := b₀) (x := x) ?_ (fun hx => ?_); subst x; rotate_left; clear_value x; revert x; intro _ _)
    | fail_if_no_progress (with_reducible apply keeps_mk)
    | with_reducible apply keeps_ite

theorem pduRx_keeps {b₀ : State} {s : State} {src : Carrier} {b : List Byte} (hb₀ : Keeps b₀ s) : Keeps b₀ (pduRx s src b).1 := by
  unfold pduRx
  repeat' first
    | with_reducible assumption
    | with_reducible apply hf1
    | with_reducible apply hf2
    | with_reducible apply hf3
    | with_reducible apply bump_keeps
    | with_reducible apply dictRequest_keeps
    | with_reducible refine keeps_fst (by with_reducible assumption) ?_
    | fail_if_no_progress (with_reducible apply keeps_mk)
    | with_reducible apply keeps_ite
    | with_reducible apply keeps_ite1
    | split

theorem modPortal_keeps {b₀ : State} {s : State} {f : Nat} {g : Portal → Portal} (hb₀ : Keeps b₀ s) : Keeps b₀ (modPortal s f g) := by
  unfold modPortal
  repeat' first
    | with_reducible assumption
    | with_reducible apply hf1
    | with_reducible apply hf2
    | with_reducible apply hf3
    | fail_if_no_progress (with_reducible apply keeps_mk)

theorem portalGo_keeps {b₀ : State} {s : State} {f : Fin 65} {pdu : List Byte} (hb₀ : Keeps b₀ s) : Keeps b₀ (portalGo s f pdu) := by
  unfold portalGo
  repeat' first
    | with_reducible assumption
    | with_reducible apply hf1
    | with_reducible apply hf2
    | with_reducible apply hf3
    | with_reducible apply take_keeps
    | with_reducible apply pduRx_keeps
    | with_reducible apply modPortal_keeps
    | (extract_lets +onlyGivenNames x; refine keeps_step (r := b₀) (x := x) ?_ (fun hx => ?_); subst x; rotate_left; clear_value x; revert x; intro _ _)
    | with_reducible refine keeps_fst (by with_reducible assumption) ?_
    | fail_if_no_progress (with_reducible apply keeps_mk)
    | with_reducible apply keeps_ite
    | split

theorem portalAnswer_keeps {b₀ : State} {s : State} {f : Nat} (hb₀ : Keeps b₀ s) : Keeps b₀ (portalAnswer s f) := by
  unfold portalAnswer
  repeat' first
    | with_reducible assumption
    | with_reducible apply hf1
    | with_reducible apply hf2
    | with_reducible apply hf3
    | with_reducible apply raiseVec_keeps
    | with_reducible apply modPortal_keeps
    | fail_if_no_progress (with_reducible apply keeps_mk)
    | with_reducible apply keeps_ite
    | split

theorem canDiscard_keeps {b₀ : State} {s : State} {last : Bool} (hb₀ : Keeps b₀ s) : Keeps b₀ (canDiscard s last) := by
  unfold canDiscard
  repeat' first
    | with_reducible assumption
    | with_reducible apply hf1
    | with_reducible apply hf2
    | with_reducible apply hf3
    | with_reducible apply bump_keeps
    | with_reducible refine keeps_fst (by with_reducible assumption) ?_
    | fail_if_no_progress (with_reducible apply keeps_mk)

theorem canSegment_keeps {b₀ : State} {s : State} {data : List Byte} (hb₀ : Keeps b₀ s) : Keeps b₀ (canSegment s data) := by
  unfold canSegment
  repeat' first
    | with_reducible assumption
    | with_reducible apply hf1
    | with_reducible apply hf2
    | with_reducible apply hf3
    | with_reducible apply bump_keeps
    | with_reducible apply take_keeps
    | with_reducible apply pduRx_keeps
    | with_reducible apply canDiscard_keeps
    | (extract_lets +onlyGivenNames x; refine keeps_step (r := b₀) (x := x) ?_ (fun hx => ?_); subst x; rotate_left; clear_value x; revert x; intro _ _)
    | (extract_lets +onlyGivenNames x; clear_value x; revert x; intro _)
    | with_reducible refine keeps_fst (by with_reducible assumption) ?_
    | fail_if_no_progress (with_reducible apply keeps_mk)
    | with_reducible apply keeps_ite
    | split

theorem canFrame_keeps {b₀ : State} {s : State} {ident : Nat} {data : List Byte} (hb₀ : Keeps b₀ s) : Keeps b₀ (canFrame s ident data) := by
  unfold canFrame
  repeat' first
    | with_reducible assumption
    | with_reducible apply hf1
    | with_reducible apply hf2
    | with_reducible apply hf3
    | with_reducible apply coldStart_keeps
    | with_reducible apply canSegment_keeps
    | (extract_lets +onlyGivenNames x; refine keeps_step (r := b₀) (x := x) ?_ (fun hx => ?_); subst x; rotate_left; clear_value x; revert x; intro _ _)
    | (extract_lets +onlyGivenNames x; clear_value x; revert x; intro _)
    | fail_if_no_progress (with_reducible apply keeps_mk)
    | with_reducible apply keeps_ite

theorem execOpen_keeps {b₀ : State} {r : DictReq} {lease : BitVec 16} {tag : BitVec 32} {s : State} (hb₀ : Keeps b₀ s) : Ends b₀ (execOpen r lease tag s) := by
  unfold execOpen
  repeat' first
    | with_reducible assumption
    | with_reducible apply hf1
    | with_reducible apply hf2
    | with_reducible apply hf3
    | with_reducible apply request_keeps

theorem execClose_keeps {b₀ : State} {r : DictReq} {s : State} (hb₀ : Keeps b₀ s) : Ends b₀ (execClose r s) := by
  unfold execClose
  repeat' first
    | with_reducible assumption
    | with_reducible apply hf1
    | with_reducible apply hf2
    | with_reducible apply hf3
    | with_reducible apply request_keeps

theorem execKeepalive_keeps {b₀ : State} {r : DictReq} {s : State} (hb₀ : Keeps b₀ s) : Ends b₀ (execKeepalive r s) := by
  unfold execKeepalive
  repeat' first
    | with_reducible assumption
    | with_reducible apply hf1
    | with_reducible apply hf2
    | with_reducible apply hf3
    | with_reducible apply request_keeps

theorem execRead_keeps {b₀ : State} {r : DictReq} {h : ItemHdr} {s : State} (hb₀ : Keeps b₀ s) : Ends b₀ (execRead r h s) := by
  unfold execRead
  repeat' first
    | with_reducible assumption
    | with_reducible apply hf1
    | with_reducible apply hf2
    | with_reducible apply hf3
    | with_reducible apply request_keeps

theorem execWrite_keeps {b₀ : State} {r : DictReq} {h : ItemHdr} {data : List Byte} {s : State} (hb₀ : Keeps b₀ s) : Ends b₀ (execWrite r h data s) := by
  unfold execWrite
  repeat' first
    | with_reducible assumption
    | with_reducible apply hf1
    | with_reducible apply hf2
    | with_reducible apply hf3
    | with_reducible apply request_keeps

theorem execWriteIf_keeps {b₀ : State} {r : DictReq} {h : ItemHdr} {expected : BitVec 16} {data : List Byte} {s : State} (hb₀ : Keeps b₀ s) : Ends b₀ (execWriteIf r h expected data s) := by
  unfold execWriteIf
  repeat' first
    | with_reducible assumption
    | with_reducible apply hf1
    | with_reducible apply hf2
    | with_reducible apply hf3
    | with_reducible apply request_keeps

theorem execDescribe_keeps {b₀ : State} {r : DictReq} {h : ItemHdr} {s : State} (hb₀ : Keeps b₀ s) : Ends b₀ (execDescribe r h s) := by
  unfold execDescribe
  repeat' first
    | with_reducible assumption
    | with_reducible apply hf1
    | with_reducible apply hf2
    | with_reducible apply hf3
    | with_reducible apply request_keeps

theorem execReadSeg_keeps {b₀ : State} {r : DictReq} {h : ItemHdr} {offset : BitVec 32} {length : BitVec 16} {s : State} (hb₀ : Keeps b₀ s) : Ends b₀ (execReadSeg r h offset length s) := by
  unfold execReadSeg
  repeat' first
    | with_reducible assumption
    | with_reducible apply hf1
    | with_reducible apply hf2
    | with_reducible apply hf3
    | with_reducible apply request_keeps

theorem execWriteSeg_keeps {b₀ : State} {r : DictReq} {h : ItemHdr} {offset total : BitVec 32} {data : List Byte} {s : State} (hb₀ : Keeps b₀ s) : Ends b₀ (execWriteSeg r h offset total data s) := by
  unfold execWriteSeg
  repeat' first
    | with_reducible assumption
    | with_reducible apply hf1
    | with_reducible apply hf2
    | with_reducible apply hf3
    | with_reducible apply request_keeps

theorem execGroup_keeps {b₀ : State} {r : DictReq} {items : List (ItemHdr × List Byte)} {s : State} (hb₀ : Keeps b₀ s) : Ends b₀ (execGroup r items s) := by
  unfold execGroup
  repeat' first
    | with_reducible assumption
    | with_reducible apply hf1
    | with_reducible apply hf2
    | with_reducible apply hf3
    | with_reducible apply request_keeps

theorem execSubscribe_keeps {b₀ : State} {r : DictReq} {mask : BitVec 32} {s : State} (hb₀ : Keeps b₀ s) : Ends b₀ (execSubscribe r mask s) := by
  unfold execSubscribe
  repeat' first
    | with_reducible assumption
    | with_reducible apply hf1
    | with_reducible apply hf2
    | with_reducible apply hf3
    | with_reducible apply request_keeps

theorem execMalformedPdu_keeps {b₀ : State} {pdu : List Byte} {s : State} (hb₀ : Keeps b₀ s) : Ends b₀ (execMalformedPdu pdu s) := by
  unfold execMalformedPdu
  repeat' first
    | with_reducible assumption
    | with_reducible apply hf1
    | with_reducible apply hf2
    | with_reducible apply hf3
    | with_reducible apply bump_keeps
    | with_reducible apply ends_next
    | with_reducible apply ends_fault
    | fail_if_no_progress (with_reducible apply keeps_mk)
    | with_reducible apply keeps_ite

theorem execUnknownOpcode_keeps {b₀ : State} {r : DictReq} {op : BitVec 8} {s : State} (hb₀ : Keeps b₀ s) : Ends b₀ (execUnknownOpcode r op s) := by
  unfold execUnknownOpcode
  repeat' first
    | with_reducible assumption
    | with_reducible apply hf1
    | with_reducible apply hf2
    | with_reducible apply hf3
    | with_reducible apply request_keeps
    | with_reducible apply ends_next
    | with_reducible apply ends_fault
    | fail_if_no_progress (with_reducible apply keeps_mk)
    | with_reducible apply keeps_ite
    | with_reducible apply ends_ite

theorem execLeaseExpiry_keeps {b₀ : State} {s : State} (hb₀ : Keeps b₀ s) : Ends b₀ (execLeaseExpiry s) := by
  unfold execLeaseExpiry
  repeat' first
    | with_reducible assumption
    | with_reducible apply hf1
    | with_reducible apply hf2
    | with_reducible apply hf3
    | with_reducible apply closeWhere_keeps
    | with_reducible apply ends_next

theorem execPortalGo_keeps {b₀ : State} {f : Fin 65} {pdu : List Byte} {s : State} (hb₀ : Keeps b₀ s) : Ends b₀ (execPortalGo f pdu s) := by
  unfold execPortalGo
  repeat' first
    | with_reducible assumption
    | with_reducible apply hf1
    | with_reducible apply hf2
    | with_reducible apply hf3
    | with_reducible apply portalGo_keeps
    | with_reducible apply ends_next

theorem execPortalResponse_keeps {b₀ : State} {f : Fin 65} {s : State} (hb₀ : Keeps b₀ s) : Ends b₀ (execPortalResponse f s) := by
  unfold execPortalResponse
  repeat' first
    | with_reducible assumption
    | with_reducible apply hf1
    | with_reducible apply hf2
    | with_reducible apply hf3
    | with_reducible apply portalAnswer_keeps
    | with_reducible apply ends_next

theorem execCanSegmentRx_keeps {b₀ : State} {ident : BitVec 11} {data : List Byte} {s : State} (hb₀ : Keeps b₀ s) : Ends b₀ (execCanSegmentRx ident data s) := by
  unfold execCanSegmentRx
  repeat' first
    | with_reducible assumption
    | with_reducible apply hf1
    | with_reducible apply hf2
    | with_reducible apply hf3
    | with_reducible apply canFrame_keeps
    | with_reducible apply ends_next

theorem execWakeCanFrame_keeps {b₀ : State} {data : List Byte} {s : State} (hb₀ : Keeps b₀ s) : Ends b₀ (execWakeCanFrame data s) := by
  unfold execWakeCanFrame
  repeat' first
    | with_reducible assumption
    | with_reducible apply hf1
    | with_reducible apply hf2
    | with_reducible apply hf3
    | with_reducible apply canFrame_keeps
    | with_reducible apply ends_next

theorem execEventFrameTx_keeps {b₀ : State} {s : State} (hb₀ : Keeps b₀ s) : Ends b₀ (execEventFrameTx s) := by
  have hf : ∀ l : List EventFrame, l.Sublist s.frames → Keeps b₀ { s with frames := l } := fun l hl =>
    keeps_frames hb₀ fun i => Nat.le_trans (List.Sublist.length_le (hl.filter _)) i.frames
  unfold execEventFrameTx
  split
  · exact ends_next hb₀
  · split
    · exact ends_next (keeps_mk (hf _ (List.eraseP_sublist ..)))
    · split
      · exact ends_next hb₀
      · next h => exact ends_next (keeps_mk (hf _ (h ▸ List.sublist_cons_self ..)))

theorem execSysDefaults_keeps {b₀ : State} {r : DictReq} {value : BitVec 8} {s : State} (hb₀ : Keeps b₀ s) : Ends b₀ (execSysDefaults r value s) := by
  unfold execSysDefaults
  repeat' first
    | with_reducible assumption
    | with_reducible apply hf1
    | with_reducible apply hf2
    | with_reducible apply hf3
    | with_reducible apply request_keeps

theorem execTwDictRequest_keeps {b₀ : State} {q : Request} {s : State} (hb₀ : Keeps b₀ s) : Ends b₀ (execTwDictRequest q s) := by
  unfold execTwDictRequest
  repeat' first
    | with_reducible assumption
    | with_reducible apply hf1
    | with_reducible apply hf2
    | with_reducible apply hf3
    | with_reducible apply twRequest_keeps
    | with_reducible apply ends_next

theorem execFabRelayWrite_keeps {b₀ : State} {r : DictReq} {data : List Byte} {s : State} (hb₀ : Keeps b₀ s) : Ends b₀ (execFabRelayWrite r data s) := by
  unfold execFabRelayWrite
  repeat' first
    | with_reducible assumption
    | with_reducible apply hf1
    | with_reducible apply hf2
    | with_reducible apply hf3
    | with_reducible apply request_keeps

theorem execFabRelayRead_keeps {b₀ : State} {r : DictReq} {s : State} (hb₀ : Keeps b₀ s) : Ends b₀ (execFabRelayRead r s) := by
  unfold execFabRelayRead
  repeat' first
    | with_reducible assumption
    | with_reducible apply hf1
    | with_reducible apply hf2
    | with_reducible apply hf3
    | with_reducible apply request_keeps

theorem execRelayedPduRx_keeps {b₀ : State} {serial : BitVec 64} {mgr : Bool} {pdu : List Byte} {s : State} (hb₀ : Keeps b₀ s) : Ends b₀ (execRelayedPduRx serial mgr pdu s) := by
  unfold execRelayedPduRx
  repeat' first
    | with_reducible assumption
    | with_reducible apply hf1
    | with_reducible apply hf2
    | with_reducible apply hf3
    | with_reducible apply pduRx_keeps
    | with_reducible apply ends_next
    | with_reducible apply ends_fault
    | fail_if_no_progress (with_reducible apply keeps_mk)
    | with_reducible apply keeps_ite
    | with_reducible apply ends_ite

theorem execRelayReplyRx_keeps {b₀ : State} {session : BitVec 16} {pdu : List Byte} {s : State} (hb₀ : Keeps b₀ s) : Ends b₀ (execRelayReplyRx session pdu s) := by
  unfold execRelayReplyRx
  repeat' first
    | with_reducible assumption
    | with_reducible apply hf1
    | with_reducible apply hf2
    | with_reducible apply hf3
    | with_reducible apply modSess_keeps
    | with_reducible apply ends_next
    | with_reducible apply ends_fault
    | (intro x hx; try beta_reduce)
    | fail_if_no_progress (with_reducible apply keeps_mk)
    | with_reducible apply keeps_ite
    | with_reducible apply ends_ite
    | split
    | with_reducible apply WriteOut.settled_keeps
    | dsimp only
    | exact ⟨hx.1, hx.2⟩
    | with_reducible exact fun _ => rfl

end Sys2Proof.Machine
end

