-- ==== Sys2Proof/Laws/KeepsCommands.lean ====
section
/-!
SUPPORT. Each operation of Machine/Commands.lean keeps the queue and the invariant.
-/

namespace Sys2Proof.Machine

theorem writeObject_keeps {b₀ : State} {s : State} {r : DictReq} {k n : Nat} {found : Option Nat} (hb₀ : Keeps b₀ s) : Ends b₀ (writeObject s r k n found) := by
  unfold writeObject
  repeat' first
    | with_reducible assumption
    | with_reducible apply request_keeps

theorem claimObject_keeps {b₀ : State} {s : State} {r : DictReq} {k : Nat} {expected : BitVec 16} {owner : BitVec 8} (hb₀ : Keeps b₀ s) : Ends b₀ (claimObject s r k expected owner) := by
  unfold claimObject
  repeat' first
    | with_reducible assumption
    | with_reducible apply request_keeps

theorem twWriteObject_keeps {b₀ : State} {s : State} {k n : Nat} (hb₀ : Keeps b₀ s) : Ends b₀ (twWriteObject s k n) := by
  unfold twWriteObject
  repeat' first
    | with_reducible assumption
    | with_reducible apply twRequest_keeps
    | with_reducible apply ends_next

theorem execFenceClaim_keeps {b₀ : State} {r : DictReq} {slot : Fin 256} {expected : BitVec 16} {owner : BitVec 8} {s : State} (hb₀ : Keeps b₀ s) : Ends b₀ (execFenceClaim r slot expected owner s) := by
  unfold execFenceClaim
  repeat' first
    | with_reducible assumption
    | with_reducible apply claimObject_keeps

theorem execFenceValueWrite_keeps {b₀ : State} {r : DictReq} {slot : Fin 256} {value : BitVec 64} {s : State} (hb₀ : Keeps b₀ s) : Ends b₀ (execFenceValueWrite r slot value s) := by
  unfold execFenceValueWrite
  repeat' first
    | with_reducible assumption
    | with_reducible apply writeObject_keeps

theorem execProgClaim_keeps {b₀ : State} {r : DictReq} {slot : Fin 256} {expected : BitVec 16} {owner : BitVec 8} {s : State} (hb₀ : Keeps b₀ s) : Ends b₀ (execProgClaim r slot expected owner s) := by
  unfold execProgClaim
  repeat' first
    | with_reducible assumption
    | with_reducible apply claimObject_keeps

theorem execCtxEnable_keeps {b₀ : State} {r : DictReq} {ctx : Fin 64} {s : State} (hb₀ : Keeps b₀ s) : Ends b₀ (execCtxEnable r ctx s) := by
  unfold execCtxEnable
  repeat' first
    | with_reducible assumption
    | with_reducible apply writeObject_keeps

theorem execCtxDisable_keeps {b₀ : State} {r : DictReq} {ctx : Fin 64} {s : State} (hb₀ : Keeps b₀ s) : Ends b₀ (execCtxDisable r ctx s) := by
  unfold execCtxDisable
  repeat' first
    | with_reducible assumption
    | with_reducible apply writeObject_keeps

theorem execSurfClaim_keeps {b₀ : State} {r : DictReq} {slot : Fin 2048} {expected : BitVec 16} {owner : BitVec 8} {s : State} (hb₀ : Keeps b₀ s) : Ends b₀ (execSurfClaim r slot expected owner s) := by
  unfold execSurfClaim
  repeat' first
    | with_reducible assumption
    | with_reducible apply claimObject_keeps

theorem execSurfAlloc_keeps {b₀ : State} {r : DictReq} {slot : Fin 2048} {s : State} (hb₀ : Keeps b₀ s) : Ends b₀ (execSurfAlloc r slot s) := by
  unfold execSurfAlloc
  repeat' first
    | with_reducible assumption
    | with_reducible apply writeObject_keeps

theorem execSurfRelease_keeps {b₀ : State} {r : DictReq} {slot : Fin 2048} {s : State} (hb₀ : Keeps b₀ s) : Ends b₀ (execSurfRelease r slot s) := by
  unfold execSurfRelease
  repeat' first
    | with_reducible assumption
    | with_reducible apply writeObject_keeps

theorem execOutCommit_keeps {b₀ : State} {r : DictReq} {port : Fin 8} {value : BitVec 8} {s : State} (hb₀ : Keeps b₀ s) : Ends b₀ (execOutCommit r port value s) := by
  unfold execOutCommit
  repeat' first
    | with_reducible assumption
    | with_reducible apply writeObject_keeps

theorem execOutEnable_keeps {b₀ : State} {r : DictReq} {port : Fin 8} {s : State} (hb₀ : Keeps b₀ s) : Ends b₀ (execOutEnable r port s) := by
  unfold execOutEnable
  repeat' first
    | with_reducible assumption
    | with_reducible apply writeObject_keeps

theorem execOutDisable_keeps {b₀ : State} {r : DictReq} {port : Fin 8} {s : State} (hb₀ : Keeps b₀ s) : Ends b₀ (execOutDisable r port s) := by
  unfold execOutDisable
  repeat' first
    | with_reducible assumption
    | with_reducible apply writeObject_keeps

theorem execOutModeWrite_keeps {b₀ : State} {r : DictReq} {port : Fin 8} {mode : BitVec 8} {s : State} (hb₀ : Keeps b₀ s) : Ends b₀ (execOutModeWrite r port mode s) := by
  unfold execOutModeWrite
  repeat' first
    | with_reducible assumption
    | with_reducible apply writeObject_keeps

theorem execKaolinCommit_keeps {b₀ : State} {port : Fin 8} {value : BitVec 8} {s : State} (hb₀ : Keeps b₀ s) : Ends b₀ (execKaolinCommit port value s) := by
  unfold execKaolinCommit
  repeat' first
    | with_reducible assumption
    | with_reducible apply twWriteObject_keeps

theorem execMemRetireReq_keeps {b₀ : State} {r : DictReq} {rank : BitVec 8} {s : State} (hb₀ : Keeps b₀ s) : Ends b₀ (execMemRetireReq r rank s) := by
  unfold execMemRetireReq
  repeat' first
    | with_reducible assumption
    | with_reducible apply writeObject_keeps

theorem execMemInjArm_keeps {b₀ : State} {r : DictReq} {value : Bool} {s : State} (hb₀ : Keeps b₀ s) : Ends b₀ (execMemInjArm r value s) := by
  unfold execMemInjArm
  repeat' first
    | with_reducible assumption
    | with_reducible apply writeObject_keeps

theorem execVfEnable_keeps {b₀ : State} {r : DictReq} {vf : Fin 64} {s : State} (hb₀ : Keeps b₀ s) : Ends b₀ (execVfEnable r vf s) := by
  unfold execVfEnable
  repeat' first
    | with_reducible assumption
    | with_reducible apply writeObject_keeps

theorem execVfDisable_keeps {b₀ : State} {r : DictReq} {vf : Fin 64} {s : State} (hb₀ : Keeps b₀ s) : Ends b₀ (execVfDisable r vf s) := by
  unfold execVfDisable
  repeat' first
    | with_reducible assumption
    | with_reducible apply writeObject_keeps

theorem execGrantWrite_keeps {b₀ : State} {r : DictReq} {vf : Fin 64} {sub : BitVec 8} {value : BitVec 32} {s : State} (hb₀ : Keeps b₀ s) : Ends b₀ (execGrantWrite r vf sub value s) := by
  unfold execGrantWrite
  repeat' first
    | with_reducible assumption
    | with_reducible apply writeObject_keeps

theorem execGrantShareWrite_keeps {b₀ : State} {r : DictReq} {vf : Fin 64} {value : BitVec 16} {s : State} (hb₀ : Keeps b₀ s) : Ends b₀ (execGrantShareWrite r vf value s) := by
  unfold execGrantShareWrite
  repeat' first
    | with_reducible assumption
    | with_reducible apply writeObject_keeps

theorem execRegionWrite_keeps {b₀ : State} {r : DictReq} {vf : Fin 64} {touch : Bool} {region : Fin 8} {sub : BitVec 8} {value : BitVec 32} {s : State} (hb₀ : Keeps b₀ s) : Ends b₀ (execRegionWrite r vf touch region sub value s) := by
  unfold execRegionWrite
  repeat' first
    | with_reducible assumption
    | with_reducible apply writeObject_keeps

theorem execRingOwnerWrite_keeps {b₀ : State} {r : DictReq} {ring : Fin 256} {owner : BitVec 8} {s : State} (hb₀ : Keeps b₀ s) : Ends b₀ (execRingOwnerWrite r ring owner s) := by
  unfold execRingOwnerWrite
  repeat' first
    | with_reducible assumption
    | with_reducible apply writeObject_keeps

theorem execRingEnable_keeps {b₀ : State} {r : DictReq} {ring : Fin 256} {value : Bool} {s : State} (hb₀ : Keeps b₀ s) : Ends b₀ (execRingEnable r ring value s) := by
  unfold execRingEnable
  repeat' first
    | with_reducible assumption
    | with_reducible apply writeObject_keeps

theorem execRingOrderWrite_keeps {b₀ : State} {r : DictReq} {ring : Fin 256} {order : BitVec 8} {s : State} (hb₀ : Keeps b₀ s) : Ends b₀ (execRingOrderWrite r ring order s) := by
  unfold execRingOrderWrite
  repeat' first
    | with_reducible assumption
    | with_reducible apply writeObject_keeps

theorem execVfFlr_keeps {b₀ : State} {r : DictReq} {vf : Fin 64} {value : BitVec 8} {s : State} (hb₀ : Keeps b₀ s) : Ends b₀ (execVfFlr r vf value s) := by
  unfold execVfFlr
  repeat' first
    | with_reducible assumption
    | with_reducible apply writeObject_keeps

theorem execMigFreeze_keeps {b₀ : State} {r : DictReq} {vf : Fin 64} {s : State} (hb₀ : Keeps b₀ s) : Ends b₀ (execMigFreeze r vf s) := by
  unfold execMigFreeze
  repeat' first
    | with_reducible assumption
    | with_reducible apply writeObject_keeps

theorem execMigThaw_keeps {b₀ : State} {r : DictReq} {vf : Fin 64} {s : State} (hb₀ : Keeps b₀ s) : Ends b₀ (execMigThaw r vf s) := by
  unfold execMigThaw
  repeat' first
    | with_reducible assumption
    | with_reducible apply writeObject_keeps

theorem execMigSave_keeps {b₀ : State} {r : DictReq} {vf : Fin 64} {s : State} (hb₀ : Keeps b₀ s) : Ends b₀ (execMigSave r vf s) := by
  unfold execMigSave
  repeat' first
    | with_reducible assumption
    | with_reducible apply writeObject_keeps

theorem execMigRestore_keeps {b₀ : State} {r : DictReq} {vf : Fin 64} {s : State} (hb₀ : Keeps b₀ s) : Ends b₀ (execMigRestore r vf s) := by
  unfold execMigRestore
  repeat' first
    | with_reducible assumption
    | with_reducible apply writeObject_keeps

theorem execLogEnable_keeps {b₀ : State} {r : DictReq} {vf : Fin 64} {value : Bool} {s : State} (hb₀ : Keeps b₀ s) : Ends b₀ (execLogEnable r vf value s) := by
  unfold execLogEnable
  repeat' first
    | with_reducible assumption
    | with_reducible apply writeObject_keeps

theorem execLogSwap_keeps {b₀ : State} {r : DictReq} {vf : Fin 64} {value : BitVec 8} {s : State} (hb₀ : Keeps b₀ s) : Ends b₀ (execLogSwap r vf value s) := by
  unfold execLogSwap
  repeat' first
    | with_reducible assumption
    | with_reducible apply writeObject_keeps

theorem execPinTWrite_keeps {b₀ : State} {pin : Fin 96} {trusted : Bool} {s : State} (hb₀ : Keeps b₀ s) : Ends b₀ (execPinTWrite pin trusted s) := by
  unfold execPinTWrite
  repeat' first
    | with_reducible assumption
    | with_reducible apply twWriteObject_keeps

theorem execDmaTWrite_keeps {b₀ : State} {chan : Fin 32} {trusted : Bool} {s : State} (hb₀ : Keeps b₀ s) : Ends b₀ (execDmaTWrite chan trusted s) := by
  unfold execDmaTWrite
  repeat' first
    | with_reducible assumption
    | with_reducible apply twWriteObject_keeps

theorem execClaimHoldWrite_keeps {b₀ : State} {domain : Fin 24} {value : Bool} {s : State} (hb₀ : Keeps b₀ s) : Ends b₀ (execClaimHoldWrite domain value s) := by
  unfold execClaimHoldWrite
  repeat' first
    | with_reducible assumption
    | with_reducible apply twWriteObject_keeps

theorem execAttNonceWrite_keeps {b₀ : State} {r : DictReq} {nonce : List Byte} {s : State} (hb₀ : Keeps b₀ s) : Ends b₀ (execAttNonceWrite r nonce s) := by
  unfold execAttNonceWrite
  repeat' first
    | with_reducible assumption
    | with_reducible apply request_keeps

theorem execPanelEnable_keeps {b₀ : State} {r : DictReq} {panel : Fin 4} {s : State} (hb₀ : Keeps b₀ s) : Ends b₀ (execPanelEnable r panel s) := by
  unfold execPanelEnable
  repeat' first
    | with_reducible assumption
    | with_reducible apply writeObject_keeps

theorem execPanelDisable_keeps {b₀ : State} {r : DictReq} {panel : Fin 4} {s : State} (hb₀ : Keeps b₀ s) : Ends b₀ (execPanelDisable r panel s) := by
  unfold execPanelDisable
  repeat' first
    | with_reducible assumption
    | with_reducible apply writeObject_keeps

theorem execPanelRefCapture_keeps {b₀ : State} {r : DictReq} {panel : Fin 4} {value : BitVec 8} {s : State} (hb₀ : Keeps b₀ s) : Ends b₀ (execPanelRefCapture r panel value s) := by
  unfold execPanelRefCapture
  repeat' first
    | with_reducible assumption
    | with_reducible apply writeObject_keeps

theorem execPanelTestRun_keeps {b₀ : State} {r : DictReq} {panel : Fin 4} {value : BitVec 8} {s : State} (hb₀ : Keeps b₀ s) : Ends b₀ (execPanelTestRun r panel value s) := by
  unfold execPanelTestRun
  repeat' first
    | with_reducible assumption
    | with_reducible apply writeObject_keeps

theorem execChReset_keeps {b₀ : State} {r : DictReq} {chan : Fin 16} {value : BitVec 8} {capNf : BitVec 32} {s : State} (hb₀ : Keeps b₀ s) : Ends b₀ (execChReset r chan value capNf s) := by
  unfold execChReset
  repeat' first
    | with_reducible assumption
    | with_reducible apply writeObject_keeps

theorem execHapEnable_keeps {b₀ : State} {r : DictReq} {s : State} (hb₀ : Keeps b₀ s) : Ends b₀ (execHapEnable r s) := by
  unfold execHapEnable
  repeat' first
    | with_reducible assumption
    | with_reducible apply writeObject_keeps

theorem execHapDisable_keeps {b₀ : State} {r : DictReq} {s : State} (hb₀ : Keeps b₀ s) : Ends b₀ (execHapDisable r s) := by
  unfold execHapDisable
  repeat' first
    | with_reducible assumption
    | with_reducible apply writeObject_keeps

theorem execSndEnable_keeps {b₀ : State} {r : DictReq} {s : State} (hb₀ : Keeps b₀ s) : Ends b₀ (execSndEnable r s) := by
  unfold execSndEnable
  repeat' first
    | with_reducible assumption
    | with_reducible apply writeObject_keeps

theorem execSndDisable_keeps {b₀ : State} {r : DictReq} {s : State} (hb₀ : Keeps b₀ s) : Ends b₀ (execSndDisable r s) := by
  unfold execSndDisable
  repeat' first
    | with_reducible assumption
    | with_reducible apply writeObject_keeps

theorem execStreamEnable_keeps {b₀ : State} {r : DictReq} {capture : Bool} {number : Fin 64} {value : Bool} {s : State} (hb₀ : Keeps b₀ s) : Ends b₀ (execStreamEnable r capture number value s) := by
  unfold execStreamEnable
  repeat' first
    | with_reducible assumption
    | with_reducible apply writeObject_keeps

theorem execSpreadEnable_keeps {b₀ : State} {r : DictReq} {spread : Fin 8} {s : State} (hb₀ : Keeps b₀ s) : Ends b₀ (execSpreadEnable r spread s) := by
  unfold execSpreadEnable
  repeat' first
    | with_reducible assumption
    | with_reducible apply writeObject_keeps

theorem execSpreadDisable_keeps {b₀ : State} {r : DictReq} {spread : Fin 8} {s : State} (hb₀ : Keeps b₀ s) : Ends b₀ (execSpreadDisable r spread s) := by
  unfold execSpreadDisable
  repeat' first
    | with_reducible assumption
    | with_reducible apply writeObject_keeps

theorem execSpreadCommit_keeps {b₀ : State} {r : DictReq} {spread : Fin 8} {value : BitVec 8} {s : State} (hb₀ : Keeps b₀ s) : Ends b₀ (execSpreadCommit r spread value s) := by
  unfold execSpreadCommit
  repeat' first
    | with_reducible assumption
    | with_reducible apply spreadCommit_keeps
    | with_reducible apply writeObject_keeps

theorem execDomHoldWrite_keeps {b₀ : State} {r : DictReq} {domain : Fin 24} {value : Bool} {s : State} (hb₀ : Keeps b₀ s) : Ends b₀ (execDomHoldWrite r domain value s) := by
  unfold execDomHoldWrite
  repeat' first
    | with_reducible assumption
    | with_reducible apply writeObject_keeps

theorem execDomTwWrite_keeps {b₀ : State} {domain : Fin 24} {value : Bool} {s : State} (hb₀ : Keeps b₀ s) : Ends b₀ (execDomTwWrite domain value s) := by
  unfold execDomTwWrite
  repeat' first
    | with_reducible assumption
    | with_reducible apply twWriteObject_keeps

theorem execPwrReqStandby_keeps {b₀ : State} {r : DictReq} {s : State} (hb₀ : Keeps b₀ s) : Ends b₀ (execPwrReqStandby r s) := by
  unfold execPwrReqStandby
  repeat' first
    | with_reducible assumption
    | with_reducible apply writeObject_keeps

theorem execPwrReqRun_keeps {b₀ : State} {r : DictReq} {s : State} (hb₀ : Keeps b₀ s) : Ends b₀ (execPwrReqRun r s) := by
  unfold execPwrReqRun
  repeat' first
    | with_reducible assumption
    | with_reducible apply writeObject_keeps

theorem execPwrReset_keeps {b₀ : State} {r : DictReq} {value : BitVec 8} {s : State} (hb₀ : Keeps b₀ s) : Ends b₀ (execPwrReset r value s) := by
  unfold execPwrReset
  repeat' first
    | with_reducible assumption
    | with_reducible apply writeObject_keeps

theorem execIslGateWrite_keeps {b₀ : State} {r : DictReq} {island : Fin 40} {value : Bool} {s : State} (hb₀ : Keeps b₀ s) : Ends b₀ (execIslGateWrite r island value s) := by
  unfold execIslGateWrite
  repeat' first
    | with_reducible assumption
    | with_reducible apply writeObject_keeps

theorem execIslRateWrite_keeps {b₀ : State} {r : DictReq} {island : Fin 40} {value : BitVec 16} {s : State} (hb₀ : Keeps b₀ s) : Ends b₀ (execIslRateWrite r island value s) := by
  unfold execIslRateWrite
  repeat' first
    | with_reducible assumption
    | with_reducible apply writeObject_keeps

theorem execGrogRetest_keeps {b₀ : State} {r : DictReq} {value : BitVec 16} {passes : Bool} {s : State} (hb₀ : Keeps b₀ s) : Ends b₀ (execGrogRetest r value passes s) := by
  unfold execGrogRetest
  repeat' first
    | with_reducible assumption
    | with_reducible apply writeObject_keeps

theorem execDiagEnable_keeps {b₀ : State} {r : DictReq} {value : Bool} {s : State} (hb₀ : Keeps b₀ s) : Ends b₀ (execDiagEnable r value s) := by
  unfold execDiagEnable
  repeat' first
    | with_reducible assumption
    | with_reducible apply writeObject_keeps

theorem execSpFuncWrite_keeps {b₀ : State} {r : DictReq} {pin : Fin 96} {value : BitVec 8} {s : State} (hb₀ : Keeps b₀ s) : Ends b₀ (execSpFuncWrite r pin value s) := by
  unfold execSpFuncWrite
  repeat' first
    | with_reducible assumption
    | with_reducible apply writeObject_keeps

theorem execSpPwmWrite_keeps {b₀ : State} {r : DictReq} {pin : Fin 96} {freq : Bool} {value : BitVec 32} {s : State} (hb₀ : Keeps b₀ s) : Ends b₀ (execSpPwmWrite r pin freq value s) := by
  unfold execSpPwmWrite
  repeat' first
    | with_reducible assumption
    | with_reducible apply writeObject_keeps

end Sys2Proof.Machine
end

