-- ==== Sys2Proof/Laws/KeepsCopy.lean ====
section
/-!
SUPPORT. Each operation of Machine/Copy.lean keeps the queue and the invariant.
-/

namespace Sys2Proof.Machine

theorem copyIn_keeps {b₀ : State} {s : State} {f i : Nat} {p : CopyPayload} {rs : List Run} (hb₀ : Keeps b₀ s) : Keeps b₀ (copyIn s f i p rs) := by
  unfold copyIn
  repeat' first
    | with_reducible assumption
    | with_reducible apply writeCells_keeps

theorem copyOut_keeps {b₀ : State} {s : State} {f i : Nat} {p : CopyPayload} {rs : List Run} (hb₀ : Keeps b₀ s) : Keeps b₀ (copyOut s f i p rs).1 := by
  unfold copyOut
  repeat' first
    | with_reducible assumption
    | with_reducible apply hostWrite_keeps
    | with_reducible apply readCells_keeps
    | with_reducible apply foldl_keeps
    | with_reducible apply foldl_keeps1
    | (intro x a hx; try beta_reduce)
    | with_reducible refine keeps_fst (by with_reducible assumption) ?_
    | with_reducible refine keeps_host ?_ (memSetAll_wf _ _)
    | fail_if_no_progress (with_reducible apply keeps_mk)
    | with_reducible apply keeps_ite
    | with_reducible apply keeps_ite1
    | split

theorem copyAcross_keeps {b₀ : State} {s : State} {i j : Nat} {src dst : List Run} (hb₀ : Keeps b₀ s) : Keeps b₀ (copyAcross s i j src dst) := by
  unfold copyAcross
  repeat' first
    | with_reducible assumption
    | with_reducible apply writeCells_keeps
    | with_reducible apply readCells_keeps

theorem copyFill_keeps {b₀ : State} {s : State} {i : Nat} {p : CopyPayload} {rs : List Run} (hb₀ : Keeps b₀ s) : Keeps b₀ (copyFill s i p rs) := by
  unfold copyFill
  repeat' first
    | with_reducible assumption
    | with_reducible apply writeCells_keeps

theorem execCopy_keeps {b₀ : State} {h : CmdHdr} {p : CopyPayload} {s : State} (hb₀ : Keeps b₀ s) : Ends b₀ (execCopy h p s) := by
  unfold execCopy
  repeat' first
    | with_reducible assumption
    | with_reducible apply draw_keeps
    | with_reducible apply complete_keeps
    | with_reducible apply completeR_keeps
    | with_reducible apply completeOpen_keeps
    | with_reducible apply beginCmd_keeps
    | with_reducible apply copyIn_keeps
    | with_reducible apply copyOut_keeps
    | with_reducible apply copyAcross_keeps
    | with_reducible apply copyFill_keeps
    | with_reducible apply ends_next
    | with_reducible apply ends_fault
    | (extract_lets +onlyGivenNames x; clear_value x; revert x; intro _)
    | with_reducible refine keeps_fst (by with_reducible assumption) ?_
    | fail_if_no_progress (with_reducible apply keeps_mk)
    | with_reducible apply keeps_ite
    | with_reducible apply ends_ite
    | split

theorem execConvert_keeps {b₀ : State} {h : CmdHdr} {p : ConvertPayload} {s : State} (hb₀ : Keeps b₀ s) : Ends b₀ (execConvert h p s) := by
  unfold execConvert
  repeat' first
    | with_reducible assumption
    | with_reducible apply completeOpen_keeps
    | with_reducible apply beginCmd_keeps
    | with_reducible apply writeCells_keeps
    | with_reducible apply readCells_keeps
    | with_reducible apply ends_next
    | with_reducible apply ends_fault
    | (extract_lets +onlyGivenNames x; clear_value x; revert x; intro _)
    | with_reducible refine keeps_fst (by with_reducible assumption) ?_
    | fail_if_no_progress (with_reducible apply keeps_mk)
    | with_reducible apply keeps_ite
    | with_reducible apply ends_ite
    | split

theorem execSurfScrubDone_keeps {b₀ : State} {slot : Fin 2048} {s : State} (hb₀ : Keeps b₀ s) : Ends b₀ (execSurfScrubDone slot s) := by
  unfold execSurfScrubDone
  repeat' first
    | with_reducible assumption
    | with_reducible apply scrubSurface_keeps
    | with_reducible apply ends_next
    | with_reducible apply ends_fault
    | fail_if_no_progress (with_reducible apply keeps_mk)
    | with_reducible apply keeps_ite
    | with_reducible apply ends_ite
    | split

end Sys2Proof.Machine
end

