-- ==== Sys2Proof/Laws/KeepsSnapshot.lean ====
section
/-!
SUPPORT. Each operation of Machine/Snapshot.lean keeps the queue and the invariant.
-/

namespace Sys2Proof.Machine

theorem snapOp_keeps {b₀ : State} {s : State} {f v : Nat} (hb₀ : Keeps b₀ s) : Keeps b₀ (snapOp s f v) := by
  unfold snapOp
  repeat' first
    | with_reducible assumption
    | with_reducible apply draw_keeps
    | with_reducible apply modFunc_keeps
    | with_reducible apply lostWrite_keeps
    | (extract_lets +onlyGivenNames x; clear_value x; revert x; intro _)
    | fail_if_no_progress (with_reducible apply keeps_mk)
    | with_reducible apply keeps_ite

theorem execSnapSel_keeps {b₀ : State} {f : Fin 65} {value : BitVec 32} {s : State} (hb₀ : Keeps b₀ s) : Ends b₀ (execSnapSel f value s) := by
  unfold execSnapSel
  repeat' first
    | with_reducible assumption
    | with_reducible apply snapOp_keeps
    | with_reducible apply ends_next
    | with_reducible apply ends_fault
    | fail_if_no_progress (with_reducible apply keeps_mk)
    | with_reducible apply keeps_ite
    | with_reducible apply ends_ite

theorem execRegisterWrite_keeps {b₀ : State} {f : Fin 65} {offset : BitVec 16} {value : BitVec 32} {s : State} (hb₀ : Keeps b₀ s) : Ends b₀ (execRegisterWrite f offset value s) := by
  unfold execRegisterWrite
  repeat' first
    | with_reducible assumption
    | with_reducible apply registerOp_keeps
    | with_reducible apply snapOp_keeps
    | with_reducible apply ends_next
    | with_reducible apply ends_fault
    | fail_if_no_progress (with_reducible apply keeps_mk)
    | with_reducible apply keeps_ite
    | with_reducible apply ends_ite

end Sys2Proof.Machine
end

