-- ==== Sys2Proof/Laws/KeepsTick.lean ====
section
/-!
SUPPORT. Each operation of Machine/Tick.lean keeps the queue and the invariant.
-/

namespace Sys2Proof.Machine

theorem sendNote_keeps {b₀ : State} {s : State} {i : Nat} (hb₀ : Keeps b₀ s) : Keeps b₀ (sendNote s i) := by
  unfold sendNote
  split
  · exact hb₀
  · next n r h =>
    refine modSess_keeps' hb₀ (fun hx => ⟨?_, hx.2⟩) rfl
    have := hx.1; rw [h] at this
    exact Nat.le_of_succ_le this

theorem tick_keeps {b₀ : State} {s : State} (hb₀ : Keeps b₀ s) : Keeps b₀ (tick s) := by
  unfold tick
  repeat' first
    | with_reducible assumption
    | with_reducible apply copyTick_keeps
    | with_reducible apply tryStart_keeps
    | with_reducible apply railTick_keeps
    | with_reducible apply driveTick_keeps
    | with_reducible apply serveLink_keeps
    | with_reducible apply powerTimers_keeps
    | with_reducible apply sendNote_keeps
    | with_reducible apply foldN_keeps
    | fail_if_no_progress (with_reducible apply keeps_mk)

end Sys2Proof.Machine
end

