-- ==== Sys2Proof/Laws/State.lean ====
section
/-!
SUPPORT. Every field of State after every named update of it, and what a record or an object reads after an update of its table.
-/

namespace Sys2Proof.Machine

variable (s : State)

/-! ## Records and objects -/

@[simp] theorem getV_putV (k : Nat) (v : Val) : getV (putV s k v) k = v := by simp [getV, putV]

theorem getV_putV_ne {k k' : Nat} (v : Val) (h : k' ≠ k) : getV (putV s k v) k' = getV s k' := by
  simp [getV, putV, tfind_tset_ne _ _ h]

@[simp] theorem getN_putN (k n : Nat) : getN (putN s k n) k = n := by simp [getN, putN, Val.toNat]

theorem getN_putN_ne {k k' : Nat} (n : Nat) (h : k' ≠ k) : getN (putN s k n) k' = getN s k' := by
  simp [getN, putN, getV_putV_ne s _ h]

theorem getN_putV_ne {k k' : Nat} (v : Val) (h : k' ≠ k) : getN (putV s k v) k' = getN s k' := by
  simp [getN, getV_putV_ne s _ h]

theorem getN_bump_ne {k k' : Nat} (h : k' ≠ k) : getN (bump s k) k' = getN s k' := getN_putN_ne s _ h

@[simp] theorem getN_bump (k : Nat) : getN (bump s k) k = satInc 32 (getN s k) := by simp [bump]

/-- The module's own update of an object moves no change counter. -/
@[simp] theorem ctrOf_putV (k k' : Nat) (v : Val) : ctrOf (putV s k v) k' = ctrOf s k' := by
  by_cases h : k' = k
  · subst h; simp [ctrOf, putV]
  · simp [ctrOf, putV, tfind_tset_ne _ _ h]

@[simp] theorem getV_writeV (k : Nat) (v : Val) : getV (writeV s k v) k = v := by
  unfold writeV
  split
  · assumption
  · simp [getV]

theorem getV_writeV_ne {k k' : Nat} (v : Val) (h : k' ≠ k) : getV (writeV s k v) k' = getV s k' := by
  unfold writeV
  split
  · rfl
  · simp [getV, tfind_tset_ne _ _ h]

/-- A write that changes the value advances the change counter, one that does not leaves it (R20). -/
theorem ctrOf_writeV (k : Nat) (v : Val) :
    ctrOf (writeV s k v) k = if getV s k = v then ctrOf s k else (ctrOf s k + 1) % 65536 := by
  unfold writeV
  split
  · rfl
  · simp [ctrOf]

@[simp] theorem funcOf_modFunc (i : Nat) (g : Func → Func) : funcOf (modFunc s i g) i = g (funcOf s i) := by simp [funcOf, modFunc]

theorem funcOf_modFunc_ne {i j : Nat} (g : Func → Func) (h : j ≠ i) : funcOf (modFunc s i g) j = funcOf s j := by simp [funcOf, modFunc, tget_tset_ne _ _ _ h]

@[simp] theorem ringOf_modRing (i : Nat) (g : Ring → Ring) : ringOf (modRing s i g) i = g (ringOf s i) := by simp [ringOf, modRing]

theorem ringOf_modRing_ne {i j : Nat} (g : Ring → Ring) (h : j ≠ i) : ringOf (modRing s i g) j = ringOf s j := by simp [ringOf, modRing, tget_tset_ne _ _ _ h]

@[simp] theorem ctxOf_modCtx (i : Nat) (g : Ctx → Ctx) : ctxOf (modCtx s i g) i = g (ctxOf s i) := by simp [ctxOf, modCtx]

theorem ctxOf_modCtx_ne {i j : Nat} (g : Ctx → Ctx) (h : j ≠ i) : ctxOf (modCtx s i g) j = ctxOf s j := by simp [ctxOf, modCtx, tget_tset_ne _ _ _ h]

@[simp] theorem coreOf_modCore (i : Nat) (g : Core → Core) : coreOf (modCore s i g) i = g (coreOf s i) := by simp [coreOf, modCore]

theorem coreOf_modCore_ne {i j : Nat} (g : Core → Core) (h : j ≠ i) : coreOf (modCore s i g) j = coreOf s j := by simp [coreOf, modCore, tget_tset_ne _ _ _ h]

@[simp] theorem portOf_modPort (i : Nat) (g : Port → Port) : portOf (modPort s i g) i = g (portOf s i) := by simp [portOf, modPort]

theorem portOf_modPort_ne {i j : Nat} (g : Port → Port) (h : j ≠ i) : portOf (modPort s i g) j = portOf s j := by simp [portOf, modPort, tget_tset_ne _ _ _ h]

@[simp] theorem surfOf_modSurf (i : Nat) (g : Surf → Surf) : surfOf (modSurf s i g) i = g (surfOf s i) := by simp [surfOf, modSurf]

theorem surfOf_modSurf_ne {i j : Nat} (g : Surf → Surf) (h : j ≠ i) : surfOf (modSurf s i g) j = surfOf s j := by simp [surfOf, modSurf, tget_tset_ne _ _ _ h]

@[simp] theorem sessOf_modSess (i : Nat) (g : Session → Session) : sessOf (modSess s i g) i = g (sessOf s i) := by simp [sessOf, modSess]

theorem sessOf_modSess_ne {i j : Nat} (g : Session → Session) (h : j ≠ i) : sessOf (modSess s i g) j = sessOf s j := by simp [sessOf, modSess, tget_tset_ne _ _ _ h]

@[simp] theorem panelOf_modPanel (i : Nat) (g : Panel → Panel) : panelOf (modPanel s i g) i = g (panelOf s i) := by simp [panelOf, modPanel]

theorem panelOf_modPanel_ne {i j : Nat} (g : Panel → Panel) (h : j ≠ i) : panelOf (modPanel s i g) j = panelOf s j := by simp [panelOf, modPanel, tget_tset_ne _ _ _ h]

@[simp] theorem pinOf_modPin (i : Nat) (g : Pin → Pin) : pinOf (modPin s i g) i = g (pinOf s i) := by simp [pinOf, modPin]

theorem pinOf_modPin_ne {i j : Nat} (g : Pin → Pin) (h : j ≠ i) : pinOf (modPin s i g) j = pinOf s j := by simp [pinOf, modPin, tget_tset_ne _ _ _ h]

@[simp] theorem portalOf_modPortal (i : Nat) (g : Portal → Portal) : portalOf (modPortal s i g) i = g (portalOf s i) := by simp [portalOf, modPortal]

theorem portalOf_modPortal_ne {i j : Nat} (g : Portal → Portal) (h : j ≠ i) : portalOf (modPortal s i g) j = portalOf s j := by simp [portalOf, modPortal, tget_tset_ne _ _ _ h]

/-! ## Fields -/

@[simp] theorem putV_pending (k : Nat) (v : Val) : (putV s k v).pending = s.pending := rfl
@[simp] theorem putV_now (k : Nat) (v : Val) : (putV s k v).now = s.now := rfl
@[simp] theorem putV_fresh (k : Nat) (v : Val) : (putV s k v).fresh = s.fresh := rfl
@[simp] theorem putV_mram (k : Nat) (v : Val) : (putV s k v).mram = s.mram := rfl
@[simp] theorem putV_defaultsDue (k : Nat) (v : Val) : (putV s k v).defaultsDue = s.defaultsDue := rfl
@[simp] theorem putV_votes (k : Nat) (v : Val) : (putV s k v).votes = s.votes := rfl
@[simp] theorem putV_voteSecond (k : Nat) (v : Val) : (putV s k v).voteSecond = s.voteSecond := rfl
@[simp] theorem putV_host (k : Nat) (v : Val) : (putV s k v).host = s.host := rfl
@[simp] theorem putV_funcs (k : Nat) (v : Val) : (putV s k v).funcs = s.funcs := rfl
@[simp] theorem putV_sess (k : Nat) (v : Val) : (putV s k v).sess = s.sess := rfl
@[simp] theorem putV_freeSlots (k : Nat) (v : Val) : (putV s k v).freeSlots = s.freeSlots := rfl
@[simp] theorem putV_resp (k : Nat) (v : Val) : (putV s k v).resp = s.resp := rfl
@[simp] theorem putV_twResp (k : Nat) (v : Val) : (putV s k v).twResp = s.twResp := rfl
@[simp] theorem putV_portals (k : Nat) (v : Val) : (putV s k v).portals = s.portals := rfl
@[simp] theorem putV_can (k : Nat) (v : Val) : (putV s k v).can = s.can := rfl
@[simp] theorem putV_frames (k : Nat) (v : Val) : (putV s k v).frames = s.frames := rfl
@[simp] theorem putV_frameSent (k : Nat) (v : Val) : (putV s k v).frameSent = s.frameSent := rfl
@[simp] theorem putV_served (k : Nat) (v : Val) : (putV s k v).served = s.served := rfl
@[simp] theorem putV_transit (k : Nat) (v : Val) : (putV s k v).transit = s.transit := rfl
@[simp] theorem putV_ehrica (k : Nat) (v : Val) : (putV s k v).ehrica = s.ehrica := rfl
@[simp] theorem putV_rings (k : Nat) (v : Val) : (putV s k v).rings = s.rings := rfl
@[simp] theorem putV_signals (k : Nat) (v : Val) : (putV s k v).signals = s.signals := rfl
@[simp] theorem putV_fenceGen (k : Nat) (v : Val) : (putV s k v).fenceGen = s.fenceGen := rfl
@[simp] theorem putV_ctxs (k : Nat) (v : Val) : (putV s k v).ctxs = s.ctxs := rfl
@[simp] theorem putV_cores (k : Nat) (v : Val) : (putV s k v).cores = s.cores := rfl
@[simp] theorem putV_progs (k : Nat) (v : Val) : (putV s k v).progs = s.progs := rfl
@[simp] theorem putV_ports (k : Nat) (v : Val) : (putV s k v).ports = s.ports := rfl
@[simp] theorem putV_commits (k : Nat) (v : Val) : (putV s k v).commits = s.commits := rfl
@[simp] theorem putV_surfs (k : Nat) (v : Val) : (putV s k v).surfs = s.surfs := rfl
@[simp] theorem putV_scrubs (k : Nat) (v : Val) : (putV s k v).scrubs = s.scrubs := rfl
@[simp] theorem putV_tilthLog (k : Nat) (v : Val) : (putV s k v).tilthLog = s.tilthLog := rfl
@[simp] theorem putV_balance (k : Nat) (v : Val) : (putV s k v).balance = s.balance := rfl
@[simp] theorem putV_dram (k : Nat) (v : Val) : (putV s k v).dram = s.dram := rfl
@[simp] theorem putV_mem (k : Nat) (v : Val) : (putV s k v).mem = s.mem := rfl
@[simp] theorem putV_hap (k : Nat) (v : Val) : (putV s k v).hap = s.hap := rfl
@[simp] theorem putV_panels (k : Nat) (v : Val) : (putV s k v).panels = s.panels := rfl
@[simp] theorem putV_snd (k : Nat) (v : Val) : (putV s k v).snd = s.snd := rfl
@[simp] theorem putV_fab (k : Nat) (v : Val) : (putV s k v).fab = s.fab := rfl
@[simp] theorem putV_world (k : Nat) (v : Val) : (putV s k v).world = s.world := rfl
@[simp] theorem putV_pins (k : Nat) (v : Val) : (putV s k v).pins = s.pins := rfl
@[simp] theorem putV_islTime (k : Nat) (v : Val) : (putV s k v).islTime = s.islTime := rfl
@[simp] theorem putV_rateStop (k : Nat) (v : Val) : (putV s k v).rateStop = s.rateStop := rfl
@[simp] theorem putV_migs (k : Nat) (v : Val) : (putV s k v).migs = s.migs := rfl
@[simp] theorem putV_bodies (k : Nat) (v : Val) : (putV s k v).bodies = s.bodies := rfl
@[simp] theorem putV_badStored (k : Nat) (v : Val) : (putV s k v).badStored = s.badStored := rfl
@[simp] theorem putV_power (k : Nat) (v : Val) : (putV s k v).power = s.power := rfl
@[simp] theorem putV_refuseLog (k : Nat) (v : Val) : (putV s k v).refuseLog = s.refuseLog := rfl
@[simp] theorem putV_grog (k : Nat) (v : Val) : (putV s k v).grog = s.grog := rfl
@[simp] theorem putV_engineGen (k : Nat) (v : Val) : (putV s k v).engineGen = s.engineGen := rfl
@[simp] theorem putV_kram (k : Nat) (v : Val) : (putV s k v).kram = s.kram := rfl
@[simp] theorem putV_kold (k : Nat) (v : Val) : (putV s k v).kold = s.kold := rfl

@[simp] theorem putN_pending (k n : Nat) : (putN s k n).pending = s.pending := rfl
@[simp] theorem putN_now (k n : Nat) : (putN s k n).now = s.now := rfl
@[simp] theorem putN_fresh (k n : Nat) : (putN s k n).fresh = s.fresh := rfl
@[simp] theorem putN_mram (k n : Nat) : (putN s k n).mram = s.mram := rfl
@[simp] theorem putN_defaultsDue (k n : Nat) : (putN s k n).defaultsDue = s.defaultsDue := rfl
@[simp] theorem putN_votes (k n : Nat) : (putN s k n).votes = s.votes := rfl
@[simp] theorem putN_voteSecond (k n : Nat) : (putN s k n).voteSecond = s.voteSecond := rfl
@[simp] theorem putN_host (k n : Nat) : (putN s k n).host = s.host := rfl
@[simp] theorem putN_funcs (k n : Nat) : (putN s k n).funcs = s.funcs := rfl
@[simp] theorem putN_sess (k n : Nat) : (putN s k n).sess = s.sess := rfl
@[simp] theorem putN_freeSlots (k n : Nat) : (putN s k n).freeSlots = s.freeSlots := rfl
@[simp] theorem putN_resp (k n : Nat) : (putN s k n).resp = s.resp := rfl
@[simp] theorem putN_twResp (k n : Nat) : (putN s k n).twResp = s.twResp := rfl
@[simp] theorem putN_portals (k n : Nat) : (putN s k n).portals = s.portals := rfl
@[simp] theorem putN_can (k n : Nat) : (putN s k n).can = s.can := rfl
@[simp] theorem putN_frames (k n : Nat) : (putN s k n).frames = s.frames := rfl
@[simp] theorem putN_frameSent (k n : Nat) : (putN s k n).frameSent = s.frameSent := rfl
@[simp] theorem putN_served (k n : Nat) : (putN s k n).served = s.served := rfl
@[simp] theorem putN_transit (k n : Nat) : (putN s k n).transit = s.transit := rfl
@[simp] theorem putN_ehrica (k n : Nat) : (putN s k n).ehrica = s.ehrica := rfl
@[simp] theorem putN_rings (k n : Nat) : (putN s k n).rings = s.rings := rfl
@[simp] theorem putN_signals (k n : Nat) : (putN s k n).signals = s.signals := rfl
@[simp] theorem putN_fenceGen (k n : Nat) : (putN s k n).fenceGen = s.fenceGen := rfl
@[simp] theorem putN_ctxs (k n : Nat) : (putN s k n).ctxs = s.ctxs := rfl
@[simp] theorem putN_cores (k n : Nat) : (putN s k n).cores = s.cores := rfl
@[simp] theorem putN_progs (k n : Nat) : (putN s k n).progs = s.progs := rfl
@[simp] theorem putN_ports (k n : Nat) : (putN s k n).ports = s.ports := rfl
@[simp] theorem putN_commits (k n : Nat) : (putN s k n).commits = s.commits := rfl
@[simp] theorem putN_surfs (k n : Nat) : (putN s k n).surfs = s.surfs := rfl
@[simp] theorem putN_scrubs (k n : Nat) : (putN s k n).scrubs = s.scrubs := rfl
@[simp] theorem putN_tilthLog (k n : Nat) : (putN s k n).tilthLog = s.tilthLog := rfl
@[simp] theorem putN_balance (k n : Nat) : (putN s k n).balance = s.balance := rfl
@[simp] theorem putN_dram (k n : Nat) : (putN s k n).dram = s.dram := rfl
@[simp] theorem putN_mem (k n : Nat) : (putN s k n).mem = s.mem := rfl
@[simp] theorem putN_hap (k n : Nat) : (putN s k n).hap = s.hap := rfl
@[simp] theorem putN_panels (k n : Nat) : (putN s k n).panels = s.panels := rfl
@[simp] theorem putN_snd (k n : Nat) : (putN s k n).snd = s.snd := rfl
@[simp] theorem putN_fab (k n : Nat) : (putN s k n).fab = s.fab := rfl
@[simp] theorem putN_world (k n : Nat) : (putN s k n).world = s.world := rfl
@[simp] theorem putN_pins (k n : Nat) : (putN s k n).pins = s.pins := rfl
@[simp] theorem putN_islTime (k n : Nat) : (putN s k n).islTime = s.islTime := rfl
@[simp] theorem putN_rateStop (k n : Nat) : (putN s k n).rateStop = s.rateStop := rfl
@[simp] theorem putN_migs (k n : Nat) : (putN s k n).migs = s.migs := rfl
@[simp] theorem putN_bodies (k n : Nat) : (putN s k n).bodies = s.bodies := rfl
@[simp] theorem putN_badStored (k n : Nat) : (putN s k n).badStored = s.badStored := rfl
@[simp] theorem putN_power (k n : Nat) : (putN s k n).power = s.power := rfl
@[simp] theorem putN_refuseLog (k n : Nat) : (putN s k n).refuseLog = s.refuseLog := rfl
@[simp] theorem putN_grog (k n : Nat) : (putN s k n).grog = s.grog := rfl
@[simp] theorem putN_engineGen (k n : Nat) : (putN s k n).engineGen = s.engineGen := rfl
@[simp] theorem putN_kram (k n : Nat) : (putN s k n).kram = s.kram := rfl
@[simp] theorem putN_kold (k n : Nat) : (putN s k n).kold = s.kold := rfl

@[simp] theorem putB_pending (k : Nat) (b : Bool) : (putB s k b).pending = s.pending := rfl
@[simp] theorem putB_now (k : Nat) (b : Bool) : (putB s k b).now = s.now := rfl
@[simp] theorem putB_fresh (k : Nat) (b : Bool) : (putB s k b).fresh = s.fresh := rfl
@[simp] theorem putB_mram (k : Nat) (b : Bool) : (putB s k b).mram = s.mram := rfl
@[simp] theorem putB_defaultsDue (k : Nat) (b : Bool) : (putB s k b).defaultsDue = s.defaultsDue := rfl
@[simp] theorem putB_votes (k : Nat) (b : Bool) : (putB s k b).votes = s.votes := rfl
@[simp] theorem putB_voteSecond (k : Nat) (b : Bool) : (putB s k b).voteSecond = s.voteSecond := rfl
@[simp] theorem putB_host (k : Nat) (b : Bool) : (putB s k b).host = s.host := rfl
@[simp] theorem putB_funcs (k : Nat) (b : Bool) : (putB s k b).funcs = s.funcs := rfl
@[simp] theorem putB_sess (k : Nat) (b : Bool) : (putB s k b).sess = s.sess := rfl
@[simp] theorem putB_freeSlots (k : Nat) (b : Bool) : (putB s k b).freeSlots = s.freeSlots := rfl
@[simp] theorem putB_resp (k : Nat) (b : Bool) : (putB s k b).resp = s.resp := rfl
@[simp] theorem putB_twResp (k : Nat) (b : Bool) : (putB s k b).twResp = s.twResp := rfl
@[simp] theorem putB_portals (k : Nat) (b : Bool) : (putB s k b).portals = s.portals := rfl
@[simp] theorem putB_can (k : Nat) (b : Bool) : (putB s k b).can = s.can := rfl
@[simp] theorem putB_frames (k : Nat) (b : Bool) : (putB s k b).frames = s.frames := rfl
@[simp] theorem putB_frameSent (k : Nat) (b : Bool) : (putB s k b).frameSent = s.frameSent := rfl
@[simp] theorem putB_served (k : Nat) (b : Bool) : (putB s k b).served = s.served := rfl
@[simp] theorem putB_transit (k : Nat) (b : Bool) : (putB s k b).transit = s.transit := rfl
@[simp] theorem putB_ehrica (k : Nat) (b : Bool) : (putB s k b).ehrica = s.ehrica := rfl
@[simp] theorem putB_rings (k : Nat) (b : Bool) : (putB s k b).rings = s.rings := rfl
@[simp] theorem putB_signals (k : Nat) (b : Bool) : (putB s k b).signals = s.signals := rfl
@[simp] theorem putB_fenceGen (k : Nat) (b : Bool) : (putB s k b).fenceGen = s.fenceGen := rfl
@[simp] theorem putB_ctxs (k : Nat) (b : Bool) : (putB s k b).ctxs = s.ctxs := rfl
@[simp] theorem putB_cores (k : Nat) (b : Bool) : (putB s k b).cores = s.cores := rfl
@[simp] theorem putB_progs (k : Nat) (b : Bool) : (putB s k b).progs = s.progs := rfl
@[simp] theorem putB_ports (k : Nat) (b : Bool) : (putB s k b).ports = s.ports := rfl
@[simp] theorem putB_commits (k : Nat) (b : Bool) : (putB s k b).commits = s.commits := rfl
@[simp] theorem putB_surfs (k : Nat) (b : Bool) : (putB s k b).surfs = s.surfs := rfl
@[simp] theorem putB_scrubs (k : Nat) (b : Bool) : (putB s k b).scrubs = s.scrubs := rfl
@[simp] theorem putB_tilthLog (k : Nat) (b : Bool) : (putB s k b).tilthLog = s.tilthLog := rfl
@[simp] theorem putB_balance (k : Nat) (b : Bool) : (putB s k b).balance = s.balance := rfl
@[simp] theorem putB_dram (k : Nat) (b : Bool) : (putB s k b).dram = s.dram := rfl
@[simp] theorem putB_mem (k : Nat) (b : Bool) : (putB s k b).mem = s.mem := rfl
@[simp] theorem putB_hap (k : Nat) (b : Bool) : (putB s k b).hap = s.hap := rfl
@[simp] theorem putB_panels (k : Nat) (b : Bool) : (putB s k b).panels = s.panels := rfl
@[simp] theorem putB_snd (k : Nat) (b : Bool) : (putB s k b).snd = s.snd := rfl
@[simp] theorem putB_fab (k : Nat) (b : Bool) : (putB s k b).fab = s.fab := rfl
@[simp] theorem putB_world (k : Nat) (b : Bool) : (putB s k b).world = s.world := rfl
@[simp] theorem putB_pins (k : Nat) (b : Bool) : (putB s k b).pins = s.pins := rfl
@[simp] theorem putB_islTime (k : Nat) (b : Bool) : (putB s k b).islTime = s.islTime := rfl
@[simp] theorem putB_rateStop (k : Nat) (b : Bool) : (putB s k b).rateStop = s.rateStop := rfl
@[simp] theorem putB_migs (k : Nat) (b : Bool) : (putB s k b).migs = s.migs := rfl
@[simp] theorem putB_bodies (k : Nat) (b : Bool) : (putB s k b).bodies = s.bodies := rfl
@[simp] theorem putB_badStored (k : Nat) (b : Bool) : (putB s k b).badStored = s.badStored := rfl
@[simp] theorem putB_power (k : Nat) (b : Bool) : (putB s k b).power = s.power := rfl
@[simp] theorem putB_refuseLog (k : Nat) (b : Bool) : (putB s k b).refuseLog = s.refuseLog := rfl
@[simp] theorem putB_grog (k : Nat) (b : Bool) : (putB s k b).grog = s.grog := rfl
@[simp] theorem putB_engineGen (k : Nat) (b : Bool) : (putB s k b).engineGen = s.engineGen := rfl
@[simp] theorem putB_kram (k : Nat) (b : Bool) : (putB s k b).kram = s.kram := rfl
@[simp] theorem putB_kold (k : Nat) (b : Bool) : (putB s k b).kold = s.kold := rfl

@[simp] theorem bump_pending (k : Nat) : (bump s k).pending = s.pending := rfl
@[simp] theorem bump_now (k : Nat) : (bump s k).now = s.now := rfl
@[simp] theorem bump_fresh (k : Nat) : (bump s k).fresh = s.fresh := rfl
@[simp] theorem bump_mram (k : Nat) : (bump s k).mram = s.mram := rfl
@[simp] theorem bump_defaultsDue (k : Nat) : (bump s k).defaultsDue = s.defaultsDue := rfl
@[simp] theorem bump_votes (k : Nat) : (bump s k).votes = s.votes := rfl
@[simp] theorem bump_voteSecond (k : Nat) : (bump s k).voteSecond = s.voteSecond := rfl
@[simp] theorem bump_host (k : Nat) : (bump s k).host = s.host := rfl
@[simp] theorem bump_funcs (k : Nat) : (bump s k).funcs = s.funcs := rfl
@[simp] theorem bump_sess (k : Nat) : (bump s k).sess = s.sess := rfl
@[simp] theorem bump_freeSlots (k : Nat) : (bump s k).freeSlots = s.freeSlots := rfl
@[simp] theorem bump_resp (k : Nat) : (bump s k).resp = s.resp := rfl
@[simp] theorem bump_twResp (k : Nat) : (bump s k).twResp = s.twResp := rfl
@[simp] theorem bump_portals (k : Nat) : (bump s k).portals = s.portals := rfl
@[simp] theorem bump_can (k : Nat) : (bump s k).can = s.can := rfl
@[simp] theorem bump_frames (k : Nat) : (bump s k).frames = s.frames := rfl
@[simp] theorem bump_frameSent (k : Nat) : (bump s k).frameSent = s.frameSent := rfl
@[simp] theorem bump_served (k : Nat) : (bump s k).served = s.served := rfl
@[simp] theorem bump_transit (k : Nat) : (bump s k).transit = s.transit := rfl
@[simp] theorem bump_ehrica (k : Nat) : (bump s k).ehrica = s.ehrica := rfl
@[simp] theorem bump_rings (k : Nat) : (bump s k).rings = s.rings := rfl
@[simp] theorem bump_signals (k : Nat) : (bump s k).signals = s.signals := rfl
@[simp] theorem bump_fenceGen (k : Nat) : (bump s k).fenceGen = s.fenceGen := rfl
@[simp] theorem bump_ctxs (k : Nat) : (bump s k).ctxs = s.ctxs := rfl
@[simp] theorem bump_cores (k : Nat) : (bump s k).cores = s.cores := rfl
@[simp] theorem bump_progs (k : Nat) : (bump s k).progs = s.progs := rfl
@[simp] theorem bump_ports (k : Nat) : (bump s k).ports = s.ports := rfl
@[simp] theorem bump_commits (k : Nat) : (bump s k).commits = s.commits := rfl
@[simp] theorem bump_surfs (k : Nat) : (bump s k).surfs = s.surfs := rfl
@[simp] theorem bump_scrubs (k : Nat) : (bump s k).scrubs = s.scrubs := rfl
@[simp] theorem bump_tilthLog (k : Nat) : (bump s k).tilthLog = s.tilthLog := rfl
@[simp] theorem bump_balance (k : Nat) : (bump s k).balance = s.balance := rfl
@[simp] theorem bump_dram (k : Nat) : (bump s k).dram = s.dram := rfl
@[simp] theorem bump_mem (k : Nat) : (bump s k).mem = s.mem := rfl
@[simp] theorem bump_hap (k : Nat) : (bump s k).hap = s.hap := rfl
@[simp] theorem bump_panels (k : Nat) : (bump s k).panels = s.panels := rfl
@[simp] theorem bump_snd (k : Nat) : (bump s k).snd = s.snd := rfl
@[simp] theorem bump_fab (k : Nat) : (bump s k).fab = s.fab := rfl
@[simp] theorem bump_world (k : Nat) : (bump s k).world = s.world := rfl
@[simp] theorem bump_pins (k : Nat) : (bump s k).pins = s.pins := rfl
@[simp] theorem bump_islTime (k : Nat) : (bump s k).islTime = s.islTime := rfl
@[simp] theorem bump_rateStop (k : Nat) : (bump s k).rateStop = s.rateStop := rfl
@[simp] theorem bump_migs (k : Nat) : (bump s k).migs = s.migs := rfl
@[simp] theorem bump_bodies (k : Nat) : (bump s k).bodies = s.bodies := rfl
@[simp] theorem bump_badStored (k : Nat) : (bump s k).badStored = s.badStored := rfl
@[simp] theorem bump_power (k : Nat) : (bump s k).power = s.power := rfl
@[simp] theorem bump_refuseLog (k : Nat) : (bump s k).refuseLog = s.refuseLog := rfl
@[simp] theorem bump_grog (k : Nat) : (bump s k).grog = s.grog := rfl
@[simp] theorem bump_engineGen (k : Nat) : (bump s k).engineGen = s.engineGen := rfl
@[simp] theorem bump_kram (k : Nat) : (bump s k).kram = s.kram := rfl
@[simp] theorem bump_kold (k : Nat) : (bump s k).kold = s.kold := rfl

@[simp] theorem bumpBy_pending (k n : Nat) : (bumpBy s k n).pending = s.pending := rfl
@[simp] theorem bumpBy_now (k n : Nat) : (bumpBy s k n).now = s.now := rfl
@[simp] theorem bumpBy_fresh (k n : Nat) : (bumpBy s k n).fresh = s.fresh := rfl
@[simp] theorem bumpBy_mram (k n : Nat) : (bumpBy s k n).mram = s.mram := rfl
@[simp] theorem bumpBy_defaultsDue (k n : Nat) : (bumpBy s k n).defaultsDue = s.defaultsDue := rfl
@[simp] theorem bumpBy_votes (k n : Nat) : (bumpBy s k n).votes = s.votes := rfl
@[simp] theorem bumpBy_voteSecond (k n : Nat) : (bumpBy s k n).voteSecond = s.voteSecond := rfl
@[simp] theorem bumpBy_host (k n : Nat) : (bumpBy s k n).host = s.host := rfl
@[simp] theorem bumpBy_funcs (k n : Nat) : (bumpBy s k n).funcs = s.funcs := rfl
@[simp] theorem bumpBy_sess (k n : Nat) : (bumpBy s k n).sess = s.sess := rfl
@[simp] theorem bumpBy_freeSlots (k n : Nat) : (bumpBy s k n).freeSlots = s.freeSlots := rfl
@[simp] theorem bumpBy_resp (k n : Nat) : (bumpBy s k n).resp = s.resp := rfl
@[simp] theorem bumpBy_twResp (k n : Nat) : (bumpBy s k n).twResp = s.twResp := rfl
@[simp] theorem bumpBy_portals (k n : Nat) : (bumpBy s k n).portals = s.portals := rfl
@[simp] theorem bumpBy_can (k n : Nat) : (bumpBy s k n).can = s.can := rfl
@[simp] theorem bumpBy_frames (k n : Nat) : (bumpBy s k n).frames = s.frames := rfl
@[simp] theorem bumpBy_frameSent (k n : Nat) : (bumpBy s k n).frameSent = s.frameSent := rfl
@[simp] theorem bumpBy_served (k n : Nat) : (bumpBy s k n).served = s.served := rfl
@[simp] theorem bumpBy_transit (k n : Nat) : (bumpBy s k n).transit = s.transit := rfl
@[simp] theorem bumpBy_ehrica (k n : Nat) : (bumpBy s k n).ehrica = s.ehrica := rfl
@[simp] theorem bumpBy_rings (k n : Nat) : (bumpBy s k n).rings = s.rings := rfl
@[simp] theorem bumpBy_signals (k n : Nat) : (bumpBy s k n).signals = s.signals := rfl
@[simp] theorem bumpBy_fenceGen (k n : Nat) : (bumpBy s k n).fenceGen = s.fenceGen := rfl
@[simp] theorem bumpBy_ctxs (k n : Nat) : (bumpBy s k n).ctxs = s.ctxs := rfl
@[simp] theorem bumpBy_cores (k n : Nat) : (bumpBy s k n).cores = s.cores := rfl
@[simp] theorem bumpBy_progs (k n : Nat) : (bumpBy s k n).progs = s.progs := rfl
@[simp] theorem bumpBy_ports (k n : Nat) : (bumpBy s k n).ports = s.ports := rfl
@[simp] theorem bumpBy_commits (k n : Nat) : (bumpBy s k n).commits = s.commits := rfl
@[simp] theorem bumpBy_surfs (k n : Nat) : (bumpBy s k n).surfs = s.surfs := rfl
@[simp] theorem bumpBy_scrubs (k n : Nat) : (bumpBy s k n).scrubs = s.scrubs := rfl
@[simp] theorem bumpBy_tilthLog (k n : Nat) : (bumpBy s k n).tilthLog = s.tilthLog := rfl
@[simp] theorem bumpBy_balance (k n : Nat) : (bumpBy s k n).balance = s.balance := rfl
@[simp] theorem bumpBy_dram (k n : Nat) : (bumpBy s k n).dram = s.dram := rfl
@[simp] theorem bumpBy_mem (k n : Nat) : (bumpBy s k n).mem = s.mem := rfl
@[simp] theorem bumpBy_hap (k n : Nat) : (bumpBy s k n).hap = s.hap := rfl
@[simp] theorem bumpBy_panels (k n : Nat) : (bumpBy s k n).panels = s.panels := rfl
@[simp] theorem bumpBy_snd (k n : Nat) : (bumpBy s k n).snd = s.snd := rfl
@[simp] theorem bumpBy_fab (k n : Nat) : (bumpBy s k n).fab = s.fab := rfl
@[simp] theorem bumpBy_world (k n : Nat) : (bumpBy s k n).world = s.world := rfl
@[simp] theorem bumpBy_pins (k n : Nat) : (bumpBy s k n).pins = s.pins := rfl
@[simp] theorem bumpBy_islTime (k n : Nat) : (bumpBy s k n).islTime = s.islTime := rfl
@[simp] theorem bumpBy_rateStop (k n : Nat) : (bumpBy s k n).rateStop = s.rateStop := rfl
@[simp] theorem bumpBy_migs (k n : Nat) : (bumpBy s k n).migs = s.migs := rfl
@[simp] theorem bumpBy_bodies (k n : Nat) : (bumpBy s k n).bodies = s.bodies := rfl
@[simp] theorem bumpBy_badStored (k n : Nat) : (bumpBy s k n).badStored = s.badStored := rfl
@[simp] theorem bumpBy_power (k n : Nat) : (bumpBy s k n).power = s.power := rfl
@[simp] theorem bumpBy_refuseLog (k n : Nat) : (bumpBy s k n).refuseLog = s.refuseLog := rfl
@[simp] theorem bumpBy_grog (k n : Nat) : (bumpBy s k n).grog = s.grog := rfl
@[simp] theorem bumpBy_engineGen (k n : Nat) : (bumpBy s k n).engineGen = s.engineGen := rfl
@[simp] theorem bumpBy_kram (k n : Nat) : (bumpBy s k n).kram = s.kram := rfl
@[simp] theorem bumpBy_kold (k n : Nat) : (bumpBy s k n).kold = s.kold := rfl

@[simp] theorem draw_pending : (draw s).pending = s.pending := rfl
@[simp] theorem draw_now : (draw s).now = s.now := rfl
@[simp] theorem draw_objs : (draw s).objs = s.objs := rfl
@[simp] theorem draw_mram : (draw s).mram = s.mram := rfl
@[simp] theorem draw_defaultsDue : (draw s).defaultsDue = s.defaultsDue := rfl
@[simp] theorem draw_votes : (draw s).votes = s.votes := rfl
@[simp] theorem draw_voteSecond : (draw s).voteSecond = s.voteSecond := rfl
@[simp] theorem draw_host : (draw s).host = s.host := rfl
@[simp] theorem draw_funcs : (draw s).funcs = s.funcs := rfl
@[simp] theorem draw_sess : (draw s).sess = s.sess := rfl
@[simp] theorem draw_freeSlots : (draw s).freeSlots = s.freeSlots := rfl
@[simp] theorem draw_resp : (draw s).resp = s.resp := rfl
@[simp] theorem draw_twResp : (draw s).twResp = s.twResp := rfl
@[simp] theorem draw_portals : (draw s).portals = s.portals := rfl
@[simp] theorem draw_can : (draw s).can = s.can := rfl
@[simp] theorem draw_frames : (draw s).frames = s.frames := rfl
@[simp] theorem draw_frameSent : (draw s).frameSent = s.frameSent := rfl
@[simp] theorem draw_served : (draw s).served = s.served := rfl
@[simp] theorem draw_transit : (draw s).transit = s.transit := rfl
@[simp] theorem draw_ehrica : (draw s).ehrica = s.ehrica := rfl
@[simp] theorem draw_rings : (draw s).rings = s.rings := rfl
@[simp] theorem draw_signals : (draw s).signals = s.signals := rfl
@[simp] theorem draw_fenceGen : (draw s).fenceGen = s.fenceGen := rfl
@[simp] theorem draw_ctxs : (draw s).ctxs = s.ctxs := rfl
@[simp] theorem draw_cores : (draw s).cores = s.cores := rfl
@[simp] theorem draw_progs : (draw s).progs = s.progs := rfl
@[simp] theorem draw_ports : (draw s).ports = s.ports := rfl
@[simp] theorem draw_commits : (draw s).commits = s.commits := rfl
@[simp] theorem draw_surfs : (draw s).surfs = s.surfs := rfl
@[simp] theorem draw_scrubs : (draw s).scrubs = s.scrubs := rfl
@[simp] theorem draw_tilthLog : (draw s).tilthLog = s.tilthLog := rfl
@[simp] theorem draw_balance : (draw s).balance = s.balance := rfl
@[simp] theorem draw_dram : (draw s).dram = s.dram := rfl
@[simp] theorem draw_mem : (draw s).mem = s.mem := rfl
@[simp] theorem draw_hap : (draw s).hap = s.hap := rfl
@[simp] theorem draw_panels : (draw s).panels = s.panels := rfl
@[simp] theorem draw_snd : (draw s).snd = s.snd := rfl
@[simp] theorem draw_fab : (draw s).fab = s.fab := rfl
@[simp] theorem draw_world : (draw s).world = s.world := rfl
@[simp] theorem draw_pins : (draw s).pins = s.pins := rfl
@[simp] theorem draw_islTime : (draw s).islTime = s.islTime := rfl
@[simp] theorem draw_rateStop : (draw s).rateStop = s.rateStop := rfl
@[simp] theorem draw_migs : (draw s).migs = s.migs := rfl
@[simp] theorem draw_bodies : (draw s).bodies = s.bodies := rfl
@[simp] theorem draw_badStored : (draw s).badStored = s.badStored := rfl
@[simp] theorem draw_power : (draw s).power = s.power := rfl
@[simp] theorem draw_refuseLog : (draw s).refuseLog = s.refuseLog := rfl
@[simp] theorem draw_grog : (draw s).grog = s.grog := rfl
@[simp] theorem draw_engineGen : (draw s).engineGen = s.engineGen := rfl
@[simp] theorem draw_kram : (draw s).kram = s.kram := rfl
@[simp] theorem draw_kold : (draw s).kold = s.kold := rfl

@[simp] theorem dropTransit_pending (k : Nat) : (dropTransit s k).pending = s.pending := rfl
@[simp] theorem dropTransit_now (k : Nat) : (dropTransit s k).now = s.now := rfl
@[simp] theorem dropTransit_fresh (k : Nat) : (dropTransit s k).fresh = s.fresh := rfl
@[simp] theorem dropTransit_objs (k : Nat) : (dropTransit s k).objs = s.objs := rfl
@[simp] theorem dropTransit_mram (k : Nat) : (dropTransit s k).mram = s.mram := rfl
@[simp] theorem dropTransit_defaultsDue (k : Nat) : (dropTransit s k).defaultsDue = s.defaultsDue := rfl
@[simp] theorem dropTransit_votes (k : Nat) : (dropTransit s k).votes = s.votes := rfl
@[simp] theorem dropTransit_voteSecond (k : Nat) : (dropTransit s k).voteSecond = s.voteSecond := rfl
@[simp] theorem dropTransit_host (k : Nat) : (dropTransit s k).host = s.host := rfl
@[simp] theorem dropTransit_funcs (k : Nat) : (dropTransit s k).funcs = s.funcs := rfl
@[simp] theorem dropTransit_sess (k : Nat) : (dropTransit s k).sess = s.sess := rfl
@[simp] theorem dropTransit_freeSlots (k : Nat) : (dropTransit s k).freeSlots = s.freeSlots := rfl
@[simp] theorem dropTransit_resp (k : Nat) : (dropTransit s k).resp = s.resp := rfl
@[simp] theorem dropTransit_twResp (k : Nat) : (dropTransit s k).twResp = s.twResp := rfl
@[simp] theorem dropTransit_portals (k : Nat) : (dropTransit s k).portals = s.portals := rfl
@[simp] theorem dropTransit_can (k : Nat) : (dropTransit s k).can = s.can := rfl
@[simp] theorem dropTransit_frames (k : Nat) : (dropTransit s k).frames = s.frames := rfl
@[simp] theorem dropTransit_frameSent (k : Nat) : (dropTransit s k).frameSent = s.frameSent := rfl
@[simp] theorem dropTransit_served (k : Nat) : (dropTransit s k).served = s.served := rfl
@[simp] theorem dropTransit_ehrica (k : Nat) : (dropTransit s k).ehrica = s.ehrica := rfl
@[simp] theorem dropTransit_rings (k : Nat) : (dropTransit s k).rings = s.rings := rfl
@[simp] theorem dropTransit_signals (k : Nat) : (dropTransit s k).signals = s.signals := rfl
@[simp] theorem dropTransit_fenceGen (k : Nat) : (dropTransit s k).fenceGen = s.fenceGen := rfl
@[simp] theorem dropTransit_ctxs (k : Nat) : (dropTransit s k).ctxs = s.ctxs := rfl
@[simp] theorem dropTransit_cores (k : Nat) : (dropTransit s k).cores = s.cores := rfl
@[simp] theorem dropTransit_progs (k : Nat) : (dropTransit s k).progs = s.progs := rfl
@[simp] theorem dropTransit_ports (k : Nat) : (dropTransit s k).ports = s.ports := rfl
@[simp] theorem dropTransit_commits (k : Nat) : (dropTransit s k).commits = s.commits := rfl
@[simp] theorem dropTransit_surfs (k : Nat) : (dropTransit s k).surfs = s.surfs := rfl
@[simp] theorem dropTransit_scrubs (k : Nat) : (dropTransit s k).scrubs = s.scrubs := rfl
@[simp] theorem dropTransit_tilthLog (k : Nat) : (dropTransit s k).tilthLog = s.tilthLog := rfl
@[simp] theorem dropTransit_balance (k : Nat) : (dropTransit s k).balance = s.balance := rfl
@[simp] theorem dropTransit_dram (k : Nat) : (dropTransit s k).dram = s.dram := rfl
@[simp] theorem dropTransit_mem (k : Nat) : (dropTransit s k).mem = s.mem := rfl
@[simp] theorem dropTransit_hap (k : Nat) : (dropTransit s k).hap = s.hap := rfl
@[simp] theorem dropTransit_panels (k : Nat) : (dropTransit s k).panels = s.panels := rfl
@[simp] theorem dropTransit_snd (k : Nat) : (dropTransit s k).snd = s.snd := rfl
@[simp] theorem dropTransit_fab (k : Nat) : (dropTransit s k).fab = s.fab := rfl
@[simp] theorem dropTransit_world (k : Nat) : (dropTransit s k).world = s.world := rfl
@[simp] theorem dropTransit_pins (k : Nat) : (dropTransit s k).pins = s.pins := rfl
@[simp] theorem dropTransit_islTime (k : Nat) : (dropTransit s k).islTime = s.islTime := rfl
@[simp] theorem dropTransit_rateStop (k : Nat) : (dropTransit s k).rateStop = s.rateStop := rfl
@[simp] theorem dropTransit_migs (k : Nat) : (dropTransit s k).migs = s.migs := rfl
@[simp] theorem dropTransit_bodies (k : Nat) : (dropTransit s k).bodies = s.bodies := rfl
@[simp] theorem dropTransit_badStored (k : Nat) : (dropTransit s k).badStored = s.badStored := rfl
@[simp] theorem dropTransit_power (k : Nat) : (dropTransit s k).power = s.power := rfl
@[simp] theorem dropTransit_refuseLog (k : Nat) : (dropTransit s k).refuseLog = s.refuseLog := rfl
@[simp] theorem dropTransit_grog (k : Nat) : (dropTransit s k).grog = s.grog := rfl
@[simp] theorem dropTransit_engineGen (k : Nat) : (dropTransit s k).engineGen = s.engineGen := rfl
@[simp] theorem dropTransit_kram (k : Nat) : (dropTransit s k).kram = s.kram := rfl
@[simp] theorem dropTransit_kold (k : Nat) : (dropTransit s k).kold = s.kold := rfl

@[simp] theorem addTransit_pending (k : Nat) : (addTransit s k).pending = s.pending := rfl
@[simp] theorem addTransit_now (k : Nat) : (addTransit s k).now = s.now := rfl
@[simp] theorem addTransit_fresh (k : Nat) : (addTransit s k).fresh = s.fresh := rfl
@[simp] theorem addTransit_objs (k : Nat) : (addTransit s k).objs = s.objs := rfl
@[simp] theorem addTransit_mram (k : Nat) : (addTransit s k).mram = s.mram := rfl
@[simp] theorem addTransit_defaultsDue (k : Nat) : (addTransit s k).defaultsDue = s.defaultsDue := rfl
@[simp] theorem addTransit_votes (k : Nat) : (addTransit s k).votes = s.votes := rfl
@[simp] theorem addTransit_voteSecond (k : Nat) : (addTransit s k).voteSecond = s.voteSecond := rfl
@[simp] theorem addTransit_host (k : Nat) : (addTransit s k).host = s.host := rfl
@[simp] theorem addTransit_funcs (k : Nat) : (addTransit s k).funcs = s.funcs := rfl
@[simp] theorem addTransit_sess (k : Nat) : (addTransit s k).sess = s.sess := rfl
@[simp] theorem addTransit_freeSlots (k : Nat) : (addTransit s k).freeSlots = s.freeSlots := rfl
@[simp] theorem addTransit_resp (k : Nat) : (addTransit s k).resp = s.resp := rfl
@[simp] theorem addTransit_twResp (k : Nat) : (addTransit s k).twResp = s.twResp := rfl
@[simp] theorem addTransit_portals (k : Nat) : (addTransit s k).portals = s.portals := rfl
@[simp] theorem addTransit_can (k : Nat) : (addTransit s k).can = s.can := rfl
@[simp] theorem addTransit_frames (k : Nat) : (addTransit s k).frames = s.frames := rfl
@[simp] theorem addTransit_frameSent (k : Nat) : (addTransit s k).frameSent = s.frameSent := rfl
@[simp] theorem addTransit_served (k : Nat) : (addTransit s k).served = s.served := rfl
@[simp] theorem addTransit_ehrica (k : Nat) : (addTransit s k).ehrica = s.ehrica := rfl
@[simp] theorem addTransit_rings (k : Nat) : (addTransit s k).rings = s.rings := rfl
@[simp] theorem addTransit_signals (k : Nat) : (addTransit s k).signals = s.signals := rfl
@[simp] theorem addTransit_fenceGen (k : Nat) : (addTransit s k).fenceGen = s.fenceGen := rfl
@[simp] theorem addTransit_ctxs (k : Nat) : (addTransit s k).ctxs = s.ctxs := rfl
@[simp] theorem addTransit_cores (k : Nat) : (addTransit s k).cores = s.cores := rfl
@[simp] theorem addTransit_progs (k : Nat) : (addTransit s k).progs = s.progs := rfl
@[simp] theorem addTransit_ports (k : Nat) : (addTransit s k).ports = s.ports := rfl
@[simp] theorem addTransit_commits (k : Nat) : (addTransit s k).commits = s.commits := rfl
@[simp] theorem addTransit_surfs (k : Nat) : (addTransit s k).surfs = s.surfs := rfl
@[simp] theorem addTransit_scrubs (k : Nat) : (addTransit s k).scrubs = s.scrubs := rfl
@[simp] theorem addTransit_tilthLog (k : Nat) : (addTransit s k).tilthLog = s.tilthLog := rfl
@[simp] theorem addTransit_balance (k : Nat) : (addTransit s k).balance = s.balance := rfl
@[simp] theorem addTransit_dram (k : Nat) : (addTransit s k).dram = s.dram := rfl
@[simp] theorem addTransit_mem (k : Nat) : (addTransit s k).mem = s.mem := rfl
@[simp] theorem addTransit_hap (k : Nat) : (addTransit s k).hap = s.hap := rfl
@[simp] theorem addTransit_panels (k : Nat) : (addTransit s k).panels = s.panels := rfl
@[simp] theorem addTransit_snd (k : Nat) : (addTransit s k).snd = s.snd := rfl
@[simp] theorem addTransit_fab (k : Nat) : (addTransit s k).fab = s.fab := rfl
@[simp] theorem addTransit_world (k : Nat) : (addTransit s k).world = s.world := rfl
@[simp] theorem addTransit_pins (k : Nat) : (addTransit s k).pins = s.pins := rfl
@[simp] theorem addTransit_islTime (k : Nat) : (addTransit s k).islTime = s.islTime := rfl
@[simp] theorem addTransit_rateStop (k : Nat) : (addTransit s k).rateStop = s.rateStop := rfl
@[simp] theorem addTransit_migs (k : Nat) : (addTransit s k).migs = s.migs := rfl
@[simp] theorem addTransit_bodies (k : Nat) : (addTransit s k).bodies = s.bodies := rfl
@[simp] theorem addTransit_badStored (k : Nat) : (addTransit s k).badStored = s.badStored := rfl
@[simp] theorem addTransit_power (k : Nat) : (addTransit s k).power = s.power := rfl
@[simp] theorem addTransit_refuseLog (k : Nat) : (addTransit s k).refuseLog = s.refuseLog := rfl
@[simp] theorem addTransit_grog (k : Nat) : (addTransit s k).grog = s.grog := rfl
@[simp] theorem addTransit_engineGen (k : Nat) : (addTransit s k).engineGen = s.engineGen := rfl
@[simp] theorem addTransit_kram (k : Nat) : (addTransit s k).kram = s.kram := rfl
@[simp] theorem addTransit_kold (k : Nat) : (addTransit s k).kold = s.kold := rfl

@[simp] theorem interruptTw_pending (c : Nat) : (interruptTw s c).pending = s.pending := rfl
@[simp] theorem interruptTw_now (c : Nat) : (interruptTw s c).now = s.now := rfl
@[simp] theorem interruptTw_fresh (c : Nat) : (interruptTw s c).fresh = s.fresh := rfl
@[simp] theorem interruptTw_objs (c : Nat) : (interruptTw s c).objs = s.objs := rfl
@[simp] theorem interruptTw_mram (c : Nat) : (interruptTw s c).mram = s.mram := rfl
@[simp] theorem interruptTw_defaultsDue (c : Nat) : (interruptTw s c).defaultsDue = s.defaultsDue := rfl
@[simp] theorem interruptTw_votes (c : Nat) : (interruptTw s c).votes = s.votes := rfl
@[simp] theorem interruptTw_voteSecond (c : Nat) : (interruptTw s c).voteSecond = s.voteSecond := rfl
@[simp] theorem interruptTw_host (c : Nat) : (interruptTw s c).host = s.host := rfl
@[simp] theorem interruptTw_funcs (c : Nat) : (interruptTw s c).funcs = s.funcs := rfl
@[simp] theorem interruptTw_sess (c : Nat) : (interruptTw s c).sess = s.sess := rfl
@[simp] theorem interruptTw_freeSlots (c : Nat) : (interruptTw s c).freeSlots = s.freeSlots := rfl
@[simp] theorem interruptTw_resp (c : Nat) : (interruptTw s c).resp = s.resp := rfl
@[simp] theorem interruptTw_twResp (c : Nat) : (interruptTw s c).twResp = s.twResp := rfl
@[simp] theorem interruptTw_portals (c : Nat) : (interruptTw s c).portals = s.portals := rfl
@[simp] theorem interruptTw_can (c : Nat) : (interruptTw s c).can = s.can := rfl
@[simp] theorem interruptTw_frames (c : Nat) : (interruptTw s c).frames = s.frames := rfl
@[simp] theorem interruptTw_frameSent (c : Nat) : (interruptTw s c).frameSent = s.frameSent := rfl
@[simp] theorem interruptTw_served (c : Nat) : (interruptTw s c).served = s.served := rfl
@[simp] theorem interruptTw_transit (c : Nat) : (interruptTw s c).transit = s.transit := rfl
@[simp] theorem interruptTw_rings (c : Nat) : (interruptTw s c).rings = s.rings := rfl
@[simp] theorem interruptTw_signals (c : Nat) : (interruptTw s c).signals = s.signals := rfl
@[simp] theorem interruptTw_fenceGen (c : Nat) : (interruptTw s c).fenceGen = s.fenceGen := rfl
@[simp] theorem interruptTw_ctxs (c : Nat) : (interruptTw s c).ctxs = s.ctxs := rfl
@[simp] theorem interruptTw_cores (c : Nat) : (interruptTw s c).cores = s.cores := rfl
@[simp] theorem interruptTw_progs (c : Nat) : (interruptTw s c).progs = s.progs := rfl
@[simp] theorem interruptTw_ports (c : Nat) : (interruptTw s c).ports = s.ports := rfl
@[simp] theorem interruptTw_commits (c : Nat) : (interruptTw s c).commits = s.commits := rfl
@[simp] theorem interruptTw_surfs (c : Nat) : (interruptTw s c).surfs = s.surfs := rfl
@[simp] theorem interruptTw_scrubs (c : Nat) : (interruptTw s c).scrubs = s.scrubs := rfl
@[simp] theorem interruptTw_tilthLog (c : Nat) : (interruptTw s c).tilthLog = s.tilthLog := rfl
@[simp] theorem interruptTw_balance (c : Nat) : (interruptTw s c).balance = s.balance := rfl
@[simp] theorem interruptTw_dram (c : Nat) : (interruptTw s c).dram = s.dram := rfl
@[simp] theorem interruptTw_mem (c : Nat) : (interruptTw s c).mem = s.mem := rfl
@[simp] theorem interruptTw_hap (c : Nat) : (interruptTw s c).hap = s.hap := rfl
@[simp] theorem interruptTw_panels (c : Nat) : (interruptTw s c).panels = s.panels := rfl
@[simp] theorem interruptTw_snd (c : Nat) : (interruptTw s c).snd = s.snd := rfl
@[simp] theorem interruptTw_fab (c : Nat) : (interruptTw s c).fab = s.fab := rfl
@[simp] theorem interruptTw_world (c : Nat) : (interruptTw s c).world = s.world := rfl
@[simp] theorem interruptTw_pins (c : Nat) : (interruptTw s c).pins = s.pins := rfl
@[simp] theorem interruptTw_islTime (c : Nat) : (interruptTw s c).islTime = s.islTime := rfl
@[simp] theorem interruptTw_rateStop (c : Nat) : (interruptTw s c).rateStop = s.rateStop := rfl
@[simp] theorem interruptTw_migs (c : Nat) : (interruptTw s c).migs = s.migs := rfl
@[simp] theorem interruptTw_bodies (c : Nat) : (interruptTw s c).bodies = s.bodies := rfl
@[simp] theorem interruptTw_badStored (c : Nat) : (interruptTw s c).badStored = s.badStored := rfl
@[simp] theorem interruptTw_power (c : Nat) : (interruptTw s c).power = s.power := rfl
@[simp] theorem interruptTw_refuseLog (c : Nat) : (interruptTw s c).refuseLog = s.refuseLog := rfl
@[simp] theorem interruptTw_grog (c : Nat) : (interruptTw s c).grog = s.grog := rfl
@[simp] theorem interruptTw_engineGen (c : Nat) : (interruptTw s c).engineGen = s.engineGen := rfl
@[simp] theorem interruptTw_kram (c : Nat) : (interruptTw s c).kram = s.kram := rfl
@[simp] theorem interruptTw_kold (c : Nat) : (interruptTw s c).kold = s.kold := rfl

@[simp] theorem modFunc_pending (i : Nat) (g : Func → Func) : (modFunc s i g).pending = s.pending := rfl
@[simp] theorem modFunc_now (i : Nat) (g : Func → Func) : (modFunc s i g).now = s.now := rfl
@[simp] theorem modFunc_fresh (i : Nat) (g : Func → Func) : (modFunc s i g).fresh = s.fresh := rfl
@[simp] theorem modFunc_objs (i : Nat) (g : Func → Func) : (modFunc s i g).objs = s.objs := rfl
@[simp] theorem modFunc_mram (i : Nat) (g : Func → Func) : (modFunc s i g).mram = s.mram := rfl
@[simp] theorem modFunc_defaultsDue (i : Nat) (g : Func → Func) : (modFunc s i g).defaultsDue = s.defaultsDue := rfl
@[simp] theorem modFunc_votes (i : Nat) (g : Func → Func) : (modFunc s i g).votes = s.votes := rfl
@[simp] theorem modFunc_voteSecond (i : Nat) (g : Func → Func) : (modFunc s i g).voteSecond = s.voteSecond := rfl
@[simp] theorem modFunc_host (i : Nat) (g : Func → Func) : (modFunc s i g).host = s.host := rfl
@[simp] theorem modFunc_sess (i : Nat) (g : Func → Func) : (modFunc s i g).sess = s.sess := rfl
@[simp] theorem modFunc_freeSlots (i : Nat) (g : Func → Func) : (modFunc s i g).freeSlots = s.freeSlots := rfl
@[simp] theorem modFunc_resp (i : Nat) (g : Func → Func) : (modFunc s i g).resp = s.resp := rfl
@[simp] theorem modFunc_twResp (i : Nat) (g : Func → Func) : (modFunc s i g).twResp = s.twResp := rfl
@[simp] theorem modFunc_portals (i : Nat) (g : Func → Func) : (modFunc s i g).portals = s.portals := rfl
@[simp] theorem modFunc_can (i : Nat) (g : Func → Func) : (modFunc s i g).can = s.can := rfl
@[simp] theorem modFunc_frames (i : Nat) (g : Func → Func) : (modFunc s i g).frames = s.frames := rfl
@[simp] theorem modFunc_frameSent (i : Nat) (g : Func → Func) : (modFunc s i g).frameSent = s.frameSent := rfl
@[simp] theorem modFunc_served (i : Nat) (g : Func → Func) : (modFunc s i g).served = s.served := rfl
@[simp] theorem modFunc_transit (i : Nat) (g : Func → Func) : (modFunc s i g).transit = s.transit := rfl
@[simp] theorem modFunc_ehrica (i : Nat) (g : Func → Func) : (modFunc s i g).ehrica = s.ehrica := rfl
@[simp] theorem modFunc_rings (i : Nat) (g : Func → Func) : (modFunc s i g).rings = s.rings := rfl
@[simp] theorem modFunc_signals (i : Nat) (g : Func → Func) : (modFunc s i g).signals = s.signals := rfl
@[simp] theorem modFunc_fenceGen (i : Nat) (g : Func → Func) : (modFunc s i g).fenceGen = s.fenceGen := rfl
@[simp] theorem modFunc_ctxs (i : Nat) (g : Func → Func) : (modFunc s i g).ctxs = s.ctxs := rfl
@[simp] theorem modFunc_cores (i : Nat) (g : Func → Func) : (modFunc s i g).cores = s.cores := rfl
@[simp] theorem modFunc_progs (i : Nat) (g : Func → Func) : (modFunc s i g).progs = s.progs := rfl
@[simp] theorem modFunc_ports (i : Nat) (g : Func → Func) : (modFunc s i g).ports = s.ports := rfl
@[simp] theorem modFunc_commits (i : Nat) (g : Func → Func) : (modFunc s i g).commits = s.commits := rfl
@[simp] theorem modFunc_surfs (i : Nat) (g : Func → Func) : (modFunc s i g).surfs = s.surfs := rfl
@[simp] theorem modFunc_scrubs (i : Nat) (g : Func → Func) : (modFunc s i g).scrubs = s.scrubs := rfl
@[simp] theorem modFunc_tilthLog (i : Nat) (g : Func → Func) : (modFunc s i g).tilthLog = s.tilthLog := rfl
@[simp] theorem modFunc_balance (i : Nat) (g : Func → Func) : (modFunc s i g).balance = s.balance := rfl
@[simp] theorem modFunc_dram (i : Nat) (g : Func → Func) : (modFunc s i g).dram = s.dram := rfl
@[simp] theorem modFunc_mem (i : Nat) (g : Func → Func) : (modFunc s i g).mem = s.mem := rfl
@[simp] theorem modFunc_hap (i : Nat) (g : Func → Func) : (modFunc s i g).hap = s.hap := rfl
@[simp] theorem modFunc_panels (i : Nat) (g : Func → Func) : (modFunc s i g).panels = s.panels := rfl
@[simp] theorem modFunc_snd (i : Nat) (g : Func → Func) : (modFunc s i g).snd = s.snd := rfl
@[simp] theorem modFunc_fab (i : Nat) (g : Func → Func) : (modFunc s i g).fab = s.fab := rfl
@[simp] theorem modFunc_world (i : Nat) (g : Func → Func) : (modFunc s i g).world = s.world := rfl
@[simp] theorem modFunc_pins (i : Nat) (g : Func → Func) : (modFunc s i g).pins = s.pins := rfl
@[simp] theorem modFunc_islTime (i : Nat) (g : Func → Func) : (modFunc s i g).islTime = s.islTime := rfl
@[simp] theorem modFunc_rateStop (i : Nat) (g : Func → Func) : (modFunc s i g).rateStop = s.rateStop := rfl
@[simp] theorem modFunc_migs (i : Nat) (g : Func → Func) : (modFunc s i g).migs = s.migs := rfl
@[simp] theorem modFunc_bodies (i : Nat) (g : Func → Func) : (modFunc s i g).bodies = s.bodies := rfl
@[simp] theorem modFunc_badStored (i : Nat) (g : Func → Func) : (modFunc s i g).badStored = s.badStored := rfl
@[simp] theorem modFunc_power (i : Nat) (g : Func → Func) : (modFunc s i g).power = s.power := rfl
@[simp] theorem modFunc_refuseLog (i : Nat) (g : Func → Func) : (modFunc s i g).refuseLog = s.refuseLog := rfl
@[simp] theorem modFunc_grog (i : Nat) (g : Func → Func) : (modFunc s i g).grog = s.grog := rfl
@[simp] theorem modFunc_engineGen (i : Nat) (g : Func → Func) : (modFunc s i g).engineGen = s.engineGen := rfl
@[simp] theorem modFunc_kram (i : Nat) (g : Func → Func) : (modFunc s i g).kram = s.kram := rfl
@[simp] theorem modFunc_kold (i : Nat) (g : Func → Func) : (modFunc s i g).kold = s.kold := rfl

@[simp] theorem modRing_pending (i : Nat) (g : Ring → Ring) : (modRing s i g).pending = s.pending := rfl
@[simp] theorem modRing_now (i : Nat) (g : Ring → Ring) : (modRing s i g).now = s.now := rfl
@[simp] theorem modRing_fresh (i : Nat) (g : Ring → Ring) : (modRing s i g).fresh = s.fresh := rfl
@[simp] theorem modRing_objs (i : Nat) (g : Ring → Ring) : (modRing s i g).objs = s.objs := rfl
@[simp] theorem modRing_mram (i : Nat) (g : Ring → Ring) : (modRing s i g).mram = s.mram := rfl
@[simp] theorem modRing_defaultsDue (i : Nat) (g : Ring → Ring) : (modRing s i g).defaultsDue = s.defaultsDue := rfl
@[simp] theorem modRing_votes (i : Nat) (g : Ring → Ring) : (modRing s i g).votes = s.votes := rfl
@[simp] theorem modRing_voteSecond (i : Nat) (g : Ring → Ring) : (modRing s i g).voteSecond = s.voteSecond := rfl
@[simp] theorem modRing_host (i : Nat) (g : Ring → Ring) : (modRing s i g).host = s.host := rfl
@[simp] theorem modRing_funcs (i : Nat) (g : Ring → Ring) : (modRing s i g).funcs = s.funcs := rfl
@[simp] theorem modRing_sess (i : Nat) (g : Ring → Ring) : (modRing s i g).sess = s.sess := rfl
@[simp] theorem modRing_freeSlots (i : Nat) (g : Ring → Ring) : (modRing s i g).freeSlots = s.freeSlots := rfl
@[simp] theorem modRing_resp (i : Nat) (g : Ring → Ring) : (modRing s i g).resp = s.resp := rfl
@[simp] theorem modRing_twResp (i : Nat) (g : Ring → Ring) : (modRing s i g).twResp = s.twResp := rfl
@[simp] theorem modRing_portals (i : Nat) (g : Ring → Ring) : (modRing s i g).portals = s.portals := rfl
@[simp] theorem modRing_can (i : Nat) (g : Ring → Ring) : (modRing s i g).can = s.can := rfl
@[simp] theorem modRing_frames (i : Nat) (g : Ring → Ring) : (modRing s i g).frames = s.frames := rfl
@[simp] theorem modRing_frameSent (i : Nat) (g : Ring → Ring) : (modRing s i g).frameSent = s.frameSent := rfl
@[simp] theorem modRing_served (i : Nat) (g : Ring → Ring) : (modRing s i g).served = s.served := rfl
@[simp] theorem modRing_transit (i : Nat) (g : Ring → Ring) : (modRing s i g).transit = s.transit := rfl
@[simp] theorem modRing_ehrica (i : Nat) (g : Ring → Ring) : (modRing s i g).ehrica = s.ehrica := rfl
@[simp] theorem modRing_signals (i : Nat) (g : Ring → Ring) : (modRing s i g).signals = s.signals := rfl
@[simp] theorem modRing_fenceGen (i : Nat) (g : Ring → Ring) : (modRing s i g).fenceGen = s.fenceGen := rfl
@[simp] theorem modRing_ctxs (i : Nat) (g : Ring → Ring) : (modRing s i g).ctxs = s.ctxs := rfl
@[simp] theorem modRing_cores (i : Nat) (g : Ring → Ring) : (modRing s i g).cores = s.cores := rfl
@[simp] theorem modRing_progs (i : Nat) (g : Ring → Ring) : (modRing s i g).progs = s.progs := rfl
@[simp] theorem modRing_ports (i : Nat) (g : Ring → Ring) : (modRing s i g).ports = s.ports := rfl
@[simp] theorem modRing_commits (i : Nat) (g : Ring → Ring) : (modRing s i g).commits = s.commits := rfl
@[simp] theorem modRing_surfs (i : Nat) (g : Ring → Ring) : (modRing s i g).surfs = s.surfs := rfl
@[simp] theorem modRing_scrubs (i : Nat) (g : Ring → Ring) : (modRing s i g).scrubs = s.scrubs := rfl
@[simp] theorem modRing_tilthLog (i : Nat) (g : Ring → Ring) : (modRing s i g).tilthLog = s.tilthLog := rfl
@[simp] theorem modRing_balance (i : Nat) (g : Ring → Ring) : (modRing s i g).balance = s.balance := rfl
@[simp] theorem modRing_dram (i : Nat) (g : Ring → Ring) : (modRing s i g).dram = s.dram := rfl
@[simp] theorem modRing_mem (i : Nat) (g : Ring → Ring) : (modRing s i g).mem = s.mem := rfl
@[simp] theorem modRing_hap (i : Nat) (g : Ring → Ring) : (modRing s i g).hap = s.hap := rfl
@[simp] theorem modRing_panels (i : Nat) (g : Ring → Ring) : (modRing s i g).panels = s.panels := rfl
@[simp] theorem modRing_snd (i : Nat) (g : Ring → Ring) : (modRing s i g).snd = s.snd := rfl
@[simp] theorem modRing_fab (i : Nat) (g : Ring → Ring) : (modRing s i g).fab = s.fab := rfl
@[simp] theorem modRing_world (i : Nat) (g : Ring → Ring) : (modRing s i g).world = s.world := rfl
@[simp] theorem modRing_pins (i : Nat) (g : Ring → Ring) : (modRing s i g).pins = s.pins := rfl
@[simp] theorem modRing_islTime (i : Nat) (g : Ring → Ring) : (modRing s i g).islTime = s.islTime := rfl
@[simp] theorem modRing_rateStop (i : Nat) (g : Ring → Ring) : (modRing s i g).rateStop = s.rateStop := rfl
@[simp] theorem modRing_migs (i : Nat) (g : Ring → Ring) : (modRing s i g).migs = s.migs := rfl
@[simp] theorem modRing_bodies (i : Nat) (g : Ring → Ring) : (modRing s i g).bodies = s.bodies := rfl
@[simp] theorem modRing_badStored (i : Nat) (g : Ring → Ring) : (modRing s i g).badStored = s.badStored := rfl
@[simp] theorem modRing_power (i : Nat) (g : Ring → Ring) : (modRing s i g).power = s.power := rfl
@[simp] theorem modRing_refuseLog (i : Nat) (g : Ring → Ring) : (modRing s i g).refuseLog = s.refuseLog := rfl
@[simp] theorem modRing_grog (i : Nat) (g : Ring → Ring) : (modRing s i g).grog = s.grog := rfl
@[simp] theorem modRing_engineGen (i : Nat) (g : Ring → Ring) : (modRing s i g).engineGen = s.engineGen := rfl
@[simp] theorem modRing_kram (i : Nat) (g : Ring → Ring) : (modRing s i g).kram = s.kram := rfl
@[simp] theorem modRing_kold (i : Nat) (g : Ring → Ring) : (modRing s i g).kold = s.kold := rfl

@[simp] theorem modCtx_pending (i : Nat) (g : Ctx → Ctx) : (modCtx s i g).pending = s.pending := rfl
@[simp] theorem modCtx_now (i : Nat) (g : Ctx → Ctx) : (modCtx s i g).now = s.now := rfl
@[simp] theorem modCtx_fresh (i : Nat) (g : Ctx → Ctx) : (modCtx s i g).fresh = s.fresh := rfl
@[simp] theorem modCtx_objs (i : Nat) (g : Ctx → Ctx) : (modCtx s i g).objs = s.objs := rfl
@[simp] theorem modCtx_mram (i : Nat) (g : Ctx → Ctx) : (modCtx s i g).mram = s.mram := rfl
@[simp] theorem modCtx_defaultsDue (i : Nat) (g : Ctx → Ctx) : (modCtx s i g).defaultsDue = s.defaultsDue := rfl
@[simp] theorem modCtx_votes (i : Nat) (g : Ctx → Ctx) : (modCtx s i g).votes = s.votes := rfl
@[simp] theorem modCtx_voteSecond (i : Nat) (g : Ctx → Ctx) : (modCtx s i g).voteSecond = s.voteSecond := rfl
@[simp] theorem modCtx_host (i : Nat) (g : Ctx → Ctx) : (modCtx s i g).host = s.host := rfl
@[simp] theorem modCtx_funcs (i : Nat) (g : Ctx → Ctx) : (modCtx s i g).funcs = s.funcs := rfl
@[simp] theorem modCtx_sess (i : Nat) (g : Ctx → Ctx) : (modCtx s i g).sess = s.sess := rfl
@[simp] theorem modCtx_freeSlots (i : Nat) (g : Ctx → Ctx) : (modCtx s i g).freeSlots = s.freeSlots := rfl
@[simp] theorem modCtx_resp (i : Nat) (g : Ctx → Ctx) : (modCtx s i g).resp = s.resp := rfl
@[simp] theorem modCtx_twResp (i : Nat) (g : Ctx → Ctx) : (modCtx s i g).twResp = s.twResp := rfl
@[simp] theorem modCtx_portals (i : Nat) (g : Ctx → Ctx) : (modCtx s i g).portals = s.portals := rfl
@[simp] theorem modCtx_can (i : Nat) (g : Ctx → Ctx) : (modCtx s i g).can = s.can := rfl
@[simp] theorem modCtx_frames (i : Nat) (g : Ctx → Ctx) : (modCtx s i g).frames = s.frames := rfl
@[simp] theorem modCtx_frameSent (i : Nat) (g : Ctx → Ctx) : (modCtx s i g).frameSent = s.frameSent := rfl
@[simp] theorem modCtx_served (i : Nat) (g : Ctx → Ctx) : (modCtx s i g).served = s.served := rfl
@[simp] theorem modCtx_transit (i : Nat) (g : Ctx → Ctx) : (modCtx s i g).transit = s.transit := rfl
@[simp] theorem modCtx_ehrica (i : Nat) (g : Ctx → Ctx) : (modCtx s i g).ehrica = s.ehrica := rfl
@[simp] theorem modCtx_rings (i : Nat) (g : Ctx → Ctx) : (modCtx s i g).rings = s.rings := rfl
@[simp] theorem modCtx_signals (i : Nat) (g : Ctx → Ctx) : (modCtx s i g).signals = s.signals := rfl
@[simp] theorem modCtx_fenceGen (i : Nat) (g : Ctx → Ctx) : (modCtx s i g).fenceGen = s.fenceGen := rfl
@[simp] theorem modCtx_cores (i : Nat) (g : Ctx → Ctx) : (modCtx s i g).cores = s.cores := rfl
@[simp] theorem modCtx_progs (i : Nat) (g : Ctx → Ctx) : (modCtx s i g).progs = s.progs := rfl
@[simp] theorem modCtx_ports (i : Nat) (g : Ctx → Ctx) : (modCtx s i g).ports = s.ports := rfl
@[simp] theorem modCtx_commits (i : Nat) (g : Ctx → Ctx) : (modCtx s i g).commits = s.commits := rfl
@[simp] theorem modCtx_surfs (i : Nat) (g : Ctx → Ctx) : (modCtx s i g).surfs = s.surfs := rfl
@[simp] theorem modCtx_scrubs (i : Nat) (g : Ctx → Ctx) : (modCtx s i g).scrubs = s.scrubs := rfl
@[simp] theorem modCtx_tilthLog (i : Nat) (g : Ctx → Ctx) : (modCtx s i g).tilthLog = s.tilthLog := rfl
@[simp] theorem modCtx_balance (i : Nat) (g : Ctx → Ctx) : (modCtx s i g).balance = s.balance := rfl
@[simp] theorem modCtx_dram (i : Nat) (g : Ctx → Ctx) : (modCtx s i g).dram = s.dram := rfl
@[simp] theorem modCtx_mem (i : Nat) (g : Ctx → Ctx) : (modCtx s i g).mem = s.mem := rfl
@[simp] theorem modCtx_hap (i : Nat) (g : Ctx → Ctx) : (modCtx s i g).hap = s.hap := rfl
@[simp] theorem modCtx_panels (i : Nat) (g : Ctx → Ctx) : (modCtx s i g).panels = s.panels := rfl
@[simp] theorem modCtx_snd (i : Nat) (g : Ctx → Ctx) : (modCtx s i g).snd = s.snd := rfl
@[simp] theorem modCtx_fab (i : Nat) (g : Ctx → Ctx) : (modCtx s i g).fab = s.fab := rfl
@[simp] theorem modCtx_world (i : Nat) (g : Ctx → Ctx) : (modCtx s i g).world = s.world := rfl
@[simp] theorem modCtx_pins (i : Nat) (g : Ctx → Ctx) : (modCtx s i g).pins = s.pins := rfl
@[simp] theorem modCtx_islTime (i : Nat) (g : Ctx → Ctx) : (modCtx s i g).islTime = s.islTime := rfl
@[simp] theorem modCtx_rateStop (i : Nat) (g : Ctx → Ctx) : (modCtx s i g).rateStop = s.rateStop := rfl
@[simp] theorem modCtx_migs (i : Nat) (g : Ctx → Ctx) : (modCtx s i g).migs = s.migs := rfl
@[simp] theorem modCtx_bodies (i : Nat) (g : Ctx → Ctx) : (modCtx s i g).bodies = s.bodies := rfl
@[simp] theorem modCtx_badStored (i : Nat) (g : Ctx → Ctx) : (modCtx s i g).badStored = s.badStored := rfl
@[simp] theorem modCtx_power (i : Nat) (g : Ctx → Ctx) : (modCtx s i g).power = s.power := rfl
@[simp] theorem modCtx_refuseLog (i : Nat) (g : Ctx → Ctx) : (modCtx s i g).refuseLog = s.refuseLog := rfl
@[simp] theorem modCtx_grog (i : Nat) (g : Ctx → Ctx) : (modCtx s i g).grog = s.grog := rfl
@[simp] theorem modCtx_engineGen (i : Nat) (g : Ctx → Ctx) : (modCtx s i g).engineGen = s.engineGen := rfl
@[simp] theorem modCtx_kram (i : Nat) (g : Ctx → Ctx) : (modCtx s i g).kram = s.kram := rfl
@[simp] theorem modCtx_kold (i : Nat) (g : Ctx → Ctx) : (modCtx s i g).kold = s.kold := rfl

@[simp] theorem modCore_pending (i : Nat) (g : Core → Core) : (modCore s i g).pending = s.pending := rfl
@[simp] theorem modCore_now (i : Nat) (g : Core → Core) : (modCore s i g).now = s.now := rfl
@[simp] theorem modCore_fresh (i : Nat) (g : Core → Core) : (modCore s i g).fresh = s.fresh := rfl
@[simp] theorem modCore_objs (i : Nat) (g : Core → Core) : (modCore s i g).objs = s.objs := rfl
@[simp] theorem modCore_mram (i : Nat) (g : Core → Core) : (modCore s i g).mram = s.mram := rfl
@[simp] theorem modCore_defaultsDue (i : Nat) (g : Core → Core) : (modCore s i g).defaultsDue = s.defaultsDue := rfl
@[simp] theorem modCore_votes (i : Nat) (g : Core → Core) : (modCore s i g).votes = s.votes := rfl
@[simp] theorem modCore_voteSecond (i : Nat) (g : Core → Core) : (modCore s i g).voteSecond = s.voteSecond := rfl
@[simp] theorem modCore_host (i : Nat) (g : Core → Core) : (modCore s i g).host = s.host := rfl
@[simp] theorem modCore_funcs (i : Nat) (g : Core → Core) : (modCore s i g).funcs = s.funcs := rfl
@[simp] theorem modCore_sess (i : Nat) (g : Core → Core) : (modCore s i g).sess = s.sess := rfl
@[simp] theorem modCore_freeSlots (i : Nat) (g : Core → Core) : (modCore s i g).freeSlots = s.freeSlots := rfl
@[simp] theorem modCore_resp (i : Nat) (g : Core → Core) : (modCore s i g).resp = s.resp := rfl
@[simp] theorem modCore_twResp (i : Nat) (g : Core → Core) : (modCore s i g).twResp = s.twResp := rfl
@[simp] theorem modCore_portals (i : Nat) (g : Core → Core) : (modCore s i g).portals = s.portals := rfl
@[simp] theorem modCore_can (i : Nat) (g : Core → Core) : (modCore s i g).can = s.can := rfl
@[simp] theorem modCore_frames (i : Nat) (g : Core → Core) : (modCore s i g).frames = s.frames := rfl
@[simp] theorem modCore_frameSent (i : Nat) (g : Core → Core) : (modCore s i g).frameSent = s.frameSent := rfl
@[simp] theorem modCore_served (i : Nat) (g : Core → Core) : (modCore s i g).served = s.served := rfl
@[simp] theorem modCore_transit (i : Nat) (g : Core → Core) : (modCore s i g).transit = s.transit := rfl
@[simp] theorem modCore_ehrica (i : Nat) (g : Core → Core) : (modCore s i g).ehrica = s.ehrica := rfl
@[simp] theorem modCore_rings (i : Nat) (g : Core → Core) : (modCore s i g).rings = s.rings := rfl
@[simp] theorem modCore_signals (i : Nat) (g : Core → Core) : (modCore s i g).signals = s.signals := rfl
@[simp] theorem modCore_fenceGen (i : Nat) (g : Core → Core) : (modCore s i g).fenceGen = s.fenceGen := rfl
@[simp] theorem modCore_ctxs (i : Nat) (g : Core → Core) : (modCore s i g).ctxs = s.ctxs := rfl
@[simp] theorem modCore_progs (i : Nat) (g : Core → Core) : (modCore s i g).progs = s.progs := rfl
@[simp] theorem modCore_ports (i : Nat) (g : Core → Core) : (modCore s i g).ports = s.ports := rfl
@[simp] theorem modCore_commits (i : Nat) (g : Core → Core) : (modCore s i g).commits = s.commits := rfl
@[simp] theorem modCore_surfs (i : Nat) (g : Core → Core) : (modCore s i g).surfs = s.surfs := rfl
@[simp] theorem modCore_scrubs (i : Nat) (g : Core → Core) : (modCore s i g).scrubs = s.scrubs := rfl
@[simp] theorem modCore_tilthLog (i : Nat) (g : Core → Core) : (modCore s i g).tilthLog = s.tilthLog := rfl
@[simp] theorem modCore_balance (i : Nat) (g : Core → Core) : (modCore s i g).balance = s.balance := rfl
@[simp] theorem modCore_dram (i : Nat) (g : Core → Core) : (modCore s i g).dram = s.dram := rfl
@[simp] theorem modCore_mem (i : Nat) (g : Core → Core) : (modCore s i g).mem = s.mem := rfl
@[simp] theorem modCore_hap (i : Nat) (g : Core → Core) : (modCore s i g).hap = s.hap := rfl
@[simp] theorem modCore_panels (i : Nat) (g : Core → Core) : (modCore s i g).panels = s.panels := rfl
@[simp] theorem modCore_snd (i : Nat) (g : Core → Core) : (modCore s i g).snd = s.snd := rfl
@[simp] theorem modCore_fab (i : Nat) (g : Core → Core) : (modCore s i g).fab = s.fab := rfl
@[simp] theorem modCore_world (i : Nat) (g : Core → Core) : (modCore s i g).world = s.world := rfl
@[simp] theorem modCore_pins (i : Nat) (g : Core → Core) : (modCore s i g).pins = s.pins := rfl
@[simp] theorem modCore_islTime (i : Nat) (g : Core → Core) : (modCore s i g).islTime = s.islTime := rfl
@[simp] theorem modCore_rateStop (i : Nat) (g : Core → Core) : (modCore s i g).rateStop = s.rateStop := rfl
@[simp] theorem modCore_migs (i : Nat) (g : Core → Core) : (modCore s i g).migs = s.migs := rfl
@[simp] theorem modCore_bodies (i : Nat) (g : Core → Core) : (modCore s i g).bodies = s.bodies := rfl
@[simp] theorem modCore_badStored (i : Nat) (g : Core → Core) : (modCore s i g).badStored = s.badStored := rfl
@[simp] theorem modCore_power (i : Nat) (g : Core → Core) : (modCore s i g).power = s.power := rfl
@[simp] theorem modCore_refuseLog (i : Nat) (g : Core → Core) : (modCore s i g).refuseLog = s.refuseLog := rfl
@[simp] theorem modCore_grog (i : Nat) (g : Core → Core) : (modCore s i g).grog = s.grog := rfl
@[simp] theorem modCore_engineGen (i : Nat) (g : Core → Core) : (modCore s i g).engineGen = s.engineGen := rfl
@[simp] theorem modCore_kram (i : Nat) (g : Core → Core) : (modCore s i g).kram = s.kram := rfl
@[simp] theorem modCore_kold (i : Nat) (g : Core → Core) : (modCore s i g).kold = s.kold := rfl

@[simp] theorem modPort_pending (i : Nat) (g : Port → Port) : (modPort s i g).pending = s.pending := rfl
@[simp] theorem modPort_now (i : Nat) (g : Port → Port) : (modPort s i g).now = s.now := rfl
@[simp] theorem modPort_fresh (i : Nat) (g : Port → Port) : (modPort s i g).fresh = s.fresh := rfl
@[simp] theorem modPort_objs (i : Nat) (g : Port → Port) : (modPort s i g).objs = s.objs := rfl
@[simp] theorem modPort_mram (i : Nat) (g : Port → Port) : (modPort s i g).mram = s.mram := rfl
@[simp] theorem modPort_defaultsDue (i : Nat) (g : Port → Port) : (modPort s i g).defaultsDue = s.defaultsDue := rfl
@[simp] theorem modPort_votes (i : Nat) (g : Port → Port) : (modPort s i g).votes = s.votes := rfl
@[simp] theorem modPort_voteSecond (i : Nat) (g : Port → Port) : (modPort s i g).voteSecond = s.voteSecond := rfl
@[simp] theorem modPort_host (i : Nat) (g : Port → Port) : (modPort s i g).host = s.host := rfl
@[simp] theorem modPort_funcs (i : Nat) (g : Port → Port) : (modPort s i g).funcs = s.funcs := rfl
@[simp] theorem modPort_sess (i : Nat) (g : Port → Port) : (modPort s i g).sess = s.sess := rfl
@[simp] theorem modPort_freeSlots (i : Nat) (g : Port → Port) : (modPort s i g).freeSlots = s.freeSlots := rfl
@[simp] theorem modPort_resp (i : Nat) (g : Port → Port) : (modPort s i g).resp = s.resp := rfl
@[simp] theorem modPort_twResp (i : Nat) (g : Port → Port) : (modPort s i g).twResp = s.twResp := rfl
@[simp] theorem modPort_portals (i : Nat) (g : Port → Port) : (modPort s i g).portals = s.portals := rfl
@[simp] theorem modPort_can (i : Nat) (g : Port → Port) : (modPort s i g).can = s.can := rfl
@[simp] theorem modPort_frames (i : Nat) (g : Port → Port) : (modPort s i g).frames = s.frames := rfl
@[simp] theorem modPort_frameSent (i : Nat) (g : Port → Port) : (modPort s i g).frameSent = s.frameSent := rfl
@[simp] theorem modPort_served (i : Nat) (g : Port → Port) : (modPort s i g).served = s.served := rfl
@[simp] theorem modPort_transit (i : Nat) (g : Port → Port) : (modPort s i g).transit = s.transit := rfl
@[simp] theorem modPort_ehrica (i : Nat) (g : Port → Port) : (modPort s i g).ehrica = s.ehrica := rfl
@[simp] theorem modPort_rings (i : Nat) (g : Port → Port) : (modPort s i g).rings = s.rings := rfl
@[simp] theorem modPort_signals (i : Nat) (g : Port → Port) : (modPort s i g).signals = s.signals := rfl
@[simp] theorem modPort_fenceGen (i : Nat) (g : Port → Port) : (modPort s i g).fenceGen = s.fenceGen := rfl
@[simp] theorem modPort_ctxs (i : Nat) (g : Port → Port) : (modPort s i g).ctxs = s.ctxs := rfl
@[simp] theorem modPort_cores (i : Nat) (g : Port → Port) : (modPort s i g).cores = s.cores := rfl
@[simp] theorem modPort_progs (i : Nat) (g : Port → Port) : (modPort s i g).progs = s.progs := rfl
@[simp] theorem modPort_commits (i : Nat) (g : Port → Port) : (modPort s i g).commits = s.commits := rfl
@[simp] theorem modPort_surfs (i : Nat) (g : Port → Port) : (modPort s i g).surfs = s.surfs := rfl
@[simp] theorem modPort_scrubs (i : Nat) (g : Port → Port) : (modPort s i g).scrubs = s.scrubs := rfl
@[simp] theorem modPort_tilthLog (i : Nat) (g : Port → Port) : (modPort s i g).tilthLog = s.tilthLog := rfl
@[simp] theorem modPort_balance (i : Nat) (g : Port → Port) : (modPort s i g).balance = s.balance := rfl
@[simp] theorem modPort_dram (i : Nat) (g : Port → Port) : (modPort s i g).dram = s.dram := rfl
@[simp] theorem modPort_mem (i : Nat) (g : Port → Port) : (modPort s i g).mem = s.mem := rfl
@[simp] theorem modPort_hap (i : Nat) (g : Port → Port) : (modPort s i g).hap = s.hap := rfl
@[simp] theorem modPort_panels (i : Nat) (g : Port → Port) : (modPort s i g).panels = s.panels := rfl
@[simp] theorem modPort_snd (i : Nat) (g : Port → Port) : (modPort s i g).snd = s.snd := rfl
@[simp] theorem modPort_fab (i : Nat) (g : Port → Port) : (modPort s i g).fab = s.fab := rfl
@[simp] theorem modPort_world (i : Nat) (g : Port → Port) : (modPort s i g).world = s.world := rfl
@[simp] theorem modPort_pins (i : Nat) (g : Port → Port) : (modPort s i g).pins = s.pins := rfl
@[simp] theorem modPort_islTime (i : Nat) (g : Port → Port) : (modPort s i g).islTime = s.islTime := rfl
@[simp] theorem modPort_rateStop (i : Nat) (g : Port → Port) : (modPort s i g).rateStop = s.rateStop := rfl
@[simp] theorem modPort_migs (i : Nat) (g : Port → Port) : (modPort s i g).migs = s.migs := rfl
@[simp] theorem modPort_bodies (i : Nat) (g : Port → Port) : (modPort s i g).bodies = s.bodies := rfl
@[simp] theorem modPort_badStored (i : Nat) (g : Port → Port) : (modPort s i g).badStored = s.badStored := rfl
@[simp] theorem modPort_power (i : Nat) (g : Port → Port) : (modPort s i g).power = s.power := rfl
@[simp] theorem modPort_refuseLog (i : Nat) (g : Port → Port) : (modPort s i g).refuseLog = s.refuseLog := rfl
@[simp] theorem modPort_grog (i : Nat) (g : Port → Port) : (modPort s i g).grog = s.grog := rfl
@[simp] theorem modPort_engineGen (i : Nat) (g : Port → Port) : (modPort s i g).engineGen = s.engineGen := rfl
@[simp] theorem modPort_kram (i : Nat) (g : Port → Port) : (modPort s i g).kram = s.kram := rfl
@[simp] theorem modPort_kold (i : Nat) (g : Port → Port) : (modPort s i g).kold = s.kold := rfl

@[simp] theorem modSurf_pending (i : Nat) (g : Surf → Surf) : (modSurf s i g).pending = s.pending := rfl
@[simp] theorem modSurf_now (i : Nat) (g : Surf → Surf) : (modSurf s i g).now = s.now := rfl
@[simp] theorem modSurf_fresh (i : Nat) (g : Surf → Surf) : (modSurf s i g).fresh = s.fresh := rfl
@[simp] theorem modSurf_objs (i : Nat) (g : Surf → Surf) : (modSurf s i g).objs = s.objs := rfl
@[simp] theorem modSurf_mram (i : Nat) (g : Surf → Surf) : (modSurf s i g).mram = s.mram := rfl
@[simp] theorem modSurf_defaultsDue (i : Nat) (g : Surf → Surf) : (modSurf s i g).defaultsDue = s.defaultsDue := rfl
@[simp] theorem modSurf_votes (i : Nat) (g : Surf → Surf) : (modSurf s i g).votes = s.votes := rfl
@[simp] theorem modSurf_voteSecond (i : Nat) (g : Surf → Surf) : (modSurf s i g).voteSecond = s.voteSecond := rfl
@[simp] theorem modSurf_host (i : Nat) (g : Surf → Surf) : (modSurf s i g).host = s.host := rfl
@[simp] theorem modSurf_funcs (i : Nat) (g : Surf → Surf) : (modSurf s i g).funcs = s.funcs := rfl
@[simp] theorem modSurf_sess (i : Nat) (g : Surf → Surf) : (modSurf s i g).sess = s.sess := rfl
@[simp] theorem modSurf_freeSlots (i : Nat) (g : Surf → Surf) : (modSurf s i g).freeSlots = s.freeSlots := rfl
@[simp] theorem modSurf_resp (i : Nat) (g : Surf → Surf) : (modSurf s i g).resp = s.resp := rfl
@[simp] theorem modSurf_twResp (i : Nat) (g : Surf → Surf) : (modSurf s i g).twResp = s.twResp := rfl
@[simp] theorem modSurf_portals (i : Nat) (g : Surf → Surf) : (modSurf s i g).portals = s.portals := rfl
@[simp] theorem modSurf_can (i : Nat) (g : Surf → Surf) : (modSurf s i g).can = s.can := rfl
@[simp] theorem modSurf_frames (i : Nat) (g : Surf → Surf) : (modSurf s i g).frames = s.frames := rfl
@[simp] theorem modSurf_frameSent (i : Nat) (g : Surf → Surf) : (modSurf s i g).frameSent = s.frameSent := rfl
@[simp] theorem modSurf_served (i : Nat) (g : Surf → Surf) : (modSurf s i g).served = s.served := rfl
@[simp] theorem modSurf_transit (i : Nat) (g : Surf → Surf) : (modSurf s i g).transit = s.transit := rfl
@[simp] theorem modSurf_ehrica (i : Nat) (g : Surf → Surf) : (modSurf s i g).ehrica = s.ehrica := rfl
@[simp] theorem modSurf_rings (i : Nat) (g : Surf → Surf) : (modSurf s i g).rings = s.rings := rfl
@[simp] theorem modSurf_signals (i : Nat) (g : Surf → Surf) : (modSurf s i g).signals = s.signals := rfl
@[simp] theorem modSurf_fenceGen (i : Nat) (g : Surf → Surf) : (modSurf s i g).fenceGen = s.fenceGen := rfl
@[simp] theorem modSurf_ctxs (i : Nat) (g : Surf → Surf) : (modSurf s i g).ctxs = s.ctxs := rfl
@[simp] theorem modSurf_cores (i : Nat) (g : Surf → Surf) : (modSurf s i g).cores = s.cores := rfl
@[simp] theorem modSurf_progs (i : Nat) (g : Surf → Surf) : (modSurf s i g).progs = s.progs := rfl
@[simp] theorem modSurf_ports (i : Nat) (g : Surf → Surf) : (modSurf s i g).ports = s.ports := rfl
@[simp] theorem modSurf_commits (i : Nat) (g : Surf → Surf) : (modSurf s i g).commits = s.commits := rfl
@[simp] theorem modSurf_scrubs (i : Nat) (g : Surf → Surf) : (modSurf s i g).scrubs = s.scrubs := rfl
@[simp] theorem modSurf_tilthLog (i : Nat) (g : Surf → Surf) : (modSurf s i g).tilthLog = s.tilthLog := rfl
@[simp] theorem modSurf_balance (i : Nat) (g : Surf → Surf) : (modSurf s i g).balance = s.balance := rfl
@[simp] theorem modSurf_dram (i : Nat) (g : Surf → Surf) : (modSurf s i g).dram = s.dram := rfl
@[simp] theorem modSurf_mem (i : Nat) (g : Surf → Surf) : (modSurf s i g).mem = s.mem := rfl
@[simp] theorem modSurf_hap (i : Nat) (g : Surf → Surf) : (modSurf s i g).hap = s.hap := rfl
@[simp] theorem modSurf_panels (i : Nat) (g : Surf → Surf) : (modSurf s i g).panels = s.panels := rfl
@[simp] theorem modSurf_snd (i : Nat) (g : Surf → Surf) : (modSurf s i g).snd = s.snd := rfl
@[simp] theorem modSurf_fab (i : Nat) (g : Surf → Surf) : (modSurf s i g).fab = s.fab := rfl
@[simp] theorem modSurf_world (i : Nat) (g : Surf → Surf) : (modSurf s i g).world = s.world := rfl
@[simp] theorem modSurf_pins (i : Nat) (g : Surf → Surf) : (modSurf s i g).pins = s.pins := rfl
@[simp] theorem modSurf_islTime (i : Nat) (g : Surf → Surf) : (modSurf s i g).islTime = s.islTime := rfl
@[simp] theorem modSurf_rateStop (i : Nat) (g : Surf → Surf) : (modSurf s i g).rateStop = s.rateStop := rfl
@[simp] theorem modSurf_migs (i : Nat) (g : Surf → Surf) : (modSurf s i g).migs = s.migs := rfl
@[simp] theorem modSurf_bodies (i : Nat) (g : Surf → Surf) : (modSurf s i g).bodies = s.bodies := rfl
@[simp] theorem modSurf_badStored (i : Nat) (g : Surf → Surf) : (modSurf s i g).badStored = s.badStored := rfl
@[simp] theorem modSurf_power (i : Nat) (g : Surf → Surf) : (modSurf s i g).power = s.power := rfl
@[simp] theorem modSurf_refuseLog (i : Nat) (g : Surf → Surf) : (modSurf s i g).refuseLog = s.refuseLog := rfl
@[simp] theorem modSurf_grog (i : Nat) (g : Surf → Surf) : (modSurf s i g).grog = s.grog := rfl
@[simp] theorem modSurf_engineGen (i : Nat) (g : Surf → Surf) : (modSurf s i g).engineGen = s.engineGen := rfl
@[simp] theorem modSurf_kram (i : Nat) (g : Surf → Surf) : (modSurf s i g).kram = s.kram := rfl
@[simp] theorem modSurf_kold (i : Nat) (g : Surf → Surf) : (modSurf s i g).kold = s.kold := rfl

@[simp] theorem modSess_pending (i : Nat) (g : Session → Session) : (modSess s i g).pending = s.pending := rfl
@[simp] theorem modSess_now (i : Nat) (g : Session → Session) : (modSess s i g).now = s.now := rfl
@[simp] theorem modSess_fresh (i : Nat) (g : Session → Session) : (modSess s i g).fresh = s.fresh := rfl
@[simp] theorem modSess_objs (i : Nat) (g : Session → Session) : (modSess s i g).objs = s.objs := rfl
@[simp] theorem modSess_mram (i : Nat) (g : Session → Session) : (modSess s i g).mram = s.mram := rfl
@[simp] theorem modSess_defaultsDue (i : Nat) (g : Session → Session) : (modSess s i g).defaultsDue = s.defaultsDue := rfl
@[simp] theorem modSess_votes (i : Nat) (g : Session → Session) : (modSess s i g).votes = s.votes := rfl
@[simp] theorem modSess_voteSecond (i : Nat) (g : Session → Session) : (modSess s i g).voteSecond = s.voteSecond := rfl
@[simp] theorem modSess_host (i : Nat) (g : Session → Session) : (modSess s i g).host = s.host := rfl
@[simp] theorem modSess_funcs (i : Nat) (g : Session → Session) : (modSess s i g).funcs = s.funcs := rfl
@[simp] theorem modSess_freeSlots (i : Nat) (g : Session → Session) : (modSess s i g).freeSlots = s.freeSlots := rfl
@[simp] theorem modSess_resp (i : Nat) (g : Session → Session) : (modSess s i g).resp = s.resp := rfl
@[simp] theorem modSess_twResp (i : Nat) (g : Session → Session) : (modSess s i g).twResp = s.twResp := rfl
@[simp] theorem modSess_portals (i : Nat) (g : Session → Session) : (modSess s i g).portals = s.portals := rfl
@[simp] theorem modSess_can (i : Nat) (g : Session → Session) : (modSess s i g).can = s.can := rfl
@[simp] theorem modSess_frames (i : Nat) (g : Session → Session) : (modSess s i g).frames = s.frames := rfl
@[simp] theorem modSess_frameSent (i : Nat) (g : Session → Session) : (modSess s i g).frameSent = s.frameSent := rfl
@[simp] theorem modSess_served (i : Nat) (g : Session → Session) : (modSess s i g).served = s.served := rfl
@[simp] theorem modSess_transit (i : Nat) (g : Session → Session) : (modSess s i g).transit = s.transit := rfl
@[simp] theorem modSess_ehrica (i : Nat) (g : Session → Session) : (modSess s i g).ehrica = s.ehrica := rfl
@[simp] theorem modSess_rings (i : Nat) (g : Session → Session) : (modSess s i g).rings = s.rings := rfl
@[simp] theorem modSess_signals (i : Nat) (g : Session → Session) : (modSess s i g).signals = s.signals := rfl
@[simp] theorem modSess_fenceGen (i : Nat) (g : Session → Session) : (modSess s i g).fenceGen = s.fenceGen := rfl
@[simp] theorem modSess_ctxs (i : Nat) (g : Session → Session) : (modSess s i g).ctxs = s.ctxs := rfl
@[simp] theorem modSess_cores (i : Nat) (g : Session → Session) : (modSess s i g).cores = s.cores := rfl
@[simp] theorem modSess_progs (i : Nat) (g : Session → Session) : (modSess s i g).progs = s.progs := rfl
@[simp] theorem modSess_ports (i : Nat) (g : Session → Session) : (modSess s i g).ports = s.ports := rfl
@[simp] theorem modSess_commits (i : Nat) (g : Session → Session) : (modSess s i g).commits = s.commits := rfl
@[simp] theorem modSess_surfs (i : Nat) (g : Session → Session) : (modSess s i g).surfs = s.surfs := rfl
@[simp] theorem modSess_scrubs (i : Nat) (g : Session → Session) : (modSess s i g).scrubs = s.scrubs := rfl
@[simp] theorem modSess_tilthLog (i : Nat) (g : Session → Session) : (modSess s i g).tilthLog = s.tilthLog := rfl
@[simp] theorem modSess_balance (i : Nat) (g : Session → Session) : (modSess s i g).balance = s.balance := rfl
@[simp] theorem modSess_dram (i : Nat) (g : Session → Session) : (modSess s i g).dram = s.dram := rfl
@[simp] theorem modSess_mem (i : Nat) (g : Session → Session) : (modSess s i g).mem = s.mem := rfl
@[simp] theorem modSess_hap (i : Nat) (g : Session → Session) : (modSess s i g).hap = s.hap := rfl
@[simp] theorem modSess_panels (i : Nat) (g : Session → Session) : (modSess s i g).panels = s.panels := rfl
@[simp] theorem modSess_snd (i : Nat) (g : Session → Session) : (modSess s i g).snd = s.snd := rfl
@[simp] theorem modSess_fab (i : Nat) (g : Session → Session) : (modSess s i g).fab = s.fab := rfl
@[simp] theorem modSess_world (i : Nat) (g : Session → Session) : (modSess s i g).world = s.world := rfl
@[simp] theorem modSess_pins (i : Nat) (g : Session → Session) : (modSess s i g).pins = s.pins := rfl
@[simp] theorem modSess_islTime (i : Nat) (g : Session → Session) : (modSess s i g).islTime = s.islTime := rfl
@[simp] theorem modSess_rateStop (i : Nat) (g : Session → Session) : (modSess s i g).rateStop = s.rateStop := rfl
@[simp] theorem modSess_migs (i : Nat) (g : Session → Session) : (modSess s i g).migs = s.migs := rfl
@[simp] theorem modSess_bodies (i : Nat) (g : Session → Session) : (modSess s i g).bodies = s.bodies := rfl
@[simp] theorem modSess_badStored (i : Nat) (g : Session → Session) : (modSess s i g).badStored = s.badStored := rfl
@[simp] theorem modSess_power (i : Nat) (g : Session → Session) : (modSess s i g).power = s.power := rfl
@[simp] theorem modSess_refuseLog (i : Nat) (g : Session → Session) : (modSess s i g).refuseLog = s.refuseLog := rfl
@[simp] theorem modSess_grog (i : Nat) (g : Session → Session) : (modSess s i g).grog = s.grog := rfl
@[simp] theorem modSess_engineGen (i : Nat) (g : Session → Session) : (modSess s i g).engineGen = s.engineGen := rfl
@[simp] theorem modSess_kram (i : Nat) (g : Session → Session) : (modSess s i g).kram = s.kram := rfl
@[simp] theorem modSess_kold (i : Nat) (g : Session → Session) : (modSess s i g).kold = s.kold := rfl

@[simp] theorem modGrog_pending (g : Grog → Grog) : (modGrog s g).pending = s.pending := rfl
@[simp] theorem modGrog_now (g : Grog → Grog) : (modGrog s g).now = s.now := rfl
@[simp] theorem modGrog_fresh (g : Grog → Grog) : (modGrog s g).fresh = s.fresh := rfl
@[simp] theorem modGrog_objs (g : Grog → Grog) : (modGrog s g).objs = s.objs := rfl
@[simp] theorem modGrog_mram (g : Grog → Grog) : (modGrog s g).mram = s.mram := rfl
@[simp] theorem modGrog_defaultsDue (g : Grog → Grog) : (modGrog s g).defaultsDue = s.defaultsDue := rfl
@[simp] theorem modGrog_votes (g : Grog → Grog) : (modGrog s g).votes = s.votes := rfl
@[simp] theorem modGrog_voteSecond (g : Grog → Grog) : (modGrog s g).voteSecond = s.voteSecond := rfl
@[simp] theorem modGrog_host (g : Grog → Grog) : (modGrog s g).host = s.host := rfl
@[simp] theorem modGrog_funcs (g : Grog → Grog) : (modGrog s g).funcs = s.funcs := rfl
@[simp] theorem modGrog_sess (g : Grog → Grog) : (modGrog s g).sess = s.sess := rfl
@[simp] theorem modGrog_freeSlots (g : Grog → Grog) : (modGrog s g).freeSlots = s.freeSlots := rfl
@[simp] theorem modGrog_resp (g : Grog → Grog) : (modGrog s g).resp = s.resp := rfl
@[simp] theorem modGrog_twResp (g : Grog → Grog) : (modGrog s g).twResp = s.twResp := rfl
@[simp] theorem modGrog_portals (g : Grog → Grog) : (modGrog s g).portals = s.portals := rfl
@[simp] theorem modGrog_can (g : Grog → Grog) : (modGrog s g).can = s.can := rfl
@[simp] theorem modGrog_frames (g : Grog → Grog) : (modGrog s g).frames = s.frames := rfl
@[simp] theorem modGrog_frameSent (g : Grog → Grog) : (modGrog s g).frameSent = s.frameSent := rfl
@[simp] theorem modGrog_served (g : Grog → Grog) : (modGrog s g).served = s.served := rfl
@[simp] theorem modGrog_transit (g : Grog → Grog) : (modGrog s g).transit = s.transit := rfl
@[simp] theorem modGrog_ehrica (g : Grog → Grog) : (modGrog s g).ehrica = s.ehrica := rfl
@[simp] theorem modGrog_rings (g : Grog → Grog) : (modGrog s g).rings = s.rings := rfl
@[simp] theorem modGrog_signals (g : Grog → Grog) : (modGrog s g).signals = s.signals := rfl
@[simp] theorem modGrog_fenceGen (g : Grog → Grog) : (modGrog s g).fenceGen = s.fenceGen := rfl
@[simp] theorem modGrog_ctxs (g : Grog → Grog) : (modGrog s g).ctxs = s.ctxs := rfl
@[simp] theorem modGrog_cores (g : Grog → Grog) : (modGrog s g).cores = s.cores := rfl
@[simp] theorem modGrog_progs (g : Grog → Grog) : (modGrog s g).progs = s.progs := rfl
@[simp] theorem modGrog_ports (g : Grog → Grog) : (modGrog s g).ports = s.ports := rfl
@[simp] theorem modGrog_commits (g : Grog → Grog) : (modGrog s g).commits = s.commits := rfl
@[simp] theorem modGrog_surfs (g : Grog → Grog) : (modGrog s g).surfs = s.surfs := rfl
@[simp] theorem modGrog_scrubs (g : Grog → Grog) : (modGrog s g).scrubs = s.scrubs := rfl
@[simp] theorem modGrog_tilthLog (g : Grog → Grog) : (modGrog s g).tilthLog = s.tilthLog := rfl
@[simp] theorem modGrog_balance (g : Grog → Grog) : (modGrog s g).balance = s.balance := rfl
@[simp] theorem modGrog_dram (g : Grog → Grog) : (modGrog s g).dram = s.dram := rfl
@[simp] theorem modGrog_mem (g : Grog → Grog) : (modGrog s g).mem = s.mem := rfl
@[simp] theorem modGrog_hap (g : Grog → Grog) : (modGrog s g).hap = s.hap := rfl
@[simp] theorem modGrog_panels (g : Grog → Grog) : (modGrog s g).panels = s.panels := rfl
@[simp] theorem modGrog_snd (g : Grog → Grog) : (modGrog s g).snd = s.snd := rfl
@[simp] theorem modGrog_fab (g : Grog → Grog) : (modGrog s g).fab = s.fab := rfl
@[simp] theorem modGrog_world (g : Grog → Grog) : (modGrog s g).world = s.world := rfl
@[simp] theorem modGrog_pins (g : Grog → Grog) : (modGrog s g).pins = s.pins := rfl
@[simp] theorem modGrog_islTime (g : Grog → Grog) : (modGrog s g).islTime = s.islTime := rfl
@[simp] theorem modGrog_rateStop (g : Grog → Grog) : (modGrog s g).rateStop = s.rateStop := rfl
@[simp] theorem modGrog_migs (g : Grog → Grog) : (modGrog s g).migs = s.migs := rfl
@[simp] theorem modGrog_bodies (g : Grog → Grog) : (modGrog s g).bodies = s.bodies := rfl
@[simp] theorem modGrog_badStored (g : Grog → Grog) : (modGrog s g).badStored = s.badStored := rfl
@[simp] theorem modGrog_power (g : Grog → Grog) : (modGrog s g).power = s.power := rfl
@[simp] theorem modGrog_refuseLog (g : Grog → Grog) : (modGrog s g).refuseLog = s.refuseLog := rfl
@[simp] theorem modGrog_engineGen (g : Grog → Grog) : (modGrog s g).engineGen = s.engineGen := rfl
@[simp] theorem modGrog_kram (g : Grog → Grog) : (modGrog s g).kram = s.kram := rfl
@[simp] theorem modGrog_kold (g : Grog → Grog) : (modGrog s g).kold = s.kold := rfl

@[simp] theorem modMem_pending (g : Mem → Mem) : (modMem s g).pending = s.pending := rfl
@[simp] theorem modMem_now (g : Mem → Mem) : (modMem s g).now = s.now := rfl
@[simp] theorem modMem_fresh (g : Mem → Mem) : (modMem s g).fresh = s.fresh := rfl
@[simp] theorem modMem_objs (g : Mem → Mem) : (modMem s g).objs = s.objs := rfl
@[simp] theorem modMem_mram (g : Mem → Mem) : (modMem s g).mram = s.mram := rfl
@[simp] theorem modMem_defaultsDue (g : Mem → Mem) : (modMem s g).defaultsDue = s.defaultsDue := rfl
@[simp] theorem modMem_votes (g : Mem → Mem) : (modMem s g).votes = s.votes := rfl
@[simp] theorem modMem_voteSecond (g : Mem → Mem) : (modMem s g).voteSecond = s.voteSecond := rfl
@[simp] theorem modMem_host (g : Mem → Mem) : (modMem s g).host = s.host := rfl
@[simp] theorem modMem_funcs (g : Mem → Mem) : (modMem s g).funcs = s.funcs := rfl
@[simp] theorem modMem_sess (g : Mem → Mem) : (modMem s g).sess = s.sess := rfl
@[simp] theorem modMem_freeSlots (g : Mem → Mem) : (modMem s g).freeSlots = s.freeSlots := rfl
@[simp] theorem modMem_resp (g : Mem → Mem) : (modMem s g).resp = s.resp := rfl
@[simp] theorem modMem_twResp (g : Mem → Mem) : (modMem s g).twResp = s.twResp := rfl
@[simp] theorem modMem_portals (g : Mem → Mem) : (modMem s g).portals = s.portals := rfl
@[simp] theorem modMem_can (g : Mem → Mem) : (modMem s g).can = s.can := rfl
@[simp] theorem modMem_frames (g : Mem → Mem) : (modMem s g).frames = s.frames := rfl
@[simp] theorem modMem_frameSent (g : Mem → Mem) : (modMem s g).frameSent = s.frameSent := rfl
@[simp] theorem modMem_served (g : Mem → Mem) : (modMem s g).served = s.served := rfl
@[simp] theorem modMem_transit (g : Mem → Mem) : (modMem s g).transit = s.transit := rfl
@[simp] theorem modMem_ehrica (g : Mem → Mem) : (modMem s g).ehrica = s.ehrica := rfl
@[simp] theorem modMem_rings (g : Mem → Mem) : (modMem s g).rings = s.rings := rfl
@[simp] theorem modMem_signals (g : Mem → Mem) : (modMem s g).signals = s.signals := rfl
@[simp] theorem modMem_fenceGen (g : Mem → Mem) : (modMem s g).fenceGen = s.fenceGen := rfl
@[simp] theorem modMem_ctxs (g : Mem → Mem) : (modMem s g).ctxs = s.ctxs := rfl
@[simp] theorem modMem_cores (g : Mem → Mem) : (modMem s g).cores = s.cores := rfl
@[simp] theorem modMem_progs (g : Mem → Mem) : (modMem s g).progs = s.progs := rfl
@[simp] theorem modMem_ports (g : Mem → Mem) : (modMem s g).ports = s.ports := rfl
@[simp] theorem modMem_commits (g : Mem → Mem) : (modMem s g).commits = s.commits := rfl
@[simp] theorem modMem_surfs (g : Mem → Mem) : (modMem s g).surfs = s.surfs := rfl
@[simp] theorem modMem_scrubs (g : Mem → Mem) : (modMem s g).scrubs = s.scrubs := rfl
@[simp] theorem modMem_tilthLog (g : Mem → Mem) : (modMem s g).tilthLog = s.tilthLog := rfl
@[simp] theorem modMem_balance (g : Mem → Mem) : (modMem s g).balance = s.balance := rfl
@[simp] theorem modMem_dram (g : Mem → Mem) : (modMem s g).dram = s.dram := rfl
@[simp] theorem modMem_hap (g : Mem → Mem) : (modMem s g).hap = s.hap := rfl
@[simp] theorem modMem_panels (g : Mem → Mem) : (modMem s g).panels = s.panels := rfl
@[simp] theorem modMem_snd (g : Mem → Mem) : (modMem s g).snd = s.snd := rfl
@[simp] theorem modMem_fab (g : Mem → Mem) : (modMem s g).fab = s.fab := rfl
@[simp] theorem modMem_world (g : Mem → Mem) : (modMem s g).world = s.world := rfl
@[simp] theorem modMem_pins (g : Mem → Mem) : (modMem s g).pins = s.pins := rfl
@[simp] theorem modMem_islTime (g : Mem → Mem) : (modMem s g).islTime = s.islTime := rfl
@[simp] theorem modMem_rateStop (g : Mem → Mem) : (modMem s g).rateStop = s.rateStop := rfl
@[simp] theorem modMem_migs (g : Mem → Mem) : (modMem s g).migs = s.migs := rfl
@[simp] theorem modMem_bodies (g : Mem → Mem) : (modMem s g).bodies = s.bodies := rfl
@[simp] theorem modMem_badStored (g : Mem → Mem) : (modMem s g).badStored = s.badStored := rfl
@[simp] theorem modMem_power (g : Mem → Mem) : (modMem s g).power = s.power := rfl
@[simp] theorem modMem_refuseLog (g : Mem → Mem) : (modMem s g).refuseLog = s.refuseLog := rfl
@[simp] theorem modMem_grog (g : Mem → Mem) : (modMem s g).grog = s.grog := rfl
@[simp] theorem modMem_engineGen (g : Mem → Mem) : (modMem s g).engineGen = s.engineGen := rfl
@[simp] theorem modMem_kram (g : Mem → Mem) : (modMem s g).kram = s.kram := rfl
@[simp] theorem modMem_kold (g : Mem → Mem) : (modMem s g).kold = s.kold := rfl

@[simp] theorem modPower_pending (g : Power → Power) : (modPower s g).pending = s.pending := rfl
@[simp] theorem modPower_now (g : Power → Power) : (modPower s g).now = s.now := rfl
@[simp] theorem modPower_fresh (g : Power → Power) : (modPower s g).fresh = s.fresh := rfl
@[simp] theorem modPower_objs (g : Power → Power) : (modPower s g).objs = s.objs := rfl
@[simp] theorem modPower_mram (g : Power → Power) : (modPower s g).mram = s.mram := rfl
@[simp] theorem modPower_defaultsDue (g : Power → Power) : (modPower s g).defaultsDue = s.defaultsDue := rfl
@[simp] theorem modPower_votes (g : Power → Power) : (modPower s g).votes = s.votes := rfl
@[simp] theorem modPower_voteSecond (g : Power → Power) : (modPower s g).voteSecond = s.voteSecond := rfl
@[simp] theorem modPower_host (g : Power → Power) : (modPower s g).host = s.host := rfl
@[simp] theorem modPower_funcs (g : Power → Power) : (modPower s g).funcs = s.funcs := rfl
@[simp] theorem modPower_sess (g : Power → Power) : (modPower s g).sess = s.sess := rfl
@[simp] theorem modPower_freeSlots (g : Power → Power) : (modPower s g).freeSlots = s.freeSlots := rfl
@[simp] theorem modPower_resp (g : Power → Power) : (modPower s g).resp = s.resp := rfl
@[simp] theorem modPower_twResp (g : Power → Power) : (modPower s g).twResp = s.twResp := rfl
@[simp] theorem modPower_portals (g : Power → Power) : (modPower s g).portals = s.portals := rfl
@[simp] theorem modPower_can (g : Power → Power) : (modPower s g).can = s.can := rfl
@[simp] theorem modPower_frames (g : Power → Power) : (modPower s g).frames = s.frames := rfl
@[simp] theorem modPower_frameSent (g : Power → Power) : (modPower s g).frameSent = s.frameSent := rfl
@[simp] theorem modPower_served (g : Power → Power) : (modPower s g).served = s.served := rfl
@[simp] theorem modPower_transit (g : Power → Power) : (modPower s g).transit = s.transit := rfl
@[simp] theorem modPower_ehrica (g : Power → Power) : (modPower s g).ehrica = s.ehrica := rfl
@[simp] theorem modPower_rings (g : Power → Power) : (modPower s g).rings = s.rings := rfl
@[simp] theorem modPower_signals (g : Power → Power) : (modPower s g).signals = s.signals := rfl
@[simp] theorem modPower_fenceGen (g : Power → Power) : (modPower s g).fenceGen = s.fenceGen := rfl
@[simp] theorem modPower_ctxs (g : Power → Power) : (modPower s g).ctxs = s.ctxs := rfl
@[simp] theorem modPower_cores (g : Power → Power) : (modPower s g).cores = s.cores := rfl
@[simp] theorem modPower_progs (g : Power → Power) : (modPower s g).progs = s.progs := rfl
@[simp] theorem modPower_ports (g : Power → Power) : (modPower s g).ports = s.ports := rfl
@[simp] theorem modPower_commits (g : Power → Power) : (modPower s g).commits = s.commits := rfl
@[simp] theorem modPower_surfs (g : Power → Power) : (modPower s g).surfs = s.surfs := rfl
@[simp] theorem modPower_scrubs (g : Power → Power) : (modPower s g).scrubs = s.scrubs := rfl
@[simp] theorem modPower_tilthLog (g : Power → Power) : (modPower s g).tilthLog = s.tilthLog := rfl
@[simp] theorem modPower_balance (g : Power → Power) : (modPower s g).balance = s.balance := rfl
@[simp] theorem modPower_dram (g : Power → Power) : (modPower s g).dram = s.dram := rfl
@[simp] theorem modPower_mem (g : Power → Power) : (modPower s g).mem = s.mem := rfl
@[simp] theorem modPower_hap (g : Power → Power) : (modPower s g).hap = s.hap := rfl
@[simp] theorem modPower_panels (g : Power → Power) : (modPower s g).panels = s.panels := rfl
@[simp] theorem modPower_snd (g : Power → Power) : (modPower s g).snd = s.snd := rfl
@[simp] theorem modPower_fab (g : Power → Power) : (modPower s g).fab = s.fab := rfl
@[simp] theorem modPower_world (g : Power → Power) : (modPower s g).world = s.world := rfl
@[simp] theorem modPower_pins (g : Power → Power) : (modPower s g).pins = s.pins := rfl
@[simp] theorem modPower_islTime (g : Power → Power) : (modPower s g).islTime = s.islTime := rfl
@[simp] theorem modPower_rateStop (g : Power → Power) : (modPower s g).rateStop = s.rateStop := rfl
@[simp] theorem modPower_migs (g : Power → Power) : (modPower s g).migs = s.migs := rfl
@[simp] theorem modPower_bodies (g : Power → Power) : (modPower s g).bodies = s.bodies := rfl
@[simp] theorem modPower_badStored (g : Power → Power) : (modPower s g).badStored = s.badStored := rfl
@[simp] theorem modPower_refuseLog (g : Power → Power) : (modPower s g).refuseLog = s.refuseLog := rfl
@[simp] theorem modPower_grog (g : Power → Power) : (modPower s g).grog = s.grog := rfl
@[simp] theorem modPower_engineGen (g : Power → Power) : (modPower s g).engineGen = s.engineGen := rfl
@[simp] theorem modPower_kram (g : Power → Power) : (modPower s g).kram = s.kram := rfl
@[simp] theorem modPower_kold (g : Power → Power) : (modPower s g).kold = s.kold := rfl

@[simp] theorem modWorld_pending (g : World → World) : (modWorld s g).pending = s.pending := rfl
@[simp] theorem modWorld_now (g : World → World) : (modWorld s g).now = s.now := rfl
@[simp] theorem modWorld_fresh (g : World → World) : (modWorld s g).fresh = s.fresh := rfl
@[simp] theorem modWorld_objs (g : World → World) : (modWorld s g).objs = s.objs := rfl
@[simp] theorem modWorld_mram (g : World → World) : (modWorld s g).mram = s.mram := rfl
@[simp] theorem modWorld_defaultsDue (g : World → World) : (modWorld s g).defaultsDue = s.defaultsDue := rfl
@[simp] theorem modWorld_votes (g : World → World) : (modWorld s g).votes = s.votes := rfl
@[simp] theorem modWorld_voteSecond (g : World → World) : (modWorld s g).voteSecond = s.voteSecond := rfl
@[simp] theorem modWorld_host (g : World → World) : (modWorld s g).host = s.host := rfl
@[simp] theorem modWorld_funcs (g : World → World) : (modWorld s g).funcs = s.funcs := rfl
@[simp] theorem modWorld_sess (g : World → World) : (modWorld s g).sess = s.sess := rfl
@[simp] theorem modWorld_freeSlots (g : World → World) : (modWorld s g).freeSlots = s.freeSlots := rfl
@[simp] theorem modWorld_resp (g : World → World) : (modWorld s g).resp = s.resp := rfl
@[simp] theorem modWorld_twResp (g : World → World) : (modWorld s g).twResp = s.twResp := rfl
@[simp] theorem modWorld_portals (g : World → World) : (modWorld s g).portals = s.portals := rfl
@[simp] theorem modWorld_can (g : World → World) : (modWorld s g).can = s.can := rfl
@[simp] theorem modWorld_frames (g : World → World) : (modWorld s g).frames = s.frames := rfl
@[simp] theorem modWorld_frameSent (g : World → World) : (modWorld s g).frameSent = s.frameSent := rfl
@[simp] theorem modWorld_served (g : World → World) : (modWorld s g).served = s.served := rfl
@[simp] theorem modWorld_transit (g : World → World) : (modWorld s g).transit = s.transit := rfl
@[simp] theorem modWorld_ehrica (g : World → World) : (modWorld s g).ehrica = s.ehrica := rfl
@[simp] theorem modWorld_rings (g : World → World) : (modWorld s g).rings = s.rings := rfl
@[simp] theorem modWorld_signals (g : World → World) : (modWorld s g).signals = s.signals := rfl
@[simp] theorem modWorld_fenceGen (g : World → World) : (modWorld s g).fenceGen = s.fenceGen := rfl
@[simp] theorem modWorld_ctxs (g : World → World) : (modWorld s g).ctxs = s.ctxs := rfl
@[simp] theorem modWorld_cores (g : World → World) : (modWorld s g).cores = s.cores := rfl
@[simp] theorem modWorld_progs (g : World → World) : (modWorld s g).progs = s.progs := rfl
@[simp] theorem modWorld_ports (g : World → World) : (modWorld s g).ports = s.ports := rfl
@[simp] theorem modWorld_commits (g : World → World) : (modWorld s g).commits = s.commits := rfl
@[simp] theorem modWorld_surfs (g : World → World) : (modWorld s g).surfs = s.surfs := rfl
@[simp] theorem modWorld_scrubs (g : World → World) : (modWorld s g).scrubs = s.scrubs := rfl
@[simp] theorem modWorld_tilthLog (g : World → World) : (modWorld s g).tilthLog = s.tilthLog := rfl
@[simp] theorem modWorld_balance (g : World → World) : (modWorld s g).balance = s.balance := rfl
@[simp] theorem modWorld_dram (g : World → World) : (modWorld s g).dram = s.dram := rfl
@[simp] theorem modWorld_mem (g : World → World) : (modWorld s g).mem = s.mem := rfl
@[simp] theorem modWorld_hap (g : World → World) : (modWorld s g).hap = s.hap := rfl
@[simp] theorem modWorld_panels (g : World → World) : (modWorld s g).panels = s.panels := rfl
@[simp] theorem modWorld_snd (g : World → World) : (modWorld s g).snd = s.snd := rfl
@[simp] theorem modWorld_fab (g : World → World) : (modWorld s g).fab = s.fab := rfl
@[simp] theorem modWorld_pins (g : World → World) : (modWorld s g).pins = s.pins := rfl
@[simp] theorem modWorld_islTime (g : World → World) : (modWorld s g).islTime = s.islTime := rfl
@[simp] theorem modWorld_rateStop (g : World → World) : (modWorld s g).rateStop = s.rateStop := rfl
@[simp] theorem modWorld_migs (g : World → World) : (modWorld s g).migs = s.migs := rfl
@[simp] theorem modWorld_bodies (g : World → World) : (modWorld s g).bodies = s.bodies := rfl
@[simp] theorem modWorld_badStored (g : World → World) : (modWorld s g).badStored = s.badStored := rfl
@[simp] theorem modWorld_power (g : World → World) : (modWorld s g).power = s.power := rfl
@[simp] theorem modWorld_refuseLog (g : World → World) : (modWorld s g).refuseLog = s.refuseLog := rfl
@[simp] theorem modWorld_grog (g : World → World) : (modWorld s g).grog = s.grog := rfl
@[simp] theorem modWorld_engineGen (g : World → World) : (modWorld s g).engineGen = s.engineGen := rfl
@[simp] theorem modWorld_kram (g : World → World) : (modWorld s g).kram = s.kram := rfl
@[simp] theorem modWorld_kold (g : World → World) : (modWorld s g).kold = s.kold := rfl

@[simp] theorem modSnd_pending (g : Snd → Snd) : (modSnd s g).pending = s.pending := rfl
@[simp] theorem modSnd_now (g : Snd → Snd) : (modSnd s g).now = s.now := rfl
@[simp] theorem modSnd_fresh (g : Snd → Snd) : (modSnd s g).fresh = s.fresh := rfl
@[simp] theorem modSnd_objs (g : Snd → Snd) : (modSnd s g).objs = s.objs := rfl
@[simp] theorem modSnd_mram (g : Snd → Snd) : (modSnd s g).mram = s.mram := rfl
@[simp] theorem modSnd_defaultsDue (g : Snd → Snd) : (modSnd s g).defaultsDue = s.defaultsDue := rfl
@[simp] theorem modSnd_votes (g : Snd → Snd) : (modSnd s g).votes = s.votes := rfl
@[simp] theorem modSnd_voteSecond (g : Snd → Snd) : (modSnd s g).voteSecond = s.voteSecond := rfl
@[simp] theorem modSnd_host (g : Snd → Snd) : (modSnd s g).host = s.host := rfl
@[simp] theorem modSnd_funcs (g : Snd → Snd) : (modSnd s g).funcs = s.funcs := rfl
@[simp] theorem modSnd_sess (g : Snd → Snd) : (modSnd s g).sess = s.sess := rfl
@[simp] theorem modSnd_freeSlots (g : Snd → Snd) : (modSnd s g).freeSlots = s.freeSlots := rfl
@[simp] theorem modSnd_resp (g : Snd → Snd) : (modSnd s g).resp = s.resp := rfl
@[simp] theorem modSnd_twResp (g : Snd → Snd) : (modSnd s g).twResp = s.twResp := rfl
@[simp] theorem modSnd_portals (g : Snd → Snd) : (modSnd s g).portals = s.portals := rfl
@[simp] theorem modSnd_can (g : Snd → Snd) : (modSnd s g).can = s.can := rfl
@[simp] theorem modSnd_frames (g : Snd → Snd) : (modSnd s g).frames = s.frames := rfl
@[simp] theorem modSnd_frameSent (g : Snd → Snd) : (modSnd s g).frameSent = s.frameSent := rfl
@[simp] theorem modSnd_served (g : Snd → Snd) : (modSnd s g).served = s.served := rfl
@[simp] theorem modSnd_transit (g : Snd → Snd) : (modSnd s g).transit = s.transit := rfl
@[simp] theorem modSnd_ehrica (g : Snd → Snd) : (modSnd s g).ehrica = s.ehrica := rfl
@[simp] theorem modSnd_rings (g : Snd → Snd) : (modSnd s g).rings = s.rings := rfl
@[simp] theorem modSnd_signals (g : Snd → Snd) : (modSnd s g).signals = s.signals := rfl
@[simp] theorem modSnd_fenceGen (g : Snd → Snd) : (modSnd s g).fenceGen = s.fenceGen := rfl
@[simp] theorem modSnd_ctxs (g : Snd → Snd) : (modSnd s g).ctxs = s.ctxs := rfl
@[simp] theorem modSnd_cores (g : Snd → Snd) : (modSnd s g).cores = s.cores := rfl
@[simp] theorem modSnd_progs (g : Snd → Snd) : (modSnd s g).progs = s.progs := rfl
@[simp] theorem modSnd_ports (g : Snd → Snd) : (modSnd s g).ports = s.ports := rfl
@[simp] theorem modSnd_commits (g : Snd → Snd) : (modSnd s g).commits = s.commits := rfl
@[simp] theorem modSnd_surfs (g : Snd → Snd) : (modSnd s g).surfs = s.surfs := rfl
@[simp] theorem modSnd_scrubs (g : Snd → Snd) : (modSnd s g).scrubs = s.scrubs := rfl
@[simp] theorem modSnd_tilthLog (g : Snd → Snd) : (modSnd s g).tilthLog = s.tilthLog := rfl
@[simp] theorem modSnd_balance (g : Snd → Snd) : (modSnd s g).balance = s.balance := rfl
@[simp] theorem modSnd_dram (g : Snd → Snd) : (modSnd s g).dram = s.dram := rfl
@[simp] theorem modSnd_mem (g : Snd → Snd) : (modSnd s g).mem = s.mem := rfl
@[simp] theorem modSnd_hap (g : Snd → Snd) : (modSnd s g).hap = s.hap := rfl
@[simp] theorem modSnd_panels (g : Snd → Snd) : (modSnd s g).panels = s.panels := rfl
@[simp] theorem modSnd_fab (g : Snd → Snd) : (modSnd s g).fab = s.fab := rfl
@[simp] theorem modSnd_world (g : Snd → Snd) : (modSnd s g).world = s.world := rfl
@[simp] theorem modSnd_pins (g : Snd → Snd) : (modSnd s g).pins = s.pins := rfl
@[simp] theorem modSnd_islTime (g : Snd → Snd) : (modSnd s g).islTime = s.islTime := rfl
@[simp] theorem modSnd_rateStop (g : Snd → Snd) : (modSnd s g).rateStop = s.rateStop := rfl
@[simp] theorem modSnd_migs (g : Snd → Snd) : (modSnd s g).migs = s.migs := rfl
@[simp] theorem modSnd_bodies (g : Snd → Snd) : (modSnd s g).bodies = s.bodies := rfl
@[simp] theorem modSnd_badStored (g : Snd → Snd) : (modSnd s g).badStored = s.badStored := rfl
@[simp] theorem modSnd_power (g : Snd → Snd) : (modSnd s g).power = s.power := rfl
@[simp] theorem modSnd_refuseLog (g : Snd → Snd) : (modSnd s g).refuseLog = s.refuseLog := rfl
@[simp] theorem modSnd_grog (g : Snd → Snd) : (modSnd s g).grog = s.grog := rfl
@[simp] theorem modSnd_engineGen (g : Snd → Snd) : (modSnd s g).engineGen = s.engineGen := rfl
@[simp] theorem modSnd_kram (g : Snd → Snd) : (modSnd s g).kram = s.kram := rfl
@[simp] theorem modSnd_kold (g : Snd → Snd) : (modSnd s g).kold = s.kold := rfl

@[simp] theorem modFab_pending (g : Fab → Fab) : (modFab s g).pending = s.pending := rfl
@[simp] theorem modFab_now (g : Fab → Fab) : (modFab s g).now = s.now := rfl
@[simp] theorem modFab_fresh (g : Fab → Fab) : (modFab s g).fresh = s.fresh := rfl
@[simp] theorem modFab_objs (g : Fab → Fab) : (modFab s g).objs = s.objs := rfl
@[simp] theorem modFab_mram (g : Fab → Fab) : (modFab s g).mram = s.mram := rfl
@[simp] theorem modFab_defaultsDue (g : Fab → Fab) : (modFab s g).defaultsDue = s.defaultsDue := rfl
@[simp] theorem modFab_votes (g : Fab → Fab) : (modFab s g).votes = s.votes := rfl
@[simp] theorem modFab_voteSecond (g : Fab → Fab) : (modFab s g).voteSecond = s.voteSecond := rfl
@[simp] theorem modFab_host (g : Fab → Fab) : (modFab s g).host = s.host := rfl
@[simp] theorem modFab_funcs (g : Fab → Fab) : (modFab s g).funcs = s.funcs := rfl
@[simp] theorem modFab_sess (g : Fab → Fab) : (modFab s g).sess = s.sess := rfl
@[simp] theorem modFab_freeSlots (g : Fab → Fab) : (modFab s g).freeSlots = s.freeSlots := rfl
@[simp] theorem modFab_resp (g : Fab → Fab) : (modFab s g).resp = s.resp := rfl
@[simp] theorem modFab_twResp (g : Fab → Fab) : (modFab s g).twResp = s.twResp := rfl
@[simp] theorem modFab_portals (g : Fab → Fab) : (modFab s g).portals = s.portals := rfl
@[simp] theorem modFab_can (g : Fab → Fab) : (modFab s g).can = s.can := rfl
@[simp] theorem modFab_frames (g : Fab → Fab) : (modFab s g).frames = s.frames := rfl
@[simp] theorem modFab_frameSent (g : Fab → Fab) : (modFab s g).frameSent = s.frameSent := rfl
@[simp] theorem modFab_served (g : Fab → Fab) : (modFab s g).served = s.served := rfl
@[simp] theorem modFab_transit (g : Fab → Fab) : (modFab s g).transit = s.transit := rfl
@[simp] theorem modFab_ehrica (g : Fab → Fab) : (modFab s g).ehrica = s.ehrica := rfl
@[simp] theorem modFab_rings (g : Fab → Fab) : (modFab s g).rings = s.rings := rfl
@[simp] theorem modFab_signals (g : Fab → Fab) : (modFab s g).signals = s.signals := rfl
@[simp] theorem modFab_fenceGen (g : Fab → Fab) : (modFab s g).fenceGen = s.fenceGen := rfl
@[simp] theorem modFab_ctxs (g : Fab → Fab) : (modFab s g).ctxs = s.ctxs := rfl
@[simp] theorem modFab_cores (g : Fab → Fab) : (modFab s g).cores = s.cores := rfl
@[simp] theorem modFab_progs (g : Fab → Fab) : (modFab s g).progs = s.progs := rfl
@[simp] theorem modFab_ports (g : Fab → Fab) : (modFab s g).ports = s.ports := rfl
@[simp] theorem modFab_commits (g : Fab → Fab) : (modFab s g).commits = s.commits := rfl
@[simp] theorem modFab_surfs (g : Fab → Fab) : (modFab s g).surfs = s.surfs := rfl
@[simp] theorem modFab_scrubs (g : Fab → Fab) : (modFab s g).scrubs = s.scrubs := rfl
@[simp] theorem modFab_tilthLog (g : Fab → Fab) : (modFab s g).tilthLog = s.tilthLog := rfl
@[simp] theorem modFab_balance (g : Fab → Fab) : (modFab s g).balance = s.balance := rfl
@[simp] theorem modFab_dram (g : Fab → Fab) : (modFab s g).dram = s.dram := rfl
@[simp] theorem modFab_mem (g : Fab → Fab) : (modFab s g).mem = s.mem := rfl
@[simp] theorem modFab_hap (g : Fab → Fab) : (modFab s g).hap = s.hap := rfl
@[simp] theorem modFab_panels (g : Fab → Fab) : (modFab s g).panels = s.panels := rfl
@[simp] theorem modFab_snd (g : Fab → Fab) : (modFab s g).snd = s.snd := rfl
@[simp] theorem modFab_world (g : Fab → Fab) : (modFab s g).world = s.world := rfl
@[simp] theorem modFab_pins (g : Fab → Fab) : (modFab s g).pins = s.pins := rfl
@[simp] theorem modFab_islTime (g : Fab → Fab) : (modFab s g).islTime = s.islTime := rfl
@[simp] theorem modFab_rateStop (g : Fab → Fab) : (modFab s g).rateStop = s.rateStop := rfl
@[simp] theorem modFab_migs (g : Fab → Fab) : (modFab s g).migs = s.migs := rfl
@[simp] theorem modFab_bodies (g : Fab → Fab) : (modFab s g).bodies = s.bodies := rfl
@[simp] theorem modFab_badStored (g : Fab → Fab) : (modFab s g).badStored = s.badStored := rfl
@[simp] theorem modFab_power (g : Fab → Fab) : (modFab s g).power = s.power := rfl
@[simp] theorem modFab_refuseLog (g : Fab → Fab) : (modFab s g).refuseLog = s.refuseLog := rfl
@[simp] theorem modFab_grog (g : Fab → Fab) : (modFab s g).grog = s.grog := rfl
@[simp] theorem modFab_engineGen (g : Fab → Fab) : (modFab s g).engineGen = s.engineGen := rfl
@[simp] theorem modFab_kram (g : Fab → Fab) : (modFab s g).kram = s.kram := rfl
@[simp] theorem modFab_kold (g : Fab → Fab) : (modFab s g).kold = s.kold := rfl

@[simp] theorem modChan_pending (i : Nat) (g : Chan → Chan) : (modChan s i g).pending = s.pending := rfl
@[simp] theorem modChan_now (i : Nat) (g : Chan → Chan) : (modChan s i g).now = s.now := rfl
@[simp] theorem modChan_fresh (i : Nat) (g : Chan → Chan) : (modChan s i g).fresh = s.fresh := rfl
@[simp] theorem modChan_objs (i : Nat) (g : Chan → Chan) : (modChan s i g).objs = s.objs := rfl
@[simp] theorem modChan_mram (i : Nat) (g : Chan → Chan) : (modChan s i g).mram = s.mram := rfl
@[simp] theorem modChan_defaultsDue (i : Nat) (g : Chan → Chan) : (modChan s i g).defaultsDue = s.defaultsDue := rfl
@[simp] theorem modChan_votes (i : Nat) (g : Chan → Chan) : (modChan s i g).votes = s.votes := rfl
@[simp] theorem modChan_voteSecond (i : Nat) (g : Chan → Chan) : (modChan s i g).voteSecond = s.voteSecond := rfl
@[simp] theorem modChan_host (i : Nat) (g : Chan → Chan) : (modChan s i g).host = s.host := rfl
@[simp] theorem modChan_funcs (i : Nat) (g : Chan → Chan) : (modChan s i g).funcs = s.funcs := rfl
@[simp] theorem modChan_sess (i : Nat) (g : Chan → Chan) : (modChan s i g).sess = s.sess := rfl
@[simp] theorem modChan_freeSlots (i : Nat) (g : Chan → Chan) : (modChan s i g).freeSlots = s.freeSlots := rfl
@[simp] theorem modChan_resp (i : Nat) (g : Chan → Chan) : (modChan s i g).resp = s.resp := rfl
@[simp] theorem modChan_twResp (i : Nat) (g : Chan → Chan) : (modChan s i g).twResp = s.twResp := rfl
@[simp] theorem modChan_portals (i : Nat) (g : Chan → Chan) : (modChan s i g).portals = s.portals := rfl
@[simp] theorem modChan_can (i : Nat) (g : Chan → Chan) : (modChan s i g).can = s.can := rfl
@[simp] theorem modChan_frames (i : Nat) (g : Chan → Chan) : (modChan s i g).frames = s.frames := rfl
@[simp] theorem modChan_frameSent (i : Nat) (g : Chan → Chan) : (modChan s i g).frameSent = s.frameSent := rfl
@[simp] theorem modChan_served (i : Nat) (g : Chan → Chan) : (modChan s i g).served = s.served := rfl
@[simp] theorem modChan_transit (i : Nat) (g : Chan → Chan) : (modChan s i g).transit = s.transit := rfl
@[simp] theorem modChan_ehrica (i : Nat) (g : Chan → Chan) : (modChan s i g).ehrica = s.ehrica := rfl
@[simp] theorem modChan_rings (i : Nat) (g : Chan → Chan) : (modChan s i g).rings = s.rings := rfl
@[simp] theorem modChan_signals (i : Nat) (g : Chan → Chan) : (modChan s i g).signals = s.signals := rfl
@[simp] theorem modChan_fenceGen (i : Nat) (g : Chan → Chan) : (modChan s i g).fenceGen = s.fenceGen := rfl
@[simp] theorem modChan_ctxs (i : Nat) (g : Chan → Chan) : (modChan s i g).ctxs = s.ctxs := rfl
@[simp] theorem modChan_cores (i : Nat) (g : Chan → Chan) : (modChan s i g).cores = s.cores := rfl
@[simp] theorem modChan_progs (i : Nat) (g : Chan → Chan) : (modChan s i g).progs = s.progs := rfl
@[simp] theorem modChan_ports (i : Nat) (g : Chan → Chan) : (modChan s i g).ports = s.ports := rfl
@[simp] theorem modChan_commits (i : Nat) (g : Chan → Chan) : (modChan s i g).commits = s.commits := rfl
@[simp] theorem modChan_surfs (i : Nat) (g : Chan → Chan) : (modChan s i g).surfs = s.surfs := rfl
@[simp] theorem modChan_scrubs (i : Nat) (g : Chan → Chan) : (modChan s i g).scrubs = s.scrubs := rfl
@[simp] theorem modChan_tilthLog (i : Nat) (g : Chan → Chan) : (modChan s i g).tilthLog = s.tilthLog := rfl
@[simp] theorem modChan_balance (i : Nat) (g : Chan → Chan) : (modChan s i g).balance = s.balance := rfl
@[simp] theorem modChan_dram (i : Nat) (g : Chan → Chan) : (modChan s i g).dram = s.dram := rfl
@[simp] theorem modChan_mem (i : Nat) (g : Chan → Chan) : (modChan s i g).mem = s.mem := rfl
@[simp] theorem modChan_panels (i : Nat) (g : Chan → Chan) : (modChan s i g).panels = s.panels := rfl
@[simp] theorem modChan_snd (i : Nat) (g : Chan → Chan) : (modChan s i g).snd = s.snd := rfl
@[simp] theorem modChan_fab (i : Nat) (g : Chan → Chan) : (modChan s i g).fab = s.fab := rfl
@[simp] theorem modChan_world (i : Nat) (g : Chan → Chan) : (modChan s i g).world = s.world := rfl
@[simp] theorem modChan_pins (i : Nat) (g : Chan → Chan) : (modChan s i g).pins = s.pins := rfl
@[simp] theorem modChan_islTime (i : Nat) (g : Chan → Chan) : (modChan s i g).islTime = s.islTime := rfl
@[simp] theorem modChan_rateStop (i : Nat) (g : Chan → Chan) : (modChan s i g).rateStop = s.rateStop := rfl
@[simp] theorem modChan_migs (i : Nat) (g : Chan → Chan) : (modChan s i g).migs = s.migs := rfl
@[simp] theorem modChan_bodies (i : Nat) (g : Chan → Chan) : (modChan s i g).bodies = s.bodies := rfl
@[simp] theorem modChan_badStored (i : Nat) (g : Chan → Chan) : (modChan s i g).badStored = s.badStored := rfl
@[simp] theorem modChan_power (i : Nat) (g : Chan → Chan) : (modChan s i g).power = s.power := rfl
@[simp] theorem modChan_refuseLog (i : Nat) (g : Chan → Chan) : (modChan s i g).refuseLog = s.refuseLog := rfl
@[simp] theorem modChan_grog (i : Nat) (g : Chan → Chan) : (modChan s i g).grog = s.grog := rfl
@[simp] theorem modChan_engineGen (i : Nat) (g : Chan → Chan) : (modChan s i g).engineGen = s.engineGen := rfl
@[simp] theorem modChan_kram (i : Nat) (g : Chan → Chan) : (modChan s i g).kram = s.kram := rfl
@[simp] theorem modChan_kold (i : Nat) (g : Chan → Chan) : (modChan s i g).kold = s.kold := rfl

@[simp] theorem modPanel_pending (i : Nat) (g : Panel → Panel) : (modPanel s i g).pending = s.pending := rfl
@[simp] theorem modPanel_now (i : Nat) (g : Panel → Panel) : (modPanel s i g).now = s.now := rfl
@[simp] theorem modPanel_fresh (i : Nat) (g : Panel → Panel) : (modPanel s i g).fresh = s.fresh := rfl
@[simp] theorem modPanel_objs (i : Nat) (g : Panel → Panel) : (modPanel s i g).objs = s.objs := rfl
@[simp] theorem modPanel_mram (i : Nat) (g : Panel → Panel) : (modPanel s i g).mram = s.mram := rfl
@[simp] theorem modPanel_defaultsDue (i : Nat) (g : Panel → Panel) : (modPanel s i g).defaultsDue = s.defaultsDue := rfl
@[simp] theorem modPanel_votes (i : Nat) (g : Panel → Panel) : (modPanel s i g).votes = s.votes := rfl
@[simp] theorem modPanel_voteSecond (i : Nat) (g : Panel → Panel) : (modPanel s i g).voteSecond = s.voteSecond := rfl
@[simp] theorem modPanel_host (i : Nat) (g : Panel → Panel) : (modPanel s i g).host = s.host := rfl
@[simp] theorem modPanel_funcs (i : Nat) (g : Panel → Panel) : (modPanel s i g).funcs = s.funcs := rfl
@[simp] theorem modPanel_sess (i : Nat) (g : Panel → Panel) : (modPanel s i g).sess = s.sess := rfl
@[simp] theorem modPanel_freeSlots (i : Nat) (g : Panel → Panel) : (modPanel s i g).freeSlots = s.freeSlots := rfl
@[simp] theorem modPanel_resp (i : Nat) (g : Panel → Panel) : (modPanel s i g).resp = s.resp := rfl
@[simp] theorem modPanel_twResp (i : Nat) (g : Panel → Panel) : (modPanel s i g).twResp = s.twResp := rfl
@[simp] theorem modPanel_portals (i : Nat) (g : Panel → Panel) : (modPanel s i g).portals = s.portals := rfl
@[simp] theorem modPanel_can (i : Nat) (g : Panel → Panel) : (modPanel s i g).can = s.can := rfl
@[simp] theorem modPanel_frames (i : Nat) (g : Panel → Panel) : (modPanel s i g).frames = s.frames := rfl
@[simp] theorem modPanel_frameSent (i : Nat) (g : Panel → Panel) : (modPanel s i g).frameSent = s.frameSent := rfl
@[simp] theorem modPanel_served (i : Nat) (g : Panel → Panel) : (modPanel s i g).served = s.served := rfl
@[simp] theorem modPanel_transit (i : Nat) (g : Panel → Panel) : (modPanel s i g).transit = s.transit := rfl
@[simp] theorem modPanel_ehrica (i : Nat) (g : Panel → Panel) : (modPanel s i g).ehrica = s.ehrica := rfl
@[simp] theorem modPanel_rings (i : Nat) (g : Panel → Panel) : (modPanel s i g).rings = s.rings := rfl
@[simp] theorem modPanel_signals (i : Nat) (g : Panel → Panel) : (modPanel s i g).signals = s.signals := rfl
@[simp] theorem modPanel_fenceGen (i : Nat) (g : Panel → Panel) : (modPanel s i g).fenceGen = s.fenceGen := rfl
@[simp] theorem modPanel_ctxs (i : Nat) (g : Panel → Panel) : (modPanel s i g).ctxs = s.ctxs := rfl
@[simp] theorem modPanel_cores (i : Nat) (g : Panel → Panel) : (modPanel s i g).cores = s.cores := rfl
@[simp] theorem modPanel_progs (i : Nat) (g : Panel → Panel) : (modPanel s i g).progs = s.progs := rfl
@[simp] theorem modPanel_ports (i : Nat) (g : Panel → Panel) : (modPanel s i g).ports = s.ports := rfl
@[simp] theorem modPanel_commits (i : Nat) (g : Panel → Panel) : (modPanel s i g).commits = s.commits := rfl
@[simp] theorem modPanel_surfs (i : Nat) (g : Panel → Panel) : (modPanel s i g).surfs = s.surfs := rfl
@[simp] theorem modPanel_scrubs (i : Nat) (g : Panel → Panel) : (modPanel s i g).scrubs = s.scrubs := rfl
@[simp] theorem modPanel_tilthLog (i : Nat) (g : Panel → Panel) : (modPanel s i g).tilthLog = s.tilthLog := rfl
@[simp] theorem modPanel_balance (i : Nat) (g : Panel → Panel) : (modPanel s i g).balance = s.balance := rfl
@[simp] theorem modPanel_dram (i : Nat) (g : Panel → Panel) : (modPanel s i g).dram = s.dram := rfl
@[simp] theorem modPanel_mem (i : Nat) (g : Panel → Panel) : (modPanel s i g).mem = s.mem := rfl
@[simp] theorem modPanel_hap (i : Nat) (g : Panel → Panel) : (modPanel s i g).hap = s.hap := rfl
@[simp] theorem modPanel_snd (i : Nat) (g : Panel → Panel) : (modPanel s i g).snd = s.snd := rfl
@[simp] theorem modPanel_fab (i : Nat) (g : Panel → Panel) : (modPanel s i g).fab = s.fab := rfl
@[simp] theorem modPanel_world (i : Nat) (g : Panel → Panel) : (modPanel s i g).world = s.world := rfl
@[simp] theorem modPanel_pins (i : Nat) (g : Panel → Panel) : (modPanel s i g).pins = s.pins := rfl
@[simp] theorem modPanel_islTime (i : Nat) (g : Panel → Panel) : (modPanel s i g).islTime = s.islTime := rfl
@[simp] theorem modPanel_rateStop (i : Nat) (g : Panel → Panel) : (modPanel s i g).rateStop = s.rateStop := rfl
@[simp] theorem modPanel_migs (i : Nat) (g : Panel → Panel) : (modPanel s i g).migs = s.migs := rfl
@[simp] theorem modPanel_bodies (i : Nat) (g : Panel → Panel) : (modPanel s i g).bodies = s.bodies := rfl
@[simp] theorem modPanel_badStored (i : Nat) (g : Panel → Panel) : (modPanel s i g).badStored = s.badStored := rfl
@[simp] theorem modPanel_power (i : Nat) (g : Panel → Panel) : (modPanel s i g).power = s.power := rfl
@[simp] theorem modPanel_refuseLog (i : Nat) (g : Panel → Panel) : (modPanel s i g).refuseLog = s.refuseLog := rfl
@[simp] theorem modPanel_grog (i : Nat) (g : Panel → Panel) : (modPanel s i g).grog = s.grog := rfl
@[simp] theorem modPanel_engineGen (i : Nat) (g : Panel → Panel) : (modPanel s i g).engineGen = s.engineGen := rfl
@[simp] theorem modPanel_kram (i : Nat) (g : Panel → Panel) : (modPanel s i g).kram = s.kram := rfl
@[simp] theorem modPanel_kold (i : Nat) (g : Panel → Panel) : (modPanel s i g).kold = s.kold := rfl

@[simp] theorem modPin_pending (i : Nat) (g : Pin → Pin) : (modPin s i g).pending = s.pending := rfl
@[simp] theorem modPin_now (i : Nat) (g : Pin → Pin) : (modPin s i g).now = s.now := rfl
@[simp] theorem modPin_fresh (i : Nat) (g : Pin → Pin) : (modPin s i g).fresh = s.fresh := rfl
@[simp] theorem modPin_objs (i : Nat) (g : Pin → Pin) : (modPin s i g).objs = s.objs := rfl
@[simp] theorem modPin_mram (i : Nat) (g : Pin → Pin) : (modPin s i g).mram = s.mram := rfl
@[simp] theorem modPin_defaultsDue (i : Nat) (g : Pin → Pin) : (modPin s i g).defaultsDue = s.defaultsDue := rfl
@[simp] theorem modPin_votes (i : Nat) (g : Pin → Pin) : (modPin s i g).votes = s.votes := rfl
@[simp] theorem modPin_voteSecond (i : Nat) (g : Pin → Pin) : (modPin s i g).voteSecond = s.voteSecond := rfl
@[simp] theorem modPin_host (i : Nat) (g : Pin → Pin) : (modPin s i g).host = s.host := rfl
@[simp] theorem modPin_funcs (i : Nat) (g : Pin → Pin) : (modPin s i g).funcs = s.funcs := rfl
@[simp] theorem modPin_sess (i : Nat) (g : Pin → Pin) : (modPin s i g).sess = s.sess := rfl
@[simp] theorem modPin_freeSlots (i : Nat) (g : Pin → Pin) : (modPin s i g).freeSlots = s.freeSlots := rfl
@[simp] theorem modPin_resp (i : Nat) (g : Pin → Pin) : (modPin s i g).resp = s.resp := rfl
@[simp] theorem modPin_twResp (i : Nat) (g : Pin → Pin) : (modPin s i g).twResp = s.twResp := rfl
@[simp] theorem modPin_portals (i : Nat) (g : Pin → Pin) : (modPin s i g).portals = s.portals := rfl
@[simp] theorem modPin_can (i : Nat) (g : Pin → Pin) : (modPin s i g).can = s.can := rfl
@[simp] theorem modPin_frames (i : Nat) (g : Pin → Pin) : (modPin s i g).frames = s.frames := rfl
@[simp] theorem modPin_frameSent (i : Nat) (g : Pin → Pin) : (modPin s i g).frameSent = s.frameSent := rfl
@[simp] theorem modPin_served (i : Nat) (g : Pin → Pin) : (modPin s i g).served = s.served := rfl
@[simp] theorem modPin_transit (i : Nat) (g : Pin → Pin) : (modPin s i g).transit = s.transit := rfl
@[simp] theorem modPin_ehrica (i : Nat) (g : Pin → Pin) : (modPin s i g).ehrica = s.ehrica := rfl
@[simp] theorem modPin_rings (i : Nat) (g : Pin → Pin) : (modPin s i g).rings = s.rings := rfl
@[simp] theorem modPin_signals (i : Nat) (g : Pin → Pin) : (modPin s i g).signals = s.signals := rfl
@[simp] theorem modPin_fenceGen (i : Nat) (g : Pin → Pin) : (modPin s i g).fenceGen = s.fenceGen := rfl
@[simp] theorem modPin_ctxs (i : Nat) (g : Pin → Pin) : (modPin s i g).ctxs = s.ctxs := rfl
@[simp] theorem modPin_cores (i : Nat) (g : Pin → Pin) : (modPin s i g).cores = s.cores := rfl
@[simp] theorem modPin_progs (i : Nat) (g : Pin → Pin) : (modPin s i g).progs = s.progs := rfl
@[simp] theorem modPin_ports (i : Nat) (g : Pin → Pin) : (modPin s i g).ports = s.ports := rfl
@[simp] theorem modPin_commits (i : Nat) (g : Pin → Pin) : (modPin s i g).commits = s.commits := rfl
@[simp] theorem modPin_surfs (i : Nat) (g : Pin → Pin) : (modPin s i g).surfs = s.surfs := rfl
@[simp] theorem modPin_scrubs (i : Nat) (g : Pin → Pin) : (modPin s i g).scrubs = s.scrubs := rfl
@[simp] theorem modPin_tilthLog (i : Nat) (g : Pin → Pin) : (modPin s i g).tilthLog = s.tilthLog := rfl
@[simp] theorem modPin_balance (i : Nat) (g : Pin → Pin) : (modPin s i g).balance = s.balance := rfl
@[simp] theorem modPin_dram (i : Nat) (g : Pin → Pin) : (modPin s i g).dram = s.dram := rfl
@[simp] theorem modPin_mem (i : Nat) (g : Pin → Pin) : (modPin s i g).mem = s.mem := rfl
@[simp] theorem modPin_hap (i : Nat) (g : Pin → Pin) : (modPin s i g).hap = s.hap := rfl
@[simp] theorem modPin_panels (i : Nat) (g : Pin → Pin) : (modPin s i g).panels = s.panels := rfl
@[simp] theorem modPin_snd (i : Nat) (g : Pin → Pin) : (modPin s i g).snd = s.snd := rfl
@[simp] theorem modPin_fab (i : Nat) (g : Pin → Pin) : (modPin s i g).fab = s.fab := rfl
@[simp] theorem modPin_world (i : Nat) (g : Pin → Pin) : (modPin s i g).world = s.world := rfl
@[simp] theorem modPin_islTime (i : Nat) (g : Pin → Pin) : (modPin s i g).islTime = s.islTime := rfl
@[simp] theorem modPin_rateStop (i : Nat) (g : Pin → Pin) : (modPin s i g).rateStop = s.rateStop := rfl
@[simp] theorem modPin_migs (i : Nat) (g : Pin → Pin) : (modPin s i g).migs = s.migs := rfl
@[simp] theorem modPin_bodies (i : Nat) (g : Pin → Pin) : (modPin s i g).bodies = s.bodies := rfl
@[simp] theorem modPin_badStored (i : Nat) (g : Pin → Pin) : (modPin s i g).badStored = s.badStored := rfl
@[simp] theorem modPin_power (i : Nat) (g : Pin → Pin) : (modPin s i g).power = s.power := rfl
@[simp] theorem modPin_refuseLog (i : Nat) (g : Pin → Pin) : (modPin s i g).refuseLog = s.refuseLog := rfl
@[simp] theorem modPin_grog (i : Nat) (g : Pin → Pin) : (modPin s i g).grog = s.grog := rfl
@[simp] theorem modPin_engineGen (i : Nat) (g : Pin → Pin) : (modPin s i g).engineGen = s.engineGen := rfl
@[simp] theorem modPin_kram (i : Nat) (g : Pin → Pin) : (modPin s i g).kram = s.kram := rfl
@[simp] theorem modPin_kold (i : Nat) (g : Pin → Pin) : (modPin s i g).kold = s.kold := rfl

@[simp] theorem modPortal_pending (i : Nat) (g : Portal → Portal) : (modPortal s i g).pending = s.pending := rfl
@[simp] theorem modPortal_now (i : Nat) (g : Portal → Portal) : (modPortal s i g).now = s.now := rfl
@[simp] theorem modPortal_fresh (i : Nat) (g : Portal → Portal) : (modPortal s i g).fresh = s.fresh := rfl
@[simp] theorem modPortal_objs (i : Nat) (g : Portal → Portal) : (modPortal s i g).objs = s.objs := rfl
@[simp] theorem modPortal_mram (i : Nat) (g : Portal → Portal) : (modPortal s i g).mram = s.mram := rfl
@[simp] theorem modPortal_defaultsDue (i : Nat) (g : Portal → Portal) : (modPortal s i g).defaultsDue = s.defaultsDue := rfl
@[simp] theorem modPortal_votes (i : Nat) (g : Portal → Portal) : (modPortal s i g).votes = s.votes := rfl
@[simp] theorem modPortal_voteSecond (i : Nat) (g : Portal → Portal) : (modPortal s i g).voteSecond = s.voteSecond := rfl
@[simp] theorem modPortal_host (i : Nat) (g : Portal → Portal) : (modPortal s i g).host = s.host := rfl
@[simp] theorem modPortal_funcs (i : Nat) (g : Portal → Portal) : (modPortal s i g).funcs = s.funcs := rfl
@[simp] theorem modPortal_sess (i : Nat) (g : Portal → Portal) : (modPortal s i g).sess = s.sess := rfl
@[simp] theorem modPortal_freeSlots (i : Nat) (g : Portal → Portal) : (modPortal s i g).freeSlots = s.freeSlots := rfl
@[simp] theorem modPortal_resp (i : Nat) (g : Portal → Portal) : (modPortal s i g).resp = s.resp := rfl
@[simp] theorem modPortal_twResp (i : Nat) (g : Portal → Portal) : (modPortal s i g).twResp = s.twResp := rfl
@[simp] theorem modPortal_can (i : Nat) (g : Portal → Portal) : (modPortal s i g).can = s.can := rfl
@[simp] theorem modPortal_frames (i : Nat) (g : Portal → Portal) : (modPortal s i g).frames = s.frames := rfl
@[simp] theorem modPortal_frameSent (i : Nat) (g : Portal → Portal) : (modPortal s i g).frameSent = s.frameSent := rfl
@[simp] theorem modPortal_served (i : Nat) (g : Portal → Portal) : (modPortal s i g).served = s.served := rfl
@[simp] theorem modPortal_transit (i : Nat) (g : Portal → Portal) : (modPortal s i g).transit = s.transit := rfl
@[simp] theorem modPortal_ehrica (i : Nat) (g : Portal → Portal) : (modPortal s i g).ehrica = s.ehrica := rfl
@[simp] theorem modPortal_rings (i : Nat) (g : Portal → Portal) : (modPortal s i g).rings = s.rings := rfl
@[simp] theorem modPortal_signals (i : Nat) (g : Portal → Portal) : (modPortal s i g).signals = s.signals := rfl
@[simp] theorem modPortal_fenceGen (i : Nat) (g : Portal → Portal) : (modPortal s i g).fenceGen = s.fenceGen := rfl
@[simp] theorem modPortal_ctxs (i : Nat) (g : Portal → Portal) : (modPortal s i g).ctxs = s.ctxs := rfl
@[simp] theorem modPortal_cores (i : Nat) (g : Portal → Portal) : (modPortal s i g).cores = s.cores := rfl
@[simp] theorem modPortal_progs (i : Nat) (g : Portal → Portal) : (modPortal s i g).progs = s.progs := rfl
@[simp] theorem modPortal_ports (i : Nat) (g : Portal → Portal) : (modPortal s i g).ports = s.ports := rfl
@[simp] theorem modPortal_commits (i : Nat) (g : Portal → Portal) : (modPortal s i g).commits = s.commits := rfl
@[simp] theorem modPortal_surfs (i : Nat) (g : Portal → Portal) : (modPortal s i g).surfs = s.surfs := rfl
@[simp] theorem modPortal_scrubs (i : Nat) (g : Portal → Portal) : (modPortal s i g).scrubs = s.scrubs := rfl
@[simp] theorem modPortal_tilthLog (i : Nat) (g : Portal → Portal) : (modPortal s i g).tilthLog = s.tilthLog := rfl
@[simp] theorem modPortal_balance (i : Nat) (g : Portal → Portal) : (modPortal s i g).balance = s.balance := rfl
@[simp] theorem modPortal_dram (i : Nat) (g : Portal → Portal) : (modPortal s i g).dram = s.dram := rfl
@[simp] theorem modPortal_mem (i : Nat) (g : Portal → Portal) : (modPortal s i g).mem = s.mem := rfl
@[simp] theorem modPortal_hap (i : Nat) (g : Portal → Portal) : (modPortal s i g).hap = s.hap := rfl
@[simp] theorem modPortal_panels (i : Nat) (g : Portal → Portal) : (modPortal s i g).panels = s.panels := rfl
@[simp] theorem modPortal_snd (i : Nat) (g : Portal → Portal) : (modPortal s i g).snd = s.snd := rfl
@[simp] theorem modPortal_fab (i : Nat) (g : Portal → Portal) : (modPortal s i g).fab = s.fab := rfl
@[simp] theorem modPortal_world (i : Nat) (g : Portal → Portal) : (modPortal s i g).world = s.world := rfl
@[simp] theorem modPortal_pins (i : Nat) (g : Portal → Portal) : (modPortal s i g).pins = s.pins := rfl
@[simp] theorem modPortal_islTime (i : Nat) (g : Portal → Portal) : (modPortal s i g).islTime = s.islTime := rfl
@[simp] theorem modPortal_rateStop (i : Nat) (g : Portal → Portal) : (modPortal s i g).rateStop = s.rateStop := rfl
@[simp] theorem modPortal_migs (i : Nat) (g : Portal → Portal) : (modPortal s i g).migs = s.migs := rfl
@[simp] theorem modPortal_bodies (i : Nat) (g : Portal → Portal) : (modPortal s i g).bodies = s.bodies := rfl
@[simp] theorem modPortal_badStored (i : Nat) (g : Portal → Portal) : (modPortal s i g).badStored = s.badStored := rfl
@[simp] theorem modPortal_power (i : Nat) (g : Portal → Portal) : (modPortal s i g).power = s.power := rfl
@[simp] theorem modPortal_refuseLog (i : Nat) (g : Portal → Portal) : (modPortal s i g).refuseLog = s.refuseLog := rfl
@[simp] theorem modPortal_grog (i : Nat) (g : Portal → Portal) : (modPortal s i g).grog = s.grog := rfl
@[simp] theorem modPortal_engineGen (i : Nat) (g : Portal → Portal) : (modPortal s i g).engineGen = s.engineGen := rfl
@[simp] theorem modPortal_kram (i : Nat) (g : Portal → Portal) : (modPortal s i g).kram = s.kram := rfl
@[simp] theorem modPortal_kold (i : Nat) (g : Portal → Portal) : (modPortal s i g).kold = s.kold := rfl

end Sys2Proof.Machine
end

