-- ==== Sys2Proof/Laws/Requests.lean ====
section
/-!
SUPPORT. What a dictionary request comes to: the state and the response of an admitted request, in terms of the answer that executing it
gives.
-/

namespace Sys2Proof.Machine

theorem length_leBytes (w n : Nat) : (leBytes w n).length = w := by
  induction w generalizing n with
  | zero => rfl
  | succ w ih => simp [leBytes, ih]

/-- The response PDU of an answer. -/
def responseOf (r : DictReq) (op : Nat) (a : Answer) : Response :=
  { op := op, session := r.session.toNat, seq := r.seq.toNat, status := a.status, more := a.more, aux := a.aux, payload := a.payload }

/-- The answer that executing a session's request gives. -/
def sessionAnswer (s : State) (r : DictReq) (i : Nat) (q : Request) (found : Option Nat) : Answer :=
  execRequest (renewed s i) { role := (sessOf s i).role, func := (sessOf s i).func, session := r.session.toNat, found := found }
    (some r.src) (maxPdu r.src) q

/-- The state after a session's request: its response is kept in the session, if that is still open, and in State. -/
def afterAnswer (r : DictReq) (i op : Nat) (a : Answer) : State :=
  { (if (slotOfId a.state r.session.toNat).isSome then
      modSess a.state i (fun y => { y with cache := lastN 4 (y.cache ++ [(r.seq.toNat, responseOf r op a)]) })
     else a.state) with resp := some (r.src, responseOf r op a) }

@[simp] theorem sessOf_renewed (s : State) (i : Nat) : sessOf (renewed s i) i = { sessOf s i with renewed := s.now } := by
  simp [renewed]

theorem sessOf_renewed_ne (s : State) {i j : Nat} (h : j ≠ i) : sessOf (renewed s i) j = sessOf s j := sessOf_modSess_ne _ _ h

@[simp] theorem slotOfId_renewed (s : State) (i id : Nat) : slotOfId (renewed s i) id = slotOfId s id := by
  by_cases h : id % 64 = i
  · subst h
    have h1 : (sessOf (renewed s (id % 64)) (id % 64)).isOpen = (sessOf s (id % 64)).isOpen := by simp
    have h2 : sessId (renewed s (id % 64)) (id % 64) = sessId s (id % 64) := by simp [sessId]
    simp only [slotOfId, h1, h2]
  · have h1 := sessOf_renewed_ne s h
    simp only [slotOfId, sessId, h1]
    rfl

/-- An answer as its transport carries it: cut where it is too long (R46). -/
def fitted (r : DictReq) (a : Answer) : Answer := if maxPdu r.src < 12 + a.payload.length then tooLong a (maxPdu r.src - 12) else a

/-- An admitted request of a session answers and leaves what executing it says. -/
theorem request_fitted {s : State} {r : DictReq} {i : Nat} {q : Request} {found : Option Nat} (h : Admitted s r i q) :
    request s r q found = .next (afterAnswer r i (opOf q) (fitted r (sessionAnswer s r i q found))) := by
  have hid : r.session ≠ 0 := by
    intro h0
    have := h.slot
    rw [h0] at this
    simp [slotOfId] at this
  have hreq : requester (renewed s i) r = { role := (sessOf s i).role, func := (sessOf s i).func, session := r.session.toNat } := by
    simp [requester, h.slot]
  have hadm : admitted (renewed s i) r q (12 + lenOf q) found = fitted r (sessionAnswer s r i q found) := by
    have h1 : ¬ (r.src = .can ∧ !(renewed s i).served ∧ !sbServes q) := by
      rintro ⟨hc, hs, hq⟩
      rcases h.served hc with h2 | h2
      · simp [renewed, h2] at hs
      · simp [h2] at hq
    unfold admitted
    rw [if_neg h1]
    simp only [hreq]
    rw [if_neg (by have := h.size; omega)]
    rfl
  have hnew : (sessOf (renewed s i) i).cache.find? (fun e => e.1 == r.seq.toNat) = none := by simpa using h.new
  unfold request dictRequest
  have hcar : ((sessOf s i).src.map (sameCarrier r.src)).getD false = true := by rw [h.carrier]; rfl
  simp only [h.path, Bool.not_true, Bool.false_eq_true, if_false, hid, h.slot, hcar,
    show (modSess s i fun x => { x with renewed := s.now }) = renewed s i from rfl, hnew, hadm]
  rfl

/-- The same, where the response fits its transport. -/
theorem request_admitted {s : State} {r : DictReq} {i : Nat} {q : Request} {found : Option Nat} (h : Admitted s r i q)
    (hfit : 12 + (sessionAnswer s r i q found).payload.length ≤ maxPdu r.src) :
    request s r q found = .next (afterAnswer r i (opOf q) (sessionAnswer s r i q found)) := by
  rw [request_fitted h]
  unfold fitted
  rw [if_neg (by omega)]

/-- The state after a request without a session. -/
def afterSessionless (r : DictReq) (op : Nat) (a : Answer) : State := { a.state with resp := some (r.src, responseOf r op a) }

theorem slotOfId_zero (s : State) : slotOfId s 0 = none := by simp [slotOfId]

/-- A request that needs no session answers and leaves what executing it in the role of its carrier says (R30). -/
theorem request_sessionless {s : State} {r : DictReq} {q : Request} {found : Option Nat} (h0 : r.session = 0)
    (hp : pathUp s r.src = true) (hq : sessionless q = true) (hsize : 12 + lenOf q ≤ maxPdu r.src)
    (hserved : r.src = .can → s.served = true ∨ sbServes q = true)
    (hfit : 12 + (execRequest s { role := roleOf s r.src, func := funcOfCarrier r.src, found := found } (some r.src)
      (maxPdu r.src) q).payload.length ≤ maxPdu r.src) :
    request s r q found = .next (afterSessionless r (opOf q)
      (execRequest s { role := roleOf s r.src, func := funcOfCarrier r.src, found := found } (some r.src) (maxPdu r.src) q)) := by
  have hreq : requester s r = { role := roleOf s r.src, func := funcOfCarrier r.src } := by
    unfold requester
    rw [h0, show (0 : BitVec 16).toNat = 0 from rfl, slotOfId_zero]
  have h1 : ¬ (r.src = .can ∧ !s.served ∧ !sbServes q) := by
    rintro ⟨hc, hs, hb⟩
    rcases hserved hc with h2 | h2
    · simp [h2] at hs
    · simp [h2] at hb
  have hadm : admitted s r q (12 + lenOf q) found = execRequest s
      { role := roleOf s r.src, func := funcOfCarrier r.src, found := found } (some r.src) (maxPdu r.src) q := by
    unfold admitted
    rw [if_neg h1, hreq]
    dsimp only
    rw [if_neg (by omega)]
    exact if_neg (by omega)
  unfold request dictRequest
  simp only [hp, Bool.not_true, Bool.false_eq_true, if_false, h0, if_true, hq, hadm]
  unfold afterSessionless responseOf
  rw [h0]

/-- A request that is neither without a session nor in an open one is answered LEASE and does nothing (R29, R30). -/
theorem request_lease {s : State} {r : DictReq} {q : Request} {found : Option Nat} (hp : pathUp s r.src = true)
    (hq : sessionless q = false) (hs : slotOfId s r.session.toNat = none) :
    request s r q found = .next { s with resp := some (r.src, responseOf r (opOf q) ⟨s, .lease, [], false, 0⟩) } := by
  unfold request dictRequest
  simp only [hp, Bool.not_true, Bool.false_eq_true, if_false, hq, Bool.not_false, if_true, hs]
  split
  · rfl
  · rfl

/-- Of the answer's state a request's end changes the session's kept responses and the module's answer. -/
theorem afterAnswer_changes (r : DictReq) (i op : Nat) (a : Answer) : Changes [.sess, .resp] a.state (afterAnswer r i op a) := by
  unfold afterAnswer
  refine ch_resp (ch_ite ?_ (Changes.refl _ _)) (by decide)
  exact ch_sess (Changes.refl _ _) (by decide)

theorem sessOf_afterAnswer (r : DictReq) (i op : Nat) (a : Answer) :
    ∃ c, sessOf (afterAnswer r i op a) i = { sessOf a.state i with cache := c } := by
  unfold afterAnswer
  split
  · exact ⟨lastN 4 ((sessOf a.state i).cache ++ [(r.seq.toNat, responseOf r op a)]), by simp [sessOf, modSess]⟩
  · exact ⟨(sessOf a.state i).cache, rfl⟩

theorem sessOf_afterAnswer_ne (r : DictReq) {i j : Nat} (op : Nat) (a : Answer) (h : j ≠ i) :
    sessOf (afterAnswer r i op a) j = sessOf a.state j := by
  unfold afterAnswer
  split
  · simp [sessOf, modSess, tget_tset_ne _ _ _ h]
  · rfl

theorem resp_afterAnswer (r : DictReq) (i op : Nat) (a : Answer) :
    (afterAnswer r i op a).resp = some (r.src, responseOf r op a) := rfl

theorem answered_afterAnswer (r : DictReq) (i op : Nat) (a : Answer) : answered (afterAnswer r i op a) r op a.status :=
  ⟨_, rfl, rfl, rfl, rfl, rfl⟩

theorem renewed_changes {P : List Part} {r s : State} (i : Nat) (hP : Part.sess ∈ P) (h : Changes P r s) :
    Changes P r (renewed s i) := ch_sess h hP

/-- A request that is executed changes what executing it changes, the session and the module's answer. -/
theorem admitted_changes {P : List Part} {s : State} (r : DictReq) (i op : Nat) (a : Answer) (h1 : Part.sess ∈ P) (h2 : Part.resp ∈ P)
    (h : Changes P (renewed s i) a.state) : Changes P s (afterAnswer r i op a) :=
  ((renewed_changes i h1 (Changes.refl P s)).trans h).trans ((afterAnswer_changes r i op a).mono (by simp [h1, h2]))

/-- A refused request: answered with the refusal, and nothing more than executing it changed. -/
theorem request_refused {s t : State} {r : DictReq} {i : Nat} {q : Request} {found : Option Nat} {st : Status} (h : Admitted s r i q)
    (ha : sessionAnswer s r i q found = refused t st) (hst : st ≠ .ok ∧ st ≠ .intransit) :
    ∃ u, request s r q found = .next u ∧ answered u r (opOf q) st ∧ Changes [.fresh, .sess, .resp] t u := by
  refine ⟨_, request_fitted h, ?_⟩
  rw [ha]
  have hs : (fitted r (refused t st)).status = st ∧ (fitted r (refused t st)).state = draw t := by
    unfold fitted tooLong refused
    split
    · rw [if_neg (by simpa using hst)]; exact ⟨rfl, rfl⟩
    · exact ⟨rfl, rfl⟩
  have hc := (afterAnswer_changes r i (opOf q) (fitted r (refused t st))).mono (Q := [.fresh, .sess, .resp]) (by decide)
  rw [hs.2] at hc
  refine ⟨?_, (draw_ch (P := [.fresh, .sess, .resp]) (by decide) (Changes.refl _ t)).trans hc⟩
  have := answered_afterAnswer r i (opOf q) (fitted r (refused t st))
  rwa [hs.1] at this

end Sys2Proof.Machine
end

