-- ==== Sys2Proof/Laws/Only.lean ====
section
/-!
SUPPORT. Which dictionary objects an update leaves alone.
-/

namespace Sys2Proof.Machine

theorem onlyObjs_of_eq {ks : List Nat} {s t : State} (h : t.objs = s.objs) : onlyObjs ks s t := fun k _ => by
  simp [getV, ctrOf, h]

theorem onlyObjs_refl (ks : List Nat) (s : State) : onlyObjs ks s s := onlyObjs_of_eq rfl

theorem onlyObjs_trans {ks : List Nat} {r s t : State} (h : onlyObjs ks r s) (h' : onlyObjs ks s t) : onlyObjs ks r t := fun k hk =>
  ⟨(h' k hk).1.trans (h k hk).1, (h' k hk).2.trans (h k hk).2⟩

theorem onlyObjs_putV {ks : List Nat} {s t : State} {k : Nat} (v : Val) (hk : k ∈ ks) (h : onlyObjs ks s t) :
    onlyObjs ks s (putV t k v) := fun j hj => by
  have hne : j ≠ k := fun e => hj (e ▸ hk)
  refine ⟨(getV_putV_ne t v hne).trans (h j hj).1, ?_⟩
  rw [ctrOf_putV]; exact (h j hj).2

theorem onlyObjs_putN {ks : List Nat} {s t : State} {k : Nat} (n : Nat) (hk : k ∈ ks) (h : onlyObjs ks s t) :
    onlyObjs ks s (putN t k n) := onlyObjs_putV _ hk h

theorem onlyObjs_bump {ks : List Nat} {s t : State} {k : Nat} (hk : k ∈ ks) (h : onlyObjs ks s t) :
    onlyObjs ks s (bump t k) := onlyObjs_putV _ hk h

theorem onlyObjs_writeV {ks : List Nat} {s t : State} {k : Nat} (v : Val) (hk : k ∈ ks) (h : onlyObjs ks s t) :
    onlyObjs ks s (writeV t k v) := fun j hj => by
  have hne : j ≠ k := fun e => hj (e ▸ hk)
  refine ⟨(getV_writeV_ne t v hne).trans (h j hj).1, ?_⟩
  unfold writeV
  split
  · exact (h j hj).2
  · rw [← (h j hj).2]
    simp [ctrOf, tfind_tset_ne _ _ hne]

theorem onlyObjs_writeN {ks : List Nat} {s t : State} {k : Nat} (n : Nat) (hk : k ∈ ks) (h : onlyObjs ks s t) :
    onlyObjs ks s (writeN t k n) := onlyObjs_writeV _ hk h

theorem onlyObjs_ite {ks : List Nat} {s a b : State} {c : Prop} [Decidable c] (ha : onlyObjs ks s a) (hb : onlyObjs ks s b) :
    onlyObjs ks s (if c then a else b) := by split <;> assumption

theorem onlyObjs_getN {ks : List Nat} {s t : State} (h : onlyObjs ks s t) {k : Nat} (hk : k ∉ ks) : getN t k = getN s k := by
  unfold getN; rw [(h k hk).1]

/-- What changes no more than the counts that events move leaves every other object alone. -/
theorem getV_of_changes {P : List Part} {s t : State} (h : Changes P s t) (hP : Part.objs ∉ P) {k : Nat} (hk : ¬ noteKey k) :
    getV t k = getV s k := by
  unfold getV; rw [h.notes hP k hk]

theorem getN_of_changes {P : List Part} {s t : State} (h : Changes P s t) (hP : Part.objs ∉ P) {k : Nat} (hk : ¬ noteKey k) :
    getN t k = getN s k := by
  unfold getN; rw [getV_of_changes h hP hk]

theorem ctrOf_of_changes {P : List Part} {s t : State} (h : Changes P s t) (hP : Part.objs ∉ P) {k : Nat} (hk : ¬ noteKey k) :
    ctrOf t k = ctrOf s k := by
  unfold ctrOf; rw [h.notes hP k hk]

theorem onlyAndNotes_of_only {ks : List Nat} {s t : State} (h : onlyObjs ks s t) : onlyObjsAndNotes ks s t := fun k hk _ => h k hk

theorem onlyAndNotes_of_changes {ks : List Nat} {P : List Part} {s t : State} (h : Changes P s t) (hP : Part.objs ∉ P) :
    onlyObjsAndNotes ks s t := fun _ _ hn => ⟨getV_of_changes h hP hn, ctrOf_of_changes h hP hn⟩

theorem onlyAndNotes_trans {ks : List Nat} {r s t : State} (h : onlyObjsAndNotes ks r s) (h' : onlyObjsAndNotes ks s t) :
    onlyObjsAndNotes ks r t := fun k hk hn =>
  ⟨(h' k hk hn).1.trans (h k hk hn).1, (h' k hk hn).2.trans (h k hk hn).2⟩

theorem objs_of_changes {P : List Part} {s t : State} (h : Changes P s t) (hP : Part.objs ∉ P) (hn : Part.notes ∉ P) :
    t.objs = s.objs := h.objs hP hn

/-! ## Through a request -/

theorem getN_renewed (s : State) (i k : Nat) : getN (renewed s i) k = getN s k := rfl

theorem getB_renewed (s : State) (i k : Nat) : getB (renewed s i) k = getB s k := rfl

theorem onlyObjs_after {ks : List Nat} {s : State} {r : DictReq} {i op : Nat} {a : Answer} (h : onlyObjs ks s a.state) :
    onlyObjs ks s (afterAnswer r i op a) :=
  onlyObjs_trans h (onlyObjs_of_eq ((afterAnswer_changes r i op a).objs (by decide) (by decide)))

theorem onlyAndNotes_after {ks : List Nat} {s : State} {r : DictReq} {i op : Nat} {a : Answer} (h : onlyObjsAndNotes ks s a.state) :
    onlyObjsAndNotes ks s (afterAnswer r i op a) :=
  onlyAndNotes_trans h (onlyAndNotes_of_only (onlyObjs_of_eq ((afterAnswer_changes r i op a).objs (by decide) (by decide))))

theorem getV_after {r : DictReq} {i op : Nat} {a : Answer} (k : Nat) : getV (afterAnswer r i op a) k = getV a.state k := by
  have := (afterAnswer_changes r i op a).objs (by decide) (by decide)
  simp [getV, this]

theorem getN_after {r : DictReq} {i op : Nat} {a : Answer} (k : Nat) : getN (afterAnswer r i op a) k = getN a.state k := by
  unfold getN; rw [getV_after]

theorem getB_after {r : DictReq} {i op : Nat} {a : Answer} (k : Nat) : getB (afterAnswer r i op a) k = getB a.state k := by
  unfold getB; rw [getN_after]

theorem ctrOf_after {r : DictReq} {i op : Nat} {a : Answer} (k : Nat) : ctrOf (afterAnswer r i op a) k = ctrOf a.state k := by
  have := (afterAnswer_changes r i op a).objs (by decide) (by decide)
  simp [ctrOf, this]

theorem key_lt {idx sub : Nat} (h : idx < 65536) (h2 : sub < 256) : objKey idx sub < 2 ^ 24 := by unfold objKey; omega

/-! ## Values through updates -/

@[simp] theorem getN_writeN (s : State) (k n : Nat) : getN (writeN s k n) k = n := by simp [getN, writeN, Val.toNat]

theorem getN_writeN_ne (s : State) {k k' : Nat} (n : Nat) (h : k' ≠ k) : getN (writeN s k n) k' = getN s k' := by
  unfold getN writeN; rw [getV_writeV_ne s _ h]

@[simp] theorem getB_putB (s : State) (k : Nat) (b : Bool) : getB (putB s k b) k = b := by
  cases b <;> simp [getB, getN, putB, Val.toNat, b2n]

@[simp] theorem getB_writeB (s : State) (k : Nat) (b : Bool) : getB (writeB s k b) k = b := by
  cases b <;> simp [getB, getN, writeB, Val.toNat, b2n]

theorem getB_of_getN {s t : State} {k : Nat} (h : getN t k = getN s k) : getB t k = getB s k := by unfold getB; rw [h]

end Sys2Proof.Machine
end

