-- ==== Sys2Proof/Laws/PerInstr.lean ====
section
/-!
SUPPORT. A statement of every command as syntax, lemma by lemma: a well-formed command's request comes from a well-formed carrier.
-/

namespace Sys2Proof.Laws.Carried

/-- A well-formed command that a dictionary request carries comes from a well-formed carrier. -/
def Statement (i : Instr) : Prop := i.wf = true → ∀ r, i.request? = some r → r.wf = true

/-- Every command meets the statement; the lemmas below name it per constructor. -/
theorem of_wf (i : Instr) : Statement i := by
  intro h r hr
  simp only [Instr.wf, hr, Bool.and_eq_true] at h
  exact h.1

theorem openCmd (x0 : DictReq) (x1 : BitVec 16) (x2 : BitVec 32) : Statement (.openCmd x0 x1 x2) := of_wf _
theorem close (x0 : DictReq) : Statement (.close x0) := of_wf _
theorem keepalive (x0 : DictReq) : Statement (.keepalive x0) := of_wf _
theorem read (x0 : DictReq) (x1 : ItemHdr) : Statement (.read x0 x1) := of_wf _
theorem write (x0 : DictReq) (x1 : ItemHdr) (x2 : List Byte) : Statement (.write x0 x1 x2) := of_wf _
theorem writeIf (x0 : DictReq) (x1 : ItemHdr) (x2 : BitVec 16) (x3 : List Byte) : Statement (.writeIf x0 x1 x2 x3) := of_wf _
theorem describe (x0 : DictReq) (x1 : ItemHdr) : Statement (.describe x0 x1) := of_wf _
theorem readSeg (x0 : DictReq) (x1 : ItemHdr) (x2 : BitVec 32) (x3 : BitVec 16) : Statement (.readSeg x0 x1 x2 x3) := of_wf _
theorem writeSeg (x0 : DictReq) (x1 : ItemHdr) (x2 : BitVec 32) (x3 : BitVec 32) (x4 : List Byte) : Statement (.writeSeg x0 x1 x2 x3 x4) := of_wf _
theorem group (x0 : DictReq) (x1 : List (ItemHdr × List Byte)) : Statement (.group x0 x1) := of_wf _
theorem subscribe (x0 : DictReq) (x1 : BitVec 32) : Statement (.subscribe x0 x1) := of_wf _
theorem malformedPdu (x0 : List Byte) : Statement (.malformedPdu x0) := of_wf _
theorem unknownOpcode (x0 : DictReq) (x1 : BitVec 8) : Statement (.unknownOpcode x0 x1) := of_wf _
theorem leaseExpiry : Statement (.leaseExpiry) := of_wf _
theorem portalGo (x0 : Fin 65) (x1 : List Byte) : Statement (.portalGo x0 x1) := of_wf _
theorem portalResponse (x0 : Fin 65) : Statement (.portalResponse x0) := of_wf _
theorem canSegmentRx (x0 : BitVec 11) (x1 : List Byte) : Statement (.canSegmentRx x0 x1) := of_wf _
theorem eventFrameTx : Statement (.eventFrameTx) := of_wf _
theorem sysDefaults (x0 : DictReq) (x1 : BitVec 8) : Statement (.sysDefaults x0 x1) := of_wf _
theorem twDictRequest (x0 : Request) : Statement (.twDictRequest x0) := of_wf _
theorem doorbell (x0 : Fin 65) (x1 : Fin 16) (x2 : BitVec 32) : Statement (.doorbell x0 x1 x2) := of_wf _
theorem cqHeadWrite (x0 : Fin 65) (x1 : Fin 16) (x2 : BitVec 16) : Statement (.cqHeadWrite x0 x1 x2) := of_wf _
theorem evtPendClear (x0 : Fin 65) (x1 : BitVec 32) : Statement (.evtPendClear x0 x1) := of_wf _
theorem evtMaskWrite (x0 : Fin 65) (x1 : BitVec 32) : Statement (.evtMaskWrite x0 x1) := of_wf _
theorem snapSel (x0 : Fin 65) (x1 : BitVec 32) : Statement (.snapSel x0 x1) := of_wf _
theorem registerWrite (x0 : Fin 65) (x1 : BitVec 16) (x2 : BitVec 32) : Statement (.registerWrite x0 x1 x2) := of_wf _
theorem nop (x0 : CmdHdr) : Statement (.nop x0) := of_wf _
theorem commandBadop (x0 : CmdHdr) (x1 : BitVec 8) : Statement (.commandBadop x0 x1) := of_wf _
theorem fenceSignal (x0 : CmdHdr) (x1 : BitVec 32) (x2 : BitVec 64) : Statement (.fenceSignal x0 x1 x2) := of_wf _
theorem fenceWait (x0 : CmdHdr) (x1 : BitVec 32) (x2 : BitVec 32) (x3 : BitVec 64) : Statement (.fenceWait x0 x1 x2 x3) := of_wf _
theorem fenceWaitTimeout (x0 : Fin 256) : Statement (.fenceWaitTimeout x0) := of_wf _
theorem fenceClaim (x0 : DictReq) (x1 : Fin 256) (x2 : BitVec 16) (x3 : BitVec 8) : Statement (.fenceClaim x0 x1 x2 x3) := of_wf _
theorem fenceValueWrite (x0 : DictReq) (x1 : Fin 256) (x2 : BitVec 64) : Statement (.fenceValueWrite x0 x1 x2) := of_wf _
theorem drawSubmit (x0 : CmdHdr) (x1 : DrawPayload) : Statement (.drawSubmit x0 x1) := of_wf _
theorem computeDispatch (x0 : CmdHdr) (x1 : BitVec 64) (x2 : BitVec 32) (x3 : BitVec 288) : Statement (.computeDispatch x0 x1 x2 x3) := of_wf _
theorem translationDone (x0 : Fin 256) : Statement (.translationDone x0) := of_wf _
theorem tilePhaseStart (x0 : Fin 64) : Statement (.tilePhaseStart x0) := of_wf _
theorem coreDispatchPoint (x0 : Fin 36) : Statement (.coreDispatchPoint x0) := of_wf _
theorem tileDone (x0 : Fin 36) (x1 : Bool) : Statement (.tileDone x0 x1) := of_wf _
theorem workgroupDone (x0 : Fin 36) (x1 : Nat) : Statement (.workgroupDone x0 x1) := of_wf _
theorem gpuWatchdog (x0 : Fin 64) : Statement (.gpuWatchdog x0) := of_wf _
theorem coreFault (x0 : Fin 36) (x1 : Bool) (x2 : List (Fin 36)) : Statement (.coreFault x0 x1 x2) := of_wf _
theorem progClaim (x0 : DictReq) (x1 : Fin 256) (x2 : BitVec 16) (x3 : BitVec 8) : Statement (.progClaim x0 x1 x2 x3) := of_wf _
theorem ctxEnable (x0 : DictReq) (x1 : Fin 64) : Statement (.ctxEnable x0 x1) := of_wf _
theorem ctxDisable (x0 : DictReq) (x1 : Fin 64) : Statement (.ctxDisable x0 x1) := of_wf _
theorem ctxStopDone (x0 : Fin 64) : Statement (.ctxStopDone x0) := of_wf _
theorem arbitration : Statement (.arbitration) := of_wf _
theorem preemptDone (x0 : Fin 36) (x1 : Nat) (x2 : Nat) (x3 : Nat) : Statement (.preemptDone x0 x1 x2 x3) := of_wf _
theorem compositorRowEligible (x0 : Fin 8) (x1 : Fin 256) : Statement (.compositorRowEligible x0 x1) := of_wf _
theorem rowComposeDone (x0 : Fin 8) (x1 : Fin 256) : Statement (.rowComposeDone x0 x1) := of_wf _
theorem rowPrefetchPoint (x0 : Fin 8) (x1 : Fin 256) : Statement (.rowPrefetchPoint x0 x1) := of_wf _
theorem scanoutWake (x0 : Fin 8) : Statement (.scanoutWake x0) := of_wf _
theorem surfClaim (x0 : DictReq) (x1 : Fin 2048) (x2 : BitVec 16) (x3 : BitVec 8) : Statement (.surfClaim x0 x1 x2 x3) := of_wf _
theorem surfAlloc (x0 : DictReq) (x1 : Fin 2048) : Statement (.surfAlloc x0 x1) := of_wf _
theorem surfRelease (x0 : DictReq) (x1 : Fin 2048) : Statement (.surfRelease x0 x1) := of_wf _
theorem surfScrubDone (x0 : Fin 2048) : Statement (.surfScrubDone x0) := of_wf _
theorem copy (x0 : CmdHdr) (x1 : CopyPayload) : Statement (.copy x0 x1) := of_wf _
theorem convert (x0 : CmdHdr) (x1 : ConvertPayload) : Statement (.convert x0 x1) := of_wf _
theorem layerSet (x0 : CmdHdr) (x1 : LayerSetPayload) : Statement (.layerSet x0 x1) := of_wf _
theorem commit (x0 : CmdHdr) (x1 : BitVec 8) : Statement (.commit x0 x1) := of_wf _
theorem outCommit (x0 : DictReq) (x1 : Fin 8) (x2 : BitVec 8) : Statement (.outCommit x0 x1 x2) := of_wf _
theorem outEnable (x0 : DictReq) (x1 : Fin 8) : Statement (.outEnable x0 x1) := of_wf _
theorem outDisable (x0 : DictReq) (x1 : Fin 8) : Statement (.outDisable x0 x1) := of_wf _
theorem outputStopDone (x0 : Fin 8) : Statement (.outputStopDone x0) := of_wf _
theorem outModeWrite (x0 : DictReq) (x1 : Fin 8) (x2 : BitVec 8) : Statement (.outModeWrite x0 x1 x2) := of_wf _
theorem closePoint (x0 : Fin 8) : Statement (.closePoint x0) := of_wf _
theorem vbs (x0 : Fin 8) : Statement (.vbs x0) := of_wf _
theorem frameStart (x0 : Fin 8) : Statement (.frameStart x0) := of_wf _
theorem lineMatch (x0 : Fin 8) : Statement (.lineMatch x0) := of_wf _
theorem frameDone (x0 : Fin 8) : Statement (.frameDone x0) := of_wf _
theorem underrun (x0 : Fin 8) (x1 : BitVec 16) (x2 : Fin 7) (x3 : BitVec 16) : Statement (.underrun x0 x1 x2 x3) := of_wf _
theorem linkTrainingDone (x0 : Fin 8) (x1 : Bool) (x2 : List Byte) : Statement (.linkTrainingDone x0 x1 x2) := of_wf _
theorem linkRetryTimer (x0 : Fin 8) : Statement (.linkRetryTimer x0) := of_wf _
theorem hpdRise (x0 : Fin 8) : Statement (.hpdRise x0) := of_wf _
theorem hpdFall (x0 : Fin 8) (x1 : Nat) (x2 : Bool) : Statement (.hpdFall x0 x1 x2) := of_wf _
theorem engineFault (x0 : Fin 9) (x1 : Bool) (x2 : List (Fin 9)) : Statement (.engineFault x0 x1 x2) := of_wf _
theorem kaolinCommit (x0 : Fin 8) (x1 : BitVec 8) : Statement (.kaolinCommit x0 x1) := of_wf _
theorem kaolinSramWrite (x0 : Nat) (x1 : List Byte) : Statement (.kaolinSramWrite x0 x1) := of_wf _
theorem sigCompare (x0 : Fin 8) (x1 : Fin 32) (x2 : Option (BitVec 32)) : Statement (.sigCompare x0 x1 x2) := of_wf _
theorem memRead (x0 : Fin 6) (x1 : Nat) (x2 : List Byte) (x3 : List Byte) (x4 : Bool) : Statement (.memRead x0 x1 x2 x3 x4) := of_wf _
theorem memWrite (x0 : Fin 6) (x1 : Nat) (x2 : List Byte) : Statement (.memWrite x0 x1 x2) := of_wf _
theorem ceBucketExpiry : Statement (.ceBucketExpiry) := of_wf _
theorem groupTrainingDone (x0 : Fin 3) (x1 : List (Fin 144)) (x2 : Bool) : Statement (.groupTrainingDone x0 x1 x2) := of_wf _
theorem sparePatternTestDone (x0 : Fin 6) (x1 : Bool) : Statement (.sparePatternTestDone x0 x1) := of_wf _
theorem migrationDone (x0 : Fin 6) : Statement (.migrationDone x0) := of_wf _
theorem dqsOscCheck (x0 : Fin 3) (x1 : Nat) (x2 : Nat) (x3 : BitVec 32) : Statement (.dqsOscCheck x0 x1 x2 x3) := of_wf _
theorem scrubBurst (x0 : Fin 3) (x1 : Nat) (x2 : Nat) : Statement (.scrubBurst x0 x1 x2) := of_wf _
theorem refresh (x0 : Fin 6) : Statement (.refresh x0) := of_wf _
theorem rankPowerDown (x0 : Fin 6) : Statement (.rankPowerDown x0) := of_wf _
theorem selfRefreshEntry (x0 : Fin 3) : Statement (.selfRefreshEntry x0) := of_wf _
theorem memRetireReq (x0 : DictReq) (x1 : BitVec 8) : Statement (.memRetireReq x0 x1) := of_wf _
theorem memInjArm (x0 : DictReq) (x1 : Bool) : Statement (.memInjArm x0 x1) := of_wf _
theorem vfEnable (x0 : DictReq) (x1 : Fin 64) : Statement (.vfEnable x0 x1) := of_wf _
theorem vfDisable (x0 : DictReq) (x1 : Fin 64) : Statement (.vfDisable x0 x1) := of_wf _
theorem grantWrite (x0 : DictReq) (x1 : Fin 64) (x2 : BitVec 8) (x3 : BitVec 32) : Statement (.grantWrite x0 x1 x2 x3) := of_wf _
theorem grantShareWrite (x0 : DictReq) (x1 : Fin 64) (x2 : BitVec 16) : Statement (.grantShareWrite x0 x1 x2) := of_wf _
theorem regionWrite (x0 : DictReq) (x1 : Fin 64) (x2 : Bool) (x3 : Fin 8) (x4 : BitVec 8) (x5 : BitVec 32) : Statement (.regionWrite x0 x1 x2 x3 x4 x5) := of_wf _
theorem ringOwnerWrite (x0 : DictReq) (x1 : Fin 256) (x2 : BitVec 8) : Statement (.ringOwnerWrite x0 x1 x2) := of_wf _
theorem ringEnable (x0 : DictReq) (x1 : Fin 256) (x2 : Bool) : Statement (.ringEnable x0 x1 x2) := of_wf _
theorem ringOrderWrite (x0 : DictReq) (x1 : Fin 256) (x2 : BitVec 8) : Statement (.ringOrderWrite x0 x1 x2) := of_wf _
theorem resizeDone (x0 : Fin 256) : Statement (.resizeDone x0) := of_wf _
theorem vfFlr (x0 : DictReq) (x1 : Fin 64) (x2 : BitVec 8) : Statement (.vfFlr x0 x1 x2) := of_wf _
theorem pcieFlr (x0 : Fin 65) : Statement (.pcieFlr x0) := of_wf _
theorem vfEnableClear : Statement (.vfEnableClear) := of_wf _
theorem pfFlr (x0 : Bool) : Statement (.pfFlr x0) := of_wf _
theorem flrDone (x0 : Fin 65) : Statement (.flrDone x0) := of_wf _
theorem migFreeze (x0 : DictReq) (x1 : Fin 64) : Statement (.migFreeze x0 x1) := of_wf _
theorem migThaw (x0 : DictReq) (x1 : Fin 64) : Statement (.migThaw x0 x1) := of_wf _
theorem freezeDone (x0 : Fin 64) (x1 : List Nat) : Statement (.freezeDone x0 x1) := of_wf _
theorem migSave (x0 : DictReq) (x1 : Fin 64) : Statement (.migSave x0 x1) := of_wf _
theorem migRestore (x0 : DictReq) (x1 : Fin 64) : Statement (.migRestore x0 x1) := of_wf _
theorem imageDone (x0 : Fin 64) : Statement (.imageDone x0) := of_wf _
theorem logEnable (x0 : DictReq) (x1 : Fin 64) (x2 : Bool) : Statement (.logEnable x0 x1 x2) := of_wf _
theorem logSwap (x0 : DictReq) (x1 : Fin 64) (x2 : BitVec 8) : Statement (.logSwap x0 x1 x2) := of_wf _
theorem logSwapDone (x0 : Fin 64) : Statement (.logSwapDone x0) := of_wf _
theorem gateQuote (x0 : List Byte) : Statement (.gateQuote x0) := of_wf _
theorem gateRandom (x0 : BitVec 32) : Statement (.gateRandom x0) := of_wf _
theorem gateReleaseAsk (x0 : BitVec 32) : Statement (.gateReleaseAsk x0) := of_wf _
theorem gateBadsvc (x0 : BitVec 16) : Statement (.gateBadsvc x0) := of_wf _
theorem gateRelease (x0 : BitVec 4) (x1 : BitVec 4) (x2 : List (BitVec 32)) (x3 : BitVec 13) (x4 : List Byte) : Statement (.gateRelease x0 x1 x2 x3 x4) := of_wf _
theorem trustedTargetAccess (x0 : Initiator) (x1 : BitVec 8) (x2 : Bool) (x3 : Fin 65) : Statement (.trustedTargetAccess x0 x1 x2 x3) := of_wf _
theorem pinTWrite (x0 : Fin 96) (x1 : Bool) : Statement (.pinTWrite x0 x1) := of_wf _
theorem dmaTWrite (x0 : Fin 32) (x1 : Bool) : Statement (.dmaTWrite x0 x1) := of_wf _
theorem claimHoldWrite (x0 : Fin 24) (x1 : Bool) : Statement (.claimHoldWrite x0 x1) := of_wf _
theorem cutNoticeExpiry (x0 : Fin 24) : Statement (.cutNoticeExpiry x0) := of_wf _
theorem watchdogKick (x0 : BitVec 8) : Statement (.watchdogKick x0) := of_wf _
theorem watchdogExpiry : Statement (.watchdogExpiry) := of_wf _
theorem lockstepFault : Statement (.lockstepFault) := of_wf _
theorem twRestartRequest : Statement (.twRestartRequest) := of_wf _
theorem twRestartDone (x0 : BootOutcome) : Statement (.twRestartDone x0) := of_wf _
theorem attNonceWrite (x0 : DictReq) (x1 : List Byte) : Statement (.attNonceWrite x0 x1) := of_wf _
theorem quoteSigned (x0 : BitVec 16) : Statement (.quoteSigned x0) := of_wf _
theorem touchFrameMark (x0 : Fin 4) (x1 : TouchFrame) : Statement (.touchFrameMark x0 x1) := of_wf _
theorem stuckTimeout (x0 : Fin 4) (x1 : Fin 16) : Statement (.stuckTimeout x0 x1) := of_wf _
theorem driftEntry (x0 : Fin 4) : Statement (.driftEntry x0) := of_wf _
theorem driftFrame (x0 : Fin 4) (x1 : List (BitVec 12)) (x2 : List (Bool × Bool × Bool)) : Statement (.driftFrame x0 x1 x2) := of_wf _
theorem panelEnable (x0 : DictReq) (x1 : Fin 4) : Statement (.panelEnable x0 x1) := of_wf _
theorem panelStartDone (x0 : Fin 4) (x1 : PanelTest) : Statement (.panelStartDone x0 x1) := of_wf _
theorem panelDisable (x0 : DictReq) (x1 : Fin 4) : Statement (.panelDisable x0 x1) := of_wf _
theorem panelStopDone (x0 : Fin 4) : Statement (.panelStopDone x0) := of_wf _
theorem panelRefCapture (x0 : DictReq) (x1 : Fin 4) (x2 : BitVec 8) : Statement (.panelRefCapture x0 x1 x2) := of_wf _
theorem panelTestRun (x0 : DictReq) (x1 : Fin 4) (x2 : BitVec 8) : Statement (.panelTestRun x0 x1 x2) := of_wf _
theorem effectDue (x0 : Fin 16) : Statement (.effectDue x0) := of_wf _
theorem brakingStart (x0 : Fin 16) (x1 : Nat) : Statement (.brakingStart x0 x1) := of_wf _
theorem brakingEnd (x0 : Fin 16) (x1 : Nat) : Statement (.brakingEnd x0 x1) := of_wf _
theorem queueHeadTimeout (x0 : Fin 16) : Statement (.queueHeadTimeout x0) := of_wf _
theorem effectDeadline (x0 : Fin 16) : Statement (.effectDeadline x0) := of_wf _
theorem hapTrip (x0 : Fin 16) (x1 : Fin 3) (x2 : BitVec 32) : Statement (.hapTrip x0 x1 x2) := of_wf _
theorem tripProbe (x0 : Fin 16) (x1 : BitVec 32) : Statement (.tripProbe x0 x1) := of_wf _
theorem chReset (x0 : DictReq) (x1 : Fin 16) (x2 : BitVec 8) (x3 : BitVec 32) : Statement (.chReset x0 x1 x2 x3) := of_wf _
theorem onTimeCut (x0 : Fin 16) : Statement (.onTimeCut x0) := of_wf _
theorem dutyCut (x0 : Fin 16) : Statement (.dutyCut x0) := of_wf _
theorem accelTimeout (x0 : Fin 16) (x1 : List (BitVec 32)) : Statement (.accelTimeout x0 x1) := of_wf _
theorem driverFault (x0 : Fin 16) (x1 : Bool) (x2 : Bool) : Statement (.driverFault x0 x1 x2) := of_wf _
theorem hapEnable (x0 : DictReq) : Statement (.hapEnable x0) := of_wf _
theorem hapReady (x0 : List (Fin 17)) : Statement (.hapReady x0) := of_wf _
theorem hapDisable (x0 : DictReq) : Statement (.hapDisable x0) := of_wf _
theorem interlockOpen : Statement (.interlockOpen) := of_wf _
theorem interlockClosed : Statement (.interlockClosed) := of_wf _
theorem sndEnable (x0 : DictReq) : Statement (.sndEnable x0) := of_wf _
theorem sndDisable (x0 : DictReq) : Statement (.sndDisable x0) := of_wf _
theorem streamEnable (x0 : DictReq) (x1 : Bool) (x2 : Fin 64) (x3 : Bool) : Statement (.streamEnable x0 x1 x2 x3) := of_wf _
theorem audioPeriod (x0 : AudioIn) : Statement (.audioPeriod x0) := of_wf _
theorem avtpPacketRx (x0 : Fin 8) (x1 : BitVec 64) (x2 : List (BitVec 24)) : Statement (.avtpPacketRx x0 x1 x2) := of_wf _
theorem avtpPacketTx (x0 : Fin 8) : Statement (.avtpPacketTx x0) := of_wf _
theorem clockLockChange (x0 : Bool) : Statement (.clockLockChange x0) := of_wf _
theorem chimeStart (x0 : Fin 16) (x1 : BitVec 8) : Statement (.chimeStart x0 x1) := of_wf _
theorem chimeStop : Statement (.chimeStop) := of_wf _
theorem chimeEnd : Statement (.chimeEnd) := of_wf _
theorem laneTrainingDone (x0 : Fin 4) (x1 : List (Fin 5)) (x2 : Bool) (x3 : List (Fin 5)) : Statement (.laneTrainingDone x0 x1 x2 x3) := of_wf _
theorem linkFailedRetry (x0 : Fin 4) : Statement (.linkFailedRetry x0) := of_wf _
theorem packetRx (x0 : Fin 4) (x1 : Packet) (x2 : Option (BitVec 16)) (x3 : List Nat) (x4 : Bool) (x5 : Bool) : Statement (.packetRx x0 x1 x2 x3 x4 x5) := of_wf _
theorem linkTimeout (x0 : Fin 4) : Statement (.linkTimeout x0) := of_wf _
theorem linkHoldExpiry (x0 : Fin 4) : Statement (.linkHoldExpiry x0) := of_wf _
theorem hello (x0 : Fin 4) (x1 : BitVec 64) (x2 : BitVec 8) (x3 : BitVec 32) (x4 : Fin 4) : Statement (.hello x0 x1 x2 x3 x4) := of_wf _
theorem linkStateRecordRx (x0 : LinkRecord) : Statement (.linkStateRecordRx x0) := of_wf _
theorem fabricStable : Statement (.fabricStable) := of_wf _
theorem syncExchange (x0 : Fin 4) (x1 : Int) (x2 : Nat) : Statement (.syncExchange x0 x1 x2) := of_wf _
theorem fabRelayWrite (x0 : DictReq) (x1 : List Byte) : Statement (.fabRelayWrite x0 x1) := of_wf _
theorem fabRelayRead (x0 : DictReq) : Statement (.fabRelayRead x0) := of_wf _
theorem relayedPduRx (x0 : BitVec 64) (x1 : Bool) (x2 : List Byte) : Statement (.relayedPduRx x0 x1 x2) := of_wf _
theorem relayReplyRx (x0 : BitVec 16) (x1 : List Byte) : Statement (.relayReplyRx x0 x1) := of_wf _
theorem spreadEnable (x0 : DictReq) (x1 : Fin 8) : Statement (.spreadEnable x0 x1) := of_wf _
theorem spreadDisable (x0 : DictReq) (x1 : Fin 8) : Statement (.spreadDisable x0 x1) := of_wf _
theorem spreadCommit (x0 : DictReq) (x1 : Fin 8) (x2 : BitVec 8) : Statement (.spreadCommit x0 x1 x2) := of_wf _
theorem spreadClosePoint (x0 : Fin 8) : Statement (.spreadClosePoint x0) := of_wf _
theorem spreadStateRx (x0 : Fin 8) (x1 : Fin 16) (x2 : Bool) (x3 : Int) : Statement (.spreadStateRx x0 x1 x2 x3) := of_wf _
theorem spreadMemberLost (x0 : Fin 8) (x1 : Fin 16) : Statement (.spreadMemberLost x0 x1) := of_wf _
theorem powerGood (x0 : Bool) (x1 : Bool) : Statement (.powerGood x0 x1) := of_wf _
theorem domainRampStart (x0 : Fin 24) : Statement (.domainRampStart x0) := of_wf _
theorem domainRampDone (x0 : Fin 24) : Statement (.domainRampDone x0) := of_wf _
theorem domainOn (x0 : Fin 24) (x1 : List (Fin 36)) (x2 : List (Fin 36)) : Statement (.domainOn x0 x1 x2) := of_wf _
theorem domainOff (x0 : Fin 24) : Statement (.domainOff x0) := of_wf _
theorem domHoldWrite (x0 : DictReq) (x1 : Fin 24) (x2 : Bool) : Statement (.domHoldWrite x0 x1 x2) := of_wf _
theorem domTwWrite (x0 : Fin 24) (x1 : Bool) : Statement (.domTwWrite x0 x1) := of_wf _
theorem pwrReqStandby (x0 : DictReq) : Statement (.pwrReqStandby x0) := of_wf _
theorem standbyReached : Statement (.standbyReached) := of_wf _
theorem pwrReqRun (x0 : DictReq) : Statement (.pwrReqRun x0) := of_wf _
theorem wakeCanFrame (x0 : List Byte) : Statement (.wakeCanFrame x0) := of_wf _
theorem pwrReset (x0 : DictReq) (x1 : BitVec 8) : Statement (.pwrReset x0 x1) := of_wf _
theorem resetHoldExpiry : Statement (.resetHoldExpiry) := of_wf _
theorem perstDeassert (x0 : Bool) (x1 : Fin 17) (x2 : Bool) (x3 : BitVec 16) (x4 : Bool) : Statement (.perstDeassert x0 x1 x2 x3 x4) := of_wf _
theorem hostAvailability : Statement (.hostAvailability) := of_wf _
theorem thermalSample (x0 : List (BitVec 32)) : Statement (.thermalSample x0) := of_wf _
theorem throttleStepTimer : Statement (.throttleStepTimer) := of_wf _
theorem supplyChange (x0 : BitVec 16) : Statement (.supplyChange x0) := of_wf _
theorem emergencyClear : Statement (.emergencyClear) := of_wf _
theorem islGateWrite (x0 : DictReq) (x1 : Fin 40) (x2 : Bool) : Statement (.islGateWrite x0 x1 x2) := of_wf _
theorem islRateWrite (x0 : DictReq) (x1 : Fin 40) (x2 : BitVec 16) : Statement (.islRateWrite x0 x1 x2) := of_wf _
theorem timeUpdate (x0 : BitVec 64) : Statement (.timeUpdate x0) := of_wf _
theorem grogRetest (x0 : DictReq) (x1 : BitVec 16) (x2 : Bool) : Statement (.grogRetest x0 x1 x2) := of_wf _
theorem mramRowWrite (x0 : Fin 16) (x1 : Fin 2048) (x2 : Nat) : Statement (.mramRowWrite x0 x1 x2) := of_wf _
theorem diagEnable (x0 : DictReq) (x1 : Bool) : Statement (.diagEnable x0 x1) := of_wf _
theorem sidePinEdge (x0 : Fin 96) (x1 : Bool) : Statement (.sidePinEdge x0 x1) := of_wf _
theorem spFuncWrite (x0 : DictReq) (x1 : Fin 96) (x2 : BitVec 8) : Statement (.spFuncWrite x0 x1 x2) := of_wf _
theorem spPwmWrite (x0 : DictReq) (x1 : Fin 96) (x2 : Bool) (x3 : BitVec 32) : Statement (.spPwmWrite x0 x1 x2 x3) := of_wf _
theorem hapticPlay (x0 : CmdHdr) (x1 : HapticPayload) : Statement (.hapticPlay x0 x1) := of_wf _
theorem touchBuf (x0 : CmdHdr) (x1 : TouchBufPayload) : Statement (.touchBuf x0 x1) := of_wf _
theorem attackEnd (x0 : Fin 16) : Statement (.attackEnd x0) := of_wf _
theorem effectFits (x0 : Fin 16) : Statement (.effectFits x0) := of_wf _
theorem balanceMoveStart (x0 : List (BitVec 32)) : Statement (.balanceMoveStart x0) := of_wf _
theorem balanceMoveDone : Statement (.balanceMoveDone) := of_wf _
theorem linkBringUp (x0 : Fin 4) : Statement (.linkBringUp x0) := of_wf _

end Sys2Proof.Laws.Carried
end

