-- ==== Sys2Proof/Laws/Rings.lean ====
section
/-!
SUPPORT. What fetching a ring command and writing a completion entry do.
-/

namespace Sys2Proof.Machine

theorem length_leBytes' (w n : Nat) : (leBytes w n).length = w := by
  induction w generalizing n with
  | zero => rfl
  | succ w ih => simp [leBytes, ih]

theorem voteRing_none {s : State} (h : s.votes = []) (i : Nat) : voteRing s i = s := by
  simp [voteRing, voteField, h, tfind]

@[simp] theorem ringOf_fetched (s : State) (h : CmdHdr) (op : Nat) (pay : List Byte) : ringOf (fetched s h op pay) h.ring =
    { ringOf s h.ring with head := ((ringOf s h.ring).head + 1) % 65536, fetched := (ringOf s h.ring).fetched + 1 } :=
  ringOf_modRing ..

theorem fetched_changes (s : State) (h : CmdHdr) (op : Nat) (pay : List Byte) : Changes [.host, .rings] s (fetched s h op pay) :=
  ch_rings (placeCmd_ch (by decide) (Changes.refl _ s)) (by decide)

/-- A command that passes its checks is fetched and gets its ticket. -/
theorem beginCmd_fetches {s : State} {h : CmdHdr} {op : Nat} {pay : List Byte} {write : Bool} (hf : Fetches s h op write) :
    beginCmd s h op pay write = (fetched s h op pay, some (ticketOf s h op)) := by
  have ht : takeCmd s h op pay = (fetched s h op pay, ticketOf s h op) := by
    unfold takeCmd
    simp only [ticketOf]
    rw [show (modRing (placeCmd s h op pay) h.ring fun r => { r with head := (r.head + 1) % 65536, fetched := r.fetched + 1 }) =
      fetched s h op pay from rfl, ringOf_fetched]
    rfl
  unfold beginCmd
  rw [voteRing_none hf.votes]
  dsimp only
  rw [hf.fetch]
  simp only [Bool.not_true, Bool.false_eq_true, if_false, ht]
  rw [if_pos (show failedChecks (fetched s h op pay) h op true write = 0 from hf.checks)]

theorem markPage_high (s : State) (v page a : Nat) (h : 2 ^ 64 ≤ a) : memGet (markPage s v page).host a = memGet s.host a := by
  unfold markPage
  dsimp only
  rw [memGet_memSet, if_neg]
  unfold hostKey
  omega

theorem fold_markPage_high (l : List Nat) (s : State) (v a : Nat) (h : 2 ^ 64 ≤ a) :
    memGet (foldN l (fun s p => markPage s v p) s).host a = memGet s.host a := by
  unfold foldN
  induction l generalizing s with
  | nil => rfl
  | cons p l ih => simp only [List.foldl_cons]; rw [ih]; exact markPage_high s v p a h

/-- The dirty-page log's bits lie in the host memory of function 0, and a PF's writes mark none. -/
theorem markDirty_host (s : State) (f a n : Nat) (k : Nat) (h : f = 0 ∨ 2 ^ 64 ≤ k) :
    memGet (markDirty s f a n).host k = memGet s.host k := by
  unfold markDirty
  split
  · rfl
  · next h' =>
    have hk : 2 ^ 64 ≤ k := h.resolve_left (fun e => h' (Or.inl e))
    dsimp only
    split
    · exact fold_markPage_high _ _ _ _ hk
    · rw [show ∀ x : State, (bump x (K.logOut f)).host = x.host from fun _ => rfl]
      exact fold_markPage_high _ _ _ _ hk

theorem memGetAll_congr {m m' : Memory} {a n : Nat} (h : ∀ k, a ≤ k → memGet m k = memGet m' k) : memGetAll m a n = memGetAll m' a n := by
  induction n generalizing a with
  | zero => rfl
  | succ n ih =>
    simp only [memGetAll, h a (Nat.le_refl _)]
    rw [ih (fun k hk => h k (by omega))]

theorem memGetAll_take (m : Memory) (a n k : Nat) : (memGetAll m a (n + k)).take n = memGetAll m a n := by
  induction n generalizing a with
  | zero => simp [memGetAll]
  | succ n ih => rw [show n + 1 + k = n + k + 1 by omega]; simp only [memGetAll, List.take_succ_cons, ih]

/-- A module write to host memory is what a read of it returns. -/
theorem hostRead_hostWrite (s : State) (f a : Nat) (b : List Byte) : hostRead (hostWrite s f a b) f a b.length = b := by
  unfold hostRead hostWrite
  rw [memGetAll_congr (m' := memSetAll s.host (hostKey f a) b)]
  · exact memGetAll_memSetAll _ _ _
  · intro k hk
    refine markDirty_host _ _ _ _ _ ?_
    by_cases h : f = 0
    · exact Or.inl h
    · refine Or.inr (Nat.le_trans ?_ hk)
      unfold hostKey
      have : 1 ≤ f := by omega
      calc 2 ^ 64 = 1 * 2 ^ 64 := by ring
        _ ≤ f * 2 ^ 64 := Nat.mul_le_mul_right _ this
        _ ≤ _ := Nat.le_add_right _ _

theorem hostRead_of_host {s t : State} (h : t.host = s.host) (f a n : Nat) : hostRead t f a n = hostRead s f a n := by
  unfold hostRead; rw [h]

theorem length_completionBytes (s : State) (c : HeldCompletion) (j : Nat) : (completionBytes s c j).length = 32 := by
  simp [completionBytes, length_leBytes']

theorem hostWrite_changes (s : State) (f a : Nat) (b : List Byte) : Changes [.host, .notes] s (hostWrite s f a b) :=
  hostWrite_ch (List.Subset.refl _) (Changes.refl _ s)

/-- Writing a completion entry: what its memory reads, and the completion index. -/
theorem writeCompletion_spec (s : State) (c : HeldCompletion) :
    hostRead (writeCompletion s c) c.ticket.func
      (getN s (K.ringCqBase c.ticket.ring) + 32 * ((ringOf s c.ticket.ring).cqTail % 2 ^ getN s (K.ringCqOrder c.ticket.ring))) 32 =
        completionBytes s c (ringOf s c.ticket.ring).cqTail ∧
    ringOf (writeCompletion s c) c.ticket.ring = { ringOf s c.ticket.ring with
      cqTail := ((ringOf s c.ticket.ring).cqTail + 1) % 65536, completed := (ringOf s c.ticket.ring).completed + 1 } ∧
    (∀ j, j ≠ c.ticket.ring → ringOf (writeCompletion s c) j = ringOf s j) := by
  let a := getN s (K.ringCqBase c.ticket.ring) + 32 * ((ringOf s c.ticket.ring).cqTail % 2 ^ getN s (K.ringCqOrder c.ticket.ring))
  let u := hostWrite s c.ticket.func a (completionBytes s c (ringOf s c.ticket.ring).cqTail)
  let v := modRing u c.ticket.ring (fun r => { r with cqTail := (r.cqTail + 1) % 65536, completed := r.completed + 1 })
  have hw : writeCompletion s c = if c.ticket.irq && getB v (K.ringIrq c.ticket.ring) then
      raiseVec v c.ticket.func (getN v (K.ringVec c.ticket.ring)) else v := rfl
  have hu := hostWrite_changes s c.ticket.func a (completionBytes s c (ringOf s c.ticket.ring).cqTail)
  have hur : ∀ j, ringOf u j = ringOf s j := fun j => by unfold ringOf; rw [hu.rings (by decide)]
  have hv : Changes [.fresh, .voteSecond, .funcs, .sess, .grog, .notes] v (writeCompletion s c) := by
    rw [hw]
    exact ch_ite (raiseVec_ch (List.Subset.refl _) (Changes.refl _ v)) (Changes.refl _ v)
  have hvr : ∀ j, ringOf (writeCompletion s c) j = ringOf v j := fun j => by unfold ringOf; rw [hv.rings (by decide)]
  refine ⟨?_, ?_, ?_⟩
  · rw [hostRead_of_host (hv.host (by decide)), hostRead_of_host (show v.host = u.host from rfl)]
    have := hostRead_hostWrite s c.ticket.func a (completionBytes s c (ringOf s c.ticket.ring).cqTail)
    rw [length_completionBytes] at this
    exact this
  · rw [hvr, show ringOf v c.ticket.ring = _ from ringOf_modRing .., hur]
  · intro j hj
    rw [hvr, show ringOf v j = _ from ringOf_modRing_ne _ _ hj, hur]

/-- What a later state may differ in from the state in which a ring's command was fetched, for the completion to be the same. -/
structure SameRing (s u : State) (h : CmdHdr) : Prop where
  head : (ringOf u h.ring).head = ((ringOf s h.ring).head + 1) % 65536
  cqTail : (ringOf u h.ring).cqTail = (ringOf s h.ring).cqTail
  cqHead : (ringOf u h.ring).cqHead = (ringOf s h.ring).cqHead
  era : (ringOf u h.ring).era = (ringOf s h.ring).era
  held : (ringOf u h.ring).held = (ringOf s h.ring).held
  now : u.now = s.now
  epoch : (funcOf u (getN s (K.ringOwner h.ring))).epoch = (funcOf s (getN s (K.ringOwner h.ring))).epoch
  cqBase : getN u (K.ringCqBase h.ring) = getN s (K.ringCqBase h.ring)
  cqOrder : getN u (K.ringCqOrder h.ring) = getN s (K.ringCqOrder h.ring)

theorem SameRing.fetched (s : State) (h : CmdHdr) (op : Nat) (pay : List Byte) : SameRing s (fetched s h op pay) h := by
  constructor <;> first | rfl | (rw [ringOf_fetched])

theorem canFetch_cq {s : State} {h : Nat} (hc : canFetch s h = true) : cqFull s h = false := by
  unfold canFetch at hc
  simp only [Bool.and_eq_true] at hc
  simpa using hc.1.1.1.1.2

theorem cqFull_same {s u : State} {h : CmdHdr} (hs : SameRing s u h) : cqFull u h.ring = cqFull s h.ring := by
  unfold cqFull
  rw [hs.cqOrder, hs.cqTail, hs.cqHead]

/-- A completion whatever the COMPLETE flag: the entry is written. -/
theorem completeAlways_entry {s u : State} {h : CmdHdr} {op st x d : Nat} (hc : cqFull s h.ring = false) (hh : (ringOf s h.ring).held = [])
    (hs : SameRing s u h) : entryWritten s (completeAlways u (ticketOf s h op) st x d) h op st (x % 2 ^ 64) ∧
      (∀ j, j ≠ h.ring.val → ringOf (completeAlways u (ticketOf s h op) st x d) j = ringOf u j) := by
  let c : HeldCompletion := ⟨ticketOf s h op, st, x % 2 ^ 64, d % 2 ^ 32⟩
  have : completeAlways u (ticketOf s h op) st x d = writeCompletion u c := by
    unfold completeAlways
    rw [if_neg (by
      rintro (h1 | h1)
      · exact h1 hs.epoch
      · exact h1 hs.era)]
    dsimp only
    have e1 : cqFull u (ticketOf s h op).ring = false := (cqFull_same hs).trans hc
    have e2 : (ringOf u (ticketOf s h op).ring).held = [] := hs.held.trans hh
    rw [e1, e2]
    rfl
  rw [this]
  obtain ⟨h1, h2, h3⟩ := writeCompletion_spec u c
  have hring : c.ticket.ring = h.ring.val := rfl
  rw [hring] at h1 h2 h3
  rw [hs.cqBase, hs.cqOrder, hs.cqTail] at h1
  refine ⟨⟨?_, ?_, ?_⟩, h3⟩
  · rw [h2]; exact hs.head
  · rw [h2]; simp only [hs.cqTail]
  · have h4 := congrArg (List.take 24) h1
    unfold hostRead at h4 ⊢
    rw [memGetAll_take _ _ 24 8] at h4
    refine h4.trans ?_
    unfold completionBytes
    rw [hring, hs.cqOrder, hs.now]
    rw [List.append_assoc, List.take_left' (by simp [length_leBytes'])]
    rfl

theorem completeAlways_changes (u : State) (t : Ticket) (st x d : Nat) :
    Changes [.fresh, .voteSecond, .host, .funcs, .sess, .rings, .grog, .notes] u (completeAlways u t st x d) :=
  completeAlways_ch (List.Subset.refl _) (Changes.refl _ u)

/-- A completion that its command asked for, or none. -/
theorem complete_done {s u : State} {h : CmdHdr} {op st x d : Nat} {write : Bool} {res : Option Nat} (hf : Fetches s h op write)
    (hs : SameRing s u h) (hres : ∀ n, res = some n → x = n) : ringDone s (complete u (ticketOf s h op) st x d) h op st res ∧
      (∀ j, j ≠ h.ring.val → ringOf (complete u (ticketOf s h op) st x d) j = ringOf u j) ∧
      Changes [.fresh, .voteSecond, .host, .funcs, .sess, .rings, .grog, .notes] u (complete u (ticketOf s h op) st x d) := by
  obtain ⟨h1, h2⟩ := completeAlways_entry (op := op) (st := st) (x := x) (d := d) (canFetch_cq hf.fetch) hf.held hs
  have hcm : (ticketOf s h op).complete = bitOf h.flags.toNat 0 := rfl
  unfold complete
  rw [hcm]
  by_cases hb : bitOf h.flags.toNat 0 = true
  · rw [if_pos hb]
    exact ⟨⟨h1.1, fun _ => ⟨x % 2 ^ 64, fun n hn => by rw [hres n hn], h1⟩, fun e => absurd hb (by simp [e])⟩, h2, completeAlways_changes ..⟩
  · rw [if_neg hb]
    exact ⟨⟨hs.head, fun e => absurd e hb, fun _ => hs.cqTail⟩, fun _ _ => rfl, Changes.refl _ _⟩

theorem SameRing.draw {s u : State} {h : CmdHdr} (hs : SameRing s u h) : SameRing s (draw u) h := ⟨hs.1, hs.2, hs.3, hs.4, hs.5, hs.6, hs.7, hs.8, hs.9⟩

theorem completeR_done {s u : State} {h : CmdHdr} {op st x : Nat} {write : Bool} (hf : Fetches s h op write) (hs : SameRing s u h) :
    ringDone s (completeR u (ticketOf s h op) st x) h op st (some x) ∧
      (∀ j, j ≠ h.ring.val → ringOf (completeR u (ticketOf s h op) st x) j = ringOf u j) ∧
      Changes [.fresh, .voteSecond, .host, .funcs, .sess, .rings, .grog, .notes] u (completeR u (ticketOf s h op) st x) := by
  obtain ⟨h1, h2, h3⟩ := complete_done (st := st) (x := x) (d := Config.freeNat u.fresh) hf hs.draw (res := some x) (by rintro n ⟨⟩; rfl)
  exact ⟨h1, h2, (draw_ch (by decide) (Changes.refl _ u)).trans h3⟩

theorem completeOpen_done {s u : State} {h : CmdHdr} {op st : Nat} {write : Bool} (hf : Fetches s h op write) (hs : SameRing s u h) :
    ringDone s (completeOpen u (ticketOf s h op) st) h op st none ∧
      (∀ j, j ≠ h.ring.val → ringOf (completeOpen u (ticketOf s h op) st) j = ringOf u j) ∧
      Changes [.fresh, .voteSecond, .host, .funcs, .sess, .rings, .grog, .notes] u (completeOpen u (ticketOf s h op) st) := by
  obtain ⟨h1, h2, h3⟩ := complete_done (st := st) (x := Config.freeNat u.fresh) (d := Config.freeNat (u.fresh + 1)) hf hs.draw.draw (res := none) (by rintro n ⟨⟩)
  exact ⟨h1, h2, (draw_ch (by decide) (draw_ch (by decide) (Changes.refl _ u))).trans h3⟩

end Sys2Proof.Machine
end

