-- ==== Sys2Proof/Laws/Writes.lean ====
section
/-!
SUPPORT. What a write of a numeric object comes to when its requester may write it, the value is in range, its area's checks accept it
and no claim refuses it: the area's effect, then the answer.
-/

namespace Sys2Proof.Machine

/-- The objects that only a part without the dictionary's changes leave. -/
theorem Changes.getV {P : List Part} {s t : State} (h : Changes P s t) (h1 : Part.objs ∉ P) (h2 : Part.notes ∉ P) (k : Nat) :
    getV t k = getV s k := by simp [Machine.getV, h.objs h1 h2]

theorem Changes.getN {P : List Part} {s t : State} (h : Changes P s t) (h1 : Part.objs ∉ P) (h2 : Part.notes ∉ P) (k : Nat) :
    getN t k = getN s k := by unfold Machine.getN; rw [h.getV h1 h2]

theorem Changes.getB {P : List Part} {s t : State} (h : Changes P s t) (h1 : Part.objs ∉ P) (h2 : Part.notes ∉ P) (k : Nat) :
    getB t k = getB s k := by unfold Machine.getB; rw [h.getN h1 h2]

theorem Changes.ctrOf {P : List Part} {s t : State} (h : Changes P s t) (h1 : Part.objs ∉ P) (h2 : Part.notes ∉ P) (k : Nat) :
    ctrOf t k = ctrOf s k := by simp [Machine.ctrOf, h.objs h1 h2]

theorem Changes.only {P : List Part} {s t : State} (h : Changes P s t) (h1 : Part.objs ∉ P) (h2 : Part.notes ∉ P) (ks : List Nat) :
    onlyObjs ks s t := fun k _ => ⟨h.getV h1 h2 k, h.ctrOf h1 h2 k⟩

/-- What an executed request changes, from the state it ran in to the state with its answer. -/
theorem changes_done {P : List Part} {s t u : State} {i : Nat} (h : Changes P (renewed s i) t) (hu : Changes [.sess, .resp] t u)
    (h1 : Part.sess ∈ P) (h2 : Part.resp ∈ P) : Changes P s u :=
  ((renewed_changes i h1 (Changes.refl P s)).trans h).trans (hu.mono (by simp [h1, h2]))

@[simp] theorem firstRefusal_nil : firstRefusal [] = .ok := rfl

@[simp] theorem firstRefusal_cons (b : Bool) (st : Status) (l : List (Bool × Status)) :
    firstRefusal ((b, st) :: l) = if b = true then st else firstRefusal l := by cases b <;> rfl

@[simp] theorem surfOf_writeV (s : State) (k : Nat) (v : Val) : surfOf (writeV s k v) = surfOf s := by
  funext i; unfold surfOf
  rw [(writeV_ch (P := [.objs]) (List.Subset.refl _) (Changes.refl _ s)).surfs (by decide)]

theorem ofLe_leBytes (w n : Nat) (h : n < 256 ^ w) : ofLe (leBytes w n) = n := by
  induction w generalizing n with
  | zero => simp at h; simp [leBytes, ofLe, h]
  | succ w ih =>
    have : n / 256 < 256 ^ w := by rw [Nat.pow_succ] at h; omega
    simp only [leBytes, ofLe, ih _ this, BitVec.toNat_ofNat]
    omega

/-- A numeric type that a number fits. -/
def fitsTy (t : Ty) (n : Nat) : Bool :=
  match t with
  | .str => false
  | .blob => false
  | .f32 => false
  | .bool => decide (n < 2)
  | t => decide (n < 256 ^ t.size)

theorem parse_num {t : Ty} {n : Nat} (h : fitsTy t n = true) : parseVal t (leBytes t.size n) = some (.num n) := by
  have hl := length_leBytes t.size n
  have hn : n < 256 ^ t.size := by
    cases t <;> first
      | exact of_decide_eq_true h
      | exact Nat.lt_trans (of_decide_eq_true h) (by decide)
      | cases h
  have ho := ofLe_leBytes _ _ hn
  generalize leBytes t.size n = b at hl ho
  cases t <;> simp only [fitsTy, decide_eq_true_eq, Bool.false_eq_true] at h <;> simp [parseVal, hl, ho, h, Ty.size]

/-- The row of the object at a key: its type, its access class and its ranges; and the key is no alias. -/
def rowIs (k : Nat) (t : Ty) (a : Acc) (rg : List (Int × Int)) : Bool :=
  match lookupObj (k / 256) (k % 256) with
  | some (r, _) => r.ty == t && r.acc == a && r.ranges == rg && targetOf (k / 256) (k % 256) == (k / 256, k % 256)
  | none => false

/-- The writer that an open session's request is. -/
def sessionCtx (s : State) (r : DictReq) (i : Nat) (found : Option Nat) : WCtx :=
  { role := (sessOf s i).role, func := (sessOf s i).func, session := r.session.toNat, found := found }

/-- What MRAM keeps of a write: a stored object's value (R21). -/
def keptIn (a : Acc) (t : State) (k n : Nat) : State := if a.stored then (storeKey t k (.num n)).1 else t

/-- MRAM takes a stored object's value; any other needs none. -/
def canKeep (a : Acc) (t : State) (k : Nat) : Prop := a.stored = false ∨ t.grog.badRows.contains (t.grog.home (rowOfKey t k)) = false

theorem keptIn_changes (a : Acc) (t : State) (k n : Nat) : Changes [.mram, .fresh, .objs, .voteSecond, .funcs, .sess, .frames, .grog, .notes] t (keptIn a t k n) := by
  unfold keptIn
  split
  · exact storeKey_ch (part_sub (List.Subset.refl _) rfl) (Changes.refl _ _)
  · exact Changes.refl _ _

theorem storeWrite_accepted {s t : State} {c : WCtx} {row : ObjRow} {idx sub n : Nat} {st : Status}
    (hc : areaCheck s c idx sub (.num n) = .ok) (hcl : (areaClaims s idx sub n).1 = [] ∨ c.role = .tw)
    (ha : areaApply s c idx sub (.num n) = (t, st)) (hst : canKeep row.acc t (objKey idx sub)) :
    storeWrite s c row idx sub (.num n) = ⟨st, keptIn row.acc t (objKey idx sub) n, [], 0⟩ := by
  unfold storeWrite keptIn
  rw [hc, ha]
  have h : (if c.role = .tw then (([] : List Nat), 0) else areaClaims s idx sub (Val.num n).toNat).1 = [] := by
    split
    · rfl
    · next hr => exact hcl.resolve_right hr
  rcases hp : (if c.role = .tw then (([] : List Nat), 0) else areaClaims s idx sub (Val.num n).toNat) with ⟨ds, req⟩
  rw [hp] at h
  simp only at h
  subst h
  cases hs : row.acc.stored with
  | false => simp
  | true =>
    have hb := hst.resolve_left (by simp [hs])
    have : storeKey t (objKey idx sub) (.num n) = ((storeKey t (objKey idx sub) (.num n)).1, true) := by
      unfold storeKey
      dsimp only
      rw [hb]
      rfl
    simp only [if_true]
    rw [this]
    simp

/-- A write of a number that passes every check comes to its area's effect. -/
theorem writeObj_accepted {s t : State} {c : WCtx} {k n : Nat} {ty : Ty} {a : Acc} {rg : List (Int × Int)} {st : Status}
    {h : ItemHdr} {expected : Option Nat} (hi : h.index.toNat = k / 256) (hs : h.sub.toNat = k % 256) (ht : h.ty.toNat = ty.code)
    (hrow : rowIs k ty a rg = true) (hfit : fitsTy ty n = true)
    (hw : ∀ row : ObjRow, row.acc = a → mayWriteObj s c row (k / 256) (k % 256) n = true)
    (hx : expected = none ∨ expected = some (ctrOf s k))
    (hr : rg.any (fun i => decide (i.1 ≤ measureOf ty (.num n) ∧ measureOf ty (.num n) ≤ i.2)) = true)
    (hc : areaCheck s c (k / 256) (k % 256) (.num n) = .ok)
    (hcl : (areaClaims s (k / 256) (k % 256) n).1 = [] ∨ c.role = .tw) (hst : canKeep a t k)
    (ha : areaApply s c (k / 256) (k % 256) (.num n) = (t, st)) :
    writeObj s c h (leBytes ty.size n) expected = ⟨st, keptIn a t k n, [], 0⟩ := by
  unfold rowIs at hrow
  split at hrow
  · next row j hl =>
    simp only [Bool.and_eq_true, beq_iff_eq] at hrow
    obtain ⟨⟨⟨h1, h2⟩, h3⟩, h4⟩ := hrow
    have hk : objKey (k / 256) (k % 256) = k := by unfold objKey; omega
    unfold writeObj
    rw [hi, hs, hl]
    simp only [h4, hl, Option.map_some, Option.getD_some]
    rw [ht, ← h1, if_pos rfl, h1, parse_num hfit]
    have hin : inRange row (.num n) = true := by unfold inRange; rw [h3, h1]; exact hr
    have hstale : (expected.isSome && expected != some (ctrOf s (objKey (k / 256) (k % 256)))) = false := by
      rw [hk]; rcases hx with rfl | rfl <;> simp
    simp only [Option.map_some, Option.getD_some, Val.toNat, hw row h2, Bool.not_true, Bool.false_eq_true, if_false, hstale, hin,
      Bool.or_self]
    have := storeWrite_accepted (row := row) hc hcl ha (by rw [h2, hk]; exact hst)
    rw [h2, hk] at this
    exact this
  · cases hrow

theorem numWrite_eq {k n : Nat} {ty : Ty} {a : Acc} {rg : List (Int × Int)} (hrow : rowIs k ty a rg = true) :
    numWrite (k / 256) (k % 256) n =
      .write ⟨BitVec.ofNat 16 (k / 256), BitVec.ofNat 8 (k % 256), BitVec.ofNat 8 ty.code⟩ (leBytes ty.size n) := by
  unfold rowIs at hrow
  split at hrow
  · next row j hl =>
    simp only [Bool.and_eq_true, beq_iff_eq] at hrow
    unfold numWrite
    simp only [hl, Option.map_some, Option.getD_some, hrow.1.1.1]
  · cases hrow

theorem numWriteIf_eq {k n : Nat} {ty : Ty} {a : Acc} {rg : List (Int × Int)} {e : BitVec 16} (hrow : rowIs k ty a rg = true) :
    numWriteIf (k / 256) (k % 256) n e =
      .writeIf ⟨BitVec.ofNat 16 (k / 256), BitVec.ofNat 8 (k % 256), BitVec.ofNat 8 ty.code⟩ e (leBytes ty.size n) := by
  unfold rowIs at hrow
  split at hrow
  · next row j hl =>
    simp only [Bool.and_eq_true, beq_iff_eq] at hrow
    unfold numWriteIf
    simp only [hl, Option.map_some, Option.getD_some, hrow.1.1.1]
  · cases hrow

theorem code_lt (t : Ty) : t.code < 256 := by cases t <;> decide

theorem rowFor_of {k : Nat} {ty : Ty} {a : Acc} {rg : List (Int × Int)} {h : ItemHdr} (hi : h.index.toNat = k / 256)
    (hs : h.sub.toNat = k % 256) (hrow : rowIs k ty a rg = true) : ∃ r, rowFor h = some r ∧ r.ty = ty := by
  unfold rowIs at hrow
  split at hrow
  · next row j hl =>
    simp only [Bool.and_eq_true, beq_iff_eq] at hrow
    refine ⟨row, ?_, hrow.1.1.1⟩
    unfold rowFor
    rw [hi, hs, hl]
    simp only [hrow.2, hl, Option.map_some, Option.getD_some]
  · cases hrow

/-- What an accepted write answers, as a request's answer. -/
theorem opWrite_accepted {s t : State} {c : WCtx} {k n : Nat} {ty : Ty} {a : Acc} {rg : List (Int × Int)} {st : Status}
    {h : ItemHdr} {expected : Option Nat} (hi : h.index.toNat = k / 256) (hs : h.sub.toNat = k % 256) (ht : h.ty.toNat = ty.code)
    (hrow : rowIs k ty a rg = true) (hfit : fitsTy ty n = true)
    (hw : ∀ row : ObjRow, row.acc = a → mayWriteObj s { c with cond := expected.isSome } row (k / 256) (k % 256) n = true)
    (hx : expected = none ∨ expected = some (ctrOf s k))
    (hr : rg.any (fun i => decide (i.1 ≤ measureOf ty (.num n) ∧ measureOf ty (.num n) ≤ i.2)) = true)
    (hc : areaCheck s { c with cond := expected.isSome } (k / 256) (k % 256) (.num n) = .ok)
    (hcl : (areaClaims s (k / 256) (k % 256) n).1 = [] ∨ c.role = .tw) (hst : canKeep a t k)
    (ha : areaApply s { c with cond := expected.isSome } (k / 256) (k % 256) (.num n) = (t, st)) (hok : st = .ok ∨ st = .intransit) :
    ∃ p, p.length = 6 ∧ opWrite s c h (leBytes ty.size n) expected = ⟨keptIn a t k n, st, p, false, 0⟩ := by
  have hwr := writeObj_accepted (c := { c with cond := expected.isSome }) hi hs ht hrow hfit hw hx hr hc hcl hst ha
  obtain ⟨r, hr1, hr2⟩ := rowFor_of hi hs hrow
  have hset : (WriteOut.mk st (keptIn a t k n) [] 0).settled s { c with cond := expected.isSome } h = keptIn a t k n := by
    unfold WriteOut.settled
    rcases hok with rfl | rfl <;> rfl
  refine ⟨itemHdr h r ++ leBytes 2 (ctrFor (keptIn a t k n) h), by simp [itemHdr, length_leBytes], ?_⟩
  unfold opWrite
  dsimp only
  rw [hwr, hset, if_pos hok, hr1]

/-- What a refused write answers. -/
theorem opWrite_refused {s : State} {c : WCtx} {h : ItemHdr} {d : List Byte} {expected : Option Nat} {st : Status}
    (hw : writeObj s { c with cond := expected.isSome } h d expected = ⟨st, s, [], 0⟩) (h1 : st ≠ .ok ∧ st ≠ .intransit)
    (h2 : st ≠ .claimed) : opWrite s c h d expected = refused s st := by
  have hset : (WriteOut.mk st s [] 0).settled s { c with cond := expected.isSome } h = s := by
    unfold WriteOut.settled
    split
    · rfl
    · unfold afterRefusal
      rw [if_neg h2]
  unfold opWrite
  dsimp only
  rw [hw, hset, if_neg (by simpa using h1)]

/-- A write of a number that its area's checks refuse. -/
theorem writeObj_refused {s : State} {c : WCtx} {k n : Nat} {ty : Ty} {a : Acc} {rg : List (Int × Int)} {st : Status}
    {h : ItemHdr} {expected : Option Nat} (hi : h.index.toNat = k / 256) (hs : h.sub.toNat = k % 256) (ht : h.ty.toNat = ty.code)
    (hrow : rowIs k ty a rg = true) (hfit : fitsTy ty n = true)
    (hw : ∀ row : ObjRow, row.acc = a → mayWriteObj s c row (k / 256) (k % 256) n = true)
    (hx : expected = none ∨ expected = some (ctrOf s k))
    (hr : rg.any (fun i => decide (i.1 ≤ measureOf ty (.num n) ∧ measureOf ty (.num n) ≤ i.2)) = true)
    (hc : areaCheck s c (k / 256) (k % 256) (.num n) = st) (hok : st ≠ .ok)
    (hcl : (areaClaims s (k / 256) (k % 256) n).1 = [] ∨ c.role = .tw ∨ st = .range) :
    writeObj s c h (leBytes ty.size n) expected = ⟨st, s, [], 0⟩ := by
  unfold rowIs at hrow
  split at hrow
  · next row j hl =>
    simp only [Bool.and_eq_true, beq_iff_eq] at hrow
    obtain ⟨⟨⟨h1, h2⟩, h3⟩, h4⟩ := hrow
    have hk : objKey (k / 256) (k % 256) = k := by unfold objKey; omega
    unfold writeObj
    rw [hi, hs, hl]
    simp only [h4, hl, Option.map_some, Option.getD_some]
    rw [ht, ← h1, if_pos rfl, h1, parse_num hfit]
    have hin : inRange row (.num n) = true := by unfold inRange; rw [h3, h1]; exact hr
    have hstale : (expected.isSome && expected != some (ctrOf s (objKey (k / 256) (k % 256)))) = false := by
      rw [hk]; rcases hx with rfl | rfl <;> simp
    simp only [Option.map_some, Option.getD_some, Val.toNat, hw row h2, Bool.not_true, Bool.false_eq_true, if_false, hstale, hin,
      Bool.or_self]
    unfold storeWrite
    rw [hc]
    by_cases hrange : st = .range
    · simp [hrange]
    · have hcl' := hcl.imp_right (fun x => x.resolve_right hrange)
      have h : (if c.role = .tw then (([] : List Nat), 0) else areaClaims s (k / 256) (k % 256) n).1 = [] := by
        split
        · rfl
        · next hr => exact hcl'.resolve_right hr
      simp only [Val.toNat]
      rcases hp : (if c.role = .tw then (([] : List Nat), 0) else areaClaims s (k / 256) (k % 256) n) with ⟨ds, req⟩
      rw [hp] at h
      simp only at h
      subst h
      simp [hrange, hok]
  · cases hrow

/-- A write command that its area's checks refuse: answered with the refusal, and nothing changed. -/
theorem writeObject_refused {s : State} {r : DictReq} {i k n : Nat} {ty : Ty} {a : Acc} {rg : List (Int × Int)} {st : Status}
    {found : Option Nat} (hrow : rowIs k ty a rg = true) (hk : k < 2 ^ 24) (h : Admitted s r i (numWrite (k / 256) (k % 256) n))
    (hfit : fitsTy ty n = true)
    (hw : ∀ row : ObjRow, row.acc = a → mayWriteObj (renewed s i) (sessionCtx s r i found) row (k / 256) (k % 256) n = true)
    (hr : rg.any (fun i => decide (i.1 ≤ measureOf ty (.num n) ∧ measureOf ty (.num n) ≤ i.2)) = true)
    (hc : areaCheck (renewed s i) (sessionCtx s r i found) (k / 256) (k % 256) (.num n) = st)
    (hcl : (areaClaims (renewed s i) (k / 256) (k % 256) n).1 = [] ∨ st = .range) (h1 : st ≠ .ok ∧ st ≠ .intransit) (h2 : st ≠ .claimed) :
    ∃ u, writeObject s r k n found = .next u ∧ answered u r 0x11 st ∧ Changes [.fresh, .sess, .resp] s u := by
  have h16 : (BitVec.ofNat 16 (k / 256)).toNat = k / 256 := by rw [BitVec.toNat_ofNat]; omega
  have h8 : (BitVec.ofNat 8 (k % 256)).toNat = k % 256 := by rw [BitVec.toNat_ofNat]; omega
  have ht : (BitVec.ofNat 8 ty.code).toNat = ty.code := by have := code_lt ty; rw [BitVec.toNat_ofNat]; omega
  unfold writeObject
  rw [numWrite_eq hrow] at h ⊢
  have hans : sessionAnswer s r i (.write ⟨BitVec.ofNat 16 (k / 256), BitVec.ofNat 8 (k % 256), BitVec.ofNat 8 ty.code⟩
      (leBytes ty.size n)) found = refused (renewed s i) st :=
    opWrite_refused (writeObj_refused h16 h8 ht hrow hfit hw (Or.inl rfl) hr hc h1.1
      (hcl.elim Or.inl (fun x => Or.inr (Or.inr x)))) h1 h2
  obtain ⟨u, hu, ha, hch⟩ := request_refused h hans h1
  exact ⟨u, hu, ha, (renewed_changes i (by decide) (Changes.refl _ s)).trans hch⟩

/-- A write command in a session, when its checks accept it: the area's effect, and the answer. -/
theorem writeObject_accepted {s t : State} {r : DictReq} {i k n : Nat} {ty : Ty} {a : Acc} {rg : List (Int × Int)} {st : Status}
    {found : Option Nat} (hrow : rowIs k ty a rg = true) (hk : k < 2 ^ 24) (h : Admitted s r i (numWrite (k / 256) (k % 256) n))
    (hfit : fitsTy ty n = true)
    (hw : ∀ row : ObjRow, row.acc = a → mayWriteObj (renewed s i) (sessionCtx s r i found) row (k / 256) (k % 256) n = true)
    (hr : rg.any (fun i => decide (i.1 ≤ measureOf ty (.num n) ∧ measureOf ty (.num n) ≤ i.2)) = true)
    (hc : areaCheck (renewed s i) (sessionCtx s r i found) (k / 256) (k % 256) (.num n) = .ok)
    (hcl : (areaClaims (renewed s i) (k / 256) (k % 256) n).1 = []) (hst : canKeep a t k)
    (ha : areaApply (renewed s i) (sessionCtx s r i found) (k / 256) (k % 256) (.num n) = (t, st))
    (hok : st = .ok ∨ st = .intransit) :
    ∃ p, writeObject s r k n found = .next (afterAnswer r i 0x11 ⟨keptIn a t k n, st, p, false, 0⟩) := by
  have h16 : (BitVec.ofNat 16 (k / 256)).toNat = k / 256 := by rw [BitVec.toNat_ofNat]; omega
  have h8 : (BitVec.ofNat 8 (k % 256)).toNat = k % 256 := by rw [BitVec.toNat_ofNat]; omega
  have ht : (BitVec.ofNat 8 ty.code).toNat = ty.code := by have := code_lt ty; rw [BitVec.toNat_ofNat]; omega
  obtain ⟨p, hp, ho⟩ := opWrite_accepted (s := renewed s i) (c := sessionCtx s r i found) (expected := none)
    (h := ⟨BitVec.ofNat 16 (k / 256), BitVec.ofNat 8 (k % 256), BitVec.ofNat 8 ty.code⟩) h16 h8 ht hrow hfit hw (Or.inl rfl) hr hc
    (Or.inl hcl) hst ha hok
  refine ⟨p, ?_⟩
  unfold writeObject
  rw [numWrite_eq hrow] at h ⊢
  have hans : sessionAnswer s r i (.write ⟨BitVec.ofNat 16 (k / 256), BitVec.ofNat 8 (k % 256), BitVec.ofNat 8 ty.code⟩
      (leBytes ty.size n)) found = ⟨keptIn a t k n, st, p, false, 0⟩ := ho
  have := request_admitted (found := found) h (by rw [hans]; show 12 + p.length ≤ _; rw [hp]; cases r.src <;> simp [maxPdu])
  rw [hans] at this
  exact this

/-- A conditional write command in a session, when its checks accept it. -/
theorem claimObject_accepted {s t : State} {r : DictReq} {i k : Nat} {owner : BitVec 8} {expected : BitVec 16} {ty : Ty} {a : Acc}
    {rg : List (Int × Int)} {st : Status} (hrow : rowIs k ty a rg = true) (hk : k < 2 ^ 24)
    (h : Admitted s r i (numWriteIf (k / 256) (k % 256) owner.toNat expected)) (hfit : fitsTy ty owner.toNat = true)
    (hw : ∀ row : ObjRow, row.acc = a →
      mayWriteObj (renewed s i) { sessionCtx s r i none with cond := true } row (k / 256) (k % 256) owner.toNat = true)
    (hx : expected.toNat = ctrOf s k)
    (hr : rg.any (fun i => decide (i.1 ≤ measureOf ty (.num owner.toNat) ∧ measureOf ty (.num owner.toNat) ≤ i.2)) = true)
    (hc : areaCheck (renewed s i) { sessionCtx s r i none with cond := true } (k / 256) (k % 256) (.num owner.toNat) = .ok)
    (hcl : (areaClaims (renewed s i) (k / 256) (k % 256) owner.toNat).1 = []) (hst : canKeep a t k)
    (ha : areaApply (renewed s i) { sessionCtx s r i none with cond := true } (k / 256) (k % 256) (.num owner.toNat) = (t, st))
    (hok : st = .ok ∨ st = .intransit) :
    ∃ p, claimObject s r k expected owner = .next (afterAnswer r i 0x12 ⟨keptIn a t k owner.toNat, st, p, false, 0⟩) := by
  have h16 : (BitVec.ofNat 16 (k / 256)).toNat = k / 256 := by rw [BitVec.toNat_ofNat]; omega
  have h8 : (BitVec.ofNat 8 (k % 256)).toNat = k % 256 := by rw [BitVec.toNat_ofNat]; omega
  have ht : (BitVec.ofNat 8 ty.code).toNat = ty.code := by have := code_lt ty; rw [BitVec.toNat_ofNat]; omega
  obtain ⟨p, hp, ho⟩ := opWrite_accepted (s := renewed s i) (c := sessionCtx s r i none) (expected := some expected.toNat)
    (h := ⟨BitVec.ofNat 16 (k / 256), BitVec.ofNat 8 (k % 256), BitVec.ofNat 8 ty.code⟩) h16 h8 ht hrow hfit hw
    (Or.inr (by rw [hx]; rfl)) hr hc (Or.inl hcl) hst ha hok
  refine ⟨p, ?_⟩
  unfold claimObject
  rw [numWriteIf_eq hrow] at h ⊢
  have hans : sessionAnswer s r i (.writeIf ⟨BitVec.ofNat 16 (k / 256), BitVec.ofNat 8 (k % 256), BitVec.ofNat 8 ty.code⟩ expected
      (leBytes ty.size owner.toNat)) none = ⟨keptIn a t k owner.toNat, st, p, false, 0⟩ := ho
  have := request_admitted (found := none) h (by rw [hans]; show 12 + p.length ≤ _; rw [hp]; cases r.src <;> simp [maxPdu])
  rw [hans] at this
  exact this

/-- A write command of the trusted world, when its checks accept it. -/
theorem twWriteObject_accepted {s t : State} {k n : Nat} {ty : Ty} {a : Acc} {rg : List (Int × Int)} {st : Status}
    (hrow : rowIs k ty a rg = true) (hk : k < 2 ^ 24) (hrun : firmwareRuns s = true) (hfit : fitsTy ty n = true)
    (hw : ∀ row : ObjRow, row.acc = a → mayWriteObj s { role := .tw } row (k / 256) (k % 256) n = true)
    (hr : rg.any (fun i => decide (i.1 ≤ measureOf ty (.num n) ∧ measureOf ty (.num n) ≤ i.2)) = true)
    (hc : areaCheck s { role := .tw } (k / 256) (k % 256) (.num n) = .ok) (hst : canKeep a t k)
    (ha : areaApply s { role := .tw } (k / 256) (k % 256) (.num n) = (t, st)) (hok : st = .ok ∨ st = .intransit) :
    ∃ p, twWriteObject s k n = .next { keptIn a t k n with twResp := some ⟨0x11, 0, 0, st, false, 0, p⟩ } := by
  have h16 : (BitVec.ofNat 16 (k / 256)).toNat = k / 256 := by rw [BitVec.toNat_ofNat]; omega
  have h8 : (BitVec.ofNat 8 (k % 256)).toNat = k % 256 := by rw [BitVec.toNat_ofNat]; omega
  have ht : (BitVec.ofNat 8 ty.code).toNat = ty.code := by have := code_lt ty; rw [BitVec.toNat_ofNat]; omega
  obtain ⟨p, hp, ho⟩ := opWrite_accepted (s := s) (c := { role := .tw }) (expected := none)
    (h := ⟨BitVec.ofNat 16 (k / 256), BitVec.ofNat 8 (k % 256), BitVec.ofNat 8 ty.code⟩) h16 h8 ht hrow hfit hw (Or.inl rfl) hr hc
    (Or.inr rfl) hst ha hok
  refine ⟨p, ?_⟩
  unfold twWriteObject twRequest
  rw [numWrite_eq hrow, hrun]
  have : execRequest s { role := .tw } none 1048576 (.write ⟨BitVec.ofNat 16 (k / 256), BitVec.ofNat 8 (k % 256), BitVec.ofNat 8 ty.code⟩
      (leBytes ty.size n)) = ⟨keptIn a t k n, st, p, false, 0⟩ := ho
  simp only [Bool.not_true, Bool.false_eq_true, if_false, this]
  rfl

/-- A write command in a session, when its checks accept it: answered, and the area's effect. -/
theorem writeObject_done {s t : State} {r : DictReq} {i k n : Nat} {ty : Ty} {a : Acc} {rg : List (Int × Int)} {st : Status}
    {found : Option Nat} (hrow : rowIs k ty a rg = true) (hk : k < 2 ^ 24) (h : Admitted s r i (numWrite (k / 256) (k % 256) n))
    (hfit : fitsTy ty n = true)
    (hw : ∀ row : ObjRow, row.acc = a → mayWriteObj (renewed s i) (sessionCtx s r i found) row (k / 256) (k % 256) n = true)
    (hr : rg.any (fun i => decide (i.1 ≤ measureOf ty (.num n) ∧ measureOf ty (.num n) ≤ i.2)) = true)
    (hc : areaCheck (renewed s i) (sessionCtx s r i found) (k / 256) (k % 256) (.num n) = .ok)
    (hcl : (areaClaims (renewed s i) (k / 256) (k % 256) n).1 = []) (hst : canKeep a t k)
    (ha : areaApply (renewed s i) (sessionCtx s r i found) (k / 256) (k % 256) (.num n) = (t, st))
    (hok : st = .ok ∨ st = .intransit) :
    ∃ u, writeObject s r k n found = .next u ∧ answered u r 0x11 st ∧ Changes [.sess, .resp] (keptIn a t k n) u := by
  obtain ⟨p, hp⟩ := writeObject_accepted hrow hk h hfit hw hr hc hcl hst ha hok
  exact ⟨_, hp, answered_afterAnswer .., afterAnswer_changes _ _ _ ⟨_, _, _, _, _⟩⟩

/-- A conditional write command in a session, when its checks accept it: answered, and the area's effect. -/
theorem claimObject_done {s t : State} {r : DictReq} {i k : Nat} {owner : BitVec 8} {expected : BitVec 16} {ty : Ty} {a : Acc}
    {rg : List (Int × Int)} {st : Status} (hrow : rowIs k ty a rg = true) (hk : k < 2 ^ 24)
    (h : Admitted s r i (numWriteIf (k / 256) (k % 256) owner.toNat expected)) (hfit : fitsTy ty owner.toNat = true)
    (hw : ∀ row : ObjRow, row.acc = a →
      mayWriteObj (renewed s i) { sessionCtx s r i none with cond := true } row (k / 256) (k % 256) owner.toNat = true)
    (hx : expected.toNat = ctrOf s k)
    (hr : rg.any (fun i => decide (i.1 ≤ measureOf ty (.num owner.toNat) ∧ measureOf ty (.num owner.toNat) ≤ i.2)) = true)
    (hc : areaCheck (renewed s i) { sessionCtx s r i none with cond := true } (k / 256) (k % 256) (.num owner.toNat) = .ok)
    (hcl : (areaClaims (renewed s i) (k / 256) (k % 256) owner.toNat).1 = []) (hst : canKeep a t k)
    (ha : areaApply (renewed s i) { sessionCtx s r i none with cond := true } (k / 256) (k % 256) (.num owner.toNat) = (t, st))
    (hok : st = .ok ∨ st = .intransit) :
    ∃ u, claimObject s r k expected owner = .next u ∧ answered u r 0x12 st ∧ Changes [.sess, .resp] (keptIn a t k owner.toNat) u := by
  obtain ⟨p, hp⟩ := claimObject_accepted hrow hk h hfit hw hx hr hc hcl hst ha hok
  exact ⟨_, hp, answered_afterAnswer .., afterAnswer_changes _ _ _ ⟨_, _, _, _, _⟩⟩

end Sys2Proof.Machine
end

