-- ==== Sys2Proof/Laws/Rows.lean ====
section
/-!
SUPPORT. The rows of the objects that have a command of their own: type, access class and ranges, for every record.
-/

namespace Sys2Proof.Machine

theorem rows0 : (∀ i : Fin 256, rowIs (K.fenceOwner i) .u8 .rw [(0, 64), (255, 255)] = true) ∧
    (∀ i : Fin 256, rowIs (K.fenceValue i) .u64 .rw [(0, 18446744073709551615)] = true) ∧
    (∀ i : Fin 256, rowIs (K.progOwner i) .u8 .rw [(0, 64), (255, 255)] = true) ∧
    (∀ i : Fin 64, rowIs (K.ctxEnable i) .bool .rw [(0, 1)] = true) ∧
    (∀ i : Fin 8, rowIs (K.outCommit i) .u8 .wo [(1, 1)] = true) ∧
    (∀ i : Fin 8, rowIs (K.outEnable i) .bool .rw [(0, 1)] = true) ∧
    (∀ i : Fin 8, rowIs (K.outMode i) .u8 .rw [(0, 111), (255, 255)] = true) := by decide +kernel

theorem rows1 : (∀ i : Fin 8, rowIs (K.kaolinCommit i) .u8 .rwtRun [(1, 1)] = true) ∧
    (rowIs (K.memRetireReq) .u8 .wo [(0, 5)] = true) ∧
    (rowIs (K.memInjArm) .bool .rw [(0, 1)] = true) ∧
    (∀ v : Fin 63, rowIs (K.vfEnable (v.val + 1)) .bool .rw [(0, 1)] = true) ∧
    (∀ v : Fin 63, rowIs (K.grantShare (v.val + 1)) .u16 .rw [(1, 1000)] = true) ∧
    (∀ v : Fin 63, rowIs (K.grantMem (v.val + 1)) .u32 .rw [(0, 4294967295)] = true) ∧
    (∀ i : Fin 256, rowIs (K.ringOwner i) .u8 .rw [(0, 64), (255, 255)] = true) := by decide +kernel

theorem rows2 : (∀ i : Fin 256, rowIs (K.ringEnable i) .bool .rw [(0, 1)] = true) ∧
    (∀ i : Fin 256, rowIs (K.ringOrder i) .u8 .rw [(4, 12)] = true) ∧
    (∀ v : Fin 63, rowIs (K.vfFlr (v.val + 1)) .u8 .wo [(1, 1)] = true) ∧
    (∀ v : Fin 63, rowIs (K.migFreeze (v.val + 1)) .bool .rw [(0, 1)] = true) ∧
    (∀ v : Fin 63, rowIs (K.migOp (v.val + 1)) .u8 .wo [(1, 2)] = true) ∧
    (∀ v : Fin 63, rowIs (K.logEnable (v.val + 1)) .bool .rw [(0, 1)] = true) ∧
    (∀ v : Fin 63, rowIs (K.logSwap (v.val + 1)) .u8 .wo [(1, 1)] = true) := by decide +kernel

theorem rows3 : (∀ i : Fin 96, rowIs (K.pinT i) .bool .rwt [(0, 1)] = true) ∧
    (∀ i : Fin 32, rowIs (K.dmaT i) .bool .rwt [(0, 1)] = true) ∧
    (∀ i : Fin 24, rowIs (K.claimHold i) .bool .rwt [(0, 1)] = true) ∧
    (∀ i : Fin 4, rowIs (K.panelEnable i) .bool .rw [(0, 1)] = true) ∧
    (∀ i : Fin 4, rowIs (K.panelRefCapture i) .u8 .wo [(1, 1)] = true) ∧
    (∀ i : Fin 4, rowIs (K.panelTestRun i) .u8 .wo [(1, 1)] = true) ∧
    (∀ i : Fin 16, rowIs (K.chReset i) .u8 .wo [(1, 1)] = true) := by decide +kernel

theorem rows4 : (rowIs (K.hapEnable) .bool .rw [(0, 1)] = true) ∧
    (rowIs (K.sndEnable) .bool .rw [(0, 1)] = true) ∧
    (∀ i : Fin 16, rowIs (K.capEn i) .bool .rw [(0, 1)] = true) ∧
    (∀ i : Fin 64, rowIs (K.inEn i) .bool .rw [(0, 1)] = true) ∧
    (∀ i : Fin 8, rowIs (K.spreadEnable i) .bool .rw [(0, 1)] = true) ∧
    (∀ i : Fin 8, rowIs (K.spreadCommit i) .u8 .wo [(1, 1)] = true) ∧
    (∀ i : Fin 24, rowIs (K.domHold i) .bool .rw [(0, 1)] = true) := by decide +kernel

theorem rows5 : (∀ i : Fin 24, rowIs (K.domTw i) .bool .rwt [(0, 1)] = true) ∧
    (rowIs (K.pwrReq) .u8 .rw [(1, 1), (3, 3)] = true) ∧
    (rowIs (K.pwrReset) .u8 .wo [(161, 161)] = true) ∧
    (∀ i : Fin 40, rowIs (K.islGate i) .bool .rw [(0, 1)] = true) ∧
    (∀ i : Fin 4, rowIs (K.islRate (i.val + 16)) .u16 .rw [(800, 800), (1200, 1200), (1600, 1600)] = true) ∧
    (rowIs (K.grogRetest) .u16 .wo [(0, 65535)] = true) ∧
    (rowIs (K.diagEnable) .bool .rw [(0, 1)] = true) := by decide +kernel

theorem rows6 : (∀ i : Fin 96, rowIs (K.spFunc i) .u8 .rws [(0, 5)] = true) ∧
    (∀ i : Fin 96, rowIs (K.spPwmFreq i) .u32 .rws [(100, 100000)] = true) ∧
    (∀ i : Fin 96, rowIs (K.spPwmDuty i) .u16 .rw [(0, 1000)] = true) ∧
    (rowIs ((objKey 0x1F00 0)) .u8 .wo [(90, 90)] = true) := by decide +kernel

theorem row_fenceOwner : ∀ i : Fin 256, rowIs (K.fenceOwner i) .u8 .rw [(0, 64), (255, 255)] = true := rows0.1

theorem row_fenceValue : ∀ i : Fin 256, rowIs (K.fenceValue i) .u64 .rw [(0, 18446744073709551615)] = true := rows0.2.1

theorem row_progOwner : ∀ i : Fin 256, rowIs (K.progOwner i) .u8 .rw [(0, 64), (255, 255)] = true := rows0.2.2.1

theorem row_ctxEnable : ∀ i : Fin 64, rowIs (K.ctxEnable i) .bool .rw [(0, 1)] = true := rows0.2.2.2.1

theorem row_outCommit : ∀ i : Fin 8, rowIs (K.outCommit i) .u8 .wo [(1, 1)] = true := rows0.2.2.2.2.1

theorem row_outEnable : ∀ i : Fin 8, rowIs (K.outEnable i) .bool .rw [(0, 1)] = true := rows0.2.2.2.2.2.1

theorem row_outMode : ∀ i : Fin 8, rowIs (K.outMode i) .u8 .rw [(0, 111), (255, 255)] = true := rows0.2.2.2.2.2.2

theorem row_kaolinCommit : ∀ i : Fin 8, rowIs (K.kaolinCommit i) .u8 .rwtRun [(1, 1)] = true := rows1.1

theorem row_memRetireReq : rowIs (K.memRetireReq) .u8 .wo [(0, 5)] = true := rows1.2.1

theorem row_memInjArm : rowIs (K.memInjArm) .bool .rw [(0, 1)] = true := rows1.2.2.1

theorem row_vfEnable : ∀ v : Fin 63, rowIs (K.vfEnable (v.val + 1)) .bool .rw [(0, 1)] = true := rows1.2.2.2.1

theorem row_grantShare : ∀ v : Fin 63, rowIs (K.grantShare (v.val + 1)) .u16 .rw [(1, 1000)] = true := rows1.2.2.2.2.1

theorem row_grantMem : ∀ v : Fin 63, rowIs (K.grantMem (v.val + 1)) .u32 .rw [(0, 4294967295)] = true := rows1.2.2.2.2.2.1

theorem row_ringOwner : ∀ i : Fin 256, rowIs (K.ringOwner i) .u8 .rw [(0, 64), (255, 255)] = true := rows1.2.2.2.2.2.2

theorem row_ringEnable : ∀ i : Fin 256, rowIs (K.ringEnable i) .bool .rw [(0, 1)] = true := rows2.1

theorem row_ringOrder : ∀ i : Fin 256, rowIs (K.ringOrder i) .u8 .rw [(4, 12)] = true := rows2.2.1

theorem row_vfFlr : ∀ v : Fin 63, rowIs (K.vfFlr (v.val + 1)) .u8 .wo [(1, 1)] = true := rows2.2.2.1

theorem row_migFreeze : ∀ v : Fin 63, rowIs (K.migFreeze (v.val + 1)) .bool .rw [(0, 1)] = true := rows2.2.2.2.1

theorem row_migOp : ∀ v : Fin 63, rowIs (K.migOp (v.val + 1)) .u8 .wo [(1, 2)] = true := rows2.2.2.2.2.1

theorem row_logEnable : ∀ v : Fin 63, rowIs (K.logEnable (v.val + 1)) .bool .rw [(0, 1)] = true := rows2.2.2.2.2.2.1

theorem row_logSwap : ∀ v : Fin 63, rowIs (K.logSwap (v.val + 1)) .u8 .wo [(1, 1)] = true := rows2.2.2.2.2.2.2

theorem row_pinT : ∀ i : Fin 96, rowIs (K.pinT i) .bool .rwt [(0, 1)] = true := rows3.1

theorem row_dmaT : ∀ i : Fin 32, rowIs (K.dmaT i) .bool .rwt [(0, 1)] = true := rows3.2.1

theorem row_claimHold : ∀ i : Fin 24, rowIs (K.claimHold i) .bool .rwt [(0, 1)] = true := rows3.2.2.1

theorem row_panelEnable : ∀ i : Fin 4, rowIs (K.panelEnable i) .bool .rw [(0, 1)] = true := rows3.2.2.2.1

theorem row_panelRefCapture : ∀ i : Fin 4, rowIs (K.panelRefCapture i) .u8 .wo [(1, 1)] = true := rows3.2.2.2.2.1

theorem row_panelTestRun : ∀ i : Fin 4, rowIs (K.panelTestRun i) .u8 .wo [(1, 1)] = true := rows3.2.2.2.2.2.1

theorem row_chReset : ∀ i : Fin 16, rowIs (K.chReset i) .u8 .wo [(1, 1)] = true := rows3.2.2.2.2.2.2

theorem row_hapEnable : rowIs (K.hapEnable) .bool .rw [(0, 1)] = true := rows4.1

theorem row_sndEnable : rowIs (K.sndEnable) .bool .rw [(0, 1)] = true := rows4.2.1

theorem row_capEn : ∀ i : Fin 16, rowIs (K.capEn i) .bool .rw [(0, 1)] = true := rows4.2.2.1

theorem row_inEn : ∀ i : Fin 64, rowIs (K.inEn i) .bool .rw [(0, 1)] = true := rows4.2.2.2.1

theorem row_spreadEnable : ∀ i : Fin 8, rowIs (K.spreadEnable i) .bool .rw [(0, 1)] = true := rows4.2.2.2.2.1

theorem row_spreadCommit : ∀ i : Fin 8, rowIs (K.spreadCommit i) .u8 .wo [(1, 1)] = true := rows4.2.2.2.2.2.1

theorem row_domHold : ∀ i : Fin 24, rowIs (K.domHold i) .bool .rw [(0, 1)] = true := rows4.2.2.2.2.2.2

theorem row_domTw : ∀ i : Fin 24, rowIs (K.domTw i) .bool .rwt [(0, 1)] = true := rows5.1

theorem row_pwrReq : rowIs (K.pwrReq) .u8 .rw [(1, 1), (3, 3)] = true := rows5.2.1

theorem row_pwrReset : rowIs (K.pwrReset) .u8 .wo [(161, 161)] = true := rows5.2.2.1

theorem row_islGate : ∀ i : Fin 40, rowIs (K.islGate i) .bool .rw [(0, 1)] = true := rows5.2.2.2.1

theorem row_islRate : ∀ i : Fin 4, rowIs (K.islRate (i.val + 16)) .u16 .rw [(800, 800), (1200, 1200), (1600, 1600)] = true := rows5.2.2.2.2.1

theorem row_grogRetest : rowIs (K.grogRetest) .u16 .wo [(0, 65535)] = true := rows5.2.2.2.2.2.1

theorem row_diagEnable : rowIs (K.diagEnable) .bool .rw [(0, 1)] = true := rows5.2.2.2.2.2.2

theorem row_spFunc : ∀ i : Fin 96, rowIs (K.spFunc i) .u8 .rws [(0, 5)] = true := rows6.1

theorem row_spPwmFreq : ∀ i : Fin 96, rowIs (K.spPwmFreq i) .u32 .rws [(100, 100000)] = true := rows6.2.1

theorem row_spPwmDuty : ∀ i : Fin 96, rowIs (K.spPwmDuty i) .u16 .rw [(0, 1000)] = true := rows6.2.2.1

theorem row_sysDefaults : rowIs ((objKey 0x1F00 0)) .u8 .wo [(90, 90)] = true := rows6.2.2.2

theorem row_surfOwner : ∀ i : Fin 2048, rowIs (K.surfOwner i) .u8 .rw [(0, 64), (255, 255)] = true := by
  intro i
  have h1 : K.surfOwner i / 256 = 0x3800 + i.val := by simp only [K.surfOwner, objKey]; omega
  have h2 : K.surfOwner i % 256 = 1 := by simp only [K.surfOwner, objKey]; omega
  have hi := i.2
  generalize i.val = n at hi h1 h2
  have ha : areaRows (0x3800 + n) = graphicsRows := by
    unfold areaRows
    rw [if_neg (by omega), if_neg (by omega), if_neg (by omega), if_pos (by omega)]
  have hf : ∃ r j, findRow (0x3800 + n) 1 = some (r, j) ∧ r.ty = .u8 ∧ r.acc = .rw ∧ r.ranges = [(0, 64), (255, 255)] := by
    unfold findRow
    rw [if_neg (by omega), ha]
    simp [graphicsRows, ObjRow.instanceOf, Nat.mod_one, hi, show ¬ (14336 + n < 12544) by omega,
      show ¬ (14336 + n - 12544 < 256) by omega]
  have hal : targetOf (0x3800 + n) 1 = (0x3800 + n, 1) := by
    unfold targetOf aliasOf
    rw [if_neg (by omega), if_neg (by omega)]
    rfl
  obtain ⟨r, j, hr, a, b, c⟩ := hf
  unfold rowIs lookupObj
  rw [h1, h2, hr]
  simp [a, b, c, hal]

theorem row_surfAlloc : ∀ i : Fin 2048, rowIs (K.surfAlloc i) .bool .rw [(0, 1)] = true := by
  intro i
  have h1 : K.surfAlloc i / 256 = 0x3800 + i.val := by simp only [K.surfAlloc, objKey]; omega
  have h2 : K.surfAlloc i % 256 = 8 := by simp only [K.surfAlloc, objKey]; omega
  have hi := i.2
  generalize i.val = n at hi h1 h2
  have ha : areaRows (0x3800 + n) = graphicsRows := by
    unfold areaRows
    rw [if_neg (by omega), if_neg (by omega), if_neg (by omega), if_pos (by omega)]
  have hf : ∃ r j, findRow (0x3800 + n) 8 = some (r, j) ∧ r.ty = .bool ∧ r.acc = .rw ∧ r.ranges = [(0, 1)] := by
    unfold findRow
    rw [if_neg (by omega), ha]
    simp [graphicsRows, ObjRow.instanceOf, Nat.mod_one, hi, show ¬ (14336 + n < 12544) by omega,
      show ¬ (14336 + n - 12544 < 256) by omega]
  have hal : targetOf (0x3800 + n) 8 = (0x3800 + n, 8) := by
    unfold targetOf aliasOf
    rw [if_neg (by omega), if_neg (by omega)]
    rfl
  obtain ⟨r, j, hr, a, b, c⟩ := hf
  unfold rowIs lookupObj
  rw [h1, h2, hr]
  simp [a, b, c, hal]

end Sys2Proof.Machine
end

