-- ==== Sys2Proof/Laws/Surfaces.lean ====
section
/-!
SUPPORT. What allocating, releasing and overwriting a surface do.
-/

namespace Sys2Proof.Machine

theorem slotSize_congr {s t : State} {i : Nat} (h2 : getN t (K.surfFormat i) = getN s (K.surfFormat i))
    (h3 : getN t (K.surfLayout i) = getN s (K.surfLayout i)) (h4 : getN t (K.surfWidth i) = getN s (K.surfWidth i))
    (h5 : getN t (K.surfHeight i) = getN s (K.surfHeight i)) : slotSize t i = slotSize s i := by
  unfold slotSize; rw [h2, h3, h4, h5]

/-- A surface's objects other than those of a write or of its handle do not move its size. -/
theorem slotSize_of_only {ks : List Nat} {s t : State} {i : Nat} (h : onlyObjs ks s t) (h2 : K.surfFormat i ∉ ks)
    (h3 : K.surfLayout i ∉ ks) (h4 : K.surfWidth i ∉ ks) (h5 : K.surfHeight i ∉ ks) : slotSize t i = slotSize s i :=
  slotSize_congr (onlyObjs_getN h h2) (onlyObjs_getN h h3) (onlyObjs_getN h h4) (onlyObjs_getN h h5)

theorem tilthEntry_only {ks : List Nat} {s t : State} {a b c d e f : Nat} (hk : K.tilthSeq ∈ ks) (h : onlyObjs ks s t) :
    onlyObjs ks s (tilthEntry t a b c d e f) := by
  unfold tilthEntry
  exact onlyObjs_putN _ hk (onlyObjs_trans h (onlyObjs_of_eq rfl))

/-- The bytes of a zeroed range read 0, every other byte as before. -/
theorem memGet_zeroUnit (s : State) (u base size a : Nat) :
    memGet (zeroUnit s u base size).dram a =
      if dramKey (rankOfUnit s u) (base / 16) 0 ≤ a ∧ a < dramKey (rankOfUnit s u) (base / 16) 0 +
        (dramKey (rankOfUnit s u) (ceilDiv (base + size) 16) 0 - dramKey (rankOfUnit s u) (base / 16) 0) then 0 else memGet s.dram a :=
  memGet_memZero _ _ _ _

/-- Allocating a slot. -/
theorem allocSurface_spec (s : State) (i u base : Nat) (kept : Bool) :
    getN (allocSurface s i u base kept) (K.surfHandle i) = i + 65536 * nextGen (surfOf s i).gen ∧
    surfOf (allocSurface s i u base kept) i =
      { surfOf s i with gen := nextGen (surfOf s i).gen, unit := u, base := base, flrRelease := false } ∧
    (∀ j, j ≠ i → surfOf (allocSurface s i u base kept) j = surfOf s j) ∧
    (allocSurface s i u base kept).dram = (zeroUnit s u base (slotSize s i)).dram ∧
    onlyObjs [K.surfHandle i, K.tilthSeq, K.tilthHintMiss] s (allocSurface s i u base kept) := by
  let g := nextGen (surfOf s i).gen
  let s1 := modSurf s i (fun x => { x with gen := g, unit := u, base := base, flrRelease := false })
  let s2 := putN (zeroUnit s1 u base (slotSize s i)) (K.surfHandle i) (i + 65536 * g)
  let s3 := tilthEntry s2 2 (if getN s2 (K.surfHint i) % 4 = 0 then 5 else 2) (b2n kept) (i + 65536 * g) 0xFFFF (placeCode s2 u)
  have hs : allocSurface s i u base kept = if kept then s3 else hintMiss s3 := rfl
  have h2 : getN s2 (K.surfHandle i) = i + 65536 * g := by simp [s2]
  have hne1 : K.surfHandle i ≠ K.tilthSeq := by simp only [K.surfHandle, K.tilthSeq, objKey]; omega
  have hne2 : K.surfHandle i ≠ K.tilthHintMiss := by simp only [K.surfHandle, K.tilthHintMiss, objKey]; omega
  have o3 : onlyObjs [K.tilthSeq, K.tilthHintMiss] s2 (if kept then s3 else hintMiss s3) := by
    have := tilthEntry_only (ks := [K.tilthSeq, K.tilthHintMiss]) (a := 2) (b := if getN s2 (K.surfHint i) % 4 = 0 then 5 else 2)
      (c := b2n kept) (d := i + 65536 * g) (e := 0xFFFF) (f := placeCode s2 u) (by simp) (onlyObjs_refl _ s2)
    exact onlyObjs_ite this (onlyObjs_bump (by simp) this)
  have c3 : Changes [.objs, .tilthLog] s2 (if kept then s3 else hintMiss s3) := by
    have := tilthEntry_ch (P := [.objs, .tilthLog]) (kind := 2) (reason := if getN s2 (K.surfHint i) % 4 = 0 then 5 else 2)
      (flags := b2n kept) (subject := i + 65536 * g) (old := 0xFFFF) (new := placeCode s2 u) (part_sub (List.Subset.refl _) rfl)
      (Changes.refl _ s2)
    exact ch_ite this (hintMiss_ch (part_sub (List.Subset.refl _) rfl) this)
  rw [hs]
  refine ⟨?_, ?_, ?_, ?_, ?_⟩
  · rw [onlyObjs_getN o3 (by simp [hne1, hne2])]; exact h2
  · unfold surfOf; rw [c3.surfs (by decide)]; simp [s2, s1, zeroUnit, modSurf, surfOf, g]
  · intro j hj
    unfold surfOf; rw [c3.surfs (by decide)]; simp [s2, s1, zeroUnit, modSurf, tget_tset, hj]
  · rw [c3.dram (by decide)]; rfl
  · refine onlyObjs_trans ?_ (fun k hk => o3 k (by simp only [List.mem_cons, not_or] at hk ⊢; exact ⟨hk.2.1, hk.2.2⟩))
    exact onlyObjs_putN _ (by simp) (onlyObjs_of_eq rfl)

end Sys2Proof.Machine
end

