-- ==== Sys2Proof/Tests/Slice0.lean ====
section
/-!
SUPPORT. Tests: ill-formed terms that WellFormed refuses, the worked examples of the spec, and for every statement a state and operands
that meet the hypotheses of each of its clauses, with what the command answers there.
-/

namespace Sys2Proof.Tests

set_option linter.unusedSimpArgs false
set_option Elab.async false
set_option synthInstance.maxSize 4000
set_option synthInstance.maxHeartbeats 200000

open Sys2Proof.Machine

/-! ## States for the tests -/

/-- A command's next state satisfies a condition. -/
def nx (c : Instr) (s : State) (p : State → Bool) : Bool :=
  match exec c s with
  | .next t => p t
  | _ => false

/-- The module in RUN, 10 s after its start: a manager's session in slot 0 on function 0, one of VF 1 in slot 1. -/
def up : State :=
  { State.reset with
    now := 10000000000, served := true, freeSlots := (List.range 48).drop 2
    objs := [(K.vfEnable 1, ⟨.num 1, 1⟩), (K.pwrMode, ⟨.num 1, 0⟩)]
    sess := [(0, { isOpen := true, gen := 1, role := .mgr, src := some (.portal 0), lease := 60000, renewed := 9000000000 }),
             (1, { isOpen := true, gen := 1, role := .vf, func := 1, src := some (.portal 1), lease := 60000, renewed := 9000000000 })]
    power := { good := true, seen := true, step := 12, avail := true } }

/-- A state with numbers in objects. -/
def put (l : List (Nat × Nat)) (s : State := up) : State := l.foldl (fun s e => putN s e.1 e.2) s

/-- The manager's request, and VF 1's. -/
def rm : DictReq := ⟨.portal 0, 64, 7⟩
def rv : DictReq := ⟨.portal 1, 65, 7⟩

/-- The answer's status. -/
def st (t : State) : Option Status := t.resp.map (·.2.status)

theorem admitted_iff (s : State) (r : DictReq) (i : Nat) (q : Request) : Admitted s r i q ↔
    pathUp s r.src = true ∧ slotOfId s r.session.toNat = some i ∧ (sessOf s i).src.map (sameCarrier r.src) = some true ∧
    (sessOf s i).cache.find? (fun e => e.1 == r.seq.toNat) = none ∧ 12 + lenOf q ≤ maxPdu r.src ∧
    (r.src = .can → s.served = true ∨ sbServes q = true) :=
  ⟨fun h => ⟨h.path, h.slot, h.carrier, h.new, h.size, h.served⟩, fun ⟨a, b, c, d, e, f⟩ => ⟨a, b, c, d, e, f⟩⟩

theorem quiet_iff (s : State) : Quiet s ↔
    pwrMode s = 1 ∧ s.power.good = true ∧ s.power.thermal = 0 ∧ s.power.supply = 0 ∧ s.power.pd01Cut = false ∧
    (s.power.resetAt = none ∧ s.power.resetOff = none) ∧ (∀ d, d < 24 → d ≠ 1 → claimState s d = 0) ∧
    (∀ i, i < 8 → getN s (K.spreadState i) = sprOff ∧ getB s (K.spreadEnable i) = false) :=
  ⟨fun h => ⟨h.run, h.good, h.heat, h.supply, h.cut01, h.reset, h.claims, h.spreads⟩,
   fun ⟨a, b, c, d, e, f, g, k⟩ => ⟨a, b, c, d, e, f, g, k⟩⟩

theorem fetches_iff (s : State) (h : CmdHdr) (op : Nat) (w : Bool) : Fetches s h op w ↔
    canFetch s h.ring = true ∧ s.votes = [] ∧ failedChecks s h op true w = 0 ∧ (ringOf s h.ring).held = [] :=
  ⟨fun h => ⟨h.fetch, h.votes, h.checks, h.held⟩, fun ⟨a, b, c, d⟩ => ⟨a, b, c, d⟩⟩

/-! ## The step, sessions -/

/-- A state with a waiting command, and one whose open session has run out; a state of every step keeps the invariant. -/
def expired : State := { up with now := 100000000000 }

theorem witness_step : ({ up with pending := [.leaseExpiry] } : State).pending = .leaseExpiry :: [] ∧
    (match step { up with pending := [.leaseExpiry] } with | .next t => decide (t.pending = []) | _ => false) = true := by decide +kernel

theorem witness_idle : up.pending = [] ∧
    (match step up with | .next t => decide (t.now = 10000000001) | _ => false) = true := by decide +kernel

theorem inv_up : Inv up := by
  refine ⟨by decide, by decide, by decide, by decide, by decide, by decide, by decide, ?_, by decide, ?_, by decide, by decide, by decide,
    by decide, by decide⟩
  · intro e he
    simp only [up, List.mem_cons, List.not_mem_nil, or_false] at he
    rcases he with rfl | rfl <;> exact ⟨⟨by decide, by decide⟩, by decide⟩
  · intro i
    simp only [up, sessOf, tget, tfind]
    rcases i with _ | _ | i
    · decide
    · decide
    · simp only [State.reset, List.mem_drop_iff_getElem, List.getElem_range, List.length_range]
      constructor
      · rintro ⟨j, h, e⟩; exact ⟨by omega, by simp⟩
      · rintro ⟨h, -⟩; exact ⟨i, by omega, by omega⟩

theorem witness_invariant : Inv up ∧ (match step up with | .next _ => true | _ => false) = true := ⟨inv_up, by decide +kernel⟩

theorem witness_changes : nx .leaseExpiry up (fun _ => true) = true := by decide +kernel

theorem witness_open :
    (({ rm with session := 0 } : DictReq).session = 0 ∧ pathUp up rm.src = true ∧ up.freeSlots = 2 :: (List.range 48).drop 3 ∧
      (rm.src = .can → sbSessions up < 4) ∧
      nx (.openCmd { rm with session := 0 } 0 5) up (fun t => st t == some .ok && (sessOf t 2).lease == 2000 && (sessOf t 2).gen == 1) = true) ∧
    (nx (.openCmd { rm with session := 0 } 100 5) up (fun t => st t == some .ok && (sessOf t 2).lease == 100) = true) ∧
    (pathUp up rm.src = true ∧ ({ up with freeSlots := [] } : State).freeSlots = []) := by decide +kernel

theorem witness_session : Admitted up rm 0 .close ∧ Admitted up rm 0 .keepalive ∧ Admitted up rm 0 (.subscribe 3) ∧
    nx (.close rm) up (fun t => st t == some .ok && !(sessOf t 0).isOpen && decide (t.freeSlots.getLast? = some 0)) = true ∧
    nx (.keepalive rm) up (fun t => decide ((t.resp.map (·.2.payload)) = some (leBytes 8 10000000000)) && (sessOf t 0).renewed == 10000000000) = true ∧
    nx (.subscribe rm 3) up (fun t => (sessOf t 0).mask == 3) = true := by
  simp only [admitted_iff]; decide +kernel

theorem inv_expired : Inv expired :=
  let h := inv_up
  ⟨h.host, h.dram, h.kram, h.buf, h.esram, h.ctr, h.order, h.sess, h.freeOnce, h.free, h.frames, h.refusals, h.tilth, h.memLog, h.grogLog⟩

theorem witness_lease : Inv expired ∧ (sessOf expired 0).isOpen = true ∧
    (sessOf expired 0).renewed + (sessOf expired 0).lease * 1000000 ≤ expired.now ∧
    (sessOf expired 5).isOpen = false ∧ up.now < (sessOf up 0).renewed + (sessOf up 0).lease * 1000000 ∧
    nx .leaseExpiry expired (fun t => !(sessOf t 0).isOpen && t.freeSlots.length == 48) = true := ⟨inv_expired, by decide +kernel⟩

/-- A session that keeps a response to the sequence number 7. -/
def cached : State := modSess up 0 (fun x => { x with cache := [(7, { op := 1, session := 64, seq := 7, status := .busy, payload := [] })] })

theorem witness_cached : pathUp cached rm.src = true ∧ slotOfId cached rm.session.toNat = some 0 ∧
    (sessOf cached 0).src.map (sameCarrier rm.src) = some true ∧
    (sessOf cached 0).cache.find? (fun e => e.1 == rm.seq.toNat) = some (7, { op := 1, session := 64, seq := 7, status := .busy, payload := [] }) ∧
    nx (.write rm ⟨0x3800, 4, 2⟩ [1, 0]) cached (fun t => st t == some .busy && getN t (K.surfWidth 0) == getN cached (K.surfWidth 0)) = true := by
  decide +kernel

theorem witness_noSession : pathUp up rm.src = true ∧ slotOfId up 66 = none := by decide +kernel

theorem witness_caching : Admitted up rm 0 .keepalive ∧ slotOfId up 64 = some 0 ∧
    nx (.keepalive rm) up (fun t => slotOfId t 64 == some 0 && decide (t.resp.map (fun e => [(7, e.2)]) = some (sessOf t 0).cache)) = true := by
  simp only [admitted_iff]; decide +kernel

/-! ## The dictionary -/

theorem witness_read :
    (Admitted up rm 0 (.read ⟨0x1302, 0, 0⟩) ∧ (rowFor ⟨0x1302, 0, 0⟩).isSome = true ∧ st up = none ∧
      pinHidden up (requester up rm) 0x1302 = false ∧
      nx (.read rm ⟨0x1302, 0, 0⟩) up (fun t => st t == some .ok && decide (t.resp.map (·.2.payload) = some [0x02, 0x13, 0, 2, 0, 0, 0xD0, 0x07])) = true) ∧
    (Admitted up rm 0 (.describe ⟨0x1302, 0, 0⟩) ∧ (sessOf up 0).role ≠ .vf ∧ targetOf 0x1302 0 = (0x1302, 0) ∧
      (lookupObj 0x1302 0).isSome = true ∧ nx (.describe rm ⟨0x1302, 0, 0⟩) up (fun t => st t == some .ok) = true) := by
  simp only [admitted_iff]; decide +kernel

/-- Slot 3 belongs to VF 1. -/
def ownSurf : State := put [(K.surfOwner 3, 1)]

theorem witness_write : ownerSession ownSurf 1 (getN ownSurf (K.surfOwner (3 : Fin 2048))) ∧ getB ownSurf (K.surfAlloc 3) = false ∧
    isYuv (getN ownSurf (K.surfFormat 3)) = false ∧
    Admitted ownSurf rv 1 (.write ⟨0x3803, 4, 2⟩ (leBytes 2 640)) ∧ Admitted ownSurf rv 1 (.writeIf ⟨0x3803, 4, 2⟩ 0 (leBytes 2 640)) ∧
    Admitted ownSurf rv 1 (.writeIf ⟨0x3803, 4, 2⟩ 1 (leBytes 2 640)) ∧ ctrOf ownSurf (K.surfWidth 3) = 0 ∧
    nx (.write rv ⟨0x3803, 4, 2⟩ (leBytes 2 640)) ownSurf (fun t => st t == some .ok && getN t (K.surfWidth 3) == 640 &&
      ctrOf t (K.surfWidth 3) == 1) = true ∧
    nx (.writeIf rv ⟨0x3803, 4, 2⟩ 0 (leBytes 2 640)) ownSurf (fun t => st t == some .ok && getN t (K.surfWidth 3) == 640) = true := by
  simp only [ownerSession, admitted_iff]; decide +kernel

/-- Slot 4 of the programs belongs to VF 1. -/
def ownProg : State := put [(K.progOwner 4, 1)]

theorem witness_segments :
    (Admitted up rm 0 (.readSeg ⟨0x3504, 2, 9⟩ 0 16) ∧ (rowFor ⟨0x3504, 2, 9⟩).map (·.ty) = some .blob ∧ targetOf 0x3504 2 = (0x3504, 2) ∧
      nx (.readSeg rm ⟨0x3504, 2, 9⟩ 0 16) up (fun t => st t == some .ok) = true) ∧
    (Admitted ownProg rv 1 (.writeSeg ⟨0x3504, 2, 9⟩ 0 4 [1, 2]) ∧ ownerSession ownProg 1 (getN ownProg (K.progOwner 4)) ∧
      nx (.writeSeg rv ⟨0x3504, 2, 9⟩ 0 4 [1, 2]) ownProg (fun t => st t == some .ok && (sessOf t 1).writes.length == 1) = true) ∧
    (Admitted ownProg rv 1 (.writeSeg ⟨0x3504, 2, 9⟩ 0 2 [1, 2]) ∧
      nx (.writeSeg rv ⟨0x3504, 2, 9⟩ 0 2 [1, 2]) ownProg (fun t => st t == some .ok && decide (getBytes t (K.progCode 4) = [1, 2]) &&
        getN t (K.progState 4) == 1) = true) := by
  simp only [ownerSession, admitted_iff]; decide +kernel

theorem witness_group :
    (Admitted ownSurf rv 1 (.group [(⟨0x3803, 4, 2⟩, leBytes 2 640), (⟨0x3803, 5, 2⟩, leBytes 2 480)]) ∧
      (writesAll (renewed ownSurf 1) (requester ownSurf rv) [(⟨0x3803, 4, 2⟩, leBytes 2 640), (⟨0x3803, 5, 2⟩, leBytes 2 480)]).isSome = true ∧
      nx (.group rv [(⟨0x3803, 4, 2⟩, leBytes 2 640), (⟨0x3803, 5, 2⟩, leBytes 2 480)]) ownSurf (fun t =>
        st t == some .ok && getN t (K.surfHeight 3) == 480) = true) ∧
    (Admitted ownSurf rv 1 (.group ([(⟨0x3803, 4, 2⟩, leBytes 2 640)] ++ (⟨0x3803, 5, 2⟩, leBytes 2 0) :: [])) ∧
      (writesAll (renewed ownSurf 1) (requester ownSurf rv) [(⟨0x3803, 4, 2⟩, leBytes 2 640)]).isSome = true ∧
      (writeObj ((writesAll (renewed ownSurf 1) (requester ownSurf rv) [(⟨0x3803, 4, 2⟩, leBytes 2 640)]).getD up)
        (requester ownSurf rv) ⟨0x3803, 5, 2⟩ (leBytes 2 0) none).status = .range ∧
      nx (.group rv ([(⟨0x3803, 4, 2⟩, leBytes 2 640)] ++ (⟨0x3803, 5, 2⟩, leBytes 2 0) :: [])) ownSurf (fun t =>
        st t == some .range && decide (t.resp.map (·.2.aux) = some 2) && getN t (K.surfWidth 3) == getN ownSurf (K.surfWidth 3)) = true) := by
  simp only [admitted_iff]; decide +kernel

theorem witness_defaults : AdmittedWrite up rm 0 (objKey 0x1F00 0) 0x5A ∧ managerSession up 0 ∧
    nx (.sysDefaults rm 0x5A) up (fun t => st t == some .ok && t.defaultsDue) = true := by
  simp only [AdmittedWrite, managerSession, admitted_iff]; decide +kernel

theorem witness_defaultsNext : ({ up with defaultsDue := true } : State).defaultsDue = true ∧ up.defaultsDue = false ∧
    (moduleStart { up with defaultsDue := true } 1).mram = [] := by decide +kernel

/-- A KEEPALIVE of the manager's session as the bytes of a PDU (Table DI-7). -/
def keepalivePdu : List Byte := [1, 0x03, 64, 0, 9, 0, 0, 0, 0, 0, 0, 0]

theorem witness_portal :
    (pathUp up (.portal 0) = true ∧ (portalOf (modPortal up 0 (fun p => { p with active := true })) 0).active = true ∧
      nx (.portalGo 0 keepalivePdu) (modPortal up 0 (fun p => { p with active := true })) (fun t => (portalOf t 0).reject) = true) ∧
    ((portalOf up 0).active = false ∧ parsePdu [0xFF] = none ∧
      nx (.portalGo 0 [0xFF]) up (fun t => getN t K.dictRxBad == 1) = true) ∧
    ((parsePdu keepalivePdu).isSome = true ∧ nx (.portalGo 0 keepalivePdu) up (fun t => (portalOf t 0).waiting.isSome && st t == some .ok) = true) ∧
    ((portalOf (modPortal up 0 (fun p => { p with active := true, waiting := some [1] })) 0).waiting = some [1] ∧
      nx (.portalResponse 0) (modPortal up 0 (fun p => { p with active := true, waiting := some [1] })) (fun t =>
        (portalOf t 0).done && decide ((portalOf t 0).rspLen = 1)) = true) ∧
    (1 ∈ (portalOf (modPortal up 0 (fun p => { p with active := true, waiting := some [1], awaits := [1] })) 0).awaits ∧
      (funcOf (modFunc up 1 (fun f => { f with flrSince := some 5 })) 1).flrSince.isSome = true) := by decide +kernel

/-- A waiting side-band frame of each kind. -/
def framesWait : State := { up with frames := [⟨false, ⟨1, 2, 0, []⟩⟩, ⟨true, ⟨3, 4, 0, []⟩⟩, ⟨true, ⟨5, 6, 0, []⟩⟩] }

/-- The module in STANDBY. -/
def asleep : State := put [(K.pwrMode, 3)] { up with served := false, power := { good := true, seen := true } }

theorem witness_sideBand :
    (up.power.good = true ∧ ((0x500 + getN up K.canNode : Nat) < 0x800) ∧ inMode up 3 = false ∧ up.can = {} ∧
      (12 = 12 + ofLe ((keepalivePdu.drop 8).take 2)) ∧
      nx (.canSegmentRx (BitVec.ofNat 11 (0x500 + getN up K.canNode)) (0xC0 :: keepalivePdu)) up (fun t => st t == some .lease) = true) ∧
    ((List.replicate 63 (0 : Byte)).length = 63 ∧ nx (.canSegmentRx (BitVec.ofNat 11 (0x500 + getN up K.canNode)) (0x40 :: List.replicate 63 0)) up
      (fun t => decide (t.can = ⟨1, List.replicate 63 0⟩)) = true) ∧
    (nx (.canSegmentRx (BitVec.ofNat 11 (0x500 + getN up K.canNode)) [0x05]) { up with can := ⟨1, [1]⟩ }
      (fun t => decide (t.can = ⟨64, []⟩) && getN t K.dictRxBad == 1) = true) ∧
    (0x7FF ≠ 0x500 + getN up K.canNode ∧ nx (.canSegmentRx 0x7FF []) up (fun t => decide (t.can = up.can)) = true) ∧
    (framesWait.frames = [⟨false, ⟨1, 2, 0, []⟩⟩] ++ ⟨true, ⟨3, 4, 0, []⟩⟩ :: [⟨true, ⟨5, 6, 0, []⟩⟩] ∧
      framesWait.power.good = true ∧ nx .eventFrameTx framesWait (fun t => t.frames.length == 2 && t.frameSent.map (·.1) == some (0x0C0 + getN up K.canNode) &&
        (t.frameSent.map (·.2.length)) == some 64) = true) ∧
    (asleep.power.good = true ∧ inMode asleep 3 = true ∧ getB asleep K.pwrWakeCan = true ∧ asleep.can = {} ∧
      bitOf (([0x00] : List Byte).headD 0).toNat 7 = false ∧
      nx (.wakeCanFrame [0x00]) asleep (fun t => t.power.step == 3 && getN t K.pwrCause == 3 && getN t K.pwrMode == 0) = true) := by decide +kernel

theorem witness_badPdus :
    (parsePdu [0xFF] = none ∧ nx (.malformedPdu [0xFF]) up (fun t => getN t K.dictRxBad == 1 && st t == none) = true) ∧
    (Admitted up rm 0 (.unknown 0x7F) ∧ (0x7F : Nat) ∉ [0x01, 0x02, 0x03, 0x10, 0x11, 0x12, 0x13, 0x14, 0x15, 0x16, 0x20] ∧
      nx (.unknownOpcode rm 0x7F) up (fun t => st t == some .range) = true) := by
  simp only [admitted_iff]; decide +kernel

/-- A session whose relayed request has been answered. -/
def replied : State := modSess up 0 (fun x => { x with relayDest := some 5, relayReply := some [1, 2] })

/-- Node 5 of the fabric is this module. -/
def onFabric : State := put [(K.fabNodeSerial 5, ownSerial), (K.fabRoute 5, 7)]

theorem witness_relay :
    (Admitted onFabric rm 0 (blobWrite 0x9100 0 (leBytes 1 5 ++ leBytes 3 0 ++ keepalivePdu)) ∧ managerSession onFabric 0 ∧
      (parsePdu keepalivePdu).isSome = true) ∧
    (slotOfId (modSess up 0 (fun x => { x with relayWait := true })) 64 = some 0 ∧
      nx (.relayReplyRx 64 [1, 2]) (modSess up 0 (fun x => { x with relayWait := true })) (fun t =>
        decide ((sessOf t 0).relayReply = some [1, 2])) = true) ∧
    (Admitted replied rm 0 (.read ⟨0x9100, 0, 0⟩) ∧ managerSession replied 0 ∧ (sessOf replied 0).relayWait = false ∧
      (sessOf replied 0).relayReply = some [1, 2] ∧
      nx (.fabRelayRead rm) replied (fun t => decide (t.resp.map (·.2.payload) = some [0, 0x91, 0, 9, 0, 0, 6, 0, 5, 0, 0, 0, 1, 2])) = true) ∧
    (up.served = true ∧ nx (.relayedPduRx 3 true keepalivePdu) up (fun t => st t == some .lease) = true) := by
  simp only [admitted_iff, managerSession]; decide +kernel

/-- The trusted firmware runs. -/
def trusted : State := put [(K.kaolinTw, 0), (K.domState 1, 3)]

theorem witness_trustedPort : firmwareRuns trusted = true ∧ (rowFor ⟨0x1302, 0, 0⟩).isSome = true ∧
    nx (.twDictRequest (.read ⟨0x1302, 0, 0⟩)) trusted (fun t => t.twResp.map (·.status) == some .ok) = true := by decide +kernel

theorem witness_relayBusy : Admitted (modSess up 0 (fun x => { x with relayWait := true })) rm 0 (.read ⟨0x9100, 0, 0⟩) ∧
    managerSession (modSess up 0 (fun x => { x with relayWait := true })) 0 ∧
    (sessOf (modSess up 0 (fun x => { x with relayWait := true })) 0).relayWait = true := by
  simp only [managerSession, admitted_iff]; decide +kernel

/-! ## Surfaces and Tilth's moves -/

/-- VF 1 may own surfaces. -/
def mayClaim : State := put [(K.grantSurfaces 1, 4), (K.grantRings 1, 4), (K.grantFences 1, 4), (K.grantProgs 1, 4), (K.grantMem 1, 64)]

/-- Slot 3 belongs to VF 1, 16 x 2 pixels. -/
def sized : State := put [(K.surfOwner 3, 1), (K.surfWidth 3, 16), (K.surfHeight 3, 2)] mayClaim

/-- Slot 3 is allocated. -/
def holds : State := put [(K.surfAlloc 3, 1), (K.surfHandle 3, 3 + 65536)] { sized with surfs := [(3, { gen := 1 })] }

/-- The release of slot 3 waits for its memory to be overwritten. -/
def scrubbing : State := put [(K.surfAlloc 3, 0), (K.surfHandle 3, 0)] { holds with scrubs := [⟨3, 3 + 65536, 1, 0, 0, 4096⟩], dram := [(dramKey 0 5 3, 7)] }

theorem witness_surfClaim : AdmittedClaim mayClaim rv 1 (K.surfOwner (3 : Fin 2048)) 1 0 ∧ (sessOf mayClaim 1).role = .vf ∧ (sessOf mayClaim 1).func = 1 ∧
    vfOn mayClaim 1 = true ∧ getN mayClaim (K.surfOwner 3) = 0xFF ∧ getB mayClaim (K.surfAlloc 3) = false ∧ 0 = ctrOf mayClaim (K.surfOwner 3) ∧
    ownedCount mayClaim 0x3800 0x4000 1 < getN mayClaim (K.grantSurfaces 1) ∧
    mayOwn mayClaim 1 0xFF 1 ∧ grantLeft mayClaim 0x3800 0x4000 (getN mayClaim (K.grantSurfaces 1)) 1 ∧
    nx (.surfClaim rv 3 0 1) mayClaim (fun t => st t == some .ok && getN t (K.surfOwner 3) == 1 && ctrOf t (K.surfOwner 3) == 1) = true ∧
    (AdmittedClaim mayClaim rv 1 (K.surfOwner (3 : Fin 2048)) 1 5 ∧ 5 ≠ ctrOf mayClaim (K.surfOwner 3)) ∧
    (AdmittedClaim up rv 1 (K.surfOwner (3 : Fin 2048)) 1 0 ∧ mayOwn up 1 (getN up (K.surfOwner 3)) 1 ∧ 0 = ctrOf up (K.surfOwner 3) ∧
      getN up (K.surfOwner 3) = 0xFF ∧ vfOn up 1 = true ∧ getN up (K.grantSurfaces 1) ≤ ownedCount up 0x3800 0x4000 1) := by
  simp only [AdmittedClaim, mayOwn, grantLeft, admitted_iff]; decide +kernel

theorem witness_surfAlloc : AdmittedWrite sized rv 1 (K.surfAlloc (3 : Fin 2048)) 1 ∧ ownerSession sized 1 (getN sized (K.surfOwner (3 : Fin 2048))) ∧
    getN sized (K.surfOwner 3) ≠ 0xFF ∧ getB sized (K.surfAlloc 3) = false ∧ getN sized (K.surfWidth 3) ≠ 0 ∧ getN sized (K.surfHeight 3) ≠ 0 ∧
    slotSize sized 3 ≤ quotaLeft sized 1 ∧ chooseUnit sized (slotSize sized 3) (getN sized (K.surfHint 3)) = some (0, true) ∧
    nx (.surfAlloc rv 3) sized (fun t => st t == some .ok && getN t (K.surfHandle 3) == 3 + 65536 * 1 && getB t (K.surfAlloc 3)) = true := by
  simp only [AdmittedWrite, ownerSession, admitted_iff]; decide +kernel

theorem witness_surfRelease :
    (AdmittedWrite holds rv 1 (K.surfAlloc (3 : Fin 2048)) 0 ∧ ownerSession holds 1 (getN holds (K.surfOwner (3 : Fin 2048))) ∧
      getB holds (K.surfAlloc 3) = true ∧ layerNames holds (getN holds (K.surfHandle 3)) = false ∧ getV holds (K.surfAlloc 3) = .num 1 ∧
      nx (.surfRelease rv 3) holds (fun t => st t == some .ok && getN t (K.surfHandle 3) == 0 && t.scrubs.length == 1) = true) ∧
    (scrubbing.scrubs.find? (fun x => x.slot == 3) = some ⟨3, 3 + 65536, 1, 0, 0, 4096⟩ ∧ handleInUse scrubbing (3 + 65536) = false ∧
      nx (.surfScrubDone 3) scrubbing (fun t => t.scrubs.isEmpty && memGet t.dram (dramKey 0 5 3) == 0) = true) ∧
    (AdmittedWrite (put [(K.layerSurface 0 0, 3 + 65536), (K.layerEnable 0 0, 1)] holds) rv 1 (K.surfAlloc (3 : Fin 2048)) 0 ∧
      layerNames (put [(K.layerSurface 0 0, 3 + 65536), (K.layerEnable 0 0, 1)] holds) (3 + 65536) = true) := by
  simp only [AdmittedWrite, ownerSession, admitted_iff]; decide +kernel

/-- Two seconds of imbalance have been measured; and a move of slot 3 is under way. -/
def unbalanced : State := { holds with balance := { seconds := 2, measured := 9000000000 } }
def moving : State := { holds with balance := { move := some (3, 2, 0) } }

theorem witness_balance :
    (unbalanced.balance.measured + 1000000000 ≤ unbalanced.now ∧ unbalanced.balance.move = none ∧
      nx (.balanceMoveStart [90000, 10, 10, 10]) { holds with balance := { measured := 9000000000 } } (fun t =>
        t.balance.measured == 10000000000 && getN t (K.tilthRankLoad 0) == 90000 && t.balance.seconds == 1) = true) ∧
    (moving.balance.move = some (3, 2, 0) ∧ moving.balance.due ≤ moving.now ∧ getB moving (K.surfAlloc 3) = true ∧
      nx .balanceMoveDone moving (fun t => (surfOf t 3).unit == 2 && getN t K.tilthMoves == 1 && t.balance.move.isNone) = true) := by
  decide +kernel

/-- Output 2 scans slot 3 out directly, and its group is in self-refresh. -/
def scans : State := put [(K.grpState 0, 3), (K.grpState 1, 3)] { holds with ports := [(2, { plan := { path := [1, 0, 0, 0, 0, 0] }, active := { layers := { surface := 3 + 65536 } :: List.replicate 5 {} } })] }

theorem witness_scanoutWake : (portOf scans 2).plan.path.getD 0 0 = 1 ∧ getN scans (K.grpState (rankOfUnit scans (layerUnit scans ((portOf scans 2).active.layers.getD 0 {})) / 2)) = 3 ∧
    nx (.scanoutWake 2) scans (fun t => getN t (K.grpState 0) == 2 && getN t (K.grpState 1) == 3) = true := by decide +kernel

theorem witness_surfRefused :
    (AdmittedWrite (put [(K.surfWidth 3, 0)] sized) rv 1 (K.surfAlloc (3 : Fin 2048)) 1 ∧ getN (put [(K.surfWidth 3, 0)] sized) (K.surfWidth 3) = 0) ∧
    (AdmittedWrite (put [(K.grantMem 1, 0)] sized) rv 1 (K.surfAlloc (3 : Fin 2048)) 1 ∧
      quotaLeft (put [(K.grantMem 1, 0)] sized) 1 < slotSize (put [(K.grantMem 1, 0)] sized) 3) ∧
    (Admitted holds rv 1 (numWrite 0x3803 2 5) ∧ Admitted holds rv 1 (numWrite 0x3803 5 9) ∧ ownerSession holds 1 (getN holds (K.surfOwner 3)) ∧
      getB holds (K.surfAlloc 3) = true ∧ yuvOk holds 3 2 5 = true ∧ yuvOk holds 3 5 9 = true ∧
      (lookupObj 0x3803 2).map (fun e => inRange e.1 (.num 5)) = some true ∧ (lookupObj 0x3803 5).map (fun e => inRange e.1 (.num 9)) = some true) := by
  simp only [AdmittedWrite, ownerSession, admitted_iff]; decide +kernel

/-! ## The fast path -/

/-- Hardware ring 7 is VF 1's local ring 0, in context 5 of VF 1; five commands wait in it. -/
def ringed : State :=
  put [(K.ringOwner 7, 1), (K.ringEnable 7, 1), (K.ctxOwner 5, 1), (K.ctxEnable 5, 1), (K.ringCtx 7, 5), (K.ringCqBase 7, 4096)]
    { mayClaim with rings := [(7, { tail := 5 })], ctxs := [(5, { unit := some 0 })] }

/-- The header of a command of ring 7 that asks for a completion. -/
def hd : CmdHdr := { ring := 7, flags := 1, tag := 9, func := 1, ctx := 5, hwring := 7, surface := 0 }

theorem witness_doorbell :
    (funcExists ringed 1 = true ∧ ringFor ringed 1 0 = some 7 ∧ ringed.votes = [] ∧ (ringOf ringed 7).resize = none ∧
      getB ringed (K.ringEnable 7) = true ∧ (ringOf ringed 7).stopped = false ∧ (funcOf ringed 1).flrSince = none ∧
      idxDiff 256 (ringOf ringed 7).head ≤ 2 ^ (ringOf ringed 7).order ∧ idxDiff 256 (ringOf ringed 7).tail ≤ 2 ^ (ringOf ringed 7).order ∧
      nx (.doorbell 1 0 256) ringed (fun t => (ringOf t 7).tail == 256) = true) ∧
    (2 ^ (ringOf ringed 7).order < idxDiff 257 (ringOf ringed 7).head ∧
      nx (.doorbell 1 0 257) ringed (fun t => (ringOf t 7).dberr && (ringOf t 7).drop == 1 && (ringOf t 7).tail == 5) = true) ∧
    (getB (put [(K.ringEnable 7, 0)] ringed) (K.ringEnable 7) = false ∧
      nx (.doorbell 1 0 5) (put [(K.ringEnable 7, 0)] ringed) (fun t => (ringOf t 7).dberr) = true) ∧
    ((ringOf (modRing ringed 7 (fun r => { r with stopped := true })) 7).stopped = true ∧
      (funcOf (modFunc ringed 1 (fun f => { f with flrSince := some 3 })) 1).flrSince ≠ none) := by decide +kernel

theorem witness_ringAgrees : ringAgrees ringed 7 := by intro k _; rfl

/-- A failed vote has stopped the ring. -/
theorem witness_stoppedRing : ringAgrees (modRing ringed 7 (fun r => { r with stopped := true })) 7 ∧
    ringFor (modRing ringed 7 (fun r => { r with stopped := true })) 1 0 = some 7 ∧
    funcExists (modRing ringed 7 (fun r => { r with stopped := true })) 1 = true :=
  ⟨by intro k _; rfl, by decide +kernel, by decide +kernel⟩

/-- A completion is held; a smaller size waits. -/
def holding : State := modRing ringed 7 (fun r => { r with held := [⟨ticketOf ringed hd 0, 0, 0, 0⟩] })
def resizing : State := modRing ringed 7 (fun r => { r with head := 512, tail := 512, resize := some 6 })

theorem witness_indexAndResize :
    ((ringOf ringed 7).held = [] ∧ nx (.cqHeadWrite 1 0 3) ringed (fun t => (ringOf t 7).cqHead == 3) = true) ∧
    (funcExists holding 1 = true ∧ ringFor holding 1 0 = some 7 ∧ ((ringOf holding 7).held.map (fun c => c.ticket.ring)) = [7] ∧
      idxDiff (ringOf holding 7).cqTail 0 < 2 ^ getN holding (K.ringCqOrder 7) ∧
      nx (.cqHeadWrite 1 0 0) holding (fun t => (ringOf t 7).held.isEmpty && (ringOf t 7).cqTail == 1) = true) ∧
    ((ringOf resizing 7).resize = some 6 ∧ getB resizing (K.ringEnable 7) = true ∧ (ringOf resizing 7).head = (ringOf resizing 7).tail ∧
      (ringOf resizing 7).tail % 2 ^ (ringOf resizing 7).order = 0 ∧
      nx (.resizeDone 7) resizing (fun t => (ringOf t 7).order == 6 && (ringOf t 7).resize.isNone) = true) := by decide +kernel

theorem witness_eventBlock :
    (funcExists up 1 = true ∧ (4 : BitVec 32).toNat < 16 ∧ ownsOn (put [(K.layerOwner 2 0, 1)]) 1 2 = true ∧ ownsOn up 1 2 = false ∧
      0x4010 ≤ (0x4010 : BitVec 16).toNat ∧ (0xDFFF : BitVec 16).toNat < 0xE000) ∧
    (up.now < (funcOf (modFunc up 1 (fun x => { x with snapUntil := 10000000001 })) 1).snapUntil) ∧
    ((funcOf up 1).evtUntil ≤ up.now ∧ nx (.evtPendClear 1 3) (modFunc up 1 (fun x => { x with evtPend := 6 })) (fun t =>
      (funcOf t 1).evtPend == 4) = true) ∧
    ((funcOf up 1).maskCopies = none ∧ (funcOf up 1).msixCopies = [] ∧ nx (.evtMaskWrite 1 3) up (fun t => (funcOf t 1).evtMask == 3) = true) ∧
    ((funcOf up 1).snapUntil ≤ up.now) ∧
    (up.now < (funcOf (modFunc up 1 (fun x => { x with evtUntil := 10000000001 })) 1).evtUntil ∧
      nx (.evtPendClear 1 3) (modFunc up 1 (fun x => { x with evtUntil := 10000000001 })) (fun t => (funcOf t 1).lost &&
        getN t K.regWriteLost == 1) = true) ∧
    (bitOf (4 : BitVec 32).toNat 2 = true ∧ nx (.registerWrite 1 0x0004 4) (modFunc up 1 (fun x => { x with lost := true })) (fun t =>
      !(funcOf t 1).lost) = true) ∧
    nx (.registerWrite 1 0x2000 7) ringed (fun t => (ringOf t 7).tail == 7) = true := by decide +kernel

theorem witness_ringSettings :
    (AdmittedWrite (put [(K.ringEnable 7, 0)] ringed) rv 1 (K.ringEnable (7 : Fin 256)) 1 ∧ (sessOf ringed 1).role = .vf ∧
      (sessOf ringed 1).func = getN ringed (K.ringOwner 7) ∧ getB (put [(K.ringEnable 7, 0)] ringed) (K.ringEnable 7) = false ∧
      getB ringed (K.ctxEnable (getN ringed (K.ringCtx 7))) = true ∧
      nx (.ringEnable rv 7 true) (put [(K.ringEnable 7, 0)] ringed) (fun t => st t == some .ok && getB t (K.ringEnable 7) &&
        (ringOf t 7).tail == 0 && (ringOf t 7).order == getN ringed (K.ringOrder 7)) = true) ∧
    (AdmittedWrite ringed rv 1 (K.ringEnable (7 : Fin 256)) 0 ∧ getB ringed (K.ringEnable 7) = true ∧
      nx (.ringEnable rv 7 false) ringed (fun t => st t == some .ok && !getB t (K.ringEnable 7)) = true) ∧
    (ownSession ringed 1 (getN ringed (K.ringOwner (7 : Fin 256))) ∧ ownSession up 0 0xFF ∧ ctxOn ringed (getN ringed (K.ringCtx 7)) = true) ∧
    (AdmittedWrite (put [(K.ctxEnable 5, 0)] ringed) rv 1 (K.ringEnable (7 : Fin 256)) 1 ∧
      ctxOn (put [(K.ctxEnable 5, 0)] ringed) (getN (put [(K.ctxEnable 5, 0)] ringed) (K.ringCtx 7)) = false) := by
  simp only [AdmittedWrite, ownSession, admitted_iff]; decide +kernel

theorem witness_ringManager :
    (AdmittedWrite mayClaim rm 0 (K.ringOwner (9 : Fin 256)) 1 ∧ managerSession mayClaim 0 ∧ getB mayClaim (K.ringEnable 9) = false ∧
      vfOn mayClaim 1 = true ∧ ownedCount mayClaim 0x3100 0x3200 1 < getN mayClaim (K.grantRings 1) ∧
      nx (.ringOwnerWrite rm 9 1) mayClaim (fun t => st t == some .ok && getN t (K.ringOwner 9) == 1 &&
        getN t (K.ringOrderMax 9) == getN mayClaim (K.grantRingOrder 1)) = true) ∧
    (AdmittedWrite ringed rm 0 (K.ringOrder (7 : Fin 256)) 10 ∧
      nx (.ringOrderWrite rm 7 10) ringed (fun t => st t == some .ok && getN t (K.ringOrder 7) == 10 && (ringOf t 7).resize == some 10 &&
        (ringOf t 7).order == 8) = true) ∧
    (AdmittedWrite ringed rm 0 (K.ringOrder (7 : Fin 256)) 8 ∧
      nx (.ringOrderWrite rm 7 8) ringed (fun t => st t == some .ok && (ringOf t 7).resize == none) = true) := by
  simp only [AdmittedWrite, managerSession, admitted_iff]; decide +kernel

theorem witness_ringOwners :
    (AdmittedWrite ringed rm 0 (K.ringOwner (7 : Fin 256)) 0 ∧ grantLeft ringed 0x3100 0x3200 (getN ringed (K.grantRings 0)) 0 ∧
      getB ringed (K.ringEnable 7) = true) ∧
    (AdmittedWrite ringed rv 1 (K.ringOrder (7 : Fin 256)) 8 ∧ ¬ managerSession ringed 1 ∧ ownSession ringed 1 (getN ringed (K.ringOwner (7 : Fin 256))) ∧
      8 ≤ getN ringed (K.ringOrderMax 7) ∧ getB (put [(K.ringEnable 7, 0)] ringed) (K.ringEnable 7) = false) ∧
    (getN (put [(K.ringOrderMax 7, 6)] ringed) (K.ringOrderMax 7) < 8) := by
  simp only [AdmittedWrite, managerSession, ownSession, grantLeft, admitted_iff]; decide +kernel

theorem witness_nop :
    (Fetches ringed hd 0x00 false ∧ nx (.nop hd) ringed (fun t => (ringOf t 7).cqTail == 1 && (ringOf t 7).head == 1) = true) ∧
    (Fetches ringed hd 0x7F false ∧ (0x7F : Nat) ∉ [0x00, 0x01, 0x02, 0x10, 0x11, 0x20, 0x21, 0x30, 0x31, 0x40, 0x50]) ∧
    (canFetch ringed { hd with func := 2 }.ring = true ∧ failedChecks ringed { hd with func := 2 } 0x00 true false ≠ 0 ∧
      failedChecks ringed { hd with func := 2 } 0x7F true false ≠ 0) := by
  simp only [fetches_iff]; decide +kernel

/-- VF 1 owns fence slot 4, with the value 10. -/
def fenced : State := put [(K.fenceOwner 4, 1), (K.fenceHandle 4, 4 + 65536), (K.fenceState 4, fenceLive), (K.fenceValue 4, 10)] ringed

theorem witness_fences :
    (AdmittedClaim mayClaim rv 1 (K.fenceOwner (4 : Fin 256)) 1 0 ∧ getN mayClaim (K.fenceOwner 4) = 0xFF ∧ 0 = ctrOf mayClaim (K.fenceOwner 4) ∧
      ownedCount mayClaim 0x3700 0x3800 1 < getN mayClaim (K.grantFences 1) ∧
      nx (.fenceClaim rv 4 0 1) mayClaim (fun t => st t == some .ok && getN t (K.fenceHandle 4) == 4 + 65536 * 1 &&
        getN t (K.fenceState 4) == fenceLive) = true) ∧
    (AdmittedWrite fenced rv 1 (K.fenceValue (4 : Fin 256)) 12 ∧ (sessOf fenced 1).func = getN fenced (K.fenceOwner 4) ∧
      getN fenced (K.fenceValue 4) < 12 ∧ nx (.fenceValueWrite rv 4 12) fenced (fun t => getN t (K.fenceValue 4) == 12) = true) ∧
    (AdmittedWrite fenced rv 1 (K.fenceValue (4 : Fin 256)) 9 ∧ 9 < getN fenced (K.fenceValue 4)) ∧
    (mayOwn mayClaim 1 (getN mayClaim (K.fenceOwner (4 : Fin 256))) 1 ∧ mayOwn fenced 1 (getN fenced (K.fenceOwner (4 : Fin 256))) 0xFF ∧
      grantLeft mayClaim 0x3700 0x3800 (getN mayClaim (K.grantFences 1)) 1 ∧ ownerSession fenced 1 (getN fenced (K.fenceOwner (4 : Fin 256)))) := by
  simp only [AdmittedWrite, AdmittedClaim, mayOwn, grantLeft, ownerSession, admitted_iff]; decide +kernel

theorem witness_fenceGivenUp :
    (AdmittedClaim fenced rv 1 (K.fenceOwner (4 : Fin 256)) 0xFF 0 ∧ 0 = ctrOf fenced (K.fenceOwner 4) ∧ getN fenced (K.fenceOwner 4) ≠ 0xFF ∧
      nx (.fenceClaim rv 4 0 0xFF) fenced (fun t => st t == some .ok && getN t (K.fenceState 4) == fenceFree && getN t (K.fenceHandle 4) == 0) = true) := by
  simp only [AdmittedWrite, AdmittedClaim, mayOwn, grantLeft, ownerSession, admitted_iff]; decide +kernel

/-- Ring 7 waits, with a timeout that has passed. -/
def waiting : State := modRing fenced 7 (fun r => { r with wait := some ⟨ticketOf fenced hd 2, 4, 20, some 9000000000⟩ })

theorem witness_signals :
    (Fetches fenced hd 0x01 false ∧ earlierWork fenced (ticketOf fenced hd 0x01) = false ∧ fenceSlot fenced (4 + 65536) = some 4 ∧
      getN fenced (K.fenceOwner 4) = getN fenced (K.ringOwner hd.ring) ∧ getN fenced (K.fenceState 4) = fenceLive ∧ fenceWaits fenced 4 = [] ∧
      nx (.fenceSignal hd (BitVec.ofNat 32 (4 + 65536)) 12) fenced (fun t => getN t (K.fenceValue 4) == 12 && (ringOf t 7).cqTail == 1) = true) ∧
    (Fetches fenced hd 0x02 false ∧ mayWait fenced (getN fenced (K.ringOwner hd.ring)) 4 = true ∧
      nx (.fenceWait hd (BitVec.ofNat 32 (4 + 65536)) 0 10) fenced (fun t => (ringOf t 7).wait.isNone && (ringOf t 7).cqTail == 1) = true ∧
      nx (.fenceWait hd (BitVec.ofNat 32 (4 + 65536)) 0 11) fenced (fun t => (ringOf t 7).wait.isSome && (ringOf t 7).cqTail == 0 &&
        !canFetch t 7) = true) ∧
    ((ringOf waiting 7).wait.map (·.failAt) = some (some 9000000000) ∧
      nx (.fenceWaitTimeout 7) waiting (fun t => (ringOf t 7).wait.isNone && (ringOf t 7).dropUntilWait) = true) := by
  simp only [fetches_iff]; decide +kernel

/-- A command of ring 7 has not completed. -/
def busyRing : State := { fenced with signals := [⟨{ ticketOf fenced hd 1 with index := 0 }, 0, 0⟩] }

theorem witness_signalsWait :
    (Fetches busyRing hd 0x01 false ∧ earlierWork busyRing (ticketOf busyRing hd 0x01) = true) ∧
    (fenceSlot fenced 5 = none) ∧
    (mayWait (put [(K.fenceState 4, fenceAbandoned)] fenced) 1 4 = true ∧ Fetches (put [(K.fenceState 4, fenceAbandoned)] fenced) hd 0x02 false) := by
  simp only [fetches_iff]; decide +kernel

/-- Ring 7 with a smaller size pending; ring 7 owned by the PF on H1. -/
def pending6 : State := modRing ringed 7 (fun r => { r with resize := some 6 })
def pf1 : State := put [(K.ringOwner 7, 64)] fenced
def hd64 : CmdHdr := { hd with func := 64, ctx := 0xFF }

theorem witness_doorbellResize :
    ((ringOf pending6 7).resize = some 6 ∧ 2 ^ 6 < idxDiff 80 (ringOf pending6 7).head ∧ funcExists pending6 1 = true ∧
      ringFor pending6 1 0 = some 7 ∧ nx (.doorbell 1 0 80) pending6 (fun t => (ringOf t 7).dberr && (ringOf t 7).drop == 1) = true) ∧
    (2 ^ (ringOf ringed 7).order < idxDiff 4 (ringOf ringed 7).tail ∧
      nx (.doorbell 1 0 4) ringed (fun t => (ringOf t 7).dberr && (ringOf t 7).tail == 5) = true) := by decide +kernel

theorem witness_fenceRules :
    (AdmittedWrite fenced rv 1 (K.fenceValue (4 : Fin 256)) 10 ∧ getN fenced (K.fenceValue 4) = 10 ∧
      nx (.fenceValueWrite rv 4 10) fenced (fun t => st t == some .ok && ctrOf t (K.fenceValue 4) == ctrOf fenced (K.fenceValue 4)) = true) ∧
    (AdmittedWrite fenced rm 0 (K.fenceValue (4 : Fin 256)) 12 ∧ (sessOf fenced 0).func ≠ getN fenced (K.fenceOwner 4)) ∧
    (Fetches (put [(K.fenceOwner 4, 2)] fenced) hd 0x01 false ∧ fenceSlot (put [(K.fenceOwner 4, 2)] fenced) (4 + 65536) = some 4 ∧
      getN (put [(K.fenceOwner 4, 2)] fenced) (K.fenceOwner 4) ≠ getN (put [(K.fenceOwner 4, 2)] fenced) (K.ringOwner 7) ∧
      nx (.fenceSignal hd (BitVec.ofNat 32 (4 + 65536)) 12) (put [(K.fenceOwner 4, 2)] fenced) (fun t =>
        getN t (K.fenceValue 4) == 10 && (ringOf t 7).cqTail == 1) = true) ∧
    (Fetches pf1 hd64 0x02 false ∧ getN pf1 (K.ringOwner hd64.ring) = 64 ∧ fenceSlot pf1 (4 + 65536) = some 4 ∧
      nx (.fenceWait hd64 (BitVec.ofNat 32 (4 + 65536)) 0 10) pf1 (fun t => (ringOf t 7).cqTail == 1) = true) := by
  simp only [AdmittedWrite, fetches_iff, admitted_iff]; decide +kernel

/-! ## Programs, contexts and passes -/

/-- A compute program `main` of one thread (SPIR-V 1.6): Shader, Logical GLSL450, LocalSize 1 1 1, an empty function. -/
def spirv : List Byte :=
  ([0x07230203, 0x00010600, 0, 10, 0, 0x00020011, 1, 0x0003000E, 0, 1, 0x0005000F, 5, 1, 0x6E69616D, 0, 0x00060010, 1, 17, 1, 1, 1,
    0x00020013, 2, 0x00030021, 3, 2, 0x00050036, 2, 1, 0, 3, 0x000200F8, 4, 0x000100FD, 0x00010038] : List Nat).flatMap (leBytes 4)
def main : List Byte := [0x6D, 0x61, 0x69, 0x6E]

/-- The reason why a translation fails before the limits that only the translation itself finds. -/
def refusal (code entry : List Byte) : Option Nat :=
  match spvModule code with
  | none => some 1
  | some m =>
    match (spvEntries m).find? (fun e => e.name == entry) with
    | none => some 2
    | some e => spvFault m e

theorem witness_translate : refusal spirv main = none ∧ refusal [1, 2, 3, 4] main = some 1 ∧ refusal spirv [0x41] = some 2 ∧
    refusal (spirv.set 24 11) main = some 4 ∧ (spvModule spirv).isSome = true := by decide +kernel

/-- A translated compute program of one thread, and slot 4 while it is translated. -/
def code : Code := { code := spirv, entry := main, stage := 2 }
def translating : State := { put [(K.progOwner 4, 1), (K.progState 4, 1)] mayClaim with
  objs := (K.progCode 4, ⟨.bytes [1], 1⟩) :: (put [(K.progOwner 4, 1), (K.progState 4, 1)] mayClaim).objs }

theorem witness_programs :
    (AdmittedClaim mayClaim rv 1 (K.progOwner (4 : Fin 256)) 1 0 ∧ getN mayClaim (K.progOwner 4) = 0xFF ∧ 0 = ctrOf mayClaim (K.progOwner 4) ∧
      mayOwn mayClaim 1 (getN mayClaim (K.progOwner (4 : Fin 256))) 1 ∧ grantLeft mayClaim 0x3500 0x3600 (getN mayClaim (K.grantProgs 1)) 1 ∧
      nx (.progClaim rv 4 0 1) mayClaim (fun t => st t == some .ok && getN t (K.progOwner 4) == 1) = true) ∧
    (AdmittedClaim up rv 1 (K.progOwner (4 : Fin 256)) 1 0 ∧ mayOwn up 1 (getN up (K.progOwner (4 : Fin 256))) 1 ∧ (sessOf up 1).role = .vf ∧
      vfOn up 1 = true ∧ getN up (K.progOwner 4) = 0xFF ∧ getN up (K.grantProgs 1) ≤ ownedCount up 0x3500 0x3600 1) := by
  simp only [AdmittedClaim, mayOwn, grantLeft, admitted_iff]; decide +kernel

theorem witness_translation :
    (getN translating (K.progState 4) = 1 ∧
      (match translate (getBytes translating (K.progCode 4)) (getBytes translating (K.progEntry 4)) with | .error w => w | .ok _ => 0) = 1 ∧
      nx (.translationDone 4) translating (fun t => getN t (K.progState 4) == 3) = true) ∧
    (getN mayClaim (K.progState 4) ≠ 1 ∧ nx (.translationDone 4) mayClaim (fun t => getN t (K.progState 4) == 0) = true) := by decide +kernel

/-- Context 5 with its ring disabled, enabled or not; without a pool, with and without a grant; stopping. -/
def idleCtx : State := put [(K.ringEnable 7, 0)] ringed
def offCtx : State := put [(K.ctxEnable 5, 0)] idleCtx
def noPool : State := put [(K.siltSize 5, 16)] { offCtx with ctxs := [] }
def poolGrant : State := put [(K.grantSilt 1, 64)] noPool
def stopping : State := { offCtx with ctxs := [(5, { unit := some 0, stopping := true })] }

theorem witness_ctxEnable :
    (AdmittedWrite offCtx rv 1 (K.ctxEnable (5 : Fin 64)) 1 ∧ ownSession offCtx 1 (ctxOwner offCtx (5 : Fin 64)) ∧ getB offCtx (K.ctxEnable 5) = false ∧
      K.ctxEnable 5 ∉ offCtx.transit ∧ (ctxOf offCtx 5).stopping = false ∧ (ctxOf offCtx 5).unit.isSome = true ∧
      nx (.ctxEnable rv 5) offCtx (fun t => st t == some .ok && getB t (K.ctxEnable 5)) = true) ∧
    (AdmittedWrite poolGrant rv 1 (K.ctxEnable (5 : Fin 64)) 1 ∧ ownSession poolGrant 1 (ctxOwner poolGrant (5 : Fin 64)) ∧
      (ctxOf poolGrant 5).stopping = false ∧ (ctxOf poolGrant 5).unit = none ∧ ctxOwner poolGrant 5 ≠ 0xFF ∧
      getN poolGrant (K.siltSize 5) ≤ siltLeft poolGrant (ctxOwner poolGrant 5) ∧
      nx (.ctxEnable rv 5) poolGrant (fun t => st t == some .ok && (ctxOf t 5).unit.isSome && getN t (K.siltNow 5) == 16) = true) := by
  simp only [AdmittedWrite, ownSession, admitted_iff]; decide +kernel

theorem witness_ctxRefused :
    (AdmittedWrite noPool rv 1 (K.ctxEnable (5 : Fin 64)) 1 ∧ (ctxOf noPool 5).unit = none ∧ siltLeft noPool (ctxOwner noPool 5) < getN noPool (K.siltSize 5)) ∧
    (AdmittedWrite stopping rv 1 (K.ctxEnable (5 : Fin 64)) 1 ∧ (ctxOf stopping 5).stopping = true ∧ (ctxOf stopping 5).unit.isSome = true ∧
      nx (.ctxEnable rv 5) stopping (fun t => st t == some .intransit && getB t (K.ctxEnable 5) && t.transit == [K.ctxEnable 5]) = true) := by
  simp only [AdmittedWrite, admitted_iff]; decide +kernel

theorem witness_ctxDisable :
    (AdmittedWrite idleCtx rv 1 (K.ctxEnable (5 : Fin 64)) 0 ∧ getB idleCtx (K.ctxEnable 5) = true ∧ ctxRings idleCtx 5 = false ∧ idleCtx.transit = [] ∧
      nx (.ctxDisable rv 5) idleCtx (fun t => st t == some .ok && !getB t (K.ctxEnable 5) && (ctxOf t 5).stopping) = true) ∧
    (AdmittedWrite ringed rv 1 (K.ctxEnable (5 : Fin 64)) 0 ∧ getB ringed (K.ctxEnable 5) = true ∧ ctxRings ringed 5 = true) ∧
    ((ctxOf stopping 5).stopping = true ∧ (ctxOf stopping 5).passes = [] ∧ ctxFrozen stopping 5 = false ∧ coresOf stopping 5 = [] ∧
      ctxWaits stopping 5 = false ∧ nx (.ctxStopDone 5) stopping (fun t => !(ctxOf t 5).stopping && ctxState t 5 == 1) = true) := by
  simp only [AdmittedWrite, admitted_iff]; decide +kernel

/-- VF 1 has the surface of slot 3 as a target, and may draw and compute. -/
def draws : State :=
  put [(K.surfOwner 3, 1), (K.surfWidth 3, 16), (K.surfHeight 3, 2), (K.surfAlloc 3, 1), (K.surfHandle 3, 3 + 65536), (K.siltSize 5, 16),
    (K.siltNow 5, 16), (K.progOwner 4, 1), (K.progState 4, 2), (K.progStage 4, 2), (K.domState 10, domOn)]
    { ringed with surfs := [(3, { gen := 1 })], progs := [(4, code)] }
def hdDraw : CmdHdr := { hd with surface := BitVec.ofNat 32 (3 + 65536) }
def pass : DrawPayload := { list := 0x10000, len := 32, frame := 1, area := ⟨0, 0, 16, 2⟩, target1 := 0, target2 := 0, target3 := 0, samples := 1
                            load := 0, depth := 0, clear := 0 }
/-- The frame 1 of context 5 was dropped; ring 7 has no context. -/
def dropped : State := { draws with ctxs := [(5, { unit := some 0, dropFrame := some 1 })] }
def unbound : State := put [(K.ringCtx 7, 0xFF)] draws

theorem witness_submit :
    (Fetches draws hdDraw 0x10 true ∧ ringContext draws (ticketOf draws hdDraw 0x10) = some 5 ∧ (ctxOf draws 5).dropFrame ≠ some 1 ∧
      passHeadFault draws 1 pass (passTargets (3 + 65536) pass) = none ∧
      nx (.drawSubmit hdDraw pass) draws (fun t => decide ((ctxOf t 5).passes.map (fun p => (p.phase, p.total, p.samples)) = [(1, 1, 1)])) = true) ∧
    (passHeadFault draws 1 { pass with samples := 3 } (passTargets (3 + 65536) pass) = some 1 ∧
      passHeadFault draws 1 { pass with area := ⟨0, 0, 17, 2⟩ } (passTargets (3 + 65536) pass) = some 1 ∧
      passHeadFault draws 1 { pass with samples := 4, target1 := 3 + 65536 } (passTargets (3 + 65536) { pass with target1 := 3 + 65536 }) = none) ∧
    (Fetches dropped hdDraw 0x10 true ∧ (ctxOf dropped 5).dropFrame = some 1) ∧
    (Fetches unbound hdDraw 0x10 true ∧ ringContext unbound (ticketOf unbound hdDraw 0x10) = none) := by
  simp only [fetches_iff]; decide +kernel

/-- A PROGRAM and a DISPATCH record of 2 workgroups in VF 1's memory (Table TP-5). -/
def gridBytes : List Byte := [1, 0, 4, 0, 0xFF, 0xFF] ++ List.replicate 26 0 ++ [0x11, 0, 0, 0, 2, 0, 0, 0, 1, 0, 0, 0, 1, 0, 0, 0] ++ List.replicate 16 0
def hdGrid : CmdHdr := { hd with host := [(0x20000, gridBytes)] }

theorem witness_dispatch :
    (Fetches draws hdGrid 0x11 false ∧ ringContext draws (ticketOf draws hdGrid 0x11) = some 5 ∧ listOk draws 1 0x20000 64 = true ∧ (64 : BitVec 32).toNat % 32 = 0) ∧
    (listOk draws 1 (2 ^ 63) 64 = false) ∧
    (Fetches unbound hdGrid 0x11 false ∧ ringContext unbound (ticketOf unbound hdGrid 0x11) = none) := by
  simp only [fetches_iff]; decide +kernel

/-- A compute pass of four workgroups of one DISPATCH, `next` of them taken and `running` on cores; a pass of four tiles; context 5 with a pass. -/
def groupPass (next running : Nat) (binds : Tab Bind := []) : Pass :=
  { id := 1, ticket := ticketOf ringed hd 0x11, compute := true, frame := 0, parsed := true, handles := [], targets := [], writes := [], reads := []
    area := (0, 0, 0, 0), dispatch := some ⟨code, binds, 2, 2, 1⟩, silt := 0, rw := false, phase := 2, next := next, total := 4
    running := running, began := 9000000000 }
def tilePass (phase next running : Nat) : Pass :=
  { groupPass next running with compute := false, area := (0, 0, 64, 64), dispatch := none, phase := phase }
def withPass (p : Pass) (work : List Nat := []) : State :=
  put [(K.ctxTarget 5, 3), (K.coreState 2, 1), (K.siltNow 5, 0), (K.domState 6, domOn), (K.domState 10, domOn)]
    { ringed with ctxs := [(5, { unit := some 0, passes := [p], lastFrame := some 0 })]
                  cores := match work with
                    | [] => []
                    | n :: m => [(2, { work := some (.unit 5 1 n p.compute), more := m, since := 9500000000 })] }

theorem witness_frontEnd :
    (domSt ringed 10 ≠ domOn ∧ binStep ringed 5 = none) ∧
    (ctxFrozen (withPass { tilePass 0 0 0 with parsed := false, list := 2 ^ 63, len := 32 }) 5 = false ∧
      domSt (withPass { tilePass 0 0 0 with parsed := false }) 10 = domOn ∧
      (match (parsePass draws { tilePass 0 0 0 with parsed := false, list := 0x20000, len := 32, hostBad := [(0x20000, 0x2001F)] }).2 with
        | .error e => e == (8, 0xFFFFFFFF) | .ok _ => false) = true) ∧
    ((nextDispatch [⟨code, [], 2, 1, 1⟩]).isSome = true) ∧
    ((binPass (getN (withPass (tilePass 0 0 0)) (K.siltNow 5) * 1048576) (tilePass 0 0 0) (withPass (tilePass 0 0 0))).full = true ∧
      getN (withPass (tilePass 0 0 0)) (K.siltNow 5) = 0 ∧
      (binPass 0 (tilePass 0 0 0) (withPass (tilePass 0 0 0))).run.refused = false ∧ (binPass 0 (tilePass 0 0 0) (withPass (tilePass 0 0 0))).run.lost = false) := by
  decide +kernel

theorem witness_running :
    (ctxFrozen (withPass (tilePass 1 0 0)) 5 = false ∧
      nx (.tilePhaseStart 5) (withPass (tilePass 1 0 0)) (fun t => decide ((ctxOf t 5).passes.map (·.phase) = [2])) = true ∧
      nx (.tilePhaseStart 5) (withPass { tilePass 1 0 0 with total := 0 }) (fun t => (ctxOf t 5).passes.isEmpty && getN t (K.passDone 5) == 1) = true) ∧
    (coreUp (withPass (groupPass 0 0)) 2 = true ∧ (coreOf (withPass (groupPass 0 0)) 2).work = none ∧ (coreOf (withPass (groupPass 0 0)) 2).preemptFor = none ∧
      getN (put [(K.schedC0Cores, 0)] (withPass (groupPass 0 0))) K.schedC0Cores ≤ c0Held (withPass (groupPass 0 0)) ∧
      numbers 64 (fun c => c != 0 && ctxHasUnit (withPass (groupPass 0 0)) c) = [5] ∧
      Sys2Proof.Machine.running (withPass (groupPass 0 0)) 5 < getN (withPass (groupPass 0 0)) (K.ctxTarget 5) ∧
      nx (.coreDispatchPoint 2) (put [(K.schedC0Cores, 0)] (withPass (groupPass 0 0))) (fun t =>
        decide ((coreOf t 2).work = some (.unit 5 1 0 true) ∧ (coreOf t 2).more = [1, 2, 3])) = true) ∧
    (nx (.coreDispatchPoint 2) (put [(K.schedC0Cores, 0)] (withPass (tilePass 2 3 0))) (fun t =>
        decide ((coreOf t 2).work = some (.unit 5 1 3 false)) && (coreOf t 2).tile.length == 1024) = true) ∧
    (nx (.tileDone 2 false) (withPass (tilePass 2 1 1) [0]) (fun t => (coreOf t 2).work.isNone &&
      decide ((ctxOf t 5).passes.map (fun p => (p.running, p.ended)) = [(0, 1)])) = true) ∧
    (nx (.tileDone 2 false) (withPass (tilePass 2 4 1) [3]) (fun t => (ctxOf t 5).passes.isEmpty && getN t (K.passDone 5) == 1) = true) ∧
    (nx (.tileDone 2 true) (withPass (tilePass 2 4 1) [3]) (fun t => (ctxOf t 5).passes.isEmpty && getN t (K.passFault 5) == 1) = true) ∧
    (nx (.gpuWatchdog 5) (put [(K.gpuWatchdog, 100)] (withPass (groupPass 1 1) [0])) (fun t => (ctxOf t 5).passes.isEmpty) = true ∧
      nx (.gpuWatchdog 5) (put [(K.gpuWatchdog, 1000)] (withPass (groupPass 1 1) [0])) (fun t => (ctxOf t 5).passes.length == 1) = true) := by decide +kernel

/-- Without bindings a program changes nothing and is refused nothing, whatever it does. -/
theorem witness_groupRuns (s : State) (p : Pass) (n : Nat) (x y z : Nat) : (finishGroup s p ⟨code, [], x, y, z⟩ n).refused = false := by
  have h : ∀ (c : Code) (i : List Nat) (k : Nat) (r : ProgRun) (a : List (List (BitVec 32))),
      (runFrom (p.env []) c i k r a).1 = r := by
    intro c i k
    induction k with
    | zero => intro r a; rfl
    | succ k ih =>
      intro r a
      unfold runFrom
      split
      · rfl
      · rename_i e _
        have e : (r.act (p.env []) (Config.program c.code c.entry i a)).1 = r := by
          generalize Config.program c.code c.entry i a = b
          cases b <;> rfl
        rw [ih, e]
  unfold finishGroup runProgram
  rw [h]

/-- A read-write buffer. -/
def rwBind : Bind := { kind := 1 }

theorem witness_coreFault :
    ((groupPass 1 1).onceOnly = false ∧ (groupPass 1 1 [(0, rwBind)]).onceOnly = true ∧ { tilePass 2 1 1 with rw := true : Pass }.onceOnly = true) ∧
    nx (.coreFault 2 true []) (withPass (groupPass 1 1) [0]) (fun t => getN t (K.coreRetry 2) == 1 && (coreOf t 2).work.isSome) = true ∧
    nx (.coreFault 2 false []) (withPass (groupPass 2 2) [0, 1]) (fun t => getN t (K.coreState 2) == 3 &&
      decide ((ctxOf t 5).passes.map (fun p => (p.again, p.running)) = [([0, 1], 0)])) = true ∧
    nx (.coreFault 2 true []) (withPass (groupPass 1 1 [(0, rwBind)]) [0]) (fun t => (ctxOf t 5).passes.isEmpty && getN t (K.passFault 5) == 1) = true := by
  decide +kernel

/-- A core with a tile of row 3 of port 2. -/
def rowWork : State := put [(K.coreState 2, 1), (K.domState 6, domOn)]
  { up with ports := [(2, { rows := [(3, { running := 1 })] })], cores := [(2, { work := some (.row 2 3 5), since := 9500000000 })] }

theorem witness_rowTile : (coreOf rowWork 2).work = some (.row 2 3 5) ∧
    nx (.tileDone 2 false) rowWork (fun t => (coreOf t 2).work.isNone && (rowOf (portOf t 2) 3).running == 0) = true ∧
    nx (.coreFault 2 false []) rowWork (fun t => (coreOf t 2).work.isNone && (rowOf (portOf t 2) 3).again == [5]) = true := by decide +kernel

/-- Core 2 is being preempted for context 6, whose work is gone. -/
def preempts : State := modCore (withPass (groupPass 2 2) [0, 1]) 2 (fun x => { x with preemptFor := some 6 })

theorem witness_arbitration :
    (numbers 64 (ctxReady (withPass (groupPass 1 1) [0])) = [5] ∧ 1 ≤ getN (withPass (groupPass 1 1) [0]) (K.ctxClass 5) ∧
      getN (withPass (groupPass 1 1) [0]) (K.ctxClass 5) ≤ 3 ∧ 0 < shareOf (put [(K.grantShare 1, 50)] (withPass (groupPass 1 1) [0])) 1 ∧
      0 < getN (withPass (groupPass 1 1) [0]) (K.ctxWeight 5) ∧
      nx .arbitration (put [(K.grantShare 1, 50)] (withPass (groupPass 1 1) [0])) (fun t => getN t (K.ctxTarget 5) ==
        min ((activeCores t).length - c0Held t) (getN t (K.ctxCoresMax 5))) = true) ∧
    ((coreOf preempts 2).preemptFor = some 6 ∧ (coreOf preempts 2).work = some (.unit 5 1 0 true) ∧
      nx (.preemptDone 2 1000 4 0) preempts (fun t => decide ((ctxOf t 5).passes.map (fun p => p.spilled.map (·.n)) = [[0, 1]]) ||
        (coreOf t 2).work.isSome) = true ∧
      nx (.preemptDone 2 20001 4 0) preempts (fun t => (coreOf t 2).preemptFor == some 6) = true) := by decide +kernel
/-! ## Copies -/

theorem calm_of_empty (s : State) (hm : s.mem.migr = none) (ha : getB s K.memInjArm = false) (hi : s.mem.injected = []) (hd : s.dram = []) :
    CalmMemory s := by
  refine ⟨hm, ha, hi, fun r w => ?_⟩
  have : storedWord s r w = 0 := by
    have h : ∀ n a, memGetAll [] a n = List.replicate n 0 := by
      intro n
      induction n with
      | zero => intro a; rfl
      | succ n ih => intro a; simp only [memGetAll, ih, List.replicate_succ]; rfl
    unfold storedWord
    rw [hd, h]
    decide
  rw [this]; decide

/-- The surface of slot 3 in an empty memory, and 16 bytes of VF 1's host memory. -/
def copies : State := { draws with host := (List.range 16).map (fun k => (hostKey 1 0x8000 + k, BitVec.ofNat 8 (k + 1))) }

/-- Four pixels of line 1 from x = 2: from the host, and filled. -/
def upload : CopyPayload := { kind := 0, src := 0, host := 0x8000, pitch := 16, rect := ⟨2, 1, 4, 1⟩, sx := 0, sy := 0, fill := 0 }
def fill : CopyPayload := { upload with kind := 3, fill := 0x04030201 }
def turn : ConvertPayload := { src := BitVec.ofNat 32 (3 + 65536), srect := ⟨0, 0, 2, 2⟩, drect := ⟨4, 0, 2, 2⟩, rot := 1, filter := 0, matrix := 0, flags := 0 }

theorem calm_copies : CalmMemory copies := calm_of_empty _ (by decide +kernel) (by decide +kernel) (by decide +kernel) (by decide +kernel)

theorem witness_copies :
    (Fetches copies hdDraw 0x20 true ∧ copyOk copies 1 (3 + 65536) [] upload = true ∧ copyOk copies 1 (3 + 65536) [] fill = true ∧
      copyOk copies 1 (3 + 65536) [] { upload with kind := 1 } = true ∧
      copyOk copies 1 (3 + 65536) [] { upload with kind := 2, src := BitVec.ofNat 32 (3 + 65536) } = true ∧ inRank copies 3 ∧
      slotOf (3 + 65536) = 3 ∧ isYuv (getN copies (K.surfFormat 3)) = false ∧ getN copies (K.surfLayout 3) = 0 ∧
      strideBytes (getN copies (K.surfFormat 3)) = 4) ∧
    (Fetches copies hdDraw 0x20 false ∧ copyOk copies 1 (3 + 65536) [] { upload with pitch := 15 } = false ∧
      copyOk copies 1 (3 + 65536) [(0x8000, 0x8000)] upload = false) ∧
    (Fetches copies hdDraw 0x21 true ∧ convertOk copies 1 (3 + 65536) turn = true ∧ convertOk copies 1 (3 + 65536) { turn with rot := 4 } = false) := by
  simp only [fetches_iff, inRank]; decide +kernel

/-! ## Outputs -/

/-- Output 2 runs mode 0 on engine 2 and shows its layer 1, which is VF 1's. -/
def outRuns : State :=
  put [(K.outMode 2, 0), (K.outEnable 2, 1), (K.outState 2, outRun), (K.outLinkState 2, linkUp), (K.layerOwner 2 1, 1), (K.outLineMatch 2, 5)]
    { ringed with ports := [(2, { engine := some 2, runMode := 0, hpd := true, onTiming := true, everTrained := true, inBlank := false, frame := 4,
                                  lastTake := 9990000000 })] }

/-- VF 1 sets its layer's alpha, with the commit flag. -/
def alphaSet : LayerSetPayload := { port := 2, layer := 1, mask := 0x80, srcXY := 0, srcWH := 0, dstXY := 0, dstWH := 0, enable := 0, blend := 0
                                    alpha := 7, matrix := 0, rot := 0, hint := 0, flags := 1 }

theorem witness_layers :
    (Fetches outRuns hd 0x30 false ∧ (ringOf outRuns 7).dropUntilWait = false ∧ (ringOf outRuns 7).dropFrame = none ∧
      layerSetOk outRuns 1 2 1 0 alphaSet = true ∧ (portOf outRuns 2).closed = false ∧
      nx (.layerSet hd alphaSet) outRuns (fun t => getN t (K.layerAlpha 2 1) == 7 && getN t (K.outCommitPend 2) == 2) = true ∧
      layerSetOk outRuns 1 2 0 0 { alphaSet with layer := 0 } = false) ∧
    (Fetches outRuns hd 0x31 false ∧ numbers 8 (fun q => bitOf (4 : BitVec 8).toNat q) = [2] ∧ layerOwner outRuns 2 0 ≠ 0xFD ∧
      outSt outRuns 2 ≠ outOff ∧ outSt outRuns 2 ≠ outStopping ∧ outRuns.commits.isEmpty = true ∧ commitMask outRuns 1 2 (isPf 1) ≠ 0 ∧
      nx (.commit hd 4) outRuns (fun t => t.commits.length == 1 && getN t (K.outCommitPend 2) == 2) = true) ∧
    (layerOwner outRuns 5 0 ≠ 0xFD ∧ outSt outRuns 5 = outOff ∧ numbers 8 (fun q => bitOf (0x20 : BitVec 8).toNat q) = [5]) ∧
    nx (.commit hd 0x20) outRuns (fun t => t.commits.isEmpty) = true ∧
    (layerOwner (put [(K.layerOwner 2 0, 0xFD)] outRuns) 2 0 = 0xFD ∧ Fetches (put [(K.layerOwner 2 0, 0xFD)] outRuns) hd 0x31 false) ∧
    ((ringOf (modRing outRuns 7 (fun r => { r with dropUntilWait := true })) 7).dropUntilWait = true ∧
      (ringOf (modRing outRuns 7 (fun r => { r with dropFrame := some 3 })) 7).dropFrame.isSome = true) := by
  simp only [fetches_iff]; decide +kernel

theorem witness_outCommit : AdmittedWrite outRuns rv 1 (K.outCommit (2 : Fin 8)) 1 ∧ (sessOf outRuns 1).role = .vf ∧ ownsOn outRuns 1 2 = true ∧
    nx (.outCommit rv 2 1) outRuns (fun t => st t == some .ok && getN t (K.outCommitPend 2) == 2) = true ∧
    AdmittedWrite outRuns rm 0 (K.outCommit (2 : Fin 8)) 1 ∧ managerSession outRuns 0 := by
  simp only [AdmittedWrite, admitted_iff, managerSession]; decide +kernel

/-- Output 2 is off with a mode; its link fails or trains. -/
def outIdle : State := put [(K.outMode 2, 0)]
def outDown : State := put [(K.outLinkState 2, linkDown)] outRuns
def outTrains : State := modPort (put [(K.outLinkState 2, linkTraining)] outRuns) 2 (fun p => { p with trainRate := 54 })
def outFailed : State := modPort (put [(K.outLinkState 2, linkFailedSt)] outRuns) 2 (fun p => { p with retryAt := 9000000000 })
def outStops : State := modPort (put [(K.outState 2, outStopping), (K.outEnable 2, 0)] outRuns) 2 (fun p => { p with runMode := 0xFF })

/-- Every scan-out engine is retired. -/
def noEngines : State := (List.range 9).foldl (fun s e => setUnit s clsEngine e unitRetired) outIdle

def outFirst : State := modPort (put [(K.outState 2, outStarting)] outTrains) 2 (fun p => { p with phase := .trainStart })

theorem witness_outputEnable :
    (AdmittedWrite outIdle rm 0 (K.outEnable (2 : Fin 8)) 1 ∧ managerSession outIdle 0 ∧ Quiet outIdle ∧ getN outIdle (K.outMode 2) ≠ 0xFF ∧
      getB outIdle (K.outEnable 2) = false ∧ outSt outIdle 2 = outOff ∧ K.outEnable 2 ∉ outIdle.transit ∧
      anyStopping outIdle (outDomains outIdle 2) = false ∧ assignedEngine outIdle 2 = some 2 ∧ (startEngine outIdle 2).isSome = true) ∧
    (AdmittedWrite up rm 0 (K.outEnable (2 : Fin 8)) 1 ∧ getN up (K.outMode 2) = 0xFF) ∧
    (AdmittedWrite outStops rm 0 (K.outEnable (2 : Fin 8)) 1 ∧ Quiet outStops ∧ K.outEnable 2 ∉ outStops.transit ∧ getB outStops (K.outEnable 2) = false) ∧
    (startEngine noEngines 2 = none ∧ outSt noEngines 2 = outOff ∧ anyStopping noEngines (outDomains noEngines 2) = false ∧ getN noEngines (K.outMode 2) ≠ 0xFF) ∧
    nx (.outEnable rm 2) outIdle (fun t => st t == some .ok && (outSt t 2 == outStarting || outSt t 2 == outRun)) = true := by
  simp only [AdmittedWrite, admitted_iff, managerSession, quiet_iff]; decide +kernel

/-- Output 2 shows a Kaolin set. -/
def kaolinOutput : State := modPort outRuns 2 (fun p => { p with kactive := { enable := true } })

theorem witness_outputDisable :
    (AdmittedWrite outRuns rm 0 (K.outEnable (2 : Fin 8)) 0 ∧ Quiet outRuns ∧ getB outRuns (K.outEnable 2) = true ∧ outSt outRuns 2 = outRun ∧ kaolinOn outRuns 2 = false ∧
      kaolinOn kaolinOutput 2 = true ∧ AdmittedWrite kaolinOutput rm 0 (K.outEnable (2 : Fin 8)) 0) ∧
    nx (.outDisable rm 2) outRuns (fun t => st t == some .ok && outSt t 2 == outStopping) = true ∧
    (outSt outStops 2 = outStopping ∧ (portOf outStops 2).runMode = 0xFF ∧ nx (.outputStopDone 2) outStops (fun t => outSt t 2 == outOff &&
      getN t (K.outSe 2) == 0xFF) = true) := by
  simp only [AdmittedWrite, admitted_iff, managerSession, quiet_iff]; decide +kernel

theorem witness_outputMode :
    (AdmittedWrite outRuns rm 0 (K.outMode (2 : Fin 8)) 1 ∧ modeFits outRuns 2 1 = true ∧
      nx (.outModeWrite rm 2 1) outRuns (fun t => st t == some .ok && outSt t 2 == outChanging) = true ∧
      nx (.outModeWrite rm 2 1) outIdle (fun t => st t == some .ok && getN t (K.outMode 2) == 1) = true ∧ outSt outIdle 2 = outOff ∧
      AdmittedWrite outIdle rm 0 (K.outMode (2 : Fin 8)) 1 ∧ modeFits outIdle 2 1 = true) ∧
    AdmittedWrite outStops rm 0 (K.outMode (2 : Fin 8)) 1 ∧ Quiet outStops ∧ modeFits outStops 2 1 = true ∧
    (AdmittedWrite outIdle rm 0 (K.outMode (2 : Fin 8)) 111 ∧ modeFits (put [(K.outLanes 2, 1), (K.outRateMax 2, 16)] outIdle) 2 111 = false) := by
  simp only [AdmittedWrite, admitted_iff, managerSession, quiet_iff]; decide +kernel

theorem witness_outputLink :
    (getN outTrains (K.outLinkState 2) = linkTraining ∧ (portOf outTrains 2).phase = .idle ∧
      nx (.linkTrainingDone 2 true [1]) outTrains (fun t => getN t (K.outLinkState 2) == linkUp && getN t (K.outRate 2) == 54) = true) ∧
    ((portOf outFirst 2).phase = .trainStart ∧ outSt outFirst 2 = outStarting ∧ getN outFirst (K.outLinkState 2) = linkTraining) ∧
    (nextRate outTrains 2 100000 = none ∧ nx (.linkTrainingDone 2 false []) (modPort outTrains 2 (fun p => { p with retried := true, trainRate := 100000 }))
      (fun t => getN t (K.outLinkState 2) == linkFailedSt) = true) ∧
    (getN outFailed (K.outLinkState 2) = linkFailedSt ∧ (portOf outFailed 2).hpd = true ∧ (portOf outFailed 2).retryAt ≤ outFailed.now ∧
      nx (.linkRetryTimer 2) outFailed (fun t => getN t (K.outLinkState 2) == linkTraining) = true) ∧
    (getN outDown (K.outLinkState 2) = linkDown ∧ outSt outDown 2 = outRun ∧ nx (.hpdRise 2) outDown (fun t => outSt t 2 == outChanging) = true) ∧
    ((portOf outRuns 2).phase = .idle ∧ nx (.hpdFall 2 2000 false) outRuns (fun t => getN t (K.outLinkState 2) == linkDown && !(portOf t 2).hpd) = true ∧
      nx (.hpdFall 2 1999 false) outRuns (fun t => getN t (K.outLinkState 2) == linkUp) = true ∧
      nx (.hpdFall 2 0 true) outRuns (fun t => getN t (K.outLinkState 2) == linkDown && (portOf t 2).hpd) = true) ∧
    ((portOf outTrains 2).retried = false ∧ nx (.linkTrainingDone 2 false []) outTrains (fun t => (portOf t 2).retried) = true ∧
      getN outRuns (K.outLinkState 2) ≠ linkTraining ∧ timingRuns outFailed 2 = true) := by decide +kernel

/-- A trusted claim holds off the spare's domain. -/
def held13 : State := put [(K.claimHold 13, 1)] outRuns

theorem witness_engineHeld : getB held13 (K.claimHold (engineDomain 8)) = true ∧ kaolinClaim held13 13 = false ∧ kaolinOn held13 2 = false ∧
    getB held13 (K.domTw 13) = false ∧ isUp held13 13 = false ∧ unitState held13 clsEngine 2 = unitInService ∧
    (∀ p, p < 8 → (portOf up p).engine = some 2 ∨ (portOf up p).spare = some 2 → outSt up p = outStopping) := by decide +kernel

theorem witness_engineFault :
    unitState outRuns clsEngine 2 = unitInService ∧ (List.range 8).find? (fun p => (portOf outRuns p).engine == some 2 || (portOf outRuns p).spare == some 2) = some 2 ∧ getB outRuns (K.claimHold (engineDomain 8)) = false ∧
    (trySpares outRuns clsEngine 1 (fun n => ([8] : List (Fin 9)).any (fun x => x.val == n)) (freeSpares outRuns clsEngine)).2 = some 8 ∧
    (trySpares outRuns clsEngine 1 (fun n => ([] : List (Fin 9)).any (fun x => x.val == n)) (freeSpares outRuns clsEngine)).2 = none := by
  decide +kernel

/-- Output 2's set is latched; it is in the blank after its last line; it composes. -/
def outClosed : State := modPort outRuns 2 (fun p => { p with closed := true, latched := 2 })
def outBlank : State := modPort outRuns 2 (fun p => { p with inBlank := true, doneSent := false })
def outDirect : State := modPort outRuns 2 (fun p => { p with plan := { path := [0, 1, 0, 0, 0, 0] } })
def outLast : State := modPort (put [(K.outState 2, outStopping), (K.outEnable 2, 0), (K.outCommitPend 2, 6)] outRuns) 2 (fun p => { p with closed := true, latched := 2 })
def outComposes : State := modPort (put [(K.schedC0Cores, 0)] outRuns) 2 (fun p => { p with plan := { top := some 2 } })

theorem witness_frames :
    (outSt outRuns 2 = outRun ∧ (portOf outRuns 2).phase = .idle ∧ (portOf outRuns 2).closed = false ∧ (portOf outRuns 2).inBlank = false ∧
      nx (.closePoint 2) outRuns (fun t => (portOf t 2).closed) = true) ∧
    ((portOf outClosed 2).closed = true ∧ timingRuns outClosed 2 = true ∧ (∀ i, i < 8 → getN outClosed (K.spreadState i) = sprOff) ∧
      (portOf outClosed 2).inBlank = false) ∧
    (timingRuns outBlank 2 = true ∧ (portOf outBlank 2).inBlank = true ∧
      nx (.frameStart 2) outBlank (fun t => (portOf t 2).frame == 5 && getN t (K.outFrames 2) == 1) = true) ∧
    (getN outRuns (K.outLineMatch 2) < modeVtotal (portOf outRuns 2).runMode ∧ (portOf outRuns 2).matched = false ∧
      nx (.lineMatch 2) outRuns (fun t => (portOf t 2).matched) = true) ∧
    ((portOf outBlank 2).doneSent = false ∧ nx (.frameDone 2) outBlank (fun t => (portOf t 2).doneSent) = true) ∧
    (10 < modeH (portOf outDirect 2).runMode ∧ fetches (portOf outDirect 2) 1 = true ∧ 10 ∉ (portOf outDirect 2).underLines ∧ (portOf outDirect 2).gap = false ∧
      nx (.underrun 2 10 1 7) outDirect (fun t => getN t (K.outUnderrun 2) == 1 && decide ((portOf t 2).under = [(10, 1, 7)])) = true) ∧
    (timingRuns outLast 2 = true ∧ (portOf outLast 2).gap = false ∧ (portOf outLast 2).inBlank = false ∧ eventsOn outRuns 2 = true) := by decide +kernel

theorem witness_rows :
    (composes outComposes 2 = true ∧ 1 < rowsOf (portOf outComposes 2).runMode ∧ tfind (portOf outComposes 2).rows 1 = none ∧
      max (portOf outComposes 2).lastTake (rowInstant (portOf outComposes 2) 1 (portOf outComposes 2).active.out.lead) ≤ outComposes.now ∧
      getN outComposes K.schedC0Cores ≤ c0Held outComposes ∧
      nx (.compositorRowEligible 2 1) outComposes (fun t => rowEligible (rowOf (portOf t 2) 1)) = true) ∧
    ((rowOf (portOf (modPort outComposes 2 (fun p => { p with rows := [(1, { composing := some (1, 5) })] })) 2) 1).composing = some (1, 5) ∧
      (rowOf (portOf (modPort outComposes 2 (fun p => { p with rows := [(1, { composing := some (1, 5) })] })) 2) 1).unstarted = 0 ∧
      nx (.rowComposeDone 2 1) (modPort outComposes 2 (fun p => { p with rows := [(1, { composing := some (1, 5) })] }))
        (fun t => ((rowOf (portOf t 2) 1).slot 1).ready && ((rowOf (portOf t 2) 1).slot 1).tag == 5) = true) ∧
    ((rowOf (portOf outComposes 2) 1).prefetched ≠ some (rowFrame (portOf outComposes 2)) ∧ (portOf outComposes 2).inBlank = ((1 : Nat) == 0) ∧
      (rowOf (portOf outComposes 2) 1).nearest (rowFrame (portOf outComposes 2) % 65536) = none ∧
      nx (.rowPrefetchPoint 2 1) outComposes (fun t => getN t (K.compRowBg 2) == 1) = true) ∧
    ((rowOf (portOf (modPort outComposes 2 (fun p => { p with rows := [(1, { s1 := ⟨true, 4⟩ })] })) 2) 1).nearest 4 = some 1 ∧
      nx (.rowPrefetchPoint 2 1) (modPort outComposes 2 (fun p => { p with rows := [(1, { s1 := ⟨true, 4⟩ })] }))
        (fun t => (rowOf (portOf t 2) 1).held == some 1) = true) := by decide +kernel

/-! ## Kaolin -/

/-- Output 2 shows Kaolin's rectangle 3. -/
def kaolinShows : State := put [(K.kaolinTw, 0), (K.domState 1, domOn), (K.domState 11, domOn)]
  (modPort outRuns 2 (fun p => { p with kactive := { enable := true, rects := List.replicate 3 {} ++ { enable := true, sigOn := 77 } :: List.replicate 28 {} } }))

theorem witness_kaolin :
    (firmwareRuns kaolinShows = true ∧ (portOf kaolinShows 2).closed = false ∧ nx (.kaolinCommit 2 1) kaolinShows (fun t => (portOf t 2).kpend) = true) ∧
    (domSt kaolinShows 11 = domOn ∧ nx (.kaolinSramWrite 0x1FFFFF [5]) kaolinShows (fun t => memGet t.kram 0x1FFFFF == 5) = true) ∧
    ((match exec (.kaolinSramWrite 0x1FFFFF [5, 6]) kaolinShows with | .fault f => decide (f = .kaolinAddress) | _ => false) = true) ∧
    (timingRuns kaolinShows 2 = true ∧ (portOf kaolinShows 2).gap = false ∧ (portOf kaolinShows 2).kactive.enable = true ∧
      ((portOf kaolinShows 2).kactive.rects.getD 3 {}).enable = true ∧ ((portOf kaolinShows 2).kactive.rects.getD 3 {}).mode ≠ 0 ∧
      nx (.sigCompare 2 3 (some 77)) kaolinShows (fun t => getN t (K.rectSigMiss 2 3) == 0 && getN t (K.rectSigLast 2 3) == 77) = true ∧
      nx (.sigCompare 2 3 (some 78)) kaolinShows (fun t => getN t (K.rectSigMiss 2 3) == 1 && getN t (K.kaolinMiss 2) == 1) = true) := by decide +kernel

/-- Output 2 past its close point: its Kaolin set latched or not; and in a shut-down. -/
def kaolinClosed (l : Bool) : State := modPort kaolinShows 2 (fun p => { p with closed := true, klatched := l, runMode := 84 })

theorem witness_kaolinLate :
    ((portOf (kaolinClosed false) 2).closed = true ∧ modeLarge (portOf (kaolinClosed false) 2).runMode = true ∧ outSt (kaolinClosed false) 2 ≠ outStopping ∧
      nx (.kaolinCommit 2 1) (kaolinClosed false) (fun t => (portOf t 2).kpend && getN t (K.kaolinCommitLate 2) == 1) = true ∧
      nx (.kaolinCommit 2 1) (kaolinClosed true) (fun t => !(portOf t 2).kpend && getN t (K.kaolinCommitLate 2) == 0) = true ∧
      nx (.kaolinCommit 2 1) (put [(K.outState 2, outStopping)] (kaolinClosed false)) (fun t => (portOf t 2).kafter && !(portOf t 2).kpend) = true) ∧
    (domSt (put [(K.domState 11, domStopping)] kaolinShows) 11 = domStopping ∧ domSt outRuns 11 ≠ domOn ∧ domSt outRuns 11 ≠ domStopping ∧
      nx (.kaolinSramWrite 0 [5]) outRuns (fun t => memGet t.kram 0 == memGet outRuns.kram 0) = true) ∧
    ((portOf kaolinShows 2).inBlank = false ∧ 3 ∉ (portOf kaolinShows 2).compared ∧ (portOf kaolinShows 2).line ≤ compareLine (portOf kaolinShows 2) 3 ∧
      nx (.sigCompare 2 3 (some 78)) (modPort kaolinShows 2 (fun p => { p with compared := [3] })) (fun t => getN t (K.kaolinMiss 2) == 0) = true) := by
  decide +kernel
/-! ## Module memory -/

/-- Group 0 is in use; word 8 of rank 0 holds poison, every other word 0. -/
def words : State := storeWord (put [(K.grpState 0, 2), (K.grpState 1, 2)]) 0 8 poisonWord

/-- A pin that carries check symbol 33 of word 7 failed training. -/
def pins : State := { words with objs := (K.grpBadPins 0, ⟨.bytes [BitVec.ofNat 8 (symbolPin 7 33)], 0⟩) :: words.objs }

theorem symbol_xor_lt (a b : Nat) (ha : a < 16) (hb : b < 16) : a ^^^ b < 16 := Nat.xor_lt_two_pow (n := 4) ha hb

/-- The code's data columns have 1 as their first entry, so a syndrome with a zero first entry is that of check symbols alone (R253). -/
theorem no_data_error (n i e : Nat) (hn : n % 16 = 0) (hi : i < 32) (he : e < 16) (h0 : e ≠ 0) : gfColumn (eccColumn16 i) e ≠ n := by
  have one : ∀ e, e < 16 → gfMul 1 e = e := by decide +kernel
  have h2 : eccColumn16 i % 16 = 1 := by simp only [eccColumn16, eccColumnOf, hi, if_true]; omega
  have h1 : gfColumn (eccColumn16 i) e % 16 = e := by
    have h : gfMul (eccColumn16 i % 16) e = e := by rw [h2, one e he]
    simp only [gfColumn]
    omega
  intro h
  rw [h, hn] at h1
  exact h0 h1.symm

/-- Errors with such a syndrome are found among the check symbols (R254). -/
theorem singleErrors_check (n : Nat) (hn : n % 16 = 0) : singleErrors n = [32, 33, 34, 35].flatMap (fun i =>
    ((List.range 16).filter (fun e => e != 0 && gfColumn (eccColumn16 i) e == n)).map (fun e => (i, e))) := by
  unfold singleErrors
  rw [show List.range 36 = List.range 32 ++ [32, 33, 34, 35] by decide, List.flatMap_append]
  have h : (List.range 32).flatMap (fun i => ((List.range 16).filter (fun e => e != 0 && gfColumn (eccColumn16 i) e == n)).map
      (fun e => (i, e))) = [] := by
    rw [List.flatMap_eq_nil_iff]
    intro i hi
    rw [List.map_eq_nil_iff, List.filter_eq_nil_iff]
    intro e he
    have := no_data_error n i e hn (List.mem_range.mp hi) (List.mem_range.mp he)
    simp only [Bool.and_eq_true, bne_iff_ne, ne_eq, beq_iff_eq, not_and]
    exact this
  rw [h, List.nil_append]

/-- The one error with the second unit vector as its syndrome is 1 in check symbol 33; the sum of the second and the third is none's (R254). -/
theorem single_33 : singleErrors 16 = [(33, 1)] := by rw [singleErrors_check 16 rfl]; decide +kernel

theorem single_none : singleErrors 0x110 = [] := by rw [singleErrors_check 0x110 rfl]; decide +kernel

/-- One wrong bit in check symbol 33 of the word of zeros. -/
def noise : List Byte := List.replicate 16 0 ++ [0x10]

theorem corrects : decodeWord (0x10 * 2 ^ 128) = .corrected 33 1 := by
  have h : syndrome (0x10 * 2 ^ 128) = 16 := by decide +kernel
  simp only [decodeWord, h, single_33]
  decide

/-- One wrong bit each in check symbols 33 and 34. -/
def noise2 : List Byte := List.replicate 16 0 ++ [0x10, 0x01]

theorem uncorrectable : decodeWord (0x110 * 2 ^ 128) = .uncorrectable := by
  have h : syndrome (0x110 * 2 ^ 128) = 0x110 := by decide +kernel
  simp only [decodeWord, h, single_none]
  decide

theorem witness_memErrors :
    (storedWord words 0 7 ^^^ ofLe (noise2.take 18) = 0x110 * 2 ^ 128 ∧ storedWord words 0 7 ^^^ ofLe (noise.take 18) ^^^ (1 * 2 ^ (4 * 33)) ^^^
      ofLe (noise2.take 18) = 0x110 * 2 ^ 128) ∧
    (onBadPin words 0 7 33 = false ∧ onBadPin pins 0 7 33 = true ∧ (∀ b ∈ tget words.mem.buckets 0 [], 7 ∉ b)) ∧
    (getN up (K.grpState 0) < 2 ∧ nx (.memRead 0 7 [] [] false) up (fun t => t.mem.out == up.mem.out) = true ∧
      nx (.memWrite 0 0 [1]) up (fun t => t.dram.isEmpty) = true) := by decide +kernel

theorem witness_memRead :
    (2 ≤ getN words (K.grpState 0) ∧ words.mem.injected = [] ∧ ofLe (([] : List Byte).take 18) = 0 ∧ decodeWord (storedWord words 0 7) = .clean ∧
      nx (.memRead 0 7 [] [] false) words (fun t => decide (t.mem.out = some (some (List.replicate 16 0)))) = true) ∧
    (storedWord words 0 7 ^^^ ofLe (noise.take 18) = 0x10 * 2 ^ 128 ∧
      decodeWord (storedWord words 0 7 ^^^ ofLe (noise.take 18) ^^^ (1 * 2 ^ (4 * 33)) ^^^ ofLe (([] : List Byte).take 18)) = .clean) ∧
    (decodeWord (storedWord words 0 8) = .poisoned ∧ nx (.memRead 0 8 [] [] false) words (fun t => t.mem.out == some none) = true) ∧
    ((match exec (.memRead 0 (2 ^ 30) [] [] false) words with | .fault f => decide (f = .memoryAddress) | _ => false) = true) := by decide +kernel

theorem calm_up : CalmMemory (put [(K.grpState 0, 2), (K.grpState 1, 2)]) :=
  calm_of_empty _ (by decide +kernel) (by decide +kernel) (by decide +kernel) (by decide +kernel)

theorem witness_memWrite :
    (2 ≤ getN (put [(K.grpState 0, 2), (K.grpState 1, 2)]) (K.grpState 0)) ∧
    (decodeWord (storedWord words 0 ((16 * 8 + 3) / 16)) = .poisoned) ∧
    ((match exec (.memWrite 0 (16 * 2 ^ 30 - 1) [1, 2]) words with | .fault f => decide (f = .memoryAddress) | _ => false) = true) := by decide +kernel

/-- An injection into pin 3 of rank 0 is armed for two words. -/
def armed : State := put [(K.memInjArm, 1), (K.memInjRank, 0), (K.memInjPin, 3), (K.memInjMask, 1), (K.memInjCount, 2)] { words with mem := { injLeft := 2 } }

theorem witness_inject : getB armed K.memInjArm = true ∧ getN armed K.memInjRank = 0 ∧ armed.mem.injLeft = 2 ∧ armed.mem.migr.isNone = true := by decide +kernel

def asleep0 : State := put [(K.grpState 0, 3)] words

/-- Group 0 is idle for long; group 1 trains; a rank is moved to the spare rank 4, which is tested and then filled. -/
def trains : State := put [(K.grpState 1, 1)] words
def tests : State := put [(K.rankState 4, rkTesting)] { words with mem := { migr := some { rank := 1, spare := 4, cause := 4, began := 9000000000, phase := 1 } } }
def fills : State := put [(K.rankState 4, rkFilling), (K.rankState 1, rkDraining)]
  { (put [(K.grpState 0, 2), (K.grpState 1, 2), (K.grpState 2, 2)]) with mem := { migr := some { rank := 1, spare := 4, cause := 4, began := 9000000000, phase := 2 } } }

theorem witness_upkeep :
    (({ words with now := 70000000000 } : State).mem.bucketAt + 60000000000 ≤ ({ words with now := 70000000000 } : State).now ∧
      nx .ceBucketExpiry { words with now := 70000000000 } (fun t => t.mem.bucketAt == 70000000000) = true) ∧
    (getN trains (K.grpState 1) = 1 ∧ nx (.groupTrainingDone 1 [] false) trains (fun t => getN t (K.grpState 1) == 2) = true) ∧
    (getN tests (K.rankState 4) = rkTesting ∧ nx (.sparePatternTestDone 4 true) tests (fun t => getN t (K.rankState 4) == rkFilling) = true ∧
      nx (.sparePatternTestDone 4 true) { tests with mem := {} } (fun t => getN t (K.rankState 4) == rkSpare) = true ∧
      nx (.sparePatternTestDone 4 false) { tests with mem := {} } (fun t => getN t (K.rankState 4) == rkFailed) = true) ∧
    (2 ≤ getN words (K.grpState 0) ∧ nx (.dqsOscCheck 0 31 2 40) words (fun t => getN t (K.grpRetrain 0) == 1 && getN t (K.grpTemp 0) == 40) = true ∧
      nx (.dqsOscCheck 0 30 2 40) words (fun t => getN t (K.grpRetrain 0) == 0) = true) ∧
    nx (.refresh 1) words (fun t => tfind t.mem.refreshed 1 == some 10000000000) = true ∧
    (tget words.mem.access 1 0 + getN words K.memPdTimer ≤ words.now ∧ nx (.rankPowerDown 1) words (fun t => decide (1 ∈ t.mem.asleep)) = true) ∧
    nx (.selfRefreshEntry 0) words (fun t => getN t (K.grpState 0) == 3 && getN t (K.grpSrCount 0) == 1) = true := by decide +kernel

theorem witness_selfRefresh : getN words (K.grpState 0) = 2 ∧ ∀ r, r / 2 = 0 → tget words.mem.access r 0 + getN words K.memSrTimer * 1000 ≤ words.now :=
  ⟨by decide +kernel, fun r _ => by
    have h : tget words.mem.access r 0 = 0 := rfl
    rw [h]; decide +kernel⟩

theorem witness_migrationDone : fills.mem.migr = some { rank := 1, spare := 4, cause := 4, began := 9000000000, phase := 2 } ∧ fills.mem.due = [] ∧ fills.mem.injected = [] ∧
    (∀ w, decodeWord (storedWord fills 1 w) = .clean) ∧
    nx (.migrationDone 1) fills (fun t => getN t (K.rankState 1) == rkRetired && getN t (K.rankUnit 4) == getN fills (K.rankUnit 1)) = true :=
  ⟨by decide +kernel, by decide +kernel, by decide +kernel,
    (calm_of_empty { fills with mem := {} } (by decide +kernel) (by decide +kernel) (by decide +kernel) (by decide +kernel)).clean 1, by decide +kernel⟩

/-- The hand-over after a block has been copied; a patrol in a group in self-refresh; a retirement asked for while another runs. -/
theorem witness_upkeepMore :
    (∀ w, w < fills.mem.migr.elim 0 (·.copied) * 4096 → storedWord fills 4 w = storedWord fills 1 w) ∧
    (getN asleep0 (K.grpState 0) = 3 ∧ tget asleep0.mem.wokeAt 0 0 ≠ asleep0.now / 1000000000 + 1) ∧
    (AdmittedWrite fills rm 0 K.memRetireReq 2 ∧ managerSession fills 0 ∧ getN fills (K.rankState 2) = rkService ∧ spareRanks fills ≠ [] ∧
      fills.mem.migr.isSome = true) ∧
    AdmittedWrite words rm 0 K.memInjArm (false : Bool).toNat := by
  refine ⟨fun w h => absurd h (Nat.not_lt_zero w), ?_⟩
  simp only [AdmittedWrite, admitted_iff, managerSession]; decide +kernel

theorem witness_scrub : CalmMemory (put [(K.grpState 0, 2), (K.grpState 1, 2)]) ∧
    getN (put [(K.grpState 0, 2), (K.grpState 1, 2)]) K.memScrubPeriod ≠ 0 ∧
    tget (put [(K.grpState 0, 2), (K.grpState 1, 2)]).mem.patrol 0 0 < (groupRanks (put [(K.grpState 0, 2), (K.grpState 1, 2)]) 0).length * rankWords ∧
    nx (.scrubBurst 0 0 4) (put [(K.grpState 0, 2), (K.grpState 1, 2)]) (fun t => tget t.mem.patrol 0 0 == 4) = true :=
  ⟨calm_up, by decide +kernel⟩

/-- PD18 is claimed and off. -/
def withheld : State := put [(K.claimHold 18, 1)] words

theorem witness_retire :
    (AdmittedWrite words rm 0 K.memRetireReq 1 ∧ getN words (K.rankState 1) = rkService ∧ spareRanks words = 4 :: [5] ∧
      domainWithheld words 18 = false ∧
      nx (.memRetireReq rm 1) words (fun t => st t == some .ok && getN t (K.rankState 1) == rkDraining) = true) ∧
    (AdmittedWrite withheld rm 0 K.memRetireReq 1 ∧ getN withheld (K.rankState 1) = rkService ∧ spareRanks withheld = 4 :: [5] ∧
      domainWithheld withheld 18 = true ∧ getN withheld (K.grpState 2) < 2 ∧
      nx (.memRetireReq rm 1) withheld (fun t => st t == some .ok && getN t (K.rankState 1) == rkDegraded && tget t.ehrica intGrog 0 == 1) = true) ∧
    spareRanks (put [(K.rankState 4, rkFailed), (K.rankState 5, rkFailed)] words) = [] ∧
    (AdmittedWrite words rm 0 K.memInjArm 1 ∧ managerSession words 0 ∧ getB words K.diagEnable = false ∧
      nx (.memInjArm rm true) (put [(K.diagEnable, 1), (K.memInjCount, 3)] words) (fun t => st t == some .ok && t.mem.injLeft == 3) = true) := by
  simp only [AdmittedWrite, admitted_iff, managerSession]; decide +kernel

/-! ## Virtual functions and migration -/

/-- VF 1 is being reset. -/
def flr : State := modFunc ringed 1 (fun x => { x with epoch := 1, flrSince := some 9999000000 })

/-- VF 2 holds most of the rings. -/
def full : State := put [(K.vfEnable 2, 1), (K.grantRings 2, 250)]

theorem witness_vfMore :
    (AdmittedWrite (put [(K.vfEnable 1, 0)] flr) rm 0 (K.vfEnable (1 : Fin 64)) 1 ∧ getB (put [(K.vfEnable 1, 0)] flr) (K.vfEnable 1) = false ∧
      (funcOf flr 1).flrSince.isSome = true ∧ K.vfEnable 1 ∉ flr.transit) ∧
    (AdmittedWrite up rm 0 (objKey (0x6001 + 0x40 * (1 : Fin 64)) 1) 5 ∧ vfOn up 1 = true ∧ grantCheck up 1 1 5 = .ok ∧
      nx (.grantWrite rm 1 1 5) up (fun t => st t == some .ok && grantN t 1 1 == 5) = true) ∧
    (AdmittedWrite full rm 0 (objKey (0x6001 + 0x40 * (1 : Fin 64)) 1) 10 ∧ vfOn full 1 = true ∧ grantN full 1 1 + poolN full 1 < 10 ∧ (1 : Nat) ∉ [2, 4, 5, 12]) ∧
    (vfOn up 2 = false ∧ (funcOf up 1).flrSince = none) ∧
    (AdmittedWrite up rm 0 (K.grantShare (1 : Fin 64)) 1000 ∧
      grantN (put [(K.vfEnable 2, 1), (K.grantShare 2, 900)]) 1 5 + poolN (put [(K.vfEnable 2, 1), (K.grantShare 2, 900)]) 5 < 1000) := by
  simp only [AdmittedWrite, admitted_iff]; decide +kernel

/-- VF 2 is off; VF 3's region of output 0 lies at the origin. -/
def regions : State := put [(K.vfEnable 3, 1), (K.regionPort 3 0, 0), (K.regionWh 3 0, 100 + 65536 * 100), (K.regionPort 1 0, 0), (K.regionWh 1 0, 50 + 65536 * 50),
  (K.regionXy 1 0, 200), (K.tregionPort 3 0, 0), (K.tregionWh 3 0, 100 + 65536 * 100), (K.tregionWh 1 0, 50 + 65536 * 50)]

theorem witness_vf :
    (AdmittedWrite up rm 0 (K.vfEnable (2 : Fin 64)) 1 ∧ getB up (K.vfEnable 2) = false ∧ (funcOf up 2).flrSince = none ∧ grantsFit up 2 = true ∧
      grantsFit (put [(K.grantRings 2, 257)]) 2 = false ∧ nx (.vfEnable rm 2) up (fun t => st t == some .ok && vfOn t 2) = true) ∧
    (AdmittedWrite up rm 0 (K.vfEnable (1 : Fin 64)) 0 ∧ vfOn up 1 = true ∧
      nx (.vfDisable rm 1) up (fun t => st t == some .ok && !vfOn t 1 && (funcOf t 1).flrSince == some 10000000000) = true) ∧
    (AdmittedWrite up rm 0 (K.vfFlr (1 : Fin 64)) 1 ∧ nx (.vfFlr rm 1 1) up (fun t => (funcOf t 1).epoch == 1) = true) := by
  simp only [AdmittedWrite, admitted_iff]; decide +kernel

theorem witness_grants :
    (AdmittedWrite up rm 0 (objKey (0x6001 + 0x40 * (2 : Fin 64)) 1) 5 ∧ (lookupObj 0x6081 1).map (fun e => inRange e.1 (.num 5)) = some true ∧ vfOn up 2 = false ∧
      nx (.grantWrite rm 2 1 5) up (fun t => st t == some .ok && grantN t 2 1 == 5) = true) ∧
    (AdmittedWrite ringed rm 0 (objKey (0x6001 + 0x40 * (1 : Fin 64)) 1) 0 ∧ vfOn ringed 1 = true ∧ 0 < grantN ringed 1 1 ∧ 0 < useN ringed 1 1) ∧
    (AdmittedWrite up rm 0 (K.grantShare (1 : Fin 64)) 9 ∧ 9 ≤ grantN up 1 5 + poolN up 5 ∧
      nx (.grantShareWrite rm 1 9) up (fun t => st t == some .ok && grantN t 1 5 == 9) = true) := by
  simp only [AdmittedWrite, admitted_iff]; decide +kernel

theorem witness_regions :
    (AdmittedWrite regions rm 0 (objKey ((if false then 0x6010 else 0x6008) + 0x40 * (1 : Fin 64) + (0 : Fin 8)) 2) 100 ∧
      regionCheck regions false 1 0 2 100 = .ok ∧
      nx (.regionWrite rm 1 false 0 2 100) regions (fun t => st t == some .ok && getN t (K.regionXy 1 0) == 100) = true) ∧
    (AdmittedWrite regions rm 0 (objKey ((if true then 0x6010 else 0x6008) + 0x40 * (1 : Fin 64) + (0 : Fin 8)) 2) 100 ∧
      regionCheck regions true 1 0 2 100 = .ok ∧ (regionRec regions true 1 0).1 = 0xFF ∧
      nx (.regionWrite rm 1 true 0 2 100) regions (fun t => st t == some .ok && getN t (K.tregionXy 1 0) == 100) = true) ∧
    (regionEmpty (regionWith (regionRec regions false 1 0) 2 99) = false ∧ regionEmpty (regionRec regions false 3 0) = false ∧
      (regionRec regions false 3 0).1 = (regionWith (regionRec regions false 1 0) 2 99).1 ∧
      overlap (regionWith (regionRec regions false 1 0) 2 99).2.1 (regionWith (regionRec regions false 1 0) 2 99).2.2
        (regionRec regions false 3 0).2.1 (regionRec regions false 3 0).2.2 = true) ∧
    (regionEmpty (regionWith (regionRec regions true 1 0) 1 0) = false ∧ regionEmpty (regionRec regions true 3 0) = false ∧
      AdmittedWrite regions rm 0 (objKey ((if true then 0x6010 else 0x6008) + 0x40 * (1 : Fin 64) + (0 : Fin 8)) 1) 0 ∧
      overlap (regionWith (regionRec regions true 1 0) 1 0).2.1 (regionWith (regionRec regions true 1 0) 1 0).2.2
        (regionRec regions true 3 0).2.1 (regionRec regions true 3 0).2.2 = true) := by
  simp only [AdmittedWrite, admitted_iff]; decide +kernel

/-- Kaolin's rectangle 4 of output 0 lies in VF 1's region. -/
def kaolinRegion : State := put [(K.rectXy 0 4, 300), (K.rectWh 0 4, 10 + 65536 * 10), (K.rectEnable 0 4, 1)] regions

theorem witness_regionKaolin : AdmittedWrite kaolinRegion rm 0 (objKey ((if false then 0x6010 else 0x6008) + 0x40 * (1 : Fin 64) + (0 : Fin 8)) 2) 290 ∧
    regionEmpty (regionWith (regionRec kaolinRegion false 1 0) 2 290) = false ∧
    lo16 (rectShadow kaolinRegion (regionWith (regionRec kaolinRegion false 1 0) 2 290).1 4).wh ≠ 0 ∧
    hi16 (rectShadow kaolinRegion (regionWith (regionRec kaolinRegion false 1 0) 2 290).1 4).wh ≠ 0 ∧
    overlap (regionWith (regionRec kaolinRegion false 1 0) 2 290).2.1 (regionWith (regionRec kaolinRegion false 1 0) 2 290).2.2
      (rectShadow kaolinRegion (regionWith (regionRec kaolinRegion false 1 0) 2 290).1 4).xy
      (rectShadow kaolinRegion (regionWith (regionRec kaolinRegion false 1 0) 2 290).1 4).wh = true := by
  simp only [AdmittedWrite, admitted_iff]; decide +kernel

theorem witness_flr :
    (vfOn ringed 1 = true ∧ nx (.pcieFlr 1) ringed (fun t => (funcOf t 1).epoch == 1) = true ∧ nx .vfEnableClear ringed (fun t => (funcOf t 1).epoch == 1) = true ∧
      nx (.pfFlr false) ringed (fun t => (funcOf t 0).epoch == 1 && (funcOf t 1).epoch == 1) = true ∧
      nx (.pfFlr true) ringed (fun t => (funcOf t 64).epoch == 1 && (funcOf t 1).epoch == 0) = true) ∧
    ((funcOf flr 1).flrSince = some 9999000000 ∧ getV flr (K.ringOwner 7) = .num 1 ∧
      nx (.flrDone 1) flr (fun t => (funcOf t 1).flrSince == none && !getB t (K.ringEnable 7) && getN t (K.ringOwner 7) == 1) = true) ∧
    (vfOn (put [(K.vfEnable 1, 0)] flr) 1 = false ∧ K.vfEnable 1 ∉ flr.transit ∧
      nx (.flrDone 1) (put [(K.vfEnable 1, 0)] flr) (fun t => getN t (K.ringOwner 7) == 0xFF) = true) := by decide +kernel

/-- VF 1 freezes; is frozen; its image moves either way. -/
def freezing : State := put [(K.migState 1, 1), (K.migFreeze 1, 1)] (withPass (groupPass 1 1) [0])
def frozen : State := put [(K.migState 1, 2), (K.migFreeze 1, 1), (K.migCtx 1, 0xFF), (K.migLen 1, 1000000), (K.migAddr 1, 65536)] ringed
def saves : State := put [(K.migState 1, 3)] { frozen with migs := [(1, ⟨1, 0xFF, 65536, [1, 2, 3], 0⟩)] }
def savesNot : State := { saves with migs := [(1, ⟨1, 0xFF, 65536, [1, 2, 3], 1⟩)] }
def restores : State := put [(K.migState 1, 4)] { frozen with migs := [(1, ⟨2, 0xFF, 65536, [1, 2, 3], 0⟩)] }

theorem witness_freeze :
    (AdmittedWrite ringed rm 0 (K.migFreeze (1 : Fin 64)) 1 ∧ (funcOf ringed 1).flrSince = none ∧ getN ringed (K.migState 1) = 0 ∧
      nx (.migFreeze rm 1) ringed (fun t => st t == some .ok && getN t (K.migState 1) == 1 && !canFetch t 7) = true) ∧
    (AdmittedWrite flr rm 0 (K.migFreeze (1 : Fin 64)) 1 ∧ (funcOf flr 1).flrSince.isSome = true) ∧
    (AdmittedWrite frozen rm 0 (K.migFreeze (1 : Fin 64)) 0 ∧ getN frozen (K.migState 1) = 2 ∧
      nx (.migThaw rm 1) frozen (fun t => st t == some .ok && getN t (K.migState 1) == 0) = true) ∧
    (getN freezing (K.migState 1) = 1 ∧ getN ringed (K.migState 1) ≠ 1) ∧
    (AdmittedWrite saves rm 0 (K.migFreeze (1 : Fin 64)) 0 ∧ 3 ≤ getN saves (K.migState 1)) := by
  simp only [AdmittedWrite, admitted_iff]; decide +kernel

theorem witness_images :
    (AdmittedWrite frozen rm 0 (K.migOp (1 : Fin 64)) 1 ∧ getN frozen (K.migState 1) = 2 ∧ getN frozen (K.migCtx 1) = 0xFF ∧
      (imageBytes (renewed frozen 0) 1 0xFF).length ≤ getN frozen (K.migLen 1)) ∧
    (AdmittedWrite ringed rm 0 (K.migOp (1 : Fin 64)) 1 ∧ getN ringed (K.migState 1) ≠ 2) ∧ AdmittedWrite frozen rm 0 (K.migOp (1 : Fin 64)) 2 ∧
    ((tfind saves.migs 1).map (fun m => (m.op, m.result)) = some (1, 0) ∧ getN saves (K.migState 1) = 3) ∧
    ((tfind restores.migs 1).map (·.op) = some 2 ∧ getN restores (K.migState 1) = 4) ∧
    (getN (put [(K.migLen 1, 10)] frozen) (K.migLen 1) < (imageBytes (renewed frozen 0) 1 0xFF).length ∧
      (tfind savesNot.migs 1).map (fun m => (m.op, m.result)) = some (1, 1) ∧ getN savesNot (K.migState 1) = 3) := by
  simp only [AdmittedWrite, admitted_iff]; decide +kernel

/-- VF 1's writes from page 0x1000 on are logged; a swap is under way. -/
def logs : State := put [(K.logEnable 1, 1), (K.logState 1, 1), (K.logBase0 1, 0x100000), (K.logBase1 1, 0x200000), (K.logLo 1, 0), (K.logPages 1, 0x10000)] ringed
def swaps : State := put [(K.logState 1, 2)] logs

/-- Page 0x1234 is bit 4 of byte 0x246 of the bitmap (09, the worked example). -/
theorem witness_log :
    (getB logs (K.logEnable 1) = true ∧ getN logs (K.logState 1) = 1 ∧
      bitOf (memGet (hostWrite logs 1 0x1234010 [1]).host (hostKey 0 (0x100000 + 0x246))).toNat 4 = true) ∧
    (AdmittedWrite ringed rm 0 (K.logEnable (1 : Fin 64)) 1 ∧ getB ringed (K.logEnable 1) = false ∧
      nx (.logEnable rm 1 true) ringed (fun t => st t == some .ok && getN t (K.logState 1) == 1) = true) ∧
    (AdmittedWrite logs rm 0 (K.logEnable (1 : Fin 64)) 0 ∧ nx (.logEnable rm 1 false) logs (fun t => getN t (K.logState 1) == 0) = true) ∧
    (AdmittedWrite logs rm 0 (K.logSwap (1 : Fin 64)) 1 ∧ nx (.logSwap rm 1 1) logs (fun t => st t == some .ok && getN t (K.logState 1) == 2) = true) ∧
    (AdmittedWrite swaps rm 0 (K.logSwap (1 : Fin 64)) 1 ∧ getN logs (K.logLo 1) / 4096 + getN logs (K.logPages 1) ≤ (0x10000000 + 1 - 1) / 4096 ∧
      getN (hostWrite logs 1 0x10000000 [1]) (K.logOut 1) = 1) ∧
    (getN swaps (K.logState 1) = 2 ∧ nx (.logSwapDone 1) swaps (fun t => getN t (K.logActive 1) == 1 && getN t (K.logState 1) == 1) = true) := by
  simp only [AdmittedWrite, admitted_iff]; decide +kernel
/-! ## The two worlds -/

/-- The trusted world restarts; is down; serves a call. -/
def restarting : State := put [(K.kaolinTw, twRestarting)] { trusted with world := { trusted.world with cold := false } }
def down : State := put [(K.kaolinTw, twDown)] trusted
def serves : State := { trusted with world := { trusted.world with busy := true, svc := 2, buf := [(3, 9)] } }

theorem witness_gate :
    (trusted.world.busy = false ∧ twSt trusted = twRun ∧ trusted.world.args.length = 8 ∧
      nx (.gateQuote [1, 2]) trusted (fun t => t.world.busy && t.world.svc == 1 && t.world.bufLen == 2) = true ∧
      nx (.gateRandom 16) trusted (fun t => t.world.busy && t.world.svc == 2) = true ∧
      nx (.gateReleaseAsk 5) trusted (fun t => t.world.busy && t.world.args.getD 0 0 == 5) = true ∧
      nx (.gateBadsvc 4) trusted (fun t => !t.world.busy && t.world.result == 1) = true ∧
      nx (.gateBadsvc 0) trusted (fun t => !t.world.busy && t.world.result == 1) = true) ∧
    (restarting.world.busy = false ∧ twSt restarting = twRestarting ∧ nx (.gateQuote []) restarting (fun t => t.world.result == 2) = true) ∧
    (down.world.busy = false ∧ twSt down = twDown ∧ nx (.gateQuote []) down (fun t => t.world.result == 4) = true) ∧
    (nx (.gateRandom 16) restarting (fun t => t.world.result == 2) = true ∧ nx (.gateReleaseAsk 5) restarting (fun t => t.world.result == 2) = true ∧
      nx (.gateRandom 16) down (fun t => t.world.result == 4) = true ∧ nx (.gateReleaseAsk 5) down (fun t => t.world.result == 4) = true ∧
      nx (.gateRandom 3) serves (fun t => t.world.svc == 2) = true ∧ nx (.gateReleaseAsk 5) serves (fun t => t.world.svc == 2) = true ∧
      nx (.gateRelease 0 1 [7] 0 []) trusted (fun t => t.world == trusted.world) = true) ∧
    (nx (.trustedTargetAccess .cluster 1 false 4) trusted (fun t => t.world.zeroRead == [0, 0, 0, 0]) = true) ∧
    (serves.world.busy = true ∧ twSt serves = twRun ∧ nx (.gateQuote []) serves (fun t => t.world.busy && t.world.svc == 2) = true ∧
      nx (.gateRelease 0 1 [7] 0 []) serves (fun t => !t.world.busy && t.world.args.getD 0 0 == 7 && memGet t.world.buf 3 == 0) = true) ∧
    (carriesT trusted .cluster = false ∧ nx (.trustedTargetAccess .cluster 1 true 4) trusted (fun t => getN t K.worldViol == 1) = true) ∧
    (carriesT (put [(K.worldDmaT 4, 1)] trusted) (.dma 4) = true ∧
      nx (.trustedTargetAccess (.dma 4) 10 true 4) (put [(K.worldDmaT 4, 1)] trusted) (fun t => getN t K.worldViol == 0) = true) := by decide +kernel

/-- Pin 8 and DMA channel 4 are the trusted world's; domain 15 is held by a claim whose cut is due. -/
def givesPin : State := put [(K.worldPinT 8, 1), (K.pinT 8, 1), (K.worldDmaT 4, 1), (K.dmaT 4, 1)] trusted
def dmaBusy : State := { givesPin with world := { givesPin.world with dma := [(4, { busy := true })] } }
def cutDue : State := put [(K.claimHold 15, 1), (K.domState 15, domOn)] { trusted with power := { trusted.power with notice := [(15, 9000000000)] } }

theorem witness_assign :
    (firmwareRuns givesPin = true ∧ pinTrusted givesPin 8 = true ∧
      nx (.pinTWrite 8 false) givesPin (fun t => !pinTrusted t 8 && pinFunc t 8 == spInput) = true ∧ nx (.pinTWrite 9 true) givesPin (fun t => pinTrusted t 9) = true) ∧
    ((dmaOf givesPin 4).busy = false ∧ nx (.dmaTWrite 4 false) givesPin (fun t => getN t (K.worldDmaT 4) == 0) = true) ∧
    ((dmaOf dmaBusy 4).busy = true) ∧
    (firmwareRuns trusted = true ∧ pwrMode trusted = 1 ∧ nx (.claimHoldWrite 15 true) trusted (fun t => getB t (K.claimHold 15)) = true) ∧
    ((15, 9000000000) ∈ cutDue.power.notice ∧ domSt cutDue 15 ≠ domCut ∧ claimHeld cutDue 15 = true ∧
      nx (.cutNoticeExpiry 15) cutDue (fun t => domSt t 15 == domCut && claimState t 15 == 3) = true) := by decide +kernel

/-- The watchdog has not been kicked for 50 ms; four restarts lie within 60 s; a session's nonce waits for its quote. -/
def unkicked : State := { trusted with world := { trusted.world with kickAt := 9950000000 } }
def often : State := { trusted with world := { trusted.world with starts := [6000000000, 7000000000, 8000000000, 9000000000] } }
def signs : State := modSess trusted 0 (fun x => { x with nonce := some (List.replicate 32 1), signing := true })

theorem witness_restarts :
    (firmwareRuns trusted = true ∧ trusted.world.nextKick = 0x5A ∧ nx (.watchdogKick 0x5A) trusted (fun t => t.world.nextKick == 0xA5) = true ∧
      (trusted.world.starts.filter (fun t => trusted.now < t + 60000000000)).length < 4 ∧
      nx (.watchdogKick 0xA5) trusted (fun t => twSt t == twRestarting && getN t K.worldRestartCause == 1) = true) ∧
    (unkicked.world.kickAt + 50000000 ≤ unkicked.now ∧ nx .watchdogExpiry unkicked (fun t => twSt t == twRestarting) = true) ∧
    (nx .lockstepFault trusted (fun t => getN t K.worldRestartCause == 2) = true ∧ nx .twRestartRequest trusted (fun t => getN t K.worldRestartCause == 3) = true) ∧
    (4 ≤ (often.world.starts.filter (fun t => often.now < t + 60000000000)).length ∧ nx .lockstepFault often (fun t => twSt t == twDown) = true) := by decide +kernel

theorem witness_restartDone :
    (twSt restarting = twRestarting ∧ domSt restarting 1 = domOn ∧ restarting.world.cold = false ∧ pwrMode restarting = 1 ∧ restarting.world.slots.length = 8 ∧
      nx (.twRestartDone .selfTestFailed) restarting (fun t => twSt t == twDown) = true) ∧
    (Admitted trusted rm 0 (blobWrite 0x7081 1 (List.replicate 32 1)) ∧ managerSession trusted 0 ∧
      nx (.attNonceWrite rm (List.replicate 32 1)) trusted (fun t => st t == some .ok && (sessOf t 0).signing) = true) ∧
    (slotOfId signs 64 = some 0 ∧ (sessOf signs 0).signing = true ∧ (sessOf signs 0).nonce = some (List.replicate 32 1) ∧ twSt signs = twRun ∧
      nx (.quoteSigned 64) signs (fun t => !(sessOf t 0).signing) = true) := by
  simp only [admitted_iff, managerSession]; decide +kernel

/-! ## Touch -/

/-- Panel 1, of two by two lines, off; and in its states. -/
def panel (state : Nat) (x : Panel := {}) : State :=
  put [(K.panelTx 1, 2), (K.panelRx 1, 2), (K.panelChips 1, 1), (K.panelState 1, state), (K.panelEnable 1, if state = panOff ∨ state = panStopping then 0 else 1),
    (K.domState 19, domOn), (K.panelTestMode 1, 3), (K.panelDriftAfter 1, 5), (K.panelDriftThr 1, 10)]
    { (putV ringed (K.panelLines 1) (.bytes [0, 0, 1, 0, 2, 0, 3, 0])) with panels := [(1, x)] }
def contact : Contact := { id := 2, peak := 0, nodes := [0], nx := 0, ny := 0, func := none, ref := 0, since := 1000000000, sig := 0, x := 0, y := 0, suspect := false }
def test : PanelTest := ⟨[(0, List.replicate 132 2200)], [], [], [], List.replicate 8 [1000, 1001, 1002, 1003], List.replicate 8 [500, 500, 500, 500]⟩

/-- Panel 1 of five by five lines; a test in which all of its pads are open. -/
def wide : State := putV (put [(K.panelTx 1, 5), (K.panelRx 1, 5), (K.panelRawLo 1, 100)] (panel panStarting)) (K.panelLines 1)
  (.bytes ((List.range 10).flatMap (leBytes 2)))
def opens : PanelTest := { test with pads := List.replicate 2 (List.replicate 10 0), frames := List.replicate 8 (List.replicate 25 1000)
                                     selfFrames := List.replicate 8 (List.replicate 10 500) }
def frame : TouchFrame := ⟨[1000, 1001, 1002, 1003], [500, 500, 500, 500], 2, [], 900⟩

theorem witness_panels :
    (AdmittedWrite (panel panOff) rm 0 (K.panelEnable (1 : Fin 4)) 1 ∧ Quiet (panel panOff) ∧ getB (panel panOff) (K.panelEnable 1) = false ∧
      getBytes (panel panOff) (K.panelLines 1) ≠ [] ∧ K.panelEnable 1 ∉ (panel panOff).transit ∧
      anyStopping (panel panOff) ((panelChips (panel panOff) 1).map chipDomain) = false ∧
      nx (.panelEnable rm 1) (panel panOff) (fun t => st t == some .ok && panSt t 1 == panStarting) = true) := by
  simp only [AdmittedWrite, admitted_iff, quiet_iff]; decide +kernel

theorem witness_panelStop :
    (AdmittedWrite (panel panActive) rm 0 (K.panelEnable (1 : Fin 4)) 0 ∧ Quiet (panel panActive) ∧ getB (panel panActive) (K.panelEnable 1) = true ∧
      nx (.panelDisable rm 1) (panel panActive) (fun t => st t == some .ok && panSt t 1 == panStopping) = true) ∧
    nx (.panelStopDone 1) (panel panStopping) (fun t => panSt t 1 == panOff) = true := by
  simp only [AdmittedWrite, admitted_iff, quiet_iff]; decide +kernel

theorem witness_panelWork :
    (allOn (panel panStarting) ((panelChips (panel panStarting) 1).map chipDomain) = true ∧ getN (panel panStarting) (K.panelTestMode 1) = 3 ∧
      (∀ f ∈ test.frames, f.length = panTx (panel panStarting) 1 * panRx (panel panStarting) 1) ∧
      (∀ f ∈ test.selfFrames, f.length = panTx (panel panStarting) 1 + panRx (panel panStarting) 1) ∧ test.frames.length = 8 ∧ test.selfFrames.length = 8 ∧
      badChannels (panel panStarting) 1 test = [] ∧ openLines (panel panStarting) 1 test = [] ∧ shortLines (panel panStarting) 1 test = []) ∧
    (badChannels wide 1 opens = [] ∧ 8 < (openLines wide 1 opens).length ∧ allOn wide ((panelChips wide 1).map chipDomain) = true ∧
      (∀ f ∈ opens.frames, f.length = panTx wide 1 * panRx wide 1) ∧ (∀ f ∈ opens.selfFrames, f.length = panTx wide 1 + panRx wide 1)) ∧
    ((panelOf (panel panActive { testing := true }) 1).testing = true ∧ badChannels (panel panActive { testing := true }) 1 test = [] ∧
      openLines (panel panActive { testing := true }) 1 test = [] ∧ shortLines (panel panActive { testing := true }) 1 test = []) ∧
    (AdmittedWrite (panel panActive { base := [1000, 1001, 1002, 1003] }) rm 0 (K.panelRefCapture (1 : Fin 4)) 1 ∧
      (∀ q ∈ (panelOf (panel panActive { base := [1000, 1001, 1002, 1003] }) 1).base, q.den = 1) ∧
      AdmittedWrite (panel panActive { contacts := [contact] }) rm 0 (K.panelRefCapture (1 : Fin 4)) 1 ∧
      AdmittedWrite (panel panActive) rm 0 (K.panelTestRun (1 : Fin 4)) 1 ∧
      nx (.panelTestRun rm 1 1) (panel panActive) (fun t => st t == some .ok && (panelOf t 1).testing) = true) ∧
    (frame.nodes.length = panTx (panel panActive) 1 * panRx (panel panActive) 1 ∧ frame.lines.length = panTx (panel panActive) 1 + panRx (panel panActive) 1 ∧
      maskedLines (panel panActive) 1 = []) ∧
    ((panelOf (panel panActive { contacts := [contact], limit := 9 }) 1).contacts.find? (fun c => c.id == 2) = some contact ∧
      contact.since + (panelOf (panel panActive { contacts := [contact], limit := 9 }) 1).limit * 1000000000 ≤ (panel panActive).now) ∧
    ((panelOf (panel panActive { quietSince := 5000000000 }) 1).quietSince + getN (panel panActive) (K.panelDriftAfter 1) * 1000000000 ≤ (panel panActive).now ∧
      nx (.driftEntry 1) (panel panActive { quietSince := 5000000000 }) (fun t => panSt t 1 == panDrift) = true) ∧
    (([111] : List (BitVec 12)).length = ceilDiv (panTx (panel panDrift) 1 + panRx (panel panDrift) 1) 8 ∧
      ((getN (panel panDrift) (K.panelDriftThr 1) : Nat) : ℚ) < (((111 : BitVec 12).toNat : Nat) : ℚ) - ([100] : List ℚ).getD 0 0) := by
  simp only [AdmittedWrite, admitted_iff]; decide +kernel

/-- The PF of H0 has ring 9 as its local ring 0. -/
def pfRing : State := put [(K.ringOwner 9, 0), (K.ringEnable 9, 1), (K.ringCqBase 9, 4096)] { (panel panActive) with rings := [(9, { tail := 5 })] }
def hdPf : CmdHdr := { ring := 9, flags := 1, tag := 3, func := 0, ctx := 0xFF, hwring := 9, surface := 0 }

/-- It has registered a buffer. -/
def registered : State := modPanel pfRing 1 (fun x => { x with bufs := [(0, { ticket := { ticketOf pfRing hdPf 0x50 with index := 0 }, addr := 0x80, slots := 4 })] })

theorem witness_touchBuf : Fetches pfRing hdPf 0x50 false ∧ isPf (getN pfRing (K.ringOwner hdPf.ring)) = true ∧
    tfind (panelOf pfRing 1).bufs 0 = none ∧ (tfind (panelOf registered 1).bufs 0).map (·.addr) = some 0x80 ∧
    (isPf 1 = false ∧ hasTouchRegion ringed 1 1 = false ∧ Fetches ringed hd 0x50 false) ∧ nx (.touchBuf hdPf ⟨1, 4, 0x40⟩) pfRing (fun t => (tfind (panelOf t 1).bufs 0).isSome) = true := by
  simp only [fetches_iff]; decide +kernel
/-! ## Haptics and sound -/

/-- The ZH-17 is ready with every channel enabled and idle but channel 2, which is in the given state; a PF ring plays. -/
def haptic (state : Nat) (x : Chan := {}) : State :=
  put ([(K.hapEnable, 1), (K.hapState, hapReady), (K.domState 21, domOn), (K.hapIlk, 1), (K.chEnable 2, 1), (K.chState 2, state), (K.ringOwner 9, 0),
      (K.ringEnable 9, 1), (K.ringCqBase 9, 4096), (K.chCap 2, 100)])
    { up with hap := { chans := [(2, x)] }, rings := [(9, { tail := 5 })] }
def effect : Effect := { id := 5, func := 0, effect := 0, cls := 1, due := 9999000000 }
def low : Effect := { id := 4, func := 0, effect := 0, cls := 0, due := 0 }
def overlay : Effect := { effect with id := 6, overlay := true }
def play : HapticPayload := { chans := 4, effect := 0, cls := 1, scale := 100, flags := 0, deadline := 0, start := 0 }

theorem witness_effects :
    (channelOpen (haptic chIdle { waits := [effect] }) 2 = true ∧ effFits (haptic chIdle { waits := [effect] }) 2 effect = true ∧
      nx (.effectDue 2) (haptic chIdle { waits := [effect] }) (fun t => chSt t 2 == chAttack && (chanOf t 2).run == some effect) = true) ∧
    (low.cls < effect.cls ∧ effFits (haptic chSustain { waits := [effect], run := some low, started := 9990000000 }) 2 effect = true ∧
      nx (.effectDue 2) (haptic chSustain { waits := [effect], run := some low, started := 9990000000 }) (fun t => (chanOf t 2).run == some effect &&
        getN t (K.chDropped 2) == 1) = true) ∧
    (nx (.effectDue 2) (haptic chSustain { waits := [low], run := some effect }) (fun t => (chanOf t 2).run == some effect &&
        decide ((chanOf t 2).queue = [low])) = true) ∧
    ((chanOf (haptic chAttack { run := some effect, started := 9900000000 }) 2).started + shaleAttack effect.effect * msec ≤ up.now ∧
      nx (.attackEnd 2) (haptic chAttack { run := some effect, started := 9900000000 }) (fun t => chSt t 2 == chSustain) = true) ∧
    (9900000000 + (shaleAttack effect.effect + shaleSustain effect.effect) * msec ≤ up.now ∧
      nx (.brakingStart 2 1000000) (haptic chSustain { run := some effect, started := 9900000000, limited := true }) (fun t => chSt t 2 == chBraking && getN t (K.chSat 2) == 0) = true ∧
      nx (.brakingStart 2 0) (haptic chSustain { run := some effect, started := 9900000000, limited := true }) (fun t => getN t (K.chSat 2) == 1) = true) ∧
    (effFits (haptic chSustain { run := some effect, queue := [overlay], started := 9900000000 }) 2 overlay = true ∧
      nx (.brakingStart 2 0) (haptic chSustain { run := some effect, queue := [overlay], started := 9900000000 }) (fun t =>
        (chanOf t 2).run == some overlay && chSt t 2 == chAttack && getN t (K.chDone 2) == 1) = true) ∧
    (9900000000 + shaleBrake effect.effect * msec + 4 * msec ≤ up.now ∧
      nx (.brakingEnd 2 1000000) (haptic chBraking { run := some effect, braked := 9900000000 }) (fun t => chSt t 2 == chIdle && getN t (K.chDone 2) == 1) = true) ∧
    (effFits (haptic chBraking { run := some low, queue := [effect], started := 9880000000, braked := 9900000000, headAt := 9900000000 }) 2 effect = true ∧
      nx (.queueHeadTimeout 2) (haptic chBraking { run := some low, queue := [effect], started := 9880000000, braked := 9900000000, headAt := 9900000000 })
        (fun t => (chanOf t 2).run == some effect && getN t (K.chDone 2) == 1) = true) := by decide +kernel

theorem witness_limits :
    (200 * msec + 9800000000 ≤ up.now ∧ nx (.onTimeCut 2) (haptic chSustain { run := some effect, started := 9800000000 }) (fun t =>
      chSt t 2 == chIdle && getN t K.hapLimit == 1) = true) ∧
    (200 * msec ≤ chDutyNs (haptic chSustain { run := some effect, started := 9990000000, ons := [(9500000000, 9700000000)] }) 2 ∧
      nx (.dutyCut 2) (haptic chSustain { run := some effect, started := 9990000000, ons := [(9500000000, 9700000000)] }) (fun t =>
        chSt t 2 == chIdle && getN t K.hapLimit == 1) = true) ∧
    (nx (.accelTimeout 2 [0x00FFFF00]) (put [(K.chSenseUsed 2, 1)] (haptic chAttack { run := some effect, started := 9998000000 })) (fun t =>
      getN t (K.chSenseUsed 2) == 0 && getN t (K.chSenseFail 2) == 1) = true ∧
      nx (.accelTimeout 2 [0xFFFE0100, 0x0000FF00]) (put [(K.chSenseUsed 2, 1)] (haptic chAttack { run := some effect, started := 9998000000 }))
        (fun t => getN t (K.chSenseUsed 2) == 1 && (chanOf t 2).accel == -976) = true) ∧
    (nx (.effectDeadline 2) (haptic chSustain { run := some effect, queue := [{ low with deadline := some 9000000000 }] }) (fun t =>
      (chanOf t 2).queue.isEmpty && getN t (K.chDropped 2) == 1) = true) ∧
    (effFits (haptic chIdle { queue := [effect] }) 2 effect = true ∧
      nx (.effectFits 2) (haptic chIdle { queue := [effect] }) (fun t => (chanOf t 2).run == some effect) = true) ∧
    (tripHolds (haptic chSustain { run := some effect }) 2 1 0 = true ∧
      nx (.hapTrip 2 1 0) (haptic chSustain { run := some effect }) (fun t => chSt t 2 == chTripped && getN t (K.chTrip 2) == 2) = true) ∧
    (getN (haptic chTripped { probeAt := some 10000000000 }) (K.chCap 2) = 100 ∧
      nx (.tripProbe 2 50) (haptic chTripped { probeAt := some 10000000000 }) (fun t => chSt t 2 == chIdle) = true ∧
      nx (.tripProbe 2 49) (haptic chTripped { probeAt := some 10000000000 }) (fun t => chSt t 2 == chTripped && (chanOf t 2).probeAt.isNone) = true) := by
  decide +kernel

theorem witness_chReset : AdmittedWrite (haptic chTripped) rm 0 (K.chReset (2 : Fin 16)) 1 ∧ managerSession (haptic chTripped) 0 ∧
    nx (.chReset rm 2 1 200) (haptic chTripped) (fun t => st t == some .ok && chSt t 2 == chIdle) = true ∧
    nx (.chReset rm 2 1 201) (haptic chTripped) (fun t => st t == some .ok && chSt t 2 == chTripped) = true := by
  simp only [AdmittedWrite, admitted_iff, managerSession]; decide +kernel

/-- The ZH-17 is off, and starts. -/
def hapIdle : State := put [(K.hapEnable, 0), (K.hapState, hapOff), (K.domState 21, 0)] (haptic chOff)
def hapStarts : State := put [(K.hapState, hapStarting)] (haptic chOff)

theorem witness_driver :
    (chSt (haptic chIdle) 2 = chIdle ∧ unitState (haptic chIdle) clsDriver 16 = unitSpare ∧ (∀ n, n < 16 →
      unitState hapStarts clsDriver (getN hapStarts (K.chDriver n)) = unitInService)) ∧
    (getN hapStarts K.hapState = hapStarting ∧ domSt hapStarts 21 = domOn ∧ getB hapStarts K.hapIlk = true ∧
      nx (.hapReady []) hapStarts (fun t => getN t K.hapState == hapReady && chSt t 2 == chIdle) = true) ∧
    (getB (haptic chIdle) K.hapIlk = true ∧ nx .interlockOpen (haptic chIdle) (fun t => getN t K.hapState == hapStarting && chSt t 2 == chOff) = true) := by
  decide +kernel

theorem witness_hapEnable :
    (Quiet hapIdle ∧ K.hapEnable ∉ hapIdle.transit ∧ AdmittedWrite hapIdle rm 0 K.hapEnable 1 ∧ getB hapIdle K.hapEnable = false ∧
      getN hapIdle K.hapState = hapOff ∧ domSt hapIdle 21 ≠ domStopping ∧
      nx (.hapEnable rm) hapIdle (fun t => st t == some .ok && getN t K.hapState == hapStarting) = true) := by
  simp only [AdmittedWrite, admitted_iff, quiet_iff]; decide +kernel

theorem witness_hapDisable :
    Quiet (haptic chIdle) ∧ AdmittedWrite (haptic chIdle) rm 0 K.hapEnable 0 ∧ getB (haptic chIdle) K.hapEnable = true ∧
      nx (.hapDisable rm) (haptic chIdle) (fun t => st t == some .ok && getN t K.hapState == hapOff) = true ∧
      nx (.hapDisable rm) (haptic chSustain { run := some effect }) (fun t => getN t K.hapState == hapStopping && chSt t 2 == chBraking) = true := by
  simp only [AdmittedWrite, admitted_iff, quiet_iff]; decide +kernel

/-- Channel 0 is open too. -/
def both : State := put [(K.chEnable 0, 1), (K.chState 0, chIdle), (K.chCap 0, 100)] (haptic chIdle)

theorem witness_play :
    Fetches (haptic chIdle) hdPf 0x40 false ∧ playOk (haptic chIdle) (getN (haptic chIdle) (K.ringOwner hdPf.ring)) play = true ∧
    numbers 16 (fun n => bitOf play.chans.toNat n) = [2] ∧ channelOpen (haptic chIdle) 2 = true ∧
    effTotal { id := 0, func := 0, effect := play.effect.toNat, cls := 0, due := 0 } + 4 * msec ≤ 200 * msec ∧
    nx (.hapticPlay hdPf play) (haptic chIdle) (fun t => chSt t 2 == chAttack) = true ∧
    nx (.hapticPlay hdPf { play with start := 10000000001 }) (haptic chIdle) (fun t => (chanOf t 2).waits.length == 1) = true ∧
    playOk (haptic chIdle) 0 { play with scale := 0 } = false ∧
    (channelOpen both 0 = true ∧ channelOpen both 2 = true ∧ (chanOf both 0).run = none ∧ (chanOf both 2).run = none ∧
      nx (.hapticPlay hdPf { play with chans := 5 }) both (fun t => chSt t 0 == chAttack && chSt t 2 == chAttack) = true) := by
  simp only [fetches_iff]; decide +kernel

/-- The sound engine is off; runs with input 4 of the PF, in the given state; and with capture 3. -/
def sndIdle : State := put [(K.sndEnable, 0), (K.sndState, sndOff)]
def sounds (en state : Nat) : State := put [(K.sndEnable, 1), (K.sndState, sndRun), (K.sndRate, 48000), (K.inOwner 4, 0), (K.inChans 4, 1), (K.inEn 4, en),
  (K.inState 4, state), (K.inFrames 4, 1024)] { up with snd := { periodAt := 9999000000 } }
def captures : State := put [(K.capOwner 3, 0), (K.capEn 3, 1), (K.capState 3, 1), (K.capFrames 3, 96)] (sounds 0 0)

theorem witness_snd :
    (Quiet sndIdle ∧ K.sndEnable ∉ sndIdle.transit ∧ AdmittedWrite sndIdle rm 0 K.sndEnable 1 ∧ getB sndIdle K.sndEnable = false ∧ sndSt sndIdle = sndOff ∧
      domSt sndIdle 22 ≠ domStopping ∧ nx (.sndEnable rm) sndIdle (fun t => st t == some .ok && getB t K.sndEnable) = true) := by
  simp only [AdmittedWrite, admitted_iff, quiet_iff]; decide +kernel

theorem witness_sndDisable : Quiet (sounds 1 1) ∧ AdmittedWrite (sounds 1 1) rm 0 K.sndEnable 0 ∧ getB (sounds 1 1) K.sndEnable = true ∧
    sndSt (sounds 1 1) = sndRun ∧ nx (.sndDisable rm) (sounds 1 1) (fun t => st t == some .ok && getN t (K.inState 4) == 0) = true := by
  simp only [AdmittedWrite, admitted_iff, quiet_iff]; decide +kernel

theorem witness_streams :
    (AdmittedWrite (sounds 0 0) rm 0 (K.inEn (4 : Fin 64)) 1 ∧ (sessOf (sounds 0 0) 0).func = streamN (sounds 0 0) false 4 1 ∧ streamN (sounds 0 0) false 4 9 = 0 ∧
      groupClash (sounds 0 0) 4 0 (groupSpan (sounds 0 0) 4) = false ∧
      nx (.streamEnable rm false 4 true) (sounds 0 0) (fun t => st t == some .ok && streamN t false 4 11 == 1) = true) ∧
    (AdmittedWrite (sounds 1 1) rm 0 (K.inEn (4 : Fin 64)) 0 ∧ streamN (sounds 1 1) false 4 9 = 1 ∧
      nx (.streamEnable rm false 4 false) (sounds 1 1) (fun t => st t == some .ok && streamN t false 4 11 == 0) = true) ∧
    ((sounds 1 1).snd.periodAt + 1000000 ≤ (sounds 1 1).now ∧ (∀ j, j < 64 → j ≠ 4 → streamN (sounds 1 1) false j 11 = 0) ∧
      (∀ j, j < 16 → streamN (sounds 1 1) true j 11 = 0) ∧ streamN (sounds 1 1) false 4 11 ≠ 0 ∧ streamN (sounds 1 1) false 4 2 = 0 ∧
      periodFrames (sounds 1 1) = 48) ∧
    ((∀ j, j < 64 → streamN captures false j 11 = 0) ∧ (∀ j, j < 16 → j ≠ 3 → streamN captures true j 11 = 0) ∧ streamN captures true 3 11 ≠ 0 ∧
      streamN captures true 3 5 = 96) := by
  simp only [AdmittedWrite, admitted_iff]; decide +kernel

/-- Input 5 of the PF plays in the group that starts with input 4. -/
def clash : State := put [(K.inOwner 5, 0), (K.inChans 5, 1), (K.inEn 5, 1), (K.inState 5, 1), (K.inFrames 5, 1024), (K.inChans 4, 2)] (sounds 0 0)

theorem witness_clash : AdmittedWrite clash rm 0 (K.inEn (4 : Fin 64)) 1 ∧ streamN clash false 4 1 ≠ 0xFF ∧
    groupClash clash 4 (streamN clash false 4 1) (groupSpan clash 4) = true ∧ domSt (put [(K.domState 22, domOn)] sndIdle) 22 = domOn := by
  simp only [AdmittedWrite, admitted_iff]; decide +kernel

theorem witness_avtp :
    (nx (.avtpPacketRx 1 10000000000 [1]) (sounds 0 0) (fun t => (tget t.snd.held 1 []).length == 1) = true ∧
      nx (.avtpPacketRx 1 9999999999 [1]) (sounds 0 0) (fun t => tget t.snd.late 1 0 == 1) = true ∧
      nx (.avtpPacketTx 1) (sounds 0 0) (fun t => (tget t.snd.sent 1 (0, 0, 0)).1 == 1) = true) ∧
    (getN (put [(K.domState 22, domOn), (K.kaolinTw, twRun)] (sounds 0 0)) K.kaolinTw = twRun ∧
      nx (.chimeStart 2 3) (put [(K.domState 22, domOn), (K.kaolinTw, twRun)] (sounds 0 0)) (fun t => getN t K.chimeState == 3) = true ∧
      nx .chimeStop (put [(K.chimeState, 3), (K.kaolinTw, twRun)] (sounds 0 0)) (fun t => getN t K.chimeState == 0) = true) ∧
    (getN (put [(K.kaolinTw, twDown)] (sounds 0 0)) K.kaolinTw ≠ twRun ∧
      nx (.chimeStart 2 3) (put [(K.domState 22, 0), (K.kaolinTw, twRun)] (sounds 0 0)) (fun t => t.snd.chime.isNone) = true ∧
      nx .chimeStop (put [(K.chimeState, 3), (K.kaolinTw, twDown)] (sounds 0 0)) (fun t => getN t K.chimeState == 3) = true ∧
      nx .chimeEnd { sounds 0 0 with snd := { chime := some (2, 0, 0) } } (fun t => t.snd.chime.isSome) = true) ∧
    nx .chimeEnd { sounds 0 0 with snd := { chime := some (2, 1, 0) } } (fun t => t.snd.chime.isNone) = true := by decide +kernel
/-! ## The fabric -/

/-- Link 2 in a state, with PD05 on; node 9 lies behind it, and this module holds address 4. -/
def linked (state : Nat) (x : LinkSt := {}) : State :=
  put [(K.linkEnable 2, 1), (K.linkState 2, state), (K.domState 5, domOn), (K.fabAddr, 4), (K.fabState, fabRun), (K.fabRoute 9, 10)]
    { up with fab := { links := [(2, x)], lastRec := 9990000000 } }
def passing : Packet := { dest := 9, src := 9, cls := 9, type := 0, lseq := 77, flow := 0, offset := 0, payload := [] }
def packet : Packet := { dest := 4, src := 9, cls := 8, type := 0, lseq := 77, flow := 0, offset := 0, payload := [] }

theorem witness_links :
    (domSt (linked lnkDown) 5 = domOn ∧ getB (linked lnkDown) (K.linkEnable 2) = true ∧ lnkSt (linked lnkDown) 2 = lnkDown ∧
      nx (.linkBringUp 2) (linked lnkDown) (fun t => lnkSt t 2 == lnkTraining) = true) ∧
    (nx (.linkFailedRetry 2) (linked lnkFailed { retryAt := 10000000000 }) (fun t => lnkSt t 2 == lnkTraining) = true) ∧
    (nx (.linkHoldExpiry 2) (linked lnkHeld { heldUntil := 10000000000 }) (fun t => lnkSt t 2 == lnkDown) = true) ∧
    (linkLanesOf (linked lnkTraining) 2 = [0, 1, 2, 3] ∧ unitState (linked lnkTraining) clsLane (4 + 256 * 2) = unitSpare ∧
      nx (.laneTrainingDone 2 [0, 1, 2, 3] true [1]) (linked lnkTraining) (fun t => lnkSt t 2 == lnkUp && getN t (K.linkLanes 2) == 4) = true) ∧
    ((linkOf (linked lnkUp { rxAt := 9999900000 }) 2).rxAt + 100000 ≤ up.now ∧ linkCarries (linked lnkUp { rxAt := 9999900000 }) 2 = true) := by decide +kernel

theorem witness_packets :
    (packet.dest.toNat < 64 ∧ packet.dest.toNat = getN (linked lnkUp) K.fabAddr ∧ getN (linked lnkUp) K.fabState ≠ fabExcluded ∧
      packetClass packet ≠ 3 ∧
      nx (.packetRx 2 packet (some 5) [0, 2] true false) (linked lnkUp { out := [{ packet with lseq := 4 }, { packet with lseq := 5 }, { packet with lseq := 6 }], spent := [1, 3, 0, 0] })
        (fun t => (linkOf t 2).ack == 77 && decide ((linkOf t 2).out.map (·.lseq) = [6]) && decide ((linkOf t 2).spent.take 2 = [1, 1])) = true) ∧
    (lnkSt (linked lnkDown) 2 ≠ lnkUp ∧ nx (.packetRx 2 packet none [] true false) (linked lnkDown) (fun t => (linkOf t 2).ack == (linkOf (linked lnkDown) 2).ack) = true) ∧
    (getN (linked lnkUp) (K.fabRoute 9) ≠ 0xFF ∧ packetClass passing = 1 ∧ (linkOf (linked lnkUp) 2).freeAt ≤ (linked lnkUp).now ∧
      (linked lnkUp).now < (linkOf (linked lnkUp { freeAt := 10000000001 }) 2).freeAt ∧
      nx (.packetRx 2 passing none [] true false) (linked lnkUp { freeAt := 10000000001 }) (fun t => (linkOf t 2).wait.getLast?.map (·.cls) == some 5) = true ∧
      nx (.packetRx 2 { passing with cls := 7 } none [] true false) (linked lnkUp) (fun t => getN t K.fabDrop == 1) = true) ∧
    (nx (.packetRx 2 packet none [] false true) (linked lnkUp) (fun t => getN t (K.linkReplay 2) == 1 && lnkSt t 2 == lnkUp) = true) ∧
    nx (.packetRx 2 packet none [] false false) (linked lnkUp) (fun t => lnkSt t 2 == lnkTraining && getN t (K.linkRetrain 2) == 1) = true := by decide +kernel

/-- A partner that grants credits takes a packet at once. -/
theorem witness_packetSent (h : 0 < Config.linkCredit 1) : (linkOf (linked lnkUp) 2).spent.getD (packetClass passing) 0 < Config.linkCredit (packetClass passing) ∧
    (linkOf (linked lnkUp) 2).wait = [] ∧ ((linkOf (linked lnkUp) 2).out.map packetSize).sum + packetSize passing ≤ 65536 :=
  ⟨h, rfl, by decide +kernel⟩

/-- Another module's serial, and its record. -/
def other : Nat := if ownSerial = 1 then 2 else 1
def record : LinkRecord := ⟨BitVec.ofNat 64 other, 5, 9, []⟩

theorem other_ne : other ≠ ownSerial := by unfold other; split <;> omega
theorem record_ne : record.serial.toNat ≠ ownSerial := by
  have h : record.serial.toNat = other := by
    simp only [record, BitVec.toNat_ofNat]
    apply Nat.mod_eq_of_lt
    unfold other
    split <;> omega
  rw [h]; exact other_ne

theorem witness_discovery :
    (nx (.hello 2 7 9 3 1) (linked lnkUp) (fun t => getN t (K.linkPartner 2) == 7 && getN t K.fabTopoGen == 4 && getN t K.fabState == fabDiscovering) = true) ∧
    (record.serial.toNat ≠ ownSerial ∧ (∃ l, l < 4 ∧ linkCarries (linked lnkUp) l = true) ∧
      (∀ y ∈ (linked lnkUp).fab.records, y.serial = record.serial → y.seq.toNat < record.seq.toNat)) ∧
    (getN (put [(K.fabState, fabDiscovering)] (linked lnkUp)) K.fabState = fabDiscovering ∧
      (put [(K.fabState, fabDiscovering)] (linked lnkUp)).fab.lastRec + 2000000 ≤ (put [(K.fabState, fabDiscovering)] (linked lnkUp)).now ∧
      lnkSt (linked lnkUp) 2 = lnkUp) :=
  ⟨by decide +kernel, ⟨record_ne, ⟨2, by decide, by decide +kernel⟩, fun y hy => absurd hy (by simp [linked, put, putN, putV])⟩, by decide +kernel⟩

/-- The other module lies at link 2, and is the root. -/
def rooted : State := put [(K.linkPartner 2, other), (K.fabRootSerial, other)] (linked lnkUp)

theorem witness_root : getN rooted K.fabRootSerial ≠ ownSerial ∧ (firstChoice rooted ownSerial (getN rooted K.fabRootSerial)).map (·.2.1) = some 2 := by
  have h0 : other ≠ 0 := by unfold other; split <;> omega
  have hr : getN rooted K.fabRootSerial = other := rfl
  have hp : getN rooted (K.linkPartner 2) = other := rfl
  have hc : ((List.range 4).filter (fun l => linkCarries rooted l)) = [2] := by rfl
  have hl : linksOf rooted ownSerial = [(other, 2, getN rooted (K.linkLanes 2))] := by
    have : (List.range 4).filter (fun l => linkCarries rooted l && getN rooted (K.linkPartner l) != 0) = [2] := by
      rw [show (fun l => linkCarries rooted l && getN rooted (K.linkPartner l) != 0) =
        (fun l => (getN rooted (K.linkPartner l) != 0) && linkCarries rooted l) by funext l; exact Bool.and_comm _ _,
        ← List.filter_filter, hc]
      simp only [List.filter, hp, bne_iff_ne, ne_eq, h0, not_false_eq_true, bne, beq_eq_false_iff_ne.mpr h0, Bool.not_false]
    simp only [linksOf, if_true, this, List.map_cons, List.map_nil, hp]
  have hh : hops rooted other other = some 0 := by simp [hops, hopsTo]
  refine ⟨by rw [hr]; exact other_ne, ?_⟩
  simp only [firstChoice, hr, hl, List.filterMap_cons, hh, Option.map_some, List.filterMap_nil, List.foldl_cons, List.foldl_nil]

/-! ## Spreads -/

/-- Spread 0 without members; running; its member 1 is a remote one that has been unreachable since 5 s. -/
def spread : State := put [(K.domState 11, domOn)]
def spreadRuns (x : SpreadSt := {}) : State :=
  put [(K.spreadEnable 0, 1), (K.spreadState 0, sprRun), (K.spreadLayerOwner 0 3, 1), (K.smSerial 0 1, other), (K.smState 0 1, smIn), (K.fabSpreadHold, 1000)]
    { up with fab := { spreads := [(0, x)], gone := [(other, 5000000000)] } }

theorem witness_spread :
    (AdmittedWrite spread rm 0 (K.spreadEnable (0 : Fin 8)) 1 ∧ Quiet spread ∧ K.spreadEnable 0 ∉ spread.transit ∧ spreadEnableCheck spread 0 = .ok ∧
      spreadMembers spread 0 = [] ∧ domSt spread 11 ≠ domStopping ∧
      nx (.spreadEnable rm 0) spread (fun t => st t == some .ok && getN t (K.spreadState 0) == sprAligning) = true) := by
  simp only [AdmittedWrite, admitted_iff, quiet_iff]; decide +kernel

theorem witness_spreadWork :
    (AdmittedWrite (spreadRuns) rm 0 (K.spreadEnable (0 : Fin 8)) 0 ∧ managerSession (spreadRuns) 0 ∧ pwrMode (spreadRuns) = 1 ∧ getB (spreadRuns) (K.spreadEnable 0) = true ∧
      getN (spreadRuns) (K.spreadState 0) = sprRun ∧ K.spreadEnable 0 ∉ (spreadRuns).transit) ∧
    (AdmittedWrite (spreadRuns) rv 1 (K.spreadCommit (0 : Fin 8)) 1 ∧ (sessOf (spreadRuns) 1).role = .vf ∧ spreadBits (spreadRuns) 1 0 ≠ 0 ∧
      nx (.spreadCommit rv 0 1) (spreadRuns) (fun t => st t == some .ok && getN t (K.spreadCommitPend 0) == 8) = true ∧
      nx (.spreadCommit rv 0 1) (spreadRuns { closed := true }) (fun t => (spreadOf t 0).late == 8) = true) ∧
    ((spreadOf (spreadRuns) 0).closed = false ∧ nx (.spreadClosePoint 0) (spreadRuns) (fun t => (spreadOf t 0).closed) = true) := by
  simp only [AdmittedWrite, admitted_iff, managerSession]; decide +kernel

theorem witness_spreadLast : (∀ m, m < 16 → smLocal (put [(K.smSerial 0 1, 0), (K.smState 0 1, 0)] (spreadRuns)) 0 m = false ∧
      (m ∈ spreadMembers (put [(K.smSerial 0 1, 0), (K.smState 0 1, 0)] (spreadRuns)) 0 ∨
        getN (put [(K.smSerial 0 1, 0), (K.smState 0 1, 0)] (spreadRuns)) (K.smState 0 m) = smOff)) ∨ ownSerial = 0 := by
  by_cases h : ownSerial = 0
  · exact .inr h
  · refine .inl fun m hm => ⟨?_, .inr ?_⟩
    · have : getN (put [(K.smSerial 0 1, 0), (K.smState 0 1, 0)] (spreadRuns)) (K.smSerial 0 m) = 0 := by
        interval_cases m <;> rfl
      simp only [smLocal, this, beq_eq_false_iff_ne]
      exact fun e => h e.symm
    · interval_cases m <;> decide +kernel

def badSpread : State := put [(K.smSerial 1 0, 5), (K.smXy 1 0, 10)] up
def joining : State := put [(K.smSerial 0 2, other), (K.smState 0 2, smJoining)] (spreadRuns { closed := true, lost := [2] })

theorem witness_spreadState : (spreadOf (spreadRuns { closed := true }) 0).closed = true ∧ getN (spreadRuns { closed := true }) (K.smState 0 1) = smIn ∧
    (-20000 : Int).natAbs ≤ 20000 ∧ nx (.spreadStateRx 0 1 true (-20000)) (spreadRuns { closed := true }) (fun t => getN t (K.smLate 0 1) == 1) = true := by decide +kernel

/-- Spread 1 refuses to be enabled; member 2 of spread 0, of another module, joins. -/
theorem witness_spreadMore :
    (AdmittedWrite badSpread rm 0 (K.spreadEnable (1 : Fin 8)) 1 ∧ getB badSpread (K.spreadEnable 1) = false ∧ spreadEnableCheck badSpread 1 ≠ .ok) ∧
    (getN (joining) (K.smState 0 2) = smJoining ∧ (spreadOf joining 0).closed = true) := by
  simp only [AdmittedWrite, admitted_iff]; decide +kernel

theorem witness_spreadJoins : smLocal joining 0 2 = false := by
  simp only [smLocal, show getN joining (K.smSerial 0 2) = other from rfl, beq_eq_false_iff_ne]; exact other_ne

theorem witness_spreadLost : (spreadRuns).fab.gone.find? (fun e => e.1 == getN (spreadRuns) (K.smSerial 0 1)) = some (other, 5000000000) ∧
    getN (spreadRuns) (K.smState 0 1) = smIn ∧ smLocal (spreadRuns) 0 1 = false ∧ getN (spreadRuns) (K.spreadState 0) = sprRun ∧
    5000000000 + getN (spreadRuns) K.fabSpreadHold * 1000000 ≤ (spreadRuns).now := by
  have hs : getN (spreadRuns) (K.smSerial 0 1) = other := rfl
  have hg : (spreadRuns).fab.gone = [(other, 5000000000)] := rfl
  refine ⟨by rw [hg, hs]; simp, by decide +kernel, ?_, by decide +kernel, by decide +kernel⟩
  simp only [smLocal, hs, beq_eq_false_iff_ne]; exact other_ne

/-- A local member that is IN: it exists unless the module's serial is 0, which names no module (R417). -/
theorem witness_spreadLocal (h : ownSerial ≠ 0) : 0 ∈ spreadMembers (put [(K.smSerial 0 0, ownSerial), (K.smState 0 0, smIn)] (spreadRuns)) 0 ∧
    smLocal (put [(K.smSerial 0 0, ownSerial), (K.smState 0 0, smIn)] (spreadRuns)) 0 0 = true ∧
    getN (put [(K.smSerial 0 0, ownSerial), (K.smState 0 0, smIn)] (spreadRuns)) (K.smState 0 0) = smIn := by
  have hs : getN (put [(K.smSerial 0 0, ownSerial), (K.smState 0 0, smIn)] (spreadRuns)) (K.smSerial 0 0) = ownSerial := rfl
  refine ⟨?_, ?_, rfl⟩
  · simp only [spreadMembers, List.mem_filter, List.mem_range, hs]; simp [h]
  · simp only [smLocal, hs, beq_self_eq_true]
/-! ## Power -/

/-- Domain 14, which needs none but PD00's, waits to ramp; domain 22 in a state; the sound engine asks for it. -/
def domain (state : Nat) : State := put [(K.domState 22, state), (K.domHold 22, 1), (K.domState 0, domOn), (K.domState 2, domOn), (K.domState 3, domOn),
  (K.domState 4, domOn), (K.domState 5, domOn), (K.domState 1, domOn), (K.kaolinTw, twRestarting)] { up with power := { up.power with ramp := [22] } }
def crowded : State := put [(K.domState 14, domRamping), (K.domState 15, domRamping), (K.domState 16, domRamping), (K.domState 17, domRamping)] (domain 0)

theorem witness_domains :
    ((domain 0).power.ramp.find? (rampReady (domain 0)) = some 22 ∧ countN 24 (fun e => domSt (domain 0) e == domRamping) < 4 ∧
      K.domHold 22 ∉ (domain 0).transit ∧ nx (.domainRampStart 22) (domain 0) (fun t => domSt t 22 == domRamping && t.power.ramp.isEmpty) = true) ∧
    (crowded.power.ramp.find? (rampReady crowded) = some 22 ∧ 4 ≤ countN 24 (fun e => domSt crowded e == domRamping) ∧
      nx (.domainRampStart 22) crowded (fun t => domSt t 22 == 0) = true) ∧
    (domSt (domain domRamping) 22 = domRamping ∧ nx (.domainRampDone 22) (domain domRamping) (fun t => domSt t 22 == domTesting && getN t (K.domGen 22) == 1) = true) := by
  decide +kernel

theorem witness_domainOn :
    (domSt (domain domTesting) 22 = domTesting ∧ Quiet (domain domTesting) ∧ getB (domain domTesting) (K.domHold 22) = true ∧
      nx (.domainOn 22 [] []) (domain domTesting) (fun t => domSt t 22 == domOn) = true) ∧
    (domSt (put [(K.domState 1, domTesting), (K.kaolinTw, twOff)] (domain domOn)) 1 = domTesting ∧
      Quiet (put [(K.domState 1, domTesting), (K.kaolinTw, twOff)] (domain domOn)) ∧ twSt (put [(K.domState 1, domTesting), (K.kaolinTw, twOff)] (domain domOn)) ≠ twDown) := by
  simp only [quiet_iff]; decide +kernel

/-- Slice 1, with core 10 in service, has been tested. -/
def sliced : State := put [(K.domState 7, domTesting), (K.domHold 7, 1), (K.coreState 10, 1)] (domain domOff)

theorem witness_sliceFails : domSt sliced 7 = domTesting ∧ Quiet sliced ∧ getB sliced (K.domHold 7) = true ∧ getN sliced (K.coreState 10) = 1 := by
  simp only [quiet_iff]; decide +kernel

/-- PD01's claim may not be made by its firmware's dom.tw. -/
theorem witness_domTw1 : firmwareRuns trusted = true ∧ nx (.domTwWrite 1 true) trusted (fun t => decide (t.objs = trusted.objs) &&
    t.twResp.any (fun x => x.status == .range)) = true := by decide +kernel

theorem witness_domainOff :
    (domSt (domain domStopping) 22 = domStopping ∧ mayGoOff (shed (domain domStopping)) 22 = true ∧
      nx (.domainOff 22) (domain domStopping) (fun t => domSt t 22 == domOff) = true) ∧
    (domSt (put [(K.domState 21, domStopping), (K.hapState, hapReady), (K.hapEnable, 1)] (haptic chSustain { run := some effect })) 21 = domStopping ∧
      mayGoOff (shed (put [(K.domState 21, domStopping), (K.hapState, hapReady), (K.hapEnable, 1)] (haptic chSustain { run := some effect }))) 21 = false) := by
  decide +kernel

theorem witness_domHold :
    (Quiet (put [(K.domHold 22, 0)] (domain domOff)) ∧ AdmittedWrite (put [(K.domHold 22, 0)] (domain domOff)) rm 0 (K.domHold (22 : Fin 24)) 1 ∧
      getB (put [(K.domHold 22, 0)] (domain domOff)) (K.domHold 22) = false ∧ domSt (put [(K.domHold 22, 0)] (domain domOff)) 22 ≠ domStopping ∧
      nx (.domHoldWrite rm 22 true) (put [(K.domHold 22, 0)] (domain domOff)) (fun t => st t == some .ok && getB t (K.domHold 22)) = true) ∧
    (AdmittedWrite (domain domOn) rm 0 (K.domHold (22 : Fin 24)) 0 ∧ Quiet (domain domOn) ∧
      nx (.domHoldWrite rm 22 false) (domain domOn) (fun t => st t == some .ok && !getB t (K.domHold 22)) = true) := by
  simp only [AdmittedWrite, admitted_iff, quiet_iff]; decide +kernel

theorem witness_domClaimed : AdmittedWrite (domain domOn) rm 0 (K.domHold (1 : Fin 24)) 1 ∧ managerSession (domain domOn) 0 ∧
    firmwareRuns trusted = true ∧ K.domTw 15 ∉ trusted.transit ∧ nx (.domTwWrite 15 true) trusted (fun t => getB t (K.domTw 15)) = true ∧
    isClaimed (put [(K.domState 15, domStopping), (K.claimHold 15, 1)] trusted) 15 = true ∧
    nx (.domTwWrite 15 true) (put [(K.domState 15, domStopping), (K.claimHold 15, 1)] trusted) (fun t => decide (K.domTw 15 ∈ t.transit)) = true := by
  simp only [AdmittedWrite, admitted_iff, managerSession]; decide +kernel

/-- Power has been good for 10 ms; the cold start waits for its hosts; the shut-down is done; the reset's 10 ms are over. -/
def dark : State := { State.reset with now := 20000000, power := { seen := true, okSince := some 10000000 } }
def starting : State := put [(K.pwrMode, 0), (K.domState 3, domOn)] { up with power := { good := true, seen := true, step := 11, start := 9800000000, perst0 := some 1, perst1 := some 1 } }
def standing (wake : Bool) : State := put [(K.pwrMode, 2)] { up with power := { up.power with standbyFrom := some 9990000000, wakeQueued := wake } }
def sbUp (mode : Nat) : State := put [(K.pwrMode, mode)] (modSess up 3 (fun x => { x with isOpen := true, gen := 1, role := .sb, src := some .can, renewed := 9000000000, lease := 60000 }))
def rs : DictReq := ⟨.can, 67, 7⟩

theorem witness_modes :
    (dark.power.good = false ∧ dark.power.okSince = some 10000000 ∧ 10000000 + 10000000 ≤ dark.now ∧
      State.reset.power.seen = false) ∧
    nx (.perstDeassert true 8 false 0 true) up (fun t => t.power.perst1 == some 10000000000) = true ∧
    (pwrMode starting = 0 ∧ 11 ≤ starting.power.step ∧ domSt starting 3 = domOn ∧ starting.power.perst0 ≠ none ∧ starting.power.perst1 ≠ none ∧
      nx .hostAvailability starting (fun t => pwrMode t == 1 && getN t K.pwrHostAvail == 200000) = true) ∧
    (pwrMode (standing false) = 2 ∧ (standing false).power.standbyFrom = some 9990000000 ∧ 9990000000 ≤ (standing false).now ∧
      (standing true).power.wakeQueued = true) := by decide +kernel

/-- A host trains 8 lanes on port 0 and 4 on port 1, reversed, with lane 3 inverted. -/
theorem witness_perst :
    nx (.perstDeassert false 12 true 8 false) up (fun t => t.power.link0.width == 8 && t.power.link0.reversed && t.power.link0.inverted == 8) = true ∧
    nx (.perstDeassert true 12 false 0 true) up (fun t => t.power.link1.width == 4 && t.power.perst1 == some 10000000000) = true ∧
    (up.power.good = true ∧ nx (.powerGood true true) up (fun t => decide (t = up)) = true) := by decide +kernel

theorem witness_requests :
    (AdmittedWrite up rm 0 K.pwrReq 3 ∧ pwrMode up = 1 ∧ Quiet up ∧ nx (.pwrReqStandby rm) up (fun t => st t == some .ok && pwrMode t == 2) = true) ∧
    (AdmittedWrite (put [(K.claimHold 15, 1)]) rm 0 K.pwrReq 3 ∧ isClaimed (put [(K.claimHold 15, 1)]) 15 = true) := by
  simp only [AdmittedWrite, admitted_iff, quiet_iff]; decide +kernel

theorem witness_wake :
    (AdmittedWrite (sbUp 3) rs 3 K.pwrReq 1 ∧ (sessOf (sbUp 3) 3).role = .sb ∧ AdmittedWrite (sbUp 2) rs 3 K.pwrReq 1 ∧ AdmittedWrite (sbUp 1) rs 3 K.pwrReq 1 ∧
      nx (.pwrReqRun rs) (sbUp 1) (fun t => st t == some .ok && getN t K.pwrReq == 1) = true) := by
  simp only [AdmittedWrite, admitted_iff, quiet_iff]; decide +kernel

/-- The role of a manager session may not reset the module; a reset is pending, or its 10 ms are. -/
theorem witness_resets :
    (AdmittedWrite (put [(K.pwrResetRoles, 0)]) rm 0 K.pwrReset 0xA1 ∧ (sessOf (put [(K.pwrResetRoles, 0)]) 0).role = .mgr ∧
      mayReset (put [(K.pwrResetRoles, 0)]) .mgr = false) ∧
    (sessOf (put [(K.pwrResetRoles, 1)]) 0).role = .mgr ∧ mayReset (put [(K.pwrResetRoles, 1)]) .mgr = true := by
  simp only [AdmittedWrite, admitted_iff]; decide +kernel

theorem witness_reset : AdmittedWrite (put [(K.pwrResetRoles, 1)]) rm 0 K.pwrReset 0xA1 ∧ bitOf (getN (put [(K.pwrResetRoles, 1)]) K.pwrResetRoles) 0 = true ∧
    up.power.resetAt = none ∧ nx (.pwrReset rm 0xA1) (put [(K.pwrResetRoles, 1)]) (fun t => st t == some .ok && t.power.resetAt == some 10001000000) = true := by
  simp only [AdmittedWrite, admitted_iff]; decide +kernel

/-- A measurement of 50 °C; sensor 2 at 130 °C. -/
def mild : List (BitVec 32) := List.replicate 10 50
def hot : List (BitVec 32) := [50, 50, 130, 50, 50, 50, 50, 50, 50, 50]
/-- The shader clock is a step down, with the hottest sensor at 60 °C; an emergency by heat is over. -/
def throttled (x : Nat) : State := put ((List.range 10).map (fun j => (K.thermTemp j, 60))) { up with power := { up.power with throttle := x, hotSince := some 8000000000, coolSince := some 8000000000 } }
def cooled : State := put [(K.domState 15, domCut)] { up with power := { up.power with thermal := 2, coolSince := some 9000000000 } }

theorem mild_is_below : ∀ x ∈ mild, signedOf 32 x.toNat < signedOf 32 (getN up K.thermThrottle) ∧ signedOf 32 x.toNat < 120 := by
  intro x hx
  have h : x = 50 := List.eq_of_mem_replicate hx
  subst h; decide +kernel

theorem witness_heat : Quiet up ∧ mild.length = 10 ∧ sensorPowered up 2 = true ∧ 130 ≤ signedOf 32 (hot.getD 2 0).toNat ∧
    ∀ x ∈ mild, signedOf 32 x.toNat < signedOf 32 (getN up K.thermThrottle) ∧ signedOf 32 x.toNat < 120 :=
  ⟨(quiet_iff _).mpr (by decide +kernel), by decide +kernel, by decide +kernel, by decide +kernel, mild_is_below⟩

theorem witness_throttle :
    (Quiet (throttled 1) ∧ hottest (throttled 1) = some (0, 60) ∧ (throttled 1).power.hotSince = some 8000000000 ∧
      60 < signedOf 32 (getN (throttled 1) K.thermThrottle) - 10 ∧ nx .throttleStepTimer (throttled 1) (fun t => t.power.throttle == 0) = true) ∧
    (Quiet (put [(K.thermThrottle, 55)] (throttled 1)) ∧ signedOf 32 (getN (put [(K.thermThrottle, 55)] (throttled 1)) K.thermThrottle) + 5 ≤ 60 ∧
      hottest (put [(K.thermThrottle, 55)] (throttled 1)) = some (0, 60)) := by
  simp only [quiet_iff]; decide +kernel

theorem witness_supply :
    (Quiet trusted ∧ trusted.power.lowSince = none ∧ trusted.power.low2Since = none ∧ trusted.power.notice = [] ∧ domSt trusted 1 = domOn ∧
      nx (.supplyChange 9000) trusted (fun t => t.power.okSince == some 10000000000) = true) ∧
    (cooled.power.thermal ≠ 0 ∧ cooled.power.supply = 0 ∧ cooled.power.pd01Cut = false ∧ cooled.power.pd02Cut = false ∧ cooled.power.cut = [] ∧
      cooled.power.coolSince = some 9000000000) := by
  simp only [quiet_iff]; decide +kernel

theorem witness_domRefused :
    (AdmittedWrite (domain domOn) rm 0 (K.domHold (0 : Fin 24)) 0 ∧ AdmittedWrite (domain domOn) rm 0 (K.domHold (0 : Fin 24)) 1) ∧
    (AdmittedWrite (put [(K.claimHold 15, 1)] (domain domOn)) rm 0 (K.domHold (15 : Fin 24)) 0 ∧
      claimState (put [(K.claimHold 15, 1)] (domain domOn)) 15 ≠ 0) ∧
    (AdmittedWrite (sbUp 2) rs 3 K.pwrReq 3 ∧ (sessOf (sbUp 2) 3).role = .sb ∧ pwrMode (sbUp 2) = 2) := by
  simp only [AdmittedWrite, admitted_iff]; decide +kernel

/-! ## Clocks, spares and side pins -/

/-- Island 12 may be gated, island 17 is a slice; their domains are claimed. -/
def claimed : State := put ((List.range 24).map (fun d => (K.claimHold d, 1)))

theorem witness_clocks :
    (AdmittedWrite up rm 0 (K.islGate (12 : Fin 40)) (b2n true) ∧ islandGateable 12 = true ∧ islandClaims up 12 = [] ∧
      nx (.islGateWrite rm 12 true) up (fun t => st t == some .ok && getB t (K.islGate 12)) = true ∧
      AdmittedWrite up rm 0 (K.islGate (3 : Fin 40)) (b2n true) ∧ islandGateable 3 = false ∧
      AdmittedWrite claimed rm 0 (K.islGate (12 : Fin 40)) (b2n true) ∧ islandClaims claimed 12 ≠ []) ∧
    (AdmittedWrite up rm 0 (K.islRate (17 : Fin 40)) 800 ∧ isSlice 17 = true ∧ islandClaims up 17 = [] ∧
      AdmittedWrite up rm 0 (K.islRate (12 : Fin 40)) 800 ∧ isSlice 12 = false) ∧
    (nx (.timeUpdate 5) (put [(K.domState 5, domOn)]) (fun t => tget t.islTime 12 0 == 10000000000 && islandPowered t 12) = true ∧
      nx (.timeUpdate 12000000000) (put [(K.timeLocked, 1)]) (fun t => t.now == 12000000000) = true ∧
      nx (.timeUpdate 12000000000) (put [(K.timeLocked, 0)]) (fun t => t.now == 10000000000) = true) ∧
    (AdmittedWrite claimed rm 0 (K.islRate (17 : Fin 40)) 800 ∧ islandClaims claimed 17 ≠ [] ∧ getN up (K.islRate 17) ≠ 800) := by
  simp only [AdmittedWrite, admitted_iff]; decide +kernel

/-- Core 5 is retired; bank 3 has no spare row left. -/
def retired : State := { up with grog := { up.grog with units := [(unitKey clsCore 5, unitRetired)], spareUsed := [(3, 64)] } }

theorem witness_retest :
    (AdmittedWrite retired rm 0 K.grogRetest (1 + 256 * 5) ∧ managerSession retired 0 ∧ 5 ∈ classUnits 1 ∧ unitState retired 1 5 = unitRetired ∧
      substRuns retired 1 = false ∧ retired.grog.badRows = [] ∧ unitState retired 1 6 = unitInService ∧
      AdmittedWrite retired rm 0 K.grogRetest (1 + 256 * 6)) ∧
    (retired.grog.levelled (2 * 2048 + 9) = 2 * 2048 + 9 ∧ retired.grog.levelled (3 * 2048 + 9) = 3 * 2048 + 9 ∧
      freeRows retired 2 ≠ 0 ∧ freeRows retired 3 = 0 ∧
      nx (.mramRowWrite 2 9 1) retired (fun t => tget t.grog.rowWrites (rowKey 2 9) 0 == 2) = true ∧
      nx (.mramRowWrite 3 9 2) retired (fun t => decide (3 * 2048 + 9 ∈ t.grog.badRows)) = true) ∧
    (AdmittedWrite up rm 0 K.diagEnable (b2n true) ∧ pwrMode up = 1 ∧
      AdmittedWrite (put [(K.pwrMode, 2)]) rm 0 K.diagEnable (b2n true) ∧ pwrMode (put [(K.pwrMode, 2)]) ≠ 1) := by
  simp only [AdmittedWrite, admitted_iff, managerSession]; decide +kernel

/-- Pin 20 counts or stamps both edges, with its receiver on or off; pin 2 wakes the module. -/
def pin (func dom2 : Nat) : State := put [(K.spFunc 20, func), (K.spEdge 20, 3), (K.domState 2, dom2)] { up with pins := [(20, { stage := 2 })] }
def wakes : State := putV asleep K.pwrWakePins (.bytes [2])

theorem witness_pins :
    (getB (pin spCountFn domOn) (K.spIn 20) ≠ true ∧ (pinOf (pin spCountFn domOn) 20).stage = 2 ∧ island4Runs (pin spCountFn domOn) = true ∧
      pinFunc (pin spCountFn domOn) 20 = spCountFn ∧ nx (.sidePinEdge 20 true) (pin spCountFn domOn) (fun t => getN t (K.spCount 20) == 1) = true) ∧
    nx (.sidePinEdge 20 true) (pin spStampFn domOn) (fun t => getN t (K.spStamp 20) == 10000000000) = true ∧
    (island4Runs (pin spCountFn 0) = false ∧ nx (.sidePinEdge 20 true) (pin spCountFn 0) (fun t => (pinOf t 20).events == 1) = true) ∧
    (wakes.power.good = true ∧ pwrMode wakes = 3 ∧ pinWakes wakes 2 true = true ∧
      nx (.sidePinEdge 2 true) wakes (fun t => pwrMode t == 0 && getN t K.pwrCause == 3) = true) := by decide +kernel

theorem witness_pinWrites :
    (AdmittedWrite (pin spCountFn domOn) rm 0 (K.spFunc (20 : Fin 96)) 5 ∧ managerSession (pin spCountFn domOn) 0 ∧ pinTrusted (pin spCountFn domOn) 20 = false ∧
      (pin spCountFn domOn).grog.badRows = [] ∧ nx (.spFuncWrite rm 20 5) (pin spCountFn domOn) (fun t => st t == some .ok && pinFunc t 20 == 5) = true) ∧
    (AdmittedWrite (pin spCountFn domOn) rm 0 (K.spFunc (7 : Fin 96)) 1 ∧ pinTrusted (pin spCountFn domOn) 7 = false) ∧
    (AdmittedWrite (pin spPwm domOn) rm 0 (K.spPwmFreq (20 : Fin 96)) 1000 ∧ 0 < getN (pin spPwm domOn) (K.spPwmFreq 20) ∧
      nx (.spPwmWrite rm 20 true 1000) (pin spPwm domOn) (fun t => st t == some .ok && getN t (K.spPwmFreq 20) == 1000 &&
        decide (pwmNow t 20 = pwmNow (pin spPwm domOn) 20)) = true) ∧
    (AdmittedWrite (pin spPwm domOn) rm 0 (K.spPwmDuty (20 : Fin 96)) 1000 ∧
      nx (.spPwmWrite rm 20 false 1000) (pin spPwm domOn) (fun t => st t == some .ok && getN t (K.spPwmDuty 20) == 1000) = true) := by
  simp only [AdmittedWrite, admitted_iff, managerSession]; decide +kernel

/-- sp.edge names rising edges alone and the edge falls; a stamp waits for the receiver. -/
def oneEdge : State := put [(K.spEdge 20, 1), (K.spIn 20, 1)] (pin spCountFn domOn)

theorem witness_edges :
    (oneEdge.power.good = true ∧ getB oneEdge (K.spIn 20) ≠ false ∧ pwrMode oneEdge ≠ 3 ∧ getN oneEdge (K.spEdge 20) = 1 ∧
      nx (.sidePinEdge 20 false) oneEdge (fun t => !getB t (K.spIn 20) && getN t (K.spCount 20) == 0) = true) ∧
    (nx (.sidePinEdge 20 true) oneEdge (fun t => decide (t = oneEdge)) = true) ∧
    (pinFunc (pin spInput domOn) 20 ≠ spCountFn ∧ pinFunc (pin spInput domOn) 20 ≠ spStampFn ∧
      nx (.sidePinEdge 20 true) (pin spInput domOn) (fun t => getB t (K.spIn 20)) = true) ∧
    (island4Runs (pin spStampFn 0) = false ∧ nx (.sidePinEdge 20 true) (pin spStampFn 0) (fun t => (pinOf t 20).events == 1 && getN t (K.spStamp 20) == 0) = true) ∧
    (pinFunc (pin spCountFn domOn) 20 ≠ spStampFn ∧ nx (.spFuncWrite rm 20 5) (pin spCountFn domOn) (fun t => getN t (K.spStamp 20) == 0) = true) := by
  decide +kernel
/-! ## Ill-formed commands -/

theorem test_wf_refused_requests :
    Instr.wf (.keepalive ⟨.udp 5 [10, 0, 0] 1000, 64, 1⟩) = false ∧
    Instr.wf (.keepalive ⟨.udp 5 [10, 0, 0, 1] 1000, 64, 1⟩) = true ∧
    Instr.wf (.unknownOpcode rm 0x10) = false ∧ Instr.wf (.unknownOpcode rm 0x17) = true ∧
    Instr.wf (.group rm (List.replicate 256 (⟨0x1302, 0, 2⟩, [0, 1]))) = false ∧
    Instr.wf (.twDictRequest (.unknown 0x20)) = false ∧ Instr.wf (.twDictRequest (.badPayload 0x21 none)) = false ∧
    Instr.wf (.twDictRequest (.group (List.replicate 256 (⟨0x1302, 0, 2⟩, [0, 1])))) = false := by decide +kernel

/-- A command's header on ring 37 of the PF. -/
def hdr37 : CmdHdr := ⟨37, [], [], 1, 9, 0, 0, 37, 0⟩

theorem test_wf_refused_limits :
    Instr.wf (.commandBadop hdr37 0x30) = false ∧ Instr.wf (.commandBadop hdr37 0x31) = false ∧ Instr.wf (.commandBadop hdr37 0x32) = true ∧
    Instr.wf (.canSegmentRx 0x501 (List.replicate 65 0)) = false ∧ Instr.wf (.wakeCanFrame (List.replicate 65 0)) = false ∧
    Instr.wf (.memRead 0 (2 ^ 30) [] [] false) = false ∧ Instr.wf (.memRead 0 0 (List.replicate 19 0) [] false) = false ∧
    Instr.wf (.memWrite 0 (16 * 2 ^ 30 - 1) [1, 2]) = false ∧ Instr.wf (.memWrite 0 (16 * 2 ^ 30 - 2) [1, 2]) = true ∧
    Instr.wf (.kaolinSramWrite 0x1FFFFF [1, 2]) = false ∧ Instr.wf (.streamEnable rm true 16 true) = false ∧
    Instr.wf (.streamEnable rm false 16 true) = true ∧ Instr.wf (.regionWrite rm 1 false 0 0 5) = false ∧
    Instr.wf (.regionWrite rm 1 false 0 4 5) = false ∧ Instr.wf (.thermalSample (List.replicate 11 40)) = false ∧
    Instr.wf (.balanceMoveStart [1, 2, 3]) = false := by decide +kernel

theorem test_no_word_is_a_command : decodeTableWord 32 0x10 = none ∧ (up.withFetchWord 32 0x10).pending = up.pending := by decide +kernel

/-! ## Worked examples of the spec -/

/-- Chapter 1: the service node's PDU that reads id.serial. -/
theorem test_example_pdu :
    parsePdu [0x01, 0x10, 0, 0, 0x07, 0, 0, 0, 0x04, 0, 0, 0, 0x02, 0x10, 0, 0] = some (0, 7, .read ⟨0x1002, 0, 0⟩) := by decide +kernel

/-- Its frame reaches the module on identifier 0x501; the answer names serial number, sequence number and OK. -/
theorem test_example_can_read :
    nx (.canSegmentRx 0x501 ([0xC0, 0x01, 0x10, 0, 0, 0x07, 0, 0, 0, 0x04, 0, 0, 0, 0x02, 0x10, 0, 0] ++ [0, 0, 0])) (put [(K.canNode, 1)])
      (fun t => st t == some .ok && decide (t.resp.map (·.2.seq) = some 7)) = true := by decide +kernel

/-- Chapter 2: the driver's ring 37, with the completion index at j. -/
def ring37 (j : Nat) : State :=
  modRing (put [(K.ringOwner 37, 0), (K.ringBase 37, 0x123400000), (K.ringOrder 37, 8), (K.ringCqBase 37, 0x123500000),
    (K.ringCqOrder 37, 8)]) 37 (fun r => { r with cqTail := j })

/-- The completion of a command with tag 9. -/
def done37 (j : Nat) : State :=
  writeCompletion (ring37 j) ⟨{ func := 0, epoch := 0, ring := 37, local_ := 2, index := j, op := 0, tag := 9, complete := true, irq := false },
    0, 0, 0⟩

/-- Completion 250 goes to 0x1_2350_1F40 with phase 1, completion 259 to 0x1_2350_0060 with phase 0. -/
theorem test_example_completions :
    (memGetAll (done37 250).host (hostKey 0 0x123501F40) 4 = [9, 0, 0, 1]) ∧
    (memGetAll (done37 259).host (hostKey 0 0x123500060) 4 = [9, 0, 0, 0]) ∧ (ringOf (done37 259) 37).cqTail = 260 := by decide +kernel

/-- Chapter 3: 68 rows and a stride of 15 360 bytes. -/
theorem test_example_rows : strideOf 0 0 3840 = 15360 ∧ ceilDiv 2160 32 = 68 ∧ 68 * 2 * (32 * strideOf 0 0 3840) = 66846720 := by
  decide +kernel

/-- Chapter 4: the lane rates for M082's pixel clock. -/
theorem test_example_lane_rate : modePclk 82 = 594000 ∧ leastRate 1 8100 594000 4 10 = some 8100 ∧
    leastRate 1 8100 594000 4 8 = some 5400 ∧ leastRate 0 13500 594000 2 10 = some 10000 := by decide +kernel

/-- The check value of the CRC-32 of IEEE 802.3 (R156). -/
theorem test_crc32 : crc32 [0x31, 0x32, 0x33, 0x34, 0x35, 0x36, 0x37, 0x38, 0x39] = 0xCBF43926#32 := by decide +kernel

/-- Chapter 6: the Silt bytes of the example's pass: its fixed part, 400 draws, 180 000 primitives and 1380 tiles of 217 references. -/
theorem test_example_silt : 4096 + 16 * 1380 + 64 * 400 + 180000 * (48 + 12 * 8) + 1380 * chunkBytes [List.replicate 217 0] = 27208256 := by
  decide +kernel

/-- Chapter 8: column 9 times the error 0x5 is the syndrome 0x18D5. -/
theorem test_example_syndrome : eccColumn16 9 = 0xB761 ∧ gfColumn (eccColumn16 9) 5 = 0x18D5 := by decide +kernel

/-- Chapter 12: E003 and E050. -/
theorem test_example_shale : shalePeak 3 = 1500 ∧ shaleAttack 3 = 2 ∧ shaleSustain 3 = 4 ∧ shalePeak 50 = 450 := by decide +kernel

end Sys2Proof.Tests
end

/-!
PROOFS. O9: what a session keeps of a request's response, where the request starts the module again.

A start keeps of the session table the entries of open side-band sessions, where they stand in the list (`freshState`). The statement's
second clause ranges over every state, also over one whose table lists a slot twice, which `Inv` excludes. There the start drops the
entry that was the session's, and the entry behind it, with kept responses of its own, becomes the session's.
-/

namespace Sys2Proof.Proofs.CachedResponses

open Sys2Proof.Machine

/-- The module in STANDBY with two entries for slot 0: the manager's session, which keeps no response, and behind it a side-band
session of the same generation, which keeps one. -/
def slotListedTwice : State :=
  { State.reset with
    objs := [(K.pwrMode, { val := .num 3, ctr := 0 })]
    sess := [(0, { isOpen := true, gen := 1, role := .mgr, src := some (.portal 0) }),
             (0, { isOpen := true, gen := 1, role := .sb, cache := [(0, { op := 3, session := 64, seq := 0, status := .ok, payload := [] })] })]
    power := { good := true, avail := true } }

/-- A request of the manager's session, with sequence number 7. -/
def managerRequest : DictReq := { src := .portal 0, session := 64, seq := 7 }

/-- The write of 1 to pwr.req: from STANDBY the module starts (R444). -/
def wakeRequest : Request := numWrite (K.pwrReq / 256) (K.pwrReq % 256) 1

theorem wakeRequest_admitted : Admitted slotListedTwice managerRequest 0 wakeRequest where
  path := by decide +kernel
  slot := by decide +kernel
  carrier := by decide +kernel
  new := by decide +kernel
  size := by decide +kernel
  served := by decide +kernel

/-- The manager's session keeps no response before its request. -/
theorem cache_before_wake : (sessOf slotListedTwice 0).cache = [] := rfl

/-- After the wake the manager's identifier names the side-band entry: the response is kept behind the one that stood there. -/
theorem cache_after_wake : ∃ t, request slotListedTwice managerRequest wakeRequest none = .next t ∧
    slotOfId t managerRequest.session.toNat = some 0 ∧ (sessOf t 0).cache.length = 2 := by
  refine ⟨_, rfl, ?_⟩
  decide +kernel

/-- Refutes O9: its second clause lacks the premise that the session table lists each slot once. Where slot 0 is listed twice, a wake from
STANDBY by a session that keeps no response leaves two kept responses under that session's identifier, and not its own alone. -/
theorem not_cachedRequestIsNotExecutedAgain : ¬ Obligations.CachedRequestIsNotExecutedAgain := by
  unfold Obligations.CachedRequestIsNotExecutedAgain
  rintro ⟨-, hkept, -⟩
  obtain ⟨t, hrun, hslot, htwo⟩ := cache_after_wake
  obtain ⟨x, -, hcache⟩ := hkept slotListedTwice t managerRequest 0 wakeRequest none wakeRequest_admitted hrun hslot
  have hone : (sessOf t 0).cache.length = 1 := by
    rw [hcache, cache_before_wake]
    rfl
  omega

end Sys2Proof.Proofs.CachedResponses

/-!
PROOFS. O26: when a doorbell is accepted and when it is refused.

Where no copy of the ring's fields disagrees, the vote that every doorbell takes leaves the state as it is. What remains is one test,
which a stopped ring fails as well, and one of two updates: of the ring's tail, or of its error bit and the drop counts.
-/

namespace Sys2Proof.Proofs.Doorbells

open Sys2Proof.Machine

/-! ## The vote and the drop count -/

theorem voteField_of_no_copies {s : State} {k : Nat} (h : tfind s.votes k = none) : voteField s k = (s, true) := by
  simp [voteField, h]

theorem voteRing_of_ringAgrees {s : State} {h : Nat} (ha : ringAgrees s h) : voteRing s h = s := by
  have hfield : ∀ k ∈ [K.ringEnable h, K.ringBase h, K.ringOrder h, K.ringOwner h], voteField s k = (s, true) :=
    fun k hk => voteField_of_no_copies (ha k hk)
  simp only [List.forall_mem_cons] at hfield
  obtain ⟨henable, hbase, horder, howner, -⟩ := hfield
  simp only [voteRing, List.foldl_cons, List.foldl_nil, henable, hbase, horder, howner]

@[simp] theorem ringOf_modFunc (s : State) (f j : Nat) (g : Func → Func) : ringOf (modFunc s f g) j = ringOf s j := rfl

theorem ringOf_countDrop (s : State) (h f : Nat) :
    ringOf (countDrop s h f) h = { ringOf s h with drop := satInc 32 (ringOf s h).drop } := by
  simp only [countDrop, ringOf_modFunc, ringOf_modRing]

theorem ringOf_countDrop_ne (s : State) {h j : Nat} (f : Nat) (hj : j ≠ h) : ringOf (countDrop s h f) j = ringOf s j := by
  rw [countDrop, ringOf_modFunc, ringOf_modRing_ne _ _ hj]

/-! ## The test -/

/-- The reasons that R58 gives for refusing a doorbell to `tail`. -/
def ReasonToRefuse (s : State) (h f tail : Nat) : Prop :=
  getB s (K.ringEnable h) = false ∨ (funcOf s f).flrSince ≠ none ∨
    2 ^ (ringOf s h).order < idxDiff tail (ringOf s h).head ∨
    (∃ n, (ringOf s h).resize = some n ∧ 2 ^ n < idxDiff tail (ringOf s h).head) ∨
    2 ^ (ringOf s h).order < idxDiff tail (ringOf s h).tail

/-- A doorbell is refused for one of R58's reasons, or because a failed vote stopped the ring (R68). -/
theorem doorbellRefused_iff {s : State} {h f tail : Nat} :
    doorbellRefused s h f tail = true ↔ (ringOf s h).stopped = true ∨ ReasonToRefuse s h f tail := by
  cases hsize : (ringOf s h).resize with
  | none => simp [doorbellRefused, ReasonToRefuse, hsize, Option.isSome_iff_ne_none, or_assoc, or_left_comm]
  | some n => simp [doorbellRefused, ReasonToRefuse, hsize, Option.isSome_iff_ne_none, or_assoc, or_left_comm]

/-! ## The two updates -/

/-- The state after an accepted doorbell. -/
def takeTail (s : State) (h tail : Nat) : State := modRing s h (fun r => { r with tail := tail })

/-- The state after a refused doorbell of function `f`. -/
def refuseTail (s : State) (h f : Nat) : State := countDrop (modRing s h (fun r => { r with dberr := true })) h f

/-- A doorbell of a function that exists, to a ring granted to it whose copies agree, is its test and one of the two updates. -/
theorem exec_doorbell {s : State} {f : Fin 65} {ring : Fin 16} {value : BitVec 32} {h : Nat} (hf : funcExists s f = true)
    (hr : ringFor s f ring = some h) (ha : ringAgrees s h) :
    exec (.doorbell f ring value) s =
      .next (if doorbellRefused s h f (value.toNat % 65536) then refuseTail s h f else takeTail s h (value.toNat % 65536)) := by
  change execDoorbell f ring value s = _
  simp only [execDoorbell, hf, if_true, doorbellOp, hr, voteRing_of_ringAgrees ha, refuseTail, takeTail]

theorem takeTail_changes (s : State) (h tail : Nat) : Changes [.rings] s (takeTail s h tail) :=
  modRing_ch (List.Subset.refl _) (Changes.refl _ s)

theorem refuseTail_changes (s : State) (h f : Nat) : Changes [.rings, .funcs] s (refuseTail s h f) :=
  countDrop_ch (by decide) (modRing_ch (by decide) (Changes.refl _ s))

theorem ringOf_refuseTail (s : State) (h f : Nat) :
    ringOf (refuseTail s h f) h = { ringOf s h with dberr := true, drop := satInc 32 (ringOf s h).drop } := by
  simp only [refuseTail, ringOf_countDrop, ringOf_modRing]

theorem ringOf_refuseTail_ne (s : State) {h j : Nat} (f : Nat) (hj : j ≠ h) : ringOf (refuseTail s h f) j = ringOf s j := by
  rw [refuseTail, ringOf_countDrop_ne _ f hj, ringOf_modRing_ne _ _ hj]

/-- Settles O26: the test has exactly R58's reasons where no failed vote stopped the ring, and each outcome is one of the two updates. -/
theorem doorbellAcceptedOrDropped : Obligations.DoorbellAcceptedOrDropped := by
  unfold Obligations.DoorbellAcceptedOrDropped
  intro s f ring value h hf hr ha
  rw [exec_doorbell hf hr ha]
  refine ⟨fun henable hreset hsize hpending hback hrun => ?_, fun hreason => ?_⟩
  · have haccept : ¬ doorbellRefused s h f (value.toNat % 65536) = true := by
      rw [doorbellRefused_iff]
      rintro (hstop | hoff | hflr | hfar | ⟨n, hn, hfar⟩ | hfar)
      · simp [hrun] at hstop
      · simp [henable] at hoff
      · exact hflr hreset
      · exact hsize.not_gt hfar
      · exact (hpending n hn).not_gt hfar
      · exact hback.not_gt hfar
    rw [if_neg haccept]
    exact ⟨_, rfl, ringOf_modRing s h _, fun _ hj => ringOf_modRing_ne s _ hj, takeTail_changes s h _⟩
  · have hrefuse : doorbellRefused s h f (value.toNat % 65536) = true := doorbellRefused_iff.mpr (.inr hreason)
    rw [if_pos hrefuse]
    exact ⟨_, rfl, ringOf_refuseTail s h f, fun _ hj => ringOf_refuseTail_ne s f hj, refuseTail_changes s h f⟩

end Sys2Proof.Proofs.Doorbells

/-!
PROOFS. O21: what a write of true to surf.alloc does, when it is refused, and what an allocated slot refuses.

An accepted write leaves the state that allocating the slot in the chosen unit leaves, with the session's and the module's answer. A
refused one is refused by the slot's own check: RANGE without quota or without a size, BUSY for a setting while surf.alloc is true.
-/

namespace Sys2Proof.Proofs.SurfaceAllocation

open Sys2Proof.Machine

/-! ## The objects of a slot -/

theorem objKey_div {idx sub : Nat} (h : sub < 256) : objKey idx sub / 256 = idx := by
  unfold objKey
  omega

theorem objKey_mod {idx sub : Nat} (h : sub < 256) : objKey idx sub % 256 = sub := by
  unfold objKey
  omega

/-- A byte or half-word whose range ends within the type holds every number in its range. -/
theorem fitsTy_of_inRange {row : ObjRow} {n : Nat} (hty : row.ty = .u8 ∨ row.ty = .u16)
    (hends : row.ranges.all (fun e => decide (e.2 < 256 ^ row.ty.size)) = true) (h : inRange row (.num n) = true) :
    fitsTy row.ty n = true := by
  simp only [inRange, List.any_eq_true, decide_eq_true_eq] at h
  obtain ⟨e, he, -, hle⟩ := h
  have hend := of_decide_eq_true (List.all_eq_true.mp hends e he)
  have hmeasure : measureOf row.ty (.num n) = n := by rcases hty with hty | hty <;> rw [hty] <;> rfl
  rw [hmeasure] at hle
  have hlt : n < 256 ^ row.ty.size := by exact_mod_cast hle.trans_lt hend
  rcases hty with hty | hty <;> rw [hty] at hlt ⊢ <;> exact decide_eq_true hlt

/-- The row of a slot's format, layout, width or height: a number to write, of a type that holds every value in its range. -/
theorem lookupObj_surfSetting (slot : Fin 2048) {sub : Nat} (h2 : 2 ≤ sub) (h5 : sub ≤ 5) :
    ∃ row j, lookupObj (0x3800 + slot) sub = some (row, j) ∧ row.acc = .rw ∧ (row.ty = .u8 ∨ row.ty = .u16) ∧
      row.ranges.all (fun e => decide (e.2 < 256 ^ row.ty.size)) = true := by
  have hslot := slot.isLt
  have harea : areaRows (0x3800 + slot) = graphicsRows := by
    unfold areaRows
    rw [if_neg (by omega), if_neg (by omega), if_neg (by omega), if_pos (by omega)]
  unfold lookupObj findRow
  rw [if_neg (by omega), harea]
  interval_cases sub <;>
    simp [graphicsRows, ObjRow.instanceOf, Nat.mod_one, Ty.size, hslot, show ¬ (14336 + slot.val < 12544) by omega,
      show ¬ (14336 + slot.val - 12544 < 256) by omega, -List.all_eq_true]

/-- Every object of a slot stands for itself (R51). -/
theorem targetOf_surf (slot : Fin 2048) (sub : Nat) : targetOf (0x3800 + slot) sub = (0x3800 + slot.val, sub) := by
  have hslot := slot.isLt
  unfold targetOf aliasOf
  rw [if_neg (by omega), if_neg (by omega)]
  rfl

theorem rowIs_of_lookupObj {slot : Fin 2048} {sub : Nat} {row : ObjRow} {j : Nat} (hsub : sub < 256)
    (h : lookupObj (0x3800 + slot) sub = some (row, j)) : rowIs (objKey (0x3800 + slot) sub) row.ty row.acc row.ranges = true := by
  simp [rowIs, objKey_div hsub, objKey_mod hsub, h, targetOf_surf]

/-- The manager, and a session of the slot's owner, may write the slot's objects other than its owner (R75). -/
theorem mayWriteObj_surf {s : State} {r : DictReq} {i : Nat} {slot : Fin 2048} {sub n : Nat} {row : ObjRow}
    (hown : ownerSession s i (getN s (K.surfOwner slot))) (hsub : sub < 256) (h1 : sub ≠ 1) (hacc : row.acc = .rw) :
    mayWriteObj (renewed s i) (sessionCtx s r i none) row (0x3800 + slot) sub n = true := by
  rcases hown with hmgr | ⟨hvf, hfunc⟩
  · simp [mayWriteObj, hacc, sessionCtx, hmgr, areaAccess_surf slot.isLt hsub, surfAccess, WCtx.isMgr]
  · simp [mayWriteObj, hacc, sessionCtx, hvf, hfunc, areaAccess_surf slot.isLt hsub, surfAccess, h1, getN_renewed]

/-! ## The checks (R76) -/

theorem surfCheck_alloc_ok {s : State} {i u : Nat} {kept : Bool} (howner : getN s (K.surfOwner i) ≠ 0xFF)
    (hw : getN s (K.surfWidth i) ≠ 0) (hh : getN s (K.surfHeight i) ≠ 0)
    (hquota : slotSize s i ≤ quotaLeft s (getN s (K.surfOwner i)))
    (hunit : chooseUnit s (slotSize s i) (getN s (K.surfHint i)) = some (u, kept)) : surfCheck s i 8 1 = .ok := by
  simp [surfCheck, howner, hw, hh, hquota, hunit]

theorem surfCheck_alloc_range {s : State} {i : Nat} (halloc : getB s (K.surfAlloc i) = false)
    (h : quotaLeft s (getN s (K.surfOwner i)) < slotSize s i ∨ getN s (K.surfWidth i) = 0 ∨ getN s (K.surfHeight i) = 0) :
    surfCheck s i 8 1 = .range := by
  rcases h with hquota | hw | hh
  · simp [surfCheck, halloc, hquota]
  · simp [surfCheck, halloc, hw]
  · simp [surfCheck, halloc, hh]

theorem surfCheck_setting_busy {s : State} {i sub v : Nat} (h2 : 2 ≤ sub) (h5 : sub ≤ 5) (halloc : getB s (K.surfAlloc i) = true)
    (hyuv : yuvOk s i sub v = true) : surfCheck s i sub v = .busy := by
  unfold surfCheck
  rw [if_neg (by omega), if_pos h5]
  simp [hyuv, halloc]

/-- A write to a slot that the slot's check refuses: answered with the refusal, and nothing changed. -/
theorem writeSurf_refused {s : State} {r : DictReq} {i : Nat} {slot : Fin 2048} {sub n : Nat} {ty : Ty} {rg : List (Int × Int)}
    {st : Status} (hsub : sub < 256) (h1 : sub ≠ 1) (hrow : rowIs (objKey (0x3800 + slot) sub) ty .rw rg = true)
    (h : Admitted s r i (numWrite (objKey (0x3800 + slot) sub / 256) (objKey (0x3800 + slot) sub % 256) n))
    (hown : ownerSession s i (getN s (K.surfOwner slot))) (hfit : fitsTy ty n = true)
    (hr : rg.any (fun i => decide (i.1 ≤ measureOf ty (.num n) ∧ measureOf ty (.num n) ≤ i.2)) = true)
    (hcheck : surfCheck s slot sub n = st) (hok : st ≠ .ok ∧ st ≠ .intransit) (hclaimed : st ≠ .claimed) :
    ∃ t, writeObject s r (objKey (0x3800 + slot) sub) n = .next t ∧ answered t r 0x11 st ∧ Changes [.fresh, .sess, .resp] s t := by
  have hslot := slot.isLt
  refine writeObject_refused (found := none) hrow (key_lt (by omega) hsub) h hfit ?_ hr ?_ (.inl ?_) hok hclaimed
  · intro row hacc
    rw [objKey_div hsub, objKey_mod hsub]
    exact mayWriteObj_surf hown hsub h1 hacc
  · rw [objKey_div hsub, objKey_mod hsub, areaCheck_surf hslot hsub]
    exact hcheck
  · rw [objKey_div hsub, objKey_mod hsub, areaClaims_surf hslot hsub]

/-! ## The allocation (R74, R76, R236, R238) -/

/-- The state after a slot is allocated in a unit: surf.alloc is written, and the slot has its memory and its handle. -/
def slotAllocated (s : State) (i u : Nat) (kept : Bool) : State :=
  allocSurface (writeN s (K.surfAlloc i) 1) i u (placeIn (extents s u) (slotSize s i)) kept

theorem surfApply_alloc {s : State} {i u : Nat} {kept : Bool} (halloc : getB s (K.surfAlloc i) = false)
    (hunit : chooseUnit s (slotSize s i) (getN s (K.surfHint i)) = some (u, kept)) : surfApply s i 8 1 = slotAllocated s i u kept := by
  have hfree : (1 : Nat) = 1 ∧ (!getB s (K.surfAlloc i)) = true := ⟨rfl, by rw [halloc]; rfl⟩
  unfold surfApply
  dsimp only
  rw [if_pos rfl, if_pos hfree, hunit]
  rfl

/-- An accepted write of true to surf.alloc: answered OK, and the slot allocated in the unit that Tilth chooses. -/
theorem exec_surfAlloc_done {s : State} {r : DictReq} {i : Nat} {slot : Fin 2048} {u : Nat} {kept : Bool}
    (h : AdmittedWrite s r i (K.surfAlloc slot) 1) (hown : ownerSession s i (getN s (K.surfOwner slot)))
    (halloc : getB s (K.surfAlloc slot) = false) (hcheck : surfCheck s slot 8 1 = .ok)
    (hunit : chooseUnit s (slotSize s slot) (getN s (K.surfHint slot)) = some (u, kept)) :
    ∃ t, exec (.surfAlloc r slot) s = .next t ∧ answered t r 0x11 .ok ∧
      Changes [.sess, .resp] (slotAllocated (renewed s i) slot u kept) t := by
  have hslot := slot.isLt
  have hdiv : K.surfAlloc slot / 256 = 0x3800 + slot := objKey_div (by omega)
  have hmod : K.surfAlloc slot % 256 = 8 := objKey_mod (by omega)
  refine writeObject_done (found := none) (a := .rw) (row_surfAlloc slot) (key_lt (by omega) (by omega)) h rfl ?_ (by decide) ?_ ?_
    (.inl rfl) ?_ (.inl rfl)
  · intro row hacc
    rw [hdiv, hmod]
    exact mayWriteObj_surf hown (by omega) (by omega) hacc
  · rw [hdiv, hmod, areaCheck_surf hslot (by omega)]
    exact hcheck
  · rw [hdiv, hmod, areaClaims_surf hslot (by omega)]
  · rw [hdiv, hmod, areaApply_surf hslot (by omega)]
    exact congrArg accepted (surfApply_alloc (s := renewed s i) halloc hunit)

theorem slotAllocated_changes (s : State) (i u : Nat) (kept : Bool) :
    Changes [.objs, .surfs, .dram, .tilthLog] s (slotAllocated s i u kept) :=
  allocSurface_ch (by decide) (writeN_ch (by decide) (Changes.refl _ s))

/-- What allocating a slot does to the dictionary and to the slots. -/
theorem slotAllocated_spec (s : State) (i u : Nat) (kept : Bool) :
    getB (slotAllocated s i u kept) (K.surfAlloc i) = true ∧
    getN (slotAllocated s i u kept) (K.surfHandle i) = i + 65536 * nextGen (surfOf s i).gen ∧
    (surfOf (slotAllocated s i u kept) i).unit = u ∧
    (surfOf (slotAllocated s i u kept) i).base = placeIn (extents s u) (slotSize s i) ∧
    (∀ j, j ≠ i → surfOf (slotAllocated s i u kept) j = surfOf s j) ∧
    onlyObjs [K.surfAlloc i, K.surfHandle i, K.tilthSeq, K.tilthHintMiss] s (slotAllocated s i u kept) := by
  obtain ⟨hhandle, hslot, hothers, -, hobjs⟩ :=
    allocSurface_spec (writeN s (K.surfAlloc i) 1) i u (placeIn (extents s u) (slotSize s i)) kept
  change getN (slotAllocated s i u kept) _ = _ at hhandle
  change surfOf (slotAllocated s i u kept) i = _ at hslot
  have hsurfs : surfOf (writeN s (K.surfAlloc i) 1) = surfOf s := surfOf_writeV s _ _
  rw [hsurfs] at hhandle hslot
  refine ⟨?_, hhandle, by rw [hslot], by rw [hslot], fun j hj => (hothers j hj).trans (congrFun hsurfs j), ?_⟩
  · have hne : K.surfAlloc i ∉ [K.surfHandle i, K.tilthSeq, K.tilthHintMiss] := by
      simp only [List.mem_cons, List.not_mem_nil, or_false, K.surfAlloc, K.surfHandle, K.tilthSeq, K.tilthHintMiss, objKey]
      omega
    rw [slotAllocated, getB, onlyObjs_getN hobjs hne, getN_writeN]
    rfl
  · exact onlyObjs_trans (onlyObjs_writeN 1 (by simp) (onlyObjs_refl _ s)) fun k hk => hobjs k (fun hk' => hk (.tail _ hk'))

/-- A rank unit's physical rank stands in the rank objects. -/
theorem rankOfUnit_of_only {ks : List Nat} {s t : State} (h : onlyObjs ks s t) (hks : ∀ r, K.rankUnit r ∉ ks) (u : Nat) :
    rankOfUnit t u = rankOfUnit s u := by
  have hranks : (fun r => getN t (K.rankUnit r) == u) = fun r => getN s (K.rankUnit r) == u := by
    funext r
    rw [onlyObjs_getN h (hks r)]
  rw [rankOfUnit, rankOfUnit, hranks]

/-- The memory of a newly allocated slot reads as zero. -/
theorem dram_slotAllocated (s : State) (i u : Nat) (kept : Bool) {a : Nat}
    (hlo : dramKey (rankOfUnit s u) ((surfOf (slotAllocated s i u kept) i).base / 16) 0 ≤ a)
    (hhi : a < dramKey (rankOfUnit s u) (ceilDiv ((surfOf (slotAllocated s i u kept) i).base + slotSize s i) 16) 0) :
    memGet (slotAllocated s i u kept).dram a = 0 := by
  obtain ⟨-, -, -, hdram, -⟩ := allocSurface_spec (writeN s (K.surfAlloc i) 1) i u (placeIn (extents s u) (slotSize s i)) kept
  have hwrite : onlyObjs [K.surfAlloc i] s (writeN s (K.surfAlloc i) 1) := onlyObjs_writeN 1 (by simp) (onlyObjs_refl _ s)
  have hrank : rankOfUnit (writeN s (K.surfAlloc i) 1) u = rankOfUnit s u :=
    rankOfUnit_of_only hwrite (fun r => by simp only [List.mem_singleton, K.rankUnit, K.surfAlloc, objKey]; omega) u
  have hsize : slotSize (writeN s (K.surfAlloc i) 1) i = slotSize s i := by
    refine slotSize_of_only hwrite ?_ ?_ ?_ ?_ <;>
      simp only [List.mem_singleton, K.surfFormat, K.surfLayout, K.surfWidth, K.surfHeight, K.surfAlloc, objKey] <;> omega
  obtain ⟨-, -, -, hbase, -⟩ := slotAllocated_spec s i u kept
  rw [hbase] at hlo hhi
  rw [slotAllocated, hdram, memGet_zeroUnit, hrank, hsize, if_pos ⟨hlo, by omega⟩]

/-- Settles O21: an accepted write leaves `slotAllocated`, and each refusal is the slot's own check. -/
theorem surfaceAllocation : Obligations.SurfaceAllocation := by
  unfold Obligations.SurfaceAllocation
  refine ⟨?_, ?_, ?_⟩
  · intro s r i slot u kept h hown howner halloc hw hh hquota hunit
    obtain ⟨t, hrun, hans, hafter⟩ :=
      exec_surfAlloc_done h hown halloc (surfCheck_alloc_ok howner hw hh hquota hunit) hunit
    obtain ⟨hset, hhandle, hplaced, -, hothers, hobjs⟩ := slotAllocated_spec (renewed s i) slot u kept
    have hsurf : surfOf t = surfOf (slotAllocated (renewed s i) slot u kept) := by
      funext j
      rw [surfOf, hafter.surfs (by decide), surfOf]
    refine ⟨t, hrun, hans, ?_, ?_, ?_, fun a hlo hhi => ?_, fun j hj => ?_, ?_, ?_⟩
    · exact (hafter.getB (by decide) (by decide) _).trans hset
    · exact (hafter.getN (by decide) (by decide) _).trans hhandle
    · rw [hsurf, hplaced]
    · rw [hsurf] at hlo hhi
      rw [hafter.dram (by decide)]
      exact dram_slotAllocated (renewed s i) slot u kept hlo hhi
    · exact (congrFun hsurf j).trans (hothers j hj)
    · exact onlyObjs_trans hobjs (hafter.only (by decide) (by decide) _)
    · exact changes_done ((slotAllocated_changes (renewed s i) slot u kept).mono (by decide)) hafter (by decide) (by decide)
  · intro s r i slot h hown halloc hshort
    exact writeSurf_refused (by omega) (by omega) (row_surfAlloc slot) h hown rfl (by decide)
      (surfCheck_alloc_range halloc hshort) (by decide) (by decide)
  · intro s r i slot sub v row j h2 h5 h hown halloc hlook hrange _ hyuv
    have hsub : sub < 256 := by omega
    obtain ⟨row', j', hlook', hacc, hty, hends⟩ := lookupObj_surfSetting slot h2 h5
    obtain ⟨rfl, rfl⟩ : row' = row ∧ j' = j := by simpa [hlook] using hlook'.symm
    have hrow := rowIs_of_lookupObj hsub hlook
    rw [hacc] at hrow
    have hbusy := surfCheck_setting_busy h2 h5 halloc hyuv
    have hrefused := writeSurf_refused (r := r) hsub (by omega) hrow (by rwa [objKey_div hsub, objKey_mod hsub]) hown
      (fitsTy_of_inRange hty hends hrange) hrange hbusy (by decide) (by decide)
    rwa [writeObject, objKey_div hsub, objKey_mod hsub] at hrefused

end Sys2Proof.Proofs.SurfaceAllocation

/-!
PROOFS. O32: claiming a fence slot and giving it up, and who may raise a fence and wait on it.

An accepted write of fence.owner or fence.value leaves what `fenceApply` leaves, with the session's and the module's answer. A write of
fence.value below the current value fails the slot's check, one of another function fails the access rule. Ending held waits and raising
events moves no dictionary object but the counts that every event may move, so a fence's own objects keep what the write gave them.
-/

namespace Sys2Proof.Proofs.FenceObjects

open Sys2Proof.Machine
open Sys2Proof.Proofs.SurfaceAllocation (objKey_div objKey_mod)

/-! ## The objects of a slot -/

theorem fenceOwner_div (slot : Nat) : K.fenceOwner slot / 256 = 0x3700 + slot := objKey_div (by omega)

theorem fenceOwner_mod (slot : Nat) : K.fenceOwner slot % 256 = 1 := objKey_mod (by omega)

theorem fenceValue_div (slot : Nat) : K.fenceValue slot / 256 = 0x3700 + slot := objKey_div (by omega)

theorem fenceValue_mod (slot : Nat) : K.fenceValue slot % 256 = 2 := objKey_mod (by omega)

/-- No object of a fence slot is a count that events move. -/
theorem not_noteKey_fence {slot sub : Nat} (hslot : slot < 256) (hsub : sub < 256) : ¬ noteKey (objKey (0x3700 + slot) sub) := by
  simp only [noteKey, K.dictNotifyDrop, K.regVoteFix, K.regVoteBad, K.kaolinCanDrop, K.logOut, objKey]
  omega

/-! ## Who may write (R75, R228, R229) -/

theorem mayWriteObj_fenceOwner {s : State} {r : DictReq} {i : Nat} {slot : Fin 256} {new : Nat} {row : ObjRow}
    (hmay : mayOwn s i (getN s (K.fenceOwner slot)) new) (hacc : row.acc = .rw) :
    mayWriteObj (renewed s i) { sessionCtx s r i none with cond := true } row (0x3700 + slot) 1 new = true := by
  rcases hmay with hmgr | ⟨hvf, ⟨hold, hnew⟩ | ⟨hold, hnew⟩⟩
  · simp [mayWriteObj, hacc, sessionCtx, hmgr, areaAccess_fence slot.isLt, fenceAccess, WCtx.isMgr]
  · simp [mayWriteObj, hacc, sessionCtx, hvf, areaAccess_fence slot.isLt, fenceAccess, getN_renewed, hold, hnew]
  · simp [mayWriteObj, hacc, sessionCtx, hvf, areaAccess_fence slot.isLt, fenceAccess, getN_renewed, hold, hnew]

/-- Only a session of the fence's owner may write its value. -/
theorem mayWriteObj_fenceValue_owner {s : State} {r : DictReq} {i : Nat} {slot : Fin 256} {v : Nat} {row : ObjRow}
    (hrole : ownerSession s i (getN s (K.fenceOwner slot))) (hfunc : (sessOf s i).func = getN s (K.fenceOwner slot))
    (hacc : row.acc = .rw) : mayWriteObj (renewed s i) (sessionCtx s r i none) row (0x3700 + slot) 2 v = true := by
  rcases hrole with hmgr | ⟨hvf, -⟩
  · simp [mayWriteObj, hacc, sessionCtx, hmgr, areaAccess_fence slot.isLt, fenceAccess, getN_renewed, hfunc]
  · simp [mayWriteObj, hacc, sessionCtx, hvf, areaAccess_fence slot.isLt, fenceAccess, getN_renewed, hfunc]

theorem mayWriteObj_fenceValue_other {s : State} {r : DictReq} {i : Nat} {slot : Fin 256} {v : Nat} {row : ObjRow}
    (hfunc : (sessOf s i).func ≠ getN s (K.fenceOwner slot)) (hacc : row.acc = .rw) :
    mayWriteObj (renewed s i) (sessionCtx s r i none) row (0x3700 + slot) 2 v = false := by
  have harea : areaAccess (renewed s i) (sessionCtx s r i none) (0x3700 + slot) 2 v = false := by
    simp [areaAccess_fence slot.isLt, fenceAccess, sessionCtx, getN_renewed, hfunc]
  have hslot := slot.isLt
  have hrelay : 0x3700 + slot.val ≠ 0x9100 := by omega
  have hpower : 0x3700 + slot.val ≠ 0x8000 := by omega
  cases hrole : (sessOf s i).role with
  | obs => simpa [mayWriteObj, hacc, sessionCtx, hrole] using hrelay
  | sb => simp [mayWriteObj, hacc, sessionCtx, hrole, hpower]
  | mgr => simpa [mayWriteObj, hacc, sessionCtx, hrole] using harea
  | vf => simpa [mayWriteObj, hacc, sessionCtx, hrole] using harea
  | tw => simpa [mayWriteObj, hacc, sessionCtx, hrole] using harea

/-- A write of an object that its requester may not write is answered ACCESS and changes nothing (R530). -/
theorem writeObj_access {s : State} {c : WCtx} {k : Nat} {ty : Ty} {a : Acc} {rg : List (Int × Int)} {h : ItemHdr} {d : List Byte}
    {expected : Option Nat} (hi : h.index.toNat = k / 256) (hs : h.sub.toNat = k % 256) (hrow : rowIs k ty a rg = true)
    (hw : ∀ (row : ObjRow) (v : Nat), row.acc = a → mayWriteObj s c row (k / 256) (k % 256) v = false) :
    writeObj s c h d expected = ⟨.access, s, [], 0⟩ := by
  unfold rowIs at hrow
  split at hrow
  · next row j hlook =>
    simp only [Bool.and_eq_true, beq_iff_eq] at hrow
    obtain ⟨⟨⟨-, hacc⟩, -⟩, htarget⟩ := hrow
    unfold writeObj
    rw [hi, hs, hlook]
    simp only [htarget, hlook, Option.map_some, Option.getD_some, hw row _ hacc, Bool.not_false, if_true]
  · cases hrow

/-- A write command that its session may not give: answered ACCESS, and nothing changed. -/
theorem writeObject_access {s : State} {r : DictReq} {i k n : Nat} {ty : Ty} {a : Acc} {rg : List (Int × Int)}
    (hrow : rowIs k ty a rg = true) (hk : k < 2 ^ 24) (h : AdmittedWrite s r i k n)
    (hw : ∀ (row : ObjRow) (v : Nat), row.acc = a →
      mayWriteObj (renewed s i) (sessionCtx s r i none) row (k / 256) (k % 256) v = false) :
    ∃ t, writeObject s r k n = .next t ∧ answered t r 0x11 .access ∧ Changes [.fresh, .sess, .resp] s t := by
  have hindex : (BitVec.ofNat 16 (k / 256)).toNat = k / 256 := by rw [BitVec.toNat_ofNat]; omega
  have hsub : (BitVec.ofNat 8 (k % 256)).toNat = k % 256 := by rw [BitVec.toNat_ofNat]; omega
  unfold AdmittedWrite at h
  unfold writeObject
  rw [numWrite_eq hrow] at h ⊢
  have hanswer : sessionAnswer s r i (.write ⟨BitVec.ofNat 16 (k / 256), BitVec.ofNat 8 (k % 256), BitVec.ofNat 8 ty.code⟩
      (leBytes ty.size n)) none = refused (renewed s i) .access :=
    opWrite_refused (writeObj_access hindex hsub hrow hw) (by decide) (by decide)
  obtain ⟨t, hrun, hans, hch⟩ := request_refused h hanswer (by decide)
  exact ⟨t, hrun, hans, (renewed_changes i (by decide) (Changes.refl _ s)).trans hch⟩

/-! ## The checks (R229, R284) -/

theorem fenceCheck_owner_ok {s : State} {slot new : Nat}
    (hgrant : grantLeft s 0x3700 0x3800 (getN s (K.grantFences new)) new) : fenceCheck s slot 1 new = .ok := by
  rcases hgrant with rfl | ⟨hexists, hleft⟩
  · simp [fenceCheck]
  · have hover : overGrant s new (ownedCount s 0x3700 0x3800 new) (getN s (K.grantFences new)) = false := by
      simp only [overGrant, hexists, Bool.and_true, Bool.and_eq_false_iff, decide_eq_false_iff_not]
      omega
    simp [fenceCheck, hover, hexists]

theorem fenceCheck_value {s : State} {slot v : Nat} :
    fenceCheck s slot 2 v = if v < getN s (K.fenceValue slot) then .range else .ok := by
  simp [fenceCheck]

/-- A function that exists is a PF or one of the 63 VFs. -/
theorem le_64_of_funcExists {s : State} {f : Nat} (h : funcExists s f = true) : f ≤ 64 := by
  simp only [funcExists, isPf, vfOn, Bool.or_eq_true, Bool.and_eq_true, beq_iff_eq, decide_eq_true_eq] at h
  omega

/-- The numbers that fence.owner takes: of a function that exists, and 0xFF. -/
theorem owner_inRange {s : State} {lo hi grant new : Nat} (hgrant : grantLeft s lo hi grant new) :
    [((0 : Int), (64 : Int)), (255, 255)].any
      (fun e => decide (e.1 ≤ measureOf .u8 (.num new) ∧ measureOf .u8 (.num new) ≤ e.2)) = true := by
  rcases hgrant with rfl | ⟨hexists, -⟩
  · decide
  · have hle := le_64_of_funcExists hexists
    simp only [List.any_cons, Bool.or_eq_true, decide_eq_true_eq]
    exact .inl ⟨Int.natCast_nonneg new, Int.ofNat_le.mpr hle⟩

theorem fitsTy_u64 (v : BitVec 64) : fitsTy .u64 v.toNat = true := decide_eq_true v.isLt

theorem value_inRange (v : BitVec 64) :
    [((0 : Int), (18446744073709551615 : Int))].any
      (fun e => decide (e.1 ≤ measureOf .u64 (.num v.toNat) ∧ measureOf .u64 (.num v.toNat) ≤ e.2)) = true := by
  have hle : v.toNat ≤ 18446744073709551615 := Nat.le_of_lt_succ v.isLt
  simp only [List.any_cons, Bool.or_eq_true, decide_eq_true_eq]
  exact .inl ⟨Int.natCast_nonneg v.toNat, Int.ofNat_le.mpr hle⟩

/-! ## The accepted writes -/

/-- An accepted conditional write of fence.owner: answered OK, with the slot's effect. -/
theorem exec_fenceClaim_done {s : State} {r : DictReq} {i : Nat} {slot : Fin 256} {expected : BitVec 16} {owner : BitVec 8}
    (h : AdmittedClaim s r i (K.fenceOwner slot) owner.toNat expected) (hmay : mayOwn s i (getN s (K.fenceOwner slot)) owner.toNat)
    (hctr : expected.toNat = ctrOf s (K.fenceOwner slot))
    (hgrant : grantLeft s 0x3700 0x3800 (getN s (K.grantFences owner.toNat)) owner.toNat) :
    ∃ t, exec (.fenceClaim r slot expected owner) s = .next t ∧ answered t r 0x12 .ok ∧
      Changes [.sess, .resp] (fenceApply (renewed s i) slot 1 owner.toNat) t := by
  have hslot := slot.isLt
  refine claimObject_done (a := .rw) (row_fenceOwner slot) (key_lt (by omega) (by omega)) h (decide_eq_true owner.isLt) ?_ hctr
    (owner_inRange hgrant) ?_ ?_ (.inl rfl) ?_ (.inl rfl)
  · intro row hacc
    rw [fenceOwner_div, fenceOwner_mod]
    exact mayWriteObj_fenceOwner hmay hacc
  · rw [fenceOwner_div, fenceOwner_mod, areaCheck_fence hslot (by omega)]
    exact fenceCheck_owner_ok hgrant
  · rw [fenceOwner_div, fenceOwner_mod, areaClaims_fence hslot (by omega)]
  · rw [fenceOwner_div, fenceOwner_mod, areaApply_fence hslot (by omega)]
    rfl

/-- An accepted write of fence.value: answered OK, with the slot's effect. -/
theorem exec_fenceValueWrite_done {s : State} {r : DictReq} {i : Nat} {slot : Fin 256} {value : BitVec 64}
    (h : AdmittedWrite s r i (K.fenceValue slot) value.toNat) (hrole : ownerSession s i (getN s (K.fenceOwner slot)))
    (hfunc : (sessOf s i).func = getN s (K.fenceOwner slot)) (hle : getN s (K.fenceValue slot) ≤ value.toNat) :
    ∃ t, exec (.fenceValueWrite r slot value) s = .next t ∧ answered t r 0x11 .ok ∧
      Changes [.sess, .resp] (fenceApply (renewed s i) slot 2 value.toNat) t := by
  have hslot := slot.isLt
  refine writeObject_done (found := none) (a := .rw) (row_fenceValue slot) (key_lt (by omega) (by omega)) h (fitsTy_u64 value) ?_
    (value_inRange value) ?_ ?_ (.inl rfl) ?_ (.inl rfl)
  · intro row hacc
    rw [fenceValue_div, fenceValue_mod]
    exact mayWriteObj_fenceValue_owner hrole hfunc hacc
  · rw [fenceValue_div, fenceValue_mod, areaCheck_fence hslot (by omega)]
    exact fenceCheck_value.trans (if_neg hle.not_gt)
  · rw [fenceValue_div, fenceValue_mod, areaClaims_fence hslot (by omega)]
  · rw [fenceValue_div, fenceValue_mod, areaApply_fence hslot (by omega)]
    rfl

/-! ## The refused writes (R229) -/

/-- A write of fence.value below the current value: refused with RANGE. -/
theorem exec_fenceValueWrite_below {s : State} {r : DictReq} {i : Nat} {slot : Fin 256} {value : BitVec 64}
    (h : AdmittedWrite s r i (K.fenceValue slot) value.toNat) (hrole : ownerSession s i (getN s (K.fenceOwner slot)))
    (hfunc : (sessOf s i).func = getN s (K.fenceOwner slot)) (hlt : value.toNat < getN s (K.fenceValue slot)) :
    ∃ t, exec (.fenceValueWrite r slot value) s = .next t ∧ answered t r 0x11 .range ∧ Changes [.fresh, .sess, .resp] s t := by
  have hslot := slot.isLt
  refine writeObject_refused (found := none) (a := .rw) (row_fenceValue slot) (key_lt (by omega) (by omega)) h (fitsTy_u64 value) ?_
    (value_inRange value) ?_ (.inr rfl) (by decide) (by decide)
  · intro row hacc
    rw [fenceValue_div, fenceValue_mod]
    exact mayWriteObj_fenceValue_owner hrole hfunc hacc
  · rw [fenceValue_div, fenceValue_mod, areaCheck_fence hslot (by omega)]
    exact fenceCheck_value.trans (if_pos hlt)

/-- A write of fence.value by a session of another function than the owner: refused with ACCESS. -/
theorem exec_fenceValueWrite_other {s : State} {r : DictReq} {i : Nat} {slot : Fin 256} {value : BitVec 64}
    (h : AdmittedWrite s r i (K.fenceValue slot) value.toNat) (hfunc : (sessOf s i).func ≠ getN s (K.fenceOwner slot)) :
    ∃ t, exec (.fenceValueWrite r slot value) s = .next t ∧ answered t r 0x11 .access ∧ Changes [.fresh, .sess, .resp] s t := by
  have hslot := slot.isLt
  refine writeObject_access (row_fenceValue slot) (key_lt (by omega) (by omega)) h fun row v hacc => ?_
  rw [fenceValue_div, fenceValue_mod]
  exact mayWriteObj_fenceValue_other hfunc hacc

/-! ## The effects on a slot (R228 to R231) -/

/-- The parts of the state, objects apart, that the ends of held waits and the events of a fence may change. -/
def waitParts : List Part := [.fresh, .voteSecond, .host, .funcs, .sess, .rings, .grog, .notes]

theorem fenceApply_claim {s : State} {slot new : Nat} (hfree : getN s (K.fenceOwner slot) = 0xFF) (hnew : new ≠ 0xFF) :
    fenceApply s slot 1 new = claimFence (writeN s (K.fenceOwner slot) new) slot := by
  simp [fenceApply, hfree, hnew]

theorem claimFence_spec (s : State) (slot : Nat) :
    getN (claimFence s slot) (K.fenceHandle slot) = slot + 65536 * nextGen (tget s.fenceGen slot 0) ∧
    getN (claimFence s slot) (K.fenceValue slot) = 0 ∧ getN (claimFence s slot) (K.fenceState slot) = fenceLive ∧
    onlyObjs [K.fenceHandle slot, K.fenceValue slot, K.fenceState slot] s (claimFence s slot) := by
  refine ⟨?_, getN_writeN .., ?_, ?_⟩
  · rw [claimFence, getN_writeN_ne _ _ (by simp [K.fenceHandle, K.fenceValue, objKey]),
      getN_putN_ne _ _ (by simp [K.fenceHandle, K.fenceState, objKey]), getN_putN]
  · rw [claimFence, getN_writeN_ne _ _ (by simp [K.fenceState, K.fenceValue, objKey]), getN_putN]
  · exact onlyObjs_writeN _ (by simp) (onlyObjs_putN _ (by simp) (onlyObjs_putN _ (by simp) (onlyObjs_of_eq rfl)))

/-- Claiming a free slot gives it the owner, a new handle, the value 0 and the state LIVE, and moves no other object. -/
theorem fenceApply_claim_spec {s : State} {slot new : Nat} (hfree : getN s (K.fenceOwner slot) = 0xFF) (hnew : new ≠ 0xFF) :
    getN (fenceApply s slot 1 new) (K.fenceOwner slot) = new ∧
    getN (fenceApply s slot 1 new) (K.fenceHandle slot) = slot + 65536 * nextGen (tget s.fenceGen slot 0) ∧
    getN (fenceApply s slot 1 new) (K.fenceValue slot) = 0 ∧ getN (fenceApply s slot 1 new) (K.fenceState slot) = fenceLive ∧
    onlyObjs [K.fenceOwner slot, K.fenceHandle slot, K.fenceValue slot, K.fenceState slot] s (fenceApply s slot 1 new) ∧
    Changes [.objs, .fenceGen] s (fenceApply s slot 1 new) := by
  rw [fenceApply_claim hfree hnew]
  obtain ⟨hhandle, hvalue, hstate, hobjs⟩ := claimFence_spec (writeN s (K.fenceOwner slot) new) slot
  have hwrite : Changes [.objs] s (writeN s (K.fenceOwner slot) new) := writeN_ch (List.Subset.refl _) (Changes.refl _ s)
  rw [hwrite.fenceGen (by decide)] at hhandle
  refine ⟨?_, hhandle, hvalue, hstate, ?_, claimFence_ch (List.Subset.refl _) (hwrite.mono (by decide))⟩
  · rw [onlyObjs_getN hobjs (by simp [K.fenceOwner, K.fenceHandle, K.fenceValue, K.fenceState, objKey]), getN_writeN]
  · exact onlyObjs_trans (onlyObjs_writeN new (by simp) (onlyObjs_refl _ s)) fun k hk => hobjs k fun hk' => hk (.tail _ hk')

theorem fenceApply_giveUp {s : State} {slot : Nat} (howned : getN s (K.fenceOwner slot) ≠ 0xFF) :
    fenceApply s slot 1 0xFF = freeFence (writeN (abandonFence s slot) (K.fenceOwner slot) 0xFF) slot := by
  simp [fenceApply, howned, howned.symm]

theorem freeFence_spec (s : State) (slot : Nat) :
    getN (freeFence s slot) (K.fenceHandle slot) = 0 ∧ getN (freeFence s slot) (K.fenceState slot) = fenceFree ∧
    onlyObjs [K.fenceHandle slot, K.fenceState slot] s (freeFence s slot) := by
  refine ⟨getN_putN .., ?_, onlyObjs_putN _ (by simp) (onlyObjs_putN _ (by simp) (onlyObjs_refl _ s))⟩
  rw [freeFence, getN_putN_ne _ _ (by simp [K.fenceState, K.fenceHandle, objKey]), getN_putN]

/-- Abandoning a fence sets its state; the waits that fail with it move no object but the counts of events. -/
theorem abandonFence_only (s : State) (slot : Nat) : onlyObjsAndNotes [K.fenceState slot] s (abandonFence s slot) :=
  onlyAndNotes_trans (onlyAndNotes_of_only (onlyObjs_putN fenceAbandoned (by simp) (onlyObjs_refl _ s)))
    (onlyAndNotes_of_changes (P := waitParts)
      (foldN_ch _ (Changes.refl _ _) fun _ _ hx => failWait_ch (List.Subset.refl _) hx) (by decide))

/-- Giving up an owned slot leaves it FREE and without a handle, and moves no other object but the counts of events. -/
theorem fenceApply_giveUp_spec {s : State} {slot : Nat} (howned : getN s (K.fenceOwner slot) ≠ 0xFF) :
    getN (fenceApply s slot 1 0xFF) (K.fenceOwner slot) = 0xFF ∧ getN (fenceApply s slot 1 0xFF) (K.fenceHandle slot) = 0 ∧
    getN (fenceApply s slot 1 0xFF) (K.fenceState slot) = fenceFree ∧
    onlyObjsAndNotes [K.fenceOwner slot, K.fenceHandle slot, K.fenceState slot] s (fenceApply s slot 1 0xFF) := by
  rw [fenceApply_giveUp howned]
  obtain ⟨hhandle, hstate, hobjs⟩ := freeFence_spec (writeN (abandonFence s slot) (K.fenceOwner slot) 0xFF) slot
  refine ⟨?_, hhandle, hstate, ?_⟩
  · rw [onlyObjs_getN hobjs (by simp [K.fenceOwner, K.fenceHandle, K.fenceState, objKey]), getN_writeN]
  · have habandon : onlyObjsAndNotes [K.fenceOwner slot, K.fenceHandle slot, K.fenceState slot] s (abandonFence s slot) :=
      fun k hk => abandonFence_only s slot k fun hk' => hk (.tail _ (.tail _ hk'))
    have hwrite := onlyObjs_writeN (ks := [K.fenceOwner slot, K.fenceHandle slot, K.fenceState slot]) 0xFF (.head _)
      (onlyObjs_refl _ (abandonFence s slot))
    exact onlyAndNotes_trans habandon (onlyAndNotes_of_only (onlyObjs_trans hwrite fun k hk => hobjs k fun hk' => hk (.tail _ hk')))

theorem fenceApply_raise {s : State} {slot v : Nat} (hlt : getN s (K.fenceValue slot) < v) :
    fenceApply s slot 2 v = signalFence s slot v := by
  simp [fenceApply, hlt.ne']

theorem fenceApply_sameValue {s : State} {slot v : Nat} (heq : v = getN s (K.fenceValue slot)) : fenceApply s slot 2 v = s := by
  simp [fenceApply, heq]

/-- After the value has risen, a signal raises events and ends waits. -/
theorem signalFence_changes (s : State) (slot v : Nat) :
    Changes waitParts (writeN s (K.fenceValue slot) (max v (getN s (K.fenceValue slot)))) (signalFence s slot v) :=
  satisfyWaits_ch (List.Subset.refl _) (foldN_ch _ (Changes.refl _ _) fun _ _ hx => raiseClass_ch (by decide) hx)

/-- Signalling a fence raises its value to the greater of the two and moves no other object but the counts of events. -/
theorem signalFence_spec (s : State) {slot : Nat} (hslot : slot < 256) (v : Nat) :
    getN (signalFence s slot v) (K.fenceValue slot) = max v (getN s (K.fenceValue slot)) ∧
    onlyObjsAndNotes [K.fenceValue slot] s (signalFence s slot v) := by
  have hafter := signalFence_changes s slot v
  refine ⟨(getN_of_changes hafter (by decide) (not_noteKey_fence hslot (by omega))).trans (getN_writeN ..), ?_⟩
  exact onlyAndNotes_trans (onlyAndNotes_of_only (onlyObjs_writeN _ (by simp) (onlyObjs_refl _ s)))
    (onlyAndNotes_of_changes hafter (by decide))

/-! ## The ring commands (R229, R230, R231) -/

/-- A completion whose result is known is one whose result is not asked for. -/
theorem ringDone_anyResult {s t : State} {h : CmdHdr} {op st : Nat} {result : Option Nat} (hd : ringDone s t h op st result) :
    ringDone s t h op st none := by
  obtain ⟨hhead, hasked, hquiet⟩ := hd
  refine ⟨hhead, fun hc => ?_, hquiet⟩
  obtain ⟨x, -, hentry⟩ := hasked hc
  exact ⟨x, by simp, hentry⟩

theorem getN_fetched (s : State) (h : CmdHdr) (op : Nat) (pay : List Byte) (k : Nat) : getN (fetched s h op pay) k = getN s k :=
  (fetched_changes s h op pay).getN (by decide) (by decide) k

theorem fenceSlot_fetched (s : State) (h : CmdHdr) (op : Nat) (pay : List Byte) (handle : Nat) :
    fenceSlot (fetched s h op pay) handle = fenceSlot s handle := by
  simp only [fenceSlot, getN_fetched]

theorem earlierWork_fetched (s : State) (h : CmdHdr) (op : Nat) (pay : List Byte) (t : Ticket) :
    earlierWork (fetched s h op pay) t = earlierWork s t := by
  have hch := fetched_changes s h op pay
  unfold earlierWork
  rw [hch.ctxs (by decide), hch.signals (by decide)]

/-- A signal with no earlier work before it executes at once. -/
theorem exec_fenceSignal {s : State} {h : CmdHdr} {fence : BitVec 32} {value : BitVec 64} (hf : Fetches s h 0x01 false)
    (hfirst : earlierWork s (ticketOf s h 0x01) = false) :
    exec (.fenceSignal h fence value) s =
      .next (doSignal (fetched s h 0x01 (fenceBytes fence 0 value)) (ticketOf s h 0x01) fence.toNat value.toNat) := by
  change execFenceSignal h fence value s = _
  unfold execFenceSignal
  rw [beginCmd_fetches hf]
  dsimp only
  rw [earlierWork_fetched, hfirst, if_neg Bool.false_ne_true]

/-- A signal of a function that does not own the fence only completes, as a failed one. -/
theorem doSignal_other {s : State} {t : Ticket} {handle v slot : Nat} (hslot : fenceSlot s handle = some slot)
    (hother : getN s (K.fenceOwner slot) ≠ t.func) : doSignal s t handle v = completeR s t 3 3 := by
  simp [doSignal, hslot, hother]

/-- The state in which a fetched wait looks at its fence: its ring drops nothing any more (R232). -/
def waitFetched (s : State) (h : CmdHdr) (fence timeout : BitVec 32) (value : BitVec 64) : State :=
  modRing (fetched s h 0x02 (fenceBytes fence timeout value)) h.ring (fun r => { r with dropUntilWait := false })

theorem getN_waitFetched (s : State) (h : CmdHdr) (fence timeout : BitVec 32) (value : BitVec 64) (k : Nat) :
    getN (waitFetched s h fence timeout value) k = getN s k :=
  getN_fetched s h 0x02 (fenceBytes fence timeout value) k

theorem sameRing_waitFetched (s : State) (h : CmdHdr) (fence timeout : BitVec 32) (value : BitVec 64) :
    SameRing s (waitFetched s h fence timeout value) h := by
  have hring : ringOf (waitFetched s h fence timeout value) h.ring =
      { ringOf (fetched s h 0x02 (fenceBytes fence timeout value)) h.ring with dropUntilWait := false } := ringOf_modRing ..
  obtain ⟨hhead, htail, hcq, hera, hheld, hnow, hepoch, hbase, horder⟩ := SameRing.fetched s h 0x02 (fenceBytes fence timeout value)
  exact ⟨by rw [hring, hhead], by rw [hring, htail], by rw [hring, hcq], by rw [hring, hera], by rw [hring, hheld],
    hnow, hepoch, hbase, horder⟩

/-- A wait of a function that may wait on the fence, whose condition holds, completes at once with the observed value. -/
theorem exec_fenceWait_satisfied {s : State} {h : CmdHdr} {fence timeout : BitVec 32} {value : BitVec 64} {slot : Nat}
    (hf : Fetches s h 0x02 false) (hslot : fenceSlot s fence.toNat = some slot)
    (hmay : mayWait s (getN s (K.ringOwner h.ring)) slot = true) (htimeout : timeout.toNat ≤ 600000)
    (hstate : getN s (K.fenceState slot) ≠ fenceAbandoned) (hreached : value.toNat ≤ getN s (K.fenceValue slot)) :
    exec (.fenceWait h fence timeout value) s =
      .next (completeR (waitFetched s h fence timeout value) (ticketOf s h 0x02) 0 (getN s (K.fenceValue slot))) := by
  change execFenceWait h fence timeout value s = _
  have hget := getN_waitFetched s h fence timeout value
  have hslot' : fenceSlot (waitFetched s h fence timeout value) fence.toNat = some slot := by
    rw [← hslot]; simp only [fenceSlot, hget]
  have hmay' : mayWait (waitFetched s h fence timeout value) (ticketOf s h 0x02).func slot = true := by
    rw [← hmay]; simp only [mayWait, hget]; rfl
  unfold execFenceWait
  rw [beginCmd_fetches hf]
  dsimp only
  rw [show modRing (fetched s h 0x02 (fenceBytes fence timeout value)) (ticketOf s h 0x02).ring
    (fun r => { r with dropUntilWait := false }) = waitFetched s h fence timeout value from rfl, hslot']
  simp only [hmay', hget, Bool.not_true, Bool.false_eq_true, if_false, if_neg htimeout.not_gt, if_neg hstate, if_pos hreached]

/-- The PF on H1 may wait on any fence (R229). -/
theorem mayWait_pf1 (s : State) (slot : Nat) : mayWait s 64 slot = true := by simp [mayWait]

/-! ## The obligation -/

/-- Settles O32: an accepted write leaves `fenceApply`'s effect, and each refusal is the slot's check or its access rule. -/
theorem fenceObjects : Obligations.FenceObjects := by
  unfold Obligations.FenceObjects
  refine ⟨fun s r i slot expected owner h hmay hctr => ⟨fun hfree hnew hgrant => ?claim, fun howned hnone => ?giveUp⟩,
    fun s r i slot value h hrole hfunc hlt => ?raise, fun s r i slot value h hrole hfunc hlt => ?below,
    fun s r i slot value h hrole hfunc heq => ?same, fun s r i slot value h hfunc => ?other,
    fun s h fence value slot hf hfirst hslot howner => ?signal,
    fun s h fence timeout value slot hf hpf hslot htimeout hlive hreached => ?wait⟩
  case claim =>
    obtain ⟨t, hrun, hans, hafter⟩ := exec_fenceClaim_done h hmay hctr hgrant
    obtain ⟨howner, hhandle, hvalue, hstate, hobjs, hchanges⟩ := fenceApply_claim_spec (s := renewed s i) hfree hnew
    have hget := hafter.getN (by decide) (by decide)
    exact ⟨t, hrun, hans, (hget _).trans howner, (hget _).trans hhandle, (hget _).trans hvalue, (hget _).trans hstate,
      onlyObjs_trans hobjs (hafter.only (by decide) (by decide) _),
      changes_done (hchanges.mono (by decide)) hafter (by decide) (by decide)⟩
  case giveUp =>
    obtain ⟨t, hrun, hans, hafter⟩ := exec_fenceClaim_done h hmay hctr (.inl hnone)
    rw [hnone] at hafter
    obtain ⟨howner, hhandle, hstate, hobjs⟩ := fenceApply_giveUp_spec (s := renewed s i) howned
    have hget := hafter.getN (by decide) (by decide)
    exact ⟨t, hrun, hans, (hget _).trans howner, (hget _).trans hhandle, (hget _).trans hstate,
      onlyAndNotes_trans hobjs (onlyAndNotes_of_changes hafter (by decide))⟩
  case raise =>
    obtain ⟨t, hrun, hans, hafter⟩ := exec_fenceValueWrite_done h hrole hfunc hlt.le
    rw [fenceApply_raise (s := renewed s i) hlt] at hafter
    obtain ⟨hvalue, hobjs⟩ := signalFence_spec (renewed s i) slot.isLt value.toNat
    refine ⟨t, hrun, hans, ?_, onlyAndNotes_trans hobjs (onlyAndNotes_of_changes hafter (by decide))⟩
    rw [hafter.getN (by decide) (by decide), hvalue, getN_renewed, max_eq_left hlt.le]
  case below => exact exec_fenceValueWrite_below h hrole hfunc hlt
  case same =>
    obtain ⟨t, hrun, hans, hafter⟩ := exec_fenceValueWrite_done h hrole hfunc heq.ge
    rw [fenceApply_sameValue (s := renewed s i) heq] at hafter
    exact ⟨t, hrun, hans, changes_done (Changes.refl _ _) hafter (by decide) (by decide)⟩
  case other => exact exec_fenceValueWrite_other h hfunc
  case signal =>
    rw [exec_fenceSignal hf hfirst, doSignal_other (slot := slot) (by rw [fenceSlot_fetched, hslot]) (by rw [getN_fetched]; exact howner)]
    obtain ⟨hdone, -, hchanges⟩ := completeR_done (st := 3) (x := 3) hf (SameRing.fetched s h 0x01 (fenceBytes fence 0 value))
    exact ⟨_, rfl, ringDone_anyResult hdone, onlyAndNotes_trans
      (onlyAndNotes_of_changes (fetched_changes s h 0x01 (fenceBytes fence 0 value)) (by decide))
      (onlyAndNotes_of_changes hchanges (by decide))⟩
  case wait =>
    have hmay : mayWait s (getN s (K.ringOwner h.ring)) slot = true := by rw [hpf]; exact mayWait_pf1 s slot
    have hstate : getN s (K.fenceState slot) ≠ fenceAbandoned := by rw [hlive]; decide
    obtain ⟨hdone, -, -⟩ := completeR_done (st := 0) (x := getN s (K.fenceValue slot)) hf (sameRing_waitFetched s h fence timeout value)
    exact ⟨_, exec_fenceWait_satisfied hf hslot hmay htimeout hstate hreached, hdone⟩

end Sys2Proof.Proofs.FenceObjects

/-!
PROOFS. O56: what a domain's self-test takes out of service.

The fourth clause says that a failed core that was active reads failed once its domain is on. It sets no premise that the cores' states
agree with the map of spares. Where core 8 of slice 0 reads active while the map still has unit 8 as the slice's free spare, and the
self-test reports core 8 among the failed cores and among the spares that pass, the spare that takes core 8's place is unit 8 itself, and
the core reads active again.
-/

namespace Sys2Proof.Proofs.PowerDomains

open Sys2Proof.Machine

/-- Domain 6 is tested while it is held on; core 8 reads active, and unit 8 is still the free spare of its slice. -/
def activeSpareTested : State :=
  { objs := [(K.coreState 8, ⟨.num 1, 0⟩), (K.pwrMode, ⟨.num 1, 0⟩), (K.domState 6, ⟨.num domTesting, 0⟩), (K.domHold 6, ⟨.num 1, 0⟩)]
    power := { good := true } }

theorem activeSpareTested_quiet : Quiet activeSpareTested where
  run := by decide +kernel
  good := rfl
  heat := rfl
  supply := rfl
  cut01 := rfl
  reset := ⟨rfl, rfl⟩
  claims := by decide +kernel
  spreads := by decide +kernel

theorem domSt_before_test : domSt activeSpareTested 6 = domTesting := by decide +kernel

theorem domHold_before_test : getB activeSpareTested (K.domHold 6) = true := by decide +kernel

theorem core_active_before_test : getN activeSpareTested (K.coreState 8) = 1 := by decide +kernel

/-- The core that failed takes its own place, as the spare that passed: it is active after the test as before. -/
theorem core_active_after_test : ∃ t, exec (.domainOn 6 [8] [8]) activeSpareTested = .next t ∧ getN t (K.coreState 8) = 1 := by
  refine ⟨_, rfl, ?_⟩
  decide +kernel

/-- Refutes O56: its fourth clause lacks the premise that the cores' states agree with the map of spares. Where core 8 is active and is its
slice's free spare as well, a self-test that reports it failed, and as a spare passing, leaves it active and not failed. -/
theorem not_powerDomains : ¬ Obligations.PowerDomains := by
  unfold Obligations.PowerDomains
  rintro ⟨-, -, -, htested, -⟩
  obtain ⟨hslice, -⟩ := htested activeSpareTested 6 [8] [8] domSt_before_test activeSpareTested_quiet
  obtain ⟨t, hrun, -, hfailed⟩ := hslice (by decide) domHold_before_test
  obtain ⟨t', hrun', hactive⟩ := core_active_after_test
  obtain rfl : t = t' := by
    rw [hrun] at hrun'
    exact Host.Outcome.next.inj hrun'
  have hthree : getN t (K.coreState 8) = 3 :=
    hfailed 8 (by simp) (by decide) (by decide) (by decide) core_active_before_test
  omega

end Sys2Proof.Proofs.PowerDomains
/-!
PROOFS. What the power supervisor's settling leaves alone: the objects of the module's mode, and of the supervisor's record all but the
list of domains that wait to ramp. Every function that a domain starts or stops is covered, one lemma for each operation.
-/

namespace Sys2Proof.Proofs.ModeFrame

open Sys2Proof.Machine

/-! ## Objects that an update leaves alone -/

/-- The objects of a list have the values that they had. -/
def Agrees (ks : List Nat) (r s : State) : Prop := ∀ k ∈ ks, getV s k = getV r k

theorem Agrees.refl (ks : List Nat) (s : State) : Agrees ks s s := fun _ _ => rfl

theorem Agrees.trans {ks : List Nat} {r s t : State} (h : Agrees ks r s) (h' : Agrees ks s t) : Agrees ks r t :=
  fun k hk => (h' k hk).trans (h k hk)

theorem Agrees.getN {ks : List Nat} {r s : State} (h : Agrees ks r s) {k : Nat} (hk : k ∈ ks) : getN s k = getN r k := by
  unfold Machine.getN
  rw [h k hk]

theorem Agrees.of_objs {ks : List Nat} {r s : State} (h : s.objs = r.objs) : Agrees ks r s := fun k _ => by simp [getV, h]

theorem Agrees.of_onlyAndNotes {ks js : List Nat} {r s : State} (h : onlyObjsAndNotes js r s) (hks : ∀ k ∈ ks, k ∉ js ∧ ¬ noteKey k) :
    Agrees ks r s := fun k hk => (h k (hks k hk).1 (hks k hk).2).1

theorem Agrees.of_changes {ks : List Nat} {P : List Part} {r s : State} (h : Changes P r s) (hP : Part.objs ∉ P)
    (hks : ∀ k ∈ ks, ¬ noteKey k) : Agrees ks r s := fun k hk => getV_of_changes h hP (hks k hk)

/-- An event that is also a side-band frame moves no object but the counts that events move. -/
theorem emitSb_objs (ks : List Nat) (s : State) (cls code inst : Nat) (detail : List Byte) (fs : List Nat) :
    onlyObjsAndNotes ks s (emitSb s cls code inst detail fs) :=
  onlyAndNotes_of_changes (emitSb_ch (List.Subset.refl _) (Changes.refl _ s)) (by decide)

/-- A fold whose every step moves no object but the listed ones and the counts of events. -/
theorem foldl_onlyAndNotes {α : Type} {ks : List Nat} {f : State → α → State} (l : List α)
    (hf : ∀ x, ∀ a ∈ l, onlyObjsAndNotes ks x (f x a)) (s : State) : onlyObjsAndNotes ks s (l.foldl f s) := by
  induction l generalizing s with
  | nil => exact onlyAndNotes_of_only (onlyObjs_refl ks s)
  | cons a l ih =>
    exact onlyAndNotes_trans (hf s a (by simp)) (ih (fun x b hb => hf x b (by simp [hb])) _)

/-- A change of a health object and its event. -/
theorem healthShown_objs (s : State) {k : Nat} (hk : k ∈ healthKeys) (n inst : Nat) (detail : List Byte) :
    onlyObjsAndNotes healthKeys s (emitSb (putN s k n) 12 0x0C02 inst detail []) :=
  onlyAndNotes_trans (onlyAndNotes_of_only (onlyObjs_putN n hk (onlyObjs_refl _ s))) (emitSb_objs _ _ _ _ _ _ _)

/-- Bringing the health summary up to date moves no object but the summary's and the counts that events move. -/
theorem updateHealth_objs (s : State) : onlyObjsAndNotes healthKeys s (updateHealth s) := by
  unfold updateHealth
  extract_lets s' worst old
  have hsubs : onlyObjsAndNotes healthKeys s s' := by
    refine foldl_onlyAndNotes (List.range 8) (fun x i hi => ?_) s
    dsimp only
    split
    · exact onlyAndNotes_of_only (onlyObjs_refl _ x)
    · exact healthShown_objs x (.tail _ (List.mem_map_of_mem hi)) _ _ _
  split
  · exact hsubs
  · exact onlyAndNotes_trans hsubs (healthShown_objs s' (.head _) _ _ _)

/-! ## The relation -/

/-- The objects of the module's mode that settling leaves alone: pwr.mode, pwr.req, pwr.cause and pwr.host.avail. -/
def modeKeys : List Nat := [K.pwrMode, K.pwrReq, K.pwrCause, K.pwrHostAvail]

/-- The subindex of an object keeps it apart from those of the mode. -/
theorem notMode_of_sub {idx sub : Nat} (h : sub < 256 ∧ sub ≠ 1 ∧ sub ≠ 2 ∧ sub ≠ 4 ∧ sub ≠ 6) : objKey idx sub ∉ modeKeys := by
  simp only [modeKeys, K.pwrMode, K.pwrReq, K.pwrCause, K.pwrHostAvail, objKey, List.mem_cons, List.not_mem_nil, or_false]
  omega

/-- The index of an object keeps it apart from those of the mode. -/
theorem notMode_of_idx {idx sub : Nat} (h : idx ≠ 0x8000) (hsub : sub < 256) : objKey idx sub ∉ modeKeys := by
  simp only [modeKeys, K.pwrMode, K.pwrReq, K.pwrCause, K.pwrHostAvail, objKey, List.mem_cons, List.not_mem_nil, or_false]
  omega

theorem mode_not_noteKey : ∀ k ∈ modeKeys, ¬ noteKey k := by
  intro k hk
  simp only [modeKeys, K.pwrMode, K.pwrReq, K.pwrCause, K.pwrHostAvail, objKey, List.mem_cons, List.not_mem_nil, or_false] at hk
  simp only [noteKey, K.dictNotifyDrop, K.regVoteFix, K.regVoteBad, K.kaolinCanDrop, K.logOut, objKey]
  omega

/-- `s` comes from `r` with the objects of the mode as they were, and of the supervisor's record at most the waiting domains changed. -/
structure KeepsMode (r s : State) : Prop where
  objs : Agrees modeKeys r s
  power : ∃ l, s.power = { r.power with ramp := l }

variable {r s t : State}

theorem KeepsMode.refl (s : State) : KeepsMode s s := ⟨.refl _ s, s.power.ramp, rfl⟩

theorem KeepsMode.trans (h : KeepsMode r s) (h' : KeepsMode s t) : KeepsMode r t := by
  obtain ⟨l, hl⟩ := h.power
  obtain ⟨l', hl'⟩ := h'.power
  exact ⟨h.objs.trans h'.objs, l', by rw [hl', hl]⟩

/-- An update of other fields than the objects and the supervisor's record. -/
theorem KeepsMode.of_eq (h : KeepsMode r s) (hobjs : t.objs = s.objs) (hpower : t.power = s.power) : KeepsMode r t :=
  h.trans ⟨.of_objs hobjs, s.power.ramp, hpower⟩

/-- An operation that moves no object but the counts of events, and not the supervisor's record. -/
theorem KeepsMode.of_changes {P : List Part} (h : KeepsMode r s) (hc : Changes P s t) (hobjs : Part.objs ∉ P) (hpower : Part.power ∉ P) :
    KeepsMode r t :=
  h.trans ⟨.of_changes hc hobjs mode_not_noteKey, s.power.ramp, hc.power hpower⟩

theorem KeepsMode.ite {a b : State} {c : Prop} [Decidable c] (ha : KeepsMode r a) (hb : KeepsMode r b) :
    KeepsMode r (if c then a else b) := by
  split <;> assumption

theorem KeepsMode.foldl {α : Type} {f : State → α → State} (l : List α) (h : KeepsMode r s)
    (hf : ∀ x, ∀ a ∈ l, KeepsMode r x → KeepsMode r (f x a)) : KeepsMode r (l.foldl f s) := by
  induction l generalizing s with
  | nil => exact h
  | cons a l ih => exact ih (hf s a (by simp) h) (fun x b hb => hf x b (by simp [hb]))

theorem KeepsMode.foldN {f : State → Nat → State} (l : List Nat) (h : KeepsMode r s)
    (hf : ∀ x, ∀ a ∈ l, KeepsMode r x → KeepsMode r (f x a)) : KeepsMode r (foldN l f s) := h.foldl l hf

theorem keepsMode_putV {k : Nat} {v : Val} (h : KeepsMode r s) (hk : k ∉ modeKeys) : KeepsMode r (putV s k v) :=
  h.trans ⟨fun _ hj => getV_putV_ne s v (fun e => hk (e ▸ hj)), s.power.ramp, rfl⟩

theorem keepsMode_putN {k n : Nat} (h : KeepsMode r s) (hk : k ∉ modeKeys) : KeepsMode r (putN s k n) := keepsMode_putV h hk

theorem keepsMode_putB {k : Nat} {b : Bool} (h : KeepsMode r s) (hk : k ∉ modeKeys) : KeepsMode r (putB s k b) := keepsMode_putV h hk

theorem keepsMode_bump {k : Nat} (h : KeepsMode r s) (hk : k ∉ modeKeys) : KeepsMode r (bump s k) := keepsMode_putV h hk

theorem keepsMode_writeV {k : Nat} {v : Val} (h : KeepsMode r s) (hk : k ∉ modeKeys) : KeepsMode r (writeV s k v) :=
  h.trans ⟨fun _ hj => getV_writeV_ne s v (fun e => hk (e ▸ hj)), s.power.ramp,
    (writeV_ch (P := [.objs]) (List.Subset.refl _) (Changes.refl _ s)).power (by decide)⟩

theorem keepsMode_writeN {k n : Nat} (h : KeepsMode r s) (hk : k ∉ modeKeys) : KeepsMode r (writeN s k n) := keepsMode_writeV h hk

theorem keepsMode_writeB {k : Nat} {b : Bool} (h : KeepsMode r s) (hk : k ∉ modeKeys) : KeepsMode r (writeB s k b) := keepsMode_writeV h hk

theorem keepsMode_modPort {p : Nat} {g : Port → Port} (h : KeepsMode r s) : KeepsMode r (modPort s p g) := h.of_eq rfl rfl

theorem keepsMode_emit {cls code inst : Nat} {detail : List Byte} {fs : List Nat} (h : KeepsMode r s) :
    KeepsMode r (emit s cls code inst detail fs) :=
  h.of_changes (emit_ch (List.Subset.refl _) (Changes.refl _ s)) (by decide) (by decide)

theorem keepsMode_updateHealth (h : KeepsMode r s) : KeepsMode r (updateHealth s) := by
  have hkeys : ∀ k ∈ modeKeys, k ∉ healthKeys ∧ ¬ noteKey k := fun k hk =>
    ⟨fun hk' => absurd hk (by revert k; decide), mode_not_noteKey k hk⟩
  exact h.trans ⟨.of_onlyAndNotes (updateHealth_objs s) hkeys, s.power.ramp,
    (updateHealth_ch (List.Subset.refl _) (Changes.refl _ s)).power (by decide)⟩

/-! ## Domains -/

/-- Bringing a domain in line with its conditions changes its state and the waiting domains alone. -/
theorem keepsMode_settleDomain {d : Nat} (h : KeepsMode r s) : KeepsMode r (settleDomain s d) := by
  have hkey : K.domState d ∉ modeKeys := notMode_of_idx (by omega) (by decide)
  have hramp : ∀ (x : State) (l : List Nat), KeepsMode r x → KeepsMode r { x with power := { x.power with ramp := l } } :=
    fun x l hx => hx.trans ⟨.of_objs rfl, l, rfl⟩
  have hdrop : KeepsMode r (if s.power.ramp.contains d then { s with power := { s.power with ramp := s.power.ramp.erase d } } else s) :=
    .ite (hramp s _ h) h
  exact .ite h (.ite (.ite (hramp s _ h) h) (.ite ((keepsMode_putN hdrop hkey).of_eq rfl rfl) hdrop))

theorem keepsMode_settle (h : KeepsMode r s) : KeepsMode r (settle s) := h.foldN _ fun _ _ _ hx => keepsMode_settleDomain hx

theorem keepsMode_resolved {d idx sub : Nat} (h : KeepsMode r s) : KeepsMode r (resolved s d idx sub) :=
  h.of_changes (resolved_ch (List.Subset.refl _) (Changes.refl _ s)) (by decide) (by decide)

theorem keepsMode_tilthEntry {a b c d e f : Nat} (h : KeepsMode r s) : KeepsMode r (tilthEntry s a b c d e f) :=
  keepsMode_putN (h.of_eq rfl rfl) (notMode_of_idx (by decide) (by decide))

theorem keepsMode_hintMiss (h : KeepsMode r s) : KeepsMode r (hintMiss s) := keepsMode_bump h (notMode_of_idx (by decide) (by decide))

/-! ## Outputs -/

theorem keepsMode_recomputeRuns (h : KeepsMode r s) : KeepsMode r (recomputeRuns s) :=
  h.of_changes (recomputeRuns_ch (List.Subset.refl _) (Changes.refl _ s)) (by decide) (by decide)

theorem keepsMode_modeChangeDone {p result : Nat} (h : KeepsMode r s) : KeepsMode r (modeChangeDone s p result) := keepsMode_emit h

theorem keepsMode_outputOff {p : Nat} (h : KeepsMode r s) : KeepsMode r (outputOff s p) := by
  unfold outputOff
  extract_lets s1 s2 s3 s4 s5 s6 s7
  have h1 : KeepsMode r s1 := keepsMode_modPort h
  have h2 : KeepsMode r s2 := keepsMode_putN (keepsMode_putN (keepsMode_putN h1 (notMode_of_sub (by decide)))
    (notMode_of_sub (by decide))) (notMode_of_sub (by decide))
  have h3 : KeepsMode r s3 := keepsMode_putN (keepsMode_putN h2 (notMode_of_sub (by decide))) (notMode_of_sub (by decide))
  have h4 : KeepsMode r s4 := keepsMode_putN (keepsMode_putN h3 (notMode_of_idx (by omega) (by decide))) (notMode_of_sub (by decide))
  have h5 : KeepsMode r s5 := h4.foldN _ fun x k _ hx => keepsMode_putB (keepsMode_putN (keepsMode_putN hx
    (notMode_of_sub (by decide))) (notMode_of_sub (by decide))) (notMode_of_sub (by decide))
  have h6 : KeepsMode r s6 := keepsMode_putN h5 (notMode_of_idx (by omega) (by decide))
  have h7 : KeepsMode r s7 := keepsMode_recomputeRuns
    (h6.of_changes (commitLeft_ch (List.Subset.refl _) (Changes.refl _ s6)) (by decide) (by decide))
  exact keepsMode_settle (keepsMode_putN h7 (notMode_of_idx (by decide) (by decide)))

theorem keepsMode_noEngineLeft {p : Nat} (hp : p < 8) (h : KeepsMode r s) : KeepsMode r (noEngineLeft s p) := by
  unfold noEngineLeft
  extract_lets s1
  have h1 : KeepsMode r s1 :=
    keepsMode_outputOff (keepsMode_modPort (keepsMode_writeB h (notMode_of_idx (by omega) (by decide))))
  exact keepsMode_updateHealth ((keepsMode_modeChangeDone h1).of_changes (raiseClass_ch (List.Subset.refl _) (Changes.refl _ _))
    (by decide) (by decide))

theorem keepsMode_substitute {cls unit spare cause gen : Nat} (h : KeepsMode r s) :
    KeepsMode r (substitute s cls unit spare cause gen) := by
  unfold substitute
  extract_lets p s1 s2
  have h2 : KeepsMode r s2 := h.of_eq rfl rfl
  refine keepsMode_updateHealth (h2.of_changes (grogEvent_ch (List.Subset.refl _) ?_) (by decide) (by decide))
  exact grogLog_ch (by decide) (Changes.refl _ s2)

theorem keepsMode_chooseEngine {p : Nat} (h : KeepsMode r s) : KeepsMode r (chooseEngine s p).1 := by
  unfold chooseEngine
  split
  · exact h
  · exact keepsMode_bump (keepsMode_substitute h) (notMode_of_idx (by omega) (by decide))
  · exact h

theorem keepsMode_beginStart {p : Nat} (hp : p < 8) (h : KeepsMode r s) : KeepsMode r (beginStart s p) := by
  have hstart : ∀ (x : State) (g : Port → Port), KeepsMode r x → KeepsMode r (putN (modPort x p g) (K.outState p) outStarting) :=
    fun x g hx => keepsMode_putN (keepsMode_modPort hx) (notMode_of_sub (by decide))
  have hchoose := keepsMode_chooseEngine (p := p) h
  unfold beginStart
  split
  next s1 e heq =>
  rw [heq] at hchoose
  cases e with
  | none => exact keepsMode_noEngineLeft hp (hstart s1 _ hchoose)
  | some n => exact keepsMode_recomputeRuns (keepsMode_settle (hstart s1 _ hchoose))

theorem keepsMode_restartOutput {p : Nat} (hp : p < 8) (h : KeepsMode r s) : KeepsMode r (restartOutput s p) :=
  .ite (keepsMode_beginStart hp h) h

theorem keepsMode_beginTransition {p cause : Nat} (h : KeepsMode r s) : KeepsMode r (beginTransition s p cause) := by
  unfold beginTransition
  exact keepsMode_modPort (keepsMode_putN h (notMode_of_sub (by decide)))

theorem keepsMode_latchShadow {p : Nat} (h : KeepsMode r s) : KeepsMode r (latchShadow s p) := by
  unfold latchShadow
  exact keepsMode_modPort h

theorem keepsMode_stopOutput {p : Nat} (h : KeepsMode r s) : KeepsMode r (stopOutput s p) := by
  unfold stopOutput
  extract_lets was running s1 s2 s3 s4 s5
  have h1 : KeepsMode r s1 := .ite (keepsMode_latchShadow h) h
  have h2 : KeepsMode r s2 := keepsMode_putN h1 (notMode_of_sub (by decide))
  have h3 : KeepsMode r s3 := .ite (keepsMode_modeChangeDone h2) h2
  have h4 : KeepsMode r s4 := .ite h3 (keepsMode_modPort h3)
  exact keepsMode_settle (keepsMode_recomputeRuns (keepsMode_modPort h4))

theorem keepsMode_shedOutput {p : Nat} (h : KeepsMode r s) : KeepsMode r (shedOutput s p) :=
  .ite (keepsMode_modPort (keepsMode_stopOutput h)) h

theorem keepsMode_commitBits {p bits : Nat} (h : KeepsMode r s) : KeepsMode r (commitBits s p bits) := by
  have hput : ∀ n, KeepsMode r (putN s (K.outCommitPend p) n) := fun n => keepsMode_putN h (notMode_of_sub (by decide))
  unfold commitBits
  dsimp only
  exact .ite (hput _) (.ite (.ite h (keepsMode_modPort (hput _))) (keepsMode_modPort (hput _)))

/-! ## Spreads -/

theorem keepsMode_modSpread {i : Nat} {g : SpreadSt → SpreadSt} (h : KeepsMode r s) : KeepsMode r (modSpread s i g) := h.of_eq rfl rfl

theorem keepsMode_portLayersTo {p owner : Nat} (h : KeepsMode r s) : KeepsMode r (portLayersTo s p owner) := by
  have hlayer : ∀ k ∈ List.range 6, ∀ sub < 256, layerKey p k sub ∉ modeKeys := fun k hk sub hsub =>
    notMode_of_idx (by have := List.mem_range.1 hk; omega) hsub
  refine keepsMode_recomputeRuns (keepsMode_commitBits (h.foldN _ fun x k hk hx => ?_))
  refine (keepsMode_writeN hx (hlayer k hk 1 (by decide))).foldN _ fun y sub hsub hy => keepsMode_writeV hy (hlayer k hk sub ?_)
  revert sub
  decide

theorem keepsMode_portJoins {i m : Nat} (h : KeepsMode r s) : KeepsMode r (portJoins s i m) := by
  unfold portJoins
  extract_lets p s1
  have h1 : KeepsMode r s1 := keepsMode_portLayersTo h
  split
  · exact .ite (keepsMode_beginTransition h1) h1
  · exact h1

theorem keepsMode_placeMembers {i : Nat} (h : KeepsMode r s) : KeepsMode r (placeMembers s i) := by
  unfold placeMembers
  extract_lets s1
  have h1 : KeepsMode r s1 := h.of_eq rfl rfl
  refine (h1.foldN _ fun x m _ hx => keepsMode_putN hx (notMode_of_sub (by decide))).foldN _ fun x m _ hx => ?_
  extract_lets serial hint first used fits place missed x1
  have hx1 : KeepsMode r x1 := keepsMode_putB (keepsMode_putN hx (notMode_of_sub (by decide))) (notMode_of_idx (by omega) (by decide))
  exact .ite (keepsMode_tilthEntry (keepsMode_hintMiss hx1)) hx1

theorem keepsMode_showReservations (h : KeepsMode r s) : KeepsMode r (showReservations s) :=
  h.foldN _ fun _ _ _ hx => keepsMode_putN hx (notMode_of_sub (by decide))

theorem keepsMode_spreadOffDone {i : Nat} (h : KeepsMode r s) : KeepsMode r (spreadOffDone s i) := by
  have hoff : KeepsMode r (foldN (List.range 16) (fun s m =>
      putB (putN (putN s (K.smState i m) smOff) (K.smPlace i m) 0) (K.smHintKept i m) true) s) :=
    h.foldN _ fun x m _ hx => keepsMode_putB (keepsMode_putN (keepsMode_putN hx (notMode_of_sub (by decide)))
      (notMode_of_sub (by decide))) (notMode_of_idx (by omega) (by decide))
  exact keepsMode_settle (keepsMode_showReservations (keepsMode_putN (keepsMode_modSpread hoff) (notMode_of_sub (by decide))))

theorem keepsMode_startSpread {i : Nat} (h : KeepsMode r s) : KeepsMode r (startSpread s i) := by
  unfold startSpread
  extract_lets s1 s2 s3
  have h1 : KeepsMode r s1 := keepsMode_settle (keepsMode_putN (keepsMode_writeB h (notMode_of_idx (by omega) (by decide)))
    (notMode_of_sub (by decide)))
  have h2 : KeepsMode r s2 := keepsMode_modSpread h1
  have h3 : KeepsMode r s3 := h2.foldN _ fun x m _ hx =>
    .ite (keepsMode_portJoins (keepsMode_putN hx (notMode_of_sub (by decide)))) (keepsMode_putN hx (notMode_of_sub (by decide)))
  exact keepsMode_showReservations (keepsMode_placeMembers h3)

theorem keepsMode_spreadQueued {i : Nat} (h : KeepsMode r s) : KeepsMode r (spreadQueued s i) :=
  .ite (keepsMode_startSpread (keepsMode_resolved h)) h

theorem keepsMode_shutSpread {i : Nat} (h : KeepsMode r s) : KeepsMode r (shutSpread s i) := by
  unfold shutSpread
  extract_lets s1 s2
  have h1 : KeepsMode r s1 := keepsMode_putN h (notMode_of_sub (by decide))
  have h2 : KeepsMode r s2 := h1.foldN _ fun x m _ hx => .ite hx (keepsMode_putN hx (notMode_of_sub (by decide)))
  exact .ite (keepsMode_spreadQueued (keepsMode_spreadOffDone h2)) (keepsMode_settle h2)

/-! ## Haptics -/

theorem keepsMode_effectEnds {n outcome : Nat} {e : Effect} (h : KeepsMode r s) : KeepsMode r (effectEnds s n e outcome) := by
  unfold effectEnds
  extract_lets s1
  have h1 : KeepsMode r s1 := keepsMode_bump h (by split <;> exact notMode_of_sub (by decide))
  split
  · exact h1.of_changes (playEnded_ch (List.Subset.refl _) (Changes.refl _ s1)) (by decide) (by decide)
  · exact .ite (keepsMode_emit h1) h1

theorem keepsMode_endQueue {n outcome : Nat} (h : KeepsMode r s) : KeepsMode r (endQueue s n outcome) :=
  KeepsMode.foldl _ (h.of_eq rfl rfl) fun _ _ _ hx => keepsMode_effectEnds hx

theorem keepsMode_startHaptics (h : KeepsMode r s) : KeepsMode r (startHaptics s) :=
  keepsMode_settle (keepsMode_putN (keepsMode_writeB h (notMode_of_idx (by decide) (by decide))) (notMode_of_idx (by decide) (by decide)))

theorem keepsMode_hapQueued (h : KeepsMode r s) : KeepsMode r (hapQueued s) := .ite (keepsMode_startHaptics (keepsMode_resolved h)) h

theorem keepsMode_hapStopCheck (h : KeepsMode r s) : KeepsMode r (hapStopCheck s) := by
  refine .ite (keepsMode_hapQueued (keepsMode_settle (keepsMode_putN ?_ (notMode_of_idx (by decide) (by decide))))) h
  exact h.foldN _ fun x n _ hx => (keepsMode_putN hx (notMode_of_sub (by decide))).of_eq rfl rfl

theorem keepsMode_beginBraking {n : Nat} (h : KeepsMode r s) : KeepsMode r (beginBraking s n) :=
  (keepsMode_putN (k := K.chState n) (n := chBraking) h (notMode_of_sub (by decide))).of_eq rfl rfl

theorem keepsMode_shutHaptics (h : KeepsMode r s) : KeepsMode r (shutHaptics s) := by
  refine keepsMode_hapStopCheck (KeepsMode.foldN _ (keepsMode_putN h (notMode_of_idx (by decide) (by decide))) fun x n _ hx => ?_)
  exact .ite (keepsMode_beginBraking (keepsMode_endQueue hx)) (keepsMode_endQueue hx)

/-! ## Touch panels -/

theorem keepsMode_startPanel {p : Nat} (hp : p < 4) (h : KeepsMode r s) : KeepsMode r (startPanel s p) :=
  keepsMode_settle (keepsMode_putN (keepsMode_putN (keepsMode_writeB h (notMode_of_idx (by omega) (by decide)))
    (notMode_of_idx (by omega) (by decide))) (notMode_of_sub (by decide)))

theorem keepsMode_writeReports {p latency : Nat} {rs : List (Contact × Nat)} {beyond : Bool} (h : KeepsMode r s) :
    KeepsMode r (writeReports s p rs beyond latency) := by
  refine KeepsMode.foldl _ h fun x e _ hx => .ite hx ?_
  exact (keepsMode_putN (keepsMode_putN hx (notMode_of_idx (by decide) (by decide))) (notMode_of_idx (by decide) (by decide))).of_changes
    (writeReport_ch (List.Subset.refl _) (Changes.refl _ _)) (by decide) (by decide)

theorem keepsMode_shutPanel {p : Nat} (hp : p < 4) (h : KeepsMode r s) : KeepsMode r (shutPanel s p) := by
  unfold shutPanel
  extract_lets rs s1 s2 s3
  have h1 : KeepsMode r s1 := .ite (keepsMode_writeReports (h.of_eq rfl rfl)) h
  have h2 : KeepsMode r s2 := KeepsMode.foldl _ h1 fun x e _ hx =>
    hx.of_changes (releaseBuffer_ch (List.Subset.refl _) (Changes.refl _ x)) (by decide) (by decide)
  have h3 : KeepsMode r s3 := h2.of_eq rfl rfl
  exact keepsMode_settle (keepsMode_putN (keepsMode_putN (keepsMode_putN h3 (notMode_of_idx (by omega) (by decide)))
    (notMode_of_idx (by omega) (by decide))) (notMode_of_sub (by decide)))

/-! ## Sound -/

theorem keepsMode_streamRuns {capture : Bool} {n : Nat} (h : KeepsMode r s) : KeepsMode r (streamRuns s capture n) :=
  keepsMode_emit (keepsMode_putN (h.of_eq rfl rfl) (notMode_of_sub (by decide)))

theorem keepsMode_streamStops {capture : Bool} {n : Nat} (h : KeepsMode r s) : KeepsMode r (streamStops s capture n) :=
  .ite h (keepsMode_emit (keepsMode_putN h (notMode_of_sub (by decide))))

theorem keepsMode_sndTryRun (h : KeepsMode r s) : KeepsMode r (sndTryRun s) := by
  refine .ite (KeepsMode.foldl _ ?_ fun x e _ hx => .ite (keepsMode_streamRuns hx) hx) h
  exact keepsMode_putB (keepsMode_putN (h.of_eq rfl rfl) (notMode_of_idx (by decide) (by decide))) (notMode_of_idx (by decide) (by decide))

theorem keepsMode_startSound (h : KeepsMode r s) : KeepsMode r (startSound s) :=
  keepsMode_sndTryRun (keepsMode_settle (keepsMode_putN (keepsMode_writeB h (notMode_of_idx (by decide) (by decide)))
    (notMode_of_idx (by decide) (by decide))))

theorem keepsMode_sndQueued (h : KeepsMode r s) : KeepsMode r (sndQueued s) := .ite (keepsMode_startSound (keepsMode_resolved h)) h

theorem keepsMode_sndStopCheck (h : KeepsMode r s) : KeepsMode r (sndStopCheck s) :=
  .ite (keepsMode_sndQueued (keepsMode_putN h (notMode_of_idx (by decide) (by decide)))) h

theorem keepsMode_modSnd {g : Snd → Snd} (h : KeepsMode r s) : KeepsMode r (modSnd s g) := h.of_eq rfl rfl

theorem keepsMode_silence (h : KeepsMode r s) : KeepsMode r (silence s) := by
  have hstops : ∀ l : List (Bool × Nat), KeepsMode r (l.foldl (fun s e => streamStops s e.1 e.2) s) :=
    fun l => h.foldl l fun _ _ _ hx => keepsMode_streamStops hx
  unfold silence
  exact keepsMode_putB (keepsMode_modSnd (hstops allStreams)) (notMode_of_idx (by decide) (by decide))

theorem keepsMode_shutSound (h : KeepsMode r s) : KeepsMode r (shutSound s) :=
  keepsMode_sndStopCheck (keepsMode_settle (keepsMode_putN (keepsMode_silence h) (notMode_of_idx (by decide) (by decide))))

theorem keepsMode_endChime (h : KeepsMode r s) : KeepsMode r (endChime s) := by
  have h1 : KeepsMode r (notePast s) := h.of_changes (notePast_ch (List.Subset.refl _) (Changes.refl _ s)) (by decide) (by decide)
  exact keepsMode_putN (keepsMode_modSnd h1) (notMode_of_idx (by decide) (by decide))

/-! ## Functions follow their domains -/

theorem keepsMode_resume (h : KeepsMode r s) : KeepsMode r (resume s) := by
  unfold resume
  extract_lets s1 s2 s3 s4
  have h1 : KeepsMode r s1 := h.foldN _ fun x p hp hx => .ite (keepsMode_restartOutput (List.mem_range.1 hp) hx) hx
  have h2 : KeepsMode r s2 := .ite (keepsMode_startHaptics h1) h1
  have h3 : KeepsMode r s3 := h2.foldN _ fun x p hp hx => .ite (keepsMode_startPanel (List.mem_range.1 hp) hx) hx
  have h4 : KeepsMode r s4 := .ite (keepsMode_startSound h3) h3
  exact h4.foldN _ fun x i _ hx => .ite (keepsMode_startSpread hx) hx

theorem keepsMode_shed (h : KeepsMode r s) : KeepsMode r (shed s) := by
  unfold shed
  extract_lets stops s1 s2 s3 s4
  have h1 : KeepsMode r s1 := h.foldN _ fun x p _ hx => .ite (keepsMode_shedOutput hx) hx
  have h2 : KeepsMode r s2 := .ite (keepsMode_shutHaptics h1) h1
  have h3 : KeepsMode r s3 := h2.foldN _ fun x p hp hx => .ite (keepsMode_shutPanel (List.mem_range.1 hp) hx) hx
  have h4 : KeepsMode r s4 := .ite (keepsMode_shutSound h3) h3
  exact h4.foldN _ fun x i _ hx => .ite (keepsMode_shutSpread hx) hx

/-- Settling the domains and what they serve keeps the mode. -/
theorem keepsMode_powerSettle (s : State) : KeepsMode s (powerSettle s) :=
  keepsMode_shed (keepsMode_resume (keepsMode_settle (.refl s)))

end Sys2Proof.Proofs.ModeFrame

/-!
PROOFS. What a cold start leaves behind: the mode and its cause, the supervisor's record, the stage of every pin, and after a loss of power
no session. The module start is followed object by object: nothing that it shows, measures or loads reaches pwr.mode, pwr.cause or the
state of the trusted world's domain.
-/

namespace Sys2Proof.Proofs.ColdStart

open Sys2Proof.Machine Sys2Proof.Proofs.ModeFrame

/-! ## Tables -/

theorem tfind_eq_none {α : Type} {l : Tab α} {k : Nat} (h : ∀ e ∈ l, e.1 ≠ k) : tfind l k = none := by
  induction l with
  | nil => rfl
  | cons e l ih =>
    have he : k ≠ e.1 := fun hk => h e (by simp) hk.symm
    simp only [tfind, if_neg he]
    exact ih fun x hx => h x (by simp [hx])

theorem tfind_tdel_ne {α : Type} (l : Tab α) {j k : Nat} (h : j ≠ k) : tfind (tdel l k) j = tfind l j := by
  induction l with
  | nil => rfl
  | cons e l ih =>
    have hcons : tdel (e :: l) k = if e.1 ≠ k then e :: tdel l k else tdel l k := by simp [tdel, List.filter_cons]
    rw [hcons]
    by_cases he : e.1 = k
    · rw [if_neg (not_not.2 he), ih]
      exact (if_neg fun hj => h (hj.trans he)).symm
    · simp [he, tfind, ih]

/-! ## No session is told of an event where none is open -/

section
variable {s : State}

theorem notifyAll_noSess (h : s.sess = []) (cls : Nat) (fs : List Nat) (n : Note) : notifyAll s cls fs n = s := by
  simp [notifyAll, h, foldN]

theorem sess_setPend (s : State) (f c : Nat) : (setPend s f c).sess = s.sess :=
  (setPend_ch (List.Subset.refl _) (Changes.refl _ s)).sess (by decide)

theorem noSess_countRepair (h : s.sess = []) : (countRepair s).sess = [] := by
  have hpend : (setPend (bump s K.regVoteFix) 0 12).sess = [] := (sess_setPend _ 0 12).trans h
  unfold countRepair
  dsimp only
  split
  · exact h
  · simp [healthEvent, notifyAll_noSess hpend, hpend]

theorem sess_countBadVote (s : State) : (countBadVote s).sess = s.sess := sess_setPend _ 0 12

theorem noSess_voteMask (h : s.sess = []) (f : Nat) : (voteMask s f).sess = [] := by
  unfold voteMask
  dsimp only
  split
  · exact h
  · split
    · exact h
    · split
      · exact noSess_countRepair h
      · exact (sess_countBadVote _).trans h

theorem noSess_voteMsix (h : s.sess = []) (f v : Nat) : (voteMsix s f v).sess = [] := by
  unfold voteMsix
  dsimp only
  split
  · exact h
  · split
    · exact h
    · split
      · exact noSess_countRepair h
      · exact (sess_countBadVote _).trans h

theorem noSess_raiseVec (h : s.sess = []) (f v : Nat) : (raiseVec s f v).sess = [] := noSess_voteMsix h f v

theorem noSess_raiseClass (h : s.sess = []) (f c : Nat) : (raiseClass s f c).sess = [] := by
  have hvote := noSess_voteMask h f
  unfold raiseClass
  dsimp only
  split
  · exact hvote
  · split
    · exact hvote
    · refine noSess_raiseVec ?_ f _
      exact hvote

theorem noSess_foldN {f : State → Nat → State} (hf : ∀ x a, x.sess = [] → (f x a).sess = []) (l : List Nat) (h : s.sess = []) :
    (foldN l f s).sess = [] := by
  unfold foldN
  induction l generalizing s with
  | nil => exact h
  | cons a l ih => exact ih (hf s a h)

theorem noSess_emit (h : s.sess = []) (cls code inst : Nat) (detail : List Byte) (fs : List Nat) :
    (emit s cls code inst detail fs).sess = [] := by
  have hraise := noSess_foldN (fun _ f hx => noSess_raiseClass hx f cls) (eventFuncs s fs) h
  unfold emit
  dsimp only
  rw [notifyAll_noSess hraise]
  exact hraise

theorem noSess_emitSb (h : s.sess = []) (cls code inst : Nat) (detail : List Byte) (fs : List Nat) :
    (emitSb s cls code inst detail fs).sess = [] :=
  ((sideFrame_ch (List.Subset.refl _) (Changes.refl _ _)).sess (by decide)).trans (noSess_emit h cls code inst detail fs)

theorem noSess_putN (h : s.sess = []) (k n : Nat) : (putN s k n).sess = [] := h

theorem noSess_updateHealth (h : s.sess = []) : (updateHealth s).sess = [] := by
  unfold updateHealth
  extract_lets s1 worst old
  have h1 : s1.sess = [] := noSess_foldN (fun x i hx => by
    dsimp only
    split
    · exact hx
    · exact noSess_emitSb (noSess_putN hx _ _) _ _ _ _ _) _ h
  split
  · exact h1
  · exact noSess_emitSb (noSess_putN h1 _ _) _ _ _ _ _

theorem noSess_setMode (h : s.sess = []) (m : Nat) : (setMode s m).sess = [] := by
  unfold setMode
  split
  · exact h
  · exact noSess_emitSb (noSess_putN h _ _) _ _ _ _ _

theorem noSess_moduleStart (h : s.sess = []) (cause : Nat) : (moduleStart s cause).sess = [] := by
  unfold moduleStart
  extract_lets s1 s2 s3
  have h2 : s2.sess = [] := by
    dsimp only [s2]
    split <;> exact h
  have h3 : s3.sess = [] := noSess_setMode (noSess_putN h2 _ _) 0
  exact noSess_updateHealth (((applySpares_ch (List.Subset.refl _) (Changes.refl _ s3)).sess (by decide)).trans h3)

end

/-! ## The objects that the module start sets -/

/-- The objects of a cold start: pwr.mode, pwr.cause and the state of the trusted world's domain. -/
def startKeys : List Nat := [K.pwrMode, K.pwrCause, K.domState 1]

theorem notStart_of_idx {idx sub : Nat} (h : idx ≠ 0x8000 ∧ idx ≠ 0x8011) (hsub : sub < 256) : objKey idx sub ∉ startKeys := by
  simp only [startKeys, K.pwrMode, K.pwrCause, K.domState, objKey, List.mem_cons, List.not_mem_nil, or_false]
  omega

theorem notStart_of_sub {idx sub : Nat} (h : sub < 256 ∧ sub ≠ 1 ∧ sub ≠ 4) : objKey idx sub ∉ startKeys := by
  simp only [startKeys, K.pwrMode, K.pwrCause, K.domState, objKey, List.mem_cons, List.not_mem_nil, or_false]
  omega

theorem start_not_noteKey : ∀ k ∈ startKeys, ¬ noteKey k := by
  intro k hk
  simp only [startKeys, K.pwrMode, K.pwrCause, K.domState, objKey, List.mem_cons, List.not_mem_nil, or_false] at hk
  simp only [noteKey, K.dictNotifyDrop, K.regVoteFix, K.regVoteBad, K.kaolinCanDrop, K.logOut, objKey]
  omega

section
variable {r s : State}

theorem agrees_putV {ks : List Nat} {k : Nat} {v : Val} (h : Agrees ks r s) (hk : k ∉ ks) : Agrees ks r (putV s k v) :=
  h.trans fun _ hj => getV_putV_ne s v (fun e => hk (e ▸ hj))

theorem agrees_putN {ks : List Nat} {k n : Nat} (h : Agrees ks r s) (hk : k ∉ ks) : Agrees ks r (putN s k n) := agrees_putV h hk

theorem agrees_foldN {ks : List Nat} {f : State → Nat → State} (l : List Nat) (h : Agrees ks r s)
    (hf : ∀ x, ∀ a ∈ l, Agrees ks r x → Agrees ks r (f x a)) : Agrees ks r (foldN l f s) := by
  unfold foldN
  induction l generalizing s with
  | nil => exact h
  | cons a l ih => exact ih (hf s a (by simp) h) fun x b hb => hf x b (by simp [hb])

theorem agrees_updateHealth (h : Agrees startKeys r s) : Agrees startKeys r (updateHealth s) :=
  h.trans (.of_onlyAndNotes (updateHealth_objs s) fun k hk =>
    ⟨fun hk' => absurd hk (by revert k; decide), start_not_noteKey k hk⟩)

theorem agrees_countCores (h : Agrees startKeys r s) : Agrees startKeys r (countCores s) :=
  agrees_putN (agrees_putN h (notStart_of_idx (by decide) (by decide))) (notStart_of_idx (by decide) (by decide))

theorem agrees_applySpares (h : Agrees startKeys r s) : Agrees startKeys r (applySpares s) := by
  unfold applySpares
  extract_lets s1 s2 s3 s4 s5 s6
  have h1 : Agrees startKeys r s1 := agrees_foldN _ h fun x k hk hx =>
    agrees_putN hx (notStart_of_idx (by have := List.mem_range.1 hk; omega) (by decide))
  have h2 : Agrees startKeys r s2 := agrees_foldN _ h1 fun x u hu hx =>
    agrees_putN (agrees_putN hx (notStart_of_idx (by have := List.mem_range.1 hu; omega) (by decide))) (notStart_of_sub (by decide))
  have h3 : Agrees startKeys r s3 := agrees_foldN _ h2 fun x u _ hx => agrees_putN hx (notStart_of_sub (by decide))
  have h4 : Agrees startKeys r s4 := agrees_foldN _ h3 fun x l hl hx => by
    split
    · exact agrees_putN hx (notStart_of_idx (by have := List.mem_range.1 hl; omega) (by decide))
    · exact hx
  have h5 : Agrees startKeys r s5 := agrees_foldN _ h4 fun x c hc hx =>
    agrees_putN (agrees_putV hx (notStart_of_sub (by decide))) (notStart_of_idx (by have := List.mem_range.1 hc; omega) (by decide))
  have h6 : Agrees startKeys r s6 := agrees_foldN _ h5 fun x n _ hx => by
    split
    · exact agrees_putN (agrees_putN hx (notStart_of_sub (by decide))) (notStart_of_idx (by decide) (by decide))
    · exact hx
  exact agrees_countCores h6

theorem agrees_measureFirst {js : List Nat} (hjs : ∀ j ∈ js, j < 255) (h : Agrees startKeys r s) :
    Agrees startKeys r (measureFirst s js) :=
  agrees_foldN _ h fun x j hj hx =>
    agrees_putN (s := draw x) (hx.trans (.of_objs rfl)) (notStart_of_idx (by decide) (by have := hjs j hj; omega))

theorem agrees_loadKey {k : Nat} (h : Agrees startKeys r s) (hk : k ∉ startKeys) : Agrees startKeys r (loadKey s k) := by
  have hne : ∀ j ∈ startKeys, j ≠ k := fun j hj e => hk (e ▸ hj)
  unfold loadKey
  split
  · exact h.trans fun j hj => by simp [getV, tfind_tset_ne _ _ (hne j hj)]
  · refine agrees_putN (h.trans fun j hj => ?_) (notStart_of_idx (by decide) (by decide))
    simp [getV, tfind_tdel_ne _ (hne j hj)]

/-- No object of the mode, and no domain's state, is a stored setting. -/
theorem startKeys_not_stored : ∀ k ∈ startKeys, (accOf k).all (fun a => !a.stored) = true := by decide +kernel

theorem agrees_loadStored {p : Nat → Acc → Bool} (h : Agrees startKeys r s) : Agrees startKeys r (loadStored s p) := by
  refine agrees_foldN _ h fun x k hk hx => agrees_loadKey hx fun hstart => ?_
  have hstored := (List.mem_filter.1 hk).2
  have hnot := startKeys_not_stored k hstart
  cases hacc : accOf k with
  | none => simp [hacc] at hstored
  | some a =>
    simp only [hacc, Bool.and_eq_true] at hstored
    simp [hacc, hstored.1] at hnot

end

/-! ## The module start -/

theorem pwrMode_setMode (s : State) (m : Nat) : pwrMode (setMode s m) = m := by
  unfold setMode
  split
  next h => exact h
  next =>
    have hput : getN (putN s K.pwrMode m) K.pwrMode = m := getN_putN s _ m
    exact (getN_of_changes (emitSb_ch (List.Subset.refl _) (Changes.refl _ _)) (by decide) (start_not_noteKey _ (by decide))).trans hput

/-- A change of the mode moves no object but pwr.mode and the counts that events move. -/
theorem setMode_objs (s : State) (m : Nat) : onlyObjsAndNotes [K.pwrMode] s (setMode s m) := by
  unfold setMode
  split
  · exact onlyAndNotes_of_only (onlyObjs_refl _ s)
  · exact onlyAndNotes_trans (onlyAndNotes_of_only (onlyObjs_putN m (.head _) (onlyObjs_refl _ s))) (emitSb_objs _ _ _ _ _ _ _)

theorem getN_setMode {s : State} {m k : Nat} (hk : k ≠ K.pwrMode) (hnote : ¬ noteKey k) : getN (setMode s m) k = getN s k := by
  unfold Machine.getN
  rw [(setMode_objs s m k (by simpa using hk) hnote).1]

/-- The module start sets the mode and its cause, and leaves the trusted world's domain as it is. -/
theorem moduleStart_keys (s : State) (cause : Nat) :
    pwrMode (moduleStart s cause) = 0 ∧ getN (moduleStart s cause) K.pwrCause = cause ∧ domSt (moduleStart s cause) 1 = domSt s 1 := by
  unfold moduleStart
  extract_lets s1 s2 s3
  have hobjs : s2.objs = s.objs := by
    dsimp only [s2, s1]
    split <;> rfl
  have hdom : domSt s2 1 = domSt s 1 := Agrees.getN (ks := startKeys) (.of_objs hobjs) (by decide)
  have hagrees : Agrees startKeys s3 (updateHealth (applySpares s3)) := agrees_updateHealth (agrees_applySpares (.refl _ s3))
  refine ⟨(hagrees.getN (by decide)).trans (pwrMode_setMode _ 0), (hagrees.getN (by decide)).trans ?_,
    (hagrees.getN (by decide)).trans ?_⟩
  · exact (getN_setMode (by decide) (start_not_noteKey _ (by decide))).trans (getN_putN s2 _ cause)
  · exact (getN_setMode (by decide) (start_not_noteKey _ (by decide))).trans ((getN_putN_ne s2 _ (by decide)).trans hdom)

/-- The module start with what it measures and loads, up to the settling of the domains (R447, R448). -/
def coldLoaded (s : State) (cause : Nat) : State :=
  let s := moduleStart s cause
  let s := if cause = 1 then measureFirst s [0, 1, 2, 3, 9] else s
  let s := loadStored s (fun k a => (a == .rws && responderServes (k / 256)) || (a == .rwt && k / 256 == 0x7011))
  let s := loadStored s (fun k _ => (0x8400 ≤ k / 256 && k / 256 < 0x8460) && k % 256 == 12)
  setPinStage s (List.range 96) 1

theorem coldLoaded_keys (s : State) (cause : Nat) :
    pwrMode (coldLoaded s cause) = 0 ∧ getN (coldLoaded s cause) K.pwrCause = cause ∧ domSt (coldLoaded s cause) 1 = domSt s 1 := by
  obtain ⟨hmode, hcause, hdom⟩ := moduleStart_keys s cause
  have hagrees : Agrees startKeys (moduleStart s cause) (coldLoaded s cause) := by
    unfold coldLoaded
    extract_lets s1 s2 s3 s4
    have h2 : Agrees startKeys s1 s2 := by
      dsimp only [s2]
      split
      · exact agrees_measureFirst (by decide) (.refl _ s1)
      · exact .refl _ s1
    exact (agrees_loadStored (agrees_loadStored h2)).trans
      (.of_changes (setPinStage_ch (List.Subset.refl _) (Changes.refl _ s4)) (by decide) start_not_noteKey)
  exact ⟨(hagrees.getN (by decide)).trans hmode, (hagrees.getN (by decide)).trans hcause, (hagrees.getN (by decide)).trans hdom⟩

theorem coldLoaded_changes (s : State) (cause : Nat) :
    Changes [.fresh, .objs, .badStored, .pins] (moduleStart s cause) (coldLoaded s cause) := by
  unfold coldLoaded
  extract_lets s1 s2 s3 s4
  have h2 : Changes [.fresh, .objs, .badStored, .pins] s1 s2 := by
    dsimp only [s2]
    split
    · exact measureFirst_ch (by decide) (Changes.refl _ s1)
    · exact Changes.refl _ s1
  exact setPinStage_ch (by decide) (loadStored_ch (by decide) (loadStored_ch (by decide) h2))

theorem coldLoaded_power (s : State) (cause : Nat) : (coldLoaded s cause).power = s.power :=
  ((coldLoaded_changes s cause).power (by decide)).trans
    ((moduleStart_ch (List.Subset.refl _) (Changes.refl _ s)).power (by decide))

theorem noSess_coldLoaded {s : State} (h : s.sess = []) (cause : Nat) : (coldLoaded s cause).sess = [] :=
  ((coldLoaded_changes s cause).sess (by decide)).trans (noSess_moduleStart h cause)

/-- What a pin reads after each of the listed pins was updated. -/
theorem pinOf_foldN (g : Nat → Pin → Pin) (l : List Nat) (hl : l.Nodup) (s : State) (n : Nat) :
    pinOf (foldN l (fun s n => modPin s n (g n)) s) n = if n ∈ l then g n (pinOf s n) else pinOf s n := by
  unfold foldN
  induction l generalizing s with
  | nil => simp
  | cons a l ih =>
    obtain ⟨ha, hl⟩ := List.nodup_cons.1 hl
    rw [List.foldl_cons, ih hl]
    by_cases hn : n = a
    · subst hn
      simp [ha]
    · simp [hn, pinOf_modPin_ne s (g a) hn]

theorem stage_setPinStage (s : State) {n : Nat} (hn : n < 96) (stage : Nat) :
    (pinOf (setPinStage s (List.range 96) stage) n).stage = stage := by
  unfold setPinStage
  rw [pinOf_foldN (fun _ q => { q with stage := stage }) _ List.nodup_range, if_pos (List.mem_range.2 hn)]

/-! ## Settling -/

/-- Settling another domain leaves a waiting domain waiting. -/
theorem ramp_settleDomain {s : State} {d e : Nat} (hd : d ∈ s.power.ramp) (hne : e ≠ d) : d ∈ (settleDomain s e).power.ramp := by
  have herase : d ∈ s.power.ramp.erase e := (List.mem_erase_of_ne hne.symm).2 hd
  unfold settleDomain
  dsimp only
  split
  · exact hd
  · split
    · split
      · exact List.mem_append_left _ hd
      · exact hd
    · split <;> split <;> assumption

theorem ramp_foldN_settleDomain {d : Nat} (l : List Nat) (hl : d ∉ l) {s : State} (hd : d ∈ s.power.ramp) :
    d ∈ (foldN l settleDomain s).power.ramp := by
  unfold foldN
  induction l generalizing s with
  | nil => exact hd
  | cons e l ih =>
    obtain ⟨hne, hl⟩ := not_or.1 (mt List.mem_cons.2 hl)
    exact ih hl (ramp_settleDomain hd (Ne.symm hne))

theorem settle_eq (s : State) : settle s =
    foldN [6, 7, 8, 9, 3, 4, 5, 10, 12, 13, 23, 2, 11, 14, 15, 16, 17, 18, 19, 20, 21, 22] settleDomain (settleDomain s 1) := by
  simp only [settle, foldN, List.foldl_cons]

/-- The trusted world's domain, which is settled first, waits to ramp where its condition holds and it is off. -/
theorem one_waits {s : State} (hwanted : wanted s 1 = true) (hoff : domSt s 1 = domOff) : 1 ∈ (settle s).power.ramp := by
  have hfirst : 1 ∈ (settleDomain s 1).power.ramp := by
    by_cases hin : 1 ∈ s.power.ramp <;> simp [settleDomain, hwanted, hoff, hin]
  rw [settle_eq]
  exact ramp_foldN_settleDomain _ (by decide) hfirst

theorem wanted_one {s : State} (hgood : s.power.good = true) (hreset : s.power.resetOff = none) (hcut : s.power.pd01Cut = false)
    (hmode : pwrMode s ≠ 3) : wanted s 1 = true := by
  simp [wanted, wantsAlone, emergencyMask, tableCondition, hgood, hreset, hcut, hmode]

/-! ## The cold start -/

/-- What is lost, and the supervisor's record, at the begin of a cold start. -/
structure ColdBase (s : State) (cause : Nat) (x : State) : Prop where
  good : x.power.good = true
  step : x.power.step = 3
  start : x.power.start = s.now
  perst0 : x.power.perst0 = s.power.perst0
  perst1 : x.power.perst1 = s.power.perst1
  resetOff : x.power.resetOff = none
  cut01 : cause = 1 → x.power.pd01Cut = false
  sess : cause = 1 → x.sess = []
  dom1 : cause = 1 → domSt x 1 = domOff

/-- A loss of power keeps the interlock and the input voltage of all objects: no domain's state among them. -/
theorem domSt_powerLost (s : State) (g : Power → Power) : domSt (modPower (powerLost s) g) 1 = domOff := by
  have hnone : tfind (modPower (powerLost s) g).objs (K.domState 1) = none := by
    refine tfind_eq_none fun e he hk => ?_
    simp only [modPower, powerLost, freshState, List.mem_map, List.mem_filter] at he
    obtain ⟨e', ⟨-, hkeep⟩, rfl⟩ := he
    change e'.1 = K.domState 1 at hk
    rw [hk] at hkeep
    simp only [K.domState, K.hapIlk, K.pwrIn, objKey, Bool.false_or, Bool.or_eq_true, beq_iff_eq] at hkeep
    omega
  have hdefault : (defaultVal (K.domState 1)).toNat = domOff := by decide +kernel
  unfold domSt getN getV
  rw [hnone]
  exact hdefault

/-- A cold start is the module start from what is lost, and then the settling of the domains. -/
theorem coldStart_eq (s : State) (cause : Nat) : ∃ x, coldStart s cause = settle (coldLoaded x cause) ∧ ColdBase s cause x := by
  refine ⟨_, rfl, ?_⟩
  by_cases h : cause = 1
  · subst h
    exact ⟨rfl, rfl, rfl, rfl, rfl, rfl, fun _ => rfl, fun _ => rfl, fun _ => domSt_powerLost s _⟩
  · refine ⟨rfl, rfl, ?_, rfl, rfl, rfl, fun h' => absurd h' h, fun h' => absurd h' h, fun h' => absurd h' h⟩
    simp [modPower, h, freshState]

/-- A module that a cold start has brought to step 3 (R447): its mode, its cause, the supervisor's record and the pins. -/
structure Started (s : State) (cause : Nat) (t : State) : Prop where
  mode : pwrMode t = 0
  cause : getN t K.pwrCause = cause
  good : t.power.good = true
  step : t.power.step = 3
  start : t.power.start = s.now
  perst0 : t.power.perst0 = s.power.perst0
  perst1 : t.power.perst1 = s.power.perst1
  resetOff : t.power.resetOff = none
  pins : ∀ n, n < 96 → (pinOf t n).stage = 1

theorem coldStart_started (s : State) (cause : Nat) : Started s cause (coldStart s cause) := by
  obtain ⟨x, heq, hbase⟩ := coldStart_eq s cause
  obtain ⟨hmode, hcause, -⟩ := coldLoaded_keys x cause
  have hsettle : KeepsMode (coldLoaded x cause) (settle (coldLoaded x cause)) := keepsMode_settle (.refl _)
  obtain ⟨l, hpower⟩ := hsettle.power
  rw [coldLoaded_power] at hpower
  have hpins : (settle (coldLoaded x cause)).pins = (coldLoaded x cause).pins :=
    (settle_ch (List.Subset.refl _) (Changes.refl _ _)).pins (by decide)
  rw [heq]
  exact {
    mode := (hsettle.objs.getN (by decide)).trans hmode
    cause := (hsettle.objs.getN (by decide)).trans hcause
    good := by rw [hpower]; exact hbase.good
    step := by rw [hpower]; exact hbase.step
    start := by rw [hpower]; exact hbase.start
    perst0 := by rw [hpower]; exact hbase.perst0
    perst1 := by rw [hpower]; exact hbase.perst1
    resetOff := by rw [hpower]; exact hbase.resetOff
    pins := fun n hn => by
      unfold pinOf
      rw [hpins]
      exact stage_setPinStage _ hn 1 }

/-- After a loss of power the trusted world's domain is the first to wait (R448). -/
theorem one_waits_coldStart (s : State) : 1 ∈ (coldStart s 1).power.ramp := by
  obtain ⟨x, heq, hbase⟩ := coldStart_eq s 1
  obtain ⟨hmode, -, hdom⟩ := coldLoaded_keys x 1
  have hpower := coldLoaded_power x 1
  rw [heq]
  refine one_waits (wanted_one ?_ ?_ ?_ (by rw [hmode]; decide)) (hdom.trans (hbase.dom1 rfl))
  · rw [hpower]; exact hbase.good
  · rw [hpower]; exact hbase.resetOff
  · rw [hpower]; exact hbase.cut01 rfl

theorem noSess_coldStart (s : State) : (coldStart s 1).sess = [] := by
  obtain ⟨x, heq, hbase⟩ := coldStart_eq s 1
  rw [heq]
  exact ((settle_ch (List.Subset.refl _) (Changes.refl _ _)).sess (by decide)).trans (noSess_coldLoaded (hbase.sess rfl) 1)

end Sys2Proof.Proofs.ColdStart

/-!
PROOFS. The way down: the shut-down keeps the mode TO_STANDBY and the request that began it, whatever of its steps are done at once.
-/

namespace Sys2Proof.Proofs.Standby

open Sys2Proof.Machine Sys2Proof.Proofs.ModeFrame Sys2Proof.Proofs.ColdStart

variable {r s : State}

/-! ## Each step of the shut-down keeps the objects of the mode -/

theorem agrees_settle (h : Agrees modeKeys r s) : Agrees modeKeys r (settle s) :=
  h.trans (keepsMode_settle (.refl s)).objs

theorem agrees_modPower {g : Power → Power} (h : Agrees modeKeys r s) : Agrees modeKeys r (modPower s g) := h.trans (.of_objs rfl)

theorem agrees_ite {a b : State} {c : Prop} [Decidable c] (ha : Agrees modeKeys r a) (hb : Agrees modeKeys r b) :
    Agrees modeKeys r (if c then a else b) := by
  split <;> assumption

theorem agrees_closeWhere {p : Session → Bool} (h : Agrees modeKeys r s) : Agrees modeKeys r (closeWhere s p) :=
  h.trans (.of_changes (closeWhere_ch (List.Subset.refl _) (Changes.refl _ s)) (by decide) mode_not_noteKey)

/-- The first step of the shut-down ends the outputs and the spreads (R442). -/
theorem agrees_enterStandby (s : State) : Agrees modeKeys (setMode { s with transit := [] } 2) (enterStandby s) := by
  unfold enterStandby
  extract_lets s1 s2
  have h1 : Agrees modeKeys (setMode { s with transit := [] } 2) s1 := agrees_modPower (.refl _ _)
  have h2 : Agrees modeKeys (setMode { s with transit := [] } 2) s2 := agrees_foldN _ h1 fun x _ _ hx =>
    agrees_ite (hx.trans (keepsMode_stopOutput (.refl x)).objs) hx
  exact agrees_foldN _ h2 fun x _ _ hx => agrees_ite (hx.trans (keepsMode_shutSpread (.refl x)).objs) hx

theorem agrees_standbyNext (h : Agrees modeKeys r s) : Agrees modeKeys r (standbyNext s) := by
  unfold standbyNext
  extract_lets k go s1 s2
  have hgo : Agrees modeKeys r (go s) := agrees_modPower h
  have h1 : Agrees modeKeys r s1 := agrees_foldN _ hgo fun x p hp hx =>
    agrees_ite (hx.trans (keepsMode_shutPanel (List.mem_range.1 hp) (.refl x)).objs) hx
  have h2 : Agrees modeKeys r s2 := agrees_ite (h1.trans (keepsMode_shutHaptics (.refl s1)).objs) h1
  have hsound : Agrees modeKeys r (if sndSt s2 = sndRun ∨ sndSt s2 = sndStarting then shutSound s2 else s2) :=
    agrees_ite (h2.trans (keepsMode_shutSound (.refl s2)).objs) h2
  have hchime : Agrees modeKeys r (endChime (if sndSt s2 = sndRun ∨ sndSt s2 = sndStarting then shutSound s2 else s2)) :=
    hsound.trans (keepsMode_endChime (.refl _)).objs
  refine agrees_ite (agrees_ite hchime h) (agrees_ite (agrees_ite (agrees_settle (agrees_modPower hgo)) h)
    (agrees_ite (agrees_ite (agrees_settle hgo) h) (agrees_ite (agrees_ite (agrees_settle (agrees_closeWhere ?_)) h)
      (agrees_ite (agrees_ite (agrees_modPower hgo) h) h))))
  exact hgo.trans (.of_objs rfl)

theorem agrees_advanceStandby (h : Agrees modeKeys r s) : Agrees modeKeys r (advanceStandby s) :=
  agrees_ite (agrees_standbyNext (agrees_standbyNext (agrees_standbyNext (agrees_standbyNext (agrees_standbyNext h))))) h

/-- Where the module does not start, what follows a command moves no object of the mode. -/
theorem agrees_powerDone (hmode : pwrMode s ≠ 0) : Agrees modeKeys s (powerDone s) := by
  have hsettle : Agrees modeKeys s (powerSettle s) := (keepsMode_powerSettle s).objs
  have hnot : inMode (powerSettle s) 0 = false := by
    have hkept : pwrMode (powerSettle s) = pwrMode s := hsettle.getN (by decide)
    simp [inMode, hkept, hmode]
  unfold powerDone advanceStart
  rw [hnot]
  exact agrees_advanceStandby hsettle

/-- The begin of a shut-down: pwr.mode reads TO_STANDBY, and the request stands. -/
theorem standby_begun (s : State) :
    pwrMode (powerDone (enterStandby s)) = 2 ∧ getN (powerDone (enterStandby s)) K.pwrReq = getN s K.pwrReq := by
  have henter := agrees_enterStandby s
  have hmode : pwrMode (enterStandby s) = 2 := (henter.getN (by decide)).trans (pwrMode_setMode _ 2)
  have hdone : Agrees modeKeys (enterStandby s) (powerDone (enterStandby s)) := agrees_powerDone (by rw [hmode]; decide)
  refine ⟨(hdone.getN (by decide)).trans hmode, (hdone.getN (by decide)).trans ((henter.getN (by decide)).trans ?_)⟩
  exact getN_setMode (by decide) (mode_not_noteKey _ (by decide))

end Sys2Proof.Proofs.Standby

/-!
PROOFS. O57: writes to pwr.req and pwr.reset, as the dictionary carries them: accepted, refused for the claims of domains, and refused to
a role.
-/

namespace Sys2Proof.Proofs.PowerRequests

open Sys2Proof.Machine
open Sys2Proof.Proofs.FenceObjects (writeObject_access)
open Sys2Proof.Proofs.SurfaceAllocation (objKey_div objKey_mod)

/-! ## A write that claims refuse (R33, R320) -/

/-- A write of a number that passes the tests of its type, its access and its range is its area's to check. -/
theorem writeObj_num {s : State} {c : WCtx} {k n : Nat} {ty : Ty} {a : Acc} {rg : List (Int × Int)} {h : ItemHdr}
    (hindex : h.index.toNat = k / 256) (hsub : h.sub.toNat = k % 256) (htype : h.ty.toNat = ty.code) (hrow : rowIs k ty a rg = true)
    (hfit : fitsTy ty n = true) (hw : ∀ row : ObjRow, row.acc = a → mayWriteObj s c row (k / 256) (k % 256) n = true)
    (hr : rg.any (fun i => decide (i.1 ≤ measureOf ty (.num n) ∧ measureOf ty (.num n) ≤ i.2)) = true) :
    ∃ row, writeObj s c h (leBytes ty.size n) none = storeWrite s c row (k / 256) (k % 256) (.num n) := by
  unfold rowIs at hrow
  split at hrow
  next row j hlookup =>
    simp only [Bool.and_eq_true, beq_iff_eq] at hrow
    obtain ⟨⟨⟨hty, hacc⟩, hrange⟩, htarget⟩ := hrow
    have hin : inRange row (.num n) = true := by unfold inRange; rw [hrange, hty]; exact hr
    refine ⟨row, ?_⟩
    unfold writeObj
    simp only [hindex, hsub, hlookup, htarget, Option.map_some, Option.getD_some, htype, hty, if_true, parse_num hfit, Val.toNat,
      hw row hacc, hin, Option.isSome_none, Bool.false_and, Bool.not_true, Bool.or_self, Bool.false_eq_true, if_false]
  next => cases hrow

theorem storeWrite_claimed {s : State} {c : WCtx} {row : ObjRow} {idx sub n req : Nat} {ds : List Nat}
    (hcheck : areaCheck s c idx sub (.num n) ≠ .range) (hrole : c.role ≠ .tw) (hclaims : areaClaims s idx sub n = (ds, req))
    (hds : ds ≠ []) : storeWrite s c row idx sub (.num n) = ⟨.claimed, s, ds, req⟩ := by
  unfold storeWrite
  simp only [Val.toNat, if_neg hrole, hclaims, if_neg hcheck, if_pos hds]

/-- A write command that claims refuse: answered CLAIMED, and the refusal is shown. -/
theorem writeObject_claimed {s : State} {r : DictReq} {i k n req : Nat} {ds : List Nat} {ty : Ty} {a : Acc} {rg : List (Int × Int)}
    (hrow : rowIs k ty a rg = true) (hk : k < 2 ^ 24) (h : AdmittedWrite s r i k n) (hfit : fitsTy ty n = true)
    (hw : ∀ row : ObjRow, row.acc = a → mayWriteObj (renewed s i) (sessionCtx s r i none) row (k / 256) (k % 256) n = true)
    (hr : rg.any (fun i => decide (i.1 ≤ measureOf ty (.num n) ∧ measureOf ty (.num n) ≤ i.2)) = true)
    (hcheck : areaCheck (renewed s i) (sessionCtx s r i none) (k / 256) (k % 256) (.num n) ≠ .range) (hrole : (sessOf s i).role ≠ .tw)
    (hclaims : areaClaims (renewed s i) (k / 256) (k % 256) n = (ds, req)) (hds : ds ≠ []) :
    ∃ u h, writeObject s r k n = .next u ∧ answered u r 0x11 .claimed ∧
      Changes [.fresh, .sess, .resp] (afterRefusal (renewed s i) (sessionCtx s r i none) h ⟨.claimed, renewed s i, ds, req⟩) u := by
  have hindex : (BitVec.ofNat 16 (k / 256)).toNat = k / 256 := by rw [BitVec.toNat_ofNat]; omega
  have hsub : (BitVec.ofNat 8 (k % 256)).toNat = k % 256 := by rw [BitVec.toNat_ofNat]; omega
  have htype : (BitVec.ofNat 8 ty.code).toNat = ty.code := by have := code_lt ty; rw [BitVec.toNat_ofNat]; omega
  let hdr : ItemHdr := ⟨BitVec.ofNat 16 (k / 256), BitVec.ofNat 8 (k % 256), BitVec.ofNat 8 ty.code⟩
  obtain ⟨row, hwrite⟩ := writeObj_num (h := hdr) hindex hsub htype hrow hfit hw hr
  rw [storeWrite_claimed hcheck hrole hclaims hds] at hwrite
  have hanswer : sessionAnswer s r i (.write hdr (leBytes ty.size n)) none =
      refused (afterRefusal (renewed s i) (sessionCtx s r i none) hdr ⟨.claimed, renewed s i, ds, req⟩) .claimed := by
    change opWrite (renewed s i) (sessionCtx s r i none) hdr (leBytes ty.size n) none = _
    unfold opWrite
    dsimp only
    rw [show writeObj (renewed s i) { sessionCtx s r i none with cond := (none : Option Nat).isSome } hdr (leBytes ty.size n) none = _
      from hwrite]
    rfl
  unfold AdmittedWrite at h
  unfold writeObject
  rw [numWrite_eq hrow] at h ⊢
  obtain ⟨u, hrun, hanswered, hchanges⟩ := request_refused h hanswer (by decide)
  exact ⟨u, hdr, hrun, hanswered, hchanges⟩

/-! ## What a refusal shows -/

theorem worldRefused_not_noteKey : ¬ noteKey K.worldRefused := by
  simp only [noteKey, K.worldRefused, K.dictNotifyDrop, K.regVoteFix, K.regVoteBad, K.kaolinCanDrop, K.logOut, objKey]
  omega

/-- The records and the events of a refusal move no object but the counts of events. -/
theorem refuseClaim_objs (ks : List Nat) (s : State) (c : WCtx) (session req : Nat) (ds : List Nat) :
    onlyObjsAndNotes ks (bump s K.worldRefused) (refuseClaim s c session req ds) :=
  ModeFrame.foldl_onlyAndNotes ds (fun x _ _ => onlyAndNotes_of_changes
    (P := [.fresh, .voteSecond, .funcs, .sess, .refuseLog, .grog, .notes]) (emit_ch (by decide) (ch_refuseLog (Changes.refl _ x) (by decide))) (by decide)) _

theorem standbyAsk_objs (ks : List Nat) (s : State) (role : Role) (ds : List Nat) : onlyObjsAndNotes ks s (standbyAsk s role ds) :=
  onlyAndNotes_of_changes (standbyAsk_ch (List.Subset.refl _) (Changes.refl _ s)) (by decide)

theorem afterRefusal_objs (ks : List Nat) (s : State) (c : WCtx) (h : ItemHdr) (w : WriteOut) (hw : w.status = .claimed) :
    onlyObjsAndNotes ks (bump s K.worldRefused) (afterRefusal s c h w) := by
  unfold afterRefusal
  rw [if_pos hw]
  dsimp only
  split
  · exact onlyAndNotes_trans (refuseClaim_objs ks s c c.session w.req w.claims) (standbyAsk_objs _ _ _ _)
  · exact refuseClaim_objs _ _ _ _ _ _

/-! ## pwr.req (R442, R444) -/

theorem pwrReq_div : K.pwrReq / 256 = 0x8000 := objKey_div (by omega)

theorem pwrReq_mod : K.pwrReq % 256 = 2 := objKey_mod (by omega)

/-- The manager and the side-band may write pwr.req. -/
theorem mayWriteObj_pwrReq {s : State} {r : DictReq} {i v : Nat} {row : ObjRow} (hrole : (sessOf s i).role = .sb ∨ managerSession s i)
    (hacc : row.acc = .rw) : mayWriteObj (renewed s i) (sessionCtx s r i none) row (K.pwrReq / 256) (K.pwrReq % 256) v = true := by
  rw [pwrReq_div, pwrReq_mod]
  rcases hrole with hrole | hrole
  · simp [mayWriteObj, hacc, sessionCtx, hrole]
  · have hmgr : (sessionCtx s r i none).isMgr = true := by simp [sessionCtx, WCtx.isMgr, show (sessOf s i).role = .mgr from hrole]
    simp only [mayWriteObj, hacc, show (sessionCtx s r i none).role = .mgr from hrole]
    exact areaAccess_pwrReq hmgr

/-- A write of pwr.req that no check and no claim refuses leaves `pwrReqApply`'s effect. -/
theorem writePwrReq_done {s t : State} {r : DictReq} {i n : Nat} {st : Status} (h : AdmittedWrite s r i K.pwrReq n)
    (hrole : (sessOf s i).role = .sb ∨ managerSession s i) (hn : n = 1 ∨ n = 3) (hcheck : pwrReqCheck s n = .ok)
    (hclaims : pwrReqClaims s n = []) (happly : pwrReqApply (renewed s i) n = (t, st)) (hst : st = .ok ∨ st = .intransit) :
    ∃ u, writeObject s r K.pwrReq n = .next u ∧ answered u r 0x11 st ∧ Changes [.sess, .resp] t u := by
  have hfit : fitsTy .u8 n = true ∧ ([(1, 1), (3, 3)] : List (Int × Int)).any
      (fun i => decide (i.1 ≤ measureOf .u8 (.num n) ∧ measureOf .u8 (.num n) ≤ i.2)) = true := by
    rcases hn with rfl | rfl <;> decide
  refine writeObject_done (found := none) (a := .rw) row_pwrReq (key_lt (by omega) (by omega)) h hfit.1
    (fun row hacc => mayWriteObj_pwrReq hrole hacc) hfit.2 ?_ ?_ (.inl rfl) ?_ hst
  · rw [pwrReq_div, pwrReq_mod, areaCheck_pwrReq]
    exact hcheck
  · rw [pwrReq_div, pwrReq_mod, areaClaims_pwrReq]
    exact hclaims
  · rw [pwrReq_div, pwrReq_mod, areaApply_pwrReq]
    exact happly

theorem inMode_eq (s : State) (m : Nat) : inMode s m = decide (pwrMode s = m) := rfl

theorem pwrMode_writeReq (s : State) (i n : Nat) : pwrMode (writeN (renewed s i) K.pwrReq n) = pwrMode s :=
  (getN_writeN_ne _ n (by decide)).trans (getN_renewed s i _)

/-- In TO_STANDBY a request of RUN is queued, and one of STANDBY changes nothing. -/
theorem pwrReqApply_toStandby {s : State} {i n : Nat} (hmode : pwrMode s = 2) : pwrReqApply (renewed s i) n =
    if n = 1 then (modPower (writeN (renewed s i) K.pwrReq 1) (fun x => { x with wakeQueued := true }), .intransit)
    else (renewed s i, .intransit) := by
  have hin : inMode (renewed s i) 2 = true := by rw [inMode_eq]; exact decide_eq_true hmode
  simp only [pwrReqApply, hin, if_true]

/-- Outside TO_STANDBY the request stands, and in the mode that it ends it takes effect. -/
theorem pwrReqApply_else {s : State} {i n : Nat} (hmode : pwrMode s ≠ 2) : pwrReqApply (renewed s i) n =
    if n = 3 ∧ pwrMode s = 1 then (powerDone (enterStandby (writeN (renewed s i) K.pwrReq n)), .ok)
    else if n = 1 ∧ pwrMode s = 3 then (coldStart (writeN (renewed s i) K.pwrReq n) 3, .ok)
    else (writeN (renewed s i) K.pwrReq n, .ok) := by
  have hin : inMode (renewed s i) 2 = false := by rw [inMode_eq]; exact decide_eq_false hmode
  simp only [pwrReqApply, hin, Bool.false_eq_true, if_false, inMode_eq, pwrMode_writeReq, decide_eq_true_eq]

theorem pwrReqCheck_ok {s : State} {n : Nat} (h : n = 1 ∨ pwrMode s ≠ 0) : pwrReqCheck s n = .ok := by
  have hnot : ¬ (n = 3 ∧ inMode s 0 = true) := by
    rw [inMode_eq, decide_eq_true_eq]
    omega
  exact if_neg hnot

theorem pwrReqClaims_nil {s : State} {n : Nat} (h : n = 1 ∨ pwrMode s ≠ 1) : pwrReqClaims s n = [] := by
  have hnot : ¬ (n = 3 ∧ inMode s 1 = true) := by
    rw [inMode_eq, decide_eq_true_eq]
    omega
  exact if_neg hnot

theorem pwrReqClaims_standby {s : State} (hmode : pwrMode s = 1) :
    pwrReqClaims s 3 = numbers 24 (fun d => d != 1 && isClaimed s d) := by
  have hin : inMode s 1 = true := by rw [inMode_eq]; exact decide_eq_true hmode
  exact if_pos ⟨rfl, hin⟩

/-- A standby request of a quiet module in RUN begins the shut-down. -/
theorem exec_standby_begins {s : State} {r : DictReq} {i : Nat} (h : AdmittedWrite s r i K.pwrReq 3) (hrole : managerSession s i)
    (hmode : pwrMode s = 1) (hquiet : Quiet s) :
    ∃ t, exec (.pwrReqStandby r) s = .next t ∧ answered t r 0x11 .ok ∧ pwrMode t = 2 ∧ getN t K.pwrReq = 3 := by
  have hclaims : pwrReqClaims s 3 = [] := by
    rw [pwrReqClaims_standby hmode]
    refine List.filter_eq_nil_iff.2 fun d hd hclaimed => ?_
    simp only [Bool.and_eq_true, bne_iff_ne] at hclaimed
    exact absurd (hquiet.claims d (List.mem_range.1 hd) hclaimed.1) (by simpa [isClaimed] using hclaimed.2)
  obtain ⟨hrun, hreq⟩ := Standby.standby_begun (writeN (renewed s i) K.pwrReq 3)
  obtain ⟨t, hexec, hanswered, hchanges⟩ := writePwrReq_done h (.inr hrole) (.inr rfl)
    (pwrReqCheck_ok (.inr (by omega))) hclaims ((pwrReqApply_else (by omega)).trans (if_pos ⟨rfl, hmode⟩)) (.inl rfl)
  have hget : ∀ k ∈ ModeFrame.modeKeys, getN t k = getN (powerDone (enterStandby (writeN (renewed s i) K.pwrReq 3))) k :=
    fun k hk => getN_of_changes hchanges (by decide) (ModeFrame.mode_not_noteKey k hk)
  exact ⟨t, hexec, hanswered, (hget _ (by decide)).trans hrun, (hget _ (by decide)).trans (hreq.trans (getN_writeN _ _ _))⟩

/-- A standby request in RUN that a claimed domain refuses. -/
theorem exec_standby_claimed {s : State} {r : DictReq} {i d : Nat} (h : AdmittedWrite s r i K.pwrReq 3) (hrole : managerSession s i)
    (hmode : pwrMode s = 1) (hd : 1 < d) (hlt : d < 24) (hclaimed : isClaimed s d = true) :
    ∃ t, exec (.pwrReqStandby r) s = .next t ∧ answered t r 0x11 .claimed ∧ pwrMode t = 1 ∧
      getN t K.worldRefused = satInc 32 (getN s K.worldRefused) ∧ onlyObjsAndNotes [K.worldRefused] s t := by
  have hclaims : areaClaims (renewed s i) (K.pwrReq / 256) (K.pwrReq % 256) 3 =
      (numbers 24 (fun d => d != 1 && isClaimed s d), 1) := by
    rw [pwrReq_div, pwrReq_mod, areaClaims_pwrReq, pwrReqClaims_standby (s := renewed s i) hmode]
    rfl
  have hmem : d ∈ numbers 24 (fun d => d != 1 && isClaimed s d) :=
    List.mem_filter.2 ⟨List.mem_range.2 hlt, by simp [hclaimed, Nat.ne_of_gt hd]⟩
  have hcheck : areaCheck (renewed s i) (sessionCtx s r i none) (K.pwrReq / 256) (K.pwrReq % 256) (.num 3) ≠ .range := by
    rw [pwrReq_div, pwrReq_mod, areaCheck_pwrReq, pwrReqCheck_ok]
    · decide
    · exact .inr (by change pwrMode s ≠ 0; omega)
  obtain ⟨t, hdr, hexec, hanswered, hchanges⟩ := writeObject_claimed row_pwrReq (key_lt (by omega) (by omega)) h rfl
    (fun row hacc => mayWriteObj_pwrReq (.inr hrole) hacc) (by decide) hcheck (by rw [show (sessOf s i).role = .mgr from hrole]; decide)
    hclaims (List.ne_nil_of_mem hmem)
  have hshown : ∀ ks, onlyObjsAndNotes ks (bump (renewed s i) K.worldRefused) t := fun ks =>
    onlyAndNotes_trans (afterRefusal_objs ks _ _ _ _ rfl) (onlyAndNotes_of_changes hchanges (by decide))
  have hget : getN t K.worldRefused = satInc 32 (getN s K.worldRefused) := by
    unfold Machine.getN
    rw [(hshown [] _ (by simp) worldRefused_not_noteKey).1]
    exact getN_bump (renewed s i) K.worldRefused
  have hfrom : onlyObjsAndNotes [K.worldRefused] s (bump (renewed s i) K.worldRefused) :=
    onlyAndNotes_of_only (onlyObjs_putN _ (.head _) (onlyObjs_of_eq rfl))
  have honly := onlyAndNotes_trans hfrom (hshown _)
  refine ⟨t, hexec, hanswered, ?_, hget, honly⟩
  have hkept : pwrMode t = pwrMode s := by
    unfold pwrMode Machine.getN
    rw [(honly K.pwrMode (by decide) (ModeFrame.mode_not_noteKey _ (by decide))).1]
  exact hkept.trans hmode

/-- In TO_STANDBY a further standby request changes nothing. -/
theorem exec_standby_inTransit {s : State} {r : DictReq} {i : Nat} (h : AdmittedWrite s r i K.pwrReq 3)
    (hrole : (sessOf s i).role = .sb ∨ managerSession s i) (hmode : pwrMode s = 2) :
    ∃ t, exec (.pwrReqStandby r) s = .next t ∧ answered t r 0x11 .intransit ∧ Changes [.sess, .resp] s t := by
  obtain ⟨t, hexec, hanswered, hchanges⟩ := writePwrReq_done h hrole (.inr rfl) (pwrReqCheck_ok (.inr (by omega)))
    (pwrReqClaims_nil (.inr (by omega))) ((pwrReqApply_toStandby hmode).trans (if_neg (by decide))) (.inr rfl)
  exact ⟨t, hexec, hanswered, changes_done (Changes.refl _ _) hchanges (by decide) (by decide)⟩

/-- No check and no claim refuses a request of RUN. -/
theorem exec_run_done {s x : State} {r : DictReq} {i : Nat} {st : Status} (h : AdmittedWrite s r i K.pwrReq 1)
    (hrole : (sessOf s i).role = .sb ∨ managerSession s i) (happly : pwrReqApply (renewed s i) 1 = (x, st))
    (hst : st = .ok ∨ st = .intransit) :
    ∃ t, exec (.pwrReqRun r) s = .next t ∧ answered t r 0x11 st ∧ Changes [.sess, .resp] x t :=
  writePwrReq_done h hrole (.inl rfl) (pwrReqCheck_ok (.inl rfl)) (pwrReqClaims_nil (.inl rfl)) happly hst

/-- In STANDBY a request of RUN starts the module. -/
theorem exec_run_wakes {s : State} {r : DictReq} {i : Nat} (h : AdmittedWrite s r i K.pwrReq 1)
    (hrole : (sessOf s i).role = .sb ∨ managerSession s i) (hmode : pwrMode s = 3) :
    ∃ t, exec (.pwrReqRun r) s = .next t ∧ answered t r 0x11 .ok ∧ pwrMode t = 0 ∧ getN t K.pwrCause = 3 ∧ t.power.step = 3 := by
  obtain ⟨t, hexec, hanswered, hchanges⟩ :=
    exec_run_done h hrole ((pwrReqApply_else (by omega)).trans ((if_neg (by omega)).trans (if_pos ⟨rfl, hmode⟩))) (.inl rfl)
  have hstarted := ColdStart.coldStart_started (writeN (renewed s i) K.pwrReq 1) 3
  have hget : ∀ k ∈ ModeFrame.modeKeys, getN t k = getN (coldStart (writeN (renewed s i) K.pwrReq 1) 3) k :=
    fun k hk => getN_of_changes hchanges (by decide) (ModeFrame.mode_not_noteKey k hk)
  refine ⟨t, hexec, hanswered, (hget _ (by decide)).trans hstarted.mode, (hget _ (by decide)).trans hstarted.cause, ?_⟩
  rw [hchanges.power (by decide)]
  exact hstarted.step

/-- In TO_STANDBY a request of RUN is queued. -/
theorem exec_run_queued {s : State} {r : DictReq} {i : Nat} (h : AdmittedWrite s r i K.pwrReq 1)
    (hrole : (sessOf s i).role = .sb ∨ managerSession s i) (hmode : pwrMode s = 2) :
    ∃ t, exec (.pwrReqRun r) s = .next t ∧ answered t r 0x11 .intransit ∧ t.power.wakeQueued = true ∧ pwrMode t = 2 := by
  obtain ⟨t, hexec, hanswered, hchanges⟩ :=
    exec_run_done h hrole ((pwrReqApply_toStandby hmode).trans (if_pos rfl)) (.inr rfl)
  refine ⟨t, hexec, hanswered, by rw [hchanges.power (by decide)]; rfl, ?_⟩
  exact (getN_of_changes hchanges (by decide) (ModeFrame.mode_not_noteKey _ (by decide))).trans
    ((pwrMode_writeReq s i 1).trans hmode)

/-- In RUN a request of RUN is stored and changes nothing more. -/
theorem exec_run_stored {s : State} {r : DictReq} {i : Nat} (h : AdmittedWrite s r i K.pwrReq 1)
    (hrole : (sessOf s i).role = .sb ∨ managerSession s i) (hmode : pwrMode s = 1) :
    ∃ t, exec (.pwrReqRun r) s = .next t ∧ answered t r 0x11 .ok ∧ getN t K.pwrReq = 1 ∧ onlyObjs [K.pwrReq] s t := by
  obtain ⟨t, hexec, hanswered, hchanges⟩ :=
    exec_run_done h hrole ((pwrReqApply_else (by omega)).trans ((if_neg (by omega)).trans (if_neg (by omega)))) (.inl rfl)
  have hobjs : t.objs = (writeN (renewed s i) K.pwrReq 1).objs := hchanges.objs (by decide) (by decide)
  have hwritten : onlyObjs [K.pwrReq] s (writeN (renewed s i) K.pwrReq 1) := onlyObjs_writeN 1 (.head _) (onlyObjs_of_eq rfl)
  refine ⟨t, hexec, hanswered, ?_, onlyObjs_trans hwritten (onlyObjs_of_eq hobjs)⟩
  exact (getN_of_changes hchanges (by decide) (ModeFrame.mode_not_noteKey _ (by decide))).trans (getN_writeN _ _ _)

/-! ## pwr.reset (R446) -/

theorem pwrReset_div : K.pwrReset / 256 = 0x8000 := objKey_div (by omega)

theorem pwrReset_mod : K.pwrReset % 256 = 3 := objKey_mod (by omega)

/-- pwr.reset is the manager's and the side-band's, as far as pwr.reset.roles names them. -/
theorem mayWriteObj_pwrReset {s : State} {r : DictReq} {i v : Nat} {row : ObjRow}
    (hrole : (sessOf s i).role = .mgr ∨ (sessOf s i).role = .sb) (hacc : row.acc = .wo) :
    mayWriteObj (renewed s i) (sessionCtx s r i none) row (K.pwrReset / 256) (K.pwrReset % 256) v = mayReset s (sessOf s i).role := by
  rw [pwrReset_div, pwrReset_mod]
  rcases hrole with hrole | hrole
  · have hctx : (sessionCtx s r i none).role = .mgr := hrole
    simp only [mayWriteObj, hacc, hctx, areaAccess_pwrReset, WCtx.isMgr, hrole]
    rfl
  · have hctx : (sessionCtx s r i none).role = .sb := hrole
    simp only [mayWriteObj, hacc, hctx, hrole]
    rfl

theorem pwrResetApply_power (s : State) :
    (pwrResetApply s).power = { s.power with resetAt := some (s.power.resetAt.getD (s.now + 1000000)) } := by
  unfold pwrResetApply
  dsimp only [interruptTw, modPower]
  cases s.power.resetAt <;> rfl

/-- A reset that a role may request: the trusted world is told, and the cut is 1 ms away, or as near as it was. -/
theorem exec_reset_accepted {s : State} {r : DictReq} {i : Nat} (h : AdmittedWrite s r i K.pwrReset 0xA1)
    (hrole : (sessOf s i).role = .mgr ∨ (sessOf s i).role = .sb) (hmay : mayReset s (sessOf s i).role = true) :
    ∃ t, exec (.pwrReset r 0xA1) s = .next t ∧ answered t r 0x11 .ok ∧
      t.power = { s.power with resetAt := some (s.power.resetAt.getD (s.now + 1000000)) } ∧
      tget t.ehrica intReset 0 = tget s.ehrica intReset 0 + 1 ∧ Changes [.power, .ehrica, .sess, .resp] s t := by
  obtain ⟨t, hexec, hanswered, hchanges⟩ := writeObject_done (found := none) (a := .wo) row_pwrReset (key_lt (by omega) (by omega)) h rfl
    (fun row hacc => (mayWriteObj_pwrReset hrole hacc).trans hmay) (by decide)
    (by rw [pwrReset_div, pwrReset_mod, areaCheck_pwrReset]) (by rw [pwrReset_div, pwrReset_mod, areaClaims_pwrReset]) (.inl rfl)
    (by rw [pwrReset_div, pwrReset_mod, areaApply_pwrReset]; rfl) (.inl rfl)
  have happly : Changes [.power, .ehrica, .sess, .resp] (renewed s i) (pwrResetApply (renewed s i)) :=
    pwrResetApply_ch (by decide) (Changes.refl _ _)
  refine ⟨t, hexec, hanswered, ?_, ?_, changes_done happly hchanges (by decide) (by decide)⟩
  · exact (hchanges.power (by decide)).trans (pwrResetApply_power (renewed s i))
  · rw [hchanges.ehrica (by decide)]
    exact tget_tset_same _ _ _ _

theorem exec_reset_refused {s : State} {r : DictReq} {i : Nat} (h : AdmittedWrite s r i K.pwrReset 0xA1)
    (hrole : (sessOf s i).role = .mgr ∨ (sessOf s i).role = .sb) (hmay : mayReset s (sessOf s i).role = false) :
    ∃ t, exec (.pwrReset r 0xA1) s = .next t ∧ answered t r 0x11 .access ∧ Changes [.fresh, .sess, .resp] s t :=
  writeObject_access row_pwrReset (key_lt (by omega) (by omega)) h fun _ _ hacc => (mayWriteObj_pwrReset hrole hacc).trans hmay

end Sys2Proof.Proofs.PowerRequests

/-!
PROOFS. O57: power good, the host ports, host availability, the end of a shut-down and of a reset, and the obligation.
-/

namespace Sys2Proof.Proofs.PowerModes

open Sys2Proof.Machine Sys2Proof.Proofs.ModeFrame Sys2Proof.Proofs.ColdStart Sys2Proof.Proofs.PowerRequests

/-! ## Power good (R447, R448, R494) -/

/-- The host contacts that read open count as deasserted at the power good. -/
def openContacts (s : State) (open0 open1 : Bool) : State :=
  modPower s (fun x => { x with
    perst0 := if open0 then some s.now else x.perst0
    perst1 := if open1 then some s.now else x.perst1 })

theorem exec_powerGood_again {s : State} (hgood : s.power.good = true) (open0 open1 : Bool) :
    exec (.powerGood open0 open1) s = .next s := by
  change execPowerGood open0 open1 s = _
  simp [execPowerGood, hgood]

theorem exec_powerGood {s : State} (hgood : s.power.good = false)
    (hok : s.power.seen = false ∨ ∃ a, s.power.okSince = some a ∧ a + 10000000 ≤ s.now) (open0 open1 : Bool) :
    exec (.powerGood open0 open1) s = .next (coldStart (openContacts s open0 open1) 1) := by
  change execPowerGood open0 open1 s = _
  unfold execPowerGood openContacts
  rcases hok with hseen | ⟨a, hsince, hlong⟩
  · simp [hgood, hseen]
  · simp [hgood, hsince, hlong]

/-! ## The host ports (R450, R493) -/

theorem portWidth_eq (h1 : Bool) (n : Nat) : portWidth h1 n =
    if h1 = false ∧ 16 ≤ n then 16 else if h1 = false ∧ 8 ≤ n then 8 else if 4 ≤ n then 4 else if 1 ≤ n then 1 else 0 := by
  by_cases hone : 1 ≤ n
  · by_cases hfour : 4 ≤ n
    · cases h1 with
      | true => simp [portWidth, hfour]
      | false => by_cases height : 8 ≤ n <;> by_cases hsixteen : 16 ≤ n <;> simp [portWidth, hfour, height, hsixteen]
    · have hmore : ¬ 8 ≤ n ∧ ¬ 16 ≤ n := by omega
      cases h1 <;> simp [portWidth, hone, hfour, hmore]
  · obtain rfl : n = 0 := by omega
    cases h1 <;> rfl

theorem exec_perstDeassert (s : State) (h1 : Bool) (offered : Fin 17) (reversed : Bool) (inverted : BitVec 16) (refclk : Bool) :
    ∃ t, exec (.perstDeassert h1 offered reversed inverted refclk) s = .next t ∧
      t.power = (if h1 then { s.power with perst1 := some s.now, link1 := ⟨portWidth h1 offered, reversed, inverted.toNat, refclk⟩ }
        else { s.power with perst0 := some s.now, link0 := ⟨portWidth h1 offered, reversed, inverted.toNat, refclk⟩ }) ∧
      Changes [.power] s t :=
  ⟨_, rfl, by cases h1 <;> rfl, modPower_ch (List.Subset.refl _) (Changes.refl _ s)⟩

theorem exec_hostAvailability_waits {s : State} (h : s.power.perst0 = none ∨ s.power.perst1 = none) :
    exec .hostAvailability s = .next s := by
  change execHostAvailability s = _
  rcases h with h | h <;> simp [execHostAvailability, h]

/-- Both hosts ready, the module reads RUN. -/
theorem exec_hostAvailability_runs {s : State} (hmode : pwrMode s = 0) (hstep : 11 ≤ s.power.step) (hdom : domSt s 3 = domOn)
    (h0 : s.power.perst0 ≠ none) (h1 : s.power.perst1 ≠ none) :
    ∃ t, exec .hostAvailability s = .next t ∧ pwrMode t = 1 ∧ t.power.avail = true ∧ t.power.step = 12 ∧
      getN t K.pwrHostAvail = min ((s.now - s.power.start) / 1000) (2 ^ 32 - 1) := by
  have hwait : ¬ ((!inMode s 0) = true ∨ s.power.step < 11 ∨ domSt s 3 ≠ domOn ∨ s.power.perst0.isNone = true ∨
      s.power.perst1.isNone = true) := by
    simp [inMode, hmode, hdom, h0, h1, hstep]
  change ∃ t, execHostAvailability s = .next t ∧ _
  unfold execHostAvailability
  rw [if_neg hwait]
  extract_lets s1 tests
  set x := setMode (modPower s1 fun x => { x with avail := true, step := 12, tests := tests }) 1 with hx
  have hkeeps := keepsMode_powerSettle x
  obtain ⟨l, hpower⟩ := hkeeps.power
  have hxpower : x.power = { s.power with avail := true, step := 12, tests := tests } :=
    (setMode_ch (List.Subset.refl _) (Changes.refl _ _)).power (by decide)
  refine ⟨_, rfl, (hkeeps.objs.getN (by decide)).trans (pwrMode_setMode _ 1), ?_, ?_, (hkeeps.objs.getN (by decide)).trans ?_⟩
  · rw [hpower, hxpower]
  · rw [hpower, hxpower]
  · exact (getN_setMode (by decide) (mode_not_noteKey _ (by decide))).trans (getN_putN s _ _)

/-! ## The end of the shut-down (R442, R444) -/

/-- The module in STANDBY: the trusted world's domain off, its memory lost, and the wake pins set. -/
def reached (s : State) : State :=
  setMode (pinsToStandby (modPower (zeroTrusted (putN (putN s (K.domState 1) domOff) K.kaolinTw twOff))
    (fun x => { x with standbyFrom := none, wakeQueued := false, down := 0, ramp := [] }))) 3

theorem exec_standbyReached {s : State} {a : Nat} (hfrom : s.power.standbyFrom = some a) (hmode : pwrMode s = 2) (ha : a ≤ s.now) :
    exec .standbyReached s = .next (if s.power.wakeQueued then coldStart (reached s) 3 else reached s) := by
  change execStandbyReached s = _
  simp only [execStandbyReached, hfrom, inMode, hmode, ha, decide_true, Bool.and_true, beq_self_eq_true, if_true]
  rfl

/-- The stage of a pin in STANDBY: a wake pin among the first eight reads 3. -/
def standbyStage (s : State) (n : Nat) (q : Pin) : Pin := { q with stage := if n < 8 && wakePin s n then 3 else 1 }

theorem wakePin_of_getV {s x : State} (h : getV x K.pwrWakePins = getV s K.pwrWakePins) (n : Nat) : wakePin x n = wakePin s n := by
  simp [wakePin, getBytes, h]

/-- An update of one pin moves no other pin's wake setting, so that all are taken as they stood. -/
theorem pinsToStandby_eq (s : State) : pinsToStandby s = foldN (List.range 96) (fun x n => modPin x n (standbyStage s n)) s := by
  have hfold : ∀ (l : List Nat) (x : State), x.objs = s.objs →
      l.foldl (fun x n => modPin x n (standbyStage x n)) x = l.foldl (fun x n => modPin x n (standbyStage s n)) x := by
    intro l
    induction l with
    | nil => exact fun _ _ => rfl
    | cons n l ih =>
      intro x hx
      have hstage : standbyStage x n = standbyStage s n := by
        funext q
        rw [standbyStage, standbyStage, wakePin_of_getV (x := x) (s := s) (by simp [getV, hx])]
      rw [List.foldl_cons, List.foldl_cons, hstage]
      exact ih _ hx
  exact hfold _ s rfl

theorem stage_pinsToStandby (s : State) {n : Nat} (hn : n < 96) :
    (pinOf (pinsToStandby s) n).stage = if n < 8 ∧ wakePin s n = true then 3 else 1 := by
  rw [pinsToStandby_eq, pinOf_foldN _ _ List.nodup_range, if_pos (List.mem_range.2 hn)]
  simp [standbyStage]

theorem kaolinTw_not_noteKey : ¬ noteKey K.kaolinTw := by
  simp only [noteKey, K.kaolinTw, K.dictNotifyDrop, K.regVoteFix, K.regVoteBad, K.kaolinCanDrop, K.logOut, objKey]
  omega

theorem reached_spec (s : State) : pwrMode (reached s) = 3 ∧ domSt (reached s) 1 = domOff ∧ twSt (reached s) = twOff ∧
    ∀ n, n < 96 → (pinOf (reached s) n).stage = if n < 8 ∧ wakePin s n = true then 3 else 1 := by
  unfold reached
  set x := modPower (zeroTrusted (putN (putN s (K.domState 1) domOff) K.kaolinTw twOff))
    (fun x => { x with standbyFrom := none, wakeQueued := false, down := 0, ramp := [] }) with hx
  have hpins : Changes [.pins] x (pinsToStandby x) := pinsToStandby_ch (List.Subset.refl _) (Changes.refl _ x)
  have hkept : ∀ k, k ≠ K.pwrMode → ¬ noteKey k → getN (setMode (pinsToStandby x) 3) k = getN x k := fun k hk hnote =>
    (getN_setMode hk hnote).trans (getN_of_changes hpins (by decide) hnote)
  have hdom : getN x (K.domState 1) = domOff :=
    (getN_putN_ne (putN s (K.domState 1) domOff) twOff (by decide)).trans (getN_putN s _ _)
  have htw : getN x K.kaolinTw = twOff := getN_putN _ _ _
  have hwake : ∀ n, wakePin x n = wakePin s n := wakePin_of_getV
    ((getV_putV_ne (putN s (K.domState 1) domOff) (.num twOff) (by decide)).trans (getV_putV_ne s (.num domOff) (by decide)))
  refine ⟨pwrMode_setMode _ 3, (hkept _ (by decide) (start_not_noteKey _ (by decide))).trans hdom,
    (hkept _ (by decide) kaolinTw_not_noteKey).trans htw, fun n hn => ?_⟩
  have hstage := stage_pinsToStandby x hn
  rw [hwake] at hstage
  unfold pinOf at hstage ⊢
  rw [(setMode_ch (List.Subset.refl _) (Changes.refl _ (pinsToStandby x))).pins (by decide)]
  exact hstage

/-! ## The end of a reset (R446) -/

theorem exec_resetHoldExpiry {s : State} {a : Nat}
    (h : (s.power.resetAt = none ∧ s.power.resetOff = some a) ∨ (∃ b, s.power.resetAt = some b ∧ a = b + 10000000)) (ha : a ≤ s.now) :
    exec .resetHoldExpiry s = .next (coldStart (resetCut s) 2) := by
  have hoff : (resetCut s).power.resetOff = some a := by
    rcases h with ⟨hat, hoff⟩ | ⟨b, hat, rfl⟩
    · simp [resetCut, hat, hoff]
    · have hb : b ≤ s.now := by omega
      simp [resetCut, hat, hb, modPower]
  change execResetHoldExpiry s = _
  simp only [execResetHoldExpiry, hoff, if_pos ha]

/-! ## The obligation -/

/-- Settles O57: each start is a cold start, and each request leaves `pwrReqApply`'s or `pwrResetApply`'s effect, which settling keeps. -/
theorem powerModes : Obligations.PowerModes := by
  unfold Obligations.PowerModes
  refine ⟨fun s open0 open1 => ⟨fun hgood => exec_powerGood_again hgood open0 open1, fun hgood hok => ?good⟩,
    fun s h1 offered reversed inverted refclk => ?perst, fun s h => exec_hostAvailability_waits h,
    fun s hmode hstep hdom h0 h1 => exec_hostAvailability_runs hmode hstep hdom h0 h1,
    fun s r i h hrole hmode => ⟨exec_standby_begins h hrole hmode, fun d hd hlt => exec_standby_claimed h hrole hmode hd hlt⟩,
    fun s a hfrom hmode ha => ⟨fun hwake => ?standby, fun hwake => ?wake⟩,
    fun s r i h hrole => ⟨exec_run_wakes h hrole, exec_run_queued h hrole, exec_run_stored h hrole⟩,
    fun s r i h hrole hmode => exec_standby_inTransit h hrole hmode,
    fun s r i h hrole => ⟨exec_reset_accepted h hrole, exec_reset_refused h hrole⟩,
    fun s a h ha => ?reset⟩
  case good =>
    have hstarted := coldStart_started (openContacts s open0 open1) 1
    exact ⟨_, exec_powerGood hgood hok open0 open1, hstarted.good, hstarted.mode, hstarted.cause, hstarted.step, hstarted.start,
      one_waits_coldStart _, noSess_coldStart _, hstarted.pins, hstarted.perst0, hstarted.perst1⟩
  case perst =>
    obtain ⟨t, hexec, hpower, hchanges⟩ := exec_perstDeassert s h1 offered reversed inverted refclk
    exact ⟨t, _, hexec, portWidth_eq h1 offered, hpower, hchanges⟩
  case standby =>
    rw [exec_standbyReached hfrom hmode ha, if_neg (by simp [hwake])]
    exact ⟨_, rfl, reached_spec s⟩
  case wake =>
    have hstarted := coldStart_started (reached s) 3
    rw [exec_standbyReached hfrom hmode ha, if_pos hwake]
    exact ⟨_, rfl, hstarted.mode, hstarted.cause⟩
  case reset =>
    have hstarted := coldStart_started (resetCut s) 2
    exact ⟨_, exec_resetHoldExpiry h ha, hstarted.mode, hstarted.cause, hstarted.step, hstarted.resetOff⟩

end Sys2Proof.Proofs.PowerModes

/-! PROOFS. The family "other". The bodies are elaborated one after another, which keeps the memory of a compile of the whole text low. -/

section

set_option Elab.async false

/-!
PROOFS. O4: every command, and the passing of a nanosecond, keeps the invariant.

Each operation of the model has its lemma in Laws/Keeps*.lean. What is left is to name the lemma of each command's operation.
-/

namespace Sys2Proof.Proofs.InvariantKept

open Sys2Proof.Machine

/-- A command that a dictionary request carries keeps the invariant, by its operation's lemma. -/
theorem exec_keeps_of_request {c : Instr} (s : State) (h : c.request? ≠ none) : Ends s (exec c s) := by
  cases c with
  | openCmd => exact execOpen_keeps (Keeps.refl s)
  | close => exact execClose_keeps (Keeps.refl s)
  | keepalive => exact execKeepalive_keeps (Keeps.refl s)
  | read => exact execRead_keeps (Keeps.refl s)
  | write => exact execWrite_keeps (Keeps.refl s)
  | writeIf => exact execWriteIf_keeps (Keeps.refl s)
  | describe => exact execDescribe_keeps (Keeps.refl s)
  | readSeg => exact execReadSeg_keeps (Keeps.refl s)
  | writeSeg => exact execWriteSeg_keeps (Keeps.refl s)
  | group => exact execGroup_keeps (Keeps.refl s)
  | subscribe => exact execSubscribe_keeps (Keeps.refl s)
  | unknownOpcode => exact execUnknownOpcode_keeps (Keeps.refl s)
  | sysDefaults => exact execSysDefaults_keeps (Keeps.refl s)
  | fenceClaim => exact execFenceClaim_keeps (Keeps.refl s)
  | fenceValueWrite => exact execFenceValueWrite_keeps (Keeps.refl s)
  | progClaim => exact execProgClaim_keeps (Keeps.refl s)
  | ctxEnable => exact execCtxEnable_keeps (Keeps.refl s)
  | ctxDisable => exact execCtxDisable_keeps (Keeps.refl s)
  | surfClaim => exact execSurfClaim_keeps (Keeps.refl s)
  | surfAlloc => exact execSurfAlloc_keeps (Keeps.refl s)
  | surfRelease => exact execSurfRelease_keeps (Keeps.refl s)
  | outCommit => exact execOutCommit_keeps (Keeps.refl s)
  | outEnable => exact execOutEnable_keeps (Keeps.refl s)
  | outDisable => exact execOutDisable_keeps (Keeps.refl s)
  | outModeWrite => exact execOutModeWrite_keeps (Keeps.refl s)
  | memRetireReq => exact execMemRetireReq_keeps (Keeps.refl s)
  | memInjArm => exact execMemInjArm_keeps (Keeps.refl s)
  | vfEnable => exact execVfEnable_keeps (Keeps.refl s)
  | vfDisable => exact execVfDisable_keeps (Keeps.refl s)
  | grantWrite => exact execGrantWrite_keeps (Keeps.refl s)
  | grantShareWrite => exact execGrantShareWrite_keeps (Keeps.refl s)
  | regionWrite => exact execRegionWrite_keeps (Keeps.refl s)
  | ringOwnerWrite => exact execRingOwnerWrite_keeps (Keeps.refl s)
  | ringEnable => exact execRingEnable_keeps (Keeps.refl s)
  | ringOrderWrite => exact execRingOrderWrite_keeps (Keeps.refl s)
  | vfFlr => exact execVfFlr_keeps (Keeps.refl s)
  | migFreeze => exact execMigFreeze_keeps (Keeps.refl s)
  | migThaw => exact execMigThaw_keeps (Keeps.refl s)
  | migSave => exact execMigSave_keeps (Keeps.refl s)
  | migRestore => exact execMigRestore_keeps (Keeps.refl s)
  | logEnable => exact execLogEnable_keeps (Keeps.refl s)
  | logSwap => exact execLogSwap_keeps (Keeps.refl s)
  | attNonceWrite => exact execAttNonceWrite_keeps (Keeps.refl s)
  | panelEnable => exact execPanelEnable_keeps (Keeps.refl s)
  | panelDisable => exact execPanelDisable_keeps (Keeps.refl s)
  | panelRefCapture => exact execPanelRefCapture_keeps (Keeps.refl s)
  | panelTestRun => exact execPanelTestRun_keeps (Keeps.refl s)
  | chReset => exact execChReset_keeps (Keeps.refl s)
  | hapEnable => exact execHapEnable_keeps (Keeps.refl s)
  | hapDisable => exact execHapDisable_keeps (Keeps.refl s)
  | sndEnable => exact execSndEnable_keeps (Keeps.refl s)
  | sndDisable => exact execSndDisable_keeps (Keeps.refl s)
  | streamEnable => exact execStreamEnable_keeps (Keeps.refl s)
  | fabRelayWrite => exact execFabRelayWrite_keeps (Keeps.refl s)
  | fabRelayRead => exact execFabRelayRead_keeps (Keeps.refl s)
  | spreadEnable => exact execSpreadEnable_keeps (Keeps.refl s)
  | spreadDisable => exact execSpreadDisable_keeps (Keeps.refl s)
  | spreadCommit => exact execSpreadCommit_keeps (Keeps.refl s)
  | domHoldWrite => exact execDomHoldWrite_keeps (Keeps.refl s)
  | pwrReqStandby => exact execPwrReqStandby_keeps (Keeps.refl s)
  | pwrReqRun => exact execPwrReqRun_keeps (Keeps.refl s)
  | pwrReset => exact execPwrReset_keeps (Keeps.refl s)
  | islGateWrite => exact execIslGateWrite_keeps (Keeps.refl s)
  | islRateWrite => exact execIslRateWrite_keeps (Keeps.refl s)
  | grogRetest => exact execGrogRetest_keeps (Keeps.refl s)
  | diagEnable => exact execDiagEnable_keeps (Keeps.refl s)
  | spFuncWrite => exact execSpFuncWrite_keeps (Keeps.refl s)
  | spPwmWrite => exact execSpPwmWrite_keeps (Keeps.refl s)
  | _ => exact absurd rfl h

/-- Any other command keeps the invariant, by its operation's lemma. -/
theorem exec_keeps_of_noRequest {c : Instr} (s : State) (h : c.request? = none) : Ends s (exec c s) := by
  cases c with
  | malformedPdu => exact execMalformedPdu_keeps (Keeps.refl s)
  | leaseExpiry => exact execLeaseExpiry_keeps (Keeps.refl s)
  | portalGo => exact execPortalGo_keeps (Keeps.refl s)
  | portalResponse => exact execPortalResponse_keeps (Keeps.refl s)
  | canSegmentRx => exact execCanSegmentRx_keeps (Keeps.refl s)
  | eventFrameTx => exact execEventFrameTx_keeps (Keeps.refl s)
  | twDictRequest => exact execTwDictRequest_keeps (Keeps.refl s)
  | doorbell => exact execDoorbell_keeps (Keeps.refl s)
  | cqHeadWrite => exact execCqHeadWrite_keeps (Keeps.refl s)
  | evtPendClear => exact execEvtPendClear_keeps (Keeps.refl s)
  | evtMaskWrite => exact execEvtMaskWrite_keeps (Keeps.refl s)
  | snapSel => exact execSnapSel_keeps (Keeps.refl s)
  | registerWrite => exact execRegisterWrite_keeps (Keeps.refl s)
  | nop hdr => exact show Ends s (execNop hdr s) from execNop_keeps (Keeps.refl s)
  | commandBadop hdr x => exact show Ends s (execCommandBadop hdr x s) from execCommandBadop_keeps (Keeps.refl s)
  | fenceSignal hdr x y => exact show Ends s (execFenceSignal hdr x y s) from execFenceSignal_keeps (Keeps.refl s)
  | fenceWait hdr x y z => exact show Ends s (execFenceWait hdr x y z s) from execFenceWait_keeps (Keeps.refl s)
  | fenceWaitTimeout => exact execFenceWaitTimeout_keeps (Keeps.refl s)
  | drawSubmit hdr x => exact show Ends s (execDrawSubmit hdr x s) from execDrawSubmit_keeps (Keeps.refl s)
  | computeDispatch hdr x y z => exact show Ends s (execComputeDispatch hdr x y z s) from execComputeDispatch_keeps (Keeps.refl s)
  | translationDone => exact execTranslationDone_keeps (Keeps.refl s)
  | tilePhaseStart => exact execTilePhaseStart_keeps (Keeps.refl s)
  | coreDispatchPoint => exact execCoreDispatchPoint_keeps (Keeps.refl s)
  | tileDone => exact execTileDone_keeps (Keeps.refl s)
  | workgroupDone => exact execWorkgroupDone_keeps (Keeps.refl s)
  | gpuWatchdog => exact execGpuWatchdog_keeps (Keeps.refl s)
  | coreFault => exact execCoreFault_keeps (Keeps.refl s)
  | ctxStopDone => exact execCtxStopDone_keeps (Keeps.refl s)
  | arbitration => exact execArbitration_keeps (Keeps.refl s)
  | preemptDone => exact execPreemptDone_keeps (Keeps.refl s)
  | compositorRowEligible => exact execCompositorRowEligible_keeps (Keeps.refl s)
  | rowComposeDone => exact execRowComposeDone_keeps (Keeps.refl s)
  | rowPrefetchPoint => exact execRowPrefetchPoint_keeps (Keeps.refl s)
  | scanoutWake => exact execScanoutWake_keeps (Keeps.refl s)
  | surfScrubDone => exact execSurfScrubDone_keeps (Keeps.refl s)
  | copy hdr x => exact show Ends s (execCopy hdr x s) from execCopy_keeps (Keeps.refl s)
  | convert hdr x => exact show Ends s (execConvert hdr x s) from execConvert_keeps (Keeps.refl s)
  | layerSet hdr x => exact show Ends s (execLayerSet hdr x s) from execLayerSet_keeps (Keeps.refl s)
  | commit hdr x => exact show Ends s (execCommit hdr x s) from execCommit_keeps (Keeps.refl s)
  | outputStopDone => exact execOutputStopDone_keeps (Keeps.refl s)
  | closePoint => exact execClosePoint_keeps (Keeps.refl s)
  | vbs => exact execVbs_keeps (Keeps.refl s)
  | frameStart => exact execFrameStart_keeps (Keeps.refl s)
  | lineMatch => exact execLineMatch_keeps (Keeps.refl s)
  | frameDone => exact execFrameDone_keeps (Keeps.refl s)
  | underrun => exact execUnderrun_keeps (Keeps.refl s)
  | linkTrainingDone => exact execLinkTrainingDone_keeps (Keeps.refl s)
  | linkRetryTimer => exact execLinkRetryTimer_keeps (Keeps.refl s)
  | hpdRise => exact execHpdRise_keeps (Keeps.refl s)
  | hpdFall => exact execHpdFall_keeps (Keeps.refl s)
  | engineFault => exact execEngineFault_keeps (Keeps.refl s)
  | kaolinCommit => exact execKaolinCommit_keeps (Keeps.refl s)
  | kaolinSramWrite => exact execKaolinSramWrite_keeps (Keeps.refl s)
  | sigCompare => exact execSigCompare_keeps (Keeps.refl s)
  | memRead => exact execMemRead_keeps (Keeps.refl s)
  | memWrite => exact execMemWrite_keeps (Keeps.refl s)
  | ceBucketExpiry => exact execCeBucketExpiry_keeps (Keeps.refl s)
  | groupTrainingDone => exact execGroupTrainingDone_keeps (Keeps.refl s)
  | sparePatternTestDone => exact execSparePatternTestDone_keeps (Keeps.refl s)
  | migrationDone => exact execMigrationDone_keeps (Keeps.refl s)
  | dqsOscCheck => exact execDqsOscCheck_keeps (Keeps.refl s)
  | scrubBurst => exact execScrubBurst_keeps (Keeps.refl s)
  | refresh => exact execRefresh_keeps (Keeps.refl s)
  | rankPowerDown => exact execRankPowerDown_keeps (Keeps.refl s)
  | selfRefreshEntry => exact execSelfRefreshEntry_keeps (Keeps.refl s)
  | resizeDone => exact execResizeDone_keeps (Keeps.refl s)
  | pcieFlr => exact execPcieFlr_keeps (Keeps.refl s)
  | vfEnableClear => exact execVfEnableClear_keeps (Keeps.refl s)
  | pfFlr => exact execPfFlr_keeps (Keeps.refl s)
  | flrDone => exact execFlrDone_keeps (Keeps.refl s)
  | freezeDone => exact execFreezeDone_keeps (Keeps.refl s)
  | imageDone => exact execImageDone_keeps (Keeps.refl s)
  | logSwapDone => exact execLogSwapDone_keeps (Keeps.refl s)
  | gateQuote => exact execGateQuote_keeps (Keeps.refl s)
  | gateRandom => exact execGateRandom_keeps (Keeps.refl s)
  | gateReleaseAsk => exact execGateReleaseAsk_keeps (Keeps.refl s)
  | gateBadsvc => exact execGateBadsvc_keeps (Keeps.refl s)
  | gateRelease => exact execGateRelease_keeps (Keeps.refl s)
  | trustedTargetAccess => exact execTrustedTargetAccess_keeps (Keeps.refl s)
  | pinTWrite => exact execPinTWrite_keeps (Keeps.refl s)
  | dmaTWrite => exact execDmaTWrite_keeps (Keeps.refl s)
  | claimHoldWrite => exact execClaimHoldWrite_keeps (Keeps.refl s)
  | cutNoticeExpiry => exact execCutNoticeExpiry_keeps (Keeps.refl s)
  | watchdogKick => exact execWatchdogKick_keeps (Keeps.refl s)
  | watchdogExpiry => exact execWatchdogExpiry_keeps (Keeps.refl s)
  | lockstepFault => exact execLockstepFault_keeps (Keeps.refl s)
  | twRestartRequest => exact execTwRestartRequest_keeps (Keeps.refl s)
  | twRestartDone => exact execTwRestartDone_keeps (Keeps.refl s)
  | quoteSigned => exact execQuoteSigned_keeps (Keeps.refl s)
  | touchFrameMark => exact execTouchFrameMark_keeps (Keeps.refl s)
  | stuckTimeout => exact execStuckTimeout_keeps (Keeps.refl s)
  | driftEntry => exact execDriftEntry_keeps (Keeps.refl s)
  | driftFrame => exact execDriftFrame_keeps (Keeps.refl s)
  | panelStartDone => exact execPanelStartDone_keeps (Keeps.refl s)
  | panelStopDone => exact execPanelStopDone_keeps (Keeps.refl s)
  | effectDue => exact execEffectDue_keeps (Keeps.refl s)
  | brakingStart => exact execBrakingStart_keeps (Keeps.refl s)
  | brakingEnd => exact execBrakingEnd_keeps (Keeps.refl s)
  | queueHeadTimeout => exact execQueueHeadTimeout_keeps (Keeps.refl s)
  | effectDeadline => exact execEffectDeadline_keeps (Keeps.refl s)
  | hapTrip => exact execHapTrip_keeps (Keeps.refl s)
  | tripProbe => exact execTripProbe_keeps (Keeps.refl s)
  | onTimeCut => exact execOnTimeCut_keeps (Keeps.refl s)
  | dutyCut => exact execDutyCut_keeps (Keeps.refl s)
  | accelTimeout => exact execAccelTimeout_keeps (Keeps.refl s)
  | driverFault => exact execDriverFault_keeps (Keeps.refl s)
  | hapReady => exact execHapReady_keeps (Keeps.refl s)
  | interlockOpen => exact execInterlockOpen_keeps (Keeps.refl s)
  | interlockClosed => exact execInterlockClosed_keeps (Keeps.refl s)
  | audioPeriod => exact execAudioPeriod_keeps (Keeps.refl s)
  | avtpPacketRx => exact execAvtpPacketRx_keeps (Keeps.refl s)
  | avtpPacketTx => exact execAvtpPacketTx_keeps (Keeps.refl s)
  | clockLockChange => exact execClockLockChange_keeps (Keeps.refl s)
  | chimeStart => exact execChimeStart_keeps (Keeps.refl s)
  | chimeStop => exact execChimeStop_keeps (Keeps.refl s)
  | chimeEnd => exact execChimeEnd_keeps (Keeps.refl s)
  | laneTrainingDone => exact execLaneTrainingDone_keeps (Keeps.refl s)
  | linkFailedRetry => exact execLinkFailedRetry_keeps (Keeps.refl s)
  | packetRx => exact execPacketRx_keeps (Keeps.refl s)
  | linkTimeout => exact execLinkTimeout_keeps (Keeps.refl s)
  | linkHoldExpiry => exact execLinkHoldExpiry_keeps (Keeps.refl s)
  | hello => exact execHello_keeps (Keeps.refl s)
  | linkStateRecordRx => exact execLinkStateRecordRx_keeps (Keeps.refl s)
  | fabricStable => exact execFabricStable_keeps (Keeps.refl s)
  | syncExchange => exact execSyncExchange_keeps (Keeps.refl s)
  | relayedPduRx => exact execRelayedPduRx_keeps (Keeps.refl s)
  | relayReplyRx => exact execRelayReplyRx_keeps (Keeps.refl s)
  | spreadClosePoint => exact execSpreadClosePoint_keeps (Keeps.refl s)
  | spreadStateRx => exact execSpreadStateRx_keeps (Keeps.refl s)
  | spreadMemberLost => exact execSpreadMemberLost_keeps (Keeps.refl s)
  | powerGood => exact execPowerGood_keeps (Keeps.refl s)
  | domainRampStart => exact execDomainRampStart_keeps (Keeps.refl s)
  | domainRampDone => exact execDomainRampDone_keeps (Keeps.refl s)
  | domainOn => exact execDomainOn_keeps (Keeps.refl s)
  | domainOff => exact execDomainOff_keeps (Keeps.refl s)
  | domTwWrite => exact execDomTwWrite_keeps (Keeps.refl s)
  | standbyReached => exact execStandbyReached_keeps (Keeps.refl s)
  | wakeCanFrame => exact execWakeCanFrame_keeps (Keeps.refl s)
  | resetHoldExpiry => exact execResetHoldExpiry_keeps (Keeps.refl s)
  | perstDeassert => exact execPerstDeassert_keeps (Keeps.refl s)
  | hostAvailability => exact execHostAvailability_keeps (Keeps.refl s)
  | thermalSample => exact execThermalSample_keeps (Keeps.refl s)
  | throttleStepTimer => exact execThrottleStepTimer_keeps (Keeps.refl s)
  | supplyChange => exact execSupplyChange_keeps (Keeps.refl s)
  | emergencyClear => exact execEmergencyClear_keeps (Keeps.refl s)
  | timeUpdate => exact execTimeUpdate_keeps (Keeps.refl s)
  | mramRowWrite => exact execMramRowWrite_keeps (Keeps.refl s)
  | sidePinEdge => exact execSidePinEdge_keeps (Keeps.refl s)
  | hapticPlay hdr x => exact show Ends s (execHapticPlay hdr x s) from execHapticPlay_keeps (Keeps.refl s)
  | touchBuf hdr x => exact show Ends s (execTouchBuf hdr x s) from execTouchBuf_keeps (Keeps.refl s)
  | attackEnd => exact execAttackEnd_keeps (Keeps.refl s)
  | effectFits => exact execEffectFits_keeps (Keeps.refl s)
  | balanceMoveStart => exact execBalanceMoveStart_keeps (Keeps.refl s)
  | balanceMoveDone => exact execBalanceMoveDone_keeps (Keeps.refl s)
  | linkBringUp => exact execLinkBringUp_keeps (Keeps.refl s)
  | _ => exact absurd h (Option.some_ne_none _)

theorem exec_keeps (c : Instr) (s : State) : Ends s (exec c s) := by
  by_cases h : c.request? = none
  · exact exec_keeps_of_noRequest s h
  · exact exec_keeps_of_request s h

/-- The invariant does not speak of the queue. -/
theorem inv_of_pending {s : State} (h : Inv s) (q : List Instr) : Inv { s with pending := q } :=
  { h with free := h.free }

/-- Settles O4: the front command keeps the invariant on the queue's rest, and so does a nanosecond on an empty queue. -/
theorem stepKeepsInvariant : Obligations.StepKeepsInvariant := by
  unfold Obligations.StepKeepsInvariant
  intro s t hinv hstep
  unfold step at hstep
  split at hstep
  · next =>
    cases hstep
    exact (tick_keeps (Keeps.refl s)).inv hinv
  · next c rest _ => exact ((exec_keeps c { s with pending := rest }).next t hstep).inv (inv_of_pending hinv rest)

end Sys2Proof.Proofs.InvariantKept

/-!
PROOFS. O5: what a command may change of the state.

The lines of `mayChange` for TILE_PHASE_START, WORKGROUP_DONE and GPU_WATCHDOG leave out the interrupts to the Ehrica controller. But after each of
them the front end goes on to the context's next pass, and reads that pass's list from module memory. An error met there can retire a
rank, and where the trusted world withholds the domain of the spare it is interrupted (R475).
-/

namespace Sys2Proof.Proofs.FrontEndInterrupts

open Sys2Proof.Machine

/-! ## A word with two wrong check symbols (R253, R254) -/

/-- A data column has 1 as its first entry, so an error in a data symbol stands in the syndrome's first entry. -/
theorem gfColumn_data_mod {i e : Nat} (hi : i < 32) (he : e < 16) : gfColumn (eccColumn16 i) e % 16 = e := by
  have hone : ∀ e, e < 16 → gfMul 1 e = e := by decide +kernel
  have hcolumn : eccColumn16 i % 16 = 1 := by
    simp only [eccColumn16, eccColumnOf, hi, if_true]
    omega
  have hmul : gfMul (eccColumn16 i % 16) e = e := by rw [hcolumn, hone e he]
  simp only [gfColumn]
  omega

/-- No single wrong symbol has the syndrome 0x110: one in a data symbol shows in its first entry, one in a check symbol in one entry only. -/
theorem gfColumn_ne_twoSymbols {i e : Nat} (hi : i < 36) (he : e < 16) (h0 : e ≠ 0) : gfColumn (eccColumn16 i) e ≠ 0x110 := by
  rcases Nat.lt_or_ge i 32 with hdata | hcheck
  · intro h
    have hmod := gfColumn_data_mod hdata he
    omega
  · have hnone : ∀ j, j < 4 → ∀ e, e < 16 → gfColumn (eccColumn16 (32 + j)) e ≠ 0x110 := by decide +kernel
    obtain ⟨j, rfl⟩ := Nat.exists_eq_add_of_le hcheck
    exact hnone j (by omega) e he

theorem singleErrors_twoSymbols : singleErrors 0x110 = [] := by
  unfold singleErrors
  rw [List.flatMap_eq_nil_iff]
  intro i hi
  rw [List.map_eq_nil_iff, List.filter_eq_nil_iff]
  intro e he
  simp only [Bool.and_eq_true, bne_iff_ne, ne_eq, beq_iff_eq, not_and]
  exact gfColumn_ne_twoSymbols (List.mem_range.mp hi) (List.mem_range.mp he)

/-- The word of zeros with one bit wrong in each of check symbols 33 and 34. -/
def badWord : Nat := 0x110 * 2 ^ 128

theorem syndrome_badWord : syndrome badWord = 0x110 := by decide +kernel

theorem decodeWord_badWord : decodeWord badWord = .uncorrectable := by
  simp only [decodeWord, syndrome_badWord, singleErrors_twoSymbols]
  rfl

/-! ## The state: a binned pass, and one behind it whose list lies in that word -/

/-- The first pass of the context: binned, with one tile. -/
def binned : Pass :=
  { id := 1, ticket := { func := 0, epoch := 0, ring := 0, local_ := 0, index := 1, op := 0x20, tag := 0, complete := false, irq := false }
    compute := false, frame := 1, parsed := true, handles := [], targets := [], writes := [], reads := [], area := (0, 0, 0, 0)
    silt := 0, rw := false, phase := 1, total := 1 }

/-- The pass behind it, of one word of list in the memory of handle 7. -/
def unread : Pass := { binned with id := 2, parsed := false, phase := 0, list := 2 ^ 63 + 7, len := 16 }

/-- PD10 is on, group 0 in use with the word as the first of rank 0, and PD18, the domain of both spare ranks, claimed and off. -/
def beforeStart : State :=
  { storeWord (putN (putN (putN State.reset (K.domState 10) domOn) (K.grpState 0) 2) (K.claimHold 18) 1) 0 0 badWord with
    scrubs := [{ slot := 7, handle := 7, owner := 0, unit := 0, base := 0, size := 16 }]
    ctxs := [(0, { passes := [binned, unread] })] }

/-- The first pass is in its tile phase. -/
def tilePhase : State := modPass beforeStart 0 1 (fun p => { p with phase := 2 })

/-- The list's word was lost, and its rank retired. -/
def wordLost : State := lastingError (touchRank tilePhase 0) 0 0 0x110 1

/-- The second pass ended with FAULT. -/
def passFaulted : State := passFault (removePass wordLost 0 2) 0 unread.ticket causeRecord 0xFFFFFFFF

/-! ## What TILE_PHASE_START does there -/

theorem fetchWord_badWord : fetchWord (touchRank tilePhase 0) 0 0 = (wordLost, none) := by
  have hstored : storedWord (touchRank tilePhase 0) (readFrom (touchRank tilePhase 0) 0 0) 0 ^^^ 0 = badWord := by decide +kernel
  have hplain : (touchRank tilePhase 0).mem.injected.contains (readFrom (touchRank tilePhase 0) 0 0 * rankWords + 0) = false := by
    decide +kernel
  simp only [fetchWord, readWord, hstored, hplain, decodeWord_badWord, syndrome_badWord, Bool.false_eq_true, if_false, wordLost]
  rfl

theorem parsePass_unread : parsePass tilePhase unread = (wordLost, .error (causeRecord, 0xFFFFFFFF)) := by
  have hlist : refSurface unread.list = some (7, 0) := by decide +kernel
  have hplace : handlePlace tilePhase 7 = some (0, 0) := by decide +kernel
  have hrank : rankOfUnit tilePhase 0 = 0 := by decide +kernel
  have hwords : wordsOf (0 + (0 + 0)) unread.len = [0] := by decide
  simp only [parsePass, readRef, hlist, readHandle, hplace, hrank, readRank, hwords, List.foldl_cons, List.foldl_nil, fetchWord_badWord]
  rfl

theorem binStep_tilePhase : binStep tilePhase 0 = some passFaulted := by
  have hpass : (ctxOf tilePhase 0).passes.find? (fun p => p.phase == 0) = some unread := by decide +kernel
  have hruns : ¬ (ctxFrozen tilePhase 0 ∨ domSt tilePhase 10 ≠ domOn) := by decide +kernel
  have hframe : ¬ (!unread.compute ∧ (ctxOf tilePhase 0).dropFrame = some unread.frame) := by decide +kernel
  have hfront : ¬ (!frontMay ((ctxOf tilePhase 0).passes.takeWhile (fun q => q.id != unread.id)) unread) := by decide +kernel
  simp only [binStep, hpass, hruns, hframe, hfront, if_false, parsePass_unread]
  rfl

theorem binAll_tilePhase : binAll 9 tilePhase 0 = passFaulted := by
  have hend : binStep passFaulted 0 = none := by decide +kernel
  simp only [binAll, binStep_tilePhase, hend]

theorem ctxChanged_tilePhase : ctxChanged tilePhase 0 = preemptReady (arbitrate passFaulted) 0 := by
  have hbin : binAll (3 * (ctxOf tilePhase 0).passes.length + 3) tilePhase 0 = passFaulted := binAll_tilePhase
  have hsignals : passFaulted.signals = [] := by decide +kernel
  have hrun : runSignals (passFaulted.signals.length + 1) passFaulted = passFaulted := by simp [runSignals, hsignals]
  simp only [ctxChanged, hbin, hrun]

theorem exec_tilePhaseStart : exec (.tilePhaseStart 0) beforeStart = .next (ctxChanged tilePhase 0) := rfl

/-- The trusted world was interrupted. -/
theorem interrupted : (ctxChanged tilePhase 0).ehrica ≠ beforeStart.ehrica := by
  rw [ctxChanged_tilePhase]
  decide +kernel

/-- Refutes O5: TILE_PHASE_START's line leaves out `ehrica`, and yet it interrupts the trusted world where the next pass's list lies in a
word that is lost for good, whose rank is then due for a spare in a domain that the trusted world withholds. -/
theorem not_commandsChangeNoMore : ¬ Obligations.CommandsChangeNoMore := by
  unfold Obligations.CommandsChangeNoMore
  intro h
  obtain ⟨hchanges, -⟩ := h (.tilePhaseStart 0) beforeStart _ exec_tilePhaseStart
  exact interrupted (hchanges.ehrica (by decide))

end Sys2Proof.Proofs.FrontEndInterrupts

/-!
PROOFS. O6, O7, O8, O10, O18: opening a session, what it does to itself, the check of the leases, and what is refused before a session.
-/

namespace Sys2Proof.Proofs.Sessions

open Sys2Proof.Machine

/-! ## Requests without a session -/

theorem status_fitted_of_refusal {r : DictReq} {a : Answer} (h : a.status ≠ .ok ∧ a.status ≠ .intransit) :
    (fitted r a).status = a.status ∧ (fitted r a).state = a.state := by
  unfold fitted tooLong
  rw [if_neg (not_or.mpr h)]
  split <;> exact ⟨rfl, rfl⟩

/-- A request that needs no session, whether or not its response fits. -/
theorem request_sessionless_fitted {s : State} {r : DictReq} {q : Request} {found : Option Nat} (h0 : r.session = 0)
    (hp : pathUp s r.src = true) (hq : sessionless q = true) (hsize : 12 + lenOf q ≤ maxPdu r.src)
    (hserved : r.src = .can → s.served = true ∨ sbServes q = true) :
    request s r q found = .next (afterSessionless r (opOf q) (fitted r
      (execRequest s { role := roleOf s r.src, func := funcOfCarrier r.src, found := found } (some r.src) (maxPdu r.src) q))) := by
  have hreq : requester s r = { role := roleOf s r.src, func := funcOfCarrier r.src } := by
    unfold requester
    rw [h0, show (0 : BitVec 16).toNat = 0 from rfl, slotOfId_zero]
  have hbusy : ¬ (r.src = .can ∧ !s.served ∧ !sbServes q) := by
    rintro ⟨hc, hs, hb⟩
    rcases hserved hc with h2 | h2
    · simp [h2] at hs
    · simp [h2] at hb
  have hadm : admitted s r q (12 + lenOf q) found = fitted r (execRequest s
      { role := roleOf s r.src, func := funcOfCarrier r.src, found := found } (some r.src) (maxPdu r.src) q) := by
    unfold admitted
    rw [if_neg hbusy, hreq]
    dsimp only
    rw [if_neg (by omega)]
    rfl
  unfold request dictRequest
  simp only [hp, Bool.not_true, Bool.false_eq_true, if_false, h0, if_true, hq, hadm]
  unfold afterSessionless responseOf
  rw [h0]

/-- The shortest of the transports' largest PDUs is the side-band's. -/
theorem le_maxPdu {n : Nat} (h : n ≤ 504) (c : Carrier) : n ≤ maxPdu c := by
  cases c <;> simp only [maxPdu] <;> omega

/-! ## OPEN (R27, R28) -/

/-- The lease that an OPEN asks for, or sess.lease. -/
def leaseFor (s : State) (lease : Nat) : Nat := if lease = 0 then getN s (objKey 0x1302 0) else lease

/-- The session that an OPEN begins in a slot. -/
def newSession (s : State) (src : Carrier) (lease tag i : Nat) : Session :=
  { isOpen := true, gen := nextSessGen (sessOf s i).gen, role := roleOf s src, func := funcOfCarrier src, src := some src
    tag := tag, lease := leaseFor s lease, renewed := s.now }

theorem opOpen_free {s : State} {src : Carrier} {lease tag i : Nat} {rest : List Nat} (hfree : s.freeSlots = i :: rest)
    (hl : lease = 0 ∨ 100 ≤ lease ∧ lease ≤ 60000) (hsb : src = .can → sbSessions s < 4) :
    opOpen s src lease tag = ⟨{ s with sess := tset s.sess i (newSession s src lease tag i), freeSlots := rest }, .ok,
      leBytes 2 (i + 64 * nextSessGen (sessOf s i).gen) ++ leBytes 2 (leaseFor s lease) ++ leBytes 1 (roleOf s src).code ++ leBytes 3 0,
      false, 0⟩ := by
  have hrange : ¬ (lease ≠ 0 ∧ (lease < 100 ∨ 60000 < lease)) := by omega
  have hfull : ¬ (src = .can ∧ 4 ≤ sbSessions s) := fun h => absurd h.2 (by have := hsb h.1; omega)
  unfold opOpen
  simp only [hrange, hfull, hfree, if_false, sessId, sessOf, tget_tset_same]
  rfl

theorem opOpen_full {s : State} {src : Carrier} {lease tag : Nat} (hfree : s.freeSlots = [])
    (hl : lease = 0 ∨ 100 ≤ lease ∧ lease ≤ 60000) : opOpen s src lease tag = refused s .full := by
  have hrange : ¬ (lease ≠ 0 ∧ (lease < 100 ∨ 60000 < lease)) := by omega
  unfold opOpen
  simp only [hrange, hfree, if_false, ite_self]

/-- Settles O6: an OPEN is executed without a session, and `opOpen` gives out the first free slot or is full. -/
theorem openSession : Obligations.OpenSession := by
  unfold Obligations.OpenSession
  have hlease : ∀ {lease : BitVec 16}, (lease = 0 ∨ 100 ≤ lease.toNat ∧ lease.toNat ≤ 60000) →
      (lease.toNat = 0 ∨ 100 ≤ lease.toNat ∧ lease.toNat ≤ 60000) := fun h => h.imp_left fun h0 => by rw [h0]; rfl
  refine ⟨fun s r lease tag i rest h0 hp hfree hl hsb => ?_, fun s r lease tag h0 hp hfree hl => ?_⟩
  · have hz : leaseFor s lease.toNat = if lease = 0 then getN s (objKey 0x1302 0) else lease.toNat := by
      simp only [leaseFor, ← BitVec.toNat_inj, show (0 : BitVec 16).toNat = 0 from rfl]
    have hans := opOpen_free (tag := tag.toNat) hfree (hlease hl) hsb
    have hrun := request_sessionless (q := .openSession lease tag) (found := none) h0 hp rfl (le_maxPdu (n := 20) (by decide) _) (fun _ => .inr rfl)
      (by
        change 12 + (opOpen s r.src lease.toNat tag.toNat).payload.length ≤ _
        rw [hans]
        simp only [List.length_append, length_leBytes]
        exact le_maxPdu (by decide) _)
    change execOpen r lease tag s = .next (afterSessionless r 0x01 (opOpen s r.src lease.toNat tag.toNat)) at hrun
    rw [hans] at hrun
    rw [← hz]
    refine ⟨_, _, hrun, rfl, rfl, rfl, rfl, rfl, ?_, fun j hj => ?_, ?_⟩
    · exact tget_tset_same _ _ _ _
    · exact tget_tset_ne _ _ _ hj
    · exact ch_resp (ch_sess_freeSlots (Changes.refl _ s) (by decide) (by decide)) (by decide)
  · have hrun := request_sessionless_fitted (q := .openSession lease tag) (found := none) h0 hp rfl (le_maxPdu (n := 20) (by decide) _)
      (fun _ => .inr rfl)
    change execOpen r lease tag s = .next (afterSessionless r 0x01 (fitted r (opOpen s r.src lease.toNat tag.toNat))) at hrun
    rw [opOpen_full hfree (hlease hl)] at hrun
    obtain ⟨hst, hstate⟩ := status_fitted_of_refusal (r := r) (a := refused s .full) ⟨nofun, nofun⟩
    refine ⟨_, hrun, ⟨_, rfl, rfl, rfl, rfl, hst⟩, ?_⟩
    refine ch_resp ?_ (by decide)
    rw [hstate]
    exact draw_ch (by decide) (Changes.refl _ s)

/-! ## CLOSE, KEEPALIVE, SUBSCRIBE (R28, R29, R39) -/

theorem slotOfId_spec {s : State} {id i : Nat} (h : slotOfId s id = some i) :
    id % 64 = i ∧ (sessOf s i).isOpen = true ∧ sessId s i = id := by
  unfold slotOfId at h
  dsimp only at h
  split at h
  · next hc =>
    obtain ⟨-, hopen, hid, -⟩ := hc
    cases h
    exact ⟨rfl, hopen, hid⟩
  · cases h

theorem sessOf_closeSession {s : State} {i : Nat} (h : (sessOf s i).isOpen = true) :
    sessOf (closeSession s i) i = { gen := (sessOf s i).gen } := by
  unfold closeSession
  rw [if_pos h]
  exact tget_tset_same _ _ _ _

theorem sessOf_closeSession_ne (s : State) {i j : Nat} (h : j ≠ i) : sessOf (closeSession s i) j = sessOf s j := by
  unfold closeSession
  split
  · exact tget_tset_ne _ _ _ h
  · rfl

theorem freeSlots_closeSession {s : State} {i : Nat} (h : (sessOf s i).isOpen = true) :
    (closeSession s i).freeSlots = s.freeSlots ++ [i] := by
  unfold closeSession
  rw [if_pos h]

/-- The identifier of a session that has ended names none. -/
theorem slotOfId_closeSession {s : State} {id i : Nat} (h : slotOfId s id = some i) : slotOfId (closeSession s i) id = none := by
  obtain ⟨hmod, hopen, -⟩ := slotOfId_spec h
  unfold slotOfId
  rw [hmod]
  simp [sessOf_closeSession hopen]

/-- Settles O7: each command's answer is read off `execRequest`, and only the session's own entry moves. -/
theorem sessionCommands : Obligations.SessionCommands := by
  unfold Obligations.SessionCommands
  refine ⟨fun s r i h => ?_, fun s r i h => ?_, fun s r i mask h => ?_⟩
  · have hslot : slotOfId (renewed s i) r.session.toNat = some i := (slotOfId_renewed ..).trans h.slot
    obtain ⟨-, hopen, -⟩ := slotOfId_spec hslot
    have hans : sessionAnswer s r i .close none = ⟨closeSession (renewed s i) i, .ok, [], false, 0⟩ := by
      simp only [sessionAnswer, execRequest, hslot]
    have hrun := request_admitted (found := none) h (by rw [hans]; exact le_maxPdu (n := 12) (by decide) _)
    rw [hans] at hrun
    have hafter : afterAnswer r i 0x02 ⟨closeSession (renewed s i) i, .ok, [], false, 0⟩ =
        { closeSession (renewed s i) i with resp := some (r.src, responseOf r 0x02 ⟨closeSession (renewed s i) i, .ok, [], false, 0⟩) } := by
      simp only [afterAnswer, slotOfId_closeSession hslot]
      rfl
    refine ⟨_, hrun, answered_afterAnswer .., ?_, ?_, fun j hj => ?_, ?_⟩
    · rw [show opOf .close = 0x02 from rfl, hafter]
      refine (sessOf_closeSession hopen).trans ?_
      rw [sessOf_renewed]
    · rw [show opOf .close = 0x02 from rfl, hafter]
      exact freeSlots_closeSession hopen
    · rw [sessOf_afterAnswer_ne _ _ _ hj]
      exact (sessOf_closeSession_ne _ hj).trans (sessOf_renewed_ne s hj)
    · exact admitted_changes r i _ _ (by decide) (by decide) (closeSession_ch (by decide) (Changes.refl _ _))
  · have hans : sessionAnswer s r i .keepalive none = ⟨renewed s i, .ok, leBytes 8 s.now, false, 0⟩ := rfl
    have hrun := request_admitted (found := none) h (by rw [hans]; exact le_maxPdu (by simp [length_leBytes]) _)
    rw [hans] at hrun
    obtain ⟨c, hc⟩ := sessOf_afterAnswer r i 0x03 ⟨renewed s i, .ok, leBytes 8 s.now, false, 0⟩
    refine ⟨_, _, hrun, rfl, rfl, rfl, rfl, ?_, fun j hj => ?_, ?_⟩
    · rw [show opOf .keepalive = 0x03 from rfl, hc, sessOf_renewed]
    · rw [sessOf_afterAnswer_ne _ _ _ hj]
      exact sessOf_renewed_ne s hj
    · exact admitted_changes r i _ _ (by decide) (by decide) (Changes.refl _ _)
  · have hslot : slotOfId (renewed s i) r.session.toNat = some i := (slotOfId_renewed ..).trans h.slot
    have hans : sessionAnswer s r i (.subscribe mask) none =
        ⟨modSess (renewed s i) i (fun x => { x with mask := mask.toNat }), .ok, [], false, 0⟩ := by
      simp only [sessionAnswer, execRequest, hslot]
    have hrun := request_admitted (found := none) h (by rw [hans]; exact le_maxPdu (n := 12) (by decide) _)
    rw [hans] at hrun
    obtain ⟨c, hc⟩ := sessOf_afterAnswer r i 0x20 ⟨modSess (renewed s i) i (fun x => { x with mask := mask.toNat }), .ok, [], false, 0⟩
    refine ⟨_, hrun, answered_afterAnswer .., ?_, ?_, fun j hj => ?_, ?_⟩
    · rw [show opOf (.subscribe mask) = 0x20 from rfl, hc, sessOf_modSess]
    · rw [show opOf (.subscribe mask) = 0x20 from rfl, hc, sessOf_modSess, sessOf_renewed]
    · rw [sessOf_afterAnswer_ne _ _ _ hj]
      exact (sessOf_modSess_ne _ _ hj).trans (sessOf_renewed_ne s hj)
    · exact admitted_changes r i _ _ (by decide) (by decide) (ch_sess (Changes.refl _ _) (by decide))

/-! ## The check of the leases (R28, R29) -/

theorem mem_freeSlots_closeSession {s : State} {i j : Nat} :
    j ∈ (closeSession s i).freeSlots ↔ j ∈ s.freeSlots ∨ (j = i ∧ (sessOf s i).isOpen = true) := by
  by_cases h : (sessOf s i).isOpen = true
  · simp [freeSlots_closeSession h, h]
  · simp [closeSession, h]

/-- A slot that is free already stays as it is. -/
theorem sessOf_foldN_closeSession_free {l : List Nat} {s : State} {i : Nat} (h : (sessOf s i).isOpen = false) :
    sessOf (foldN l closeSession s) i = sessOf s i := by
  induction l generalizing s with
  | nil => rfl
  | cons k l ih =>
    have hstep : sessOf (closeSession s k) i = sessOf s i := by
      by_cases hk : i = k
      · subst hk
        simp [closeSession, h]
      · exact sessOf_closeSession_ne s hk
    exact (ih (by rw [hstep]; exact h)).trans hstep

theorem sessOf_foldN_closeSession_of_not_mem {l : List Nat} {s : State} {i : Nat} (h : i ∉ l) :
    sessOf (foldN l closeSession s) i = sessOf s i := by
  induction l generalizing s with
  | nil => rfl
  | cons k l ih =>
    rw [List.mem_cons, not_or] at h
    exact (ih h.2).trans (sessOf_closeSession_ne s h.1)

theorem mem_freeSlots_foldN_closeSession {l : List Nat} {s : State} {i : Nat} (h : i ∈ s.freeSlots) :
    i ∈ (foldN l closeSession s).freeSlots := by
  induction l generalizing s with
  | nil => exact h
  | cons k l ih => exact ih (mem_freeSlots_closeSession.mpr (.inl h))

/-- Every open slot of the list ends and is free. -/
theorem foldN_closeSession_of_mem {l : List Nat} {s : State} {i : Nat} (h : i ∈ l) (hopen : (sessOf s i).isOpen = true) :
    sessOf (foldN l closeSession s) i = { gen := (sessOf s i).gen } ∧ i ∈ (foldN l closeSession s).freeSlots := by
  induction l generalizing s with
  | nil => cases h
  | cons k l ih =>
    by_cases hk : i = k
    · subst hk
      have hclosed := sessOf_closeSession hopen
      have hfree := mem_freeSlots_closeSession.mpr (.inr ⟨rfl, hopen⟩)
      exact ⟨(sessOf_foldN_closeSession_free (l := l) (by rw [hclosed])).trans hclosed, mem_freeSlots_foldN_closeSession (l := l) hfree⟩
    · have hsame := sessOf_closeSession_ne s hk
      have hrest := ih ((List.mem_cons.mp h).resolve_left hk) (by rw [hsame]; exact hopen)
      rwa [hsame] at hrest

/-- In a table in order each key stands once. -/
theorem tfind_of_mem {α : Type} {t : Tab α} (h : t.Pairwise (fun x y => x.1 < y.1)) {k : Nat} {v : α} (hm : (k, v) ∈ t) :
    tfind t k = some v := by
  induction t with
  | nil => cases hm
  | cons e t ih =>
    rw [List.pairwise_cons] at h
    rcases List.mem_cons.mp hm with rfl | hm
    · simp [tfind]
    · have hlt := h.1 _ hm
      rw [tfind, if_neg (Nat.ne_of_gt hlt)]
      exact ih h.2 hm

/-- The slots that a check ends are those of the open sessions that it is about. -/
theorem mem_closeWhere_slots {s : State} {p : Session → Bool} (h : Inv s) {i : Nat} :
    i ∈ (s.sess.filter (fun e => e.2.isOpen && p e.2)).map (·.1) ↔ (sessOf s i).isOpen = true ∧ p (sessOf s i) = true := by
  simp only [List.mem_map, List.mem_filter, Bool.and_eq_true]
  constructor
  · rintro ⟨⟨k, x⟩, ⟨hm, hx⟩, rfl⟩
    have hk : sessOf s k = x := by rw [sessOf, tget, tfind_of_mem h.order hm, Option.getD_some]
    rwa [hk]
  · intro hx
    rcases sessOf_cases s i with hm | hnone
    · exact ⟨(i, sessOf s i), ⟨hm, hx⟩, rfl⟩
    · rw [hnone] at hx
      cases hx.1

/-- Settles O8: the check ends the open sessions whose lease has run out, each of which stands once in the table. -/
theorem leaseExpiryEndsExactlyTheExpired : Obligations.LeaseExpiryEndsExactlyTheExpired := by
  unfold Obligations.LeaseExpiryEndsExactlyTheExpired
  intro s h
  have hmem := fun i => mem_closeWhere_slots (p := fun x => decide (x.renewed + x.lease * 1000000 ≤ s.now)) h (i := i)
  refine ⟨_, rfl, closeWhere_ch (List.Subset.refl _) (Changes.refl _ s), fun i => ⟨fun hopen hdue => ?_, fun hstay => ?_⟩⟩
  · exact foldN_closeSession_of_mem ((hmem i).mpr ⟨hopen, decide_eq_true hdue⟩) hopen
  · refine sessOf_foldN_closeSession_of_not_mem fun hm => ?_
    obtain ⟨hopen, hdue⟩ := (hmem i).mp hm
    rcases hstay with hclosed | hlater
    · simp [hclosed] at hopen
    · exact absurd (of_decide_eq_true hdue) (Nat.not_le.mpr hlater)

/-! ## Before any session (R29, R30, R37) -/

/-- Settles O10: `request` answers LEASE before it looks at the write. -/
theorem noSessionNoWrite : Obligations.NoSessionNoWrite := by
  unfold Obligations.NoSessionNoWrite
  intro s r h d hp hslot
  exact ⟨_, request_lease (q := .write h d) (found := none) hp rfl hslot, ⟨_, rfl, rfl, rfl, rfl, rfl⟩,
    ch_resp (Changes.refl _ s) (by decide)⟩

/-- Settles O18: a malformed PDU is counted alone, and an unknown opcode's answer is read off `execRequest`. -/
theorem badPdus : Obligations.BadPdus := by
  unfold Obligations.BadPdus
  refine ⟨fun s pdu h => ?_, fun s r i op h hop => ?_⟩
  · have hrun : exec (.malformedPdu pdu) s = .next (bump s K.dictRxBad) := by
      change execMalformedPdu pdu s = _
      simp only [execMalformedPdu, h, Option.isNone_none, if_true]
    exact ⟨_, hrun, getN_bump s _, rfl, onlyObjs_bump (by simp) (onlyObjs_refl _ s), putV_ch (by decide) (Changes.refl _ s)⟩
  · have hans : sessionAnswer s r i (.unknown op) none = ⟨renewed s i, .range, [], false, 0⟩ := rfl
    have hrun : exec (.unknownOpcode r op) s = .next (afterAnswer r i op.toNat ⟨renewed s i, .range, [], false, 0⟩) := by
      have hknown : ¬ requestOps.contains op.toNat = true := by simpa [requestOps] using hop
      have hrequest := request_admitted (found := none) h (by rw [hans]; exact le_maxPdu (n := 12) (by decide) _)
      rw [hans] at hrequest
      change execUnknownOpcode r op s = _
      rw [execUnknownOpcode, if_neg hknown]
      exact hrequest
    exact ⟨_, _, hrun, rfl, rfl, rfl, rfl, admitted_changes r i _ _ (by decide) (by decide) (Changes.refl _ _)⟩

end Sys2Proof.Proofs.Sessions

/-!
PROOFS. O1, O2, O3: what a step runs, what a nanosecond without a command leaves alone, and the state at reset.
-/

namespace Sys2Proof.Proofs.Steps

open Sys2Proof.Machine

/-- Settles O1. -/
theorem stepRunsFrontCommand : Obligations.StepRunsFrontCommand := by
  unfold Obligations.StepRunsFrontCommand
  intro c s rest h
  unfold step
  rw [h]

/-- What a nanosecond may change besides the module time. -/
def tickParts : List Part := Part.but [.pending, .now, .mram, .defaultsDue, .resp, .twResp, .can, .frameSent]

/-- Each part of a nanosecond comes after the advance of the module time, and none of them moves it. -/
theorem tick_changes (s : State) : Changes tickParts { s with now := (s.now + 1) % 2 ^ 64 } (tick s) := by
  have hall : tickParts ⊆ tickParts := List.Subset.refl _
  unfold tick
  refine foldN_ch _ ?notes fun x a hx => sendNote_ch (part_sub hall rfl) hx
  case notes =>
    refine copyTick_ch (part_sub hall rfl) (driveTick_ch (part_sub hall rfl) (railTick_ch (part_sub hall rfl) ?_))
    refine foldN_ch _ ?_ fun x a hx => serveLink_ch (part_sub hall rfl) hx
    refine foldN_ch _ ?_ fun x a hx => tryStart_ch (part_sub hall rfl) hx
    exact powerTimers_ch (part_sub hall rfl) (Changes.refl _ _)

/-- Settles O2. -/
theorem idleStepPassesTime : Obligations.IdleStepPassesTime := by
  unfold Obligations.IdleStepPassesTime
  intro s h
  have hrun : step s = .next (tick s) := by
    unfold step
    rw [h]
  have hchanges := tick_changes s
  exact ⟨_, hrun, hchanges.now (by decide), (hchanges.pending (by decide)).trans h, hchanges.resp (by decide), hchanges.mram (by decide)⟩

theorem objs_reset : State.reset.objs = [] := rfl

theorem getV_reset (k : Nat) : getV State.reset k = defaultVal k := by
  simp only [getV, objs_reset, tfind]

theorem ctrOf_reset (k : Nat) : ctrOf State.reset k = 0 := by
  simp only [ctrOf, objs_reset, tfind]

theorem sessOf_reset (i : Nat) : sessOf State.reset i = {} := rfl

/-- At reset every list and memory is empty but that of the free slots, which is of all. -/
theorem inv_reset : Inv State.reset := by
  have hempty : ∀ {α : Type} {p : α → Prop} {l : List α}, l = [] → ∀ e ∈ l, p e := by
    rintro α p l rfl e he
    cases he
  have hshort : ∀ {α : Type} {l : List α} {n : Nat}, l = [] → l.length ≤ n := by
    rintro α l n rfl
    exact Nat.zero_le n
  constructor
  case host | dram | kram | buf | esram => decide
  case ctr | sess => exact hempty rfl
  case order => exact List.Pairwise.nil
  case freeOnce => exact List.nodup_range
  case free =>
    intro i
    rw [sessOf_reset]
    exact List.mem_range.trans (by simp)
  case frames | refusals | tilth | memLog | grogLog => exact hshort rfl

/-- Settles O3. -/
theorem resetState : Obligations.ResetState := by
  unfold Obligations.ResetState
  exact ⟨rfl, rfl, fun _ => rfl, ctrOf_reset, getV_reset, inv_reset⟩

end Sys2Proof.Proofs.Steps

/-!
PROOFS. O13: where a segmented read keeps its place.

A session keeps the places of its segmented reads, and the trusted world's port keeps its own in slot 48. The first clause ranges over
every session, also over one in the trusted world's role, which no carrier gives (R25). The read of such a session goes by the place
that the port kept, and is answered STALE where the object's counter has moved since the port's read began.
-/

namespace Sys2Proof.Proofs.SegmentPlaces

open Sys2Proof.Machine

/-- prog.code of slot 0. -/
def codeHeader : ItemHdr := ⟨0x3500, 2, 0⟩

/-- Session 0 in the trusted world's role and the trusted world's port have both begun to read the code; the port's place is of an older value. -/
def portReads : State :=
  { putV State.reset (K.progCode 0) (.bytes [1, 2]) with
    power := { good := true, avail := true }
    sess := [(0, { isOpen := true, gen := 1, role := .tw, src := some (.portal 0), reads := [(K.progCode 0, 0)] }),
             (48, { reads := [(K.progCode 0, 5)] })] }

def codeRequest : DictReq := { src := .portal 0, session := 64, seq := 7 }

theorem codeRequest_admitted : Admitted portReads codeRequest 0 (.readSeg codeHeader 1 1) where
  path := by decide +kernel
  slot := by decide +kernel
  carrier := by decide +kernel
  new := by decide +kernel
  size := by decide +kernel
  served := by decide +kernel

theorem codeRow : ∃ row, rowFor codeHeader = some row ∧ row.ty = .blob ∧ row.acc = .rw := by
  refine ⟨_, rfl, ?_⟩
  decide +kernel

theorem readObj_code : readObj (renewed portReads 0) (requester portReads codeRequest) 0x3500 2 = (.ok, .bytes [1, 2]) := by
  decide +kernel

/-- The second segment is refused. -/
theorem sessionAnswer_readSeg_stale :
    ∃ t, sessionAnswer portReads codeRequest 0 (.readSeg codeHeader 1 1) none = refused t .stale := ⟨_, rfl⟩

/-- Refutes O13: its first clause lacks the premise that the session is none in the trusted world's role. The place that the session keeps is
that of the object's counter, and yet its second segment is answered STALE. -/
theorem not_segmentedTransfers : ¬ Obligations.SegmentedTransfers := by
  unfold Obligations.SegmentedTransfers
  rintro ⟨hread, -⟩
  obtain ⟨row, hrow, hty, hacc⟩ := codeRow
  have hmay : mayReadObj (renewed portReads 0) (requester portReads codeRequest) row 0x3500 2 = true := by
    have hrole : (requester portReads codeRequest).role = .tw := by decide +kernel
    simp only [mayReadObj, hacc, hrole]
  obtain ⟨t, x, hrun, hresp, -, hok, -⟩ := hread portReads codeRequest 0 codeHeader 1 1 row (.bytes [1, 2]) codeRequest_admitted hrow hty
    (.inl rfl) (by decide +kernel) hmay readObj_code (.inr (by decide +kernel)) (by decide) (by decide)
  obtain ⟨v, hans⟩ := sessionAnswer_readSeg_stale
  obtain ⟨u, hrefused, ⟨y, hstale, -, -, -, hst⟩, -⟩ := request_refused codeRequest_admitted hans (by decide)
  cases hrefused.symm.trans hrun
  cases hresp.symm.trans hstale
  cases hok.symm.trans hst

end Sys2Proof.Proofs.SegmentPlaces

/-!
PROOFS. O11, O14, O15: what READ and DESCRIBE answer, a GROUP's items as one write, and the factory defaults at the next start.
-/

namespace Sys2Proof.Proofs.Dictionary

open Sys2Proof.Machine

/-! ## Who may write -/

/-- The access classes whose writers the object's area tells. -/
def openAccess (a : Acc) : Prop := a = .rw ∨ a = .wo ∨ a = .rws

/-- A manager's or VF's write, and of the trusted world any, goes by the area's own rule. -/
theorem mayWriteObj_eq_areaAccess {s : State} {c : WCtx} {row : ObjRow} {idx sub v : Nat} (hacc : openAccess row.acc)
    (hrole : c.role = .mgr ∨ c.role = .vf ∨ c.role = .tw) : mayWriteObj s c row idx sub v = areaAccess s c idx sub v := by
  rcases hacc with h | h | h <;> rcases hrole with h' | h' | h' <;> simp only [mayWriteObj, h, h']

theorem isMgr_sessionCtx {s : State} {r : DictReq} {i : Nat} {found : Option Nat} (h : managerSession s i) :
    (sessionCtx s r i found).isMgr = true := by
  simp [sessionCtx, WCtx.isMgr, show (sessOf s i).role = .mgr from h]

/-- The writer of an admitted request. -/
theorem requester_of_admitted {s : State} {r : DictReq} {i : Nat} {q : Request} (h : Admitted s r i q) :
    requester s r = sessionCtx s r i none := by
  simp only [requester, h.slot, sessionCtx]

/-! ## READ and DESCRIBE (R19, R20, R26) -/

theorem opRead_ok {s : State} {c : WCtx} {h : ItemHdr} {row : ObjRow} {v : Val} (hrow : rowFor h = some row)
    (hmay : mayReadObj s c row (targetOf h.index.toNat h.sub.toNat).1 (targetOf h.index.toNat h.sub.toNat).2 = true)
    (hty : h.ty = 0 ∨ h.ty.toNat = row.ty.code)
    (hread : readObj s c (targetOf h.index.toNat h.sub.toNat).1 (targetOf h.index.toNat h.sub.toNat).2 = (.ok, v))
    (hpin : pinHidden s c (targetOf h.index.toNat h.sub.toNat).1 = false) :
    opRead s c h = ⟨s, .ok, itemHdr h row ++ leBytes 2 (ctrFor s h) ++ encodeVal row.ty v, false, 0⟩ := by
  have htype : ¬ (h.ty.toNat ≠ 0 ∧ h.ty.toNat ≠ row.ty.code) := by
    rcases hty with h0 | h0
    · simp [h0]
    · simp [h0]
  unfold opRead
  simp only [hrow, hmay, htype, hread, afterRead, hpin, Bool.not_true, Bool.false_eq_true, if_false, true_or, if_true]

theorem opRead_refused {s : State} {c : WCtx} {h : ItemHdr} {row : ObjRow} {v : Val} {st : Status} (hrow : rowFor h = some row)
    (hmay : mayReadObj s c row (targetOf h.index.toNat h.sub.toNat).1 (targetOf h.index.toNat h.sub.toNat).2 = true)
    (hty : h.ty = 0)
    (hread : readObj s c (targetOf h.index.toNat h.sub.toNat).1 (targetOf h.index.toNat h.sub.toNat).2 = (st, v))
    (hst : st ≠ .ok ∧ st ≠ .intransit) : opRead s c h = refused s st := by
  have htype : ¬ (h.ty.toNat ≠ 0 ∧ h.ty.toNat ≠ row.ty.code) := by simp [hty]
  unfold opRead
  simp only [hrow, hmay, htype, hread, not_or.mpr hst, Bool.not_true, Bool.false_eq_true, if_false]

theorem length_itemHdr (h : ItemHdr) (row : ObjRow) : (itemHdr h row).length = 4 := by
  simp [itemHdr, length_leBytes]

theorem opDescribe_ok {s : State} {c : WCtx} {h : ItemHdr} {row : ObjRow} {j : Nat}
    (hrow : lookupObj h.index.toNat h.sub.toNat = some (row, j))
    (htarget : targetOf h.index.toNat h.sub.toNat = (h.index.toNat, h.sub.toNat)) (hrole : c.role ≠ .vf)
    (hty : h.ty = 0 ∨ h.ty.toNat = row.ty.code) : opDescribe s c h = ⟨s, .ok, describeBytes row row j, false, 0⟩ := by
  have htype : ¬ (h.ty.toNat ≠ 0 ∧ h.ty.toNat ≠ row.ty.code) := by
    rcases hty with h0 | h0
    · simp [h0]
    · simp [h0]
  unfold opDescribe
  simp only [hrow, htarget, Option.getD_some, hrole, false_and, htype, if_false]

/-- Settles O11: executing either request leaves the state as it is, so only the session and the answer move. -/
theorem readAndDescribe : Obligations.ReadAndDescribe := by
  unfold Obligations.ReadAndDescribe
  refine ⟨fun s r i h row v hadm hrow hmay hty hread hpin hfit => ?_, fun s r i h row j hadm hrole hrow htarget hty hfit => ?_⟩
  · rw [requester_of_admitted hadm] at hmay hread hpin
    have hans : sessionAnswer s r i (.read h) none =
        ⟨renewed s i, .ok, itemHdr h row ++ leBytes 2 (ctrFor s h) ++ encodeVal row.ty v, false, 0⟩ :=
      opRead_ok (s := renewed s i) hrow hmay hty hread hpin
    have hrun := request_admitted (found := none) hadm (by
      rw [hans]
      simp only [List.length_append, length_itemHdr, length_leBytes]
      omega)
    rw [hans] at hrun
    exact ⟨_, _, hrun, rfl, rfl, rfl, rfl, admitted_changes r i _ _ (by decide) (by decide) (Changes.refl _ _)⟩
  · have hans : sessionAnswer s r i (.describe h) none = ⟨renewed s i, .ok, describeBytes row row j, false, 0⟩ :=
      opDescribe_ok (s := renewed s i) hrow htarget hrole hty
    have hrun := request_admitted (found := none) hadm (by rw [hans]; exact hfit)
    rw [hans] at hrun
    exact ⟨_, _, hrun, rfl, rfl, rfl, rfl, admitted_changes r i _ _ (by decide) (by decide) (Changes.refl _ _)⟩

/-! ## GROUP (R33) -/

/-- Items that are each accepted at the state the ones before leave bring the group to their state. -/
theorem foldl_groupStep_accepted {c : WCtx} {items : List (ItemHdr × List Byte)} {s u : State} (k : Nat)
    (h : writesAll s c items = some u) : (items.zipIdx k).foldl (groupStep c) { state := s } = { state := u } := by
  induction items generalizing s k with
  | nil =>
    cases h
    rfl
  | cons e l ih =>
    unfold writesAll at h
    dsimp only at h
    split at h
    · next hok =>
      have hstep : groupStep c { state := s } (e, k) = { state := (writeObj s c e.1 e.2 none).state } := by
        unfold groupStep
        simp only [hok]
        rfl
      rw [List.zipIdx_cons, List.foldl_cons, hstep]
      exact ih (k + 1) h
    · cases h

/-- After a refused item a group tries no other. -/
theorem foldl_groupStep_failed {c : WCtx} {l : List ((ItemHdr × List Byte) × Nat)} {g : GroupRun} (h : g.failed.isSome = true) :
    l.foldl (groupStep c) g = g := by
  induction l with
  | nil => rfl
  | cons e l ih => rw [List.foldl_cons, show groupStep c g e = g by rw [groupStep, if_pos h], ih]

theorem opGroup_accepted {s u : State} {c : WCtx} {items : List (ItemHdr × List Byte)} (hlen : items.length ≤ 32)
    (h : writesAll s c items = some u) : opGroup s c items = ⟨u, .ok, leBytes 1 items.length ++ leBytes 3 0, false, 0⟩ := by
  unfold opGroup
  dsimp only
  rw [if_neg (by omega), foldl_groupStep_accepted 0 h]

theorem opGroup_refused {s u : State} {c : WCtx} {before after : List (ItemHdr × List Byte)} {item : ItemHdr × List Byte}
    (hlen : (before ++ item :: after).length ≤ 32) (h : writesAll s c before = some u)
    (hno : (writeObj u c item.1 item.2 none).status.applied = false) (hclaim : (writeObj u c item.1 item.2 none).status ≠ .claimed) :
    opGroup s c (before ++ item :: after) =
      ⟨s, (writeObj u c item.1 item.2 none).status, leBytes 1 (before ++ item :: after).length ++ leBytes 3 0, false, before.length + 1⟩ := by
  have hstep : groupStep c { state := u } (item, 0 + before.length) =
      { state := u, failed := some (writeObj u c item.1 item.2 none, item.1, before.length + 1) } := by
    unfold groupStep
    simp [hno]
  have hrun : ((before ++ item :: after).zipIdx).foldl (groupStep c) { state := s } =
      { state := u, failed := some (writeObj u c item.1 item.2 none, item.1, before.length + 1) } := by
    rw [List.zipIdx_append, List.foldl_append, foldl_groupStep_accepted 0 h, List.zipIdx_cons, List.foldl_cons, hstep]
    exact foldl_groupStep_failed rfl
  unfold opGroup
  dsimp only
  rw [if_neg (by omega), hrun]
  simp only [afterRefusal, hclaim, if_false]

/-- Settles O14: the items are folded over the state, and a refused one gives the state from before the group. -/
theorem groupAllOrNone : Obligations.GroupAllOrNone := by
  unfold Obligations.GroupAllOrNone
  have hfit : ∀ (r : DictReq) (n : Nat), 12 + (leBytes 1 n ++ leBytes 3 0).length ≤ maxPdu r.src := by
    intro r n
    rw [List.length_append, length_leBytes, length_leBytes]
    exact Sessions.le_maxPdu (by decide) _
  refine ⟨fun s u r i items hadm hlen hall => ?_, fun s u r i before after item w hadm hlen hall hw hno hclaim => ?_⟩
  · rw [requester_of_admitted hadm] at hall
    have hans : sessionAnswer s r i (.group items) none = ⟨u, .ok, leBytes 1 items.length ++ leBytes 3 0, false, 0⟩ :=
      opGroup_accepted hlen hall
    have hrun := request_admitted (found := none) hadm (by rw [hans]; exact hfit r _)
    rw [hans] at hrun
    exact ⟨_, _, hrun, rfl, rfl, rfl, rfl, afterAnswer_changes r i 0x16 ⟨u, _, _, _, _⟩⟩
  · subst hw
    rw [requester_of_admitted hadm] at hall hno hclaim ⊢
    have hans : sessionAnswer s r i (.group (before ++ item :: after)) none = ⟨renewed s i, (writeObj u (sessionCtx s r i none) item.1 item.2 none).status,
        leBytes 1 (before ++ item :: after).length ++ leBytes 3 0, false, before.length + 1⟩ := opGroup_refused hlen hall hno hclaim
    have hrun := request_admitted (found := none) hadm (by rw [hans]; exact hfit r _)
    rw [hans] at hrun
    exact ⟨_, _, hrun, rfl, rfl, rfl, rfl, admitted_changes r i _ _ (by decide) (by decide) (Changes.refl _ _)⟩

/-! ## sys.defaults (R18, R23) -/

/-- What a start does once MRAM has been read changes no stored value. -/
theorem moduleStart_changes (s : State) (cause : Nat) :
    Changes [.fresh, .objs, .voteSecond, .funcs, .sess, .frames, .grog, .notes]
      (if s.defaultsDue then { s with defaultsDue := false, mram := s.mram.filter (fun e => accOf e.1 != some .rws) } else s)
      (moduleStart s cause) := by
  unfold moduleStart
  dsimp only
  refine updateHealth_ch (by decide) (applySpares_ch (by decide) (setMode_ch (by decide) (putN_ch (by decide) ?_)))
  by_cases h : s.defaultsDue = true
  · rw [if_pos h, if_pos (show (modGrog s _).defaultsDue = true from h)]
    exact ch_grog (Changes.refl _ _) (by decide)
  · rw [if_neg h, if_neg (show ¬ (modGrog s _).defaultsDue = true from h)]
    exact ch_grog (Changes.refl _ _) (by decide)

/-- Settles O15: the write leaves its request standing, which the next start takes up. -/
theorem defaultsAtNextStart : Obligations.DefaultsAtNextStart := by
  unfold Obligations.DefaultsAtNextStart
  refine ⟨fun s r i h hmgr => ?_, fun s cause hdue => ?_, fun s cause hdue => ?_⟩
  · obtain ⟨t, hrun, hans, hafter⟩ := writeObject_done (found := none) (a := .wo) row_sysDefaults (key_lt (by omega) (by omega)) h rfl
      (fun row hacc => (mayWriteObj_eq_areaAccess (.inr (.inl hacc)) (.inl (show (sessionCtx s r i none).role = .mgr from hmgr))).trans (areaAccess_sys (isMgr_sessionCtx hmgr)))
      (by decide) areaCheck_sys (by rw [show objKey 0x1F00 0 / 256 = 0x1F00 from rfl, show objKey 0x1F00 0 % 256 = 0 from rfl, areaClaims_sys])
      (.inl rfl) areaApply_sys (.inl rfl)
    refine ⟨t, hrun, hans, hafter.defaultsDue (by decide), ?_⟩
    exact changes_done (ch_defaultsDue (Changes.refl _ _) (by decide)) hafter (by decide) (by decide)
  · have hstart := moduleStart_changes s cause
    rw [if_pos hdue] at hstart
    refine ⟨hstart.defaultsDue (by decide), fun e => ?_⟩
    rw [hstart.mram (by decide)]
    simp
  · have hstart := moduleStart_changes s cause
    rw [if_neg (by simp [hdue])] at hstart
    exact hstart.mram (by decide)

end Sys2Proof.Proofs.Dictionary

/-!
PROOFS. O16, O17: the portal's exchange of a request and its response, and the frames of the side-band.
-/

namespace Sys2Proof.Proofs.Transports

open Sys2Proof.Machine

/-! ## A request on a carrier that is up -/

/-- A request of a carrier that reaches the dictionary engine gets a response, which the state keeps. -/
theorem dictRequest_answers {s : State} {r : DictReq} (q : Request) (len : Nat) (found : Option Nat) (hp : pathUp s r.src = true) :
    ∃ v x, dictRequest s r q len found = (v, some x) ∧ v.resp = some (r.src, x) := by
  unfold dictRequest
  simp only [hp, Bool.not_true, Bool.false_eq_true, if_false]
  repeat' split
  all_goals exact ⟨_, _, rfl, rfl⟩

/-! ## The portal (R41, R286) -/

/-- The portal after the host's write of the request area and its length. -/
def requested (p : Portal) (pdu : List Byte) : Portal :=
  { p with reqLen := pdu.length, req := pdu.take 1984 ++ p.req.drop pdu.length }

theorem modPortal_changes (s : State) (f : Nat) (g : Portal → Portal) : Changes [.portals] s (modPortal s f g) :=
  ch_portals (Changes.refl _ s) (by decide)

theorem pathUp_modPortal (s : State) (f : Nat) (g : Portal → Portal) (c : Carrier) : pathUp (modPortal s f g) c = pathUp s c := by
  cases c <;> rfl

theorem portalOf_requested (s : State) (f : Nat) (pdu : List Byte) :
    portalOf (modPortal s f (fun p => { p with reqLen := pdu.length, req := pdu.take 1984 ++ p.req.drop pdu.length })) f =
      requested (portalOf s f) pdu := portalOf_modPortal ..

/-- The state in which a function's request runs: its portal is active. -/
def activated (s : State) (f : Nat) (pdu : List Byte) : State :=
  modPortal (modPortal s f (fun p => { p with reqLen := pdu.length, req := pdu.take 1984 ++ p.req.drop pdu.length })) f
    (fun p => { p with done := false, reject := false, active := true, waiting := none })

theorem activated_changes (s : State) (f : Nat) (pdu : List Byte) : Changes [.portals] s (activated s f pdu) :=
  (modPortal_changes ..).trans (modPortal_changes ..)

theorem portalOf_activated (s : State) (f : Nat) (pdu : List Byte) : portalOf (activated s f pdu) f =
    { requested (portalOf s f) pdu with done := false, reject := false, active := true, waiting := none } := by
  rw [activated, portalOf_modPortal, portalOf_requested]

theorem portalGo_active {s : State} {f : Fin 65} {pdu : List Byte} (hp : pathUp s (.portal f) = true) (ha : (portalOf s f).active = true) :
    portalGo s f pdu =
      modPortal (modPortal s f (fun p => { p with reqLen := pdu.length, req := pdu.take 1984 ++ p.req.drop pdu.length })) f
        (fun p => { p with reject := true }) := by
  have hactive : (requested (portalOf s f) pdu).active = true := ha
  unfold portalGo
  simp only [hp, portalOf_requested, hactive, Bool.not_true, Bool.false_eq_true, if_false, if_true]

theorem portalGo_idle {s : State} {f : Fin 65} {pdu : List Byte} (hp : pathUp s (.portal f) = true) (ha : (portalOf s f).active = false) :
    portalGo s f pdu = match pduRx (activated s f pdu) (.portal f) pdu with
      | (s, none) => modPortal s f (fun p => { p with active := false })
      | (s', some x) => modPortal s' f (fun p =>
          { p with waiting := some x.bytes, awaits := (List.range 64).filter (fun v => vfOn (activated s f pdu) v && !vfOn s' v) }) := by
  have hactive : (requested (portalOf s f) pdu).active = false := ha
  unfold portalGo
  simp only [hp, portalOf_requested, hactive, Bool.not_true, Bool.false_eq_true, if_false]
  rfl

/-- Settles O16: each write of PORTAL_GO is the host's request area and one of the portal's three steps. -/
theorem portalExchange : Obligations.PortalExchange := by
  unfold Obligations.PortalExchange
  refine ⟨fun s f pdu hp ha => ?active, fun s f pdu hp ha hbad => ?malformed, fun s f pdu id seq q hp ha hgood => ?runs,
    fun s f b hw hfree => ?answers, fun s f v hv hreset => ?waits⟩
  case active =>
    refine ⟨_, rfl, ?_, ?_⟩ <;> rw [portalGo_active hp ha]
    · exact (modPortal_changes ..).trans (modPortal_changes ..)
    · rw [portalOf_modPortal, portalOf_requested]
      rfl
  case malformed =>
    have hrun : portalGo s f pdu = modPortal (bump (activated s f pdu) K.dictRxBad) f (fun p => { p with active := false }) := by
      rw [portalGo_idle hp ha]
      simp only [pduRx, hbad]
    refine ⟨_, congrArg Host.Outcome.next hrun, ?_, getN_bump .., onlyObjs_bump (List.mem_singleton.mpr rfl) (onlyObjs_of_eq rfl), ?_⟩
    · have hportal : portalOf (bump (activated s f pdu) K.dictRxBad) f = portalOf (activated s f pdu) f := rfl
      rw [portalOf_modPortal, hportal, portalOf_activated, ← ha]
      rfl
    · exact ch_portals (putV_ch (by decide) ((activated_changes s f pdu).mono (by decide))) (by decide)
  case runs =>
    have hup : pathUp (activated s f pdu) (.portal f) = true := by
      rw [activated, pathUp_modPortal, pathUp_modPortal]
      exact hp
    obtain ⟨v, x, hdict, hresp⟩ :=
      dictRequest_answers (r := ⟨.portal f, BitVec.ofNat 16 id, BitVec.ofNat 16 seq⟩) q pdu.length none hup
    have hrun := portalGo_idle (pdu := pdu) hp ha
    simp only [pduRx, hgood, hdict] at hrun
    refine ⟨_, activated s f pdu, v, x, congrArg Host.Outcome.next hrun, activated_changes s f pdu, portalOf_activated s f pdu, hdict, hresp,
      modPortal_changes .., ?_⟩
    rw [portalOf_modPortal]
  case answers =>
    have hnone : ((portalOf s f).awaits.any fun v => (funcOf s v).flrSince.isSome) = false := by
      rw [List.any_eq_false]
      intro v hv
      rw [hfree v hv]
      decide
    refine ⟨modPortal s f (fun p =>
      { p with done := true, active := false, rspLen := b.length, rsp := b ++ p.rsp.drop b.length, waiting := none }), ?_,
      modPortal_changes .., portalOf_modPortal ..⟩
    change execPortalResponse f s = _
    simp only [execPortalResponse, portalAnswer, hw, hnone, Bool.false_eq_true, if_false]
  case waits =>
    change execPortalResponse f s = _
    have hsome : ((portalOf s f).awaits.any fun v => (funcOf s v).flrSince.isSome) = true := List.any_eq_true.mpr ⟨v, hv, hreset⟩
    unfold execPortalResponse portalAnswer
    split
    · rw [if_pos hsome]
    · rfl

/-! ## Frames of the side-band (R43, R44, R45) -/

theorem canFrame_request {s : State} {ident : Nat} (data : List Byte) (hgood : s.power.good = true)
    (hid : ident = 0x500 + getN s K.canNode) (hmode : inMode s 3 = false) : canFrame s ident data = canSegment s data := by
  simp [canFrame, hgood, hid, hmode]

/-- A segment out of its order discards the PDU. -/
theorem canSegment_outOfOrder {s : State} {ctl : Byte} {b : List Byte} (hlt : s.can.next < 8)
    (hfirst : bitOf ctl.toNat 6 = false) (hn : ctl.toNat % 64 ≠ s.can.next) :
    canSegment s (ctl :: b) = canDiscard s (bitOf ctl.toNat 7) := by
  have h64 : s.can.next ≠ 64 := by omega
  simp [canSegment, hfirst, h64, hn]

theorem canDiscard_changes (s : State) (last : Bool) : Changes [.objs, .can] s (canDiscard s last) :=
  putV_ch (by decide) (ch_can (Changes.refl _ s) (by decide))

/-- A segment that is not its PDU's last moves no object but the count of discarded PDUs. -/
theorem canSegment_of_notLast {s : State} {data : List Byte} (h : bitOf (data.headD 0).toNat 7 = false) :
    onlyObjs [K.dictRxBad] s (canSegment s data) := by
  cases data with
  | nil => exact onlyObjs_refl _ s
  | cons ctl b =>
    have hlast : bitOf ctl.toNat 7 = false := h
    have hmem : K.dictRxBad ∈ [K.dictRxBad] := List.mem_singleton.mpr rfl
    have hcount : onlyObjs [K.dictRxBad] s
        (if bitOf ctl.toNat 6 ∧ s.can.next ≠ 0 ∧ s.can.next ≠ 64 then bump s K.dictRxBad else s) :=
      onlyObjs_ite (onlyObjs_bump hmem (onlyObjs_refl _ s)) (onlyObjs_refl _ s)
    unfold canSegment canDiscard
    simp only [hlast, Bool.false_eq_true, if_false, Bool.not_false, if_true]
    refine onlyObjs_ite hcount (onlyObjs_ite (onlyObjs_bump hmem ?_) ?_)
    · exact onlyObjs_trans hcount (onlyObjs_of_eq rfl)
    · exact onlyObjs_trans hcount (onlyObjs_of_eq rfl)

/-- The oldest waiting frame of Kaolin's, or of all where none is Kaolin's, leaves (R45, R159). -/
theorem execEventFrameTx_sends {s : State} {x : EventFrame} {before after : List EventFrame} (hgood : s.power.good = true)
    (hframes : s.frames = before ++ x :: after)
    (hfirst : (x.kaolin = true ∧ ∀ y ∈ before, y.kaolin = false) ∨ (before = [] ∧ ∀ y ∈ s.frames, y.kaolin = false)) :
    execEventFrameTx s = .next { s with frames := before ++ after, frameSent := some (eventIdent s, x.note.frame) } := by
  rcases hfirst with ⟨hx, hbefore⟩ | ⟨rfl, hnone⟩
  · have hfind : s.frames.find? (·.kaolin) = some x := by
      rw [hframes, List.find?_append, List.find?_eq_none.mpr (by simpa using hbefore), List.find?_cons_of_pos hx]
      rfl
    have herase : s.frames.eraseP (·.kaolin) = before ++ after := by
      rw [hframes, List.eraseP_append_right _ (by simpa using hbefore), List.eraseP_cons_of_pos hx]
    simp only [execEventFrameTx, hgood, hfind, herase, Bool.not_true, Bool.false_eq_true, if_false]
  · have hfind : s.frames.find? (·.kaolin) = none := List.find?_eq_none.mpr (by simpa using hnone)
    simp only [execEventFrameTx, hgood, hfind, Bool.not_true, Bool.false_eq_true, if_false]
    rw [hframes]
    rfl

/-- Settles O17: a frame of the request identifier is `canSegment`'s, and in STANDBY a start follows it. -/
theorem sideBand : Obligations.SideBand := by
  unfold Obligations.SideBand
  refine ⟨fun s ident b len hgood hid hmode hcan hlen hle hfit => ?whole, fun s ident b hgood hid hmode hcan hlen => ?first,
    fun s ident ctl b hgood hid hmode h0 h8 hfirst hn => ?order, fun s ident data hid => ?other,
    fun s x before after hgood hframes hfirst => ?sends, fun s data hgood hmode hwake hcan hlast => ?wakes⟩
  case whole =>
    refine ⟨_, rfl, ?_⟩
    rw [canFrame_request _ hgood hid hmode]
    subst hlen
    have hlong : ¬ 504 < 12 + ofLe ((b.drop 8).take 2) := by omega
    have hshort : ¬ b.length < 12 + ofLe ((b.drop 8).take 2) := by omega
    have hsame : { s with can := {} } = s := by rw [← hcan]
    have hfirst : Nat.testBit 0xC0 6 = true := by decide
    have hlast : Nat.testBit 0xC0 7 = true := by decide
    simp [canSegment, hcan, bitOf, hfirst, hlast, hlong, hshort, hsame]
  case first =>
    refine ⟨_, rfl, ?_⟩
    have hseg : canSegment s (0x40 :: b) = { s with can := ⟨1, b⟩ } := by
      have hfirst : Nat.testBit 0x40 6 = true := by decide
      have hlast : Nat.testBit 0x40 7 = false := by decide
      simp [canSegment, hcan, bitOf, hlen, hfirst, hlast]
    rw [canFrame_request _ hgood hid hmode, hseg]
    exact ⟨rfl, ch_can (Changes.refl _ s) (by decide)⟩
  case order =>
    refine ⟨_, rfl, ?_⟩
    rw [canFrame_request _ hgood hid hmode, canSegment_outOfOrder h8 hfirst hn]
    exact ⟨getN_bump .., rfl, onlyObjs_bump (List.mem_singleton.mpr rfl) (onlyObjs_of_eq rfl), canDiscard_changes ..⟩
  case other =>
    change execCanSegmentRx ident data s = _
    simp only [execCanSegmentRx, canFrame, hid, ne_eq, not_false_eq_true, or_true, if_true]
  case sends =>
    exact ⟨_, execEventFrameTx_sends hgood hframes hfirst, rfl, rfl, ch_frames_frameSent (Changes.refl _ s) (by decide) (by decide)⟩
  case wakes =>
    have hmode' : inMode (canSegment s data) 3 = true := by
      rw [inMode, pwrMode, onlyObjs_getN (canSegment_of_notLast hlast) (by decide)]
      exact hmode
    have hstarted := ColdStart.coldStart_started (canSegment s data) 3
    refine ⟨coldStart (canSegment s data) 3, ?_, hstarted.step, hstarted.cause, hstarted.mode⟩
    change execWakeCanFrame data s = _
    simp only [execWakeCanFrame, canFrame, hgood, hmode, hwake, hmode', Bool.not_true, Bool.false_eq_true, ne_eq, not_true_eq_false,
      or_self, if_false, Bool.and_self, if_true]

end Sys2Proof.Proofs.Transports

/-!
PROOFS. O19: requests over the fabric relay, and through the trusted world's port.
-/

namespace Sys2Proof.Proofs.Relay

open Sys2Proof.Machine Sys2Proof.Proofs.Dictionary

/-! ## The object fab.relay (R417) -/

theorem row_fabRelay : ∃ row j, lookupObj 0x9100 0 = some (row, j) ∧ row.ty = .blob ∧ row.acc = .rw ∧ row.ranges = [(4, 1028)] := by
  refine ⟨_, _, rfl, ?_⟩
  decide

theorem targetOf_fabRelay : targetOf 0x9100 0 = (0x9100, 0) := by decide

theorem rowFor_fabRelay {ty : BitVec 8} : ∃ row, rowFor ⟨0x9100, 0, ty⟩ = some row ∧ row.ty = .blob ∧ row.acc = .rw := by
  obtain ⟨row, j, hrow, hty, hacc, -⟩ := row_fabRelay
  refine ⟨row, ?_, hty, hacc⟩
  simp only [rowFor, show (0x9100 : BitVec 16).toNat = 0x9100 from rfl, show (0 : BitVec 8).toNat = 0 from rfl, hrow, targetOf_fabRelay,
    Option.map_some, Option.getD_some]

theorem areaCheck_fabRelay (s : State) (c : WCtx) {b : List Byte} (h : relayOk b = true) : areaCheck s c 0x9100 0 (.bytes b) = .ok := by
  simp [areaCheck, Val.toBytes, h]

theorem areaClaims_fabRelay (s : State) (v : Nat) : areaClaims s 0x9100 0 v = ([], 0) := by
  simp [areaClaims, objKey, K.hapEnable, K.sndEnable, K.pwrReq]

theorem areaApply_fabRelay (s : State) (c : WCtx) (b : List Byte) : areaApply s c 0x9100 0 (.bytes b) = accepted (relayApply s c b) := by
  simp [areaApply, objKey, K.hapEnable, K.sndEnable, K.pwrReq, K.pwrReset, Val.toBytes]

theorem parseVal_blob {b : List Byte} (h : b.length < 65536) : parseVal .blob (leBytes 2 b.length ++ b) = some (.bytes b) := by
  have hdrop : (leBytes 2 b.length ++ b).drop 2 = b := List.drop_left' (length_leBytes ..)
  have htake : (leBytes 2 b.length ++ b).take 2 = leBytes 2 b.length := List.take_left' (length_leBytes ..)
  simp [parseVal, hdrop, htake, ofLe_leBytes 2 b.length h, length_leBytes]

/-- A write of a destination, three zero bytes and a well-formed PDU takes effect. -/
theorem opWrite_fabRelay {s : State} {c : WCtx} {b : List Byte} (hrole : c.role = .mgr) (hok : relayOk b = true) (h4 : 4 ≤ b.length)
    (hlen : b.length ≤ 1028) : ∃ p, p.length = 6 ∧
      opWrite s c ⟨0x9100, 0, 9⟩ (leBytes 2 b.length ++ b) none = ⟨relayApply s { c with cond := false } b, .ok, p, false, 0⟩ := by
  obtain ⟨row, j, hrow, hty, hacc, hranges⟩ := row_fabRelay
  have hidx : (0x9100 : BitVec 16).toNat = 0x9100 := rfl
  have hsub : (0 : BitVec 8).toNat = 0 := rfl
  have htype : (9 : BitVec 8).toNat = Ty.blob.code := rfl
  have hmay : mayWriteObj s { c with cond := false } row 0x9100 0 0 = true := by
    rw [mayWriteObj_eq_areaAccess (c := { c with cond := false }) (.inl hacc) (.inl hrole)]
    simp [areaAccess, hrole]
  have hin : inRange row (.bytes b) = true := by
    simp only [inRange, hranges, List.any_cons, List.any_nil, Bool.or_false, hty, measureOf, Val.toBytes, decide_eq_true_eq]
    omega
  have hstore : storeWrite s { c with cond := false } row 0x9100 0 (.bytes b) = ⟨.ok, relayApply s { c with cond := false } b, [], 0⟩ := by
    simp [storeWrite, areaCheck_fabRelay s _ hok, areaClaims_fabRelay, areaApply_fabRelay, accepted, hacc, Acc.stored]
  have hwrite : writeObj s { c with cond := false } ⟨0x9100, 0, 9⟩ (leBytes 2 b.length ++ b) none =
      ⟨.ok, relayApply s { c with cond := false } b, [], 0⟩ := by
    unfold writeObj
    simp only [hidx, hsub, htype, hrow, targetOf_fabRelay, Option.map_some, Option.getD_some, hty, if_true,
      parseVal_blob (show b.length < 65536 by omega), Val.toNat, hmay, hin, hstore, Option.isSome_none, Bool.not_true, Bool.false_and,
      Bool.or_self, Bool.false_eq_true, if_false]
  obtain ⟨row', hrow', -⟩ := rowFor_fabRelay (ty := 9)
  refine ⟨itemHdr ⟨0x9100, 0, 9⟩ row' ++ leBytes 2 (ctrFor (relayApply s { c with cond := false } b) ⟨0x9100, 0, 9⟩), ?_, ?_⟩
  · rw [List.length_append, length_itemHdr, length_leBytes]
  · unfold opWrite
    simp only [Option.isSome_none, hwrite, WriteOut.settled, show Status.applied .ok = true from rfl, if_true, true_or, hrow']

/-- The write leaves the session waiting for the node's reply. -/
theorem relayApply_reachable {s : State} {c : WCtx} {i : Nat} {a : Fin 64} {pdu : List Byte} (hslot : slotOfId s c.session = some i)
    (h0 : getN s (K.fabNodeSerial a) ≠ 0) (hreach : moduleReachable s (getN s (K.fabNodeSerial a)) = true) :
    relayApply s c (leBytes 1 a ++ leBytes 3 0 ++ pdu) =
      modSess s i (fun x => { x with relayDest := some a.val, relayReply := none, relayWait := true }) := by
  have hlt := a.isLt
  have ha : ((leBytes 1 a ++ leBytes 3 0 ++ pdu).headD 0).toNat = a.val := by
    simp only [leBytes, List.cons_append, List.nil_append, List.headD_cons, BitVec.toNat_ofNat]
    omega
  unfold relayApply
  simp only [hslot, ha, hlt, if_true, h0, hreach, ne_eq, not_false_eq_true, and_self]

/-- A manager may read fab.relay. -/
theorem mayReadObj_fabRelay {s : State} {c : WCtx} {row : ObjRow} (hrole : c.role = .mgr) (hacc : row.acc = .rw) :
    mayReadObj s c row 0x9100 0 = true := by
  simp [mayReadObj, hacc, hrole]

theorem readObj_fabRelay_waiting {s : State} {c : WCtx} {i : Nat} (hslot : slotOfId s c.session = some i)
    (hwait : (sessOf s i).relayWait = true) : readObj s c 0x9100 0 = (.busy, .bytes []) := by
  simp [readObj, hslot, hwait]

theorem readObj_fabRelay_replied {s : State} {c : WCtx} {i : Nat} {b : List Byte} (hslot : slotOfId s c.session = some i)
    (hwait : (sessOf s i).relayWait = false) (hreply : (sessOf s i).relayReply = some b) :
    readObj s c 0x9100 0 = (.ok, .bytes (leBytes 1 ((sessOf s i).relayDest.getD 0) ++ leBytes 3 0 ++ b)) := by
  simp [readObj, hslot, hwait, hreply]

/-- Settles O19: the relay's writes and reads are those of fab.relay in the session, and the trusted world's read needs none. -/
theorem relayAndTrustedPort : Obligations.RelayAndTrustedPort := by
  unfold Obligations.RelayAndTrustedPort
  refine ⟨⟨fun s r i a pdu h hmgr hpdu hlen h0 hreach => ?write, fun s session i pdu hslot hwait => ?reply, fun s r i h hmgr hwait => ?busy,
    fun s r i b h hmgr hwait hreply hfit => ?read, fun s serial mgr pdu hserved => ?relayed⟩, fun s h row v hrun hrow hmay hty hread => ?trusted⟩
  case write =>
    have hok : relayOk (leBytes 1 a ++ leBytes 3 0 ++ pdu) = true := by
      simpa [relayOk, leBytes] using hpdu
    have hsize : (leBytes 1 a ++ leBytes 3 0 ++ pdu).length = 4 + pdu.length := by
      simp only [List.length_append, length_leBytes]
    obtain ⟨p, hp, hwrite⟩ := opWrite_fabRelay (s := renewed s i) (c := sessionCtx s r i none) hmgr hok (by omega) (by omega)
    have hslot : slotOfId (renewed s i) r.session.toNat = some i := (slotOfId_renewed ..).trans h.slot
    rw [relayApply_reachable (c := { sessionCtx s r i none with cond := false }) hslot h0 hreach] at hwrite
    have hrun := request_admitted (found := none) h (by
      rw [show sessionAnswer s r i (blobWrite 0x9100 0 (leBytes 1 a ++ leBytes 3 0 ++ pdu)) none = _ from hwrite]
      exact Sessions.le_maxPdu (by simp [hp]) _)
    rw [show sessionAnswer s r i (blobWrite 0x9100 0 (leBytes 1 a ++ leBytes 3 0 ++ pdu)) none = _ from hwrite] at hrun
    obtain ⟨c, hc⟩ := sessOf_afterAnswer r i 0x11
      ⟨modSess (renewed s i) i (fun x => { x with relayDest := some a.val, relayReply := none, relayWait := true }), .ok, p, false, 0⟩
    refine ⟨_, hrun, answered_afterAnswer .., ?_, ?_, ?_, ?_⟩
    · exact (congrArg Session.relayWait hc).trans (by rw [sessOf_modSess])
    · exact (congrArg Session.relayDest hc).trans (by rw [sessOf_modSess])
    · exact (congrArg Session.relayReply hc).trans (by rw [sessOf_modSess])
    · exact admitted_changes r i _ _ (by decide) (by decide) (ch_sess (Changes.refl _ _) (by decide))
  case reply =>
    have hrun : exec (.relayReplyRx session pdu) s =
        .next (modSess s i (fun x => { x with relayWait := false, relayReply := some pdu })) := by
      change execRelayReplyRx session pdu s = _
      simp only [execRelayReplyRx, hslot, hwait, if_true]
    refine ⟨_, hrun, ?_, ?_, fun j hj => sessOf_modSess_ne _ _ hj, ch_sess (Changes.refl _ s) (by decide)⟩ <;> rw [sessOf_modSess]
  case busy =>
    obtain ⟨row, hrow, -, hacc⟩ := rowFor_fabRelay (ty := 0)
    have hslot : slotOfId (renewed s i) r.session.toNat = some i := (slotOfId_renewed ..).trans h.slot
    have hread := readObj_fabRelay_waiting (c := sessionCtx s r i none) hslot (by rw [sessOf_renewed]; exact hwait)
    have hans : sessionAnswer s r i (.read ⟨0x9100, 0, 0⟩) none = refused (renewed s i) .busy :=
      opRead_refused (c := sessionCtx s r i none) hrow (mayReadObj_fabRelay hmgr hacc) rfl hread (by decide)
    obtain ⟨t, hrun, hanswered, hchanges⟩ := request_refused h hans (by decide)
    exact ⟨t, hrun, hanswered, (renewed_changes i (by decide) (Changes.refl _ s)).trans hchanges⟩
  case read =>
    obtain ⟨row, hrow, hty, hacc⟩ := rowFor_fabRelay (ty := 0)
    have hslot : slotOfId (renewed s i) r.session.toNat = some i := (slotOfId_renewed ..).trans h.slot
    have hread := readObj_fabRelay_replied (c := sessionCtx s r i none) hslot (by rw [sessOf_renewed]; exact hwait)
      (by rw [sessOf_renewed]; exact hreply)
    rw [sessOf_renewed] at hread
    have hans : sessionAnswer s r i (.read ⟨0x9100, 0, 0⟩) none = _ :=
      opRead_ok (c := sessionCtx s r i none) hrow (mayReadObj_fabRelay hmgr hacc) (.inl rfl) hread (by simp [pinHidden, targetOf_fabRelay])
    rw [hty] at hans
    have hlength : (leBytes 1 ((sessOf s i).relayDest.getD 0) ++ leBytes 3 0 ++ b).length = 4 + b.length := by
      simp only [List.length_append, length_leBytes]
    have hrun := request_admitted (found := none) h (by
      rw [hans]
      simp only [List.length_append, length_itemHdr, length_leBytes, encodeVal, Val.toBytes]
      omega)
    rw [hans] at hrun
    refine ⟨_, _, hrun, rfl, rfl, ?_, admitted_changes r i _ _ (by decide) (by decide) (Changes.refl _ _)⟩
    simp only [responseOf, encodeVal, Val.toBytes, hlength, itemHdr, hty]
    simp only [List.append_assoc]
    rfl
  case relayed =>
    change execRelayedPduRx serial mgr pdu s = _
    rw [execRelayedPduRx, if_pos hserved]
  case trusted =>
    have hans := opRead_ok (c := { role := .tw }) hrow hmay (.inl hty) hread (by simp [pinHidden])
    have htw : exec (.twDictRequest (.read h)) s = .next { s with
        twResp := some { op := 0x10, session := 0, seq := 0, status := .ok, more := false, aux := 0
                         payload := itemHdr h row ++ leBytes 2 (ctrFor s h) ++ encodeVal row.ty v } } := by
      change execTwDictRequest (.read h) s = _
      simp only [execTwDictRequest, twRequest, hrun, Bool.not_true, Bool.false_eq_true, if_false, execRequest, hans]
      rfl
    exact ⟨_, _, htw, rfl, rfl, rfl, rfl, ch_twResp (Changes.refl _ s) (by decide)⟩

end Sys2Proof.Proofs.Relay

/-!
PROOFS. O20, O22, O23: claiming a surface slot, releasing its surface, and the overwriting of released memory.

A claim writes surf.owner only, so what it leaves is that one write. A claim whose counter has moved is stopped before the slot's
check, one beyond the grant by the check itself. A release writes surf.alloc and the handle and leaves a scrub record; the scrub
overwrites exactly the words between the record's first and last.
-/

namespace Sys2Proof.Proofs.SurfaceClaims

open Sys2Proof.Machine
open Sys2Proof.Proofs.SurfaceAllocation (objKey_div objKey_mod mayWriteObj_surf writeSurf_refused)
open Sys2Proof.Proofs.FenceObjects (owner_inRange)

/-! ## Refused claims of any slot -/

/-- A conditional write that the session may make and whose counter has moved is refused as STALE (R32). -/
theorem writeObj_stale {s : State} {c : WCtx} {k n e : Nat} {ty : Ty} {a : Acc} {rg : List (Int × Int)} {h : ItemHdr}
    (hi : h.index.toNat = k / 256) (hs : h.sub.toNat = k % 256) (ht : h.ty.toNat = ty.code) (hrow : rowIs k ty a rg = true)
    (hfit : fitsTy ty n = true) (hw : ∀ row : ObjRow, row.acc = a → mayWriteObj s c row (k / 256) (k % 256) n = true)
    (hx : e ≠ ctrOf s k) : writeObj s c h (leBytes ty.size n) (some e) = ⟨.stale, s, [], 0⟩ := by
  unfold rowIs at hrow
  split at hrow
  · next row j hl =>
    simp only [Bool.and_eq_true, beq_iff_eq] at hrow
    obtain ⟨⟨⟨hty, hacc⟩, -⟩, htarget⟩ := hrow
    have hk : objKey (k / 256) (k % 256) = k := by unfold objKey; omega
    unfold writeObj
    rw [hi, hs, hl]
    simp only [htarget, hl, Option.map_some, Option.getD_some]
    rw [ht, ← hty, if_pos rfl, hty, parse_num hfit, hk]
    simp only [Option.map_some, Option.getD_some, Val.toNat, hw row hacc]
    simp [hx]
  · cases hrow

/-- A claim whose write is refused changes nothing but the session's and the answer's parts. -/
theorem claimObject_refused {s : State} {r : DictReq} {i k : Nat} {owner : BitVec 8} {expected : BitVec 16} {ty : Ty} {a : Acc}
    {rg : List (Int × Int)} {st : Status} (hrow : rowIs k ty a rg = true)
    (h : Admitted s r i (numWriteIf (k / 256) (k % 256) owner.toNat expected))
    (hw : writeObj (renewed s i) { sessionCtx s r i none with cond := true }
      ⟨BitVec.ofNat 16 (k / 256), BitVec.ofNat 8 (k % 256), BitVec.ofNat 8 ty.code⟩ (leBytes ty.size owner.toNat)
      (some expected.toNat) = ⟨st, renewed s i, [], 0⟩)
    (hok : st ≠ .ok ∧ st ≠ .intransit) (hclaimed : st ≠ .claimed) :
    ∃ u, claimObject s r k expected owner = .next u ∧ answered u r 0x12 st ∧ Changes [.fresh, .sess, .resp] s u := by
  unfold claimObject
  rw [numWriteIf_eq hrow] at h ⊢
  obtain ⟨u, hrun, hans, hch⟩ := request_refused (found := none) h
    (opWrite_refused (expected := some expected.toNat) hw hok hclaimed) hok
  exact ⟨u, hrun, hans, (renewed_changes i (by decide) (Changes.refl _ s)).trans hch⟩

/-- The item header that names an object's key. -/
theorem itemHdr_toNat {k : Nat} (ty : Ty) (hk : k < 2 ^ 24) :
    (BitVec.ofNat 16 (k / 256)).toNat = k / 256 ∧ (BitVec.ofNat 8 (k % 256)).toNat = k % 256 ∧
      (BitVec.ofNat 8 ty.code).toNat = ty.code := by
  have hty := code_lt ty
  refine ⟨?_, ?_, ?_⟩ <;> rw [BitVec.toNat_ofNat] <;> omega

/-! ## surf.owner -/

theorem surfOwner_div (slot : Nat) : K.surfOwner slot / 256 = 0x3800 + slot := objKey_div (by omega)

theorem surfOwner_mod (slot : Nat) : K.surfOwner slot % 256 = 1 := objKey_mod (by omega)

theorem surfOwner_lt (slot : Fin 2048) : K.surfOwner slot < 2 ^ 24 := key_lt (by have := slot.isLt; omega) (by omega)

theorem mayWriteObj_surfOwner {s : State} {r : DictReq} {i : Nat} {slot : Fin 2048} {new : Nat} {row : ObjRow}
    (hmay : mayOwn s i (getN s (K.surfOwner slot)) new) (hacc : row.acc = .rw) :
    mayWriteObj (renewed s i) { sessionCtx s r i none with cond := true } row (K.surfOwner slot / 256) (K.surfOwner slot % 256) new
      = true := by
  rw [surfOwner_div, surfOwner_mod]
  rcases hmay with hmgr | ⟨hvf, ⟨hold, hnew⟩ | ⟨hold, hnew⟩⟩
  · simp [mayWriteObj, hacc, sessionCtx, hmgr, areaAccess_surf slot.isLt, surfAccess, WCtx.isMgr]
  · simp [mayWriteObj, hacc, sessionCtx, hvf, areaAccess_surf slot.isLt, surfAccess, getN_renewed, hold, hnew]
  · simp [mayWriteObj, hacc, sessionCtx, hvf, areaAccess_surf slot.isLt, surfAccess, getN_renewed, hold, hnew]

/-- A function within its grant, or no function, may become the owner of a slot that holds no surface. -/
theorem surfCheck_owner_ok {s : State} {slot new : Nat} (halloc : getB s (K.surfAlloc slot) = false)
    (hgrant : grantLeft s 0x3800 0x4000 (getN s (K.grantSurfaces new)) new) : surfCheck s slot 1 new = .ok := by
  rcases hgrant with rfl | ⟨hexists, hleft⟩
  · simp [surfCheck, halloc]
  · have hover : overGrant s new (ownedCount s 0x3800 0x4000 new) (getN s (K.grantSurfaces new)) = false := by
      simp only [overGrant, hexists, Bool.and_true, Bool.and_eq_false_iff, decide_eq_false_iff_not]
      omega
    simp [surfCheck, halloc, hover, hexists]

/-- A VF that holds as many surfaces as it was granted may not become the owner of one more. -/
theorem surfCheck_owner_range {s : State} {slot new : Nat} (hfree : getN s (K.surfOwner slot) = 0xFF) (hpos : 0 < new) (hlt : new < 64)
    (hon : vfOn s new = true) (hfull : getN s (K.grantSurfaces new) ≤ ownedCount s 0x3800 0x4000 new) :
    surfCheck s slot 1 new = .range := by
  have hover : overGrant s new (ownedCount s 0x3800 0x4000 new) (getN s (K.grantSurfaces new)) = true := by
    simp only [overGrant, funcExists, hon, Bool.or_true, Bool.and_true, Bool.and_eq_true, decide_eq_true_eq]
    omega
  simp [surfCheck, hfree, hover, show new ≠ 0xFF by omega]

theorem exec_surfClaim_done {s : State} {r : DictReq} {i : Nat} {slot : Fin 2048} {expected : BitVec 16} {owner : BitVec 8}
    (h : AdmittedClaim s r i (K.surfOwner slot) owner.toNat expected) (hmay : mayOwn s i (getN s (K.surfOwner slot)) owner.toNat)
    (hctr : expected.toNat = ctrOf s (K.surfOwner slot)) (halloc : getB s (K.surfAlloc slot) = false)
    (hgrant : grantLeft s 0x3800 0x4000 (getN s (K.grantSurfaces owner.toNat)) owner.toNat) :
    ∃ t, exec (.surfClaim r slot expected owner) s = .next t ∧ answered t r 0x12 .ok ∧
      Changes [.sess, .resp] (writeN (renewed s i) (K.surfOwner slot) owner.toNat) t := by
  refine claimObject_done (a := .rw) (row_surfOwner slot) (surfOwner_lt slot) h (decide_eq_true owner.isLt)
    (fun row hacc => mayWriteObj_surfOwner hmay hacc) hctr (owner_inRange hgrant) ?_ ?_ (.inl rfl) ?_ (.inl rfl)
  · rw [surfOwner_div, surfOwner_mod, areaCheck_surf slot.isLt (by omega)]
    exact surfCheck_owner_ok halloc hgrant
  · rw [surfOwner_div, surfOwner_mod, areaClaims_surf slot.isLt (by omega)]
  · rw [surfOwner_div, surfOwner_mod, areaApply_surf slot.isLt (by omega)]
    rfl

theorem exec_surfClaim_stale {s : State} {r : DictReq} {i : Nat} {slot : Fin 2048} {expected : BitVec 16} {owner : BitVec 8}
    (h : AdmittedClaim s r i (K.surfOwner slot) owner.toNat expected) (hmay : mayOwn s i (getN s (K.surfOwner slot)) owner.toNat)
    (hctr : expected.toNat ≠ ctrOf s (K.surfOwner slot)) :
    ∃ t, exec (.surfClaim r slot expected owner) s = .next t ∧ answered t r 0x12 .stale ∧ Changes [.fresh, .sess, .resp] s t := by
  obtain ⟨hidx, hsub, hty⟩ := itemHdr_toNat .u8 (surfOwner_lt slot)
  exact claimObject_refused (row_surfOwner slot) h
    (writeObj_stale hidx hsub hty (row_surfOwner slot) (decide_eq_true owner.isLt) (fun row hacc => mayWriteObj_surfOwner hmay hacc) hctr)
    (by decide) (by decide)

theorem exec_surfClaim_overGrant {s : State} {r : DictReq} {i : Nat} {slot : Fin 2048} {expected : BitVec 16} {owner : BitVec 8}
    (h : AdmittedClaim s r i (K.surfOwner slot) owner.toNat expected) (hmay : mayOwn s i (getN s (K.surfOwner slot)) owner.toNat)
    (hctr : expected.toNat = ctrOf s (K.surfOwner slot)) (hfree : getN s (K.surfOwner slot) = 0xFF) (hpos : 0 < owner.toNat)
    (hlt : owner.toNat < 64) (hon : vfOn s owner.toNat = true)
    (hfull : getN s (K.grantSurfaces owner.toNat) ≤ ownedCount s 0x3800 0x4000 owner.toNat) :
    ∃ t, exec (.surfClaim r slot expected owner) s = .next t ∧ answered t r 0x12 .range ∧ Changes [.fresh, .sess, .resp] s t := by
  obtain ⟨hidx, hsub, hty⟩ := itemHdr_toNat .u8 (surfOwner_lt slot)
  have hrange : [((0 : Int), (64 : Int)), (255, 255)].any (fun e =>
      decide (e.1 ≤ measureOf .u8 (.num owner.toNat) ∧ measureOf .u8 (.num owner.toNat) ≤ e.2)) = true := by
    simp only [List.any_cons, Bool.or_eq_true, decide_eq_true_eq]
    exact .inl ⟨Int.natCast_nonneg _, Int.ofNat_le.mpr hlt.le⟩
  refine claimObject_refused (row_surfOwner slot) h
    (writeObj_refused hidx hsub hty (row_surfOwner slot) (decide_eq_true owner.isLt) (fun row hacc => mayWriteObj_surfOwner hmay hacc)
      (.inr (congrArg some hctr)) hrange ?_ (by decide) (.inr (.inr rfl))) (by decide) (by decide)
  rw [surfOwner_div, surfOwner_mod, areaCheck_surf slot.isLt (by omega)]
  exact surfCheck_owner_range hfree hpos hlt hon hfull

theorem ctrOf_writeN_of_ne {s : State} {k n : Nat} (h : getN s k ≠ n) : ctrOf (writeN s k n) k = (ctrOf s k + 1) % 65536 := by
  rw [writeN, ctrOf_writeV, if_neg fun hv => h (by rw [getN, hv]; rfl)]

/-- Settles O20: an accepted claim leaves one write of surf.owner; a counter that has moved and a full grant are refusals. -/
theorem surfaceClaim : Obligations.SurfaceClaim := by
  unfold Obligations.SurfaceClaim
  intro s r i slot expected owner h hmay
  refine ⟨fun hctr hgrant halloc hne => ?_, fun hctr => exec_surfClaim_stale h hmay hctr,
    fun hctr _ hfree hpos hlt hon hfull => exec_surfClaim_overGrant h hmay hctr hfree hpos hlt hon hfull⟩
  obtain ⟨t, hrun, hans, hafter⟩ := exec_surfClaim_done h hmay hctr halloc hgrant
  refine ⟨t, hrun, hans, ?_, ?_, ?_, ?_⟩
  · rw [hafter.getN (by decide) (by decide), getN_writeN]
  · rw [hafter.ctrOf (by decide) (by decide), ctrOf_writeN_of_ne (by rw [getN_renewed]; exact hne),
      (renewed_changes i (P := [.sess]) (by decide) (Changes.refl _ s)).ctrOf (by decide) (by decide)]
  · have hwrite : onlyObjs [K.surfOwner slot] s (writeN (renewed s i) (K.surfOwner slot) owner.toNat) :=
      onlyObjs_writeN _ (by simp) (onlyObjs_of_eq rfl)
    exact onlyObjs_trans hwrite (hafter.only (by decide) (by decide) _)
  · exact changes_done (writeN_ch (by decide) (Changes.refl _ _)) hafter (by decide) (by decide)

/-! ## surf.alloc false (R81) -/

theorem surfAlloc_div (slot : Nat) : K.surfAlloc slot / 256 = 0x3800 + slot := objKey_div (by omega)

theorem surfAlloc_mod (slot : Nat) : K.surfAlloc slot % 256 = 8 := objKey_mod (by omega)

/-- The state after a surface is released: surf.alloc is written, its handle is gone, and its memory waits to be overwritten. -/
def slotReleased (s : State) (i : Nat) : State := releaseSurface (writeN s (K.surfAlloc i) 0) i

theorem surfApply_release {s : State} {i : Nat} (halloc : getB s (K.surfAlloc i) = true) : surfApply s i 8 0 = slotReleased s i := by
  unfold surfApply
  dsimp only
  rw [if_pos rfl, if_neg (by simp), if_pos ⟨rfl, halloc⟩]
  rfl

theorem exec_surfRelease_done {s : State} {r : DictReq} {i : Nat} {slot : Fin 2048}
    (h : AdmittedWrite s r i (K.surfAlloc slot) 0) (hown : ownerSession s i (getN s (K.surfOwner slot)))
    (halloc : getB s (K.surfAlloc slot) = true) (hnamed : layerNames s (getN s (K.surfHandle slot)) = false) :
    ∃ t, exec (.surfRelease r slot) s = .next t ∧ answered t r 0x11 .ok ∧
      Changes [.sess, .resp] (slotReleased (renewed s i) slot) t := by
  refine writeObject_done (found := none) (a := .rw) (row_surfAlloc slot) (key_lt (by have := slot.isLt; omega) (by omega)) h rfl ?_
    (by decide) ?_ ?_ (.inl rfl) ?_ (.inl rfl)
  · intro row hacc
    rw [surfAlloc_div, surfAlloc_mod]
    exact mayWriteObj_surf hown (by omega) (by omega) hacc
  · rw [surfAlloc_div, surfAlloc_mod, areaCheck_surf slot.isLt (by omega)]
    have hfree : surfCheck s slot 8 0 = .ok := by simp [surfCheck, hnamed]
    exact hfree
  · rw [surfAlloc_div, surfAlloc_mod, areaClaims_surf slot.isLt (by omega)]
  · rw [surfAlloc_div, surfAlloc_mod, areaApply_surf slot.isLt (by omega)]
    exact congrArg accepted (surfApply_release (s := renewed s i) halloc)

theorem slotReleased_changes (s : State) (i : Nat) : Changes [.objs, .surfs, .scrubs] s (slotReleased s i) :=
  releaseSurface_ch (by decide) (writeN_ch (by decide) (Changes.refl _ s))

theorem slotReleased_spec (s : State) (i : Nat) :
    getB (slotReleased s i) (K.surfAlloc i) = false ∧ getN (slotReleased s i) (K.surfHandle i) = 0 ∧
    (slotReleased s i).scrubs = s.scrubs ++
      [⟨i, getN s (K.surfHandle i), getN s (K.surfOwner i), (surfOf s i).unit, (surfOf s i).base, slotSize s i⟩] ∧
    onlyObjs [K.surfAlloc i, K.surfHandle i] s (slotReleased s i) := by
  have hwrite : onlyObjs [K.surfAlloc i] s (writeN s (K.surfAlloc i) 0) := onlyObjs_writeN 0 (by simp) (onlyObjs_refl _ s)
  have hchanges : Changes [.objs] s (writeN s (K.surfAlloc i) 0) := writeN_ch (by decide) (Changes.refl _ s)
  have hsurf : surfOf (writeN s (K.surfAlloc i) 0) i = surfOf s i := by rw [surfOf, hchanges.surfs (by decide), surfOf]
  refine ⟨?_, getN_putN .., ?_, ?_⟩
  · have hget : getN (slotReleased s i) (K.surfAlloc i) = 0 :=
      (getN_putN_ne _ _ (by simp [K.surfAlloc, K.surfHandle, objKey])).trans (getN_writeN ..)
    rw [getB, hget]
    rfl
  · have hscrubs : (slotReleased s i).scrubs = (writeN s (K.surfAlloc i) 0).scrubs ++
        [⟨i, getN (writeN s (K.surfAlloc i) 0) (K.surfHandle i), getN (writeN s (K.surfAlloc i) 0) (K.surfOwner i),
          (surfOf (writeN s (K.surfAlloc i) 0) i).unit, (surfOf (writeN s (K.surfAlloc i) 0) i).base,
          slotSize (writeN s (K.surfAlloc i) 0) i⟩] := rfl
    rw [hscrubs, hchanges.scrubs (by decide), onlyObjs_getN hwrite (by simp [K.surfAlloc, K.surfHandle, objKey]),
      onlyObjs_getN hwrite (by simp [K.surfAlloc, K.surfOwner, objKey]), hsurf, slotSize_of_only hwrite] <;>
      simp [K.surfFormat, K.surfLayout, K.surfWidth, K.surfHeight, K.surfAlloc, objKey]
  · exact onlyObjs_trans (onlyObjs_writeN 0 (by simp) (onlyObjs_refl _ s)) (onlyObjs_putN 0 (by simp) (onlyObjs_refl _ _))

/-! ## The overwriting of a released surface's memory -/

theorem exec_surfScrubDone {s : State} {slot : Fin 2048} {x : Scrub} (hx : s.scrubs.find? (fun x => x.slot == slot.val) = some x)
    (hunused : handleInUse s x.handle = false) :
    exec (.surfScrubDone slot) s = .next (zeroUnit { s with scrubs := s.scrubs.erase x } x.unit x.base x.size) := by
  change execSurfScrubDone slot s = _
  simp [execSurfScrubDone, scrubSurface, hx, hunused]

/-- Settles O22: an accepted release leaves `slotReleased`; the scrub overwrites the words of its record and no others. -/
theorem surfaceRelease : Obligations.SurfaceRelease := by
  unfold Obligations.SurfaceRelease
  refine ⟨fun s r i slot h hown halloc hnamed _ => ?release, fun s slot x hx hunused => ?scrub⟩
  case release =>
    obtain ⟨t, hrun, hans, hafter⟩ := exec_surfRelease_done h hown halloc hnamed
    obtain ⟨hclear, hhandle, hscrubs, hobjs⟩ := slotReleased_spec (renewed s i) slot
    refine ⟨t, hrun, hans, ?_, ?_, ?_, onlyObjs_trans hobjs (hafter.only (by decide) (by decide) _),
      changes_done ((slotReleased_changes (renewed s i) slot).mono (by decide)) hafter (by decide) (by decide)⟩
    · rw [hafter.getB (by decide) (by decide), hclear]
    · rw [hafter.getN (by decide) (by decide), hhandle]
    · exact (hafter.scrubs (by decide)).trans hscrubs
  case scrub =>
    refine ⟨_, exec_surfScrubDone hx hunused, rfl, fun a hlo hhi => ?_, fun a houtside hle => ?_,
      zeroUnit_ch (by decide) (ch_scrubs (Changes.refl _ s) (by decide))⟩
    · have hrank : rankOfUnit { s with scrubs := s.scrubs.erase x } x.unit = rankOfUnit s x.unit := rfl
      rw [memGet_zeroUnit, hrank, if_pos ⟨hlo, by omega⟩]
    · have hrank : rankOfUnit { s with scrubs := s.scrubs.erase x } x.unit = rankOfUnit s x.unit := rfl
      rw [memGet_zeroUnit, hrank, if_neg (by omega)]

/-- Settles O23: while a layer names the surface, the slot's check answers BUSY. -/
theorem namedSurfaceIsNotReleased : Obligations.NamedSurfaceIsNotReleased := by
  unfold Obligations.NamedSurfaceIsNotReleased
  intro s r i slot h hown halloc hnamed
  exact writeSurf_refused (by omega) (by omega) (row_surfAlloc slot) h hown rfl (by decide)
    (show surfCheck s slot 8 0 = .busy by simp [surfCheck, halloc, hnamed]) (by decide) (by decide)

end Sys2Proof.Proofs.SurfaceClaims

/-!
PROOFS. O27: the host's completion index and the completions it releases, and a pending ring size.

Every completion written takes one step of the queue's write index and moves no object but the counts of events, so the space left
shrinks by one with each. The queue holds at most 2^12 entries, so the distance between its indices does not wrap while it fills.
-/

namespace Sys2Proof.Proofs.CompletionQueue

open Sys2Proof.Machine

/-- The entries of a ring's completion queue that are free. -/
def cqSpace (s : State) (h : Nat) : Nat := 2 ^ getN s (K.ringCqOrder h) - idxDiff (ringOf s h).cqTail (ringOf s h).cqHead

theorem cqFull_iff (s : State) (h : Nat) : cqFull s h = true ↔ cqSpace s h = 0 := by
  simp only [cqFull, cqSpace, decide_eq_true_eq]
  omega

theorem ringFor_lt {s : State} {f l h : Nat} (hfor : ringFor s f l = some h) : h < 256 :=
  List.mem_range.mp (List.mem_of_find?_eq_some hfor)

theorem not_noteKey_ringCqOrder {h : Nat} (hlt : h < 256) : ¬ noteKey (K.ringCqOrder h) := by
  simp only [noteKey, K.dictNotifyDrop, K.regVoteFix, K.regVoteBad, K.kaolinCanDrop, K.logOut, K.ringCqOrder, objKey]
  omega

/-- What writing completions does to all state but the ring's own record. -/
def releaseParts : List Part := [.fresh, .voteSecond, .host, .funcs, .sess, .rings, .grog, .notes]

/-- The ring after `n` of its held completions have been written. -/
def released (r : Ring) (n : Nat) : Ring :=
  { r with held := r.held.drop n, cqTail := if n = 0 then r.cqTail else (r.cqTail + n) % 65536, completed := r.completed + n }

theorem released_zero (r : Ring) : released r 0 = r := by simp [released]

theorem released_succ {r : Ring} {c : HeldCompletion} {cs : List HeldCompletion} (hheld : r.held = c :: cs) (n : Nat) :
    released { r with held := cs, cqTail := (r.cqTail + 1) % 65536, completed := r.completed + 1 } n = released r (n + 1) := by
  have htail : (if n = 0 then (r.cqTail + 1) % 65536 else ((r.cqTail + 1) % 65536 + n) % 65536) = (r.cqTail + (n + 1)) % 65536 := by
    split <;> omega
  have hdone : r.completed + 1 + n = r.completed + (n + 1) := by omega
  simp only [released, hheld, htail, hdone, List.drop_succ_cons, Nat.add_one_ne_zero, if_false]

/-- Takes the oldest held completion off its ring and writes it. -/
def writeOldest (s : State) (h : Nat) (c : HeldCompletion) (cs : List HeldCompletion) : State :=
  writeCompletion (modRing s h (fun x => { x with held := cs })) c

theorem writeOldest_changes (s : State) (h : Nat) (c : HeldCompletion) (cs : List HeldCompletion) :
    Changes releaseParts s (writeOldest s h c cs) :=
  writeCompletion_ch (List.Subset.refl _) (modRing_ch (by decide) (Changes.refl _ s))

theorem ringOf_writeOldest {s : State} {h : Nat} {c : HeldCompletion} {cs : List HeldCompletion} (hc : c.ticket.ring = h) :
    ringOf (writeOldest s h c cs) h =
      { ringOf s h with held := cs, cqTail := ((ringOf s h).cqTail + 1) % 65536, completed := (ringOf s h).completed + 1 } := by
  obtain ⟨-, hring, -⟩ := writeCompletion_spec (modRing s h (fun x => { x with held := cs })) c
  rw [hc, ringOf_modRing] at hring
  exact hring

theorem ringOf_writeOldest_ne {s : State} {h j : Nat} {c : HeldCompletion} {cs : List HeldCompletion} (hc : c.ticket.ring = h)
    (hj : j ≠ h) : ringOf (writeOldest s h c cs) j = ringOf s j := by
  obtain ⟨-, -, hothers⟩ := writeCompletion_spec (modRing s h (fun x => { x with held := cs })) c
  exact (hothers j (by rw [hc]; exact hj)).trans (ringOf_modRing_ne _ _ hj)

/-- Writing one completion into a queue with space leaves one entry less. -/
theorem cqSpace_writeOldest {s : State} {h : Nat} {c : HeldCompletion} {cs : List HeldCompletion} (hc : c.ticket.ring = h)
    (hlt : h < 256) (horder : getN s (K.ringCqOrder h) ≤ 12) (hspace : cqSpace s h ≠ 0) :
    cqSpace (writeOldest s h c cs) h = cqSpace s h - 1 := by
  have hkeep := getN_of_changes (writeOldest_changes s h c cs) (by decide) (not_noteKey_ringCqOrder hlt)
  have hsize : 2 ^ getN s (K.ringCqOrder h) ≤ 4096 := (Nat.pow_le_pow_right (by omega) horder).trans (by decide)
  simp only [cqSpace, hkeep, ringOf_writeOldest hc, idxDiff] at hspace ⊢
  generalize 2 ^ getN s (K.ringCqOrder h) = size at hsize hspace ⊢
  omega

/-- Draining writes the oldest held completions, as many as there is space for. -/
theorem drainHeld_spec {h : Nat} (hlt : h < 256) (n : Nat) (s : State) (hn : (ringOf s h).held.length ≤ n)
    (hmine : ∀ c ∈ (ringOf s h).held, c.ticket.ring = h) (horder : getN s (K.ringCqOrder h) ≤ 12) :
    ringOf (drainHeld n s h) h = released (ringOf s h) (min (ringOf s h).held.length (cqSpace s h)) ∧
    (min (ringOf s h).held.length (cqSpace s h) = 0 → drainHeld n s h = s) ∧
    (∀ j, j ≠ h → ringOf (drainHeld n s h) j = ringOf s j) := by
  induction n generalizing s with
  | zero =>
    have hnone : min (ringOf s h).held.length (cqSpace s h) = 0 := by omega
    rw [hnone, released_zero]
    exact ⟨rfl, fun _ => rfl, fun _ _ => rfl⟩
  | succ n ih =>
    cases hheld : (ringOf s h).held with
    | nil =>
      have hdrain : drainHeld (n + 1) s h = s := by simp only [drainHeld, hheld]
      rw [hdrain, List.length_nil, Nat.zero_min, released_zero]
      exact ⟨rfl, fun _ => rfl, fun _ _ => rfl⟩
    | cons c cs =>
      have hc : c.ticket.ring = h := hmine c (by rw [hheld]; exact .head _)
      have hdrain : drainHeld (n + 1) s h = if cqFull s h then s else drainHeld n (writeOldest s h c cs) h := by
        simp only [drainHeld, hheld]
        rfl
      by_cases hspace : cqSpace s h = 0
      · rw [hdrain, if_pos ((cqFull_iff s h).mpr hspace), hspace, Nat.min_zero, released_zero]
        exact ⟨rfl, fun _ => rfl, fun _ _ => rfl⟩
      · rw [hdrain, if_neg (fun hfull => hspace ((cqFull_iff s h).mp hfull))]
        have hring := ringOf_writeOldest (s := s) (cs := cs) hc
        have hheld' : (ringOf (writeOldest s h c cs) h).held = cs := by rw [hring]
        have hspace' := cqSpace_writeOldest (cs := cs) hc hlt horder hspace
        have hkeep := getN_of_changes (writeOldest_changes s h c cs) (by decide) (not_noteKey_ringCqOrder hlt)
        obtain ⟨hrest, -, hothers⟩ := ih (writeOldest s h c cs)
          (by rw [hheld']; rw [hheld, List.length_cons] at hn; omega)
          (by rw [hheld']; exact fun x hx => hmine x (by rw [hheld]; exact .tail _ hx)) (by rw [hkeep]; exact horder)
        have hcount : min (c :: cs).length (cqSpace s h) = min cs.length (cqSpace s h - 1) + 1 := by
          rw [List.length_cons]; omega
        refine ⟨?_, fun hnone => absurd hnone (by omega), fun j hj => (hothers j hj).trans (ringOf_writeOldest_ne hc hj)⟩
        rw [hrest, hheld', hspace', hcount, hring]
        exact released_succ hheld _

/-- The state in which the host's completion index is taken and nothing is written yet. -/
def cqHeadTaken (s : State) (h v : Nat) : State := modRing s h (fun r => { r with cqHead := v })

theorem exec_cqHeadWrite {s : State} {f : Fin 65} {ring : Fin 16} {value : BitVec 16} {h : Nat} (hf : funcExists s f = true)
    (hfor : ringFor s f ring = some h) :
    exec (.cqHeadWrite f ring value) s = .next (drainHeld (ringOf s h).held.length (cqHeadTaken s h value.toNat) h) := by
  change execCqHeadWrite f ring value s = _
  have hmod : value.toNat % 65536 = value.toNat := Nat.mod_eq_of_lt value.isLt
  simp only [execCqHeadWrite, hf, if_true, cqHeadOp, hfor, hmod]
  rfl

/-- A pending size comes into force, and the ring's function is told. -/
theorem exec_resizeDone {s : State} {ring : Fin 256} {n : Nat} (hresize : (ringOf s ring).resize = some n)
    (hon : getB s (K.ringEnable ring) = true) (hempty : (ringOf s ring).head = (ringOf s ring).tail)
    (hmult : (ringOf s ring).tail % 2 ^ (ringOf s ring).order = 0) :
    ∃ t, exec (.resizeDone ring) s = .next t ∧
      Changes [.fresh, .voteSecond, .funcs, .sess, .grog, .notes]
        (modRing s ring (fun r => { r with order := n, resize := none })) t := by
  change ∃ t, execResizeDone ring s = .next t ∧ _
  unfold execResizeDone
  simp only [hresize]
  rw [if_pos ⟨hon, hempty, hmult⟩]
  exact ⟨_, rfl, emit_ch (List.Subset.refl _) (Changes.refl _ _)⟩

/-- Settles O27: the draining writes as many completions as fit, and a pending size replaces the order. -/
theorem completionIndexAndResize : Obligations.CompletionIndexAndResize := by
  unfold Obligations.CompletionIndexAndResize
  refine ⟨fun s f ring value h hf hfor hmine horder => ?index, fun s ring n hresize hon hempty hmult => ?resize⟩
  case index =>
    have htaken : ringOf (cqHeadTaken s h value.toNat) h = { ringOf s h with cqHead := value.toNat } := ringOf_modRing ..
    have hrings : Changes [.rings] s (cqHeadTaken s h value.toNat) := modRing_ch (by decide) (Changes.refl _ s)
    have hheld : (ringOf (cqHeadTaken s h value.toNat) h).held = (ringOf s h).held := by rw [htaken]
    have hspace : cqSpace (cqHeadTaken s h value.toNat) h =
        2 ^ getN s (K.ringCqOrder h) - idxDiff (ringOf s h).cqTail value.toNat := by
      rw [cqSpace, htaken, hrings.getN (by decide) (by decide)]
    obtain ⟨hring, hsame, hothers⟩ := drainHeld_spec (ringFor_lt hfor) (ringOf s h).held.length (cqHeadTaken s h value.toNat)
      (by rw [hheld]) (by rw [hheld]; exact hmine) (by rw [hrings.getN (by decide) (by decide)]; exact horder)
    rw [hheld, hspace] at hring hsame
    rw [htaken] at hring
    refine ⟨_, _, exec_cqHeadWrite hf hfor, by rw [hring]; rfl, rfl, by rw [hring]; rfl, fun hpos => ?_, by rw [hring]; rfl,
      fun hnone => ?_, fun j hj => (hothers j hj).trans (ringOf_modRing_ne _ _ hj),
      drainHeld_ch (List.Subset.refl _) (hrings.mono (by decide))⟩
    · rw [hring]
      exact if_neg hpos.ne'
    · rw [hsame hnone]
      exact ⟨htaken, hrings⟩
  case resize =>
    obtain ⟨t, hrun, hafter⟩ := exec_resizeDone hresize hon hempty hmult
    have hring : ∀ j, ringOf t j = ringOf (modRing s ring (fun r => { r with order := n, resize := none })) j := fun j => by
      rw [ringOf, hafter.rings (by decide), ringOf]
    exact ⟨t, hrun, (hring ring).trans (ringOf_modRing ..), fun j hj => (hring j).trans (ringOf_modRing_ne _ _ hj),
      (modRing_ch (by decide) (Changes.refl _ s)).trans (hafter.mono (by decide))⟩

end Sys2Proof.Proofs.CompletionQueue

/-!
PROOFS. O28: writes to the event block and the snapshot mailbox, while they are idle and while they are busy.

Raising a vector votes its MSI-X entry (R68). What a vote can do to a function's event block is small: it may set the pending bit of the
health class, and a failed vote masks every class; a function whose MSI-X entries all agree keeps its mask. That relation between two
records of a function is transitive, so it carries over the raising of every vector that an unmasking fires.
-/

namespace Sys2Proof.Proofs.EventBlock

open Sys2Proof.Machine

/-! ## Pending bits -/

theorem testBit_sub_and (x m c : Nat) : (x - (x &&& m)).testBit c = (x.testBit c && !m.testBit c) := by
  induction c generalizing x m with
  | zero =>
    have hle : x &&& m ≤ x := Nat.and_le_left
    have hodd : (x &&& m) % 2 = 1 ↔ x % 2 = 1 ∧ m % 2 = 1 := Nat.and_mod_two_eq_one
    rw [Nat.testBit_zero, Nat.testBit_zero, Nat.testBit_zero, Bool.eq_iff_iff]
    simp only [Bool.and_eq_true, Bool.not_eq_true', decide_eq_true_eq, decide_eq_false_iff_not]
    omega
  | succ c ih =>
    have hle : x &&& m ≤ x := Nat.and_le_left
    have hodd : (x &&& m) % 2 = 1 ↔ x % 2 = 1 ∧ m % 2 = 1 := Nat.and_mod_two_eq_one
    have hhalf : (x - (x &&& m)) / 2 = x / 2 - (x / 2 &&& m / 2) := by
      rw [← Nat.and_div_two]
      omega
    rw [Nat.testBit_add_one, Nat.testBit_add_one, Nat.testBit_add_one, hhalf, ih]

theorem bitOf_setBit_ne {n c d : Nat} (h : c ≠ d) : bitOf (setBit n d) c = bitOf n c := by
  simp [bitOf, setBit, Nat.testBit_or, h.symm]

/-! ## What a vote does to a function's event block -/

/-- The pending bits but the health class's, and the block's busy time, are the same; entries that agreed still agree. -/
structure KeepsPending (x y : Func) : Prop where
  pend : ∀ c, c ≠ 12 → bitOf y.evtPend c = bitOf x.evtPend c
  busy : y.evtUntil = x.evtUntil
  copies : x.msixCopies = [] → y.msixCopies = []

/-- The mask stays, or a failed vote masks every class; where every MSI-X entry agrees the mask stays. -/
structure KeepsMask (x y : Func) : Prop where
  mask : y.evtMask = x.evtMask ∨ y.evtMask = 0xFFFFFFFF
  stays : x.msixCopies = [] → y.evtMask = x.evtMask

theorem KeepsPending.refl (x : Func) : KeepsPending x x := ⟨fun _ _ => rfl, rfl, id⟩

theorem KeepsPending.trans {x y z : Func} (h : KeepsPending x y) (h' : KeepsPending y z) : KeepsPending x z :=
  ⟨fun c hc => (h'.pend c hc).trans (h.pend c hc), h'.busy.trans h.busy, fun hx => h'.copies (h.copies hx)⟩

theorem KeepsMask.refl (x : Func) : KeepsMask x x := ⟨.inl rfl, fun _ => rfl⟩

theorem KeepsMask.trans {x y z : Func} (h : KeepsMask x y) (hp : KeepsPending x y) (h' : KeepsMask y z) : KeepsMask x z := by
  refine ⟨?_, fun hx => (h'.stays (hp.copies hx)).trans (h.stays hx)⟩
  rcases h'.mask with hz | hz
  · rw [hz]; exact h.mask
  · exact .inr hz

/-- A step keeps a function's event block but for what a vote may do. -/
def KeepsEvents (f : Nat) (s t : State) : Prop :=
  KeepsPending (funcOf s f) (funcOf t f) ∧ KeepsMask (funcOf s f) (funcOf t f)

theorem KeepsEvents.trans {f : Nat} {s t u : State} (h : KeepsEvents f s t) (h' : KeepsEvents f t u) : KeepsEvents f s u :=
  ⟨h.1.trans h'.1, h.2.trans h.1 h'.2⟩

theorem keepsEvents_of_funcs {f : Nat} {s t : State} (h : t.funcs = s.funcs) : KeepsEvents f s t := by
  have heq : funcOf t f = funcOf s f := by rw [funcOf, h, funcOf]
  rw [KeepsEvents, heq]
  exact ⟨.refl _, .refl _⟩

/-- Changing another function, or the function's record within the relation, keeps its event block. -/
theorem keepsEvents_modFunc {s : State} {f i : Nat} {g : Func → Func}
    (h : i = f → KeepsPending (funcOf s f) (g (funcOf s f)) ∧ KeepsMask (funcOf s f) (g (funcOf s f))) :
    KeepsEvents f s (modFunc s i g) := by
  by_cases hi : f = i
  · subst hi
    rw [KeepsEvents, funcOf_modFunc]
    exact h rfl
  · rw [KeepsEvents, funcOf_modFunc_ne _ _ hi]
    exact ⟨.refl _, .refl _⟩

theorem keepsEvents_setHealthPend (s : State) (f i : Nat) : KeepsEvents f s (setPend s i 12) := by
  unfold setPend
  dsimp only
  split
  · exact keepsEvents_of_funcs rfl
  · refine keepsEvents_modFunc fun _ => ?_
    split
    · split <;> exact ⟨⟨fun c hc => bitOf_setBit_ne hc, rfl, id⟩, .inl rfl, fun _ => rfl⟩
    · exact ⟨⟨fun c hc => bitOf_setBit_ne hc, rfl, id⟩, .inl rfl, fun _ => rfl⟩

theorem keepsEvents_healthEvent (s : State) (f code : Nat) (detail : List Byte) : KeepsEvents f s (healthEvent s code detail) :=
  (keepsEvents_setHealthPend s f 0).trans
    (keepsEvents_of_funcs ((notifyAll_ch (P := [.sess, .notes]) (by decide) (Changes.refl _ _)).funcs (by decide)))

theorem keepsEvents_countRepair (s : State) (f : Nat) : KeepsEvents f s (countRepair s) := by
  have hcount : KeepsEvents f s (bump s K.regVoteFix) := keepsEvents_of_funcs (bump_funcs ..)
  unfold countRepair
  dsimp only
  split
  · exact hcount
  · exact (hcount.trans (keepsEvents_healthEvent _ f 0x0C03 (leBytes 4 1))).trans (keepsEvents_of_funcs rfl)

theorem keepsEvents_countBadVote (s : State) (f : Nat) : KeepsEvents f s (countBadVote s) := by
  have hcount : KeepsEvents f s (bump { s with fresh := s.fresh + 4 } K.regVoteBad) := keepsEvents_of_funcs (bump_funcs ..)
  exact (hcount.trans (keepsEvents_setHealthPend _ f 0)).trans
    (keepsEvents_of_funcs ((grogLog_ch (P := [.grog]) (by decide) (Changes.refl _ _)).funcs (by decide)))

theorem tfind_nil {α : Type} (k : Nat) : tfind ([] : Tab α) k = none := rfl

/-- Voting an MSI-X entry: only a function with an entry that disagrees can lose its mask. -/
theorem keepsEvents_voteMsix (s : State) (f i v : Nat) : KeepsEvents f s (voteMsix s i v) := by
  unfold voteMsix
  split
  · exact keepsEvents_of_funcs rfl
  · next b c hcopy =>
    have hcopies : (funcOf s i).msixCopies ≠ [] := fun hnil => by rw [hnil, tfind_nil] at hcopy; cases hcopy
    dsimp only
    split
    · exact keepsEvents_of_funcs rfl
    · split
      · refine (keepsEvents_modFunc fun hi => ?_).trans (keepsEvents_countRepair _ f)
        subst hi
        exact ⟨⟨fun _ _ => rfl, rfl, fun hnil => absurd hnil hcopies⟩, .inl rfl, fun _ => rfl⟩
      · refine (keepsEvents_modFunc fun hi => ?_).trans (keepsEvents_countBadVote _ f)
        subst hi
        exact ⟨⟨fun _ _ => rfl, rfl, fun hnil => absurd hnil hcopies⟩, .inr rfl, fun hnil => absurd hnil hcopies⟩

theorem keepsEvents_raiseVec (s : State) (f i v : Nat) : KeepsEvents f s (raiseVec s i v) := by
  refine (keepsEvents_voteMsix s f i v).trans (keepsEvents_modFunc fun _ => ?_)
  split <;> exact ⟨⟨fun _ _ => rfl, rfl, id⟩, .inl rfl, fun _ => rfl⟩

theorem keepsEvents_foldN {g : State → Nat → State} {f : Nat} (hg : ∀ x a, KeepsEvents f x (g x a)) (l : List Nat) (s : State) :
    KeepsEvents f s (foldN l g s) := by
  induction l generalizing s with
  | nil => exact keepsEvents_of_funcs rfl
  | cons a l ih => exact (hg s a).trans (ih (g s a))

/-- Voting the mask may change it, and no other part of the block but the health class's bit. -/
theorem keepsPending_voteMask (s : State) (f : Nat) : KeepsPending (funcOf s f) (funcOf (voteMask s f) f) := by
  have hset : ∀ m, KeepsPending (funcOf s f) (funcOf (modFunc s f (fun r => { r with evtMask := m, maskCopies := none })) f) := fun m => by
    rw [funcOf_modFunc]
    exact ⟨fun _ _ => rfl, rfl, id⟩
  unfold voteMask
  split
  · exact .refl _
  · dsimp only
    split
    · exact .refl _
    · split
      · exact (hset _).trans (keepsEvents_countRepair _ f).1
      · exact (hset _).trans (keepsEvents_countBadVote _ f).1

/-- The state in which the mask is voted and set, and no vector of a class unmasked is raised yet. -/
def maskSet (s : State) (f m : Nat) : State := modFunc (voteMask s f) f (fun x => { x with evtMask := m, maskCopies := none })

theorem keepsEvents_evtMaskOp (s : State) (f m : Nat) : KeepsEvents f (maskSet s f m) (evtMaskOp s f m) :=
  keepsEvents_foldN (fun x _ => keepsEvents_raiseVec x f f _) _ (maskSet s f m)

/-- What setting the mask leaves of the function's event block. -/
theorem evtMaskOp_spec (s : State) (f m : Nat) :
    KeepsPending (funcOf s f) (funcOf (evtMaskOp s f m) f) ∧
    ((funcOf (evtMaskOp s f m) f).evtMask = m ∨ (funcOf (evtMaskOp s f m) f).evtMask = 0xFFFFFFFF) ∧
    ((funcOf s f).msixCopies = [] → (funcOf (evtMaskOp s f m) f).evtMask = m) := by
  have hset : funcOf (maskSet s f m) f = { funcOf (voteMask s f) f with evtMask := m, maskCopies := none } := funcOf_modFunc ..
  obtain ⟨hpend, hmask⟩ := keepsEvents_evtMaskOp s f m
  have hvote := keepsPending_voteMask s f
  have hwrite : KeepsPending (funcOf (voteMask s f) f) (funcOf (maskSet s f m) f) := by
    rw [hset]
    exact ⟨fun _ _ => rfl, rfl, id⟩
  have hm : (funcOf (maskSet s f m) f).evtMask = m := by rw [hset]
  have hstays := hmask.stays
  have hmask' := hmask.mask
  rw [hm] at hmask' hstays
  exact ⟨(hvote.trans hwrite).trans hpend, hmask', fun hnil => hstays (hwrite.copies (hvote.copies hnil))⟩

/-! ## A write to an idle block, and to a busy one (R69) -/

/-- The state in which an idle event block carries out a write. -/
def blockTaken (s : State) (f : Nat) : State := modFunc (draw s) f (fun x => { x with evtUntil := s.now + busyNs s })

theorem busyNs_le (s : State) : busyNs s ≤ 2000 := by
  unfold busyNs
  omega

theorem funcOf_blockTaken (s : State) (f : Nat) : funcOf (blockTaken s f) f = { funcOf s f with evtUntil := s.now + busyNs s } :=
  funcOf_modFunc ..

theorem blockTaken_changes (s : State) (f : Nat) : Changes [.fresh, .funcs] s (blockTaken s f) :=
  modFunc_ch (by decide) (draw_ch (by decide) (Changes.refl _ s))

theorem evtWrite_idle {s : State} {f : Nat} (h : (funcOf s f).evtUntil ≤ s.now) (op : State → State) :
    evtWrite s f op = op (blockTaken s f) := if_neg (by omega)

theorem evtWrite_busy {s : State} {f : Nat} (h : s.now < (funcOf s f).evtUntil) (op : State → State) :
    evtWrite s f op = lostWrite s f := if_pos h

theorem exec_evtPendClear {s : State} {f : Fin 65} (hf : funcExists s f = true) (m : BitVec 32) :
    exec (.evtPendClear f m) s = .next (evtWrite s f (fun s => evtPendOp s f m.toNat)) := by
  change execEvtPendClear f m s = _
  rw [execEvtPendClear, if_pos hf]

theorem exec_evtMaskWrite {s : State} {f : Fin 65} (hf : funcExists s f = true) (m : BitVec 32) :
    exec (.evtMaskWrite f m) s = .next (evtWrite s f (fun s => evtMaskOp s f m.toNat)) := by
  change execEvtMaskWrite f m s = _
  rw [execEvtMaskWrite, if_pos hf]

theorem exec_snapSel {s : State} {f : Fin 65} (hf : funcExists s f = true) (v : BitVec 32) :
    exec (.snapSel f v) s = .next (snapOp s f v.toNat) := by
  change execSnapSel f v s = _
  rw [execSnapSel, if_pos hf]

/-- A write that a busy block drops sets LOST and is counted. -/
theorem lostWrite_spec (s : State) (f : Nat) :
    funcOf (lostWrite s f) f = { funcOf s f with lost := true } ∧
    getN (lostWrite s f) K.regWriteLost = satInc 32 (getN s K.regWriteLost) ∧
    (∀ g, g ≠ f → funcOf (lostWrite s f) g = funcOf s g) ∧ onlyObjs [K.regWriteLost] s (lostWrite s f) ∧
    Changes [.objs, .funcs] s (lostWrite s f) := by
  have hfunc : ∀ g, funcOf (lostWrite s f) g = funcOf (modFunc s f (fun x => { x with lost := true })) g := fun g => by
    rw [lostWrite, funcOf, bump_funcs, funcOf]
  refine ⟨(hfunc f).trans (funcOf_modFunc ..), getN_bump .., fun g hg => (hfunc g).trans (funcOf_modFunc_ne _ _ hg), ?_,
    lostWrite_ch (by decide) (Changes.refl _ s)⟩
  exact onlyObjs_bump (by simp) (onlyObjs_of_eq rfl)

/-! ## Snapshots (R70, R71) -/

/-- The state after an idle mailbox takes a snapshot. -/
def snapTaken (s : State) (f v : Nat) (x : Option Nat) : State :=
  modFunc (draw s) f (fun r => { r with
    snapUntil := s.now + 1 + busyNs s % 2000, snapSel := v % 2 ^ 24, snapErr := x.isNone, snapTag := bits v 23 16
    snapVal := x.getD 0 % 2 ^ 64 })

theorem snapOp_idle {s : State} {f : Nat} (h : (funcOf s f).snapUntil ≤ s.now) (v : Nat) :
    snapOp s f v = snapTaken s f v (snapSource s f (v % 256) (v / 256 % 256)) := by
  have hsrc : bits v 7 0 = v % 256 := by simp [bits]
  have hinst : bits v 15 8 = v / 256 % 256 := by simp [bits, Nat.shiftRight_eq_div_pow]
  rw [snapOp, if_neg (by omega), hsrc, hinst]
  rfl

theorem snapOp_busy {s : State} {f : Nat} (h : s.now < (funcOf s f).snapUntil) (v : Nat) : snapOp s f v = lostWrite s f := if_pos h

/-- Module time is a source of every function. -/
theorem snapSource_time (s : State) (f : Nat) : snapSource s f 1 0 = some s.now := rfl

theorem snapSource_frame (s : State) (f : Nat) (p : Fin 8) :
    snapSource s f 2 p = if f = 0 ∨ ownsOn s f p = true then some (portOf s p).frame else none := by
  simp [snapSource, p.isLt]

/-- What a snapshot of a value, and of a source that is not there, holds. -/
theorem funcOf_snapTaken (s : State) (f v : Nat) (x : Option Nat) :
    (funcOf (snapTaken s f v x) f).snapTag = v / 65536 % 256 ∧ (funcOf (snapTaken s f v x) f).snapVal = x.getD 0 % 2 ^ 64 ∧
    (funcOf (snapTaken s f v x) f).snapErr = x.isNone ∧ s.now < (funcOf (snapTaken s f v x) f).snapUntil ∧
    (funcOf (snapTaken s f v x) f).snapUntil ≤ s.now + 2000 := by
  rw [snapTaken, funcOf_modFunc]
  refine ⟨by simp [bits, Nat.shiftRight_eq_div_pow], rfl, rfl, ?_, ?_⟩ <;> dsimp only <;> omega

/-! ## The obligation -/

theorem evtPendClear_idle {s : State} {f : Fin 65} (hf : funcExists s f = true) (m : BitVec 32) (hidle : (funcOf s f).evtUntil ≤ s.now) :
    ∃ t, exec (.evtPendClear f m) s = .next t ∧
      (∀ c, bitOf (funcOf t f).evtPend c = (bitOf (funcOf s f).evtPend c && !bitOf m.toNat c)) ∧
      (funcOf t f).evtMask = (funcOf s f).evtMask ∧ (funcOf t f).evtUntil ≤ s.now + 2000 ∧
      (∀ g, g ≠ f.val → funcOf t g = funcOf s g) ∧ Changes [.fresh, .funcs] s t := by
  have hfunc : funcOf (evtPendOp (blockTaken s f) f m.toNat) f = { funcOf s f with
      evtUntil := s.now + busyNs s, evtPend := (funcOf s f).evtPend - ((funcOf s f).evtPend &&& m.toNat) } := by
    rw [evtPendOp, funcOf_modFunc, funcOf_blockTaken]
  refine ⟨_, (exec_evtPendClear hf m).trans (congrArg _ (evtWrite_idle hidle _)), fun c => ?_, ?_, ?_, fun g hg => ?_,
    modFunc_ch (by decide) (blockTaken_changes s f)⟩
  · rw [hfunc]
    exact testBit_sub_and ..
  · rw [hfunc]
  · rw [hfunc]
    have := busyNs_le s
    dsimp only
    omega
  · exact (funcOf_modFunc_ne _ _ hg).trans (funcOf_modFunc_ne _ _ hg)

theorem evtMaskWrite_idle {s : State} {f : Fin 65} (hf : funcExists s f = true) (m : BitVec 32) (hidle : (funcOf s f).evtUntil ≤ s.now) :
    ∃ t, exec (.evtMaskWrite f m) s = .next t ∧
      (((funcOf s f).msixCopies = [] → (funcOf t f).evtMask = m.toNat) ∧
        ((funcOf t f).evtMask = m.toNat ∨ (funcOf t f).evtMask = 0xFFFFFFFF)) ∧
      (∀ c, c ≠ 12 → bitOf (funcOf t f).evtPend c = bitOf (funcOf s f).evtPend c) ∧ (funcOf t f).evtUntil ≤ s.now + 2000 ∧
      Changes [.fresh, .voteSecond, .funcs, .sess, .grog, .notes] s t := by
  obtain ⟨hpend, hmask, hstays⟩ := evtMaskOp_spec (blockTaken s f) f m.toNat
  rw [funcOf_blockTaken] at hpend hstays
  refine ⟨_, (exec_evtMaskWrite hf m).trans (congrArg _ (evtWrite_idle hidle _)), ⟨hstays, hmask⟩, hpend.pend, ?_,
    evtMaskOp_ch (by decide) ((blockTaken_changes s f).mono (by decide))⟩
  rw [hpend.busy]
  have := busyNs_le s
  dsimp only
  omega

theorem snapSel_idle {s : State} {f : Fin 65} (hf : funcExists s f = true) (v : BitVec 32) (hidle : (funcOf s f).snapUntil ≤ s.now) :
    exec (.snapSel f v) s =
      .next (snapTaken s f v.toNat (snapSource s f (v.toNat % 256) (v.toNat / 256 % 256))) := by
  rw [exec_snapSel hf, snapOp_idle hidle]

/-- Settles O28: an idle block carries the write out on its own record; a busy one leaves `lostWrite`. -/
theorem eventBlockAndMailbox : Obligations.EventBlockAndMailbox := by
  unfold Obligations.EventBlockAndMailbox
  intro s f hf
  refine ⟨fun m hidle => evtPendClear_idle hf m hidle, fun m hidle => evtMaskWrite_idle hf m hidle, fun v hidle => ?snap,
    fun m hbusy => ?busy, fun v hbusy => ?busySnap⟩
  case snap =>
    obtain ⟨htag, hval, herr, hafter, hbound⟩ :=
      funcOf_snapTaken s f v.toNat (snapSource s f (v.toNat % 256) (v.toNat / 256 % 256))
    refine ⟨_, snapSel_idle hf v hidle, htag, hval, ?_, fun htime => ?_, fun p hport hgranted => ?_, fun p hport h0 hother => ?_,
      hafter, hbound, fun g hg => funcOf_modFunc_ne _ _ hg, modFunc_ch (by decide) (draw_ch (by decide) (Changes.refl _ s))⟩
    · rw [herr, Option.isNone_iff_eq_none]
    · rw [show v.toNat % 256 = 1 by omega, show v.toNat / 256 % 256 = 0 by omega, snapSource_time] at hval herr ⊢
      exact ⟨hval, herr⟩
    · have hsource : snapSource s f 2 p = some (portOf s p).frame := by
        rw [snapSource_frame, if_pos (hgranted.imp_left fun h => by rw [h]; rfl)]
      rw [show v.toNat % 256 = 2 by omega, show v.toNat / 256 % 256 = p by omega, hsource] at hval herr ⊢
      exact ⟨hval, herr⟩
    · have hsource : snapSource s f 2 p = none := by
        rw [snapSource_frame, if_neg]
        rintro (h | h)
        · exact h0 (Fin.ext h)
        · rw [hother] at h
          cases h
      rw [show v.toNat % 256 = 2 by omega, show v.toNat / 256 % 256 = p by omega, hsource] at hval herr ⊢
      exact ⟨hval, herr⟩
  case busy =>
    obtain ⟨hlost, hcount, hothers, hobjs, hchanges⟩ := lostWrite_spec s f
    exact ⟨_, (exec_evtPendClear hf m).trans (congrArg _ (evtWrite_busy hbusy _)),
      (exec_evtMaskWrite hf m).trans (congrArg _ (evtWrite_busy hbusy _)), hlost, hcount, hothers, hobjs, hchanges⟩
  case busySnap =>
    obtain ⟨hlost, hcount, hothers, hobjs, hchanges⟩ := lostWrite_spec s f
    exact ⟨_, (exec_snapSel hf v).trans (congrArg _ (snapOp_busy hbusy _)), hlost, hcount, hothers, hobjs, hchanges⟩

end Sys2Proof.Proofs.EventBlock

/-!
PROOFS. Writes of one object by a manager or by a function, said once for every area of the dictionary.

A write that the area's access rule and check let through leaves what the area's `apply` leaves, with the session's and the answer's
parts; one that the check refuses leaves the state alone. Each lemma takes the object by its index and sub-index.
-/

namespace Sys2Proof.Proofs.AreaWrites

open Sys2Proof.Machine
open Sys2Proof.Proofs.SurfaceAllocation (objKey_div objKey_mod)

/-- For the manager and for a function, the access to an object of one of the open world's classes is its area's. -/
theorem mayWriteObj_eq {s : State} {c : WCtx} {row : ObjRow} {a : Acc} (ha : a = .rw ∨ a = .wo) (hrow : row.acc = a)
    (hrole : c.role = .mgr ∨ c.role = .vf) (idx sub n : Nat) : mayWriteObj s c row idx sub n = areaAccess s c idx sub n := by
  rcases ha with rfl | rfl <;> rcases hrole with hrole | hrole <;> simp [mayWriteObj, hrow, hrole]

theorem areaWrite_done {s t : State} {r : DictReq} {i idx sub n : Nat} {ty : Ty} {a : Acc} {rg : List (Int × Int)} {st : Status}
    {found : Option Nat} (hrow : rowIs (objKey idx sub) ty a rg = true) (ha : a = .rw ∨ a = .wo) (hidx : idx < 65536) (hsub : sub < 256)
    (h : AdmittedWrite s r i (objKey idx sub) n) (hrole : (sessOf s i).role = .mgr ∨ (sessOf s i).role = .vf)
    (haccess : areaAccess (renewed s i) (sessionCtx s r i found) idx sub n = true) (hfit : fitsTy ty n = true)
    (hrange : rg.any (fun e => decide (e.1 ≤ measureOf ty (.num n) ∧ measureOf ty (.num n) ≤ e.2)) = true)
    (hcheck : areaCheck (renewed s i) (sessionCtx s r i found) idx sub (.num n) = .ok)
    (hclaims : areaClaims (renewed s i) idx sub n = ([], 0))
    (happly : areaApply (renewed s i) (sessionCtx s r i found) idx sub (.num n) = (t, st)) (hok : st = .ok ∨ st = .intransit) :
    ∃ u, writeObject s r (objKey idx sub) n found = .next u ∧ answered u r 0x11 st ∧ Changes [.sess, .resp] t u := by
  have hstored : a.stored = false := by rcases ha with rfl | rfl <;> rfl
  have hkept : keptIn a t (objKey idx sub) n = t := by rw [keptIn, hstored]; rfl
  have hdone := writeObject_done (found := found) hrow (key_lt hidx hsub) h hfit
    (fun row hacc => by rw [objKey_div hsub, objKey_mod hsub, mayWriteObj_eq ha hacc hrole, haccess]) hrange
    (by rw [objKey_div hsub, objKey_mod hsub, hcheck]) (by rw [objKey_div hsub, objKey_mod hsub, hclaims]) (.inl hstored)
    (by rw [objKey_div hsub, objKey_mod hsub, happly]) hok
  rwa [hkept] at hdone

theorem areaWrite_refused {s : State} {r : DictReq} {i idx sub n : Nat} {ty : Ty} {a : Acc} {rg : List (Int × Int)} {st : Status}
    {found : Option Nat} (hrow : rowIs (objKey idx sub) ty a rg = true) (ha : a = .rw ∨ a = .wo) (hidx : idx < 65536) (hsub : sub < 256)
    (h : AdmittedWrite s r i (objKey idx sub) n) (hrole : (sessOf s i).role = .mgr ∨ (sessOf s i).role = .vf)
    (haccess : areaAccess (renewed s i) (sessionCtx s r i found) idx sub n = true) (hfit : fitsTy ty n = true)
    (hrange : rg.any (fun e => decide (e.1 ≤ measureOf ty (.num n) ∧ measureOf ty (.num n) ≤ e.2)) = true)
    (hcheck : areaCheck (renewed s i) (sessionCtx s r i found) idx sub (.num n) = st)
    (hclaims : (areaClaims (renewed s i) idx sub n).1 = [] ∨ st = .range) (hok : st ≠ .ok ∧ st ≠ .intransit) (hclaimed : st ≠ .claimed) :
    ∃ u, writeObject s r (objKey idx sub) n found = .next u ∧ answered u r 0x11 st ∧ Changes [.fresh, .sess, .resp] s u :=
  writeObject_refused (found := found) hrow (key_lt hidx hsub) h hfit
    (fun row hacc => by rw [objKey_div hsub, objKey_mod hsub, mayWriteObj_eq ha hacc hrole, haccess]) hrange
    (by rw [objKey_div hsub, objKey_mod hsub, hcheck]) (by rw [objKey_div hsub, objKey_mod hsub]; exact hclaims) hok hclaimed

/-- A range that holds a number of a one-range object. -/
theorem inRange_single {ty : Ty} {n lo hi : Nat} (hty : measureOf ty (.num n) = n) (hlo : lo ≤ n) (hhi : n ≤ hi) :
    [((lo : Int), (hi : Int))].any (fun e => decide (e.1 ≤ measureOf ty (.num n) ∧ measureOf ty (.num n) ≤ e.2)) = true := by
  simp only [List.any_cons, List.any_nil, Bool.or_false, decide_eq_true_eq, hty]
  exact ⟨Int.ofNat_le.mpr hlo, Int.ofNat_le.mpr hhi⟩

end Sys2Proof.Proofs.AreaWrites

/-!
PROOFS. O30: a ring's enable, owner and order, and a ring that a failed vote stopped.

The voted fields of the ring agree, so neither the checks nor the writes meet a vote; each accepted write then leaves `ringApply`'s
branch for its object, and each refusal is the ring's own check.
-/

namespace Sys2Proof.Proofs.RingWrites

open Sys2Proof.Machine
open Sys2Proof.Proofs.AreaWrites
open Sys2Proof.Proofs.Doorbells (voteRing_of_ringAgrees ringOf_countDrop ringOf_countDrop_ne)
open Sys2Proof.Proofs.FenceObjects (owner_inRange le_64_of_funcExists)

/-! ## Voted fields that agree -/

theorem mem_of_tfind_ne_none {α : Type} {l : Tab α} {e : Nat × α} (he : e ∈ l) : tfind l e.1 ≠ none := by
  induction l with
  | nil => cases he
  | cons x l ih =>
    obtain ⟨k, v⟩ := x
    unfold tfind
    split
    · simp
    · next hne =>
      rcases List.mem_cons.mp he with rfl | he
      · exact absurd rfl hne
      · exact ih he

theorem tdel_eq_self {α : Type} {l : Tab α} {k : Nat} (h : tfind l k = none) : tdel l k = l := by
  refine List.filter_eq_self.mpr fun e he => decide_eq_true fun heq => mem_of_tfind_ne_none he ?_
  rw [heq, h]

theorem writeVoted_eq_writeN {s : State} {k : Nat} (h : tfind s.votes k = none) (n : Nat) : writeVoted s k n = writeN s k n := by
  have hvotes : (writeN s k n).votes = s.votes := (writeN_ch (P := [.objs]) (by decide) (Changes.refl _ s)).votes (by decide)
  rw [writeVoted, tdel_eq_self h, ← hvotes]

theorem votedN_eq_getN {s : State} {k : Nat} (h : tfind s.votes k = none) : votedN s k = getN s k := by
  rw [votedN, h]

/-- Where a ring's voted fields agree, the enable and the owner read as their objects do. -/
theorem voted_of_ringAgrees {s : State} {h : Nat} (hagree : ringAgrees s h) :
    votedB s (K.ringEnable h) = getB s (K.ringEnable h) ∧ votedN s (K.ringOwner h) = getN s (K.ringOwner h) :=
  ⟨by rw [votedB, votedN_eq_getN (hagree _ (by simp)), getB], votedN_eq_getN (hagree _ (by simp))⟩

/-! ## Who may write, and a write of any ring setting -/

theorem role_of_ownSession {s : State} {i f : Nat} (h : ownSession s i f) : (sessOf s i).role = .mgr ∨ (sessOf s i).role = .vf := by
  rcases h with ⟨h, -⟩ | ⟨h, -⟩
  · exact h.symm
  · exact .inl h

/-- The ring's owner may write its settings, and the manager those of a ring of no function. -/
theorem ringAccess_of_ownSession {s : State} {r : DictReq} {i : Nat} {ring sub : Nat} (hagree : ringAgrees s ring)
    (hown : ownSession s i (getN s (K.ringOwner ring))) (hsub : sub ≠ 1 ∧ sub ≠ 2 ∧ sub ≠ 11) :
    ringAccess (renewed s i) (sessionCtx s r i none) ring sub = true := by
  have howner : votedN (renewed s i) (K.ringOwner ring) = getN s (K.ringOwner ring) := (voted_of_ringAgrees hagree).2
  unfold ringAccess
  rw [howner, if_neg (by omega)]
  rcases hown with ⟨hrole | hrole, hfunc⟩ | ⟨hrole, hfunc⟩ <;> simp [sessionCtx, hrole, hfunc]

theorem ringAccess_of_managerSession {s : State} {r : DictReq} {i : Nat} {ring sub : Nat} (hmgr : managerSession s i)
    (hsub : sub = 1 ∨ sub = 2 ∨ sub = 11 ∨ sub = 4) : ringAccess (renewed s i) (sessionCtx s r i none) ring sub = true := by
  have hctx : (sessionCtx s r i none).isMgr = true := by simp [WCtx.isMgr, sessionCtx, show (sessOf s i).role = .mgr from hmgr]
  unfold ringAccess
  rcases hsub with rfl | rfl | rfl | rfl <;> simp [hctx]

theorem ringWrite_done {s : State} {r : DictReq} {i sub n : Nat} {ring : Fin 256} {ty : Ty} {rg : List (Int × Int)}
    (hrow : rowIs (objKey (0x3100 + ring) sub) ty .rw rg = true) (hsub : sub < 256)
    (h : AdmittedWrite s r i (objKey (0x3100 + ring) sub) n) (hrole : (sessOf s i).role = .mgr ∨ (sessOf s i).role = .vf)
    (haccess : ringAccess (renewed s i) (sessionCtx s r i none) ring sub = true) (hfit : fitsTy ty n = true)
    (hrange : rg.any (fun e => decide (e.1 ≤ measureOf ty (.num n) ∧ measureOf ty (.num n) ≤ e.2)) = true)
    (hcheck : ringCheck s (sessionCtx s r i none) ring sub n = .ok) :
    ∃ u, writeObject s r (objKey (0x3100 + ring) sub) n = .next u ∧ answered u r 0x11 .ok ∧
      Changes [.sess, .resp] (ringApply (renewed s i) ring sub n) u :=
  areaWrite_done hrow (.inl rfl) (by have := ring.isLt; omega) hsub h hrole ((areaAccess_ring ring.isLt hsub).trans haccess) hfit hrange
    ((areaCheck_ring ring.isLt hsub).trans hcheck) (areaClaims_ring ring.isLt hsub) (areaApply_ring ring.isLt hsub) (.inl rfl)

theorem ringWrite_refused {s : State} {r : DictReq} {i sub n : Nat} {ring : Fin 256} {ty : Ty} {rg : List (Int × Int)} {st : Status}
    (hrow : rowIs (objKey (0x3100 + ring) sub) ty .rw rg = true) (hsub : sub < 256)
    (h : AdmittedWrite s r i (objKey (0x3100 + ring) sub) n) (hrole : (sessOf s i).role = .mgr ∨ (sessOf s i).role = .vf)
    (haccess : ringAccess (renewed s i) (sessionCtx s r i none) ring sub = true) (hfit : fitsTy ty n = true)
    (hrange : rg.any (fun e => decide (e.1 ≤ measureOf ty (.num n) ∧ measureOf ty (.num n) ≤ e.2)) = true)
    (hcheck : ringCheck s (sessionCtx s r i none) ring sub n = st) (hok : st ≠ .ok ∧ st ≠ .intransit) (hclaimed : st ≠ .claimed) :
    ∃ u, writeObject s r (objKey (0x3100 + ring) sub) n = .next u ∧ answered u r 0x11 st ∧ Changes [.fresh, .sess, .resp] s u :=
  areaWrite_refused hrow (.inl rfl) (by have := ring.isLt; omega) hsub h hrole ((areaAccess_ring ring.isLt hsub).trans haccess) hfit hrange
    ((areaCheck_ring ring.isLt hsub).trans hcheck) (.inl (congrArg Prod.fst (areaClaims_ring ring.isLt hsub))) hok hclaimed

/-- After the answer, a ring reads as the write left it. -/
theorem ringOf_answered {t u : State} (h : Changes [.sess, .resp] t u) (j : Nat) : ringOf u j = ringOf t j := by
  rw [ringOf, h.rings (by decide), ringOf]

/-! ## ring.enable (R55, R56, R214) -/

theorem ringCheck_enable {s : State} {c : WCtx} {ring : Nat} :
    ringCheck s c ring 10 1 =
      if getN s (K.ringCtx ring) < 64 ∧ ctxOn s (getN s (K.ringCtx ring)) = false then .busy else .ok := by
  by_cases hlt : getN s (K.ringCtx ring) < 64 <;> cases hon : ctxOn s (getN s (K.ringCtx ring)) <;>
    simp [ringCheck, firstRefusal_cons, firstRefusal_nil, hlt, hon]

/-- The state after a ring is enabled. -/
def ringEnabled (s : State) (ring : Nat) : State :=
  modRing (writeN s (K.ringEnable ring) 1) ring
    (fun r => { era := r.era, order := getN s (K.ringOrder ring), dberr := r.dberr })

theorem ringApply_enable {s : State} {ring : Nat} (hagree : ringAgrees s ring)
    (hoff : getB s (K.ringEnable ring) = false ∨ (ringOf s ring).stopped = true) : ringApply s ring 10 1 = ringEnabled s ring := by
  have hnot : (getB s (K.ringEnable ring) && !(ringOf s ring).stopped) = false := by rcases hoff with h | h <;> simp [h]
  unfold ringApply
  dsimp only
  rw [voteRing_of_ringAgrees hagree, if_pos rfl, if_pos rfl]
  refine (if_neg (by rw [← K.ringEnable, hnot]; decide)).trans ?_
  rw [enableRing, writeVoted_eq_writeN (hagree _ (by simp))]
  rfl

/-- A ring's record after the ring is disabled: what it held ends, and its era passes. -/
def ringStopped (r : Ring) : Ring :=
  { r with era := r.era + 1, wait := none, held := [], dropUntilWait := false, dropFrame := none, resize := none, stopped := false }

/-- The state after a ring is disabled. -/
def ringDisabled (s : State) (ring : Nat) : State :=
  { modRing (writeN s (K.ringEnable ring) 0) ring ringStopped with signals := s.signals.filter (fun x => x.ticket.ring != ring) }

theorem ringApply_disable {s : State} {ring : Nat} (hagree : ringAgrees s ring) (hon : getB s (K.ringEnable ring) = true) :
    ringApply s ring 10 0 = ringDisabled s ring := by
  unfold ringApply
  dsimp only
  rw [voteRing_of_ringAgrees hagree, if_pos rfl, if_neg (by decide)]
  refine (if_pos hon).trans ?_
  rw [disableRing, writeVoted_eq_writeN (hagree _ (by simp))]
  have hsignals : (writeN s (K.ringEnable ring) 0).signals = s.signals :=
    (writeN_ch (P := [.objs]) (by decide) (Changes.refl _ s)).signals (by decide)
  rw [ringDisabled, ← hsignals]
  rfl

theorem getB_ringEnable_written (s : State) (ring n : Nat) (g : Ring → Ring) :
    getB (modRing (writeN s (K.ringEnable ring) n) ring g) (K.ringEnable ring) = (n != 0) := by
  have hget : getN (modRing (writeN s (K.ringEnable ring) n) ring g) (K.ringEnable ring) = n := getN_writeN ..
  rw [getB, hget]

theorem ringOf_writeN (s : State) (k n j : Nat) : ringOf (writeN s k n) j = ringOf s j := by
  rw [ringOf, (writeN_ch (P := [.objs]) (by decide) (Changes.refl _ s)).rings (by decide), ringOf]

theorem ringOf_ringDisabled (s : State) (ring : Nat) : ringOf (ringDisabled s ring) ring = ringStopped (ringOf s ring) := by
  have hring : ringOf (modRing (writeN s (K.ringEnable ring) 0) ring ringStopped) ring = ringStopped (ringOf s ring) := by
    rw [ringOf_modRing, ringOf_writeN]
  exact hring

theorem ringOf_ringDisabled_ne (s : State) {ring j : Nat} (hj : j ≠ ring) : ringOf (ringDisabled s ring) j = ringOf s j := by
  have hring : ringOf (modRing (writeN s (K.ringEnable ring) 0) ring ringStopped) j = ringOf s j := by
    rw [ringOf_modRing_ne _ _ hj, ringOf_writeN]
  exact hring

/-- A write of one object and of a ring's record moves that object only. -/
theorem onlyObjs_ringWrite (s : State) (k n ring : Nat) (g : Ring → Ring) : onlyObjs [k] s (modRing (writeN s k n) ring g) :=
  onlyObjs_trans (onlyObjs_writeN n (by simp) (onlyObjs_refl _ s)) (onlyObjs_of_eq rfl)

theorem ringWrite_changes (s : State) (k n ring : Nat) (g : Ring → Ring) : Changes [.objs, .rings] s (modRing (writeN s k n) ring g) :=
  modRing_ch (by decide) (writeN_ch (by decide) (Changes.refl _ s))

theorem exec_ringEnable_on {s : State} {r : DictReq} {i : Nat} {ring : Fin 256} (h : AdmittedWrite s r i (K.ringEnable ring) 1)
    (hown : ownSession s i (getN s (K.ringOwner ring))) (hagree : ringAgrees s ring)
    (hoff : getB s (K.ringEnable ring) = false ∨ (ringOf s ring).stopped = true)
    (hctx : getN s (K.ringCtx ring) < 64 → ctxOn s (getN s (K.ringCtx ring)) = true) :
    ∃ t, exec (.ringEnable r ring true) s = .next t ∧ answered t r 0x11 .ok ∧ getB t (K.ringEnable ring) = true ∧
      ringOf t ring = { era := (ringOf s ring).era, dberr := (ringOf s ring).dberr, order := getN s (K.ringOrder ring) } ∧
      (∀ j, j ≠ ring.val → ringOf t j = ringOf s j) ∧ onlyObjs [K.ringEnable ring] s t ∧ Changes [.objs, .rings, .sess, .resp] s t := by
  obtain ⟨t, hrun, hans, hafter⟩ := ringWrite_done (row_ringEnable ring) (by decide) h (role_of_ownSession hown)
    (ringAccess_of_ownSession hagree hown (by decide)) rfl (by decide)
    (by rw [ringCheck_enable, if_neg (by rintro ⟨hlt, hoff⟩; rw [hctx hlt] at hoff; cases hoff)])
  rw [ringApply_enable (s := renewed s i) hagree hoff] at hafter
  refine ⟨t, hrun, hans, ?_, ?_, fun j hj => ?_, ?_, ?_⟩
  · rw [hafter.getB (by decide) (by decide), ringEnabled, getB_ringEnable_written]
    rfl
  · rw [ringOf_answered hafter, ringEnabled, ringOf_modRing, ringOf_writeN]
    rfl
  · rw [ringOf_answered hafter, ringEnabled, ringOf_modRing_ne _ _ hj, ringOf_writeN]
    rfl
  · exact onlyObjs_trans (onlyObjs_ringWrite (renewed s i) _ _ _ _) (hafter.only (by decide) (by decide) _)
  · exact changes_done ((ringWrite_changes (renewed s i) _ _ _ _).mono (by decide)) hafter (by decide) (by decide)

theorem exec_ringEnable_busy {s : State} {r : DictReq} {i : Nat} {ring : Fin 256} (h : AdmittedWrite s r i (K.ringEnable ring) 1)
    (hown : ownSession s i (getN s (K.ringOwner ring))) (hagree : ringAgrees s ring)
    (hlt : getN s (K.ringCtx ring) < 64) (hctx : ctxOn s (getN s (K.ringCtx ring)) = false) :
    ∃ t, exec (.ringEnable r ring true) s = .next t ∧ answered t r 0x11 .busy ∧ Changes [.fresh, .sess, .resp] s t :=
  ringWrite_refused (row_ringEnable ring) (by decide) h (role_of_ownSession hown)
    (ringAccess_of_ownSession hagree hown (by decide)) rfl (by decide)
    (ringCheck_enable.trans (if_pos ⟨hlt, hctx⟩)) (by decide) (by decide)

theorem exec_ringEnable_off {s : State} {r : DictReq} {i : Nat} {ring : Fin 256} (h : AdmittedWrite s r i (K.ringEnable ring) 0)
    (hown : ownSession s i (getN s (K.ringOwner ring))) (hagree : ringAgrees s ring) (hon : getB s (K.ringEnable ring) = true) :
    ∃ t, exec (.ringEnable r ring false) s = .next t ∧ answered t r 0x11 .ok ∧ getB t (K.ringEnable ring) = false ∧
      (ringOf t ring).wait = none ∧ (ringOf t ring).held = [] ∧ (ringOf t ring).era = (ringOf s ring).era + 1 ∧
      (∀ j, j ≠ ring.val → ringOf t j = ringOf s j) ∧ onlyObjs [K.ringEnable ring] s t ∧
      Changes [.objs, .rings, .signals, .sess, .resp] s t := by
  obtain ⟨t, hrun, hans, hafter⟩ := ringWrite_done (row_ringEnable ring) (by decide) h (role_of_ownSession hown)
    (ringAccess_of_ownSession hagree hown (by decide)) rfl (by decide) (show ringCheck s _ ring 10 0 = .ok by simp [ringCheck])
  rw [ringApply_disable (s := renewed s i) hagree hon] at hafter
  have hring : ringOf t ring = ringStopped (ringOf s ring) := by
    rw [ringOf_answered hafter, ringOf_ringDisabled]
    rfl
  refine ⟨t, hrun, hans, ?_, by rw [hring]; rfl, by rw [hring]; rfl, by rw [hring]; rfl, fun j hj => ?_, ?_, ?_⟩
  · rw [hafter.getB (by decide) (by decide)]
    exact getB_ringEnable_written (renewed s i) ring 0 ringStopped
  · rw [ringOf_answered hafter, ringOf_ringDisabled_ne _ hj]
    rfl
  · have hobjs : onlyObjs [K.ringEnable ring] (renewed s i) (ringDisabled (renewed s i) ring) :=
      onlyObjs_trans (onlyObjs_ringWrite (renewed s i) _ 0 ring ringStopped) (onlyObjs_of_eq rfl)
    exact onlyObjs_trans hobjs (hafter.only (by decide) (by decide) _)
  · have hchanges : Changes [.objs, .rings, .signals] (renewed s i) (ringDisabled (renewed s i) ring) :=
      ch_signals ((ringWrite_changes (renewed s i) _ 0 ring ringStopped).mono (by decide)) (by decide)
    exact changes_done (hchanges.mono (by decide)) hafter (by decide) (by decide)

/-! ## ring.owner (R54, R284) -/

theorem overGrant_of_grantLeft {s : State} {lo hi grant new : Nat} (hgrant : grantLeft s lo hi grant new) :
    (new != 0xFF && (overGrant s new (ownedCount s lo hi new) grant || !funcExists s new)) = false := by
  rcases hgrant with rfl | ⟨hexists, hleft⟩
  · simp
  · have hover : overGrant s new (ownedCount s lo hi new) grant = false := by
      simp only [overGrant, hexists, Bool.and_true, Bool.and_eq_false_iff, decide_eq_false_iff_not]
      omega
    simp [hover, hexists]

theorem ringCheck_owner {s : State} {c : WCtx} {ring new : Nat} (hagree : ringAgrees s ring)
    (hgrant : grantLeft s 0x3100 0x3200 (getN s (K.grantRings new)) new) :
    ringCheck s c ring 1 new = if getB s (K.ringEnable ring) then .busy else .ok := by
  obtain ⟨hon, -⟩ := voted_of_ringAgrees hagree
  cases hoff : getB s (K.ringEnable ring) <;>
    simp [ringCheck, firstRefusal_cons, firstRefusal_nil, hon, hoff, Bool.and_assoc, overGrant_of_grantLeft hgrant]

/-- The state after a ring is given to a function: its greatest order follows a VF's grant. -/
def ringGiven (s : State) (ring owner : Nat) : State :=
  let t := writeN s (K.ringOwner ring) owner
  if 0 < owner ∧ owner < 64 then writeN t (K.ringOrderMax ring) (getN t (K.grantRingOrder owner)) else t

theorem ringApply_owner {s : State} {ring : Nat} (hagree : ringAgrees s ring) (owner : Nat) :
    ringApply s ring 1 owner = ringGiven s ring owner := by
  have hwrite : writeVoted s (objKey (0x3100 + ring) 1) owner = writeN s (K.ringOwner ring) owner :=
    writeVoted_eq_writeN (hagree (K.ringOwner ring) (by simp)) owner
  unfold ringApply
  dsimp only
  rw [voteRing_of_ringAgrees hagree, if_neg (by decide), if_pos rfl, hwrite]
  rfl

theorem ringGiven_spec (s : State) (ring owner : Nat) :
    getN (ringGiven s ring owner) (K.ringOwner ring) = owner ∧
    (0 < owner → owner < 64 → getN (ringGiven s ring owner) (K.ringOrderMax ring) = getN s (K.grantRingOrder owner)) ∧
    onlyObjs [K.ringOwner ring, K.ringOrderMax ring] s (ringGiven s ring owner) ∧ Changes [.objs] s (ringGiven s ring owner) := by
  have hfirst : onlyObjs [K.ringOwner ring, K.ringOrderMax ring] s (writeN s (K.ringOwner ring) owner) :=
    onlyObjs_writeN _ (by simp) (onlyObjs_refl _ s)
  have hchanges : Changes [.objs] s (writeN s (K.ringOwner ring) owner) := writeN_ch (by decide) (Changes.refl _ s)
  by_cases hvf : 0 < owner ∧ owner < 64
  · have hgiven : ringGiven s ring owner = writeN (writeN s (K.ringOwner ring) owner) (K.ringOrderMax ring)
        (getN (writeN s (K.ringOwner ring) owner) (K.grantRingOrder owner)) := if_pos hvf
    rw [hgiven]
    refine ⟨?_, fun _ hlt => ?_, onlyObjs_writeN _ (by simp) hfirst, writeN_ch (by decide) hchanges⟩
    · rw [getN_writeN_ne _ _ (by simp [K.ringOwner, K.ringOrderMax, objKey]), getN_writeN]
    · rw [getN_writeN, getN_writeN_ne _ _ (by simp only [K.ringOwner, K.grantRingOrder, objKey]; omega)]
  · have hgiven : ringGiven s ring owner = writeN s (K.ringOwner ring) owner := if_neg hvf
    rw [hgiven]
    exact ⟨getN_writeN .., fun hpos hlt => absurd ⟨hpos, hlt⟩ hvf, hfirst, hchanges⟩

theorem exec_ringOwner_done {s : State} {r : DictReq} {i : Nat} {ring : Fin 256} {owner : BitVec 8}
    (h : AdmittedWrite s r i (K.ringOwner ring) owner.toNat) (hmgr : managerSession s i) (hagree : ringAgrees s ring)
    (hgrant : grantLeft s 0x3100 0x3200 (getN s (K.grantRings owner.toNat)) owner.toNat) (hoff : getB s (K.ringEnable ring) = false) :
    ∃ t, exec (.ringOwnerWrite r ring owner) s = .next t ∧ answered t r 0x11 .ok ∧ getN t (K.ringOwner ring) = owner.toNat ∧
      (0 < owner.toNat → owner.toNat < 64 → getN t (K.ringOrderMax ring) = getN s (K.grantRingOrder owner.toNat)) ∧
      onlyObjs [K.ringOwner ring, K.ringOrderMax ring] s t ∧ Changes [.objs, .sess, .resp] s t := by
  obtain ⟨t, hrun, hans, hafter⟩ := ringWrite_done (row_ringOwner ring) (by decide) h (.inl hmgr)
    (ringAccess_of_managerSession hmgr (.inl rfl)) (decide_eq_true owner.isLt) (owner_inRange hgrant)
    (by rw [ringCheck_owner hagree hgrant, hoff]; rfl)
  rw [ringApply_owner (s := renewed s i) hagree] at hafter
  obtain ⟨howner, hmax, hobjs, hchanges⟩ := ringGiven_spec (renewed s i) ring owner.toNat
  have hget := hafter.getN (by decide) (by decide)
  exact ⟨t, hrun, hans, (hget _).trans howner, fun hpos hlt => (hget _).trans (hmax hpos hlt),
    onlyObjs_trans hobjs (hafter.only (by decide) (by decide) _),
    changes_done (hchanges.mono (by decide)) hafter (by decide) (by decide)⟩

theorem exec_ringOwner_busy {s : State} {r : DictReq} {i : Nat} {ring : Fin 256} {owner : BitVec 8}
    (h : AdmittedWrite s r i (K.ringOwner ring) owner.toNat) (hmgr : managerSession s i) (hagree : ringAgrees s ring)
    (hgrant : grantLeft s 0x3100 0x3200 (getN s (K.grantRings owner.toNat)) owner.toNat) (hon : getB s (K.ringEnable ring) = true) :
    ∃ t, exec (.ringOwnerWrite r ring owner) s = .next t ∧ answered t r 0x11 .busy ∧ Changes [.fresh, .sess, .resp] s t :=
  ringWrite_refused (row_ringOwner ring) (by decide) h (.inl hmgr) (ringAccess_of_managerSession hmgr (.inl rfl))
    (decide_eq_true owner.isLt) (owner_inRange hgrant) (by rw [ringCheck_owner hagree hgrant, hon]; rfl) (by decide) (by decide)

/-! ## ring.order (R55, R295) -/

theorem isMgr_sessionCtx_manager {s : State} {r : DictReq} {i : Nat} (hmgr : managerSession s i) :
    (sessionCtx s r i none).isMgr = true := by
  simp [WCtx.isMgr, sessionCtx, show (sessOf s i).role = .mgr from hmgr]

theorem isMgr_sessionCtx_other {s : State} {r : DictReq} {i f : Nat} (hmgr : ¬ managerSession s i) (hown : ownSession s i f) :
    (sessionCtx s r i none).isMgr = false := by
  have hvf : (sessOf s i).role = .vf := (role_of_ownSession hown).resolve_left hmgr
  simp [WCtx.isMgr, sessionCtx, hvf]

theorem ringCheck_order {s : State} {c : WCtx} {ring order : Nat} (hagree : ringAgrees s ring) :
    ringCheck s c ring 4 order =
      if c.isMgr then .ok
      else if getN s (K.ringOrderMax ring) < order then .range
      else if getB s (K.ringEnable ring) then .busy else .ok := by
  obtain ⟨hon, -⟩ := voted_of_ringAgrees hagree
  cases hmgr : c.isMgr <;> by_cases hlt : getN s (K.ringOrderMax ring) < order <;> cases hoff : getB s (K.ringEnable ring) <;>
    simp [ringCheck, firstRefusal_cons, firstRefusal_nil, orderByMgr, hmgr, hon, hoff, hlt]

theorem fitsTy_order {order : BitVec 8} : fitsTy .u8 order.toNat = true := decide_eq_true order.isLt

theorem ringApply_order {s : State} {ring : Nat} (hagree : ringAgrees s ring) (order : Nat) :
    ringApply s ring 4 order =
      if getB s (K.ringEnable ring) then
        modRing (writeN s (K.ringOrder ring) order) ring (fun r => { r with resize := if order = r.order then none else some order })
      else writeN s (K.ringOrder ring) order := by
  have hwrite : writeVoted s (objKey (0x3100 + ring) 4) order = writeN s (K.ringOrder ring) order :=
    writeVoted_eq_writeN (hagree (K.ringOrder ring) (by simp)) order
  unfold ringApply
  dsimp only
  rw [voteRing_of_ringAgrees hagree, hwrite]
  cases getB s (K.ringEnable ring) <;> simp

theorem exec_ringOrder_pending {s : State} {r : DictReq} {i : Nat} {ring : Fin 256} {order : BitVec 8}
    (h : AdmittedWrite s r i (K.ringOrder ring) order.toNat) (hagree : ringAgrees s ring) (hlo : 4 ≤ order.toNat)
    (hhi : order.toNat ≤ 12) (hmgr : managerSession s i) (hon : getB s (K.ringEnable ring) = true) :
    ∃ t, exec (.ringOrderWrite r ring order) s = .next t ∧ answered t r 0x11 .ok ∧ getN t (K.ringOrder ring) = order.toNat ∧
      ringOf t ring = { ringOf s ring with resize := if order.toNat = (ringOf s ring).order then none else some order.toNat } ∧
      (∀ j, j ≠ ring.val → ringOf t j = ringOf s j) ∧ onlyObjs [K.ringOrder ring] s t ∧ Changes [.objs, .rings, .sess, .resp] s t := by
  obtain ⟨t, hrun, hans, hafter⟩ := ringWrite_done (row_ringOrder ring) (by decide) h (.inl hmgr)
    (ringAccess_of_managerSession hmgr (by simp)) fitsTy_order (inRange_single rfl hlo hhi)
    (by rw [ringCheck_order hagree, if_pos (isMgr_sessionCtx_manager hmgr)])
  rw [ringApply_order (s := renewed s i) hagree, show getB (renewed s i) (K.ringEnable ring) = true from hon, if_pos rfl] at hafter
  refine ⟨t, hrun, hans, ?_, ?_, fun j hj => ?_, ?_, ?_⟩
  · exact (hafter.getN (by decide) (by decide) _).trans (getN_writeN ..)
  · rw [ringOf_answered hafter, ringOf_modRing, ringOf_writeN]
    rfl
  · rw [ringOf_answered hafter, ringOf_modRing_ne _ _ hj, ringOf_writeN]
    rfl
  · exact onlyObjs_trans (onlyObjs_ringWrite (renewed s i) _ _ _ _) (hafter.only (by decide) (by decide) _)
  · exact changes_done ((ringWrite_changes (renewed s i) _ _ _ _).mono (by decide)) hafter (by decide) (by decide)

theorem exec_ringOrder_disabled {s : State} {r : DictReq} {i : Nat} {ring : Fin 256} {order : BitVec 8}
    (h : AdmittedWrite s r i (K.ringOrder ring) order.toNat) (hagree : ringAgrees s ring) (hlo : 4 ≤ order.toNat)
    (hhi : order.toNat ≤ 12)
    (hmay : managerSession s i ∨ (ownSession s i (getN s (K.ringOwner ring)) ∧ order.toNat ≤ getN s (K.ringOrderMax ring)))
    (hoff : getB s (K.ringEnable ring) = false) :
    ∃ t, exec (.ringOrderWrite r ring order) s = .next t ∧ answered t r 0x11 .ok ∧ getN t (K.ringOrder ring) = order.toNat ∧
      onlyObjs [K.ringOrder ring] s t ∧ Changes [.objs, .sess, .resp] s t := by
  have hrole : (sessOf s i).role = .mgr ∨ (sessOf s i).role = .vf := hmay.elim .inl fun h => role_of_ownSession h.1
  have haccess : ringAccess (renewed s i) (sessionCtx s r i none) ring 4 = true :=
    hmay.elim (fun hmgr => ringAccess_of_managerSession hmgr (by simp)) fun h => ringAccess_of_ownSession hagree h.1 (by decide)
  have hcheck : ringCheck s (sessionCtx s r i none) ring 4 order.toNat = .ok := by
    rw [ringCheck_order hagree, hoff]
    rcases hmay with hmgr | ⟨-, hmax⟩
    · rw [if_pos (isMgr_sessionCtx_manager hmgr)]
    · simp [hmax.not_gt]
  obtain ⟨t, hrun, hans, hafter⟩ := ringWrite_done (row_ringOrder ring) (by decide) h hrole haccess fitsTy_order
    (inRange_single rfl hlo hhi) hcheck
  have hoff' : ¬ getB (renewed s i) (K.ringEnable ring) = true := by
    rw [show getB (renewed s i) (K.ringEnable ring) = false from hoff]
    decide
  rw [ringApply_order (s := renewed s i) hagree, if_neg hoff'] at hafter
  have hobjs : onlyObjs [K.ringOrder ring] (renewed s i) (writeN (renewed s i) (K.ringOrder ring) order.toNat) :=
    onlyObjs_writeN _ (by simp) (onlyObjs_refl _ _)
  exact ⟨t, hrun, hans, (hafter.getN (by decide) (by decide) _).trans (getN_writeN ..),
    onlyObjs_trans hobjs (hafter.only (by decide) (by decide) _),
    changes_done (writeN_ch (by decide) (Changes.refl _ _)) hafter (by decide) (by decide)⟩

/-- A function's write of the order: refused above the greatest order, and while the ring is enabled. -/
theorem exec_ringOrder_refused {s : State} {r : DictReq} {i : Nat} {ring : Fin 256} {order : BitVec 8} {st : Status}
    (h : AdmittedWrite s r i (K.ringOrder ring) order.toNat) (hagree : ringAgrees s ring) (hlo : 4 ≤ order.toNat)
    (hhi : order.toNat ≤ 12) (hmgr : ¬ managerSession s i) (hown : ownSession s i (getN s (K.ringOwner ring)))
    (hst : (if getN s (K.ringOrderMax ring) < order.toNat then Status.range
      else if getB s (K.ringEnable ring) then .busy else .ok) = st)
    (hok : st ≠ .ok ∧ st ≠ .intransit) (hclaimed : st ≠ .claimed) :
    ∃ t, exec (.ringOrderWrite r ring order) s = .next t ∧ answered t r 0x11 st ∧ Changes [.fresh, .sess, .resp] s t :=
  ringWrite_refused (row_ringOrder ring) (by decide) h (role_of_ownSession hown) (ringAccess_of_ownSession hagree hown (by decide))
    fitsTy_order (inRange_single rfl hlo hhi)
    (by rw [ringCheck_order hagree, isMgr_sessionCtx_other hmgr hown]; exact hst) hok hclaimed

/-! ## A doorbell on a stopped ring (log 256) -/

theorem exec_doorbell_stopped {s : State} {f : Fin 65} {ring : Fin 16} {value : BitVec 32} {h : Nat} (hf : funcExists s f = true)
    (hfor : ringFor s f ring = some h) (hagree : ringAgrees s h) (hstopped : (ringOf s h).stopped = true) :
    exec (.doorbell f ring value) s = .next (countDrop (modRing s h (fun r => { r with dberr := true })) h f) := by
  have hrefused : doorbellRefused s h f (value.toNat % 65536) = true := by simp [doorbellRefused, hstopped]
  change execDoorbell f ring value s = _
  rw [execDoorbell, if_pos hf, doorbellOp, hfor]
  dsimp only
  rw [voteRing_of_ringAgrees hagree, if_pos hrefused]

/-- Settles O30: each accepted write leaves its branch of `ringApply`, each refusal is the ring's check. -/
theorem ringSettings : Obligations.RingSettings := by
  unfold Obligations.RingSettings
  refine ⟨fun s r i ring h hown hagree => ⟨exec_ringEnable_on h hown hagree, exec_ringEnable_busy h hown hagree⟩,
    fun s r i ring h hown hagree hon => exec_ringEnable_off h hown hagree hon,
    fun s r i ring owner h hmgr hagree hgrant => ⟨exec_ringOwner_done h hmgr hagree hgrant, exec_ringOwner_busy h hmgr hagree hgrant⟩,
    fun s r i ring order h hagree hlo hhi => ⟨exec_ringOrder_pending h hagree hlo hhi, exec_ringOrder_disabled h hagree hlo hhi,
      fun hmgr hown => ⟨fun hmax => ?range, fun hmax hon => ?busy⟩⟩,
    fun s f ring value h hf hfor hagree hstopped => ⟨_, exec_doorbell_stopped hf hfor hagree hstopped, ?_, fun j hj => ?_, ?_⟩⟩
  case range => exact exec_ringOrder_refused h hagree hlo hhi hmgr hown (if_pos hmax) (by decide) (by decide)
  case busy => exact exec_ringOrder_refused h hagree hlo hhi hmgr hown (by rw [if_neg (by omega), if_pos hon]) (by decide) (by decide)
  · rw [ringOf_countDrop, ringOf_modRing]
  · exact (ringOf_countDrop_ne _ _ hj).trans (ringOf_modRing_ne _ _ hj)
  · exact countDrop_ch (by decide) (modRing_ch (by decide) (Changes.refl _ s))

end Sys2Proof.Proofs.RingWrites

/-!
PROOFS. O31: NOP, and commands that are dropped, counted and answered.

A command that its ring fetches and that is dropped is counted on the ring before its answer is written. The counting leaves what the
completion depends on (the queue's indices and base, the epoch, the era), so the entry is written as for any other command; the event
of a spoofed command comes after it and touches neither the ring nor the host's memory.
-/

namespace Sys2Proof.Proofs.DroppedCommands

open Sys2Proof.Machine
open Sys2Proof.Proofs.Doorbells (ringOf_countDrop ringOf_countDrop_ne)

/-! ## NOP -/

theorem exec_nop {s : State} {h : CmdHdr} (hf : Fetches s h 0x00 false) :
    exec (.nop h) s = .next (completeR (fetched s h 0x00 []) (ticketOf s h 0x00) 0 0) := by
  change execNop h s = _
  unfold execNop
  rw [beginCmd_fetches hf]

theorem ringOf_fetched_ne (s : State) {h : CmdHdr} (op : Nat) (pay : List Byte) {j : Nat} (hj : j ≠ h.ring) :
    ringOf (fetched s h op pay) j = ringOf s j := by
  have hplaced : (placeCmd s h op pay).rings = s.rings := (placeCmd_ch (P := [.host]) (by decide) (Changes.refl _ s)).rings (by decide)
  rw [fetched, ringOf_modRing_ne _ _ hj, ringOf, hplaced, ringOf]

/-! ## Completions that are written at once -/

/-- Where the queue has space and nothing is held, an answer is written at once: it takes one entry of the queue. -/
theorem ringOf_completeAlways {s u : State} {h : CmdHdr} {op st x d : Nat} (hspace : cqFull s h.ring = false)
    (hheld : (ringOf s h.ring).held = []) (hs : SameRing s u h) :
    ringOf (completeAlways u (ticketOf s h op) st x d) h.ring = { ringOf u h.ring with
      cqTail := ((ringOf u h.ring).cqTail + 1) % 65536, completed := (ringOf u h.ring).completed + 1 } := by
  have hwritten : completeAlways u (ticketOf s h op) st x d = writeCompletion u ⟨ticketOf s h op, st, x % 2 ^ 64, d % 2 ^ 32⟩ := by
    have hfull : cqFull u (ticketOf s h op).ring = false := (cqFull_same hs).trans hspace
    have hnone : (ringOf u (ticketOf s h op).ring).held = [] := hs.held.trans hheld
    unfold completeAlways
    rw [if_neg (by
      rintro (hepoch | hera)
      · exact hepoch hs.epoch
      · exact hera hs.era)]
    dsimp only
    rw [hfull, hnone]
    rfl
  obtain ⟨-, hring, -⟩ := writeCompletion_spec u ⟨ticketOf s h op, st, x % 2 ^ 64, d % 2 ^ 32⟩
  rw [hwritten]
  exact hring

/-- The ring of a dropped command after its answer. -/
def droppedRing (r : Ring) : Ring :=
  { r with head := (r.head + 1) % 65536, fetched := r.fetched + 1, drop := satInc 32 r.drop
           cqTail := (r.cqTail + 1) % 65536, completed := r.completed + 1 }

/-- A state whose ring differs from the fetched one's in its count of drops only. -/
structure Dropped (s u : State) (h : CmdHdr) (op : Nat) (pay : List Byte) : Prop where
  ring : ringOf u h.ring = { ringOf (fetched s h op pay) h.ring with drop := satInc 32 (ringOf (fetched s h op pay) h.ring).drop }
  others : ∀ j, j ≠ h.ring.val → ringOf u j = ringOf s j
  now : u.now = s.now
  epoch : (funcOf u (getN s (K.ringOwner h.ring))).epoch = (funcOf s (getN s (K.ringOwner h.ring))).epoch
  cqBase : getN u (K.ringCqBase h.ring) = getN s (K.ringCqBase h.ring)
  cqOrder : getN u (K.ringCqOrder h.ring) = getN s (K.ringCqOrder h.ring)

theorem Dropped.sameRing {s u : State} {h : CmdHdr} {op : Nat} {pay : List Byte} (hd : Dropped s u h op pay) : SameRing s u h := by
  obtain ⟨hhead, htail, hcq, hera, hheld, -, -, -, -⟩ := SameRing.fetched s h op pay
  exact ⟨by rw [hd.ring, hhead], by rw [hd.ring, htail], by rw [hd.ring, hcq], by rw [hd.ring, hera], by rw [hd.ring, hheld],
    hd.now, hd.epoch, hd.cqBase, hd.cqOrder⟩

theorem Dropped.draw {s u : State} {h : CmdHdr} {op : Nat} {pay : List Byte} (hd : Dropped s u h op pay) :
    Dropped s (Sys2Proof.Machine.draw u) h op pay :=
  ⟨hd.ring, hd.others, hd.now, hd.epoch, hd.cqBase, hd.cqOrder⟩

theorem dropped_countDrop (s : State) (h : CmdHdr) (op : Nat) (pay : List Byte) :
    Dropped s (countDrop (fetched s h op pay) h.ring (getN s (K.ringOwner h.ring))) h op pay := by
  have hsame := SameRing.fetched s h op pay
  refine ⟨ringOf_countDrop .., fun j hj => (ringOf_countDrop_ne _ _ hj).trans (ringOf_fetched_ne s op pay hj), hsame.now, ?_,
    hsame.cqBase, hsame.cqOrder⟩
  have hfunc : funcOf (countDrop (fetched s h op pay) h.ring (getN s (K.ringOwner h.ring))) (getN s (K.ringOwner h.ring)) =
      { funcOf (fetched s h op pay) (getN s (K.ringOwner h.ring)) with
        dropped := (funcOf (fetched s h op pay) (getN s (K.ringOwner h.ring))).dropped + 1 } := funcOf_modFunc ..
  rw [hfunc]
  exact hsame.epoch

/-- The answer of a dropped command: one entry of its ring's queue, whatever its COMPLETE flag says. -/
theorem completeOpenAlways_dropped {s u : State} {h : CmdHdr} {op st : Nat} {pay : List Byte} (hspace : cqFull s h.ring = false)
    (hheld : (ringOf s h.ring).held = []) (hd : Dropped s u h op pay) :
    (∃ x, entryWritten s (completeOpenAlways u (ticketOf s h op) st) h op st x) ∧
    ringOf (completeOpenAlways u (ticketOf s h op) st) h.ring = droppedRing (ringOf s h.ring) ∧
    (∀ j, j ≠ h.ring.val → ringOf (completeOpenAlways u (ticketOf s h op) st) j = ringOf s j) ∧
    Changes [.fresh, .voteSecond, .host, .funcs, .sess, .rings, .grog, .notes] u (completeOpenAlways u (ticketOf s h op) st) := by
  have hsame := hd.draw.draw.sameRing
  obtain ⟨hentry, hothers⟩ := completeAlways_entry (op := op) (st := st) (x := Config.freeNat u.fresh)
    (d := Config.freeNat (u.fresh + 1)) hspace hheld hsame
  refine ⟨⟨_, hentry⟩, ?_, fun j hj => (hothers j hj).trans (hd.others j hj),
    completeAlways_ch (List.Subset.refl _) (draw_ch (by decide) (draw_ch (by decide) (Changes.refl _ u)))⟩
  rw [completeOpenAlways, ringOf_completeAlways hspace hheld hsame]
  have hring := hd.draw.draw.ring
  rw [hring, ringOf_fetched]
  rfl

/-! ## An opcode that Table FP-6 does not list -/

theorem knownOp_eq_false {op : Nat} (h : op ∉ [0x00, 0x01, 0x02, 0x10, 0x11, 0x20, 0x21, 0x30, 0x31, 0x40, 0x50]) :
    knownOp op = false := by
  simpa [knownOp] using h

/-- An unknown opcode adds one failed check to those of the source. -/
theorem failedChecks_unknown (s : State) (h : CmdHdr) (op : Nat) (write : Bool) :
    failedChecks s h op false write = failedChecks s h op true write + 16 := by
  simp [failedChecks, b2n]

theorem failedChecks_lt (s : State) (h : CmdHdr) (op : Nat) (write : Bool) : failedChecks s h op true write < 16 := by
  have hb : ∀ b, b2n b ≤ 1 := by decide
  have h0 := hb (h.func.toNat != getN s (K.ringOwner h.ring))
  have h1 := hb (h.ctx.toNat != 0xFF && (64 ≤ h.ctx.toNat || getN s (K.ctxOwner h.ctx.toNat) != getN s (K.ringOwner h.ring)))
  have h2 := hb (h.hwring.toNat != h.ring)
  have h3 := hb (h.surface.toNat != 0 && !(if write then mayWrite s (getN s (K.ringOwner h.ring)) h.surface.toNat
    else mayRead s (getN s (K.ringOwner h.ring)) h.surface.toNat))
  simp only [failedChecks, Bool.not_true, show b2n false = 0 from rfl]
  omega

theorem takeCmd_eq (s : State) (h : CmdHdr) (op : Nat) (pay : List Byte) : takeCmd s h op pay = (fetched s h op pay, ticketOf s h op) := by
  have hstate : (modRing (placeCmd s h op pay) h.ring fun r => { r with head := (r.head + 1) % 65536, fetched := r.fetched + 1 }) =
      fetched s h op pay := rfl
  unfold takeCmd
  simp only [ticketOf]
  rw [hstate, ringOf_fetched]
  rfl

/-- A command with an unknown opcode: answered BADOP, or SPOOF where a source check fails too (log 93). -/
theorem exec_commandBadop {s : State} {h : CmdHdr} {op : BitVec 8} (hfetch : canFetch s h.ring = true) (hvotes : s.votes = [])
    (hop : op.toNat ∉ [0x00, 0x01, 0x02, 0x10, 0x11, 0x20, 0x21, 0x30, 0x31, 0x40, 0x50]) :
    exec (.commandBadop h op) s = .next (
      if failedChecks s h op.toNat true false ≠ 0 then
        spoof (fetched s h op.toNat []) (ticketOf s h op.toNat) h (failedChecks s h op.toNat true false + 16)
      else
        completeOpenAlways (countDrop (fetched s h op.toNat []) h.ring (getN s (K.ringOwner h.ring))) (ticketOf s h op.toNat) 2) := by
  change execCommandBadop h op s = _
  have hsource : failedChecks (fetched s h op.toNat []) h op.toNat true false = failedChecks s h op.toNat true false := rfl
  have hlt := failedChecks_lt s h op.toNat false
  unfold execCommandBadop
  rw [voteRing_none hvotes]
  dsimp only
  rw [if_neg (by rw [hfetch, knownOp_eq_false hop]; decide), takeCmd_eq]
  dsimp only
  rw [failedChecks_unknown, hsource]
  by_cases hbad : failedChecks s h op.toNat true false = 0
  · rw [if_neg (by omega), if_neg (by omega)]
    rfl
  · rw [if_pos (by omega), if_pos hbad]

theorem cqFull_of_canFetch {s : State} {h : Nat} (hfetch : canFetch s h = true) : cqFull s h = false := by
  simp only [canFetch, Bool.and_eq_true, Bool.not_eq_true'] at hfetch
  obtain ⟨⟨⟨⟨⟨-, hspace⟩, -⟩, -⟩, -⟩, -⟩ := hfetch
  exact hspace

/-! ## A command that fails a source check (R61, R290) -/

/-- The counts of a spoofed command: on its ring, and of a VF in vf.spoof. -/
def spoofCounted (s : State) (t : Ticket) (h : CmdHdr) (checks : Nat) : State :=
  let s := countDrop s h.ring t.func
  let s := if 0 < t.func ∧ t.func < 64 then
      putN (bump s (K.vfSpoof t.func)) (K.vfSpoofLast t.func)
        (t.local_ + 2 ^ 8 * h.ring + 2 ^ 16 * t.op + 2 ^ 24 * checks + 2 ^ 32 * t.tag)
    else s
  modFunc s t.func (fun x => { x with spoofed := true })

/-- After its counts a spoofed command is answered, and its event is raised. -/
theorem spoof_changes (s : State) (t : Ticket) (h : CmdHdr) (checks : Nat) :
    Changes [.fresh, .voteSecond, .funcs, .sess, .grog, .notes] (completeOpenAlways (spoofCounted s t h checks) t 1) (spoof s t h checks) :=
  emit_ch (List.Subset.refl _) (Changes.refl _ _)

theorem spoofCounted_vf {s : State} {t : Ticket} (h : CmdHdr) (checks : Nat) (hvf : 0 < t.func ∧ t.func < 64) :
    ∃ last, spoofCounted s t h checks = modFunc (putN (bump (countDrop s h.ring t.func) (K.vfSpoof t.func)) (K.vfSpoofLast t.func) last)
      t.func (fun x => { x with spoofed := true }) :=
  ⟨_, by simp only [spoofCounted, if_pos hvf]; rfl⟩

theorem spoofCounted_other {s : State} {t : Ticket} {h : CmdHdr} {checks : Nat} (hvf : ¬ (0 < t.func ∧ t.func < 64)) :
    spoofCounted s t h checks = modFunc (countDrop s h.ring t.func) t.func (fun x => { x with spoofed := true }) := by
  simp only [spoofCounted, if_neg hvf]

theorem not_noteKey_vfSpoof {v : Nat} (hv : v < 64) : ¬ noteKey (K.vfSpoof v) := by
  simp only [noteKey, K.dictNotifyDrop, K.regVoteFix, K.regVoteBad, K.kaolinCanDrop, K.logOut, K.vfSpoof, objKey]
  omega

theorem getN_vfSpoof_spoofCounted {s : State} {t : Ticket} {h : CmdHdr} {checks : Nat} (hvf : 0 < t.func ∧ t.func < 64) :
    getN (spoofCounted s t h checks) (K.vfSpoof t.func) = satInc 32 (getN s (K.vfSpoof t.func)) := by
  obtain ⟨last, hcounted⟩ := spoofCounted_vf (s := s) h checks hvf
  rw [hcounted]
  have hne : K.vfSpoof t.func ≠ K.vfSpoofLast t.func := by simp [K.vfSpoof, K.vfSpoofLast, objKey]
  exact (getN_putN_ne _ _ hne).trans (getN_bump ..)

theorem getN_modFunc (s : State) (f : Nat) (g : Func → Func) (k : Nat) : getN (modFunc s f g) k = getN s k := rfl

theorem epoch_spoofed (s : State) (f : Nat) : (funcOf (modFunc s f (fun x => { x with spoofed := true })) f).epoch = (funcOf s f).epoch := by
  rw [funcOf_modFunc]

theorem dropped_spoofCounted (s : State) (h : CmdHdr) (op : Nat) (pay : List Byte) (checks : Nat) :
    Dropped s (spoofCounted (fetched s h op pay) (ticketOf s h op) h checks) h op pay := by
  have hcount := dropped_countDrop s h op pay
  by_cases hvf : 0 < (ticketOf s h op).func ∧ (ticketOf s h op).func < 64
  · obtain ⟨last, hcounted⟩ := spoofCounted_vf (s := fetched s h op pay) h checks hvf
    have hlt : getN s (K.ringOwner h.ring) < 64 := hvf.2
    have hring := h.ring.isLt
    have hkeep : ∀ k, k ≠ K.vfSpoof (getN s (K.ringOwner h.ring)) → k ≠ K.vfSpoofLast (getN s (K.ringOwner h.ring)) → ∀ u,
        getN (putN (bump u (K.vfSpoof (getN s (K.ringOwner h.ring)))) (K.vfSpoofLast (getN s (K.ringOwner h.ring))) last) k = getN u k :=
      fun k hk hk' u => (getN_putN_ne _ _ hk').trans (getN_bump_ne _ hk)
    rw [hcounted, show (ticketOf s h op).func = getN s (K.ringOwner h.ring) from rfl]
    refine ⟨hcount.ring, hcount.others, hcount.now, (epoch_spoofed _ _).trans hcount.epoch,
      (getN_modFunc ..).trans ((hkeep _ ?_ ?_ _).trans hcount.cqBase), (getN_modFunc ..).trans ((hkeep _ ?_ ?_ _).trans hcount.cqOrder)⟩
    all_goals
      simp only [K.ringCqBase, K.ringCqOrder, K.vfSpoof, K.vfSpoofLast, objKey]
      omega
  · rw [spoofCounted_other hvf]
    exact ⟨hcount.ring, hcount.others, hcount.now, (epoch_spoofed _ _).trans hcount.epoch, hcount.cqBase, hcount.cqOrder⟩

/-- What a spoofed command leaves: its answer, its counts, and no other effect on a ring. -/
theorem spoof_spec {s : State} {h : CmdHdr} {op : Nat} {pay : List Byte} (checks : Nat) (hfetch : canFetch s h.ring = true)
    (hheld : (ringOf s h.ring).held = []) :
    (∃ x, entryWritten s (spoof (fetched s h op pay) (ticketOf s h op) h checks) h op 1 x) ∧
    (0 < getN s (K.ringOwner h.ring) → getN s (K.ringOwner h.ring) < 64 →
      getN (spoof (fetched s h op pay) (ticketOf s h op) h checks) (K.vfSpoof (getN s (K.ringOwner h.ring))) =
        satInc 32 (getN s (K.vfSpoof (getN s (K.ringOwner h.ring))))) ∧
    ringOf (spoof (fetched s h op pay) (ticketOf s h op) h checks) h.ring = droppedRing (ringOf s h.ring) ∧
    (∀ j, j ≠ h.ring.val → ringOf (spoof (fetched s h op pay) (ticketOf s h op) h checks) j = ringOf s j) := by
  obtain ⟨⟨x, hhead, htail, hread⟩, hring, hothers, hanswer⟩ := completeOpenAlways_dropped (st := 1) (cqFull_of_canFetch hfetch) hheld
    (dropped_spoofCounted s h op pay checks)
  have hevent := spoof_changes (fetched s h op pay) (ticketOf s h op) h checks
  have hrings : ∀ j, ringOf (spoof (fetched s h op pay) (ticketOf s h op) h checks) j =
      ringOf (completeOpenAlways (spoofCounted (fetched s h op pay) (ticketOf s h op) h checks) (ticketOf s h op) 1) j := fun j => by
    rw [ringOf, hevent.rings (by decide), ringOf]
  refine ⟨⟨x, ?_, ?_, ?_⟩, fun hpos hlt => ?_, (hrings _).trans hring, fun j hj => (hrings j).trans (hothers j hj)⟩
  · rw [hrings, hhead]
  · rw [hrings, htail]
  · rw [hostRead, hevent.host (by decide)]
    exact hread
  · have hkey := not_noteKey_vfSpoof hlt
    rw [getN_of_changes hevent (by decide) hkey, getN_of_changes hanswer (by decide) hkey]
    exact (getN_vfSpoof_spoofCounted (t := ticketOf s h op) ⟨hpos, hlt⟩).trans (by
      rw [(fetched_changes s h op pay).getN (by decide) (by decide)]
      rfl)

theorem beginCmd_spoofed {s : State} {h : CmdHdr} {op : Nat} {pay : List Byte} {write : Bool} (hfetch : canFetch s h.ring = true)
    (hvotes : s.votes = []) (hbad : failedChecks s h op true write ≠ 0) :
    beginCmd s h op pay write = (spoof (fetched s h op pay) (ticketOf s h op) h (failedChecks s h op true write), none) := by
  have hsource : failedChecks (fetched s h op pay) h op true write = failedChecks s h op true write := rfl
  unfold beginCmd
  rw [voteRing_none hvotes]
  dsimp only
  rw [hfetch, takeCmd_eq]
  dsimp only
  rw [hsource, if_neg hbad]
  rfl

/-- Settles O31: a NOP completes; a dropped command is counted and answered, and a spoofed one's event follows. -/
theorem nopAndDroppedCommands : Obligations.NopAndDroppedCommands := by
  unfold Obligations.NopAndDroppedCommands
  refine ⟨fun s h hf => ?nop, fun s h op hf hop => ?badop, fun s h op pay write hfetch hvotes hheld hbad => ?spoofed,
    fun s h op hfetch hvotes hheld hbad hop => ?both⟩
  case nop =>
    obtain ⟨hdone, hothers, hchanges⟩ := completeR_done (st := 0) (x := 0) hf (SameRing.fetched s h 0x00 [])
    have hall := ((fetched_changes s h 0x00 []).mono (Q := [.fresh, .voteSecond, .host, .funcs, .sess, .rings, .grog, .notes])
      (by decide)).trans hchanges
    exact ⟨_, exec_nop hf, hdone, fun j hj => (hothers j hj).trans (ringOf_fetched_ne s 0x00 [] hj),
      onlyAndNotes_of_changes hall (by decide), hall⟩
  case badop =>
    obtain ⟨⟨x, hentry⟩, hring, hothers, hchanges⟩ := completeOpenAlways_dropped (st := 2) (cqFull_of_canFetch hf.fetch) hf.held
      (dropped_countDrop s h op.toNat [])
    refine ⟨_, x, ?_, hentry, hring, hothers, Changes.trans ?_ hchanges⟩
    · rw [exec_commandBadop hf.fetch hf.votes hop, if_neg (not_not_intro hf.checks)]
    · exact countDrop_ch (by decide) ((fetched_changes s h op.toNat []).mono (by decide))
  case spoofed =>
    obtain ⟨⟨x, hentry⟩, hspoof, hring, hothers⟩ := spoof_spec (op := op) (pay := pay) (failedChecks s h op true write) hfetch hheld
    refine ⟨_, x, beginCmd_spoofed hfetch hvotes hbad, ?_, hentry, hspoof, hring, hothers⟩
    rintro ⟨rfl, rfl, rfl⟩
    change execNop h s = _
    unfold execNop
    rw [beginCmd_spoofed hfetch hvotes hbad]
  case both =>
    obtain ⟨⟨x, hentry⟩, -, hring, -⟩ := spoof_spec (op := op.toNat) (pay := []) (failedChecks s h op.toNat true false + 16) hfetch hheld
    refine ⟨_, x, ?_, hentry, by rw [hring]; rfl⟩
    rw [exec_commandBadop hfetch hvotes hop, if_pos hbad]

end Sys2Proof.Proofs.DroppedCommands

/-!
PROOFS. Answers of ring commands, said once for every ticket; what the raising of events leaves of a function's reset.

An answer is dropped, held or written. Whichever it is, it moves no part of a ring's record but the queue's own, and no other ring. It
is written at once exactly where `ticketDone` asks for it: the ticket is of the function's epoch and the ring's era, nothing is held
and the queue has space.
-/

namespace Sys2Proof.Proofs.Answers

open Sys2Proof.Machine
open Sys2Proof.Proofs.DroppedCommands (ringOf_completeAlways cqFull_of_canFetch)

/-! ## Tickets -/

/-- What an answer to a ticket depends on is the same in two states. -/
structure SameQueue (s u : State) (k : Ticket) : Prop where
  cqTail : (ringOf u k.ring).cqTail = (ringOf s k.ring).cqTail
  cqHead : (ringOf u k.ring).cqHead = (ringOf s k.ring).cqHead
  era : (ringOf u k.ring).era = (ringOf s k.ring).era
  held : (ringOf u k.ring).held = (ringOf s k.ring).held
  now : u.now = s.now
  epoch : (funcOf u k.func).epoch = (funcOf s k.func).epoch
  cqBase : getN u (K.ringCqBase k.ring) = getN s (K.ringCqBase k.ring)
  cqOrder : getN u (K.ringCqOrder k.ring) = getN s (K.ringCqOrder k.ring)

theorem SameQueue.refl (s : State) (k : Ticket) : SameQueue s s k := ⟨rfl, rfl, rfl, rfl, rfl, rfl, rfl, rfl⟩

theorem SameQueue.cqFull {s u : State} {k : Ticket} (hs : SameQueue s u k) :
    Sys2Proof.Machine.cqFull u k.ring = Sys2Proof.Machine.cqFull s k.ring := by
  unfold Sys2Proof.Machine.cqFull
  rw [hs.cqOrder, hs.cqTail, hs.cqHead]

theorem SameQueue.draw {s u : State} {k : Ticket} (hs : SameQueue s u k) : SameQueue s (Sys2Proof.Machine.draw u) k :=
  ⟨hs.cqTail, hs.cqHead, hs.era, hs.held, hs.now, hs.epoch, hs.cqBase, hs.cqOrder⟩

/-- A ticket of the current epoch and era is answered at once where nothing is held and the queue has space. -/
theorem completeAlways_eq_write {u : State} {k : Ticket} {st x d : Nat} (hepoch : (funcOf u k.func).epoch = k.epoch)
    (hera : (ringOf u k.ring).era = k.era) (hheld : (ringOf u k.ring).held = []) (hspace : cqFull u k.ring = false) :
    completeAlways u k st x d = writeCompletion u ⟨k, st, x % 2 ^ 64, d % 2 ^ 32⟩ := by
  unfold completeAlways
  rw [if_neg (by
    rintro (h | h)
    · exact h hepoch
    · exact h hera)]
  dsimp only
  rw [hheld, hspace]
  rfl

/-- The first 24 bytes of a completion entry. -/
theorem completionBytes_take (s : State) (c : HeldCompletion) (j : Nat) :
    (completionBytes s c j).take 24 = leBytes 2 c.ticket.tag ++ leBytes 1 c.status ++
      leBytes 1 (1 - (j >>> getN s (K.ringCqOrder c.ticket.ring)) % 2) ++ leBytes 1 c.ticket.op ++ leBytes 1 c.ticket.local_ ++
      leBytes 2 0 ++ leBytes 8 s.now ++ leBytes 8 c.result := by
  unfold completionBytes
  rw [List.append_assoc, List.take_left' (by simp [length_leBytes'])]

theorem complete_ticketDone {s u : State} {k : Ticket} {st x d : Nat} (hs : SameQueue s u k) :
    ticketDone s (complete u k st x d) k st (x % 2 ^ 64) := by
  intro hasked hepoch hera hheld hspace
  have hwritten : complete u k st x d = writeCompletion u ⟨k, st, x % 2 ^ 64, d % 2 ^ 32⟩ := by
    rw [complete, if_pos hasked]
    exact completeAlways_eq_write (hs.epoch.trans hepoch) (hs.era.trans hera) (hs.held.trans hheld) (hs.cqFull.trans hspace)
  obtain ⟨hread, hring, -⟩ := writeCompletion_spec u ⟨k, st, x % 2 ^ 64, d % 2 ^ 32⟩
  rw [hs.cqBase, hs.cqOrder, hs.cqTail] at hread
  refine ⟨?_, ?_⟩
  · rw [hwritten, hring]
    exact congrArg (fun n => (n + 1) % 65536) hs.cqTail
  · have hfirst := congrArg (List.take 24) hread
    unfold hostRead at hfirst
    rw [memGetAll_take _ _ 24 8, completionBytes_take, hs.cqOrder, hs.now] at hfirst
    rw [hwritten]
    exact hfirst

theorem completeR_ticketDone {s u : State} {k : Ticket} {st x : Nat} (hs : SameQueue s u k) (hx : x < 2 ^ 64) :
    ticketDone s (completeR u k st x) k st x := by
  have hdone := complete_ticketDone (st := st) (x := x) (d := Config.freeNat u.fresh) hs.draw
  rwa [Nat.mod_eq_of_lt hx] at hdone

/-! ## What an answer leaves of the rings -/

/-- The parts of a ring's record that answers do not move. -/
structure SameWork (x y : Ring) : Prop where
  era : y.era = x.era
  head : y.head = x.head
  tail : y.tail = x.tail
  fetched : y.fetched = x.fetched
  drop : y.drop = x.drop
  stopped : y.stopped = x.stopped
  wait : y.wait = x.wait
  dropUntilWait : y.dropUntilWait = x.dropUntilWait
  dropFrame : y.dropFrame = x.dropFrame
  frame : y.frame = x.frame

theorem SameWork.refl (x : Ring) : SameWork x x := ⟨rfl, rfl, rfl, rfl, rfl, rfl, rfl, rfl, rfl, rfl⟩

theorem sameWork_completeAlways (u : State) (k : Ticket) (st x d j : Nat) :
    SameWork (ringOf u j) (ringOf (completeAlways u k st x d) j) := by
  unfold completeAlways
  split
  · exact .refl _
  · dsimp only
    by_cases hj : j = k.ring
    · subst hj
      split
      · rw [ringOf_modRing]
        exact ⟨rfl, rfl, rfl, rfl, rfl, rfl, rfl, rfl, rfl, rfl⟩
      · obtain ⟨-, hring, -⟩ := writeCompletion_spec u ⟨k, st, x % 2 ^ 64, d % 2 ^ 32⟩
        rw [show ringOf (writeCompletion u ⟨k, st, x % 2 ^ 64, d % 2 ^ 32⟩) k.ring = _ from hring]
        exact ⟨rfl, rfl, rfl, rfl, rfl, rfl, rfl, rfl, rfl, rfl⟩
    · split
      · rw [ringOf_modRing_ne _ _ hj]
        exact .refl _
      · obtain ⟨-, -, hothers⟩ := writeCompletion_spec u ⟨k, st, x % 2 ^ 64, d % 2 ^ 32⟩
        rw [hothers j hj]
        exact .refl _

theorem sameWork_complete (u : State) (k : Ticket) (st x d j : Nat) : SameWork (ringOf u j) (ringOf (complete u k st x d) j) := by
  unfold complete
  split
  · exact sameWork_completeAlways u k st x d j
  · exact .refl _

theorem sameWork_completeR (u : State) (k : Ticket) (st x j : Nat) : SameWork (ringOf u j) (ringOf (completeR u k st x) j) :=
  sameWork_complete (draw u) k st x _ j

theorem sameWork_completeOpen (u : State) (k : Ticket) (st j : Nat) : SameWork (ringOf u j) (ringOf (completeOpen u k st) j) :=
  sameWork_complete (draw (draw u)) k st _ _ j

/-! ## What events leave of a function's reset -/

/-- Every function has the same epoch and the same reset in two states. -/
def SameResets (s t : State) : Prop :=
  ∀ f, (funcOf t f).epoch = (funcOf s f).epoch ∧ (funcOf t f).flrSince = (funcOf s f).flrSince

theorem SameResets.refl (s : State) : SameResets s s := fun _ => ⟨rfl, rfl⟩

theorem SameResets.trans {s t u : State} (h : SameResets s t) (h' : SameResets t u) : SameResets s u :=
  fun f => ⟨(h' f).1.trans (h f).1, (h' f).2.trans (h f).2⟩

theorem sameResets_of_funcs {s t : State} (h : t.funcs = s.funcs) : SameResets s t := fun f => by
  rw [funcOf, h, ← funcOf]
  exact ⟨rfl, rfl⟩

theorem sameResets_modFunc (s : State) (i : Nat) {g : Func → Func} (hg : ∀ x, (g x).epoch = x.epoch ∧ (g x).flrSince = x.flrSince) :
    SameResets s (modFunc s i g) := fun f => by
  by_cases hf : f = i
  · rw [hf, funcOf_modFunc]
    exact hg _
  · rw [funcOf_modFunc_ne _ _ hf]
    exact ⟨rfl, rfl⟩

theorem sameResets_setPend (s : State) (f c : Nat) : SameResets s (setPend s f c) := by
  unfold setPend
  dsimp only
  split
  · exact .refl s
  · refine sameResets_modFunc s f fun x => ?_
    split
    · split <;> exact ⟨rfl, rfl⟩
    · exact ⟨rfl, rfl⟩

theorem sameResets_healthEvent (s : State) (code : Nat) (detail : List Byte) : SameResets s (healthEvent s code detail) :=
  (sameResets_setPend s 0 12).trans
    (sameResets_of_funcs ((notifyAll_ch (P := [.sess, .notes]) (by decide) (Changes.refl _ _)).funcs (by decide)))

theorem sameResets_countRepair (s : State) : SameResets s (countRepair s) := by
  have hcount : SameResets s (bump s K.regVoteFix) := sameResets_of_funcs (bump_funcs ..)
  unfold countRepair
  dsimp only
  split
  · exact hcount
  · exact (hcount.trans (sameResets_healthEvent _ 0x0C03 (leBytes 4 1))).trans (sameResets_of_funcs rfl)

theorem sameResets_countBadVote (s : State) : SameResets s (countBadVote s) := by
  have hcount : SameResets s (bump { s with fresh := s.fresh + 4 } K.regVoteBad) := sameResets_of_funcs (bump_funcs ..)
  exact (hcount.trans (sameResets_setPend _ 0 12)).trans
    (sameResets_of_funcs ((grogLog_ch (P := [.grog]) (by decide) (Changes.refl _ _)).funcs (by decide)))

theorem sameResets_voteMask (s : State) (f : Nat) : SameResets s (voteMask s f) := by
  unfold voteMask
  split
  · exact .refl s
  · dsimp only
    split
    · exact .refl s
    · split
      · refine SameResets.trans ?_ (sameResets_countRepair _)
        exact sameResets_modFunc s f fun _ => ⟨rfl, rfl⟩
      · refine SameResets.trans ?_ (sameResets_countBadVote _)
        exact sameResets_modFunc s f fun _ => ⟨rfl, rfl⟩

theorem sameResets_raiseVec (s : State) (f v : Nat) : SameResets s (raiseVec s f v) := by
  have hvote : SameResets s (voteMsix s f v) := by
    unfold voteMsix
    split
    · exact .refl s
    · dsimp only
      split
      · exact .refl s
      · split
        · refine SameResets.trans ?_ (sameResets_countRepair _)
          exact sameResets_modFunc s f fun _ => ⟨rfl, rfl⟩
        · refine SameResets.trans ?_ (sameResets_countBadVote _)
          exact sameResets_modFunc s f fun _ => ⟨rfl, rfl⟩
  refine hvote.trans (sameResets_modFunc _ f fun x => ?_)
  split <;> exact ⟨rfl, rfl⟩

theorem sameResets_raiseClass (s : State) (f c : Nat) : SameResets s (raiseClass s f c) := by
  unfold raiseClass
  dsimp only
  split
  · exact sameResets_voteMask s f
  · have hpend : SameResets (voteMask s f) (modFunc (voteMask s f) f (fun r => { r with evtPend := setBit r.evtPend c })) :=
      sameResets_modFunc _ f fun _ => ⟨rfl, rfl⟩
    split
    · exact (sameResets_voteMask s f).trans hpend
    · exact ((sameResets_voteMask s f).trans hpend).trans (sameResets_raiseVec _ f _)

theorem sameResets_foldN {g : State → Nat → State} (hg : ∀ x a, SameResets x (g x a)) (l : List Nat) (s : State) :
    SameResets s (foldN l g s) := by
  induction l generalizing s with
  | nil => exact .refl s
  | cons a l ih => exact (hg s a).trans (ih (g s a))

theorem sameResets_emit (s : State) (cls code inst : Nat) (detail : List Byte) (fs : List Nat) :
    SameResets s (emit s cls code inst detail fs) :=
  (sameResets_foldN (fun x a => sameResets_raiseClass x a cls) (eventFuncs s fs) s).trans
    (sameResets_of_funcs ((notifyAll_ch (P := [.sess, .notes]) (by decide) (Changes.refl _ _)).funcs (by decide)))

end Sys2Proof.Proofs.Answers

/-!
PROOFS. O33: signals and waits, a wait's timeout, and what giving up a fence does to the waits held on it.

A fetched FENCE_WAIT ends in one state, `waitOutcome`, whose branches are the command's checks in their order. A signal of a live fence
on which nothing waits raises its value and its events; neither moves what the ring's answer depends on. Failing a wait takes it off its
ring, and no later answer puts a wait on a ring.
-/

namespace Sys2Proof.Proofs.FenceWaits

open Sys2Proof.Machine
open Sys2Proof.Proofs.FenceObjects
open Sys2Proof.Proofs.Answers
open Sys2Proof.Proofs.DroppedCommands (ringOf_fetched_ne)

/-! ## Signals (R230) -/

theorem exec_fenceSignal_held {s : State} {h : CmdHdr} {fence : BitVec 32} {value : BitVec 64} (hf : Fetches s h 0x01 false)
    (hearlier : earlierWork s (ticketOf s h 0x01) = true) :
    exec (.fenceSignal h fence value) s = .next { fetched s h 0x01 (fenceBytes fence 0 value) with
      signals := s.signals ++ [⟨ticketOf s h 0x01, fence.toNat, value.toNat⟩] } := by
  change execFenceSignal h fence value s = _
  unfold execFenceSignal
  rw [beginCmd_fetches hf]
  dsimp only
  rw [earlierWork_fetched, hearlier, if_pos rfl]
  rfl

theorem fenceSlot_lt {s : State} {handle slot : Nat} (h : fenceSlot s handle = some slot) : slot < 256 := by
  unfold fenceSlot at h
  split at h
  · cases h
    omega
  · cases h

theorem wait_none_of_canFetch {s : State} {h : Nat} (hfetch : canFetch s h = true) : (ringOf s h).wait = none := by
  simp only [canFetch, Bool.and_eq_true, Option.isNone_iff_eq_none] at hfetch
  obtain ⟨⟨⟨⟨⟨⟨-, hwait⟩, -⟩, -⟩, -⟩, -⟩, -⟩ := hfetch
  exact hwait

/-- Fetching a command puts no wait on a fence. -/
theorem fenceWaits_fetched {s : State} {h : CmdHdr} {op slot : Nat} {pay : List Byte} (hfetch : canFetch s h.ring = true)
    (hnone : fenceWaits s slot = []) : fenceWaits (fetched s h op pay) slot = [] := by
  have hplaced : (placeCmd s h op pay).rings = s.rings := (placeCmd_ch (P := [.host]) (by decide) (Changes.refl _ s)).rings (by decide)
  have hnew : (ringOf (placeCmd s h op pay) h.ring).wait = none := by
    rw [ringOf, hplaced, ← ringOf]
    exact wait_none_of_canFetch hfetch
  simp only [fenceWaits, List.map_eq_nil_iff, List.filter_eq_nil_iff] at hnone ⊢
  intro e he
  rcases mem_tset he with rfl | hold
  · simp [hnew]
  · rw [hplaced] at hold
    exact hnone e hold

/-- The state in which a signal has raised its fence's value and its events. -/
def signalRaised (s : State) (slot v : Nat) : State :=
  foldN (eventFuncs (writeN s (K.fenceValue slot) (max v (getN s (K.fenceValue slot))))
      [getN (writeN s (K.fenceValue slot) (max v (getN s (K.fenceValue slot)))) (K.fenceOwner slot)])
    (fun s f => raiseClass s f 3) (writeN s (K.fenceValue slot) (max v (getN s (K.fenceValue slot))))

theorem signalRaised_changes (s : State) (slot v : Nat) :
    Changes [.fresh, .voteSecond, .funcs, .sess, .grog, .notes]
      (writeN s (K.fenceValue slot) (max v (getN s (K.fenceValue slot)))) (signalRaised s slot v) :=
  foldN_ch _ (Changes.refl _ _) fun _ _ hx => raiseClass_ch (List.Subset.refl _) hx

theorem writeN_objs (s : State) (k n : Nat) : Changes [.objs] s (writeN s k n) := writeN_ch (by decide) (Changes.refl _ s)

/-- A signal of a fence on which nothing waits does no more than raise its value and its events. -/
theorem signalFence_of_noWaits {s : State} {slot : Nat} (hnone : fenceWaits s slot = []) (v : Nat) :
    signalFence s slot v = signalRaised s slot v := by
  have hrings : (signalRaised s slot v).rings = s.rings :=
    ((signalRaised_changes s slot v).rings (by decide)).trans ((writeN_objs s _ _).rings (by decide))
  have hstill : fenceWaits (signalRaised s slot v) slot = [] := by rw [fenceWaits, hrings, ← hnone, fenceWaits]
  change satisfyWaits (signalRaised s slot v) slot = _
  rw [satisfyWaits, hstill]
  rfl

theorem fenceValue_ne_ring {slot ring sub : Nat} (hslot : slot < 256) (hring : ring < 256) (hsub : sub < 256) :
    K.fenceValue slot ≠ objKey (0x3100 + ring) sub := by
  simp only [K.fenceValue, objKey]
  omega

theorem not_noteKey_ring {ring sub : Nat} (hring : ring < 256) (hsub : sub < 256) : ¬ noteKey (objKey (0x3100 + ring) sub) := by
  simp only [noteKey, K.dictNotifyDrop, K.regVoteFix, K.regVoteBad, K.kaolinCanDrop, K.logOut, objKey]
  omega

/-- Raising a fence moves nothing that the ring's answer depends on. -/
theorem sameRing_signalRaised {s u : State} {h : CmdHdr} {slot : Nat} (hslot : slot < 256) (hs : SameRing s u h) (v : Nat) :
    SameRing s (signalRaised u slot v) h := by
  have hafter := signalRaised_changes u slot v
  have hwrite := writeN_objs u (K.fenceValue slot) (max v (getN u (K.fenceValue slot)))
  have hring : ringOf (signalRaised u slot v) h.ring = ringOf u h.ring := by
    rw [ringOf, hafter.rings (by decide), hwrite.rings (by decide), ringOf]
  have hresets : SameResets u (signalRaised u slot v) :=
    (sameResets_of_funcs (hwrite.funcs (by decide))).trans (sameResets_foldN (fun x a => sameResets_raiseClass x a 3) _ _)
  have hkeep : ∀ sub, sub < 256 → getN (signalRaised u slot v) (objKey (0x3100 + h.ring) sub) = getN u (objKey (0x3100 + h.ring) sub) :=
    fun sub hsub => (getN_of_changes hafter (by decide) (not_noteKey_ring h.ring.isLt hsub)).trans
      (getN_writeN_ne _ _ (fenceValue_ne_ring hslot h.ring.isLt hsub).symm)
  obtain ⟨hhead, htail, hcq, hera, hheld, hnow, hepoch, hbase, horder⟩ := hs
  exact ⟨by rw [hring, hhead], by rw [hring, htail], by rw [hring, hcq], by rw [hring, hera], by rw [hring, hheld],
    (hafter.now (by decide)).trans ((hwrite.now (by decide)).trans hnow), (hresets _).1.trans hepoch,
    (hkeep _ (by decide)).trans hbase, (hkeep _ (by decide)).trans horder⟩

/-- A signal by the fence's owner on a live fence raises it and completes with the value. -/
theorem doSignal_owner {s : State} {t : Ticket} {handle v slot : Nat} (hslot : fenceSlot s handle = some slot)
    (howner : getN s (K.fenceOwner slot) = t.func) (hlive : getN s (K.fenceState slot) = fenceLive) :
    doSignal s t handle v = completeR (signalFence s slot v) t 0 (getN (signalFence s slot v) (K.fenceValue slot)) := by
  simp [doSignal, hslot, howner, hlive]

theorem exec_fenceSignal_done {s : State} {h : CmdHdr} {fence : BitVec 32} {value : BitVec 64} {slot : Nat} (hf : Fetches s h 0x01 false)
    (hfirst : earlierWork s (ticketOf s h 0x01) = false) (hslot : fenceSlot s fence.toNat = some slot)
    (howner : getN s (K.fenceOwner slot) = getN s (K.ringOwner h.ring)) (hlive : getN s (K.fenceState slot) = fenceLive)
    (hnone : fenceWaits s slot = []) :
    ∃ t, exec (.fenceSignal h fence value) s = .next t ∧ getN t (K.fenceValue slot) = max value.toNat (getN s (K.fenceValue slot)) ∧
      ringDone s t h 0x01 0 (some (max value.toNat (getN s (K.fenceValue slot)))) ∧ onlyObjsAndNotes [K.fenceValue slot] s t := by
  have hlt := fenceSlot_lt hslot
  obtain ⟨hvalue, hobjs⟩ := signalFence_spec (fetched s h 0x01 (fenceBytes fence 0 value)) hlt value.toNat
  have hsignal : signalFence (fetched s h 0x01 (fenceBytes fence 0 value)) slot value.toNat = _ :=
    signalFence_of_noWaits (fenceWaits_fetched hf.fetch hnone) value.toNat
  have hsame := sameRing_signalRaised hlt (SameRing.fetched s h 0x01 (fenceBytes fence 0 value)) value.toNat
  rw [getN_fetched] at hvalue
  obtain ⟨hdone, -, hchanges⟩ := completeR_done (st := 0) (x := max value.toNat (getN s (K.fenceValue slot))) hf hsame
  refine ⟨completeR (signalRaised (fetched s h 0x01 (fenceBytes fence 0 value)) slot value.toNat) (ticketOf s h 0x01) 0
    (max value.toNat (getN s (K.fenceValue slot))), ?_, ?_, hdone, ?_⟩
  · rw [exec_fenceSignal hf hfirst, doSignal_owner (slot := slot) (by rw [fenceSlot_fetched, hslot])
      (by rw [getN_fetched]; exact howner) (by rw [getN_fetched]; exact hlive), hvalue, hsignal]
  · refine (getN_of_changes hchanges (by decide) (not_noteKey_fence hlt (by omega))).trans ?_
    rw [← hsignal]
    exact hvalue
  · have hfetch := onlyAndNotes_of_changes (ks := [K.fenceValue slot])
      (fetched_changes s h 0x01 (fenceBytes fence 0 value)) (by decide)
    rw [hsignal] at hobjs
    exact onlyAndNotes_trans (onlyAndNotes_trans hfetch hobjs) (onlyAndNotes_of_changes hchanges (by decide))

/-! ## Waits (R231, R232) -/

/-- The state that a fetched wait leaves: its checks in their order. -/
def waitOutcome (s : State) (h : CmdHdr) (fence timeout : BitVec 32) (value : BitVec 64) : State :=
  let u := waitFetched s h fence timeout value
  let k := ticketOf s h 0x02
  match fenceSlot s fence.toNat with
  | none => waitFails u k 3
  | some slot =>
    if mayWait s (getN s (K.ringOwner h.ring)) slot = false then waitFails u k 3
    else if 600000 < timeout.toNat then waitFails (draw u) k (Config.freeNat u.fresh % 256)
    else if getN s (K.fenceState slot) = fenceAbandoned then waitFails u k 2
    else if value.toNat ≤ getN s (K.fenceValue slot) then completeR u k 0 (getN s (K.fenceValue slot))
    else modRing u h.ring (fun r => { r with
      wait := some ⟨k, slot, value.toNat, if timeout.toNat = 0 then none else some (s.now + timeout.toNat * 1000000)⟩ })

theorem exec_fenceWait {s : State} {h : CmdHdr} {fence timeout : BitVec 32} {value : BitVec 64} (hf : Fetches s h 0x02 false) :
    exec (.fenceWait h fence timeout value) s = .next (waitOutcome s h fence timeout value) := by
  have hget := getN_waitFetched s h fence timeout value
  have hslot : fenceSlot (waitFetched s h fence timeout value) fence.toNat = fenceSlot s fence.toNat := by
    simp only [fenceSlot, hget]
  have hmay : ∀ slot, mayWait (waitFetched s h fence timeout value) (ticketOf s h 0x02).func slot =
      mayWait s (getN s (K.ringOwner h.ring)) slot := fun slot => by
    simp only [mayWait, hget]
    rfl
  change execFenceWait h fence timeout value s = _
  unfold execFenceWait
  rw [beginCmd_fetches hf]
  dsimp only
  rw [show modRing (fetched s h 0x02 (fenceBytes fence timeout value)) (ticketOf s h 0x02).ring
    (fun r => { r with dropUntilWait := false }) = waitFetched s h fence timeout value from rfl, hslot, waitOutcome]
  cases fenceSlot s fence.toNat with
  | none => rfl
  | some slot =>
    dsimp only
    rw [hmay, hget, hget]
    cases mayWait s (getN s (K.ringOwner h.ring)) slot with
    | false => rfl
    | true =>
      rw [if_neg (show ¬ (!true) = true by decide), if_neg (show ¬ true = false by decide)]
      by_cases hlong : 600000 < timeout.toNat
      · rw [if_pos hlong, if_pos hlong]
      · rw [if_neg hlong, if_neg hlong]
        by_cases habandoned : getN s (K.fenceState slot) = fenceAbandoned
        · rw [if_pos habandoned, if_pos habandoned]
        · rw [if_neg habandoned, if_neg habandoned]
          by_cases hreached : value.toNat ≤ getN s (K.fenceValue slot)
          · rw [if_pos hreached, if_pos hreached]
          · rw [if_neg hreached, if_neg hreached]
            rfl

theorem ringOf_waitFetched (s : State) (h : CmdHdr) (fence timeout : BitVec 32) (value : BitVec 64) :
    ringOf (waitFetched s h fence timeout value) h.ring =
      { ringOf (fetched s h 0x02 (fenceBytes fence timeout value)) h.ring with dropUntilWait := false } := ringOf_modRing ..

theorem ringOf_waitFetched_ne (s : State) (h : CmdHdr) (fence timeout : BitVec 32) (value : BitVec 64) {j : Nat} (hj : j ≠ h.ring) :
    ringOf (waitFetched s h fence timeout value) j = ringOf s j :=
  (ringOf_modRing_ne _ _ hj).trans (ringOf_fetched_ne s 0x02 _ hj)

/-- A wait that fails: its ring is answered, and drops layer sets and commits up to the next wait. -/
theorem waitFails_done {s u : State} {h : CmdHdr} (cause : Nat) (hf : Fetches s h 0x02 false) (hs : SameRing s u h) :
    ringDone s (waitFails u (ticketOf s h 0x02) cause) h 0x02 3 (some cause) ∧
      (ringOf (waitFails u (ticketOf s h 0x02) cause) h.ring).dropUntilWait = true := by
  have hring : ringOf (modRing u h.ring (fun r => { r with dropUntilWait := true })) h.ring =
      { ringOf u h.ring with dropUntilWait := true } := ringOf_modRing ..
  have hsame : SameRing s (modRing u h.ring (fun r => { r with dropUntilWait := true })) h := by
    obtain ⟨hhead, htail, hcq, hera, hheld, hnow, hepoch, hbase, horder⟩ := hs
    exact ⟨by rw [hring, hhead], by rw [hring, htail], by rw [hring, hcq], by rw [hring, hera], by rw [hring, hheld],
      hnow, hepoch, hbase, horder⟩
  obtain ⟨hdone, -, -⟩ := completeR_done (st := 3) (x := cause) hf hsame
  refine ⟨hdone, ?_⟩
  have hwork := sameWork_completeR (modRing u h.ring (fun r => { r with dropUntilWait := true })) (ticketOf s h 0x02) 3 cause h.ring
  rw [hring] at hwork
  exact hwork.dropUntilWait

theorem waitOutcome_satisfied {s : State} {h : CmdHdr} {fence timeout : BitVec 32} {value : BitVec 64} {slot : Nat}
    (hslot : fenceSlot s fence.toNat = some slot) (hmay : mayWait s (getN s (K.ringOwner h.ring)) slot = true)
    (htimeout : timeout.toNat ≤ 600000) (hlive : getN s (K.fenceState slot) = fenceLive)
    (hreached : value.toNat ≤ getN s (K.fenceValue slot)) :
    waitOutcome s h fence timeout value =
      completeR (waitFetched s h fence timeout value) (ticketOf s h 0x02) 0 (getN s (K.fenceValue slot)) := by
  simp [waitOutcome, hslot, hmay, htimeout.not_gt, hlive, hreached, fenceLive, fenceAbandoned]

theorem waitOutcome_held {s : State} {h : CmdHdr} {fence timeout : BitVec 32} {value : BitVec 64} {slot : Nat}
    (hslot : fenceSlot s fence.toNat = some slot) (hmay : mayWait s (getN s (K.ringOwner h.ring)) slot = true)
    (htimeout : timeout.toNat ≤ 600000) (hlive : getN s (K.fenceState slot) = fenceLive)
    (hbelow : getN s (K.fenceValue slot) < value.toNat) :
    waitOutcome s h fence timeout value = modRing (waitFetched s h fence timeout value) h.ring (fun r => { r with
      wait := some ⟨ticketOf s h 0x02, slot, value.toNat,
        if timeout.toNat = 0 then none else some (s.now + timeout.toNat * 1000000)⟩ }) := by
  simp [waitOutcome, hslot, hmay, htimeout.not_gt, hlive, hbelow, fenceLive, fenceAbandoned]

theorem not_canFetch_of_wait {s : State} {h : Nat} (hwait : (ringOf s h).wait ≠ none) : canFetch s h = false := by
  cases hfetch : canFetch s h with
  | false => rfl
  | true => exact absurd (wait_none_of_canFetch hfetch) hwait

theorem exec_fenceWait_live {s : State} {h : CmdHdr} {fence timeout : BitVec 32} {value : BitVec 64} {slot : Nat}
    (hf : Fetches s h 0x02 false) (hslot : fenceSlot s fence.toNat = some slot)
    (hmay : mayWait s (getN s (K.ringOwner h.ring)) slot = true) (htimeout : timeout.toNat ≤ 600000)
    (hlive : getN s (K.fenceState slot) = fenceLive) :
    ∃ t, exec (.fenceWait h fence timeout value) s = .next t ∧ (ringOf t h.ring).dropUntilWait = false ∧
      (value.toNat ≤ getN s (K.fenceValue slot) →
        ringDone s t h 0x02 0 (some (getN s (K.fenceValue slot))) ∧ (ringOf t h.ring).wait = none) ∧
      (getN s (K.fenceValue slot) < value.toNat → ∃ w, (ringOf t h.ring).wait = some w ∧ w.slot = slot ∧ w.value = value.toNat ∧
        w.failAt = (if timeout.toNat = 0 then none else some (s.now + timeout.toNat * 1000000)) ∧
        (ringOf t h.ring).cqTail = (ringOf s h.ring).cqTail ∧ canFetch t h.ring = false ∧ Changes [.host, .rings] s t) ∧
      (∀ j, j ≠ h.ring.val → ringOf t j = ringOf s j) := by
  have hsame := sameRing_waitFetched s h fence timeout value
  have hring := ringOf_waitFetched s h fence timeout value
  have hothers := fun j hj => ringOf_waitFetched_ne s h fence timeout value (j := j) hj
  have hnowait : (ringOf (waitFetched s h fence timeout value) h.ring).wait = none := by
    rw [hring, ringOf_fetched]
    exact wait_none_of_canFetch hf.fetch
  rcases le_or_gt value.toNat (getN s (K.fenceValue slot)) with hreached | hbelow
  · obtain ⟨hdone, hrest, -⟩ := completeR_done (st := 0) (x := getN s (K.fenceValue slot)) hf hsame
    have hwork := sameWork_completeR (waitFetched s h fence timeout value) (ticketOf s h 0x02) 0 (getN s (K.fenceValue slot)) h.ring
    refine ⟨_, (exec_fenceWait hf).trans (congrArg _ (waitOutcome_satisfied hslot hmay htimeout hlive hreached)),
      hwork.dropUntilWait.trans (by rw [hring]), fun _ => ⟨hdone, hwork.wait.trans hnowait⟩, fun hbelow => absurd hbelow hreached.not_gt,
      fun j hj => (hrest j hj).trans (hothers j hj)⟩
  · have hheld : ringOf (modRing (waitFetched s h fence timeout value) h.ring (fun r => { r with
        wait := some ⟨ticketOf s h 0x02, slot, value.toNat,
          if timeout.toNat = 0 then none else some (s.now + timeout.toNat * 1000000)⟩ })) h.ring = _ := ringOf_modRing ..
    refine ⟨_, (exec_fenceWait hf).trans (congrArg _ (waitOutcome_held hslot hmay htimeout hlive hbelow)), by rw [hheld, hring],
      fun hreached => absurd hbelow hreached.not_gt, fun _ => ⟨_, by rw [hheld], rfl, rfl, rfl, ?_, ?_, ?_⟩, fun j hj => ?_⟩
    · rw [hheld]
      exact hsame.cqTail
    · exact not_canFetch_of_wait (by rw [hheld]; simp)
    · exact modRing_ch (by decide) (modRing_ch (by decide) (fetched_changes s h 0x02 (fenceBytes fence timeout value)))
    · exact (ringOf_modRing_ne _ _ hj).trans (hothers j hj)

theorem exec_fenceWait_failed {s : State} {h : CmdHdr} {fence timeout : BitVec 32} {value : BitVec 64} (hf : Fetches s h 0x02 false) :
    ∃ t, exec (.fenceWait h fence timeout value) s = .next t ∧
      ((∀ slot, fenceSlot s fence.toNat = some slot → mayWait s (getN s (K.ringOwner h.ring)) slot = false) →
        ringDone s t h 0x02 3 (some 3) ∧ (ringOf t h.ring).dropUntilWait = true) ∧
      (∀ slot, fenceSlot s fence.toNat = some slot → mayWait s (getN s (K.ringOwner h.ring)) slot = true → timeout.toNat ≤ 600000 →
        getN s (K.fenceState slot) = fenceAbandoned → ringDone s t h 0x02 3 (some 2) ∧ (ringOf t h.ring).dropUntilWait = true) ∧
      (∀ slot, fenceSlot s fence.toNat = some slot → mayWait s (getN s (K.ringOwner h.ring)) slot = true → 600000 < timeout.toNat →
        ringDone s t h 0x02 3 none ∧ (ringOf t h.ring).dropUntilWait = true) := by
  have hsame := sameRing_waitFetched s h fence timeout value
  refine ⟨_, exec_fenceWait hf, fun hmay => ?invalid, fun slot hslot hmay htimeout habandoned => ?abandoned,
    fun slot hslot hmay htimeout => ?long⟩
  case invalid =>
    have houtcome : waitOutcome s h fence timeout value = waitFails (waitFetched s h fence timeout value) (ticketOf s h 0x02) 3 := by
      cases hslot : fenceSlot s fence.toNat with
      | none => simp [waitOutcome, hslot]
      | some slot => simp [waitOutcome, hslot, hmay slot hslot]
    rw [houtcome]
    exact waitFails_done 3 hf hsame
  case abandoned =>
    have houtcome : waitOutcome s h fence timeout value = waitFails (waitFetched s h fence timeout value) (ticketOf s h 0x02) 2 := by
      simp [waitOutcome, hslot, hmay, htimeout.not_gt, habandoned]
    rw [houtcome]
    exact waitFails_done 2 hf hsame
  case long =>
    have houtcome : waitOutcome s h fence timeout value = waitFails (draw (waitFetched s h fence timeout value)) (ticketOf s h 0x02)
        (Config.freeNat (waitFetched s h fence timeout value).fresh % 256) := by
      simp [waitOutcome, hslot, hmay, htimeout]
    rw [houtcome]
    obtain ⟨hdone, hdrops⟩ := waitFails_done (Config.freeNat (waitFetched s h fence timeout value).fresh % 256) hf hsame.draw
    exact ⟨ringDone_anyResult hdone, hdrops⟩

/-! ## Failing waits: a timeout, and a fence given up -/

theorem failWait_held {s : State} {h cause : Nat} {w : HeldWait} (hwait : (ringOf s h).wait = some w) :
    failWait s h cause = completeR (modRing s h (fun r => { r with wait := none, dropUntilWait := true })) w.ticket 3 cause := by
  simp only [failWait, hwait]

/-- A wait that fails is off its ring, which then drops layer sets and commits. -/
theorem failWait_ring {s : State} {h cause : Nat} {w : HeldWait} (hwait : (ringOf s h).wait = some w) :
    (ringOf (failWait s h cause) h).wait = none ∧ (ringOf (failWait s h cause) h).dropUntilWait = true := by
  have hwork := sameWork_completeR (modRing s h (fun r => { r with wait := none, dropUntilWait := true })) w.ticket 3 cause h
  rw [ringOf_modRing] at hwork
  rw [failWait_held hwait]
  exact ⟨hwork.wait, hwork.dropUntilWait⟩

theorem wait_failWait_self (s : State) (h cause : Nat) : (ringOf (failWait s h cause) h).wait = none := by
  cases hwait : (ringOf s h).wait with
  | none => simp only [failWait, hwait]
  | some w => exact (failWait_ring hwait).1

/-- Failing one ring's wait puts no wait on another ring. -/
theorem wait_failWait_of_none {s : State} {j : Nat} (hnone : (ringOf s j).wait = none) (h cause : Nat) :
    (ringOf (failWait s h cause) j).wait = none := by
  by_cases hj : j = h
  · rw [hj]
    exact wait_failWait_self s h cause
  · cases hwait : (ringOf s h).wait with
    | none => simpa only [failWait, hwait] using hnone
    | some w =>
      have hwork := sameWork_completeR (modRing s h (fun r => { r with wait := none, dropUntilWait := true })) w.ticket 3 cause j
      rw [ringOf_modRing_ne _ _ hj] at hwork
      rw [failWait_held hwait]
      exact hwork.wait.trans hnone

theorem wait_foldN_failWait {l : List Nat} {s : State} {j : Nat} (hj : j ∈ l ∨ (ringOf s j).wait = none) :
    (ringOf (foldN l (fun s h => failWait s h 2) s) j).wait = none := by
  induction l generalizing s with
  | nil => exact hj.resolve_left (by simp)
  | cons h l ih =>
    refine ih (s := failWait s h 2) ?_
    rcases hj with hj | hnone
    · rcases List.mem_cons.mp hj with rfl | hj
      · exact .inr (wait_failWait_self s j 2)
      · exact .inl hj
    · exact .inr (wait_failWait_of_none hnone h 2)

theorem mem_fenceWaits {s : State} {h slot : Nat} (hwait : (ringOf s h).wait.map (·.slot) = some slot) : h ∈ fenceWaits s slot := by
  cases hfind : tfind s.rings h with
  | none =>
    have hring : ringOf s h = {} := by rw [ringOf, tget, hfind]; rfl
    rw [hring] at hwait
    cases hwait
  | some r =>
    have hring : ringOf s h = r := by rw [ringOf, tget, hfind]; rfl
    rw [hring] at hwait
    exact List.mem_map.mpr ⟨(h, r), List.mem_filter.mpr ⟨mem_of_tfind hfind, by simp [hwait]⟩, rfl⟩

/-- Giving up a fence ends every wait held on it. -/
theorem wait_fenceApply_giveUp {s : State} {slot h : Nat} (howned : getN s (K.fenceOwner slot) ≠ 0xFF)
    (hwait : (ringOf s h).wait.map (·.slot) = some slot) : (ringOf (fenceApply s slot 1 0xFF) h).wait = none := by
  have hrings : ringOf (fenceApply s slot 1 0xFF) h = ringOf (abandonFence s slot) h := by
    rw [fenceApply_giveUp howned]
    have hafter : Changes [.objs] (abandonFence s slot) (freeFence (writeN (abandonFence s slot) (K.fenceOwner slot) 0xFF) slot) :=
      freeFence_ch (by decide) (writeN_objs _ _ _)
    rw [ringOf, hafter.rings (by decide), ringOf]
  rw [hrings]
  exact wait_foldN_failWait (s := putN s (K.fenceState slot) fenceAbandoned) (.inl (mem_fenceWaits hwait))

theorem exec_fenceWaitTimeout {s : State} {ring : Fin 256} {w : HeldWait} {due : Nat} (hwait : (ringOf s ring).wait = some w)
    (hdue : w.failAt = some due) : exec (.fenceWaitTimeout ring) s = .next (if due ≤ s.now then failWait s ring 1 else s) := by
  change execFenceWaitTimeout ring s = _
  simp only [execFenceWaitTimeout, hwait, hdue]
  split <;> rfl

theorem exec_fenceWaitTimeout_spec {s : State} {ring : Fin 256} {w : HeldWait} {due : Nat} (hwait : (ringOf s ring).wait = some w)
    (hdue : w.failAt = some due) :
    ∃ t, exec (.fenceWaitTimeout ring) s = .next t ∧ (s.now < due → t = s) ∧
      (due ≤ s.now → w.ticket.ring = ring.val →
        (ringOf t ring).wait = none ∧ (ringOf t ring).dropUntilWait = true ∧ ticketDone s t w.ticket 3 1) ∧
      Changes [.fresh, .voteSecond, .host, .funcs, .sess, .rings, .grog, .notes] s t := by
  refine ⟨_, exec_fenceWaitTimeout hwait hdue, fun hearly => if_neg (by omega), fun hlate hring => ?_, ?_⟩
  · rw [if_pos hlate]
    obtain ⟨hnone, hdrops⟩ := failWait_ring (cause := 1) hwait
    refine ⟨hnone, hdrops, ?_⟩
    rw [failWait_held hwait]
    have hmod : ringOf (modRing s ring (fun r => { r with wait := none, dropUntilWait := true })) w.ticket.ring =
        { ringOf s w.ticket.ring with wait := none, dropUntilWait := true } := by rw [hring, ringOf_modRing]
    exact completeR_ticketDone
      ⟨by rw [hmod], by rw [hmod], by rw [hmod], by rw [hmod], rfl, rfl, rfl, rfl⟩ (by decide)
  · split
    · exact failWait_ch (List.Subset.refl _) (Changes.refl _ s)
    · exact Changes.refl _ s

/-! ## The obligation -/

/-- Settles O33: a signal waits or raises its fence, a wait ends as its checks say, and a fence given up ends the waits on it. -/
theorem signalsAndWaits : Obligations.SignalsAndWaits := by
  unfold Obligations.SignalsAndWaits
  refine ⟨fun s h fence value hf hearlier => ?held,
    fun s h fence value slot hf hfirst hslot howner hlive hnone => exec_fenceSignal_done hf hfirst hslot howner hlive hnone,
    fun s h fence timeout value slot hf hslot hmay htimeout hlive => exec_fenceWait_live hf hslot hmay htimeout hlive,
    fun s h fence timeout value hf => exec_fenceWait_failed hf,
    fun s ring w due hwait hdue => exec_fenceWaitTimeout_spec hwait hdue,
    fun s r i slot expected h hmay hctr howned => ?givenUp⟩
  case held =>
    exact ⟨_, exec_fenceSignal_held hf hearlier, rfl, (SameRing.fetched s h 0x01 (fenceBytes fence 0 value)).cqTail,
      ch_signals ((fetched_changes s h 0x01 (fenceBytes fence 0 value)).mono (by decide)) (by decide)⟩
  case givenUp =>
    obtain ⟨t, hrun, -, hafter⟩ := exec_fenceClaim_done (owner := 0xFF) h hmay hctr (.inl rfl)
    refine ⟨t, hrun, fun j hj => ?_⟩
    rw [ringOf, hafter.rings (by decide)]
    exact wait_fenceApply_giveUp (s := renewed s i) howned hj

end Sys2Proof.Proofs.FenceWaits

/-!
PROOFS. O34: claiming a program slot, and how a translation ends.

A claim writes prog.owner only. The end of a translation writes the slot's objects by name; which of the two ends it is and with what
is `translate`'s answer, whose branches are the reasons of R173 in their order and whose registers are rounded and bounded (R170).
-/

namespace Sys2Proof.Proofs.ProgramSlots

open Sys2Proof.Machine
open Sys2Proof.Proofs.SurfaceAllocation (objKey_div objKey_mod)
open Sys2Proof.Proofs.SurfaceClaims (claimObject_refused itemHdr_toNat ctrOf_writeN_of_ne)
open Sys2Proof.Proofs.FenceObjects (owner_inRange)

/-! ## Claims (R174, R284) -/

theorem progOwner_div (slot : Nat) : K.progOwner slot / 256 = 0x3500 + slot := objKey_div (by omega)

theorem progOwner_mod (slot : Nat) : K.progOwner slot % 256 = 1 := objKey_mod (by omega)

theorem progOwner_lt (slot : Fin 256) : K.progOwner slot < 2 ^ 24 := key_lt (by have := slot.isLt; omega) (by omega)

theorem mayWriteObj_progOwner {s : State} {r : DictReq} {i : Nat} {slot : Fin 256} {new : Nat} {row : ObjRow}
    (hmay : mayOwn s i (getN s (K.progOwner slot)) new) (hacc : row.acc = .rw) :
    mayWriteObj (renewed s i) { sessionCtx s r i none with cond := true } row (K.progOwner slot / 256) (K.progOwner slot % 256) new
      = true := by
  rw [progOwner_div, progOwner_mod]
  rcases hmay with hmgr | ⟨hvf, ⟨hold, hnew⟩ | ⟨hold, hnew⟩⟩
  · simp [mayWriteObj, hacc, sessionCtx, hmgr, areaAccess_prog slot.isLt, progAccess, WCtx.isMgr]
  · simp [mayWriteObj, hacc, sessionCtx, hvf, areaAccess_prog slot.isLt, progAccess, getN_renewed, hold, hnew]
  · simp [mayWriteObj, hacc, sessionCtx, hvf, areaAccess_prog slot.isLt, progAccess, getN_renewed, hold, hnew]

theorem progCheck_owner_ok {s : State} {slot new : Nat} (hgrant : grantLeft s 0x3500 0x3600 (getN s (K.grantProgs new)) new) :
    progCheck s slot 1 new = .ok := by
  rcases hgrant with rfl | ⟨hexists, hleft⟩
  · simp [progCheck]
  · have hover : overGrant s new (ownedCount s 0x3500 0x3600 new) (getN s (K.grantProgs new)) = false := by
      simp only [overGrant, hexists, Bool.and_true, Bool.and_eq_false_iff, decide_eq_false_iff_not]
      omega
    simp [progCheck, hover, hexists]

theorem progCheck_owner_range {s : State} {slot new : Nat} (hfree : getN s (K.progOwner slot) = 0xFF) (hpos : 0 < new) (hlt : new < 64)
    (hon : vfOn s new = true) (hfull : getN s (K.grantProgs new) ≤ ownedCount s 0x3500 0x3600 new) : progCheck s slot 1 new = .range := by
  have hover : overGrant s new (ownedCount s 0x3500 0x3600 new) (getN s (K.grantProgs new)) = true := by
    simp only [overGrant, funcExists, hon, Bool.or_true, Bool.and_true, Bool.and_eq_true, decide_eq_true_eq]
    omega
  simp [progCheck, hfree, hover, show new ≠ 0xFF by omega]

theorem exec_progClaim_done {s : State} {r : DictReq} {i : Nat} {slot : Fin 256} {expected : BitVec 16} {owner : BitVec 8}
    (h : AdmittedClaim s r i (K.progOwner slot) owner.toNat expected) (hmay : mayOwn s i (getN s (K.progOwner slot)) owner.toNat)
    (hctr : expected.toNat = ctrOf s (K.progOwner slot)) (hne : getN s (K.progOwner slot) ≠ owner.toNat)
    (hgrant : grantLeft s 0x3500 0x3600 (getN s (K.grantProgs owner.toNat)) owner.toNat) :
    ∃ t, exec (.progClaim r slot expected owner) s = .next t ∧ answered t r 0x12 .ok ∧ getN t (K.progOwner slot) = owner.toNat ∧
      ctrOf t (K.progOwner slot) = (ctrOf s (K.progOwner slot) + 1) % 65536 ∧
      onlyObjs [K.progOwner slot] s t ∧ Changes [.objs, .sess, .resp] s t := by
  obtain ⟨t, hrun, hans, hafter⟩ : ∃ t, exec (.progClaim r slot expected owner) s = .next t ∧ answered t r 0x12 .ok ∧
      Changes [.sess, .resp] (writeN (renewed s i) (K.progOwner slot) owner.toNat) t := by
    refine claimObject_done (a := .rw) (row_progOwner slot) (progOwner_lt slot) h (decide_eq_true owner.isLt)
      (fun row hacc => mayWriteObj_progOwner hmay hacc) hctr (owner_inRange hgrant) ?_ ?_ (.inl rfl) ?_ (.inl rfl)
    · rw [progOwner_div, progOwner_mod, areaCheck_prog slot.isLt (by omega)]
      exact progCheck_owner_ok hgrant
    · rw [progOwner_div, progOwner_mod, areaClaims_prog slot.isLt (by omega)]
    · rw [progOwner_div, progOwner_mod, areaApply_prog slot.isLt (by omega)]
      rfl
  have hwrite : onlyObjs [K.progOwner slot] s (writeN (renewed s i) (K.progOwner slot) owner.toNat) :=
    onlyObjs_writeN _ (by simp) (onlyObjs_of_eq rfl)
  refine ⟨t, hrun, hans, ?_, ?_, onlyObjs_trans hwrite (hafter.only (by decide) (by decide) _),
    changes_done (writeN_ch (by decide) (Changes.refl _ _)) hafter (by decide) (by decide)⟩
  · rw [hafter.getN (by decide) (by decide), getN_writeN]
  · rw [hafter.ctrOf (by decide) (by decide), ctrOf_writeN_of_ne (by rw [getN_renewed]; exact hne),
      (renewed_changes i (P := [.sess]) (by decide) (Changes.refl _ s)).ctrOf (by decide) (by decide)]

theorem exec_progClaim_overGrant {s : State} {r : DictReq} {i : Nat} {slot : Fin 256} {expected : BitVec 16} {owner : BitVec 8}
    (h : AdmittedClaim s r i (K.progOwner slot) owner.toNat expected) (hmay : mayOwn s i (getN s (K.progOwner slot)) owner.toNat)
    (hctr : expected.toNat = ctrOf s (K.progOwner slot)) (hfree : getN s (K.progOwner slot) = 0xFF) (hpos : 0 < owner.toNat)
    (hlt : owner.toNat < 64) (hon : vfOn s owner.toNat = true)
    (hfull : getN s (K.grantProgs owner.toNat) ≤ ownedCount s 0x3500 0x3600 owner.toNat) :
    ∃ t, exec (.progClaim r slot expected owner) s = .next t ∧ answered t r 0x12 .range ∧ Changes [.fresh, .sess, .resp] s t := by
  obtain ⟨hidx, hsub, hty⟩ := itemHdr_toNat .u8 (progOwner_lt slot)
  have hrange : [((0 : Int), (64 : Int)), (255, 255)].any (fun e =>
      decide (e.1 ≤ measureOf .u8 (.num owner.toNat) ∧ measureOf .u8 (.num owner.toNat) ≤ e.2)) = true := by
    simp only [List.any_cons, Bool.or_eq_true, decide_eq_true_eq]
    exact .inl ⟨Int.natCast_nonneg _, Int.ofNat_le.mpr hlt.le⟩
  refine claimObject_refused (row_progOwner slot) h
    (writeObj_refused hidx hsub hty (row_progOwner slot) (decide_eq_true owner.isLt) (fun row hacc => mayWriteObj_progOwner hmay hacc)
      (.inr (congrArg some hctr)) hrange ?_ (by decide) (.inr (.inr rfl))) (by decide) (by decide)
  rw [progOwner_div, progOwner_mod, areaCheck_prog slot.isLt (by omega)]
  exact progCheck_owner_range hfree hpos hlt hon hfull

/-! ## What translation answers (R170, R173) -/

theorem translate_noModule {code : List Byte} (h : spvModule code = none) (entry : List Byte) : translate code entry = .error 1 := by
  simp only [Machine.translate, h]

theorem translate_noEntry {code entry : List Byte} {m : List (Nat × List Nat)} (hm : spvModule code = some m)
    (hentry : (spvEntries m).find? (fun e => e.name == entry) = none) : translate code entry = .error 2 := by
  simp only [Machine.translate, hm, hentry]

theorem translate_fault {code entry : List Byte} {m : List (Nat × List Nat)} {e : SpvEntry} {why : Nat} (hm : spvModule code = some m)
    (hentry : (spvEntries m).find? (fun e => e.name == entry) = some e) (hfault : spvFault m e = some why) :
    translate code entry = .error why := by
  simp only [Machine.translate, hm, hentry, hfault]

theorem roundRegs_bounds (n : Nat) : 16 ≤ roundRegs n ∧ roundRegs n % 8 = 0 := by
  have hround : roundUp n 8 % 8 = 0 := by simp [roundUp]
  unfold roundRegs
  omega

/-- A module that translates holds rounded registers within the limit. -/
theorem translate_regs {code entry : List Byte} {c : Code} (h : translate code entry = .ok c) :
    16 ≤ c.regs ∧ c.regs ≤ 256 ∧ c.regs % 8 = 0 := by
  have hbounds := roundRegs_bounds (Config.progRegs code entry)
  unfold Machine.translate at h
  split at h
  · cases h
  · split at h
    · cases h
    · split at h
      · cases h
      · dsimp only at h
        split at h
        · cases h
        · split at h
          · cases h
          · next hregs =>
            split at h
            · cases h
            · cases h
              exact ⟨hbounds.1, Nat.le_of_not_lt hregs, hbounds.2⟩

/-! ## The end of a translation (R175) -/

theorem tfind_tdel_self {α : Type} (t : Tab α) (k : Nat) : tfind (tdel t k) k = none := by
  cases h : tfind (tdel t k) k with
  | none => rfl
  | some v =>
    have hmem := (List.mem_filter.mp (mem_of_tfind h)).2
    simp at hmem

/-- The state after a slot's translation succeeds. -/
def slotReady (s : State) (slot : Nat) (c : Code) : State :=
  let s := putN (putN s (K.progState slot) 2) (K.progStage slot) c.stage
  let s := putN (putB s (K.progLate slot) c.late) (K.progRegs slot) c.regs
  let s := putV (putN s (K.progGroups slot) c.groups.length) (K.progError slot) (.bytes [])
  { s with progs := tset s.progs slot c }

/-- The state after a slot's translation fails. -/
def slotFailed (s : State) (slot why : Nat) : State :=
  let s := putV (putN s (K.progState slot) 3) (K.progError slot) (.bytes ((Config.programError why).take 240))
  { s with progs := tdel s.progs slot }

theorem exec_translationDone_ok {s : State} {slot : Fin 256} {c : Code} (hstate : getN s (K.progState slot) = 1)
    (h : translate (getBytes s (K.progCode slot)) (getBytes s (K.progEntry slot)) = .ok c) :
    exec (.translationDone slot) s = .next (slotReady s slot c) := by
  change execTranslationDone slot s = _
  unfold execTranslationDone
  rw [if_neg (not_not_intro hstate), h]
  rfl

theorem exec_translationDone_error {s : State} {slot : Fin 256} {why : Nat} (hstate : getN s (K.progState slot) = 1)
    (h : translate (getBytes s (K.progCode slot)) (getBytes s (K.progEntry slot)) = .error why) :
    exec (.translationDone slot) s = .next (slotFailed s slot why) := by
  change execTranslationDone slot s = _
  unfold execTranslationDone
  rw [if_neg (not_not_intro hstate), h]
  rfl

theorem getN_ofObjs {s t : State} (h : t.objs = s.objs) (k : Nat) : getN t k = getN s k := by
  rw [getN, getV, h]
  rfl

theorem slotReady_objs (s : State) (slot : Nat) (c : Code) :
    getN (slotReady s slot c) (K.progState slot) = 2 ∧ getN (slotReady s slot c) (K.progStage slot) = c.stage ∧
    getN (slotReady s slot c) (K.progRegs slot) = c.regs ∧ getB (slotReady s slot c) (K.progLate slot) = c.late ∧
    getN (slotReady s slot c) (K.progGroups slot) = c.groups.length ∧ getBytes (slotReady s slot c) (K.progError slot) = [] := by
  have hobjs : (slotReady s slot c).objs = (putV (putN (putN (putB (putN (putN s (K.progState slot) 2) (K.progStage slot) c.stage)
      (K.progLate slot) c.late) (K.progRegs slot) c.regs) (K.progGroups slot) c.groups.length) (K.progError slot) (.bytes [])).objs := rfl
  have hget := getN_ofObjs hobjs
  have hbytes : getBytes (slotReady s slot c) (K.progError slot) = [] := by
    rw [getBytes, getV, hobjs, ← getV, getV_putV]
    rfl
  have hlate : getB (slotReady s slot c) (K.progLate slot) = c.late := by
    rw [getB, hget, getN_putV_ne _ _ (by simp [K.progLate, K.progError, objKey]),
      getN_putN_ne _ _ (by simp [K.progLate, K.progGroups, objKey]), getN_putN_ne _ _ (by simp [K.progLate, K.progRegs, objKey]),
      ← getB, getB_putB]
  refine ⟨?_, ?_, ?_, hlate, ?_, hbytes⟩ <;> rw [hget] <;> simp [getN_putV_ne, getN_putN_ne, putB, K.progState, K.progStage, K.progLate, K.progRegs,
    K.progGroups, K.progError, objKey]

theorem slotReady_only (s : State) (slot : Nat) (c : Code) :
    onlyObjs [K.progState slot, K.progStage slot, K.progLate slot, K.progRegs slot, K.progGroups slot, K.progError slot] s
      (slotReady s slot c) := by
  have hstate := onlyObjs_putN (k := K.progState slot) (ks := [K.progState slot, K.progStage slot, K.progLate slot, K.progRegs slot,
    K.progGroups slot, K.progError slot]) 2 (by simp) (onlyObjs_refl _ s)
  have hstage := onlyObjs_putN (k := K.progStage slot) c.stage (by simp) hstate
  have hlate := onlyObjs_putV (k := K.progLate slot) (.num (b2n c.late)) (by simp) hstage
  have hregs := onlyObjs_putN (k := K.progRegs slot) c.regs (by simp) hlate
  have hgroups := onlyObjs_putN (k := K.progGroups slot) c.groups.length (by simp) hregs
  exact onlyObjs_trans (onlyObjs_putV (k := K.progError slot) (.bytes []) (by simp) hgroups) (onlyObjs_of_eq rfl)

theorem slotReady_changes (s : State) (slot : Nat) (c : Code) : Changes [.objs, .progs] s (slotReady s slot c) :=
  ch_progs (putV_ch (by decide) (putN_ch (by decide) (putN_ch (by decide) (putB_ch (by decide) (putN_ch (by decide)
    (putN_ch (by decide) (Changes.refl _ s))))))) (by decide)

theorem slotFailed_spec (s : State) (slot why : Nat) :
    getN (slotFailed s slot why) (K.progState slot) = 3 ∧
    getBytes (slotFailed s slot why) (K.progError slot) = (Config.programError why).take 240 ∧
    tfind (slotFailed s slot why).progs slot = none ∧ Changes [.objs, .progs] s (slotFailed s slot why) ∧
    onlyObjs [K.progState slot, K.progError slot] s (slotFailed s slot why) := by
  have hobjs : (slotFailed s slot why).objs =
      (putV (putN s (K.progState slot) 3) (K.progError slot) (.bytes ((Config.programError why).take 240))).objs := rfl
  refine ⟨?_, ?_, tfind_tdel_self _ _, ch_progs (putV_ch (by decide) (putN_ch (by decide) (Changes.refl _ s))) (by decide), ?_⟩
  · rw [getN_ofObjs hobjs, getN_putV_ne _ _ (by simp [K.progState, K.progError, objKey]), getN_putN]
  · rw [getBytes, getV, hobjs, ← getV, getV_putV]
    rfl
  · exact onlyObjs_trans (onlyObjs_putV _ (by simp) (onlyObjs_putN 3 (by simp) (onlyObjs_refl _ s))) (onlyObjs_of_eq rfl)

/-- Settles O34: a claim leaves one write, and a translation ends as `translate` answers. -/
theorem programSlots : Obligations.ProgramSlots := by
  unfold Obligations.ProgramSlots
  refine ⟨fun s r i slot expected owner h hmay hctr hne => ⟨exec_progClaim_done h hmay hctr hne,
      fun _ hfree hpos hlt hon hfull => exec_progClaim_overGrant h hmay hctr hfree hpos hlt hon hfull⟩,
    fun s slot c hstate htranslate => ?ready, fun s slot why hstate htranslate => ?failed,
    fun code entry hm => translate_noModule hm entry,
    fun code entry m hm => ⟨translate_noEntry hm, fun e why hentry hfault => translate_fault hm hentry hfault⟩,
    fun s slot hstate => if_pos hstate⟩
  case ready =>
    obtain ⟨hready, hstage, hregs, hlate, hgroups, herror⟩ := slotReady_objs s slot c
    obtain ⟨hlo, hhi, hmult⟩ := translate_regs htranslate
    exact ⟨_, exec_translationDone_ok hstate htranslate, hready, hstage, hregs, hlo, hhi, hmult, hlate, hgroups, herror,
      tfind_tset_same _ _ _, slotReady_changes s slot c, slotReady_only s slot c⟩
  case failed =>
    exact ⟨_, exec_translationDone_error hstate htranslate, slotFailed_spec s slot why⟩

end Sys2Proof.Proofs.ProgramSlots

/-!
PROOFS. O35: what a context that stops reads.

The last clause says that a context without work, without cores and without waits reads IDLE once its stop is done. It sets no premise
that the table of rings holds the module's 256 rings only. Where it holds a wait of a ring numbered 1280, the place of that ring's
ring.ctx is the one of tilth.seq; the arbitration at the stop's end logs a target, the sequence number becomes the context's own
number, and the context reads WAITING.
-/

namespace Sys2Proof.Proofs.ContextStop

open Sys2Proof.Machine
open Sys2Proof.Proofs.FrontEndInterrupts (binned)

/-- Context 5 of function 0 stops and has no work; context 6 has a pass, and its hint for one core is no longer kept; the next entry of
Tilth's log is number 5, and a ring numbered 1280 holds a wait. -/
def stopping : State :=
  { putN (putN (putN (putN (putN (putN State.reset (K.ctxOwner 5) 0) (K.ctxOwner 6) 0) (K.ctxClass 6) 1) (K.ctxCoresMin 6) 1)
      (K.ctxHintKept 6) 1) K.tilthSeq 4 with
    ctxs := [(5, { stopping := true }), (6, { passes := [binned] })]
    rings := [(1280, { wait := some ⟨binned.ticket, 0, 1, none⟩ })] }

/-- The stop is over, and the arbitration has logged context 6's target. -/
def stopped : State := arbitrate (modCtx stopping 5 (fun x => { x with stopping := false }))

theorem exec_ctxStopDone : exec (.ctxStopDone 5) stopping = .next stopped := rfl

theorem stopped_waits : ctxState stopped 5 = 4 := by decide +kernel

/-- Refutes O35: context 5 meets every premise of the last clause, and reads WAITING (4) after the stop, not IDLE. -/
theorem not_contextEnable : ¬ Obligations.ContextEnable := by
  unfold Obligations.ContextEnable
  intro h
  obtain ⟨-, -, hstop⟩ := h
  obtain ⟨hdone, -⟩ := hstop stopping 5 (by decide +kernel)
  obtain ⟨t, hrun, -, -, -, -, hidle, -⟩ := hdone (by decide +kernel)
  have ht : stopped = t := by simpa [exec_ctxStopDone] using hrun
  have hstate := hidle (by decide +kernel) (by decide +kernel) (by decide +kernel) (by decide +kernel)
  rw [← ht] at hstate
  exact absurd (stopped_waits.symm.trans hstate) (by decide)

end Sys2Proof.Proofs.ContextStop

/-!
PROOFS. O46: what training does while a migration of a rank that the module does not have waits for it.

The second clause says that a group whose training is done is active. It sets no premise on the migration that waits for that group. Where
the rank that it empties is number 16, the place of that rank's rank.state is the one of group 0's grp.state, and the migration that goes on
writes DRAINING there.
-/

namespace Sys2Proof.Proofs.GroupTraining

open Sys2Proof.Machine

/-- Group 0 trains, and a migration of "rank 16" to rank 0 waits for it. -/
def training : State :=
  { putN State.reset (K.grpState 0) 1 with mem := { migr := some { rank := 16, spare := 0, cause := 1, began := 0 } } }

/-- The group's grp.state after the training, of any state that the command ends in. -/
theorem training_ends_draining :
    (match exec (.groupTrainingDone 0 [] false) training with
      | .next t => getN t (K.grpState 0)
      | _ => 2) = rkDraining := by decide +kernel

/-- Refutes O46: after the training grp.state of group 0 reads 4, not 2. -/
theorem not_memoryUpkeep : ¬ Obligations.MemoryUpkeep := by
  unfold Obligations.MemoryUpkeep
  intro h
  obtain ⟨-, htrained, -⟩ := h
  obtain ⟨t, hrun, hactive, -⟩ := htrained training 0 (by decide +kernel)
  have hdraining := training_ends_draining
  rw [hrun] at hdraining
  exact absurd (hactive.symm.trans hdraining) (by decide)

end Sys2Proof.Proofs.GroupTraining

/-!
PROOFS. O48: what a freeze leaves on a core.

The fourth clause says that no core still runs a unit of the frozen VF. It sets no premise that a core's unit is of a pass that its context
holds: a unit of a pass that is gone is not spilled, and the core keeps it.
-/

namespace Sys2Proof.Proofs.FreezeCores

open Sys2Proof.Machine

/-- VF 1 freezes; core 0 runs a unit of VF 1's context 5, which holds no pass. -/
def freezing : State :=
  { putN (putN State.reset (K.migState 1) 1) (K.ctxOwner 5) 1 with cores := [(0, { work := some (.unit 5 0 0 false) })] }

theorem freezeDone_keeps_unit :
    (match exec (.freezeDone 1 []) freezing with
      | .next t => (coreOf t 0).work == some (.unit 5 0 0 false) && getN t (K.ctxOwner 5) == 1
      | _ => false) = true := by decide +kernel

/-- Refutes O48: once FREEZE_DONE is over, core 0 still runs a unit of context 5, which VF 1 owns. -/
theorem not_migrationAndLog : ¬ Obligations.MigrationAndLog := by
  unfold Obligations.MigrationAndLog
  intro h
  obtain ⟨-, -, -, hdone, -⟩ := h
  obtain ⟨t, hrun, -, hfree⟩ := hdone freezing 1 [] (by decide) (by decide +kernel)
  have hkept := freezeDone_keeps_unit
  rw [hrun] at hkept
  simp only [Bool.and_eq_true, beq_iff_eq] at hkept
  obtain ⟨hwork, howner⟩ := hkept
  exact hfree 0 5 0 0 false (by decide) (by decide) hwork howner

end Sys2Proof.Proofs.FreezeCores

/-!
PROOFS. O50: what the cut of a domain leaves of dom.state.

The fourth clause says that a domain whose notice has expired reads CUT. It sets no premise on the migration that the loss of a memory
domain stops. Where the rank that it empties is number 0x4010, the place of that rank's rank.state is the one of PD16's dom.state, and
the migration that goes back to its start writes DRAINING there.
-/

namespace Sys2Proof.Proofs.DomainCut

open Sys2Proof.Machine

/-- PD16 is on and held, its notice has run out, and "rank 0x4010" migrates to rank 0. -/
def noticed : State :=
  { putN (putN (putN State.reset K.pwrMode 1) (K.domState 16) domOn) (K.claimHold 16) 1 with
    power := { State.reset.power with notice := [(16, 0)] }
    mem := { migr := some { rank := 0x4010, spare := 0, cause := 1, began := 0 } } }

theorem cutNoticeExpiry_leaves_stopping :
    (match exec (.cutNoticeExpiry 16) noticed with
      | .next t => domSt t 16
      | _ => domCut) = domStopping := by decide +kernel

/-- Refutes O50: after the cut PD16 reads 4 (STOPPING), not CUT. -/
theorem not_trustedWorld : ¬ Obligations.TrustedWorld := by
  unfold Obligations.TrustedWorld
  intro h
  obtain ⟨-, -, -, hcut, -⟩ := h
  obtain ⟨t, hrun, hstate, -⟩ := hcut noticed 16 0 (by decide) (by decide +kernel) (by decide +kernel) (by decide +kernel)
    (by decide +kernel) (by decide +kernel)
  have hstopping := cutNoticeExpiry_leaves_stopping
  rw [hrun] at hstopping
  exact absurd (hstate.symm.trans hstopping) (by decide)

end Sys2Proof.Proofs.DomainCut

/-!
PROOFS. O58: what the emergency cut leaves of dom.state.

The first clause says that every domain from PD02 on reads CUT after a measurement of 130 °C. Its premise `Quiet` says nothing of the
migration that the loss of a memory domain stops: where the rank that it empties is number 0x4010, the place of that rank's rank.state is
the one of PD16's dom.state, and the migration that goes back to its start writes DRAINING there.
-/

namespace Sys2Proof.Proofs.EmergencyCut

open Sys2Proof.Machine

/-- The module runs with PD16 on, and "rank 0x4010" migrates to rank 0. -/
def running : State :=
  { putN (putN State.reset K.pwrMode 1) (K.domState 16) domOn with
    power := { State.reset.power with good := true }
    mem := { migr := some { rank := 0x4010, spare := 0, cause := 1, began := 0 } } }

/-- Every sensor reads 130 °C. -/
def heat : List (BitVec 32) := List.replicate 10 130

theorem thermalSample_leaves_stopping :
    (match exec (.thermalSample heat) running with
      | .next t => domSt t 16
      | _ => domCut) = domStopping := by decide +kernel

theorem running_quiet : Quiet running where
  run := by decide +kernel
  good := rfl
  heat := rfl
  supply := rfl
  cut01 := rfl
  reset := ⟨rfl, rfl⟩
  claims := by decide +kernel
  spreads := by decide +kernel

/-- Refutes O58: after the emergency cut PD16 reads 4 (STOPPING), not CUT. -/
theorem not_powerEmergencies : ¬ Obligations.PowerEmergencies := by
  unfold Obligations.PowerEmergencies
  intro h
  obtain ⟨hsample, -⟩ := h
  obtain ⟨-, hhot⟩ := hsample running heat running_quiet (by decide)
  obtain ⟨t, hrun, -, -, -, hcut⟩ := hhot 0 (by decide) (by decide +kernel) (by decide)
  have hstopping := thermalSample_leaves_stopping
  rw [hrun] at hstopping
  exact absurd ((hcut 16 (by decide) (by decide)).symm.trans hstopping) (by decide)

end Sys2Proof.Proofs.EmergencyCut

/-!
PROOFS. O49: the call gate between the worlds, and the open world's accesses to trusted targets.
-/

namespace Sys2Proof.Proofs.CallGate

open Sys2Proof.Machine

/-! ## A call -/

/-- The gate after a call has been put into it. -/
def gateTaken (s : State) (svc : Nat) (input : World → World) : State :=
  modWorld s (fun w => { input w with svc := svc, busy := true, done := false })

theorem modWorld_changes (s : State) (g : World → World) : Changes [.world] s (modWorld s g) := ch_world (Changes.refl _ s) (by decide)

theorem gateCall_busy {s : State} {svc : Nat} {input : World → World} (h : (input s.world).busy = true) :
    gateCall s svc input = modWorld s input := if_pos h

theorem gateCall_free {s : State} {svc : Nat} {input : World → World} (h : (input s.world).busy = false) :
    gateCall s svc input = (if twSt s = twRestarting then gateEnd (gateTaken s svc input) 2
      else if twSt s = twDown then gateEnd (gateTaken s svc input) 4
      else if svc = 0 ∨ 3 < svc then gateEnd (gateTaken s svc input) 1
      else interruptTw (gateTaken s svc input) intGate) := if_neg (by simp [modWorld, h])

theorem gateCall_restarting {s : State} {svc : Nat} {input : World → World} (h : (input s.world).busy = false)
    (htw : twSt s = twRestarting) : gateCall s svc input = gateEnd (gateTaken s svc input) 2 :=
  (gateCall_free h).trans (if_pos htw)

theorem gateCall_down {s : State} {svc : Nat} {input : World → World} (h : (input s.world).busy = false) (htw : twSt s = twDown) :
    gateCall s svc input = gateEnd (gateTaken s svc input) 4 := by
  rw [gateCall_free h, htw]
  rfl

theorem gateCall_run {s : State} {svc : Nat} {input : World → World} (h : (input s.world).busy = false) (htw : twSt s = twRun) :
    gateCall s svc input = (if svc = 0 ∨ 3 < svc then gateEnd (gateTaken s svc input) 1
      else interruptTw (gateTaken s svc input) intGate) := by
  rw [gateCall_free h, htw]
  rfl

theorem gateCall_changes {s : State} {svc : Nat} {input : World → World} :
    Changes [.world, .ehrica] s (gateCall s svc input) := gateCall_ch (by decide) (Changes.refl _ s)

theorem memGetAll_putBuf (b : List Byte) (w : World) :
    memGetAll (putBuf b w).buf 0 (min b.length 4096) = b.take 4096 := by
  have h := memGetAll_memSetAll w.buf 0 (b.take 4096)
  rwa [List.length_take, Nat.min_comm] at h

/-- What a call of one of the three services does to a running trusted world. -/
theorem exec_call_run {s : State} {svc : Nat} {input : World → World} {c : Instr} (hexec : exec c s = .next (gateCall s svc input))
    (h : (input s.world).busy = false) (htw : twSt s = twRun) (hsvc : ¬ (svc = 0 ∨ 3 < svc)) :
    ∃ t, exec c s = .next t ∧ t.world = { input s.world with svc := svc, busy := true, done := false } ∧ Changes [.world, .ehrica] s t :=
  ⟨_, hexec, by rw [gateCall_run h htw, if_neg hsvc]; rfl, gateCall_changes⟩

/-- What a call does that meets a restart, a trusted world that is DOWN, or another call. -/
theorem exec_call_not_run {s : State} {svc : Nat} {input : World → World} {c : Instr} (hexec : exec c s = .next (gateCall s svc input))
    (hbusy : (input s.world).busy = s.world.busy) (hin : (input s.world).svc = s.world.svc) :
    (s.world.busy = false → twSt s = twRestarting → ∃ t, exec c s = .next t ∧ t.world.busy = false ∧ t.world.done = true ∧
      t.world.result = 2 ∧ t.ehrica = s.ehrica) ∧
    (s.world.busy = false → twSt s = twDown → ∃ t, exec c s = .next t ∧ t.world.busy = false ∧ t.world.done = true ∧
      t.world.result = 4 ∧ t.ehrica = s.ehrica) ∧
    (s.world.busy = true → ∃ t, exec c s = .next t ∧ t.world.busy = true ∧ t.world.svc = s.world.svc ∧ t.ehrica = s.ehrica ∧
      Changes [.world] s t) := by
  refine ⟨fun hfree htw => ?_, fun hfree htw => ?_, fun hcall => ?_⟩
  · refine ⟨_, hexec, ?_⟩
    rw [gateCall_restarting (hbusy.trans hfree) htw]
    exact ⟨rfl, rfl, rfl, rfl⟩
  · refine ⟨_, hexec, ?_⟩
    rw [gateCall_down (hbusy.trans hfree) htw]
    exact ⟨rfl, rfl, rfl, rfl⟩
  · refine ⟨_, hexec, ?_⟩
    rw [gateCall_busy (hbusy.trans hcall)]
    exact ⟨hbusy.trans hcall, hin, rfl, modWorld_changes s input⟩

theorem exec_gateBadsvc {s : State} {svc : BitVec 16} (hsvc : svc.toNat = 0 ∨ 3 < svc.toNat) :
    exec (.gateBadsvc svc) s = .next (gateCall s svc.toNat id) := if_neg (by omega)

/-! ## A release -/

theorem getD_scrubbed (words : List Nat) (n i : Nat) (hi : i < 8) :
    ((List.range 8).map (fun i => if i < n then words.getD i 0 else 0)).getD i 0 = if i < n then words.getD i 0 else 0 := by
  simp [List.getD, hi]

theorem memGet_scrubGate {w : World} (hlen : w.bufLen ≤ 4096) (a : Nat) :
    memGet (scrubGate w).buf a = if w.bufLen ≤ a ∧ a < 4096 then 0 else memGet w.buf a := by
  have h : memGet (scrubGate w).buf a = _ := memGet_memZero w.buf w.bufLen (4096 - w.bufLen) a
  rwa [Nat.add_sub_of_le hlen] at h

/-- Scrubbing leaves the bytes that the release put into the buffer. -/
theorem memGetAll_scrubGate {w : World} {n : Nat} (hn : n ≤ w.bufLen) (a k : Nat) (hk : a + k ≤ n) :
    memGetAll (scrubGate w).buf a k = memGetAll w.buf a k := by
  induction k generalizing a with
  | zero => rfl
  | succ k ih =>
    have hhead : memGet (scrubGate w).buf a = memGet w.buf a :=
      (memGet_memZero w.buf w.bufLen (4096 - w.bufLen) a).trans (if_neg (by omega))
    exact congrArg₂ List.cons hhead (ih (a + 1) (by omega))

theorem gateAnswer_bufLen_le (s : State) (result : Nat) (b : List Byte) : (gateAnswer s result b).2.bufLen ≤ 4096 := by
  unfold gateAnswer
  split
  · exact Nat.min_le_right _ _
  · split <;> exact Nat.min_le_right _ _

theorem gateAnswer_quote {s : State} {b : List Byte} (hsvc : s.world.svc = 1) :
    (gateAnswer s 0 b).2 = putBuf (quoteBytes s (memGetAll s.world.buf 0 32)) s.world :=
  congrArg Prod.snd (if_pos ⟨rfl, hsvc⟩)

theorem gateAnswer_random_bufLen {s : State} {b : List Byte} (hsvc : s.world.svc = 2) :
    (gateAnswer s 0 b).2.bufLen = min (s.world.args.getD 0 0) 4096 := by
  simp [gateAnswer, hsvc, putBuf]

/-- The world after a release, before the rest of the arguments and of the buffer is zeroed. -/
def answered (s : State) (result nres : Nat) (args : List (BitVec 32)) (b : List Byte) : World :=
  { (gateAnswer s result b).2 with
    busy := false, done := true, result := result, nres := min nres 8
    args := (List.range 8).map (fun i => (args.getD i 0).toNat) }

/-- The world after a release. -/
def released (s : State) (result nres : Nat) (args : List (BitVec 32)) (b : List Byte) : World := scrubGate (answered s result nres args b)

theorem exec_gateRelease_idle {s : State} (h : s.world.busy = false) (result nres : BitVec 4) (args : List (BitVec 32)) (len : BitVec 13)
    (buf : List Byte) : exec (.gateRelease result nres args len buf) s = .next s := if_pos (by simp [h])

theorem exec_gateRelease_run {s : State} (h : s.world.busy = true) (htw : twSt s = twRun) (result nres : BitVec 4)
    (args : List (BitVec 32)) (len : BitVec 13) (buf : List Byte) :
    exec (.gateRelease result nres args len buf) s =
      .next { s with fresh := (gateAnswer s result.toNat (buf.take len.toNat)).1
                     world := released s result.toNat nres.toNat args (buf.take len.toNat) } := if_neg (by simp [h, htw])

theorem freshWorld_changes (s : State) (n : Nat) (w : World) : Changes [.world, .fresh] s { s with fresh := n, world := w } :=
  ch_world (v0 := w) (ch_fresh (v0 := n) (Changes.refl _ s) (by decide)) (by decide)

theorem released_args (s : State) (result nres : Nat) (args : List (BitVec 32)) (b : List Byte) {i : Nat} (hi : i < 8) :
    (released s result nres args b).args.getD i 0 = if i < min nres 8 then (args.getD i 0).toNat else 0 := by
  have h := getD_scrubbed ((List.range 8).map (fun i => (args.getD i 0).toNat)) (min nres 8) i hi
  refine Eq.trans h (if_congr Iff.rfl ?_ rfl)
  simp [List.getD, hi]

theorem released_bufLen (s : State) (result nres : Nat) (args : List (BitVec 32)) (b : List Byte) :
    (released s result nres args b).bufLen = (gateAnswer s result b).2.bufLen := rfl

theorem released_zero (s : State) (result nres : Nat) (args : List (BitVec 32)) (b : List Byte) {a : Nat}
    (hlo : (released s result nres args b).bufLen ≤ a) (hhi : a < 4096) : memGet (released s result nres args b).buf a = 0 :=
  (memGet_scrubGate (gateAnswer_bufLen_le s result b) a).trans (if_pos ⟨hlo, hhi⟩)

theorem released_quote {s : State} {nres : Nat} {args : List (BitVec 32)} {b : List Byte} (hsvc : s.world.svc = 1) :
    memGetAll (released s 0 nres args b).buf 0 (min (quoteBytes s (memGetAll s.world.buf 0 32)).length 4096) =
      (quoteBytes s (memGetAll s.world.buf 0 32)).take 4096 := by
  have hbuf : (answered s 0 nres args b).buf = (putBuf (quoteBytes s (memGetAll s.world.buf 0 32)) s.world).buf :=
    (rfl : _ = (gateAnswer s 0 b).2.buf).trans (congrArg World.buf (gateAnswer_quote hsvc))
  have hlen : (answered s 0 nres args b).bufLen = min (quoteBytes s (memGetAll s.world.buf 0 32)).length 4096 :=
    (rfl : _ = (gateAnswer s 0 b).2.bufLen).trans (congrArg World.bufLen (gateAnswer_quote hsvc))
  have hkept := memGetAll_scrubGate hlen.ge 0 (min (quoteBytes s (memGetAll s.world.buf 0 32)).length 4096) (by omega)
  rw [hbuf, memGetAll_putBuf] at hkept
  exact hkept

/-! ## An access of the open world to a trusted target -/

/-- The violation as it is counted, recorded and reported to the Ehrica controller, before the event of the window. -/
def violated (s : State) (who target : Nat) (write : Bool) (len : Nat) : State :=
  interruptTw (putN (bump (if write then s else modWorld s (fun w => { w with zeroRead := List.replicate len 0 })) K.worldViol)
    K.worldViolLast (who + 2 ^ 8 * target + 2 ^ 16 * b2n write)) intViol

theorem violated_getN (s : State) (who target : Nat) (write : Bool) (len : Nat) :
    getN (violated s who target write len) K.worldViol = satInc 32 (getN s K.worldViol) ∧
    getN (violated s who target write len) K.worldViolLast = who + 2 ^ 8 * target + 2 ^ 16 * b2n write := by
  constructor
  · refine (getN_putN_ne (s := bump _ _) _ (by decide)).trans ((getN_bump (s := ite _ _ _) _).trans ?_)
    cases write <;> rfl
  · exact getN_putN (s := bump _ _) _ _

theorem violated_objs (s : State) (who target : Nat) (write : Bool) (len : Nat) :
    onlyObjs [K.worldViol, K.worldViolLast] s (violated s who target write len) := by
  refine onlyObjs_trans ?_ (onlyObjs_putN _ (by decide) (onlyObjs_bump (by decide) (onlyObjs_refl _ _)))
  cases write <;> exact onlyObjs_refl _ _

theorem violated_world (s : State) (who target : Nat) (write : Bool) (len : Nat) :
    (violated s who target write len).world.zeroRead = (if write then s.world.zeroRead else List.replicate len 0) ∧
    s.world = { (violated s who target write len).world with zeroRead := s.world.zeroRead } ∧
    tget (violated s who target write len).ehrica intViol 0 = tget s.ehrica intViol 0 + 1 := by
  cases write <;> exact ⟨rfl, rfl, tget_tset_same _ _ _ _⟩

/-- The event of a violation, where its window of a second has passed. -/
def violationShown (s : State) (detail : List Byte) : State := emit (modWorld s (fun w => { w with violAt := some s.now })) 12 0x0C13 0 detail []

theorem violation_eq (s : State) (who target : Nat) (write : Bool) (len : Nat) :
    ∃ (due : Bool) (detail : List Byte), violation s who target write len =
      if due then violationShown (violated s who target write len) detail else violated s who target write len := ⟨_, _, rfl⟩

theorem violationShown_spec (s : State) (detail : List Byte) :
    (violationShown s detail).world = { s.world with violAt := some s.now } ∧ (violationShown s detail).ehrica = s.ehrica ∧
      onlyObjsAndNotes [] s (violationShown s detail) := by
  have hch : Changes [.fresh, .voteSecond, .funcs, .sess, .grog, .notes] (modWorld s (fun w => { w with violAt := some s.now }))
      (violationShown s detail) := emit_ch (List.Subset.refl _) (Changes.refl _ _)
  exact ⟨hch.world (by decide), hch.ehrica (by decide),
    onlyAndNotes_trans (s := modWorld s (fun w => { w with violAt := some s.now })) (onlyAndNotes_of_only (onlyObjs_refl _ _))
      (onlyAndNotes_of_changes hch (by decide))⟩

theorem violation_violated (s : State) (who target : Nat) (write : Bool) (len : Nat) :
    ∃ at', (violation s who target write len).world = { (violated s who target write len).world with violAt := at' } ∧
      (violation s who target write len).ehrica = (violated s who target write len).ehrica ∧
      onlyObjsAndNotes [] (violated s who target write len) (violation s who target write len) := by
  obtain ⟨due, detail, heq⟩ := violation_eq s who target write len
  rw [heq]
  cases due with
  | true => exact ⟨_, violationShown_spec _ detail⟩
  | false => exact ⟨_, rfl, rfl, onlyAndNotes_of_only (onlyObjs_refl _ _)⟩

theorem worldViol_not_noteKey : ¬ noteKey K.worldViol ∧ ¬ noteKey K.worldViolLast := by
  constructor
  all_goals
    rintro (h | h | h | h | ⟨f, -, hf, h⟩)
    · exact absurd h (by decide)
    · exact absurd h (by decide)
    · exact absurd h (by decide)
    · exact absurd h (by decide)
    · simp only [K.worldViol, K.worldViolLast, K.logOut, objKey] at h
      omega

theorem exec_violation {s : State} {who : Initiator} {target : BitVec 8} (write : Bool) (len : Fin 65) (hlo : 1 ≤ target.toNat)
    (hhi : target.toNat ≤ 10) (hopen : carriesT s who = false) :
    exec (.trustedTargetAccess who target write len) s = .next (violation s (initiatorCode who) target.toNat write len) :=
  if_neg (by
    rintro (rfl | h | h)
    · exact absurd hlo (by decide)
    · omega
    · exact absurd (hopen.symm.trans h) (by decide))

/-- Settles O49: a call and a release by the lemmas on `gateCall` and `released`; an access by what the violation leaves, and by the
frame of the event that may follow it. -/
theorem gateAndTargets : Obligations.GateAndTargets := by
  unfold Obligations.GateAndTargets
  refine ⟨?calls, ?badsvc, ?others, ?idle, ?release, ?access⟩
  case calls =>
    intro s nonce count domain hfree htw hargs
    have hset (n : Nat) : (s.world.args.set 0 n).getD 0 0 = n := by
      simp [List.getD, hargs]
    refine ⟨?_, ?_, ?_⟩
    · obtain ⟨t, hrun, hw, hch⟩ := exec_call_run (c := .gateQuote nonce) (input := putBuf nonce) rfl hfree htw (by decide)
      refine ⟨t, hrun, ?_⟩
      rw [hw]
      exact ⟨rfl, rfl, rfl, rfl, memGetAll_putBuf nonce s.world, hch⟩
    · obtain ⟨t, hrun, hw, hch⟩ := exec_call_run (s := s) (c := .gateRandom count) rfl hfree htw (by decide)
      refine ⟨t, hrun, ?_⟩
      rw [hw]
      exact ⟨rfl, rfl, hset _, hch⟩
    · obtain ⟨t, hrun, hw, hch⟩ := exec_call_run (s := s) (c := .gateReleaseAsk domain) rfl hfree htw (by decide)
      refine ⟨t, hrun, ?_⟩
      rw [hw]
      exact ⟨rfl, rfl, hset _, hch⟩
  case badsvc =>
    intro s svc hfree htw hsvc
    refine ⟨_, exec_gateBadsvc hsvc, ?_⟩
    rw [gateCall_run hfree htw, if_pos hsvc]
    exact ⟨rfl, rfl, rfl, rfl, gateEnd_ch (by decide) (modWorld_changes s _)⟩
  case others =>
    intro s nonce count domain c hc
    obtain rfl | rfl | rfl : c = .gateQuote nonce ∨ c = .gateRandom count ∨ c = .gateReleaseAsk domain := by simpa using hc
    · exact exec_call_not_run (input := putBuf nonce) rfl rfl rfl
    · exact exec_call_not_run (svc := 2) (input := fun w => { w with args := w.args.set 0 count.toNat }) rfl rfl rfl
    · exact exec_call_not_run (svc := 3) (input := fun w => { w with args := w.args.set 0 domain.toNat }) rfl rfl rfl
  case idle => exact fun s result nres args len buf hfree => exec_gateRelease_idle hfree result nres args len buf
  case release =>
    intro s result nres args len buf hcall htw
    refine ⟨_, exec_gateRelease_run hcall htw result nres args len buf, rfl, rfl, rfl, rfl, fun i hi => ?_, fun a hlo hhi => ?_,
      fun hok hsvc => ?_, fun hok hsvc => ?_, ?_⟩
    · exact released_args s result.toNat nres.toNat args _ hi
    · exact released_zero s result.toNat nres.toNat args _ hlo hhi
    · rw [hok]
      exact released_quote hsvc
    · rw [hok]
      exact gateAnswer_random_bufLen hsvc
    · exact freshWorld_changes s _ _
  case access =>
    intro s who target write len hlo hhi
    refine ⟨fun hopen => ?_, fun htrusted => if_pos (.inr (.inr htrusted))⟩
    refine ⟨_, exec_violation write len hlo hhi hopen, ?_⟩
    obtain ⟨at', hworld, hehrica, hobjs⟩ := violation_violated s (initiatorCode who) target.toNat write len
    obtain ⟨hcount, hlast⟩ := violated_getN s (initiatorCode who) target.toNat write len
    obtain ⟨hzero, hrest, hint⟩ := violated_world s (initiatorCode who) target.toNat write len
    obtain ⟨hnote, hnote'⟩ := worldViol_not_noteKey
    refine ⟨?_, ?_, ?_, ?_, ?_, ?_⟩
    · exact (congrArg Val.toNat (hobjs K.worldViol (by simp) hnote).1).trans hcount
    · exact (congrArg Val.toNat (hobjs K.worldViolLast (by simp) hnote').1).trans hlast
    · rw [hehrica, hint]
    · exact onlyAndNotes_trans (onlyAndNotes_of_only (violated_objs _ _ _ _ _)) (fun k _ hk => hobjs k (by simp) hk)
    · rw [hworld]
      exact hzero
    · rw [hworld, hrest]

end Sys2Proof.Proofs.CallGate

/-!
PROOFS. O44: Kaolin's commit bit, its SRAM, and the comparison of a shown rectangle's signature.
-/

namespace Sys2Proof.Proofs.KaolinPlane

open Sys2Proof.Machine
open Sys2Proof.Proofs.SurfaceAllocation (objKey_div objKey_mod)
open Sys2Proof.Proofs.ProgramSlots (getN_ofObjs)

/-! ## The commit bit -/

/-- The state with the answer to the trusted world's request. -/
def twAnswered (t : State) (x : Response) : State := { t with twResp := some x }

theorem portOf_twAnswered (t : State) (x : Response) (j : Nat) : portOf (twAnswered t x) j = portOf t j := rfl

theorem portOf_bump (s : State) (k j : Nat) : portOf (bump s k) j = portOf s j := rfl

theorem getN_twAnswered (t : State) (x : Response) (k : Nat) : getN (twAnswered t x) k = getN t k := rfl

theorem twAnswered_changes {P : List Part} {s t : State} (x : Response) (hP : .twResp ∈ P) (h : Changes P s t) :
    Changes P s (twAnswered t x) := ch_twResp h hP

theorem exec_kaolinCommit {s : State} (port : Fin 8) (hrun : firmwareRuns s = true) :
    ∃ x : Response, exec (.kaolinCommit port 1) s = .next (twAnswered (kaolinCommitOp s port) x) ∧ x.status = .ok := by
  have hdiv : K.kaolinCommit port / 256 = 0x7510 + port.val := objKey_div (by decide)
  have hmod : K.kaolinCommit port % 256 = 2 := objKey_mod (by decide)
  have hkey : K.kaolinCommit port < 2 ^ 24 := key_lt (by omega) (by decide)
  obtain ⟨p, hp⟩ := twWriteObject_accepted (t := kaolinCommitOp s port) (n := 1) (st := .ok) (row_kaolinCommit port) hkey hrun (by decide)
    (fun row hacc => by simp [mayWriteObj, hacc]) (by decide) (by rw [hdiv, hmod]; exact areaCheck_kaolin port.isLt) (.inl rfl)
    (by rw [hdiv, hmod]; exact areaApply_kaolin port.isLt) (.inl rfl)
  exact ⟨_, hp, rfl⟩

theorem kaolinCommitOp_open {s : State} {p : Nat} (h : (portOf s p).closed = false) :
    kaolinCommitOp s p = modPort s p (fun q => { q with kpend := true }) := by
  simp [kaolinCommitOp, h]

theorem kaolinCommitOp_after {s : State} {p : Nat} (h : (portOf s p).closed = true)
    (hsmall : modeLarge (portOf s p).runMode = false ∨ outSt s p = outStopping) :
    kaolinCommitOp s p = modPort s p (fun q => { q with kafter := true }) := by
  refine if_pos ?_
  rcases hsmall with hsmall | hstop
  · simp [h, hsmall]
  · have hstop : getN s (K.outState p) = 4 := hstop
    simp [h, hstop]

theorem kaolinCommitOp_running {s : State} {p : Nat} (h : (portOf s p).closed = true) (hlarge : modeLarge (portOf s p).runMode = true)
    (hrun : outSt s p ≠ outStopping) : kaolinCommitOp s p = (if (portOf s p).klatched then s else
      bump (modPort s p (fun q => { q with kpend := true, klate := q.klate + 1 })) (K.kaolinCommitLate p)) := by
  have hrun : getN s (K.outState p) ≠ 4 := hrun
  simp [kaolinCommitOp, h, hlarge, hrun]

theorem kaolinCommitOp_others (s : State) (p : Nat) {j : Nat} (hj : j ≠ p) : portOf (kaolinCommitOp s p) j = portOf s j := by
  unfold kaolinCommitOp
  extract_lets q
  split
  · exact portOf_modPort_ne s _ hj
  · split
    · rfl
    · split
      · exact portOf_modPort_ne s (fun q => { q with kpend := true, klate := q.klate + 1 }) hj
      · exact portOf_modPort_ne s _ hj

/-! ## Kaolin SRAM -/

theorem exec_kaolinSramWrite_on {s : State} {addr : Nat} {data : List Byte} (hend : addr + data.length ≤ 0x200000)
    (hon : domSt s 11 = domOn ∨ domSt s 11 = domStopping) :
    ∃ old, exec (.kaolinSramWrite addr data) s = .next { s with kram := memSetAll s.kram addr data, kold := old } :=
  ⟨_, (if_neg (by omega)).trans (if_pos hon)⟩

/-! ## The comparison of a signature -/

/-- The parts that the event of a signature may change. -/
def eventParts : List Part := [.fresh, .voteSecond, .funcs, .sess, .frames, .ehrica, .grog, .notes]

/-- A signature that is the one expected, before its event. -/
def sigEqual (s : State) (p r : Nat) (crc : BitVec 32) : State :=
  modPort (putN s (K.rectSigLast p r) crc.toNat) p (fun q => { q with sigBad := q.sigBad.filter (· ≠ r), sigSent := tdel q.sigSent r })

/-- The counts of a signature that is another. -/
def sigCounted (s : State) (p r : Nat) (crc : BitVec 32) : State :=
  putN (bump (bump (putN s (K.rectSigLast p r) crc.toNat) (K.rectSigMiss p r)) (K.kaolinMiss p)) (K.kaolinMissTime p) s.now

/-- The rectangle among those whose signature is wrong. -/
def markBad (r : Nat) (q : Port) : Port := { q with sigBad := if q.sigBad.contains r then q.sigBad else r :: q.sigBad }

/-- The signature expected in the port's blink phase. -/
def wanted (s : State) (p : Nat) (x : KRect) : Nat := if getN s (K.kaolinPhase p) = 0 then x.sigOn else x.sigOff

theorem mem_markBad (r : Nat) (q : Port) : r ∈ (markBad r q).sigBad := by
  by_cases h : r ∈ q.sigBad <;> simp [markBad, h]

theorem compareSig_equal {s : State} {p r : Nat} {crc : BitVec 32} (h : crc.toNat = wanted s p ((portOf s p).kactive.rects.getD r {})) :
    Changes eventParts (sigEqual s p r crc) (compareSig s p r crc) := by
  have hif : compareSig s p r crc = _ := if_pos h
  rw [hif]
  split
  · exact kaolinEvent_ch (List.Subset.refl _) (Changes.refl _ _)
  · exact Changes.refl _ _

theorem compareSig_differs {s : State} {p r : Nat} {crc : BitVec 32}
    (h : crc.toNat ≠ wanted s p ((portOf s p).kactive.rects.getD r {})) :
    ∃ u, u.objs = (sigCounted s p r crc).objs ∧ (portOf u p).sigBad = (markBad r (portOf s p)).sigBad ∧
      (portOf u p).compared = (portOf s p).compared ∧ Changes eventParts u (compareSig s p r crc) := by
  unfold compareSig
  extract_lets q x ph want s₁ detail s₁' sCount s₂ s₃ due
  rw [if_neg (show ¬ crc.toNat = want from h)]
  have hport : portOf s₃ p = markBad r (portOf s p) := portOf_modPort s₂ p (markBad r)
  clear_value due
  split
  · refine ⟨modPort s₃ p (fun q => { q with sigSent := tset q.sigSent r s₃.now }), rfl, ?_, ?_,
      kaolinEvent_ch (List.Subset.refl _) (Changes.refl _ _)⟩
    · rw [portOf_modPort, hport]
    · rw [portOf_modPort, hport]
      rfl
  · refine ⟨s₃, rfl, by rw [hport], by rw [hport]; rfl, ?_⟩
    exact foldN_ch _ (interruptTw_ch (by decide) (Changes.refl _ _)) (fun x a hx => raiseClass_ch (by decide) hx)

/-- The port once the rectangle's turn to be compared has come. -/
def compared (s : State) (p r : Nat) : State :=
  modPort s p (fun q => { q with compared := r :: q.compared, line := compareLine (portOf s p) r, lineTime := s.now })

theorem exec_sigCompare {s : State} {p : Fin 8} {r : Fin 32} (seen : Option (BitVec 32)) {x : KRect}
    (hx : x = (portOf s p).kactive.rects.getD r {}) (hrun : timingRuns s p = true) (hgap : (portOf s p).gap = false)
    (hplane : (portOf s p).kactive.enable = true) (henable : x.enable = true) (hmode : x.mode ≠ 0) (hblank : (portOf s p).inBlank = false)
    (hfirst : r.val ∉ (portOf s p).compared) (hline : (portOf s p).line ≤ compareLine (portOf s p) r) :
    exec (.sigCompare p r seen) s = .next (compareSig (compared s p r) p r (seen.getD (signature s p r))) := by
  subst hx
  refine if_pos ⟨hrun, ?_, hplane, henable, hmode, ?_, ?_, hline⟩
  · simpa using hgap
  · simpa using hblank
  · simpa using hfirst

theorem exec_sigCompare_not {s : State} {p : Fin 8} {r : Fin 32} (seen : Option (BitVec 32)) {x : KRect}
    (hx : x = (portOf s p).kactive.rects.getD r {})
    (hnot : r.val ∈ (portOf s p).compared ∨ (portOf s p).inBlank = true ∨ (portOf s p).gap = true ∨ x.enable = false) :
    exec (.sigCompare p r seen) s = .next s := by
  subst hx
  refine if_neg ?_
  rintro ⟨-, hgap, -, henable, -, hblank, hfirst, -⟩
  rcases hnot with h | h | h | h
  · simp [h] at hfirst
  · simp [h] at hblank
  · simp [h] at hgap
  · exact absurd (henable.symm.trans h) (by decide)

theorem not_noteKey_rectSig (p : Fin 8) (r : Fin 32) {sub : Nat} (hsub : sub < 256) : ¬ noteKey (objKey (0x7400 + 0x20 * p + r) sub) := by
  simp only [noteKey, K.dictNotifyDrop, K.regVoteFix, K.regVoteBad, K.kaolinCanDrop, K.logOut, objKey]
  omega

theorem not_noteKey_kaolinMiss (p : Fin 8) : ¬ noteKey (K.kaolinMiss p) ∧ ¬ noteKey (K.kaolinMissTime p) := by
  simp only [noteKey, K.kaolinMiss, K.kaolinMissTime, K.dictNotifyDrop, K.regVoteFix, K.regVoteBad, K.kaolinCanDrop, K.logOut, objKey]
  omega

theorem getN_sigEqual {s : State} {p r k : Nat} {crc : BitVec 32} (hk : k ≠ K.rectSigLast p r) : getN (sigEqual s p r crc) k = getN s k :=
  getN_putN_ne s _ hk

theorem sigCounted_values (s : State) (p : Fin 8) (r : Fin 32) (crc : BitVec 32) :
    getN (sigCounted s p r crc) (K.rectSigLast p r) = crc.toNat ∧
    getN (sigCounted s p r crc) (K.rectSigMiss p r) = satInc 32 (getN s (K.rectSigMiss p r)) ∧
    getN (sigCounted s p r crc) (K.kaolinMiss p) = satInc 32 (getN s (K.kaolinMiss p)) ∧
    getN (sigCounted s p r crc) (K.kaolinMissTime p) = s.now := by
  have h₁ : K.rectSigLast p r ≠ K.kaolinMissTime p ∧ K.rectSigLast p r ≠ K.kaolinMiss p ∧ K.rectSigLast p r ≠ K.rectSigMiss p r := by
    simp only [K.rectSigLast, K.rectSigMiss, K.kaolinMiss, K.kaolinMissTime, objKey]
    omega
  have h₂ : K.rectSigMiss p r ≠ K.kaolinMissTime p ∧ K.rectSigMiss p r ≠ K.kaolinMiss p := by
    simp only [K.rectSigMiss, K.kaolinMiss, K.kaolinMissTime, objKey]
    omega
  have h₃ : K.kaolinMiss p ≠ K.kaolinMissTime p := by
    simp only [K.kaolinMiss, K.kaolinMissTime, objKey]
    omega
  unfold sigCounted
  refine ⟨?_, ?_, ?_, getN_putN _ _ _⟩
  · rw [getN_putN_ne _ _ h₁.1, getN_bump_ne _ h₁.2.1, getN_bump_ne _ h₁.2.2, getN_putN]
  · rw [getN_putN_ne _ _ h₂.1, getN_bump_ne _ h₂.2, getN_bump, getN_putN_ne _ _ h₁.2.2.symm]
  · rw [getN_putN_ne _ _ h₃, getN_bump, getN_bump_ne _ h₂.2.symm, getN_putN_ne _ _ h₁.2.1.symm]

theorem portOf_of_changes {P : List Part} {s t : State} (h : Changes P s t) {p : Nat} (hP : Part.ports ∉ P := by decide) :
    portOf t p = portOf s p := by
  unfold portOf
  rw [h.ports hP]

/-- What a comparison leaves of the port and of the counts. -/
theorem sigCompare_spec {s : State} (p : Fin 8) (r : Fin 32) (crc : BitVec 32) {x : KRect} (hx : x = (portOf s p).kactive.rects.getD r {}) :
    getN (compareSig (compared s p r) p r crc) (K.rectSigLast p r) = crc.toNat ∧
    (portOf (compareSig (compared s p r) p r crc) p).compared = r.val :: (portOf s p).compared ∧
    (crc.toNat = wanted s p x →
      getN (compareSig (compared s p r) p r crc) (K.rectSigMiss p r) = getN s (K.rectSigMiss p r) ∧
      getN (compareSig (compared s p r) p r crc) (K.kaolinMiss p) = getN s (K.kaolinMiss p) ∧
      r.val ∉ (portOf (compareSig (compared s p r) p r crc) p).sigBad) ∧
    (crc.toNat ≠ wanted s p x →
      getN (compareSig (compared s p r) p r crc) (K.rectSigMiss p r) = satInc 32 (getN s (K.rectSigMiss p r)) ∧
      getN (compareSig (compared s p r) p r crc) (K.kaolinMiss p) = satInc 32 (getN s (K.kaolinMiss p)) ∧
      getN (compareSig (compared s p r) p r crc) (K.kaolinMissTime p) = s.now ∧
      r.val ∈ (portOf (compareSig (compared s p r) p r crc) p).sigBad) := by
  have hlast : ¬ noteKey (K.rectSigLast p r) := not_noteKey_rectSig p r (by decide)
  have hmiss : ¬ noteKey (K.rectSigMiss p r) := not_noteKey_rectSig p r (by decide)
  obtain ⟨hcount, htime⟩ := not_noteKey_kaolinMiss p
  have hport : portOf (compared s p r) p = { portOf s p with
      compared := r.val :: (portOf s p).compared, line := compareLine (portOf s p) r, lineTime := s.now } := portOf_modPort s _ _
  by_cases heq : crc.toNat = wanted s p x
  · have hch := compareSig_equal (s := compared s p r) (p := p) (r := r) (crc := crc) (by rw [hport, ← hx]; exact heq)
    have hpe : portOf (sigEqual (compared s p r) p r crc) p = _ := portOf_modPort (putN (compared s p r) _ _) _ _
    rw [portOf_of_changes hch, getN_of_changes hch (by decide) hlast, getN_of_changes hch (by decide) hmiss,
      getN_of_changes hch (by decide) hcount, hpe]
    refine ⟨getN_putN _ _ _, congrArg Port.compared hport, fun _ => ⟨?_, ?_, by simp⟩, fun h => absurd heq h⟩
    · exact getN_sigEqual (by simp only [K.rectSigLast, K.rectSigMiss, objKey]; omega)
    · exact getN_sigEqual (by simp only [K.rectSigLast, K.kaolinMiss, objKey]; omega)
  · obtain ⟨u, hobjs, hbad, hcompared, hch⟩ := compareSig_differs (s := compared s p r) (p := p) (r := r) (crc := crc)
      (by rw [hport, ← hx]; exact heq)
    have hvalue (k : Nat) : getN u k = getN (sigCounted (compared s p r) p r crc) k := getN_ofObjs hobjs k
    rw [portOf_of_changes hch, getN_of_changes hch (by decide) hlast, getN_of_changes hch (by decide) hmiss,
      getN_of_changes hch (by decide) hcount, getN_of_changes hch (by decide) htime, hvalue, hvalue, hvalue, hvalue, hbad, hcompared]
    obtain ⟨h₁, h₂, h₃, h₄⟩ := sigCounted_values (compared s p r) p r crc
    exact ⟨h₁, congrArg Port.compared hport, fun h => absurd h heq, fun _ => ⟨h₂, h₃, h₄, mem_markBad _ _⟩⟩

/-- Settles O44: the commit bit by the cases of the port's close point, the comparison by whether the signature is the one expected. -/
theorem kaolinCommands : Obligations.KaolinCommands := by
  unfold Obligations.KaolinCommands
  refine ⟨?commit, ?sram, ?beyond, ?signature⟩
  case commit =>
    intro s port hrun
    obtain ⟨x, hx, hok⟩ := exec_kaolinCommit port hrun
    have hport (g : Port → Port) : Changes [.ports, .twResp] s (twAnswered (modPort s port g) x) :=
      twAnswered_changes x (by decide) (modPort_ch (by decide) (Changes.refl _ s))
    refine ⟨_, x, hx, rfl, hok, fun j hj => kaolinCommitOp_others s port hj, fun hopen => ?_, fun hclosed hsmall => ?_,
      fun hclosed hlarge hrun => ?_⟩
    · rw [kaolinCommitOp_open hopen, portOf_twAnswered, portOf_modPort]
      exact ⟨rfl, hport _⟩
    · rw [kaolinCommitOp_after hclosed hsmall, portOf_twAnswered, portOf_modPort]
      exact ⟨rfl, rfl, hport _⟩
    · rw [kaolinCommitOp_running hclosed hlarge hrun, portOf_twAnswered, getN_twAnswered]
      refine ⟨fun hlatched => ?_, fun hlatched => ?_⟩
      · rw [if_pos hlatched]
        exact ⟨rfl, twAnswered_changes x (by decide) (Changes.refl _ s)⟩
      · rw [if_neg (by simp [hlatched]), portOf_bump, portOf_modPort, getN_bump]
        exact ⟨rfl, rfl, onlyObjs_bump (t := modPort s port _) (by simp) (onlyObjs_refl _ _)⟩
  case sram =>
    refine fun s addr data hend => ⟨fun hon => ?_, fun hoff hoff' => (if_neg (by omega)).trans (if_neg (by simp [hoff, hoff']))⟩
    obtain ⟨old, hold⟩ := exec_kaolinSramWrite_on hend hon
    exact ⟨_, hold, memGetAll_memSetAll _ _ _, fun a ha => memGet_memSetAll_outside _ _ _ ha,
      ch_kram_kold (Changes.refl [.kram, .kold] s) (by decide) (by decide)⟩
  case beyond => exact fun s addr data hend => if_pos hend
  case signature =>
    intro s port rect seen crc x hx hcrc
    refine ⟨fun hrun hgap hplane henable hmode hblank hfirst hline => ?_, exec_sigCompare_not seen hx⟩
    rw [exec_sigCompare seen hx hrun hgap hplane henable hmode hblank hfirst hline, ← hcrc]
    exact ⟨_, rfl, sigCompare_spec port rect crc hx⟩

end Sys2Proof.Proofs.KaolinPlane

/-!
PROOFS. O60: edges of side pins, and writes of a pin's function and PWM.
-/

namespace Sys2Proof.Proofs.SidePins

open Sys2Proof.Machine
open Sys2Proof.Proofs.SurfaceAllocation (objKey_div objKey_mod)
open Sys2Proof.Proofs.AreaWrites (inRange_single)

/-! ## A write whose value is stored as well -/

theorem mayWriteObj_eq_stored {s : State} {c : WCtx} {row : ObjRow} {a : Acc} (ha : a = .rw ∨ a = .rws) (hrow : row.acc = a)
    (hrole : c.role = .mgr) (idx sub n : Nat) : mayWriteObj s c row idx sub n = areaAccess s c idx sub n := by
  rcases ha with rfl | rfl <;> simp [mayWriteObj, hrow, hrole]

theorem canKeep_clean (a : Acc) {t : State} (h : t.grog.badRows = []) (k : Nat) : canKeep a t k := .inr (by simp [h])

theorem keptIn_clean (a : Acc) {t : State} (h : t.grog.badRows = []) (k n : Nat) : Changes [.mram, .grog] t (keptIn a t k n) := by
  unfold keptIn
  split
  · have hgood : t.grog.badRows.contains (t.grog.home (rowOfKey t k)) = false := by simp [h]
    have hkept : (storeKey t k (.num n)).1 = mramWriteRow { t with mram := tset t.mram k ((copiesOf t k).store (.num n)) }
        (rowOfKey t k / 2048) (rowOfKey t k % 2048) 0 := by
      simp only [storeKey, hgood, Bool.false_eq_true, if_false]
    rw [hkept]
    exact ch_grog (ch_grog (ch_mram (Changes.refl _ t) (by decide)) (by decide)) (by decide)
  · exact Changes.refl _ t

theorem cleanWrite_done {s t : State} {r : DictReq} {i idx sub n : Nat} {ty : Ty} {a : Acc} {rg : List (Int × Int)}
    (hrow : rowIs (objKey idx sub) ty a rg = true) (ha : a = .rw ∨ a = .rws) (hidx : idx < 65536) (hsub : sub < 256)
    (h : AdmittedWrite s r i (objKey idx sub) n) (hrole : (sessOf s i).role = .mgr)
    (haccess : areaAccess (renewed s i) (sessionCtx s r i none) idx sub n = true) (hfit : fitsTy ty n = true)
    (hrange : rg.any (fun e => decide (e.1 ≤ measureOf ty (.num n) ∧ measureOf ty (.num n) ≤ e.2)) = true)
    (hcheck : areaCheck (renewed s i) (sessionCtx s r i none) idx sub (.num n) = .ok)
    (hclaims : areaClaims (renewed s i) idx sub n = ([], 0))
    (happly : areaApply (renewed s i) (sessionCtx s r i none) idx sub (.num n) = (t, .ok)) (hclean : t.grog.badRows = []) :
    ∃ u, writeObject s r (objKey idx sub) n = .next u ∧ answered u r 0x11 .ok ∧ Changes [.mram, .grog, .sess, .resp] t u := by
  obtain ⟨u, hrun, hans, hch⟩ := writeObject_done hrow (key_lt hidx hsub) h hfit
    (fun row hacc => by rw [objKey_div hsub, objKey_mod hsub, mayWriteObj_eq_stored ha hacc hrole, haccess]) hrange
    (by rw [objKey_div hsub, objKey_mod hsub, hcheck]) (by rw [objKey_div hsub, objKey_mod hsub, hclaims]) (canKeep_clean a hclean _)
    (by rw [objKey_div hsub, objKey_mod hsub, happly]) (.inl rfl)
  exact ⟨u, hrun, hans, ((keptIn_clean a hclean _ _).mono (by decide)).trans (hch.mono (by decide))⟩

theorem cleanWrite_refused {s : State} {r : DictReq} {i idx sub n : Nat} {ty : Ty} {a : Acc} {rg : List (Int × Int)}
    (hrow : rowIs (objKey idx sub) ty a rg = true) (ha : a = .rw ∨ a = .rws) (hidx : idx < 65536) (hsub : sub < 256)
    (h : AdmittedWrite s r i (objKey idx sub) n) (hrole : (sessOf s i).role = .mgr)
    (haccess : areaAccess (renewed s i) (sessionCtx s r i none) idx sub n = true) (hfit : fitsTy ty n = true)
    (hrange : rg.any (fun e => decide (e.1 ≤ measureOf ty (.num n) ∧ measureOf ty (.num n) ≤ e.2)) = true)
    (hcheck : areaCheck (renewed s i) (sessionCtx s r i none) idx sub (.num n) = .range) :
    ∃ u, writeObject s r (objKey idx sub) n = .next u ∧ answered u r 0x11 .range ∧ Changes [.fresh, .sess, .resp] s u :=
  writeObject_refused hrow (key_lt hidx hsub) h hfit
    (fun row hacc => by rw [objKey_div hsub, objKey_mod hsub, mayWriteObj_eq_stored ha hacc hrole, haccess]) hrange
    (by rw [objKey_div hsub, objKey_mod hsub, hcheck]) (.inr rfl) (by decide) (by decide)

/-! ## Edges -/

theorem pinKey_ne {pin sub sub' : Nat} (h : sub ≠ sub') :
    objKey (0x8400 + pin) sub ≠ objKey (0x8400 + pin) sub' := by
  simp only [objKey]
  omega

theorem getN_putB_ne (s : State) {k k' : Nat} (b : Bool) (h : k' ≠ k) : getN (putB s k b) k' = getN s k' := getN_putV_ne s _ h

theorem getB_putN_ne (s : State) {k k' : Nat} (n : Nat) (h : k' ≠ k) : getB (putN s k n) k' = getB s k' := by
  unfold getB
  rw [getN_putN_ne s n h]

/-- The level of a pin alone has changed. -/
def levelSet (s : State) (pin : Nat) (level : Bool) : State := putB s (K.spIn pin) level

theorem levelSet_changes (s : State) (pin : Nat) (level : Bool) : Changes [.objs] s (levelSet s pin level) :=
  putB_ch (by decide) (Changes.refl _ s)

/-- Whether an edge is an event of a pin: the pin's record applies, in COUNT or STAMP, and sp.edge names the edge. -/
def isEvent (s : State) (pin : Nat) (level : Bool) : Prop :=
  (pinOf s pin).stage = 2 ∧ (pinFunc s pin = spCountFn ∨ pinFunc s pin = spStampFn) ∧
    (getN s (K.spEdge pin) = 3 ∨ (getN s (K.spEdge pin) = 1 ∧ level = true) ∨ (getN s (K.spEdge pin) = 2 ∧ ¬ level = true))

theorem pinEdge_same {s : State} {pin : Nat} {level : Bool} (h : getB s (K.spIn pin) = level) : pinEdge s pin level = s := if_pos h

theorem isEvent_levelSet (s : State) (pin : Nat) (level : Bool) : isEvent (levelSet s pin level) pin level ↔ isEvent s pin level := by
  have hfunc : pinFunc (levelSet s pin level) pin = pinFunc s pin := getN_putB_ne s level (pinKey_ne (by decide))
  have hedge : getN (levelSet s pin level) (K.spEdge pin) = getN s (K.spEdge pin) :=
    getN_putB_ne s level (pinKey_ne (by decide))
  unfold isEvent
  rw [hfunc, hedge]
  exact Iff.rfl

theorem pinEdge_event {s : State} {pin : Nat} {level : Bool} (h : getB s (K.spIn pin) ≠ level) (hev : isEvent s pin level) :
    pinEdge s pin level = pinEvent (levelSet s pin level) pin :=
  (if_neg h).trans (if_pos ((isEvent_levelSet s pin level).mpr hev))

theorem pinEdge_level {s : State} {pin : Nat} {level : Bool} (h : getB s (K.spIn pin) ≠ level) (hev : ¬ isEvent s pin level) :
    pinEdge s pin level = levelSet s pin level :=
  (if_neg h).trans (if_neg (fun hev' => hev ((isEvent_levelSet s pin level).mp hev')))

theorem exec_sidePinEdge {s : State} (pin : Fin 96) (level : Bool) (hgood : s.power.good = true)
    (hwake : pwrMode s ≠ 3 ∨ pinWakes s pin level = false) : exec (.sidePinEdge pin level) s = .next (pinEdge s pin level) := by
  have hno : (inMode s 3 && pinWakes s pin level) = false := by
    rcases hwake with hmode | hno
    · simp [inMode, hmode]
    · simp [hno]
  show execSidePinEdge pin level s = _
  simp only [execSidePinEdge, hgood, Bool.not_true, Bool.false_eq_true, if_false, hno]

theorem exec_sidePinEdge_wake {s : State} (pin : Fin 96) (level : Bool) (hgood : s.power.good = true) (hmode : pwrMode s = 3)
    (hwake : pinWakes s pin level = true) : exec (.sidePinEdge pin level) s = .next (coldStart (pinEdge s pin level) 3) := by
  have hyes : (inMode s 3 && pinWakes s pin level) = true := by simp [inMode, hmode, hwake]
  show execSidePinEdge pin level s = _
  simp only [execSidePinEdge, hgood, Bool.not_true, Bool.false_eq_true, if_false, hyes, if_true]

theorem pinWakes_same {s : State} {pin : Nat} {level : Bool} (h : getB s (K.spIn pin) = level) : pinWakes s pin level = false := by
  cases level <;> simp [pinWakes, h]

/-- The crossing's record of a pin. -/
def eventIn (q : Pin) : Pin :=
  if q.events < 255 then { q with events := q.events + 1 } else { q with overflow := true, lost := satInc 16 q.lost }

/-- The crossing taken empty. -/
def emptied (q : Pin) : Pin := { q with events := 0, overflow := false, lost := 0 }

theorem pinEvent_waits {s : State} {pin : Nat} (hoff : island4Runs s = false) : pinEvent s pin = modPin s pin eventIn :=
  if_neg (fun h => absurd (hoff.symm.trans h) (by decide))

theorem takePinEvents_one {s : State} {pin : Nat} (hone : (pinOf s pin).events = 1) (hover : (pinOf s pin).overflow = false) :
    takePinEvents s pin = if pinFunc s pin = spCountFn
      then putN (modPin s pin emptied) (K.spCount pin) ((getN s (K.spCount pin) + 1) % 2 ^ 32)
      else putN (modPin s pin emptied) (K.spStamp pin) s.now := by
  unfold takePinEvents
  simp only [hone, hover, Nat.one_ne_zero, Bool.false_eq_true, if_false]
  rfl

theorem eventIn_first {q : Pin} (hnone : q.events = 0) : (eventIn q).events = 1 ∧ (eventIn q).overflow = q.overflow := by
  simp [eventIn, hnone]

/-- What the first event of a pin does while island 4 runs. -/
theorem pinEvent_first {s : State} {pin : Nat} (hruns : island4Runs s = true) (hnone : (pinOf s pin).events = 0)
    (hover : (pinOf s pin).overflow = false) :
    pinEvent s pin = if pinFunc s pin = spCountFn
      then putN (modPin (modPin s pin eventIn) pin emptied) (K.spCount pin) ((getN s (K.spCount pin) + 1) % 2 ^ 32)
      else putN (modPin (modPin s pin eventIn) pin emptied) (K.spStamp pin) s.now := by
  have htaken : pinEvent s pin = takePinEvents (modPin s pin eventIn) pin := if_pos hruns
  obtain ⟨hone, hkept⟩ := eventIn_first hnone
  rw [htaken, takePinEvents_one (by rw [pinOf_modPin]; exact hone) (by rw [pinOf_modPin]; exact hkept.trans hover)]
  rfl

theorem island4Runs_levelSet (s : State) (pin : Nat) (level : Bool) (hpin : pin < 96) : island4Runs (levelSet s pin level) = island4Runs s := by
  have hdom : domSt (levelSet s pin level) 2 = domSt s 2 :=
    getN_putB_ne s level (by simp only [K.domState, K.spIn, objKey]; omega)
  unfold island4Runs
  rw [hdom]

theorem pinFunc_levelSet (s : State) (pin : Nat) (level : Bool) : pinFunc (levelSet s pin level) pin = pinFunc s pin :=
  getN_putB_ne s level (pinKey_ne (by decide))

theorem onlyObjs_levelSet {ks : List Nat} (s : State) {pin : Nat} (level : Bool) (hk : K.spIn pin ∈ ks) :
    onlyObjs ks s (levelSet s pin level) := onlyObjs_putV _ hk (onlyObjs_refl _ s)

/-- The value that an event stores is the one object besides the level that the edge moves. -/
theorem edge_stored {s : State} {pin : Nat} {level : Bool} {k : Nat} (n : Nat) (hk : K.spIn pin ≠ k) (g g' : Pin → Pin) :
    getB (putN (modPin (modPin (levelSet s pin level) pin g) pin g') k n) (K.spIn pin) = level ∧
      onlyObjs [K.spIn pin, k] s (putN (modPin (modPin (levelSet s pin level) pin g) pin g') k n) :=
  ⟨(getB_putN_ne _ n hk).trans (Machine.getB_putB s _ level), onlyObjs_putN _ (by simp) (onlyObjs_levelSet s level (by simp))⟩

theorem isEvent_of {s : State} {pin : Nat} {level : Bool} (hstage : (pinOf s pin).stage = 2)
    (hedge : getN s (K.spEdge pin) = 3 ∨ getN s (K.spEdge pin) = (if level then 1 else 2))
    (hfunc : pinFunc s pin = spCountFn ∨ pinFunc s pin = spStampFn) : isEvent s pin level := by
  refine ⟨hstage, hfunc, hedge.imp_right fun h => ?_⟩
  cases level with
  | true => exact .inl ⟨h, rfl⟩
  | false => exact .inr ⟨h, by decide⟩

theorem not_isEvent {s : State} {pin : Nat} {level : Bool}
    (h : pinFunc s pin ≠ spCountFn ∧ pinFunc s pin ≠ spStampFn ∨ getN s (K.spEdge pin) = 0 ∨
      getN s (K.spEdge pin) = (if level then 2 else 1)) : ¬ isEvent s pin level := by
  rintro ⟨-, hfunc, hedge⟩
  rcases h with ⟨hc, hs⟩ | h | h
  · exact hfunc.elim hc hs
  · omega
  · cases level <;> simp at h hedge <;> omega

/-! ## Writes of a pin's function and PWM -/

theorem areaAccess_openPin {s : State} {r : DictReq} {i : Nat} {pin : Fin 96} {sub : Nat} (hrole : (sessOf s i).role = .mgr)
    (hopen : pinTrusted s pin = false) (hsub : sub < 256) (n : Nat) :
    areaAccess (renewed s i) (sessionCtx s r i none) (0x8400 + pin) sub n = true := by
  have hopen' : pinTrusted (renewed s i) pin = false := hopen
  rw [areaAccess_pin pin.isLt hsub]
  simp [pinAccess, sessionCtx, hrole, hopen']

theorem pinCheck_ok {pin sub n : Nat} (h : ¬ (pin < 8 ∧ ((sub = 1 ∧ (n = spOutput ∨ n = spPwm)) ∨ (sub = 12 ∧ n = 1)))) :
    pinCheck pin sub n = .ok := if_neg h

theorem exec_spFuncWrite {s : State} {r : DictReq} {i : Nat} {pin : Fin 96} {v : BitVec 8}
    (h : AdmittedWrite s r i (K.spFunc pin) v.toNat) (hmgr : managerSession s i) (hopen : pinTrusted s pin = false) (hv : v.toNat < 6)
    (hdrive : ¬ (pin.val < 8 ∧ (v.toNat = spOutput ∨ v.toNat = spPwm)))
    (hclean : (pinApply (renewed s i) pin 1 v.toNat).grog.badRows = []) :
    ∃ t, exec (.spFuncWrite r pin v) s = .next t ∧ answered t r 0x11 .ok ∧
      Changes [.mram, .grog, .sess, .resp] (pinApply (renewed s i) pin 1 v.toNat) t :=
  cleanWrite_done (row_spFunc pin) (.inr rfl) (by omega) (by decide) h hmgr (areaAccess_openPin hmgr hopen (by decide) _)
    (by simp [fitsTy, Ty.size]; omega) (inRange_single (lo := 0) (hi := 5) rfl (by omega) (by omega))
    ((areaCheck_pin pin.isLt (by decide)).trans (pinCheck_ok (by simpa [Val.toNat] using hdrive))) (areaClaims_pin pin.isLt (by decide))
    (areaApply_pin pin.isLt (by decide)) hclean

/-- What a write of a pin's function leaves. -/
theorem pinApply_func {s : State} {pin v : Nat} :
    pinFunc (pinApply s pin 1 v) pin = v ∧ (v = spCountFn → pinFunc s pin ≠ spCountFn → getN (pinApply s pin 1 v) (K.spCount pin) = 0) ∧
      (v = spStampFn → pinFunc s pin ≠ spStampFn → getN (pinApply s pin 1 v) (K.spStamp pin) = 0) ∧
      onlyObjs [K.spFunc pin, K.spCount pin, K.spStamp pin] s (pinApply s pin 1 v) ∧
      (pinApply s pin 1 v).grog = s.grog := by
  have hgrog : (writeN s (K.spFunc pin) v).grog = s.grog := (writeN_ch (P := [.objs]) (by decide) (Changes.refl _ s)).grog (by decide)
  have hwritten : onlyObjs [K.spFunc pin, K.spCount pin, K.spStamp pin] s (writeN s (K.spFunc pin) v) :=
    onlyObjs_writeN _ (by simp) (onlyObjs_refl _ s)
  have hfunc : getN (writeN s (K.spFunc pin) v) (K.spFunc pin) = v := getN_writeN _ _ _
  unfold pinApply pinFunc
  simp only [if_true]
  by_cases hsame : getN s (K.spFunc pin) = v
  · simp only [if_pos hsame]
    exact ⟨hfunc, fun hv hne => absurd (hsame.trans hv) hne, fun hv hne => absurd (hsame.trans hv) hne, hwritten, hgrog⟩
  · simp only [if_neg hsame]
    by_cases hcount : v = spCountFn
    · subst hcount
      exact ⟨(getN_putN_ne _ _ (pinKey_ne (by decide))).trans hfunc, fun _ _ => getN_putN _ _ _, fun h => absurd h (by decide),
        onlyObjs_putN _ (by simp) hwritten, hgrog⟩
    · by_cases hstamp : v = spStampFn
      · subst hstamp
        exact ⟨(getN_putN_ne _ _ (pinKey_ne (by decide))).trans hfunc, fun h => absurd h (by decide), fun _ _ => getN_putN _ _ _,
          onlyObjs_putN _ (by simp) hwritten, hgrog⟩
      · simp only [if_neg hcount, if_neg hstamp]
        split
        · exact ⟨hfunc, fun h => absurd h hcount, fun h => absurd h hstamp, hwritten, hgrog⟩
        · exact ⟨hfunc, fun h => absurd h hcount, fun h => absurd h hstamp, hwritten, hgrog⟩

theorem pwmPeriod_pos {freq : Nat} (hlo : 0 < freq) (hhi : freq ≤ 100000) : 0 < pwmPeriod freq :=
  Nat.div_pos (by omega) hlo

/-- Within a period whose values are held, those are in force. -/
theorem pwmNow_held {s u : State} {pin : Nat} (hch : Changes [.objs, .mram, .grog, .sess, .resp] s u)
    (hheld : s.now < (pinOf s pin).newFrom) : pwmNow u pin = ((pinOf s pin).freqWas, (pinOf s pin).dutyWas) := by
  have hpin : pinOf u pin = pinOf s pin := by
    unfold pinOf
    rw [hch.pins (by decide)]
  unfold pwmNow
  simp only [hpin, hch.now (by decide), if_pos hheld]

/-- The record of a running PWM from a write on: the values in force until the next period starts. -/
def heldPin (s : State) (pin : Nat) (q : Pin) : Pin :=
  { q with
    freqWas := (pwmNow s pin).1, dutyWas := (pwmNow s pin).2, periodAt := max q.periodAt q.newFrom
    newFrom := max q.periodAt q.newFrom +
      ((s.now - max q.periodAt q.newFrom) / pwmPeriod (pwmNow s pin).1 + 1) * pwmPeriod (pwmNow s pin).1 }

theorem pwmHold_held {s : State} {pin : Nat} (hheld : pinFunc s pin ≠ spPwm ∨ s.now < (pinOf s pin).newFrom) : pwmHold s pin = s :=
  if_pos hheld

theorem pwmHold_running {s : State} {pin : Nat} (hpwm : pinFunc s pin = spPwm) (hdue : ¬ s.now < (pinOf s pin).newFrom) :
    pwmHold s pin = modPin s pin (heldPin s pin) := if_neg (fun h => h.elim (fun h => h hpwm) hdue)

theorem now_lt_heldPin {s : State} {pin : Nat} (q : Pin) (hpos : 0 < pwmPeriod (pwmNow s pin).1) : s.now < (heldPin s pin q).newFrom := by
  show s.now < max q.periodAt q.newFrom + ((s.now - max q.periodAt q.newFrom) / pwmPeriod (pwmNow s pin).1 + 1) * pwmPeriod (pwmNow s pin).1
  generalize max q.periodAt q.newFrom = base
  have h := Nat.lt_div_mul_add hpos (a := s.now - base)
  rw [Nat.add_mul, Nat.one_mul]
  omega

/-- A write of a running PWM leaves the values in force until the next period starts. -/
theorem pwmNow_hold {s u : State} {pin : Nat} (hpwm : pinFunc s pin = spPwm) (hlo : 0 < getN s (K.spPwmFreq pin))
    (hhi : getN s (K.spPwmFreq pin) ≤ 100000) (hch : Changes [.objs, .mram, .grog, .sess, .resp] (pwmHold s pin) u) :
    pwmNow u pin = pwmNow s pin := by
  by_cases hheld : s.now < (pinOf s pin).newFrom
  · rw [pwmHold_held (.inr hheld)] at hch
    rw [pwmNow_held hch hheld, pwmNow_held (Changes.refl _ s) hheld]
  · have hnow : pwmNow s pin = (getN s (K.spPwmFreq pin), getN s (K.spPwmDuty pin)) := if_neg hheld
    have hpos : 0 < pwmPeriod (pwmNow s pin).1 := by
      rw [hnow]
      exact pwmPeriod_pos hlo hhi
    rw [pwmHold_running hpwm hheld] at hch
    have hlt := now_lt_heldPin (pinOf s pin) hpos
    rw [pwmNow_held hch (by rw [pinOf_modPin, modPin_now]; exact hlt), pinOf_modPin]
    rfl

theorem pwmHold_objs (s : State) (pin : Nat) : (pwmHold s pin).objs = s.objs ∧ (pwmHold s pin).grog = s.grog := by
  unfold pwmHold
  extract_lets q f
  split <;> exact ⟨rfl, rfl⟩

theorem onlyObjs_of_objs {s t : State} (ks : List Nat) (h : t.objs = s.objs) : onlyObjs ks s t := fun k _ => by
  simp [getV, ctrOf, h]

/-- What a write of one of a pin's PWM objects leaves. -/
theorem exec_pwmWrite {s : State} {r : DictReq} {i : Nat} {pin : Fin 96} {sub n : Nat} {ty : Ty} {a : Acc} {rg : List (Int × Int)}
    (hrow : rowIs (objKey (0x8400 + pin) sub) ty a rg = true) (ha : a = .rw ∨ a = .rws) (hsub : sub = 6 ∨ sub = 7)
    (h : AdmittedWrite s r i (objKey (0x8400 + pin) sub) n) (hmgr : managerSession s i) (hopen : pinTrusted s pin = false)
    (hfit : fitsTy ty n = true)
    (hrange : rg.any (fun e => decide (e.1 ≤ measureOf ty (.num n) ∧ measureOf ty (.num n) ≤ e.2)) = true) (hclean : s.grog.badRows = []) :
    ∃ t, writeObject s r (objKey (0x8400 + pin) sub) n = .next t ∧ answered t r 0x11 .ok ∧ getN t (objKey (0x8400 + pin) sub) = n ∧
      (pinFunc s pin = spPwm → 0 < getN s (K.spPwmFreq pin) → getN s (K.spPwmFreq pin) ≤ 100000 → pwmNow t pin = pwmNow s pin) ∧
      onlyObjs [objKey (0x8400 + pin) sub] s t := by
  have hlt : sub < 256 := by omega
  have happly : pinApply (renewed s i) pin sub n = writeN (pwmHold (renewed s i) pin) (objKey (0x8400 + pin) sub) n := by
    rcases hsub with rfl | rfl <;> rfl
  have hwrite := writeN_ch (P := [.objs]) (k := objKey (0x8400 + pin) sub) (n := n) (by decide) (Changes.refl _ (pwmHold (renewed s i) pin))
  obtain ⟨hobjs, hgrog⟩ := pwmHold_objs (renewed s i) pin
  obtain ⟨t, hrun, hans, hch⟩ := cleanWrite_done hrow ha (by omega) hlt h hmgr (areaAccess_openPin hmgr hopen hlt _) hfit hrange
    ((areaCheck_pin pin.isLt hlt).trans (pinCheck_ok (by omega))) (areaClaims_pin pin.isLt hlt)
    (areaApply_pin pin.isLt hlt) (by
      show (pinApply (renewed s i) pin sub n).grog.badRows = []
      rw [happly, hwrite.grog (by decide), hgrog]
      exact hclean)
  have hch' : Changes [.mram, .grog, .sess, .resp] (writeN (pwmHold (renewed s i) pin) (objKey (0x8400 + pin) sub) n) t := happly ▸ hch
  refine ⟨t, hrun, hans, (hch'.getN (by decide) (by decide) _).trans (getN_writeN _ _ _), fun hpwm hlo hhi => ?_, ?_⟩
  · exact pwmNow_hold (s := renewed s i) hpwm hlo hhi ((hwrite.mono (by decide)).trans (hch'.mono (by decide)))
  · exact onlyObjs_trans (onlyObjs_writeN _ (by simp) (onlyObjs_of_objs (s := s) _ hobjs)) (hch'.only (by decide) (by decide) _)

theorem pwmFreq_fits {n : Nat} (h : n ≤ 100000) : fitsTy .u32 n = true :=
  decide_eq_true (Nat.lt_of_le_of_lt h (by decide))

theorem pwmDuty_fits {n : Nat} (h : n ≤ 1000) : fitsTy .u16 n = true :=
  decide_eq_true (Nat.lt_of_le_of_lt h (by decide))

/-- Settles O60: an edge by whether it is an event of the pin and by whether island 4 runs, the writes by what the record's rule leaves. -/
theorem sidePinCommands : Obligations.SidePinCommands := by
  unfold Obligations.SidePinCommands
  refine ⟨fun s pin level hgood => ⟨fun hsame => ?_, fun hedge hmode hstage hnone hover hnamed => ?_, fun hedge hmode hnot => ?_,
    fun hmode hlevel hwake => ?_⟩, fun s r i pin v h hmgr hopen => ⟨fun hv hdrive hclean => ?_, fun hpin hv => ?_⟩,
    fun s r i pin freq v h hmgr hopen hrange hclean => ?_⟩
  · rw [exec_sidePinEdge pin level hgood (.inr (pinWakes_same hsame)), pinEdge_same hsame]
  · have hrun := exec_sidePinEdge pin level hgood (.inl hmode)
    have hevent (hfunc : pinFunc s pin = spCountFn ∨ pinFunc s pin = spStampFn) := pinEdge_event hedge (isEvent_of hstage hnamed hfunc)
    have hisland := island4Runs_levelSet s pin level pin.isLt
    have hfunc' := pinFunc_levelSet s pin level
    refine ⟨fun hon hfunc => ?_, fun hon hfunc => ?_, fun hoff hfunc => ?_⟩
    · rw [hevent (.inl hfunc), pinEvent_first (hisland.trans hon) hnone hover, if_pos (hfunc'.trans hfunc)] at hrun
      obtain ⟨hin, honly⟩ := edge_stored (s := s) (level := level) ((getN (levelSet s pin level) (K.spCount pin) + 1) % 2 ^ 32)
        (show K.spIn pin ≠ K.spCount pin from pinKey_ne (by decide)) eventIn emptied
      refine ⟨_, hrun, hin, ?_, honly⟩
      rw [getN_putN]
      rw [show getN (levelSet s pin level) (K.spCount pin) = _ from getN_putB_ne s level (pinKey_ne (by decide))]
    · rw [hevent (.inr hfunc), pinEvent_first (hisland.trans hon) hnone hover,
        if_neg (by rw [hfunc'.trans hfunc]; decide)] at hrun
      obtain ⟨hin, honly⟩ := edge_stored (s := s) (level := level) (levelSet s pin level).now
        (show K.spIn pin ≠ K.spStamp pin from pinKey_ne (by decide)) eventIn emptied
      exact ⟨_, hrun, hin, getN_putN _ _ _, honly⟩
    · rw [hevent hfunc, pinEvent_waits (hisland.trans hoff)] at hrun
      refine ⟨_, hrun, Machine.getB_putB s _ level, ?_, onlyObjs_levelSet s level (by simp)⟩
      rw [pinOf_modPin]
      exact (eventIn_first hnone).1
  · refine ⟨_, exec_sidePinEdge pin level hgood (.inl hmode), ?_⟩
    rw [pinEdge_level hedge (not_isEvent hnot)]
    exact ⟨Machine.getB_putB s _ level, onlyObjs_levelSet s level (by simp), levelSet_changes s pin level⟩
  · subst hlevel
    have hstarted := ColdStart.coldStart_started (pinEdge s pin true) 3
    exact ⟨_, exec_sidePinEdge_wake pin true hgood hmode hwake, hstarted.mode, hstarted.cause, hstarted.step⟩
  · obtain ⟨hfunc, hcount, hstamp, honly, hgrog⟩ := pinApply_func (s := renewed s i) (pin := pin) (v := v.toNat)
    obtain ⟨t, hrun, hans, hch⟩ := exec_spFuncWrite h hmgr hopen hv hdrive (by rw [hgrog]; exact hclean)
    have hvalue := hch.getN (by decide) (by decide)
    have honly' : onlyObjs [K.spFunc pin, K.spCount pin, K.spStamp pin] s t := onlyObjs_trans honly (hch.only (by decide) (by decide) _)
    refine ⟨t, hrun, hans, (hvalue _).trans hfunc, fun hv hne => (hvalue _).trans (hcount hv hne),
      fun hv hne => (hvalue _).trans (hstamp hv hne), ?_, honly'⟩
    have hout : K.spOut pin ∉ [K.spFunc pin, K.spCount pin, K.spStamp pin] := by
      simp only [List.mem_cons, List.not_mem_nil, or_false, not_or, K.spOut, K.spFunc, K.spCount, K.spStamp]
      exact ⟨pinKey_ne (by decide), pinKey_ne (by decide), pinKey_ne (by decide)⟩
    unfold getB Machine.getN
    rw [(honly' _ hout).1]
  · refine cleanWrite_refused (row_spFunc pin) (.inr rfl) (by omega) (by decide) h hmgr (areaAccess_openPin hmgr hopen (by decide) _)
      (decide_eq_true v.isLt) (inRange_single (lo := 0) (hi := 5) rfl (Nat.zero_le _) ?_)
      ((areaCheck_pin pin.isLt (by decide)).trans (if_pos ⟨hpin, .inl ⟨rfl, hv⟩⟩))
    rcases hv with hv | hv <;> rw [hv] <;> decide
  · cases freq with
    | true =>
      exact exec_pwmWrite (row_spPwmFreq pin) (.inr rfl) (.inl rfl) h hmgr hopen (pwmFreq_fits hrange.2)
        (inRange_single (lo := 100) (hi := 100000) rfl hrange.1 hrange.2) hclean
    | false =>
      exact exec_pwmWrite (row_spPwmDuty pin) (.inl rfl) (.inr rfl) h hmgr hopen (pwmDuty_fits hrange)
        (inRange_single (lo := 0) (hi := 1000) rfl (Nat.zero_le _) hrange) hclean

end Sys2Proof.Proofs.SidePins

/-!
PROOFS. The Grog record (R476 to R482): what the log and the events leave of the spares map and of the row maps, and where a write of MRAM
goes (R479, R480).
-/

namespace Sys2Proof.Proofs.GrogRecord

open Sys2Proof.Machine

/-! ## What the log and the events leave alone -/

/-- Two Grog records agree on the map of spares and on the maps of rows. -/
def SameMaps (g g' : Grog) : Prop :=
  g'.units = g.units ∧ g'.rowSpare = g.rowSpare ∧ g'.spareUsed = g.spareUsed ∧ g'.spared = g.spared ∧ g'.badRows = g.badRows

theorem SameMaps.refl (g : Grog) : SameMaps g g := ⟨rfl, rfl, rfl, rfl, rfl⟩

theorem SameMaps.trans {g g' g'' : Grog} (h : SameMaps g g') (h' : SameMaps g' g'') : SameMaps g g'' :=
  ⟨h'.1.trans h.1, h'.2.1.trans h.2.1, h'.2.2.1.trans h.2.2.1, h'.2.2.2.1.trans h.2.2.2.1, h'.2.2.2.2.trans h.2.2.2.2⟩

theorem sameMaps_of_eq {s t : State} (h : t.grog = s.grog) : SameMaps s.grog t.grog := h ▸ .refl s.grog

theorem sameMaps_of_changes {P : List Part} {s t : State} (h : Changes P s t) (hP : Part.grog ∉ P) : SameMaps s.grog t.grog :=
  sameMaps_of_eq (h.grog hP)

theorem sameMaps_grogLog (s : State) (cls kind unit spare cause detail gen : Nat) :
    SameMaps s.grog (grogLog s cls kind unit spare cause detail gen).grog := by
  unfold grogLog modGrog
  dsimp only
  split <;> exact ⟨rfl, rfl, rfl, rfl, rfl⟩

theorem sameMaps_countRepair (s : State) : SameMaps s.grog (countRepair s).grog :=
  sameMaps_of_changes (countRepair_ch (P := [.voteSecond, .funcs, .sess, .notes]) (by decide) (Changes.refl _ s)) (by decide)

theorem sameMaps_countBadVote (s : State) : SameMaps s.grog (countBadVote s).grog := by
  have hpend : Changes [.funcs] (bump { s with fresh := s.fresh + 4 } K.regVoteBad)
      (setPend (bump { s with fresh := s.fresh + 4 } K.regVoteBad) 0 12) := setPend_ch (by decide) (Changes.refl _ _)
  exact (sameMaps_of_changes hpend (by decide)).trans (sameMaps_grogLog _ 9 7 _ _ _ 0 _)

theorem sameMaps_voteMask (s : State) (f : Nat) : SameMaps s.grog (voteMask s f).grog := by
  unfold voteMask
  split
  · exact .refl _
  · dsimp only
    split
    · exact .refl _
    · split
      · exact sameMaps_countRepair (modFunc s f _)
      · exact sameMaps_countBadVote (modFunc s f _)

theorem sameMaps_voteMsix (s : State) (f v : Nat) : SameMaps s.grog (voteMsix s f v).grog := by
  unfold voteMsix
  split
  · exact .refl _
  · dsimp only
    split
    · exact .refl _
    · split
      · exact sameMaps_countRepair (modFunc s f _)
      · exact sameMaps_countBadVote (modFunc s f _)

theorem sameMaps_raiseClass (s : State) (f c : Nat) : SameMaps s.grog (raiseClass s f c).grog := by
  unfold raiseClass
  dsimp only
  split
  · exact sameMaps_voteMask s f
  · split
    · exact sameMaps_voteMask s f
    · exact (sameMaps_voteMask s f).trans (sameMaps_voteMsix (modFunc (voteMask s f) f _) f _)

theorem sameMaps_foldN {f : State → Nat → State} (hf : ∀ x a, SameMaps x.grog (f x a).grog) (l : List Nat) (s : State) :
    SameMaps s.grog (foldN l f s).grog := by
  induction l generalizing s with
  | nil => exact .refl _
  | cons a l ih => exact (hf s a).trans (ih (f s a))

theorem sameMaps_emit (s : State) (cls code inst : Nat) (detail : List Byte) (fs : List Nat) :
    SameMaps s.grog (emit s cls code inst detail fs).grog :=
  (sameMaps_foldN (fun x a => sameMaps_raiseClass x a cls) (eventFuncs s fs) s).trans
    (sameMaps_of_changes (notifyAll_ch (P := [.sess, .notes]) (by decide) (Changes.refl _ _)) (by decide))

theorem sameMaps_emitSb (s : State) (cls code inst : Nat) (detail : List Byte) (fs : List Nat) :
    SameMaps s.grog (emitSb s cls code inst detail fs).grog :=
  (sameMaps_emit s cls code inst detail fs).trans
    (sameMaps_of_changes (sideFrame_ch (P := [.frames, .notes]) (by decide) (Changes.refl _ _)) (by decide))

/-- A change of a health object and its event. -/
theorem sameMaps_healthShown (s : State) (k n inst : Nat) (detail : List Byte) :
    SameMaps s.grog (emitSb (putN s k n) 12 0x0C02 inst detail []).grog := sameMaps_emitSb (putN s k n) 12 0x0C02 inst detail []

theorem sameMaps_updateHealth (s : State) : SameMaps s.grog (updateHealth s).grog := by
  unfold updateHealth
  extract_lets s' worst old
  have hsubs : SameMaps s.grog s'.grog := by
    refine sameMaps_foldN (fun x i => ?_) _ s
    dsimp only
    split
    · exact .refl _
    · exact sameMaps_healthShown x _ _ _ _
  clear_value s' worst old
  split
  · exact hsubs
  · exact hsubs.trans (sameMaps_healthShown s' _ _ _ _)

theorem sameMaps_grogEvent (s : State) (cls kind unit spare : Nat) (low : Bool) :
    SameMaps s.grog (grogEvent s cls kind unit spare low).grog := by
  have hemit := sameMaps_emit s 12 0x0C00 cls (leBytes 1 cls ++ leBytes 1 kind ++ leBytes 2 unit ++ leBytes 2 spare) []
  unfold grogEvent
  extract_lets s'
  have hs' : SameMaps s.grog s'.grog := hemit
  clear_value s'
  split
  · exact hs'.trans (sameMaps_emitSb s' _ _ _ _ _)
  · exact hs'

/-- An event of the Grog manager moves no object but the counts that events move. -/
theorem grogEvent_objs (ks : List Nat) (s : State) (cls kind unit spare : Nat) (low : Bool) :
    onlyObjsAndNotes ks s (grogEvent s cls kind unit spare low) :=
  onlyAndNotes_of_changes (P := [.fresh, .voteSecond, .funcs, .sess, .frames, .grog, .notes])
    (grogEvent_ch (by decide) (Changes.refl _ s)) (by decide)

/-! ## Where a write goes (R480) -/

/-- The step of the search for the least-written free row. -/
def fresher (g : Grog) (m : Option Nat) (f : Nat) : Option Nat :=
  match m with
  | some x => if g.wear f < g.wear x then some f else m
  | none => some f

/-- The free rows of a row's area. -/
def freeInArea (g : Grog) (q : Nat) : List Nat :=
  (List.range 32768).filter (fun f => Config.mramArea f == Config.mramArea q && g.isFree f)

theorem freshest_eq (g : Grog) (q : Nat) : g.freshest q = (freeInArea g q).foldl (fresher g) none := rfl

theorem mem_freeInArea {g : Grog} {q f : Nat} :
    f ∈ freeInArea g q ↔ f < 32768 ∧ Config.mramArea f = Config.mramArea q ∧ g.isFree f = true := by
  simp [freeInArea]

/-- The search ends at a row of the list that none of the list is less written than, if it began at none. -/
theorem foldl_fresher (g : Grog) (l : List Nat) (m : Option Nat) :
    (∀ x, l.foldl (fresher g) m = some x → (x ∈ l ∨ m = some x) ∧ (∀ f ∈ l, g.wear x ≤ g.wear f) ∧ ∀ y, m = some y → g.wear x ≤ g.wear y) ∧
      (l.foldl (fresher g) m = none → l = [] ∧ m = none) := by
  induction l generalizing m with
  | nil => exact ⟨fun x h => ⟨.inr h, by simp, fun y hy => by simp_all⟩, fun h => ⟨rfl, h⟩⟩
  | cons f l ih =>
    obtain ⟨hsome, hnone⟩ := ih (fresher g m f)
    have hnext : ∃ z, fresher g m f = some z ∧ (z = f ∨ m = some z) ∧ g.wear z ≤ g.wear f ∧ ∀ y, m = some y → g.wear z ≤ g.wear y := by
      cases m with
      | none => exact ⟨f, rfl, .inl rfl, Nat.le_refl _, by simp⟩
      | some x =>
        by_cases hlt : g.wear f < g.wear x
        · exact ⟨f, if_pos hlt, .inl rfl, Nat.le_refl _, fun y hy => by cases hy; omega⟩
        · exact ⟨x, if_neg hlt, .inr rfl, by omega, fun y hy => by cases hy; omega⟩
    obtain ⟨z, hz, hfrom, hzf, hzm⟩ := hnext
    refine ⟨fun x h => ?_, fun h => ?_⟩
    · obtain ⟨hmem, hall, hstart⟩ := hsome x h
      have hxz := hstart z hz
      refine ⟨?_, ?_, fun y hy => Nat.le_trans hxz (hzm y hy)⟩
      · rcases hmem with hmem | hmem
        · exact .inl (List.mem_cons_of_mem f hmem)
        · obtain rfl : z = x := Option.some.inj (hz.symm.trans hmem)
          rcases hfrom with rfl | hfrom
          · exact .inl List.mem_cons_self
          · exact .inr hfrom
      · intro y hy
        rcases List.mem_cons.1 hy with rfl | hy
        · exact Nat.le_trans hxz hzf
        · exact hall y hy
    · exact absurd ((hnone h).2.symm.trans hz) (by simp)

/-- Where the next write goes: to the row's home, or to the least-written free row of its area. -/
theorem levelled_home_or_free (g : Grog) (l : Nat) : g.levelled l = g.home l ∨ g.isFree (g.levelled l) = true ∧
    Config.mramArea (g.levelled l) = Config.mramArea (g.home l) ∧ Config.mramArea (g.levelled l) ≠ 3 ∧
    g.wear (g.levelled l) + 2 ^ 24 < g.wear (g.home l) ∧
    ∀ f, f < 32768 → g.isFree f = true → Config.mramArea f = Config.mramArea (g.levelled l) → g.wear (g.levelled l) ≤ g.wear f := by
  unfold Grog.levelled
  extract_lets q
  split
  · exact .inl rfl
  · next hworn =>
    split
    · next f hf =>
      split
      · next hlt =>
        rw [freshest_eq] at hf
        obtain ⟨hmem, hall, -⟩ := (foldl_fresher g (freeInArea g q) none).1 f hf
        obtain ⟨-, harea, hfree⟩ := mem_freeInArea.1 (hmem.resolve_right (by simp))
        exact .inr ⟨hfree, harea, fun h3 => hworn (.inr (harea.symm.trans h3)), hlt,
          fun y hy hyfree hyarea => hall y (mem_freeInArea.2 ⟨hy, hyarea.trans harea, hyfree⟩)⟩
      · exact .inl rfl
    · exact .inl rfl

/-- A row whose count exceeds a free row's of its area by 2^24 is left. -/
theorem levelled_ne_home {g : Grog} {l f : Nat} (hf : f < 32768) (hfree : g.isFree f = true) (harea : Config.mramArea (g.home l) ≠ 3)
    (hsame : Config.mramArea f = Config.mramArea (g.home l)) (hlt : g.wear f + 2 ^ 24 < g.wear (g.home l)) :
    g.levelled l ≠ g.home l := by
  have hmem : f ∈ freeInArea g (g.home l) := mem_freeInArea.2 ⟨hf, hsame, hfree⟩
  obtain ⟨hsome, hnone⟩ := foldl_fresher g (freeInArea g (g.home l)) none
  have hworn : ¬ (g.wear (g.home l) ≤ 2 ^ 24 ∨ Config.mramArea (g.home l) = 3) := not_or.2 ⟨by omega, harea⟩
  unfold Grog.levelled
  dsimp only
  rw [if_neg hworn]
  split
  · next x hx =>
    have hle := (hsome x (freshest_eq g _ ▸ hx)).2.1 f hmem
    rw [if_pos (Nat.lt_of_le_of_lt (Nat.add_le_add_right hle _) hlt)]
    intro heq
    rw [heq] at hle
    omega
  · next hx => exact absurd (hnone (freshest_eq g _ ▸ hx)).1 (List.ne_nil_of_mem hmem)

/-! ## A row is written (R479) -/

theorem countRow_home (g : Grog) (l n : Nat) : (g.countRow l n).home l = g.levelled l := by
  unfold Grog.countRow Grog.home
  dsimp only
  split
  · next h => exact h.symm
  · exact tget_tset_same _ _ _ _

theorem countRow_rowWrites (g : Grog) (l n : Nat) :
    tget (g.countRow l n).rowWrites (g.cell (g.levelled l)) 0 = g.wear (g.levelled l) + n := tget_tset_same _ _ _ _

theorem sameMaps_countRow (g : Grog) (l n : Nat) : SameMaps g (g.countRow l n) := ⟨rfl, rfl, rfl, rfl, rfl⟩

/-- The record once the write is counted at its row. -/
def counted (s : State) (bank row bad : Nat) : State := modGrog s (fun g => g.countRow (bank * 2048 + row) (1 + b2n (decide (1 ≤ bad))))

/-- The row of MRAM that an address's next write goes to. -/
def target (s : State) (bank row : Nat) : Nat := s.grog.levelled (bank * 2048 + row)

theorem mramWriteRow_eq (s : State) (bank row bad : Nat) : mramWriteRow s bank row bad =
    if bad < 2 then modGrog (counted s bank row bad) (fun g => { g with badRows := g.badRows.filter (· ≠ target s bank row) })
    else if freeRows s (target s bank row / 2048) = 0 then
      modGrog (counted s bank row bad) (fun g => { g with badRows := target s bank row :: List.filter (· ≠ target s bank row) g.badRows })
    else spareRow (counted s bank row bad) (target s bank row) := rfl

theorem counted_changes (s : State) (bank row bad : Nat) : Changes [.grog] s (counted s bank row bad) :=
  ch_grog (Changes.refl _ s) (by decide)

theorem modGrog_changes (s : State) (g : Grog → Grog) : Changes [.grog] s (modGrog s g) := ch_grog (Changes.refl _ s) (by decide)

/-- A row that took its content: where it lies and what it counts. -/
theorem mramWriteRow_good (s : State) (bank row : Nat) {bad : Nat} (h : bad < 2) :
    (mramWriteRow s bank row bad).grog.home (bank * 2048 + row) = target s bank row ∧
    tget (mramWriteRow s bank row bad).grog.rowWrites (s.grog.cell (target s bank row)) 0 = s.grog.wear (target s bank row) + 1 + bad ∧
    (mramWriteRow s bank row bad).grog.spared = s.grog.spared ∧ Changes [.grog] s (mramWriteRow s bank row bad) := by
  have hbad : 1 + b2n (decide (1 ≤ bad)) = 1 + bad := by
    obtain rfl | rfl : bad = 0 ∨ bad = 1 := by omega
    · rfl
    · rfl
  rw [mramWriteRow_eq, if_pos h]
  refine ⟨countRow_home s.grog (bank * 2048 + row) (1 + b2n (decide (1 ≤ bad))), ?_, rfl,
    (counted_changes s bank row bad).trans (modGrog_changes _ _)⟩
  rw [Nat.add_assoc, ← hbad]
  exact countRow_rowWrites s.grog (bank * 2048 + row) (1 + b2n (decide (1 ≤ bad)))

/-- A row that read back wrong twice, in a bank without a spare row. -/
theorem mramWriteRow_unwritable (s : State) (bank row : Nat) {bad : Nat} (h : 2 ≤ bad)
    (hnone : freeRows s (target s bank row / 2048) = 0) :
    target s bank row ∈ (mramWriteRow s bank row bad).grog.badRows ∧
    (mramWriteRow s bank row bad).grog.rowSpare = s.grog.rowSpare ∧ Changes [.grog] s (mramWriteRow s bank row bad) := by
  rw [mramWriteRow_eq, if_neg (by omega), if_pos hnone]
  exact ⟨List.mem_cons_self, rfl, (counted_changes s bank row bad).trans (modGrog_changes _ _)⟩

/-- The maps once a spare row has taken a row's place. -/
def sparedRow (s : State) (q : Nat) : State :=
  modGrog s (fun g => { g with
    rowSpare := tset g.rowSpare (rowKey (q / 2048) (q % 2048)) (2048 + tget s.grog.spareUsed (q / 2048) 0)
    rowWrites := tset g.rowWrites (rowKey (q / 2048) (2048 + tget s.grog.spareUsed (q / 2048) 0)) 1
    spareUsed := tset g.spareUsed (q / 2048) (tget s.grog.spareUsed (q / 2048) 0 + 1)
    badRows := g.badRows.filter (· ≠ q), spared := satInc 32 g.spared, subst := satInc 32 g.subst })

/-- The number of the spare row that a row takes. -/
def spareNumber (s : State) (q : Nat) : Nat := tget s.grog.spareUsed (q / 2048) 0 + 2048 * (q / 2048)

theorem spareRow_eq (s : State) (q : Nat) : spareRow s q =
    updateHealth (grogEvent (grogLog (sparedRow s q) clsRow 1 q (spareNumber s q) 2 0 0) clsRow 1 q (spareNumber s q) true) := rfl

theorem spareRow_maps (s : State) (q : Nat) : SameMaps (sparedRow s q).grog (spareRow s q).grog := by
  rw [spareRow_eq]
  exact ((sameMaps_grogLog _ _ _ _ _ _ _ _).trans (sameMaps_grogEvent _ _ _ _ _ _)).trans (sameMaps_updateHealth _)

theorem spareRow_objs (s : State) (q : Nat) : onlyObjsAndNotes healthKeys s (spareRow s q) := by
  have hlog : Changes [.grog] s (grogLog (sparedRow s q) clsRow 1 q (spareNumber s q) 2 0 0) :=
    grogLog_ch (by decide) (modGrog_changes s _)
  rw [spareRow_eq]
  exact onlyAndNotes_trans (onlyAndNotes_trans (onlyAndNotes_of_changes hlog (by decide)) (grogEvent_objs _ _ _ _ _ _ _))
    (ModeFrame.updateHealth_objs _)

theorem sparedRow_maps (s : State) (q : Nat) :
    tfind (sparedRow s q).grog.rowSpare (rowKey (q / 2048) (q % 2048)) = some (2048 + tget s.grog.spareUsed (q / 2048) 0) ∧
    tget (sparedRow s q).grog.spareUsed (q / 2048) 0 = tget s.grog.spareUsed (q / 2048) 0 + 1 ∧
    (sparedRow s q).grog.spared = satInc 32 s.grog.spared :=
  ⟨tfind_tset_same _ _ _, tget_tset_same _ _ _ _, rfl⟩

/-- A row that read back wrong twice, in a bank with a spare row. -/
theorem mramWriteRow_spared (s : State) (bank row : Nat) {bad : Nat} (h : 2 ≤ bad) (hfree : freeRows s (target s bank row / 2048) ≠ 0) :
    tfind (mramWriteRow s bank row bad).grog.rowSpare (rowKey (target s bank row / 2048) (target s bank row % 2048)) =
      some (2048 + tget s.grog.spareUsed (target s bank row / 2048) 0) ∧
    tget (mramWriteRow s bank row bad).grog.spareUsed (target s bank row / 2048) 0 =
      tget s.grog.spareUsed (target s bank row / 2048) 0 + 1 ∧
    (mramWriteRow s bank row bad).grog.spared = satInc 32 s.grog.spared ∧ onlyObjsAndNotes healthKeys s (mramWriteRow s bank row bad) := by
  rw [mramWriteRow_eq, if_neg (by omega), if_neg hfree]
  generalize target s bank row = q
  obtain ⟨-, hspare, hused, hspared, -⟩ := spareRow_maps (counted s bank row bad) q
  rw [hspare, hused, hspared]
  obtain ⟨hrow, hcount, htotal⟩ := sparedRow_maps (counted s bank row bad) q
  exact ⟨hrow, hcount, htotal,
    onlyAndNotes_trans (onlyAndNotes_of_changes (counted_changes s bank row bad) (by decide)) (spareRow_objs _ _)⟩

end Sys2Proof.Proofs.GrogRecord

/-!
PROOFS. O59: clock requests of islands, module time, a unit's test again, rows of MRAM, and diagnostics.
-/

namespace Sys2Proof.Proofs.ClocksAndSpares

open Sys2Proof.Machine
open Sys2Proof.Proofs.SurfaceAllocation (objKey_div objKey_mod)
open Sys2Proof.Proofs.AreaWrites (mayWriteObj_eq areaWrite_done areaWrite_refused)
open Sys2Proof.Proofs.GrogRecord

/-! ## Writes that a claim or a missing object refuses -/

theorem areaWrite_unclaimed {s t : State} {r : DictReq} {i idx sub n : Nat} {ty : Ty} {a : Acc} {rg : List (Int × Int)} {found : Option Nat}
    (hrow : rowIs (objKey idx sub) ty a rg = true) (ha : a = .rw ∨ a = .wo) (hidx : idx < 65536) (hsub : sub < 256)
    (h : AdmittedWrite s r i (objKey idx sub) n) (hmgr : managerSession s i)
    (haccess : areaAccess (renewed s i) (sessionCtx s r i found) idx sub n = true) (hfit : fitsTy ty n = true)
    (hrange : rg.any (fun e => decide (e.1 ≤ measureOf ty (.num n) ∧ measureOf ty (.num n) ≤ e.2)) = true)
    (hcheck : areaCheck (renewed s i) (sessionCtx s r i found) idx sub (.num n) = .ok)
    (hclaims : (areaClaims (renewed s i) idx sub n).1 = [])
    (happly : areaApply (renewed s i) (sessionCtx s r i found) idx sub (.num n) = accepted t) :
    ∃ u, writeObject s r (objKey idx sub) n found = .next u ∧ answered u r 0x11 .ok ∧ Changes [.sess, .resp] t u := by
  have hrole : (sessionCtx s r i found).role = .mgr := hmgr
  have hstored : a.stored = false := by rcases ha with rfl | rfl <;> rfl
  have hkept : keptIn a t (objKey idx sub) n = t := by rw [keptIn, hstored]; rfl
  have hdone := writeObject_done (found := found) hrow (key_lt hidx hsub) h hfit
    (fun row hacc => by rw [objKey_div hsub, objKey_mod hsub, mayWriteObj_eq ha hacc (.inl hrole), haccess]) hrange
    (by rw [objKey_div hsub, objKey_mod hsub, hcheck]) (by rw [objKey_div hsub, objKey_mod hsub, hclaims]) (.inl hstored)
    (by rw [objKey_div hsub, objKey_mod hsub]; exact happly) (.inl rfl)
  rwa [hkept] at hdone

theorem areaWrite_claimed {s : State} {r : DictReq} {i idx sub n req : Nat} {ds : List Nat} {ty : Ty} {a : Acc} {rg : List (Int × Int)}
    (hrow : rowIs (objKey idx sub) ty a rg = true) (ha : a = .rw ∨ a = .wo) (hidx : idx < 65536) (hsub : sub < 256)
    (h : AdmittedWrite s r i (objKey idx sub) n) (hmgr : managerSession s i)
    (haccess : areaAccess (renewed s i) (sessionCtx s r i none) idx sub n = true) (hfit : fitsTy ty n = true)
    (hrange : rg.any (fun e => decide (e.1 ≤ measureOf ty (.num n) ∧ measureOf ty (.num n) ≤ e.2)) = true)
    (hcheck : areaCheck (renewed s i) (sessionCtx s r i none) idx sub (.num n) ≠ .range)
    (hclaims : areaClaims (renewed s i) idx sub n = (ds, req)) (hds : ds ≠ []) :
    ∃ t, writeObject s r (objKey idx sub) n = .next t ∧ answered t r 0x11 .claimed ∧
      getN t K.worldRefused = satInc 32 (getN s K.worldRefused) ∧ onlyObjsAndNotes [K.worldRefused] s t := by
  have hrole : (sessionCtx s r i none).role = .mgr := hmgr
  obtain ⟨t, hdr, hrun, hans, hch⟩ := PowerRequests.writeObject_claimed hrow (key_lt hidx hsub) h hfit
    (fun row hacc => by rw [objKey_div hsub, objKey_mod hsub, mayWriteObj_eq ha hacc (.inl hrole), haccess]) hrange
    (by rw [objKey_div hsub, objKey_mod hsub]; exact hcheck) (by rw [show (sessOf s i).role = .mgr from hmgr]; decide)
    (by rw [objKey_div hsub, objKey_mod hsub]; exact hclaims) hds
  have hshown : ∀ ks, onlyObjsAndNotes ks (bump (renewed s i) K.worldRefused) t := fun ks =>
    onlyAndNotes_trans (PowerRequests.afterRefusal_objs ks _ _ _ _ rfl) (onlyAndNotes_of_changes hch (by decide))
  have hfrom : onlyObjsAndNotes [K.worldRefused] s (bump (renewed s i) K.worldRefused) :=
    onlyAndNotes_of_only (onlyObjs_bump (t := renewed s i) (.head _) (onlyObjs_refl _ _))
  refine ⟨t, hrun, hans, ?_, onlyAndNotes_trans hfrom (hshown _)⟩
  refine (congrArg Val.toNat (hshown [] _ (by simp) PowerRequests.worldRefused_not_noteKey).1).trans ?_
  exact getN_bump (renewed s i) K.worldRefused

theorem writeObj_noobj {s : State} {c : WCtx} {h : ItemHdr} {d : List Byte} {expected : Option Nat}
    (hnone : lookupObj h.index.toNat h.sub.toNat = none) : writeObj s c h d expected = ⟨.noobj, s, [], 0⟩ := by
  unfold writeObj
  rw [hnone]

theorem writeObject_noobj {s : State} {r : DictReq} {i k n : Nat} (hk : k < 2 ^ 24) (h : AdmittedWrite s r i k n)
    (hnone : lookupObj (k / 256) (k % 256) = none) :
    ∃ u, writeObject s r k n = .next u ∧ answered u r 0x11 .noobj ∧ Changes [.fresh, .sess, .resp] s u := by
  have h16 : (BitVec.ofNat 16 (k / 256)).toNat = k / 256 := by rw [BitVec.toNat_ofNat]; omega
  have h8 : (BitVec.ofNat 8 (k % 256)).toNat = k % 256 := by rw [BitVec.toNat_ofNat]; omega
  have hans : sessionAnswer s r i (numWrite (k / 256) (k % 256) n) none = refused (renewed s i) .noobj :=
    opWrite_refused (writeObj_noobj (by rw [h16, h8]; exact hnone)) (by decide) (by decide)
  obtain ⟨u, hu, ha, hch⟩ := request_refused h hans (by decide)
  exact ⟨u, hu, ha, (renewed_changes i (by decide) (Changes.refl _ s)).trans hch⟩

/-! ## Islands -/

theorem isMgr_of {s : State} {r : DictReq} {i : Nat} {found : Option Nat} (h : managerSession s i) : (sessionCtx s r i found).isMgr = true := by
  simp [sessionCtx, WCtx.isMgr, show (sessOf s i).role = .mgr from h]

theorem bool_fits (v : Bool) : fitsTy .bool (b2n v) = true ∧
    ([((0 : Int), (1 : Int))]).any (fun e => decide (e.1 ≤ measureOf .bool (.num (b2n v)) ∧ measureOf .bool (.num (b2n v)) ≤ e.2)) = true := by
  cases v <;> decide

theorem islandClaims_renewed (s : State) (i island : Nat) : islandClaims (renewed s i) island = islandClaims s island := rfl

theorem getB_writeN (s : State) (k : Nat) (v : Bool) : getB (writeN s k (b2n v)) k = v := by
  cases v <;> simp [getB, b2n]

theorem islandCheck_gate {island : Nat} {v : Bool} (h : islandGateable island = true ∨ v = false) : islandCheck island 5 (b2n v) = .ok :=
  (if_pos rfl).trans (if_neg (by rintro ⟨hv, hg⟩; rcases h with h | h <;> simp_all [b2n]))

theorem islGate_accepted {s : State} {r : DictReq} {i : Nat} {island : Fin 40} {v : Bool} (h : AdmittedWrite s r i (K.islGate island) (b2n v))
    (hmgr : managerSession s i) (hok : islandGateable island = true ∨ v = false) (hfree : islandClaims s island = []) :
    ∃ t, exec (.islGateWrite r island v) s = .next t ∧ answered t r 0x11 .ok ∧
      Changes [.sess, .resp] (writeN (renewed s i) (K.islGate island) (b2n v)) t :=
  areaWrite_unclaimed (row_islGate island) (.inl rfl) (by omega) (by decide) h hmgr
    (areaAccess_isl island.isLt (by decide) (isMgr_of hmgr)) (bool_fits v).1 (bool_fits v).2
    ((areaCheck_isl island.isLt (by decide)).trans (islandCheck_gate hok))
    ((congrArg Prod.fst (areaClaims_isl island.isLt (by decide))).trans hfree) (areaApply_isl island.isLt (by decide))

theorem islGate_range {s : State} {r : DictReq} {i : Nat} {island : Fin 40} {v : Bool} (h : AdmittedWrite s r i (K.islGate island) (b2n v))
    (hmgr : managerSession s i) (hnever : islandGateable island = false) (hv : v = true) :
    ∃ t, exec (.islGateWrite r island v) s = .next t ∧ answered t r 0x11 .range ∧ Changes [.fresh, .sess, .resp] s t :=
  areaWrite_refused (row_islGate island) (.inl rfl) (by omega) (by decide) h (.inl hmgr)
    (areaAccess_isl island.isLt (by decide) (isMgr_of hmgr)) (bool_fits v).1 (bool_fits v).2
    ((areaCheck_isl island.isLt (by decide)).trans ((if_pos rfl).trans (if_pos ⟨by rw [hv]; rfl, by simp [hnever]⟩)))
    (.inr rfl) (by decide) (by decide)

theorem islGate_claimed {s : State} {r : DictReq} {i : Nat} {island : Fin 40} {v : Bool} (h : AdmittedWrite s r i (K.islGate island) (b2n v))
    (hmgr : managerSession s i) (hok : islandGateable island = true ∨ v = false) (hclaimed : islandClaims s island ≠ []) :
    ∃ t, exec (.islGateWrite r island v) s = .next t ∧ answered t r 0x11 .claimed ∧
      getN t K.worldRefused = satInc 32 (getN s K.worldRefused) ∧ onlyObjsAndNotes [K.worldRefused] s t :=
  areaWrite_claimed (row_islGate island) (.inl rfl) (by omega) (by decide) h hmgr
    (areaAccess_isl island.isLt (by decide) (isMgr_of hmgr)) (bool_fits v).1 (bool_fits v).2
    (by rw [areaCheck_isl island.isLt (by decide)]; exact (islandCheck_gate hok).trans_ne (by decide))
    (areaClaims_isl island.isLt (by decide)) hclaimed

/-- The slice that an island is. -/
theorem row_islRate_slice {island : Fin 40} (h : isSlice island = true) :
    rowIs (K.islRate island) .u16 .rw [(800, 800), (1200, 1200), (1600, 1600)] = true := by
  have hbounds : 16 ≤ island.val ∧ island.val ≤ 19 := by simpa [isSlice] using h
  have hrow := row_islRate ⟨island.val - 16, by omega⟩
  rwa [show island.val - 16 + 16 = island.val by omega] at hrow

theorem lookup_islRate_none {island : Fin 40} (h : isSlice island = false) :
    lookupObj (K.islRate island / 256) (K.islRate island % 256) = none := by
  show lookupObj (objKey (0x8110 + island) 6 / 256) (objKey (0x8110 + island) 6 % 256) = none
  rw [objKey_div (by decide), objKey_mod (by decide)]
  have hbounds : ¬ (0x8120 ≤ 0x8110 + island.val ∧ 0x8110 + island.val ≤ 0x8123) := by
    simp only [isSlice, Bool.and_eq_false_iff, decide_eq_false_iff_not] at h
    omega
  have hrow : findRow (0x8110 + island.val) 6 = none := if_pos ⟨rfl, by omega, by omega, hbounds⟩
  unfold lookupObj
  rw [hrow]
  exact if_neg (by omega)

theorem rate_fits {n : Nat} (h : n = 1600 ∨ n = 1200 ∨ n = 800) : fitsTy .u16 n = true ∧
    ([((800 : Int), (800 : Int)), (1200, 1200), (1600, 1600)]).any
      (fun e => decide (e.1 ≤ measureOf .u16 (.num n) ∧ measureOf .u16 (.num n) ≤ e.2)) = true := by
  rcases h with rfl | rfl | rfl <;> decide

theorem islandCheck_rate {island n : Nat} (hslice : isSlice island = true) (hn : n = 1600 ∨ n = 1200 ∨ n = 800) :
    islandCheck island 6 n = .ok := by
  refine (if_neg (by decide)).trans ((if_pos rfl).trans (if_neg ?_))
  rcases hn with rfl | rfl | rfl <;> simp [hslice]

theorem islRate_accepted {s : State} {r : DictReq} {i : Nat} {island : Fin 40} {v : BitVec 16}
    (h : AdmittedWrite s r i (K.islRate island) v.toNat) (hmgr : managerSession s i) (hv : v.toNat = 1600 ∨ v.toNat = 1200 ∨ v.toNat = 800)
    (hslice : isSlice island = true) (hfree : islandClaims s island = []) :
    ∃ t, exec (.islRateWrite r island v) s = .next t ∧ answered t r 0x11 .ok ∧
      Changes [.sess, .resp] (islandApply (renewed s i) island 6 v.toNat) t :=
  areaWrite_unclaimed (row_islRate_slice hslice) (.inl rfl) (by omega) (by decide) h hmgr
    (areaAccess_isl island.isLt (by decide) (isMgr_of hmgr)) (rate_fits hv).1 (rate_fits hv).2
    ((areaCheck_isl island.isLt (by decide)).trans (islandCheck_rate hslice hv))
    ((congrArg Prod.fst (areaClaims_isl island.isLt (by decide))).trans hfree) (areaApply_isl island.isLt (by decide))

theorem islRate_claimed {s : State} {r : DictReq} {i : Nat} {island : Fin 40} {v : BitVec 16}
    (h : AdmittedWrite s r i (K.islRate island) v.toNat) (hmgr : managerSession s i) (hv : v.toNat = 1600 ∨ v.toNat = 1200 ∨ v.toNat = 800)
    (hslice : isSlice island = true) (hclaimed : islandClaims s island ≠ []) :
    ∃ t, exec (.islRateWrite r island v) s = .next t ∧ answered t r 0x11 .claimed ∧
      getN t K.worldRefused = satInc 32 (getN s K.worldRefused) ∧ onlyObjsAndNotes [K.worldRefused] s t :=
  areaWrite_claimed (row_islRate_slice hslice) (.inl rfl) (by omega) (by decide) h hmgr
    (areaAccess_isl island.isLt (by decide) (isMgr_of hmgr)) (rate_fits hv).1 (rate_fits hv).2
    (by rw [areaCheck_isl island.isLt (by decide)]; exact (islandCheck_rate hslice hv).trans_ne (by decide))
    (areaClaims_isl island.isLt (by decide)) hclaimed

/-- What an accepted rate leaves: the rate, and at a change a stop of the clock of at most 2 µs. -/
theorem islandApply_rate (s : State) (i island n : Nat) :
    getN (islandApply (renewed s i) island 6 n) (K.islRate island) = n ∧
    (n ≠ getN s (K.islRate island) → tget (islandApply (renewed s i) island 6 n).rateStop island 0 ≤ s.now + 2000) ∧
    (n = getN s (K.islRate island) → (islandApply (renewed s i) island 6 n).rateStop = s.rateStop) ∧
    onlyObjs [K.islRate island] s (islandApply (renewed s i) island 6 n) ∧
    Changes [.fresh, .objs, .rateStop, .sess, .resp] s (islandApply (renewed s i) island 6 n) := by
  have hrenewed : Changes [.fresh, .objs, .rateStop, .sess, .resp] s (renewed s i) := renewed_changes i (by decide) (Changes.refl _ s)
  by_cases hsame : n = getN s (K.islRate island)
  · have hrun : islandApply (renewed s i) island 6 n = writeN (renewed s i) (K.islRate island) n := if_neg (fun h => h.2 hsame)
    have hch : Changes [.objs] (renewed s i) (writeN (renewed s i) (K.islRate island) n) := writeN_ch (by decide) (Changes.refl _ _)
    rw [hrun]
    exact ⟨getN_writeN _ _ _, fun hne => absurd hsame hne, fun _ => hch.rateStop (by decide),
      onlyObjs_writeN (t := renewed s i) _ (by simp) (onlyObjs_refl _ _), hrenewed.trans (hch.mono (by decide))⟩
  · have hrun : islandApply (renewed s i) island 6 n = writeN (draw { renewed s i with
        rateStop := tset s.rateStop island (s.now + Config.freeNat s.fresh % 2001) }) (K.islRate island) n := if_pos ⟨rfl, hsame⟩
    have hstop : Changes [.fresh, .rateStop] (renewed s i) (draw { renewed s i with
        rateStop := tset s.rateStop island (s.now + Config.freeNat s.fresh % 2001) }) :=
      draw_ch (by decide) (ch_rateStop (Changes.refl _ _) (by decide))
    have hch := writeN_ch (P := [.objs]) (k := K.islRate island) (n := n) (by decide) (Changes.refl _ (draw { renewed s i with
        rateStop := tset s.rateStop island (s.now + Config.freeNat s.fresh % 2001) }))
    rw [hrun]
    refine ⟨getN_writeN _ _ _, fun _ => ?_, fun heq => absurd heq hsame,
      onlyObjs_writeN (t := draw { renewed s i with rateStop := _ }) _ (by simp) (onlyObjs_refl _ _),
      hrenewed.trans ((hstop.mono (by decide)).trans (hch.mono (by decide)))⟩
    rw [hch.rateStop (by decide)]
    refine (tget_tset_same _ _ _ _).trans_le ?_
    have := Nat.mod_lt (Config.freeNat s.fresh) (show 0 < 2001 by decide)
    omega

/-! ## Module time -/

/-- One copy of module time goes to an island. -/
def sendTime (s : State) (i : Nat) : State := { s with islTime := tset s.islTime i (max (tget s.islTime i 0) s.now) }

theorem sendTime_changes (s : State) (i : Nat) : Changes [.islTime] s (sendTime s i) := ch_islTime (Changes.refl _ s) (by decide)

theorem foldN_sendTime (l : List Nat) (s : State) : Changes [.islTime] s (foldN l sendTime s) ∧
    (l.Nodup → ∀ i, tget (foldN l sendTime s).islTime i 0 = if i ∈ l then max (tget s.islTime i 0) s.now else tget s.islTime i 0) := by
  induction l generalizing s with
  | nil => exact ⟨Changes.refl _ s, fun _ i => (if_neg (by simp)).symm⟩
  | cons a l ih =>
    obtain ⟨hch, hval⟩ := ih (sendTime s a)
    refine ⟨(sendTime_changes s a).trans hch, fun hnodup i => ?_⟩
    obtain ⟨hnot, hrest⟩ := List.nodup_cons.1 hnodup
    have hstep : tget (sendTime s a).islTime i 0 = if i = a then max (tget s.islTime a 0) s.now else tget s.islTime i 0 := tget_tset _ _ _ _ _
    refine (hval hrest i).trans ?_
    rw [hstep, show (sendTime s a).now = s.now from rfl]
    by_cases hi : i = a
    · subst hi
      simp [hnot]
    · simp [hi]

theorem exec_timeUpdate (s : State) (master : BitVec 64) : exec (.timeUpdate master) s =
    .next (foldN (numbers 40 (fun i => i != 0 && islandPowered (lockTime s master.toNat) i)) sendTime (lockTime s master.toNat)) := rfl

theorem lockTime_spec (s : State) (n : Nat) : (lockTime s n).now = (if getB s K.timeLocked then max s.now n else s.now) ∧
    Changes [.now] s (lockTime s n) ∧ ∀ i, islandPowered (lockTime s n) i = islandPowered s i := by
  unfold lockTime
  split
  · exact ⟨rfl, ch_now (Changes.refl _ s) (by decide), fun _ => rfl⟩
  · exact ⟨rfl, Changes.refl _ s, fun _ => rfl⟩

theorem timeUpdate_spec (s : State) (master : BitVec 64) : ∃ t, exec (.timeUpdate master) s = .next t ∧
    t.now = (if getB s K.timeLocked then max s.now master.toNat else s.now) ∧
    (∀ i, 0 < i → i < 40 → tget t.islTime i 0 = if islandPowered s i then max (tget s.islTime i 0) t.now else tget s.islTime i 0) ∧
    Changes [.now, .islTime] s t := by
  obtain ⟨hnow, hlock, hpower⟩ := lockTime_spec s master.toNat
  obtain ⟨hsend, hval⟩ := foldN_sendTime (numbers 40 (fun i => i != 0 && islandPowered (lockTime s master.toNat) i)) (lockTime s master.toNat)
  have hkept := hsend.now (by decide)
  refine ⟨_, exec_timeUpdate s master, hkept.trans hnow, fun i hlo hhi => ?_, (hlock.mono (by decide)).trans (hsend.mono (by decide))⟩
  rw [hval (List.nodup_range.filter _) i, hkept, hlock.islTime (by decide)]
  refine if_congr ?_ rfl rfl
  simp [numbers, hpower, hhi, Nat.ne_of_gt hlo]

/-! ## A unit's test again (R477) -/

theorem unit_fits (v : BitVec 16) : fitsTy .u16 v.toNat = true ∧
    ([((0 : Int), (65535 : Int))]).any (fun e => decide (e.1 ≤ measureOf .u16 (.num v.toNat) ∧ measureOf .u16 (.num v.toNat) ≤ e.2)) = true :=
  ⟨decide_eq_true v.isLt, AreaWrites.inRange_single (lo := 0) (hi := 65535) rfl (Nat.zero_le _) (by have := v.isLt; omega)⟩

theorem retestCheck_ok {s : State} {v : Nat} (hmem : v / 256 ∈ classUnits (v % 256))
    (hstate : unitState s (v % 256) (v / 256) = unitRetired ∨ unitState s (v % 256) (v / 256) = unitFailed)
    (hidle : substRuns s (v % 256) = false) : retestCheck s v = .ok := by
  have hcontains : (classUnits (v % 256)).contains (v / 256) = true := List.contains_iff_mem.2 hmem
  unfold retestCheck
  rcases hstate with h | h <;> simp only [hcontains, h, hidle] <;> rfl

theorem retestCheck_range {s : State} {v : Nat} (hstate : unitState s (v % 256) (v / 256) = unitInService) : retestCheck s v = .range := by
  unfold retestCheck
  dsimp only
  rw [hstate]
  simp [unitInService]

theorem retest_accepted {s : State} {r : DictReq} {i : Nat} {v : BitVec 16} (passes : Bool) (h : AdmittedWrite s r i K.grogRetest v.toNat)
    (hmgr : managerSession s i) (hmem : v.toNat / 256 ∈ classUnits (v.toNat % 256))
    (hstate : unitState s (v.toNat % 256) (v.toNat / 256) = unitRetired ∨ unitState s (v.toNat % 256) (v.toNat / 256) = unitFailed)
    (hidle : substRuns s (v.toNat % 256) = false) :
    ∃ t, exec (.grogRetest r v passes) s = .next t ∧ answered t r 0x11 .ok ∧
      Changes [.sess, .resp] (retestApply (renewed s i) v.toNat passes) t := by
  have hfound : (b2n passes != 0) = passes := by cases passes <;> rfl
  refine areaWrite_unclaimed (found := some (b2n passes)) row_grogRetest (.inr rfl) (by decide) (by decide) h hmgr (areaAccess_retest (isMgr_of hmgr))
    (unit_fits v).1 (unit_fits v).2 (areaCheck_retest.trans (retestCheck_ok hmem hstate hidle)) (congrArg Prod.fst areaClaims_retest) ?_
  rw [areaApply_retest]
  show accepted (retestApply (renewed s i) v.toNat (b2n passes != 0)) = _
  rw [hfound]

theorem retest_range {s : State} {r : DictReq} {i : Nat} {v : BitVec 16} (passes : Bool) (h : AdmittedWrite s r i K.grogRetest v.toNat)
    (hmgr : managerSession s i) (hstate : unitState s (v.toNat % 256) (v.toNat / 256) = unitInService) :
    ∃ t, exec (.grogRetest r v passes) s = .next t ∧ answered t r 0x11 .range ∧ Changes [.fresh, .sess, .resp] s t :=
  areaWrite_refused (found := some (b2n passes)) row_grogRetest (.inr rfl) (by decide) (by decide) h (.inl hmgr)
    (areaAccess_retest (isMgr_of hmgr)) (unit_fits v).1 (unit_fits v).2 (areaCheck_retest.trans (retestCheck_range hstate))
    (.inr rfl) (by decide) (by decide)

/-- A new generation leaves the map of spares, the rows and the log's number. -/
theorem advanceGen_grog (s : State) (cls u : Nat) :
    SameMaps s.grog (advanceGen s cls u).1.grog ∧ (advanceGen s cls u).1.grog.seq = s.grog.seq := by
  unfold advanceGen
  split
  · exact ⟨.refl _, rfl⟩
  · split
    · exact ⟨.refl _, rfl⟩
    · split
      · exact ⟨.refl _, rfl⟩
      · exact ⟨⟨rfl, rfl, rfl, rfl, rfl⟩, rfl⟩

/-- An entry of the log, where its row can be written. -/
theorem grogLog_seq {s : State} (hclean : s.grog.badRows = []) (cls kind unit spare cause detail gen : Nat) :
    (grogLog s cls kind unit spare cause detail gen).grog.seq = (s.grog.seq + 1) % 2 ^ 32 := by
  unfold grogLog modGrog
  simp only [hclean, List.contains_nil, Bool.false_eq_true, if_false]
  rfl

theorem retestApply_fails {s : State} (v : Nat) (hclean : s.grog.badRows = []) :
    (retestApply s v false).grog.units = s.grog.units ∧ (retestApply s v false).grog.seq = (s.grog.seq + 1) % 2 ^ 32 := by
  obtain ⟨⟨hunits, -, -, -, hbad⟩, hseq⟩ := advanceGen_grog s (v % 256) (v / 256)
  have hrun : retestApply s v false = grogLog (advanceGen s (v % 256) (v / 256)).1 (v % 256) 5 (v / 256) 0xFFFF 4 0 0 := rfl
  rw [hrun]
  exact ⟨(sameMaps_grogLog _ _ _ _ _ _ _ _).1.trans hunits, (grogLog_seq (hbad.trans hclean) _ _ _ _ _ _ _).trans (by rw [hseq])⟩

theorem unitReturns_units (s : State) (cls u : Nat) : (unitReturns s cls u).grog.units = tset s.grog.units (unitKey cls u) unitSpare := by
  unfold unitReturns
  dsimp only
  split
  · rfl
  · split
    · rfl
    · split <;> rfl

theorem retestApply_passes_eq (s : State) (v : Nat) : retestApply s v true =
    updateHealth (grogLog (unitReturns (advanceGen s (v % 256) (v / 256)).1 (v % 256) (v / 256)) (v % 256) 4 (v / 256) 0xFFFF 4 0
      (advanceGen s (v % 256) (v / 256)).2) := by
  unfold retestApply
  exact if_pos rfl

theorem retestApply_spare (s : State) (v : Nat) : unitState (retestApply s v true) (v % 256) (v / 256) = unitSpare := by
  have hunits := ((sameMaps_grogLog (unitReturns (advanceGen s (v % 256) (v / 256)).1 (v % 256) (v / 256)) (v % 256) 4 (v / 256) 0xFFFF 4 0
    (advanceGen s (v % 256) (v / 256)).2).trans (sameMaps_updateHealth _)).1
  unfold unitState
  rw [retestApply_passes_eq, hunits, unitReturns_units]
  exact tget_tset_same _ _ _ _

theorem getN_coreGen_returns (s : State) {u : Nat} (hu : u < 36) : getN (unitReturns s clsCore u) (K.coreGen u) = getN s (K.coreGen u) := by
  have hrun : unitReturns s clsCore u = countCores (putN (modGrog (setUnit s clsCore u unitSpare) (fun g =>
      { g with repl := tdel g.repl (unitKey clsCore u) })) (K.coreState u) 0) := rfl
  have hne : K.coreGen u ≠ K.gpuSpare ∧ K.coreGen u ≠ K.gpuActive ∧ K.coreGen u ≠ K.coreState u := by
    simp only [K.coreGen, K.gpuSpare, K.gpuActive, K.coreState, objKey]
    omega
  rw [hrun]
  unfold countCores
  rw [getN_putN_ne _ _ hne.1, getN_putN_ne _ _ hne.2.1, getN_putN_ne _ _ hne.2.2]
  rfl

theorem coreGen_apart {u : Nat} (hu : u < 36) : K.coreGen u ∉ healthKeys ∧ ¬ noteKey (K.coreGen u) := by
  constructor
  · rw [healthKeys, List.mem_cons, List.mem_map]
    rintro (h | ⟨j, hj, h⟩)
    · simp only [K.coreGen, K.healthModule, objKey] at h
      omega
    · have hj := List.mem_range.1 hj
      simp only [K.coreGen, K.healthSub, objKey] at h
      omega
  · simp only [noteKey, K.coreGen, K.dictNotifyDrop, K.regVoteFix, K.regVoteBad, K.kaolinCanDrop, K.logOut, objKey]
    omega

theorem retestApply_coreGen (s : State) {v : Nat} (hcls : v % 256 = clsCore) (hu : v / 256 < 36) :
    getN (retestApply s v true) (K.coreGen (v / 256)) = (getN s (K.coreGen (v / 256)) + 1) % 65536 := by
  obtain ⟨hhealth, hnote⟩ := coreGen_apart hu
  rw [retestApply_passes_eq, hcls]
  refine (congrArg Val.toNat (ModeFrame.updateHealth_objs _ _ hhealth hnote).1).trans ?_
  refine (getN_of_changes (grogLog_ch (P := [.grog]) (by decide) (Changes.refl _ _)) (by decide) hnote).trans ?_
  refine (getN_coreGen_returns _ hu).trans ?_
  exact getN_putN s _ _

/-! ## Diagnostics -/

theorem diagCheck_ok {s : State} {v : Bool} (h : v = false ∨ pwrMode s = 1) : diagCheck s (b2n v) = .ok := by
  refine if_neg ?_
  rintro ⟨hv, hmode⟩
  rcases h with rfl | h
  · exact absurd hv (by decide)
  · simp [inMode, h] at hmode

theorem diagCheck_busy {s : State} (h : pwrMode s ≠ 1) : diagCheck s 1 = .busy := if_pos ⟨rfl, by simp [inMode, h]⟩

theorem diagApply_spec (s : State) (v : Bool) : getB (diagApply s (b2n v)) K.diagEnable = v ∧ onlyObjs [K.diagEnable] s (diagApply s (b2n v)) ∧
    Changes [.fresh, .objs, .grog] s (diagApply s (b2n v)) := by
  have hwrite : Changes [.fresh, .objs, .grog] s (writeN s K.diagEnable (b2n v)) := writeN_ch (by decide) (Changes.refl _ s)
  have honly : onlyObjs [K.diagEnable] s (writeN s K.diagEnable (b2n v)) := onlyObjs_writeN _ (by simp) (onlyObjs_refl _ s)
  cases v with
  | false => exact ⟨getB_writeN s K.diagEnable false, honly, hwrite⟩
  | true =>
    obtain ⟨s', a, b, c, d, e, f, g, hs', hrun⟩ : ∃ s' a b c d e f g, s' = writeN s K.diagEnable 1 ∧
        diagApply s 1 = grogLog { s' with fresh := s'.fresh + 7 } a b c d e f g := ⟨_, _, _, _, _, _, _, _, rfl, rfl⟩
    have hlog : Changes [.fresh, .grog] s' (diagApply s 1) := by
      rw [hrun]
      exact grogLog_ch (by decide) (ch_fresh (Changes.refl _ s') (by decide))
    rw [hs'] at hlog
    exact ⟨(hlog.getB (by decide) (by decide) _).trans (getB_writeN s K.diagEnable true),
      onlyObjs_trans honly (hlog.only (by decide) (by decide) _), hwrite.trans (hlog.mono (by decide))⟩

/-- Settles O59: the islands' objects by their area's rule, module time by what its copies take, a unit's test again by the generation and
the map, a row by where wear levelling puts the write. -/
theorem clocksAndSpares : Obligations.ClocksAndSpares := by
  unfold Obligations.ClocksAndSpares
  refine ⟨⟨?gate, ?rate, timeUpdate_spec⟩, ?retest, ?row, ?diag⟩
  case gate =>
    refine fun s r i island v h hmgr => ⟨fun hok hfree => ?_, islGate_range h hmgr, islGate_claimed h hmgr⟩
    obtain ⟨t, hrun, hans, hch⟩ := islGate_accepted h hmgr hok hfree
    have hwrite : Changes [.objs, .sess, .resp] s (writeN (renewed s i) (K.islGate island) (b2n v)) :=
      writeN_ch (by decide) (renewed_changes i (by decide) (Changes.refl _ s))
    exact ⟨t, hrun, hans, (hch.getB (by decide) (by decide) _).trans (getB_writeN _ _ v),
      onlyObjs_trans (onlyObjs_writeN (t := renewed s i) _ (by simp) (onlyObjs_refl _ _)) (hch.only (by decide) (by decide) _),
      hwrite.trans (hch.mono (by decide))⟩
  case rate =>
    refine fun s r i island v h hmgr hv => ⟨fun hslice hfree => ?_, fun hslice => islRate_claimed h hmgr hv hslice, fun hslice =>
      writeObject_noobj (key_lt (by omega) (by decide)) h (lookup_islRate_none hslice)⟩
    obtain ⟨t, hrun, hans, hch⟩ := islRate_accepted h hmgr hv hslice hfree
    obtain ⟨hrate, hstop, hkept, honly, hchanges⟩ := islandApply_rate s i island v.toNat
    have hvalue : getN t (K.islRate island) = v.toNat := (hch.getN (by decide) (by decide) _).trans hrate
    have hall := hchanges.trans (hch.mono (by decide))
    refine ⟨t, hrun, hans, hvalue, ?_, fun hne => ?_, fun heq => ?_, onlyObjs_trans honly (hch.only (by decide) (by decide) _), hall⟩
    · unfold sliceClock thermalClock
      rw [hvalue, hall.power (by decide)]
    · rw [hch.rateStop (by decide)]
      exact hstop hne
    · rw [hch.rateStop (by decide)]
      exact hkept heq
  case retest =>
    refine fun s r i v passes h hmgr hmem => ⟨fun hstate hidle hclean => ⟨?_, ?_⟩, retest_range passes h hmgr⟩
    · obtain ⟨t, hrun, hans, hch⟩ := retest_accepted true h hmgr hmem hstate hidle
      refine ⟨t, hrun, hans, ?_, fun hcls => ?_⟩
      · unfold unitState
        rw [hch.grog (by decide)]
        exact retestApply_spare (renewed s i) v.toNat
      · have hu : v.toNat / 256 < 36 := by
          rw [hcls] at hmem
          exact List.mem_range.1 hmem
        exact (hch.getN (by decide) (by decide) _).trans (retestApply_coreGen (renewed s i) hcls hu)
    · obtain ⟨t, hrun, hans, hch⟩ := retest_accepted false h hmgr hmem hstate hidle
      refine ⟨t, hrun, hans, ?_⟩
      rw [hch.grog (by decide)]
      exact retestApply_fails (s := renewed s i) v.toNat hclean
  case row =>
    rintro s bank row bad l q rfl rfl
    refine ⟨levelled_home_or_free _ _, fun f hf hfree harea hsame hlt => levelled_ne_home hf hfree harea hsame hlt, fun hbad => ?_,
      fun hbad hfree => ?_, fun hbad hnone => ?_⟩
    · exact ⟨_, rfl, mramWriteRow_good s bank row hbad⟩
    · exact ⟨_, rfl, mramWriteRow_spared s bank row hbad hfree⟩
    · exact ⟨_, rfl, mramWriteRow_unwritable s bank row hbad hnone⟩
  case diag =>
    refine fun s r i v h hmgr => ⟨fun hok => ?_, fun hv hmode => ?_⟩
    · obtain ⟨t, hrun, hans, hch⟩ := areaWrite_unclaimed (found := none) row_diagEnable (.inl rfl) (by decide) (by decide) h hmgr
        (areaAccess_diag (isMgr_of hmgr)) (bool_fits v).1 (bool_fits v).2 (areaCheck_diag.trans (diagCheck_ok hok))
        (congrArg Prod.fst areaClaims_diag) areaApply_diag
      obtain ⟨hvalue, honly, hdiag⟩ := diagApply_spec (renewed s i) v
      have hrenewed : Changes [.fresh, .objs, .grog, .sess, .resp] s (renewed s i) := renewed_changes i (by decide) (Changes.refl _ s)
      exact ⟨t, hrun, hans, (hch.getB (by decide) (by decide) _).trans hvalue,
        onlyObjs_trans honly (hch.only (by decide) (by decide) _), (hrenewed.trans (hdiag.mono (by decide))).trans (hch.mono (by decide))⟩
    · subst hv
      exact areaWrite_refused row_diagEnable (.inl rfl) (by decide) (by decide) h (.inl hmgr)
        (areaAccess_diag (isMgr_of hmgr)) (bool_fits true).1 (bool_fits true).2 (areaCheck_diag.trans (diagCheck_busy hmode))
        (.inl (congrArg Prod.fst areaClaims_diag)) (by decide) (by decide)

end Sys2Proof.Proofs.ClocksAndSpares

/-!
PROOFS. Words of module memory: the code (R253, R254), what a word holds after a store, and byte writes to a calm memory (R257).
-/

namespace Sys2Proof.Proofs.WordStore

open Sys2Proof.Machine

/-! ## Bytes of a number -/

theorem ofLe_lt (b : List Byte) : ofLe b < 256 ^ b.length := by
  induction b with
  | nil => decide
  | cons x r ih =>
    have hx := x.isLt
    rw [ofLe, List.length_cons, Nat.pow_succ]
    omega

theorem leBytes_ofLe (b : List Byte) : leBytes b.length (ofLe b) = b := by
  induction b with
  | nil => rfl
  | cons x r ih =>
    have hx := x.isLt
    have hhead : BitVec.ofNat 8 (x.toNat + 256 * ofLe r) = x := by
      apply BitVec.eq_of_toNat_eq
      rw [BitVec.toNat_ofNat]
      omega
    have htail : (x.toNat + 256 * ofLe r) / 256 = ofLe r := by omega
    rw [ofLe, List.length_cons, leBytes, hhead, htail, ih]

theorem leBytes_take (w k n : Nat) : (leBytes (w + k) n).take w = leBytes w n := by
  induction w generalizing n with
  | zero => rfl
  | succ w ih =>
    rw [Nat.add_right_comm, leBytes, leBytes, List.take_succ_cons, ih]

theorem leBytes_add_mul (w n m : Nat) : leBytes w (n + 256 ^ w * m) = leBytes w n := by
  induction w generalizing n with
  | zero => rfl
  | succ w ih =>
    have hpow : 256 ^ (w + 1) * m = 256 * (256 ^ w * m) := by rw [Nat.pow_succ]; ring
    have hdiv : (n + 256 ^ (w + 1) * m) / 256 = n / 256 + 256 ^ w * m := by rw [hpow]; omega
    have hmod : BitVec.ofNat 8 (n + 256 ^ (w + 1) * m) = BitVec.ofNat 8 n := by
      apply BitVec.eq_of_toNat_eq
      rw [BitVec.toNat_ofNat, BitVec.toNat_ofNat, hpow]
      omega
    rw [leBytes, leBytes, hdiv, hmod, ih]

/-! ## The code -/

/-- What the data symbols of a word add to its syndrome. -/
def dataSyndrome (w : Nat) : Nat := (List.range 32).foldl (fun s i => s ^^^ gfColumn (eccColumn16 i) (symbolOf w i)) 0

theorem gfMul_lt {a b : Nat} (ha : a < 16) (hb : b < 16) : gfMul a b < 16 := by
  have h : ∀ a < 16, ∀ b < 16, gfMul a b < 16 := by decide
  exact h a ha b hb

theorem gfColumn_lt (col : Nat) {e : Nat} (he : e < 16) : gfColumn col e < 2 ^ 16 := by
  have h (k : Nat) : gfMul (k % 16) e < 16 := gfMul_lt (Nat.mod_lt _ (by decide)) he
  have h₀ := h col
  have h₁ := h (col / 16)
  have h₂ := h (col / 256)
  have h₃ := h (col / 4096)
  unfold gfColumn
  omega

/-- The column of a check symbol is a unit vector. -/
theorem gfColumn_check {j v : Nat} (hj : j < 4) (hv : v < 16) : gfColumn (eccColumn16 (32 + j)) v = v * 2 ^ (4 * j) := by
  have hcol : eccColumn16 (32 + j) = 2 ^ (4 * j) := by
    unfold eccColumn16 eccColumnOf
    rw [if_neg (by omega), if_pos (by omega), Nat.add_sub_cancel_left]
  have h : ∀ j < 4, ∀ v < 16, gfColumn (2 ^ (4 * j)) v = v * 2 ^ (4 * j) := by decide
  rw [hcol]
  exact h j hj v hv

theorem symbolOf_lt (w i : Nat) : symbolOf w i < 16 := Nat.mod_lt _ (by decide)

theorem foldl_xor_lt {f : Nat → Nat} (hf : ∀ i, f i < 2 ^ 16) (l : List Nat) {s : Nat} (hs : s < 2 ^ 16) :
    l.foldl (fun s i => s ^^^ f i) s < 2 ^ 16 := by
  induction l generalizing s with
  | nil => exact hs
  | cons i l ih => exact ih (Nat.xor_lt_two_pow hs (hf i))

theorem dataSyndrome_lt (w : Nat) : dataSyndrome w < 2 ^ 16 :=
  foldl_xor_lt (fun i => gfColumn_lt _ (symbolOf_lt w i)) _ (by decide)

theorem testBit_nibble (c k i : Nat) : (c / 2 ^ (4 * k) % 16 * 2 ^ (4 * k)).testBit i =
    (decide (4 * k ≤ i) && decide (i < 4 * k + 4) && c.testBit i) := by
  rw [Nat.mul_comm, Nat.testBit_two_pow_mul, show (16 : Nat) = 2 ^ 4 from rfl, Nat.testBit_mod_two_pow, Nat.testBit_div_two_pow]
  by_cases hk : 4 * k ≤ i
  · have hlt : (i - 4 * k < 4) ↔ (i < 4 * k + 4) := by omega
    rw [Nat.sub_add_cancel hk]
    simp [hk, hlt]
  · simp [hk]

/-- The four check symbols, each at its place, are the check bits. -/
theorem nibbles_xor {c : Nat} (hc : c < 2 ^ 16) :
    c / 2 ^ (4 * 0) % 16 * 2 ^ (4 * 0) ^^^ c / 2 ^ (4 * 1) % 16 * 2 ^ (4 * 1) ^^^ c / 2 ^ (4 * 2) % 16 * 2 ^ (4 * 2) ^^^
      c / 2 ^ (4 * 3) % 16 * 2 ^ (4 * 3) = c := by
  apply Nat.eq_of_testBit_eq
  intro i
  rw [Nat.testBit_xor, Nat.testBit_xor, Nat.testBit_xor, testBit_nibble, testBit_nibble, testBit_nibble, testBit_nibble]
  by_cases hi : i < 16
  · interval_cases i <;> simp
  · have hbit : c.testBit i = false := Nat.testBit_lt_two_pow (Nat.lt_of_lt_of_le hc (Nat.pow_le_pow_right (by decide) (by omega)))
    simp [hbit]

theorem symbolOf_check (w j : Nat) : symbolOf w (32 + j) = w / 2 ^ 128 / 2 ^ (4 * j) % 16 := by
  unfold symbolOf
  rw [Nat.mul_add, Nat.pow_add, Nat.div_div_eq_div_mul]

theorem syndrome_eq {w : Nat} (hw : w / 2 ^ 128 < 2 ^ 16) : syndrome w = dataSyndrome w ^^^ w / 2 ^ 128 := by
  have hlist : List.range 36 = List.range 32 ++ [32 + 0, 32 + 1, 32 + 2, 32 + 3] := by decide
  have hterm {j : Nat} (hj : j < 4) : gfColumn (eccColumn16 (32 + j)) (symbolOf w (32 + j)) =
      w / 2 ^ 128 / 2 ^ (4 * j) % 16 * 2 ^ (4 * j) := by
    rw [gfColumn_check hj (symbolOf_lt w _), symbolOf_check]
  unfold syndrome
  rw [hlist, List.foldl_append]
  simp only [List.foldl_cons, List.foldl_nil]
  rw [hterm (by decide), hterm (by decide), hterm (by decide), hterm (by decide), Nat.xor_assoc, Nat.xor_assoc, Nat.xor_assoc]
  have h := nibbles_xor hw
  rw [Nat.xor_assoc, Nat.xor_assoc] at h
  rw [h]
  rfl

theorem symbolOf_data (d c : Nat) {i : Nat} (hi : i < 32) : symbolOf (d + 2 ^ 128 * c) i = symbolOf d i := by
  have hsplit : 2 ^ 128 * c = 2 ^ (4 * i) * (16 * (2 ^ (4 * (31 - i)) * c)) := by
    rw [show 128 = 4 * i + (4 + 4 * (31 - i)) by omega, Nat.pow_add, Nat.pow_add]
    ring
  unfold symbolOf
  rw [hsplit, Nat.add_mul_div_left _ _ (Nat.two_pow_pos _), Nat.add_mul_mod_self_left]

theorem dataSyndrome_data (d c : Nat) : dataSyndrome (d + 2 ^ 128 * c) = dataSyndrome d := by
  have h : ∀ (l : List Nat) (s : Nat), (∀ i ∈ l, i < 32) →
      l.foldl (fun s i => s ^^^ gfColumn (eccColumn16 i) (symbolOf (d + 2 ^ 128 * c) i)) s =
        l.foldl (fun s i => s ^^^ gfColumn (eccColumn16 i) (symbolOf d i)) s := by
    intro l
    induction l with
    | nil => exact fun _ _ => rfl
    | cons i l ih =>
      intro s hl
      rw [List.foldl_cons, List.foldl_cons, symbolOf_data d c (hl i List.mem_cons_self)]
      exact ih _ (fun j hj => hl j (List.mem_cons_of_mem i hj))
  exact h _ 0 (fun i hi => List.mem_range.1 hi)

/-- The code word of 16 data bytes: its parts, and that it decodes as clean. -/
theorem syndrome_of_data {d : Nat} (hd : d < 2 ^ 128) : syndrome d = dataSyndrome d := by
  rw [syndrome_eq (by omega), Nat.div_eq_of_lt hd, Nat.xor_zero]

theorem encodeWord_mod {d : Nat} (hd : d < 2 ^ 128) : encodeWord d % 2 ^ 128 = d := by
  unfold encodeWord
  omega

theorem encodeWord_div {d : Nat} (hd : d < 2 ^ 128) : encodeWord d / 2 ^ 128 = dataSyndrome d := by
  unfold encodeWord
  rw [syndrome_of_data hd]
  omega

theorem encodeWord_lt {d : Nat} (hd : d < 2 ^ 128) : encodeWord d < 2 ^ 144 := by
  have hsyn := dataSyndrome_lt d
  unfold encodeWord
  rw [syndrome_of_data hd]
  omega

theorem decodeWord_encodeWord {d : Nat} (hd : d < 2 ^ 128) : decodeWord (encodeWord d) = .clean := by
  have hdiv := encodeWord_div hd
  have hzero : syndrome (encodeWord d) = 0 := by
    rw [syndrome_eq (by rw [hdiv]; exact dataSyndrome_lt d), hdiv, encodeWord, dataSyndrome_data, Nat.xor_self]
  exact if_pos hzero

/-! ## What a word holds -/

theorem memGetAll_append (m : Memory) (a n k : Nat) : memGetAll m a (n + k) = memGetAll m a n ++ memGetAll m (a + n) k := by
  induction n generalizing a with
  | zero => simp [memGetAll]
  | succ n ih =>
    rw [Nat.add_right_comm, memGetAll, memGetAll, ih, Nat.add_right_comm, Nat.add_assoc]
    rfl

theorem memGetAll_congr_range {m m' : Memory} {a n : Nat} (h : ∀ k, a ≤ k → k < a + n → memGet m k = memGet m' k) :
    memGetAll m a n = memGetAll m' a n := by
  induction n generalizing a with
  | zero => rfl
  | succ n ih =>
    rw [memGetAll, memGetAll, h a (by omega) (by omega), ih (fun k hlo hhi => h k (by omega) (by omega))]

theorem memGetAll_getElem (m : Memory) (a n : Nat) {i : Nat} (hi : i < (memGetAll m a n).length) : (memGetAll m a n)[i] = memGet m (a + i) := by
  induction n generalizing a i with
  | zero => exact absurd hi (by simp [memGetAll])
  | succ n ih =>
    cases i with
    | zero => rfl
    | succ i =>
      simp only [memGetAll, List.getElem_cons_succ]
      rw [ih (a + 1) (by simpa [memGetAll] using hi), Nat.add_right_comm, Nat.add_assoc]

theorem ofLe_append (b c : List Byte) : ofLe (b ++ c) = ofLe b + 256 ^ b.length * ofLe c := by
  induction b with
  | nil => simp [ofLe]
  | cons x r ih =>
    rw [List.cons_append, ofLe, ofLe, ih, List.length_cons, Nat.pow_succ]
    ring

/-- The 16 data bytes of a word. -/
def wordBytes (s : State) (r word : Nat) : List Byte := memGetAll s.dram (dramKey r word 0) 16

theorem length_wordBytes (s : State) (r word : Nat) : (wordBytes s r word).length = 16 := memGetAll_length _ _ _

theorem storedWord_lt (s : State) (r word : Nat) : storedWord s r word < 2 ^ 144 := by
  have h := ofLe_lt (memGetAll s.dram (dramKey r word 0) 18)
  rw [memGetAll_length] at h
  exact Nat.lt_of_lt_of_le h (by decide)

theorem ofLe_wordBytes (s : State) (r word : Nat) : ofLe (wordBytes s r word) = storedWord s r word % 2 ^ 128 := by
  have hlt := ofLe_lt (wordBytes s r word)
  rw [length_wordBytes] at hlt
  have hsplit : storedWord s r word = ofLe (wordBytes s r word) + 256 ^ 16 * ofLe (memGetAll s.dram (dramKey r word 0 + 16) 2) := by
    have happ := ofLe_append (wordBytes s r word) (memGetAll s.dram (dramKey r word 0 + 16) 2)
    rw [length_wordBytes] at happ
    rw [← happ]
    exact congrArg ofLe (memGetAll_append s.dram (dramKey r word 0) 16 2)
  rw [hsplit, show (2 : Nat) ^ 128 = 256 ^ 16 by decide, Nat.add_mul_mod_self_left, Nat.mod_eq_of_lt hlt]

/-- Two words lie apart where their ranks' words are different ones. -/
theorem storedWord_of_dram {s t : State} (h : t.dram = s.dram) (r word : Nat) : storedWord t r word = storedWord s r word := by
  unfold storedWord
  rw [h]

theorem storedWord_storeWord (s : State) (r word : Nat) {x : Nat} (hx : x < 2 ^ 144) : storedWord (storeWord s r word x) r word = x := by
  have hread := memGetAll_memSetAll s.dram (dramKey r word 0) (leBytes 18 x)
  rw [length_leBytes] at hread
  refine (congrArg ofLe hread).trans (ofLe_leBytes 18 x (Nat.lt_of_lt_of_le hx (by decide)))

theorem storedWord_storeWord_ne (s : State) {r word r' word' : Nat} (x : Nat) (h : r' * 2 ^ 30 + word' ≠ r * 2 ^ 30 + word) :
    storedWord (storeWord s r word x) r' word' = storedWord s r' word' := by
  refine congrArg ofLe (memGetAll_congr_range fun k hlo hhi => memGet_memSetAll_outside _ _ _ ?_)
  rw [length_leBytes]
  unfold dramKey at *
  omega

/-- The place of a byte of a rank in the stored image. -/
def bytePlace (r a : Nat) : Nat := dramKey r (a / 16) 0 + a % 16

theorem memGet_storeWord_other (s : State) (r word x : Nat) {a : Nat} (h : a < dramKey r word 0 ∨ dramKey r word 0 + 18 ≤ a) :
    memGet (storeWord s r word x).dram a = memGet s.dram a :=
  memGet_memSetAll_outside _ _ _ (by rw [length_leBytes]; exact h)

/-- The data bytes of a word that was stored with its code. -/
theorem wordBytes_storeWord (s : State) (r word : Nat) {b : List Byte} (hb : b.length = 16) :
    wordBytes (storeWord s r word (encodeWord (ofLe b))) r word = b := by
  have hlt := ofLe_lt b
  rw [hb] at hlt
  have hread := memGetAll_memSetAll s.dram (dramKey r word 0) (leBytes 18 (encodeWord (ofLe b)))
  rw [length_leBytes, show 18 = 16 + 2 from rfl, memGetAll_append] at hread
  have htake := congrArg (List.take 16) hread
  rw [List.take_left' (memGetAll_length _ _ _), leBytes_take, encodeWord, show (2 : Nat) ^ 128 = 256 ^ 16 by decide, leBytes_add_mul] at htake
  refine htake.trans ?_
  rw [← hb]
  exact leBytes_ofLe b

/-! ## Writing to a calm memory (R257) -/

/-- A word of a calm memory written whole. -/
def wordPut (s : State) (r word d : Nat) : State :=
  storeWord (modMem s (fun m => { m with injected := m.injected.filter (· ≠ r * rankWords + word) })) r word (encodeWord d)

theorem wordPut_changes (s : State) (r word d : Nat) : Changes [.dram, .mem] s (wordPut s r word d) :=
  storeWord_ch (by decide) (ch_mem (Changes.refl _ s) (by decide))

theorem writeWord_calm {s : State} (hcalm : CalmMemory s) (r word d : Nat) : writeWord s r word d = wordPut s r word d := by
  have harm : ¬ (getB s K.memInjArm = true ∧ getN s K.memInjRank = r ∧ 0 < s.mem.injLeft) := by simp [hcalm.arm]
  have hin : writeWordIn s r word d = wordPut s r word d := if_neg harm
  have hmigr : (wordPut s r word d).mem.migr = none := hcalm.migr
  unfold writeWord
  rw [hin]
  simp only [hmigr]

theorem storedWord_wordPut (s : State) (r word d r' word' : Nat) (hd : d < 2 ^ 128) :
    storedWord (wordPut s r word d) r' word' = if r' * 2 ^ 30 + word' = r * 2 ^ 30 + word then encodeWord d else storedWord s r' word' := by
  split
  · next h =>
    have hkey : dramKey r' word' 0 = dramKey r word 0 := by
      unfold dramKey
      rw [h]
    have hsame := storedWord_storeWord (modMem s (fun m => { m with injected := m.injected.filter (· ≠ r * rankWords + word) })) r word
      (encodeWord_lt hd)
    unfold storedWord at hsame ⊢
    rw [hkey]
    exact hsame
  · next h => exact storedWord_storeWord_ne (modMem s _) _ h

theorem calm_wordPut {s : State} (hcalm : CalmMemory s) (r word : Nat) {d : Nat} (hd : d < 2 ^ 128) : CalmMemory (wordPut s r word d) where
  migr := hcalm.migr
  arm := hcalm.arm
  injected := by
    show s.mem.injected.filter _ = []
    rw [hcalm.injected]
    rfl
  clean r' word' := by
    rw [storedWord_wordPut s r word d r' word' hd]
    split
    · exact decodeWord_encodeWord hd
    · exact hcalm.clean r' word'

theorem readFrom_calm {s : State} (hcalm : CalmMemory s) (r word : Nat) : readFrom s r word = r := by
  unfold readFrom
  rw [hcalm.migr]

/-- A read without noise of a word that decodes as clean. -/
theorem readWord_clean {s : State} {r word : Nat} (n2 source : Nat) (hinj : r * rankWords + word ∉ s.mem.injected)
    (hclean : decodeWord (storedWord s r word) = .clean) :
    readWord s r word 0 n2 source = (s, some (storedWord s r word % 2 ^ 128)) := by
  have hno : s.mem.injected.contains (r * rankWords + word) = false := by simpa using hinj
  unfold readWord
  simp only [hno, Nat.xor_zero, hclean, Bool.false_eq_true, if_false]

theorem fetchWord_calm {s : State} (hcalm : CalmMemory s) (r word : Nat) :
    fetchWord s r word = (s, some (storedWord s r word % 2 ^ 128)) := by
  unfold fetchWord
  rw [readFrom_calm hcalm]
  exact readWord_clean 0 1 (by simp [hcalm.injected]) (hcalm.clean r word)

/-- The 16 bytes of a word with some of them replaced. -/
def merged (s : State) (r word lo : Nat) (b : List Byte) : List Byte :=
  (wordBytes s r word).take lo ++ b ++ (wordBytes s r word).drop (lo + b.length)

theorem length_merged (s : State) (r word : Nat) {lo : Nat} {b : List Byte} (h : lo + b.length ≤ 16) : (merged s r word lo b).length = 16 := by
  simp only [merged, List.length_append, List.length_take, List.length_drop, length_wordBytes]
  omega

theorem merged_getD (s : State) (r word : Nat) {lo : Nat} {b : List Byte} (h : lo + b.length ≤ 16) {j : Nat} (hj : j < 16) :
    (merged s r word lo b).getD j 0 = if lo ≤ j ∧ j < lo + b.length then b.getD (j - lo) 0 else memGet s.dram (dramKey r word 0 + j) := by
  have hold {i : Nat} (hi : i < 16) : (wordBytes s r word)[i]? = some (memGet s.dram (dramKey r word 0 + i)) := by
    rw [List.getElem?_eq_getElem (by rw [length_wordBytes]; exact hi)]
    exact congrArg some (memGetAll_getElem _ _ _ _)
  have htake : ((wordBytes s r word).take lo).length = lo := by
    rw [List.length_take, length_wordBytes]
    omega
  unfold merged
  rw [List.getD_eq_getElem?_getD, List.getD_eq_getElem?_getD]
  by_cases hlo : j < lo
  · rw [if_neg (by omega), List.append_assoc, List.getElem?_append_left (by omega), List.getElem?_take_of_lt hlo, hold hj]
    rfl
  · by_cases hhi : j < lo + b.length
    · rw [if_pos ⟨by omega, hhi⟩, List.append_assoc, List.getElem?_append_right (by omega), htake, List.getElem?_append_left (by omega)]
    · rw [if_neg (by omega), List.getElem?_append_right (by rw [List.length_append]; omega), List.length_append, htake, List.getElem?_drop,
        show lo + b.length + (j - (lo + b.length)) = j by omega, hold hj]
      rfl

theorem merged_whole (s : State) (r word : Nat) {b : List Byte} (hb : b.length = 16) : merged s r word 0 b = b := by
  have hdrop : (wordBytes s r word).drop (0 + b.length) = [] := List.drop_eq_nil_of_le (by rw [length_wordBytes]; omega)
  rw [merged, hdrop]
  simp

theorem mergeBytes_stored (s : State) (r word lo : Nat) (b : List Byte) :
    mergeBytes (storedWord s r word % 2 ^ 128) lo b = ofLe (merged s r word lo b) := by
  have hold : leBytes 16 (storedWord s r word % 2 ^ 128) = wordBytes s r word := by
    rw [← ofLe_wordBytes]
    have h := leBytes_ofLe (wordBytes s r word)
    rwa [length_wordBytes] at h
  unfold mergeBytes
  dsimp only
  rw [hold]
  rfl

/-- A write within a word of a calm memory. -/
theorem writeWithin_calm {s : State} (hcalm : CalmMemory s) (r word lo : Nat) {b : List Byte} (hb : b ≠ []) :
    writeWithin s r word lo b = wordPut s r word (ofLe (merged s r word lo b)) := by
  have hne : b.isEmpty = false := by simpa using hb
  unfold writeWithin
  rw [hne]
  by_cases hwhole : lo = 0 ∧ b.length = 16
  · obtain ⟨rfl, hlen⟩ := hwhole
    simp only [Bool.false_eq_true, if_false, hlen, and_self, if_true]
    rw [writeWord_calm hcalm, merged_whole s r word hlen]
  · simp only [Bool.false_eq_true, if_false, if_neg hwhole, fetchWord_calm hcalm]
    rw [writeWord_calm hcalm, mergeBytes_stored]

theorem ofLe_lt_word {b : List Byte} (hb : b.length = 16) : ofLe b < 2 ^ 128 := by
  have h := ofLe_lt b
  rw [hb] at h
  exact Nat.lt_of_lt_of_le h (by decide)

/-- What a write of bytes from a place of a rank on leaves of the memory's bytes: its own bytes, and every cell of a word that it does not
touch. -/
structure BytesPut (s t : State) (r a : Nat) (b : List Byte) : Prop where
  bytes : ∀ a', memGet t.dram (bytePlace r a') = if a ≤ a' ∧ a' < a + b.length then b.getD (a' - a) 0 else memGet s.dram (bytePlace r a')
  frame : ∀ x, (∀ a', a ≤ a' → a' < a + b.length → x < dramKey r (a' / 16) 0 ∨ dramKey r (a' / 16) 0 + 18 ≤ x) →
    memGet t.dram x = memGet s.dram x
  calm : CalmMemory t
  changes : Changes [.dram, .mem] s t

theorem BytesPut.nil {s : State} (hcalm : CalmMemory s) (r a : Nat) : BytesPut s s r a [] where
  bytes a' := (if_neg (by simp)).symm
  frame _ _ := rfl
  calm := hcalm
  changes := Changes.refl _ s

/-- A write, and one that goes on where it ended. -/
theorem BytesPut.append {s t u : State} {r a : Nat} {b c : List Byte} (h : BytesPut s t r a b) (h' : BytesPut t u r (a + b.length) c) :
    BytesPut s u r a (b ++ c) where
  bytes a' := by
    rw [h'.bytes a', h.bytes a', List.length_append]
    by_cases hb : a ≤ a' ∧ a' < a + b.length
    · rw [if_neg (by omega), if_pos hb, if_pos (by omega), List.getD_append _ _ _ _ (by omega)]
    · by_cases hc : a + b.length ≤ a' ∧ a' < a + b.length + c.length
      · rw [if_pos hc, if_pos (by omega), List.getD_append_right _ _ _ _ (by omega), Nat.sub_add_eq]
      · rw [if_neg hc, if_neg hb, if_neg (by omega)]
  frame x hx := by
    rw [List.length_append] at hx
    rw [h'.frame x (fun a' hlo hhi => hx a' (by omega) (by omega)), h.frame x (fun a' hlo hhi => hx a' hlo (by omega))]
  calm := h'.calm
  changes := h.changes.trans h'.changes

theorem bytesPut_within {s : State} (hcalm : CalmMemory s) (r word : Nat) {lo : Nat} {b : List Byte} (h : lo + b.length ≤ 16) :
    BytesPut s (writeWithin s r word lo b) r (16 * word + lo) b := by
  by_cases hb : b = []
  · subst hb
    exact .nil hcalm r _
  have hpos : 0 < b.length := List.length_pos_of_ne_nil hb
  have hlen := length_merged s r word h
  rw [writeWithin_calm hcalm r word lo hb]
  refine ⟨fun a' => ?_, fun x hx => ?_, calm_wordPut hcalm r word (ofLe_lt_word hlen), wordPut_changes _ _ _ _⟩
  · by_cases hword : a' / 16 = word
    · have hj : a' % 16 < 16 := Nat.mod_lt _ (by decide)
      have hread : memGet (wordPut s r word (ofLe (merged s r word lo b))).dram (bytePlace r a') =
          (wordBytes (wordPut s r word (ofLe (merged s r word lo b))) r word).getD (a' % 16) 0 := by
        rw [List.getD_eq_getElem _ _ (by rw [length_wordBytes]; exact hj)]
        rw [bytePlace, hword]
        exact (memGetAll_getElem _ _ _ _).symm
      have hbytes : wordBytes (wordPut s r word (ofLe (merged s r word lo b))) r word = merged s r word lo b :=
        wordBytes_storeWord (modMem s _) r word hlen
      rw [hread, hbytes, merged_getD s r word h hj, bytePlace, hword]
      refine if_congr (by omega) ?_ rfl
      congr 1
      omega
    · rw [if_neg (by omega)]
      refine memGet_storeWord_other (modMem s _) r word _ ?_
      unfold bytePlace dramKey
      omega
  · refine memGet_storeWord_other (modMem s _) r word _ ?_
    have hhere := hx (16 * word + lo) (Nat.le_refl _) (by omega)
    rwa [show (16 * word + lo) / 16 = word by omega] at hhere

theorem writeBytesAt_nil (n : Nat) (s : State) (r a : Nat) : writeBytesAt n s r a [] = s := by
  cases n <;> rfl

theorem bytesPut_writeBytesAt (n : Nat) {s : State} (hcalm : CalmMemory s) (r a : Nat) {b : List Byte} (hn : b.length < n) :
    BytesPut s (writeBytesAt n s r a b) r a b := by
  induction n generalizing s a b with
  | zero => omega
  | succ n ih =>
    by_cases hb : b = []
    · subst hb
      exact .nil hcalm r a
    · have hne : b.isEmpty = false := by simpa using hb
      have hpos : 0 < b.length := List.length_pos_of_ne_nil hb
      have hlow : a % 16 < 16 := Nat.mod_lt _ (by decide)
      have hfirst := bytesPut_within hcalm r (a / 16) (lo := a % 16) (b := b.take (16 - a % 16)) (by rw [List.length_take]; omega)
      rw [show 16 * (a / 16) + a % 16 = a by omega] at hfirst
      have hrest := ih hfirst.calm (a + (16 - a % 16)) (b := b.drop (16 - a % 16)) (by rw [List.length_drop]; omega)
      have hstep : writeBytesAt (n + 1) s r a b =
          writeBytesAt n (writeWithin s r (a / 16) (a % 16) (b.take (16 - a % 16))) r (a + (16 - a % 16)) (b.drop (16 - a % 16)) := by
        rw [writeBytesAt, hne]
        rfl
      rw [hstep]
      by_cases hlast : b.length ≤ 16 - a % 16
      · rw [List.drop_eq_nil_of_le hlast, writeBytesAt_nil]
        rw [List.take_of_length_le hlast] at hfirst ⊢
        exact hfirst
      · have hlen : (b.take (16 - a % 16)).length = 16 - a % 16 := by
          rw [List.length_take]
          omega
        have hall := hfirst.append (by rw [hlen]; exact hrest)
        rwa [List.take_append_drop] at hall

/-! ## Access -/

/-- An access leaves the bytes, and of the objects all but the group's state and the rank's neighbour refreshes. -/
theorem touchRank_changes (s : State) (r : Nat) : Changes [.fresh, .objs, .mem] s (touchRank s r) :=
  touchRank_ch (List.Subset.refl _) (Changes.refl _ s)

theorem touchRank_objs (s : State) (r : Nat) : onlyObjs [K.grpState (r / 2), K.rankNrr r] s (touchRank s r) := by
  unfold touchRank
  extract_lets s₁ s₂
  have hs₂ : onlyObjs [K.grpState (r / 2), K.rankNrr r] s s₂ := by
    unfold s₂
    split
    · exact onlyObjs_putN (t := s₁) _ (by simp) (onlyObjs_refl _ _)
    · exact onlyObjs_refl _ _
  exact onlyObjs_putN (t := draw s₂) _ (by simp) hs₂

theorem touchRank_mem (s : State) (r : Nat) : (touchRank s r).mem = { s.mem with
    access := tset s.mem.access r s.now, asleep := s.mem.asleep.filter (· ≠ r) } := by
  unfold touchRank
  dsimp only
  split <;> rfl

theorem getN_touchRank (s : State) {r k : Nat} (h : k ≠ K.grpState (r / 2) ∧ k ≠ K.rankNrr r) : getN (touchRank s r) k = getN s k :=
  congrArg Val.toNat (touchRank_objs s r k (by simpa using h)).1

theorem calm_touchRank {s : State} (hcalm : CalmMemory s) {r : Nat} (hr : r < 6) : CalmMemory (touchRank s r) where
  migr := by rw [touchRank_mem]; exact hcalm.migr
  arm := by
    unfold getB
    rw [getN_touchRank s (by simp only [K.memInjArm, K.grpState, K.rankNrr, objKey]; omega)]
    exact hcalm.arm
  injected := by rw [touchRank_mem]; exact hcalm.injected
  clean r' word := by
    rw [storedWord_of_dram ((touchRank_changes s r).dram (by decide))]
    exact hcalm.clean r' word

theorem bytesPut_writeRank {s : State} (hcalm : CalmMemory s) {r : Nat} (hr : r < 6) (a : Nat) (b : List Byte) :
    BytesPut (touchRank s r) (writeRank s r a b) r a b :=
  bytesPut_writeBytesAt (b.length + 1) (calm_touchRank hcalm hr) r a (Nat.lt_succ_self _)

end Sys2Proof.Proofs.WordStore

/-!
PROOFS. O45: reads and writes of words of module memory, with their errors.
-/

namespace Sys2Proof.Proofs.MemoryErrors

open Sys2Proof.Machine
open Sys2Proof.Proofs.ModeFrame
open Sys2Proof.Proofs.WordStore

/-! ## What a retirement leaves alone: the counts of a rank's errors -/

/-- The counts of a rank's errors that a retirement does not move. -/
def countKeys (r : Nat) : List Nat := [K.rankCeTotal r, K.rankCeTrans r, K.rankUe r]

theorem notCount_of_sub {idx sub r : Nat} (h : sub < 256 ∧ sub ≠ 5 ∧ sub ≠ 6 ∧ sub ≠ 7) : objKey idx sub ∉ countKeys r := by
  simp only [countKeys, K.rankCeTotal, K.rankCeTrans, K.rankUe, objKey, List.mem_cons, List.not_mem_nil, or_false]
  omega

theorem count_not_noteKey {r : Nat} (hr : r < 6) : ∀ k ∈ countKeys r, ¬ noteKey k := by
  intro k hk
  simp only [countKeys, K.rankCeTotal, K.rankCeTrans, K.rankUe, objKey, List.mem_cons, List.not_mem_nil, or_false] at hk
  simp only [noteKey, K.dictNotifyDrop, K.regVoteFix, K.regVoteBad, K.kaolinCanDrop, K.logOut, objKey]
  omega

theorem count_not_health {r : Nat} (hr : r < 6) : ∀ k ∈ countKeys r, k ∉ healthKeys := by
  intro k hk
  simp only [countKeys, K.rankCeTotal, K.rankCeTrans, K.rankUe, objKey, List.mem_cons, List.not_mem_nil, or_false] at hk
  rw [healthKeys, List.mem_cons, List.mem_map]
  rintro (h | ⟨j, hj, h⟩)
  · simp only [K.healthModule, objKey] at h
    omega
  · have hj := List.mem_range.1 hj
    simp only [K.healthSub, objKey] at h
    omega

/-! ## Domains -/

theorem agrees_ite {ks : List Nat} {r a b : State} {c : Prop} [Decidable c] (ha : Agrees ks r a) (hb : Agrees ks r b) :
    Agrees ks r (if c then a else b) := by
  split
  · exact ha
  · exact hb

/-- Bringing the domains in line with their conditions changes no object but the domains' states. -/
theorem agrees_settle {ks : List Nat} {r s : State} (hks : ∀ d, K.domState d ∉ ks) (h : Agrees ks r s) : Agrees ks r (settle s) := by
  have hsame {x : State} (y : State) (hx : Agrees ks r x) (hy : y.objs = x.objs) : Agrees ks r y := hx.trans (.of_objs hy)
  refine ColdStart.agrees_foldN _ h fun x d _ hx => ?_
  have hdrop : Agrees ks r (if x.power.ramp.contains d then { x with power := { x.power with ramp := x.power.ramp.erase d } } else x) :=
    agrees_ite (hsame _ hx rfl) hx
  exact agrees_ite hx (agrees_ite (agrees_ite (hsame _ hx rfl) hx)
    (agrees_ite (hsame _ (ColdStart.agrees_putN hdrop (hks d)) rfl) hdrop))

/-! ## What a retirement leaves of the counts -/

section
variable {rank : Nat} (hr : rank < 6) {r s : State}
include hr

/-- An operation whose parts leave the objects alone. -/
theorem counts_of_changes {P : List Part} {t : State} (h : Agrees (countKeys rank) r s) (hch : Changes P s t) (hP : Part.objs ∉ P) :
    Agrees (countKeys rank) r t := h.trans (.of_changes hch hP (count_not_noteKey hr))

theorem counts_updateHealth (h : Agrees (countKeys rank) r s) : Agrees (countKeys rank) r (updateHealth s) :=
  h.trans (.of_onlyAndNotes (updateHealth_objs s) (fun k hk => ⟨count_not_health hr k hk, count_not_noteKey hr k hk⟩))

omit hr in
theorem counts_putN {idx sub n : Nat} (h : Agrees (countKeys rank) r s) (hsub : sub < 256 ∧ sub ≠ 5 ∧ sub ≠ 6 ∧ sub ≠ 7) :
    Agrees (countKeys rank) r (putN s (objKey idx sub) n) := ColdStart.agrees_putN h (notCount_of_sub hsub)

omit hr in
theorem counts_of_eq {t : State} (h : Agrees (countKeys rank) r s) (heq : t.objs = s.objs) : Agrees (countKeys rank) r t :=
  h.trans (.of_objs heq)

omit hr in
theorem counts_settle (h : Agrees (countKeys rank) r s) : Agrees (countKeys rank) r (settle s) :=
  agrees_settle (fun _ => notCount_of_sub (by decide)) h

theorem counts_memLogEntry {kind q bankWord row col sym val synd source cause other gen : Nat} (h : Agrees (countKeys rank) r s) :
    Agrees (countKeys rank) r (memLogEntry s kind q bankWord row col sym val synd source cause other gen) := by
  unfold memLogEntry
  extract_lets seq e s₁
  have hput : Agrees (countKeys rank) r s₁ := counts_putN (idx := 0x4000) (sub := 17) (counts_of_eq h (modMem_objs s _)) (by decide)
  clear_value s₁
  exact agrees_ite (counts_of_changes hr hput (grogLog_ch (List.Subset.refl _) (Changes.refl _ _)) (by decide)) hput

theorem counts_logStep {kind q other cause gen : Nat} (h : Agrees (countKeys rank) r s) :
    Agrees (countKeys rank) r (logStep s kind q other cause gen) := counts_memLogEntry hr h

theorem counts_emit {cls code inst : Nat} {detail : List Byte} {fs : List Nat} (h : Agrees (countKeys rank) r s) :
    Agrees (countKeys rank) r (emit s cls code inst detail fs) :=
  counts_of_changes hr h (emit_ch (List.Subset.refl _) (Changes.refl _ s)) (by decide)

theorem counts_raiseClass {f c : Nat} (h : Agrees (countKeys rank) r s) : Agrees (countKeys rank) r (raiseClass s f c) :=
  counts_of_changes hr h (raiseClass_ch (List.Subset.refl _) (Changes.refl _ s)) (by decide)

omit hr in
/-- A rank shown in a state, with the cause. -/
theorem counts_rankShown {q st cause : Nat} (h : Agrees (countKeys rank) r s) :
    Agrees (countKeys rank) r (putN (putN s (K.rankState q) st) (K.rankCause q) cause) :=
  counts_putN (idx := 0x4010 + q) (sub := 3) (counts_putN (idx := 0x4010 + q) (sub := 1) h (by decide)) (by decide)

theorem counts_degradeRank {q cause : Nat} (h : Agrees (countKeys rank) r s) : Agrees (countKeys rank) r (degradeRank s q cause) := by
  unfold degradeRank
  extract_lets s₁ s₂
  have h₁ : Agrees (countKeys rank) r s₁ := counts_rankShown h
  have h₂ : Agrees (countKeys rank) r s₂ := counts_raiseClass hr (counts_emit hr h₁)
  clear_value s₂
  exact counts_updateHealth hr (counts_logStep hr h₂)

omit hr in
theorem counts_testRank {q : Nat} (h : Agrees (countKeys rank) r s) : Agrees (countKeys rank) r (testRank s q) :=
  counts_putN (idx := 0x4010 + q) (sub := 11) (counts_putN (idx := 0x4010 + q) (sub := 1) h (by decide)) (by decide)

omit hr in
theorem counts_askDomain {d : Nat} (h : Agrees (countKeys rank) r s) : Agrees (countKeys rank) r (askDomain s d) :=
  agrees_ite (counts_of_eq h (interruptTw_objs s intGrog)) h

theorem counts_takeSpare {m : Migration} (h : Agrees (countKeys rank) r s) : Agrees (countKeys rank) r (takeSpare s m) := by
  have hmem (g : Mem → Mem) : Agrees (countKeys rank) r (modMem s g) := counts_of_eq h (modMem_objs s g)
  exact agrees_ite (counts_settle (counts_testRank (counts_putN (idx := 0x4010 + m.rank) (sub := 1) (hmem _) (by decide))))
    (agrees_ite (counts_settle (counts_askDomain (counts_degradeRank hr (hmem _)))) (counts_settle (hmem _)))

theorem counts_beginRetire {q spare cause : Nat} (h : Agrees (countKeys rank) r s) :
    Agrees (countKeys rank) r (beginRetire s q spare cause) := by
  refine counts_takeSpare hr (counts_logStep hr (counts_emit hr (counts_rankShown ?_)))
  split
  · exact agrees_ite (counts_of_eq h rfl) h
  · exact h

theorem counts_retireRank {q cause : Nat} (h : Agrees (countKeys rank) r s) : Agrees (countKeys rank) r (retireRank s q cause) := by
  refine agrees_ite h ?_
  split
  · exact agrees_ite h (counts_degradeRank hr h)
  · exact agrees_ite (counts_of_eq (counts_rankShown h) (modMem_objs _ _)) (counts_beginRetire hr h)

theorem counts_failSpare {cls spare cause : Nat} (h : Agrees (countKeys rank) r s) :
    Agrees (countKeys rank) r (failSpare s cls spare cause) := by
  unfold failSpare
  extract_lets s₁ s₂
  have h₁ : Agrees (countKeys rank) r s₁ := counts_of_eq h (modGrog_objs s _)
  have h₂ : Agrees (countKeys rank) r s₂ := agrees_ite (counts_putN (idx := 0x3010 + spare) (sub := 1) h₁ (by decide)) h₁
  clear_value s₂
  have hlog := counts_of_changes hr h₂ (grogLog_ch (cls := cls) (kind := 3) (unit := spare) (spare := 0xFFFF) (cause := cause)
    (detail := 0) (gen := 0) (List.Subset.refl _) (Changes.refl _ s₂)) (by decide)
  exact counts_updateHealth hr (hlog.trans (.of_onlyAndNotes (GrogRecord.grogEvent_objs [] _ _ _ _ _ _)
    fun k hk => ⟨by simp, count_not_noteKey hr k hk⟩))

theorem counts_spareRankFailed {q cause : Nat} (h : Agrees (countKeys rank) r s) :
    Agrees (countKeys rank) r (spareRankFailed s q cause) := by
  unfold spareRankFailed
  extract_lets s₁ s₂
  have h₁ : Agrees (countKeys rank) r s₁ := counts_rankShown h
  have h₂ : Agrees (countKeys rank) r s₂ := counts_raiseClass hr (counts_emit hr h₁)
  clear_value s₂
  exact counts_failSpare hr (counts_logStep hr h₂)

theorem counts_nextDue (h : Agrees (countKeys rank) r s) : Agrees (countKeys rank) r (nextDue s) := by
  unfold nextDue
  split
  · exact counts_settle h
  · have hmem (g : Mem → Mem) : Agrees (countKeys rank) r (modMem s g) := counts_of_eq h (modMem_objs s g)
    dsimp only
    split
    · exact counts_settle (counts_degradeRank hr (hmem _))
    · exact counts_beginRetire hr (hmem _)

theorem counts_migrationSpareFailed {m : Migration} {cause : Nat} (h : Agrees (countKeys rank) r s) :
    Agrees (countKeys rank) r (migrationSpareFailed s m cause) := by
  have hfailed := counts_spareRankFailed hr (q := m.spare) (cause := cause) h
  unfold migrationSpareFailed
  dsimp only
  split
  · exact counts_takeSpare hr hfailed
  · exact counts_nextDue hr (counts_degradeRank hr (counts_of_eq hfailed (modMem_objs _ _)))

end

end Sys2Proof.Proofs.MemoryErrors

/-!
PROOFS. O45: reads and writes of words of module memory, with their errors.
-/

namespace Sys2Proof.Proofs.MemoryWords

open Sys2Proof.Machine
open Sys2Proof.Proofs.WordStore
open Sys2Proof.Proofs.MemoryErrors

/-! ## A single-symbol error -/

/-- The symbol that a correction changes, and what it adds to it. -/
theorem corrected_lt {w i e : Nat} (h : decodeWord w = .corrected i e) : i < 36 ∧ e < 16 := by
  unfold decodeWord at h
  dsimp only at h
  split at h
  · cases h
  · split at h
    · cases h
    · split at h
      · next i' e' hsingle =>
        cases h
        have hmem : (i, e) ∈ singleErrors (syndrome w) := by
          rw [hsingle]
          exact List.mem_singleton.2 rfl
        obtain ⟨j, hj, hin⟩ := List.mem_flatMap.1 hmem
        obtain ⟨v, hv, heq⟩ := List.mem_map.1 hin
        cases heq
        exact ⟨List.mem_range.1 hj, List.mem_range.1 (List.mem_filter.1 hv).1⟩
      · cases h

theorem error_lt {i e : Nat} (hi : i < 36) (he : e < 16) : e * 2 ^ (4 * i) < 2 ^ 144 := by
  calc e * 2 ^ (4 * i) < 2 ^ 4 * 2 ^ (4 * i) := Nat.mul_lt_mul_of_pos_right (by omega) (Nat.two_pow_pos _)
    _ = 2 ^ (4 + 4 * i) := (Nat.pow_add 2 4 (4 * i)).symm
    _ ≤ 2 ^ 144 := Nat.pow_le_pow_right (by decide) (by omega)

theorem noise_lt (n : List Byte) : ofLe (n.take 18) < 2 ^ 144 := by
  refine Nat.lt_of_lt_of_le (ofLe_lt _) ?_
  rw [show (2 : Nat) ^ 144 = 256 ^ 18 by decide]
  exact Nat.pow_le_pow_right (by decide) (by rw [List.length_take]; omega)

/-- A word as read, with its error corrected, fits the 144 bits of a word. -/
theorem good_lt (s : State) (r word : Nat) (n : List Byte) {w i e : Nat} (h : decodeWord w = .corrected i e) :
    storedWord s r word ^^^ ofLe (n.take 18) ^^^ (e * 2 ^ (4 * i)) < 2 ^ 144 := by
  obtain ⟨hi, he⟩ := corrected_lt h
  exact Nat.xor_lt_two_pow (Nat.xor_lt_two_pow (storedWord_lt s r word) (noise_lt n)) (error_lt hi he)

/-! ## What a read does -/

/-- What a read that is no scrub shows: the data read, or that there is none. -/
def shown (p : State × Option Nat) : State := modMem p.1 (fun m => { m with out := some (p.2.map (leBytes 16)) })

theorem shown_changes (p : State × Option Nat) : Changes [.mem] p.1 (shown p) := ch_mem (Changes.refl _ _) (by decide)

/-- A read that does no more than access its rank. -/
theorem shown_touched (s : State) (r : Nat) (d : Option Nat) : Changes [.fresh, .objs, .mem] s (shown (touchRank s r, d)) :=
  (touchRank_changes s r).trans ((shown_changes (touchRank s r, d)).mono (by decide))

theorem storedWord_shown (p : State × Option Nat) (r word : Nat) : storedWord (shown p) r word = storedWord p.1 r word := rfl

theorem getN_shown (p : State × Option Nat) (k : Nat) : getN (shown p) k = getN p.1 k := rfl

theorem out_shown (p : State × Option Nat) : (shown p).mem.out = some (p.2.map (leBytes 16)) := rfl

theorem exec_memRead {s : State} {rank : Fin 6} {word : Nat} (n1 n2 : List Byte) (hword : word < rankWords)
    (hgrp : 2 ≤ getN s (K.grpState (rank / 2))) : exec (.memRead rank word n1 n2 false) s =
      .next (shown (readWord (touchRank s rank) rank word (ofLe (n1.take 18)) (ofLe (n2.take 18)) 1)) := by
  show execMemRead rank word n1 n2 false s = _
  unfold execMemRead
  rw [if_neg (by omega), if_neg (by omega)]
  rfl

section
variable {s : State} {r word : Nat} (hinj : r * rankWords + word ∉ s.mem.injected)
include hinj

theorem readWord_corrected {n1 n2 source i e : Nat} (h : decodeWord (storedWord s r word ^^^ n1) = .corrected i e) :
    readWord s r word n1 n2 source = correctWord s false r word n2 source (storedWord s r word ^^^ n1) i e := by
  have hno : s.mem.injected.contains (r * rankWords + word) = false := by simpa using hinj
  unfold readWord
  simp only [hno, h, Bool.false_eq_true, if_false]

theorem readWord_poisoned {n2 source : Nat} (h : decodeWord (storedWord s r word) = .poisoned) :
    readWord s r word 0 n2 source = (s, none) := by
  have hno : s.mem.injected.contains (r * rankWords + word) = false := by simpa using hinj
  unfold readWord
  simp only [hno, Nat.xor_zero, h, Bool.false_eq_true, if_false]

theorem readWord_uncorrectable {n1 n2 source : Nat} (h : decodeWord (storedWord s r word ^^^ n1) = .uncorrectable)
    (hagain : decodeWord (storedWord s r word ^^^ n2) = .uncorrectable ∨ decodeWord (storedWord s r word ^^^ n2) = .poisoned) :
    readWord s r word n1 n2 source = (lastingError s r word (syndrome (storedWord s r word ^^^ n1)) source, none) := by
  have hno : s.mem.injected.contains (r * rankWords + word) = false := by simpa using hinj
  unfold readWord
  obtain hagain | hagain := hagain <;> simp only [hno, h, hagain, Bool.false_eq_true, if_false]

end

theorem correctWord_transient {s : State} {r word n2 src w i e : Nat} (hagain : decodeWord (w ^^^ (e * 2 ^ (4 * i)) ^^^ n2) = .clean)
    (hpin : onBadPin s r word i = false) : correctWord s false r word n2 src w i e =
      (transientCorrection (storeWord s r word (w ^^^ (e * 2 ^ (4 * i)))) r word i e (syndrome w) src,
        some ((w ^^^ (e * 2 ^ (4 * i))) % 2 ^ 128)) := by
  have hpin' : onBadPin (storeWord s r word (w ^^^ (e * 2 ^ (4 * i)))) r word i = false := hpin
  unfold correctWord
  dsimp only
  rw [if_neg (by simp [hagain, hpin'])]

theorem correctWord_lasting {s : State} {r word n2 src w i e : Nat}
    (h : decodeWord (w ^^^ (e * 2 ^ (4 * i)) ^^^ n2) ≠ .clean ∨ onBadPin s r word i = true) : correctWord s false r word n2 src w i e =
      (lastingCorrection (storeWord s r word (w ^^^ (e * 2 ^ (4 * i)))) r word i e (syndrome w) src,
        some ((w ^^^ (e * 2 ^ (4 * i))) % 2 ^ 128)) := by
  have hpin' : onBadPin (storeWord s r word (w ^^^ (e * 2 ^ (4 * i)))) r word i = onBadPin s r word i := rfl
  unfold correctWord
  dsimp only
  rw [if_pos (by rw [hpin']; exact Or.inr h)]

/-! ## The counts of a correction and of an error -/

/-- An entry of the memory log that is no error's. -/
theorem memLogEntry_objs {ks : List Nat} {r s : State} (hk : K.memLogSeq ∈ ks) {kind : Nat} (hkind : kind < 4)
    (rank bankWord row col sym val synd source cause other gen : Nat) (h : onlyObjs ks r s) :
    onlyObjs ks r (memLogEntry s kind rank bankWord row col sym val synd source cause other gen) := by
  unfold memLogEntry
  extract_lets seq e s₁
  rw [if_neg (by omega)]
  have hlog : onlyObjs ks r (modMem s (fun m => { m with log := lastN 128 (m.log ++ [e]) })) :=
    onlyObjs_trans h (onlyObjs_of_eq (modMem_objs s _))
  exact onlyObjs_putN seq hk hlog

theorem transientCorrection_objs (s : State) (r word i e synd source : Nat) :
    onlyObjs [K.memLogSeq] (bump s (K.rankCeTrans r)) (transientCorrection s r word i e synd source) := by
  have hone := onlyObjs_refl [K.memLogSeq] (bump s (K.rankCeTrans r))
  unfold transientCorrection
  extract_lets s₁
  split
  · exact hone
  · exact memLogEntry_objs (by simp) (by decide) _ _ _ _ _ _ _ _ _ _ _ hone

/-- A rank's count of corrections, beside the keys that a correction writes. -/
theorem rankCount_ne {r sub : Nat} (hr : r < 6) (hsub : 4 < sub ∧ sub < 256) {g : Nat} (hg : g < 3) :
    objKey (0x4010 + r) sub ≠ K.rankCe r ∧ objKey (0x4010 + r) sub ≠ K.grpPinCe g ∧ objKey (0x4010 + r) sub ≠ K.memLogSeq ∧
      objKey (0x4010 + r) sub ≠ K.memPoison := by
  simp only [K.rankCe, K.grpPinCe, K.memLogSeq, K.memPoison, objKey]
  omega

/-- What a correction counts before the rank may be retired. -/
def correctionCounted (s : State) (r word i e synd source : Nat) (bs : List (List Nat)) : State :=
  logWord (countPin (bump (putN (modMem s (fun m => { m with buckets := tset m.buckets r bs })) (K.rankCe r)
    (min 65535 ((bs.map List.length).sum))) (K.rankCeTotal r)) (r / 2) (symbolPin word i)) 2 r word i e synd source 0

/-- A lasting correction of a word that is in no bucket is counted; then its rank may be retired. -/
theorem lastingCorrection_new {s : State} {r word : Nat} (i e synd source : Nat) (hnew : ∀ b ∈ tget s.mem.buckets r [], word ∉ b) :
    ∃ bs, lastingCorrection s r word i e synd source =
      if getN (correctionCounted s r word i e synd source bs) K.memCeLimit ≤ getN (correctionCounted s r word i e synd source bs) (K.rankCe r)
      then retireRank (correctionCounted s r word i e synd source bs) r 2 else correctionCounted s r word i e synd source bs := by
  have hno : ¬ (tget s.mem.buckets r []).any (fun b => b.contains word) = true := by simpa using hnew
  unfold lastingCorrection
  extract_lets bs bs'
  rw [if_neg hno]
  exact ⟨bs', rfl⟩

theorem correctionCounted_counts (s : State) {r : Nat} (hr : r < 6) (word i e synd source : Nat) (bs : List (List Nat)) :
    getN (correctionCounted s r word i e synd source bs) (K.rankCeTrans r) = getN s (K.rankCeTrans r) ∧
      getN (correctionCounted s r word i e synd source bs) (K.rankCeTotal r) = satInc 32 (getN s (K.rankCeTotal r)) := by
  have hmem (k : Nat) : getN (modMem s (fun m => { m with buckets := tset m.buckets r bs })) k = getN s k := rfl
  unfold correctionCounted
  generalize modMem s (fun m => { m with buckets := tset m.buckets r bs }) = t at hmem ⊢
  generalize hu : bump (putN t (K.rankCe r) (min 65535 ((bs.map List.length).sum))) (K.rankCeTotal r) = u
  have hlog : onlyObjs [K.memLogSeq, K.grpPinCe (r / 2)] u (logWord (countPin u (r / 2) (symbolPin word i)) 2 r word i e synd source 0) :=
    memLogEntry_objs (by simp) (by decide) _ _ _ _ _ _ _ _ _ _ _ (onlyObjs_putV _ (by simp) (onlyObjs_refl _ u))
  have hkept {sub : Nat} (hsub : 4 < sub ∧ sub < 256) :
      getN (logWord (countPin u (r / 2) (symbolPin word i)) 2 r word i e synd source 0) (objKey (0x4010 + r) sub) =
        getN u (objKey (0x4010 + r) sub) := by
    obtain ⟨_, hpin, hseq, _⟩ := rankCount_ne hr hsub (g := r / 2) (by omega)
    exact congrArg Val.toNat (hlog _ (by simp [hpin, hseq])).1
  have hce {sub : Nat} (hsub : 4 < sub ∧ sub < 256) := (rankCount_ne hr hsub (g := 0) (by decide)).1
  refine ⟨(hkept (sub := 6) (by decide)).trans ?_, (hkept (sub := 5) (by decide)).trans ?_⟩
  · rw [← hu, getN_bump_ne _ (by simp only [K.rankCeTotal, objKey]; omega), getN_putN_ne _ _ (hce (by decide))]
    exact hmem _
  · rw [← hu]
    refine (getN_bump _ (K.rankCeTotal r)).trans ?_
    rw [getN_putN_ne t _ (show K.rankCeTotal r ≠ K.rankCe r from hce (by decide)), hmem]

theorem lastingCorrection_counts {s : State} {r : Nat} (hr : r < 6) {word : Nat} (i e synd source : Nat)
    (hnew : ∀ b ∈ tget s.mem.buckets r [], word ∉ b) :
    getN (lastingCorrection s r word i e synd source) (K.rankCeTrans r) = getN s (K.rankCeTrans r) ∧
      getN (lastingCorrection s r word i e synd source) (K.rankCeTotal r) = satInc 32 (getN s (K.rankCeTotal r)) := by
  obtain ⟨bs, heq⟩ := lastingCorrection_new i e synd source hnew
  obtain ⟨htrans, htotal⟩ := correctionCounted_counts s hr word i e synd source bs
  generalize correctionCounted s r word i e synd source bs = t at heq htrans htotal
  have hkeep : ModeFrame.Agrees (countKeys r) t (lastingCorrection s r word i e synd source) := by
    rw [heq]
    exact agrees_ite (counts_retireRank hr fun _ _ => rfl) fun _ _ => rfl
  exact ⟨(congrArg Val.toNat (hkeep _ (by simp [countKeys]))).trans htrans, (congrArg Val.toNat (hkeep _ (by simp [countKeys]))).trans htotal⟩

/-- An uncorrectable word replaced by poison, and counted. -/
def errorCounted (s : State) (r word : Nat) : State :=
  bump (bump (bump (storeWord s r word poisonWord) (K.rankPoison r)) K.memPoison) (K.rankUe r)

/-- The event of an uncorrectable word: one a second, with the number of those before it. -/
def errorTold (s : State) (r : Nat) : State :=
  let n := tget s.mem.poisoned r 0 + 1
  let second := s.now / 1000000000 + 1
  if tget s.mem.poisonAt r 0 = second then modMem s (fun m => { m with poisoned := tset m.poisoned r n })
  else emit (modMem s (fun m => { m with poisoned := tset m.poisoned r 0, poisonAt := tset m.poisonAt r second })) 7 0x0704 r
    (leBytes 1 r ++ leBytes 4 n) []

/-- What becomes of the rank of an uncorrectable word: it is retired, unless it is the spare that a migration fills. -/
def errorAnswered (s : State) (r : Nat) : State :=
  match s.mem.migr with
  | some m => if m.phase = 2 ∧ m.spare = r then migrationSpareFailed s m 1 else retireRank s r 1
  | none => retireRank s r 1

theorem lastingError_eq (s : State) (r word synd source : Nat) : lastingError s r word synd source =
    errorAnswered (errorTold (logWord (errorCounted s r word) 4 r word 0xFF 0 synd source 1) r) r := rfl

/-- A count advanced after two others. -/
theorem getN_bump_third {k a b : Nat} (ha : k ≠ a) (hb : k ≠ b) (s : State) :
    getN (bump (bump (bump s a) b) k) k = satInc 32 (getN s k) := by
  rw [getN_bump, getN_bump_ne _ hb, getN_bump_ne _ ha]

theorem errorCounted_count (s : State) {r : Nat} (hr : r < 6) (word : Nat) :
    getN (errorCounted s r word) (K.rankUe r) = satInc 32 (getN s (K.rankUe r)) := by
  have hpoison : K.rankUe r ≠ K.rankPoison r := by
    simp only [K.rankUe, K.rankPoison, objKey]
    omega
  have hmem : K.rankUe r ≠ K.memPoison := (rankCount_ne hr (sub := 7) (by decide) (g := 0) (by decide)).2.2.2
  have hstore : getN (storeWord s r word poisonWord) (K.rankUe r) = getN s (K.rankUe r) :=
    (storeWord_ch (List.Subset.refl _) (Changes.refl _ s)).getN (by decide) (by decide) _
  exact (getN_bump_third hpoison hmem _).trans (congrArg (satInc 32) hstore)

theorem storedWord_errorCounted (s : State) (r word : Nat) : storedWord (errorCounted s r word) r word = poisonWord := by
  have hch : Changes [.objs] (storeWord s r word poisonWord) (errorCounted s r word) :=
    bump_ch (by decide) (bump_ch (by decide) (bump_ch (by decide) (Changes.refl _ _)))
  rw [storedWord_of_dram (hch.dram (by decide))]
  exact storedWord_storeWord s r word (by decide)

/-- An operation that leaves the counts of a rank's errors and the words of memory alone. -/
def KeepsWords (rank : Nat) (s t : State) : Prop := ModeFrame.Agrees (countKeys rank) s t ∧ t.dram = s.dram

theorem keepsWords_errorTold (s : State) {r : Nat} (hr : r < 6) : KeepsWords r s (errorTold s r) := by
  have hmem (g : Mem → Mem) : ModeFrame.Agrees (countKeys r) s (modMem s g) := counts_of_eq (fun _ _ => rfl) (modMem_objs s g)
  unfold errorTold
  extract_lets n second
  split
  · exact ⟨hmem _, rfl⟩
  · exact ⟨counts_emit hr (hmem _), (emit_ch (List.Subset.refl _) (Changes.refl _ _)).dram (by decide)⟩

/-- Retiring a rank, or the spare that a migration fills, leaves the words and the counts of errors alone. -/
theorem keepsWords_errorAnswered (s : State) {r : Nat} (hr : r < 6) : KeepsWords r s (errorAnswered s r) := by
  have hsame : ModeFrame.Agrees (countKeys r) s s := fun _ _ => rfl
  have hretired : KeepsWords r s (retireRank s r 1) :=
    ⟨counts_retireRank hr hsame, (retireRank_ch (List.Subset.refl _) (Changes.refl _ s)).dram (by decide)⟩
  unfold errorAnswered
  split
  · split
    · exact ⟨counts_migrationSpareFailed hr hsame, (migrationSpareFailed_ch (List.Subset.refl _) (Changes.refl _ s)).dram (by decide)⟩
    · exact hretired
  · exact hretired

theorem keepsWords_log (s : State) {r : Nat} (hr : r < 6) (word synd source : Nat) :
    KeepsWords r s (logWord s 4 r word 0xFF 0 synd source 1) :=
  ⟨counts_memLogEntry hr fun _ _ => rfl, (logWord_ch (List.Subset.refl _) (Changes.refl _ s)).dram (by decide)⟩

theorem KeepsWords.trans {rank : Nat} {r s t : State} (h : KeepsWords rank r s) (h' : KeepsWords rank s t) : KeepsWords rank r t :=
  ⟨h.1.trans h'.1, h'.2.trans h.2⟩

theorem lastingError_spec (s : State) {r : Nat} (hr : r < 6) (word synd source : Nat) :
    storedWord (lastingError s r word synd source) r word = poisonWord ∧
      getN (lastingError s r word synd source) (K.rankUe r) = satInc 32 (getN s (K.rankUe r)) := by
  obtain ⟨hcounts, hdram⟩ := ((keepsWords_log (errorCounted s r word) hr word synd source).trans (keepsWords_errorTold _ hr)).trans
    (keepsWords_errorAnswered _ hr)
  rw [lastingError_eq]
  exact ⟨(storedWord_of_dram hdram r word).trans (storedWord_errorCounted s r word),
    (congrArg Val.toNat (hcounts _ (by simp [countKeys]))).trans (errorCounted_count s hr word)⟩

/-! ## Injection (R277) -/

theorem injectPin_lt (word pin mask : Nat) : injectPin word pin mask < 2 ^ 144 := by
  unfold injectPin
  split
  · next h =>
    refine error_lt ?_ (Nat.mod_lt _ (by decide))
    split <;> omega
  · decide

/-- A write within one word. -/
theorem writeRank_within (s : State) (r addr : Nat) {data : List Byte} (hne : data ≠ []) (hlen : addr % 16 + data.length ≤ 16) :
    writeRank s r addr data = writeWithin (touchRank s r) r (addr / 16) (addr % 16) data := by
  have hne : data.isEmpty = false := by simpa using hne
  unfold writeRank
  rw [writeBytesAt, hne]
  dsimp only
  rw [List.take_of_length_le (by omega), List.drop_eq_nil_of_le (by omega), if_neg (by decide), writeBytesAt_nil]

theorem writeRank_whole (s : State) (r word : Nat) {data : List Byte} (hlen : data.length = 16) :
    writeRank s r (16 * word) data = writeWord (touchRank s r) r word (ofLe data) := by
  have hne : data ≠ [] := by
    rintro rfl
    exact absurd hlen (by decide)
  rw [writeRank_within s r _ hne (by omega), show 16 * word / 16 = word by omega, show 16 * word % 16 = 0 by omega, writeWithin,
    if_neg (by simpa using hne), if_pos ⟨rfl, hlen⟩]

/-- A write of part of a poisoned word stores nothing (R257). -/
theorem writeWithin_poisoned {s : State} {r word lo : Nat} {data : List Byte} (hlen : data.length < 16)
    (hinj : readFrom s r word * rankWords + word ∉ s.mem.injected)
    (hpoison : decodeWord (storedWord s (readFrom s r word) word) = .poisoned) : writeWithin s r word lo data = s := by
  have hread : fetchWord s r word = (s, none) := by
    unfold fetchWord
    exact readWord_poisoned hinj hpoison
  unfold writeWithin
  split
  · rfl
  · rw [if_neg (by omega), hread]

theorem readFrom_touchRank (s : State) (q r word : Nat) : readFrom (touchRank s q) r word = readFrom s r word := by
  unfold readFrom
  rw [touchRank_mem]

/-- What an armed injection inverts of a word. -/
def injection (s : State) (word : Nat) : Nat :=
  injectPin word (getN s K.memInjPin) (getN s K.memInjMask) ^^^ injectPin word (getN s K.memInjPin2) (getN s K.memInjMask)

/-- The injection used for one more word. -/
def injectionUsed (s : State) (r word : Nat) : State :=
  modMem s (fun m => { m with
    injLeft := m.injLeft - 1
    injected := if injection s word = 0 then m.injected.filter (· ≠ r * rankWords + word)
      else (r * rankWords + word) :: m.injected.filter (· ≠ r * rankWords + word) })

/-- The last word disarms the injection. -/
def injectionEnded (s : State) (r word : Nat) : State :=
  if s.mem.injLeft - 1 = 0 then writeB (injectionUsed s r word) K.memInjArm false else injectionUsed s r word

theorem injectionEnded_mem (s : State) (r word : Nat) : (injectionEnded s r word).mem = (injectionUsed s r word).mem := by
  unfold injectionEnded
  split
  · exact (writeB_ch (P := [.objs]) (List.Subset.refl _) (Changes.refl _ _)).mem (by decide)
  · rfl

theorem writeWord_armed {s : State} {r word d : Nat} (harm : getB s K.memInjArm = true) (hrank : getN s K.memInjRank = r)
    (hleft : 0 < s.mem.injLeft) (hmigr : s.mem.migr = none) :
    writeWord s r word d = storeWord (injectionEnded s r word) r word (encodeWord d ^^^ injection s word) := by
  have hin : writeWordIn s r word d = storeWord (injectionEnded s r word) r word (encodeWord d ^^^ injection s word) :=
    if_pos ⟨harm, hrank, hleft⟩
  have hnone : (storeWord (injectionEnded s r word) r word (encodeWord d ^^^ injection s word)).mem.migr = none :=
    (congrArg Mem.migr (injectionEnded_mem s r word)).trans hmigr
  unfold writeWord
  rw [hin]
  simp only [hnone]

theorem injection_lt (s : State) (word : Nat) : injection s word < 2 ^ 144 :=
  Nat.xor_lt_two_pow (injectPin_lt _ _ _) (injectPin_lt _ _ _)

theorem injectionEnded_disarmed {s : State} (r word : Nat) (hlast : s.mem.injLeft = 1) :
    getB (injectionEnded s r word) K.memInjArm = false := by
  unfold injectionEnded
  rw [if_pos (by omega)]
  exact getB_writeB _ _ _

/-! ## The statement's parts -/

/-- A key that an access leaves alone. -/
theorem getN_touched (s : State) {r idx sub : Nat} (h : idx < 0x4010 ∨ 0x4023 ≤ idx) (hsub : sub < 256) (hr : r < 6) :
    getN (touchRank s r) (objKey idx sub) = getN s (objKey idx sub) :=
  getN_touchRank s (by simp only [K.grpState, K.rankNrr, objKey]; omega)

theorem rankCount_touched (s : State) {r sub : Nat} (hr : r < 6) (hsub : 4 < sub ∧ sub < 9) :
    getN (touchRank s r) (objKey (0x4010 + r) sub) = getN s (objKey (0x4010 + r) sub) :=
  getN_touchRank s (by simp only [K.grpState, K.rankNrr, objKey]; omega)

theorem onBadPin_touched (s : State) {r : Nat} (hr : r < 6) (word i : Nat) : onBadPin (touchRank s r) r word i = onBadPin s r word i := by
  have hpins : getV (touchRank s r) (K.grpBadPins (r / 2)) = getV s (K.grpBadPins (r / 2)) :=
    (touchRank_objs s r _ (by simp only [K.grpBadPins, K.grpState, K.rankNrr, objKey, List.mem_cons, List.not_mem_nil, or_false]; omega)).1
  unfold onBadPin getBytes
  rw [hpins]

theorem storedWord_touched (s : State) (q r word : Nat) : storedWord (touchRank s q) r word = storedWord s r word :=
  storedWord_of_dram ((touchRank_changes s q).dram (by decide)) r word

section
variable {s : State} {rank : Fin 6} {word : Nat} (n1 n2 : List Byte) (hword : word < rankWords) (hgrp : 2 ≤ getN s (K.grpState (rank / 2)))
  (hinj : rank * rankWords + word ∉ s.mem.injected)
include hword hgrp hinj

omit hinj in
/-- A read of a word of a group that is on, by what the word's read does. -/
theorem exec_memRead_of {p : State × Option Nat}
    (h : readWord (touchRank s rank) rank word (ofLe (n1.take 18)) (ofLe (n2.take 18)) 1 = p) :
    exec (.memRead rank word n1 n2 false) s = .next (shown p) := by
  rw [exec_memRead n1 n2 hword hgrp, h]

omit hword hgrp in
theorem notInjected_touched : rank * rankWords + word ∉ (touchRank s rank).mem.injected := by
  rw [touchRank_mem]
  exact hinj

theorem memRead_clean (hzero : ofLe (n1.take 18) = 0) (hclean : decodeWord (storedWord s rank word) = .clean) :
    ∃ t, exec (.memRead rank word n1 n2 false) s = .next t ∧ t.mem.out = some (some (leBytes 16 (storedWord s rank word % 2 ^ 128))) ∧
      onlyObjs [K.grpState (rank / 2), K.rankNrr rank] s t ∧ Changes [.fresh, .objs, .mem] s t := by
  have hread := readWord_clean (s := touchRank s rank) (ofLe (n2.take 18)) 1 (notInjected_touched hinj)
    (by rw [storedWord_touched]; exact hclean)
  rw [← hzero, storedWord_touched] at hread
  exact ⟨_, exec_memRead_of n1 n2 hword hgrp hread, rfl, touchRank_objs s rank,
    shown_touched _ _ _⟩

theorem memRead_poisoned (hzero : ofLe (n1.take 18) = 0) (hpoison : decodeWord (storedWord s rank word) = .poisoned) :
    ∃ t, exec (.memRead rank word n1 n2 false) s = .next t ∧ t.mem.out = some none ∧ Changes [.fresh, .objs, .mem] s t := by
  have hread := readWord_poisoned (s := touchRank s rank) (n2 := ofLe (n2.take 18)) (source := 1) (notInjected_touched hinj)
    (by rw [storedWord_touched]; exact hpoison)
  rw [← hzero] at hread
  exact ⟨_, exec_memRead_of n1 n2 hword hgrp hread, rfl, shown_touched _ _ _⟩

theorem memRead_uncorrectable (hfirst : decodeWord (storedWord s rank word ^^^ ofLe (n1.take 18)) = .uncorrectable)
    (hagain : decodeWord (storedWord s rank word ^^^ ofLe (n2.take 18)) = .uncorrectable ∨
      decodeWord (storedWord s rank word ^^^ ofLe (n2.take 18)) = .poisoned) :
    ∃ t, exec (.memRead rank word n1 n2 false) s = .next t ∧ storedWord t rank word = poisonWord ∧ t.mem.out = some none ∧
      getN t (K.rankUe rank) = satInc 32 (getN s (K.rankUe rank)) := by
  rw [← storedWord_touched s rank rank word] at hfirst hagain
  obtain ⟨hpoison, hcount⟩ := lastingError_spec (touchRank s rank) rank.isLt word
    (syndrome (storedWord (touchRank s rank) rank word ^^^ ofLe (n1.take 18))) 1
  refine ⟨_, exec_memRead_of n1 n2 hword hgrp (readWord_uncorrectable (notInjected_touched hinj) hfirst hagain), ?_, rfl, ?_⟩
  · exact (storedWord_shown _ _ _).trans hpoison
  · refine (getN_shown _ _).trans (hcount.trans (congrArg (satInc 32) ?_))
    exact rankCount_touched s rank.isLt (sub := 7) (by decide)

variable {i e : Nat} (hfirst : decodeWord (storedWord s rank word ^^^ ofLe (n1.take 18)) = .corrected i e)
include hfirst

theorem memRead_transient
    (hagain : decodeWord (storedWord s rank word ^^^ ofLe (n1.take 18) ^^^ (e * 2 ^ (4 * i)) ^^^ ofLe (n2.take 18)) = .clean)
    (hpin : onBadPin s rank word i = false) : ∃ t, exec (.memRead rank word n1 n2 false) s = .next t ∧
      storedWord t rank word = storedWord s rank word ^^^ ofLe (n1.take 18) ^^^ (e * 2 ^ (4 * i)) ∧
      t.mem.out = some (some (leBytes 16 (storedWord t rank word % 2 ^ 128))) ∧
      getN t (K.rankCeTrans rank) = satInc 32 (getN s (K.rankCeTrans rank)) ∧
      (∀ r w, r ≠ rank.val ∨ w ≠ word → r < 6 → w < rankWords → storedWord t r w = storedWord s r w) ∧
      onlyObjs [K.grpState (rank / 2), K.rankNrr rank, K.rankCeTrans rank, K.memLogSeq] s t := by
  have hgood := good_lt s rank word n1 hfirst
  have hread := readWord_corrected (n2 := ofLe (n2.take 18)) (source := 1) (notInjected_touched hinj)
    (by rw [storedWord_touched]; exact hfirst)
  rw [storedWord_touched, correctWord_transient hagain (by rw [onBadPin_touched s rank.isLt]; exact hpin)] at hread
  have hexec := exec_memRead_of n1 n2 hword hgrp hread
  generalize storedWord s rank word ^^^ ofLe (n1.take 18) ^^^ (e * 2 ^ (4 * i)) = good at hgood hexec ⊢
  generalize syndrome (storedWord s rank word ^^^ ofLe (n1.take 18)) = synd at hexec
  have hdram : (transientCorrection (storeWord (touchRank s rank) rank word good) rank word i e synd 1).dram =
      (storeWord (touchRank s rank) rank word good).dram :=
    (transientCorrection_ch (List.Subset.refl _) (Changes.refl _ _)).dram (by decide)
  have hobjs := transientCorrection_objs (storeWord (touchRank s rank) rank word good) rank word i e synd 1
  generalize transientCorrection (storeWord (touchRank s rank) rank word good) rank word i e synd 1 = u at hdram hobjs hexec
  have hstored : storedWord u rank word = good := (storedWord_of_dram hdram _ _).trans (storedWord_storeWord _ _ _ hgood)
  refine ⟨_, hexec, hstored, ?_, ?_, ?_, ?_⟩
  · rw [storedWord_shown, hstored]
    rfl
  · have hseq : K.rankCeTrans rank ∉ [K.memLogSeq] := by
      simp only [K.rankCeTrans, K.memLogSeq, objKey, List.mem_cons, List.not_mem_nil, or_false]
      omega
    refine (congrArg Val.toNat (hobjs _ hseq).1).trans ((getN_bump _ (K.rankCeTrans rank)).trans (congrArg (satInc 32) ?_))
    exact rankCount_touched s rank.isLt (sub := 6) (by decide)
  · intro r w hne hr hw
    rw [storedWord_shown, storedWord_of_dram hdram, storedWord_storeWord_ne _ _ (by unfold rankWords at *; omega), storedWord_touched]
  · have htouched : onlyObjs [K.grpState (rank / 2), K.rankNrr rank, K.rankCeTrans rank, K.memLogSeq] s
        (bump (storeWord (touchRank s rank) rank word good) (K.rankCeTrans rank)) :=
      onlyObjs_bump (by simp) (fun k hk => touchRank_objs s rank k (fun h => hk (List.mem_append_left [_, _] h)))
    exact onlyObjs_trans htouched (fun k hk => hobjs k (fun h => hk (List.mem_append_right [_, _, _] h)))

theorem memRead_lasting
    (hlasting : decodeWord (storedWord s rank word ^^^ ofLe (n1.take 18) ^^^ (e * 2 ^ (4 * i)) ^^^ ofLe (n2.take 18)) ≠ .clean ∨
      onBadPin s rank word i = true) (hnew : ∀ b ∈ tget s.mem.buckets rank [], word ∉ b) :
    ∃ t, exec (.memRead rank word n1 n2 false) s = .next t ∧
      storedWord t rank word = storedWord s rank word ^^^ ofLe (n1.take 18) ^^^ (e * 2 ^ (4 * i)) ∧
      t.mem.out = some (some (leBytes 16 (storedWord t rank word % 2 ^ 128))) ∧
      getN t (K.rankCeTrans rank) = getN s (K.rankCeTrans rank) ∧
      getN t (K.rankCeTotal rank) = satInc 32 (getN s (K.rankCeTotal rank)) := by
  have hgood := good_lt s rank word n1 hfirst
  have hread := readWord_corrected (n2 := ofLe (n2.take 18)) (source := 1) (notInjected_touched hinj)
    (by rw [storedWord_touched]; exact hfirst)
  rw [storedWord_touched, correctWord_lasting (by rw [onBadPin_touched s rank.isLt]; exact hlasting)] at hread
  have hexec := exec_memRead_of n1 n2 hword hgrp hread
  generalize storedWord s rank word ^^^ ofLe (n1.take 18) ^^^ (e * 2 ^ (4 * i)) = good at hgood hexec ⊢
  generalize syndrome (storedWord s rank word ^^^ ofLe (n1.take 18)) = synd at hexec
  have hbuckets : (storeWord (touchRank s rank) rank word good).mem.buckets = s.mem.buckets :=
    congrArg (fun m => m.buckets) (touchRank_mem s rank)
  have hdram : (lastingCorrection (storeWord (touchRank s rank) rank word good) rank word i e synd 1).dram =
      (storeWord (touchRank s rank) rank word good).dram :=
    (lastingCorrection_ch (List.Subset.refl _) (Changes.refl _ _)).dram (by decide)
  obtain ⟨htrans, htotal⟩ := lastingCorrection_counts (s := storeWord (touchRank s rank) rank word good) rank.isLt i e synd 1
    (by rw [hbuckets]; exact hnew)
  generalize lastingCorrection (storeWord (touchRank s rank) rank word good) rank word i e synd 1 = u at hdram htrans htotal hexec
  have hstored : storedWord u rank word = good := (storedWord_of_dram hdram _ _).trans (storedWord_storeWord _ _ _ hgood)
  refine ⟨_, hexec, hstored, ?_, ?_, ?_⟩
  · rw [storedWord_shown, hstored]
    rfl
  · exact htrans.trans (rankCount_touched s rank.isLt (sub := 6) (by decide))
  · exact htotal.trans (congrArg (satInc 32) (rankCount_touched s rank.isLt (sub := 5) (by decide)))

end

section
variable {s : State} {rank : Fin 6} {addr : Nat} {data : List Byte} (hend : addr + data.length ≤ 16 * rankWords)
  (hgrp : 2 ≤ getN s (K.grpState (rank / 2)))
include hend hgrp

theorem exec_memWrite : exec (.memWrite rank addr data) s = .next (writeRank s rank addr data) := by
  show execMemWrite rank addr data s = _
  unfold execMemWrite
  rw [if_neg (by omega), if_neg (by omega)]

theorem memWrite_calm (hcalm : CalmMemory s) : ∃ t, exec (.memWrite rank addr data) s = .next t ∧
      (∀ k, k < data.length → memGet t.dram (dramKey rank ((addr + k) / 16) 0 + (addr + k) % 16) = data.getD k 0) ∧
      (∀ a, a < addr ∨ addr + data.length ≤ a → memGet t.dram (dramKey rank (a / 16) 0 + a % 16) = memGet s.dram (dramKey rank (a / 16) 0 + a % 16)) ∧
      CalmMemory t ∧ onlyObjs [K.grpState (rank / 2), K.rankNrr rank] s t ∧ Changes [.fresh, .objs, .dram, .mem] s t := by
  obtain ⟨hbytes, _, hcalm', hch⟩ := bytesPut_writeRank hcalm rank.isLt addr data
  have hsame : (touchRank s rank).dram = s.dram := (touchRank_changes s rank).dram (by decide)
  refine ⟨_, exec_memWrite hend hgrp, fun k hk => ?_, fun a ha => ?_, hcalm', ?_, ?_⟩
  · refine (hbytes (addr + k)).trans ?_
    rw [if_pos (by omega), Nat.add_sub_cancel_left]
  · refine (hbytes a).trans ?_
    rw [if_neg (by omega), hsame]
    rfl
  · exact onlyObjs_trans (touchRank_objs s rank) (onlyObjs_of_eq (hch.objs (by decide) (by decide)))
  · exact ((touchRank_changes s rank).mono (by decide)).trans (hch.mono (by decide))

theorem memWrite_poisoned (hpart : addr % 16 + data.length < 16) (hne : data ≠ [])
    (hinj : readFrom s rank (addr / 16) * rankWords + addr / 16 ∉ s.mem.injected)
    (hpoison : decodeWord (storedWord s (readFrom s rank (addr / 16)) (addr / 16)) = .poisoned) :
    ∃ t, exec (.memWrite rank addr data) s = .next t ∧ Changes [.fresh, .objs, .mem] s t := by
  have hsame : writeRank s rank addr data = touchRank s rank := by
    rw [writeRank_within s rank addr hne (by omega)]
    refine writeWithin_poisoned (by omega) ?_ ?_
    · rw [readFrom_touchRank, touchRank_mem]
      exact hinj
    · rw [readFrom_touchRank, storedWord_touched]
      exact hpoison
  refine ⟨_, exec_memWrite hend hgrp, ?_⟩
  rw [hsame]
  exact touchRank_changes s rank

end

theorem memWrite_injected {s : State} {rank : Fin 6} {word n : Nat} {data : List Byte} (hword : word < rankWords) (hlen : data.length = 16)
    (hgrp : 2 ≤ getN s (K.grpState (rank / 2))) (hmigr : s.mem.migr = none) (harm : getB s K.memInjArm = true)
    (hrank : getN s K.memInjRank = rank.val) (hleft : s.mem.injLeft = n + 1) :
    ∃ t, exec (.memWrite rank (16 * word) data) s = .next t ∧ t.mem.injLeft = n ∧ (n = 0 → getB t K.memInjArm = false) ∧
      storedWord t rank word = encodeWord (ofLe data) ^^^ (injectPin word (getN s K.memInjPin) (getN s K.memInjMask) ^^^
        injectPin word (getN s K.memInjPin2) (getN s K.memInjMask)) := by
  have hkey {sub : Nat} (hsub : sub < 256) : getN (touchRank s rank) (objKey 0xF400 sub) = getN s (objKey 0xF400 sub) :=
    getN_touched s (by decide) hsub rank.isLt
  have hleft' : (touchRank s rank).mem.injLeft = n + 1 := by
    rw [touchRank_mem]
    exact hleft
  have harm' : getB (touchRank s rank) K.memInjArm = true := (congrArg (· != 0) (hkey (sub := 6) (by decide))).trans harm
  have hinj : injection (touchRank s rank) word = injection s word := by
    have hpin : getN (touchRank s rank) K.memInjPin = getN s K.memInjPin := hkey (sub := 2) (by decide)
    have hpin2 : getN (touchRank s rank) K.memInjPin2 = getN s K.memInjPin2 := hkey (sub := 3) (by decide)
    have hmask : getN (touchRank s rank) K.memInjMask = getN s K.memInjMask := hkey (sub := 4) (by decide)
    unfold injection
    rw [hpin, hpin2, hmask]
  have hwrite : writeRank s rank (16 * word) data =
      storeWord (injectionEnded (touchRank s rank) rank word) rank word (encodeWord (ofLe data) ^^^ injection s word) := by
    rw [writeRank_whole s rank word hlen, writeWord_armed harm' ((hkey (sub := 1) (by decide)).trans hrank) (by omega)
      ((congrArg Mem.migr (touchRank_mem s rank)).trans hmigr), hinj]
  have hmem := congrArg Mem.injLeft (injectionEnded_mem (touchRank s rank) rank word)
  refine ⟨_, exec_memWrite (by unfold rankWords at *; omega) hgrp, ?_, fun hn => ?_, ?_⟩
  · rw [hwrite]
    refine hmem.trans ?_
    show (touchRank s rank).mem.injLeft - 1 = n
    omega
  · rw [hwrite]
    exact injectionEnded_disarmed rank word (by omega)
  · rw [hwrite, storedWord_storeWord _ _ _ (Nat.xor_lt_two_pow (encodeWord_lt (ofLe_lt_word hlen)) (injection_lt s word))]
    rfl

/-! ## The obligation -/

/-- Settles O45: a read's effect follows what its first and second reads decode as; a write reaches its own bytes alone. -/
theorem memoryWords : Obligations.MemoryWords := by
  unfold Obligations.MemoryWords
  refine ⟨fun d hd => ⟨decodeWord_encodeWord hd, encodeWord_mod hd⟩, ?_, ?_, ?_, ?_, ?_, ?_, ?_, ?_, ?_, ?_, ?_⟩
  · exact fun s rank word n1 n2 hword hgrp hinj => memRead_clean n1 n2 hword hgrp hinj
  · exact fun s rank word n1 n2 i e hword hgrp hinj => memRead_transient n1 n2 hword hgrp hinj
  · exact fun s rank word n1 n2 i e hword hgrp hinj => memRead_lasting n1 n2 hword hgrp hinj
  · exact fun s rank word n1 n2 hword hgrp hinj => memRead_uncorrectable n1 n2 hword hgrp hinj
  · exact fun s rank word n1 n2 hword hgrp hinj => memRead_poisoned n1 n2 hword hgrp hinj
  · exact fun s rank addr data hend hgrp hcalm => memWrite_calm hend hgrp hcalm
  · exact fun s rank addr data hpart hne hend hgrp => memWrite_poisoned hend hgrp hpart hne
  · exact fun s rank word data n hword hlen hgrp => memWrite_injected hword hlen hgrp
  · exact fun s rank word addr n1 n2 data b hoff =>
      ⟨fun hword => (if_neg (by omega)).trans (if_pos hoff), fun hend => (if_neg (by omega)).trans (if_pos hoff)⟩
  · exact fun s rank word n1 n2 b hword => if_pos hword
  · exact fun s rank addr data hend => if_pos hend

end Sys2Proof.Proofs.MemoryWords

/-!
PROOFS. O41: layers set by command, and commits.
-/

namespace Sys2Proof.Proofs.LayersAndCommits

open Sys2Proof.Machine
open Sys2Proof.Proofs.FenceObjects (getN_fetched ringDone_anyResult)
open Sys2Proof.Proofs.FenceWaits (not_noteKey_ring)

/-! ## Setting commit bits (R123) -/

theorem commitBits_changes (s : State) (p bits : Nat) : Changes [.objs, .ports] s (commitBits s p bits) :=
  commitBits_ch (List.Subset.refl _) (Changes.refl _ s)

theorem commitBits_objs (s : State) (p bits : Nat) : onlyObjs [K.outCommitPend p] s (commitBits s p bits) := by
  have hput (n : Nat) : onlyObjs [K.outCommitPend p] s (putN s (K.outCommitPend p) n) := onlyObjs_putN n (by simp) (onlyObjs_refl _ s)
  unfold commitBits
  dsimp only
  split
  · exact hput _
  · split
    · split
      · exact onlyObjs_refl _ s
      · exact onlyObjs_trans (hput _) (onlyObjs_of_eq (modPort_objs _ _ _))
    · exact onlyObjs_trans (hput _) (onlyObjs_of_eq (modPort_objs _ _ _))

theorem getN_commitBits (s : State) (p bits : Nat) : getN (commitBits s p bits) (K.outCommitPend p) = pendAfter s p bits := by
  unfold commitBits pendAfter
  dsimp only
  cases hclosed : (portOf s p).closed
  · exact getN_putN s _ _
  · by_cases hlate : modeLarge (portOf s p).runMode = true ∧ outSt s p ≠ outStopping
    · obtain ⟨hmode, hst⟩ := hlate
      simp only [hmode, hst, Bool.not_true, Bool.false_eq_true, if_false, true_and, not_false_iff, if_true, Bool.true_and, ne_eq, bne_iff_ne]
      by_cases hnew : bits - (bits &&& (portOf s p).latched) = 0
      · rw [if_pos hnew, hnew, Nat.or_zero]
      · rw [if_neg hnew]
        exact getN_putN s _ _
    · have hcond : (true && modeLarge (portOf s p).runMode && outSt s p != outStopping) = false := by
        simpa [Bool.and_eq_false_imp] using hlate
      rw [hcond, if_neg (by simp), if_neg hlate, if_neg (by simp)]
      exact getN_putN s _ _

theorem commitBits_open {s : State} {p : Nat} (bits : Nat) (h : (portOf s p).closed = false) : (commitBits s p bits).ports = s.ports := by
  unfold commitBits
  dsimp only
  rw [if_pos (by simp [h])]
  rfl

theorem portOf_commitBits_ne (s : State) {p q : Nat} (bits : Nat) (h : q ≠ p) : portOf (commitBits s p bits) q = portOf s q := by
  have hmod (n : Nat) (g : Port → Port) : portOf (modPort (putN s (K.outCommitPend p) n) p g) q = portOf s q :=
    portOf_modPort_ne (s := putN s (K.outCommitPend p) n) g h
  unfold commitBits
  dsimp only
  split
  · rfl
  · split
    · split
      · rfl
      · exact hmod _ _
    · exact hmod _ _

/-- The bits that a function may set on a port follow the owners of its layers. -/
theorem commitMask_congr {s u : State} {p : Nat} (h : ∀ k, k < 6 → getN u (K.layerOwner p k) = getN s (K.layerOwner p k)) (f : Nat)
    (level : Bool) : commitMask u f p level = commitMask s f p level := by
  have howned : ownedBits u f p = ownedBits s f p := by
    unfold ownedBits sumN
    refine congrArg List.sum (List.map_congr_left fun k hk => ?_)
    unfold layerOwner
    rw [h k (List.mem_range.1 hk)]
  unfold commitMask
  rw [howned]

theorem pendAfter_congr {s u : State} {p : Nat} (hpend : getN u (K.outCommitPend p) = getN s (K.outCommitPend p))
    (hport : portOf u p = portOf s p) (hst : getN u (K.outState p) = getN s (K.outState p)) (bits : Nat) :
    pendAfter u p bits = pendAfter s p bits := by
  unfold pendAfter outSt
  rw [hpend, hport, hst]

/-- The bits of several ports set. -/
def commitAll (s : State) (f : Nat) (ps : List Nat) : State :=
  foldN ps (fun s p => commitBits s p (commitMask s f p (isPf f))) s

theorem commitAll_changes (s : State) (f : Nat) (ps : List Nat) : Changes [.objs, .ports] s (commitAll s f ps) :=
  foldN_ch ps (Changes.refl _ s) fun _ _ hx => commitBits_ch (List.Subset.refl _) hx

theorem commitAll_objs (s : State) (f : Nat) (ps : List Nat) : onlyObjs (ps.map K.outCommitPend) s (commitAll s f ps) := by
  induction ps generalizing s with
  | nil => exact onlyObjs_refl _ s
  | cons p ps ih =>
    refine onlyObjs_trans (t := commitAll (commitBits s p (commitMask s f p (isPf f))) f ps) (fun k hk => ?_)
      (fun k hk => ih _ k (fun h => hk (List.mem_cons_of_mem _ h)))
    exact commitBits_objs s p _ k (by rintro h; exact hk (by rw [List.mem_singleton.1 h]; exact List.mem_cons_self))

/-- The keys that a port's pending bits depend on, but for the bits themselves, are no port's pending bits. -/
theorem notPend {p sub : Nat} (h : sub ≠ 15) (hsub : sub < 256) (idx : Nat) : objKey idx sub ≠ K.outCommitPend p := by
  simp only [K.outCommitPend, objKey]
  omega

theorem getN_commitBits_ne (s : State) (p bits : Nat) {k : Nat} (h : k ≠ K.outCommitPend p) : getN (commitBits s p bits) k = getN s k :=
  congrArg Val.toNat (commitBits_objs s p bits k (by simpa using h)).1

theorem getN_commitAll (s : State) (f : Nat) {ps : List Nat} (hps : ps.Nodup) {p : Nat} (hp : p ∈ ps) :
    getN (commitAll s f ps) (K.outCommitPend p) = pendAfter s p (commitMask s f p (isPf f)) := by
  induction ps generalizing s with
  | nil => exact absurd hp (by simp)
  | cons q ps ih =>
    obtain ⟨hq, hps⟩ := List.nodup_cons.1 hps
    have hpend {a b : Nat} (h : a ≠ b) : K.outCommitPend a ≠ K.outCommitPend b := by
      simp only [K.outCommitPend, objKey]
      omega
    show getN (commitAll (commitBits s q (commitMask s f q (isPf f))) f ps) (K.outCommitPend p) = _
    rcases List.mem_cons.1 hp with rfl | hp
    · have hlater : K.outCommitPend p ∉ ps.map K.outCommitPend := by
        rintro h
        obtain ⟨a, ha, heq⟩ := List.mem_map.1 h
        exact hpend (a := a) (b := p) (fun e => hq (by rw [← e]; exact ha)) heq
      exact (congrArg Val.toNat (commitAll_objs _ f ps _ hlater).1).trans (getN_commitBits s p _)
    · have hne : p ≠ q := fun h => hq (h ▸ hp)
      rw [ih _ hps hp, commitMask_congr (fun k _ => getN_commitBits_ne s q _ (notPend (by decide) (by decide) _))]
      exact pendAfter_congr (getN_commitBits_ne s q _ (hpend hne)) (portOf_commitBits_ne s _ hne)
        (getN_commitBits_ne s q _ (notPend (by decide) (by decide) _)) _

/-! ## The layer's objects (R127) -/

/-- Fields written to a layer's shadow objects. -/
def layerWrites (s : State) (p k : Nat) (fs : List (Nat × Nat × Nat)) : State :=
  fs.foldl (fun s e => writeN s (layerKey p k e.2.1) e.2.2) s

theorem layerKey_inj {p k a b : Nat} (h : a ≠ b) : layerKey p k a ≠ layerKey p k b := by
  simp only [layerKey, objKey]
  omega

theorem layerWrites_objs (s : State) (p k : Nat) (fs : List (Nat × Nat × Nat)) :
    onlyObjs (fs.map (fun e => layerKey p k e.2.1)) s (layerWrites s p k fs) := by
  induction fs generalizing s with
  | nil => exact onlyObjs_refl _ s
  | cons e fs ih =>
    exact onlyObjs_trans (onlyObjs_writeN e.2.2 List.mem_cons_self (onlyObjs_refl _ s))
      (fun k hk => ih _ k (fun h => hk (List.mem_cons_of_mem _ h)))

theorem getN_layerWrites (s : State) (p k : Nat) {fs : List (Nat × Nat × Nat)} (hfs : (fs.map (fun e => e.2.1)).Nodup)
    {e : Nat × Nat × Nat} (he : e ∈ fs) : getN (layerWrites s p k fs) (layerKey p k e.2.1) = e.2.2 := by
  induction fs generalizing s with
  | nil => exact absurd he (by simp)
  | cons x fs ih =>
    obtain ⟨hx, hfs⟩ := List.nodup_cons.1 hfs
    show getN (layerWrites (writeN s (layerKey p k x.2.1) x.2.2) p k fs) _ = _
    rcases List.mem_cons.1 he with rfl | he
    · have hlater : layerKey p k e.2.1 ∉ fs.map (fun e => layerKey p k e.2.1) := by
        rintro h
        obtain ⟨a, ha, heq⟩ := List.mem_map.1 h
        exact layerKey_inj (fun h => hx (List.mem_map.2 ⟨a, ha, h⟩)) heq
      exact (congrArg Val.toNat (layerWrites_objs _ p k fs _ hlater).1).trans (getN_writeN s _ _)
    · exact ih _ hfs he

/-- The sub-indices of the fields that a command may name. -/
def layerSubs : List Nat := [2, 3, 4, 5, 6, 7, 8, 9, 10, 11, 12]

theorem layerSetFields_subs (surface : Nat) (y : LayerSetPayload) : List.Sublist ((layerSetFields surface y).map (fun e => e.2.1)) layerSubs :=
  List.Sublist.map (fun e : Nat × Nat × Nat => e.2.1) List.filter_sublist

theorem layerSetFields_nodup (surface : Nat) (y : LayerSetPayload) : ((layerSetFields surface y).map (fun e => e.2.1)).Nodup :=
  (layerSetFields_subs surface y).nodup (by decide)

theorem layerSub_range {surface : Nat} {y : LayerSetPayload} {e : Nat × Nat × Nat} (he : e ∈ layerSetFields surface y) :
    2 ≤ e.2.1 ∧ e.2.1 ≤ 12 := by
  have hsub : e.2.1 ∈ layerSubs := (layerSetFields_subs surface y).subset (List.mem_map_of_mem he)
  have hall : ∀ n ∈ layerSubs, 2 ≤ n ∧ n ≤ 12 := by decide
  exact hall _ hsub

/-- An object that is none of a layer's fields keeps its value when they are set. -/
theorem getN_layerSetApply {s : State} {p k surface : Nat} {y : LayerSetPayload} {j : Nat}
    (h : ∀ sub, 2 ≤ sub → sub ≤ 12 → j ≠ layerKey p k sub) : getN (layerSetApply s p k surface y) j = getN s j := by
  refine congrArg Val.toNat (layerWrites_objs s p k (layerSetFields surface y) j fun hin => ?_).1
  obtain ⟨e, he, heq⟩ := List.mem_map.1 hin
  obtain ⟨hlo, hhi⟩ := layerSub_range he
  exact h _ hlo hhi heq.symm

/-! ## Answers -/

/-- An operation between a command's fetch and its answer that leaves what the answer depends on alone. -/
theorem sameRing_after {s u v : State} {h : CmdHdr} (hs : SameRing s u h) {ks : List Nat} {P : List Part} (hch : Changes P u v)
    (hP : Part.rings ∉ P ∧ Part.funcs ∉ P ∧ Part.now ∉ P) (hobjs : onlyObjs ks u v)
    (hks : K.ringCqBase h.ring ∉ ks ∧ K.ringCqOrder h.ring ∉ ks) : SameRing s v h := by
  obtain ⟨hrings, hfuncs, hnow⟩ := hP
  have hring : ringOf v h.ring = ringOf u h.ring := by rw [ringOf, hch.rings hrings, ringOf]
  have hfunc (f : Nat) : funcOf v f = funcOf u f := by rw [funcOf, hch.funcs hfuncs, funcOf]
  have hkey {k : Nat} (hk : k ∉ ks) : getN v k = getN u k := congrArg Val.toNat (hobjs k hk).1
  exact ⟨by rw [hring, hs.head], by rw [hring, hs.cqTail], by rw [hring, hs.cqHead], by rw [hring, hs.era], by rw [hring, hs.held],
    (hch.now hnow).trans hs.now, by rw [hfunc, hs.epoch], (hkey hks.1).trans hs.cqBase, (hkey hks.2).trans hs.cqOrder⟩

/-- A ring's objects are none of a port's or a layer's. -/
theorem ringKey_not_out {r sub idx : Nat} (hr : r < 256) (hsub : sub < 256) (hidx : idx < 0x3100) {n : Nat} (hn : n < 256) :
    objKey (0x3100 + r) sub ≠ objKey idx n := by
  simp only [objKey]
  omega

/-- The parts that an answer changes. -/
def answerParts : List Part := [.fresh, .voteSecond, .host, .funcs, .sess, .rings, .grog, .notes]

theorem layer_not_noteKey {idx sub : Nat} (hidx : idx < 0x3100) (hsub : sub < 256) : ¬ noteKey (objKey idx sub) := by
  simp only [noteKey, K.dictNotifyDrop, K.regVoteFix, K.regVoteBad, K.kaolinCanDrop, K.logOut, objKey]
  omega

/-- A port's or a layer's object is left alone by an answer. -/
theorem getN_answered {u t : State} (hch : Changes answerParts u t) {idx sub : Nat} (hidx : idx < 0x3100) (hsub : sub < 256) :
    getN t (objKey idx sub) = getN u (objKey idx sub) := getN_of_changes hch (by decide) (layer_not_noteKey hidx hsub)

theorem onlyAndNotes_fetched (ks : List Nat) (s : State) (h : CmdHdr) (op : Nat) (pay : List Byte) : onlyObjsAndNotes ks s (fetched s h op pay) :=
  onlyAndNotes_of_changes (fetched_changes s h op pay) (by decide)

theorem onlyAndNotes_answered (ks : List Nat) {u t : State} (hch : Changes answerParts u t) : onlyObjsAndNotes ks u t :=
  onlyAndNotes_of_changes hch (by decide)

/-- A command of a ring that drops nothing is not dropped. -/
theorem droppedBy_none {s : State} {h : CmdHdr} (op : Nat) (pay : List Byte) (hwait : (ringOf s h.ring).dropUntilWait = false)
    (hframe : (ringOf s h.ring).dropFrame = none) : droppedBy (fetched s h op pay) (ticketOf s h op) = none := by
  have hring := ringOf_fetched s h op pay
  have hwait' : (ringOf (fetched s h op pay) (ticketOf s h op).ring).dropUntilWait = false := by
    rw [show (ticketOf s h op).ring = h.ring from rfl, hring]
    exact hwait
  have hframe' : (ringOf (fetched s h op pay) (ticketOf s h op).ring).dropFrame = none := by
    rw [show (ticketOf s h op).ring = h.ring from rfl, hring]
    exact hframe
  unfold droppedBy
  rw [hwait', hframe']

/-! ## LAYER_SET -/

section
variable {s : State} {h : CmdHdr} {y : LayerSetPayload} (hf : Fetches s h 0x30 false) (hwait : (ringOf s h.ring).dropUntilWait = false)
  (hframe : (ringOf s h.ring).dropFrame = none)
include hf hwait hframe

theorem exec_layerSet_failed (hok : layerSetOk s (getN s (K.ringOwner h.ring)) y.port.toNat y.layer.toNat h.surface.toNat y = false) :
    exec (.layerSet h y) s = .next (completeOpen (fetched s h 0x30 y.bytes) (ticketOf s h 0x30) 3) := by
  have hok' : layerSetOk (fetched s h 0x30 y.bytes) (ticketOf s h 0x30).func y.port.toNat y.layer.toNat h.surface.toNat y = false := hok
  show execLayerSet h y s = _
  unfold execLayerSet
  rw [beginCmd_fetches hf]
  dsimp only
  rw [droppedBy_none 0x30 y.bytes hwait hframe]
  dsimp only
  rw [hok', Bool.not_false, if_pos rfl]

theorem layerSet_failed (hok : layerSetOk s (getN s (K.ringOwner h.ring)) y.port.toNat y.layer.toNat h.surface.toNat y = false) :
    ∃ t, exec (.layerSet h y) s = .next t ∧ ringDone s t h 0x30 3 none ∧ onlyObjsAndNotes [] s t ∧ t.ports = s.ports := by
  obtain ⟨hdone, -, hch⟩ := completeOpen_done (st := 3) hf (SameRing.fetched s h 0x30 y.bytes)
  exact ⟨_, exec_layerSet_failed hf hwait hframe hok, hdone,
    onlyAndNotes_trans (onlyAndNotes_fetched [] s h 0x30 y.bytes) (onlyAndNotes_answered [] hch),
    (hch.ports (by decide)).trans ((fetched_changes s h 0x30 y.bytes).ports (by decide))⟩

/-- The state in which a LAYER_SET has set its fields, and the commit bits it asks for. -/
def layersSet (s : State) (f : Nat) (h : CmdHdr) (y : LayerSetPayload) : State :=
  if bitOf y.flags.toNat 0 then
    commitBits (layerSetApply s y.port.toNat y.layer.toNat h.surface.toNat y) y.port.toNat
      (commitMask (layerSetApply s y.port.toNat y.layer.toNat h.surface.toNat y) f y.port.toNat (isPf f))
  else layerSetApply s y.port.toNat y.layer.toNat h.surface.toNat y

theorem exec_layerSet_done (hok : layerSetOk s (getN s (K.ringOwner h.ring)) y.port.toNat y.layer.toNat h.surface.toNat y = true) :
    exec (.layerSet h y) s =
      .next (completeOpen (layersSet (fetched s h 0x30 y.bytes) (getN s (K.ringOwner h.ring)) h y) (ticketOf s h 0x30) 0) := by
  have hok' : layerSetOk (fetched s h 0x30 y.bytes) (ticketOf s h 0x30).func y.port.toNat y.layer.toNat h.surface.toNat y = true := hok
  show execLayerSet h y s = _
  unfold execLayerSet
  rw [beginCmd_fetches hf]
  dsimp only
  rw [droppedBy_none 0x30 y.bytes hwait hframe]
  dsimp only
  rw [hok', Bool.not_true, if_neg (by decide)]
  rfl

end

theorem layerSetOk_bounds {s : State} {f p k surface : Nat} {y : LayerSetPayload} (h : layerSetOk s f p k surface y = true) : p < 8 ∧ k < 6 := by
  simp only [layerSetOk, Bool.and_eq_true, decide_eq_true_eq] at h
  obtain ⟨⟨⟨⟨⟨hp, hk⟩, -⟩, -⟩, -⟩, -⟩ := h
  exact ⟨hp, hk⟩

/-- The objects that a LAYER_SET may change. -/
def layerSetKeys (h : CmdHdr) (y : LayerSetPayload) : List Nat :=
  K.outCommitPend y.port.toNat :: (layerSetFields h.surface.toNat y).map (fun e => layerKey y.port.toNat y.layer.toNat e.2.1)

theorem layersSet_objs (s : State) (f : Nat) (h : CmdHdr) (y : LayerSetPayload) : onlyObjs (layerSetKeys h y) s (layersSet s f h y) := by
  have happly : onlyObjs (layerSetKeys h y) s (layerSetApply s y.port.toNat y.layer.toNat h.surface.toNat y) := fun k hk =>
    layerWrites_objs s _ _ (layerSetFields h.surface.toNat y) k (fun hin => hk (List.mem_cons_of_mem _ hin))
  unfold layersSet
  split
  · exact onlyObjs_trans happly fun k hk => commitBits_objs _ _ _ k fun hin => hk (by
      rw [List.mem_singleton.1 hin]
      exact List.mem_cons_self)
  · exact happly

theorem layersSet_changes (s : State) (f : Nat) (h : CmdHdr) (y : LayerSetPayload) : Changes [.objs, .ports] s (layersSet s f h y) := by
  have happly : Changes [.objs, .ports] s (layerSetApply s y.port.toNat y.layer.toNat h.surface.toNat y) :=
    layerSetApply_ch (by decide) (Changes.refl _ s)
  unfold layersSet
  split
  · exact commitBits_ch (List.Subset.refl _) happly
  · exact happly

theorem notLayer {idx sub p k : Nat} (h : sub < 2 ∨ 12 < sub) (hsub : sub < 256) : ∀ n, 2 ≤ n → n ≤ 12 → objKey idx sub ≠ layerKey p k n := by
  intro n hlo hhi
  simp only [layerKey, objKey]
  omega

theorem outState_notLayer {p k : Nat} (hp : p < 8) (hk : k < 6) : ∀ n, 2 ≤ n → n ≤ 12 → K.outState p ≠ layerKey p k n := by
  intro n hlo hhi
  simp only [K.outState, layerKey, objKey]
  omega

theorem pend_layersSet {s : State} {f : Nat} {h : CmdHdr} {y : LayerSetPayload} (hp : y.port.toNat < 8) (hk : y.layer.toNat < 6) :
    getN (layersSet s f h y) (K.outCommitPend y.port.toNat) = (if bitOf y.flags.toNat 0 then
      pendAfter s y.port.toNat (commitMask s f y.port.toNat (isPf f)) else getN s (K.outCommitPend y.port.toNat)) := by
  have hpend := getN_layerSetApply (s := s) (surface := h.surface.toNat) (y := y) (j := K.outCommitPend y.port.toNat)
    (notLayer (p := y.port.toNat) (k := y.layer.toNat) (by decide) (by decide))
  unfold layersSet
  split
  · rw [getN_commitBits, commitMask_congr (fun j _ => getN_layerSetApply (notLayer (by decide) (by decide)))]
    exact pendAfter_congr hpend (by rw [portOf, (layerSetApply_ch (List.Subset.refl _) (Changes.refl _ s)).ports (by decide), portOf])
      (getN_layerSetApply (outState_notLayer hp hk)) _
  · exact hpend

theorem fields_layersSet (s : State) (f : Nat) {h : CmdHdr} {y : LayerSetPayload} {e : Nat × Nat × Nat}
    (he : e ∈ layerSetFields h.surface.toNat y) :
    getN (layersSet s f h y) (layerKey y.port.toNat y.layer.toNat e.2.1) = e.2.2 := by
  have hset := getN_layerWrites s y.port.toNat y.layer.toNat (layerSetFields_nodup h.surface.toNat y) he
  obtain ⟨hlo, hhi⟩ := layerSub_range he
  have hne : layerKey y.port.toNat y.layer.toNat e.2.1 ≠ K.outCommitPend y.port.toNat := notPend (by omega) (by omega) _
  unfold layersSet
  split
  · exact (getN_commitBits_ne _ _ _ hne).trans hset
  · exact hset

theorem layerSet_done {s : State} {h : CmdHdr} {y : LayerSetPayload} (hf : Fetches s h 0x30 false)
    (hwait : (ringOf s h.ring).dropUntilWait = false) (hframe : (ringOf s h.ring).dropFrame = none)
    (hok : layerSetOk s (getN s (K.ringOwner h.ring)) y.port.toNat y.layer.toNat h.surface.toNat y = true) :
    ∃ t, exec (.layerSet h y) s = .next t ∧ ringDone s t h 0x30 0 none ∧
      (∀ e ∈ layerSetFields h.surface.toNat y, getN t (layerKey y.port.toNat y.layer.toNat e.2.1) = e.2.2) ∧
      getN t (K.outCommitPend y.port.toNat) = (if bitOf y.flags.toNat 0 then pendAfter s y.port.toNat
        (commitMask s (getN s (K.ringOwner h.ring)) y.port.toNat (isPf (getN s (K.ringOwner h.ring)))) else getN s (K.outCommitPend y.port.toNat)) ∧
      onlyObjsAndNotes (layerSetKeys h y) s t ∧
      (bitOf y.flags.toNat 0 = false ∨ (portOf s y.port.toNat).closed = false → t.ports = s.ports) := by
  obtain ⟨hp, hk⟩ := layerSetOk_bounds hok
  have hexec := exec_layerSet_done hf hwait hframe hok
  have hset := layersSet_changes (fetched s h 0x30 y.bytes) (getN s (K.ringOwner h.ring)) h y
  have hobjs := layersSet_objs (fetched s h 0x30 y.bytes) (getN s (K.ringOwner h.ring)) h y
  have hpend := pend_layersSet (s := fetched s h 0x30 y.bytes) (f := getN s (K.ringOwner h.ring)) (h := h) hp hk
  have hfields (e) (he : e ∈ layerSetFields h.surface.toNat y) := fields_layersSet (fetched s h 0x30 y.bytes) (getN s (K.ringOwner h.ring)) he
  have hnot {sub : Nat} (hsub : sub < 256) : objKey (0x3100 + h.ring) sub ∉ layerSetKeys h y := by
    intro hin
    rcases List.mem_cons.1 hin with heq | hin
    · exact ringKey_not_out h.ring.isLt hsub (idx := 0x2000 + 0x100 * y.port.toNat) (n := 15) (by omega) (by decide) heq
    · obtain ⟨e, he, heq⟩ := List.mem_map.1 hin
      obtain ⟨hlo, hhi⟩ := layerSub_range he
      exact ringKey_not_out h.ring.isLt hsub (idx := 0x2020 + 0x100 * y.port.toNat + y.layer.toNat) (by omega) (by omega) heq.symm
  have hsame := sameRing_after (SameRing.fetched s h 0x30 y.bytes) hset (by decide) hobjs ⟨hnot (by decide), hnot (by decide)⟩
  have hports : bitOf y.flags.toNat 0 = false ∨ (portOf s y.port.toNat).closed = false →
      (layersSet (fetched s h 0x30 y.bytes) (getN s (K.ringOwner h.ring)) h y).ports = s.ports := by
    intro hquiet
    have happly : (layerSetApply (fetched s h 0x30 y.bytes) y.port.toNat y.layer.toNat h.surface.toNat y).ports = s.ports :=
      (layerSetApply_ch (List.Subset.refl _) (Changes.refl _ _)).ports (by decide)
    unfold layersSet
    split
    · next hbit =>
      have hopen : (portOf s y.port.toNat).closed = false := hquiet.resolve_left (by simp [hbit])
      refine (commitBits_open _ ?_).trans happly
      rw [portOf, happly, ← portOf]
      exact hopen
    · exact happly
  generalize layersSet (fetched s h 0x30 y.bytes) (getN s (K.ringOwner h.ring)) h y = u at hexec hset hobjs hpend hfields hsame hports
  obtain ⟨hdone, -, hch⟩ := completeOpen_done (st := 0) hf hsame
  refine ⟨_, hexec, hdone, fun e he => ?_, ?_, ?_, fun hquiet => (hch.ports (by decide)).trans (hports hquiet)⟩
  · obtain ⟨hlo, hhi⟩ := layerSub_range he
    exact (getN_answered hch (idx := 0x2020 + 0x100 * y.port.toNat + y.layer.toNat) (by omega) (by omega)).trans (hfields e he)
  · exact (getN_answered hch (idx := 0x2000 + 0x100 * y.port.toNat) (by omega) (by decide)).trans hpend
  · exact onlyAndNotes_trans (onlyAndNotes_trans (onlyAndNotes_fetched _ s h 0x30 y.bytes) (onlyAndNotes_of_only hobjs))
      (onlyAndNotes_answered _ hch)

/-! ## COMMIT -/

/-- The ports that a COMMIT names. -/
def commitPorts (ports : BitVec 8) : List Nat := numbers 8 (fun p => bitOf ports.toNat p)

theorem mem_commitPorts {ports : BitVec 8} {p : Nat} : p ∈ commitPorts ports ↔ p < 8 ∧ bitOf ports.toNat p = true := by
  simp [commitPorts, numbers]

theorem commitPorts_nodup (ports : BitVec 8) : (commitPorts ports).Nodup := List.Nodup.filter _ List.nodup_range

/-- The ports that a COMMIT waits for. -/
def commitWaits (s : State) (f : Nat) (ports : BitVec 8) : List (Nat × Nat × Bool) :=
  ((commitPorts ports).filterMap (commitWait s f)).filter (fun w => w.2.1 != 0)

/-- The ports of a COMMIT that count as on time at once (log 290). -/
def commitNow (s : State) (f : Nat) (ports : BitVec 8) : List (Nat × Nat × Bool) :=
  ((commitPorts ports).filterMap (commitWait s f)).filter (fun w => w.2.1 == 0)

/-- A COMMIT as it waits. -/
def pendingCommit (s : State) (h : CmdHdr) (ports : BitVec 8) : PendingCommit where
  ticket := ticketOf s h 0x31
  waits := commitWaits s (getN s (K.ringOwner h.ring)) ports
  onTime := (commitNow s (getN s (K.ringOwner h.ring)) ports).foldl (fun m w => setBit m w.1) 0
  lateMask := 0
  lowest := (commitPorts ports).headD 0
  frame := (portOf s ((commitPorts ports).headD 0)).frame + 1

/-- The wait that a COMMIT makes of a port. -/
def portWait (s : State) (f p : Nat) : Nat × Nat × Bool :=
  let bits := commitMask s f p (isPf f)
  if (portOf s p).closed && !modeLarge (portOf s p).runMode then (p, 256 * bits, false) else (p, bits, commitLate s p bits)

theorem commitWait_eq (s : State) (f p : Nat) :
    commitWait s f p = if outSt s p = outOff ∨ outSt s p = outStopping then none else some (portWait s f p) := by
  unfold commitWait portWait
  dsimp only
  split
  · rfl
  · by_cases h : (portOf s p).closed = true ∧ (!modeLarge (portOf s p).runMode) = true
    · rw [if_pos h, if_pos (by simpa using h)]
    · rw [if_neg h, if_neg (by simpa using h)]

theorem portWait_bits (s : State) (f p : Nat) : (portWait s f p).2.1 = 0 ↔ commitMask s f p (isPf f) = 0 := by
  unfold portWait
  dsimp only
  split
  · show 256 * _ = 0 ↔ _
    omega
  · rfl

/-- A COMMIT waits for the ports that run and that it sets a bit on. -/
theorem commitWaits_eq (s : State) (f : Nat) (ports : BitVec 8) : commitWaits s f ports =
    (numbers 8 (fun p => bitOf ports.toNat p && outSt s p != outOff && outSt s p != outStopping && commitMask s f p (isPf f) != 0)).map
      (portWait s f) := by
  unfold commitWaits commitPorts numbers
  generalize List.range 8 = l
  induction l with
  | nil => rfl
  | cons p l ih =>
    have hbits := portWait_bits s f p
    rw [List.filter_cons, List.filter_cons (x := p) (xs := l)]
    cases hbit : bitOf ports.toNat p
    · simpa using ih
    · simp only [if_true, List.filterMap_cons, commitWait_eq s f p]
      by_cases hoff : outSt s p = outOff ∨ outSt s p = outStopping
      · rw [if_pos hoff, if_neg (by rcases hoff with hoff | hoff <;> simp [hoff])]
        exact ih
      · obtain ⟨hoff', hstop⟩ := not_or.1 hoff
        rw [if_neg hoff]
        dsimp only
        rw [List.filter_cons]
        by_cases hmask : commitMask s f p (isPf f) = 0
        · rw [if_neg (by simp [hbits.2 hmask]), if_neg (by simp [hmask])]
          exact ih
        · rw [if_pos (by simp [hbits, hmask]), if_pos (by simp [hoff', hstop, hmask]), List.map_cons, ih]

theorem commitNow_off {s : State} {f : Nat} {ports : BitVec 8}
    (h : ∀ p, p < 8 → bitOf ports.toNat p = true → outSt s p = outOff ∨ outSt s p = outStopping) :
    (commitPorts ports).filterMap (commitWait s f) = [] := by
  refine List.filterMap_eq_nil_iff.2 fun p hp => ?_
  obtain ⟨hp, hbit⟩ := mem_commitPorts.1 hp
  rw [commitWait_eq, if_pos (h p hp hbit)]

/-- The state in which a COMMIT has set its bits, before the answers. -/
def commitSet (s : State) (h : CmdHdr) (ports : BitVec 8) : State :=
  commitAll (fetched s h 0x31 (commitBytes ports)) (getN s (K.ringOwner h.ring)) (commitPorts ports)

section
variable {s : State} {h : CmdHdr} {ports : BitVec 8} (hf : Fetches s h 0x31 false) (hwait : (ringOf s h.ring).dropUntilWait = false)
  (hframe : (ringOf s h.ring).dropFrame = none)
include hf hwait hframe

theorem exec_commit_spread (hspread : (commitPorts ports).any (fun p => layerOwner s p 0 == 0xFD) = true) :
    exec (.commit h ports) s = .next (completeOpen (fetched s h 0x31 (commitBytes ports)) (ticketOf s h 0x31) 3) := by
  have hspread' : (commitPorts ports).any (fun p => layerOwner (fetched s h 0x31 (commitBytes ports)) p 0 == 0xFD) = true := hspread
  show execCommit h ports s = _
  unfold execCommit
  rw [beginCmd_fetches hf]
  dsimp only
  rw [droppedBy_none 0x31 (commitBytes ports) hwait hframe]
  exact if_pos hspread'

theorem exec_commit_done (hspread : (commitPorts ports).any (fun p => layerOwner s p 0 == 0xFD) = false) :
    exec (.commit h ports) s =
      .next (answerCommits { commitSet s h ports with commits := (commitSet s h ports).commits ++ [pendingCommit s h ports] }) := by
  have hspread' : (commitPorts ports).any (fun p => layerOwner (fetched s h 0x31 (commitBytes ports)) p 0 == 0xFD) = false := hspread
  show execCommit h ports s = _
  unfold execCommit
  rw [beginCmd_fetches hf]
  dsimp only
  rw [droppedBy_none 0x31 (commitBytes ports) hwait hframe]
  exact if_neg (by rw [show numbers 8 (fun p => bitOf ports.toNat p) = commitPorts ports from rfl, hspread']; exact Bool.false_ne_true)

theorem commit_spread {p : Nat} (hp : p < 8) (hbit : bitOf ports.toNat p = true) (howner : layerOwner s p 0 = 0xFD) :
    ∃ t, exec (.commit h ports) s = .next t ∧ ringDone s t h 0x31 3 none ∧ onlyObjsAndNotes [] s t ∧ t.commits = s.commits := by
  have hspread : (commitPorts ports).any (fun p => layerOwner s p 0 == 0xFD) = true :=
    List.any_eq_true.2 ⟨p, mem_commitPorts.2 ⟨hp, hbit⟩, by simp [howner]⟩
  obtain ⟨hdone, -, hch⟩ := completeOpen_done (st := 3) hf (SameRing.fetched s h 0x31 (commitBytes ports))
  exact ⟨_, exec_commit_spread hf hwait hframe hspread, hdone,
    onlyAndNotes_trans (onlyAndNotes_fetched [] s h 0x31 _) (onlyAndNotes_answered [] hch),
    (hch.commits (by decide)).trans ((fetched_changes s h 0x31 _).commits (by decide))⟩

end

/-- The answer of a COMMIT that waits for no port. -/
def answerOne (s : State) (c : PendingCommit) : State :=
  if (!bitOf (c.onTime ||| c.lateMask) c.lowest) = true then completeR s c.ticket 0 (c.onTime + 256 * c.lateMask)
  else complete s c.ticket 0 (c.onTime + 256 * c.lateMask) c.frame

theorem waiting_filter {cs : List PendingCommit} (h : ∀ c ∈ cs, c.waits ≠ []) :
    cs.filter (fun c => c.waits.isEmpty) = [] ∧ cs.filter (fun c => !c.waits.isEmpty) = cs :=
  ⟨List.filter_eq_nil_iff.2 fun c hc => by simp [h c hc], List.filter_eq_self.2 fun c hc => by simp [h c hc]⟩

/-- A COMMIT that waits joins those that wait. -/
theorem answerCommits_waits {s : State} {cs : List PendingCommit} {c : PendingCommit} (hcs : ∀ c ∈ cs, c.waits ≠ []) (hc : c.waits ≠ []) :
    answerCommits { s with commits := cs ++ [c] } = { s with commits := cs ++ [c] } := by
  have hall : ∀ x ∈ cs ++ [c], x.waits ≠ [] := fun x hx => (List.mem_append.1 hx).elim (hcs x) fun hx => by
    rw [List.mem_singleton.1 hx]
    exact hc
  obtain ⟨hdone, hleft⟩ := waiting_filter hall
  unfold answerCommits
  dsimp only
  rw [hdone, hleft]
  rfl

/-- A COMMIT that waits for no port is answered at once. -/
theorem answerCommits_done {s : State} {cs : List PendingCommit} {c : PendingCommit} (hcs : ∀ c ∈ cs, c.waits ≠ []) (hc : c.waits = []) :
    answerCommits { s with commits := cs ++ [c] } = answerOne { s with commits := cs } c := by
  obtain ⟨hdone, hleft⟩ := waiting_filter hcs
  unfold answerCommits
  dsimp only
  rw [List.filter_append, List.filter_append, hdone, hleft, List.filter_cons, List.filter_cons, hc]
  dsimp only [List.isEmpty_nil, Bool.not_true]
  rw [if_pos rfl, if_neg (by decide), List.filter_nil, List.filter_nil, List.append_nil]
  rfl

theorem answerOne_done {s u : State} {h : CmdHdr} {c : PendingCommit} (hf : Fetches s h 0x31 false) (hs : SameRing s u h)
    (hticket : c.ticket = ticketOf s h 0x31) :
    ringDone s (answerOne u c) h 0x31 0 (some (c.onTime + 256 * c.lateMask)) ∧ Changes answerParts u (answerOne u c) := by
  unfold answerOne
  rw [hticket]
  split
  · obtain ⟨hdone, -, hch⟩ := completeR_done (st := 0) (x := c.onTime + 256 * c.lateMask) hf hs
    exact ⟨hdone, hch⟩
  · obtain ⟨hdone, -, hch⟩ := complete_done (st := 0) (x := c.onTime + 256 * c.lateMask) (d := c.frame)
      (res := some (c.onTime + 256 * c.lateMask)) hf hs (by simp)
    exact ⟨hdone, hch⟩

/-- What a COMMIT leaves of the ports it names, once their bits are set. -/
theorem sameRing_commitSet (s : State) (h : CmdHdr) (ports : BitVec 8) : SameRing s (commitSet s h ports) h := by
  have hnot {sub : Nat} (hsub : sub < 256) : objKey (0x3100 + h.ring) sub ∉ (commitPorts ports).map K.outCommitPend := by
    intro hin
    obtain ⟨p, hp, heq⟩ := List.mem_map.1 hin
    have hp := (mem_commitPorts.1 hp).1
    exact ringKey_not_out h.ring.isLt hsub (idx := 0x2000 + 0x100 * p) (n := 15) (by omega) (by decide) heq.symm
  exact sameRing_after (SameRing.fetched s h 0x31 (commitBytes ports)) (commitAll_changes _ _ _) (by decide) (commitAll_objs _ _ _)
    ⟨hnot (by decide), hnot (by decide)⟩

theorem commit_done {s : State} {h : CmdHdr} {ports : BitVec 8} (hf : Fetches s h 0x31 false)
    (hwait : (ringOf s h.ring).dropUntilWait = false) (hframe : (ringOf s h.ring).dropFrame = none)
    (hothers : ∀ c ∈ s.commits, c.waits ≠ []) (hfree : ∀ p, p < 8 → bitOf ports.toNat p = true → layerOwner s p 0 ≠ 0xFD) :
    ∃ t, exec (.commit h ports) s = .next t ∧
      (∀ p, p < 8 → bitOf ports.toNat p = true → getN t (K.outCommitPend p) =
        pendAfter s p (commitMask s (getN s (K.ringOwner h.ring)) p (isPf (getN s (K.ringOwner h.ring))))) ∧
      (commitWaits s (getN s (K.ringOwner h.ring)) ports ≠ [] → t.commits = s.commits ++ [pendingCommit s h ports] ∧
        (ringOf t h.ring).cqTail = (ringOf s h.ring).cqTail) ∧
      (commitWaits s (getN s (K.ringOwner h.ring)) ports = [] → t.commits = s.commits ∧
        ringDone s t h 0x31 0 (some (pendingCommit s h ports).onTime)) ∧
      onlyObjsAndNotes ((commitPorts ports).map K.outCommitPend) s t := by
  have hspread : (commitPorts ports).any (fun p => layerOwner s p 0 == 0xFD) = false := by
    refine List.any_eq_false.2 fun p hp => ?_
    obtain ⟨hp, hbit⟩ := mem_commitPorts.1 hp
    simpa using hfree p hp hbit
  have hexec := exec_commit_done hf hwait hframe hspread
  have hsame := sameRing_commitSet s h ports
  have hpend {p : Nat} (hp : p < 8) (hbit : bitOf ports.toNat p = true) : getN (commitSet s h ports) (K.outCommitPend p) =
      pendAfter s p (commitMask s (getN s (K.ringOwner h.ring)) p (isPf (getN s (K.ringOwner h.ring)))) :=
    getN_commitAll (fetched s h 0x31 (commitBytes ports)) _ (commitPorts_nodup ports) (mem_commitPorts.2 ⟨hp, hbit⟩)
  have hcommits : (commitSet s h ports).commits = s.commits :=
    ((commitAll_changes _ _ _).commits (by decide)).trans ((fetched_changes s h 0x31 (commitBytes ports)).commits (by decide))
  have hobjs : onlyObjsAndNotes ((commitPorts ports).map K.outCommitPend) s (commitSet s h ports) :=
    onlyAndNotes_trans (onlyAndNotes_fetched _ s h 0x31 (commitBytes ports)) (onlyAndNotes_of_only (commitAll_objs _ _ _))
  rw [hcommits] at hexec
  generalize commitSet s h ports = u at hexec hsame hpend hcommits hobjs
  by_cases hws : commitWaits s (getN s (K.ringOwner h.ring)) ports = []
  · rw [answerCommits_done hothers (c := pendingCommit s h ports) hws, ← hcommits] at hexec
    obtain ⟨hdone, hch⟩ := answerOne_done (c := pendingCommit s h ports) hf hsame rfl
    refine ⟨_, hexec, fun p hp hbit => ?_, fun hne => absurd hws hne, fun _ => ⟨(hch.commits (by decide)).trans hcommits, hdone⟩, ?_⟩
    · exact (getN_answered hch (idx := 0x2000 + 0x100 * p) (by omega) (by decide)).trans (hpend hp hbit)
    · exact onlyAndNotes_trans hobjs (onlyAndNotes_answered _ hch)
  · rw [answerCommits_waits hothers (c := pendingCommit s h ports) hws] at hexec
    exact ⟨_, hexec, fun p hp hbit => hpend hp hbit, fun _ => ⟨rfl, hsame.cqTail⟩, fun h => absurd h hws, hobjs⟩

/-- A COMMIT whose ports are all off or stopping completes with no port. -/
theorem pendingCommit_off {s : State} {h : CmdHdr} {ports : BitVec 8}
    (hoff : ∀ p, p < 8 → bitOf ports.toNat p = true → outSt s p = outOff ∨ outSt s p = outStopping) :
    commitWaits s (getN s (K.ringOwner h.ring)) ports = [] ∧ (pendingCommit s h ports).onTime = 0 := by
  have hnone := commitNow_off (f := getN s (K.ringOwner h.ring)) hoff
  refine ⟨by rw [commitWaits, hnone]; rfl, ?_⟩
  show (commitNow _ _ _).foldl _ 0 = 0
  rw [commitNow, hnone]
  rfl

/-! ## Commands that are dropped (R188, R232) -/

theorem countDropped_objs (s : State) (t : Ticket) : onlyObjs [K.passDropped (getN s (K.ringCtx t.ring))] s (countDropped s t) := by
  unfold countDropped
  split
  · exact onlyObjs_bump (by simp) (onlyObjs_refl _ s)
  · exact onlyObjs_refl _ s

/-- The answer of a command that is dropped: after a failed wait, or of a dropped frame. -/
def droppedState (u : State) (t : Ticket) : State :=
  if (ringOf u t.ring).dropUntilWait = true then completeR (countDropped u t) t 4 3
  else complete (countDropped u t) t 4 2 ((ringOf u t.ring).dropFrame.getD 0)

theorem droppedBy_some {u : State} {t : Ticket}
    (h : (ringOf u t.ring).dropUntilWait = true ∨ (ringOf u t.ring).dropUntilWait = false ∧ (ringOf u t.ring).dropFrame.isSome = true) :
    droppedBy u t = some (droppedState u t) := by
  unfold droppedBy droppedState
  rcases h with hwait | ⟨hwait, hframe⟩
  · rw [hwait]
    rfl
  · obtain ⟨f, hf⟩ := Option.isSome_iff_exists.1 hframe
    rw [hwait, hf]
    rfl

theorem command_dropped {s : State} {h : CmdHdr} {op cause : Nat} {pay : List Byte} (hf : Fetches s h op false)
    (hdrop : (ringOf s h.ring).dropUntilWait = true ∧ cause = 3 ∨
      (ringOf s h.ring).dropUntilWait = false ∧ (ringOf s h.ring).dropFrame.isSome = true ∧ cause = 2) :
    ∃ t, droppedBy (fetched s h op pay) (ticketOf s h op) = some t ∧ ringDone s t h op 4 (some cause) ∧ t.ports = s.ports ∧
      t.commits = s.commits ∧ onlyObjsAndNotes [K.passDropped (getN s (K.ringCtx h.ring))] s t := by
  have hring : ringOf (fetched s h op pay) (ticketOf s h op).ring = _ := ringOf_fetched s h op pay
  have hobjs : onlyObjs [K.passDropped (getN s (K.ringCtx h.ring))] (fetched s h op pay) (countDropped (fetched s h op pay) (ticketOf s h op)) :=
    countDropped_objs (fetched s h op pay) (ticketOf s h op)
  have hcount : Changes [.objs] (fetched s h op pay) (countDropped (fetched s h op pay) (ticketOf s h op)) :=
    countDropped_ch (List.Subset.refl _) (Changes.refl _ _)
  have hnot {sub : Nat} (hsub : sub < 256) (hne : sub ≠ 10) :
      objKey (0x3100 + h.ring) sub ∉ [K.passDropped (getN s (K.ringCtx h.ring))] := by
    simp only [K.passDropped, objKey, List.mem_singleton]
    omega
  have hsame := sameRing_after (SameRing.fetched s h op pay) hcount (by decide) hobjs ⟨hnot (by decide) (by decide), hnot (by decide) (by decide)⟩
  have hstate : droppedBy (fetched s h op pay) (ticketOf s h op) = some (droppedState (fetched s h op pay) (ticketOf s h op)) := by
    refine droppedBy_some ?_
    rw [hring]
    exact hdrop.imp (fun hd => hd.1) fun hd => ⟨hd.1, hd.2.1⟩
  have hanswer : ringDone s (droppedState (fetched s h op pay) (ticketOf s h op)) h op 4 (some cause) ∧
      Changes answerParts (countDropped (fetched s h op pay) (ticketOf s h op)) (droppedState (fetched s h op pay) (ticketOf s h op)) := by
    unfold droppedState
    rw [hring]
    rcases hdrop with ⟨hwait, rfl⟩ | ⟨hwait, -, rfl⟩
    · rw [if_pos hwait]
      obtain ⟨hdone, -, hch⟩ := completeR_done (st := 4) (x := 3) hf hsame
      exact ⟨hdone, hch⟩
    · rw [if_neg (by simp [hwait])]
      obtain ⟨hdone, -, hch⟩ := complete_done (st := 4) (x := 2) (d := (ringOf s h.ring).dropFrame.getD 0) (res := some 2) hf hsame (by simp)
      exact ⟨hdone, hch⟩
  obtain ⟨hdone, hch⟩ := hanswer
  have hall : Changes (.objs :: .rings :: .host :: answerParts) s (droppedState (fetched s h op pay) (ticketOf s h op)) :=
    (((fetched_changes s h op pay).mono (by decide)).trans (hcount.mono (by decide))).trans (hch.mono (by decide))
  exact ⟨_, hstate, hdone, hall.ports (by decide), hall.commits (by decide), onlyAndNotes_trans (onlyAndNotes_trans
    (onlyAndNotes_fetched _ s h op pay) (onlyAndNotes_of_only hobjs)) (onlyAndNotes_answered _ hch)⟩

theorem exec_dropped {s t : State} {h : CmdHdr} {y : LayerSetPayload} {ports : BitVec 8} :
    (Fetches s h 0x30 false → droppedBy (fetched s h 0x30 y.bytes) (ticketOf s h 0x30) = some t → exec (.layerSet h y) s = .next t) ∧
    (Fetches s h 0x31 false → droppedBy (fetched s h 0x31 (commitBytes ports)) (ticketOf s h 0x31) = some t →
      exec (.commit h ports) s = .next t) := by
  refine ⟨fun hf hd => ?_, fun hf hd => ?_⟩
  · show execLayerSet h y s = _
    unfold execLayerSet
    rw [beginCmd_fetches hf]
    dsimp only
    rw [hd]
  · show execCommit h ports s = _
    unfold execCommit
    rw [beginCmd_fetches hf]
    dsimp only
    rw [hd]

/-! ## out.commit (R121) -/

theorem outCommit_done {s : State} {r : DictReq} {i : Nat} {port : Fin 8} (h : AdmittedWrite s r i (K.outCommit port) 1)
    (hrole : managerSession s i ∨ ((sessOf s i).role = .vf ∧ ownsOn s (sessOf s i).func port = true)) :
    ∃ t, exec (.outCommit r port 1) s = .next t ∧ answered t r 0x11 .ok ∧
      getN t (K.outCommitPend port) = pendAfter s port (commitMask s (sessOf s i).func port ((sessOf s i).role == .mgr)) ∧
      onlyObjs [K.outCommitPend port] s t ∧ ((portOf s port).closed = false → t.ports = s.ports) ∧
      Changes [.objs, .ports, .sess, .resp] s t := by
  have hren : Changes [.sess] s (renewed s i) := renewed_changes i (by decide) (Changes.refl _ s)
  have hlevel : (sessionCtx s r i none).isMgr = ((sessOf s i).role == .mgr) := by
    rcases hrole with hmgr | ⟨hvf, -⟩
    · simp [sessionCtx, WCtx.isMgr, show (sessOf s i).role = .mgr from hmgr]
    · simp [sessionCtx, WCtx.isMgr, hvf]
  have hport : portOf (renewed s i) port = portOf s port := by rw [portOf, hren.ports (by decide), portOf]
  have happly : areaApply (renewed s i) (sessionCtx s r i none) (0x2000 + 0x100 * port) 14 (.num 1) =
      (commitBits (renewed s i) port (commitMask (renewed s i) (sessOf s i).func port ((sessOf s i).role == .mgr)), .ok) := by
    rw [← hlevel]
    exact areaApply_out port.isLt (by decide)
  have haccess : areaAccess (renewed s i) (sessionCtx s r i none) (0x2000 + 0x100 * port) 14 1 = true := by
    rw [areaAccess_out port.isLt (by decide)]
    rcases hrole with hmgr | ⟨hvf, howns⟩
    · simp [outAccess, sessionCtx, WCtx.isMgr, show (sessOf s i).role = .mgr from hmgr]
    · have howns' : ownsOn (renewed s i) (sessOf s i).func port = true := by
        unfold ownsOn layerOwner at howns ⊢
        simp only [getN_renewed]
        exact howns
      simp [outAccess, sessionCtx, hvf, howns']
  obtain ⟨t, hexec, hans, hch⟩ := AreaWrites.areaWrite_done (found := none) (row_outCommit port) (.inr rfl) (by omega) (by decide) h
    (hrole.imp (fun h => h) (fun h => h.1)) haccess (by decide) (by decide) (areaCheck_out port.isLt (by decide))
    (areaClaims_outOther port.isLt (by decide) (by decide)) happly (.inl rfl)
  have hset := commitBits_changes (renewed s i) port (commitMask (renewed s i) (sessOf s i).func port ((sessOf s i).role == .mgr))
  have hobjs := commitBits_objs (renewed s i) port (commitMask (renewed s i) (sessOf s i).func port ((sessOf s i).role == .mgr))
  refine ⟨t, hexec, hans, ?_, ?_, fun hopen => ?_, ?_⟩
  · rw [hch.getN (by decide) (by decide), getN_commitBits, commitMask_congr (fun k _ => getN_renewed s i _)]
    exact pendAfter_congr (getN_renewed s i _) hport (getN_renewed s i _) _
  · exact onlyObjs_trans (onlyObjs_of_eq (hren.objs (by decide) (by decide))) (onlyObjs_trans hobjs (onlyObjs_of_eq (hch.objs (by decide) (by decide))))
  · exact (hch.ports (by decide)).trans ((commitBits_open _ (by rw [hport]; exact hopen)).trans (hren.ports (by decide)))
  · exact ((hren.mono (by decide)).trans (hset.mono (by decide))).trans (hch.mono (by decide))

/-- Settles O41: the fields and bits that a command sets are written before its answer; a COMMIT that no port holds up is answered at once. -/
theorem layersAndCommits : Obligations.LayersAndCommits := by
  unfold Obligations.LayersAndCommits
  refine ⟨?_, ?_, ?_, ?_, ?_, ?_⟩
  · exact fun s h y hf hwait hframe hok => layerSet_done hf hwait hframe hok
  · exact fun s h y hf hwait hframe hok => layerSet_failed hf hwait hframe hok
  · intro s h ports hf hwait hframe hothers hfree
    obtain ⟨t, hexec, hpend, hwaits, hnone, hobjs⟩ := commit_done hf hwait hframe hothers hfree
    refine ⟨t, _, hexec, commitWaits_eq s _ ports, hpend, fun hws => ?_, fun hws => ?_, fun hoff => ?_, hobjs⟩
    · obtain ⟨hcommits, htail⟩ := hwaits hws
      exact ⟨_, hcommits, rfl, rfl, htail⟩
    · obtain ⟨hcommits, hdone⟩ := hnone hws
      exact ⟨hcommits, ringDone_anyResult hdone⟩
    · obtain ⟨hws, hzero⟩ := pendingCommit_off (h := h) hoff
      have hdone := (hnone hws).2
      rwa [hzero] at hdone
  · exact fun s h ports p hf hwait hframe hp hbit howner => commit_spread hf hwait hframe hp hbit howner
  · rintro s h y ports op cause hf hop hdrop
    rcases hop with rfl | rfl
    · obtain ⟨t, hd, hdone, hports, hcommits, hobjs⟩ := command_dropped (pay := y.bytes) hf hdrop
      exact ⟨t, (exec_dropped (ports := ports)).1 hf hd, hdone, hports, hcommits, hobjs⟩
    · obtain ⟨t, hd, hdone, hports, hcommits, hobjs⟩ := command_dropped (pay := commitBytes ports) hf hdrop
      exact ⟨t, (exec_dropped (y := y)).2 hf hd, hdone, hports, hcommits, hobjs⟩
  · exact fun s r i port h hrole => outCommit_done h hrole

end Sys2Proof.Proofs.LayersAndCommits

/-!
PROOFS. O43: the events of a frame, the take at VBS, and the rows of the compose buffer.
-/

namespace Sys2Proof.Proofs.FrameEvents

open Sys2Proof.Machine
open Sys2Proof.Proofs.ModeFrame (Agrees)
open Sys2Proof.Proofs.ColdStart (agrees_putN agrees_foldN)
open Sys2Proof.Proofs.MemoryErrors (agrees_ite agrees_settle)

/-! ## An event's bit (R67) -/

/-- A pending bit of a function stays set. -/
def KeepsPend (f c : Nat) (s t : State) : Prop := bitOf (funcOf s f).evtPend c = true → bitOf (funcOf t f).evtPend c = true

section
variable {f c : Nat} {r s t : State}

theorem KeepsPend.refl (s : State) : KeepsPend f c s s := fun h => h

theorem KeepsPend.trans (h : KeepsPend f c r s) (h' : KeepsPend f c s t) : KeepsPend f c r t := fun hb => h' (h hb)

theorem KeepsPend.of_changes {P : List Part} (h : Changes P s t) (hP : Part.funcs ∉ P) : KeepsPend f c s t := by
  intro hb
  rw [funcOf, h.funcs hP, ← funcOf]
  exact hb

theorem bitOf_setBit (n i j : Nat) : bitOf (setBit n i) j = (bitOf n j || decide (i = j)) := by
  simp [bitOf, setBit, Nat.testBit_or, Nat.testBit_two_pow]

/-- A function's record changed where its pending bits are no fewer. -/
theorem KeepsPend.modFunc {g : Func → Func} {i : Nat} (hg : ∀ x, bitOf x.evtPend c = true → bitOf (g x).evtPend c = true) :
    KeepsPend f c s (modFunc s i g) := by
  intro hb
  by_cases hi : f = i
  · subst hi
    rw [funcOf_modFunc]
    exact hg _ hb
  · rwa [funcOf_modFunc_ne s g hi]

theorem keepsPend_setPend (s : State) (i d : Nat) : KeepsPend f c s (setPend s i d) := by
  unfold setPend
  dsimp only
  split
  · exact .refl s
  · refine .modFunc fun x hb => ?_
    have hset : bitOf (setBit x.evtPend d) c = true := by rw [bitOf_setBit, hb, Bool.true_or]
    split
    · split <;> exact hset
    · exact hset

theorem keepsPend_countRepair (s : State) : KeepsPend f c s (countRepair s) := by
  have hbump : KeepsPend f c s (bump s K.regVoteFix) := .refl s
  unfold countRepair
  dsimp only
  split
  · exact hbump
  · have hevent : KeepsPend f c (setPend (bump s K.regVoteFix) 0 12) (healthEvent (bump s K.regVoteFix) 0x0C03 (leBytes 4 1)) :=
      .of_changes (notifyAll_ch (List.Subset.refl _) (Changes.refl _ _)) (by decide)
    exact (hbump.trans (keepsPend_setPend _ 0 12)).trans hevent

theorem keepsPend_countBadVote (s : State) : KeepsPend f c s (countBadVote s) := by
  unfold countBadVote
  extract_lets v s₁
  have hone : KeepsPend f c s (bump s₁ K.regVoteBad) := .refl s
  exact (hone.trans (keepsPend_setPend _ 0 12)).trans (.of_changes (grogLog_ch (List.Subset.refl _) (Changes.refl _ _)) (by decide))

theorem keepsPend_voteMask (s : State) (i : Nat) : KeepsPend f c s (voteMask s i) := by
  unfold voteMask
  split
  · exact .refl s
  · dsimp only
    split
    · exact .refl s
    · split
      · refine KeepsPend.trans ?_ (keepsPend_countRepair _)
        exact .modFunc fun _ hb => hb
      · refine KeepsPend.trans ?_ (keepsPend_countBadVote _)
        exact .modFunc fun _ hb => hb

theorem keepsPend_voteMsix (s : State) (i v : Nat) : KeepsPend f c s (voteMsix s i v) := by
  unfold voteMsix
  split
  · exact .refl s
  · dsimp only
    split
    · exact .refl s
    · split
      · refine KeepsPend.trans ?_ (keepsPend_countRepair _)
        exact .modFunc fun _ hb => hb
      · refine KeepsPend.trans ?_ (keepsPend_countBadVote _)
        exact .modFunc fun _ hb => hb

theorem keepsPend_raiseVec (s : State) (i v : Nat) : KeepsPend f c s (raiseVec s i v) :=
  (keepsPend_voteMsix s i v).trans (.modFunc fun x hb => by split <;> exact hb)

/-- Raising an event's class sets its bit and clears none. -/
theorem raiseClass_pend (s : State) (i d : Nat) : KeepsPend f c s (raiseClass s i d) ∧ bitOf (funcOf (raiseClass s i d) i).evtPend d = true := by
  have hvote := keepsPend_voteMask (f := f) (c := c) s i
  unfold raiseClass
  extract_lets s₁ r s₂
  have hset : KeepsPend f c s₁ s₂ := .modFunc fun x hb => by
    show bitOf (setBit x.evtPend d) c = true
    rw [bitOf_setBit, hb, Bool.true_or]
  have hbit : bitOf (funcOf s₂ i).evtPend d = true := by
    unfold s₂
    rw [funcOf_modFunc]
    show bitOf (setBit (funcOf s₁ i).evtPend d) d = true
    rw [bitOf_setBit]
    simp
  split
  · next h => exact ⟨hvote, h⟩
  · split
    · exact ⟨hvote.trans hset, hbit⟩
    · exact ⟨(hvote.trans hset).trans (keepsPend_raiseVec s₂ i _), keepsPend_raiseVec s₂ i _ hbit⟩

theorem keepsPend_foldRaise (l : List Nat) (s : State) (d : Nat) : KeepsPend f c s (foldN l (fun s i => raiseClass s i d) s) := by
  induction l generalizing s with
  | nil => exact .refl s
  | cons i l ih => exact (raiseClass_pend s i d).1.trans (ih _)

theorem pend_foldRaise {l : List Nat} {i : Nat} (hi : i ∈ l) (s : State) (d : Nat) :
    bitOf (funcOf (foldN l (fun s i => raiseClass s i d) s) i).evtPend d = true := by
  induction l generalizing s with
  | nil => exact absurd hi (by simp)
  | cons j l ih =>
    rcases List.mem_cons.1 hi with rfl | hi
    · exact keepsPend_foldRaise l _ d (raiseClass_pend (f := i) (c := d) s i d).2
    · exact ih hi _

/-- An event is raised for the physical function. -/
theorem pend_emit (s : State) (cls code inst : Nat) (detail : List Byte) (fs : List Nat) :
    bitOf (funcOf (emit s cls code inst detail fs) 0).evtPend cls = true := by
  have hmem : 0 ∈ eventFuncs s fs := by simp [eventFuncs]
  have hraised := pend_foldRaise hmem s cls
  exact KeepsPend.of_changes (notifyAll_ch (List.Subset.refl _) (Changes.refl _ _)) (by decide) hraised

end

/-- What an event leaves alone: the ports, and all objects but those that events count. -/
theorem emit_changes (s : State) (cls code inst : Nat) (detail : List Byte) (fs : List Nat) :
    Changes [.fresh, .voteSecond, .funcs, .sess, .grog, .notes] s (emit s cls code inst detail fs) :=
  emit_ch (List.Subset.refl _) (Changes.refl _ s)

theorem emit_onlyAndNotes (ks : List Nat) (s : State) (cls code inst : Nat) (detail : List Byte) (fs : List Nat) :
    onlyObjsAndNotes ks s (emit s cls code inst detail fs) := onlyAndNotes_of_changes (emit_changes s cls code inst detail fs) (by decide)

theorem portOf_emit (s : State) (cls code inst : Nat) (detail : List Byte) (fs : List Nat) (p : Nat) :
    portOf (emit s cls code inst detail fs) p = portOf s p := by
  rw [portOf, (emit_changes s cls code inst detail fs).ports (by decide), ← portOf]

theorem not_noteKey_out {idx sub : Nat} (hidx : 0x2000 ≤ idx ∧ idx < 0x3100) (hsub : sub < 256) : ¬ noteKey (objKey idx sub) := by
  simp only [noteKey, K.dictNotifyDrop, K.regVoteFix, K.regVoteBad, K.kaolinCanDrop, K.logOut, objKey]
  omega

theorem getN_emit (s : State) (cls code inst : Nat) (detail : List Byte) (fs : List Nat) {k : Nat} (hk : ¬ noteKey k) :
    getN (emit s cls code inst detail fs) k = getN s k :=
  getN_of_changes (emit_changes s cls code inst detail fs) (by decide) hk

/-! ## Close point, line 0, LINE_MATCH, FRAME_DONE (R122, R129 to R131) -/

theorem modPort_changes (s : State) (p : Nat) (g : Port → Port) : Changes [.ports] s (modPort s p g) := ch_ports (Changes.refl _ s) (by decide)

/-- The port of a close point. -/
def latchedPort (s : State) (p : Nat) (q : Port) : Port :=
  { q with closed := true, latched := getN s (K.outCommitPend p), captured := shadowOver s p (getN s (K.outCommitPend p)) q.active
           klatched := q.kpend, kcaptured := if q.kpend then kaolinShadow s p else q.kcaptured }

theorem latchShadow_eq (s : State) (p : Nat) : latchShadow s p = modPort s p (latchedPort s p) := rfl

theorem closePoint_latches {s : State} {port : Fin 8} (hst : outSt s port = outRun) (hphase : (portOf s port).phase = .idle)
    (hclosed : (portOf s port).closed = false) (hblank : (portOf s port).inBlank = false) :
    ∃ t, exec (.closePoint port) s = .next t ∧ (portOf t port).closed = true ∧ (portOf t port).latched = getN s (K.outCommitPend port) ∧
      (portOf t port).captured = shadowOver s port (getN s (K.outCommitPend port)) (portOf s port).active ∧
      (∀ j, j ≠ port.val → portOf t j = portOf s j) ∧ Changes [.ports] s t := by
  have hclose : closePoint s port = modPort s port (latchedPort s port) := if_pos ⟨hst, hphase, by simp [hclosed], by simp [hblank]⟩
  have hport := portOf_modPort s port.val (latchedPort s port)
  exact ⟨_, congrArg Host.Outcome.next hclose, by rw [hport]; rfl, by rw [hport]; rfl, by rw [hport]; rfl,
    fun j hj => portOf_modPort_ne s _ hj, modPort_changes s _ _⟩

theorem closePoint_nothing {s : State} {port : Fin 8}
    (h : outSt s port ≠ outRun ∨ (portOf s port).closed = true ∨ (portOf s port).inBlank = true) : exec (.closePoint port) s = .next s := by
  refine congrArg Host.Outcome.next (if_neg ?_)
  rintro ⟨hst, -, hclosed, hblank⟩
  rcases h with h | h | h
  · exact h hst
  · simp [h] at hclosed
  · simp [h] at hblank

/-- The port at line 0 of its next frame. -/
def startedPort (s : State) (q : Port) : Port :=
  { q with frame := q.frame + 1, inBlank := false, line := 0, lineTime := s.now, matched := false
           doneSent := true, frameAt := s.now, under := [], compared := [] }

/-- A frame started and counted. -/
def frameStarted (s : State) (p : Nat) : State := bump (modPort s p (startedPort s)) (K.outFrames p)

theorem frameStart_eq {s : State} {p : Nat} (hruns : timingRuns s p = true) (hblank : (portOf s p).inBlank = true)
    (hphase : (portOf s p).phase = .idle) : frameStart s p = firstTelltale (frameStarted s p) p := by
  unfold frameStart
  dsimp only
  rw [if_neg (by simp [hruns, hblank]), if_neg (by simp [hphase])]
  rfl

theorem frameStart_advances {s : State} {port : Fin 8} (hruns : timingRuns s port = true) (hblank : (portOf s port).inBlank = true)
    (hphase : (portOf s port).phase = .idle) :
    ∃ t, exec (.frameStart port) s = .next t ∧ (portOf t port).frame = (portOf s port).frame + 1 ∧ (portOf t port).inBlank = false ∧
      getN t (K.outFrames port) = satInc 32 (getN s (K.outFrames port)) ∧ onlyObjs [K.outFrames port, K.pwrTtFirst] s t ∧
      Changes [.objs, .ports] s t := by
  have hkey : K.outFrames port ≠ K.pwrTtFirst := by
    simp only [K.outFrames, K.pwrTtFirst, objKey]
    omega
  have hport : portOf (frameStarted s port) port = startedPort s (portOf s port) := portOf_modPort s port.val (startedPort s)
  have hcount : getN (frameStarted s port) (K.outFrames port) = satInc 32 (getN s (K.outFrames port)) :=
    getN_bump (modPort s port (startedPort s)) _
  have hobjs : onlyObjs [K.outFrames port, K.pwrTtFirst] s (frameStarted s port) :=
    onlyObjs_bump (t := modPort s port (startedPort s)) (by simp) (onlyObjs_of_eq (modPort_objs s _ _))
  have hch : Changes [.objs, .ports] s (frameStarted s port) := bump_ch (by decide) ((modPort_changes s _ _).mono (by decide))
  refine ⟨_, congrArg Host.Outcome.next (frameStart_eq hruns hblank hphase), ?_⟩
  generalize frameStarted s port = u at hport hcount hobjs hch
  unfold firstTelltale
  split
  · refine ⟨?_, ?_, (getN_putN_ne u _ hkey).trans hcount, onlyObjs_putN _ (by simp) hobjs, putN_ch (by decide) hch⟩
    · exact congrArg Port.frame hport
    · exact congrArg Port.inBlank hport
  · exact ⟨by rw [hport]; rfl, by rw [hport]; rfl, hcount, hobjs, hch⟩

/-- The port after a LINE_MATCH. -/
def matchedPort (s : State) (p : Nat) (q : Port) : Port := { q with matched := true, line := getN s (K.outLineMatch p), lineTime := s.now }

theorem lineMatch_once {s : State} {port : Fin 8} (hon : eventsOn s port = true) (hruns : timingRuns s port = true)
    (hline : getN s (K.outLineMatch port) < modeVtotal (portOf s port).runMode) (hmatched : (portOf s port).matched = false) :
    ∃ t, exec (.lineMatch port) s = .next t ∧ (portOf t port).matched = true ∧ bitOf (funcOf t 0).evtPend 0 = true ∧
      onlyObjsAndNotes [] s t ∧ exec (.lineMatch port) t = .next t := by
  have hexec : exec (.lineMatch port) s = .next (emit (modPort s port (matchedPort s port)) 0 0x0101 port
      (leBytes 1 port ++ leBytes 2 (getN s (K.outLineMatch port)) ++ leBytes 4 (portOf s port).frame) (portFuncs s port)) :=
    if_pos ⟨hon, hruns, hline, by simp [hmatched]⟩
  have hset : (portOf (modPort s port (matchedPort s port)) port).matched = true := by rw [portOf_modPort]; rfl
  have hobjs : onlyObjsAndNotes [] s (modPort s port (matchedPort s port)) := onlyAndNotes_of_changes (modPort_changes s port _) (by decide)
  generalize modPort s port (matchedPort s port) = u at hexec hset hobjs
  refine ⟨_, hexec, by rw [portOf_emit]; exact hset, pend_emit _ _ _ _ _ _, onlyAndNotes_trans hobjs (emit_onlyAndNotes _ _ _ _ _ _ _), ?_⟩
  refine if_neg ?_
  rintro ⟨-, -, -, hnot⟩
  rw [portOf_emit, hset] at hnot
  exact absurd hnot (by decide)

/-- The port after a FRAME_DONE. -/
def donePort (now : Nat) (q : Port) : Port :=
  { q with doneSent := true, underLines := [], lateRows := 0, bgRows := 0, line := modeH q.runMode + 1, lineTime := now }

theorem frameDone_once {s : State} {port : Fin 8} (hon : eventsOn s port = true) (hruns : timingRuns s port = true)
    (hblank : (portOf s port).inBlank = true) (hsent : (portOf s port).doneSent = false) :
    ∃ t, exec (.frameDone port) s = .next t ∧ (portOf t port).doneSent = true ∧ (portOf t port).underLines = [] ∧
      (portOf t port).lateRows = 0 ∧ (portOf t port).bgRows = 0 ∧
      bitOf (funcOf t 0).evtPend 0 = true ∧ onlyObjsAndNotes [] s t ∧ exec (.frameDone port) t = .next t := by
  have hexec : ∃ u, (bitOf (funcOf u 0).evtPend 0 = true ∧ onlyObjsAndNotes [] s u) ∧ exec (.frameDone port) s =
      .next (modPort u port (donePort u.now)) :=
    ⟨_, ⟨pend_emit _ _ _ _ _ _, emit_onlyAndNotes _ s _ _ _ _ _⟩, if_pos ⟨hon, hruns, hblank, by simp [hsent]⟩⟩
  obtain ⟨u, ⟨hpend, hobjs⟩, hexec⟩ := hexec
  have hport := portOf_modPort u port.val (donePort u.now)
  refine ⟨_, hexec, by rw [hport]; rfl, by rw [hport]; rfl, by rw [hport]; rfl, by rw [hport]; rfl,
    hpend, onlyAndNotes_trans hobjs (onlyAndNotes_of_changes (modPort_changes u port _) (by decide)), if_neg ?_⟩
  rintro ⟨-, -, -, hnot⟩
  simp [hport, donePort] at hnot

/-! ## Underrun (R131) -/

/-- The port after a stream's underrun at a pixel. -/
def underPort (line stream pixel : Nat) (q : Port) : Port := { q with under := (line, stream, pixel) :: q.under }

/-- The port after the first underrun of a line. -/
def underLinePort (line : Nat) (q : Port) : Port := { q with underLines := line :: q.underLines }

/-- The first underrun of a line, counted. -/
def underCounted (s : State) (p line stream pixel : Nat) : State :=
  bump (modPort (modPort s p (underPort line stream pixel)) p (underLinePort line)) (K.outUnderrun p)

theorem portOf_underCounted (s : State) (p line stream pixel : Nat) :
    portOf (underCounted s p line stream pixel) p = underLinePort line (underPort line stream pixel (portOf s p)) := by
  refine (portOf_modPort (modPort s p (underPort line stream pixel)) p (underLinePort line)).trans ?_
  rw [portOf_modPort]

theorem exec_underrun_first {s : State} {port : Fin 8} {line pixel : BitVec 16} {stream : Fin 7} (hruns : timingRuns s port = true)
    (hgap : (portOf s port).gap = false) (hblank : (portOf s port).inBlank = false) (hline : line.toNat < modeH (portOf s port).runMode)
    (hfetch : fetches (portOf s port) stream = true) (hnew : line.toNat ∉ (portOf s port).underLines) :
    exec (.underrun port line stream pixel) s =
      if (portOf s port).underLines.isEmpty then
        .next (emit (underCounted s port line.toNat stream.val pixel.toNat) 1 0x0110 port (leBytes 1 port ++ leBytes 2 line.toNat ++
          leBytes 1 stream ++ leBytes 4 (portOf s port).frame) (portFuncs (modPort s port (underPort line.toNat stream.val pixel.toNat)) port))
      else .next (underCounted s port line.toNat stream.val pixel.toNat) := by
  have hnot : (portOf s port).underLines.contains line.toNat = false := by simpa using hnew
  show execUnderrun port line stream pixel s = _
  unfold execUnderrun
  dsimp only
  rw [if_pos ⟨hruns, by simp [hgap], by simp [hblank], hline, hfetch⟩, hnot, if_neg (by decide)]
  rfl

/-- Another underrun of a line that is counted already is kept, no more. -/
theorem underrun_again {t : State} {port : Fin 8} {line : BitVec 16} (hknown : line.toNat ∈ (portOf t port).underLines) (stream : Fin 7)
    (pixel : BitVec 16) : ∃ u, exec (.underrun port line stream pixel) t = .next u ∧ Changes [.ports] t u := by
  have hcontains : (portOf t port).underLines.contains line.toNat = true := by simpa using hknown
  show ∃ u, execUnderrun port line stream pixel t = .next u ∧ _
  unfold execUnderrun
  dsimp only
  rw [if_pos hcontains]
  split
  · exact ⟨_, rfl, modPort_changes t port (underPort line.toNat stream.val pixel.toNat)⟩
  · exact ⟨t, rfl, Changes.refl _ t⟩

theorem underrun_first {s : State} {port : Fin 8} {line : BitVec 16} {stream : Fin 7} {pixel : BitVec 16} (hruns : timingRuns s port = true)
    (hgap : (portOf s port).gap = false) (hblank : (portOf s port).inBlank = false) (hline : line.toNat < modeH (portOf s port).runMode)
    (hfetch : fetches (portOf s port) stream = true) (hnew : line.toNat ∉ (portOf s port).underLines) :
    ∃ t, exec (.underrun port line stream pixel) s = .next t ∧ getN t (K.outUnderrun port) = satInc 32 (getN s (K.outUnderrun port)) ∧
      (line.toNat, stream.val, pixel.toNat) ∈ (portOf t port).under ∧
      ((portOf s port).underLines = [] → bitOf (funcOf t 0).evtPend 1 = true) ∧
      ((portOf s port).underLines ≠ [] → Changes [.objs, .ports] s t) ∧ onlyObjsAndNotes [K.outUnderrun port] s t ∧
      ∀ (stream' : Fin 7) (pixel' : BitVec 16), ∃ u, exec (.underrun port line stream' pixel') t = .next u ∧ Changes [.ports] t u := by
  have hexec := exec_underrun_first (pixel := pixel) hruns hgap hblank hline hfetch hnew
  have hport := portOf_underCounted s port line.toNat stream.val pixel.toNat
  have hunder : (line.toNat, stream.val, pixel.toNat) ∈ (portOf (underCounted s port line.toNat stream.val pixel.toNat) port).under := by
    rw [hport]
    exact List.mem_cons_self
  have hlines : line.toNat ∈ (portOf (underCounted s port line.toNat stream.val pixel.toNat) port).underLines := by
    rw [hport]
    exact List.mem_cons_self
  have hcount : getN (underCounted s port line.toNat stream.val pixel.toNat) (K.outUnderrun port) = satInc 32 (getN s (K.outUnderrun port)) :=
    getN_bump (modPort (modPort s port (underPort line.toNat stream.val pixel.toNat)) port (underLinePort line.toNat)) _
  have hch : Changes [.objs, .ports] s (underCounted s port line.toNat stream.val pixel.toNat) :=
    bump_ch (by decide) (((modPort_changes s _ _).trans (modPort_changes _ _ _)).mono (by decide))
  have hobjs : onlyObjsAndNotes [K.outUnderrun port] s (underCounted s port line.toNat stream.val pixel.toNat) :=
    onlyAndNotes_of_only (onlyObjs_bump (by simp) (onlyObjs_of_eq ((modPort_objs _ _ _).trans (modPort_objs s _ _))))
  clear hport
  generalize underCounted s port line.toNat stream.val pixel.toNat = u at hexec hunder hlines hcount hch hobjs
  by_cases hempty : (portOf s port).underLines = []
  · rw [if_pos (by simp [hempty])] at hexec
    refine ⟨_, hexec, (getN_emit u 1 0x0110 port _ _ (not_noteKey_out (by omega) (by decide))).trans hcount, ?_, fun _ => pend_emit _ _ _ _ _ _,
      fun hne => absurd hempty hne, onlyAndNotes_trans hobjs (emit_onlyAndNotes _ u _ _ _ _ _), underrun_again ?_⟩
    · rw [portOf_emit]
      exact hunder
    · rw [portOf_emit]
      exact hlines
  · rw [if_neg (by simpa using hempty)] at hexec
    exact ⟨u, hexec, hcount, hunder, fun he => absurd he hempty, fun _ => hch, hobjs, underrun_again hlines⟩

/-! ## Rows of the compose buffer (R98 to R101) -/

theorem rowOf_modRow (s : State) (p r : Nat) (g : TileRow → TileRow) : rowOf (portOf (modRow s p r g) p) r = g (rowOf (portOf s p) r) := by
  unfold modRow
  rw [portOf_modPort]
  exact tget_tset_same _ _ _ _

theorem modRow_changes (s : State) (p r : Nat) (g : TileRow → TileRow) : Changes [.ports] s (modRow s p r g) := modPort_changes s p _

/-- A row that waits to be composed for a frame. -/
def waitingRow (now f tiles : Nat) (t : TileRow) : TileRow :=
  { t with waiting := some f, composing := none, eligibleAt := now, unstarted := tiles }

section
variable {s : State} {port : Fin 8} {row : Fin 256}

theorem rowEligible_waits (hcomposes : composes s port = true) (hrow : row.val < rowsOf (portOf s port).runMode)
    (hprefetched : (rowOf (portOf s port) row).prefetched ≠ some (rowFrame (portOf s port)))
    (hwaiting : (rowOf (portOf s port) row).waiting ≠ some (rowFrame (portOf s port)))
    (hcomposing : ∀ i, (rowOf (portOf s port) row).composing ≠ some (i, rowFrame (portOf s port)))
    (hslots : ∀ i, ((rowOf (portOf s port) row).slot i).ready = true → ((rowOf (portOf s port) row).slot i).tag ≠ rowFrame (portOf s port) % 65536)
    (hdue : max (portOf s port).lastTake (rowInstant (portOf s port) row (portOf s port).active.out.lead) ≤ s.now)
    (hheld : getN s K.schedC0Cores ≤ c0Held s) :
    ∃ t, exec (.compositorRowEligible port row) s = .next t ∧ (rowOf (portOf t port) row).waiting = some (rowFrame (portOf s port)) ∧
      (rowOf (portOf t port) row).unstarted = ceilDiv (modeW (portOf s port).runMode) 32 ∧
      (rowOf (portOf t port) row).eligibleAt = s.now ∧ Changes [.ports] s t := by
  have hmap : (rowOf (portOf s port) row).composing.map (·.2) ≠ some (rowFrame (portOf s port)) := by
    intro h
    obtain ⟨⟨i, f⟩, hc, hf⟩ := Option.map_eq_some_iff.1 h
    exact hcomposing i (by rw [hc, show f = _ from hf])
  have hcond : ¬ ((!composes s port) = true ∨ rowsOf (portOf s port).runMode ≤ row.val ∨
      s.now < max (portOf s port).lastTake (rowInstant (portOf s port) row (portOf s port).active.out.lead) ∨
      (rowOf (portOf s port) row).prefetched = some (rowFrame (portOf s port)) ∨
      (rowOf (portOf s port) row).waiting = some (rowFrame (portOf s port)) ∨
      (rowOf (portOf s port) row).composing.map (·.2) = some (rowFrame (portOf s port)) ∨
      ((rowOf (portOf s port) row).s0.ready = true ∧ (rowOf (portOf s port) row).s0.tag = rowFrame (portOf s port) % 65536) ∨
      ((rowOf (portOf s port) row).s1.ready = true ∧ (rowOf (portOf s port) row).s1.tag = rowFrame (portOf s port) % 65536)) := by
    rintro (h | h | h | h | h | h | ⟨hready, htag⟩ | ⟨hready, htag⟩)
    · simp [hcomposes] at h
    · omega
    · omega
    · exact hprefetched h
    · exact hwaiting h
    · exact hmap h
    · exact hslots 0 hready htag
    · exact hslots 1 hready htag
  have hexec : exec (.compositorRowEligible port row) s =
      .next (modRow s port row (waitingRow s.now (rowFrame (portOf s port)) (ceilDiv (modeW (portOf s port).runMode) 32))) := by
    show execCompositorRowEligible port row s = _
    unfold execCompositorRowEligible
    extract_lets q f t due s₁ want idle s₂
    have hs₁ : s₁ = modRow s port row (waitingRow s.now (rowFrame (portOf s port)) (ceilDiv (modeW (portOf s port).runMode) 32)) := rfl
    have hwant : want ≤ c0Held s₁ := Nat.le_trans (Nat.min_le_left _ _) hheld
    have hs₂ : s₂ = s₁ := by
      unfold s₂
      rw [Nat.sub_eq_zero_of_le hwant]
      rfl
    rw [if_neg hcond, hs₂, if_pos hwant, hs₁]
  have hwaits := rowOf_modRow s port row (waitingRow s.now (rowFrame (portOf s port)) (ceilDiv (modeW (portOf s port).runMode) 32))
  exact ⟨_, hexec, by rw [hwaits]; rfl, by rw [hwaits]; rfl, by rw [hwaits]; rfl, modRow_changes s _ _ _⟩

theorem rowEligible_early (h : s.now < max (portOf s port).lastTake (rowInstant (portOf s port) row (portOf s port).active.out.lead)) :
    exec (.compositorRowEligible port row) s = .next s := if_pos (Or.inr (Or.inr (Or.inl h)))

theorem slot_setSlot (t : TileRow) {i : Nat} (hi : i < 2) (x : RowSlot) : (t.setSlot i x).slot i = x := by
  unfold TileRow.setSlot TileRow.slot
  interval_cases i <;> rfl

theorem rowComposeDone_lands {slot f : Nat} (hcomposing : (rowOf (portOf s port) row).composing = some (slot, f)) (hslot : slot < 2)
    (hstart : (rowOf (portOf s port) row).unstarted = 0) (hrun : (rowOf (portOf s port) row).running = 0)
    (hagain : (rowOf (portOf s port) row).again = []) :
    ∃ t, exec (.rowComposeDone port row) s = .next t ∧ (rowOf (portOf t port) row).slot slot = ⟨true, f % 65536⟩ ∧
      (rowOf (portOf t port) row).composing = none ∧ Changes [.ports] s t := by
  have hexec : exec (.rowComposeDone port row) s =
      .next (modRow s port row (fun t => { (t.setSlot slot ⟨true, f % 65536⟩) with composing := none })) := by
    show execRowComposeDone port row s = _
    unfold execRowComposeDone
    dsimp only
    rw [hcomposing]
    exact if_pos ⟨hstart, hrun, by simp [hagain]⟩
  refine ⟨_, hexec, ?_, ?_, modRow_changes s _ _ _⟩
  · rw [rowOf_modRow]
    exact slot_setSlot (rowOf (portOf s port) row) hslot _
  · rw [rowOf_modRow]

/-- A row at its prefetch point: a composition that is not done is given up. -/
def prefetchedRow (f : Nat) (t : TileRow) : TileRow :=
  let gone := t.waiting = some f ∨ t.composing.map (·.2) = some f
  { t with prefetched := some f, waiting := none, composing := if gone then none else t.composing
           unstarted := if gone then 0 else t.unstarted }

theorem nearest_prefetchedRow (f n : Nat) (t : TileRow) : (prefetchedRow f t).nearest n = t.nearest n := rfl

/-- What a prefetch point does to the port of the row. -/
theorem exec_prefetch (hcomposes : composes s port = true) (hrow : row.val < rowsOf (portOf s port).runMode)
    (hprefetched : (rowOf (portOf s port) row).prefetched ≠ some (rowFrame (portOf s port)))
    (hblank : (portOf s port).inBlank = (row.val == 0)) : exec (.rowPrefetchPoint port row) s =
      match (rowOf (portOf s port) row).nearest (rowFrame (portOf s port) % 65536) with
      | none => .next (rowLate (bump (modPort (modRow s port row (prefetchedRow (rowFrame (portOf s port)))) port
          (fun q => { q with bgRows := q.bgRows + 1 })) (K.compRowBg port)) port row 0xFFFF)
      | some i =>
        if ((rowOf (portOf s port) row).slot i).tag = rowFrame (portOf s port) % 65536 then
          .next (modRow (modRow s port row (prefetchedRow (rowFrame (portOf s port)))) port row (fun t => { t with held := some i }))
        else
          .next (rowLate (modRow (modRow s port row (prefetchedRow (rowFrame (portOf s port)))) port row (fun t => { t with held := some i }))
            port row ((rowOf (portOf s port) row).slot i).tag) := by
  have hcond : ¬ ((!composes s port) = true ∨ rowsOf (portOf s port).runMode ≤ row.val ∨
      (rowOf (portOf s port) row).prefetched = some (rowFrame (portOf s port)) ∨ (portOf s port).inBlank ≠ (row.val == 0)) := by
    rintro (h | h | h | h)
    · simp [hcomposes] at h
    · omega
    · exact hprefetched h
    · exact h hblank
  have hrow₁ : rowOf (portOf (modRow s port row (prefetchedRow (rowFrame (portOf s port)))) port) row =
      prefetchedRow (rowFrame (portOf s port)) (rowOf (portOf s port) row) := rowOf_modRow s port row _
  show execRowPrefetchPoint port row s = _
  unfold execRowPrefetchPoint
  extract_lets q f t gone s₁
  have hs₁ : s₁ = modRow s port row (prefetchedRow (rowFrame (portOf s port))) := rfl
  rw [if_neg hcond, hs₁, hrow₁, nearest_prefetchedRow]
  rfl

theorem rowBg_ne_rowLate (p : Nat) : K.compRowBg p ≠ K.compRowLate p := by
  simp only [K.compRowBg, K.compRowLate, objKey]
  omega

theorem rowLate_not_note {p : Nat} (hp : p < 8) : ¬ noteKey (K.compRowLate p) := not_noteKey_out (by omega) (by decide)

theorem rowBg_not_note {p : Nat} (hp : p < 8) : ¬ noteKey (K.compRowBg p) := not_noteKey_out (by omega) (by decide)

/-- A late row is counted, and told of. -/
theorem rowLate_spec (s : State) {p : Nat} (hp : p < 8) (r tag : Nat) :
    getN (rowLate s p r tag) (K.compRowLate p) = satInc 32 (getN s (K.compRowLate p)) ∧
      (∀ k, k ≠ K.compRowLate p → ¬ noteKey k → getN (rowLate s p r tag) k = getN s k) ∧
      onlyObjsAndNotes [K.compRowLate p] s (rowLate s p r tag) ∧ rowOf (portOf (rowLate s p r tag) p) r = rowOf (portOf s p) r := by
  have hport : portOf (modPort s p (fun q => { q with lateRows := q.lateRows + 1 })) p = { portOf s p with lateRows := (portOf s p).lateRows + 1 } :=
    portOf_modPort s p _
  have hobjs : (modPort s p (fun q => { q with lateRows := q.lateRows + 1 })).objs = s.objs := modPort_objs s p _
  have hkey (k : Nat) : getN (modPort s p (fun q => { q with lateRows := q.lateRows + 1 })) k = getN s k := rfl
  unfold rowLate
  generalize modPort s p (fun q => { q with lateRows := q.lateRows + 1 }) = u at hport hobjs hkey
  dsimp only
  refine ⟨?_, fun k hk hn => ?_, ?_, ?_⟩
  · rw [getN_emit _ _ _ _ _ _ (rowLate_not_note hp), ← hkey]
    exact getN_bump u _
  · rw [getN_emit _ _ _ _ _ _ hn, getN_bump_ne u hk, hkey]
  · exact onlyAndNotes_trans (onlyAndNotes_of_only (onlyObjs_bump (by simp) (onlyObjs_of_eq hobjs))) (emit_onlyAndNotes _ _ _ _ _ _ _)
  · rw [portOf_emit]
    show rowOf (portOf u p) r = _
    rw [hport]
    rfl

section
variable (hcomposes : composes s port = true) (hrow : row.val < rowsOf (portOf s port).runMode)
  (hprefetched : (rowOf (portOf s port) row).prefetched ≠ some (rowFrame (portOf s port)))
  (hblank : (portOf s port).inBlank = (row.val == 0))
include hcomposes hrow hprefetched hblank

theorem prefetch_background (hnone : (rowOf (portOf s port) row).nearest (rowFrame (portOf s port) % 65536) = none) :
    ∃ t, exec (.rowPrefetchPoint port row) s = .next t ∧ getN t (K.compRowBg port) = satInc 32 (getN s (K.compRowBg port)) ∧
      getN t (K.compRowLate port) = satInc 32 (getN s (K.compRowLate port)) ∧
      onlyObjsAndNotes [K.compRowBg port, K.compRowLate port] s t := by
  have hexec := exec_prefetch hcomposes hrow hprefetched hblank
  rw [hnone] at hexec
  dsimp only at hexec
  have hkey (k : Nat) : getN (modPort (modRow s port row (prefetchedRow (rowFrame (portOf s port)))) port
      (fun q => { q with bgRows := q.bgRows + 1 })) k = getN s k := rfl
  have hobjs : (modPort (modRow s port row (prefetchedRow (rowFrame (portOf s port)))) port (fun q => { q with bgRows := q.bgRows + 1 })).objs = s.objs :=
    (modPort_objs _ _ _).trans (modPort_objs s _ _)
  generalize modPort (modRow s port row (prefetchedRow (rowFrame (portOf s port)))) port (fun q => { q with bgRows := q.bgRows + 1 }) = u
    at hexec hkey hobjs
  obtain ⟨hlate, hother, hnotes, -⟩ := rowLate_spec (bump u (K.compRowBg port)) port.isLt row 0xFFFF
  refine ⟨_, hexec, ?_, ?_, ?_⟩
  · rw [hother _ (rowBg_ne_rowLate port) (rowBg_not_note port.isLt), ← hkey]
    exact getN_bump u _
  · rw [hlate, getN_bump_ne u (rowBg_ne_rowLate port).symm, hkey]
  · have hbump : onlyObjs [K.compRowBg port, K.compRowLate port] s (bump u (K.compRowBg port)) :=
      onlyObjs_bump (by simp) (onlyObjs_of_eq hobjs)
    refine onlyAndNotes_trans (onlyAndNotes_of_only hbump) (fun k hk hn => hnotes k ?_ hn)
    exact fun h => hk (List.mem_cons_of_mem _ h)

theorem prefetch_slot {i : Nat} (hsome : (rowOf (portOf s port) row).nearest (rowFrame (portOf s port) % 65536) = some i) :
    ∃ t, exec (.rowPrefetchPoint port row) s = .next t ∧ (rowOf (portOf t port) row).held = some i ∧
      (rowOf (portOf t port) row).prefetched = some (rowFrame (portOf s port)) ∧
      (((rowOf (portOf s port) row).slot i).tag = rowFrame (portOf s port) % 65536 → Changes [.ports] s t) ∧
      (((rowOf (portOf s port) row).slot i).tag ≠ rowFrame (portOf s port) % 65536 →
        getN t (K.compRowLate port) = satInc 32 (getN s (K.compRowLate port)) ∧ onlyObjsAndNotes [K.compRowLate port] s t) := by
  have hexec := exec_prefetch hcomposes hrow hprefetched hblank
  rw [hsome] at hexec
  dsimp only at hexec
  have hheld : rowOf (portOf (modRow (modRow s port row (prefetchedRow (rowFrame (portOf s port)))) port row (fun t => { t with held := some i }))
      port) row = { prefetchedRow (rowFrame (portOf s port)) (rowOf (portOf s port) row) with held := some i } := by
    rw [rowOf_modRow, rowOf_modRow]
  have hch : Changes [.ports] s (modRow (modRow s port row (prefetchedRow (rowFrame (portOf s port)))) port row (fun t => { t with held := some i })) :=
    (modRow_changes s _ _ _).trans (modRow_changes _ _ _ _)
  generalize modRow (modRow s port row (prefetchedRow (rowFrame (portOf s port)))) port row (fun t => { t with held := some i }) = u
    at hexec hheld hch
  by_cases htag : ((rowOf (portOf s port) row).slot i).tag = rowFrame (portOf s port) % 65536
  · rw [if_pos htag] at hexec
    exact ⟨u, hexec, by rw [hheld], by rw [hheld]; rfl, fun _ => hch, fun h => absurd htag h⟩
  · rw [if_neg htag] at hexec
    obtain ⟨hlate, -, hnotes, hsame⟩ := rowLate_spec u port.isLt row ((rowOf (portOf s port) row).slot i).tag
    refine ⟨_, hexec, by rw [hsame, hheld], by rw [hsame, hheld]; rfl, fun h => absurd h htag, fun _ => ⟨?_, ?_⟩⟩
    · rw [hlate, hch.getN (by decide) (by decide)]
    · exact onlyAndNotes_trans (onlyAndNotes_of_changes hch (by decide)) hnotes

end

end

/-! ## The take at VBS (R122, R133) -/

/-- The objects that a take does not change once it has set the pending bits: those bits, and the states of the spreads. -/
def takeKeys (p : Nat) : List Nat := K.outCommitPend p :: (List.range 8).map K.spreadState

/-- The fields of a port that the rest of a take leaves alone. -/
def SameTake (q q' : Port) : Prop :=
  q'.active = q.active ∧ q'.closed = q.closed ∧ q'.inBlank = q.inBlank ∧ q'.lastTake = q.lastTake

/-- What the parts of a take after its first leave alone. -/
structure TakeFrame (p : Nat) (s t : State) : Prop where
  port : SameTake (portOf s p) (portOf t p)
  objs : Agrees (takeKeys p) s t

theorem notTake_of_sub {p idx sub : Nat} (h : sub < 256 ∧ sub ≠ 9 ∧ sub ≠ 15) : objKey idx sub ∉ takeKeys p := by
  intro hin
  rcases List.mem_cons.1 hin with h' | hin
  · simp only [K.outCommitPend, objKey] at h'
    omega
  · obtain ⟨i, -, h'⟩ := List.mem_map.1 hin
    simp only [K.spreadState, objKey] at h'
    omega

/-- A layer's demand is no port's pending bits. -/
theorem layerDemand_not_take {p k : Nat} (hk : k < 6) : K.layerDemand p k ∉ takeKeys p := by
  intro hin
  rcases List.mem_cons.1 hin with h' | hin
  · simp only [K.layerDemand, K.outCommitPend, objKey] at h'
    omega
  · obtain ⟨i, -, h'⟩ := List.mem_map.1 hin
    simp only [K.layerDemand, K.spreadState, objKey] at h'
    omega

theorem take_not_noteKey {p : Nat} (hp : p < 8) : ∀ k ∈ takeKeys p, ¬ noteKey k := by
  intro k hk
  rcases List.mem_cons.1 hk with rfl | hk
  · exact not_noteKey_out (by omega) (by decide)
  · obtain ⟨i, -, rfl⟩ := List.mem_map.1 hk
    simp only [noteKey, K.spreadState, K.dictNotifyDrop, K.regVoteFix, K.regVoteBad, K.kaolinCanDrop, K.logOut, objKey]
    omega

section
variable {p : Nat} {r s t : State}

theorem TakeFrame.refl (s : State) : TakeFrame p s s := ⟨⟨rfl, rfl, rfl, rfl⟩, fun _ _ => rfl⟩

theorem TakeFrame.trans (h : TakeFrame p r s) (h' : TakeFrame p s t) : TakeFrame p r t := by
  obtain ⟨hactive, hclosed, hblank, hlast⟩ := h.port
  obtain ⟨hactive', hclosed', hblank', hlast'⟩ := h'.port
  exact ⟨⟨hactive'.trans hactive, hclosed'.trans hclosed, hblank'.trans hblank, hlast'.trans hlast⟩, h.objs.trans h'.objs⟩

/-- An operation whose parts leave the ports and the objects alone. -/
theorem TakeFrame.of_changes {P : List Part} (hp : p < 8) (h : Changes P s t) (hP : Part.ports ∉ P ∧ Part.objs ∉ P) : TakeFrame p s t := by
  refine ⟨?_, .of_changes h hP.2 (take_not_noteKey hp)⟩
  rw [portOf, portOf, h.ports hP.1]
  exact ⟨rfl, rfl, rfl, rfl⟩

/-- An operation that leaves the ports alone, and the objects of the take. -/
theorem TakeFrame.of_objs (hports : t.ports = s.ports) (hobjs : Agrees (takeKeys p) s t) : TakeFrame p s t := by
  refine ⟨?_, hobjs⟩
  rw [portOf, portOf, hports]
  exact ⟨rfl, rfl, rfl, rfl⟩

theorem takeFrame_modPort {g : Port → Port} (j : Nat) (hg : ∀ q, SameTake q (g q)) : TakeFrame p s (modPort s j g) := by
  refine ⟨?_, .of_objs (modPort_objs s j g)⟩
  by_cases hj : p = j
  · subst hj
    rw [portOf_modPort]
    exact hg _
  · rw [portOf_modPort_ne s g hj]
    exact ⟨rfl, rfl, rfl, rfl⟩

theorem takeFrame_putN {idx sub n : Nat} (h : sub < 256 ∧ sub ≠ 9 ∧ sub ≠ 15) : TakeFrame p s (putN s (objKey idx sub) n) :=
  .of_objs rfl (agrees_putN (fun _ _ => rfl) (notTake_of_sub h))

theorem TakeFrame.foldN {f : State → Nat → State} (l : List Nat) (hf : ∀ x, ∀ a ∈ l, TakeFrame p x (f x a)) (s : State) :
    TakeFrame p s (foldN l f s) := by
  unfold Machine.foldN
  induction l generalizing s with
  | nil => exact .refl s
  | cons a l ih => exact (hf s a (by simp)).trans (ih (fun x b hb => hf x b (List.mem_cons_of_mem a hb)) _)

theorem takeFrame_recomputeRuns (s : State) : TakeFrame p s (recomputeRuns s) := by
  unfold recomputeRuns
  extract_lets rs
  clear_value rs
  induction rs generalizing s with
  | nil => exact .refl s
  | cons r rs ih =>
    refine TakeFrame.trans ?_ (ih _)
    exact takeFrame_modPort r.1.port fun _ => ⟨rfl, rfl, rfl, rfl⟩

theorem takeFrame_settle (s : State) : TakeFrame p s (settle s) :=
  .of_objs ((settle_ch (List.Subset.refl _) (Changes.refl _ s)).ports (by decide))
    (agrees_settle (fun _ => notTake_of_sub (by decide)) fun _ _ => rfl)

theorem takeFrame_kaolinSetActive (s : State) (k : KSet) : TakeFrame p s (kaolinSetActive s p k) := by
  unfold kaolinSetActive
  extract_lets was s₁ s₂
  have h₁ : TakeFrame p s s₁ := takeFrame_modPort p fun _ => ⟨rfl, rfl, rfl, rfl⟩
  have h₂ : TakeFrame p s s₂ := by
    unfold s₂
    split
    · exact h₁.trans (.foldN _ (fun x j _ => takeFrame_putN (idx := 0x7400 + 0x20 * p + j) (sub := 11) (by decide)) s₁)
    · exact h₁
  clear_value s₂
  split
  · exact h₂
  · exact h₂.trans (takeFrame_settle s₂)

theorem takeFrame_kaolinTake (s : State) : TakeFrame p s (kaolinTake s p false) := by
  unfold kaolinTake
  extract_lets q
  rw [if_neg (by decide)]
  split
  · refine TakeFrame.trans ?_ (takeFrame_kaolinSetActive _ _)
    exact takeFrame_modPort p fun _ => ⟨rfl, rfl, rfl, rfl⟩
  · exact takeFrame_modPort p fun _ => ⟨rfl, rfl, rfl, rfl⟩

theorem takeFrame_blinkTake (s : State) : TakeFrame p s (blinkTake s p false) := by
  unfold blinkTake
  extract_lets q ph n
  rw [if_neg (by decide)]
  split
  · refine TakeFrame.trans ?_ (takeFrame_putN (idx := 0x7510 + p) (sub := 7) (by decide))
    exact takeFrame_modPort p fun _ => ⟨rfl, rfl, rfl, rfl⟩
  · exact takeFrame_modPort p fun _ => ⟨rfl, rfl, rfl, rfl⟩

theorem takeFrame_tilthEntry (s : State) (a b c d e f : Nat) : TakeFrame p s (tilthEntry s a b c d e f) := by
  unfold tilthEntry
  extract_lets seq e'
  have hlog : TakeFrame p s { s with tilthLog := lastN 256 (s.tilthLog ++ [e']) } := .of_objs rfl (.of_objs rfl)
  exact hlog.trans (takeFrame_putN (idx := 0x3600) (sub := 5) (by decide))

theorem takeFrame_raiseClass (hp : p < 8) (s : State) (f c : Nat) : TakeFrame p s (raiseClass s f c) :=
  .of_changes hp (raiseClass_ch (List.Subset.refl _) (Changes.refl _ s)) (by decide)

theorem takeFrame_applyLayerPlan (hp : p < 8) {k : Nat} (hk : k < 6) (s : State) (old new : RunPlan) :
    TakeFrame p s (applyLayerPlan s p k old new) := by
  unfold applyLayerPlan
  extract_lets oldPath newPath s₁ s₂ s₃
  have hput (x : State) (j n : Nat) (hj : j ∉ takeKeys p) : TakeFrame p x (putN x j n) := .of_objs rfl (agrees_putN (fun _ _ => rfl) hj)
  have h₁ : TakeFrame p s s₁ :=
    (takeFrame_putN (idx := 0x2020 + 0x100 * p + k) (sub := 13) (by decide)).trans (hput _ _ _ (layerDemand_not_take hk))
  have h₂ : TakeFrame p s s₂ := h₁.trans (hput s₁ _ _ (notTake_of_sub (idx := 0x2020 + 0x100 * p + k) (sub := 14) (by decide)))
  have h₃ : TakeFrame p s s₃ := by
    unfold s₃
    split
    · exact h₂
    · exact h₂.trans (takeFrame_tilthEntry s₂ _ _ _ _ _ _)
  clear_value s₃
  split
  · have hmiss : TakeFrame p s₃ (hintMiss (bump s₃ K.compOverride)) :=
      (takeFrame_putN (idx := 0x3400) (sub := 5) (by decide)).trans (takeFrame_putN (idx := 0x3600) (sub := 6) (by decide))
    exact (h₃.trans hmiss).trans (.foldN _ (fun x f _ => takeFrame_raiseClass hp x f 12) _)
  · exact h₃

theorem takeFrame_takeBuffer (s : State) (run : Bool) : TakeFrame p s (takeBuffer s p run) := by
  unfold takeBuffer
  extract_lets old new s₁
  have h₁ : TakeFrame p s s₁ := takeFrame_modPort p fun _ => ⟨rfl, rfl, rfl, rfl⟩
  clear_value s₁ new old
  split
  · exact h₁.trans (takeFrame_tilthEntry s₁ _ _ _ _ _ _)
  · exact h₁

theorem takeFrame_applyPlan (hp : p < 8) (s : State) : TakeFrame p s (applyPlan s p) := by
  unfold applyPlan
  extract_lets q s₁ s₂ s₃ s₄ s₅
  have h₁ : TakeFrame p s s₁ := takeFrame_takeBuffer s _
  have h₂ : TakeFrame p s s₂ := h₁.trans (takeFrame_modPort p fun _ => ⟨rfl, rfl, rfl, rfl⟩)
  have h₃ : TakeFrame p s s₃ := h₂.trans (.foldN _ (fun x k hk => takeFrame_applyLayerPlan hp (List.mem_range.1 hk) x _ _) s₂)
  have h₄ : TakeFrame p s s₄ := h₃.trans (takeFrame_putN (idx := 0x2010 + 0x100 * p) (sub := 4) (by decide))
  have h₅ : TakeFrame p s s₅ := h₄.trans (takeFrame_putN (idx := 0x2010 + 0x100 * p) (sub := 5) (by decide))
  exact h₅.trans (takeFrame_putN (idx := 0x3400) (sub := 2) (by decide))

theorem takeFrame_emit (hp : p < 8) (s : State) (cls code inst : Nat) (detail : List Byte) (fs : List Nat) :
    TakeFrame p s (emit s cls code inst detail fs) := .of_changes hp (emit_changes s cls code inst detail fs) (by decide)

theorem takeFrame_commitTaken (hp : p < 8) (s : State) (bits : Nat) : TakeFrame p s (commitTaken s p bits) :=
  .of_changes hp (commitTaken_ch (List.Subset.refl _) (Changes.refl _ s)) (by decide)

/-- The port as a take leaves it. -/
def takenPort (s : State) (p : Nat) (q : Port) : Port :=
  { q with
    active := setOver q.latched q.captured q.active
    muted := (q.muted - (q.muted &&& (portOf s p).latched)) ||| q.muteDue, muteDue := 0
    latched := 0, late := 0, lateOps := 0, after := 0, closed := false
    rows := q.rows.map (fun e => (e.1, { e.2 with held := none }))
    regions := screenRegions s p
    lastTake := s.now, inBlank := true, line := modeH q.runMode, lineTime := s.now, doneSent := q.frame == 0 }

/-- The pending bits as a take leaves them. -/
def pendTaken (s : State) (p : Nat) : Nat :=
  (getN s (K.outCommitPend p) - (getN s (K.outCommitPend p) &&& (portOf s p).latched)) ||| (portOf s p).after

/-- A take's first part: the latched bits are in force. -/
def takeBegun (s : State) (p : Nat) : State := putN (modPort s p (takenPort s p)) (K.outCommitPend p) (pendTaken s p)

theorem take_frame (hp : p < 8) (s : State) (events : Bool) : TakeFrame p (takeBegun s p) (take s p false events) := by
  unfold take
  extract_lets q pend bits s₁ s₂ s₃ s₄ s₅ lates s₆ s₇ s₈
  have h₂ : s₂ = takeBegun s p := rfl
  have h₃ : TakeFrame p (takeBegun s p) s₃ := by
    rw [← h₂]
    exact (takeFrame_blinkTake s₂).trans (takeFrame_kaolinTake _)
  clear_value s₃
  have h₄ : TakeFrame p (takeBegun s p) s₄ := by
    unfold s₄
    split
    · exact h₃.trans (takeFrame_recomputeRuns s₃)
    · exact h₃
  clear_value s₄
  have h₅ : TakeFrame p (takeBegun s p) s₅ := h₄.trans (takeFrame_applyPlan hp s₄)
  clear_value s₅
  have h₆ : TakeFrame p (takeBegun s p) s₆ := by
    unfold s₆
    split
    · exact h₅.trans (takeFrame_emit hp s₅ _ _ _ _ _)
    · exact h₅
  clear_value s₆
  refine TakeFrame.trans ?_ (takeFrame_commitTaken hp s₈ bits)
  unfold s₈
  split
  · exact h₆
  · exact (h₆.trans (takeFrame_putN (idx := 0x2001 + 0x100 * p) (sub := 3) (by decide))).trans (takeFrame_emit hp _ _ _ _ _ _)

end

/-- What a take leaves: the shown set, the blank, the pending bits, and the spreads as they were. -/
theorem take_spec (s : State) {p : Nat} (hp : p < 8) (events : Bool) :
    (portOf (take s p false events) p).active = setOver (portOf s p).latched (portOf s p).captured (portOf s p).active ∧
      (portOf (take s p false events) p).closed = false ∧ (portOf (take s p false events) p).inBlank = true ∧
      (portOf (take s p false events) p).lastTake = s.now ∧ getN (take s p false events) (K.outCommitPend p) = pendTaken s p ∧
      ∀ i, i < 8 → getN (take s p false events) (K.spreadState i) = getN s (K.spreadState i) := by
  have hport : portOf (takeBegun s p) p = takenPort s p (portOf s p) := portOf_modPort s p (takenPort s p)
  have hpend : getN (takeBegun s p) (K.outCommitPend p) = pendTaken s p := getN_putN (modPort s p (takenPort s p)) _ _
  have hspread (i : Nat) : getN (takeBegun s p) (K.spreadState i) = getN s (K.spreadState i) :=
    getN_putN_ne (modPort s p (takenPort s p)) _ (by simp only [K.spreadState, K.outCommitPend, objKey]; omega)
  obtain ⟨⟨hactive, hclosed, hblank, hlast⟩, hobjs⟩ := take_frame hp s events
  rw [hport] at hactive hclosed hblank hlast
  refine ⟨hactive, hclosed, hblank, hlast, (congrArg Val.toNat (hobjs _ List.mem_cons_self)).trans hpend, fun i hi => ?_⟩
  exact (congrArg Val.toNat (hobjs _ (List.mem_cons_of_mem _ (List.mem_map_of_mem (List.mem_range.2 hi))))).trans (hspread i)

/-- Without a spread that is on, a VBS does nothing to spreads. -/
theorem spreadAtVbs_off {s : State} (h : ∀ i, i < 8 → getN s (K.spreadState i) = sprOff) (p : Nat) : spreadAtVbs s p = s := by
  have hall : ∀ l : List Nat, (∀ i ∈ l, getN s (K.spreadState i) = sprOff) → ∀ f : State → Nat → State,
      (∀ i, getN s (K.spreadState i) = sprOff → f s i = s) → foldN l f s = s := by
    intro l hl f hf
    induction l with
    | nil => rfl
    | cons i l ih =>
      show foldN l f (f s i) = s
      rw [hf i (hl i (by simp))]
      exact ih fun j hj => hl j (List.mem_cons_of_mem i hj)
  exact hall _ (fun i hi => h i (List.mem_range.1 hi)) _ fun i hi => if_pos hi

theorem releaseReset_pend (s : State) (p : Nat) : getN (releaseReset s) (K.outCommitPend p) = getN s (K.outCommitPend p) ∧
    portOf (releaseReset s) p = portOf s p := by
  refine ⟨?_, by rw [portOf, (releaseReset_ch (List.Subset.refl _) (Changes.refl _ s)).ports (by decide), ← portOf]⟩
  have hsurf (idx : Nat) {sub : Nat} (h : sub = 8 ∨ sub = 9) : K.outCommitPend p ≠ objKey idx sub := by
    simp only [K.outCommitPend, objKey]
    omega
  unfold releaseReset Machine.foldN
  generalize (s.surfs.filter (fun e => e.2.flrRelease)).map (·.1) = l
  induction l generalizing s with
  | nil => rfl
  | cons i l ih =>
    refine (ih _).trans ?_
    dsimp only
    split
    · rfl
    · exact (getN_putN_ne (writeB s (K.surfAlloc i) false) 0 (hsurf (0x3800 + i) (.inr rfl))).trans
        (getN_writeN_ne s 0 (hsurf (0x3800 + i) (.inl rfl)))

/-- The state that a VBS takes: the poisoned words of its frame are counted first, where it was not black (R102). -/
def poisonCounted (s : State) (p : Nat) : State := if (portOf s p).gap = true then s else scanPoison s p

theorem poisonCounted_same (s : State) (p : Nat) : (poisonCounted s p).now = s.now ∧ portOf (poisonCounted s p) p = portOf s p ∧
    outSt (poisonCounted s p) p = outSt s p ∧ pendTaken (poisonCounted s p) p = pendTaken s p ∧
    ∀ i, getN (poisonCounted s p) (K.spreadState i) = getN s (K.spreadState i) := by
  have hport : portOf (poisonCounted s p) p = portOf s p := by
    unfold poisonCounted
    split <;> rfl
  have hnow : (poisonCounted s p).now = s.now := by
    unfold poisonCounted
    split <;> rfl
  have hkey {k : Nat} (hk : k ≠ K.compPoison) : getN (poisonCounted s p) k = getN s k := by
    unfold poisonCounted
    split
    · rfl
    · exact getN_putN_ne s _ hk
  have hpend : getN (poisonCounted s p) (K.outCommitPend p) = getN s (K.outCommitPend p) :=
    hkey (by simp only [K.outCommitPend, K.compPoison, objKey]; omega)
  refine ⟨hnow, hport, hkey (by simp only [K.outState, K.compPoison, objKey]; omega), ?_, fun i => hkey ?_⟩
  · unfold pendTaken
    rw [hpend, hport]
  · simp only [K.spreadState, K.compPoison, objKey]
    omega

theorem timingRuns_poisonCounted (s : State) (p : Nat) : timingRuns (poisonCounted s p) p = timingRuns s p := by
  obtain ⟨-, hport, hst, -, -⟩ := poisonCounted_same s p
  unfold timingRuns
  rw [hport, show getN (poisonCounted s p) (K.outState p) = getN s (K.outState p) from hst]

section
variable {s : State} {port : Fin 8} (hruns : timingRuns s port = true) (hblank : (portOf s port).inBlank = false)
  (hspreads : ∀ i, i < 8 → getN s (K.spreadState i) = sprOff)
include hruns hblank hspreads

/-- A VBS at which no spread is on is the port's alone. -/
theorem exec_vbs {u : State} (hvbs : vbs s port = u) (hu : ∀ i, i < 8 → getN u (K.spreadState i) = getN s (K.spreadState i))
    (hclosed : outSt s port = outRun → (portOf s port).closed = true) : exec (.vbs port) s = .next (releaseReset u) := by
  show execVbs port s = _
  unfold execVbs
  dsimp only
  rw [if_neg (by rintro ⟨hst, -, hopen, -⟩; simp [hclosed hst] at hopen), if_neg (by simp [hruns, hblank]), hvbs,
    spreadAtVbs_off fun i hi => (hu i hi).trans (hspreads i hi)]

theorem vbs_run (hst : outSt s port = outRun) (hclosed : (portOf s port).closed = true) :
    ∃ t, exec (.vbs port) s = .next t ∧ (portOf t port).closed = false ∧ (portOf t port).inBlank = true ∧ (portOf t port).lastTake = s.now ∧
      (portOf t port).active = setOver (portOf s port).latched (portOf s port).captured (portOf s port).active ∧
      getN t (K.outCommitPend port) = pendTaken s port := by
  have hvbs : vbs s port = take (poisonCounted s port) port false true := by
    obtain ⟨-, -, hst', -, -⟩ := poisonCounted_same s port
    have hcounted : (if (!timingRuns s port || (portOf s port).inBlank || (portOf s port).gap) = true then s else scanPoison s port) =
        poisonCounted s port := by
      rw [hruns, hblank]
      rfl
    unfold vbs
    dsimp only
    rw [hcounted, timingRuns_poisonCounted, if_neg (by simp [hruns, hblank]), hst', if_pos hst, if_pos hclosed]
  obtain ⟨hnow, hport, -, hpend, hkept⟩ := poisonCounted_same s port
  obtain ⟨hactive, hclosed', hblank', hlast, hpend', hspread⟩ := take_spec (poisonCounted s port) port.isLt true
  rw [hnow] at hlast
  rw [hport] at hactive
  rw [hpend] at hpend'
  have hexec := exec_vbs hruns hblank hspreads hvbs (fun i hi => (hspread i hi).trans (hkept i)) (fun _ => hclosed)
  generalize take (poisonCounted s port) port false true = u at hexec hactive hclosed' hblank' hlast hpend'
  obtain ⟨hreset, hsame⟩ := releaseReset_pend u port
  exact ⟨_, hexec, by rw [hsame]; exact hclosed', by rw [hsame]; exact hblank', by rw [hsame]; exact hlast, by rw [hsame]; exact hactive,
    hreset.trans hpend'⟩

/-- The port whose timing has stopped. -/
def stoppedPort (q : Port) : Port := { q with stoppedPos := modeH q.runMode + 65536 * (q.frame % 65536), runMode := 0xFF }

theorem vbs_stopping (hst : outSt s port = outStopping) (hgap : (portOf s port).gap = false) :
    ∃ t, exec (.vbs port) s = .next t ∧ (portOf t port).runMode = 0xFF ∧
      (portOf t port).active = setOver (portOf s port).latched (portOf s port).captured (portOf s port).active ∧
      getN t (K.outCommitPend port) = pendTaken s port := by
  have hvbs : vbs s port = modPort (modPort (take (poisonCounted s port) port false false) port (fun q => { q with gap := false })) port
      stoppedPort := by
    obtain ⟨-, -, hst', -, -⟩ := poisonCounted_same s port
    have hcounted : (if (!timingRuns s port || (portOf s port).inBlank || (portOf s port).gap) = true then s else scanPoison s port) =
        poisonCounted s port := by
      rw [hruns, hblank]
      rfl
    unfold vbs
    dsimp only
    rw [hcounted, timingRuns_poisonCounted, if_neg (by simp [hruns, hblank]), hst', hst, if_neg (by decide), if_pos rfl, hgap, if_neg (by decide)]
    rfl
  obtain ⟨-, hport, -, hpend, hkept⟩ := poisonCounted_same s port
  obtain ⟨hactive, -, -, -, hpend', hspread⟩ := take_spec (poisonCounted s port) port.isLt false
  rw [hport] at hactive
  rw [hpend] at hpend'
  have hclosed (h : outSt s port = outRun) : (portOf s port).closed = true := absurd (hst.symm.trans h) (by decide)
  generalize take (poisonCounted s port) port false false = u at hvbs hactive hpend' hspread
  have hexec := exec_vbs hruns hblank hspreads hvbs (fun i hi => (hspread i hi).trans (hkept i)) hclosed
  have hport' : portOf (modPort (modPort u port (fun q => { q with gap := false })) port stoppedPort) port =
      stoppedPort { portOf u port with gap := false } := by
    rw [portOf_modPort, portOf_modPort]
  obtain ⟨hreset, hsame⟩ := releaseReset_pend (modPort (modPort u port (fun q => { q with gap := false })) port stoppedPort) port
  exact ⟨_, hexec, by rw [hsame, hport']; rfl, by rw [hsame, hport']; exact hactive, hreset.trans hpend'⟩

end

/-! ## The obligation -/

/-- Settles O43: what each event of a frame does to its port, and that a take's later parts leave what it put in force. -/
theorem frameEvents : Obligations.FrameEvents := by
  unfold Obligations.FrameEvents
  refine ⟨fun s port => ⟨fun hst hphase hclosed hblank => closePoint_latches hst hphase hclosed hblank, closePoint_nothing⟩, ?_, ?_, ?_, ?_, ?_,
    ?_, ?_, ?_⟩
  · exact fun s port hruns hblank hspreads => ⟨vbs_run hruns hblank hspreads, vbs_stopping hruns hblank hspreads⟩
  · exact fun s port hruns hblank hphase => frameStart_advances hruns hblank hphase
  · refine fun s port hon hruns => ⟨lineMatch_once hon hruns, fun hline => if_neg ?_⟩
    rintro ⟨-, -, hlt, -⟩
    omega
  · exact fun s port hon hruns hblank hsent => frameDone_once hon hruns hblank hsent
  · exact fun s port line stream pixel hruns hgap hblank hline hfetch hnew => underrun_first hruns hgap hblank hline hfetch hnew
  · exact fun s port row hcomposes hrow hprefetched hwaiting hcomposing hslots =>
      ⟨rowEligible_waits hcomposes hrow hprefetched hwaiting hcomposing hslots, rowEligible_early⟩
  · exact fun s port row slot f hcomposing hslot hstart hrun hagain => rowComposeDone_lands hcomposing hslot hstart hrun hagain
  · exact fun s port row hcomposes hrow hprefetched hblank =>
      ⟨prefetch_background hcomposes hrow hprefetched hblank, fun i hsome => prefetch_slot hcomposes hrow hprefetched hblank hsome⟩

end Sys2Proof.Proofs.FrameEvents

/-!
PROOFS. O36: work submitted to a context, and the front end's next step.
-/

namespace Sys2Proof.Proofs.SubmittingWork

open Sys2Proof.Machine
open Sys2Proof.Proofs.FrameEvents (emit_changes getN_emit)
open Sys2Proof.Proofs.LayersAndCommits (answerParts)

/-! ## The parts of a submission -/

/-- An answer stays where what follows it leaves the rings and host memory alone. -/
theorem ringDone_after {s u t : State} {h : CmdHdr} {op st : Nat} {res : Option Nat} {P : List Part} (hd : ringDone s u h op st res)
    (hch : Changes P u t) (hP : Part.rings ∉ P ∧ Part.host ∉ P) : ringDone s t h op st res := by
  have hring : ringOf t h.ring = ringOf u h.ring := by rw [ringOf, hch.rings hP.1, ← ringOf]
  have hread (f a n : Nat) : hostRead t f a n = hostRead u f a n := by rw [hostRead, hch.host hP.2, ← hostRead]
  unfold ringDone entryWritten at hd ⊢
  simp only [hring, hread]
  exact hd

theorem pass_not_noteKey {c sub : Nat} (hsub : sub = 6 ∨ sub = 10 ∨ sub = 11) : ¬ noteKey (objKey (0x3300 + c) sub) := by
  simp only [noteKey, K.dictNotifyDrop, K.regVoteFix, K.regVoteBad, K.kaolinCanDrop, K.logOut, objKey]
  omega

/-- A pass that faults is answered, counted and told of. -/
theorem passFault_spec (s : State) (c : Nat) (t : Ticket) (cause record : Nat) : ∃ u, u = complete s t 3 cause record ∧
    getN (passFault s c t cause record) (K.passFault c) = satInc 32 (getN s (K.passFault c)) ∧
    Changes [.fresh, .objs, .voteSecond, .funcs, .sess, .grog, .notes] u (passFault s c t cause record) ∧
    (passFault s c t cause record).ctxs = s.ctxs ∧ onlyObjsAndNotes [K.passFault c] s (passFault s c t cause record) := by
  have hch : Changes answerParts s (complete s t 3 cause record) := complete_ch (List.Subset.refl _) (Changes.refl _ s)
  refine ⟨_, rfl, ?_⟩
  unfold passFault
  generalize complete s t 3 cause record = u at hch
  dsimp only
  have hkey : getN u (K.passFault c) = getN s (K.passFault c) := getN_of_changes hch (by decide) (pass_not_noteKey (by decide))
  have hbump : Changes [.fresh, .objs, .voteSecond, .funcs, .sess, .grog, .notes] u (bump u (K.passFault c)) :=
    bump_ch (by decide) (Changes.refl _ u)
  refine ⟨?_, emit_ch (by decide) hbump, (emit_changes _ _ _ _ _ _).ctxs (by decide) |>.trans (hch.ctxs (by decide)), ?_⟩
  · have hnote : ¬ noteKey (K.passFault c) := pass_not_noteKey (by decide)
    rw [getN_emit _ _ _ _ _ _ hnote, ← hkey]
    exact getN_bump u _
  · exact onlyAndNotes_trans (onlyAndNotes_trans (onlyAndNotes_of_changes hch (by decide))
      (onlyAndNotes_of_only (onlyObjs_bump (by simp) (onlyObjs_refl _ u)))) (onlyAndNotes_of_changes (emit_changes _ _ _ _ _ _) (by decide))

theorem dropPass_spec (s : State) (c : Nat) (t : Ticket) (frame : Nat) : ∃ u, u = complete s t 4 2 frame ∧
    getN (dropPass s c t frame) (K.passDropped c) = satInc 32 (getN s (K.passDropped c)) ∧ Changes [.objs] u (dropPass s c t frame) ∧
    (dropPass s c t frame).ctxs = s.ctxs ∧ onlyObjsAndNotes [K.passDropped c] s (dropPass s c t frame) := by
  have hch : Changes answerParts s (complete s t 4 2 frame) := complete_ch (List.Subset.refl _) (Changes.refl _ s)
  refine ⟨_, rfl, ?_⟩
  unfold dropPass
  generalize complete s t 4 2 frame = u at hch
  have hkey : getN u (K.passDropped c) = getN s (K.passDropped c) := getN_of_changes hch (by decide) (pass_not_noteKey (by decide))
  refine ⟨(getN_bump u _).trans (congrArg (satInc 32) hkey), bump_ch (by decide) (Changes.refl _ u), hch.ctxs (by decide), ?_⟩
  exact onlyAndNotes_trans (onlyAndNotes_of_changes hch (by decide)) (onlyAndNotes_of_only (onlyObjs_bump (by simp) (onlyObjs_refl _ u)))

/-! ## DRAW_SUBMIT (R176 to R188) -/

/-- A fetched DRAW_SUBMIT: its ring is at its frame. -/
def framed (s : State) (h : CmdHdr) (p : DrawPayload) : State :=
  modRing (fetched s h 0x10 p.bytes) h.ring (fun r => r.withFrame p.frame.toNat (ticketOf s h 0x10).index)

theorem framed_changes (s : State) (h : CmdHdr) (p : DrawPayload) : Changes [.host, .rings] s (framed s h p) :=
  (fetched_changes s h 0x10 p.bytes).trans (ch_rings (Changes.refl _ _) (by decide))

theorem ringOf_framed (s : State) (h : CmdHdr) (p : DrawPayload) : ringOf (framed s h p) h.ring =
    (ringOf (fetched s h 0x10 p.bytes) h.ring).withFrame p.frame.toNat (ticketOf s h 0x10).index := ringOf_modRing _ _ _

theorem sameRing_framed (s : State) (h : CmdHdr) (p : DrawPayload) : SameRing s (framed s h p) h := by
  have hs := SameRing.fetched s h 0x10 p.bytes
  have hring := ringOf_framed s h p
  exact ⟨by rw [hring]; exact hs.head, by rw [hring]; exact hs.cqTail, by rw [hring]; exact hs.cqHead, by rw [hring]; exact hs.era,
    by rw [hring]; exact hs.held, hs.now, hs.epoch, hs.cqBase, hs.cqOrder⟩

/-- What a fetched DRAW_SUBMIT of a context leaves. -/
def drawOutcome (s : State) (h : CmdHdr) (p : DrawPayload) (c : Nat) : State :=
  let t := ticketOf s h 0x10
  let ts := passTargets h.surface.toNat p
  if (ctxOf s c).dropFrame = some p.frame.toNat then dropPass (framed s h p) c t p.frame.toNat
  else match passHeadFault s (getN s (K.ringOwner h.ring)) p ts with
    | some cause => passFault (framed s h p) c t cause 0xFFFFFFFF
    | none => addPass (draw (framed s h p)) c (drawPass (framed s h p) h p t ts)

theorem exec_drawSubmit {s : State} {h : CmdHdr} {p : DrawPayload} (hf : Fetches s h 0x10 true) : exec (.drawSubmit h p) s = .next
    (match ringContext s (ticketOf s h 0x10) with
      | none => noContext (framed s h p) (ticketOf s h 0x10)
      | some c => drawOutcome s h p c) := by
  have hctx : ringContext (framed s h p) (ticketOf s h 0x10) = ringContext s (ticketOf s h 0x10) := rfl
  show execDrawSubmit h p s = _
  unfold execDrawSubmit
  rw [beginCmd_fetches hf]
  dsimp only
  rw [show modRing (fetched s h 0x10 p.bytes) (ticketOf s h 0x10).ring (fun r => r.withFrame p.frame.toNat (ticketOf s h 0x10).index) =
    framed s h p from rfl, hctx]
  cases ringContext s (ticketOf s h 0x10) with
  | none => rfl
  | some c =>
    have hframe : (ctxOf (framed s h p) c).dropFrame = (ctxOf s c).dropFrame := rfl
    have hhead : passHeadFault (framed s h p) (ticketOf s h 0x10).func p (passTargets h.surface.toNat p) =
        passHeadFault s (getN s (K.ringOwner h.ring)) p (passTargets h.surface.toNat p) := rfl
    unfold drawOutcome
    dsimp only
    rw [hframe, hhead]
    split
    · rfl
    · cases passHeadFault s (getN s (K.ringOwner h.ring)) p (passTargets h.surface.toNat p) <;> rfl

/-- A pass added to a context, before the front end goes on. -/
def passAdded (s : State) (c : Nat) (q : Pass) : State := modCtx (draw s) c (fun x => { x with passes := x.passes ++ [q] })

theorem passAdded_spec {s u : State} {h : CmdHdr} (hs : SameRing s u h) (hch : Changes [.host, .rings] s u) (c : Nat) (q : Pass) :
    (ctxOf (passAdded u c q) c).passes = (ctxOf s c).passes ++ [q] ∧ (∀ d, d ≠ c → ctxOf (passAdded u c q) d = ctxOf s d) ∧
      (ringOf (passAdded u c q) h.ring).head = ((ringOf s h.ring).head + 1) % 65536 ∧
      (ringOf (passAdded u c q) h.ring).cqTail = (ringOf s h.ring).cqTail ∧ Changes [.fresh, .host, .rings, .ctxs] s (passAdded u c q) := by
  have hctx (d : Nat) : ctxOf (draw u) d = ctxOf s d := by
    show ctxOf u d = _
    rw [ctxOf, hch.ctxs (by decide), ← ctxOf]
  refine ⟨?_, fun d hd => (ctxOf_modCtx_ne (draw u) _ hd).trans (hctx d), hs.head, hs.cqTail, ?_⟩
  · exact (congrArg Ctx.passes (ctxOf_modCtx (draw u) c _)).trans (by rw [hctx])
  · exact ch_ctxs (draw_ch (by decide) (hch.mono (by decide))) (by decide)

section
variable {s : State} {h : CmdHdr} {p : DrawPayload} {c : Nat} (hf : Fetches s h 0x10 true)
include hf

theorem drawSubmit_joins (hctx : ringContext s (ticketOf s h 0x10) = some c) (hframe : (ctxOf s c).dropFrame ≠ some p.frame.toNat)
    (hhead : passHeadFault s (getN s (K.ringOwner h.ring)) p (passTargets h.surface.toNat p) = none) :
    ∃ u q, exec (.drawSubmit h p) s = .next (ctxChanged u c) ∧ (ctxOf u c).passes = (ctxOf s c).passes ++ [q] ∧ q.phase = 0 ∧
      q.compute = false ∧ q.ticket = ticketOf s h 0x10 ∧ q.frame = p.frame.toNat ∧ q.list = p.list.toNat ∧ q.len = p.len.toNat ∧
      q.samples = p.samples.toNat ∧ q.load = p.load.toNat ∧ q.depth = p.depth.toNat ∧ q.clear = p.clear.toNat ∧
      q.targets.map (·.handle) = passTargets h.surface.toNat p ∧
      q.area = (p.area.x.toNat, p.area.y.toNat, p.area.w.toNat, p.area.h.toNat) ∧
      q.total = tilesAcross q.area * tilesDown q.area ∧ (∀ d, d ≠ c → ctxOf u d = ctxOf s d) ∧
      (ringOf u h.ring).head = ((ringOf s h.ring).head + 1) % 65536 ∧ (ringOf u h.ring).cqTail = (ringOf s h.ring).cqTail ∧
      Changes [.fresh, .host, .rings, .ctxs] s u := by
  obtain ⟨hpasses, hothers, hhead', htail, hch⟩ := passAdded_spec (sameRing_framed s h p) (framed_changes s h p) c
    (drawPass (framed s h p) h p (ticketOf s h 0x10) (passTargets h.surface.toNat p))
  have htargets : ((passTargets h.surface.toNat p).map (shapeOf (framed s h p))).map (·.handle) = passTargets h.surface.toNat p := by
    rw [List.map_map]
    exact List.map_id _
  have hout : drawOutcome s h p c = ctxChanged (passAdded (framed s h p) c
      (drawPass (framed s h p) h p (ticketOf s h 0x10) (passTargets h.surface.toNat p))) c := by
    unfold drawOutcome
    dsimp only
    rw [if_neg hframe, hhead]
    rfl
  refine ⟨_, _, ?_, hpasses, rfl, rfl, rfl, rfl, rfl, rfl, rfl, rfl, rfl, rfl, htargets, rfl, rfl, hothers, hhead', htail, hch⟩
  rw [exec_drawSubmit hf, hctx, ← hout]

theorem drawSubmit_faults {cause : Nat} (hctx : ringContext s (ticketOf s h 0x10) = some c)
    (hframe : (ctxOf s c).dropFrame ≠ some p.frame.toNat)
    (hhead : passHeadFault s (getN s (K.ringOwner h.ring)) p (passTargets h.surface.toNat p) = some cause) :
    ∃ t, exec (.drawSubmit h p) s = .next t ∧ ringDone s t h 0x10 3 (some cause) ∧
      getN t (K.passFault c) = satInc 32 (getN s (K.passFault c)) ∧ t.ctxs = s.ctxs ∧ onlyObjsAndNotes [K.passFault c] s t := by
  have hframed := framed_changes s h p
  obtain ⟨u, rfl, hcount, hch, hctxs, hobjs⟩ := passFault_spec (framed s h p) c (ticketOf s h 0x10) cause 0xFFFFFFFF
  obtain ⟨hdone, -, -⟩ := complete_done (st := 3) (x := cause) (d := 0xFFFFFFFF) (res := some cause) hf (sameRing_framed s h p) (by simp)
  refine ⟨_, ?_, ringDone_after hdone hch (by decide), hcount, hctxs, onlyAndNotes_trans (onlyAndNotes_of_changes hframed (by decide)) hobjs⟩
  rw [exec_drawSubmit hf, hctx]
  unfold drawOutcome
  dsimp only
  rw [if_neg hframe, hhead]

theorem drawSubmit_dropped (hctx : ringContext s (ticketOf s h 0x10) = some c) (hframe : (ctxOf s c).dropFrame = some p.frame.toNat) :
    ∃ t, exec (.drawSubmit h p) s = .next t ∧ ringDone s t h 0x10 4 (some 2) ∧
      getN t (K.passDropped c) = satInc 32 (getN s (K.passDropped c)) ∧ t.ctxs = s.ctxs ∧ onlyObjsAndNotes [K.passDropped c] s t := by
  have hframed := framed_changes s h p
  obtain ⟨u, rfl, hcount, hch, hctxs, hobjs⟩ := dropPass_spec (framed s h p) c (ticketOf s h 0x10) p.frame.toNat
  obtain ⟨hdone, -, -⟩ := complete_done (st := 4) (x := 2) (d := p.frame.toNat) (res := some 2) hf (sameRing_framed s h p) (by simp)
  refine ⟨_, ?_, ringDone_after hdone hch (by decide), hcount, hctxs, onlyAndNotes_trans (onlyAndNotes_of_changes hframed (by decide)) hobjs⟩
  rw [exec_drawSubmit hf, hctx]
  unfold drawOutcome
  dsimp only
  rw [if_pos hframe]

end

/-- Work of a ring without a context of its function ends with FAULT (log 123). -/
theorem noContext_done {s u : State} {h : CmdHdr} {op : Nat} {write : Bool} (hf : Fetches s h op write) (hs : SameRing s u h)
    (hch : Changes [.host, .rings] s u) : ringDone s (noContext u (ticketOf s h op)) h op 3 (some 2) ∧
      (noContext u (ticketOf s h op)).ctxs = s.ctxs ∧ onlyObjsAndNotes [] s (noContext u (ticketOf s h op)) := by
  obtain ⟨hdone, -, hanswer⟩ := complete_done (st := 3) (x := causeAccess) (d := 0xFFFFFFFF) (res := some 2) hf hs (by simp [causeAccess])
  exact ⟨hdone, (hanswer.ctxs (by decide)).trans (hch.ctxs (by decide)),
    onlyAndNotes_trans (onlyAndNotes_of_changes hch (by decide)) (onlyAndNotes_of_changes hanswer (by decide))⟩

theorem drawSubmit_noContext {s : State} {h : CmdHdr} {p : DrawPayload} (hf : Fetches s h 0x10 true)
    (hctx : ringContext s (ticketOf s h 0x10) = none) :
    ∃ t, exec (.drawSubmit h p) s = .next t ∧ ringDone s t h 0x10 3 (some 2) ∧ t.ctxs = s.ctxs ∧ onlyObjsAndNotes [] s t := by
  have hexec := exec_drawSubmit (p := p) hf
  rw [hctx] at hexec
  exact ⟨_, hexec, noContext_done hf (sameRing_framed s h p) (framed_changes s h p)⟩

/-! ## COMPUTE_DISPATCH (R200, R202) -/

/-- What a fetched COMPUTE_DISPATCH of a context leaves. -/
def dispatchOutcome (s : State) (h : CmdHdr) (list : BitVec 64) (len : BitVec 32) (zero : BitVec 288) (c : Nat) : State :=
  let u := fetched s h 0x11 (dispatchBytes list len zero)
  let t := ticketOf s h 0x11
  if (!listOk s (getN s (K.ringOwner h.ring)) list.toNat len.toNat) = true then passFault u c t causeAccess 0xFFFFFFFF
  else if (!lengthOk len.toNat 65536) = true ∨ zero ≠ 0 then passFault u c t causeRecord 0xFFFFFFFF
  else addPass (draw u) c (computePass u h list.toNat len.toNat t)

section
variable {s : State} {h : CmdHdr} {list : BitVec 64} {len : BitVec 32} {zero : BitVec 288} {c : Nat} (hf : Fetches s h 0x11 false)
include hf

theorem exec_computeDispatch : exec (.computeDispatch h list len zero) s = .next
    (match ringContext s (ticketOf s h 0x11) with
      | none => noContext (fetched s h 0x11 (dispatchBytes list len zero)) (ticketOf s h 0x11)
      | some c => dispatchOutcome s h list len zero c) := by
  have hctx : ringContext (fetched s h 0x11 (dispatchBytes list len zero)) (ticketOf s h 0x11) = ringContext s (ticketOf s h 0x11) := rfl
  show execComputeDispatch h list len zero s = _
  unfold execComputeDispatch
  rw [beginCmd_fetches hf]
  dsimp only
  rw [hctx]
  cases ringContext s (ticketOf s h 0x11) with
  | none => rfl
  | some c =>
    have hlist : listOk (fetched s h 0x11 (dispatchBytes list len zero)) (ticketOf s h 0x11).func list.toNat len.toNat =
        listOk s (getN s (K.ringOwner h.ring)) list.toNat len.toNat := rfl
    unfold dispatchOutcome
    dsimp only
    rw [hlist]
    split
    · rfl
    · split <;> rfl

theorem computeDispatch_faults {cause : Nat} (hout : dispatchOutcome s h list len zero c =
      passFault (fetched s h 0x11 (dispatchBytes list len zero)) c (ticketOf s h 0x11) cause 0xFFFFFFFF)
    (hctx : ringContext s (ticketOf s h 0x11) = some c) :
    ∃ t, exec (.computeDispatch h list len zero) s = .next t ∧ ringDone s t h 0x11 3 (some cause) ∧
      getN t (K.passFault c) = satInc 32 (getN s (K.passFault c)) ∧ t.ctxs = s.ctxs := by
  have hexec := exec_computeDispatch (list := list) (len := len) (zero := zero) hf
  rw [hctx] at hexec
  obtain ⟨u, rfl, hcount, hch, hctxs, -⟩ := passFault_spec (fetched s h 0x11 (dispatchBytes list len zero)) c (ticketOf s h 0x11) cause 0xFFFFFFFF
  obtain ⟨hdone, -, -⟩ := complete_done (st := 3) (x := cause) (d := 0xFFFFFFFF) (res := some cause) hf
    (SameRing.fetched s h 0x11 (dispatchBytes list len zero)) (by simp)
  exact ⟨_, hexec.trans (congrArg Host.Outcome.next hout), ringDone_after hdone hch (by decide), hcount, hctxs⟩

theorem computeDispatch_joins (hctx : ringContext s (ticketOf s h 0x11) = some c)
    (hlist : listOk s (getN s (K.ringOwner h.ring)) list.toNat len.toNat = true) (hlen : lengthOk len.toNat 65536 = true) (hzero : zero = 0) :
    ∃ u q, exec (.computeDispatch h list len zero) s = .next (ctxChanged u c) ∧ (ctxOf u c).passes = (ctxOf s c).passes ++ [q] ∧
      q.phase = 0 ∧ q.compute = true ∧ q.ticket = ticketOf s h 0x11 ∧ q.list = list.toNat ∧ q.len = len.toNat ∧
      (∀ d, d ≠ c → ctxOf u d = ctxOf s d) ∧ (ringOf u h.ring).head = ((ringOf s h.ring).head + 1) % 65536 ∧
      (ringOf u h.ring).cqTail = (ringOf s h.ring).cqTail ∧ Changes [.fresh, .host, .rings, .ctxs] s u := by
  have hexec := exec_computeDispatch (list := list) (len := len) (zero := zero) hf
  rw [hctx] at hexec
  obtain ⟨hpasses, hothers, hhead, htail, hch⟩ := passAdded_spec (SameRing.fetched s h 0x11 (dispatchBytes list len zero))
    (fetched_changes s h 0x11 (dispatchBytes list len zero)) c
    (computePass (fetched s h 0x11 (dispatchBytes list len zero)) h list.toNat len.toNat (ticketOf s h 0x11))
  have hout : dispatchOutcome s h list len zero c = ctxChanged (passAdded (fetched s h 0x11 (dispatchBytes list len zero)) c
      (computePass (fetched s h 0x11 (dispatchBytes list len zero)) h list.toNat len.toNat (ticketOf s h 0x11))) c := by
    unfold dispatchOutcome
    dsimp only
    rw [if_neg (by simp [hlist]), if_neg (by simp [hlen, hzero])]
    rfl
  exact ⟨_, _, hexec.trans (congrArg Host.Outcome.next hout), hpasses, rfl, rfl, rfl, rfl, rfl, hothers, hhead, htail, hch⟩

end

theorem lengthOk_iff {len top : Nat} : lengthOk len top = true ↔ len % 32 = 0 ∧ 32 ≤ len ∧ len ≤ top := by
  simp [lengthOk, and_assoc]

/-! ## The front end's next step (R172, R187, R188, R200) -/

theorem binStep_stopped {s : State} {c : Nat} (h : ctxFrozen s c = true ∨ domSt s 10 ≠ domOn) : binStep s c = none := by
  unfold binStep
  dsimp only
  split
  · rfl
  · exact if_pos h

/-- What the front end does with the first pass of a context, where it may work. -/
def firstStep (s : State) (c : Nat) (p : Pass) : Option State :=
  if (!p.parsed) = true then
    match parsePass s p with
    | (s, .error e) => some (passFault (removePass s c p.id) c p.ticket e.1 e.2)
    | (s, .ok p') => some (modPass s c p.id (fun _ => p'))
  else if p.compute = true then
    match nextDispatch p.later with
    | none => some (finishPass s c p)
    | some (d, rest) => some (modPass s c p.id (fun p => { p.withDispatch d rest with phase := 2, began := s.now }))
  else if (ctxOf s c).lastFrame ≠ some p.frame then
    if getN s (K.siltSize c) < getN s (K.siltNow c) ∧ siltInUse (ctxOf s c) ≠ 0 then none
    else
      some (putN (modCtx s c (fun x => { x with lastFrame := some p.frame, dropFrame := none })) (K.siltNow c) (getN s (K.siltSize c)))
  else binNow s c p true

theorem binStep_first {s : State} {c : Nat} {p : Pass} {l : List Pass} (hpasses : (ctxOf s c).passes = p :: l) (hphase : p.phase = 0)
    (hfrozen : ctxFrozen s c = false) (hon : domSt s 10 = domOn) (hframe : p.compute = true ∨ (ctxOf s c).dropFrame ≠ some p.frame) :
    binStep s c = firstStep s c p := by
  have hfind : (ctxOf s c).passes.find? (fun p => p.phase == 0) = some p := by
    rw [hpasses, List.find?_cons_of_pos (by simp [hphase])]
  have hbefore : (ctxOf s c).passes.takeWhile (fun q => q.id != p.id) = [] := by
    rw [hpasses, List.takeWhile_cons_of_neg (by simp)]
  have hdropped : ¬ ((!p.compute) = true ∧ (ctxOf s c).dropFrame = some p.frame) := by
    rintro ⟨hcompute, hdrop⟩
    rcases hframe with hframe | hframe
    · simp [hframe] at hcompute
    · exact hframe hdrop
  unfold binStep firstStep
  dsimp only
  rw [hfind]
  dsimp only
  rw [hbefore, if_neg (by rintro (h | h); · simp [hfrozen] at h
                          · exact h hon), if_neg hdropped, if_neg (by simp [frontMay])]
  rfl

/-! ## Passes that leave their context -/

theorem startPassHead_ids (now : Nat) (l : List Pass) : (startPassHead now l).map (·.id) = l.map (·.id) := by
  cases l with
  | nil => rfl
  | cons p r =>
    rw [startPassHead]
    split <;> rfl

/-- The passes of a context without those of an identifier. -/
def passesWithout (s : State) (c id : Nat) (x : Ctx) : Ctx :=
  { x with passes := (if (ctxOf s c).passes.head?.any (fun p => p.id == id) then startPassHead s.now else fun l => l) (x.passes.filter (fun p => p.id != id)) }

/-- The state of a context from which a pass is taken, before the cores that ran it are freed. -/
def passTaken (s : State) (c id : Nat) : State :=
  modCtx (putN s (K.ctxSave c) (getN s (K.ctxSave c) -
    (((ctxOf s c).passes.filter (fun p => p.id == id)).map (fun p => (p.spilled.map (·.kib)).sum)).sum)) c (passesWithout s c id)

theorem removePass_changes (s : State) (c id : Nat) : Changes [.cores] (passTaken s c id) (removePass s c id) := by
  show Changes [.cores] (passTaken s c id) (foldN (List.range 36) _ (passTaken s c id))
  refine foldN_ch _ (Changes.refl _ _) fun x k hx => ?_
  split
  · split
    · exact clearCore_ch (List.Subset.refl _) hx
    · exact hx
  · exact hx

theorem removePass_passes (s : State) (c id : Nat) : ∀ q ∈ (ctxOf (removePass s c id) c).passes, q.id ≠ id := by
  have hctx : ctxOf (removePass s c id) c = ctxOf (passTaken s c id) c := by
    rw [ctxOf, (removePass_changes s c id).ctxs (by decide), ← ctxOf]
  have hids : (ctxOf (passTaken s c id) c).passes.map (·.id) = ((ctxOf s c).passes.filter (fun p => p.id != id)).map (·.id) := by
    unfold passTaken
    rw [ctxOf_modCtx]
    unfold passesWithout
    dsimp only
    split
    · exact startPassHead_ids _ _
    · rfl
  intro q hq
  rw [hctx] at hq
  have hmem := List.mem_map_of_mem (f := (·.id)) hq
  rw [hids] at hmem
  obtain ⟨p, hp, heq⟩ := List.mem_map.1 hmem
  rw [← heq]
  simpa using (List.mem_filter.1 hp).2

theorem getN_removePass (s : State) {c id k : Nat} (hk : k ≠ K.ctxSave c) : getN (removePass s c id) k = getN s k :=
  ((removePass_changes s c id).getN (by decide) (by decide) k).trans (getN_putN_ne s _ hk)

theorem firstStep_unread {s s' : State} {c : Nat} {p : Pass} {e : Nat × Nat} (hparsed : p.parsed = false)
    (hread : parsePass s p = (s', .error e)) : ∃ u, firstStep s c p = some u ∧ (∀ q ∈ (ctxOf u c).passes, q.id ≠ p.id) ∧
      getN u (K.passFault c) = satInc 32 (getN s' (K.passFault c)) := by
  obtain ⟨-, -, hcount, -, hctxs, -⟩ := passFault_spec (removePass s' c p.id) c p.ticket e.1 e.2
  have hstep : firstStep s c p = some (passFault (removePass s' c p.id) c p.ticket e.1 e.2) := by
    unfold firstStep
    rw [if_pos (by simp [hparsed]), hread]
  refine ⟨_, hstep, ?_, hcount.trans (congrArg (satInc 32) (getN_removePass s' ?_))⟩
  · rw [ctxOf, hctxs, ← ctxOf]
    exact removePass_passes s' c p.id
  · simp only [K.passFault, K.ctxSave, objKey]
    omega

theorem firstStep_dispatch {s : State} {c : Nat} {p : Pass} {l : List Pass} (hpasses : (ctxOf s c).passes = p :: l) {d : DispatchCall}
    {rest : List DispatchCall} (hparsed : p.parsed = true) (hcompute : p.compute = true) (hnext : nextDispatch p.later = some (d, rest))
    (hids : ∀ q ∈ l, q.id ≠ p.id) : ∃ u, firstStep s c p = some u ∧
      (ctxOf u c).passes = { p.withDispatch d rest with phase := 2, began := s.now } :: l ∧ Changes [.ctxs] s u := by
  have hstep : firstStep s c p = some (modPass s c p.id (fun p => { p.withDispatch d rest with phase := 2, began := s.now })) := by
    unfold firstStep
    rw [if_neg (by simp [hparsed]), if_pos hcompute, hnext]
  refine ⟨_, hstep, ?_, modPass_ch (List.Subset.refl _) (Changes.refl _ s)⟩
  unfold modPass
  rw [ctxOf_modCtx]
  dsimp only
  rw [hpasses, List.map_cons, if_pos rfl, List.map_congr_left fun q hq => if_neg (hids q hq), List.map_id' l]

theorem getN_tilthEntry_ne (s : State) {k : Nat} (hk : k ≠ K.tilthSeq) (a b d e f g : Nat) : getN (tilthEntry s a b d e f g) k = getN s k := by
  unfold tilthEntry
  extract_lets seq e
  have hlog (l : List (List Byte)) : getN { s with tilthLog := l } k = getN s k := rfl
  exact (getN_putN_ne _ _ hk).trans (hlog _)

/-- A pass whose use exceeds the pool is dropped with its frame (R188). -/
theorem overflow_spec (s : State) (c : Nat) (p : Pass) (used : Nat) : (∀ q ∈ (ctxOf (overflow s c p used) c).passes, q.id ≠ p.id) ∧
    (ctxOf (overflow s c p used) c).dropFrame = some p.frame ∧
    getN (overflow s c p used) (K.siltOverflow c) = satInc 32 (getN s (K.siltOverflow c)) := by
  have hnote : ¬ noteKey (K.siltOverflow c) := pass_not_noteKey (by decide)
  have hdropped : K.siltOverflow c ≠ K.passDropped c := by
    simp only [K.siltOverflow, K.passDropped, objKey]
    omega
  have hsize : K.siltOverflow c ≠ K.siltSize c := by
    simp only [K.siltOverflow, K.siltSize, objKey]
    omega
  have hdenied : K.siltOverflow c ≠ K.siltDenied c := by
    simp only [K.siltOverflow, K.siltDenied, objKey]
    omega
  have hseq : K.siltOverflow c ≠ K.tilthSeq := by
    simp only [K.siltOverflow, K.tilthSeq, objKey]
    omega
  have hsave : K.siltOverflow c ≠ K.ctxSave c := by
    simp only [K.siltOverflow, K.ctxSave, objKey]
    omega
  unfold overflow
  extract_lets now grown grow s₁ s₂ old s₃ s₄ s₅
  have hanswer : Changes answerParts s s₁ := complete_ch (List.Subset.refl _) (Changes.refl _ s)
  have h₁ : getN s₁ (K.siltOverflow c) = getN s (K.siltOverflow c) := getN_of_changes hanswer (by decide) hnote
  clear_value s₁
  have h₂ : getN s₂ (K.siltOverflow c) = satInc 32 (getN s (K.siltOverflow c)) := by
    unfold s₂
    rw [getN_bump_ne _ hdropped, getN_bump, h₁]
  clear_value s₂
  have h₃ : getN s₃ (K.siltOverflow c) = satInc 32 (getN s (K.siltOverflow c)) := by
    unfold s₃
    split
    · exact h₂
    · split
      · rw [getN_tilthEntry_ne _ hseq, getN_writeN_ne _ _ hsize]
        exact h₂
      · rw [getN_bump_ne _ hdenied]
        exact h₂
  clear_value s₃
  have h₅ : getN s₅ (K.siltOverflow c) = satInc 32 (getN s (K.siltOverflow c)) := (getN_emit _ _ _ _ _ _ hnote).trans h₃
  clear_value s₅
  have hpasses := removePass_passes s₅ c p.id
  have hkept := getN_removePass (id := p.id) s₅ hsave
  generalize removePass s₅ c p.id = u at hpasses hkept
  have hctx := ctxOf_modCtx u c (fun x => { x with dropFrame := some p.frame, lastFrame := some p.frame })
  exact ⟨by rw [hctx]; exact hpasses, by rw [hctx], hkept.trans h₅⟩

theorem firstStep_full {s : State} {c : Nat} {p : Pass} (hparsed : p.parsed = true) (hcompute : p.compute = false)
    (hlast : (ctxOf s c).lastFrame = some p.frame) (hrefused : (binPass (getN s (K.siltNow c) * 1048576) p s).run.refused = false)
    (hlost : (binPass (getN s (K.siltNow c) * 1048576) p s).run.lost = false)
    (hfull : (binPass (getN s (K.siltNow c) * 1048576) p s).full = true) :
    ∃ u, firstStep s c p = some u ∧ (∀ q ∈ (ctxOf u c).passes, q.id ≠ p.id) ∧ (ctxOf u c).dropFrame = some p.frame ∧
      getN u (K.siltOverflow c) = satInc 32 (getN (binPass (getN s (K.siltNow c) * 1048576) p s).run.state (K.siltOverflow c)) := by
  have hstep : firstStep s c p = some (overflow (bumpBy (binPass (getN s (K.siltNow c) * 1048576) p s).run.state (K.passPoison c)
      (binPass (getN s (K.siltNow c) * 1048576) p s).run.poison) c p (binPass (getN s (K.siltNow c) * 1048576) p s).used) := by
    unfold firstStep binNow
    dsimp only
    rw [if_neg (by simp [hparsed]), if_neg (by simp [hcompute]), if_neg (by simp [hlast]), hrefused, hlost, hfull]
    rfl
  generalize binPass (getN s (K.siltNow c) * 1048576) p s = b at hstep
  obtain ⟨hpasses, hdrop, hcount⟩ := overflow_spec (bumpBy b.run.state (K.passPoison c) b.run.poison) c p b.used
  refine ⟨_, hstep, hpasses, hdrop, hcount.trans (congrArg (satInc 32) (getN_putN_ne b.run.state _ ?_))⟩
  simp only [K.siltOverflow, K.passPoison, objKey]
  omega

/-! ## The obligation -/

/-- Settles O36: a submission joins, faults or is dropped by its checks in their order; the front end's step of a first pass follows its
list. -/
theorem submittingWork : Obligations.SubmittingWork := by
  unfold Obligations.SubmittingWork
  refine ⟨?_, ?_, ?_, fun s c h => binStep_stopped h, ?_⟩
  · exact fun s h p c hf hctx => ⟨fun hframe hhead => drawSubmit_joins hf hctx hframe hhead,
      fun cause hframe hhead => drawSubmit_faults hf hctx hframe hhead, fun hframe => drawSubmit_dropped hf hctx hframe⟩
  · exact fun s h p hf hctx => drawSubmit_noContext hf hctx
  · refine fun s h list len zero hf => ⟨fun c hctx => ⟨fun hlist hmod hmin hmax hzero => ?_, fun hlist => ?_, fun hlist hbad => ?_⟩,
      fun hctx => ?_⟩
    · exact computeDispatch_joins hf hctx hlist (lengthOk_iff.2 ⟨hmod, hmin, hmax⟩) hzero
    · exact computeDispatch_faults (cause := causeAccess) hf (if_pos (by simp [hlist])) hctx
    · refine computeDispatch_faults (cause := causeRecord) hf ((if_neg (by simp [hlist])).trans (if_pos ?_)) hctx
      by_cases hlen : lengthOk len.toNat 65536 = true
      · obtain ⟨hmod, hmin, hmax⟩ := lengthOk_iff.1 hlen
        exact .inr (((hbad.resolve_left (by omega)).resolve_left (by omega)).resolve_left (by omega))
      · exact .inl (by simpa using hlen)
    · have hexec := exec_computeDispatch (list := list) (len := len) (zero := zero) hf
      rw [hctx] at hexec
      exact ⟨_, hexec, noContext_done hf (SameRing.fetched s h 0x11 _) (fetched_changes s h 0x11 _)⟩
  · intro s c p l hpasses hphase hfrozen hon hframe
    rw [binStep_first hpasses hphase hfrozen hon hframe]
    exact ⟨fun s' e hparsed hread => firstStep_unread hparsed hread,
      fun d rest hparsed hcompute hnext hids => firstStep_dispatch hpasses hparsed hcompute hnext hids,
      fun hparsed hcompute hlast hrefused hlost hfull => firstStep_full hparsed hcompute hlast hrefused hlost hfull⟩

end Sys2Proof.Proofs.SubmittingWork

/-!
PROOFS. O38: a core fault, what it does to the unit, the pass and the core.
-/

namespace Sys2Proof.Proofs.CoreFaults

open Sys2Proof.Machine
open Sys2Proof.Proofs.ModeFrame (Agrees updateHealth_objs)
open Sys2Proof.Proofs.MemoryErrors (agrees_ite agrees_settle)
open Sys2Proof.Proofs.LayersAndCommits (answerParts)
open Sys2Proof.Proofs.Answers

/-! ## The cores' states and generations -/

/-- The objects that show a core's state and its generation. -/
def coreKeys : List Nat := (List.range 36).map K.coreState ++ (List.range 36).map K.coreGen

theorem mem_coreKeys {k : Nat} : k ∈ coreKeys ↔ ∃ j, j < 36 ∧ (k = K.coreState j ∨ k = K.coreGen j) := by
  simp only [coreKeys, List.mem_append, List.mem_map, List.mem_range]
  grind

theorem core_not_noteKey : ∀ k ∈ coreKeys, ¬ noteKey k := by
  intro k hk
  obtain ⟨j, hj, rfl | rfl⟩ := mem_coreKeys.1 hk <;>
    · simp only [noteKey, K.dictNotifyDrop, K.regVoteFix, K.regVoteBad, K.kaolinCanDrop, K.logOut, K.coreState, K.coreGen, objKey]
      omega

/-- A key of another sub-index, or below or above the cores' blocks, is none of them. -/
theorem notCore {idx sub : Nat} (hsub : sub < 256) (h : (sub ≠ 1 ∧ sub ≠ 4) ∨ idx < 0x3010 ∨ 0x3034 ≤ idx) : objKey idx sub ∉ coreKeys := by
  intro hk
  obtain ⟨j, hj, heq | heq⟩ := mem_coreKeys.1 hk <;>
    · simp only [K.coreState, K.coreGen, objKey] at heq
      omega

theorem core_not_health : ∀ k ∈ coreKeys, k ∉ healthKeys := by
  intro k hk hin
  rw [healthKeys, List.mem_cons, List.mem_map] at hin
  obtain rfl | ⟨j, hj, rfl⟩ := hin
  · exact notCore (by decide) (.inr (by decide)) hk
  · have hj := List.mem_range.1 hj
    exact notCore (by omega) (.inr (by decide)) hk

section
variable {r s : State}

theorem cores_putN {idx sub n : Nat} (h : Agrees coreKeys r s) (hsub : sub < 256) (hk : (sub ≠ 1 ∧ sub ≠ 4) ∨ idx < 0x3010 ∨ 0x3034 ≤ idx) :
    Agrees coreKeys r (putN s (objKey idx sub) n) := ColdStart.agrees_putN h (notCore hsub hk)

theorem cores_of_changes {P : List Part} {t : State} (h : Agrees coreKeys r s) (hch : Changes P s t) (hP : Part.objs ∉ P) :
    Agrees coreKeys r t := h.trans (.of_changes hch hP core_not_noteKey)

theorem cores_of_eq {t : State} (h : Agrees coreKeys r s) (heq : t.objs = s.objs) : Agrees coreKeys r t := h.trans (.of_objs heq)

theorem cores_grogShown {cls kind unit spare cause gen : Nat} {low : Bool} (h : Agrees coreKeys r s) :
    Agrees coreKeys r (updateHealth (grogEvent (grogLog s cls kind unit spare cause 0 gen) cls kind unit spare low)) := by
  have hlog : Agrees coreKeys r (grogLog s cls kind unit spare cause 0 gen) :=
    cores_of_changes h (grogLog_ch (List.Subset.refl _) (Changes.refl _ s)) (by decide)
  have hevent := hlog.trans (.of_onlyAndNotes (GrogRecord.grogEvent_objs [] _ cls kind unit spare low)
    fun k hk => ⟨by simp, core_not_noteKey k hk⟩)
  exact hevent.trans (.of_onlyAndNotes (updateHealth_objs _) fun k hk => ⟨core_not_health k hk, core_not_noteKey k hk⟩)

theorem cores_retireUnit {cls unit cause : Nat} (h : Agrees coreKeys r s) : Agrees coreKeys r (retireUnit s cls unit cause) := by
  unfold retireUnit
  extract_lets s₁
  exact cores_grogShown (cores_of_eq h (modGrog_objs s _))

theorem cores_substitute {cls unit spare cause gen : Nat} (h : Agrees coreKeys r s) :
    Agrees coreKeys r (substitute s cls unit spare cause gen) := by
  unfold substitute
  extract_lets p s₁ s₂
  exact cores_grogShown (cores_of_eq h rfl)

theorem cores_tilthEntry {kind reason flags subject old new : Nat} (h : Agrees coreKeys r s) :
    Agrees coreKeys r (tilthEntry s kind reason flags subject old new) := by
  unfold tilthEntry
  extract_lets seq e
  exact cores_putN (cores_of_eq h rfl) (by decide) (.inr (by decide))

theorem cores_setTarget {c n : Nat} (h : Agrees coreKeys r s) : Agrees coreKeys r (setTarget s c n) := by
  unfold setTarget
  extract_lets old kept missed s₁ s₂
  have h₁ : Agrees coreKeys r s₁ := agrees_ite (cores_putN h (by decide) (.inr (by decide))) h
  have h₂ : Agrees coreKeys r s₂ :=
    ColdStart.agrees_putV (cores_putN h₁ (by decide) (.inl (by decide))) (notCore (by decide) (.inl (by decide)))
  exact agrees_ite h₂ (cores_tilthEntry h₂)

theorem cores_setTargets (ts : List (Nat × Nat)) (h : Agrees coreKeys r s) :
    Agrees coreKeys r (ts.foldl (fun s e => setTarget s e.1 e.2) s) := by
  induction ts generalizing s with
  | nil => exact h
  | cons e ts ih => exact ih (cores_setTarget h)

theorem cores_arbitrate (h : Agrees coreKeys r s) : Agrees coreKeys r (arbitrate s) := cores_setTargets _ h

theorem cores_countCores (h : Agrees coreKeys r s) : Agrees coreKeys r (countCores s) :=
  cores_putN (cores_putN h (by decide) (.inr (by decide))) (by decide) (.inr (by decide))

theorem cores_settle (h : Agrees coreKeys r s) : Agrees coreKeys r (settle s) :=
  agrees_settle (fun _ => notCore (by decide) (.inr (by omega))) h

end

/-! ## A spare in the core's place -/

/-- The core that no longer passes its test: retired, and taken for nobody. -/
def coreOut (s : State) (k : Nat) : State := modCore (putN s (K.coreState k) 3) k (fun x => { x with preemptFor := none })

/-- A core spare that fails its test is shown as retired. -/
theorem failSpare_cores (s : State) (n cause : Nat) :
    Agrees coreKeys (putN s (K.coreState n) 3) (failSpare s clsCore n cause) := by
  unfold failSpare
  extract_lets s₁ s₂
  exact cores_grogShown (cores_of_eq (fun _ _ => rfl) rfl)

theorem getN_failSpare (s : State) {n cause k : Nat} (hk : k < 36) (h : getN s (K.coreState k) = 3) :
    getN (failSpare s clsCore n cause) (K.coreState k) = 3 := by
  have hkept := failSpare_cores s n cause (K.coreState k) (mem_coreKeys.2 ⟨k, hk, .inl rfl⟩)
  rw [getN, hkept, ← getN]
  by_cases hn : n = k
  · rw [hn, getN_putN]
  · rw [getN_putN_ne _ _ (by simp only [K.coreState, objKey]; omega), h]

theorem trySpares_none {passes : Nat → Bool} {k cause : Nat} (hk : k < 36) (l : List Nat) (hl : ∀ n ∈ l, passes n = false) {s : State}
    (h : getN s (K.coreState k) = 3) :
    (trySpares s clsCore cause passes l).2 = none ∧ getN (trySpares s clsCore cause passes l).1 (K.coreState k) = 3 := by
  induction l generalizing s with
  | nil => exact ⟨rfl, h⟩
  | cons n l ih =>
    have hn := hl n (by simp)
    rw [trySpares, hn]
    exact ih (fun m hm => hl m (by simp [hm])) (getN_failSpare s hk h)

theorem trySpares_head {passes : Nat → Bool} {cause n : Nat} {rest : List Nat} (s : State) (hn : passes n = true) :
    trySpares s clsCore cause passes (n :: rest) = (s, some n) := by
  rw [trySpares, hn]
  rfl

/-- What takes the core's place: a spare that passed, or none. -/
def coreReplaced (s : State) (k cause : Nat) : Option Nat → State
  | none => retireUnit s clsCore k cause
  | some n =>
    askDomain (tilthEntry (substitute (putN (putN s (K.coreState n) 1) (K.coreGen n) ((getN s (K.coreGen n) + 1) % 65536))
      clsCore k n cause ((getN s (K.coreGen n) + 1) % 65536)) 9 7 0 k k n) (6 + n / 9)

theorem coreLost_eq (s : State) (k cause : Nat) (passing : Nat → Bool) : ∃ y,
    y = trySpares (coreOut s k) clsCore 1 passing (coreCandidates (coreOut s k) k) ∧
    coreLost s k cause passing = settle (arbitrate (countCores (coreReplaced y.1 k cause y.2))) := by
  refine ⟨_, rfl, ?_⟩
  have hout : modCore (putN s (K.coreState k) 3) k (fun x => { x with preemptFor := none }) = coreOut s k := rfl
  rw [coreLost, hout]
  dsimp only
  obtain ⟨u, x⟩ := trySpares (coreOut s k) clsCore 1 passing (coreCandidates (coreOut s k) k)
  cases x with
  | none => simp only [coreReplaced]
  | some n => simp only [coreReplaced]

/-- What follows the choice of a spare leaves the cores' states, generations and work alone. -/
theorem afterReplaced (u : State) : Agrees coreKeys u (settle (arbitrate (countCores u))) ∧ (settle (arbitrate (countCores u))).cores = u.cores :=
  ⟨cores_settle (cores_arbitrate (cores_countCores fun _ _ => rfl)),
    (settle_ch (P := [.objs, .served, .power, .tilthLog]) (by decide)
      (arbitrate_ch (by decide) (countCores_ch (by decide) (Changes.refl _ u)))).cores (by decide)⟩

theorem askDomain_cores (s : State) (d : Nat) : Agrees coreKeys s (askDomain s d) :=
  agrees_ite (cores_of_eq (fun _ _ => rfl) (interruptTw_objs s intGrog)) (fun _ _ => rfl)

theorem getN_of_cores {s t : State} (h : Agrees coreKeys s t) {k : Nat} (hk : k < 36) :
    getN t (K.coreState k) = getN s (K.coreState k) ∧ getN t (K.coreGen k) = getN s (K.coreGen k) :=
  ⟨congrArg Val.toNat (h _ (mem_coreKeys.2 ⟨k, hk, .inl rfl⟩)), congrArg Val.toNat (h _ (mem_coreKeys.2 ⟨k, hk, .inr rfl⟩))⟩

/-- With no spare that passes, the core is shown as retired. -/
theorem coreLost_alone (s : State) {k cause : Nat} {passing : Nat → Bool} (hk : k < 36)
    (hl : ∀ n ∈ coreCandidates (coreOut s k) k, passing n = false) : getN (coreLost s k cause passing) (K.coreState k) = 3 := by
  have hout : getN (coreOut s k) (K.coreState k) = 3 := getN_putN s _ 3
  obtain ⟨hnone, hstate⟩ := trySpares_none (cause := 1) hk _ hl hout
  obtain ⟨y, rfl, hlost⟩ := coreLost_eq s k cause passing
  rw [hlost, hnone]
  generalize (trySpares _ _ _ _ _).1 = u at hstate
  have hretired : Agrees coreKeys u (coreReplaced u k cause none) := by
    rw [coreReplaced]
    exact cores_retireUnit fun _ _ => rfl
  rw [(getN_of_cores (afterReplaced _).1 hk).1, (getN_of_cores hretired hk).1, hstate]

/-- The first spare that passes is shown in service under its next generation, the core as retired. -/
theorem coreLost_substituted (s : State) {k cause n : Nat} {rest : List Nat} {passing : Nat → Bool} (hk : k < 36) (hn : n < 36) (hne : n ≠ k)
    (hl : coreCandidates (coreOut s k) k = n :: rest) (hpass : passing n = true) :
    getN (coreLost s k cause passing) (K.coreState k) = 3 ∧ getN (coreLost s k cause passing) (K.coreState n) = 1 ∧
    getN (coreLost s k cause passing) (K.coreGen n) = (getN s (K.coreGen n) + 1) % 65536 := by
  have hkn : K.coreState k ≠ K.coreState n := by
    simp only [K.coreState, objKey]
    omega
  have hstate (i j : Nat) : K.coreState i ≠ K.coreGen j := by
    simp only [K.coreState, K.coreGen, objKey]
    omega
  obtain ⟨y, hy, hlost⟩ := coreLost_eq s k cause passing
  rw [hl, trySpares_head _ hpass] at hy
  subst hy
  have hgen : getN (coreOut s k) (K.coreGen n) = getN s (K.coreGen n) := getN_putN_ne s 3 (hstate k n).symm
  have hk3 : getN (coreOut s k) (K.coreState k) = 3 := getN_putN s _ 3
  rw [hlost]
  dsimp only
  generalize coreOut s k = u at hgen hk3
  have hput : Agrees coreKeys (putN (putN u (K.coreState n) 1) (K.coreGen n) ((getN u (K.coreGen n) + 1) % 65536)) (coreReplaced u k cause (some n)) :=
    (cores_tilthEntry (cores_substitute fun _ _ => rfl)).trans (askDomain_cores _ _)
  generalize coreReplaced u k cause (some n) = v at hput
  have hend := hput.trans (afterReplaced v).1
  obtain ⟨hk₁, -⟩ := getN_of_cores hend hk
  obtain ⟨hn₁, hn₂⟩ := getN_of_cores hend hn
  rw [hk₁, hn₁, hn₂, getN_putN_ne _ _ (hstate k n), getN_putN_ne _ _ hkn, getN_putN_ne _ _ (hstate n n), getN_putN, getN_putN, hgen]
  exact ⟨hk3, rfl, rfl⟩

theorem coreReplaced_none (s : State) (k cause : Nat) : (coreReplaced s k cause none).cores = s.cores := by
  have hch : Changes _ s (retireUnit s clsCore k cause) := retireUnit_ch (List.Subset.refl _) (Changes.refl _ s)
  rw [coreReplaced]
  exact hch.cores (by decide)

theorem coreReplaced_some (s : State) (k cause n : Nat) : (coreReplaced s k cause (some n)).cores = s.cores := by
  rw [coreReplaced]
  generalize (getN s (K.coreGen n) + 1) % 65536 = gen
  generalize hu : putN (putN s (K.coreState n) 1) (K.coreGen n) gen = u
  have hput : u.cores = s.cores := by rw [← hu]; rfl
  have hsub : Changes _ u (substitute u clsCore k n cause gen) := substitute_ch (List.Subset.refl _) (Changes.refl _ u)
  generalize substitute u clsCore k n cause gen = v at hsub
  have hask : Changes [.ehrica, .objs, .tilthLog] v (askDomain (tilthEntry v 9 7 0 k k n) (6 + n / 9)) :=
    askDomain_ch (by decide) (tilthEntry_ch (by decide) (Changes.refl _ v))
  rw [hask.cores (by decide), hsub.cores (by decide), hput]

/-- Losing a core touches no part that holds contexts' passes, ports or the work of another core. -/
theorem coreLost_cores (s : State) (k cause : Nat) (passing : Nat → Bool) : (coreLost s k cause passing).cores = (coreOut s k).cores := by
  obtain ⟨y, hy, hlost⟩ := coreLost_eq s k cause passing
  have htried : y.1.cores = (coreOut s k).cores := by
    rw [hy]
    exact (trySpares_ch (List.Subset.refl _) (Changes.refl _ (coreOut s k))).cores (by decide)
  have hreplaced : (coreReplaced y.1 k cause y.2).cores = y.1.cores := by
    generalize y.1 = u
    cases y.2 with
    | none => exact coreReplaced_none u k cause
    | some n => exact coreReplaced_some u k cause n
  rw [hlost, (afterReplaced _).2, hreplaced, htried]

/-! ## The unit or the row's tile that was lost -/

/-- Whether a unit's test after a core fault is among the ones that passed. -/
def passedBy (spares : List (Fin 36)) (n : Nat) : Bool := spares.any (fun x => x.val == n)

theorem loseUnit_unit {s : State} {k c id n : Nat} {b : Bool} (h : (coreOf s k).work = some (.unit c id n b)) : loseUnit s k =
    freeCore (modPass s c id (fun p => { p with again := p.again ++ n :: (coreOf s k).more, running := p.running - (n :: (coreOf s k).more).length })) k c := by
  rw [loseUnit, h]

theorem loseUnit_row {s : State} {k port r n : Nat} (h : (coreOf s k).work = some (.row port r n)) : loseUnit s k =
    clearCore (modRow s port r (fun t => { t with again := t.again ++ [n], running := t.running - 1 })) k := by
  rw [loseUnit, h]

theorem coreOf_clearCore (s : State) (k : Nat) : (coreOf (clearCore s k) k).work = none := by
  unfold clearCore
  rw [coreOf_modCore]

theorem loseUnit_work (s : State) (k : Nat) : (coreOf (loseUnit s k) k).work = none := by
  unfold loseUnit
  split
  · exact coreOf_clearCore _ _
  · exact coreOf_clearCore _ _
  · assumption

/-- The lost core runs nothing. -/
theorem lost_work (s : State) (k cause : Nat) (passing : Nat → Bool) : (coreOf (coreLost (loseUnit s k) k cause passing) k).work = none := by
  have hcores := coreLost_cores (loseUnit s k) k cause passing
  have hout : (coreOf (coreOut (loseUnit s k) k) k).work = none := by
    unfold coreOut
    rw [coreOf_modCore]
    exact loseUnit_work s k
  rw [coreOf, hcores, ← coreOf]
  exact hout

/-- The spares that a core's place is offered to are the same after the unit was lost. -/
theorem lost_candidates (s : State) (k : Nat) : coreCandidates (coreOut (loseUnit s k) k) k = coreCandidates s k := by
  have hgrog : (coreOut (loseUnit s k) k).grog = s.grog :=
    (loseUnit_ch (k := k) (List.Subset.refl _) (Changes.refl _ s)).grog (by decide)
  simp only [coreCandidates, freeSpares, unitState, hgrog]

theorem loseUnit_gens (s : State) (k : Nat) : Agrees coreKeys s (loseUnit s k) := by
  have hsame (t : State) (h : t.objs = s.objs) : Agrees coreKeys s t := cores_of_eq (fun _ _ => rfl) h
  unfold loseUnit
  split
  · exact cores_of_eq (cores_putN (hsame _ rfl) (by decide) (.inl (by decide))) rfl
  · exact hsame _ rfl
  · exact hsame _ rfl

/-! ## The three ends of a core fault -/

section
variable {s : State} {core : Fin 36} {ok : Bool} {spares : List (Fin 36)}

/-- A fault of a core whose work may run again: a retry that passes only counts, one that fails loses the core. -/
def retried (s : State) (core : Fin 36) (ok : Bool) (spares : List (Fin 36)) : State :=
  if ok then bump s (K.coreRetry core) else coreLost (loseUnit (bump s (K.coreRetry core)) core) core 2 (passedBy spares)

theorem exec_unit {c id n : Nat} {b : Bool} {p : Pass} {l : List Pass} (hwork : (coreOf s core).work = some (.unit c id n b))
    (hpasses : (ctxOf s c).passes = p :: l) (hid : p.id = id) :
    exec (.coreFault core ok spares) s = .next (if p.onceOnly then killPass s c p 6 else retried s core ok spares) := by
  have hfind : (ctxOf s c).passes.find? (fun p => p.id == id) = some p := by
    rw [hpasses, List.find?_cons_of_pos (by simp [hid])]
  show execCoreFault core ok spares s = _
  unfold execCoreFault
  rw [hwork]
  dsimp only
  rw [hfind]
  dsimp only
  unfold retried passedBy
  cases p.onceOnly <;> cases ok <;> simp only [if_true, Bool.false_eq_true, if_false]

theorem exec_row {port r n : Nat} (hwork : (coreOf s core).work = some (.row port r n)) :
    exec (.coreFault core ok spares) s = .next (retried s core ok spares) := by
  show execCoreFault core ok spares s = _
  unfold execCoreFault
  rw [hwork]
  unfold retried passedBy
  cases ok <;> simp only [if_true, Bool.false_eq_true, if_false]

theorem retried_passes : getN (retried s core true spares) (K.coreRetry core) = satInc 32 (getN s (K.coreRetry core)) ∧
    onlyObjs [K.coreRetry core] s (retried s core true spares) ∧ Changes [.objs] s (retried s core true spares) := by
  rw [retried, if_pos rfl]
  exact ⟨getN_bump s _, onlyObjs_bump (by simp) (onlyObjs_refl _ s), bump_ch (List.Subset.refl _) (Changes.refl _ s)⟩

/-- The work and the cores' records are the same once the retry is counted. -/
theorem retry_gens (s : State) (core : Nat) : Agrees coreKeys s (bump s (K.coreRetry core)) :=
  cores_putN (fun _ _ => rfl) (by decide) (.inl (by decide))

theorem retried_lost (s : State) (core : Fin 36) (spares : List (Fin 36)) : (coreOf (retried s core false spares) core).work = none := by
  rw [retried, if_neg (by decide)]
  exact lost_work _ _ _ _

theorem retried_alone (hl : ∀ x ∈ spares, x.val ∉ coreCandidates s core) : getN (retried s core false spares) (K.coreState core) = 3 := by
  rw [retried, if_neg (by decide)]
  refine coreLost_alone _ core.isLt fun n hn => ?_
  rw [lost_candidates] at hn
  simp only [passedBy, List.any_eq_false, beq_iff_eq]
  exact fun x hx heq => hl x hx (heq ▸ hn)

theorem retried_substituted {x : Nat} {rest : List Nat} (hl : coreCandidates s core = x :: rest) (hx : x < 36) (hne : x ≠ core.val)
    (hpass : ∃ y ∈ spares, y.val = x) : getN (retried s core false spares) (K.coreState core) = 3 ∧
    getN (retried s core false spares) (K.coreState x) = 1 ∧
    getN (retried s core false spares) (K.coreGen x) = (getN s (K.coreGen x) + 1) % 65536 := by
  have hpassed : passedBy spares x = true := by
    simpa [passedBy] using hpass
  have hcand : coreCandidates (coreOut (loseUnit (bump s (K.coreRetry core)) core) core) core = x :: rest := (lost_candidates _ _).trans hl
  have hgens := (retry_gens s core).trans (loseUnit_gens (bump s (K.coreRetry core)) core)
  obtain ⟨hstate, hspare, hgen⟩ := coreLost_substituted _ (cause := 2) core.isLt hx hne hcand hpassed
  rw [(getN_of_cores hgens hx).2] at hgen
  rw [retried, if_neg (by decide)]
  exact ⟨hstate, hspare, hgen⟩

end

/-- Losing the core leaves the passes and the rows to the unit's loss. -/
theorem lost_changes (s : State) (k cause : Nat) (passing : Nat → Bool) :
    (coreLost s k cause passing).ctxs = s.ctxs ∧ (coreLost s k cause passing).ports = s.ports := by
  have hch := coreLost_ch (k := k) (cause := cause) (passing := passing) (List.Subset.refl _) (Changes.refl _ s)
  exact ⟨hch.ctxs (by decide), hch.ports (by decide)⟩

theorem retried_unit {s : State} {core : Fin 36} {spares : List (Fin 36)} {c id n : Nat} {b : Bool} {p : Pass} {l : List Pass}
    (hwork : (coreOf s core).work = some (.unit c id n b)) (hpasses : (ctxOf s c).passes = p :: l) (hid : p.id = id)
    (hl : ∀ q ∈ l, q.id ≠ p.id) : (ctxOf (retried s core false spares) c).passes =
      { p with again := p.again ++ n :: (coreOf s core).more, running := p.running - ((coreOf s core).more.length + 1) } :: l := by
  subst hid
  have hctx : ctxOf (retried s core false spares) c = ctxOf (loseUnit (bump s (K.coreRetry core)) core) c := by
    rw [ctxOf, retried, if_neg (by decide), (lost_changes _ _ _ _).1, ← ctxOf]
  have hrest (g : Pass → Pass) : l.map (fun q => if q.id = p.id then g q else q) = l := by
    refine (List.map_congr_left fun q hq => if_neg (hl q hq)).trans (List.map_id l)
  rw [hctx, loseUnit_unit (s := bump s (K.coreRetry core)) hwork]
  show (ctxOf (modPass (bump s _) c p.id _) c).passes = _
  rw [modPass, ctxOf_modCtx]
  show ((ctxOf s c).passes.map _) = _
  rw [hpasses, List.map_cons, if_pos rfl, hrest]
  rfl

theorem portOf_clearCore (s : State) (k p : Nat) : portOf (clearCore s k) p = portOf s p := rfl

theorem retried_row {s : State} {core : Fin 36} {spares : List (Fin 36)} {port : Fin 8} {r n : Nat}
    (hwork : (coreOf s core).work = some (.row port r n)) :
    (rowOf (portOf (retried s core false spares) port) r).again = (rowOf (portOf s port) r).again ++ [n] := by
  have hport : portOf (retried s core false spares) port = portOf (loseUnit (bump s (K.coreRetry core)) core) port := by
    rw [portOf, retried, if_neg (by decide), (lost_changes _ _ _ _).2, ← portOf]
  rw [hport, loseUnit_row (s := bump s (K.coreRetry core)) hwork]
  rw [portOf_clearCore, FrameEvents.rowOf_modRow]
  rfl

/-! ## A pass that may not run twice -/

/-- A core that ran the pass runs nothing. -/
def clearedOf (c id : Nat) (s : State) (k : Nat) : State :=
  match (coreOf s k).work with
  | some (.unit c' id' _ _) => if c' = c ∧ id' = id then clearCore s k else s
  | _ => s

theorem clearedOf_other {c id k j : Nat} (s : State) (h : j ≠ k) : coreOf (clearedOf c id s j) k = coreOf s k := by
  unfold clearedOf
  split
  · split
    · exact coreOf_modCore_ne s _ (Ne.symm h)
    · rfl
  · rfl

theorem clearedOf_same {c id k : Nat} {s : State} (h : (coreOf s k).work = none ∨ ∃ n b, (coreOf s k).work = some (.unit c id n b)) :
    (coreOf (clearedOf c id s k) k).work = none := by
  obtain h | ⟨n, b, h⟩ := h
  · rw [clearedOf, h]
    exact h
  · rw [clearedOf, h]
    show (coreOf (if c = c ∧ id = id then _ else _) k).work = none
    rw [if_pos ⟨rfl, rfl⟩]
    exact coreOf_clearCore s k

theorem foldN_clearedOf {c id k : Nat} (l : List Nat) (hk : k ∈ l) {s : State}
    (h : (coreOf s k).work = none ∨ ∃ n b, (coreOf s k).work = some (.unit c id n b)) :
    (coreOf (foldN l (clearedOf c id) s) k).work = none := by
  induction l generalizing s with
  | nil => cases hk
  | cons j l ih =>
    show (coreOf (foldN l (clearedOf c id) (clearedOf c id s j)) k).work = none
    by_cases hmem : k ∈ l
    · refine ih hmem ?_
      by_cases hj : j = k
      · exact .inl (hj ▸ clearedOf_same (hj ▸ h))
      · rw [clearedOf_other s hj]
        exact h
    · obtain rfl := (List.mem_cons.1 hk).resolve_right hmem
      have hsame := clearedOf_same h
      generalize clearedOf c id s k = t at hsame
      clear ih hk h
      induction l generalizing t with
      | nil => exact hsame
      | cons j l ihl =>
        simp only [List.mem_cons, not_or] at hmem
        refine ihl hmem.2 (clearedOf c id t j) ?_
        rw [clearedOf_other t (Ne.symm hmem.1)]
        exact hsame

theorem removePass_work {s : State} {core : Fin 36} {c id n : Nat} {b : Bool} (hwork : (coreOf s core).work = some (.unit c id n b)) :
    (coreOf (removePass s c id) core).work = none :=
  foldN_clearedOf (s := SubmittingWork.passTaken s c id) (List.range 36) (List.mem_range.2 core.isLt) (.inr ⟨n, b, hwork⟩)

/-- Taking a pass off its context moves nothing of a completion queue. -/
theorem sameQueue_removePass (s : State) (c id : Nat) (k : Ticket) : SameQueue s (removePass s c id) k := by
  have hch : Changes [.objs, .ctxs, .cores] s (removePass s c id) := removePass_ch (List.Subset.refl _) (Changes.refl _ s)
  have hring : ringOf (removePass s c id) k.ring = ringOf s k.ring := by rw [ringOf, hch.rings (by decide), ← ringOf]
  have hfunc : funcOf (removePass s c id) k.func = funcOf s k.func := by rw [funcOf, hch.funcs (by decide), ← funcOf]
  have hbase : K.ringCqBase k.ring ≠ K.ctxSave c := by
    simp only [K.ringCqBase, K.ctxSave, objKey]
    omega
  have horder : K.ringCqOrder k.ring ≠ K.ctxSave c := by
    simp only [K.ringCqOrder, K.ctxSave, objKey]
    omega
  exact ⟨by rw [hring], by rw [hring], by rw [hring], by rw [hring], hch.now (by decide), by rw [hfunc],
    SubmittingWork.getN_removePass s hbase, SubmittingWork.getN_removePass s horder⟩

/-- What keeps the rings and host memory keeps an answer. -/
theorem ticketDone_after {s u t : State} {k : Ticket} {st x : Nat} {P : List Part} (h : ticketDone s u k st x) (hch : Changes P u t)
    (hP : Part.rings ∉ P ∧ Part.host ∉ P) : ticketDone s t k st x := by
  intro h₁ h₂ h₃ h₄ h₅
  have hring : ringOf t k.ring = ringOf u k.ring := by rw [ringOf, hch.rings hP.1, ← ringOf]
  have hread (f a n : Nat) : hostRead t f a n = hostRead u f a n := by rw [hostRead, hch.host hP.2, ← hostRead]
  rw [hring, hread]
  exact h h₁ h₂ h₃ h₄ h₅

theorem killed_spec {s : State} {core : Fin 36} {c id n : Nat} {b : Bool} {p : Pass} (hwork : (coreOf s core).work = some (.unit c id n b))
    (hid : p.id = id) : ∃ u, killPass s c p 6 = ctxChanged u c ∧ (coreOf u core).work = none ∧ (∀ q ∈ (ctxOf u c).passes, q.id ≠ p.id) ∧
      getN u (K.passFault c) = satInc 32 (getN s (K.passFault c)) ∧ ticketDone s u p.ticket 3 6 := by
  subst hid
  have hsave : K.passFault c ≠ K.ctxSave c := by
    simp only [K.passFault, K.ctxSave, objKey]
    omega
  have hwork' := removePass_work hwork
  have hpasses := SubmittingWork.removePass_passes s c p.id
  have hkept := SubmittingWork.getN_removePass (id := p.id) s hsave
  have hdone := complete_ticketDone (st := 3) (x := 6) (d := 0xFFFFFFFF) (sameQueue_removePass s c p.id p.ticket)
  obtain ⟨v, rfl, hcount, hch, hctxs, -⟩ := SubmittingWork.passFault_spec (removePass s c p.id) c p.ticket 6 0xFFFFFFFF
  have hanswer : Changes answerParts (removePass s c p.id) (complete (removePass s c p.id) p.ticket 3 6 0xFFFFFFFF) :=
    complete_ch (List.Subset.refl _) (Changes.refl _ _)
  refine ⟨_, rfl, ?_, ?_, hcount.trans (congrArg (satInc 32) hkept), ticketDone_after hdone hch (by decide)⟩
  · rw [coreOf, hch.cores (by decide), hanswer.cores (by decide), ← coreOf]
    exact hwork'
  · rw [ctxOf, hctxs, ← ctxOf]
    exact hpasses

/-! ## The obligation -/

/-- Settles O38: a unit that may run twice is retried, or runs again elsewhere while its core is retired for the first spare that passes;
one that may not ends its pass with cause CORE. -/
theorem coreFaults : Obligations.CoreFaults := by
  unfold Obligations.CoreFaults
  refine ⟨fun s core c id n b p l ok spares hwork hpasses hid hl => ⟨fun honce => ?_, fun honce => ?_, fun honce => ?_⟩,
    fun s core port r n spares hwork => ⟨?_, ?_⟩⟩
  · obtain ⟨hcount, hobjs, hch⟩ := retried_passes (s := s) (core := core) (spares := spares)
    exact ⟨retried s core true spares, (exec_unit hwork hpasses hid).trans (by rw [honce, if_neg (by decide)]), hcount, hobjs, hch⟩
  · exact ⟨retried s core false spares, (exec_unit hwork hpasses hid).trans (by rw [honce, if_neg (by decide)]), retried_lost s core spares,
      retried_unit hwork hpasses hid hl,
      retried_alone, fun x rest => retried_substituted⟩
  · obtain ⟨u, hkill, hu⟩ := killed_spec hwork hid
    exact ⟨u, (exec_unit hwork hpasses hid).trans (by rw [honce, if_pos rfl, hkill]), hu⟩
  · obtain ⟨hcount, -, hch⟩ := retried_passes (s := s) (core := core) (spares := spares)
    exact ⟨retried s core true spares, exec_row hwork, hcount, hch⟩
  · exact ⟨retried s core false spares, exec_row hwork, retried_lost s core spares, retried_row hwork⟩

end Sys2Proof.Proofs.CoreFaults

/-!
PROOFS. O39: the target of a context that alone is ready, and a preemption within its bound.
-/

namespace Sys2Proof.Proofs.Arbitration

open Sys2Proof.Machine

/-! ## The targets of a single ready context -/

theorem classTargets_none {s : State} {cls avail : Nat} (h : readyOf s cls = []) : classTargets s cls avail = ([], avail) := by
  unfold classTargets
  rw [h]
  rfl

/-- One sharer with a positive weight gets the whole. -/
theorem shareOut_single (c : Nat) {w : Rat} (rest : Nat) (hw : 0 < w) : shareOut [(c, w)] rest = [(c, rest)] := by
  have hq : (rest : Rat) * w / w = rest := mul_div_cancel_right₀ _ hw.ne'
  have hfloor : ((rest : Rat).floor).toNat = rest := by rw [← Int.cast_natCast, Rat.floor_intCast, Int.toNat_natCast]
  unfold shareOut
  simp only [List.map_cons, List.map_nil, List.sum_cons, List.sum_nil, add_zero, if_neg hw.ne', hq, hfloor, Nat.sub_self, List.take_zero]
  rfl

/-- Of one target the cores above the cap go to nobody. -/
theorem capTargets_single (cap : Nat → Nat) (w : Nat → Rat) (n c a : Nat) : capTargets cap w n [(c, a)] = [(c, min a (cap c))] := by
  cases n with
  | zero => rfl
  | succ n =>
    rw [capTargets]
    refine if_pos ?_
    by_cases h : a ≤ cap c
    · exact .inl (by rw [List.map_cons, List.map_nil, List.sum_cons, List.sum_nil, Nat.sub_eq_zero_of_le h, add_zero])
    · refine .inr ?_
      have hmin : ¬ min a (cap c) < cap c := by omega
      simp [hmin]

theorem ctxWeight_single {s : State} {c : Nat} (hshare : 0 < shareOf s (ctxOwner s c)) (hweight : 0 < getN s (K.ctxWeight c)) :
    0 < ctxWeight s [c] c := by
  unfold ctxWeight
  simp only [List.filter_cons, beq_self_eq_true, if_true, List.filter_nil, List.map_cons, List.map_nil, List.sum_cons, List.sum_nil, add_zero]
  have hmul := Nat.mul_pos hshare hweight
  exact div_pos (Nat.cast_pos.2 hmul) (Nat.cast_pos.2 hweight)

theorem classTargets_single {s : State} {cls avail c : Nat} (h : readyOf s cls = [c]) (hshare : 0 < shareOf s (ctxOwner s c))
    (hweight : 0 < getN s (K.ctxWeight c)) : (classTargets s cls avail).1 = [(c, min avail (getN s (K.ctxCoresMax c)))] := by
  have hsum : min (getN s (K.ctxCoresMin c)) avail + (avail - min (getN s (K.ctxCoresMin c)) avail) = avail := by omega
  unfold classTargets
  rw [h]
  simp only [List.foldl_cons, List.foldl_nil, List.map_cons, List.map_nil, List.nil_append, List.isEmpty_cons, Bool.false_eq_true, if_false,
    shareOut_single c _ (ctxWeight_single hshare hweight), tget]
  have hfound : (tfind [(c, avail - min (getN s (K.ctxCoresMin c)) avail)] c).getD 0 = avail - min (getN s (K.ctxCoresMin c)) avail := by
    simp [tfind]
  rw [hfound, hsum, capTargets_single]

theorem readyOf_single {s : State} {c : Nat} (h : numbers 64 (ctxReady s) = [c]) (cls : Nat) :
    readyOf s cls = if getN s (K.ctxClass c) = cls then [c] else [] := by
  have hfilter : readyOf s cls = (numbers 64 (ctxReady s)).filter (fun c => getN s (K.ctxClass c) == cls) := by
    simp only [readyOf, numbers, List.filter_filter]
    exact List.filter_congr fun c _ => Bool.and_comm _ _
  rw [hfilter, h, List.filter_cons]
  simp

/-- The targets of the three classes are written one after the other, each class sharing what the ones before it left. -/
theorem arbitrateWith_eq (s : State) (c0 : Nat) : arbitrateWith s c0 =
    ((classTargets s 1 ((activeCores s).length - c0)).1 ++
      (classTargets s 2 (classTargets s 1 ((activeCores s).length - c0)).2).1 ++
      (classTargets s 3 (classTargets s 2 (classTargets s 1 ((activeCores s).length - c0)).2).2).1).foldl
      (fun s e => setTarget s e.1 e.2) s := by
  unfold arbitrateWith
  dsimp only

/-- The only ready context's new target is the only one written. -/
theorem arbitrate_single {s : State} {c : Nat} (h : numbers 64 (ctxReady s) = [c]) (hlow : 1 ≤ getN s (K.ctxClass c))
    (hhigh : getN s (K.ctxClass c) ≤ 3) (hshare : 0 < shareOf s (ctxOwner s c)) (hweight : 0 < getN s (K.ctxWeight c)) :
    arbitrate s = setTarget s c (min ((activeCores s).length - c0Held s) (getN s (K.ctxCoresMax c))) := by
  have hready := readyOf_single h
  have hother {cls avail : Nat} (hne : getN s (K.ctxClass c) ≠ cls) : classTargets s cls avail = ([], avail) :=
    classTargets_none ((hready cls).trans (if_neg hne))
  have hown {cls avail : Nat} (heq : getN s (K.ctxClass c) = cls) : (classTargets s cls avail).1 = [(c, min avail (getN s (K.ctxCoresMax c)))] :=
    classTargets_single ((hready cls).trans (if_pos heq)) hshare hweight
  rw [arbitrate, arbitrateWith_eq]
  have hcase : getN s (K.ctxClass c) = 1 ∨ getN s (K.ctxClass c) = 2 ∨ getN s (K.ctxClass c) = 3 := by omega
  obtain hc | hc | hc := hcase
  · rw [hown hc, hother (cls := 2) (by omega), hother (cls := 3) (by omega)]
    rfl
  · rw [hother (cls := 1) (by omega), hown hc, hother (cls := 3) (by omega)]
    rfl
  · rw [hother (cls := 1) (by omega), hother (cls := 2) (by omega), hown hc]
    rfl

/-- The objects that writing a target can touch. -/
def targetKeys (c : Nat) : List Nat := [K.ctxTarget c, K.ctxHintKept c, K.tilthHintMiss, K.tilthSeq]

theorem setTarget_spec (s : State) (c n : Nat) : getN (setTarget s c n) (K.ctxTarget c) = n ∧
    onlyObjs (targetKeys c) s (setTarget s c n) := by
  have hkept : K.ctxTarget c ≠ K.ctxHintKept c := by
    simp only [K.ctxTarget, K.ctxHintKept, objKey]
    omega
  have hseq : K.ctxTarget c ≠ K.tilthSeq := by
    simp only [K.ctxTarget, K.tilthSeq, objKey]
    omega
  unfold setTarget
  extract_lets old kept missed s₁ s₂
  have h₁ : onlyObjs (targetKeys c) s s₁ := by
    unfold s₁
    split
    · exact onlyObjs_bump (by simp [targetKeys]) (onlyObjs_refl _ s)
    · exact onlyObjs_refl _ s
  clear_value s₁
  have h₂ : onlyObjs (targetKeys c) s s₂ :=
    onlyObjs_putV _ (by simp [targetKeys]) (onlyObjs_putN n (by simp [targetKeys]) h₁)
  have hn : getN s₂ (K.ctxTarget c) = n := by
    unfold s₂
    rw [putB, getN, getV_putV_ne _ _ hkept, ← getN, getN_putN]
  clear_value s₂
  split
  · exact ⟨hn, h₂⟩
  · refine ⟨(SubmittingWork.getN_tilthEntry_ne s₂ hseq _ _ _ _ _ _).trans hn, onlyObjs_trans h₂ ?_⟩
    unfold tilthEntry
    extract_lets seq e
    generalize lastN 256 (s₂.tilthLog ++ [e]) = log
    exact onlyObjs_putN _ (by simp [targetKeys]) (onlyObjs_of_eq (t := { s₂ with tilthLog := log }) rfl)

/-! ## A preemption -/

/-- The spilled states of a core's units, and their pass with them. -/
def spillsOf (s : State) (core n position : Nat) (p : Pass) : List Spill :=
  (n :: (coreOf s core).more).map (fun n => spillOf p n (coreOf s core).tile position)

def spilledPass (s : State) (es : List Spill) (spillNs : Nat) (p : Pass) : Pass :=
  { p with spilled := p.spilled ++ es, running := p.running - es.length
           awaySince := if p.running ≤ es.length then some (s.now - spillNs) else p.awaySince }

/-- A core that gave its work away. -/
def emptied (s : State) (x : Core) : Core := { x with work := none, more := [], tile := [], lent := false, idleSince := s.now }

theorem spillUnit_unit {s : State} {core c id n position spillNs : Nat} {b : Bool} {p : Pass} {l : List Pass}
    (hwork : (coreOf s core).work = some (.unit c id n b)) (hpasses : (ctxOf s c).passes = p :: l) (hid : p.id = id) :
    ∃ saved busy, saved ≤ saveAreaKib ∧ spillUnit s core position spillNs =
      modCore (putN (putN (modPass s c id (spilledPass s (spillsOf s core n position p) spillNs)) (K.ctxSave c) saved) (K.ctxBusy c) busy)
        core (emptied s) := by
  have hfind : (ctxOf s c).passes.find? (fun p => p.id == id) = some p := by
    rw [hpasses, List.find?_cons_of_pos (by simp [hid])]
  unfold spillUnit
  rw [hwork]
  dsimp only
  rw [hfind]
  exact ⟨_, _, Nat.min_le_left _ _, rfl⟩

/-- The preemption's counts of its context: one more, and the longest latency. -/
def preemptCounted (s : State) (c latency : Nat) : State :=
  putN (bump s (K.ctxPreempt c)) (K.ctxPreemptMax c) (max (getN (bump s (K.ctxPreempt c)) (K.ctxPreemptMax c)) latency)

/-- The object that holds the longest latency of compute work, or of tiles. -/
def latencyKey (b : Bool) : Nat := if b then K.schedPreCmp else K.schedPreGfx

/-- The preemption's counts of all contexts. -/
def schedCounted (s : State) (b : Bool) (latency : Nat) : State :=
  putN (putN s (latencyKey b) (max (getN s (latencyKey b)) latency)) K.schedPreCount
    ((getN s K.schedPreCount + 1) % 2 ^ 64)

theorem exec_preemptDone {s : State} {core : Fin 36} {new c id n latency position spillNs : Nat} {b : Bool}
    (hpre : (coreOf s core).preemptFor = some new) (hwork : (coreOf s core).work = some (.unit c id n b)) :
    exec (.preemptDone core latency position spillNs) s = .next (if (if b then 20000 else 40000) < latency then s else
      chooseWork (modCore (schedCounted (spillUnit (preemptCounted s c latency) core position (min spillNs latency)) b latency) core
        (fun x => { x with preemptFor := none })) core) := by
  show execPreemptDone core latency position spillNs s = _
  unfold execPreemptDone
  rw [hpre, hwork]
  dsimp only
  unfold schedCounted preemptCounted latencyKey
  by_cases hlate : (if b then 20000 else 40000) < latency
  · rw [if_pos hlate, if_pos hlate]
  · rw [if_neg hlate, if_neg hlate]

/-- The core is no longer to be taken for another context. -/
def released (x : Core) : Core := { x with preemptFor := none }

/-- The state in which the preempted core chooses its new work. -/
def preempted (s : State) (core c id n position spillNs latency saved busy : Nat) (b : Bool) (p : Pass) : State :=
  modCore (schedCounted (modCore (putN (putN (modPass (preemptCounted s c latency) c id
    (spilledPass s (spillsOf s core n position p) (min spillNs latency))) (K.ctxSave c) saved) (K.ctxBusy c) busy)
    core (emptied s)) b latency) core released

section
variable {s : State} {core c id n position spillNs latency saved busy : Nat} {b : Bool} {p : Pass}

theorem preempted_core : (coreOf (preempted s core c id n position spillNs latency saved busy b p) core).work = none ∧
    (coreOf (preempted s core c id n position spillNs latency saved busy b p) core).preemptFor = none := by
  have hwork (v : State) : (coreOf (schedCounted (modCore v core (emptied s)) b latency) core).work = none :=
    congrArg Core.work (coreOf_modCore v core (emptied s))
  unfold preempted
  rw [coreOf_modCore]
  exact ⟨hwork _, rfl⟩

theorem preempted_otherCore {k : Nat} (hk : k ≠ core) :
    coreOf (preempted s core c id n position spillNs latency saved busy b p) k = coreOf s k := by
  have hkept (v : State) : coreOf (schedCounted (modCore v core (emptied s)) b latency) k = coreOf v k := coreOf_modCore_ne v _ hk
  unfold preempted
  rw [coreOf_modCore_ne _ _ hk, hkept]
  rfl

theorem preempted_passes {l : List Pass} (hpasses : (ctxOf s c).passes = p :: l) (hid : p.id = id) (hl : ∀ q ∈ l, q.id ≠ p.id) :
    (ctxOf (preempted s core c id n position spillNs latency saved busy b p) c).passes =
      spilledPass s (spillsOf s core n position p) (min spillNs latency) p :: l := by
  subst hid
  have hctx (v : State) : ctxOf (modCore (schedCounted (modCore (putN (putN v (K.ctxSave c) saved) (K.ctxBusy c) busy) core (emptied s)) b
      latency) core released) c = ctxOf v c := rfl
  have hrest (f : Pass → Pass) : l.map (fun q => if q.id = p.id then f q else q) = l :=
    (List.map_congr_left fun q hq => if_neg (hl q hq)).trans (List.map_id l)
  unfold preempted
  rw [hctx, modPass, ctxOf_modCtx]
  show ((ctxOf s c).passes.map _) = _
  rw [hpasses, List.map_cons, if_pos rfl, hrest]

theorem getN_schedCounted (s : State) {b : Bool} {latency k : Nat} (hk : k ≠ latencyKey b) (hcount : k ≠ K.schedPreCount) :
    getN (schedCounted s b latency) k = getN s k := by
  unfold schedCounted
  rw [getN_putN_ne _ _ hcount, getN_putN_ne _ _ hk]

/-- The counts of all contexts after a preemption. -/
theorem schedCounted_spec (s : State) (b : Bool) (latency : Nat) :
    getN (schedCounted s b latency) (latencyKey b) = max (getN s (latencyKey b)) latency ∧
    getN (schedCounted s b latency) K.schedPreCount = (getN s K.schedPreCount + 1) % 2 ^ 64 := by
  unfold schedCounted
  have hne : latencyKey b ≠ K.schedPreCount := by cases b <;> decide
  exact ⟨(getN_putN_ne _ _ hne).trans (getN_putN _ _ _), getN_putN _ _ _⟩

/-- The context's save area, its counts and the scheduler's after a preemption. -/
theorem preempted_counts : getN (preempted s core c id n position spillNs latency saved busy b p) (K.ctxSave c) = saved ∧
    getN (preempted s core c id n position spillNs latency saved busy b p) (K.ctxPreempt c) = satInc 32 (getN s (K.ctxPreempt c)) ∧
    getN (preempted s core c id n position spillNs latency saved busy b p) (K.ctxPreemptMax c) = max (getN s (K.ctxPreemptMax c)) latency ∧
    getN (preempted s core c id n position spillNs latency saved busy b p) K.schedPreCount = (getN s K.schedPreCount + 1) % 2 ^ 64 ∧
    getN (preempted s core c id n position spillNs latency saved busy b p) (latencyKey b) = max (getN s (latencyKey b)) latency := by
  have hsched : (K.ctxSave c ≠ latencyKey b ∧ K.ctxSave c ≠ K.schedPreCount) ∧
      (K.ctxPreempt c ≠ latencyKey b ∧ K.ctxPreempt c ≠ K.schedPreCount) ∧ (K.ctxPreemptMax c ≠ latencyKey b ∧ K.ctxPreemptMax c ≠ K.schedPreCount) ∧ K.ctxBusy c ≠ latencyKey b ∧ K.ctxBusy c ≠ K.schedPreCount := by
    cases b <;>
      · simp only [latencyKey, K.ctxSave, K.ctxPreempt, K.ctxPreemptMax, K.ctxBusy, K.schedPreCmp, K.schedPreGfx, K.schedPreCount, objKey,
          Bool.false_eq_true, if_true, if_false]
        omega
  have hown : K.ctxSave c ≠ K.ctxBusy c ∧ K.ctxPreempt c ≠ K.ctxBusy c ∧ K.ctxPreemptMax c ≠ K.ctxBusy c ∧ K.ctxPreempt c ≠ K.ctxSave c ∧
      K.ctxPreemptMax c ≠ K.ctxSave c ∧ K.ctxPreempt c ≠ K.ctxPreemptMax c := by
    simp only [K.ctxSave, K.ctxPreempt, K.ctxPreemptMax, K.ctxBusy, objKey]
    omega
  obtain ⟨⟨hs₁, hs₂⟩, ⟨hp₁, hp₂⟩, ⟨hm₁, hm₂⟩, hb₁, hb₂⟩ := hsched
  obtain ⟨hsb, hpb, hmb, hps, hms, hpm⟩ := hown
  have hspill (v : State) (k : Nat) : getN (modCore (schedCounted (modCore v core (emptied s)) b latency) core released) k =
      getN (schedCounted v b latency) k := rfl
  have hpass (v : State) (f : Pass → Pass) (k : Nat) : getN (modPass v c id f) k = getN v k := rfl
  obtain ⟨hlat, hcount⟩ := schedCounted_spec (putN (putN (modPass (preemptCounted s c latency) c id
    (spilledPass s (spillsOf s core n position p) (min spillNs latency))) (K.ctxSave c) saved) (K.ctxBusy c) busy) b latency
  unfold preempted
  refine ⟨?_, ?_, ?_, ?_, ?_⟩
  · rw [hspill, getN_schedCounted _ hs₁ hs₂, getN_putN_ne _ _ hsb, getN_putN]
  · rw [hspill, getN_schedCounted _ hp₁ hp₂, getN_putN_ne _ _ hpb, getN_putN_ne _ _ hps, hpass, preemptCounted, getN_putN_ne _ _ hpm, getN_bump]
  · rw [hspill, getN_schedCounted _ hm₁ hm₂, getN_putN_ne _ _ hmb, getN_putN_ne _ _ hms, hpass, preemptCounted, getN_putN,
      getN_bump_ne _ hpm.symm]
  · rw [hspill, hcount, getN_putN_ne _ _ hb₂.symm, getN_putN_ne _ _ hs₂.symm, hpass, preemptCounted, getN_putN_ne _ _ hm₂.symm,
      getN_bump_ne _ hp₂.symm]
  · rw [hspill, hlat, getN_putN_ne _ _ hb₁.symm, getN_putN_ne _ _ hs₁.symm, hpass, preemptCounted, getN_putN_ne _ _ hm₁.symm,
      getN_bump_ne _ hp₁.symm]

theorem preempted_changes : Changes [.objs, .ctxs, .cores] s (preempted s core c id n position spillNs latency saved busy b p) := by
  unfold preempted schedCounted preemptCounted
  exact modCore_ch (by decide) (putN_ch (by decide) (putN_ch (by decide) (modCore_ch (by decide) (putN_ch (by decide) (putN_ch (by decide)
    (modPass_ch (by decide) (putN_ch (by decide) (bump_ch (by decide) (Changes.refl _ s)))))))))

end

/-- A preemption within its bound leads to the state named above. -/
theorem preemptDone_within {s : State} {core : Fin 36} {new c id n latency position spillNs : Nat} {b : Bool} {p : Pass} {l : List Pass}
    (hpre : (coreOf s core).preemptFor = some new) (hwork : (coreOf s core).work = some (.unit c id n b))
    (hpasses : (ctxOf s c).passes = p :: l) (hid : p.id = id) (hlate : latency ≤ if b then 20000 else 40000) :
    ∃ saved busy, saved ≤ saveAreaKib ∧ exec (.preemptDone core latency position spillNs) s =
      .next (chooseWork (preempted s core c id n position spillNs latency saved busy b p) core) := by
  obtain ⟨saved, busy, hsaved, hspill⟩ := spillUnit_unit (s := preemptCounted s c latency) (position := position)
    (spillNs := min spillNs latency) hwork hpasses hid
  refine ⟨saved, busy, hsaved, (exec_preemptDone hpre hwork).trans ?_⟩
  rw [if_neg (Nat.not_lt.2 hlate), hspill]
  rfl

/-! ## A compositor row first -/

theorem chooseWork_row {s : State} {k p r : Nat} (hheld : c0Held s < getN s K.schedC0Cores) (hrow : bestRow s = some (p, r)) :
    chooseWork s k = takeRowTile s k p r := by
  unfold chooseWork
  rw [if_pos hheld, hrow]

theorem takeRowTile_work (s : State) (k p r : Nat) : ∃ n, (coreOf (takeRowTile s k p r) k).work = some (.row p r n) := by
  unfold takeRowTile
  extract_lets q t s₁
  clear_value s₁
  split
  next n u _ => exact ⟨n, congrArg Core.work (coreOf_modCore (leaveIdle u k) k _)⟩

/-! ## The obligation -/

/-- Settles O39: the whole rest goes to the one ready context; a preemption within the bound spills what the core holds, and a row comes
first where the compositor may hold another core. -/
theorem arbitrationAndPreemption : Obligations.ArbitrationAndPreemption := by
  unfold Obligations.ArbitrationAndPreemption
  refine ⟨?_, ?_, ?_, ?_⟩
  · intro s c _ _ hready hlow hhigh hshare hweight
    obtain ⟨htarget, hobjs⟩ := setTarget_spec s c (min ((activeCores s).length - c0Held s) (getN s (K.ctxCoresMax c)))
    exact ⟨_, congrArg Host.Outcome.next (arbitrate_single hready hlow hhigh hshare hweight), htarget, hobjs,
      setTarget_ch (List.Subset.refl _) (Changes.refl _ s)⟩
  · intro s core new c id n latency position spillNs b p l hpre hwork hpasses hid hl _
    refine ⟨fun hlate => ?_, fun hlate => (exec_preemptDone hpre hwork).trans (by rw [if_pos hlate])⟩
    obtain ⟨saved, busy, hsaved, hexec⟩ := preemptDone_within hpre hwork hpasses hid hlate
    obtain ⟨hsave, hpreempt, hmax, hcount, hlatency⟩ := preempted_counts (s := s) (core := core) (c := c) (id := id) (n := n)
      (position := position) (spillNs := spillNs) (latency := latency) (saved := saved) (busy := busy) (b := b) (p := p)
    refine ⟨_, hexec, preempted_core.1, preempted_core.2, ⟨_, preempted_passes hpasses hid hl, rfl, ?_⟩, hsave.trans_le hsaved, hpreempt,
      hmax, hcount, hlatency, fun k hk => preempted_otherCore hk, preempted_changes⟩
    simp [spilledPass, spillsOf]
  · intro s core latency position spillNs hpre
    show execPreemptDone core latency position spillNs s = _
    rw [execPreemptDone, hpre]
  · intro s core p r hheld hrow
    rw [chooseWork_row hheld hrow]
    exact ⟨takeRowTile_work s core p r, (takeRowTile_ch (List.Subset.refl _) (Changes.refl _ s)).ctxs (by decide)⟩

end Sys2Proof.Proofs.Arbitration

/-!
PROOFS. The bytes of surfaces on memory without errors: what lists of cells store and deliver.
-/

namespace Sys2Proof.Proofs.SurfaceCells

open Sys2Proof.Machine
open Sys2Proof.Proofs.WordStore

/-! ## The bytes of a word -/

theorem ofLe_div {b : List Byte} {k : Nat} (hk : k < b.length) : BitVec.ofNat 8 (ofLe b / 256 ^ k) = b.getD k 0 := by
  induction b generalizing k with
  | nil => cases hk
  | cons x b ih =>
    rw [ofLe]
    cases k with
    | zero =>
      apply BitVec.eq_of_toNat_eq
      simp
      omega
    | succ k =>
      have hdiv : (x.toNat + 256 * ofLe b) / 256 ^ (k + 1) = ofLe b / 256 ^ k := by
        rw [Nat.pow_succ', ← Nat.div_div_eq_div_mul, Nat.add_mul_div_left _ _ (by decide), Nat.div_eq_of_lt x.isLt, Nat.zero_add]
      rw [hdiv, List.getD_cons_succ]
      exact ih (by simpa using hk)

/-- A byte of the data of a stored word. -/
theorem storedByte (s : State) (r word : Nat) {k : Nat} (hk : k < 16) :
    BitVec.ofNat 8 (storedWord s r word % 2 ^ 128 / 256 ^ k) = memGet s.dram (dramKey r word 0 + k) := by
  have hlen := length_wordBytes s r word
  rw [← ofLe_wordBytes, ofLe_div (by omega), List.getD_eq_getElem _ _ (by omega)]
  exact memGetAll_getElem _ _ _ _

/-- The byte that a list of cells names first for an address. -/
def cellByte (a : Nat) (l : List (Nat × Option Byte)) (x : Nat) : Option Byte := (l.find? (fun e => a + e.1 == x)).bind (·.2)

/-- The cells of one word, as places in it. -/
def cellsOfWord (a : Nat) (l : List (Nat × Option Byte)) (w : Nat) : List (Nat × Option Byte) :=
  (l.filter (fun e => (a + e.1) / 16 == w)).map (fun e => ((a + e.1) % 16, e.2))

theorem cellsOfWord_byte (a : Nat) (l : List (Nat × Option Byte)) (w : Nat) {k : Nat} (hk : k < 16) :
    ((cellsOfWord a l w).find? (fun e => e.1 == k)).bind (·.2) = cellByte a l (16 * w + k) := by
  unfold cellsOfWord cellByte
  rw [List.find?_map, List.find?_filter]
  have hsame : (fun e : Nat × Option Byte => decide (((a + e.1) / 16 == w) = true ∧
      ((fun e : Nat × Option Byte => e.1 == k) ∘ fun e => ((a + e.1) % 16, e.2)) e = true)) = fun e => a + e.1 == 16 * w + k := by
    funext e
    rw [Bool.eq_iff_iff, decide_eq_true_iff]
    simp only [Function.comp, beq_iff_eq]
    omega
  rw [hsame]
  cases l.find? (fun e => a + e.1 == 16 * w + k) <;> rfl

/-- The bytes that a word holds once the cells are stored. -/
def wordCells (s : State) (r w : Nat) (f : Nat → Option Byte) : List Byte :=
  (List.range 16).map (fun k => (f k).getD (memGet s.dram (dramKey r w 0 + k)))

theorem length_wordCells (s : State) (r w : Nat) (f : Nat → Option Byte) : (wordCells s r w f).length = 16 := by simp [wordCells]

theorem wordCells_getD (s : State) (r w : Nat) (f : Nat → Option Byte) {k : Nat} (hk : k < 16) :
    (wordCells s r w f).getD k 0 = (f k).getD (memGet s.dram (dramKey r w 0 + k)) := by
  rw [List.getD_eq_getElem _ _ (by rw [length_wordCells]; exact hk)]
  simp [wordCells]

/-- A cell that some entry names holds a byte where no data is lost. -/
theorem cell_found {l : List (Nat × Option Byte)} (hl : ∀ e ∈ l, e.2.isSome = true) {k : Nat} (hk : l.any (fun e => e.1 == k) = true) :
    ∃ b, (l.find? (fun e => e.1 == k)).bind (·.2) = some b := by
  cases hfind : l.find? (fun e => e.1 == k) with
  | none =>
    obtain ⟨e, he, hek⟩ := List.any_eq_true.1 hk
    exact absurd hek (List.find?_eq_none.1 hfind e he)
  | some e => exact Option.isSome_iff_exists.1 (hl e (List.mem_of_find?_eq_some hfind))

/-- Cells without lost data store their bytes into their word. -/
theorem writeCellsIn_calm {s : State} (hcalm : CalmMemory s) (r w : Nat) {l : List (Nat × Option Byte)}
    (hl : ∀ e ∈ l, e.2.isSome = true) :
    writeCellsIn s r w l = wordPut s r w (ofLe (wordCells s r w (fun k => (l.find? (fun e => e.1 == k)).bind (·.2)))) := by
  have hnone : ¬ l.any (fun e => e.2.isNone) = true := by
    simp only [List.any_eq_true, not_exists, not_and]
    intro e he
    have := hl e he
    cases h : e.2 <;> simp_all
  unfold writeCellsIn
  rw [if_neg hnone]
  dsimp only
  split
  · next hall =>
    rw [writeWord_calm hcalm]
    congr 2
    refine List.map_congr_left fun k hk => ?_
    obtain ⟨b, hb⟩ := cell_found hl (List.all_eq_true.1 hall k hk)
    simp only [hb, Option.getD_some]
  · rw [fetchWord_calm hcalm]
    dsimp only
    rw [writeWord_calm hcalm]
    congr 2
    refine List.map_congr_left fun k hk => ?_
    rw [storedByte s r w (List.mem_range.1 hk)]

theorem bytes_wordPut {s : State} (hcalm : CalmMemory s) (r w : Nat) {b : List Byte} (hb : b.length = 16) (x : Nat) :
    memGet (wordPut s r w (ofLe b)).dram (bytePlace r x) = if x / 16 = w then b.getD (x % 16) 0 else memGet s.dram (bytePlace r x) := by
  have hne : b ≠ [] := by
    rintro rfl
    cases hb
  have hput := bytesPut_within hcalm r w (lo := 0) (b := b) (by omega)
  rw [writeWithin_calm hcalm r w 0 hne, merged_whole s r w hb] at hput
  rw [hput.bytes x, hb, Nat.add_zero]
  by_cases hx : x / 16 = w
  · rw [if_pos (by omega), if_pos hx, show x - 16 * w = x % 16 by omega]
  · rw [if_neg (by omega), if_neg hx]

/-! ## Lists of cells -/

/-- The cells' words, one after the other. -/
def storeCells (a : Nat) (l : List (Nat × Option Byte)) (r : Nat) (s : State) (ws : List Nat) : State :=
  ws.foldl (fun s w => writeCellsIn s r w (cellsOfWord a l w)) s

/-- Each byte that the cells name holds theirs, and every other its own. -/
structure CellsPut (s t : State) (r a : Nat) (l : List (Nat × Option Byte)) : Prop where
  bytes : ∀ x, memGet t.dram (bytePlace r x) = (cellByte a l x).getD (memGet s.dram (bytePlace r x))
  calm : CalmMemory t
  changes : Changes [.dram, .mem] s t

theorem storeCells_calm {l : List (Nat × Option Byte)} (hl : ∀ e ∈ l, e.2.isSome = true) (a r : Nat) (ws : List Nat) {s : State}
    (hcalm : CalmMemory s) : CalmMemory (storeCells a l r s ws) ∧ Changes [.dram, .mem] s (storeCells a l r s ws) ∧
    ∀ x, memGet (storeCells a l r s ws).dram (bytePlace r x) =
      if x / 16 ∈ ws then (cellByte a l x).getD (memGet s.dram (bytePlace r x)) else memGet s.dram (bytePlace r x) := by
  induction ws generalizing s with
  | nil => exact ⟨hcalm, Changes.refl _ s, fun x => (if_neg (by simp)).symm⟩
  | cons w ws ih =>
    have hsome : ∀ e ∈ cellsOfWord a l w, e.2.isSome = true := by
      intro e he
      obtain ⟨d, hd, rfl⟩ := List.mem_map.1 he
      exact hl d (List.mem_filter.1 hd).1
    have hlen := length_wordCells s r w (fun k => ((cellsOfWord a l w).find? (fun e => e.1 == k)).bind (·.2))
    have hstep := writeCellsIn_calm hcalm r w hsome
    have hbytes := bytes_wordPut hcalm r w hlen
    have hcalm' := calm_wordPut hcalm r w (ofLe_lt_word hlen)
    have hch := wordPut_changes s r w (ofLe (wordCells s r w (fun k => ((cellsOfWord a l w).find? (fun e => e.1 == k)).bind (·.2))))
    rw [← hstep] at hbytes hcalm' hch
    obtain ⟨hc, hrest, hx⟩ := ih hcalm'
    refine ⟨hc, hch.trans hrest, fun x => (hx x).trans ?_⟩
    have hword : memGet (writeCellsIn s r w (cellsOfWord a l w)).dram (bytePlace r x) =
        if x / 16 = w then (cellByte a l x).getD (memGet s.dram (bytePlace r x)) else memGet s.dram (bytePlace r x) := by
      rw [hbytes x]
      by_cases hxw : x / 16 = w
      · rw [if_pos hxw, if_pos hxw, wordCells_getD _ _ _ _ (Nat.mod_lt _ (by decide)), cellsOfWord_byte _ _ _ (Nat.mod_lt _ (by decide)),
          bytePlace, hxw, show 16 * w + x % 16 = x by omega]
      · rw [if_neg hxw, if_neg hxw]
    rw [hword]
    simp only [List.mem_cons]
    by_cases hxw : x / 16 = w <;> by_cases hin : x / 16 ∈ ws <;> cases cellByte a l x <;> simp [hxw, hin]

theorem cellByte_none {a x : Nat} {l : List (Nat × Option Byte)} (h : x / 16 ∉ l.map (fun e => (a + e.1) / 16)) : cellByte a l x = none := by
  unfold cellByte
  have hnone : l.find? (fun e => a + e.1 == x) = none := by
    refine List.find?_eq_none.2 fun e he heq => h ?_
    refine List.mem_map.2 ⟨e, he, ?_⟩
    rw [eq_of_beq heq]
  rw [hnone]
  rfl

/-- A list of cells without lost data is stored, on the memory as it is after the rank was touched. -/
theorem cellsPut_writeCells {s : State} (hcalm : CalmMemory s) {i : Nat} (hr : inRank s i) {l : List (Nat × Option Byte)}
    (hl : ∀ e ∈ l, e.2.isSome = true) :
    CellsPut (touchRank s (rankOfUnit s (surfOf s i).unit)) (writeCells s i l) (rankOfUnit s (surfOf s i).unit) (surfOf s i).base l := by
  obtain ⟨hc, hch, hx⟩ := storeCells_calm hl (surfOf s i).base (rankOfUnit s (surfOf s i).unit)
    ((l.map (fun e => ((surfOf s i).base + e.1) / 16)).dedup) (calm_touchRank hcalm hr)
  refine ⟨fun x => (hx x).trans ?_, hc, hch⟩
  by_cases h : x / 16 ∈ l.map (fun e => ((surfOf s i).base + e.1) / 16)
  · rw [if_pos (List.mem_dedup.2 h)]
  · rw [if_neg (fun hd => h (List.mem_dedup.1 hd)), cellByte_none h]
    rfl

/-! ## What is read -/

/-- One more word read, kept with its data. -/
def readStep (r : Nat) (x : State × Tab Nat) (w : Nat) : State × Tab Nat :=
  match fetchWord x.1 r w with
  | (s, some d) => (s, tset x.2 w d)
  | (s, none) => (s, x.2)

theorem readStep_calm {s : State} (hcalm : CalmMemory s) (r : Nat) (tab : Tab Nat) (w : Nat) :
    readStep r (s, tab) w = (s, tset tab w (storedWord s r w % 2 ^ 128)) := by
  unfold readStep
  rw [fetchWord_calm hcalm]

/-- The words read, each with its data. -/
def readWords (r : Nat) (x : State × Tab Nat) (ws : List Nat) : State × Tab Nat := ws.foldl (readStep r) x

theorem readWords_calm {s : State} (hcalm : CalmMemory s) (r : Nat) (ws : List Nat) (tab : Tab Nat) :
    (readWords r (s, tab) ws).1 = s ∧ (∀ w ∈ ws, tfind (readWords r (s, tab) ws).2 w = some (storedWord s r w % 2 ^ 128)) ∧
    (∀ w, w ∉ ws → tfind (readWords r (s, tab) ws).2 w = tfind tab w) := by
  induction ws generalizing tab with
  | nil => exact ⟨rfl, fun w hw => absurd hw (by simp), fun w _ => rfl⟩
  | cons v ws ih =>
    have hstep : readWords r (s, tab) (v :: ws) = readWords r (s, tset tab v (storedWord s r v % 2 ^ 128)) ws := by
      rw [readWords, List.foldl_cons, readStep_calm hcalm]
      rfl
    obtain ⟨hs, hin, hout⟩ := ih (tset tab v (storedWord s r v % 2 ^ 128))
    rw [hstep]
    refine ⟨hs, fun w hw => ?_, fun w hw => ?_⟩
    · by_cases hmem : w ∈ ws
      · exact hin w hmem
      · obtain rfl := (List.mem_cons.1 hw).resolve_right hmem
        exact (hout w hmem).trans (tfind_tset_same _ _ _)
    · simp only [List.mem_cons, not_or] at hw
      exact (hout w hw.2).trans (tfind_tset_ne _ _ hw.1)

/-- A read of cells delivers the bytes as they are stored, and loses none. -/
theorem readCells_calm {s : State} (hcalm : CalmMemory s) {i : Nat} (hr : inRank s i) (offs : List Nat) :
    readCells s i offs = (touchRank s (rankOfUnit s (surfOf s i).unit), offs.map (fun o => some (surfByte s i o)), []) := by
  have hcalm' := calm_touchRank hcalm hr
  generalize hws : (offs.map (fun o => ((surfOf s i).base + o) / 16)).dedup = ws
  obtain ⟨hs, hin, -⟩ := readWords_calm hcalm' (rankOfUnit s (surfOf s i).unit) ws []
  have hread : readCells s i offs = ((readWords (rankOfUnit s (surfOf s i).unit) (touchRank s (rankOfUnit s (surfOf s i).unit), []) ws).1,
      offs.map (fun o => (tfind (readWords (rankOfUnit s (surfOf s i).unit) (touchRank s (rankOfUnit s (surfOf s i).unit), []) ws).2
        (((surfOf s i).base + o) / 16)).map (fun d => BitVec.ofNat 8 (d / 256 ^ (((surfOf s i).base + o) % 16)))),
      ws.filter (fun w => (tfind (readWords (rankOfUnit s (surfOf s i).unit) (touchRank s (rankOfUnit s (surfOf s i).unit), []) ws).2 w).isNone)) := by
    rw [← hws]
    rfl
  rw [hread, hs]
  refine Prod.ext rfl (Prod.ext (List.map_congr_left fun o ho => ?_) (List.filter_eq_nil_iff.2 fun w hw => ?_))
  · have hmem : ((surfOf s i).base + o) / 16 ∈ ws := by
      rw [← hws]
      exact List.mem_dedup.2 (List.mem_map_of_mem ho)
    rw [hin _ hmem, Option.map_some, storedByte _ _ _ (Nat.mod_lt _ (by decide)), (touchRank_changes s _).dram (by decide)]
    rfl
  · rw [hin w hw]
    simp

end Sys2Proof.Proofs.SurfaceCells

/-!
PROOFS. O40: COPY and CONVERT on memory without errors.
-/

namespace Sys2Proof.Proofs.Copies

open Sys2Proof.Machine
open Sys2Proof.Proofs.WordStore
open Sys2Proof.Proofs.SurfaceCells
open Sys2Proof.Proofs.LayersAndCommits (answerParts onlyAndNotes_fetched onlyAndNotes_answered)

/-! ## One line of a linear surface -/

/-- Rows of equal length, one after the other, are one row. -/
theorem flatMap_grid {α : Type} (F : Nat → Nat → α) (w b : Nat) :
    (List.range w).flatMap (fun m => (List.range b).map (F m)) = (List.range (w * b)).map (fun x => F (x / b) (x % b)) := by
  induction w with
  | zero => simp
  | succ w ih =>
    rw [List.range_succ, List.flatMap_append, ih, List.flatMap_singleton, Nat.succ_mul, List.range_add, List.map_append, List.map_map]
    congr 1
    refine List.map_congr_left fun k hk => ?_
    have hb : k < b := List.mem_range.1 hk
    simp only [Function.comp]
    rw [Nat.mul_comm w b, Nat.mul_add_div (by omega), Nat.mul_add_mod, Nat.div_eq_of_lt hb, Nat.mod_eq_of_lt hb, Nat.add_zero]

/-- The places from an offset on. -/
def placesFrom (off n : Nat) : List Nat := (List.range n).map (off + ·)

/-- The runs of one line of pixels. -/
def lineRuns (off b w : Nat) : List Run := (List.range w).map (fun k => ⟨0, k * b, off + k * b, b⟩)

theorem pixelOffset_linear {s : State} {i : Nat} (hlin : getN s (K.surfLayout i) = 0) (x y k : Nat) :
    pixelOffset s i (x + k) y = pixelOffset s i x y + k * strideBytes (getN s (K.surfFormat i)) := by
  unfold pixelOffset pixelAt
  simp only [hlin]
  rw [if_neg (by omega), if_neg (by omega), Nat.add_mul, Nat.add_assoc]

theorem rectRuns_line {s : State} {i : Nat} (hyuv : isYuv (getN s (K.surfFormat i)) = false) (hlin : getN s (K.surfLayout i) = 0)
    (x y w : Nat) : rectRuns s i x y w 1 = lineRuns (pixelOffset s i x y) (strideBytes (getN s (K.surfFormat i))) w := by
  unfold rectRuns lineRuns
  dsimp only
  rw [hyuv]
  simp only [Bool.false_eq_true, if_false, List.range_one, List.flatMap_singleton, Nat.add_zero]
  exact List.map_congr_left fun k _ => by rw [pixelOffset_linear hlin]

theorem runCells_line (off b w : Nat) : runCells (lineRuns off b w) = placesFrom off (w * b) := by
  unfold runCells lineRuns placesFrom
  rw [List.flatMap_map]
  refine (flatMap_grid (fun m k => off + m * b + k) w b).trans (List.map_congr_left fun x _ => ?_)
  rw [Nat.add_assoc, Nat.div_add_mod']

/-- The bytes of one line stored from an offset on. -/
theorem cellByte_line (off n : Nat) (B : Nat → Byte) (x : Nat) :
    cellByte 0 ((placesFrom off n).zip ((List.range n).map (fun k => some (B k)))) x =
      if off ≤ x ∧ x < off + n then some (B (x - off)) else none := by
  have hzip : (placesFrom off n).zip ((List.range n).map (fun k => some (B k))) = (List.range n).map (fun k => (off + k, some (B k))) := by
    rw [placesFrom, List.zip_map']
  rw [hzip, cellByte, List.find?_map]
  by_cases hx : off ≤ x ∧ x < off + n
  · rw [if_pos hx]
    have hfind : (List.range n).find? ((fun e : Nat × Option Byte => 0 + e.1 == x) ∘ fun k => (off + k, some (B k))) = some (x - off) := by
      refine List.find?_range_eq_some.2 ⟨?_, List.mem_range.2 (by omega), fun k hk => ?_⟩
      · simp only [Function.comp, beq_iff_eq]
        omega
      · simp only [Function.comp, Bool.not_eq_true', beq_eq_false_iff_ne, ne_eq]
        omega
    rw [hfind]
    rfl
  · rw [if_neg hx]
    have hfind : (List.range n).find? ((fun e : Nat × Option Byte => 0 + e.1 == x) ∘ fun k => (off + k, some (B k))) = none := by
      refine List.find?_eq_none.2 fun k hk heq => hx ?_
      have hlt := List.mem_range.1 hk
      have hk' : 0 + (off + k) = x := by simpa using heq
      omega
    rw [hfind]
    rfl

theorem memGetAll_eq_map (m : Memory) (a n : Nat) : memGetAll m a n = (List.range n).map (fun k => memGet m (a + k)) := by
  refine List.ext_getElem (by simp [memGetAll_length]) fun i h₁ h₂ => ?_
  rw [memGetAll_getElem, List.getElem_map, List.getElem_range]

/-! ## Steps of the memory under a command -/

/-- The objects that accesses of the memory can touch. -/
def accessKeys : List Nat := (List.range 3).map K.grpState ++ (List.range 6).map K.rankNrr

theorem mem_accessKeys {r : Nat} (hr : r < 6) : K.grpState (r / 2) ∈ accessKeys ∧ K.rankNrr r ∈ accessKeys :=
  ⟨List.mem_append_left _ (List.mem_map_of_mem (List.mem_range.2 (by omega))),
    List.mem_append_right _ (List.mem_map_of_mem (List.mem_range.2 hr))⟩

theorem not_accessKey {idx sub : Nat} (hsub : sub < 256) (h : (sub ≠ 1 ∧ sub ≠ 10) ∨ idx < 0x4010 ∨ 0x4023 ≤ idx) :
    objKey idx sub ∉ accessKeys := by
  simp only [accessKeys, List.mem_append, List.mem_map, List.mem_range, not_or, not_exists, not_and, K.grpState, K.rankNrr, objKey]
  exact ⟨fun g hg => by omega, fun q hq => by omega⟩

/-- A step that moves bytes between the memories and touches nothing else but the ranks' states. -/
structure MovesBytes (u v : State) : Prop where
  changes : Changes [.fresh, .objs, .mem, .dram, .host, .notes] u v
  objs : onlyObjsAndNotes accessKeys u v

theorem MovesBytes.trans {u v w : State} (h : MovesBytes u v) (h' : MovesBytes v w) : MovesBytes u w :=
  ⟨h.changes.trans h'.changes, onlyAndNotes_trans h.objs h'.objs⟩

theorem MovesBytes.of_changes {u v : State} (h : Changes [.dram, .mem, .host, .notes] u v) : MovesBytes u v :=
  ⟨h.mono (by decide), onlyAndNotes_of_changes h (by decide)⟩

theorem movesBytes_touchRank (s : State) {r : Nat} (hr : r < 6) : MovesBytes s (touchRank s r) := by
  obtain ⟨hg, hn⟩ := mem_accessKeys hr
  refine ⟨(touchRank_changes s r).mono (by decide), onlyAndNotes_of_only fun k hk => touchRank_objs s r k ?_⟩
  simp only [List.mem_cons, List.not_mem_nil, or_false, not_or]
  exact ⟨fun heq => hk (heq ▸ hg), fun heq => hk (heq ▸ hn)⟩

/-- An object that no access of the memory shows keeps its value. -/
theorem MovesBytes.getN {u v : State} (h : MovesBytes u v) {k : Nat} (hk : k ∉ accessKeys) (hnote : ¬ noteKey k) : getN v k = getN u k :=
  congrArg Val.toNat (h.objs k hk hnote).1

theorem rankUnit_not_noteKey {q : Nat} (hq : q < 6) : ¬ noteKey (K.rankUnit q) := by
  simp only [noteKey, K.dictNotifyDrop, K.regVoteFix, K.regVoteBad, K.kaolinCanDrop, K.logOut, K.rankUnit, objKey]
  omega

theorem rankOfUnit_congr {s t : State} (h : ∀ q, q < 6 → getN t (K.rankUnit q) = getN s (K.rankUnit q)) (u : Nat) :
    rankOfUnit t u = rankOfUnit s u := by
  have hfind (l : List Nat) (hl : ∀ q ∈ l, q < 6) :
      l.find? (fun r => getN t (K.rankUnit r) == u) = l.find? (fun r => getN s (K.rankUnit r) == u) := by
    induction l with
    | nil => rfl
    | cons q l ih =>
      rw [List.find?_cons, List.find?_cons, h q (hl q (by simp)), ih fun q hq => hl q (by simp [hq])]
  unfold rankOfUnit
  rw [hfind _ fun q hq => List.mem_range.1 hq]

/-- Where a surface lies does not move with its bytes. -/
theorem MovesBytes.place {u v : State} (h : MovesBytes u v) (i : Nat) :
    surfOf v i = surfOf u i ∧ rankOfUnit v (surfOf v i).unit = rankOfUnit u (surfOf u i).unit := by
  have hsurf : surfOf v i = surfOf u i := by rw [surfOf, h.changes.surfs (by decide), ← surfOf]
  refine ⟨hsurf, ?_⟩
  rw [hsurf]
  exact rankOfUnit_congr (fun q hq => h.getN (not_accessKey (by decide) (.inl (by decide))) (rankUnit_not_noteKey hq)) _

theorem MovesBytes.inRank {u v : State} (h : MovesBytes u v) {i : Nat} (hr : inRank u i) : Machine.inRank v i := by
  unfold Machine.inRank
  rw [(h.place i).2]
  exact hr

/-- A surface's byte, from where the surface lay before. -/
theorem MovesBytes.byte {u v : State} (h : MovesBytes u v) (i o : Nat) :
    surfByte v i o = memGet v.dram (bytePlace (rankOfUnit u (surfOf u i).unit) ((surfOf u i).base + o)) := by
  obtain ⟨hsurf, hrank⟩ := h.place i
  unfold surfByte
  rw [hrank, hsurf]
  rfl

/-! ## What the engines move -/

/-- The cells' bytes are stored in a slot's surface, and nothing else of it changes. -/
structure StoresCells (u v : State) (i : Nat) (l : List (Nat × Option Byte)) : Prop where
  moves : MovesBytes u v
  bytes : ∀ o, surfByte v i o = (cellByte 0 l o).getD (surfByte u i o)

theorem cellByte_shift (a : Nat) (l : List (Nat × Option Byte)) (o : Nat) : cellByte a l (a + o) = cellByte 0 l o := by
  have hsame : (fun e : Nat × Option Byte => a + e.1 == a + o) = fun e => 0 + e.1 == o := by
    funext e
    rw [Bool.eq_iff_iff]
    simp only [beq_iff_eq]
    omega
  rw [cellByte, hsame]
  rfl

theorem writeCells_stores {u : State} (hcalm : CalmMemory u) {i : Nat} (hr : inRank u i) {l : List (Nat × Option Byte)}
    (hl : ∀ e ∈ l, e.2.isSome = true) : StoresCells u (writeCells u i l) i l := by
  have hput := cellsPut_writeCells hcalm hr hl
  have hmoves := (movesBytes_touchRank u hr).trans (.of_changes (hput.changes.mono (by decide)))
  refine ⟨hmoves, fun o => ?_⟩
  rw [hmoves.byte, hput.bytes, cellByte_shift, (touchRank_changes u _).dram (by decide)]
  rfl

theorem zip_isSome {places : List Nat} {bs : List (Option Byte)} (hbs : ∀ b ∈ bs, b.isSome = true) :
    ∀ e ∈ places.zip bs, e.2.isSome = true := fun e he => hbs e.2 (List.of_mem_zip (a := e.1) (b := e.2) he).2

section
variable {u : State} (hcalm : CalmMemory u) {i : Nat} (hr : inRank u i)
include hcalm hr

theorem copyIn_stores (f : Nat) (p : CopyPayload) (rs : List Run) : StoresCells u (copyIn u f i p rs) i
    ((runCells rs).zip (rs.flatMap (fun r => (hostRead u f (runAddr p r) r.len).map some))) := by
  refine writeCells_stores hcalm hr (zip_isSome fun b hb => ?_)
  obtain ⟨r, -, hr⟩ := List.mem_flatMap.1 hb
  obtain ⟨c, -, rfl⟩ := List.mem_map.1 hr
  rfl

theorem copyFill_stores (p : CopyPayload) (rs : List Run) : StoresCells u (copyFill u i p rs) i
    ((runCells rs).zip (rs.flatMap (fun r => (List.range r.len).map (fun k => some (BitVec.ofNat 8 (p.fill.toNat / 256 ^ k)))))) := by
  refine writeCells_stores hcalm hr (zip_isSome fun b hb => ?_)
  obtain ⟨r, -, hr⟩ := List.mem_flatMap.1 hb
  obtain ⟨c, -, rfl⟩ := List.mem_map.1 hr
  rfl

/-- What was read from one surface and is then stored in another. -/
theorem moved_stores {j : Nat} (hj : inRank u j) (src : List Nat) {l : List (Nat × Option Byte)} (hl : ∀ e ∈ l, e.2.isSome = true) :
    StoresCells u (writeCells (readCells u j src).1 i l) i l := by
  have hmoves := movesBytes_touchRank u hj
  rw [readCells_calm hcalm hj]
  have hstored := writeCells_stores (calm_touchRank hcalm hj) (hmoves.inRank hr) hl
  refine ⟨hmoves.trans hstored.moves, fun o => ?_⟩
  rw [hstored.bytes, hmoves.byte, (touchRank_changes u _).dram (by decide)]
  rfl

theorem copyAcross_stores {j : Nat} (hj : inRank u j) (src dst : List Run) : StoresCells u (copyAcross u i j src dst) i
    ((runCells dst).zip ((runCells src).map (fun o => some (surfByte u j o)))) := by
  have hread := readCells_calm hcalm hj (runCells src)
  have hstored := moved_stores hcalm hr hj (runCells src) (l := (runCells dst).zip ((runCells src).map (fun o => some (surfByte u j o))))
    (zip_isSome fun b hb => by obtain ⟨o, -, rfl⟩ := List.mem_map.1 hb; rfl)
  rw [hread] at hstored
  unfold copyAcross
  rw [hread]
  exact hstored

theorem copyOut_moves (f : Nat) (p : CopyPayload) (rs : List Run) :
    ∃ v, copyOut u f i p rs = (v, []) ∧ MovesBytes u v ∧ v.dram = u.dram := by
  have hmoves := movesBytes_touchRank u hr
  have hdram := (touchRank_changes u (rankOfUnit u (surfOf u i).unit)).dram (by decide)
  unfold copyOut
  rw [readCells_calm hcalm hr]
  generalize touchRank u (rankOfUnit u (surfOf u i).unit) = v at hmoves hdram
  dsimp only
  generalize List.zip _ _ = l
  have hch : Changes [.host, .notes] v (l.foldl (fun s e => match e.2 with
      | some b => hostWrite s f e.1 [b]
      | none => s) v) := by
    refine foldl_ch l (Changes.refl _ v) fun x e hx => ?_
    split
    · exact hostWrite_ch (by decide) hx
    · exact hx
  exact ⟨_, rfl, hmoves.trans (.of_changes (hch.mono (by decide))), (hch.dram (by decide)).trans hdram⟩

end

/-! ## One line -/

/-- The line from an offset on holds the bytes named. -/
theorem line_stored {u v : State} {i off n : Nat} {B : Nat → Byte}
    (h : StoresCells u v i ((placesFrom off n).zip ((List.range n).map (fun k => some (B k))))) {k : Nat} (hk : k < n) :
    surfByte v i (off + k) = B k := by
  rw [h.bytes, cellByte_line, if_pos (by omega), Nat.add_sub_cancel_left]
  rfl

/-- The surface's bytes outside the line are as they were. -/
theorem line_outside {u v : State} {i off n : Nat} {bs : List (Option Byte)} (h : StoresCells u v i ((placesFrom off n).zip bs)) {o : Nat}
    (ho : o < off ∨ off + n ≤ o) : surfByte v i o = surfByte u i o := by
  have hfind : ((placesFrom off n).zip bs).find? (fun e => 0 + e.1 == o) = none := by
    refine List.find?_eq_none.2 fun e he heq => ?_
    obtain ⟨k, hk, hoff⟩ := List.mem_map.1 (List.of_mem_zip (a := e.1) (b := e.2) he).1
    have hlt := List.mem_range.1 hk
    have heq' : 0 + e.1 = o := eq_of_beq heq
    omega
  rw [h.bytes, cellByte, hfind]
  rfl

theorem hostBytes_line (u : State) (f : Nat) (p : CopyPayload) (off b w : Nat) :
    (lineRuns off b w).flatMap (fun r => (hostRead u f (runAddr p r) r.len).map some) =
      (List.range (w * b)).map (fun k => some (memGet u.host (hostKey f (p.host.toNat + k / b * b) + k % b))) := by
  unfold lineRuns
  rw [List.flatMap_map]
  refine Eq.trans (List.flatMap_congr fun m _ => ?_) (flatMap_grid (fun m k => some (memGet u.host (hostKey f (p.host.toNat + m * b) + k))) w b)
  rw [hostRead, memGetAll_eq_map, List.map_map]
  simp [runAddr, Function.comp]

theorem fillBytes_line (p : CopyPayload) (off b w : Nat) :
    (lineRuns off b w).flatMap (fun r => (List.range r.len).map (fun k => some (BitVec.ofNat 8 (p.fill.toNat / 256 ^ k)))) =
      (List.range (w * b)).map (fun k => some (BitVec.ofNat 8 (p.fill.toNat / 256 ^ (k % b)))) := by
  unfold lineRuns
  rw [List.flatMap_map]
  exact flatMap_grid (fun _ k => some (BitVec.ofNat 8 (p.fill.toNat / 256 ^ k))) w b

/-! ## The commands -/

section
variable {s : State} {h : CmdHdr}

theorem calm_fetched (hcalm : CalmMemory s) (op : Nat) (pay : List Byte) : CalmMemory (fetched s h op pay) :=
  ⟨hcalm.migr, hcalm.arm, hcalm.injected, hcalm.clean⟩

/-- The state and the ticket that a fetched command starts from. -/
theorem copyOk_fetched (f surface : Nat) (bad : List (Nat × Nat)) (p q : CopyPayload) (op : Nat) :
    copyOk (fetched s h op q.bytes) f surface bad p = copyOk s f surface bad p := rfl

theorem rectRuns_fetched (op : Nat) (pay : List Byte) (i x y w n : Nat) :
    rectRuns (fetched s h op pay) i x y w n = rectRuns s i x y w n := rfl

/-- A ring's record is moved by no access of the memory. -/
theorem sameRing_moved {u v : State} (hs : SameRing s u h) (hmoves : MovesBytes u v) : SameRing s v h := by
  have hring : ringOf v h.ring = ringOf u h.ring := by rw [ringOf, hmoves.changes.rings (by decide), ← ringOf]
  have hfunc (f : Nat) : funcOf v f = funcOf u f := by rw [funcOf, hmoves.changes.funcs (by decide), ← funcOf]
  have hkey {sub : Nat} (hsub : sub < 256) : getN v (objKey (0x3100 + h.ring) sub) = getN u (objKey (0x3100 + h.ring) sub) :=
    hmoves.getN (not_accessKey hsub (.inr (.inl (by omega)))) (FenceWaits.not_noteKey_ring h.ring.isLt hsub)
  exact ⟨by rw [hring, hs.head], by rw [hring, hs.cqTail], by rw [hring, hs.cqHead], by rw [hring, hs.era], by rw [hring, hs.held],
    (hmoves.changes.now (by decide)).trans hs.now, by rw [hfunc, hs.epoch], (hkey (by decide)).trans hs.cqBase,
    (hkey (by decide)).trans hs.cqOrder⟩

/-- An answer leaves every surface as it is. -/
theorem surfByte_answered {u t : State} (hch : Changes answerParts u t) (i o : Nat) : surfByte t i o = surfByte u i o := by
  have hsurf : surfOf t i = surfOf u i := by rw [surfOf, hch.surfs (by decide), ← surfOf]
  have hrank := rankOfUnit_congr (fun q hq => getN_of_changes hch (by decide) (rankUnit_not_noteKey hq)) (surfOf u i).unit
  unfold surfByte
  rw [hsurf, hrank, hch.dram (by decide)]

/-- What a command that moved bytes ends with. -/
structure Moved (s t : State) (h : CmdHdr) (op : Nat) (result : Option Nat) (v : State) : Prop where
  done : ringDone s t h op 0 result
  objs : onlyObjsAndNotes accessKeys s t
  dram : t.dram = v.dram
  bytes : ∀ i o, surfByte t i o = surfByte v i o

theorem moved_completeR {op : Nat} {write : Bool} {pay : List Byte} {v : State} {n : Nat} (hf : Fetches s h op write)
    (hmoves : MovesBytes (fetched s h op pay) v) : Moved s (completeR v (ticketOf s h op) 0 n) h op (some n) v := by
  obtain ⟨hdone, -, hch⟩ := completeR_done (st := 0) (x := n) hf (sameRing_moved (SameRing.fetched s h op pay) hmoves)
  exact ⟨hdone, onlyAndNotes_trans (onlyAndNotes_trans (onlyAndNotes_fetched _ s h op pay) hmoves.objs) (onlyAndNotes_answered _ hch),
    hch.dram (by decide), surfByte_answered hch⟩

theorem moved_completeOpen {op : Nat} {write : Bool} {pay : List Byte} {v : State} (hf : Fetches s h op write)
    (hmoves : MovesBytes (fetched s h op pay) v) : Moved s (completeOpen v (ticketOf s h op) 0) h op none v := by
  obtain ⟨hdone, -, hch⟩ := completeOpen_done (st := 0) hf (sameRing_moved (SameRing.fetched s h op pay) hmoves)
  exact ⟨hdone, onlyAndNotes_trans (onlyAndNotes_trans (onlyAndNotes_fetched _ s h op pay) hmoves.objs) (onlyAndNotes_answered _ hch),
    hch.dram (by decide), surfByte_answered hch⟩

/-- A command that its checks forbid ends with FAULT and moves nothing. -/
theorem refused_done {op : Nat} {write : Bool} (pay : List Byte) (hf : Fetches s h op write) :
    ringDone s (completeOpen (fetched s h op pay) (ticketOf s h op) 3) h op 3 none ∧
      onlyObjsAndNotes [] s (completeOpen (fetched s h op pay) (ticketOf s h op) 3) ∧
      Changes answerParts s (completeOpen (fetched s h op pay) (ticketOf s h op) 3) := by
  obtain ⟨hdone, -, hch⟩ := completeOpen_done (st := 3) hf (SameRing.fetched s h op pay)
  have hall := ((fetched_changes s h op pay).mono (by decide)).trans hch
  exact ⟨hdone, onlyAndNotes_of_changes hall (by decide), hall⟩

/-- The runs of a COPY's destination. -/
def destRuns (s : State) (h : CmdHdr) (p : CopyPayload) : List Run :=
  rectRuns s (slotOf h.surface.toNat) p.rect.x.toNat p.rect.y.toNat p.rect.w.toNat p.rect.h.toNat

/-- The runs of a COPY's source in a surface. -/
def sourceRuns (s : State) (p : CopyPayload) : List Run :=
  rectRuns s (slotOf p.src.toNat) p.sx.toNat p.sy.toNat p.rect.w.toNat p.rect.h.toNat

variable {p : CopyPayload}

theorem exec_copy_refused (hf : Fetches s h 0x20 (p.kind.toNat != 1))
    (hbad : copyOk s (getN s (K.ringOwner h.ring)) h.surface.toNat (badHost h) p = false) :
    exec (.copy h p) s = .next (completeOpen (fetched s h 0x20 p.bytes) (ticketOf s h 0x20) 3) := by
  have hok : copyOk (fetched s h 0x20 p.bytes) (ticketOf s h 0x20).func h.surface.toNat (badHost h) p = false := hbad
  show execCopy h p s = _
  unfold execCopy
  rw [beginCmd_fetches hf]
  dsimp only
  rw [hok, Bool.not_false, if_pos rfl]

theorem exec_copy_allowed (hf : Fetches s h 0x20 (p.kind.toNat != 1))
    (hgood : copyOk s (getN s (K.ringOwner h.ring)) h.surface.toNat (badHost h) p = true) :
    (p.kind.toNat = 0 → exec (.copy h p) s = .next (completeR (copyIn (fetched s h 0x20 p.bytes) (getN s (K.ringOwner h.ring))
      (slotOf h.surface.toNat) p (destRuns s h p)) (ticketOf s h 0x20) 0 (runBytes (destRuns s h p)))) ∧
    (p.kind.toNat = 1 → ∀ v, copyOut (fetched s h 0x20 p.bytes) (getN s (K.ringOwner h.ring)) (slotOf h.surface.toNat) p
      (destRuns s h p) = (v, []) → exec (.copy h p) s = .next (completeR v (ticketOf s h 0x20) 0 (runBytes (destRuns s h p)))) ∧
    (p.kind.toNat = 2 → exec (.copy h p) s = .next (completeR (copyAcross (fetched s h 0x20 p.bytes) (slotOf h.surface.toNat)
      (slotOf p.src.toNat) (sourceRuns s p) (destRuns s h p)) (ticketOf s h 0x20) 0 (runBytes (destRuns s h p)))) ∧
    (p.kind.toNat = 3 → exec (.copy h p) s = .next (completeR (copyFill (fetched s h 0x20 p.bytes) (slotOf h.surface.toNat) p
      (destRuns s h p)) (ticketOf s h 0x20) 0 (runBytes (destRuns s h p)))) := by
  have hok : copyOk (fetched s h 0x20 p.bytes) (ticketOf s h 0x20).func h.surface.toNat (badHost h) p = true := hgood
  have hdest : rectRuns (fetched s h 0x20 p.bytes) (slotOf h.surface.toNat) p.rect.x.toNat p.rect.y.toNat p.rect.w.toNat p.rect.h.toNat =
      destRuns s h p := rfl
  have hsource : rectRuns (fetched s h 0x20 p.bytes) (slotOf p.src.toNat) p.sx.toNat p.sy.toNat p.rect.w.toNat p.rect.h.toNat =
      sourceRuns s p := rfl
  have hfunc : (ticketOf s h 0x20).func = getN s (K.ringOwner h.ring) := rfl
  have hexec : exec (.copy h p) s = execCopy h p s := rfl
  rw [hexec]
  unfold execCopy
  rw [beginCmd_fetches hf]
  dsimp only
  rw [hok, hdest, hsource, hfunc, Bool.not_true, if_neg (by decide)]
  refine ⟨fun hk => ?_, fun hk v hv => ?_, fun hk => ?_, fun hk => ?_⟩
  · rw [if_pos hk]
  · rw [if_neg (by omega), if_pos hk, hv]
  · rw [if_neg (by omega), if_neg (by omega), if_pos hk]
  · rw [if_neg (by omega), if_neg (by omega), if_neg (by omega)]

theorem copyOk_kind {f surface : Nat} {bad : List (Nat × Nat)} (hok : copyOk s f surface bad p = true) : p.kind.toNat ≤ 3 := by
  unfold copyOk at hok
  simp only [Bool.and_eq_true] at hok
  obtain ⟨⟨⟨⟨⟨-, hkind⟩, -⟩, -⟩, -⟩, -⟩ := hok
  exact of_decide_eq_true hkind

/-- A COPY between surfaces is between surfaces of one format. -/
theorem copyOk_source {f surface : Nat} {bad : List (Nat × Nat)} (hok : copyOk s f surface bad p = true) (hk : p.kind.toNat = 2) :
    getN s (K.surfFormat (slotOf p.src.toNat)) = getN s (K.surfFormat (slotOf surface)) := by
  unfold copyOk at hok
  simp only [Bool.and_eq_true] at hok
  obtain ⟨-, hsource⟩ := hok
  rw [hk] at hsource
  simp only [bne_self_eq_false, Bool.false_or, Bool.and_eq_true, beq_iff_eq] at hsource
  exact hsource.1.2

/-- What a COPY that is allowed moves, by its kind. -/
structure CopyMoves (s : State) (h : CmdHdr) (p : CopyPayload) (v : State) : Prop where
  moves : MovesBytes (fetched s h 0x20 p.bytes) v
  exec : exec (.copy h p) s = .next (completeR v (ticketOf s h 0x20) 0 (runBytes (destRuns s h p)))
  toHost : p.kind.toNat = 1 → v.dram = s.dram
  fromHost : p.kind.toNat = 0 → StoresCells (fetched s h 0x20 p.bytes) v (slotOf h.surface.toNat) ((runCells (destRuns s h p)).zip
    ((destRuns s h p).flatMap (fun r => (hostRead (fetched s h 0x20 p.bytes) (getN s (K.ringOwner h.ring)) (runAddr p r) r.len).map some)))
  across : p.kind.toNat = 2 → StoresCells (fetched s h 0x20 p.bytes) v (slotOf h.surface.toNat) ((runCells (destRuns s h p)).zip
    ((runCells (sourceRuns s p)).map (fun o => some (surfByte s (slotOf p.src.toNat) o))))
  filled : p.kind.toNat = 3 → StoresCells (fetched s h 0x20 p.bytes) v (slotOf h.surface.toNat) ((runCells (destRuns s h p)).zip
    ((destRuns s h p).flatMap (fun r => (List.range r.len).map (fun k => some (BitVec.ofNat 8 (p.fill.toNat / 256 ^ k))))))

theorem copy_moves (hf : Fetches s h 0x20 (p.kind.toNat != 1)) (hcalm : CalmMemory s)
    (hok : copyOk s (getN s (K.ringOwner h.ring)) h.surface.toNat (badHost h) p = true) (hr : inRank s (slotOf h.surface.toNat))
    (hsrc : p.kind.toNat = 2 → inRank s (slotOf p.src.toNat)) : ∃ v, CopyMoves s h p v := by
  have hkind := copyOk_kind hok
  have hcalm' := calm_fetched (h := h) hcalm 0x20 p.bytes
  have hr' : inRank (fetched s h 0x20 p.bytes) (slotOf h.surface.toNat) := hr
  obtain ⟨hin, hout, hacross, hfill⟩ := exec_copy_allowed hf hok
  obtain hk | hk | hk | hk : p.kind.toNat = 0 ∨ p.kind.toNat = 1 ∨ p.kind.toNat = 2 ∨ p.kind.toNat = 3 := by omega
  · have hstored := copyIn_stores hcalm' hr' (getN s (K.ringOwner h.ring)) p (destRuns s h p)
    exact ⟨_, hstored.moves, hin hk, fun h1 => absurd h1 (by omega), fun _ => hstored, fun h2 => absurd h2 (by omega),
      fun h3 => absurd h3 (by omega)⟩
  · obtain ⟨v, hv, hmoves, hdram⟩ := copyOut_moves hcalm' hr' (getN s (K.ringOwner h.ring)) p (destRuns s h p)
    exact ⟨v, hmoves, hout hk v hv, fun _ => hdram, fun h0 => absurd h0 (by omega), fun h2 => absurd h2 (by omega),
      fun h3 => absurd h3 (by omega)⟩
  · have hj : inRank (fetched s h 0x20 p.bytes) (slotOf p.src.toNat) := hsrc hk
    have hstored := copyAcross_stores hcalm' hr' hj (sourceRuns s p) (destRuns s h p)
    exact ⟨_, hstored.moves, hacross hk, fun h1 => absurd h1 (by omega), fun h0 => absurd h0 (by omega), fun _ => hstored,
      fun h3 => absurd h3 (by omega)⟩
  · have hstored := copyFill_stores hcalm' hr' p (destRuns s h p)
    exact ⟨_, hstored.moves, hfill hk, fun h1 => absurd h1 (by omega), fun h0 => absurd h0 (by omega), fun h2 => absurd h2 (by omega),
      fun _ => hstored⟩

/-- One line between linear surfaces: the bytes that a COPY stores. -/
theorem copy_line {v : State} {i b : Nat} (hv : CopyMoves s h p v) (hi : i = slotOf h.surface.toNat)
    (hok : copyOk s (getN s (K.ringOwner h.ring)) h.surface.toNat (badHost h) p = true)
    (hyuv : isYuv (getN s (K.surfFormat i)) = false) (hlin : getN s (K.surfLayout i) = 0) (hb : b = strideBytes (getN s (K.surfFormat i)))
    (hline : p.rect.h.toNat = 1) :
    (p.kind.toNat = 0 → ∀ k, k < p.rect.w.toNat * b →
      surfByte v i (pixelOffset s i p.rect.x.toNat p.rect.y.toNat + k) =
        memGet (fetched s h 0x20 p.bytes).host (hostKey (getN s (K.ringOwner h.ring)) (p.host.toNat + k / b * b) + k % b)) ∧
    (p.kind.toNat = 2 → getN s (K.surfLayout (slotOf p.src.toNat)) = 0 → ∀ k, k < p.rect.w.toNat * b →
      surfByte v i (pixelOffset s i p.rect.x.toNat p.rect.y.toNat + k) =
        surfByte s (slotOf p.src.toNat) (pixelOffset s (slotOf p.src.toNat) p.sx.toNat p.sy.toNat + k)) ∧
    (p.kind.toNat = 3 → ∀ k, k < p.rect.w.toNat * b →
      surfByte v i (pixelOffset s i p.rect.x.toNat p.rect.y.toNat + k) = BitVec.ofNat 8 (p.fill.toNat / 256 ^ (k % b))) ∧
    (p.kind.toNat ≠ 1 → ∀ o,
      o < pixelOffset s i p.rect.x.toNat p.rect.y.toNat ∨ pixelOffset s i p.rect.x.toNat p.rect.y.toNat + p.rect.w.toNat * b ≤ o →
      surfByte v i o = surfByte s i o) := by
  have hdest : destRuns s h p = lineRuns (pixelOffset s i p.rect.x.toNat p.rect.y.toNat) b p.rect.w.toNat := by
    rw [destRuns, hline, ← hi, rectRuns_line hyuv hlin, hb]
  have hcells : runCells (destRuns s h p) = placesFrom (pixelOffset s i p.rect.x.toNat p.rect.y.toNat) (p.rect.w.toNat * b) := by
    rw [hdest, runCells_line]
  have hkind := copyOk_kind hok
  obtain ⟨-, -, -, hin, hacross, hfill⟩ := hv
  rw [hcells, ← hi] at hin hacross hfill
  refine ⟨fun hk k hlt => ?_, fun hk hsrc k hlt => ?_, fun hk k hlt => ?_, fun hk o ho => ?_⟩
  · have hstored := hin hk
    rw [hdest, hostBytes_line] at hstored
    exact line_stored hstored hlt
  · have hformat : getN s (K.surfFormat (slotOf p.src.toNat)) = getN s (K.surfFormat i) := hi ▸ copyOk_source hok hk
    have hsource : sourceRuns s p = lineRuns (pixelOffset s (slotOf p.src.toNat) p.sx.toNat p.sy.toNat) b p.rect.w.toNat := by
      rw [sourceRuns, hline, rectRuns_line (by rw [hformat]; exact hyuv) hsrc, hformat, hb]
    have hstored := hacross hk
    rw [hsource, runCells_line, placesFrom, placesFrom, List.map_map] at hstored
    exact line_stored hstored hlt
  · have hstored := hfill hk
    rw [hdest, fillBytes_line] at hstored
    exact line_stored hstored hlt
  · have hsame : surfByte (fetched s h 0x20 p.bytes) i o = surfByte s i o := rfl
    obtain hk | hk | hk : p.kind.toNat = 0 ∨ p.kind.toNat = 2 ∨ p.kind.toNat = 3 := by omega
    · exact (line_outside (hin hk) ho).trans hsame
    · exact (line_outside (hacross hk) ho).trans hsame
    · exact (line_outside (hfill hk) ho).trans hsame

end

/-! ## Conversions -/

/-- No byte of a list is lost. -/
def Whole (bs : List (Option Byte)) : Prop := ∀ b ∈ bs, b.isSome = true

theorem whole_isSome {bs : List (Option Byte)} (h : Whole bs) : (whole bs).isSome = true := by
  induction bs with
  | nil => rfl
  | cons b bs ih =>
    obtain ⟨c, rfl⟩ := Option.isSome_iff_exists.1 (h b (by simp))
    rw [whole, Option.isSome_map]
    exact ih fun d hd => h d (by simp [hd])

theorem Whole.part {bs : List (Option Byte)} (h : Whole bs) (k m : Nat) : Whole ((bs.drop k).take m) :=
  fun b hb => h b (List.mem_of_mem_drop (List.mem_of_mem_take hb))

/-- Of whole bytes no colour is lost. -/
theorem cellColour_isSome {bs : List (Option Byte)} (h : Whole bs) (fmt matrix w n x y : Nat) :
    (cellColour fmt matrix w n bs x y).isSome = true := by
  have hpart (k m : Nat) : ∃ l, whole ((bs.drop k).take m) = some l := Option.isSome_iff_exists.1 (whole_isSome (h.part k m))
  unfold cellColour
  dsimp only
  split
  · obtain ⟨l, hl⟩ := hpart ((y * w + x) * strideBytes fmt) (strideBytes fmt)
    obtain ⟨c, hc⟩ := hpart (w * n * strideBytes fmt + (y / 2 * (w / 2) + x / 2) * (2 * strideBytes fmt)) (2 * strideBytes fmt)
    rw [hl, hc]
    rfl
  · rw [Option.isSome_map]
    exact whole_isSome (h.part _ _)

theorem filterColour_isSome (p : ConvertPayload) {src : Nat → Nat → Option Rgba} (h : ∀ x y, (src x y).isSome = true) (x y : Nat) :
    (filterColour p src x y).isSome = true := by
  unfold filterColour
  split
  extract_lets u v tap i j taps q
  have htap (i j : Int) : ∃ c, tap i j = some c := Option.isSome_iff_exists.1 (h _ _)
  have hsome (c : Rgba) : (some c).isSome = true := rfl
  split
  · exact h _ _
  · split
    · obtain ⟨a, ha⟩ := htap i j
      obtain ⟨b, hb⟩ := htap (i + 1) j
      obtain ⟨c, hc⟩ := htap i (j + 1)
      obtain ⟨d, hd⟩ := htap (i + 1) (j + 1)
      rw [ha, hb, hc, hd]
      exact hsome _
    · rw [if_neg]
      · exact hsome _
      · simp only [List.any_eq_true, not_exists, not_and]
        intro e he hnone
        obtain ⟨k, -, rfl⟩ := List.mem_map.1 he
        obtain ⟨c, hc⟩ := htap (i - 1 + (k % 4 : Nat)) (j - 1 + (k / 4 : Nat))
        rw [hc] at hnone
        cases hnone

theorem cellsOf_whole (n : Nat) {v : Option Nat} (h : v.isSome = true) : Whole (cellsOf n v) := by
  obtain ⟨k, rfl⟩ := Option.isSome_iff_exists.1 h
  intro b hb
  obtain ⟨c, -, rfl⟩ := List.mem_map.1 hb
  rfl

theorem meanColour_isSome {a b c d : Option Rgba} (ha : a.isSome = true) (hb : b.isSome = true) (hc : c.isSome = true) (hd : d.isSome = true) :
    (meanColour [a, b, c, d]).isSome = true := by
  obtain ⟨a, rfl⟩ := Option.isSome_iff_exists.1 ha
  obtain ⟨b, rfl⟩ := Option.isSome_iff_exists.1 hb
  obtain ⟨c, rfl⟩ := Option.isSome_iff_exists.1 hc
  obtain ⟨d, rfl⟩ := Option.isSome_iff_exists.1 hd
  rfl

theorem Whole.append {a b : List (Option Byte)} (ha : Whole a) (hb : Whole b) : Whole (a ++ b) :=
  fun x hx => (List.mem_append.1 hx).elim (ha x) (hb x)

theorem whole_flatMap {α : Type} {l : List α} {f : α → List (Option Byte)} (h : ∀ a ∈ l, Whole (f a)) : Whole (l.flatMap f) := by
  intro b hb
  obtain ⟨a, ha, hba⟩ := List.mem_flatMap.1 hb
  exact h a ha b hba

theorem rectBytes_whole (fmt matrix w n : Nat) (pad : Nat → Nat → Byte) {c : Nat → Nat → Option Rgba} (h : ∀ x y, (c x y).isSome = true) :
    Whole (rectBytes fmt matrix w n pad c) := by
  unfold rectBytes
  dsimp only
  split
  · refine (whole_flatMap fun k _ => cellsOf_whole _ ?_).append (whole_flatMap fun k _ => cellsOf_whole _ ?_)
    · rw [Option.isSome_map]
      exact h _ _
    · rw [Option.isSome_map]
      exact meanColour_isSome (h _ _) (h _ _) (h _ _) (h _ _)
  · refine whole_flatMap fun k _ => cellsOf_whole _ ?_
    rw [Option.isSome_map]
    exact h _ _

/-- A conversion of whole bytes loses none. -/
theorem convertBytes_whole (s : State) (i j : Nat) (p : ConvertPayload) {bs : List (Option Byte)} (h : Whole bs) :
    Whole (convertBytes s i j p bs) := by
  unfold convertBytes
  dsimp only
  split
  · exact whole_flatMap fun k _ => h.part _ _
  · exact rectBytes_whole _ _ _ _ _ fun x y => filterColour_isSome p (fun x y => cellColour_isSome h _ _ _ _ _ _) x y

/-! ## A conversion that only moves one line of pixels -/

theorem centre_floor {k w : Nat} (hk : k < w) : (centreIn k w w).floor = k := by
  have hcentre : centreIn k w w = (((2 * k + 1) * w : Nat) : ℚ) / ((2 * w : Nat) : ℚ) := by
    unfold centreIn
    rw [Nat.max_eq_right (by omega)]
    push_cast
    rfl
  have hdiv : (2 * k + 1) * w / (2 * w) = k := by
    rw [Nat.mul_comm 2 w, ← Nat.div_div_eq_div_mul, Nat.mul_div_cancel _ (by omega)]
    omega
  have hfloor := Rat.floor_natCast_div_natCast ((2 * k + 1) * w) (2 * w)
  rw [hcentre]
  exact hfloor.trans (by rw [← Int.natCast_div, hdiv])

/-- Pixel by pixel, a whole line of bytes. -/
theorem flatMap_take {α : Type} (bs : List α) (n w : Nat) : (List.range w).flatMap (fun k => (bs.drop (k * n)).take n) = bs.take (w * n) := by
  induction w with
  | zero => simp
  | succ w ih => rw [List.range_succ, List.flatMap_append, ih, List.flatMap_singleton, Nat.succ_mul, List.take_add]

theorem convertBytes_line {s : State} {i j : Nat} {p : ConvertPayload} (bs : List (Option Byte))
    (hformat : getN s (K.surfFormat j) = getN s (K.surfFormat i)) (hyuv : isYuv (getN s (K.surfFormat i)) = false)
    (hfilter : p.filter.toNat = 0) (hrot : p.rot.toNat = 0) (hflags : p.flags.toNat = 0) (hw : p.srect.w = p.drect.w)
    (hsh : p.srect.h.toNat = 1) (hdh : p.drect.h.toNat = 1) :
    convertBytes s i j p bs = bs.take (p.drect.w.toNat * strideBytes (getN s (K.surfFormat i))) := by
  have hmoves : convertMoves (getN s (K.surfFormat j)) (getN s (K.surfFormat i)) p = true := by
    simp [convertMoves, hfilter, hformat, hyuv]
  have hturned : turnedSize p = (p.drect.w.toNat, 1) := by
    simp [turnedSize, hrot, hw, hsh]
  have hfrom (x y : Nat) : convertFrom p x y = (x, y) := by
    simp [convertFrom, hrot, hflags, turnBack, bitOf]
  unfold convertBytes
  dsimp only
  rw [hmoves, if_pos rfl, hturned, hdh, Nat.mul_one, hformat, ← flatMap_take]
  refine List.flatMap_congr fun k hk => ?_
  have hlt := List.mem_range.1 hk
  have hx : held p.drect.w.toNat (centreIn (k % p.drect.w.toNat) p.drect.w.toNat p.drect.w.toNat).floor = k := by
    rw [Nat.mod_eq_of_lt hlt, centre_floor hlt, held, Int.toNat_natCast]
    omega
  have hy (c : Int) : held 1 c = 0 := Nat.min_zero _
  rw [hx, hy, hfrom]
  simp

section
variable {s : State} {h : CmdHdr} {p : ConvertPayload}

/-- The runs of a CONVERT's source, and of its destination. -/
def convertSource (s : State) (p : ConvertPayload) : List Run :=
  rectRuns s (slotOf p.src.toNat) p.srect.x.toNat p.srect.y.toNat p.srect.w.toNat p.srect.h.toNat

def convertDest (s : State) (h : CmdHdr) (p : ConvertPayload) : List Run :=
  rectRuns s (slotOf h.surface.toNat) p.drect.x.toNat p.drect.y.toNat p.drect.w.toNat p.drect.h.toNat

theorem exec_convert_refused (hf : Fetches s h 0x21 true)
    (hbad : convertOk s (getN s (K.ringOwner h.ring)) h.surface.toNat p = false) :
    exec (.convert h p) s = .next (completeOpen (fetched s h 0x21 p.bytes) (ticketOf s h 0x21) 3) := by
  have hok : convertOk (fetched s h 0x21 p.bytes) (ticketOf s h 0x21).func h.surface.toNat p = false := hbad
  show execConvert h p s = _
  unfold execConvert
  rw [beginCmd_fetches hf]
  dsimp only
  rw [hok, Bool.not_false, if_pos rfl]

/-- The bytes of the source as they are read. -/
def convertRead (s : State) (p : ConvertPayload) : List (Option Byte) :=
  (runCells (convertSource s p)).map (fun o => some (surfByte s (slotOf p.src.toNat) o))

theorem convert_moves (hf : Fetches s h 0x21 true) (hcalm : CalmMemory s)
    (hgood : convertOk s (getN s (K.ringOwner h.ring)) h.surface.toNat p = true) (hi : inRank s (slotOf h.surface.toNat))
    (hj : inRank s (slotOf p.src.toNat)) : ∃ u v, MovesBytes (fetched s h 0x21 p.bytes) u ∧
      StoresCells (fetched s h 0x21 p.bytes) v (slotOf h.surface.toNat) ((runCells (convertDest s h p)).zip
        (convertBytes u (slotOf h.surface.toNat) (slotOf p.src.toNat) p (convertRead s p))) ∧
      exec (.convert h p) s = .next (completeOpen v (ticketOf s h 0x21) 0) := by
  have hok : convertOk (fetched s h 0x21 p.bytes) (ticketOf s h 0x21).func h.surface.toNat p = true := hgood
  have hcalm' := calm_fetched (h := h) hcalm 0x21 p.bytes
  have hi' : inRank (fetched s h 0x21 p.bytes) (slotOf h.surface.toNat) := hi
  have hj' : inRank (fetched s h 0x21 p.bytes) (slotOf p.src.toNat) := hj
  have hdest : rectRuns (fetched s h 0x21 p.bytes) (slotOf h.surface.toNat) p.drect.x.toNat p.drect.y.toNat p.drect.w.toNat p.drect.h.toNat =
      convertDest s h p := rfl
  have hsource : rectRuns (fetched s h 0x21 p.bytes) (slotOf p.src.toNat) p.srect.x.toNat p.srect.y.toNat p.srect.w.toNat p.srect.h.toNat =
      convertSource s p := rfl
  have hbytes : (runCells (convertSource s p)).map (fun o => some (surfByte (fetched s h 0x21 p.bytes) (slotOf p.src.toNat) o)) =
      convertRead s p := rfl
  have hwhole : Whole (convertRead s p) := fun b hb => by
    obtain ⟨o, -, rfl⟩ := List.mem_map.1 hb
    rfl
  have hexec : exec (.convert h p) s = execConvert h p s := rfl
  have hread := readCells_calm hcalm' hj' (runCells (convertSource s p))
  rw [hbytes] at hread
  have htouched := movesBytes_touchRank (fetched s h 0x21 p.bytes) hj'
  have hstored := moved_stores hcalm' hi' hj' (runCells (convertSource s p))
    (zip_isSome (places := runCells (convertDest s h p)) (convertBytes_whole (touchRank (fetched s h 0x21 p.bytes)
      (rankOfUnit (fetched s h 0x21 p.bytes) (surfOf (fetched s h 0x21 p.bytes) (slotOf p.src.toNat)).unit))
      (slotOf h.surface.toNat) (slotOf p.src.toNat) p hwhole))
  rw [hread] at hstored
  refine ⟨_, _, htouched, hstored, ?_⟩
  rw [hexec]
  unfold execConvert
  rw [beginCmd_fetches hf]
  dsimp only
  rw [hok, hdest, hsource, Bool.not_true, if_neg (by decide), hread]

/-- One line converted pixel by pixel is the source's line. -/
theorem convert_line {u v : State} {i j b : Nat} (htouched : MovesBytes (fetched s h 0x21 p.bytes) u) (hi : i < 2048) (hj : j < 2048)
    (hsrc : slotOf p.src.toNat = j) (hdst : slotOf h.surface.toNat = i)
    (hstored : StoresCells (fetched s h 0x21 p.bytes) v i ((runCells (convertDest s h p)).zip (convertBytes u i j p (convertRead s p))))
    (hyuv : isYuv (getN s (K.surfFormat i)) = false) (hformat : getN s (K.surfFormat j) = getN s (K.surfFormat i))
    (hlin : getN s (K.surfLayout i) = 0) (hlin' : getN s (K.surfLayout j) = 0) (hb : b = strideBytes (getN s (K.surfFormat i)))
    (hfilter : p.filter.toNat = 0) (hrot : p.rot.toNat = 0) (hflags : p.flags.toNat = 0) (hw : p.srect.w = p.drect.w)
    (hsh : p.srect.h.toNat = 1) (hdh : p.drect.h.toNat = 1) {k : Nat} (hk : k < p.drect.w.toNat * b) :
    surfByte v i (pixelOffset s i p.drect.x.toNat p.drect.y.toNat + k) =
      surfByte s j (pixelOffset s j p.srect.x.toNat p.srect.y.toNat + k) := by
  have hkept {q : Nat} (hq : q < 2048) : getN u (K.surfFormat q) = getN s (K.surfFormat q) :=
    htouched.getN (not_accessKey (by decide) (.inl (by decide))) (by
      simp only [noteKey, K.dictNotifyDrop, K.regVoteFix, K.regVoteBad, K.kaolinCanDrop, K.logOut, K.surfFormat, objKey]
      omega)
  have hdest : runCells (convertDest s h p) = placesFrom (pixelOffset s i p.drect.x.toNat p.drect.y.toNat) (p.drect.w.toNat * b) := by
    rw [convertDest, hdst, hdh, rectRuns_line hyuv hlin, ← hb, runCells_line]
  have hread : convertRead s p = (List.range (p.drect.w.toNat * b)).map
      (fun k => some (surfByte s j (pixelOffset s j p.srect.x.toNat p.srect.y.toNat + k))) := by
    rw [convertRead, convertSource, hsrc, hsh, hw, rectRuns_line (by rw [hformat]; exact hyuv) hlin', hformat, ← hb, runCells_line,
      placesFrom, List.map_map]
    rfl
  rw [hdest, convertBytes_line _ (by rw [hkept hi, hkept hj]; exact hformat) (by rw [hkept hi]; exact hyuv) hfilter hrot hflags hw hsh hdh,
    hkept hi, ← hb, hread, List.take_of_length_le (by simp)] at hstored
  exact line_stored hstored hk

end

/-! ## The obligation -/

/-- Settles O40: on memory without errors a copy or conversion that is allowed stores its bytes and completes; one that is not ends with
FAULT. -/
theorem copyAndConvert : Obligations.CopyAndConvert := by
  unfold Obligations.CopyAndConvert
  refine ⟨fun s h p hf hcalm hok hr hsrc => ?_, fun s h p hf hbad => ?_, fun s h p i b hf hcalm hok hi hyuv hlin hr hsrc hb hline => ?_,
    fun s h p hf hcalm hok hi hj => ?_, fun s h p hf hbad => ?_⟩
  · obtain ⟨v, hv⟩ := copy_moves hf hcalm hok hr hsrc
    obtain ⟨hdone, hobjs, hdram, -⟩ := moved_completeR (n := runBytes (destRuns s h p)) hf hv.moves
    exact ⟨_, hv.exec, hdone, fun hk => hdram.trans (hv.toHost hk), hobjs⟩
  · obtain ⟨hdone, hobjs, hch⟩ := refused_done p.bytes hf
    exact ⟨_, exec_copy_refused hf hbad, hdone, hobjs, hch⟩
  · obtain ⟨v, hv⟩ := copy_moves hf hcalm hok (hi ▸ hr) hsrc
    obtain ⟨-, -, -, hbytes⟩ := moved_completeR (n := runBytes (destRuns s h p)) hf hv.moves
    obtain ⟨hin, hacross, hfill, hrest⟩ := copy_line hv hi hok hyuv hlin hb hline
    exact ⟨_, hv.exec, fun hk k hlt => (hbytes _ _).trans (hin hk k hlt), fun hk hlin' _ k hlt => (hbytes _ _).trans (hacross hk hlin' k hlt),
      fun hk k hlt => (hbytes _ _).trans (hfill hk k hlt), fun hk o ho => (hbytes _ _).trans (hrest hk o ho)⟩
  · obtain ⟨u, v, htouched, hstored, hexec⟩ := convert_moves hf hcalm hok hi hj
    obtain ⟨hdone, hobjs, -, hbytes⟩ := moved_completeOpen hf hstored.moves
    refine ⟨_, hexec, hdone, ?_, hobjs⟩
    rintro i j b rfl rfl hyuv hformat hlin hlin' hb hfilter hrot hflags hw hsh hdh k hk
    exact (hbytes _ _).trans (convert_line htouched (Nat.mod_lt _ (by decide)) (Nat.mod_lt _ (by decide)) rfl rfl hstored hyuv hformat hlin
      hlin' hb hfilter hrot hflags hw hsh hdh hk)
  · obtain ⟨hdone, hobjs, hch⟩ := refused_done p.bytes hf
    exact ⟨_, exec_convert_refused hf hbad, hdone, hobjs, hch⟩

end Sys2Proof.Proofs.Copies

/-!
PROOFS. What the start of a function's reset leaves of the other functions' resets, of vf.enable and of the rings' owners.
-/

namespace Sys2Proof.Proofs.FunctionResets

open Sys2Proof.Machine
open Sys2Proof.Proofs.Answers
open Sys2Proof.Proofs.ModeFrame (Agrees)
open Sys2Proof.Proofs.MemoryErrors (agrees_ite)

/-! ## Answers and events -/

theorem sameResets_hostWrite (s : State) (f a : Nat) (b : List Byte) : SameResets s (hostWrite s f a b) :=
  sameResets_of_funcs ((hostWrite_ch (P := [.host, .notes]) (by decide) (Changes.refl _ s)).funcs (by decide))

theorem sameResets_complete (s : State) (t : Ticket) (st x d : Nat) : SameResets s (complete s t st x d) := by
  have hwrite (c : HeldCompletion) : SameResets s (writeCompletion s c) := by
    unfold writeCompletion
    extract_lets h j a s₁ s₂
    have h₁ : SameResets s s₁ := sameResets_hostWrite s _ _ _
    have h₂ : SameResets s s₂ := h₁.trans (sameResets_of_funcs rfl)
    clear_value s₂
    split
    · exact h₂.trans (sameResets_raiseVec s₂ _ _)
    · exact h₂
  unfold complete
  split
  · unfold completeAlways
    split
    · exact .refl s
    · dsimp only
      split
      · exact sameResets_of_funcs rfl
      · exact hwrite _
  · exact .refl s

theorem sameResets_completeR (s : State) (t : Ticket) (st x : Nat) : SameResets s (completeR s t st x) :=
  (sameResets_of_funcs (t := draw s) rfl).trans (sameResets_complete (draw s) t st x _)

/-! ## The frame of a reset -/

/-- The rings' owners and enables, and vf.enable of every function. -/
def resetKeys : List Nat := (List.range 256).map K.ringOwner ++ (List.range 256).map K.ringEnable ++ (List.range 64).map K.vfEnable

theorem mem_resetKeys {k : Nat} : k ∈ resetKeys ↔
    (∃ h, h < 256 ∧ (k = K.ringOwner h ∨ k = K.ringEnable h)) ∨ ∃ v, v < 64 ∧ k = K.vfEnable v := by
  simp only [resetKeys, List.mem_append, List.mem_map, List.mem_range]
  grind

/-- A key that is none of them by its index or its sub-index. -/
theorem notReset {idx sub : Nat} (h : sub < 256 ∧ (idx < 0x3100 ∨ 0x3200 ≤ idx ∨ (sub ≠ 1 ∧ sub ≠ 10)) ∧
    (sub ≠ 1 ∨ idx < 0x6000 ∨ 0x7000 ≤ idx ∨ idx % 64 ≠ 0)) : objKey idx sub ∉ resetKeys := by
  intro hk
  obtain ⟨j, hj, heq | heq⟩ | ⟨v, hv, heq⟩ := mem_resetKeys.1 hk
  · simp only [K.ringOwner, objKey] at heq
    omega
  · simp only [K.ringEnable, objKey] at heq
    omega
  · simp only [K.vfEnable, objKey] at heq
    omega

theorem reset_not_noteKey : ∀ k ∈ resetKeys, ¬ noteKey k := by
  intro k hk
  obtain ⟨j, hj, rfl | rfl⟩ | ⟨v, hv, rfl⟩ := mem_resetKeys.1 hk <;>
    · simp only [noteKey, K.dictNotifyDrop, K.regVoteFix, K.regVoteBad, K.kaolinCanDrop, K.logOut, K.vfEnable, K.ringOwner, K.ringEnable,
        objKey]
      omega

/-- A step that leaves the functions' epochs and resets, and the objects above, as they are. -/
structure ResetFrame (s t : State) : Prop where
  resets : SameResets s t
  objs : Agrees resetKeys s t

namespace ResetFrame

theorem refl (s : State) : ResetFrame s s := ⟨.refl s, fun _ _ => rfl⟩

theorem trans {s t u : State} (h : ResetFrame s t) (h' : ResetFrame t u) : ResetFrame s u :=
  ⟨h.resets.trans h'.resets, h.objs.trans h'.objs⟩

variable {r s t : State}

theorem of_changes {P : List Part} (h : Changes P s t) (hP : Part.funcs ∉ P ∧ Part.objs ∉ P) : ResetFrame s t :=
  ⟨sameResets_of_funcs (h.funcs hP.1), .of_changes h hP.2 reset_not_noteKey⟩

theorem putV {k : Nat} {v : Val} (h : ResetFrame r s) (hk : k ∉ resetKeys) : ResetFrame r (putV s k v) :=
  h.trans ⟨sameResets_of_funcs rfl, ColdStart.agrees_putV (fun _ _ => rfl) hk⟩

theorem putN {idx sub n : Nat} (h : ResetFrame r s) (hk : sub < 256 ∧ (idx < 0x3100 ∨ 0x3200 ≤ idx ∨ (sub ≠ 1 ∧ sub ≠ 10)) ∧
    (sub ≠ 1 ∨ idx < 0x6000 ∨ 0x7000 ≤ idx ∨ idx % 64 ≠ 0)) :
    ResetFrame r (putN s (objKey idx sub) n) := h.putV (notReset hk)

theorem writeV {idx sub : Nat} {v : Val} (h : ResetFrame r s) (hk : sub < 256 ∧ (idx < 0x3100 ∨ 0x3200 ≤ idx ∨ (sub ≠ 1 ∧ sub ≠ 10)) ∧
    (sub ≠ 1 ∨ idx < 0x6000 ∨ 0x7000 ≤ idx ∨ idx % 64 ≠ 0)) :
    ResetFrame r (writeV s (objKey idx sub) v) := by
  have hch : Changes [.objs] s (Machine.writeV s (objKey idx sub) v) := writeV_ch (by decide) (Changes.refl _ s)
  exact h.trans ⟨sameResets_of_funcs (hch.funcs (by decide)),
    fun j hj => getV_writeV_ne s v (fun e => notReset hk (e ▸ hj))⟩

theorem foldN {f : State → Nat → State} (l : List Nat) (h : ResetFrame r s) (hf : ∀ x, ∀ a ∈ l, ResetFrame x (f x a)) :
    ResetFrame r (foldN l f s) := by
  unfold Machine.foldN
  induction l generalizing s with
  | nil => exact h
  | cons a l ih => exact ih (h.trans (hf s a (by simp))) fun x b hb => hf x b (by simp [hb])

theorem foldl {α : Type} {f : State → α → State} (l : List α) (h : ResetFrame r s) (hf : ∀ x a, ResetFrame x (f x a)) :
    ResetFrame r (l.foldl f s) := by
  induction l generalizing s with
  | nil => exact h
  | cons a l ih => exact ih (h.trans (hf s a))

theorem ite {c : Prop} [Decidable c] {a b : State} (ha : ResetFrame r a) (hb : ResetFrame r b) : ResetFrame r (if c then a else b) := by
  split
  · exact ha
  · exact hb

theorem emit (s : State) (cls code inst : Nat) (detail : List Byte) (fs : List Nat) : ResetFrame s (emit s cls code inst detail fs) := by
  have hch := FrameEvents.emit_changes s cls code inst detail fs
  exact ⟨sameResets_emit s cls code inst detail fs, .of_changes hch (by decide) reset_not_noteKey⟩

theorem complete (s : State) (k : Ticket) (st x d : Nat) : ResetFrame s (complete s k st x d) := by
  have hch : Changes LayersAndCommits.answerParts s (Machine.complete s k st x d) := complete_ch (List.Subset.refl _) (Changes.refl _ s)
  exact ⟨sameResets_complete s k st x d, .of_changes hch (by decide) reset_not_noteKey⟩

theorem draw (s : State) : ResetFrame s (draw s) := of_changes (draw_ch (List.Subset.refl _) (Changes.refl _ s)) (by decide)

end ResetFrame

/-! ## The scheduler -/

theorem resetFrame_tilthEntry (s : State) (kind reason flags subject old new : Nat) :
    ResetFrame s (tilthEntry s kind reason flags subject old new) := by
  unfold tilthEntry
  extract_lets seq e
  generalize lastN 256 (s.tilthLog ++ [e]) = log
  exact ResetFrame.putN (s := { s with tilthLog := log }) ⟨sameResets_of_funcs rfl, fun _ _ => rfl⟩ (by omega)

theorem resetFrame_setTarget (s : State) (c n : Nat) : ResetFrame s (setTarget s c n) := by
  unfold setTarget
  extract_lets old kept missed s₁ s₂
  have h₁ : ResetFrame s s₁ := .ite ((ResetFrame.refl s).putN (by omega)) (.refl s)
  have h₂ : ResetFrame s s₂ := (h₁.putN (by omega)).putV (notReset (by omega))
  exact .ite h₂ (h₂.trans (resetFrame_tilthEntry s₂ _ _ _ _ _ _))

theorem resetFrame_arbitrate (s : State) : ResetFrame s (arbitrate s) :=
  ResetFrame.foldl _ (.refl s) fun x e => resetFrame_setTarget x e.1 e.2

theorem resetFrame_removePass (s : State) (c id : Nat) : ResetFrame s (removePass s c id) := by
  have htaken : ResetFrame s (SubmittingWork.passTaken s c id) := by
    unfold SubmittingWork.passTaken
    exact ((ResetFrame.refl s).putN (by omega)).trans (.of_changes (modCtx_ch (List.Subset.refl _) (Changes.refl _ _)) (by decide))
  exact htaken.trans (.of_changes (SubmittingWork.removePass_changes s c id) (by decide))

theorem resetFrame_dropCtx (s : State) (c : Nat) : ResetFrame s (dropCtx s c) :=
  ResetFrame.foldN _ (.refl s) fun x id _ => resetFrame_removePass x c id

/-! ## The blocks that a reset acts on -/

theorem resetFrame_failWait (s : State) (h cause : Nat) : ResetFrame s (failWait s h cause) := by
  unfold failWait
  split
  · exact .refl s
  · next w _ =>
    have hring : ResetFrame s (modRing s h (fun r => { r with wait := none, dropUntilWait := true })) :=
      .of_changes (modRing_ch (List.Subset.refl _) (Changes.refl _ s)) (by decide)
    exact (hring.trans (.draw _)).trans (.complete _ w.ticket 3 cause _)

theorem resetFrame_abandonFence (s : State) (slot : Nat) : ResetFrame s (abandonFence s slot) :=
  ResetFrame.foldN _ ((ResetFrame.refl s).putN (by omega)) fun x h _ => resetFrame_failWait x h 2

theorem resetFrame_endFreeze (s : State) (v : Nat) : ResetFrame s (endFreeze s v) := by
  unfold endFreeze
  extract_lets st m s₁ s₂
  have h₁ : ResetFrame s s₁ :=
    ((ResetFrame.refl s).writeV (by omega)).putN (by omega)
  have h₂ : ResetFrame s s₂ := h₁.trans ⟨sameResets_of_funcs rfl, fun _ _ => rfl⟩
  exact .ite (.refl s) (.ite ((h₂.putN (by omega)).trans (.emit _ 8 0x0804 v _ [])) h₂)

theorem resetFrame_hap (s : State) (x : Hap) : ResetFrame s { s with hap := x } := ⟨sameResets_of_funcs rfl, fun _ _ => rfl⟩

theorem resetFrame_playEnded (s : State) (id n outcome : Nat) : ResetFrame s (playEnded s id n outcome) :=
  ResetFrame.foldl _ (resetFrame_hap s _) fun x p => .complete x p.ticket _ _ _

theorem resetFrame_effectEnds (s : State) (n : Nat) (e : Effect) (outcome : Nat) : ResetFrame s (effectEnds s n e outcome) := by
  unfold effectEnds
  extract_lets s₁
  have h₁ : ResetFrame s s₁ := by
    unfold s₁
    split
    · exact (ResetFrame.refl s).putN (by omega)
    · exact (ResetFrame.refl s).putN (by omega)
  split
  · exact h₁.trans (resetFrame_playEnded s₁ _ n outcome)
  · exact .ite (h₁.trans (.emit s₁ 5 0x0500 n _ _)) h₁

theorem resetFrame_endRunning (s : State) (n outcome : Nat) : ResetFrame s (endRunning s n outcome) := by
  unfold endRunning
  split
  · exact .refl s
  · exact (resetFrame_hap s _).trans (resetFrame_effectEnds (closeDrive s n) n _ outcome)

theorem resetFrame_startEffect (s : State) (n : Nat) (e : Effect) : ResetFrame s (startEffect s n e) := by
  unfold startEffect
  extract_lets beyond s₁ s₂ s₃
  have h₁ : ResetFrame s s₁ := resetFrame_hap s _
  have h₂ : ResetFrame s s₂ := (h₁.putN (by omega)).putN (by omega)
  have h₃ : ResetFrame s s₃ := (h₂.trans (.draw s₂)).putN (by omega)
  exact .ite (h₃.putN (by omega)) h₃

theorem resetFrame_setQueue (s : State) (n : Nat) (q : List Effect) : ResetFrame s (setQueue s n q) := resetFrame_hap s _

theorem resetFrame_startHead (s : State) (n : Nat) : ResetFrame s (startHead s n) := by
  unfold startHead
  split
  · exact .refl s
  · next e q _ =>
    have hended := (resetFrame_endRunning s n effDone).trans (resetFrame_setQueue (endRunning s n effDone) n q)
    exact .ite (hended.trans (resetFrame_startEffect (setQueue (endRunning s n effDone) n q) n e)) (.refl s)

theorem resetFrame_overlayHead (s : State) (n : Nat) : ResetFrame s (overlayHead s n) := by
  unfold overlayHead
  split
  · exact .refl s
  · exact .ite (resetFrame_startHead s n) (.refl s)

theorem resetFrame_beginBraking (s : State) (n : Nat) : ResetFrame s (beginBraking s n) :=
  ((ResetFrame.refl s).putN (by omega)).trans (resetFrame_hap _ _)

theorem resetFrame_flrHaptics (s : State) (f : Nat) : ResetFrame s (flrHaptics s f) := by
  refine ResetFrame.foldN _ (resetFrame_hap s _) fun x n _ => ?_
  extract_lets c x₁
  have h₁ : ResetFrame x x₁ := (resetFrame_hap x _).trans (resetFrame_hap _ _)
  clear_value x₁
  split
  · next e _ =>
    split
    · extract_lets x₂
      have h₂ : ResetFrame x x₂ := h₁.trans (resetFrame_hap x₁ _)
      exact .ite h₂ ((h₂.trans (resetFrame_beginBraking x₂ n)).trans (resetFrame_overlayHead (beginBraking x₂ n) n))
    · exact h₁
  · exact h₁

theorem resetFrame_streamStops (s : State) (capture : Bool) (n : Nat) : ResetFrame s (streamStops s capture n) :=
  .ite (.refl s) (((ResetFrame.refl s).putN (by omega)).trans (.emit _ 6 0x0601 n _ _))

theorem resetFrame_flrSound (s : State) (f : Nat) : ResetFrame s (flrSound s f) :=
  ResetFrame.foldl _ (.refl s) fun x e => .ite (resetFrame_streamStops x e.1 e.2) (.refl x)

theorem resetFrame_flrSpreads (s : State) (f : Nat) : ResetFrame s (flrSpreads s f) := by
  refine ResetFrame.foldN _ (.refl s) fun x i _ => ?_
  extract_lets bits x₁
  have h₁ : ResetFrame x x₁ := ResetFrame.foldN _ (.refl x) fun y k hk =>
    .ite (ResetFrame.foldN _ (.refl y) fun z sub hsub => (ResetFrame.refl z).writeV ?_) (.refl y)
  · exact .ite h₁ (h₁.putN (by omega))
  · simp only [List.mem_cons, List.not_mem_nil, or_false] at hsub
    omega

/-- A layer's writable fields take what is in force. -/
theorem resetFrame_layerField {r s : State} {p k sub n : Nat} (hp : p < 8) (hk : k < 6) (h : ResetFrame r s) (hsub : sub < 256) :
    ResetFrame r (writeN s (layerKey p k sub) n) := h.writeV (by omega)

theorem resetFrame_flrLayers (s : State) (f : Nat) : ResetFrame s (flrLayers s f) := by
  refine ResetFrame.foldN _ (.refl s) fun x p hp => ?_
  extract_lets bits x₁ pend x₂
  have h₁ : ResetFrame x x₁ := by
    refine ResetFrame.foldN _ (.refl x) fun y k hk => ?_
    split
    · extract_lets a w
      have hw {z : State} {sub n : Nat} (h : ResetFrame y z) (hsub : sub < 256) : ResetFrame y (w z sub n) :=
        resetFrame_layerField (List.mem_range.1 hp) (List.mem_range.1 hk) h hsub
      clear_value w
      iterate 11 refine hw ?_ (by decide)
      exact .refl y
    · exact .refl y
  have h₂ : ResetFrame x x₂ := h₁.putN (by omega)
  exact .ite (.refl x) (h₂.trans (.of_changes (modPort_ch (List.Subset.refl _) (Changes.refl _ x₂)) (by decide)))

/-! ## The start of a reset -/

/-- The function's record at the start of its reset. -/
def resetBegun (s : State) (f : Nat) : State :=
  modFunc s f (fun x => { x with epoch := (x.epoch + 1) % 2 ^ 32, flrSince := some s.now, flrDone := false, spoofed := false })

theorem resetFrame_flrStart (s : State) (f : Nat) : ResetFrame (resetBegun s f) (flrStart s f) := by
  unfold flrStart
  extract_lets vf s₁ s₂ portal s₃ s₄ s₅ s₆ s₇ s₈
  have h₁ : ResetFrame (resetBegun s f) s₁ := .refl s₁
  clear_value s₁
  have h₂ : ResetFrame (resetBegun s f) s₂ :=
    .ite ((h₁.putN (by omega)).trans (resetFrame_endFreeze (bump s₁ (K.vfFlrCount f)) f)) h₁
  clear_value s₂
  have h₃ : ResetFrame (resetBegun s f) s₃ := h₂.trans ⟨sameResets_of_funcs rfl, fun _ _ => rfl⟩
  clear_value s₃
  have h₄ : ResetFrame (resetBegun s f) s₄ := h₃.trans (.of_changes (closeWhere_ch (List.Subset.refl _) (Changes.refl _ s₃)) (by decide))
  clear_value s₄
  have h₅ : ResetFrame (resetBegun s f) s₅ := ResetFrame.foldN _ h₄ fun x h _ =>
    .of_changes (modRing_ch (List.Subset.refl _) (Changes.refl _ x)) (by decide)
  clear_value s₅
  have h₆ : ResetFrame (resetBegun s f) s₆ := ResetFrame.foldN _ h₅ fun x c _ =>
    (resetFrame_dropCtx x c).trans (.of_changes (modCtx_ch (List.Subset.refl _) (Changes.refl _ _)) (by decide))
  clear_value s₆
  have h₇ : ResetFrame (resetBegun s f) s₇ := ResetFrame.foldN _ h₆ fun x i _ => resetFrame_abandonFence x i
  clear_value s₇
  have h₈ : ResetFrame (resetBegun s f) s₈ := by
    refine .ite ?_ h₇
    have hlayers := h₇.trans (resetFrame_flrLayers s₇ f)
    have htouch := hlayers.trans (.of_changes (flrTouch_ch (f := f) (List.Subset.refl _) (Changes.refl _ (flrLayers s₇ f))) (by decide))
    have hhaptics := htouch.trans (resetFrame_flrHaptics (flrTouch (flrLayers s₇ f) f) f)
    have hsound := hhaptics.trans (resetFrame_flrSound (flrHaptics (flrTouch (flrLayers s₇ f) f) f) f)
    exact hsound.trans (resetFrame_flrSpreads (flrSound (flrHaptics (flrTouch (flrLayers s₇ f) f) f) f) f)
  exact h₈.trans (resetFrame_arbitrate s₈)

/-- A reset advances the function's epoch and begins now; every other function's epoch and reset stay. -/
theorem flrStart_spec (s : State) (f : Nat) : (funcOf (flrStart s f) f).epoch = ((funcOf s f).epoch + 1) % 2 ^ 32 ∧
    (funcOf (flrStart s f) f).flrSince = some s.now ∧ (∀ g, g ≠ f → (funcOf (flrStart s f) g).epoch = (funcOf s g).epoch) ∧
    Agrees resetKeys s (flrStart s f) := by
  obtain ⟨hresets, hobjs⟩ := resetFrame_flrStart s f
  obtain ⟨hepoch, hsince⟩ := hresets f
  have hself : funcOf (resetBegun s f) f = _ := funcOf_modFunc ..
  refine ⟨hepoch.trans (congrArg Func.epoch hself), hsince.trans (congrArg Func.flrSince hself), fun g hg => ?_, hobjs⟩
  have hother : funcOf (resetBegun s f) g = funcOf s g := funcOf_modFunc_ne _ _ hg
  rw [(hresets g).1, hother]

theorem vfOn_of_agrees {s t : State} (hobjs : Agrees resetKeys s t) (htransit : t.transit = s.transit) {v : Nat} (hv : v < 64) :
    vfOn t v = vfOn s v := by
  have hkey : getN t (K.vfEnable v) = getN s (K.vfEnable v) :=
    congrArg Val.toNat (hobjs _ (mem_resetKeys.2 (.inr ⟨v, hv, rfl⟩)))
  unfold vfOn getB
  rw [hkey, htransit]

theorem vfOn_flrStart (s : State) (f : Nat) {v : Nat} (hv : v < 64) : vfOn (flrStart s f) v = vfOn s v :=
  vfOn_of_agrees (flrStart_spec s f).2.2.2 ((flrStart_ch (f := f) (List.Subset.refl _) (Changes.refl _ s)).transit (by decide)) hv

/-- Resets of several functions: each of them once, no other. -/
theorem epoch_flrStarts (l : List Nat) (hl : l.Nodup) (s : State) (g : Nat) : (funcOf (foldN l flrStart s) g).epoch =
    if g ∈ l then ((funcOf s g).epoch + 1) % 2 ^ 32 else (funcOf s g).epoch := by
  induction l generalizing s with
  | nil => rw [if_neg (by simp)]; rfl
  | cons f l ih =>
    obtain ⟨hf, hl⟩ := List.nodup_cons.1 hl
    obtain ⟨hself, -, hother, -⟩ := flrStart_spec s f
    refine (ih hl (flrStart s f)).trans ?_
    by_cases hg : g = f
    · subst hg
      rw [if_neg hf, if_pos (by simp), hself]
    · rw [hother g hg]
      simp [hg]

end Sys2Proof.Proofs.FunctionResets

/-!
PROOFS. The end of a function's reset: its rings, its record, and what a disabled VF gives back.
-/

namespace Sys2Proof.Proofs.ResetEnds

open Sys2Proof.Machine
open Sys2Proof.Proofs.Answers
open Sys2Proof.Proofs.ModeFrame (Agrees)
open Sys2Proof.Proofs.FunctionResets

/-! ## The blocks at the end of a reset -/

theorem mem_ownedBy {s : State} {lo hi f i : Nat} (h : i ∈ ownedBy s lo hi f) : lo + i < hi := by
  obtain ⟨e, he, rfl⟩ := List.mem_map.1 h
  have hcond := (List.mem_filter.1 he).2
  simp only [Bool.and_eq_true, decide_eq_true_eq] at hcond
  omega

theorem resetFrame_flrCtx (s : State) (c : Nat) : ResetFrame s (flrCtx s c) := by
  unfold flrCtx
  extract_lets gen s₁ s₂ s₃
  have h₁ : ResetFrame s s₁ := ⟨sameResets_of_funcs rfl, fun _ _ => rfl⟩
  have h₂ : ResetFrame s s₂ := ResetFrame.foldN _ h₁ fun x sub hsub => (ResetFrame.refl x).writeV (by
    simp only [List.mem_cons, List.not_mem_nil, or_false] at hsub
    omega)
  have h₃ : ResetFrame s s₃ := ResetFrame.foldN _ h₂ fun x sub hsub => (ResetFrame.refl x).putV (notReset (by
    simp only [List.mem_cons, List.not_mem_nil, or_false] at hsub
    omega))
  exact (h₃.trans (.of_changes (modCtx_ch (List.Subset.refl _) (Changes.refl _ s₃)) (by decide))).putN (by omega)

theorem resetFrame_flrFence (s : State) {i : Nat} (hi : i < 256) : ResetFrame s (flrFence s i) := by
  have howner : ResetFrame s (writeN s (K.fenceOwner i) 0xFF) := (ResetFrame.refl s).writeV (by omega)
  have hgen : ResetFrame s { (writeN s (K.fenceOwner i) 0xFF) with fenceGen := tset s.fenceGen i (nextGen (tget s.fenceGen i 0)) } :=
    howner.trans ⟨sameResets_of_funcs rfl, fun _ _ => rfl⟩
  exact (hgen.putN (by omega)).putN (by omega)

theorem resetFrame_releaseReset (s : State) : ResetFrame s (releaseReset s) := by
  refine ResetFrame.foldN _ (.refl s) fun x i _ => .ite (.refl x) ?_
  have hput := ((ResetFrame.refl x).writeV (idx := 0x3800 + i) (sub := 8) (v := .num (b2n false)) (by omega)).putN
    (idx := 0x3800 + i) (sub := 9) (n := 0) (by omega)
  exact hput.trans ⟨sameResets_of_funcs rfl, fun _ _ => rfl⟩

theorem resetFrame_flrSurfaces (s : State) (f : Nat) : ResetFrame s (flrSurfaces s f) := by
  unfold flrSurfaces
  refine ResetFrame.trans (ResetFrame.foldN _ (.refl s) fun x i _ => ?_) (resetFrame_releaseReset _)
  exact .of_changes (modSurf_ch (List.Subset.refl _) (Changes.refl _ x)) (by decide)

theorem resetFrame_flrSoundDone (s : State) (f : Nat) : ResetFrame s (flrSoundDone s f) :=
  ResetFrame.foldl _ (.refl s) fun x e => .ite (ResetFrame.foldN _ (.refl x) fun y sub hsub => (ResetFrame.refl y).writeV (by
    simp only [List.mem_cons, List.not_mem_nil, or_false] at hsub
    unfold streamIdx
    split <;> omega)) (.refl x)

/-! ## The rings -/

theorem writeVoted_getV_ne (s : State) {k n j : Nat} (h : j ≠ k) : getV (writeVoted s k n) j = getV s j := getV_writeV_ne s _ h

/-- The ring's objects that a reset sets back. -/
def ringBack (s : State) (h : Nat) : State :=
  foldN [3, 4, 5, 6, 7, 8, 9] (fun s sub => writeV s (objKey (0x3100 + h) sub) (defaultVal (objKey (0x3100 + h) sub))) s

theorem ringBack_spec (s : State) (h : Nat) : Agrees resetKeys s (ringBack s h) ∧ Changes [.objs] s (ringBack s h) := by
  constructor
  · exact (ResetFrame.foldN _ (.refl s) fun x sub hsub => (ResetFrame.refl x).writeV (by
      simp only [List.mem_cons, List.not_mem_nil, or_false] at hsub
      omega)).objs
  · exact foldN_ch _ (Changes.refl _ s) fun x sub hx => writeV_ch (by decide) hx

/-- What a ring holds once its function's reset has ended. -/
structure RingBack (s : State) (h : Nat) : Prop where
  disabled : getB s (K.ringEnable h) = false
  head : (ringOf s h).head = 0
  tail : (ringOf s h).tail = 0

/-- The ring's record at the end of a reset. -/
def ringEmptied (r : Ring) : Ring := { era := r.era, dberr := r.dberr }

/-- The ring's record once the ring was disabled. -/
def ringDisabled (r : Ring) : Ring :=
  { r with era := r.era + 1, wait := none, held := [], dropUntilWait := false, dropFrame := none, resize := none, stopped := false }

theorem flrRing_eq (s : State) (h : Nat) : flrRing s h = ringBack (modRing (disableRing s h) h ringEmptied) h := rfl

theorem flrRing_objs (s : State) {h : Nat} {k : Nat} (hk : k ∈ resetKeys) (hne : k ≠ K.ringEnable h) :
    getV (flrRing s h) k = getV s k := by
  rw [flrRing_eq, (ringBack_spec _ h).1 k hk]
  exact writeVoted_getV_ne s hne

theorem flrRing_self (s : State) {h : Nat} (hh : h < 256) : RingBack (flrRing s h) h := by
  obtain ⟨hobjs, hch⟩ := ringBack_spec (modRing (disableRing s h) h ringEmptied) h
  have hring : ringOf (flrRing s h) h = ringEmptied (ringOf (disableRing s h) h) := by
    rw [flrRing_eq, ringOf, hch.rings (by decide), ← ringOf, ringOf_modRing]
  have hkey : getN (flrRing s h) (K.ringEnable h) = getN (writeN s (K.ringEnable h) 0) (K.ringEnable h) :=
    congrArg Val.toNat (hobjs _ (mem_resetKeys.2 (.inl ⟨h, hh, .inr rfl⟩)))
  refine ⟨?_, by rw [hring]; rfl, by rw [hring]; rfl⟩
  rw [getB, hkey, getN_writeN]
  rfl

theorem flrRing_other (s : State) {h j : Nat} (hj : j ≠ h) (hb : RingBack s j) (hlt : j < 256) : RingBack (flrRing s h) j := by
  have hring : ringOf (flrRing s h) j = ringOf s j := by
    rw [flrRing_eq, ringOf, (ringBack_spec _ h).2.rings (by decide), ← ringOf, ringOf_modRing_ne _ _ hj]
    have hdisabled : ringOf (disableRing s h) j = ringOf (writeVoted s (K.ringEnable h) 0) j :=
      (show _ = ringOf (modRing (writeVoted s (K.ringEnable h) 0) h ringDisabled) j from rfl).trans (ringOf_modRing_ne _ _ hj)
    rw [hdisabled, ringOf, (writeVoted_ch (List.Subset.refl _) (Changes.refl _ s)).rings (by decide), ← ringOf]
  have hkey : getN (flrRing s h) (K.ringEnable j) = getN s (K.ringEnable j) :=
    congrArg Val.toNat (flrRing_objs s (mem_resetKeys.2 (.inl ⟨j, hlt, .inr rfl⟩)) (by simp only [K.ringEnable, objKey]; omega))
  exact ⟨by rw [getB, hkey, ← getB]; exact hb.disabled, by rw [hring]; exact hb.head, by rw [hring]; exact hb.tail⟩

/-- After the function's rings were set back each of them is, and no owner and no function's enable moved. -/
theorem flrRings_spec (l : List Nat) (s : State) :
    (∀ h, h < 256 → (h ∈ l ∨ RingBack s h) → RingBack (foldN l flrRing s) h) ∧
    (∀ k ∈ resetKeys, (∀ h, k ≠ K.ringEnable h) → getV (foldN l flrRing s) k = getV s k) ∧ SameResets s (foldN l flrRing s) := by
  induction l generalizing s with
  | nil => exact ⟨fun h _ hh => hh.resolve_left (by simp), fun _ _ _ => rfl, .refl s⟩
  | cons i l ih =>
    obtain ⟨hback, hobjs, hresets⟩ := ih (flrRing s i)
    have hstep : SameResets s (flrRing s i) :=
      sameResets_of_funcs ((flrRing_ch (h := i) (List.Subset.refl _) (Changes.refl _ s)).funcs (by decide))
    have hfold : foldN (i :: l) flrRing s = foldN l flrRing (flrRing s i) := List.foldl_cons ..
    rw [hfold]
    refine ⟨fun h hlt hh => hback h hlt ?_, fun k hk hne => (hobjs k hk hne).trans (flrRing_objs s hk (hne i)), hstep.trans hresets⟩
    by_cases hi : h = i
    · subst hi
      exact .inr (flrRing_self s hlt)
    · refine hh.imp (fun hmem => (List.mem_cons.1 hmem).resolve_left hi) fun hb => flrRing_other s hi hb hlt

/-! ## A function's own rings -/

theorem tfind_mem {α : Type} {t : Tab α} {k : Nat} {v : α} (h : tfind t k = some v) : (k, v) ∈ t := by
  induction t with
  | nil => cases h
  | cons e t ih =>
    obtain ⟨k', v'⟩ := e
    unfold tfind at h
    split at h
    · next heq =>
      cases h
      rw [heq]
      exact List.mem_cons_self
    · exact List.mem_cons_of_mem _ (ih h)

theorem ringOwner_default : ∀ h : Fin 256, defaultVal (K.ringOwner h) = .num 0xFF := by decide +kernel

/-- A ring whose owner is the function is among its rings. -/
theorem mem_ringsOf {s : State} {f h : Nat} (hh : h < 256) (hf : f ≠ 0xFF) (howner : getV s (K.ringOwner h) = .num f) : h ∈ ringsOf s f := by
  have hdflt := ringOwner_default ⟨h, hh⟩
  unfold getV at howner
  split at howner
  · next c hc =>
    refine List.mem_map.2 ⟨_, List.mem_filter.2 ⟨tfind_mem hc, ?_⟩, ?_⟩
    · rw [Bool.and_eq_true, decide_eq_true_eq]
      refine ⟨?_, by rw [howner]; exact beq_self_eq_true _⟩
      simp only [K.ringOwner, objKey]
      omega
    · simp only [K.ringOwner, objKey]
      omega
  · rw [hdflt] at howner
    cases howner
    exact absurd rfl hf

/-! ## What a VF gives back -/

/-- The VF's rings go back to the pool. -/
def ringsFreed (l : List Nat) (s : State) : State := foldN l (fun s h => writeN s (K.ringOwner h) 0xFF) s

theorem ringsFreed_spec (l : List Nat) (s : State) :
    (∀ h, (h ∈ l ∨ getN s (K.ringOwner h) = 0xFF) → getN (ringsFreed l s) (K.ringOwner h) = 0xFF) ∧
    (∀ h, getN (ringsFreed l s) (K.ringEnable h) = getN s (K.ringEnable h)) ∧ Changes [.objs] s (ringsFreed l s) := by
  induction l generalizing s with
  | nil => exact ⟨fun h hh => hh.resolve_left (by simp), fun _ => rfl, Changes.refl _ s⟩
  | cons i l ih =>
    obtain ⟨howner, henable, hch⟩ := ih (writeN s (K.ringOwner i) 0xFF)
    have hfold : ringsFreed (i :: l) s = ringsFreed l (writeN s (K.ringOwner i) 0xFF) := List.foldl_cons ..
    have hstep : Changes [.objs] s (writeN s (K.ringOwner i) 0xFF) := writeN_ch (by decide) (Changes.refl _ s)
    rw [hfold]
    refine ⟨fun h hh => howner h ?_, fun h => (henable h).trans (getN_writeN_ne _ _ ?_), hstep.trans hch⟩
    · by_cases hi : h = i
      · exact .inr (by rw [hi, getN_writeN])
      · refine hh.imp (fun hmem => (List.mem_cons.1 hmem).resolve_left hi) fun hff => ?_
        rw [getN_writeN_ne _ _ (by simp only [K.ringOwner, objKey]; omega), hff]
    · simp only [K.ringEnable, K.ringOwner, objKey]
      omega

theorem resetFrame_grantCtx (s : State) (i v : Nat) : ResetFrame s (grantCtx s i v) := by
  unfold grantCtx
  extract_lets s₁ s₂
  have h₁ : ResetFrame s s₁ := (resetFrame_dropCtx s i).putN (by omega)
  have h₂ : ResetFrame s s₂ := .ite h₁ ((h₁.putN (by omega)).putN (by omega))
  exact h₂.trans (.of_changes (modCtx_ch (List.Subset.refl _) (Changes.refl _ s₂)) (by decide))

/-- An owner in a block of objects below the functions' blocks. -/
theorem resetFrame_freed {r s : State} {idx n : Nat} (h : ResetFrame r s) (hidx : (idx < 0x3100 ∨ 0x3200 ≤ idx) ∧ (idx < 0x6000 ∨ 0x7000 ≤ idx)) :
    ResetFrame r (writeN s (objKey idx 1) n) := h.writeV (by omega)

theorem resetFrame_foldl {α : Type} {f : State → α → State} (l : List α) {r s : State} (h : ResetFrame r s)
    (hf : ∀ x, ∀ a ∈ l, ResetFrame x (f x a)) : ResetFrame r (l.foldl f s) := by
  induction l generalizing s with
  | nil => exact h
  | cons a l ih => exact ih (h.trans (hf s a (by simp))) fun x b hb => hf x b (by simp [hb])

theorem resetFrame_freeStreams (s : State) (f : Nat) : ResetFrame s (freeStreams s f) := by
  have hbound : ∀ e ∈ allStreams, e.2 < 64 := by decide
  refine resetFrame_foldl _ (.refl s) fun x e he => .ite (resetFrame_freed (.refl x) ?_) (.refl x)
  have := hbound e he
  unfold streamIdx
  split <;> omega

/-- Everything but the rings that a VF gives back. -/
def othersFreed (s : State) (v : Nat) : State :=
  let s := foldN (ctxsOf s v) (fun s c => grantCtx (writeN s (K.ctxOwner c) 0xFF) c 0xFF) s
  let s := foldN (ownedBy s 0x3500 0x3600 v) (fun s i => writeN s (K.progOwner i) 0xFF) s
  let s := foldN (ownedBy s 0x3800 0x4000 v) (fun s i => writeN s (K.surfOwner i) 0xFF) s
  let s := foldN (List.range 8) (fun s p => foldN (List.range 6) (fun s k =>
    if layerOwner s p k = v then writeN s (K.layerOwner p k) 0xFF else s) s) s
  let s := foldN (List.range 8) (fun s i => foldN (List.range 6) (fun s k =>
    if getN s (K.spreadLayerOwner i k) = v then writeN s (K.spreadLayerOwner i k) 0xFF else s) s) s
  let s := freeStreams s v
  foldN (List.range 16) (fun s q => foldN [1, 2, 3] (fun s sub =>
    writeV s (objKey (0x6008 + 0x40 * v + q) sub) (defaultVal (objKey (0x6008 + 0x40 * v + q) sub))) s) s

theorem releaseVf_eq (s : State) (v : Nat) : releaseVf s v = othersFreed (ringsFreed (ringsOf s v) s) v := rfl

theorem resetFrame_othersFreed (s : State) (v : Nat) : ResetFrame s (othersFreed s v) := by
  unfold othersFreed
  extract_lets s₁ s₂ s₃ s₄ s₅ s₆
  have h₁ : ResetFrame s s₁ := ResetFrame.foldN _ (.refl s) fun x c hc =>
    (resetFrame_freed (.refl x) (by have := mem_ownedBy hc; omega)).trans (resetFrame_grantCtx _ c 0xFF)
  have h₂ : ResetFrame s s₂ := ResetFrame.foldN _ h₁ fun x i hi => resetFrame_freed (.refl x) (by have := mem_ownedBy hi; omega)
  have h₃ : ResetFrame s s₃ := ResetFrame.foldN _ h₂ fun x i hi => resetFrame_freed (.refl x) (by have := mem_ownedBy hi; omega)
  have h₄ : ResetFrame s s₄ := ResetFrame.foldN _ h₃ fun x p hp => ResetFrame.foldN _ (.refl x) fun y k hk =>
    .ite (resetFrame_freed (.refl y) (by have := List.mem_range.1 hp; have := List.mem_range.1 hk; omega)) (.refl y)
  have h₅ : ResetFrame s s₅ := ResetFrame.foldN _ h₄ fun x p hp => ResetFrame.foldN _ (.refl x) fun y k hk =>
    .ite (resetFrame_freed (.refl y) (by omega)) (.refl y)
  have h₆ : ResetFrame s s₆ := h₅.trans (resetFrame_freeStreams s₅ v)
  exact ResetFrame.foldN _ h₆ fun x q hq => ResetFrame.foldN _ (.refl x) fun y sub hsub => (ResetFrame.refl y).writeV (by
    have := List.mem_range.1 hq
    simp only [List.mem_cons, List.not_mem_nil, or_false] at hsub
    omega)

/-- A step that leaves the rings, their owners and their enables as they are. -/
structure RingFrame (s t : State) : Prop where
  owner : ∀ h, h < 256 → getN t (K.ringOwner h) = getN s (K.ringOwner h)
  enable : ∀ h, h < 256 → getN t (K.ringEnable h) = getN s (K.ringEnable h)
  rings : t.rings = s.rings

theorem RingFrame.trans {s t u : State} (h : RingFrame s t) (h' : RingFrame t u) : RingFrame s u :=
  ⟨fun i hi => (h'.owner i hi).trans (h.owner i hi), fun i hi => (h'.enable i hi).trans (h.enable i hi), h'.rings.trans h.rings⟩

theorem RingFrame.of_frame {s t : State} (h : ResetFrame s t) {P : List Part} (hch : Changes P s t) (hP : Part.rings ∉ P) : RingFrame s t :=
  ⟨fun i hi => congrArg Val.toNat (h.objs _ (mem_resetKeys.2 (.inl ⟨i, hi, .inl rfl⟩))),
    fun i hi => congrArg Val.toNat (h.objs _ (mem_resetKeys.2 (.inl ⟨i, hi, .inr rfl⟩))), hch.rings hP⟩

theorem RingFrame.back {s t : State} (h : RingFrame s t) {i : Nat} (hi : i < 256) (hb : RingBack s i) : RingBack t i := by
  have hring : ringOf t i = ringOf s i := by rw [ringOf, h.rings, ← ringOf]
  exact ⟨by rw [getB, h.enable i hi, ← getB]; exact hb.disabled, by rw [hring]; exact hb.head, by rw [hring]; exact hb.tail⟩

theorem ringFrame_arbitrate (s : State) : RingFrame s (arbitrate s) :=
  .of_frame (resetFrame_arbitrate s) (arbitrate_ch (List.Subset.refl _) (Changes.refl _ s)) (by decide)

/-- The enable that was queued runs, or is taken back. -/
def enableEnded (s : State) (v : Nat) : State :=
  let ok := grantsFit s v
  let s := if ok then s else writeB s (K.vfEnable v) false
  if ok then createVf (resolved s 0xFF (0x6000 + 0x40 * v) 1) v else arbitrate (dropTransit s (K.vfEnable v))

theorem vfDisabled_eq (s : State) (v : Nat) : vfDisabled s v =
    if !(releaseVf s v).transit.contains (K.vfEnable v) then arbitrate (releaseVf s v) else enableEnded (releaseVf s v) v := rfl

theorem enableEnded_frame (s : State) (v : Nat) : RingFrame s (enableEnded s v) ∧ SameResets s (enableEnded s v) := by
  unfold enableEnded
  extract_lets ok s₁
  have h₁ : RingFrame s s₁ ∧ SameResets s s₁ := by
    unfold s₁
    split
    · exact ⟨⟨fun _ _ => rfl, fun _ _ => rfl, rfl⟩, .refl s⟩
    · have hch : Changes [.objs] s (writeB s (K.vfEnable v) false) := writeB_ch (by decide) (Changes.refl _ s)
      refine ⟨⟨fun i hi => getN_writeN_ne s _ ?_, fun i hi => getN_writeN_ne s _ ?_, hch.rings (by decide)⟩,
        sameResets_of_funcs (hch.funcs (by decide))⟩
      · simp only [K.ringOwner, K.vfEnable, objKey]
        omega
      · simp only [K.ringEnable, K.vfEnable, objKey]
        omega
  obtain ⟨hrings, hresets⟩ := h₁
  clear_value s₁
  split
  · have hsaid : ResetFrame s₁ (resolved s₁ 0xFF (0x6000 + 0x40 * v) 1) :=
      ResetFrame.trans (t := dropTransit s₁ (objKey (0x6000 + 0x40 * v) 1)) ⟨sameResets_of_funcs rfl, fun _ _ => rfl⟩ (.emit _ 10 0x0A00 0xFF _ [])
    have hsaidRings : RingFrame s₁ (resolved s₁ 0xFF (0x6000 + 0x40 * v) 1) :=
      .of_frame hsaid (resolved_ch (List.Subset.refl _) (Changes.refl _ s₁)) (by decide)
    generalize resolved s₁ 0xFF (0x6000 + 0x40 * v) 1 = s₂ at hsaid hsaidRings
    have hmod : SameResets s₂ (modFunc s₂ v (fun x => { x with dropped := 0 })) := sameResets_modFunc s₂ v fun _ => ⟨rfl, rfl⟩
    have hmodRings : RingFrame s₂ (modFunc s₂ v (fun x => { x with dropped := 0 })) := ⟨fun _ _ => rfl, fun _ _ => rfl, rfl⟩
    exact ⟨((hrings.trans hsaidRings).trans hmodRings).trans (ringFrame_arbitrate _),
      ((hresets.trans hsaid.resets).trans hmod).trans (resetFrame_arbitrate _).resets⟩
  · have hdrop : RingFrame s₁ (dropTransit s₁ (K.vfEnable v)) := ⟨fun _ _ => rfl, fun _ _ => rfl, rfl⟩
    have hdropResets : SameResets s₁ (dropTransit s₁ (K.vfEnable v)) := sameResets_of_funcs rfl
    exact ⟨(hrings.trans hdrop).trans (ringFrame_arbitrate _), (hresets.trans hdropResets).trans (resetFrame_arbitrate _).resets⟩

/-- A disabled VF gives its rings back, and its rings' settings stay. -/
theorem vfDisabled_spec (s : State) (v : Nat) : (∀ h, h < 256 → h ∈ ringsOf s v → getN (vfDisabled s v) (K.ringOwner h) = 0xFF) ∧
    (∀ h, h < 256 → RingBack s h → RingBack (vfDisabled s v) h) ∧ SameResets s (vfDisabled s v) := by
  obtain ⟨howner, henable, hch⟩ := ringsFreed_spec (ringsOf s v) s
  have hothers := resetFrame_othersFreed (ringsFreed (ringsOf s v) s) v
  have hrings : (releaseVf s v).rings = s.rings := (releaseVf_ch (List.Subset.refl _) (Changes.refl _ s)).rings (by decide)
  have hresets : SameResets s (releaseVf s v) :=
    sameResets_of_funcs ((releaseVf_ch (v := v) (List.Subset.refl _) (Changes.refl _ s)).funcs (by decide))
  have hend : RingFrame (releaseVf s v) (vfDisabled s v) ∧ SameResets (releaseVf s v) (vfDisabled s v) := by
    rw [vfDisabled_eq]
    split
    · exact ⟨ringFrame_arbitrate _, (resetFrame_arbitrate _).resets⟩
    · exact enableEnded_frame _ v
  rw [← releaseVf_eq] at hothers
  obtain ⟨hframe, hsame⟩ := hend
  refine ⟨fun h hh hmem => ?_, fun h hh hb => hframe.back hh ?_, hresets.trans hsame⟩
  · have hkey := congrArg Val.toNat (hothers.objs _ (mem_resetKeys.2 (.inl ⟨h, hh, .inl rfl⟩)))
    exact (hframe.owner h hh).trans (hkey.trans (howner h (.inl hmem)))
  · have hkey := congrArg Val.toNat (hothers.objs _ (mem_resetKeys.2 (.inl ⟨h, hh, .inr rfl⟩)))
    have hring : ringOf (releaseVf s v) h = ringOf s h := by rw [ringOf, hrings, ← ringOf]
    refine ⟨?_, by rw [hring]; exact hb.head, by rw [hring]; exact hb.tail⟩
    rw [getB, show getN (releaseVf s v) (K.ringEnable h) = _ from hkey.trans (henable h), ← getB]
    exact hb.disabled

/-! ## The whole end -/

/-- The rings, then the other blocks, set back. -/
def ringsBack (s : State) (f : Nat) : State := foldN (ringsOf s f) flrRing s

def ctxsBack (s : State) (f : Nat) : State := foldN (ctxsOf s f) flrCtx s

def fencesBack (s : State) (f : Nat) : State := foldN (ownedBy s 0x3700 0x3800 f) flrFence s

def blocksBack (s : State) (f : Nat) : State :=
  if 0 < f && f < 64 then flrSurfaces (flrSoundDone (fencesBack (ctxsBack (ringsBack s f) f) f) f) f
  else fencesBack (ctxsBack (ringsBack s f) f) f

/-- The function's record once its reset has ended. -/
def resetEnded (us : Nat) (x : Func) : Func := { x with flrSince := none, flrDone := true, flrUs := us }

/-- The end as it is told. -/
def endTold (s : State) (f us : Nat) : State :=
  emit (modFunc s f (resetEnded us)) 8 0x0800 f (leBytes 1 f ++ leBytes 4 (funcOf (modFunc s f (resetEnded us)) f).epoch ++ leBytes 2 us) [f]

theorem flrComplete_eq {s : State} {f began : Nat} (h : (funcOf s f).flrSince = some began) : ∃ u, u =
    endTold (blocksBack s f) f (min ((s.now - began) / 1000) 65535) ∧
    flrComplete s f = if 0 < f && f < 64 && !vfOn u f then vfDisabled u f else u := by
  refine ⟨_, rfl, ?_⟩
  unfold flrComplete
  rw [h]
  rfl

theorem transit_dropTransit (s : State) (c v : Nat) :
    (dropTransit s (K.ctxEnable c)).transit.contains (K.vfEnable v) = s.transit.contains (K.vfEnable v) := by
  have hne : K.vfEnable v ≠ K.ctxEnable c := by
    simp only [K.vfEnable, K.ctxEnable, objKey]
    omega
  rw [Bool.eq_iff_iff]
  simp [dropTransit, hne]

/-- A step that leaves the rings and their owners as they are, the functions' resets, and the enables with those that are queued. -/
structure BlockFrame (s t : State) : Prop where
  frame : ResetFrame s t
  rings : t.rings = s.rings
  transit : ∀ v, t.transit.contains (K.vfEnable v) = s.transit.contains (K.vfEnable v)

theorem BlockFrame.trans {s t u : State} (h : BlockFrame s t) (h' : BlockFrame t u) : BlockFrame s u :=
  ⟨h.frame.trans h'.frame, h'.rings.trans h.rings, fun v => (h'.transit v).trans (h.transit v)⟩

theorem BlockFrame.of_changes {s t : State} (h : ResetFrame s t) {P : List Part} (hch : Changes P s t)
    (hP : Part.rings ∉ P ∧ Part.transit ∉ P) : BlockFrame s t := ⟨h, hch.rings hP.1, fun v => by rw [hch.transit hP.2]⟩

theorem BlockFrame.foldN {f : State → Nat → State} (l : List Nat) (hf : ∀ x, ∀ a ∈ l, BlockFrame x (f x a)) (s : State) :
    BlockFrame s (foldN l f s) := by
  unfold Machine.foldN
  induction l generalizing s with
  | nil => exact ⟨.refl s, rfl, fun _ => rfl⟩
  | cons a l ih => exact (hf s a (by simp)).trans (ih (fun x b hb => hf x b (by simp [hb])) (f s a))

theorem blockFrame_flrCtx (s : State) (c : Nat) : BlockFrame s (flrCtx s c) := by
  have hch : Changes [.objs, .ctxs] (dropTransit s (K.ctxEnable c)) (flrCtx s c) := by
    unfold flrCtx
    extract_lets gen s₁ s₂ s₃
    have h₂ : Changes [.objs, .ctxs] s₁ s₂ := foldN_ch _ (Changes.refl _ s₁) fun x sub hx => writeV_ch (by decide) hx
    have h₃ : Changes [.objs, .ctxs] s₁ s₃ := foldN_ch _ h₂ fun x sub hx => putV_ch (by decide) hx
    clear_value s₃
    exact putN_ch (by decide) (modCtx_ch (by decide) h₃)
  exact ⟨resetFrame_flrCtx s c, hch.rings (by decide), fun v => by rw [hch.transit (by decide), transit_dropTransit]⟩

theorem blockFrame_fences (s : State) (f : Nat) : BlockFrame s (fencesBack s f) :=
  BlockFrame.foldN _ (fun x i hi => .of_changes (resetFrame_flrFence x (by have := mem_ownedBy hi; omega))
    (flrFence_ch (List.Subset.refl _) (Changes.refl _ x)) (by decide)) s

theorem blockFrame_blocks (s : State) (f : Nat) : BlockFrame (ringsBack s f) (blocksBack s f) := by
  have hfences := (BlockFrame.foldN (ctxsOf (ringsBack s f) f) (fun x c _ => blockFrame_flrCtx x c) (ringsBack s f)).trans
    (blockFrame_fences (ctxsBack (ringsBack s f) f) f)
  unfold blocksBack
  generalize fencesBack (ctxsBack (ringsBack s f) f) f = u at hfences
  split
  · have hsound : BlockFrame u (flrSoundDone u f) :=
      .of_changes (resetFrame_flrSoundDone u f) (flrSoundDone_ch (List.Subset.refl _) (Changes.refl _ u)) (by decide)
    have hsurfaces : BlockFrame (flrSoundDone u f) (flrSurfaces (flrSoundDone u f) f) :=
      .of_changes (resetFrame_flrSurfaces _ f) (flrSurfaces_ch (List.Subset.refl _) (Changes.refl _ _)) (by decide)
    exact (hfences.trans hsound).trans hsurfaces
  · exact hfences

/-- What the end of a reset, as it is told, leaves: the function's rings set back, every owner, the enables, the other functions. -/
structure EndSpec (s u : State) (f : Nat) : Prop where
  back : ∀ h, h < 256 → h ∈ ringsOf s f → RingBack u h
  keys : ∀ k ∈ resetKeys, (∀ h, k ≠ K.ringEnable h) → getV u k = getV s k
  epoch : (funcOf u f).epoch = (funcOf s f).epoch
  since : (funcOf u f).flrSince = none
  transit : ∀ v, u.transit.contains (K.vfEnable v) = s.transit.contains (K.vfEnable v)

theorem endTold_frame (s : State) (f us : Nat) : BlockFrame (modFunc s f (resetEnded us)) (endTold s f us) :=
  .of_changes (.emit _ 8 0x0800 f _ [f]) (FrameEvents.emit_changes _ 8 0x0800 f _ [f]) (by decide)

theorem endSpec_told (s : State) (f us : Nat) : EndSpec s (endTold (blocksBack s f) f us) f := by
  obtain ⟨hback, hkeys, hresets⟩ := flrRings_spec (ringsOf s f) s
  have hringsTransit : (ringsBack s f).transit = s.transit :=
    (foldN_ch (P := [.objs, .votes, .rings, .signals]) _ (Changes.refl _ s) fun x h hx => flrRing_ch (by decide) hx).transit (by decide)
  have hblocks := blockFrame_blocks s f
  have htold := endTold_frame (blocksBack s f) f us
  have hmod : funcOf (modFunc (blocksBack s f) f (resetEnded us)) f = resetEnded us (funcOf (blocksBack s f) f) := funcOf_modFunc ..
  generalize endTold (blocksBack s f) f us = u at htold
  obtain ⟨hepoch, hsince⟩ := htold.frame.resets f
  rw [hmod] at hepoch hsince
  have hkeep (k : Nat) (hk : k ∈ resetKeys) : getV u k = getV (ringsBack s f) k := (htold.frame.objs k hk).trans (hblocks.frame.objs k hk)
  have hrings : u.rings = (ringsBack s f).rings := htold.rings.trans hblocks.rings
  refine ⟨fun h hh hmem => ?_, fun k hk hne => (hkeep k hk).trans (hkeys k hk hne), ?_, hsince, fun v => ?_⟩
  · have hb : RingBack (ringsBack s f) h := hback h hh (.inl hmem)
    have hring : ringOf u h = ringOf (ringsBack s f) h := by rw [ringOf, hrings, ← ringOf]
    have hkey := congrArg Val.toNat (hkeep _ (mem_resetKeys.2 (.inl ⟨h, hh, .inr rfl⟩)))
    refine ⟨?_, by rw [hring]; exact hb.head, by rw [hring]; exact hb.tail⟩
    rw [getB, show getN u (K.ringEnable h) = _ from hkey]
    exact hb.disabled
  · exact hepoch.trans (((hblocks.frame.resets f).1).trans (hresets f).1)
  · exact (htold.transit v).trans ((hblocks.transit v).trans (by rw [hringsTransit]))

theorem vfOn_of_end {s u : State} {f : Nat} (h : EndSpec s u f) {v : Nat} (hv : v < 64) : vfOn u v = vfOn s v := by
  have hne : ∀ i, K.vfEnable v ≠ K.ringEnable i := by
    intro i
    simp only [K.vfEnable, K.ringEnable, objKey]
    omega
  have hkey : getN u (K.vfEnable v) = getN s (K.vfEnable v) :=
    congrArg Val.toNat (h.keys _ (mem_resetKeys.2 (.inr ⟨v, hv, rfl⟩)) hne)
  unfold vfOn getB
  rw [hkey, h.transit v]

/-- The end of a reset. -/
theorem flrComplete_spec {s : State} {f : Fin 65} {began : Nat} (h : (funcOf s f).flrSince = some began) :
    (funcOf (flrComplete s f) f).flrSince = none ∧ (funcOf (flrComplete s f) f).epoch = (funcOf s f).epoch ∧
    (∀ ring, ring < 256 → getV s (K.ringOwner ring) = .num f.val → RingBack (flrComplete s f) ring) ∧
    (f.val = 0 ∨ f.val = 64 ∨ vfOn s f = true → ∀ ring, ring < 256 →
      getN (flrComplete s f) (K.ringOwner ring) = getN s (K.ringOwner ring)) ∧
    (0 < f.val → f.val < 64 → vfOn s f = false → ∀ ring, ring < 256 → getV s (K.ringOwner ring) = .num f.val →
      getN (flrComplete s f) (K.ringOwner ring) = 0xFF) := by
  obtain ⟨u, hu, hend⟩ := flrComplete_eq h
  have hspec := endSpec_told s f (min ((s.now - began) / 1000) 65535)
  rw [← hu] at hspec
  clear hu
  have howner (ring : Nat) (hring : ring < 256) : getV u (K.ringOwner ring) = getV s (K.ringOwner ring) :=
    hspec.keys _ (mem_resetKeys.2 (.inl ⟨ring, hring, .inl rfl⟩)) fun i => by
      simp only [K.ringOwner, K.ringEnable, objKey]
      omega
  have hne : f.val ≠ 0xFF := by omega
  have hmine {v : State} (ring : Nat) (hring : ring < 256) (hv : getV v (K.ringOwner ring) = .num f.val) : ring ∈ ringsOf v f :=
    mem_ringsOf hring hne hv
  by_cases hgone : (0 < f.val && f.val < 64 && !vfOn u f) = true
  · rw [hend, if_pos hgone]
    simp only [Bool.and_eq_true, decide_eq_true_eq, Bool.not_eq_true'] at hgone
    obtain ⟨⟨hlow, hhigh⟩, hoff⟩ := hgone
    rw [vfOn_of_end hspec hhigh] at hoff
    obtain ⟨hfreed, hback, hresets⟩ := vfDisabled_spec u f
    obtain ⟨hepoch, hsince⟩ := hresets f
    refine ⟨hsince.trans hspec.since, hepoch.trans hspec.epoch, fun ring hring hv => hback ring hring (hspec.back ring hring (hmine ring hring hv)),
      fun hcase => ?_, fun _ _ _ ring hring hv => hfreed ring hring (hmine ring hring ((howner ring hring).trans hv))⟩
    obtain hz | hh | hon := hcase
    · omega
    · omega
    · rw [hoff] at hon
      cases hon
  · rw [hend, if_neg hgone]
    refine ⟨hspec.since, hspec.epoch, fun ring hring hv => hspec.back ring hring (hmine ring hring hv),
      fun _ ring hring => congrArg Val.toNat (howner ring hring), fun hlow hhigh hoff => absurd ?_ hgone⟩
    rw [vfOn_of_end hspec hhigh, hoff]
    simp [hlow, hhigh]

end Sys2Proof.Proofs.ResetEnds

/-!
PROOFS. O47: creating, resetting and removing a VF, its grants and its regions.
-/

namespace Sys2Proof.Proofs.VirtualFunctions

open Sys2Proof.Machine
open Sys2Proof.Proofs.ModeFrame (Agrees)
open Sys2Proof.Proofs.AreaWrites (areaWrite_done areaWrite_refused inRange_single)
open Sys2Proof.Proofs.FunctionResets
open Sys2Proof.Proofs.ResetEnds

theorem isMgr_session {s : State} {r : DictReq} {i : Nat} {found : Option Nat} (h : managerSession s i) :
    (sessionCtx s r i found).isMgr = true := by
  unfold WCtx.isMgr sessionCtx
  rw [show (sessOf s i).role = .mgr from h]
  rfl

/-- The row of an object of a VF, from the table of all 63. -/
theorem rowOf_vf {P : Nat → Prop} (h : ∀ v : Fin 63, P (v.val + 1)) {vf : Fin 64} (hvf : vf ≠ 0) : P vf.val := by
  have hpos : 0 < vf.val := Nat.pos_of_ne_zero fun hz => hvf (Fin.ext hz)
  have hv := h ⟨vf.val - 1, by omega⟩
  rwa [show vf.val - 1 + 1 = vf.val by omega] at hv

theorem vf_pos {vf : Fin 64} (hvf : vf ≠ 0) : 0 < vf.val := Nat.pos_of_ne_zero fun hz => hvf (Fin.ext hz)

section
variable {s : State} {r : DictReq} {i : Nat} {vf : Fin 64} (hvf : vf ≠ 0) (hmgr : managerSession s i)
include hvf hmgr

/-! ## vf.enable and vf.flr -/

theorem enable_written {t : State} {st : Status} {n : Nat} (hn : n = 0 ∨ n = 1) (h : AdmittedWrite s r i (K.vfEnable vf) n)
    (hcheck : vfEnableCheck (renewed s i) vf n = .ok) (happly : vfEnableApply (renewed s i) vf (n == 1) = (t, st))
    (hok : st = .ok ∨ st = .intransit) :
    ∃ u, writeObject s r (K.vfEnable vf) n = .next u ∧ answered u r 0x11 st ∧ Changes [.sess, .resp] t u :=
  areaWrite_done (rowOf_vf (P := fun v => rowIs (K.vfEnable v) .bool .rw [(0, 1)] = true) row_vfEnable hvf) (.inl rfl) (by omega) (by decide)
    h (.inl hmgr) (areaAccess_vf (vf_pos hvf) vf.isLt (isMgr_session hmgr)) (by rcases hn with rfl | rfl <;> rfl)
    (by rcases hn with rfl | rfl <;> rfl) ((areaCheck_vf (vf_pos hvf) vf.isLt).trans hcheck) (areaClaims_vf (vf_pos hvf) vf.isLt)
    ((areaApply_vf (vf_pos hvf) vf.isLt).trans happly) hok

end

/-- Creating a VF: its function is enabled and its count of dropped commands begins. -/
def created (s : State) (v : Nat) : State := createVf (writeB s (K.vfEnable v) true) v

theorem vfEnable_inj {v w : Nat} (h : v ≠ w) : K.vfEnable v ≠ K.vfEnable w := by
  simp only [K.vfEnable, objKey]
  omega

/-- The enable of one function alone, written. -/
theorem vfOn_writeB (s : State) {v : Nat} (b : Bool) (w : Nat) :
    vfOn (writeB s (K.vfEnable v) b) w = if w = v then 0 < v && v < 64 && b && !s.transit.contains (K.vfEnable v) else vfOn s w := by
  have htransit : (writeB s (K.vfEnable v) b).transit = s.transit :=
    (writeB_ch (List.Subset.refl _) (Changes.refl _ s)).transit (by decide)
  unfold vfOn
  rw [htransit]
  by_cases hw : w = v
  · subst hw
    rw [if_pos rfl, getB_writeB]
  · rw [if_neg hw, getB, show getN (writeB s (K.vfEnable v) b) (K.vfEnable w) = _ from getN_writeN_ne s _ (vfEnable_inj hw), ← getB]

theorem created_spec (s : State) {v : Nat} (hv : 0 < v ∧ v < 64) (hnot : K.vfEnable v ∉ s.transit) : vfOn (created s v) v = true ∧
    (funcOf (created s v) v).dropped = 0 ∧ (funcOf (created s v) v).epoch = (funcOf s v).epoch ∧
    (∀ w, w ≠ v → vfOn (created s v) w = vfOn s w) := by
  have hfuncs : (writeB s (K.vfEnable v) true).funcs = s.funcs := (writeB_ch (List.Subset.refl _) (Changes.refl _ s)).funcs (by decide)
  have hon (w : Nat) : vfOn (created s v) w = vfOn (writeB s (K.vfEnable v) true) w := by
    by_cases hw : w < 64
    · exact vfOn_of_agrees (s := modFunc (writeB s (K.vfEnable v) true) v (fun x => { x with dropped := 0 })) (resetFrame_arbitrate _).objs
        ((arbitrate_ch (List.Subset.refl _) (Changes.refl _ _)).transit (by decide)) hw
    · simp [vfOn, hw]
  have hfunc : funcOf (created s v) v = { funcOf s v with dropped := 0 } := by
    have harb : (created s v).funcs = (modFunc (writeB s (K.vfEnable v) true) v (fun x => { x with dropped := 0 })).funcs :=
      (arbitrate_ch (List.Subset.refl _) (Changes.refl _ _)).funcs (by decide)
    rw [funcOf, harb, ← funcOf, funcOf_modFunc, funcOf, hfuncs, ← funcOf]
  refine ⟨?_, by rw [hfunc], by rw [hfunc], fun w hw => ?_⟩
  · rw [hon, vfOn_writeB, if_pos rfl]
    simp [hv, hnot]
  · rw [hon, vfOn_writeB, if_neg hw]

theorem enabled_of_vfOn {s : State} {v : Nat} (h : vfOn s v = true) : getB s (K.vfEnable v) = true ∧ s.transit.contains (K.vfEnable v) = false := by
  simp only [vfOn, Bool.and_eq_true, Bool.not_eq_true'] at h
  exact ⟨h.1.2, h.2⟩

/-- What the session's renewal and the answer change. -/
theorem vfOn_answered {P : List Part} {t u : State} (hch : Changes P t u) (hP : Part.objs ∉ P ∧ Part.notes ∉ P ∧ Part.transit ∉ P) (v : Nat) :
    vfOn u v = vfOn t v := by
  unfold vfOn getB
  rw [hch.getN hP.1 hP.2.1, hch.transit hP.2.2]

section
variable {s : State} {r : DictReq} {i : Nat} {vf : Fin 64} (hvf : vf ≠ 0) (hmgr : managerSession s i)
include hvf hmgr

theorem vfEnable_created (h : AdmittedWrite s r i (K.vfEnable vf) 1) (hoff : getB s (K.vfEnable vf) = false)
    (hreset : (funcOf s vf).flrSince = none) (hnot : K.vfEnable vf ∉ s.transit) (hfit : grantsFit s vf = true) :
    ∃ t, exec (.vfEnable r vf) s = .next t ∧ answered t r 0x11 .ok ∧ vfOn t vf = true ∧
      (funcOf t vf).dropped = 0 ∧ (funcOf t vf).epoch = (funcOf s vf).epoch ∧ (∀ v, v ≠ vf.val → vfOn t v = vfOn s v) := by
  have hfit' : grantsFit (renewed s i) vf = true := hfit
  have hcheck : vfEnableCheck (renewed s i) vf 1 = .ok := by
    unfold vfEnableCheck
    rw [hfit', Bool.not_true, Bool.and_false]
    rfl
  have hon : (renewed s i).transit.contains (K.vfEnable vf) = false := by simpa [renewed] using hnot
  have happly : vfEnableApply (renewed s i) vf ((1 : Nat) == 1) = (created (renewed s i) vf, .ok) := by
    unfold vfEnableApply enableWrite
    rw [if_pos (by decide), hon, show (funcOf (renewed s i) vf).flrSince = none from hreset, Option.isSome_none, Bool.false_and,
      if_neg (by decide), if_neg (by decide), show getB (renewed s i) (K.vfEnable vf) = false from hoff, if_neg (by decide)]
    rfl
  obtain ⟨u, hexec, hans, hch⟩ := enable_written hvf hmgr (.inr rfl) h hcheck happly (.inl rfl)
  obtain ⟨hself, hdropped, hepoch, hothers⟩ := created_spec (renewed s i) ⟨vf_pos hvf, vf.isLt⟩ hnot
  have hfunc (v : Nat) : funcOf u v = funcOf (created (renewed s i) vf) v := by rw [funcOf, hch.funcs (by decide), ← funcOf]
  refine ⟨u, hexec, hans, ?_, by rw [hfunc]; exact hdropped, by rw [hfunc]; exact hepoch, fun v hv => ?_⟩
  · exact (vfOn_answered hch (by decide) _).trans hself
  · exact (vfOn_answered hch (by decide) _).trans (hothers v hv)

theorem vfEnable_refused (h : AdmittedWrite s r i (K.vfEnable vf) 1) (hoff : getB s (K.vfEnable vf) = false)
    (hreset : (funcOf s vf).flrSince = none) (hfit : grantsFit s vf = false) :
    ∃ t, exec (.vfEnable r vf) s = .next t ∧ answered t r 0x11 .range ∧ Changes [.fresh, .sess, .resp] s t := by
  have hfit' : grantsFit (renewed s i) vf = false := hfit
  have hcheck : vfEnableCheck (renewed s i) vf 1 = .range := by
    unfold vfEnableCheck
    rw [hfit', show getB (renewed s i) (K.vfEnable vf) = false from hoff, show (funcOf (renewed s i) vf).flrSince = none from hreset]
    rfl
  exact areaWrite_refused (rowOf_vf (P := fun v => rowIs (K.vfEnable v) .bool .rw [(0, 1)] = true) row_vfEnable hvf) (.inl rfl) (by omega)
    (by decide) h (.inl hmgr) (areaAccess_vf (vf_pos hvf) vf.isLt (isMgr_session hmgr)) (by rfl) (by rfl)
    ((areaCheck_vf (vf_pos hvf) vf.isLt).trans hcheck) (.inr rfl) ⟨by decide, by decide⟩ (by decide)

theorem vfEnable_queued (h : AdmittedWrite s r i (K.vfEnable vf) 1) (hoff : getB s (K.vfEnable vf) = false)
    (hreset : (funcOf s vf).flrSince.isSome = true) (hnot : K.vfEnable vf ∉ s.transit) :
    ∃ t, exec (.vfEnable r vf) s = .next t ∧ answered t r 0x11 .intransit ∧ K.vfEnable vf ∈ t.transit ∧ vfOn t vf = false ∧
      getB t (K.vfEnable vf) = true ∧ onlyObjs [K.vfEnable vf] s t ∧ Changes [.objs, .transit, .sess, .resp] s t := by
  have hreset' : (funcOf (renewed s i) vf).flrSince.isSome = true := hreset
  have hoff' : getB (renewed s i) (K.vfEnable vf) = false := hoff
  have hcheck : vfEnableCheck (renewed s i) vf 1 = .ok := by
    unfold vfEnableCheck
    rw [← Option.not_isSome, hreset']
    simp
  have hon : (renewed s i).transit.contains (K.vfEnable vf) = false := by simpa [renewed] using hnot
  have happly : vfEnableApply (renewed s i) vf ((1 : Nat) == 1) =
      (addTransit (writeB (renewed s i) (K.vfEnable vf) true) (K.vfEnable vf), .intransit) := by
    unfold vfEnableApply enableWrite
    rw [if_pos (by decide), hon, hreset', hoff', if_neg (by decide), if_pos (by decide)]
  obtain ⟨u, hexec, hans, hch⟩ := enable_written hvf hmgr (.inr rfl) h hcheck happly (.inr rfl)
  have hmem : K.vfEnable vf ∈ u.transit := by
    rw [hch.transit (by decide)]
    simp [addTransit]
  have happlied : Changes [.objs, .transit, .sess, .resp] s (addTransit (writeB (renewed s i) (K.vfEnable vf) true) (K.vfEnable vf)) :=
    addTransit_ch (by decide) (writeB_ch (by decide) (renewed_changes i (by decide) (Changes.refl _ s)))
  refine ⟨u, hexec, hans, hmem, ?_, ?_, ?_, happlied.trans (hch.mono (by decide))⟩
  · unfold vfOn
    rw [List.contains_iff_mem.2 hmem, Bool.not_true, Bool.and_false]
  · rw [getB, hch.getN (by decide) (by decide), ← getB]
    exact getB_writeB ..
  · have hwritten : onlyObjs [K.vfEnable vf] s (writeB (renewed s i) (K.vfEnable vf) true) :=
      onlyObjs_writeN (t := renewed s i) _ (List.mem_singleton.2 rfl) (onlyObjs_of_eq rfl)
    have hqueued : onlyObjs [K.vfEnable vf] (writeB (renewed s i) (K.vfEnable vf) true)
      (addTransit (writeB (renewed s i) (K.vfEnable vf) true) (K.vfEnable vf)) := onlyObjs_of_eq rfl
    exact onlyObjs_trans (onlyObjs_trans hwritten hqueued) (hch.only (by decide) (by decide) _)

/-- A disable starts the function's reset; the epoch and the instant of its start stand after the answer. -/
theorem vfDisable_done (h : AdmittedWrite s r i (K.vfEnable vf) 0) (hon : vfOn s vf = true) :
    ∃ t, exec (.vfDisable r vf) s = .next t ∧ answered t r 0x11 .ok ∧ vfOn t vf = false ∧
      (funcOf t vf).epoch = ((funcOf s vf).epoch + 1) % 2 ^ 32 ∧ (funcOf t vf).flrSince = some s.now := by
  obtain ⟨hflag, hnot⟩ := enabled_of_vfOn hon
  have happly : vfEnableApply (renewed s i) vf ((0 : Nat) == 1) =
      (writeB (flrStart (renewed s i) vf) (K.vfEnable vf) false, .ok) := by
    unfold vfEnableApply enableWrite
    rw [if_neg (by decide), if_neg (by rw [show (renewed s i).transit = s.transit from rfl, hnot]; decide),
      if_pos (show getB (renewed s i) (K.vfEnable vf) = true from hflag)]
  obtain ⟨u, hexec, hans, hch⟩ := enable_written hvf hmgr (.inl rfl) h (by rfl) happly (.inl rfl)
  obtain ⟨hepoch, hsince, -, -⟩ := flrStart_spec (renewed s i) vf
  have hwritten : Changes [.objs] (flrStart (renewed s i) vf) (writeB (flrStart (renewed s i) vf) (K.vfEnable vf) false) :=
    writeB_ch (by decide) (Changes.refl _ _)
  have hfunc : funcOf u vf = funcOf (flrStart (renewed s i) vf) vf := by
    rw [funcOf, hch.funcs (by decide), hwritten.funcs (by decide), ← funcOf]
  refine ⟨u, hexec, hans, ?_, by rw [hfunc, hepoch]; rfl, by rw [hfunc, hsince]; rfl⟩
  rw [vfOn_answered hch (by decide), vfOn_writeB, if_pos rfl]
  simp

/-- vf.flr starts the function's reset and leaves it enabled. -/
theorem vfFlr_done (h : AdmittedWrite s r i (K.vfFlr vf) 1) (hon : vfOn s vf = true) :
    ∃ t, exec (.vfFlr r vf 1) s = .next t ∧ answered t r 0x11 .ok ∧ vfOn t vf = true ∧
      (funcOf t vf).epoch = ((funcOf s vf).epoch + 1) % 2 ^ 32 ∧ (funcOf t vf).flrSince = some s.now := by
  have happly : vfFlrApply (renewed s i) vf = flrStart (renewed s i) vf := if_pos (show vfOn (renewed s i) vf = true from hon)
  obtain ⟨u, hexec, hans, hch⟩ := areaWrite_done
    (rowOf_vf (P := fun v => rowIs (K.vfFlr v) .u8 .wo [(1, 1)] = true) row_vfFlr hvf) (.inr rfl) (by omega) (by decide) h (.inl hmgr)
    (areaAccess_vfFlr (vf_pos hvf) vf.isLt (isMgr_session hmgr)) (by rfl) (by rfl) (areaCheck_vfFlr (vf_pos hvf) vf.isLt)
    (areaClaims_vfFlr (vf_pos hvf) vf.isLt) ((areaApply_vfFlr (vf_pos hvf) vf.isLt).trans (congrArg accepted happly)) (.inl rfl)
  obtain ⟨hepoch, hsince, -, -⟩ := flrStart_spec (renewed s i) vf
  have hfunc : funcOf u vf = funcOf (flrStart (renewed s i) vf) vf := by rw [funcOf, hch.funcs (by decide), ← funcOf]
  refine ⟨u, hexec, hans, ?_, by rw [hfunc, hepoch]; rfl, by rw [hfunc, hsince]; rfl⟩
  rw [vfOn_answered hch (by decide), vfOn_flrStart _ _ vf.isLt]
  exact hon

end

/-! ## The host's resets -/

theorem mem_enabledVfs {s : State} {f : Nat} : f ∈ enabledVfs s ↔ f < 64 ∧ vfOn s f = true := by
  simp [enabledVfs, numbers]

theorem nodup_enabledVfs (s : State) : (enabledVfs s).Nodup := List.nodup_range.filter _

theorem zero_not_enabled (s : State) : 0 ∉ enabledVfs s := fun h => by
  simpa [vfOn] using (mem_enabledVfs.1 h).2

theorem pcieFlr_spec {s : State} {f : Fin 65} (hpos : 0 < f.val) (hlt : f.val < 64) (hon : vfOn s f = true) :
    ∃ t, exec (.pcieFlr f) s = .next t ∧ (funcOf t f).epoch = ((funcOf s f).epoch + 1) % 2 ^ 32 ∧ (funcOf t f).flrSince = some s.now ∧
      (∀ g, g ≠ f.val → (funcOf t g).epoch = (funcOf s g).epoch) := by
  obtain ⟨hepoch, hsince, hother, -⟩ := flrStart_spec s f
  refine ⟨flrStart s f, ?_, hepoch, hsince, hother⟩
  show execPcieFlr f s = _
  unfold execPcieFlr
  rw [if_neg (by omega), if_neg (by omega), if_pos hon]

theorem pcieFlr_off {s : State} {f : Fin 65} (hpos : 0 < f.val) (hlt : f.val < 64) (hoff : vfOn s f = false) :
    exec (.pcieFlr f) s = .next s := by
  show execPcieFlr f s = _
  unfold execPcieFlr
  rw [if_neg (by omega), if_neg (by omega), if_neg (by rw [hoff]; decide)]

theorem vfEnableClear_spec {s : State} {f : Fin 65} (hlt : f.val < 64) (hon : vfOn s f = true) :
    ∃ t, exec .vfEnableClear s = .next t ∧ (funcOf t f).epoch = ((funcOf s f).epoch + 1) % 2 ^ 32 ∧
      (funcOf t 0).epoch = (funcOf s 0).epoch :=
  ⟨foldN (enabledVfs s) flrStart s, rfl, (epoch_flrStarts _ (nodup_enabledVfs s) s f).trans (if_pos (mem_enabledVfs.2 ⟨hlt, hon⟩)),
    (epoch_flrStarts _ (nodup_enabledVfs s) s 0).trans (if_neg (zero_not_enabled s))⟩

/-- Function 0's reset takes every enabled VF with it, and the function of the second host port its own. -/
theorem pfFlr_spec {s : State} {f : Fin 65} (hpos : 0 < f.val) (hlt : f.val < 64) (hon : vfOn s f = true) :
    (∃ t, exec (.pfFlr false) s = .next t ∧ (funcOf t f).epoch = ((funcOf s f).epoch + 1) % 2 ^ 32 ∧
      (funcOf t 0).epoch = ((funcOf s 0).epoch + 1) % 2 ^ 32) ∧
    (∃ t, exec (.pfFlr true) s = .next t ∧ (funcOf t 64).epoch = ((funcOf s 64).epoch + 1) % 2 ^ 32 ∧
      (funcOf t f).epoch = (funcOf s f).epoch) := by
  obtain ⟨hself, -, hothers, -⟩ := flrStart_spec (foldN (enabledVfs s) flrStart s) 0
  obtain ⟨hport, -, hrest, -⟩ := flrStart_spec s 64
  refine ⟨⟨_, rfl, ?_, ?_⟩, ⟨_, rfl, hport, hrest f (by omega)⟩⟩
  · exact (hothers f (by omega)).trans ((epoch_flrStarts _ (nodup_enabledVfs s) s f).trans (if_pos (mem_enabledVfs.2 ⟨hlt, hon⟩)))
  · have hzero := epoch_flrStarts _ (nodup_enabledVfs s) s 0
    rw [if_neg (zero_not_enabled s)] at hzero
    exact hself.trans (by rw [hzero])

end Sys2Proof.Proofs.VirtualFunctions

/-!
PROOFS. The dictionary's rows of a VF's grants and regions, from the table of all 63.
-/

namespace Sys2Proof.Proofs.FunctionRows

open Sys2Proof.Machine

/-- An object of a plain number, which a session with the right to it may write. -/
def plainNumber (idx sub : Nat) : Bool :=
  match lookupObj idx sub with
  | some (row, _) => row.acc == .rw && (row.ty == .u8 || row.ty == .u16 || row.ty == .u32) && targetOf idx sub == (idx, sub)
  | none => false

theorem plainNumber_grant : ∀ (v : Fin 63) (n : Fin 13), plainNumber (0x6001 + 0x40 * (v.val + 1)) (n.val + 1) = true := by decide +kernel

/-- The three objects of a region: the port's or the panel's number up to `top` or none, the corner and the size. -/
def regionRows (idx top : Nat) : Bool :=
  rowIs (objKey idx 1) .u8 .rw [(0, top), (255, 255)] && rowIs (objKey idx 2) .u32 .rw [(0, 4294967295)] &&
    rowIs (objKey idx 3) .u32 .rw [(0, 4294967295)]

theorem regionRows_screen : ∀ (v : Fin 63) (q : Fin 8), regionRows (0x6008 + 0x40 * (v.val + 1) + q) 7 = true := by decide +kernel

theorem regionRows_touch : ∀ (v : Fin 63) (q : Fin 8), regionRows (0x6010 + 0x40 * (v.val + 1) + q) 3 = true := by decide +kernel

theorem rowIs_of_plain {idx sub : Nat} {row : ObjRow} {j : Nat} (hsub : sub < 256) (hplain : plainNumber idx sub = true)
    (hrow : lookupObj idx sub = some (row, j)) :
    rowIs (objKey idx sub) row.ty .rw row.ranges = true ∧ (row.ty = .u8 ∨ row.ty = .u16 ∨ row.ty = .u32) := by
  unfold plainNumber at hplain
  unfold rowIs
  rw [SurfaceAllocation.objKey_div hsub, SurfaceAllocation.objKey_mod hsub]
  rw [hrow] at hplain ⊢
  simp only [Bool.and_eq_true, Bool.or_eq_true, beq_iff_eq] at hplain
  obtain ⟨⟨hacc, hty⟩, htarget⟩ := hplain
  exact ⟨by simp [hacc, htarget], by tauto⟩

theorem fitsTy_plain {ty : Ty} {n : Nat} (hty : ty = .u8 ∨ ty = .u16 ∨ ty = .u32) (h : n < 256 ^ ty.size) : fitsTy ty n = true := by
  obtain rfl | rfl | rfl := hty <;> exact decide_eq_true h

end Sys2Proof.Proofs.FunctionRows

/-!
PROOFS. O47, its second part: the grants of a VF and its regions of the screens and of the touch panels.
-/

namespace Sys2Proof.Proofs.GrantsAndRegions

open Sys2Proof.Machine
open Sys2Proof.Proofs.Arbitration (targetKeys setTarget_spec)
open Sys2Proof.Proofs.AreaWrites (areaWrite_done areaWrite_refused inRange_single)
open Sys2Proof.Proofs.FunctionResets
open Sys2Proof.Proofs.ResetEnds
open Sys2Proof.Proofs.VirtualFunctions
open Sys2Proof.Proofs.FunctionRows

/-! ## Grants -/

theorem getN_arbitrate_ne (s : State) {k : Nat} (h : ∀ c, k ∉ targetKeys c) : getN (arbitrate s) k = getN s k := by
  unfold arbitrate
  rw [Arbitration.arbitrateWith_eq]
  generalize (_ ++ _ : List (Nat × Nat)) = targets
  induction targets generalizing s with
  | nil => rfl
  | cons e es ih => exact (ih _).trans (congrArg Val.toNat ((setTarget_spec s e.1 e.2).2 k (h e.1)).1)

theorem grant_not_target (v c : Nat) : objKey (0x6001 + 0x40 * v) 5 ∉ targetKeys c := by
  simp only [targetKeys, List.mem_cons, List.not_mem_nil, or_false, K.ctxTarget, K.ctxHintKept, K.tilthHintMiss, K.tilthSeq, objKey]
  omega

/-- A grant takes its value; only a share of an enabled VF moves anything else. -/
theorem grantApply_spec (s : State) (v n x : Nat) : grantN (grantApply s v n x) v n = x ∧
    (vfOn s v = false ∨ n ≠ 5 → grantApply s v n x = writeN s (objKey (0x6001 + 0x40 * v) n) x) := by
  unfold grantApply
  extract_lets t
  have hwritten : grantN t v n = x := getN_writeN ..
  have hon : vfOn t v = vfOn s v := by
    unfold vfOn getB
    rw [show getN t (K.vfEnable v) = getN s (K.vfEnable v) from getN_writeN_ne s x (by simp only [K.vfEnable, objKey]; omega),
      show t.transit = s.transit from (writeN_ch (List.Subset.refl _) (Changes.refl _ s)).transit (by decide)]
  rw [hon]
  split
  next hshare =>
    simp only [Bool.and_eq_true, decide_eq_true_eq] at hshare
    obtain ⟨rfl, henabled⟩ := hshare
    refine ⟨(getN_arbitrate_ne t fun c => grant_not_target v c).trans hwritten, fun h => ?_⟩
    simp [henabled] at h
  next => exact ⟨hwritten, fun _ => rfl⟩

section
variable {s : State} {r : DictReq} {i : Nat} {vf : Fin 64} (hvf : vf ≠ 0) (hmgr : managerSession s i)
include hvf hmgr

section
variable {n x : Nat} {ty : Ty} {rg : List (Int × Int)} (hrow : rowIs (objKey (0x6001 + 0x40 * vf) n) ty .rw rg = true) (hn : n < 256)
  (h : AdmittedWrite s r i (objKey (0x6001 + 0x40 * vf) n) x) (hfit : fitsTy ty x = true)
  (hrange : rg.any (fun e => decide (e.1 ≤ measureOf ty (.num x) ∧ measureOf ty (.num x) ≤ e.2)) = true)
include hrow hn h hfit hrange

theorem grant_done (hcheck : grantCheck s vf n x = .ok) :
    ∃ t, writeObject s r (objKey (0x6001 + 0x40 * vf) n) x = .next t ∧ answered t r 0x11 .ok ∧ grantN t vf n = x ∧
      (vfOn s vf = false ∨ n ≠ 5 → onlyObjs [objKey (0x6001 + 0x40 * vf) n] s t ∧ Changes [.objs, .sess, .resp] s t) := by
  obtain ⟨hvalue, halone⟩ := grantApply_spec (renewed s i) vf n x
  obtain ⟨u, hexec, hans, hch⟩ := areaWrite_done hrow (.inl rfl) (by omega) hn h (.inl hmgr)
    (areaAccess_grant (vf_pos hvf) vf.isLt hn (isMgr_session hmgr)) hfit hrange
    ((areaCheck_grant (vf_pos hvf) vf.isLt hn).trans (show grantCheck (renewed s i) vf n x = .ok from hcheck))
    (areaClaims_grant (vf_pos hvf) vf.isLt hn) (areaApply_grant (vf_pos hvf) vf.isLt hn) (.inl rfl)
  refine ⟨u, hexec, hans, (hch.getN (by decide) (by decide) _).trans hvalue, fun hother => ?_⟩
  have heq := halone hother
  rw [Val.toNat, heq] at hch
  have hwritten : Changes [.objs, .sess, .resp] s (writeN (renewed s i) (objKey (0x6001 + 0x40 * vf) n) x) :=
    writeN_ch (by decide) (renewed_changes i (by decide) (Changes.refl _ s))
  have honly : onlyObjs [objKey (0x6001 + 0x40 * vf) n] s (writeN (renewed s i) (objKey (0x6001 + 0x40 * vf) n) x) :=
    onlyObjs_writeN (t := renewed s i) _ (List.mem_singleton.2 rfl) (onlyObjs_of_eq rfl)
  exact ⟨onlyObjs_trans honly (hch.only (by decide) (by decide) _), hwritten.trans (hch.mono (by decide))⟩

theorem grant_refused (hcheck : grantCheck s vf n x = .range) :
    ∃ t, writeObject s r (objKey (0x6001 + 0x40 * vf) n) x = .next t ∧ answered t r 0x11 .range ∧ Changes [.fresh, .sess, .resp] s t :=
  areaWrite_refused hrow (.inl rfl) (by omega) hn h (.inl hmgr) (areaAccess_grant (vf_pos hvf) vf.isLt hn (isMgr_session hmgr)) hfit hrange
    ((areaCheck_grant (vf_pos hvf) vf.isLt hn).trans (show grantCheck (renewed s i) vf n x = .range from hcheck)) (.inr rfl)
    ⟨by decide, by decide⟩ (by decide)

end

theorem grantWrite_spec (sub : BitVec 8) (value : BitVec 32) (row : ObjRow) (j : Nat)
    (h : AdmittedWrite s r i (objKey (0x6001 + 0x40 * vf) sub.toNat) value.toNat) (hlow : 1 ≤ sub.toNat) (hhigh : sub.toNat ≤ 13)
    (hlookup : lookupObj (0x6001 + 0x40 * vf) sub.toNat = some (row, j)) (hrange : inRange row (.num value.toNat) = true)
    (hfit : value.toNat < 256 ^ row.ty.size) :
    (vfOn s vf = false ∨ grantCheck s vf sub.toNat value.toNat = .ok →
      ∃ t, exec (.grantWrite r vf sub value) s = .next t ∧ answered t r 0x11 .ok ∧ grantN t vf sub.toNat = value.toNat ∧
        (vfOn s vf = false ∨ sub.toNat ≠ 5 → onlyObjs [objKey (0x6001 + 0x40 * vf) sub.toNat] s t ∧ Changes [.objs, .sess, .resp] s t)) ∧
    (vfOn s vf = true → sub.toNat ∉ [2, 4, 5, 12] →
      grantN s vf sub.toNat + poolN s sub.toNat < value.toNat ∨
        (value.toNat < grantN s vf sub.toNat ∧ value.toNat < useN s vf sub.toNat) →
      ∃ t, exec (.grantWrite r vf sub value) s = .next t ∧ answered t r 0x11 .range ∧ Changes [.fresh, .sess, .resp] s t) := by
  have hplain : plainNumber (0x6001 + 0x40 * vf) sub.toNat = true := by
    have hv := rowOf_vf (P := fun v => ∀ n : Fin 13, plainNumber (0x6001 + 0x40 * v) (n.val + 1) = true) plainNumber_grant hvf
      ⟨sub.toNat - 1, by omega⟩
    rwa [show sub.toNat - 1 + 1 = sub.toNat by omega] at hv
  have hsub : sub.toNat < 256 := by omega
  obtain ⟨hrow, hty⟩ := rowIs_of_plain hsub hplain hlookup
  refine ⟨fun hok => ?_, fun hon hkind hover => ?_⟩
  · refine grant_done hvf hmgr hrow hsub h (fitsTy_plain hty hfit) hrange (hok.elim (fun hoff => ?_) id)
    rw [grantCheck, hoff]
    rfl
  · refine grant_refused hvf hmgr hrow hsub h (fitsTy_plain hty hfit) hrange ?_
    simp only [List.mem_cons, List.not_mem_nil, or_false, not_or] at hkind
    unfold grantCheck
    simp only [hon, hkind, Bool.not_true, Bool.false_eq_true, if_false, or_self]
    split
    · rfl
    · rw [if_pos (hover.resolve_left (by assumption))]

theorem grantShare_spec (value : BitVec 16) (h : AdmittedWrite s r i (K.grantShare vf) value.toNat) (hlow : 1 ≤ value.toNat)
    (hhigh : value.toNat ≤ 1000) :
    (vfOn s vf = false ∨ value.toNat ≤ grantN s vf 5 + poolN s 5 →
      ∃ t, exec (.grantShareWrite r vf value) s = .next t ∧ answered t r 0x11 .ok ∧ grantN t vf 5 = value.toNat) ∧
    (vfOn s vf = true → grantN s vf 5 + poolN s 5 < value.toNat →
      ∃ t, exec (.grantShareWrite r vf value) s = .next t ∧ answered t r 0x11 .range ∧ Changes [.fresh, .sess, .resp] s t) := by
  have hrow := rowOf_vf (P := fun v => rowIs (K.grantShare v) .u16 .rw [(1, 1000)] = true) row_grantShare hvf
  have hfit : fitsTy .u16 value.toNat = true := fitsTy_plain (.inr (.inl rfl)) value.isLt
  have hrange := inRange_single (ty := .u16) (n := value.toNat) rfl hlow hhigh
  refine ⟨fun hok => ?_, fun hon hover => ?_⟩
  · have hcheck : grantCheck s vf 5 value.toNat = .ok := by
      unfold grantCheck
      obtain hoff | hfits := hok
      · rw [hoff]; rfl
      · simp [hfits]
    obtain ⟨t, hexec, hans, hvalue, -⟩ := grant_done hvf hmgr hrow (by decide) h hfit hrange hcheck
    exact ⟨t, hexec, hans, hvalue⟩
  · refine grant_refused hvf hmgr hrow (by decide) h hfit hrange ?_
    unfold grantCheck
    simp [hon, Nat.not_le.2 hover]

end

/-! ## Regions -/

/-- The index of a region of a VF, of the screens or of the touch panels. -/
def regionIdx (touch : Bool) (v q : Nat) : Nat := (if touch then 0x6010 else 0x6008) + 0x40 * v + q

section
variable {s : State} {c : WCtx} {v q sub : Nat} (hv : 0 < v) (hv' : v < 64) (hq : q < 8) (hsub : sub < 256)
include hv hv' hq hsub

theorem areaApply_regionIdx (touch : Bool) (x : Val) :
    areaApply s c (regionIdx touch v q) sub x = accepted (regionApply s touch v q sub x.toNat) := by
  cases touch
  · exact areaApply_region hv hv' hq hsub
  · exact areaApply_touchRegion hv hv' hq hsub

theorem areaCheck_regionIdx (touch : Bool) (x : Val) : areaCheck s c (regionIdx touch v q) sub x = regionCheck s touch v q sub x.toNat := by
  cases touch
  · exact areaCheck_region hv hv' hq hsub
  · exact areaCheck_touchRegion hv hv' hq hsub

theorem areaClaims_regionIdx (touch : Bool) (x : Nat) : areaClaims s (regionIdx touch v q) sub x = ([], 0) := by
  cases touch
  · exact areaClaims_region hv hv' hq hsub
  · exact areaClaims_touchRegion hv hv' hq hsub

theorem areaAccess_regionIdx (touch : Bool) (x : Nat) (hm : c.isMgr = true) : areaAccess s c (regionIdx touch v q) sub x = true := by
  cases touch
  · exact areaAccess_region hv hv' hq hsub hm
  · exact areaAccess_touchRegion hv hv' hq hsub hm

end

/-- A value that an object of a region takes: a port's or a panel's number or none, a corner, a size. -/
def regionValue (touch : Bool) (sub x : Nat) : Prop := sub = 2 ∨ sub = 3 ∨ (sub = 1 ∧ (x < (if touch then 4 else 8) ∨ x = 0xFF))

theorem regionRows_idx {vf : Fin 64} (hvf : vf ≠ 0) (touch : Bool) (q : Fin 8) : regionRows (regionIdx touch vf q) (if touch then 3 else 7) = true := by
  cases touch
  · exact rowOf_vf (P := fun v => ∀ q : Fin 8, regionRows (0x6008 + 0x40 * v + q) 7 = true) regionRows_screen hvf q
  · exact rowOf_vf (P := fun v => ∀ q : Fin 8, regionRows (0x6010 + 0x40 * v + q) 3 = true) regionRows_touch hvf q

theorem row_region {touch : Bool} {vf : Fin 64} {q : Fin 8} {sub x : Nat} (hvf : vf ≠ 0) (hx : x < 2 ^ 32) (h : regionValue touch sub x) :
    ∃ ty rg, rowIs (objKey (regionIdx touch vf q) sub) ty .rw rg = true ∧ fitsTy ty x = true ∧
      rg.any (fun e => decide (e.1 ≤ measureOf ty (.num x) ∧ measureOf ty (.num x) ≤ e.2)) = true := by
  have hrows := regionRows_idx hvf touch q
  simp only [regionRows, Bool.and_eq_true] at hrows
  obtain ⟨⟨hwhere, hcorner⟩, hsize⟩ := hrows
  have hfit : fitsTy .u32 x = true := decide_eq_true hx
  have hrange := inRange_single (ty := .u32) (n := x) rfl (Nat.zero_le x) (show x ≤ 4294967295 by omega)
  obtain rfl | rfl | ⟨rfl, hx⟩ := h
  · exact ⟨_, _, hcorner, hfit, hrange⟩
  · exact ⟨_, _, hsize, hfit, hrange⟩
  · have hbyte : x < 256 := by split at hx <;> omega
    refine ⟨_, _, hwhere, decide_eq_true hbyte, ?_⟩
    simp only [List.any_cons, List.any_nil, Bool.or_false, Bool.or_eq_true, measureOf, Ty.signed, Val.toNat, Bool.false_eq_true, if_false,
      decide_eq_true_eq]
    cases touch <;> simp only [Bool.false_eq_true, if_true, if_false] at hx ⊢ <;> omega

theorem regionIdx_eq (touch : Bool) (v q : Nat) : 0x6008 + 0x40 * v + q + (if touch then 8 else 0) = regionIdx touch v q := by
  unfold regionIdx
  split <;> omega

theorem regionApply_written (s : State) (touch : Bool) (v q sub x : Nat) :
    regionApply s touch v q sub x = (if touch && (regionRec s touch v q).1 != 0xFF then
      touchRegionLost (writeN s (objKey (regionIdx touch v q) sub) x) v (regionRec s touch v q).1
      else writeN s (objKey (regionIdx touch v q) sub) x) := by
  unfold regionApply
  rw [regionIdx_eq]

theorem regionRec_eq (s : State) (touch : Bool) (v q : Nat) : regionRec s touch v q =
    (getN s (objKey (regionIdx touch v q) 1), getN s (objKey (regionIdx touch v q) 2), getN s (objKey (regionIdx touch v q) 3)) := by
  unfold regionRec
  rw [regionIdx_eq]

theorem regionRec_writeN (s : State) (touch : Bool) (v q : Nat) {sub : Nat} (x : Nat) (hsub : sub = 1 ∨ sub = 2 ∨ sub = 3) :
    regionRec (writeN s (objKey (regionIdx touch v q) sub) x) touch v q = regionWith (regionRec s touch v q) sub x := by
  have hne {a b : Nat} (h : a ≠ b) : objKey (regionIdx touch v q) a ≠ objKey (regionIdx touch v q) b := by
    simp only [objKey]
    omega
  rw [regionRec_eq, regionRec_eq]
  obtain rfl | rfl | rfl := hsub
  · rw [getN_writeN, getN_writeN_ne s x (hne (by decide)), getN_writeN_ne s x (hne (by decide))]
    rfl
  · rw [getN_writeN, getN_writeN_ne s x (hne (by decide)), getN_writeN_ne s x (hne (by decide))]
    rfl
  · rw [getN_writeN, getN_writeN_ne s x (hne (by decide)), getN_writeN_ne s x (hne (by decide))]
    rfl

/-- A region takes its value, also where the function's touch reports of a panel end with it. -/
theorem regionApply_rec (s : State) (touch : Bool) {v q : Nat} (hv : v < 64) (hq : q < 8) {sub : Nat} (x : Nat)
    (hsub : sub = 1 ∨ sub = 2 ∨ sub = 3) :
    regionRec (regionApply s touch v q sub x) touch v q = regionWith (regionRec s touch v q) sub x := by
  rw [regionApply_written, ← regionRec_writeN s touch v q x hsub]
  split
  · generalize writeN s _ x = t
    generalize (regionRec s touch v q).1 = p
    have hch := touchRegionLost_ch (f := v) (p := p) (List.Subset.refl _) (Changes.refl _ t)
    have hkey (n : Nat) (hn : n < 4) : ¬ noteKey (objKey (regionIdx touch v q) n) := by
      simp only [noteKey, K.dictNotifyDrop, K.regVoteFix, K.regVoteBad, K.kaolinCanDrop, K.logOut, regionIdx, objKey]
      split <;> omega
    rw [regionRec_eq, getN_of_changes hch (by decide) (hkey 1 (by decide)), getN_of_changes hch (by decide) (hkey 2 (by decide)),
      getN_of_changes hch (by decide) (hkey 3 (by decide)), ← regionRec_eq]
  · rfl

/-- A region that overlaps another VF's is refused. -/
theorem regionCheck_other {s : State} {touch : Bool} {v q sub x w j : Nat} (hw : 0 < w ∧ w < 64) (hj : j < 8) (hother : w ≠ v)
    (hshown : regionEmpty (regionWith (regionRec s touch v q) sub x) = false) (hthere : regionEmpty (regionRec s touch w j) = false)
    (hsame : (regionRec s touch w j).1 = (regionWith (regionRec s touch v q) sub x).1)
    (hover : overlap (regionWith (regionRec s touch v q) sub x).2.1 (regionWith (regionRec s touch v q) sub x).2.2
      (regionRec s touch w j).2.1 (regionRec s touch w j).2.2 = true) : regionCheck s touch v q sub x = .range := by
  have hsize : lo16 (regionRec s touch w j).2.2 ≠ 0 ∧ hi16 (regionRec s touch w j).2.2 ≠ 0 := by
    simp only [regionEmpty, Bool.or_eq_false_iff, beq_eq_false_iff_ne] at hthere
    exact ⟨hthere.1.2, hthere.2⟩
  unfold regionCheck
  dsimp only
  rw [if_neg (by rw [hshown]; decide), if_pos]
  refine Bool.or_eq_true_iff.2 (.inl (List.any_eq_true.2 ⟨w, List.mem_range.2 hw.2, ?_⟩))
  simp only [Bool.and_eq_true, bne_iff_ne]
  refine ⟨⟨by omega, hother⟩, List.any_eq_true.2 ⟨j, List.mem_range.2 hj, ?_⟩⟩
  simp [hthere, hsame, hsize, hover]

/-- A screen region that overlaps a rectangle of Kaolin is refused. -/
theorem regionCheck_kaolin {s : State} {v q sub x k : Nat} (hk : k < 32)
    (hshown : regionEmpty (regionWith (regionRec s false v q) sub x) = false)
    (hwidth : lo16 (rectShadow s (regionWith (regionRec s false v q) sub x).1 k).wh ≠ 0)
    (hheight : hi16 (rectShadow s (regionWith (regionRec s false v q) sub x).1 k).wh ≠ 0)
    (hover : overlap (regionWith (regionRec s false v q) sub x).2.1 (regionWith (regionRec s false v q) sub x).2.2
      (rectShadow s (regionWith (regionRec s false v q) sub x).1 k).xy
      (rectShadow s (regionWith (regionRec s false v q) sub x).1 k).wh = true) : regionCheck s false v q sub x = .range := by
  unfold regionCheck
  dsimp only
  rw [if_neg (by rw [hshown]; decide), if_pos]
  refine Bool.or_eq_true_iff.2 (.inr (Bool.and_eq_true_iff.2 ⟨rfl, List.any_eq_true.2 ⟨k, List.mem_range.2 hk, ?_⟩⟩))
  simp [hwidth, hheight, hover]

theorem regionIdx_lt {touch : Bool} {vf : Fin 64} {q : Fin 8} : regionIdx touch vf q < 65536 := by
  unfold regionIdx
  split <;> omega

section
variable {s : State} {r : DictReq} {i : Nat} {vf : Fin 64} {touch : Bool} {q : Fin 8} {sub : BitVec 8} {value : BitVec 32} (hvf : vf ≠ 0)
  (hmgr : managerSession s i) (h : AdmittedWrite s r i (objKey (regionIdx touch vf q) sub.toNat) value.toNat)
  (hvalue : regionValue touch sub.toNat value.toNat)
include hvf hmgr h hvalue

theorem region_done (hcheck : regionCheck s touch vf q sub.toNat value.toNat = .ok) :
    ∃ t, exec (.regionWrite r vf touch q sub value) s = .next t ∧ answered t r 0x11 .ok ∧
      regionRec t touch vf q = regionWith (regionRec s touch vf q) sub.toNat value.toNat ∧
      (touch = false ∨ (regionRec s touch vf q).1 = 0xFF →
        onlyObjs [objKey (regionIdx touch vf q) sub.toNat] s t ∧ Changes [.objs, .sess, .resp] s t) := by
  obtain ⟨ty, rg, hrow, hfit, hrange⟩ := row_region hvf value.isLt hvalue
  have hsub := sub.isLt
  obtain ⟨u, hexec, hans, hch⟩ := areaWrite_done hrow (.inl rfl) regionIdx_lt hsub h (.inl hmgr)
    (areaAccess_regionIdx (vf_pos hvf) vf.isLt q.isLt hsub touch _ (isMgr_session hmgr)) hfit hrange
    ((areaCheck_regionIdx (vf_pos hvf) vf.isLt q.isLt hsub touch _).trans hcheck)
    (areaClaims_regionIdx (vf_pos hvf) vf.isLt q.isLt hsub touch _) (areaApply_regionIdx (vf_pos hvf) vf.isLt q.isLt hsub touch _) (.inl rfl)
  have hrec : regionRec u touch vf q = regionRec (regionApply (renewed s i) touch vf q sub.toNat value.toNat) touch vf q := by
    rw [regionRec_eq, hch.getN (by decide) (by decide), hch.getN (by decide) (by decide), hch.getN (by decide) (by decide), ← regionRec_eq]
    rfl
  refine ⟨u, hexec, hans, hrec.trans (regionApply_rec _ _ vf.isLt q.isLt _ (by unfold regionValue at hvalue; omega)), fun halone => ?_⟩
  have heq : regionApply (renewed s i) touch vf q sub.toNat value.toNat =
      writeN (renewed s i) (objKey (regionIdx touch vf q) sub.toNat) value.toNat := by
    rw [regionApply_written]
    refine if_neg ?_
    obtain rfl | hnone := halone
    · simp
    · simp [show (regionRec (renewed s i) touch vf q).1 = 0xFF from hnone]
  rw [Val.toNat, heq] at hch
  have hwritten : Changes [.objs, .sess, .resp] s (writeN (renewed s i) (objKey (regionIdx touch vf q) sub.toNat) value.toNat) :=
    writeN_ch (by decide) (renewed_changes i (by decide) (Changes.refl _ s))
  have honly : onlyObjs [objKey (regionIdx touch vf q) sub.toNat] s (writeN (renewed s i) (objKey (regionIdx touch vf q) sub.toNat) value.toNat) :=
    onlyObjs_writeN (t := renewed s i) _ (List.mem_singleton.2 rfl) (onlyObjs_of_eq rfl)
  exact ⟨onlyObjs_trans honly (hch.only (by decide) (by decide) _), hwritten.trans (hch.mono (by decide))⟩

theorem region_refused (hcheck : regionCheck s touch vf q sub.toNat value.toNat = .range) :
    ∃ t, exec (.regionWrite r vf touch q sub value) s = .next t ∧ answered t r 0x11 .range ∧ Changes [.fresh, .sess, .resp] s t := by
  obtain ⟨ty, rg, hrow, hfit, hrange⟩ := row_region hvf value.isLt hvalue
  exact areaWrite_refused hrow (.inl rfl) regionIdx_lt sub.isLt h (.inl hmgr)
    (areaAccess_regionIdx (vf_pos hvf) vf.isLt q.isLt sub.isLt touch _ (isMgr_session hmgr)) hfit hrange
    ((areaCheck_regionIdx (vf_pos hvf) vf.isLt q.isLt sub.isLt touch _).trans hcheck) (.inr rfl) ⟨by decide, by decide⟩ (by decide)

end

/-- Settles O47: each clause by the lemma of its command. -/
theorem virtualFunctions : Obligations.VirtualFunctions := by
  unfold Obligations.VirtualFunctions
  refine ⟨fun s r i vf hvf h hmgr hoff hreset hnot => ⟨vfEnable_created hvf hmgr h hoff hreset hnot, vfEnable_refused hvf hmgr h hoff hreset⟩,
    fun s r i vf hvf h hmgr hoff hreset hnot => vfEnable_queued hvf hmgr h hoff hreset hnot,
    fun s r i vf hvf h hmgr hon => vfDisable_done hvf hmgr h hon,
    fun s r i vf sub value row j hvf h hmgr hlow hhigh hlookup hrange hfit => grantWrite_spec hvf hmgr sub value row j h hlow hhigh hlookup hrange hfit,
    fun s r i vf value hvf h hmgr hlow hhigh => grantShare_spec hvf hmgr value h hlow hhigh,
    fun s r i vf touch q sub value hvf h hmgr hvalue => ⟨region_done hvf hmgr h hvalue, ?_, ?_⟩,
    fun s r i vf hvf h hmgr hon => vfFlr_done hvf hmgr h hon,
    fun s f hpos hlt hon => ⟨pcieFlr_spec hpos hlt hon, vfEnableClear_spec hlt hon, pfFlr_spec hpos hlt hon⟩,
    fun s f hpos hlt hoff => pcieFlr_off hpos hlt hoff, fun s f hnone => ?_, fun s f began hbegan => ?_⟩
  · intro k hk htouch hshown hwidth hheight hover
    subst htouch
    exact region_refused hvf hmgr h hvalue (regionCheck_kaolin hk hshown hwidth hheight hover)
  · intro w j hw hother hshown hthere hsame hover
    exact region_refused hvf hmgr h hvalue (regionCheck_other ⟨vf_pos hw, w.isLt⟩ j.isLt (fun heq => hother (Fin.ext heq)) hshown hthere hsame hover)
  · show execFlrDone f s = _
    rw [execFlrDone, flrComplete, hnone]
  · obtain ⟨hdone, hepoch, hback, hkept, hfreed⟩ := flrComplete_spec hbegan
    exact ⟨flrComplete s f, rfl, hdone, hepoch, fun ring hring howner => ⟨(hback ring hring howner).disabled, (hback ring hring howner).head,
      (hback ring hring howner).tail⟩, hkept, hfreed⟩

end Sys2Proof.Proofs.GrantsAndRegions

/-!
PROOFS. What the settling of the module leaves of one device (the haptics, a touch panel, the sound engine): the outputs and the other
devices that start and stop around it touch none of its objects, and a domain that it wants does not begin to stop.
-/

namespace Sys2Proof.Proofs.DeviceFrame

open Sys2Proof.Machine
open Sys2Proof.Proofs.ModeFrame

/-! ## The relation -/

/-- `s` comes from `r` with the objects `ks` as they were, the states of the domains `ds`, the module's mode and the supervisor's record, of
which at most the waiting domains changed. -/
structure DevFrame (ks ds : List Nat) (r s : State) : Prop where
  mode : KeepsMode r s
  objs : Agrees ks r s
  doms : ∀ d ∈ ds, domSt s d = domSt r d

/-- The objects and the domains of a device, apart from those of the outputs, of the domains' states and of the supervisor; the domains stay
wanted. -/
structure Device (ks ds : List Nat) (r : State) : Prop where
  apart : ∀ k ∈ ks, 0x4400 * 256 ≤ k ∧ k < 0xA000 * 256 ∧ ¬ (0x8000 * 256 ≤ k ∧ k < 0x8100 * 256) ∧ ¬ noteKey k
  chips : ∀ d ∈ ds, 19 ≤ d ∧ d < 23
  wants : ∀ s, DevFrame ks ds r s → ∀ d ∈ ds, wanted s d = true

theorem DevFrame.refl (ks ds : List Nat) (s : State) : DevFrame ks ds s s := ⟨.refl s, .refl ks s, fun _ _ => rfl⟩

section
variable {ks ds : List Nat} {r s t : State} (hD : Device ks ds r)
include hD

theorem apart_of_idx {idx sub : Nat} (h : idx < 0x4400 ∨ 0xA000 ≤ idx) (hsub : sub < 256) : objKey idx sub ∉ ks := fun hk => by
  have happart := hD.apart _ hk
  simp only [objKey] at happart
  omega

theorem domState_apart {d : Nat} (hd : d < 24) : K.domState d ∉ ks := fun hk => by
  have happart := hD.apart _ hk
  simp only [K.domState, objKey] at happart
  omega

omit hD in
theorem domState_note {d : Nat} (hd : d < 24) : ¬ noteKey (K.domState d) := by
  simp only [noteKey, K.dictNotifyDrop, K.regVoteFix, K.regVoteBad, K.kaolinCanDrop, K.logOut, K.domState, objKey]
  omega

namespace DevFrame

/-- An operation that moves no object but the counts of events, and not the supervisor's record. -/
theorem of_changes {P : List Part} (h : DevFrame ks ds r s) (hc : Changes P s t) (hobjs : Part.objs ∉ P) (hpower : Part.power ∉ P) :
    DevFrame ks ds r t :=
  ⟨h.mode.of_changes hc hobjs hpower, h.objs.trans (.of_changes hc hobjs fun k hk => (hD.apart k hk).2.2.2), fun d hd =>
    (getN_of_changes hc hobjs (domState_note (by have := hD.chips d hd; omega))).trans (h.doms d hd)⟩

omit hD in
theorem of_eq (h : DevFrame ks ds r s) (hobjs : t.objs = s.objs) (hpower : t.power = s.power) : DevFrame ks ds r t :=
  ⟨h.mode.of_eq hobjs hpower, h.objs.trans (.of_objs hobjs), fun d hd => by
    rw [← h.doms d hd, domSt, domSt, getN, getN, getV, getV, hobjs]⟩

omit hD in
theorem ite {a b : State} {c : Prop} [Decidable c] (ha : DevFrame ks ds r a) (hb : DevFrame ks ds r b) :
    DevFrame ks ds r (if c then a else b) := by
  split <;> assumption

omit hD in
theorem foldl {α : Type} {f : State → α → State} (l : List α) (h : DevFrame ks ds r s)
    (hf : ∀ x, ∀ a ∈ l, DevFrame ks ds r x → DevFrame ks ds r (f x a)) : DevFrame ks ds r (l.foldl f s) := by
  induction l generalizing s with
  | nil => exact h
  | cons a l ih => exact ih (hf s a (by simp) h) (fun x b hb => hf x b (by simp [hb]))

omit hD in
theorem foldN {f : State → Nat → State} (l : List Nat) (h : DevFrame ks ds r s)
    (hf : ∀ x, ∀ a ∈ l, DevFrame ks ds r x → DevFrame ks ds r (f x a)) : DevFrame ks ds r (foldN l f s) := h.foldl l hf

omit hD in
/-- A write outside the device's objects, the domains' states and the mode's. -/
theorem putV_ne {k : Nat} {v : Val} (h : DevFrame ks ds r s) (hk : k ∉ ks) (hdom : ∀ d ∈ ds, K.domState d ≠ k) (hmode : k ∉ modeKeys) :
    DevFrame ks ds r (putV s k v) :=
  ⟨keepsMode_putV h.mode hmode, fun j hj => (getV_putV_ne s v fun he : j = k => hk (he ▸ hj)).trans (h.objs j hj), fun d hd => by
    rw [← h.doms d hd, domSt, getN, getV_putV_ne s v (hdom d hd), ← getN, ← domSt]⟩

omit hD in
theorem writeV_ne {k : Nat} {v : Val} (h : DevFrame ks ds r s) (hk : k ∉ ks) (hdom : ∀ d ∈ ds, K.domState d ≠ k) (hmode : k ∉ modeKeys) :
    DevFrame ks ds r (writeV s k v) :=
  ⟨keepsMode_writeV h.mode hmode, fun j hj => (getV_writeV_ne s v fun he : j = k => hk (he ▸ hj)).trans (h.objs j hj), fun d hd => by
    rw [← h.doms d hd, domSt, getN, getV_writeV_ne s v (hdom d hd), ← getN, ← domSt]⟩

omit hD in
theorem domState_ne {idx sub d : Nat} (hidx : idx < 0x8000 ∨ 0x8100 ≤ idx) (hd : d < 24) (hsub : sub < 256) : K.domState d ≠ objKey idx sub := by
  simp only [K.domState, objKey]
  omega

/-- A write of another part of the module. -/
theorem putV {idx sub : Nat} {v : Val} (h : DevFrame ks ds r s) (hidx : idx < 0x4400 ∨ 0xA000 ≤ idx) (hsub : sub < 256) :
    DevFrame ks ds r (Machine.putV s (objKey idx sub) v) :=
  h.putV_ne (apart_of_idx hD hidx hsub) (fun d hd => domState_ne (by omega) (by have := hD.chips d hd; omega) hsub)
    (notMode_of_idx (by omega) hsub)

theorem writeV {idx sub : Nat} {v : Val} (h : DevFrame ks ds r s) (hidx : idx < 0x4400 ∨ 0xA000 ≤ idx) (hsub : sub < 256) :
    DevFrame ks ds r (Machine.writeV s (objKey idx sub) v) :=
  h.writeV_ne (apart_of_idx hD hidx hsub) (fun d hd => domState_ne (by omega) (by have := hD.chips d hd; omega) hsub)
    (notMode_of_idx (by omega) hsub)

/-- A write of another device's object. -/
theorem putDevice {idx sub : Nat} {v : Val} (h : DevFrame ks ds r s) (hk : objKey idx sub ∉ ks) (hidx : idx < 0x8000) (hsub : sub < 256) :
    DevFrame ks ds r (Machine.putV s (objKey idx sub) v) :=
  h.putV_ne hk (fun d hd => domState_ne (.inl hidx) (by have := hD.chips d hd; omega) hsub) (notMode_of_idx (by omega) hsub)

theorem writeDevice {idx sub : Nat} {v : Val} (h : DevFrame ks ds r s) (hk : objKey idx sub ∉ ks) (hidx : idx < 0x8000) (hsub : sub < 256) :
    DevFrame ks ds r (Machine.writeV s (objKey idx sub) v) :=
  h.writeV_ne hk (fun d hd => domState_ne (.inl hidx) (by have := hD.chips d hd; omega) hsub) (notMode_of_idx (by omega) hsub)

/-! ## Settling -/

/-- A domain that the device wants stays as it is; another one's state is none of the device's objects. -/
theorem settleDomain {d : Nat} (hd : d < 24) (h : DevFrame ks ds r s) : DevFrame ks ds r (settleDomain s d) := by
  have hmode := keepsMode_settleDomain (d := d) h.mode
  by_cases hzero : d = 0
  · rwa [show Machine.settleDomain s d = s from if_pos hzero]
  by_cases hwant : wanted s d = true
  · have hobjs : (Machine.settleDomain s d).objs = s.objs := by
      unfold Machine.settleDomain
      rw [if_neg hzero, if_pos hwant]
      split <;> rfl
    exact ⟨hmode, h.objs.trans (.of_objs hobjs), fun j hj => by rw [← h.doms j hj, domSt, domSt, getN, getN, getV, getV, hobjs]⟩
  · have hout : d ∉ ds := fun hin => hwant (hD.wants s h d hin)
    have hwritten (k : Nat) (hk : k ≠ K.domState d) : getV (Machine.settleDomain s d) k = getV s k := by
      unfold Machine.settleDomain
      rw [if_neg hzero, if_neg hwant]
      extract_lets st s₁
      have h₁ : s₁.objs = s.objs := by
        unfold s₁
        split <;> rfl
      clear_value s₁
      split
      · exact (getV_putV_ne s₁ (.num domStopping) hk).trans (by rw [getV, getV, h₁])
      · rw [getV, getV, h₁]
    refine ⟨hmode, fun k hk => (hwritten k fun he => domState_apart hD hd (he ▸ hk)).trans (h.objs k hk), fun j hj => ?_⟩
    rw [← h.doms j hj, domSt, domSt, getN, getN, hwritten]
    intro he
    simp only [K.domState, objKey] at he
    exact hout ((show j = d by omega) ▸ hj)

theorem settle (h : DevFrame ks ds r s) : DevFrame ks ds r (Machine.settle s) :=
  h.foldN _ fun x d hd hx => settleDomain hD (by revert d; decide) hx

theorem emit {cls code inst : Nat} {detail : List Byte} {fs : List Nat} (h : DevFrame ks ds r s) :
    DevFrame ks ds r (Machine.emit s cls code inst detail fs) :=
  of_changes hD h (emit_ch (List.Subset.refl _) (Changes.refl _ s)) (by decide) (by decide)

theorem updateHealth (h : DevFrame ks ds r s) : DevFrame ks ds r (Machine.updateHealth s) := by
  have hnote : ∀ k ∈ ks, k ∉ healthKeys ∧ ¬ noteKey k := fun k hk => by
    obtain ⟨hlow, hhigh, -, hnote⟩ := hD.apart k hk
    refine ⟨fun hin => ?_, hnote⟩
    simp only [healthKeys, List.mem_cons, List.mem_map, List.mem_range, K.healthModule, K.healthSub, objKey] at hin
    omega
  refine ⟨keepsMode_updateHealth h.mode, h.objs.trans (.of_onlyAndNotes (updateHealth_objs s) hnote), fun d hd => ?_⟩
  have hlt := hD.chips d hd
  refine (congrArg Val.toNat (updateHealth_objs s (K.domState d) ?_ (domState_note (by omega))).1).trans (h.doms d hd)
  simp only [healthKeys, List.mem_cons, List.mem_map, List.mem_range, K.healthModule, K.healthSub, K.domState, objKey]
  omega

theorem resolved {d idx sub : Nat} (h : DevFrame ks ds r s) : DevFrame ks ds r (Machine.resolved s d idx sub) :=
  of_changes hD h (resolved_ch (List.Subset.refl _) (Changes.refl _ s)) (by decide) (by decide)

end DevFrame

/-! ## Outputs -/

theorem devFrame_outputOff {p : Nat} (hp : p < 8) (h : DevFrame ks ds r s) : DevFrame ks ds r (outputOff s p) := by
  unfold outputOff
  extract_lets s1 s2 s3 s4 s5 s6 s7
  have h1 : DevFrame ks ds r s1 := h.of_eq rfl rfl
  clear_value s1
  have h2 : DevFrame ks ds r s2 :=
    .putV hD (.putV hD (.putV hD h1 (by omega) (by decide)) (by omega) (by decide)) (by omega) (by decide)
  clear_value s2
  have h3 : DevFrame ks ds r s3 := .putV hD (.putV hD h2 (by omega) (by decide)) (by omega) (by decide)
  clear_value s3
  have h4 : DevFrame ks ds r s4 := .putV hD (.putV hD h3 (by omega) (by decide)) (by omega) (by decide)
  clear_value s4
  have h5 : DevFrame ks ds r s5 := h4.foldN _ fun x k hk hx => by
    have hlt := List.mem_range.1 hk
    exact .putV hD (.putV hD (.putV hD hx (by omega) (by decide)) (by omega) (by decide)) (by omega) (by decide)
  clear_value s5
  have h6 : DevFrame ks ds r s6 := .putV hD h5 (by omega) (by decide)
  clear_value s6
  have h7 : DevFrame ks ds r s7 :=
    .of_changes hD (.of_changes hD h6 (commitLeft_ch (p := p) (List.Subset.refl _) (Changes.refl _ s6)) (by decide) (by decide))
      (recomputeRuns_ch (List.Subset.refl _) (Changes.refl _ _)) (by decide) (by decide)
  clear_value s7
  exact .settle hD (.putV hD h7 (by decide) (by decide))

theorem devFrame_noEngineLeft {p : Nat} (hp : p < 8) (h : DevFrame ks ds r s) : DevFrame ks ds r (noEngineLeft s p) := by
  unfold noEngineLeft
  extract_lets s1
  have hwritten : DevFrame ks ds r (writeB s (K.outEnable p) false) := .writeV hD h (by omega) (by decide)
  have h1 : DevFrame ks ds r s1 := devFrame_outputOff hD hp (hwritten.of_eq rfl rfl)
  clear_value s1
  have htold : DevFrame ks ds r (modeChangeDone s1 p 2) := .emit hD h1
  exact .updateHealth hD (.of_changes hD htold (raiseClass_ch (List.Subset.refl _) (Changes.refl _ _)) (by decide) (by decide))

theorem devFrame_chooseEngine {p : Nat} (hp : p < 8) (h : DevFrame ks ds r s) : DevFrame ks ds r (chooseEngine s p).1 := by
  have hsubst {unit spare gen : Nat} : DevFrame ks ds r (substitute s clsEngine unit spare 2 gen) := by
    unfold substitute
    extract_lets q s1 s2
    have h2 : DevFrame ks ds r s2 := h.of_eq rfl rfl
    clear_value s2
    exact .updateHealth hD (.of_changes hD h2 (grogEvent_ch (List.Subset.refl _) (grogLog_ch (by decide) (Changes.refl _ s2)))
      (by decide) (by decide))
  unfold chooseEngine
  split
  · exact h
  · exact .putV hD hsubst (by omega) (by decide)
  · exact h

theorem devFrame_beginStart {p : Nat} (hp : p < 8) (h : DevFrame ks ds r s) : DevFrame ks ds r (beginStart s p) := by
  have hstart (x : State) (g : Port → Port) (hx : DevFrame ks ds r x) : DevFrame ks ds r (putN (modPort x p g) (K.outState p) outStarting) :=
    .putV hD (hx.of_eq (t := modPort x p g) rfl rfl) (by omega) (by decide)
  have hchoose := devFrame_chooseEngine hD hp h
  unfold beginStart
  split
  next s1 e heq =>
  rw [heq] at hchoose
  cases e with
  | none => exact devFrame_noEngineLeft hD hp (hstart s1 _ hchoose)
  | some n =>
    exact .of_changes hD (.settle hD (hstart s1 _ hchoose)) (recomputeRuns_ch (List.Subset.refl _) (Changes.refl _ _)) (by decide) (by decide)

theorem devFrame_restartOutput {p : Nat} (hp : p < 8) (h : DevFrame ks ds r s) : DevFrame ks ds r (restartOutput s p) :=
  .ite (devFrame_beginStart hD hp h) h

theorem devFrame_stopOutput {p : Nat} (hp : p < 8) (h : DevFrame ks ds r s) : DevFrame ks ds r (stopOutput s p) := by
  unfold stopOutput
  extract_lets was running s1 s2 s3 s4 s5
  have h1 : DevFrame ks ds r s1 := .ite (h.of_eq rfl rfl) h
  clear_value s1
  have h2 : DevFrame ks ds r s2 := .putV hD h1 (by omega) (by decide)
  clear_value s2
  have h3 : DevFrame ks ds r s3 := .ite (.emit hD h2) h2
  clear_value s3
  have h4 : DevFrame ks ds r s4 := .ite h3 (h3.of_eq rfl rfl)
  clear_value s4
  have h5 : DevFrame ks ds r s5 := h4.of_eq rfl rfl
  clear_value s5
  exact .settle hD (.of_changes hD h5 (recomputeRuns_ch (List.Subset.refl _) (Changes.refl _ _)) (by decide) (by decide))

theorem devFrame_shedOutput {p : Nat} (hp : p < 8) (h : DevFrame ks ds r s) : DevFrame ks ds r (shedOutput s p) := by
  have hstopped := devFrame_stopOutput hD hp h
  unfold shedOutput
  generalize stopOutput s p = u at hstopped
  exact .ite (hstopped.of_eq (t := modPort u p (fun q => { q with shed := true })) rfl rfl) h

/-! ## Haptics -/

section
variable (hhap : ∀ k ∈ ks, k < 0x4800 * 256 ∨ 0x4820 * 256 ≤ k)
include hhap

omit hD in
theorem hap_apart {idx sub : Nat} (h : 0x4800 ≤ idx ∧ idx < 0x4820) (hsub : sub < 256) : objKey idx sub ∉ ks := fun hk => by
  have happart := hhap _ hk
  simp only [objKey] at happart
  omega

theorem devFrame_effectEnds {n outcome : Nat} {e : Effect} (hn : n < 16) (h : DevFrame ks ds r s) : DevFrame ks ds r (effectEnds s n e outcome) := by
  unfold effectEnds
  extract_lets s1
  have h1 : DevFrame ks ds r s1 := by
    unfold s1
    split
    · exact .putDevice hD h (hap_apart hhap (by omega) (by decide)) (by omega) (by decide)
    · exact .putDevice hD h (hap_apart hhap (by omega) (by decide)) (by omega) (by decide)
  clear_value s1
  split
  · exact .of_changes hD h1 (playEnded_ch (List.Subset.refl _) (Changes.refl _ s1)) (by decide) (by decide)
  · exact .ite (.emit hD h1) h1

theorem devFrame_endQueue {n outcome : Nat} (hn : n < 16) (h : DevFrame ks ds r s) : DevFrame ks ds r (endQueue s n outcome) :=
  DevFrame.foldl _ (h.of_eq rfl rfl) fun _ _ _ hx => devFrame_effectEnds hD hhap hn hx

theorem devFrame_startHaptics (h : DevFrame ks ds r s) : DevFrame ks ds r (startHaptics s) := by
  have hwritten : DevFrame ks ds r (writeB s K.hapEnable true) :=
    .writeDevice hD h (hap_apart hhap (by decide) (by decide)) (by decide) (by decide)
  exact .settle hD (.putDevice hD hwritten (hap_apart hhap (by decide) (by decide)) (by decide) (by decide))

theorem devFrame_hapStopCheck (h : DevFrame ks ds r s) : DevFrame ks ds r (hapStopCheck s) := by
  have hqueued {x : State} (hx : DevFrame ks ds r x) : DevFrame ks ds r (hapQueued x) :=
    .ite (devFrame_startHaptics hD hhap (.resolved hD hx)) hx
  refine .ite (hqueued (.settle hD (.putDevice hD ?_ (hap_apart hhap (by decide) (by decide)) (by decide) (by decide)))) h
  refine h.foldN _ fun x n hn hx => ?_
  have hlt := List.mem_range.1 hn
  have hput : DevFrame ks ds r (putN x (K.chState n) chOff) :=
    .putDevice hD hx (hap_apart hhap (by omega) (by decide)) (by omega) (by decide)
  exact hput.of_eq rfl rfl

theorem devFrame_shutHaptics (h : DevFrame ks ds r s) : DevFrame ks ds r (shutHaptics s) := by
  have hput : DevFrame ks ds r (putN s K.hapState hapStopping) :=
    .putDevice hD h (hap_apart hhap (by decide) (by decide)) (by decide) (by decide)
  refine devFrame_hapStopCheck hD hhap (hput.foldN _ fun x n hn hx => ?_)
  have hlt := List.mem_range.1 hn
  have hended := devFrame_endQueue hD hhap (outcome := effDisabled) hlt hx
  have hbraking : DevFrame ks ds r (putN (endQueue x n effDisabled) (K.chState n) chBraking) :=
    .putDevice hD hended (hap_apart hhap (by omega) (by decide)) (by omega) (by decide)
  exact .ite (hbraking.of_eq rfl rfl) hended

end

/-! ## Touch panels -/

section
variable {q : Nat} (hq : q < 4) (hpan : ∀ k ∈ ks, k / 256 ≠ 0x4400 ∧ k / 256 ≠ 0x4420 + q ∧ k / 256 ≠ 0x4430 + q)
include hq hpan

omit hD hq in
theorem panel_apart {idx sub : Nat} (h : idx = 0x4400 ∨ idx = 0x4420 + q ∨ idx = 0x4430 + q) (hsub : sub < 256) : objKey idx sub ∉ ks :=
  fun hk => by
  have happart := hpan _ hk
  simp only [objKey] at happart
  omega

theorem devFrame_startPanel (h : DevFrame ks ds r s) : DevFrame ks ds r (startPanel s q) := by
  have hwritten : DevFrame ks ds r (writeB s (K.panelEnable q) true) :=
    .writeDevice hD h (panel_apart hpan (by omega) (by decide)) (by omega) (by decide)
  exact .settle hD (.putDevice hD (.putDevice hD hwritten (panel_apart hpan (by omega) (by decide)) (by omega) (by decide))
    (panel_apart hpan (by omega) (by decide)) (by omega) (by decide))

omit hq in
theorem devFrame_writeReports {latency : Nat} {rs : List (Contact × Nat)} {beyond : Bool} (h : DevFrame ks ds r s) :
    DevFrame ks ds r (writeReports s q rs beyond latency) := by
  refine DevFrame.foldl _ h fun x e _ hx => .ite hx ?_
  have hput {y : State} {sub n : Nat} (hy : DevFrame ks ds r y) (hsub : sub < 256) : DevFrame ks ds r (putN y (objKey 0x4400 sub) n) :=
    .putDevice hD hy (panel_apart hpan (by omega) hsub) (by decide) hsub
  exact .of_changes hD (hput (hput hx (by decide)) (by decide)) (writeReport_ch (List.Subset.refl _) (Changes.refl _ _)) (by decide) (by decide)

theorem devFrame_shutPanel (h : DevFrame ks ds r s) : DevFrame ks ds r (shutPanel s q) := by
  unfold shutPanel
  extract_lets rs s1 s2 s3
  have h1 : DevFrame ks ds r s1 := .ite (devFrame_writeReports hD hpan (h.of_eq rfl rfl)) h
  clear_value s1
  have h2 : DevFrame ks ds r s2 := DevFrame.foldl _ h1 fun x e _ hx =>
    .of_changes hD hx (releaseBuffer_ch (p := q) (f := e.1) (List.Subset.refl _) (Changes.refl _ x)) (by decide) (by decide)
  clear_value s2
  have h3 : DevFrame ks ds r s3 := h2.of_eq rfl rfl
  clear_value s3
  exact .settle hD (.putDevice hD (.putDevice hD (.putDevice hD h3 (panel_apart hpan (by omega) (by decide)) (by omega) (by decide))
    (panel_apart hpan (by omega) (by decide)) (by omega) (by decide)) (panel_apart hpan (by omega) (by decide)) (by omega) (by decide))

end

/-! ## Sound -/

/-- A stream's start moves its state alone. -/
theorem devFrame_streamRuns {capture : Bool} {n : Nat} (hk : objKey (streamIdx capture n) 11 ∉ ks) (hidx : streamIdx capture n < 0x8000)
    (h : DevFrame ks ds r s) : DevFrame ks ds r (streamRuns s capture n) := by
  have hdrawn : DevFrame ks ds r (modSnd (draw s) (fun y => if capture then { y with wr := tset y.wr n (Config.freeNat s.fresh % 2 ^ 32) }
      else { y with rd := tset y.rd n (Config.freeNat s.fresh % 2 ^ 32) })) := h.of_eq rfl rfl
  exact .emit hD (.putDevice hD hdrawn hk hidx (by decide))

section
variable (hsnd : ∀ k ∈ ks, k < 0x4C00 * 256 ∨ 0x4C70 * 256 ≤ k)
include hsnd

omit hD in
theorem snd_apart {idx sub : Nat} (h : 0x4C00 ≤ idx ∧ idx < 0x4C70) (hsub : sub < 256) : objKey idx sub ∉ ks := fun hk => by
  have happart := hsnd _ hk
  simp only [objKey] at happart
  omega

omit hD hsnd in
theorem mem_allStreams {e : Bool × Nat} (h : e ∈ allStreams) : 0x4C10 ≤ streamIdx e.1 e.2 ∧ streamIdx e.1 e.2 < 0x4C70 := by
  simp only [allStreams, List.mem_append, List.mem_map, List.mem_range] at h
  unfold streamIdx
  obtain ⟨n, hn, rfl⟩ | ⟨n, hn, rfl⟩ := h
  · simp only [Bool.false_eq_true, if_false]; omega
  · simp only [if_true]; omega

theorem devFrame_streamState {capture : Bool} {n v : Nat} (hidx : 0x4C10 ≤ streamIdx capture n ∧ streamIdx capture n < 0x4C70)
    (h : DevFrame ks ds r s) : DevFrame ks ds r (putN s (objKey (streamIdx capture n) 11) v) :=
  .putDevice hD h (snd_apart hsnd (by omega) (by decide)) (by omega) (by decide)

theorem devFrame_startSound (h : DevFrame ks ds r s) : DevFrame ks ds r (startSound s) := by
  have hput {y : State} {sub : Nat} {v : Val} (hy : DevFrame ks ds r y) (hsub : sub < 256) : DevFrame ks ds r (putV y (objKey 0x4C00 sub) v) :=
    .putDevice hD hy (snd_apart hsnd (by decide) hsub) (by decide) hsub
  have hwritten : DevFrame ks ds r (writeB s K.sndEnable true) :=
    .writeDevice hD h (snd_apart hsnd (by decide) (by decide)) (by decide) (by decide)
  have hsettled : DevFrame ks ds r (Machine.settle (putN (writeB s K.sndEnable true) K.sndState sndStarting)) :=
    .settle hD (hput hwritten (by decide))
  unfold startSound
  generalize Machine.settle (putN (writeB s K.sndEnable true) K.sndState sndStarting) = u at hsettled
  unfold sndTryRun
  refine .ite (DevFrame.foldl _ ?_ fun x e he hx => .ite ?_ hx) hsettled
  · have hsnd : DevFrame ks ds r (modSnd u (fun x => { x with periodAt := u.now, taken := [] })) := hsettled.of_eq rfl rfl
    exact hput (hput hsnd (by decide)) (by decide)
  · exact devFrame_streamRuns hD (snd_apart hsnd (by have := mem_allStreams he; omega) (by decide)) (by have := mem_allStreams he; omega) hx

theorem devFrame_shutSound (h : DevFrame ks ds r s) : DevFrame ks ds r (shutSound s) := by
  have hput {y : State} {sub : Nat} {v : Val} (hy : DevFrame ks ds r y) (hsub : sub < 256) : DevFrame ks ds r (putV y (objKey 0x4C00 sub) v) :=
    .putDevice hD hy (snd_apart hsnd (by decide) hsub) (by decide) hsub
  have hquiet : DevFrame ks ds r (silence s) := by
    unfold silence
    have hstops : DevFrame ks ds r (allStreams.foldl (fun s e => streamStops s e.1 e.2) s) := h.foldl _ fun x e he hx =>
      .ite hx (.emit hD (devFrame_streamState hD hsnd (mem_allStreams he) hx))
    generalize allStreams.foldl (fun s e => streamStops s e.1 e.2) s = u at hstops
    have hheld : DevFrame ks ds r (modSnd u (fun x => { x with held := [], lateRun := [], taken := [] })) := hstops.of_eq rfl rfl
    exact hput hheld (by decide)
  have hsettled : DevFrame ks ds r (Machine.settle (putN (silence s) K.sndState sndStopping)) := .settle hD (hput hquiet (by decide))
  unfold shutSound
  generalize Machine.settle (putN (silence s) K.sndState sndStopping) = u at hsettled
  unfold sndStopCheck
  have hoff : DevFrame ks ds r (putN u K.sndState sndOff) := hput hsettled (by decide)
  exact .ite (.ite (devFrame_startSound hD hsnd (.resolved hD hoff)) hoff) hsettled

end

end

end Sys2Proof.Proofs.DeviceFrame

/-!
PROOFS. The end of a power command while the module runs: what holds of a state through the settling of its domains and of every function
that follows them, as long as each of their steps keeps it; and that a device's domain stays wanted.
-/

namespace Sys2Proof.Proofs.DeviceSettling

open Sys2Proof.Machine
open Sys2Proof.Proofs.ModeFrame
open Sys2Proof.Proofs.DeviceFrame

/-! ## The steps of the settling -/

def resumeHaptics (s : State) : State :=
  if enabled s K.hapEnable && getN s K.hapState == hapOff && mayStart s [21] then startHaptics s else s

def resumePanel (s : State) (p : Nat) : State :=
  if enabled s (K.panelEnable p) && panSt s p == panOff && mayStart s ((panelChips s p).map chipDomain) then startPanel s p else s

def resumeSound (s : State) : State := if enabled s K.sndEnable && sndSt s == sndOff && mayStart s [22] then startSound s else s

def resumeSpread (s : State) (i : Nat) : State :=
  if enabled s (K.spreadEnable i) && getN s (K.spreadState i) == sprOff && mayStart s [11] then startSpread s i else s

theorem resume_eq (s : State) : resume s = foldN (List.range 8) resumeSpread (resumeSound (foldN (List.range 4) resumePanel (resumeHaptics
    (foldN (List.range 8) (fun s p => if mayStart s (outDomains s p) then restartOutput s p else s) s)))) := rfl

/-- Whether a domain of a list reads STOPPING. -/
def stops (s : State) (ds : List Nat) : Bool := ds.any (fun d => domSt s d == domStopping)

def shedHaptics (s : State) : State :=
  if stops s [21] && (getN s K.hapState == hapReady || getN s K.hapState == hapStarting) then shutHaptics s else s

def shedPanel (s : State) (p : Nat) : State :=
  if stops s ((panelChips s p).map chipDomain) && panSt s p != panOff && panSt s p != panStopping then shutPanel s p else s

def shedSound (s : State) : State := if stops s [22] && (sndSt s == sndRun || sndSt s == sndStarting) then shutSound s else s

def shedSpread (s : State) (i : Nat) : State :=
  if stops s [11] && getN s (K.spreadState i) != sprOff && getN s (K.spreadState i) != sprStopping then shutSpread s i else s

theorem shed_eq (s : State) : shed s = foldN (List.range 8) shedSpread (shedSound (foldN (List.range 4) shedPanel (shedHaptics
    (foldN (List.range 8) (fun s p => if stops s (startDomains p (((portOf s p).engine).getD p)) then shedOutput s p else s) s)))) := rfl

/-- What every step of the settling keeps, with the spreads off. -/
structure Settles (I : State → Prop) : Prop where
  settle : ∀ x, I x → I (Machine.settle x)
  outputs : ∀ x p, p < 8 → I x → I (restartOutput x p) ∧ I (shedOutput x p)
  haptics : ∀ x, I x → I (resumeHaptics x) ∧ I (shedHaptics x)
  panels : ∀ x p, p < 4 → I x → I (resumePanel x p) ∧ I (shedPanel x p)
  sound : ∀ x, I x → I (resumeSound x) ∧ I (shedSound x)
  spreads : ∀ x i, i < 8 → I x → getN x (K.spreadState i) = sprOff ∧ getB x (K.spreadEnable i) = false

theorem invariant_foldN {I : State → Prop} {n : Nat} {f : State → Nat → State} (hf : ∀ x a, a < n → I x → I (f x a)) {s : State} (h : I s) :
    I (foldN (List.range n) f s) := by
  have hall : ∀ l : List Nat, (∀ a ∈ l, a < n) → ∀ x, I x → I (foldN l f x) := by
    intro l
    induction l with
    | nil => exact fun _ x hx => hx
    | cons a l ih =>
      intro hl x hx
      have hfold : foldN (a :: l) f x = foldN l f (f x a) := List.foldl_cons ..
      rw [hfold]
      exact ih (fun b hb => hl b (.tail _ hb)) _ (hf x a (hl a (.head _)) hx)
  exact hall _ (fun a ha => List.mem_range.1 ha) s h

theorem Settles.powerSettle {I : State → Prop} (hI : Settles I) {s : State} (h : I s) : I (powerSettle s) := by
  have hif {c : Prop} [Decidable c] {a b : State} (ha : I a) (hb : I b) : I (if c then a else b) := by
    split <;> assumption
  have hresumed : I (resume (Machine.settle s)) := by
    rw [resume_eq]
    refine invariant_foldN (fun x i hi hx => ?_) (hI.sound _ (invariant_foldN (fun x p hp hx => (hI.panels x p hp hx).1)
      (hI.haptics _ (invariant_foldN (fun x p hp hx => hif (hI.outputs x p hp hx).1 hx) (hI.settle s h))).1)).1
    rw [resumeSpread, enabled, (hI.spreads x i hi hx).2]
    exact hx
  unfold Machine.powerSettle
  generalize resume (Machine.settle s) = u at hresumed
  rw [shed_eq]
  refine invariant_foldN (fun x i hi hx => ?_) (hI.sound _ (invariant_foldN (fun x p hp hx => (hI.panels x p hp hx).2)
    (hI.haptics _ (invariant_foldN (fun x p hp hx => hif (hI.outputs x p hp hx).2 hx) hresumed)).2)).2
  rw [shedSpread, (hI.spreads x i hi hx).1, bne_self_eq_false, Bool.and_false, Bool.false_and]
  exact hx

/-- While the module runs, the end of a power command is the settling alone. -/
theorem powerDone_run {s : State} (h : pwrMode (powerSettle s) = 1) : powerDone s = powerSettle s := by
  have hstart : advanceStart (powerSettle s) = powerSettle s := by
    unfold advanceStart
    rw [inMode, h]
    rfl
  unfold powerDone
  rw [hstart, advanceStandby, inMode, h]
  rfl

/-! ## What the steps change beside the objects -/

/-- The parts that an output's restart or shut-down may change. -/
def outputParts : List Part := [.fresh, .objs, .voteSecond, .host, .funcs, .sess, .frames, .served, .rings, .ports, .commits, .power, .grog, .notes]

theorem restartOutput_changes (s : State) (p : Nat) : Changes outputParts s (restartOutput s p) := by
  have hchoose : Changes outputParts s (chooseEngine s p).1 := chooseEngine_ch (by decide) (Changes.refl _ s)
  have hbegin : Changes outputParts s (beginStart s p) := by
    unfold beginStart
    split
    next u e heq =>
    rw [heq] at hchoose
    have hstarted (g : Port → Port) : Changes outputParts s (putN (modPort u p g) (K.outState p) outStarting) :=
      putN_ch (by decide) (modPort_ch (by decide) hchoose)
    cases e with
    | none => exact noEngineLeft_ch (by decide) (hstarted _)
    | some n => exact recomputeRuns_ch (by decide) (settle_ch (by decide) (hstarted _))
  unfold restartOutput
  split
  · exact hbegin
  · exact Changes.refl _ s

theorem shedOutput_changes (s : State) (p : Nat) : Changes outputParts s (shedOutput s p) := by
  unfold shedOutput
  split
  · exact modPort_ch (by decide) (stopOutput_ch (by decide) (Changes.refl _ s))
  · exact Changes.refl _ s

/-! ## A calm module -/

/-- The objects that keep the spreads off and the domains of a list unclaimed. -/
def calmKeys (ds : List Nat) : List Nat := (List.range 8).flatMap (fun i => [K.spreadState i, K.spreadEnable i]) ++ ds.map K.claimHold

/-- The module runs, no emergency is in force, the spreads are off and the domains of a list unclaimed. -/
structure Calm (ds : List Nat) (s : State) : Prop where
  run : pwrMode s = 1
  good : s.power.good = true
  heat : s.power.thermal = 0
  supply : s.power.supply = 0
  cut01 : s.power.pd01Cut = false
  on : s.power.resetOff = none
  claims : ∀ d ∈ ds, claimState s d = 0
  spreads : ∀ i, i < 8 → getN s (K.spreadState i) = sprOff ∧ getB s (K.spreadEnable i) = false

theorem Calm.of_quiet {s : State} (h : Quiet s) {ds : List Nat} (hds : ∀ d ∈ ds, 19 ≤ d ∧ d < 23) : Calm ds s where
  run := h.run
  good := h.good
  heat := h.heat
  supply := h.supply
  cut01 := h.cut01
  on := h.reset.2
  claims := fun d hd => h.claims d (by have := hds d hd; omega) (by have := hds d hd; omega)
  spreads := h.spreads

theorem kaolinClaim_device (s : State) {d : Nat} (hd : 19 ≤ d) : kaolinClaim s d = false := by
  have hengine (e : Option Nat) : (e.map engineDomain == some d) = false := by
    cases e with
    | none => rfl
    | some e =>
      simp only [Option.map_some, engineDomain, beq_eq_false_iff_ne, ne_eq, Option.some.injEq]
      split <;> omega
  have hphy (p : Nat) : (phyDomain p == d) = false := by
    simp only [phyDomain, beq_eq_false_iff_ne]
    split <;> omega
  unfold kaolinClaim
  rw [if_neg (by omega)]
  simp [hengine, hphy]

theorem Calm.devFrame {ks ds js : List Nat} {r s : State} (hc : Calm ds r) (hds : ∀ d ∈ ds, 19 ≤ d ∧ d < 23) (hks : ∀ k ∈ calmKeys ds, k ∈ ks)
    (h : DevFrame ks js r s) : Calm ds s := by
  obtain ⟨l, hpower⟩ := h.mode.power
  have hkey {k : Nat} (hk : k ∈ calmKeys ds) : getN s k = getN r k := h.objs.getN (hks k hk)
  refine ⟨(h.mode.objs.getN (.head _)).trans hc.run, by rw [hpower]; exact hc.good, by rw [hpower]; exact hc.heat, by rw [hpower]; exact hc.supply,
    by rw [hpower]; exact hc.cut01, by rw [hpower]; exact hc.on, fun d hd => ?_, fun i hi => ?_⟩
  · have hclaim := hc.claims d hd
    have hlow := (hds d hd).1
    have hhold : getB s (K.claimHold d) = getB r (K.claimHold d) := by
      rw [getB, getB, hkey (List.mem_append.2 (.inr (List.mem_map_of_mem hd)))]
    unfold claimState claimHeld at hclaim ⊢
    rw [kaolinClaim_device _ hlow] at hclaim ⊢
    rw [hpower, hhold]
    exact hclaim
  · have hmem {k : Nat} (hk : k = K.spreadState i ∨ k = K.spreadEnable i) : k ∈ calmKeys ds :=
      List.mem_append.2 (.inl (List.mem_flatMap.2 ⟨i, List.mem_range.2 hi, by simpa using hk⟩))
    obtain ⟨hstate, henable⟩ := hc.spreads i hi
    exact ⟨(hkey (hmem (.inl rfl))).trans hstate, by rw [getB, hkey (hmem (.inr rfl)), ← getB, henable]⟩

/-- In a calm module a device's domain whose row of Table PW-1 holds is wanted. -/
theorem Calm.wanted {ds : List Nat} {s : State} (h : Calm ds s) {d : Nat} (hd : d ∈ ds) (hlow : 19 ≤ d) (hrow : rowCondition s d = true) :
    wanted s d = true := by
  have hmask : emergencyMask s d = false := by
    unfold emergencyMask
    rw [h.heat, h.supply, h.cut01]
    rfl
  have htable : tableCondition s d = true := by
    unfold tableCondition
    rw [if_neg (by omega), if_neg (by rw [h.run]; decide), if_neg (by rw [h.run]; decide)]
    exact hrow
  have hclaim := h.claims d hd
  have hown : ownConditions s d ≠ 0 := by
    unfold ownConditions
    rw [htable]
    simp [b2n]
  have halone : wantsAlone s d = true := by
    unfold wantsAlone
    rw [hmask, h.on, h.good, if_neg (by decide), if_neg (by rw [h.run]; omega), if_neg (by rw [hclaim]; decide),
      if_neg (by rw [isClaimed, hclaim]; decide), bne_iff_ne]
    exact hown
  unfold Machine.wanted
  rw [halone, Bool.or_true, Bool.true_or]

/-- The apartness of a device's objects from those that keep the module calm. -/
theorem calmKeys_apart {ds : List Nat} (hds : ∀ d ∈ ds, 19 ≤ d ∧ d < 23) {k : Nat} (hk : k ∈ calmKeys ds) :
    (k / 256 = 0x7011 ∨ (0x9200 ≤ k / 256 ∧ k / 256 < 0x9208)) ∧ ¬ noteKey k := by
  simp only [calmKeys, List.mem_append, List.mem_flatMap, List.mem_range, List.mem_map, List.mem_cons, List.not_mem_nil, or_false] at hk
  simp only [noteKey, K.dictNotifyDrop, K.regVoteFix, K.regVoteBad, K.kaolinCanDrop, K.logOut, objKey]
  obtain ⟨i, hi, rfl | rfl⟩ | ⟨d, hd, rfl⟩ := hk
  · simp only [K.spreadState, objKey]; omega
  · simp only [K.spreadEnable, objKey]; omega
  · have hlt := hds d hd
    simp only [K.claimHold, objKey]
    omega

/-! ## Enables in a quiet module -/

theorem renewed_calm {s : State} {i : Nat} (hquiet : Quiet s) {ds : List Nat} (hds : ∀ d ∈ ds, 19 ≤ d ∧ d < 23) : Calm ds (renewed s i) := by
  obtain ⟨run, good, heat, supply, cut01, on, claims, spreads⟩ := Calm.of_quiet hquiet hds
  exact ⟨run, good, heat, supply, cut01, on, claims, spreads⟩

/-- In a quiet module no claim refuses an enable. -/
theorem enableClaims_quiet {s : State} {i : Nat} (hquiet : Quiet s) {k : Nat} {on stopping : Bool} {ds : List Nat}
    (hds : ∀ d ∈ ds.flatMap domClosure, d < 24 ∧ d ≠ 1) :
    enableClaims (renewed s i) k on stopping ds = [] := by
  unfold enableClaims blockedBy
  split
  · refine List.filter_eq_nil_iff.2 fun d hd => ?_
    obtain ⟨hlt, hne⟩ := hds d (List.mem_dedup.1 hd)
    have hclaim : claimState (renewed s i) d = 0 := hquiet.claims d hlt hne
    rw [isClaimed, hclaim]
    simp
  · rfl

theorem enableClaims_off (s : State) (k : Nat) (stopping : Bool) (ds : List Nat) : enableClaims s k false stopping ds = [] := by
  unfold enableClaims
  rw [Bool.false_and, Bool.false_and, if_neg Bool.false_ne_true]

theorem powered_ok (v : State) : powered (v, .ok) = accepted (powerDone v) := rfl

end Sys2Proof.Proofs.DeviceSettling

/-!
PROOFS. O53, its first part: the sound engine's start and stop (R390).
-/

namespace Sys2Proof.Proofs.SoundEngine

open Sys2Proof.Machine
open Sys2Proof.Proofs.ModeFrame
open Sys2Proof.Proofs.DeviceFrame
open Sys2Proof.Proofs.DeviceSettling
open Sys2Proof.Proofs.VirtualFunctions (isMgr_session)
open Sys2Proof.Proofs.ClocksAndSpares (areaWrite_unclaimed)

/-! ## The engine's objects -/

/-- The engine's objects: its enable, its state, its clock's lock, and the state of every stream. -/
def soundKeys : List Nat := [K.sndEnable, K.sndState, K.sndLocked] ++ allStreams.map (fun e => objKey (streamIdx e.1 e.2) 11)

theorem mem_soundKeys {k : Nat} (h : k ∈ soundKeys) : 0x4C00 * 256 ≤ k ∧ k < 0x4C70 * 256 := by
  simp only [soundKeys, List.mem_append, List.mem_cons, List.not_mem_nil, or_false, List.mem_map] at h
  obtain (rfl | rfl | rfl) | ⟨e, he, rfl⟩ := h
  · decide
  · decide
  · decide
  · have hidx := mem_allStreams he
    simp only [objKey]
    omega

section
variable {ks ds : List Nat} {r : State} (hks : ∀ k ∈ ks, k ∈ calmKeys [22] ∨ k ∈ soundKeys)
include hks

theorem sound_range {k : Nat} (h : k ∈ ks) :
    (0x4C00 * 256 ≤ k ∧ k < 0x4C70 * 256) ∨ k / 256 = 0x7011 ∨ (0x9200 ≤ k / 256 ∧ k / 256 < 0x9208) := by
  obtain hcalm | hsound := hks k h
  · exact .inr (calmKeys_apart (by simp) hcalm).1
  · exact .inl (mem_soundKeys hsound)

theorem sound_device (hds : ∀ d ∈ ds, d = 22) (hwants : ds ≠ [] → ∀ x, DevFrame ks ds r x → wanted x 22 = true) : Device ks ds r where
  apart := fun k hk => by
    have hrange := sound_range hks hk
    refine ⟨by omega, by omega, by omega, ?_⟩
    obtain hcalm | hsound := hks k hk
    · exact (calmKeys_apart (by simp) hcalm).2
    · have hidx := mem_soundKeys hsound
      simp only [noteKey, K.dictNotifyDrop, K.regVoteFix, K.regVoteBad, K.kaolinCanDrop, K.logOut, objKey]
      omega
  chips := fun d hd => by
    rw [hds d hd]
    decide
  wants := fun x hx d hd => by
    rw [hds d hd]
    exact hwants (List.ne_nil_of_mem hd) x hx

theorem sound_not_hap {k : Nat} (h : k ∈ ks) : k < 0x4800 * 256 ∨ 0x4820 * 256 ≤ k := by
  have hrange := sound_range hks h
  omega

theorem sound_not_panel {q : Nat} (hq : q < 4) {k : Nat} (h : k ∈ ks) : k / 256 ≠ 0x4400 ∧ k / 256 ≠ 0x4420 + q ∧ k / 256 ≠ 0x4430 + q := by
  have hrange := sound_range hks h
  omega

end

/-- The engine's domain stays wanted while the module is calm and the engine enabled. -/
theorem sound_wanted {ks ds : List Nat} {r : State} (hcalm : Calm [22] r) (hks : ∀ k ∈ calmKeys [22], k ∈ ks) (hmem : K.sndEnable ∈ ks)
    (hon : getB r K.sndEnable = true) (x : State) (h : DevFrame ks ds r x) : wanted x 22 = true := by
  have hx : Calm [22] x := hcalm.devFrame (by simp) hks h
  refine hx.wanted (.head _) (by decide) ?_
  have hrow : rowCondition x 22 = getB x K.sndEnable := rfl
  rw [hrow, getB, h.objs.getN hmem, ← getB, hon]

/-- The objects that the engine keeps through the settling around it. -/
def settledKeys : List Nat := calmKeys [22] ++ soundKeys

theorem mem_settledKeys {k : Nat} : k ∈ settledKeys → k ∈ calmKeys [22] ∨ k ∈ soundKeys := List.mem_append.1

/-- The settling leaves an engine alone that neither waits to start nor must stop. -/
theorem sound_settles {ds : List Nat} {v : State} (hD : Device settledKeys ds v) (hcalm : Calm [22] v)
    (hresume : getB v K.sndEnable = false ∨ sndSt v ≠ sndOff)
    (hshed : (22 ∈ ds ∧ domSt v 22 ≠ domStopping) ∨ (sndSt v ≠ sndRun ∧ sndSt v ≠ sndStarting)) :
    Settles (fun x => DevFrame settledKeys ds v x ∧ x.snd = v.snd) := by
  have hkey {x : State} (hx : DevFrame settledKeys ds v x) {k : Nat} (hk : k ∈ soundKeys) : getN x k = getN v k :=
    hx.objs.getN (List.mem_append.2 (.inr hk))
  have hhap := fun k hk => sound_not_hap (ks := settledKeys) (fun k => mem_settledKeys) (k := k) hk
  have hpan {q : Nat} (hq : q < 4) := fun k hk => sound_not_panel (ks := settledKeys) (fun k => mem_settledKeys) hq (k := k) hk
  have hpart {P : List Part} {x y : State} (hx : x.snd = v.snd) (hch : Changes P x y) (hP : Part.snd ∉ P) : y.snd = v.snd :=
    (hch.snd hP).trans hx
  refine ⟨fun x ⟨hx, hs⟩ => ⟨.settle hD hx, hpart hs (settle_ch (List.Subset.refl _) (Changes.refl _ x)) (by decide)⟩,
    fun x p hp ⟨hx, hs⟩ => ⟨⟨devFrame_restartOutput hD hp hx, hpart hs (restartOutput_changes x p) (by decide)⟩,
      ⟨devFrame_shedOutput hD hp hx, hpart hs (shedOutput_changes x p) (by decide)⟩⟩,
    fun x ⟨hx, hs⟩ => ⟨?_, ?_⟩, fun x p hp ⟨hx, hs⟩ => ⟨?_, ?_⟩, fun x ⟨hx, hs⟩ => ⟨?_, ?_⟩, fun x i hi ⟨hx, hs⟩ =>
      (hcalm.devFrame (by simp) (fun k hk => List.mem_append.2 (.inl hk)) hx).spreads i hi⟩
  · unfold resumeHaptics
    split
    · exact ⟨devFrame_startHaptics hD hhap hx, hpart hs (startHaptics_ch (List.Subset.refl _) (Changes.refl _ x)) (by decide)⟩
    · exact ⟨hx, hs⟩
  · unfold shedHaptics
    split
    · exact ⟨devFrame_shutHaptics hD hhap hx, hpart hs (shutHaptics_ch (List.Subset.refl _) (Changes.refl _ x)) (by decide)⟩
    · exact ⟨hx, hs⟩
  · unfold resumePanel
    split
    · exact ⟨devFrame_startPanel hD hp (hpan hp) hx, hpart hs (startPanel_ch (List.Subset.refl _) (Changes.refl _ x)) (by decide)⟩
    · exact ⟨hx, hs⟩
  · unfold shedPanel
    split
    · exact ⟨devFrame_shutPanel hD hp (hpan hp) hx, hpart hs (shutPanel_ch (List.Subset.refl _) (Changes.refl _ x)) (by decide)⟩
    · exact ⟨hx, hs⟩
  · have hstays : (enabled x K.sndEnable && sndSt x == sndOff) = false := by
      rw [enabled, getB, sndSt, hkey hx (by decide), hkey hx (by decide), ← getB, ← sndSt]
      obtain hoff | hstate := hresume
      · rw [hoff]; rfl
      · rw [beq_eq_false_iff_ne.2 hstate, Bool.and_false]
    rw [resumeSound, hstays]
    exact ⟨hx, hs⟩
  · have hstays : (stops x [22] && (sndSt x == sndRun || sndSt x == sndStarting)) = false := by
      rw [sndSt, hkey hx (by decide), ← sndSt]
      obtain ⟨hin, hdom⟩ | ⟨hrun, hstarting⟩ := hshed
      · have hsame : domSt x 22 = domSt v 22 := hx.doms 22 hin
        rw [stops, List.any_cons, hsame, beq_eq_false_iff_ne.2 hdom]
        rfl
      · rw [beq_eq_false_iff_ne.2 hrun, beq_eq_false_iff_ne.2 hstarting, Bool.or_false, Bool.and_false]
    rw [shedSound, hstays]
    exact ⟨hx, hs⟩

/-! ## The start -/

/-- The engine's start begins. -/
def soundBegun (s : State) : State := putN (writeB s K.sndEnable true) K.sndState sndStarting

/-- The engine runs: its period begins and its clock follows module time's. -/
def soundRunning (s : State) : State :=
  putB (putN (modSnd s (fun x => { x with periodAt := s.now, taken := [] })) K.sndState sndRun) K.sndLocked (getB s K.timeLocked)

def enabledStreamsRun (s : State) : State := allStreams.foldl (fun s e => if streamN s e.1 e.2 9 = 1 then streamRuns s e.1 e.2 else s) s

theorem calm_device {r : State} : Device (calmKeys [22]) [] r := sound_device (fun _ h => .inl h) (by simp) (fun h => absurd rfl h)

/-- A change of the engine's own objects keeps the module calm. -/
theorem calm_sound_write {r : State} (hcalm : Calm [22] r) {sub n : Nat} (hsub : sub < 256) : Calm [22] (putN r (objKey 0x4C00 sub) n) := by
  have hmem : objKey 0x4C00 sub ∉ calmKeys [22] := fun hk => by
    have hrange := (calmKeys_apart (by simp) hk).1
    simp only [objKey] at hrange
    omega
  exact hcalm.devFrame (by simp) (fun _ h => h) (DevFrame.putDevice calm_device (.refl _ _ r) hmem (by decide) hsub)

theorem calm_sound_enable {r : State} (hcalm : Calm [22] r) (b : Bool) : Calm [22] (writeB r K.sndEnable b) := by
  have hmem : K.sndEnable ∉ calmKeys [22] := fun hk => by
    have hrange := (calmKeys_apart (by simp) hk).1
    simp only [K.sndEnable, objKey] at hrange
    omega
  exact hcalm.devFrame (by simp) (fun _ h => h) (DevFrame.writeDevice calm_device (.refl _ _ r) hmem (by decide) (by decide))

theorem streamState_ne {e : Bool × Nat} (he : e ∈ allStreams) {k : Nat} (hk : k < 0x4C10 * 256 ∨ 0x4C70 * 256 ≤ k) :
    objKey (streamIdx e.1 e.2) 11 ≠ k := by
  have hidx := mem_allStreams he
  simp only [objKey]
  omega

/-- The start of the enabled streams moves their states alone. -/
theorem devFrame_streams {ks ds : List Nat} {r s : State} (hD : Device ks ds r) (hks : ∀ k ∈ ks, k < 0x4C10 * 256 ∨ 0x4C70 * 256 ≤ k)
    (h : DevFrame ks ds r s) : DevFrame ks ds r (enabledStreamsRun s) :=
  h.foldl _ fun x e he hx => .ite (devFrame_streamRuns hD (fun hk => streamState_ne he (hks _ hk) rfl)
    (by have := mem_allStreams he; omega) hx) hx

/-- The engine begins to run on the domain that it has. -/
theorem soundRunning_spec {u : State} (hcalm : Calm [22] u) (hon : getB u K.sndEnable = true) :
    Calm [22] (enabledStreamsRun (soundRunning u)) ∧ getB (enabledStreamsRun (soundRunning u)) K.sndEnable = true ∧
    domSt (enabledStreamsRun (soundRunning u)) 22 = domSt u 22 ∧ sndSt (enabledStreamsRun (soundRunning u)) = sndRun ∧
    getB (enabledStreamsRun (soundRunning u)) K.sndLocked = getB u K.timeLocked := by
  have hkept : ∀ k ∈ calmKeys [22] ++ [K.sndEnable], k ∈ calmKeys [22] ∨ k ∈ soundKeys := fun k hk =>
    (List.mem_append.1 hk).imp id fun h => by rw [List.mem_singleton.1 h]; decide
  have hlow : ∀ k ∈ calmKeys [22] ++ [K.sndEnable], k = K.sndEnable ∨ 0x4C70 * 256 ≤ k := fun k hk =>
    (List.mem_append.1 hk).elim (fun h => .inr (by have := (calmKeys_apart (by simp) h).1; omega)) (fun h => .inl (List.mem_singleton.1 h))
  have hne {sub : Nat} (hsub : sub < 256) (h1 : sub ≠ 1) : objKey 0x4C00 sub ∉ calmKeys [22] ++ [K.sndEnable] := fun hk => by
    have hrange := hlow _ hk
    simp only [K.sndEnable, objKey] at hrange
    omega
  have hD : Device (calmKeys [22] ++ [K.sndEnable]) [22] u := sound_device hkept (by simp) fun _ =>
    sound_wanted hcalm (fun k hk => List.mem_append.2 (.inl hk)) (by simp) hon
  have hperiod : DevFrame (calmKeys [22] ++ [K.sndEnable]) [22] u (modSnd u (fun x => { x with periodAt := u.now, taken := [] })) :=
    (DevFrame.refl _ _ u).of_eq rfl rfl
  have hrunning : DevFrame (calmKeys [22] ++ [K.sndEnable]) [22] u (soundRunning u) :=
    .putDevice hD (.putDevice hD hperiod (hne (by decide) (by decide)) (by decide) (by decide)) (hne (by decide) (by decide))
      (by decide) (by decide)
  have hstreams := devFrame_streams hD (fun k hk => (hlow k hk).imp (fun h => by rw [h]; decide) id) hrunning
  have hown : Device [K.sndState, K.sndLocked] [] (soundRunning u) :=
    sound_device (fun k hk => .inr (by revert k; decide)) (by simp) (fun h => absurd rfl h)
  have hstate := devFrame_streams hown (by decide) (.refl _ _ (soundRunning u))
  refine ⟨hcalm.devFrame (by simp) (fun k hk => List.mem_append.2 (.inl hk)) hstreams, ?_, hstreams.doms 22 (.head _), ?_, ?_⟩
  · rw [getB, hstreams.objs.getN (by simp), ← getB, hon]
  · rw [sndSt, hstate.objs.getN (by simp), soundRunning, putB]
    exact (congrArg Val.toNat (getV_putV_ne _ _ (by decide))).trans (getN_putN ..)
  · rw [getB, hstate.objs.getN (by simp), ← getB]
    exact getB_putB ..

/-- The engine's start leaves it running where its domain is on, and else starting. -/
theorem startSound_spec {s : State} (hcalm : Calm [22] s) : Calm [22] (startSound s) ∧ getB (startSound s) K.sndEnable = true ∧
    domSt (startSound s) 22 = domSt s 22 ∧
    (domSt s 22 = domOn → sndSt (startSound s) = sndRun ∧ getB (startSound s) K.sndLocked = getB s K.timeLocked) ∧
    (domSt s 22 ≠ domOn → sndSt (startSound s) = sndStarting) := by
  have hbegun : Calm [22] (soundBegun s) := calm_sound_write (calm_sound_enable hcalm true) (by decide)
  have hon : getB (soundBegun s) K.sndEnable = true := by
    rw [soundBegun, getB, getN_putN_ne _ _ (by decide), ← getB]
    exact getB_writeB ..
  have hkey {k : Nat} (h : k ≠ K.sndEnable ∧ k ≠ K.sndState) : getN (soundBegun s) k = getN s k := by
    rw [soundBegun, getN_putN_ne _ _ h.2]
    exact getN_writeN_ne s 1 h.1
  have hD : Device settledKeys [22] (soundBegun s) := sound_device (fun k => mem_settledKeys) (by simp) fun _ =>
    sound_wanted hbegun (fun k hk => List.mem_append.2 (.inl hk)) (by decide) hon
  have hset : DevFrame settledKeys [22] (soundBegun s) (settle (soundBegun s)) := .settle hD (.refl _ _ _)
  have hmem {k : Nat} (hk : k ∈ soundKeys) : k ∈ settledKeys := List.mem_append.2 (.inr hk)
  have hlocked : getB (settle (soundBegun s)) K.timeLocked = getB s K.timeLocked := by
    have hagrees : Agrees [K.timeLocked] (soundBegun s) (settle (soundBegun s)) := MemoryErrors.agrees_settle
      (fun d => by simp only [K.domState, K.timeLocked, objKey, List.mem_singleton]; omega) (.refl _ _)
    rw [getB, hagrees.getN (.head _), hkey (by decide), ← getB]
  have hdom : domSt (settle (soundBegun s)) 22 = domSt s 22 := (hset.doms 22 (.head _)).trans (hkey (by decide))
  have hcalm' := hbegun.devFrame (by simp) (fun k hk => List.mem_append.2 (.inl hk)) hset
  have hon' : getB (settle (soundBegun s)) K.sndEnable = true := by
    rw [getB, hset.objs.getN (hmem (by decide)), ← getB, hon]
  have hstate : sndSt (settle (soundBegun s)) = sndStarting := by
    rw [sndSt, hset.objs.getN (hmem (by decide)), soundBegun, getN_putN]
  have heq : startSound s = sndTryRun (settle (soundBegun s)) := rfl
  rw [heq]
  clear heq
  generalize settle (soundBegun s) = u at hlocked hdom hcalm' hon' hstate
  by_cases hd : domSt s 22 = domOn
  · have hrun : sndTryRun u = enabledStreamsRun (soundRunning u) := if_pos ⟨hstate, hdom.trans hd⟩
    obtain ⟨hcalm'', hon'', hdom'', hrunning, hlock⟩ := soundRunning_spec hcalm' hon'
    rw [hrun]
    exact ⟨hcalm'', hon'', hdom''.trans hdom, fun _ => ⟨hrunning, hlock.trans hlocked⟩, fun h => absurd hd h⟩
  · have hwaits : sndTryRun u = u := if_neg fun h => hd (hdom ▸ h.2)
    rw [hwaits]
    exact ⟨hcalm', hon', hdom, fun h => absurd h hd, fun _ => hstate⟩

/-! ## The stop -/

/-- A stream's stop leaves its state at 0 and every other object alone. -/
theorem streamStops_getN (s : State) (capture : Bool) (n : Nat) {k : Nat} (hk : ¬ noteKey k) : getN (streamStops s capture n) k =
    if k = objKey (streamIdx capture n) 11 then 0 else getN s k := by
  unfold streamStops
  by_cases hrun : streamN s capture n 11 = 0
  · rw [if_pos hrun]
    split
    next heq => rw [heq]; exact hrun
    next => rfl
  · rw [if_neg hrun, streamEvent, getN_of_changes (emit_ch (List.Subset.refl _) (Changes.refl _ _)) (by decide) hk]
    split
    next heq => rw [heq, getN_putN]
    next hne => exact getN_putN_ne s 0 hne

theorem soundKey_note {k : Nat} (h : k ∈ soundKeys) : ¬ noteKey k := by
  have hrange := mem_soundKeys h
  simp only [noteKey, K.dictNotifyDrop, K.regVoteFix, K.regVoteBad, K.kaolinCanDrop, K.logOut, objKey]
  omega

def streamsStop (l : List (Bool × Nat)) (s : State) : State := l.foldl (fun s e => streamStops s e.1 e.2) s

/-- The streams of a list stop: their states read 0, and every other object of the engine stays. -/
theorem streamsStop_getN (l : List (Bool × Nat)) (s : State) {k : Nat} (hk : k ∈ soundKeys) : getN (streamsStop l s) k =
    if k ∈ l.map (fun e => objKey (streamIdx e.1 e.2) 11) then 0 else getN s k := by
  induction l generalizing s with
  | nil => rfl
  | cons e l ih =>
    have hcons : streamsStop (e :: l) s = streamsStop l (streamStops s e.1 e.2) := List.foldl_cons ..
    rw [hcons, ih, streamStops_getN _ _ _ (soundKey_note hk)]
    simp only [List.map_cons, List.mem_cons]
    by_cases h : k = objKey (streamIdx e.1 e.2) 11
    · simp only [h, if_true, true_or, ite_self]
    · simp only [h, if_false, false_or]

theorem streamsStop_frame {ds ks : List Nat} {r s : State} (hD : Device ks ds r) (hks : ∀ k ∈ ks, k < 0x4C10 * 256 ∨ 0x4C70 * 256 ≤ k)
    (h : DevFrame ks ds r s) : DevFrame ks ds r (streamsStop allStreams s) :=
  h.foldl _ fun x e he hx => .ite hx (.emit hD (.putDevice hD hx (fun hk => streamState_ne he (hks _ hk) rfl)
    (by have := mem_allStreams he; omega) (by decide)))

/-- An engine that has fallen silent: nothing of it runs. -/
structure Silent (s : State) : Prop where
  calm : Calm [22] s
  off : getB s K.sndEnable = false
  stopped : sndSt s = sndStopping ∨ sndSt s = sndOff
  unlocked : getB s K.sndLocked = false
  held : s.snd.held = []
  streams : ∀ e ∈ allStreams, streamN s e.1 e.2 11 = 0

theorem streamKey_mem {e : Bool × Nat} (he : e ∈ allStreams) : objKey (streamIdx e.1 e.2) 11 ∈ soundKeys :=
  List.mem_append.2 (.inr (List.mem_map.2 ⟨e, he, rfl⟩))

/-- A frame of the engine's objects keeps it silent. -/
theorem Silent.devFrame {ds : List Nat} {s t : State} (hs : Silent s) (h : DevFrame settledKeys ds s t) (hsnd : t.snd = s.snd) : Silent t := by
  have hkey {k : Nat} (hk : k ∈ soundKeys) : getN t k = getN s k := h.objs.getN (List.mem_append.2 (.inr hk))
  refine ⟨hs.calm.devFrame (by simp) (fun k hk => List.mem_append.2 (.inl hk)) h, ?_, ?_, ?_, by rw [hsnd]; exact hs.held,
    fun e he => (hkey (streamKey_mem he)).trans (hs.streams e he)⟩
  · rw [getB, hkey (by decide), ← getB, hs.off]
  · rw [sndSt, hkey (by decide)]
    exact hs.stopped
  · rw [getB, hkey (by decide), ← getB, hs.unlocked]

/-- A change of the engine's state alone. -/
theorem Silent.putState {s : State} (hs : Silent s) {n : Nat} (hn : n = sndStopping ∨ n = sndOff) : Silent (putN s K.sndState n) := by
  refine ⟨calm_sound_write hs.calm (by decide), ?_, by rw [sndSt, getN_putN]; exact hn, ?_, hs.held, fun e he => ?_⟩
  · rw [getB, getN_putN_ne _ _ (by decide), ← getB, hs.off]
  · rw [getB, getN_putN_ne _ _ (by decide), ← getB, hs.unlocked]
  · exact (getN_putN_ne s n (streamState_ne he (by decide))).trans (hs.streams e he)

theorem Silent.settle {s : State} (hs : Silent s) : Silent (Machine.settle s) :=
  hs.devFrame (ds := []) (.settle (sound_device (fun k => mem_settledKeys) (by simp) (fun h => absurd rfl h)) (.refl _ _ s))
    ((settle_ch (List.Subset.refl _) (Changes.refl _ s)).snd (by decide))

/-- The disabled engine falls silent. -/
def silenced (s : State) : State := putN (silence (writeB s K.sndEnable false)) K.sndState sndStopping

theorem silenced_silent {s : State} (hcalm : Calm [22] s) : Silent (silenced s) := by
  have hcalm' := calm_sound_enable hcalm false
  have hoff : getB (writeB s K.sndEnable false) K.sndEnable = false := getB_writeB ..
  unfold silenced
  generalize writeB s K.sndEnable false = u at hcalm' hoff
  have hstops : DevFrame (calmKeys [22]) [] u (streamsStop allStreams u) := streamsStop_frame calm_device
    (fun k hk => by have := (calmKeys_apart (by simp) hk).1; omega) (.refl _ _ u)
  have hstop {k : Nat} (hk : k ∈ soundKeys) := streamsStop_getN allStreams u hk
  have heq : silence u = putB (modSnd (streamsStop allStreams u) (fun x => { x with held := [], lateRun := [], taken := [] })) K.sndLocked false :=
    rfl
  rw [heq]
  generalize streamsStop allStreams u = w at hstops hstop
  have hcalmW : Calm [22] w := hcalm'.devFrame (by simp) (fun _ h => h) hstops
  have hcalmH : Calm [22] (modSnd w (fun x => { x with held := [], lateRun := [], taken := [] })) :=
    hcalmW.devFrame (by simp) (fun _ h => h) ((DevFrame.refl (calmKeys [22]) [] w).of_eq rfl rfl)
  have hshut : Calm [22] (putN (putB (modSnd w (fun x => { x with held := [], lateRun := [], taken := [] })) K.sndLocked false)
      K.sndState sndStopping) :=
    calm_sound_write (calm_sound_write (n := 0) hcalmH (by decide)) (by decide)
  have hkey {k : Nat} (hk : k ≠ K.sndState ∧ k ≠ K.sndLocked) :
      getN (putN (putB (modSnd w (fun x => { x with held := [], lateRun := [], taken := [] })) K.sndLocked false) K.sndState sndStopping) k =
      getN w k := (getN_putN_ne _ _ hk.1).trans (getN_putN_ne (modSnd w _) 0 hk.2)
  refine ⟨hshut, ?_, .inl (getN_putN ..), ?_, rfl, fun e he => ?_⟩
  · rw [getB, hkey (by decide), hstop (by decide), if_neg, ← getB, hoff]
    intro hin
    obtain ⟨e, he, heq⟩ := List.mem_map.1 hin
    exact streamState_ne he (by decide) heq
  · rw [getB, getN_putN_ne _ _ (by decide), ← getB]
    exact getB_putB ..
  · rw [streamN, hkey ⟨streamState_ne he (by decide), streamState_ne he (by decide)⟩, hstop (streamKey_mem he), if_pos]
    exact List.mem_map.2 ⟨e, he, rfl⟩

/-- The engine's stop leaves it silent, where no enable is queued. -/
theorem stopSound_silent {s : State} (hcalm : Calm [22] s) (hrun : sndSt s = sndRun) (hnot : K.sndEnable ∉ s.transit) : Silent (stopSound s) := by
  have hstate : sndSt (writeB s K.sndEnable false) = sndRun := (getN_writeN_ne s 0 (by decide)).trans hrun
  have heq : stopSound s = sndStopCheck (settle (silenced s)) := by
    unfold stopSound
    rw [if_neg (by rw [hstate]; decide)]
    rfl
  have hsilent := (silenced_silent hcalm).settle
  have htransit : (settle (silenced s)).transit = s.transit := by
    have hch : Changes [.fresh, .objs, .voteSecond, .funcs, .sess, .served, .snd, .power, .grog, .notes] s (settle (silenced s)) :=
      settle_ch (by decide) (putN_ch (by decide) (silence_ch (by decide) (writeB_ch (by decide) (Changes.refl _ s))))
    exact hch.transit (by decide)
  rw [heq]
  generalize settle (silenced s) = u at hsilent htransit
  unfold sndStopCheck
  split
  · have hoff := hsilent.putState (.inr rfl)
    have htransit' : (putN u K.sndState sndOff).transit = s.transit := htransit
    generalize putN u K.sndState sndOff = w at hoff htransit'
    unfold sndQueued
    rw [htransit', if_neg (by simp [hnot])]
    exact hoff
  · exact hsilent

/-! ## The two writes -/

theorem sndEnable_applied {s v : State} {c : WCtx} {n : Nat} (h : sndEnableApply s (n == 1) = (v, .ok)) :
    areaApply s c 0x4C00 1 (.num n) = accepted (powerDone v) := by
  rw [areaApply_sndEnable, Val.toNat, h]
  exact powered_ok v

/-- The end of a power command leaves the engine as it is, where it neither waits to start nor must stop. -/
theorem sound_powerDone {ds : List Nat} {v : State} (hD : Device settledKeys ds v) (hcalm : Calm [22] v)
    (hresume : getB v K.sndEnable = false ∨ sndSt v ≠ sndOff)
    (hshed : (22 ∈ ds ∧ domSt v 22 ≠ domStopping) ∨ (sndSt v ≠ sndRun ∧ sndSt v ≠ sndStarting)) :
    DevFrame settledKeys ds v (powerDone v) ∧ (powerDone v).snd = v.snd := by
  have hsettled := (sound_settles hD hcalm hresume hshed).powerSettle ⟨.refl _ _ v, rfl⟩
  have hrun : pwrMode (powerSettle v) = 1 := (hsettled.1.mode.objs.getN (.head _)).trans hcalm.run
  rwa [powerDone_run hrun]

section
variable {s : State} {r : DictReq} {i : Nat} (hquiet : Quiet s) (hmgr : managerSession s i) (hnot : K.sndEnable ∉ s.transit)
include hquiet hmgr hnot

theorem sndEnable_spec (h : AdmittedWrite s r i K.sndEnable 1) (hoff : getB s K.sndEnable = false) (hstate : sndSt s = sndOff)
    (hdom : domSt s 22 ≠ domStopping) :
    ∃ t, exec (.sndEnable r) s = .next t ∧ answered t r 0x11 .ok ∧ getB t K.sndEnable = true ∧
      (domSt s 22 = domOn → sndSt t = sndRun ∧ getB t K.sndLocked = getB s K.timeLocked) ∧
      (domSt s 22 ≠ domOn → sndSt t = sndStarting) := by
  have hcalm : Calm [22] (renewed s i) := renewed_calm hquiet (by simp)
  obtain ⟨hcalmV, honV, hdomV, hrunV, hwaitV⟩ := startSound_spec hcalm
  have hcontains : (renewed s i).transit.contains K.sndEnable = false := by simpa [renewed] using hnot
  have hstopping : (sndSt (renewed s i) == sndStopping || anyStopping (renewed s i) [22]) = false := by
    rw [show sndSt (renewed s i) = sndOff from hstate, anyStopping, hcalm.run, List.any_cons, beq_eq_false_iff_ne.2
      (show domSt (renewed s i) 22 ≠ domStopping from hdom)]
    rfl
  have happly : sndEnableApply (renewed s i) ((1 : Nat) == 1) = (startSound (renewed s i), .ok) := by
    unfold sndEnableApply enableWrite
    rw [hcontains, hstopping, show getB (renewed s i) K.sndEnable = false from hoff]
    rfl
  have hclaims : (areaClaims (renewed s i) 0x4C00 1 1).1 = [] := by
    rw [areaClaims_sndEnable]
    exact enableClaims_quiet hquiet (by decide +kernel)
  obtain ⟨u, hexec, hans, hch⟩ := areaWrite_unclaimed (t := powerDone (startSound (renewed s i))) row_sndEnable (.inl rfl) (by decide) (by decide) h hmgr
    (areaAccess_sndEnable (isMgr_session hmgr)) (by rfl) (by rfl) areaCheck_sndEnable hclaims
    (sndEnable_applied happly)
  have hnotOff : sndSt (startSound (renewed s i)) ≠ sndOff ∧ domSt (startSound (renewed s i)) 22 ≠ domStopping := by
    refine ⟨?_, by rw [hdomV]; exact hdom⟩
    by_cases hd : domSt (renewed s i) 22 = domOn
    · rw [(hrunV hd).1]; decide
    · rw [hwaitV hd]; decide
  have hD : Device settledKeys [22] (startSound (renewed s i)) := sound_device (fun k => mem_settledKeys) (by simp) fun _ =>
    sound_wanted hcalmV (fun k hk => List.mem_append.2 (.inl hk)) (by decide) honV
  obtain ⟨hdone, -⟩ := sound_powerDone hD hcalmV (.inr hnotOff.1) (.inl ⟨.head _, hnotOff.2⟩)
  have hkey {k : Nat} (hk : k ∈ soundKeys) : getN u k = getN (startSound (renewed s i)) k :=
    (hch.getN (by decide) (by decide) k).trans (hdone.objs.getN (List.mem_append.2 (.inr hk)))
  refine ⟨u, hexec, hans, ?_, fun hd => ⟨?_, ?_⟩, fun hd => ?_⟩
  · rw [getB, hkey (by decide), ← getB, honV]
  · exact (hkey (by decide)).trans (hrunV hd).1
  · rw [getB, hkey (by decide), ← getB, (hrunV hd).2]
    rfl
  · exact (hkey (by decide)).trans (hwaitV hd)

theorem sndDisable_spec (h : AdmittedWrite s r i K.sndEnable 0) (hon : getB s K.sndEnable = true) (hstate : sndSt s = sndRun) :
    ∃ t, exec (.sndDisable r) s = .next t ∧ answered t r 0x11 .ok ∧ getB t K.sndEnable = false ∧
      (sndSt t = sndStopping ∨ sndSt t = sndOff) ∧ getB t K.sndLocked = false ∧ t.snd.held = [] ∧
      (∀ n, n < 64 → getN t (K.inState n) = 0) ∧ (∀ n, n < 16 → getN t (K.capState n) = 0) := by
  have hcalm : Calm [22] (renewed s i) := renewed_calm hquiet (by simp)
  have hsilent : Silent (stopSound (renewed s i)) := stopSound_silent hcalm hstate hnot
  have hcontains : (renewed s i).transit.contains K.sndEnable = false := by simpa [renewed] using hnot
  have happly : sndEnableApply (renewed s i) ((0 : Nat) == 1) = (stopSound (renewed s i), .ok) := by
    unfold sndEnableApply enableWrite
    rw [if_neg (by decide), hcontains, if_neg (by decide), if_pos (show getB (renewed s i) K.sndEnable = true from hon)]
  have hclaims : (areaClaims (renewed s i) 0x4C00 1 0).1 = [] :=
    (congrArg Prod.fst areaClaims_sndEnable).trans (enableClaims_off (renewed s i) K.sndEnable (sndSt (renewed s i) == sndStopping) [22])
  obtain ⟨u, hexec, hans, hch⟩ := areaWrite_unclaimed (t := powerDone (stopSound (renewed s i))) row_sndEnable (.inl rfl) (by decide) (by decide) h hmgr
    (areaAccess_sndEnable (isMgr_session hmgr)) (by rfl) (by rfl) areaCheck_sndEnable hclaims
    (sndEnable_applied happly)
  have hD : Device settledKeys [] (stopSound (renewed s i)) :=
    sound_device (fun k => mem_settledKeys) (by simp) (fun h => absurd rfl h)
  have hnotRun : sndSt (stopSound (renewed s i)) ≠ sndRun ∧ sndSt (stopSound (renewed s i)) ≠ sndStarting := by
    obtain hst | hst := hsilent.stopped <;> rw [hst] <;> decide
  obtain ⟨hdone, hsnd⟩ := sound_powerDone hD hsilent.calm (.inl hsilent.off) (.inr hnotRun)
  obtain ⟨-, hoff, hstopped, hunlocked, hheld, hstreams⟩ := hsilent.devFrame hdone hsnd
  have hkey (k : Nat) : getN u k = getN (powerDone (stopSound (renewed s i))) k := hch.getN (by decide) (by decide) k
  refine ⟨u, hexec, hans, ?_, ?_, ?_, by rw [hch.snd (by decide)]; exact hheld, fun n hn => ?_, fun n hn => ?_⟩
  · rw [getB, hkey, ← getB, hoff]
  · rw [sndSt, hkey]
    exact hstopped
  · rw [getB, hkey, ← getB, hunlocked]
  · exact (hkey _).trans (hstreams (false, n) (by simp [allStreams, hn]))
  · exact (hkey _).trans (hstreams (true, n) (by simp [allStreams, hn]))

end

end Sys2Proof.Proofs.SoundEngine

/-!
PROOFS. O53, its second part: a stream's enable (R391), the packets (R397), the chimes (R398, R400) and the audio clock (R388).
-/

namespace Sys2Proof.Proofs.SoundStreams

open Sys2Proof.Machine
open Sys2Proof.Proofs.AreaWrites (areaWrite_done areaWrite_refused inRange_single)
open Sys2Proof.Proofs.FrameEvents (emit_onlyAndNotes getN_emit)

/-! ## A stream's enable -/

/-- A stream that the module has: 64 inputs, 16 captures. -/
def isStream (capture : Bool) (n : Nat) : Prop := n < 64 ∧ (capture = true → n < 16)

section
variable {s : State} {c : WCtx} {capture : Bool} {n sub : Nat} (hn : isStream capture n) (hsub : sub < 256)
include hn hsub

theorem areaApply_stream (x : Val) : areaApply s c (streamIdx capture n) sub x = accepted (streamApply s capture n sub x.toNat) := by
  cases capture
  · exact areaApply_inStream hn.1 hsub
  · exact areaApply_capStream (hn.2 rfl) hsub

theorem areaCheck_stream (x : Val) : areaCheck s c (streamIdx capture n) sub x = streamCheck s capture n sub x.toNat := by
  cases capture
  · exact areaCheck_inStream hn.1 hsub
  · exact areaCheck_capStream (hn.2 rfl) hsub

theorem areaClaims_stream (x : Nat) : areaClaims s (streamIdx capture n) sub x = ([], 0) := by
  cases capture
  · exact areaClaims_inStream hn.1 hsub
  · exact areaClaims_capStream (hn.2 rfl) hsub

theorem areaAccess_stream (x : Nat) : areaAccess s c (streamIdx capture n) sub x = streamAccess s c capture n sub := by
  cases capture
  · exact areaAccess_inStream hn.1 hsub
  · exact areaAccess_capStream (hn.2 rfl) hsub

end

theorem row_streamEnable {capture : Bool} {n : Nat} (hn : isStream capture n) :
    rowIs (objKey (streamIdx capture n) 9) .bool .rw [(0, 1)] = true := by
  cases capture
  · exact row_inEn ⟨n, hn.1⟩
  · exact row_capEn ⟨n, hn.2 rfl⟩

theorem streamEnable_key (capture : Bool) (n : Nat) : (if capture then K.capEn n else K.inEn n) = objKey (streamIdx capture n) 9 := by
  cases capture <;> rfl

theorem streamIdx_range {capture : Bool} {n : Nat} (hn : isStream capture n) : 0x4C10 ≤ streamIdx capture n ∧ streamIdx capture n < 0x4C70 := by
  obtain ⟨hlt, hcap⟩ := hn
  unfold streamIdx
  cases capture
  · simp only [Bool.false_eq_true, if_false]; omega
  · have := hcap rfl
    simp only [if_true]; omega

theorem streamKey_note {capture : Bool} {n sub : Nat} (hn : isStream capture n) (hsub : sub < 256) : ¬ noteKey (objKey (streamIdx capture n) sub) := by
  have hidx := streamIdx_range hn
  simp only [noteKey, K.dictNotifyDrop, K.regVoteFix, K.regVoteBad, K.kaolinCanDrop, K.logOut, objKey]
  omega

/-- The objects that an enable can move. -/
def enableKeys (capture : Bool) (n : Nat) : List Nat := [objKey (streamIdx capture n) 9, objKey (streamIdx capture n) 11]

theorem stateKey_ne (capture : Bool) (n : Nat) : objKey (streamIdx capture n) 9 ≠ objKey (streamIdx capture n) 11 := by
  simp only [objKey]
  omega

/-- A stream's start takes its position from what the engine draws. -/
def drawnAt (s : State) (capture : Bool) (n : Nat) : State :=
  modSnd (draw s) (fun x => if capture then { x with wr := tset x.wr n (Config.freeNat s.fresh % 2 ^ 32) }
    else { x with rd := tset x.rd n (Config.freeNat s.fresh % 2 ^ 32) })

theorem streamRuns_eq (s : State) (capture : Bool) (n : Nat) :
    streamRuns s capture n = streamEvent (putN (drawnAt s capture n) (objKey (streamIdx capture n) 11) 1) capture n 0x0600 := rfl

/-- What an accepted write of a stream's enable leaves. -/
structure Enabled (s t : State) (capture : Bool) (n v : Nat) : Prop where
  enable : streamN t capture n 9 = v
  objs : onlyObjsAndNotes (enableKeys capture n) s t

section
variable {s : State} {capture : Bool} {n : Nat} (hn : isStream capture n)
include hn

/-- An event of a stream after its enable and its state were set. -/
theorem enabled_told {w : State} {v st code : Nat} (h9 : streamN w capture n 9 = v) (hobjs : onlyObjs (enableKeys capture n) s w) :
    Enabled s (streamEvent (putN w (objKey (streamIdx capture n) 11) st) capture n code) capture n v ∧
    streamN (streamEvent (putN w (objKey (streamIdx capture n) 11) st) capture n code) capture n 11 = st := by
  have hwritten : onlyObjs (enableKeys capture n) s (putN w (objKey (streamIdx capture n) 11) st) :=
    onlyObjs_putN st (.tail _ (.head _)) hobjs
  have henable : getN (putN w (objKey (streamIdx capture n) 11) st) (objKey (streamIdx capture n) 9) = v :=
    (getN_putN_ne w st (stateKey_ne capture n)).trans h9
  have hstate : getN (putN w (objKey (streamIdx capture n) 11) st) (objKey (streamIdx capture n) 11) = st := getN_putN ..
  generalize putN w (objKey (streamIdx capture n) 11) st = u at hwritten henable hstate
  refine ⟨⟨?_, onlyAndNotes_trans (onlyAndNotes_of_only hwritten) (emit_onlyAndNotes _ _ _ _ _ _ _)⟩, ?_⟩
  · exact (getN_emit u _ _ _ _ _ (streamKey_note hn (by decide))).trans henable
  · exact (getN_emit u _ _ _ _ _ (streamKey_note hn (by decide))).trans hstate

omit hn in
theorem enable_written (v : Nat) : streamN (writeN s (objKey (streamIdx capture n) 9) v) capture n 9 = v ∧
    onlyObjs (enableKeys capture n) s (writeN s (objKey (streamIdx capture n) 9) v) :=
  ⟨getN_writeN .., onlyObjs_writeN v (.head _) (onlyObjs_refl _ s)⟩

omit hn in
theorem streamApply_eq {v : Nat} (hv : v ≠ streamN s capture n 9) : streamApply s capture n 9 v = if v = 1 then
      if sndSt s = sndRun then streamRuns (writeN s (objKey (streamIdx capture n) 9) v) capture n
      else writeN s (objKey (streamIdx capture n) 9) v
    else streamStops (writeN s (objKey (streamIdx capture n) 9) v) capture n := by
  unfold streamApply
  extract_lets k t
  have ht : t = writeN s (objKey (streamIdx capture n) 9) v := if_neg (by decide)
  rw [ht, if_pos ⟨rfl, hv⟩]

theorem streamApply_enable (hoff : streamN s capture n 9 = 0) : Enabled s (streamApply s capture n 9 1) capture n 1 ∧
    (sndSt s = sndRun → streamN (streamApply s capture n 9 1) capture n 11 = 1) ∧
    (sndSt s ≠ sndRun → streamN (streamApply s capture n 9 1) capture n 11 = streamN s capture n 11) := by
  obtain ⟨henable, hobjs⟩ := enable_written (s := s) (capture := capture) (n := n) 1
  rw [streamApply_eq (by rw [hoff]; decide), if_pos rfl]
  by_cases hrun : sndSt s = sndRun
  · rw [if_pos hrun]
    have hdrawn : onlyObjs (enableKeys capture n) s (drawnAt (writeN s (objKey (streamIdx capture n) 9) 1) capture n) := hobjs
    have hdrawn9 : streamN (drawnAt (writeN s (objKey (streamIdx capture n) 9) 1) capture n) capture n 9 = 1 := henable
    obtain ⟨hdone, hstate⟩ := enabled_told hn (st := 1) (code := 0x0600) hdrawn9 hdrawn
    rw [streamRuns_eq]
    exact ⟨hdone, fun _ => hstate, fun h => absurd hrun h⟩
  · rw [if_neg hrun]
    exact ⟨⟨henable, onlyAndNotes_of_only hobjs⟩, fun h => absurd h hrun, fun _ => getN_writeN_ne s 1 (stateKey_ne capture n).symm⟩

theorem streamApply_disable (hon : streamN s capture n 9 = 1) : Enabled s (streamApply s capture n 9 0) capture n 0 ∧
    streamN (streamApply s capture n 9 0) capture n 11 = 0 := by
  obtain ⟨henable, hobjs⟩ := enable_written (s := s) (capture := capture) (n := n) 0
  rw [streamApply_eq (by rw [hon]; decide), if_neg (by decide)]
  generalize writeN s (objKey (streamIdx capture n) 9) 0 = w at henable hobjs
  unfold streamStops
  by_cases hstate : streamN w capture n 11 = 0
  · rw [if_pos hstate]
    exact ⟨⟨henable, onlyAndNotes_of_only hobjs⟩, hstate⟩
  · rw [if_neg hstate]
    exact enabled_told hn henable hobjs

end

section
variable {s : State} {r : DictReq} {i : Nat} {capture : Bool} {n : Fin 64} (hn : capture = true → n.val < 16)
  (hrole : (sessOf s i).role = .vf ∨ (sessOf s i).role = .mgr) (howner : (sessOf s i).func = streamN s capture n 1)
include hn hrole howner

omit hn hrole in
theorem streamAccess_owner {found : Option Nat} : streamAccess (renewed s i) (sessionCtx s r i found) capture n 9 = true := by
  unfold streamAccess
  rw [if_neg (by decide), show (sessionCtx s r i found).func = streamN (renewed s i) capture n 1 from howner]
  simp

omit hrole howner in
theorem stream_isStream : isStream capture n := ⟨n.isLt, hn⟩

theorem streamEnable_written {v : Nat} {t : State} (hv : v = 0 ∨ v = 1) (h : AdmittedWrite s r i (objKey (streamIdx capture n) 9) v)
    (hcheck : streamCheck s capture n 9 v = .ok) (happly : streamApply (renewed s i) capture n 9 v = t) :
    ∃ u, writeObject s r (objKey (streamIdx capture n) 9) v = .next u ∧ answered u r 0x11 .ok ∧ Changes [.sess, .resp] t u := by
  have hidx := streamIdx_range (stream_isStream hn)
  exact areaWrite_done (row_streamEnable (stream_isStream hn)) (.inl rfl) (by omega) (by decide) h (hrole.elim .inr .inl)
    ((areaAccess_stream (stream_isStream hn) (by decide) v).trans (streamAccess_owner howner)) (by rcases hv with rfl | rfl <;> rfl)
    (by rcases hv with rfl | rfl <;> rfl)
    ((areaCheck_stream (stream_isStream hn) (by decide) _).trans (show streamCheck (renewed s i) capture n 9 v = .ok from hcheck))
    (areaClaims_stream (stream_isStream hn) (by decide) v)
    ((areaApply_stream (stream_isStream hn) (by decide) _).trans (congrArg accepted happly)) (.inl rfl)

omit hn hrole howner in
theorem firstRefusal_range (b : Bool) : firstRefusal [(b, .range), (false, .busy)] = if b then .range else .ok := by
  cases b <;> rfl

omit hn hrole howner in
/-- The only check of an enable: an input's group meets no other's. -/
theorem streamCheck_enable (v : Nat) : streamCheck s capture n 9 v =
    if !capture && decide (v = 1) && streamN s capture n 1 != 0xFF && groupClash s n (streamN s capture n 1)
      (if streamN s capture n 2 = 0 then streamN s capture n 3 else 1) then .range else .ok := by
  rw [← firstRefusal_range]
  unfold streamCheck
  simp

theorem stream_enabled (h : AdmittedWrite s r i (objKey (streamIdx capture n) 9) 1) (hoff : streamN s capture n 9 = 0)
    (hclash : capture = false → groupClash s n (streamN s false n 1) (groupSpan s n) = false) :
    ∃ t, writeObject s r (objKey (streamIdx capture n) 9) 1 = .next t ∧ answered t r 0x11 .ok ∧ streamN t capture n 9 = 1 ∧
      (sndSt s = sndRun → streamN t capture n 11 = 1) ∧ (sndSt s ≠ sndRun → streamN t capture n 11 = streamN s capture n 11) ∧
      onlyObjsAndNotes [objKey (streamIdx capture n) 9, objKey (streamIdx capture n) 11] s t := by
  have hcheck : streamCheck s capture n 9 1 = .ok := by
    rw [streamCheck_enable]
    refine if_neg ?_
    cases capture
    · have hno := hclash rfl
      rw [groupSpan] at hno
      rw [hno]
      simp
    · simp
  obtain ⟨u, hexec, hans, hch⟩ := streamEnable_written hn hrole howner (.inr rfl) h hcheck rfl
  obtain ⟨hdone, hrun, hwait⟩ := streamApply_enable (s := renewed s i) (stream_isStream hn) hoff
  have hkey (k : Nat) : getN u k = getN (streamApply (renewed s i) capture n 9 1) k := hch.getN (by decide) (by decide) k
  refine ⟨u, hexec, hans, (hkey _).trans hdone.enable, fun hr => (hkey _).trans (hrun hr), fun hr => (hkey _).trans (hwait hr), ?_⟩
  exact onlyAndNotes_trans (onlyAndNotes_trans (onlyAndNotes_of_only (onlyObjs_of_eq rfl)) hdone.objs)
    (onlyAndNotes_of_changes hch (by decide))

theorem stream_disabled (h : AdmittedWrite s r i (objKey (streamIdx capture n) 9) 0) (hon : streamN s capture n 9 = 1) :
    ∃ t, writeObject s r (objKey (streamIdx capture n) 9) 0 = .next t ∧ answered t r 0x11 .ok ∧ streamN t capture n 9 = 0 ∧
      streamN t capture n 11 = 0 ∧ onlyObjsAndNotes [objKey (streamIdx capture n) 9, objKey (streamIdx capture n) 11] s t := by
  have hcheck : streamCheck s capture n 9 0 = .ok := by
    rw [streamCheck_enable]
    simp
  obtain ⟨u, hexec, hans, hch⟩ := streamEnable_written hn hrole howner (.inl rfl) h hcheck rfl
  obtain ⟨hdone, hstate⟩ := streamApply_disable (s := renewed s i) (stream_isStream hn) hon
  have hkey (k : Nat) : getN u k = getN (streamApply (renewed s i) capture n 9 0) k := hch.getN (by decide) (by decide) k
  refine ⟨u, hexec, hans, (hkey _).trans hdone.enable, (hkey _).trans hstate, ?_⟩
  exact onlyAndNotes_trans (onlyAndNotes_trans (onlyAndNotes_of_only (onlyObjs_of_eq rfl)) hdone.objs)
    (onlyAndNotes_of_changes hch (by decide))

/-- An input whose group meets another's is refused. -/
theorem stream_clashes (h : AdmittedWrite s r i (objKey (streamIdx false n) 9) 1) (hinput : capture = false) (hthere : streamN s false n 1 ≠ 0xFF)
    (hclash : groupClash s n (streamN s false n 1) (groupSpan s n) = true) :
    ∃ t, writeObject s r (objKey (streamIdx false n) 9) 1 = .next t ∧ answered t r 0x11 .range ∧ Changes [.fresh, .sess, .resp] s t := by
  subst hinput
  have hn' : isStream false n := stream_isStream hn
  have hidx := streamIdx_range hn'
  have hcheck : streamCheck s false n 9 1 = .range := by
    rw [streamCheck_enable]
    rw [groupSpan] at hclash
    exact if_pos (by simp [hthere, hclash])
  exact areaWrite_refused (row_streamEnable hn') (.inl rfl) (by omega) (by decide) h (hrole.elim .inr .inl)
    ((areaAccess_stream hn' (by decide) 1).trans (streamAccess_owner howner)) (by rfl) (by rfl)
    ((areaCheck_stream hn' (by decide) _).trans (show streamCheck (renewed s i) false n 9 1 = .range from hcheck))
    (.inr rfl) ⟨by decide, by decide⟩ (by decide)

/-- The clause of O53 for the streams' enables. -/
theorem streamEnable_spec :
    (AdmittedWrite s r i (if capture then K.capEn n else K.inEn n) 1 → streamN s capture n 9 = 0 →
      (capture = false → groupClash s n (streamN s false n 1) (groupSpan s n) = false) →
      ∃ t, exec (.streamEnable r capture n true) s = .next t ∧ answered t r 0x11 .ok ∧ streamN t capture n 9 = 1 ∧
        (sndSt s = sndRun → streamN t capture n 11 = 1) ∧ (sndSt s ≠ sndRun → streamN t capture n 11 = streamN s capture n 11) ∧
        onlyObjsAndNotes [objKey (streamIdx capture n) 9, objKey (streamIdx capture n) 11] s t) ∧
    (AdmittedWrite s r i (K.inEn n) 1 → capture = false → streamN s false n 1 ≠ 0xFF →
      groupClash s n (streamN s false n 1) (groupSpan s n) = true →
      ∃ t, exec (.streamEnable r capture n true) s = .next t ∧ answered t r 0x11 .range ∧ Changes [.fresh, .sess, .resp] s t) ∧
    (AdmittedWrite s r i (if capture then K.capEn n else K.inEn n) 0 → streamN s capture n 9 = 1 →
      ∃ t, exec (.streamEnable r capture n false) s = .next t ∧ answered t r 0x11 .ok ∧ streamN t capture n 9 = 0 ∧
        streamN t capture n 11 = 0 ∧ onlyObjsAndNotes [objKey (streamIdx capture n) 9, objKey (streamIdx capture n) 11] s t) := by
  have hexec (v : Bool) : exec (.streamEnable r capture n v) s = writeObject s r (objKey (streamIdx capture n) 9) (b2n v) := by
    rw [← streamEnable_key]
    rfl
  have hinput : K.inEn n = objKey (streamIdx false n) 9 := streamEnable_key false n
  rw [hexec, hexec, streamEnable_key, hinput]
  refine ⟨stream_enabled hn hrole howner, fun h hinput hthere hclash => ?_, stream_disabled hn hrole howner⟩
  subst hinput
  exact stream_clashes hn hrole howner h rfl hthere hclash

end

end Sys2Proof.Proofs.SoundStreams

/-!
PROOFS. O53, its third part: packets of the network (R397), the audio clock (R388) and the chimes (R398, R400).
-/

namespace Sys2Proof.Proofs.SoundPackets

open Sys2Proof.Machine

theorem modSnd_changes (s : State) (g : Snd → Snd) : Changes [.snd] s (modSnd s g) := ch_snd (Changes.refl _ s) (by decide)

theorem xrunEvent_changes (s : State) (kind n : Nat) (fs : List Nat) :
    Changes [.fresh, .voteSecond, .funcs, .sess, .grog, .notes] s (xrunEvent s kind n fs) :=
  xrunEvent_ch (List.Subset.refl _) (Changes.refl _ s)

/-! ## Packets -/

/-- A packet that came after its presentation time is counted. -/
def packetLate (l : Nat) (x : Snd) : Snd :=
  { x with late := tset x.late l (satInc 32 (tget x.late l 0)), lateRun := if !x.lateRun.contains l then l :: x.lateRun else x.lateRun }

/-- A packet in time waits for its presentation. -/
def packetHeld (l at_ : Nat) (y : List (BitVec 24)) (x : Snd) : Snd :=
  { x with held := tset x.held l (tget x.held l [] ++ [(at_, y)]), lateRun := x.lateRun.filter (· ≠ l) }

theorem avtpPacketRx_spec {s : State} {l : Fin 8} {at_ : BitVec 64} {x : List (BitVec 24)} (hrun : sndSt s = sndRun) :
    (s.now ≤ at_.toNat → ∃ t, exec (.avtpPacketRx l at_ x) s = .next t ∧
      tget t.snd.held l [] = tget s.snd.held l [] ++ [(at_.toNat, x)] ∧ tget t.snd.late l 0 = tget s.snd.late l 0 ∧ Changes [.snd] s t) ∧
    (at_.toNat < s.now → ∃ t, exec (.avtpPacketRx l at_ x) s = .next t ∧ tget t.snd.late l 0 = satInc 32 (tget s.snd.late l 0) ∧
      t.snd.held = s.snd.held ∧ onlyObjsAndNotes [] s t) := by
  refine ⟨fun hin => ⟨modSnd s (packetHeld l at_.toNat x), ?_, tget_tset_same .., rfl, modSnd_changes s _⟩, fun hlate => ?_⟩
  · show execAvtpPacketRx l at_ x s = _
    unfold execAvtpPacketRx
    rw [if_neg (by simp [hrun]), if_neg (by omega)]
    rfl
  · have hexec : exec (.avtpPacketRx l at_ x) s = .next (if !s.snd.lateRun.contains l.val then
        xrunEvent (modSnd s (packetLate l)) 3 l [] else modSnd s (packetLate l)) := by
      show execAvtpPacketRx l at_ x s = _
      unfold execAvtpPacketRx
      rw [if_neg (by simp [hrun]), if_pos hlate]
      rfl
    have hcounted : tget (modSnd s (packetLate l)).snd.late l 0 = satInc 32 (tget s.snd.late l 0) := tget_tset_same ..
    have hheld : (modSnd s (packetLate l)).snd.held = s.snd.held := rfl
    have hobjs : onlyObjsAndNotes [] s (modSnd s (packetLate l)) := onlyAndNotes_of_changes (modSnd_changes s _) (by decide)
    rw [hexec]
    generalize modSnd s (packetLate l) = u at hcounted hheld hobjs
    split
    · have hch := xrunEvent_changes u 3 l []
      have hsnd := hch.snd (by decide)
      exact ⟨_, rfl, by rw [hsnd]; exact hcounted, by rw [hsnd]; exact hheld, onlyAndNotes_trans hobjs (onlyAndNotes_of_changes hch (by decide))⟩
    · exact ⟨_, rfl, hcounted, hheld, hobjs⟩

theorem avtpPacketTx_spec {s : State} {l : Fin 8} (hrun : sndSt s = sndRun)
    (hdue : (tget s.snd.sent l (0, 0, 0)).1 = 0 ∨ (tget s.snd.sent l (0, 0, 0)).2.2 + 125000 ≤ s.now) :
    ∃ t, exec (.avtpPacketTx l) s = .next t ∧ tget t.snd.sent l (0, 0, 0) = ((tget s.snd.sent l (0, 0, 0)).1 + 1,
      (s.now + getN s K.sndPto * 1000) % 2 ^ 64, s.now) ∧ tget t.snd.packets l [] = talkerPacket s l ∧ Changes [.snd] s t := by
  refine ⟨modSnd s (fun x => { x with
    sent := tset x.sent l ((tget s.snd.sent l (0, 0, 0)).1 + 1, (s.now + getN s K.sndPto * 1000) % 2 ^ 64, s.now)
    packets := tset x.packets l (talkerPacket s l) }), ?_, tget_tset_same .., tget_tset_same .., modSnd_changes s _⟩
  show execAvtpPacketTx l s = _
  unfold execAvtpPacketTx
  dsimp only
  rw [if_neg]
  rintro (h | ⟨hsent, hearly⟩)
  · exact h hrun
  · omega

/-! ## The audio clock -/

theorem clockLockChange_spec (s : State) (b : Bool) : ∃ t, exec (.clockLockChange b) s = .next t ∧ getB t K.timeLocked = b ∧
    getB t K.sndLocked = (if sndSt s = sndRun then b else getB s K.sndLocked) ∧ onlyObjs [K.timeLocked, K.sndLocked] s t := by
  have hstate : sndSt (putB s K.timeLocked b) = sndSt s := getN_putN_ne s _ (by decide)
  have hobjs : onlyObjs [K.timeLocked, K.sndLocked] s (putB s K.timeLocked b) := onlyObjs_putN _ (.head _) (onlyObjs_refl _ s)
  have hset : getB (putB s K.timeLocked b) K.timeLocked = b := getB_putB ..
  have hlocked : getB (putB s K.timeLocked b) K.sndLocked = getB s K.sndLocked := by
    rw [getB, show getN (putB s K.timeLocked b) K.sndLocked = _ from getN_putN_ne s _ (by decide), ← getB]
  have hexec : exec (.clockLockChange b) s = .next (if sndSt (putB s K.timeLocked b) = sndRun then
      putB (putB s K.timeLocked b) K.sndLocked b else putB s K.timeLocked b) := rfl
  rw [hexec]
  generalize putB s K.timeLocked b = u at hstate hobjs hset hlocked
  rw [hstate]
  by_cases hrun : sndSt s = sndRun
  · rw [if_pos hrun, if_pos hrun]
    refine ⟨_, rfl, ?_, getB_putB .., onlyObjs_putN _ (.tail _ (.head _)) hobjs⟩
    rw [getB, show getN (putB u K.sndLocked b) K.timeLocked = _ from getN_putN_ne u _ (by decide), ← getB, hset]
  · rw [if_neg hrun, if_neg hrun]
    exact ⟨_, rfl, hset, hlocked, hobjs⟩

/-! ## Chimes -/

theorem notePast_changes (s : State) : Changes [.snd] s (notePast s) := notePast_ch (List.Subset.refl _) (Changes.refl _ s)

theorem chimeStart_spec {s : State} {clip : Fin 16} {n : BitVec 8} (htw : getN s K.kaolinTw = twRun) (hdom : domSt s 22 = domOn) :
    ∃ t, exec (.chimeStart clip n) s = .next t ∧ t.snd.chime = some (clip.val, n.toNat, s.now) ∧ getN t K.chimeState = clip + 1 ∧
      onlyObjs [K.chimeState] s t ∧ Changes [.objs, .snd] s t := by
  have hpast := notePast_changes s
  have hexec : exec (.chimeStart clip n) s = .next (putN (modSnd (notePast s) (fun x => { x with chime := some (clip.val, n.toNat, s.now) }))
      K.chimeState (clip.val + 1)) := by
    show execChimeStart clip n s = _
    unfold execChimeStart
    rw [if_neg (by rw [htw, hdom]; decide)]
  have hsnd : Changes [.snd] s (modSnd (notePast s) (fun x => { x with chime := some (clip.val, n.toNat, s.now) })) :=
    hpast.trans (modSnd_changes _ _)
  refine ⟨_, hexec, rfl, getN_putN .., onlyObjs_putN _ (.head _) (hsnd.only (by decide) (by decide) _), putN_ch (by decide) (hsnd.mono (by decide))⟩

theorem chimeStart_refused {s : State} {clip : Fin 16} {n : BitVec 8} (h : getN s K.kaolinTw ≠ twRun ∨ domSt s 22 ≠ domOn) :
    exec (.chimeStart clip n) s = .next s := by
  show execChimeStart clip n s = _
  unfold execChimeStart
  exact if_pos h

theorem endChime_spec (s : State) : (endChime s).snd.chime = none ∧ getN (endChime s) K.chimeState = 0 ∧ onlyObjs [K.chimeState] s (endChime s) :=
  ⟨rfl, getN_putN .., onlyObjs_putN _ (.head _) (((notePast_changes s).trans (modSnd_changes _ _)).only (by decide) (by decide) _)⟩

theorem chimeStop_spec (s : State) : (getN s K.kaolinTw ≠ twRun → exec .chimeStop s = .next s) ∧ (getN s K.kaolinTw = twRun →
    ∃ t, exec .chimeStop s = .next t ∧ t.snd.chime = none ∧ getN t K.chimeState = 0 ∧ onlyObjs [K.chimeState] s t) :=
  ⟨fun h => if_pos h, fun h => ⟨_, if_neg (not_not.2 h), endChime_spec s⟩⟩

theorem chimeEnd_spec {s : State} {clip n start : Nat} (h : s.snd.chime = some (clip, n, start)) :
    (n = 0 → exec .chimeEnd s = .next s) ∧
    (n ≠ 0 → start + n * ((getBytes s (K.chimeClip clip)).length / 4 * 1000000000 / 48000) ≤ s.now →
      ∃ t, exec .chimeEnd s = .next t ∧ t.snd.chime = none ∧ getN t K.chimeState = 0 ∧ onlyObjs [K.chimeState] s t) := by
  have hexec : exec .chimeEnd s = if n ≠ 0 ∧ start + n * ((getBytes s (K.chimeClip clip)).length / 4 * 1000000000 / 48000) ≤ s.now then
      .next (endChime s) else .next s := by
    show execChimeEnd s = _
    unfold execChimeEnd
    rw [h]
  rw [hexec]
  exact ⟨fun hn => if_neg fun h => h.1 hn, fun hn hover => ⟨_, if_pos ⟨hn, hover⟩, endChime_spec s⟩⟩

end Sys2Proof.Proofs.SoundPackets

/-!
PROOFS. O53, its last part: the period of the sound engine (R389, R393, R394, R399).
-/

namespace Sys2Proof.Proofs.SoundPeriod

open Sys2Proof.Machine
open Sys2Proof.Proofs.WordStore (memGetAll_congr_range)
open Sys2Proof.Proofs.SoundStreams (streamKey_note stream_isStream isStream streamIdx_range)
open Sys2Proof.Proofs.SoundPackets (modSnd_changes xrunEvent_changes)

/-! ## Tables and lists -/

theorem tget_range {α : Type} (f : Nat → α) (d : α) {n o : Nat} (ho : o < n) : tget ((List.range n).map (fun i => (i, f i))) o d = f o := by
  have hfind : ∀ l : List Nat, o ∈ l → tfind (l.map (fun i => (i, f i))) o = some (f o) := by
    intro l
    induction l with
    | nil => intro h; cases h
    | cons a l ih =>
      intro h
      by_cases ha : o = a
      · subst ha
        simp [tfind]
      · simp only [List.map_cons, tfind, if_neg ha]
        exact ih ((List.mem_cons.1 h).resolve_left ha)
  rw [tget, hfind _ (List.mem_range.2 ho)]
  rfl

/-- The entries of a list are put into a table one after the other, from a key on. -/
def putFrom {α : Type} (t : Tab α) (i : Nat) (l : List (α × Nat)) : Tab α := l.foldl (fun t e => tset t (i + e.2) e.1) t

theorem tget_putFrom_below {α : Type} (l : List α) (t : Tab α) (d : α) {i k j : Nat} (hj : j < i + k) :
    tget (putFrom t i (l.zipIdx k)) j d = tget t j d := by
  induction l generalizing t k with
  | nil => rfl
  | cons a l ih =>
    have hcons : putFrom t i ((a :: l).zipIdx k) = putFrom (tset t (i + k) a) i (l.zipIdx (k + 1)) := by
      rw [List.zipIdx_cons]
      exact List.foldl_cons ..
    rw [hcons, ih _ (by omega), tget_tset_ne _ _ _ (by omega)]

theorem tget_putFrom {α : Type} (l : List α) (t : Tab α) (d : α) {i k c : Nat} (hc : c < l.length) :
    tget (putFrom t i (l.zipIdx k)) (i + k + c) d = l.getD c d := by
  induction l generalizing t k c with
  | nil => simp at hc
  | cons a l ih =>
    have hcons : putFrom t i ((a :: l).zipIdx k) = putFrom (tset t (i + k) a) i (l.zipIdx (k + 1)) := by
      rw [List.zipIdx_cons]
      exact List.foldl_cons ..
    rw [hcons]
    cases c with
    | zero => rw [tget_putFrom_below l _ d (by omega), Nat.add_zero, tget_tset_same, List.getD_cons_zero]
    | succ c =>
      rw [show i + k + (c + 1) = i + (k + 1) + c by omega, ih _ (by simpa using hc), List.getD_cons_succ]

/-- A fold over numbers whose steps are all idle but one. -/
theorem foldN_single {f : State → Nat → State} {s : State} {N n : Nat} (hn : n < N) (hidle : ∀ j, j < N → j ≠ n → f s j = s)
    (hafter : ∀ j, j < N → j ≠ n → f (f s n) j = f s n) : foldN (List.range N) f s = f s n := by
  have hfold : ∀ (l : List Nat), l.Nodup → (∀ j ∈ l, j < N) → (n ∉ l → foldN l f s = s) ∧ (n ∈ l → foldN l f s = f s n) ∧
      (n ∉ l → foldN l f (f s n) = f s n) := by
    intro l
    induction l with
    | nil => exact fun _ _ => ⟨fun _ => rfl, fun h => (List.not_mem_nil h).elim, fun _ => rfl⟩
    | cons a l ih =>
      intro hnodup hlt
      obtain ⟨ha, hl⟩ := List.nodup_cons.1 hnodup
      obtain ⟨hout, hin, hdone⟩ := ih hl fun j hj => hlt j (.tail _ hj)
      have hcons (x : State) : foldN (a :: l) f x = foldN l f (f x a) := List.foldl_cons ..
      have halt := hlt a (.head _)
      refine ⟨fun h => ?_, fun h => ?_, fun h => ?_⟩
      · obtain ⟨hna, hnl⟩ := not_or.1 (fun h' => h (List.mem_cons.2 h'))
        rw [hcons, hidle a halt (Ne.symm hna), hout hnl]
      · by_cases hna : n = a
        · subst hna
          rw [hcons, hdone ha]
        · rw [hcons, hidle a halt (Ne.symm hna), hin ((List.mem_cons.1 h).resolve_left hna)]
      · obtain ⟨hna, hnl⟩ := not_or.1 (fun h' => h (List.mem_cons.2 h'))
        rw [hcons, hafter a halt (Ne.symm hna), hdone hnl]
  exact (hfold _ List.nodup_range fun j hj => List.mem_range.1 hj).2.1 (List.mem_range.2 hn)

/-! ## The host's memory -/

/-- The log of a VF's writes lies in function 0's memory: no other function's byte moves. -/
theorem markDirty_host (s : State) {f a n k : Nat} (hk : f = 0 ∨ 2 ^ 64 ≤ k) : memGet (markDirty s f a n).host k = memGet s.host k := by
  unfold markDirty
  split
  · rfl
  next hlog =>
    have hk : 2 ^ 64 ≤ k := hk.resolve_left fun h => hlog (.inl h)
    extract_lets first last lo hi inside t
    have hpage (x : State) (p : Nat) : memGet (markPage x f p).host k = memGet x.host k := by
      unfold markPage
      extract_lets active base m key
      have hkey : k ≠ key := by
        unfold key hostKey
        omega
      exact (memGet_memSet ..).trans (if_neg hkey)
    have ht : memGet t.host k = memGet s.host k := by
      have hall : ∀ (l : List Nat) (x : State), memGet (foldN l (fun s p => markPage s f p) x).host k = memGet x.host k := by
        intro l
        induction l with
        | nil => exact fun _ => rfl
        | cons p l ih =>
          intro x
          have hcons : foldN (p :: l) (fun s p => markPage s f p) x = foldN l (fun s p => markPage s f p) (markPage x f p) := List.foldl_cons ..
          rw [hcons, ih, hpage]
      exact hall _ s
    clear_value t
    split
    · exact ht
    · exact ht

theorem hostKey_ge (f a k : Nat) : f = 0 ∨ 2 ^ 64 ≤ hostKey f a + k := by
  unfold hostKey
  omega

/-- The first bytes of a write are read back. -/
theorem hostRead_hostWrite (s : State) (f a : Nat) (b c : List Byte) : hostRead (hostWrite s f a (b ++ c)) f a b.length = b := by
  have hbytes : hostRead (hostWrite s f a (b ++ c)) f a b.length = memGetAll (memSetAll s.host (hostKey f a) (b ++ c)) (hostKey f a) b.length :=
    memGetAll_congr_range fun k hk _ => by
      obtain ⟨j, rfl⟩ := Nat.exists_eq_add_of_le hk
      exact markDirty_host _ (hostKey_ge f a j)
  rw [hbytes, ← memGetAll_take _ _ _ c.length, ← List.length_append, memGetAll_memSetAll, List.take_left]

/-- A write of the 12 bytes 8 on leaves the four bytes at an address alone. -/
theorem hostRead_hostWrite_next (s : State) (f a : Nat) (b : List Byte) (hb : b.length ≤ 12) :
    hostRead (hostWrite s f (a + 8) b) f a 4 = hostRead s f a 4 :=
  memGetAll_congr_range fun k hk hlt => by
    obtain ⟨j, rfl⟩ := Nat.exists_eq_add_of_le hk
    refine (markDirty_host _ (hostKey_ge f a j)).trans (memGet_memSetAll_outside _ _ _ ?_)
    unfold hostKey at hlt ⊢
    omega

/-! ## The outputs of a period -/

/-- The counts of saturated samples. -/
def clipped (l : List (Nat × List Int × Nat)) (s : State) : State :=
  l.foldl (fun s e => if e.2.2 = 0 then s else bumpBy s (K.soClip e.1) e.2.2) s

theorem clipped_changes (l : List (Nat × List Int × Nat)) (s : State) : Changes [.objs] s (clipped l s) :=
  foldl_ch l (Changes.refl _ s) fun x e hx => by
    split
    · exact hx
    · exact putN_ch (by decide) hx

theorem soClip_inj {o e : Nat} (h : o ≠ e) : K.soClip o ≠ K.soClip e := by
  simp only [K.soClip, objKey]
  omega

def clipKeys : List Nat := (List.range 32).map K.soClip

theorem clipped_objs (l : List (Nat × List Int × Nat)) (hl : ∀ e ∈ l, e.1 < 32) (s : State) : onlyObjs clipKeys s (clipped l s) := by
  induction l generalizing s with
  | nil => exact onlyObjs_refl _ s
  | cons e l ih =>
    have hcons : clipped (e :: l) s = clipped l (if e.2.2 = 0 then s else bumpBy s (K.soClip e.1) e.2.2) := List.foldl_cons ..
    rw [hcons]
    refine onlyObjs_trans ?_ (ih (fun x hx => hl x (.tail _ hx)) _)
    split
    · exact onlyObjs_refl _ s
    · exact onlyObjs_putN _ (List.mem_map_of_mem (List.mem_range.2 (hl e (.head _)))) (onlyObjs_refl _ s)

/-- Of a list of outputs, each named once, each counts its own saturated samples. -/
theorem clipped_getN (g : Nat → List Int × Nat) (l : List Nat) (hl : l.Nodup) (s : State) (o : Nat) :
    getN (clipped (l.map (fun i => (i, g i))) s) (K.soClip o) =
      if o ∈ l then (if (g o).2 = 0 then getN s (K.soClip o) else satAdd 32 (getN s (K.soClip o)) (g o).2) else getN s (K.soClip o) := by
  induction l generalizing s with
  | nil => rfl
  | cons i l ih =>
    obtain ⟨hi, hl⟩ := List.nodup_cons.1 hl
    have hcons : clipped ((i :: l).map (fun i => (i, g i))) s =
        clipped (l.map (fun i => (i, g i))) (if (g i).2 = 0 then s else bumpBy s (K.soClip i) (g i).2) := by
      rw [List.map_cons]
      exact List.foldl_cons ..
    rw [hcons, ih hl]
    by_cases ho : o = i
    · subst ho
      rw [if_neg hi, if_pos List.mem_cons_self]
      by_cases hnone : (g o).2 = 0
      · rw [if_pos hnone, if_pos hnone]
      · rw [if_neg hnone, if_neg hnone]
        exact getN_putN ..
    · have hsame : getN (if (g i).2 = 0 then s else bumpBy s (K.soClip i) (g i).2) (K.soClip o) = getN s (K.soClip o) := by
        split
        · rfl
        · exact getN_putN_ne s _ (soClip_inj ho)
      rw [hsame]
      simp [ho]

/-- The frames of the period that ends are formed. -/
def formed (s : State) (tdm : TdmIn) : State :=
  modSnd (formOutputs s tdm (s.now - 1000000)) (fun x => { x with periodAt := s.now })

def formedList (s : State) (tdm : TdmIn) : List (Nat × List Int × Nat) :=
  (List.range 32).map (fun o => (o, outFrames s tdm (s.now - 1000000) o))

theorem formed_eq (s : State) (tdm : TdmIn) : formed s tdm = modSnd (clipped (formedList s tdm) s) (fun x => { x with
    out := (formedList s tdm).map (fun e => (e.1, e.2.1))
    tdm := tdmOut (clipped (formedList s tdm) s) ((formedList s tdm).map (fun e => (e.1, e.2.1)))
    past := x.past.filter (fun e => decide ((clipped (formedList s tdm) s).now < e.2.2.2 + 1000000))
    periodAt := s.now }) := rfl

/-- What the forming of a period's frames leaves. -/
structure Formed (s : State) (tdm : TdmIn) (t : State) : Prop where
  periodAt : t.snd.periodAt = s.now
  out : ∀ o, o < 32 → tget t.snd.out o [] = (outFrames s tdm (s.now - 1000000) o).1
  clip : ∀ o, o < 32 → getN t (K.soClip o) = (if (outFrames s tdm (s.now - 1000000) o).2 = 0 then getN s (K.soClip o)
    else satAdd 32 (getN s (K.soClip o)) (outFrames s tdm (s.now - 1000000) o).2)
  objs : onlyObjs clipKeys s t
  parts : Changes [.objs, .snd] s t
  rd : t.snd.rd = s.snd.rd
  wr : t.snd.wr = s.snd.wr

theorem formed_spec (s : State) (tdm : TdmIn) : Formed s tdm (formed s tdm) := by
  rw [formed_eq]
  have hclip (o : Nat) := clipped_getN (fun o => outFrames s tdm (s.now - 1000000) o) (List.range 32) List.nodup_range s o
  have hobjs := clipped_objs (formedList s tdm) (fun e he => by
    obtain ⟨o, ho, rfl⟩ := List.mem_map.1 he
    exact List.mem_range.1 ho) s
  have hch := clipped_changes (formedList s tdm) s
  have hsnd := hch.snd (by decide)
  have hclip' : ∀ o, getN (clipped (formedList s tdm) s) (K.soClip o) = _ := hclip
  have hout (o : Nat) (ho : o < 32) : tget ((formedList s tdm).map (fun e => (e.1, e.2.1))) o [] = (outFrames s tdm (s.now - 1000000) o).1 := by
    have hmap : (formedList s tdm).map (fun e => (e.1, e.2.1)) =
        (List.range 32).map (fun o => (o, (outFrames s tdm (s.now - 1000000) o).1)) := by
      unfold formedList
      rw [List.map_map]
      rfl
    rw [hmap]
    exact tget_range _ _ ho
  generalize (formedList s tdm).map (fun e => (e.1, e.2.1)) = out at hout
  generalize clipped (formedList s tdm) s = u at hobjs hch hsnd hclip'
  refine ⟨rfl, hout, fun o ho => ?_, hobjs, (hch.mono (by decide)).trans ((modSnd_changes u _).mono (by decide)), ?_, ?_⟩
  · exact (hclip' o).trans (if_pos (List.mem_range.2 ho))
  · show u.snd.rd = s.snd.rd
    rw [hsnd]
  · show u.snd.wr = s.snd.wr
    rw [hsnd]

/-! ## A running input -/

theorem inKey_note {i sub : Nat} (hi : i < 64) (hsub : sub < 256) : ¬ noteKey (objKey (0x4C10 + i) sub) :=
  streamKey_note (capture := false) ⟨hi, fun h => absurd h (by decide)⟩ hsub

theorem inXrun_ne_state (i : Nat) : K.inXrun i ≠ K.inState i := by
  simp only [K.inXrun, K.inState, objKey]
  omega

/-- How many frames an input's ring holds beyond its position. -/
def framesHeld (s : State) (i wr : Nat) : Nat := (wr + 2 ^ 32 - tget s.snd.rd i 0) % 2 ^ 32

/-- The position of an input after it took what its ring holds, up to a period. -/
def nextRd (s : State) (i wr : Nat) : Nat := (tget s.snd.rd i 0 + min (framesHeld s i wr) (periodFrames s)) % 2 ^ 32

/-- The host wrote an input's index. -/
def hostIndexed (s : State) (i wr : Nat) : State :=
  { s with host := memSetAll s.host (hostKey (streamN s false i 1) (streamN s false i 6)) (leBytes 4 wr) }

/-- The samples that an input takes in a period. -/
def periodSamples (s : State) (i wr : Nat) : List (List Int) :=
  takenSamples (hostIndexed s i wr) i (tget s.snd.rd i 0) (min (framesHeld s i wr) (periodFrames s))

/-- The input's samples taken, its position moved on. -/
def inputTaken (s : State) (i wr : Nat) : State :=
  modSnd (hostIndexed s i wr) (fun x => { x with
    rd := tset x.rd i (nextRd s i wr), taken := putFrom x.taken i (periodSamples s i wr).zipIdx })

/-- The input's state as the period leaves it: running, or starved and told. -/
def inputShown (s u : State) (i wr : Nat) : State :=
  if periodFrames s ≤ framesHeld s i wr then putN u (K.inState i) 1
  else if streamN u false i 11 = 2 then putN (bump u (K.inXrun i)) (K.inState i) 2
  else xrunEvent (putN (bump u (K.inXrun i)) (K.inState i) 2) 0 i [streamN s false i 1]

theorem inputPeriod_eq (s : State) (i wr : Nat) : inputPeriod s i wr =
    hostWrite (inputShown s (inputTaken s i wr) i wr) (streamN s false i 1) (streamN s false i 6 + 4)
      (leBytes 4 (nextRd s i wr) ++ leBytes 8 (inputShown s (inputTaken s i wr) i wr).now ++
        leBytes 4 (getN (inputShown s (inputTaken s i wr) i wr) (K.inXrun i))) := rfl

theorem inputShown_spec (s u : State) {i : Nat} (hi : i < 64) (wr : Nat) : (inputShown s u i wr).snd = u.snd ∧
    (periodFrames s ≤ framesHeld s i wr →
      getN (inputShown s u i wr) (K.inState i) = 1 ∧ getN (inputShown s u i wr) (K.inXrun i) = getN u (K.inXrun i)) ∧
    (framesHeld s i wr < periodFrames s →
      getN (inputShown s u i wr) (K.inState i) = 2 ∧ getN (inputShown s u i wr) (K.inXrun i) = satInc 32 (getN u (K.inXrun i))) ∧
    onlyObjsAndNotes [K.inState i, K.inXrun i] u (inputShown s u i wr) := by
  unfold inputShown
  by_cases henough : periodFrames s ≤ framesHeld s i wr
  · rw [if_pos henough]
    exact ⟨rfl, fun _ => ⟨getN_putN .., getN_putN_ne u 1 (inXrun_ne_state i)⟩, fun h => absurd henough (by omega),
      onlyAndNotes_of_only (onlyObjs_putN 1 (.head _) (onlyObjs_refl _ u))⟩
  · rw [if_neg henough]
    have hstate : getN (putN (bump u (K.inXrun i)) (K.inState i) 2) (K.inState i) = 2 := getN_putN ..
    have hxrun : getN (putN (bump u (K.inXrun i)) (K.inState i) 2) (K.inXrun i) = satInc 32 (getN u (K.inXrun i)) :=
      (getN_putN_ne _ 2 (inXrun_ne_state i)).trans (getN_bump u _)
    have hobjs : onlyObjsAndNotes [K.inState i, K.inXrun i] u (putN (bump u (K.inXrun i)) (K.inState i) 2) :=
      onlyAndNotes_of_only (onlyObjs_putN 2 (.head _) (onlyObjs_bump (.tail _ (.head _)) (onlyObjs_refl _ u)))
    have hsnd : (putN (bump u (K.inXrun i)) (K.inState i) 2).snd = u.snd := rfl
    generalize putN (bump u (K.inXrun i)) (K.inState i) 2 = v at hstate hxrun hobjs hsnd
    split
    · exact ⟨hsnd, fun h => absurd h henough, fun _ => ⟨hstate, hxrun⟩, hobjs⟩
    · have hch := xrunEvent_changes v 0 i [streamN s false i 1]
      have hkey {sub : Nat} (hsub : sub < 256) := getN_of_changes hch (by decide) (inKey_note hi hsub)
      exact ⟨(hch.snd (by decide)).trans hsnd, fun h => absurd h henough,
        fun _ => ⟨(hkey (by decide)).trans hstate, (hkey (by decide)).trans hxrun⟩,
        onlyAndNotes_trans hobjs (onlyAndNotes_of_changes hch (by decide))⟩

/-- What a period leaves of an input. -/
structure InputMoved (s : State) (i wr : Nat) (t : State) : Prop where
  out : t.snd.out = s.snd.out
  periodAt : t.snd.periodAt = s.snd.periodAt
  rd : tget t.snd.rd i 0 = nextRd s i wr
  taken : ∀ c, c < streamN s false i 3 → tget t.snd.taken (i + c) [] = (periodSamples s i wr).getD c []
  told : hostRead t (streamN s false i 1) (streamN s false i 6 + 4) 4 = leBytes 4 (nextRd s i wr)
  enough : periodFrames s ≤ framesHeld s i wr → getN t (K.inState i) = 1 ∧ getN t (K.inXrun i) = getN s (K.inXrun i)
  starved : framesHeld s i wr < periodFrames s → getN t (K.inState i) = 2 ∧ getN t (K.inXrun i) = satInc 32 (getN s (K.inXrun i))
  objs : onlyObjsAndNotes [K.inState i, K.inXrun i] s t

theorem leBytes_length (w n : Nat) : (leBytes w n).length = w := by
  induction w generalizing n with
  | zero => rfl
  | succ w ih => rw [leBytes, List.length_cons, ih]

theorem inputPeriod_spec (s : State) {i : Nat} (hi : i < 64) (wr : Nat) : InputMoved s i wr (inputPeriod s i wr) := by
  rw [inputPeriod_eq]
  have hout : (inputTaken s i wr).snd.out = s.snd.out := rfl
  have hperiod : (inputTaken s i wr).snd.periodAt = s.snd.periodAt := rfl
  have hrd : tget (inputTaken s i wr).snd.rd i 0 = nextRd s i wr := tget_tset_same ..
  have htaken (c : Nat) (hc : c < streamN s false i 3) : tget (inputTaken s i wr).snd.taken (i + c) [] = (periodSamples s i wr).getD c [] := by
    have hlen : (periodSamples s i wr).length = streamN s false i 3 := (List.length_map _).trans List.length_range
    exact tget_putFrom (k := 0) (periodSamples s i wr) _ [] (by rw [hlen]; exact hc)
  have hsame : (inputTaken s i wr).objs = s.objs := rfl
  obtain ⟨hsnd, henough, hstarved, hobjs⟩ := inputShown_spec s (inputTaken s i wr) hi wr
  generalize inputTaken s i wr = u at *
  generalize inputShown s u i wr = v at *
  have hkey (k : Nat) : getN u k = getN s k := by rw [getN, getN, getV, getV, hsame]
  generalize leBytes 8 v.now = w8
  generalize leBytes 4 (getN v (K.inXrun i)) = w4
  rw [List.append_assoc]
  have hch : Changes [.host, .notes] v (hostWrite v (streamN s false i 1) (streamN s false i 6 + 4) (leBytes 4 (nextRd s i wr) ++ (w8 ++ w4))) :=
    hostWrite_ch (List.Subset.refl _) (Changes.refl _ v)
  have htold : hostRead (hostWrite v (streamN s false i 1) (streamN s false i 6 + 4) (leBytes 4 (nextRd s i wr) ++ (w8 ++ w4)))
      (streamN s false i 1) (streamN s false i 6 + 4) (leBytes 4 (nextRd s i wr)).length = leBytes 4 (nextRd s i wr) := hostRead_hostWrite ..
  rw [leBytes_length] at htold
  generalize hostWrite v (streamN s false i 1) (streamN s false i 6 + 4) (leBytes 4 (nextRd s i wr) ++ (w8 ++ w4)) = t at hch htold
  have hkeyT {sub : Nat} (hsub : sub < 256) := getN_of_changes hch (by decide) (inKey_note hi hsub)
  have hsndT : t.snd = u.snd := (hch.snd (by decide)).trans hsnd
  refine ⟨by rw [hsndT, hout], by rw [hsndT, hperiod], by rw [hsndT, hrd], fun c hc => by rw [hsndT, htaken c hc], htold, fun h => ?_,
    fun h => ?_, ?_⟩
  · obtain ⟨hstate, hxrun⟩ := henough h
    exact ⟨(hkeyT (by decide)).trans hstate, (hkeyT (by decide)).trans (hxrun.trans (hkey _))⟩
  · obtain ⟨hstate, hxrun⟩ := hstarved h
    exact ⟨(hkeyT (by decide)).trans hstate, (hkeyT (by decide)).trans (hxrun.trans (by rw [hkey]))⟩
  · exact onlyAndNotes_trans (onlyAndNotes_trans (onlyAndNotes_of_only (onlyObjs_of_eq hsame)) hobjs)
      (onlyAndNotes_of_changes hch (by decide))

/-! ## A running capture -/

theorem capKey_note {c sub : Nat} (hc : c < 16) (hsub : sub < 256) : ¬ noteKey (objKey (0x4C60 + c) sub) :=
  streamKey_note (capture := true) ⟨by omega, fun _ => hc⟩ hsub

/-- The frames that a capture's ring would hold after one more period. -/
def framesAfter (s : State) (c rd : Nat) : Nat := (tget s.snd.wr c 0 + 2 ^ 32 - rd) % 2 ^ 32 + periodFrames s

/-- What a period leaves of a capture. -/
structure CaptureMoved (s : State) (c rd : Nat) (t : State) : Prop where
  out : t.snd.out = s.snd.out
  periodAt : t.snd.periodAt = s.snd.periodAt
  full : streamN s true c 5 < framesAfter s c rd →
    getN t (K.capXrun c) = satInc 32 (getN s (K.capXrun c)) ∧ tget t.snd.wr c 0 = tget s.snd.wr c 0
  room : framesAfter s c rd ≤ streamN s true c 5 → getN t (K.capXrun c) = getN s (K.capXrun c) ∧
    tget t.snd.wr c 0 = (tget s.snd.wr c 0 + periodFrames s) % 2 ^ 32 ∧
    hostRead t (streamN s true c 1) (streamN s true c 6) 4 = leBytes 4 (tget t.snd.wr c 0)
  objs : onlyObjsAndNotes [K.capXrun c] s t

/-- The host wrote a capture's index. -/
def captureIndexed (s : State) (c rd : Nat) : State :=
  { s with host := memSetAll s.host (hostKey (streamN s true c 1) (streamN s true c 6 + 4)) (leBytes 4 rd) }

/-- The frames that a capture writes. -/
def captureBytes (s : State) (tdm : TdmIn) (t0 c rd : Nat) : List Byte :=
  (List.range (periodFrames s)).flatMap (fun j => (List.range (streamN (captureIndexed s c rd) true c 3)).flatMap (fun ch =>
    sampleBytes (streamN (captureIndexed s c rd) true c 7)
      (captureSample (captureIndexed s c rd) tdm c ch j (frameTime (captureIndexed s c rd) t0 j))))

/-- The frames of a period in the ring, and the position behind them. -/
def captureStored (s : State) (tdm : TdmIn) (t0 c rd : Nat) : State :=
  modSnd (ringWrite (captureIndexed s c rd) (streamN s true c 1) (streamN (captureIndexed s c rd) true c 4) (streamN s true c 5)
      (streamN s true c 3 * (if streamN s true c 7 = 0 then 4 else 2)) (tget s.snd.wr c 0) (captureBytes s tdm t0 c rd))
    (fun x => { x with wr := tset x.wr c ((tget s.snd.wr c 0 + periodFrames s) % 2 ^ 32) })

/-- The capture's position and times are shown to its owner. -/
def captureShown (s u : State) (t0 c : Nat) : State :=
  let v := hostWrite u (streamN s true c 1) (streamN s true c 6) (leBytes 4 ((tget s.snd.wr c 0 + periodFrames s) % 2 ^ 32))
  hostWrite v (streamN s true c 1) (streamN s true c 6 + 8) (leBytes 8 t0 ++ leBytes 4 (getN v (K.capXrun c)))

theorem capturePeriod_eq (s : State) (tdm : TdmIn) (t0 c rd : Nat) : capturePeriod s tdm t0 c rd =
    if streamN s true c 5 < framesAfter s c rd then xrunEvent (bump (captureIndexed s c rd) (K.capXrun c)) 1 c [streamN s true c 1]
    else captureShown s (captureStored s tdm t0 c rd) t0 c := rfl

theorem captureShown_spec (s u : State) (t0 c : Nat) : Changes [.host, .notes] u (captureShown s u t0 c) ∧
    hostRead (captureShown s u t0 c) (streamN s true c 1) (streamN s true c 6) 4 =
      leBytes 4 ((tget s.snd.wr c 0 + periodFrames s) % 2 ^ 32) := by
  unfold captureShown
  extract_lets v
  have hv : Changes [.host, .notes] u v := hostWrite_ch (List.Subset.refl _) (Changes.refl _ u)
  have htold : hostRead v (streamN s true c 1) (streamN s true c 6) (leBytes 4 ((tget s.snd.wr c 0 + periodFrames s) % 2 ^ 32)).length =
      leBytes 4 ((tget s.snd.wr c 0 + periodFrames s) % 2 ^ 32) := by
    have hread := hostRead_hostWrite u (streamN s true c 1) (streamN s true c 6)
      (leBytes 4 ((tget s.snd.wr c 0 + periodFrames s) % 2 ^ 32)) []
    rwa [List.append_nil] at hread
  rw [leBytes_length] at htold
  clear_value v
  refine ⟨hostWrite_ch (List.Subset.refl _) hv, (hostRead_hostWrite_next v _ _ _ ?_).trans htold⟩
  rw [List.length_append, leBytes_length, leBytes_length]

theorem capturePeriod_spec (s : State) (tdm : TdmIn) (t0 : Nat) {c : Nat} (hc : c < 16) (rd : Nat) :
    CaptureMoved s c rd (capturePeriod s tdm t0 c rd) := by
  rw [capturePeriod_eq]
  by_cases hfull : streamN s true c 5 < framesAfter s c rd
  · rw [if_pos hfull]
    have hxrun : getN (bump (captureIndexed s c rd) (K.capXrun c)) (K.capXrun c) = satInc 32 (getN s (K.capXrun c)) :=
      getN_bump (captureIndexed s c rd) _
    have hobjs : onlyObjsAndNotes [K.capXrun c] s (bump (captureIndexed s c rd) (K.capXrun c)) :=
      onlyAndNotes_of_only (onlyObjs_bump (t := captureIndexed s c rd) (.head _) (onlyObjs_of_eq rfl))
    have hsnd : (bump (captureIndexed s c rd) (K.capXrun c)).snd = s.snd := rfl
    generalize bump (captureIndexed s c rd) (K.capXrun c) = u at hxrun hobjs hsnd
    have hch := xrunEvent_changes u 1 c [streamN s true c 1]
    have hsnd' := (hch.snd (by decide)).trans hsnd
    exact ⟨by rw [hsnd'], by rw [hsnd'], fun _ => ⟨(getN_of_changes hch (by decide) (capKey_note hc (by decide))).trans hxrun, by rw [hsnd']⟩,
      fun h => absurd hfull (by omega), onlyAndNotes_trans hobjs (onlyAndNotes_of_changes hch (by decide))⟩
  · rw [if_neg hfull]
    have hring : Changes [.host, .notes] (captureIndexed s c rd) (ringWrite (captureIndexed s c rd) (streamN s true c 1)
        (streamN (captureIndexed s c rd) true c 4) (streamN s true c 5) (streamN s true c 3 * (if streamN s true c 7 = 0 then 4 else 2))
        (tget s.snd.wr c 0) (captureBytes s tdm t0 c rd)) := ringWrite_ch (List.Subset.refl _) (Changes.refl _ _)
    have hindexed : Changes [.host] s (captureIndexed s c rd) := ch_host (Changes.refl _ s) (by decide)
    have hstored : ∃ w, captureStored s tdm t0 c rd = modSnd w (fun x => { x with
        wr := tset x.wr c ((tget s.snd.wr c 0 + periodFrames s) % 2 ^ 32) }) ∧ Changes [.host, .notes] s w :=
      ⟨_, rfl, (hindexed.mono (by decide)).trans hring⟩
    obtain ⟨w, hstored, hw⟩ := hstored
    have hsndW := hw.snd (by decide)
    have hstoredCh : Changes [.host, .notes, .snd] s (captureStored s tdm t0 c rd) := by
      rw [hstored]
      exact (hw.mono (by decide)).trans ((modSnd_changes w _).mono (by decide))
    have hout : (captureStored s tdm t0 c rd).snd.out = s.snd.out ∧ (captureStored s tdm t0 c rd).snd.periodAt = s.snd.periodAt ∧
        tget (captureStored s tdm t0 c rd).snd.wr c 0 = (tget s.snd.wr c 0 + periodFrames s) % 2 ^ 32 := by
      rw [hstored]
      refine ⟨?_, ?_, tget_tset_same ..⟩
      · show w.snd.out = s.snd.out
        rw [hsndW]
      · show w.snd.periodAt = s.snd.periodAt
        rw [hsndW]
    obtain ⟨hshownCh, htold⟩ := captureShown_spec s (captureStored s tdm t0 c rd) t0 c
    generalize captureStored s tdm t0 c rd = u at *
    generalize captureShown s u t0 c = t at hshownCh htold
    have hsnd := hshownCh.snd (by decide)
    have hall : Changes [.host, .notes, .snd] s t := hstoredCh.trans (hshownCh.mono (by decide))
    obtain ⟨hout, hperiod, hwr⟩ := hout
    refine ⟨by rw [hsnd, hout], by rw [hsnd, hperiod], fun h => absurd h hfull, fun _ => ⟨?_, by rw [hsnd, hwr], by rw [hsnd, hwr, htold]⟩,
      onlyAndNotes_of_changes hall (by decide)⟩
    exact getN_of_changes hall (by decide) (capKey_note hc (by decide))

end Sys2Proof.Proofs.SoundPeriod

/-!
PROOFS. Settles O53: the sound engine, its streams, packets and chimes.
-/

namespace Sys2Proof.Proofs.SoundPeriods

open Sys2Proof.Machine
open Sys2Proof.Proofs.SoundStreams (streamKey_note isStream streamIdx_range)
open Sys2Proof.Proofs.SoundPeriod

/-! ## The whole period -/

/-- One input's part of a period. -/
def inputStep (a : AudioIn) (s : State) (i : Nat) : State :=
  if streamN s false i 11 ≠ 0 ∧ streamN s false i 2 = 0 then
    inputPeriod s i (hostCount s a.inputWr i (streamN s false i 1) (streamN s false i 6))
  else s

/-- One capture's part of a period. -/
def captureStep (a : AudioIn) (t0 : Nat) (s : State) (c : Nat) : State :=
  if streamN s true c 11 ≠ 0 then capturePeriod s a.tdm t0 c (hostCount s a.captureRd c (streamN s true c 1) (streamN s true c 6 + 4))
  else s

/-- The packets whose time has gone by are let go. -/
def playedOut (s : State) : State :=
  modSnd s (fun x => { x with held := x.held.map (fun e => (e.1, e.2.filter (fun k => decide (s.now < k.1 + 125000)))) })

/-- The period's streams, after its frames are formed. -/
def moved (a : AudioIn) (t0 : Nat) (s : State) : State :=
  foldN (List.range 16) (captureStep a t0) (foldN (List.range 64) (inputStep a) s)

theorem audioPeriod_run {s : State} (a : AudioIn) (hon : sndSt s = sndRun ∨ domSt s 22 = domOn)
    (hdue : s.snd.periodAt + 1000000 ≤ s.now) : exec (.audioPeriod a) s = .next (if sndSt (formed s a.tdm) ≠ sndRun then formed s a.tdm
      else playedOut (moved a (s.now - 1000000) (formed s a.tdm))) := by
  show execAudioPeriod a s = _
  unfold execAudioPeriod
  have hgo : ¬ (domSt s 22 ≠ domOn ∧ sndSt s ≠ sndRun ∨ s.now < s.snd.periodAt + 1000000) := by
    rintro (⟨hdom, hsnd⟩ | h)
    · exact hon.elim hsnd hdom
    · omega
  rw [if_neg hgo]
  show (if sndSt (formed s a.tdm) ≠ sndRun then (.next (formed s a.tdm) : Host.Outcome State Fault Refusal) else .next _) = _
  split
  · rfl
  · rfl

/-- What the streams of a period leave of the outputs: the frames, their counts and the period's end. -/
structure KeepsOutputs (s t : State) : Prop where
  out : t.snd.out = s.snd.out
  periodAt : t.snd.periodAt = s.snd.periodAt
  clip : ∀ k ∈ clipKeys, getN t k = getN s k

theorem clipKey_note {k : Nat} (hk : k ∈ clipKeys) : ¬ noteKey k := by
  obtain ⟨o, ho, rfl⟩ := List.mem_map.1 hk
  have := List.mem_range.1 ho
  simp only [noteKey, K.soClip, K.dictNotifyDrop, K.regVoteFix, K.regVoteBad, K.kaolinCanDrop, K.logOut, objKey]
  omega

/-- An object of an output, and one of a stream. -/
theorem clipKey_ne_stream {k capture n sub} (hk : k ∈ clipKeys) (hn : isStream capture n) (hsub : sub < 256) : k ≠ objKey (streamIdx capture n) sub := by
  obtain ⟨o, ho, rfl⟩ := List.mem_map.1 hk
  have := List.mem_range.1 ho
  have hidx := streamIdx_range hn
  simp only [K.soClip, objKey]
  omega

theorem KeepsOutputs.refl (s : State) : KeepsOutputs s s := ⟨rfl, rfl, fun _ _ => rfl⟩

theorem KeepsOutputs.trans {s t u : State} (h : KeepsOutputs s t) (h' : KeepsOutputs t u) : KeepsOutputs s u :=
  ⟨h'.out.trans h.out, h'.periodAt.trans h.periodAt, fun k hk => (h'.clip k hk).trans (h.clip k hk)⟩

theorem KeepsOutputs.of_objs {ks : List Nat} {s t : State} (hout : t.snd.out = s.snd.out) (hperiod : t.snd.periodAt = s.snd.periodAt)
    (hobjs : onlyObjsAndNotes ks s t) (hks : ∀ k ∈ clipKeys, k ∉ ks) : KeepsOutputs s t :=
  ⟨hout, hperiod, fun k hk => by rw [getN, getN, (hobjs k (hks k hk) (clipKey_note hk)).1]⟩

theorem KeepsOutputs.foldN {f : State → Nat → State} {N : Nat} (hf : ∀ x j, j < N → KeepsOutputs x (f x j)) (s : State) :
    KeepsOutputs s (foldN (List.range N) f s) := by
  have hfold : ∀ (l : List Nat) (x : State), (∀ j ∈ l, j < N) → KeepsOutputs x (Machine.foldN l f x) := by
    intro l
    induction l with
    | nil => exact fun x _ => .refl x
    | cons j l ih =>
      intro x hl
      have hcons : Machine.foldN (j :: l) f x = Machine.foldN l f (f x j) := List.foldl_cons ..
      rw [hcons]
      exact (hf x j (hl j (.head _))).trans (ih _ fun i hi => hl i (.tail _ hi))
  exact hfold _ s fun j hj => List.mem_range.1 hj

theorem inputStep_keeps (a : AudioIn) (s : State) {i : Nat} (hi : i < 64) : KeepsOutputs s (inputStep a s i) := by
  unfold inputStep
  split
  · have hmoved := inputPeriod_spec s hi (hostCount s a.inputWr i (streamN s false i 1) (streamN s false i 6))
    have hn : isStream false i := ⟨hi, nofun⟩
    refine .of_objs hmoved.out hmoved.periodAt hmoved.objs fun k hk hmem => ?_
    rcases List.mem_cons.1 hmem with h | h
    · exact clipKey_ne_stream hk hn (sub := 11) (by decide) h
    · exact clipKey_ne_stream hk hn (sub := 12) (by decide) (List.mem_singleton.1 h)
  · exact .refl s

theorem captureStep_keeps (a : AudioIn) (t0 : Nat) (s : State) {c : Nat} (hc : c < 16) : KeepsOutputs s (captureStep a t0 s c) := by
  unfold captureStep
  split
  · have hmoved := capturePeriod_spec s a.tdm t0 hc (hostCount s a.captureRd c (streamN s true c 1) (streamN s true c 6 + 4))
    exact .of_objs hmoved.out hmoved.periodAt hmoved.objs fun k hk hmem =>
      clipKey_ne_stream hk (capture := true) (n := c) (sub := 12) ⟨by omega, fun _ => hc⟩ (by decide) (List.mem_singleton.1 hmem)
  · exact .refl s

theorem moved_keeps (a : AudioIn) (t0 : Nat) (s : State) : KeepsOutputs s (moved a t0 s) :=
  (KeepsOutputs.foldN (fun x _ hj => inputStep_keeps a x hj) s).trans (KeepsOutputs.foldN (fun x _ hj => captureStep_keeps a t0 x hj) _)

theorem playedOut_keeps (s : State) : KeepsOutputs s (playedOut s) := ⟨rfl, rfl, fun _ _ => rfl⟩

/-- Each period forms every output's samples and counts what it saturated. -/
theorem audioPeriod_outputs (s : State) (a : AudioIn) (hon : sndSt s = sndRun ∨ domSt s 22 = domOn) (hdue : s.snd.periodAt + 1000000 ≤ s.now) :
    ∃ t, exec (.audioPeriod a) s = .next t ∧ t.snd.periodAt = s.now ∧
      (∀ o, o < 32 → tget t.snd.out o [] = (outFrames s a.tdm (s.now - 1000000) o).1 ∧
        getN t (K.soClip o) = (if (outFrames s a.tdm (s.now - 1000000) o).2 = 0 then getN s (K.soClip o)
          else satAdd 32 (getN s (K.soClip o)) (outFrames s a.tdm (s.now - 1000000) o).2)) := by
  have hkeep : ∃ t, exec (.audioPeriod a) s = .next t ∧ KeepsOutputs (formed s a.tdm) t := by
    refine ⟨_, audioPeriod_run a hon hdue, ?_⟩
    split
    · exact .refl _
    · exact (moved_keeps a _ _).trans (playedOut_keeps _)
  obtain ⟨t, hexec, hkeep⟩ := hkeep
  have hformed := formed_spec s a.tdm
  exact ⟨t, hexec, hkeep.periodAt.trans hformed.periodAt, fun o ho => ⟨by rw [hkeep.out, hformed.out o ho],
    (hkeep.clip _ (List.mem_map_of_mem (List.mem_range.2 ho))).trans (hformed.clip o ho)⟩⟩

/-! ## One running stream -/

theorem inputStep_idle {a : AudioIn} {s : State} {i : Nat} (h : streamN s false i 11 = 0) : inputStep a s i = s :=
  if_neg fun hrun => hrun.1 h

theorem captureStep_idle {a : AudioIn} {t0 : Nat} {s : State} {c : Nat} (h : streamN s true c 11 = 0) : captureStep a t0 s c = s :=
  if_neg fun hrun => hrun h

theorem streamN_formed (s : State) (tdm : TdmIn) {capture : Bool} {n sub : Nat} (hn : isStream capture n) (hsub : sub < 256) :
    streamN (formed s tdm) capture n sub = streamN s capture n sub := by
  have hkey := ((formed_spec s tdm).objs _ fun hk => clipKey_ne_stream hk hn hsub rfl).1
  rw [streamN, streamN, getN, getN, hkey]

theorem streamN_kept {ks : List Nat} {s t : State} (h : onlyObjsAndNotes ks s t) {capture : Bool} {n sub : Nat} (hn : isStream capture n)
    (hsub : sub < 256) (hks : objKey (streamIdx capture n) sub ∉ ks) : streamN t capture n sub = streamN s capture n sub := by
  rw [streamN, streamN, getN, getN, (h _ hks (streamKey_note hn hsub)).1]

theorem getN_formed (s : State) (tdm : TdmIn) {k : Nat} (hk : k ∉ clipKeys) : getN (formed s tdm) k = getN s k := by
  rw [getN, getN, ((formed_spec s tdm).objs k hk).1]

theorem not_clipKey {k : Nat} (h : k < 0x4D40 * 256) : k ∉ clipKeys := fun hk => by
  obtain ⟨o, ho, rfl⟩ := List.mem_map.1 hk
  have := List.mem_range.1 ho
  simp only [K.soClip, objKey] at h
  omega

theorem sndSt_formed (s : State) (tdm : TdmIn) : sndSt (formed s tdm) = sndSt s := getN_formed s tdm (not_clipKey (by decide))

theorem periodFrames_formed (s : State) (tdm : TdmIn) : periodFrames (formed s tdm) = periodFrames s :=
  congrArg (· / 1000) (getN_formed s tdm (not_clipKey (by decide)))

theorem takenSamples_congr {s t : State} {i : Nat} (hstream : ∀ sub, sub < 256 → streamN t false i sub = streamN s false i sub)
    (hframes : periodFrames t = periodFrames s) (hhost : t.host = s.host) (pos n : Nat) : takenSamples t i pos n = takenSamples s i pos n := by
  have hread (f b w : Nat) : hostRead t f b w = hostRead s f b w := by rw [hostRead, hostRead, hhost]
  unfold takenSamples
  rw [hframes, hstream 1 (by decide), hstream 3 (by decide), hstream 4 (by decide), hstream 5 (by decide), hstream 7 (by decide)]
  simp only [hread]

theorem foldN_idle {f : State → Nat → State} {s : State} {N : Nat} (hidle : ∀ j, j < N → f s j = s) : foldN (List.range N) f s = s := by
  have hfold : ∀ l : List Nat, (∀ j ∈ l, j < N) → Machine.foldN l f s = s := by
    intro l
    induction l with
    | nil => exact fun _ => rfl
    | cons j l ih =>
      intro hl
      have hcons : Machine.foldN (j :: l) f s = Machine.foldN l f (f s j) := List.foldl_cons ..
      rw [hcons, hidle j (hl j (.head _)), ih fun i hi => hl i (.tail _ hi)]
  exact hfold _ fun j hj => List.mem_range.1 hj

theorem hostCount_single (s : State) (n : Nat) (x : BitVec 32) (f a : Nat) : hostCount s [(n, x)] n f a = x.toNat := by
  simp [hostCount]

/-- With one input in use, a period moves it alone. -/
theorem moved_input {a : AudioIn} {t0 : Nat} {s : State} {n : Nat} {wr : BitVec 32} (hn : n < 64) (ha : a.inputWr = [(n, wr)])
    (hothers : ∀ j, j < 64 → j ≠ n → streamN s false j 11 = 0) (hcaptures : ∀ j, j < 16 → streamN s true j 11 = 0)
    (hon : streamN s false n 11 ≠ 0) (hkind : streamN s false n 2 = 0) : moved a t0 s = inputPeriod s n wr.toNat := by
  have hstep : inputStep a s n = inputPeriod s n wr.toNat := by
    unfold inputStep
    rw [if_pos ⟨hon, hkind⟩, ha, hostCount_single]
  have hobjs := (inputPeriod_spec s hn wr.toNat).objs
  have hafter (capture : Bool) (j : Nat) (hj : isStream capture j) (hne : capture = true ∨ j ≠ n) :
      streamN (inputPeriod s n wr.toNat) capture j 11 = streamN s capture j 11 := by
    refine streamN_kept hobjs hj (by decide) ?_
    obtain ⟨hlt, hcap⟩ := hj
    simp only [List.mem_cons, List.not_mem_nil, or_false, K.inState, K.inXrun, objKey, streamIdx]
    cases capture
    · simp only [Bool.false_eq_true, if_false, false_or] at hne ⊢
      omega
    · simp only [if_true]
      omega
  unfold moved
  rw [foldN_single hn (fun j hj hne => inputStep_idle (hothers j hj hne)) fun j hj hne => ?_, hstep,
    foldN_idle fun j hj => captureStep_idle ((hafter true j ⟨by omega, fun _ => hj⟩ (.inl rfl)).trans (hcaptures j hj))]
  rw [hstep]
  exact inputStep_idle ((hafter false j ⟨hj, nofun⟩ (.inr hne)).trans (hothers j hj hne))

/-- With one capture in use, a period moves it alone. -/
theorem moved_capture {a : AudioIn} {t0 : Nat} {s : State} {n : Nat} {rd : BitVec 32} (hn : n < 16) (ha : a.captureRd = [(n, rd)])
    (hinputs : ∀ j, j < 64 → streamN s false j 11 = 0) (hothers : ∀ j, j < 16 → j ≠ n → streamN s true j 11 = 0)
    (hon : streamN s true n 11 ≠ 0) : moved a t0 s = capturePeriod s a.tdm t0 n rd.toNat := by
  have hstep : captureStep a t0 s n = capturePeriod s a.tdm t0 n rd.toNat := by
    unfold captureStep
    rw [if_pos hon, ha, hostCount_single]
  have hobjs := (capturePeriod_spec s a.tdm t0 hn rd.toNat).objs
  unfold moved
  rw [foldN_idle fun j hj => inputStep_idle (hinputs j hj),
    foldN_single hn (fun j hj hne => captureStep_idle (hothers j hj hne)) fun j hj hne => ?_, hstep]
  rw [hstep]
  refine captureStep_idle ((streamN_kept hobjs (capture := true) ⟨by omega, fun _ => hj⟩ (by decide) ?_).trans (hothers j hj hne))
  simp only [List.mem_cons, List.not_mem_nil, or_false, K.capXrun, objKey, streamIdx, if_true]
  omega

theorem audioPeriod_moves {s : State} (a : AudioIn) (hrun : sndSt s = sndRun) (hdue : s.snd.periodAt + 1000000 ≤ s.now) :
    exec (.audioPeriod a) s = .next (playedOut (moved a (s.now - 1000000) (formed s a.tdm))) := by
  rw [audioPeriod_run a (.inl hrun) hdue, if_neg fun h => h ((sndSt_formed s a.tdm).trans hrun)]

theorem onlyAndNotes_formed {ks : List Nat} {s t : State} (tdm : TdmIn) (h : onlyObjsAndNotes ks (formed s tdm) t) :
    onlyObjsAndNotes (ks ++ clipKeys) s t :=
  onlyAndNotes_trans (onlyAndNotes_of_only fun k hk => (formed_spec s tdm).objs k fun hmem => hk (List.mem_append_right _ hmem))
    fun k hk => h k fun hmem => hk (List.mem_append_left _ hmem)

theorem framesHeld_formed (s : State) (tdm : TdmIn) (i wr : Nat) : framesHeld (formed s tdm) i wr = framesHeld s i wr := by
  rw [framesHeld, framesHeld, (formed_spec s tdm).rd]

theorem nextRd_formed (s : State) (tdm : TdmIn) (i wr : Nat) : nextRd (formed s tdm) i wr = nextRd s i wr := by
  rw [nextRd, nextRd, framesHeld_formed, periodFrames_formed, (formed_spec s tdm).rd]

theorem periodSamples_formed (s : State) (tdm : TdmIn) {i : Nat} (hi : i < 64) (wr : Nat) :
    periodSamples (formed s tdm) i wr = periodSamples s i wr := by
  have hstream (sub : Nat) (hsub : sub < 256) : streamN (hostIndexed (formed s tdm) i wr) false i sub = streamN (hostIndexed s i wr) false i sub :=
    streamN_formed s tdm (n := i) ⟨hi, nofun⟩ hsub
  have hframes : periodFrames (hostIndexed (formed s tdm) i wr) = periodFrames (hostIndexed s i wr) := periodFrames_formed s tdm
  have hhost : (hostIndexed (formed s tdm) i wr).host = (hostIndexed s i wr).host := by
    show memSetAll (formed s tdm).host _ _ = memSetAll s.host _ _
    rw [streamN_formed s tdm (capture := false) (n := i) ⟨hi, nofun⟩ (by decide),
      streamN_formed s tdm (capture := false) (n := i) ⟨hi, nofun⟩ (by decide),
      (formed_spec s tdm).parts.host (by decide)]
  rw [periodSamples, periodSamples, framesHeld_formed, periodFrames_formed, (formed_spec s tdm).rd]
  exact takenSamples_congr hstream hframes hhost _ _

/-- A running host input takes what its ring holds, up to a period. -/
theorem audioPeriod_input (s : State) (n : Fin 64) (wr : BitVec 32) (tdm : List (Nat × List (BitVec 24))) (hrun : sndSt s = sndRun)
    (hdue : s.snd.periodAt + 1000000 ≤ s.now) (hothers : ∀ j, j < 64 → j ≠ n.val → streamN s false j 11 = 0)
    (hcaptures : ∀ j, j < 16 → streamN s true j 11 = 0) (hon : streamN s false n 11 ≠ 0) (hkind : streamN s false n 2 = 0) :
    ∃ t, exec (.audioPeriod { inputWr := [(n, wr)], captureRd := [], tdm := tdm }) s = .next t ∧ t.snd.periodAt = s.now ∧
      tget t.snd.rd n 0 = nextRd s n wr.toNat ∧
      (∀ c, c < streamN s false n 3 → tget t.snd.taken (n + c) [] = (periodSamples s n wr.toNat).getD c []) ∧
      hostRead t (streamN s false n 1) (streamN s false n 6 + 4) 4 = leBytes 4 (nextRd s n wr.toNat) ∧
      (periodFrames s ≤ framesHeld s n wr.toNat → getN t (K.inState n) = 1 ∧ getN t (K.inXrun n) = getN s (K.inXrun n)) ∧
      (framesHeld s n wr.toNat < periodFrames s → getN t (K.inState n) = 2 ∧ getN t (K.inXrun n) = satInc 32 (getN s (K.inXrun n))) ∧
      onlyObjsAndNotes (K.inState n :: K.inXrun n :: clipKeys) s t := by
  have hstream {capture : Bool} {j sub : Nat} (hj : isStream capture j) (hsub : sub < 256) := streamN_formed s tdm hj hsub
  have hin {j : Nat} (hj : j < 64) : isStream false j := ⟨hj, nofun⟩
  have hcap {j : Nat} (hj : j < 16) : isStream true j := ⟨by omega, fun _ => hj⟩
  have hexec := audioPeriod_moves { inputWr := [(n.val, wr)], captureRd := [], tdm := tdm } hrun hdue
  rw [moved_input n.isLt rfl (fun j hj hne => (hstream (hin hj) (by decide)).trans (hothers j hj hne))
    (fun j hj => (hstream (hcap hj) (by decide)).trans (hcaptures j hj)) (by rwa [hstream (hin n.isLt) (by decide)])
    ((hstream (hin n.isLt) (by decide)).trans hkind)] at hexec
  have hformed := formed_spec s tdm
  have hframes := periodFrames_formed s tdm
  have hheld := framesHeld_formed s tdm n wr.toNat
  have hnext := nextRd_formed s tdm n wr.toNat
  have hsamples := periodSamples_formed s tdm n.isLt wr.toNat
  have hkeep (k : Nat) (hk : k < 0x4D40 * 256) := getN_formed s tdm (not_clipKey hk)
  have hwrap {t : State} (h : onlyObjsAndNotes [K.inState n, K.inXrun n] (formed s tdm) t) := onlyAndNotes_formed tdm h
  have hmoved := inputPeriod_spec (formed s tdm) n.isLt wr.toNat
  change exec _ s = .next (playedOut (inputPeriod (formed s tdm) n wr.toNat)) at hexec
  generalize formed s tdm = u at *
  have hxrun : getN u (K.inXrun n) = getN s (K.inXrun n) := hkeep _ (by simp only [K.inXrun, objKey]; omega)
  have htold := hmoved.told
  have htaken := hmoved.taken
  have henough := hmoved.enough
  have hstarved := hmoved.starved
  rw [hstream (hin n.isLt) (by decide), hstream (hin n.isLt) (by decide), hnext] at htold
  rw [hstream (hin n.isLt) (by decide), hsamples] at htaken
  rw [hframes, hheld, hxrun] at henough hstarved
  exact ⟨_, hexec, hmoved.periodAt.trans hformed.periodAt, hmoved.rd.trans hnext, htaken, htold, henough, hstarved, hwrap hmoved.objs⟩

theorem framesAfter_formed (s : State) (tdm : TdmIn) (c rd : Nat) : framesAfter (formed s tdm) c rd = framesAfter s c rd := by
  rw [framesAfter, framesAfter, periodFrames_formed, (formed_spec s tdm).wr]

theorem capXrun_formed (s : State) (tdm : TdmIn) {c : Nat} (hc : c < 16) : getN (formed s tdm) (K.capXrun c) = getN s (K.capXrun c) :=
  getN_formed s tdm (not_clipKey (by simp only [K.capXrun, objKey]; omega))

theorem CaptureMoved.playedOut {s t : State} {c rd : Nat} (h : CaptureMoved s c rd t) : CaptureMoved s c rd (playedOut t) :=
  ⟨h.out, h.periodAt, h.full, h.room, h.objs⟩

/-- A capture moves on the formed frames as it would have on the state before. -/
theorem capture_formed (s : State) (tdm : TdmIn) {c : Nat} (hc : c < 16) (rd : Nat) {t : State}
    (ht : CaptureMoved (formed s tdm) c rd t) :
    (streamN s true c 5 < framesAfter s c rd → getN t (K.capXrun c) = satInc 32 (getN s (K.capXrun c)) ∧ tget t.snd.wr c 0 = tget s.snd.wr c 0) ∧
    (framesAfter s c rd ≤ streamN s true c 5 → getN t (K.capXrun c) = getN s (K.capXrun c) ∧
      tget t.snd.wr c 0 = (tget s.snd.wr c 0 + periodFrames s) % 2 ^ 32 ∧
      hostRead t (streamN s true c 1) (streamN s true c 6) 4 = leBytes 4 (tget t.snd.wr c 0)) ∧
    onlyObjsAndNotes (K.capXrun c :: clipKeys) s t := by
  have hstream {sub : Nat} (hsub : sub < 256) := streamN_formed s tdm (capture := true) (n := c) ⟨by omega, fun _ => hc⟩ hsub
  obtain ⟨_, _, hfull, hroom, hobjs⟩ := ht
  rw [hstream (by decide), framesAfter_formed, capXrun_formed s tdm hc, (formed_spec s tdm).wr] at hfull
  rw [hstream (by decide), hstream (by decide), hstream (by decide), framesAfter_formed, capXrun_formed s tdm hc, (formed_spec s tdm).wr,
    periodFrames_formed] at hroom
  exact ⟨hfull, hroom, onlyAndNotes_formed tdm hobjs⟩

/-- A running capture writes a period or, without space, counts. -/
theorem audioPeriod_capture (s : State) (n : Fin 16) (rd : BitVec 32) (tdm : List (Nat × List (BitVec 24))) (hrun : sndSt s = sndRun)
    (hdue : s.snd.periodAt + 1000000 ≤ s.now) (hinputs : ∀ j, j < 64 → streamN s false j 11 = 0)
    (hothers : ∀ j, j < 16 → j ≠ n.val → streamN s true j 11 = 0) (hon : streamN s true n 11 ≠ 0) :
    ∃ t, exec (.audioPeriod { inputWr := [], captureRd := [(n, rd)], tdm := tdm }) s = .next t ∧
      (streamN s true n 5 < framesAfter s n rd.toNat →
        getN t (K.capXrun n) = satInc 32 (getN s (K.capXrun n)) ∧ tget t.snd.wr n 0 = tget s.snd.wr n 0) ∧
      (framesAfter s n rd.toNat ≤ streamN s true n 5 →
        getN t (K.capXrun n) = getN s (K.capXrun n) ∧ tget t.snd.wr n 0 = (tget s.snd.wr n 0 + periodFrames s) % 2 ^ 32 ∧
        hostRead t (streamN s true n 1) (streamN s true n 6) 4 = leBytes 4 (tget t.snd.wr n 0)) ∧
      onlyObjsAndNotes (K.capXrun n :: clipKeys) s t := by
  have hstream {capture : Bool} {j sub : Nat} (hj : isStream capture j) (hsub : sub < 256) := streamN_formed s tdm hj hsub
  have hin {j : Nat} (hj : j < 64) : isStream false j := ⟨hj, nofun⟩
  have hcap {j : Nat} (hj : j < 16) : isStream true j := ⟨by omega, fun _ => hj⟩
  obtain ⟨t0, hexec⟩ : ∃ t0, exec (.audioPeriod { inputWr := [], captureRd := [(n.val, rd)], tdm := tdm }) s =
      .next (playedOut (moved { inputWr := [], captureRd := [(n.val, rd)], tdm := tdm } t0 (formed s tdm))) :=
    ⟨_, audioPeriod_moves _ hrun hdue⟩
  rw [moved_capture n.isLt rfl (fun j hj => (hstream (hin hj) (by decide)).trans (hinputs j hj))
    (fun j hj hne => (hstream (hcap hj) (by decide)).trans (hothers j hj hne)) (by rwa [hstream (hcap n.isLt) (by decide)])] at hexec
  exact ⟨_, hexec, capture_formed s tdm n.isLt rd.toNat (CaptureMoved.playedOut (capturePeriod_spec (formed s tdm) tdm t0 n.isLt rd.toNat))⟩

open Sys2Proof.Proofs.SoundEngine (sndEnable_spec sndDisable_spec)
open Sys2Proof.Proofs.SoundStreams (streamEnable_spec)
open Sys2Proof.Proofs.SoundPackets

/-- Settles O53: the engine and its streams by what their admitted writes run, a period by the frames it forms and the one stream it
moves, the packets, the chime and the lock by their commands. -/
theorem soundCommands : Obligations.SoundCommands := by
  unfold Obligations.SoundCommands
  exact ⟨fun s r i hquiet hmgr hnot => ⟨sndEnable_spec hquiet hmgr hnot, sndDisable_spec hquiet hmgr hnot⟩,
    fun s r i capture n hn hrole howner => streamEnable_spec hn hrole howner, audioPeriod_outputs,
    fun s n wr tdm hrun hdue hothers hcaptures hon hkind =>
      have ⟨t, hexec, hperiod, hmoved⟩ := audioPeriod_input s n wr tdm hrun hdue hothers hcaptures hon hkind
      ⟨t, nextRd s n wr.toNat, hexec, hperiod, rfl, hmoved⟩,
    audioPeriod_capture, fun s l at_ x hrun => ⟨(avtpPacketRx_spec hrun).1, (avtpPacketRx_spec hrun).2, avtpPacketTx_spec hrun⟩,
    clockLockChange_spec, fun _ _ _ htw hdom => chimeStart_spec htw hdom, fun _ _ _ h => chimeStart_refused h,
    fun s => (chimeStop_spec s).1, fun s => (chimeStop_spec s).2, fun _ _ _ _ h => chimeEnd_spec h⟩

end Sys2Proof.Proofs.SoundPeriods

/-!
PROOFS. The channels of the haptics: what the end, the start and the queueing of an effect leave of a channel, of the other channels, and
of the objects (R372 to R378).
-/

namespace Sys2Proof.Proofs.HapticChannels

open Sys2Proof.Machine
open Sys2Proof.Proofs.FrameEvents (emit_changes)
open Sys2Proof.Proofs.ModeFrame (updateHealth_objs)

/-! ## The objects of a channel -/

def chKeys (n : Nat) (subs : List Nat) : List Nat := subs.map (objKey (0x4810 + n))

theorem chKey_mem {n sub : Nat} {subs : List Nat} (h : sub ∈ subs) : objKey (0x4810 + n) sub ∈ chKeys n subs := List.mem_map_of_mem h

theorem chKey_not_mem {n sub : Nat} {subs : List Nat} (h : sub ∉ subs) : objKey (0x4810 + n) sub ∉ chKeys n subs := fun hk => by
  obtain ⟨sub', hsub, heq⟩ := List.mem_map.1 hk
  simp only [objKey, Nat.add_left_cancel_iff] at heq
  exact h (heq ▸ hsub)

theorem chKey_ne {n a b : Nat} (h : a ≠ b) : objKey (0x4810 + n) a ≠ objKey (0x4810 + n) b := by
  simpa only [objKey, ne_eq, Nat.add_left_cancel_iff] using h

theorem chKey_note {n sub : Nat} (hn : n < 16) (hsub : sub < 256) : ¬ noteKey (objKey (0x4810 + n) sub) := by
  simp only [noteKey, K.dictNotifyDrop, K.regVoteFix, K.regVoteBad, K.kaolinCanDrop, K.logOut, objKey]
  omega

theorem hapKey_note {sub : Nat} (hsub : sub < 256) : ¬ noteKey (objKey 0x4800 sub) := by
  simp only [noteKey, K.dictNotifyDrop, K.regVoteFix, K.regVoteBad, K.kaolinCanDrop, K.logOut, objKey]
  omega

theorem getN_kept {ks : List Nat} {s t : State} {k : Nat} (h : onlyObjsAndNotes ks s t) (hk : k ∉ ks) (hn : ¬ noteKey k) :
    getN t k = getN s k := by rw [getN, getN, (h k hk hn).1]

theorem chKey_not_health {n sub : Nat} (hn : n < 16) (hsub : sub < 256) : objKey (0x4810 + n) sub ∉ healthKeys := by
  simp only [healthKeys, List.mem_cons, List.mem_map, List.mem_range, K.healthModule, K.healthSub, objKey]
  grind

/-- Objects of two channels differ. -/
theorem chKey_apart {n m a b : Nat} (hnm : n ≠ m) (ha : a < 256) (hb : b < 256) : objKey (0x4810 + n) a ≠ objKey (0x4810 + m) b := by
  simp only [objKey]
  omega

/-! ## Steps of one channel -/

theorem chanOf_modChan (s : State) (n : Nat) (g : Chan → Chan) : chanOf (modChan s n g) n = g (chanOf s n) := tget_tset_same ..

theorem chanOf_modChan_ne (s : State) {n m : Nat} (g : Chan → Chan) (h : m ≠ n) : chanOf (modChan s n g) m = chanOf s m :=
  tget_tset_ne _ _ _ h

/-- A step at one channel: no time passes, the channel's record is the one given, the other channels' records and the objects but those
named stay. -/
structure ChanStep (n : Nat) (ks : List Nat) (c : Chan) (s t : State) : Prop where
  now : t.now = s.now
  chan : chanOf t n = c
  others : ∀ m, m ≠ n → chanOf t m = chanOf s m
  objs : onlyObjsAndNotes ks s t

namespace ChanStep

variable {n : Nat} {ks : List Nat} {c d : Chan} {r s t : State}

theorem refl (n : Nat) (ks : List Nat) (s : State) : ChanStep n ks (chanOf s n) s s :=
  ⟨rfl, rfl, fun _ _ => rfl, onlyAndNotes_of_only (onlyObjs_refl _ s)⟩

theorem trans (h : ChanStep n ks c r s) (h' : ChanStep n ks d s t) : ChanStep n ks d r t :=
  ⟨h'.now.trans h.now, h'.chan, fun m hm => (h'.others m hm).trans (h.others m hm), onlyAndNotes_trans h.objs h'.objs⟩

theorem mono {ks' : List Nat} (h : ChanStep n ks c r s) (hks : ∀ k ∈ ks, k ∈ ks') : ChanStep n ks' c r s :=
  ⟨h.now, h.chan, h.others, fun k hk => h.objs k fun hmem => hk (hks k hmem)⟩

/-- A step that touches neither the haptics nor the time. -/
theorem quiet (h : ChanStep n ks c r s) (hnow : t.now = s.now) (hhap : t.hap.chans = s.hap.chans) (hobjs : onlyObjsAndNotes ks s t) :
    ChanStep n ks c r t := by
  have hchan (m : Nat) : chanOf t m = chanOf s m := by rw [chanOf, chanOf, hhap]
  exact ⟨hnow.trans h.now, (hchan n).trans h.chan, fun m hm => (hchan m).trans (h.others m hm), onlyAndNotes_trans h.objs hobjs⟩

theorem of_changes {P : List Part} (h : ChanStep n ks c r s) (hch : Changes P s t)
    (hP : Part.now ∉ P ∧ Part.hap ∉ P ∧ Part.objs ∉ P) : ChanStep n ks c r t :=
  h.quiet (hch.now hP.1) (by rw [hch.hap hP.2.1]) (onlyAndNotes_of_changes hch hP.2.2)

theorem emit {cls code inst : Nat} {detail : List Byte} {fs : List Nat} (h : ChanStep n ks c r s) :
    ChanStep n ks c r (emit s cls code inst detail fs) := h.of_changes (emit_changes s cls code inst detail fs) (by decide)

theorem putN {k v : Nat} (h : ChanStep n ks c r s) (hk : k ∈ ks) : ChanStep n ks c r (putN s k v) :=
  h.quiet rfl rfl (onlyAndNotes_of_only (onlyObjs_putN v hk (onlyObjs_refl _ s)))

theorem bump {k : Nat} (h : ChanStep n ks c r s) (hk : k ∈ ks) : ChanStep n ks c r (bump s k) :=
  h.quiet rfl rfl (onlyAndNotes_of_only (onlyObjs_bump hk (onlyObjs_refl _ s)))

theorem modChan {g : Chan → Chan} (h : ChanStep n ks c r s) : ChanStep n ks (g c) r (modChan s n g) :=
  ⟨h.now, (chanOf_modChan s n g).trans (by rw [h.chan]), fun m hm => (chanOf_modChan_ne s g hm).trans (h.others m hm), h.objs⟩

theorem updateHealth (h : ChanStep n ks c r s) (hks : ∀ k ∈ healthKeys, k ∈ ks) : ChanStep n ks c r (updateHealth s) := by
  have hch : Changes [.fresh, .objs, .voteSecond, .funcs, .sess, .frames, .grog, .notes] s (Machine.updateHealth s) :=
    updateHealth_ch (List.Subset.refl _) (Changes.refl _ s)
  have hobjs := updateHealth_objs s
  exact h.quiet (hch.now (by decide)) (by rw [hch.hap (by decide)]) fun k hk => hobjs k fun hmem => hk (hks k hmem)

theorem getV {k : Nat} (h : ChanStep n ks c r s) (hk : k ∉ ks) (hn : ¬ noteKey k) : getV s k = getV r k := (h.objs k hk hn).1

theorem getN {k : Nat} (h : ChanStep n ks c r s) (hk : k ∉ ks) (hn : ¬ noteKey k) : getN s k = getN r k :=
  getN_kept h.objs hk hn

end ChanStep

/-! ## The end of an effect -/

/-- The count that an outcome moves. -/
def endedKey (n outcome : Nat) : Nat := if outcome = 0 then K.chDone n else K.chDropped n

theorem endedKey_eq (n outcome : Nat) : endedKey n outcome = objKey (0x4810 + n) (if outcome = 0 then 13 else 14) := by
  unfold endedKey
  split
  · rfl
  · rfl

theorem endedKey_note {n : Nat} (hn : n < 16) (outcome : Nat) : ¬ noteKey (endedKey n outcome) := by
  rw [endedKey_eq]
  exact chKey_note hn (by split <;> decide)

theorem endedKey_mem (n outcome : Nat) : endedKey n outcome ∈ chKeys n [13, 14] := by
  rw [endedKey_eq]
  exact chKey_mem (by split <;> decide)

/-- What the answer of a command changes beside the plays. -/
theorem playEnded_quiet (s : State) (id n outcome : Nat) :
    (playEnded s id n outcome).now = s.now ∧ (playEnded s id n outcome).hap.chans = s.hap.chans ∧ onlyObjsAndNotes [] s (playEnded s id n outcome) := by
  have hch : Changes [.fresh, .voteSecond, .host, .funcs, .sess, .rings, .hap, .grog, .notes] s (playEnded s id n outcome) :=
    playEnded_ch (List.Subset.refl _) (Changes.refl _ s)
  refine ⟨hch.now (by decide), ?_, onlyAndNotes_of_changes hch (by decide)⟩
  unfold playEnded
  extract_lets plays ended
  have hfold : ∀ (l : List Play) (x : State), (l.foldl (fun s p => complete s p.ticket (if p.other = 0 then 0 else 4)
      (p.done + 2 ^ 16 * p.other) p.worst) x).hap = x.hap := by
    intro l
    induction l with
    | nil => exact fun _ => rfl
    | cons p l ih =>
      intro x
      have hcomplete : Changes LayersAndCommits.answerParts x (complete x p.ticket (if p.other = 0 then 0 else 4) (p.done + 2 ^ 16 * p.other)
        p.worst) := complete_ch (List.Subset.refl _) (Changes.refl _ x)
      rw [List.foldl_cons, ih, hcomplete.hap (by decide)]
  rw [hfold]

theorem effectEnds_step {n : Nat} (s : State) (e : Effect) (outcome : Nat) :
    ChanStep n [endedKey n outcome] (chanOf s n) s (effectEnds s n e outcome) ∧
    (n < 16 → getN (effectEnds s n e outcome) (endedKey n outcome) = satInc 32 (getN s (endedKey n outcome))) := by
  have hcount : getN (bump s (endedKey n outcome)) (endedKey n outcome) = satInc 32 (getN s (endedKey n outcome)) := getN_bump s _
  have hbump : ChanStep n [endedKey n outcome] (chanOf s n) s (bump s (endedKey n outcome)) := (ChanStep.refl n _ s).bump (.head _)
  have hend : effectEnds s n e outcome = match e.play with
      | some id => playEnded (bump s (endedKey n outcome)) id n outcome
      | none => if e.func = 65 then emit (bump s (endedKey n outcome)) 5 0x0500 n
            (leBytes 1 n ++ leBytes 1 e.effect ++ leBytes 1 outcome ++ leBytes 1 e.panel) (hapFuncs (bump s (endedKey n outcome)) n)
          else bump s (endedKey n outcome) := rfl
  rw [hend]
  generalize bump s (endedKey n outcome) = u at *
  have hkeep {t : State} (h : onlyObjsAndNotes [] u t) (hn : n < 16) : getN t (endedKey n outcome) = satInc 32 (getN s (endedKey n outcome)) := by
    rw [getN, (h _ (List.not_mem_nil) (endedKey_note hn outcome)).1]
    exact hcount
  split
  · next id _ =>
    obtain ⟨hnow, hchans, hobjs⟩ := playEnded_quiet u id n outcome
    exact ⟨hbump.quiet hnow hchans fun k _ => hobjs k List.not_mem_nil, hkeep hobjs⟩
  · split
    · exact ⟨hbump.emit, hkeep (FrameEvents.emit_onlyAndNotes _ u _ _ _ _ _)⟩
    · exact ⟨hbump, fun _ => hcount⟩

/-- A channel whose drive has closed. -/
def closed (now : Nat) (c : Chan) : Chan :=
  { c with
    run := none
    ons := if c.run.isSome then (c.ons.filter (fun o => now ≤ o.2 + 1000 * msec)) ++ [(c.started, now)] else c.ons }

theorem closed_free {now : Nat} {c : Chan} (h : c.run = none) : closed now c = c := by
  unfold closed
  rw [h]
  cases c
  cases h
  rfl

theorem closeDrive_eq (s : State) (n : Nat) : closeDrive s n = modChan s n (closed s.now) := rfl

/-- The running effect leaves the drive. -/
theorem endRunning_step {n : Nat} (s : State) (outcome : Nat) :
    ChanStep n [endedKey n outcome] (closed s.now (chanOf s n)) s (endRunning s n outcome) ∧
    (n < 16 → ∀ e, (chanOf s n).run = some e →
      getN (endRunning s n outcome) (endedKey n outcome) = satInc 32 (getN s (endedKey n outcome))) := by
  unfold endRunning
  split
  · next hnone =>
    rw [closed_free hnone]
    exact ⟨.refl n _ s, fun _ e h => absurd (hnone.symm.trans h) (by simp)⟩
  · next e _ =>
    have hclose : ChanStep n [endedKey n outcome] (closed s.now (chanOf s n)) s (closeDrive s n) :=
      (ChanStep.refl n [endedKey n outcome] s).modChan (g := closed s.now)
    have hkey : getN (closeDrive s n) (endedKey n outcome) = getN s (endedKey n outcome) := rfl
    obtain ⟨hstep, hcount⟩ := effectEnds_step (n := n) (closeDrive s n) e outcome
    rw [hclose.chan] at hstep
    exact ⟨hclose.trans hstep, fun hn _ _ => (hcount hn).trans (by rw [hkey])⟩

/-- A channel with another queue. -/
def queued (now : Nat) (q : List Effect) (c : Chan) : Chan :=
  { c with queue := q, headAt := if q.head?.map (·.id) = c.queue.head?.map (·.id) then c.headAt else now }

theorem setQueue_step (n : Nat) (ks : List Nat) (s : State) (q : List Effect) :
    ChanStep n ks (queued s.now q (chanOf s n)) s (setQueue s n q) := (ChanStep.refl n ks s).modChan (g := queued s.now q)

/-- The whole queue ends. -/
theorem endQueue_step (n : Nat) (s : State) (outcome : Nat) :
    ChanStep n [endedKey n outcome] (queued s.now [] (chanOf s n)) s (endQueue s n outcome) := by
  have hfold : ∀ (l : List Effect) (x : State) (c : Chan), ChanStep n [endedKey n outcome] c s x →
      ChanStep n [endedKey n outcome] c s (l.foldl (fun s e => effectEnds s n e outcome) x) := by
    intro l
    induction l with
    | nil => exact fun _ _ h => h
    | cons e l ih =>
      intro x c h
      have hend := (effectEnds_step (n := n) x e outcome).1
      rw [h.chan] at hend
      exact ih _ c (h.trans hend)
  exact hfold _ _ _ (setQueue_step n _ s [])

/-- Everything on a channel ends. -/
theorem endAll_step (n : Nat) (s : State) (outcome : Nat) :
    ChanStep n [endedKey n outcome] (queued s.now [] (closed s.now (chanOf s n))) s (endQueue (endRunning s n outcome) n outcome) := by
  have hrun := (endRunning_step (n := n) s outcome).1
  have hqueue := endQueue_step n (endRunning s n outcome) outcome
  rw [hrun.chan, hrun.now] at hqueue
  exact hrun.trans hqueue

/-! ## The start of an effect -/

/-- Whether an effect's feed-forward drive exceeds the channel's greatest. -/
def beyondVmax (s : State) (n : Nat) (e : Effect) : Bool :=
  decide (getN s (K.chVmax n) * getN s (K.chGain n) * 100 < shalePeak e.effect * e.scale)

/-- A channel that has taken an effect. -/
def running (now : Nat) (e : Effect) (beyond : Bool) (c : Chan) : Chan :=
  { c with run := some e, started := now, braked := 0, limited := false, counted := beyond }

/-- What a channel shows of an effect that it took. -/
def shownStart (s : State) (n : Nat) (e : Effect) : State :=
  putN (draw (putN (putN (modChan s n (running s.now e (beyondVmax s n e))) (K.chState n) chAttack) (K.chSenseUsed n) (getN s (K.chSense n))))
    (K.chCapMeas n) (Config.measured s.fresh).toNat

theorem startEffect_eq (s : State) (n : Nat) (e : Effect) :
    startEffect s n e = if beyondVmax s n e then bump (shownStart s n e) (K.chSat n) else shownStart s n e := rfl

/-- The objects of a channel that the start of an effect moves. -/
def startKeys (n : Nat) : List Nat := [K.chState n, K.chSenseUsed n, K.chCapMeas n, K.chSat n]

theorem startKeys_eq (n : Nat) : startKeys n = chKeys n [7, 9, 10, 16] := rfl

/-- What a channel has become with the start of an effect. -/
structure Started (s : State) (n : Nat) (e : Effect) (t : State) : Prop where
  step : ChanStep n (startKeys n) (running s.now e (beyondVmax s n e) (chanOf s n)) s t
  only : onlyObjs (startKeys n) s t
  state : chSt t n = chAttack
  sense : getN t (K.chSenseUsed n) = getN s (K.chSense n)

theorem shownStart_only (s : State) (n : Nat) (e : Effect) : onlyObjs (startKeys n) s (shownStart s n e) := by
  have hmod : onlyObjs (startKeys n) s (modChan s n (running s.now e (beyondVmax s n e))) := onlyObjs_of_eq rfl
  unfold shownStart
  generalize modChan s n (running s.now e (beyondVmax s n e)) = u at hmod ⊢
  have hputs : onlyObjs (startKeys n) s (putN (putN u (K.chState n) chAttack) (K.chSenseUsed n) (getN s (K.chSense n))) :=
    onlyObjs_putN _ (.tail _ (.head _)) (onlyObjs_putN _ (.head _) hmod)
  generalize putN (putN u (K.chState n) chAttack) (K.chSenseUsed n) (getN s (K.chSense n)) = v at hputs ⊢
  exact onlyObjs_putN _ (.tail _ (.tail _ (.head _))) (onlyObjs_trans hputs (onlyObjs_of_eq (t := draw v) rfl))

theorem startEffect_started (s : State) (n : Nat) (e : Effect) : Started s n e (startEffect s n e) := by
  have hstep : ChanStep n (startKeys n) (running s.now e (beyondVmax s n e) (chanOf s n)) s (shownStart s n e) :=
    (((ChanStep.refl n (startKeys n) s).modChan (g := running s.now e (beyondVmax s n e))).quiet (t := shownStart s n e) rfl rfl
      (onlyAndNotes_trans (onlyAndNotes_of_only (onlyObjs_of_eq rfl)) (onlyAndNotes_of_only (shownStart_only s n e))))
  have hstate : chSt (shownStart s n e) n = chAttack :=
    (getN_putN_ne _ _ (chKey_ne (by decide))).trans ((getN_putN_ne _ _ (chKey_ne (by decide))).trans (getN_putN ..))
  have hsense : getN (shownStart s n e) (K.chSenseUsed n) = getN s (K.chSense n) :=
    (getN_putN_ne _ _ (chKey_ne (by decide))).trans (getN_putN ..)
  have honly := shownStart_only s n e
  rw [startEffect_eq]
  generalize shownStart s n e = u at *
  split
  · have hmem : K.chSat n ∈ startKeys n := .tail _ (.tail _ (.tail _ (.head _)))
    exact ⟨hstep.bump hmem, onlyObjs_bump hmem honly, (getN_bump_ne u (chKey_ne (by decide))).trans hstate,
      (getN_bump_ne u (chKey_ne (by decide))).trans hsense⟩
  · exact ⟨hstep, honly, hstate, hsense⟩

/-! ## The head of the queue -/

/-- Whether an effect fits depends on the time and on what drove the channel. -/
theorem effFits_congr {s t : State} {n : Nat} (hnow : t.now = s.now) (hrun : (chanOf t n).run = (chanOf s n).run)
    (hstarted : (chanOf t n).started = (chanOf s n).started) (hons : (chanOf t n).ons = (chanOf s n).ons) (e : Effect) :
    effFits t n e = effFits s n e := by
  simp only [effFits, driveOn, hnow, hrun, hstarted, hons]

/-- The head of the queue takes the channel. -/
structure HeadStarted (s : State) (n : Nat) (e : Effect) (q : List Effect) (t : State) : Prop where
  now : t.now = s.now
  run : (chanOf t n).run = some e
  queue : (chanOf t n).queue = q
  state : chSt t n = chAttack
  others : ∀ m, m ≠ n → chanOf t m = chanOf s m
  done : n < 16 → (chanOf s n).run.isSome → getN t (K.chDone n) = satInc 32 (getN s (K.chDone n))
  objs : onlyObjsAndNotes (K.chDone n :: startKeys n) s t

theorem startHead_started {s : State} {n : Nat} {e : Effect} {q : List Effect} (hqueue : (chanOf s n).queue = e :: q)
    (hfits : effFits s n e = true) : HeadStarted s n e q (startHead s n) := by
  have hhead : startHead s n = startEffect (setQueue (endRunning s n effDone) n q) n e := by
    rw [startHead, hqueue]
    exact if_pos hfits
  rw [hhead]
  obtain ⟨hend, hcount⟩ := endRunning_step (n := n) s effDone
  generalize endRunning s n effDone = u at *
  have hset := setQueue_step n [K.chDone n] u q
  have hkey : getN (setQueue u n q) (K.chDone n) = getN u (K.chDone n) := rfl
  generalize setQueue u n q = v at *
  obtain ⟨hstart, -, hstate, -⟩ := startEffect_started v n e
  generalize startEffect v n e = t at *
  have hall : ChanStep n (K.chDone n :: startKeys n) _ s t :=
    ((hend.mono (by simp [endedKey, effDone])).trans (hset.mono (by simp))).trans (hstart.mono fun k hk => .tail _ hk)
  refine ⟨hall.now, by rw [hall.chan]; rfl, by rw [hall.chan, hset.chan]; rfl, hstate, hall.others, fun hn hrun => ?_, hall.objs⟩
  obtain ⟨x, hx⟩ := Option.isSome_iff_exists.1 hrun
  have hkept : getN t (K.chDone n) = getN v (K.chDone n) :=
    hstart.getN (chKey_not_mem (sub := 13) (subs := [7, 9, 10, 16]) (by decide)) (chKey_note hn (by decide))
  exact (hkept.trans hkey).trans (hcount hn x hx)

/-- Without a queue nothing starts. -/
theorem overlayHead_empty {s : State} {n : Nat} (h : (chanOf s n).queue = []) : overlayHead s n = s := by
  rw [overlayHead, h]

theorem startHead_empty {s : State} {n : Nat} (h : (chanOf s n).queue = []) : startHead s n = s := by
  rw [startHead, h]

/-- A head that is no overlay, or a channel that does not brake, keeps the drive. -/
theorem overlayHead_idle {s : State} {n : Nat} (h : ∀ e, (chanOf s n).queue.head? = some e → e.overlay = true → chSt s n ≠ chBraking) :
    overlayHead s n = s := by
  unfold overlayHead
  split
  · rfl
  · next e _ hqueue =>
    rw [hqueue] at h
    exact if_neg fun hover => h e rfl hover.2 hover.1

/-! ## A channel that has become idle -/

/-- With the haptics READY, no substitution due and no queue, an idle channel does no more. -/
theorem channelIdle_quiet {s : State} {n : Nat} (hready : getN s K.hapState = hapReady) (hspare : (chanOf s n).spareDue = none)
    (hqueue : (chanOf s n).queue = []) : channelIdle s n = putN s (K.chState n) chIdle := by
  have hstay : ¬ getN s K.hapState = hapStopping := by
    rw [hready]
    decide
  have hspare' : (chanOf (putN s (K.chState n) chIdle) n).spareDue = none := hspare
  have hqueue' : (chanOf (putN s (K.chState n) chIdle) n).queue = [] := hqueue
  unfold channelIdle
  rw [if_neg hstay]
  dsimp only
  rw [hspare']
  dsimp only
  rw [startHead_empty hqueue', ite_self]

/-- While the haptics do not stop, nothing is to be ended. -/
theorem hapStopCheck_ready {s : State} (h : getN s K.hapState = hapReady) : hapStopCheck s = s :=
  if_neg fun hstop => by
    rw [h] at hstop
    exact absurd hstop.1 (by decide)

end Sys2Proof.Proofs.HapticChannels

/-!
PROOFS. O52, its first part: an effect from its due instant to its end (R373 to R378, R381, R382, R508, R519).
-/

namespace Sys2Proof.Proofs.HapticEffects

open Sys2Proof.Machine
open Sys2Proof.Proofs.HapticChannels

theorem modChan_changes (s : State) (n : Nat) (g : Chan → Chan) : Changes [.hap] s (modChan s n g) :=
  modChan_ch (List.Subset.refl _) (Changes.refl _ s)

/-! ## An effect that becomes due -/

theorem effectArrives_free {s : State} {n : Nat} {e : Effect} (hopen : channelOpen s n = true) (hfree : (chanOf s n).run = none)
    (hfits : effFits s n e = true) : effectArrives s n e = startEffect s n e := by
  simp only [effectArrives, hopen, hfree, hfits, Bool.not_true, Bool.false_eq_true, if_false, if_true]

theorem effectArrives_preempts {s : State} {n : Nat} {e x : Effect} (hopen : channelOpen s n = true) (hrun : (chanOf s n).run = some x)
    (hcls : x.cls < e.cls) (hfits : effFits s n e = true) : effectArrives s n e = startEffect (endRunning s n effPreempted) n e := by
  simp only [effectArrives, hopen, hrun, hfits, hcls, decide_true, Bool.and_self, Bool.not_true, Bool.false_eq_true, if_false, if_true]

theorem effectArrives_waits {s : State} {n : Nat} {e x : Effect} (hopen : channelOpen s n = true) (hrun : (chanOf s n).run = some x)
    (hcls : e.cls ≤ x.cls) : effectArrives s n e = enqueue s n e := by
  simp only [effectArrives, hopen, hrun, Nat.not_lt.2 hcls, decide_false, Bool.false_and, Bool.not_true, Bool.false_eq_true, if_false]

theorem enqueue_empty {s : State} {n : Nat} (e : Effect) (h : (chanOf s n).queue = []) :
    enqueue s n e = overlayHead (setQueue s n [e]) n := by
  rw [enqueue, h]
  rfl

/-- The effects that are due are no longer waiting. -/
def noWaits (now : Nat) (c : Chan) : Chan := { c with waits := c.waits.filter (fun e => !(e.due ≤ now : Bool)) }

theorem effectDue_single {s : State} {n : Fin 16} {e : Effect} (hwaits : (chanOf s n).waits = [e]) (hdue : e.due ≤ s.now) :
    exec (.effectDue n) s = .next (effectArrives (modChan s n (noWaits s.now)) n e) := by
  show execEffectDue n s = _
  have hfilter : (chanOf s n).waits.filter (fun e => e.due ≤ s.now) = [e] := by simp [hwaits, hdue]
  unfold execEffectDue
  dsimp only
  rw [hfilter]
  rfl

theorem noWaits_single {now : Nat} {c : Chan} {e : Effect} (hwaits : c.waits = [e]) (hdue : e.due ≤ now) : (noWaits now c).waits = [] := by
  simp [noWaits, hwaits, hdue]

section
variable {s : State} {n : Fin 16} {e : Effect} (hwaits : (chanOf s n).waits = [e]) (hdue : e.due ≤ s.now) (hopen : channelOpen s n = true)
include hwaits hdue hopen

/-- On a free channel it starts at once. -/
theorem effectDue_starts (hfree : (chanOf s n).run = none) (hfits : effFits s n e = true) :
    ∃ t, exec (.effectDue n) s = .next t ∧ (chanOf t n).run = some e ∧ (chanOf t n).started = s.now ∧ (chanOf t n).waits = [] ∧
      chSt t n = chAttack ∧ getN t (K.chSenseUsed n) = getN s (K.chSense n) ∧
      onlyObjs [K.chState n, K.chSenseUsed n, K.chCapMeas n, K.chSat n] s t ∧ Changes [.fresh, .objs, .hap] s t := by
  have hexec := effectDue_single hwaits hdue
  have hmod := (ChanStep.refl n.val [] s).modChan (g := noWaits s.now)
  have hch := modChan_changes s n (noWaits s.now)
  have hsense : getN (modChan s n (noWaits s.now)) (K.chSense n) = getN s (K.chSense n) := rfl
  have hopen' : channelOpen (modChan s n (noWaits s.now)) n = true := hopen
  have hobjs : (modChan s n (noWaits s.now)).objs = s.objs := rfl
  generalize modChan s n (noWaits s.now) = u at *
  have hfits' : effFits u n e = true :=
    (effFits_congr hmod.now (by rw [hmod.chan]; rfl) (by rw [hmod.chan]; rfl) (by rw [hmod.chan]; rfl) e).trans hfits
  have hfree' : (chanOf u n).run = none := by rw [hmod.chan]; exact hfree
  have harrive := effectArrives_free hopen' hfree' hfits'
  have hstart := startEffect_ch (List.Subset.refl _) (Changes.refl _ u) (n := n) (e := e)
  obtain ⟨hstep, honly, hstate, hused⟩ := startEffect_started u n.val e
  refine ⟨_, hexec.trans (by rw [harrive]), by rw [hstep.chan]; rfl, by rw [hstep.chan]; exact hmod.now, ?_, hstate, hused.trans hsense,
    onlyObjs_trans (onlyObjs_of_eq hobjs) honly, (hch.mono (by decide)).trans hstart⟩
  rw [hstep.chan]
  show (chanOf u n).waits = []
  rw [hmod.chan]
  exact noWaits_single hwaits hdue

/-- It preempts an effect of a lower class. -/
theorem effectDue_preempts {x : Effect} (hrun : (chanOf s n).run = some x) (hcls : x.cls < e.cls) (hfits : effFits s n e = true) :
    ∃ t, exec (.effectDue n) s = .next t ∧ (chanOf t n).run = some e ∧ chSt t n = chAttack ∧
      getN t (K.chDropped n) = satInc 32 (getN s (K.chDropped n)) := by
  have hexec := effectDue_single hwaits hdue
  have hmod := (ChanStep.refl n.val [] s).modChan (g := noWaits s.now)
  have hdropped : getN (modChan s n (noWaits s.now)) (K.chDropped n) = getN s (K.chDropped n) := rfl
  have hopen' : channelOpen (modChan s n (noWaits s.now)) n = true := hopen
  generalize modChan s n (noWaits s.now) = u at *
  have hfits' : effFits u n e = true :=
    (effFits_congr hmod.now (by rw [hmod.chan]; rfl) (by rw [hmod.chan]; rfl) (by rw [hmod.chan]; rfl) e).trans hfits
  have hrun' : (chanOf u n).run = some x := by rw [hmod.chan]; exact hrun
  have harrive := effectArrives_preempts hopen' hrun' hcls hfits'
  obtain ⟨-, hcount⟩ := endRunning_step (n := n) u effPreempted
  have hcount' : getN (endRunning u n effPreempted) (K.chDropped n) = satInc 32 (getN u (K.chDropped n)) := hcount n.isLt x hrun'
  generalize endRunning u n effPreempted = v at *
  obtain ⟨hstep, -, hstate, -⟩ := startEffect_started v n.val e
  refine ⟨_, hexec.trans (by rw [harrive]), by rw [hstep.chan]; rfl, hstate, ?_⟩
  have hkept : getN (startEffect v n e) (K.chDropped n) = getN v (K.chDropped n) :=
    hstep.getN (chKey_not_mem (sub := 14) (subs := [7, 9, 10, 16]) (by decide)) (chKey_note n.isLt (by decide))
  rw [hkept, hcount', hdropped]

/-- It waits behind an effect of its class or a higher one. -/
theorem effectDue_waits {x : Effect} (hrun : (chanOf s n).run = some x) (hcls : e.cls ≤ x.cls) (hqueue : (chanOf s n).queue = [])
    (hbrakes : chSt s n ≠ chBraking) :
    ∃ t, exec (.effectDue n) s = .next t ∧ (chanOf t n).run = some x ∧ (chanOf t n).queue = [e] ∧ (chanOf t n).headAt = s.now ∧
      (chanOf t n).waits = [] ∧ Changes [.hap] s t := by
  have hexec := effectDue_single hwaits hdue
  have hmod := (ChanStep.refl n.val [] s).modChan (g := noWaits s.now)
  have hch := modChan_changes s n (noWaits s.now)
  have hopen' : channelOpen (modChan s n (noWaits s.now)) n = true := hopen
  have hstate : chSt (modChan s n (noWaits s.now)) n = chSt s n := rfl
  generalize modChan s n (noWaits s.now) = u at *
  have hrun' : (chanOf u n).run = some x := by rw [hmod.chan]; exact hrun
  have hqueue' : (chanOf u n).queue = [] := by rw [hmod.chan]; exact hqueue
  have hset := setQueue_step n.val [] u [e]
  have hstate' : chSt (setQueue u n [e]) n = chSt s n := hstate
  have hsetCh : Changes [.hap] u (setQueue u n [e]) := modChan_changes u n _
  have harrive := (effectArrives_waits hopen' hrun' hcls).trans (enqueue_empty e hqueue')
  rw [overlayHead_idle fun _ _ _ => by rwa [hstate']] at harrive
  generalize setQueue u n [e] = v at *
  refine ⟨v, hexec.trans (by rw [harrive]), by rw [hset.chan]; exact hrun', by rw [hset.chan]; rfl, ?_, ?_, hch.trans hsetCh⟩
  · rw [hset.chan, ← hmod.now]
    simp [queued, hqueue']
  · rw [hset.chan]
    show (chanOf u n).waits = []
    rw [hmod.chan]
    exact noWaits_single hwaits hdue

end

/-! ## The phases of an effect -/

section
variable {s : State} {n : Fin 16} {e : Effect} (hrun : (chanOf s n).run = some e)
include hrun

theorem attackEnd_spec (hstate : chSt s n = chAttack) (hdue : (chanOf s n).started + shaleAttack e.effect * msec ≤ s.now) :
    ∃ t, exec (.attackEnd n) s = .next t ∧ chSt t n = chSustain ∧ onlyObjs [K.chState n] s t ∧ Changes [.objs] s t := by
  refine ⟨putN s (K.chState n) chSustain, ?_, getN_putN .., onlyObjs_putN _ (.head _) (onlyObjs_refl _ s), putN_ch (by decide) (Changes.refl _ s)⟩
  show execAttackEnd n s = _
  unfold execAttackEnd
  rw [hrun]
  exact if_pos ⟨hstate, hdue⟩

theorem brakingStart_run (peak : Nat) (hstate : chSt s n = chSustain)
    (hdue : (chanOf s n).started + (shaleAttack e.effect + shaleSustain e.effect) * msec ≤ s.now) :
    exec (.brakingStart n peak) s = .next (overlayHead (beginBraking (countMissed s n peak) n) n) := by
  show execBrakingStart n peak s = _
  unfold execBrakingStart
  rw [hrun]
  exact if_pos ⟨hstate, hdue⟩

/-- Whether an effect that the rail's limit held missed its target and has not been counted. -/
def missed (s : State) (n : Nat) (e : Effect) (peak : Nat) : Bool :=
  (chanOf s n).limited && !(chanOf s n).counted && decide (peak * 10000 < shalePeak e.effect * e.scale * (100 - peakTolerance s n))

theorem countMissed_step (peak : Nat) :
    ChanStep n [K.chSat n] { chanOf s n with counted := (chanOf s n).counted || missed s n e peak } s (countMissed s n peak) ∧
    Changes [.objs, .hap] s (countMissed s n peak) ∧
    onlyObjs [K.chSat n] s (countMissed s n peak) ∧
    getN (countMissed s n peak) (K.chSat n) = (if missed s n e peak then satInc 32 (getN s (K.chSat n)) else getN s (K.chSat n)) := by
  have hcount : countMissed s n peak =
      if missed s n e peak then bump (modChan s n (fun c => { c with counted := true })) (K.chSat n) else s := by
    unfold countMissed
    rw [hrun]
    rfl
  rw [hcount]
  by_cases hmiss : missed s n e peak = true
  · rw [if_pos hmiss, if_pos hmiss, hmiss, Bool.or_true]
    have hmod := (ChanStep.refl n.val [K.chSat n] s).modChan (g := fun c => { c with counted := true })
    have hobjs : onlyObjs [K.chSat n] s (modChan s n (fun c => { c with counted := true })) := onlyObjs_of_eq rfl
    have hch := modChan_changes s n (fun c => { c with counted := true })
    have hsat : getN (modChan s n (fun c => { c with counted := true })) (K.chSat n) = getN s (K.chSat n) := rfl
    generalize modChan s n (fun c => { c with counted := true }) = u at *
    exact ⟨hmod.bump (.head _), bump_ch (by decide) (hch.mono (by decide)), onlyObjs_bump (.head _) hobjs, by rw [getN_bump, hsat]⟩
  · rw [if_neg hmiss, if_neg hmiss, Bool.eq_false_iff.2 hmiss, Bool.or_false]
    exact ⟨.refl n _ s, .refl _ s, onlyObjs_refl _ s, rfl⟩

omit hrun in
theorem beginBraking_step (u : State) (m : Nat) :
    ChanStep m [K.chState m] { chanOf u m with braked := u.now } u (beginBraking u m) ∧ chSt (beginBraking u m) m = chBraking ∧
    onlyObjs [K.chState m] u (beginBraking u m) ∧ Changes [.objs, .hap] u (beginBraking u m) := by
  have hput := (ChanStep.refl m [K.chState m] u).putN (v := chBraking) (.head _)
  exact ⟨hput.modChan (g := fun c => { c with braked := u.now }), getN_putN ..,
    onlyObjs_trans (onlyObjs_putN _ (.head _) (onlyObjs_refl _ u)) (onlyObjs_of_eq rfl), beginBraking_ch (List.Subset.refl _) (Changes.refl _ u)⟩

/-- At the end of the sustain the channel brakes; the miss of an effect that the rail's limit held is counted. -/
theorem brakes_step (peak : Nat) : ∃ c, c.run = some e ∧ c.braked = s.now ∧ c.started = (chanOf s n).started ∧ c.ons = (chanOf s n).ons ∧
    c.queue = (chanOf s n).queue ∧
    ChanStep n [K.chState n, K.chSat n] c s (beginBraking (countMissed s n peak) n) ∧
    chSt (beginBraking (countMissed s n peak) n) n = chBraking ∧
    getN (beginBraking (countMissed s n peak) n) (K.chSat n) =
      (if missed s n e peak then satInc 32 (getN s (K.chSat n)) else getN s (K.chSat n)) ∧
    onlyObjs [K.chState n, K.chSat n] s (beginBraking (countMissed s n peak) n) ∧
    Changes [.objs, .hap] s (beginBraking (countMissed s n peak) n) := by
  obtain ⟨hcount, hcountCh, hcountObjs, hsat⟩ := countMissed_step hrun peak
  generalize countMissed s n peak = u at *
  obtain ⟨hbrake, hstate, hobjs, hch⟩ := beginBraking_step u n.val
  have hsat' : getN (beginBraking u n) (K.chSat n) = getN u (K.chSat n) := getN_putN_ne u _ (chKey_ne (by decide))
  have hstep := (hcount.mono (ks' := [K.chState n, K.chSat n]) (by simp)).trans (hbrake.mono (by simp))
  refine ⟨_, ?_, hcount.now, ?_, ?_, ?_, hstep, hstate, hsat'.trans hsat,
    onlyObjs_trans (fun k hk => hcountObjs k fun h => hk (.tail _ h)) fun k hk => hobjs k fun h => hk (List.mem_singleton.1 h ▸ .head _),
    hcountCh.trans hch⟩
  · rw [hcount.chan]
    exact hrun
  · rw [hcount.chan]
  · rw [hcount.chan]
  · rw [hcount.chan]

theorem brakingStart_brakes (hstate : chSt s n = chSustain)
    (hdue : (chanOf s n).started + (shaleAttack e.effect + shaleSustain e.effect) * msec ≤ s.now)
    (hhead : ∀ x, (chanOf s n).queue.head? = some x → x.overlay = false) (peak : Nat) :
    ∃ t, exec (.brakingStart n peak) s = .next t ∧ chSt t n = chBraking ∧ (chanOf t n).braked = s.now ∧ (chanOf t n).run = some e ∧
      getN t (K.chSat n) = (if missed s n e peak then satInc 32 (getN s (K.chSat n)) else getN s (K.chSat n)) ∧
      onlyObjs [K.chState n, K.chSat n] s t ∧ Changes [.objs, .hap] s t := by
  obtain ⟨c, hc, hbraked, -, -, hqueue, hstep, hbrakes, hsat, hobjs, hch⟩ := brakes_step hrun peak
  have hexec := brakingStart_run hrun peak hstate hdue
  generalize beginBraking (countMissed s n peak) n = u at *
  have hidle : overlayHead u n = u := overlayHead_idle fun x hx hover => by
    rw [hstep.chan, hqueue] at hx
    rw [hhead x hx] at hover
    cases hover
  exact ⟨u, hexec.trans (by rw [hidle]), hbrakes, by rw [hstep.chan, hbraked], by rw [hstep.chan, hc], hsat, hobjs, hch⟩

/-- An OVERLAY head of the queue starts with the braking. -/
theorem brakingStart_overlay {x : Effect} {q : List Effect} (peak : Nat) (hstate : chSt s n = chSustain)
    (hdue : (chanOf s n).started + (shaleAttack e.effect + shaleSustain e.effect) * msec ≤ s.now) (hqueue : (chanOf s n).queue = x :: q)
    (hover : x.overlay = true) (hfits : effFits s n x = true) :
    ∃ t, exec (.brakingStart n peak) s = .next t ∧ (chanOf t n).run = some x ∧ (chanOf t n).queue = q ∧ chSt t n = chAttack ∧
      getN t (K.chDone n) = satInc 32 (getN s (K.chDone n)) := by
  obtain ⟨c, hc, -, hstarted, hons, hqueueC, hstep, hbrakes, -⟩ := brakes_step hrun peak
  have hexec := brakingStart_run hrun peak hstate hdue
  generalize beginBraking (countMissed s n peak) n = u at *
  have hqueueU : (chanOf u n).queue = x :: q := by rw [hstep.chan, hqueueC, hqueue]
  have hrunU : (chanOf u n).run = some e := by rw [hstep.chan, hc]
  have hhead : overlayHead u n = startHead u n := by
    rw [overlayHead, hqueueU]
    exact if_pos ⟨hbrakes, hover⟩
  have hfitsU : effFits u n x = true := (effFits_congr hstep.now (hrunU.trans hrun.symm) (by rw [hstep.chan, hstarted])
    (by rw [hstep.chan, hons]) x).trans hfits
  have hstarts := startHead_started hqueueU hfitsU
  have hdone : getN u (K.chDone n) = getN s (K.chDone n) :=
    hstep.getN (chKey_not_mem (sub := 13) (subs := [7, 16]) (by decide)) (chKey_note n.isLt (by decide))
  exact ⟨_, hexec.trans (by rw [hhead]), hstarts.run, hstarts.queue, hstarts.state, (hstarts.done n.isLt (by rw [hrunU]; rfl)).trans (by rw [hdone])⟩

/-- After 4 ms of braking any head starts. -/
theorem queueHeadTimeout_spec {x : Effect} {q : List Effect} (hstate : chSt s n = chBraking) (hqueue : (chanOf s n).queue = x :: q)
    (hfits : effFits s n x = true) (hdue : max (chanOf s n).headAt (chanOf s n).braked + 4 * msec ≤ s.now) :
    ∃ t, exec (.queueHeadTimeout n) s = .next t ∧ (chanOf t n).run = some x ∧ (chanOf t n).queue = q ∧ chSt t n = chAttack ∧
      getN t (K.chDone n) = satInc 32 (getN s (K.chDone n)) := by
  have hexec : exec (.queueHeadTimeout n) s = .next (startHead s n) := by
    show execQueueHeadTimeout n s = _
    unfold execQueueHeadTimeout
    exact if_pos ⟨hstate, hdue⟩
  have hstarts := startHead_started hqueue hfits
  exact ⟨_, hexec, hstarts.run, hstarts.queue, hstarts.state, hstarts.done n.isLt (by rw [hrun]; rfl)⟩

/-! ## The end of the drive -/

/-- The running effect ends, and the channel has nothing more to do. -/
theorem endedIdle (outcome : Nat) (hready : getN s K.hapState = hapReady) (hspare : (chanOf s n).spareDue = none)
    (hqueue : (chanOf s n).queue = []) :
    chSt (channelIdle (endRunning s n outcome) n) n = chIdle ∧ (chanOf (channelIdle (endRunning s n outcome) n) n).run = none ∧
    getN (channelIdle (endRunning s n outcome) n) (endedKey n outcome) = satInc 32 (getN s (endedKey n outcome)) ∧
    onlyObjsAndNotes [endedKey n outcome, K.chState n] s (channelIdle (endRunning s n outcome) n) := by
  obtain ⟨hstep, hcount⟩ := endRunning_step (n := n) s outcome
  have hcount := hcount n.isLt e hrun
  generalize endRunning s n outcome = u at *
  have hkey : K.hapState ≠ endedKey n outcome := by
    rw [endedKey_eq]
    simp only [K.hapState, objKey]
    split <;> omega
  have hidle : channelIdle u n = putN u (K.chState n) chIdle :=
    channelIdle_quiet ((hstep.getN (fun h => hkey (List.mem_singleton.1 h)) (hapKey_note (sub := 3) (by decide))).trans hready)
      (by rw [hstep.chan]; exact hspare) (by rw [hstep.chan]; exact hqueue)
  have hput := (hstep.mono (ks' := [endedKey n outcome, K.chState n]) (by simp)).putN (k := K.chState n) (v := chIdle) (.tail _ (.head _))
  have hne : endedKey n outcome ≠ K.chState n := by
    rw [endedKey_eq]
    exact chKey_ne (by split <;> decide)
  rw [hidle]
  exact ⟨getN_putN .., by rw [hput.chan]; rfl, (getN_putN_ne u _ hne).trans hcount, hput.objs⟩

theorem brakingEnd_spec (mg : Nat) (hstate : chSt s n = chBraking) (hready : getN s K.hapState = hapReady)
    (hspare : (chanOf s n).spareDue = none) (hqueue : (chanOf s n).queue = [])
    (hdue : (chanOf s n).braked + shaleBrake e.effect * msec ≤ s.now)
    (hstill : mg * 20 ≤ shalePeak e.effect ∨ (chanOf s n).braked + shaleBrake e.effect * msec + 4 * msec ≤ s.now) :
    ∃ t, exec (.brakingEnd n mg) s = .next t ∧ chSt t n = chIdle ∧ (chanOf t n).run = none ∧
      getN t (K.chDone n) = satInc 32 (getN s (K.chDone n)) ∧ getN t (K.chDropped n) = getN s (K.chDropped n) := by
  have hexec : exec (.brakingEnd n mg) s = .next (channelIdle (endRunning s n effDone) n) := by
    show execBrakingEnd n mg s = _
    unfold execBrakingEnd
    rw [hrun]
    exact if_pos ⟨hstate, hdue, hstill⟩
  obtain ⟨hidle, hfree, hdone, hobjs⟩ := endedIdle hrun effDone hready hspare hqueue
  exact ⟨_, hexec, hidle, hfree, hdone,
    getN_kept hobjs (chKey_not_mem (sub := 14) (subs := [13, 7]) (by decide)) (chKey_note n.isLt (by decide))⟩

/-- A cut is counted and told. -/
def cutShown (s : State) (n limit : Nat) (e : Effect) : State :=
  emit (bump s K.hapLimit) 5 0x0502 n (leBytes 1 n ++ leBytes 1 limit ++ leBytes 1 e.effect) (hapFuncs s n)

theorem limitCut_eq (limit outcome : Nat) :
    limitCut s n limit outcome = channelIdle (endRunning (cutShown s n limit e) n outcome) n := by
  unfold limitCut cutShown
  split
  · next h => exact absurd (h.symm.trans hrun) (by simp)
  · next x h =>
    obtain rfl : x = e := Option.some.inj (h.symm.trans hrun)
    rfl

omit hrun in
theorem cutShown_step (limit : Nat) : ChanStep n [K.hapLimit] (chanOf s n) s (cutShown s n limit e) ∧
    getN (cutShown s n limit e) K.hapLimit = satInc 32 (getN s K.hapLimit) := by
  have hbump := (ChanStep.refl n.val [K.hapLimit] s).bump (k := K.hapLimit) (.head _)
  have hlimit : getN (bump s K.hapLimit) K.hapLimit = satInc 32 (getN s K.hapLimit) := getN_bump s _
  exact ⟨hbump.emit, (FrameEvents.getN_emit _ _ _ _ _ _ (hapKey_note (by decide))).trans hlimit⟩

/-- A fall-back limit cuts the drive and is counted. -/
theorem limitCut_spec (limit : Nat) {outcome : Nat} (hout : outcome ≠ 0) (hready : getN s K.hapState = hapReady)
    (hspare : (chanOf s n).spareDue = none) (hqueue : (chanOf s n).queue = []) :
    chSt (limitCut s n limit outcome) n = chIdle ∧ (chanOf (limitCut s n limit outcome) n).run = none ∧
    getN (limitCut s n limit outcome) K.hapLimit = satInc 32 (getN s K.hapLimit) ∧
    getN (limitCut s n limit outcome) (K.chDropped n) = satInc 32 (getN s (K.chDropped n)) := by
  have hdropped : endedKey n outcome = K.chDropped n := if_neg hout
  have hkey {sub : Nat} : objKey (0x4810 + n) sub ≠ K.hapLimit := by
    simp only [K.hapLimit, objKey]
    omega
  rw [limitCut_eq hrun limit outcome]
  obtain ⟨hshown, hlimit⟩ := cutShown_step (s := s) (n := n) (e := e) limit
  generalize cutShown s n limit e = v at *
  have hcount : getN v (K.chDropped n) = getN s (K.chDropped n) :=
    hshown.getN (fun h => hkey (List.mem_singleton.1 h)) (chKey_note (sub := 14) n.isLt (by decide))
  have hready' : getN v K.hapState = hapReady :=
    (hshown.getN (fun h => absurd (List.mem_singleton.1 h) (by decide)) (hapKey_note (sub := 3) (by decide))).trans hready
  obtain ⟨hidle, hfree, hended, hobjs⟩ := endedIdle (s := v) (by rw [hshown.chan]; exact hrun) outcome hready'
    (by rw [hshown.chan]; exact hspare) (by rw [hshown.chan]; exact hqueue)
  rw [hdropped] at hended hobjs
  have hout : K.hapLimit ∉ [K.chDropped n, K.chState n] := by
    simp only [List.mem_cons, List.not_mem_nil, or_false]
    exact fun h => h.elim hkey.symm hkey.symm
  exact ⟨hidle, hfree, (getN_kept hobjs hout (hapKey_note (sub := 7) (by decide))).trans hlimit, hended.trans (by rw [hcount])⟩

theorem onTimeCut_run (hdue : 200 * msec + (chanOf s n).started ≤ s.now) : exec (.onTimeCut n) s = .next (limitCut s n 1 effOnTime) := by
  show execOnTimeCut n s = _
  unfold execOnTimeCut
  refine if_pos ?_
  rw [chRuns, hrun, decide_eq_true (by omega)]
  rfl

theorem dutyCut_run (hduty : 200 * msec ≤ chDutyNs s n) : exec (.dutyCut n) s = .next (limitCut s n 2 effDuty) := by
  show execDutyCut n s = _
  unfold execDutyCut
  refine if_pos ?_
  rw [chRuns, hrun, decide_eq_true hduty]
  rfl

/-! ## The accelerometer -/

theorem accelTimeout_run (hused : getN s (K.chSenseUsed n) = 1) (hdue : (chanOf s n).started + 2 * msec ≤ s.now) (reads : List (BitVec 32)) :
    exec (.accelTimeout n reads) s = match (reads.filter accValid).getLast? with
      | some w => .next (modChan s n (fun c => { c with accel := accMicroG s w }))
      | none => .next (bump (putN s (K.chSenseUsed n) 0) (K.chSenseFail n)) := by
  show execAccelTimeout n reads s = _
  unfold execAccelTimeout
  refine if_pos ?_
  rw [chRuns, hrun, hused, decide_eq_true hdue]
  rfl

theorem accelTimeout_spec (hused : getN s (K.chSenseUsed n) = 1) (hdue : (chanOf s n).started + 2 * msec ≤ s.now) (reads : List (BitVec 32)) :
    (reads.filter accValid = [] → ∃ t, exec (.accelTimeout n reads) s = .next t ∧ getN t (K.chSenseUsed n) = 0 ∧
      getN t (K.chSenseFail n) = satInc 32 (getN s (K.chSenseFail n)) ∧ onlyObjs [K.chSenseUsed n, K.chSenseFail n] s t ∧
      Changes [.objs] s t) ∧
    (∀ w, (reads.filter accValid).getLast? = some w → ∃ t, exec (.accelTimeout n reads) s = .next t ∧
      (chanOf t n).accel = (w.extractLsb' 16 16).toInt * (getN s K.accLsb : Nat) ∧ Changes [.hap] s t) := by
  rw [accelTimeout_run hrun hused hdue]
  refine ⟨fun hnone => ?_, fun w hw => ?_⟩
  · rw [hnone]
    have hfail : getN (putN s (K.chSenseUsed n) 0) (K.chSenseFail n) = getN s (K.chSenseFail n) := getN_putN_ne s 0 (chKey_ne (by decide))
    refine ⟨_, rfl, (getN_bump_ne _ (chKey_ne (by decide))).trans (getN_putN ..), (getN_bump ..).trans (congrArg _ hfail),
      onlyObjs_bump (.tail _ (.head _)) (onlyObjs_putN _ (.head _) (onlyObjs_refl _ s)), bump_ch (by decide) (putN_ch (by decide) (Changes.refl _ s))⟩
  · rw [hw]
    refine ⟨_, rfl, ?_, modChan_changes s n _⟩
    rw [chanOf_modChan]
    rfl

end

/-! ## Deadlines and queued effects that fit -/

theorem effectDeadline_spec {s : State} {n : Fin 16} {e : Effect} {d : Nat} (hqueue : (chanOf s n).queue = [e]) (hdeadline : e.deadline = some d)
    (hlate : d ≤ s.now) :
    ∃ t, exec (.effectDeadline n) s = .next t ∧ (chanOf t n).queue = [] ∧ getN t (K.chDropped n) = satInc 32 (getN s (K.chDropped n)) ∧
      chSt t n = chSt s n ∧ (chanOf t n).run = (chanOf s n).run := by
  have hexec : exec (.effectDeadline n) s = .next (overlayHead (effectEnds (setQueue s n []) n e effDeadline) n) := by
    show execEffectDeadline n s = _
    unfold execEffectDeadline
    dsimp only
    rw [hqueue]
    simp [hdeadline, hlate]
  have hset := setQueue_step n.val [K.chDropped n] s []
  have hcount : getN (setQueue s n []) (K.chDropped n) = getN s (K.chDropped n) := rfl
  have hstate : chSt (setQueue s n []) n = chSt s n := rfl
  generalize setQueue s n [] = u at *
  obtain ⟨hend, hended⟩ := effectEnds_step (n := n) u e effDeadline
  have hended : getN (effectEnds u n e effDeadline) (K.chDropped n) = satInc 32 (getN u (K.chDropped n)) := hended n.isLt
  generalize effectEnds u n e effDeadline = v at *
  have hempty : (chanOf v n).queue = [] := by rw [hend.chan, hset.chan]; rfl
  have hstate' : chSt v n = chSt u n :=
    hend.getN (chKey_not_mem (sub := 7) (subs := [14]) (by decide)) (chKey_note n.isLt (by decide))
  exact ⟨v, hexec.trans (by rw [overlayHead_empty hempty]), hempty, by rw [hended, hcount], hstate'.trans hstate,
    by rw [hend.chan, hset.chan]; rfl⟩

theorem effectFits_spec {s : State} {n : Fin 16} {e : Effect} {q : List Effect} (hidle : chSt s n = chIdle) (hopen : channelOpen s n = true)
    (hqueue : (chanOf s n).queue = e :: q) (hfits : effFits s n e = true) :
    ∃ t, exec (.effectFits n) s = .next t ∧ (chanOf t n).run = some e ∧ (chanOf t n).queue = q ∧ chSt t n = chAttack := by
  have hexec : exec (.effectFits n) s = .next (startHead s n) := by
    show execEffectFits n s = _
    unfold execEffectFits
    exact if_pos ⟨hidle, hopen⟩
  have hstarts := startHead_started hqueue hfits
  exact ⟨_, hexec, hstarts.run, hstarts.queue, hstarts.state⟩

end Sys2Proof.Proofs.HapticEffects

/-!
PROOFS. O52, its second part: trips and their probes, driver faults, and the interlock loop (R379, R380, R383, R507).
-/

namespace Sys2Proof.Proofs.HapticTrips

open Sys2Proof.Machine
open Sys2Proof.Proofs.HapticChannels
open Sys2Proof.Proofs.ModeFrame (updateHealth_objs)
open Sys2Proof.Proofs.GrogRecord
open Sys2Proof.Proofs.AreaWrites (areaWrite_done)
open Sys2Proof.Proofs.VirtualFunctions (isMgr_session)

/-- The objects that an end on a channel, and what it does to the module's health, can move. -/
def endKeys (n : Nat) (subs : List Nat) : List Nat := chKeys n subs ++ healthKeys

theorem chKey_not_end {n sub : Nat} {subs : List Nat} (hn : n < 16) (hsub : sub < 256) (h : sub ∉ subs) :
    objKey (0x4810 + n) sub ∉ endKeys n subs := fun hk => (List.mem_append.1 hk).elim (chKey_not_mem h) (chKey_not_health hn hsub)

theorem hapKey_not_health {sub : Nat} (hsub : sub < 256) : objKey 0x4800 sub ∉ healthKeys := by
  simp only [healthKeys, List.mem_cons, List.mem_map, List.mem_range, K.healthModule, K.healthSub, objKey]
  grind

theorem hapKey_not_chKeys {n sub : Nat} {subs : List Nat} (hsub : sub < 256) : objKey 0x4800 sub ∉ chKeys n subs := fun hk => by
  obtain ⟨b, -, heq⟩ := List.mem_map.1 hk
  simp only [objKey] at heq
  omega

theorem hapKey_not_end {n sub : Nat} {subs : List Nat} (hsub : sub < 256) : objKey 0x4800 sub ∉ endKeys n subs := fun hk =>
  (List.mem_append.1 hk).elim (hapKey_not_chKeys hsub) (hapKey_not_health hsub)

theorem mem_endKeys_left {n : Nat} {subs : List Nat} {k : Nat} (h : k ∈ chKeys n subs) : k ∈ endKeys n subs := List.mem_append_left _ h

theorem mem_endKeys_health {n : Nat} {subs : List Nat} {k : Nat} (h : k ∈ healthKeys) : k ∈ endKeys n subs := List.mem_append_right _ h

/-! ## A trip -/

/-- A trip's cause is shown, with the capacitance that was measured. -/
def tripCause (s : State) (n cause cap : Nat) : State :=
  putN (putN (if cause = 2 then s else putN s (K.chCapMeas n) cap) (K.chState n) chTripped) (K.chTrip n) (cause + 1)

/-- A trip is counted, and its probe is due 100 ms on. -/
def tripCounted (s : State) (n : Nat) : State :=
  bump (modChan s n (fun c => { c with probeAt := some (s.now + 100 * msec) })) (K.chTripCount n)

def tripShown (s : State) (n cause cap : Nat) : State := tripCounted (tripCause s n cause cap) n

theorem tripShown_spec (s : State) (n cause cap : Nat) :
    ChanStep n (chKeys n [7, 10, 11, 12]) { chanOf s n with probeAt := some (s.now + 100 * msec) } s (tripShown s n cause cap) ∧
    chSt (tripShown s n cause cap) n = chTripped ∧ getN (tripShown s n cause cap) (K.chTrip n) = cause + 1 ∧
    getN (tripShown s n cause cap) (K.chTripCount n) = satInc 32 (getN s (K.chTripCount n)) := by
  have hmeas : ∃ u, (if cause = 2 then s else putN s (K.chCapMeas n) cap) = u ∧ ChanStep n (chKeys n [7, 10, 11, 12]) (chanOf s n) s u ∧
      getN u (K.chTripCount n) = getN s (K.chTripCount n) := by
    refine ⟨_, rfl, ?_⟩
    split
    · exact ⟨.refl n _ s, rfl⟩
    · exact ⟨(ChanStep.refl n _ s).putN (chKey_mem (sub := 10) (by decide)), getN_putN_ne s cap (chKey_ne (by decide))⟩
  obtain ⟨u, hu, hstep, hcount⟩ := hmeas
  have hputs : ChanStep n (chKeys n [7, 10, 11, 12]) (chanOf s n) s (tripCause s n cause cap) := by
    unfold tripCause
    rw [hu]
    exact (hstep.putN (chKey_mem (sub := 7) (by decide))).putN (chKey_mem (sub := 11) (by decide))
  have hstate : chSt (tripCause s n cause cap) n = chTripped := (getN_putN_ne _ _ (chKey_ne (by decide))).trans (getN_putN ..)
  have htrip : getN (tripCause s n cause cap) (K.chTrip n) = cause + 1 := getN_putN ..
  have hcount' : getN (tripCause s n cause cap) (K.chTripCount n) = getN s (K.chTripCount n) := by
    unfold tripCause
    rw [hu]
    exact (getN_putN_ne _ _ (chKey_ne (by decide))).trans ((getN_putN_ne _ _ (chKey_ne (by decide))).trans hcount)
  unfold tripShown
  generalize tripCause s n cause cap = v at *
  unfold tripCounted
  rw [hputs.now]
  have hmod := hputs.modChan (g := fun c => { c with probeAt := some (s.now + 100 * msec) })
  have hkey (k : Nat) : getN (modChan v n (fun c => { c with probeAt := some (s.now + 100 * msec) })) k = getN v k := rfl
  generalize modChan v n (fun c => { c with probeAt := some (s.now + 100 * msec) }) = w at *
  exact ⟨hmod.bump (chKey_mem (sub := 12) (by decide)), (getN_bump_ne w (chKey_ne (by decide))).trans ((hkey _).trans hstate),
    (getN_bump_ne w (chKey_ne (by decide))).trans ((hkey _).trans htrip), (getN_bump w _).trans (by rw [hkey, hcount'])⟩

/-- Everything on the channel ends, it is told, and the module's health follows. -/
def tripEnded (s : State) (n cause : Nat) : State :=
  let s := endQueue (endRunning s n effTrip) n effTrip
  let s := emit s 5 0x0501 n (leBytes 1 n ++ leBytes 1 (cause + 1) ++ leBytes 1 0 ++ leBytes 4 (getN s (K.chCapMeas n))) (hapFuncs s n)
  updateHealth (hapStopCheck s)

theorem hapTrip_run {s : State} {n : Fin 16} {cause : Fin 3} {cap : BitVec 32} (h : tripHolds s n cause cap.toNat = true) :
    exec (.hapTrip n cause cap) s = .next (tripEnded (tripShown s n cause cap.toNat) n cause) := by
  show execHapTrip n cause cap s = _
  unfold execHapTrip
  rw [h]
  rfl

theorem tripEnded_step {s : State} {n : Nat} (cause : Nat) (hready : getN s K.hapState = hapReady) :
    ChanStep n (endKeys n [13, 14]) (queued s.now [] (closed s.now (chanOf s n))) s (tripEnded s n cause) := by
  have hall := (endAll_step n s effTrip).mono (ks' := endKeys n [13, 14]) fun k hk =>
    mem_endKeys_left (List.mem_singleton.1 hk ▸ endedKey_mem n effTrip)
  unfold tripEnded
  generalize endQueue (endRunning s n effTrip) n effTrip = u at *
  dsimp only
  have hemit := hall.emit (cls := 5) (code := 0x0501) (inst := n)
    (detail := leBytes 1 n ++ leBytes 1 (cause + 1) ++ leBytes 1 0 ++ leBytes 4 (getN u (K.chCapMeas n))) (fs := hapFuncs u n)
  generalize emit u 5 0x0501 n (leBytes 1 n ++ leBytes 1 (cause + 1) ++ leBytes 1 0 ++ leBytes 4 (getN u (K.chCapMeas n))) (hapFuncs u n) = v at *
  have hkept : getN v K.hapState = hapReady := (hemit.getN (hapKey_not_end (by decide)) (hapKey_note (by decide))).trans hready
  rw [hapStopCheck_ready hkept]
  exact hemit.updateHealth fun k hk => mem_endKeys_health hk

theorem hapTrip_spec {s : State} {n : Fin 16} {cause : Fin 3} {cap : BitVec 32} (h : tripHolds s n cause cap.toNat = true)
    (hready : getN s K.hapState = hapReady) :
    ∃ t, exec (.hapTrip n cause cap) s = .next t ∧ chSt t n = chTripped ∧ getN t (K.chTrip n) = cause + 1 ∧
      getN t (K.chTripCount n) = satInc 32 (getN s (K.chTripCount n)) ∧ (chanOf t n).run = none ∧ (chanOf t n).queue = [] ∧
      (chanOf t n).probeAt = some (s.now + 100 * msec) := by
  have hexec := hapTrip_run h
  obtain ⟨hshown, hstate, htrip, hcount⟩ := tripShown_spec s n.val cause.val cap.toNat
  generalize tripShown s n cause cap.toNat = u at *
  have hended := tripEnded_step (n := n) cause.val ((hshown.getN (hapKey_not_chKeys (sub := 3) (by decide)) (hapKey_note (by decide))).trans hready)
  have hkept {sub : Nat} (hsub : sub < 256) (hne : sub ∉ [13, 14]) := hended.getN (chKey_not_end n.isLt hsub hne) (chKey_note n.isLt hsub)
  exact ⟨_, hexec, (hkept (by decide) (by decide)).trans hstate, (hkept (by decide) (by decide)).trans htrip,
    (hkept (by decide) (by decide)).trans hcount, by rw [hended.chan]; rfl, by rw [hended.chan]; rfl, by rw [hended.chan, hshown.chan]; rfl⟩

/-! ## A probe -/

/-- The probe is made, and its result told. -/
def probed (s : State) (n cap : Nat) : State :=
  let s' := modChan s n (fun c => { c with probeAt := none })
  emit s' 5 0x0501 n (leBytes 1 n ++ leBytes 1 (getN s' (K.chTrip n)) ++
    leBytes 1 (b2n !(decide (getN s (K.chCap n) ≤ 2 * cap ∧ cap ≤ 2 * getN s (K.chCap n)))) ++ leBytes 4 cap) (hapFuncs s' n)

theorem probe_eq (s : State) (n cap : Nat) : probe s n cap =
    if decide (getN s (K.chCap n) ≤ 2 * cap ∧ cap ≤ 2 * getN s (K.chCap n)) then updateHealth (channelIdle (probed s n cap) n)
    else probed s n cap := rfl

theorem probed_step (s : State) (n cap : Nat) : ChanStep n [] { chanOf s n with probeAt := none } s (probed s n cap) :=
  ((ChanStep.refl n [] s).modChan (g := fun c => { c with probeAt := none })).emit

theorem probe_passes {s : State} {n cap : Nat} (hn : n < 16) (hlow : getN s (K.chCap n) ≤ 2 * cap) (hhigh : cap ≤ 2 * getN s (K.chCap n))
    (hready : getN s K.hapState = hapReady) (hspare : (chanOf s n).spareDue = none) (hqueue : (chanOf s n).queue = []) :
    chSt (probe s n cap) n = chIdle ∧ (chanOf (probe s n cap) n).probeAt = none := by
  rw [probe_eq, if_pos (decide_eq_true ⟨hlow, hhigh⟩)]
  have hstep := probed_step s n cap
  generalize probed s n cap = u at *
  have hidle := channelIdle_quiet ((hstep.getN List.not_mem_nil (hapKey_note (sub := 3) (by decide))).trans hready)
    (by rw [hstep.chan]; exact hspare) (by rw [hstep.chan]; exact hqueue)
  rw [hidle]
  have hput := (hstep.mono (ks' := endKeys n [7]) fun k hk => (List.not_mem_nil hk).elim).putN (v := chIdle)
    (mem_endKeys_left (chKey_mem (sub := 7) (subs := [7]) (by decide)))
  have hstate : chSt (putN u (K.chState n) chIdle) n = chIdle := getN_putN ..
  have hput : ChanStep n (endKeys n [7]) { chanOf s n with probeAt := none } s (putN u (K.chState n) chIdle) := hput
  generalize putN u (K.chState n) chIdle = v at *
  have hhealth := hput.updateHealth fun k hk => mem_endKeys_health hk
  exact ⟨(getN_kept (updateHealth_objs v) (chKey_not_health hn (by decide)) (chKey_note hn (by decide))).trans hstate, by rw [hhealth.chan]⟩

theorem probe_fails {s : State} {n cap : Nat} (hn : n < 16) (h : 2 * cap < getN s (K.chCap n) ∨ 2 * getN s (K.chCap n) < cap) :
    chSt (probe s n cap) n = chSt s n ∧ (chanOf (probe s n cap) n).probeAt = none ∧ onlyObjsAndNotes [] s (probe s n cap) := by
  rw [probe_eq, if_neg (by rw [decide_eq_true_iff]; omega)]
  have hstep := probed_step s n cap
  exact ⟨hstep.getN List.not_mem_nil (chKey_note hn (by decide)), by rw [hstep.chan], hstep.objs⟩

theorem tripProbe_run {s : State} {n : Fin 16} {cap : BitVec 32} {a : Nat} (hstate : chSt s n = chTripped)
    (hprobe : (chanOf s n).probeAt = some a) (hdue : a ≤ s.now) : exec (.tripProbe n cap) s = .next (probe s n cap.toNat) := by
  show execTripProbe n cap s = _
  unfold execTripProbe
  rw [hprobe]
  exact if_pos ⟨hstate, hdue⟩

/-- A write of 1 to ch.reset probes the channel once more. -/
theorem chReset_run {s : State} {r : DictReq} {i : Nat} {n : Fin 16} {cap : BitVec 32} (hstate : chSt s n = chTripped)
    (h : AdmittedWrite s r i (K.chReset n) 1) (hmgr : managerSession s i) :
    ∃ t, exec (.chReset r n 1 cap) s = .next t ∧ answered t r 0x11 .ok ∧ Changes [.sess, .resp] (probe (renewed s i) n cap.toNat) t := by
  have happly : areaApply (renewed s i) (sessionCtx s r i (some cap.toNat)) (0x4810 + n.val) 17 (.num 1) =
      (probe (renewed s i) n cap.toNat, .ok) := by
    rw [areaApply_chan n.isLt]
    show accepted (resetChannel (renewed s i) n cap.toNat) = _
    rw [resetChannel, if_pos (show chSt (renewed s i) n = chTripped from hstate)]
    rfl
  have hcheck : areaCheck (renewed s i) (sessionCtx s r i (some cap.toNat)) (0x4810 + n.val) 17 (.num 1) = .ok := by
    rw [areaCheck_chan n.isLt, hapCheck]
    exact if_neg fun hbad => absurd hbad.2.2.2.1 (by decide)
  exact areaWrite_done (row_chReset n) (.inr rfl) (by omega) (by decide) h (.inl hmgr) (areaAccess_chan n.isLt (isMgr_session hmgr)) (by rfl)
    (by rfl) hcheck (areaClaims_chan n.isLt) happly (.inl rfl)

theorem chReset_passes {s : State} {r : DictReq} {i : Nat} {n : Fin 16} {cap : BitVec 32} (hstate : chSt s n = chTripped)
    (h : AdmittedWrite s r i (K.chReset n) 1) (hmgr : managerSession s i) (hlow : getN s (K.chCap n) ≤ 2 * cap.toNat)
    (hhigh : cap.toNat ≤ 2 * getN s (K.chCap n)) (hready : getN s K.hapState = hapReady) (hspare : (chanOf s n).spareDue = none)
    (hqueue : (chanOf s n).queue = []) :
    ∃ t, exec (.chReset r n 1 cap) s = .next t ∧ answered t r 0x11 .ok ∧ chSt t n = chIdle := by
  obtain ⟨t, hexec, hans, hch⟩ := chReset_run (cap := cap) hstate h hmgr
  obtain ⟨hidle, -⟩ := probe_passes (s := renewed s i) n.isLt hlow hhigh hready hspare hqueue
  exact ⟨t, hexec, hans, (hch.getN (by decide) (by decide) _).trans hidle⟩

theorem chReset_fails {s : State} {r : DictReq} {i : Nat} {n : Fin 16} {cap : BitVec 32} (hstate : chSt s n = chTripped)
    (h : AdmittedWrite s r i (K.chReset n) 1) (hmgr : managerSession s i)
    (hout : 2 * cap.toNat < getN s (K.chCap n) ∨ 2 * getN s (K.chCap n) < cap.toNat) :
    ∃ t, exec (.chReset r n 1 cap) s = .next t ∧ answered t r 0x11 .ok ∧ chSt t n = chTripped ∧ onlyObjsAndNotes [] s t := by
  obtain ⟨t, hexec, hans, hch⟩ := chReset_run (cap := cap) hstate h hmgr
  obtain ⟨hkept, -, hobjs⟩ := probe_fails (s := renewed s i) n.isLt hout
  exact ⟨t, hexec, hans, ((hch.getN (by decide) (by decide) _).trans hkept).trans hstate,
    onlyAndNotes_trans (onlyAndNotes_trans (onlyAndNotes_of_only (onlyObjs_of_eq rfl)) hobjs) (onlyAndNotes_of_changes hch (by decide))⟩

end Sys2Proof.Proofs.HapticTrips

/-!
PROOFS. O52, its third part: driver faults, the start of the ZH-17 and its interlock loop (R383, R384, R507).
-/

namespace Sys2Proof.Proofs.HapticDrivers

open Sys2Proof.Machine
open Sys2Proof.Proofs.HapticChannels
open Sys2Proof.Proofs.HapticTrips
open Sys2Proof.Proofs.ModeFrame (updateHealth_objs)
open Sys2Proof.Proofs.GrogRecord

/-! ## Units -/

theorem grogShown_objs (s : State) (cls kind unit spare cause gen : Nat) (low : Bool) :
    onlyObjsAndNotes healthKeys s (updateHealth (grogEvent (grogLog s cls kind unit spare cause 0 gen) cls kind unit spare low)) :=
  onlyAndNotes_trans (onlyAndNotes_trans (onlyAndNotes_of_changes (grogLog_ch (List.Subset.refl _) (Changes.refl _ s)) (by decide))
    (grogEvent_objs _ _ cls kind unit spare low)) (updateHealth_objs _)

theorem substitute_objs (s : State) (cls unit spare cause gen : Nat) : onlyObjsAndNotes healthKeys s (substitute s cls unit spare cause gen) := by
  unfold substitute
  extract_lets p s₁ s₂
  have h₂ : onlyObjsAndNotes healthKeys s s₂ := onlyAndNotes_of_only (onlyObjs_of_eq rfl)
  clear_value s₂
  exact onlyAndNotes_trans h₂ (grogShown_objs s₂ cls 1 unit spare cause gen true)

theorem retireUnit_objs (s : State) (cls unit cause : Nat) : onlyObjsAndNotes healthKeys s (retireUnit s cls unit cause) := by
  unfold retireUnit
  extract_lets s₁
  have h₁ : onlyObjsAndNotes healthKeys s s₁ := onlyAndNotes_of_only (onlyObjs_of_eq rfl)
  clear_value s₁
  exact onlyAndNotes_trans h₁ (grogShown_objs s₁ cls 2 unit 65535 cause 0 false)

/-- The spare that replaces a unit is in service. -/
theorem substitute_inService (s : State) (cls unit spare cause gen : Nat) :
    unitState (substitute s cls unit spare cause gen) cls spare = unitInService := by
  unfold substitute
  extract_lets p s₁ s₂
  have h₂ : tget s₂.grog.units (unitKey cls spare) (firstUnitState cls spare) = unitInService := tget_tset_same ..
  clear_value s₂
  have hmaps := ((sameMaps_grogLog s₂ cls 1 unit spare cause 0 gen).trans (sameMaps_grogEvent _ cls 1 unit spare true)).trans
    (sameMaps_updateHealth _)
  rw [unitState, hmaps.1]
  exact h₂

/-! ## A driver's fault -/

section
variable {n : Nat} {ks : List Nat} {c : Chan} {r s : State}

theorem step_substitute (h : ChanStep n ks c r s) (hks : ∀ k ∈ healthKeys, k ∈ ks) (cls unit spare cause gen : Nat) :
    ChanStep n ks c r (substitute s cls unit spare cause gen) := by
  have hch := substitute_ch (List.Subset.refl _) (Changes.refl _ s) (cls := cls) (unit := unit) (spare := spare) (cause := cause) (gen := gen)
  exact h.quiet (hch.now (by decide)) (by rw [hch.hap (by decide)]) fun k hk => substitute_objs s cls unit spare cause gen k fun hmem => hk (hks k hmem)

theorem step_retireUnit (h : ChanStep n ks c r s) (hks : ∀ k ∈ healthKeys, k ∈ ks) (cls unit cause : Nat) :
    ChanStep n ks c r (retireUnit s cls unit cause) := by
  have hch := retireUnit_ch (List.Subset.refl _) (Changes.refl _ s) (cls := cls) (unit := unit) (cause := cause)
  exact h.quiet (hch.now (by decide)) (by rw [hch.hap (by decide)]) fun k hk => retireUnit_objs s cls unit cause k fun hmem => hk (hks k hmem)

end

/-- A channel without a driver. -/
theorem channelFailed_spec (s : State) {n : Nat} (hn : n < 16) :
    chSt (channelFailed s n) n = chFailed ∧ (chanOf (channelFailed s n) n).run = none ∧ (chanOf (channelFailed s n) n).queue = [] := by
  have hall := (endAll_step n s effDisabled).mono (ks' := endKeys n [7, 13, 14]) fun k hk =>
    mem_endKeys_left (List.mem_singleton.1 hk ▸ by
      rw [endedKey_eq]
      exact chKey_mem (by split <;> decide))
  unfold channelFailed
  generalize endQueue (endRunning s n effDisabled) n effDisabled = u at *
  dsimp only
  have hput := (hall.putN (k := K.chState n) (v := chFailed) (mem_endKeys_left (chKey_mem (sub := 7) (by decide)))).modChan
    (g := fun c => { c with probeAt := none, spareDue := none })
  have hstate : chSt (modChan (putN u (K.chState n) chFailed) n (fun c => { c with probeAt := none, spareDue := none })) n = chFailed :=
    getN_putN ..
  generalize modChan (putN u (K.chState n) chFailed) n (fun c => { c with probeAt := none, spareDue := none }) = v at *
  have hemit := hput.emit (cls := 5) (code := 0x0503) (inst := n) (detail := leBytes 1 n ++ leBytes 1 (getN v (K.chDriver n)))
    (fs := hapFuncs v n)
  have hkept := FrameEvents.getN_emit v 5 0x0503 n (leBytes 1 n ++ leBytes 1 (getN v (K.chDriver n))) (hapFuncs v n)
    (k := K.chState n) (chKey_note hn (by decide))
  generalize emit v 5 0x0503 n (leBytes 1 n ++ leBytes 1 (getN v (K.chDriver n))) (hapFuncs v n) = w at *
  have hhealth := hemit.updateHealth fun k hk => mem_endKeys_health hk
  exact ⟨((getN_kept (updateHealth_objs w) (chKey_not_health hn (by decide)) (chKey_note hn (by decide))).trans hkept).trans hstate,
    by rw [hhealth.chan]; rfl, by rw [hhealth.chan]; rfl⟩

/-- The channel's wait for driver 16 is over. -/
def spareTaken (s : State) (n : Nat) : State := modChan s n (fun c => { c with spareDue := none })

/-- Driver 16 in the channel's place. -/
def connected (s : State) (n : Nat) : State :=
  putN (putN (putN (substitute s clsDriver n 16 2 ((getN s (K.chGen n) + 1) % 65536)) (K.chGen n) ((getN s (K.chGen n) + 1) % 65536))
    (K.chDriver n) 16) K.hapSpare n

theorem connectSpare_passes {s : State} {n : Nat} (h : unitState s clsDriver 16 = unitSpare) :
    connectSpare s n true = emit (connected (spareTaken s n) n) 5 0x0503 n (leBytes 1 n ++ leBytes 1 16)
      (hapFuncs (connected (spareTaken s n) n) n) := by
  have hhere : ¬ unitState (spareTaken s n) clsDriver 16 ≠ unitSpare := not_not.2 h
  unfold connectSpare
  refine (if_neg hhere).trans ((if_neg (by decide)).trans ?_)
  rfl

theorem connectSpare_none {s : State} {n : Nat} (h : unitState s clsDriver 16 ≠ unitSpare) (passes : Bool) :
    connectSpare s n passes = channelFailed (retireUnit (spareTaken s n) clsDriver (getN (spareTaken s n) (K.chDriver n)) 2) n := by
  have hhere : unitState (spareTaken s n) clsDriver 16 ≠ unitSpare := h
  unfold connectSpare
  exact if_pos hhere

/-- The objects that a substitution moves. -/
def spareKeys (n : Nat) : List Nat := K.hapSpare :: endKeys n [8, 18]

theorem chKey_not_spare {n sub : Nat} (hn : n < 16) (hsub : sub < 256) (h : sub ∉ [8, 18]) : objKey (0x4810 + n) sub ∉ spareKeys n := fun hk =>
  (List.mem_cons.1 hk).elim (fun heq => by simp only [K.hapSpare, objKey] at heq; omega) (chKey_not_end hn hsub h)

structure Connected (s : State) (n : Nat) (t : State) : Prop where
  driver : getN t (K.chDriver n) = 16
  spare : getN t K.hapSpare = n
  gen : getN t (K.chGen n) = (getN s (K.chGen n) + 1) % 65536
  unit : unitState t clsDriver 16 = unitInService
  state : chSt t n = chSt s n

theorem connected_spec (s : State) {n : Nat} (hn : n < 16) : Connected s n (connected s n) := by
  have hunit := substitute_inService s clsDriver n 16 2 ((getN s (K.chGen n) + 1) % 65536)
  have hobjs := substitute_objs s clsDriver n 16 2 ((getN s (K.chGen n) + 1) % 65536)
  unfold connected
  generalize substitute s clsDriver n 16 2 ((getN s (K.chGen n) + 1) % 65536) = u at *
  have hstate : chSt u n = chSt s n := getN_kept hobjs (chKey_not_health hn (by decide)) (chKey_note hn (by decide))
  have hapart {sub : Nat} : objKey (0x4810 + n) sub ≠ K.hapSpare := by
    simp only [K.hapSpare, objKey]
    omega
  exact ⟨(getN_putN_ne _ _ hapart).trans (getN_putN ..), getN_putN ..,
    (getN_putN_ne _ _ hapart).trans ((getN_putN_ne _ _ (chKey_ne (by decide))).trans (getN_putN ..)), hunit,
    (getN_putN_ne _ _ hapart).trans ((getN_putN_ne _ _ (chKey_ne (by decide))).trans ((getN_putN_ne _ _ (chKey_ne (by decide))).trans hstate))⟩

theorem driverFault_run {s : State} {n : Fin 16} (passes : Bool) (hready : getN s K.hapState = hapReady) (hidle : chSt s n = chIdle) :
    exec (.driverFault n false passes) s = .next (connectSpare s n passes) := by
  show execDriverFault n false passes s = _
  unfold execDriverFault
  refine (if_neg ?_).trans (if_pos (.inr hidle))
  rw [hready, hidle]
  decide

theorem driverFault_retried (s : State) (n : Fin 16) (ok : Bool) : exec (.driverFault n true ok) s = .next s := by
  show execDriverFault n true ok s = _
  unfold execDriverFault
  exact if_pos (.inr (.inl rfl))

theorem driverFault_spare {s : State} {n : Fin 16} (hready : getN s K.hapState = hapReady) (hidle : chSt s n = chIdle)
    (hspare : unitState s clsDriver 16 = unitSpare) :
    ∃ t, exec (.driverFault n false true) s = .next t ∧ getN t (K.chDriver n) = 16 ∧ getN t K.hapSpare = n ∧
      getN t (K.chGen n) = (getN s (K.chGen n) + 1) % 65536 ∧ unitState t clsDriver 16 = unitInService ∧ chSt t n = chIdle := by
  have hexec := driverFault_run true hready hidle
  rw [connectSpare_passes hspare] at hexec
  have hconn := connected_spec (spareTaken s n) n.isLt
  have hgen : getN (spareTaken s n) (K.chGen n) = getN s (K.chGen n) := rfl
  have hstate : chSt (spareTaken s n) n = chSt s n := rfl
  generalize spareTaken s n = u at *
  generalize connected u n = v at *
  have hkept {k : Nat} (hk : ¬ noteKey k) := FrameEvents.getN_emit v 5 0x0503 n (leBytes 1 n ++ leBytes 1 16) (hapFuncs v n) hk
  have hch {sub : Nat} (hsub : sub < 256) := hkept (chKey_note (sub := sub) n.isLt hsub)
  refine ⟨_, hexec, (hch (by decide)).trans hconn.driver, (hkept (hapKey_note (by decide))).trans hconn.spare,
    (hch (by decide)).trans (hconn.gen.trans (by rw [hgen])), ?_, (hch (by decide)).trans (hconn.state.trans (hstate.trans hidle))⟩
  rw [unitState, (sameMaps_emit v _ _ _ _ _).1]
  exact hconn.unit

theorem driverFault_lost {s : State} {n : Fin 16} (ok : Bool) (hready : getN s K.hapState = hapReady) (hidle : chSt s n = chIdle)
    (hnone : unitState s clsDriver 16 ≠ unitSpare) :
    ∃ t, exec (.driverFault n false ok) s = .next t ∧ chSt t n = chFailed ∧ (chanOf t n).run = none ∧ (chanOf t n).queue = [] :=
  ⟨_, (driverFault_run ok hready hidle).trans (by rw [connectSpare_none hnone]), channelFailed_spec _ n.isLt⟩

/-! ## All channels, one after the other -/

/-- In a fold over the channels a part of the state that only one channel's step touches is what that step makes of it. -/
theorem foldN_at {α : Type} {f : State → Nat → State} {N n : Nat} (view : State → α) (Q : α → Prop) (hn : n < N)
    (hidle : ∀ x m, m < N → m ≠ n → view (f x m) = view x) {s : State} (hstep : ∀ x, view x = view s → Q (view (f x n))) :
    Q (view (foldN (List.range N) f s)) := by
  have hfold : ∀ (l : List Nat) (x : State), l.Nodup → (∀ m ∈ l, m < N) → (n ∉ l → view (foldN l f x) = view x) ∧
      (n ∈ l → view x = view s → Q (view (foldN l f x))) := by
    intro l
    induction l with
    | nil => exact fun x _ _ => ⟨fun _ => rfl, fun h => (List.not_mem_nil h).elim⟩
    | cons m l ih =>
      intro x hnodup hlt
      obtain ⟨hm, hl⟩ := List.nodup_cons.1 hnodup
      obtain ⟨hout, hin⟩ := ih (f x m) hl fun j hj => hlt j (.tail _ hj)
      have hcons : foldN (m :: l) f x = foldN l f (f x m) := List.foldl_cons ..
      rw [hcons]
      have hmN := hlt m List.mem_cons_self
      refine ⟨fun h => ?_, fun h hx => ?_⟩
      · obtain ⟨hne, hnl⟩ := not_or.1 (fun h' => h (List.mem_cons.2 h'))
        exact (hout hnl).trans (hidle x m hmN (Ne.symm hne))
      · by_cases hne : n = m
        · subst hne
          rw [hout hm]
          exact hstep x hx
        · exact hin ((List.mem_cons.1 h).resolve_left hne) ((hidle x m hmN (Ne.symm hne)).trans hx)
  exact (hfold _ s List.nodup_range fun m hm => List.mem_range.1 hm).2 (List.mem_range.2 hn) rfl

/-- What no step of a fold touches stays. -/
theorem foldN_kept {α : Type} {f : State → Nat → State} {N : Nat} (view : State → α) (hidle : ∀ x m, m < N → view (f x m) = view x) (s : State) :
    view (foldN (List.range N) f s) = view s := by
  have hfold : ∀ (l : List Nat) (x : State), (∀ m ∈ l, m < N) → view (foldN l f x) = view x := by
    intro l
    induction l with
    | nil => exact fun x _ => rfl
    | cons m l ih =>
      intro x hlt
      have hcons : foldN (m :: l) f x = foldN l f (f x m) := List.foldl_cons ..
      rw [hcons, ih _ fun j hj => hlt j (.tail _ hj), hidle x m (hlt m List.mem_cons_self)]
  exact hfold _ s fun m hm => List.mem_range.1 hm

/-! ## The interlock loop -/

/-- A channel's part of the fall to 0 V. -/
def dropStep (s : State) (n : Nat) : State :=
  modChan (putN (endQueue (endRunning s n effDisabled) n effDisabled) (K.chState n) chOff) n
    (fun c => { c with probeAt := none, spareDue := none })

theorem dropHaptics_eq (s : State) : dropHaptics s = foldN (List.range 16) dropStep s := rfl

theorem dropStep_step (s : State) (n : Nat) :
    ChanStep n (chKeys n [7, 13, 14]) { queued s.now [] (closed s.now (chanOf s n)) with probeAt := none, spareDue := none } s (dropStep s n) ∧
    chSt (dropStep s n) n = chOff := by
  have hall := (endAll_step n s effDisabled).mono (ks' := chKeys n [7, 13, 14]) fun k hk => List.mem_singleton.1 hk ▸ by
    rw [endedKey_eq]
    exact chKey_mem (by split <;> decide)
  exact ⟨(hall.putN (chKey_mem (sub := 7) (by decide))).modChan (g := fun c => { c with probeAt := none, spareDue := none }), getN_putN ..⟩

/-- A step of another channel leaves a channel's record and objects. -/
theorem ChanStep.getN_other {n m sub : Nat} {subs : List Nat} {c : Chan} {s t : State} (h : ChanStep m (chKeys m subs) c s t) (hn : n < 16)
    (hsub : sub < 256) (hsubs : ∀ b ∈ subs, b < 256) (hne : m ≠ n) : getN t (objKey (0x4810 + n) sub) = getN s (objKey (0x4810 + n) sub) :=
  h.getN (fun hk => by
    obtain ⟨b, hb, heq⟩ := List.mem_map.1 hk
    exact chKey_apart hne (hsubs b hb) hsub heq) (chKey_note hn hsub)

/-- A channel's state and its record. -/
def chView (n : Nat) (s : State) : Nat × Chan := (chSt s n, chanOf s n)

/-- A channel that is OFF, with nothing on it. -/
def Dropped (v : Nat × Chan) : Prop := v.1 = chOff ∧ v.2.run = none ∧ v.2.queue = []

theorem dropped_iff {n : Nat} {s : State} :
    Dropped (chView n s) ↔ chSt s n = chOff ∧ (chanOf s n).run = none ∧ (chanOf s n).queue = [] := Iff.rfl

theorem dropHaptics_spec (s : State) :
    (∀ n, n < 16 → chSt (dropHaptics s) n = chOff ∧ (chanOf (dropHaptics s) n).run = none ∧ (chanOf (dropHaptics s) n).queue = []) ∧
    getN (dropHaptics s) K.hapState = getN s K.hapState ∧ getN (dropHaptics s) K.hapIlk = getN s K.hapIlk := by
  rw [dropHaptics_eq]
  have hkept {sub : Nat} (hsub : sub < 256) : getN (foldN (List.range 16) dropStep s) (objKey 0x4800 sub) = getN s (objKey 0x4800 sub) :=
    foldN_kept (fun x => getN x (objKey 0x4800 sub)) (fun x m _ => (dropStep_step x m).1.getN (hapKey_not_chKeys hsub) (hapKey_note hsub)) s
  refine ⟨fun n hn => ?_, hkept (by decide), hkept (by decide)⟩
  have hdropped : Dropped (chView n (foldN (List.range 16) dropStep s)) := by
    refine foldN_at (chView n) Dropped hn (fun x m hm hne => ?_) fun x _ => ?_
    · obtain ⟨hstep, -⟩ := dropStep_step x m
      have hstate : chSt (dropStep x m) n = chSt x n := ChanStep.getN_other (subs := [7, 13, 14]) hstep hn (by decide) (by decide) hne
      exact congrArg₂ Prod.mk hstate (hstep.others n (Ne.symm hne))
    · obtain ⟨hstep, hoff⟩ := dropStep_step x n
      have hchan : (chanOf (dropStep x n) n).run = none ∧ (chanOf (dropStep x n) n).queue = [] := by
        rw [hstep.chan]
        exact ⟨rfl, rfl⟩
      exact dropped_iff.2 ⟨hoff, hchan⟩
  exact dropped_iff.1 hdropped

theorem interlockOpen_run {s : State} (hclosed : getB s K.hapIlk = true) (hready : getN s K.hapState = hapReady) :
    exec .interlockOpen s = .next (updateHealth (putN (dropHaptics (putB s K.hapIlk false)) K.hapState hapStarting)) := by
  have hstate : getN (putB s K.hapIlk false) K.hapState = hapReady := (getN_putN_ne s _ (by decide)).trans hready
  have hkept := (dropHaptics_spec (putB s K.hapIlk false)).2.1.trans hstate
  show execInterlockOpen s = _
  unfold execInterlockOpen
  rw [hclosed]
  generalize putB s K.hapIlk false = u at *
  refine (if_neg (by decide)).trans ((if_neg (by rw [hstate]; decide)).trans ?_)
  dsimp only
  rw [if_neg (by rw [hkept]; decide)]

theorem interlockOpen_spec {s : State} (hclosed : getB s K.hapIlk = true) (hready : getN s K.hapState = hapReady) :
    ∃ t, exec .interlockOpen s = .next t ∧ getB t K.hapIlk = false ∧ getN t K.hapState = hapStarting ∧
      (∀ n, n < 16 → chSt t n = chOff ∧ (chanOf t n).run = none ∧ (chanOf t n).queue = []) := by
  have hexec := interlockOpen_run hclosed hready
  have hilk : getN (putB s K.hapIlk false) K.hapIlk = 0 := getN_putN ..
  obtain ⟨hchans, -, hkept⟩ := dropHaptics_spec (putB s K.hapIlk false)
  generalize dropHaptics (putB s K.hapIlk false) = u at *
  have hstate : getN (putN u K.hapState hapStarting) K.hapState = hapStarting := getN_putN ..
  have hilk' : getN (putN u K.hapState hapStarting) K.hapIlk = 0 := (getN_putN_ne u _ (by decide)).trans (hkept.trans hilk)
  have hch (n : Nat) : chSt (putN u K.hapState hapStarting) n = chSt u n ∧ chanOf (putN u K.hapState hapStarting) n = chanOf u n :=
    ⟨getN_putN_ne u _ (by simp only [K.chState, K.hapState, objKey]; omega), rfl⟩
  generalize putN u K.hapState hapStarting = v at *
  have hhap {sub : Nat} (hsub : sub < 256) : getN (updateHealth v) (objKey 0x4800 sub) = getN v (objKey 0x4800 sub) :=
    getN_kept (updateHealth_objs v) (hapKey_not_health hsub) (hapKey_note hsub)
  have hchan (n : Nat) : chanOf (updateHealth v) n = chanOf v n :=
    ((ChanStep.refl n healthKeys v).updateHealth fun _ hk => hk).chan
  refine ⟨_, hexec, ?_, (hhap (by decide)).trans hstate, fun n hn => ?_⟩
  · have hopen : getN (updateHealth v) K.hapIlk = 0 := (hhap (by decide)).trans hilk'
    rw [getB, hopen]
    rfl
  · obtain ⟨hoff, hrun, hqueue⟩ := hchans n hn
    rw [hchan, (hch n).2]
    exact ⟨((getN_kept (updateHealth_objs v) (chKey_not_health hn (by decide)) (chKey_note hn (by decide))).trans (hch n).1).trans hoff,
      hrun, hqueue⟩

theorem interlockClosed_spec (s : State) : ∃ t, exec .interlockClosed s = .next t ∧ getB t K.hapIlk = true ∧ t.hap = s.hap ∧
    onlyObjsAndNotes (K.hapIlk :: healthKeys) s t := by
  have hilk : getN (putB s K.hapIlk true) K.hapIlk = 1 := getN_putN ..
  have hhap : (putB s K.hapIlk true).hap = s.hap := rfl
  have hobjs : onlyObjsAndNotes (K.hapIlk :: healthKeys) s (putB s K.hapIlk true) :=
    onlyAndNotes_of_only (onlyObjs_putN _ (.head _) (onlyObjs_refl _ s))
  have hexec : exec .interlockClosed s = .next (updateHealth (putB s K.hapIlk true)) := rfl
  generalize putB s K.hapIlk true = u at *
  have hch : Changes [.fresh, .objs, .voteSecond, .funcs, .sess, .frames, .grog, .notes] u (updateHealth u) :=
    updateHealth_ch (List.Subset.refl _) (Changes.refl _ u)
  refine ⟨_, hexec, ?_, (hch.hap (by decide)).trans hhap, onlyAndNotes_trans hobjs fun k hk => updateHealth_objs u k fun h => hk (.tail _ h)⟩
  have hon : getN (updateHealth u) K.hapIlk = 1 :=
    (getN_kept (updateHealth_objs u) (hapKey_not_health (by decide)) (hapKey_note (by decide))).trans hilk
  rw [getB, hon]
  rfl

/-! ## The start of the ZH-17 -/

/-- The start of a channel is counted. -/
def genStep (s : State) (n : Nat) : State := putN s (K.chGen n) ((getN s (K.chGen n) + 1) % 65536)

/-- The start of the module and of each channel is counted. -/
def startsCounted (s : State) : State :=
  foldN (List.range 16) genStep (putN s K.hapGen ((getN s K.hapGen + 1) % 65536))

/-- The channels read OFF. -/
def channelsOff (s : State) : State := foldN (List.range 16) (fun s n => putN s (K.chState n) chOff) s

/-- The enabled channels read IDLE. -/
def channelsIdle (s : State) : State :=
  foldN (List.range 16) (fun s n => if getB s (K.chEnable n) && chSt s n != chFailed then putN s (K.chState n) chIdle else s) s

/-- A test of a driver that finds it good. -/
def testDriver (s : State) (n : Nat) : State :=
  if unitState s clsDriver (getN s (K.chDriver n)) ≠ unitInService then putN s (K.chState n) chFailed
  else if ([] : List Nat).contains (getN s (K.chDriver n)) then connectSpare (putN s (K.chState n) chOff) n true
  else putN s (K.chState n) chOff

theorem foldl_testDriver (l : List Nat) (s : State) (hall : ∀ n ∈ l, unitState s clsDriver (getN s (K.chDriver n)) = unitInService) :
    foldN l testDriver s = foldN l (fun s n => putN s (K.chState n) chOff) s := by
  induction l generalizing s with
  | nil => rfl
  | cons n l ih =>
    have hstep : testDriver s n = putN s (K.chState n) chOff := by
      unfold testDriver
      rw [if_neg (not_not.2 (hall n (.head _)))]
      rfl
    have hcons : foldN (n :: l) testDriver s = foldN l testDriver (testDriver s n) := List.foldl_cons ..
    rw [hcons, hstep, ih]
    · rfl
    · intro m hm
      have hdriver : getN (putN s (K.chState n) chOff) (K.chDriver m) = getN s (K.chDriver m) :=
        getN_putN_ne s _ (by simp only [K.chDriver, K.chState, objKey]; omega)
      rw [hdriver]
      exact hall m (.tail _ hm)

/-- The ZH-17 takes up its work once its drivers are tested. -/
def hapStarted (s : State) : State :=
  putN (channelsIdle (putN (draw s) K.hapRail ((Config.measured s.fresh).toNat % 65536))) K.hapState hapReady

/-- What a channel's own fold makes of an object of each channel. -/
theorem foldN_chKey {f : State → Nat → State} {n sub : Nat} {subs : List Nat} {Q : Nat → Prop} (hn : n < 16) (hsub : sub < 256)
    (hsubs : ∀ b ∈ subs, b < 256) (hf : ∀ x m, onlyObjs (chKeys m subs) x (f x m)) {s : State}
    (hstep : ∀ x, getN x (objKey (0x4810 + n) sub) = getN s (objKey (0x4810 + n) sub) → Q (getN (f x n) (objKey (0x4810 + n) sub))) :
    Q (getN (foldN (List.range 16) f s) (objKey (0x4810 + n) sub)) := by
  refine foldN_at (fun x => getN x (objKey (0x4810 + n) sub)) Q hn (fun x m _ hne => ?_) hstep
  refine getN_kept (onlyAndNotes_of_only (hf x m)) (fun hk => ?_) (chKey_note hn hsub)
  obtain ⟨b, hb, heq⟩ := List.mem_map.1 hk
  exact chKey_apart hne (hsubs b hb) hsub heq

theorem foldN_keptKey {f : State → Nat → State} {subs : List Nat} {k : Nat} (hk : ∀ m, k ∉ chKeys m subs)
    (hf : ∀ x m, onlyObjs (chKeys m subs) x (f x m)) (s : State) : getN (foldN (List.range 16) f s) k = getN s k :=
  foldN_kept (fun x => getN x k) (fun x m _ => by
    show getN (f x m) k = getN x k
    rw [getN, getN, (hf x m k (hk m)).1]) s

theorem chKey_not_mem_any {n m sub : Nat} {subs : List Nat} (hsub : sub < 256) (hsubs : ∀ b ∈ subs, b < 256) (h : sub ∉ subs) :
    objKey (0x4810 + n) sub ∉ chKeys m subs := fun hk => by
  obtain ⟨b, hb, heq⟩ := List.mem_map.1 hk
  have hlt := hsubs b hb
  have hbsub : b = sub := by
    simp only [objKey] at heq
    omega
  exact h (hbsub ▸ hb)

theorem putN_chKey (s : State) (n sub v : Nat) : onlyObjs (chKeys n [sub]) s (putN s (objKey (0x4810 + n) sub) v) :=
  onlyObjs_putN v (.head _) (onlyObjs_refl _ s)

/-! ### Its steps -/

theorem genStep_objs (s : State) (n : Nat) : onlyObjs (chKeys n [18]) s (genStep s n) := putN_chKey s n 18 _

theorem startsCounted_grog (s : State) : (startsCounted s).grog = s.grog := by
  have hput : (putN s K.hapGen ((getN s K.hapGen + 1) % 65536)).grog = s.grog := rfl
  unfold startsCounted
  generalize putN s K.hapGen ((getN s K.hapGen + 1) % 65536) = u at *
  exact (foldN_kept (f := genStep) (N := 16) State.grog (fun _ _ _ => rfl) u).trans hput

theorem startsCounted_hapKey (s : State) {sub : Nat} (hsub : sub < 256) :
    getN (startsCounted s) (objKey 0x4800 sub) = getN (putN s K.hapGen ((getN s K.hapGen + 1) % 65536)) (objKey 0x4800 sub) := by
  unfold startsCounted
  generalize putN s K.hapGen ((getN s K.hapGen + 1) % 65536) = u
  exact foldN_keptKey (subs := [18]) (k := objKey 0x4800 sub) (fun _ => hapKey_not_chKeys hsub) genStep_objs u

theorem startsCounted_chKey (s : State) {n sub : Nat} (hsub : sub < 256) (hne : sub ∉ [18]) :
    getN (startsCounted s) (objKey (0x4810 + n) sub) = getN s (objKey (0x4810 + n) sub) := by
  have hgen : getN (putN s K.hapGen ((getN s K.hapGen + 1) % 65536)) (objKey (0x4810 + n) sub) = getN s (objKey (0x4810 + n) sub) :=
    getN_putN_ne s _ (by simp only [K.hapGen, objKey]; omega)
  unfold startsCounted
  exact (foldN_keptKey (subs := [18]) (fun _ => chKey_not_mem_any hsub (by decide) hne) genStep_objs _).trans hgen

theorem startsCounted_gen (s : State) {n : Nat} (hn : n < 16) : getN (startsCounted s) (K.chGen n) = (getN s (K.chGen n) + 1) % 65536 := by
  have hgen : getN (putN s K.hapGen ((getN s K.hapGen + 1) % 65536)) (K.chGen n) = getN s (K.chGen n) :=
    getN_putN_ne s _ (by simp only [K.hapGen, K.chGen, objKey]; omega)
  unfold startsCounted
  generalize putN s K.hapGen ((getN s K.hapGen + 1) % 65536) = u at *
  refine foldN_chKey (sub := 18) (subs := [18]) (Q := fun v => v = (getN s (K.chGen n) + 1) % 65536) hn (by decide) (by decide)
    genStep_objs fun x hx => ?_
  have hx : getN x (K.chGen n) = getN u (K.chGen n) := hx
  show getN (putN x (K.chGen n) ((getN x (K.chGen n) + 1) % 65536)) (K.chGen n) = _
  rw [getN_putN, hx, hgen]

theorem channelsOff_state (s : State) {n : Nat} (hn : n < 16) : chSt (channelsOff s) n = chOff :=
  foldN_chKey (sub := 7) (subs := [7]) (Q := fun v => v = chOff) hn (by decide) (by decide) (fun x m => putN_chKey x m 7 _)
    fun x _ => getN_putN x (K.chState n) chOff

theorem channelsOff_kept (s : State) {k : Nat} (hk : ∀ m, k ∉ chKeys m [7]) : getN (channelsOff s) k = getN s k :=
  foldN_keptKey (subs := [7]) hk (fun x m => putN_chKey x m 7 _) s

/-- A channel's part of the taking up of work. -/
def idleStep (s : State) (n : Nat) : State :=
  if getB s (K.chEnable n) && chSt s n != chFailed then putN s (K.chState n) chIdle else s

theorem idleStep_objs (s : State) (n : Nat) : onlyObjs (chKeys n [7]) s (idleStep s n) := by
  unfold idleStep
  split
  · exact putN_chKey s n 7 _
  · exact onlyObjs_refl _ s

theorem channelsIdle_kept (s : State) {k : Nat} (hk : ∀ m, k ∉ chKeys m [7]) : getN (channelsIdle s) k = getN s k :=
  foldN_keptKey (subs := [7]) hk idleStep_objs s

/-- A channel's state and its enable. -/
def enableView (n : Nat) (s : State) : Nat × Bool := (chSt s n, getB s (K.chEnable n))

/-- An enabled channel is IDLE, any other OFF. -/
def idleOr (enabled : Bool) (v : Nat × Bool) : Prop := v.1 = if enabled then chIdle else chOff

theorem idleOr_iff {n : Nat} {s : State} {enabled : Bool} :
    idleOr enabled (enableView n s) ↔ chSt s n = if enabled then chIdle else chOff := Iff.rfl

theorem channelsIdle_eq (s : State) : channelsIdle s = foldN (List.range 16) idleStep s := rfl

theorem channelsIdle_state {s : State} {n : Nat} (hn : n < 16) (hoff : chSt s n = chOff) :
    chSt (channelsIdle s) n = if getB s (K.chEnable n) then chIdle else chOff := by
  have hstate : idleOr (getB s (K.chEnable n)) (enableView n (foldN (List.range 16) idleStep s)) := by
    refine foldN_at (enableView n) (idleOr (getB s (K.chEnable n))) hn (fun x m _ hne => ?_) fun x hx => ?_
    · have hkept {sub : Nat} (hsub : sub < 256) : getN (idleStep x m) (objKey (0x4810 + n) sub) = getN x (objKey (0x4810 + n) sub) :=
        getN_kept (onlyAndNotes_of_only (idleStep_objs x m)) (fun hk => by
          obtain ⟨b, hb, heq⟩ := List.mem_map.1 hk
          exact chKey_apart hne (by simp only [List.mem_singleton] at hb; omega) hsub heq) (chKey_note hn hsub)
      have henable : getB (idleStep x m) (K.chEnable n) = getB x (K.chEnable n) := congrArg (· != 0) (hkept (sub := 1) (by decide))
      exact congrArg₂ Prod.mk (hkept (sub := 7) (by decide)) henable
    · obtain ⟨hxstate, hxenable⟩ := Prod.mk.inj hx
      unfold idleOr enableView idleStep
      rw [hxenable, hxstate, hoff]
      by_cases hen : getB s (K.chEnable n) = true
      · rw [hen]
        exact getN_putN x (K.chState n) chIdle
      · rw [Bool.eq_false_iff.2 hen]
        exact hxstate.trans hoff
  rw [channelsIdle_eq]
  exact idleOr_iff.1 hstate

theorem hapReady_run {s : State} (hstate : getN s K.hapState = hapStarting) (hdom : domSt s 21 = domOn) (hilk : getB s K.hapIlk = true)
    (hall : ∀ n, n < 16 → unitState s clsDriver (getN s (K.chDriver n)) = unitInService) :
    exec (.hapReady []) s = .next (updateHealth (hapStarted (channelsOff (startsCounted s)))) := by
  have hgo : ¬ (getN s K.hapState ≠ hapStarting ∨ domSt s 21 ≠ domOn ∨ (!getB s K.hapIlk) = true) := by
    rw [hstate, hdom, hilk]
    decide
  have htested : foldN (List.range 16) testDriver (startsCounted s) = channelsOff (startsCounted s) := by
    refine foldl_testDriver _ _ fun n hn => ?_
    have hdriver : getN (startsCounted s) (K.chDriver n) = getN s (K.chDriver n) := startsCounted_chKey s (sub := 8) (by decide) (by decide)
    rw [hdriver, unitState, startsCounted_grog]
    exact hall n (List.mem_range.1 hn)
  show execHapReady [] s = _
  unfold execHapReady
  rw [if_neg hgo, ← htested]
  rfl

theorem hapStarted_spec (s : State) : getN (hapStarted s) K.hapState = hapReady ∧ getN (hapStarted s) K.hapGen = getN s K.hapGen ∧
    ∀ n, n < 16 → chSt s n = chOff → chSt (hapStarted s) n = (if getB s (K.chEnable n) then chIdle else chOff) ∧
      getN (hapStarted s) (K.chGen n) = getN s (K.chGen n) := by
  have hrail {k : Nat} (hk : k ≠ K.hapRail) :
      getN (putN (draw s) K.hapRail ((Config.measured s.fresh).toNat % 65536)) k = getN s k := getN_putN_ne (draw s) _ hk
  have hapart {n sub : Nat} : objKey (0x4810 + n) sub ≠ K.hapRail := by
    simp only [K.hapRail, objKey]
    omega
  have hstate {n sub : Nat} : objKey (0x4810 + n) sub ≠ K.hapState := by
    simp only [K.hapState, objKey]
    omega
  unfold hapStarted
  generalize putN (draw s) K.hapRail ((Config.measured s.fresh).toNat % 65536) = u at *
  refine ⟨getN_putN .., (getN_putN_ne _ _ (by decide)).trans
    ((channelsIdle_kept u fun _ => hapKey_not_chKeys (by decide)).trans (hrail (by decide))), fun n hn hoff => ⟨?_, ?_⟩⟩
  · have henable : getB u (K.chEnable n) = getB s (K.chEnable n) := congrArg (· != 0) (hrail hapart)
    exact (getN_putN_ne _ _ hstate).trans ((channelsIdle_state hn ((hrail hapart).trans hoff)).trans (by rw [henable]))
  · exact (getN_putN_ne _ _ hstate).trans
      ((channelsIdle_kept u fun _ => chKey_not_mem_any (sub := 18) (by decide) (by decide) (by decide)).trans (hrail hapart))

theorem hapReady_spec {s : State} (hstate : getN s K.hapState = hapStarting) (hdom : domSt s 21 = domOn) (hilk : getB s K.hapIlk = true)
    (hall : ∀ n, n < 16 → unitState s clsDriver (getN s (K.chDriver n)) = unitInService) :
    ∃ t, exec (.hapReady []) s = .next t ∧ getN t K.hapState = hapReady ∧ getN t K.hapGen = (getN s K.hapGen + 1) % 65536 ∧
      (∀ n, n < 16 → chSt t n = (if getB s (K.chEnable n) then chIdle else chOff) ∧
        getN t (K.chGen n) = (getN s (K.chGen n) + 1) % 65536) := by
  have hexec := hapReady_run hstate hdom hilk hall
  have hcounted : getN (startsCounted s) K.hapGen = (getN s K.hapGen + 1) % 65536 :=
    (startsCounted_hapKey s (sub := 6) (by decide)).trans (getN_putN ..)
  have hgens (n : Nat) (hn : n < 16) := startsCounted_gen s hn
  have henables (n : Nat) : getN (startsCounted s) (K.chEnable n) = getN s (K.chEnable n) := startsCounted_chKey s (by decide) (by decide)
  generalize startsCounted s = u at *
  have hoff (n : Nat) (hn : n < 16) := channelsOff_state u hn
  have hkept {n sub : Nat} (hsub : sub < 256) (hne : sub ∉ [7]) : getN (channelsOff u) (objKey (0x4810 + n) sub) = getN u (objKey (0x4810 + n) sub) :=
    channelsOff_kept u fun _ => chKey_not_mem_any hsub (by decide) hne
  have hhap : getN (channelsOff u) K.hapGen = getN u K.hapGen := channelsOff_kept u fun _ => hapKey_not_chKeys (by decide)
  generalize channelsOff u = v at *
  obtain ⟨hready, hgen, hchans⟩ := hapStarted_spec v
  generalize hapStarted v = w at *
  have hhealth {k : Nat} (hk : k ∉ healthKeys) (hn : ¬ noteKey k) := getN_kept (updateHealth_objs w) hk hn
  refine ⟨_, hexec, (hhealth (hapKey_not_health (by decide)) (hapKey_note (by decide))).trans hready,
    (hhealth (hapKey_not_health (by decide)) (hapKey_note (by decide))).trans (hgen.trans (hhap.trans hcounted)), fun n hn => ?_⟩
  obtain ⟨hstate, hchan⟩ := hchans n hn (hoff n hn)
  have henable : getB v (K.chEnable n) = getB s (K.chEnable n) :=
    congrArg (· != 0) ((hkept (sub := 1) (by decide) (by decide)).trans (henables n))
  refine ⟨(hhealth (chKey_not_health hn (by decide)) (chKey_note hn (by decide))).trans (hstate.trans (by rw [henable])), ?_⟩
  exact (hhealth (chKey_not_health hn (by decide)) (chKey_note hn (by decide))).trans
    (hchan.trans ((hkept (by decide) (by decide)).trans (hgens n hn)))

end Sys2Proof.Proofs.HapticDrivers

/-!
PROOFS. O52, its fourth part: hap.enable (R384, R385).
-/

namespace Sys2Proof.Proofs.HapticEnable

open Sys2Proof.Machine
open Sys2Proof.Proofs.ModeFrame
open Sys2Proof.Proofs.DeviceFrame
open Sys2Proof.Proofs.DeviceSettling
open Sys2Proof.Proofs.HapticChannels
open Sys2Proof.Proofs.HapticDrivers (foldN_at foldN_kept ChanStep.getN_other)
open Sys2Proof.Proofs.HapticTrips (hapKey_not_chKeys)
open Sys2Proof.Proofs.VirtualFunctions (isMgr_session)
open Sys2Proof.Proofs.ClocksAndSpares (areaWrite_unclaimed)

/-! ## The objects of the haptics -/

def hapticKeys : List Nat := [K.hapEnable, K.hapState] ++ (List.range 16).map K.chState

theorem mem_hapticKeys {k : Nat} (h : k ∈ hapticKeys) : 0x4800 * 256 ≤ k ∧ k < 0x4820 * 256 := by
  simp only [hapticKeys, List.mem_append, List.mem_cons, List.not_mem_nil, or_false, List.mem_map, List.mem_range] at h
  obtain (rfl | rfl) | ⟨n, hn, rfl⟩ := h
  · decide
  · decide
  · simp only [K.chState, objKey]
    omega

def settledKeys : List Nat := calmKeys [21] ++ hapticKeys

theorem mem_settled_calm {k : Nat} (h : k ∈ calmKeys [21]) : k ∈ settledKeys := List.mem_append_left _ h

theorem mem_settled_haptic {k : Nat} (h : k ∈ hapticKeys) : k ∈ settledKeys := List.mem_append_right _ h

theorem settled_range {k : Nat} (h : k ∈ settledKeys) :
    (0x4800 * 256 ≤ k ∧ k < 0x4820 * 256) ∨ k / 256 = 0x7011 ∨ (0x9200 ≤ k / 256 ∧ k / 256 < 0x9208) :=
  (List.mem_append.1 h).elim (fun hcalm => .inr (calmKeys_apart (by simp) hcalm).1) fun hhap => .inl (mem_hapticKeys hhap)

theorem haptic_device {ds : List Nat} {r : State} (hds : ∀ d ∈ ds, d = 21)
    (hwants : ds ≠ [] → ∀ x, DevFrame settledKeys ds r x → wanted x 21 = true) : Device settledKeys ds r where
  apart := fun k hk => by
    have hrange := settled_range hk
    refine ⟨by omega, by omega, by omega, ?_⟩
    obtain hcalm | hhap := List.mem_append.1 hk
    · exact (calmKeys_apart (by simp) hcalm).2
    · have hidx := mem_hapticKeys hhap
      simp only [noteKey, K.dictNotifyDrop, K.regVoteFix, K.regVoteBad, K.kaolinCanDrop, K.logOut, objKey]
      omega
  chips := fun d hd => by
    rw [hds d hd]
    decide
  wants := fun x hx d hd => by
    rw [hds d hd]
    exact hwants (List.ne_nil_of_mem hd) x hx

/-- The haptics' domain stays wanted while the module is calm and they are enabled. -/
theorem haptic_wanted {ds : List Nat} {r : State} (hcalm : Calm [21] r) (hon : getB r K.hapEnable = true) (x : State)
    (h : DevFrame settledKeys ds r x) : wanted x 21 = true := by
  have hx : Calm [21] x := hcalm.devFrame (by simp) (fun k hk => mem_settled_calm hk) h
  refine hx.wanted (.head _) (by decide) ?_
  have hrow : rowCondition x 21 = getB x K.hapEnable := rfl
  rw [hrow, getB, h.objs.getN (mem_settled_haptic (by decide)), ← getB, hon]

/-- The settling leaves haptics alone that neither wait to start nor must stop. -/
theorem haptic_settles {ds : List Nat} {v : State} (hD : Device settledKeys ds v) (hcalm : Calm [21] v)
    (hresume : getB v K.hapEnable = false ∨ getN v K.hapState ≠ hapOff)
    (hshed : (21 ∈ ds ∧ domSt v 21 ≠ domStopping) ∨ (getN v K.hapState ≠ hapReady ∧ getN v K.hapState ≠ hapStarting)) :
    Settles (fun x => DevFrame settledKeys ds v x ∧ x.hap = v.hap) := by
  have hkey {x : State} (hx : DevFrame settledKeys ds v x) {k : Nat} (hk : k ∈ hapticKeys) : getN x k = getN v k :=
    hx.objs.getN (mem_settled_haptic hk)
  have hsnd : ∀ k ∈ settledKeys, k < 0x4C00 * 256 ∨ 0x4C70 * 256 ≤ k := fun k hk => by
    have hrange := settled_range hk
    omega
  have hpan {q : Nat} (hq : q < 4) : ∀ k ∈ settledKeys, k / 256 ≠ 0x4400 ∧ k / 256 ≠ 0x4420 + q ∧ k / 256 ≠ 0x4430 + q := fun k hk => by
    have hrange := settled_range hk
    omega
  have hpart {P : List Part} {x y : State} (hx : x.hap = v.hap) (hch : Changes P x y) (hP : Part.hap ∉ P) : y.hap = v.hap :=
    (hch.hap hP).trans hx
  refine ⟨fun x ⟨hx, hs⟩ => ⟨.settle hD hx, hpart hs (settle_ch (List.Subset.refl _) (Changes.refl _ x)) (by decide)⟩,
    fun x p hp ⟨hx, hs⟩ => ⟨⟨devFrame_restartOutput hD hp hx, hpart hs (restartOutput_changes x p) (by decide)⟩,
      ⟨devFrame_shedOutput hD hp hx, hpart hs (shedOutput_changes x p) (by decide)⟩⟩,
    fun x ⟨hx, hs⟩ => ⟨?_, ?_⟩, fun x p hp ⟨hx, hs⟩ => ⟨?_, ?_⟩, fun x ⟨hx, hs⟩ => ⟨?_, ?_⟩, fun x i hi ⟨hx, hs⟩ =>
      (hcalm.devFrame (by simp) (fun k hk => mem_settled_calm hk) hx).spreads i hi⟩
  · have hstays : (enabled x K.hapEnable && getN x K.hapState == hapOff) = false := by
      rw [enabled, getB, hkey hx (by decide), hkey hx (by decide), ← getB]
      obtain hoff | hstate := hresume
      · rw [hoff]; rfl
      · rw [beq_eq_false_iff_ne.2 hstate, Bool.and_false]
    rw [resumeHaptics, hstays]
    exact ⟨hx, hs⟩
  · have hstays : (stops x [21] && (getN x K.hapState == hapReady || getN x K.hapState == hapStarting)) = false := by
      rw [hkey hx (by decide)]
      obtain ⟨hin, hdom⟩ | ⟨hrun, hstarting⟩ := hshed
      · have hsame : domSt x 21 = domSt v 21 := hx.doms 21 hin
        rw [stops, List.any_cons, hsame, beq_eq_false_iff_ne.2 hdom]
        rfl
      · rw [beq_eq_false_iff_ne.2 hrun, beq_eq_false_iff_ne.2 hstarting, Bool.or_false, Bool.and_false]
    rw [shedHaptics, hstays]
    exact ⟨hx, hs⟩
  · unfold resumePanel
    split
    · exact ⟨devFrame_startPanel hD hp (hpan hp) hx, hpart hs (startPanel_ch (List.Subset.refl _) (Changes.refl _ x)) (by decide)⟩
    · exact ⟨hx, hs⟩
  · unfold shedPanel
    split
    · exact ⟨devFrame_shutPanel hD hp (hpan hp) hx, hpart hs (shutPanel_ch (List.Subset.refl _) (Changes.refl _ x)) (by decide)⟩
    · exact ⟨hx, hs⟩
  · unfold resumeSound
    split
    · exact ⟨devFrame_startSound hD hsnd hx, hpart hs (startSound_ch (List.Subset.refl _) (Changes.refl _ x)) (by decide)⟩
    · exact ⟨hx, hs⟩
  · unfold shedSound
    split
    · exact ⟨devFrame_shutSound hD hsnd hx, hpart hs (shutSound_ch (List.Subset.refl _) (Changes.refl _ x)) (by decide)⟩
    · exact ⟨hx, hs⟩

/-- The end of a power command leaves the haptics as they are, where they neither wait to start nor must stop. -/
theorem haptic_powerDone {ds : List Nat} {v : State} (hD : Device settledKeys ds v) (hcalm : Calm [21] v)
    (hresume : getB v K.hapEnable = false ∨ getN v K.hapState ≠ hapOff)
    (hshed : (21 ∈ ds ∧ domSt v 21 ≠ domStopping) ∨ (getN v K.hapState ≠ hapReady ∧ getN v K.hapState ≠ hapStarting)) :
    DevFrame settledKeys ds v (powerDone v) ∧ (powerDone v).hap = v.hap := by
  have hsettled := (haptic_settles hD hcalm hresume hshed).powerSettle ⟨.refl _ _ v, rfl⟩
  have hrun : pwrMode (powerSettle v) = 1 := (hsettled.1.mode.objs.getN (.head _)).trans hcalm.run
  rwa [powerDone_run hrun]

/-! ## The start -/

/-- The haptics' objects, but for the writes that start or stop them. -/
theorem calm_haptic {r t : State} (hcalm : Calm [21] r) (h : DevFrame (calmKeys [21]) [] r t) : Calm [21] t :=
  hcalm.devFrame (by simp) (fun _ h => h) h

theorem calm_device {r : State} : Device (calmKeys [21]) [] r where
  apart := fun k hk => by
    obtain ⟨hrange, hnote⟩ := calmKeys_apart (by simp) hk
    exact ⟨by omega, by omega, by omega, hnote⟩
  chips := fun _ hd => (List.not_mem_nil hd).elim
  wants := fun _ _ _ hd => (List.not_mem_nil hd).elim

theorem hap_calm {k : Nat} (hk : k ∈ calmKeys [21]) : k < 0x4800 * 256 ∨ 0x4820 * 256 ≤ k := by
  have hrange := (calmKeys_apart (by simp) hk).1
  omega

theorem calm_startHaptics {r : State} (hcalm : Calm [21] r) : Calm [21] (startHaptics r) :=
  calm_haptic hcalm (devFrame_startHaptics calm_device (fun _ => hap_calm) (.refl _ _ r))

theorem startHaptics_spec {s : State} (hcalm : Calm [21] s) : getB (startHaptics s) K.hapEnable = true ∧
    getN (startHaptics s) K.hapState = hapStarting ∧ domSt (startHaptics s) 21 = domSt s 21 := by
  have hwritten : Calm [21] (putN (writeB s K.hapEnable true) K.hapState hapStarting) :=
    calm_haptic hcalm (.putDevice calm_device (.writeDevice calm_device (.refl _ _ s)
      (hap_apart (fun _ => hap_calm) (by decide) (by decide)) (by decide) (by decide)) (hap_apart (fun _ => hap_calm) (by decide) (by decide))
      (by decide) (by decide))
  have hon : getB (putN (writeB s K.hapEnable true) K.hapState hapStarting) K.hapEnable = true := by
    rw [getB, getN_putN_ne _ _ (by decide), ← getB]
    exact getB_writeB ..
  have hstate : getN (putN (writeB s K.hapEnable true) K.hapState hapStarting) K.hapState = hapStarting := getN_putN ..
  have hdom : domSt (putN (writeB s K.hapEnable true) K.hapState hapStarting) 21 = domSt s 21 :=
    (getN_putN_ne _ _ (by decide)).trans (getN_writeN_ne s 1 (by decide))
  have heq : startHaptics s = settle (putN (writeB s K.hapEnable true) K.hapState hapStarting) := rfl
  rw [heq]
  generalize putN (writeB s K.hapEnable true) K.hapState hapStarting = u at *
  have hD : Device settledKeys [21] u := haptic_device (by simp) fun _ => haptic_wanted hwritten hon
  have hset : DevFrame settledKeys [21] u (settle u) := .settle hD (.refl _ _ u)
  exact ⟨by rw [getB, hset.objs.getN (mem_settled_haptic (by decide)), ← getB, hon],
    (hset.objs.getN (mem_settled_haptic (by decide))).trans hstate, (hset.doms 21 (.head _)).trans hdom⟩

/-! ## The stop -/

/-- A channel's part of the shut-down. -/
def shutStep (s : State) (n : Nat) : State :=
  if chRuns (endQueue s n effDisabled) n && chSt (endQueue s n effDisabled) n != chBraking then beginBraking (endQueue s n effDisabled) n
  else endQueue s n effDisabled

/-- A channel as the shut-down leaves it: no queue, and braking if it ran. -/
def Shut (ran : Bool) (v : Nat × Chan) : Prop := v.2.queue = [] ∧ v.2.run.isSome = ran ∧ (ran = true → v.1 = chBraking)

theorem shutStep_step (s : State) (n : Nat) :
    ∃ c, ChanStep n (chKeys n [7, 13, 14]) c s (shutStep s n) ∧ c.queue = [] ∧ c.run = (chanOf s n).run ∧
      ((chanOf s n).run.isSome = true → chSt (shutStep s n) n = chBraking) := by
  have hend := (endQueue_step n s effDisabled).mono (ks' := chKeys n [7, 13, 14]) fun k hk => List.mem_singleton.1 hk ▸ by
    rw [endedKey_eq]
    exact chKey_mem (by split <;> decide)
  unfold shutStep
  generalize endQueue s n effDisabled = u at *
  have hrun : (chanOf u n).run = (chanOf s n).run := by rw [hend.chan]; rfl
  have hqueue : (chanOf u n).queue = [] := by rw [hend.chan]; rfl
  by_cases hgo : (chRuns u n && chSt u n != chBraking) = true
  · rw [if_pos hgo]
    have hput := (hend.putN (k := K.chState n) (v := chBraking) (chKey_mem (sub := 7) (by decide))).modChan
      (g := fun c => { c with braked := u.now })
    exact ⟨_, hput, rfl, rfl, fun _ => getN_putN ..⟩
  · rw [if_neg hgo]
    refine ⟨_, hend, rfl, rfl, fun hran => ?_⟩
    rw [chRuns, hrun, hran, Bool.true_and, bne_iff_ne, not_not] at hgo
    exact hgo

def chView (n : Nat) (s : State) : Nat × Chan := (chSt s n, chanOf s n)

theorem shut_iff {n : Nat} {s : State} {ran : Bool} :
    Shut ran (chView n s) ↔ (chanOf s n).queue = [] ∧ (chanOf s n).run.isSome = ran ∧ (ran = true → chSt s n = chBraking) := Iff.rfl

/-- The shut-down of every channel. -/
def shutAll (s : State) : State := foldN (List.range 16) shutStep s

theorem shutHaptics_eq (s : State) : shutHaptics s = hapStopCheck (shutAll (putN s K.hapState hapStopping)) := rfl

theorem shutAll_chan (s : State) {n : Nat} (hn : n < 16) : (chanOf (shutAll s) n).queue = [] ∧
    (chanOf (shutAll s) n).run.isSome = (chanOf s n).run.isSome ∧ ((chanOf s n).run.isSome = true → chSt (shutAll s) n = chBraking) := by
  have hshut : Shut (chanOf s n).run.isSome (chView n (foldN (List.range 16) shutStep s)) := by
    refine foldN_at (chView n) (Shut (chanOf s n).run.isSome) hn (fun x m _ hne => ?_) fun x hx => ?_
    · obtain ⟨c, hstep, -⟩ := shutStep_step x m
      have hstate : chSt (shutStep x m) n = chSt x n := ChanStep.getN_other (subs := [7, 13, 14]) hstep hn (by decide) (by decide) hne
      exact congrArg₂ Prod.mk hstate (hstep.others n (Ne.symm hne))
    · have hchan : chanOf x n = chanOf s n := (Prod.mk.inj hx).2
      obtain ⟨c, hstep, hqueue, hrun, hbrakes⟩ := shutStep_step x n
      rw [hchan] at hrun hbrakes
      exact shut_iff.2 ⟨by rw [hstep.chan]; exact hqueue, by rw [hstep.chan, hrun], hbrakes⟩
  exact shut_iff.1 hshut

theorem shutAll_hapKey (s : State) {sub : Nat} (hsub : sub < 256) : getN (shutAll s) (objKey 0x4800 sub) = getN s (objKey 0x4800 sub) :=
  foldN_kept (fun x => getN x (objKey 0x4800 sub)) (fun x m _ => by
    obtain ⟨c, hstep, -⟩ := shutStep_step x m
    exact hstep.getN (hapKey_not_chKeys hsub) (hapKey_note hsub)) s

theorem shutAll_changes (s : State) : Changes [.fresh, .objs, .voteSecond, .host, .funcs, .sess, .rings, .hap, .grog, .notes] s (shutAll s) :=
  foldN_ch _ (Changes.refl _ s) fun x n hx => by
    have hend := endQueue_ch (List.Subset.refl _) hx (n := n) (outcome := effDisabled)
    unfold shutStep
    split
    · exact beginBraking_ch (by decide) hend
    · exact hend

theorem calm_shutAll {s : State} (hcalm : Calm [21] s) : Calm [21] (shutAll s) := by
  refine calm_haptic hcalm ((DevFrame.refl _ _ s).foldN _ fun x n hn hx => ?_)
  have hlt := List.mem_range.1 hn
  have hended := devFrame_endQueue calm_device (fun _ => hap_calm) (outcome := effDisabled) hlt hx
  unfold shutStep
  have hbraking : DevFrame (calmKeys [21]) [] s (putN (endQueue x n effDisabled) (K.chState n) chBraking) :=
    .putDevice calm_device hended (hap_apart (fun _ => hap_calm) (by omega) (by decide)) (by omega) (by decide)
  exact .ite (hbraking.of_eq rfl rfl) hended

/-- A channel reads OFF, and no probe of it is due. -/
def offStep (s : State) (n : Nat) : State := modChan (putN s (K.chState n) chOff) n (fun c => { c with probeAt := none })

def allOff (s : State) : State := foldN (List.range 16) offStep s

/-- A channel that reads OFF without a queue. -/
def OffEmpty (v : Nat × Chan) : Prop := v.1 = chOff ∧ v.2.queue = []

theorem offEmpty_iff {n : Nat} {s : State} : OffEmpty (chView n s) ↔ chSt s n = chOff ∧ (chanOf s n).queue = [] := Iff.rfl

theorem offStep_step (s : State) (n : Nat) : ChanStep n (chKeys n [7]) { chanOf s n with probeAt := none } s (offStep s n) :=
  ((ChanStep.refl n _ s).putN (chKey_mem (sub := 7) (by decide))).modChan (g := fun c => { c with probeAt := none })

theorem allOff_chan (s : State) {n : Nat} (hn : n < 16) (hqueue : (chanOf s n).queue = []) :
    chSt (allOff s) n = chOff ∧ (chanOf (allOff s) n).queue = [] := by
  have hoff : OffEmpty (chView n (foldN (List.range 16) offStep s)) := by
    refine foldN_at (chView n) OffEmpty hn (fun x m _ hne => ?_) fun x hx => ?_
    · have hstep := offStep_step x m
      have hstate : chSt (offStep x m) n = chSt x n := ChanStep.getN_other (subs := [7]) hstep hn (by decide) (by decide) hne
      exact congrArg₂ Prod.mk hstate (hstep.others n (Ne.symm hne))
    · have hchan : chanOf x n = chanOf s n := (Prod.mk.inj hx).2
      have hstate : chSt (offStep x n) n = chOff := getN_putN x (K.chState n) chOff
      refine offEmpty_iff.2 ⟨hstate, ?_⟩
      rw [(offStep_step x n).chan, hchan]
      exact hqueue
  exact offEmpty_iff.1 hoff

theorem allOff_hapKey (s : State) {sub : Nat} (hsub : sub < 256) : getN (allOff s) (objKey 0x4800 sub) = getN s (objKey 0x4800 sub) :=
  foldN_kept (fun x => getN x (objKey 0x4800 sub)) (fun x m _ => (offStep_step x m).getN (hapKey_not_chKeys hsub) (hapKey_note hsub)) s

theorem allOff_transit (s : State) : (allOff s).transit = s.transit := foldN_kept (f := offStep) (N := 16) State.transit (fun _ _ _ => rfl) s

theorem calm_allOff {s : State} (hcalm : Calm [21] s) : Calm [21] (allOff s) := by
  refine calm_haptic hcalm ((DevFrame.refl _ _ s).foldN _ fun x n hn hx => ?_)
  have hlt := List.mem_range.1 hn
  have hput : DevFrame (calmKeys [21]) [] s (putN x (K.chState n) chOff) :=
    .putDevice calm_device hx (hap_apart (fun _ => hap_calm) (by omega) (by decide)) (by omega) (by decide)
  exact hput.of_eq rfl rfl

/-- The haptics as their shut-down leaves them. -/
structure Stopped (s v : State) : Prop where
  calm : Calm [21] v
  off : getB v K.hapEnable = false
  queues : ∀ n, n < 16 → (chanOf v n).queue = []
  ended : (∀ n, n < 16 → (chanOf s n).run = none) → getN v K.hapState = hapOff ∧ ∀ n, n < 16 → chSt v n = chOff
  braking : ∀ n, n < 16 → (chanOf s n).run ≠ none → getN v K.hapState = hapStopping ∧ chSt v n = chBraking
  state : getN v K.hapState = hapOff ∨ getN v K.hapState = hapStopping

/-- What keeps the haptics' objects and their record keeps them stopped. -/
theorem Stopped.devFrame {ds : List Nat} {s v t : State} (h : Stopped s v) (hframe : DevFrame settledKeys ds v t) (hhap : t.hap = v.hap) :
    Stopped s t := by
  have hkey {k : Nat} (hk : k ∈ hapticKeys) : getN t k = getN v k := hframe.objs.getN (mem_settled_haptic hk)
  have hchan (n : Nat) : chanOf t n = chanOf v n := by rw [chanOf, chanOf, hhap]
  have hstate : getN t K.hapState = getN v K.hapState := hkey (by decide)
  have hchState (n : Nat) (hn : n < 16) : chSt t n = chSt v n :=
    hkey (List.mem_append_right _ (List.mem_map_of_mem (List.mem_range.2 hn)))
  refine ⟨h.calm.devFrame (by simp) (fun k hk => mem_settled_calm hk) hframe, ?_, fun n hn => ?_, fun hnone => ?_, fun n hn hrun => ?_, ?_⟩
  · rw [getB, hkey (by decide), ← getB, h.off]
  · rw [hchan]
    exact h.queues n hn
  · obtain ⟨hoff, hall⟩ := h.ended hnone
    exact ⟨hstate.trans hoff, fun n hn => (hchState n hn).trans (hall n hn)⟩
  · obtain ⟨hstopping, hbrakes⟩ := h.braking n hn hrun
    exact ⟨hstate.trans hstopping, (hchState n hn).trans hbrakes⟩
  · rw [hstate]
    exact h.state

theorem quiet_device {r : State} : Device settledKeys [] r := haptic_device (by simp) fun h => absurd rfl h

/-- The shut-down of enabled haptics, where no enable is queued. -/
theorem shutHaptics_stopped {s : State} (hcalm : Calm [21] s) (hoff : getB s K.hapEnable = false) (hnot : K.hapEnable ∉ s.transit) :
    Stopped s (shutHaptics s) := by
  rw [shutHaptics_eq]
  have hput : Calm [21] (putN s K.hapState hapStopping) :=
    calm_haptic hcalm (.putDevice calm_device (.refl _ _ s) (hap_apart (fun _ => hap_calm) (by decide) (by decide)) (by decide) (by decide))
  have hoff' : getB (putN s K.hapState hapStopping) K.hapEnable = false := by
    rw [getB, getN_putN_ne _ _ (by decide), ← getB, hoff]
  have hstopping : getN (putN s K.hapState hapStopping) K.hapState = hapStopping := getN_putN ..
  have hchans (n : Nat) : chanOf (putN s K.hapState hapStopping) n = chanOf s n := rfl
  have htransit : (putN s K.hapState hapStopping).transit = s.transit := rfl
  generalize putN s K.hapState hapStopping = u at *
  have hcalmW := calm_shutAll hput
  have hoffW : getB (shutAll u) K.hapEnable = false := by
    rw [getB, show getN (shutAll u) K.hapEnable = getN u K.hapEnable from shutAll_hapKey u (by decide), ← getB, hoff']
  have hstateW : getN (shutAll u) K.hapState = hapStopping := (shutAll_hapKey u (by decide)).trans hstopping
  have hchanW (n : Nat) (hn : n < 16) := shutAll_chan u hn
  have htransitW : (shutAll u).transit = s.transit := ((shutAll_changes u).transit (by decide)).trans htransit
  generalize shutAll u = w at *
  by_cases hruns : (List.range 16).all (fun n => !chRuns w n) = true
  · have hnone (n : Nat) (hn : n < 16) : (chanOf w n).run.isSome = false := by
      have hall := List.all_eq_true.1 hruns n (List.mem_range.2 hn)
      rwa [Bool.not_eq_true'] at hall
    have hcheck : hapStopCheck w = hapQueued (settle (putN (allOff w) K.hapState hapOff)) := if_pos ⟨hstateW, hruns⟩
    have hcalmO := calm_allOff hcalmW
    have hoffO : getN (allOff w) K.hapEnable = getN w K.hapEnable := allOff_hapKey w (by decide)
    have hchanO (n : Nat) (hn : n < 16) := allOff_chan w hn (hchanW n hn).1
    have htransitO := (allOff_transit w).trans htransitW
    generalize allOff w = o at *
    have hstopped : Stopped s (putN o K.hapState hapOff) := by
      refine ⟨calm_haptic hcalmO (.putDevice calm_device (.refl _ _ o) (hap_apart (fun _ => hap_calm) (by decide) (by decide)) (by decide)
        (by decide)), ?_, fun n hn => (hchanO n hn).2, fun _ => ⟨getN_putN .., fun n hn => ?_⟩, fun n hn hran => ?_, .inl (getN_putN ..)⟩
      · rw [getB, getN_putN_ne _ _ (by decide), hoffO, ← getB, hoffW]
      · exact (getN_putN_ne o _ (by simp only [K.chState, K.hapState, objKey]; omega)).trans (hchanO n hn).1
      · have hsome := (hchanW n hn).2.1.symm.trans (hnone n hn)
        rw [hchans, Option.isSome_eq_false_iff, Option.isNone_iff_eq_none] at hsome
        exact absurd hsome hran
    have htransitP : (putN o K.hapState hapOff).transit = s.transit := htransitO
    generalize putN o K.hapState hapOff = q at *
    have hsettled := hstopped.devFrame (DevFrame.settle quiet_device (.refl _ _ q)) ((settle_ch (List.Subset.refl _) (Changes.refl _ q)).hap (by decide))
    have htransitQ : (settle q).transit = s.transit := ((settle_ch (List.Subset.refl _) (Changes.refl _ q)).transit (by decide)).trans htransitP
    have hqueued : hapQueued (settle q) = settle q := by
      unfold hapQueued
      rw [htransitQ, if_neg (by simp [hnot])]
    rw [hcheck, hqueued]
    exact hsettled
  · have hcheck : hapStopCheck w = w := if_neg fun h => hruns h.2
    rw [hcheck]
    refine ⟨hcalmW, hoffW, fun n hn => (hchanW n hn).1, fun hnone => absurd (List.all_eq_true.2 fun n hn => ?_) hruns, fun n hn hran =>
      ⟨hstateW, (hchanW n hn).2.2 ?_⟩, .inr hstateW⟩
    · have hlt := List.mem_range.1 hn
      rw [chRuns, (hchanW n hlt).2.1, hchans, hnone n hlt]
      rfl
    · rw [hchans]
      exact Option.isSome_iff_ne_none.2 hran

/-! ## The two writes -/

theorem hapEnable_applied {s v : State} {c : WCtx} {n : Nat} (h : hapEnableApply s (n == 1) = (v, .ok)) :
    areaApply s c 0x4800 1 (.num n) = accepted (powerDone v) := by
  rw [areaApply_hapEnable, Val.toNat, h]
  exact powered_ok v

theorem hapEnable_check {s : State} {c : WCtx} {x : Val} : areaCheck s c 0x4800 1 x = .ok := by
  rw [areaCheck_hapEnable]
  exact if_neg fun h => absurd h.1 (by decide)

section
variable {s : State} {r : DictReq} {i : Nat} (hquiet : Quiet s) (hmgr : managerSession s i) (hnot : K.hapEnable ∉ s.transit)
include hquiet hmgr hnot

theorem hapEnable_spec (h : AdmittedWrite s r i K.hapEnable 1) (hoff : getB s K.hapEnable = false) (hstate : getN s K.hapState = hapOff)
    (hdom : domSt s 21 ≠ domStopping) :
    ∃ t, exec (.hapEnable r) s = .next t ∧ answered t r 0x11 .ok ∧ getB t K.hapEnable = true ∧ getN t K.hapState = hapStarting := by
  have hcalm : Calm [21] (renewed s i) := renewed_calm hquiet (by simp)
  have hcalmV := calm_startHaptics hcalm
  obtain ⟨honV, hstateV, hdomV⟩ := startHaptics_spec hcalm
  have hcontains : (renewed s i).transit.contains K.hapEnable = false := by simpa [renewed] using hnot
  have hstopping : (getN (renewed s i) K.hapState == hapStopping || anyStopping (renewed s i) [21]) = false := by
    rw [show getN (renewed s i) K.hapState = hapOff from hstate, anyStopping, hcalm.run, List.any_cons, beq_eq_false_iff_ne.2
      (show domSt (renewed s i) 21 ≠ domStopping from hdom)]
    rfl
  have happly : hapEnableApply (renewed s i) ((1 : Nat) == 1) = (startHaptics (renewed s i), .ok) := by
    unfold hapEnableApply enableWrite
    rw [hcontains, hstopping, show getB (renewed s i) K.hapEnable = false from hoff]
    rfl
  have hclaims : (areaClaims (renewed s i) 0x4800 1 1).1 = [] := by
    rw [areaClaims_hapEnable]
    exact enableClaims_quiet hquiet (by decide +kernel)
  obtain ⟨u, hexec, hans, hch⟩ := areaWrite_unclaimed (t := powerDone (startHaptics (renewed s i))) row_hapEnable (.inl rfl) (by decide)
    (by decide) h hmgr (areaAccess_hapEnable (isMgr_session hmgr)) (by rfl) (by rfl) hapEnable_check hclaims (hapEnable_applied happly)
  have hD : Device settledKeys [21] (startHaptics (renewed s i)) := haptic_device (by simp) fun _ => haptic_wanted hcalmV honV
  have hdomV' : domSt (startHaptics (renewed s i)) 21 ≠ domStopping := by
    rw [hdomV]
    exact hdom
  obtain ⟨hdone, -⟩ := haptic_powerDone hD hcalmV (.inr (by rw [hstateV]; decide)) (.inl ⟨.head _, hdomV'⟩)
  have hkey {k : Nat} (hk : k ∈ hapticKeys) : getN u k = getN (startHaptics (renewed s i)) k :=
    (hch.getN (by decide) (by decide) k).trans (hdone.objs.getN (mem_settled_haptic hk))
  exact ⟨u, hexec, hans, by rw [getB, hkey (by decide), ← getB, honV], (hkey (by decide)).trans hstateV⟩

theorem hapDisable_spec (h : AdmittedWrite s r i K.hapEnable 0) (hon : getB s K.hapEnable = true) (hstate : getN s K.hapState = hapReady) :
    ∃ t, exec (.hapDisable r) s = .next t ∧ answered t r 0x11 .ok ∧ getB t K.hapEnable = false ∧
      (∀ n, n < 16 → (chanOf t n).queue = []) ∧
      ((∀ n, n < 16 → (chanOf s n).run = none) → getN t K.hapState = hapOff ∧ ∀ n, n < 16 → chSt t n = chOff) ∧
      (∀ n, n < 16 → (chanOf s n).run ≠ none → getN t K.hapState = hapStopping ∧ chSt t n = chBraking) := by
  have hcalm : Calm [21] (renewed s i) := renewed_calm hquiet (by simp)
  have hstops : stopHaptics (renewed s i) = shutHaptics (writeB (renewed s i) K.hapEnable false) := by
    have hready : getN (writeB (renewed s i) K.hapEnable false) K.hapState = hapReady := (getN_writeN_ne _ 0 (by decide)).trans hstate
    unfold stopHaptics
    exact if_neg (by rw [hready]; decide)
  have hwritten : Calm [21] (writeB (renewed s i) K.hapEnable false) :=
    calm_haptic hcalm (.writeDevice calm_device (.refl _ _ _) (hap_apart (fun _ => hap_calm) (by decide) (by decide)) (by decide) (by decide))
  have htransit : (writeB (renewed s i) K.hapEnable false).transit = s.transit :=
    (writeB_ch (P := [.objs, .sess]) (by decide) (renewed_changes i (by decide) (Changes.refl _ s))).transit (by decide)
  have hchans (n : Nat) : chanOf (writeB (renewed s i) K.hapEnable false) n = chanOf s n := by
    rw [chanOf, chanOf, (writeB_ch (P := [.objs, .sess]) (by decide) (renewed_changes i (by decide) (Changes.refl _ s))).hap (by decide)]
  have hstopped : Stopped (writeB (renewed s i) K.hapEnable false) (stopHaptics (renewed s i)) := by
    rw [hstops]
    exact shutHaptics_stopped hwritten (getB_writeB ..) (by rw [htransit]; exact hnot)
  have hcontains : (renewed s i).transit.contains K.hapEnable = false := by simpa [renewed] using hnot
  have happly : hapEnableApply (renewed s i) ((0 : Nat) == 1) = (stopHaptics (renewed s i), .ok) := by
    unfold hapEnableApply enableWrite
    rw [if_neg (by decide), hcontains, if_neg (by decide), if_pos (show getB (renewed s i) K.hapEnable = true from hon)]
  have hclaims : (areaClaims (renewed s i) 0x4800 1 0).1 = [] :=
    (congrArg Prod.fst areaClaims_hapEnable).trans (enableClaims_off (renewed s i) K.hapEnable (getN (renewed s i) K.hapState == hapStopping) [21])
  obtain ⟨u, hexec, hans, hch⟩ := areaWrite_unclaimed (t := powerDone (stopHaptics (renewed s i))) row_hapEnable (.inl rfl) (by decide)
    (by decide) h hmgr (areaAccess_hapEnable (isMgr_session hmgr)) (by rfl) (by rfl) hapEnable_check hclaims (hapEnable_applied happly)
  have hexec : exec (.hapDisable r) s = .next u := hexec
  clear hstops happly
  generalize stopHaptics (renewed s i) = v at hstopped hch
  have hnotRun : getN v K.hapState ≠ hapReady ∧ getN v K.hapState ≠ hapStarting := by
    obtain hst | hst := hstopped.state <;> rw [hst] <;> decide
  obtain ⟨hdone, hhap⟩ := haptic_powerDone quiet_device hstopped.calm (.inl hstopped.off) (.inr hnotRun)
  obtain ⟨-, hoff, hqueues, hended, hbraking, -⟩ := hstopped.devFrame hdone hhap
  have hkey (k : Nat) : getN u k = getN (powerDone v) k := hch.getN (by decide) (by decide) k
  have hchan (n : Nat) : chanOf u n = chanOf (powerDone v) n := by rw [chanOf, chanOf, hch.hap (by decide)]
  refine ⟨u, hexec, hans, by rw [getB, hkey, ← getB, hoff], fun n hn => by rw [hchan]; exact hqueues n hn, fun hnone => ?_, fun n hn hran => ?_⟩
  · obtain ⟨hstateOff, hall⟩ := hended fun n hn => by rw [hchans]; exact hnone n hn
    exact ⟨(hkey _).trans hstateOff, fun n hn => (hkey _).trans (hall n hn)⟩
  · obtain ⟨hstateStop, hbrakes⟩ := hbraking n hn (by rw [hchans]; exact hran)
    exact ⟨(hkey _).trans hstateStop, (hkey _).trans hbrakes⟩

end

end Sys2Proof.Proofs.HapticEnable

/-!
PROOFS. O52, its last part: HAPTIC_PLAY (R371, R372), and the whole.
-/

namespace Sys2Proof.Proofs.HapticPlay

open Sys2Proof.Machine
open Sys2Proof.Proofs.HapticChannels
open Sys2Proof.Proofs.HapticEffects (modChan_changes)
open Sys2Proof.Proofs.LayersAndCommits (onlyAndNotes_fetched onlyAndNotes_answered)

/-! ## One channel after the other -/

/-- A fold whose steps each work on one element and keep, in the sense of `K`, the others: what a step makes of its element holds at the
end, and the rest is kept. -/
structure Works (l : List Nat) (f : State → Nat → State) (P Q : State → Nat → Prop) (K : State → State → Nat → Prop)
    (T : State → State → Prop) : Prop where
  step : ∀ x m, m ∈ l → P x m → Q (f x m) m ∧ (∀ n, n ≠ m → K x (f x m) n) ∧ T x (f x m)
  before : ∀ x y n, K x y n → P x n → P y n
  after : ∀ x y n, K x y n → Q x n → Q y n
  refl : ∀ x n, K x x n
  trans : ∀ x y z n, K x y n → K y z n → K x z n
  whole : ∀ x, T x x
  chain : ∀ x y z, T x y → T y z → T x z

theorem Works.foldN {l : List Nat} {f : State → Nat → State} {P Q : State → Nat → Prop} {K : State → State → Nat → Prop}
    {T : State → State → Prop} (hw : Works l f P Q K T) (hl : l.Nodup) {s : State} (hs : ∀ n ∈ l, P s n) :
    (∀ n ∈ l, Q (foldN l f s) n) ∧ (∀ n, n ∉ l → K s (foldN l f s) n) ∧ T s (foldN l f s) := by
  have hfold : ∀ (l' : List Nat) (x : State), l'.Nodup → (∀ n ∈ l', n ∈ l) → (∀ n ∈ l', P x n) →
      (∀ n ∈ l', Q (Machine.foldN l' f x) n) ∧ (∀ n, n ∉ l' → K x (Machine.foldN l' f x) n) ∧ T x (Machine.foldN l' f x) := by
    intro l'
    induction l' with
    | nil => exact fun x _ _ _ => ⟨fun n hn => (List.not_mem_nil hn).elim, fun n _ => hw.refl x n, hw.whole x⟩
    | cons m l' ih =>
      intro x hnodup hsub hx
      obtain ⟨hm, hl'⟩ := List.nodup_cons.1 hnodup
      have hcons : Machine.foldN (m :: l') f x = Machine.foldN l' f (f x m) := List.foldl_cons ..
      obtain ⟨hdone, hkept, hthrough⟩ := hw.step x m (hsub m (.head _)) (hx m (.head _))
      obtain ⟨hq, hk, ht⟩ := ih (f x m) hl' (fun n hn => hsub n (.tail _ hn)) fun n hn =>
        hw.before x _ n (hkept n fun heq => hm (heq ▸ hn)) (hx n (.tail _ hn))
      rw [hcons]
      refine ⟨fun n hn => ?_, fun n hn => ?_, hw.chain _ _ _ hthrough ht⟩
      · obtain rfl | hn := List.mem_cons.1 hn
        · exact hw.after _ _ _ (hk _ hm) hdone
        · exact hq n hn
      · obtain ⟨hne, hnl⟩ := not_or.1 fun h => hn (List.mem_cons.2 h)
        exact hw.trans _ _ _ _ (hkept n hne) (hk n hnl)
  exact hfold l s hl (fun _ h => h) hs

/-! ## The copies of an effect -/

/-- A channel's copy of a command's effect. -/
def copyOf (t : Ticket) (id eid : Nat) (p : HapticPayload) (start : Nat) : Effect :=
  { id := eid, func := t.func, play := some id, effect := p.effect.toNat, cls := p.cls.toNat, scale := p.scale.toNat
    overlay := bitOf p.flags.toNat 0, due := start
    deadline := if p.deadline = 0 then none else some (start + p.deadline.toNat * msec) }

/-- A channel is handed its copy. -/
def playStep (t : Ticket) (id : Nat) (p : HapticPayload) (start : Nat) (s : State) (n : Nat) : State :=
  giveEffect (takeHapId s).1 n (copyOf t id (takeHapId s).2 p start)

/-- The channels that a command names. -/
def playChans (p : HapticPayload) : List Nat := numbers 16 (fun n => bitOf p.chans.toNat n)

theorem mem_playChans {p : HapticPayload} {n : Nat} : n ∈ playChans p ↔ n < 16 ∧ bitOf p.chans.toNat n = true := by
  simp [playChans, numbers]

theorem playChans_nodup (p : HapticPayload) : (playChans p).Nodup := List.Nodup.filter _ List.nodup_range

/-- The command is noted, with the channels whose copies have not ended. -/
def playNoted (s : State) (t : Ticket) (p : HapticPayload) : State :=
  { (takeHapId s).1 with hap := { (takeHapId s).1.hap with
      plays := (takeHapId s).1.hap.plays ++ [{ id := (takeHapId s).2, ticket := t, left := playChans p }] } }

/-- What concerns a channel. -/
def SameChan (s t : State) (n : Nat) : Prop :=
  t.now = s.now ∧ chanOf t n = chanOf s n ∧ (n < 16 → chSt t n = chSt s n ∧ channelOpen t n = channelOpen s n)

theorem SameChan.refl (s : State) (n : Nat) : SameChan s s n := ⟨rfl, rfl, fun _ => ⟨rfl, rfl⟩⟩

theorem SameChan.trans {s t u : State} {n : Nat} (h : SameChan s t n) (h' : SameChan t u n) : SameChan s u n :=
  ⟨h'.1.trans h.1, h'.2.1.trans h.2.1, fun hn => ⟨(h'.2.2 hn).1.trans (h.2.2 hn).1, (h'.2.2 hn).2.trans (h.2.2 hn).2⟩⟩

theorem channelOpen_congr {s t : State} {n : Nat} (henable : getN t (K.chEnable n) = getN s (K.chEnable n))
    (hready : getN t K.hapState = getN s K.hapState) (hstate : chSt t n = chSt s n) : channelOpen t n = channelOpen s n := by
  unfold channelOpen
  rw [getB, henable, hready, hstate, ← getB]

theorem playStep_now {t : Ticket} {id : Nat} {p : HapticPayload} {start : Nat} {s : State} {n : Nat} (hstart : start = s.now)
    (hopen : channelOpen s n = true) (hfree : (chanOf s n).run = none) (hfits : ∀ e : Effect, e.effect = p.effect.toNat → effFits s n e = true) :
    playStep t id p start s n = startEffect (takeHapId s).1 n (copyOf t id (takeHapId s).2 p start) := by
  have hdue : (copyOf t id (takeHapId s).2 p start).due ≤ (takeHapId s).1.now := by
    show start ≤ s.now
    omega
  have hsame : { copyOf t id (takeHapId s).2 p start with due := (takeHapId s).1.now } = copyOf t id (takeHapId s).2 p start := by
    show { copyOf t id (takeHapId s).2 p start with due := s.now } = _
    rw [← hstart]
    rfl
  unfold playStep giveEffect
  rw [if_pos hdue, hsame]
  exact HapticEffects.effectArrives_free hopen hfree (hfits _ rfl)

/-- On a channel that no drive has used, an effect fits that alone stays within the window. -/
theorem effFits_free {s : State} {n : Nat} {e : Effect} (hfree : (chanOf s n).run = none) (hons : (chanOf s n).ons = [])
    (h : effTotal e + 4 * msec ≤ 200 * msec) : effFits s n e = true := by
  simp only [effFits, driveOn, hfree, hons, List.map_nil, List.sum_nil, Option.isSome_none, Bool.false_eq_true, if_false, Nat.add_zero]
  exact decide_eq_true h

/-- The start of an effect on one channel concerns no other. -/
theorem started_same {s t : State} {m : Nat} {e : Effect} (h : Started s m e t) (n : Nat) (hne : n ≠ m) : SameChan s t n := by
  have hkey (hn : n < 16) {sub : Nat} (hsub : sub < 256) : getN t (objKey (0x4810 + n) sub) = getN s (objKey (0x4810 + n) sub) :=
    HapticDrivers.ChanStep.getN_other (subs := [7, 9, 10, 16]) h.step hn hsub (by decide) (Ne.symm hne)
  refine ⟨h.step.now, h.step.others n hne, fun hn => ⟨hkey hn (by decide), channelOpen_congr (hkey hn (by decide)) ?_ (hkey hn (by decide))⟩⟩
  exact h.step.getN (HapticTrips.hapKey_not_chKeys (sub := 3) (subs := [7, 9, 10, 16]) (by decide)) (hapKey_note (by decide))

/-- Whether a free channel takes an effect at once. -/
def Free (now : Nat) (p : HapticPayload) (s : State) (n : Nat) : Prop :=
  s.now = now ∧ n < 16 ∧ channelOpen s n = true ∧ (chanOf s n).run = none ∧ ∀ e : Effect, e.effect = p.effect.toNat → effFits s n e = true

/-- A channel runs its copy. -/
def Playing (now : Nat) (p : HapticPayload) (s : State) (n : Nat) : Prop :=
  n < 16 ∧ chSt s n = chAttack ∧ ∃ e, (chanOf s n).run = some e ∧ e.effect = p.effect.toNat ∧ e.cls = p.cls.toNat ∧ e.scale = p.scale.toNat ∧
    e.due = now

/-- The objects that a command's effects move, and the parts of the state. -/
def PlayChanges (p : HapticPayload) (s t : State) : Prop :=
  onlyObjs ((playChans p).flatMap startKeys) s t ∧ Changes [.fresh, .objs, .hap] s t

theorem playWorks (t : Ticket) (id : Nat) (p : HapticPayload) (now : Nat) :
    Works (playChans p) (playStep t id p now) (Free now p) (Playing now p) SameChan (PlayChanges p) where
  step := fun x m hm ⟨hnow, hlt, hopen, hfree, hfits⟩ => by
    rw [playStep_now hnow.symm hopen hfree hfits]
    have hid : Changes [.fresh, .objs, .hap] x (takeHapId x).1 := ch_hap (Changes.refl _ x) (by decide)
    have hstart := startEffect_ch (List.Subset.refl _) (Changes.refl _ (takeHapId x).1) (n := m) (e := copyOf t id (takeHapId x).2 p now)
    have hsame (n : Nat) : SameChan x (takeHapId x).1 n := ⟨rfl, rfl, fun _ => ⟨rfl, rfl⟩⟩
    have hobjs : (takeHapId x).1.objs = x.objs := rfl
    have hcopy : ∃ e, copyOf t id (takeHapId x).2 p now = e ∧ e.effect = p.effect.toNat ∧ e.cls = p.cls.toNat ∧ e.scale = p.scale.toNat ∧
        e.due = now := ⟨_, rfl, rfl, rfl, rfl, rfl⟩
    obtain ⟨e, he, heffect⟩ := hcopy
    rw [he] at hstart ⊢
    generalize (takeHapId x).1 = u at *
    have hstarted := startEffect_started u m e
    refine ⟨⟨hlt, hstarted.state, e, by rw [hstarted.step.chan]; rfl, heffect⟩, fun n hne => (hsame n).trans (started_same hstarted n hne),
      onlyObjs_trans (onlyObjs_of_eq hobjs) fun k hk => hstarted.only k fun hmem => hk (List.mem_flatMap.2 ⟨m, hm, hmem⟩), hid.trans hstart⟩
  before := fun x y n ⟨hnow, hchan, hsame⟩ ⟨hx, hn, hopen, hfree, hfits⟩ => by
    refine ⟨hnow.trans hx, hn, (hsame hn).2.trans hopen, by rw [hchan]; exact hfree, fun e he => (effFits_congr hnow ?_ ?_ ?_ e).trans (hfits e he)⟩
    · rw [hchan]
    · rw [hchan]
    · rw [hchan]
  after := fun x y n ⟨_, hchan, hsame⟩ ⟨hn, hstate, e, hrun, he⟩ => ⟨hn, (hsame hn).1.trans hstate, e, by rw [hchan]; exact hrun, he⟩
  refl := SameChan.refl
  trans := fun _ _ _ _ => SameChan.trans
  whole := fun x => ⟨onlyObjs_refl _ x, .refl _ x⟩
  chain := fun _ _ _ h h' => ⟨onlyObjs_trans h.1 h'.1, h.2.trans h'.2⟩

/-! ## Copies for later -/

/-- A channel before and after its copy waits. -/
def Awaits (now : Nat) (p : HapticPayload) (r s : State) (n : Nat) : Prop :=
  ∃ e, (chanOf s n).waits = (chanOf r n).waits ++ [e] ∧ e.effect = p.effect.toNat ∧ e.due = now

def SameRecord (s t : State) (n : Nat) : Prop := t.now = s.now ∧ chanOf t n = chanOf s n

theorem waitWorks (t : Ticket) (id : Nat) (p : HapticPayload) (start : Nat) (r : State) (hlate : r.now < start) :
    Works (playChans p) (playStep t id p start) (SameRecord r) (Awaits start p r) SameRecord (Changes [.hap]) where
  step := fun x m hm ⟨hnow, hchan⟩ => by
    have hwait : playStep t id p start x m = modChan (takeHapId x).1 m (fun c => { c with waits := c.waits ++ [copyOf t id (takeHapId x).2 p start] }) :=
      if_neg (by
        show ¬ start ≤ x.now
        omega)
    rw [hwait]
    have hid : Changes [.hap] x (takeHapId x).1 := ch_hap (Changes.refl _ x) (by decide)
    have hsame (n : Nat) : chanOf (takeHapId x).1 n = chanOf x n := rfl
    have hnow' : (takeHapId x).1.now = x.now := rfl
    have hcopy : ∃ e, copyOf t id (takeHapId x).2 p start = e ∧ e.effect = p.effect.toNat ∧ e.due = start := ⟨_, rfl, rfl, rfl⟩
    obtain ⟨e, he, heffect⟩ := hcopy
    rw [he]
    generalize (takeHapId x).1 = u at *
    refine ⟨⟨e, ?_, heffect⟩, fun n hne => ⟨hnow', (chanOf_modChan_ne u _ hne).trans (hsame n)⟩, hid.trans (modChan_changes u m _)⟩
    rw [chanOf_modChan, hsame, hchan]
  before := fun x y n ⟨hnow, hchan⟩ ⟨hx, hxchan⟩ => ⟨hnow.trans hx, hchan.trans hxchan⟩
  after := fun x y n ⟨_, hchan⟩ ⟨e, hwaits, he⟩ => ⟨e, by rw [hchan]; exact hwaits, he⟩
  refl := fun _ _ => ⟨rfl, rfl⟩
  trans := fun _ _ _ _ h h' => ⟨h'.1.trans h.1, h'.2.trans h.2⟩
  whole := fun x => .refl _ x
  chain := fun _ _ _ h h' => h.trans h'

/-! ## The command -/

section
variable {s : State} {h : CmdHdr} {p : HapticPayload} (hf : Fetches s h 0x40 false)

theorem playOk_fetched (s : State) (h : CmdHdr) (p : HapticPayload) (pay : List Byte) (f : Nat) :
    playOk (fetched s h 0x40 pay) f p = playOk s f p := by
  have hch := fetched_changes s h 0x40 pay
  have hgrant : getN (fetched s h 0x40 pay) (K.grantHaptic f) = getN s (K.grantHaptic f) := hch.getN (by decide) (by decide) _
  rw [playOk, playOk, hch.now (by decide), hgrant]

include hf

theorem hapticPlay_refused (hbad : playOk s (getN s (K.ringOwner h.ring)) p = false) :
    ∃ t, exec (.hapticPlay h p) s = .next t ∧ ringDone s t h 0x40 3 none ∧ t.hap = s.hap ∧ onlyObjsAndNotes [] s t := by
  have hexec : exec (.hapticPlay h p) s = .next (completeOpen (fetched s h 0x40 p.bytes) (ticketOf s h 0x40) 3) := by
    show execHapticPlay h p s = _
    unfold execHapticPlay
    rw [beginCmd_fetches hf]
    refine if_pos ?_
    rw [show (ticketOf s h 0x40).func = getN s (K.ringOwner h.ring) from rfl, playOk_fetched, hbad]
    rfl
  obtain ⟨hdone, -, hch⟩ := completeOpen_done (st := 3) hf (SameRing.fetched s h 0x40 p.bytes)
  have hfetch := fetched_changes s h 0x40 p.bytes
  exact ⟨_, hexec, hdone, (hch.hap (by decide)).trans (hfetch.hap (by decide)),
    onlyAndNotes_trans (onlyAndNotes_fetched [] s h 0x40 p.bytes) (onlyAndNotes_answered [] hch)⟩

/-- The command is fetched and noted. -/
theorem hapticPlay_run (hok : playOk s (getN s (K.ringOwner h.ring)) p = true) :
    exec (.hapticPlay h p) s = .next (foldN (playChans p) (playStep (ticketOf s h 0x40) (takeHapId (fetched s h 0x40 p.bytes)).2 p
      (if p.start.toNat < s.now then s.now else p.start.toNat)) (playNoted (fetched s h 0x40 p.bytes) (ticketOf s h 0x40) p)) := by
  have hnow : (fetched s h 0x40 p.bytes).now = s.now := (fetched_changes s h 0x40 p.bytes).now (by decide)
  show execHapticPlay h p s = _
  unfold execHapticPlay
  rw [beginCmd_fetches hf]
  refine (if_neg ?_).trans ?_
  · rw [show (ticketOf s h 0x40).func = getN s (K.ringOwner h.ring) from rfl, playOk_fetched, hok]
    decide
  · rw [← hnow]
    rfl

omit hf in
/-- What the noting of the command leaves. -/
theorem noted_spec (s : State) (h : CmdHdr) (p : HapticPayload) :
    Changes [.host, .rings, .hap] s (playNoted (fetched s h 0x40 p.bytes) (ticketOf s h 0x40) p) ∧
    (∀ n, SameChan s (playNoted (fetched s h 0x40 p.bytes) (ticketOf s h 0x40) p) n) ∧
    (ringOf (playNoted (fetched s h 0x40 p.bytes) (ticketOf s h 0x40) p) h.ring).cqTail = (ringOf s h.ring).cqTail := by
  have hch := fetched_changes s h 0x40 p.bytes
  have htail := (SameRing.fetched s h 0x40 p.bytes).cqTail
  generalize fetched s h 0x40 p.bytes = u at *
  have hid : Changes [.hap] u (takeHapId u).1 := ch_hap (Changes.refl _ u) (by decide)
  have hnoted : Changes [.hap] u (playNoted u (ticketOf s h 0x40) p) := ch_hap hid (by decide)
  have hchans (n : Nat) : chanOf (playNoted u (ticketOf s h 0x40) p) n = chanOf s n := by
    show chanOf u n = _
    rw [chanOf, chanOf, hch.hap (by decide)]
  have hkey (k : Nat) : getN (playNoted u (ticketOf s h 0x40) p) k = getN s k := hch.getN (by decide) (by decide) k
  exact ⟨(hch.mono (by decide)).trans (hnoted.mono (by decide)),
    fun n => ⟨hch.now (by decide), hchans n, fun _ => ⟨hkey _, channelOpen_congr (hkey _) (hkey _) (hkey _)⟩⟩, htail⟩

theorem hapticPlay_now (hok : playOk s (getN s (K.ringOwner h.ring)) p = true) (hstart : p.start.toNat ≤ s.now)
    (hfree : ∀ n, n < 16 → bitOf p.chans.toNat n = true → channelOpen s n = true ∧ (chanOf s n).run = none ∧ (chanOf s n).ons = [])
    (hshort : effTotal { id := 0, func := 0, effect := p.effect.toNat, cls := 0, due := 0 } + 4 * msec ≤ 200 * msec) :
    ∃ t, exec (.hapticPlay h p) s = .next t ∧ (ringOf t h.ring).cqTail = (ringOf s h.ring).cqTail ∧
      (∀ n, n < 16 → bitOf p.chans.toNat n = true → chSt t n = chAttack ∧ ∃ e, (chanOf t n).run = some e ∧
        e.effect = p.effect.toNat ∧ e.cls = p.cls.toNat ∧ e.scale = p.scale.toNat ∧ e.due = s.now) ∧
      (∀ n, n < 16 → bitOf p.chans.toNat n = false → chanOf t n = chanOf s n) ∧
      onlyObjs ((playChans p).flatMap startKeys) s t := by
  have hexec := hapticPlay_run hf hok
  have hnow : (if p.start.toNat < s.now then s.now else p.start.toNat) = s.now := by
    split <;> omega
  rw [hnow] at hexec
  obtain ⟨hch, hsame, htail⟩ := noted_spec s h p
  generalize playNoted (fetched s h 0x40 p.bytes) (ticketOf s h 0x40) p = u at *
  have hready : ∀ n ∈ playChans p, Free s.now p u n := fun n hn => by
    obtain ⟨hlt, hbit⟩ := mem_playChans.1 hn
    obtain ⟨hopen, hnone, hons⟩ := hfree n hlt hbit
    obtain ⟨hunow, hchan, hstate⟩ := hsame n
    refine ⟨hunow, hlt, (hstate hlt).2.trans hopen, by rw [hchan]; exact hnone, fun e he => effFits_free (by rw [hchan]; exact hnone)
      (by rw [hchan]; exact hons) ?_⟩
    have htotal : effTotal e = effTotal { id := 0, func := 0, effect := p.effect.toNat, cls := 0, due := 0 } := by
      simp only [effTotal, he]
    rw [htotal]
    exact hshort
  obtain ⟨hplaying, hkept, hobjs, hparts⟩ := (playWorks (ticketOf s h 0x40) (takeHapId (fetched s h 0x40 p.bytes)).2 p s.now).foldN
    (playChans_nodup p) hready
  refine ⟨_, hexec, ?_, fun n hn hbit => ?_, fun n hn hbit => ?_, onlyObjs_trans (hch.only (by decide) (by decide) _) hobjs⟩
  · rw [ringOf, hparts.rings (by decide)]
    exact htail
  · obtain ⟨-, hattack, e, he⟩ := hplaying n (mem_playChans.2 ⟨hn, hbit⟩)
    exact ⟨hattack, e, he⟩
  · exact (hkept n fun hmem => by rw [(mem_playChans.1 hmem).2] at hbit; cases hbit).2.1.trans (hsame n).2.1

theorem hapticPlay_later (hok : playOk s (getN s (K.ringOwner h.ring)) p = true) (hstart : s.now < p.start.toNat) :
    ∃ t, exec (.hapticPlay h p) s = .next t ∧ (ringOf t h.ring).cqTail = (ringOf s h.ring).cqTail ∧
      (∀ n, n < 16 → bitOf p.chans.toNat n = true → ∃ e, (chanOf t n).waits = (chanOf s n).waits ++ [e] ∧
        e.effect = p.effect.toNat ∧ e.due = p.start.toNat) ∧
      (∀ n, n < 16 → bitOf p.chans.toNat n = false → chanOf t n = chanOf s n) ∧ Changes [.fresh, .rings, .hap, .host] s t := by
  have hexec := hapticPlay_run hf hok
  rw [if_neg (by omega)] at hexec
  obtain ⟨hch, hsame, htail⟩ := noted_spec s h p
  generalize playNoted (fetched s h 0x40 p.bytes) (ticketOf s h 0x40) p = u at *
  have hrecord (n : Nat) : SameRecord s u n := ⟨(hsame n).1, (hsame n).2.1⟩
  obtain ⟨hwaits, hkept, hparts⟩ := (waitWorks (ticketOf s h 0x40) (takeHapId (fetched s h 0x40 p.bytes)).2 p p.start.toNat s hstart).foldN
    (playChans_nodup p) (s := u) fun n _ => hrecord n
  refine ⟨_, hexec, ?_, fun n hn hbit => hwaits n (mem_playChans.2 ⟨hn, hbit⟩), fun n hn hbit => ?_,
    (hch.mono (by decide)).trans (hparts.mono (by decide))⟩
  · rw [ringOf, hparts.rings (by decide)]
    exact htail
  · exact (hkept n fun hmem => by rw [(mem_playChans.1 hmem).2] at hbit; cases hbit).2.trans (hrecord n).2

end

/-! ## The haptics -/

open Sys2Proof.Proofs.HapticEffects
open Sys2Proof.Proofs.HapticTrips
open Sys2Proof.Proofs.HapticDrivers
open Sys2Proof.Proofs.HapticEnable (hapEnable_spec hapDisable_spec)

/-- Settles O52: an effect's phases by the end, the start and the queueing of an effect on its channel; the start and the stop of the ZH-17
by folds over its channels, each step of which leaves the other channels alone. -/
theorem hapticCommands : Obligations.HapticCommands := by
  unfold Obligations.HapticCommands
  refine ⟨fun s n e hwaits hdue hopen => ⟨effectDue_starts hwaits hdue hopen, fun x => effectDue_preempts hwaits hdue hopen,
      fun x => effectDue_waits hwaits hdue hopen⟩,
    fun s n e hrun => ⟨attackEnd_spec hrun, brakingStart_brakes hrun, fun x q peak => brakingStart_overlay hrun peak, brakingEnd_spec hrun,
      fun x q => queueHeadTimeout_spec hrun, fun hready hspare hqueue => ⟨fun hdue => ?_, fun hduty => ?_⟩, accelTimeout_spec hrun⟩,
    fun s n e d => effectDeadline_spec, fun s n e q hidle hopen _ hqueue hfits => effectFits_spec hidle hopen hqueue hfits,
    fun s n cause cap => hapTrip_spec,
    fun s n cap hstate => ⟨fun a hprobe hdue => ⟨fun hlow hhigh hready hspare hqueue => ?_, fun hout => ?_⟩,
      fun r i h hmgr => ⟨chReset_passes hstate h hmgr, chReset_fails hstate h hmgr⟩⟩,
    fun s n ok => ⟨driverFault_retried s n ok, driverFault_spare, driverFault_lost ok⟩,
    fun s r i hquiet hmgr hnot => ⟨hapEnable_spec hquiet hmgr hnot, hapDisable_spec hquiet hmgr hnot⟩,
    fun s => hapReady_spec, fun s => interlockOpen_spec, interlockClosed_spec,
    fun s h p hf => ⟨hapticPlay_refused hf, fun hok => ⟨hapticPlay_now hf hok, hapticPlay_later hf hok⟩⟩⟩
  · obtain ⟨hidle, hfree, hlimit, hdropped⟩ := limitCut_spec hrun 1 (outcome := effOnTime) (by decide) hready hspare hqueue
    exact ⟨_, onTimeCut_run hrun hdue, hidle, hfree, hlimit, hdropped⟩
  · obtain ⟨hidle, hfree, hlimit, hdropped⟩ := limitCut_spec hrun 2 (outcome := effDuty) (by decide) hready hspare hqueue
    exact ⟨_, dutyCut_run hrun hduty, hidle, hfree, hlimit, hdropped⟩
  · exact ⟨_, tripProbe_run hstate hprobe hdue, probe_passes n.isLt hlow hhigh hready hspare hqueue⟩
  · obtain ⟨hkept, hgone, hobjs⟩ := probe_fails n.isLt hout
    exact ⟨_, tripProbe_run hstate hprobe hdue, hkept.trans hstate, hgone, hobjs⟩

end Sys2Proof.Proofs.HapticPlay

/-!
PROOFS. O51, its first part: contacts that do not move, and the Drift scan (R351, R357, R358).
-/

namespace Sys2Proof.Proofs.TouchPanels

open Sys2Proof.Machine
open Sys2Proof.Proofs.HapticChannels (getN_kept)
open Sys2Proof.Proofs.FrameEvents (emit_changes emit_onlyAndNotes getN_emit pend_emit)

/-! ## The objects and the records of the panels -/

theorem touchKey_note {idx sub : Nat} (hidx : 0x4400 ≤ idx ∧ idx < 0x4500) (hsub : sub < 256) : ¬ noteKey (objKey idx sub) := by
  simp only [noteKey, K.dictNotifyDrop, K.regVoteFix, K.regVoteBad, K.kaolinCanDrop, K.logOut, objKey]
  omega

theorem touchKey_not_health {idx sub : Nat} (hidx : idx < 0x4500) (hsub : sub < 256) : objKey idx sub ∉ healthKeys := by
  simp only [healthKeys, List.mem_cons, List.mem_map, List.mem_range, K.healthModule, K.healthSub, objKey]
  grind

theorem modPanel_changes (s : State) (p : Nat) (g : Panel → Panel) : Changes [.panels] s (modPanel s p g) :=
  modPanel_ch (List.Subset.refl _) (Changes.refl _ s)

/-- A step at one panel: no time passes, the panel's record is the one given, and the objects but those named stay. -/
structure PanelStep (p : Nat) (ks : List Nat) (P : Panel) (s t : State) : Prop where
  now : t.now = s.now
  panel : panelOf t p = P
  objs : onlyObjsAndNotes ks s t

namespace PanelStep

variable {p : Nat} {ks : List Nat} {P Q : Panel} {r s t : State}

theorem refl (p : Nat) (ks : List Nat) (s : State) : PanelStep p ks (panelOf s p) s s :=
  ⟨rfl, rfl, onlyAndNotes_of_only (onlyObjs_refl _ s)⟩

theorem trans (h : PanelStep p ks P r s) (h' : PanelStep p ks Q s t) : PanelStep p ks Q r t :=
  ⟨h'.now.trans h.now, h'.panel, onlyAndNotes_trans h.objs h'.objs⟩

theorem mono {ks' : List Nat} (h : PanelStep p ks P r s) (hks : ∀ k ∈ ks, k ∈ ks') : PanelStep p ks' P r s :=
  ⟨h.now, h.panel, fun k hk => h.objs k fun hmem => hk (hks k hmem)⟩

/-- A step that touches neither the panels nor the time. -/
theorem quiet (h : PanelStep p ks P r s) (hnow : t.now = s.now) (hpanels : t.panels = s.panels) (hobjs : onlyObjsAndNotes ks s t) :
    PanelStep p ks P r t := ⟨hnow.trans h.now, by rw [panelOf, hpanels, ← panelOf, h.panel], onlyAndNotes_trans h.objs hobjs⟩

theorem of_changes {L : List Part} (h : PanelStep p ks P r s) (hch : Changes L s t)
    (hL : Part.now ∉ L ∧ Part.panels ∉ L ∧ Part.objs ∉ L) : PanelStep p ks P r t :=
  h.quiet (hch.now hL.1) (hch.panels hL.2.1) (onlyAndNotes_of_changes hch hL.2.2)

theorem emit {cls code inst : Nat} {detail : List Byte} {fs : List Nat} (h : PanelStep p ks P r s) :
    PanelStep p ks P r (emit s cls code inst detail fs) := h.of_changes (emit_changes s cls code inst detail fs) (by decide)

theorem putV {k : Nat} {v : Val} (h : PanelStep p ks P r s) (hk : k ∈ ks) : PanelStep p ks P r (putV s k v) :=
  h.quiet rfl rfl (onlyAndNotes_of_only (onlyObjs_putV v hk (onlyObjs_refl _ s)))

theorem putN {k v : Nat} (h : PanelStep p ks P r s) (hk : k ∈ ks) : PanelStep p ks P r (putN s k v) := h.putV hk

theorem bump {k : Nat} (h : PanelStep p ks P r s) (hk : k ∈ ks) : PanelStep p ks P r (bump s k) := h.putV hk

theorem modPanel {g : Panel → Panel} (h : PanelStep p ks P r s) : PanelStep p ks (g P) r (modPanel s p g) :=
  ⟨h.now, (panelOf_modPanel s p g).trans (by rw [h.panel]), h.objs⟩

theorem updateHealth (h : PanelStep p ks P r s) (hks : ∀ k ∈ healthKeys, k ∈ ks) : PanelStep p ks P r (updateHealth s) := by
  have hch : Changes [.fresh, .objs, .voteSecond, .funcs, .sess, .frames, .grog, .notes] s (Machine.updateHealth s) :=
    updateHealth_ch (List.Subset.refl _) (Changes.refl _ s)
  have hobjs := ModeFrame.updateHealth_objs s
  exact h.quiet (hch.now (by decide)) (hch.panels (by decide)) fun k hk => hobjs k fun hmem => hk (hks k hmem)

/-- An object of the panels that the step does not name. -/
theorem getN {idx sub : Nat} (h : PanelStep p ks P r s) (hk : objKey idx sub ∉ ks) (hidx : 0x4400 ≤ idx ∧ idx < 0x4500) (hsub : sub < 256) :
    getN s (objKey idx sub) = getN r (objKey idx sub) := getN_kept h.objs hk (touchKey_note hidx hsub)

end PanelStep

/-! ## A contact that does not move (R351) -/

/-- The nodes that are relearnt take their raw counts as their baselines. -/
def relearnt (nodes : List Nat) (P : Panel) : Panel := nodes.foldl (fun P i => rebase P i ((P.raw.getD i 0 : Nat) : ℚ)) P

theorem relearnt_contacts (nodes : List Nat) (P : Panel) :
    (relearnt nodes P).contacts = P.contacts ∧ (relearnt nodes P).stuck = P.stuck := by
  induction nodes generalizing P with
  | nil => exact ⟨rfl, rfl⟩
  | cons i nodes ih => exact ih (rebase P i ((P.raw.getD i 0 : Nat) : ℚ))

/-- The nodes of a contact and their neighbours. -/
def contactRing (s : State) (p : Nat) (c : Contact) : List Nat :=
  (List.range (panTx s p * panRx s p)).filter (fun i => c.nodes.any (fun a => nodesTouch (panRx s p) a i))

/-- A contact has ended STUCK. -/
def stuckPanel (s : State) (p id : Nat) (c : Contact) (P : Panel) : Panel :=
  relearnt (contactRing s p c) { P with contacts := P.contacts.filter (fun x => x.id != id), stuck := P.stuck ++ [c] }

/-- The counts that show it. -/
def stuckShown (s : State) (p : Nat) : State :=
  bump (putN (showSuspects s p) (K.panelContacts p) (panelOf (showSuspects s p) p).contacts.length) (K.panelStuckCount p)

/-- What the event of a stuck contact tells. -/
def stuckDetail (now p id : Nat) (c : Contact) : List Byte :=
  leBytes 1 p ++ leBytes 1 id ++ leBytes 2 c.x ++ leBytes 2 c.y ++ leBytes 2 ((now - c.since) / 1000000000)

theorem exec_stuckTimeout {s : State} {p : Fin 4} {id : Fin 16} {c : Contact} (hactive : panSt s p = panActive)
    (hlimit : (panelOf s p).limit ≠ 0) (hfind : (panelOf s p).contacts.find? (fun c => c.id == id.val) = some c)
    (hdue : c.since + (panelOf s p).limit * 1000000000 ≤ s.now) : ∃ now fs, exec (.stuckTimeout p id) s =
      .next (emit (stuckShown (modPanel s p (stuckPanel s p id c)) p) 4 0x0401 p (stuckDetail now p id c) fs) := by
  refine ⟨(stuckShown (modPanel s p (stuckPanel s p id c)) p).now, touchFuncs (stuckShown (modPanel s p (stuckPanel s p id c)) p) p, ?_⟩
  show execStuckTimeout p id s = _
  unfold execStuckTimeout
  dsimp only
  rw [hfind]
  refine if_neg ?_
  rw [not_or, not_or]
  exact ⟨not_not.2 hactive, hlimit, by omega⟩

theorem stuckTimeout_spec {s : State} {p : Fin 4} {id : Fin 16} {c : Contact} (hactive : panSt s p = panActive)
    (hlimit : (panelOf s p).limit ≠ 0) (hfind : (panelOf s p).contacts.find? (fun c => c.id == id.val) = some c)
    (hdue : c.since + (panelOf s p).limit * 1000000000 ≤ s.now) :
    ∃ t, exec (.stuckTimeout p id) s = .next t ∧ (panelOf t p).contacts = (panelOf s p).contacts.filter (fun x => x.id != id.val) ∧
      (panelOf t p).stuck = (panelOf s p).stuck ++ [c] ∧ getN t (K.panelStuckCount p) = satInc 32 (getN s (K.panelStuckCount p)) ∧
      bitOf (funcOf t 0).evtPend 4 = true ∧ onlyObjsAndNotes [K.panelSuspect p, K.panelContacts p, K.panelStuckCount p] s t := by
  obtain ⟨now, fs, hexec⟩ := exec_stuckTimeout hactive hlimit hfind hdue
  have hmod := (PanelStep.refl p.val [K.panelSuspect p, K.panelContacts p, K.panelStuckCount p] s).modPanel (g := stuckPanel s p id c)
  have hcount : getN (modPanel s p (stuckPanel s p id c)) (K.panelStuckCount p) = getN s (K.panelStuckCount p) := rfl
  generalize modPanel s p (stuckPanel s p id c) = u at *
  have hshown : PanelStep p [K.panelSuspect p, K.panelContacts p, K.panelStuckCount p] (stuckPanel s p id c (panelOf s p)) s (stuckShown u p) :=
    ((hmod.putN (k := K.panelSuspect p) (.head _)).putN (.tail _ (.head _))).bump (.tail _ (.tail _ (.head _)))
  have hbumped : getN (stuckShown u p) (K.panelStuckCount p) = satInc 32 (getN u (K.panelStuckCount p)) := by
    refine (getN_bump ..).trans (congrArg _ ?_)
    exact (getN_putN_ne _ _ (by simp only [K.panelStuckCount, K.panelContacts, objKey]; omega)).trans
      (getN_putN_ne _ _ (by simp only [K.panelStuckCount, K.panelSuspect, objKey]; omega))
  generalize stuckShown u p = v at *
  have hemit := hshown.emit (cls := 4) (code := 0x0401) (inst := p) (detail := stuckDetail now p id c) (fs := fs)
  have hkept : getN (emit v 4 0x0401 p (stuckDetail now p id c) fs) (K.panelStuckCount p) = getN v (K.panelStuckCount p) :=
    getN_emit v 4 0x0401 p (stuckDetail now p id c) fs (touchKey_note (idx := 0x4430 + p) (sub := 7) (by omega) (by decide))
  obtain ⟨hcontacts, hstuck⟩ := relearnt_contacts (contactRing s p c)
    { panelOf s p with contacts := (panelOf s p).contacts.filter (fun x => x.id != id.val), stuck := (panelOf s p).stuck ++ [c] }
  exact ⟨_, hexec, by rw [hemit.panel]; exact hcontacts, by rw [hemit.panel]; exact hstuck,
    hkept.trans (hbumped.trans (congrArg _ hcount)), pend_emit .., hemit.objs⟩

/-! ## Drift (R357, R358) -/

theorem driftEntry_spec {s : State} {p : Fin 4} (hactive : panSt s p = panActive) (hafter : getN s (K.panelDriftAfter p) ≠ 0)
    (hcontacts : (panelOf s p).contacts = []) (hlarge : (panelOf s p).large = []) (htest : (panelOf s p).testing = false)
    (hdue : (panelOf s p).quietSince + getN s (K.panelDriftAfter p) * 1000000000 ≤ s.now) :
    ∃ t, exec (.driftEntry p) s = .next t ∧ panSt t p = panDrift ∧ onlyObjs [K.panelState p] s t ∧ Changes [.objs, .panels] s t := by
  refine ⟨modPanel (putN s (K.panelState p) panDrift) p (fun P => { P with dbase := [], dover := [], driftAt := s.now }), ?_, getN_putN ..,
    onlyObjs_trans (onlyObjs_putN _ (.head _) (onlyObjs_refl _ s)) (onlyObjs_of_eq rfl), modPanel_ch (by decide) (putN_ch (by decide) (Changes.refl _ s))⟩
  show execDriftEntry p s = _
  unfold execDriftEntry
  dsimp only
  rw [hcontacts, hlarge, htest]
  exact if_pos ⟨hactive, hafter, rfl, rfl, rfl, hdue⟩

/-- The step of a frame's channel check at one chiplet. -/
def checkStep (p : Nat) (a : State × Bool) (e : Nat × Bool × Bool × Bool) : State × Bool :=
  let c := e.1
  let ch := tget (panelOf a.1 p).chanNext c 0
  let s := modPanel a.1 p (fun P => { P with chanNext := tset P.chanNext c ((ch + 1) % 132) })
  if e.2.1 || e.2.2.1 then (s, a.2)
  else
    let (s, served) := spareChannel s p c ch (fun _ => e.2.2.2) 2
    (s, a.2 && served)

theorem checkChannels_eq (s : State) (p : Nat) (oks : List (Bool × Bool × Bool)) :
    checkChannels s p oks = ((panelChips s p).zip oks).foldl (checkStep p) (s, true) := rfl

theorem checkStep_pass (p : Nat) (a : State × Bool) {e : Nat × Bool × Bool × Bool} (he : e.2.1 = true) :
    ∃ l, checkStep p a e = (modPanel a.1 p (fun P => { P with chanNext := l }), a.2) := by
  refine ⟨tset (panelOf a.1 p).chanNext e.1 ((tget (panelOf a.1 p).chanNext e.1 0 + 1) % 132), if_pos ?_⟩
  rw [he, Bool.true_or]

theorem checkFold_pass (p : Nat) (l : List (Nat × Bool × Bool × Bool)) (hl : ∀ e ∈ l, e.2.1 = true) (a : State × Bool) :
    (l.foldl (checkStep p) a).2 = a.2 ∧ Changes [.panels] a.1 (l.foldl (checkStep p) a).1 ∧
    ∃ m, panelOf (l.foldl (checkStep p) a).1 p = { panelOf a.1 p with chanNext := m } := by
  induction l generalizing a with
  | nil => exact ⟨rfl, Changes.refl _ _, (panelOf a.1 p).chanNext, rfl⟩
  | cons e l ih =>
    obtain ⟨m, hstep⟩ := checkStep_pass p a (hl e (.head _))
    obtain ⟨hserved, hch, m', hpanel⟩ := ih (fun e' he' => hl e' (.tail _ he')) (checkStep p a e)
    rw [List.foldl_cons]
    rw [hstep] at hserved hch hpanel ⊢
    exact ⟨hserved, (modPanel_changes a.1 p (fun P => { P with chanNext := m })).trans hch, m', hpanel.trans (by rw [panelOf_modPanel])⟩

/-- A check whose channels all pass moves the next channels on and no more. -/
theorem checkChannels_pass (s : State) (p : Nat) {oks : List (Bool × Bool × Bool)} (hok : ∀ e ∈ oks, e.1 = true) :
    (checkChannels s p oks).2 = true ∧ Changes [.panels] s (checkChannels s p oks).1 ∧
    ∃ l, panelOf (checkChannels s p oks).1 p = { panelOf s p with chanNext := l } := by
  rw [checkChannels_eq]
  exact checkFold_pass p _ (fun e he => hok e.2 (List.of_mem_zip he).2) (s, true)

/-- The groups' baselines that a Drift frame compares with: at the first frame, the frame itself. -/
def driftBase (P : Panel) (raws : List Nat) : List ℚ := if P.dbase.isEmpty then raws.map (fun r => ((r : Nat) : ℚ)) else P.dbase

/-- The groups' baselines and counts after a Drift frame. -/
def driftNext (s : State) (p : Nat) (raws : List Nat) : List (ℚ × Nat) :=
  raws.zipIdx.map (fun e => driftGroup ((getN s (K.panelThr p) : Nat) : ℚ) ((getN s (K.panelDriftThr p) : Nat) : ℚ)
    ((driftBase (panelOf s p) raws).getD e.2 0) e.1 ((panelOf s p).dover.getD e.2 0))

/-- A Drift frame's groups, stored. -/
def driftStored (s : State) (p : Nat) (raws : List Nat) : State :=
  modPanel s p (fun P => { P with dbase := (driftNext s p raws).map (·.1), dover := (driftNext s p raws).map (·.2), driftAt := s.now })

/-- A Drift frame that wakes the panel. -/
def driftWoken (s : State) (p : Nat) : State :=
  modPanel (leaveDrift (bump s (K.panelDriftWakes p)) p) p (fun P => { P with
    woke := true, markAt := 0, bufs := P.bufs.map (fun e => (e.1, { e.2 with wake := true })) })

theorem exec_driftFrame {s : State} {p : Fin 4} {gs : List (BitVec 12)} {ok : List (Bool × Bool × Bool)} (hdrift : panSt s p = panDrift)
    (hlen : gs.length = ceilDiv (panTx s p + panRx s p) 8) (hdue : (panelOf s p).driftAt + 50 * msec ≤ s.now) (hok : ∀ e ∈ ok, e.1 = true) :
    exec (.driftFrame p gs ok) s =
      if (driftNext s p (gs.map (·.toNat))).any (fun e => decide (2 ≤ e.2)) then
        .next (driftWoken (checkChannels (driftStored s p (gs.map (·.toNat))) p ok).1 p)
      else .next (checkChannels (driftStored s p (gs.map (·.toNat))) p ok).1 := by
  have hexec : exec (.driftFrame p gs ok) s =
      if panSt s p ≠ panDrift ∨ gs.length ≠ ceilDiv (panTx s p + panRx s p) 8 ∨ s.now < (panelOf s p).driftAt + 50 * msec then .next s
      else if !(checkChannels (driftStored s p (gs.map (·.toNat))) p ok).2 then
        .next (panelFails (checkChannels (driftStored s p (gs.map (·.toNat))) p ok).1 p)
      else if (driftNext s p (gs.map (·.toNat))).any (fun e => decide (2 ≤ e.2)) then
        .next (driftWoken (checkChannels (driftStored s p (gs.map (·.toNat))) p ok).1 p)
      else .next (checkChannels (driftStored s p (gs.map (·.toNat))) p ok).1 := rfl
  rw [hexec, (checkChannels_pass (driftStored s p (gs.map (·.toNat))) p hok).1]
  refine (if_neg ?_).trans (if_neg (by decide))
  rw [not_or, not_or]
  exact ⟨not_not.2 hdrift, not_not.2 hlen, by omega⟩

theorem getD_map_cast (raws : List Nat) (i : Nat) : (raws.map (fun r => ((r : Nat) : ℚ))).getD i 0 = ((raws.getD i 0 : Nat) : ℚ) := by
  rw [List.getD_eq_getElem?_getD, List.getD_eq_getElem?_getD, List.getElem?_map]
  cases raws[i]? <;> rfl

/-- The first Drift frame gives every group its own raw value as baseline, and counts none above the threshold. -/
theorem driftNext_first (s : State) (p : Nat) (raws : List Nat) (hfirst : (panelOf s p).dbase = []) :
    driftNext s p raws = raws.map (fun r => (((r : Nat) : ℚ), 0)) := by
  have hgroup : ∀ (thr : ℚ) (limit r count : Nat), driftGroup thr (limit : ℚ) (r : ℚ) r count = ((r : ℚ), 0) := by
    intro thr limit r count
    have hlimit : ¬ ((limit : Nat) : ℚ) < 0 := not_lt.2 (Nat.cast_nonneg _)
    simp only [driftGroup, sub_self, if_neg hlimit, zero_div, add_zero, ite_self]
  have hbase : driftBase (panelOf s p) raws = raws.map (fun r => ((r : Nat) : ℚ)) := by rw [driftBase, hfirst]; rfl
  rw [driftNext, hbase]
  refine List.ext_getElem (by simp) fun i hi _ => ?_
  have hir : i < raws.length := by simpa using hi
  simp only [List.getElem_map, List.getElem_zipIdx, getD_map_cast, zero_add, List.getD_eq_getElem _ _ hir, hgroup]

/-- A group above the Drift threshold in its second frame is among those that wake the panel. -/
theorem driftNext_wakes (s : State) (p : Nat) {raws : List Nat} {j : Nat} (hj : j < raws.length) (hlater : (panelOf s p).dbase ≠ [])
    (hover : 1 ≤ (panelOf s p).dover.getD j 0)
    (habove : ((getN s (K.panelDriftThr p) : Nat) : ℚ) < ((raws.getD j 0 : Nat) : ℚ) - (panelOf s p).dbase.getD j 0) :
    (driftNext s p raws).any (fun e => decide (2 ≤ e.2)) = true := by
  have hbase : driftBase (panelOf s p) raws = (panelOf s p).dbase := if_neg (by simpa using hlater)
  rw [List.any_eq_true]
  refine ⟨_, List.mem_map_of_mem (List.mk_mem_zipIdx_iff_getElem?.2 (List.getElem?_eq_getElem hj)), decide_eq_true ?_⟩
  rw [List.getD_eq_getElem _ _ hj] at habove
  simp only [driftGroup, hbase, if_pos habove]
  omega

theorem driftStored_changes (s : State) (p : Nat) (raws : List Nat) : Changes [.panels] s (driftStored s p raws) := modPanel_changes ..

/-- The first Drift frame. -/
theorem driftFrame_first {s : State} {p : Fin 4} {gs : List (BitVec 12)} {ok : List (Bool × Bool × Bool)} (hdrift : panSt s p = panDrift)
    (hlen : gs.length = ceilDiv (panTx s p + panRx s p) 8) (hdue : (panelOf s p).driftAt + 50 * msec ≤ s.now) (hok : ∀ e ∈ ok, e.1 = true)
    (hfirst : (panelOf s p).dbase = []) :
    ∃ t, exec (.driftFrame p gs ok) s = .next t ∧ panSt t p = panDrift ∧
      (panelOf t p).dbase = gs.map (fun g => ((g.toNat : Nat) : ℚ)) ∧ onlyObjs [] s t ∧ Changes [.panels] s t := by
  have hnext := driftNext_first s p (gs.map (·.toNat)) hfirst
  have hnone : (driftNext s p (gs.map (·.toNat))).any (fun e => decide (2 ≤ e.2)) = false := by
    rw [hnext, List.any_eq_false]
    intro e he
    obtain ⟨r, -, rfl⟩ := List.mem_map.1 he
    exact Bool.false_ne_true
  obtain ⟨-, hch, l, hpanel⟩ := checkChannels_pass (driftStored s p (gs.map (·.toNat))) p hok
  have hall : Changes [.panels] s (checkChannels (driftStored s p (gs.map (·.toNat))) p ok).1 := (driftStored_changes ..).trans hch
  refine ⟨_, (exec_driftFrame hdrift hlen hdue hok).trans (if_neg (by rw [hnone]; decide)),
    (hall.getN (by decide) (by decide) (K.panelState p)).trans hdrift, ?_,
    onlyObjs_of_eq (hall.objs (by decide) (by decide)), hall⟩
  rw [hpanel, driftStored, panelOf_modPanel]
  show (driftNext s p (gs.map (·.toNat))).map (·.1) = _
  rw [hnext, List.map_map, List.map_map]
  rfl

/-- A panel that a Drift frame wakes. -/
theorem driftWoken_spec {s : State} {p : Nat} (hdrift : panSt s p = panDrift) :
    panSt (driftWoken s p) p = panActive ∧ (panelOf (driftWoken s p) p).woke = true ∧
    getN (driftWoken s p) (K.panelDriftWakes p) = satInc 32 (getN s (K.panelDriftWakes p)) ∧
    onlyObjs [K.panelState p, K.panelDriftWakes p] s (driftWoken s p) := by
  have hne : K.panelDriftWakes p ≠ K.panelState p := by simp only [K.panelDriftWakes, K.panelState, objKey]; omega
  have hleave : leaveDrift (bump s (K.panelDriftWakes p)) p =
      modPanel (putN (bump s (K.panelDriftWakes p)) (K.panelState p) panActive) p
        (fun P => { P with quietSince := s.now, dbase := [], dover := [] }) := if_pos ((getN_bump_ne s hne.symm).trans hdrift)
  refine ⟨?_, ?_, ?_, ?_⟩
  · rw [driftWoken, hleave]; exact getN_putN ..
  · rw [driftWoken, panelOf_modPanel]
  · rw [driftWoken, hleave]; exact (getN_putN_ne _ _ hne).trans (getN_bump ..)
  · rw [driftWoken, hleave]
    exact onlyObjs_putN _ (.head _) (onlyObjs_bump (.tail _ (.head _)) (onlyObjs_refl _ s))

/-- A later Drift frame with a group above the threshold for the second time. -/
theorem driftFrame_wakes {s : State} {p : Fin 4} {gs : List (BitVec 12)} {ok : List (Bool × Bool × Bool)} (hdrift : panSt s p = panDrift)
    (hlen : gs.length = ceilDiv (panTx s p + panRx s p) 8) (hdue : (panelOf s p).driftAt + 50 * msec ≤ s.now) (hok : ∀ e ∈ ok, e.1 = true)
    {j : Nat} (hj : j < gs.length) (hlater : (panelOf s p).dbase ≠ []) (hover : 1 ≤ (panelOf s p).dover.getD j 0)
    (habove : ((getN s (K.panelDriftThr p) : Nat) : ℚ) < (((gs.getD j 0).toNat : Nat) : ℚ) - (panelOf s p).dbase.getD j 0) :
    ∃ t, exec (.driftFrame p gs ok) s = .next t ∧ panSt t p = panActive ∧ (panelOf t p).woke = true ∧
      getN t (K.panelDriftWakes p) = satInc 32 (getN s (K.panelDriftWakes p)) ∧ onlyObjs [K.panelState p, K.panelDriftWakes p] s t := by
  have hraw : (gs.map (·.toNat)).getD j 0 = (gs.getD j 0).toNat := by
    rw [List.getD_eq_getElem _ _ (by simpa using hj), List.getElem_map, List.getD_eq_getElem _ _ hj]
  have hwakes : (driftNext s p (gs.map (·.toNat))).any (fun e => decide (2 ≤ e.2)) = true :=
    driftNext_wakes s p (by simpa using hj) hlater hover (by rw [hraw]; exact habove)
  obtain ⟨-, hch, -⟩ := checkChannels_pass (driftStored s p (gs.map (·.toNat))) p hok
  have hall : Changes [.panels] s (checkChannels (driftStored s p (gs.map (·.toNat))) p ok).1 := (driftStored_changes ..).trans hch
  refine ⟨_, (exec_driftFrame hdrift hlen hdue hok).trans (if_pos hwakes), ?_⟩
  generalize (checkChannels (driftStored s p (gs.map (·.toNat))) p ok).1 = u at hall ⊢
  obtain ⟨hact, hwoke, hcount, hobjs⟩ := driftWoken_spec ((hall.getN (by decide) (by decide) (K.panelState p)).trans hdrift : panSt u p = panDrift)
  exact ⟨hact, hwoke, hcount.trans (congrArg _ (hall.getN (by decide) (by decide) (K.panelDriftWakes p))),
    onlyObjs_trans (onlyObjs_of_eq (hall.objs (by decide) (by decide))) hobjs⟩

end Sys2Proof.Proofs.TouchPanels

/-!
PROOFS. O51, its second part: panel.ref.capture and panel.test.run (R343, R361), the end of a shut-down (R363) and TOUCH_BUF (R354, R355).
-/

namespace Sys2Proof.Proofs.TouchWrites

open Sys2Proof.Machine
open Sys2Proof.Proofs.AreaWrites (areaWrite_refused)
open Sys2Proof.Proofs.ClocksAndSpares (areaWrite_unclaimed)
open Sys2Proof.Proofs.VirtualFunctions (isMgr_session)
open Sys2Proof.Proofs.DeviceFrame
open Sys2Proof.Proofs.Answers (SameQueue complete_ticketDone)
open Sys2Proof.Proofs.CoreFaults (ticketDone_after)
open Sys2Proof.Proofs.WordStore (leBytes_add_mul)
open Sys2Proof.Proofs.LayersAndCommits (onlyAndNotes_fetched onlyAndNotes_answered)
open Sys2Proof.Proofs.TouchPanels

/-! ## The two actions (R343, R361) -/

/-- The objects of the actions lie in an area of their own. -/
theorem areaApply_capture (s : State) (c : WCtx) (p : Fin 4) (sub : Nat) (x : Val) :
    areaApply s c (0x4440 + p) sub x = accepted (captureApply s p sub x) := by
  fin_cases p <;> simp [areaApply]

theorem areaCheck_capture (s : State) (c : WCtx) (p : Fin 4) (sub : Nat) (x : Val) :
    areaCheck s c (0x4440 + p) sub x = captureCheck s p sub := by
  fin_cases p <;> simp [areaCheck]

theorem areaClaims_capture (s : State) (p : Fin 4) (sub v : Nat) (hsub : sub < 256) : areaClaims s (0x4440 + p) sub v = ([], 0) := by
  have hkeys : objKey (0x4440 + p) sub ≠ K.hapEnable ∧ objKey (0x4440 + p) sub ≠ K.sndEnable ∧ objKey (0x4440 + p) sub ≠ K.pwrReq := by
    simp only [K.pwrReq, K.hapEnable, K.sndEnable, objKey]
    omega
  obtain ⟨hhap, hsnd, hpwr⟩ := hkeys
  unfold areaClaims
  dsimp only
  rw [if_neg (by omega), if_neg (by omega), if_neg hhap, if_neg hsnd, if_neg (by omega), if_neg (by omega), if_neg hpwr, if_neg (by omega),
    if_neg (by omega)]

theorem areaAccess_capture (s : State) {c : WCtx} (p : Fin 4) (sub v : Nat) (hm : c.isMgr = true) : areaAccess s c (0x4440 + p) sub v = true := by
  fin_cases p <;> simp [areaAccess, hm]

section
variable {s : State} {r : DictReq} {i : Nat} {p : Fin 4} (hmgr : managerSession s i)
include hmgr

/-- A panel under a contact refuses both actions. -/
theorem capture_busy {sub : Nat} (hsub : sub = 2 ∨ sub = 3) (h : AdmittedWrite s r i (objKey (0x4440 + p) sub) 1)
    (hactive : sub = 2 → panSt s p = panActive) (hrow : rowIs (objKey (0x4440 + p) sub) .u8 .wo [(1, 1)] = true)
    (hcontact : (panelOf s p).contacts ≠ [] ∨ (panelOf s p).large ≠ []) :
    ∃ t, writeObject s r (objKey (0x4440 + p) sub) 1 = .next t ∧ answered t r 0x11 .busy ∧ Changes [.fresh, .sess, .resp] s t := by
  have hlt : sub < 256 := by omega
  have hbusy : (!(panelOf s p).contacts.isEmpty || !(panelOf s p).large.isEmpty) = true := by
    rcases hcontact with h | h <;> simp [h]
  have hcheck : captureCheck (renewed s i) p sub = .busy := by
    have hpanel : panelOf (renewed s i) p = panelOf s p := rfl
    have hstate : panSt (renewed s i) p = panSt s p := rfl
    unfold captureCheck
    dsimp only
    rw [hpanel, hbusy, hstate]
    obtain rfl | rfl := hsub
    · rw [hactive rfl]
      rfl
    · rfl
  exact areaWrite_refused hrow (.inr rfl) (by omega) hlt h (.inl hmgr) (areaAccess_capture (renewed s i) p sub 1 (isMgr_session hmgr)) (by rfl)
    (by rfl) ((areaCheck_capture ..).trans hcheck) (.inl (by rw [areaClaims_capture _ _ _ _ hlt])) (by decide) (by decide)

/-- An action that nothing forbids is carried out. -/
theorem capture_done {sub : Nat} (hsub : sub = 2 ∨ sub = 3) (h : AdmittedWrite s r i (objKey (0x4440 + p) sub) 1)
    (hactive : panSt s p = panActive) (hrow : rowIs (objKey (0x4440 + p) sub) .u8 .wo [(1, 1)] = true)
    (hcontacts : (panelOf s p).contacts = []) (hlarge : (panelOf s p).large = []) :
    ∃ t, writeObject s r (objKey (0x4440 + p) sub) 1 = .next t ∧ answered t r 0x11 .ok ∧
      Changes [.sess, .resp] (captureApply (renewed s i) p sub (.num 1)) t := by
  have hlt : sub < 256 := by omega
  have hcheck : captureCheck (renewed s i) p sub = .ok := by
    have hpanel : panelOf (renewed s i) p = panelOf s p := rfl
    have hstate : panSt (renewed s i) p = panSt s p := rfl
    unfold captureCheck
    dsimp only
    rw [hpanel, hcontacts, hlarge, hstate, hactive]
    obtain rfl | rfl := hsub <;> rfl
  exact areaWrite_unclaimed hrow (.inr rfl) (by omega) hlt h hmgr (areaAccess_capture (renewed s i) p sub 1 (isMgr_session hmgr)) (by rfl)
    (by rfl) ((areaCheck_capture ..).trans hcheck) (by rw [areaClaims_capture _ _ _ _ hlt]) (areaApply_capture ..)

end

/-- The reference that a capture stores: the baselines, two bytes each. -/
def capturedRef (s : State) (p : Nat) : List Byte := (panelOf s p).base.zipIdx.flatMap (fun e => leBytes 2 (wholeOf (s.fresh + e.2) e.1))

theorem captureApply_ref (s : State) (p : Nat) (v : Val) :
    captureApply s p 2 v = writeV { s with fresh := s.fresh + 17000 } (K.panelRef p) (.bytes (capturedRef s p)) := rfl

theorem length_flatMap_pairs {α : Type} (f : α → List Byte) (hf : ∀ a, (f a).length = 2) (l : List α) : (l.flatMap f).length = 2 * l.length := by
  induction l with
  | nil => rfl
  | cons a l ih => rw [List.flatMap_cons, List.length_append, hf, ih, List.length_cons]; omega

theorem length_capturedRef (s : State) (p : Nat) : (capturedRef s p).length = 2 * (panelOf s p).base.length := by
  rw [capturedRef, length_flatMap_pairs _ (fun _ => by rfl), List.length_zipIdx]

/-- Whole baselines are stored as they are. -/
theorem capturedRef_whole {s : State} {p : Nat} (hwhole : ∀ q ∈ (panelOf s p).base, q.den = 1) :
    capturedRef s p = (panelOf s p).base.flatMap (fun q => leBytes 2 q.floor.toNat) := by
  have hzip (l : List ℚ) (hl : ∀ q ∈ l, q.den = 1) (k : Nat) :
      (l.zipIdx k).flatMap (fun e => leBytes 2 (wholeOf (s.fresh + e.2) e.1)) = l.flatMap (fun q => leBytes 2 q.floor.toNat) := by
    induction l generalizing k with
    | nil => rfl
    | cons q l ih =>
      rw [List.zipIdx_cons, List.flatMap_cons, List.flatMap_cons, ih (fun q hq => hl q (.tail _ hq)), wholeOf, if_pos (.inl (hl q (.head _)))]
  exact hzip _ hwhole 0

section
variable {s : State} {r : DictReq} {i : Nat} {p : Fin 4} (hmgr : managerSession s i)
include hmgr

theorem panelRefCapture_spec (h : AdmittedWrite s r i (K.panelRefCapture p) 1) (hactive : panSt s p = panActive) :
    ((panelOf s p).contacts = [] → (panelOf s p).large = [] →
      ∃ t, exec (.panelRefCapture r p 1) s = .next t ∧ answered t r 0x11 .ok ∧
        (getBytes t (K.panelRef p)).length = 2 * (panelOf s p).base.length ∧
        ((∀ q ∈ (panelOf s p).base, q.den = 1) →
          getBytes t (K.panelRef p) = (panelOf s p).base.flatMap (fun q => leBytes 2 q.floor.toNat)) ∧
        onlyObjs [K.panelRef p] s t) ∧
    ((panelOf s p).contacts ≠ [] ∨ (panelOf s p).large ≠ [] → ∃ t, exec (.panelRefCapture r p 1) s = .next t ∧
      answered t r 0x11 .busy ∧ Changes [.fresh, .sess, .resp] s t) := by
  refine ⟨fun hcontacts hlarge => ?_, capture_busy hmgr (.inl rfl) h (fun _ => hactive) (row_panelRefCapture p)⟩
  obtain ⟨t, hexec, hans, hch⟩ := capture_done hmgr (.inl rfl) h hactive (row_panelRefCapture p) hcontacts hlarge
  rw [captureApply_ref] at hch
  have hpanel : panelOf (renewed s i) p = panelOf s p := rfl
  have hbytes : getBytes t (K.panelRef p) = capturedRef (renewed s i) p := by
    rw [getBytes, hch.getV (by decide) (by decide), getV_writeV]
    rfl
  refine ⟨t, hexec, hans, by rw [hbytes, length_capturedRef, hpanel], fun hwhole => by rw [hbytes, capturedRef_whole (s := renewed s i) hwhole, hpanel], ?_⟩
  have hrenewed : onlyObjs [K.panelRef p] s { renewed s i with fresh := (renewed s i).fresh + 17000 } := onlyObjs_of_eq rfl
  generalize { renewed s i with fresh := (renewed s i).fresh + 17000 } = u at *
  exact onlyObjs_trans (onlyObjs_writeV _ (.head _) hrenewed) (onlyObjs_of_eq (hch.objs (by decide) (by decide)))

theorem panelTestRun_spec (h : AdmittedWrite s r i (K.panelTestRun p) 1) :
    (panSt s p = panActive → (panelOf s p).contacts = [] → (panelOf s p).large = [] →
      ∃ t, exec (.panelTestRun r p 1) s = .next t ∧ answered t r 0x11 .ok ∧ panelOf t p = { panelOf s p with testing := true } ∧
        Changes [.panels, .sess, .resp] s t) ∧
    ((panelOf s p).contacts ≠ [] ∨ (panelOf s p).large ≠ [] → ∃ t, exec (.panelTestRun r p 1) s = .next t ∧
      answered t r 0x11 .busy ∧ Changes [.fresh, .sess, .resp] s t) := by
  refine ⟨fun hactive hcontacts hlarge => ?_, capture_busy hmgr (.inr rfl) h (fun h => absurd h (by decide)) (row_panelTestRun p)⟩
  obtain ⟨t, hexec, hans, hch⟩ := capture_done hmgr (.inr rfl) h hactive (row_panelTestRun p) hcontacts hlarge
  have hactive' : panSt (renewed s i) p = panActive := hactive
  have hleave : leaveDrift (renewed s i) p = renewed s i := if_neg (by rw [hactive']; decide)
  have happly : captureApply (renewed s i) p 3 (.num 1) = modPanel (renewed s i) p (fun P => { P with testing := true }) := by
    unfold captureApply
    rw [if_neg (by decide), if_pos rfl, hleave]
    exact if_pos hactive'
  rw [happly] at hch
  refine ⟨t, hexec, hans, ?_, ?_⟩
  · rw [panelOf, hch.panels (by decide), ← panelOf, panelOf_modPanel]
    rfl
  · exact (modPanel_ch (by decide) (renewed_changes i (by decide) (Changes.refl _ s))).trans (hch.mono (by decide))

end

/-! ## The end of a shut-down (R363) -/

/-- The state of a panel alone, as a device of which no domain is watched. -/
theorem panelState_device (p : Fin 4) (s : State) : Device [K.panelState p] [] s where
  apart := fun k hk => by
    obtain rfl := List.mem_singleton.1 hk
    refine ⟨?_, ?_, ?_, touchKey_note (idx := 0x4430 + p) (sub := 1) (by omega) (by decide)⟩ <;> simp only [K.panelState, objKey] <;> omega
  chips := fun _ hd => (List.not_mem_nil hd).elim
  wants := fun _ _ _ hd => (List.not_mem_nil hd).elim

theorem panelStopDone_spec {s : State} {p : Fin 4} (hstopping : panSt s p = panStopping) (hnot : K.panelEnable p ∉ s.transit) :
    ∃ t, exec (.panelStopDone p) s = .next t ∧ panSt t p = panOff := by
  have hexec : exec (.panelStopDone p) s = .next (panelQueued (settle (updateHealth (putN s (K.panelState p) panOff))) p) :=
    if_neg (not_not.2 hstopping)
  have hframe : DevFrame [K.panelState p] [] (putN s (K.panelState p) panOff) (settle (updateHealth (putN s (K.panelState p) panOff))) :=
    .settle (panelState_device p _) (.updateHealth (panelState_device p _) (.refl _ _ _))
  have hch : Changes [.fresh, .objs, .voteSecond, .funcs, .sess, .frames, .served, .power, .grog, .notes] s
      (settle (updateHealth (putN s (K.panelState p) panOff))) :=
    settle_ch (by decide) (updateHealth_ch (by decide) (putN_ch (by decide) (Changes.refl _ s)))
  have hoff : getN (putN s (K.panelState p) panOff) (K.panelState p) = panOff := getN_putN ..
  generalize settle (updateHealth (putN s (K.panelState p) panOff)) = u at *
  have hqueued : panelQueued u p = u := by
    unfold panelQueued
    rw [hch.transit (by decide), if_neg (by simp [hnot])]
  refine ⟨u, by rw [hexec, hqueued], ?_⟩
  exact (hframe.objs.getN (.head _)).trans hoff

/-! ## TOUCH_BUF (R354, R355) -/

/-- The checks of a TOUCH_BUF by a function. -/
def BufAccepted (s : State) (f : Nat) (b : TouchBufPayload) : Prop :=
  b.panel.toNat < 4 ∧ 4 ≤ b.slots.toNat ∧ b.address.toNat % 64 = 0 ∧ (isPf f = true ∨ hasTouchRegion s f b.panel.toNat = true)

/-- The function's new buffer takes its place. -/
def bufRegistered (s : State) (k : Ticket) (b : TouchBufPayload) : State :=
  modPanel (releaseBuffer (leaveDrift s b.panel.toNat) b.panel.toNat k.func) b.panel.toNat
    (fun P => { P with bufs := tset P.bufs k.func { ticket := k, addr := b.address.toNat, slots := b.slots.toNat } })

/-- The check of TOUCH_BUF, as the model spells it, refuses exactly what is not accepted. -/
theorem bufRefused_iff {s : State} {f : Nat} {b : TouchBufPayload} :
    (4 ≤ b.panel.toNat ∨ b.slots.toNat < 4 ∨ b.address.toNat % 64 ≠ 0 ∨ (!isPf f ∧ !hasTouchRegion s f b.panel.toNat)) ↔
      ¬ BufAccepted s f b := by
  unfold BufAccepted
  cases isPf f <;> cases hasTouchRegion s f b.panel.toNat <;> simp <;> omega

section
variable {s : State} {h : CmdHdr} {b : TouchBufPayload} (hf : Fetches s h 0x50 false)
include hf

theorem exec_touchBuf : exec (.touchBuf h b) s =
    if 4 ≤ b.panel.toNat ∨ b.slots.toNat < 4 ∨ b.address.toNat % 64 ≠ 0 ∨
        (!isPf (getN s (K.ringOwner h.ring)) ∧ !hasTouchRegion s (getN s (K.ringOwner h.ring)) b.panel.toNat) then
      .next (completeOpen (fetched s h 0x50 b.bytes) (ticketOf s h 0x50) 3)
    else .next (bufRegistered (fetched s h 0x50 b.bytes) (ticketOf s h 0x50) b) := by
  show execTouchBuf h b s = _
  unfold execTouchBuf
  rw [beginCmd_fetches hf]
  rfl

theorem exec_touchBuf_accepted (hok : BufAccepted s (getN s (K.ringOwner h.ring)) b) :
    exec (.touchBuf h b) s = .next (bufRegistered (fetched s h 0x50 b.bytes) (ticketOf s h 0x50) b) :=
  (exec_touchBuf hf).trans (if_neg fun hrefused => bufRefused_iff.1 hrefused hok)

theorem exec_touchBuf_refused (hbad : ¬ BufAccepted s (getN s (K.ringOwner h.ring)) b) :
    exec (.touchBuf h b) s = .next (completeOpen (fetched s h 0x50 b.bytes) (ticketOf s h 0x50) 3) :=
  (exec_touchBuf hf).trans (if_pos (bufRefused_iff.2 hbad))

end

theorem leaveDrift_spec (s : State) (p : Nat) : Changes [.objs, .panels] s (leaveDrift s p) ∧ onlyObjs [K.panelState p] s (leaveDrift s p) ∧
    (panelOf (leaveDrift s p) p).bufs = (panelOf s p).bufs := by
  unfold leaveDrift
  split
  · refine ⟨modPanel_ch (by decide) (putN_ch (by decide) (Changes.refl _ s)), onlyObjs_putN _ (.head _) (onlyObjs_refl _ s), ?_⟩
    rw [panelOf_modPanel]
    rfl
  · exact ⟨Changes.refl _ s, onlyObjs_refl _ s, rfl⟩

theorem bufs_registered (s : State) (k : Ticket) (b : TouchBufPayload) :
    tfind (panelOf (bufRegistered s k b) b.panel.toNat).bufs k.func =
      some { ticket := k, addr := b.address.toNat, slots := b.slots.toNat } := by
  rw [bufRegistered, panelOf_modPanel]
  exact tfind_tset_same ..

/-- A ring's queue does not depend on the panels and their states. -/
theorem sameQueue_panels {s t : State} {p : Nat} (k : Ticket) (hch : Changes [.objs, .panels] s t) (hobjs : onlyObjs [K.panelState p] s t) :
    SameQueue s t k := by
  have hring : ringOf t k.ring = ringOf s k.ring := by rw [ringOf, hch.rings (by decide), ringOf]
  have hkey {sub : Nat} (hsub : sub ≠ 1 ∧ sub < 256) : getN t (objKey (0x3100 + k.ring) sub) = getN s (objKey (0x3100 + k.ring) sub) :=
    congrArg Val.toNat (hobjs _ (by simp only [List.mem_singleton, K.panelState, objKey]; omega)).1
  exact ⟨by rw [hring], by rw [hring], by rw [hring], by rw [hring], hch.now (by decide), by rw [funcOf, hch.funcs (by decide), funcOf],
    hkey (by decide), hkey (by decide)⟩

theorem leBytes_mod (n : Nat) : leBytes 8 (n % 2 ^ 64) = leBytes 8 n := by
  have hmul := leBytes_add_mul 8 (n % 2 ^ 64) (n / 2 ^ 64)
  rw [show 256 ^ 8 = 2 ^ 64 by decide, Nat.mod_add_div] at hmul
  exact hmul.symm

theorem ticketDone_mod {s t : State} {k : Ticket} {st n : Nat} (h : ticketDone s t k st (n % 2 ^ 64)) : ticketDone s t k st n := by
  intro h₁ h₂ h₃ h₄ h₅
  have hdone := h h₁ h₂ h₃ h₄ h₅
  rwa [leBytes_mod] at hdone

/-- A buffer that another one replaces: its command completes with the count of its reports. -/
theorem registered_done {s : State} {k : Ticket} {b : TouchBufPayload} {old : TouchBuffer}
    (hfind : tfind (panelOf s b.panel.toNat).bufs k.func = some old) : ticketDone s (bufRegistered s k b) old.ticket 0 old.count := by
  obtain ⟨hch, hobjs, hbufs⟩ := leaveDrift_spec s b.panel.toNat
  rw [bufRegistered, releaseBuffer, hbufs, hfind]
  generalize leaveDrift s b.panel.toNat = u at *
  have hall : Changes [.objs, .panels] s (modPanel u b.panel.toNat (fun P => { P with bufs := tdel P.bufs k.func })) :=
    modPanel_ch (by decide) hch
  have hdone := complete_ticketDone (st := 0) (x := old.count) (d := old.count)
    (sameQueue_panels (p := b.panel.toNat) old.ticket hall (onlyObjs_trans hobjs (onlyObjs_of_eq rfl)))
  exact ticketDone_mod (ticketDone_after hdone (modPanel_changes ..) (by decide))

theorem registered_new {s : State} {k : Ticket} {b : TouchBufPayload} (hnone : tfind (panelOf s b.panel.toNat).bufs k.func = none) :
    Changes [.objs, .panels] s (bufRegistered s k b) ∧ onlyObjs [K.panelState b.panel.toNat] s (bufRegistered s k b) := by
  obtain ⟨hch, hobjs, hbufs⟩ := leaveDrift_spec s b.panel.toNat
  rw [bufRegistered, releaseBuffer, hbufs, hnone]
  exact ⟨modPanel_ch (by decide) hch, onlyObjs_trans hobjs (onlyObjs_of_eq rfl)⟩

section
variable {s : State} {h : CmdHdr} {b : TouchBufPayload} (hf : Fetches s h 0x50 false)
include hf

theorem touchBuf_new (hok : BufAccepted s (getN s (K.ringOwner h.ring)) b)
    (hnone : tfind (panelOf s b.panel.toNat).bufs (getN s (K.ringOwner h.ring)) = none) :
    ∃ t, exec (.touchBuf h b) s = .next t ∧ (ringOf t h.ring).cqTail = (ringOf s h.ring).cqTail ∧
      tfind (panelOf t b.panel.toNat).bufs (getN s (K.ringOwner h.ring)) =
        some { ticket := ticketOf s h 0x50, addr := b.address.toNat, slots := b.slots.toNat } ∧
      onlyObjs [K.panelState b.panel.toNat] s t := by
  obtain ⟨hch, hobjs⟩ := registered_new (s := fetched s h 0x50 b.bytes) (k := ticketOf s h 0x50) (b := b) hnone
  refine ⟨_, exec_touchBuf_accepted hf hok, ?_, bufs_registered (fetched s h 0x50 b.bytes) (ticketOf s h 0x50) b,
    onlyObjs_trans (onlyObjs_of_eq ((fetched_changes s h 0x50 b.bytes).objs (by decide) (by decide))) hobjs⟩
  have hring : ringOf (bufRegistered (fetched s h 0x50 b.bytes) (ticketOf s h 0x50) b) h.ring = ringOf (fetched s h 0x50 b.bytes) h.ring := by
    rw [ringOf, hch.rings (by decide), ← ringOf]
  rw [hring]
  exact (SameRing.fetched s h 0x50 b.bytes).cqTail

theorem touchBuf_replaced (hok : BufAccepted s (getN s (K.ringOwner h.ring)) b) {old : TouchBuffer}
    (hfind : tfind (panelOf s b.panel.toNat).bufs (getN s (K.ringOwner h.ring)) = some old) :
    ∃ t, exec (.touchBuf h b) s = .next t ∧
      tfind (panelOf t b.panel.toNat).bufs (getN s (K.ringOwner h.ring)) =
        some { ticket := ticketOf s h 0x50, addr := b.address.toNat, slots := b.slots.toNat } ∧
      ticketDone (fetched s h 0x50 b.bytes) t old.ticket 0 old.count :=
  ⟨_, exec_touchBuf_accepted hf hok, bufs_registered (fetched s h 0x50 b.bytes) (ticketOf s h 0x50) b,
    registered_done (s := fetched s h 0x50 b.bytes) (k := ticketOf s h 0x50) hfind⟩

theorem touchBuf_faults (hbad : ¬ BufAccepted s (getN s (K.ringOwner h.ring)) b) :
    ∃ t, exec (.touchBuf h b) s = .next t ∧ ringDone s t h 0x50 3 none ∧ t.panels = s.panels ∧ onlyObjsAndNotes [] s t := by
  obtain ⟨hdone, -, hch⟩ := completeOpen_done (st := 3) hf (SameRing.fetched s h 0x50 b.bytes)
  exact ⟨_, exec_touchBuf_refused hf hbad, hdone, hch.panels (by decide),
    onlyAndNotes_trans (onlyAndNotes_fetched [] s h 0x50 b.bytes) (onlyAndNotes_answered [] hch)⟩

end

end Sys2Proof.Proofs.TouchWrites

/-!
PROOFS. O51, its third part: the self-tests of a panel, its start and the baselines that it acquires (R344, R359 to R362).
-/

namespace Sys2Proof.Proofs.TouchTests

open Sys2Proof.Machine
open Sys2Proof.Proofs.HapticChannels (getN_kept)
open Sys2Proof.Proofs.FrameEvents (emit_onlyAndNotes)
open Sys2Proof.Proofs.TouchPanels

/-! ## What a test writes -/

/-- The objects that a panel's start or test writes. -/
def testKeys (p : Nat) : List Nat :=
  (List.range 4).map K.chipGen ++ (List.range 4).map K.chipRefcap ++
    [K.panelMaskLines p, K.panelMasked p, K.panelTestResult p, K.panelTestTime p]

theorem chipGen_mem {p c : Nat} (hc : c < 4) : K.chipGen c ∈ testKeys p :=
  List.mem_append_left _ (List.mem_append_left _ (List.mem_map_of_mem (List.mem_range.2 hc)))

theorem chipRefcap_mem {p c : Nat} (hc : c < 4) : K.chipRefcap c ∈ testKeys p :=
  List.mem_append_left _ (List.mem_append_right _ (List.mem_map_of_mem (List.mem_range.2 hc)))

/-- A test writes no setting of a panel, and not its state. -/
theorem setting_not_testKey {p idx sub : Nat}
    (hidx : (0x4420 ≤ idx ∧ idx < 0x4430) ∨ (0x4430 ≤ idx ∧ idx < 0x4440 ∧ sub ≠ 4)) (hsub : sub < 256) : objKey idx sub ∉ testKeys p := by
  intro hmem
  simp only [testKeys, List.mem_append, List.mem_map, List.mem_range, List.mem_cons, List.not_mem_nil, or_false] at hmem
  obtain (⟨c, hc, he⟩ | ⟨c, hc, he⟩) | he | he | he | he := hmem <;>
    simp only [K.chipGen, K.chipRefcap, K.panelMaskLines, K.panelMasked, K.panelTestResult, K.panelTestTime, objKey] at he <;> omega

theorem chip_lt {s : State} {p c : Nat} (hc : c ∈ panelChips s p) : c < 4 := List.mem_range.1 (List.mem_filter.1 hc).1

theorem PanelStep.foldl {α : Type} {p : Nat} {ks : List Nat} {P : Panel} {f : State → α → State} {r s : State} (l : List α)
    (h : PanelStep p ks P r s) (hf : ∀ x, ∀ a ∈ l, PanelStep p ks P r x → PanelStep p ks P r (f x a)) : PanelStep p ks P r (l.foldl f s) := by
  induction l generalizing s with
  | nil => exact h
  | cons a l ih => exact ih (hf s a (.head _) h) fun x b hb => hf x b (.tail _ hb)

/-- The generations of a starting panel's chiplets move on. -/
def gensAdvanced (s : State) (p : Nat) : State := foldN (panelChips s p) (fun s c => putN s (K.chipGen c) ((getN s (K.chipGen c) + 1) % 65536)) s

theorem gensAdvanced_step (p : Nat) (s : State) : PanelStep p (testKeys p) (panelOf s p) s (gensAdvanced s p) :=
  PanelStep.foldl _ (.refl p _ s) fun _ _ hc h => h.putN (chipGen_mem (chip_lt hc))

/-- The chiplets show their reference measurements. -/
def refcapShown (s : State) (p : Nat) (x : PanelTest) : State :=
  (panelChips s p).foldl (fun s c => if x.refcap.any (fun e => e.1.val == c) then putV s (K.chipRefcap c) (.bytes (lastMeasures x c)) else s) s

theorem refcapShown_step (p : Nat) (s : State) (x : PanelTest) : PanelStep p (testKeys p) (panelOf s p) s (refcapShown s p x) :=
  PanelStep.foldl _ (.refl p _ s) fun _ _ hc h => by
    split
    · exact h.putV (chipRefcap_mem (chip_lt hc))
    · exact h

/-! ## The self-tests, where every channel passes -/

/-- The lines that a test of the pads masks. -/
def testedMask (s : State) (p : Nat) (x : PanelTest) : List Nat := (openLines s p x ++ shortLines s p x).dedup.insertionSort (· ≤ ·)

/-- The result of the tests without a bad channel. -/
def testedResult (s : State) (p : Nat) (x : PanelTest) : Nat :=
  b2n (true && decide ((testedMask s p x).length ≤ 8)) + 2 * b2n (!(openLines s p x).isEmpty) + 4 * b2n (!(shortLines s p x).isEmpty)
    + 8 * b2n (!([] : List (Nat × Nat)).isEmpty) + 16 * b2n (!true) + 2 ^ 8 * ((testedMask s p x).length % 256) + 2 ^ 16 * (0 % 256)

/-- The tests' result is shown. -/
def testShown (s : State) (p : Nat) (masked : List Nat) (result : Nat) : State :=
  putN (putN (putN (putV s (K.panelMaskLines p) (.bytes (masked.flatMap (leBytes 2)))) (K.panelMasked p) (min masked.length 255))
    (K.panelTestResult p) result) (K.panelTestTime p) s.now

theorem selfTest_eq {s : State} {p : Nat} {x : PanelTest} (hmode : getN s (K.panelTestMode p) = 3) (hbad : badChannels s p x = []) :
    selfTest s p x = (emit (testShown (refcapShown s p x) p (testedMask s p x) (testedResult s p x)) 4 0x0402 p
      (leBytes 1 p ++ leBytes 4 (testedResult s p x)) (touchFuncs (testShown (refcapShown s p x) p (testedMask s p x) (testedResult s p x)) p),
      true && decide ((testedMask s p x).length ≤ 8)) := by
  unfold selfTest
  rw [hmode, hbad]
  rfl

/-- More than eight open lines fail the test. -/
theorem testedMask_many {s : State} {p : Nat} {x : PanelTest} (hmany : 8 < (openLines s p x).length) :
    (true && decide ((testedMask s p x).length ≤ 8)) = false := by
  have hnodup : (openLines s p x).Nodup := List.nodup_range.filter _
  have hsub : openLines s p x ⊆ (openLines s p x ++ shortLines s p x).dedup := fun l hl =>
    List.mem_dedup.2 (List.mem_append_left _ hl)
  have hle := (hnodup.subperm hsub).length_le
  have hlen : (testedMask s p x).length = (openLines s p x ++ shortLines s p x).dedup.length := List.length_insertionSort ..
  rw [Bool.true_and, hlen, decide_eq_false_iff_not]
  omega

theorem testedMask_none {s : State} {p : Nat} {x : PanelTest} (hopens : openLines s p x = []) (hshorts : shortLines s p x = []) :
    testedMask s p x = [] := by
  rw [testedMask, hopens, hshorts]
  rfl

theorem testedResult_none {s : State} {p : Nat} {x : PanelTest} (hopens : openLines s p x = []) (hshorts : shortLines s p x = []) :
    testedResult s p x = 1 := by
  rw [testedResult, testedMask_none hopens hshorts, hopens, hshorts]
  rfl

theorem touchKeys_ne {p : Nat} : K.panelTestResult p ≠ K.panelTestTime p ∧ K.panelMaskLines p ≠ K.panelTestTime p ∧
    K.panelMaskLines p ≠ K.panelTestResult p ∧ K.panelMaskLines p ≠ K.panelMasked p := by
  simp only [K.panelTestResult, K.panelTestTime, K.panelMaskLines, K.panelMasked, objKey]
  omega

theorem testShown_objs (s : State) (p : Nat) (masked : List Nat) (result : Nat) :
    getN (testShown s p masked result) (K.panelTestResult p) = result ∧ getN (testShown s p masked result) (K.panelTestTime p) = s.now ∧
    getBytes (testShown s p masked result) (K.panelMaskLines p) = masked.flatMap (leBytes 2) := by
  obtain ⟨hresult, hmask, hmaskResult, hmasked⟩ := touchKeys_ne (p := p)
  refine ⟨(getN_putN_ne _ _ hresult).trans (getN_putN ..), getN_putN .., ?_⟩
  have hval : getV (testShown s p masked result) (K.panelMaskLines p) = .bytes (masked.flatMap (leBytes 2)) :=
     (getV_putV_ne _ _ hmask).trans ((getV_putV_ne _ _ hmaskResult).trans ((getV_putV_ne _ _ hmasked).trans (getV_putV ..)))
  rw [getBytes, hval]
  rfl

theorem testShown_step (p : Nat) {P : Panel} {r s : State} (h : PanelStep p (testKeys p) P r s) (masked : List Nat) (result : Nat) :
    PanelStep p (testKeys p) P r (testShown s p masked result) := by
  have hmem {k : Nat} (hk : k ∈ [K.panelMaskLines p, K.panelMasked p, K.panelTestResult p, K.panelTestTime p]) : k ∈ testKeys p :=
    List.mem_append_right _ hk
  exact (((h.putV (hmem (.head _))).putN (hmem (.tail _ (.head _)))).putN (hmem (.tail _ (.tail _ (.head _))))).putN
    (hmem (.tail _ (.tail _ (.tail _ (.head _)))))

/-- What the tests leave, where every channel passes. -/
structure Tested (s : State) (p : Nat) (x : PanelTest) (u : State) : Prop where
  step : PanelStep p (testKeys p) (panelOf s p) s u
  result : getN u (K.panelTestResult p) = testedResult s p x
  time : getN u (K.panelTestTime p) = s.now
  mask : getBytes u (K.panelMaskLines p) = (testedMask s p x).flatMap (leBytes 2)

theorem selfTest_tested {s : State} {p : Nat} (hp : p < 4) {x : PanelTest} (hmode : getN s (K.panelTestMode p) = 3)
    (hbad : badChannels s p x = []) :
    ∃ u, selfTest s p x = (u, true && decide ((testedMask s p x).length ≤ 8)) ∧ Tested s p x u := by
  refine ⟨_, selfTest_eq hmode hbad, ?_⟩
  generalize touchFuncs _ p = fs
  have hshown := refcapShown_step p s x
  have hstep := testShown_step p hshown (testedMask s p x) (testedResult s p x)
  obtain ⟨hresult, htime, hmask⟩ := testShown_objs (refcapShown s p x) p (testedMask s p x) (testedResult s p x)
  rw [hshown.now] at htime
  generalize testShown (refcapShown s p x) p (testedMask s p x) (testedResult s p x) = v at *
  have hkept {sub : Nat} (hsub : sub < 256) : getV (emit v 4 0x0402 p (leBytes 1 p ++ leBytes 4 (testedResult s p x)) fs) (objKey (0x4440 + p) sub) =
      getV v (objKey (0x4440 + p) sub) :=
    (emit_onlyAndNotes [] v 4 0x0402 p _ fs _ (by simp) (touchKey_note (idx := 0x4440 + p) (by omega) hsub)).1
  exact ⟨hstep.emit, (congrArg Val.toNat (hkept (by decide))).trans hresult, (congrArg Val.toNat (hkept (by decide))).trans htime,
    (congrArg Val.toBytes (hkept (by decide))).trans hmask⟩

/-! ## A panel that fails (R360) -/

def failedKeys (p : Nat) : List Nat := [K.panelState p, K.panelContacts p] ++ healthKeys

/-- A panel's record once it has failed. -/
def failedPanel (P : Panel) : Panel := { P with contacts := [], large := [], overs := [], stuck := [], testing := false }

/-- A panel that reads FAILED. -/
def failShown (s : State) (p : Nat) : State := putN (putN (modPanel s p failedPanel) (K.panelState p) panFailed) (K.panelContacts p) 0

theorem panelFails_eq (s : State) (p : Nat) : panelFails s p = updateHealth (emit (failShown s p) 4 0x0404 p
    (leBytes 1 p ++ leBytes 4 (getN (failShown s p) (K.panelTestResult p))) (touchFuncs (failShown s p) p)) := rfl

theorem panelFails_spec {s : State} {p : Nat} (hp : p < 4) :
    panSt (panelFails s p) p = panFailed ∧ onlyObjsAndNotes (failedKeys p) s (panelFails s p) := by
  have hput : onlyObjsAndNotes (failedKeys p) s (failShown s p) :=
    onlyAndNotes_of_only (onlyObjs_putN _ (.tail _ (.head _)) (onlyObjs_putN _ (.head _) (onlyObjs_of_eq rfl)))
  have hstate : getN (failShown s p) (K.panelState p) = panFailed :=
    (getN_putN_ne _ _ (by simp only [K.panelState, K.panelContacts, objKey]; omega)).trans (getN_putN ..)
  rw [panelFails_eq]
  generalize failShown s p = v at *
  generalize leBytes 1 p ++ leBytes 4 (getN v (K.panelTestResult p)) = detail
  have hkept : onlyObjsAndNotes healthKeys v (updateHealth (emit v 4 0x0404 p detail (touchFuncs v p))) :=
    onlyAndNotes_trans (emit_onlyAndNotes healthKeys v 4 0x0404 p detail (touchFuncs v p)) (ModeFrame.updateHealth_objs _)
  have hsame : getN (updateHealth (emit v 4 0x0404 p detail (touchFuncs v p))) (K.panelState p) = getN v (K.panelState p) :=
    getN_kept hkept (touchKey_not_health (idx := 0x4430 + p) (by omega) (by decide)) (touchKey_note (idx := 0x4430 + p) (by omega) (by decide))
  exact ⟨hsame.trans hstate, onlyAndNotes_trans hput fun k hk => hkept k fun hmem => hk (List.mem_append_right _ hmem)⟩

/-! ## The settings of a panel -/

/-- A panel's settings are the same in two states. -/
def SameSettings (p : Nat) (s t : State) : Prop := ∀ sub, sub < 256 → getV t (objKey (0x4420 + p) sub) = getV s (objKey (0x4420 + p) sub)

theorem sameSettings_of_step {p : Nat} (hp : p < 4) {P : Panel} {s t : State} (h : PanelStep p (testKeys p) P s t) : SameSettings p s t :=
  fun _ hsub => (h.objs _ (setting_not_testKey (by omega) hsub) (touchKey_note (by omega) hsub)).1

section
variable {p : Nat} {s t : State} (h : SameSettings p s t)
include h

theorem SameSettings.getN {sub : Nat} (hsub : sub < 256) : getN t (objKey (0x4420 + p) sub) = getN s (objKey (0x4420 + p) sub) :=
  congrArg Val.toNat (h sub hsub)

theorem SameSettings.lines : panTx t p = panTx s p ∧ panRx t p = panRx s p := ⟨h.getN (by decide), h.getN (by decide)⟩

theorem SameSettings.chips : panelChips t p = panelChips s p := congrArg chipsOf (h.getN (sub := 2) (by decide))

theorem SameSettings.badChannels (x : PanelTest) : badChannels t p x = badChannels s p x := by
  rw [Machine.badChannels, h.chips, ← Machine.badChannels]

theorem SameSettings.openLines (x : PanelTest) : openLines t p x = openLines s p x := by
  have hlow : Machine.getN t (K.panelRawLo p) = Machine.getN s (K.panelRawLo p) := h.getN (by decide)
  have hpad : padOpen t p x = padOpen s p x := by
    funext l
    rw [padOpen, hlow, ← padOpen]
  rw [Machine.openLines, h.lines.1, h.lines.2, hpad, ← Machine.openLines]

theorem SameSettings.shortLines (x : PanelTest) : shortLines t p x = shortLines s p x := by
  have hhigh : Machine.getN t (K.panelRawHi p) = Machine.getN s (K.panelRawHi p) := h.getN (by decide)
  have hmap : lineMap t p = lineMap s p := by
    show u16s (getV t (objKey (0x4420 + p) 5)).toBytes = u16s (getV s (objKey (0x4420 + p) 5)).toBytes
    rw [h 5 (by decide)]
  have hpad : padShorted t p x = padShorted s p x := by
    funext l
    rw [padShorted, hhigh, hmap, ← padShorted]
  rw [Machine.shortLines, h.lines.1, h.lines.2, hpad, ← Machine.shortLines]

end

/-! ## The baselines (R344) -/

/-- The counts of a starting panel's frame, mutual nodes first. -/
def startFrame (x : PanelTest) (k : Nat) : List Nat := (x.frames.getD k [] ++ x.selfFrames.getD k []).map (·.toNat)

theorem fillMasked_none {s : State} {p : Nat} (h : maskedLines s p = []) (raw : List Nat) : fillMasked s p raw = raw := by
  unfold fillMasked
  dsimp only
  rw [h]
  rfl

/-- The mean of the eight frames. -/
def startBase (s : State) (p : Nat) (x : PanelTest) : List ℚ :=
  (List.range (panTx s p * panRx s p + panTx s p + panRx s p)).map
    (fun i => (((((List.range 8).map (startFrame x)).map (fun f => f.getD i 0)).sum : Nat) : ℚ) / 8)

theorem acquire_step {s : State} {p : Nat} (x : PanelTest) (hmask : maskedLines s p = []) :
    ∃ P, P.base = startBase s p x ∧ PanelStep p [K.panelSuspect p] P s (acquire s p x) := by
  have hframes : (List.range 8).map (fun k => fillMasked s p ((x.frames.getD k [] ++ x.selfFrames.getD k []).map (·.toNat))) =
      (List.range 8).map (startFrame x) := List.map_congr_left fun k _ => fillMasked_none hmask _
  unfold acquire
  rw [hframes]
  extract_lets tx rx frames base tol sus stale s1 s2 s3
  have h1 : PanelStep p [K.panelSuspect p] (panelOf s1 p) s s1 := ⟨rfl, rfl, onlyAndNotes_of_only (onlyObjs_of_eq rfl)⟩
  have h2 : PanelStep p [K.panelSuspect p] (panelOf s1 p) s s2 := h1.quiet rfl rfl (onlyAndNotes_of_only (onlyObjs_of_eq rfl))
  have h3 : PanelStep p [K.panelSuspect p] (panelOf s1 p) s s3 := h2.putN (.head _)
  refine ⟨panelOf s1 p, congrArg Panel.base (panelOf_modPanel ..), ?_⟩
  split
  · exact h3.emit
  · exact h3

theorem startFrame_node {s : State} {p : Nat} {x : PanelTest} (hlen : x.frames.length = 8)
    (hgrid : ∀ f ∈ x.frames, f.length = panTx s p * panRx s p) {i k : Nat} (hi : i < panTx s p * panRx s p) (hk : k < 8) :
    (startFrame x k).getD i 0 = ((x.frames.getD k []).getD i 0).toNat := by
  have hmem : x.frames.getD k [] ∈ x.frames := by
    rw [List.getD_eq_getElem _ _ (by omega)]
    exact List.getElem_mem _
  have hil : i < (x.frames.getD k []).length := by rw [hgrid _ hmem]; exact hi
  have hlt : i < (x.frames.getD k [] ++ x.selfFrames.getD k []).length := by rw [List.length_append]; omega
  rw [startFrame, List.getD_eq_getElem _ _ (by rw [List.length_map]; exact hlt), List.getElem_map, List.getElem_append_left hil,
    List.getD_eq_getElem _ _ hil]

theorem startBase_node {s : State} {p : Nat} {x : PanelTest} (hlen : x.frames.length = 8)
    (hgrid : ∀ f ∈ x.frames, f.length = panTx s p * panRx s p) {i : Nat} (hi : i < panTx s p * panRx s p) :
    (startBase s p x).getD i 0 = ((((List.range 8).map (fun k => ((x.frames.getD k []).getD i 0).toNat)).sum : Nat) : ℚ) / 8 := by
  have hsums : ((List.range 8).map (startFrame x)).map (fun f => f.getD i 0) = (List.range 8).map (fun k => ((x.frames.getD k []).getD i 0).toNat) := by
    rw [List.map_map]
    exact List.map_congr_left fun k hk => startFrame_node hlen hgrid hi (List.mem_range.1 hk)
  have hlt : i < panTx s p * panRx s p + panTx s p + panRx s p := by omega
  rw [startBase, List.getD_eq_getElem _ _ (by rw [List.length_map, List.length_range]; exact hlt), List.getElem_map, List.getElem_range, hsums]

/-! ## A panel's start (R359 to R362) -/

/-- What panel.state ACTIVE at the end of a start leaves. -/
theorem panelStartDone_exec {s : State} {p : Fin 4} {x : PanelTest} (hstarting : panSt s p = panStarting)
    (hon : allOn s ((panelChips s p).map chipDomain) = true) (hframes : x.frames.length = 8) (hself : x.selfFrames.length = 8)
    (hgrid : ∀ f ∈ x.frames, f.length = panTx s p * panRx s p) (hlines : ∀ f ∈ x.selfFrames, f.length = panTx s p + panRx s p) :
    exec (.panelStartDone p x) s =
      if (selfTest (gensAdvanced s p) p x).2 then
        .next (updateHealth (putN (acquire (selfTest (gensAdvanced s p) p x).1 p x) (K.panelState p) panActive))
      else .next (panelFails (selfTest (gensAdvanced s p) p x).1 p) := by
  have hfits : (x.frames.length == 8 && x.selfFrames.length == 8 && x.frames.all (fun f => f.length == panTx s p * panRx s p)
      && x.selfFrames.all (fun f => f.length == panTx s p + panRx s p)) = true := by
    simp only [Bool.and_eq_true, beq_iff_eq, List.all_eq_true]
    exact ⟨⟨⟨hframes, hself⟩, hgrid⟩, hlines⟩
  show execPanelStartDone p x s = _
  unfold execPanelStartDone
  dsimp only
  rw [hfits]
  exact if_pos ⟨hstarting, hon, rfl⟩

/-- The end of a requested test of a running panel. -/
theorem panelTestDone_exec {s : State} {p : Fin 4} {x : PanelTest} (hactive : panSt s p = panActive) (htesting : (panelOf s p).testing = true) :
    exec (.panelStartDone p x) s =
      if (selfTest (modPanel s p (fun P => { P with testing := false })) p x).2 then
        .next (updateHealth (selfTest (modPanel s p (fun P => { P with testing := false })) p x).1)
      else .next (panelFails (selfTest (modPanel s p (fun P => { P with testing := false })) p x).1 p) := by
  show execPanelStartDone p x s = _
  unfold execPanelStartDone
  dsimp only
  rw [if_neg fun h => absurd (hactive.symm.trans h.1) (by decide)]
  exact if_pos ⟨hactive, htesting⟩

section
variable {s : State} {p : Fin 4} {x : PanelTest} (hmode : getN s (K.panelTestMode p) = 3) (hbad : badChannels s p x = [])
include hmode hbad

theorem gensAdvanced_tested : ∃ u, selfTest (gensAdvanced s p) p x = (u, true && decide ((testedMask (gensAdvanced s p) p x).length ≤ 8)) ∧
    Tested (gensAdvanced s p) p x u ∧ SameSettings p s (gensAdvanced s p) ∧ (gensAdvanced s p).now = s.now := by
  have hgens := gensAdvanced_step p s
  have hsame := sameSettings_of_step p.isLt hgens
  obtain ⟨u, htest, htested⟩ := selfTest_tested (s := gensAdvanced s p) p.isLt (x := x) ((hsame.getN (sub := 17) (by decide)).trans hmode)
    ((hsame.badChannels x).trans hbad)
  exact ⟨u, htest, htested, hsame, hgens.now⟩

variable (hstarting : panSt s p = panStarting)
    (hon : allOn s ((panelChips s p).map chipDomain) = true) (hframes : x.frames.length = 8) (hself : x.selfFrames.length = 8)
    (hgrid : ∀ f ∈ x.frames, f.length = panTx s p * panRx s p) (hlines : ∀ f ∈ x.selfFrames, f.length = panTx s p + panRx s p)
include hstarting hon hframes hself hgrid hlines

/-- More than eight masked lines: the panel fails. -/
theorem panelStart_fails (hmany : 8 < (openLines s p x).length) :
    ∃ t, exec (.panelStartDone p x) s = .next t ∧ panSt t p = panFailed ∧ getN t (K.panelTestTime p) = s.now := by
  obtain ⟨u, htest, htested, hsame, hnow⟩ := gensAdvanced_tested hmode hbad
  have hexec := panelStartDone_exec hstarting hon hframes hself hgrid hlines
  rw [htest, testedMask_many (by rw [hsame.openLines]; exact hmany)] at hexec
  obtain ⟨hfailed, hobjs⟩ := panelFails_spec (s := u) p.isLt
  refine ⟨_, hexec, hfailed, ?_⟩
  have hkept : getN (panelFails u p) (K.panelTestTime p) = getN u (K.panelTestTime p) := by
    refine getN_kept hobjs (fun hmem => ?_) (touchKey_note (idx := 0x4440 + p) (sub := 5) (by omega) (by decide))
    obtain hpan | hhealth := List.mem_append.1 hmem
    · simp only [List.mem_cons, List.not_mem_nil, or_false, K.panelTestTime, K.panelState, K.panelContacts, objKey] at hpan
      omega
    · exact touchKey_not_health (idx := 0x4440 + p) (sub := 5) (by omega) (by decide) hhealth
  exact hkept.trans (htested.time.trans hnow)

/-- Every test passes: the panel runs with the mean of the eight frames as its baselines. -/
theorem panelStart_active (hopens : openLines s p x = []) (hshorts : shortLines s p x = []) :
    ∃ t, exec (.panelStartDone p x) s = .next t ∧ panSt t p = panActive ∧ getN t (K.panelTestResult p) = 1 ∧
      getN t (K.panelTestTime p) = s.now ∧ (∀ i, i < panTx s p * panRx s p → (panelOf t p).base.getD i 0 =
        ((((List.range 8).map (fun k => ((x.frames.getD k []).getD i 0).toNat)).sum : Nat) : ℚ) / 8) := by
  obtain ⟨u, htest, htested, hsame, hnow⟩ := gensAdvanced_tested hmode hbad
  have hexec := panelStartDone_exec hstarting hon hframes hself hgrid hlines
  generalize gensAdvanced s p = g at *
  have hopens' : openLines g p x = [] := (hsame.openLines x).trans hopens
  have hshorts' : shortLines g p x = [] := (hsame.shortLines x).trans hshorts
  have hmasked := testedMask_none hopens' hshorts'
  rw [htest, hmasked] at hexec
  have hmask : maskedLines u p = [] := by
    rw [maskedLines, htested.mask, hmasked]
    rfl
  obtain ⟨P, hbase, hacquired⟩ := acquire_step x hmask
  have hactive : getN (putN (acquire u p x) (K.panelState p) panActive) (K.panelState p) = panActive := getN_putN ..
  have hput := (hacquired.mono (ks' := [K.panelSuspect p, K.panelState p]) (by simp)).putN (k := K.panelState p) (v := panActive) (by simp)
  generalize putN (acquire u p x) (K.panelState p) panActive = v at *
  have hdone := (PanelStep.refl p.val healthKeys v).updateHealth fun _ hk => hk
  have hhealth {idx sub : Nat} (hidx : 0x4400 ≤ idx ∧ idx < 0x4500) (hsub : sub < 256) : getN (updateHealth v) (objKey idx sub) = getN v (objKey idx sub) :=
    hdone.getN (touchKey_not_health (by omega) hsub) hidx hsub
  have hresult {sub : Nat} (hsub : sub < 256) : getN (updateHealth v) (objKey (0x4440 + p) sub) = getN u (objKey (0x4440 + p) sub) :=
    (hhealth (by omega) hsub).trans (hput.getN (by simp only [List.mem_cons, List.not_mem_nil, or_false, K.panelSuspect, K.panelState, objKey]; omega)
      (by omega) hsub)
  refine ⟨updateHealth v, hexec, (hhealth (by omega) (by decide)).trans hactive, (hresult (by decide)).trans (htested.result.trans
    (testedResult_none hopens' hshorts')), (hresult (by decide)).trans (htested.time.trans hnow), fun i hi => ?_⟩
  have hu := sameSettings_of_step p.isLt htested.step
  obtain ⟨htx, hrx⟩ := hu.lines
  obtain ⟨htx', hrx'⟩ := hsame.lines
  rw [hdone.panel, hput.panel, hbase]
  exact startBase_node hframes (fun f hf => by rw [htx, hrx, htx', hrx']; exact hgrid f hf) (by rw [htx, hrx, htx', hrx']; exact hi)

end

/-- A requested test that passes ends the suspension of the reports (R361). -/
theorem panelTest_passes {s : State} {p : Fin 4} {x : PanelTest} (hactive : panSt s p = panActive) (htesting : (panelOf s p).testing = true)
    (hmode : getN s (K.panelTestMode p) = 3) (hbad : badChannels s p x = []) (hopens : openLines s p x = []) (hshorts : shortLines s p x = []) :
    ∃ t, exec (.panelStartDone p x) s = .next t ∧ panSt t p = panActive ∧ getN t (K.panelTestResult p) = 1 ∧
      getN t (K.panelTestTime p) = s.now ∧ panelOf t p = { panelOf s p with testing := false } := by
  have hexec := panelTestDone_exec (x := x) hactive htesting
  have hpanel : panelOf (modPanel s p (fun P => { P with testing := false })) p = { panelOf s p with testing := false } := panelOf_modPanel ..
  have hkept (k : Nat) : getN (modPanel s p (fun P => { P with testing := false })) k = getN s k := rfl
  have hnow : (modPanel s p (fun P => { P with testing := false })).now = s.now := rfl
  have hsame : SameSettings p s (modPanel s p (fun P => { P with testing := false })) := fun _ _ => rfl
  generalize modPanel s p (fun P => { P with testing := false }) = g at *
  have hopens' : openLines g p x = [] := (hsame.openLines x).trans hopens
  have hshorts' : shortLines g p x = [] := (hsame.shortLines x).trans hshorts
  obtain ⟨u, htest, htested⟩ := selfTest_tested (s := g) p.isLt ((hkept _).trans hmode) ((hsame.badChannels x).trans hbad)
  rw [htest, testedMask_none hopens' hshorts'] at hexec
  have hdone := (PanelStep.refl p.val healthKeys u).updateHealth fun _ hk => hk
  have hhealth {idx sub : Nat} (hidx : 0x4400 ≤ idx ∧ idx < 0x4500) (hsub : sub < 256) : getN (updateHealth u) (objKey idx sub) = getN u (objKey idx sub) :=
    hdone.getN (touchKey_not_health (by omega) hsub) hidx hsub
  have hstate : getN u (K.panelState p) = getN g (K.panelState p) :=
    htested.step.getN (idx := 0x4430 + p) (setting_not_testKey (by omega) (by decide)) (by omega) (by decide)
  exact ⟨updateHealth u, hexec, (hhealth (by omega) (by decide)).trans (hstate.trans ((hkept _).trans hactive)),
    (hhealth (by omega) (by decide)).trans (htested.result.trans (testedResult_none hopens' hshorts')),
    (hhealth (by omega) (by decide)).trans (htested.time.trans hnow), by rw [hdone.panel, htested.step.panel, hpanel]⟩

end Sys2Proof.Proofs.TouchTests

/-!
PROOFS. O51, its fourth part: the mark of a scan frame and its raw counts through the processing of the frame (R338).
-/

namespace Sys2Proof.Proofs.TouchFrames

open Sys2Proof.Machine
open Sys2Proof.Proofs.ModeFrame
open Sys2Proof.Proofs.ColdStart (agrees_putV)
open Sys2Proof.Proofs.HapticDrivers (grogShown_objs substitute_objs retireUnit_objs)
open Sys2Proof.Proofs.TouchPanels
open Sys2Proof.Proofs.TouchTests (fillMasked_none failedPanel failShown panelFails_eq panelFails_spec)

/-! ## Objects that the processing leaves alone -/

/-- A list of settings of a panel and its objects panel.state, panel.frames and panel.freq. -/
def Marks (p : Nat) (ks : List Nat) : Prop :=
  p < 4 ∧ ∀ k ∈ ks, k ∈ [objKey (0x4430 + p) 1, objKey (0x4430 + p) 5, objKey (0x4430 + p) 10] ∨ ∃ sub, sub < 256 ∧ k = objKey (0x4420 + p) sub

section
variable {p : Nat} {ks : List Nat} (hks : Marks p ks)
include hks

theorem not_mark {idx sub : Nat} (h : idx < 0x4420 ∨ 0x4434 ≤ idx ∨ (0x4430 ≤ idx ∧ sub ≠ 1 ∧ sub ≠ 5 ∧ sub ≠ 10)) (hsub : sub < 256) :
    objKey idx sub ∉ ks := by
  intro hmem
  have hp := hks.1
  obtain hk | ⟨sub', hsub', hk⟩ := hks.2 _ hmem
  · simp only [List.mem_cons, List.not_mem_nil, or_false, objKey] at hk
    omega
  · simp only [objKey] at hk
    omega

theorem mark_key {k : Nat} (hk : k ∈ ks) : ∃ idx sub, k = objKey idx sub ∧ 0x4400 ≤ idx ∧ idx < 0x4500 ∧ sub < 256 := by
  have hp := hks.1
  obtain hmem | ⟨sub, hsub, rfl⟩ := hks.2 k hk
  · simp only [List.mem_cons, List.not_mem_nil, or_false] at hmem
    obtain rfl | rfl | rfl := hmem <;> exact ⟨_, _, rfl, by omega, by omega, by decide⟩
  · exact ⟨_, sub, rfl, by omega, by omega, hsub⟩

theorem mark_note {k : Nat} (hk : k ∈ ks) : ¬ noteKey k := by
  obtain ⟨idx, sub, rfl, hlow, hhigh, hsub⟩ := mark_key hks hk
  exact touchKey_note ⟨hlow, hhigh⟩ hsub

theorem mark_not_health {k : Nat} (hk : k ∈ ks) : k ∉ healthKeys := by
  obtain ⟨idx, sub, rfl, -, hhigh, hsub⟩ := mark_key hks hk
  exact touchKey_not_health hhigh hsub

variable {r s t : State}

theorem marks_of_changes {P : List Part} (h : Agrees ks r s) (hch : Changes P s t) (hP : Part.objs ∉ P) : Agrees ks r t :=
  h.trans (.of_changes hch hP fun _ hk => mark_note hks hk)

theorem marks_emit {cls code inst : Nat} {detail : List Byte} {fs : List Nat} (h : Agrees ks r s) : Agrees ks r (emit s cls code inst detail fs) :=
  marks_of_changes hks h (FrameEvents.emit_changes s cls code inst detail fs) (by decide)

theorem marks_updateHealth (h : Agrees ks r s) : Agrees ks r (updateHealth s) :=
  h.trans (.of_onlyAndNotes (updateHealth_objs s) fun _ hk => ⟨mark_not_health hks hk, mark_note hks hk⟩)

/-! ## An effect of a zone (R364) -/

section
variable {n : Nat}

theorem marks_chan {sub : Nat} {v : Val} (h : Agrees ks r s) (hsub : sub < 256) : Agrees ks r (putV s (objKey (0x4810 + n) sub) v) :=
  agrees_putV h (not_mark hks (by omega) hsub)

theorem marks_effectEnds {e : Effect} {outcome : Nat} (h : Agrees ks r s) : Agrees ks r (effectEnds s n e outcome) := by
  unfold effectEnds
  extract_lets s1
  have h1 : Agrees ks r s1 := by
    unfold s1
    split
    · exact marks_chan hks h (by decide)
    · exact marks_chan hks h (by decide)
  clear_value s1
  split
  · exact marks_of_changes hks h1 (playEnded_ch (List.Subset.refl _) (Changes.refl _ s1)) (by decide)
  · split
    · exact marks_emit hks h1
    · exact h1

theorem marks_endRunning {outcome : Nat} (h : Agrees ks r s) : Agrees ks r (endRunning s n outcome) := by
  unfold endRunning
  split
  · exact h
  · exact marks_effectEnds hks (h.trans (.of_objs rfl))

theorem marks_startEffect {e : Effect} (h : Agrees ks r s) : Agrees ks r (startEffect s n e) := by
  unfold startEffect
  extract_lets beyond s1 s2 s3
  have h1 : Agrees ks r s1 := h.trans (.of_objs rfl)
  clear_value s1
  have h2 : Agrees ks r s2 := marks_chan hks (marks_chan hks h1 (by decide)) (by decide)
  clear_value s2
  have h3 : Agrees ks r s3 := marks_chan hks (h2.trans (.of_objs rfl)) (by decide)
  clear_value s3
  split
  · exact marks_chan hks h3 (by decide)
  · exact h3

theorem marks_startHead (h : Agrees ks r s) : Agrees ks r (startHead s n) := by
  unfold startHead
  split
  · exact h
  · split
    · exact marks_startEffect hks ((marks_endRunning hks h).trans (.of_objs rfl))
    · exact h

theorem marks_overlayHead (h : Agrees ks r s) : Agrees ks r (overlayHead s n) := by
  unfold overlayHead
  split
  · exact h
  · split
    · exact marks_startHead hks h
    · exact h

theorem marks_enqueue {e : Effect} (h : Agrees ks r s) : Agrees ks r (enqueue s n e) := by
  have hqueue (q : List Effect) : Agrees ks r (setQueue s n q) := h.trans (.of_objs rfl)
  unfold enqueue
  refine marks_overlayHead hks ?_
  split
  · exact hqueue _
  · split
    · split
      · exact marks_effectEnds hks (hqueue _)
      · exact marks_effectEnds hks h
    · exact h

theorem marks_effectArrives {e : Effect} (h : Agrees ks r s) : Agrees ks r (effectArrives s n e) := by
  unfold effectArrives
  split
  · exact marks_effectEnds hks h
  · split <;> split
    · exact marks_startEffect hks h
    · exact marks_enqueue hks h
    · exact marks_startEffect hks (marks_endRunning hks h)
    · exact marks_enqueue hks h

theorem marks_zoneEffect {effect : Nat} (h : Agrees ks r s) : Agrees ks r (zoneEffect s p n effect) :=
  marks_effectArrives hks (s := (takeHapId s).1) (h.trans (.of_objs rfl))

end

/-! ## An exchanged channel (R335, R360) -/

theorem marks_of_health (h : Agrees ks r s) (hobjs : onlyObjsAndNotes healthKeys s t) : Agrees ks r t :=
  h.trans (.of_onlyAndNotes hobjs fun _ hk => ⟨mark_not_health hks hk, mark_note hks hk⟩)

theorem marks_failSpare {spare cause : Nat} (h : Agrees ks r s) : Agrees ks r (failSpare s clsChannel spare cause) :=
  marks_of_health hks (s := setUnit s clsChannel spare unitFailed) (h.trans (.of_objs rfl))
    (grogShown_objs (setUnit s clsChannel spare unitFailed) clsChannel 3 spare 65535 cause 0 true)

theorem marks_trySpares {cause : Nat} {passes : Nat → Bool} (l : List Nat) (h : Agrees ks r s) :
    Agrees ks r (trySpares s clsChannel cause passes l).1 := by
  induction l generalizing s with
  | nil => exact h
  | cons u l ih =>
    rw [trySpares]
    split
    · exact h
    · exact ih (marks_failSpare hks h)

theorem marks_chip {c sub : Nat} {v : Val} (h : Agrees ks r s) (hc : c < 4) (hsub : sub < 256) :
    Agrees ks r (putV s (objKey (0x4410 + c) sub) v) := agrees_putV h (not_mark hks (by omega) hsub)

theorem marks_touch {sub : Nat} {v : Val} (h : Agrees ks r s) (hne : sub ≠ 1 ∧ sub ≠ 5 ∧ sub ≠ 10) (hsub : sub < 256) :
    Agrees ks r (putV s (objKey (0x4430 + p) sub) v) := agrees_putV h (not_mark hks (.inr (.inr ⟨by omega, hne⟩)) hsub)

end

/-! ## The record of the panel through a frame -/

/-- The frame's mark and raw counts are still there, and the objects `ks` are as they were. -/
structure FrameStep (p : Nat) (ks : List Nat) (r s : State) : Prop where
  raw : (panelOf s p).raw = (panelOf r p).raw
  mark : (panelOf s p).markAt = (panelOf r p).markAt
  objs : Agrees ks r s

namespace FrameStep

theorem refl (p : Nat) (ks : List Nat) (s : State) : FrameStep p ks s s := ⟨rfl, rfl, .refl _ _⟩

variable {p : Nat} {ks : List Nat} {r s t : State}

theorem trans (h : FrameStep p ks r s) (h' : FrameStep p ks s t) : FrameStep p ks r t :=
  ⟨h'.raw.trans h.raw, h'.mark.trans h.mark, h.objs.trans h'.objs⟩

theorem mono {js : List Nat} (h : FrameStep p ks r s) (hjs : ∀ k ∈ js, k ∈ ks) : FrameStep p js r s :=
  ⟨h.raw, h.mark, fun k hk => h.objs k (hjs k hk)⟩

/-- A step that touches no panel. -/
theorem quiet (h : FrameStep p ks r s) (hpanels : t.panels = s.panels) (hobjs : Agrees ks s t) : FrameStep p ks r t := by
  have hpanel : panelOf t p = panelOf s p := by rw [panelOf, hpanels, ← panelOf]
  exact ⟨by rw [hpanel, h.raw], by rw [hpanel, h.mark], h.objs.trans hobjs⟩

/-- A change of the record that keeps the mark and the raw counts. -/
theorem modPanel {g : Panel → Panel} (h : FrameStep p ks r s) (hraw : (g (panelOf s p)).raw = (panelOf s p).raw)
    (hmark : (g (panelOf s p)).markAt = (panelOf s p).markAt) : FrameStep p ks r (modPanel s p g) := by
  have hpanel : panelOf (Machine.modPanel s p g) p = g (panelOf s p) := panelOf_modPanel ..
  exact ⟨by rw [hpanel, hraw, h.raw], by rw [hpanel, hmark, h.mark], h.objs.trans (.of_objs rfl)⟩

theorem foldl {α : Type} {f : State → α → State} (l : List α) (h : FrameStep p ks r s)
    (hf : ∀ x, ∀ a ∈ l, FrameStep p ks r x → FrameStep p ks r (f x a)) : FrameStep p ks r (l.foldl f s) := by
  induction l generalizing s with
  | nil => exact h
  | cons a l ih => exact ih (hf s a (.head _) h) fun x b hb => hf x b (.tail _ hb)

end FrameStep

section
variable {p : Nat} {ks : List Nat} (hks : Marks p ks)
include hks

variable {r s : State}

theorem frame_touch {sub : Nat} {v : Val} (h : FrameStep p ks r s) (hne : sub ≠ 1 ∧ sub ≠ 5 ∧ sub ≠ 10) (hsub : sub < 256) :
    FrameStep p ks r (putV s (objKey (0x4430 + p) sub) v) := h.quiet rfl (marks_touch hks (.refl _ _) hne hsub)

theorem frame_chip {c sub : Nat} {v : Val} (h : FrameStep p ks r s) (hc : c < 4) (hsub : sub < 256) :
    FrameStep p ks r (putV s (objKey (0x4410 + c) sub) v) := h.quiet rfl (marks_chip hks (.refl _ _) hc hsub)

/-! ## The steps of a frame -/

theorem frame_recalStep (h : FrameStep p ks r s) : FrameStep p ks r (recalStep s p) :=
  FrameStep.foldl _ h fun x e _ hx => by
    split
    · exact hx.modPanel rfl rfl
    · exact frame_touch hks (hx.modPanel rfl rfl) (by decide) (by decide)

theorem frame_recalBegin {grid n : Nat} (h : FrameStep p ks r s) : FrameStep p ks r (recalBegin s p grid n) :=
  FrameStep.foldl _ h fun x i _ hx => by
    split
    · exact frame_touch hks (hx.modPanel rfl rfl) (by decide) (by decide)
    · exact hx.modPanel rfl rfl

theorem frame_beginContact {used : List Nat} {o : TouchObject} {suspect : Bool} (h : FrameStep p ks r s) :
    FrameStep p ks r (beginContact s p used o suspect).1 := by
  unfold beginContact
  dsimp only
  split
  · exact h.quiet ((zoneEffect_ch (List.Subset.refl _) (Changes.refl _ s)).panels (by decide)) (marks_zoneEffect hks (.refl _ _))
  · exact h

theorem frame_contacts {used : List Nat} {isSus : Nat → Bool} (l : List TouchObject) (a : State × List Contact) (h : FrameStep p ks r a.1) :
    FrameStep p ks r (l.foldl (fun (a : State × List Contact) o =>
      let (s, c) := beginContact a.1 p (used ++ a.2.map (·.id)) o (isSus o.peak)
      (s, a.2 ++ [c])) a).1 := by
  induction l generalizing a with
  | nil => exact h
  | cons o l ih => exact ih _ (frame_beginContact hks h)

theorem frame_contactStep (h : FrameStep p ks r s) : FrameStep p ks r (contactStep s p).1 := by
  unfold contactStep
  extract_lets P thr ref isSus objs large small weak fo s1 s2 taken room
  have h1 : FrameStep p ks r s1 := frame_touch hks h (by decide) (by decide)
  have h2 : FrameStep p ks r s2 := h1.modPanel rfl rfl
  have hbegun := frame_contacts hks (used := taken) (isSus := isSus) (fo.free.take room) (s2, []) h2
  split
  next u begun heq =>
  rw [heq] at hbegun
  have hover {n : Nat} : FrameStep p ks r (bumpBy u (K.panelOver p) n) := frame_touch hks hbegun (by decide) (by decide)
  exact frame_touch hks (hover.modPanel rfl rfl) (by decide) (by decide)

theorem frame_writeReport {f : Nat} {b : TouchBuffer} {rs : List (Contact × Nat)} {palm beyond : Bool} (h : FrameStep p ks r s) :
    FrameStep p ks r (writeReport s p f b rs palm beyond) := by
  unfold writeReport
  extract_lets k head body all a s1 s2 s3 s4 s5
  have hwritten : Changes [.host, .notes] s s3 :=
    hostWrite_ch (by decide) (hostWrite_ch (by decide) (hostWrite_ch (by decide) (Changes.refl _ s)))
  have h4 : FrameStep p ks r s4 := (h.quiet (hwritten.panels (by decide)) (marks_of_changes hks (.refl _ _) hwritten (by decide))).quiet rfl
    (.of_objs rfl)
  clear_value s4
  have h5 : FrameStep p ks r s5 := h4.modPanel rfl rfl
  clear_value s5
  exact h5.quiet ((FrameEvents.emit_changes s5 ..).panels (by decide)) (marks_emit hks (.refl _ _))

theorem frame_writeReports {rs : List (Contact × Nat)} {beyond : Bool} {latency : Nat} (h : FrameStep p ks r s) :
    FrameStep p ks r (writeReports s p rs beyond latency) :=
  FrameStep.foldl _ h fun x e _ hx => by
    have hput {y : State} {sub n : Nat} (hy : FrameStep p ks r y) (hsub : sub < 256) : FrameStep p ks r (putN y (objKey 0x4400 sub) n) :=
      hy.quiet rfl (agrees_putV (.refl _ _) (not_mark hks (.inl (by decide)) hsub))
    dsimp only
    split
    · exact hx
    · exact frame_writeReport hks (hput (hput hx (by decide)) (by decide))

/-! ## The check of the channels -/

omit hks in
theorem relearnLine_fields (nodes ref : List Nat) (covered : Bool) (P : Panel) :
    (nodes.foldl (fun P i =>
      if covered then
        { P with base := P.base.set i (if ref.isEmpty then P.base.getD i 0 else ((ref.getD i 0 : Nat) : ℚ)), sus := tset P.sus i 0 }
      else rebase P i ((P.raw.getD i 0 : Nat) : ℚ)) P).raw = P.raw ∧
    (nodes.foldl (fun P i =>
      if covered then
        { P with base := P.base.set i (if ref.isEmpty then P.base.getD i 0 else ((ref.getD i 0 : Nat) : ℚ)), sus := tset P.sus i 0 }
      else rebase P i ((P.raw.getD i 0 : Nat) : ℚ)) P).markAt = P.markAt := by
  induction nodes generalizing P with
  | nil => exact ⟨rfl, rfl⟩
  | cons i nodes ih =>
    rw [List.foldl_cons]
    cases covered <;> exact ih _

theorem frame_rebuildLine {l : Nat} (h : FrameStep p ks r s) : FrameStep p ks r (rebuildLine s p l) := by
  unfold rebuildLine
  extract_lets tx rx nodes P covered ref
  obtain ⟨hraw, hmark⟩ := relearnLine_fields nodes ref covered (panelOf s p)
  exact frame_touch hks (h.modPanel hraw hmark) (by decide) (by decide)

theorem frame_trySpares {cause : Nat} {passes : Nat → Bool} (l : List Nat) (h : FrameStep p ks r s) :
    FrameStep p ks r (trySpares s clsChannel cause passes l).1 :=
  h.quiet ((trySpares_ch (List.Subset.refl _) (Changes.refl _ s)).panels (by decide)) (marks_trySpares hks l (.refl _ _))

theorem frame_substitute {u v cause g : Nat} (h : FrameStep p ks r s) : FrameStep p ks r (substitute s clsChannel u v cause g) :=
  h.quiet ((substitute_ch (List.Subset.refl _) (Changes.refl _ s)).panels (by decide)) 
    (marks_of_health hks (.refl _ _) (substitute_objs s clsChannel u v cause g))

theorem frame_retireUnit {u cause : Nat} (h : FrameStep p ks r s) : FrameStep p ks r (retireUnit s clsChannel u cause) :=
  h.quiet ((retireUnit_ch (List.Subset.refl _) (Changes.refl _ s)).panels (by decide))
    (marks_of_health hks (.refl _ _) (retireUnit_objs s clsChannel u cause))

theorem frame_failSpare {u cause : Nat} (h : FrameStep p ks r s) : FrameStep p ks r (failSpare s clsChannel u cause) := by
  have hch : Changes [.fresh, .objs, .voteSecond, .funcs, .sess, .frames, .grog, .notes] s (failSpare s clsChannel u cause) :=
    failSpare_ch (List.Subset.refl _) (Changes.refl _ s)
  exact h.quiet (hch.panels (by decide)) (marks_failSpare hks (.refl _ _))

theorem frame_spareChannel {c ch cause : Nat} {ok : Nat → Bool} (hc : c < 4) (h : FrameStep p ks r s) :
    FrameStep p ks r (spareChannel s p c ch ok cause).1 := by
  unfold spareChannel
  extract_lets u free
  generalize padOf s c ch = pad
  have htried := frame_trySpares hks (cause := cause) (passes := fun v => ok (v % 256)) free h
  generalize trySpares s clsChannel cause (fun v => ok (v % 256)) free = tried at htried
  obtain ⟨t, spare⟩ := tried
  clear_value u free
  cases pad with
  | none =>
    dsimp only
    split
    · dsimp only
      exact frame_failSpare hks h
    · exact h
  | some pad =>
    cases spare with
    | none => exact frame_chip hks (frame_retireUnit hks htried) hc (by decide)
    | some v =>
      dsimp only
      have hadvanced : FrameStep p ks r (advanceLogGen t clsChannel v).1 := htried.quiet rfl (.of_objs rfl)
      generalize advanceLogGen t clsChannel v = advanced at hadvanced
      obtain ⟨x, g⟩ := advanced
      dsimp only
      have hsubst : FrameStep p ks r (substitute x clsChannel u v cause g) := frame_substitute hks hadvanced
      generalize substitute x clsChannel u v cause g = y at hsubst ⊢
      have hmap (m : List Byte) (n : Nat) : FrameStep p ks r (putN (putV y (K.chipMap c) (.bytes m)) (K.chipSpares c) n) :=
        frame_chip hks (frame_chip hks hsubst hc (by decide)) hc (by decide)
      split
      · exact frame_rebuildLine hks (hmap _ _)
      · exact hmap _ _

theorem frame_checkStep {a : State × Bool} {e : Nat × Bool × Bool × Bool} (hc : e.1 < 4) (h : FrameStep p ks r a.1) :
    FrameStep p ks r (checkStep p a e).1 := by
  unfold checkStep
  extract_lets c ch s1
  have h1 : FrameStep p ks r s1 := h.modPanel rfl rfl
  clear_value s1
  split
  · exact h1
  · exact frame_spareChannel hks hc h1

theorem frame_checkChannels {oks : List (Bool × Bool × Bool)} (h : FrameStep p ks r s) : FrameStep p ks r (checkChannels s p oks).1 := by
  rw [checkChannels_eq]
  have hall : ∀ (l : List (Nat × Bool × Bool × Bool)) (a : State × Bool), (∀ e ∈ l, e.1 < 4) → FrameStep p ks r a.1 →
      FrameStep p ks r (l.foldl (checkStep p) a).1 := by
    intro l
    induction l with
    | nil => exact fun _ _ ha => ha
    | cons e l ih => exact fun a hl ha => ih _ (fun e' he' => hl e' (.tail _ he')) (frame_checkStep hks (hl e (.head _)) ha)
  exact hall _ _ (fun e he => TouchTests.chip_lt (List.of_mem_zip he).1) h

end

/-! ## A frame (R338) -/

/-- The marks of a panel but its frequency. -/
def countMarks (p : Nat) : List Nat := [K.panelState p, K.panelFrames p]

def allMarks (p : Nat) : List Nat := [K.panelState p, K.panelFrames p, K.panelFreq p]

theorem marks_count {p : Nat} (hp : p < 4) : Marks p (countMarks p) := ⟨hp, fun _ hk => .inl (List.mem_append_left [K.panelFreq p] hk)⟩

theorem marks_all {p : Nat} (hp : p < 4) : Marks p (allMarks p) := ⟨hp, fun _ hk => .inl hk⟩

/-- A frame has been processed: its channels are still to be checked. -/
structure Processed (s : State) (p : Nat) (f : TouchFrame) (v : State) : Prop where
  state : panSt v p = panSt s p
  frames : getN v (K.panelFrames p) = (getN s (K.panelFrames p) + 1) % 2 ^ 32
  freq : getN v (K.panelFreq p) = f.freq
  mark : (panelOf v p).markAt = s.now
  raw : maskedLines s p = [] → (panelOf v p).raw = (f.nodes ++ f.lines).map (·.toNat)

theorem Processed.frame {s v w : State} {p : Nat} {f : TouchFrame} (h : Processed s p f v) (hw : FrameStep p (allMarks p) v w) :
    Processed s p f w :=
  ⟨(hw.objs.getN (.head _)).trans h.state, (hw.objs.getN (.tail _ (.head _))).trans h.frames,
    (hw.objs.getN (.tail _ (.tail _ (.head _)))).trans h.freq, hw.mark.trans h.mark, fun hmask => hw.raw.trans (h.raw hmask)⟩

/-- The frame, counted and kept. -/
def frameStored (s : State) (p : Nat) (raw : List Nat) : State :=
  let s := { s with fresh := s.fresh + 17000 }
  modPanel s p (fun P => { P with raw := raw, markAt := s.now, limit := getN s (K.panelStuck p) })

theorem frameStored_panel (s : State) (p : Nat) (raw : List Nat) :
    (panelOf (frameStored s p raw) p).raw = raw ∧ (panelOf (frameStored s p raw) p).markAt = s.now := by
  rw [frameStored, panelOf_modPanel]
  exact ⟨rfl, rfl⟩

/-- A processed frame's frequency is shown. -/
theorem processed_freq {s u w : State} {p : Nat} {f : TouchFrame} (hp : p < 4) {raw : List Nat}
    (hframe : FrameStep p (countMarks p) (frameStored u p raw) w) (hnow : u.now = s.now) (hstate : panSt u p = panSt s p)
    (hframes : getN u (K.panelFrames p) = (getN s (K.panelFrames p) + 1) % 2 ^ 32)
    (hraw : maskedLines s p = [] → raw = (f.nodes ++ f.lines).map (·.toNat)) :
    Processed s p f (putN (showSuspects w p) (K.panelFreq p) f.freq) := by
  have hshown : FrameStep p (countMarks p) (frameStored u p raw) (putN (showSuspects w p) (K.panelFreq p) f.freq) :=
    (frame_touch (marks_count hp) (sub := 3) hframe (by decide) (by decide)).quiet rfl (agrees_putV (.refl _ _) (by
      simp only [countMarks, List.mem_cons, List.not_mem_nil, or_false, K.panelFreq, K.panelState, K.panelFrames, objKey]
      omega))
  obtain ⟨hstored, hmark⟩ := frameStored_panel u p raw
  exact ⟨(hshown.objs.getN (.head _)).trans hstate, (hshown.objs.getN (.tail _ (.head _))).trans hframes, getN_putN ..,
    hshown.mark.trans (hmark.trans hnow), fun hmask => hshown.raw.trans (hstored.trans (hraw hmask))⟩

/-- A panel that fails keeps its last frame. -/
theorem panelFails_frame {s : State} {p : Nat} (hp : p < 4) : (panelOf (panelFails s p) p).raw = (panelOf s p).raw ∧
    (panelOf (panelFails s p) p).markAt = (panelOf s p).markAt ∧ Agrees [K.panelFrames p, K.panelFreq p] s (panelFails s p) := by
  obtain ⟨-, hobjs⟩ := panelFails_spec (s := s) hp
  have hpanel : panelOf (panelFails s p) p = failedPanel (panelOf s p) := by
    rw [panelFails_eq]
    have hfailed : panelOf (failShown s p) p = failedPanel (panelOf s p) := panelOf_modPanel ..
    generalize failShown s p = v at *
    have hch : Changes [.fresh, .objs, .voteSecond, .funcs, .sess, .frames, .grog, .notes] v (updateHealth (emit v 4 0x0404 p
        (leBytes 1 p ++ leBytes 4 (getN v (K.panelTestResult p))) (touchFuncs v p))) :=
      updateHealth_ch (by decide) (emit_ch (by decide) (Changes.refl _ v))
    rw [panelOf, hch.panels (by decide), ← panelOf, hfailed]
  refine ⟨by rw [hpanel]; rfl, by rw [hpanel]; rfl, .of_onlyAndNotes hobjs fun k hk => ?_⟩
  have hmark : k ∈ allMarks p := .tail _ hk
  refine ⟨fun hmem => ?_, mark_note (marks_all hp) hmark⟩
  obtain hpan | hhealth := List.mem_append.1 hmem
  · simp only [List.mem_cons, List.not_mem_nil, or_false, K.panelFrames, K.panelFreq, K.panelState, K.panelContacts, objKey] at hk hpan
    omega
  · exact mark_not_health (marks_all hp) hmark hhealth

theorem touchFrameMark_processed {s : State} {p : Fin 4} {f : TouchFrame} (hactive : panSt s p = panActive)
    (hnodes : f.nodes.length = panTx s p * panRx s p) (hlines : f.lines.length = panTx s p + panRx s p)
    (hdue : (panelOf s p).markAt = 0 ∨ (panelOf s p).markAt + 4166666 ≤ s.now) :
    ∃ v, Processed s p f v ∧ exec (.touchFrameMark p f) s =
        .next (if (checkChannels v p f.chanOk).2 then (checkChannels v p f.chanOk).1 else panelFails (checkChannels v p f.chanOk).1 p) := by
  show ∃ v, _ ∧ execTouchFrameMark p f s = _
  have hp := p.isLt
  unfold execTouchFrameMark
  extract_lets q tx rx n thr s1 raw s2 s3 held s4
  have hgo : ¬ (panSt s q ≠ panActive ∨ f.nodes.length ≠ tx * rx ∨ f.lines.length ≠ tx + rx
      ∨ (0 < (panelOf s q).markAt ∧ s.now < (panelOf s q).markAt + 4166666)) := by
    rw [not_or, not_or, not_or]
    exact ⟨not_not.2 hactive, not_not.2 hnodes, not_not.2 hlines, fun h => hdue.elim (fun h0 => absurd h0 (Nat.pos_iff_ne_zero.1 h.1))
      fun hlate => absurd h.2 (Nat.not_lt.2 hlate)⟩
  rw [if_neg hgo]
  have hstate : panSt s1 q = panSt s q := getN_putN_ne _ _ (by simp only [K.panelState, K.panelFrames, objKey]; omega)
  have hframes : getN s1 (K.panelFrames q) = (getN s (K.panelFrames q) + 1) % 2 ^ 32 := getN_putN ..
  have hmasked : maskedLines s1 q = maskedLines s q := by
    have hkept : getV s1 (K.panelMaskLines q) = getV s (K.panelMaskLines q) :=
      getV_putV_ne _ _ (by simp only [K.panelMaskLines, K.panelFrames, objKey]; omega)
    rw [maskedLines, maskedLines, getBytes, getBytes, hkept]
  have hraw : maskedLines s q = [] → raw = (f.nodes ++ f.lines).map (·.toNat) := fun hmask => fillMasked_none (hmasked.trans hmask) _
  have h4 : FrameStep q (countMarks q) (frameStored s1 q raw) s4 := by
    have h3 : FrameStep q (countMarks q) (frameStored s1 q raw) s3 := .refl ..
    clear_value s3
    unfold s4
    split
    · exact h3
    · exact frame_recalBegin (marks_count hp) (frame_recalStep (marks_count hp) h3)
  clear_value s4
  have hcontacts := frame_contactStep (marks_count hp) h4
  generalize contactStep s4 q = stepped at hcontacts ⊢
  obtain ⟨u, rs, beyond⟩ := stepped
  dsimp -zeta only at hcontacts ⊢
  extract_lets P ours frozen s5 s6 s7 s8 v
  have h5 : FrameStep q (countMarks q) (frameStored s1 q raw) s5 := by
    unfold s5
    split
    · exact hcontacts
    · exact hcontacts.modPanel rfl rfl
  clear_value s5
  have h6 : FrameStep q (countMarks q) (frameStored s1 q raw) s6 := h5.modPanel rfl rfl
  clear_value s6
  have h7 : FrameStep q (countMarks q) (frameStored s1 q raw) s7 := by
    unfold s7
    split
    · exact h6
    · exact h6.modPanel rfl rfl
  clear_value s7
  have h8 : Processed s q f s8 := processed_freq hp h7 rfl hstate hframes hraw
  clear_value s8
  have hv : Processed s q f v := by
    unfold v
    split
    · exact h8
    · exact h8.frame (frame_writeReports (marks_all hp) (.refl ..))
  clear_value v
  exact ⟨v, hv, rfl⟩

/-- A frame is counted and kept (R338). -/
theorem touchFrameMark_spec {s : State} {p : Fin 4} {f : TouchFrame} (hactive : panSt s p = panActive)
    (hnodes : f.nodes.length = panTx s p * panRx s p) (hlines : f.lines.length = panTx s p + panRx s p)
    (hdue : (panelOf s p).markAt = 0 ∨ (panelOf s p).markAt + 4166666 ≤ s.now) :
    ∃ t, exec (.touchFrameMark p f) s = .next t ∧ getN t (K.panelFrames p) = (getN s (K.panelFrames p) + 1) % 2 ^ 32 ∧
      getN t (K.panelFreq p) = f.freq ∧ (panelOf t p).markAt = s.now ∧
      ((∀ e ∈ f.chanOk, e.1 = true) → panSt t p = panActive) ∧
      (maskedLines s p = [] → (panelOf t p).raw = (f.nodes ++ f.lines).map (·.toNat)) := by
  obtain ⟨v, hv, hexec⟩ := touchFrameMark_processed hactive hnodes hlines hdue
  have hchecked : Processed s p f (checkChannels v p f.chanOk).1 := hv.frame (frame_checkChannels (marks_all p.isLt) (.refl ..))
  have hpass (hok : ∀ e ∈ f.chanOk, e.1 = true) : (checkChannels v p f.chanOk).2 = true := (checkChannels_pass v p hok).1
  generalize checkChannels v p f.chanOk = checked at *
  obtain ⟨u, served⟩ := checked
  dsimp only at hexec hchecked hpass
  cases served with
  | true =>
    rw [if_pos rfl] at hexec
    exact ⟨u, hexec, hchecked.frames, hchecked.freq, hchecked.mark, fun _ => hchecked.state.trans hactive, hchecked.raw⟩
  | false =>
    rw [if_neg Bool.false_ne_true] at hexec
    obtain ⟨hraw, hmark, hobjs⟩ := panelFails_frame (s := u) p.isLt
    exact ⟨panelFails u p, hexec, (hobjs.getN (.head _)).trans hchecked.frames, (hobjs.getN (.tail _ (.head _))).trans hchecked.freq,
      hmark.trans hchecked.mark, fun hok => absurd (hpass hok) Bool.false_ne_true, fun hmask => hraw.trans (hchecked.raw hmask)⟩

end Sys2Proof.Proofs.TouchFrames

/-!
PROOFS. O51, its last part: panel.enable (R362, R363), and the whole.
-/

namespace Sys2Proof.Proofs.TouchEnable

open Sys2Proof.Machine
open Sys2Proof.Proofs.ModeFrame
open Sys2Proof.Proofs.DeviceFrame
open Sys2Proof.Proofs.DeviceSettling
open Sys2Proof.Proofs.VirtualFunctions (isMgr_session)
open Sys2Proof.Proofs.ClocksAndSpares (areaWrite_unclaimed)
open Sys2Proof.Proofs.TouchPanels
open Sys2Proof.Proofs.TouchWrites
open Sys2Proof.Proofs.TouchTests
open Sys2Proof.Proofs.TouchFrames

/-! ## The objects and the domains of a panel -/

def panelKeys (p : Nat) : List Nat :=
  [objKey (0x4420 + p) 1, objKey (0x4420 + p) 2, objKey (0x4430 + p) 1, objKey (0x4430 + p) 5, objKey (0x4430 + p) 2]

def settledKeys (p : Nat) : List Nat := calmKeys [19, 20] ++ panelKeys p

theorem mem_settled_calm {p k : Nat} (h : k ∈ calmKeys [19, 20]) : k ∈ settledKeys p := List.mem_append_left _ h

theorem mem_settled_panel {p k : Nat} (h : k ∈ panelKeys p) : k ∈ settledKeys p := List.mem_append_right _ h

theorem touch_domains : ∀ d ∈ [19, 20], 19 ≤ d ∧ d < 23 := by decide

theorem settled_range {p k : Nat} (h : k ∈ settledKeys p) :
    (k / 256 = 0x4420 + p ∨ k / 256 = 0x4430 + p) ∨ k / 256 = 0x7011 ∨ (0x9200 ≤ k / 256 ∧ k / 256 < 0x9208) := by
  refine (List.mem_append.1 h).elim (fun hcalm => .inr (calmKeys_apart touch_domains hcalm).1) fun hpan => .inl ?_
  simp only [panelKeys, List.mem_cons, List.not_mem_nil, or_false, objKey] at hpan
  omega

theorem chipDomain_mem (c : Nat) : chipDomain c ∈ [19, 20] := by
  unfold chipDomain
  split <;> decide

/-- The domains of a panel's chiplets. -/
def panelDomains (s : State) (p : Nat) : List Nat := (panelChips s p).map chipDomain

theorem panelDomains_mem {s : State} {p d : Nat} (h : d ∈ panelDomains s p) : d ∈ [19, 20] := by
  obtain ⟨c, -, rfl⟩ := List.mem_map.1 h
  exact chipDomain_mem c

section
variable {p : Nat} (hp : p < 4)
include hp

theorem panel_device {ds : List Nat} {r : State} (hds : ∀ d ∈ ds, d ∈ [19, 20])
    (hwants : ∀ x, DevFrame (settledKeys p) ds r x → ∀ d ∈ ds, wanted x d = true) : Device (settledKeys p) ds r where
  apart := fun k hk => by
    have hrange := settled_range hk
    refine ⟨by omega, by omega, by omega, ?_⟩
    obtain hcalm | hpan := List.mem_append.1 hk
    · exact (calmKeys_apart touch_domains hcalm).2
    · simp only [panelKeys, List.mem_cons, List.not_mem_nil, or_false] at hpan
      obtain rfl | rfl | rfl | rfl | rfl := hpan <;> exact touchKey_note (by omega) (by decide)
  chips := fun d hd => touch_domains d (hds d hd)
  wants := hwants

theorem quiet_device {r : State} : Device (settledKeys p) [] r := panel_device hp (by simp) fun _ _ _ hd => (List.not_mem_nil hd).elim

/-- The chiplets' domains of an enabled panel stay wanted while the module is calm. -/
theorem panel_wanted {ds : List Nat} {r : State} (hcalm : Calm [19, 20] r) (hon : getB r (K.panelEnable p) = true) (hds : ∀ d ∈ ds, d ∈ panelDomains r p)
    (x : State) (h : DevFrame (settledKeys p) ds r x) (d : Nat) (hd : d ∈ ds) : wanted x d = true := by
  have hx : Calm [19, 20] x := hcalm.devFrame touch_domains (fun k hk => mem_settled_calm hk) h
  have hmem := panelDomains_mem (hds d hd)
  obtain ⟨c, hc, hcd⟩ := List.mem_map.1 (hds d hd)
  have hchips : panelChips x p = panelChips r p := congrArg chipsOf (h.objs.getN (mem_settled_panel (.tail _ (.head _))))
  have henable : getB x (K.panelEnable p) = true := by
    have hkept : getN x (K.panelEnable p) = getN r (K.panelEnable p) := h.objs.getN (mem_settled_panel (.head _))
    rw [getB, hkept, ← getB, hon]
  have hrow : rowCondition x d = (List.range 4).any (fun p => getB x (K.panelEnable p) && (panelChips x p).any (fun c => chipDomain c == d)) := by
    simp only [List.mem_cons, List.not_mem_nil, or_false] at hmem
    obtain rfl | rfl := hmem <;> rfl
  refine hx.wanted hmem (touch_domains d hmem).1 ?_
  rw [hrow, List.any_eq_true]
  refine ⟨p, List.mem_range.2 hp, ?_⟩
  rw [henable, hchips, Bool.true_and, List.any_eq_true]
  exact ⟨c, hc, beq_iff_eq.2 hcd⟩

end

/-! ## The other panels -/

theorem panelOf_of_changes {P : List Part} {s t : State} (h : Changes P s t) (hP : Part.panels ∉ P) (p : Nat) : panelOf t p = panelOf s p := by
  rw [panelOf, h.panels hP, ← panelOf]

theorem panelOf_foldl {α : Type} {p : Nat} {f : State → α → State} (hf : ∀ x a, panelOf (f x a) p = panelOf x p) (l : List α) (s : State) :
    panelOf (l.foldl f s) p = panelOf s p := by
  induction l generalizing s with
  | nil => rfl
  | cons a l ih => exact (ih _).trans (hf s a)

section
variable {p q : Nat} (h : p ≠ q)
include h

theorem panelOf_writeReport_ne (s : State) (f : Nat) (b : TouchBuffer) (rs : List (Contact × Nat)) (palm beyond : Bool) :
    panelOf (writeReport s q f b rs palm beyond) p = panelOf s p := by
  unfold writeReport
  extract_lets k head body all a s1 s2 s3 s4 s5
  have hwritten : Changes [.host, .notes] s s3 :=
    hostWrite_ch (by decide) (hostWrite_ch (by decide) (hostWrite_ch (by decide) (Changes.refl _ s)))
  have h3 : panelOf s3 p = panelOf s p := panelOf_of_changes hwritten (by decide) p
  clear_value s3
  have h5 : panelOf s5 p = panelOf s3 p := panelOf_modPanel_ne s4 _ h
  clear_value s5
  exact (panelOf_of_changes (FrameEvents.emit_changes s5 ..) (by decide) p).trans (h5.trans h3)

theorem panelOf_writeReports_ne (s : State) (rs : List (Contact × Nat)) (beyond : Bool) (latency : Nat) :
    panelOf (writeReports s q rs beyond latency) p = panelOf s p :=
  panelOf_foldl (fun x e => by
    dsimp only
    split
    · rfl
    · exact panelOf_writeReport_ne h _ ..) _ s

theorem panelOf_releaseBuffer_ne (s : State) (f : Nat) : panelOf (releaseBuffer s q f) p = panelOf s p := by
  unfold releaseBuffer
  split
  · rfl
  next b _ =>
    have hch := complete_ch (t := b.ticket) (status := 0) (result := b.count) (detail := b.count) (List.Subset.refl _)
      (Changes.refl _ (modPanel s q (fun P => { P with bufs := tdel P.bufs f })))
    exact (panelOf_of_changes hch (by decide) p).trans (panelOf_modPanel_ne s _ h)

theorem panelOf_shutPanel_ne (s : State) : panelOf (shutPanel s q) p = panelOf s p := by
  unfold shutPanel
  extract_lets rs s1 s2 s3
  have h1 : panelOf s1 p = panelOf s p := by
    unfold s1
    split
    · exact (panelOf_writeReports_ne h _ ..).trans (panelOf_modPanel_ne s _ h)
    · rfl
  clear_value s1
  have h2 : panelOf s2 p = panelOf s1 p := panelOf_foldl (fun x (e : Nat × TouchBuffer) => panelOf_releaseBuffer_ne h x e.1) _ s1
  clear_value s2
  have h3 : panelOf s3 p = panelOf s2 p := panelOf_modPanel_ne s2 _ h
  clear_value s3
  exact (panelOf_of_changes (settle_ch (List.Subset.refl _) (Changes.refl _ _)) (by decide) p).trans (h3.trans (h2.trans h1))

end

/-! ## The settling -/

/-- The settling leaves a panel alone that neither waits to start nor must stop. -/
theorem panel_settles {p : Nat} (hp : p < 4) {ds : List Nat} {v : State} (hD : Device (settledKeys p) ds v) (hcalm : Calm [19, 20] v)
    (hresume : getB v (K.panelEnable p) = false ∨ panSt v p ≠ panOff)
    (hshed : (∀ d ∈ panelDomains v p, d ∈ ds ∧ domSt v d ≠ domStopping) ∨ panSt v p = panOff ∨ panSt v p = panStopping) :
    Settles (fun x => DevFrame (settledKeys p) ds v x ∧ panelOf x p = panelOf v p) := by
  have hkey {x : State} (hx : DevFrame (settledKeys p) ds v x) {k : Nat} (hk : k ∈ panelKeys p) : getN x k = getN v k :=
    hx.objs.getN (mem_settled_panel hk)
  have hstate {x : State} (hx : DevFrame (settledKeys p) ds v x) : panSt x p = panSt v p := hkey hx (.tail _ (.tail _ (.head _)))
  have hhap : ∀ k ∈ settledKeys p, k < 0x4800 * 256 ∨ 0x4820 * 256 ≤ k := fun k hk => by
    have hrange := settled_range hk
    omega
  have hsnd : ∀ k ∈ settledKeys p, k < 0x4C00 * 256 ∨ 0x4C70 * 256 ≤ k := fun k hk => by
    have hrange := settled_range hk
    omega
  have hpan {q : Nat} (hq : q < 4) (hne : p ≠ q) : ∀ k ∈ settledKeys p, k / 256 ≠ 0x4400 ∧ k / 256 ≠ 0x4420 + q ∧ k / 256 ≠ 0x4430 + q :=
    fun k hk => by
      have hrange := settled_range hk
      omega
  have hpart {P : List Part} {x y : State} (hx : panelOf x p = panelOf v p) (hch : Changes P x y) (hP : Part.panels ∉ P) :
      panelOf y p = panelOf v p := (panelOf_of_changes hch hP p).trans hx
  refine ⟨fun x ⟨hx, hs⟩ => ⟨.settle hD hx, hpart hs (settle_ch (List.Subset.refl _) (Changes.refl _ x)) (by decide)⟩,
    fun x q hq ⟨hx, hs⟩ => ⟨⟨devFrame_restartOutput hD hq hx, hpart hs (restartOutput_changes x q) (by decide)⟩,
      ⟨devFrame_shedOutput hD hq hx, hpart hs (shedOutput_changes x q) (by decide)⟩⟩,
    fun x ⟨hx, hs⟩ => ⟨?_, ?_⟩, fun x q hq ⟨hx, hs⟩ => ?_, fun x ⟨hx, hs⟩ => ⟨?_, ?_⟩, fun x i hi ⟨hx, hs⟩ =>
      (hcalm.devFrame touch_domains (fun k hk => mem_settled_calm hk) hx).spreads i hi⟩
  · unfold resumeHaptics
    split
    · exact ⟨devFrame_startHaptics hD hhap hx, hpart hs (startHaptics_ch (List.Subset.refl _) (Changes.refl _ x)) (by decide)⟩
    · exact ⟨hx, hs⟩
  · unfold shedHaptics
    split
    · exact ⟨devFrame_shutHaptics hD hhap hx, hpart hs (shutHaptics_ch (List.Subset.refl _) (Changes.refl _ x)) (by decide)⟩
    · exact ⟨hx, hs⟩
  · by_cases hqp : p = q
    · subst hqp
      have hresumed : resumePanel x p = x := by
        have hstays : (enabled x (K.panelEnable p) && panSt x p == panOff) = false := by
          have henable : getN x (K.panelEnable p) = getN v (K.panelEnable p) := hkey hx (.head _)
          rw [enabled, getB, henable, ← getB, hstate hx]
          obtain hoff | hrun := hresume
          · rw [hoff]; rfl
          · rw [beq_eq_false_iff_ne.2 hrun, Bool.and_false]
        rw [resumePanel, hstays]
        rfl
      have hshedded : shedPanel x p = x := by
        have hstays : (stops x ((panelChips x p).map chipDomain) && panSt x p != panOff && panSt x p != panStopping) = false := by
          have hchips : panelChips x p = panelChips v p := congrArg chipsOf (hkey hx (.tail _ (.head _)))
          rw [hstate hx, hchips]
          obtain hdoms | hoff | hstopping := hshed
          · have hnone : stops x ((panelChips v p).map chipDomain) = false := List.any_eq_false.2 fun d hd => by
              obtain ⟨hin, hne⟩ := hdoms d hd
              rw [hx.doms d hin, beq_iff_eq]
              exact hne
            rw [hnone]
            rfl
          · rw [hoff, bne_self_eq_false, Bool.and_false, Bool.false_and]
          · rw [hstopping, bne_self_eq_false, Bool.and_false]
        rw [shedPanel, hstays]
        rfl
      rw [hresumed, hshedded]
      exact ⟨⟨hx, hs⟩, hx, hs⟩
    · refine ⟨?_, ?_⟩
      · unfold resumePanel
        split
        · exact ⟨devFrame_startPanel hD hq (hpan hq hqp) hx, hpart hs (startPanel_ch (List.Subset.refl _) (Changes.refl _ x)) (by decide)⟩
        · exact ⟨hx, hs⟩
      · unfold shedPanel
        split
        · exact ⟨devFrame_shutPanel hD hq (hpan hq hqp) hx, (panelOf_shutPanel_ne hqp x).trans hs⟩
        · exact ⟨hx, hs⟩
  · unfold resumeSound
    split
    · exact ⟨devFrame_startSound hD hsnd hx, hpart hs (startSound_ch (List.Subset.refl _) (Changes.refl _ x)) (by decide)⟩
    · exact ⟨hx, hs⟩
  · unfold shedSound
    split
    · exact ⟨devFrame_shutSound hD hsnd hx, hpart hs (shutSound_ch (List.Subset.refl _) (Changes.refl _ x)) (by decide)⟩
    · exact ⟨hx, hs⟩

/-- The end of a power command leaves the panel as it is, where it neither waits to start nor must stop. -/
theorem panel_powerDone {p : Nat} (hp : p < 4) {ds : List Nat} {v : State} (hD : Device (settledKeys p) ds v) (hcalm : Calm [19, 20] v)
    (hresume : getB v (K.panelEnable p) = false ∨ panSt v p ≠ panOff)
    (hshed : (∀ d ∈ panelDomains v p, d ∈ ds ∧ domSt v d ≠ domStopping) ∨ panSt v p = panOff ∨ panSt v p = panStopping) :
    DevFrame (settledKeys p) ds v (powerDone v) ∧ panelOf (powerDone v) p = panelOf v p := by
  have hsettled := (panel_settles hp hD hcalm hresume hshed).powerSettle ⟨.refl _ _ v, rfl⟩
  have hrun : pwrMode (powerSettle v) = 1 := (hsettled.1.mode.objs.getN (.head _)).trans hcalm.run
  rwa [powerDone_run hrun]

/-! ## The start (R362) -/

theorem calm_device {r : State} : Device (calmKeys [19, 20]) [] r where
  apart := fun k hk => by
    obtain ⟨hrange, hnote⟩ := calmKeys_apart touch_domains hk
    exact ⟨by omega, by omega, by omega, hnote⟩
  chips := fun _ hd => (List.not_mem_nil hd).elim
  wants := fun _ _ _ hd => (List.not_mem_nil hd).elim

theorem calm_frame {r t : State} (hcalm : Calm [19, 20] r) (h : DevFrame (calmKeys [19, 20]) [] r t) : Calm [19, 20] t :=
  hcalm.devFrame touch_domains (fun _ h => h) h

theorem calm_apart {p : Nat} (hp : p < 4) : ∀ k ∈ calmKeys [19, 20], k / 256 ≠ 0x4400 ∧ k / 256 ≠ 0x4420 + p ∧ k / 256 ≠ 0x4430 + p :=
  fun k hk => by
    have hrange := (calmKeys_apart touch_domains hk).1
    omega

/-- A panel that reads STARTING, before its domains are settled. -/
def startShown (s : State) (p : Nat) : State :=
  putN (putN (writeB s (K.panelEnable p) true) (K.panelState p) panStarting) (K.panelFrames p) 0

theorem panelKeys_ne {p : Nat} : K.panelEnable p ≠ K.panelState p ∧ K.panelEnable p ≠ K.panelFrames p ∧ K.panelState p ≠ K.panelFrames p ∧
    K.panelChips p ≠ K.panelEnable p ∧ K.panelChips p ≠ K.panelState p ∧ K.panelChips p ≠ K.panelFrames p := by
  simp only [K.panelEnable, K.panelState, K.panelFrames, K.panelChips, objKey]
  omega

theorem startShown_objs (s : State) {p : Nat} : getB (startShown s p) (K.panelEnable p) = true ∧ panSt (startShown s p) p = panStarting ∧
    getN (startShown s p) (K.panelFrames p) = 0 ∧ panelChips (startShown s p) p = panelChips s p := by
  obtain ⟨hes, hef, hsf, hce, hcs, hcf⟩ := panelKeys_ne (p := p)
  have henable : getN (startShown s p) (K.panelEnable p) = getN (writeB s (K.panelEnable p) true) (K.panelEnable p) :=
    (getN_putN_ne _ _ hef).trans (getN_putN_ne _ _ hes)
  have hchips : getN (startShown s p) (K.panelChips p) = getN s (K.panelChips p) :=
    (getN_putN_ne _ _ hcf).trans ((getN_putN_ne _ _ hcs).trans (getN_writeN_ne s 1 hce))
  refine ⟨?_, (getN_putN_ne _ _ hsf).trans (getN_putN ..), getN_putN .., congrArg chipsOf hchips⟩
  rw [getB, henable, ← getB]
  exact getB_writeB ..

theorem startShown_domSt (s : State) {p d : Nat} (hp : p < 4) (hd : d < 24) : domSt (startShown s p) d = domSt s d :=
  (getN_putN_ne _ _ (by simp only [K.domState, K.panelFrames, objKey]; omega)).trans
    ((getN_putN_ne _ _ (by simp only [K.domState, K.panelState, objKey]; omega)).trans
      (getN_writeN_ne s 1 (by simp only [K.domState, K.panelEnable, objKey]; omega)))

theorem calm_startPanel {p : Nat} (hp : p < 4) {s : State} (hcalm : Calm [19, 20] s) : Calm [19, 20] (startPanel s p) :=
  calm_frame hcalm (devFrame_startPanel calm_device hp (calm_apart hp) (.refl _ _ s))

/-- A panel that starts. -/
structure Starting (s : State) (p : Nat) (t : State) : Prop where
  on : getB t (K.panelEnable p) = true
  state : panSt t p = panStarting
  frames : getN t (K.panelFrames p) = 0
  chips : panelChips t p = panelChips s p
  doms : ∀ d ∈ panelDomains s p, domSt t d = domSt s d

theorem Starting.devFrame {p : Nat} {s v t : State} (h : Starting s p v) (hframe : DevFrame (settledKeys p) (panelDomains s p) v t) :
    Starting s p t := by
  have hkey {k : Nat} (hk : k ∈ panelKeys p) : getN t k = getN v k := hframe.objs.getN (mem_settled_panel hk)
  have henable : getN t (K.panelEnable p) = getN v (K.panelEnable p) := hkey (.head _)
  have hstate : getN t (K.panelState p) = getN v (K.panelState p) := hkey (.tail _ (.tail _ (.head _)))
  have hframes : getN t (K.panelFrames p) = getN v (K.panelFrames p) := hkey (.tail _ (.tail _ (.tail _ (.head _))))
  have hchips : getN t (K.panelChips p) = getN v (K.panelChips p) := hkey (.tail _ (.head _))
  exact ⟨by rw [getB, henable, ← getB, h.on], hstate.trans h.state, hframes.trans h.frames, (congrArg chipsOf hchips).trans h.chips,
    fun d hd => (hframe.doms d hd).trans (h.doms d hd)⟩

theorem startShown_starting (s : State) {p : Nat} (hp : p < 4) : Starting s p (startShown s p) := by
  obtain ⟨hon, hstate, hframes, hchips⟩ := startShown_objs s (p := p)
  exact ⟨hon, hstate, hframes, hchips, fun d hd => startShown_domSt s hp (by have := touch_domains d (panelDomains_mem hd); omega)⟩

/-- The domains of a panel that starts stay wanted. -/
theorem starting_device {p : Nat} (hp : p < 4) {s t : State} (hcalm : Calm [19, 20] t) (h : Starting s p t) :
    Device (settledKeys p) (panelDomains s p) t :=
  panel_device hp (fun _ => panelDomains_mem) (panel_wanted hp hcalm h.on fun d hd => by rw [panelDomains, h.chips]; exact hd)

theorem startPanel_starting {p : Nat} (hp : p < 4) {s : State} (hcalm : Calm [19, 20] s) : Starting s p (startPanel s p) := by
  have hshown := startShown_starting s hp
  have hcalmShown : Calm [19, 20] (startShown s p) := by
    have hwritten : DevFrame (calmKeys [19, 20]) [] s (writeB s (K.panelEnable p) true) :=
      .writeDevice calm_device (.refl _ _ s) (panel_apart (calm_apart hp) (by omega) (by decide)) (by omega) (by decide)
    exact calm_frame hcalm (.putDevice calm_device (.putDevice calm_device hwritten (panel_apart (calm_apart hp) (by omega) (by decide)) (by omega)
      (by decide)) (panel_apart (calm_apart hp) (by omega) (by decide)) (by omega) (by decide))
  have heq : startPanel s p = settle (startShown s p) := rfl
  rw [heq]
  generalize startShown s p = u at *
  exact hshown.devFrame (.settle (starting_device hp hcalmShown hshown) (.refl _ _ u))

/-! ## The stop (R363) -/

/-- A panel's buffers are released after its last reports. -/
def buffersReleased (s : State) (p : Nat) : State :=
  let rs := (panelOf s p).contacts.map (fun c => (c, 5)) ++ (panelOf s p).stuck.map (fun c => (c, 4))
  let s := if panSt s p = panActive ∧ !(panelOf s p).testing then
      writeReports (modPanel s p (fun P => { P with large := [] })) p rs false (getN s K.touchLatLast)
    else s
  (panelOf s p).bufs.foldl (fun s e => releaseBuffer s p e.1) s

/-- A panel that reads STOPPING, before its domains are settled. -/
def stopShown (s : State) (p : Nat) : State :=
  putN (putN (putN (modPanel s p (fun P => { chanNext := P.chanNext })) (K.panelState p) panStopping) (K.panelContacts p) 0) (K.panelSuspect p) 0

theorem shutPanel_eq (s : State) (p : Nat) : shutPanel s p = settle (stopShown (buffersReleased s p) p) := rfl

theorem frame_releaseBuffer {p f : Nat} {ks : List Nat} (hks : Marks p ks) {r s : State} (h : FrameStep p ks r s) :
    FrameStep p ks r (releaseBuffer s p f) := by
  unfold releaseBuffer
  split
  · exact h
  next b _ =>
    have hdeleted : FrameStep p ks r (modPanel s p (fun P => { P with bufs := tdel P.bufs f })) := h.modPanel rfl rfl
    have hch := complete_ch (t := b.ticket) (status := 0) (result := b.count) (detail := b.count) (List.Subset.refl _)
      (Changes.refl _ (modPanel s p (fun P => { P with bufs := tdel P.bufs f })))
    exact hdeleted.quiet (hch.panels (by decide)) (marks_of_changes hks (.refl _ _) hch (by decide))

theorem frame_buffersReleased {p : Nat} {ks : List Nat} (hks : Marks p ks) (s : State) : FrameStep p ks s (buffersReleased s p) := by
  unfold buffersReleased
  extract_lets rs s1
  have h1 : FrameStep p ks s s1 := by
    unfold s1
    split
    · exact frame_writeReports hks ((FrameStep.refl p ks s).modPanel rfl rfl)
    · exact .refl ..
  clear_value s1
  exact h1.foldl _ fun _ e _ hx => frame_releaseBuffer hks hx

/-- A panel that stops. -/
structure Stopping (p : Nat) (t : State) : Prop where
  off : getB t (K.panelEnable p) = false
  state : panSt t p = panStopping
  contacts : getN t (K.panelContacts p) = 0
  panel : (panelOf t p).bufs = [] ∧ (panelOf t p).contacts = []

theorem Stopping.devFrame {p : Nat} {v t : State} (h : Stopping p v) (hframe : DevFrame (settledKeys p) [] v t) (hpanel : panelOf t p = panelOf v p) :
    Stopping p t := by
  have hkey {k : Nat} (hk : k ∈ panelKeys p) : getN t k = getN v k := hframe.objs.getN (mem_settled_panel hk)
  have henable : getN t (K.panelEnable p) = getN v (K.panelEnable p) := hkey (.head _)
  have hstate : getN t (K.panelState p) = getN v (K.panelState p) := hkey (.tail _ (.tail _ (.head _)))
  have hcontacts : getN t (K.panelContacts p) = getN v (K.panelContacts p) := hkey (.tail _ (.tail _ (.tail _ (.tail _ (.head _)))))
  exact ⟨by rw [getB, henable, ← getB, h.off], hstate.trans h.state, hcontacts.trans h.contacts, by rw [hpanel]; exact h.panel⟩

theorem stopShown_stopping {s : State} {p : Nat} (hoff : getB s (K.panelEnable p) = false) : Stopping p (stopShown s p) := by
  have henable : getN (stopShown s p) (K.panelEnable p) = getN s (K.panelEnable p) :=
    (getN_putN_ne _ _ (by simp only [K.panelEnable, K.panelSuspect, objKey]; omega)).trans
      ((getN_putN_ne _ _ (by simp only [K.panelEnable, K.panelContacts, objKey]; omega)).trans
        (getN_putN_ne _ _ (by simp only [K.panelEnable, K.panelState, objKey]; omega)))
  have hpanel : panelOf (stopShown s p) p = { chanNext := (panelOf s p).chanNext } :=
    panelOf_modPanel s p (fun P => { chanNext := P.chanNext })
  refine ⟨by rw [getB, henable, ← getB, hoff], ?_, ?_, by rw [hpanel]; exact ⟨rfl, rfl⟩⟩
  · exact (getN_putN_ne _ _ (by simp only [K.panelState, K.panelSuspect, objKey]; omega)).trans
      ((getN_putN_ne _ _ (by simp only [K.panelState, K.panelContacts, objKey]; omega)).trans (getN_putN ..))
  · exact (getN_putN_ne _ _ (by simp only [K.panelContacts, K.panelSuspect, objKey]; omega)).trans (getN_putN ..)

theorem shutPanel_stopping {s : State} {p : Nat} (hp : p < 4) (hoff : getB s (K.panelEnable p) = false) : Stopping p (shutPanel s p) := by
  have hks : Marks p [K.panelEnable p] := ⟨hp, fun k hk => .inr ⟨1, by decide, List.mem_singleton.1 hk⟩⟩
  have hkept : getN (buffersReleased s p) (K.panelEnable p) = getN s (K.panelEnable p) := (frame_buffersReleased hks s).objs.getN (.head _)
  have hstopping := stopShown_stopping (s := buffersReleased s p) (p := p) (by rw [getB, hkept, ← getB, hoff])
  rw [shutPanel_eq]
  generalize stopShown (buffersReleased s p) p = u at hstopping ⊢
  exact hstopping.devFrame (.settle (quiet_device hp) (.refl _ _ u))
    (panelOf_of_changes (settle_ch (List.Subset.refl _) (Changes.refl _ u)) (by decide) p)

/-! ## The two writes -/

theorem renewed_not_transit {s : State} {i p : Nat} (hnot : K.panelEnable p ∉ s.transit) :
    (renewed s i).transit.contains (objKey (0x4420 + p) 1) = false := by
  have hcontains : (renewed s i).transit.contains (K.panelEnable p) = false := by simpa [renewed] using hnot
  exact hcontains

section
variable {s : State} {r : DictReq} {i : Nat} {p : Fin 4} (hquiet : Quiet s) (hmgr : managerSession s i) (hnot : K.panelEnable p ∉ s.transit)
include hquiet hmgr hnot

theorem panelEnable_spec (h : AdmittedWrite s r i (K.panelEnable p) 1) (hoff : getB s (K.panelEnable p) = false)
    (hlines : getBytes s (K.panelLines p) ≠ []) (hstate : panSt s p = panOff) (hdoms : anyStopping s ((panelChips s p).map chipDomain) = false) :
    ∃ t, exec (.panelEnable r p) s = .next t ∧ answered t r 0x11 .ok ∧ getB t (K.panelEnable p) = true ∧ panSt t p = panStarting ∧
      getN t (K.panelFrames p) = 0 := by
  have hcalm : Calm [19, 20] (renewed s i) := renewed_calm hquiet touch_domains
  have hstarting := startPanel_starting p.isLt hcalm
  have hcalmV := calm_startPanel p.isLt hcalm
  have hcontains := renewed_not_transit (i := i) hnot
  have hstopping : (panSt (renewed s i) p == panStopping || anyStopping (renewed s i) ((panelChips (renewed s i) p).map chipDomain)) = false := by
    have hsame : anyStopping (renewed s i) ((panelChips (renewed s i) p).map chipDomain) = false := hdoms
    rw [show panSt (renewed s i) p = panOff from hstate, hsame]
    rfl
  have happly : panelApply (renewed s i) p 1 (.num 1) = (startPanel (renewed s i) p, .ok) := by
    unfold panelApply enableWrite
    dsimp only
    rw [if_pos rfl, if_pos (by decide), hcontains, hstopping, show getB (renewed s i) (objKey (0x4420 + p) 1) = false from hoff]
    rfl
  have hclaims : (areaClaims (renewed s i) (0x4420 + p) 1 1).1 = [] := by
    rw [areaClaims_panel p.isLt]
    refine enableClaims_quiet hquiet fun d hd => ?_
    obtain ⟨e, he, hde⟩ := List.mem_flatMap.1 hd
    have hclosure : ∀ e ∈ [19, 20], ∀ d ∈ domClosure e, d < 24 ∧ d ≠ 1 := by decide +kernel
    exact hclosure e (panelDomains_mem he) d hde
  have hcheck : areaCheck (renewed s i) (sessionCtx s r i none) (0x4420 + p) 1 (.num 1) = .ok := by
    rw [areaCheck_panel p.isLt (by decide)]
    have hbytes : getBytes (renewed s i) (K.panelLines p) = getBytes s (K.panelLines p) := rfl
    unfold panelCheck
    dsimp only
    rw [if_pos rfl, hbytes]
    exact if_neg fun hempty => hlines (List.isEmpty_iff.1 hempty.2)
  obtain ⟨u, hexec, hans, hch⟩ := areaWrite_unclaimed (t := powerDone (startPanel (renewed s i) p)) (row_panelEnable p) (.inl rfl) (by omega)
    (by decide) h hmgr (areaAccess_panel p.isLt (by decide) (isMgr_session hmgr)) (by rfl) (by rfl) hcheck hclaims
    (by rw [areaApply_panel p.isLt (by decide), if_pos rfl, happly, powered_ok])
  have hD := starting_device p.isLt hcalmV hstarting
  have hnone : ∀ d ∈ panelDomains (renewed s i) p, domSt (renewed s i) d ≠ domStopping := fun d hd hdom => by
    rw [anyStopping, Bool.or_eq_false_iff] at hdoms
    exact List.any_eq_false.1 hdoms.2 d hd (beq_iff_eq.2 hdom)
  obtain ⟨hdone, -⟩ := panel_powerDone p.isLt hD hcalmV (.inr (by rw [hstarting.state]; decide)) (.inl fun d hd => by
    have hmem : d ∈ panelDomains (renewed s i) p := by rwa [panelDomains, hstarting.chips] at hd
    exact ⟨hmem, by rw [hstarting.doms d hmem]; exact hnone d hmem⟩)
  obtain ⟨hon, hst, hframes, -, -⟩ := hstarting.devFrame hdone
  have hkey (k : Nat) : getN u k = getN (powerDone (startPanel (renewed s i) p)) k := hch.getN (by decide) (by decide) k
  exact ⟨u, hexec, hans, by rw [getB, hkey, ← getB, hon], (hkey _).trans hst, (hkey _).trans hframes⟩

theorem panelDisable_spec (h : AdmittedWrite s r i (K.panelEnable p) 0) (hon : getB s (K.panelEnable p) = true) (hstate : panSt s p = panActive) :
    ∃ t, exec (.panelDisable r p) s = .next t ∧ answered t r 0x11 .ok ∧ getB t (K.panelEnable p) = false ∧ panSt t p = panStopping ∧
      (panelOf t p).bufs = [] ∧ (panelOf t p).contacts = [] ∧ getN t (K.panelContacts p) = 0 := by
  have hcalm : Calm [19, 20] (renewed s i) := renewed_calm hquiet touch_domains
  have hp := p.isLt
  have hwritten : Calm [19, 20] (writeB (renewed s i) (K.panelEnable p) false) :=
    calm_frame hcalm (.writeDevice calm_device (.refl _ _ _) (panel_apart (calm_apart hp) (by omega) (by decide)) (by omega) (by decide))
  have hstops : stopPanel (renewed s i) p = shutPanel (writeB (renewed s i) (K.panelEnable p) false) p := by
    have hactive : panSt (writeB (renewed s i) (K.panelEnable p) false) p = panActive :=
      (getN_writeN_ne _ 0 (by simp only [K.panelState, K.panelEnable, objKey]; omega)).trans hstate
    unfold stopPanel
    exact if_neg (by rw [hactive]; decide)
  have hstopping : Stopping p (stopPanel (renewed s i) p) := by
    rw [hstops]
    exact shutPanel_stopping hp (getB_writeB ..)
  have hcalmV : Calm [19, 20] (stopPanel (renewed s i) p) := by
    rw [hstops]
    exact calm_frame hwritten (devFrame_shutPanel calm_device hp (calm_apart hp) (.refl _ _ _))
  have hcontains := renewed_not_transit (i := i) hnot
  have happly : panelApply (renewed s i) p 1 (.num 0) = (stopPanel (renewed s i) p, .ok) := by
    unfold panelApply enableWrite
    dsimp only
    rw [if_pos rfl, if_neg (by decide), hcontains, if_neg (by decide), if_pos (show getB (renewed s i) (objKey (0x4420 + p) 1) = true from hon)]
  have hclaims : (areaClaims (renewed s i) (0x4420 + p) 1 0).1 = [] := by
    rw [areaClaims_panel p.isLt]
    exact enableClaims_off (renewed s i) (objKey (0x4420 + p) 1) (panSt (renewed s i) p == panStopping) ((panelChips (renewed s i) p).map chipDomain)
  have hcheck : areaCheck (renewed s i) (sessionCtx s r i none) (0x4420 + p) 1 (.num 0) = .ok := by
    rw [areaCheck_panel p.isLt (by decide)]
    unfold panelCheck
    dsimp only
    rw [if_pos rfl]
    exact if_neg fun hone => absurd hone.1 (by decide)
  obtain ⟨u, hexec, hans, hch⟩ := areaWrite_unclaimed (t := powerDone (stopPanel (renewed s i) p)) (row_panelEnable p) (.inl rfl) (by omega)
    (by decide) h hmgr (areaAccess_panel p.isLt (by decide) (isMgr_session hmgr)) (by rfl) (by rfl) hcheck hclaims
    (by rw [areaApply_panel p.isLt (by decide), if_pos rfl, happly, powered_ok])
  have hexec : exec (.panelDisable r p) s = .next u := hexec
  clear hstops happly
  generalize stopPanel (renewed s i) p = v at *
  obtain ⟨hdone, hpanel⟩ := panel_powerDone hp (quiet_device hp) hcalmV (.inl hstopping.off) (.inr (.inr hstopping.state))
  obtain ⟨hoff, hst, hcontacts, hbufs, hnone⟩ := hstopping.devFrame hdone hpanel
  have hkey (k : Nat) : getN u k = getN (powerDone v) k := hch.getN (by decide) (by decide) k
  have hrecord : panelOf u p = panelOf (powerDone v) p := panelOf_of_changes hch (by decide) p
  exact ⟨u, hexec, hans, by rw [getB, hkey, ← getB, hoff], (hkey _).trans hst, by rw [hrecord]; exact hbufs, by rw [hrecord]; exact hnone,
    (hkey _).trans hcontacts⟩

end

/-- Settles O51: a clause for each command. -/
theorem touchCommands : Obligations.TouchCommands := by
  unfold Obligations.TouchCommands
  refine ⟨fun s r i p h hmgr hquiet hoff hlines hstate hnot hdoms => panelEnable_spec hquiet hmgr hnot h hoff hlines hstate hdoms,
    fun s r i p h hmgr hquiet hon hstate hnot => panelDisable_spec hquiet hmgr hnot h hon hstate,
    fun s p hstopping hnot => panelStopDone_spec hstopping hnot,
    fun s p x hstarting hon hmode hbad hframes hself hgrid hlines =>
      ⟨panelStart_fails hmode hbad hstarting hon hframes hself hgrid hlines,
        panelStart_active hmode hbad hstarting hon hframes hself hgrid hlines⟩,
    fun s p x hactive htesting hmode hbad hopens hshorts => panelTest_passes hactive htesting hmode hbad hopens hshorts,
    fun s r i p h hmgr hactive => panelRefCapture_spec hmgr h hactive,
    fun s r i p h hmgr => panelTestRun_spec hmgr h,
    fun s p f hactive hnodes hlines hdue => touchFrameMark_spec hactive hnodes hlines hdue,
    fun s p id c hactive hlimit hfind hdue => stuckTimeout_spec hactive hlimit hfind hdue,
    fun s p hactive hafter hcontacts hlarge htest hdue => driftEntry_spec hactive hafter hcontacts hlarge htest hdue,
    fun s p gs ok hdrift hlen hdue hok => ⟨driftFrame_first hdrift hlen hdue hok, fun j hj hlater hover habove =>
      driftFrame_wakes hdrift hlen hdue hok hj hlater hover habove⟩,
    fun s h b hf => ⟨fun hp hslots halign hrole hnone => touchBuf_new hf ⟨hp, hslots, halign, hrole⟩ hnone,
      fun old hp hslots halign hrole hfind => touchBuf_replaced hf ⟨hp, hslots, halign, hrole⟩ hfind,
      fun hbad => touchBuf_faults hf (bufRefused_iff.1 ?_)⟩⟩
  obtain hp | hslots | halign | ⟨hpf, hregion⟩ := hbad
  · exact .inl hp
  · exact .inr (.inl hslots)
  · exact .inr (.inr (.inl halign))
  · exact .inr (.inr (.inr ⟨by rw [hpf]; rfl, by rw [hregion]; rfl⟩))

end Sys2Proof.Proofs.TouchEnable

end
